-- ==== Sys2Proof/Word.lean ====
section
/-! DEFINITION. The word types of AG-FKB96 (R4, R6, R20). -/

namespace Sys2Proof

/-- One byte. -/
abbrev Byte := BitVec 8
/-- A 32-bit register or instruction word (R20). -/
abbrev Word := BitVec 32
/-- A 64-bit register pair, low word in the even register (R10). -/
abbrev DWord := BitVec 64
/-- A lane mask: lane `k` in bit `k` (R101). -/
abbrev LaneMask := BitVec 64
/-- A lane index. -/
abbrev Lane := Fin 64

end Sys2Proof
end

