-- ==== Sys2Proof/Config.lean ====
section
/-! DEFINITION. What one implementation fixes and the manual leaves open. Every `opaque` below is a FREE VALUE: it has no body,
nothing can evaluate it, and a statement that holds, holds whatever it is. notes/assumptions says which open point each stands for. -/

namespace Sys2Proof.Config

/-- Which of the things that can happen next does happen: an index, reduced modulo the number of candidates (log entry 3). -/
opaque choice : Nat → Nat
/-- Whether the L1 still holds a line it once filled, or has evicted it (log entry 12). -/
opaque l1Keeps : Nat → Nat → Bool
/-- Which line an L1 share gives up where it has no room for another: an index (R265, R297, log entry 12). -/
opaque l1Victim : Nat → Nat
/-- Which translation a full TLB gives up for a new one: an index (R337, log entry 12). -/
opaque tlbVictim : Nat → Nat
/-- What a byte of the scratchpad of a cluster member that has ended reads as (log entry 136). -/
opaque goneByte : Nat → Nat → Byte
/-- Whether a TLB still holds a translation it once took in, or has dropped it (R337, log entry 12). -/
opaque tlbKeeps : Nat → Nat → Bool
/-- What the storage of a 64-bit word holds once a double-bit error has struck it, as the unveiling reads it (log entry 24). -/
opaque struckByte : Nat → Byte
/-- The encoding of a device response of the SPDM, TDISP and IDE key-management protocols whose bytes the manual leaves to
the DMTF and PCI-SIG documents (log entry 26). -/
opaque responseBytes : Nat → Nat → List Byte
/-- The SHA-384 digest that a measurement block holds, by the number of what it measures (R443, log entry 26). -/
opaque measurement : Nat → BitVec 384

/-- The slice word of a lane that an operand collector holds nothing for (log entry 28). -/
opaque uncollected : Nat → BitVec 32
/-- Whether the matrix engine sees the new value of a scratchpad byte written since the operation was issued (R199, log entry 29). -/
opaque engineSees : Nat → Nat → Bool
/-- What WHEAD of a tile buffer holds while groups wait on it (log entry 15). -/
opaque waitHead : Nat → BitVec 16

/-- The LPDDR 6 row, of its channel, that holds a line of device memory: 16 * row + channel (R428, log entry 30). -/
opaque rowOf : Nat → Nat
/-- Rows of an LPDDR 6 channel (R428, log entry 30). -/
opaque rowCount : Nat
/-- Length of an LPDDR 6 refresh interval in reference periods (R428, log entry 30). -/
opaque refreshPeriods : Nat
/-- The squared distance a VOXEL job gives an entry of its table whose stored point is not finite (log entry 31). -/
opaque strayDistance : Nat → Nat
/-- DATAEND of a compressed object, from its TABOFF and its number of chunks (log entry 32). -/
opaque dataEnd : Nat → Nat → Nat
/-- How many tasks that are not yet dispatched a partition's queues hold beside the one that empty queues always take (R211, R281, log
entry 144). -/
opaque taskQueues : Nat
/-- What the units send over the mesh: at each cycle a source, a receiver and a size, or nothing (R391, log entry 107). -/
opaque traffic : Nat → Option (Nat × Nat × Nat)
/-- At which of the plinth's edge routers a periphery unit stands: an index (R388, log entry 107). -/
opaque edgeRouter : Nat → Nat
/-- Whether a collision query reads an octree node whose cube its ball does not meet: node, free counter (log entry 33). -/
opaque visitsNode : Nat → Nat → Bool

end Sys2Proof.Config
end

