-- ==== Sys2Proof/Syntax.lean ====
section
/-! DEFINITION. The instructions and events of AG-FKB96: one constructor per row of spec/opcode_table.json.
Rows 0 to 256 are instruction words (R20 to R27, R37); the others are the steps of the device outside an instruction word
(spec/95_what_each_step_holds.md). -/

namespace Sys2Proof

/-- One step of the part: an instruction word issued by a path (R37), or one of the events of the operation table.
Fields of a word bear the names of spec/opcode_table.json: `d`, `a`, `b` register codes, `w` the stall count, `u` the U bit,
`x`, `y`, `z` the last-read bits ka, kb, kc, `i` the immediate. The arguments of an event name the unit concerned. -/
inductive Instr where
  /-- NOP (R89). -/
  | nop (w : BitVec 2)
  /-- JMP (R84). -/
  | jmp (i : BitVec 18)
  /-- BRA (R83). -/
  | bra (n : Bool) (p : BitVec 4) (i : BitVec 18)
  /-- BRANY (R84). -/
  | brany (n : Bool) (p : BitVec 4) (i : BitVec 18)
  /-- BRALL (R84). -/
  | brall (n : Bool) (p : BitVec 4) (i : BitVec 18)
  /-- BRC (R84). -/
  | brc (c : BitVec 6) (i : BitVec 18)
  /-- JPT (R85). -/
  | jpt (i : BitVec 18)
  /-- CALL (R87). -/
  | call (n : Bool) (p : BitVec 4) (i : BitVec 18)
  /-- CALLI (R87). -/
  | calli (a : BitVec 6) (w : BitVec 2)
  /-- RET (R88). -/
  | ret (w : BitVec 2)
  /-- LOOP (R90). -/
  | loop (d : BitVec 6) (a : BitVec 6) (i : BitVec 11)
  /-- LOOPK (R90). -/
  | loopk (c : BitVec 2) (l : BitVec 8) (n : BitVec 10)
  /-- LEAVE (R92). -/
  | leave (c : BitVec 2)
  /-- EXIT (R94). -/
  | exit (w : BitVec 2)
  /-- YIELD (R95). -/
  | yield (w : BitVec 2)
  /-- BKPT (R96). -/
  | bkpt (i : BitVec 11)
  /-- TRAP (R97). -/
  | trap (i : BitVec 11)
  /-- TRAPRET (R320). -/
  | trapret (w : BitVec 2)
  /-- XREPL (R99); `ux`: U and the last-read mark of field a (R28, R80). -/
  | xrepl (a : BitVec 6) (w : BitVec 2) (ux : Bool × Bool)
  /-- MODE (R100). -/
  | mode (a : BitVec 6) (w : BitVec 2)
  /-- MODEF (R100). -/
  | modef (d : BitVec 6) (i : BitVec 11)
  /-- MODERD (R100). -/
  | moderd (d : BitVec 6) (w : BitVec 2)
  /-- EXMSV (R101). -/
  | exmsv (d : BitVec 6) (w : BitVec 2)
  /-- EXMLD (R101). -/
  | exmld (a : BitVec 6) (w : BitVec 2)
  /-- EXMCMB (R101). -/
  | exmcmb (a : BitVec 6) (f : BitVec 3)
  /-- EXMP (R101). -/
  | exmp (a : BitVec 6) (b : BitVec 6) (w : BitVec 2)
  /-- IDRD (R102). -/
  | idrd (d : BitVec 6) (u : Bool) (i : BitVec 11)
  /-- SYSRD (R26). -/
  | sysrd (d : BitVec 6) (n : BitVec 12)
  /-- SYSWR (R26). -/
  | syswr (d : BitVec 6) (n : BitVec 12)
  /-- RELN (R105). -/
  | reln (a : BitVec 6) (b : BitVec 6) (w : BitVec 2)
  /-- IDEMB (R106). -/
  | idemb (w : BitVec 2)
  /-- IDEME (R106). -/
  | ideme (w : BitVec 2)
  /-- IADD (R108). -/
  | iadd (d : BitVec 6) (a : BitVec 6) (b : BitVec 6) (w : BitVec 2) (u : Bool) (x : Bool) (y : Bool)
  /-- ISUB (R108). -/
  | isub (d : BitVec 6) (a : BitVec 6) (b : BitVec 6) (w : BitVec 2) (u : Bool) (x : Bool) (y : Bool)
  /-- IMUL (R108). -/
  | imul (d : BitVec 6) (a : BitVec 6) (b : BitVec 6) (w : BitVec 2) (u : Bool) (x : Bool) (y : Bool)
  /-- IMULH (R108). -/
  | imulh (d : BitVec 6) (a : BitVec 6) (b : BitVec 6) (w : BitVec 2) (u : Bool) (x : Bool) (y : Bool)
  /-- IMULHU (R108). -/
  | imulhu (d : BitVec 6) (a : BitVec 6) (b : BitVec 6) (w : BitVec 2) (u : Bool) (x : Bool) (y : Bool)
  /-- IMAD (R108). -/
  | imad (d : BitVec 6) (a : BitVec 6) (b : BitVec 6) (w : BitVec 2) (u : Bool) (x : Bool) (y : Bool) (z : Bool)
  /-- IDIV (R109). -/
  | idiv (d : BitVec 6) (a : BitVec 6) (b : BitVec 6) (w : BitVec 2) (u : Bool) (x : Bool) (y : Bool)
  /-- IDIVU (R109). -/
  | idivu (d : BitVec 6) (a : BitVec 6) (b : BitVec 6) (w : BitVec 2) (u : Bool) (x : Bool) (y : Bool)
  /-- IREM (R109). -/
  | irem (d : BitVec 6) (a : BitVec 6) (b : BitVec 6) (w : BitVec 2) (u : Bool) (x : Bool) (y : Bool)
  /-- IREMU (R109). -/
  | iremu (d : BitVec 6) (a : BitVec 6) (b : BitVec 6) (w : BitVec 2) (u : Bool) (x : Bool) (y : Bool)
  /-- IMIN (R108). -/
  | imin (d : BitVec 6) (a : BitVec 6) (b : BitVec 6) (w : BitVec 2) (u : Bool) (x : Bool) (y : Bool)
  /-- IMAX (R108). -/
  | imax (d : BitVec 6) (a : BitVec 6) (b : BitVec 6) (w : BitVec 2) (u : Bool) (x : Bool) (y : Bool)
  /-- IMINU (R108). -/
  | iminu (d : BitVec 6) (a : BitVec 6) (b : BitVec 6) (w : BitVec 2) (u : Bool) (x : Bool) (y : Bool)
  /-- IMAXU (R108). -/
  | imaxu (d : BitVec 6) (a : BitVec 6) (b : BitVec 6) (w : BitVec 2) (u : Bool) (x : Bool) (y : Bool)
  /-- IABS (R108). -/
  | iabs (d : BitVec 6) (a : BitVec 6) (w : BitVec 2) (u : Bool) (x : Bool)
  /-- INEG (R108). -/
  | ineg (d : BitVec 6) (a : BitVec 6) (w : BitVec 2) (u : Bool) (x : Bool)
  /-- AND (R110). -/
  | and (d : BitVec 6) (a : BitVec 6) (b : BitVec 6) (w : BitVec 2) (u : Bool) (x : Bool) (y : Bool)
  /-- OR (R110). -/
  | or (d : BitVec 6) (a : BitVec 6) (b : BitVec 6) (w : BitVec 2) (u : Bool) (x : Bool) (y : Bool)
  /-- XOR (R110). -/
  | xor (d : BitVec 6) (a : BitVec 6) (b : BitVec 6) (w : BitVec 2) (u : Bool) (x : Bool) (y : Bool)
  /-- ANDN (R110). -/
  | andn (d : BitVec 6) (a : BitVec 6) (b : BitVec 6) (w : BitVec 2) (u : Bool) (x : Bool) (y : Bool)
  /-- SHL (R110). -/
  | shl (d : BitVec 6) (a : BitVec 6) (b : BitVec 6) (w : BitVec 2) (u : Bool) (x : Bool) (y : Bool)
  /-- SHR (R110). -/
  | shr (d : BitVec 6) (a : BitVec 6) (b : BitVec 6) (w : BitVec 2) (u : Bool) (x : Bool) (y : Bool)
  /-- SHRA (R110). -/
  | shra (d : BitVec 6) (a : BitVec 6) (b : BitVec 6) (w : BitVec 2) (u : Bool) (x : Bool) (y : Bool)
  /-- ROTL (R110). -/
  | rotl (d : BitVec 6) (a : BitVec 6) (b : BitVec 6) (w : BitVec 2) (u : Bool) (x : Bool) (y : Bool)
  /-- POPC (R110). -/
  | popc (d : BitVec 6) (a : BitVec 6) (w : BitVec 2) (u : Bool) (x : Bool)
  /-- CLZ (R110). -/
  | clz (d : BitVec 6) (a : BitVec 6) (w : BitVec 2) (u : Bool) (x : Bool)
  /-- BREV (R110). -/
  | brev (d : BitVec 6) (a : BitVec 6) (w : BitVec 2) (u : Bool) (x : Bool)
  /-- BFX (R111). -/
  | bfx (d : BitVec 6) (a : BitVec 6) (b : BitVec 6) (u : Bool) (s : Bool)
  /-- BFI (R111). -/
  | bfi (d : BitVec 6) (a : BitVec 6) (b : BitVec 6) (u : Bool)
  /-- BPERM (R112). -/
  | bperm (d : BitVec 6) (a : BitVec 6) (b : BitVec 6) (w : BitVec 2) (u : Bool) (x : Bool) (y : Bool)
  /-- FSHF (R113). -/
  | fshf (d : BitVec 6) (a : BitVec 6) (b : BitVec 6) (w : BitVec 2) (u : Bool) (x : Bool) (y : Bool) (z : Bool)
  /-- SEL (R114). -/
  | sel (d : BitVec 6) (a : BitVec 6) (b : BitVec 6) (n : Bool) (p : BitVec 4)
  /-- MOV (R115). -/
  | mov (d : BitVec 6) (b : BitVec 6) (w : BitVec 2) (u : Bool) (y : Bool)
  /-- MOVI (R115). -/
  | movi (d : BitVec 6) (u : Bool) (i : BitVec 11)
  /-- LDCW (R27). -/
  | ldcw (d : BitVec 6) (u : Bool) (lit : Word)
  /-- MOVS (R115). -/
  | movs (d : BitVec 6) (a : BitVec 6) (w : BitVec 2)
  /-- ADDI (R116). -/
  | addi (d : BitVec 6) (a : BitVec 6) (u : Bool) (i : BitVec 11)
  /-- MULI (R116). -/
  | muli (d : BitVec 6) (a : BitVec 6) (u : Bool) (i : BitVec 11)
  /-- ANDI (R116). -/
  | andi (d : BitVec 6) (a : BitVec 6) (u : Bool) (i : BitVec 11)
  /-- ORI (R116). -/
  | ori (d : BitVec 6) (a : BitVec 6) (u : Bool) (i : BitVec 11)
  /-- XORI (R116). -/
  | xori (d : BitVec 6) (a : BitVec 6) (u : Bool) (i : BitVec 11)
  /-- SHLI (R116). -/
  | shli (d : BitVec 6) (a : BitVec 6) (u : Bool) (i : BitVec 11)
  /-- SHRI (R116). -/
  | shri (d : BitVec 6) (a : BitVec 6) (u : Bool) (i : BitVec 11)
  /-- SHRAI (R116). -/
  | shrai (d : BitVec 6) (a : BitVec 6) (u : Bool) (i : BitVec 11)
  /-- AADD (R117). -/
  | aadd (d : BitVec 6) (a : BitVec 6) (b : BitVec 6) (w : BitVec 2) (u : Bool) (x : Bool) (y : Bool)
  /-- ALEA (R117). -/
  | alea (d : BitVec 6) (a : BitVec 6) (b : BitVec 6) (u : Bool) (e : Bool) (h : BitVec 3)
  /-- AADDI (R117). -/
  | aaddi (d : BitVec 6) (a : BitVec 6) (u : Bool) (i : BitVec 11)
  /-- ASUB (R117). -/
  | asub (d : BitVec 6) (a : BitVec 6) (b : BitVec 6) (w : BitVec 2) (u : Bool) (x : Bool) (y : Bool)
  /-- ICEQ (R118). -/
  | iceq (d : BitVec 6) (a : BitVec 6) (b : BitVec 6) (w : BitVec 2) (u : Bool) (x : Bool) (y : Bool)
  /-- ICNE (R118). -/
  | icne (d : BitVec 6) (a : BitVec 6) (b : BitVec 6) (w : BitVec 2) (u : Bool) (x : Bool) (y : Bool)
  /-- ICLT (R118). -/
  | iclt (d : BitVec 6) (a : BitVec 6) (b : BitVec 6) (w : BitVec 2) (u : Bool) (x : Bool) (y : Bool)
  /-- ICLE (R118). -/
  | icle (d : BitVec 6) (a : BitVec 6) (b : BitVec 6) (w : BitVec 2) (u : Bool) (x : Bool) (y : Bool)
  /-- ICLTU (R118). -/
  | icltu (d : BitVec 6) (a : BitVec 6) (b : BitVec 6) (w : BitVec 2) (u : Bool) (x : Bool) (y : Bool)
  /-- ICLEU (R118). -/
  | icleu (d : BitVec 6) (a : BitVec 6) (b : BitVec 6) (w : BitVec 2) (u : Bool) (x : Bool) (y : Bool)
  /-- ICEQI (R118). -/
  | iceqi (d : BitVec 6) (a : BitVec 6) (u : Bool) (i : BitVec 11)
  /-- ICLTI (R118). -/
  | iclti (d : BitVec 6) (a : BitVec 6) (u : Bool) (i : BitVec 11)
  /-- PAND (R119). -/
  | pand (d : BitVec 6) (a : BitVec 6) (b : BitVec 6) (w : BitVec 2) (u : Bool)
  /-- POR (R119). -/
  | por (d : BitVec 6) (a : BitVec 6) (b : BitVec 6) (w : BitVec 2) (u : Bool)
  /-- PXOR (R119). -/
  | pxor (d : BitVec 6) (a : BitVec 6) (b : BitVec 6) (w : BitVec 2) (u : Bool)
  /-- PANDN (R119). -/
  | pandn (d : BitVec 6) (a : BitVec 6) (b : BitVec 6) (w : BitVec 2) (u : Bool)
  /-- PTOS (R120). -/
  | ptos (d : BitVec 6) (a : BitVec 6) (w : BitVec 2)
  /-- PFROMS (R120). -/
  | pfroms (d : BitVec 6) (a : BitVec 6) (w : BitVec 2)
  /-- CMRD (R120). -/
  | cmrd (d : BitVec 6) (w : BitVec 2)
  /-- CMWR (R120). -/
  | cmwr (a : BitVec 6) (w : BitVec 2)
  /-- FADD (R126). -/
  | fadd (d : BitVec 6) (a : BitVec 6) (b : BitVec 6) (w : BitVec 2) (u : Bool) (x : Bool) (y : Bool)
  /-- FSUB (R126). -/
  | fsub (d : BitVec 6) (a : BitVec 6) (b : BitVec 6) (w : BitVec 2) (u : Bool) (x : Bool) (y : Bool)
  /-- FMUL (R126). -/
  | fmul (d : BitVec 6) (a : BitVec 6) (b : BitVec 6) (w : BitVec 2) (u : Bool) (x : Bool) (y : Bool)
  /-- FFMA (R126). -/
  | ffma (d : BitVec 6) (a : BitVec 6) (b : BitVec 6) (w : BitVec 2) (u : Bool) (x : Bool) (y : Bool) (z : Bool)
  /-- FFMS (R126). -/
  | ffms (d : BitVec 6) (a : BitVec 6) (b : BitVec 6) (w : BitVec 2) (u : Bool) (x : Bool) (y : Bool) (z : Bool)
  /-- FNMA (R126). -/
  | fnma (d : BitVec 6) (a : BitVec 6) (b : BitVec 6) (w : BitVec 2) (u : Bool) (x : Bool) (y : Bool) (z : Bool)
  /-- FMIN (R127). -/
  | fmin (d : BitVec 6) (a : BitVec 6) (b : BitVec 6) (w : BitVec 2) (u : Bool) (x : Bool) (y : Bool)
  /-- FMAX (R127). -/
  | fmax (d : BitVec 6) (a : BitVec 6) (b : BitVec 6) (w : BitVec 2) (u : Bool) (x : Bool) (y : Bool)
  /-- FABS (R128). -/
  | fabs (d : BitVec 6) (a : BitVec 6) (w : BitVec 2) (u : Bool) (x : Bool)
  /-- FNEG (R128). -/
  | fneg (d : BitVec 6) (a : BitVec 6) (w : BitVec 2) (u : Bool) (x : Bool)
  /-- FCEQ (R129). -/
  | fceq (d : BitVec 6) (a : BitVec 6) (b : BitVec 6) (w : BitVec 2) (u : Bool) (x : Bool) (y : Bool)
  /-- FCNE (R129). -/
  | fcne (d : BitVec 6) (a : BitVec 6) (b : BitVec 6) (w : BitVec 2) (u : Bool) (x : Bool) (y : Bool)
  /-- FCLT (R129). -/
  | fclt (d : BitVec 6) (a : BitVec 6) (b : BitVec 6) (w : BitVec 2) (u : Bool) (x : Bool) (y : Bool)
  /-- FCLE (R129). -/
  | fcle (d : BitVec 6) (a : BitVec 6) (b : BitVec 6) (w : BitVec 2) (u : Bool) (x : Bool) (y : Bool)
  /-- FCUN (R129). -/
  | fcun (d : BitVec 6) (a : BitVec 6) (b : BitVec 6) (w : BitVec 2) (u : Bool) (x : Bool) (y : Bool)
  /-- FCLASS (R130). -/
  | fclass (d : BitVec 6) (a : BitVec 6) (w : BitVec 2) (u : Bool) (x : Bool)
  /-- FRCP (R135). -/
  | frcp (d : BitVec 6) (a : BitVec 6) (w : BitVec 2) (u : Bool) (x : Bool)
  /-- FRSQ (R135). -/
  | frsq (d : BitVec 6) (a : BitVec 6) (w : BitVec 2) (u : Bool) (x : Bool)
  /-- FSQRT (R131). -/
  | fsqrt (d : BitVec 6) (a : BitVec 6) (w : BitVec 2) (u : Bool) (x : Bool)
  /-- FDIV (R131). -/
  | fdiv (d : BitVec 6) (a : BitVec 6) (b : BitVec 6) (w : BitVec 2) (u : Bool) (x : Bool) (y : Bool)
  /-- FEXP2 (R135). -/
  | fexp2 (d : BitVec 6) (a : BitVec 6) (w : BitVec 2) (u : Bool) (x : Bool)
  /-- FLOG2 (R135). -/
  | flog2 (d : BitVec 6) (a : BitVec 6) (w : BitVec 2) (u : Bool) (x : Bool)
  /-- FSIN (R135). -/
  | fsin (d : BitVec 6) (a : BitVec 6) (w : BitVec 2) (u : Bool) (x : Bool)
  /-- FCOS (R135). -/
  | fcos (d : BitVec 6) (a : BitVec 6) (w : BitVec 2) (u : Bool) (x : Bool)
  /-- FTANH (R135). -/
  | ftanh (d : BitVec 6) (a : BitVec 6) (w : BitVec 2) (u : Bool) (x : Bool)
  /-- FSIG (R135). -/
  | fsig (d : BitVec 6) (a : BitVec 6) (w : BitVec 2) (u : Bool) (x : Bool)
  /-- FFRAC (R132). -/
  | ffrac (d : BitVec 6) (a : BitVec 6) (w : BitVec 2) (u : Bool) (x : Bool)
  /-- FRND (R132). -/
  | frnd (d : BitVec 6) (a : BitVec 6) (w : BitVec 2) (u : Bool) (x : Bool)
  /-- FSCALE (R132). -/
  | fscale (d : BitVec 6) (a : BitVec 6) (b : BitVec 6) (w : BitVec 2) (u : Bool) (x : Bool) (y : Bool)
  /-- FCPYS (R128). -/
  | fcpys (d : BitVec 6) (a : BitVec 6) (b : BitVec 6) (w : BitVec 2) (u : Bool) (x : Bool) (y : Bool)
  /-- FSAT (R132). -/
  | fsat (d : BitVec 6) (a : BitVec 6) (w : BitVec 2) (u : Bool) (x : Bool)
  /-- FLAGRD (R133). -/
  | flagrd (d : BitVec 6) (b : BitVec 6) (w : BitVec 2)
  /-- FADDE (R138). -/
  | fadde (d : BitVec 6) (a : BitVec 6) (b : BitVec 6) (w : BitVec 2) (u : Bool) (x : Bool) (y : Bool)
  /-- FSUBE (R138). -/
  | fsube (d : BitVec 6) (a : BitVec 6) (b : BitVec 6) (w : BitVec 2) (u : Bool) (x : Bool) (y : Bool)
  /-- FMULE (R138). -/
  | fmule (d : BitVec 6) (a : BitVec 6) (b : BitVec 6) (w : BitVec 2) (u : Bool) (x : Bool) (y : Bool)
  /-- FACC (R142). -/
  | facc (d : BitVec 6) (a : BitVec 6) (w : BitVec 2) (u : Bool) (x : Bool) (z : Bool)
  /-- DWADD (R143). -/
  | dwadd (d : BitVec 6) (a : BitVec 6) (b : BitVec 6) (w : BitVec 2) (u : Bool) (x : Bool) (y : Bool)
  /-- DWSUB (R143). -/
  | dwsub (d : BitVec 6) (a : BitVec 6) (b : BitVec 6) (w : BitVec 2) (u : Bool) (x : Bool) (y : Bool)
  /-- DWMUL (R143). -/
  | dwmul (d : BitVec 6) (a : BitVec 6) (b : BitVec 6) (w : BitVec 2) (u : Bool) (x : Bool) (y : Bool)
  /-- DWADDF (R142). -/
  | dwaddf (d : BitVec 6) (a : BitVec 6) (b : BitVec 6) (w : BitVec 2) (u : Bool) (x : Bool) (y : Bool)
  /-- DWMULF (R143). -/
  | dwmulf (d : BitVec 6) (a : BitVec 6) (b : BitVec 6) (w : BitVec 2) (u : Bool) (x : Bool) (y : Bool)
  /-- DWDIV (R143). -/
  | dwdiv (d : BitVec 6) (a : BitVec 6) (b : BitVec 6) (w : BitVec 2) (u : Bool) (x : Bool) (y : Bool)
  /-- DWSQRT (R143). -/
  | dwsqrt (d : BitVec 6) (a : BitVec 6) (w : BitVec 2) (u : Bool) (x : Bool)
  /-- DWNORM (R143). -/
  | dwnorm (d : BitVec 6) (a : BitVec 6) (w : BitVec 2) (u : Bool) (x : Bool)
  /-- DWTOF (R143). -/
  | dwtof (d : BitVec 6) (a : BitVec 6) (w : BitVec 2) (u : Bool) (x : Bool)
  /-- DWCLT (R143). -/
  | dwclt (d : BitVec 6) (a : BitVec 6) (b : BitVec 6) (w : BitVec 2) (u : Bool) (x : Bool) (y : Bool)
  /-- DWCEQ (R143). -/
  | dwceq (d : BitVec 6) (a : BitVec 6) (b : BitVec 6) (w : BitVec 2) (u : Bool) (x : Bool) (y : Bool)
  /-- CVTFF (R147). -/
  | cvtff (d : BitVec 6) (a : BitVec 6) (t : BitVec 3) (u : Bool) (s : BitVec 3)
  /-- CVTFI (R147). -/
  | cvtfi (d : BitVec 6) (a : BitVec 6) (t : BitVec 3) (u : Bool) (s : BitVec 3)
  /-- CVTIF (R147). -/
  | cvtif (d : BitVec 6) (a : BitVec 6) (t : BitVec 3) (u : Bool) (s : BitVec 3)
  /-- PACK (R148). -/
  | pack (d : BitVec 6) (a : BitVec 6) (b : BitVec 6) (u : Bool) (c : BitVec 4)
  /-- UNPK (R148). -/
  | unpk (d : BitVec 6) (a : BitVec 6) (u : Bool) (c : BitVec 4)
  /-- PACK8 (R149). -/
  | pack8 (d : BitVec 6) (a : BitVec 6) (b : BitVec 6) (u : Bool) (c : BitVec 4)
  /-- UNPK8 (R149). -/
  | unpk8 (d : BitVec 6) (a : BitVec 6) (u : Bool) (c : BitVec 4)
  /-- QNT4 (R150). -/
  | qnt4 (d : BitVec 6) (a : BitVec 6) (b : BitVec 6) (u : Bool) (t : Bool)
  /-- RAND (R154). -/
  | rand (d : BitVec 6) (b : BitVec 6) (w : BitVec 2) (u : Bool)
  /-- RANDF (R154). -/
  | randf (d : BitVec 6) (w : BitVec 2) (u : Bool)
  /-- CATSAMP (R155). -/
  | catsamp (d : BitVec 6) (a : BitVec 6) (b : BitVec 6) (w : BitVec 2) (x : Bool)
  /-- BARARV (R156). -/
  | bararv (d : BitVec 6) (b : BitVec 6) (w : BitVec 2)
  /-- SHFL (R159). -/
  | shfl (d : BitVec 6) (a : BitVec 6) (b : BitVec 6) (w : BitVec 2) (x : Bool) (y : Bool)
  /-- SHFLX (R159). -/
  | shflx (d : BitVec 6) (a : BitVec 6) (b : BitVec 6) (w : BitVec 2) (x : Bool)
  /-- SHFLU (R159). -/
  | shflu (d : BitVec 6) (a : BitVec 6) (i : BitVec 11)
  /-- SHFLD (R159). -/
  | shfld (d : BitVec 6) (a : BitVec 6) (i : BitVec 11)
  /-- BCAST (R160). -/
  | bcast (d : BitVec 6) (a : BitVec 6) (s : Bool) (l : BitVec 6)
  /-- VOTEANY (R161). -/
  | voteany (d : BitVec 6) (a : BitVec 6) (b : BitVec 6) (w : BitVec 2)
  /-- VOTEALL (R161). -/
  | voteall (d : BitVec 6) (a : BitVec 6) (b : BitVec 6) (w : BitVec 2)
  /-- BALLOT (R161). -/
  | ballot (d : BitVec 6) (a : BitVec 6) (b : BitVec 6) (w : BitVec 2)
  /-- SCANADD (R163). -/
  | scanadd (d : BitVec 6) (a : BitVec 6) (b : BitVec 6) (w : BitVec 2) (x : Bool)
  /-- SCANFADD (R163). -/
  | scanfadd (d : BitVec 6) (a : BitVec 6) (b : BitVec 6) (w : BitVec 2) (x : Bool)
  /-- REDADD (R164). -/
  | redadd (d : BitVec 6) (a : BitVec 6) (w : BitVec 2) (x : Bool)
  /-- REDFADD (R164). -/
  | redfadd (d : BitVec 6) (a : BitVec 6) (w : BitVec 2) (x : Bool)
  /-- REDMIN (R164). -/
  | redmin (d : BitVec 6) (a : BitVec 6) (b : BitVec 6) (w : BitVec 2) (x : Bool)
  /-- REDMAX (R164). -/
  | redmax (d : BitVec 6) (a : BitVec 6) (b : BitVec 6) (w : BitVec 2) (x : Bool)
  /-- REDSUMC (R165). -/
  | redsumc (d : BitVec 6) (a : BitVec 6) (w : BitVec 2) (x : Bool)
  /-- REDDOTC (R165). -/
  | reddotc (d : BitVec 6) (a : BitVec 6) (b : BitVec 6) (w : BitVec 2) (x : Bool) (y : Bool)
  /-- LDB (R166). -/
  | ldb (d : BitVec 6) (a : BitVec 6) (u : Bool) (s : BitVec 8) (r : BitVec 3)
  /-- LDBS (R166). -/
  | ldbs (d : BitVec 6) (a : BitVec 6) (u : Bool) (s : BitVec 8) (r : BitVec 3)
  /-- LDH (R166). -/
  | ldh (d : BitVec 6) (a : BitVec 6) (u : Bool) (s : BitVec 8) (r : BitVec 3)
  /-- LDHS (R166). -/
  | ldhs (d : BitVec 6) (a : BitVec 6) (u : Bool) (s : BitVec 8) (r : BitVec 3)
  /-- LDW (R166). -/
  | ldw (d : BitVec 6) (a : BitVec 6) (u : Bool) (s : BitVec 8) (r : BitVec 3)
  /-- LDD (R166). -/
  | ldd (d : BitVec 6) (a : BitVec 6) (u : Bool) (s : BitVec 8) (r : BitVec 3)
  /-- LDQ (R166). -/
  | ldq (d : BitVec 6) (a : BitVec 6) (u : Bool) (s : BitVec 8) (r : BitVec 3)
  /-- LDLN (R170). -/
  | ldln (d : BitVec 6) (a : BitVec 6) (s : BitVec 8) (r : BitVec 3)
  /-- STB (R166). -/
  | stb (d : BitVec 6) (a : BitVec 6) (u : Bool) (s : BitVec 8) (r : BitVec 3)
  /-- STH (R166). -/
  | sth (d : BitVec 6) (a : BitVec 6) (u : Bool) (s : BitVec 8) (r : BitVec 3)
  /-- STW (R166). -/
  | stw (d : BitVec 6) (a : BitVec 6) (u : Bool) (s : BitVec 8) (r : BitVec 3)
  /-- STD (R166). -/
  | std (d : BitVec 6) (a : BitVec 6) (u : Bool) (s : BitVec 8) (r : BitVec 3)
  /-- STQ (R166). -/
  | stq (d : BitVec 6) (a : BitVec 6) (u : Bool) (s : BitVec 8) (r : BitVec 3)
  /-- PREF (R171). -/
  | pref (a : BitVec 6) (u : Bool) (s : BitVec 8) (r : BitVec 3)
  /-- FENCE (R172). -/
  | fence (r : BitVec 3)
  /-- CFLUSH (R173). -/
  | cflush (a : BitVec 6) (b : BitVec 6) (l : Bool) (s : BitVec 3)
  /-- CINV (R173). -/
  | cinv (a : BitVec 6) (b : BitVec 6) (l : Bool) (s : BitVec 3)
  /-- ATADD (R175). -/
  | atadd (d : BitVec 6) (a : BitVec 6) (b : BitVec 6) (u : Bool) (v : Bool) (z : Bool) (r : BitVec 3)
  /-- ATMIN (R175). -/
  | atmin (d : BitVec 6) (a : BitVec 6) (b : BitVec 6) (u : Bool) (v : Bool) (z : Bool) (r : BitVec 3)
  /-- ATMAX (R175). -/
  | atmax (d : BitVec 6) (a : BitVec 6) (b : BitVec 6) (u : Bool) (v : Bool) (z : Bool) (r : BitVec 3)
  /-- ATAND (R175). -/
  | atand (d : BitVec 6) (a : BitVec 6) (b : BitVec 6) (u : Bool) (v : Bool) (z : Bool) (r : BitVec 3)
  /-- ATOR (R175). -/
  | ator (d : BitVec 6) (a : BitVec 6) (b : BitVec 6) (u : Bool) (v : Bool) (z : Bool) (r : BitVec 3)
  /-- ATXOR (R175). -/
  | atxor (d : BitVec 6) (a : BitVec 6) (b : BitVec 6) (u : Bool) (v : Bool) (z : Bool) (r : BitVec 3)
  /-- ATXCHG (R175). -/
  | atxchg (d : BitVec 6) (a : BitVec 6) (b : BitVec 6) (u : Bool) (v : Bool) (z : Bool) (r : BitVec 3)
  /-- ATCAS (R175). -/
  | atcas (d : BitVec 6) (a : BitVec 6) (b : BitVec 6) (u : Bool) (v : Bool) (z : Bool) (r : BitVec 3)
  /-- ATFADD (R175). -/
  | atfadd (d : BitVec 6) (a : BitVec 6) (b : BitVec 6) (u : Bool) (v : Bool) (z : Bool) (r : BitVec 3)
  /-- ATPADD (R175). -/
  | atpadd (d : BitVec 6) (a : BitVec 6) (b : BitVec 6) (u : Bool) (v : Bool) (z : Bool) (r : BitVec 3)
  /-- ATINC (R175). -/
  | atinc (d : BitVec 6) (a : BitVec 6) (b : BitVec 6) (u : Bool) (v : Bool) (z : Bool) (r : BitVec 3)
  /-- BKADD (R177). -/
  | bkadd (a : BitVec 6) (b : BitVec 6) (t : BitVec 3)
  /-- BKRED (R177). -/
  | bkred (a : BitVec 6) (b : BitVec 6) (t : BitVec 3)
  /-- BKSET (R177). -/
  | bkset (d : BitVec 6) (a : BitVec 6) (b : BitVec 6)
  /-- BKSCAL (R177). -/
  | bkscal (d : BitVec 6) (a : BitVec 6) (b : BitVec 6)
  /-- CPYA (R178). -/
  | cpya (d : BitVec 6) (a : BitVec 6) (b : BitVec 6) (e : Bool) (k : BitVec 4)
  /-- CPYG (R179). -/
  | cpyg (d : BitVec 6) (a : BitVec 6) (b : BitVec 6) (l : BitVec 4)
  /-- BATCH (R181). -/
  | batch (d : BitVec 6) (w : BitVec 2)
  /-- WAITBAT (R182). -/
  | waitbat (a : BitVec 6) (i : BitVec 11)
  /-- WAITBAT_ALL (R182). -/
  | waitbatAll
  /-- FEBSET (R185). -/
  | febset (a : BitVec 6) (w : BitVec 2)
  /-- FEBSET_PUT (R185). -/
  | febsetPut (a : BitVec 6) (w : BitVec 2)
  /-- FEBCLR (R185). -/
  | febclr (a : BitVec 6) (w : BitVec 2)
  /-- FEBWAIT (R185). -/
  | febwait (a : BitVec 6) (b : BitVec 6) (w : BitVec 2)
  /-- FEBWE (R185). -/
  | febwe (a : BitVec 6) (w : BitVec 2)
  /-- GANG (R191). -/
  | gang (a : BitVec 6) (w : BitVec 2)
  /-- MMA (R195). -/
  | mma (a : BitVec 6) (b : BitVec 6) (e : Bool)
  /-- MMASP (R198). -/
  | mmasp (a : BitVec 6) (b : BitVec 6) (e : Bool)
  /-- MMAZ (R195). -/
  | mmaz (a : BitVec 6) (b : BitVec 6) (e : Bool)
  /-- DRAIN (R201). -/
  | drain (a : BitVec 6)
  /-- DRAIN_REG (R202). -/
  | drainReg (d : BitVec 6) (a : BitVec 6)
  /-- MMWAIT (R197). -/
  | mmwait (w : BitVec 2)
  /-- TLD (R204). -/
  | tld (d : BitVec 6) (a : BitVec 6) (b : BitVec 6) (q : BitVec 4) (i : Bool) (c : Bool)
  /-- TST (R204). -/
  | tst (d : BitVec 6) (a : BitVec 6) (b : BitVec 6) (q : BitVec 4) (i : Bool) (c : Bool)
  /-- TORG (R203). -/
  | torg (d : BitVec 6) (a : BitVec 6) (b : BitVec 6)
  /-- TZERO (R203). -/
  | tzero (d : BitVec 6) (w : BitVec 2)
  /-- TZERO_ALL (R203). -/
  | tzeroAll (w : BitVec 2)
  /-- BMCAST (R205). -/
  | bmcast (d : BitVec 6) (a : BitVec 6) (b : BitVec 6)
  /-- ENGQ (R208). -/
  | engq (d : BitVec 6) (a : BitVec 6) (e : BitVec 3)
  /-- FWAIT (R209). -/
  | fwait (d : BitVec 6) (a : BitVec 6) (w : BitVec 2)
  /-- FTEST (R209). -/
  | ftest (d : BitVec 6) (a : BitVec 6) (w : BitVec 2)
  /-- FCANCEL (R209). -/
  | fcancel (a : BitVec 6) (w : BitVec 2)
  /-- FRES (R209). -/
  | fres (d : BitVec 6) (a : BitVec 6) (w : BitVec 2)
  /-- SPAWN (R211). -/
  | spawn (d : BitVec 6) (a : BitVec 6) (w : BitVec 2)
  /-- CWAIT (R212). -/
  | cwait (w : BitVec 2)
  /-- CWAIT_TASK (R212). -/
  | cwaitTask (a : BitVec 6) (w : BitVec 2)
  /-- CANCEL (R213). -/
  | cancel (a : BitVec 6) (w : BitVec 2)
  /-- QALLOC (R214). -/
  | qalloc (d : BitVec 6) (u : Bool) (i : BitVec 11)
  /-- QFREE (R215). -/
  | qfree (a : BitVec 6) (u : Bool) (i : BitVec 11)
  /-- QFREEL (R215). -/
  | qfreel (d : BitVec 6) (a : BitVec 6) (i : BitVec 11)
  /-- MFILL (R216). -/
  | mfill (d : BitVec 6) (a : BitVec 6) (b : BitVec 6)
  /-- MFLUSH (R217). -/
  | mflush (a : BitVec 6)
  /-- DLARM (R218). -/
  | dlarm (a : BitVec 6) (b : BitVec 6) (w : BitVec 2)
  /-- DLRD (R219). -/
  | dlrd (d : BitVec 6) (w : BitVec 2)
  /-- TTBOARD (R222). -/
  | ttboard (d : BitVec 6) (i : BitVec 11)
  /-- TTALIGHT (R222). -/
  | ttalight (a : BitVec 6)
  /-- TTREAD (R223). -/
  | ttread (d : BitVec 6) (a : BitVec 6) (h : Bool) (q : Bool)
  /-- TTCAS (R224). -/
  | ttcas (d : BitVec 6) (a : BitVec 6) (b : BitVec 6) (r : Bool) (q : Bool) (w : BitVec 3)
  /-- TTMAX (R225). -/
  | ttmax (a : BitVec 6) (b : BitVec 6) (r : Bool) (q : Bool)
  /-- TTADD (R224). -/
  | ttadd (d : BitVec 6) (a : BitVec 6) (b : BitVec 6) (c : Bool) (r : Bool) (q : Bool) (w : BitVec 3)
  /-- TTWAIT (R226). -/
  | ttwait (a : BitVec 6)
  /-- VPUSH (R227). -/
  | vpush (d : BitVec 6) (a : BitVec 6) (n : Bool)
  /-- VPOP (R227). -/
  | vpop (d : BitVec 6) (b : BitVec 6) (n : Bool)
  /-- VCOUNT (R228). -/
  | vcount (d : BitVec 6) (b : BitVec 6) (w : BitVec 2)
  /-- MBPOST (R229). -/
  | mbpost (a : BitVec 6) (b : BitVec 6) (n : Bool)
  /-- MBTAKE (R229). -/
  | mbtake (d : BitVec 6) (b : BitVec 6) (n : Bool)
  /-- BAR (R230). -/
  | bar (c : Bool)
  /-- BAR_WAIT (R230). -/
  | barWait (a : BitVec 6) (c : Bool)
  /-- MARK (R231). -/
  | mark (g : Bool) (i : BitVec 10)
  /-- LAUNCH_DOORBELL (R441). -/
  | launchDoorbell (p : Nat) (q : Nat) (v : Word)
  /-- LAUNCH_ENTRY_READ (R264). -/
  | launchEntryRead (p : Nat) (q : Nat)
  /-- DISPATCH (R267). -/
  | dispatch
  /-- TASK_AGEING (R268). -/
  | taskAgeing (p : Nat) (id : Nat)
  /-- TIME_SLICE_END (R286). -/
  | timeSliceEnd (p : Nat)
  /-- DRAIN_OVERRUN (R286). -/
  | drainOverrun (team : Nat)
  /-- TEAM_SAVE (R287). -/
  | teamSave (team : Nat)
  /-- TEAM_RESTORE (R288). -/
  | teamRestore (team : Nat)
  /-- DEPENDENCE_UNIT_ENTER (R272). -/
  | dependenceUnitEnter (p : Nat)
  /-- TASK_COMPLETE (R212). -/
  | taskComplete (p : Nat) (id : Nat)
  /-- VERSION_EARLY_COMMIT (R276). -/
  | versionEarlyCommit (p : Nat) (id : Nat)
  /-- MOULD_CONSUMER_LAUNCH (R281). -/
  | mouldConsumerLaunch (p : Nat) (m : Nat)
  /-- POOL_ENABLE (R277). -/
  | poolEnable (p : Nat) (n : Nat)
  /-- POOL_DISABLE (R289). -/
  | poolDisable (p : Nat) (n : Nat)
  /-- MOULD_ENABLE (R280). -/
  | mouldEnable (p : Nat) (n : Nat)
  /-- MOULD_DISABLE (R289). -/
  | mouldDisable (p : Nat) (n : Nat)
  /-- DEADLINE_EXPIRY (R282). -/
  | deadlineExpiry (p : Nat)
  /-- ATCTL_FIRE (R289). -/
  | atctlFire (p : Nat)
  /-- DLTRIG_RISE (R282). -/
  | dltrigRise
  /-- UNVEIL_CANCEL (R283). -/
  | unveilCancel (p : Nat)
  /-- UNVEIL_CAPTURE (R283). -/
  | unveilCapture (p : Nat)
  /-- FAULT_QUEUE_RECORD (R328). -/
  | faultQueueRecord (p : Nat)
  /-- REPLAY (R329). -/
  | faultReplay (p : Nat) (seq : Nat)
  /-- DELIVER (R329). -/
  | faultDeliver (p : Nat) (seq : Nat)
  /-- KILL (R329). -/
  | faultKill (p : Nat) (seq : Nat)
  /-- TLB_INVALIDATE_ADDRESS (R338). -/
  | tlbInvalidateAddress (p : Nat)
  /-- TLB_INVALIDATE_ALL (R338). -/
  | tlbInvalidateAll (p : Nat)
  /-- SCAN_COMMIT (R427). -/
  | scanCommit (p : Nat)
  /-- SCAN_DISCARD (R427). -/
  | scanDiscard (p : Nat)
  /-- CHANNEL_RESET (R396). -/
  | channelReset (who : Nat) (id : Word)
  /-- GATE_REQUEST (R399). -/
  | gateRequest (who : Nat) (r : Nat)
  /-- GATE_PREEMPT_REQUEST (R399). -/
  | gatePreemptRequest (who : Nat) (r : Nat)
  /-- GATE_LIFT (R400). -/
  | gateLift (who : Nat) (r : Nat)
  /-- GATE_CLOSE (R384). -/
  | gateClose (r : Nat)
  /-- GATE_OPEN (R400). -/
  | gateOpen (r : Nat)
  /-- CORE_DISABLE (R429). -/
  | coreDisable (mask : BitVec 96)
  /-- SCAN_ROTATION (R424). -/
  | scanRotation
  /-- SCAN_COMPLETE (R424). -/
  | scanComplete (pass : Bool)
  /-- PATROL_ROW_READ (R428). -/
  | patrolRowRead (ch : Nat)
  /-- AUDIT_SAMPLE (R395). -/
  | auditSample
  /-- PROBE_SEND (R397). -/
  | probeSend (g : Nat)
  /-- PROBE_RECEIVE (R397). -/
  | probeReceive
  /-- REPORT_WRITE (R398). -/
  | reportWrite (p : Nat)
  /-- GOVERNOR_INTERVAL (R402). -/
  | governorInterval (power : Nat)
  /-- SAMPLER_ENABLE (R404). -/
  | samplerEnable (who : Nat) (tile : Nat) (v : Word)
  /-- SAMPLE (R404). -/
  | sample (tile : Nat)
  /-- TRACE_FILTER (R413). -/
  | traceFilter (p : Nat)
  /-- HALT_RECORD_WRITE (R412). -/
  | haltRecordWrite (p : Nat)
  /-- FILTER_LOAD (R415). -/
  | filterLoad (who : Nat) (p : Nat) (v : Word)
  /-- CALIPER_START (R418). -/
  | caliperStart (p : Nat)
  /-- CALIPER_STOP (R418). -/
  | caliperStop (p : Nat)
  /-- CALIPER_END (R418). -/
  | caliperEnd (p : Nat)
  /-- HOLD_PATH (R419). -/
  | holdPath (who : Nat) (p : Nat) (v : Word)
  /-- RELEASE_PATH (R419). -/
  | releasePath (who : Nat) (p : Nat) (v : Word)
  /-- HOLD_GROUP (R419). -/
  | holdGroup (who : Nat) (p : Nat) (v : Word)
  /-- RELEASE_GROUP (R419). -/
  | releaseGroup (who : Nat) (p : Nat) (v : Word)
  /-- DEBUG_STEP (R419). -/
  | debugStep (who : Nat) (p : Nat) (v : Word)
  /-- HOLD_TAKES_EFFECT (R419). -/
  | holdTakesEffect (g : Nat) (e : Nat)
  /-- FREEZE (R421). -/
  | freeze (p : Nat) (on : Bool)
  /-- DEBUG_PORT_READ (R422). -/
  | debugPortRead (loc : Word) (n : BitVec 12)
  /-- WRITE_BUFFER_DRAIN (R298). -/
  | writeBufferDrain (team : Nat) (line : Nat)
  /-- COPY_COMPLETE (R180). -/
  | copyComplete (c : Nat)
  /-- MATRIX_OPERATION (R197). -/
  | matrixOperation (team : Nat)
  /-- TURNTABLE_PERFORM (R220). -/
  | turntablePerform (st : Nat)
  /-- REVOLUTION (R226). -/
  | revolution (slot : Nat)
  /-- FIFO_ENTRY_LAND (R382). -/
  | fifoEntryLand (tile : Nat)
  /-- PERMIT_RETURN (R382). -/
  | permitReturn (tile : Nat)
  /-- FLIT_ARRIVAL (R389). -/
  | flitArrival (r : Nat)
  /-- REASSEMBLY_GRANT (R391). -/
  | reassemblyGrant (rx : Nat)
  /-- MAILBOX_GRANT (R393). -/
  | mailboxGrant (id : Nat)
  /-- JOB (R356). -/
  | chainJob (e : Nat) (p : Nat)
  /-- CHAIN_LOOP (R358). -/
  | chainLoop (e : Nat) (p : Nat)
  /-- COND (R360). -/
  | chainCond (e : Nat) (p : Nat)
  /-- LINK (R361). -/
  | chainLink (e : Nat) (p : Nat)
  /-- END (R362). -/
  | chainEnd (e : Nat) (p : Nat)
  /-- ENGINE_JOB_COMPLETE (R362). -/
  | engineJobComplete (e : Nat)
  /-- VOXEL (R366). -/
  | voxel (e : Nat)
  /-- RULEBOOK (R368). -/
  | rulebook (e : Nat)
  /-- COORD (R292). -/
  | coord (e : Nat)
  /-- CONVERT_COMPRESS (R370). -/
  | convertCompress (e : Nat)
  /-- CONVERT_EXPAND (R371). -/
  | convertExpand (e : Nat)
  /-- POINT (R373). -/
  | collidePoint (e : Nat)
  /-- SEGMENT (R373). -/
  | collideSegment (e : Nat)
  /-- SPHERE (R373). -/
  | collideSphere (e : Nat)
  /-- SWEEP (R350). -/
  | collideSweep (e : Nat)
  /-- STEP (R377). -/
  | dynStep (e : Nat)
  /-- CREATE (R438). -/
  | partCreate (p : Nat)
  /-- DESTROY (R439). -/
  | partDestroy (p : Nat)
  /-- START (R439). -/
  | partStart (p : Nat)
  /-- STOP (R439). -/
  | partStop (p : Nat)
  /-- LOCKED_REGISTER_WRITE (R437). -/
  | lockedRegisterWrite (p : Nat) (n : Nat) (v : Word)
  /-- HOST_REGISTER_WRITE (R436). -/
  | hostRegisterWrite (off : Nat) (v : Word)
  /-- GET_VERSION (R442). -/
  | getVersion (sess : Nat)
  /-- GET_CAPABILITIES (R442). -/
  | getCapabilities (sess : Nat)
  /-- NEGOTIATE_ALGORITHMS (R442). -/
  | negotiateAlgorithms (sess : Nat) (ok : Bool)
  /-- GET_DIGESTS (R442). -/
  | getDigests (sess : Nat)
  /-- GET_CERTIFICATE (R442). -/
  | getCertificate (sess : Nat) (slot : Nat)
  /-- CHALLENGE (R442). -/
  | spdmChallenge (sess : Nat) (slot : Nat)
  /-- GET_MEASUREMENTS (R443). -/
  | getMeasurements (sess : Nat) (idx : Nat)
  /-- KEY_EXCHANGE (R442). -/
  | keyExchange (sess : Nat)
  /-- FINISH (R442). -/
  | spdmFinish (sess : Nat) (ok : Bool)
  /-- HEARTBEAT (R442). -/
  | spdmHeartbeat (sess : Nat)
  /-- KEY_UPDATE (R442). -/
  | keyUpdate (sess : Nat) (ok : Bool)
  /-- END_SESSION (R445). -/
  | endSession (sess : Nat)
  /-- GET_TDISP_VERSION (R444). -/
  | getTdispVersion (sess : Nat) (vf : Nat)
  /-- GET_TDISP_CAPABILITIES (R444). -/
  | getTdispCapabilities (sess : Nat) (vf : Nat)
  /-- LOCK_INTERFACE_REQUEST (R439). -/
  | lockInterfaceRequest (sess : Nat) (vf : Nat)
  /-- GET_DEVICE_INTERFACE_REPORT (R444). -/
  | getDeviceInterfaceReport (sess : Nat) (vf : Nat)
  /-- GET_DEVICE_INTERFACE_STATE (R444). -/
  | getDeviceInterfaceState (sess : Nat) (vf : Nat)
  /-- START_INTERFACE_REQUEST (R439). -/
  | startInterfaceRequest (sess : Nat) (vf : Nat)
  /-- STOP_INTERFACE_REQUEST (R439). -/
  | stopInterfaceRequest (sess : Nat) (vf : Nat)
  /-- KEY_PROG (R444). -/
  | keyProg (sess : Nat) (vf : Nat)
  /-- K_SET_GO (R444). -/
  | kSetGo (sess : Nat) (vf : Nat)
  /-- K_SET_STOP (R444). -/
  | kSetStop (sess : Nat) (vf : Nat)
  /-- IDE_STREAM_INSECURE (R439). -/
  | ideStreamInsecure (vf : Nat)
  /-- BOARD_RELAY_OBJECT (R446). -/
  | boardRelayObject (ch : Nat) (msg : List Byte)
  /-- KEY_ESTABLISH (R447). -/
  | keyEstablish (p : Nat)
  /-- KEY_CLEAR (R447). -/
  | keyClear (p : Nat)
  /-- BOARD_RESPONSE (R447). -/
  | boardResponse (p : Nat) (code : Nat) (key : BitVec 256)
  /-- POWER_ON_RESET (R449). -/
  | powerOnReset (ok : Bool)
  /-- BOOT_IMAGE_WRITE (R449). -/
  | bootImageWrite (image : List Byte) (verified : Bool) (derived : Bool) (trained : Option Nat) (failing : BitVec 96)
  /-- LINK_TRAINING (R449). -/
  | linkTraining (ok : Bool)
  /-- PERST_ASSERT (R450). -/
  | perstAssert
  /-- HOT_RESET (R445). -/
  | hotReset
  /-- LINK_DOWN (R445). -/
  | linkDown
  /-- ILLEGAL_INSTRUCTION (R38). -/
  | illegalInstruction (word : Word)
  /-- ILL_FORMED_WORD (R38). -/
  | illFormedWord (word : Word)
  /-- FETCH_FAULT (R39). -/
  | fetchFault
  /-- SOFT_ERROR (R342). -/
  | softError (kind : Nat) (tile : Nat) (addr : Nat) (double : Bool)
  /-- HOST_ACCESS (R302). -/
  | hostAccess (write : Bool) (addr : Nat) (bytes : List Byte)
  /-- EVICTION (R286). -/
  | eviction (p : Nat)
  /-- DOE_DISCOVERY (R434). -/
  | doeDiscovery (idx : Nat)
  /-- POINT_MOVE_COMPLETE (R402). -/
  | pointMoveComplete
  deriving DecidableEq, Repr, Inhabited

end Sys2Proof
end

