-- ==== Sys2Proof/Decode.lean ====
section
/-! DEFINITION. Decoding and encoding of instruction words (R20 to R28, R37, R38). A word is read as a number with bit 0 its least
significant bit; every word has a reading: a word of an assigned opcode that fits no row is ILL_FORMED_WORD, a word of an unassigned
opcode ILLEGAL_INSTRUCTION. `legal` is the check of operand values that a word alone decides (R17, R18, R28, R38). -/

namespace Sys2Proof

/-- `n` bits of a word from bit `lo` up. -/
def fld (w lo n : Nat) : Nat := w / 2 ^ lo % 2 ^ n
/-- The same as a bit vector. -/
def bvf (w lo n : Nat) : BitVec n := BitVec.ofNat n (w / 2 ^ lo)
/-- One bit of a word. -/
def bit1 (w lo : Nat) : Bool := w / 2 ^ lo % 2 == 1

/-! ### Operand values (R17, R18, R24, R28, R186) -/

/-- A value below a bound. -/
def small {n : Nat} (x : BitVec n) (k : Nat) : Bool := decide (x.toNat < k)
/-- A vector code (R17). -/
def vr (c : BitVec 6) : Bool := small c 48
/-- An even code (R18). -/
def even (c : BitVec 6) : Bool := c.toNat % 2 == 0
/-- An odd code (R24). -/
def odd (c : BitVec 6) : Bool := c.toNat % 2 == 1
/-- A vector pair (R18). -/
def vpair (c : BitVec 6) : Bool := vr c && even c
/-- A destination: scalar with U = 1, vector with U = 0. -/
def rd (u : Bool) (c : BitVec 6) : Bool := u || vr c
/-- A source in field a. -/
def rs (u : Bool) (c : BitVec 6) : Bool := u || vr c
/-- A source in field b where no neighbour is allowed. -/
def rsn (u : Bool) (c : BitVec 6) : Bool := u || vr c
/-- A pair (R18). -/
def pr (u : Bool) (c : BitVec 6) : Bool := even c && (u || vr c)
/-- A multiple of k as the first of k registers (R149, R150, R166). -/
def mult (k : Nat) (u : Bool) (c : BitVec 6) : Bool := c.toNat % k == 0 && (u || vr c)
/-- The destination of a compare: a CM bit, or a predicate pair k (R118). -/
def cd (u : Bool) (c : BitVec 6) : Bool := u || small c 6
/-- A predicate, or a CM bit (R119). -/
def pd (u : Bool) (c : BitVec 6) : Bool := u || small c 12
/-- Last-read bits are for vector sources only (R28). -/
def kx (u k : Bool) : Bool := !(u && k)
/-- The branch test of a J-form word (R22). -/
def testOk (n : Bool) (p : BitVec 4) : Bool := small p 12 || (p.toNat == 15 && !n)
/-- Widths of the mode-word fields, by MODEF field number (R33, R100). -/
def modeWidth (d : Nat) : Nat :=
  match d with
  | 0 => 4 | 1 => 1 | 2 => 4 | 3 => 3 | 4 => 1 | 5 => 1 | 6 => 2 | 7 => 3 | 8 => 1 | 9 => 5 | 10 => 1 | _ => 0
/-- MODEF names a field and a value that fits it (R100). -/
def modefOk (d : BitVec 6) (i : BitVec 11) : Bool := small d 11 && decide (i.toNat < 2 ^ modeWidth d.toNat)
/-- Codes of PACK and UNPK (R148). -/
def packCode (c : BitVec 4) : Bool := c.toNat == 1 || c.toNat == 2 || c.toNat == 9 || c.toNat == 10
/-- Codes of PACK8 and UNPK8 (R149). -/
def pack8Code (c : BitVec 4) : Bool := c.toNat == 3 || c.toNat == 4 || c.toNat == 11 || c.toNat == 12
/-- The base field of an M-form word (R24). -/
def base (u : Bool) (a : BitVec 6) : Bool := if u then even a else odd a || vr a
/-- Orderings of a store (R167). -/
def storeOrd (r : BitVec 3) : Bool := r.toNat == 0 || r.toNat == 1 || r.toNat == 3
/-- Orderings of FENCE (R172). -/
def fenceOrd (r : BitVec 3) : Bool := r.toNat == 2 || r.toNat == 3 || r.toNat == 4
/-- Fields of CFLUSH and CINV (R173). -/
def flushOk (a b : BitVec 6) (l : Bool) (s : BitVec 3) : Bool := small s 5 && (if l then a.toNat == 0 && b.toNat == 0 else even a)
/-- The operand of an atomic: a pair when its size is 8 (R174). -/
def atReg (u z : Bool) (c : BitVec 6) : Bool := if z then pr u c else rd u c
/-- The destination of an atomic: zero without a returned value (R174). -/
def atDest (u z v : Bool) (d : BitVec 6) : Bool := if v then atReg u z d else d.toNat == 0
/-- A block of 16 scalar registers (R186). -/
def block (c : BitVec 6) : Bool := c.toNat % 16 == 0

/-! ### Decoding (R37): one function per high digit of the opcode, then the low digit -/

/-- Words of opcodes 0x00 to 0x0F. LDCW reads its literal from the second word `l`. -/
noncomputable def decode0 (c w _l : Nat) : Instr :=
  if c = 0 then (if fld w 0 4 == 0 && fld w 6 18 == 0 then .nop (bvf w 4 2) else .illFormedWord (BitVec.ofNat 32 w)) else
  if c = 1 then (if fld w 18 6 == 15 then .jmp (bvf w 0 18) else .illFormedWord (BitVec.ofNat 32 w)) else
  if c = 2 then (if fld w 22 1 == 0 then .bra (bit1 w 23) (bvf w 18 4) (bvf w 0 18) else .illFormedWord (BitVec.ofNat 32 w)) else
  if c = 3 then (if fld w 22 1 == 0 then .brany (bit1 w 23) (bvf w 18 4) (bvf w 0 18) else .illFormedWord (BitVec.ofNat 32 w)) else
  if c = 4 then (if fld w 22 1 == 0 then .brall (bit1 w 23) (bvf w 18 4) (bvf w 0 18) else .illFormedWord (BitVec.ofNat 32 w)) else
  if c = 5 then (.brc (bvf w 18 6) (bvf w 0 18)) else
  if c = 6 then (if fld w 18 6 == 15 then .jpt (bvf w 0 18) else .illFormedWord (BitVec.ofNat 32 w)) else
  if c = 7 then (if fld w 22 1 == 0 then .call (bit1 w 23) (bvf w 18 4) (bvf w 0 18) else .illFormedWord (BitVec.ofNat 32 w)) else
  if c = 8 then (if fld w 0 4 == 8 && fld w 6 6 == 0 && fld w 18 6 == 0 then .calli (bvf w 12 6) (bvf w 4 2) else .illFormedWord (BitVec.ofNat 32 w)) else
  if c = 9 then (if fld w 0 4 == 0 && fld w 6 18 == 0 then .ret (bvf w 4 2) else .illFormedWord (BitVec.ofNat 32 w)) else
  if c = 10 then (if fld w 11 1 == 1 then .loop (bvf w 18 6) (bvf w 12 6) (bvf w 0 11) else .illFormedWord (BitVec.ofNat 32 w)) else
  if c = 11 then (if fld w 20 4 == 0 then .loopk (bvf w 18 2) (bvf w 10 8) (bvf w 0 10) else .illFormedWord (BitVec.ofNat 32 w)) else
  if c = 12 then (if fld w 0 18 == 0 && fld w 20 4 == 0 then .leave (bvf w 18 2) else .illFormedWord (BitVec.ofNat 32 w)) else
  if c = 13 then (if fld w 0 4 == 0 && fld w 6 18 == 0 then .exit (bvf w 4 2) else .illFormedWord (BitVec.ofNat 32 w)) else
  if c = 14 then (if fld w 0 4 == 0 && fld w 6 18 == 0 then .yield (bvf w 4 2) else .illFormedWord (BitVec.ofNat 32 w)) else
  if c = 15 then (if fld w 11 13 == 0 then .bkpt (bvf w 0 11) else .illFormedWord (BitVec.ofNat 32 w)) else
  .illFormedWord (BitVec.ofNat 32 w)

/-- Words of opcodes 0x10 to 0x1F. LDCW reads its literal from the second word `l`. -/
noncomputable def decode1 (c w _l : Nat) : Instr :=
  if c = 0 then (if fld w 11 13 == 0 then .trap (bvf w 0 11) else .illFormedWord (BitVec.ofNat 32 w)) else
  if c = 1 then (if fld w 0 4 == 0 && fld w 6 18 == 0 then .trapret (bvf w 4 2) else .illFormedWord (BitVec.ofNat 32 w)) else
  if c = 2 then (if fld w 0 2 == 0 && fld w 6 6 == 0 && fld w 18 6 == 0 then .xrepl (bvf w 12 6) (bvf w 4 2) (bit1 w 3, bit1 w 2) else .illFormedWord (BitVec.ofNat 32 w)) else
  if c = 3 then (if fld w 0 4 == 8 && fld w 6 6 == 0 && fld w 18 6 == 0 then .mode (bvf w 12 6) (bvf w 4 2) else .illFormedWord (BitVec.ofNat 32 w)) else
  if c = 4 then (if fld w 11 7 == 0 then .modef (bvf w 18 6) (bvf w 0 11) else .illFormedWord (BitVec.ofNat 32 w)) else
  if c = 5 then (if fld w 0 4 == 8 && fld w 6 12 == 0 then .moderd (bvf w 18 6) (bvf w 4 2) else .illFormedWord (BitVec.ofNat 32 w)) else
  if c = 6 then (if fld w 0 4 == 8 && fld w 6 12 == 0 then .exmsv (bvf w 18 6) (bvf w 4 2) else .illFormedWord (BitVec.ofNat 32 w)) else
  if c = 7 then (if fld w 0 4 == 8 && fld w 6 6 == 0 && fld w 18 6 == 0 then .exmld (bvf w 12 6) (bvf w 4 2) else .illFormedWord (BitVec.ofNat 32 w)) else
  if c = 8 then (if fld w 3 9 == 0 && fld w 18 6 == 0 then .exmcmb (bvf w 12 6) (bvf w 0 3) else .illFormedWord (BitVec.ofNat 32 w)) else
  if c = 9 then (if fld w 0 4 == 0 && fld w 18 6 == 0 then .exmp (bvf w 12 6) (bvf w 6 6) (bvf w 4 2) else .illFormedWord (BitVec.ofNat 32 w)) else
  if c = 10 then (if fld w 12 6 == 0 then .idrd (bvf w 18 6) (bit1 w 11) (bvf w 0 11) else .illFormedWord (BitVec.ofNat 32 w)) else
  if c = 11 then (if fld w 12 6 == 0 then .sysrd (bvf w 18 6) (bvf w 0 12) else .illFormedWord (BitVec.ofNat 32 w)) else
  if c = 12 then (if fld w 12 6 == 0 then .syswr (bvf w 18 6) (bvf w 0 12) else .illFormedWord (BitVec.ofNat 32 w)) else
  if c = 13 then (if fld w 0 4 == 0 && fld w 18 6 == 0 then .reln (bvf w 12 6) (bvf w 6 6) (bvf w 4 2) else .illFormedWord (BitVec.ofNat 32 w)) else
  if c = 14 then (if fld w 0 4 == 0 && fld w 6 18 == 0 then .idemb (bvf w 4 2) else .illFormedWord (BitVec.ofNat 32 w)) else
  if c = 15 then (if fld w 0 4 == 0 && fld w 6 18 == 0 then .ideme (bvf w 4 2) else .illFormedWord (BitVec.ofNat 32 w)) else
  .illFormedWord (BitVec.ofNat 32 w)

/-- Words of opcodes 0x20 to 0x2F. LDCW reads its literal from the second word `l`. -/
noncomputable def decode2 (c w _l : Nat) : Instr :=
  if c = 0 then (if fld w 0 1 == 0 then .iadd (bvf w 18 6) (bvf w 12 6) (bvf w 6 6) (bvf w 4 2) (bit1 w 3) (bit1 w 2) (bit1 w 1) else .illFormedWord (BitVec.ofNat 32 w)) else
  if c = 1 then (if fld w 0 1 == 0 then .isub (bvf w 18 6) (bvf w 12 6) (bvf w 6 6) (bvf w 4 2) (bit1 w 3) (bit1 w 2) (bit1 w 1) else .illFormedWord (BitVec.ofNat 32 w)) else
  if c = 2 then (if fld w 0 1 == 0 then .imul (bvf w 18 6) (bvf w 12 6) (bvf w 6 6) (bvf w 4 2) (bit1 w 3) (bit1 w 2) (bit1 w 1) else .illFormedWord (BitVec.ofNat 32 w)) else
  if c = 3 then (if fld w 0 1 == 0 then .imulh (bvf w 18 6) (bvf w 12 6) (bvf w 6 6) (bvf w 4 2) (bit1 w 3) (bit1 w 2) (bit1 w 1) else .illFormedWord (BitVec.ofNat 32 w)) else
  if c = 4 then (if fld w 0 1 == 0 then .imulhu (bvf w 18 6) (bvf w 12 6) (bvf w 6 6) (bvf w 4 2) (bit1 w 3) (bit1 w 2) (bit1 w 1) else .illFormedWord (BitVec.ofNat 32 w)) else
  if c = 5 then (.imad (bvf w 18 6) (bvf w 12 6) (bvf w 6 6) (bvf w 4 2) (bit1 w 3) (bit1 w 2) (bit1 w 1) (bit1 w 0)) else
  if c = 6 then (if fld w 0 1 == 0 then .idiv (bvf w 18 6) (bvf w 12 6) (bvf w 6 6) (bvf w 4 2) (bit1 w 3) (bit1 w 2) (bit1 w 1) else .illFormedWord (BitVec.ofNat 32 w)) else
  if c = 7 then (if fld w 0 1 == 0 then .idivu (bvf w 18 6) (bvf w 12 6) (bvf w 6 6) (bvf w 4 2) (bit1 w 3) (bit1 w 2) (bit1 w 1) else .illFormedWord (BitVec.ofNat 32 w)) else
  if c = 8 then (if fld w 0 1 == 0 then .irem (bvf w 18 6) (bvf w 12 6) (bvf w 6 6) (bvf w 4 2) (bit1 w 3) (bit1 w 2) (bit1 w 1) else .illFormedWord (BitVec.ofNat 32 w)) else
  if c = 9 then (if fld w 0 1 == 0 then .iremu (bvf w 18 6) (bvf w 12 6) (bvf w 6 6) (bvf w 4 2) (bit1 w 3) (bit1 w 2) (bit1 w 1) else .illFormedWord (BitVec.ofNat 32 w)) else
  if c = 10 then (if fld w 0 1 == 0 then .imin (bvf w 18 6) (bvf w 12 6) (bvf w 6 6) (bvf w 4 2) (bit1 w 3) (bit1 w 2) (bit1 w 1) else .illFormedWord (BitVec.ofNat 32 w)) else
  if c = 11 then (if fld w 0 1 == 0 then .imax (bvf w 18 6) (bvf w 12 6) (bvf w 6 6) (bvf w 4 2) (bit1 w 3) (bit1 w 2) (bit1 w 1) else .illFormedWord (BitVec.ofNat 32 w)) else
  if c = 12 then (if fld w 0 1 == 0 then .iminu (bvf w 18 6) (bvf w 12 6) (bvf w 6 6) (bvf w 4 2) (bit1 w 3) (bit1 w 2) (bit1 w 1) else .illFormedWord (BitVec.ofNat 32 w)) else
  if c = 13 then (if fld w 0 1 == 0 then .imaxu (bvf w 18 6) (bvf w 12 6) (bvf w 6 6) (bvf w 4 2) (bit1 w 3) (bit1 w 2) (bit1 w 1) else .illFormedWord (BitVec.ofNat 32 w)) else
  if c = 14 then (if fld w 0 2 == 0 && fld w 6 6 == 0 then .iabs (bvf w 18 6) (bvf w 12 6) (bvf w 4 2) (bit1 w 3) (bit1 w 2) else .illFormedWord (BitVec.ofNat 32 w)) else
  if c = 15 then (if fld w 0 2 == 0 && fld w 6 6 == 0 then .ineg (bvf w 18 6) (bvf w 12 6) (bvf w 4 2) (bit1 w 3) (bit1 w 2) else .illFormedWord (BitVec.ofNat 32 w)) else
  .illFormedWord (BitVec.ofNat 32 w)

/-- Words of opcodes 0x30 to 0x3F. LDCW reads its literal from the second word `l`. -/
noncomputable def decode3 (c w _l : Nat) : Instr :=
  if c = 0 then (if fld w 0 1 == 0 then .and (bvf w 18 6) (bvf w 12 6) (bvf w 6 6) (bvf w 4 2) (bit1 w 3) (bit1 w 2) (bit1 w 1) else .illFormedWord (BitVec.ofNat 32 w)) else
  if c = 1 then (if fld w 0 1 == 0 then .or (bvf w 18 6) (bvf w 12 6) (bvf w 6 6) (bvf w 4 2) (bit1 w 3) (bit1 w 2) (bit1 w 1) else .illFormedWord (BitVec.ofNat 32 w)) else
  if c = 2 then (if fld w 0 1 == 0 then .xor (bvf w 18 6) (bvf w 12 6) (bvf w 6 6) (bvf w 4 2) (bit1 w 3) (bit1 w 2) (bit1 w 1) else .illFormedWord (BitVec.ofNat 32 w)) else
  if c = 3 then (if fld w 0 1 == 0 then .andn (bvf w 18 6) (bvf w 12 6) (bvf w 6 6) (bvf w 4 2) (bit1 w 3) (bit1 w 2) (bit1 w 1) else .illFormedWord (BitVec.ofNat 32 w)) else
  if c = 4 then (if fld w 0 1 == 0 then .shl (bvf w 18 6) (bvf w 12 6) (bvf w 6 6) (bvf w 4 2) (bit1 w 3) (bit1 w 2) (bit1 w 1) else .illFormedWord (BitVec.ofNat 32 w)) else
  if c = 5 then (if fld w 0 1 == 0 then .shr (bvf w 18 6) (bvf w 12 6) (bvf w 6 6) (bvf w 4 2) (bit1 w 3) (bit1 w 2) (bit1 w 1) else .illFormedWord (BitVec.ofNat 32 w)) else
  if c = 6 then (if fld w 0 1 == 0 then .shra (bvf w 18 6) (bvf w 12 6) (bvf w 6 6) (bvf w 4 2) (bit1 w 3) (bit1 w 2) (bit1 w 1) else .illFormedWord (BitVec.ofNat 32 w)) else
  if c = 7 then (if fld w 0 1 == 0 then .rotl (bvf w 18 6) (bvf w 12 6) (bvf w 6 6) (bvf w 4 2) (bit1 w 3) (bit1 w 2) (bit1 w 1) else .illFormedWord (BitVec.ofNat 32 w)) else
  if c = 8 then (if fld w 0 2 == 0 && fld w 6 6 == 0 then .popc (bvf w 18 6) (bvf w 12 6) (bvf w 4 2) (bit1 w 3) (bit1 w 2) else .illFormedWord (BitVec.ofNat 32 w)) else
  if c = 9 then (if fld w 0 2 == 0 && fld w 6 6 == 0 then .clz (bvf w 18 6) (bvf w 12 6) (bvf w 4 2) (bit1 w 3) (bit1 w 2) else .illFormedWord (BitVec.ofNat 32 w)) else
  if c = 10 then (if fld w 0 2 == 0 && fld w 6 6 == 0 then .brev (bvf w 18 6) (bvf w 12 6) (bvf w 4 2) (bit1 w 3) (bit1 w 2) else .illFormedWord (BitVec.ofNat 32 w)) else
  if c = 11 then (if fld w 1 4 == 0 then .bfx (bvf w 18 6) (bvf w 12 6) (bvf w 6 6) (bit1 w 5) (bit1 w 0) else .illFormedWord (BitVec.ofNat 32 w)) else
  if c = 12 then (if fld w 0 5 == 0 then .bfi (bvf w 18 6) (bvf w 12 6) (bvf w 6 6) (bit1 w 5) else .illFormedWord (BitVec.ofNat 32 w)) else
  if c = 13 then (if fld w 0 1 == 0 then .bperm (bvf w 18 6) (bvf w 12 6) (bvf w 6 6) (bvf w 4 2) (bit1 w 3) (bit1 w 2) (bit1 w 1) else .illFormedWord (BitVec.ofNat 32 w)) else
  if c = 14 then (.fshf (bvf w 18 6) (bvf w 12 6) (bvf w 6 6) (bvf w 4 2) (bit1 w 3) (bit1 w 2) (bit1 w 1) (bit1 w 0)) else
  if c = 15 then (if fld w 4 1 == 0 then .sel (bvf w 18 6) (bvf w 12 6) (bvf w 6 6) (bit1 w 5) (bvf w 0 4) else .illFormedWord (BitVec.ofNat 32 w)) else
  .illFormedWord (BitVec.ofNat 32 w)

/-- Words of opcodes 0x40 to 0x4F. LDCW reads its literal from the second word `l`. -/
noncomputable def decode4 (c w l : Nat) : Instr :=
  if c = 0 then (if fld w 0 1 == 0 && fld w 2 1 == 0 && fld w 12 6 == 0 then .mov (bvf w 18 6) (bvf w 6 6) (bvf w 4 2) (bit1 w 3) (bit1 w 1) else .illFormedWord (BitVec.ofNat 32 w)) else
  if c = 1 then (if fld w 12 6 == 0 then .movi (bvf w 18 6) (bit1 w 11) (bvf w 0 11) else .illFormedWord (BitVec.ofNat 32 w)) else
  if c = 2 then (if fld w 12 6 == 0 && fld w 0 11 == 0 then .ldcw (bvf w 18 6) (bit1 w 11) (BitVec.ofNat 32 l) else .illFormedWord (BitVec.ofNat 32 w)) else
  if c = 3 then (if fld w 0 4 == 0 && fld w 6 6 == 0 then .movs (bvf w 18 6) (bvf w 12 6) (bvf w 4 2) else .illFormedWord (BitVec.ofNat 32 w)) else
  if c = 4 then (.addi (bvf w 18 6) (bvf w 12 6) (bit1 w 11) (bvf w 0 11)) else
  if c = 5 then (.muli (bvf w 18 6) (bvf w 12 6) (bit1 w 11) (bvf w 0 11)) else
  if c = 6 then (.andi (bvf w 18 6) (bvf w 12 6) (bit1 w 11) (bvf w 0 11)) else
  if c = 7 then (.ori (bvf w 18 6) (bvf w 12 6) (bit1 w 11) (bvf w 0 11)) else
  if c = 8 then (.xori (bvf w 18 6) (bvf w 12 6) (bit1 w 11) (bvf w 0 11)) else
  if c = 9 then (.shli (bvf w 18 6) (bvf w 12 6) (bit1 w 11) (bvf w 0 11)) else
  if c = 10 then (.shri (bvf w 18 6) (bvf w 12 6) (bit1 w 11) (bvf w 0 11)) else
  if c = 11 then (.shrai (bvf w 18 6) (bvf w 12 6) (bit1 w 11) (bvf w 0 11)) else
  if c = 12 then (if fld w 0 1 == 0 then .aadd (bvf w 18 6) (bvf w 12 6) (bvf w 6 6) (bvf w 4 2) (bit1 w 3) (bit1 w 2) (bit1 w 1) else .illFormedWord (BitVec.ofNat 32 w)) else
  if c = 13 then (if fld w 4 1 == 0 then .alea (bvf w 18 6) (bvf w 12 6) (bvf w 6 6) (bit1 w 5) (bit1 w 3) (bvf w 0 3) else .illFormedWord (BitVec.ofNat 32 w)) else
  if c = 14 then (.aaddi (bvf w 18 6) (bvf w 12 6) (bit1 w 11) (bvf w 0 11)) else
  if c = 15 then (if fld w 0 1 == 0 then .asub (bvf w 18 6) (bvf w 12 6) (bvf w 6 6) (bvf w 4 2) (bit1 w 3) (bit1 w 2) (bit1 w 1) else .illFormedWord (BitVec.ofNat 32 w)) else
  .illFormedWord (BitVec.ofNat 32 w)

/-- Words of opcodes 0x50 to 0x5F. LDCW reads its literal from the second word `l`. -/
noncomputable def decode5 (c w _l : Nat) : Instr :=
  if c = 0 then (if fld w 0 1 == 0 then .iceq (bvf w 18 6) (bvf w 12 6) (bvf w 6 6) (bvf w 4 2) (bit1 w 3) (bit1 w 2) (bit1 w 1) else .illFormedWord (BitVec.ofNat 32 w)) else
  if c = 1 then (if fld w 0 1 == 0 then .icne (bvf w 18 6) (bvf w 12 6) (bvf w 6 6) (bvf w 4 2) (bit1 w 3) (bit1 w 2) (bit1 w 1) else .illFormedWord (BitVec.ofNat 32 w)) else
  if c = 2 then (if fld w 0 1 == 0 then .iclt (bvf w 18 6) (bvf w 12 6) (bvf w 6 6) (bvf w 4 2) (bit1 w 3) (bit1 w 2) (bit1 w 1) else .illFormedWord (BitVec.ofNat 32 w)) else
  if c = 3 then (if fld w 0 1 == 0 then .icle (bvf w 18 6) (bvf w 12 6) (bvf w 6 6) (bvf w 4 2) (bit1 w 3) (bit1 w 2) (bit1 w 1) else .illFormedWord (BitVec.ofNat 32 w)) else
  if c = 4 then (if fld w 0 1 == 0 then .icltu (bvf w 18 6) (bvf w 12 6) (bvf w 6 6) (bvf w 4 2) (bit1 w 3) (bit1 w 2) (bit1 w 1) else .illFormedWord (BitVec.ofNat 32 w)) else
  if c = 5 then (if fld w 0 1 == 0 then .icleu (bvf w 18 6) (bvf w 12 6) (bvf w 6 6) (bvf w 4 2) (bit1 w 3) (bit1 w 2) (bit1 w 1) else .illFormedWord (BitVec.ofNat 32 w)) else
  if c = 6 then (.iceqi (bvf w 18 6) (bvf w 12 6) (bit1 w 11) (bvf w 0 11)) else
  if c = 7 then (.iclti (bvf w 18 6) (bvf w 12 6) (bit1 w 11) (bvf w 0 11)) else
  if c = 8 then (if fld w 0 3 == 0 then .pand (bvf w 18 6) (bvf w 12 6) (bvf w 6 6) (bvf w 4 2) (bit1 w 3) else .illFormedWord (BitVec.ofNat 32 w)) else
  if c = 9 then (if fld w 0 3 == 0 then .por (bvf w 18 6) (bvf w 12 6) (bvf w 6 6) (bvf w 4 2) (bit1 w 3) else .illFormedWord (BitVec.ofNat 32 w)) else
  if c = 10 then (if fld w 0 3 == 0 then .pxor (bvf w 18 6) (bvf w 12 6) (bvf w 6 6) (bvf w 4 2) (bit1 w 3) else .illFormedWord (BitVec.ofNat 32 w)) else
  if c = 11 then (if fld w 0 3 == 0 then .pandn (bvf w 18 6) (bvf w 12 6) (bvf w 6 6) (bvf w 4 2) (bit1 w 3) else .illFormedWord (BitVec.ofNat 32 w)) else
  if c = 12 then (if fld w 0 4 == 8 && fld w 6 6 == 0 then .ptos (bvf w 18 6) (bvf w 12 6) (bvf w 4 2) else .illFormedWord (BitVec.ofNat 32 w)) else
  if c = 13 then (if fld w 0 4 == 8 && fld w 6 6 == 0 then .pfroms (bvf w 18 6) (bvf w 12 6) (bvf w 4 2) else .illFormedWord (BitVec.ofNat 32 w)) else
  if c = 14 then (if fld w 0 4 == 8 && fld w 6 12 == 0 then .cmrd (bvf w 18 6) (bvf w 4 2) else .illFormedWord (BitVec.ofNat 32 w)) else
  if c = 15 then (if fld w 0 4 == 8 && fld w 6 6 == 0 && fld w 18 6 == 0 then .cmwr (bvf w 12 6) (bvf w 4 2) else .illFormedWord (BitVec.ofNat 32 w)) else
  .illFormedWord (BitVec.ofNat 32 w)

/-- Words of opcodes 0x60 to 0x6F. LDCW reads its literal from the second word `l`. -/
noncomputable def decode6 (c w _l : Nat) : Instr :=
  if c = 0 then (if fld w 0 1 == 0 then .fadd (bvf w 18 6) (bvf w 12 6) (bvf w 6 6) (bvf w 4 2) (bit1 w 3) (bit1 w 2) (bit1 w 1) else .illFormedWord (BitVec.ofNat 32 w)) else
  if c = 1 then (if fld w 0 1 == 0 then .fsub (bvf w 18 6) (bvf w 12 6) (bvf w 6 6) (bvf w 4 2) (bit1 w 3) (bit1 w 2) (bit1 w 1) else .illFormedWord (BitVec.ofNat 32 w)) else
  if c = 2 then (if fld w 0 1 == 0 then .fmul (bvf w 18 6) (bvf w 12 6) (bvf w 6 6) (bvf w 4 2) (bit1 w 3) (bit1 w 2) (bit1 w 1) else .illFormedWord (BitVec.ofNat 32 w)) else
  if c = 3 then (.ffma (bvf w 18 6) (bvf w 12 6) (bvf w 6 6) (bvf w 4 2) (bit1 w 3) (bit1 w 2) (bit1 w 1) (bit1 w 0)) else
  if c = 4 then (.ffms (bvf w 18 6) (bvf w 12 6) (bvf w 6 6) (bvf w 4 2) (bit1 w 3) (bit1 w 2) (bit1 w 1) (bit1 w 0)) else
  if c = 5 then (.fnma (bvf w 18 6) (bvf w 12 6) (bvf w 6 6) (bvf w 4 2) (bit1 w 3) (bit1 w 2) (bit1 w 1) (bit1 w 0)) else
  if c = 6 then (if fld w 0 1 == 0 then .fmin (bvf w 18 6) (bvf w 12 6) (bvf w 6 6) (bvf w 4 2) (bit1 w 3) (bit1 w 2) (bit1 w 1) else .illFormedWord (BitVec.ofNat 32 w)) else
  if c = 7 then (if fld w 0 1 == 0 then .fmax (bvf w 18 6) (bvf w 12 6) (bvf w 6 6) (bvf w 4 2) (bit1 w 3) (bit1 w 2) (bit1 w 1) else .illFormedWord (BitVec.ofNat 32 w)) else
  if c = 8 then (if fld w 0 2 == 0 && fld w 6 6 == 0 then .fabs (bvf w 18 6) (bvf w 12 6) (bvf w 4 2) (bit1 w 3) (bit1 w 2) else .illFormedWord (BitVec.ofNat 32 w)) else
  if c = 9 then (if fld w 0 2 == 0 && fld w 6 6 == 0 then .fneg (bvf w 18 6) (bvf w 12 6) (bvf w 4 2) (bit1 w 3) (bit1 w 2) else .illFormedWord (BitVec.ofNat 32 w)) else
  if c = 10 then (if fld w 0 1 == 0 then .fceq (bvf w 18 6) (bvf w 12 6) (bvf w 6 6) (bvf w 4 2) (bit1 w 3) (bit1 w 2) (bit1 w 1) else .illFormedWord (BitVec.ofNat 32 w)) else
  if c = 11 then (if fld w 0 1 == 0 then .fcne (bvf w 18 6) (bvf w 12 6) (bvf w 6 6) (bvf w 4 2) (bit1 w 3) (bit1 w 2) (bit1 w 1) else .illFormedWord (BitVec.ofNat 32 w)) else
  if c = 12 then (if fld w 0 1 == 0 then .fclt (bvf w 18 6) (bvf w 12 6) (bvf w 6 6) (bvf w 4 2) (bit1 w 3) (bit1 w 2) (bit1 w 1) else .illFormedWord (BitVec.ofNat 32 w)) else
  if c = 13 then (if fld w 0 1 == 0 then .fcle (bvf w 18 6) (bvf w 12 6) (bvf w 6 6) (bvf w 4 2) (bit1 w 3) (bit1 w 2) (bit1 w 1) else .illFormedWord (BitVec.ofNat 32 w)) else
  if c = 14 then (if fld w 0 1 == 0 then .fcun (bvf w 18 6) (bvf w 12 6) (bvf w 6 6) (bvf w 4 2) (bit1 w 3) (bit1 w 2) (bit1 w 1) else .illFormedWord (BitVec.ofNat 32 w)) else
  if c = 15 then (if fld w 0 2 == 0 && fld w 6 6 == 0 then .fclass (bvf w 18 6) (bvf w 12 6) (bvf w 4 2) (bit1 w 3) (bit1 w 2) else .illFormedWord (BitVec.ofNat 32 w)) else
  .illFormedWord (BitVec.ofNat 32 w)

/-- Words of opcodes 0x70 to 0x7F. LDCW reads its literal from the second word `l`. -/
noncomputable def decode7 (c w _l : Nat) : Instr :=
  if c = 0 then (if fld w 0 2 == 0 && fld w 6 6 == 0 then .frcp (bvf w 18 6) (bvf w 12 6) (bvf w 4 2) (bit1 w 3) (bit1 w 2) else .illFormedWord (BitVec.ofNat 32 w)) else
  if c = 1 then (if fld w 0 2 == 0 && fld w 6 6 == 0 then .frsq (bvf w 18 6) (bvf w 12 6) (bvf w 4 2) (bit1 w 3) (bit1 w 2) else .illFormedWord (BitVec.ofNat 32 w)) else
  if c = 2 then (if fld w 0 2 == 0 && fld w 6 6 == 0 then .fsqrt (bvf w 18 6) (bvf w 12 6) (bvf w 4 2) (bit1 w 3) (bit1 w 2) else .illFormedWord (BitVec.ofNat 32 w)) else
  if c = 3 then (if fld w 0 1 == 0 then .fdiv (bvf w 18 6) (bvf w 12 6) (bvf w 6 6) (bvf w 4 2) (bit1 w 3) (bit1 w 2) (bit1 w 1) else .illFormedWord (BitVec.ofNat 32 w)) else
  if c = 4 then (if fld w 0 2 == 0 && fld w 6 6 == 0 then .fexp2 (bvf w 18 6) (bvf w 12 6) (bvf w 4 2) (bit1 w 3) (bit1 w 2) else .illFormedWord (BitVec.ofNat 32 w)) else
  if c = 5 then (if fld w 0 2 == 0 && fld w 6 6 == 0 then .flog2 (bvf w 18 6) (bvf w 12 6) (bvf w 4 2) (bit1 w 3) (bit1 w 2) else .illFormedWord (BitVec.ofNat 32 w)) else
  if c = 6 then (if fld w 0 2 == 0 && fld w 6 6 == 0 then .fsin (bvf w 18 6) (bvf w 12 6) (bvf w 4 2) (bit1 w 3) (bit1 w 2) else .illFormedWord (BitVec.ofNat 32 w)) else
  if c = 7 then (if fld w 0 2 == 0 && fld w 6 6 == 0 then .fcos (bvf w 18 6) (bvf w 12 6) (bvf w 4 2) (bit1 w 3) (bit1 w 2) else .illFormedWord (BitVec.ofNat 32 w)) else
  if c = 8 then (if fld w 0 2 == 0 && fld w 6 6 == 0 then .ftanh (bvf w 18 6) (bvf w 12 6) (bvf w 4 2) (bit1 w 3) (bit1 w 2) else .illFormedWord (BitVec.ofNat 32 w)) else
  if c = 9 then (if fld w 0 2 == 0 && fld w 6 6 == 0 then .fsig (bvf w 18 6) (bvf w 12 6) (bvf w 4 2) (bit1 w 3) (bit1 w 2) else .illFormedWord (BitVec.ofNat 32 w)) else
  if c = 10 then (if fld w 0 2 == 0 && fld w 6 6 == 0 then .ffrac (bvf w 18 6) (bvf w 12 6) (bvf w 4 2) (bit1 w 3) (bit1 w 2) else .illFormedWord (BitVec.ofNat 32 w)) else
  if c = 11 then (if fld w 0 2 == 0 && fld w 6 6 == 0 then .frnd (bvf w 18 6) (bvf w 12 6) (bvf w 4 2) (bit1 w 3) (bit1 w 2) else .illFormedWord (BitVec.ofNat 32 w)) else
  if c = 12 then (if fld w 0 1 == 0 then .fscale (bvf w 18 6) (bvf w 12 6) (bvf w 6 6) (bvf w 4 2) (bit1 w 3) (bit1 w 2) (bit1 w 1) else .illFormedWord (BitVec.ofNat 32 w)) else
  if c = 13 then (if fld w 0 1 == 0 then .fcpys (bvf w 18 6) (bvf w 12 6) (bvf w 6 6) (bvf w 4 2) (bit1 w 3) (bit1 w 2) (bit1 w 1) else .illFormedWord (BitVec.ofNat 32 w)) else
  if c = 14 then (if fld w 0 2 == 0 && fld w 6 6 == 0 then .fsat (bvf w 18 6) (bvf w 12 6) (bvf w 4 2) (bit1 w 3) (bit1 w 2) else .illFormedWord (BitVec.ofNat 32 w)) else
  if c = 15 then (if fld w 0 4 == 8 && fld w 12 6 == 0 then .flagrd (bvf w 18 6) (bvf w 6 6) (bvf w 4 2) else .illFormedWord (BitVec.ofNat 32 w)) else
  .illFormedWord (BitVec.ofNat 32 w)

/-- Words of opcodes 0x80 to 0x8F. LDCW reads its literal from the second word `l`. -/
noncomputable def decode8 (c w _l : Nat) : Instr :=
  if c = 0 then (if fld w 0 1 == 0 then .fadde (bvf w 18 6) (bvf w 12 6) (bvf w 6 6) (bvf w 4 2) (bit1 w 3) (bit1 w 2) (bit1 w 1) else .illFormedWord (BitVec.ofNat 32 w)) else
  if c = 1 then (if fld w 0 1 == 0 then .fsube (bvf w 18 6) (bvf w 12 6) (bvf w 6 6) (bvf w 4 2) (bit1 w 3) (bit1 w 2) (bit1 w 1) else .illFormedWord (BitVec.ofNat 32 w)) else
  if c = 2 then (if fld w 0 1 == 0 then .fmule (bvf w 18 6) (bvf w 12 6) (bvf w 6 6) (bvf w 4 2) (bit1 w 3) (bit1 w 2) (bit1 w 1) else .illFormedWord (BitVec.ofNat 32 w)) else
  if c = 3 then (if fld w 1 1 == 0 && fld w 6 6 == 0 then .facc (bvf w 18 6) (bvf w 12 6) (bvf w 4 2) (bit1 w 3) (bit1 w 2) (bit1 w 0) else .illFormedWord (BitVec.ofNat 32 w)) else
  if c = 4 then (if fld w 0 1 == 0 then .dwadd (bvf w 18 6) (bvf w 12 6) (bvf w 6 6) (bvf w 4 2) (bit1 w 3) (bit1 w 2) (bit1 w 1) else .illFormedWord (BitVec.ofNat 32 w)) else
  if c = 5 then (if fld w 0 1 == 0 then .dwsub (bvf w 18 6) (bvf w 12 6) (bvf w 6 6) (bvf w 4 2) (bit1 w 3) (bit1 w 2) (bit1 w 1) else .illFormedWord (BitVec.ofNat 32 w)) else
  if c = 6 then (if fld w 0 1 == 0 then .dwmul (bvf w 18 6) (bvf w 12 6) (bvf w 6 6) (bvf w 4 2) (bit1 w 3) (bit1 w 2) (bit1 w 1) else .illFormedWord (BitVec.ofNat 32 w)) else
  if c = 7 then (if fld w 0 1 == 0 then .dwaddf (bvf w 18 6) (bvf w 12 6) (bvf w 6 6) (bvf w 4 2) (bit1 w 3) (bit1 w 2) (bit1 w 1) else .illFormedWord (BitVec.ofNat 32 w)) else
  if c = 8 then (if fld w 0 1 == 0 then .dwmulf (bvf w 18 6) (bvf w 12 6) (bvf w 6 6) (bvf w 4 2) (bit1 w 3) (bit1 w 2) (bit1 w 1) else .illFormedWord (BitVec.ofNat 32 w)) else
  if c = 9 then (if fld w 0 1 == 0 then .dwdiv (bvf w 18 6) (bvf w 12 6) (bvf w 6 6) (bvf w 4 2) (bit1 w 3) (bit1 w 2) (bit1 w 1) else .illFormedWord (BitVec.ofNat 32 w)) else
  if c = 10 then (if fld w 0 2 == 0 && fld w 6 6 == 0 then .dwsqrt (bvf w 18 6) (bvf w 12 6) (bvf w 4 2) (bit1 w 3) (bit1 w 2) else .illFormedWord (BitVec.ofNat 32 w)) else
  if c = 11 then (if fld w 0 2 == 0 && fld w 6 6 == 0 then .dwnorm (bvf w 18 6) (bvf w 12 6) (bvf w 4 2) (bit1 w 3) (bit1 w 2) else .illFormedWord (BitVec.ofNat 32 w)) else
  if c = 12 then (if fld w 0 2 == 0 && fld w 6 6 == 0 then .dwtof (bvf w 18 6) (bvf w 12 6) (bvf w 4 2) (bit1 w 3) (bit1 w 2) else .illFormedWord (BitVec.ofNat 32 w)) else
  if c = 13 then (if fld w 0 1 == 0 then .dwclt (bvf w 18 6) (bvf w 12 6) (bvf w 6 6) (bvf w 4 2) (bit1 w 3) (bit1 w 2) (bit1 w 1) else .illFormedWord (BitVec.ofNat 32 w)) else
  if c = 14 then (if fld w 0 1 == 0 then .dwceq (bvf w 18 6) (bvf w 12 6) (bvf w 6 6) (bvf w 4 2) (bit1 w 3) (bit1 w 2) (bit1 w 1) else .illFormedWord (BitVec.ofNat 32 w)) else
  if c = 15 then .illegalInstruction (BitVec.ofNat 32 w) else
  .illFormedWord (BitVec.ofNat 32 w)

/-- Words of opcodes 0x90 to 0x9F. LDCW reads its literal from the second word `l`. -/
noncomputable def decode9 (c w _l : Nat) : Instr :=
  if c = 0 then (if fld w 3 2 == 0 && fld w 9 3 == 0 then .cvtff (bvf w 18 6) (bvf w 12 6) (bvf w 6 3) (bit1 w 5) (bvf w 0 3) else .illFormedWord (BitVec.ofNat 32 w)) else
  if c = 1 then (if fld w 3 2 == 0 && fld w 9 3 == 0 then .cvtfi (bvf w 18 6) (bvf w 12 6) (bvf w 6 3) (bit1 w 5) (bvf w 0 3) else .illFormedWord (BitVec.ofNat 32 w)) else
  if c = 2 then (if fld w 3 2 == 0 && fld w 9 3 == 0 then .cvtif (bvf w 18 6) (bvf w 12 6) (bvf w 6 3) (bit1 w 5) (bvf w 0 3) else .illFormedWord (BitVec.ofNat 32 w)) else
  if c = 3 then (if fld w 4 1 == 0 then .pack (bvf w 18 6) (bvf w 12 6) (bvf w 6 6) (bit1 w 5) (bvf w 0 4) else .illFormedWord (BitVec.ofNat 32 w)) else
  if c = 4 then (if fld w 4 1 == 0 && fld w 6 6 == 0 then .unpk (bvf w 18 6) (bvf w 12 6) (bit1 w 5) (bvf w 0 4) else .illFormedWord (BitVec.ofNat 32 w)) else
  if c = 5 then (if fld w 4 1 == 0 then .pack8 (bvf w 18 6) (bvf w 12 6) (bvf w 6 6) (bit1 w 5) (bvf w 0 4) else .illFormedWord (BitVec.ofNat 32 w)) else
  if c = 6 then (if fld w 4 1 == 0 && fld w 6 6 == 0 then .unpk8 (bvf w 18 6) (bvf w 12 6) (bit1 w 5) (bvf w 0 4) else .illFormedWord (BitVec.ofNat 32 w)) else
  if c = 7 then (if fld w 1 4 == 0 then .qnt4 (bvf w 18 6) (bvf w 12 6) (bvf w 6 6) (bit1 w 5) (bit1 w 0) else .illFormedWord (BitVec.ofNat 32 w)) else
  if c = 8 then (if fld w 0 3 == 0 && fld w 12 6 == 0 then .rand (bvf w 18 6) (bvf w 6 6) (bvf w 4 2) (bit1 w 3) else .illFormedWord (BitVec.ofNat 32 w)) else
  if c = 9 then (if fld w 0 3 == 0 && fld w 6 12 == 0 then .randf (bvf w 18 6) (bvf w 4 2) (bit1 w 3) else .illFormedWord (BitVec.ofNat 32 w)) else
  if c = 10 then (if fld w 0 2 == 0 && fld w 3 1 == 0 then .catsamp (bvf w 18 6) (bvf w 12 6) (bvf w 6 6) (bvf w 4 2) (bit1 w 2) else .illFormedWord (BitVec.ofNat 32 w)) else
  if c = 11 then (if fld w 0 4 == 8 && fld w 12 6 == 0 then .bararv (bvf w 18 6) (bvf w 6 6) (bvf w 4 2) else .illFormedWord (BitVec.ofNat 32 w)) else
  if c = 12 then .illegalInstruction (BitVec.ofNat 32 w) else
  if c = 13 then .illegalInstruction (BitVec.ofNat 32 w) else
  if c = 14 then .illegalInstruction (BitVec.ofNat 32 w) else
  if c = 15 then .illegalInstruction (BitVec.ofNat 32 w) else
  .illFormedWord (BitVec.ofNat 32 w)

/-- Words of opcodes 0xA0 to 0xAF. LDCW reads its literal from the second word `l`. -/
noncomputable def decodeA (c w _l : Nat) : Instr :=
  if c = 0 then (if fld w 0 1 == 0 && fld w 3 1 == 0 then .shfl (bvf w 18 6) (bvf w 12 6) (bvf w 6 6) (bvf w 4 2) (bit1 w 2) (bit1 w 1) else .illFormedWord (BitVec.ofNat 32 w)) else
  if c = 1 then (if fld w 0 2 == 0 && fld w 3 1 == 0 then .shflx (bvf w 18 6) (bvf w 12 6) (bvf w 6 6) (bvf w 4 2) (bit1 w 2) else .illFormedWord (BitVec.ofNat 32 w)) else
  if c = 2 then (if fld w 11 1 == 0 then .shflu (bvf w 18 6) (bvf w 12 6) (bvf w 0 11) else .illFormedWord (BitVec.ofNat 32 w)) else
  if c = 3 then (if fld w 11 1 == 0 then .shfld (bvf w 18 6) (bvf w 12 6) (bvf w 0 11) else .illFormedWord (BitVec.ofNat 32 w)) else
  if c = 4 then (if fld w 7 5 == 0 then .bcast (bvf w 18 6) (bvf w 12 6) (bit1 w 6) (bvf w 0 6) else .illFormedWord (BitVec.ofNat 32 w)) else
  if c = 5 then (if fld w 0 4 == 0 then .voteany (bvf w 18 6) (bvf w 12 6) (bvf w 6 6) (bvf w 4 2) else .illFormedWord (BitVec.ofNat 32 w)) else
  if c = 6 then (if fld w 0 4 == 0 then .voteall (bvf w 18 6) (bvf w 12 6) (bvf w 6 6) (bvf w 4 2) else .illFormedWord (BitVec.ofNat 32 w)) else
  if c = 7 then (if fld w 0 4 == 0 then .ballot (bvf w 18 6) (bvf w 12 6) (bvf w 6 6) (bvf w 4 2) else .illFormedWord (BitVec.ofNat 32 w)) else
  if c = 8 then (if fld w 0 2 == 0 && fld w 3 1 == 0 then .scanadd (bvf w 18 6) (bvf w 12 6) (bvf w 6 6) (bvf w 4 2) (bit1 w 2) else .illFormedWord (BitVec.ofNat 32 w)) else
  if c = 9 then (if fld w 0 2 == 0 && fld w 3 1 == 0 then .scanfadd (bvf w 18 6) (bvf w 12 6) (bvf w 6 6) (bvf w 4 2) (bit1 w 2) else .illFormedWord (BitVec.ofNat 32 w)) else
  if c = 10 then (if fld w 0 2 == 0 && fld w 3 1 == 0 && fld w 6 6 == 0 then .redadd (bvf w 18 6) (bvf w 12 6) (bvf w 4 2) (bit1 w 2) else .illFormedWord (BitVec.ofNat 32 w)) else
  if c = 11 then (if fld w 0 2 == 0 && fld w 3 1 == 0 && fld w 6 6 == 0 then .redfadd (bvf w 18 6) (bvf w 12 6) (bvf w 4 2) (bit1 w 2) else .illFormedWord (BitVec.ofNat 32 w)) else
  if c = 12 then (if fld w 0 2 == 0 && fld w 3 1 == 0 then .redmin (bvf w 18 6) (bvf w 12 6) (bvf w 6 6) (bvf w 4 2) (bit1 w 2) else .illFormedWord (BitVec.ofNat 32 w)) else
  if c = 13 then (if fld w 0 2 == 0 && fld w 3 1 == 0 then .redmax (bvf w 18 6) (bvf w 12 6) (bvf w 6 6) (bvf w 4 2) (bit1 w 2) else .illFormedWord (BitVec.ofNat 32 w)) else
  if c = 14 then (if fld w 0 2 == 0 && fld w 3 1 == 0 && fld w 6 6 == 0 then .redsumc (bvf w 18 6) (bvf w 12 6) (bvf w 4 2) (bit1 w 2) else .illFormedWord (BitVec.ofNat 32 w)) else
  if c = 15 then (if fld w 0 1 == 0 && fld w 3 1 == 0 then .reddotc (bvf w 18 6) (bvf w 12 6) (bvf w 6 6) (bvf w 4 2) (bit1 w 2) (bit1 w 1) else .illFormedWord (BitVec.ofNat 32 w)) else
  .illFormedWord (BitVec.ofNat 32 w)

/-- Words of opcodes 0xB0 to 0xBF. LDCW reads its literal from the second word `l`. -/
noncomputable def decodeB (c w _l : Nat) : Instr :=
  if c = 0 then (.ldb (bvf w 18 6) (bvf w 12 6) (bit1 w 11) (bvf w 3 8) (bvf w 0 3)) else
  if c = 1 then (.ldbs (bvf w 18 6) (bvf w 12 6) (bit1 w 11) (bvf w 3 8) (bvf w 0 3)) else
  if c = 2 then (.ldh (bvf w 18 6) (bvf w 12 6) (bit1 w 11) (bvf w 3 8) (bvf w 0 3)) else
  if c = 3 then (.ldhs (bvf w 18 6) (bvf w 12 6) (bit1 w 11) (bvf w 3 8) (bvf w 0 3)) else
  if c = 4 then (.ldw (bvf w 18 6) (bvf w 12 6) (bit1 w 11) (bvf w 3 8) (bvf w 0 3)) else
  if c = 5 then (.ldd (bvf w 18 6) (bvf w 12 6) (bit1 w 11) (bvf w 3 8) (bvf w 0 3)) else
  if c = 6 then (.ldq (bvf w 18 6) (bvf w 12 6) (bit1 w 11) (bvf w 3 8) (bvf w 0 3)) else
  if c = 7 then (if fld w 11 1 == 0 then .ldln (bvf w 18 6) (bvf w 12 6) (bvf w 3 8) (bvf w 0 3) else .illFormedWord (BitVec.ofNat 32 w)) else
  if c = 8 then (.stb (bvf w 18 6) (bvf w 12 6) (bit1 w 11) (bvf w 3 8) (bvf w 0 3)) else
  if c = 9 then (.sth (bvf w 18 6) (bvf w 12 6) (bit1 w 11) (bvf w 3 8) (bvf w 0 3)) else
  if c = 10 then (.stw (bvf w 18 6) (bvf w 12 6) (bit1 w 11) (bvf w 3 8) (bvf w 0 3)) else
  if c = 11 then (.std (bvf w 18 6) (bvf w 12 6) (bit1 w 11) (bvf w 3 8) (bvf w 0 3)) else
  if c = 12 then (.stq (bvf w 18 6) (bvf w 12 6) (bit1 w 11) (bvf w 3 8) (bvf w 0 3)) else
  if c = 13 then (if fld w 18 6 == 0 then .pref (bvf w 12 6) (bit1 w 11) (bvf w 3 8) (bvf w 0 3) else .illFormedWord (BitVec.ofNat 32 w)) else
  if c = 14 then (if fld w 3 21 == 0 then .fence (bvf w 0 3) else .illFormedWord (BitVec.ofNat 32 w)) else
  if c = 15 then (if fld w 4 2 == 0 && fld w 18 6 == 0 then .cflush (bvf w 12 6) (bvf w 6 6) (bit1 w 3) (bvf w 0 3) else .illFormedWord (BitVec.ofNat 32 w)) else
  .illFormedWord (BitVec.ofNat 32 w)

/-- Words of opcodes 0xC0 to 0xCF. LDCW reads its literal from the second word `l`. -/
noncomputable def decodeC (c w _l : Nat) : Instr :=
  if c = 0 then (if fld w 4 2 == 0 && fld w 18 6 == 0 then .cinv (bvf w 12 6) (bvf w 6 6) (bit1 w 3) (bvf w 0 3) else .illFormedWord (BitVec.ofNat 32 w)) else
  if c = 1 then (.atadd (bvf w 18 6) (bvf w 12 6) (bvf w 6 6) (bit1 w 5) (bit1 w 4) (bit1 w 3) (bvf w 0 3)) else
  if c = 2 then (.atmin (bvf w 18 6) (bvf w 12 6) (bvf w 6 6) (bit1 w 5) (bit1 w 4) (bit1 w 3) (bvf w 0 3)) else
  if c = 3 then (.atmax (bvf w 18 6) (bvf w 12 6) (bvf w 6 6) (bit1 w 5) (bit1 w 4) (bit1 w 3) (bvf w 0 3)) else
  if c = 4 then (.atand (bvf w 18 6) (bvf w 12 6) (bvf w 6 6) (bit1 w 5) (bit1 w 4) (bit1 w 3) (bvf w 0 3)) else
  if c = 5 then (.ator (bvf w 18 6) (bvf w 12 6) (bvf w 6 6) (bit1 w 5) (bit1 w 4) (bit1 w 3) (bvf w 0 3)) else
  if c = 6 then (.atxor (bvf w 18 6) (bvf w 12 6) (bvf w 6 6) (bit1 w 5) (bit1 w 4) (bit1 w 3) (bvf w 0 3)) else
  if c = 7 then (.atxchg (bvf w 18 6) (bvf w 12 6) (bvf w 6 6) (bit1 w 5) (bit1 w 4) (bit1 w 3) (bvf w 0 3)) else
  if c = 8 then (.atcas (bvf w 18 6) (bvf w 12 6) (bvf w 6 6) (bit1 w 5) (bit1 w 4) (bit1 w 3) (bvf w 0 3)) else
  if c = 9 then (.atfadd (bvf w 18 6) (bvf w 12 6) (bvf w 6 6) (bit1 w 5) (bit1 w 4) (bit1 w 3) (bvf w 0 3)) else
  if c = 10 then (.atpadd (bvf w 18 6) (bvf w 12 6) (bvf w 6 6) (bit1 w 5) (bit1 w 4) (bit1 w 3) (bvf w 0 3)) else
  if c = 11 then (.atinc (bvf w 18 6) (bvf w 12 6) (bvf w 6 6) (bit1 w 5) (bit1 w 4) (bit1 w 3) (bvf w 0 3)) else
  if c = 12 then (if fld w 3 3 == 0 && fld w 18 6 == 0 then .bkadd (bvf w 12 6) (bvf w 6 6) (bvf w 0 3) else .illFormedWord (BitVec.ofNat 32 w)) else
  if c = 13 then (if fld w 3 3 == 0 && fld w 18 6 == 0 then .bkred (bvf w 12 6) (bvf w 6 6) (bvf w 0 3) else .illFormedWord (BitVec.ofNat 32 w)) else
  if c = 14 then (if fld w 0 6 == 0 then .bkset (bvf w 18 6) (bvf w 12 6) (bvf w 6 6) else .illFormedWord (BitVec.ofNat 32 w)) else
  if c = 15 then (if fld w 0 6 == 0 then .bkscal (bvf w 18 6) (bvf w 12 6) (bvf w 6 6) else .illFormedWord (BitVec.ofNat 32 w)) else
  .illFormedWord (BitVec.ofNat 32 w)

/-- Words of opcodes 0xD0 to 0xDF. LDCW reads its literal from the second word `l`. -/
noncomputable def decodeD (c w _l : Nat) : Instr :=
  if c = 0 then (if fld w 5 1 == 0 then .cpya (bvf w 18 6) (bvf w 12 6) (bvf w 6 6) (bit1 w 4) (bvf w 0 4) else .illFormedWord (BitVec.ofNat 32 w)) else
  if c = 1 then (if fld w 4 2 == 0 then .cpyg (bvf w 18 6) (bvf w 12 6) (bvf w 6 6) (bvf w 0 4) else .illFormedWord (BitVec.ofNat 32 w)) else
  if c = 2 then (if fld w 0 4 == 8 && fld w 6 12 == 0 then .batch (bvf w 18 6) (bvf w 4 2) else .illFormedWord (BitVec.ofNat 32 w)) else
  if c = 3 then (if fld w 11 1 == 1 && fld w 18 6 == 0 then .waitbat (bvf w 12 6) (bvf w 0 11) else if fld w 0 24 == 264192 then .waitbatAll else .illFormedWord (BitVec.ofNat 32 w)) else
  if c = 4 then (if fld w 0 4 == 8 && fld w 6 6 == 0 && fld w 18 6 == 0 then .febset (bvf w 12 6) (bvf w 4 2) else if fld w 0 4 == 8 && fld w 6 6 == 1 && fld w 18 6 == 0 then .febsetPut (bvf w 12 6) (bvf w 4 2) else .illFormedWord (BitVec.ofNat 32 w)) else
  if c = 5 then (if fld w 0 4 == 8 && fld w 6 6 == 0 && fld w 18 6 == 0 then .febclr (bvf w 12 6) (bvf w 4 2) else .illFormedWord (BitVec.ofNat 32 w)) else
  if c = 6 then (if fld w 0 4 == 8 && fld w 18 6 == 0 then .febwait (bvf w 12 6) (bvf w 6 6) (bvf w 4 2) else .illFormedWord (BitVec.ofNat 32 w)) else
  if c = 7 then (if fld w 0 4 == 8 && fld w 6 6 == 0 && fld w 18 6 == 0 then .febwe (bvf w 12 6) (bvf w 4 2) else .illFormedWord (BitVec.ofNat 32 w)) else
  if c = 8 then (if fld w 0 4 == 8 && fld w 6 6 == 0 && fld w 18 6 == 0 then .gang (bvf w 12 6) (bvf w 4 2) else .illFormedWord (BitVec.ofNat 32 w)) else
  if c = 9 then (if fld w 0 5 == 0 && fld w 18 6 == 0 then .mma (bvf w 12 6) (bvf w 6 6) (bit1 w 5) else .illFormedWord (BitVec.ofNat 32 w)) else
  if c = 10 then (if fld w 0 5 == 0 && fld w 18 6 == 0 then .mmasp (bvf w 12 6) (bvf w 6 6) (bit1 w 5) else .illFormedWord (BitVec.ofNat 32 w)) else
  if c = 11 then (if fld w 0 5 == 0 && fld w 18 6 == 0 then .mmaz (bvf w 12 6) (bvf w 6 6) (bit1 w 5) else .illFormedWord (BitVec.ofNat 32 w)) else
  if c = 12 then (if fld w 0 12 == 0 && fld w 18 6 == 0 then .drain (bvf w 12 6) else if fld w 0 12 == 32 then .drainReg (bvf w 18 6) (bvf w 12 6) else .illFormedWord (BitVec.ofNat 32 w)) else
  if c = 13 then (if fld w 0 4 == 8 && fld w 6 18 == 0 then .mmwait (bvf w 4 2) else .illFormedWord (BitVec.ofNat 32 w)) else
  if c = 14 then (.tld (bvf w 18 6) (bvf w 12 6) (bvf w 6 6) (bvf w 2 4) (bit1 w 1) (bit1 w 0)) else
  if c = 15 then (.tst (bvf w 18 6) (bvf w 12 6) (bvf w 6 6) (bvf w 2 4) (bit1 w 1) (bit1 w 0)) else
  .illFormedWord (BitVec.ofNat 32 w)

/-- Words of opcodes 0xE0 to 0xEF. LDCW reads its literal from the second word `l`. -/
noncomputable def decodeE (c w _l : Nat) : Instr :=
  if c = 0 then (if fld w 0 6 == 0 then .torg (bvf w 18 6) (bvf w 12 6) (bvf w 6 6) else .illFormedWord (BitVec.ofNat 32 w)) else
  if c = 1 then (if fld w 0 4 == 8 && fld w 6 12 == 0 then .tzero (bvf w 18 6) (bvf w 4 2) else if fld w 0 4 == 8 && fld w 6 18 == 1 then .tzeroAll (bvf w 4 2) else .illFormedWord (BitVec.ofNat 32 w)) else
  if c = 2 then (if fld w 0 6 == 0 then .bmcast (bvf w 18 6) (bvf w 12 6) (bvf w 6 6) else .illFormedWord (BitVec.ofNat 32 w)) else
  if c = 3 then (if fld w 3 9 == 0 then .engq (bvf w 18 6) (bvf w 12 6) (bvf w 0 3) else .illFormedWord (BitVec.ofNat 32 w)) else
  if c = 4 then (if fld w 0 4 == 8 && fld w 6 6 == 0 then .fwait (bvf w 18 6) (bvf w 12 6) (bvf w 4 2) else .illFormedWord (BitVec.ofNat 32 w)) else
  if c = 5 then (if fld w 0 4 == 8 && fld w 6 6 == 0 then .ftest (bvf w 18 6) (bvf w 12 6) (bvf w 4 2) else .illFormedWord (BitVec.ofNat 32 w)) else
  if c = 6 then (if fld w 0 4 == 8 && fld w 6 6 == 0 && fld w 18 6 == 0 then .fcancel (bvf w 12 6) (bvf w 4 2) else .illFormedWord (BitVec.ofNat 32 w)) else
  if c = 7 then (if fld w 0 4 == 8 && fld w 6 6 == 0 then .fres (bvf w 18 6) (bvf w 12 6) (bvf w 4 2) else .illFormedWord (BitVec.ofNat 32 w)) else
  if c = 8 then (if fld w 0 4 == 8 && fld w 6 6 == 0 then .spawn (bvf w 18 6) (bvf w 12 6) (bvf w 4 2) else .illFormedWord (BitVec.ofNat 32 w)) else
  if c = 9 then (if fld w 0 4 == 8 && fld w 6 18 == 0 then .cwait (bvf w 4 2) else if fld w 0 4 == 8 && fld w 6 6 == 1 && fld w 18 6 == 0 then .cwaitTask (bvf w 12 6) (bvf w 4 2) else .illFormedWord (BitVec.ofNat 32 w)) else
  if c = 10 then (if fld w 0 4 == 8 && fld w 6 6 == 0 && fld w 18 6 == 0 then .cancel (bvf w 12 6) (bvf w 4 2) else .illFormedWord (BitVec.ofNat 32 w)) else
  if c = 11 then (if fld w 12 6 == 0 then .qalloc (bvf w 18 6) (bit1 w 11) (bvf w 0 11) else .illFormedWord (BitVec.ofNat 32 w)) else
  if c = 12 then (if fld w 18 6 == 0 then .qfree (bvf w 12 6) (bit1 w 11) (bvf w 0 11) else .illFormedWord (BitVec.ofNat 32 w)) else
  if c = 13 then (if fld w 11 1 == 1 then .qfreel (bvf w 18 6) (bvf w 12 6) (bvf w 0 11) else .illFormedWord (BitVec.ofNat 32 w)) else
  if c = 14 then (if fld w 0 6 == 0 then .mfill (bvf w 18 6) (bvf w 12 6) (bvf w 6 6) else .illFormedWord (BitVec.ofNat 32 w)) else
  if c = 15 then (if fld w 0 12 == 2048 && fld w 18 6 == 0 then .mflush (bvf w 12 6) else .illFormedWord (BitVec.ofNat 32 w)) else
  .illFormedWord (BitVec.ofNat 32 w)

/-- Words of opcodes 0xF0 to 0xFF. LDCW reads its literal from the second word `l`. -/
noncomputable def decodeF (c w _l : Nat) : Instr :=
  if c = 0 then (if fld w 0 4 == 8 && fld w 18 6 == 0 then .dlarm (bvf w 12 6) (bvf w 6 6) (bvf w 4 2) else .illFormedWord (BitVec.ofNat 32 w)) else
  if c = 1 then (if fld w 0 4 == 8 && fld w 6 12 == 0 then .dlrd (bvf w 18 6) (bvf w 4 2) else .illFormedWord (BitVec.ofNat 32 w)) else
  if c = 2 then (if fld w 11 7 == 1 then .ttboard (bvf w 18 6) (bvf w 0 11) else .illFormedWord (BitVec.ofNat 32 w)) else
  if c = 3 then (if fld w 0 12 == 2048 && fld w 18 6 == 0 then .ttalight (bvf w 12 6) else .illFormedWord (BitVec.ofNat 32 w)) else
  if c = 4 then (if fld w 2 10 == 512 then .ttread (bvf w 18 6) (bvf w 12 6) (bit1 w 1) (bit1 w 0) else .illFormedWord (BitVec.ofNat 32 w)) else
  if c = 5 then (if fld w 5 1 == 0 then .ttcas (bvf w 18 6) (bvf w 12 6) (bvf w 6 6) (bit1 w 4) (bit1 w 3) (bvf w 0 3) else .illFormedWord (BitVec.ofNat 32 w)) else
  if c = 6 then (if fld w 0 3 == 0 && fld w 5 1 == 0 && fld w 18 6 == 0 then .ttmax (bvf w 12 6) (bvf w 6 6) (bit1 w 4) (bit1 w 3) else .illFormedWord (BitVec.ofNat 32 w)) else
  if c = 7 then (.ttadd (bvf w 18 6) (bvf w 12 6) (bvf w 6 6) (bit1 w 5) (bit1 w 4) (bit1 w 3) (bvf w 0 3)) else
  if c = 8 then (if fld w 0 12 == 2048 && fld w 18 6 == 0 then .ttwait (bvf w 12 6) else .illFormedWord (BitVec.ofNat 32 w)) else
  if c = 9 then (if fld w 1 11 == 0 then .vpush (bvf w 18 6) (bvf w 12 6) (bit1 w 0) else .illFormedWord (BitVec.ofNat 32 w)) else
  if c = 10 then (if fld w 1 5 == 0 && fld w 12 6 == 0 then .vpop (bvf w 18 6) (bvf w 6 6) (bit1 w 0) else .illFormedWord (BitVec.ofNat 32 w)) else
  if c = 11 then (if fld w 0 4 == 8 && fld w 12 6 == 0 then .vcount (bvf w 18 6) (bvf w 6 6) (bvf w 4 2) else .illFormedWord (BitVec.ofNat 32 w)) else
  if c = 12 then (if fld w 1 5 == 0 && fld w 18 6 == 0 then .mbpost (bvf w 12 6) (bvf w 6 6) (bit1 w 0) else .illFormedWord (BitVec.ofNat 32 w)) else
  if c = 13 then (if fld w 1 5 == 0 && fld w 12 6 == 0 then .mbtake (bvf w 18 6) (bvf w 6 6) (bit1 w 0) else .illFormedWord (BitVec.ofNat 32 w)) else
  if c = 14 then (if fld w 1 23 == 0 then .bar (bit1 w 0) else if fld w 1 11 == 1 && fld w 18 6 == 0 then .barWait (bvf w 12 6) (bit1 w 0) else .illFormedWord (BitVec.ofNat 32 w)) else
  if c = 15 then (if fld w 11 13 == 0 then .mark (bit1 w 10) (bvf w 0 10) else .illFormedWord (BitVec.ofNat 32 w)) else
  .illFormedWord (BitVec.ofNat 32 w)

/-- The instruction of a word `w` by the two digits of its opcode, with `l` the word that follows it. -/
noncomputable def decodeOp (h c w l : Nat) : Instr :=
  if h = 0 then decode0 c w l else
  if h = 1 then decode1 c w l else
  if h = 2 then decode2 c w l else
  if h = 3 then decode3 c w l else
  if h = 4 then decode4 c w l else
  if h = 5 then decode5 c w l else
  if h = 6 then decode6 c w l else
  if h = 7 then decode7 c w l else
  if h = 8 then decode8 c w l else
  if h = 9 then decode9 c w l else
  if h = 10 then decodeA c w l else
  if h = 11 then decodeB c w l else
  if h = 12 then decodeC c w l else
  if h = 13 then decodeD c w l else
  if h = 14 then decodeE c w l else
  if h = 15 then decodeF c w l else
  .illFormedWord (BitVec.ofNat 32 w)

/-- The instruction of a word `w`, with `l` the word that follows it. -/
noncomputable def decodeNat (w l : Nat) : Instr := decodeOp (fld w 28 4) (fld w 24 4) w l

/-- Whether a word is followed by a literal (R27). -/
def takesLiteral (w : Word) : Bool := fld w.toNat 24 8 == 0x42 && fld w.toNat 12 6 == 0 && fld w.toNat 0 11 == 0

/-- The word that four bytes hold, lowest address first (R6). -/
def wordOfBytes (b0 b1 b2 b3 : Byte) : Nat := b0.toNat + 2 ^ 8 * b1.toNat + 2 ^ 16 * b2.toNat + 2 ^ 24 * b3.toNat

/-- Reads one instruction from bytes and returns the rest; none where the bytes end before the instruction does. -/
noncomputable def decodeBytes : List Byte → Option (Instr × List Byte)
  | b0 :: b1 :: b2 :: b3 :: rest =>
    let w := wordOfBytes b0 b1 b2 b3
    if takesLiteral (BitVec.ofNat 32 w) then
      match rest with
      | c0 :: c1 :: c2 :: c3 :: rest' => some (decodeNat w (wordOfBytes c0 c1 c2 c3), rest')
      | _ => none
    else some (decodeNat w 0, rest)
  | _ => none

/-- The bytes of a word, lowest address first (R6). -/
def bytesOfWord (w : Nat) : List Byte :=
  [BitVec.ofNat 8 w, BitVec.ofNat 8 (w / 2 ^ 8), BitVec.ofNat 8 (w / 2 ^ 16), BitVec.ofNat 8 (w / 2 ^ 24)]

/-- What the decoder reads from an instruction whose bits are `w`, the first word in bits 31..0 and a literal in bits 63..32. -/
noncomputable def decodeTableWord (_nbits w : Nat) : Option Instr :=
  (decodeBytes (bytesOfWord w ++ bytesOfWord (w / 2 ^ 32))).map Prod.fst

/-! ### Encoding, from the same layouts -/

/-- One bit as a number. -/
def b2n (b : Bool) : Nat := if b then 1 else 0

/-- A word from its fixed bits and its fields, each with its lowest bit. -/
def word (fixed : Nat) (fs : List (Nat × Nat)) : Word :=
  BitVec.ofNat 32 (fs.foldr (fun f n => f.1 * 2 ^ f.2 + n) fixed)

/-- The words of an instruction; the empty list for an event of the device, which has no word. -/
def encode : Instr → List Word
  | .nop w => [word 0x00000000 [(w.toNat, 4)]]
  | .jmp i => [word 0x013C0000 [(i.toNat, 0)]]
  | .bra n p i => [word 0x02000000 [(b2n n, 23), (p.toNat, 18), (i.toNat, 0)]]
  | .brany n p i => [word 0x03000000 [(b2n n, 23), (p.toNat, 18), (i.toNat, 0)]]
  | .brall n p i => [word 0x04000000 [(b2n n, 23), (p.toNat, 18), (i.toNat, 0)]]
  | .brc c i => [word 0x05000000 [(c.toNat, 18), (i.toNat, 0)]]
  | .jpt i => [word 0x063C0000 [(i.toNat, 0)]]
  | .call n p i => [word 0x07000000 [(b2n n, 23), (p.toNat, 18), (i.toNat, 0)]]
  | .calli a w => [word 0x08000008 [(a.toNat, 12), (w.toNat, 4)]]
  | .ret w => [word 0x09000000 [(w.toNat, 4)]]
  | .loop d a i => [word 0x0A000800 [(d.toNat, 18), (a.toNat, 12), (i.toNat, 0)]]
  | .loopk c l n => [word 0x0B000000 [(c.toNat, 18), (l.toNat, 10), (n.toNat, 0)]]
  | .leave c => [word 0x0C000000 [(c.toNat, 18)]]
  | .exit w => [word 0x0D000000 [(w.toNat, 4)]]
  | .yield w => [word 0x0E000000 [(w.toNat, 4)]]
  | .bkpt i => [word 0x0F000000 [(i.toNat, 0)]]
  | .trap i => [word 0x10000000 [(i.toNat, 0)]]
  | .trapret w => [word 0x11000000 [(w.toNat, 4)]]
  | .xrepl a w (u, x) => [word 0x12000000 [(a.toNat, 12), (w.toNat, 4), (b2n u, 3), (b2n x, 2)]]
  | .mode a w => [word 0x13000008 [(a.toNat, 12), (w.toNat, 4)]]
  | .modef d i => [word 0x14000000 [(d.toNat, 18), (i.toNat, 0)]]
  | .moderd d w => [word 0x15000008 [(d.toNat, 18), (w.toNat, 4)]]
  | .exmsv d w => [word 0x16000008 [(d.toNat, 18), (w.toNat, 4)]]
  | .exmld a w => [word 0x17000008 [(a.toNat, 12), (w.toNat, 4)]]
  | .exmcmb a f => [word 0x18000000 [(a.toNat, 12), (f.toNat, 0)]]
  | .exmp a b w => [word 0x19000000 [(a.toNat, 12), (b.toNat, 6), (w.toNat, 4)]]
  | .idrd d u i => [word 0x1A000000 [(d.toNat, 18), (b2n u, 11), (i.toNat, 0)]]
  | .sysrd d n => [word 0x1B000000 [(d.toNat, 18), (n.toNat, 0)]]
  | .syswr d n => [word 0x1C000000 [(d.toNat, 18), (n.toNat, 0)]]
  | .reln a b w => [word 0x1D000000 [(a.toNat, 12), (b.toNat, 6), (w.toNat, 4)]]
  | .idemb w => [word 0x1E000000 [(w.toNat, 4)]]
  | .ideme w => [word 0x1F000000 [(w.toNat, 4)]]
  | .iadd d a b w u x y => [word 0x20000000 [(d.toNat, 18), (a.toNat, 12), (b.toNat, 6), (w.toNat, 4), (b2n u, 3), (b2n x, 2), (b2n y, 1)]]
  | .isub d a b w u x y => [word 0x21000000 [(d.toNat, 18), (a.toNat, 12), (b.toNat, 6), (w.toNat, 4), (b2n u, 3), (b2n x, 2), (b2n y, 1)]]
  | .imul d a b w u x y => [word 0x22000000 [(d.toNat, 18), (a.toNat, 12), (b.toNat, 6), (w.toNat, 4), (b2n u, 3), (b2n x, 2), (b2n y, 1)]]
  | .imulh d a b w u x y => [word 0x23000000 [(d.toNat, 18), (a.toNat, 12), (b.toNat, 6), (w.toNat, 4), (b2n u, 3), (b2n x, 2), (b2n y, 1)]]
  | .imulhu d a b w u x y => [word 0x24000000 [(d.toNat, 18), (a.toNat, 12), (b.toNat, 6), (w.toNat, 4), (b2n u, 3), (b2n x, 2), (b2n y, 1)]]
  | .imad d a b w u x y z => [word 0x25000000 [(d.toNat, 18), (a.toNat, 12), (b.toNat, 6), (w.toNat, 4), (b2n u, 3), (b2n x, 2), (b2n y, 1), (b2n z, 0)]]
  | .idiv d a b w u x y => [word 0x26000000 [(d.toNat, 18), (a.toNat, 12), (b.toNat, 6), (w.toNat, 4), (b2n u, 3), (b2n x, 2), (b2n y, 1)]]
  | .idivu d a b w u x y => [word 0x27000000 [(d.toNat, 18), (a.toNat, 12), (b.toNat, 6), (w.toNat, 4), (b2n u, 3), (b2n x, 2), (b2n y, 1)]]
  | .irem d a b w u x y => [word 0x28000000 [(d.toNat, 18), (a.toNat, 12), (b.toNat, 6), (w.toNat, 4), (b2n u, 3), (b2n x, 2), (b2n y, 1)]]
  | .iremu d a b w u x y => [word 0x29000000 [(d.toNat, 18), (a.toNat, 12), (b.toNat, 6), (w.toNat, 4), (b2n u, 3), (b2n x, 2), (b2n y, 1)]]
  | .imin d a b w u x y => [word 0x2A000000 [(d.toNat, 18), (a.toNat, 12), (b.toNat, 6), (w.toNat, 4), (b2n u, 3), (b2n x, 2), (b2n y, 1)]]
  | .imax d a b w u x y => [word 0x2B000000 [(d.toNat, 18), (a.toNat, 12), (b.toNat, 6), (w.toNat, 4), (b2n u, 3), (b2n x, 2), (b2n y, 1)]]
  | .iminu d a b w u x y => [word 0x2C000000 [(d.toNat, 18), (a.toNat, 12), (b.toNat, 6), (w.toNat, 4), (b2n u, 3), (b2n x, 2), (b2n y, 1)]]
  | .imaxu d a b w u x y => [word 0x2D000000 [(d.toNat, 18), (a.toNat, 12), (b.toNat, 6), (w.toNat, 4), (b2n u, 3), (b2n x, 2), (b2n y, 1)]]
  | .iabs d a w u x => [word 0x2E000000 [(d.toNat, 18), (a.toNat, 12), (w.toNat, 4), (b2n u, 3), (b2n x, 2)]]
  | .ineg d a w u x => [word 0x2F000000 [(d.toNat, 18), (a.toNat, 12), (w.toNat, 4), (b2n u, 3), (b2n x, 2)]]
  | .and d a b w u x y => [word 0x30000000 [(d.toNat, 18), (a.toNat, 12), (b.toNat, 6), (w.toNat, 4), (b2n u, 3), (b2n x, 2), (b2n y, 1)]]
  | .or d a b w u x y => [word 0x31000000 [(d.toNat, 18), (a.toNat, 12), (b.toNat, 6), (w.toNat, 4), (b2n u, 3), (b2n x, 2), (b2n y, 1)]]
  | .xor d a b w u x y => [word 0x32000000 [(d.toNat, 18), (a.toNat, 12), (b.toNat, 6), (w.toNat, 4), (b2n u, 3), (b2n x, 2), (b2n y, 1)]]
  | .andn d a b w u x y => [word 0x33000000 [(d.toNat, 18), (a.toNat, 12), (b.toNat, 6), (w.toNat, 4), (b2n u, 3), (b2n x, 2), (b2n y, 1)]]
  | .shl d a b w u x y => [word 0x34000000 [(d.toNat, 18), (a.toNat, 12), (b.toNat, 6), (w.toNat, 4), (b2n u, 3), (b2n x, 2), (b2n y, 1)]]
  | .shr d a b w u x y => [word 0x35000000 [(d.toNat, 18), (a.toNat, 12), (b.toNat, 6), (w.toNat, 4), (b2n u, 3), (b2n x, 2), (b2n y, 1)]]
  | .shra d a b w u x y => [word 0x36000000 [(d.toNat, 18), (a.toNat, 12), (b.toNat, 6), (w.toNat, 4), (b2n u, 3), (b2n x, 2), (b2n y, 1)]]
  | .rotl d a b w u x y => [word 0x37000000 [(d.toNat, 18), (a.toNat, 12), (b.toNat, 6), (w.toNat, 4), (b2n u, 3), (b2n x, 2), (b2n y, 1)]]
  | .popc d a w u x => [word 0x38000000 [(d.toNat, 18), (a.toNat, 12), (w.toNat, 4), (b2n u, 3), (b2n x, 2)]]
  | .clz d a w u x => [word 0x39000000 [(d.toNat, 18), (a.toNat, 12), (w.toNat, 4), (b2n u, 3), (b2n x, 2)]]
  | .brev d a w u x => [word 0x3A000000 [(d.toNat, 18), (a.toNat, 12), (w.toNat, 4), (b2n u, 3), (b2n x, 2)]]
  | .bfx d a b u s => [word 0x3B000000 [(d.toNat, 18), (a.toNat, 12), (b.toNat, 6), (b2n u, 5), (b2n s, 0)]]
  | .bfi d a b u => [word 0x3C000000 [(d.toNat, 18), (a.toNat, 12), (b.toNat, 6), (b2n u, 5)]]
  | .bperm d a b w u x y => [word 0x3D000000 [(d.toNat, 18), (a.toNat, 12), (b.toNat, 6), (w.toNat, 4), (b2n u, 3), (b2n x, 2), (b2n y, 1)]]
  | .fshf d a b w u x y z => [word 0x3E000000 [(d.toNat, 18), (a.toNat, 12), (b.toNat, 6), (w.toNat, 4), (b2n u, 3), (b2n x, 2), (b2n y, 1), (b2n z, 0)]]
  | .sel d a b n p => [word 0x3F000000 [(d.toNat, 18), (a.toNat, 12), (b.toNat, 6), (b2n n, 5), (p.toNat, 0)]]
  | .mov d b w u y => [word 0x40000000 [(d.toNat, 18), (b.toNat, 6), (w.toNat, 4), (b2n u, 3), (b2n y, 1)]]
  | .movi d u i => [word 0x41000000 [(d.toNat, 18), (b2n u, 11), (i.toNat, 0)]]
  | .ldcw d u lit => [word 0x42000000 [(d.toNat, 18), (b2n u, 11)], lit]
  | .movs d a w => [word 0x43000000 [(d.toNat, 18), (a.toNat, 12), (w.toNat, 4)]]
  | .addi d a u i => [word 0x44000000 [(d.toNat, 18), (a.toNat, 12), (b2n u, 11), (i.toNat, 0)]]
  | .muli d a u i => [word 0x45000000 [(d.toNat, 18), (a.toNat, 12), (b2n u, 11), (i.toNat, 0)]]
  | .andi d a u i => [word 0x46000000 [(d.toNat, 18), (a.toNat, 12), (b2n u, 11), (i.toNat, 0)]]
  | .ori d a u i => [word 0x47000000 [(d.toNat, 18), (a.toNat, 12), (b2n u, 11), (i.toNat, 0)]]
  | .xori d a u i => [word 0x48000000 [(d.toNat, 18), (a.toNat, 12), (b2n u, 11), (i.toNat, 0)]]
  | .shli d a u i => [word 0x49000000 [(d.toNat, 18), (a.toNat, 12), (b2n u, 11), (i.toNat, 0)]]
  | .shri d a u i => [word 0x4A000000 [(d.toNat, 18), (a.toNat, 12), (b2n u, 11), (i.toNat, 0)]]
  | .shrai d a u i => [word 0x4B000000 [(d.toNat, 18), (a.toNat, 12), (b2n u, 11), (i.toNat, 0)]]
  | .aadd d a b w u x y => [word 0x4C000000 [(d.toNat, 18), (a.toNat, 12), (b.toNat, 6), (w.toNat, 4), (b2n u, 3), (b2n x, 2), (b2n y, 1)]]
  | .alea d a b u e h => [word 0x4D000000 [(d.toNat, 18), (a.toNat, 12), (b.toNat, 6), (b2n u, 5), (b2n e, 3), (h.toNat, 0)]]
  | .aaddi d a u i => [word 0x4E000000 [(d.toNat, 18), (a.toNat, 12), (b2n u, 11), (i.toNat, 0)]]
  | .asub d a b w u x y => [word 0x4F000000 [(d.toNat, 18), (a.toNat, 12), (b.toNat, 6), (w.toNat, 4), (b2n u, 3), (b2n x, 2), (b2n y, 1)]]
  | .iceq d a b w u x y => [word 0x50000000 [(d.toNat, 18), (a.toNat, 12), (b.toNat, 6), (w.toNat, 4), (b2n u, 3), (b2n x, 2), (b2n y, 1)]]
  | .icne d a b w u x y => [word 0x51000000 [(d.toNat, 18), (a.toNat, 12), (b.toNat, 6), (w.toNat, 4), (b2n u, 3), (b2n x, 2), (b2n y, 1)]]
  | .iclt d a b w u x y => [word 0x52000000 [(d.toNat, 18), (a.toNat, 12), (b.toNat, 6), (w.toNat, 4), (b2n u, 3), (b2n x, 2), (b2n y, 1)]]
  | .icle d a b w u x y => [word 0x53000000 [(d.toNat, 18), (a.toNat, 12), (b.toNat, 6), (w.toNat, 4), (b2n u, 3), (b2n x, 2), (b2n y, 1)]]
  | .icltu d a b w u x y => [word 0x54000000 [(d.toNat, 18), (a.toNat, 12), (b.toNat, 6), (w.toNat, 4), (b2n u, 3), (b2n x, 2), (b2n y, 1)]]
  | .icleu d a b w u x y => [word 0x55000000 [(d.toNat, 18), (a.toNat, 12), (b.toNat, 6), (w.toNat, 4), (b2n u, 3), (b2n x, 2), (b2n y, 1)]]
  | .iceqi d a u i => [word 0x56000000 [(d.toNat, 18), (a.toNat, 12), (b2n u, 11), (i.toNat, 0)]]
  | .iclti d a u i => [word 0x57000000 [(d.toNat, 18), (a.toNat, 12), (b2n u, 11), (i.toNat, 0)]]
  | .pand d a b w u => [word 0x58000000 [(d.toNat, 18), (a.toNat, 12), (b.toNat, 6), (w.toNat, 4), (b2n u, 3)]]
  | .por d a b w u => [word 0x59000000 [(d.toNat, 18), (a.toNat, 12), (b.toNat, 6), (w.toNat, 4), (b2n u, 3)]]
  | .pxor d a b w u => [word 0x5A000000 [(d.toNat, 18), (a.toNat, 12), (b.toNat, 6), (w.toNat, 4), (b2n u, 3)]]
  | .pandn d a b w u => [word 0x5B000000 [(d.toNat, 18), (a.toNat, 12), (b.toNat, 6), (w.toNat, 4), (b2n u, 3)]]
  | .ptos d a w => [word 0x5C000008 [(d.toNat, 18), (a.toNat, 12), (w.toNat, 4)]]
  | .pfroms d a w => [word 0x5D000008 [(d.toNat, 18), (a.toNat, 12), (w.toNat, 4)]]
  | .cmrd d w => [word 0x5E000008 [(d.toNat, 18), (w.toNat, 4)]]
  | .cmwr a w => [word 0x5F000008 [(a.toNat, 12), (w.toNat, 4)]]
  | .fadd d a b w u x y => [word 0x60000000 [(d.toNat, 18), (a.toNat, 12), (b.toNat, 6), (w.toNat, 4), (b2n u, 3), (b2n x, 2), (b2n y, 1)]]
  | .fsub d a b w u x y => [word 0x61000000 [(d.toNat, 18), (a.toNat, 12), (b.toNat, 6), (w.toNat, 4), (b2n u, 3), (b2n x, 2), (b2n y, 1)]]
  | .fmul d a b w u x y => [word 0x62000000 [(d.toNat, 18), (a.toNat, 12), (b.toNat, 6), (w.toNat, 4), (b2n u, 3), (b2n x, 2), (b2n y, 1)]]
  | .ffma d a b w u x y z => [word 0x63000000 [(d.toNat, 18), (a.toNat, 12), (b.toNat, 6), (w.toNat, 4), (b2n u, 3), (b2n x, 2), (b2n y, 1), (b2n z, 0)]]
  | .ffms d a b w u x y z => [word 0x64000000 [(d.toNat, 18), (a.toNat, 12), (b.toNat, 6), (w.toNat, 4), (b2n u, 3), (b2n x, 2), (b2n y, 1), (b2n z, 0)]]
  | .fnma d a b w u x y z => [word 0x65000000 [(d.toNat, 18), (a.toNat, 12), (b.toNat, 6), (w.toNat, 4), (b2n u, 3), (b2n x, 2), (b2n y, 1), (b2n z, 0)]]
  | .fmin d a b w u x y => [word 0x66000000 [(d.toNat, 18), (a.toNat, 12), (b.toNat, 6), (w.toNat, 4), (b2n u, 3), (b2n x, 2), (b2n y, 1)]]
  | .fmax d a b w u x y => [word 0x67000000 [(d.toNat, 18), (a.toNat, 12), (b.toNat, 6), (w.toNat, 4), (b2n u, 3), (b2n x, 2), (b2n y, 1)]]
  | .fabs d a w u x => [word 0x68000000 [(d.toNat, 18), (a.toNat, 12), (w.toNat, 4), (b2n u, 3), (b2n x, 2)]]
  | .fneg d a w u x => [word 0x69000000 [(d.toNat, 18), (a.toNat, 12), (w.toNat, 4), (b2n u, 3), (b2n x, 2)]]
  | .fceq d a b w u x y => [word 0x6A000000 [(d.toNat, 18), (a.toNat, 12), (b.toNat, 6), (w.toNat, 4), (b2n u, 3), (b2n x, 2), (b2n y, 1)]]
  | .fcne d a b w u x y => [word 0x6B000000 [(d.toNat, 18), (a.toNat, 12), (b.toNat, 6), (w.toNat, 4), (b2n u, 3), (b2n x, 2), (b2n y, 1)]]
  | .fclt d a b w u x y => [word 0x6C000000 [(d.toNat, 18), (a.toNat, 12), (b.toNat, 6), (w.toNat, 4), (b2n u, 3), (b2n x, 2), (b2n y, 1)]]
  | .fcle d a b w u x y => [word 0x6D000000 [(d.toNat, 18), (a.toNat, 12), (b.toNat, 6), (w.toNat, 4), (b2n u, 3), (b2n x, 2), (b2n y, 1)]]
  | .fcun d a b w u x y => [word 0x6E000000 [(d.toNat, 18), (a.toNat, 12), (b.toNat, 6), (w.toNat, 4), (b2n u, 3), (b2n x, 2), (b2n y, 1)]]
  | .fclass d a w u x => [word 0x6F000000 [(d.toNat, 18), (a.toNat, 12), (w.toNat, 4), (b2n u, 3), (b2n x, 2)]]
  | .frcp d a w u x => [word 0x70000000 [(d.toNat, 18), (a.toNat, 12), (w.toNat, 4), (b2n u, 3), (b2n x, 2)]]
  | .frsq d a w u x => [word 0x71000000 [(d.toNat, 18), (a.toNat, 12), (w.toNat, 4), (b2n u, 3), (b2n x, 2)]]
  | .fsqrt d a w u x => [word 0x72000000 [(d.toNat, 18), (a.toNat, 12), (w.toNat, 4), (b2n u, 3), (b2n x, 2)]]
  | .fdiv d a b w u x y => [word 0x73000000 [(d.toNat, 18), (a.toNat, 12), (b.toNat, 6), (w.toNat, 4), (b2n u, 3), (b2n x, 2), (b2n y, 1)]]
  | .fexp2 d a w u x => [word 0x74000000 [(d.toNat, 18), (a.toNat, 12), (w.toNat, 4), (b2n u, 3), (b2n x, 2)]]
  | .flog2 d a w u x => [word 0x75000000 [(d.toNat, 18), (a.toNat, 12), (w.toNat, 4), (b2n u, 3), (b2n x, 2)]]
  | .fsin d a w u x => [word 0x76000000 [(d.toNat, 18), (a.toNat, 12), (w.toNat, 4), (b2n u, 3), (b2n x, 2)]]
  | .fcos d a w u x => [word 0x77000000 [(d.toNat, 18), (a.toNat, 12), (w.toNat, 4), (b2n u, 3), (b2n x, 2)]]
  | .ftanh d a w u x => [word 0x78000000 [(d.toNat, 18), (a.toNat, 12), (w.toNat, 4), (b2n u, 3), (b2n x, 2)]]
  | .fsig d a w u x => [word 0x79000000 [(d.toNat, 18), (a.toNat, 12), (w.toNat, 4), (b2n u, 3), (b2n x, 2)]]
  | .ffrac d a w u x => [word 0x7A000000 [(d.toNat, 18), (a.toNat, 12), (w.toNat, 4), (b2n u, 3), (b2n x, 2)]]
  | .frnd d a w u x => [word 0x7B000000 [(d.toNat, 18), (a.toNat, 12), (w.toNat, 4), (b2n u, 3), (b2n x, 2)]]
  | .fscale d a b w u x y => [word 0x7C000000 [(d.toNat, 18), (a.toNat, 12), (b.toNat, 6), (w.toNat, 4), (b2n u, 3), (b2n x, 2), (b2n y, 1)]]
  | .fcpys d a b w u x y => [word 0x7D000000 [(d.toNat, 18), (a.toNat, 12), (b.toNat, 6), (w.toNat, 4), (b2n u, 3), (b2n x, 2), (b2n y, 1)]]
  | .fsat d a w u x => [word 0x7E000000 [(d.toNat, 18), (a.toNat, 12), (w.toNat, 4), (b2n u, 3), (b2n x, 2)]]
  | .flagrd d b w => [word 0x7F000008 [(d.toNat, 18), (b.toNat, 6), (w.toNat, 4)]]
  | .fadde d a b w u x y => [word 0x80000000 [(d.toNat, 18), (a.toNat, 12), (b.toNat, 6), (w.toNat, 4), (b2n u, 3), (b2n x, 2), (b2n y, 1)]]
  | .fsube d a b w u x y => [word 0x81000000 [(d.toNat, 18), (a.toNat, 12), (b.toNat, 6), (w.toNat, 4), (b2n u, 3), (b2n x, 2), (b2n y, 1)]]
  | .fmule d a b w u x y => [word 0x82000000 [(d.toNat, 18), (a.toNat, 12), (b.toNat, 6), (w.toNat, 4), (b2n u, 3), (b2n x, 2), (b2n y, 1)]]
  | .facc d a w u x z => [word 0x83000000 [(d.toNat, 18), (a.toNat, 12), (w.toNat, 4), (b2n u, 3), (b2n x, 2), (b2n z, 0)]]
  | .dwadd d a b w u x y => [word 0x84000000 [(d.toNat, 18), (a.toNat, 12), (b.toNat, 6), (w.toNat, 4), (b2n u, 3), (b2n x, 2), (b2n y, 1)]]
  | .dwsub d a b w u x y => [word 0x85000000 [(d.toNat, 18), (a.toNat, 12), (b.toNat, 6), (w.toNat, 4), (b2n u, 3), (b2n x, 2), (b2n y, 1)]]
  | .dwmul d a b w u x y => [word 0x86000000 [(d.toNat, 18), (a.toNat, 12), (b.toNat, 6), (w.toNat, 4), (b2n u, 3), (b2n x, 2), (b2n y, 1)]]
  | .dwaddf d a b w u x y => [word 0x87000000 [(d.toNat, 18), (a.toNat, 12), (b.toNat, 6), (w.toNat, 4), (b2n u, 3), (b2n x, 2), (b2n y, 1)]]
  | .dwmulf d a b w u x y => [word 0x88000000 [(d.toNat, 18), (a.toNat, 12), (b.toNat, 6), (w.toNat, 4), (b2n u, 3), (b2n x, 2), (b2n y, 1)]]
  | .dwdiv d a b w u x y => [word 0x89000000 [(d.toNat, 18), (a.toNat, 12), (b.toNat, 6), (w.toNat, 4), (b2n u, 3), (b2n x, 2), (b2n y, 1)]]
  | .dwsqrt d a w u x => [word 0x8A000000 [(d.toNat, 18), (a.toNat, 12), (w.toNat, 4), (b2n u, 3), (b2n x, 2)]]
  | .dwnorm d a w u x => [word 0x8B000000 [(d.toNat, 18), (a.toNat, 12), (w.toNat, 4), (b2n u, 3), (b2n x, 2)]]
  | .dwtof d a w u x => [word 0x8C000000 [(d.toNat, 18), (a.toNat, 12), (w.toNat, 4), (b2n u, 3), (b2n x, 2)]]
  | .dwclt d a b w u x y => [word 0x8D000000 [(d.toNat, 18), (a.toNat, 12), (b.toNat, 6), (w.toNat, 4), (b2n u, 3), (b2n x, 2), (b2n y, 1)]]
  | .dwceq d a b w u x y => [word 0x8E000000 [(d.toNat, 18), (a.toNat, 12), (b.toNat, 6), (w.toNat, 4), (b2n u, 3), (b2n x, 2), (b2n y, 1)]]
  | .cvtff d a t u s => [word 0x90000000 [(d.toNat, 18), (a.toNat, 12), (t.toNat, 6), (b2n u, 5), (s.toNat, 0)]]
  | .cvtfi d a t u s => [word 0x91000000 [(d.toNat, 18), (a.toNat, 12), (t.toNat, 6), (b2n u, 5), (s.toNat, 0)]]
  | .cvtif d a t u s => [word 0x92000000 [(d.toNat, 18), (a.toNat, 12), (t.toNat, 6), (b2n u, 5), (s.toNat, 0)]]
  | .pack d a b u c => [word 0x93000000 [(d.toNat, 18), (a.toNat, 12), (b.toNat, 6), (b2n u, 5), (c.toNat, 0)]]
  | .unpk d a u c => [word 0x94000000 [(d.toNat, 18), (a.toNat, 12), (b2n u, 5), (c.toNat, 0)]]
  | .pack8 d a b u c => [word 0x95000000 [(d.toNat, 18), (a.toNat, 12), (b.toNat, 6), (b2n u, 5), (c.toNat, 0)]]
  | .unpk8 d a u c => [word 0x96000000 [(d.toNat, 18), (a.toNat, 12), (b2n u, 5), (c.toNat, 0)]]
  | .qnt4 d a b u t => [word 0x97000000 [(d.toNat, 18), (a.toNat, 12), (b.toNat, 6), (b2n u, 5), (b2n t, 0)]]
  | .rand d b w u => [word 0x98000000 [(d.toNat, 18), (b.toNat, 6), (w.toNat, 4), (b2n u, 3)]]
  | .randf d w u => [word 0x99000000 [(d.toNat, 18), (w.toNat, 4), (b2n u, 3)]]
  | .catsamp d a b w x => [word 0x9A000000 [(d.toNat, 18), (a.toNat, 12), (b.toNat, 6), (w.toNat, 4), (b2n x, 2)]]
  | .bararv d b w => [word 0x9B000008 [(d.toNat, 18), (b.toNat, 6), (w.toNat, 4)]]
  | .shfl d a b w x y => [word 0xA0000000 [(d.toNat, 18), (a.toNat, 12), (b.toNat, 6), (w.toNat, 4), (b2n x, 2), (b2n y, 1)]]
  | .shflx d a b w x => [word 0xA1000000 [(d.toNat, 18), (a.toNat, 12), (b.toNat, 6), (w.toNat, 4), (b2n x, 2)]]
  | .shflu d a i => [word 0xA2000000 [(d.toNat, 18), (a.toNat, 12), (i.toNat, 0)]]
  | .shfld d a i => [word 0xA3000000 [(d.toNat, 18), (a.toNat, 12), (i.toNat, 0)]]
  | .bcast d a s l => [word 0xA4000000 [(d.toNat, 18), (a.toNat, 12), (b2n s, 6), (l.toNat, 0)]]
  | .voteany d a b w => [word 0xA5000000 [(d.toNat, 18), (a.toNat, 12), (b.toNat, 6), (w.toNat, 4)]]
  | .voteall d a b w => [word 0xA6000000 [(d.toNat, 18), (a.toNat, 12), (b.toNat, 6), (w.toNat, 4)]]
  | .ballot d a b w => [word 0xA7000000 [(d.toNat, 18), (a.toNat, 12), (b.toNat, 6), (w.toNat, 4)]]
  | .scanadd d a b w x => [word 0xA8000000 [(d.toNat, 18), (a.toNat, 12), (b.toNat, 6), (w.toNat, 4), (b2n x, 2)]]
  | .scanfadd d a b w x => [word 0xA9000000 [(d.toNat, 18), (a.toNat, 12), (b.toNat, 6), (w.toNat, 4), (b2n x, 2)]]
  | .redadd d a w x => [word 0xAA000000 [(d.toNat, 18), (a.toNat, 12), (w.toNat, 4), (b2n x, 2)]]
  | .redfadd d a w x => [word 0xAB000000 [(d.toNat, 18), (a.toNat, 12), (w.toNat, 4), (b2n x, 2)]]
  | .redmin d a b w x => [word 0xAC000000 [(d.toNat, 18), (a.toNat, 12), (b.toNat, 6), (w.toNat, 4), (b2n x, 2)]]
  | .redmax d a b w x => [word 0xAD000000 [(d.toNat, 18), (a.toNat, 12), (b.toNat, 6), (w.toNat, 4), (b2n x, 2)]]
  | .redsumc d a w x => [word 0xAE000000 [(d.toNat, 18), (a.toNat, 12), (w.toNat, 4), (b2n x, 2)]]
  | .reddotc d a b w x y => [word 0xAF000000 [(d.toNat, 18), (a.toNat, 12), (b.toNat, 6), (w.toNat, 4), (b2n x, 2), (b2n y, 1)]]
  | .ldb d a u s r => [word 0xB0000000 [(d.toNat, 18), (a.toNat, 12), (b2n u, 11), (s.toNat, 3), (r.toNat, 0)]]
  | .ldbs d a u s r => [word 0xB1000000 [(d.toNat, 18), (a.toNat, 12), (b2n u, 11), (s.toNat, 3), (r.toNat, 0)]]
  | .ldh d a u s r => [word 0xB2000000 [(d.toNat, 18), (a.toNat, 12), (b2n u, 11), (s.toNat, 3), (r.toNat, 0)]]
  | .ldhs d a u s r => [word 0xB3000000 [(d.toNat, 18), (a.toNat, 12), (b2n u, 11), (s.toNat, 3), (r.toNat, 0)]]
  | .ldw d a u s r => [word 0xB4000000 [(d.toNat, 18), (a.toNat, 12), (b2n u, 11), (s.toNat, 3), (r.toNat, 0)]]
  | .ldd d a u s r => [word 0xB5000000 [(d.toNat, 18), (a.toNat, 12), (b2n u, 11), (s.toNat, 3), (r.toNat, 0)]]
  | .ldq d a u s r => [word 0xB6000000 [(d.toNat, 18), (a.toNat, 12), (b2n u, 11), (s.toNat, 3), (r.toNat, 0)]]
  | .ldln d a s r => [word 0xB7000000 [(d.toNat, 18), (a.toNat, 12), (s.toNat, 3), (r.toNat, 0)]]
  | .stb d a u s r => [word 0xB8000000 [(d.toNat, 18), (a.toNat, 12), (b2n u, 11), (s.toNat, 3), (r.toNat, 0)]]
  | .sth d a u s r => [word 0xB9000000 [(d.toNat, 18), (a.toNat, 12), (b2n u, 11), (s.toNat, 3), (r.toNat, 0)]]
  | .stw d a u s r => [word 0xBA000000 [(d.toNat, 18), (a.toNat, 12), (b2n u, 11), (s.toNat, 3), (r.toNat, 0)]]
  | .std d a u s r => [word 0xBB000000 [(d.toNat, 18), (a.toNat, 12), (b2n u, 11), (s.toNat, 3), (r.toNat, 0)]]
  | .stq d a u s r => [word 0xBC000000 [(d.toNat, 18), (a.toNat, 12), (b2n u, 11), (s.toNat, 3), (r.toNat, 0)]]
  | .pref a u s r => [word 0xBD000000 [(a.toNat, 12), (b2n u, 11), (s.toNat, 3), (r.toNat, 0)]]
  | .fence r => [word 0xBE000000 [(r.toNat, 0)]]
  | .cflush a b l s => [word 0xBF000000 [(a.toNat, 12), (b.toNat, 6), (b2n l, 3), (s.toNat, 0)]]
  | .cinv a b l s => [word 0xC0000000 [(a.toNat, 12), (b.toNat, 6), (b2n l, 3), (s.toNat, 0)]]
  | .atadd d a b u v z r => [word 0xC1000000 [(d.toNat, 18), (a.toNat, 12), (b.toNat, 6), (b2n u, 5), (b2n v, 4), (b2n z, 3), (r.toNat, 0)]]
  | .atmin d a b u v z r => [word 0xC2000000 [(d.toNat, 18), (a.toNat, 12), (b.toNat, 6), (b2n u, 5), (b2n v, 4), (b2n z, 3), (r.toNat, 0)]]
  | .atmax d a b u v z r => [word 0xC3000000 [(d.toNat, 18), (a.toNat, 12), (b.toNat, 6), (b2n u, 5), (b2n v, 4), (b2n z, 3), (r.toNat, 0)]]
  | .atand d a b u v z r => [word 0xC4000000 [(d.toNat, 18), (a.toNat, 12), (b.toNat, 6), (b2n u, 5), (b2n v, 4), (b2n z, 3), (r.toNat, 0)]]
  | .ator d a b u v z r => [word 0xC5000000 [(d.toNat, 18), (a.toNat, 12), (b.toNat, 6), (b2n u, 5), (b2n v, 4), (b2n z, 3), (r.toNat, 0)]]
  | .atxor d a b u v z r => [word 0xC6000000 [(d.toNat, 18), (a.toNat, 12), (b.toNat, 6), (b2n u, 5), (b2n v, 4), (b2n z, 3), (r.toNat, 0)]]
  | .atxchg d a b u v z r => [word 0xC7000000 [(d.toNat, 18), (a.toNat, 12), (b.toNat, 6), (b2n u, 5), (b2n v, 4), (b2n z, 3), (r.toNat, 0)]]
  | .atcas d a b u v z r => [word 0xC8000000 [(d.toNat, 18), (a.toNat, 12), (b.toNat, 6), (b2n u, 5), (b2n v, 4), (b2n z, 3), (r.toNat, 0)]]
  | .atfadd d a b u v z r => [word 0xC9000000 [(d.toNat, 18), (a.toNat, 12), (b.toNat, 6), (b2n u, 5), (b2n v, 4), (b2n z, 3), (r.toNat, 0)]]
  | .atpadd d a b u v z r => [word 0xCA000000 [(d.toNat, 18), (a.toNat, 12), (b.toNat, 6), (b2n u, 5), (b2n v, 4), (b2n z, 3), (r.toNat, 0)]]
  | .atinc d a b u v z r => [word 0xCB000000 [(d.toNat, 18), (a.toNat, 12), (b.toNat, 6), (b2n u, 5), (b2n v, 4), (b2n z, 3), (r.toNat, 0)]]
  | .bkadd a b t => [word 0xCC000000 [(a.toNat, 12), (b.toNat, 6), (t.toNat, 0)]]
  | .bkred a b t => [word 0xCD000000 [(a.toNat, 12), (b.toNat, 6), (t.toNat, 0)]]
  | .bkset d a b => [word 0xCE000000 [(d.toNat, 18), (a.toNat, 12), (b.toNat, 6)]]
  | .bkscal d a b => [word 0xCF000000 [(d.toNat, 18), (a.toNat, 12), (b.toNat, 6)]]
  | .cpya d a b e k => [word 0xD0000000 [(d.toNat, 18), (a.toNat, 12), (b.toNat, 6), (b2n e, 4), (k.toNat, 0)]]
  | .cpyg d a b l => [word 0xD1000000 [(d.toNat, 18), (a.toNat, 12), (b.toNat, 6), (l.toNat, 0)]]
  | .batch d w => [word 0xD2000008 [(d.toNat, 18), (w.toNat, 4)]]
  | .waitbat a i => [word 0xD3000800 [(a.toNat, 12), (i.toNat, 0)]]
  | .waitbatAll => [word 0xD3040800 []]
  | .febset a w => [word 0xD4000008 [(a.toNat, 12), (w.toNat, 4)]]
  | .febsetPut a w => [word 0xD4000048 [(a.toNat, 12), (w.toNat, 4)]]
  | .febclr a w => [word 0xD5000008 [(a.toNat, 12), (w.toNat, 4)]]
  | .febwait a b w => [word 0xD6000008 [(a.toNat, 12), (b.toNat, 6), (w.toNat, 4)]]
  | .febwe a w => [word 0xD7000008 [(a.toNat, 12), (w.toNat, 4)]]
  | .gang a w => [word 0xD8000008 [(a.toNat, 12), (w.toNat, 4)]]
  | .mma a b e => [word 0xD9000000 [(a.toNat, 12), (b.toNat, 6), (b2n e, 5)]]
  | .mmasp a b e => [word 0xDA000000 [(a.toNat, 12), (b.toNat, 6), (b2n e, 5)]]
  | .mmaz a b e => [word 0xDB000000 [(a.toNat, 12), (b.toNat, 6), (b2n e, 5)]]
  | .drain a => [word 0xDC000000 [(a.toNat, 12)]]
  | .drainReg d a => [word 0xDC000020 [(d.toNat, 18), (a.toNat, 12)]]
  | .mmwait w => [word 0xDD000008 [(w.toNat, 4)]]
  | .tld d a b q i c => [word 0xDE000000 [(d.toNat, 18), (a.toNat, 12), (b.toNat, 6), (q.toNat, 2), (b2n i, 1), (b2n c, 0)]]
  | .tst d a b q i c => [word 0xDF000000 [(d.toNat, 18), (a.toNat, 12), (b.toNat, 6), (q.toNat, 2), (b2n i, 1), (b2n c, 0)]]
  | .torg d a b => [word 0xE0000000 [(d.toNat, 18), (a.toNat, 12), (b.toNat, 6)]]
  | .tzero d w => [word 0xE1000008 [(d.toNat, 18), (w.toNat, 4)]]
  | .tzeroAll w => [word 0xE1000048 [(w.toNat, 4)]]
  | .bmcast d a b => [word 0xE2000000 [(d.toNat, 18), (a.toNat, 12), (b.toNat, 6)]]
  | .engq d a e => [word 0xE3000000 [(d.toNat, 18), (a.toNat, 12), (e.toNat, 0)]]
  | .fwait d a w => [word 0xE4000008 [(d.toNat, 18), (a.toNat, 12), (w.toNat, 4)]]
  | .ftest d a w => [word 0xE5000008 [(d.toNat, 18), (a.toNat, 12), (w.toNat, 4)]]
  | .fcancel a w => [word 0xE6000008 [(a.toNat, 12), (w.toNat, 4)]]
  | .fres d a w => [word 0xE7000008 [(d.toNat, 18), (a.toNat, 12), (w.toNat, 4)]]
  | .spawn d a w => [word 0xE8000008 [(d.toNat, 18), (a.toNat, 12), (w.toNat, 4)]]
  | .cwait w => [word 0xE9000008 [(w.toNat, 4)]]
  | .cwaitTask a w => [word 0xE9000048 [(a.toNat, 12), (w.toNat, 4)]]
  | .cancel a w => [word 0xEA000008 [(a.toNat, 12), (w.toNat, 4)]]
  | .qalloc d u i => [word 0xEB000000 [(d.toNat, 18), (b2n u, 11), (i.toNat, 0)]]
  | .qfree a u i => [word 0xEC000000 [(a.toNat, 12), (b2n u, 11), (i.toNat, 0)]]
  | .qfreel d a i => [word 0xED000800 [(d.toNat, 18), (a.toNat, 12), (i.toNat, 0)]]
  | .mfill d a b => [word 0xEE000000 [(d.toNat, 18), (a.toNat, 12), (b.toNat, 6)]]
  | .mflush a => [word 0xEF000800 [(a.toNat, 12)]]
  | .dlarm a b w => [word 0xF0000008 [(a.toNat, 12), (b.toNat, 6), (w.toNat, 4)]]
  | .dlrd d w => [word 0xF1000008 [(d.toNat, 18), (w.toNat, 4)]]
  | .ttboard d i => [word 0xF2000800 [(d.toNat, 18), (i.toNat, 0)]]
  | .ttalight a => [word 0xF3000800 [(a.toNat, 12)]]
  | .ttread d a h q => [word 0xF4000800 [(d.toNat, 18), (a.toNat, 12), (b2n h, 1), (b2n q, 0)]]
  | .ttcas d a b r q w => [word 0xF5000000 [(d.toNat, 18), (a.toNat, 12), (b.toNat, 6), (b2n r, 4), (b2n q, 3), (w.toNat, 0)]]
  | .ttmax a b r q => [word 0xF6000000 [(a.toNat, 12), (b.toNat, 6), (b2n r, 4), (b2n q, 3)]]
  | .ttadd d a b c r q w => [word 0xF7000000 [(d.toNat, 18), (a.toNat, 12), (b.toNat, 6), (b2n c, 5), (b2n r, 4), (b2n q, 3), (w.toNat, 0)]]
  | .ttwait a => [word 0xF8000800 [(a.toNat, 12)]]
  | .vpush d a n => [word 0xF9000000 [(d.toNat, 18), (a.toNat, 12), (b2n n, 0)]]
  | .vpop d b n => [word 0xFA000000 [(d.toNat, 18), (b.toNat, 6), (b2n n, 0)]]
  | .vcount d b w => [word 0xFB000008 [(d.toNat, 18), (b.toNat, 6), (w.toNat, 4)]]
  | .mbpost a b n => [word 0xFC000000 [(a.toNat, 12), (b.toNat, 6), (b2n n, 0)]]
  | .mbtake d b n => [word 0xFD000000 [(d.toNat, 18), (b.toNat, 6), (b2n n, 0)]]
  | .bar c => [word 0xFE000000 [(b2n c, 0)]]
  | .barWait a c => [word 0xFE000002 [(a.toNat, 12), (b2n c, 0)]]
  | .mark g i => [word 0xFF000000 [(b2n g, 10), (i.toNat, 0)]]
  | .launchDoorbell _ _ _ => []
  | .launchEntryRead _ _ => []
  | .dispatch => []
  | .taskAgeing _ _ => []
  | .timeSliceEnd _ => []
  | .drainOverrun _ => []
  | .teamSave _ => []
  | .teamRestore _ => []
  | .dependenceUnitEnter _ => []
  | .taskComplete _ _ => []
  | .versionEarlyCommit _ _ => []
  | .mouldConsumerLaunch _ _ => []
  | .poolEnable _ _ => []
  | .poolDisable _ _ => []
  | .mouldEnable _ _ => []
  | .mouldDisable _ _ => []
  | .deadlineExpiry _ => []
  | .atctlFire _ => []
  | .dltrigRise => []
  | .unveilCancel _ => []
  | .unveilCapture _ => []
  | .faultQueueRecord _ => []
  | .faultReplay _ _ => []
  | .faultDeliver _ _ => []
  | .faultKill _ _ => []
  | .tlbInvalidateAddress _ => []
  | .tlbInvalidateAll _ => []
  | .scanCommit _ => []
  | .scanDiscard _ => []
  | .channelReset _ _ => []
  | .gateRequest _ _ => []
  | .gatePreemptRequest _ _ => []
  | .gateLift _ _ => []
  | .gateClose _ => []
  | .gateOpen _ => []
  | .coreDisable _ => []
  | .scanRotation => []
  | .scanComplete _ => []
  | .patrolRowRead _ => []
  | .auditSample => []
  | .probeSend _ => []
  | .probeReceive => []
  | .reportWrite _ => []
  | .governorInterval _ => []
  | .samplerEnable _ _ _ => []
  | .sample _ => []
  | .traceFilter _ => []
  | .haltRecordWrite _ => []
  | .filterLoad _ _ _ => []
  | .caliperStart _ => []
  | .caliperStop _ => []
  | .caliperEnd _ => []
  | .holdPath _ _ _ => []
  | .releasePath _ _ _ => []
  | .holdGroup _ _ _ => []
  | .releaseGroup _ _ _ => []
  | .debugStep _ _ _ => []
  | .holdTakesEffect _ _ => []
  | .freeze _ _ => []
  | .debugPortRead _ _ => []
  | .writeBufferDrain _ _ => []
  | .copyComplete _ => []
  | .matrixOperation _ => []
  | .turntablePerform _ => []
  | .revolution _ => []
  | .fifoEntryLand _ => []
  | .permitReturn _ => []
  | .flitArrival _ => []
  | .reassemblyGrant _ => []
  | .mailboxGrant _ => []
  | .chainJob _ _ => []
  | .chainLoop _ _ => []
  | .chainCond _ _ => []
  | .chainLink _ _ => []
  | .chainEnd _ _ => []
  | .engineJobComplete _ => []
  | .voxel _ => []
  | .rulebook _ => []
  | .coord _ => []
  | .convertCompress _ => []
  | .convertExpand _ => []
  | .collidePoint _ => []
  | .collideSegment _ => []
  | .collideSphere _ => []
  | .collideSweep _ => []
  | .dynStep _ => []
  | .partCreate _ => []
  | .partDestroy _ => []
  | .partStart _ => []
  | .partStop _ => []
  | .lockedRegisterWrite _ _ _ => []
  | .hostRegisterWrite _ _ => []
  | .getVersion _ => []
  | .getCapabilities _ => []
  | .negotiateAlgorithms _ _ => []
  | .getDigests _ => []
  | .getCertificate _ _ => []
  | .spdmChallenge _ _ => []
  | .getMeasurements _ _ => []
  | .keyExchange _ => []
  | .spdmFinish _ _ => []
  | .spdmHeartbeat _ => []
  | .keyUpdate _ _ => []
  | .endSession _ => []
  | .getTdispVersion _ _ => []
  | .getTdispCapabilities _ _ => []
  | .lockInterfaceRequest _ _ => []
  | .getDeviceInterfaceReport _ _ => []
  | .getDeviceInterfaceState _ _ => []
  | .startInterfaceRequest _ _ => []
  | .stopInterfaceRequest _ _ => []
  | .keyProg _ _ => []
  | .kSetGo _ _ => []
  | .kSetStop _ _ => []
  | .ideStreamInsecure _ => []
  | .boardRelayObject _ _ => []
  | .keyEstablish _ => []
  | .keyClear _ => []
  | .boardResponse _ _ _ => []
  | .powerOnReset _ => []
  | .bootImageWrite _ _ _ _ _ => []
  | .linkTraining _ => []
  | .perstAssert => []
  | .hotReset => []
  | .linkDown => []
  | .illegalInstruction word => [word]
  | .illFormedWord word => [word]
  | .fetchFault => []
  | .softError _ _ _ _ => []
  | .hostAccess _ _ _ => []
  | .eviction _ => []
  | .doeDiscovery _ => []
  | .pointMoveComplete => []

/-- Operand values are those the word may hold (R17, R18, R28, R38); causes that depend on the state are with each meaning. -/
def legal : Instr → Bool
  | .nop _ => true
  | .jmp _ => true
  | .bra n p _ => testOk n p
  | .brany n p _ => testOk n p
  | .brall n p _ => testOk n p
  | .brc _ _ => true
  | .jpt _ => true
  | .call n p _ => testOk n p
  | .calli a _ => even a
  | .ret _ => true
  | .loop d _ i => small d 3 && small i 1024
  | .loopk c _ _ => small c 3
  | .leave c => small c 3
  | .exit _ => true
  | .yield _ => true
  | .bkpt i => small i 1024
  | .trap i => small i 1024
  | .trapret _ => true
  | .xrepl _ _ (u, x) => kx u x
  | .mode _ _ => true
  | .modef d i => modefOk d i
  | .moderd _ _ => true
  | .exmsv d _ => even d
  | .exmld a _ => even a
  | .exmcmb a f => even a && small f 4
  | .exmp a b _ => small a 12 && small b 2
  | .idrd d u i => rd u d && small i 15 && !(u && i.toNat == 0)
  | .sysrd _ _ => true
  | .syswr _ _ => true
  | .reln a b _ => vr a && vr b && decide (a.toNat ≤ b.toNat)
  | .idemb _ => true
  | .ideme _ => true
  | .iadd d a _ _ u x y => rd u d && rs u a && kx u x && kx u y
  | .isub d a _ _ u x y => rd u d && rs u a && kx u x && kx u y
  | .imul d a _ _ u x y => rd u d && rs u a && kx u x && kx u y
  | .imulh d a _ _ u x y => rd u d && rs u a && kx u x && kx u y
  | .imulhu d a _ _ u x y => rd u d && rs u a && kx u x && kx u y
  | .imad d a _ _ u x y z => rd u d && rs u a && kx u x && kx u y && kx u z
  | .idiv d a _ _ u x y => rd u d && rs u a && kx u x && kx u y
  | .idivu d a _ _ u x y => rd u d && rs u a && kx u x && kx u y
  | .irem d a _ _ u x y => rd u d && rs u a && kx u x && kx u y
  | .iremu d a _ _ u x y => rd u d && rs u a && kx u x && kx u y
  | .imin d a _ _ u x y => rd u d && rs u a && kx u x && kx u y
  | .imax d a _ _ u x y => rd u d && rs u a && kx u x && kx u y
  | .iminu d a _ _ u x y => rd u d && rs u a && kx u x && kx u y
  | .imaxu d a _ _ u x y => rd u d && rs u a && kx u x && kx u y
  | .iabs d a _ u x => rd u d && rs u a && kx u x
  | .ineg d a _ u x => rd u d && rs u a && kx u x
  | .and d a _ _ u x y => rd u d && rs u a && kx u x && kx u y
  | .or d a _ _ u x y => rd u d && rs u a && kx u x && kx u y
  | .xor d a _ _ u x y => rd u d && rs u a && kx u x && kx u y
  | .andn d a _ _ u x y => rd u d && rs u a && kx u x && kx u y
  | .shl d a _ _ u x y => rd u d && rs u a && kx u x && kx u y
  | .shr d a _ _ u x y => rd u d && rs u a && kx u x && kx u y
  | .shra d a _ _ u x y => rd u d && rs u a && kx u x && kx u y
  | .rotl d a _ _ u x y => rd u d && rs u a && kx u x && kx u y
  | .popc d a _ u x => rd u d && rs u a && kx u x
  | .clz d a _ u x => rd u d && rs u a && kx u x
  | .brev d a _ u x => rd u d && rs u a && kx u x
  | .bfx d a _ u _ => rd u d && rs u a
  | .bfi d a _ u => rd u d && rs u a
  | .bperm d a _ _ u x y => rd u d && rs u a && kx u x && kx u y
  | .fshf d a _ _ u x y z => rd u d && rs u a && kx u x && kx u y && kx u z
  | .sel d a _ _ p => vr d && vr a && small p 12
  | .mov d _ _ u y => rd u d && kx u y
  | .movi d u _ => rd u d
  | .ldcw d u _ => rd u d
  | .movs d _ _ => vr d
  | .addi d a u _ => rd u d && rs u a
  | .muli d a u _ => rd u d && rs u a
  | .andi d a u _ => rd u d && rs u a
  | .ori d a u _ => rd u d && rs u a
  | .xori d a u _ => rd u d && rs u a
  | .shli d a u i => rd u d && rs u a && small i 32
  | .shri d a u i => rd u d && rs u a && small i 32
  | .shrai d a u i => rd u d && rs u a && small i 32
  | .aadd d a _ _ u x y => pr u d && pr u a && kx u x && kx u y
  | .alea d a _ u _ _ => pr u d && pr u a
  | .aaddi d a u _ => pr u d && pr u a
  | .asub d a b _ u x y => pr u d && pr u a && pr u b && kx u x && kx u y
  | .iceq d a _ _ u x y => cd u d && rs u a && kx u x && kx u y
  | .icne d a _ _ u x y => cd u d && rs u a && kx u x && kx u y
  | .iclt d a _ _ u x y => cd u d && rs u a && kx u x && kx u y
  | .icle d a _ _ u x y => cd u d && rs u a && kx u x && kx u y
  | .icltu d a _ _ u x y => cd u d && rs u a && kx u x && kx u y
  | .icleu d a _ _ u x y => cd u d && rs u a && kx u x && kx u y
  | .iceqi d a u _ => cd u d && rs u a
  | .iclti d a u _ => cd u d && rs u a
  | .pand d a b _ u => pd u d && pd u a && pd u b
  | .por d a b _ u => pd u d && pd u a && pd u b
  | .pxor d a b _ u => pd u d && pd u a && pd u b
  | .pandn d a b _ u => pd u d && pd u a && pd u b
  | .ptos d a _ => even d && small a 12
  | .pfroms d a _ => small d 12 && even a
  | .cmrd d _ => even d
  | .cmwr a _ => even a
  | .fadd d a _ _ u x y => rd u d && rs u a && kx u x && kx u y
  | .fsub d a _ _ u x y => rd u d && rs u a && kx u x && kx u y
  | .fmul d a _ _ u x y => rd u d && rs u a && kx u x && kx u y
  | .ffma d a _ _ u x y z => rd u d && rs u a && kx u x && kx u y && kx u z
  | .ffms d a _ _ u x y z => rd u d && rs u a && kx u x && kx u y && kx u z
  | .fnma d a _ _ u x y z => rd u d && rs u a && kx u x && kx u y && kx u z
  | .fmin d a _ _ u x y => rd u d && rs u a && kx u x && kx u y
  | .fmax d a _ _ u x y => rd u d && rs u a && kx u x && kx u y
  | .fabs d a _ u x => rd u d && rs u a && kx u x
  | .fneg d a _ u x => rd u d && rs u a && kx u x
  | .fceq d a _ _ u x y => cd u d && rs u a && kx u x && kx u y
  | .fcne d a _ _ u x y => cd u d && rs u a && kx u x && kx u y
  | .fclt d a _ _ u x y => cd u d && rs u a && kx u x && kx u y
  | .fcle d a _ _ u x y => cd u d && rs u a && kx u x && kx u y
  | .fcun d a _ _ u x y => cd u d && rs u a && kx u x && kx u y
  | .fclass d a _ u x => rd u d && rs u a && kx u x
  | .frcp d a _ u x => rd u d && rs u a && kx u x
  | .frsq d a _ u x => rd u d && rs u a && kx u x
  | .fsqrt d a _ u x => rd u d && rs u a && kx u x
  | .fdiv d a _ _ u x y => rd u d && rs u a && kx u x && kx u y
  | .fexp2 d a _ u x => rd u d && rs u a && kx u x
  | .flog2 d a _ u x => rd u d && rs u a && kx u x
  | .fsin d a _ u x => rd u d && rs u a && kx u x
  | .fcos d a _ u x => rd u d && rs u a && kx u x
  | .ftanh d a _ u x => rd u d && rs u a && kx u x
  | .fsig d a _ u x => rd u d && rs u a && kx u x
  | .ffrac d a _ u x => rd u d && rs u a && kx u x
  | .frnd d a _ u x => rd u d && rs u a && kx u x
  | .fscale d a _ _ u x y => rd u d && rs u a && kx u x && kx u y
  | .fcpys d a _ _ u x y => rd u d && rs u a && kx u x && kx u y
  | .fsat d a _ u x => rd u d && rs u a && kx u x
  | .flagrd _ b _ => small b 2
  | .fadde d a _ _ u x y => pr u d && rs u a && kx u x && kx u y
  | .fsube d a _ _ u x y => pr u d && rs u a && kx u x && kx u y
  | .fmule d a _ _ u x y => pr u d && rs u a && kx u x && kx u y
  | .facc d a _ u x z => pr u d && rs u a && kx u x && kx u z
  | .dwadd d a b _ u x y => pr u d && pr u a && pr u b && kx u x && kx u y
  | .dwsub d a b _ u x y => pr u d && pr u a && pr u b && kx u x && kx u y
  | .dwmul d a b _ u x y => pr u d && pr u a && pr u b && kx u x && kx u y
  | .dwaddf d a _ _ u x y => pr u d && pr u a && kx u x && kx u y
  | .dwmulf d a _ _ u x y => pr u d && pr u a && kx u x && kx u y
  | .dwdiv d a b _ u x y => pr u d && pr u a && pr u b && kx u x && kx u y
  | .dwsqrt d a _ u x => pr u d && pr u a && kx u x
  | .dwnorm d a _ u x => pr u d && pr u a && kx u x
  | .dwtof d a _ u x => rd u d && pr u a && kx u x
  | .dwclt d a b _ u x y => cd u d && pr u a && pr u b && kx u x && kx u y
  | .dwceq d a b _ u x y => cd u d && pr u a && pr u b && kx u x && kx u y
  | .cvtff d a t u s => rd u d && rs u a && small t 7 && small s 7
  | .cvtfi d a t u s => rd u d && rs u a && small t 7 && small s 7
  | .cvtif d a t u s => rd u d && rs u a && small t 7 && small s 7
  | .pack d a _ u c => rd u d && rs u a && packCode c
  | .unpk d a u c => pr u d && rs u a && packCode c
  | .pack8 d a b u c => rd u d && pr u a && pr u b && pack8Code c
  | .unpk8 d a u c => mult 4 u d && rs u a && pack8Code c
  | .qnt4 d a _ u _ => rd u d && mult 8 u a
  | .rand d b _ u => small b 2 && (if b.toNat == 1 then pr u d else rd u d)
  | .randf d _ u => rd u d
  | .catsamp _ a _ _ _ => vr a
  | .bararv _ b _ => small b 2
  | .shfl d a b _ _ _ => vr d && vr a && vr b
  | .shflx d a _ _ _ => vr d && vr a
  | .shflu d a i => vr d && vr a && small i 64
  | .shfld d a i => vr d && vr a && small i 64
  | .bcast d a s _ => rd s d && vr a
  | .voteany d a b _ => small d 6 && small a 12 && small b 2
  | .voteall d a b _ => small d 6 && small a 12 && small b 2
  | .ballot d a b _ => vpair d && small a 12 && small b 2
  | .scanadd d a b _ _ => vr d && vr a && small b 2
  | .scanfadd d a b _ _ => vr d && vr a && small b 2
  | .redadd _ a _ _ => vr a
  | .redfadd _ a _ _ => vr a
  | .redmin _ a b _ _ => vr a && small b 3
  | .redmax _ a b _ _ => vr a && small b 3
  | .redsumc d a _ _ => even d && vr a
  | .reddotc d a b _ _ _ => even d && vr a && vr b
  | .ldb d a u _ r => rd u d && base u a && small r 3
  | .ldbs d a u _ r => rd u d && base u a && small r 3
  | .ldh d a u _ r => rd u d && base u a && small r 3
  | .ldhs d a u _ r => rd u d && base u a && small r 3
  | .ldw d a u _ r => rd u d && base u a && small r 3
  | .ldd d a u _ r => pr u d && base u a && small r 3
  | .ldq d a u _ r => mult 4 u d && base u a && small r 3
  | .ldln d a _ r => vr d && odd a && small r 3
  | .stb d a u _ r => rd u d && base u a && storeOrd r
  | .sth d a u _ r => rd u d && base u a && storeOrd r
  | .stw d a u _ r => rd u d && base u a && storeOrd r
  | .std d a u _ r => pr u d && base u a && storeOrd r
  | .stq d a u _ r => mult 4 u d && base u a && storeOrd r
  | .pref a u _ r => base u a && small r 2
  | .fence r => fenceOrd r
  | .cflush a b l s => flushOk a b l s
  | .cinv a b l s => flushOk a b l s
  | .atadd d a b u v z r => base u a && small r 5 && atReg u z b && atDest u z v d
  | .atmin d a b u v z r => base u a && small r 5 && atReg u z b && atDest u z v d
  | .atmax d a b u v z r => base u a && small r 5 && atReg u z b && atDest u z v d
  | .atand d a b u v z r => base u a && small r 5 && atReg u z b && atDest u z v d
  | .ator d a b u v z r => base u a && small r 5 && atReg u z b && atDest u z v d
  | .atxor d a b u v z r => base u a && small r 5 && atReg u z b && atDest u z v d
  | .atxchg d a b u v z r => base u a && small r 5 && atReg u z b && atDest u z v d
  | .atcas d a b u v z r => base u a && small r 5 && v && atReg u z b && atReg u z d
  | .atfadd d a b u v z r => base u a && small r 5 && !z && atReg u z b && atDest u z v d
  | .atpadd d a b u v z r => base u a && small r 5 && z && rsn u b && atDest u z v d
  | .atinc d a b u v z r => base u a && small r 5 && atReg u z b && atDest u z v d
  | .bkadd a b t => even a && vr b && small t 5
  | .bkred a b t => even a && vr b && small t 7
  | .bkset _ a _ => even a
  | .bkscal _ a _ => even a
  | .cpya d a _ e k => even d && even a && (e || k.toNat == 0)
  | .cpyg d a b l => even d && even a && even b && (decide (2 ≤ l.toNat) && decide (l.toNat ≤ 12))
  | .batch _ _ => true
  | .waitbat _ _ => true
  | .waitbatAll => true
  | .febset _ _ => true
  | .febsetPut _ _ => true
  | .febclr _ _ => true
  | .febwait _ b _ => small b 2
  | .febwe _ _ => true
  | .gang _ _ => true
  | .mma a b _ => even a && vr b
  | .mmasp a b _ => even a && vr b
  | .mmaz a b _ => even a && vr b
  | .drain a => even a
  | .drainReg d a => vr d && even a
  | .mmwait _ => true
  | .tld d a _ _ _ _ => small d 8 && vr a
  | .tst d a _ _ _ _ => vr d && small a 8
  | .torg d _ _ => small d 8
  | .tzero d _ => small d 8
  | .tzeroAll _ => true
  | .bmcast _ a b => even a && even b
  | .engq _ a e => even a && small e 7
  | .fwait _ _ _ => true
  | .ftest _ _ _ => true
  | .fcancel _ _ => true
  | .fres d _ _ => even d
  | .spawn _ a _ => even a
  | .cwait _ => true
  | .cwaitTask _ _ => true
  | .cancel _ _ => true
  | .qalloc d u i => pr u d && small i 16
  | .qfree a u i => pr u a && small i 16
  | .qfreel _ a i => even a && small i 16
  | .mfill _ a b => vpair a && vr b
  | .mflush _ => true
  | .dlarm _ _ _ => true
  | .dlrd d _ => even d
  | .ttboard _ i => small i 2
  | .ttalight _ => true
  | .ttread d _ _ _ => block d
  | .ttcas d _ b _ _ _ => even d && even b
  | .ttmax _ b _ _ => block b
  | .ttadd d _ b c _ _ _ => even d && (c || even b)
  | .ttwait _ => true
  | .vpush _ a _ => vr a
  | .vpop d _ _ => vr d
  | .vcount _ b _ => small b 2
  | .mbpost a _ _ => block a
  | .mbtake d _ _ => block d
  | .bar _ => true
  | .barWait _ _ => true
  | .mark _ _ => true
  | .launchDoorbell _ _ _ => true
  | .launchEntryRead _ _ => true
  | .dispatch => true
  | .taskAgeing _ _ => true
  | .timeSliceEnd _ => true
  | .drainOverrun _ => true
  | .teamSave _ => true
  | .teamRestore _ => true
  | .dependenceUnitEnter _ => true
  | .taskComplete _ _ => true
  | .versionEarlyCommit _ _ => true
  | .mouldConsumerLaunch _ _ => true
  | .poolEnable _ _ => true
  | .poolDisable _ _ => true
  | .mouldEnable _ _ => true
  | .mouldDisable _ _ => true
  | .deadlineExpiry _ => true
  | .atctlFire _ => true
  | .dltrigRise => true
  | .unveilCancel _ => true
  | .unveilCapture _ => true
  | .faultQueueRecord _ => true
  | .faultReplay _ _ => true
  | .faultDeliver _ _ => true
  | .faultKill _ _ => true
  | .tlbInvalidateAddress _ => true
  | .tlbInvalidateAll _ => true
  | .scanCommit _ => true
  | .scanDiscard _ => true
  | .channelReset _ _ => true
  | .gateRequest _ _ => true
  | .gatePreemptRequest _ _ => true
  | .gateLift _ _ => true
  | .gateClose _ => true
  | .gateOpen _ => true
  | .coreDisable _ => true
  | .scanRotation => true
  | .scanComplete _ => true
  | .patrolRowRead _ => true
  | .auditSample => true
  | .probeSend _ => true
  | .probeReceive => true
  | .reportWrite _ => true
  | .governorInterval _ => true
  | .samplerEnable _ _ _ => true
  | .sample _ => true
  | .traceFilter _ => true
  | .haltRecordWrite _ => true
  | .filterLoad _ _ _ => true
  | .caliperStart _ => true
  | .caliperStop _ => true
  | .caliperEnd _ => true
  | .holdPath _ _ _ => true
  | .releasePath _ _ _ => true
  | .holdGroup _ _ _ => true
  | .releaseGroup _ _ _ => true
  | .debugStep _ _ _ => true
  | .holdTakesEffect _ _ => true
  | .freeze _ _ => true
  | .debugPortRead _ _ => true
  | .writeBufferDrain _ _ => true
  | .copyComplete _ => true
  | .matrixOperation _ => true
  | .turntablePerform _ => true
  | .revolution _ => true
  | .fifoEntryLand _ => true
  | .permitReturn _ => true
  | .flitArrival _ => true
  | .reassemblyGrant _ => true
  | .mailboxGrant _ => true
  | .chainJob _ _ => true
  | .chainLoop _ _ => true
  | .chainCond _ _ => true
  | .chainLink _ _ => true
  | .chainEnd _ _ => true
  | .engineJobComplete _ => true
  | .voxel _ => true
  | .rulebook _ => true
  | .coord _ => true
  | .convertCompress _ => true
  | .convertExpand _ => true
  | .collidePoint _ => true
  | .collideSegment _ => true
  | .collideSphere _ => true
  | .collideSweep _ => true
  | .dynStep _ => true
  | .partCreate _ => true
  | .partDestroy _ => true
  | .partStart _ => true
  | .partStop _ => true
  | .lockedRegisterWrite _ _ _ => true
  | .hostRegisterWrite _ _ => true
  | .getVersion _ => true
  | .getCapabilities _ => true
  | .negotiateAlgorithms _ _ => true
  | .getDigests _ => true
  | .getCertificate _ _ => true
  | .spdmChallenge _ _ => true
  | .getMeasurements _ _ => true
  | .keyExchange _ => true
  | .spdmFinish _ _ => true
  | .spdmHeartbeat _ => true
  | .keyUpdate _ _ => true
  | .endSession _ => true
  | .getTdispVersion _ _ => true
  | .getTdispCapabilities _ _ => true
  | .lockInterfaceRequest _ _ => true
  | .getDeviceInterfaceReport _ _ => true
  | .getDeviceInterfaceState _ _ => true
  | .startInterfaceRequest _ _ => true
  | .stopInterfaceRequest _ _ => true
  | .keyProg _ _ => true
  | .kSetGo _ _ => true
  | .kSetStop _ _ => true
  | .ideStreamInsecure _ => true
  | .boardRelayObject _ _ => true
  | .keyEstablish _ => true
  | .keyClear _ => true
  | .boardResponse _ _ _ => true
  | .powerOnReset _ => true
  | .bootImageWrite _ _ _ _ _ => true
  | .linkTraining _ => true
  | .perstAssert => true
  | .hotReset => true
  | .linkDown => true
  | .illegalInstruction _ => true
  | .illFormedWord _ => true
  | .fetchFault => true
  | .softError _ _ _ _ => true
  | .hostAccess _ _ _ => true
  | .eviction _ => true
  | .doeDiscovery _ => true
  | .pointMoveComplete => true

end Sys2Proof
end

