-- ==== Sys2Proof/Machine/State.lean ====
section
/-! DEFINITION. The state of the part: the whole of AG-FKB96 as plain data. Each structure names the rules that give its fields;
INVENTORY.md lists every piece with its reset value. -/

namespace Sys2Proof.Machine

/-! ## Groups (R232 to R255, R318, R331) -/

/-- The width W of a group (R234). -/
inductive Width where
  | w16 | w32 | w64
  deriving DecidableEq, Repr, Inhabited

/-- State of a path-table entry (R242). -/
inductive PathState where
  | ready | waiting | held | joined
  deriving DecidableEq, Repr, Inhabited

/-- Kind of the scope that a joined entry owns (R242, R246). -/
inductive ScopeKind where
  | none | plain | call | loop (n : Fin 3)
  deriving DecidableEq, Repr, Inhabited

/-- Stall reasons (R189, R405). -/
inductive Reason where
  | issued | notSelected | operand | memory | rows | barrier | future | fullEmpty | mould | gang | fifo | turntable
  | fetch | stallCount | heldOrParked | noneResident
  deriving DecidableEq, Repr, Inhabited

/-- What a path that waits in a BLOCK instruction waits for (R189). `granted` is the answer of the unit concerned, which the
instruction takes when it completes in its further beat (R238). -/
inductive Wait where
  | barrier (cluster : Bool) (phase : Nat)
  | future (handle : Word)
  | tasks (ids : List Nat)
  | batches (upTo : Nat)
  | batchRoom
  | mouldTile (m : Nat)
  | fifoSpace
  | fifoEntry
  | mailbox (id : Nat) (take : Bool)
  | postTable
  | gangRelease
  | gangLatchFree
  | engineRoom
  | matrixDone (seq : Nat)
  | station
  | stationRoom
  | ringPass (cycle : Nat)
  | fullEmpty (buffer : Nat)
  | quota
  | granted (code : Nat) (data : List Word)
  deriving DecidableEq, Repr, Inhabited

/-- One entry of the path table or the spill area (R242, R243, R246). -/
structure Path where
  pc : DWord := 0
  member : LaneMask := 0
  exm : LaneMask := 0
  state : PathState := .ready
  join : Option DWord := none
  parent : Option Nat := none
  kind : ScopeKind := .none
  /-- the fault record the path is parked on (R330) -/
  parked : Option Nat := none
  /-- the path has a cause that still waits for room in the fault queue (R328) -/
  causeWaits : Bool := false
  /-- the BLOCK instruction it waits in, and since which cycle (R189, R397) -/
  wait : Option Wait := none
  waitSince : Nat := 0
  /-- when it last sent a probe in this wait (R397) -/
  probedAt : Option Nat := none
  /-- first cycle in which it may issue after a control transfer (R81) -/
  notBefore : Nat := 0
  /-- a YIELD keeps it from issuing until these entries have issued (R95) -/
  yields : List Nat := []
  /-- a requested hold and its halt cause, and the code of a BKPT that asks for it (R96, R419) -/
  holdAsked : Option Nat := none
  holdId : Nat := 0
  /-- hold again after one instruction (R419, action 4) -/
  stepping : Bool := false
  /-- state to which a release returns the path -/
  heldState : PathState := .ready
  /-- order of spilling: a smaller stamp has been spilled longer (R244) -/
  spilledAt : Nat := 0
  /-- the table index that a spilled path had last (R410) -/
  index : Nat := 0
  /-- first cycle in which it may try a BLOCK instruction again whose unit another path has taken (R238) -/
  retryAt : Nat := 0
  deriving DecidableEq, Repr, Inhabited

/-- A row of the register file that serves a vector name: its row number and its words (R248, R249). -/
structure VRow where
  row : Nat := 0
  lanes : Vector Word 64 := Vector.replicate 64 0
  deriving DecidableEq, Repr, Inhabited

/-- A hardware loop counter (R90, R93). -/
structure LoopCtr where
  count : Word := 0
  start : DWord := 0
  len : BitVec 11 := 0
  active : Bool := false
  deriving DecidableEq, Repr, Inhabited

/-- What a result that is not yet readable will write, with the value that stands before it (R30, R31). -/
inductive PendTarget where
  | scalar (n : Nat) (old : Word)
  | cm (mask old : DWord)
  | exm (path : Nat) (old : LaneMask)
  | vec (n : Nat) (old : Option VRow)
  | pred (n : Nat) (old : LaneMask)
  deriving DecidableEq, Repr, Inhabited

/-- A pending write: readable from cycle `ready` on. -/
structure Pending where
  target : PendTarget
  ready : Nat
  deriving DecidableEq, Repr, Inhabited

/-- The record of an idempotent region (R106). -/
structure Region where
  pc : DWord := 0
  member : LaneMask := 0
  exm : LaneMask := 0
  entry : Nat := 0
  mode : Word := 0
  fpsf : Word := 0
  loops : Vector LoopCtr 3 := Vector.replicate 3 {}
  restarted : Bool := false
  /-- the joined entries that stood at the IDEMB -/
  olds : List Nat := []
  deriving DecidableEq, Repr, Inhabited

/-- The trap registers of R318. -/
structure TrapRegs where
  xpc : DWord := 0
  xinst : Word := 0
  xmask : LaneMask := 0
  xcause : Word := 0
  xpath : BitVec 3 := 0
  xmode : Word := 0x0003000F
  deriving DecidableEq, Repr, Inhabited

/-- The user handler a group is in (R319, R321): the trapped path, its recorded masks, and the group's other paths. -/
structure InHandler where
  path : Nat := 0
  others : List Nat := []
  member : LaneMask := 0
  exm : LaneMask := 0
  deriving DecidableEq, Repr, Inhabited

/-- A cause that is to become a fault record (R324, R327, R328). -/
structure FaultCause where
  cause : Word := 0
  task : Nat := 0
  vaddr : DWord := 0
  pc : DWord := 0
  inst : Word := 0
  tile : Nat := 0x7F
  group : Nat := 0
  path : Nat := 0
  lane : Nat := 0
  mask : LaneMask := 0
  sysh : Bool := false
  restart : Bool := false
  unattr : Bool := false
  copy : Option Nat := none
  fetch : Bool := false
  write : Bool := false
  replay : Bool := false
  paddr : DWord := 0
  /-- admission number of the group and number of the path it parks -/
  owner : Option (Nat × Nat) := none
  deriving DecidableEq, Repr, Inhabited

/-- One group of W lanes (R234 to R255). -/
structure Group where
  live : Bool := false
  /-- admission sequence number (R240) -/
  seq : Nat := 0
  part : Nat := 0
  task : Nat := 0
  team : Nat := 0
  cluster : Nat := 0
  member : Nat := 0
  index : Nat := 0
  tile : Nat := 0
  pipe : Nat := 0
  slot : Nat := 0
  width : Width := .w16
  floor : Nat := 1
  peak : Nat := 48
  maxHeld : Nat := 0
  turn : Bool := false
  /-- YIELD: passed over at the next choice (R95) -/
  yielded : Bool := false
  /-- not ready because a destination row cannot be allocated (R239), and what it needs: marked names, destinations -/
  rowWait : Bool := false
  rowWant : List Nat × List Nat := ([], [])
  /-- the instruction word being issued -/
  ir : Word := 0
  /-- the instruction being issued has set UNMAPPED, which was clear: a fault takes it back (R251, R323) -/
  gapNew : Bool := false
  /-- first cycle in which the group may issue (R29, R238) -/
  clk : Nat := 0
  /-- the instruction in progress: its first and last cycle, path, address (R238, R405) -/
  busyFrom : Nat := 0
  busyTo : Nat := 0
  busyPath : Nat := 0
  busyPc : DWord := 0
  /-- EXM of the path when it issued (R406) -/
  busyExm : LaneMask := 0
  /-- cycle up to which `clk` waits for a control transfer, a stall count or a refill (R405) -/
  fetchUntil : Nat := 0
  stallUntil : Nat := 0
  /-- the table entry that was refilled last (R405) -/
  refilled : Nat := 0
  /-- the path that issues now (R241): a path number -/
  cur : Nat := 0
  /-- the path that issued last -/
  last : Nat := 7
  paths : Vector (Option Path) 72 := Vector.replicate 72 none
  spills : Nat := 0
  /-- spill positions that refills and exchanges have read since the group last issued (R342, R343) -/
  spillsRead : List Nat := []
  /-- lines of the local store taken for the spill area so far (R246) -/
  lines : Nat := 0
  s : Vector Word 64 := Vector.replicate 64 0
  v : Vector (Option VRow) 48 := Vector.replicate 48 none
  p : Vector LaneMask 12 := Vector.replicate 12 0
  cm : DWord := 0
  loops : Vector LoopCtr 3 := Vector.replicate 3 {}
  mode : Word := 0x0003000F
  fpsf : Word := 0
  gstat : Word := 0
  cpyst : Word := 0
  cpyfseq : Word := 0
  seed : DWord := 0
  laneCtr : Vector Word 64 := Vector.replicate 64 0
  scalarCtr : Word := 0
  x : TrapRegs := {}
  handler : Option InHandler := none
  region : Option Region := none
  pending : List Pending := []
  /-- copies issued since the last BATCH (R180, R181) -/
  openCopies : List Nat := []
  /-- closed batches that are not complete: sequence number and copies (R181) -/
  batches : List (Nat × List Nat) := []
  batchSeq : Word := 0
  /-- failed batches recorded since CPYST was last cleared (R182, R432) -/
  failedBatches : List Nat := []
  /-- failed copies of batches that are not complete: copy, status, key slot (R183) -/
  copyBad : List (Nat × Nat × Nat) := []
  /-- MFILL progress (R216) -/
  fillDone : LaneMask := 0
  /-- station and cycle of the last operation on each virtual slot (R226) -/
  ttLast : List (Nat × (Nat × Nat)) := []
  /-- arrival at the open team and cluster phase: phase number, and whether by BARARV (R156, R230, R348) -/
  teamArrived : Option (Nat × Bool) := none
  clusterArrived : Option (Nat × Bool) := none
  /-- operand collector of a group that issues alone (R196): slices per lane -/
  collector : Option (List (List Word)) := none
  /-- an idempotent restart and its record wait for the copies of the group (R345) -/
  restarting : Option FaultCause := none
  deriving DecidableEq, Repr, Inhabited

/-! ## Teams (R256, R191 to R207) -/

/-- State of a future (R207). -/
inductive FutureState where
  | free | pending | done | faulted | cancelled | overflow
  deriving DecidableEq, Repr, Inhabited

/-- One entry of a team's future table (R207, R353, R363). -/
structure Future where
  gen : Nat := 1
  state : FutureState := .free
  word : Word := 0
  jobs : Nat := 0
  firstBad : Nat := 0
  deriving DecidableEq, Repr, Inhabited

/-- The decoded format block of a K-step (R194). -/
structure FormatBlock where
  orgRow : Nat := 0
  orgCol : Nat := 0
  n : Nat := 1
  fmtA : Nat := 0
  fmtB : Nat := 0
  bOff : Nat := 0
  bStr : Nat := 0
  aHdr : Nat := 0
  bHdr : Nat := 0
  deriving DecidableEq, Repr, Inhabited

/-- The decoded drain descriptor (R201). -/
structure DrainDesc where
  orgRow : Nat := 0
  orgCol : Nat := 0
  rows : Nat := 1
  cols : Nat := 1
  orm : Nat := 0
  ofmt : Nat := 0
  act : Nat := 0
  icls : Bool := false
  clr : Bool := false
  hasB : Bool := false
  hasC : Bool := false
  hasR : Bool := false
  dst : Nat := 0
  pitch : Nat := 0
  rsc : Nat := 0
  csc : Nat := 0
  bias : Nat := 0
  deriving DecidableEq, Repr, Inhabited

/-- What the engine queue of a context holds (R197). `rows` pairs an accumulator row with its A slice. -/
inductive MatKind where
  | kstep (zero sparse : Bool) (fb : FormatBlock) (rows : List (Nat × List Word))
  | drainMem (d : DrainDesc)
  | drainReg (d : DrainDesc) (group : Nat) (path : Nat) (lanes : List (Nat × Nat))
  | tld (t : Nat) (col int : Bool) (q : Nat) (vals : List (Nat × Word))
  | tst (t : Nat) (col int : Bool) (q : Nat) (group : Nat) (path : Nat) (lanes : List Nat)
  | torg (t : Nat) (r c : Nat)
  | tzero (t : Nat)
  | tzeroAll
  deriving DecidableEq, Repr, Inhabited

/-- A queued matrix operation with its order number. -/
structure MatOp where
  seq : Nat
  kind : MatKind
  /-- the scratchpad at issue: a byte written since then reads as its old or its new value (R199) -/
  seen : List Host.Cell := []
  deriving DecidableEq, Repr, Inhabited

/-- An arrival at the gang rendezvous latch (R193). -/
structure GangArrival where
  group : Nat := 0
  path : Nat := 0
  word : Word := 0
  block : DWord := 0
  rank : Nat := 0
  active : LaneMask := 0
  slices : List (List Word) := []
  deriving DecidableEq, Repr, Inhabited

/-- One entry of a team's write buffer: a 128-byte line and the bytes stored in it (R298). -/
structure BufLine where
  line : Nat := 0
  host : Bool := false
  bytes : List Host.Cell := []
  since : Nat := 0
  /-- groups that wrote it -/
  writers : List Nat := []
  deriving DecidableEq, Repr, Inhabited

/-- One team (R256). -/
structure Team where
  id : Nat := 0
  part : Nat := 0
  task : Nat := 0
  cluster : Nat := 0
  member : Nat := 0
  tile : Nat := 0
  ctx : Nat := 0
  groups : Nat := 1
  exited : List Nat := []
  scr : Nat := 0
  scratch : List Host.Cell := []
  /-- write buffer, oldest entry first (R298) -/
  wbuf : List BufLine := []
  /-- L1 share: line and the 128 bytes it was filled with (R297) -/
  l1 : List (Nat × List Byte) := []
  /-- spill lines of its groups whose taking the L1 share has already seen (R246) -/
  linesSeen : List (Nat × Nat) := []
  futures : Vector Future 64 := Vector.replicate 64 {}
  gang : Word := 0
  latch : List GangArrival := []
  gangCollector : Option (List (Nat × List Word)) := none
  /-- accumulator bank: element 128 * row + column, unlisted elements are zero (R66, R67) -/
  acc : List (Nat × BitVec 40) := []
  msf : Word := 0
  origins : Vector (Nat × Nat) 8 := Vector.replicate 8 (0, 0)
  spStep : Nat := 0
  matQueue : List MatOp := []
  matSeq : Nat := 0
  /-- a consumed uncorrectable error awaits MMWAIT, DRAIN, TLD or TST: its storage kind (R200, R343) -/
  matPoisoned : Option Nat := none
  phase : Nat := 0
  arrived : List Nat := []
  /-- cluster barrier: phase and the groups of this team that have arrived (R156, R230) -/
  cphase : Nat := 0
  carrived : List Nat := []
  /-- tiles of its cluster, in member order (R235) -/
  tiles : List Nat := []
  beats : Nat := 0
  draining : Bool := false
  preempt : Bool := false
  /-- flushed for a restart once its copies have ended (R286) -/
  flushing : Bool := false
  /-- retired beats at the last beat on the core, per R425 -/
  lastBeat : Nat := 0
  /-- it has retired beats on the core it is on (R425, R426) -/
  ran : Bool := false
  deriving DecidableEq, Repr, Inhabited

/-! ## Tasks and partitions (R262 to R289, R326 to R332, R438 to R441) -/

/-- A task record (R262). -/
structure TaskRecord where
  entry : DWord := 0
  args : DWord := 0
  stack : Bool := false
  ccols : Nat := 0
  crows : Nat := 0
  clus : Bool := false
  prio : Nat := 0
  cancd : Bool := false
  scang : Bool := false
  idem : Bool := false
  vers : Bool := false
  groups : Nat := 1
  wcode : Nat := 0
  scr : Nat := 0
  floor : Nat := 1
  peak : Nat := 48
  branch : Nat := 0
  beats : Nat := 0
  tblist : DWord := 0
  foot : DWord := 0
  handler : DWord := 0
  parent : Nat := 0
  deriving DecidableEq, Repr, Inhabited

/-- Which launch made a task (R326, R281, R285). -/
inductive TaskKind where
  | user | consumer (mould tile : Nat) | unveil | system
  deriving DecidableEq, Repr, Inhabited

/-- Where a task stands. -/
inductive TaskStatus where
  | queued      -- accepted, held back by its buffers or its footprint
  | eligible    -- may be dispatched
  | running     -- some cluster placed
  | ended       -- its last group has exited, or it was killed
  deriving DecidableEq, Repr, Inhabited

/-- One task of a partition. -/
structure Task where
  part : Nat := 0
  id : Nat := 0
  record : TaskRecord := {}
  kind : TaskKind := .user
  priv : Bool := false
  clusters : Nat := 1
  placed : Nat := 0
  status : TaskStatus := .queued
  killed : Bool := false
  /-- tile of the launching group and tiles of its cluster (R266) -/
  fromTile : Option Nat := none
  fromCluster : List Nat := []
  inputs : List Nat := []
  outputs : List Nat := []
  since : Nat := 0
  boost : Nat := 0
  headSince : Option Nat := none
  /-- it has stood at the head long enough: the partition dispatches nothing else (R268) -/
  holds : Bool := false
  version : Option Nat := none
  vearly : Bool := false
  versioned : Bool := false
  dispatchSeq : Nat := 0
  /-- killed, cancelled or pre-empted by a flush: its groups issue nothing and it ends when its copies have (R184, R283) -/
  dying : Bool := false
  /-- dying by a cancellation or the deadline, whose tasks are flushed together (R213, R283) -/
  cancelled : Bool := false
  /-- complete in the sense of R212 -/
  complete : Bool := false
  /-- clusters that a flush-and-restart places again, by number (R259, R286) -/
  redo : List Nat := []
  /-- cores with retired beats, for R425 -/
  cores : List (Nat × Nat) := []
  deriving DecidableEq, Repr, Inhabited

/-- A footprinted submission in the dependence unit (R272): a task, or a job named by engine, partition and ordinal. -/
structure Submission where
  task : Option Nat := none
  job : Option (Nat × Nat) := none
  reads : List (Nat × Nat) := []
  writes : List (Nat × Nat) := []
  edges : List Nat := []
  num : Nat := 0
  deriving DecidableEq, Repr, Inhabited

/-- A Quarry pool (R277 to R279): free lists per slice and the allocated blocks with their branches. -/
structure Pool where
  enabled : Bool := false
  base : DWord := 0
  count : Nat := 0
  log : Nat := 6
  cancel : Bool := false
  free : List (Nat × List Nat) := []
  alloc : List (Nat × Nat) := []
  deriving DecidableEq, Repr, Inhabited

/-- State of a mould tile (R281). -/
inductive TileState where
  | empty | filling | cast
  deriving DecidableEq, Repr, Inhabited

/-- One tile of a mould: its state, the branches of its rows, its consumer and the casting task (R281). -/
structure MouldTile where
  state : TileState := .empty
  rows : List Nat := []
  consumer : Option Nat := none
  caster : Nat := 0
  fromTile : Nat := 0
  fromCluster : List Nat := []
  branch : Nat := 0
  held : Bool := false
  deriving DecidableEq, Repr, Inhabited

/-- A mould (R280). -/
structure Mould where
  enabled : Bool := false
  tmpl : DWord := 0
  img : DWord := 0
  rowSize : Nat := 1
  rows : Nat := 16
  tb : Nat := 0
  /-- disabled as soon as no MFILL waits on it (R289) -/
  closing : Bool := false
  /-- consumers of tiles of an older epoch (R396) -/
  stale : List Nat := []
  tiles : Vector MouldTile 2 := Vector.replicate 2 {}
  deriving DecidableEq, Repr, Inhabited

/-- A record written and still outstanding (R329). -/
structure FaultRecord where
  seq : Nat
  cause : FaultCause
  acted : Bool := false
  deriving DecidableEq, Repr, Inhabited

/-- An unveiling in progress (R282 to R284). -/
structure Unveiling where
  step : Nat := 1
  cause : Nat := 0
  period : Nat := 0
  extra : Nat := 0
  tasks : Nat := 0
  futures : Nat := 0
  versions : Nat := 0
  blocks : Nat := 0
  rows : Nat := 0
  branches : List Nat := []
  handler : Option Nat := none
  /-- UNVREC, STATUS, payload and header as step 5 found them -/
  base : Nat := 0
  status : Nat := 0
  image : List Byte := []
  /-- step 6 has written the record and raised the vector: the handler waits for room -/
  written : Bool := false
  /-- the record could not be written: the handler gets ARGS 0 (R283, step 6) -/
  failed : Bool := false
  deriving DecidableEq, Repr, Inhabited

/-- A committed-to-be line byte of a version (R274). -/
structure Version where
  num : Nat
  task : Nat
  bytes : List Host.Cell := []
  lines : List Nat := []
  held : Bool := false
  waitScan : Bool := false
  deriving DecidableEq, Repr, Inhabited

/-- Life of a partition (R439). -/
inductive PartState where
  | none | unlocked | locked | run | error
  deriving DecidableEq, Repr, Inhabited

/-- A cluster rectangle of a partition (R438). -/
structure Rect where
  tile : Nat
  rows : Nat
  cols : Nat
  stacked : Bool
  deriving DecidableEq, Repr, Inhabited

/-- A trace record on its way to the filter or the ring (R411, R412). -/
structure TraceRec where
  bytes : List Byte
  group : Nat := 0
  deriving DecidableEq, Repr, Inhabited

/-- One instruction of a trace filter (R414). -/
structure FilterInst where
  op : Nat := 0
  d : Nat := 0
  a : Nat := 0
  useImm : Bool := false
  b : Nat := 0
  j : Nat := 0
  imm : Word := 0
  deriving DecidableEq, Repr, Inhabited

/-- A running Caliper trial (R417, R418). -/
structure Trial where
  lo : DWord := 0
  hi : DWord := 0
  dly : Nat := 0
  pts : List (Option Nat) := []
  ends : Option Nat := none
  /-- first cycle in which it acts -/
  from_ : Nat := 0
  deriving DecidableEq, Repr, Inhabited

/-- A report that waits for the ring (R398). -/
structure Report where
  kind : Nat
  len : Nat := 0
  id : Word := 0
  a : Word := 0
  b : List Word := []
  deriving DecidableEq, Repr, Inhabited

/-- One physical slot of the Turntable (R221). -/
structure Slot where
  owner : Nat := 0xF
  kind : Nat := 0
  rev : BitVec 16 := 0
  lastw : Nat := 0
  payload : Vector DWord 8 := Vector.replicate 8 0
  deriving DecidableEq, Repr, Inhabited

/-- One partition (R438, R439) with its registers and the Atelier's state for it. -/
structure Partition where
  state : PartState := .none
  isSealed : Bool := false
  privq : BitVec 4 := 0
  ttQuota : Nat := 0
  mbox : BitVec 16 := 0
  rects : List Rect := []
  banks : List (Nat × Nat) := []
  priv : List (Nat × Nat) := []
  exports : List (Nat × Nat × Bool) := []
  descriptor : List Byte := []
  badDb : Bool := false
  /-- registers that differ from their reset value, by number (R289, R331, R403, R430, R441) -/
  regs : List (Nat × Word) := []
  credit : Nat := 1
  nextId : Nat := 1
  tasks : List Task := []
  dispatchCount : Nat := 0
  dep : List Submission := []
  depHold : List Submission := []
  depNum : Nat := 0
  pools : List (Nat × Pool) := []
  moulds : List (Nat × Mould) := []
  versions : List Version := []
  /-- task ids of discarded versions, reported to the system handler, oldest first (R275, log entry 81) -/
  discards : List Nat := []
  /-- deadline counter (R218, R219, R282): remaining periods -/
  remaining : Nat := 0
  armed : Bool := false
  fired : Bool := false
  slot : Nat := 0
  unveils : BitVec 16 := 0
  unveiling : Option Unveiling := none
  armLater : Option (Nat × Nat) := none
  designated : Bool := false
  /-- branches whose cancellation still waits for the flush of their teams (R213) -/
  cancels : List Nat := []
  /-- virtual Turntable numbers (R222) -/
  vslots : List (Nat × Nat) := []
  faults : List FaultCause := []
  records : List FaultRecord := []
  vectorRaisedNoQueue : Bool := false
  reportRaised : Bool := false
  scanRaised : Bool := false
  sysTask : Option Nat := none
  sliceSince : Nat := 0
  evicted : Bool := false
  /-- slots captured at an eviction, by virtual number (R317) -/
  ttCaptured : List (Nat × Slot) := []
  /-- epochs and report flags of the partition's engine-queue and mould-tile channels, by channel id (R394, R396) -/
  chans : List (Nat × (Nat × Bool)) := []
  traceIn : List TraceRec := []
  traceSeq : Word := 0
  halts : List TraceRec := []
  filter : List FilterInst := []
  filterHost : Bool := false
  fregs : Vector DWord 8 := Vector.replicate 8 0
  trial : Option Trial := none
  reports : List Report := []
  scanRecords : List (List Byte) := []
  lastLaunchQueue : Nat := 3
  lockSession : Option Nat := none
  lockCapture : List (Nat × Word) := []
  memoryKey : Option Nat := none
  ksPending : Option (Nat × Nat) := none
  /-- the message to the board that awaits its answer (R447) -/
  ksStep : Nat := 0
  ideSecure : Bool := false
  ideSession : Option Nat := none
  stopping : Bool := false
  deriving DecidableEq, Repr, Inhabited

/-! ## The units around the cores -/

/-- Kind of a copy and its parameters (R178, R179, R205). -/
inductive CopyKind where
  | linear (dst src : DWord) (len : Nat)
  | decrypt (dst src : DWord) (len : Nat) (key : Nat) (keyBits : Option (BitVec 256))
  | gather (dst src : DWord) (idx : List Nat) (log : Nat)
  | multicast (off : Nat) (src : DWord) (len : Nat) (mask : Nat)
  deriving DecidableEq, Repr, Inhabited

/-- A copy in flight (R180). -/
structure Copy where
  id : Nat
  team : Nat
  group : Nat
  part : Nat
  tile : Nat
  path : Nat := 0
  pc : DWord := 0
  inst : Word := 0
  kind : CopyKind
  /-- waits on a fault record (R327, R329) -/
  waits : Bool := false
  failed : Bool := false
  deriving DecidableEq, Repr, Inhabited

/-- A Turntable operation in a station queue (R220 to R225). -/
inductive TTKind where
  | board (kind : Nat)
  | alight
  | read (header : Bool)
  | cas (word : Nat) (cmp new : DWord)
  | max (block : List DWord)
  | add (word : Nat) (comp : Bool) (val : DWord)
  deriving DecidableEq, Repr, Inhabited

/-- A queued Turntable operation. -/
structure TTOp where
  group : Nat
  path : Nat
  part : Nat
  vslot : Nat
  kind : TTKind
  queuedAt : Nat := 0
  deriving DecidableEq, Repr, Inhabited

/-- One vertical channel, by producer tile (R381, R382). -/
structure Channel where
  held : Nat := 16
  link : List (List Word) := []
  back : Nat := 0
  fifo : List (List Word) := []
  /-- entries and permits of an older epoch still in flight (R396) -/
  stale : Nat := 0
  staleBack : Nat := 0
  /-- entries on the link, from the oldest on, that an ended cluster pushed (R384) -/
  dead : Nat := 0
  sent : BitVec 16 := 0
  taken : BitVec 16 := 0
  epoch : BitVec 16 := 0
  flagged : Bool := false
  deriving DecidableEq, Repr, Inhabited

/-- One entry of a mailbox: its message, and the post whose data a reserved one still awaits, with whether its grant has been sent (R393). -/
structure MailSlot where
  data : List Word := []
  owner : Option (Nat × Nat) := none
  sent : Bool := false
  deriving DecidableEq, Repr, Inhabited

/-- A blocking post that waits at a slice: group, path, and the data that its core's post table holds for it (R393). -/
structure MailPost where
  group : Nat
  path : Nat
  data : List Word
  deriving DecidableEq, Repr, Inhabited

/-- A mailbox (R229, R393): its entries in the order in which their posts reached the slice, waiting posts and takes. -/
structure Mailbox where
  slots : List MailSlot := []
  posts : List MailPost := []
  takes : List (Nat × Nat) := []
  epoch : BitVec 16 := 0
  flagged : Bool := false
  deriving DecidableEq, Repr, Inhabited

/-- A byte at its point of coherence (R299). -/
inductive Place where
  | dev (pa : Nat)
  | host (pa : Nat)
  | bank (o : Nat)
  | scr (team o : Nat)
  deriving DecidableEq, Repr, Inhabited

/-- Where a chain stands (R355 to R362). -/
inductive ChainAt where
  | reading               -- about to read the entry at `ptr`
  | entered (sub : Nat)   -- its JOB is in, or waits for, the dependence unit
  | running (sub : Nat)   -- its job runs on the engine
  | faulted               -- its last job ended FAULTED during a freeze: its future stays pending (R421)
  deriving DecidableEq, Repr, Inhabited

/-- The repetition of a LOOP entry (R358, R359). -/
structure ChainLoop where
  body : List (List Byte) := []
  patches : List (Nat × Nat × DWord) := []
  reps : Nat := 0
  rep : Nat := 0
  idx : Nat := 0
  after : DWord := 0
  deriving DecidableEq, Repr, Inhabited

/-- One chain in an engine queue (R355). -/
structure Chain where
  team : Nat
  part : Nat
  future : Nat
  ptr : DWord
  pos : ChainAt := .reading
  loop : Option ChainLoop := none
  /-- entries read so far (R356) -/
  read : Nat := 0
  param : DWord := 0
  op : Nat := 0
  jobs : Nat := 0
  lastStatus : Nat := 0
  lastWord : Word := 0
  overflow : Option (Word × Nat) := none
  /-- writes of the running job that are not yet performed (R312) -/
  out : List (Place × List Byte) := []
  cancel : Bool := false
  /-- of an older epoch of its queue: its completion is discarded and counted (R396) -/
  stale : Bool := false
  deriving DecidableEq, Repr, Inhabited

/-- One engine (R355): its chains in queue order, all partitions together, and whose turn is next. -/
structure Engine where
  chains : List Chain := []
  lastPart : Nat := 7
  deriving DecidableEq, Repr, Inhabited

/-- A group or a chain waiting on a tile buffer (R185): put, wait for full, wait for empty, take. -/
inductive FebKind where
  | put | full | empty | take
  deriving DecidableEq, Repr, Inhabited

/-- One waiter of a tile buffer, in arrival order. -/
structure FebWaiter where
  part : Nat
  buffer : Nat
  group : Nat
  path : Nat
  kind : FebKind
  deriving DecidableEq, Repr, Inhabited

/-- A flit in the mesh (R388, R389): at a router, going to a unit, of a source. -/
structure Flit where
  at_ : Nat
  dst : Nat
  src : Nat
  injected : Nat
  packet : Nat := 0
  size : Nat := 1
  /-- a reservation for a packet of several flits (R391) -/
  reserve : Bool := false
  /-- epoch of the receiver's pool (R396) -/
  epoch : BitVec 16 := 0
  moved : Bool := false
  deriving DecidableEq, Repr, Inhabited

/-- A receiver's reassembly pool (R391). -/
structure Receiver where
  reservations : List Nat := []
  lastGranted : Nat := 127
  granted : List Nat := []
  occupied : List (Nat × Nat) := []
  epoch : BitVec 16 := 0
  flagged : Bool := false
  deriving DecidableEq, Repr, Inhabited

/-- A unit that a probe can reach (R397): a group, a group as the one of a held or parked path, or an engine holding the chain of a
future. -/
inductive ProbeUnit where
  | group (seq : Nat)
  | stopped (seq : Nat)
  | chain (engine team future : Nat)
  deriving DecidableEq, Repr, Inhabited

/-- A probe on its way to a unit: its initiator, its number, and the ids of the units it has left. -/
structure Probe where
  initiator : Nat
  num : Nat
  path : List Word
  at_ : ProbeUnit
  deriving DecidableEq, Repr, Inhabited

/-- Life of a gating region (R399). -/
inductive RegionState where
  | open | pending | closed | opening
  deriving DecidableEq, Repr, Inhabited

/-- A gating region. -/
structure Gate where
  state : RegionState := .open
  preempting : Bool := false
  since : Nat := 0
  deriving DecidableEq, Repr, Inhabited

/-- A running sampler of a core (R404). -/
structure Sampler where
  started : Bool := false
  last : Nat := 0
  quad : Nat := 0
  byHost : Bool := false
  byPart : Nat := 0
  /-- registers as they stood before this cycle's writes, and the cycle (R404) -/
  oldAt : Option Nat := none
  old : List (Nat × Word) := []
  deriving DecidableEq, Repr, Inhabited

/-- An SPDM session (R442 to R445). -/
structure Session where
  id : Nat
  version : Bool := false
  capabilities : Bool := false
  algorithms : Bool := false
  exchanged : Bool := false
  secured : Bool := false
  keyEpoch : Nat := 0
  deriving DecidableEq, Repr, Inhabited

/-- What the debug port answers (R422): the data and its SEALED bit, and the group and path it concerns (R410). -/
structure DebugRead where
  data : DWord := 0
  isSealed : Bool := false
  group : Nat := 0
  path : Nat := 0
  pc : DWord := 0
  mask : LaneMask := 0
  deriving DecidableEq, Repr, Inhabited

/-- A message the device has sent over the link, the I3C or the JTAG port. -/
structure Sent where
  kind : Nat
  sess : Nat := 0
  bytes : List Byte := []
  deriving DecidableEq, Repr, Inhabited

/-- An uncorrectable or corrected word (R342, R343): storage kind, place and address of its protection word. -/
structure SoftError where
  kind : Nat
  tile : Nat
  addr : Nat
  double : Bool
  deriving DecidableEq, Repr, Inhabited

/-- A saved team with its groups (R287). -/
structure Saved where
  team : Team
  groups : List Group
  fifos : List (Nat × Channel) := []
  deriving DecidableEq, Repr, Inhabited

/-- The operating point (R401, R402). -/
structure Power where
  point : Nat := 2
  fstep : Nat := 16
  measured : Nat := 0
  /-- reference period of the last interval -/
  lastAt : Nat := 0
  overload : BitVec 8 := 0
  low : Nat := 0
  moving : Option Nat := none
  limit : Nat := 0x168
  boost : Bool := false
  deriving DecidableEq, Repr, Inhabited

/-- The whole part. -/
structure State where
  /-- the group that issues now, and all other resident groups -/
  me : Group := {}
  groups : List Group := []
  /-- last instructions of groups that have left their pipes, by pipe (32 * tile + pipe): first and last cycle (R238, R240) -/
  left : List (Nat × (Nat × Nat)) := []
  teams : List Team := []
  saved : List Saved := []
  parts : Vector Partition 8 := Vector.replicate 8 {}
  /-- physical device memory, host memory and the shared banks: unlisted bytes read zero -/
  dev : List Host.Cell := []
  host : List Host.Cell := []
  bank : List Host.Cell := []
  copies : List Copy := []
  copyNum : Nat := 0
  teamNum : Nat := 0
  /-- admission counter (R240), one per core, kept as one -/
  admissions : Nat := 0
  /-- plinth cycle since reset (R226) -/
  now : Nat := 0
  /-- cycle for which REVOLUTION has been performed (R226) -/
  revAt : Nat := 0
  refs : Nat := 0
  refRest : Nat := 0
  /-- the Turntable: slots that are not free (R221), station queues (R220) -/
  slots : List (Nat × Slot) := []
  stations : List (Nat × List TTOp) := []
  channels : List (Nat × Channel) := []
  mailboxes : List (Nat × Mailbox) := []
  engines : Vector Engine 5 := Vector.replicate 5 {}
  febs : List FebWaiter := []
  keys : List ((Nat × Nat) × (BitVec 256 × Nat)) := []
  lastPart : Nat := 7
  /-- first cycle in which the Atelier may decide again (R267) -/
  dispatchAt : Nat := 0
  gates : List (Nat × Gate) := []
  power : Power := {}
  /-- CDMASK, SCANPER and the patrol registers (R430) -/
  cdmask : BitVec 96 := 0
  scanPer : Word := 0
  psSel : Nat := 0
  patrol : List (Nat × Word) := []
  patrolRow : List (Nat × Nat) := []
  /-- reference period of a channel's last row read -/
  patrolAt : List (Nat × Nat) := []
  /-- lines with a corrected error that a channel's patrol has read and not yet written back, and whether they have been written since (R428) -/
  patrolRead : List (Nat × Nat × Bool) := []
  scanning : Option Nat := none
  scanNext : Nat := 0
  scanNum : Nat := 0
  scanDue : Nat := 0
  lastPass : List (Nat × Nat) := []
  /-- per-core registers that differ from reset: 4096 * tile + number (R408, R430) -/
  coreRegs : List (Nat × Word) := []
  samplers : List (Nat × Sampler) := []
  flits : List Flit := []
  inject : List Flit := []
  receivers : List (Nat × Receiver) := []
  delivered : List (Nat × Nat) := []
  probes : List Probe := []
  probeNum : Nat := 0
  /-- units that have forwarded a probe, by its number -/
  probeSeen : List (Nat × ProbeUnit) := []
  /-- HELD and PARKED answers: the initiator and the id of the group that answered, oldest first (R397, log entry 147) -/
  probeAnswers : List (Nat × Word) := []
  /-- the source that injected last at each router (R389) -/
  injectLast : List (Nat × Nat) := []
  /-- routers that have handled their arrivals in this cycle (R389) -/
  routed : List Nat := []
  auditAt : Nat := 0
  auditNext : Nat := 0
  /-- words struck by soft errors that have not been consumed or corrected (R342) -/
  errors : List SoftError := []
  /-- the accumulator context that each core's matrix engine has served last (R197) -/
  matLast : List (Nat × Nat) := []
  /-- L1 and L2 TLBs by tile; an entry: partition, page base plus level, leaf entry (R337) -/
  tlb : List (Nat × List (Nat × Nat × Nat)) := []
  tlb2 : List (Nat × List (Nat × Nat × Nat)) := []
  /-- the device block (R451) and the boot (R449) -/
  partDesc : DWord := 0
  partCmd : Word := 0
  bootst : Word := 8
  hostErr : Word := 0
  linkUp : Bool := true
  perst : Bool := false
  imageDigest : Nat := 0
  sessions : List Session := []
  msix : List (Nat × Nat) := []
  sent : List Sent := []
  relay : List (Nat × List Byte) := []
  debugOut : Option DebugRead := none
  /-- events from outside, in the order in which they arrive: the device takes the first -/
  inputs : List Instr := []
  /-- the model's own counter of free choices (not the spec's) -/
  free : Nat := 0
  deriving DecidableEq, Repr, Inhabited

/-- Why the machine stops with a fault. -/
inductive Fault where
  /-- Raised by no meaning of an instruction; `step` answers it: a halted boot runs nothing until a power-on reset (R449). Safe: the part is stuck too. -/
  | bootHalted
  deriving DecidableEq, Repr, Inhabited

/-- Why a step is refused. -/
inductive Refusal where
  /-- Raised by `exec` for an instruction that has no meaning yet. Safe: nothing can be shown of it. -/
  | notModelled (mnemonic : String)
  deriving DecidableEq, Repr, Inhabited

/-- The part when its boot is over (R449, step 8): PF 0 enumerable, no partition, no group, every store zero. -/
def State.reset : State := {}

end Sys2Proof.Machine
end

