-- ==== Sys2Proof/Machine/Base.lean ====
section
/-! DEFINITION. Words, maps, memory cells and the parts of the state: reading and writing each piece, and the path table. -/

namespace Sys2Proof.Machine

/-- What a meaning answers. -/
abbrev Out := Host.Outcome State Fault Refusal

/-! ### Words, pairs and bytes (R6, R10) -/

/-- The low word of a pair. -/
def lo32 (x : DWord) : Word := x.setWidth 32
/-- The high word of a pair. -/
def hi32 (x : DWord) : Word := (x >>> 32).setWidth 32
/-- A pair from its low and high words. -/
def pair (lo hi : Word) : DWord := hi ++ lo
/-- `n` bits of a word from bit `k` up, as a number. -/
def bits {w : Nat} (x : BitVec w) (k n : Nat) : Nat := x.toNat / 2 ^ k % 2 ^ n
/-- One bit of a word. -/
def bit {w : Nat} (x : BitVec w) (k : Nat) : Bool := x.getLsbD k
/-- One bit as a word. -/
def ofBool {w : Nat} (b : Bool) : BitVec w := if b then 1 else 0
/-- A word with bits `lo` up replaced by an `n`-bit number. -/
def setBits {w : Nat} (x : BitVec w) (lo n v : Nat) : BitVec w :=
  (x &&& ~~~ BitVec.ofNat w ((2 ^ n - 1) * 2 ^ lo)) ||| BitVec.ofNat w ((v % 2 ^ n) * 2 ^ lo)
/-- Sign extension of the low `n` bits of a number to 64 bits. -/
def sext (n v : Nat) : DWord := if v % 2 ^ n < 2 ^ (n - 1) then BitVec.ofNat 64 (v % 2 ^ n) else BitVec.ofNat 64 (2 ^ 64 + v % 2 ^ n - 2 ^ n)
/-- A number from bytes, lowest address first. -/
def leNat : List Byte → Nat
  | [] => 0
  | b :: bs => b.toNat + 2 ^ 8 * leNat bs
/-- `n` bytes of a number, lowest address first. -/
def leBytes : Nat → Nat → List Byte
  | 0, _ => []
  | n + 1, v => BitVec.ofNat 8 v :: leBytes n (v / 2 ^ 8)
/-- Saturating add for counters. -/
def satAdd {w : Nat} (x : BitVec w) (n : Nat) : BitVec w := BitVec.ofNat w (min (x.toNat + n) (2 ^ w - 1))

/-- Whether a wait up to sequence number `n` covers batch `q` (R182). -/
def covers (n q : Nat) : Bool := decide (0 ≤ (BitVec.ofNat 32 n - BitVec.ofNat 32 q).toInt)

/-! ### Maps in one canonical form -/

/-- The value a list holds at a key. -/
def look {β : Type} (k : Nat) : List (Nat × β) → Option β
  | [] => none
  | e :: l => if e.1 = k then some e.2 else look k l
/-- The value at a key, or the value of unlisted keys. -/
def lookD {β : Type} (l : List (Nat × β)) (k : Nat) (d : β) : β := (look k l).getD d
/-- The list with a key at a value, keys rising. -/
def put {β : Type} (k : Nat) (v : β) : List (Nat × β) → List (Nat × β)
  | [] => [(k, v)]
  | e :: l => if k < e.1 then (k, v) :: e :: l else if e.1 = k then (k, v) :: l else e :: put k v l
/-- The list without a key. -/
def drop {β : Type} (k : Nat) (l : List (Nat × β)) : List (Nat × β) := l.filter (fun e => e.1 != k)

/-! ### Memory: sorted cells, unlisted bytes zero -/

/-- What one byte of memory reads as. -/
def Memory.get (m : List Host.Cell) (a : Nat) : Byte := lookD m a 0
/-- Memory with one byte written; a zero byte is not listed. -/
def Memory.set (m : List Host.Cell) (a : Nat) (b : Byte) : List Host.Cell :=
  match m with
  | [] => if b = 0 then [] else [(a, b)]
  | c :: m => if a < c.1 then (if b = 0 then c :: m else (a, b) :: c :: m)
      else if c.1 = a then (if b = 0 then m else (a, b) :: m) else c :: Memory.set m a b
/-- `n` bytes from an address up. -/
def Memory.bytes (m : List Host.Cell) (a : Nat) : Nat → List Byte
  | 0 => []
  | n + 1 => Memory.get m a :: Memory.bytes m (a + 1) n
/-- Memory with bytes written from an address up. -/
def Memory.setBytes (m : List Host.Cell) (a : Nat) : List Byte → List Host.Cell
  | [] => m
  | b :: bs => Memory.setBytes (Memory.set m a b) (a + 1) bs
/-- Addresses strictly rising and no listed zero. -/
def Memory.wf : List Host.Cell → Bool
  | [] => true
  | [c] => c.2 != 0
  | c :: d :: m => c.2 != 0 && decide (c.1 < d.1) && Memory.wf (d :: m)

/-! ### Parts of the state -/

/-- W as a number (R234). -/
def Width.lanes : Width → Nat
  | .w16 => 16
  | .w32 => 32
  | .w64 => 64
/-- The mask of all W lanes. -/
def Width.mask (w : Width) : LaneMask := BitVec.ofNat 64 (2 ^ w.lanes - 1)

/-- A partition by number; a number above 7 names none. -/
def State.part (s : State) (p : Nat) : Partition := s.parts[p]?.getD {}
/-- The state with a partition changed. -/
def State.setPart (s : State) (p : Nat) (f : Partition → Partition) : State :=
  if h : p < 8 then { s with parts := s.parts.set p (f s.parts[p]) } else s
/-- A team by id. -/
def State.team? (s : State) (id : Nat) : Option Team := s.teams.find? (·.id == id)
/-- A team by id, or an empty one. -/
def State.team (s : State) (id : Nat) : Team := (s.team? id).getD {}
/-- The state with a team changed. -/
def State.setTeam (s : State) (id : Nat) (f : Team → Team) : State :=
  { s with teams := s.teams.map fun t => if t.id = id then f t else t }
/-- The issuing group's team. -/
def State.myTeam (s : State) : Team := s.team s.me.team
/-- The state with the issuing group's team changed. -/
def State.setMyTeam (s : State) (f : Team → Team) : State := s.setTeam s.me.team f
/-- The issuing group's partition. -/
def State.myPart (s : State) : Partition := s.part s.me.part
/-- A task of a partition. -/
def Partition.task? (p : Partition) (id : Nat) : Option Task := p.tasks.find? (·.id == id)
/-- The partition with a task changed. -/
def Partition.setTask (p : Partition) (id : Nat) (f : Task → Task) : Partition :=
  { p with tasks := p.tasks.map fun t => if t.id = id then f t else t }
/-- The issuing group's task. -/
def State.myTask (s : State) : Task := (s.myPart.task? s.me.task).getD {}
/-- Members of a cluster of a task (R235). -/
def TaskRecord.members (r : TaskRecord) : Nat := if r.clus then r.crows * r.ccols * (if r.stack then 2 else 1) else 1
/-- All resident groups, the issuing one first. -/
def State.allGroups (s : State) : List Group := if s.me.live then s.me :: s.groups else s.groups
/-- A resident group by admission number. -/
def State.group? (s : State) (seq : Nat) : Option Group := s.allGroups.find? (·.seq == seq)
/-- The state with a group changed, wherever it stands. -/
def State.setGroup (s : State) (seq : Nat) (f : Group → Group) : State :=
  if s.me.live && s.me.seq == seq then { s with me := f s.me }
  else { s with groups := s.groups.map fun g => if g.seq = seq then f g else g }
/-- The state with the issuing group changed. -/
def State.withMe (s : State) (f : Group → Group) : State := { s with me := f s.me }
/-- Whether the issuing group's code is privileged (R325). -/
def State.priv (s : State) : Bool := s.myTask.priv
/-- A path of a group. -/
def Group.path? (g : Group) (n : Nat) : Option Path := (g.paths[n]?).getD none
/-- A path of a group, or an empty one. -/
def Group.path (g : Group) (n : Nat) : Path := (g.path? n).getD {}
/-- The group with an entry set. -/
def Group.setEntry (g : Group) (n : Nat) (p : Option Path) : Group :=
  if h : n < 72 then { g with paths := g.paths.set n p } else g
/-- The group with a path changed, where it exists. -/
def Group.setPath (g : Group) (n : Nat) (f : Path → Path) : Group :=
  match g.path? n with
  | some p => g.setEntry n (some (f p))
  | none => g
/-- The issuing path (P of R79). -/
def State.path (s : State) : Path := s.me.path s.me.cur
/-- The state with the issuing path changed. -/
def State.setPath (s : State) (f : Path → Path) : State := s.withMe fun g => g.setPath g.cur f
/-- The Turntable station of a tile: the ring's boustrophedon route through plinth rows 0 to 5 and figure rows 5 to 0 (R3). -/
def stationOf (t : Nat) : Nat :=
  let y := t % 48 / 8
  let x := t % 8
  if t < 48 then 8 * y + (if y % 2 = 0 then x else 7 - x) else 48 + 8 * (5 - y) + (if y % 2 = 1 then x else 7 - x)
/-- An address as a PC, an XPC or a join PC holds it: 56 bits (R242, R318). -/
def pc56 (x : DWord) : DWord := x &&& 0x00FFFFFFFFFFFFFF
/-- Address A of the instruction word (R79). -/
def State.pc (s : State) : DWord := s.path.pc

/-- A scalar register (R17). -/
def Group.sreg (g : Group) (n : Nat) : Word := g.s[n]?.getD 0
/-- The group with a scalar register written. -/
def Group.setS (g : Group) (n : Nat) (x : Word) : Group := if h : n < 64 then { g with s := g.s.set n x } else g
/-- A predicate, one bit a lane. -/
def Group.preg (g : Group) (n : Nat) : LaneMask := g.p[n]?.getD 0
/-- The group with a predicate written. -/
def Group.setP (g : Group) (n : Nat) (x : LaneMask) : Group := if h : n < 12 then { g with p := g.p.set n x } else g
/-- The row behind a vector name. -/
def Group.vrow (g : Group) (n : Nat) : Option VRow := (g.v[n]?).getD none
/-- A lane of a vector name; a name without a row reads zero (R251). -/
def Group.vlane (g : Group) (n lane : Nat) : Word := ((g.vrow n).bind fun r => r.lanes[lane]?).getD 0
/-- The group with the row behind a name set. -/
def Group.setRow (g : Group) (n : Nat) (r : Option VRow) : Group := if h : n < 48 then { g with v := g.v.set n r } else g

/-! ### The mode word (R33) -/

/-- Guard predicate, or 15. -/
def modeGP (m : Word) : Nat := bits m 0 4
/-- Negate the guard. -/
def modeGN (m : Word) : Bool := bit m 4
/-- Element type. -/
def modeET (m : Word) : Nat := bits m 5 4
/-- Rounding mode. -/
def modeRM (m : Word) : Nat := bits m 9 3
/-- Saturate. -/
def modeSAT (m : Word) : Bool := bit m 12
/-- Flush subnormals. -/
def modeFTZ (m : Word) : Bool := bit m 13
/-- Edge rule. -/
def modeEDGE (m : Word) : Nat := bits m 14 2
/-- Default scope. -/
def modeSCOPE (m : Word) : Nat := bits m 16 3
/-- Checking scoreboard. -/
def modeCHK (m : Word) : Bool := bit m 19
/-- Trap enables, in the order of FPSF bits 4:0. -/
def modeFPTE (m : Word) : Nat := bits m 20 5
/-- A read of an unmapped name traps. -/
def modeNAMETRAP (m : Word) : Bool := bit m 25
/-- No field holds a reserved value (R33, R34). -/
def modeLegal (m : Word) : Bool :=
  bits m 26 6 == 0 && decide (modeSCOPE m ≤ 4) && modeEDGE m != 3 && decide (modeRM m ≤ 5) && decide (modeET m ≤ 8)
    && (decide (modeGP m ≤ 11) || modeGP m == 15)

/-! ### Results that are not yet readable (R30, R31) -/

/-- Whether a pending write concerns a scalar register. -/
def Pending.isS (n : Nat) (e : Pending) : Bool := match e.target with | .scalar k _ => k == n | _ => false
/-- Whether a pending write concerns some of the CM bits of a mask: a pending result is the bits its producer writes (DEDUCED, log entry 132). -/
def Pending.isCM (m : DWord) (e : Pending) : Bool := match e.target with | .cm k _ => k &&& m != 0 | _ => false
/-- Whether a pending write concerns the EXM of a path. -/
def Pending.isEXM (n : Nat) (e : Pending) : Bool := match e.target with | .exm k _ => k == n | _ => false
/-- Whether a pending write concerns a vector name read for all lanes at once. -/
def Pending.isV (n : Nat) (e : Pending) : Bool := match e.target with | .vec k _ => k == n | _ => false
/-- Whether a pending write concerns a predicate read for all lanes at once. -/
def Pending.isP (n : Nat) (e : Pending) : Bool := match e.target with | .pred k _ => k == n | _ => false

/-- The first write of a class that is still pending after every complete one: its old value is what a consumer sees (R31). -/
def stale (f : Pending → Bool) (now : Nat) : List Pending → Option Pending
  | [] => none
  | e :: es => if f e && decide (now < e.ready) && !(es.any fun x => f x && decide (x.ready ≤ now)) then some e else stale f now es

/-- Whether a later write takes the place of all of an earlier one. -/
def Pending.replaces (x e : Pending) : Bool :=
  match x.target, e.target with
  | .scalar a _, .scalar b _ | .exm a _, .exm b _ | .vec a _, .vec b _ | .pred a _, .pred b _ => a == b
  | .cm m _, .cm k _ => k &&& ~~~m == 0
  | _, _ => false
/-- What is left of an earlier write behind a later one: CM bit by bit. -/
def Pending.under (e x : Pending) : Pending :=
  match x.target, e.target with
  | .cm m _, .cm k old => { e with target := .cm (k &&& ~~~m) old }
  | _, _ => e
/-- The writes that a consumer can still be too early for: those not complete, and not overtaken by a complete later one (R31). -/
def settle (now : Nat) : List Pending → List Pending
  | [] => []
  | e :: es =>
    let done := es.filter fun x => decide (x.ready ≤ now)
    if now < e.ready && !(done.any fun x => x.replaces e) then done.foldl Pending.under e :: settle now es else settle now es

/-- What an instruction reads, for the checks before issue (R31, R251). -/
inductive Use where
  | s (n : Nat)        -- scalar register
  | cm                 -- CM whole
  | cmBit (n : Nat)    -- one bit of CM
  | exm
  | v (n : Nat)        -- vector name, lane by lane
  | nbL (n : Nat)      -- left neighbour of a vector name
  | nbR (n : Nat)      -- right neighbour of a vector name
  | vw (n : Nat)       -- vector name, all lanes at once
  | p (n : Nat)        -- predicate, all lanes at once
  deriving DecidableEq, Repr

/-- Whether a read meets a pending write (R31). -/
def State.hazard (s : State) (u : Use) : Bool :=
  match u with
  | .s n => (stale (Pending.isS n) s.now s.me.pending).isSome
  | .cm => (stale (Pending.isCM (BitVec.allOnes 64)) s.now s.me.pending).isSome
  | .cmBit n => (stale (Pending.isCM (1 <<< n)) s.now s.me.pending).isSome
  | .exm => (stale (Pending.isEXM s.me.cur) s.now s.me.pending).isSome
  | .v _ | .nbL _ | .nbR _ => false
  | .vw n => (stale (Pending.isV n) s.now s.me.pending).isSome
  | .p n => (stale (Pending.isP n) s.now s.me.pending).isSome

/-- A scalar register as an instruction issued now reads it (R31). -/
def State.rs (s : State) (n : Nat) : Word :=
  match stale (Pending.isS n) s.now s.me.pending with
  | some { target := .scalar _ old, .. } => old
  | _ => s.me.sreg n
/-- A scalar pair. -/
def State.rpair (s : State) (n : Nat) : DWord := pair (s.rs n) (s.rs (n + 1))
/-- The CM word from which a bit is read now. -/
def State.cmFrom (s : State) (k : Nat) : DWord :=
  match stale (Pending.isCM (1 <<< k)) s.now s.me.pending with
  | some { target := .cm _ old, .. } => old
  | _ => s.me.cm
/-- CM as read now, bit by bit. -/
def State.cmNow (s : State) : DWord :=
  if s.me.pending.any (Pending.isCM (BitVec.allOnes 64)) then
    BitVec.ofNat 64 ((List.range 64).foldr (fun k n => (if (s.cmFrom k).getLsbD k then 2 ^ k else 0) + n) 0)
  else s.me.cm
/-- EXM of the issuing path as read now. -/
def State.exm (s : State) : LaneMask :=
  match stale (Pending.isEXM s.me.cur) s.now s.me.pending with
  | some { target := .exm _ old, .. } => old
  | _ => s.path.exm
/-- A predicate read for all lanes at once. -/
def State.predWhole (s : State) (n : Nat) : LaneMask :=
  match stale (Pending.isP n) s.now s.me.pending with
  | some { target := .pred _ old, .. } => old
  | _ => s.me.preg n
/-- A lane of a vector name read by a collection pass (R158). -/
def State.laneWhole (s : State) (n lane : Nat) : Word :=
  match stale (Pending.isV n) s.now s.me.pending with
  | some { target := .vec _ old, .. } => (old.bind fun r => r.lanes[lane]?).getD 0
  | _ => s.me.vlane n lane

/-- The lanes of the guard (R36). -/
def State.guard (s : State) : LaneMask :=
  let m := s.me.mode
  if modeGP m = 15 then BitVec.allOnes 64
  else if modeGN m then ~~~ s.me.preg (modeGP m) else s.me.preg (modeGP m)
/-- The active lanes of a vector, memory or atomic instruction (R36). -/
def State.active (s : State) : LaneMask := s.exm &&& s.guard &&& s.me.width.mask
/-- The lanes of a mask in ascending order. -/
def lanesOf (m : LaneMask) : List Nat := (List.range 64).filter fun k => m.getLsbD k
/-- The number of lanes of a mask. -/
def laneCount (m : LaneMask) : Nat := (lanesOf m).length
/-- A mask from a test. -/
def maskOf (f : Nat → Bool) : LaneMask := BitVec.ofNat 64 ((List.range 64).foldr (fun k n => (if f k then 2 ^ k else 0) + n) 0)

/-! ### Path entries (R83 to R87, R242 to R245) -/

/-- Every live lane of a group: the union of all member masks (R250). -/
def Group.liveLanes (g : Group) : LaneMask := g.paths.toList.foldl (fun m p => m ||| (p.map (·.member)).getD 0) 0
/-- Numbers of the entries that exist. -/
def Group.entries (g : Group) : List Nat := (List.range 72).filter fun n => (g.path? n).isSome
/-- The pending EXM writes of an entry are over: a control instruction, or a merge, has written its EXM (R247). -/
def Group.dropEXM (g : Group) (n : Nat) : Group := { g with pending := g.pending.filter fun e => !(e.isEXM n) }
/-- An entry that can issue as soon as it is chosen (R244). -/
def Path.canIssue (p : Path) : Bool := p.state == .ready && p.parked.isNone && !p.causeWaits && p.wait.isNone
/-- Free entries in the order in which new entries take them: table first, then spill positions (R244). -/
def Group.freeEntries (g : Group) : List Nat := (List.range 72).filter fun n => (g.path? n).isNone
/-- Whether another entry stands in the spill line of a position: 4 entries share a line (R246). -/
def Group.lineTaken (g : Group) (n : Nat) : Bool :=
  (List.range 4).any fun k => let m := 8 + 4 * ((n - 8) / 4) + k; m != n && (g.path? m).isSome
/-- Puts an entry at a free position; one in the spill area takes the next spill stamp, and its line where it is the first there. -/
def Group.enter (g : Group) (n : Nat) (p : Path) : Group :=
  if n < 8 then g.setEntry n (some p)
  else { g with spills := g.spills + 1, lines := if g.lineTaken n then g.lines else g.lines + 1 }.setEntry n (some { p with spilledAt := g.spills })
/-- The group with a new entry at a position. -/
def Group.addPath (g : Group) (n : Nat) (p : Path) : Group := (g.dropEXM n).enter n p
/-- Children of an entry (R85). -/
def Group.children (g : Group) (i : Nat) : List Nat := g.entries.filter fun n => (g.path n).parent == some i
/-- A region record whose path numbers change (R243). -/
def Region.renumber (f : Nat → Nat) (r : Region) : Region := { r with entry := f r.entry, olds := r.olds.map f }
/-- Renames path numbers wherever the group holds them: parents, waits of a YIELD, pending EXM writes, handler, region (R243). -/
def Group.renumber (f : Nat → Nat) (g : Group) : Group :=
  { g with
    paths := g.paths.map fun (q : Option Path) => q.map fun (q : Path) => { q with parent := q.parent.map f, yields := q.yields.map f }
    pending := g.pending.map fun e => match e.target with
      | .exm k old => { e with target := .exm (f k) old }
      | _ => e
    cur := f g.cur
    handler := g.handler.map fun (h : InHandler) => { h with path := f h.path, others := h.others.map f }
    region := g.region.map (Region.renumber f) }
/-- Moves an entry to a free position and rewrites what names it (R243). -/
def Group.movePath (g : Group) (src dst : Nat) : Group :=
  match g.path? src with
  | none => g
  | some p => { (g.setEntry src none).enter dst p with spillsRead := src :: g.spillsRead }.renumber fun k => if k = src then dst else k
/-- Exchanges a table entry and a spilled one; the one that leaves keeps its index for the records that name it (R245, R410). -/
def Group.exchange (g : Group) (k m : Nat) : Group :=
  let a := g.path k
  let b := g.path m
  { (((g.setEntry k none).setEntry m none).enter k b).enter m { a with index := k } with spillsRead := m :: g.spillsRead }.renumber fun i => if i = k then m else if i = m then k else i
/-- A refill or an exchange into a table entry takes 8 cycles (R245). -/
def Group.refillTime (g : Group) (k : Nat) : Group := { g with clk := g.clk + 8, fetchUntil := g.clk + 8, refilled := k }
/-- Spilled entries by the order of their spilling. -/
def Group.oldestSpilled (g : Group) (f : Path → Bool) : Option Nat :=
  (((List.range 64).map (· + 8)).filter fun n => ((g.path? n).map f).getD false).foldl
    (fun b n => match b with
      | none => some n
      | some m => if (g.path n).spilledAt < (g.path m).spilledAt then some n else some m) none
/-- Fills freed table entries from the spill area (R244) and exchanges one where no table entry is ready (R245); at most
72 moves. -/
def Group.refill : Nat → Group → Group
  | 0, g => g
  | n + 1, g =>
    let free := (List.range 8).find? fun k => (g.path? k).isNone
    let from_ := (g.oldestSpilled Path.canIssue).orElse fun _ => g.oldestSpilled fun _ => true
    match free, from_ with
    | some k, some m => Group.refill n ((g.movePath m k).refillTime k)
    | _, _ =>
      if (List.range 8).any (fun k => ((g.path? k).map Path.canIssue).getD false) then g
      else match g.oldestSpilled Path.canIssue with
        | none => g
        | some m =>
          let pick := fun (st : PathState) => (List.range 8).foldl (fun b k => match g.path? k with
            | some p => if p.state = st && p.parked.isNone && !p.causeWaits && p.wait.isNone then some k else b
            | none => b) none
          match (pick .waiting).orElse fun _ => pick .joined with
          | none => g
          | some k => (g.exchange k m).refillTime k
/-- An operation on a group in a cycle in which none of its instructions is in progress: a refill then takes its cycles from now. -/
def Group.atCycle (now : Nat) (f : Group → Group) (g : Group) : Group :=
  let h := f { g with clk := max g.clk now, fetchUntil := 0 }
  if h.fetchUntil = 0 then { h with clk := g.clk, fetchUntil := g.fetchUntil } else h
/-- The loop counter of a scope is cleared with its owner (R91). -/
def Group.clearLoop (g : Group) (k : ScopeKind) : Group :=
  match k with
  | .loop n => { g with loops := g.loops.set n { g.loops[n] with count := 0, active := false } }
  | _ => g
/-- Whether every child of an entry is in state waiting (R86); a parked or held child, or one in a BLOCK instruction, is not. -/
def Group.allWait (g : Group) (i : Nat) : Bool :=
  (g.children i).all fun n => (g.path n).state == .waiting && (g.path n).parked.isNone && !(g.path n).causeWaits

/-- Merges scopes from an owner up, as far as they merge (R86, R91, R244): the fuel bounds the nesting. A reopened loop's child takes the
lowest-numbered entry of its old children (DESIGN CHOICE, log entry 131); a body of more than 256 words is fetched again (R81, R90). -/
def Group.merge : Nat → Nat → Group → Group
  | 0, _, g => g
  | fuel + 1, i, g =>
    match g.path? i with
    | none => g
    | some p =>
      if p.state != .joined then g
      else
        let ch := g.children i
        if ch = [] then
          -- every child has exited: the owner is freed and the rule applies to its parent
          let g := (g.clearLoop p.kind).setEntry i none
          match p.parent with
          | none => g
          | some j => Group.merge fuel j g
        else if !g.allWait i then g
        else
          let mem := ch.foldl (fun m n => m ||| (g.path n).member) 0
          let ex := ch.foldl (fun m n => m ||| (g.path n).exm) 0
          let keep := ch.headD 0
          let g1 := ch.foldl (fun g n => g.setEntry n none) g
          let close := fun (g : Group) =>
            let g := (g.dropEXM i).setEntry i (some { p with member := mem, exm := ex, state := .ready, kind := .none })
            -- the owner may itself stand at its join PC (R85)
            if p.join = some p.pc then
              let g := g.setPath i fun q => { q with state := .waiting }
              match p.parent with
              | none => g
              | some j => Group.merge fuel j g
            else g
          match p.kind with
          | .loop n =>
            let c := g1.loops[n]
            if 1 < c.count.toNat then
              let g2 : Group := { g1 with loops := g1.loops.set n { c with count := c.count - 1 } }
              (g2.setEntry i (some { p with member := mem, exm := ex })).addPath keep
                { pc := c.start, member := mem, exm := ex, state := .ready, join := some p.pc, parent := some i
                  notBefore := if c.len.toNat < 256 then 0 else g1.busyTo + 3 }
            else close (g1.clearLoop p.kind)
          | _ => close g1

/-- A path arrives at an address (56 bits, R242): it waits where that is its join PC, and scopes merge (R85, R86); a held path does so when
it is released. -/
def Group.goto (g : Group) (n : Nat) (a : DWord) : Group :=
  let pc := pc56 a
  match g.path? n with
  | none => g
  | some p =>
    if p.join = some pc && p.state != .held then
      let g := g.setEntry n (some { p with pc := pc, state := .waiting })
      match p.parent with
      | none => g
      | some j => (Group.merge 72 j g).refill 72
    else g.setEntry n (some { p with pc := pc })

/-- Removes lanes from a path; an empty path is freed and its scope re-examined (R86, R94). -/
def Group.removeLanes (g : Group) (n : Nat) (m : LaneMask) : Group :=
  match g.path? n with
  | none => g
  | some p =>
    let p' : Path := { p with member := p.member &&& (~~~ m), exm := p.exm &&& (~~~ m) }
    if p'.member = 0 then
      let g := g.setEntry n none
      match p.parent with
      | none => g.refill 72
      | some j => (Group.merge 72 j g).refill 72
    else g.setEntry n (some p')

end Sys2Proof.Machine
end

