-- ==== Sys2Proof/Machine/Store.lean ====
section
/-! DEFINITION. The memory system: windows (R295), translation (R333 to R337), protection (R339 to R341), the write buffer, the L1
share and the points of coherence (R297 to R302), versions (R274, R314) and uncorrectable words (R342 to R344). -/

namespace Sys2Proof.Machine

/-- The party that makes an access (R303): its partition, its team if it has one, and its version if it is versioned. A job reaches its
team's scratchpads but belongs to no team or cluster (R304). -/
structure Agent where
  part : Nat := 0
  team : Option Nat := none
  ver : Option Nat := none
  job : Bool := false
  deriving DecidableEq, Repr, Inhabited

/-- The place `k` bytes further. -/
def Place.plus (p : Place) (k : Nat) : Place :=
  match p with
  | .dev a => .dev (a + k)
  | .host a => .host (a + k)
  | .bank o => .bank (o + k)
  | .scr t o => .scr t (o + k)

/-- What an access needs of a leaf (R336). -/
inductive Acc where
  | load | store | atomic | fetch | engineRead | engineWrite
  deriving DecidableEq, Repr, Inhabited

/-- Whether an access writes. -/
def Acc.writes (k : Acc) : Bool :=
  match k with
  | .store | .atomic | .engineWrite => true
  | _ => false

/-- Why an access is refused, in the order of R169: address, alignment, protection with its reason, page with its detail. -/
inductive Refuse where
  | address (va : Nat)
  | align (va : Nat)
  | prot (reason va : Nat)
  | page (detail va : Nat)
  deriving DecidableEq, Repr, Inhabited

/-- The place of a refusal in the order of R169. -/
def Refuse.rank (r : Refuse) : Nat :=
  match r with
  | .address _ => 0
  | .align _ => 1
  | .prot _ _ => 2
  | .page _ _ => 3
/-- Cause code, detail and first faulting byte of a refusal (R322). -/
def Refuse.cause (r : Refuse) : Nat × Nat × Nat :=
  match r with
  | .address va => (0x05, 0, va)
  | .align va => (0x04, 0, va)
  | .prot d va => (0x0C, d, va)
  | .page d va => (0x0B, d, va)
/-- The earlier of two refusals in that order. -/
def Refuse.first (a b : Option Refuse) : Option Refuse :=
  match a, b with
  | none, b => b
  | a, none => a
  | some x, some y => if y.rank < x.rank then some y else some x

/-! ### Translation -/

/-- A leaf found by a walk: where the page begins, its level, its entry. -/
structure Leaf where
  base : Nat := 0
  level : Nat := 0
  entry : Nat := 0
  deriving DecidableEq, Repr, Inhabited

/-- log2 of the page size at a level (R334). -/
def pageLog (level : Nat) : Nat :=
  match level with
  | 0 => 47
  | 1 => 36
  | 2 => 25
  | _ => 14
/-- Bit of an entry. -/
def Leaf.has (l : Leaf) (k : Nat) : Bool := l.entry / 2 ^ k % 2 == 1
/-- The physical address of a virtual address of the page. -/
def Leaf.phys (l : Leaf) (va : Nat) : Nat := l.entry / 2 ^ 14 % 2 ^ 38 * 2 ^ 14 + (va - l.base)
/-- The first byte above device memory (R335). -/
def devTop : Nat := 0x1000000000

/-- Whether an entry with V = 1 is malformed at a level (R335). -/
def malformed (level e : Nat) : Bool :=
  let pa := e / 2 ^ 14 % 2 ^ 38 * 2 ^ 14
  let leaf := e / 2 % 2 == 1
  e / 2 ^ 52 != 0 || e / 2 ^ 6 % 2 ^ 8 != 0 || (leaf && level == 0) || (!leaf && level == 3)
    || (!leaf && e / 2 ^ 2 % 2 ^ 4 != 0) || (leaf && pa % 2 ^ pageLog level != 0)
    || (!leaf && decide (devTop < pa + 0x4000))
/-- Why a walk finds no leaf: the DETAIL of the PAGE cause, or a table in memory of another partition, which no walk reaches (R339; the
cause is PROT with reason 2, log entry 137). -/
inductive WalkStop where
  | page (detail : Nat)
  | foreign
  deriving DecidableEq, Repr, Inhabited
/-- The refusal of an access whose walk has stopped. -/
def WalkStop.refuse (w : WalkStop) (va : Nat) : Refuse :=
  match w with
  | .page d => .page d va
  | .foreign => .prot 2 va
/-- The walk from a table at a level (R334). `fuel` counts the levels left, `other` tells the memory of other partitions. -/
def walkFrom (dev : List Host.Cell) (other : Nat → Bool) (va : Nat) : Nat → Nat → Nat → Except WalkStop Leaf
  | 0, _, _ => .error (.page 3)
  | fuel + 1, level, table =>
    let at_ := table + 8 * (va / 2 ^ pageLog level % (if level = 0 then 512 else 2048))
    let e := leNat (Memory.bytes dev at_ 8)
    if other at_ then .error .foreign
    else if e % 2 = 0 then .error (.page level)
    else if malformed level e then .error (.page (level + 4))
    else if e / 2 % 2 = 1 then .ok { base := va / 2 ^ pageLog level * 2 ^ pageLog level, level := level, entry := e }
    else walkFrom dev other va fuel (level + 1) (e / 2 ^ 14 % 2 ^ 38 * 2 ^ 14)

/-- A register of a partition, by number and reset value. -/
def Partition.reg (p : Partition) (n : Nat) (reset : Word) : Word := lookD p.regs n reset
/-- The partition with a register set. -/
def Partition.setReg (p : Partition) (n : Nat) (v : Word) : Partition := { p with regs := put n v p.regs }
/-- A register pair that resets to 0. -/
def Partition.reg2 (p : Partition) (n : Nat) : Nat := (p.reg n 0).toNat + 2 ^ 32 * (p.reg (n + 1) 0).toNat

/-- The partitions that exist. -/
def State.existing (s : State) : List Nat := (List.range 8).filter fun p => (s.part p).state != .none
/-- Whether a physical byte lies in a partition's private ranges. -/
def Partition.ownsPhys (p : Partition) (pa : Nat) : Bool := p.priv.any fun b => decide (b.1 ≤ pa) && decide (pa < b.1 + b.2)
/-- Whether a physical byte lies in the private range of another partition (R339). -/
def State.foreign (s : State) (part pa : Nat) : Bool := s.existing.any fun q => q != part && (s.part q).ownsPhys pa
/-- The core whose TLBs serve an agent: that of its team. A job, an engine, the Atelier, the Quarry and the host have none. -/
def State.core (s : State) (ag : Agent) : Option Nat := if ag.job then none else (ag.team.bind s.team?).map (·.tile)
/-- What a TLB holds for an address of a partition, if it still holds it (R337). -/
def tlbLook (free part va : Nat) (l : List (Nat × Nat × Nat)) : Option Leaf :=
  (l.find? fun e => e.1 == part && va / 2 ^ pageLog (e.2.1 % 4) == e.2.1 / 2 ^ pageLog (e.2.1 % 4)
    && Config.tlbKeeps e.2.1 free).map fun e =>
      { base := e.2.1 / 2 ^ pageLog (e.2.1 % 4) * 2 ^ pageLog (e.2.1 % 4), level := e.2.1 % 4, entry := e.2.2 }
/-- The translation that the TLBs of a core hold: its L1 TLB, then its tile's L2 TLB. -/
def State.tlbHit (s : State) (tile part va : Nat) : Option Leaf :=
  (tlbLook s.free part va (lookD s.tlb tile [])).orElse fun _ => tlbLook s.free part va (lookD s.tlb2 tile [])
/-- The walk for an address of a partition (R334). -/
def State.walkTables (s : State) (part va : Nat) : Except WalkStop Leaf :=
  let root := (s.part part).reg2 0x879
  if devTop < root + 0x1000 then .error (.page 4) else walkFrom s.dev (s.foreign part) va 4 0 root
/-- The translation of a paged address for a core, or for a unit without a TLB (R333, R334, R337). -/
def State.translate (s : State) (core : Option Nat) (part va : Nat) : Except WalkStop Leaf :=
  match core.bind fun t => s.tlbHit t part va with
  | some l => .ok l
  | none => s.walkTables part va
/-- A TLB of a number of entries takes in a translation; a full one gives up an entry for it. -/
def tlbEnter (size free : Nat) (e : Nat × Nat × Nat) (l : List (Nat × Nat × Nat)) : List (Nat × Nat × Nat) :=
  let rest := l.filter fun x => !(x.1 == e.1 && x.2.1 == e.2.1)
  e :: (if rest.length < size then rest else rest.eraseIdx (Config.tlbVictim free % rest.length)).take (size - 1)
/-- The TLBs of a core take in the translations of the given addresses: 64 entries of the L1 TLB, 2048 of the L2 TLB. -/
def State.noteTlb (s : State) (core : Option Nat) (part : Nat) : List Nat → State
  | [] => s
  | va :: vas =>
    match core, s.translate core part va with
    | some t, .ok l =>
      let e := (part, l.base + l.level, l.entry)
      State.noteTlb { s with tlb := put t (tlbEnter 64 s.free e (lookD s.tlb t [])) s.tlb
                             tlb2 := put t (tlbEnter 2048 s.free e (lookD s.tlb2 t [])) s.tlb2 } core part vas
    | _, _ => s.noteTlb core part vas

/-! ### Windows and protection -/

/-- The first byte of each window (R295). -/
def bankBase : Nat := 0xFE000000000000
/-- End of the shared-bank window. -/
def bankEnd : Nat := bankBase + 0x1800000
/-- The team scratchpad window. -/
def scrBase : Nat := 0xFF000000000000
/-- The cluster window. -/
def cluBase : Nat := 0xFF000100000000
/-- Distance of two members' scratchpads in the cluster window. -/
def memberStride : Nat := 0x100000

/-- Teams of one cluster of one grid. -/
def State.clusterTeams (s : State) (t : Team) : List Team :=
  s.teams.filter fun x => x.part == t.part && x.task == t.task && x.cluster == t.cluster
/-- The member team of a cluster, saved ones included. -/
def State.member? (s : State) (t : Team) (m : Nat) : Option Team :=
  ((s.clusterTeams t) ++ (s.saved.map (·.team)).filter fun x => x.part == t.part && x.task == t.task && x.cluster == t.cluster).find? (·.member == m)
/-- Members of a team's cluster, as its task's record has them (R235). -/
def State.membersOf (s : State) (t : Team) : Nat := (((s.part t.part).task? t.task).map (·.record.members)).getD 1
/-- The team, resident or saved, of an id. -/
def State.holder? (s : State) (id : Nat) : Option Team := (s.team? id).orElse fun _ => (s.saved.map (·.team)).find? (·.id == id)
/-- Whether a partition's bank regions hold an interleave unit (R438). -/
def Partition.ownsBank (p : Partition) (o : Nat) : Bool := p.banks.any fun b => decide (b.1 ≤ o / 4096) && decide (o / 4096 < b.1 + b.2)
/-- Whether an export window of a partition holds a physical byte. -/
def Partition.exported (p : Partition) (host : Bool) (pa : Nat) : Bool :=
  p.exports.any fun b => b.2.2 == host && decide (b.1 ≤ pa) && decide (pa < b.1 + b.2.1)
/-- Whether a physical byte is sealed content (R341). -/
def State.sealedPhys (s : State) (pa : Nat) : Bool := s.existing.any fun q => (s.part q).isSealed && (s.part q).ownsPhys pa

/-- Protection of one paged byte by its leaf (R336, R340, R341): the reason of a refusal. -/
def State.protect (s : State) (ag : Agent) (l : Leaf) (va : Nat) (k : Acc) : Option Nat :=
  let h := l.has 5
  let pa := l.phys va
  let r := l.has 2
  let w := l.has 3
  let lacks := match k with
    | .load => !r
    | .store => !w
    | .atomic => !(r && w) || h
    | .fetch => !l.has 4 || h
    | .engineRead => !r || h
    | .engineWrite => !w || h
  let p := s.part ag.part
  if lacks then some 0
  else if !h && (decide (devTop ≤ pa) || s.foreign ag.part pa) then some 2
  else if k.writes && p.isSealed && !((!h && p.ownsPhys pa) || p.exported h pa) then some 4
  else none

/-- The place of one byte, or why the access is refused there. -/
def State.locate (s : State) (ag : Agent) (k : Acc) (va : Nat) : Except Refuse Place :=
  if va < bankBase then
    match s.translate (s.core ag) ag.part va with
    | .error w => .error (w.refuse va)
    | .ok l =>
      match s.protect ag l va k with
      | some d => .error (.prot d va)
      | none => .ok (if l.has 5 then .host (l.phys va) else .dev (l.phys va))
  else if k = .fetch then (if va < 2 ^ 56 then .error (.prot 0 va) else .error (.address va))
  else if va < scrBase then
    if va < bankEnd then
      if (s.part ag.part).ownsBank (va - bankBase) then .ok (.bank (va - bankBase)) else .error (.prot 2 va)
    else .error (.address va)
  else
    match ag.team.bind s.team? with
    | none => .error (.address va)
    | some t =>
      if va < cluBase then
        if va - scrBase < t.scr * 1024 then .ok (.scr t.id (va - scrBase)) else .error (.address va)
      else if 2 ^ 56 ≤ va then .error (.address va)
      else
        let m := (va - cluBase) / memberStride
        let o := (va - cluBase) % memberStride
        match s.member? t m with
        | some u => if o < u.scr * 1024 then .ok (.scr u.id o) else .error (.address va)
        -- a member that has ended: no team has this number (log entry 136)
        | none => if m < s.membersOf t && decide (o < t.scr * 1024) then .ok (.scr s.teamNum o) else .error (.address va)

/-- The window an address lies in: paged, bank, team scratchpad, cluster, none. -/
def windowOf (va : Nat) : Nat :=
  if va < bankBase then 0 else if va < bankEnd then 1 else if va < scrBase then 4
  else if va < cluBase then 2 else if va < 2 ^ 56 then 3 else 4

/-- The pieces of an access, one per aligned unit of 2^log bytes that it touches: address and length. -/
def piecesOf (log va n : Nat) : List (Nat × Nat) :=
  if n = 0 then []
  else
    (List.range ((va + n - 1) / 2 ^ log + 1 - va / 2 ^ log)).map fun i =>
      let lo := max va ((va / 2 ^ log + i) * 2 ^ log)
      let hi := min (va + n) ((va / 2 ^ log + i + 1) * 2 ^ log)
      (lo, hi - lo)
/-- The pieces in which every byte meets the same checks: no page, bank unit, scratchpad or window ends within 1 KiB. -/
def pieces (va n : Nat) : List (Nat × Nat) := piecesOf 10 va n

/-- Whether one access of `n` bytes is refused, and for what first cause (R169), with its first faulting byte. `need` is the alignment it
must have. -/
def State.refusal (s : State) (ag : Agent) (k : Acc) (va n need : Nat) : Option Refuse :=
  (pieces va n).foldl (fun r a => Refuse.first r (match s.locate ag k a.1 with
    | .error e => some e
    | .ok _ => none)) (if need ≠ 0 && va % need ≠ 0 then some (.align va) else none)

/-- The bytes of an accepted access as places, piece by piece. -/
def State.places (s : State) (ag : Agent) (k : Acc) (va n : Nat) : List (Place × Nat) :=
  (pieces va n).filterMap fun (a, l) =>
    match s.locate ag k a with
    | .ok p => some (p, l)
    | .error _ => none

/-! ### Uncorrectable words (R342 to R344) -/

/-- Whether the protection word at an address of a store is uncorrectable. -/
def State.struck (s : State) (kind tile addr : Nat) : Bool :=
  s.errors.any fun e => e.double && e.kind == kind && e.tile == tile && e.addr == addr
/-- The state without the errors of one protection word. -/
def State.unstrike (s : State) (kind tile addr : Nat) : State :=
  { s with errors := s.errors.filter fun e => !(e.kind == kind && e.tile == tile && e.addr == addr) }
/-- The state without the errors of `n` protection words of a storage from one on: they have been written afresh (R342). -/
def State.sound (s : State) (kind tile lo n : Nat) : State :=
  if s.errors.isEmpty then s
  else { s with errors := s.errors.filter fun e => !(e.kind == kind && e.tile == tile && decide (lo ≤ e.addr) && decide (e.addr < lo + n)) }
/-- An entry of `n` protection words leaves a queue whose words go from `lo` to `hi`: those behind it move up. -/
def State.moveUp (s : State) (kind tile lo n hi : Nat) : State :=
  let s := s.sound kind tile lo n
  if s.errors.isEmpty then s
  else { s with errors := s.errors.map fun e =>
    if e.kind == kind && e.tile == tile && decide (lo + n ≤ e.addr) && decide (e.addr < hi) then { e with addr := e.addr - n } else e }
/-- UECNT counts a word (R344). -/
def State.countUe (s : State) (part : Nat) : State :=
  s.setPart part fun p => p.setReg 0x87E (satAdd (p.reg 0x87E 0) 1)
/-- An MSI-X vector of a function is raised (R435); function 0 is PF 0, function p + 1 serves partition p. -/
def State.msi (s : State) (fn vec : Nat) : State := { s with msix := s.msix ++ [(fn, vec)] }
/-- Entries of the fault queue (R331). -/
def Partition.fqSize (p : Partition) : Nat := 2 ^ bits (p.reg 0x872 6) 0 5
/-- How many more records fit into the fault queue; none without a base (R328, R332). -/
def Partition.fqRoom (p : Partition) : Nat :=
  if p.reg2 0x870 = 0 then 0 else p.fqSize - (p.reg 0x873 0 - p.reg 0x874 0).toNat
/-- A cause joins the partition's causes that are to be written; one that must wait for room is counted, and without a queue the fault
vector is raised once (R328, R332). -/
def State.pushCause (s : State) (part : Nat) (fc : FaultCause) : State :=
  let p := s.part part
  let waits := decide (p.fqRoom ≤ p.faults.length)
  if 8 ≤ part then s else
  let first := p.reg2 0x870 == 0 && !p.vectorRaisedNoQueue
  let s1 := s.setPart part fun p =>
    let p := if waits then p.setReg 0x876 (setBits (p.reg 0x876 0) 16 16 (min (bits (p.reg 0x876 0) 16 16 + 1) 0xFFFF)) else p
    { p with faults := p.faults ++ [fc], vectorRaisedNoQueue := p.vectorRaisedNoQueue || first }
  if first then s1.msi (part + 1) 1 else s1
/-- An uncorrectable word met without an instruction to charge (R344). -/
def State.unattributed (s : State) (part kind paddr tile task : Nat) (write : Bool := false) : State :=
  (s.countUe part).pushCause part {
    cause := BitVec.ofNat 32 (0x0D + kind * 2 ^ 16), task := BitVec.toNat (BitVec.ofNat 32 task), tile := tile, unattr := true, write := write,
    paddr := BitVec.ofNat 64 paddr }
/-- The home slice of a physical byte of device memory, and the bank that holds an offset of the shared-bank window (R296). -/
def homeOf (pa : Nat) : Nat := pa / 128 % 96
/-- The bank of a window offset. -/
def bankOf (o : Nat) : Nat := o / 4096 % 96
/-- The byte of that bank. -/
def bankByte (o : Nat) : Nat := o / 4096 / 96 * 4096 + o % 4096
/-- No protection word of the device holds a place: host memory, the scratchpad of a team that is on no core. -/
def noWord : Nat × Nat × Nat := (0x7F, 0, 0)
/-- Kind, tile and address of the protection word that holds a place (R342). -/
def State.wordOf (s : State) (p : Place) : Nat × Nat × Nat :=
  match p with
  | .dev a => (4, homeOf a, a / 8 * 8)
  | .bank o => (5, bankOf o, bankByte o / 8 * 8)
  | .scr t o => match s.team? t with
    | some x => (2, x.tile, x.ctx * 2 ^ 20 + o / 8 * 8)
    | none => noWord
  | .host _ => noWord
/-- Whether the word that holds a place is uncorrectable at its point of coherence. -/
def State.poisoned (s : State) (p : Place) : Bool :=
  let w := s.wordOf p
  s.struck w.1 w.2.1 w.2.2

/-! ### Points of coherence -/

/-- A version of a partition. -/
def State.version? (s : State) (part num : Nat) : Option Version := (s.part part).versions.find? (·.num == num)
/-- The state with a version changed. -/
def State.setVersion (s : State) (part num : Nat) (f : Version → Version) : State :=
  s.setPart part fun p => { p with versions := p.versions.map fun v => if v.num = num then f v else v }
/-- A byte as an agent reads it at its point of coherence; a versioned agent sees its own version (R314). -/
def State.readByte (s : State) (ag : Agent) (p : Place) : Byte :=
  match p with
  | .dev a => match ag.ver.bind fun n => (s.version? ag.part n).bind fun v => look a v.bytes with
    | some b => b
    | none => Memory.get s.dev a
  | .host a => Memory.get s.host a
  | .bank o => Memory.get s.bank o
  | .scr t o => match s.holder? t with
    | some x => Memory.get x.scratch o
    | none => Config.goneByte s.free o
/-- The copies in the L1 shares of an agent's cluster after a write of one byte at the slice (R300): the writer's own copy is
updated, the others are dropped. -/
def State.snoop (s : State) (ag : Agent) (pa : Nat) (b : Byte) : State :=
  match if ag.job then none else ag.team.bind s.team? with
  | none => s
  | some t => { s with teams := s.teams.map fun x =>
      if x.part = t.part ∧ x.task = t.task ∧ x.cluster = t.cluster then
        if x.id = t.id then { x with l1 := x.l1.map fun e => if e.1 = pa / 128 then (e.1, e.2.set (pa % 128) b) else e }
        else { x with l1 := drop (pa / 128) x.l1 }
      else x }
/-- Writes one byte at its point of coherence. -/
def State.writeByte (s : State) (ag : Agent) (p : Place) (b : Byte) : State :=
  match p with
  | .dev a =>
    let s := match ag.ver with
      | some n => s.setVersion ag.part n fun v =>
          { v with bytes := put a b v.bytes, lines := if v.lines.contains (a / 128) then v.lines else v.lines ++ [a / 128] }
      | none => { s with dev := Memory.set s.dev a b }
    s.snoop ag a b
  | .host a => { s with host := Memory.set s.host a b }
  | .bank o => { s with bank := Memory.set s.bank o b }
  | .scr t o =>
    let f := fun (x : Team) => { x with scratch := Memory.set x.scratch o b }
    if (s.team? t).isSome then s.setTeam t f
    else { s with saved := s.saved.map fun (v : Saved) => if v.team.id = t then { v with team := f v.team } else v }
/-- Writes bytes from a place up, byte by byte. -/
def State.writeBytes (s : State) (ag : Agent) (p : Place) : List Byte → State
  | [] => s
  | b :: bs => State.writeBytes (s.writeByte ag p b) ag (p.plus 1) bs
/-- Reads `n` bytes from a place up. -/
def State.readBytes (s : State) (ag : Agent) (p : Place) : Nat → List Byte
  | 0 => []
  | n + 1 => s.readByte ag p :: State.readBytes s ag (p.plus 1) n
/-- The protection words that bytes from a place up lie in: the first place of each, and whether the bytes cover it whole. -/
def wordsOf (p : Place) (n : Nat) : List (Place × Bool) :=
  let a := match p with
    | .dev a => a
    | .host a => a
    | .bank o => o
    | .scr _ o => o
  if n = 0 then [] else
  (List.range ((a + n - 1) / 8 + 1 - a / 8)).map fun i =>
    let w := a / 8 * 8 + 8 * i
    ((match p with
      | .dev _ => Place.dev w
      | .host _ => .host w
      | .bank _ => .bank w
      | .scr t _ => .scr t w), decide (a ≤ w) && decide (w + 8 ≤ a + n))
/-- The physical address of device memory that a record names (R327). -/
def Place.paddr (p : Place) : Nat :=
  match p with
  | .dev a => a
  | _ => 0
/-- The lines that bytes of device memory touch. -/
def linesOf (pa n : Nat) : List Nat := if n = 0 then [] else (List.range ((pa + n - 1) / 128 + 1 - pa / 128)).map (pa / 128 + ·)
/-- Patrol hears of a write of the lines it has read (R428); a version's lines are not written at the controller (R301). -/
def State.notePatrol (s : State) (ag : Agent) (p : Place) (n : Nat) : State :=
  match p, ag.ver with
  | .dev a, none => { s with patrolRead := s.patrolRead.map fun x => (x.1, x.2.1, x.2.2 || (linesOf a n).contains x.2.1) }
  | _, _ => s
/-- What a write of `n` bytes from a place up does to the protection words there: whole words lose their poisoning, the team's L1 copy with
them, a partial store into a poisoned word is reported without an instruction to charge (R344). -/
def State.overwritten (s : State) (ag : Agent) (p : Place) (n : Nat) : State :=
  if s.errors.isEmpty then s else
  let s := s.notePatrol ag p n
  let t := if ag.job then none else ag.team.bind s.team?
  (wordsOf p n).foldl (fun s w =>
    let s := match w, t with
      | (.dev a, true), some t => s.unstrike 3 t.tile (t.ctx * 2 ^ 40 + a)
      | _, _ => s
    let k := s.wordOf w.1
    if w.2 then (s.unstrike k.1 k.2.1 k.2.2).unstrike k.1 0x7F k.2.2
    else if s.poisoned w.1 then s.unattributed ag.part k.1 w.1.paddr ((t.map (·.tile)).getD 0x7F) ((t.map (·.task)).getD 0) true
    else s) s
/-- A write at the point of coherence. -/
def State.performWrite (s : State) (ag : Agent) (p : Place) (bs : List Byte) : State :=
  (s.overwritten ag p bs.length).writeBytes ag p bs

/-! ### The write buffer and the L1 share (R297, R298) -/

/-- The agent that a team's accesses belong to. -/
def State.teamAgent (s : State) (t : Team) : Agent :=
  { part := t.part, team := some t.id, ver := ((s.part t.part).task? t.task).bind fun k => if k.versioned then k.version else none }
/-- The agent of a group. -/
def State.groupAgent (s : State) (g : Group) : Agent := s.teamAgent { s.team g.team with id := g.team, part := g.part, task := g.task }
/-- Performs bytes of device memory, each at its address. -/
def State.performCells (s : State) (ag : Agent) : List Host.Cell → State
  | [] => s
  | c :: cs => State.performCells (s.performWrite ag (.dev c.1) [c.2]) ag cs
/-- Joins consecutive cells into runs. -/
def runsOf : List Host.Cell → List (Nat × List Byte)
  | [] => []
  | c :: cs => match runsOf cs with
    | (a, bs) :: rs => if a = c.1 + 1 then (c.1, c.2 :: bs) :: rs else (c.1, [c.2]) :: (a, bs) :: rs
    | [] => [(c.1, [c.2])]
/-- One entry of a team's write buffer drains to the home slice. -/
def State.drainEntry (s : State) (team : Nat) (line : Nat) : State :=
  match (s.team team).wbuf.find? (·.line == line) with
  | none => s
  | some e =>
    let ag := s.teamAgent (s.team team)
    let s := s.setTeam team fun t => { t with wbuf := t.wbuf.filter (·.line != line) }
    (runsOf e.bytes).foldl (fun s r => s.performWrite ag (.dev r.1) r.2) s
/-- All entries of a team's write buffer drain, oldest first. -/
def State.drainAll (s : State) (team : Nat) : State :=
  ((s.team team).wbuf.map (·.line)).foldl (fun s l => s.drainEntry team l) s
/-- A strong access of a team to device memory: its buffered lines drain and its L1 copies are dropped (R297, R298). -/
def State.strongTouch (s : State) (team : Option Nat) (p : Place) (n : Nat) : State :=
  match p, team with
  | .dev pa, some t => (linesOf pa n).foldl (fun s l => (s.drainEntry t l).setTeam t fun x => { x with l1 := drop l x.l1 }) s
  | _, _ => s
/-- The L1 copy of a line, if the team's share still holds it. -/
def State.l1Copy (s : State) (team line : Nat) : Option (List Byte) :=
  (look line (s.team team).l1).bind fun bs => if Config.l1Keeps line s.free then some bs else none
/-- The weak read of one byte of device memory by a team: write buffer, L1 copy, home slice (R297, R298). -/
def State.weakByte (s : State) (ag : Agent) (team pa : Nat) : Byte :=
  match ((s.team team).wbuf.find? (·.line == pa / 128)).bind fun e => look pa e.bytes with
  | some b => b
  | none => match s.l1Copy team (pa / 128) with
    | some bs => bs.getD (pa % 128) 0
    | none => s.readByte ag (.dev pa)
/-- A list without one entry, which a free value picks. -/
def victim {β : Type} (free : Nat) (l : List β) : List β := l.eraseIdx (Config.l1Victim free % l.length)
/-- An L1 share of a number of lines gives up what it has no room for. -/
def shrink {β : Type} (room free : Nat) : Nat → List β → List β
  | 0, l => l.take room
  | n + 1, l => if l.length ≤ room then l else shrink room (free + 1) n (victim free l)
/-- Lines of a team's L1 share: 384 KiB less the scratchpads on its core, shared by the teams there (R265), less the lines its groups'
spill areas hold (R246). -/
def State.l1Room (s : State) (t : Team) : Nat :=
  let on := s.teams.filter (·.tile == t.tile)
  let spilt := ((s.allGroups.filter (·.team == t.id)).map fun g =>
    ((List.range 16).filter fun l => (List.range 4).any fun k => (g.path? (8 + 4 * l + k)).isSome).length).sum
  (384 - (on.map (·.scr)).sum) * 8 / max 1 on.length - spilt
/-- The L1 lines that the groups' spill areas have taken since the share was last used are evicted, and the share keeps what it has room
for (R246, R265). -/
def State.settleShare (s : State) (team : Nat) : State :=
  let t := s.team team
  let gs := s.allGroups.filter (·.team == team)
  let taken := (gs.map fun g => g.lines - lookD t.linesSeen g.seq 0).sum
  let l1 := shrink (s.l1Room t) s.free t.l1.length ((List.range taken).foldl (fun l k => victim (s.free + k) l) t.l1)
  if taken = 0 && l1.length = t.l1.length then s
  else s.setTeam team fun t => { t with l1 := l1, linesSeen := gs.map fun g => (g.seq, g.lines) }
/-- A line comes into an L1 share with the poisoning of its words (R342, R343). -/
def State.markFill (s : State) (t : Team) (line : Nat) : State :=
  if s.errors.isEmpty then s else
  let key := fun k => t.ctx * 2 ^ 40 + line * 128 + 8 * k
  let bad := (List.range 16).filter fun k => s.poisoned (.dev (line * 128 + 8 * k))
  { s with errors := (s.errors.filter fun e => !(e.kind == 3 && e.tile == t.tile && (List.range 16).any fun k => e.addr == key k))
      ++ bad.map fun k => { kind := 3, tile := t.tile, addr := key k, double := true } }
/-- A weak read fills the lines it missed (R297). -/
def State.fill (s : State) (ag : Agent) (team line : Nat) : State :=
  match s.l1Copy team line with
  | some _ => s
  | none =>
    let t := s.team team
    let rest := drop line t.l1
    let kept := if rest.length < s.l1Room t then rest else victim s.free rest
    (s.setTeam team fun t => { t with l1 := put line (s.readBytes ag (.dev (line * 128)) 128) kept }).markFill t line
/-- A weak store of one byte into the write buffer (R298). -/
def State.bufferByte (s : State) (team seq pa : Nat) (b : Byte) : State :=
  let t := s.team team
  let line := pa / 128
  if t.wbuf.any (·.line == line) then
    s.setTeam team fun t => { t with wbuf := t.wbuf.map fun e => if e.line = line then
      { e with bytes := put pa b e.bytes, writers := if e.writers.contains seq then e.writers else e.writers ++ [seq] } else e }
  else
    let s := if 16 ≤ t.wbuf.length then s.drainEntry team ((t.wbuf.head?.map (·.line)).getD 0) else s
    s.setTeam team fun t => { t with wbuf := t.wbuf ++ [{ line := line, bytes := [(pa, b)], since := s.now, writers := [seq] }] }
/-- A release of the issuing group at a scope (R305): from cluster scope on the team's buffer drains. -/
def State.release (s : State) (scope : Nat) : State := if 2 ≤ scope then s.drainAll s.me.team else s
/-- An acquire of the issuing group at a scope (R306): from device scope on the team's L1 share is dropped. -/
def State.acquire (s : State) (scope : Nat) : State := if 3 ≤ scope then s.setMyTeam fun t => { t with l1 := [] } else s

/-! ### Accesses of a group (R167 to R170) -/

/-- One access of a lane: its address and the bytes it stores, or the number it loads; once it is accepted, its pieces. -/
structure Access where
  lane : Nat
  va : Nat
  size : Nat
  data : List Byte := []
  at_ : List (Place × Nat) := []
  deriving DecidableEq, Repr, Inhabited

/-- Accesses with their pieces, all of them translated before any access is performed (R169). -/
def State.placed (s : State) (ag : Agent) (k : Acc) (as : List Access) : List Access := as.map fun a => { a with at_ := s.places ag k a.va a.size }
/-- The refusal an instruction takes for its accesses (R169): the first cause in the order, its lanes, the record's address. -/
def State.firstRefusal (s : State) (ag : Agent) (k : Acc) (need : Nat) (as : List Access) : Option (Refuse × LaneMask) :=
  let rs := as.filterMap fun a => (s.refusal ag k a.va a.size need).map fun r => (a.lane, r)
  match rs.foldl (fun b r => Refuse.first b (some r.2)) none with
  | none => none
  | some r =>
    let same := rs.filter fun x => x.2.rank == r.rank
    some ((same.headD (0, r)).2, maskOf fun k => same.any fun x => x.1 == k)
/-- Whether a team's write buffer gives every byte that an access takes from a word (R298). -/
def State.bufferGives (s : State) (team w pa n : Nat) : Bool :=
  (List.range 8).all fun i => decide (w + i < pa) || decide (pa + n ≤ w + i)
    || (((s.team team).wbuf.find? (·.line == w / 128)).bind fun e => look (w + i) e.bytes).isSome
/-- The lanes that would receive an uncorrectable word, with the word's kind, tile, address and physical address (R343). -/
def State.poisonOf (s : State) (ag : Agent) (weak : Bool) (as : List Access) : Option (Nat × Nat × Nat × LaneMask) :=
  if s.errors.isEmpty then none else
  let team := ag.team.getD 0
  let hit := fun (a : Access) => a.at_.findSome? fun (p, n) =>
    (wordsOf p n).findSome? fun w =>
      match w.1, p with
      | .dev wa, .dev pa =>
        if weak && s.bufferGives team wa pa n then none
        else if weak && (s.l1Copy team (wa / 128)).isSome then
          (if s.struck 3 (s.team team).tile ((s.team team).ctx * 2 ^ 40 + wa) then some (3, (s.team team).ctx * 2 ^ 40 + wa, wa) else none)
        else if s.poisoned w.1 then some (4, wa, wa) else none
      | q, _ => if s.poisoned q then some ((s.wordOf q).1, (s.wordOf q).2.2, 0) else none
  match as.findSome? hit with
  | none => none
  | some (kind, addr, pa) => some (kind, addr, pa, maskOf fun l => as.any fun a => a.lane == l && (hit a).isSome)
/-- What goes before the accesses of an instruction: a strong one drains and drops the lines it names, a weak one finds the share as the
groups' spill areas have left it (R246, R297, R298). -/
def State.before (s : State) (ag : Agent) (strong : Bool) (as : List Access) : State :=
  if strong then as.foldl (fun s a => a.at_.foldl (fun s x => s.strongTouch ag.team x.1 x.2) s) s else s.settleShare (ag.team.getD 0)
/-- The load of one accepted access: its bytes and the state after it. -/
def State.loadAccess (s : State) (ag : Agent) (strong : Bool) (a : Access) : List Byte × State :=
  a.at_.foldl (fun (r : List Byte × State) (p, n) =>
    let s := r.2
    match p, ag.team with
    | .dev pa, some t =>
      if strong then
        let s := s.strongTouch ag.team p n
        (r.1 ++ s.readBytes ag p n, s)
      else
        let bs := (List.range n).map fun i => s.weakByte ag t (pa + i)
        (r.1 ++ bs, (linesOf pa n).foldl (fun s l => s.fill ag t l) s)
    | p, _ => (r.1 ++ s.readBytes ag p n, s)) ([], s)
/-- The store of one accepted access. -/
def State.storeAccess (s : State) (ag : Agent) (seq : Nat) (strong : Bool) (a : Access) : State :=
  (a.at_.foldl (fun (r : List Byte × State) (p, n) =>
    let s := r.2
    let bs := r.1.take n
    let rest := r.1.drop n
    match p, ag.team, strong with
    | .dev pa, some t, false =>
      (rest, ((List.range n).foldl (fun s i => s.bufferByte t seq (pa + i) (bs.getD i 0)) s))
    | p, _, _ => (rest, (s.strongTouch ag.team p n).performWrite ag p bs)) (a.data, s)).2
/-- Whether two lines fall into one set of one L2 slice (R296, R301; the set index is DEDUCED, log entry 11). -/
def sameSet (l m : Nat) : Bool := l % 96 == m % 96 && l / 96 % 256 == m / 96 % 256
/-- The lines that the teams of a versioned task still buffer. -/
def State.versionBuffered (s : State) (part : Nat) (v : Version) : List Nat :=
  (s.teams.filter fun t => t.part == part && t.task == v.task).flatMap fun t => t.wbuf.filterMap fun e => if e.host then none else some e.line
/-- Whether a versioned agent may write the lines of its accesses now: its version's lines, those its teams still buffer and the new
ones stay within the quota of 1024, and every set within its 8 version ways (R274, R276, R301). -/
def State.versionRoom (s : State) (ag : Agent) (as : List Access) : Bool :=
  match ag.ver.bind (s.version? ag.part) with
  | none => true
  | some v =>
    let lines := as.flatMap fun a => a.at_.flatMap fun (p, n) => match p with
      | .dev pa => linesOf pa n
      | _ => []
    let mine := (v.lines ++ s.versionBuffered ag.part v ++ lines).eraseDups
    let others := (List.range 8).flatMap fun q => ((s.part q).versions.filter fun x => !(q == ag.part && x.num == v.num)).flatMap fun x =>
      (x.lines ++ s.versionBuffered q x).eraseDups
    decide (mine.length ≤ 1024)
      && (mine.filter fun l => !v.lines.contains l).all fun l => decide ((mine.filter (sameSet l)).length + (others.filter (sameSet l)).length ≤ 8)
/-- The pages of accesses, for the TLBs. -/
def pagesOf (as : List Access) : List Nat := as.flatMap fun a => (pieces a.va a.size).map (·.1)

end Sys2Proof.Machine
end

