-- ==== Sys2Proof/Machine/Ops.lean ====
section
/-! DEFINITION. Completing an instruction, killing a task, taking an exception (R319, R324, R345, R346), the end of groups and teams,
rows. -/

namespace Sys2Proof.Machine

/-! ### Completing an instruction (R29, R81, R85, R238 to R241) -/

/-- Cycles of the w field (R29). -/
def stallOf (w : BitVec 2) : Nat :=
  match w.toNat with
  | 0 => 0
  | 1 => 2
  | 2 => 4
  | _ => 8

/-- How an instruction completes: its beats, its stall count, the address that follows, and whether control was transferred. -/
structure Done where
  beats : Nat := 1
  extra : Nat := 0
  stall : Nat := 0
  target : Option DWord := none
  moved : Bool := false

/-- Whether the other ready paths of the group have issued since a YIELD (R95). -/
def Group.noteIssue (g : Group) : Group :=
  { g with paths := g.paths.map fun (q : Option Path) => q.map fun (q : Path) => { q with yields := q.yields.filter (· != g.cur) } }

/-- The pipe is busy for the beats, the stall count follows, and the group has issued (R29, R238 to R241). -/
def State.charge (s : State) (d : Done) : State :=
  let cyc := d.beats + d.extra
  s.withMe fun g => { g.noteIssue with
    busyFrom := s.now, busyTo := s.now + cyc - 1, busyPath := g.cur, busyPc := (g.path g.cur).pc,
    clk := s.now + cyc + d.stall, stallUntil := s.now + cyc + d.stall, fetchUntil := 0,
    turn := true, yielded := false, rowWait := false, last := g.cur, spillsRead := [],
    pending := settle s.now g.pending }
/-- The beats of a completed instruction count (R276), the first beat of a BLOCK instruction with them (R238); a debug step is
over (R419). -/
def State.count (s : State) (d : Done) : State :=
  let b := if s.path.wait.isSome && s.path.wait != some .quota then d.beats + 1 else d.beats
  let s := s.setPath fun p => { p with wait := none, holdAsked := if p.stepping then some 3 else p.holdAsked, stepping := false }
  s.setMyTeam fun t => { t with beats := t.beats + b, lastBeat := s.now, ran := true }
/-- Completes the instruction of the issuing path: charges it and moves the path on (R85). -/
def State.retire (s : State) (d : Done) : State :=
  let next := d.target.getD (s.pc + 4)
  let s1 := (s.count d).charge d
  let s2 := if d.moved then s1.setPath fun p => { p with notBefore := s.now + d.beats + d.extra + 2 } else s1
  s2.withMe fun g => (g.goto g.cur next).refill 72

/-- The issuing path waits in its BLOCK instruction: it takes its beat and the pipe frees (R238, R189). One that waited already, and finds
its unit taken again, looks once more in the next cycle. -/
def State.block (s : State) (w : Wait) : State :=
  match s.path.wait with
  | some w' => s.setPath fun p => { p with wait := some w, retryAt := if w' = w then s.now + 1 else p.retryAt }
  | none => ((s.setPath fun p => { p with wait := some w, waitSince := s.now, probedAt := none }).charge {}).withMe fun g => g.refill 72

/-! ### Records of the trace core -/

/-- A trace record of a group and path (R411, R416); a spilled path is named by the table index it had last (R410, log entry 133). -/
def State.traceRecord (s : State) (g : Group) (path : Nat) (kind : Nat) (pc : DWord) (id : Nat) (progress killed : Bool) (cause : Nat) : TraceRec :=
  let p := g.path path
  let index := if path < 8 then path else p.index
  let part := s.part g.part
  let sealedOff := part.isSealed && !(!part.filterHost && part.filter != [])
  let flags := (if progress then 8 else 0) + (if killed then 4 else 0) + (if p.parked.isSome || p.causeWaits then 2 else 0) + (if sealedOff then 1 else 0)
  { group := g.seq
    bytes := leBytes 4 part.traceSeq.toNat ++ [BitVec.ofNat 8 g.tile, BitVec.ofNat 8 (g.pipe / 8 * 64 + g.pipe % 8 * 8 + index % 8),
        BitVec.ofNat 8 g.index, BitVec.ofNat 8 kind] ++ leBytes 8 (if sealedOff then 0 else pc.toNat)
      ++ leBytes 8 (if sealedOff then 0 else p.member.toNat) ++ leBytes 4 (if sealedOff then 0 else g.task) ++ leBytes 2 id
      ++ [BitVec.ofNat 8 flags, BitVec.ofNat 8 cause] }
/-- A halt record enters the trace core (R412); without a ring it is counted in TRDROP.OUT (R332). -/
def State.haltRecord (s : State) (g : Group) (path id : Nat) (killed : Bool) (cause : Nat) : State :=
  let r := s.traceRecord g path 2 (g.path path).pc id false killed cause
  s.setPart g.part fun p =>
    let p := { p with traceSeq := p.traceSeq + 1 }
    if p.reg2 0x903 = 0 then p.setReg 0x908 (setBits (p.reg 0x908 0) 0 16 (min (bits (p.reg 0x908 0) 0 16 + 1) 0xFFFF))
    else { p with halts := p.halts ++ [r] }

/-! ### Tile buffers, the dependence unit and eligibility (R268 to R272) -/

/-- Address of the descriptor of a tile buffer, if a table is set (R332). -/
def Partition.febBase (p : Partition) (k : Nat) : Option Nat :=
  let b := p.reg2 0x857
  if b = 0 then none else some (b + 16 * k)
/-- Offset in the shared banks of the word that holds FULL and WHEAD, if the partition owns it. -/
def Partition.febWord (p : Partition) (k : Nat) : Option Nat :=
  (p.febBase k).bind fun a =>
    if bankBase ≤ a && decide (a + 16 ≤ bankEnd) && p.ownsBank (a + 8 - bankBase) then some (a + 12 - bankBase) else none
/-- Whether a tile buffer is full. -/
def State.febFull (s : State) (part k : Nat) : Bool :=
  match (s.part part).febWord k with
  | some o => Memory.get s.bank (o + 3) >= 0x80
  | none => false

/-- Whether a submission may start: it has entered and every edge is resolved. -/
def Partition.depClear (p : Partition) (num : Nat) : Bool :=
  !(p.depHold.any (·.num == num)) && !(p.dep.any fun y => y.num == num && !y.edges.isEmpty)

/-- Whether a task's buffers and edges let it start. -/
def State.mayStart (s : State) (k : Task) : Bool :=
  let p := s.part k.part
  k.inputs.all (s.febFull k.part) && k.outputs.all (fun b => !s.febFull k.part b)
    && (p.dep ++ p.depHold).all fun y => y.task != some k.id || p.depClear y.num
/-- Evaluates the eligibility of a partition's tasks that are not dispatched. -/
def State.review (s : State) (part : Nat) : State :=
  let f := fun (k : Task) =>
    match k.status with
    | .queued => if s.mayStart k then { k with status := .eligible, since := s.now, boost := 0, headSince := none, holds := false } else k
    | .eligible => if s.mayStart k then k else { k with status := .queued, holds := false }
    | _ => k
  s.setPart part fun p => { p with tasks := p.tasks.map f }
/-- Takes a submission out of the dependence unit (R272). -/
def Partition.leaveDep (p : Partition) (num : Nat) : Partition :=
  let clean := fun (l : List Submission) => (l.filter (·.num != num)).map fun y => { y with edges := y.edges.filter (· != num) }
  { p with dep := clean p.dep, depHold := clean p.depHold }
/-- A submission leaves the unit and its dependents may start (R272). -/
def State.leaveUnit (s : State) (part num : Nat) : State := (s.setPart part fun p => p.leaveDep num).review part

/-! ### Chains, futures and waiting requests -/

/-- Whether a job of the chain runs. -/
def Chain.busy (c : Chain) : Bool :=
  match c.pos with
  | .running _ => true
  | _ => false
/-- The chain of a cancelled future: one whose job runs stops when the job ends, any other leaves its queue (R209, R210, R357). -/
def State.cancelChain (s : State) (team future : Nat) : State :=
  let mine := fun (c : Chain) => c.team == team && c.future == future
  let subs := s.engines.toList.flatMap fun e => e.chains.filterMap fun c =>
    if mine c then (match c.pos with | .entered n => some (c.part, n) | _ => none) else none
  let keep := fun (c : Chain) =>
    if mine c then (if c.busy then some { c with cancel := true } else none) else some c
  let s := { s with engines := s.engines.map fun (e : Engine) => { e with chains := e.chains.filterMap keep } }
  subs.foldl (fun s x => s.leaveUnit x.1 x.2) s
/-- The agent of a chain: its partition, reaching the scratchpad windows of its team; no version. -/
def Chain.agent (c : Chain) : Agent := { part := c.part, team := some c.team, job := true }
/-- Performs pieces that an engine writes for a chain. -/
def State.engineStore (s : State) (c : Chain) (ps : List (Place × List Byte)) : State := ps.foldl (fun s x => s.performWrite c.agent x.1 x.2) s
/-- Performs what the running jobs of a partition have translated and not yet written (R312, R338). -/
def State.landJobs (s : State) (part : Nat) : State :=
  let mine := fun (c : Chain) => c.part == part && c.out != []
  let jobs := s.engines.toList.flatMap fun e => e.chains.filter mine
  let s := jobs.foldl (fun s c => s.engineStore c c.out) s
  { s with engines := s.engines.map fun (e : Engine) => { e with chains := e.chains.map fun (c : Chain) => if mine c then { c with out := [] } else c } }
/-- A pending future resolves CANCELLED (R210). -/
def State.cancelFuture (s : State) (team k : Nat) : State :=
  if ((s.team team).futures[k]?.getD {}).state = .pending then
    (s.setTeam team fun t => { t with futures := if h : k < 64 then t.futures.set k { t.futures[k] with state := .cancelled, word := 0 } else t.futures }).cancelChain team k
  else s
/-- The pending futures of a team. -/
def Team.pendingFutures (t : Team) : List Nat := (List.range 64).filter fun k => (t.futures[k]?.getD {}).state == .pending
/-- The waiting instruction a queued matrix operation answers: group and path. -/
def MatOp.asker (m : MatOp) : Option (Nat × Nat) :=
  match m.kind with
  | .drainReg _ g p _ | .tst _ _ _ _ g p _ => some (g, p)
  | _ => none
/-- WHEAD follows the waiting list: 0xFFFF when it is empty; what it holds otherwise is open (log entry 15). -/
def State.writeHead (s : State) (part k : Nat) : State :=
  match (s.part part).febWord k with
  | some o =>
    let v := if s.febs.any fun w => w.part == part && w.buffer == k then (Config.waitHead s.free).toNat else 0xFFFF
    { s with bank := Memory.setBytes s.bank o (leBytes 2 v) }
  | none => s
/-- Free entries of a mailbox are reserved for its waiting posts, the oldest first (R393). -/
def Mailbox.reserve (m : Mailbox) : Mailbox :=
  let n := 8 - m.slots.length
  { m with slots := m.slots ++ (m.posts.take n).map fun x => { data := x.data, owner := some (x.group, x.path) }, posts := m.posts.drop n }
/-- Takes waiting requests out of every queue outside their groups: those of the groups and paths picked (R189). A tile buffer's waiting-list
head follows (R185, R269). -/
def State.withdrawIf (s : State) (pick : Nat → Nat → Bool) : State :=
  let keep := fun (x : Nat × Nat) => !pick x.1 x.2
  let gone := s.febs.filter fun w => pick w.group w.path
  gone.foldl (fun s w => s.writeHead w.part w.buffer) { s with
    febs := s.febs.filter fun w => !pick w.group w.path
    stations := s.stations.map fun e => (e.1, e.2.filter fun o => !pick o.group o.path)
    mailboxes := s.mailboxes.map fun e => (e.1, { e.2 with
      posts := e.2.posts.filter fun x => !pick x.group x.path
      takes := e.2.takes.filter keep
      slots := e.2.slots.filter fun x => (x.owner.map keep).getD true : Mailbox }.reserve)
    teams := s.teams.map fun t => { t with latch := t.latch.filter fun a => !pick a.group a.path,
                                           matQueue := t.matQueue.filter fun m => ((m.asker).map keep).getD true } }
/-- Withdraws every waiting request of a group. -/
def State.withdraw (s : State) (seq : Nat) : State := s.withdrawIf fun g _ => g == seq
/-- The partner of a tile (R2). -/
def partner (tile : Nat) : Nat := if tile < 48 then tile + 48 else tile - 48
/-- A vertical channel by producer tile. -/
def State.channel (s : State) (tile : Nat) : Channel := lookD s.channels tile {}
/-- The state with a channel changed. -/
def State.setChannel (s : State) (tile : Nat) (f : Channel → Channel) : State := { s with channels := put tile (f (s.channel tile)) s.channels }
/-- CHDISC of the partition that owns a core counts items of an older epoch (R396, R403). -/
def State.countStale (s : State) (owner : Option Nat) (n : Nat) : State :=
  match owner with
  | some p => s.setPart p fun q => q.setReg 0x8CD (satAdd (q.reg 0x8CD 0) n)
  | none => s
/-- Discards the entries of a tile's incoming FIFO; their permits return (R384). -/
def State.discardFifo (s : State) (tile : Nat) : State :=
  (s.setChannel (partner tile) fun c => { c with back := c.back + c.fifo.length, fifo := [] }).sound 9 tile 0 512
/-- The task of a team. -/
def State.taskOf (s : State) (t : Team) : Task := ((s.part t.part).task? t.task).getD {}
/-- Whether a team belongs to a stacked cluster (R235). -/
def State.stacked (s : State) (t : Team) : Bool := (s.taskOf t).record.clus && (s.taskOf t).record.stack
/-- A stacked cluster has ended: its FIFOs are emptied, and what is on its links will be discarded as it lands (R384). -/
def State.endStack (s : State) (t : Team) : State :=
  t.tiles.foldl (fun s x => (s.discardFifo x).setChannel x fun c => { c with dead := c.link.length }) s
/-- The code of a scope's kind in a spill entry. -/
def ScopeKind.code (k : ScopeKind) : Nat :=
  match k with
  | .none => 0
  | .plain => 1
  | .call => 2
  | .loop n => 3 + n.val
/-- The code of a path's state in a spill entry: a path that waits in a BLOCK instruction is waiting. -/
def Path.stateCode (p : Path) : Nat :=
  match p.state with
  | .ready => if p.wait.isSome then 1 else 0
  | .waiting => 1
  | .held => 2
  | .joined => 3
/-- The 32 bytes of a spill entry (R246). No window, load, store or copy reaches them, so they are worked out from the path, which State
holds whole. -/
def Path.spillEntry (p : Path) : List Byte :=
  leBytes 8 (p.kind.code * 2 ^ 58 + p.stateCode * 2 ^ 56 + p.pc.toNat % 2 ^ 56)
    ++ leBytes 8 ((if p.join.isSome then 2 ^ 63 else 0) + p.parent.getD 0x7F * 2 ^ 56 + (p.join.getD 0).toNat % 2 ^ 56)
    ++ leBytes 8 p.member.toNat ++ leBytes 8 p.exm.toNat
/-- A group leaves its pipe: an instruction of it that is in progress still holds the pipe for its beats (R238, R240). -/
def State.leave (s : State) (g : Group) : State :=
  if s.now ≤ g.busyTo && s.now < g.clk then { s with left := put (32 * g.tile + g.pipe) (g.busyFrom, g.busyTo) s.left } else s
/-- Captures the slots of an evicted partition once none of its teams is on a core (R317): the eviction is over. -/
def State.captureSlots (s : State) (part : Nat) : State :=
  let p := s.part part
  if !p.evicted || s.teams.any (·.part == part) then s
  else
    let kept := p.vslots.map fun x => (x.1, lookD s.slots x.2 {})
    let s := { s with slots := s.slots.filter fun e => !(p.vslots.any (·.2 == e.1)) }
    s.setPart part fun p => { p with vslots := [], ttCaptured := kept, evicted := false }
/-- Takes a team off its core: its futures resolve, its groups and their requests go, its cluster's FIFOs are emptied when it was
the last of a stacked one, with what is still on its links (R210, R384). The core is one on which its task retired beats (R425). An eviction
is over with the last team (R317). -/
def State.removeTeam (s : State) (id : Nat) : State :=
  let t := s.team id
  let stack := s.stacked t
  let s := t.pendingFutures.foldl (fun s k => s.cancelFuture id k) s
  let gone := (s.allGroups.filter (·.team == id)).map (·.seq)
  let s := gone.foldl State.withdraw s
  let s := (s.allGroups.filter (·.team == id)).foldl State.leave s
  let s := if !t.ran then s else s.setPart t.part fun p => p.setTask t.task fun k => { k with cores := put t.tile t.lastBeat k.cores }
  let s := { s with me := if s.me.team = id then {} else s.me, groups := s.groups.filter (·.team != id), teams := s.teams.filter (·.id != id) }
  (if stack && (s.clusterTeams t).isEmpty && (s.saved.all fun v => !(v.team.part == t.part && v.team.task == t.task && v.team.cluster == t.cluster)) then
    s.endStack t
  else s).captureSlots t.part
/-- Discards the version of a task, and reports the task (R275, log entry 81). -/
def State.discardVersion (s : State) (part task : Nat) : State :=
  (s.setPart part fun p => { p with
    versions := p.versions.filter (·.task != task)
    discards := p.discards ++ (p.versions.filter (·.task == task)).map (·.task) }).setPart part fun p =>
    p.setTask task fun k => { k with version := none, versioned := false }
/-- Commits a version: its bytes become committed data at once (R275, R314). -/
def State.commitVersion (s : State) (part num : Nat) : State :=
  match s.version? part num with
  | none => s
  | some v =>
    let s := s.setPart part fun p => { p with versions := p.versions.filter (·.num != num) }
    let s := s.setPart part fun p => p.setTask v.task fun k => { k with version := none, versioned := false }
    (runsOf v.bytes).foldl (fun s r => s.performWrite { part := part } (.dev r.1) r.2) s

/-! ### Killing a task (R184, R283, R329) -/

/-- Teams of a task on their cores. -/
def State.taskTeams (s : State) (part task : Nat) : List Team := s.teams.filter fun t => t.part == part && t.task == task
/-- Whether a copy of a task is in flight. -/
def State.taskCopies (s : State) (part task : Nat) : Bool :=
  s.copies.any fun c => c.part == part && ((s.team? c.team).map (·.task)) == some task
/-- Held paths of a group that is killed give a halt record marked killed (R347). -/
def State.killedRecords (s : State) (g : Group) : State :=
  (g.entries.filter fun n => (g.path n).state == .held).foldl (fun s n => s.haltRecord g n 0 true 1) s
/-- Flushes a task: its version is discarded, its teams leave, its pending futures resolve CANCELLED, its records are no longer
outstanding, and it has ended (R283 steps 2 and 3, R329). The unveiling counts what it flushes. -/
def State.flushTask (s : State) (part task : Nat) : State :=
  let teams := s.taskTeams part task
  let saved := s.saved.filter fun v => v.team.part == part && v.team.task == task
  let futures := (teams.map fun t => t.pendingFutures.length).sum + (saved.map fun v => v.team.pendingFutures.length).sum
  let versions := ((s.part part).versions.filter (·.task == task)).length
  let versioned := (((s.part part).task? task).map (·.versioned)).getD false
  let s := if versioned then s else teams.foldl (fun s t => s.drainAll t.id) s
  let s := ((s.allGroups.filter fun g => g.part == part && g.task == task) ++ saved.flatMap (·.groups)).foldl State.killedRecords s
  let s := s.discardVersion part task
  let s := saved.foldl (fun s v => v.team.pendingFutures.foldl (fun s k => s.cancelChain v.team.id k) s) s
  let s := { s with saved := s.saved.filter fun v => !(v.team.part == part && v.team.task == task) }
  let s := teams.foldl (fun s t => s.removeTeam t.id) s
  s.setPart part fun p =>
    let cancelled := p.unveiling.isSome && (((p.task? task).map (·.record.cancd)).getD false)
    { (p.setTask task fun k => { k with status := .ended, killed := true, dying := false, cancelled := false }) with
      records := p.records.map fun r => if r.cause.task = task then { r with acted := true } else r
      unveiling := if cancelled then p.unveiling.map fun (u : Unveiling) =>
          { u with tasks := u.tasks + 1, futures := u.futures + futures, versions := u.versions + versions }
        else p.unveiling }
/-- Whether one cancellation, or one unveiling, flushes both tasks: each of its steps waits for all of them (R213, R283, R354). -/
def Partition.together (p : Partition) (a b : Task) : Bool :=
  a.id == b.id || (a.cancelled && b.cancelled && ((a.record.branch == b.record.branch && p.cancels.contains a.record.branch)
    || (p.unveiling.isSome && a.record.cancd && b.record.cancd)))
/-- Flushes the dying tasks whose copies have ended, those of one cancellation together (R184, R283). -/
def State.flushDying (s : State) : State :=
  (List.range 8).foldl (fun s p =>
    let q := s.part p
    let dying := q.tasks.filter (·.dying)
    let late := dying.filter fun k => s.taskCopies p k.id
    ((dying.filter fun k => !(late.any (q.together k))).map (·.id)).foldl (fun s id => s.flushTask p id) s) s
/-- Whether nothing is left of a task that could be flushed: it has ended, and its version is settled (R213, R425). -/
def Task.gone (k : Task) : Bool := k.status == .ended && k.version.isNone
/-- Kills a task (R329): it issues nothing from now on and is flushed once its copies have ended. -/
def State.killTask (s : State) (part task : Nat) : State :=
  (s.setPart part fun p => p.setTask task fun k => if k.gone then k else { k with dying := true, killed := true }).flushDying
/-- Kills every task of a partition (R329). -/
def State.killAll (s : State) (p : Nat) : State :=
  (((s.part p).tasks.filter fun k => !k.gone && !k.dying).map (·.id)).foldl (fun s id => s.killTask p id) s

/-! ### State changes of a partition, locked registers (R435, R437, R439) -/

/-- A partition state change is announced (R435). -/
def State.announce (s : State) (part : Nat) : State := (s.msi (part + 1) 5).msi 0 3
/-- A sealed partition that is locked or runs moves to ERROR: dispatch stops, and every team is killed. -/
def State.toError (s : State) (p : Nat) : State :=
  let q := s.part p
  if q.isSealed && (q.state == .locked || q.state == .run) then ((s.setPart p fun q => { q with state := .error }).killAll p).announce p else s
/-- Numbers of the locked registers (R437). -/
def lockedRegisters : List Nat :=
  [0x840, 0x841, 0x850, 0x851, 0x852, 0x853, 0x854, 0x855, 0x856, 0x857, 0x858, 0x859, 0x85A, 0x85B, 0x85C, 0x85D, 0x85E, 0x860, 0x861,
   0x870, 0x871, 0x872, 0x877, 0x878, 0x879, 0x87A, 0x900, 0x901, 0x902, 0x930, 0x931,
   0x960, 0x961, 0x962, 0x964, 0x965, 0x966, 0x968, 0x969, 0x96A, 0x96C, 0x96D, 0x96E]
/-- Whether a register of a partition is locked now. -/
def Partition.isLocked (q : Partition) (n : Nat) : Bool := q.isSealed && (q.state == .locked || q.state == .run) && lockedRegisters.contains n

/-! ### Taking an exception (R319, R322 to R324, R330) -/

/-- A cause: its code and detail, its lanes, whether the instruction has completed (XPC = A + 4), and what a record says of it. -/
structure Cause where
  code : Nat
  detail : Nat := 0
  mask : LaneMask := 0
  completed : Bool := false
  vaddr : DWord := 0
  write : Bool := false
  fetch : Bool := false
  paddr : DWord := 0
  /-- address of a word that could not be fetched, where it is not the instruction's (R322) -/
  at_ : Option DWord := none

/-- The XCAUSE word of a cause (R318). -/
def causeWord (code detail : Nat) : Word := BitVec.ofNat 32 (code % 2 ^ 8 + detail % 2 ^ 10 * 2 ^ 16)
/-- Codes routed to the user handler (R322). -/
def userRouted (code : Nat) : Bool := code != 0x0B && code != 0x0C && code != 0x0D
/-- The mode word a group starts with and a handler runs under (R33, R319). -/
def resetMode : Word := 0x0003000F

/-- The lowest lane of a mask. -/
def lowLane (m : LaneMask) : Nat := (lanesOf m).headD 0

/-- A user trap on a path of a group, as R319 states: pending writes complete, the trap registers are written, the mode word is
reset, the masks recorded, and the path goes to the handler. -/
def Group.userTrap (g : Group) (n : Nat) (handler : DWord) (cause : Word) (mask : LaneMask) (xpc : DWord) (inst : Word) : Group :=
  let p := g.path n
  let g := { g with
    pending := []
    x := { xpc := xpc, xinst := inst, xmask := mask, xcause := cause, xpath := BitVec.ofNat 3 n, xmode := g.mode }
    mode := resetMode
    handler := some { path := n, others := g.entries.filter (· != n), member := p.member, exm := p.exm } }
  g.setPath n fun p => { p with pc := handler, wait := none }
/-- A user trap on the issuing path. -/
def State.userTrap (s : State) (cause : Word) (mask : LaneMask) (xpc : DWord) (inst : Word) : State :=
  s.withMe fun g => g.userTrap g.cur s.myTask.record.handler cause mask xpc inst

/-- What a record says of the issuing group and path (R327). -/
def State.faultCause (s : State) (c : Cause) : FaultCause :=
  let g := s.me
  { cause := causeWord c.code c.detail, task := g.task, vaddr := c.vaddr,
    pc := c.at_.getD s.pc, inst := if c.fetch then 0 else g.ir, tile := g.tile, group := g.index, path := g.cur,
    lane := lowLane c.mask, mask := c.mask, fetch := c.fetch, write := c.write, paddr := c.paddr,
    sysh := s.myTask.kind == .system }
/-- A system cause: every pending write completes (R31), and the path is parked on a record that FAULT_QUEUE_RECORD writes (R324, R327, R330). A cause in the system
handler's own task kills that task (R326). -/
def State.systemCause (s : State) (c : Cause) (xpc : DWord) : State :=
  let g := s.me
  if s.myTask.kind = .system then
    (s.pushCause g.part (s.faultCause c)).killTask g.part g.task
  else
    let fc := { s.faultCause c with replay := c.code == 0x0B || c.code == 0x0C || c.completed, owner := some (g.seq, g.cur) }
    ((s.setPath fun p => { p with causeWaits := true, pc := xpc, wait := none }).withMe fun g => ({ g with pending := [] }).refill 72).pushCause g.part fc
/-- The joined entries that stood at the IDEMB of a region and stand now: all others are freed or restored by a restart (R106). -/
def Group.oldEntries (g : Group) (r : Region) : List Nat := r.olds.filter fun n => (g.path n).state == .joined && n != r.entry
/-- The idempotent restart of a group (R345): every entry created since the IDEMB is freed, entry i goes on as recorded. -/
def Group.restart (g : Group) (r : Region) : Group :=
  let olds := g.oldEntries r
  let g1 := g.entries.foldl (fun g n => if olds.contains n then g else g.setEntry n none) g
  let old := g.path r.entry
  { g1.setEntry r.entry (some { pc := r.pc, member := r.member, exm := r.exm, join := old.join, parent := old.parent }) with
    mode := r.mode, fpsf := r.fpsf, loops := r.loops, region := some { r with restarted := true }, gstat := g.gstat ||| 4,
    handler := none, pending := [], cur := r.entry, restarting := none }.refill 72
/-- A restart that a group waits for takes place once its copies have ended: the waiting requests of the paths it frees are withdrawn,
IDEMCNT counts it, and its record is written (R345). -/
def State.restartGroup (s : State) (seq : Nat) : State :=
  match s.group? seq with
  | none => s
  | some g =>
    match g.restarting, g.region with
    | some c, some r =>
      if s.copies.any (·.group == seq) then s
      else
        let s := if g.entries.all fun n => (g.path n).wait.isNone then s else s.withdrawIf fun x n => x == seq && !(g.oldEntries r).contains n
        let s := s.setGroup seq fun g => g.atCycle s.now fun g => g.restart r
        (s.pushCause g.part c).setPart g.part fun p => p.setReg 0x87F (satAdd (p.reg 0x87F 0) 1)
    | _, _ => s
/-- An uncorrectable word is consumed (R345, R346): the group restarts once in an open region, else its task is killed. -/
def State.uerr (s : State) (c : Cause) : State :=
  let g := s.me
  let s1 := (s.charge {}).countUe g.part
  match g.region with
  | some r =>
    if c.detail ≤ 7 && !r.restarted then (s1.withMe fun x => { x with restarting := some { s.faultCause c with restart := true } }).restartGroup g.seq
    else (s1.pushCause g.part (s.faultCause c)).killTask g.part g.task
  | none => (s1.pushCause g.part (s.faultCause c)).killTask g.part g.task

/-- Takes a cause on the issuing path: to the user handler where R324 says so, else to the system; a handler task's causes are the
system's (R326). -/
def State.raise (s : State) (c : Cause) : State :=
  if c.code = 0x0D then s.uerr c
  else
    let xpc := if c.completed then pc56 (s.pc + 4) else s.pc
    let s1 := if c.completed then s else
      (s.charge {}).setPath fun p => { p with holdAsked := if p.stepping then some 3 else p.holdAsked, stepping := false }
    if userRouted c.code && s.myTask.record.handler != 0 && s.me.handler.isNone && s.myTask.kind != .system then
      s1.userTrap (causeWord c.code c.detail) c.mask xpc s.me.ir
    else s1.systemCause c xpc

/-- Takes back an UNMAPPED that the instruction itself has set (R323). -/
def State.unread (s : State) : State :=
  if s.me.gapNew then s.withMe fun g => { g with gstat := g.gstat &&& ~~~ 1, gapNew := false } else s
/-- Takes a cause found behind the common checks: no flag has changed (R323). -/
def State.fail (s : State) (c : Cause) : State := s.unread.raise c
/-- Illegal operand (code 0x03) of an instruction, with its active lanes (R323). -/
def State.illop (s : State) : State := s.raise { code := 0x03, mask := s.active }
/-- Illegal operand of an instruction executed once for the group. -/
def State.illopU (s : State) : State := s.raise { code := 0x03, mask := s.exm }
/-- Illegal instruction (code 0x02). -/
def State.illinst (s : State) : State := s.raise { code := 0x02, mask := s.active }

/-- The names among the reads that have no row (R251). -/
def State.unmapped (s : State) (us : List Use) (act : LaneMask) : Bool :=
  us.any fun u => match u with
    | .v n | .nbL n | .nbR n => act != 0 && (s.me.vrow n).isNone
    | .vw n => (s.me.vrow n).isNone
    | _ => false

/-- The lane whose word a lane reads as its neighbour's, under the edge rule (R255): none where it reads zero. -/
def State.neighbourLane (s : State) (i : Nat) (left : Bool) : Option Nat :=
  let w := s.me.width.lanes
  if left && decide (1 ≤ i) then some (i - 1)
  else if !left && decide (i + 1 < w) then some (i + 1)
  else match modeEDGE s.me.mode with
    | 0 => none
    | 1 => some i
    | _ => some (if left then w - 1 else 0)
/-- The lanes whose beats read an uncorrectable register word (R343, kind 0): row and lane give the word on its tile. Of the words that a
collection pass (R158) reads, those of inactive lanes are not consumed (R343, log entry 139). -/
def State.struckLanes (s : State) (us : List Use) (act : LaneMask) : LaneMask :=
  if s.errors.isEmpty then 0 else
  let word := fun (n lane : Nat) => match s.me.vrow n with
    | some r => s.struck 0 s.me.tile ((s.me.pipe * 256 + r.row) * 64 + lane)
    | none => false
  maskOf fun lane => us.any fun u => match u with
    | .v n => act.getLsbD lane && word n lane
    | .nbL n => act.getLsbD lane && ((s.neighbourLane lane true).map (word n)).getD false
    | .nbR n => act.getLsbD lane && ((s.neighbourLane lane false).map (word n)).getD false
    | .vw n => act.getLsbD lane && word n lane
    | _ => false

/-- Number of a protection word of a group's hardware state on its tile: of its path table and spill area by path number, of its rename map
from 128 on (R342). -/
def Group.tableWord (g : Group) (n : Nat) : Nat := (g.pipe * 8 + g.slot) * 256 + n
/-- Whether the rename entry of a name that is read is uncorrectable (R343, kind 8; log entry 142). -/
def State.mapStruck (s : State) (us : List Use) : Bool :=
  !s.errors.isEmpty && us.any fun u => match u with
    | .v n | .nbL n | .nbR n | .vw n => s.struck 8 s.me.tile (s.me.tableWord (128 + n))
    | _ => false
/-- The checks before an instruction's own effect, in the order of R39: illegal operand, stall count, unmapped name. `once` says
that the instruction is executed once for the group, `act` in which lanes it reads vector sources. The effect `k` runs on the state with UNMAPPED set where R251 says so. -/
def State.checkedFor (s : State) (act : LaneMask) (legal once : Bool) (uses : List Use) (k : State → State) : State :=
  let us := if once then uses else .exm :: uses
  let mask := if once then s.exm else act
  let struck := s.struckLanes us act
  if !legal then s.raise { code := 0x03, mask := mask }
  else if modeCHK s.me.mode && us.any s.hazard then s.raise { code := 0x09, mask := mask }
  else if s.mapStruck us then s.raise { code := 0x0D, detail := 8, mask := s.exm }
  else if s.unmapped us act && modeNAMETRAP s.me.mode then s.raise { code := 0x0A, mask := act }
  else if struck != 0 then s.raise { code := 0x0D, mask := struck }
  else if s.unmapped us act then k (s.withMe fun g => { g with gstat := g.gstat ||| 1, gapNew := !bit g.gstat 0 })
  else k s
/-- The same for an instruction that reads its vector sources in its active lanes. -/
def State.checked (s : State) (legal once : Bool) (uses : List Use) (k : State → State) : State := s.checkedFor s.active legal once uses k

/-! ### The end of groups and teams (R94, R156, R193, R275) -/

/-- Runs an operation as a given group and path, and puts the groups back as they were. -/
def State.asGroup (s : State) (seq path : Nat) (f : State → State) : State :=
  if s.me.live && s.me.seq == seq then
    let cur := s.me.cur
    (f (s.withMe fun g => { g with cur := path })).withMe fun g => { g with cur := cur }
  else match s.groups.find? (·.seq == seq) with
    | none => s
    | some g =>
      let me := s.me
      let s1 := f { s with me := { g with cur := path }, groups := s.groups.map fun x => if x.seq = seq then me else x }
      -- the operation may have ended either group
      let mine := fun (x : Group) => me.live && x.live && x.seq == me.seq
      { s1 with me := (s1.groups.find? mine).getD {}
                groups := (s1.groups.filter fun x => x.live && !mine x) ++ (if s1.me.live then [s1.me] else []) }
/-- Whether every group of a team is among the arrived or has exited (R156). -/
def Team.allIn (t : Team) (arrived : List Nat) : Bool := (List.range t.groups).all fun i => arrived.contains i || t.exited.contains i
/-- The state with every group of a team changed, saved ones included. -/
def State.mapGroups (s : State) (pick : Group → Bool) (f : Group → Group) : State :=
  let h := fun (g : Group) => if pick g then f g else g
  { s with me := h s.me, groups := s.groups.map h, saved := s.saved.map fun (v : Saved) => { v with groups := v.groups.map h } }
/-- The state with teams changed, saved ones included. -/
def State.mapTeams (s : State) (pick : Team → Bool) (f : Team → Team) : State :=
  let h := fun (t : Team) => if pick t then f t else t
  { s with teams := s.teams.map h, saved := s.saved.map fun (v : Saved) => { v with team := h v.team } }
/-- A BARARV's arrival is over with its phase; a BAR's stands until the BAR, which may have been withdrawn, has completed (R348). -/
def phaseOver (a : Option (Nat × Bool)) : Option (Nat × Bool) := a.filter fun x => !x.2
/-- The team barrier's phase completes when every group has arrived (R156, R230). -/
def State.teamPhase (s : State) (id : Nat) : State :=
  let t := s.team id
  if t.arrived ≠ [] && t.allIn t.arrived then
    (s.setTeam id fun t => { t with phase := t.phase + 1, arrived := [] }).mapGroups (·.team == id) fun g => { g with teamArrived := phaseOver g.teamArrived }
  else s
/-- The cluster barrier's phase likewise, over every member team, saved ones included. -/
def State.clusterPhase (s : State) (t : Team) : State :=
  let same := fun (x : Team) => x.part == t.part && x.task == t.task && x.cluster == t.cluster
  let all := (s.teams.filter same) ++ (s.saved.map (·.team)).filter same
  if (all.any fun x => x.carrived != []) && all.all fun x => x.allIn x.carrived then
    (s.mapTeams same fun x => { x with cphase := x.cphase + 1, carrived := [] }).mapGroups
      (fun g => all.any fun x => x.id == g.team) fun g => { g with clusterArrived := phaseOver g.clusterArrived }
  else s
/-- A cause of a member that waits at the gang latch: the word is the one it arrived with (R193, R318, R327). -/
def State.raiseArrival (s : State) (c : Cause) (a : GangArrival) : State :=
  s.asGroup a.group a.path fun s =>
    let ir := s.me.ir
    ((s.withMe fun g => { g with ir := a.word }).raise { c with mask := a.active }).withMe fun g => { g with ir := ir }
/-- A gang member that exits while others wait at the latch gives each of them a gang-mismatch fault (R193). -/
def State.gangExit (s : State) (g : Group) : State :=
  let t := s.team g.team
  if bit t.gang g.index && t.latch != [] then
    let waiting := t.latch
    let s := s.setTeam t.id fun t => { t with latch := [] }
    waiting.foldl (State.raiseArrival · { code := 0x07, detail := 3 } ·) s
  else s
/-- A task ends when the last team of its last cluster has (R275): its version commits, or waits for the scans of its cores. -/
def State.endTask (s : State) (part task : Nat) : State :=
  match (s.part part).task? task with
  | none => s
  | some k =>
    if k.status ≠ .running || decide (k.placed < k.clusters) || k.redo ≠ [] || !(s.taskTeams part task).isEmpty
      || s.saved.any (fun v => v.team.part == part && v.team.task == task) then s
    else
      let s := s.setPart part fun p => p.setTask task fun k => { k with status := .ended }
      match k.version with
      | none => s
      | some n =>
        if k.record.scang && (k.cores != [] || ((s.version? part n).map (·.held)).getD false) then
          s.setVersion part n fun v => { v with waitScan := true }
        else s.commitVersion part n
/-- A team whose last group has exited ends (R94, R210). -/
def State.endTeam (s : State) (id : Nat) : State :=
  let t := s.team id
  if t.allIn [] then
    let s := s.drainAll id
    (s.removeTeam id).endTask t.part t.task
  else s
/-- A group without a live path exits once its copies have ended: what it stored is performed, barriers see it arrived, the gang
latch is told, its rows go (R94, R156, R193). -/
def State.endGroup (s : State) (seq : Nat) : State :=
  match s.group? seq with
  | none => s
  | some g =>
    if g.entries ≠ [] || s.copies.any (·.group == seq) then s
    else
      let s := (((s.team g.team).wbuf.filter fun e => e.writers.contains seq).map (·.line)).foldl (fun s l => s.drainEntry g.team l) s
      let s := (s.withdraw seq).leave g
      let s := if s.me.live && s.me.seq == seq then { s with me := {} } else { s with groups := s.groups.filter (·.seq != seq) }
      let s := s.gangExit g
      let s := s.setTeam g.team fun t => { t with exited := t.exited ++ [g.index] }
      ((s.teamPhase g.team).clusterPhase (s.team g.team)).endTeam g.team
/-- What waits for copies to end: exits, kills, idempotent restarts (R94, R184, R345). -/
def State.afterCopies (s : State) : State :=
  let s := s.flushDying
  let s := ((s.allGroups.filter (·.restarting.isSome)).map (·.seq)).foldl State.restartGroup s
  ((s.allGroups.filter fun g => g.entries == []).map (·.seq)).foldl State.endGroup s

/-! ### Rows (R248 to R252) -/

/-- Rows of a pipe (R248). -/
def pipeRows (w : Width) : Nat := 4096 / w.lanes
/-- Rows a group maps. -/
def Group.held (g : Group) : Nat := (g.v.toList.filter Option.isSome).length
/-- Row numbers a group holds. -/
def Group.rowNumbers (g : Group) : List Nat := g.v.toList.filterMap fun r => r.map (·.row)
/-- charge(g) (R252). -/
def Group.rowCharge (g : Group) : Nat := max g.floor g.held
/-- need(g) (R252). -/
def Group.need (g : Group) : Nat := g.peak + 1 - g.floor
/-- The groups that share a pipe. -/
def State.onPipe (s : State) (tile pipe : Nat) : List Group := s.allGroups.filter fun g => g.tile == tile && g.pipe == pipe
/-- free of a pipe (R252). -/
def rowsFree (gs : List Group) (w : Width) : Nat := pipeRows w - (gs.map Group.rowCharge).sum
/-- Q of a pipe (R252). -/
def rowsReserve (gs : List Group) : Nat := (gs.map Group.need).foldl max 0
/-- Whether the issuing group may receive a row (R252). -/
def State.mayAllocate (s : State) : Bool :=
  let gs := s.onPipe s.me.tile s.me.pipe
  let free := rowsFree gs s.me.width
  decide (s.me.held < s.me.floor)
    || (if gs.all fun g => decide (s.me.seq ≤ g.seq) then decide (1 ≤ free) else decide (rowsReserve gs + 1 ≤ free))
/-- The row a name takes on a pipe: the lowest free row of bank (name mod 4), or of the next banks in turn (R249). -/
def freeRow (w : Width) (used : List Nat) (name : Nat) : Nat :=
  let inBank := fun b => ((List.range (pipeRows w / 4)).map fun k => 4 * k + b).find? fun r => !used.contains r
  let try_ := fun k => inBank ((name + k) % 4)
  ((try_ 0).orElse fun _ => (try_ 1).orElse fun _ => (try_ 2).orElse fun _ => try_ 3).getD 0
/-- The row a name of the issuing group takes. -/
def State.pickRow (s : State) (name : Nat) : Nat := freeRow s.me.width ((s.onPipe s.me.tile s.me.pipe).flatMap Group.rowNumbers) name
/-- Whether every destination that needs a row can be given one: a name without a row, or a marked source (R249, R252). -/
def State.rowsFor (marked : List Nat) : List Nat → State → Bool
  | [], _ => true
  | n :: ns, s =>
    if (s.me.vrow n).isSome then (!marked.contains n || s.mayAllocate) && State.rowsFor marked ns s
    else s.mayAllocate && State.rowsFor marked ns (s.withMe fun g => g.setRow n (some { row := s.pickRow n }))
/-- A register word that is written afresh is sound again (R342). -/
def State.mendRow (s : State) (n : Nat) (act : LaneMask) : State :=
  if s.errors.isEmpty then s else
  match s.me.vrow n with
  | some r => { s with errors := s.errors.filter fun e =>
      !(e.kind == 0 && e.tile == s.me.tile && e.addr / 64 == s.me.pipe * 256 + r.row && act.getLsbD (e.addr % 64)) }
  | none => s
/-- A rename entry that is written afresh is sound again (R342). -/
def State.mendName (s : State) (n : Nat) : State :=
  if s.errors.isEmpty then s
  else { s with errors := s.errors.filter fun e => !(e.kind == 8 && e.tile == s.me.tile && e.addr == s.me.tableWord (128 + n)) }
/-- Gives every name of a list a row, zero where it had none (R249). -/
def State.allocRows : List Nat → State → State
  | [], s => s
  | n :: ns, s =>
    if (s.me.vrow n).isSome then State.allocRows ns s
    else
      let s := ((s.withMe fun g => g.setRow n (some { row := s.pickRow n })).mendName n).mendRow n (BitVec.allOnes 64)
      State.allocRows ns (s.withMe fun g => { g with maxHeld := max g.maxHeld g.held })
/-- A destination that is also a marked source moves to a new row with its old values (R249). -/
def State.replaceRows (marked : List Nat) : List Nat → State → State
  | [], s => s
  | n :: ns, s =>
    if marked.contains n then
      match s.me.vrow n with
      | some r => State.replaceRows marked ns (s.withMe fun g =>
          { g.setRow n (some { r with row := s.pickRow n }) with maxHeld := max g.maxHeld (g.held + 1) })
      | none => State.replaceRows marked ns s
    else State.replaceRows marked ns s
/-- Frees the rows of marked names that are no destination (R250). -/
def State.freeMarked (marked dests : List Nat) (s : State) : State :=
  s.withMe fun g => (marked.filter fun n => !dests.contains n).foldl (fun g n => g.setRow n none) g
/-- The marks that count: those of a path whose members are all the live lanes of the group (R250). -/
def State.marks (s : State) (marked : List Nat) : List Nat :=
  if s.path.member ||| s.me.liveLanes = s.path.member then marked else []
/-- The group is not ready for want of rows for names (R239, R252): nothing has issued. -/
def State.noRows (s : State) (marked dests : List Nat) : State := s.unread.withMe fun g => { g with rowWait := true, rowWant := (marked, dests) }
/-- Writes lanes of a vector name. -/
def State.writeLanes (s : State) (n : Nat) (act : LaneMask) (f : Nat → Word) : State :=
  (s.mendRow n act).withMe fun g => match g.vrow n with
    | some r => g.setRow n (some { r with lanes := Vector.ofFn fun i : Fin 64 => if act.getLsbD i then f i else r.lanes[i] })
    | none => g

end Sys2Proof.Machine
end

