-- ==== Sys2Proof/Machine/Flags.lean ====
section
/-! DEFINITION. FPSF and its traps (R54 to R56, R82), and writes that are readable only after a latency class has passed (R30). -/

namespace Sys2Proof.Machine

/-- FPSF flags as numbers (R54). -/
def fNX : Nat := 1
/-- Underflow. -/
def fUF : Nat := 2
/-- Overflow. -/
def fOF : Nat := 4
/-- Division by zero. -/
def fDZ : Nat := 8
/-- Invalid operation. -/
def fNV : Nat := 16
/-- A pair's error term was not representable. -/
def fPX : Nat := 32
/-- An integer element was clamped. -/
def fISAT : Nat := 64
/-- CATSAMP found no usable total. -/
def fCATZ : Nat := 128

/-- Latency classes: the stall count a consumer needs (R30). -/
def clsSIMPLE : Nat := 2
/-- ARITH. -/
def clsARITH : Nat := 4
/-- LONG. -/
def clsLONG : Nat := 8
/-- XLANE. -/
def clsXLANE : Nat := 2
/-- XRED. -/
def clsXRED : Nat := 4
/-- Interlocked results: ITER, MEM, BLOCK, and every I-, J-, M-, X- and LDCW-form result. -/
def clsNONE : Nat := 0

/-- A scalar register is written; the value is readable `lat` cycles from now, or at once when it is interlocked (R30, R31). -/
def State.putS (s : State) (n : Nat) (x : Word) (lat : Nat) : State :=
  s.withMe fun g =>
    let old := g.sreg n
    { g.setS n x with pending :=
        if lat = 0 then g.pending.filter fun e => !(e.isS n) else g.pending ++ [{ target := .scalar n old, ready := s.now + lat }] }
/-- A scalar pair is written. -/
def State.putPair (s : State) (n : Nat) (x : DWord) (lat : Nat) : State := (s.putS n (lo32 x) lat).putS (n + 1) (hi32 x) lat
/-- Registers from a name on, written with words. -/
def State.putWords (s : State) (d : Nat) (ws : List Word) : State :=
  (ws.zip (List.range ws.length)).foldl (fun s x => s.putS (d + x.2) x.1 clsNONE) s
/-- The bits of CM in a mask are written, as they stand in a word; other bits that are still pending stay so. -/
def State.putCMBits (s : State) (m x : DWord) (lat : Nat) : State :=
  s.withMe fun g => { g with
    cm := x
    pending := if lat = 0 then g.pending.map (Pending.under · { target := .cm m 0, ready := 0 })
      else g.pending ++ [{ target := .cm m g.cm, ready := s.now + lat }] }
/-- CM is written. -/
def State.putCM (s : State) (x : DWord) (lat : Nat) : State := s.putCMBits (BitVec.allOnes 64) x lat
/-- A predicate is written whole; whole-register consumers read it `lat` cycles from now (R30). -/
def State.putP (s : State) (n : Nat) (x : LaneMask) (lat : Nat) : State :=
  s.withMe fun g => { g.setP n x with pending := g.pending ++ [{ target := .pred n (g.preg n), ready := s.now + lat }] }
/-- One bit of CM is written. -/
def State.putCMBit (s : State) (k : Nat) (b : Bool) (lat : Nat) : State :=
  s.putCMBits (1 <<< k) (setBits s.me.cm k 1 (if b then 1 else 0)) lat
/-- EXM of the issuing path is written. -/
def State.putEXM (s : State) (x : LaneMask) (lat : Nat) : State :=
  let old := s.path.exm
  let s := s.setPath fun p => { p with exm := x &&& p.member }
  s.withMe fun g => { g with pending :=
    if lat = 0 then g.pending.filter fun e => !(e.isEXM g.cur) else g.pending ++ [{ target := .exm g.cur old, ready := s.now + lat }] }
/-- The enabled flags among those raised (R54, R56). -/
def State.enabledFlags (s : State) (fl : Nat) : Nat := (BitVec.ofNat 5 fl &&& BitVec.ofNat 5 (modeFPTE s.me.mode)).toNat
/-- Sets flags in FPSF (R55). -/
def State.setFlags (s : State) (fl : Nat) : State := s.withMe fun g => { g with fpsf := g.fpsf ||| BitVec.ofNat 32 fl }
/-- Completes an instruction that raised flags: FPSF takes them, and an enabled one leads to an FP trap behind it (R55, R56, R82).
`raised` gives the lanes that raised one of the given flags. -/
def State.finish (s : State) (d : Done) (fl : Nat) (raised : Nat → LaneMask) : State :=
  let s := s.setFlags fl
  let e := s.enabledFlags fl
  if e = 0 then s.retire d
  else ((s.count d).charge d).raise { code := 0x0E, detail := e, mask := raised e, completed := true }

end Sys2Proof.Machine
end

