-- ==== Sys2Proof/Machine/Operands.lean ====
section
/-! DEFINITION. Operand forms: sources with neighbours (R17 to R19, R255), destinations with rows (R249, R250), random draws
(R152), and the shapes of lane-wise instructions, compares and uniform instructions (R79 to R82, R238). -/

namespace Sys2Proof.Machine

/-- A 32-bit source: a vector register, a neighbour, or a scalar register. -/
inductive Src where
  | v (n : Nat) | nbL (n : Nat) | nbR (n : Nat) | s (n : Nat)
  deriving DecidableEq, Repr, Inhabited

/-- Source field a. -/
def srcA (u : Bool) (a : BitVec 6) : Src := if u then .s a.toNat else .v a.toNat
/-- Source field b with its neighbour codes (R17). -/
def srcB (u : Bool) (b : BitVec 6) : Src :=
  if u then .s b.toNat
  else if b.toNat < 48 then .v b.toNat
  else if b.toNat < 56 then .nbL (b.toNat - 48) else .nbR (b.toNat - 56)
/-- The k-th register after a source. -/
def Src.plus (x : Src) (k : Nat) : Src :=
  match x with
  | .v n => .v (n + k)
  | .nbL n => .nbL n
  | .nbR n => .nbR n
  | .s n => .s (n + k)
/-- What reading a source is, for the checks before issue. -/
def Src.use (x : Src) : Use :=
  match x with
  | .v n => .v n
  | .nbL n => .nbL n
  | .nbR n => .nbR n
  | .s n => .s n
/-- The vector name a source would mark (R32). -/
def Src.name (x : Src) : List Nat :=
  match x with
  | .v n | .nbL n | .nbR n => [n]
  | .s _ => []
/-- A neighbour's word under the edge rule (R255): lane `j` of a name, for lane `i` at the edge of the group. -/
def State.neighbour (s : State) (n i : Nat) (left : Bool) : Word :=
  match s.neighbourLane i left with
  | some j => s.me.vlane n j
  | none => 0
/-- The word a source gives a lane; a scalar source gives every lane its one word. -/
def State.word (s : State) (x : Src) (lane : Nat) : Word :=
  match x with
  | .v n => s.me.vlane n lane
  | .nbL n => s.neighbour n lane true
  | .nbR n => s.neighbour n lane false
  | .s n => s.rs n
/-- A pair of a source. -/
def State.dword (s : State) (x : Src) (lane : Nat) : DWord := pair (s.word x lane) (s.word (x.plus 1) lane)

/-! ### Random streams (R152) -/

/-- One draw of a stream from its counter: lane 64 is the scalar stream. -/
def drawOf (seed : DWord) (lane : Nat) (ctr : Word) : DWord :=
  let x := seed ^^^ (BitVec.ofNat 64 lane <<< 32) ^^^ ctr.setWidth 64
  let x := x ^^^ (x >>> 30)
  let x := x * 0xB5C32A7E91D46F1B
  let x := x ^^^ (x >>> 27)
  let x := x * 0x8E17D93C5A62F0A5
  x ^^^ (x >>> 31)
/-- The draw a lane, or the scalar stream, makes next. -/
def State.draw (s : State) (lane : Nat) : DWord :=
  drawOf s.me.seed lane (if lane < 64 then s.me.laneCtr[lane]?.getD 0 else s.me.scalarCtr)
/-- Advances the streams of the given lanes, or the scalar stream. -/
def State.advance (s : State) (u : Bool) (act : LaneMask) : State :=
  s.withMe fun g => if u then { g with scalarCtr := g.scalarCtr + 1 }
    else { g with laneCtr := Vector.ofFn fun i : Fin 64 => if act.getLsbD i then g.laneCtr[i] + 1 else g.laneCtr[i] }

/-! ### The shape of a computing instruction -/

/-- A computing instruction: whether its operands are legal, its form, its stall count, its cycles per beat, its latency class in
the uniform form, what it reads, where it writes, what it marks, whether it draws, its bytes, and the words and flags of a lane
(lane 64 stands for the uniform form). -/
structure Calc where
  legal : Bool
  u : Bool
  stall : BitVec 2 := 0
  per : Nat := 1
  cls : Nat := 0
  uses : List Use
  dests : List Nat
  marks : List Nat := []
  draws : Bool := false
  size : Nat := 4
  f : State → Nat → List Word × Nat

/-- The results of every lane; lanes that are not active have none. -/
def perLane {α : Type} (act : LaneMask) (f : Nat → α) (d : α) : List α :=
  (List.range 64).map fun k => if act.getLsbD k then f k else d
/-- The OR of flags. -/
def orFlags (fs : List Nat) : Nat := (fs.foldl (fun (x : BitVec 8) f => x ||| BitVec.ofNat 8 f) 0).toNat
/-- The lanes whose flags meet some of the given ones. -/
def lanesWith (fs : List Nat) (e : Nat) : LaneMask := maskOf fun k => BitVec.ofNat 8 (fs.getD k 0) &&& BitVec.ofNat 8 e != 0
/-- Beats of a lane-wise instruction (R81, R238). -/
def beatsOf (act : LaneMask) : Nat := max 1 (laneCount act)
/-- Writes the k-th words of the results into the k-th destination name. -/
def State.writeResults (s : State) (act : LaneMask) (res : List (List Word)) : Nat → List Nat → State
  | _, [] => s
  | k, n :: ns => State.writeResults (s.writeLanes n act fun i => ((res.getD i []).getD k 0)) act res (k + 1) ns
/-- A computing instruction, both forms (R79 to R82, R249, R250). -/
def State.calc (s : State) (c : Calc) : State :=
  s.checked c.legal c.u c.uses fun s =>
    let next := if c.size = 4 then none else some (s.pc + BitVec.ofNat 64 c.size)
    if c.u then
      let r := c.f s 64
      let s1 := if c.draws then s.advance true 0 else s
      let lat := if c.cls = 0 then 0 else c.per + c.cls
      let s2 := (c.dests.zip r.1).foldl (fun s p => s.putS p.1 p.2 lat) s1
      s2.finish { beats := 1, extra := c.per - 1, stall := stallOf c.stall, target := next } r.2 fun _ => s.exm
    else
      let act := s.active
      let marked := s.marks c.marks
      if !State.rowsFor marked c.dests s then s.noRows marked c.dests
      else
        let res := perLane act (c.f s) ([], 0)
        let fl := res.map (·.2)
        let s1 := if c.draws then s.advance false act else s
        let s2 := (State.replaceRows marked c.dests (State.allocRows c.dests s1)).writeResults act (res.map (·.1)) 0 c.dests
        let n := beatsOf act
        (s2.freeMarked marked c.dests).finish { beats := n, extra := n * (c.per - 1), stall := stallOf c.stall, target := next } (orFlags fl) (lanesWith fl)

/-- A compare: condition and flags of a lane; it writes a predicate pair, or a CM bit (R118, R129). -/
structure Compare where
  legal : Bool
  u : Bool
  stall : BitVec 2 := 0
  per : Nat := 1
  cls : Nat := 2
  uses : List Use
  d : Nat
  marks : List Nat := []
  f : State → Nat → Bool × Nat

/-- A compare, both forms. -/
def State.compare (s : State) (c : Compare) : State :=
  s.checked c.legal c.u c.uses fun s =>
    if c.u then
      let r := c.f s 64
      (s.putCMBit c.d r.1 (if c.cls = 0 then 0 else c.per + c.cls)).finish { extra := c.per - 1, stall := stallOf c.stall } r.2 fun _ => s.exm
    else
      let act := s.active
      let res := perLane act (c.f s) (false, 0)
      let fl := res.map (·.2)
      let yes := maskOf fun k => (res.getD k (false, 0)).1
      let s1 := s.withMe fun g =>
        let p := g.preg (2 * c.d)
        let q := g.preg (2 * c.d + 1)
        (g.setP (2 * c.d) ((p &&& ~~~act) ||| (yes &&& act))).setP (2 * c.d + 1) ((q &&& ~~~act) ||| (~~~yes &&& act))
      let n := beatsOf act
      (s1.freeMarked (s.marks c.marks) []).finish { beats := n, extra := n * (c.per - 1), stall := stallOf c.stall } (orFlags fl) (lanesWith fl)

/-! ### Forms with one, two and three 32-bit sources -/

/-- Names that set last-read bits mark: source a, source b, third source (R32). -/
def markA (u x : Bool) (a : BitVec 6) : List Nat := if x then (srcA u a).name else []
/-- Source b. -/
def markB (u y : Bool) (b : BitVec 6) : List Nat := if y then (srcB u b).name else []
/-- Both names of a pair in field a, or field b (DEDUCED, log entry 8). -/
def markPair (u x : Bool) (a : BitVec 6) : List Nat := if x && !u then [a.toNat, a.toNat + 1] else []
/-- The third source, old d. -/
def markD (u z : Bool) (d : BitVec 6) : List Nat := if z && !u then [d.toNat] else []
/-- d := f(a). -/
def State.una (s : State) (ok : Bool) (d a : BitVec 6) (w : BitVec 2) (u x : Bool) (per cls : Nat) (draws : Bool) (f : State → Nat → Word → Word × Nat) : State :=
  s.calc { legal := rd u d && Sys2Proof.rs u a && kx u x && ok, u := u, stall := w, per := per, cls := cls, uses := [(srcA u a).use],
           dests := [d.toNat], marks := markA u x a, draws := draws
           f := fun s k => let r := f s k (s.word (srcA u a) k); ([r.1], r.2) }
/-- d := f(a, b). -/
def State.bin (s : State) (ok : Bool) (d a b : BitVec 6) (w : BitVec 2) (u x y : Bool) (per cls : Nat) (draws : Bool)
    (f : State → Nat → Word → Word → Word × Nat) : State :=
  s.calc { legal := rd u d && Sys2Proof.rs u a && kx u x && kx u y && ok, u := u, stall := w, per := per, cls := cls
           uses := [(srcA u a).use, (srcB u b).use], dests := [d.toNat], marks := markA u x a ++ markB u y b, draws := draws
           f := fun s k => let r := f s k (s.word (srcA u a) k) (s.word (srcB u b) k); ([r.1], r.2) }
/-- d := f(a, b, old d). -/
def State.tri (s : State) (ok : Bool) (d a b : BitVec 6) (w : BitVec 2) (u x y z : Bool) (per cls : Nat) (draws : Bool)
    (f : State → Nat → Word → Word → Word → Word × Nat) : State :=
  s.calc { legal := rd u d && Sys2Proof.rs u a && kx u x && kx u y && kx u z && ok, u := u, stall := w, per := per, cls := cls
           uses := [(srcA u a).use, (srcB u b).use, (srcA u d).use], dests := [d.toNat]
           marks := markA u x a ++ markB u y b ++ markD u z d, draws := draws
           f := fun s k => let r := f s k (s.word (srcA u a) k) (s.word (srcB u b) k) (s.word (srcA u d) k); ([r.1], r.2) }
/-- p(2d), p(2d+1) or CM bit d := condition of a and b (R118, R129). -/
def State.cmp (s : State) (ok : Bool) (d a b : BitVec 6) (w : BitVec 2) (u x y : Bool) (f : State → Word → Word → Bool × Nat) : State :=
  s.compare { legal := cd u d && Sys2Proof.rs u a && kx u x && kx u y && ok, u := u, stall := w
              uses := [(srcA u a).use, (srcB u b).use], d := d.toNat, marks := markA u x a ++ markB u y b
              f := fun s k => f s (s.word (srcA u a) k) (s.word (srcB u b) k) }
/-- d := f(a) of an I-form word: the result is interlocked (R30). -/
def State.imm (s : State) (ok : Bool) (d a : BitVec 6) (u : Bool) (f : Word → Word) : State :=
  s.calc { legal := rd u d && Sys2Proof.rs u a && ok, u := u, uses := [(srcA u a).use], dests := [d.toNat]
           f := fun s k => ([f (s.word (srcA u a) k)], 0) }

/-- An instruction executed once for the group, never guarded: its checks, its effect, one beat. -/
def State.once (s : State) (legal : Bool) (uses : List Use) (stall : BitVec 2) (f : State → State) : State :=
  s.checked legal true uses fun s => (f s).retire { stall := stallOf stall }

end Sys2Proof.Machine
end

