-- ==== Sys2Proof/Machine/Integer.lean ====
section
/-! DEFINITION. Opcodes 0x20 to 0x2F: integer arithmetic (R44, R107 to R109). -/

namespace Sys2Proof.Machine

/-! ### Elements (R43, R44, R107) -/

/-- Width and signedness of the integer elements of an instruction: ET's map in the vector form, 32 bits in the uniform form. -/
def intType (u : Bool) (m : Word) : Nat × Bool :=
  if u then (32, true)
  else match modeET m with
    | 0 => (32, true)
    | 1 => (16, true)
    | 2 => (16, true)
    | 3 => (32, true)
    | 4 => (32, false)
    | 5 => (16, true)
    | 6 => (16, false)
    | 7 => (8, true)
    | _ => (8, false)
/-- The value of an element. -/
def intVal (sgn : Bool) (w v : Nat) : Int := if sgn && decide (2 ^ (w - 1) ≤ v) then (v : Int) - 2 ^ w else v
/-- The range of an element type. -/
def intLo (sgn : Bool) (w : Nat) : Int := if sgn then -(2 ^ (w - 1)) else 0
/-- Its upper end. -/
def intHi (sgn : Bool) (w : Nat) : Int := if sgn then 2 ^ (w - 1) - 1 else 2 ^ w - 1
/-- The bits of an exact result: wrapped, or clamped with ISAT under SAT (R44). -/
def intBits (sgn sat : Bool) (w : Nat) (x : Int) : Nat × Nat :=
  if sat && decide (x < intLo sgn w) then ((intLo sgn w % 2 ^ w).toNat, fISAT)
  else if sat && decide (intHi sgn w < x) then ((intHi sgn w % 2 ^ w).toNat, fISAT)
  else ((x % 2 ^ w).toNat, 0)
/-- A word from its elements, element 0 lowest (R43). -/
def joinElems (w : Nat) : List Nat → Nat
  | [] => 0
  | e :: es => e % 2 ^ w + 2 ^ w * joinElems w es
/-- The word whose elements a function gives, with the OR of their flags (R43). -/
def eachElem (w : Nat) (f : Nat → Nat × Nat) : Word × Nat :=
  let rs := (List.range (32 / w)).map fun k => f (w * k)
  (BitVec.ofNat 32 (joinElems w (rs.map (·.1))), orFlags (rs.map (·.2)))
/-- An integer operation on the elements of three words: `sgn` is the mnemonic's signedness, if it names one; the operation gets
the element width, the signedness and the values and gives the exact result and its flags; `sats` says whether SAT applies. -/
def State.ints (s : State) (u sats : Bool) (sgn : Option Bool) (f : Nat → Bool → Int → Int → Int → Int × Nat) (a b c : Word) : Word × Nat :=
  let t := intType u s.me.mode
  let w := t.1
  let g := sgn.getD t.2
  eachElem w fun k =>
    let r := f w g (intVal g w (bits a k w)) (intVal g w (bits b k w)) (intVal g w (bits c k w))
    let v := intBits g (sats && !u && modeSAT s.me.mode) w r.1
    (v.1, r.2 ||| v.2)
/-- An exact two-operand result without flags of its own. -/
def exact2 (f : Int → Int → Int) (_w : Nat) (_g : Bool) (a b _c : Int) : Int × Nat := (f a b, 0)
/-- The high half of a double-width product. -/
def highHalf (w : Nat) (_g : Bool) (a b _c : Int) : Int × Nat := (a * b / 2 ^ w, 0)
/-- Division with its edges (R109). -/
def divide (w : Nat) (g : Bool) (a b _c : Int) : Int × Nat :=
  if b = 0 then (if g then -1 else 2 ^ w - 1, fDZ) else (Int.tdiv a b, 0)
/-- Remainder with its edges (R109). -/
def remainder (_w : Nat) (_g : Bool) (a b _c : Int) : Int × Nat := if b = 0 then (a, fDZ) else (Int.tmod a b, 0)

/-! ### The instructions (R108, R109) -/

/-- IADD. -/
def execIadd (d a b : BitVec 6) (w : BitVec 2) (u x y : Bool) (s : State) : Out :=
  .next (s.bin true d a b w u x y 1 clsSIMPLE false fun s _ p q => s.ints u true none (exact2 (· + ·)) p q 0)
/-- ISUB. -/
def execIsub (d a b : BitVec 6) (w : BitVec 2) (u x y : Bool) (s : State) : Out :=
  .next (s.bin true d a b w u x y 1 clsSIMPLE false fun s _ p q => s.ints u true none (exact2 (· - ·)) p q 0)
/-- IMUL. -/
def execImul (d a b : BitVec 6) (w : BitVec 2) (u x y : Bool) (s : State) : Out :=
  .next (s.bin true d a b w u x y 1 clsARITH false fun s _ p q => s.ints u true none (exact2 (· * ·)) p q 0)
/-- IMULH. -/
def execImulh (d a b : BitVec 6) (w : BitVec 2) (u x y : Bool) (s : State) : Out :=
  .next (s.bin true d a b w u x y 1 clsARITH false fun s _ p q => s.ints u false (some true) highHalf p q 0)
/-- IMULHU. -/
def execImulhu (d a b : BitVec 6) (w : BitVec 2) (u x y : Bool) (s : State) : Out :=
  .next (s.bin true d a b w u x y 1 clsARITH false fun s _ p q => s.ints u false (some false) highHalf p q 0)
/-- IMAD. -/
def execImad (d a b : BitVec 6) (w : BitVec 2) (u x y z : Bool) (s : State) : Out :=
  .next (s.tri true d a b w u x y z 1 clsARITH false fun s _ p q r =>
    s.ints u true none (fun _ _ a b c => (a * b + c, 0)) p q r)
/-- IDIV. -/
def execIdiv (d a b : BitVec 6) (w : BitVec 2) (u x y : Bool) (s : State) : Out :=
  .next (s.bin true d a b w u x y 4 clsNONE false fun s _ p q => s.ints u true (some true) divide p q 0)
/-- IDIVU. -/
def execIdivu (d a b : BitVec 6) (w : BitVec 2) (u x y : Bool) (s : State) : Out :=
  .next (s.bin true d a b w u x y 4 clsNONE false fun s _ p q => s.ints u true (some false) divide p q 0)
/-- IREM. -/
def execIrem (d a b : BitVec 6) (w : BitVec 2) (u x y : Bool) (s : State) : Out :=
  .next (s.bin true d a b w u x y 4 clsNONE false fun s _ p q => s.ints u true (some true) remainder p q 0)
/-- IREMU. -/
def execIremu (d a b : BitVec 6) (w : BitVec 2) (u x y : Bool) (s : State) : Out :=
  .next (s.bin true d a b w u x y 4 clsNONE false fun s _ p q => s.ints u true (some false) remainder p q 0)
/-- IMIN. -/
def execImin (d a b : BitVec 6) (w : BitVec 2) (u x y : Bool) (s : State) : Out :=
  .next (s.bin true d a b w u x y 1 clsSIMPLE false fun s _ p q => s.ints u false (some true) (exact2 min) p q 0)
/-- IMAX. -/
def execImax (d a b : BitVec 6) (w : BitVec 2) (u x y : Bool) (s : State) : Out :=
  .next (s.bin true d a b w u x y 1 clsSIMPLE false fun s _ p q => s.ints u false (some true) (exact2 max) p q 0)
/-- IMINU. -/
def execIminu (d a b : BitVec 6) (w : BitVec 2) (u x y : Bool) (s : State) : Out :=
  .next (s.bin true d a b w u x y 1 clsSIMPLE false fun s _ p q => s.ints u false (some false) (exact2 min) p q 0)
/-- IMAXU. -/
def execImaxu (d a b : BitVec 6) (w : BitVec 2) (u x y : Bool) (s : State) : Out :=
  .next (s.bin true d a b w u x y 1 clsSIMPLE false fun s _ p q => s.ints u false (some false) (exact2 max) p q 0)
/-- IABS. -/
def execIabs (d a : BitVec 6) (w : BitVec 2) (u x : Bool) (s : State) : Out :=
  .next (s.una true d a w u x 1 clsSIMPLE false fun s _ p => s.ints u true (some true) (fun _ _ a _ _ => (a.natAbs, 0)) p 0 0)
/-- INEG. -/
def execIneg (d a : BitVec 6) (w : BitVec 2) (u x : Bool) (s : State) : Out :=
  .next (s.una true d a w u x 1 clsSIMPLE false fun s _ p => s.ints u true (some true) (fun _ _ a _ _ => (-a, 0)) p 0 0)

end Sys2Proof.Machine
end

