-- ==== Sys2Proof/Machine/Memory.lean ====
section
/-! DEFINITION. Opcodes 0xB0 to 0xC0: loads, stores, prefetch, fence, cache maintenance (R24, R166 to R173). -/

namespace Sys2Proof.Machine

/-! ### Addresses (R24) -/

/-- What reading the base of an M-form word is. -/
def baseUse (u : Bool) (a : BitVec 6) : List Use :=
  if u then [.s a.toNat, .s (a.toNat + 1)]
  else if odd a then [.s (a.toNat - 1), .s a.toNat] else [.v a.toNat, .v (a.toNat + 1)]
/-- The base address of a lane. -/
def State.baseOf (s : State) (u : Bool) (a : BitVec 6) (lane : Nat) : DWord :=
  if u then s.rpair a.toNat
  else if odd a then s.rpair (a.toNat - 1) else s.dword (.v a.toNat) lane
/-- The effective address of a lane: base + off8 · size modulo 2^64. -/
def State.effective (s : State) (u : Bool) (a : BitVec 6) (off : BitVec 8) (size lane : Nat) : Nat :=
  (s.baseOf u a lane + off.signExtend 64 * BitVec.ofNat 64 size).toNat
/-- The lanes that make an access: the active ones, or one for the uniform form (64 stands for it). -/
def State.askers (s : State) (u : Bool) : List Nat := if u then [64] else lanesOf s.active
/-- XMASK of a cause of some accesses: their lanes, or EXM(P) for an instruction executed once (R323). -/
def State.askMask (s : State) (u : Bool) (m : LaneMask) : LaneMask := if u then s.exm else m
/-- Beats of an access instruction (R166). -/
def State.askBeats (s : State) (u : Bool) : Nat := if u then 1 else beatsOf s.active
/-- The scope of the mode word (R15). -/
def State.scope (s : State) : Nat := modeSCOPE s.me.mode

/-! ### Causes of an access instruction (R169, R343) -/

/-- Takes the refusal of an access instruction. -/
def State.refuse (s : State) (r : Refuse) (mask : LaneMask) (write : Bool) : State :=
  s.fail { code := r.cause.1, detail := r.cause.2.1, mask := mask, vaddr := BitVec.ofNat 64 r.cause.2.2, write := write }
/-- An L1 line found uncorrectable is invalidated at detection (R343). -/
def State.dropStruckLine (s : State) (kind addr pa : Nat) : State :=
  if kind = 3 then (s.unstrike 3 s.me.tile addr).setMyTeam fun t => { t with l1 := drop (pa / 128) t.l1 } else s
/-- Consumes an uncorrectable word (R343, R345). -/
def State.consume (s : State) (kind addr pa : Nat) (mask : LaneMask) (write : Bool) : State :=
  (s.dropStruckLine kind addr pa).fail { code := 0x0D, detail := kind, mask := mask, paddr := BitVec.ofNat 64 pa, write := write }
/-- Runs the accesses of an instruction: every address is checked before any access is performed (R169), a versioned store waits for
room (R276), a load that meets an uncorrectable word consumes it (R343). -/
def State.accesses (s : State) (u strong : Bool) (k : Acc) (need : Nat) (as : List Access) (reads : Bool) (go : List Access → State → State) : State :=
  let ag := s.groupAgent s.me
  match s.firstRefusal ag k need as with
  | some (r, m) => s.refuse r (s.askMask u m) k.writes
  | none =>
    let as := s.placed ag k as
    if k.writes && !s.versionRoom ag as then s.block .quota
    else
      let s := s.before ag strong as
      match if reads then s.poisonOf ag (!strong) as else none with
      | some (kind, addr, pa, m) => s.consume kind addr pa (s.askMask u m) k.writes
      | none => go as (s.noteTlb (s.core ag) ag.part (pagesOf as))

/-! ### Loads (R166 to R170) -/

/-- Loads of every access in ascending lane order: the bytes of each lane. -/
def State.loadAll (s : State) (strong : Bool) : List Access → List (Nat × List Byte) × State
  | [] => ([], s)
  | a :: as =>
    let r := s.loadAccess (s.groupAgent s.me) strong a
    let t := State.loadAll r.2 strong as
    ((a.lane, r.1) :: t.1, t.2)
/-- A word extended from its low bytes. -/
def extend (sx : Bool) (bs : List Byte) : Word :=
  if sx then lo32 (sext (8 * bs.length) (leNat bs)) else BitVec.ofNat 32 (leNat bs)
/-- The words of loaded bytes: one extended word, or consecutive words. -/
def wordsOfBytes (sx : Bool) (bs : List Byte) : List Word :=
  if bs.length < 4 then [extend sx bs] else (List.range (bs.length / 4)).map fun k => BitVec.ofNat 32 (leNat ((bs.drop (4 * k)).take 4))
/-- Registers an access of a size uses. -/
def regsOf (size : Nat) : Nat := max 1 (size / 4)
/-- Completes a load: registers written, acquire performed. -/
def State.loaded (s : State) (u : Bool) (d : Nat) (n : Nat) (ord : BitVec 3) (beats : Nat) (act : LaneMask) (vals : List (Nat × List Word)) : State :=
  let names := (List.range n).map (d + ·)
  let of := fun k => ((vals.find? (·.1 == k)).map (·.2)).getD []
  let s1 :=
    if u then (names.zip ((List.range n).map fun k => (of 64).getD k 0)).foldl (fun s p => s.putS p.1 p.2 clsNONE) s
    else (State.allocRows names s).writeResults act ((List.range 64).map of) 0 names
  (if ord = 2 then s1.acquire s1.scope else s1).retire { beats := beats }
/-- A load of `size` bytes. -/
def State.load (s : State) (ok sx : Bool) (size : Nat) (d a : BitVec 6) (u : Bool) (off : BitVec 8) (ord : BitVec 3) : Out :=
  .next (s.checked (ok && base u a && small ord 3) u (baseUse u a) fun s =>
    let strong := ord != 0
    let n := regsOf size
    if !u && !State.rowsFor [] ((List.range n).map (d.toNat + ·)) s then s.noRows [] ((List.range n).map (d.toNat + ·))
    else
      let as : List Access := (s.askers u).map fun k => { lane := k, va := s.effective u a off size k, size := size }
      s.accesses u strong .load (if strong then size else 0) as true fun as s =>
        let r := s.loadAll strong as
        r.2.loaded u d.toNat n ord (s.askBeats u) s.active (r.1.map fun x => (x.1, wordsOfBytes sx x.2)))
/-- LDB. -/
def execLdb (d a : BitVec 6) (u : Bool) (off : BitVec 8) (r : BitVec 3) (s : State) : Out := s.load (rd u d) false 1 d a u off r
/-- LDBS. -/
def execLdbs (d a : BitVec 6) (u : Bool) (off : BitVec 8) (r : BitVec 3) (s : State) : Out := s.load (rd u d) true 1 d a u off r
/-- LDH. -/
def execLdh (d a : BitVec 6) (u : Bool) (off : BitVec 8) (r : BitVec 3) (s : State) : Out := s.load (rd u d) false 2 d a u off r
/-- LDHS. -/
def execLdhs (d a : BitVec 6) (u : Bool) (off : BitVec 8) (r : BitVec 3) (s : State) : Out := s.load (rd u d) true 2 d a u off r
/-- LDW. -/
def execLdw (d a : BitVec 6) (u : Bool) (off : BitVec 8) (r : BitVec 3) (s : State) : Out := s.load (rd u d) false 4 d a u off r
/-- LDD. -/
def execLdd (d a : BitVec 6) (u : Bool) (off : BitVec 8) (r : BitVec 3) (s : State) : Out := s.load (pr u d) false 8 d a u off r
/-- LDQ. -/
def execLdq (d a : BitVec 6) (u : Bool) (off : BitVec 8) (r : BitVec 3) (s : State) : Out := s.load (mult 4 u d) false 16 d a u off r
/-- LDLN: a block of W words at one address, word k into lane k (R170). -/
def execLdln (d a : BitVec 6) (off : BitVec 8) (r : BitVec 3) (s : State) : Out :=
  .next (s.checked (vr d && odd a && small r 3) false (baseUse false a) fun s =>
    let strong := r != 0
    let size := 4 * s.me.width.lanes
    let va := s.effective false a off size 0
    let act := s.active
    if !State.rowsFor [] [d.toNat] s then s.noRows [] [d.toNat]
    else match if act = 0 then none else s.refusal (s.groupAgent s.me) .load va size size with
      | some e => s.refuse e act false
      | none =>
        let as : List Access := (lanesOf act).map fun k => { lane := k, va := va + 4 * k, size := 4 }
        s.accesses false strong .load 0 as true fun as s =>
          let x := s.loadAll strong as
          x.2.loaded false d.toNat 1 r (beatsOf act) act (x.1.map fun y => (y.1, wordsOfBytes false y.2)))

/-! ### Stores (R166 to R170) -/

/-- The bytes a lane stores from register d on. -/
def State.storeData (s : State) (u : Bool) (d : BitVec 6) (size lane : Nat) : List Byte :=
  ((List.range (regsOf size)).flatMap fun k => leBytes 4 (s.word ((srcA u d).plus k) lane).toNat).take size
/-- A store of `size` bytes. -/
def State.store (s : State) (ok : Bool) (size : Nat) (d a : BitVec 6) (u : Bool) (off : BitVec 8) (ord : BitVec 3) : Out :=
  .next (s.checked (ok && base u a && storeOrd ord) u (baseUse u a ++ (List.range (regsOf size)).map fun k => ((srcA u d).plus k).use) fun s =>
    let strong := ord != 0
    let as : List Access := (s.askers u).map fun k => { lane := k, va := s.effective u a off size k, size := size, data := s.storeData u d size k }
    s.accesses u strong .store (if strong then size else 0) as false fun as s =>
      let n := s.askBeats u
      let s1 := if ord = 3 then s.release s.scope else s
      (as.foldl (fun (s : State) x => s.storeAccess (s.groupAgent s.me) s.me.seq strong x) s1).retire { beats := n })
/-- STB. -/
def execStb (d a : BitVec 6) (u : Bool) (off : BitVec 8) (r : BitVec 3) (s : State) : Out := s.store (rd u d) 1 d a u off r
/-- STH. -/
def execSth (d a : BitVec 6) (u : Bool) (off : BitVec 8) (r : BitVec 3) (s : State) : Out := s.store (rd u d) 2 d a u off r
/-- STW. -/
def execStw (d a : BitVec 6) (u : Bool) (off : BitVec 8) (r : BitVec 3) (s : State) : Out := s.store (rd u d) 4 d a u off r
/-- STD. -/
def execStd (d a : BitVec 6) (u : Bool) (off : BitVec 8) (r : BitVec 3) (s : State) : Out := s.store (pr u d) 8 d a u off r
/-- STQ. -/
def execStq (d a : BitVec 6) (u : Bool) (off : BitVec 8) (r : BitVec 3) (s : State) : Out := s.store (mult 4 u d) 16 d a u off r

/-! ### Prefetch, fence, cache maintenance (R171 to R173) -/

/-- PREF: an address that would fault is dropped; with ord 0 the line comes into the team's L1 share. -/
def execPref (a : BitVec 6) (u : Bool) (off : BitVec 8) (r : BitVec 3) (s : State) : Out :=
  .next (s.checked (base u a && small r 2) u (baseUse u a) fun s =>
    let ag := s.groupAgent s.me
    let vas := (s.askers u).map fun k => s.effective u a off 1 k
    let s1 := if r = 0 then vas.foldl (fun (s : State) va => match s.locate ag .load va with
      | .ok (.dev pa) => (s.settleShare s.me.team).fill ag s.me.team (pa / 128)
      | _ => s) s else s
    s1.retire { beats := s.askBeats u })
/-- FENCE: a release drains, an acquire invalidates, at the scope of the mode word. Every access of this model has been performed when
its instruction completes, so no order remains to be kept beyond these effects. -/
def execFence (r : BitVec 3) (s : State) : Out :=
  .next (s.once (fenceOrd r) [] 0 fun s =>
    let s1 := if r = 3 || r = 4 then s.release s.scope else s
    if r = 2 || r = 4 then s1.acquire s1.scope else s1)
/-- Whether a physical line of device memory is touched by a virtual range, as the partition translates it now. -/
def State.lineInRange (s : State) (team part va len line : Nat) : Bool :=
  (piecesOf 14 (va / 128 * 128) ((va + len + 127) / 128 * 128 - va / 128 * 128)).any fun (a, n) =>
    decide (a < bankBase) && (match s.translate (s.core { part := part, team := some team }) part a with
      | .ok l => !l.has 5 && decide (l.phys a ≤ line * 128) && decide (line * 128 < l.phys a + n)
      | .error _ => false)
/-- The range of a CFLUSH or CINV word: whole L1, or base and length; lines by this test (R173). -/
def State.maintained (s : State) (a b : BitVec 6) (whole : Bool) (line : Nat) : Bool :=
  whole || ((s.rs b.toNat) != 0 && s.lineInRange s.me.team s.me.part (s.rpair a.toNat).toNat (s.rs b.toNat).toNat line)
/-- CFLUSH and CINV: their checks. -/
def State.maintain (s : State) (a b : BitVec 6) (whole : Bool) (sc : BitVec 3) (go : State → State) : Out :=
  .next (s.checked (flushOk a b whole sc) true (if whole then [] else [.s a.toNat, .s (a.toNat + 1), .s b.toNat]) fun s =>
    if !whole && bits (s.rpair a.toNat) 56 8 ≠ 0 then s.raise { code := 0x05, mask := s.exm, vaddr := s.rpair a.toNat }
    else (go s).retire {})
/-- CFLUSH: the buffer's entries for the range drain; at system scope the L2 lines are written back, which no access can observe. -/
def execCflush (a b : BitVec 6) (whole : Bool) (sc : BitVec 3) (s : State) : Out :=
  s.maintain a b whole sc fun s =>
    ((s.myTeam.wbuf.map (·.line)).filter (s.maintained a b whole)).foldl (fun s l => s.drainEntry s.me.team l) s
/-- CINV: at device and system scope the core's L1 lines in the range are invalidated. -/
def execCinv (a b : BitVec 6) (whole : Bool) (sc : BitVec 3) (s : State) : Out :=
  s.maintain a b whole sc fun s =>
    if sc.toNat < 3 then s
    else { s with teams := s.teams.map fun t =>
      if t.tile = s.me.tile then { t with l1 := t.l1.filter fun e => !s.maintained a b whole e.1 } else t }

end Sys2Proof.Machine
end

