-- ==== Sys2Proof/Machine/Numbers.lean ====
section
/-! DEFINITION. Number formats and exact arithmetic (R42, R45 to R53, R60, R66, R76 to R78): unpacking, the one rounding, and the
operations whose exact results it rounds. -/

namespace Sys2Proof.Machine

/-! ### Formats (R42, R60, R66) -/

/-- Which encodings of a format stand for infinities and NaN: as R42, NaN only in the top encoding (E4M3), none. -/
inductive Specials where
  | ieee | topNan | none
  deriving DecidableEq, Repr

/-- A binary format: exponent bits, fraction bits, bias, special encodings. -/
structure Fmt where
  eb : Nat
  fb : Nat
  bias : Int
  sp : Specials := .ieee
  deriving DecidableEq, Repr

/-- binary32. -/
def fp32 : Fmt := { eb := 8, fb := 23, bias := 127 }
/-- BF16. -/
def bf16 : Fmt := { eb := 8, fb := 7, bias := 127 }
/-- binary16. -/
def fp16 : Fmt := { eb := 5, fb := 10, bias := 15 }
/-- FP8-E4M3. -/
def e4m3 : Fmt := { eb := 4, fb := 3, bias := 7, sp := .topNan }
/-- FP8-E5M2. -/
def e5m2 : Fmt := { eb := 5, fb := 2, bias := 15 }
/-- FP6-E3M2. -/
def e3m2 : Fmt := { eb := 3, fb := 2, bias := 3, sp := .none }
/-- FP4-E2M1. -/
def e2m1 : Fmt := { eb := 2, fb := 1, bias := 1, sp := .none }
/-- The accumulator format E40. -/
def e40 : Fmt := { eb := 8, fb := 31, bias := 127 }

/-- The width of a format. -/
def Fmt.width (f : Fmt) : Nat := 1 + f.eb + f.fb
/-- The sign bit of a format, set or clear. -/
def Fmt.sign (f : Fmt) (neg : Bool) : Nat := if neg then 2 ^ (f.eb + f.fb) else 0
/-- Zero with a sign. -/
def Fmt.zero (f : Fmt) (neg : Bool) : Nat := f.sign neg
/-- Infinity with a sign. -/
def Fmt.inf (f : Fmt) (neg : Bool) : Nat := f.sign neg + (2 ^ f.eb - 1) * 2 ^ f.fb
/-- The canonical NaN; formats without one answer +0 (R77). -/
def Fmt.nan (f : Fmt) : Nat :=
  match f.sp with
  | .ieee => (2 ^ f.eb - 1) * 2 ^ f.fb + 2 ^ (f.fb - 1)
  | .topNan => 2 ^ (f.eb + f.fb) - 1
  | .none => 0
/-- Exponent field and fraction of the largest finite value. -/
def Fmt.top (f : Fmt) : Nat :=
  match f.sp with
  | .ieee => (2 ^ f.eb - 1) * 2 ^ f.fb - 1
  | .topNan => 2 ^ (f.eb + f.fb) - 2
  | .none => 2 ^ (f.eb + f.fb) - 1
/-- The largest finite value with a sign. -/
def Fmt.largest (f : Fmt) (neg : Bool) : Nat := f.sign neg + f.top
/-- The exponent of the smallest normal. -/
def Fmt.emin (f : Fmt) : Int := 1 - f.bias

/-- A floating-point value: NaN (signalling or quiet), infinity, or ±m · 2^e. -/
inductive Fp where
  | nan (signalling : Bool)
  | inf (neg : Bool)
  | fin (neg : Bool) (m : Nat) (e : Int)
  deriving DecidableEq, Repr

/-- FTZ acts on FP32, BF16 and FP16 elements (R52, log entry 34). -/
def Fmt.flushes (f : Fmt) : Bool := f == fp32 || f == bf16 || f == fp16
/-- The value of an encoding; with `ftz` a subnormal counts as a zero of its sign (R42, R52). -/
def Fmt.unpack (f : Fmt) (ftz : Bool) (v : Nat) : Fp :=
  let neg := v / 2 ^ (f.eb + f.fb) % 2 == 1
  let ex := v / 2 ^ f.fb % 2 ^ f.eb
  let fr := v % 2 ^ f.fb
  if f.sp = .ieee && ex == 2 ^ f.eb - 1 then (if fr = 0 then .inf neg else .nan (decide (fr < 2 ^ (f.fb - 1))))
  else if f.sp = .topNan && v % 2 ^ (f.eb + f.fb) == 2 ^ (f.eb + f.fb) - 1 then .nan false
  else if ex = 0 then .fin neg (if ftz && f.flushes then 0 else fr) (f.emin - f.fb)
  else .fin neg (2 ^ f.fb + fr) (ex - f.bias - f.fb)

/-- The sign of a value. -/
def Fp.neg : Fp → Bool
  | .nan _ => false
  | .inf n => n
  | .fin n _ _ => n
/-- The value with its sign inverted. -/
def Fp.flip : Fp → Fp
  | .nan q => .nan q
  | .inf n => .inf !n
  | .fin n m e => .fin (!n) m e
/-- The value without its sign. -/
def Fp.abs : Fp → Fp
  | .nan q => .nan q
  | .inf _ => .inf false
  | .fin _ m e => .fin false m e
/-- Whether it is NaN. -/
def Fp.isNan : Fp → Bool
  | .nan _ => true
  | _ => false
/-- Whether it is a signalling NaN. -/
def Fp.isSnan : Fp → Bool
  | .nan q => q
  | _ => false
/-- Whether it is infinite. -/
def Fp.isInf : Fp → Bool
  | .inf _ => true
  | _ => false
/-- Whether it is a zero. -/
def Fp.isZero : Fp → Bool
  | .fin _ 0 _ => true
  | _ => false
/-- NV for a signalling operand (R46). -/
def nvOf (xs : List Fp) : Nat := if xs.any Fp.isSnan then fNV else 0

/-! ### Exact values and the one rounding (R48 to R52) -/

/-- An exact real (-1)^neg · (m + δ) · 2^e, with 0 < δ < 1 where `sticky`, δ = 0 otherwise. An operation that sets `sticky` gives `m` at
least 60 bits, so that every discarded fraction of R49 is exact. -/
structure Exact where
  neg : Bool := false
  m : Nat
  e : Int := 0
  sticky : Bool := false
  deriving DecidableEq, Repr

/-- How results are rounded: mode, saturation, flushing, the draw of this element. -/
structure Env where
  rm : Nat := 0
  sat : Bool := false
  ftz : Bool := false
  r : Nat := 0
  deriving DecidableEq, Repr

/-- Rounds to a multiple of 2^q: the multiple, and whether the value was none (R48, R49). -/
def roundAt (v : Env) (x : Exact) (q : Int) : Nat × Bool :=
  if q ≤ x.e then (x.m * 2 ^ (x.e - q).toNat, x.sticky)
  else
    let sh := (q - x.e).toNat
    let n := x.m / 2 ^ sh
    let rem := x.m % 2 ^ sh
    let inexact := rem != 0 || x.sticky
    let half := 2 ^ (sh - 1)
    let up := inexact && (match v.rm with
      | 0 => decide (half < rem) || (rem == half && (x.sticky || n % 2 == 1))
      | 1 => false
      | 2 => !x.neg
      | 3 => x.neg
      | 4 => decide (half ≤ rem)
      | _ => decide (v.r / 2 ^ 8 < rem * 2 ^ 24 / 2 ^ sh))
    (if up then n + 1 else n, inexact)
/-- The result of an overflow (R50); formats without infinities saturate (R77). -/
def Fmt.overflow (f : Fmt) (v : Env) (neg : Bool) : Nat :=
  let toInf := match v.rm with
    | 0 => true
    | 4 => true
    | 2 => !neg
    | 3 => neg
    | _ => false
  if f.sp = .ieee && toInf && !v.sat then f.inf neg else f.largest neg
/-- Rounds an exact value into a format: its bits and flags (R48 to R52). -/
def Fmt.round (f : Fmt) (v : Env) (x : Exact) : Nat × Nat :=
  if x.m = 0 && !x.sticky then (f.zero x.neg, 0)
  else
    let top := (Nat.log2 x.m : Int) + x.e
    let q := max top f.emin - f.fb
    let r := roundAt v x q
    let tiny := decide (top < f.emin) &&
      (let u := top - f.fb
       decide ((roundAt v x u).1 < 2 ^ (f.emin - u).toNat))
    let maxM := if f.sp = .topNan then 2 ^ (f.fb + 1) - 2 else 2 ^ (f.fb + 1) - 1
    let maxE := (f.top / 2 ^ f.fb : Nat) - f.bias - (f.fb : Int)
    if v.ftz && f.flushes && tiny then (f.zero x.neg, fUF ||| fNX)
    -- overflow under the mode, or under rounding to nearest: the last of the cases of R78 sets OF under RTZ
    else if decide (maxE < q) || decide (maxM * 2 ^ (maxE - q).toNat < r.1) || decide (maxM * 2 ^ (maxE - q).toNat < (roundAt { v with rm := 0 } x q).1) then
      (f.overflow v x.neg, fOF ||| fNX)
    else
      let fl := if r.2 then (if tiny then fUF ||| fNX else fNX) else 0
      -- the exponent field and the fraction, the hidden bit carrying into the field
      let bits := if r.1 < 2 ^ f.fb then r.1 else (q - f.emin + f.fb).toNat * 2 ^ f.fb + r.1
      (f.sign x.neg + bits, fl)
/-- The exact value of a finite number. -/
def Fp.exact : Fp → Exact
  | .fin n m e => { neg := n, m := m, e := e }
  | _ => { m := 0 }
/-- A result: special, or an exact value that is still to be rounded. -/
inductive Res where
  | nan (fl : Nat)
  | inf (neg : Bool) (fl : Nat)
  | exact (x : Exact)
  deriving DecidableEq, Repr
/-- The encoding of a result and its flags (R45, R50, R123). -/
def Fmt.deliver (f : Fmt) (v : Env) : Res → Nat × Nat
  | .nan fl => (f.nan, fl)
  | .inf n fl => (f.inf n, fl)
  | .exact x => f.round v x

/-! ### Exact operations (R46, R47, R126, R131) -/

/-- The signed significand of a value at a common exponent. -/
def signedAt (neg : Bool) (m : Nat) (e q : Int) : Int := (if neg then -1 else 1) * ((m * 2 ^ (e - q).toNat : Nat) : Int)
/-- An exact value from a signed significand; a zero takes the given sign. -/
def ofSigned (zneg : Bool) (m e : Int) : Exact := { neg := if m = 0 then zneg else decide (m < 0), m := m.natAbs, e := e }
/-- The sign of an exact-zero sum of two terms with the given signs (R47). -/
def zeroSign (rm : Nat) (a b : Bool) : Bool := if a = b then a else rm == 3
/-- The sum of two finite values. -/
def addFin (rm : Nat) (na : Bool) (ma : Nat) (ea : Int) (nb : Bool) (mb : Nat) (eb : Int) : Exact :=
  let q := min ea eb
  let x := ofSigned (zeroSign rm na nb) (signedAt na ma ea q + signedAt nb mb eb q) q
  if ma = 0 && mb = 0 then x else if x.m = 0 then { x with neg := rm == 3 } else x
/-- a + b. -/
def Fp.add (rm : Nat) (a b : Fp) : Res :=
  match a, b with
  | .nan _, _ => .nan (nvOf [a, b])
  | _, .nan _ => .nan (nvOf [a, b])
  | .inf x, .inf y => if x = y then .inf x 0 else .nan fNV
  | .inf x, _ => .inf x 0
  | _, .inf y => .inf y 0
  | .fin na ma ea, .fin nb mb eb => .exact (addFin rm na ma ea nb mb eb)
/-- a · b. -/
def Fp.mul (a b : Fp) : Res :=
  match a, b with
  | .nan _, _ => .nan (nvOf [a, b])
  | _, .nan _ => .nan (nvOf [a, b])
  | .inf x, b => if b.isZero then .nan fNV else .inf (x != b.neg) 0
  | a, .inf y => if a.isZero then .nan fNV else .inf (a.neg != y) 0
  | .fin na ma ea, .fin nb mb eb => .exact { neg := na != nb, m := ma * mb, e := ea + eb }
/-- a · b + c with one rounding: 0 × ∞ sets NV even beside a quiet NaN addend (R126). -/
def Fp.fma (rm : Nat) (a b c : Fp) : Res :=
  if (a.isInf && b.isZero) || (a.isZero && b.isInf) then .nan fNV
  else if a.isNan || b.isNan || c.isNan then .nan (nvOf [a, b, c])
  else match Fp.mul a b with
    | .exact p => match c with
      | .fin nc mc ec => .exact (addFin rm p.neg p.m p.e nc mc ec)
      | .inf n => .inf n 0
      | .nan _ => .nan 0
    | .inf n _ => match c with
      | .inf k => if n = k then .inf n 0 else .nan fNV
      | _ => .inf n 0
    | r => r
/-- A quotient of naturals, with enough bits for every rounding. -/
def quotient (neg : Bool) (num den : Nat) (e : Int) : Exact :=
  let k := Nat.log2 den + 128
  { neg := neg, m := num * 2 ^ k / den, e := e - k, sticky := num * 2 ^ k % den != 0 }
/-- a ÷ b (R131). -/
def Fp.div (a b : Fp) : Res :=
  match a, b with
  | .nan _, _ => .nan (nvOf [a, b])
  | _, .nan _ => .nan (nvOf [a, b])
  | .inf _, .inf _ => .nan fNV
  | .inf x, b => .inf (x != b.neg) 0
  | a, .inf y => .exact { neg := a.neg != y, m := 0 }
  | .fin na ma ea, .fin nb mb eb =>
    if mb = 0 then (if ma = 0 then .nan fNV else .inf (na != nb) fDZ)
    else if ma = 0 then .exact { neg := na != nb, m := 0 }
    else .exact (quotient (na != nb) ma mb (ea - eb))
/-- The integer square root, bit by bit from bit `k` down. -/
def isqrtFrom (n : Nat) : Nat → Nat → Nat
  | 0, r => r
  | k + 1, r => isqrtFrom n k (if (r + 2 ^ k) * (r + 2 ^ k) ≤ n then r + 2 ^ k else r)
/-- The integer square root. -/
def isqrt (n : Nat) : Nat := isqrtFrom n (Nat.log2 n / 2 + 1) 0
/-- √a (R131). -/
def Fp.sqrt (a : Fp) : Res :=
  match a with
  | .nan _ => .nan (nvOf [a])
  | .inf true => .nan fNV
  | .inf false => .inf false 0
  | .fin n 0 _ => .exact { neg := n, m := 0 }
  | .fin true _ _ => .nan fNV
  | .fin false m e =>
    let odd := e % 2 != 0
    let m1 := (if odd then 2 * m else m) * 2 ^ 160
    let e1 := (if odd then e - 1 else e) - 160
    let r := isqrt m1
    .exact { m := r, e := e1 / 2, sticky := r * r != m1 }
/-- The order of two values that are not NaN: -1, 0 or 1. -/
def Fp.order (a b : Fp) : Int :=
  match a, b with
  | .inf x, .inf y => if x = y then 0 else if x then -1 else 1
  | .inf x, _ => if x then -1 else 1
  | _, .inf y => if y then 1 else -1
  | .fin na ma ea, .fin nb mb eb =>
    let q := min ea eb
    (signedAt na ma ea q - signedAt nb mb eb q).sign
  | _, _ => 0

/-! ### Conversions (R76 to R78) -/

/-- From one float format to another. -/
def convertFloat (src dst : Fmt) (v : Env) (x : Nat) : Nat × Nat :=
  let a := src.unpack v.ftz x
  if src = dst then
    match a with
    | .nan true => (dst.nan, fNV)
    | .fin n 0 _ => (dst.zero n, 0)
    | _ => (x % 2 ^ dst.width, 0)
  else match a with
    | .nan q => if dst.sp = .none then (dst.zero false, fNV) else (dst.nan, if q then fNV else 0)
    | .inf n => if dst.sp = .ieee then (dst.inf n, 0) else (dst.largest n, fOF)
    | .fin _ _ _ => dst.round v a.exact
/-- From a float format to an integer of `w` bits: out of range gives the nearest bound with NV, NaN gives 0 with NV. -/
def convertToInt (src : Fmt) (sgn : Bool) (w : Nat) (v : Env) (x : Nat) : Int × Nat :=
  let lo : Int := if sgn then -(2 ^ (w - 1)) else 0
  let hi : Int := if sgn then 2 ^ (w - 1) - 1 else 2 ^ w - 1
  match src.unpack v.ftz x with
  | .nan _ => (0, fNV)
  | .inf n => (if n then lo else hi, fNV)
  | .fin n m e =>
    let r := roundAt v { neg := n, m := m, e := e } 0
    let y : Int := if n then -(r.1 : Int) else r.1
    if y < lo then (lo, fNV) else if hi < y then (hi, fNV) else (y, if r.2 then fNX else 0)
/-- From an integer to a float format. -/
def convertFromInt (dst : Fmt) (v : Env) (x : Int) : Nat × Nat := dst.round v { neg := decide (x < 0), m := x.natAbs }

end Sys2Proof.Machine
end

