-- ==== Sys2Proof/Machine/Float.lean ====
section
/-! DEFINITION. Opcodes 0x60 to 0x6F, 0x72, 0x73 and 0x7A to 0x7F: floating-point arithmetic, compares, division, root, value
utilities (R121 to R133). -/

namespace Sys2Proof.Machine

/-! ### Elements under ET (R43, R121) -/

/-- The float format that ET names. -/
def etFmt (m : Word) : Fmt :=
  match modeET m with
  | 1 => bf16
  | 2 => fp16
  | _ => fp32
/-- ET names a float format (R121). -/
def State.floatET (s : State) : Bool := decide (modeET s.me.mode ≤ 2)
/-- Whether a rounding instruction draws: RM is RSTO (R49). -/
def State.drawing (s : State) : Bool := modeRM s.me.mode == 5
/-- The environment of the mode word, with the 64-bit draw's part for element `k` (R49). -/
def State.env (s : State) (lane k : Nat) : Env :=
  { rm := modeRM s.me.mode, sat := modeSAT s.me.mode, ftz := modeFTZ s.me.mode,
    r := if s.drawing then bits (s.draw lane) (32 * k) 32 else 0 }
/-- Round to nearest even without saturation, flushing as the mode word says. -/
def State.envRNE (s : State) : Env := { ftz := modeFTZ s.me.mode }
/-- The elements of a word under ET: f gets the element number and the elements of three words. -/
def State.floats (s : State) (f : Nat → Nat → Nat → Nat → Nat × Nat) (a b c : Word) : Word × Nat :=
  let w := (etFmt s.me.mode).width
  eachFloat w fun k => f k (bits a (w * k) w) (bits b (w * k) w) (bits c (w * k) w)
where
  /-- The word whose elements of `w` bits a function gives, with the OR of their flags. -/
  eachFloat (w : Nat) (g : Nat → Nat × Nat) : Word × Nat :=
    let rs := (List.range (32 / w)).map g
    (BitVec.ofNat 32 ((rs.foldr (fun r n => r.1 % 2 ^ w + 2 ^ w * n) 0)), orFlags (rs.map (·.2)))
/-- A rounding operation on unpacked elements (R123). -/
def State.rounded (s : State) (lane : Nat) (f : Nat → Fp → Fp → Fp → Res) (a b c : Word) : Word × Nat :=
  let t := etFmt s.me.mode
  s.floats (fun k x y z =>
    let v := s.env lane k
    t.deliver v (f v.rm (t.unpack v.ftz x) (t.unpack v.ftz y) (t.unpack v.ftz z))) a b c
/-- A function of element encodings that rounds nothing. -/
def State.unrounded (s : State) (f : Fmt → Bool → Nat → Nat → Nat × Nat) (a b : Word) : Word × Nat :=
  let t := etFmt s.me.mode
  s.floats (fun _ x y _ => f t (modeFTZ s.me.mode) x y) a b 0

/-! ### Arithmetic (R126), minimum and maximum (R127), signs (R128) -/

/-- FADD. -/
def execFadd (d a b : BitVec 6) (w : BitVec 2) (u x y : Bool) (s : State) : Out :=
  .next (s.bin s.floatET d a b w u x y 1 clsARITH s.drawing fun s k p q => s.rounded k (fun rm a b _ => Fp.add rm a b) p q 0)
/-- FSUB. -/
def execFsub (d a b : BitVec 6) (w : BitVec 2) (u x y : Bool) (s : State) : Out :=
  .next (s.bin s.floatET d a b w u x y 1 clsARITH s.drawing fun s k p q => s.rounded k (fun rm a b _ => Fp.add rm a b.flip) p q 0)
/-- FMUL. -/
def execFmul (d a b : BitVec 6) (w : BitVec 2) (u x y : Bool) (s : State) : Out :=
  .next (s.bin s.floatET d a b w u x y 1 clsARITH s.drawing fun s k p q => s.rounded k (fun _ a b _ => Fp.mul a b) p q 0)
/-- FFMA. -/
def execFfma (d a b : BitVec 6) (w : BitVec 2) (u x y z : Bool) (s : State) : Out :=
  .next (s.tri s.floatET d a b w u x y z 1 clsARITH s.drawing fun s k p q r => s.rounded k (fun rm a b c => Fp.fma rm a b c) p q r)
/-- FFMS. -/
def execFfms (d a b : BitVec 6) (w : BitVec 2) (u x y z : Bool) (s : State) : Out :=
  .next (s.tri s.floatET d a b w u x y z 1 clsARITH s.drawing fun s k p q r => s.rounded k (fun rm a b c => Fp.fma rm a b c.flip) p q r)
/-- FNMA. -/
def execFnma (d a b : BitVec 6) (w : BitVec 2) (u x y z : Bool) (s : State) : Out :=
  .next (s.tri s.floatET d a b w u x y z 1 clsARITH s.drawing fun s k p q r => s.rounded k (fun rm a b c => Fp.fma rm a.flip b c) p q r)
/-- The encoding of an operand after flushing (R52). -/
def Fmt.flushed (f : Fmt) (ftz : Bool) (x : Nat) : Nat :=
  match f.unpack ftz x with
  | .fin n 0 _ => f.zero n
  | _ => x
/-- The smaller or larger of two encodings, -0 below +0 (R127). -/
def minMax (larger : Bool) (f : Fmt) (ftz : Bool) (x y : Nat) : Nat × Nat :=
  let a := f.unpack ftz x
  let b := f.unpack ftz y
  let fl := nvOf [a, b]
  if a.isNan && b.isNan then (f.nan, fl)
  else if a.isNan then (f.flushed ftz y, fl)
  else if b.isNan then (f.flushed ftz x, fl)
  else
    let o := Fp.order a b
    let aFirst := decide (o < 0) || (o == 0 && a.neg)
    (if aFirst != larger then f.flushed ftz x else f.flushed ftz y, fl)
/-- FMIN. -/
def execFmin (d a b : BitVec 6) (w : BitVec 2) (u x y : Bool) (s : State) : Out :=
  .next (s.bin s.floatET d a b w u x y 1 clsARITH false fun s _ p q => s.unrounded (minMax false) p q)
/-- FMAX. -/
def execFmax (d a b : BitVec 6) (w : BitVec 2) (u x y : Bool) (s : State) : Out :=
  .next (s.bin s.floatET d a b w u x y 1 clsARITH false fun s _ p q => s.unrounded (minMax true) p q)
/-- The sign bits of a word under ET (R128). -/
def signBits (m : Word) : Word := if modeET m = 0 then 0x80000000 else 0x80008000
/-- FABS. -/
def execFabs (d a : BitVec 6) (w : BitVec 2) (u x : Bool) (s : State) : Out :=
  .next (s.una s.floatET d a w u x 1 clsSIMPLE false fun s _ p => (p &&& ~~~ signBits s.me.mode, 0))
/-- FNEG. -/
def execFneg (d a : BitVec 6) (w : BitVec 2) (u x : Bool) (s : State) : Out :=
  .next (s.una s.floatET d a w u x 1 clsSIMPLE false fun s _ p => (p ^^^ signBits s.me.mode, 0))
/-- FCPYS. -/
def execFcpys (d a b : BitVec 6) (w : BitVec 2) (u x y : Bool) (s : State) : Out :=
  .next (s.bin s.floatET d a b w u x y 1 clsSIMPLE false fun s _ p q =>
    ((p &&& ~~~ signBits s.me.mode) ||| (q &&& signBits s.me.mode), 0))

/-! ### Compares and classes (R129, R130) -/

/-- A float compare: per element, then for the lane both or either. -/
def State.fcmp (s : State) (d a b : BitVec 6) (w : BitVec 2) (u x y both : Bool) (f : Fp → Fp → Bool × Nat) : Out :=
  .next (s.cmp s.floatET d a b w u x y fun s p q =>
    let t := etFmt s.me.mode
    let ftz := modeFTZ s.me.mode
    let rs := (List.range (32 / t.width)).map fun k => f (t.unpack ftz (bits p (t.width * k) t.width)) (t.unpack ftz (bits q (t.width * k) t.width))
    (if both then rs.all (·.1) else rs.any (·.1), orFlags (rs.map (·.2))))
/-- a = b, NV for a signalling NaN. -/
def fpEq (a b : Fp) : Bool × Nat := (!a.isNan && !b.isNan && Fp.order a b == 0, nvOf [a, b])
/-- An ordered compare, NV for any NaN. -/
def fpOrd (f : Int → Bool) (a b : Fp) : Bool × Nat := if a.isNan || b.isNan then (false, fNV) else (f (Fp.order a b), 0)
/-- FCEQ. -/
def execFceq (d a b : BitVec 6) (w : BitVec 2) (u x y : Bool) (s : State) : Out := s.fcmp d a b w u x y true fpEq
/-- FCNE. -/
def execFcne (d a b : BitVec 6) (w : BitVec 2) (u x y : Bool) (s : State) : Out :=
  s.fcmp d a b w u x y false fun p q => (!(fpEq p q).1, (fpEq p q).2)
/-- FCLT. -/
def execFclt (d a b : BitVec 6) (w : BitVec 2) (u x y : Bool) (s : State) : Out := s.fcmp d a b w u x y true (fpOrd fun o => decide (o < 0))
/-- FCLE. -/
def execFcle (d a b : BitVec 6) (w : BitVec 2) (u x y : Bool) (s : State) : Out := s.fcmp d a b w u x y true (fpOrd fun o => decide (o ≤ 0))
/-- FCUN. -/
def execFcun (d a b : BitVec 6) (w : BitVec 2) (u x y : Bool) (s : State) : Out :=
  s.fcmp d a b w u x y false fun p q => (p.isNan || q.isNan, nvOf [p, q])
/-- The class of an encoding, as its bit number (R130). -/
def Fmt.classOf (f : Fmt) (x : Nat) : Nat :=
  match f.unpack false x with
  | .nan q => if q then 8 else 9
  | .inf n => if n then 0 else 7
  | .fin n m _ => if m = 0 then (if n then 3 else 4) else if m < 2 ^ f.fb then (if n then 2 else 5) else if n then 1 else 6
/-- FCLASS. -/
def execFclass (d a : BitVec 6) (w : BitVec 2) (u x : Bool) (s : State) : Out :=
  .next (s.una s.floatET d a w u x 1 clsSIMPLE false fun s _ p => s.unrounded (fun f _ x _ => (2 ^ f.classOf x, 0)) p 0)

/-! ### Division, root, value utilities (R131 to R133) -/

/-- FDIV. -/
def execFdiv (d a b : BitVec 6) (w : BitVec 2) (u x y : Bool) (s : State) : Out :=
  .next (s.bin s.floatET d a b w u x y 4 clsNONE s.drawing fun s k p q => s.rounded k (fun _ a b _ => Fp.div a b) p q 0)
/-- FSQRT. -/
def execFsqrt (d a : BitVec 6) (w : BitVec 2) (u x : Bool) (s : State) : Out :=
  .next (s.una s.floatET d a w u x 4 clsNONE s.drawing fun s k p => s.rounded k (fun _ a _ _ => Fp.sqrt a) p 0 0)
/-- a − trunc(a) (R132). -/
def Fp.frac : Fp → Res
  | .nan q => .nan (if q then fNV else 0)
  | .inf _ => .nan fNV
  | .fin n m e => .exact { neg := n, m := if 0 ≤ e then 0 else m % 2 ^ (-e).toNat, e := e }
/-- FFRAC. -/
def execFfrac (d a : BitVec 6) (w : BitVec 2) (u x : Bool) (s : State) : Out :=
  .next (s.una s.floatET d a w u x 1 clsARITH s.drawing fun s k p => s.rounded k (fun _ a _ _ => a.frac) p 0 0)
/-- An encoding rounded to an integral value (R132). -/
def Fmt.integral (f : Fmt) (v : Env) (x : Nat) : Nat × Nat :=
  match f.unpack v.ftz x with
  | .nan q => (f.nan, if q then fNV else 0)
  | .inf n => (f.inf n, 0)
  | .fin n m e =>
    let r := roundAt v { neg := n, m := m, e := e } 0
    ((f.round {} { neg := n, m := r.1 }).1, if r.2 then fNX else 0)
/-- FRND. -/
def execFrnd (d a : BitVec 6) (w : BitVec 2) (u x : Bool) (s : State) : Out :=
  .next (s.una s.floatET d a w u x 1 clsARITH s.drawing fun s k p =>
    s.floats (fun i x _ _ => (etFmt s.me.mode).integral (s.env k i) x) p 0 0)
/-- a · 2^n. A power beyond ±4096 gives the same result as ±4096, for which every value of every format is out of range (R132). -/
def Fmt.scale (f : Fmt) (v : Env) (x y : Nat) : Nat × Nat :=
  let w := f.width
  let n : Int := if y < 2 ^ (w - 1) then y else (y : Int) - 2 ^ w
  let n := max (-4096) (min 4096 n)
  match f.unpack v.ftz x with
  | .nan q => (f.nan, if q then fNV else 0)
  | .inf k => (f.inf k, 0)
  | .fin k m e => f.round v { neg := k, m := m, e := e + n }
/-- FSCALE. -/
def execFscale (d a b : BitVec 6) (w : BitVec 2) (u x y : Bool) (s : State) : Out :=
  .next (s.bin s.floatET d a b w u x y 1 clsARITH s.drawing fun s k p q =>
    s.floats (fun i x y _ => (etFmt s.me.mode).scale (s.env k i) x y) p q 0)
/-- min(max(a, +0), 1.0) (R132). -/
def clampUnit (f : Fmt) (ftz : Bool) (x _ : Nat) : Nat × Nat :=
  match f.unpack ftz x with
  | .nan q => (f.zero false, if q then fNV else 0)
  | a => if a.neg || a.isZero then (f.zero false, 0)
    else if Fp.order a (.fin false 1 0) < 0 then (x, 0) else ((f.round {} { m := 1 }).1, 0)
/-- FSAT. -/
def execFsat (d a : BitVec 6) (w : BitVec 2) (u x : Bool) (s : State) : Out :=
  .next (s.una s.floatET d a w u x 1 clsARITH false fun s _ p => s.unrounded clampUnit p 0)
/-- FLAGRD: every earlier instruction of the group has set its flags when it issues; b = 1 clears bits 7:0 (R133). -/
def execFlagrd (d b : BitVec 6) (w : BitVec 2) (s : State) : Out :=
  .next (s.once (small b 2) [] w fun s =>
    let x := s.me.fpsf
    (s.putS d.toNat x (1 + clsSIMPLE)).withMe fun g => if b = 1 then { g with fpsf := g.fpsf &&& 0xFFFFFF00 } else g)

end Sys2Proof.Machine
end

