-- ==== Sys2Proof/Machine/Moves.lean ====
section
/-! DEFINITION. Opcodes 0x40 to 0x4F: moves, immediates, address arithmetic (R115 to R117). -/

namespace Sys2Proof.Machine

/-- imm11, sign-extended to 32 bits (R21). -/
def imm32 (i : BitVec 11) : Word := i.signExtend 32

/-- MOV (R115). -/
def execMov (d b : BitVec 6) (w : BitVec 2) (u y : Bool) (s : State) : Out :=
  .next (s.calc { legal := rd u d && kx u y, u := u, stall := w, cls := clsSIMPLE, uses := [(srcB u b).use], dests := [d.toNat]
                  marks := markB u y b, f := fun s k => ([s.word (srcB u b) k], 0) })
/-- MOVI (R115). -/
def execMovi (d : BitVec 6) (u : Bool) (i : BitVec 11) (s : State) : Out :=
  .next (s.calc { legal := rd u d, u := u, uses := [], dests := [d.toNat], f := fun _ _ => ([imm32 i], 0) })
/-- LDCW: the literal follows the word, and so does the next instruction (R27). -/
def execLdcw (d : BitVec 6) (u : Bool) (lit : Word) (s : State) : Out :=
  .next (s.calc { legal := rd u d, u := u, uses := [], dests := [d.toNat], size := 8, f := fun _ _ => ([lit], 0) })
/-- MOVS (R115). -/
def execMovs (d a : BitVec 6) (w : BitVec 2) (s : State) : Out :=
  .next (s.calc { legal := vr d, u := false, stall := w, uses := [.s a.toNat], dests := [d.toNat]
                  f := fun s _ => ([s.rs a.toNat], 0) })
/-- ADDI (R116). -/
def execAddi (d a : BitVec 6) (u : Bool) (i : BitVec 11) (s : State) : Out := .next (s.imm true d a u fun x => x + imm32 i)
/-- MULI (R116). -/
def execMuli (d a : BitVec 6) (u : Bool) (i : BitVec 11) (s : State) : Out := .next (s.imm true d a u fun x => x * imm32 i)
/-- ANDI (R116). -/
def execAndi (d a : BitVec 6) (u : Bool) (i : BitVec 11) (s : State) : Out := .next (s.imm true d a u fun x => x &&& imm32 i)
/-- ORI (R116). -/
def execOri (d a : BitVec 6) (u : Bool) (i : BitVec 11) (s : State) : Out := .next (s.imm true d a u fun x => x ||| imm32 i)
/-- XORI (R116). -/
def execXori (d a : BitVec 6) (u : Bool) (i : BitVec 11) (s : State) : Out := .next (s.imm true d a u fun x => x ^^^ imm32 i)
/-- SHLI (R116). -/
def execShli (d a : BitVec 6) (u : Bool) (i : BitVec 11) (s : State) : Out :=
  .next (s.imm (small i 32) d a u fun x => x <<< i.toNat)
/-- SHRI (R116). -/
def execShri (d a : BitVec 6) (u : Bool) (i : BitVec 11) (s : State) : Out :=
  .next (s.imm (small i 32) d a u fun x => x >>> i.toNat)
/-- SHRAI (R116). -/
def execShrai (d a : BitVec 6) (u : Bool) (i : BitVec 11) (s : State) : Out :=
  .next (s.imm (small i 32) d a u fun x => x.sshiftRight i.toNat)

/-- What reading a pair is. -/
def pairUse (u : Bool) (a : BitVec 6) : List Use := [(srcA u a).use, ((srcA u a).plus 1).use]
/-- A pair result of a pair and an extended word (R117). -/
def State.address (s : State) (d a b : BitVec 6) (u : Bool) (w : BitVec 2) (x y : Bool) (cls : Nat) (f : DWord → Word → DWord) : State :=
  s.calc { legal := pr u d && pr u a && kx u x && kx u y, u := u, stall := w, cls := cls
           uses := pairUse u a ++ [(srcB u b).use], dests := [d.toNat, d.toNat + 1], marks := markPair u x a ++ markB u y b
           f := fun s k => let r := f (s.dword (srcA u a) k) (s.word (srcB u b) k); ([lo32 r, hi32 r], 0) }
/-- AADD (R117). -/
def execAadd (d a b : BitVec 6) (w : BitVec 2) (u x y : Bool) (s : State) : Out :=
  .next (s.address d a b u w x y clsSIMPLE fun p q => p + q.signExtend 64)
/-- ALEA (R117). -/
def execAlea (d a b : BitVec 6) (u e : Bool) (h : BitVec 3) (s : State) : Out :=
  .next (s.address d a b u 0 false false clsNONE fun p q => p + ((if e then q.signExtend 64 else q.setWidth 64) <<< h.toNat))
/-- AADDI (R117). -/
def execAaddi (d a : BitVec 6) (u : Bool) (i : BitVec 11) (s : State) : Out :=
  .next (s.calc { legal := pr u d && pr u a, u := u, uses := pairUse u a, dests := [d.toNat, d.toNat + 1]
                  f := fun s k => let r := s.dword (srcA u a) k + i.signExtend 64; ([lo32 r, hi32 r], 0) })
/-- ASUB (R117). -/
def execAsub (d a b : BitVec 6) (w : BitVec 2) (u x y : Bool) (s : State) : Out :=
  .next (s.calc { legal := pr u d && pr u a && pr u b && kx u x && kx u y, u := u, stall := w, cls := clsSIMPLE
                  uses := pairUse u a ++ pairUse u b, dests := [d.toNat, d.toNat + 1], marks := markPair u x a ++ markPair u y b
                  f := fun s k => let r := s.dword (srcA u a) k - s.dword (srcA u b) k; ([lo32 r, hi32 r], 0) })

end Sys2Proof.Machine
end

