-- ==== Sys2Proof/Machine/Pairs.lean ====
section
/-! DEFINITION. Opcodes 0x80 to 0x8E: result pairs and double-word arithmetic (R57 to R59, R138 to R144). -/

namespace Sys2Proof.Machine

/-! ### Result pairs (R138 to R140) -/

/-- The exact difference of two exact values, for error terms. -/
def exactSub (a b : Exact) : Exact :=
  let q := min a.e b.e
  ofSigned false (signedAt a.neg a.m a.e q - signedAt b.neg b.m b.e q) q
/-- The value of an FP32 encoding. -/
def f32 (x : Nat) : Fp := fp32.unpack false x
/-- hi and lo of an exact result, with flags: `px` says that lo may be inexact (FMULE). -/
def pairOf (ftz px : Bool) (x : Exact) : Nat × Nat × Nat :=
  let h := fp32.round { ftz := ftz } x
  match f32 h.1 with
  | .inf _ => (h.1, 0, fOF ||| fNX)
  | hv =>
    if x.m = 0 then (h.1, 0, 0)
    else if ftz && hv.isZero then (h.1, 0, fUF ||| fNX)
    else
      let e := exactSub x hv.exact
      let l := fp32.round {} e
      let lo := if (f32 l.1).isZero then 0 else l.1
      let uf := h.2 &&& fUF
      if e.m = 0 then (h.1, 0, uf)
      else
        let p := if px && l.2 &&& fNX != 0 then fPX else 0
        -- a subnormal lo beside a normal hi is flushed
        if ftz && lo % 2 ^ 31 < 2 ^ 23 && lo != 0 && decide (2 ^ 23 ≤ h.1 % 2 ^ 31) then (h.1, 0, uf ||| fNX ||| fPX)
        else (h.1, lo, uf ||| fNX ||| p)
/-- The pair of a result: NaN pairs, infinite pairs, and R138 (R139). -/
def pairRes (ftz px : Bool) : Res → Nat × Nat × Nat
  | .nan fl => (fp32.nan, fp32.nan, fl)
  | .inf n fl => (fp32.inf n, 0, fl)
  | .exact x => pairOf ftz px x
/-- A pair result of two FP32 sources. -/
def State.pairOp (s : State) (d a b : BitVec 6) (w : BitVec 2) (u x y px : Bool) (f : Fp → Fp → Res) : Out :=
  .next (s.calc { legal := pr u d && Sys2Proof.rs u a && kx u x && kx u y, u := u, stall := w, cls := clsARITH
                  uses := [(srcA u a).use, (srcB u b).use], dests := [d.toNat, d.toNat + 1], marks := markA u x a ++ markB u y b
                  f := fun s k =>
                    let ftz := modeFTZ s.me.mode
                    let r := pairRes ftz px (f (fp32.unpack ftz (s.word (srcA u a) k).toNat) (fp32.unpack ftz (s.word (srcB u b) k).toNat))
                    ([BitVec.ofNat 32 r.1, BitVec.ofNat 32 r.2.1], r.2.2) })
/-- FADDE. -/
def execFadde (d a b : BitVec 6) (w : BitVec 2) (u x y : Bool) (s : State) : Out := s.pairOp d a b w u x y false (Fp.add 0)
/-- FSUBE. -/
def execFsube (d a b : BitVec 6) (w : BitVec 2) (u x y : Bool) (s : State) : Out := s.pairOp d a b w u x y false fun p q => Fp.add 0 p q.flip
/-- FMULE. -/
def execFmule (d a b : BitVec 6) (w : BitVec 2) (u x y : Bool) (s : State) : Out := s.pairOp d a b w u x y true Fp.mul

/-! ### Steps of the double-word algorithms (R141, R144) -/

/-- What a double-word algorithm answers so far: a value with the flags of its steps, or the pair it ends in. -/
inductive Dw (α : Type) where
  | go (x : α) (fl : Nat)
  | stop (hi lo fl : Nat)
/-- One algorithm after another. -/
def Dw.bind {α β : Type} (x : Dw α) (f : α → Dw β) : Dw β :=
  match x with
  | .stop h l fl => .stop h l fl
  | .go a fl => match f a with
    | .go b fl' => .go b (fl ||| fl')
    | .stop h l fl' => .stop h l (fl ||| fl')
/-- The result of one FP32 operation: overflow ends the algorithm in ±∞ : +0 with OF and NX; a division by zero or an invalid
operation within a step ends it in the pair of that FP32 result (DEDUCED, log entry 9). -/
def dwStep (counted : Bool) (r : Res) : Dw Fp :=
  match r with
  | .nan fl => .stop fp32.nan fp32.nan (fl ||| fNV)
  | .inf n fl => .stop (fp32.inf n) 0 fl
  | .exact x =>
    let v := fp32.round {} x
    match f32 v.1 with
    | .inf n => .stop (fp32.inf n) 0 (fOF ||| fNX)
    | y => .go y ((v.2 &&& fUF) ||| (if counted then v.2 &&& fNX else 0))
/-- RNE of an operation. -/
def dwRne (r : Res) : Dw Fp := dwStep true r
/-- TS(x, y): sum and exact error. -/
def dwTS (x y : Fp) : Dw (Fp × Fp) :=
  (dwStep false (Fp.add 0 x y)).bind fun sm =>
    let q := min (min x.exact.e y.exact.e) sm.exact.e
    let at_ := fun (z : Exact) => signedAt z.neg z.m z.e q
    .go (sm, f32 (fp32.round {} (ofSigned false (at_ x.exact + at_ y.exact - at_ sm.exact) q)).1) 0
/-- TP(x, y): product and error, exact unless PX. Its own rounding of the product counts for NX only through PX, since TP returns what
that rounding leaves off (R144; DEDUCED, log entry 130). -/
def dwTP (x y : Fp) : Dw (Fp × Fp) :=
  (dwStep false (Fp.mul x y)).bind fun p =>
    let e := fp32.round {} (exactSub { neg := x.neg != y.neg, m := x.exact.m * y.exact.m, e := x.exact.e + y.exact.e } p.exact)
    .go (p, f32 e.1) ((e.2 &&& fUF) ||| (if e.2 &&& fNX != 0 then fPX ||| fNX else 0))
/-- The encoding of a value that a step has given. -/
def Fp.bits32 (x : Fp) : Nat :=
  match x with
  | .nan _ => fp32.nan
  | .inf n => fp32.inf n
  | .fin n m e => (fp32.round {} { neg := n, m := m, e := e }).1
/-- The words and flags of a finished algorithm: a zero lo is +0. -/
def Dw.words : Dw (Fp × Fp) → List Word × Nat
  | .stop h l fl => ([BitVec.ofNat 32 h, BitVec.ofNat 32 l], fl)
  | .go p fl => ([BitVec.ofNat 32 p.1.bits32, if p.2.isZero then 0 else BitVec.ofNat 32 p.2.bits32], fl)

/-- FACC and DWADDF: pair + FP32 (R142). -/
def dwAddF (hi lo y : Fp) : Dw (Fp × Fp) :=
  (dwTS hi y).bind fun se => (dwRne (Fp.add 0 lo se.2)).bind fun t => dwTS se.1 t
/-- DWADD (R143). -/
def dwAdd (xh xl yh yl : Fp) : Dw (Fp × Fp) :=
  (dwTS xh yh).bind fun sp => (dwTS xl yl).bind fun tp => (dwRne (Fp.add 0 sp.2 tp.1)).bind fun c =>
    (dwTS sp.1 c).bind fun v => (dwRne (Fp.add 0 tp.2 v.2)).bind fun w => dwTS v.1 w
/-- DWMUL. -/
def dwMul (xh xl yh yl : Fp) : Dw (Fp × Fp) :=
  (dwTP xh yh).bind fun c => (dwRne (Fp.mul xl yl)).bind fun g0 => (dwRne (Fp.fma 0 xh yl g0)).bind fun g1 =>
    (dwRne (Fp.fma 0 xl yh g1)).bind fun e2 => (dwRne (Fp.add 0 c.2 e2)).bind fun e3 => dwTS c.1 e3
/-- DWMULF. -/
def dwMulF (xh xl b : Fp) : Dw (Fp × Fp) :=
  (dwTP xh b).bind fun c => (dwRne (Fp.fma 0 xl b c.2)).bind fun e3 => dwTS c.1 e3
/-- DWDIV. -/
def dwDiv (xh xl yh yl : Fp) : Dw (Fp × Fp) :=
  (dwRne (Fp.div xh yh)).bind fun th => (dwMulF yh yl th).bind fun q => (dwRne (Fp.add 0 xh q.1.flip)).bind fun dh =>
    (dwRne (Fp.add 0 xl q.2.flip)).bind fun dl => (dwRne (Fp.add 0 dh dl)).bind fun dd => (dwRne (Fp.div dd yh)).bind fun tl => dwTS th tl
/-- DWSQRT. -/
def dwSqrt (xh xl : Fp) : Dw (Fp × Fp) :=
  (dwRne (Fp.sqrt xh)).bind fun sh => (dwTP sh sh).bind fun p => (dwRne (Fp.add 0 xh p.1.flip)).bind fun d1 =>
    (dwRne (Fp.add 0 d1 p.2.flip)).bind fun d2 => (dwRne (Fp.add 0 d2 xl)).bind fun dd =>
      (dwRne (Fp.mul sh (.fin false 2 0))).bind fun sh2 => (dwRne (Fp.div dd sh2)).bind fun tl => dwTS sh tl

/-! ### Special pairs (R59, R144) -/

/-- What a pair stands for: NaN, an infinity, or the exact sum (R59). A NaN element decides before an infinite hi (DEDUCED, log entry 128). -/
def pairValue (h l : Fp) : Fp :=
  if h.isNan || l.isNan then .nan (h.isSnan || l.isSnan)
  else match h with
    | .inf n => .inf n
    | _ => if l.isInf then .nan false else
      match Fp.add 0 h l with
      | .exact x => .fin x.neg x.m x.e
      | _ => .nan false
/-- The result on infinite operands: the FP32 operation on the hi elements with lo = +0 (R144). -/
def dwSpecial (r : Res) : List Word × Nat :=
  match r with
  | .nan fl => ([BitVec.ofNat 32 fp32.nan, BitVec.ofNat 32 fp32.nan], fl)
  | .inf n fl => ([BitVec.ofNat 32 (fp32.inf n), 0], fl)
  | .exact x => ([BitVec.ofNat 32 (fp32.round {} x).1, 0], 0)
/-- A double-word operation on two pairs, with the special cases first; `f32op` is the FP32 operation on the hi elements. -/
def dwBinary (f32op : Fp → Fp → Res) (alg : Fp → Fp → Fp → Fp → Dw (Fp × Fp)) (xh xl yh yl : Fp) : List Word × Nat :=
  let x := pairValue xh xl
  let y := pairValue yh yl
  if x.isNan || y.isNan then dwSpecial (.nan (nvOf [x, y]))
  else if x.isInf || y.isInf then dwSpecial (f32op xh yh)
  else (alg xh xl yh yl).words
/-- DWDIV by a zero pair: ±∞ with DZ, or NaN with NV (R144). A zero pair has the sign of its hi, also where hi and lo are not zero and
cancel (DESIGN CHOICE, log entry 129). -/
def dwDivide (xh xl yh yl : Fp) : Dw (Fp × Fp) :=
  let x := pairValue xh xl
  if (pairValue yh yl).isZero then
    if x.isZero then .stop fp32.nan fp32.nan fNV else .stop (fp32.inf (x.neg != yh.neg)) 0 fDZ
  else dwDiv xh xl yh yl
/-- DWSQRT with its special cases; a zero pair has the sign of its hi (R144; DESIGN CHOICE, log entry 129). -/
def dwRoot (xh xl : Fp) : List Word × Nat :=
  match pairValue xh xl with
  | .nan q => dwSpecial (.nan (if q then fNV else 0))
  | .inf n => dwSpecial (Fp.sqrt (.inf n))
  | .fin _ 0 _ => ([BitVec.ofNat 32 (fp32.zero xh.neg), 0], 0)
  | .fin true _ _ => dwSpecial (.nan fNV)
  | .fin false _ _ => (dwSqrt xh xl).words
/-- DWNORM with its special cases. -/
def dwNormal (xh xl : Fp) : List Word × Nat :=
  match pairValue xh xl with
  | .nan q => dwSpecial (.nan (if q then fNV else 0))
  | .inf n => dwSpecial (.inf n 0)
  | _ => (dwTS xh xl).words

/-! ### The instructions (R142, R143) -/

/-- The value of a word read as FP32. -/
def State.fval (s : State) (x : Src) (k : Nat) : Fp := f32 (s.word x k).toNat
/-- Pair op pair. -/
def State.dwPP (s : State) (d a b : BitVec 6) (w : BitVec 2) (u x y : Bool) (per cls : Nat) (f : Fp → Fp → Fp → Fp → List Word × Nat) : Out :=
  .next (s.calc { legal := pr u d && pr u a && pr u b && kx u x && kx u y, u := u, stall := w, per := per, cls := cls
                  uses := pairUse u a ++ pairUse u b, dests := [d.toNat, d.toNat + 1], marks := markPair u x a ++ markPair u y b
                  f := fun s k => let p := srcA u a; let q := srcA u b
                    f (s.fval p k) (s.fval (p.plus 1) k) (s.fval q k) (s.fval (q.plus 1) k) })
/-- Pair op FP32. -/
def State.dwPF (s : State) (d a b : BitVec 6) (w : BitVec 2) (u x y : Bool) (f : Fp → Fp → Fp → List Word × Nat) : Out :=
  .next (s.calc { legal := pr u d && pr u a && kx u x && kx u y, u := u, stall := w, per := 2, cls := clsLONG
                  uses := pairUse u a ++ [(srcB u b).use], dests := [d.toNat, d.toNat + 1], marks := markPair u x a ++ markB u y b
                  f := fun s k => let p := srcA u a; f (s.fval p k) (s.fval (p.plus 1) k) (s.fval (srcB u b) k) })
/-- A function of one pair. -/
def State.dwP (s : State) (d a : BitVec 6) (w : BitVec 2) (u x : Bool) (per cls : Nat) (f : Fp → Fp → List Word × Nat) : Out :=
  .next (s.calc { legal := pr u d && pr u a && kx u x, u := u, stall := w, per := per, cls := cls
                  uses := pairUse u a, dests := [d.toNat, d.toNat + 1], marks := markPair u x a
                  f := fun s k => let p := srcA u a; f (s.fval p k) (s.fval (p.plus 1) k) })
/-- The zero lo of an FP32 operand read as a pair. -/
def plusZero : Fp := .fin false 0 0
/-- FACC: the pair d is the third source (R142). -/
def execFacc (d a : BitVec 6) (w : BitVec 2) (u x z : Bool) (s : State) : Out :=
  .next (s.calc { legal := pr u d && Sys2Proof.rs u a && kx u x && kx u z, u := u, stall := w, cls := clsARITH
                  uses := [(srcA u a).use] ++ pairUse u d, dests := [d.toNat, d.toNat + 1], marks := markA u x a ++ markPair u z d
                  f := fun s k => let p := srcA u d
                    dwBinary (Fp.add 0) (fun h l y _ => dwAddF h l y) (s.fval p k) (s.fval (p.plus 1) k) (s.fval (srcA u a) k) plusZero })
/-- DWADD. -/
def execDwadd (d a b : BitVec 6) (w : BitVec 2) (u x y : Bool) (s : State) : Out :=
  s.dwPP d a b w u x y 2 clsLONG (dwBinary (Fp.add 0) dwAdd)
/-- DWSUB. -/
def execDwsub (d a b : BitVec 6) (w : BitVec 2) (u x y : Bool) (s : State) : Out :=
  s.dwPP d a b w u x y 2 clsLONG fun xh xl yh yl => dwBinary (Fp.add 0) dwAdd xh xl yh.flip yl.flip
/-- DWMUL. -/
def execDwmul (d a b : BitVec 6) (w : BitVec 2) (u x y : Bool) (s : State) : Out :=
  s.dwPP d a b w u x y 2 clsLONG (dwBinary Fp.mul dwMul)
/-- DWADDF. -/
def execDwaddf (d a b : BitVec 6) (w : BitVec 2) (u x y : Bool) (s : State) : Out :=
  s.dwPF d a b w u x y fun h l y => dwBinary (Fp.add 0) (fun h l y _ => dwAddF h l y) h l y plusZero
/-- DWMULF. -/
def execDwmulf (d a b : BitVec 6) (w : BitVec 2) (u x y : Bool) (s : State) : Out :=
  s.dwPF d a b w u x y fun h l y => dwBinary Fp.mul (fun h l y _ => dwMulF h l y) h l y plusZero
/-- DWDIV. -/
def execDwdiv (d a b : BitVec 6) (w : BitVec 2) (u x y : Bool) (s : State) : Out :=
  s.dwPP d a b w u x y 8 clsNONE (dwBinary Fp.div dwDivide)
/-- DWSQRT. -/
def execDwsqrt (d a : BitVec 6) (w : BitVec 2) (u x : Bool) (s : State) : Out := s.dwP d a w u x 8 clsNONE dwRoot
/-- DWNORM. -/
def execDwnorm (d a : BitVec 6) (w : BitVec 2) (u x : Bool) (s : State) : Out := s.dwP d a w u x 2 clsLONG dwNormal
/-- DWTOF: xh + xl rounded once; only the final rounding honours RM, SAT and FTZ, the elements keep their subnormals (R141, R143). -/
def execDwtof (d a : BitVec 6) (w : BitVec 2) (u x : Bool) (s : State) : Out :=
  .next (s.calc { legal := rd u d && pr u a && kx u x, u := u, stall := w, per := 2, cls := clsLONG, uses := pairUse u a
                  dests := [d.toNat], marks := markPair u x a, draws := s.drawing
                  f := fun s k =>
                    let v := s.env k 0
                    let p := srcA u a
                    let h := s.fval p k
                    let l := s.fval (p.plus 1) k
                    let r := match pairValue h l with
                      | .nan q => (fp32.nan, if q then fNV else 0)
                      | .inf n => (fp32.inf n, 0)
                      | .fin _ _ _ => fp32.deliver v (Fp.add v.rm h l)
                    ([BitVec.ofNat 32 r.1], r.2) })
/-- A compare of two pairs. -/
def State.dwCmp (s : State) (d a b : BitVec 6) (w : BitVec 2) (u x y : Bool) (f : Fp → Fp → Bool × Nat) : Out :=
  .next (s.compare { legal := cd u d && pr u a && pr u b && kx u x && kx u y, u := u, stall := w, per := 2, cls := clsLONG
                     uses := pairUse u a ++ pairUse u b, d := d.toNat, marks := markPair u x a ++ markPair u y b
                     f := fun s k => let p := srcA u a; let q := srcA u b
                       f (pairValue (s.fval p k) (s.fval (p.plus 1) k)) (pairValue (s.fval q k) (s.fval (q.plus 1) k)) })
/-- DWCLT. -/
def execDwclt (d a b : BitVec 6) (w : BitVec 2) (u x y : Bool) (s : State) : Out := s.dwCmp d a b w u x y (fpOrd fun o => decide (o < 0))
/-- DWCEQ. -/
def execDwceq (d a b : BitVec 6) (w : BitVec 2) (u x y : Bool) (s : State) : Out := s.dwCmp d a b w u x y fpEq

end Sys2Proof.Machine
end

