-- ==== Sys2Proof/Machine/Atomic.lean ====
section
/-! DEFINITION. Opcodes 0xC1 to 0xCF: atomics and bank-ALU operations (R174 to R177). -/

namespace Sys2Proof.Machine

/-- What an atomic computes: its size in bytes, the old value, the operand and the compare value give the new value. -/
abbrev AtomicFn := Nat → Nat → Nat → Nat → Nat

/-- A float operation on the elements of a 32-bit value: nearest even, subnormals kept, canonical NaN, no flag (R175). -/
def floatWord (f : Fmt) (x y : Nat) : Nat :=
  joinElems f.width ((List.range (32 / f.width)).map fun k =>
    let at_ := fun v => f.unpack false (v / 2 ^ (f.width * k) % 2 ^ f.width)
    (f.deliver {} (Fp.add 0 (at_ x) (at_ y))).1)
/-- A compensated step on a pair at an address: hi in the low word (R175, R177). -/
def pairStep (m b : Nat) : Nat :=
  let r := dwBinary (Fp.add 0) (fun h l y _ => dwAddF h l y) (f32 (m % 2 ^ 32)) (f32 (m / 2 ^ 32)) (f32 b) plusZero
  (r.1.getD 0 0).toNat + 2 ^ 32 * (r.1.getD 1 0).toNat
/-- Minimum or maximum under the ET map (R175). -/
def atomicExtreme (larger : Bool) (mode : Word) (size m b : Nat) : Nat :=
  let t := intType false mode
  let w := if size = 8 then 64 else t.1
  joinElems w ((List.range (8 * size / w)).map fun k =>
    let x := intVal t.2 w (m / 2 ^ (w * k) % 2 ^ w)
    let y := intVal t.2 w (b / 2 ^ (w * k) % 2 ^ w)
    ((if larger then max x y else min x y) % 2 ^ w).toNat)
/-- The register value of a lane: a word, or a pair for size 8. -/
def State.operand (s : State) (u : Bool) (c : BitVec 6) (wide : Bool) (lane : Nat) : Nat :=
  if wide then (s.dword (srcA u c) lane).toNat else (s.word (srcA u c) lane).toNat
/-- What reading such an operand is. -/
def operandUse (u : Bool) (c : BitVec 6) (wide : Bool) : List Use := if wide then [(srcA u c).use, ((srcA u c).plus 1).use] else [(srcA u c).use]

/-- One operation at its place: the old value, and the state after it (R176). -/
def State.atomicAt (s : State) (size : Nat) (f : Nat → Nat) (a : Access) : Nat × State :=
  let ag := s.groupAgent s.me
  match a.at_.head? with
  | none => (0, s)
  | some (p, _) =>
    let s := s.strongTouch ag.team p size
    let m := leNat (s.readBytes ag p size)
    (m, s.performWrite ag p (leBytes size (f m)))
/-- Operations in ascending lane order. -/
def State.performAll (s : State) (size : Nat) (f : Nat → Nat → Nat) : List Access → List (Nat × Nat) × State
  | [] => ([], s)
  | a :: as =>
    let r := s.atomicAt size (f a.lane) a
    let t := State.performAll r.2 size f as
    ((a.lane, r.1) :: t.1, t.2)
/-- The uncorrectable protection words that accesses meet, each once. -/
def State.badWords (s : State) (as : List Access) : List Place :=
  if s.errors.isEmpty then []
  else ((as.flatMap fun a => a.at_.flatMap fun (p, n) => (wordsOf p n).map (·.1)).filter s.poisoned).eraseDups
/-- The operations of an instruction on the words where they live: a request to a poisoned word without a returned value leaves the word and
is reported once (R176, R344). -/
def State.atomics (s : State) (size : Nat) (returns : Bool) (f : Nat → Nat → Nat) (as : List Access) : List (Nat × Nat) × State :=
  let bad := if returns then [] else s.badWords as
  let s1 := bad.foldl (fun s w => s.unattributed s.me.part (s.wordOf w).1 w.paddr s.me.tile s.me.task true) s
  s1.performAll size f (as.filter fun a => !(a.at_.any fun (p, n) => (wordsOf p n).any fun w => bad.contains w.1))
/-- The shape of an atomic (R174 to R176). -/
def State.atomic (s : State) (ok : Bool) (d a b : BitVec 6) (u v wide : Bool) (ord : BitVec 3) (wideB cas : Bool) (f : State → AtomicFn) : Out :=
  let size := if wide then 8 else 4
  .next (s.checked (ok && base u a && small ord 5) u (baseUse u a ++ operandUse u b wideB ++ (if cas then operandUse u d wide else [])) fun s =>
    let names := if v then (if wide then [d.toNat, d.toNat + 1] else [d.toNat]) else []
    if !u && !State.rowsFor [] names s then s.noRows [] names
    else
      let as : List Access := (s.askers u).map fun k => { lane := k, va := s.effective u a 0 size k, size := size }
      s.accesses u true .atomic size as v fun as s =>
        let n := s.askBeats u
        let act := s.active
        let g := f s
        let new := fun lane m => g size m (s.operand u b wideB lane) (if cas then s.operand u d wide lane else 0) % 2 ^ (8 * size)
        let s1 := if ord = 3 || ord = 4 then s.release s.scope else s
        let r := s1.atomics size v new as
        let s2 := if ord = 4 then r.2.acquire s.scope else r.2
        let vals := r.1.map fun x => (x.1, if wide then [BitVec.ofNat 32 x.2, BitVec.ofNat 32 (x.2 / 2 ^ 32)] else [BitVec.ofNat 32 x.2])
        if v then s2.loaded u d.toNat names.length ord n act vals
        else (if ord = 2 then s2.acquire s.scope else s2).retire { beats := n })
/-- An atomic whose operand and result have its size. -/
def State.atomicOp (s : State) (d a b : BitVec 6) (u v z : Bool) (r : BitVec 3) (f : State → AtomicFn) : Out :=
  s.atomic (atReg u z b && atDest u z v d) d a b u v z r z false f
/-- ATADD (R175). -/
def execAtadd (d a b : BitVec 6) (u v z : Bool) (r : BitVec 3) (s : State) : Out := s.atomicOp d a b u v z r fun _ _ m x _ => m + x
/-- ATMIN. -/
def execAtmin (d a b : BitVec 6) (u v z : Bool) (r : BitVec 3) (s : State) : Out :=
  s.atomicOp d a b u v z r fun s size m x _ => atomicExtreme false s.me.mode size m x
/-- ATMAX. -/
def execAtmax (d a b : BitVec 6) (u v z : Bool) (r : BitVec 3) (s : State) : Out :=
  s.atomicOp d a b u v z r fun s size m x _ => atomicExtreme true s.me.mode size m x
/-- ATAND. -/
def execAtand (d a b : BitVec 6) (u v z : Bool) (r : BitVec 3) (s : State) : Out := s.atomicOp d a b u v z r fun _ _ m x _ => m &&& x
/-- ATOR. -/
def execAtor (d a b : BitVec 6) (u v z : Bool) (r : BitVec 3) (s : State) : Out := s.atomicOp d a b u v z r fun _ _ m x _ => m ||| x
/-- ATXOR. -/
def execAtxor (d a b : BitVec 6) (u v z : Bool) (r : BitVec 3) (s : State) : Out := s.atomicOp d a b u v z r fun _ _ m x _ => m ^^^ x
/-- ATXCHG. -/
def execAtxchg (d a b : BitVec 6) (u v z : Bool) (r : BitVec 3) (s : State) : Out := s.atomicOp d a b u v z r fun _ _ _ x _ => x
/-- ATCAS: the old d is the compare value. -/
def execAtcas (d a b : BitVec 6) (u v z : Bool) (r : BitVec 3) (s : State) : Out :=
  s.atomic (v && atReg u z b && atReg u z d) d a b u v z r z true fun _ _ m x c => if m = c then x else m
/-- ATFADD. -/
def execAtfadd (d a b : BitVec 6) (u v z : Bool) (r : BitVec 3) (s : State) : Out :=
  s.atomic (!z && atReg u z b && atDest u z v d && decide (modeET s.me.mode ≤ 2)) d a b u v z r false false fun s _ m x _ =>
    floatWord (etFmt s.me.mode) m x
/-- ATPADD: the operand is one FP32 word. -/
def execAtpadd (d a b : BitVec 6) (u v z : Bool) (r : BitVec 3) (s : State) : Out :=
  s.atomic (z && rsn u b && atDest u z v d) d a b u v z r false false fun _ _ m x _ => pairStep m x
/-- ATINC. -/
def execAtinc (d a b : BitVec 6) (u v z : Bool) (r : BitVec 3) (s : State) : Out :=
  s.atomicOp d a b u v z r fun _ _ m x _ => if x ≤ m then 0 else m + 1

/-! ### Bank-ALU operations (R177) -/

/-- An address outside the shared-bank window is an address fault; then R169 applies. -/
def State.bankAccesses (s : State) (u : Bool) (as : List Access) (need : Nat) (first : Option Refuse) (go : List Access → State → State) : State :=
  let outside := as.filter fun a => windowOf a.va != 1
  match outside with
  | a :: _ => s.refuse (.address a.va) (s.askMask u (maskOf fun k => outside.any fun x => x.lane == k)) true
  | [] =>
    match first with
    | some r => s.refuse r (s.askMask u s.active) true
    | none => s.accesses u true .atomic need as false go
/-- The elements of a lane-wise bank operation: each lane's access and its operand. -/
def State.bankOp (s : State) (ok : Bool) (a b : BitVec 6) (size align : Nat) (step : Nat → Nat) (f : Nat → Nat → Nat) : Out :=
  .next (s.checked ok false [.s a.toNat, .s (a.toNat + 1), .v b.toNat] fun s =>
    let va := (s.rpair a.toNat).toNat
    let act := s.active
    let as : List Access := (lanesOf act).map fun k => { lane := k, va := va + step k, size := size }
    let first := if act ≠ 0 && va % align ≠ 0 then some (Refuse.align va) else none
    s.bankAccesses false as 0 first fun as s =>
      (s.atomics size false (fun k m => f m (s.me.vlane b.toNat k).toNat) as).2.retire { beats := beatsOf act })
/-- The update of a 32-bit element by a type or operation both BKADD and BKRED know. -/
def intExtreme (sgn larger : Bool) (m b : Nat) : Nat :=
  ((if larger then max (intVal sgn 32 m) (intVal sgn 32 b) else min (intVal sgn 32 m) (intVal sgn 32 b)) % 2 ^ 32).toNat
/-- The new value of an element under BKADD, by its type field (R177). -/
def bankSum (t : BitVec 3) (m x : Nat) : Nat :=
  match t.toNat with
  | 0 => (m + x) % 2 ^ 32
  | 1 => floatWord fp32 m x
  | 2 => floatWord bf16 m x
  | 3 => floatWord fp16 m x
  | _ => pairStep m x
/-- The new value of the element under BKRED, by its operation field (R177). -/
def bankFold (t : BitVec 3) (m x : Nat) : Nat :=
  match t.toNat with
  | 0 => (m + x) % 2 ^ 32
  | 1 => floatWord fp32 m x
  | 2 => pairStep m x
  | 3 => intExtreme true false m x
  | 4 => intExtreme true true m x
  | 5 => intExtreme false false m x
  | _ => intExtreme false true m x
/-- BKADD. -/
def execBkadd (a b : BitVec 6) (t : BitVec 3) (s : State) : Out :=
  let size := if t = 4 then 8 else 4
  s.bankOp (even a && vr b && small t 5) a b size (size * s.me.width.lanes) (fun k => size * k) (bankSum t)
/-- BKRED. -/
def execBkred (a b : BitVec 6) (t : BitVec 3) (s : State) : Out :=
  let size := if t = 2 then 8 else 4
  s.bankOp (even a && vr b && small t 7) a b size size (fun _ => 0) (bankFold t)
/-- BKSET and BKSCAL: n words from a base within one interleave unit. -/
def State.bankFill (s : State) (d a b : BitVec 6) (f : Nat → Nat → Nat) : Out :=
  let n := (s.rs d.toNat).toNat
  .next (s.checked (even a && decide (n ≤ 1024)) true [.s a.toNat, .s (a.toNat + 1), .s b.toNat, .s d.toNat] fun s =>
    let va := (s.rpair a.toNat).toNat
    let as : List Access := (List.range n).map fun k => { lane := 64, va := va + 4 * k, size := 4 }
    let bad := decide (n ≠ 0) && (va % 4 != 0 || decide (va % 4096 + 4 * n > 4096))
    s.bankAccesses true as 0 (if bad then some (.align va) else none) fun as s =>
      (s.atomics 4 false (fun _ m => f m (s.rs b.toNat).toNat) as).2.retire {})
/-- BKSET. -/
def execBkset (d a b : BitVec 6) (s : State) : Out := s.bankFill d a b fun _ x => x
/-- BKSCAL. -/
def execBkscal (d a b : BitVec 6) (s : State) : Out :=
  s.bankFill d a b fun m x => (fp32.deliver {} (Fp.mul (f32 m) (f32 x))).1

end Sys2Proof.Machine
end

