-- ==== Sys2Proof/Machine/Sampling.lean ====
section
/-! DEFINITION. Opcodes 0x98 to 0x9B: the random streams, categorical sampling, split-barrier arrival (R152 to R156). -/

namespace Sys2Proof.Machine

/-- RAND (R154). -/
def execRand (d b : BitVec 6) (w : BitVec 2) (u : Bool) (s : State) : Out :=
  .next (s.calc { legal := small b 2 && (if b = 1 then pr u d else rd u d), u := u, stall := w, cls := clsSIMPLE, uses := []
                  dests := if b = 1 then [d.toNat, d.toNat + 1] else [d.toNat], draws := true
                  f := fun s k => (if b = 1 then [lo32 (s.draw k), hi32 (s.draw k)] else [lo32 (s.draw k)], 0) })
/-- RANDF: (x >> 40) · 2^-24, exactly (R154). -/
def execRandf (d : BitVec 6) (w : BitVec 2) (u : Bool) (s : State) : Out :=
  .next (s.calc { legal := rd u d, u := u, stall := w, cls := clsSIMPLE, uses := [], dests := [d.toNat], draws := true
                  f := fun s k => ([BitVec.ofNat 32 (fp32.round {} { m := bits (s.draw k) 40 24, e := -24 }).1], 0) })

/-- The prefix sums of CATSAMP: the sum so far, and lane, sum and flags of every lane taken (R155). -/
def catPrefix (ws : List (Nat × Nat)) : Nat × List (Nat × Nat × Nat) :=
  ws.foldl (fun (r : Nat × List (Nat × Nat × Nat)) x =>
    let v := fp32.unpack false x.2
    let pos : Fp := match v with
      | .nan _ => .fin false 0 0
      | v => if v.neg then .fin false 0 0 else v
    let sum := fp32.deliver {} (Fp.add 0 (fp32.unpack false r.1) pos)
    (sum.1, r.2 ++ [(x.1, sum.1, nvOf [v] ||| (if sum.2 &&& fOF != 0 then fOF ||| fNX else 0))])) (0, [])
/-- The lanes of CATSAMP with their prefix sums and flags, after the total (R155). -/
def State.catSums (s : State) (a : BitVec 6) : Nat × List (Nat × Nat × Nat) :=
  catPrefix ((lanesOf s.active).map fun k => (k, (s.laneWhole a.toNat k).toNat))
/-- The lane CATSAMP draws, with the flags it raises (R155). -/
def State.sampleOf (s : State) (a b : BitVec 6) : Word × Nat :=
  let r := s.rs b.toNat
  let c := s.catSums a
  let total := fp32.unpack false c.1
  let fl := orFlags (c.2.map (·.2.2))
  let useless := total.isZero || total.isNan || total.isInf
  let thr := fp32.unpack false (fp32.round {} { m := r.toNat / 2 ^ 8 * total.exact.m, e := total.exact.e - 24 }).1
  let hit := c.2.find? fun p => decide (0 < Fp.order (fp32.unpack false p.2.1) thr)
  (if useless then 0xFFFFFFFF else BitVec.ofNat 32 ((hit.map (·.1)).getD 0), if useless then fl ||| fCATZ else fl)
/-- CATSAMP: a whole-register consumer with a scalar result (R155). -/
def execCatsamp (d a b : BitVec 6) (w : BitVec 2) (x : Bool) (s : State) : Out :=
  .next (s.checked (vr a) false [.vw a.toNat, .s b.toNat] fun s =>
    let act := s.active
    let v := s.sampleOf a b
    ((s.putS d.toNat v.1 (beatsOf act + 1 + clsXRED)).freeMarked (s.marks (if x then [a.toNat] else [])) []).finish
      { beats := beatsOf act, extra := 1, stall := stallOf w } v.2
      fun e => maskOf fun k => (s.catSums a).2.any fun p => p.1 == k && p.2.2 &&& e != 0)

/-- Records the issuing group's arrival at a barrier's current phase; `split` marks a BARARV (R156, R230). -/
def State.arrive (s : State) (cluster split : Bool) : State :=
  if cluster then
    let n := s.myTeam.cphase
    let s := (s.withMe fun g => { g with clusterArrived := some (n, split) }).setMyTeam fun t => { t with carrived := t.carrived ++ [s.me.index] }
    s.clusterPhase s.myTeam
  else
    let n := s.myTeam.phase
    let s := (s.withMe fun g => { g with teamArrived := some (n, split) }).setMyTeam fun t => { t with arrived := t.arrived ++ [s.me.index] }
    s.teamPhase s.me.team
/-- The arrival a group has recorded at a barrier: its phase, and whether by BARARV. -/
def Group.arrival (g : Group) (cluster : Bool) : Option (Nat × Bool) := if cluster then g.clusterArrived else g.teamArrived
/-- The issuing group's arrival at the phase that is open now. -/
def State.openArrival (s : State) (cluster : Bool) : Option (Nat × Bool) :=
  (s.me.arrival cluster).filter fun x => x.1 == (if cluster then s.myTeam.cphase else s.myTeam.phase)
/-- BARARV: a release at team or cluster scope, an arrival, and on (R156). -/
def execBararv (d b : BitVec 6) (w : BitVec 2) (s : State) : Out :=
  let cluster := b == 1
  .next (s.checked (small b 2 && !(cluster && !s.myTask.record.clus) && (s.openArrival cluster).isNone) true [] fun s =>
    let n := if cluster then s.myTeam.cphase else s.myTeam.phase
    (((s.release (if cluster then 2 else 1)).putS d.toNat (BitVec.ofNat 32 n) clsNONE).arrive cluster true).retire { stall := stallOf w })

end Sys2Proof.Machine
end

