-- ==== Sys2Proof/Machine/Barrier.lean ====
section
/-! DEFINITION. Opcode 0xFE: waiting at the barriers (R156, R230, R348). -/

namespace Sys2Proof.Machine

/-- Scope number of a barrier: team or cluster. -/
def barScope (cluster : Bool) : Nat := if cluster then 2 else 1
/-- The open phase of a barrier. -/
def Team.openPhase (t : Team) (cluster : Bool) : Nat := if cluster then t.cphase else t.phase
/-- A BAR has completed: its arrival no longer stands (R348). -/
def Group.barDone (g : Group) (cluster : Bool) : Group :=
  if cluster then { g with clusterArrived := g.clusterArrived.filter (·.2) } else { g with teamArrived := g.teamArrived.filter (·.2) }
/-- Waits until a phase of a barrier has completed, then acquires (R230). -/
def State.awaitPhase (s : State) (cluster : Bool) (n : Nat) : State :=
  if n < s.myTeam.openPhase cluster then ((s.acquire (barScope cluster)).withMe (·.barDone cluster)).retire {} else s.block (.barrier cluster n)
/-- The phase a path already waits for. -/
def State.awaitedPhase (s : State) : Option Nat :=
  match s.path.wait with
  | some (.barrier _ n) => some n
  | _ => none
/-- BAR: it arrives and waits. A BAR withdrawn after its arrival only waits for that arrival's phase, which may be over (R348). -/
def execBar (c : Bool) (s : State) : Out :=
  .next (match s.awaitedPhase with
    | some n => s.awaitPhase c n
    | none =>
      let single := ((s.me.entries.filter fun k => (s.me.path k).state != .joined).length == 1)
      let again := match s.openArrival c with
        | some (_, split) => split
        | none => false
      s.checked (!(c && !s.myTask.record.clus) && single && !again) true [] fun s =>
        let n := s.myTeam.openPhase c
        match s.me.arrival c with
        | some (k, _) => s.awaitPhase c k
        | none => ((s.release (barScope c)).arrive c false).awaitPhase c n)
/-- BAR that only waits (R230): the phase is the one of s(a) nearest to the open phase, phases counting modulo 2^32. -/
def execBarWait (a : BitVec 6) (c : Bool) (s : State) : Out :=
  .next (match s.awaitedPhase with
    | some n => s.awaitPhase c n
    | none => s.checked (!(c && !s.myTask.record.clus)) true [.s a.toNat] fun s =>
      let now := s.myTeam.openPhase c
      let ahead := (s.rs a.toNat - BitVec.ofNat 32 now).toInt
      if ahead < 0 then (s.acquire (barScope c)).retire {} else s.awaitPhase c (now + ahead.toNat))

end Sys2Proof.Machine
end

