-- ==== Sys2Proof/Machine/Agenda.lean ====
section
/-! DEFINITION. What can happen next: which groups may issue and which path they issue (R238 to R241), when a wait is over (R189). -/

namespace Sys2Proof.Machine

/-- Whether a gate is pending or closed on the region of a tile (R3, R399): plinth tiles are regions 0 to 47, figure quadrants 48 to 51. -/
def regionOf (tile : Nat) : Nat :=
  if tile < 48 then tile else
    let y := (tile - 48) / 8
    let x := (tile - 48) % 8
    48 + (if y < 3 then 0 else 2) + (if x < 4 then 0 else 1)
/-- Whether a tile's region carries the gate mark. -/
def State.gated (s : State) (tile : Nat) : Bool := (lookD s.gates (regionOf tile) {}).state != .open
/-- Whether the wait of a path is over, so that it may issue its instruction again (R189, R238). -/
def State.waitOver (s : State) (g : Group) (w : Wait) : Bool :=
  let t := s.team g.team
  match w with
  | .barrier false n => decide (n < t.phase)
  | .barrier true n => decide (n < t.cphase)
  | .future h => match t.futures[h.toNat % 64]? with
    | some f => f.state != .pending || f.gen != h.toNat / 64
    | none => true
  | .tasks ids => ids.all fun id => (((s.part g.part).task? id).map (·.complete)).getD true
  | .batches n => g.batches.all fun b => !covers n b.1
  | .batchRoom => decide (g.batches.length < 16)
  | .mouldTile m => match look m (s.part g.part).moulds with
    | some k => !k.enabled || k.tiles.toList.any (·.state == .filling)
    | none => true
  | .fifoSpace => decide (1 ≤ (s.channel g.tile).held) || s.gated g.tile || s.gated (partner g.tile)
  | .fifoEntry => (s.channel (partner g.tile)).fifo != [] || ((s.gated g.tile || s.gated (partner g.tile)) && (s.channel (partner g.tile)).link == [])
  | .postTable => decide ((s.mailboxes.flatMap fun m => (m.2.posts.map (·.group) ++ m.2.slots.filterMap fun x => x.owner.map (·.1)).filter fun x =>
      ((s.group? x).map (·.tile)) == some g.tile).length < 16)
  | .gangLatchFree => t.latch == []
  | .engineRoom => decide (t.matQueue.length < 8)
  | .matrixDone n => t.matQueue.all fun m => decide (n < m.seq)
  | .stationRoom => decide ((lookD s.stations (stationOf g.tile) []).length < 8)
  | .ringPass c => decide (c ≤ s.now)
  | .quota => !((((s.part g.part).task? g.task).map (·.versioned)).getD false)
  | .granted _ _ => true
  | .mailbox _ _ | .gangRelease | .station | .fullEmpty _ => false

/-- Whether another instruction still holds the group's pipe (R239): that of a resident group, or the last one of a group that has left. -/
def State.pipeBusy (s : State) (g : Group) : Bool :=
  (match look (32 * g.tile + g.pipe) s.left with
    | some x => decide (x.1 ≤ s.now) && decide (s.now ≤ x.2)
    | none => false)
  || s.allGroups.any fun x => x.seq != g.seq && x.tile == g.tile && x.pipe == g.pipe && decide (s.now < x.clk)
    && decide (x.busyFrom ≤ s.now) && decide (s.now ≤ x.busyTo)
/-- The further delay of a Caliper trial for an instruction at an address (R417). -/
def State.trialDelay (s : State) (g : Group) (pc : DWord) : Nat :=
  match (s.part g.part).trial with
  | some t => if s.now < t.from_ || (t.lo ≤ pc && decide (pc.toNat < t.hi.toNat)) then 0 else t.dly
  | none => 0
/-- Whether a group that could not be given rows can be given them now (R239, R252). -/
def State.rowsNow (s : State) (g : Group) : Bool :=
  !g.rowWait || State.rowsFor g.rowWant.1 g.rowWant.2 { s with me := g, groups := s.allGroups.filter (·.seq != g.seq) }
/-- Whether the paths that a YIELD lets go first have issued, or cannot (R95). -/
def Group.yieldOver (g : Group) (p : Path) : Bool := !(p.yields.any fun k => decide (k < 8) && ((g.path? k).map Path.canIssue).getD false)
/-- Whether the group's handler keeps an entry from issuing (R319). -/
def Group.barred (g : Group) (n : Nat) : Bool := (g.handler.map fun h => h.others.contains n).getD false
/-- Whether an entry of a group may issue now. The delay of a trial comes once, before an instruction's first beat (R417). -/
def State.entryReady (s : State) (g : Group) (n : Nat) : Bool :=
  match g.path? n with
  | none => false
  | some p =>
    p.state == .ready && p.parked.isNone && !p.causeWaits && p.holdAsked.isNone
      && (match p.wait with
        | none => true
        | some w => s.waitOver { g with cur := n } w)
      && g.yieldOver p && !g.barred n && decide (g.clk + (if p.wait.isSome then 0 else s.trialDelay g p.pc) ≤ s.now)
      && decide (p.notBefore ≤ s.now) && decide (p.retryAt ≤ s.now)
/-- The path a group would issue: the first ready entry after the one that issued last (R241). -/
def State.readyPath (s : State) (g : Group) : Option Nat :=
  if s.now < g.clk then none
  else if s.pipeBusy g || g.restarting.isSome || !s.rowsNow g then none
  else if (((s.part g.part).task? g.task).map (·.dying)).getD false then none
  else if (s.team g.team).flushing || ((s.team g.team).preempt && (s.part g.part).reg2 0x85D != 0) then none
  else if (g.entries.any fun n => (g.path n).wait == some .quota) && !s.waitOver g .quota then none
  else ((List.range 8).map fun k => (g.last + 1 + k) % 8).find? fun n => s.entryReady g n
/-- The quad a group belongs to: tile and quad (R237). -/
def Group.quad (g : Group) : Nat := g.tile * 4 + g.pipe / 8
/-- Whether a quad has issued in this cycle (R240). -/
def State.quadIssued (s : State) (q : Nat) : Bool :=
  (s.left.any fun x => x.1 / 8 == q && x.2.1 == s.now) || s.allGroups.any fun g => g.quad == q && g.busyFrom == s.now && decide (s.now < g.clk)
/-- The ready groups of a quad with the paths they would issue. -/
def State.readyGroups (s : State) (q : Nat) : List (Group × Nat) :=
  (s.allGroups.filter fun g => g.quad == q).filterMap fun g => (s.readyPath g).map fun n => (g, n)
/-- The older of two groups (R240). -/
def olderOf (a b : Group × Nat) : Group × Nat := if b.1.seq < a.1.seq then b else a
/-- The group a quad's scheduler chooses, and its path (R95, R240). -/
def State.quadChoice (s : State) (q : Nat) : Option (Nat × Nat) :=
  let rs := s.readyGroups q
  let awake := rs.filter fun r => !(r.1.yielded && rs.any fun x => x.1.pipe != r.1.pipe)
  let clear := awake.filter fun r => !r.1.turn
  match if clear.isEmpty then awake else clear with
  | [] => none
  | r :: rs => let c := rs.foldl olderOf r; some (c.1.seq, c.2)
/-- The issues possible in this cycle, one per quad. -/
def State.issues (s : State) : List (Nat × Nat) :=
  ((s.allGroups.map Group.quad).eraseDups.filter fun q => !s.quadIssued q).filterMap s.quadChoice
/-- Path-table and spill entries that hold no path are written afresh when one takes them (R342). -/
def State.soundEntries (s : State) (g : Group) : State :=
  if s.errors.isEmpty then s
  else { s with errors := s.errors.filter fun e =>
    !(e.kind == 8 && e.tile == g.tile && (List.range 72).any fun n => e.addr == g.tableWord n && (g.path? n).isNone) }
/-- Checks a group out to issue a path: where every ready group of its quad had its turn bit set, those bits are cleared (R240). -/
def State.checkout (s : State) (seq path : Nat) : State :=
  match s.group? seq with
  | none => s
  | some g =>
    let ready := (s.readyGroups g.quad).map (·.1)
    let reset := ready.all (·.turn)
    let tidy := fun (x : Group) =>
      if x.quad = g.quad then { x with turn := x.turn && !(reset && ready.any fun r => r.seq == x.seq), yielded := false } else x
    let rest := ((s.allGroups.filter fun x => x.seq != seq).map tidy)
    { s.soundEntries g with me := { tidy g with cur := path, gapNew := false, rowWait := false, busyExm := (g.path path).exm }, groups := rest }

/-- What comes of an issue: an instruction whose rows cannot be allocated has not issued, and only its group's want of them is noted (R239,
R240). -/
def State.issued (s : State) (seq : Nat) (o : Out) : Out :=
  match o with
  | .next t => if t.me.seq = seq && t.me.rowWait then .next (s.setGroup seq fun g => { g with rowWait := true, rowWant := t.me.rowWant }) else o
  | o => o

end Sys2Proof.Machine
end

