-- ==== Sys2Proof/Machine/Launch.lean ====
section
/-! DEFINITION. Task records, their acceptance, tile buffers and footprints, admission, placement and dispatch (R232, R235 to R237, R252,
R256, R257, R262 to R272, R453), and the launch queues (R264, R441). -/

namespace Sys2Proof.Machine

/-! ### Reads and writes of the Atelier (R333, R336) -/

/-- Bytes read on a partition's behalf by a unit outside every cluster, or why the read is refused. -/
def State.atelierRead (s : State) (part va n : Nat) : Except Refuse (List Byte) :=
  let ag : Agent := { part := part }
  match s.refusal ag .load va n 0 with
  | some r => .error r
  | none => .ok ((s.places ag .load va n).flatMap fun (p, k) => s.readBytes ag p k)
/-- Bytes written likewise. -/
def State.atelierWrite (s : State) (part va : Nat) (bs : List Byte) : Except Refuse State :=
  let ag : Agent := { part := part }
  match s.refusal ag .store va bs.length 0 with
  | some r => .error r
  | none => .ok ((s.places ag .store va bs.length).foldl (fun (r : List Byte × State) (p, k) =>
      (r.1.drop k, r.2.performWrite ag p (r.1.take k))) (bs, s)).2
/-- An access that faults on the Atelier's own account is written as an unattributed record (R336, R344). -/
def State.atelierFault (s : State) (part : Nat) (r : Refuse) (write : Bool) : State :=
  let code := if r.cause.1 = 0x0B then 0x0B else 0x0C
  s.pushCause part { cause := causeWord code r.cause.2.1, vaddr := BitVec.ofNat 64 r.cause.2.2, unattr := true, write := write }

/-! ### The task record (R262, R263) -/

/-- `n` bytes from an offset of a structure, as a number. -/
def natAt (bs : List Byte) (o n : Nat) : Nat := leNat ((bs.drop o).take n)
/-- `n` bits of a number from bit `k` up. -/
def fieldAt (x k n : Nat) : Nat := x / 2 ^ k % 2 ^ n
/-- An address field: its alignment, and bits 63:56 zero. -/
def addrOk (x align : Nat) : Bool := decide (x < 2 ^ 56) && x % align == 0
/-- The fields of a record (R262). -/
def parseRecord (bs : List Byte) : TaskRecord :=
  let c := natAt bs 16 4
  let dw := fun o => BitVec.ofNat 64 (natAt bs o 8)
  { entry := dw 0, args := dw 8, stack := fieldAt c 22 1 == 1, ccols := fieldAt c 18 4, crows := fieldAt c 15 3
    clus := fieldAt c 14 1 == 1, prio := fieldAt c 12 2, cancd := fieldAt c 11 1 == 1, scang := fieldAt c 10 1 == 1
    idem := fieldAt c 9 1 == 1, vers := fieldAt c 8 1 == 1, groups := fieldAt c 2 6, wcode := fieldAt c 0 2
    scr := natAt bs 20 2, floor := natAt bs 22 1, peak := natAt bs 23 1, branch := natAt bs 24 2, beats := natAt bs 28 4
    tblist := dw 32, foot := dw 40, handler := dw 48, parent := natAt bs 56 4 }
/-- A cluster shape of R235. -/
def shapeOk (stack : Bool) (rows cols : Nat) : Bool :=
  decide (1 ≤ rows) && decide (rows ≤ 6) && decide (1 ≤ cols) && decide (cols ≤ 8) && decide (rows * cols ≤ (if stack then 6 else 12))
/-- Whether a record is legal in itself (R263). A team of legal fields can always be admitted to an empty core: each of its at most 32
groups finds an empty pipe, of at least 64 rows. -/
def recordLegal (bs : List Byte) : Bool :=
  let r := parseRecord bs
  fieldAt (natAt bs 16 4) 23 9 == 0 && natAt bs 26 2 == 0 && natAt bs 60 4 == 0
    && r.wcode != 3 && decide (1 ≤ r.groups) && decide (r.groups ≤ 32)
    && (r.scr == 0 || r.scr == 128 || r.scr == 256 || r.scr == 320)
    && decide (1 ≤ r.floor) && decide (r.floor ≤ r.peak) && decide (r.peak ≤ 48)
    && (if r.clus then shapeOk r.stack r.crows r.ccols else r.crows == 0 && r.ccols == 0 && !r.stack)
    && addrOk r.entry.toNat 4 && addrOk r.tblist.toNat 4 && addrOk r.foot.toNat 8 && addrOk r.handler.toNat 4
/-- W of a record. -/
def TaskRecord.width (r : TaskRecord) : Width :=
  match r.wcode with
  | 0 => .w16
  | 1 => .w32
  | _ => .w64

/-! ### Tile buffers (R269, R270) -/

/-- What a record's list and footprint name. -/
structure Lists where
  inputs : List Nat := []
  outputs : List Nat := []
  foot : Bool := false
  reads : List (Nat × Nat) := []
  writes : List (Nat × Nat) := []
/-- The regions of a footprint or a job card: base and length (R271). -/
def regionsAt (bs : List Byte) (first n : Nat) : List (Nat × Nat) :=
  (List.range n).map fun k => (natAt bs (8 + 16 * (first + k)) 8, natAt bs (16 + 16 * (first + k)) 8)
/-- Whether a footprint is legal, and its regions; a non-zero reserved bit makes it illegal (DEDUCED, log entry 140). -/
def parseFoot (bs : List Byte) : Option (List (Nat × Nat) × List (Nat × Nat)) :=
  let h := natAt bs 0 8
  let nr := fieldAt h 0 3
  let nw := fieldAt h 4 3
  let rs := regionsAt bs 0 nr
  let ws := regionsAt bs nr nw
  if h = nr + 16 * nw && decide (nr ≤ 4) && decide (nw ≤ 3) && (rs ++ ws).all fun r => decide (r.1 < 2 ^ 56) then some (rs, ws) else none
/-- Reads the tile-buffer list of a record; a list that names a descriptor the partition does not own is illegal, and so is one with a
non-zero reserved bit, which R263 does not ignore (DEDUCED, log entry 140). -/
def State.readTbList (s : State) (part : Nat) (r : TaskRecord) (l : Lists) : Option Lists :=
  let a := r.tblist.toNat
  if a = 0 then some l
  else if (s.part part).reg2 0x857 = 0 then none
  else match s.atelierRead part a 4 with
    | .error _ => none
    | .ok c =>
      let n := leNat c
      if 16 < n then none
      else match s.atelierRead part (a + 4) (4 * n) with
        | .error _ => none
        | .ok bs =>
          let es := (List.range n).map fun k => natAt bs (4 * k) 4
          let num := fun (e : Nat) => e % 4096
          if es.all fun e => decide (e < 2 ^ 16) && fieldAt e 12 3 == 0 && ((s.part part).febWord (num e)).isSome then
            some { l with inputs := (es.filter fun e => e < 2 ^ 15).map num, outputs := (es.filter fun e => 2 ^ 15 ≤ e).map num }
          else none
/-- Reads the footprint of a record. -/
def State.readFoot (s : State) (part : Nat) (r : TaskRecord) (l : Lists) : Option Lists :=
  let a := r.foot.toNat
  if a = 0 then some l
  else match s.atelierRead part a 120 with
    | .error _ => none
    | .ok bs => (parseFoot bs).map fun (rs, ws) => { l with foot := true, reads := rs, writes := ws }
/-- A record with all it points to, if it is legal (R263). -/
def State.readTask (s : State) (part : Nat) (bs : List Byte) : Option (TaskRecord × Lists) :=
  if recordLegal bs then
    let r := parseRecord bs
    ((s.readTbList part r {}).bind fun l => s.readFoot part r l).map fun l => (r, l)
  else none

/-! ### The dependence unit (R272) -/

/-- Whether two regions share a byte. -/
def overlap (x y : Nat × Nat) : Bool := decide (x.1 < y.1 + y.2) && decide (y.1 < x.1 + x.2) && x.2 != 0 && y.2 != 0
/-- Whether regions meet. -/
def meet (xs ys : List (Nat × Nat)) : Bool := xs.any fun x => ys.any (overlap x)
/-- The edges a submission receives on entry. -/
def edgesOf (dep : List Submission) (y : Submission) : List Nat :=
  (dep.filter fun x => meet y.reads x.writes || meet y.writes x.reads || meet y.writes x.writes).map (·.num)
/-- A submission enters the unit, or the holding queue when the unit is full. -/
def Partition.enterDep (p : Partition) (y : Submission) : Partition :=
  let y := { y with num := p.depNum }
  let p := { p with depNum := p.depNum + 1 }
  if p.dep.length < 256 && p.depHold.isEmpty then { p with dep := p.dep ++ [{ y with edges := edgesOf p.dep y }] }
  else { p with depHold := p.depHold ++ [y] }
/-! ### Eligibility (R268, R270, R272) -/

/-- DEPENDENCE_UNIT_ENTER: the oldest held submission enters when room appears (R272). -/
def execDependenceUnitEnter (p : Nat) (s : State) : Out :=
  .next ((s.setPart p fun q => match q.depHold with
    | y :: ys => if q.dep.length < 256 then { q with dep := q.dep ++ [{ y with edges := edgesOf q.dep y }], depHold := ys } else q
    | [] => q).review p)

/-! ### Acceptance (R264, R453) -/

/-- The task id after another. -/
def nextTaskId (x : Nat) : Nat := if 0xFFFFFFFE ≤ x then 1 else x + 1
/-- The first id that no live task holds. -/
def freshId (live : List Nat) : Nat → Nat → Nat
  | 0, x => x
  | n + 1, x => if live.contains x then freshId live n (nextTaskId x) else x
/-- Live tasks of the device. -/
def State.liveTasks (s : State) : Nat := (s.parts.toList.map fun p => (p.tasks.filter fun k => k.status != .ended).length).sum
/-- Whether another task may be accepted. -/
def State.taskRoom (s : State) : Bool := decide (s.liveTasks < 65536)
/-- Whether a partition's queues have room for one more task (R211, R281, log entry 144). -/
def State.queueRoom (s : State) (part : Nat) : Bool :=
  s.taskRoom && decide (((s.part part).tasks.filter fun k => k.status == .queued || k.status == .eligible).length ≤ Config.taskQueues)
/-- The Atelier accepts a task: it takes the next id, enters the dependence unit, and its eligibility is evaluated. -/
def State.accept (s : State) (part : Nat) (k : Task) (l : Lists) : State × Nat :=
  let p := s.part part
  let id := freshId ((p.tasks.filter fun k => k.status != .ended).map (·.id)) 65537 p.nextId
  let k : Task := { k with part := part, id := id, inputs := l.inputs, outputs := l.outputs, status := .queued }
  let s1 := s.setPart part fun p =>
    let p := { p with nextId := nextTaskId id, tasks := (p.tasks.filter (·.id != id)) ++ [k] }
    if l.foot then p.enterDep { task := some id, reads := l.reads, writes := l.writes } else p
  (s1.review part, id)

/-! ### Admission and placement (R237, R252, R256, R265, R266) -/

/-- Layer, row and column of a tile (R2). -/
def tileXYZ (t : Nat) : Nat × Nat × Nat := (t / 48, t % 48 / 8, t % 8)
/-- Distance of two numbers. -/
def dist (a b : Nat) : Nat := (a - b) + (b - a)
/-- Hop count between tiles (R266). -/
def hops (a b : Nat) : Nat := dist (a / 48) (b / 48) + dist (a % 48 / 8) (b % 48 / 8) + dist (a % 8) (b % 8)
/-- The tiles of a rectangle by its lowest tile; a stacked one is named by its plinth tile. -/
def rectTiles (t rows cols : Nat) (stack : Bool) : List Nat :=
  let one := fun (z : Nat) => (List.range rows).flatMap fun i => (List.range cols).map fun j => z * 48 + (t % 48 / 8 + i) * 8 + t % 8 + j
  if t % 8 + cols ≤ 8 && t % 48 / 8 + rows ≤ 6 && (!stack || decide (t < 48)) then
    (if stack then one 0 ++ one 1 else one (t / 48))
  else []
/-- Whether a core lies in a partition's rectangles (R438). -/
def Partition.ownsCore (p : Partition) (tile : Nat) : Bool := p.rects.any fun r => (rectTiles r.tile r.rows r.cols r.stacked).contains tile
/-- The partition whose rectangles hold a core (R407, R438). -/
def State.coreOwner (s : State) (tile : Nat) : Option Nat := s.existing.find? fun p => (s.part p).ownsCore tile
/-- Whether a pipe with these groups admits one more (R237, R252). -/
def pipeAdmits (gs : List Group) (w : Width) (floor peak : Nat) : Bool :=
  decide (gs.length < 8) && (gs.all fun g => g.width == w)
    && decide (floor + max (rowsReserve gs) (peak + 1 - floor) ≤ rowsFree gs w)
/-- The admitting pipe with the fewest groups, the lowest on a tie (R256). -/
def bestPipe (gs : List Group) (w : Width) (floor peak : Nat) : Option Nat :=
  (List.range 32).foldl (fun b k =>
    let on := fun (p : Nat) => gs.filter fun g => g.pipe == p
    if pipeAdmits (on k) w floor peak then
      (match b with
        | none => some k
        | some j => if (on k).length < (on j).length then some k else b)
    else b) none
/-- Pipes for `n` groups of a team, in index order, with the groups they would be (R256). -/
def placeGroups (w : Width) (floor peak : Nat) : Nat → List Group → Option (List Nat)
  | 0, _ => some []
  | n + 1, gs => (bestPipe gs w floor peak).bind fun k =>
      (placeGroups w floor peak n (gs ++ [{ pipe := k, width := w, floor := floor, peak := peak }])).map (k :: ·)
/-- Groups resident on a core. -/
def State.onTile (s : State) (tile : Nat) : List Group := s.allGroups.filter (·.tile == tile)
/-- Whether a core admits a team of a task (R265). -/
def State.admits (s : State) (part : Nat) (r : TaskRecord) (tile : Nat) : Bool :=
  let ts := s.teams.filter (·.tile == tile)
  (s.part part).ownsCore tile && !s.cdmask.getLsbD tile && !s.gated tile && s.scanning != some tile
    && decide (ts.length ≤ 1)
    && (match ts with
      | t :: _ => decide (t.scr + r.scr + 128 ≤ 384)
      | [] => decide (r.scr ≤ 320))
    && (placeGroups r.width r.floor r.peak r.groups (s.onTile tile)).isSome
/-- The least of a list under a key. -/
def leastBy {α : Type} (key : α → Nat) : List α → Option α
  | [] => none
  | x :: xs => match leastBy key xs with
    | none => some x
    | some y => if key y < key x then some y else some x
/-- The cores a task's next cluster would take, in member order (R266). -/
def State.placement (s : State) (k : Task) : Option (List Nat) :=
  let r := k.record
  let load := fun t => (s.onTile t).length
  let ok := s.admits k.part r
  let firstRect := fun (ts : List Nat) => (ts.map fun t => rectTiles t r.crows r.ccols r.stack).find? fun m => m != [] && m.all ok
  match k.fromTile, r.clus with
  | some f, false =>
    match leastBy (fun t => load t * 96 + t) (k.fromCluster.filter ok) with
    | some t => some [t]
    | none => (leastBy (fun t => (hops f t * 128 + load t) * 96 + t) ((List.range 96).filter ok)).map fun t => [t]
  | some f, true => firstRect ((List.range 96).map fun i => (f + i) % 96)
  | none, true => firstRect (List.range 96)
  | none, false => ((List.range 96).find? ok).map fun t => [t]
/-- A new group as R232 states it. -/
def newGroup (p : Partition) (k : Task) (team cluster member index tile pipe slot seq : Nat) : Group :=
  let w := k.record.width
  let seed := BitVec.ofNat 64 (p.reg2 0x840) ^^^ BitVec.ofNat 64 (k.id * 2 ^ 32) ^^^ BitVec.ofNat 64 (index * 2 ^ 16) ^^^ BitVec.ofNat 64 member
  let s0 : Vector Word 64 := Vector.replicate 64 0
  { live := true, seq := seq, part := k.part, task := k.id, team := team, cluster := cluster, member := member, index := index
    tile := tile, pipe := pipe, slot := slot, width := w, floor := k.record.floor, peak := k.record.peak
    s := (s0.set 0 (lo32 k.record.args)).set 1 (hi32 k.record.args), seed := seed
    paths := (Vector.replicate 72 none).set 0 (some { pc := k.record.entry, member := w.mask, exm := w.mask }) }
/-- The lowest slot of a pipe that no group holds (R237). -/
def freeSlot (gs : List Group) (pipe : Nat) : Nat :=
  ((List.range 8).find? fun k => !(gs.any fun g => g.pipe == pipe && g.slot == k)).getD 0
/-- The lowest free accumulator context of a core (R197). -/
def State.freeCtx (s : State) (tile : Nat) : Nat := if s.teams.any fun t => t.tile == tile && t.ctx == 0 then 1 else 0
/-- Adds the groups of a team to their pipes in index order, each with the next admission number. -/
def State.addGroups (s : State) (make : Nat → Nat → Nat → Nat → Group) : Nat → List Nat → State
  | _, [] => s
  | i, pipe :: ps =>
    let tile := (make i pipe 0 0).tile
    let g := make i pipe (freeSlot (s.onTile tile) pipe) s.admissions
    State.addGroups { s with groups := s.groups ++ [{ g with clk := s.now }], admissions := s.admissions + 1 } make (i + 1) ps
/-- Admits one team of a task to a core. -/
def State.addTeam (s : State) (k : Task) (cluster member tile : Nat) (tiles : List Nat) : State :=
  let r := k.record
  let id := s.teamNum
  let pipes := (placeGroups r.width r.floor r.peak r.groups (s.onTile tile)).getD []
  let t : Team := { id := id, part := k.part, task := k.id, cluster := cluster, member := member, tile := tile, ctx := s.freeCtx tile
                    groups := r.groups, scr := r.scr, tiles := tiles }
  let p := s.part k.part
  -- the bank is zeroed, which makes its words sound, and the lines a first team's L1 share loses are invalidated (R203, R265)
  let s := { s with teams := s.teams ++ [t], teamNum := id + 1
                    errors := s.errors.filter fun e => !(e.kind == 6 && e.tile == tile && e.addr / 2 ^ 20 == t.ctx) }
  let s := ((s.teams.filter (·.tile == tile)).map (·.id)).foldl State.settleShare s
  s.addGroups (fun i pipe slot seq => newGroup p k id cluster member i tile pipe slot seq) 0 pipes
/-- The slots captured at an eviction are boarded again, each with its payload, REV and LASTW (R317). -/
def State.reboard (s : State) (part : Nat) : State :=
  let s1 := (s.part part).ttCaptured.foldl (fun (s : State) x =>
    match (List.range 192).find? fun j => (lookD s.slots j {}).owner == 0xF with
    | some j => { s with slots := put j x.2 s.slots }.setPart part fun p => { p with vslots := put x.1 j p.vslots }
    | none => s) s
  s1.setPart part fun p => { p with ttCaptured := [] }
/-- The number of the cluster a task places next. -/
def Task.nextCluster (k : Task) : Nat := k.redo.headD k.placed
/-- A free version number, if there is one (R274). -/
def Partition.freeVersion (p : Partition) : Option Nat := ((List.range 4095).map (· + 1)).find? fun n => !(p.versions.any (·.num == n))
/-- Whether a task needs a version it does not have. -/
def Task.wantsVersion (k : Task) : Bool := k.record.vers && k.version.isNone && !k.vearly
/-- Starts the next cluster of a task on its cores: it takes its version at the first, and every member team is admitted (R257, R274). -/
def State.startCluster (s : State) (k : Task) (tiles : List Nat) : State :=
  let c := k.nextCluster
  let s := s.setPart k.part fun p =>
    let v := if k.wantsVersion then p.freeVersion else none
    let p := p.setTask k.id fun x =>
      { x with
        status := .running
        placed := if k.redo.isEmpty then x.placed + 1 else x.placed
        redo := x.redo.drop 1
        holds := false
        dispatchSeq := if k.status = .eligible && k.placed = 0 then p.dispatchCount else x.dispatchSeq
        version := v.orElse fun _ => x.version
        versioned := x.versioned || v.isSome }
    { p with dispatchCount := if k.status = .eligible && k.placed = 0 then p.dispatchCount + 1 else p.dispatchCount
             versions := match v with
               | some n => p.versions ++ [{ num := n, task := k.id }]
               | none => p.versions }
  (tiles.zip (List.range tiles.length)).foldl (fun s x => s.addTeam k c x.2 x.1 tiles) (s.reboard k.part)

/-! ### Dispatch (R267, R268, R285) -/

/-- Whether a task waits for dispatch. -/
def Partition.waiting (p : Partition) (k : Task) : Bool :=
  (k.status == .eligible || (k.status == .running && (decide (k.placed < k.clusters) || !k.redo.isEmpty)))
    && !k.dying && !(p.unveiling.isSome && k.record.cancd && k.kind != .unveil)
/-- Effective priority (R268, R285, R326). -/
def Task.rank (k : Task) : Nat :=
  match k.kind with
  | .unveil => 5
  | .system => 4
  | _ => min 3 (k.record.prio + k.boost)
/-- Whether one task comes before another in a partition's order. -/
def Task.before (a b : Task) : Bool :=
  decide (b.rank < a.rank) || (a.rank == b.rank && (decide (a.since < b.since) || (a.since == b.since && decide (a.id < b.id))))
/-- Insertion of a task in that order. -/
def insertTask (k : Task) : List Task → List Task
  | [] => [k]
  | x :: xs => if k.before x then k :: x :: xs else x :: insertTask k xs
/-- The waiting tasks of a partition in dispatch order. -/
def Partition.order (p : Partition) : List Task := (p.tasks.filter p.waiting).foldr insertTask []
/-- Where a task's next cluster can go now; a versioned task also needs a version number, and a task's tile buffers are tested
once more (R270). -/
def State.canPlace (s : State) (k : Task) : Option (List Nat) :=
  if k.wantsVersion && ((s.part k.part).freeVersion).isNone || (k.status == .eligible && !s.mayStart k) then none else s.placement k
/-- What a partition would dispatch: its first admissible task in order, or the one that holds all others back (R268). -/
def State.offer (s : State) (part : Nat) : Option (Task × List Nat) :=
  let p := s.part part
  if p.state != .run || p.stopping || p.evicted then none
  else
    match if p.reg 0x850 0x10000 = 0 then none else p.order.find? (·.holds) with
    | some h => (s.canPlace h).map fun t => (h, t)
    | none => p.order.findSome? fun k => (s.canPlace k).map fun t => (k, t)
/-- The partitions in the order in which the Atelier visits them (R267). -/
def State.visits (s : State) : List Nat := (List.range 8).map fun i => (s.lastPart + 1 + i) % 8
/-- One dispatch decision (R267). -/
def State.dispatch (s : State) : State :=
  if s.now < s.dispatchAt then s
  else
    let pick := fun (s : State) => s.visits.findSome? fun p =>
      if (s.part p).credit = 0 then none else (s.offer p).map fun o => (p, o)
    let go := fun (s : State) (x : Nat × Task × List Nat) =>
      let s := s.setPart x.1 fun p => { p with credit := p.credit - 1 }
      { s with lastPart := x.1, dispatchAt := s.now + 1 }.startCluster x.2.1 x.2.2
    match pick s with
    | some x => go s x
    | none =>
      if s.visits.any fun p => (s.offer p).isSome then
        let s := { s with parts := s.parts.map fun (p : Partition) => { p with credit := (p.reg 0x974 1).toNat } }
        match pick s with
        | some x => go s x
        | none => s
      else s
/-- DISPATCH (R267). -/
def execDispatch (s : State) : Out := .next s.dispatch
/-- Whether a waiting eligible task's priority is due to rise (R268). -/
def State.ageDue (s : State) (p : Partition) (k : Task) : Bool :=
  let age := (p.reg 0x850 0x10000).toNat
  age != 0 && p.waiting k && decide (k.rank < 3) && decide (k.since + (k.boost + 1) * age ≤ s.now)
/-- TASK_AGEING: the effective priority of a task rises by one for a full ageing interval (R268). -/
def execTaskAgeing (p id : Nat) (s : State) : Out :=
  .next (s.setPart p fun q => q.setTask id fun k => if s.ageDue q k then { k with boost := k.boost + 1 } else k)
/-- Notes since when the head of each order has stood at priority 3 without being admissible, and from when on it holds all others back
(R268). -/
def State.noteHeads (s : State) : State :=
  (List.range 8).foldl (fun s p =>
    let q := s.part p
    if q.tasks.isEmpty then s else
    let age := (q.reg 0x850 0x10000).toNat
    let head := (q.order.head?).bind fun k => if k.rank = 3 && (s.canPlace k).isNone then some k.id else none
    let free := age != 0 && !(q.order.any (·.holds))
    let mark := fun (k : Task) =>
      let since := if head = some k.id then k.headSince.orElse fun _ => some s.now else none
      { k with headSince := since, holds := k.holds || (free && (since.any fun h => decide (age ≤ s.now + 1 - h))) }
    s.setPart p fun q => { q with tasks := q.tasks.map mark }) s
/-- A FULL bit may have been changed by an ordinary write: the Atelier sees it (R270). -/
def State.reviewLists (s : State) : State :=
  (List.range 8).foldl (fun s p => if (s.part p).tasks.any fun k => k.inputs != [] || k.outputs != [] then s.review p else s) s

/-! ### Launch queues (R264, R441) -/

/-- log2 of the entries of a launch queue. -/
def Partition.lqSize (p : Partition) (q : Nat) : Nat := bits (p.reg (0x962 + 4 * q) 4) 0 5
/-- Whether a queue has an entry to read; a ring address of 0 names no ring. -/
def Partition.lqPending (p : Partition) (q : Nat) : Bool :=
  p.reg2 (0x960 + 4 * q) != 0 && p.reg (0x963 + 4 * q) 0 != p.reg (0x970 + q) 0
/-- The queue whose turn it is (R264). -/
def Partition.nextQueue (p : Partition) : Option Nat :=
  ((List.range 4).map fun i => (p.lastLaunchQueue + 1 + i) % 4).find? p.lqPending
/-- A doorbell write (R441). -/
def Partition.doorbell (p : Partition) (q : Nat) (v : Word) : Partition :=
  if (v - p.reg (0x963 + 4 * q) 0).toNat ≤ 2 ^ p.lqSize q then p.setReg (0x970 + q) v else { p with badDb := true }
/-- LAUNCH_DOORBELL (R441). -/
def execLaunchDoorbell (p q : Nat) (v : Word) (s : State) : Out :=
  .next (if q < 4 && (s.part p).state != .none then s.setPart p fun x => x.doorbell q v else s)
/-- The launch an entry asks for: the state with its task and the answer (R236, R264). -/
def State.launchEntry (s : State) (part q : Nat) (e : List Byte) : State × Nat :=
  let a := natAt e 0 8
  let n := natAt e 8 2
  let no := (s, 0xFFFFFFFF)
  if a % 64 ≠ 0 || !s.taskRoom then no
  else match s.atelierRead part a 64 with
    | .error _ => no
    | .ok bs => match s.readTask part bs with
      | none => no
      | some (r, l) =>
        if n = 0 || 96 / r.members < n then no
        else s.accept part { record := { r with parent := 0 }, clusters := n, priv := (s.part part).privq.getLsbD q } l
/-- LAUNCH_ENTRY_READ: the Atelier reads the next entry of the queue whose turn it is, launches, answers and advances LQHEAD (R264,
R441). An entry that cannot be read or answered is an Atelier access that faults (R336). -/
def State.launchRead (s : State) (part q : Nat) : State :=
  let p := s.part part
  if p.state != .run || p.stopping || p.nextQueue != some q then s
  else
    let head := p.reg (0x963 + 4 * q) 0
    let a := p.reg2 (0x960 + 4 * q) + 16 * (head.toNat % 2 ^ p.lqSize q)
    let done := fun (s : State) =>
      let s := s.setPart part fun p => { p.setReg (0x963 + 4 * q) (head + 1) with lastLaunchQueue := q }
      if bit (p.reg (0x962 + 4 * q) 4) 5 then s.msi (part + 1) 4 else s
    match s.atelierRead part a 16 with
    | .error r => done (s.atelierFault part r false)
    | .ok e =>
      let x := s.launchEntry part q e
      match x.1.atelierWrite part (a + 12) (leBytes 4 x.2) with
      | .error r => done (x.1.atelierFault part r true)
      | .ok s => done s
/-- LAUNCH_ENTRY_READ (R264). -/
def execLaunchEntryRead (p q : Nat) (s : State) : Out := .next (s.launchRead p q)

end Sys2Proof.Machine
end

