-- ==== Sys2Proof/Machine/Futures.lean ====
section
/-! DEFINITION. Opcodes 0xE3 to 0xE7: chains handed to the engines, and futures (R207 to R210, R355, R363). -/

namespace Sys2Proof.Machine

/-- State codes (R207). -/
def FutureState.code (f : FutureState) : Nat :=
  match f with
  | .pending => 0 | .done => 1 | .faulted => 2 | .cancelled => 3 | .overflow => 4 | .free => 5
/-- Entry `k` of a team's table. -/
def Team.future (t : Team) (k : Nat) : Future := t.futures[k]?.getD {}
/-- The team with an entry changed. -/
def Team.setFuture (t : Team) (k : Nat) (f : Future → Future) : Team :=
  if h : k < 64 then { t with futures := t.futures.set k (f t.futures[k]) } else t
/-- The entry a handle names, unless the handle is INVALID (R207). -/
def Team.named (t : Team) (h : Word) : Option Nat :=
  let k := h.toNat % 64
  let f := t.future k
  if h.toNat / 64 = f.gen && f.state != .free then some k else none
/-- The generation after another: it wraps past 0 (R207). -/
def nextGen (g : Nat) : Nat := if 2 ^ 26 - 1 ≤ g then 1 else g + 1
/-- Number of the protection word of an entry of the future table on its tile (R342). -/
def Team.futureWord (t : Team) (k : Nat) : Nat := 2 ^ 16 + t.ctx * 64 + k
/-- Uses an entry of the issuing team's table: an uncorrectable one kills the task (R343, kind 8). -/
def State.useEntry (s : State) (k : Nat) (f : State → State) : State :=
  if s.struck 8 s.me.tile (s.myTeam.futureWord k) then s.raise { code := 0x0D, detail := 8, mask := s.exm } else f s

/-! ### Queues of the engines (R208, R355) -/

/-- Chains of a partition on an engine that are not yet resolved (R208): a cancelled one whose job still runs is. -/
def State.queueOf (s : State) (part e : Nat) : List Chain := ((s.engines[e]?.getD {}).chains).filter fun c => c.part == part && !c.cancel
/-- The state with an engine changed. -/
def State.setEngine (s : State) (e : Nat) (f : Engine → Engine) : State :=
  if h : e < 5 then { s with engines := s.engines.set e (f s.engines[e]) } else s
/-- The engine that an ENGQ code names (R208). -/
def State.engineOf (s : State) (part code : Nat) : Nat :=
  let shorter := fun (a b : Nat) => if (s.queueOf part b).length < (s.queueOf part a).length then b else a
  match code with
  | 5 => shorter 0 1
  | 6 => shorter 2 3
  | c => c
/-- ENGQ (R208). -/
def execEngq (d a : BitVec 6) (e : BitVec 3) (s : State) : Out :=
  .next (s.checked (even a && small e 7) true [.s a.toNat, .s (a.toNat + 1)] fun s =>
    let va := s.rpair a.toNat
    if va.toNat < scrBase || decide (scrBase + s.myTeam.scr * 1024 < va.toNat + 128) then s.raise { code := 0x05, mask := s.exm, vaddr := va }
    else if va.toNat % 128 ≠ 0 then s.raise { code := 0x04, mask := s.exm, vaddr := va }
    else
      let s := s.release 3
      let t := s.myTeam
      let n := s.engineOf s.me.part e.toNat
      match (List.range 64).find? fun k => (t.future k).state == .free, decide ((s.queueOf s.me.part n).length < 64) with
      | some k, true => s.useEntry k fun s =>
        let s1 := s.setMyTeam fun t => t.setFuture k fun f => { f with state := .pending, word := 0, jobs := 0, firstBad := 0 }
        let c : Chain := { team := t.id, part := s.me.part, future := k, ptr := va }
        let s2 := s1.setEngine n fun e => { e with chains := e.chains ++ [c] }
        ((s2.putS d.toNat (BitVec.ofNat 32 ((t.future k).gen * 64 + k)) clsNONE).putCMBit 0 false clsNONE).retire {}
      | _, _ => ((s.putS d.toNat 0 clsNONE).putCMBit 0 true clsNONE).retire {})

/-! ### Futures (R209) -/

/-- An acquire at device scope when a state is reported that is neither PENDING nor INVALID. -/
def State.reported (s : State) (code : Nat) : State := if code = 0 || code = 5 then s else s.acquire 3
/-- A future instruction on the handle in a register: INVALID, or the entry with its state code. -/
def State.onFuture (s : State) (a : BitVec 6) (invalid : State → State) (f : Nat → Nat → State → State) : State :=
  match s.myTeam.named (s.rs a.toNat) with
  | none => invalid s
  | some k => s.useEntry k fun s => f k (s.myTeam.future k).state.code s
/-- FWAIT. -/
def execFwait (d a : BitVec 6) (w : BitVec 2) (s : State) : Out :=
  .next (s.checked true true [.s a.toNat] fun s =>
    let done := fun (c : Nat) (s : State) => ((s.reported c).putS d.toNat (BitVec.ofNat 32 c) clsNONE).retire { stall := stallOf w }
    s.onFuture a (done 5) fun _ c s => if c = 0 then s.block (.future (s.rs a.toNat)) else done c s)
/-- FTEST. -/
def execFtest (d a : BitVec 6) (w : BitVec 2) (s : State) : Out :=
  .next (s.checked true true [.s a.toNat] fun s =>
    let done := fun (c : Nat) (s : State) =>
      (((s.reported c).putS d.toNat (BitVec.ofNat 32 c) clsNONE).putCMBit 0 (c == 0) clsNONE).retire { stall := stallOf w }
    s.onFuture a (done 5) fun _ c s => done c s)
/-- FCANCEL. -/
def execFcancel (a : BitVec 6) (w : BitVec 2) (s : State) : Out :=
  .next (s.checked true true [.s a.toNat] fun s =>
    let done := fun (s : State) => s.retire { stall := stallOf w }
    s.onFuture a done fun k c s => done (if c = 0 then s.cancelFuture s.me.team k else s))
/-- FRES: the entry is freed and its generation moves on. -/
def execFres (d a : BitVec 6) (w : BitVec 2) (s : State) : Out :=
  .next (s.checked (even d) true [.s a.toNat] fun s =>
    let done := fun (c : Nat) (x : Word) (s : State) =>
      (((s.reported c).putS d.toNat (BitVec.ofNat 32 c) clsNONE).putS (d.toNat + 1) x clsNONE).retire { stall := stallOf w }
    s.onFuture a (done 5 0) fun k c s =>
      if c = 0 then s.block (.future (s.rs a.toNat))
      else done c (s.myTeam.future k).word (s.setMyTeam fun t => t.setFuture k fun f => { f with state := .free, gen := nextGen f.gen }))

end Sys2Proof.Machine
end

