-- ==== Sys2Proof/Machine/Control.lean ====
section
/-! DEFINITION. Opcodes 0x00 to 0x1F but for the system registers: branches, scopes, loops, exit, traps, the mode word, the execution
mask, identifiers, idempotent regions (R83 to R106). -/

namespace Sys2Proof.Machine

/-! ### Branches (R83, R84) -/

/-- The target of a J-form word (R23). -/
def State.jTarget (s : State) (i : BitVec 18) : DWord := pc56 (s.pc + (sext 18 i.toNat <<< 2))
/-- The lanes of EXM(P) whose branch test is true (R83). -/
def State.testLanes (s : State) (n : Bool) (p : BitVec 4) : LaneMask :=
  if p.toNat = 15 then s.exm else s.exm &&& (if n then ~~~ s.predWhole p.toNat else s.predWhole p.toNat)
/-- What a branch test reads. -/
def testUse (p : BitVec 4) : List Use := if p.toNat = 15 then [.exm] else [.exm, .p p.toNat]
/-- A cause of an instruction executed once for the group, with the lanes of EXM(P) (R323). -/
def State.raiseOnce (s : State) (code : Nat) (vaddr : DWord) : State := s.raise { code := code, mask := s.exm, vaddr := vaddr }
/-- The whole path moves, or goes on (R84). -/
def State.branch (s : State) (taken : Bool) (i : BitVec 18) : State :=
  if taken then s.retire { target := some (s.jTarget i), moved := true } else s.retire {}

/-- NOP (R89). -/
def execNop (w : BitVec 2) (s : State) : Out := .next (s.once true [] w id)
/-- JMP (R84). -/
def execJmp (i : BitVec 18) (s : State) : Out := .next (s.checked true true [] fun s => s.branch true i)
/-- BRANY (R84). -/
def execBrany (n : Bool) (p : BitVec 4) (i : BitVec 18) (s : State) : Out :=
  .next (s.checked (testOk n p) true (testUse p) fun s => s.branch (s.testLanes n p != 0) i)
/-- BRALL (R84). -/
def execBrall (n : Bool) (p : BitVec 4) (i : BitVec 18) (s : State) : Out :=
  .next (s.checked (testOk n p) true (testUse p) fun s => s.branch (s.testLanes n p == s.exm) i)
/-- BRC (R84). -/
def execBrc (c : BitVec 6) (i : BitVec 18) (s : State) : Out :=
  .next (s.checked true true [.cmBit c.toNat] fun s => s.branch (bit s.cmNow c.toNat) i)
/-- BRA: the path moves, goes on, or splits (R83). -/
def execBra (n : Bool) (p : BitVec 4) (i : BitVec 18) (s : State) : Out :=
  .next (s.checked (testOk n p) true (testUse p) fun s =>
    let tk := s.testLanes n p
    if tk = 0 then s.retire {}
    else if tk = s.path.member then s.branch true i
    else match s.me.freeEntries with
      | [] => s.raiseOnce 0x08 0
      | q :: _ =>
        let t := s.jTarget i
        let old := s.path
        let s1 := (s.setPath fun p => { p with member := p.member &&& ~~~tk, exm := s.exm &&& ~~~tk }).withMe fun g =>
          ((g.dropEXM g.cur).addPath q { pc := t, member := tk, exm := tk, join := old.join, parent := old.parent, notBefore := s.now + 3 }).goto q t
        s1.retire {})

/-! ### Scopes, calls and loops (R85 to R92) -/

/-- Opens a scope: the child `q` takes the path's lanes at `start`, the owner waits at `join` (R85, R90). -/
def State.openScope (s : State) (q : Nat) (kind : ScopeKind) (start join : DWord) : State :=
  let i := s.me.cur
  let p := s.path
  let s1 := ((s.count {}).charge {}).withMe fun g =>
    let g := g.setPath i fun p => { p with state := .joined, kind := kind, pc := join }
    ((g.addPath q { pc := start, member := p.member, exm := s.exm, join := some join, parent := some i }).goto q start).refill 72
  s1
/-- JPT (R85). -/
def execJpt (i : BitVec 18) (s : State) : Out :=
  .next (s.checked true true [.exm] fun s =>
    match s.me.freeEntries with
    | [] => s.raiseOnce 0x08 0
    | q :: _ => s.openScope q .plain (pc56 (s.pc + 4)) (s.jTarget i))
/-- CALL and CALLI: the taken lanes call, the others wait at the return address (R87). -/
def State.callTo (s : State) (tk : LaneMask) (t : DWord) : State :=
  let i := s.me.cur
  let p := s.path
  let ret := pc56 (s.pc + 4)
  let rest := p.member &&& ~~~tk
  if tk = 0 then s.retire {}
  else match s.me.freeEntries, decide (rest = 0) with
    | q :: _, true =>
      ((s.count {}).charge {}).withMe fun g =>
        let g := g.setPath i fun p => { p with state := .joined, kind := .call, pc := ret }
        ((g.addPath q { pc := t, member := tk, exm := tk, join := some ret, parent := some i, notBefore := s.now + 3 }).goto q t).refill 72
    | q :: k :: _, false =>
      ((s.count {}).charge {}).withMe fun g =>
        let g := g.setPath i fun p => { p with state := .joined, kind := .call, pc := ret }
        let g := g.addPath k { pc := ret, member := rest, exm := s.exm &&& ~~~tk, join := some ret, parent := some i, state := .waiting }
        ((g.addPath q { pc := t, member := tk, exm := tk, join := some ret, parent := some i, notBefore := s.now + 3 }).goto q t).refill 72
    | _, _ => s.raiseOnce 0x08 0
/-- CALL (R87). -/
def execCall (n : Bool) (p : BitVec 4) (i : BitVec 18) (s : State) : Out :=
  .next (s.checked (testOk n p) true (testUse p) fun s => s.callTo (s.testLanes n p) (s.jTarget i))
/-- CALLI (R87). -/
def execCalli (a : BitVec 6) (w : BitVec 2) (s : State) : Out :=
  .next (s.checked (even a) true [.exm, .s a.toNat, .s (a.toNat + 1)] fun s =>
    let t := s.rpair a.toNat
    if bits t 56 8 ≠ 0 then s.raiseOnce 0x05 t
    else if bits t 0 2 ≠ 0 then s.raiseOnce 0x04 t
    else
      let s1 := s.callTo s.exm t
      s1.withMe fun g => { g with clk := g.clk + stallOf w, stallUntil := g.stallUntil + stallOf w })
/-- The scope a path belongs to: the kind of its parent (R85). -/
def State.scopeKind (s : State) : ScopeKind :=
  match s.path.parent with
  | some i => (s.me.path i).kind
  | none => .none
/-- RET (R88). -/
def execRet (w : BitVec 2) (s : State) : Out :=
  .next (s.checked (s.scopeKind == .call) true [] fun s =>
    s.retire { stall := stallOf w, target := s.path.join, moved := true })
/-- LOOP and LOOPK: count, body length in words (R90). -/
def State.loopOn (s : State) (n : Fin 3) (c : Word) (len : Nat) : State :=
  let start := pc56 (s.pc + 4)
  let stop := pc56 (start + BitVec.ofNat 64 (4 * len))
  if c = 0 then s.retire { target := some stop, moved := true }
  else match s.me.freeEntries with
    | [] => s.raiseOnce 0x08 0
    | q :: _ =>
      (s.withMe fun g => { g with loops := g.loops.set n { count := c, start := start, len := BitVec.ofNat 11 (len - 1), active := true } }).openScope
        q (.loop n) start stop
/-- A loop counter number (R17). -/
def loopNo (k : Nat) : Option (Fin 3) := if h : k < 3 then some ⟨k, h⟩ else none
/-- LOOP (R90). -/
def execLoop (d a : BitVec 6) (i : BitVec 11) (s : State) : Out :=
  .next (match loopNo d.toNat with
    | none => s.illopU
    | some n => s.checked (small i 1024 && !s.me.loops[n].active) true [.exm, .s a.toNat] fun s => s.loopOn n (s.rs a.toNat) (i.toNat + 1))
/-- LOOPK (R90). -/
def execLoopk (c : BitVec 2) (l : BitVec 8) (n : BitVec 10) (s : State) : Out :=
  .next (match loopNo c.toNat with
    | none => s.illopU
    | some k => s.checked (!s.me.loops[k].active) true [.exm] fun s => s.loopOn k (n.setWidth 32) (l.toNat + 1))
/-- LEAVE (R92). -/
def execLeave (c : BitVec 2) (s : State) : Out :=
  .next (match loopNo c.toNat with
    | none => s.illopU
    | some k => s.checked (s.me.loops[k].active && s.scopeKind == .loop k) true [] fun s =>
        (s.withMe fun g => { g with loops := g.loops.set k { g.loops[k] with count := 1 } }).retire { target := s.path.join, moved := true })

/-! ### Exit, yield, breakpoints, traps (R94 to R99, R318 to R321) -/

/-- Lanes leave the recorded masks of the handler; when none is left the handler ends as if the trapped path had exited (R321). -/
def Group.leaveHandler (g : Group) (m : LaneMask) : Group :=
  match g.handler with
  | none => g
  | some h =>
    if h.member &&& ~~~m = 0 then { g with handler := none, mode := g.x.xmode }
    else { g with handler := some { h with member := h.member &&& ~~~m, exm := h.exm &&& ~~~m } }
/-- EXIT writes the EXM that it has read: a write still pending is overtaken (R247). -/
def State.ownEXM (s : State) : State :=
  if s.me.pending.any (Pending.isEXM s.me.cur) then (s.setPath fun p => { p with exm := s.exm }).withMe fun g => g.dropEXM g.cur else s
/-- EXIT: the lanes of EXM(P) leave; a group without a path exits (R94, R321). -/
def execExit (w : BitVec 2) (s : State) : Out :=
  .next (s.checked true true [.exm] fun s =>
    let m := s.exm
    let n := s.me.cur
    let seq := s.me.seq
    let d : Done := { stall := stallOf w }
    if m = 0 then s.retire d
    else
      let s := s.ownEXM.withMe fun g => g.leaveHandler m
      if s.path.member &&& ~~~m = 0 then
        (((s.count d).charge d).withMe fun g => g.removeLanes n m).endGroup seq
      else (s.withMe fun g => g.removeLanes n m).retire d)
/-- YIELD (R95): the other ready paths of the group are those of its path table, since a spilled path never issues (DEDUCED, log entry 134). -/
def execYield (w : BitVec 2) (s : State) : Out :=
  .next (s.checked true true [] fun s =>
    let others := s.me.entries.filter fun n => n != s.me.cur && decide (n < 8) && (s.me.path n).canIssue
    let cur := s.me.cur
    let s := s.retire { stall := stallOf w }
    s.withMe fun g => { g.setPath cur (fun p => { p with yields := others }) with yielded := true })
/-- Whether the debugger may hold paths of a partition: DBGCTL.EN (R419, R430). -/
def Partition.debugOn (p : Partition) : Bool := bit (p.reg 0x930 0) 0
/-- BKPT (R96): the path is held at A + 4 behind a halt record, once the copies of its group have ended (R184). A hold that was asked for is
met by it (R419). -/
def execBkpt (i : BitVec 11) (s : State) : Out :=
  .next (s.checked (small i 1024) true [] fun s =>
    if s.myPart.debugOn then
      let n := s.me.cur
      if s.copies.any fun c => c.group == s.me.seq then
        ((s.count {}).charge {}).setPath fun p => { p with holdAsked := some 0, holdId := i.toNat }
      else
        let s1 := ((s.haltRecord s.me n i.toNat false 0).count {}).charge {}
        s1.withMe fun g => (({ g with pending := [] }).setPath n fun p =>
          { p with state := .held, heldState := .ready, holdAsked := none, pc := pc56 (p.pc + 4) }).refill 72
    else s.retire {})
/-- TRAP (R97). -/
def execTrap (i : BitVec 11) (s : State) : Out :=
  .next (s.checked (small i 1024) true [.exm] fun s =>
    ((s.count {}).charge {}).raise { code := 0x01, detail := i.toNat, mask := s.exm, completed := true })
/-- TRAPRET (R98, R320): entries that the handler opened are freed, the trapped path waits for nothing, and it resumes at XPC. A loop
counter whose scope is cut off stays active (DESIGN CHOICE, log entry 38). -/
def execTrapret (w : BitVec 2) (s : State) : Out :=
  .next (s.checked true true [] fun s =>
    match s.me.handler with
    | none => s.raiseOnce 0x02 0
    | some h =>
      let d : Done := { stall := stallOf w }
      let mine := fun (n : Nat) => !h.others.contains n
      let s := if s.me.entries.all fun n => n == s.me.cur || !mine n || (s.me.path n).wait.isNone then s
        else s.withdrawIf fun x n => x == s.me.seq && n != s.me.cur && mine n
      let s1 := (s.count d).charge d
      s1.withMe fun g =>
        let n := if (g.path? h.path).isSome then h.path else g.cur
        let old := g.path n
        let g := g.entries.foldl (fun g k => if h.others.contains k || k == n then g else g.setEntry k none) g
        let g := (g.dropEXM n).setEntry n (some { old with
          member := h.member, exm := h.exm, state := if old.state = .held then .held else .ready, heldState := .ready, kind := .none, wait := none
          yields := [], notBefore := s.now + 3 })
        (({ g with mode := g.x.xmode, handler := none, cur := n }).goto n g.x.xpc).refill 72)

/-! ### Mode word and masks (R100, R101) -/

/-- MODE (R100, R34). Its value decides whether its operand is legal: of a source that is still pending, the value a consumer reads now
(DESIGN CHOICE, log entry 135; likewise SYSWR). -/
def execMode (a : BitVec 6) (w : BitVec 2) (s : State) : Out :=
  .next (s.checked (modeLegal (s.rs a.toNat)) true [.s a.toNat] fun s =>
    (s.withMe fun g => { g with mode := s.rs a.toNat }).retire { stall := stallOf w })
/-- Where each MODEF field stands: lowest bit and width (R33, R100). -/
def modeField (d : Nat) : Nat × Nat :=
  match d with
  | 0 => (0, 4) | 1 => (4, 1) | 2 => (5, 4) | 3 => (9, 3) | 4 => (12, 1) | 5 => (13, 1) | 6 => (14, 2) | 7 => (16, 3)
  | 8 => (19, 1) | 9 => (20, 5) | _ => (25, 1)
/-- MODEF (R100, R34). -/
def execModef (d : BitVec 6) (i : BitVec 11) (s : State) : Out :=
  let f := modeField d.toNat
  let m := setBits s.me.mode f.1 f.2 i.toNat
  .next (s.once (modefOk d i && modeLegal m) [] 0 fun s => s.withMe fun g => { g with mode := m })
/-- MODERD (R100). -/
def execModerd (d : BitVec 6) (w : BitVec 2) (s : State) : Out :=
  .next (s.once true [] w fun s => s.putS d.toNat s.me.mode (1 + clsSIMPLE))
/-- EXMSV (R101). -/
def execExmsv (d : BitVec 6) (w : BitVec 2) (s : State) : Out :=
  .next (s.once (even d) [.exm] w fun s => s.putPair d.toNat s.exm (1 + clsSIMPLE))
/-- A lane mask from a scalar pair: bits for lanes W and above are ignored (R101). -/
def State.maskPair (s : State) (a : Nat) : LaneMask := s.rpair a &&& s.me.width.mask
/-- EXMLD (R101). -/
def execExmld (a : BitVec 6) (w : BitVec 2) (s : State) : Out :=
  .next (s.once (even a) [.s a.toNat, .s (a.toNat + 1)] w fun s => s.putEXM (s.maskPair a.toNat) (1 + clsSIMPLE))
/-- EXMCMB (R101). -/
def execExmcmb (a : BitVec 6) (f : BitVec 3) (s : State) : Out :=
  .next (s.once (even a && small f 4) [.exm, .s a.toNat, .s (a.toNat + 1)] 0 fun s =>
    let m := s.maskPair a.toNat
    s.putEXM (match f.toNat with
      | 0 => s.exm &&& m
      | 1 => s.exm ||| m
      | 2 => s.exm &&& ~~~m
      | _ => s.exm ^^^ m) 0)
/-- EXMP (R101). -/
def execExmp (a b : BitVec 6) (w : BitVec 2) (s : State) : Out :=
  .next (s.once (small a 12 && small b 2) [.exm, .p a.toNat] w fun s =>
    s.putEXM (s.exm &&& (if b = 1 then ~~~ s.predWhole a.toNat else s.predWhole a.toNat)) (1 + clsSIMPLE))

/-! ### Identifiers (R102), release of names (R105), idempotent regions (R106) -/

/-- The value of an identifier for a lane (R102). -/
def State.ident (s : State) (sel lane : Nat) : Word :=
  let g := s.me
  let t := s.myTeam
  let k := s.myTask
  let n := fun (x : Nat) => BitVec.ofNat 32 x
  match sel with
  | 0 => n lane
  | 1 => n g.width.lanes
  | 2 => n g.index
  | 3 => n t.groups
  | 4 => n g.member
  | 5 => n k.record.members
  | 6 => n g.cluster
  | 7 => n k.clusters
  | 8 => n g.task
  | 9 => n k.record.parent
  | 10 => n k.record.branch
  | 11 => n g.cur
  | 12 => n g.part
  | 13 => n (g.tile + g.pipe / 8 * 2 ^ 8 + g.pipe % 8 * 2 ^ 12 + t.ctx * 2 ^ 16)
  | _ => if k.record.clus then n (k.record.crows + k.record.ccols * 2 ^ 4 + (if k.record.stack then 2 ^ 8 else 0)) else n 0x11
/-- IDRD (R102). -/
def execIdrd (d : BitVec 6) (u : Bool) (i : BitVec 11) (s : State) : Out :=
  .next (s.calc { legal := rd u d && small i 15 && !(u && i == 0), u := u, uses := [], dests := [d.toNat],
                  f := fun s lane => ([s.ident i.toNat lane], 0) })
/-- RELN (R105). -/
def execReln (a b : BitVec 6) (w : BitVec 2) (s : State) : Out :=
  .next (s.once (vr a && vr b && decide (a.toNat ≤ b.toNat)) [] w fun s =>
    s.withMe fun g => ((List.range 48).filter fun n => decide (a.toNat ≤ n) && decide (n ≤ b.toNat)).foldl (fun g n => g.setRow n none) g)
/-- IDEMB (R106). -/
def execIdemb (w : BitVec 2) (s : State) : Out :=
  .next (s.once true [] w fun s =>
    let open_ := s.me.entries.filter fun n => (s.me.path n).state != .joined
    if open_.length = 1 then
      let p := s.path
      s.withMe fun g => { g with region := some {
        pc := pc56 (p.pc + 4), member := p.member, exm := p.exm, entry := g.cur, mode := g.mode, fpsf := g.fpsf, loops := g.loops,
        olds := g.entries.filter (· != g.cur) } }
    else s.withMe fun g => { g with gstat := g.gstat ||| 2 })
/-- IDEME (R106). -/
def execIdeme (w : BitVec 2) (s : State) : Out :=
  .next (s.once true [] w fun s => s.withMe fun g => { g with region := none })

end Sys2Proof.Machine
end

