-- ==== Sys2Proof/Machine/Feb.lean ====
section
/-! DEFINITION. Opcodes 0xD4 to 0xD7: full/empty bits of tile buffers (R185, R269). -/

namespace Sys2Proof.Machine

/-- What the unit that a BLOCK instruction waited for has answered, if it has. -/
def State.answer (s : State) : Option (Nat × List Word) :=
  match s.path.wait with
  | some (.granted c d) => some (c, d)
  | _ => none
/-- Answers a waiting path: its instruction completes in one further beat (R238). -/
def State.grant (s : State) (seq path code : Nat) (data : List Word) : State :=
  s.setGroup seq fun g => g.setPath path fun p => { p with wait := some (.granted code data) }

/-- The FULL bit of a tile buffer written (R269): the other bits of the byte, which are reserved, stay as software wrote them, and read as
they stand in memory (DESIGN CHOICE, log entry 140). -/
def State.writeFull (s : State) (part k : Nat) (full : Bool) : State :=
  match (s.part part).febWord k with
  | some o => { s with bank := Memory.set s.bank (o + 3) (BitVec.ofNat 8 ((Memory.get s.bank (o + 3)).toNat % 128 + if full then 128 else 0)) }
  | none => s
/-- Whether a waiter's condition holds. -/
def FebKind.holds (k : FebKind) (full : Bool) : Bool :=
  match k with
  | .put | .empty => !full
  | .full | .take => full
/-- What a served waiter leaves in the bit. -/
def FebKind.leaves (k : FebKind) (full : Bool) : Bool :=
  match k with
  | .put => true
  | .take => false
  | .full | .empty => full
/-- One walk of a waiting list from its head: each waiter whose condition holds is served, and the Atelier sees each change (R185, R270). -/
def State.febWalk (part k : Nat) : List FebWaiter → State → State
  | [], s => s.writeHead part k
  | w :: ws, s =>
    let full := s.febFull part k
    if w.part = part && w.buffer = k && w.kind.holds full then
      let s := ({ s with febs := s.febs.filter (· != w) }.writeFull part k (w.kind.leaves full)).grant w.group w.path 0 []
      State.febWalk part k ws (if w.kind.leaves full = full then s else s.review part)
    else State.febWalk part k ws s
/-- Walks until one changes nothing: a served waiter's own change of the bit starts the next walk (R185). -/
def State.febServe (part k : Nat) : Nat → State → State
  | 0, s => s
  | n + 1, s => let t := State.febWalk part k s.febs s
    if t.febs.length = s.febs.length then t else State.febServe part k n t
/-- Sets the bit; a change is walked and seen by the Atelier (R185, R270). -/
def State.setFull (s : State) (part k : Nat) (full : Bool) : State :=
  if s.febFull part k = full then s
  else
    let s := (s.writeFull part k full).review part
    if s.febs.any fun w => w.part == part && w.buffer == k then State.febServe part k (s.febs.length + 1) s else s
/-- The checks of a full/empty instruction: number, owned descriptor, sound word (R185, R332, R340, R343). -/
def State.febChecked (s : State) (ok : Bool) (a : BitVec 6) (f : Nat → State → State) : Out :=
  let n := (s.rs a.toNat).toNat
  .next (if s.answer.isSome then f n s else s.checked (ok && decide (n < 4096)) true [.s a.toNat] fun s =>
    match s.myPart.febWord n with
    | none => s.raise { code := 0x0C, detail := 2, mask := s.exm, vaddr := BitVec.ofNat 64 ((s.myPart.febBase n).getD 0) }
    | some o =>
      if s.poisoned (.bank o) then s.raise { code := 0x0D, detail := 5, mask := s.exm }
      else f n s)
/-- A waiting form: it is served at once, or joins the waiting list in the order its request reaches the bank. -/
def State.febBlock (s : State) (n : Nat) (kind : FebKind) (w : BitVec 2) : State :=
  let takes := kind != .put
  let done := fun (s : State) => (if takes then s.acquire 3 else s).retire { stall := stallOf w }
  if s.answer.isSome then done s
  else
    let s := if kind = .put || kind = .take then s.release 3 else s
    let full := s.febFull s.me.part n
    if kind.holds full then done (s.setFull s.me.part n (kind.leaves full))
    else
      let x : FebWaiter := { part := s.me.part, buffer := n, group := s.me.seq, path := s.me.cur, kind := kind }
      let s := { s with febs := s.febs ++ [x] }
      (s.writeHead s.me.part n).block (.fullEmpty n)
/-- FEBSET: a release, then full := 1. -/
def execFebset (a : BitVec 6) (w : BitVec 2) (s : State) : Out :=
  s.febChecked true a fun n s => ((s.release 3).setFull s.me.part n true).retire { stall := stallOf w }
/-- FEBSET put. -/
def execFebsetPut (a : BitVec 6) (w : BitVec 2) (s : State) : Out := s.febChecked true a fun n s => s.febBlock n .put w
/-- FEBCLR: a release, then full := 0. -/
def execFebclr (a : BitVec 6) (w : BitVec 2) (s : State) : Out :=
  s.febChecked true a fun n s => ((s.release 3).setFull s.me.part n false).retire { stall := stallOf w }
/-- FEBWAIT. -/
def execFebwait (a b : BitVec 6) (w : BitVec 2) (s : State) : Out :=
  s.febChecked (small b 2) a fun n s => s.febBlock n (if b = 1 then .empty else .full) w
/-- FEBWE. -/
def execFebwe (a : BitVec 6) (w : BitVec 2) (s : State) : Out := s.febChecked true a fun n s => s.febBlock n .take w

end Sys2Proof.Machine
end

