-- ==== Sys2Proof/Machine/Aes.lean ====
section
/-! DEFINITION. AES-256-GCM as the copy units use it (R178, R380): FIPS 197 and NIST SP 800-38D, no additional data, 96-bit IV. -/

namespace Sys2Proof.Machine

/-! ### The block cipher -/

/-- Doubling in GF(2^8). -/
def xtime (a : Nat) : Nat := if 128 ≤ a then (2 * a) ^^^ 0x11B else 2 * a
/-- Product in GF(2^8). -/
def gfMul (a b : Nat) : Nat :=
  ((List.range 8).foldl (fun (r : Nat × Nat) k => (if b / 2 ^ k % 2 = 1 then r.1 ^^^ r.2 else r.1, xtime r.2)) (0, a)).1
/-- Inverse in GF(2^8): the 254th power, 0 for 0. -/
def gfInv (a : Nat) : Nat :=
  let a2 := gfMul a a
  let a4 := gfMul a2 a2
  let a8 := gfMul a4 a4
  let a16 := gfMul a8 a8
  let a32 := gfMul a16 a16
  let a64 := gfMul a32 a32
  let a128 := gfMul a64 a64
  [a4, a8, a16, a32, a64, a128].foldl gfMul a2
/-- The substitution box. -/
def sbox (b : Byte) : Byte :=
  let i := BitVec.ofNat 8 (gfInv b.toNat)
  i ^^^ i.rotateLeft 1 ^^^ i.rotateLeft 2 ^^^ i.rotateLeft 3 ^^^ i.rotateLeft 4 ^^^ 0x63
/-- Exclusive-or of byte lists. -/
def xorBytes (a b : List Byte) : List Byte := List.zipWith (· ^^^ ·) a b
/-- The round constant of key word 8k. -/
def rcon (k : Nat) : Byte := BitVec.ofNat 8 ((List.range (k - 1)).foldl (fun c _ => xtime c) 1)
/-- The key schedule: 60 words of four bytes from the eight of the key. -/
def expandKey (key : List Byte) : List (List Byte) :=
  let start := (List.range 8).map fun i => (key.drop (4 * i)).take 4
  ((List.range 52).map (· + 8)).foldl (fun (ws : List (List Byte)) i =>
    let t := ws.getD (i - 1) []
    let t := if i % 8 = 0 then xorBytes (((t.drop 1) ++ t.take 1).map sbox) [rcon (i / 8), 0, 0, 0] else if i % 8 = 4 then t.map sbox else t
    ws ++ [xorBytes (ws.getD (i - 8) []) t]) start
/-- One column mixed. -/
def mixColumn (c : List Byte) : List Byte :=
  (List.range 4).map fun r =>
    let at_ := fun k => (c.getD ((r + k) % 4) 0).toNat
    BitVec.ofNat 8 (gfMul (at_ 0) 2 ^^^ gfMul (at_ 1) 3 ^^^ at_ 2 ^^^ at_ 3)
/-- Bytes substituted and rows shifted. -/
def subShift (b : List Byte) : List Byte := (List.range 16).map fun i => sbox (b.getD ((i + 4 * (i % 4)) % 16) 0)
/-- AES-256 of one block. -/
def aesBlock (ws : List (List Byte)) (b : List Byte) : List Byte :=
  let rk := fun r => ((ws.drop (4 * r)).take 4).flatten
  let b0 := xorBytes b (rk 0)
  let b13 := (List.range 13).foldl (fun b r =>
    let s := subShift b
    xorBytes ((List.range 4).flatMap fun c => mixColumn ((s.drop (4 * c)).take 4)) (rk (r + 1))) b0
  xorBytes (subShift b13) (rk 14)

/-! ### Counter mode and the tag -/

/-- A block as a number, first byte highest. -/
def beBits (b : List Byte) : BitVec 128 := b.foldl (fun n x => n <<< 8 ||| x.setWidth 128) 0
/-- Its bytes. -/
def bitsBe (x : BitVec 128) : List Byte := (List.range 16).map fun i => (x >>> (8 * (15 - i))).setWidth 8
/-- Product in GF(2^128) of SP 800-38D. -/
def ghashMul (x y : BitVec 128) : BitVec 128 :=
  ((List.range 128).foldl (fun (r : BitVec 128 × BitVec 128) i =>
    (if x.getLsbD (127 - i) then r.1 ^^^ r.2 else r.1,
     if r.2.getLsbD 0 then (r.2 >>> 1) ^^^ (0xE1 <<< 120) else r.2 >>> 1)) (0, y)).1
/-- Blocks of 16 bytes, the last padded with zeros. -/
def blocks16 : Nat → List Byte → List (List Byte)
  | 0, _ => []
  | n + 1, bs => if bs = [] then [] else ((bs ++ List.replicate 15 0).take 16) :: blocks16 n (bs.drop 16)
/-- The tag of a ciphertext. -/
def gcmTag (ws : List (List Byte)) (iv ct : List Byte) : List Byte :=
  let h := beBits (aesBlock ws (List.replicate 16 0))
  let y := (blocks16 ct.length ct).foldl (fun y b => ghashMul (y ^^^ beBits b) h) 0
  let y := ghashMul (y ^^^ BitVec.ofNat 128 (8 * ct.length)) h
  xorBytes (bitsBe y) (aesBlock ws (iv ++ [0, 0, 0, 1]))
/-- The plaintext of a ciphertext. -/
def gcmText (ws : List (List Byte)) (iv ct : List Byte) : List Byte :=
  let bs := blocks16 ct.length ct
  ((bs.zip (List.range bs.length)).flatMap fun p => xorBytes p.1 (aesBlock ws (iv ++ (leBytes 4 (p.2 + 2)).reverse))).take ct.length
/-- The 32 bytes of a key slot; byte 0 is the lowest of its bits (DEDUCED from R6, log entry 27). -/
def keyBytes (k : BitVec 256) : List Byte := leBytes 32 k.toNat

end Sys2Proof.Machine
end

