-- ==== Sys2Proof/Machine/Copy.lean ====
section
/-! DEFINITION. Opcodes 0xD0 to 0xD3 and 0xE2: copies, batches and waits for them, and how a copy is carried out (R178 to R184, R205,
R313, R379, R380). -/

namespace Sys2Proof.Machine

/-! ### Starting a copy (R180) -/

/-- Whether a range lies wholly in one window that the issuing team reaches: the scratchpad or cluster window, or paged or bank. -/
def State.inScratch (s : State) (va n : Nat) : Bool :=
  let t := s.myTeam
  let lim := t.scr * 1024
  if va < scrBase then false
  else if va < cluBase then decide (va - scrBase + n ≤ lim) && decide (va - scrBase < max lim 1)
  else decide (va < 2 ^ 56) && decide ((va - cluBase) / memberStride < s.myTask.record.members) && decide ((va - cluBase) % memberStride + n ≤ lim)
/-- Whether a range lies wholly in one window. -/
def State.inWindow (s : State) (va n : Nat) : Bool :=
  decide (va < bankBase) && decide (va + n ≤ bankBase) || (decide (bankBase ≤ va) && decide (va < bankEnd) && decide (va + n ≤ bankEnd)) || s.inScratch va n
/-- The buffered lines that a copy of a team reads drain before it starts (R298). -/
def State.drainRange (s : State) (part team va n : Nat) : State :=
  (((s.team team).wbuf.map (·.line)).filter (s.lineInRange team part va n)).foldl (fun s l => s.drainEntry team l) s
/-- A copy that the issuing group starts now. -/
def State.newCopy (s : State) (kind : CopyKind) : Copy :=
  let g := s.me
  { id := s.copyNum, team := g.team, group := g.seq, part := g.part, tile := g.tile, path := g.cur, pc := s.pc, inst := g.ir, kind := kind }
/-- Starts a copy of the issuing group: it counts as pending until a BATCH closes it. -/
def State.startCopy (s : State) (kind : CopyKind) (failed : Bool) : State :=
  { s with copies := s.copies ++ [{ s.newCopy kind with failed := failed }], copyNum := s.copyNum + 1
           me := { s.me with openCopies := s.me.openCopies ++ [s.copyNum] } }
/-- What a slot of the issuing core's key store holds for the issuing partition (R178, R379). -/
def State.keyHeld (s : State) (k : Nat) : Option (BitVec 256) :=
  match look s.me.tile (s.keys.filterMap fun x => if x.1.2 = k then some (x.1.1, x.2) else none) with
  | some (bits, owner) => if owner = s.me.part then some bits else none
  | none => none
/-- A copy beyond 32 pending ones is an illegal operand (R180). -/
def State.copyRoom (s : State) : Bool := decide (s.me.openCopies.length < 32)
/-- The checks a copy's ranges get at issue: the first refusal in R169's order, and the start. -/
def State.copyIssue (s : State) (bad : List (Option Refuse)) (start : State → State) : State :=
  match bad.foldl Refuse.first none with
  | some r => s.refuse r s.exm true
  | none => (start s).retire {}
/-- An address fault unless a range keeps the window rules. -/
def badRange (ok : Bool) (va : Nat) : Option Refuse := if ok then none else some (.address va)
/-- CPYA (R178). -/
def execCpya (d a b : BitVec 6) (e : Bool) (k : BitVec 4) (s : State) : Out :=
  .next (s.checked (even d && even a && (e || k.toNat == 0) && decide ((s.rs b.toNat).toNat ≤ 2 ^ 24) && s.copyRoom) true
    [.s d.toNat, .s (d.toNat + 1), .s a.toNat, .s (a.toNat + 1), .s b.toNat] fun s =>
    let len := (s.rs b.toNat).toNat
    let dst := s.rpair d.toNat
    let src := s.rpair a.toNat
    let srcLen := if e then len + 32 else len
    if e && !s.myPart.isSealed then s.raise { code := 0x0C, detail := 5, mask := s.exm }
    else
      let one := s.inScratch dst.toNat len || s.inScratch src.toNat srcLen
      s.copyIssue [badRange (s.inWindow dst.toNat len) dst.toNat, badRange (s.inWindow src.toNat srcLen && one) src.toNat] fun s =>
        (s.drainRange s.me.part s.me.team src.toNat srcLen).startCopy
          (if e then .decrypt dst src len k.toNat (s.keyHeld k.toNat) else .linear dst src len) false)
/-- The row numbers that a gathering copy reads from the issuing team's scratchpad. -/
def State.rowNumbers (s : State) (off count : Nat) : List Nat :=
  (List.range count).map fun i => leNat (s.readBytes (s.groupAgent s.me) (.scr s.me.team (off + 4 * i)) 4)
/-- CPYG (R179): the list of row numbers is read when the copy starts. -/
def execCpyg (d a b : BitVec 6) (l : BitVec 4) (s : State) : Out :=
  .next (s.checked (even d && even a && even b && decide (2 ≤ l.toNat) && decide (l.toNat ≤ 12)
      && decide ((s.rs (b.toNat + 1)).toNat ≤ 4096) && s.copyRoom) true
    [.s d.toNat, .s (d.toNat + 1), .s a.toNat, .s (a.toNat + 1), .s b.toNat, .s (b.toNat + 1)] fun s =>
    let count := (s.rs (b.toNat + 1)).toNat
    let off := (s.rs b.toNat).toNat
    let dst := s.rpair d.toNat
    let src := s.rpair a.toNat
    let lim := s.myTeam.scr * 1024
    let dstOk := decide (scrBase ≤ dst.toNat) && decide (dst.toNat < cluBase) && s.inScratch dst.toNat (count * 2 ^ l.toNat)
    s.copyIssue [badRange dstOk dst.toNat, badRange (decide (src.toNat < 2 ^ 56)) src.toNat, badRange (decide (off + 4 * count ≤ lim)) (scrBase + off),
        if off % 4 = 0 then none else some (.align (scrBase + off))] fun s =>
      let idx := s.rowNumbers off count
      let struck := (wordsOf (.scr s.me.team off) (4 * count)).any fun w => s.poisoned w.1
      let s1 := if struck then s.unattributed s.me.part 2 0 s.me.tile s.me.task else s
      let s2 := idx.foldl (fun s i => s.drainRange s.me.part s.me.team (src.toNat + i * 2 ^ l.toNat) (2 ^ l.toNat)) s1
      s2.startCopy (.gather dst src idx l.toNat) struck)
/-- BMCAST (R205). -/
def execBmcast (d a b : BitVec 6) (s : State) : Out :=
  let mask := (s.rs (b.toNat + 1)).toNat
  .next (s.checked (even a && even b && s.myTask.record.clus && decide (mask < 2 ^ min 12 s.myTask.record.members)
      && decide ((s.rs b.toNat).toNat ≤ 2 ^ 24) && s.copyRoom) true
    [.s d.toNat, .s a.toNat, .s (a.toNat + 1), .s b.toNat, .s (b.toNat + 1)] fun s =>
    let len := (s.rs b.toNat).toNat
    let off := (s.rs d.toNat).toNat
    let src := s.rpair a.toNat
    s.copyIssue [badRange (s.inWindow src.toNat len) src.toNat, badRange (mask = 0 || decide (off + len ≤ s.myTeam.scr * 1024)) (cluBase + off)] fun s =>
      (s.drainRange s.me.part s.me.team src.toNat len).startCopy (.multicast off src len mask) false)

/-! ### Batches (R181 to R183) -/

/-- Statuses of a copy (R183). -/
def stFAULT : Nat := 1
/-- GCM tag mismatch. -/
def stTAG : Nat := 2
/-- Key slot empty, or owned by another partition. -/
def stNOKEY : Nat := 3
/-- A batch that completes takes the status of its first failing copy, and CPYST records the first failure (R183). -/
def Group.recordBatch (g : Group) (q : Nat) (ids : List Nat) : Group :=
  match ids.findSome? fun i => (g.copyBad.find? (·.1 == i)).map (·.2) with
  | none => g
  | some (st, key) =>
    let n := min 255 (bits g.cpyst 24 8 + 1)
    let first := bits g.cpyst 0 2 == 0
    { g with
      cpyst := setBits (if first then BitVec.ofNat 32 (st + key * 2 ^ 4) else g.cpyst) 24 8 n
      cpyfseq := if first then BitVec.ofNat 32 q else g.cpyfseq
      failedBatches := g.failedBatches ++ [q]
      copyBad := g.copyBad.filter fun b => !ids.contains b.1 }
/-- Completes the oldest batches of a group whose copies have all ended: completion runs in sequence order (R181). -/
def Group.settleBatches (flying : List Nat) : List (Nat × List Nat) → Group → Group
  | [], g => { g with batches := [] }
  | b :: bs, g =>
    if b.2.any flying.contains then { g with batches := b :: bs } else Group.settleBatches flying bs (g.recordBatch b.1 b.2)
/-- The state with a group's batches settled. -/
def State.settle (s : State) (seq : Nat) : State :=
  s.setGroup seq fun g => g.settleBatches (s.copies.map (·.id)) g.batches
/-- BATCH (R181). -/
def execBatch (d : BitVec 6) (w : BitVec 2) (s : State) : Out :=
  .next (s.checked true true [] fun s =>
    if 16 ≤ s.me.batches.length then s.block .batchRoom
    else
      let q := s.me.batchSeq + 1
      let s1 := s.withMe fun g => { g with batchSeq := q, batches := g.batches ++ [(q.toNat, g.openCopies)], openCopies := [] }
      ((s1.settle s1.me.seq).putS d.toNat q (1 + clsSIMPLE)).retire { stall := stallOf w })
/-- Waits until the batches up to `n` are complete, then acquires and writes CM bit 1 (R182). -/
def State.waitBatches (s : State) (n : Nat) : State :=
  let n := match s.path.wait with
    | some (.batches k) => k
    | _ => n
  if s.me.batches.any fun b => covers n b.1 then s.block (.batches n)
  else ((s.acquire s.scope).putCMBit 1 (s.me.failedBatches.any (covers n)) clsNONE).retire {}
/-- WAITBAT (R182). -/
def execWaitbat (a : BitVec 6) (i : BitVec 11) (s : State) : Out :=
  .next (s.checked true true [.s a.toNat] fun s => s.waitBatches (s.rs a.toNat + i.signExtend 32).toNat)
/-- WAITBAT all. -/
def execWaitbatAll (s : State) : Out := .next (s.checked true true [] fun s => s.waitBatches s.me.batchSeq.toNat)

/-! ### Carrying a copy out (R180, R183, R313, R380) -/

/-- How far a transfer gets: done, a page fault at an address, or a failure. -/
inductive Went where
  | done
  | page (detail va : Nat) (write : Bool)
  | fault
  deriving DecidableEq, Repr

/-- Where a copy reads and writes: byte k of each, as a virtual address. -/
structure Stream where
  len : Nat
  src : Nat → Nat
  dst : Nat → Nat

/-- What stops a transfer at one byte: an uncorrectable word stops a read. -/
def State.stops (s : State) (ag : Agent) (acc : Acc) (va : Nat) : Option Went :=
  match s.locate ag acc va with
  | .error (.page d v) => some (.page d v acc.writes)
  | .error _ => some .fault
  | .ok p => if !acc.writes && s.poisoned p then some .fault else none
/-- What stops a transfer first, byte by byte: the read before the write. -/
def State.obstacle (s : State) (ag : Agent) (x : Stream) : Option (Nat × Went) :=
  (List.range x.len).findSome? fun k =>
    ((s.stops ag .load (x.src k)).orElse fun _ => s.stops ag .store (x.dst k)).map fun w => (k, w)
/-- What a write of a virtual range does to the protection words there (R344). -/
def State.overwriteRange (s : State) (ag : Agent) (va n : Nat) : State :=
  if s.errors.isEmpty then s else (s.places ag .store va n).foldl (fun s p => s.overwritten ag p.1 p.2) s
/-- Copies the first `n` bytes of a stream in ascending order, each read before it is written. -/
def State.moveBytes (s : State) (ag : Agent) (x : Stream) (n : Nat) : State :=
  (List.range n).foldl (fun s k => match s.locate ag .load (x.src k), s.locate ag .store (x.dst k) with
    | .ok p, .ok q => s.writeByte ag q (s.readByte ag p)
    | _, _ => s) (s.overwriteRange ag (x.dst 0) n)
/-- Writes bytes at a virtual address, page by page. -/
def State.writeVirtual (s : State) (ag : Agent) (va : Nat) (bs : List Byte) : State :=
  ((bs.zip (List.range bs.length))).foldl (fun s b => match s.locate ag .store (va + b.2) with
    | .ok q => s.writeByte ag q b.1
    | .error _ => s) (s.overwriteRange ag va bs.length)
/-- Reads bytes at a virtual address. -/
def State.readVirtual (s : State) (ag : Agent) (va n : Nat) : List Byte :=
  (List.range n).map fun k => match s.locate ag .load (va + k) with
    | .ok p => s.readByte ag p
    | .error _ => 0
/-- Reports the poisoned word that a copy's read met (R344). -/
def State.reportRead (s : State) (ag : Agent) (c : Copy) (va : Nat) : State :=
  match s.locate ag .load va with
  | .ok p => if s.poisoned p then s.unattributed c.part (s.wordOf p).1 p.paddr c.tile (s.team c.team).task else s
  | .error _ => s
/-- The source and destination of a copy, byte by byte; a multicast writes one member after another. -/
def State.streams (s : State) (c : Copy) : List Stream :=
  match c.kind with
  | .linear dst src len => [{ len := len, src := fun k => src.toNat + k, dst := fun k => dst.toNat + k }]
  | .decrypt _ _ _ _ _ => []
  | .gather dst src idx log =>
    let rows := idx.toArray
    [{ len := idx.length * 2 ^ log
       src := fun k => (src + BitVec.ofNat 64 (rows.getD (k / 2 ^ log) 0 * 2 ^ log + k % 2 ^ log)).toNat
       dst := fun k => dst.toNat + k }]
  | .multicast off src len mask =>
    ((List.range 12).filter fun m => mask / 2 ^ m % 2 == 1 && (s.member? (s.team c.team) m).isSome).map fun m =>
      { len := len, src := fun k => src.toNat + k, dst := fun k => cluBase + m * memberStride + off + k }
/-- Runs the streams of a copy: what has been done, or a page fault that it waits on before anything of the copy is done. -/
def State.runStreams (s : State) (ag : Agent) (c : Copy) : List Stream → Went × State
  | [] => (.done, s)
  | x :: xs =>
    match s.obstacle ag x with
    | none => State.runStreams (s.moveBytes ag x x.len) ag c xs
    | some (k, .fault) => (.fault, (s.moveBytes ag x k).reportRead ag c (x.src k))
    | some (_, w) => (w, s)
/-- Replaces the destination of a decrypting copy with zeros (R183, R433). -/
def State.wipe (s : State) (ag : Agent) (dst len : Nat) : State := s.writeVirtual ag dst (List.replicate len 0)
/-- A decrypting copy: its status, or the page it waits for (R380). A status other than OK leaves zeros in the destination (R183, R433). -/
def State.runDecrypt (s : State) (ag : Agent) (c : Copy) (dst src len : Nat) (key : Option (BitVec 256)) : Went × Nat × State :=
  let reads := if key.isSome then (List.range (len + 32)).findSome? fun k => (s.stops ag .load (src + k)).map fun w => (k, w) else none
  let writes := (List.range len).findSome? fun k => s.stops ag .store (dst + k)
  match reads, writes, key with
  | some (_, .page d v w), _, _ => (.page d v w, 0, s)
  | _, some (.page d v w), _ => (.page d v w, 0, s)
  | _, _, none => (.done, stNOKEY, s.wipe ag dst len)
  | some (k, _), _, _ => (.done, stFAULT, (s.reportRead ag c (src + k)).wipe ag dst len)
  | none, some _, _ => (.done, stFAULT, s.wipe ag dst len)
  | none, none, some k =>
    let head := s.readVirtual ag src 16
    let ct := s.readVirtual ag (src + 16) len
    let ws := expandKey (keyBytes k)
    if (head.drop 12).any (· != 0) then (.done, stFAULT, s.wipe ag dst len)
    else if gcmTag ws (head.take 12) ct = s.readVirtual ag (src + 16 + len) 16 then
      (.done, 0, s.writeVirtual ag dst (gcmText ws (head.take 12) ct))
    else (.done, stTAG, s.wipe ag dst len)
/-- A copy's agent: the issuing team, and its version (R313, R314). -/
def State.copyAgent (s : State) (c : Copy) : Agent := s.teamAgent { s.team c.team with id := c.team, part := c.part }
/-- The cause of a page fault met by a copy (R180, R327). -/
def State.copyCause (s : State) (c : Copy) (detail va : Nat) (write : Bool) : FaultCause :=
  let g := (s.group? c.group).getD {}
  { cause := causeWord 0x0B detail, task := g.task, vaddr := BitVec.ofNat 64 va, pc := c.pc, inst := c.inst, tile := c.tile,
    group := g.index, path := c.path, copy := some c.id, write := write, replay := true }
/-- Ends a copy with a status: its batch may complete. -/
def State.endCopy (s : State) (c : Copy) (status : Nat) : State :=
  let key := match c.kind with
    | .decrypt _ _ _ k _ => k
    | _ => 0
  let s1 := { s with copies := s.copies.filter (·.id != c.id) }
  let s2 := if status = 0 then s1 else s1.setGroup c.group fun g => { g with copyBad := g.copyBad ++ [(c.id, status, key)] }
  s2.settle c.group
/-- The destination ranges of a copy. -/
def State.copyTargets (s : State) (c : Copy) : List (Nat × Nat) :=
  match c.kind with
  | .decrypt dst _ len _ _ => [(dst.toNat, len)]
  | _ => (s.streams c).map fun x => (x.dst 0, x.len)
/-- Whether a copy of a versioned task stands still for room in its version, as a store at the quota does (R276, R301, R314). -/
def State.copyStalls (s : State) (c : Copy) : Bool :=
  let ag := s.copyAgent c
  ag.ver.isSome && !s.versionRoom ag ((s.copyTargets c).map fun x => { lane := 64, va := x.1, size := x.2, at_ := s.places ag .store x.1 x.2 })
/-- Carries a copy out, unless it waits. -/
def State.runCopy (s : State) (c : Copy) : State :=
  let ag := s.copyAgent c
  let wait := fun (s : State) (d va : Nat) (w : Bool) =>
    let s := { s with copies := s.copies.map fun (x : Copy) => if x.id = c.id then { x with waits := true } else x }
    s.pushCause c.part (s.copyCause c d va w)
  if c.failed then (match c.kind with
    | .decrypt dst _ len _ _ => s.wipe ag dst.toNat len
    | _ => s).endCopy c stFAULT
  else match c.kind with
    | .decrypt dst src len _ key =>
      match s.runDecrypt ag c dst.toNat src.toNat len key with
      | (.page d va w, _, s) => wait s d va w
      | (_, st, s) => s.endCopy c st
    | _ =>
      match s.runStreams ag c (s.streams c) with
      | (.page d va w, s) => wait s d va w
      | (.fault, s) => s.endCopy c stFAULT
      | (.done, s) => s.endCopy c 0

end Sys2Proof.Machine
end

