-- ==== Sys2Proof/Machine/Quarry.lean ====
section
/-! DEFINITION. Opcodes 0xEB to 0xED and the pools of the Quarry (R214, R215, R277 to R279, R289). -/

namespace Sys2Proof.Machine

/-! ### Enabling and disabling (R277, R289) -/

/-- A pool entry that is legal (R277). -/
def parsePool (bs : List Byte) : Option Pool :=
  let base := natAt bs 0 8
  let count := natAt bs 8 4
  let log := natAt bs 12 1
  let flags := natAt bs 13 3
  if decide (6 ≤ log) && decide (log ≤ 12) && addrOk base (2 ^ log) && decide (1 ≤ count) && decide (count ≤ 0xFFFFFF)
      && decide (flags < 4) && natAt bs 16 16 == 0 then
    some { enabled := true, base := BitVec.ofNat 64 base, count := count, log := log, cancel := fieldAt flags 1 1 == 1 }
  else none
/-- The home slice of a paged address (R296). -/
def State.homeSlice (s : State) (part va : Nat) : Nat :=
  match s.walkTables part va with
  | .ok l => homeOf (l.phys va)
  | .error _ => 0
/-- A pool as an enable leaves it, unless the enable is refused: the entry must be legal, and BASE translate to a page with R and W. -/
def State.openPool (s : State) (part n : Nat) : Option Pool :=
  let table := (s.part part).reg2 0x859
  if table = 0 || 16 ≤ n then none
  else match s.atelierRead part (table + 32 * n) 32 with
    | .error _ => none
    | .ok bs => (parsePool bs).bind fun p =>
      let base := p.base.toNat
      match s.locate { part := part } .load base, s.locate { part := part } .store base with
      | .ok _, .ok _ => some { p with free := [(s.homeSlice part base, (List.range p.count).map fun k => base + k * 2 ^ p.log)] }
      | _, _ => none
/-- A write of QPCTL or MDCTL reads back the number written, with bit 31 set when the enable was refused (R289). -/
def Partition.noteCtl (p : Partition) (reg : Nat) (v : Word) (refused : Bool) : Partition :=
  p.setReg reg (setBits v 31 1 (if refused then 1 else 0))
/-- A pool is off. -/
def Partition.poolOff (p : Partition) (n : Nat) : Partition :=
  match look n p.pools with
  | some k => { p with pools := put n { k with enabled := false } p.pools }
  | none => p
/-- POOL_ENABLE (R277). -/
def State.poolEnable (s : State) (part n : Nat) (v : Word) : State :=
  match s.openPool part n with
  | some p => s.setPart part fun q => { q with pools := put n p q.pools }.noteCtl 0x860 v false
  | none => s.setPart part fun q => (q.poolOff n).noteCtl 0x860 v true
/-- POOL_DISABLE (R289). -/
def State.poolDisable (s : State) (part n : Nat) (v : Word) : State :=
  s.setPart part fun q => (q.poolOff n).noteCtl 0x860 v false
/-- POOL_ENABLE: QPCTL := n. -/
def execPoolEnable (p n : Nat) (s : State) : Out := .next (s.poolEnable p n (BitVec.ofNat 32 (n % 64)))
/-- POOL_DISABLE: QPCTL := n with bit 8 set. -/
def execPoolDisable (p n : Nat) (s : State) : Out := .next (s.poolDisable p n (BitVec.ofNat 32 (n % 64 + 256)))
/-- The pool of a partition, if it is enabled. -/
def Partition.pool? (p : Partition) (n : Nat) : Option Pool := (look n p.pools).bind fun k => if k.enabled then some k else none
/-- The state with a pool changed. -/
def State.setPool (s : State) (part n : Nat) (f : Pool → Pool) : State :=
  s.setPart part fun p => match look n p.pools with
    | some k => { p with pools := put n (f k) p.pools }
    | none => p

/-! ### Allocation (R214, R278) -/

/-- The nearest slice with free blocks (R278). -/
def Pool.nearest (p : Pool) (tile : Nat) : Option Nat :=
  leastBy (fun k => hops tile k * 128 + k) ((p.free.filter fun e => !e.2.isEmpty).map (·.1))
/-- Fills the slice list of a requesting core when it is empty (R278). -/
def Pool.stock (p : Pool) (tile : Nat) : Pool :=
  if !(lookD p.free tile []).isEmpty then p
  else match p.nearest tile with
    | none => p
    | some k =>
      let l := lookD p.free k []
      { p with free := put tile (l.take 64) (put k (l.drop 64) p.free) }
/-- One allocation for a core: the block, or 0 (R214). -/
def State.allocBlock (s : State) (part n tile branch : Nat) : Nat × State :=
  let s := s.setPool part n fun p => p.stock tile
  match (((s.part part).pool? n).map fun p => lookD p.free tile []).getD [] with
  | [] => (0, s)
  | a :: rest =>
    match s.atelierWrite part a (List.replicate 8 0) with
    | .error r => (0, s.atelierFault part r true)
    | .ok s => (a, s.setPool part n fun p => { p with free := put tile rest p.free, alloc := put a branch p.alloc })
/-- Allocations for lanes in ascending order. -/
def State.allocBlocks (s : State) (part n tile branch : Nat) : List Nat → List (Nat × Nat) × State
  | [] => ([], s)
  | k :: ks =>
    let r := s.allocBlock part n tile branch
    let t := State.allocBlocks r.2 part n tile branch ks
    ((k, r.1) :: t.1, t.2)
/-- A pool that is not enabled raises a protection fault (R214). -/
def State.withPool (s : State) (n : Nat) (u : Bool) (f : State → State) : State :=
  match s.myPart.pool? n with
  | some _ => f s
  | none => s.fail { code := 0x0C, detail := 3, mask := s.askMask u s.active }
/-- QALLOC. -/
def execQalloc (d : BitVec 6) (u : Bool) (i : BitVec 11) (s : State) : Out :=
  .next (s.checked (pr u d && small i 16) u [] fun s => s.withPool i.toNat u fun s =>
    let names := if u then [] else [d.toNat, d.toNat + 1]
    if !State.rowsFor [] names s then s.noRows [] names
    else
      let act := s.active
      let n := s.askBeats u
      let r := s.allocBlocks s.me.part i.toNat s.me.tile s.myTask.record.branch (s.askers u)
      let s1 := (r.2.acquire 3).putCMBit 0 (r.1.any fun x => x.2 == 0) clsNONE
      s1.loaded u d.toNat 2 0 n act (r.1.map fun x => (x.1, [BitVec.ofNat 32 x.2, BitVec.ofNat 32 (x.2 / 2 ^ 32)])))

/-! ### Freeing (R215) -/

/-- Whether every block of a request is an allocated block of the pool, named once. -/
def Pool.owns (p : Pool) (bs : List Nat) : Bool := (bs.all fun b => (look b p.alloc).isSome) && bs.length == bs.eraseDups.length
/-- Pushes blocks onto the head of a slice's list, one after another. -/
def Pool.release (p : Pool) (tile : Nat) (bs : List Nat) : Pool :=
  bs.foldl (fun p b => { p with free := put tile (b :: lookD p.free tile []) p.free, alloc := drop b p.alloc }) p
/-- What stops the Quarry's access to the link of a freed block: a load and a store of the block's first 8 bytes, whose contents a free
keeps (R279, R336; where a link stands is the model's choice, log entry 138). -/
def State.linkRefusal (s : State) (part : Nat) (bs : List Nat) : Option Refuse :=
  bs.findSome? fun b => Refuse.first (s.refusal { part := part } .load b 8 0) (s.refusal { part := part } .store b 8 0)
/-- Frees the blocks of a request onto the list of the freeing core's slice; where a link faults, nothing is freed, CM bit 0 is set and the
fault is written as an unattributed record (R215, R336). -/
def State.giveBack (s : State) (n : Nat) (bs : List Nat) : State :=
  match s.linkRefusal s.me.part bs with
  | some r => (s.atelierFault s.me.part r true).putCMBit 0 true clsNONE
  | none => s.setPool s.me.part n fun p => p.release s.me.tile bs
/-- QFREE. -/
def execQfree (a : BitVec 6) (u : Bool) (i : BitVec 11) (s : State) : Out :=
  .next (s.checked (pr u a && small i 16) u [(srcA u a).use, ((srcA u a).plus 1).use] fun s => s.withPool i.toNat u fun s =>
    let bs := ((s.askers u).map fun k => (s.dword (srcA u a) k).toNat).filter (· != 0)
    if ((s.myPart.pool? i.toNat).map fun p => p.owns bs).getD false then
      let n := s.askBeats u
      ((s.release 3).giveBack i.toNat bs).retire { beats := n }
    else s.fail { code := 0x03, mask := s.askMask u s.active })
/-- A walk along the links of freed blocks, each a strong relaxed load of the group (R215). -/
inductive Walk where
  | blocks (bs : List Nat)
  | refused (r : Refuse)
  | poisoned (kind addr pa : Nat)
  | tooLong
  deriving DecidableEq, Repr
/-- The walk, at most `fuel` blocks, with the state its loads leave. -/
def State.walkLinks (s : State) : Nat → Nat → List Nat → Walk × State
  | _, 0, bs => (.blocks bs, s)
  | 0, _, _ => (.tooLong, s)
  | fuel + 1, va, bs =>
    let ag := s.groupAgent s.me
    match s.refusal ag .load va 8 8 with
    | some r => (.refused r, s)
    | none =>
      let x : Access := { lane := 64, va := va, size := 8, at_ := s.places ag .load va 8 }
      let s := s.before ag true [x]
      match s.poisonOf ag false [x] with
      | some (kind, addr, pa, _) => (.poisoned kind addr pa, s)
      | none =>
        let r := (s.noteTlb (s.core ag) ag.part [va]).loadAccess ag true x
        State.walkLinks r.2 fuel (leNat r.1) (bs ++ [va])
/-- Frees a walked list and writes the number of blocks freed, 0 where a link faults. -/
def State.freeList (s : State) (n : Nat) (bs : List Nat) (d : BitVec 6) : State :=
  match s.linkRefusal s.me.part bs with
  | some _ => (s.giveBack n bs).putS d.toNat 0 clsNONE
  | none => (s.giveBack n bs).putS d.toNat (BitVec.ofNat 32 bs.length) clsNONE
/-- QFREEL. -/
def execQfreel (d a : BitVec 6) (i : BitVec 11) (s : State) : Out :=
  .next (s.checked (even a && small i 16) true [.s a.toNat, .s (a.toNat + 1)] fun s => s.withPool i.toNat true fun s =>
    match s.walkLinks 4096 (s.rpair a.toNat).toNat [] with
    | (.refused r, _) => s.refuse r s.exm false
    | (.poisoned kind addr pa, _) => s.consume kind addr pa s.exm false
    | (.tooLong, _) => s.raise { code := 0x03, mask := s.exm }
    | (.blocks bs, s1) =>
      if ((s.myPart.pool? i.toNat).map fun p => p.owns bs).getD false then
        ((s1.release 3).freeList i.toNat bs d).retire {}
      else s.raise { code := 0x03, mask := s.exm })

/-! ### Freeing on cancellation (R279) -/

/-- Ascending order of numbers. -/
def ascending (l : List Nat) : List Nat := l.foldr (fun x m => (m.takeWhile (· < x)) ++ x :: m.dropWhile (· < x)) []
/-- Frees the blocks of branches in one pool: each onto the list of its own home slice. -/
def State.freePool (s : State) (part n : Nat) (branches : List Nat) : Nat × State :=
  match (s.part part).pool? n with
  | none => (0, s)
  | some p =>
    if !p.cancel then (0, s)
    else
      let bs := ascending ((p.alloc.filter fun e => branches.contains e.2).map (·.1))
      (bs.length, bs.foldl (fun s b => s.setPool part n fun p => p.release (s.homeSlice part b) [b]) s)
/-- FREE_ON_CANCEL: the blocks freed, and the state (R279). -/
def State.freeOnCancel (s : State) (part : Nat) (branches : List Nat) : Nat × State :=
  (List.range 16).foldl (fun r n => let x := State.freePool r.2 part n branches; (r.1 + x.1, x.2)) (0, s)

end Sys2Proof.Machine
end

