-- ==== Sys2Proof/Machine/Mould.lean ====
section
/-! DEFINITION. Opcodes 0xEE and 0xEF, the moulds and their casts (R216, R217, R233, R280, R281, R454). -/

namespace Sys2Proof.Machine

/-! ### Enabling and disabling (R280, R289) -/

/-- A mould entry that is legal (R280). -/
def parseMould (bs : List Byte) : Option Mould :=
  let tmpl := natAt bs 0 8
  let img := natAt bs 8 8
  let size := natAt bs 16 2
  let rows := natAt bs 18 1
  let tb := natAt bs 20 2
  if addrOk tmpl 64 && addrOk img 128 && decide (1 ≤ size) && decide (size ≤ 0x100)
      && (rows == 0x10 || rows == 0x20 || rows == 0x40 || rows == 0x80) && natAt bs 19 1 == 0 && decide (tb ≤ 0xFFE)
      && decide (natAt bs 22 2 < 2) && natAt bs 24 8 == 0 then
    some { enabled := true, tmpl := BitVec.ofNat 64 tmpl, img := BitVec.ofNat 64 img, rowSize := size, rows := rows, tb := tb
           tiles := (Vector.replicate 2 {}).set 0 { state := .filling } }
  else none
/-- A mould as an enable leaves it, unless the enable is refused. -/
def State.openMould (s : State) (part n : Nat) : Option Mould :=
  let p := s.part part
  let table := p.reg2 0x85B
  if table = 0 || 64 ≤ n then none
  else match s.atelierRead part (table + 32 * n) 32 with
    | .error _ => none
    | .ok bs => (parseMould bs).bind fun m =>
      let free := fun k => (p.febWord k).isSome && !s.febFull part k
      if free m.tb && free (m.tb + 1) then some m else none
/-- A mould is off. -/
def Partition.mouldOff (p : Partition) (n : Nat) : Partition :=
  match look n p.moulds with
  | some m => { p with moulds := put n { m with enabled := false, closing := false } p.moulds }
  | none => p
/-- A write of MDCTL that enables. -/
def State.mouldEnable (s : State) (part n : Nat) (v : Word) : State :=
  match s.openMould part n with
  | some m => s.setPart part fun p => { p with moulds := put n m p.moulds }.noteCtl 0x861 v false
  | none => s.setPart part fun p => (p.mouldOff n).noteCtl 0x861 v true
/-- Whether an MFILL has begun on a mould and waits for a tile: a request in progress (R289). -/
def State.mouldBusy (s : State) (part n : Nat) : Bool :=
  s.allGroups.any fun g => g.part == part && g.entries.any fun k => (g.path k).wait == some (.mouldTile n)
/-- A write of MDCTL that disables: it takes effect when no request to the mould is in progress (R289). -/
def State.mouldDisable (s : State) (part n : Nat) (v : Word) : State :=
  let busy := s.mouldBusy part n
  s.setPart part fun p => (match busy, look n p.moulds with
    | true, some m => { p with moulds := put n { m with closing := true } p.moulds }
    | _, _ => p.mouldOff n).noteCtl 0x861 v false
/-- Disables that waited for a request take effect (R289). -/
def State.closeMoulds (s : State) : State :=
  (List.range 8).foldl (fun s p => ((s.part p).moulds.filter fun x => x.2.closing && !s.mouldBusy p x.1).foldl (fun s x =>
    s.setPart p fun q => q.mouldOff x.1) s) s
/-- MOULD_ENABLE: MDCTL := n. -/
def execMouldEnable (p n : Nat) (s : State) : Out := .next (s.mouldEnable p n (BitVec.ofNat 32 (n % 64)))
/-- MOULD_DISABLE: MDCTL := n with bit 8 set. -/
def execMouldDisable (p n : Nat) (s : State) : Out := .next (s.mouldDisable p n (BitVec.ofNat 32 (n % 64 + 256)))
/-- A mould that exists. -/
def State.mould (s : State) (part n : Nat) : Mould := lookD (s.part part).moulds n {}
/-- The state with a mould changed. -/
def State.setMould (s : State) (part n : Nat) (f : Mould → Mould) : State :=
  s.setPart part fun p => match look n p.moulds with
    | some m => { p with moulds := put n (f m) p.moulds }
    | none => p
/-- A tile of a mould. -/
def Mould.tile (m : Mould) (k : Nat) : MouldTile := m.tiles[k]?.getD {}
/-- The mould with a tile changed. -/
def Mould.setTile (m : Mould) (k : Nat) (f : MouldTile → MouldTile) : Mould :=
  if h : k < 2 then { m with tiles := m.tiles.set k (f m.tiles[k]) } else m
/-- The tile that fills, if one does. -/
def Mould.filling (m : Mould) : Option Nat := (List.range 2).find? fun k => (m.tile k).state == .filling
/-- Size of a cast image (R233). -/
def Mould.imageSize (m : Mould) : Nat := 64 + m.rows * (m.rowSize + 4)
/-- Address of a tile's image. -/
def Mould.image (m : Mould) (k : Nat) : Nat := m.img.toNat + k * ((m.imageSize + 127) / 128 * 128)
/-- Address of a row, and of its tag, in a tile's image (R281). -/
def Mould.rowAt (m : Mould) (k i : Nat) : Nat := m.image k + 64 + i * m.rowSize
/-- Address of a tag. -/
def Mould.tagAt (m : Mould) (k i : Nat) : Nat := m.image k + 64 + m.rows * m.rowSize + 4 * i
/-- A write of the Atelier into an image; one that faults is reported and has no effect. -/
def State.imageWrite (s : State) (part va : Nat) (bs : List Byte) : State :=
  match s.atelierWrite part va bs with
  | .ok s => s
  | .error r => s.atelierFault part r true

/-! ### Casting (R217, R233, R281) -/

/-- Drops the rows of some branches from a tile; the others close up in order, rows and tags. It answers the number dropped. -/
def State.closeUp (s : State) (part n k : Nat) (branches : List Nat) : Nat × State :=
  let m := s.mould part n
  let rows := (m.tile k).rows
  let keep := (rows.zip (List.range rows.length)).filter fun r => !branches.contains r.1
  if keep.length = rows.length then (0, s)
  else
    let get := fun va len => match s.atelierRead part va len with
      | .ok bs => bs
      | .error _ => List.replicate len 0
    let s1 := (keep.zip (List.range keep.length)).foldl (fun s x =>
      (s.imageWrite part (m.rowAt k x.2) (get (m.rowAt k x.1.2) m.rowSize)).imageWrite part (m.tagAt k x.2) (get (m.tagAt k x.1.2) 4)) s
    (rows.length - keep.length, s1.setMould part n fun m => m.setTile k fun t => { t with rows := keep.map (·.1) })
/-- Branches whose cancellation is under way. -/
def Partition.cancelling (p : Partition) : List Nat := p.cancels ++ (p.unveiling.map (·.branches)).getD []
/-- An unattributed record for a task that the Atelier could not launch (R454): the read's cause, or ILLOP for an illegal record. -/
def State.launchFault (s : State) (part va : Nat) (r : Option Refuse) : State :=
  match r with
  | some r =>
    let code := if r.cause.1 = 0x0B then 0x0B else 0x0C
    s.pushCause part { cause := causeWord code r.cause.2.1, vaddr := BitVec.ofNat 64 va, unattr := true }
  | none => s.pushCause part { cause := causeWord 0x03 0, vaddr := BitVec.ofNat 64 va, unattr := true }
/-- Launches the consumer of a cast tile, or holds it while the partition's queues are full or 65 536 tasks are live (R281, R454). -/
def State.launchConsumer (s : State) (part n k : Nat) : State :=
  let m := s.mould part n
  let t := m.tile k
  if !s.queueRoom part then s.setMould part n fun m => m.setTile k fun t => { t with held := true }
  else
    let s := s.setMould part n fun m => m.setTile k fun t => { t with held := false }
    match s.atelierRead part m.tmpl.toNat 64 with
    | .error r => s.launchFault part m.tmpl.toNat (some r)
    | .ok bs => match s.readTask part bs with
      | none => s.launchFault part m.tmpl.toNat none
      | some (r, l) =>
        let r := { r with args := BitVec.ofNat 64 (m.image k), parent := t.caster, branch := if r.branch = 0 then t.branch else r.branch }
        let x := s.accept part { record := r, kind := .consumer n k, fromTile := some t.fromTile, fromCluster := t.fromCluster } l
        x.1.setMould part n fun m => m.setTile k fun t => { t with consumer := some x.2 }
/-- CAST: the filling tile of the issuing group's cast is closed up, completed, marked full, and its consumer launched; it is a release at
device scope of the issuing group (R217, R308). It answers whether it was cast. -/
def State.cast (s : State) (part n k : Nat) : Bool × State :=
  let s := (s.closeUp part n k (s.part part).cancelling).2
  let m := s.mould part n
  let rows := (m.tile k).rows.length
  if rows = 0 then (false, s)
  else
    let s := s.release 3
    let targs := match s.atelierRead part (m.tmpl.toNat + 8) 8 with
      | .ok bs => bs
      | .error _ => List.replicate 8 0
    let header := targs ++ leBytes 4 rows ++ leBytes 2 n ++ [BitVec.ofNat 8 k] ++ List.replicate 49 0
    let s := s.imageWrite part (m.image k) header
    let s := s.imageWrite part (m.rowAt k rows) (List.replicate ((m.rows - rows) * m.rowSize) 0)
    let s := s.imageWrite part (m.tagAt k rows) (List.replicate ((m.rows - rows) * 4) 0xFF)
    let s := s.setFull part (m.tb + k) true
    let s := s.setMould part n fun m =>
      let m := m.setTile k fun t => { t with
        state := .cast, rows := [], caster := s.me.task, fromTile := s.me.tile, fromCluster := s.myTeam.tiles
        branch := s.myTask.record.branch, consumer := none }
      m.setTile (1 - k) fun t => if t.state = .empty then { t with state := .filling } else t
    (true, s.launchConsumer part n k)
/-- A mould number: above 63 an illegal operand, not configured a protection fault (R216). -/
def State.withMould (s : State) (n : Nat) (mask : LaneMask) (f : State → State) : State :=
  if 63 < n then s.fail { code := 0x03, mask := mask }
  else if (s.mould s.me.part n).enabled then f s
  else s.fail { code := 0x0C, detail := 3, mask := mask }
/-- MFLUSH (R217). -/
def execMflush (a : BitVec 6) (s : State) : Out :=
  .next (s.checked true true [.s a.toNat] fun s =>
    let n := (s.rs a.toNat).toNat
    s.withMould n s.exm fun s =>
      match (s.mould s.me.part n).filling with
      | none => (s.putCMBit 0 true clsNONE).retire {}
      | some k =>
        let r := s.cast s.me.part n k
        (r.2.putCMBit 0 (!r.1) clsNONE).retire {})

/-! ### Filling (R216) -/

/-- Places one row: the bytes, its tag and its branch; a tile that is full is cast. -/
def State.placeRow (s : State) (n k : Nat) (bs : List Byte) (tag : Word) : State :=
  let part := s.me.part
  let m := s.mould part n
  let i := (m.tile k).rows.length
  let s := (s.imageWrite part (m.rowAt k i) bs).imageWrite part (m.tagAt k i) (leBytes 4 tag.toNat)
  let branch := s.myTask.record.branch
  let s := s.setMould part n fun m => m.setTile k fun t => { t with rows := t.rows ++ [branch] }
  if i + 1 < m.rows then s else (s.cast part n k).2
/-- Places the rows of lanes in ascending order, as long as a tile fills; it answers whether every lane is done. -/
def State.fillLanes (s : State) (n : Nat) (a b : BitVec 6) : List Nat → Bool × State
  | [] => (true, s)
  | lane :: ls =>
    let m := s.mould s.me.part n
    match m.filling with
    | none => (false, s)
    | some k =>
      let va := (s.dword (.v a.toNat) lane).toNat
      let s1 := s.drainRange s.me.part s.me.team va m.rowSize
      let ag := s1.groupAgent s1.me
      let bs := (s1.places ag .load va m.rowSize).flatMap fun (p, c) => s1.readBytes ag p c
      let s2 := (s1.placeRow n k bs (s.me.vlane b.toNat lane)).withMe fun g => { g with fillDone := g.fillDone ||| (1 <<< lane) }
      State.fillLanes s2 n a b ls
/-- MFILL. -/
def execMfill (d a b : BitVec 6) (s : State) : Out :=
  .next (s.checked (vpair a && vr b) false [.s d.toNat, .v a.toNat, .v (a.toNat + 1), .v b.toNat] fun s =>
    let n := (s.rs d.toNat).toNat
    s.withMould n s.active fun s =>
      let act := s.active
      let left := lanesOf (act &&& ~~~s.me.fillDone)
      let size := (s.mould s.me.part n).rowSize
      let as : List Access := left.map fun k => { lane := k, va := (s.dword (.v a.toNat) k).toNat, size := size }
      s.accesses false true .load 4 as true fun _ s =>
        let r := s.fillLanes n a b left
        if r.1 then (r.2.withMe fun g => { g with fillDone := g.fillDone &&& ~~~act }).retire { beats := beatsOf act }
        else r.2.block (.mouldTile n))

/-! ### Tiles that come back (R281) -/

/-- TILE_RETURN: the consumer of a cast tile is complete; one of an older epoch is counted (R281, R396). -/
def State.tileReturn (s : State) (part n k : Nat) (id : Nat) : State :=
  let m := s.mould part n
  if (m.tile k).consumer ≠ some id then
    (if m.stale.contains id then (s.setMould part n fun m => { m with stale := m.stale.filter (· != id) }).countStale (some part) 1 else s)
  else
    let s := s.setFull part (m.tb + k) false
    s.setMould part n fun m =>
      let m := m.setTile k fun _ => {}
      if m.filling.isNone && (m.tile (1 - k)).state == .cast then m.setTile k fun t => { t with state := .filling } else m
/-- MOULD_CONSUMER_LAUNCH: a held consumer is launched once there is room. -/
def execMouldConsumerLaunch (p m : Nat) (s : State) : Out :=
  .next ((List.range 2).foldl (fun s k => if ((s.mould p m).tile k).held && s.queueRoom p then s.launchConsumer p m k else s) s)
/-- Rows of branches in the filling tiles of a partition are dropped (R283, step 4): how many, and the state. -/
def State.dropRows (s : State) (part : Nat) (branches : List Nat) : Nat × State :=
  (List.range 64).foldl (fun r n =>
    let m := r.2.mould part n
    match m.filling with
    | some k => if m.enabled then let x := State.closeUp r.2 part n k branches; (r.1 + x.1, x.2) else r
    | none => r) (0, s)

end Sys2Proof.Machine
end

