-- ==== Sys2Proof/Machine/Tasks.lean ====
section
/-! DEFINITION. Opcodes 0xE8 to 0xEA, and the completion of tasks: SPAWN, CWAIT, CANCEL (R211 to R213), TASK_COMPLETE (R212, R272, R281,
R285) and VERSION_EARLY_COMMIT (R276). -/

namespace Sys2Proof.Machine

/-- SPAWN (R211): a release at device scope, then the record is read and accepted. -/
def execSpawn (d a : BitVec 6) (w : BitVec 2) (s : State) : Out :=
  .next (s.checked (even a) true [.s a.toNat, .s (a.toNat + 1)] fun s =>
    let x : Access := { lane := 64, va := (s.rpair a.toNat).toNat, size := 64 }
    s.accesses true false .load 64 [x] true fun xs s =>
      let r := (s.release 3).loadAccess (s.groupAgent s.me) false (xs.headD x)
      let s := r.2
      match s.readTask s.me.part r.1 with
      | none => s.illopU
      | some (k, l) =>
        let done := fun (id : Nat) (s : State) =>
          ((s.putS d.toNat (BitVec.ofNat 32 id) clsNONE).putCMBit 0 (id == 0) clsNONE).retire { stall := stallOf w }
        if !s.queueRoom s.me.part then done 0 s
        else
          let k := { k with parent := s.me.task, branch := if k.branch = 0 then s.myTask.record.branch else k.branch }
          let t : Task := { record := k, fromTile := some s.me.tile, fromCluster := s.myTeam.tiles }
          let r := s.accept s.me.part t l
          done r.2 r.1)

/-! ### Waiting for tasks (R212) -/

/-- The children of a task. -/
def Partition.children (p : Partition) (id : Nat) : List Task := p.tasks.filter fun k => k.record.parent == id && id != 0
/-- Ends a CWAIT on tasks: an acquire at device scope; CM bit 0 says whether one of them was cancelled or killed. -/
def State.tasksAwaited (s : State) (ids : List Nat) (other : Bool) (w : BitVec 2) : State :=
  let bad := ids.any fun id => ((s.myPart.task? id).map (·.killed)).getD false
  ((s.acquire 3).putCMBit 0 (bad || other) clsNONE).retire { stall := stallOf w }
/-- Waits for tasks to be complete. -/
def State.awaitTasks (s : State) (ids : List Nat) (w : BitVec 2) : State :=
  if ids.all fun id => ((s.myPart.task? id).map (·.complete)).getD true then s.tasksAwaited ids false w else s.block (.tasks ids)
/-- The tasks a path already waits for. -/
def State.waitedTasks (s : State) : Option (List Nat) :=
  match s.path.wait with
  | some (.tasks ids) => some ids
  | _ => none
/-- CWAIT: every child launched before it issued. -/
def execCwait (w : BitVec 2) (s : State) : Out :=
  .next (s.checked true true [] fun s => s.awaitTasks (s.waitedTasks.getD ((s.myPart.children s.me.task).map (·.id))) w)
/-- CWAIT on one task: a number that names no child does not wait. -/
def execCwaitTask (a : BitVec 6) (w : BitVec 2) (s : State) : Out :=
  .next (s.checked true true [.s a.toNat] fun s =>
    match s.waitedTasks with
    | some ids => s.awaitTasks ids w
    | none =>
      let id := (s.rs a.toNat).toNat
      if (s.myPart.children s.me.task).any (·.id == id) then s.awaitTasks [id] w else s.tasksAwaited [] true w)

/-! ### Cancellation (R213, R279, R283) -/

/-- Whether CANCEL and the deadline reach a task at all (R213, R326): also one that has ended while its version awaits scans (R425). -/
def Task.reachable (k : Task) : Bool := !k.gone && k.kind != .unveil && k.kind != .system
/-- Marks tasks of a partition: they issue nothing and are flushed once their copies have ended. -/
def State.markDying (s : State) (part : Nat) (f : Task → Bool) : State :=
  s.setPart part fun p => { p with tasks := p.tasks.map fun (k : Task) => if f k then { k with dying := true, cancelled := true, killed := true } else k }
/-- Ends the cancellations whose tasks have all been flushed: blocks and mould rows of their branches are released (R279, R283, step 4). -/
def State.finishCancels (s : State) : State :=
  (List.range 8).foldl (fun s p =>
    ((s.part p).cancels.filter fun b => !((s.part p).tasks.any fun k => k.cancelled && k.record.branch == b)).foldl (fun s b =>
      let s := (s.freeOnCancel p [b]).2
      let s := (s.dropRows p [b]).2
      s.setPart p fun q => { q with cancels := q.cancels.filter (· != b) }) s) s
/-- Cancels the tasks of a branch (R213): a branch with no task to cancel is left alone. -/
def State.cancelBranch (s : State) (part b : Nat) : State :=
  let mine := fun (k : Task) => k.reachable && k.record.branch == b
  if (s.part part).tasks.any mine then
    let s := (s.markDying part mine).setPart part fun p => { p with cancels := if p.cancels.contains b then p.cancels else p.cancels ++ [b] }
    s.flushDying.finishCancels
  else s
/-- CANCEL (R213): it completes before the cancellation reaches its own team. -/
def execCancel (a : BitVec 6) (w : BitVec 2) (s : State) : Out :=
  let b := bits (s.rs a.toNat) 0 16
  .next (s.checked (b != 0) true [.s a.toNat] fun s => (s.retire { stall := stallOf w }).cancelBranch s.me.part b)

/-! ### Completion (R212) -/

/-- Whether a task has ended, its version is settled and its descendants are complete, so that it becomes complete. -/
def Partition.completes (p : Partition) (k : Task) : Bool :=
  k.status == .ended && !k.complete && !(p.versions.any (·.task == k.id)) && (p.children k.id).all (·.complete)
/-- An unveiling is over: dispatch resumes, and an arming that waited takes effect (R218, R285). -/
def State.endUnveiling (s : State) (part : Nat) : State :=
  s.setPart part fun p =>
    let p := { p with unveiling := none }
    match p.armLater with
    | none => p
    | some (n, slot) => { p with armLater := none, armed := n != 0, remaining := n, fired := if n = 0 then p.fired else false, slot := slot, designated := true }
/-- TASK_COMPLETE: the task's dependents may start, its mould tile comes back, an unveiling it handled is over (R212, R272, R281, R285). -/
def State.completeTask (s : State) (part id : Nat) : State :=
  match (s.part part).task? id with
  | none => s
  | some k =>
    if !(s.part part).completes k then s
    else
      let s := s.setPart part fun p => p.setTask id fun k => { k with complete := true }
      let s := ((s.part part).dep ++ (s.part part).depHold).foldl (fun s y => if y.task = some id then s.leaveUnit part y.num else s) s
      match k.kind with
      | .user => s
      | .consumer n t => s.tileReturn part n t id
      | .unveil => s.endUnveiling part
      | .system => s.setPart part fun p => { p with sysTask := if p.sysTask = some id then none else p.sysTask }
/-- TASK_COMPLETE. -/
def execTaskComplete (p id : Nat) (s : State) : Out := .next (s.completeTask p id)

/-! ### A version that has used up its quota (R276) -/

/-- Whether a task's version is the oldest of its partition by dispatch order. -/
def Partition.oldestVersion (p : Partition) (k : Task) : Bool :=
  k.version.isSome && p.tasks.all fun x => !(x.version.isSome && decide (x.dispatchSeq < k.dispatchSeq))
/-- Whether a group or a copy of a task waits for its version's quota. -/
def State.quotaWaits (s : State) (k : Task) : Bool :=
  (s.allGroups.any fun g => g.part == k.part && g.task == k.id && g.entries.any fun n => (g.path n).wait == some .quota)
    || s.copies.any fun c => c.part == k.part && (s.team c.team).task == k.id && !c.waits && s.copyStalls c
/-- Whether a version may commit as far as scans go: a scan-gated one once its task's beats have all been followed by a passing scan of
their cores (R425; DEDUCED, log entry 150). -/
def State.scanned (s : State) (k : Task) : Bool := !k.record.scang || (k.cores == [] && (s.taskTeams k.part k.id).all fun t => !t.ran)
/-- VERSION_EARLY_COMMIT: the version commits with the writes its teams still buffer, all of them at once, and the task goes on unversioned
(R276, R314). -/
def execVersionEarlyCommit (p id : Nat) (s : State) : Out :=
  .next (match (s.part p).task? id with
    | none => s
    | some k =>
      if s.quotaWaits k && (s.part p).oldestVersion k && s.scanned k then
        (((s.taskTeams p id).foldl (fun s t => s.drainAll t.id) s).commitVersion p (k.version.getD 0)).setPart p fun q => q.setTask id fun k => { k with vearly := true }
      else s)

end Sys2Proof.Machine
end

