-- ==== Sys2Proof/Machine/Deadline.lean ====
section
/-! DEFINITION. Opcodes 0xF0 and 0xF1, the deadline counter and the unveiling (R218, R219, R282 to R285, R454). -/

namespace Sys2Proof.Machine

/-- Arms the counter, or disarms it, and designates a slot (R218). -/
def Partition.arm (p : Partition) (n slot : Nat) : Partition :=
  { p with armed := n != 0, remaining := n, fired := if n = 0 then p.fired else false, slot := slot, designated := true }
/-- DLARM. -/
def execDlarm (a b : BitVec 6) (w : BitVec 2) (s : State) : Out :=
  .next (s.checked (decide ((s.rs b.toNat).toNat < 64)) true [.s a.toNat, .s b.toNat] fun s =>
    let n := (s.rs a.toNat).toNat
    let slot := (s.rs b.toNat).toNat
    (s.setPart s.me.part fun p => if p.unveiling.isSome then { p with armLater := some (n, slot) } else p.arm n slot).retire { stall := stallOf w })
/-- The status word of the deadline (R219). -/
def Partition.deadlineStatus (p : Partition) : Word :=
  BitVec.ofNat 32 (p.unveils.toNat * 2 ^ 16 + p.slot * 4 + (if p.fired then 2 else 0) + if p.armed then 1 else 0)
/-- DLRD. -/
def execDlrd (d : BitVec 6) (w : BitVec 2) (s : State) : Out :=
  .next (s.once (even d) [] w fun s =>
    (s.putS d.toNat (if s.myPart.armed then BitVec.ofNat 32 s.myPart.remaining else 0) clsNONE).putS (d.toNat + 1) s.myPart.deadlineStatus clsNONE)

/-! ### Firing (R282) and steps 1 to 3 (R283) -/

/-- The deadline fires from a source: 0 the counter, 1 DLTRIG, 2 the host. It starts the unveiling, whose first steps stop dispatch of
CANCD tasks and flush them; a fire during an unveiling is combined or counted; a fire after a stop has begun is ignored (R439). -/
def State.fire (s : State) (part source : Nat) : State :=
  if (s.part part).stopping then s.setPart part fun p => { p with armed := false }
  else match (s.part part).unveiling with
  | some u =>
    s.setPart part fun p => { p with unveiling := some (
      if u.period = s.refs then { u with cause := if u.cause = source then u.cause else 3 } else { u with extra := min (u.extra + 1) 0xFFFF }) }
  | none =>
    let mine := fun (k : Task) => k.reachable && k.record.cancd
    let branches := (((s.part part).tasks.filter mine).map (·.record.branch)).filter (· != 0)
    let s := s.setPart part fun p => { p with
      armed := false, remaining := 0, fired := true, unveils := p.unveils + 1
      unveiling := some { step := 1, cause := source, period := s.refs, branches := branches.eraseDups } }
    ((s.markDying part mine).flushDying).finishCancels
/-- DEADLINE_EXPIRY: an armed counter that has reached 0 (R282). -/
def execDeadlineExpiry (p : Nat) (s : State) : Out :=
  .next (if (s.part p).armed && (s.part p).remaining == 0 then s.fire p 0 else s)
/-- ATCTL_FIRE: the host's fire (R289). -/
def execAtctlFire (p : Nat) (s : State) : Out := .next (if (s.part p).state = .none then s else s.fire p 2)
/-- DLTRIG_RISE: every partition whose ATCTL.PIN is set (R282, R450). -/
def execDltrigRise (s : State) : Out :=
  .next ((List.range 8).foldl (fun s p => if (s.part p).state != .none && bit ((s.part p).reg 0x85F 0) 0 then s.fire p 1 else s) s)

/-! ### Steps 4 to 6 (R283 to R285) -/

/-- Whether every affected task has been flushed. -/
def Partition.flushed (p : Partition) : Bool := !(p.tasks.any fun k => k.cancelled && k.record.cancd)
/-- UNVEIL_CANCEL: blocks and rows of the branches concerned are released (step 4). -/
def execUnveilCancel (part : Nat) (s : State) : Out :=
  .next (match (s.part part).unveiling with
    | some u =>
      if u.step = 1 && (s.part part).flushed then
        let x := s.freeOnCancel part u.branches
        let y := x.2.dropRows part u.branches
        y.2.setPart part fun p => { p with unveiling := p.unveiling.map fun (u : Unveiling) => { u with step := 5, blocks := x.1, rows := y.1 } }
      else s
    | none => s)
/-- A physical slot of the Turntable. -/
def State.slot (s : State) (j : Nat) : Slot := lookD s.slots j {}
/-- The header word of a slot (R221). -/
def Slot.header (x : Slot) : DWord := BitVec.ofNat 64 (x.lastw * 2 ^ 24 + x.rev.toNat * 2 ^ 8 + x.kind * 2 ^ 4 + x.owner)
/-- Bytes of a slot's payload. -/
def Slot.bytes (x : Slot) : List Byte := x.payload.toList.flatMap fun w => leBytes 8 w.toNat
/-- The slot that stands at a station's first position in this cycle (R226). -/
def State.passing (s : State) (station : Nat) : Nat := (s.now + 192 - 2 * station % 192) % 192
/-- The physical slot that an unveiling captures, if one is designated and mapped. -/
def Partition.captureSlot (p : Partition) : Option Nat := if p.designated then look p.slot p.vslots else none
/-- The result record (R284), from what step 5 captured. -/
def State.resultRecord (s : State) (part : Nat) (u : Unveiling) : List Byte :=
  let p := s.part part
  leBytes 2 u.status ++ leBytes 1 u.cause ++ leBytes 1 p.slot ++ leBytes 2 p.unveils.toNat ++ leBytes 2 u.extra ++ u.image
    ++ leBytes 4 u.tasks ++ leBytes 4 u.futures ++ leBytes 4 u.versions ++ leBytes 4 u.blocks ++ leBytes 4 u.rows ++ List.replicate 28 0
/-- Launches the unveil handler with its argument; an unveiling without one is over (R285, R454). -/
def State.launchUnveil (s : State) (part args : Nat) : State :=
  let va := (s.part part).reg2 0x855
  if va = 0 then s.endUnveiling part
  else match s.atelierRead part va 64 with
    | .error r => (s.launchFault part va (some r)).endUnveiling part
    | .ok bs => match s.readTask part bs with
      | none => (s.launchFault part va none).endUnveiling part
      | some (r, l) =>
        let k := { r with args := BitVec.ofNat 64 args, parent := 0, branch := 0 }
        let x := s.accept part { record := k, kind := .unveil } l
        x.1.setPart part fun p => { p with unveiling := p.unveiling.map fun (u : Unveiling) => { u with step := 7, handler := some x.2 } }
/-- Whether a step may take place: 5 at once without a mapped slot or a record, else in the cycle in which the slot passes station 0; the
record of step 6 once the reference period that started the unveiling has passed, for a further source in it still changes CAUSE
(DEDUCED, log entry 146); its handler once there is room. -/
def State.captureDue (s : State) (part : Nat) : Bool :=
  match (s.part part).unveiling with
  | some u =>
    (u.step == 5 && (match (s.part part).captureSlot with
      | some j => s.passing 0 == j || (s.part part).reg2 0x853 == 0
      | none => true)) || (u.step == 6 && (if u.written then s.taskRoom else s.refs != u.period))
  | none => false
/-- The unveiling of a partition changed. -/
def State.setUnveiling (s : State) (part : Nat) (f : Unveiling → Unveiling) : State :=
  s.setPart part fun p => { p with unveiling := p.unveiling.map f }
/-- Step 5: the designated slot's payload and header are captured. -/
def State.captureSlotNow (s : State) (part : Nat) : State :=
  let p := s.part part
  let x := p.captureSlot
  let base := p.reg2 0x853
  let payload := match x with
    | some j => ((s.slot j).bytes.zip (List.range 64)).map fun b =>
        if s.struck 7 0 (j * 8 + b.2 / 8) then Config.struckByte (s.free * 64 + b.2) else b.1
    | none => List.replicate 64 0
  let header := match x with
    | some j => (s.slot j).header.toNat
    | none => 0
  let s1 := match base, x with
    | 0, _ | _, none => s
    | _, some j => (List.range 8).foldl (fun (s : State) k => if s.struck 7 0 (j * 8 + k) then s.unattributed part 7 0 0x7F 0 else s) s
  s1.setUnveiling part fun u => { u with
    step := 6, base := base, image := payload ++ leBytes 8 header, status := if !p.designated then 1 else if x.isNone then 2 else 0 }
/-- Step 6: the record is written, or an access of the Atelier faults, and the vector is raised. -/
def State.writeResult (s : State) (part : Nat) (u : Unveiling) : State :=
  let s :=
    if u.base = 0 then s
    else match s.atelierWrite part u.base (s.resultRecord part u) with
      | .ok s => s
      | .error r => (s.atelierFault part r true).setUnveiling part fun u => { u with failed := true }
  (s.setUnveiling part fun u => { u with written := true }).msi (part + 1) 0
/-- UNVEIL_CAPTURE: steps 5 and 6. -/
def State.capture (s : State) (part : Nat) : State :=
  match (s.part part).unveiling with
  | none => s
  | some u =>
    if !s.captureDue part then s
    else if u.step = 5 then s.captureSlotNow part
    else
      let s := if u.written then s else s.writeResult part u
      let failed := (((s.part part).unveiling).map (·.failed)).getD false
      if s.taskRoom || (s.part part).reg2 0x855 == 0 then s.launchUnveil part (if failed then 0 else u.base) else s
/-- UNVEIL_CAPTURE. -/
def execUnveilCapture (p : Nat) (s : State) : Out := .next (s.capture p)

end Sys2Proof.Machine
end

