-- ==== Sys2Proof/Machine/Turntable.lean ====
section
/-! DEFINITION. Opcodes 0xF2 to 0xF8 and the Turntable (R220 to R226). -/

namespace Sys2Proof.Machine

/-- The state with a physical slot changed. -/
def State.setSlot (s : State) (j : Nat) (f : Slot → Slot) : State := { s with slots := put j (f (s.slot j)) s.slots }
/-- Operations queued at a station. -/
def State.station (s : State) (k : Nat) : List TTOp := lookD s.stations k []
/-- The state with a station's queue replaced. -/
def State.setStation (s : State) (k : Nat) (q : List TTOp) : State := { s with stations := if q = [] then drop k s.stations else put k q s.stations }

/-! ### Performing an operation (R220, R222 to R225) -/

/-- The physical slot an operation is performed on: the mapped one, or the free one that TTBOARD claims as it passes. -/
def State.ttSlot (s : State) (st : Nat) (o : TTOp) : Option Nat :=
  match o.kind with
  | .board _ =>
    let j := s.passing st
    if (s.slot j).owner = 0xF && decide (o.queuedAt < s.now) then some j else none
  | _ => look o.vslot (s.part o.part).vslots
/-- The lowest virtual number that a partition has not mapped. -/
def Partition.freeVslot (p : Partition) : Option Nat :=
  if p.ttQuota ≤ p.vslots.length then none else (List.range 64).find? fun n => (look n p.vslots).isNone
/-- Whether the head operation of a station is performed in this cycle: its slot passes the station, or there is none to wait for. -/
def State.ttDue (s : State) (st : Nat) : Bool :=
  match s.station st with
  | [] => false
  | o :: _ =>
    match o.kind with
    | .board _ => ((s.part o.part).freeVslot).isNone || (s.ttSlot st o).isSome || decide (o.queuedAt + 192 ≤ s.now)
    | _ => match s.ttSlot st o with
      | none => true
      | some j => s.passing st == j && decide (o.queuedAt < s.now)
/-- Whether an operation reads an uncorrectable word of a slot (R343, kind 7). -/
def State.ttStruck (s : State) (j : Nat) (k : TTKind) : Bool :=
  match k with
  | .board _ | .alight | .read true => false
  | .read false => (List.range 8).any fun w => s.struck 7 0 (j * 8 + w)
  | .cas w _ _ | .add w _ _ => s.struck 7 0 (j * 8 + w)
  | .max _ => s.struck 7 0 (j * 8)
/-- The state without errors of a slot's payload. -/
def State.ttSound (s : State) (j : Nat) : State := { s with errors := s.errors.filter fun e => !(e.kind == 7 && e.addr / 8 == j) }
/-- A payload word. -/
def Slot.word (x : Slot) (w : Nat) : DWord := x.payload[w]?.getD 0
/-- The slot with a payload word written by a station. -/
def Slot.setWord (x : Slot) (w : Nat) (v : DWord) (st : Nat) : Slot :=
  if h : w < 8 then { x with payload := x.payload.set w v, lastw := st } else x
/-- The key order of TTMAX: whether `a` is strictly above `b` (R225). -/
def keyAbove (kind : Nat) (a b : DWord) : Bool :=
  if kind = 0 then decide (b.toInt < a.toInt)
  else
    let x := f32 (bits a 0 32)
    let y := f32 (bits b 0 32)
    !x.isNan && !y.isNan && (decide (0 < Fp.order x y) || (Fp.order x y == 0 && y.neg && !x.neg))
/-- The words of double words, low word first. -/
def wordsOf64 (ds : List DWord) : List Word := ds.flatMap fun d => [lo32 d, hi32 d]
/-- Notes the station and the cycle of an operation of a group on a virtual slot (R226). -/
def State.ttNote (s : State) (o : TTOp) (vslot st : Nat) : State :=
  s.setGroup o.group fun g => { g with ttLast := put vslot (st, s.now) g.ttLast }
/-- Takes the head off a station's queue; the next operation heads it from this cycle on. -/
def State.ttPop (s : State) (st : Nat) : State :=
  s.setStation st (match s.station st with
    | _ :: o :: os => { o with queuedAt := s.now } :: os
    | _ => [])
/-- Performs the head operation of a station. The answer's code is 0, 1 for a failure in CM bit 0, 3 for an unmapped slot, 7 for an
uncorrectable word. -/
def State.ttPerform (s : State) (st : Nat) : State :=
  match s.station st with
  | [] => s
  | o :: _ =>
    if !s.ttDue st then s
    else
      let s1 := s.ttPop st
      let answer := fun (s : State) (code : Nat) (data : List Word) => s.grant o.group o.path code data
      match o.kind, s.ttSlot st o with
      | .board kind, some j =>
        match (s.part o.part).freeVslot with
        | none => answer s1 1 [0xFFFFFFFF]
        | some n =>
          let s2 := (s1.ttSound j).setSlot j fun _ => { owner := o.part, kind := kind, rev := 0, lastw := st }
          -- at station 0 the slot has reached it before the claim: its REV stays 0 in this cycle (R226)
          let s2 := if st = 0 then { s2 with revAt := s.now + 1 } else s2
          answer ((s2.setPart o.part fun p => { p with vslots := put n j p.vslots }).ttNote o n st) 0 [BitVec.ofNat 32 n]
      | .board _, none => answer s1 1 [0xFFFFFFFF]
      | _, none => answer s1 3 []
      | k, some j =>
        if s.ttStruck j k then answer s1 7 []
        else
          let x := s.slot j
          let s2 := s1.ttNote o o.vslot st
          match k with
          | .alight =>
            answer (((s2.ttSound j).setSlot j fun x => { x with owner := 0xF, payload := Vector.replicate 8 0 }).setPart o.part fun p =>
              { p with vslots := drop o.vslot p.vslots }) 0 []
          | .read true => answer s2 0 (wordsOf64 [x.header])
          | .read false => answer s2 0 (wordsOf64 x.payload.toList)
          | .cas w cmp new =>
            let ok := x.word w == cmp
            answer (if ok then s2.setSlot j fun x => x.setWord w new st else s2) (if ok then 0 else 1) (wordsOf64 [x.word w])
          | .max block =>
            if keyAbove x.kind (block.headD 0) (x.word 0) then
              answer ((s2.ttSound j).setSlot j fun x => { x with payload := Vector.ofFn fun i : Fin 8 => block.getD i 0, lastw := st }) 0 []
            else answer s2 1 []
          | .add w comp v =>
            let new := if comp then BitVec.ofNat 64 (pairStep (x.word w).toNat (bits v 0 32)) else x.word w + v
            answer (s2.setSlot j fun x => x.setWord w new st) 0 (wordsOf64 [x.word w])
          | .board _ => s2
/-- TURNTABLE_PERFORM (R220). -/
def execTurntablePerform (st : Nat) (s : State) : Out := .next (s.ttPerform st)
/-- REVOLUTION: a slot that reaches station 0 in this cycle counts a revolution (R221, R226). -/
def execRevolution (slot : Nat) (s : State) : Out :=
  .next (if slot < 192 && s.passing 0 == slot && decide (s.revAt ≤ s.now) then
    let s := { s with revAt := s.now + 1 }
    s.setSlot slot fun x => { x with rev := x.rev + 1 }
  else s)

/-! ### The instructions (R220 to R226) -/

/-- A Turntable instruction on an answer, or its way into the station's queue of 8: `ok` and `uses` are its own checks, `kind` the
operation for a virtual slot, `done` its completion. -/
def State.ttOp (s : State) (ok : Bool) (uses : List Use) (vslot : Option Word) (acq rel : Bool) (kind : State → TTKind)
    (done : State → Nat → List Word → State) : Out :=
  .next (match s.answer with
    | some (3, _) => s.raise { code := 0x0C, detail := 3, mask := s.exm }
    | some (7, _) => s.raise { code := 0x0D, detail := 7, mask := s.exm }
    | some (c, ws) => (done (if acq then s.acquire 3 else s) c ws).retire {}
    | none =>
      s.checked (ok && (vslot.map fun v => decide (v.toNat < 64)).getD true) true uses fun s =>
        let n := (vslot.map (·.toNat)).getD 0
        if vslot.isSome && (look n s.myPart.vslots).isNone then s.raise { code := 0x0C, detail := 3, mask := s.exm }
        else if 8 ≤ (s.station (stationOf s.me.tile)).length then s.block .stationRoom
        else
          let s := if rel then s.release 3 else s
          let o : TTOp := { group := s.me.seq, path := s.me.cur, part := s.me.part, vslot := n, kind := kind s, queuedAt := s.now }
          (s.setStation (stationOf s.me.tile) (s.station (stationOf s.me.tile) ++ [o])).block .station)
/-- A block of 16 scalar registers as eight double words. -/
def State.rblock (s : State) (b : Nat) : List DWord := (List.range 8).map fun k => s.rpair (b + 2 * k)
/-- Uses of a block of registers. -/
def blockUse (b : BitVec 6) (n : Nat) : List Use := (List.range n).map fun k => .s (b.toNat + k)
/-- TTBOARD (R222). -/
def execTtboard (d : BitVec 6) (i : BitVec 11) (s : State) : Out :=
  s.ttOp (small i 2) [] none false false (fun _ => .board i.toNat) fun s c ws => (s.putWords d.toNat ws).putCMBit 0 (c != 0) clsNONE
/-- TTALIGHT (R222). -/
def execTtalight (a : BitVec 6) (s : State) : Out :=
  s.ttOp true [.s a.toNat] (some (s.rs a.toNat)) false false (fun _ => .alight) fun s _ _ => s
/-- TTREAD (R223). -/
def execTtread (d a : BitVec 6) (h q : Bool) (s : State) : Out :=
  s.ttOp (block d) [.s a.toNat] (some (s.rs a.toNat)) q false (fun _ => .read h) fun s _ ws => s.putWords d.toNat ws
/-- TTCAS (R224). -/
def execTtcas (d a b : BitVec 6) (r q : Bool) (w : BitVec 3) (s : State) : Out :=
  s.ttOp (even d && even b) (.s a.toNat :: blockUse d 2 ++ blockUse b 2) (some (s.rs a.toNat)) q r
    (fun s => .cas w.toNat (s.rpair d.toNat) (s.rpair b.toNat)) fun s c ws => (s.putWords d.toNat ws).putCMBit 0 (c != 0) clsNONE
/-- TTMAX (R225). -/
def execTtmax (a b : BitVec 6) (r q : Bool) (s : State) : Out :=
  s.ttOp (block b) (.s a.toNat :: blockUse b 16) (some (s.rs a.toNat)) q r (fun s => .max (s.rblock b.toNat)) fun s c _ => s.putCMBit 0 (c != 0) clsNONE
/-- TTADD (R224). -/
def execTtadd (d a b : BitVec 6) (c r q : Bool) (w : BitVec 3) (s : State) : Out :=
  s.ttOp (even d && (c || even b)) (.s a.toNat :: blockUse b (if c then 1 else 2)) (some (s.rs a.toNat)) q r
    (fun s => .add w.toNat c (if c then (s.rs b.toNat).setWidth 64 else s.rpair b.toNat)) fun s _ ws => s.putWords d.toNat ws
/-- TTWAIT (R226). -/
def execTtwait (a : BitVec 6) (s : State) : Out :=
  let v := s.rs a.toNat
  .next (s.checked (decide (v.toNat < 64)) true [.s a.toNat] fun s =>
    if (look v.toNat s.myPart.vslots).isNone then s.raise { code := 0x0C, detail := 3, mask := s.exm }
    else match look v.toNat s.me.ttLast with
      | some (_, c) => if s.now < c + 192 then s.block (.ringPass (c + 192)) else s.retire {}
      | none => s.retire {})

end Sys2Proof.Machine
end

