-- ==== Sys2Proof/Machine/Observe.lean ====
section
/-! DEFINITION. Opcode 0xFF, the stall-reason sampler, the trace core and its filters, Caliper trials, and holding paths (R231, R404 to
R421). -/

namespace Sys2Proof.Machine

/-! ### Registers of a core, saturating counters -/

/-- A register of a core, by number and reset value. -/
def State.coreReg (s : State) (tile n : Nat) (reset : Word) : Word := lookD s.coreRegs (4096 * tile + n) reset
/-- The state with a register of a core set. -/
def State.setCoreReg (s : State) (tile n : Nat) (v : Word) : State := { s with coreRegs := put (4096 * tile + n) v s.coreRegs }
/-- A word whose `n`-bit field at bit `k` counts one more, saturating. -/
def bump (x : Word) (k n : Nat) : Word := setBits x k n (min (bits x k n + 1) (2 ^ n - 1))
/-- TRDROP counts a record dropped at input, or for lack of room (R412, R413). -/
def Partition.traceDrop (p : Partition) (input : Bool) : Partition := p.setReg 0x908 (bump (p.reg 0x908 0) (if input then 16 else 0) 16)
/-- Whether a partition's trace core is enabled (R412, R430). -/
def Partition.traceOn (p : Partition) : Bool := bit (p.reg 0x902 0) 0
/-- A marker or sample record is offered: it takes the next SEQ, or is dropped where 64 records wait (R412). -/
def Partition.offerRecord (p : Partition) (r : TraceRec) : Partition :=
  if p.traceIn.length < 64 then { p with traceSeq := p.traceSeq + 1, traceIn := p.traceIn ++ [r] } else p.traceDrop true

/-! ### The sampler (R404 to R409) -/

/-- A sampler register as it acts in this cycle: a write takes effect from the next one. -/
def State.smpReg (s : State) (tile n : Nat) (reset : Word) : Word :=
  let m := lookD s.samplers tile {}
  match if m.oldAt = some s.now then look n m.old else none with
  | some v => v
  | none => s.coreReg tile n reset
/-- SMPCTL.EN as it acts in this cycle. -/
def State.smpOn (s : State) (tile : Nat) : Bool := bit (s.smpReg tile 0x8E0 0) 0
/-- The state with a core's sampler changed. -/
def State.setSampler (s : State) (tile : Nat) (f : Sampler → Sampler) : State := { s with samplers := put tile (f (lookD s.samplers tile {})) s.samplers }
/-- A sampler register is written: this cycle goes on with the old value. -/
def State.writeSmp (s : State) (tile n : Nat) (reset v : Word) : State :=
  let old := s.coreReg tile n reset
  (s.setSampler tile fun m =>
    let kept := if m.oldAt = some s.now then m.old else []
    { m with oldAt := some s.now, old := if (look n kept).isSome then kept else put n old kept }).setCoreReg tile n v
/-- EN is cleared at once: by the stop mark and by a gate. -/
def State.smpStop (s : State) (tile : Nat) : State :=
  ((s.setSampler tile fun m => { m with started := false, oldAt := none, old := [] })).setCoreReg tile 0x8E0 (setBits (s.coreReg tile 0x8E0 0) 0 1 0)
/-- SMPCTL is written by a partition's code or the host (8): refused where R408 says so. -/
def State.smpControl (s : State) (who tile : Nat) (v : Word) : Option State :=
  let on := bit v 0
  let base := (s.coreReg tile 0x8E2 0).toNat + 2 ^ 32 * (s.coreReg tile 0x8E3 0).toNat
  if bits v 26 6 ≠ 0 || (on && (bits v 2 4 == 0 || base == 0)) then none
  else
    let was := bit (s.coreReg tile 0x8E0 0) 0
    let s := s.writeSmp tile 0x8E0 0 v
    some (s.setSampler tile fun m =>
      if on && !was then { m with started := !(bit v 1), last := s.now + 1, quad := 0, byHost := who == 8, byPart := who } else m)
/-- A refused host write is counted in HOSTERR (R436). -/
def State.hostRefused (s : State) (who : Nat) : State := if who = 8 then { s with hostErr := satAdd s.hostErr 1 } else s
/-- SAMPLER_ENABLE: a write of SMPCTL (R404, R408). -/
def execSamplerEnable (who tile : Nat) (v : Word) (s : State) : Out := .next (if tile < 96 then (s.smpControl who tile v).getD (s.hostRefused who) else s)

/-- The stall reason of a BLOCK instruction that waits (R189, R405). -/
def Wait.reason (w : Wait) : Nat :=
  match w with
  | .barrier _ _ => 5
  | .future _ | .tasks _ => 6
  | .batches _ | .batchRoom | .quota => 3
  | .mouldTile _ => 8
  | .fifoSpace | .fifoEntry | .mailbox _ _ | .postTable => 0xA
  | .gangRelease | .gangLatchFree => 9
  | .engineRoom | .matrixDone _ => 2
  | .station | .stationRoom | .ringPass _ => 0xB
  | .fullEmpty _ => 7
  | .granted _ _ => 1
/-- Whether an entry counts as ready for the sampler: nothing but the group's own cycles and rows keeps it from issuing. -/
def State.pathReady (s : State) (g : Group) (n : Nat) : Bool :=
  match g.path? n with
  | none => false
  | some p => p.state == .ready && p.parked.isNone && !p.causeWaits && p.holdAsked.isNone
      && (match p.wait with
        | none | some .quota => true
        | some w => s.waitOver { g with cur := n } w)
      && g.yieldOver p && !g.barred n
/-- What the sampler records of a group: reason, path, its address and execution mask, and whether it is parked (R405, R406). -/
structure Stall where
  reason : Nat
  path : Nat
  pc : DWord
  mask : LaneMask
  parked : Bool := false
  deriving DecidableEq, Repr
/-- Whether an entry waits in a BLOCK instruction whose unit has not answered. -/
def Path.blocked (p : Path) : Bool :=
  match p.wait with
  | none | some (.granted _ _) => false
  | _ => true
/-- What the sampler records of a group in this cycle: the first row of R405 that applies. -/
def State.stallReason (s : State) (g : Group) : Stall :=
  let of := fun (n r : Nat) => ({ reason := r, path := n, pc := (g.path n).pc, mask := (g.path n).exm } : Stall)
  let inTable := (List.range 8).filter fun n => (g.path? n).isSome
  let busy := decide (g.busyFrom ≤ s.now) && decide (s.now ≤ g.busyTo) && decide (s.now < g.clk)
  let next := ((List.range 8).map fun k => (g.last + 1 + k) % 8).find? (s.pathReady g)
  if busy then { reason := 0, path := g.busyPath % 8, pc := g.busyPc, mask := g.busyExm }
  else match next with
    | none =>
      match inTable.find? fun n => (g.path n).blocked with
      | some n => of n (((g.path n).wait.map Wait.reason).getD 1)
      | none =>
        match inTable.find? fun n => (g.path n).state == .held || (g.path n).parked.isSome || (g.path n).causeWaits with
        | some n => { of n 0xE with parked := (g.path n).parked.isSome || (g.path n).causeWaits }
        | none => of (if s.now < g.fetchUntil then g.refilled else inTable.headD 0) 0xC
    | some n =>
      let p := g.path n
      of n (if s.now < p.notBefore || s.now < g.fetchUntil then 0xC
        else if s.now < g.clk + (if p.wait.isSome then 0 else s.trialDelay g p.pc) then 0xD
        else if p.wait = some .quota || g.restarting.isSome then 3
        else if s.now < p.retryAt then (p.wait.map Wait.reason).getD 1
        else if !s.rowsNow g then 4
        else 1)
/-- Whether a sample is due in this cycle (R404). -/
def State.sampleDue (s : State) (tile : Nat) : Bool :=
  let m := lookD s.samplers tile {}
  s.smpOn tile && m.started && decide (m.last < s.now) && decide (m.last + bits (s.smpReg tile 0x8E1 0x400) 0 24 ≤ s.now)
/-- Bytes 8 to 27 and the flags of a sample record, zero for sealed content (R406, R409). -/
def State.sampleBody (s : State) (m : Sampler) (g : Group) (r : Stall) : List Byte × Nat :=
  let off := (s.part g.part).isSealed && (m.byHost || m.byPart != g.part)
  (if off then List.replicate 20 0 else leBytes 8 r.pc.toNat ++ leBytes 8 r.mask.toNat ++ leBytes 4 g.task,
    (if r.parked then 2 else 0) + if off then 1 else 0)
/-- Byte 5 of a record: quad, pipe and path. -/
def Group.place (g : Group) (path : Nat) : Byte := BitVec.ofNat 8 (g.pipe / 8 * 64 + g.pipe % 8 * 8 + path % 8)
/-- The sampler's own update of one of its registers: a write of this cycle, which takes effect from the next, stands (R404). -/
def State.smpStore (s : State) (tile n : Nat) (v : Word) : State :=
  let m := lookD s.samplers tile {}
  if m.oldAt = some s.now && (look n m.old).isSome then s else s.setCoreReg tile n v
/-- A sample goes to the ring, or is dropped and counted (R407). -/
def State.ringSample (s : State) (tile : Nat) (bs : Nat → List Byte) : State :=
  let seq := s.smpReg tile 0x8E5 0
  let log := bits (s.smpReg tile 0x8E4 4) 0 5
  let base := (s.smpReg tile 0x8E2 0).toNat + 2 ^ 32 * (s.smpReg tile 0x8E3 0).toNat
  let lost := s.smpStore tile 0x8E7 (satAdd (s.smpReg tile 0x8E7 0) 1)
  let s1 :=
    if (seq - s.smpReg tile 0x8E6 0).toNat < 2 ^ log then
      match s.coreOwner tile with
      | none => lost
      | some p => match s.atelierWrite p (base + 32 * (seq.toNat % 2 ^ log)) (bs seq.toNat) with
        | .ok s => s
        | .error _ => lost
    else lost
  s1.smpStore tile 0x8E5 (seq + 1)
/-- SAMPLE: the sampler of a core takes a sample (R404 to R407, R412). -/
def State.takeSample (s : State) (tile : Nat) : State :=
  let m := lookD s.samplers tile {}
  let mask := bits (s.smpReg tile 0x8E0 0) 2 4
  let quad := (((List.range 4).map fun k => (m.quad + k) % 4).find? fun q => mask / 2 ^ q % 2 == 1).getD 0
  let s := s.setSampler tile fun m => { m with last := s.now, quad := (quad + 1) % 4 }
  match ((s.onTile tile).filter fun g => g.pipe / 8 == quad).foldl (fun (b : Option Group) g => match b with
      | none => some g
      | some h => if g.seq < h.seq then some g else b) none with
  | none => s.ringSample tile fun q =>
      leBytes 4 q ++ [BitVec.ofNat 8 tile, BitVec.ofNat 8 (quad * 64), 0, 0xF] ++ List.replicate 24 0
  | some g =>
    let r := s.stallReason g
    let body := s.sampleBody m g r
    let s := s.ringSample tile fun q =>
      leBytes 4 q ++ [BitVec.ofNat 8 tile, g.place r.path, BitVec.ofNat 8 g.index, BitVec.ofNat 8 r.reason] ++ body.1 ++ [BitVec.ofNat 8 body.2, 0, 0, 0]
    s.setPart g.part fun p =>
      if bit (p.reg 0x909 1) 1 then
        let bytes := leBytes 4 p.traceSeq.toNat ++ [BitVec.ofNat 8 tile, g.place r.path, BitVec.ofNat 8 g.index, 3] ++ body.1
          ++ [0, 0, BitVec.ofNat 8 body.2, BitVec.ofNat 8 r.reason]
        p.offerRecord { bytes := bytes, group := g.seq }
      else p
/-- SAMPLE. -/
def execSample (tile : Nat) (s : State) : Out := .next (if s.sampleDue tile then s.takeSample tile else s)

/-! ### MARK (R231, R404, R412, R417) -/

/-- A mark starts or stops the sampler of its core. -/
def State.markSampler (s : State) (id : Nat) : State :=
  let t := s.me.tile
  let c := s.smpReg t 0x8E0 0
  let m := lookD s.samplers t {}
  if !(bit c 0 && bit c 1) then s
  else if !m.started then (if id = bits c 6 10 then s.setSampler t fun m => { m with started := true, last := s.now, quad := 0 } else s)
  else if id = bits c 16 10 && bits c 16 10 != bits c 6 10 then s.smpStop t
  else s
/-- A progress mark counts in every matching entry of a trial, from the cycle after its start (R418). -/
def Partition.markProgress (p : Partition) (now id : Nat) : Partition :=
  match p.trial with
  | none => p
  | some t => if now < t.from_ then p else (t.pts.zip (List.range 8)).foldl (fun (p : Partition) x =>
      if x.1 = some id then p.setReg (0x928 + x.2) (p.reg (0x928 + x.2) 0 + 1) else p) p
/-- MARK. -/
def execMark (g : Bool) (i : BitVec 10) (s : State) : Out :=
  .next (s.checked true true [] fun s =>
    let r := s.traceRecord s.me s.me.cur 1 s.pc i.toNat g false 0
    let s := s.markSampler i.toNat
    let s := s.setPart s.me.part fun p =>
      let p := if p.traceOn && bit (p.reg 0x909 1) 0 then p.offerRecord r else p
      if g then p.markProgress s.now i.toNat else p
    s.retire {})

/-! ### Caliper trials (R417, R418) -/

/-- A trial starts unless one is active: the counts are cleared and the parameters latched. -/
def State.startTrial (s : State) (part : Nat) : State :=
  s.setPart part fun p =>
    if p.trial.isSome then p
    else
      let entry := fun (n : Nat) => let c := p.reg (0x920 + n) 0; if bit c 31 then some (bits c 0 10) else none
      let p := (List.range 8).foldl (fun (p : Partition) n => p.setReg (0x928 + n) 0) p
      let dur := (p.reg 0x91D 0).toNat
      { p.setReg 0x91E 1 with trial := some {
          lo := BitVec.ofNat 64 (p.reg2 0x918), hi := BitVec.ofNat 64 (p.reg2 0x91A), dly := bits (p.reg 0x91C 0) 0 8
          pts := (List.range 8).map entry, ends := if dur = 0 then none else some (s.refs + dur), from_ := s.now + 1 } }
/-- A trial ends: ACTIVE clears and the counts stand. -/
def State.stopTrial (s : State) (part : Nat) : State := s.setPart part fun p => { p.setReg 0x91E 0 with trial := none }
/-- CALIPER_START. -/
def execCaliperStart (p : Nat) (s : State) : Out := .next (if (s.part p).state = .none then s else s.startTrial p)
/-- CALIPER_STOP. -/
def execCaliperStop (p : Nat) (s : State) : Out := .next (s.stopTrial p)
/-- Whether a trial's duration is over. -/
def State.trialOver (s : State) (part : Nat) : Bool :=
  match ((s.part part).trial).bind (·.ends) with
  | some t => decide (t ≤ s.refs)
  | none => false
/-- CALIPER_END: the trial has lasted CALDUR reference periods. -/
def execCaliperEnd (p : Nat) (s : State) : Out := .next (if s.trialOver p then s.stopTrial p else s)

/-! ### Holding paths (R419, R420) -/

/-- DBGCTL.REFUSED is set (R419). -/
def State.debugRefused (s : State) (part : Nat) : State := s.setPart part fun p => p.setReg 0x930 (setBits (p.reg 0x930 0) 2 1 1)
/-- The resident group that a DBGOP word names. -/
def State.locate? (s : State) (v : Word) : Option Group :=
  s.allGroups.find? fun g => g.tile == bits v 24 7 && g.pipe == bits v 22 2 * 8 + bits v 19 3 && g.slot == bits v 16 3
/-- A hold of an entry is asked for. -/
def Group.askHold (g : Group) (n cause : Nat) : Group :=
  g.setPath n fun p => if p.state = .held then p else { p with holdAsked := p.holdAsked.orElse fun _ => some cause }
/-- Entries that are paths: joined entries only own scopes (R242). -/
def Group.livePaths (g : Group) : List Nat := g.entries.filter fun n => (g.path n).state != .joined
/-- A held path goes on; one that stands, or waited, at its join is examined again (R85, R86). -/
def Group.releaseEntry (g : Group) (n : Nat) (step : Bool) : Group :=
  match g.path? n with
  | some p =>
    if p.state != .held then g
    else
      let g := g.setEntry n (some { p with state := p.heldState, heldState := .ready, holdAsked := none, stepping := step })
      (match p.heldState, p.parent with
        | .waiting, some j => Group.merge 72 j g
        | .waiting, none => g
        | _, _ => g.goto n p.pc).refill 72
  | none => g
/-- What a DBGOP action does to the group it names, if the action may be taken. -/
def Group.debugAction (g : Group) (action e : Nat) : Option Group :=
  match action with
  | 0 => some (g.askHold e 1)
  | 1 => if (g.path e).state = .held then some (g.releaseEntry e false) else none
  | 2 => some (g.livePaths.foldl (fun g n => g.askHold n 1) g)
  | 3 => some (g.livePaths.foldl (fun g n => g.releaseEntry n false) g)
  | 4 => if (g.path e).state = .held then some (g.releaseEntry e true) else none
  | _ => none
/-- A write of DBGOP in a partition's view, by its code or by the host (8): an action, or REFUSED (R419, R448). -/
def State.debugOp (s : State) (who part : Nat) (v : Word) : State :=
  let no := s.debugRefused part
  if !(s.part part).debugOn then no
  else match s.locate? v with
    | none => no
    | some g =>
      if (if who = 8 then (s.part g.part).isSealed else g.part != part) then no
      else match g.debugAction (bits v 0 3) (bits v 8 3) with
        | some _ => s.setGroup g.seq fun g => g.atCycle s.now fun g => (g.debugAction (bits v 0 3) (bits v 8 3)).getD g
        | none => no
/-- A write of a register of a partition by its code, or by the host (8): not performed where the register is locked (R437). -/
def State.unlessLocked (s : State) (who part n : Nat) (t : State) : State :=
  if who = 8 && (s.part part).isLocked n then s.toError part else t
/-- One action of DBGOP as a step of its own. -/
def State.debugStep (s : State) (who part : Nat) (v : Word) (action : Nat) : State :=
  if (s.part part).state = .none || bits v 0 3 ≠ action then s else s.unlessLocked who part 0x931 (s.debugOp who part v)
/-- HOLD_PATH. -/
def execHoldPath (who p : Nat) (v : Word) (s : State) : Out := .next (s.debugStep who p v 0)
/-- RELEASE_PATH. -/
def execReleasePath (who p : Nat) (v : Word) (s : State) : Out := .next (s.debugStep who p v 1)
/-- HOLD_GROUP. -/
def execHoldGroup (who p : Nat) (v : Word) (s : State) : Out := .next (s.debugStep who p v 2)
/-- RELEASE_GROUP. -/
def execReleaseGroup (who p : Nat) (v : Word) (s : State) : Out := .next (s.debugStep who p v 3)
/-- DEBUG_STEP. -/
def execDebugStep (who p : Nat) (v : Word) (s : State) : Out := .next (s.debugStep who p v 4)
/-- Whether a hold that is asked for takes effect now: the path stands at an instruction boundary (R82, R419), and no copy of the group is in
flight (R184). -/
def State.holdDue (s : State) (g : Group) (n : Nat) : Bool :=
  match g.path? n with
  | none => false
  | some p => p.holdAsked.isSome && p.state != .joined && p.state != .held && (s.copies.all fun c => c.group != g.seq)
      && !(g.busyPath == n && decide (s.now ≤ g.busyTo) && decide (s.now < g.clk))
/-- HOLD_TAKES_EFFECT: every pending write completes (R31), the waiting instruction is withdrawn, unless its unit has answered, and the halt
record is produced. A BKPT's path goes on behind it when it is released (R96). -/
def State.takeHold (s : State) (seq n : Nat) : State :=
  match s.group? seq with
  | none => s
  | some g =>
    if !s.holdDue g n then s
    else
      let p := g.path n
      let answered := match p.wait with
        | some (.granted _ _) => true
        | _ => false
      let s := if answered then s else s.withdrawIf fun x y => x == seq && y == n
      let bkpt := p.holdAsked == some 0
      let s := s.setGroup seq fun g => g.atCycle s.now fun g =>
        (({ g with pending := [], rowWait := false }).setPath n fun p =>
          { p with state := .held, heldState := p.state, holdAsked := none, wait := if answered then p.wait else none
                   pc := if bkpt then pc56 (p.pc + 4) else p.pc }).refill 72
      s.haltRecord g n (if bkpt then p.holdId else 0) false (p.holdAsked.getD 1)
/-- HOLD_TAKES_EFFECT. -/
def execHoldTakesEffect (g e : Nat) (s : State) : Out := .next (s.takeHold g e)
/-- FREEZE: DBGCTL.FREEZE as written (R421). -/
def execFreeze (p : Nat) (on : Bool) (s : State) : Out :=
  .next (if (s.part p).state = .none then s else s.setPart p fun q => q.setReg 0x930 (setBits (q.reg 0x930 0) 1 1 (if on then 1 else 0)))

/-! ### Trace filters (R412 to R416) -/

/-- The x-th instruction of a filter of `len`, if it keeps every rule of R414. -/
def filterInst (len x : Nat) (bs : List Byte) : Option FilterInst :=
  let b := fun k => (bs.getD k 0).toNat
  let op := b 0 % 16
  let d := b 1 / 16 % 8
  let a := b 1 % 8
  let i := b 2 / 128 == 1
  let r := b 2 % 8
  let j := b 3
  let imm := BitVec.ofNat 32 (natAt bs 4 4)
  let plain := b 0 / 16 == 0 && b 1 / 128 == 0 && b 1 / 8 % 2 == 0 && b 2 / 8 % 16 == 0 && decide (j < 64)
  let noImm := i || imm == 0
  let size := 2 ^ (r % 4)
  let ok :=
    if op = 0 then a == 0 && !i && j == 0 && decide (r ≤ 3) && imm.toNat % size == 0 && decide (imm.toNat + size ≤ 32)
    else if op = 1 then a == 0 && !i && r == 0 && j == 0
    else if op < 8 then j == 0 && noImm
    else if op < 12 then d == 0 && decide (1 ≤ j) && decide (x + j ≤ len) && noImm
    else if op = 12 then d == 0 && a == 0 && !i && r == 0 && j == 0 && decide (imm.toNat < 8)
    else if op = 13 then d == 0 && a == 0 && !i && r == 0 && j == 0 && decide (imm.toNat < 4)
    else d == 0 && a == 0 && !i && r == 0 && j == 0 && imm == 0
  if plain && ok then some { op := op, d := d, a := a, useImm := i, b := r, j := j, imm := imm } else none
/-- A filter of `len` instructions from its bytes. -/
def parseFilter (len : Nat) (bs : List Byte) : Option (List FilterInst) :=
  (List.range len).foldr (fun x (r : Option (List FilterInst)) => match r, filterInst len x (bs.drop (8 * x)) with
    | some l, some i => some (i :: l)
    | _, _ => none) (some [])
/-- A write of TFCTL (R415): it loads and checks the filter, or turns the trace core off. -/
def State.loadFilter (s : State) (who part : Nat) (v : Word) : Option State :=
  if bit v 31 || bit v 1 || bits v 15 16 ≠ 0 || bits v 2 6 ≠ 0 then none
  else
    let host := decide (who = 8)
    let len := bits v 8 7 + 1
    let off := fun (bad : Bool) => s.setPart part fun p =>
      { p.setReg 0x902 (BitVec.ofNat 32 ((if bad then 2 ^ 31 else 0) + bits v 8 7 * 2 ^ 8)) with filter := [], filterHost := host }
    if !(bit v 0) then some (off false)
    else if 64 < len then some (off true)
    else match s.atelierRead part ((s.part part).reg2 0x900) (8 * len) with
      | .error _ => some (off true)
      | .ok bs => match parseFilter len bs with
        | none => some (off true)
        | some f => some (s.setPart part fun p =>
            { p.setReg 0x902 (BitVec.ofNat 32 (bits v 8 7 * 2 ^ 8 + (if host then 2 else 0) + 1)) with
              filter := f, filterHost := host, fregs := Vector.replicate 8 0 })
/-- FILTER_LOAD. -/
def execFilterLoad (who p : Nat) (v : Word) (s : State) : Out :=
  .next (if (s.part p).state = .none then s else s.unlessLocked who p 0x902 ((s.loadFilter who p v).getD (s.hostRefused who)))
/-- The trace ring has room (R413). -/
def Partition.traceRoom (p : Partition) : Bool := decide ((p.reg 0x906 0 - p.reg 0x907 0).toNat < 2 ^ bits (p.reg 0x905 4) 0 5)
/-- A marker or sample record is written at the head of the trace ring; one whose write faults is not written, and is counted as dropped. -/
def State.traceWrite (s : State) (part : Nat) (r : TraceRec) : State :=
  let p := s.part part
  let q := p.reg 0x906 0
  match s.atelierWrite part (p.reg2 0x903 + 32 * (q.toNat % 2 ^ bits (p.reg 0x905 4) 0 5)) r.bytes with
  | .ok s => s.setPart part fun p => p.setReg 0x906 (q + 1)
  | .error e => (s.atelierFault part e true).setPart part fun p => p.traceDrop false
/-- A trigger of a filter acts (R415). -/
def State.trigger (s : State) (part n : Nat) (r : TraceRec) : State :=
  match n with
  | 0 => s.msi (part + 1) 3
  | 1 => if (s.part part).debugOn then s.setGroup r.group fun g => g.livePaths.foldl (fun g n => g.askHold n 2) g else s
  | 2 => s.startTrial part
  | _ => s.stopTrial part
/-- Runs the filter over a record from instruction x on (R413, R414): the fuel is its length, since jumps only go forward. -/
def State.runFilter (part : Nat) (r : TraceRec) : Nat → Nat → State → Bool × State
  | 0, _, s => (false, s)
  | fuel + 1, x, s =>
    match (s.part part).filter[x]? with
    | none => (false, s)
    | some i =>
      let f := (s.part part).fregs
      let reg := fun (n : Nat) => (f[n]?).getD 0
      let simm := sext 32 i.imm.toNat
      let y := if i.useImm then simm else reg i.b
      let set := fun (v : DWord) => s.setPart part fun p =>
        { p with fregs := if h : i.d < 8 then p.fregs.set i.d v else p.fregs }
      let go := fun (s : State) => State.runFilter part r fuel (x + 1) s
      let jump := fun (c : Bool) => State.runFilter part r fuel (if c then x + i.j else x + 1) s
      match i.op with
      | 0 => go (set (BitVec.ofNat 64 (natAt r.bytes i.imm.toNat (2 ^ (i.b % 4)))))
      | 1 => go (set simm)
      | 2 => go (set (reg i.a + y))
      | 3 => go (set (reg i.a - y))
      | 4 => go (set (reg i.a &&& y))
      | 5 => go (set (reg i.a ||| y))
      | 6 => go (set (reg i.a <<< (y.toNat % 64)))
      | 7 => go (set (reg i.a >>> (y.toNat % 64)))
      | 8 => jump (reg i.a == y)
      | 9 => jump (reg i.a != y)
      | 10 => jump (decide ((reg i.a).toNat < y.toNat))
      | 11 => jump (decide (y.toNat ≤ (reg i.a).toNat))
      | 12 => go (s.setPart part fun p => p.setReg (0x910 + i.imm.toNat % 8) (satAdd (p.reg (0x910 + i.imm.toNat % 8) 0) 1))
      | 13 => go (s.trigger part (i.imm.toNat % 4) r)
      | 14 => (true, s)
      | _ => (false, s)
/-- Whether the filter of a partition has a record to run on: no halt record waits (R412). -/
def Partition.filterDue (p : Partition) : Bool := p.traceOn && p.halts == [] && p.traceIn != []
/-- TRACE_FILTER: the filter runs on the oldest record. -/
def State.traceFilter (s : State) (part : Nat) : State :=
  let p := s.part part
  match p.traceIn with
  | [] => s
  | r :: rs =>
    if !p.filterDue then s
    else
      let x := State.runFilter part r p.filter.length 0 (s.setPart part fun p => { p with traceIn := rs })
      if !x.1 then x.2
      else if p.reg2 0x903 = 0 || !p.traceRoom then x.2.setPart part fun p => p.traceDrop false
      else x.2.traceWrite part r
/-- TRACE_FILTER. -/
def execTraceFilter (p : Nat) (s : State) : Out := .next (s.traceFilter p)
/-- The oldest halt record leaves the trace core: to the ring, where it can be written; without a ring it is counted (R332, R412). -/
def State.haltWritten (s : State) (part : Nat) : Option State :=
  let p := s.part part
  match p.halts with
  | [] => none
  | r :: rs =>
    let s := s.setPart part fun p => { p with halts := rs }
    let q := p.reg 0x906 0
    if p.reg2 0x903 = 0 then some (s.setPart part fun p => p.traceDrop false)
    else if !p.traceRoom then none
    else match s.atelierWrite part (p.reg2 0x903 + 32 * (q.toNat % 2 ^ bits (p.reg 0x905 4) 0 5)) r.bytes with
      | .ok s => some (s.setPart part fun p => p.setReg 0x906 (q + 1))
      | .error _ => none
/-- HALT_RECORD_WRITE: the oldest halt record goes to the ring; it waits where there is no room, or no translation, for it (log entry 100). -/
def execHaltRecordWrite (p : Nat) (s : State) : Out := .next ((s.haltWritten p).getD s)

end Sys2Proof.Machine
end

