-- ==== Sys2Proof/Machine/Faults.lean ====
section
/-! DEFINITION. The fault queue and the system handler (R326 to R330, R454), TLB invalidation (R338), the causes of a word that cannot be
issued (R38, R39), and soft errors (R342, R423). -/

namespace Sys2Proof.Machine

/-! ### Records (R326 to R328) -/

/-- The bytes of record number q (R327). -/
def FaultCause.bytes (c : FaultCause) (q : Nat) (parked : Bool) : List Byte :=
  let b := fun (x : Bool) (k : Nat) => if x then 2 ^ k else 0
  leBytes 4 c.cause.toNat ++ leBytes 4 c.task ++ leBytes 8 c.vaddr.toNat ++ leBytes 8 c.pc.toNat ++ leBytes 4 c.inst.toNat
    ++ [BitVec.ofNat 8 c.tile, BitVec.ofNat 8 (c.group % 32), BitVec.ofNat 8 (b parked 7 + c.path % 8), BitVec.ofNat 8 c.lane]
    ++ leBytes 8 c.mask.toNat ++ leBytes 4 q
    ++ leBytes 4 (b c.sysh 6 + b c.restart 5 + b c.unattr 4 + b c.copy.isSome 3 + b c.fetch 2 + b c.write 1 + b c.replay 0)
    ++ leBytes 8 c.paddr.toNat ++ List.replicate 8 0
/-- Every group, resident or saved. -/
def State.everyGroup (s : State) : List Group := s.allGroups ++ s.saved.flatMap (·.groups)
/-- The path a cause stops, if it still stands there. -/
def State.stopped? (s : State) (c : FaultCause) : Option (Group × Nat) :=
  c.owner.bind fun o => (s.everyGroup.find? fun g => g.seq == o.1 && (g.path? o.2).isSome).map fun g => (g, o.2)
/-- Whether a task is live: neither ended nor on its way out (R329). -/
def Partition.liveTask (p : Partition) (id : Nat) : Bool := p.tasks.any fun k => k.id == id && k.status != .ended && !k.dying
/-- The partition's live handler task, if it has one (R326). -/
def Partition.handlerLive (p : Partition) : Bool := p.tasks.any fun k => k.kind == .system && k.status != .ended && !k.dying
/-- Whether a partition is sealed and names no system handler (R326). -/
def Partition.killsAlone (p : Partition) : Bool := p.isSealed && p.reg2 0x877 == 0
/-- The oldest cause that waits, written whole, if it can be written now: a queue, room in it, and a translation for the record. -/
def State.recordOf (s : State) (part : Nat) : Option (FaultCause × State) :=
  let p := s.part part
  match p.faults with
  | [] => none
  | c :: _ =>
    if p.fqRoom = 0 then none
    else
      let q := p.reg 0x873 0
      let parked := (s.stopped? c).isSome && !p.killsAlone
      let c := { c with replay := c.replay && !c.unattr && !p.killsAlone && (parked || c.copy.isSome) }
      match s.atelierWrite part (p.reg2 0x870 + 64 * (q.toNat % p.fqSize)) (c.bytes q.toNat parked) with
      | .ok s => some (c, s)
      | .error _ => none
/-- Whether the handler of the next record could be launched, were one needed. -/
def State.faultDue (s : State) (part : Nat) : Bool :=
  (s.recordOf part).isSome && ((s.part part).handlerLive || (s.part part).reg2 0x877 == 0 || s.taskRoom)
/-- No handler takes a record: the fault vector is raised, and in a sealed partition the task is killed (R326, R454). -/
def State.noHandler (s : State) (part : Nat) (c : FaultCause) : State :=
  let s := if (s.part part).isSealed && c.task != 0 then s.killTask part c.task else s
  s.msi (part + 1) 1
/-- Launches the system handler for the oldest unconsumed record (R326, R454). -/
def State.launchHandler (s : State) (part : Nat) (c : FaultCause) : State :=
  let p := s.part part
  let va := p.reg2 0x877
  let args := p.reg2 0x870 + 64 * ((p.reg 0x874 0).toNat % p.fqSize)
  if va = 0 then s.noHandler part c
  else match s.atelierRead part va 64 with
    | .error _ => s.noHandler part c
    | .ok bs => match s.readTask part bs with
      | none => s.noHandler part c
      | some (r, l) =>
        (s.accept part { record := { r with args := BitVec.ofNat 64 args, parent := 0, branch := 0 }, kind := .system, priv := true } l).1
/-- FAULT_QUEUE_RECORD: the oldest cause is written, FQHEAD advances, its path is parked, and a handler is launched if none is live
(R326 to R330). -/
def State.writeRecord (s : State) (part : Nat) : State :=
  if !s.faultDue part then s
  else match s.recordOf part with
    | none => s
    | some (c, s1) =>
      let q := ((s.part part).reg 0x873 0).toNat
      let alone := (s.part part).killsAlone
      let s2 := s1.setPart part fun p =>
        { p.setReg 0x873 (BitVec.ofNat 32 (q + 1)) with faults := p.faults.drop 1, records := p.records ++ [{ seq := q, cause := c, acted := alone }] }
      let s3 := match s.stopped? c with
        | some (g, n) => s2.mapGroups (·.seq == g.seq) fun g =>
            g.setPath n fun p => { p with causeWaits := false, parked := if alone then none else some q }
        | none => s2
      if c.sysh then s3.msi (part + 1) 1
      else if alone then s3.noHandler part c
      else if (s3.part part).handlerLive then s3
      else s3.launchHandler part c
/-- FAULT_QUEUE_RECORD. -/
def execFaultQueueRecord (p : Nat) (s : State) : Out := .next (s.writeRecord p)

/-! ### Acting on a record (R329) -/

/-- FQSTAT.REFUSED is set. -/
def State.actRefused (s : State) (part : Nat) : State := s.setPart part fun p => p.setReg 0x876 (setBits (p.reg 0x876 0) 1 1 1)
/-- The record an action names, if it is outstanding: not acted on, and its task, if it names one, lives. -/
def Partition.outstanding (p : Partition) (seq : Nat) : Option FaultRecord :=
  p.records.find? fun r => r.seq % 2 ^ 30 == seq % 2 ^ 30 && !r.acted && (r.cause.task == 0 || p.liveTask r.cause.task)
/-- The record has been acted on. -/
def State.acted (s : State) (part : Nat) (r : FaultRecord) : State :=
  s.setPart part fun p => { p with records := p.records.map fun x => if x.seq = r.seq then { x with acted := true } else x }
/-- The parked path goes on: one whose instruction has completed arrives at the next address; a held one stays held (R347). -/
def Group.unpark (g : Group) (n : Nat) (c : FaultCause) : Group :=
  let g := g.setPath n fun p => { p with parked := none }
  (if (g.path n).pc = c.pc then g else g.goto n (g.path n).pc).refill 72
/-- REPLAY. -/
def State.replay (s : State) (part : Nat) (r : FaultRecord) : Option State :=
  if !r.cause.replay then none
  else match r.cause.copy with
    | some id => some ({ s with copies := s.copies.map fun (c : Copy) => if c.id = id then { c with waits := false } else c }.acted part r)
    | none => match s.stopped? r.cause with
      | some (g, n) => some ((s.mapGroups (·.seq == g.seq) fun g => g.atCycle s.now fun g => g.unpark n r.cause).acted part r)
      | none => none
/-- DELIVER: a user trap on the parked path, or a failed copy. -/
def State.deliver (s : State) (part : Nat) (r : FaultRecord) : Option State :=
  let c := r.cause
  let handler := (((s.part part).task? c.task).map (·.record.handler)).getD 0
  let inHandler := (s.everyGroup.any fun g => g.part == part && g.task == c.task && g.index == c.group && g.tile == c.tile && g.handler.isSome)
  if c.unattr || bits c.cause 0 8 == 0x0D || handler == 0 then none
  else match c.copy with
    | some id =>
      if inHandler then none
      else some ({ s with copies := s.copies.map fun (k : Copy) => if k.id = id then { k with waits := false, failed := true } else k }.acted part r)
    | none => match s.stopped? c with
      | none => none
      | some (g, n) =>
        if g.handler.isSome then none
        else some ((s.mapGroups (·.seq == g.seq) fun g => g.atCycle s.now fun g =>
          ((g.setPath n fun p => { p with parked := none }).userTrap n handler c.cause c.mask (g.path n).pc c.inst).refill 72).acted part r)
/-- KILL. -/
def State.killRecord (s : State) (part : Nat) (r : FaultRecord) : Option State :=
  if r.cause.task = 0 then none else some ((s.acted part r).killTask part r.cause.task)
/-- A write of FQACT: REPLAY 0, DELIVER 1, KILL 2 (R329). -/
def State.faultAct (s : State) (part action seq : Nat) : State :=
  match (s.part part).outstanding seq with
  | none => s.actRefused part
  | some r =>
    ((match action with
      | 0 => s.replay part r
      | 1 => s.deliver part r
      | _ => s.killRecord part r)).getD (s.actRefused part)
/-- REPLAY. -/
def execFaultReplay (p seq : Nat) (s : State) : Out := .next (if (s.part p).state = .none then s else s.faultAct p 0 seq)
/-- DELIVER. -/
def execFaultDeliver (p seq : Nat) (s : State) : Out := .next (if (s.part p).state = .none then s else s.faultAct p 1 seq)
/-- KILL. -/
def execFaultKill (p seq : Nat) (s : State) : Out := .next (if (s.part p).state = .none then s else s.faultAct p 2 seq)

/-! ### TLB invalidation (R338) -/

/-- What was translated by a discarded translation is performed first: the partition's buffered stores drain, its jobs' writes land. -/
def State.invalidate (s : State) (part : Nat) (hit : Nat → Bool) : State :=
  let s := ((s.teams.filter (·.part == part)).map (·.id)).foldl State.drainAll (s.landJobs part)
  let clean := fun (x : Nat × List (Nat × Nat × Nat)) => (x.1, x.2.filter fun e => !(e.1 == part && hit e.2.1))
  { s with tlb := s.tlb.map clean, tlb2 := s.tlb2.map clean }
/-- TLB_INVALIDATE_ADDRESS: every translation that contains TLBIVA. -/
def execTlbInvalidateAddress (p : Nat) (s : State) : Out :=
  .next (let va := (s.part p).reg2 0x87B
    s.invalidate p fun t => va / 2 ^ pageLog (t % 4) == t / 2 ^ pageLog (t % 4))
/-- TLB_INVALIDATE_ALL: every translation of the partition. -/
def execTlbInvalidateAll (p : Nat) (s : State) : Out := .next (s.invalidate p fun _ => true)

/-! ### Words that cannot be issued (R38, R39) -/

/-- ILLEGAL_INSTRUCTION: an unassigned opcode (R38). -/
def execIllegalInstruction (word : Word) (s : State) : Out := .next (s.withMe fun g => { g with ir := word }).illinst
/-- ILL_FORMED_WORD: a reserved or ill-formed field of an assigned opcode (R38). -/
def execIllFormedWord (word : Word) (s : State) : Out := .next (s.withMe fun g => { g with ir := word }).illop
/-- The physical address an instruction word is fetched from. -/
def State.fetchFrom (s : State) (va : Nat) : Nat :=
  match s.locate (s.groupAgent s.me) .fetch va with
  | .ok p => p.paddr
  | .error _ => 0
/-- Whether an instruction word is uncorrectable, in the core's fetch and loop buffers or where it is fetched from (R342, R343). -/
def State.badFetch (s : State) (va : Nat) : Bool :=
  !s.errors.isEmpty && (s.struck 1 s.me.tile va || (match s.locate (s.groupAgent s.me) .fetch va with
    | .ok p => s.poisoned p
    | .error _ => false))
/-- Why the word at an address cannot be fetched (R39, R343). -/
def State.fetchCause (s : State) (pc : DWord) : Option Cause :=
  let ag := s.groupAgent s.me
  let c : Cause := { code := 0, mask := s.active, vaddr := pc, fetch := true, at_ := some pc }
  match s.refusal ag .fetch pc.toNat 4 4 with
  | some r => some { c with code := r.cause.1, detail := r.cause.2.1, vaddr := BitVec.ofNat 64 r.cause.2.2 }
  | none =>
    if s.badFetch pc.toNat then some { c with code := 0x0D, detail := 1, vaddr := 0, paddr := BitVec.ofNat 64 (s.fetchFrom pc.toNat) } else none
/-- FETCH_FAULT: the word at the path's PC, or the literal word after LDCW's first, cannot be fetched. -/
def execFetchFault (s : State) : Out :=
  .next (match s.fetchCause s.pc with
    | some c => s.raise c
    | none => match s.fetchCause (pc56 (s.pc + 4)) with
      | some c => s.raise c
      | none => s)

/-! ### Soft errors (R342, R423) -/

/-- A single-bit error in a storage of a tile is counted in CECNT: in the core's storage, or in the tile's L2, bank, station, FIFOs and
mailboxes (R423, R430). -/
def State.countCe (s : State) (tile kind : Nat) : State :=
  s.setCoreReg tile 0x93A (bump (s.coreReg tile 0x93A 0) (if kind = 4 || kind = 5 || kind = 7 || 9 ≤ kind then 16 else 0) 16)
/-- SOFT_ERROR: a single-bit error of an SRAM word is corrected and counted, one of an LPDDR 6 word (kind 4, tile 127) stands until it is
overwritten or patrol finds it; a double-bit error leaves its word uncorrectable. Kinds 0 to 8 are those of R343, 9 is a FIFO entry by its
consumer's tile, 10 a mailbox entry by its slice (R342). -/
def execSoftError (kind tile addr : Nat) (double : Bool) (s : State) : Out :=
  .next (
    let outside := kind == 4 && tile == 127
    let home := if kind = 4 then (if outside && !double then 0x7F else homeOf addr) else if kind = 7 then 0 else tile
    if 10 < kind || (96 ≤ tile && !outside) then s
    else if !double && !outside then s.countCe (if kind = 4 then home else tile) kind
    else if s.errors.any fun e => e.kind == kind && e.tile == home && e.addr == addr && (e.double || !double) then s
    else { s with errors := s.errors ++ [{ kind := kind, tile := home, addr := addr, double := double }] })
/-- An issue uses the entries of the group's path table and the spill entries that refills have read since the last one: an uncorrectable one
is met there (R343, kind 8; log entry 142). -/
def State.tableStruck (s : State) : Bool :=
  !s.errors.isEmpty && ((s.me.entries.filter (· < 8)) ++ s.me.spillsRead).any fun n => s.struck 8 s.me.tile (s.me.tableWord n)

end Sys2Proof.Machine
end

