-- ==== Sys2Proof/Machine/Fifo.lean ====
section
/-! DEFINITION. Opcodes 0xF9 to 0xFD: vertical FIFOs and mailboxes, and the steps of their channels (R227 to R229, R381 to R384, R392,
R393). -/

namespace Sys2Proof.Machine

/-! ### Vertical FIFOs (R227, R228, R382, R383) -/

/-- Whether the partner of the issuing tile is a member of the issuing team's stacked cluster (R227). -/
def State.stackedPartner (s : State) : Bool := s.myTask.record.stack && s.myTask.record.clus && s.myTeam.tiles.contains (partner s.me.tile)
/-- Whether a tile's pair carries the gate mark (R383). -/
def State.pairGated (s : State) (tile : Nat) : Bool := s.gated tile || s.gated (partner tile)
/-- Ends a VPUSH with its status. -/
def State.pushed (s : State) (d : BitVec 6) (st : Nat) : State := (s.putS d.toNat (BitVec.ofNat 32 st) clsNONE).retire { beats := beatsOf s.active }
/-- VPUSH. -/
def execVpush (d a : BitVec 6) (n : Bool) (s : State) : Out :=
  .next (s.checked (vr a) false [.v a.toNat] fun s =>
    if !s.stackedPartner then s.fail { code := 0x0C, detail := 6, mask := s.active }
    else
      let tile := s.me.tile
      if s.pairGated tile then s.pushed d 2
      else if 1 ≤ (s.channel tile).held then
        let entry := (List.range s.me.width.lanes).map fun k => if s.active.getLsbD k then s.me.vlane a.toNat k else 0
        ((s.release 2).setChannel tile fun c => { c with held := c.held - 1, link := c.link ++ [entry], sent := c.sent + 1 }).pushed d 0
      else if n then s.pushed d 1
      else s.block .fifoSpace)
/-- Ends a VPOP without an entry. -/
def State.popFailed (s : State) (b : BitVec 6) (st : Nat) : State := (s.putS b.toNat (BitVec.ofNat 32 st) clsNONE).retire { beats := beatsOf s.active }
/-- The lanes whose words of the oldest entry of a tile's incoming FIFO are uncorrectable (R342); R343 gives these words no kind, and the
model takes 8 (DESIGN CHOICE, log entry 148). -/
def State.fifoStruck (s : State) (tile : Nat) (act : LaneMask) : LaneMask :=
  if s.errors.isEmpty then 0 else maskOf fun k => act.getLsbD k && s.struck 9 tile (k / 2)
/-- VPOP. -/
def execVpop (d b : BitVec 6) (n : Bool) (s : State) : Out :=
  .next (s.checked (vr d) false [] fun s =>
    if !s.stackedPartner then s.fail { code := 0x0C, detail := 6, mask := s.active }
    else
      let tile := s.me.tile
      let c := s.channel (partner tile)
      match c.fifo with
      | e :: es =>
        let struck := s.fifoStruck tile s.active
        if !State.rowsFor [] [d.toNat] s then s.noRows [] [d.toNat]
        else if struck != 0 then s.fail { code := 0x0D, detail := 8, mask := struck }
        else
          let s1 := ((s.setChannel (partner tile) fun c => { c with fifo := es, back := c.back + 1, taken := c.taken + 1 }).moveUp 9 tile 0 32 512).acquire 2
          let s2 := (State.allocRows [d.toNat] s1).writeLanes d.toNat s.active fun k => e.getD k 0
          (s2.putS b.toNat 0 clsNONE).retire { beats := beatsOf s.active }
      | [] =>
        if s.pairGated tile && c.link == [] then s.popFailed b 2
        else if n then s.popFailed b 1
        else s.block .fifoEntry)
/-- VCOUNT (R228). -/
def execVcount (d b : BitVec 6) (w : BitVec 2) (s : State) : Out :=
  .next (s.once (small b 2) [] w fun s =>
    s.putS d.toNat (BitVec.ofNat 32 (if b = 1 then (s.channel (partner s.me.tile)).fifo.length else (s.channel s.me.tile).held)) clsNONE)
/-- FIFO_ENTRY_LAND: the oldest entry on the link of a producer's channel lands in its partner's FIFO; one of an older epoch is
discarded and counted; one that a cluster pushed which has ended is discarded, and its permit returns (R382, R384, R396). -/
def execFifoEntryLand (tile : Nat) (s : State) : Out :=
  .next (if 1 ≤ (s.channel tile).stale then (s.setChannel tile fun c => { c with stale := c.stale - 1 }).countStale (s.coreOwner tile) 1
    else match (s.channel tile).link with
    | [] => s
    | e :: es =>
      (s.sound 9 (partner tile) (32 * (s.channel tile).fifo.length) 32).setChannel tile fun c =>
        if 1 ≤ c.dead then { c with link := es, back := c.back + 1, dead := c.dead - 1 } else { c with link := es, fifo := c.fifo ++ [e] })
/-- PERMIT_RETURN: a returned permit lands at its producer (R382). -/
def execPermitReturn (tile : Nat) (s : State) : Out :=
  .next (if 1 ≤ (s.channel tile).staleBack then (s.setChannel tile fun c => { c with staleBack := c.staleBack - 1 }).countStale (s.coreOwner tile) 1
    else if 1 ≤ (s.channel tile).back then s.setChannel tile fun c => { c with back := c.back - 1, held := c.held + 1 } else s)

/-! ### Mailboxes (R229, R392, R393) -/

/-- A mailbox by its id. -/
def State.mailbox (s : State) (id : Nat) : Mailbox := lookD s.mailboxes id {}
/-- The state with a mailbox changed. -/
def State.setMailbox (s : State) (id : Nat) (f : Mailbox → Mailbox) : State := { s with mailboxes := put id (f (s.mailbox id)) s.mailboxes }
/-- Whether an id names a mailbox at all (R229). -/
def mailboxId (x : Word) : Bool := decide (bits x 0 7 < 96) && bits x 7 1 == 0 && bits x 12 20 == 0
/-- Whether a mailbox is assigned to a partition (R438). -/
def Partition.ownsMailbox (p : Partition) (id : Nat) : Bool := p.mbox.getLsbD (id / 256)
/-- The checks of a mailbox instruction, then its effect for the id. -/
def State.onMailbox (s : State) (ok : Bool) (uses : List Use) (b : BitVec 6) (f : Nat → State → State) : State :=
  let x := s.rs b.toNat
  s.checked (ok && mailboxId x) true (.s b.toNat :: uses) fun s =>
    if s.myPart.ownsMailbox x.toNat then f x.toNat s else s.raise { code := 0x0C, detail := 3, mask := s.exm }
/-- The 16 words a post sends. -/
def State.message (s : State) (a : BitVec 6) : List Word := (List.range 16).map fun k => s.rs (a.toNat + k)
/-- Ends a mailbox instruction. -/
def State.mailed (s : State) (failed : Bool) : State := (s.putCMBit 0 failed clsNONE).retire {}
/-- Number of a mailbox's first protection word on its tile (R342). -/
def mailWord (id : Nat) : Nat := id / 256 * 64
/-- A message is stored as the last entry of a mailbox. -/
def State.storeMail (s : State) (id : Nat) (m : MailSlot) : State :=
  (s.sound 10 (id % 128) (mailWord id + 8 * (s.mailbox id).slots.length) 8).setMailbox id fun b => { b with slots := b.slots ++ [m] }
/-- Takes an entry out of a mailbox: it is free, and reserved at once for the oldest waiting post (R393). -/
def State.takeMail (s : State) (id k : Nat) : State :=
  (s.moveUp 10 (id % 128) (mailWord id + 8 * k) 8 (mailWord id + 64)).setMailbox id fun b => { b with slots := b.slots.eraseIdx k }.reserve
/-- Whether an entry of a mailbox is uncorrectable (R342, log entry 148). -/
def State.mailStruck (s : State) (id k : Nat) : Bool :=
  !s.errors.isEmpty && (List.range 8).any fun w => s.struck 10 (id % 128) (mailWord id + 8 * k + w)
/-- The entries that can be taken: those before the first that awaits its data, for entries are taken in the order of their posts. -/
def Mailbox.ready (m : Mailbox) : List MailSlot := m.slots.takeWhile fun x => x.owner.isNone
/-- The mailbox with an entry reserved for the issuing path, whose grant has come. -/
def State.reservedBox (s : State) : Option Nat :=
  (s.mailboxes.find? fun e => e.2.slots.any fun x => x.owner == some (s.me.seq, s.me.cur)).map (·.1)
/-- A post on an answer that its mailbox's reset has made stale is discarded and counted, and posts anew (R396). -/
def State.stalePost (s : State) : State := if s.answer.isSome then s.countStale (some s.me.part) 1 else s
/-- MBPOST: a blocking post needs an entry of its core's post table; a granted one resends its data, which that table has held since it
issued, into the slot that was reserved for it (R229, R393; DEDUCED, log entry 149). -/
def execMbpost (a b : BitVec 6) (n : Bool) (s : State) : Out :=
  .next (match s.answer, s.reservedBox with
  | some _, some id =>
    (s.setMailbox id fun m => { m with slots := m.slots.map fun x => if x.owner = some (s.me.seq, s.me.cur) then { x with owner := none } else x }).mailed false
  | _, _ => s.stalePost.onMailbox (block a) ((List.range 16).map fun k => .s (a.toNat + k)) b fun id s =>
    let m := s.mailbox id
    let s := s.release 3
    if !n && !(s.waitOver s.me .postTable) then s.block .postTable
    else if m.slots.length < 8 then (s.storeMail id { data := s.message a }).mailed false
    else if n then s.mailed true
    else (s.setMailbox id fun m => { m with posts := m.posts ++ [{ group := s.me.seq, path := s.me.cur, data := s.message a }] }).block (.mailbox id false))
/-- MBTAKE: the oldest entry that no earlier take waits for. -/
def execMbtake (d b : BitVec 6) (n : Bool) (s : State) : Out :=
  .next (match s.answer with
    | some (8, _) => s.fail { code := 0x0D, detail := 8, mask := s.exm }
    | some (_, ws) => ((s.acquire 3).putWords d.toNat ws).mailed false
    | none => s.onMailbox (block d) [] b fun id s =>
      let m := s.mailbox id
      let k := m.takes.length
      match m.ready[k]? with
      | some e =>
        if s.mailStruck id k then s.fail { code := 0x0D, detail := 8, mask := s.exm }
        else (((s.takeMail id k).acquire 3).putWords d.toNat e.data).mailed false
      | none =>
        if n then s.mailed true
        else (s.setMailbox id fun m => { m with takes := m.takes ++ [(s.me.seq, s.me.cur)] }).block (.mailbox id true))
/-- The first reserved entry whose grant has not been sent. -/
def Mailbox.ungranted (m : Mailbox) : Option (Nat × Nat) := (m.slots.find? fun x => x.owner.isSome && !x.sent).bind (·.owner)
/-- Whether a mailbox can serve its oldest waiting take, or send a grant. -/
def Mailbox.servable (m : Mailbox) : Bool := (m.takes != [] && m.ready != []) || m.ungranted.isSome
/-- MAILBOX_GRANT (R393): the oldest waiting take gets the oldest entry, or the post for which an entry is reserved gets its grant. -/
def execMailboxGrant (id : Nat) (s : State) : Out :=
  .next (let m := s.mailbox id
    match m.takes, m.ready with
    | t :: ts, e :: _ =>
      let code := if s.mailStruck id 0 then 8 else 0
      ((s.takeMail id 0).setMailbox id fun m => { m with takes := ts }).grant t.1 t.2 code e.data
    | _, _ => match m.ungranted with
      | some x => (s.setMailbox id fun m => { m with slots := m.slots.map fun y => if y.owner = some x then { y with sent := true } else y }).grant x.1 x.2 1 []
      | none => s)

end Sys2Proof.Machine
end

