-- ==== Sys2Proof/Machine/Preempt.lean ====
section
/-! DEFINITION. Pre-emption: flush and restart, drain, save and restore, time slices and evictions (R286 to R288, R206, R317, R347, R357,
R385). -/

namespace Sys2Proof.Machine

/-- Whether a partition has a save area (R332). -/
def Partition.canSave (p : Partition) : Bool := p.reg2 0x85D != 0
/-- A vertical channel is set to its reset state under the next epoch (R396). -/
def State.resetChannel (s : State) (tile : Nat) : State :=
  s.setChannel tile fun c => { epoch := c.epoch + 1, stale := c.stale + c.link.length, staleBack := c.staleBack + c.back }

/-! ### Flush and restart (R286, R259) -/

/-- Whether a copy of a team is in flight (R184). -/
def State.teamCopies (s : State) (id : Nat) : Bool := s.copies.any (·.team == id)
/-- The teams of a task that restart together, on their cores: all of a versioned task, whose one version holds the writes of every
cluster (R274); else those of one cluster. -/
def State.restartTeams (s : State) (t : Team) : List Team :=
  if (s.taskOf t).versioned then s.taskTeams t.part t.task else s.clusterTeams t
/-- Flushes the teams of a task that restarts, once their copies have ended: the version is discarded, and the clusters are to be
placed again under their own numbers. -/
def State.restart (s : State) (t : Team) : State :=
  let k := s.taskOf t
  let ts := s.restartTeams t
  if !t.flushing || ts.any fun x => s.teamCopies x.id then s
  else
    let whole := k.versioned
    let mine := fun (v : Saved) => v.team.part == t.part && v.team.task == t.task && (whole || v.team.cluster == t.cluster)
    let s := if whole then s else ts.foldl (fun s x => s.drainAll x.id) s
    let gone := (s.allGroups.filter fun g => ts.any (·.id == g.team)) ++ (s.saved.filter mine).flatMap (·.groups)
    let s := gone.foldl State.killedRecords s
    let theirs := fun (c : FaultCause) => c.owner.any fun o => gone.any (·.seq == o.1)
    let s := s.setPart t.part fun p => { p with
      faults := p.faults.filter fun c => !theirs c
      records := p.records.map fun r => if theirs r.cause then { r with acted := true } else r }
    let s := if whole then s.discardVersion t.part t.task else s
    let s := (s.saved.filter mine).foldl (fun s v => v.team.pendingFutures.foldl (fun s f => s.cancelChain v.team.id f) s) s
    let s := { s with saved := s.saved.filter fun v => !mine v }
    let s := if s.stacked t then t.tiles.foldl State.resetChannel s else s
    let s := ts.foldl (fun s x => s.removeTeam x.id) s
    s.setPart t.part fun p => p.setTask t.task fun k =>
      if whole then { k with placed := 0, redo := [] } else { k with redo := k.redo ++ [t.cluster] }
/-- Restarts every task whose flushed teams have no copy left. -/
def State.restartFlushed (s : State) : State :=
  ((s.teams.filter (·.flushing)).map (·.id)).foldl (fun s id => match s.team? id with
    | some t => s.restart t
    | none => s) s

/-! ### Choosing the action (R286) -/

/-- What pre-empting a team does. -/
inductive Preemption where
  | flush | drain | save
  deriving DecidableEq, Repr, Inhabited

/-- The action for a team: the first condition of R286 that holds. -/
def State.preemption (s : State) (t : Team) : Preemption :=
  let r := (s.taskOf t).record
  let goal := r.beats * 1024
  if (r.vers || r.idem) && r.beats != 0 && decide (4 * t.beats < goal) then .flush
  else if r.beats != 0 && decide (goal ≤ t.beats + ((s.part t.part).reg 0x851 0).toNat * 1024) then .drain
  else .save
/-- The teams that a save of a team takes with it: a stacked cluster is saved whole (R385). -/
def State.saveTeams (s : State) (t : Team) : List Team :=
  if s.stacked t then s.clusterTeams t else [t]
/-- Asks for the save of a team; issue stops from now on if there is a save area (R332). -/
def State.askSave (s : State) (t : Team) : State :=
  let ids := (s.saveTeams t).map (·.id)
  { s with teams := s.teams.map fun (t : Team) => if ids.contains t.id then { t with preempt := true, draining := false } else t }
/-- The Atelier pre-empts a team. A save that has no area waits, or is not taken. -/
def State.preemptTeam (s : State) (id : Nat) (waits : Bool) : State :=
  match s.team? id with
  | none => s
  | some t =>
    if t.preempt || t.flushing then s
    else match s.preemption t with
      | .flush =>
        let ids := (s.restartTeams t).map (·.id)
        { s with teams := s.teams.map fun (t : Team) => if ids.contains t.id then { t with flushing := true } else t }.restartFlushed
      | .drain => s.setTeam id fun t => { t with draining := true }
      | .save => if waits || (s.part t.part).canSave then s.askSave t else s
/-- Whether another partition has eligible work that needs a core. -/
def State.coreWanted (s : State) (part tile : Nat) : Bool :=
  s.existing.any fun q => q != part && (s.part q).state == .run && (s.part q).ownsCore tile && (s.part q).tasks.any (s.part q).waiting
/-- Whether a partition's time slice is over. -/
def State.sliceOver (s : State) (part : Nat) : Bool :=
  let n := ((s.part part).reg 0x852 0x186A0).toNat
  (s.part part).state != .none && n != 0 && decide ((s.part part).sliceSince + n ≤ s.refs)
/-- TIME_SLICE_END: the partition's teams leave the cores that another's work needs, and the next slice begins. -/
def execTimeSliceEnd (p : Nat) (s : State) : Out :=
  .next (if s.sliceOver p then
      let ids := ((s.teams.filter fun t => t.part == p && s.coreWanted p t.tile).map (·.id))
      (ids.foldl (fun s id => s.preemptTeam id false) s).setPart p fun q => { q with sliceSince := s.refs }
    else s)
/-- Whether a draining team has exceeded its estimate. -/
def State.overrun (s : State) (t : Team) : Bool := t.draining && decide ((s.taskOf t).record.beats * 1024 < t.beats)
/-- DRAIN_OVERRUN: it is saved at that point. -/
def execDrainOverrun (team : Nat) (s : State) : Out :=
  .next (match s.team? team with
    | some t => if s.overrun t then s.askSave t else s
    | none => s)

/-! ### Save (R287, R206, R357, R385) -/

/-- Whether a team that is to be saved has come to rest: no instruction in progress, no copy, no job of its chains running. -/
def State.atRest (s : State) (t : Team) : Bool :=
  t.preempt && (s.part t.part).canSave && !s.teamCopies t.id
    && (s.allGroups.all fun g => g.team != t.id || !(decide (s.now ≤ g.busyTo) && decide (s.now < g.clk)))
    && s.engines.toList.all fun e => e.chains.all fun c => !(c.team == t.id && c.busy)
/-- Whether a channel has nothing in flight. -/
def Channel.quiet (c : Channel) : Bool := c.link == [] && c.back == 0
/-- Whether a team, with those that are saved with it, can be saved now. -/
def State.saveReady (s : State) (t : Team) : Bool :=
  let ts := s.saveTeams t
  ts.all s.atRest && (!s.stacked t || t.tiles.all fun x => (s.channel x).quiet)
/-- A group as it is captured: its pending writes complete (R31), and waiting instructions are withdrawn, but an answer that a unit has given
stands. -/
def Group.captured (g : Group) : Group :=
  { g with
    rowWait := false
    pending := []
    paths := g.paths.map fun (q : Option Path) => q.map fun (q : Path) => { q with wait := match q.wait with
      | some (.granted c d) => some (.granted c d)
      | _ => none } }
/-- Captures one team. -/
def State.saveTeam (s : State) (t : Team) : State :=
  let s := s.drainAll t.id
  let gs := s.allGroups.filter (·.team == t.id)
  let answered := fun (g path : Nat) => gs.any fun x => x.seq == g && (match (x.path path).wait with
    | some (.granted _ _) => true
    | _ => false)
  let s := s.withdrawIf fun g path => (gs.any (·.seq == g)) && !answered g path
  let t' := s.team t.id
  let s := if !t.ran then s else s.setPart t.part fun p => p.setTask t.task fun k => { k with cores := put t.tile t.lastBeat k.cores }
  let v : Saved := { team := { t' with latch := t.latch, l1 := [], linesSeen := [], wbuf := [], preempt := false, draining := false, ran := false }, groups := gs.map Group.captured
                     fifos := if s.stacked t then (List.range t.tiles.length).zip (t.tiles.map s.channel) else [] }
  let s := gs.foldl State.leave s
  { s with me := if s.me.team = t.id then {} else s.me, groups := s.groups.filter (·.team != t.id), teams := s.teams.filter (·.id != t.id)
           saved := s.saved ++ [v] }
/-- TEAM_SAVE. -/
def execTeamSave (team : Nat) (s : State) : Out :=
  .next (match s.team? team with
    | none => s
    | some t =>
      if !s.saveReady t then s
      else
        let ts := s.saveTeams t
        let s := ts.foldl State.saveTeam s
        let s := if s.stacked t then t.tiles.foldl State.resetChannel s else s
        s.captureSlots t.part)
/-- EVICTION: the host evicts a partition; its teams are pre-empted, and its slots are captured when the last has gone. -/
def execEviction (p : Nat) (s : State) : Out :=
  .next (if (s.part p).state = .none then s
    else
      let ids := (s.teams.filter (·.part == p)).map (·.id)
      ((ids.foldl (fun s id => s.preemptTeam id true) s).setPart p fun q => { q with evicted := true }).captureSlots p)

/-! ### Restore (R288, R357, R385) -/

/-- Pipes for saved groups in index order, as for new ones, each group charged with the rows it holds. -/
def placeSaved : List Group → List Group → Option (List Nat)
  | [], _ => some []
  | g :: gs, on => (bestPipe on g.width g.rowCharge g.peak).bind fun k => (placeSaved gs (on ++ [{ g with pipe := k }])).map (k :: ·)
/-- Whether a core admits a saved team (R265). -/
def State.readmits (s : State) (v : Saved) (tile : Nat) : Bool :=
  let ts := s.teams.filter (·.tile == tile)
  (s.part v.team.part).ownsCore tile && !s.cdmask.getLsbD tile && !s.gated tile && s.scanning != some tile
    && decide (ts.length ≤ 1)
    && (match ts with
      | t :: _ => decide (t.scr + v.team.scr + 128 ≤ 384)
      | [] => decide (v.team.scr ≤ 320))
    && (placeSaved v.groups (s.onTile tile)).isSome
/-- The saved teams that are restored with one: all of a stacked cluster, in member order. -/
def State.savedWith (s : State) (v : Saved) : List Saved :=
  let r := (s.taskOf v.team).record
  if r.clus && r.stack then
    (List.range r.members).filterMap fun m => s.saved.find? fun x =>
      x.team.part == v.team.part && x.team.task == v.team.task && x.team.cluster == v.team.cluster && x.team.member == m
  else [v]
/-- The cores on which saved teams can be restored now: each choice lists a core for each of them. -/
def State.restorePlaces (s : State) (v : Saved) : List (List Nat) :=
  let r := (s.taskOf v.team).record
  let vs := s.savedWith v
  if r.clus && r.stack then
    ((List.range 48).map fun t => rectTiles t r.crows r.ccols true).filter fun ts =>
      ts != [] && vs.all fun x => s.readmits x (ts.getD x.team.member 0)
  else ((List.range 96).filter (s.readmits v)).map fun t => [t]
/-- Whether a saved team may be restored now. -/
def State.restoreReady (s : State) (v : Saved) : Bool :=
  let p := s.part v.team.part
  p.state == .run && !p.stopping && !p.evicted && s.restorePlaces v != []
/-- Rows for the names of a group in ascending order (R249, R288). -/
def Group.replace (g : Group) (used : List Nat) : Group :=
  ((List.range 48).foldl (fun (x : Group × List Nat) n => match x.1.vrow n with
    | some r => let k := freeRow g.width x.2 n; (x.1.setRow n (some { r with row := k }), k :: x.2)
    | none => x) (g, used)).1
/-- One saved group is admitted again under the next admission number; what names it by its old number is told. -/
def State.readmit (s : State) (tile : Nat) (x : Group × Nat) : State :=
  let old := x.1.seq
  let on := s.onTile tile
  let used := (on.filter (·.pipe == x.2)).flatMap Group.rowNumbers
  let g := { x.1.replace used with seq := s.admissions, tile := tile, pipe := x.2, slot := freeSlot on x.2, clk := s.now, busyFrom := 0, busyTo := 0
                                   stallUntil := 0, fetchUntil := 0, turn := false }
  let cause := fun (c : FaultCause) => match c.owner with
    | some (o, n) => if o = old then { c with owner := some (s.admissions, n) } else c
    | none => c
  let owner := fun (m : MailSlot) => { m with owner := m.owner.map fun o => if o.1 = old then (s.admissions, o.2) else o }
  { s with groups := s.groups ++ [g], admissions := s.admissions + 1
           mailboxes := s.mailboxes.map fun e => (e.1, { e.2 with slots := e.2.slots.map owner })
           teams := s.teams.map fun t => if t.id = g.team then { t with latch := t.latch.map fun a =>
             if a.group = old then { a with group := s.admissions } else a } else t
           parts := s.parts.map fun (p : Partition) => { p with
             faults := p.faults.map cause
             records := p.records.map fun (r : FaultRecord) => { r with cause := cause r.cause }
             traceIn := p.traceIn.map fun (r : TraceRec) => if r.group = old then { r with group := s.admissions } else r } }
/-- Where a saved team goes among the cores chosen: one core, or that of its member in a rectangle. -/
def Saved.tileIn (v : Saved) (ts : List Nat) : Nat := if ts.length ≤ 1 then ts.headD 0 else ts.getD v.team.member 0
/-- One saved team is placed on its core of those chosen; the lines that a team there loses of its L1 share are invalidated (R265). -/
def State.restoreTeam (s : State) (v : Saved) (ts : List Nat) : State :=
  let tile := v.tileIn ts
  let pipes := (placeSaved v.groups (s.onTile tile)).getD []
  let ctx := s.freeCtx tile
  let s := { s with saved := s.saved.filter (·.team.id != v.team.id), teams := s.teams ++ [{ v.team with tile := tile, ctx := ctx }] }
  let s := (v.groups.zip pipes).foldl (fun s x => s.readmit tile x) s
  let s := ((s.teams.filter (·.tile == tile)).map (·.id)).foldl State.settleShare s
  let mine := fun (t : Team) => t.part == v.team.part && t.task == v.team.task && t.cluster == v.team.cluster
  let s := s.mapTeams mine fun t => { t with tiles := if ts.length ≤ 1 then t.tiles.set v.team.member tile else ts }
  v.fifos.foldl (fun s x => s.setChannel (ts.getD x.1 0) fun n =>
    { n with fifo := x.2.fifo, held := 16 - x.2.fifo.length, sent := x.2.sent, taken := x.2.taken }) s
/-- TEAM_RESTORE: on any admissible core, the choice being free. -/
def execTeamRestore (team : Nat) (s : State) : Out :=
  .next (match s.saved.find? (·.team.id == team) with
    | none => s
    | some v =>
      if !s.restoreReady v then s
      else
        let places := s.restorePlaces v
        let ts := places.getD (Config.choice s.free % places.length) []
        (s.savedWith v).foldl (fun s x => s.restoreTeam x ts) (s.reboard v.team.part))

end Sys2Proof.Machine
end

