-- ==== Sys2Proof/Machine/Chains.lean ====
section
/-! DEFINITION. Command chains (R290, R355 to R363, R421): the entries an engine walks, the jobs it starts, and how a job ends. -/

namespace Sys2Proof.Machine

/-! ### Which chain an engine walks for a partition (R355, R357) -/

/-- Whether a chain is paused: its team is saved, or is about to be (R357); a save that has no area is not taken (R332). -/
def State.chainPaused (s : State) (c : Chain) : Bool :=
  match s.team? c.team with
  | none => true
  | some t => t.preempt && (s.part t.part).canSave
/-- Whether the flush of a chain's team has begun (R354). -/
def State.chainFlushed (s : State) (c : Chain) : Bool :=
  (s.team c.team).flushing || (((s.part c.part).task? (s.team c.team).task).map (·.dying)).getD false
/-- The chain of a partition that an engine works on: the first in queue order that runs or is not paused. -/
def State.headChain (s : State) (e p : Nat) : Option Chain :=
  ((s.engines[e]?.getD {}).chains).find? fun c => c.part == p && (c.busy || !s.chainPaused c)
/-- Whether two records are the same chain: a future's cancelled chain, or one that a reset of
its queue has cut off, may still run while its entry serves another. -/
def Chain.same (c x : Chain) : Bool := c.team == x.team && c.future == x.future && c.cancel == x.cancel && c.stale == x.stale
/-- The state with a chain of an engine changed. -/
def State.setChain (s : State) (e : Nat) (c : Chain) (f : Chain → Chain) : State :=
  s.setEngine e fun x => { x with chains := x.chains.map fun (y : Chain) => if y.same c then f y else y }
/-- The state with a chain taken out of its engine. -/
def State.dropChain (s : State) (e : Nat) (c : Chain) : State :=
  s.setEngine e fun x => { x with chains := x.chains.filter fun (y : Chain) => !y.same c }
/-- The completion record of a chain (R210, R362): it resolves the future unless a cancellation came first, and the chain leaves. -/
def State.resolveChain (s : State) (e : Nat) (c : Chain) (st : FutureState) (w : Word) : State :=
  let s := s.dropChain e c
  if c.cancel then s
  else s.setTeam c.team fun t => t.setFuture c.future fun f => if f.state = .pending then { f with state := st, word := w } else f

/-- Codes of R362. -/
def wordBlock : Word := 0xFFFFFFFF
/-- A translation or protection fault. -/
def wordAccess : Word := 0xFFFFFFFE
/-- An ill-formed entry, or an operation the engine does not perform. -/
def wordEntry : Word := 0xFFFFFFFD
/-- The entry limit. -/
def wordLimit : Word := 0xFFFFFFFC
/-- An uncorrectable word. -/
def wordUncorrectable : Word := 0xFFFFFFFB

/-! ### Accesses of an engine (R312, R336, R344) -/

/-- Bytes that an engine takes for a chain, or the failure's word with the uncorrectable word it met, if it met one. -/
def State.engineTake (s : State) (c : Chain) (va n : Nat) : Except (Word × Option Place) (List Byte) :=
  let ag := c.agent
  match s.refusal ag .engineRead va n 0 with
  | some _ => .error (wordAccess, none)
  | none =>
    let ps := s.places ag .engineRead va n
    match (ps.flatMap fun (p, k) => wordsOf p k).find? fun w => s.poisoned w.1 with
    | some w => .error (wordUncorrectable, some w.1)
    | none => .ok (ps.flatMap fun (p, k) => s.readBytes ag p k)
/-- The record of an uncorrectable word that a chain's read has met: it is unattributed (R344). -/
def State.engineMet (s : State) (c : Chain) (w : Option Place) : State :=
  match w with
  | some w => s.unattributed c.part (s.wordOf w).1 w.paddr 0x7F (s.team c.team).task
  | none => s
/-- Reads bytes for a chain, or gives the failure's word; an uncorrectable word is also written as an unattributed record. -/
def State.engineRead (s : State) (c : Chain) (va n : Nat) : Except (Word × State) (List Byte) :=
  match s.engineTake c va n with
  | .ok bs => .ok bs
  | .error x => .error (x.1, s.engineMet c x.2)
/-- The pieces that bytes written for a chain fall into, or the failure's word; what goes to a scratchpad that is gone is lost (log
entry 136). -/
def State.engineWrite (s : State) (c : Chain) (va : Nat) (bs : List Byte) : Except Word (List (Place × List Byte)) :=
  let ag := c.agent
  match s.refusal ag .engineWrite va bs.length 0 with
  | some _ => .error wordAccess
  | none => .ok ((s.places ag .engineWrite va bs.length).foldl (fun (r : List Byte × List (Place × List Byte)) (p, k) =>
      (r.1.drop k, r.2 ++ (match p with
        | .scr t _ => if (s.holder? t).isSome then [(p, r.1.take k)] else []
        | _ => [(p, r.1.take k)]))) (bs, [])).2
/-! ### Entries (R290, R356 to R361) -/

/-- Bytes of a chain entry. -/
def entrySize : Nat := 128
/-- Whether an entry lies wholly in the issuing team's scratchpad window. -/
def State.entryInside (s : State) (c : Chain) (va : Nat) : Bool :=
  decide (scrBase ≤ va) && decide (va + entrySize ≤ scrBase + (s.team c.team).scr * 1024)
/-- Adds a patch to a body entry: the field at byte 8 × PFLD, modulo 2^64 (R358, R359). -/
def patchEntry (bs : List Byte) (fld : Nat) (add : DWord) : List Byte :=
  bs.take (8 * fld) ++ leBytes 8 ((BitVec.ofNat 64 (natAt bs (8 * fld) 8) + add).toNat) ++ bs.drop (8 * fld + 8)
/-- Entry `k` of a loop's body as its repetition uses it. -/
def ChainLoop.entry (l : ChainLoop) (k : Nat) : List Byte :=
  (l.patches.filter (·.1 == k)).foldl (fun bs p => patchEntry bs p.2.1 (BitVec.ofNat 64 l.rep * p.2.2)) (l.body.getD k [])
/-- The next entry of a chain: its bytes, or the failure with which the chain ends. -/
def State.nextEntry (s : State) (c : Chain) : Except (Word × State) (List Byte) :=
  if 1048576 ≤ c.read + 1 then .error (wordLimit, s)
  else match c.loop with
    | some l => .ok (l.entry l.idx)
    | none => if s.entryInside c c.ptr.toNat then s.engineRead c c.ptr.toNat entrySize else .error (wordEntry, s)
/-- Moves a chain `n` entries on, within the body of its loop or along the chain (R359). -/
def Chain.advance (c : Chain) (n : Nat) : Chain :=
  match c.loop with
  | none => { c with ptr := c.ptr + BitVec.ofNat 64 (entrySize * n), pos := .reading }
  | some l =>
    let c := { c with pos := .reading }
    if l.idx + n < l.body.length then { c with loop := some { l with idx := l.idx + n } }
    else if l.rep + 1 < l.reps then { c with loop := some { l with idx := 0, rep := l.rep + 1 } }
    else { c with loop := none, ptr := l.after }
/-- A byte of an entry as a number. -/
def byteAt (bs : List Byte) (o : Nat) : Nat := natAt bs o 1
/-- Whether bytes from `o` up to `o + n` are zero. -/
def zeroAt (bs : List Byte) (o n : Nat) : Bool := natAt bs o n == 0
/-- Whether a partition's chains are frozen (R421). -/
def State.frozen (s : State) (p : Nat) : Bool := bit ((s.part p).reg 0x930 0) 1
/-- The chain that goes on at its next entry, or at its end, for a partition on an engine; none during a freeze (R421). -/
def State.readingChain (s : State) (e p : Nat) : Option Chain :=
  (s.headChain e p).filter fun c => (c.pos == .reading || c.pos == .faulted) && !s.frozen p
/-- Reads the next entry where it is of a kind, and acts on it. -/
def State.walk (s : State) (e p kind : Nat) (f : Chain → List Byte → State → State) : State :=
  match (s.readingChain e p).filter fun c => c.pos == .reading with
  | none => s
  | some c => match s.nextEntry c with
    | .error _ => s
    | .ok bs =>
      if byteAt bs 0 = kind then
        f { c with read := c.read + 1 } bs (s.setChain e c fun x => { x with read := x.read + 1 })
      else s
/-- The chain ends FAULTED at an ill-formed entry (R356). -/
def State.illFormed (s : State) (e : Nat) (c : Chain) : State := s.resolveChain e c .faulted wordEntry

/-- Operations that an engine performs (R355). -/
def performs (e op : Nat) : Bool := if e < 4 then decide (op ≤ 3) else op == 0
/-- Regions of a JOB entry: reads, then writes, in the format of R271. -/
def jobRegions (bs : List Byte) : List (Nat × Nat) × List (Nat × Nat) :=
  let h := byteAt bs 2
  (regionsAt (bs.drop 8) 0 (fieldAt h 0 3), regionsAt (bs.drop 8) (fieldAt h 0 3) (fieldAt h 4 3))
/-- Whether a JOB entry is legal (R290, R271). -/
def jobLegal (e : Nat) (bs : List Byte) : Bool :=
  let h := byteAt bs 2
  let n := fieldAt h 0 3 + fieldAt h 4 3
  let rs := (jobRegions bs).1 ++ (jobRegions bs).2
  performs e (byteAt bs 1) && fieldAt h 7 1 == 0 && fieldAt h 3 1 == 0 && decide (fieldAt h 0 3 ≤ 4) && decide (fieldAt h 4 3 ≤ 3)
    && zeroAt bs 3 5 && addrOk (natAt bs 8 8) 8 && (rs.all fun r => decide (r.1 < 2 ^ 56)) && zeroAt bs (16 + 16 * n) (112 - 16 * n)
/-- JOB (R290, R356): its regions enter the partition's dependence unit as its footprint. -/
def execChainJob (e p : Nat) (s : State) : Out :=
  .next (s.walk e p 1 fun c bs s =>
    if jobLegal e bs then
      let n := (s.part p).depNum
      let r := jobRegions bs
      (s.setPart p fun q => q.enterDep { job := some (c.team, c.future), reads := r.1, writes := r.2 }).setChain e c fun x =>
        { x with pos := .entered n, op := byteAt bs 1, param := BitVec.ofNat 64 (natAt bs 8 8) }
    else s.illFormed e c)

/-- The patches of a LOOP entry: body entry, field, stride. -/
def loopPatches (bs : List Byte) : List (Nat × Nat × DWord) :=
  (List.range (byteAt bs 2)).map fun k => (byteAt bs (16 + 16 * k), byteAt bs (17 + 16 * k), BitVec.ofNat 64 (natAt bs (24 + 16 * k) 8))
/-- Whether a LOOP entry is legal (R358, R359). -/
def loopLegal (bs : List Byte) : Bool :=
  let k := byteAt bs 1
  let np := byteAt bs 2
  decide (1 ≤ k) && decide (k ≤ 16) && decide (np ≤ 7) && zeroAt bs 3 1 && decide (natAt bs 4 4 ≤ 0x10000) && zeroAt bs 8 8
    && ((loopPatches bs).all fun x => decide (x.1 < k) && decide (1 ≤ x.2.1) && decide (x.2.1 ≤ 15))
    && ((List.range np).all fun j => zeroAt bs (18 + 16 * j) 6) && zeroAt bs (16 + 16 * np) (112 - 16 * np)
/-- Reads the K entries of a body: JOB and COND entries that lie in the window. -/
def State.readBody (s : State) (c : Chain) (va : Nat) : Nat → Except (Word × State) (List (List Byte))
  | 0 => .ok []
  | k + 1 =>
    if s.entryInside c va then
      match s.engineRead c va entrySize with
      | .error x => .error x
      | .ok bs =>
        if byteAt bs 0 = 1 ∨ byteAt bs 0 = 3 then
          (State.readBody s c (va + entrySize) k).map fun l => bs :: l
        else .error (wordEntry, s)
    else .error (wordEntry, s)
/-- CHAIN_LOOP (R358, R359): the body is read once, and repeated N times; N = 0 skips it. -/
def execChainLoop (e p : Nat) (s : State) : Out :=
  .next (s.walk e p 2 fun c bs s =>
    if loopLegal bs && c.loop.isNone then
      let k := byteAt bs 1
      let after := c.ptr + BitVec.ofNat 64 (entrySize * (k + 1))
      match s.readBody c (c.ptr.toNat + entrySize) k with
      | .error x => x.2.resolveChain e c .faulted x.1
      | .ok body =>
        s.setChain e c fun x =>
          if natAt bs 4 4 = 0 then { x with ptr := after }
          else { x with loop := some { body := body, patches := loopPatches bs, reps := natAt bs 4 4, after := after } }
    else s.illFormed e c)

/-- Whether a COND entry is legal (R360); within a loop its S must not pass the body's end. -/
def condLegal (c : Chain) (bs : List Byte) : Bool :=
  let src := byteAt bs 2
  let a := natAt bs 8 8
  decide (1 ≤ byteAt bs 1) && decide (src ≤ 2) && decide (byteAt bs 3 ≤ 5) && zeroAt bs 4 4
    && (if src = 0 then addrOk a 4 else a == 0) && zeroAt bs 24 104
    && (match c.loop with
      | some l => decide (l.idx + 1 + byteAt bs 1 ≤ l.body.length)
      | none => true)
/-- The test of a COND entry. -/
def condTest (k : Nat) (x v : Word) : Bool :=
  match k with
  | 0 => x == v
  | 1 => x != v
  | 2 => decide (x.toNat < v.toNat)
  | 3 => decide (v.toNat ≤ x.toNat)
  | 4 => x != 0
  | _ => x == 0
/-- COND (R360): the next entry runs, or the next S entries are skipped. -/
def execChainCond (e p : Nat) (s : State) : Out :=
  .next (s.walk e p 3 fun c bs s =>
    if condLegal c bs then
      let src : Except (Word × State) Word := match byteAt bs 2 with
        | 0 => (s.engineRead c (natAt bs 8 8) 4).map fun b => BitVec.ofNat 32 (leNat b)
        | 1 => .ok (BitVec.ofNat 32 c.lastStatus)
        | _ => .ok c.lastWord
      match src with
      | .error x => x.2.resolveChain e c .faulted x.1
      | .ok x =>
        let holds := condTest (byteAt bs 3) (x &&& BitVec.ofNat 32 (natAt bs 20 4)) (BitVec.ofNat 32 (natAt bs 16 4))
        s.setChain e c fun y => y.advance (if holds then 1 else 1 + byteAt bs 1)
    else s.illFormed e c)

/-- LINK (R361). -/
def execChainLink (e p : Nat) (s : State) : Out :=
  .next (s.walk e p 4 fun c bs s =>
    let va := natAt bs 8 8
    if zeroAt bs 1 7 && zeroAt bs 16 112 && va % entrySize == 0 && s.entryInside c va then
      s.setChain e c fun x => { x with ptr := BitVec.ofNat 64 va }
    else s.illFormed e c)

/-- END (R290, R361, R362), and every end of a chain at an entry that none of the kinds serves: outside the window, of a reserved kind,
past the limit, uncorrectable (R356), or with a job that ended FAULTED during a freeze (R421). -/
def execChainEnd (e p : Nat) (s : State) : Out :=
  .next (match s.readingChain e p with
    | none => s
    | some c =>
      if c.pos = .faulted then s.resolveChain e c .faulted c.lastWord
      else match s.nextEntry c with
      | .error x => x.2.resolveChain e c .faulted x.1
      | .ok bs =>
        if byteAt bs 0 = 0 then
          if zeroAt bs 1 127 then
            match c.overflow with
            | some o => s.resolveChain e c .overflow o.1
            | none => s.resolveChain e c .done c.lastWord
          else s.illFormed e c
        else if 5 ≤ byteAt bs 0 then s.illFormed e c
        else s)

/-! ### Jobs (R355, R356, R362, R363) -/

/-- The chain whose job an engine starts next: partitions in turn, those passed over whose next job may not start; none while a job
runs (R355, R354, R421). -/
def State.jobDue (s : State) (e : Nat) : Option Chain :=
  let en := s.engines[e]?.getD {}
  if en.chains.any Chain.busy then none
  else ((List.range 8).map fun k => (en.lastPart + 1 + k) % 8).findSome? fun p =>
    (s.headChain e p).bind fun c => match c.pos with
      | .entered n => if (s.part p).depClear n && !s.frozen p && !s.chainFlushed c then some c else none
      | _ => none

/-- A job while it is worked out: the state with its writes, the chain, how it has ended, if it has, the uncorrectable word it met, and
what it writes, in order. -/
structure Job where
  s : State
  c : Chain
  ended : Option (Nat × Word) := none
  met : Option Place := none
  out : List (Place × List Byte) := []
/-- Ends a job: status 0 OK, 1 OVERFLOW, 2 FAULTED. The first end stands. -/
def Job.finish (j : Job) (st : Nat) (w : Word) : Job := if j.ended.isSome then j else { j with ended := some (st, w) }
/-- Ends a job FAULTED. -/
def Job.fail (j : Job) (w : Word) : Job := j.finish 2 w
/-- Ends a job FAULTED unless a check passes. -/
def Job.check (j : Job) (ok : Bool) (w : Word) : Job := if ok then j else j.fail w
/-- Reads bytes; a job that has ended reads none. -/
def Job.read (j : Job) (va n : Nat) : List Byte × Job :=
  if j.ended.isSome then ([], j)
  else match j.s.engineTake j.c va n with
    | .ok bs => (bs, j)
    | .error x => ([], { j with met := x.2 }.fail x.1)
/-- Writes bytes, unless the job has ended. -/
def Job.write (j : Job) (va : Nat) (bs : List Byte) : Job :=
  if j.ended.isSome then j
  else match j.s.engineWrite j.c va bs with
    | .ok ps => { j with s := j.s.engineStore j.c ps, out := j.out ++ ps }
    | .error w => j.fail w
/-- Writes a 32-bit word. -/
def Job.write32 (j : Job) (va x : Nat) : Job := j.write va (leBytes 4 x)
/-- The saturating fields of FJOB (R363). -/
def Future.started (f : Future) (n : Nat) : Future := { f with jobs := min n 0xFFFF }
/-- Starts the job that is due on an engine where `mine` holds of the chain, and works it out (R312, R356): the chain runs with the status
and word that ENGINE_JOB_COMPLETE applies, and with the writes that are performed until then (log entry 57). The unit's release of the job
is an acquire, and no cache stands before an engine. -/
def State.startJob (s : State) (e : Nat) (mine : Chain → Bool) (job : Nat → Job → Job) : State :=
  match s.jobDue e with
  | none => s
  | some c =>
    if mine c then
      let s := s.setTeam c.team fun t => t.setFuture c.future fun f => f.started (c.jobs + 1)
      let j := job c.param.toNat { s := s, c := c }
      let r := j.ended.getD (0, 0)
      (((s.engineMet c j.met).setEngine e fun x => { x with lastPart := c.part }).setChain e c fun x =>
        { x with
          out := j.out
          jobs := x.jobs + 1
          pos := match x.pos with
            | .entered n => .running n
            | q => q
          lastStatus := r.1
          lastWord := r.2 })
    else s
/-- Performs the next writes of the jobs that run, a free number of each one's (R312, log entry 57). -/
def State.jobWrites (s : State) : State :=
  (List.range 5).foldl (fun s e =>
    ((s.engines[e]?.getD {}).chains.filter fun c => c.busy && c.out != []).foldl (fun s c =>
      let n := Config.choice (s.free + e) % (c.out.length + 1)
      (s.engineStore c (c.out.take n)).setChain e c fun x => { x with out := x.out.drop n }) s) s
/-- ENGINE_JOB_COMPLETE (R362, R272): its writes have been performed, the submission leaves the dependence unit, and the chain goes on,
stops, or has been cancelled; during a freeze its future stays pending (R421). -/
def execEngineJobComplete (e : Nat) (s : State) : Out :=
  .next (match (s.engines[e]?.getD {}).chains.find? Chain.busy with
    | none => s
    | some c =>
      let s := (s.engineStore c c.out).setChain e c fun x => { x with out := [] }
      let s := match c.pos with
        | .running n => s.leaveUnit c.part n
        | _ => s
      let bad := fun (f : Future) => { f with firstBad := if 65534 < c.jobs then 0xFFFF else c.jobs }
      if c.cancel then (if c.stale then s.countStale (some c.part) 1 else s).dropChain e c
      else match c.lastStatus with
        | 0 => s.setChain e c fun x => x.advance 1
        | 1 =>
          let s := if c.overflow.isNone then s.setTeam c.team fun t => t.setFuture c.future bad else s
          s.setChain e c fun x => { x with overflow := x.overflow.orElse fun _ => some (c.lastWord, c.jobs) }.advance 1
        | _ =>
          let s := s.setTeam c.team fun t => t.setFuture c.future bad
          if s.frozen c.part then s.setChain e c fun x => { x with pos := .faulted } else s.resolveChain e c .faulted c.lastWord)

end Sys2Proof.Machine
end

