-- ==== Sys2Proof/Machine/Convert.lean ====
section
/-! DEFINITION. Opcodes 0x90 to 0x97: conversions (R76 to R78, R146 to R151). -/

namespace Sys2Proof.Machine

/-- Float codes of the conversions (R146). -/
def floatCode (t : Nat) : Fmt :=
  match t with
  | 0 => fp32 | 1 => bf16 | 2 => fp16 | 3 => e4m3 | 4 => e5m2 | 5 => e3m2 | _ => e2m1
/-- Integer codes: width and signedness. -/
def integerCode (t : Nat) : Nat × Bool :=
  match t with
  | 0 => (32, true) | 1 => (32, false) | 2 => (16, true) | 3 => (16, false) | 4 => (8, true) | 5 => (8, false) | _ => (4, true)
/-- The environment of a conversion, with `n` bits of the draw from bit `lo` as the top bits of r (R151). -/
def State.convEnv (s : State) (lane lo n : Nat) : Env :=
  { s.env lane 0 with r := if s.drawing then bits (s.draw lane) lo n * 2 ^ (32 - n) else 0 }
/-- A conversion of one element in a register of its own. -/
def State.convert (s : State) (d a : BitVec 6) (t : BitVec 3) (u : Bool) (f : BitVec 3) (g : Env → Nat → Word × Nat) : Out :=
  .next (s.una (small t 7 && small f 7) d a 0 u false 1 clsNONE s.drawing fun s k p => g (s.convEnv k 0 32) p.toNat)
/-- CVTFF (R147). -/
def execCvtff (d a : BitVec 6) (t : BitVec 3) (u : Bool) (f : BitVec 3) (s : State) : Out :=
  s.convert d a t u f fun v x =>
    let src := floatCode f.toNat
    let r := convertFloat src (floatCode t.toNat) v (x % 2 ^ src.width)
    (BitVec.ofNat 32 r.1, r.2)
/-- CVTFI. -/
def execCvtfi (d a : BitVec 6) (t : BitVec 3) (u : Bool) (f : BitVec 3) (s : State) : Out :=
  s.convert d a t u f fun v x =>
    let src := floatCode f.toNat
    let i := integerCode t.toNat
    let r := convertToInt src i.2 i.1 v (x % 2 ^ src.width)
    (BitVec.ofInt 32 r.1, r.2)
/-- CVTIF. -/
def execCvtif (d a : BitVec 6) (t : BitVec 3) (u : Bool) (f : BitVec 3) (s : State) : Out :=
  s.convert d a t u f fun v x =>
    let i := integerCode f.toNat
    let r := convertFromInt (floatCode t.toNat) v (intVal i.2 i.1 (x % 2 ^ i.1))
    (BitVec.ofNat 32 r.1, r.2)

/-- What a packed code names: a float format, or an integer width and signedness (R146). -/
inductive Packed where
  | flt (f : Fmt)
  | int (w : Nat) (sgn : Bool)
/-- The packed codes. -/
def packedCode (c : Nat) : Packed :=
  match c with
  | 1 => .flt bf16 | 2 => .flt fp16 | 3 => .flt e4m3 | 4 => .flt e5m2
  | 9 => .int 16 true | 10 => .int 16 false | 11 => .int 8 true | _ => .int 8 false
/-- One 32-bit source narrowed by a packed code: FP32 converted, or INT32 narrowed under SAT (R148, R149). -/
def narrow (c : Nat) (v : Env) (x : Word) : Nat × Nat :=
  match packedCode c with
  | .flt f => convertFloat fp32 f v x.toNat
  | .int w g => intBits g v.sat w x.toInt
/-- One element widened exactly by a packed code: no mode applies, a signalling NaN sets NV. -/
def widen (c : Nat) (x : Nat) : Nat × Nat :=
  match packedCode c with
  | .flt f => convertFloat f fp32 {} x
  | .int w g => ((intVal g w x % 2 ^ 32).toNat, 0)
/-- PACK (R148). -/
def execPack (d a b : BitVec 6) (u : Bool) (c : BitVec 4) (s : State) : Out :=
  .next (s.bin (packCode c) d a b 0 u false false 1 clsNONE s.drawing fun s k p q =>
    let lo := narrow c.toNat (s.convEnv k 0 32) p
    let hi := narrow c.toNat (s.convEnv k 32 32) q
    (BitVec.ofNat 32 (lo.1 + 2 ^ 16 * hi.1), lo.2 ||| hi.2))
/-- UNPK (R148). -/
def execUnpk (d a : BitVec 6) (u : Bool) (c : BitVec 4) (s : State) : Out :=
  .next (s.calc { legal := pr u d && Sys2Proof.rs u a && packCode c, u := u, uses := [(srcA u a).use], dests := [d.toNat, d.toNat + 1]
                  draws := s.drawing
                  f := fun s k =>
                    let p := s.word (srcA u a) k
                    let lo := widen c.toNat (bits p 0 16)
                    let hi := widen c.toNat (bits p 16 16)
                    ([BitVec.ofNat 32 lo.1, BitVec.ofNat 32 hi.1], lo.2 ||| hi.2) })
/-- PACK8 (R149). -/
def execPack8 (d a b : BitVec 6) (u : Bool) (c : BitVec 4) (s : State) : Out :=
  let p := srcA u a
  let q := srcA u b
  .next (s.calc { legal := rd u d && pr u a && pr u b && pack8Code c, u := u
                  uses := [p.use, (p.plus 1).use, q.use, (q.plus 1).use], dests := [d.toNat], draws := s.drawing
                  f := fun s k =>
                    let r := fun i (x : Src) => narrow c.toNat (s.convEnv k (16 * i) 16) (s.word x k)
                    let r0 := r 0 p
                    let r1 := r 1 (p.plus 1)
                    let r2 := r 2 q
                    let r3 := r 3 (q.plus 1)
                    ([BitVec.ofNat 32 (r0.1 + 2 ^ 8 * r1.1 + 2 ^ 16 * r2.1 + 2 ^ 24 * r3.1)], orFlags [r0.2, r1.2, r2.2, r3.2]) })
/-- UNPK8 (R149). -/
def execUnpk8 (d a : BitVec 6) (u : Bool) (c : BitVec 4) (s : State) : Out :=
  .next (s.calc { legal := mult 4 u d && Sys2Proof.rs u a && pack8Code c, u := u, uses := [(srcA u a).use]
                  dests := (List.range 4).map (d.toNat + ·), draws := s.drawing
                  f := fun s k =>
                    let rs := (List.range 4).map fun i => widen c.toNat (bits (s.word (srcA u a) k) (8 * i) 8)
                    (rs.map fun r => BitVec.ofNat 32 r.1, orFlags (rs.map (·.2))) })
/-- One nibble of QNT4: the exact product with the scale, rounded once (R150). -/
def quantise (int4 : Bool) (v : Env) (x y : Nat) : Nat × Nat :=
  match Fp.mul (fp32.unpack v.ftz x) (fp32.unpack v.ftz y) with
  | .nan fl => (0, fl ||| fNV)
  | .inf n _ => if int4 then (if n then 8 else 7, fNV) else (e2m1.largest n, fOF)
  | .exact p =>
    if int4 then
      let r := roundAt v p 0
      let z : Int := if p.neg then -(r.1 : Int) else r.1
      if z < -8 then (8, fNV) else if 7 < z then (7, fNV) else ((z % 16).toNat, if r.2 then fNX else 0)
    else e2m1.round v p
/-- QNT4 (R150). -/
def execQnt4 (d a b : BitVec 6) (u t : Bool) (s : State) : Out :=
  let p := srcA u a
  .next (s.calc { legal := rd u d && mult 8 u a, u := u, uses := (srcB u b).use :: (List.range 8).map (fun i => (p.plus i).use)
                  dests := [d.toNat], draws := s.drawing
                  f := fun s k =>
                    let y := (s.word (srcB u b) k).toNat
                    let rs := (List.range 8).map fun i => quantise t (s.convEnv k (8 * i) 8) (s.word (p.plus i) k).toNat y
                    ([BitVec.ofNat 32 (joinElems 4 (rs.map (·.1)))], orFlags (rs.map (·.2))) })

end Sys2Proof.Machine
end

