-- ==== Sys2Proof/Machine/Tables.lean ====
section
/-! DEFINITION. The table ROM of the special functions (R134): for segment j with midpoint m = (2j+1)/256 the integers nearest to
g(m) · 2^30, g'(m) · 2^30 and g''(m)/2 · 2^30, as that rule defines them. Computed from the functions with 120 digits. -/

namespace Sys2Proof.Machine

/-- Segments 0 to 15 of g(t) = 1/(1+t). -/
def rcpRows0 : List (Int × Int × Int) := [
  (1069563840, -1065402113, 1061256580), (1061304660, -1049011556, 1036860843), (1053172057, -1032996347, 1013207145), (1045163144, -1017345114, 990267487),
  (1037275121, -1002046909, 968015127), (1029505269, -987091195, 946424516), (1021850955, -972467824, 925471237), (1014309620, -958167021, 905131946),
  (1006878780, -944179369, 885384317), (999556025, -930495791, 866206991), (992339014, -917107537, 847579528), (985225473, -904006169, 829482363),
  (978213192, -891183549, 811896756), (971300025, -878631824, 794804760), (964483884, -866343419, 778189176), (957762742, -854311017, 762033521)]
/-- Segments 16 to 31 of g(t) = 1/(1+t). -/
def rcpRows1 : List (Int × Int × Int) := [
  (951134626, -842527558, 746321989), (944597618, -830986221, 731039425), (938149853, -819680418, 716171286), (931789515, -808603783, 701703621),
  (925514838, -797750164, 687623037), (919324103, -787113614, 673916673), (913215638, -776688383, 660572179), (907187812, -766468910, 647577693),
  (901239039, -756449816, 634921813), (895367775, -746625897, 622593582), (889572514, -736992115, 610582465), (883851791, -727543596, 598878330),
  (878204176, -718275620, 587471433), (872628276, -709183615, 576352398), (867122735, -700263155, 565512201), (861686229, -691509952, 554942155)]
/-- Segments 32 to 47 of g(t) = 1/(1+t). -/
def rcpRows2 : List (Int × Int × Int) := [
  (856317467, -682919849, 544633898), (851015192, -674488821, 534579375), (845778175, -666212963, 524770826), (840605220, -658088490, 515200775),
  (835495158, -650111734, 505862018), (830446849, -642279134, 496747608), (825459180, -634587237, 487850849), (820531066, -627032695, 479165283),
  (815661445, -619612255, 470684680), (810849283, -612322762, 462403030), (806093569, -605161154, 454314532), (801393315, -598124456, 446413588),
  (796747556, -591209781, 438694794), (792155351, -584414323, 431152930), (787615779, -577735357, 423782955), (783127940, -571170235, 416580001)]
/-- Segments 48 to 63 of g(t) = 1/(1+t). -/
def rcpRows3 : List (Int × Int × Int) := [
  (778690955, -564716386, 409539362), (774303963, -558371309, 402656493), (769966126, -552132572, 395926998), (765676621, -545997813, 389346630),
  (761434645, -539964735, 382911280), (757239413, -534031101, 376616975), (753090156, -528194740, 370459872), (748986122, -522453535, 364436253),
  (744926577, -516805430, 358542521), (740910800, -511248423, 352775192), (736938088, -505780565, 347130897), (733007752, -500399959, 341606372),
  (729119117, -495104758, 336198456), (725271522, -489893165, 330904091), (721464323, -484763429, 325720310), (717696885, -479713845, 320644241)]
/-- Segments 64 to 79 of g(t) = 1/(1+t). -/
def rcpRows4 : List (Int × Int × Int) := [
  (713968589, -474742750, 315673102), (710278829, -469848528, 310804194), (706627010, -465029601, 306034904), (703012550, -460284432, 301362697),
  (699434878, -455611523, 296785114), (695893435, -451009416, 292299774), (692387675, -446476687, 287904362), (688917060, -442011948, 283596638),
  (685481065, -437613847, 279374426), (682079174, -433281063, 275235613), (678710881, -429012310, 271178152), (675375693, -424806333, 267200052),
  (672073122, -420661905, 263299383), (668802693, -416577833, 259474271), (665563939, -412552950, 255722894), (662356402, -408586118, 252043485)]
/-- Segments 80 to 95 of g(t) = 1/(1+t). -/
def rcpRows5 : List (Int × Int × Int) := [
  (659179633, -404676226, 248434325), (656033191, -400822188, 244893747), (652916644, -397022947, 241420129), (649829567, -393277469, 238011896),
  (646771546, -389584743, 234667516), (643742171, -385943784, 231385500), (640741042, -382353629, 228164403), (637767766, -378813336, 225002817),
  (634821956, -375321988, 221899374), (631903234, -371878685, 218852743), (629011229, -368482550, 215861631), (626145574, -365132726, 212924779),
  (623305911, -361828375, 210040961), (620491889, -358568676, 207208987), (617703162, -355352830, 204427696), (614939389, -352180053, 201695959)]
/-- Segments 96 to 111 of g(t) = 1/(1+t). -/
def rcpRows6 : List (Int × Int × Int) := [
  (612200238, -349049579, 199012678), (609485381, -345960660, 196376783), (606794497, -342912563, 193787232), (604127268, -339904573, 191243012),
  (601483385, -336935988, 188743136), (598862542, -334006124, 186286640), (596264440, -331114310, 183872588), (593688784, -328259889, 181500068),
  (591135284, -325442221, 179168190), (588603655, -322660676, 176876088), (586093618, -319914640, 174622917), (583604898, -317203511, 172407853),
  (581137224, -314526701, 170230096), (578690330, -311883631, 168088862), (576263956, -309273737, 165983389), (573857843, -306696467, 163912935)]
/-- Segments 112 to 127 of g(t) = 1/(1+t). -/
def rcpRows7 : List (Int × Int × Int) := [
  (571471740, -304151280, 161876772), (569105397, -301637643, 159874196), (566758571, -299155040, 157904516), (564431020, -296702959, 155967059),
  (562122509, -294280905, 154061169), (559832804, -291888387, 152186206), (557561677, -289524928, 150341545), (555308903, -287190059, 148526576),
  (553074259, -284883321, 146740704), (550857529, -282604263, 144983350), (548658497, -280352446, 143253944), (546476952, -278127435, 141551935),
  (544312687, -275928808, 139876782), (542165497, -273756148, 138227957), (540035181, -271609050, 136604944), (537921540, -269487112, 135007242)]
/-- The table of g(t) = 1/(1+t). -/
def rcpTable : List (Int × Int × Int) := rcpRows0 ++ rcpRows1 ++ rcpRows2 ++ rcpRows3 ++ rcpRows4 ++ rcpRows5 ++ rcpRows6 ++ rcpRows7

/-- Segments 0 to 15 of g(t) = 1/√(1+t). -/
def rsqEvenRows0 : List (Int × Int × Int) := [
  (1071650796, -533740474, 398747747), (1067505129, -527570103, 391094439), (1063407206, -521517710, 383645212), (1059356116, -515580163, 376393123),
  (1055350975, -509754433, 369331514), (1051390920, -504037594, 362454000), (1047475111, -498426819, 355754458), (1043602731, -492919371, 349227008),
  (1039772984, -487512608, 342866010), (1035985091, -482203970, 336666044), (1032238298, -476990982, 330621908), (1028531865, -471871250, 324728602),
  (1024865073, -466842453, 318981320), (1021237220, -461902347, 313375444), (1017647623, -457048757, 307906531), (1014095614, -452279577, 302570309)]
/-- Segments 16 to 31 of g(t) = 1/√(1+t). -/
def rsqEvenRows1 : List (Int × Int × Int) := [
  (1010580540, -447592765, 297362668), (1007101767, -442986344, 292279650), (1003658674, -438458397, 287317448), (1000250655, -434007064, 282472394),
  (996877119, -429630543, 277740957), (993537488, -425327085, 273119734), (990231198, -421094994, 268605445), (986957697, -416932624, 264194930),
  (983716448, -412838378, 259885143), (980506924, -408810704, 255673144), (977328611, -404848098, 251556100), (974181007, -400949096, 247531275),
  (971063620, -397112279, 243596031), (967975969, -393336267, 239747820), (964917586, -389619719, 235984183), (961888010, -385961333, 232302746)]
/-- Segments 32 to 47 of g(t) = 1/√(1+t). -/
def rsqEvenRows2 : List (Int × Int × Int) := [
  (958886792, -382359842, 228701214), (955913492, -378814015, 225177371), (952967681, -375322656, 221729077), (950048937, -371884599, 218354260),
  (947156848, -368498713, 215050921), (944291011, -365163896, 211817124), (941451032, -361879075, 208650998), (938636523, -358643209, 205550735),
  (935847107, -355455281, 202514581), (933082412, -352314303, 199540844), (930342076, -349219313, 196627883), (927625743, -346169374, 193774110),
  (924933065, -343163572, 190977988), (922263700, -340201019, 188238028), (919617314, -337280849, 185552788), (916993578, -334402217, 182920871)]
/-- Segments 48 to 63 of g(t) = 1/√(1+t). -/
def rsqEvenRows3 : List (Int × Int × Int) := [
  (914392173, -331564301, 180340923), (911812782, -328766299, 177811632), (909255098, -326007430, 175331727), (906718816, -323286932, 172899975),
  (904203641, -320604061, 170515179), (901709282, -317958094, 168176182), (899235452, -315348323, 165881857), (896781872, -312774059, 163631115),
  (894348266, -310234629, 161422896), (891934367, -307729377, 159256174), (889539908, -305257663, 157129950), (887164630, -302818860, 155043256),
  (884808279, -300412360, 152995154), (882470604, -298037566, 150984730), (880151361, -295693895, 149011097), (877850307, -293380782, 147073394)]
/-- Segments 64 to 79 of g(t) = 1/√(1+t). -/
def rsqEvenRows4 : List (Int × Int × Int) := [
  (875567208, -291097669, 145170786), (873301830, -288844016, 143302458), (871053945, -286619293, 141467620), (868823329, -284422982, 139665505),
  (866609763, -282254579, 137895367), (864413030, -280113589, 136156479), (862232918, -277999530, 134448136), (860069218, -275911930, 132769650),
  (857921726, -273850327, 131120356), (855790241, -271814270, 129499603), (853674563, -269803319, 127906759), (851574500, -267817042, 126341209),
  (849489859, -265855017, 124802355), (847420453, -263916832, 123289615), (845366097, -262002083, 121802421), (843326610, -260110376, 120340222)]
/-- Segments 80 to 95 of g(t) = 1/√(1+t). -/
def rsqEvenRows5 : List (Int × Int × Int) := [
  (841301814, -258241324, 118902480), (839291532, -256394549, 117488672), (837295592, -254569681, 116098287), (835313824, -252766358, 114730829),
  (833346062, -250984226, 113385815), (831392141, -249222937, 112062773), (829451900, -247482152, 110761243), (827525180, -245761538, 109480778),
  (825611825, -244060770, 108220942), (823711680, -242379529, 106981309), (821824594, -240717501, 105761465), (819950420, -239074382, 104561005),
  (818089009, -237449871, 103379536), (816240218, -235843675, 102216672), (814403904, -234255505, 101072038), (812579929, -232685080, 99945269)]
/-- Segments 96 to 111 of g(t) = 1/√(1+t). -/
def rsqEvenRows6 : List (Int × Int × Int) := [
  (810768155, -231132124, 98836009), (808968445, -229596366, 97743907), (807180667, -228077540, 96668626), (805404690, -226575385, 95609833),
  (803640384, -225089648, 94567204), (801887622, -223620078, 93540425), (800146279, -222166429, 92529185), (798416231, -220728461, 91533185),
  (796697356, -219305939, 90552130), (794989536, -217898631, 89585733), (793292651, -216506310, 88633713), (791606586, -215128754, 87695798),
  (789931227, -213765744, 86771719), (788266459, -212417067, 85861214), (786612173, -211082512, 84964030), (784968259, -209761873, 84079916)]
/-- Segments 112 to 127 of g(t) = 1/√(1+t). -/
def rsqEvenRows7 : List (Int × Int × Int) := [
  (783334608, -208454948, 83208628), (781711115, -207161538, 82349928), (780097675, -205881448, 81503584), (778494183, -204614488, 80669367),
  (776900539, -203360468, 79847055), (775316643, -202119206, 79036431), (773742394, -200890520, 78237282), (772177696, -199674233, 77449399),
  (770622452, -198470169, 76672580), (769076568, -197278158, 75906626), (767539950, -196098031, 75151341), (766012506, -194929624, 74406536),
  (764494145, -193772773, 73672025), (762984777, -192627320, 72947624), (761484314, -191493108, 72233157), (759992668, -190369983, 71528448)]
/-- The table of g(t) = 1/√(1+t). -/
def rsqEvenTable : List (Int × Int × Int) := rsqEvenRows0 ++ rsqEvenRows1 ++ rsqEvenRows2 ++ rsqEvenRows3 ++ rsqEvenRows4 ++ rsqEvenRows5 ++ rsqEvenRows6 ++ rsqEvenRows7

/-- Segments 0 to 15 of g(t) = 1/√(2(1+t)). -/
def rsqOddRows0 : List (Int × Int × Int) := [
  (757771545, -377411509, 281957236), (754840116, -373048397, 276545530), (751942447, -368768709, 271278131), (749077893, -364570230, 266150130),
  (746245831, -360450816, 261156818), (743445649, -356408401, 256293682), (740676754, -352440983, 251556390), (737938568, -348546630, 246940786),
  (735230528, -344723471, 242442881), (732552083, -340969697, 238058843), (729902700, -337283558, 233784993), (727281856, -333663360, 229617796),
  (724689043, -330107464, 225553855), (722123764, -326614282, 221589901), (719585535, -323182275, 217722796), (717073885, -319809956, 213949517)]
/-- Segments 16 to 31 of g(t) = 1/√(2(1+t)). -/
def rsqOddRows1 : List (Int × Int × Int) := [
  (714588353, -316495880, 210267159), (712128489, -313238648, 206672922), (709693855, -310036906, 203164116), (707284021, -306889338, 199738145),
  (704898571, -303794670, 196392514), (702537095, -300751666, 193124816), (700199195, -297759126, 189932732), (697884480, -294815886, 186814027),
  (695592571, -291920817, 183766547), (693323095, -289072821, 180788214), (691075688, -286270835, 177877024), (688849996, -283513825, 175031043),
  (686645670, -280800785, 172248405), (684462372, -278130742, 169527309), (682299768, -275502745, 166866016), (680157534, -272915876, 164262847)]
/-- Segments 32 to 47 of g(t) = 1/√(2(1+t)). -/
def rsqOddRows2 : List (Int × Int × Int) := [
  (678035353, -270369237, 161716179), (675932912, -267861959, 159224446), (673849909, -265393195, 156786134), (671786046, -262962122, 154399778),
  (669741030, -260567939, 152063964), (667714578, -258209867, 149777325), (665706409, -255887148, 147538536), (663716251, -253599045, 145346318),
  (661743836, -251344840, 143199434), (659788901, -249123833, 141096684), (657851191, -246935344, 139036909), (655930453, -244778711, 137018987),
  (654026442, -242653289, 135041830), (652138916, -240558447, 133104386), (650267639, -238493575, 131205634), (648412378, -236458075, 129344588)]
/-- Segments 48 to 63 of g(t) = 1/√(2(1+t)). -/
def rsqOddRows3 : List (Int × Int × Int) := [
  (646572906, -234451365, 127520289), (644749001, -232472879, 125731811), (642940445, -230522064, 123978253), (641147024, -228598382, 122258745),
  (639368526, -226701306, 120572440), (637604748, -224830324, 118918519), (635855486, -222984938, 117296186), (634120543, -221164658, 115704671),
  (632399724, -219369010, 114143225), (630692839, -217597529, 112611120), (628999701, -215849763, 111107653), (627320126, -214125270, 109632138),
  (625653934, -212423617, 108183911), (624000948, -210744384, 106762326), (622360996, -209087159, 105366757), (620733905, -207451540, 103996595)]
/-- Segments 64 to 79 of g(t) = 1/√(2(1+t)). -/
def rsqOddRows4 : List (Int × Int × Int) := [
  (619119510, -205837136, 102651247), (617517646, -204243562, 101330140), (615928151, -202670446, 100032714), (614350868, -201117420, 98758426),
  (612785640, -199584127, 97506749), (611232315, -198070219, 96277170), (609690743, -196575353, 95069188), (608160777, -195099197, 93882320),
  (606642271, -193641423, 92716093), (605135082, -192201714, 91570047), (603639073, -190779756, 90443736), (602154103, -189375246, 89336725),
  (600680040, -187987885, 88248592), (599216749, -186617382, 87178923), (597764100, -185263450, 86127318), (596321965, -183925811, 85093387)]
/-- Segments 80 to 95 of g(t) = 1/√(2(1+t)). -/
def rsqOddRows5 : List (Int × Int × Int) := [
  (594890217, -182604191, 84076750), (593468733, -181298324, 83077036), (592057391, -180007948, 82093886), (590656069, -178732806, 81126947),
  (589264652, -177472648, 80175879), (587883021, -176227229, 79240346), (586511063, -174996308, 78320026), (585148667, -173779650, 77414601),
  (583795720, -172577026, 76523762), (582452115, -171388208, 75647209), (581117744, -170212978, 74784649), (579792502, -169051117, 73935796),
  (578476286, -167902414, 73100371), (577168993, -166766662, 72278102), (575870523, -165643656, 71468724), (574580778, -164533198, 70671978)]
/-- Segments 96 to 111 of g(t) = 1/√(2(1+t)). -/
def rsqOddRows6 : List (Int × Int × Int) := [
  (573299660, -163435092, 69887612), (572027073, -162349147, 69115380), (570762923, -161275175, 68355041), (569507118, -160212991, 67606361),
  (568259565, -159162417, 66869112), (567020175, -158123273, 66143069), (565788860, -157095388, 65428014), (564565531, -156078592, 64723736),
  (563350103, -155072717, 64030025), (562142492, -154077599, 63346679), (560942613, -153093080, 62673500), (559750385, -152119001, 62010293),
  (558565727, -151155207, 61356871), (557388559, -150201548, 60713047), (556218802, -149257876, 60078642), (555056379, -148324043, 59453479)]
/-- Segments 112 to 127 of g(t) = 1/√(2(1+t)). -/
def rsqOddRows7 : List (Int × Int × Int) := [
  (553901213, -147399907, 58837385), (552753230, -146485328, 58230193), (551612356, -145580168, 57631737), (550478516, -144684292, 57041856),
  (549351640, -143797566, 56460394), (548231656, -142919861, 55887196), (547118494, -142051049, 55322112), (546012085, -141191004, 54764995),
  (544912362, -140339602, 54215701), (543819257, -139496723, 53674090), (542732704, -138662248, 53140023), (541652637, -137836059, 52613366),
  (540578994, -137018042, 52093988), (539511710, -136208084, 51581760), (538450722, -135406075, 51076555), (537395969, -134611906, 50578250)]
/-- The table of g(t) = 1/√(2(1+t)). -/
def rsqOddTable : List (Int × Int × Int) := rsqOddRows0 ++ rsqOddRows1 ++ rsqOddRows2 ++ rsqOddRows3 ++ rsqOddRows4 ++ rsqOddRows5 ++ rsqOddRows6 ++ rsqOddRows7

/-- Segments 0 to 15 of g(t) = 2^t. -/
def exp2Rows0 : List (Int × Int × Int) := [
  (1076653033, 746279015, 258640597), (1082499153, 750331236, 260044990), (1088377016, 754405460, 261457009), (1094286796, 758501807, 262876695),
  (1100228665, 762620397, 264304089), (1106202798, 766761350, 265739234), (1112209370, 770924789, 267182172), (1118248556, 775110834, 268632945),
  (1124320536, 779319609, 270091595), (1130425485, 783551238, 271558166), (1136563583, 787805843, 273032700), (1142735011, 792083551, 274515240),
  (1148939949, 796384487, 276005831), (1155178580, 800708776, 277504515), (1161451085, 805056545, 279011337), (1167757650, 809427923, 280526341)]
/-- Segments 16 to 31 of g(t) = 2^t. -/
def exp2Rows1 : List (Int × Int × Int) := [
  (1174098458, 813823036, 282049571), (1180473697, 818242015, 283581073), (1186883552, 822684988, 285120890), (1193328213, 827152086, 286669068),
  (1199807867, 831643440, 288225653), (1206322705, 836159182, 289790690), (1212872918, 840699443, 291364224), (1219458698, 845264358, 292946303),
  (1226080238, 849854060, 294536973), (1232737732, 854468684, 296136279), (1239431376, 859108364, 297744270), (1246161366, 863773238, 299360992),
  (1252927899, 868463441, 300986493), (1259731174, 873179111, 302620820), (1266571390, 877920388, 304264021), (1273448747, 882687409, 305916144)]
/-- Segments 32 to 47 of g(t) = 2^t. -/
def exp2Rows2 : List (Int × Int × Int) := [
  (1280363448, 887480314, 307577239), (1287315695, 892299244, 309247353), (1294305692, 897144341, 310926535), (1301333643, 902015746, 312614836),
  (1308399756, 906913602, 314312303), (1315504238, 911838053, 316018988), (1322647296, 916789244, 317734940), (1329829140, 921767319, 319460209),
  (1337049980, 926772424, 321194846), (1344310030, 931804707, 322938903), (1351609500, 936864314, 324692429), (1358948606, 941951395, 326455477),
  (1366327563, 947066098, 328228098), (1373746586, 952208573, 330010344), (1381205894, 957378971, 331802267), (1388705706, 962577445, 333603921)]
/-- Segments 48 to 63 of g(t) = 2^t. -/
def exp2Rows3 : List (Int × Int × Int) := [
  (1396246240, 967804145, 335415357), (1403827719, 973059226, 337236629), (1411450365, 978342841, 339067791), (1419114401, 983655146, 340908896),
  (1426820052, 988996296, 342759997), (1434567544, 994366448, 344621150), (1442357104, 999765760, 346492409), (1450188960, 1005194389, 348373828),
  (1458063343, 1010652495, 350265464), (1465980482, 1016140238, 352167371), (1473940611, 1021657779, 354079605), (1481943963, 1027205280, 356002222),
  (1489990772, 1032782903, 357935279), (1498081275, 1038390812, 359878832), (1506215708, 1044029171, 361832938), (1514394310, 1049698147, 363797655)]
/-- Segments 64 to 79 of g(t) = 2^t. -/
def exp2Rows4 : List (Int × Int × Int) := [
  (1522617322, 1055397904, 365773041), (1530884983, 1061128610, 367759152), (1539197537, 1066890433, 369756048), (1547555228, 1072683543, 371763787),
  (1555958300, 1078508108, 373782427), (1564406999, 1084364301, 375812029), (1572901575, 1090252292, 377852651), (1581442275, 1096172254, 379904354),
  (1590029350, 1102124361, 381967197), (1598663052, 1108108787, 384041241), (1607343634, 1114125708, 386126547), (1616071351, 1120175301, 388223176),
  (1624846459, 1126257742, 390331189), (1633669214, 1132373210, 392450649), (1642539877, 1138521885, 394581617), (1651458706, 1144703946, 396724156)]
/-- Segments 80 to 95 of g(t) = 2^t. -/
def exp2Rows5 : List (Int × Int × Int) := [
  (1660425963, 1150919575, 398878329), (1669441912, 1157168955, 401044199), (1678506817, 1163452267, 403221829), (1687620943, 1169769698, 405411284),
  (1696784557, 1176121432, 407612627), (1705997930, 1182507655, 409825924), (1715261330, 1188928555, 412051238), (1724575029, 1195384319, 414288635),
  (1733939301, 1201875138, 416538182), (1743354420, 1208401201, 418799943), (1752820662, 1214962700, 421073985), (1762338305, 1221559827, 423360375),
  (1771907628, 1228192776, 425659180), (1781528911, 1234861742, 427970467), (1791202437, 1241566919, 430294305), (1800928489, 1248308504, 432630760)]
/-- Segments 96 to 111 of g(t) = 2^t. -/
def exp2Rows6 : List (Int × Int × Int) := [
  (1810707353, 1255086696, 434979902), (1820539314, 1261901693, 437341800), (1830424663, 1268753694, 439716523), (1840363688, 1275642901, 442104140),
  (1850356681, 1282569516, 444504722), (1860403934, 1289533742, 446918339), (1870505744, 1296535783, 449345061), (1880662405, 1303575844, 451784960),
  (1890874216, 1310654132, 454238108), (1901141476, 1317770854, 456704576), (1911464486, 1324926219, 459184437), (1921843549, 1332120438, 461677763),
  (1932278970, 1339353720, 464184627), (1942771053, 1346626278, 466705104), (1953320108, 1353938326, 469239267), (1963926443, 1361290077, 471787189)]
/-- Segments 112 to 127 of g(t) = 2^t. -/
def exp2Rows7 : List (Int × Int × Int) := [
  (1974590370, 1368681747, 474348947), (1985312200, 1376113554, 476924615), (1996092249, 1383585714, 479514269), (2006930832, 1391098448, 482117984),
  (2017828268, 1398651975, 484735837), (2028784876, 1406246517, 487367904), (2039800978, 1413882297, 490014264), (2050876895, 1421559538, 492674993),
  (2062012954, 1429278465, 495350169), (2073209480, 1437039306, 498039872), (2084466803, 1444842287, 500744179), (2095785251, 1452687638, 503463170),
  (2107165158, 1460575588, 506196926), (2118606857, 1468506369, 508945525), (2130110682, 1476480214, 511709049), (2141676973, 1484497355, 514487578)]
/-- The table of g(t) = 2^t. -/
def exp2Table : List (Int × Int × Int) := exp2Rows0 ++ exp2Rows1 ++ exp2Rows2 ++ exp2Rows3 ++ exp2Rows4 ++ exp2Rows5 ++ exp2Rows6 ++ exp2Rows7

/-- Segments 0 to 15 of g(t) = log2(1+t). -/
def log2Rows0 : List (Int × Int × Int) := [
  (6039314, 1543054448, -768525173), (18047761, 1531138970, -756701885), (29963836, 1519406104, -745149354), (41788947, 1507851685, -733859375),
  (53524472, 1496471672, -722824053), (65171760, 1485262147, -712035786), (76732128, 1474219306, -701487253), (88206862, 1463339458, -691171405),
  (99597222, 1452619023, -681081447), (110904440, 1442054521, -671210831), (122129721, 1431642575, -661553248), (133274244, 1421379904, -652102608),
  (144339162, 1411263321, -642853043), (155325606, 1401289729, -633798888), (166234679, 1391456116, -624934677), (177067464, 1381759558, -616255134)]
/-- Segments 16 to 31 of g(t) = log2(1+t). -/
def log2Rows1 : List (Int × Int × Int) := [
  (187825021, 1372197208, -607755165), (198508388, 1362766300, -599429850), (209118580, 1353464141, -591274437), (219656594, 1344288113, -583284334),
  (230123404, 1335235667, -575455102), (240519966, 1326304325, -567782454), (250847218, 1317491672, -560262239), (261106077, 1308795357, -552890448),
  (271297442, 1300213092, -545663199), (281422197, 1291742649, -538576740), (291481207, 1283381855, -531627435), (301475319, 1275128595, -524811769),
  (311405366, 1266980809, -518126337), (321272163, 1258936486, -511567842), (331076513, 1250993669, -505133090), (340819199, 1243150449, -498818989)]
/-- Segments 32 to 47 of g(t) = log2(1+t). -/
def log2Rows2 : List (Int × Int × Int) := [
  (350500993, 1235404963, -492622540), (360122651, 1227755397, -486540838), (369684916, 1220199979, -480571069), (379188517, 1212736982, -474710501),
  (388634168, 1205364721, -468956487), (398022572, 1198081550, -463306461), (407354420, 1190885865, -457757930), (416630388, 1183776099, -452308480),
  (425851141, 1176750722, -446955764), (435017334, 1169808240, -441697506), (444129607, 1162947194, -436531498), (453188592, 1156166161, -431455594),
  (462194908, 1149463748, -426467710), (471149164, 1142838597, -421565823), (480051959, 1136289379, -416747967), (488903880, 1129814795, -412012233)]
/-- Segments 48 to 63 of g(t) = log2(1+t). -/
def log2Rows3 : List (Int × Int × Int) := [
  (497705506, 1123413578, -407356765), (506457405, 1117084488, -402779759), (515160136, 1110826311, -398279462), (523814248, 1104637864, -393854169),
  (532420281, 1098517987, -389502222), (540978767, 1092465546, -385222011), (549490228, 1086479433, -381011966), (557955178, 1080558565, -376870562),
  (566374123, 1074701879, -372796316), (574747559, 1068908337, -368787782), (583075977, 1063176925, -364843556), (591359858, 1057506649, -360962269),
  (599599675, 1051896534, -357142590), (607795895, 1046345628, -353383220), (615948977, 1040853001, -349682898), (624059373, 1035417737, -346040392)]
/-- Segments 64 to 79 of g(t) = log2(1+t). -/
def log2Rows4 : List (Int × Int × Int) := [
  (632127527, 1030038943, -342454506), (640153876, 1024715745, -338924071), (648138853, 1019447283, -335447949), (656082880, 1014232719, -332025033),
  (663986377, 1009071230, -328654243), (671849754, 1003962008, -325334524), (679673418, 998904265, -322064851), (687457766, 993897226, -318844223),
  (695203192, 988940133, -315671663), (702910083, 984032241, -312546221), (710578822, 979172823, -309466966), (718209783, 974361163, -306432995),
  (725803337, 969596560, -303443422), (733359850, 964878329, -300497387), (740879680, 960205795, -297594048), (748363183, 955578297, -294732583)]
/-- Segments 80 to 95 of g(t) = log2(1+t). -/
def log2Rows5 : List (Int × Int × Int) := [
  (755810707, 950995188, -291912192), (763222597, 946455831, -289132092), (770599192, 941959604, -286391518), (777940826, 937505894, -283689727),
  (785247830, 933094102, -281025988), (792520529, 928723637, -278399592), (799759243, 924393924, -275809842), (806964289, 920104393, -273256061),
  (814135978, 915854488, -270737585), (821274617, 911643663, -268253767), (828380510, 907471380, -265803974), (835453956, 903337114, -263387587),
  (842495250, 899240347, -261004001), (849504683, 895180572, -258652626), (856482542, 891157288, -256332883), (863429109, 887170007, -254044208)]
/-- Segments 96 to 111 of g(t) = log2(1+t). -/
def log2Rows6 : List (Int × Int × Int) := [
  (870344666, 883218248, -251786048), (877229486, 879301537, -249557864), (884083842, 875419411, -247359127), (890908003, 871571414, -245189321),
  (897702233, 867757097, -243047940), (904466794, 863976020, -240934489), (911201944, 860227751, -238848486), (917907937, 856511864, -236789457),
  (924585025, 852827942, -234756939), (931233456, 849175574, -232750479), (937853475, 845554356, -230769632), (944445323, 841963892, -228813966),
  (951009239, 838403791, -226883056), (957545460, 834873670, -224976484), (964054218, 831373151, -223093844), (970535742, 827901865, -221234736)]
/-- Segments 112 to 127 of g(t) = log2(1+t). -/
def log2Rows7 : List (Int × Int × Int) := [
  (976990259, 824459445, -219398771), (983417995, 821045535, -217585566), (989819169, 817659780, -215794746), (996194001, 814301834, -214025944),
  (1002542707, 810971356, -212278801), (1008865499, 807668011, -210552964), (1015162589, 804391467, -208848089), (1021434185, 801141400, -207163837),
  (1027680492, 797917491, -205499877), (1033901713, 794719425, -203855885), (1040098049, 791546893, -202231541), (1046269699, 788399589, -200626536),
  (1052416858, 785277214, -199040561), (1058539720, 782179474, -197473319), (1064638476, 779106077, -195924514), (1070713315, 776056738, -194393860)]
/-- The table of g(t) = log2(1+t). -/
def log2Table : List (Int × Int × Int) := log2Rows0 ++ log2Rows1 ++ log2Rows2 ++ log2Rows3 ++ log2Rows4 ++ log2Rows5 ++ log2Rows6 ++ log2Rows7

/-- Segments 0 to 15 of g(t) = sin(πt/2). -/
def sinRows0 : List (Int × Int × Int) := [
  (6588356, 1686597963, -8128058), (19764076, 1686343967, -24382951), (32936819, 1685836015, -40634172), (46104602, 1685074181, -56879273),
  (59265442, 1684058582, -73115809), (72417357, 1682789370, -89341333), (85558366, 1681266735, -105553404), (98686491, 1679490909, -121749578),
  (111799753, 1677462157, -137927417), (124896179, 1675180785, -154084485), (137973796, 1672647137, -170218348), (151030634, 1669861595, -186326577),
  (164064728, 1666824578, -202406746), (177074115, 1663536543, -218456433), (190056834, 1659997986, -234473221), (203010932, 1656209439, -250454699)]
/-- Segments 16 to 31 of g(t) = sin(πt/2). -/
def sinRows1 : List (Int × Int × Int) := [
  (215934457, 1652171473, -266398459), (228825464, 1647884696, -282302100), (241682010, 1643349754, -298163228), (254502159, 1638567329, -313979454),
  (267283981, 1633538142, -329748395), (280025552, 1628262950, -345467677), (292724951, 1622742548, -361134934), (305380268, 1616977767, -376747804),
  (317989595, 1610969475, -392303938), (330551034, 1604718576, -407800993), (343062693, 1598226013, -423236634), (355522689, 1591492764, -438608537),
  (367929144, 1584519841, -453914387), (380280190, 1577308295, -469151879), (392573967, 1569859212, -484318719), (404808624, 1562173715, -499412623)]
/-- Segments 32 to 47 of g(t) = sin(πt/2). -/
def sinRows2 : List (Int × Int × Int) := [
  (416982319, 1554252960, -514431316), (429093217, 1546098140, -529372538), (441139496, 1537710483, -544234039), (453119340, 1529091253, -559013580),
  (465030947, 1520241747, -573708935), (476872522, 1511163299, -588317892), (488642281, 1501857275, -602838251), (500338453, 1492325076, -617267824),
  (511959275, 1482568139, -631604439), (523502998, 1472587933, -645845937), (534967884, 1462385960, -659990173), (546352205, 1451963758, -674035016),
  (557654248, 1441322895, -687978353), (568872310, 1430464974, -701818082), (580004702, 1419391630, -715552120), (591049748, 1408104531, -729178399)]
/-- Segments 48 to 63 of g(t) = sin(πt/2). -/
def sinRows3 : List (Int × Int × Int) := [
  (602005783, 1396605377, -742694866), (612871159, 1384895899, -756099486), (623644239, 1372977861, -769390240), (634323400, 1360853058, -782565127),
  (644907034, 1348523315, -795622163), (655393548, 1335990489, -808559380), (665781362, 1323256468, -821374832), (676068911, 1310323170, -834066588),
  (686254647, 1297192542, -846632736), (696337036, 1283866561, -859071384), (706314559, 1270347235, -871380660), (716185713, 1256636599, -883558708),
  (725949013, 1242736718, -895603696), (735602987, 1228649686, -907513810), (745146182, 1214377623, -919287255), (754577161, 1199922680, -930922259)]
/-- Segments 64 to 79 of g(t) = sin(πt/2). -/
def sinRows4 : List (Int × Int × Int) := [
  (763894504, 1185287033, -942417069), (773096806, 1170472886, -953769955), (782182683, 1155482470, -964979207), (791150767, 1140318043, -976043136),
  (799999706, 1124981888, -986960077), (808728167, 1109476314, -997728385), (817334838, 1093803658, -1008346439), (825818421, 1077966279, -1018812640),
  (834177638, 1061966562, -1029125411), (842411232, 1045806917, -1039283200), (850517961, 1029489777, -1049284477), (858496606, 1013017600, -1059127735),
  (866345964, 996392866, -1068811492), (874064853, 979618079, -1078334291), (881652112, 962695766, -1087694696), (889106597, 945628473, -1096891298)]
/-- Segments 80 to 95 of g(t) = sin(πt/2). -/
def sinRows5 : List (Int × Int × Int) := [
  (896427186, 928418773, -1105922713), (903612776, 911069256, -1114787579), (910662286, 893582535, -1123484563), (917574653, 875961245, -1132012354),
  (924348837, 858208037, -1140369669), (930983817, 840325587, -1148555247), (937478595, 822316587, -1156567858), (943832191, 804183749, -1164406294),
  (950043650, 785929803, -1172069374), (956112036, 767557500, -1179555945), (962036435, 749069605, -1186864879), (967815955, 730468903, -1193995076),
  (973449725, 711758196, -1200945462), (978936898, 692940300, -1207714989), (984276646, 674018050, -1214302639), (989468165, 654994295, -1220707420)]
/-- Segments 96 to 111 of g(t) = sin(πt/2). -/
def sinRows6 : List (Int × Int × Int) := [
  (994510675, 635871900, -1226928367), (999403415, 616653746, -1232964542), (1004145648, 597342725, -1238815038), (1008736660, 577941747, -1244478973),
  (1013175761, 558453733, -1249955494), (1017462281, 538881619, -1255243776), (1021595575, 519228350, -1260343023), (1025575020, 499496888, -1265252467),
  (1029400018, 479690203, -1269971368), (1033069992, 459811279, -1274499017), (1036584389, 439863108, -1278834731), (1039942680, 419848696, -1282977857),
  (1043144360, 399771057, -1286927771), (1046188946, 379633213, -1290683878), (1049075980, 359438198, -1294245614), (1051805027, 339189053, -1297612440)]
/-- Segments 112 to 127 of g(t) = sin(πt/2). -/
def sinRows7 : List (Int × Int × Int) := [
  (1054375676, 318888827, -1300783851), (1056787540, 298540577, -1303759369), (1059040255, 278147369, -1306538546), (1061133483, 257712273, -1309120962),
  (1063066909, 237238366, -1311506230), (1064840240, 216728732, -1313693990), (1066453210, 196186459, -1315683912), (1067905576, 175614641, -1317475697),
  (1069197120, 155016377, -1319069075), (1070327646, 134394767, -1320463806), (1071296985, 113752919, -1321659680), (1072104991, 93093939, -1322656517),
  (1072751542, 72420940, -1323454167), (1073236540, 51737034, -1324052510), (1073559913, 31045338, -1324451455), (1073721611, 10348965, -1324650942)]
/-- The table of g(t) = sin(πt/2). -/
def sinTable : List (Int × Int × Int) := sinRows0 ++ sinRows1 ++ sinRows2 ++ sinRows3 ++ sinRows4 ++ sinRows5 ++ sinRows6 ++ sinRows7

/-- Segments 0 to 15 of g(t) = cos(πt/2). -/
def cosRows0 : List (Int × Int × Int) := [
  (1073721611, -10348965, -1324650942), (1073559913, -31045338, -1324451455), (1073236540, -51737034, -1324052510), (1072751542, -72420940, -1323454167),
  (1072104991, -93093939, -1322656517), (1071296985, -113752919, -1321659680), (1070327646, -134394767, -1320463806), (1069197120, -155016377, -1319069075),
  (1067905576, -175614641, -1317475697), (1066453210, -196186459, -1315683912), (1064840240, -216728732, -1313693990), (1063066909, -237238366, -1311506230),
  (1061133483, -257712273, -1309120962), (1059040255, -278147369, -1306538546), (1056787540, -298540577, -1303759369), (1054375676, -318888827, -1300783851)]
/-- Segments 16 to 31 of g(t) = cos(πt/2). -/
def cosRows1 : List (Int × Int × Int) := [
  (1051805027, -339189053, -1297612440), (1049075980, -359438198, -1294245614), (1046188946, -379633213, -1290683878), (1043144360, -399771057, -1286927771),
  (1039942680, -419848696, -1282977857), (1036584389, -439863108, -1278834731), (1033069992, -459811279, -1274499017), (1029400018, -479690203, -1269971368),
  (1025575020, -499496888, -1265252467), (1021595575, -519228350, -1260343023), (1017462281, -538881619, -1255243776), (1013175761, -558453733, -1249955494),
  (1008736660, -577941747, -1244478973), (1004145648, -597342725, -1238815038), (999403415, -616653746, -1232964542), (994510675, -635871900, -1226928367)]
/-- Segments 32 to 47 of g(t) = cos(πt/2). -/
def cosRows2 : List (Int × Int × Int) := [
  (989468165, -654994295, -1220707420), (984276646, -674018050, -1214302639), (978936898, -692940300, -1207714989), (973449725, -711758196, -1200945462),
  (967815955, -730468903, -1193995076), (962036435, -749069605, -1186864879), (956112036, -767557500, -1179555945), (950043650, -785929803, -1172069374),
  (943832191, -804183749, -1164406294), (937478595, -822316587, -1156567858), (930983817, -840325587, -1148555247), (924348837, -858208037, -1140369669),
  (917574653, -875961245, -1132012354), (910662286, -893582535, -1123484563), (903612776, -911069256, -1114787579), (896427186, -928418773, -1105922713)]
/-- Segments 48 to 63 of g(t) = cos(πt/2). -/
def cosRows3 : List (Int × Int × Int) := [
  (889106597, -945628473, -1096891298), (881652112, -962695766, -1087694696), (874064853, -979618079, -1078334291), (866345964, -996392866, -1068811492),
  (858496606, -1013017600, -1059127735), (850517961, -1029489777, -1049284477), (842411232, -1045806917, -1039283200), (834177638, -1061966562, -1029125411),
  (825818421, -1077966279, -1018812640), (817334838, -1093803658, -1008346439), (808728167, -1109476314, -997728385), (799999706, -1124981888, -986960077),
  (791150767, -1140318043, -976043136), (782182683, -1155482470, -964979207), (773096806, -1170472886, -953769955), (763894504, -1185287033, -942417069)]
/-- Segments 64 to 79 of g(t) = cos(πt/2). -/
def cosRows4 : List (Int × Int × Int) := [
  (754577161, -1199922680, -930922259), (745146182, -1214377623, -919287255), (735602987, -1228649686, -907513810), (725949013, -1242736718, -895603696),
  (716185713, -1256636599, -883558708), (706314559, -1270347235, -871380660), (696337036, -1283866561, -859071384), (686254647, -1297192542, -846632736),
  (676068911, -1310323170, -834066588), (665781362, -1323256468, -821374832), (655393548, -1335990489, -808559380), (644907034, -1348523315, -795622163),
  (634323400, -1360853058, -782565127), (623644239, -1372977861, -769390240), (612871159, -1384895899, -756099486), (602005783, -1396605377, -742694866)]
/-- Segments 80 to 95 of g(t) = cos(πt/2). -/
def cosRows5 : List (Int × Int × Int) := [
  (591049748, -1408104531, -729178399), (580004702, -1419391630, -715552120), (568872310, -1430464974, -701818082), (557654248, -1441322895, -687978353),
  (546352205, -1451963758, -674035016), (534967884, -1462385960, -659990173), (523502998, -1472587933, -645845937), (511959275, -1482568139, -631604439),
  (500338453, -1492325076, -617267824), (488642281, -1501857275, -602838251), (476872522, -1511163299, -588317892), (465030947, -1520241747, -573708935),
  (453119340, -1529091253, -559013580), (441139496, -1537710483, -544234039), (429093217, -1546098140, -529372538), (416982319, -1554252960, -514431316)]
/-- Segments 96 to 111 of g(t) = cos(πt/2). -/
def cosRows6 : List (Int × Int × Int) := [
  (404808624, -1562173715, -499412623), (392573967, -1569859212, -484318719), (380280190, -1577308295, -469151879), (367929144, -1584519841, -453914387),
  (355522689, -1591492764, -438608537), (343062693, -1598226013, -423236634), (330551034, -1604718576, -407800993), (317989595, -1610969475, -392303938),
  (305380268, -1616977767, -376747804), (292724951, -1622742548, -361134934), (280025552, -1628262950, -345467677), (267283981, -1633538142, -329748395),
  (254502159, -1638567329, -313979454), (241682010, -1643349754, -298163228), (228825464, -1647884696, -282302100), (215934457, -1652171473, -266398459)]
/-- Segments 112 to 127 of g(t) = cos(πt/2). -/
def cosRows7 : List (Int × Int × Int) := [
  (203010932, -1656209439, -250454699), (190056834, -1659997986, -234473221), (177074115, -1663536543, -218456433), (164064728, -1666824578, -202406746),
  (151030634, -1669861595, -186326577), (137973796, -1672647137, -170218348), (124896179, -1675180785, -154084485), (111799753, -1677462157, -137927417),
  (98686491, -1679490909, -121749578), (85558366, -1681266735, -105553404), (72417357, -1682789370, -89341333), (59265442, -1684058582, -73115809),
  (46104602, -1685074181, -56879273), (32936819, -1685836015, -40634172), (19764076, -1686343967, -24382951), (6588356, -1686597963, -8128058)]
/-- The table of g(t) = cos(πt/2). -/
def cosTable : List (Int × Int × Int) := cosRows0 ++ cosRows1 ++ cosRows2 ++ cosRows3 ++ cosRows4 ++ cosRows5 ++ cosRows6 ++ cosRows7

/-- K · 2^200 of R135: the integer part of 2^200 / 2π. -/
def twoPiK : Nat := 255752132986241185678408580023709873616295664310550962376831

end Sys2Proof.Machine
end

