-- ==== Sys2Proof/Machine/Special.lean ====
section
/-! DEFINITION. Opcodes 0x70, 0x71 and 0x74 to 0x79: the special functions, evaluated from the table ROM (R134 to R136). -/

namespace Sys2Proof.Machine

/-- The core value of a table at a 32-bit fraction, times 2^62 (R134). -/
def core62 (table : List (Int × Int × Int)) (u : Nat) : Int :=
  let c := table.getD (u / 2 ^ 25) (0, 0, 0)
  let h : Int := (u % 2 ^ 25 : Nat) - 2 ^ 24
  c.1 * 2 ^ 32 + c.2.1 * h + c.2.2 * (h * h / 2 ^ 32)
/-- A core value with a sign and a power of two, as an exact value. -/
def coreExact (neg : Bool) (y e : Int) : Exact := { neg := neg != decide (y < 0), m := y.natAbs, e := e - 62 }
/-- e and the fraction u of M · 2^32 of a normalised x = M · 2^e (R135). -/
def normal (m : Nat) (e : Int) : Int × Nat :=
  let k := Nat.log2 m
  (e + k, m * 2 ^ 32 / 2 ^ k - 2 ^ 32)
/-- floor(x · 2^32) of ±m · 2^e. -/
def fixed32 (x e : Int) : Int := if -32 ≤ e then x * 2 ^ (e + 32).toNat else x / 2 ^ (-(e + 32)).toNat
/-- Whether ±m · 2^e is an integer. -/
def isIntegral (m : Nat) (e : Int) : Bool := decide (0 ≤ e) || m % 2 ^ (-e).toNat == 0
/-- floor(x) and floor(f · 2^32) of x (R135); floors beyond ±4096 count as ±4096, where every result is out of range. -/
def expParts (x e : Int) : Int × Nat :=
  let y := fixed32 x e
  (max (-4096) (min 4096 (y / 2 ^ 32)), (y % 2 ^ 32).toNat)
/-- E of R135 for a value z: y · 2^(k − 62), as (y, k). -/
def expOf (z : Fp) : Int × Int :=
  match z with
  | .fin n m e => let p := expParts (if n then -(m : Int) else m) e; (core62 exp2Table p.2, p.1)
  | .inf false => (2 ^ 62, 4096)
  | _ => (0, 0)
/-- L of R135. -/
def bigL : Exact := fp32.unpack false 0x3FB8AA3B |>.exact
/-- z := RNE_FP32(± m · 2^e · L). -/
def timesL (neg : Bool) (m : Nat) (e : Int) : Fp := fp32.unpack false (fp32.round {} { neg := neg, m := m * bigL.m, e := e + bigL.e }).1
/-- Rounds a value that is not the exact function value, so that NX is set whatever the rounding (R136). -/
def Fmt.inexactly (f : Fmt) (v : Env) (x : Exact) : Nat × Nat := let r := f.round v x; (r.1, r.2 ||| fNX)
/-- 1.0 with a sign. -/
def Fmt.one (f : Fmt) (neg : Bool) : Nat := (f.round {} { neg := neg, m := 1 }).1
/-- Whether a finite magnitude is below a power of two. -/
def below2 (m : Nat) (e k : Int) : Bool := m == 0 || decide ((Nat.log2 m : Int) + e < k)

/-- 1/x. -/
def Fmt.rcp (f : Fmt) (v : Env) : Fp → Nat × Nat
  | .nan q => (f.nan, if q then fNV else 0)
  | .inf n => (f.zero n, 0)
  | .fin n 0 _ => (f.inf n, fDZ)
  | .fin n m e =>
    let r := normal m e
    if r.2 = 0 then f.round v { neg := n, m := 1, e := -r.1 } else f.round v (coreExact n (core62 rcpTable r.2) (-r.1))
/-- 1/√x. -/
def Fmt.rsq (f : Fmt) (v : Env) : Fp → Nat × Nat
  | .nan q => (f.nan, if q then fNV else 0)
  | .inf n => if n then (f.nan, fNV) else (f.zero false, 0)
  | .fin n 0 _ => (f.inf n, fDZ)
  | .fin true _ _ => (f.nan, fNV)
  | .fin false m e =>
    let r := normal m e
    let half := r.1 / 2
    if r.1 % 2 = 0 then
      if r.2 = 0 then f.round v { m := 1, e := -half } else f.round v (coreExact false (core62 rsqEvenTable r.2) (-half))
    else f.round v (coreExact false (core62 rsqOddTable r.2) (-half))
/-- 2^x. -/
def Fmt.exp2 (f : Fmt) (v : Env) : Fp → Nat × Nat
  | .nan q => (f.nan, if q then fNV else 0)
  | .inf n => if n then (f.zero false, 0) else (f.inf false, 0)
  | .fin n m e =>
    let p := expParts (if n then -(m : Int) else m) e
    if isIntegral m e then f.round v { m := 1, e := p.1 } else f.round v (coreExact false (core62 exp2Table p.2) p.1)
/-- log2 x. -/
def Fmt.log2 (f : Fmt) (v : Env) : Fp → Nat × Nat
  | .nan q => (f.nan, if q then fNV else 0)
  | .inf n => if n then (f.nan, fNV) else (f.inf false, 0)
  | .fin _ 0 _ => (f.inf true, fDZ)
  | .fin true _ _ => (f.nan, fNV)
  | .fin false m e =>
    let r := normal m e
    if r.2 = 0 then f.round v (ofSigned false r.1 0) else f.round v (ofSigned false (r.1 * 2 ^ 62 + core62 log2Table r.2) (-62))
/-- The quadrant and the fraction within it of x · K (R135). -/
def quadrant (n : Bool) (m : Nat) (e : Int) : Nat × Nat :=
  let u := ((fixed32 ((if n then -1 else 1) * (m * twoPiK : Nat)) (e - 200)) % 2 ^ 32).toNat
  (u / 2 ^ 30, u * 4 % 2 ^ 32)
/-- sin x. -/
def Fmt.sin (f : Fmt) (v : Env) : Fp → Nat × Nat
  | .nan q => (f.nan, if q then fNV else 0)
  | .inf _ => (f.nan, fNV)
  | .fin n 0 _ => (f.zero n, 0)
  | .fin n m e =>
    if below2 m e (-12) then f.inexactly v { neg := n, m := m, e := e }
    else
      let q := quadrant n m e
      match q.1 with
      | 0 => f.round v (coreExact false (core62 sinTable q.2) 0)
      | 1 => f.round v (coreExact false (core62 cosTable q.2) 0)
      | 2 => f.round v (coreExact true (core62 sinTable q.2) 0)
      | _ => f.round v (coreExact true (core62 cosTable q.2) 0)
/-- cos x. -/
def Fmt.cos (f : Fmt) (v : Env) : Fp → Nat × Nat
  | .nan q => (f.nan, if q then fNV else 0)
  | .inf _ => (f.nan, fNV)
  | .fin _ 0 _ => (f.one false, 0)
  | .fin n m e =>
    if below2 m e (-12) then (f.one false, fNX)
    else
      let q := quadrant n m e
      match q.1 with
      | 0 => f.round v (coreExact false (core62 cosTable q.2) 0)
      | 1 => f.round v (coreExact true (core62 sinTable q.2) 0)
      | 2 => f.round v (coreExact true (core62 cosTable q.2) 0)
      | _ => f.round v (coreExact false (core62 sinTable q.2) 0)
/-- tanh x. -/
def Fmt.tanh (f : Fmt) (v : Env) : Fp → Nat × Nat
  | .nan q => (f.nan, if q then fNV else 0)
  | .inf n => (f.one n, 0)
  | .fin n 0 _ => (f.zero n, 0)
  | .fin n m e =>
    if below2 m e (-12) then f.inexactly v { neg := n, m := m, e := e }
    else if 0 ≤ Fp.order (.fin false m e) (.fin false 19 (-1)) then (f.one n, fNX)
    else
      -- E = y · 2^(k - 62) with k < 0
      let p := expOf (timesL true (2 * m) e)
      let one := (2 ^ (62 - p.2).toNat : Int)
      f.round v (quotient (n != decide (one < p.1)) (one - p.1).natAbs (one + p.1).toNat 0)
/-- 1/(1 + e^-x). -/
def Fmt.sig (f : Fmt) (v : Env) : Fp → Nat × Nat
  | .nan q => (f.nan, if q then fNV else 0)
  | .inf n => if n then (f.zero false, 0) else (f.one false, 0)
  | .fin _ 0 _ => f.round v { m := 1, e := -1 }
  | .fin n m e =>
    if !n && decide (0 ≤ Fp.order (.fin false m e) (.fin false 18 0)) then (f.one false, fNX)
    else
      let p := expOf (timesL (!n) m e)
      if p.2 ≤ 62 then
        let one := 2 ^ (62 - p.2).toNat
        f.round v (quotient false one (one + p.1.toNat) 0)
      else f.round v (quotient false 1 (1 + p.1.toNat * 2 ^ (p.2 - 62).toNat) 0)

/-- A special function on the elements under ET: each is widened exactly, evaluated, and rounded once to nearest even (R134). -/
def State.special (s : State) (d a : BitVec 6) (w : BitVec 2) (u x : Bool) (f : Fmt → Env → Fp → Nat × Nat) : Out :=
  .next (s.una s.floatET d a w u x 1 clsLONG false fun s _ p =>
    s.unrounded (fun t ftz x _ => f t { ftz := ftz } (t.unpack ftz x)) p 0)
/-- FRCP (R135, R136). -/
def execFrcp (d a : BitVec 6) (w : BitVec 2) (u x : Bool) (s : State) : Out := s.special d a w u x Fmt.rcp
/-- FRSQ. -/
def execFrsq (d a : BitVec 6) (w : BitVec 2) (u x : Bool) (s : State) : Out := s.special d a w u x Fmt.rsq
/-- FEXP2. -/
def execFexp2 (d a : BitVec 6) (w : BitVec 2) (u x : Bool) (s : State) : Out := s.special d a w u x Fmt.exp2
/-- FLOG2. -/
def execFlog2 (d a : BitVec 6) (w : BitVec 2) (u x : Bool) (s : State) : Out := s.special d a w u x Fmt.log2
/-- FSIN. -/
def execFsin (d a : BitVec 6) (w : BitVec 2) (u x : Bool) (s : State) : Out := s.special d a w u x Fmt.sin
/-- FCOS. -/
def execFcos (d a : BitVec 6) (w : BitVec 2) (u x : Bool) (s : State) : Out := s.special d a w u x Fmt.cos
/-- FTANH. -/
def execFtanh (d a : BitVec 6) (w : BitVec 2) (u x : Bool) (s : State) : Out := s.special d a w u x Fmt.tanh
/-- FSIG. -/
def execFsig (d a : BitVec 6) (w : BitVec 2) (u x : Bool) (s : State) : Out := s.special d a w u x Fmt.sig

end Sys2Proof.Machine
end

