-- ==== Sys2Proof/Machine/Matrix.lean ====
section
/-! DEFINITION. Opcodes 0xD8 to 0xE1: gangs, K-steps, drains and tile registers, and the matrix engine that performs them (R60 to R77,
R191 to R206). -/

namespace Sys2Proof.Machine

/-! ### Formats and BX headers (R60 to R65) -/

/-- A matrix operand format. -/
inductive MatFmt where
  | flt (f : Fmt)
  | int (n : Nat)
  | bx (n : Nat)
  deriving DecidableEq, Repr
/-- The format codes of R60. -/
def matFmt (c : Nat) : Option MatFmt :=
  match c with
  | 0 => some (.flt bf16) | 1 => some (.flt fp16) | 2 => some (.flt e4m3) | 3 => some (.flt e5m2) | 4 => some (.flt e3m2)
  | 5 => some (.flt e2m1) | 6 => some (.int 8) | 7 => some (.int 4) | 8 => some (.bx 8) | 9 => some (.bx 4)
  | _ => none
/-- Bits of an element; a slice of 32 elements has as many registers (R62). -/
def MatFmt.bits : MatFmt → Nat
  | .flt f => f.width
  | .int n => n
  | .bx n => n
/-- Whether the class is integer. -/
def MatFmt.isInt : MatFmt → Bool
  | .int _ => true
  | _ => false
/-- Whether the format has block headers. -/
def MatFmt.isBx : MatFmt → Bool
  | .bx _ => true
  | _ => false
/-- Registers of a slice of a format code. -/
def sliceRegs (c : Nat) : Nat := ((matFmt c).map MatFmt.bits).getD 0
/-- A signed byte. -/
def signed8 (b : Nat) : Int := if b < 128 then b else (b : Int) - 256
/-- A block header as R64 reads it: the two exponents, `none` for a zero block or selector, and whether it was clamped. -/
def bxHeader (h : Nat) : Option Int × Option Int × Bool :=
  let e0 := signed8 (h % 256)
  let e1 := signed8 (h / 256 % 256)
  if e0 = -128 then (none, none, false)
  else if e1 = -128 then (some e0, none, false)
  else if e0 - 15 ≤ e1 && decide (e1 ≤ e0) then (some e0, some e1, false)
  else (some e0, some (e0 - 15), true)
/-- A BX element (R65). -/
def bxValue (n : Nat) (hd : Option Int × Option Int × Bool) (x : Nat) : Fp :=
  let m := x % 2 ^ (n - 2)
  let neg := x / 2 ^ (n - 2) % 2 == 1
  match if x / 2 ^ (n - 1) % 2 = 1 then hd.2.1 else hd.1 with
  | some e => .fin neg m e
  | none => .fin false 0 0
/-- A slice of 32 elements as numbers, its stream given as one number (R62). -/
def elements (n stream : Nat) : List Nat := (List.range 32).map fun k => stream / 2 ^ (n * k) % 2 ^ n
/-- The value of an element; an integer has its value at exponent 0. -/
def MatFmt.value (f : MatFmt) (hdr x : Nat) : Fp :=
  match f with
  | .flt f => f.unpack false x
  | .int n => let v := (BitVec.ofNat n x).toInt; .fin (decide (v < 0)) v.natAbs 0
  | .bx n => bxValue n (bxHeader hdr) x
/-- Whether a header is clamped. -/
def MatFmt.clamps (f : MatFmt) (hdr : Nat) : Bool := f.isBx && (bxHeader hdr).2.2

/-! ### The fused K-step (R69 to R72) -/

/-- MSF bits (R68). -/
def mBXCLAMP : Nat := 1
/-- A K-step saturated INT40. -/
def mASAT : Nat := 2
/-- A K-step overflowed E40. -/
def mAOF : Nat := 4
/-- A K-step produced NaN. -/
def mANV : Nat := 8
/-- A drain was inexact. -/
def mDNX : Nat := 16
/-- A drain overflowed. -/
def mDOF : Nat := 32
/-- A drain met an invalid case. -/
def mDNV : Nat := 64
/-- Every exponent of a product or an accumulator element is at least this. -/
def sumScale : Int := -300
/-- The exact significand of a finite value at the common scale. -/
def Fp.scaled : Fp → Int
  | .fin n m e => signedAt n m e sumScale
  | _ => 0
/-- One element of the float class: start value and the 32 products (R69 to R71). -/
def stepFloat (c : Nat) (a b : List Fp) : BitVec 40 × Nat :=
  let c := e40.unpack false c
  let ps := (a.zip b).map fun (x : Fp × Fp) => Fp.mul x.1 x.2
  let nan := c.isNan || ps.any fun p => match p with | .nan _ => true | _ => false
  let infs := (if c.isInf then [c.neg] else []) ++ ps.filterMap fun p => match p with | .inf n _ => some n | _ => none
  if nan || (infs.contains true && infs.contains false) then (BitVec.ofNat 40 e40.nan, mANV)
  else match infs with
    | n :: _ => (BitVec.ofNat 40 (e40.inf n), 0)
    | [] =>
      let sum := ps.foldl (fun (t : Int) p => match p with | .exact x => t + signedAt x.neg x.m x.e sumScale | _ => t) c.scaled
      let r := e40.round {} (ofSigned false sum sumScale)
      (BitVec.ofNat 40 r.1, if r.2 / fOF % 2 = 1 then mAOF else 0)
/-- An integer clamped to INT40 (R67, R72). -/
def clamp40 (x : Int) : BitVec 40 × Nat :=
  if x < -(2 ^ 39) then (BitVec.ofInt 40 (-(2 ^ 39)), mASAT)
  else if 2 ^ 39 - 1 < x then (BitVec.ofInt 40 (2 ^ 39 - 1), mASAT) else (BitVec.ofInt 40 x, 0)
/-- One element of the integer class. -/
def stepInt (c : BitVec 40) (a b : List Fp) : BitVec 40 × Nat :=
  let v := fun (x : Fp) => match x with | .fin n m _ => (if n then -(m : Int) else m) | _ => 0
  clamp40 ((a.zip b).foldl (fun (t : Int) (x : Fp × Fp) => t + v x.1 * v x.2) c.toInt)

/-! ### The drain of one element (R74, R75, R202) -/

/-- R50, R51 and R77 flags as MSF flags. -/
def drainFlags (f : Nat) : Nat :=
  (if f / fNX % 2 = 1 then mDNX else 0) + (if f / fOF % 2 = 1 then mDOF else 0) + (if f / fNV % 2 = 1 then mDNV else 0)
/-- z := c × rs × cs + b, rounded once to FP32 (R74). -/
def drainSum (c rs cs b : Fp) : Nat × Nat :=
  let zero := c.isZero || rs.isZero || cs.isZero
  let inf := c.isInf || rs.isInf || cs.isInf
  let neg := (c.neg != rs.neg) != cs.neg
  if c.isNan || rs.isNan || cs.isNan || b.isNan || (zero && inf) || (inf && b.isInf && b.neg != neg) then (fp32.nan, fNV)
  else if inf then (fp32.inf neg, 0)
  else match c, rs, cs, b with
    | _, _, _, .inf n => (fp32.inf n, 0)
    | .fin _ m1 e1, .fin _ m2 e2, .fin _ m3 e3, .fin nb mb eb => fp32.round {} (addFin 0 neg (m1 * m2 * m3) (e1 + e2 + e3) nb mb eb)
    | _, _, _, _ => (fp32.nan, fNV)
/-- The activations of R202 on an FP32 value. -/
def activate (act : Nat) (y : Nat) : Nat × Nat :=
  let v := fp32.unpack false y
  if v.isNan then (y, 0)
  else match act with
    | 1 => (if v.neg then 0 else y, 0)
    | 2 => (if v.neg then 0 else if 0 < Fp.order v (.fin false 6 0) then 0x40C00000 else y, 0)
    | 3 => fp32.tanh {} v
    | 4 => fp32.sig {} v
    | _ => (y, 0)
/-- Bits of an output format of a drain (R201). -/
def drainBits (ofmt : Nat) : Nat :=
  match ofmt with
  | 8 => 32 | 9 => 8 | 10 => 4
  | c => (floatCode c).width
/-- The output conversion under the descriptor's rounding mode (R76, R77). -/
def drainConvert (ofmt orm y : Nat) : Nat × Nat :=
  if ofmt < 7 then convertFloat fp32 (floatCode ofmt) { rm := orm } y
  else
    let r := convertToInt fp32 true (drainBits ofmt) { rm := orm } y
    ((r.1 % 2 ^ drainBits ofmt).toNat, r.2)
/-- One output element and its flags. -/
def drainElement (d : DrainDesc) (c : BitVec 40) (rs cs b : Nat) : Nat × Nat :=
  let x : Fp := if d.icls then .fin (decide (c.toInt < 0)) c.toInt.natAbs 0 else e40.unpack false c.toNat
  let f := fun w => fp32.unpack false w
  let y := drainSum x (f rs) (f cs) (f b)
  let a := activate d.act y.1
  let o := drainConvert d.ofmt d.orm a.1
  (o.1, orFlags [drainFlags y.2, drainFlags a.2, drainFlags o.2])

/-! ### Checks at issue (R190, R194, R201) -/

/-- A block of 32 bytes in the issuing team's scratchpad: wholly in the window, aligned, sound. -/
def State.blockAt (s : State) (va : Nat) : Option Cause :=
  let team := s.me.team
  if va < scrBase || decide (scrBase + s.myTeam.scr * 1024 < va + 32) then some { code := 0x05, mask := s.active, vaddr := BitVec.ofNat 64 va }
  else if va % 32 ≠ 0 then some { code := 0x04, mask := s.active, vaddr := BitVec.ofNat 64 va }
  else if (List.range 4).any fun k => s.poisoned (.scr team (va - scrBase + 8 * k)) then
    some { code := 0x0D, detail := 2, mask := s.active }
  else none
/-- Bytes of a team's scratchpad as its groups see them. -/
def Team.scrBytes (t : Team) (o n : Nat) : List Byte := Memory.bytes t.scratch o n
/-- An address fault of a referenced scratchpad range (R190). -/
def State.scrRange (s : State) (o n : Nat) : Option Cause :=
  if s.myTeam.scr * 1024 < o + n then some { code := 0x05, mask := s.active, vaddr := BitVec.ofNat 64 (scrBase + o) } else none
/-- The first of several causes. -/
def firstCause (cs : List (Option Cause)) : Option Cause := cs.findSome? id
/-- The fields of a format block. -/
def parseBlock (bs : List Byte) : FormatBlock :=
  { orgRow := natAt bs 0 1, orgCol := natAt bs 1 1, n := natAt bs 2 1 + 1, fmtA := natAt bs 3 1 % 16, fmtB := natAt bs 3 1 / 16
    bOff := natAt bs 4 4, bStr := natAt bs 8 4, aHdr := natAt bs 12 4, bHdr := natAt bs 16 4 }
/-- The format checks of R61 and R194 for M rows and slice base b. -/
def blockLegal (sparse : Bool) (m b : Nat) (bs : List Byte) : Bool :=
  let f := parseBlock bs
  match matFmt f.fmtA, matFmt f.fmtB with
  | some fa, some fb =>
    (bs.drop 20).all (· == 0) && fa.isInt == fb.isInt
      && decide (f.orgRow + m ≤ 128) && decide (f.orgCol + f.n ≤ 128)
      && (if sparse then f.bOff % 4 == 0 && decide (f.n ≤ f.bStr / 2 ^ 16)
          else f.bOff % 8 == 0 && f.bStr % 8 == 0 && decide (4 * fb.bits ≤ f.bStr) && decide (f.bStr ≤ 0xFFF8))
      && decide (b + fa.bits ≤ 48)
  | _, _ => false
/-- Offset of the chunk table entries of an MMASP (R198). -/
def FormatBlock.tableAt (f : FormatBlock) : Nat := f.bOff + 4 * ((f.bStr % 2 ^ 16 / 4) * (f.bStr / 2 ^ 16))
/-- The set bits of a 128-bit bitmap. -/
def onesOf (bm : Nat) : Nat := ((List.range 128).filter fun e => bm / 2 ^ e % 2 == 1).length
/-- The scratchpad ranges a K-step references (R194, R198), and whether its chunk offsets are aligned. -/
def State.blockRanges (s : State) (sparse : Bool) (m : Nat) (f : FormatBlock) : Option Cause :=
  let bitsB := sliceRegs f.fmtB
  let bx := fun (c : Nat) => ((matFmt c).map MatFmt.isBx).getD false
  let hdr := fun (c o n : Nat) => if bx c then s.scrRange o (2 * n) else none
  let odd := fun (o : Nat) => ({ code := 0x04, mask := s.active, vaddr := BitVec.ofNat 64 (scrBase + o) } : Cause)
  let al := fun (c o : Nat) => if bx c && o % 2 != 0 then some (odd o) else none
  let headers := [hdr f.fmtA f.aHdr m, hdr f.fmtB f.bHdr f.n, al f.fmtA f.aHdr, al f.fmtB f.bHdr]
  if !sparse then firstCause (s.scrRange f.bOff ((f.n - 1) * f.bStr + 4 * bitsB) :: headers)
  else match s.scrRange f.tableAt (4 * f.n) with
    | some c => some c
    | none =>
      let t := s.myTeam
      let offs := (List.range f.n).map fun j => leNat (t.scrBytes (f.tableAt + 4 * j) 4)
      let chunk := fun o => match s.scrRange o 16 with
        | some c => some c
        | none => s.scrRange o (16 + (bitsB * onesOf (leNat (t.scrBytes o 16)) + 7) / 8)
      firstCause (offs.map chunk ++ headers ++ [(offs.find? (· % 4 != 0)).map odd])
/-- The format block of a K-step over M rows, read and checked. -/
def State.readBlock (s : State) (sparse : Bool) (m b va : Nat) : Except Cause FormatBlock :=
  match s.blockAt va with
  | some c => .error c
  | none =>
    let bs := s.myTeam.scrBytes (va - scrBase) 32
    if !blockLegal sparse m b bs then .error { code := 0x06, mask := s.active }
    else match s.blockRanges sparse m (parseBlock bs) with
      | some c => .error c
      | none => .ok (parseBlock bs)

/-! ### The engine queue (R197) -/

/-- Whether the issuing team's engine queue is full. -/
def State.queueFull (s : State) : Bool := decide (8 ≤ s.myTeam.matQueue.length)
/-- Queues an operation of the issuing team; while an uncorrectable error awaits its report it is discarded (R200). -/
def State.enqueue (s : State) (k : MatKind) : State :=
  s.setMyTeam fun t =>
    if t.matPoisoned.isSome then { t with matSeq := t.matSeq + 1 }
    else { t with matSeq := t.matSeq + 1, matQueue := t.matQueue ++ [{ seq := t.matSeq + 1, kind := k, seen := t.scratch }] }
/-- Raises the uncorrectable error that the engine consumed, in the first MMWAIT, DRAIN, TLD or TST after it (R200), with its XMASK (R323). -/
def State.orPoison (s : State) (mask : LaneMask) (k : State → State) : State :=
  match s.myTeam.matPoisoned with
  | none => k s
  | some kind => (s.setMyTeam fun t => { t with matPoisoned := none }).fail { code := 0x0D, detail := kind, mask := mask }
/-- An operation without a wait of its own: it enters the queue once there is room. -/
def State.queueOp (s : State) (k : MatKind) (d : Done) : State :=
  if s.queueFull then s.block .engineRoom else (s.enqueue k).retire d

/-! ### Gangs (R191 to R193) -/

/-- Groups of a gang mask. -/
def gangMembers (mask : Word) : List Nat := (List.range 32).filter fun k => bit mask k
/-- The gang the issuing group belongs to, and its rank. -/
def State.gangOf (s : State) : Option (Nat × Nat) :=
  let ms := gangMembers s.myTeam.gang
  if 2 ≤ ms.length && ms.contains s.me.index then some (ms.length, (ms.filter (· < s.me.index)).length) else none
/-- GANG (R191). -/
def execGang (a : BitVec 6) (w : BitVec 2) (s : State) : Out :=
  .next (s.checked (decide ((gangMembers (s.rs a.toNat)).length ≤ 6) && decide ((s.rs a.toNat).toNat < 2 ^ s.myTeam.groups)) true
    [.s a.toNat] fun s =>
      if s.myTeam.latch ≠ [] then s.block .gangLatchFree
      else (s.setMyTeam fun t => { t with gang := s.rs a.toNat }).retire { stall := stallOf w })
/-- A cause raised in every member that waits at the latch, each at its own word; the latch is emptied (R193, R194). -/
def State.latchFault (s : State) (c : Cause) : State :=
  let waiting := s.myTeam.latch
  (s.setMyTeam fun t => { t with latch := [] }).fail c |> fun s =>
    waiting.foldl (State.raiseArrival · c ·) s
/-- What a member's word differs in from the first arrival's (R193). -/
def mismatch (x y : GangArrival) : Option Nat :=
  if bits x.word 24 8 ≠ bits y.word 24 8 then some 2 else if x.word ≠ y.word then some 0 else if x.block ≠ y.block then some 1 else none

/-! ### K-steps (R192 to R196) -/

/-- The slice registers' words of a lane. -/
def State.sliceOf (s : State) (b n lane : Nat) : List Word := (List.range n).map fun j => s.me.vlane (b + j) lane
/-- A slice of the collector; a lane it holds nothing for has open words (log entry 28). -/
def State.fromCollector (s : State) (c : List (List Word)) (k : Nat) : List Word :=
  let x := c.getD k []
  (List.range 16).map fun j => x.getD j (Config.uncollected (s.free * 4096 + k * 16 + j))
/-- The A format that the block at an address names, where it can be read: which registers are slice registers (R196). -/
def State.peekRegs (s : State) (va : Nat) : Nat :=
  match s.blockAt va with
  | some { code := 0x05, .. } => 0
  | _ => sliceRegs (natAt (s.myTeam.scrBytes (va - scrBase) 32) 3 1 % 16)
/-- The kinds of K-step. -/
inductive StepKind where
  | dense | sparse | zero
  deriving DecidableEq, Repr
/-- A K-step of a group that issues alone (R195, R196). -/
def State.stepAlone (s : State) (k : StepKind) (b : Nat) (reuse : Bool) (va : Nat) : State :=
  let w := s.me.width.lanes
  match s.readBlock (k == .sparse) w b va with
  | .error c => s.fail c
  | .ok f =>
    if s.queueFull then s.block .engineRoom
    else
      let n := sliceRegs f.fmtA
      let fresh := (List.range 64).map fun l => if s.active.getLsbD l then s.sliceOf b n l else []
      let rows := (lanesOf s.active).map fun l =>
        (f.orgRow + l, match s.me.collector with
          | some c => s.fromCollector c l
          | none => s.sliceOf b n l)
      let s1 := s.enqueue (.kstep (k == .zero) (k == .sparse) f rows)
      let s2 := s1.withMe fun g => { g with collector := if reuse then (match g.collector with | some c => some c | none => some fresh) else none }
      s2.retire { beats := if s.me.collector.isSome then 1 else beatsOf s.active }
/-- The release of the latch: one operation of every member (R192 to R194). -/
def State.gangRelease (s : State) (k : StepKind) (b : Nat) (reuse : Bool) (all : List GangArrival) (beats : Nat) : State :=
  let w := s.me.width.lanes
  match s.readBlock (k == .sparse) (w * all.length) b ((all.headD {}).block.toNat) with
  | .error c => s.latchFault c
  | .ok f =>
    let n := sliceRegs f.fmtA
    let t := s.myTeam
    let own := fun (x : GangArrival) l => (x.slices.getD l []).take n
    let coll := fun (x : GangArrival) l => match t.gangCollector with
      | some c => s.fromCollector ((List.range (64 * 6)).map fun i => lookD c i []) (x.rank * w + l)
      | none => own x l
    let rows := all.flatMap fun x => (lanesOf x.active).map fun l => (f.orgRow + x.rank * w + l, coll x l)
    let fresh := all.flatMap fun x => (lanesOf x.active).map fun l => (x.rank * w + l, own x l)
    let s1 := s.enqueue (.kstep (k == .zero) (k == .sparse) f rows)
    let s2 := s1.setMyTeam fun t => { t with
      latch := [], gangCollector := if reuse then (match t.gangCollector with | some c => some c | none => some fresh) else none }
    let s3 := (all.filter fun x => x.group != s.me.seq).foldl (fun s x => s.grant x.group x.path 0 []) s2
    s3.retire { beats := beats }
/-- A K-step of a gang member: it arrives at the latch; the last one releases it (R193). -/
def State.stepGang (s : State) (k : StepKind) (b : Nat) (reuse : Bool) (va : Nat) (rank size : Nat) : State :=
  let t := s.myTeam
  let beats := if t.gangCollector.isSome then 1 else beatsOf s.active
  let me : GangArrival := { group := s.me.seq, path := s.me.cur, word := s.me.ir, block := BitVec.ofNat 64 va, rank := rank, active := s.active,
                            slices := (List.range 64).map fun l => if s.active.getLsbD l then s.sliceOf b (min 16 (48 - b)) l else [] }
  -- an arrival that a save has captured (R287) is that of the instruction issued again
  let others := t.latch.filter fun x => !(x.group == s.me.seq && x.path == s.me.cur)
  if others.any (·.group == s.me.seq) then s.block .gangLatchFree
  else match (others.head?).bind fun x => mismatch x me with
    | some d => s.latchFault { code := 0x07, detail := d, mask := s.active }
    | none =>
      let all := others ++ [me]
      if all.length < size then
        let s1 := (s.setMyTeam fun t => { t with latch := all }).block .gangRelease
        -- its collection takes a beat per active lane
        (s1.withMe fun g => { g with clk := g.clk + (beats - 1), busyTo := g.busyTo + (beats - 1) }).setMyTeam fun t =>
          { t with beats := t.beats + (beats - 1) }
      else if s.queueFull then s.block .engineRoom
      else s.gangRelease k b reuse all beats
/-- MMA, MMASP and MMAZ. -/
def State.kstep (s : State) (k : StepKind) (a b : BitVec 6) (e : Bool) : Out :=
  .next (if s.answer.isSome then s.retire {}
    else
      let va := (s.rpair a.toNat).toNat
      let collected := match s.gangOf with
        | some _ => s.myTeam.gangCollector.isSome
        | none => s.me.collector.isSome
      let regs := if collected then [] else (List.range (min (s.peekRegs va) (48 - b.toNat))).map fun j => Use.v (b.toNat + j)
      s.checked (even a && vr b) false ([.s a.toNat, .s (a.toNat + 1)] ++ regs) fun s =>
        match s.gangOf with
        | some (size, rank) => s.stepGang k b.toNat e va rank size
        | none => s.stepAlone k b.toNat e va)
/-- MMA (R195). -/
def execMma (a b : BitVec 6) (e : Bool) (s : State) : Out := s.kstep .dense a b e
/-- MMASP (R195, R198). -/
def execMmasp (a b : BitVec 6) (e : Bool) (s : State) : Out := s.kstep .sparse a b e
/-- MMAZ (R195). -/
def execMmaz (a b : BitVec 6) (e : Bool) (s : State) : Out := s.kstep .zero a b e

/-! ### Drains (R201, R202) -/

/-- The fields of a drain descriptor; `d` is the register base of the register form. -/
def parseDrain (bs : List Byte) : DrainDesc :=
  let f := natAt bs 6 1
  let one := fun k => fieldAt f k 1 == 1
  { orgRow := natAt bs 0 1, orgCol := natAt bs 1 1, rows := natAt bs 2 1 + 1, cols := natAt bs 3 1 + 1
    orm := fieldAt (natAt bs 4 1) 4 3, ofmt := natAt bs 4 1 % 16, act := natAt bs 5 1
    icls := one 4, clr := one 3, hasB := one 2, hasC := one 1, hasR := one 0
    dst := natAt bs 8 4, pitch := natAt bs 12 4, rsc := natAt bs 16 4, csc := natAt bs 20 4, bias := natAt bs 24 4 }
/-- The format checks of R201 and R75; OFMT has its own codes, so 0xA is INT4 there, although R61 names DRAIN too (DEDUCED, log entry 143). -/
def drainLegal (bs : List Byte) : Bool :=
  let d := parseDrain bs
  decide (natAt bs 4 1 < 128) && decide (d.orm ≤ 4) && (decide (d.ofmt ≤ 6) || decide (8 ≤ d.ofmt) && decide (d.ofmt ≤ 10))
    && decide (d.act ≤ 4) && decide (natAt bs 6 1 < 32) && natAt bs 7 1 == 0 && natAt bs 28 4 == 0
    && decide (d.orgRow + d.rows ≤ 128) && decide (d.orgCol + d.cols ≤ 128)
/-- Registers of one drained row. -/
def DrainDesc.regs (d : DrainDesc) : Nat := (d.cols * drainBits d.ofmt + 31) / 32
/-- The drain descriptor at an address, read and checked; `reg` is the register base of the register form. -/
def State.readDrain (s : State) (reg : Option Nat) (va : Nat) : Except Cause DrainDesc :=
  match s.blockAt va with
  | some c => .error c
  | none =>
    let bs := s.myTeam.scrBytes (va - scrBase) 32
    let d := parseDrain bs
    let runOk := match reg with
      | some v => decide (v + d.regs ≤ 48)
      | none => true
    if !(drainLegal bs && runOk) then .error { code := 0x06, mask := s.active }
    else
      let used := fun (b : Bool) o n => if b then s.scrRange o n else none
      let aligned := fun (o : Nat) => if o % 4 = 0 then none else some ({ code := 0x04, mask := s.active, vaddr := BitVec.ofNat 64 (scrBase + o) } : Cause)
      let out := if reg.isSome then [] else [s.scrRange d.dst ((d.rows - 1) * d.pitch + (d.cols * drainBits d.ofmt + 7) / 8)]
      let outAl := if reg.isSome then [] else [aligned d.dst, aligned d.pitch]
      match firstCause (out ++ [used d.hasR d.rsc (4 * d.rows), used d.hasC d.csc (4 * d.cols), used d.hasB d.bias (4 * d.cols)]
          ++ outAl ++ [aligned d.rsc, aligned d.csc, aligned d.bias]) with
      | some c => .error c
      | none => .ok d
/-- DRAIN to memory (R201). -/
def execDrain (a : BitVec 6) (s : State) : Out :=
  .next (s.checked (even a) true [.s a.toNat, .s (a.toNat + 1)] fun s => s.orPoison s.exm fun s =>
    match s.readDrain none (s.rpair a.toNat).toNat with
    | .error c => s.raise { c with mask := s.exm }
    | .ok d => s.queueOp (.drainMem d) {})
/-- Takes a result that the engine has delivered: per lane its number and its words. -/
def State.takeResult (s : State) (d n : Nat) (data : List Word) : State :=
  let names := (List.range n).map (d + ·)
  if !State.rowsFor [] names s then s.noRows [] names
  else
    let ls := (List.range (data.length / (n + 1))).map fun i => ((data.getD (i * (n + 1)) 0).toNat, (data.drop (i * (n + 1) + 1)).take n)
    let act := maskOf fun l => ls.any (·.1 == l)
    let res := (List.range 64).map fun l => ((ls.find? (·.1 == l)).map (·.2)).getD []
    ((State.allocRows names s).writeResults act res 0 names).retire { beats := beatsOf s.active }
/-- Issues an operation whose result the instruction waits for. -/
def State.queueAndWait (s : State) (k : MatKind) : State :=
  if s.queueFull then s.block .engineRoom
  else
    let s := s.enqueue k
    s.block (.matrixDone s.myTeam.matSeq)
/-- Whether the path waits for a result of the engine: the operation is in its queue. -/
def State.awaiting (s : State) : Bool :=
  match s.path.wait with
  | some (.matrixDone _) => true
  | _ => false
/-- DRAIN to registers (R201, R202): its lanes and the rectangle's rows they receive. -/
def execDrainReg (d a : BitVec 6) (s : State) : Out :=
  .next (match s.answer with
    | some (n, data) => s.takeResult d.toNat n data
    | none =>
      if s.awaiting then s.orPoison s.active fun s => s.block .engineRoom
      else s.checked (vr d && even a) false [.s a.toNat, .s (a.toNat + 1)] fun s => s.orPoison s.active fun s =>
        match s.readDrain (some d.toNat) (s.rpair a.toNat).toNat with
        | .error c => s.raise c
        | .ok dd =>
          let first := (s.gangOf.map fun x => x.2 * s.me.width.lanes).getD 0
          let lanes := (lanesOf s.active).filterMap fun l => if first + l < dd.rows then some (l, first + l) else none
          if !State.rowsFor [] ((List.range dd.regs).map (d.toNat + ·)) s then s.noRows [] ((List.range dd.regs).map (d.toNat + ·))
          else s.queueAndWait (.drainReg dd s.me.seq s.me.cur lanes))
/-- MMWAIT (R197, R200). -/
def execMmwait (w : BitVec 2) (s : State) : Out :=
  .next (s.checked true true [] fun s =>
    let n := match s.path.wait with
      | some (.matrixDone k) => k
      | _ => s.myTeam.matSeq
    if s.myTeam.matQueue.any fun m => decide (m.seq ≤ n) then s.block (.matrixDone n)
    else s.orPoison s.exm fun s => (s.acquire 1).retire { stall := stallOf w })

/-! ### Tile registers (R203, R204) -/

/-- Lanes of a slice: the active ones below 32. -/
def State.tileLanes (s : State) : List Nat := (lanesOf s.active).filter (· < 32)
/-- The slice index (R204). -/
def State.sliceIndex (s : State) (b : BitVec 6) (q : BitVec 4) : Nat := (s.rs b.toNat).toNat + q.toNat
/-- TLD (R204). -/
def execTld (d a b : BitVec 6) (q : BitVec 4) (i c : Bool) (s : State) : Out :=
  .next (s.checked (small d 8 && vr a && decide (s.sliceIndex b q ≤ 31)) false [.s b.toNat, .v a.toNat] fun s => s.orPoison s.active fun s =>
    s.queueOp (.tld d.toNat c i (s.sliceIndex b q) (s.tileLanes.map fun l => (l, s.me.vlane a.toNat l))) { beats := beatsOf s.active })
/-- TST (R204). -/
def execTst (d a b : BitVec 6) (q : BitVec 4) (i c : Bool) (s : State) : Out :=
  .next (match s.answer with
    | some (n, data) => s.takeResult d.toNat n data
    | none =>
      if s.awaiting then s.orPoison s.active fun s => s.block .engineRoom
      else s.checked (vr d && small a 8 && decide (s.sliceIndex b q ≤ 31)) false [.s b.toNat] fun s => s.orPoison s.active fun s =>
        if !State.rowsFor [] [d.toNat] s then s.noRows [] [d.toNat]
        else s.queueAndWait (.tst a.toNat c i (s.sliceIndex b q) s.me.seq s.me.cur s.tileLanes))
/-- TORG (R203). -/
def execTorg (d a b : BitVec 6) (s : State) : Out :=
  .next (s.checked (small d 8 && decide ((s.rs a.toNat).toNat ≤ 96) && decide ((s.rs b.toNat).toNat ≤ 96)) true [.s a.toNat, .s b.toNat] fun s =>
    s.queueOp (.torg d.toNat (s.rs a.toNat).toNat (s.rs b.toNat).toNat) {})
/-- TZERO (R203). -/
def execTzero (d : BitVec 6) (w : BitVec 2) (s : State) : Out :=
  .next (s.checked (small d 8) true [] fun s => s.queueOp (.tzero d.toNat) { stall := stallOf w })
/-- TZERO all (R203). -/
def execTzeroAll (w : BitVec 2) (s : State) : Out :=
  .next (s.checked true true [] fun s => s.queueOp .tzeroAll { stall := stallOf w })

/-! ### The matrix engine (R197 to R200, R202 to R204) -/

/-- An accumulator element. -/
def Team.element (t : Team) (row col : Nat) : BitVec 40 := lookD t.acc (128 * row + col) 0
/-- The team with an element written; a zero element is not listed. -/
def Team.setElement (t : Team) (row col : Nat) (v : BitVec 40) : Team :=
  { t with acc := if v = 0 then drop (128 * row + col) t.acc else put (128 * row + col) v t.acc }
/-- The number of the protection word of an accumulator element on its tile. -/
def Team.elementWord (t : Team) (row col : Nat) : Nat := t.ctx * 2 ^ 20 + 128 * row + col
/-- Rows and columns of a rectangle. -/
def cellsOf (r c m n : Nat) : List (Nat × Nat) := (List.range m).flatMap fun i => (List.range n).map fun j => (r + i, c + j)
/-- A scratchpad byte as the engine reads it: written since issue, it is its old or its new value (R199); beyond the scratchpad it is
open. -/
def Team.engineByte (t : Team) (seen : List Host.Cell) (free o : Nat) : Byte :=
  if t.scr * 1024 ≤ o then (Config.uncollected (free + o)).setWidth 8
  else if Config.engineSees free o then Memory.get t.scratch o else Memory.get seen o
/-- `n` bytes of the scratchpad as the engine reads them, as a number. -/
def Team.engineNat (t : Team) (seen : List Host.Cell) (free o n : Nat) : Nat := leNat ((List.range n).map fun k => t.engineByte seen free (o + k))
/-- Whether a header says that its whole block is zero (R64, case 1). -/
def zeroBlock (hdr : Nat) : Bool := (bxHeader hdr).1.isNone
/-- The B slice of a column as a stream, with the scratchpad ranges that this K-step consumes of it (R194, R198, R200): the elements of a
zero block are not fetched (R64). -/
def FormatBlock.column (f : FormatBlock) (read : Nat → Nat → Nat) (sparse unread : Bool) (j : Nat) : List Nat × List (Nat × Nat) :=
  let n := sliceRegs f.fmtB
  let fetched := fun (r : Nat × Nat) => if unread || r.2 = 0 then [] else [r]
  if !sparse then (elements n (read (f.bOff + j * f.bStr) (4 * n)), fetched (f.bOff + j * f.bStr, 4 * n))
  else
    let at_ := f.tableAt + 4 * j
    let o := read at_ 4
    let bm := read o 16
    let first := 32 * (f.bStr % 2 ^ 16 % 4)
    let els := (List.range 32).map fun k =>
      let e := first + k
      if bm / 2 ^ e % 2 = 1 then
        let bitAt := n * onesOf (bm % 2 ^ e)
        (read (o + 16 + bitAt / 8) 3) / 2 ^ (bitAt % 8) % 2 ^ n
      else 0
    let lo := n * onesOf (bm % 2 ^ first)
    let hi := n * onesOf (bm % 2 ^ (first + 32))
    (els, [(at_, 4), (o, 4 + first / 8)] ++ fetched (o + 16 + lo / 8, (hi + 7) / 8 - lo / 8))
/-- Abandons an operation that consumed an uncorrectable word: what is queued after it is discarded too (R200). -/
def State.abandon (s : State) (id kind : Nat) : State :=
  s.setTeam id fun t => { t with matQueue := [], matPoisoned := some kind, spStep := 0 }
/-- Whether a scratchpad range of a team holds an uncorrectable word. -/
def State.scrStruck (s : State) (team o n : Nat) : Bool := (wordsOf (.scr team o) n).any fun w => s.poisoned w.1
/-- Whether an accumulator element of a team is uncorrectable. -/
def State.accStruck (s : State) (t : Team) (x : Nat × Nat) : Bool := s.struck 6 t.tile (t.elementWord x.1 x.2)
/-- Writes elements and MSF flags; a written element's word is sound. -/
def State.writeElements (s : State) (id : Nat) (vs : List ((Nat × Nat) × BitVec 40)) (fl : Nat) : State :=
  let t := s.team id
  let s := s.setTeam id fun t => { vs.foldl (fun t v => t.setElement v.1.1 v.1.2 v.2) t with msf := t.msf ||| BitVec.ofNat 32 fl }
  if s.errors.isEmpty then s else vs.foldl (fun s v => s.unstrike 6 t.tile (t.elementWord v.1.1 v.1.2)) s
/-- A K-step, or one sub-tile of an MMASP (R195, R198): the elements it writes, its flags and whether it is finished. -/
def State.performStep (s : State) (id : Nat) (zero sparse : Bool) (f : FormatBlock) (rows : List (Nat × List Word)) (seen : List Host.Cell) : State :=
  let t := s.team id
  let read := t.engineNat seen s.free
  match matFmt f.fmtA, matFmt f.fmtB with
  | some fa, some fb =>
    let hdrA := fun row => if fa.isBx then read (f.aHdr + 2 * (row - f.orgRow)) 2 else 0
    let hdrB := fun j => if fb.isBx then read (f.bHdr + 2 * j) 2 else 0
    let subs := (f.n + 31) / 32
    let height := (rows.map fun r => r.1 + 1 - f.orgRow).foldl max 0
    let all := (height + 31) / 32 * subs
    -- the sub-tile that this operation of an MMASP covers
    let cols := ((List.range f.n).filter fun j => !sparse || j / 32 == t.spStep % subs).map fun j =>
      (j, f.column read sparse (fb.isBx && zeroBlock (hdrB j)) j)
    let mine := rows.filter fun r => !sparse || (r.1 - f.orgRow) / 32 == t.spStep / subs
    let ranges := cols.flatMap (·.2.2) ++ (if fa.isBx then mine.map fun r => (f.aHdr + 2 * (r.1 - f.orgRow), 2) else [])
      ++ (if fb.isBx then cols.map fun c => (f.bHdr + 2 * c.1, 2) else [])
    if s.errors != [] && ranges.any fun r => s.scrStruck id r.1 r.2 then s.abandon id 2
    else if s.errors != [] && !zero && mine.any fun r => cols.any fun c => s.accStruck t (r.1, f.orgCol + c.1) then s.abandon id 6
    else
      let res := mine.flatMap fun r =>
        let a := (elements fa.bits (leNat (r.2.flatMap fun w => leBytes 4 w.toNat))).map (fa.value (hdrA r.1))
        cols.map fun c =>
          let b := c.2.1.map (fb.value (hdrB c.1))
          let old := if zero then 0 else t.element r.1 (f.orgCol + c.1)
          ((r.1, f.orgCol + c.1), if fa.isInt then stepInt old a b else stepFloat old.toNat a b)
      let clamped := (mine.any fun r => fa.clamps (hdrA r.1)) || (mine != [] && cols.any fun c => fb.clamps (hdrB c.1))
      let fl := orFlags (res.map (·.2.2)) ||| (if clamped then mBXCLAMP else 0)
      let s1 := s.writeElements id (res.map fun x => (x.1, x.2.1)) fl
      s1.setTeam id fun t =>
        if sparse && decide (t.spStep + 1 < all) then { t with spStep := t.spStep + 1 }
        else { t with spStep := 0, matQueue := t.matQueue.drop 1 }
  | _, _ => s.setTeam id fun t => { t with matQueue := t.matQueue.drop 1 }
/-- The outputs of a drain in the rectangle's rows: encodings per column, and the flags. -/
def State.drainRows (s : State) (t : Team) (d : DrainDesc) (seen : List Host.Cell) (rows : List Nat) : List (Nat × List Nat) × Nat :=
  let word := fun (has : Bool) o k dflt => if has then t.engineNat seen s.free (o + 4 * k) 4 else dflt
  let one := 0x3F800000
  let out := rows.map fun i => (i, (List.range d.cols).map fun j =>
    drainElement d (t.element (d.orgRow + i) (d.orgCol + j)) (word d.hasR d.rsc i one) (word d.hasC d.csc j one) (word d.hasB d.bias j 0))
  (out.map fun x => (x.1, x.2.map (·.1)), orFlags (out.flatMap fun x => x.2.map (·.2)))
/-- A stream of n-bit elements as a number. -/
def streamOf (n : Nat) : List Nat → Nat
  | [] => 0
  | x :: xs => x + 2 ^ n * streamOf n xs
/-- What a drain consumes: the kind of an uncorrectable word among what it reads. -/
def State.drainStruck (s : State) (id : Nat) (d : DrainDesc) (rows : List Nat) : Option Nat :=
  let t := s.team id
  let used := fun (b : Bool) o n => b && s.scrStruck id o n
  if s.errors.isEmpty then none
  else if used d.hasR d.rsc (4 * d.rows) || used d.hasC d.csc (4 * d.cols) || used d.hasB d.bias (4 * d.cols) then some 2
  else if rows.any fun i => (List.range d.cols).any fun j => s.accStruck t (d.orgRow + i, d.orgCol + j) then some 6
  else none
/-- CLR (R202). -/
def State.drainClear (s : State) (id : Nat) (d : DrainDesc) : State :=
  if d.clr then s.writeElements id ((cellsOf d.orgRow d.orgCol d.rows d.cols).map fun x => (x, 0)) 0 else s
/-- Takes the head of a team's queue off. -/
def State.popMatrix (s : State) (id : Nat) : State := s.setTeam id fun t => { t with matQueue := t.matQueue.drop 1 }
/-- The element of a slice of a tile register (R204). -/
def Team.tileCell (t : Team) (n : Nat) (col : Bool) (q e : Nat) : Nat × Nat :=
  let o := (t.origins[n]?).getD (0, 0)
  if col then (o.1 + e, o.2 + q) else (o.1 + q, o.2 + e)
/-- An E40 element as FP32, an INT40 element as INT32 (R204), with the flags. -/
def tileWord (int : Bool) (x : BitVec 40) : Word × Nat :=
  if int then
    let v := x.toInt
    if v < -(2 ^ 31) then (BitVec.ofInt 32 (-(2 ^ 31)), mDOF) else if 2 ^ 31 - 1 < v then (BitVec.ofInt 32 (2 ^ 31 - 1), mDOF) else (BitVec.ofInt 32 v, 0)
  else
    let one : Fp := .fin false 1 0
    let r := drainSum (e40.unpack false x.toNat) one one (.fin false 0 0)
    (BitVec.ofNat 32 r.1, drainFlags r.2)
/-- An FP32 word as E40, an INT32 word as INT40 (R204). -/
def tileElement (int : Bool) (w : Word) : BitVec 40 :=
  if int then w.signExtend 40
  else match fp32.unpack false w.toNat with
    | .nan _ => BitVec.ofNat 40 e40.nan
    | .inf n => BitVec.ofNat 40 (e40.inf n)
    | .fin n m e => BitVec.ofNat 40 (e40.round {} { neg := n, m := m, e := e }).1
/-- Performs the oldest operation of a team's queue. -/
def State.performMatrix (s : State) (id : Nat) : State :=
  let t := s.team id
  match t.matQueue with
  | [] => s
  | m :: _ =>
    match m.kind with
    | .kstep zero sparse f rows => s.performStep id zero sparse f rows m.seen
    | .drainMem d =>
      match s.drainStruck id d (List.range d.rows) with
      | some k => s.abandon id k
      | none =>
        let r := s.drainRows t d m.seen (List.range d.rows)
        let n := drainBits d.ofmt
        let s := r.1.foldl (fun s x => s.performWrite (s.teamAgent t) (.scr id (d.dst + x.1 * d.pitch)) (leBytes ((d.cols * n + 7) / 8) (streamOf n x.2))) s
        ((s.writeElements id [] r.2).drainClear id d).popMatrix id
    | .drainReg d group path lanes =>
      match s.drainStruck id d (lanes.map (·.2)) with
      | some k => s.abandon id k
      | none =>
        let r := s.drainRows t d m.seen (lanes.map (·.2))
        let n := drainBits d.ofmt
        let words := fun (xs : List Nat) => (List.range d.regs).map fun k => BitVec.ofNat 32 (streamOf n xs / 2 ^ (32 * k))
        let data := (lanes.zip r.1).flatMap fun x => BitVec.ofNat 32 x.1.1 :: words x.2.2
        (((s.writeElements id [] r.2).drainClear id d).popMatrix id).grant group path d.regs data
    | .tld n col int q vals =>
      (s.writeElements id (vals.map fun v => (t.tileCell n col q v.1, tileElement int v.2)) 0).popMatrix id
    | .tst n col int q group path lanes =>
      if s.errors != [] && lanes.any fun e => s.accStruck t (t.tileCell n col q e) then s.abandon id 6
      else
        let r := lanes.map fun e => (e, let c := t.tileCell n col q e; tileWord int (t.element c.1 c.2))
        let data := r.flatMap fun x => [BitVec.ofNat 32 x.1, x.2.1]
        ((s.writeElements id [] (orFlags (r.map (·.2.2)))).popMatrix id).grant group path 1 data
    | .torg n r c => (s.setTeam id fun t => { t with origins := if h : n < 8 then t.origins.set n (r, c) else t.origins }).popMatrix id
    | .tzero n =>
      let o := (t.origins[n]?).getD (0, 0)
      (s.writeElements id ((cellsOf o.1 o.2 32 32).map fun x => (x, 0)) 0).popMatrix id
    | .tzeroAll =>
      let s := { s with errors := s.errors.filter fun e => !(e.kind == 6 && e.tile == t.tile && e.addr / 2 ^ 20 == t.ctx) }
      (s.setTeam id fun t => { t with acc := [] }).popMatrix id
/-- Whether the engine of a team's core serves its context now: an MMASP that has begun goes on, and otherwise the two contexts take turns,
one operation each (R197). -/
def State.matrixTurn (s : State) (t : Team) : Bool :=
  t.matQueue != [] && (t.spStep != 0 || (s.teams.filter fun x => x.tile == t.tile && x.id != t.id && x.matQueue != []).all fun x =>
    x.spStep == 0 && look t.tile s.matLast != some t.ctx)
/-- MATRIX_OPERATION (R197). -/
def execMatrixOperation (team : Nat) (s : State) : Out :=
  .next (let t := s.team team
    if s.matrixTurn t then { s.performMatrix team with matLast := put t.tile t.ctx s.matLast } else s)

end Sys2Proof.Machine
end

