-- ==== Sys2Proof/Machine/Index.lean ====
section
/-! DEFINITION. The jobs of the index engines: VOXEL (R364 to R366), RULEBOOK (R367, R368), COORD (R291 to R293), CONVERT (R369 to R371). -/

namespace Sys2Proof.Machine

/-- A finite FP32 value as a multiple of 2^-149, exactly. -/
def fixed149 (w : Nat) : Option Int :=
  let ex := w / 2 ^ 23 % 2 ^ 8
  let fr := w % 2 ^ 23
  let m : Nat := if ex = 0 then fr else (2 ^ 23 + fr) * 2 ^ (ex - 1)
  if ex = 255 then none else some (if w / 2 ^ 31 % 2 = 1 then -(m : Int) else m)
/-- Whether an FP32 value is finite. -/
def finite32 (w : Nat) : Bool := (fixed149 w).isSome
/-- Whether an FP32 value is finite and positive. -/
def positive32 (w : Nat) : Bool := ((fixed149 w).map fun x => decide (0 < x)).getD false
/-- Whether an engine is an index engine whose due job has an operation code. -/
def indexOp (e op : Nat) (c : Chain) : Bool := decide (e < 2) && c.op == op

/-! ### Cells and keys (R365) -/

/-- A cell of the voxel grid. -/
structure Cell where
  x : Int
  y : Int
  z : Int
  deriving DecidableEq, Repr
/-- A coordinate of a cell in range. -/
def cellIn (i : Int) : Bool := decide (-(2 ^ 20) ≤ i) && decide (i < 2 ^ 20)
/-- Whether a cell is in range. -/
def Cell.inRange (c : Cell) : Bool := cellIn c.x && cellIn c.y && cellIn c.z
/-- The key of a cell. -/
def Cell.key (c : Cell) : Nat := (c.z + 2 ^ 20).toNat * 2 ^ 42 + (c.y + 2 ^ 20).toNat * 2 ^ 21 + (c.x + 2 ^ 20).toNat
/-- The cell of a key. -/
def cellOf (k : Nat) : Cell :=
  { x := (k % 2 ^ 21 : Nat) - 2 ^ 20, y := (k / 2 ^ 21 % 2 ^ 21 : Nat) - 2 ^ 20, z := (k / 2 ^ 42 % 2 ^ 21 : Nat) - 2 ^ 20 }
/-- The key of an empty table entry. -/
def emptyKey : Nat := 2 ^ 64 - 1

/-! ### VOXEL -/

/-- The parameter block (R364). -/
structure VoxelBlock where
  pts : Nat
  npts : Nat
  caplog : Nat
  clr : Bool
  table : Nat
  out : Nat
  vox : Nat
  org : List Nat
/-- The fields of the block. -/
def voxelBlock (b : List Byte) : VoxelBlock :=
  { pts := natAt b 0 8, npts := natAt b 8 4, caplog := byteAt b 12, clr := byteAt b 13 % 2 == 1, table := natAt b 16 8, out := natAt b 24 8
    vox := natAt b 32 4, org := [natAt b 36 4, natAt b 40 4, natAt b 44 4] }
/-- Whether the block keeps its limits. -/
def voxelLegal (b : List Byte) : Bool :=
  let v := voxelBlock b
  addrOk v.pts 4 && decide (v.npts ≤ 0x1000000) && decide (4 ≤ v.caplog) && decide (v.caplog ≤ 24) && decide (byteAt b 13 ≤ 1)
    && zeroAt b 14 2 && addrOk v.table 32 && addrOk v.out 32 && positive32 v.vox && v.org.all finite32
/-- The cell index of a coordinate: floor((x − ORG) ÷ VOX), exact. -/
def VoxelBlock.index (v : VoxelBlock) (k x : Nat) : Option Int :=
  match fixed149 x, fixed149 (v.org.getD k 0), fixed149 v.vox with
  | some x, some o, some e => some ((x - o) / e)
  | _, _, _ => none
/-- The cell of a point's coordinates, if they are finite. -/
def VoxelBlock.cell (v : VoxelBlock) (p : List Nat) : Option Cell :=
  match v.index 0 (p.getD 0 0), v.index 1 (p.getD 1 0), v.index 2 (p.getD 2 0) with
  | some x, some y, some z => some { x := x, y := y, z := z }
  | _, _, _ => none
/-- Four times the squared distance of a point to the centre of a cell, exact; of a stored point that is not finite a free value. -/
def VoxelBlock.distance (v : VoxelBlock) (c : Cell) (p : List Nat) : Nat :=
  let axis := fun (k : Nat) (i : Int) =>
    match fixed149 (p.getD k 0), fixed149 (v.org.getD k 0), fixed149 v.vox with
    | some x, some o, some e => some ((2 * (x - o) - (2 * i + 1) * e) * (2 * (x - o) - (2 * i + 1) * e))
    | _, _, _ => none
  match axis 0 c.x, axis 1 c.y, axis 2 c.z with
  | some a, some b, some d => (a + b + d).natAbs
  | _, _, _ => Config.strayDistance (p.getD 0 0 + 2 ^ 32 * p.getD 1 0 + 2 ^ 64 * p.getD 2 0)
/-- newer(a, b): sweep ids may wrap. -/
def newer (a b : Nat) : Bool := let d := (a + 2 ^ 16 - b) % 2 ^ 16; decide (1 ≤ d) && decide (d ≤ 0x7FFF)
/-- Counters of a job. -/
structure VoxelRun where
  j : Job
  nocc : Nat := 0
  nrej : Nat := 0
  firstRej : Nat := 0xFFFFFFFF
  nrange : Nat := 0
/-- A table entry that holds a point (R365). -/
def voxelEntry (key : Nat) (p : List Byte) (i : Nat) : List Byte := leBytes 8 key ++ p.take 18 ++ [0, 0] ++ leBytes 4 i
/-- The first entry from `h` on that holds a key or is empty: its number and bytes. `fuel` counts the entries left. -/
def VoxelBlock.probe (v : VoxelBlock) (key : Nat) : Nat → Nat → Job → Option (Nat × List Byte) × Job
  | 0, _, j => (none, j)
  | fuel + 1, h, j =>
    let n := h % 2 ^ v.caplog
    let r := j.read (v.table + 32 * n) 32
    if r.2.ended.isSome then (none, r.2)
    else if natAt r.1 0 8 = key ∨ natAt r.1 0 8 = emptyKey then (some (n, r.1), r.2)
    else VoxelBlock.probe v key fuel (h + 1) r.2
/-- One point (R366). -/
def VoxelBlock.point (v : VoxelBlock) (r : VoxelRun) (i : Nat) : VoxelRun :=
  let rd := r.j.read (v.pts + 20 * i) 20
  let r := { r with j := rd.2 }
  if r.j.ended.isSome then r
  else
    let p := rd.1
    let xyz := [natAt p 0 4, natAt p 4 4, natAt p 8 4]
    match (v.cell xyz).filter Cell.inRange with
    | none => { r with nrange := r.nrange + 1 }
    | some c =>
      let h := c.key * 0x9E3779B97F4A7C15 % 2 ^ 64 / 2 ^ (64 - v.caplog)
      let f := v.probe c.key (2 ^ v.caplog) h r.j
      let reject := { r with j := f.2, nrej := r.nrej + 1, firstRej := if r.nrej = 0 then i else r.firstRej }
      if f.2.ended.isSome then { r with j := f.2 }
      else match f.1 with
        | none => reject
        | some (n, e) =>
          let put := f.2.write (v.table + 32 * n) (voxelEntry c.key p i)
          if natAt e 0 8 = c.key then
            let sw := natAt p 16 2
            let old := natAt e 24 2
            let d := v.distance c xyz
            let de := v.distance c [natAt e 8 4, natAt e 12 4, natAt e 16 4]
            let takes := newer sw old || (sw == old && (decide (d < de) || (d == de && decide (i < natAt e 28 4))))
            if takes then { r with j := put } else { r with j := f.2 }
          else if r.nocc < 2 ^ v.caplog - 2 ^ (v.caplog - 3) then { r with j := put, nocc := r.nocc + 1 }
          else reject
/-- Reads the non-empty entries of the table. -/
def VoxelBlock.entries (v : VoxelBlock) (j : Job) : List (List Byte) × Job :=
  (List.range (2 ^ v.caplog)).foldl (fun (r : List (List Byte) × Job) n =>
    let x := r.2.read (v.table + 32 * n) 32
    (if x.2.ended.isNone && natAt x.1 0 8 != emptyKey then x.1 :: r.1 else r.1, x.2)) ([], j)
/-- The job (R366). -/
def voxelJob (param : Nat) (j : Job) : Job :=
  let b := j.read param 64
  let j := b.2
  let v := voxelBlock b.1
  let j := j.check (voxelLegal b.1) wordBlock
  if j.ended.isSome then j else
  let j := if v.clr then (List.range (2 ^ v.caplog)).foldl (fun (j : Job) n => j.write (v.table + 32 * n) (leBytes 8 emptyKey)) j else j
  let occ := v.entries j
  let r := (List.range v.npts).foldl v.point { j := occ.2, nocc := occ.1.length }
  let out := if v.out = 0 then r.j else
    let es := v.entries r.j
    let sorted := es.1.mergeSort fun x y => decide (natAt x 0 8 ≤ natAt y 0 8)
    ((sorted.zip (List.range sorted.length)).foldl (fun (j : Job) x => j.write (v.out + 32 * x.2) x.1) es.2)
  let j := out.write (param + 48) (leBytes 4 r.nocc ++ leBytes 4 r.nrej ++ leBytes 4 r.firstRej ++ leBytes 4 r.nrange)
  if r.nrej = 0 then j.finish 0 (BitVec.ofNat 32 r.nocc) else j.finish 1 (BitVec.ofNat 32 r.firstRej)
/-- VOXEL. -/
def execVoxel (e : Nat) (s : State) : Out := .next (s.startJob e (indexOp e 0) voxelJob)

/-! ### RULEBOOK -/

/-- The parameter block (R367). -/
structure RuleBlock where
  keys : Nat
  nin : Nat
  mode : Nat
  ks : Nat
  lists : Nat
  lstr : Nat
  lcap : Nat
  counts : Nat
  osites : Nat
  ocap : Nat
/-- The fields of the block. -/
def ruleBlock (b : List Byte) : RuleBlock :=
  { keys := natAt b 0 8, nin := natAt b 8 4, mode := byteAt b 12, ks := byteAt b 13, lists := natAt b 16 8, lstr := natAt b 24 4
    lcap := natAt b 28 4, counts := natAt b 32 8, osites := natAt b 40 8, ocap := natAt b 48 4 }
/-- Whether the block keeps its limits. -/
def ruleLegal (b : List Byte) : Bool :=
  let r := ruleBlock b
  addrOk r.keys 8 && decide (1 ≤ r.nin) && decide (r.nin ≤ 0x1000000)
    && (if r.mode = 0 then r.ks == 1 || r.ks == 3 || r.ks == 5 else r.mode == 1 && r.ks == 2)
    && zeroAt b 14 2 && addrOk r.lists 8 && r.lstr % 8 == 0 && decide (8 ≤ r.lstr) && decide (1 ≤ r.lcap) && decide (r.lcap ≤ 0x1000000)
    && decide (8 * r.lcap ≤ r.lstr) && addrOk r.counts 4 && addrOk r.osites 8 && decide (r.ocap ≤ 0x1000000) && zeroAt b 56 8
/-- The index of the first key that is not above the one before it. -/
def firstUnsorted : Nat → List Nat → Option Nat
  | i, a :: b :: ks => if a < b then firstUnsorted (i + 1) (b :: ks) else some (i + 1)
  | _, _ => none
/-- A list of numbers without its repeats, which stand together. -/
def dedupSorted : List Nat → List Nat
  | a :: b :: ks => if a = b then dedupSorted (b :: ks) else a :: dedupSorted (b :: ks)
  | ks => ks
/-- A list of numbers in ascending order, each once. -/
def distinctUp (xs : List Nat) : List Nat := dedupSorted (xs.mergeSort fun a b => decide (a ≤ b))
/-- The 64-bit numbers of a list of bytes. -/
def words64 (bs : List Byte) (n : Nat) : List Nat := (List.range n).map fun k => natAt bs (8 * k) 8
/-- Writes the pairs of one offset, up to the capacity. -/
def RuleBlock.pairsOut (r : RuleBlock) (q : Nat) (ps : List (Nat × Nat)) (j : Job) : Job :=
  ((ps.take r.lcap).zip (List.range r.lcap)).foldl (fun (j : Job) x =>
    j.write (r.lists + q * r.lstr + 8 * x.2) (leBytes 4 x.1.1 ++ leBytes 4 x.1.2)) j
/-- The pairs of offset number `q` in output order (R368). -/
def RuleBlock.pairs (r : RuleBlock) (ins outs : List Nat) (q : Nat) : List (Nat × Nat) :=
  let rad : Int := if r.mode = 0 then ((r.ks - 1) / 2 : Nat) else 0
  let dx : Int := (q % r.ks : Nat) - rad
  let dy : Int := (q / r.ks % r.ks : Nat) - rad
  let dz : Int := (q / r.ks / r.ks : Nat) - rad
  let m : Int := if r.mode = 0 then 1 else 2
  (outs.zip (List.range outs.length)).filterMap fun (k, o) =>
    let c := cellOf k
    let n : Cell := { x := m * c.x + dx, y := m * c.y + dy, z := m * c.z + dz }
    if n.inRange then (ins.findIdx? (· == n.key)).map fun i => (i, o) else none
/-- The output site of an input key in mode 1. -/
def halved (k : Nat) : Nat := let c := cellOf k; ({ x := c.x / 2, y := c.y / 2, z := c.z / 2 } : Cell).key
/-- The job (R368). -/
def rulebookJob (param : Nat) (j : Job) : Job :=
  let b := j.read param 64
  let r := ruleBlock b.1
  let j := b.2.check (ruleLegal b.1) wordBlock
  let k := j.read r.keys (8 * r.nin)
  let ins := words64 k.1 r.nin
  let j := match firstUnsorted 0 ins with
    | some i => k.2.fail (BitVec.ofNat 32 i)
    | none => k.2.check (ins.all fun x => decide (x < 2 ^ 63)) wordBlock
  if j.ended.isSome then j else
  let all := if r.mode = 0 then ins else distinctUp (ins.map halved)
  let outs := if r.mode = 0 then ins else all.take r.ocap
  let j := j.write32 (param + 52) outs.length
  let j := if r.mode = 0 then j else j.write r.osites (outs.flatMap fun x => leBytes 8 x)
  let n3 := r.ks * r.ks * r.ks
  let lists := (List.range n3).map fun q => (q, r.pairs ins outs q)
  let j := lists.foldl (fun (j : Job) x => (r.pairsOut x.1 x.2 j).write32 (r.counts + 4 * x.1) (min x.2.length r.lcap)) j
  match lists.find? fun x => decide (r.lcap < x.2.length) with
  | some x => j.finish 1 (BitVec.ofNat 32 x.1)
  | none =>
    if outs.length < all.length then j.finish 1 (BitVec.ofNat 32 n3)
    else j.finish 0 (BitVec.ofNat 32 (lists.map fun x => min x.2.length r.lcap).sum)
/-- RULEBOOK. -/
def execRulebook (e : Nat) (s : State) : Out := .next (s.startJob e (indexOp e 1) rulebookJob)

/-! ### COORD -/

/-- Bytes of 32-bit words, padded with zeros to a length. -/
def padded (ws : List Nat) (n : Nat) : List Byte := let bs := ws.flatMap fun x => leBytes 4 x; bs ++ List.replicate (n - bs.length) 0
/-- L of R292. -/
def coordL (e p : Nat) : Nat := (4 * ((e + p - 1) / p) + 127) / 128 * 128
/-- The core block of member `p`: all it holds after its header, then the header (R292, R293). -/
def coordBlock (sorted : List Nat) (e cores stride p : Nat) : List Byte × List Byte :=
  let l := coordL e cores
  let first := p * e / cores
  let part := (sorted.drop first).take ((p + 1) * e / cores - first)
  let rows := distinctUp (part.map (· / 2 ^ 16))
  let cols := distinctUp (part.map (· % 2 ^ 16))
  let slot := fun (xs : List Nat) (x : Nat) => (xs.findIdx? (· == x)).getD 0
  let body := padded (part.map fun w => slot rows (w / 2 ^ 16) * 2 ^ 16 + slot cols (w % 2 ^ 16)) l ++ padded rows l ++ padded cols l
  (body ++ List.replicate (stride - 128 - 3 * l) 0,
   padded [part.length, rows.length, cols.length, first, 128 + l, 128 + 2 * l] 128)
/-- The job (R291, R292): nothing is written until every check has passed. -/
def coordJob (param : Nat) (j : Job) : Job :=
  let b := j.read param 32
  let mask := natAt b.1 0 8
  let e := natAt b.1 8 4
  let p := natAt b.1 12 2
  let nrows := natAt b.1 16 2
  let ncols := natAt b.1 18 2
  let stride := natAt b.1 20 4
  let out := natAt b.1 24 8
  let j := b.2.check (addrOk mask 4 && decide (1 ≤ e) && decide (e ≤ 0x10000) && decide (1 ≤ p) && decide (p ≤ 12) && zeroAt b.1 14 2
    && decide (1 ≤ nrows) && decide (1 ≤ ncols) && stride % 128 == 0 && decide (128 + 3 * coordL e p ≤ stride) && addrOk out 128) wordBlock
  if j.ended.isSome then j else
  let m := j.read mask (4 * e)
  let ws := (List.range e).map fun k => natAt m.1 (4 * k) 4
  let j := match ws.findIdx? fun w => decide (nrows ≤ w / 2 ^ 16) || decide (ncols ≤ w % 2 ^ 16) with
    | some t => m.2.fail (BitVec.ofNat 32 t)
    | none => m.2
  if j.ended.isSome then j else
  let sorted := ws.mergeSort fun a b => decide (a ≤ b)
  ((List.range p).foldl (fun (j : Job) q =>
    let blk := coordBlock sorted e p stride q
    (j.write (out + q * stride + 128) blk.1).write (out + q * stride) blk.2) j).finish 0 (BitVec.ofNat 32 e)
/-- COORD. -/
def execCoord (e : Nat) (s : State) : Out := .next (s.startJob e (indexOp e 2) coordJob)

/-! ### CONVERT -/

/-- The parameter block (R369). -/
structure ConvBlock where
  fmt : Nat
  ncol : Nat
  k : Nat
  dstr : Nat
  dense : Nat
  obj : Nat
  bias : Nat
  cap : Nat
  rchunk : Nat
  rdata : Nat
/-- The fields of the block. -/
def convBlock (b : List Byte) : ConvBlock :=
  { fmt := byteAt b 1, ncol := natAt b 4 4, k := natAt b 8 4, dstr := natAt b 12 4, dense := natAt b 16 8, obj := natAt b 24 8
    bias := natAt b 32 4, cap := natAt b 36 4, rchunk := natAt b 40 4, rdata := natAt b 44 4 }
/-- Bits of an element. -/
def ConvBlock.n (c : ConvBlock) : Nat := sliceRegs c.fmt
/-- Chunks of the object. -/
def ConvBlock.chunks (c : ConvBlock) : Nat := c.k / 128 * c.ncol
/-- Whether the block keeps its limits (R369); a compression that would resume behind its last chunk has no chunk to resume at, and breaks
them (DEDUCED, log entry 32). -/
def convLegal (b : List Byte) : Bool :=
  let c := convBlock b
  decide (byteAt b 0 ≤ 1) && decide (c.fmt ≤ 7) && zeroAt b 2 2 && decide (1 ≤ c.ncol) && decide (c.ncol ≤ 0x10000)
    && decide (0x80 ≤ c.k) && decide (c.k ≤ 0x100000) && c.k % 128 == 0 && c.dstr % 4 == 0 && decide (4 ≤ c.dstr)
    && decide (c.k * c.n / 8 ≤ c.dstr) && addrOk c.dense 4 && addrOk c.obj 128 && decide (c.bias ≤ 0xFFFFFFFC)
    && decide (0x40 ≤ c.cap) && decide (c.cap ≤ 0xFFFFFFFC) && (byteAt b 0 == 1 || decide (c.rchunk ≤ c.chunks)) && decide (c.rdata ≤ 0xFFFFFFFC) && zeroAt b 48 16
/-- Whether an element is zero by the test of R198. -/
def ConvBlock.isZero (c : ConvBlock) (x : Nat) : Bool := match matFmt c.fmt with
  | some f => (f.value 0 x).isZero
  | none => true
/-- Bytes a chunk's elements take. -/
def ConvBlock.dataBytes (c : ConvBlock) (z : Nat) : Nat := (z * c.n + 7) / 8
/-- Bytes a chunk takes in the object. -/
def ConvBlock.size (c : ConvBlock) (z : Nat) : Nat := (16 + c.dataBytes z + 3) / 4 * 4
/-- Where the elements of chunk `q` stand in its dense column. -/
def ConvBlock.denseAt (c : ConvBlock) (q : Nat) : Nat := c.dense + q % c.ncol * c.dstr + 16 * c.n * (q / c.ncol)
/-- The elements of a stream of `m` elements. -/
def ConvBlock.elems (c : ConvBlock) (bs : List Byte) (m : Nat) : List Nat :=
  let x := leNat bs
  (List.range m).map fun k => x / 2 ^ (c.n * k) % 2 ^ c.n
/-- A stream of elements, as a number. -/
def ConvBlock.stream (c : ConvBlock) : List Nat → Nat
  | [] => 0
  | x :: xs => x + 2 ^ c.n * ConvBlock.stream c xs
/-- VALID of an object. -/
def validMark : Nat := 0x434B5631
/-- The offsets of the chunks before `RCHUNK`, newest first, read back from their bitmaps, and the offset after them (R370). -/
def ConvBlock.readBack (c : ConvBlock) (j : Job) : List Nat × Nat × Job :=
  (List.range c.rchunk).foldl (fun (r : List Nat × Nat × Job) _ =>
    let bm := r.2.2.read (c.obj + r.2.1) 16
    (r.2.1 :: r.1, r.2.1 + c.size (onesOf (leNat bm.1)), bm.2)) ([], 64, j)
/-- Ends a job that a fault has ended with its cursor written; a fault on that write leaves the cursor (R370). -/
def Job.cursor (j : Job) (param q off : Nat) : Job :=
  match j.ended with
  | some (2, w) =>
    let x := { j with ended := none }.write (param + 40) (leBytes 4 q ++ leBytes 4 off)
    { x with ended := some (2, w) }
  | _ => j
/-- One chunk: the offsets so far, newest first, the offset it takes, the job. -/
def ConvBlock.compressChunk (c : ConvBlock) (param : Nat) (r : List Nat × Nat × Job) (q : Nat) : List Nat × Nat × Job :=
  let off := r.2.1
  if r.2.2.ended.isSome then r
  else
    let d := r.2.2.read (c.denseAt q) (16 * c.n)
    let es := c.elems d.1 128
    let keep := es.filter fun x => !c.isZero x
    if d.2.ended.isNone && decide (c.cap < off + c.size keep.length) then (r.1, off, d.2.finish 1 (BitVec.ofNat 32 q))
    else
      let j := d.2.write (c.obj + off + 16) (leBytes (c.dataBytes keep.length) (c.stream keep))
      let bits := (es.zip (List.range 128)).foldl (fun (b : Nat) x => if c.isZero x.1 then b else b + 2 ^ x.2) 0
      let j := j.write (c.obj + off) (leBytes 16 bits)
      (off :: r.1, off + c.size keep.length, j.cursor param q off)
/-- Compression (R370). -/
def compressJob (param : Nat) (j : Job) : Job :=
  let b := j.read param 64
  let c := convBlock b.1
  let j := b.2.check (convLegal b.1) wordBlock
  if j.ended.isSome then j else
  let start : List Nat × Nat × Job :=
    if c.rchunk = 0 then ([], 64, (j.write32 c.obj 0).cursor param 0 64)
    else
      let r := c.readBack j
      (r.1, r.2.1, r.2.2.check (r.2.1 == c.rdata) wordBlock)
  let r := ((List.range c.chunks).drop c.rchunk).foldl (c.compressChunk param) start
  let tab := r.2.1
  let nc := c.chunks
  if r.2.2.ended.isSome then r.2.2
  else if c.cap < tab + 4 * nc then r.2.2.finish 1 (BitVec.ofNat 32 nc)
  else
    let last := Config.dataEnd tab nc
    let j := r.2.2.write (c.obj + tab) (r.1.reverse.flatMap fun o => leBytes 4 (c.bias + o))
    let j := j.write (c.obj + 4) ([BitVec.ofNat 8 c.fmt, 0, 0, 0] ++ leBytes 4 c.ncol ++ leBytes 4 c.k ++ leBytes 4 c.ncol
      ++ leBytes 4 tab ++ leBytes 4 last ++ List.replicate 36 0)
    let j := (j.write32 c.obj validMark).cursor param nc tab
    j.finish 0 (BitVec.ofNat 32 last)
/-- One chunk of an expansion: the elements where the bitmap is set, zero elsewhere (R371). -/
def ConvBlock.expandChunk (c : ConvBlock) (tab : Nat) (j : Job) (q : Nat) : Job :=
  let t := j.read (c.obj + tab + 4 * q) 4
  let off := (leNat t.1 + 2 ^ 32 - c.bias % 2 ^ 32) % 2 ^ 32
  let bm := t.2.read (c.obj + off) 16
  let bits := leNat bm.1
  let d := bm.2.read (c.obj + off + 16) (c.dataBytes (onesOf bits))
  let es := c.elems d.1 (onesOf bits)
  let full := (List.range 128).map fun k => if bits / 2 ^ k % 2 = 1 then es.getD (onesOf (bits % 2 ^ k)) 0 else 0
  d.2.write (c.denseAt q) (leBytes (16 * c.n) (c.stream full))
/-- Expansion (R371). -/
def expandJob (param : Nat) (j : Job) : Job :=
  let b := j.read param 64
  let c := convBlock b.1
  let j := b.2.check (convLegal b.1) wordBlock
  let h := j.read c.obj 64
  let j := h.2.check (natAt h.1 0 4 == validMark && byteAt h.1 4 == c.fmt && natAt h.1 8 4 == c.ncol && natAt h.1 12 4 == c.k) wordBlock
  if j.ended.isSome then j else
  ((List.range c.chunks).foldl (c.expandChunk (natAt h.1 20 4)) j).finish 0 (BitVec.ofNat 32 c.ncol)
/-- Whether the block of a due CONVERT job asks for expansion. -/
def State.expands (s : State) (c : Chain) : Bool :=
  match s.engineRead c c.param.toNat 1 with
  | .ok b => leNat b == 1
  | .error _ => false
/-- CONVERT_COMPRESS: DIR 0, and every block that cannot be read or breaks its limits in DIR. -/
def execConvertCompress (e : Nat) (s : State) : Out := .next (s.startJob e (fun c => indexOp e 3 c && !s.expands c) compressJob)
/-- CONVERT_EXPAND. -/
def execConvertExpand (e : Nat) (s : State) : Out := .next (s.startJob e (fun c => indexOp e 3 c && s.expands c) expandJob)

end Sys2Proof.Machine
end

