-- ==== Sys2Proof/Machine/Collision.lean ====
section
/-! DEFINITION. The jobs of the collision engines (R349 to R351, R372 to R374), decided exactly. -/

namespace Sys2Proof.Machine

/-! ### Exact numbers (p − √q) ÷ d -/

/-- The real (p − √q) ÷ d, with d > 0. -/
structure Surd where
  p : Int
  q : Nat := 0
  d : Nat := 1
  deriving DecidableEq, Repr
/-- The sign of m + k·√b. -/
def signSqrt (m k : Int) (b : Nat) : Int :=
  let kk : Int := k * k * b
  if k = 0 ∨ b = 0 then m.sign
  else if 0 ≤ m ∧ 0 < k then 1
  else if m ≤ 0 ∧ k < 0 then -1
  else if 0 < k then (kk - m * m).sign
  else (m * m - kk).sign
/-- The sign of n + √b − √a. -/
def signTwo (n : Int) (b a : Nat) : Int :=
  if signSqrt n 1 b < 0 then -1 else signSqrt (n * n + b - a) (2 * n) b
/-- The sign of x − y. -/
def Surd.cmp (x y : Surd) : Int :=
  signTwo (x.p * y.d - y.p * x.d) (x.d * x.d * y.q) (y.d * y.d * x.q)

/-! ### A ball on a segment and a half-open cell (R372, R374) -/

/-- One axis of a test, in units of 2^-165: start, step, lower and upper bound of the cell. -/
structure Axis where
  p : Int
  d : Int
  lo : Int
  hi : Int
  deriving DecidableEq, Repr
/-- c(t) · td for t = tn ÷ td, less a bound. -/
def Axis.off (a : Axis) (tn : Int) (td : Nat) (b : Int) : Int := (a.p - b) * td + a.d * tn
/-- Where the point lies at t: −1 below the closed cell, 1 above it, 0 within. -/
def Axis.side (a : Axis) (tn : Int) (td : Nat) : Int :=
  if a.off tn td a.lo < 0 then -1 else if 0 < a.off tn td a.hi then 1 else 0
/-- Whether the nearest point of the closure lies below the upper bound. -/
def Axis.below (a : Axis) (tn : Int) (td : Nat) : Bool := decide (a.off tn td a.hi < 0)
/-- Coefficients of the squared distance along an axis where the point lies on a side: A, B, C of A t² + B t + C. -/
def Axis.quad (a : Axis) (side : Int) : Int × Int × Int :=
  let e := if side < 0 then a.p - a.lo else a.p - a.hi
  if side = 0 then (0, 0, 0) else (a.d * a.d, 2 * e * a.d, e * e)
/-- Parameters in (0, 1) at which the point crosses a bound. -/
def Axis.breaks (a : Axis) : List (Int × Nat) :=
  [a.lo, a.hi].filterMap fun b =>
    let n := (if a.d < 0 then -1 else 1) * (b - a.p)
    if a.d ≠ 0 ∧ 0 < n ∧ n < a.d.natAbs then some (n, a.d.natAbs) else none
/-- Sum of the axes' coefficients. -/
def quadOf (as : List Axis) (tn : Int) (td : Nat) : Int × Int × Int :=
  as.foldl (fun c a => let x := a.quad (a.side tn td); (c.1 + x.1, c.2.1 + x.2.1, c.2.2 + x.2.2)) (0, 0, 0)
/-- Whether t lies in the touching set: the ball reaches into the closed cell, or just meets it at a point of the half-open cell. -/
def touchesAt (as : List Axis) (r2 : Int) (tn : Int) (td : Nat) : Bool :=
  let c := quadOf as tn td
  let f := c.1 * tn * tn + c.2.1 * tn * td + (c.2.2 - r2) * td * td
  decide (f < 0) || (f == 0 && as.all fun a => a.below tn td)
/-- The infimum of the touching set within the open interval between two neighbouring breaks: the squared distance is one quadratic there,
and no axis changes its side. -/
def infBetween (as : List Axis) (r2 : Int) (x y : Int × Nat) : Option Surd :=
  let tn := x.1 * y.2 + y.1 * x.2
  let td := 2 * x.2 * y.2
  let c := quadOf as tn td
  let a := c.1
  let b := c.2.1
  let k := c.2.2 - r2
  let at_ := a * x.1 * x.1 + b * x.1 * x.2 + k * x.2 * x.2
  let slope := 2 * a * x.1 + b * x.2
  let ties := as.all fun z => z.below tn td
  let here : Surd := { p := x.1, d := x.2 }
  if at_ < 0 then some here
  else if a = 0 then (if at_ = 0 ∧ ties then some here else none)
  else if 0 ≤ slope then none
  else if at_ = 0 then some here
  else
    let disc := b * b - 4 * a * k
    let root : Surd := { p := -b, q := disc.natAbs, d := (2 * a).natAbs }
    if disc < 0 ∨ 0 ≤ root.cmp { p := y.1, d := y.2 } then none
    else if disc = 0 ∧ !ties then none
    else some root
/-- The infimum of the touching set over the rest of the breaks. -/
def infFrom (as : List Axis) (r2 : Int) : List (Int × Nat) → Option Surd
  | [] => none
  | x :: xs =>
    if touchesAt as r2 x.1 x.2 then some { p := x.1, d := x.2 }
    else match xs with
      | [] => none
      | y :: _ => (infBetween as r2 x y).orElse fun _ => infFrom as r2 xs
/-- tmin of a cell on a segment (R374): the infimum of its touching set, if that is not empty. -/
def touchInf (as : List Axis) (r2 : Int) : Option Surd :=
  let inner := (as.flatMap Axis.breaks).mergeSort fun x y => decide (x.1 * y.2 ≤ y.1 * x.2)
  infFrom as r2 ((0, 1) :: inner ++ [(1, 1)])
/-- The smallest FP32 value in [0, 1] that is not below a number (R374): the values below it are counted bit by bit. -/
def leastAbove (t : Surd) : Nat :=
  let lower := fun (w : Nat) => match fixed149 w with
    | some v => decide (Surd.cmp { p := v, d := 2 ^ 149 } t < 0)
    | none => false
  if lower 0 then
    1 + ((List.range 30).reverse.foldl (fun (w : Nat) k => if w + 2 ^ k ≤ 0x3F800000 && lower (w + 2 ^ k) then w + 2 ^ k else w) 0)
  else 0

/-! ### The octree (R351) -/

/-- The parameter block (R349), its coordinates in units of 2^-165. -/
structure Tree where
  root : Nat
  org : List Int
  size : Int
  depth : Nat
/-- One segment of a query: start, step and squared radius. -/
structure Sweep where
  p : List Int
  d : List Int
  r2 : Int
/-- The axes of a cell test. -/
def Sweep.axes (q : Sweep) (lo : List Int) (h : Int) : List Axis :=
  (List.range 3).map fun k => { p := q.p.getD k 0, d := q.d.getD k 0, lo := lo.getD k 0, hi := lo.getD k 0 + h }
/-- What a query has met first so far: tmin, node and octant. -/
structure Met where
  t : Surd
  node : Nat
  oct : Nat
/-- Keeps the first of two cells, the earlier in traversal order on a tie. -/
def Met.first (a : Option Met) (b : Met) : Option Met :=
  match a with
  | none => some b
  | some x => if b.t.cmp x.t < 0 then some b else some x
/-- The lower corner of an octant. -/
def octLo (lo : List Int) (h : Int) (o : Nat) : List Int :=
  [lo.getD 0 0 + (o % 2 : Nat) * h, lo.getD 1 0 + (o / 2 % 2 : Nat) * h, lo.getD 2 0 + (o / 4 : Nat) * h]
/-- Walks a node and, through its child nodes, the tree below it: depth first, octants ascending (R372). `fuel` counts the levels left. A node
whose cube the ball does not meet may or may not be read. -/
def Tree.walk (t : Tree) (q : Sweep) : Nat → Nat → Nat → List Int → Job × Option Met → Job × Option Met
  | 0, _, _, _, r => r
  | fuel + 1, level, node, lo, r =>
    let n := r.1.read (t.root + 16 * node) 16
    let cm := byteAt n.1 0
    let occ := byteAt n.1 1
    let both := (BitVec.ofNat 8 cm &&& BitVec.ofNat 8 occ) != 0
    let j := n.2.check (!both && (fuel != 0 || cm == 0)) (BitVec.ofNat 32 node)
    let h := t.size / 2 ^ (level + 1)
    if j.ended.isSome then (j, r.2)
    else (List.range 8).foldl (fun (r : Job × Option Met) (o : Nat) =>
      let clo := octLo lo h o
      let as := q.axes clo h
      if fieldAt cm o 1 = 1 then
        let child := natAt n.1 4 4 + ((List.range o).filter fun k => fieldAt cm k 1 == 1).length
        if (touchInf as q.r2).isSome || Config.visitsNode child r.1.s.free then Tree.walk t q fuel (level + 1) child clo r else r
      else if fieldAt occ o 1 = 1 then
        match touchInf as q.r2 with
        | some x => (r.1, Met.first r.2 { t := x, node := node, oct := o })
        | none => r
      else r) (j, r.2)
/-- The first cell a segment meets. -/
def Tree.meet (t : Tree) (q : Sweep) (j : Job) : Job × Option Met := t.walk q t.depth 0 0 t.org (j, none)

/-! ### Queries (R350, R373) -/

/-- FP32 bits in units of 2^-165. -/
def fixed165 (w : Nat) : Option Int := (fixed149 w).map (· * 2 ^ 16)
/-- Three FP32 values from an offset, if all are finite. -/
def point3 (bs : List Byte) (o : Nat) : Option (List Int) :=
  match fixed165 (natAt bs o 4), fixed165 (natAt bs (o + 4) 4), fixed165 (natAt bs (o + 8) 4) with
  | some x, some y, some z => some [x, y, z]
  | _, _, _ => none
/-- What a query asks: nothing (it is bad), or segments in order. -/
inductive Query where
  | bad
  | sweeps (xs : List Sweep)
/-- The radius of a query, if it is finite and not negative. -/
def radius (w : Nat) : Option Int := (fixed165 w).filter fun r => decide (0 ≤ r)
/-- A query at one place. -/
def standing (p : Option (List Int)) (r : Option Int) : Query :=
  match p, r with
  | some p, some r => .sweeps [{ p := p, d := [0, 0, 0], r2 := r * r }]
  | _, _ => .bad
/-- Points to segments. -/
def segments (r2 : Int) : List (List Int) → List Sweep
  | a :: b :: ps => { p := a, d := (List.range 3).map fun k => b.getD k 0 - a.getD k 0, r2 := r2 } :: segments r2 (b :: ps)
  | _ => []
/-- Reads a polyline query; SEGMENT also needs RADIUS = 0 and NP = 2. -/
def polyline (segment : Bool) (q : List Byte) (j : Job) : Query × Job :=
  let np := natAt q 4 2
  let pts := natAt q 8 8
  match radius (natAt q 0 4) with
  | none => (.bad, j)
  | some r =>
    if np < 2 ∨ 32 < np ∨ pts % 4 ≠ 0 ∨ (segment && (r != 0 || np != 2)) then (.bad, j)
    else
      let d := j.read pts (12 * np)
      let ps := (List.range np).map fun k => point3 d.1 (12 * k)
      if ps.all Option.isSome then (.sweeps (segments (r * r) (ps.map fun p => p.getD [])), d.2) else (.bad, d.2)
/-- The first segment that meets a cell: its number and what it meets. -/
def Tree.search (t : Tree) : Nat → List Sweep → Job → Job × Option (Nat × Met)
  | _, [], j => (j, none)
  | k, q :: qs, j =>
    let r := t.meet q j
    match r.2 with
    | some m => (r.1, some (k, m))
    | none => Tree.search t (k + 1) qs r.1
/-- A result (R350): KIND, OCT, SEG, T, NODE. -/
def result (kind oct seg t node : Nat) : List Byte :=
  leBytes 2 kind ++ leBytes 1 oct ++ [0] ++ leBytes 4 seg ++ leBytes 4 t ++ leBytes 4 node
/-- Whether the block keeps its limits (R349). -/
def treeLegal (b : List Byte) : Bool :=
  addrOk (natAt b 0 8) 16 && addrOk (natAt b 8 8) 16 && addrOk (natAt b 16 8) 16 && (point3 b 24).isSome && positive32 (natAt b 36 4)
    && decide (1 ≤ byteAt b 40) && decide (byteAt b 40 ≤ 16) && zeroAt b 41 3 && decide (1 ≤ natAt b 44 4) && decide (natAt b 44 4 ≤ 0x1000)
/-- A collision job: `ask` reads one query's segments, `swept` says whether the result names segment and parameter. -/
def collisionJob (swept : Bool) (ask : List Byte → Job → Query × Job) (param : Nat) (j : Job) : Job :=
  let b := j.read param 48
  let j := b.2.check (treeLegal b.1) wordBlock
  if j.ended.isSome then j else
  let t : Tree := { root := natAt b.1 0 8, org := (point3 b.1 24).getD [], size := (fixed165 (natAt b.1 36 4)).getD 0, depth := byteAt b.1 40 }
  let r := (List.range (natAt b.1 44 4)).foldl (fun (r : Job × Nat) k =>
    let q := r.1.read (natAt b.1 8 8 + 16 * k) 16
    if q.2.ended.isSome then (q.2, r.2)
    else
      let a := ask q.1 q.2
      let put := fun (j : Job) (bs : List Byte) => j.write (natAt b.1 16 8 + 16 * k) bs
      if a.2.ended.isSome then (a.2, r.2)
      else match a.1 with
        | .bad => (put a.2 (result 2 0 0 0 0), r.2)
        | .sweeps qs =>
          let m := t.search 0 qs a.2
          match m.2 with
          | none => (put m.1 (result 0 0 0 0 0), r.2)
          | some (g, x) => (put m.1 (if swept then result 1 x.oct g (leastAbove x.t) x.node else result 1 x.oct 0 0 x.node), r.2 + 1)) (j, 0)
  r.1.finish 0 (BitVec.ofNat 32 r.2)
/-- Whether an engine is a collision engine whose due job has an operation code. -/
def collisionOp (e op : Nat) (c : Chain) : Bool := (e == 2 || e == 3) && c.op == op
/-- POINT. -/
def execCollidePoint (e : Nat) (s : State) : Out :=
  .next (s.startJob e (collisionOp e 0) (collisionJob false fun q j => (if zeroAt q 12 4 then standing (point3 q 0) (some 0) else .bad, j)))
/-- SEGMENT. -/
def execCollideSegment (e : Nat) (s : State) : Out := .next (s.startJob e (collisionOp e 1) (collisionJob true (polyline true)))
/-- SPHERE. -/
def execCollideSphere (e : Nat) (s : State) : Out :=
  .next (s.startJob e (collisionOp e 2) (collisionJob false fun q j => (standing (point3 q 0) (radius (natAt q 12 4)), j)))
/-- SWEEP. -/
def execCollideSweep (e : Nat) (s : State) : Out := .next (s.startJob e (collisionOp e 3) (collisionJob true (polyline false)))

end Sys2Proof.Machine
end

