-- ==== Sys2Proof/Machine/Compare.lean ====
section
/-! DEFINITION. Opcodes 0x50 to 0x5F: integer compares, predicate and CM operations (R118 to R120). -/

namespace Sys2Proof.Machine

/-- An integer compare of two words, without flags. -/
def State.icmp (s : State) (d a b : BitVec 6) (w : BitVec 2) (u x y : Bool) (f : Word → Word → Bool) : Out :=
  .next (s.cmp true d a b w u x y fun _ p q => (f p q, 0))
/-- ICEQ (R118). -/
def execIceq (d a b : BitVec 6) (w : BitVec 2) (u x y : Bool) (s : State) : Out := s.icmp d a b w u x y fun p q => p == q
/-- ICNE (R118). -/
def execIcne (d a b : BitVec 6) (w : BitVec 2) (u x y : Bool) (s : State) : Out := s.icmp d a b w u x y fun p q => p != q
/-- ICLT (R118). -/
def execIclt (d a b : BitVec 6) (w : BitVec 2) (u x y : Bool) (s : State) : Out := s.icmp d a b w u x y fun p q => p.slt q
/-- ICLE (R118). -/
def execIcle (d a b : BitVec 6) (w : BitVec 2) (u x y : Bool) (s : State) : Out := s.icmp d a b w u x y fun p q => p.sle q
/-- ICLTU (R118). -/
def execIcltu (d a b : BitVec 6) (w : BitVec 2) (u x y : Bool) (s : State) : Out := s.icmp d a b w u x y fun p q => p.ult q
/-- ICLEU (R118). -/
def execIcleu (d a b : BitVec 6) (w : BitVec 2) (u x y : Bool) (s : State) : Out := s.icmp d a b w u x y fun p q => p.ule q
/-- A compare with imm11: an I-form result is interlocked (R118, R30). -/
def State.icmpi (s : State) (d a : BitVec 6) (u : Bool) (f : Word → Bool) : Out :=
  .next (s.compare { legal := cd u d && Sys2Proof.rs u a, u := u, cls := clsNONE, uses := [(srcA u a).use], d := d.toNat
                     f := fun s k => (f (s.word (srcA u a) k), 0) })
/-- ICEQI (R118). -/
def execIceqi (d a : BitVec 6) (u : Bool) (i : BitVec 11) (s : State) : Out := s.icmpi d a u fun x => x == imm32 i
/-- ICLTI (R118). -/
def execIclti (d a : BitVec 6) (u : Bool) (i : BitVec 11) (s : State) : Out := s.icmpi d a u fun x => x.slt (imm32 i)

/-- A predicate operation: lane by lane on predicates, or once on CM bits (R119). -/
def State.predOp (s : State) (d a b : BitVec 6) (w : BitVec 2) (u : Bool) (f : LaneMask → LaneMask → LaneMask) : Out :=
  .next (s.checked (pd u d && pd u a && pd u b) u (if u then [.cmBit a.toNat, .cmBit b.toNat] else []) fun s =>
    if u then
      let x := ofBool (bit s.cmNow a.toNat)
      let y := ofBool (bit s.cmNow b.toNat)
      (s.putCMBit d.toNat (bit (f x y) 0) (1 + clsSIMPLE)).retire { stall := stallOf w }
    else
      let act := s.active
      let r := f (s.me.preg a.toNat) (s.me.preg b.toNat)
      (s.withMe fun g => g.setP d.toNat ((g.preg d.toNat &&& ~~~act) ||| (r &&& act))).retire { beats := beatsOf act, stall := stallOf w })
/-- PAND (R119). -/
def execPand (d a b : BitVec 6) (w : BitVec 2) (u : Bool) (s : State) : Out := s.predOp d a b w u (· &&& ·)
/-- POR (R119). -/
def execPor (d a b : BitVec 6) (w : BitVec 2) (u : Bool) (s : State) : Out := s.predOp d a b w u (· ||| ·)
/-- PXOR (R119). -/
def execPxor (d a b : BitVec 6) (w : BitVec 2) (u : Bool) (s : State) : Out := s.predOp d a b w u (· ^^^ ·)
/-- PANDN (R119). -/
def execPandn (d a b : BitVec 6) (w : BitVec 2) (u : Bool) (s : State) : Out := s.predOp d a b w u fun x y => x &&& ~~~y
/-- PTOS (R120). -/
def execPtos (d a : BitVec 6) (w : BitVec 2) (s : State) : Out :=
  .next (s.once (even d && small a 12) [.p a.toNat] w fun s =>
    s.putPair d.toNat (s.predWhole a.toNat &&& s.me.width.mask) (1 + clsSIMPLE))
/-- PFROMS (R120): its result is a predicate, written for the lanes of EXM(P). -/
def execPfroms (d a : BitVec 6) (w : BitVec 2) (s : State) : Out :=
  .next (s.once (small d 12 && even a) [.exm, .s a.toNat, .s (a.toNat + 1)] w fun s =>
    let m := s.exm
    let x := s.rpair a.toNat
    let old := s.me.preg d.toNat
    s.putP d.toNat ((old &&& ~~~m) ||| (x &&& m)) (1 + clsSIMPLE))
/-- CMRD (R120). -/
def execCmrd (d : BitVec 6) (w : BitVec 2) (s : State) : Out :=
  .next (s.once (even d) [.cm] w fun s => s.putPair d.toNat s.cmNow (1 + clsSIMPLE))
/-- CMWR (R120). -/
def execCmwr (a : BitVec 6) (w : BitVec 2) (s : State) : Out :=
  .next (s.once (even a) [.s a.toNat, .s (a.toNat + 1)] w fun s => s.putCM (s.rpair a.toNat) (1 + clsSIMPLE))

end Sys2Proof.Machine
end

