-- ==== Sys2Proof/Machine/Dynamics.lean ====
section
/-! DEFINITION. The job of the dynamics engine: STEP (R352, R375 to R378). Every number is an FP32 encoding. -/

namespace Sys2Proof.Machine

/-! ### FP32 operations, each rounded RNE (R376) -/

/-- a + b. -/
def fadd (a b : Nat) : Nat := (fp32.deliver {} (Fp.add 0 (f32 a) (f32 b))).1
/-- a − b. -/
def fsub (a b : Nat) : Nat := (fp32.deliver {} (Fp.add 0 (f32 a) (f32 b).flip)).1
/-- a × b. -/
def fmul (a b : Nat) : Nat := (fp32.deliver {} (Fp.mul (f32 a) (f32 b))).1
/-- a ÷ b. -/
def fdiv (a b : Nat) : Nat := (fp32.deliver {} (Fp.div (f32 a) (f32 b))).1
/-- −a. -/
def fneg (a : Nat) : Nat := if (f32 a).isNan then fp32.nan else (a + 2 ^ 31) % 2 ^ 32
/-- The smaller of two. -/
def fmin (a b : Nat) : Nat := (minMax false fp32 false a b).1
/-- The larger of two. -/
def fmax (a b : Nat) : Nat := (minMax true fp32 false a b).1
/-- FRSQ (R134 to R136). -/
def frsq (a : Nat) : Nat := (fp32.rsq {} (f32 a)).1
/-- Whether a value is above zero. -/
def fpos (a : Nat) : Bool := !(f32 a).isNan && !(f32 a).isZero && !(f32 a).neg
/-- 1.0. -/
def fOne : Nat := 0x3F800000

/-- A vector of three. -/
structure V3 where
  x : Nat := 0
  y : Nat := 0
  z : Nat := 0
  deriving DecidableEq, Repr
/-- A quaternion. -/
structure Quat where
  w : Nat := 0x3F800000
  v : V3 := {}
  deriving DecidableEq, Repr
/-- Component-wise operation. -/
def V3.zip (f : Nat → Nat → Nat) (a b : V3) : V3 := { x := f a.x b.x, y := f a.y b.y, z := f a.z b.z }
/-- a + b. -/
def V3.add : V3 → V3 → V3 := V3.zip fadd
/-- a − b. -/
def V3.sub : V3 → V3 → V3 := V3.zip fsub
/-- a ⊙ b. -/
def V3.had : V3 → V3 → V3 := V3.zip fmul
/-- s·a. -/
def V3.scale (s : Nat) (a : V3) : V3 := { x := fmul s a.x, y := fmul s a.y, z := fmul s a.z }
/-- dot(a, b). -/
def V3.dot (a b : V3) : Nat := fadd (fadd (fmul a.x b.x) (fmul a.y b.y)) (fmul a.z b.z)
/-- cross(a, b). -/
def V3.cross (a b : V3) : V3 :=
  { x := fsub (fmul a.y b.z) (fmul a.z b.y), y := fsub (fmul a.z b.x) (fmul a.x b.z), z := fsub (fmul a.x b.y) (fmul a.y b.x) }
/-- unit(x). -/
def V3.unit (a : V3) : V3 := V3.scale (frsq (a.dot a)) a
/-- rot(q, v). -/
def Quat.rot (q : Quat) (v : V3) : V3 :=
  let t := V3.scale 0x40000000 (q.v.cross v)
  (v.add (V3.scale q.w t)).add (q.v.cross t)
/-- rotinv(q, v). -/
def Quat.rotinv (q : Quat) (v : V3) : V3 := ({ w := q.w, v := { x := fneg q.v.x, y := fneg q.v.y, z := fneg q.v.z } } : Quat).rot v
/-- a ⊗ b (R377). -/
def Quat.mul (a b : Quat) : Quat :=
  { w := fsub (fsub (fsub (fmul a.w b.w) (fmul a.v.x b.v.x)) (fmul a.v.y b.v.y)) (fmul a.v.z b.v.z)
    v := ((V3.scale a.w b.v).add (V3.scale b.w a.v)).add (a.v.cross b.v) }
/-- dot4(Q, Q). -/
def Quat.norm2 (q : Quat) : Nat := fadd (fadd (fadd (fmul q.w q.w) (fmul q.v.x q.v.x)) (fmul q.v.y q.v.y)) (fmul q.v.z q.v.z)
/-- s·q. -/
def Quat.scale (s : Nat) (q : Quat) : Quat := { w := fmul s q.w, v := V3.scale s q.v }
/-- a + b. -/
def Quat.add (a b : Quat) : Quat := { w := fadd a.w b.w, v := a.v.add b.v }
/-- The magnitude's encoding. -/
def fmag (a : Nat) : Nat := a % 2 ^ 31
/-- The basis of a unit vector (R376): the axis of its smallest component, x before y before z. -/
def V3.basis (u : V3) : V3 × V3 :=
  let e : V3 := if fmag u.x ≤ fmag u.y ∧ fmag u.x ≤ fmag u.z then { x := fOne } else if fmag u.y ≤ fmag u.z then { y := fOne } else { z := fOne }
  let t1 := (u.cross e).unit
  (t1, u.cross t1)

/-! ### Records (R375) -/

/-- A body record. -/
structure Body where
  pos : List Nat := [0, 0, 0, 0, 0, 0]
  q : Quat := {}
  v : V3 := {}
  w : V3 := {}
  im : Nat := 0
  ii : V3 := {}
  f : V3 := {}
  tq : V3 := {}
  deriving DecidableEq, Repr
/-- Three words from an offset. -/
def v3At (b : List Byte) (o : Nat) : V3 := { x := natAt b o 4, y := natAt b (o + 4) 4, z := natAt b (o + 8) 4 }
/-- Reads a body. -/
def bodyOf (b : List Byte) : Body :=
  { pos := (List.range 6).map fun k => natAt b (4 * k) 4, q := { w := natAt b 24 4, v := v3At b 28 }, v := v3At b 40, w := v3At b 52
    im := natAt b 64 4, ii := v3At b 68, f := v3At b 80, tq := v3At b 92 }
/-- The words a STEP writes back: POS, Q, V and W. -/
def Body.words (b : Body) : List Nat := b.pos ++ [b.q.w, b.q.v.x, b.q.v.y, b.q.v.z, b.v.x, b.v.y, b.v.z, b.w.x, b.w.y, b.w.z]
/-- Whether a value is negative. -/
def fnegative (a : Nat) : Bool := !(f32 a).isNan && !(f32 a).isZero && (f32 a).neg
/-- Whether the masses of a body are not negative. -/
def Body.legal (b : Body) : Bool := [b.im, b.ii.x, b.ii.y, b.ii.z].all fun x => !fnegative x
/-- pos(b): RNE(hi + lo), per axis. -/
def Body.place (b : Body) : V3 :=
  let at_ := fun (k : Nat) => fadd (b.pos.getD (2 * k) 0) (b.pos.getD (2 * k + 1) 0)
  { x := at_ 0, y := at_ 1, z := at_ 2 }
/-- Iinv(b, x). -/
def Body.iinv (b : Body) (x : V3) : V3 := b.q.rot (b.ii.had (b.q.rotinv x))
/-- The number that names the world. -/
def worldIndex : Nat := 0xFFFF
/-- The world: no mass, no velocity, at the origin. -/
def worldBody : Body := {}
/-- A body of a list, or the world. -/
def bodyAt (bs : List Body) (k : Nat) : Body := if k = worldIndex then worldBody else bs.getD k {}

/-- One row of the solver (R377): its bodies, direction, bias, bounds, and arms. `friction` bounds it by MU times the accumulator of the
contact's normal row, which stands that many rows before it. -/
structure Row where
  a : Nat
  b : Nat
  linear : Bool
  n : V3
  rA : V3 := {}
  rB : V3 := {}
  bias : Nat := 0
  lo : Nat := 0xFF800000
  hi : Nat := 0x7F800000
  friction : Option (Nat × Nat) := none
  deriving DecidableEq, Repr

/-- A joint record with its limits, or none (R375). -/
def jointLegal (nb : Nat) (b : List Byte) : Bool :=
  let a := natAt b 4 2
  let c := natAt b 6 2
  decide (byteAt b 0 ≤ 2) && zeroAt b 1 3 && zeroAt b 44 20 && decide (a < nb) && (decide (c < nb) || c == worldIndex) && a != c
/-- A contact record. -/
def contactLegal (nb : Nat) (b : List Byte) : Bool :=
  let a := natAt b 0 2
  let c := natAt b 2 2
  zeroAt b 4 4 && zeroAt b 40 8 && decide (a < nb) && (decide (c < nb) || c == worldIndex) && a != c
    && !fnegative (natAt b 32 4) && !fnegative (natAt b 36 4)
/-- The world axes. -/
def axesXYZ : List V3 := [{ x := fOne }, { y := fOne }, { z := fOne }]
/-- The rows of a joint, in order. -/
def jointRows (bs : List Body) (beta : Nat) (r : List Byte) : List Row :=
  let ty := byteAt r 0
  let ia := natAt r 4 2
  let ib := natAt r 6 2
  let a := bodyAt bs ia
  let b := bodyAt bs ib
  let rA := a.q.rot (v3At r 8)
  let rB := if ib = worldIndex then v3At r 20 else b.q.rot (v3At r 20)
  let e := (a.place.add rA).sub (b.place.add rB)
  let t := (a.q.rot (v3At r 32)).basis
  let lin := if ty = 1 then [t.1, t.2] else axesXYZ
  let ang := if ty = 0 then [t.1, t.2] else axesXYZ
  (lin.map fun n => { a := ia, b := ib, linear := true, n := n, rA := rA, rB := rB, bias := fmul beta (n.dot e) : Row })
    ++ ang.map fun n => { a := ia, b := ib, linear := false, n := n }
/-- The rows of a contact, in order. -/
def contactRows (bs : List Body) (beta : Nat) (r : List Byte) : List Row :=
  let ia := natAt r 0 2
  let ib := natAt r 2 2
  let p := v3At r 8
  let n := v3At r 20
  let mu := natAt r 36 4
  let t := n.basis
  let row : Row := { a := ia, b := ib, linear := true, n := n, rA := p.sub (bodyAt bs ia).place, rB := p.sub (bodyAt bs ib).place }
  [{ row with bias := fneg (fmul beta (natAt r 32 4)), lo := 0, hi := 0x7F800000 },
   { row with n := t.1, friction := some (mu, 1) }, { row with n := t.2, friction := some (mu, 2) }]
/-- The state with a body changed; every update to the world is discarded. -/
def setBody (bs : List Body) (k : Nat) (f : Body → Body) : List Body := if k = worldIndex then bs else bs.modify k f
/-- One row acts: the bodies and its accumulator after it. -/
def Row.act (r : Row) (accN acc : Nat) (bs : List Body) : List Body × Nat :=
  let a := bodyAt bs r.a
  let b := bodyAt bs r.b
  let cA := if r.linear then r.rA.cross r.n else r.n
  let cB := if r.linear then r.rB.cross r.n else r.n
  let jv := if r.linear then fsub (fadd (r.n.dot a.v) (cA.dot a.w)) (fadd (r.n.dot b.v) (cB.dot b.w))
    else fsub (r.n.dot a.w) (r.n.dot b.w)
  let k := if r.linear then fadd (fadd (fadd a.im b.im) (cA.dot (a.iinv cA))) (cB.dot (b.iinv cB))
    else fadd (r.n.dot (a.iinv r.n)) (r.n.dot (b.iinv r.n))
  let hi := match r.friction with
    | some m => fmul m.1 accN
    | none => r.hi
  let lo := match r.friction with
    | some _ => fneg hi
    | none => r.lo
  if (f32 k).isZero then (bs, acc)
  else
    let d := fdiv (fneg (fadd jv r.bias)) k
    let new := fmin (fmax (fadd acc d) lo) hi
    let d := fsub new acc
    let bs := if r.linear then
        setBody (setBody bs r.a fun x => { x with v := x.v.add (V3.scale (fmul x.im d) r.n) }) r.b fun x =>
          { x with v := x.v.sub (V3.scale (fmul x.im d) r.n) }
      else bs
    (setBody (setBody bs r.a fun x => { x with w := x.w.add (V3.scale d (x.iinv cA)) }) r.b fun x =>
      { x with w := x.w.sub (V3.scale d (x.iinv cB)) }, new)
/-- One iteration over all rows, in order. -/
def sweepRows (rows : List Row) (bs : List Body) (accs : List Nat) : List Body × List Nat :=
  ((rows.zip (List.range rows.length)).foldl (fun (s : List Body × List Nat) x =>
    let accN := match x.1.friction with
      | some m => s.2.getD (x.2 - m.2) 0
      | none => 0
    let r := x.1.act accN (s.2.getD x.2 0) s.1
    (r.1, s.2.set x.2 r.2)) (bs, accs))
/-- The iterations. -/
def iterate (rows : List Row) : Nat → List Body × List Nat → List Body × List Nat
  | 0, s => s
  | n + 1, s => iterate rows n (sweepRows rows s.1 s.2)
/-- Velocities from forces (R377). -/
def Body.push (dt : Nat) (g : V3) (b : Body) : Body :=
  let a := V3.scale b.im b.f
  let a := if fpos b.im then a.add g else a
  { b with v := b.v.add (V3.scale dt a), w := b.w.add (V3.scale dt (b.iinv b.tq)) }
/-- Positions from velocities (R377, R142). -/
def Body.move (dt half : Nat) (b : Body) : Body :=
  let axis := fun (k v : Nat) =>
    (dwBinary (Fp.add 0) (fun h l y _ => dwAddF h l y) (f32 (b.pos.getD (2 * k) 0)) (f32 (b.pos.getD (2 * k + 1) 0)) (f32 (fmul dt v)) (f32 0)).1.map
      BitVec.toNat
  let q := b.q.add (Quat.scale half (({ w := 0, v := b.w } : Quat).mul b.q))
  { b with pos := axis 0 b.v.x ++ axis 1 b.v.y ++ axis 2 b.v.z, q := Quat.scale (frsq q.norm2) q }
/-- The step (R377). -/
def dynamics (bs : List Body) (joints contacts : List (List Byte)) (iter dt : Nat) (g : V3) : List Body :=
  let beta := fdiv 0x3E4CCCCD dt
  let bs := bs.map (Body.push dt g)
  let rows := joints.flatMap (jointRows bs beta) ++ contacts.flatMap (contactRows bs beta)
  let r := iterate rows iter (bs, rows.map fun _ => 0)
  let half := fmul 0x3F000000 dt
  r.1.map (Body.move dt half)
/-- Reads `n` records of `size` bytes. -/
def Job.records (j : Job) (va size n : Nat) : List (List Byte) × Job :=
  (List.range n).foldl (fun (r : List (List Byte) × Job) k =>
    let x := r.2.read (va + size * k) size
    (r.1 ++ [x.1], x.2)) ([], j)
/-- Whether the parameter block keeps its limits (R352). -/
def stepLegal (b : List Byte) : Bool :=
  let nb := natAt b 24 2
  let nj := natAt b 26 2
  let nc := natAt b 28 2
  addrOk (natAt b 0 8) 128 && (nj == 0 || addrOk (natAt b 8 8) 16) && (nc == 0 || addrOk (natAt b 16 8) 16)
    && decide (1 ≤ nb) && decide (nb ≤ 0x100) && decide (nj ≤ 0x400) && decide (nc ≤ 0x400)
    && decide (1 ≤ byteAt b 30) && decide (byteAt b 30 ≤ 0x20) && zeroAt b 31 1 && positive32 (natAt b 32 4)
    && finite32 (natAt b 36 4) && finite32 (natAt b 40 4) && finite32 (natAt b 44 4)
/-- The job: every record is read at its start, every body written at its end (R378). -/
def stepJob (param : Nat) (j : Job) : Job :=
  let b := j.read param 48
  let j := b.2.check (stepLegal b.1) wordBlock
  let nb := natAt b.1 24 2
  let rb := j.records (natAt b.1 0 8) 128 nb
  let rj := rb.2.records (natAt b.1 8 8) 64 (natAt b.1 26 2)
  let rc := rj.2.records (natAt b.1 16 8) 48 (natAt b.1 28 2)
  let bs := rb.1.map bodyOf
  let j := rc.2.check (bs.all Body.legal && rj.1.all (jointLegal nb) && rc.1.all (contactLegal nb)) wordBlock
  if j.ended.isSome then j else
  let out := dynamics bs rj.1 rc.1 (byteAt b.1 30) (natAt b.1 32 4) (v3At b.1 36)
  let j := (out.zip (List.range nb)).foldl (fun (j : Job) x => j.write (natAt b.1 0 8 + 128 * x.2) (x.1.words.flatMap fun w => leBytes 4 w)) j
  match out.findIdx? fun x => !x.words.all finite32 with
  | some k => j.finish 1 (BitVec.ofNat 32 k)
  | none => j.finish 0 (BitVec.ofNat 32 nb)
/-- STEP. -/
def execDynStep (e : Nat) (s : State) : Out := .next (s.startJob e (fun c => e == 4 && c.op == 0) stepJob)

end Sys2Proof.Machine
end

