-- ==== Sys2Proof/Machine/Lanes.lean ====
section
/-! DEFINITION. Opcodes 0xA0 to 0xAF: shuffles, broadcast, votes, ballot, scans and reductions (R157 to R165). -/

namespace Sys2Proof.Machine

/-! ### The shape of a cross-lane instruction (R158) -/

/-- Vector results of a collection: its beats follow the pass; `late` says that a whole-register consumer must wait two cycles more
(class XLANE). `res` gives words and flags for each of 64 lanes. -/
def State.collect (s : State) (dests marked : List Nat) (pass : Nat) (late : Bool) (w : BitVec 2) (act : LaneMask) (res : List (List Word × Nat)) : State :=
  if !State.rowsFor marked dests s then s.noRows marked dests
  else
    let fl := res.map (·.2)
    let s1 := State.replaceRows marked dests (State.allocRows dests s)
    let old := dests.map fun n => (n, s1.me.vrow n)
    let s2 := s1.writeResults act (res.map (·.1)) 0 dests
    let n := beatsOf act
    let s3 := if late then s2.withMe fun g => { g with
        pending := g.pending ++ old.map fun o => { target := .vec o.1 o.2, ready := s.now + pass + n + clsXLANE } } else s2
    (s3.freeMarked marked dests).finish { beats := n, extra := pass, stall := stallOf w } (orFlags fl) (lanesWith fl)
/-- A cross-lane instruction with vector results. -/
def State.cross (s : State) (legal : Bool) (uses : List Use) (dests marks : List Nat) (w : BitVec 2) (late draws : Bool)
    (f : State → LaneMask → List (List Word × Nat)) : State :=
  s.checked legal false uses fun s =>
    let act := s.active
    let res := f s act
    (if draws then s.advance false act else s).collect dests (s.marks marks) (s.me.width.lanes / 8) late w act res
/-- A cross-lane instruction with scalar results: class XRED. -/
def State.reduce (s : State) (legal : Bool) (uses : List Use) (dests marks : List Nat) (w : BitVec 2) (draws : Bool)
    (f : State → LaneMask → List Word × List (Nat × Nat)) : State :=
  s.checked legal false uses fun s =>
    let act := s.active
    let r := f s act
    let pass := s.me.width.lanes / 8
    let n := beatsOf act
    let s1 := if draws then s.advance false act else s
    let s2 := (dests.zip r.1).foldl (fun s p => s.putS p.1 p.2 (pass + n + clsXRED)) s1
    (s2.freeMarked (s.marks marks) []).finish { beats := n, extra := pass, stall := stallOf w } (orFlags (r.2.map (·.2)))
      fun e => maskOf fun k => r.2.any fun p => p.1 == k && p.2 &&& e != 0

/-! ### Shuffles and broadcast (R159, R160) -/

/-- The value of a name in a source lane, under the edge rule (R159). -/
def State.shuffled (s : State) (n i : Nat) (j : Int) : Word :=
  let w := s.me.width.lanes
  if 0 ≤ j ∧ j < w then s.laneWhole n j.toNat
  else match modeEDGE s.me.mode with
    | 0 => 0
    | 1 => s.laneWhole n i
    | _ => s.laneWhole n (j % w).toNat
/-- A shuffle of a name by a source-lane function. -/
def State.shuffle (s : State) (ok : Bool) (d a : BitVec 6) (uses : List Use) (marks : List Nat) (w : BitVec 2) (late : Bool) (f : State → Nat → Int) : Out :=
  .next (s.cross (vr d && vr a && ok) (.vw a.toNat :: uses) [d.toNat] marks w late false fun s act =>
    perLane act (fun i => ([s.shuffled a.toNat i (f s i)], 0)) ([], 0))
/-- SHFL. -/
def execShfl (d a b : BitVec 6) (w : BitVec 2) (x y : Bool) (s : State) : Out :=
  s.shuffle (vr b) d a [.vw b.toNat] ((if x then [a.toNat] else []) ++ (if y then [b.toNat] else [])) w true
    fun s i => (s.laneWhole b.toNat i).toNat
/-- SHFLX. -/
def execShflx (d a b : BitVec 6) (w : BitVec 2) (x : Bool) (s : State) : Out :=
  s.shuffle true d a [.s b.toNat] (if x then [a.toNat] else []) w true fun s i => (i ^^^ (bits (s.rs b.toNat) 0 6) : Nat)
/-- SHFLU. -/
def execShflu (d a : BitVec 6) (i : BitVec 11) (s : State) : Out := s.shuffle (small i 64) d a [] [] 0 false fun _ k => (k : Int) - i.toNat
/-- SHFLD. -/
def execShfld (d a : BitVec 6) (i : BitVec 11) (s : State) : Out := s.shuffle (small i 64) d a [] [] 0 false fun _ k => (k : Int) + i.toNat
/-- BCAST: to a vector in the active lanes, or to a scalar once. -/
def execBcast (d a : BitVec 6) (sc : Bool) (l : BitVec 6) (s : State) : Out :=
  .next (
    let ok := rd sc d && vr a && decide (l.toNat < s.me.width.lanes)
    if sc then s.checked ok true [.vw a.toNat] fun s => (s.putS d.toNat (s.laneWhole a.toNat l.toNat) clsNONE).retire { extra := 1 }
    else s.checked ok false [.vw a.toNat] fun s =>
      let act := s.active
      let v := s.laneWhole a.toNat l.toNat
      s.collect [d.toNat] [] 1 false 0 act (perLane act (fun _ => ([v], 0)) ([], 0)))

/-! ### Votes and ballot (R161) -/

/-- The lanes of Q. -/
def State.voters (s : State) (a b : BitVec 6) (act : LaneMask) : LaneMask :=
  act &&& (if b = 1 then ~~~ s.predWhole a.toNat else s.predWhole a.toNat)
/-- A vote writes its outcome into a predicate pair, in every active lane. -/
def State.vote (s : State) (d a b : BitVec 6) (w : BitVec 2) (f : LaneMask → LaneMask → Bool) : Out :=
  .next (s.checked (small d 6 && small a 12 && small b 2) false [.p a.toNat] fun s =>
    let act := s.active
    let yes := f (s.voters a b act) act
    let pass := s.me.width.lanes / 8
    let n := beatsOf act
    let s1 := s.withMe fun g =>
      let p := g.preg (2 * d.toNat)
      let q := g.preg (2 * d.toNat + 1)
      let ready := s.now + pass + n + clsXLANE
      { (g.setP (2 * d.toNat) (if yes then p ||| act else p &&& ~~~act)).setP (2 * d.toNat + 1) (if yes then q &&& ~~~act else q ||| act) with
        pending := g.pending ++ [{ target := .pred (2 * d.toNat) p, ready := ready }, { target := .pred (2 * d.toNat + 1) q, ready := ready }] }
    s1.retire { beats := n, extra := pass, stall := stallOf w })
/-- VOTEANY. -/
def execVoteany (d a b : BitVec 6) (w : BitVec 2) (s : State) : Out := s.vote d a b w fun q _ => q != 0
/-- VOTEALL. -/
def execVoteall (d a b : BitVec 6) (w : BitVec 2) (s : State) : Out := s.vote d a b w fun q act => q == act
/-- BALLOT. -/
def execBallot (d a b : BitVec 6) (w : BitVec 2) (s : State) : Out :=
  .next (s.cross (vpair d && small a 12 && small b 2) [.p a.toNat] [d.toNat, d.toNat + 1] [] w true false fun s act =>
    let q := s.voters a b act
    perLane act (fun _ => ([lo32 q, hi32 q], 0)) ([], 0))

/-! ### Scans and reductions (R162 to R164) -/

/-- Running values over the active lanes in ascending order: for each lane its number, the value before and after its step, and the
flags of the step. `first` takes the first lane's value, `step` adds a later one. -/
def running (first : Nat → Word × Nat) (step : Nat → Word → Word × Nat) : Option Word → List Nat → List (Nat × Option Word × Word × Nat)
  | _, [] => []
  | none, k :: ks => let r := first k; (k, none, r.1, r.2) :: running first step (some r.1) ks
  | some x, k :: ks => let r := step k x; (k, some x, r.1, r.2) :: running first step (some r.1) ks
/-- The first value of a float combination: taken exactly, flushed as an input; a NaN is canonical and NV reports a signalling one. -/
def State.firstFloat (s : State) (x : Word) : Word × Nat :=
  s.unrounded (fun f ftz v _ => match f.unpack ftz v with
    | .nan q => (f.nan, if q then fNV else 0)
    | _ => (f.flushed ftz v, 0)) x 0
/-- The running sums of a name as integers. -/
def State.runAdd (s : State) (n : Nat) (act : LaneMask) : List (Nat × Option Word × Word × Nat) :=
  running (fun k => (s.laneWhole n k, 0)) (fun k x => s.ints false true none (exact2 (· + ·)) x (s.laneWhole n k) 0) none (lanesOf act)
/-- The running sums of a name as floats: the step of a lane uses that lane's draw. -/
def State.runFadd (s : State) (n : Nat) (act : LaneMask) : List (Nat × Option Word × Word × Nat) :=
  running (fun k => s.firstFloat (s.laneWhole n k))
    (fun k x => s.rounded k (fun rm a b _ => Fp.add rm a b) x (s.laneWhole n k) 0) none (lanesOf act)
/-- A scan: each active lane gets the value after its own step, or before it. -/
def scanOut (excl : Bool) (rs : List (Nat × Option Word × Word × Nat)) (act : LaneMask) : List (List Word × Nat) :=
  perLane act (fun k => match rs.find? (·.1 == k) with
    | some r => ([if excl then r.2.1.getD 0 else r.2.2.1], r.2.2.2)
    | none => ([], 0)) ([], 0)
/-- SCANADD. -/
def execScanadd (d a b : BitVec 6) (w : BitVec 2) (x : Bool) (s : State) : Out :=
  .next (s.cross (vr d && vr a && small b 2) [.vw a.toNat] [d.toNat] (if x then [a.toNat] else []) w true false fun s act =>
    scanOut (b == 1) (s.runAdd a.toNat act) act)
/-- SCANFADD. -/
def execScanfadd (d a b : BitVec 6) (w : BitVec 2) (x : Bool) (s : State) : Out :=
  .next (s.cross (vr d && vr a && small b 2 && s.floatET) [.vw a.toNat] [d.toNat] (if x then [a.toNat] else []) w true s.drawing fun s act =>
    scanOut (b == 1) (s.runFadd a.toNat act) act)
/-- A reduction's value and the flags of its steps. -/
def reduced (rs : List (Nat × Option Word × Word × Nat)) (empty : Word) : List Word × List (Nat × Nat) :=
  ([(rs.getLast?.map fun r => r.2.2.1).getD empty], rs.map fun r => (r.1, r.2.2.2))
/-- REDADD. -/
def execRedadd (d a : BitVec 6) (w : BitVec 2) (x : Bool) (s : State) : Out :=
  .next (s.reduce (vr a) [.vw a.toNat] [d.toNat] (if x then [a.toNat] else []) w false fun s act => reduced (s.runAdd a.toNat act) 0)
/-- REDFADD. -/
def execRedfadd (d a : BitVec 6) (w : BitVec 2) (x : Bool) (s : State) : Out :=
  .next (s.reduce (vr a && s.floatET) [.vw a.toNat] [d.toNat] (if x then [a.toNat] else []) w s.drawing fun s act =>
    reduced (s.runFadd a.toNat act) 0)
/-- The value of an empty minimum or maximum (R164). -/
def State.emptyExtreme (s : State) (larger : Bool) (kind : Nat) : Word :=
  if kind = 2 then s.floats (fun _ _ _ _ => ((etFmt s.me.mode).inf larger, 0)) 0 0 0 |>.1
  else
    let w := (intType false s.me.mode).1
    (eachElem w fun _ => ((if kind = 0 then (if larger then 2 ^ (w - 1) else 2 ^ (w - 1) - 1) else if larger then 0 else 2 ^ w - 1), 0)).1
/-- The least or largest value of a name over the active lanes under `b`, with the flags of the steps (R164). -/
def State.extremeOf (s : State) (larger : Bool) (a b : BitVec 6) : List Word × List (Nat × Nat) :=
  let step := fun (k : Nat) (v : Word) =>
    if b = 2 then s.unrounded (minMax larger) v (s.laneWhole a.toNat k)
    else s.ints false false (some (b == 0)) (exact2 (if larger then max else min)) v (s.laneWhole a.toNat k) 0
  let first := fun (k : Nat) => if b = 2 then s.firstFloat (s.laneWhole a.toNat k) else (s.laneWhole a.toNat k, 0)
  reduced (running first step none (lanesOf s.active)) (s.emptyExtreme larger b.toNat)
/-- REDMIN and REDMAX. -/
def State.extreme (s : State) (larger : Bool) (d a b : BitVec 6) (w : BitVec 2) (x : Bool) : Out :=
  .next (s.reduce (vr a && small b 3 && (b != 2 || s.floatET)) [.vw a.toNat] [d.toNat] (if x then [a.toNat] else []) w false fun s _ =>
    s.extremeOf larger a b)
/-- REDMIN. -/
def execRedmin (d a b : BitVec 6) (w : BitVec 2) (x : Bool) (s : State) : Out := s.extreme false d a b w x
/-- REDMAX. -/
def execRedmax (d a b : BitVec 6) (w : BitVec 2) (x : Bool) (s : State) : Out := s.extreme true d a b w x

/-! ### Compensated reductions (R165) -/

/-- One FACC step on the words of a pair: words and flags. -/
def faccStep (p : List Word × Nat) (y : Nat) : List Word × Nat :=
  let h := f32 (p.1.getD 0 0).toNat
  let l := f32 (p.1.getD 1 0).toNat
  let r := dwBinary (Fp.add 0) (fun h l y _ => dwAddF h l y) h l (f32 y) plusZero
  (r.1, p.2 ||| r.2)
/-- TP with the special cases of R144: the words of the pair and the flags. -/
def tpStep (a b : Word) : List Word × Nat :=
  let x := f32 a.toNat
  let y := f32 b.toNat
  match Fp.mul x y with
  | .exact _ => (dwTP x y).words
  | r => dwSpecial r
/-- The pair of x_first and +0, where it is the result: a NaN is canonical (R45, R46). -/
def firstPair (x : Word) : List Word × Nat :=
  match f32 x.toNat with
  | .nan q => dwSpecial (.nan (if q then fNV else 0))
  | _ => ([x, 0], 0)
/-- Folds steps over lanes, keeping each lane's flags. -/
def foldLanes (f : Nat → Option (List Word) → List Word × Nat) : Option (List Word) → List Nat → List Word × List (Nat × Nat)
  | p, [] => (p.getD [0, 0], [])
  | p, k :: ks =>
    let r := f k p
    let t := foldLanes f (some r.1) ks
    (t.1, (k, r.2) :: t.2)
/-- The compensated sum of a name over the active lanes, with the flags of the steps. -/
def State.sumOf (s : State) (a : BitVec 6) : List Word × List (Nat × Nat) :=
  match lanesOf s.active with
  | [k] => let r := firstPair (s.laneWhole a.toNat k); (r.1, [(k, r.2)])
  | ks => foldLanes (fun k p => match p with
    | none => ([s.laneWhole a.toNat k, 0], 0)
    | some p => faccStep (p, 0) (s.laneWhole a.toNat k).toNat) none ks
/-- REDSUMC. -/
def execRedsumc (d a : BitVec 6) (w : BitVec 2) (x : Bool) (s : State) : Out :=
  .next (s.reduce (even d && vr a) [.vw a.toNat] [d.toNat, d.toNat + 1] (if x then [a.toNat] else []) w false fun s _ => s.sumOf a)
/-- The compensated dot product of two names over the active lanes, with the flags of the steps. -/
def State.dotOf (s : State) (a b : BitVec 6) : List Word × List (Nat × Nat) :=
  foldLanes (fun k p =>
    let t := tpStep (s.laneWhole a.toNat k) (s.laneWhole b.toNat k)
    let q := faccStep (p.getD [0, 0], t.2) (t.1.getD 0 0).toNat
    faccStep q (t.1.getD 1 0).toNat) none (lanesOf s.active)
/-- REDDOTC. -/
def execReddotc (d a b : BitVec 6) (w : BitVec 2) (x y : Bool) (s : State) : Out :=
  .next (s.reduce (even d && vr a && vr b) [.vw a.toNat, .vw b.toNat] [d.toNat, d.toNat + 1]
    ((if x then [a.toNat] else []) ++ (if y then [b.toNat] else [])) w false fun s _ => s.dotOf a b)

end Sys2Proof.Machine
end

