-- ==== Sys2Proof/Machine/Logic.lean ====
section
/-! DEFINITION. Opcodes 0x30 to 0x3F: logic, shifts, bit fields, byte permute, funnel shift, select (R110 to R114). -/

namespace Sys2Proof.Machine

/-- A two-operand function of whole words, without flags. -/
def State.logic (s : State) (d a b : BitVec 6) (w : BitVec 2) (u x y : Bool) (f : Word → Word → Word) : Out :=
  .next (s.bin true d a b w u x y 1 clsSIMPLE false fun _ _ p q => (f p q, 0))
/-- A one-operand function of whole words, without flags. -/
def State.logic1 (s : State) (d a : BitVec 6) (w : BitVec 2) (u x : Bool) (f : Word → Word) : Out :=
  .next (s.una true d a w u x 1 clsSIMPLE false fun _ _ p => (f p, 0))

/-- AND (R110). -/
def execAnd (d a b : BitVec 6) (w : BitVec 2) (u x y : Bool) (s : State) : Out := s.logic d a b w u x y (· &&& ·)
/-- OR (R110). -/
def execOr (d a b : BitVec 6) (w : BitVec 2) (u x y : Bool) (s : State) : Out := s.logic d a b w u x y (· ||| ·)
/-- XOR (R110). -/
def execXor (d a b : BitVec 6) (w : BitVec 2) (u x y : Bool) (s : State) : Out := s.logic d a b w u x y (· ^^^ ·)
/-- ANDN (R110). -/
def execAndn (d a b : BitVec 6) (w : BitVec 2) (u x y : Bool) (s : State) : Out := s.logic d a b w u x y fun p q => p &&& ~~~q
/-- SHL: a count of 32 or more gives 0 (R110). -/
def execShl (d a b : BitVec 6) (w : BitVec 2) (u x y : Bool) (s : State) : Out := s.logic d a b w u x y fun p q => p <<< q.toNat
/-- SHR (R110). -/
def execShr (d a b : BitVec 6) (w : BitVec 2) (u x y : Bool) (s : State) : Out := s.logic d a b w u x y fun p q => p >>> q.toNat
/-- SHRA: a count of 32 or more gives copies of bit 31 (R110). -/
def execShra (d a b : BitVec 6) (w : BitVec 2) (u x y : Bool) (s : State) : Out := s.logic d a b w u x y fun p q => p.sshiftRight q.toNat
/-- ROTL (R110). -/
def execRotl (d a b : BitVec 6) (w : BitVec 2) (u x y : Bool) (s : State) : Out := s.logic d a b w u x y fun p q => p.rotateLeft (q.toNat % 32)
/-- Number of 1 bits (R110). -/
def popCount (x : Word) : Nat := ((List.range 32).filter fun k => bit x k).length
/-- Leading zeros (R110). -/
def leadingZeros (x : Word) : Nat := if x = 0 then 32 else 31 - Nat.log2 x.toNat
/-- POPC (R110). -/
def execPopc (d a : BitVec 6) (w : BitVec 2) (u x : Bool) (s : State) : Out := s.logic1 d a w u x fun p => BitVec.ofNat 32 (popCount p)
/-- CLZ (R110). -/
def execClz (d a : BitVec 6) (w : BitVec 2) (u x : Bool) (s : State) : Out := s.logic1 d a w u x fun p => BitVec.ofNat 32 (leadingZeros p)
/-- BREV (R110). -/
def execBrev (d a : BitVec 6) (w : BitVec 2) (u x : Bool) (s : State) : Out := s.logic1 d a w u x fun p => p.reverse

/-- Offset, clipped width and mask of a bit-field control word (R111). -/
def fieldOf (c : Word) : Nat × Nat := (bits c 0 5, min (bits c 8 6) (32 - bits c 0 5))
/-- BFX on words (R111). -/
def extract (sx : Bool) (a c : Word) : Word :=
  let f := fieldOf c
  if f.2 = 0 then 0 else if sx then lo32 (sext f.2 (bits a f.1 f.2)) else BitVec.ofNat 32 (bits a f.1 f.2)
/-- BFI on words (R111). -/
def insert (a c d : Word) : Word := let f := fieldOf c; setBits d f.1 f.2 a.toNat
/-- BFX (R111). -/
def execBfx (d a b : BitVec 6) (u sx : Bool) (s : State) : Out :=
  .next (s.bin true d a b 0 u false false 1 clsNONE false fun _ _ p q => (extract sx p q, 0))
/-- BFI (R111). -/
def execBfi (d a b : BitVec 6) (u : Bool) (s : State) : Out :=
  .next (s.tri true d a b 0 u false false false 1 clsNONE false fun _ _ p q r => (insert p q r, 0))
/-- Result byte of BPERM for a nibble (R112). -/
def permByte (a : Word) (q : Nat) : Nat :=
  match q with
  | 4 => 0
  | 5 => 0xFF
  | 6 => if bit a 15 then 0xFF else 0
  | 7 => if bit a 31 then 0xFF else 0
  | q => bits a (8 * q) 8
/-- BPERM (R112). -/
def execBperm (d a b : BitVec 6) (w : BitVec 2) (u x y : Bool) (s : State) : Out :=
  s.logic d a b w u x y fun p q => BitVec.ofNat 32 (leNat ((List.range 4).map fun k => BitVec.ofNat 8 (permByte p (bits q (4 * k) 3))))
/-- FSHF: bits 31 + c down to c of b ‖ a, with c in bits 4:0 of the old d (R113). -/
def execFshf (d a b : BitVec 6) (w : BitVec 2) (u x y z : Bool) (s : State) : Out :=
  .next (s.tri true d a b w u x y z 1 clsSIMPLE false fun _ _ p q r => (lo32 (pair p q >>> bits r 0 5), 0))
/-- SEL (R114). -/
def execSel (d a b : BitVec 6) (n : Bool) (p : BitVec 4) (s : State) : Out :=
  .next (s.bin (small p 12) d a b 0 false false false 1 clsNONE false fun s k x y =>
    (if bit (s.me.preg p.toNat) k != n then x else y, 0))

end Sys2Proof.Machine
end

