-- ==== Sys2Proof/Machine/Stack.lean ====
section
/-! DEFINITION. The mesh (R388 to R391), permits and their audit (R394 to R396), the wait-cycle probe and reports (R397, R398), gating
(R383, R384, R399, R400) and the governor (R401, R402). -/

namespace Sys2Proof.Machine

/-! ### Reports (R398) -/

/-- Whether the report ring has room. -/
def Partition.reportRoom (p : Partition) : Bool :=
  p.reg2 0x8C1 != 0 && decide ((p.reg 0x8C4 0 - p.reg 0x8C5 0).toNat < 2 ^ bits (p.reg 0x8C3 6) 0 5)
/-- A report waits to be written; without a ring the report vector is raised once (R332). -/
def State.pushReport (s : State) (part : Nat) (r : Report) : State :=
  let first := (s.part part).reg2 0x8C1 == 0 && !(s.part part).reportRaised
  let s := s.setPart part fun p => { p with reports := p.reports ++ [r], reportRaised := p.reportRaised || first }
  if first then s.msi (part + 1) 2 else s
/-- The 32 bytes of report number q. -/
def Report.bytes (r : Report) (q : Nat) : List Byte :=
  [BitVec.ofNat 8 r.kind, BitVec.ofNat 8 r.len, 0, 0] ++ leBytes 4 r.id.toNat ++ leBytes 4 q ++ leBytes 4 r.a.toNat
    ++ (List.range 4).flatMap fun k => leBytes 4 (r.b.getD k 0).toNat
/-- REPORT_WRITE: the oldest report goes to the ring, RPHEAD advances, the vector is raised. A report whose write faults is an
Atelier access that faults (R336). -/
def State.writeReport (s : State) (part : Nat) : State :=
  let p := s.part part
  match p.reports with
  | [] => s
  | r :: rs =>
    if !p.reportRoom then s
    else
      let q := p.reg 0x8C4 0
      let s1 := s.setPart part fun p => { p with reports := rs }
      match s1.atelierWrite part (p.reg2 0x8C1 + 32 * (q.toNat % 2 ^ bits (p.reg 0x8C3 6) 0 5)) (r.bytes q.toNat) with
      | .ok s2 => (s2.setPart part fun p => p.setReg 0x8C4 (q + 1)).msi (part + 1) 2
      | .error e => s1.atelierFault part e true
/-- REPORT_WRITE. -/
def execReportWrite (p : Nat) (s : State) : Out := .next (s.writeReport p)

/-! ### Permit-counted channels (R394) -/

/-- What the audit sees of a channel: its owner if a partition, its total, held, in flight, occupied, its epoch, its report flag. -/
structure Terms where
  owner : Option Nat
  total : Nat
  held : Nat
  flight : Nat
  occupied : Nat
  epoch : Nat
  flagged : Bool

/-- The chains of a partition in an engine's queue; none of an older epoch (R396). -/
def State.queued (s : State) (e part : Nat) : List Chain := ((s.engines[e]?.getD {}).chains).filter fun c => c.part == part && !c.stale
/-- The partition that owns both cores of a pair (R394). -/
def State.pairOwner (s : State) (tile : Nat) : Option Nat := (s.coreOwner tile).filter fun p => s.coreOwner (partner tile) == some p
/-- Entries of a mailbox that a grant reserves. -/
def Mailbox.reserved (m : Mailbox) : Nat := (m.slots.filter fun x => x.owner.isSome).length
/-- The channel an id names (R394): none for an id that names no channel. -/
def State.terms (s : State) (id : Nat) : Option Terms :=
  let low := fun n => id % 2 ^ n
  let hi := id % 2 ^ 28
  let own := fun (p : Nat) => (s.part p).state != .none
  let chan := fun (p : Nat) => lookD (s.part p).chans id (0, false)
  match id / 2 ^ 28 with
  | 1 =>
    if hi < 128 then
      let r := lookD s.receivers hi {}
      some { owner := none, total := 32, held := 32 - r.granted.length - r.occupied.length, flight := r.granted.length, occupied := r.occupied.length
             epoch := r.epoch.toNat, flagged := r.flagged }
    else none
  | 2 =>
    if hi < 96 then
      let c := s.channel hi
      some { owner := s.pairOwner hi, total := 16, held := c.held, flight := c.link.length + c.back, occupied := c.fifo.length
             epoch := c.epoch.toNat, flagged := c.flagged }
    else none
  | 3 =>
    let p := hi / 256
    if hi < 2048 && low 8 < 5 && own p then
      let n := (s.queued (low 8) p).length
      some { owner := some p, total := 64, held := 64 - n, flight := 0, occupied := n, epoch := (chan p).1, flagged := (chan p).2 }
    else none
  | 4 =>
    let p := hi / 256
    if hi < 2048 && low 8 < 64 && own p then
      let n := ((lookD (s.part p).moulds (low 8) {}).tiles.toList.filter (·.state == .cast)).length
      some { owner := some p, total := 2, held := 2 - n, flight := 0, occupied := n, epoch := (chan p).1, flagged := (chan p).2 }
    else none
  | 5 =>
    if hi < 4096 && low 8 < 96 then
      let m := s.mailbox hi
      match s.existing.find? fun p => (s.part p).ownsMailbox hi with
      | some p => some { owner := some p, total := 8, held := 8 - m.slots.length, flight := m.reserved
                         occupied := m.slots.length - m.reserved, epoch := m.epoch.toNat, flagged := m.flagged }
      | none => none
    else none
  | _ => none
/-- The report flag of a channel is set or cleared. -/
def State.flagChannel (s : State) (id : Nat) (b : Bool) : State :=
  let hi := id % 2 ^ 28
  match id / 2 ^ 28 with
  | 1 => { s with receivers := put hi { (lookD s.receivers hi {}) with flagged := b } s.receivers }
  | 2 => s.setChannel hi fun c => { c with flagged := b }
  | 5 => s.setMailbox hi fun m => { m with flagged := b }
  | _ => s.setPart (hi / 256) fun p => { p with chans := put id ((lookD p.chans id (0, false)).1, b) p.chans }
/-- Ids of every channel that may exist, ascending; the audit visits those that do (R395). -/
def channelIds : List Nat :=
  (List.range 128).map (2 ^ 28 + ·) ++ (List.range 96).map (2 * 2 ^ 28 + ·)
    ++ (List.range 8).flatMap (fun p => (List.range 5).map (3 * 2 ^ 28 + 256 * p + ·))
    ++ (List.range 8).flatMap (fun p => (List.range 64).map (4 * 2 ^ 28 + 256 * p + ·))
    ++ (List.range 16).flatMap (fun m => (List.range 96).map (5 * 2 ^ 28 + 256 * m + ·))
/-- Cycles between samples for a channel: AUDPER of its owner; a device channel goes by the reset value (DEDUCED). -/
def State.auditPeriod (s : State) (id : Nat) : Nat :=
  match (s.terms id).bind (·.owner) with
  | some p => bits ((s.part p).reg 0x8C0 0x40) 0 16
  | none => 0x40
/-- Whether the audit's next sample is due: reports of the audit that wait for room hold it up (R398). -/
def State.auditDue (s : State) : Bool :=
  decide (s.auditAt + s.auditPeriod s.auditNext ≤ s.now) && decide (s.auditAt < s.now)
    && s.parts.toList.all fun p => p.reports.all fun r => r.kind != 1
/-- AUDIT_SAMPLE: one channel's terms are latched and compared with its total (R395). -/
def State.audit (s : State) : State :=
  let id := s.auditNext
  let s1 := { s with auditAt := s.now, auditNext := (channelIds.find? fun x => decide (id < x) && (s.terms x).isSome).getD (2 ^ 28) }
  match s.terms id with
  | none => s1
  | some t =>
    if s.auditPeriod id = 0 then s1
    else
      let sum := t.held + t.flight + t.occupied
      if sum = t.total then s1.flagChannel id false
      else if t.flagged then s1
      else
        let w := fun (n : Nat) => BitVec.ofNat 32 n
        let r : Report := { kind := 1, id := w id, a := w sum, b := [w t.held, w t.flight, w t.occupied, w t.epoch] }
        (match t.owner with
          | some p => s1.pushReport p r
          | none => s1.msi 0 1).flagChannel id true
/-- AUDIT_SAMPLE. -/
def execAuditSample (s : State) : Out := .next (if s.auditDue then s.audit else s)

/-- A receiver's pool is reset: packets whose flits are under way are lost as they arrive, and a sender that has injected none reserves
anew (R391, R396). -/
def State.resetPool (s : State) (rx : Nat) : State :=
  let r := lookD s.receivers rx {}
  let ours := fun (f : Flit) => f.dst == rx && decide (1 < f.size) && !f.reserve
  let begun := fun (f : Flit) => (look f.packet r.occupied).isSome
  let waiting := s.inject.filter fun f => ours f && !begun f
  let anew := (waiting.filter fun f => (waiting.find? fun x => x.packet == f.packet) == some f).map fun f => { f with reserve := true, size := 1, epoch := r.epoch + 1 }
  { s with receivers := put rx { epoch := r.epoch + 1, lastGranted := r.lastGranted } s.receivers
           inject := (s.inject.filter fun f => !(ours f && begun f) && !(f.dst == rx && f.reserve)).map (fun f => if ours f then { f with epoch := r.epoch + 1 } else f)
             ++ anew }
/-- An engine's queue is reset: its chains are lost, and one whose job runs is discarded when it ends (R396). -/
def State.resetQueue (s : State) (e p : Nat) : State :=
  let gone : List Chain := s.queued e p
  let keep := fun (c : Chain) => if c.part = p && !c.stale then (if c.busy then some { c with cancel := true, stale := true } else none) else some c
  let s := if h : e < 5 then { s with engines := s.engines.set e { s.engines[e] with chains := s.engines[e].chains.filterMap keep } } else s
  gone.foldl (fun (s : State) (c : Chain) => match c.pos with
    | ChainAt.entered n => s.leaveUnit p n
    | _ => s) s
/-- A mould's tiles are reset: the first fills; a consumer that still runs is counted when it completes (R280, R396). -/
def State.resetTiles (s : State) (p m : Nat) : State :=
  s.setMould p m fun m => { m with
    tiles := if m.enabled then (Vector.replicate 2 {}).set 0 { state := .filling } else Vector.replicate 2 {}
    stale := m.stale ++ m.tiles.toList.filterMap (·.consumer) }
/-- A channel is set to its reset state under the next epoch (R396); waiting posts go on waiting for the new permits. -/
def State.resetChan (s : State) (id : Nat) : State :=
  let hi := id % 2 ^ 28
  let s : State := match id / 2 ^ 28 with
    | 1 => s.resetPool hi
    | 2 => s.resetChannel hi
    | 3 => s.resetQueue (hi % 256) (hi / 256)
    | 4 => s.resetTiles (hi / 256) (hi % 256)
    | _ => (s.sound 10 (hi % 128) (mailWord hi) 64).setMailbox hi fun m => { m with slots := [], epoch := m.epoch + 1 : Mailbox }.reserve
  let s := match id / 2 ^ 28 with
    | 3 | 4 => s.setPart (hi / 256) fun p => { p with chans := put id (((lookD p.chans id (0, false)).1 + 1) % 65536, false) p.chans }
    | _ => s
  s.flagChannel id false
/-- A write of CHRST in a partition's view, by its code or the host (8): the channel is reset, or the number reads back refused. -/
def State.chReset (s : State) (who part : Nat) (id : Word) : State :=
  let note := fun (s : State) (v : Word) => s.setPart part fun p => p.setReg 0x8C6 v
  match s.terms id.toNat with
  | none => note s (id ||| 0x80000000)
  | some t =>
    if t.owner = some part || (t.owner.isNone && who == 8) then note (s.resetChan id.toNat) id else note s (id ||| 0x80000000)
/-- CHANNEL_RESET: the host may reset any channel, a partition its own. -/
def execChannelReset (who : Nat) (id : Word) (s : State) : Out :=
  .next (if who < 8 then (if (s.part who).state = .none then s else s.chReset who who id)
    else match s.terms id.toNat with
      | some t => s.chReset 8 (t.owner.getD 0) id
      | none => s)

/-! ### The wait-cycle probe (R397) -/

/-- Whether a group has a held path, or a parked one: 3 HELD, 4 PARKED, else 1 (R397, R398). -/
def Group.stopKind (g : Group) : Nat :=
  let any := fun (f : Path → Bool) => g.entries.any fun n => f (g.path n)
  if any fun p => p.state == .held then 3 else if any fun p => p.parked.isSome then 4 else 1
/-- The id of a unit. -/
def State.unitId (s : State) (u : ProbeUnit) : Word :=
  match u with
  | .chain e _ _ => BitVec.ofNat 32 (0x2 * 2 ^ 28 + 0x7F * 2 ^ 16 + e)
  | .group seq | .stopped seq =>
    let g := (s.group? seq).getD {}
    BitVec.ofNat 32 (g.stopKind * 2 ^ 28 + g.tile * 2 ^ 16 + 8 * g.pipe + g.slot)
/-- The groups of some teams. -/
def State.groupsOf (s : State) (teams : List Team) : List ProbeUnit := (s.allGroups.filter fun g => teams.any (·.id == g.team)).map fun g => .group g.seq
/-- The groups of a task. -/
def State.taskGroups (s : State) (part id : Nat) : List ProbeUnit := (s.allGroups.filter fun g => g.part == part && g.task == id).map fun g => .group g.seq
/-- The engine and chain that hold a future. -/
def State.chainOf (s : State) (team future : Nat) : List ProbeUnit :=
  (List.range 5).filterMap fun e => if (s.engines[e]?.getD {}).chains.any fun c => c.team == team && c.future == future then some (.chain e team future) else none
/-- The units a waiting path of a group publishes, and whether any of them suffices. -/
def State.published (s : State) (g : Group) (w : Wait) : List ProbeUnit × Bool :=
  let t := s.team g.team
  let inTeam := fun (f : Group → Bool) => (s.allGroups.filter fun x => x.team == g.team && f x).map fun x => ProbeUnit.group x.seq
  match w with
  | .barrier false _ => (inTeam fun x => !t.arrived.contains x.index, false)
  | .barrier true _ =>
    ((s.allGroups.filter fun x => (s.clusterTeams t).any fun y => y.id == x.team && !y.carrived.contains x.index).map fun x => .group x.seq, false)
  | .gangRelease | .gangLatchFree => (inTeam fun x => bit t.gang x.index && !(t.latch.any (·.group == x.seq)), false)
  | .future h => (s.chainOf g.team (h.toNat % 64), false)
  | .tasks ids => (ids.flatMap fun id => s.taskGroups g.part id, false)
  | .mouldTile m => ((lookD (s.part g.part).moulds m {}).tiles.toList.flatMap fun k => match k.consumer with
      | some id => s.taskGroups g.part id
      | none => [], false)
  | .fifoSpace | .fifoEntry => (s.groupsOf ((s.clusterTeams t).filter fun x => x.tile == partner g.tile), true)
  | _ => ([], false)
/-- Whether a path of a group has arrived at a join that a held or parked sibling keeps (R397). -/
def Group.joinStopped (g : Group) : Bool :=
  g.entries.any fun n => (g.path n).state == .joined && g.entries.any fun k =>
    (g.path k).parent == some n && ((g.path k).state == .held || (g.path k).parked.isSome)
/-- Whether a path waits in a BLOCK instruction that its unit has not answered. -/
def State.waitsNow (s : State) (g : Group) (n : Nat) : Option Wait :=
  ((g.path n).wait).bind fun w => if w = .quota || s.waitOver { g with cur := n } w then none else some w
/-- Whether a unit is itself waiting, or holds a job that waits for its edges. -/
def State.unitWaits (s : State) (u : ProbeUnit) : Bool :=
  match u with
  | .group seq => match s.group? seq with
    | some g => g.stopKind == 1 && g.entries.any fun n => (s.waitsNow g n).isSome
    | none => false
  | .stopped _ => false
  | .chain e team future => (s.engines[e]?.getD {}).chains.any fun c => c.team == team && c.future == future && (match c.pos with
    | .entered n => !((s.part c.part).depClear n)
    | _ => false)
/-- The units that a unit forwards a probe to, along all of its published edges: none where it does not wait. A probe that a held or parked
group receives ends there (R397). -/
def State.forwards (s : State) (u : ProbeUnit) : List ProbeUnit :=
  match u with
  | .group seq => match s.group? seq with
    | none => []
    | some g => ((if g.joinStopped then [ProbeUnit.stopped seq] else []) ++ g.entries.flatMap fun n => match s.waitsNow g n with
        | none => []
        | some w => let x := s.published g w; if x.2 && !(x.1.all s.unitWaits) then [] else x.1).eraseDups
  | .stopped _ => []
  | .chain e team future => (((s.engines[e]?.getD {}).chains.filter fun c => c.team == team && c.future == future).flatMap fun c => match c.pos with
    | .entered n =>
      let p := s.part c.part
      let edges := ((p.dep.find? (·.num == n)).map (·.edges)).getD []
      (p.dep.filter fun y => edges.contains y.num).flatMap fun y => match y.task, y.job with
        | some id, _ => s.taskGroups c.part id
        | _, some (t, f) => s.chainOf t f
        | _, _ => []
    | _ => []).eraseDups
/-- Whether a path of a group has waited long enough for a probe. -/
def State.probeDue (s : State) (g : Group) (n : Nat) : Bool :=
  let thr := ((s.part g.part).reg 0x8C7 0x10000).toNat
  thr != 0 && (s.waitsNow g n).isSome && decide (((g.path n).probedAt.getD (g.path n).waitSince) + thr ≤ s.now)
    && (s.part g.part).reports.all fun r => r.kind != 2
/-- A probe leaves a unit along all of its edges. -/
def State.spread (s : State) (initiator num : Nat) (path : List Word) (u : ProbeUnit) : State :=
  let path := path ++ [s.unitId u]
  { s with probes := s.probes ++ (s.forwards u).map fun x => { initiator := initiator, num := num, path := path, at_ := x }
           probeSeen := s.probeSeen ++ [(num, u)] }
/-- PROBE_SEND: a group that has waited WCTHR cycles in one BLOCK instruction sends a probe. -/
def execProbeSend (g : Nat) (s : State) : Out :=
  .next (match s.group? g with
    | none => s
    | some x => match x.entries.find? fun n => s.probeDue x n with
      | none => s
      | some n =>
        let s := s.setGroup g fun y => y.setPath n fun p => { p with probedAt := some s.now }
        { s with probeNum := s.probeNum + 1 }.spread g s.probeNum [] (.group g))
/-- A probe at a unit: back at its initiator it becomes a report; a held or parked group answers, and it ends; a waiting unit sends it on
along every edge, once; elsewhere it ends (R397). -/
def State.probeAt (s : State) (x : Probe) : State :=
  let answer := fun (s : State) => { s with probeAnswers := s.probeAnswers ++ [(x.initiator, s.unitId x.at_)] }
  match x.at_ with
  | .stopped _ => answer s
  | .group seq =>
    if seq = x.initiator then
      match s.group? seq with
      | none => s
      | some g => s.pushReport g.part { kind := 2, len := min x.path.length 16, id := s.unitId x.at_, a := x.path.getD 1 0, b := (x.path.drop 2).take 4 }
    else if (((s.group? seq).map Group.stopKind).getD 1) != 1 then answer s
    else if s.probeSeen.contains (x.num, x.at_) || !s.unitWaits x.at_ then s
    else s.spread x.initiator x.num x.path x.at_
  | .chain _ _ _ => if s.probeSeen.contains (x.num, x.at_) || !s.unitWaits x.at_ then s else s.spread x.initiator x.num x.path x.at_
/-- PROBE_RECEIVE: the oldest probe on its way reaches its unit; what has forwarded it is forgotten with its last copy. -/
def execProbeReceive (s : State) : Out :=
  .next (match s.probes with
    | [] => s
    | x :: xs =>
      let s := { s with probes := xs }.probeAt x
      { s with probeSeen := if s.probes.any (·.num == x.num) then s.probeSeen else s.probeSeen.filter (·.1 != x.num) })

/-! ### Gating (R399, R400, R384) -/

/-- The tiles of a region. -/
def regionTiles (r : Nat) : List Nat := (List.range 96).filter fun t => regionOf t == r
/-- A region's gate. -/
def State.gate (s : State) (r : Nat) : Gate := lookD s.gates r {}
/-- The state with a region's gate set. -/
def State.setGate (s : State) (r : Nat) (g : Gate) : State := { s with gates := if g = {} then drop r s.gates else put r g s.gates }
/-- Pre-empts the teams of a region, with every team of a cluster that has a member there. -/
def State.preemptRegion (s : State) (r : Nat) : State :=
  let here := s.teams.filter fun t => regionOf t.tile == r
  let ids := (s.teams.filter fun t => here.any fun x => x.part == t.part && x.task == t.task && x.cluster == t.cluster).map (·.id)
  ids.foldl (fun s id => s.preemptTeam id true) s
/-- Whether a writer may gate or lift a region: the host, or a partition that owns every core of it. -/
def State.ownsRegion (s : State) (who r : Nat) : Bool := decide (r < 52) && (who == 8 || (regionTiles r).all fun t => (s.part who).ownsCore t)
/-- Whether a plinth tile's gate may become pending: no other is, and a plinth tile stays open. -/
def State.plinthFree (s : State) (r : Nat) : Bool :=
  decide (48 ≤ r) || (((List.range 48).all fun q => (s.gate q).state != .pending) && (List.range 48).any fun q => q != r && (s.gate q).state == .open)
/-- A gate request, with or without PREEMPT, if it is accepted. -/
def State.gateAsk (s : State) (who r : Nat) (preempt : Bool) : Option State :=
  let g := s.gate r
  if !s.ownsRegion who r then none
  else match g.state with
    | .open =>
      if s.plinthFree r then
        let s := s.setGate r { state := .pending, preempting := preempt }
        some (if preempt then s.preemptRegion r else s)
      else none
    | .pending => if preempt && !g.preempting then some ((s.setGate r { g with preempting := true }).preemptRegion r) else none
    | _ => none
/-- A lift, if it is accepted: a pending region opens at once, a closed one regains power. -/
def State.gateRaise (s : State) (who r : Nat) : Option State :=
  let g := s.gate r
  if !s.ownsRegion who r then none
  else match g.state with
    | .open => none
    | .pending => some (s.setGate r {})
    | .closed => some (s.setGate r { state := .opening, since := s.refs })
    | .opening => some s
/-- A write of GATEREQ in a partition's view, by its code or the host (8): none for a reserved bit. -/
def State.gateWrite (s : State) (who part : Nat) (v : Word) : Option State :=
  if bits v 6 2 ≠ 0 || bits v 10 22 ≠ 0 then none
  else
    let r := bits v 0 6
    let done := if bit v 8 then s.gateRaise who r else s.gateAsk who r (bit v 9)
    some ((done.getD s).setPart part fun p => p.setReg 0x8C8 (if done.isSome then v else v ||| 0x80000000))
/-- Whether a writer exists: the host, or a partition. -/
def State.writer (s : State) (who : Nat) : Bool := who == 8 || (decide (who < 8) && (s.part who).state != .none)
/-- What a gate request or a lift leaves: the state it was accepted with, or the old one; the writer's GATEREQ reads what it wrote, with
bit 31 set for a refusal (R400). The host writes it in the view of a partition, which HOST_READ and HOST_WRITE name. -/
def State.gateDone (s : State) (who : Nat) (v : Word) (done : Option State) : State :=
  let t := done.getD s
  if who < 8 then t.setPart who fun p => p.setReg 0x8C8 (if done.isSome then v else v ||| 0x80000000) else t
/-- GATE_REQUEST. -/
def execGateRequest (who r : Nat) (s : State) : Out :=
  .next (if s.writer who then s.gateDone who (BitVec.ofNat 32 (r % 64)) (s.gateAsk who r false) else s)
/-- GATE_PREEMPT_REQUEST. -/
def execGatePreemptRequest (who r : Nat) (s : State) : Out :=
  .next (if s.writer who then s.gateDone who (BitVec.ofNat 32 (r % 64 + 512)) (s.gateAsk who r true) else s)
/-- GATE_LIFT. -/
def execGateLift (who r : Nat) (s : State) : Out :=
  .next (if s.writer who then s.gateDone who (BitVec.ofNat 32 (r % 64 + 256)) (s.gateRaise who r) else s)
/-- Whether a pending gate closes: its channels are idle in both directions and its teams have gone (R384). -/
def State.gateDue (s : State) (r : Nat) : Bool :=
  (s.gate r).state == .pending
    && ((regionTiles r).all fun t => let c := s.channel t; let d := s.channel (partner t); c.quiet && c.fifo == [] && d.quiet && d.fifo == [])
    && s.teams.all fun t => regionOf t.tile != r
/-- GATE_CLOSE: the cores lose power; their samplers stop, and what their storage held is gone. -/
def execGateClose (r : Nat) (s : State) : Out :=
  .next (if s.gateDue r then
      let s := (regionTiles r).foldl State.smpStop (s.setGate r { s.gate r with state := .closed })
      { s with errors := s.errors.filter fun e => !(regionOf e.tile == r && (e.kind ≤ 3 || e.kind == 6 || e.kind == 8 || e.kind == 9)) }
    else s)
/-- GATE_OPEN: a lifted region has power again. -/
def execGateOpen (r : Nat) (s : State) : Out := .next (if (s.gate r).state = .opening then s.setGate r {} else s)

/-! ### The governor (R401, R402) -/

/-- The plinth clock of a point in MHz. -/
def pointClock (p : Nat) : Nat :=
  match p with
  | 0 => 900
  | 1 => 1100
  | 2 => 1500
  | _ => 1800
/-- Moves the operating point; the figure clock never rises on the way down. -/
def Power.move (w : Power) (point now : Nat) : Power :=
  { w with point := point, fstep := min 16 (max 8 (pointClock w.point * w.fstep / pointClock point)), moving := some now }
/-- One interval of the governor with the measured power in 1/8 W. -/
def Power.interval (w : Power) (p now : Nat) : Power :=
  let low := if p + 16 ≤ w.limit then min (w.low + 1) 64 else 0
  let w := { w with measured := p, low := low, lastAt := now }
  let top := if w.boost then 3 else 2
  if w.moving.isSome then w
  else if w.limit < p then
    if 8 < w.fstep then { w with fstep := w.fstep - 1 }
    else if 0 < w.point then w.move (w.point - 1) now
    else { w with overload := satAdd w.overload 1 }
  else if 64 ≤ low then
    if w.fstep < 16 then { w with fstep := w.fstep + 1 }
    else if w.point < top then w.move (w.point + 1) now
    else w
  else w
/-- Whether an interval is due. -/
def State.governorDue (s : State) : Bool := decide (s.power.lastAt + 10 ≤ s.refs)
/-- GOVERNOR_INTERVAL. -/
def execGovernorInterval (power : Nat) (s : State) : Out :=
  .next (if s.governorDue then { s with power := s.power.interval (power % 4096) s.refs } else s)
/-- POINT_MOVE_COMPLETE: the governor may act again. -/
def execPointMoveComplete (s : State) : Out := .next { s with power := { s.power with moving := none } }

/-! ### The mesh (R388 to R391) -/

/-- The plinth's edge routers, in columns 0 and 7 (R388). -/
def edgeRouters : List Nat := (List.range 6).flatMap fun y => [8 * y, 8 * y + 7]
/-- The router at whose local port a unit stands: a tile's own, or the edge router of a periphery unit (R388, log entry 107). -/
def routerOf (unit : Nat) : Nat := if unit < 96 then unit else edgeRouters.getD (Config.edgeRouter unit % 12) 0
/-- The next router through a link port: 0 +y, 1 +x, 2 -y, 3 -x, 4 the partner tile; none where the die ends. -/
def portTile (r port : Nat) : Option Nat :=
  let y := r % 48 / 8
  let x := r % 8
  match port with
  | 0 => if y < 5 then some (r + 8) else none
  | 1 => if x < 7 then some (r + 1) else none
  | 2 => if 0 < y then some (r - 8) else none
  | 3 => if 0 < x then some (r - 1) else none
  | _ => some (partner r)
/-- The hop-reducing ports towards a router, in the order x, y, z (R389). -/
def towards (r dst : Nat) : List Nat :=
  ((if r % 8 < dst % 8 then [1] else if dst % 8 < r % 8 then [3] else [])
    ++ (if r % 48 / 8 < dst % 48 / 8 then [0] else if dst % 48 / 8 < r % 48 / 8 then [2] else [])
    ++ (if r / 48 = dst / 48 then [] else [4]))
/-- Age of a flit, saturating at 4095. -/
def State.age (s : State) (f : Flit) : Nat := min (s.now - f.injected) 4095
/-- The order of flits: higher age, then lower source number, then earlier injection. -/
def State.flitBefore (s : State) (a b : Flit) : Bool :=
  decide (s.age b < s.age a) || (s.age a == s.age b && (decide (a.src < b.src) || (a.src == b.src && decide (a.injected ≤ b.injected))))
/-- Insertion in that order. -/
def State.insertFlit (s : State) (f : Flit) : List Flit → List Flit
  | [] => [f]
  | g :: gs => if s.flitBefore f g then f :: g :: gs else g :: State.insertFlit s f gs
/-- Whether a flit is the first in the order among all flits in the mesh (R390). -/
def State.firstFlit (s : State) (rest : List Flit) (f : Flit) : Bool := (s.flits ++ rest).all fun g => !(s.flitBefore g f && !s.flitBefore f g)
/-- A flit is ejected: a reservation is noted, a flit of a longer packet fills its slot, the last one delivers the packet;
one of an older epoch of the pool is discarded, which no partition owns (R396). -/
def State.eject (s : State) (f : Flit) : State :=
  let r := lookD s.receivers f.dst {}
  let to_ := fun (r : Receiver) (s : State) => { s with receivers := put f.dst r s.receivers }
  if (f.reserve || decide (1 < f.size)) && f.epoch != r.epoch then s
  else if f.reserve then to_ { r with reservations := if r.reservations.contains f.src then r.reservations else r.reservations ++ [f.src] } s
  else if f.size ≤ 1 then { s with delivered := s.delivered ++ [(f.dst, f.packet)] }
  else
    let left := lookD r.occupied f.packet f.size - 1
    if left = 0 then { to_ { r with occupied := drop f.packet r.occupied } s with delivered := s.delivered ++ [(f.dst, f.packet)] }
    else to_ { r with occupied := put f.packet left r.occupied } s
/-- Places the arrivals of a router in order: the ports taken so far, the flits ejected so far, the flits that leave. Whether a unit's
input queue takes a single-flit packet is free, but the first flit of the mesh is always ejected (R390; log entry 107). -/
def State.placeFlits (r : Nat) : List Flit → List Nat → Nat → List Flit → State → List Flit × List Nat × State
  | [], used, _, out, s => (out, used, s)
  | f :: fs, used, ejected, out, s =>
    let room := decide (1 < f.size) || f.reserve || Config.choice (s.free + f.packet) % 2 == 0 || s.firstFlit (fs ++ out) f
    if routerOf f.dst = r && decide (ejected < 2) && room then State.placeFlits r fs used (ejected + 1) out (s.eject f)
    else
      let open_ := fun p => !used.contains p && (portTile r p).isSome
      match ((towards r (routerOf f.dst)).find? open_).orElse fun _ => (List.range 5).find? open_ with
      | some p => State.placeFlits r fs (p :: used) ejected (out ++ [{ f with at_ := (portTile r p).getD r, moved := true }]) s
      | none => State.placeFlits r fs used ejected (out ++ [f]) s
/-- Whether a local flit may be injected: a hop-reducing port is free, and a longer packet holds its grant. -/
def State.mayInject (s : State) (r : Nat) (used : List Nat) (f : Flit) : Bool :=
  let rx := lookD s.receivers f.dst {}
  f.at_ == r && ((towards r (routerOf f.dst)).any fun p => !used.contains p)
    && (f.reserve || decide (f.size ≤ 1) || rx.granted.contains f.src || (look f.packet rx.occupied).isSome)
/-- At most one local flit is injected, local sources taking turns. -/
def State.injectAt (s : State) (r : Nat) (used : List Nat) : State :=
  let last := lookD s.injectLast r 127
  match leastBy (fun f => (f.src + 127 - last) % 128) (s.inject.filter (s.mayInject r used)) with
  | none => s
  | some f =>
    let port := ((towards r (routerOf f.dst)).find? fun p => !used.contains p).getD 0
    let rx := lookD s.receivers f.dst {}
    let rx := if 1 < f.size && !f.reserve && (look f.packet rx.occupied).isNone then
        { rx with granted := rx.granted.filter (· != f.src), occupied := put f.packet f.size rx.occupied }
      else rx
    { s with inject := s.inject.erase f, injectLast := put r f.src s.injectLast
             receivers := if rx = lookD s.receivers f.dst {} then s.receivers else put f.dst rx s.receivers
             flits := s.flits ++ [{ f with at_ := (portTile r port).getD r, injected := s.now, moved := true }] }
/-- The routers with something to handle in this cycle that have not yet done so. -/
def State.routersDue (s : State) : List Nat :=
  (((s.flits.filter fun f => !f.moved).map (·.at_) ++ s.inject.map (·.at_)).eraseDups).filter fun r => decide (r < 96) && !s.routed.contains r
/-- A unit sends a packet (R391): one of several flits follows its reservation; one at a time from a source to a receiver. -/
def State.send (s : State) (src dst size : Nat) : State :=
  let f : Flit := { at_ := routerOf src, dst := dst, src := src, injected := s.now, packet := s.free, size := size, epoch := (lookD s.receivers dst {}).epoch }
  if size ≤ 1 then { s with inject := s.inject ++ [f] }
  else if (s.flits ++ s.inject).any fun x => x.src == src && x.dst == dst && (x.reserve || decide (1 < x.size)) then s
  else { s with inject := s.inject ++ { f with reserve := true, size := 1 } :: List.replicate size f }
/-- What a cycle brings into the mesh: a unit may send a packet of 1 to 5 flits to another (R388, R391; log entry 107). -/
def State.traffic (s : State) : State :=
  match Config.traffic s.free with
  | some x => if routerOf (x.1 % 128) = routerOf (x.2.1 % 128) then s else s.send (x.1 % 128) (x.2.1 % 128) (x.2.2 % 5 + 1)
  | none => s
/-- FLIT_ARRIVAL: a router handles the flits that have arrived in this cycle, once. -/
def execFlitArrival (r : Nat) (s : State) : Out :=
  .next (if 96 ≤ r || s.routed.contains r then s
    else
      let s := { s with routed := r :: s.routed }
      let here := (s.flits.filter fun f => f.at_ == r && !f.moved).foldr (fun f l => s.insertFlit f l) []
      let x := State.placeFlits r here [] 0 [] { s with flits := s.flits.filter fun f => !(f.at_ == r && !f.moved) }
      ({ x.2.2 with flits := x.2.2.flits ++ x.1 }).injectAt r x.2.1)
/-- Whether a receiver has a slot to grant. -/
def Receiver.mayGrant (r : Receiver) : Bool := r.reservations != [] && decide (r.granted.length + r.occupied.length < 32)
/-- REASSEMBLY_GRANT: the next waiting source in ascending order, after the last one granted. -/
def execReassemblyGrant (rx : Nat) (s : State) : Out :=
  .next (let r := lookD s.receivers rx {}
    if !r.mayGrant then s
    else match leastBy (fun x => (x + 127 - r.lastGranted) % 128) r.reservations with
      | none => s
      | some x => { s with receivers := put rx { r with reservations := r.reservations.filter (· != x), granted := r.granted ++ [x], lastGranted := x } s.receivers })

end Sys2Proof.Machine
end

