-- ==== Sys2Proof/Machine/Reliability.lean ====
section
/-! DEFINITION. Scan rotation, scan-gated versions, core disabling and patrol (R424 to R429). -/

namespace Sys2Proof.Machine

/-! ### Scan records (R426) -/

/-- Whether a partition's scan ring has room. -/
def Partition.scanRoom (p : Partition) : Bool := p.reg2 0x93B != 0 && decide ((p.reg 0x93D 0 - p.reg 0x93E 0).toNat < 8)
/-- Writes the scan records of a partition that wait, as far as its ring has room; the number is filled in as each is written, and the
report vector raised. One whose write would fault waits: none is dropped (R426, log entry 100). -/
def State.flushScans (part : Nat) : Nat → State → State
  | 0, s => s
  | fuel + 1, s =>
    let p := s.part part
    match p.scanRecords with
    | [] => s
    | r :: rs =>
      if !p.scanRoom then s
      else
        let q := p.reg 0x93D 0
        match (s.setPart part fun p => { p with scanRecords := rs }).atelierWrite part (p.reg2 0x93B + 256 * (q.toNat % 8)) (leBytes 4 q.toNat ++ r.drop 4) with
        | .ok s2 => State.flushScans part fuel ((s2.setPart part fun p => p.setReg 0x93D (q + 1)).msi (part + 1) 2)
        | .error _ => s
/-- Whether a scan record waits for room anywhere: rotation then pauses. -/
def State.scanBlocked (s : State) : Bool := s.parts.toList.any fun p => p.scanRecords != []
/-- The tasks of a partition that retired beats on a core since the start of its last passing scan, in dispatch order. -/
def State.suspects (s : State) (part tile : Nat) : List Task :=
  let live := fun (k : Task) => s.teams.any fun t => t.part == part && t.task == k.id && t.tile == tile && t.ran
  let ks := (s.part part).tasks.filter fun k => (look tile k.cores).isSome || live k
  ks.foldr (fun k l => (l.takeWhile fun x => x.dispatchSeq < k.dispatchSeq) ++ k :: l.dropWhile fun x => x.dispatchSeq < k.dispatchSeq) []
/-- The scan-gated versions of a partition that a core keeps from committing. -/
def State.gatedBy (s : State) (part tile : Nat) : List Version :=
  (s.part part).versions.filter fun v => (((s.part part).task? v.task).map fun k => k.record.scang && (look tile k.cores).isSome).getD false
/-- The record of a failed scan, or of a disabled core, for a partition. -/
def State.scanRecord (s : State) (part tile result scan : Nat) : List Byte :=
  let sus := s.suspects part tile
  let held := ((s.gatedBy part tile).filter fun v => v.held && v.waitScan).length
  leBytes 4 0 ++ [BitVec.ofNat 8 tile, BitVec.ofNat 8 result] ++ leBytes 2 (min sus.length 0xFFFF) ++ leBytes 4 scan
    ++ leBytes 4 (lookD s.lastPass tile 0xFFFFFFFF) ++ leBytes 4 held ++ List.replicate 12 0
    ++ (List.range 56).flatMap fun k => leBytes 4 ((sus[k]?.map (·.id)).getD 0)
/-- Scan records go to every partition with a suspect task; without a ring the report vector is raised once (R332). -/
def State.reportScan (s : State) (tile result scan : Nat) : State :=
  s.existing.foldl (fun s p =>
    if s.suspects p tile = [] then s
    else
      let r := s.scanRecord p tile result scan
      let first := (s.part p).reg2 0x93B == 0 && !(s.part p).scanRaised
      let s := s.setPart p fun q => { q with scanRecords := q.scanRecords ++ [r], scanRaised := q.scanRaised || first }
      State.flushScans p 1 (if first then s.msi (p + 1) 2 else s)) s
/-- Scan-gated versions that a core keeps from committing are held. -/
def State.holdVersions (s : State) (tile : Nat) (waiting : Bool) : State :=
  s.existing.foldl (fun s p => ((s.gatedBy p tile).filter fun v => v.waitScan || !waiting).foldl (fun s v =>
    s.setVersion p v.num fun v => { v with held := true }) s) s

/-! ### Rotation (R424, R425) -/

/-- Whether the next scan is due. -/
def State.scanDueNow (s : State) : Bool := s.scanPer != 0 && s.scanning.isNone && decide (s.scanDue ≤ s.refs) && !s.scanBlocked
/-- SCAN_ROTATION: the next core that is neither disabled nor gated is drained. -/
def State.rotate (s : State) : State :=
  if !s.scanDueNow then s
  else
    let s := { s with scanDue := s.refs + s.scanPer.toNat }
    match ((List.range 96).map fun k => (s.scanNext + k) % 96).find? fun t => !s.cdmask.getLsbD t && !s.gated t with
    | none => s
    | some t =>
      let ids := (s.teams.filter (·.tile == t)).map (·.id)
      ids.foldl (fun s id => s.preemptTeam id true) { s with scanning := some t, scanNext := (t + 1) % 96 }
/-- SCAN_ROTATION. -/
def execScanRotation (s : State) : Out := .next s.rotate
/-- Whether the core under scan is empty, so that its patterns run. -/
def State.scanRuns (s : State) : Bool :=
  match s.scanning with
  | some t => s.teams.all fun x => x.tile != t
  | none => false
/-- Commits the scan-gated versions that wait for no core any more, in dispatch order of their tasks. -/
def State.commitScanned (s : State) : State :=
  s.existing.foldl (fun s p =>
    ((s.part p).versions.filter fun v => v.waitScan && !v.held && (((s.part p).task? v.task).map (·.cores == [])).getD true).foldl
      (fun s v => s.commitVersion p v.num) s) s
/-- SCAN_COMPLETE: the scan of an emptied core passes or fails, and the core returns to service. -/
def execScanComplete (pass : Bool) (s : State) : Out :=
  .next (match s.scanning with
    | none => s
    | some t =>
      if !s.scanRuns then s
      else
        let n := s.scanNum % 2 ^ 32
        let s := { s with scanning := none, scanNum := n + 1 }
        if pass then
          let s := { s with lastPass := put t n s.lastPass }
          (s.existing.foldl (fun s p => s.setPart p fun q => { q with tasks := q.tasks.map fun (k : Task) => { k with cores := drop t k.cores } }) s).commitScanned
        else (s.holdVersions t false).reportScan t 1 n)

/-! ### SCANACT, CDMASK (R427, R429) -/

/-- The held version that SCANTID names. -/
def Partition.heldVersion (p : Partition) : Option Version := p.versions.find? fun v => v.held && v.waitScan && v.task == (p.reg 0x93F 0).toNat
/-- A write of SCANACT: 0 commits, 1 discards; refused where no held version is named. -/
def State.scanAct (s : State) (part : Nat) (discard : Bool) : State :=
  let v : Word := if discard then 1 else 0
  match (s.part part).heldVersion with
  | none => s.setPart part fun p => p.setReg 0x940 (v ||| 0x80000000)
  | some x => (if discard then s.discardVersion part x.task else s.commitVersion part x.num).setPart part fun p => p.setReg 0x940 v
/-- SCAN_COMMIT. -/
def execScanCommit (p : Nat) (s : State) : Out := .next (if (s.part p).state = .none then s else s.scanAct p false)
/-- SCAN_DISCARD. -/
def execScanDiscard (p : Nat) (s : State) : Out := .next (if (s.part p).state = .none then s else s.scanAct p true)
/-- A core is disabled: scan-gated versions that wait for it are held, and recorded. -/
def State.disableCore (s : State) (tile : Nat) : State :=
  if s.existing.any fun p => (s.gatedBy p tile).any (·.waitScan) then (s.holdVersions tile true).reportScan tile 2 0xFFFFFFFF else s
/-- Versions that have come to wait for a core that is disabled already are held, and recorded (R425, R426). -/
def State.holdDisabled (s : State) : State :=
  if s.existing.all fun p => (s.part p).versions.all fun v => !v.waitScan || v.held then s
  else ((List.range 96).filter fun t => s.cdmask.getLsbD t && s.existing.any fun p => (s.gatedBy p t).any fun v => v.waitScan && !v.held).foldl State.disableCore s
/-- CDMASK is written. -/
def State.maskCores (s : State) (mask : BitVec 96) : State :=
  ((List.range 96).filter fun t => mask.getLsbD t && !s.cdmask.getLsbD t).foldl State.disableCore { s with cdmask := mask }
/-- CORE_DISABLE: CDMASK as written. -/
def execCoreDisable (mask : BitVec 96) (s : State) : Out := .next (s.maskCores mask)

/-! ### Patrol (R428) -/

/-- A patrol register of a channel: PSINT 0, PSCE 1, PSUE 2, PSSKIP 3. -/
def State.patrolReg (s : State) (ch k : Nat) : Word := lookD s.patrol (16 * ch + k) (if k = 0 then 0x10 else 0)
/-- The state with a patrol register set. -/
def State.setPatrolReg (s : State) (ch k : Nat) (v : Word) : State := { s with patrol := put (16 * ch + k) v s.patrol }
/-- A counter of a channel counts one. -/
def State.patrolCount (s : State) (ch k : Nat) : State := s.setPatrolReg ch k (satAdd (s.patrolReg ch k) 1)
/-- The lines that patrol has read are written back corrected, unless they have been written since (R428). -/
def State.patrolBack (s : State) : State :=
  s.patrolRead.foldl (fun s x =>
    let here := fun (e : SoftError) => e.kind == 4 && !e.double && e.addr / 128 == x.2.1
    if !x.2.2 && s.errors.any here then { s with errors := s.errors.filter fun e => !here e }.patrolCount x.1 1
    else s.patrolCount x.1 3) { s with patrolRead := [] }
/-- An uncorrectable line is counted and reported: to the partition that owns the page, or through the host view (R344, R428). -/
def State.patrolBad (s : State) (ch : Nat) (e : SoftError) : State :=
  let s := s.patrolCount ch 2
  match s.existing.find? fun p => (s.part p).ownsPhys e.addr with
  | some p => s.unattributed p 4 e.addr 0x7F 0
  | none => s.msi 0 2
/-- Whether a channel's engine reads its next row: every PSINT refresh intervals. -/
def State.patrolDue (s : State) (ch : Nat) : Bool :=
  let last := lookD s.patrolAt ch 0
  decide (last < s.refs) && s.patrolReg ch 0 != 0 && decide (last + (s.patrolReg ch 0).toNat * Config.refreshPeriods ≤ s.refs)
/-- PATROL_ROW_READ: a channel's engine reads its next row. -/
def execPatrolRowRead (ch : Nat) (s : State) : Out :=
  .next (if 16 ≤ ch || !s.patrolDue ch then s
    else
      let row := lookD s.patrolRow ch 0
      let s := { s with patrolRow := put ch ((row + 1) % Config.rowCount) s.patrolRow, patrolAt := put ch s.refs s.patrolAt }
      let mine := s.errors.filter fun e => e.kind == 4 && Config.rowOf (e.addr / 128) == 16 * row + ch
      let bad := mine.filter (·.double)
      let lines := ((mine.filter fun e => !e.double).map fun e => e.addr / 128).eraseDups
      let s := (bad.filter fun e => (bad.find? fun f => f.addr / 128 == e.addr / 128) == some e).foldl (fun s e => s.patrolBad ch e) s
      { s with patrolRead := s.patrolRead ++ lines.map fun l => (ch, l, false) })

end Sys2Proof.Machine
end

