-- ==== Sys2Proof/Machine/Replace.lean ====
section
/-! DEFINITION. XREPL: the destination kind of a trapped instruction word, and the replacement of its result (R99). -/

namespace Sys2Proof.Machine

/-- The destination kinds of R99. -/
inductive DestKind where
  | none
  | scalar | scalarPair | vector | vectorPair | predPair | pred | cmBit
  deriving DecidableEq, Repr

/-- One register. -/
def singleDest (u : Bool) : DestKind := if u then .scalar else .vector
/-- A pair. -/
def pairDest (u : Bool) : DestKind := if u then .scalarPair else .vectorPair
/-- A compare. -/
def compareDest (u : Bool) : DestKind := if u then .cmBit else .predPair
/-- Opcodes 0x00 to 0x3F. -/
def destLow (op : Nat) (x : Word) : DestKind :=
  match op with
  | 0x15 | 0x1B => .scalar
  | 0x16 => .scalarPair
  | 0x1A => singleDest (bit x 11)
  | 0x3B | 0x3C => singleDest (bit x 5)
  | 0x3F => .vector
  | _ => if 0x20 ≤ op then singleDest (bit x 3) else .none
/-- Opcodes 0x40 to 0x5F. -/
def destMove (op : Nat) (x : Word) : DestKind :=
  match op with
  | 0x40 => singleDest (bit x 3)
  | 0x43 => .vector
  | 0x4C | 0x4F => pairDest (bit x 3)
  | 0x4D => pairDest (bit x 5)
  | 0x4E => pairDest (bit x 11)
  | 0x50 | 0x51 | 0x52 | 0x53 | 0x54 | 0x55 => compareDest (bit x 3)
  | 0x56 | 0x57 => compareDest (bit x 11)
  | 0x58 | 0x59 | 0x5A | 0x5B => if bit x 3 then .cmBit else .pred
  | 0x5C | 0x5E => .scalarPair
  | 0x5D | 0x5F => .none
  | _ => singleDest (bit x 11)
/-- Opcodes 0x60 to 0x9F. -/
def destFloat (op : Nat) (x : Word) : DestKind :=
  match op with
  | 0x6A | 0x6B | 0x6C | 0x6D | 0x6E | 0x8D | 0x8E => compareDest (bit x 3)
  | 0x7F | 0x9A | 0x9B => .scalar
  | 0x8C | 0x99 => singleDest (bit x 3)
  | 0x90 | 0x91 | 0x92 | 0x93 | 0x95 | 0x97 => singleDest (bit x 5)
  | 0x94 => pairDest (bit x 5)
  | 0x98 => if bits x 6 6 = 1 then pairDest (bit x 3) else singleDest (bit x 3)
  | _ => if op < 0x80 then singleDest (bit x 3) else if op < 0x8C then pairDest (bit x 3) else .none
/-- Opcodes 0xA0 to 0xCF. -/
def destMem (op : Nat) (x : Word) : DestKind :=
  match op with
  | 0xA4 => if bit x 6 then .scalar else .vector
  | 0xA5 | 0xA6 => .predPair
  | 0xA7 => .vectorPair
  | 0xAA | 0xAB | 0xAC | 0xAD => .scalar
  | 0xAE | 0xAF => .scalarPair
  | 0xB0 | 0xB1 | 0xB2 | 0xB3 | 0xB4 => singleDest (bit x 11)
  | 0xB5 => pairDest (bit x 11)
  | 0xB7 => .vector
  | _ =>
    if op < 0xB0 then .vector
    else if 0xC1 ≤ op && op ≤ 0xCB && bit x 4 then (if bit x 3 then pairDest (bit x 5) else singleDest (bit x 5))
    else .none
/-- Opcodes 0xD0 to 0xFF; results of 16 registers have no row in R99's table, nor have the four registers of LDQ and UNPK8, the run of a
DRAIN, and the results of PFROMS and CMWR: XREPL for them is an illegal operand (log entry 40). -/
def destHigh (op : Nat) (x : Word) : DestKind :=
  match op with
  | 0xD2 | 0xE3 | 0xE4 | 0xE5 | 0xE8 | 0xED | 0xF2 | 0xF9 | 0xFB => .scalar
  | 0xE7 | 0xF1 | 0xF5 | 0xF7 => .scalarPair
  | 0xDF | 0xFA => .vector
  | 0xEB => pairDest (bit x 11)
  | 0xF4 => if bit x 1 then .scalarPair else .none
  | _ => .none
/-- The kind of register that a trapped word writes through its d field; a word without one has none. -/
def destKind (x : Word) : DestKind :=
  let op := bits x 24 8
  if op < 0x40 then destLow op x else if op < 0x60 then destMove op x else if op < 0xA0 then destFloat op x
  else if op < 0xD0 then destMem op x else destHigh op x

/-- The vector names a replacement is read from. -/
def DestKind.sources (k : DestKind) (a : BitVec 6) : List Nat :=
  match k with
  | .vector => [a.toNat]
  | .vectorPair => [a.toNat, a.toNat + 1]
  | _ => []
/-- The vector names a replacement is written to. -/
def DestKind.names (k : DestKind) (d : Nat) : List Nat :=
  match k with
  | .vector => [d]
  | .vectorPair => [d, d + 1]
  | _ => []
/-- Whether source and destination codes fit a kind: the destination is the trapped word's own. A last-read bit stands only on a vector
source (R28, R80). -/
def replaceLegal (k : DestKind) (d : Nat) (a : BitVec 6) (u x : Bool) : Bool :=
  (!x || k.sources a != []) && match k with
  | .none => false
  | .scalar => u
  | .scalarPair => u && even a && d % 2 == 0
  | .vector => !u && vr a && decide (d < 48)
  | .vectorPair => !u && vpair a && decide (d < 48) && d % 2 == 0
  | .predPair => !u && small a 12 && decide (d < 6)
  | .pred => !u && small a 12 && decide (d < 12)
  | .cmBit => u
/-- What the replacement reads. -/
def replaceUse (k : DestKind) (a : BitVec 6) : List Use :=
  match k with
  | .scalar => [.s a.toNat]
  | .scalarPair => [.s a.toNat, .s (a.toNat + 1)]
  | .vector => [.v a.toNat]
  | .vectorPair => [.v a.toNat, .v (a.toNat + 1)]
  | .cmBit => [.cmBit a.toNat]
  | _ => []
/-- A predicate with the lanes of a mask replaced. -/
def mergeMask (m old new : LaneMask) : LaneMask := (old &&& ~~~m) ||| (new &&& m)
/-- XREPL (R99): vector and predicate results go to the lanes of XMASK, scalar ones are written once. A marked source is freed like any
other instruction's (R32, R249, R250). -/
def execXrepl (a : BitVec 6) (w : BitVec 2) (ux : Bool × Bool) (s : State) : Out :=
  let i := s.me.x.xinst
  let k := destKind i
  let d := bits i 18 6
  let m := s.me.x.xmask
  let names := k.names d
  .next (if s.me.handler.isNone then s.raise { code := 0x02, mask := s.exm }
    else s.checkedFor m (replaceLegal k d a ux.1 ux.2) true (replaceUse k a) fun s =>
      let marked := s.marks (if ux.2 then k.sources a else [])
      if !State.rowsFor marked names s then s.noRows marked names
      else
        let rows := State.replaceRows marked names (State.allocRows names s)
        let s1 := match k with
          | .scalar => s.putS d (s.rs a.toNat) (1 + clsSIMPLE)
          | .scalarPair => s.putPair d (s.rpair a.toNat) (1 + clsSIMPLE)
          | .cmBit => s.putCMBit d (bit s.cmNow a.toNat) (1 + clsSIMPLE)
          | .vector => rows.writeLanes d m fun i => s.me.vlane a.toNat i
          | .vectorPair => (rows.writeLanes d m fun i => s.me.vlane a.toNat i).writeLanes (d + 1) m fun i => s.me.vlane (a.toNat + 1) i
          | .pred => s.withMe fun g => g.setP d (mergeMask m (g.preg d) (g.preg a.toNat))
          | .predPair => s.withMe fun g =>
              let p := g.preg a.toNat
              (g.setP (2 * d) (mergeMask m (g.preg (2 * d)) p)).setP (2 * d + 1) (mergeMask m (g.preg (2 * d + 1)) (~~~p))
          | .none => s
        (s1.freeMarked marked names).retire { beats := if ux.1 then 1 else beatsOf m, stall := stallOf w })

end Sys2Proof.Machine
end

