-- ==== Sys2Proof/Machine/Transfers.lean ====
section
/-! DEFINITION. Buffered stores that reach their slices, copies that finish, and the host's accesses (R180 to R184, R298, R302, R341). -/

namespace Sys2Proof.Machine

/-- WRITE_BUFFER_DRAIN: one line of a team's write buffer is performed (R298). -/
def execWriteBufferDrain (team line : Nat) (s : State) : Out := .next (s.drainEntry team line)
/-- What waits for copies to end: exits, kills, restarts, cancellations (R94, R184, R286, R213, R345). -/
def State.copiesEnded (s : State) : State := s.afterCopies.restartFlushed.finishCancels
/-- COPY_COMPLETE: a copy that does not wait on a fault record or for room in its version is carried out and ends with its status. -/
def execCopyComplete (c : Nat) (s : State) : Out :=
  .next (match s.copies.find? fun x => x.id == c && !x.waits with
    | some x => if s.copyStalls x then s else (s.runCopy x).copiesEnded
    | none => s)

/-- A host address: device memory, and above it the shared banks (the model's own numbering of what the host names). -/
def hostPlace (addr : Nat) : Option Place :=
  if addr < devTop then some (.dev addr) else if addr < devTop + (bankEnd - bankBase) then some (.bank (addr - devTop)) else none
/-- What the host reads of one byte: zero for sealed content (R341), some value for a word that is uncorrectable. -/
def State.hostByte (s : State) (addr : Nat) : Byte :=
  match hostPlace addr with
  | some p => if decide (addr < devTop) && s.sealedPhys addr then 0 else if s.poisoned p then Config.struckByte (s.free + addr) else s.readByte {} p
  | none => 0
/-- The host writes one byte: sealed content never changes (R437). -/
def State.hostWriteRun (s : State) (addr : Nat) (bs : List Byte) : State :=
  match hostPlace addr with
  | some p =>
    let owner := (s.existing.find? fun q => (s.part q).ownsPhys addr).getD 8
    s.performWrite { part := owner } p bs
  | none => s
/-- The bytes of a host write that are not sealed, as runs. -/
def State.hostCells (s : State) : Nat → List Byte → List Host.Cell
  | _, [] => []
  | a, b :: bs =>
    if (hostPlace a).isSome && !(decide (a < devTop) && s.sealedPhys a) then (a, b) :: State.hostCells s (a + 1) bs else State.hostCells s (a + 1) bs
/-- HOST_ACCESS: performed at the home slices and banks, as an agent outside every cluster. What it reads goes back over the link. -/
def execHostAccess (write : Bool) (addr : Nat) (bytes : List Byte) (s : State) : Out :=
  .next (if !s.linkUp then s
    else if write then
      let cells := s.hostCells addr bytes
      let runs := runsOf (cells.filter fun c => c.1 < devTop) ++ runsOf (cells.filter fun c => devTop ≤ c.1)
      runs.foldl (fun s r => s.hostWriteRun r.1 r.2) s
    else { s with sent := s.sent ++ [{ kind := 0x100, bytes := (List.range bytes.length).map fun k => s.hostByte (addr + k) }] })

end Sys2Proof.Machine
end

