-- ==== Sys2Proof/Machine/Trust.lean ====
section
/-! DEFINITION. Partitions and their lives, sessions and interfaces, board keys, and bring-up (R437 to R450). -/

namespace Sys2Proof.Machine

/-! ### Creating a partition (R438) -/

/-- The rectangles of a descriptor. -/
def descRects (bs : List Byte) : List Rect :=
  (List.range 8).filterMap fun k =>
    let f := byteAt' bs (11 + 4 * k)
    if f / 128 = 1 then some { tile := byteAt' bs (8 + 4 * k), rows := byteAt' bs (9 + 4 * k), cols := byteAt' bs (10 + 4 * k), stacked := f % 2 == 1 }
    else none
where
  /-- A byte of the descriptor. -/
  byteAt' (bs : List Byte) (o : Nat) : Nat := natAt bs o 1
/-- Its bank regions: first unit and unit count. -/
def descBanks (bs : List Byte) : List (Nat × Nat) :=
  ((List.range 4).map fun k => (natAt bs (40 + 8 * k) 4, natAt bs (44 + 8 * k) 4)).filter fun b => b.2 != 0
/-- Its private ranges. -/
def descPriv (bs : List Byte) : List (Nat × Nat) :=
  ((List.range 4).map fun k => (natAt bs (72 + 16 * k) 8, natAt bs (80 + 16 * k) 8)).filter fun b => b.2 != 0
/-- Its export windows: base, length, and whether the base is a host address. -/
def descExports (bs : List Byte) : List (Nat × Nat × Bool) :=
  ((List.range 4).map fun k =>
    let b := natAt bs (136 + 16 * k) 8
    (b % 2 ^ 63, natAt bs (144 + 16 * k) 8, decide (2 ^ 63 ≤ b))).filter fun b => b.2.1 != 0
/-- The partition a descriptor asks for. -/
def parsePartition (bs : List Byte) : Partition :=
  { state := .unlocked, isSealed := natAt bs 0 1 % 2 == 1, privq := BitVec.ofNat 4 (natAt bs 0 1 / 16), ttQuota := natAt bs 2 1
    mbox := BitVec.ofNat 16 (natAt bs 4 2), rects := descRects bs, banks := descBanks bs, priv := descPriv bs, exports := descExports bs
    descriptor := bs, regs := [(0x974, BitVec.ofNat 32 (natAt bs 1 1))] }
/-- Whether the fields of a descriptor keep their limits: reserved fields zero, ranges of whole pages. -/
def descLegal (bs : List Byte) : Bool :=
  let pages := fun (x : Nat) => x % 0x4000 == 0
  fieldAt (natAt bs 0 1) 1 3 == 0 && natAt bs 1 1 != 0 && decide (natAt bs 2 1 ≤ 0x40) && natAt bs 3 1 == 0 && natAt bs 6 2 == 0
    && ((List.range 8).all fun k => fieldAt (natAt bs (11 + 4 * k) 1) 1 6 == 0)
    && ((List.range 4).all fun k => pages (natAt bs (72 + 16 * k) 8) && pages (natAt bs (80 + 16 * k) 8)
      && pages (natAt bs (136 + 16 * k) 8 % 2 ^ 63) && pages (natAt bs (144 + 16 * k) 8))
    && natAt bs 200 56 == 0
/-- Whether a rectangle keeps R235 and lies on the dies. -/
def Rect.legal (r : Rect) : Bool := decide (r.tile < 96) && shapeOk r.stacked r.rows r.cols && rectTiles r.tile r.rows r.cols r.stacked != []
/-- Whether two lists of ranges share a byte. -/
def rangesMeet (xs ys : List (Nat × Nat)) : Bool := meet xs ys
/-- Whether a new partition's resources are its own and on the device (R438). -/
def State.mayCreate (s : State) (p : Nat) (q : Partition) : Bool :=
  let others := s.existing.map s.part
  let dev := fun (x : Partition) => (x.exports.filter fun e => !e.2.2).map fun e => (e.1, e.2.1)
  decide (p < 8) && (s.part p).state == .none
    && (q.rects.all fun r => r.legal && (rectTiles r.tile r.rows r.cols r.stacked).all fun t => !others.any fun o => o.ownsCore t)
    && (q.banks.all fun b => decide (b.1 + b.2 ≤ 0x1800)) && (q.priv.all fun b => decide (b.1 + b.2 ≤ devTop))
    && (others.all fun o => !rangesMeet o.banks q.banks && !rangesMeet o.priv q.priv && o.mbox &&& q.mbox == 0)
    && decide ((others.map (·.ttQuota)).sum + q.ttQuota ≤ 192)
    && (!q.isSealed || (q.priv != [] && (q :: others).all fun o => !rangesMeet (dev q) o.priv))
/-- CREATE: the resources are assigned, every register is reset, the key slots are empty. An IDE stream of the function stands. -/
def State.create (s : State) (p : Nat) : Option State :=
  let a := s.partDesc.toNat
  let bs := Memory.bytes s.dev a 256
  let q := parsePartition bs
  if decide (a + 256 ≤ devTop) && descLegal bs && s.mayCreate p q then
    some ((s.setPart p fun old => { q with ideSession := old.ideSession, ideSecure := old.ideSecure }).announce p)
  else none
/-- Key slots of a partition are cleared (R379). -/
def State.clearKeys (s : State) (p : Nat) : State := { s with keys := s.keys.filter fun k => k.2.2 != p }
/-- A TLB without a partition's translations. -/
def noPart (p : Nat) (x : Nat × List (Nat × Nat × Nat)) : Nat × List (Nat × Nat × Nat) := (x.1, x.2.filter fun e => e.1 != p)
/-- DESTROY: the resources are released and the number is free. -/
def State.destroy (s : State) (p : Nat) : Option State :=
  if (s.part p).state = .unlocked then
    let s := s.clearKeys p
    some (({ s with tlb := s.tlb.map (noPart p), tlb2 := s.tlb2.map (noPart p) }.setPart p fun old =>
      { ideSession := old.ideSession, ideSecure := old.ideSecure }).announce p)
  else none
/-- START: an unsealed partition runs. -/
def State.start (s : State) (p : Nat) : Option State :=
  if (s.part p).state = .unlocked && !(s.part p).isSealed then some ((s.setPart p fun q => { q with state := .run, sliceSince := s.refs }).announce p)
  else none

/-! ### The stop sequence (R439) -/

/-- Zeroes a partition's private ranges. -/
def State.zeroPrivate (s : State) (p : Nat) : State :=
  { s with dev := s.dev.filter fun c => !(s.part p).ownsPhys c.1, errors := s.errors.filter fun e => !(e.kind == 4 && (s.part p).ownsPhys e.addr) }
/-- Step 2 after the kills: launch entries are discarded and the Turntable slots alighted. -/
def State.stopUnits (s : State) (p : Nat) : State :=
  let s := (s.part p).vslots.foldl (fun (s : State) x =>
    (s.ttSound x.2).setSlot x.2 fun y => { y with owner := 0xF, payload := Vector.replicate 8 0 }) s
  s.setPart p fun q =>
    let q := (List.range 4).foldl (fun (q : Partition) k => q.setReg (0x963 + 4 * k) (q.reg (0x970 + k) 0)) q
    { q with vslots := [], ttCaptured := [], designated := false, unveiling := none, armLater := none, armed := false }
/-- Step 3: key slots, and what the fault queue holds. -/
def State.stopStores (s : State) (p : Nat) : State :=
  let q := s.part p
  let s := match s.atelierWrite p (q.reg2 0x870) (List.replicate (64 * q.fqSize) 0) with
    | .ok x => if q.reg2 0x870 = 0 then s else x
    | .error _ => s
  (s.clearKeys p).setPart p fun q =>
    let q := if q.ksPending.isSome then q.setReg 0x978 6 else q
    { q with faults := [], records := [], ksPending := none, sysTask := none }
/-- The end of a stop sequence: steps 2 to 4, and CONFIG_UNLOCKED. -/
def State.stopFinish (s : State) (p : Nat) : State :=
  let s := (s.stopUnits p).stopStores p
  let s := if (s.part p).isSealed then s.zeroPrivate p else s
  (s.setPart p fun q => { q with state := .unlocked, stopping := false, evicted := false, lockSession := none, lockCapture := [], memoryKey := none }).announce p
/-- Whether a stop may go on: an unveiling in progress has performed its step 6. -/
def Partition.stopReady (q : Partition) : Bool := q.stopping && (q.unveiling.map fun u => decide (u.step = 7)).getD true
/-- Goes on with a stop sequence: it kills what runs, and ends once every task has. -/
def State.stopAdvance (s : State) (p : Nat) : State :=
  if !(s.part p).stopReady then s
  else
    let s := s.killAll p
    if (s.part p).tasks.all (·.gone) then s.stopFinish p else s
/-- Begins the stop sequence: dispatch stops. -/
def State.stopBegin (s : State) (p : Nat) : State := (s.setPart p fun q => { q with stopping := true }).stopAdvance p
/-- STOP by PF 0: of a partition that runs and that no session has locked (R439, R444). -/
def State.stop (s : State) (p : Nat) : Option State :=
  let q := s.part p
  if (q.state == .run || q.state == .locked || q.state == .error) && q.lockSession.isNone then some (s.stopBegin p) else none

/-- A PARTCMD write of a legal command (R438, R439, R451): it reads back with bit 31 set when the command was refused. -/
def State.partCommand (s : State) (cmd p : Nat) : State :=
  let v := BitVec.ofNat 32 (cmd * 8 + p)
  let r := match cmd with
    | 1 => s.create p
    | 2 => s.destroy p
    | 3 => s.start p
    | _ => s.stop p
  match r with
  | some x => { x with partCmd := v }
  | none => { s with partCmd := v ||| 0x80000000 }
/-- CREATE. -/
def execPartCreate (p : Nat) (s : State) : Out := .next (if p < 8 then s.partCommand 1 p else s)
/-- DESTROY. -/
def execPartDestroy (p : Nat) (s : State) : Out := .next (if p < 8 then s.partCommand 2 p else s)
/-- START. -/
def execPartStart (p : Nat) (s : State) : Out := .next (if p < 8 then s.partCommand 3 p else s)
/-- STOP: the stop sequence begins, or goes on where it has begun and could not end. -/
def execPartStop (p : Nat) (s : State) : Out :=
  .next (if (s.part p).stopping then s.stopAdvance p else if p < 8 then s.partCommand 4 p else s)

/-! ### SPDM sessions (R442, R443, R445) -/

/-- What the device answers: the message's number in the order of R442 and R444, 0 for an SPDM error, 0x80 for a TDISP error. -/
def State.answerMsg (s : State) (sess kind content : Nat) : State :=
  { s with sent := s.sent ++ [{ kind := kind, sess := sess, bytes := Config.responseBytes kind content }] }
/-- An SPDM error response. -/
def State.spdmError (s : State) (sess : Nat) : State := s.answerMsg sess 0 0
/-- A TDISP error response. -/
def State.tdispError (s : State) (sess : Nat) : State := s.answerMsg sess 0x80 0
/-- A session by number. -/
def State.session (s : State) (sess : Nat) : Session := (s.sessions.find? (·.id == sess)).getD { id := sess }
/-- The state with a session changed. -/
def State.setSession (s : State) (sess : Nat) (f : Session → Session) : State :=
  { s with sessions := f (s.session sess) :: s.sessions.filter (·.id != sess) }
/-- A request over the DOE mailbox arrives only while the link is up. -/
def State.onLink (s : State) (f : State → State) : State := if s.linkUp then f s else s
/-- A request that needs a condition, else an SPDM error. -/
def State.spdm (s : State) (sess : Nat) (ok : Bool) (f : State → State) : Out :=
  .next (s.onLink fun s => if ok then f s else s.spdmError sess)
/-- GET_VERSION: 1.3, and 1.2. It begins a negotiation. -/
def execGetVersion (sess : Nat) (s : State) : Out :=
  s.spdm sess true fun s => (s.setSession sess fun x => { x with version := true, capabilities := false, algorithms := false }).answerMsg sess 1 0
/-- GET_CAPABILITIES: a heartbeat period of 0. -/
def execGetCapabilities (sess : Nat) (s : State) : Out :=
  s.spdm sess (s.session sess).version fun s => (s.setSession sess fun x => { x with capabilities := true }).answerMsg sess 2 0
/-- NEGOTIATE_ALGORITHMS: refused where the offer holds none of the device's algorithms. -/
def execNegotiateAlgorithms (sess : Nat) (ok : Bool) (s : State) : Out :=
  s.spdm sess ((s.session sess).capabilities && ok) fun s => (s.setSession sess fun x => { x with algorithms := true }).answerMsg sess 3 0
/-- Whether a session has negotiated. -/
def State.negotiated (s : State) (sess : Nat) : Bool := (s.session sess).algorithms
/-- GET_DIGESTS: slot 0 alone holds a chain. -/
def execGetDigests (sess : Nat) (s : State) : Out := s.spdm sess (s.negotiated sess) fun s => s.answerMsg sess 4 s.imageDigest
/-- GET_CERTIFICATE: slots 1 to 7 are empty. -/
def execGetCertificate (sess slot : Nat) (s : State) : Out :=
  s.spdm sess (s.negotiated sess && slot == 0) fun s => s.answerMsg sess 5 s.imageDigest
/-- CHALLENGE. -/
def execSpdmChallenge (sess slot : Nat) (s : State) : Out :=
  s.spdm sess (s.negotiated sess && slot == 0) fun s => s.answerMsg sess 6 s.free
/-- What a measurement block measures (R443), as one number: the firmware's image, or a partition's descriptor and locked registers as
captured at the acceptance of its lock. -/
def State.measured (s : State) (idx : Nat) : Option Nat :=
  if 1 ≤ idx ∧ idx ≤ 4 then some (idx + 16 * (if idx = 2 ∨ idx = 3 then s.imageDigest else 0))
  else if 0x10 ≤ idx ∧ idx < 0x18 then
    let q := s.part (idx - 0x10)
    if q.lockSession.isSome then some (idx + 256 * leNat (q.descriptor ++ q.lockCapture.flatMap fun r => leBytes 4 r.2.toNat)) else none
  else none
/-- A measurement block: a SHA-384 digest. -/
def State.measurement (s : State) (idx : Nat) : Option (BitVec 384) := (s.measured idx).map Config.measurement
/-- GET_MEASUREMENTS: one block; 0 asks for their number, 0xFF for all. -/
def execGetMeasurements (sess idx : Nat) (s : State) : Out :=
  s.spdm sess (s.negotiated sess && (idx == 0 || idx == 0xFF || (s.measurement idx).isSome)) fun s =>
    s.answerMsg sess 7 (idx + 256 * (((List.range 0x18).filterMap s.measurement).foldl (fun x m => x * 2 ^ 384 + m.toNat) 0))
/-- KEY_EXCHANGE. -/
def execKeyExchange (sess : Nat) (s : State) : Out :=
  s.spdm sess (s.negotiated sess) fun s => (s.setSession sess fun x => { x with exchanged := true }).answerMsg sess 8 s.free
/-- FINISH: the session is secured. -/
def execSpdmFinish (sess : Nat) (ok : Bool) (s : State) : Out :=
  s.spdm sess ((s.session sess).exchanged && ok) fun s => (s.setSession sess fun x => { x with secured := true, exchanged := false, keyEpoch := 0 }).answerMsg sess 9 0
/-- HEARTBEAT. -/
def execSpdmHeartbeat (sess : Nat) (s : State) : Out := s.spdm sess (s.session sess).secured fun s => s.answerMsg sess 10 0
/-- A session ends: its IDE keys go, and every interface it has locked runs the stop sequence (R445). -/
def State.endSession (s : State) (sess : Nat) : State :=
  let s := { s with sessions := s.sessions.filter (·.id != sess) }
  (List.range 8).foldl (fun s p =>
    let q := s.part p
    let s := if q.ideSession = some sess then s.setPart p fun q => { q with ideSession := none, ideSecure := false } else s
    if q.lockSession = some sess && (q.state == .locked || q.state == .run || q.state == .error) then s.stopBegin p else s) s
/-- KEY_UPDATE: a failure moves the interfaces locked in the session to ERROR and ends it (R439, R445). -/
def execKeyUpdate (sess : Nat) (ok : Bool) (s : State) : Out :=
  s.spdm sess (s.session sess).secured fun s =>
    if ok then (s.setSession sess fun x => { x with keyEpoch := x.keyEpoch + 1 }).answerMsg sess 11 0
    else ((List.range 8).foldl (fun (s : State) p => if (s.part p).lockSession = some sess then s.toError p else s) (s.spdmError sess)).endSession sess
/-- END_SESSION. -/
def execEndSession (sess : Nat) (s : State) : Out :=
  s.spdm sess (s.session sess).secured fun s => (s.answerMsg sess 12 0).endSession sess

/-! ### TDISP and IDE key management (R439, R444) -/

/-- A TDISP or IDE_KM request for the interface of a partition: within a secured session, of VF 1 to VF 8, where a condition holds. -/
def State.tdisp (s : State) (sess vf : Nat) (ok : Partition → Bool) (f : Nat → State → State) : Out :=
  .next (s.onLink fun s =>
    if (s.session sess).secured && decide (1 ≤ vf) && decide (vf ≤ 8) && ok (s.part (vf - 1)) then f (vf - 1) s else s.tdispError sess)
/-- GET_TDISP_VERSION. -/
def execGetTdispVersion (sess vf : Nat) (s : State) : Out := s.tdisp sess vf (fun _ => true) fun _ s => s.answerMsg sess 0x81 0
/-- GET_TDISP_CAPABILITIES. -/
def execGetTdispCapabilities (sess vf : Nat) (s : State) : Out := s.tdisp sess vf (fun _ => true) fun _ s => s.answerMsg sess 0x82 0
/-- LOCK_INTERFACE_REQUEST: the locked registers are captured, the private ranges zeroed under a new key, and the response sent. -/
def execLockInterfaceRequest (sess vf : Nat) (s : State) : Out :=
  s.tdisp sess vf (fun q => q.state == .unlocked && q.isSealed && q.ideSession == some sess) fun p s =>
    let s := (s.setPart p fun q =>
      { q with state := .locked, lockSession := some sess, memoryKey := some s.free, lockCapture := lockedRegisters.map fun n => (n, q.reg n (resetOf n)) }).zeroPrivate p
    (s.announce p).answerMsg sess 0x83 (p + 16 * s.free)
where
  /-- Reset values of the locked registers that do not reset to 0. -/
  resetOf (n : Nat) : Word :=
    match n with
    | 0x850 => 0x10000
    | 0x852 => 0x186A0
    | 0x872 => 6
    | 0x962 | 0x966 | 0x96A | 0x96E => 4
    | _ => 0
/-- GET_DEVICE_INTERFACE_REPORT: BAR ranges, the descriptor and the partition's measurement block. -/
def execGetDeviceInterfaceReport (sess vf : Nat) (s : State) : Out :=
  s.tdisp sess vf (fun q => q.state != .none) fun p s =>
    s.answerMsg sess 0x84 (leNat (s.part p).descriptor + 2 ^ 2048 * (((s.measurement (0x10 + p)).map BitVec.toNat).getD 0))
/-- The code of a state in PSTATE (R439). -/
def PartState.code (x : PartState) : Nat :=
  match x with
  | .none => 0
  | .unlocked => 1
  | .locked => 2
  | .run => 3
  | .error => 4
/-- GET_DEVICE_INTERFACE_STATE. -/
def execGetDeviceInterfaceState (sess vf : Nat) (s : State) : Out :=
  s.tdisp sess vf (fun _ => true) fun p s => s.answerMsg sess 0x85 (s.part p).state.code
/-- START_INTERFACE_REQUEST: by the session that locked the interface. -/
def execStartInterfaceRequest (sess vf : Nat) (s : State) : Out :=
  s.tdisp sess vf (fun q => q.state == .locked && q.lockSession == some sess && !q.stopping) fun p s =>
    ((s.setPart p fun q => { q with state := .run, sliceSince := s.refs }).announce p).answerMsg sess 0x86 0
/-- STOP_INTERFACE_REQUEST: by the session that locked it. -/
def execStopInterfaceRequest (sess vf : Nat) (s : State) : Out :=
  s.tdisp sess vf (fun q => (q.state == .locked || q.state == .run || q.state == .error) && q.lockSession == some sess) fun p s =>
    (s.stopBegin p).answerMsg sess 0x87 0
/-- KEY_PROG: keys of the selective stream that covers a function; a stream of a locked interface keeps its session. -/
def execKeyProg (sess vf : Nat) (s : State) : Out :=
  s.tdisp sess vf (fun q => q.lockSession.isNone || q.lockSession == some sess) fun p s =>
    (s.setPart p fun q => { q with ideSession := some sess }).answerMsg sess 0x88 0
/-- K_SET_GO: the stream is secure. -/
def execKSetGo (sess vf : Nat) (s : State) : Out :=
  s.tdisp sess vf (fun q => q.ideSession == some sess) fun p s => (s.setPart p fun q => { q with ideSecure := true }).answerMsg sess 0x89 0
/-- A stream leaves the secure state (R439). -/
def State.insecure (s : State) (p : Nat) : State :=
  if (s.part p).ideSecure then (s.setPart p fun q => { q with ideSecure := false }).toError p else s
/-- K_SET_STOP. -/
def execKSetStop (sess vf : Nat) (s : State) : Out :=
  s.tdisp sess vf (fun q => q.ideSession == some sess) fun p s => (s.insecure p).answerMsg sess 0x8A 0
/-- IDE_STREAM_INSECURE. -/
def execIdeStreamInsecure (vf : Nat) (s : State) : Out := .next (if 1 ≤ vf ∧ vf ≤ 8 then s.insecure (vf - 1) else s)

/-! ### Board sessions and keys (R446, R447) -/

/-- A message of the security core to a board, for the host to carry. -/
def State.toBoard (s : State) (ch step : Nat) : State :=
  { s with sent := s.sent ++ [{ kind := 0x200 + ch, bytes := Config.responseBytes (0x200 + step) s.free }] }
/-- BOARD_RELAY_OBJECT: a board's message arrives on a channel. -/
def execBoardRelayObject (ch : Nat) (msg : List Byte) (s : State) : Out :=
  .next (s.onLink fun s => if ch < 16 then { s with relay := s.relay ++ [(ch, msg)] } else s)
/-- KSSTAT of a partition. -/
def State.keyStatus (s : State) (p code : Nat) : State := s.setPart p fun q => q.setReg 0x978 (BitVec.ofNat 32 code)
/-- The cores of a partition. -/
def Partition.cores (q : Partition) : List Nat := (List.range 96).filter q.ownsCore
/-- Loads a key into a slot of every copy unit of a partition's cores, or clears the slot (R379). -/
def State.loadKey (s : State) (p slot : Nat) (key : Option (BitVec 256)) : State :=
  (s.part p).cores.foldl (fun (s : State) t =>
    let rest := s.keys.filter fun (x : (Nat × Nat) × (BitVec 256 × Nat)) => x.1 != (t, slot)
    { s with keys := match key with
      | some k => rest ++ [((t, slot), (k, p))]
      | none => rest }) s
/-- The request block that KSREQ names, if it can be read. -/
def State.keyBlock (s : State) (p : Nat) : Option (List Byte) :=
  match s.atelierRead p ((s.part p).reg2 0x976) 64 with
  | .ok b => some b
  | .error _ => none
/-- The operation a block asks for: 1 establish, 2 clear, 0 neither. -/
def keyOperation (b : List Byte) : Nat :=
  if natAt b 0 1 < 16 ∧ natAt b 1 1 < 16 ∧ natAt b 3 13 = 0 ∧ (natAt b 2 1 = 1 ∨ natAt b 2 1 = 2) then natAt b 2 1 else 0
/-- A request through KSREQ (R447). -/
def State.keyRequest (s : State) (p : Nat) : State :=
  let q := s.part p
  let refuse := s.keyStatus p 5
  if !(q.isSealed && q.state == .run && !q.stopping) then refuse
  else match s.keyBlock p with
    | none => refuse
    | some b =>
      let slot := natAt b 0 1
      match keyOperation b, q.ksPending with
      | 1, none => ((s.setPart p fun q => { q with ksPending := some (slot, natAt b 1 1), ksStep := 1 }).keyStatus p 1).toBoard (natAt b 1 1) 1
      | 2, none => (s.loadKey p slot none).keyStatus p 2
      | 2, some x =>
        if x.1 = slot then ((s.loadKey p slot none).setPart p fun q => { q with ksPending := none }).keyStatus p 6 else refuse
      | _, _ => refuse
/-- A request event of one operation: KSREQ names a block that asks for it. -/
def State.keyEvent (s : State) (p op : Nat) : State := if ((s.keyBlock p).map keyOperation) = some op then s.keyRequest p else s
/-- KEY_ESTABLISH. -/
def execKeyEstablish (p : Nat) (s : State) : Out := .next (if (s.part p).state = .none then s else s.keyEvent p 1)
/-- KEY_CLEAR. -/
def execKeyClear (p : Nat) (s : State) : Out := .next (if (s.part p).state = .none then s else s.keyEvent p 2)
/-- BOARD_RESPONSE: the board's answer ends a request with an authentication failure (3) or a protocol error (4); any other answer leads to
the next of the six messages GET_VERSION, GET_CAPABILITIES, NEGOTIATE_ALGORITHMS, GET_CERTIFICATE, KEY_EXCHANGE and FINISH (R447), and the
answer to the last to OK and the derived key. -/
def execBoardResponse (p code : Nat) (key : BitVec 256) (s : State) : Out :=
  .next (match (s.part p).ksPending with
    | none => s
    | some (slot, ch) =>
      let s := { s with relay := s.relay.filter fun x => x.1 != ch }
      let step := (s.part p).ksStep
      if code = 3 ∨ code = 4 then (s.setPart p fun q => { q with ksPending := none }).keyStatus p code
      else if step < 6 then (s.setPart p fun q => { q with ksStep := step + 1 }).toBoard ch (step + 1)
      else ((s.loadKey p slot (some key)).setPart p fun q => { q with ksPending := none }).keyStatus p 2)

/-! ### Bring-up and the link (R434, R445, R449, R450) -/

/-- The part with nothing in it, at a step of its boot; what the outside world is still to send stays. -/
def State.booting (s : State) (b : Word) : State := { State.reset with bootst := b, linkUp := false, inputs := s.inputs, free := s.free }
/-- POWER_ON_RESET: step 1 passes and the boot waits for its image, or it halts. -/
def execPowerOnReset (ok : Bool) (s : State) : Out := .next (s.booting (if ok then 2 else 0x81))
/-- BOOT_IMAGE_WRITE: steps 2 to 6. -/
def execBootImageWrite (image : List Byte) (verified derived : Bool) (trained : Option Nat) (failing : BitVec 96) (s : State) : Out :=
  .next (if s.bootst ≠ 2 then s
    else if !verified || decide (0x200000 < image.length) then s.booting 0x83
    else if !derived then s.booting 0x84
    else match trained with
      | some ch => s.booting (BitVec.ofNat 32 (0x85 + ch % 16 * 256))
      | none => { s.booting 7 with cdmask := failing, imageDigest := leNat image })
/-- LINK_TRAINING: after PERST# is deasserted; a failure is tried again. -/
def execLinkTraining (ok : Bool) (s : State) : Out :=
  .next (if (s.bootst = 7 ∨ s.bootst = 8) ∧ !s.linkUp then
      (if ok then { s with perst := false, linkUp := true, bootst := 8 }.msi 0 0 else { s with perst := false })
    else s)
/-- A reset of the link ends every session (R445). -/
def State.linkReset (s : State) : State :=
  let s := if s.linkUp then s.msi 0 0 else s
  (s.sessions.map (·.id)).foldl State.endSession { s with linkUp := false }
/-- PERST_ASSERT. -/
def execPerstAssert (s : State) : Out := .next (if s.perst then s else { s with perst := true }.linkReset)
/-- HOT_RESET. -/
def execHotReset (s : State) : Out := .next (s.onLink State.linkReset)
/-- LINK_DOWN. -/
def execLinkDown (s : State) : Out := .next (s.onLink State.linkReset)
/-- DOE_DISCOVERY: PF 0's mailbox supports four object types. -/
def execDoeDiscovery (idx : Nat) (s : State) : Out := .next (s.onLink fun s => s.answerMsg 0 0x300 (min idx 4))

end Sys2Proof.Machine
end

