-- ==== Sys2Proof/Machine/SysRegs.lean ====
section
/-! DEFINITION. System registers: SYSRD and SYSWR (R26, R103, R325), the registers of a group, a partition, a core and the device (R54,
R68, R93, R104, R153, R183, R191, R253, R276, R289, R318, R331, R363, R379, R381, R403, R408, R430, R441, R447, R451, R452), the host's view of
them (R436, R437) and the debug port (R422, R448). -/

namespace Sys2Proof.Machine

/-- A mask of the positions of a list at which a test holds. -/
def maskWord (n : Nat) (f : Nat → Bool) : Word := BitVec.ofNat 32 ((List.range n).foldr (fun k x => (if f k then 2 ^ k else 0) + x) 0)

/-! ### Registers of a group, its team and its context -/

/-- The task of a group. -/
def State.groupTask (s : State) (g : Group) : Task := ((s.part g.part).task? g.task).getD {}
/-- Register n of a loop counter: COUNT, START, LEN, STARTH (R93). -/
def LoopCtr.reg (c : LoopCtr) (n : Nat) : Word :=
  match n with
  | 0 => c.count
  | 1 => lo32 c.start
  | 2 => BitVec.ofNat 32 (c.len.toNat + if c.active then 2 ^ 31 else 0)
  | _ => BitVec.ofNat 32 (bits c.start 32 24)
/-- Register n of the trap registers, from XPCL on (R318). -/
def TrapRegs.reg (x : TrapRegs) (n : Nat) : Word :=
  match n with
  | 0 => lo32 x.xpc
  | 1 => BitVec.ofNat 32 (bits x.xpc 32 24)
  | 2 => x.xinst
  | 3 => lo32 x.xmask
  | 4 => hi32 x.xmask
  | 5 => x.xcause
  | 6 => x.xpath.setWidth 32
  | _ => x.xmode
/-- GROWS (R253). -/
def Group.growsReg (g : Group) : Word := BitVec.ofNat 32 (max g.maxHeld g.held * 2 ^ 18 + g.peak * 2 ^ 12 + g.floor * 2 ^ 6 + g.held)
/-- A register of the group's view, by number in the unprivileged view; an unassigned number reads zero (R26). -/
def State.groupReg (s : State) (g : Group) (n : Nat) : Word :=
  let t := s.team g.team
  if n = 0x010 then g.fpsf
  else if n = 0x011 || n = 0x012 then (if t.ctx = n - 0x011 then t.msf else 0)
  else if n = 0x013 then g.gstat
  else if n = 0x014 then lo32 g.seed
  else if n = 0x015 then hi32 g.seed
  else if n = 0x016 then g.scalarCtr
  else if n = 0x018 then g.cpyst
  else if n = 0x019 then g.cpyfseq
  else if 0x020 ≤ n ∧ n < 0x02C then (g.loops[(n - 0x020) / 4]?.getD {}).reg (n % 4)
  else if n = 0x030 then t.gang
  else if n = 0x031 then maskWord 16 fun k => s.keys.any fun x => x.1 == (g.tile, k) && x.2.2 == g.part
  else if n = 0x032 then g.growsReg
  else if n = 0x034 then
    let k := s.groupTask g
    BitVec.ofNat 32 ((if k.versioned then 2 else 0) + if k.vearly then 1 else 0)
  else if n = 0x035 then BitVec.ofNat 32 t.beats
  else if n = 0x036 then BitVec.ofNat 32 (t.beats / 2 ^ 32)
  else if 0x038 ≤ n ∧ n < 0x040 then g.x.reg (n - 0x038)
  else if 0x080 ≤ n ∧ n < 0x0C0 then
    let f := t.futures[n - 0x080]?.getD {}
    BitVec.ofNat 32 (f.firstBad * 2 ^ 16 + f.jobs % 2 ^ 16)
  else 0
/-- PROWS (R253): the rows of the group's pipe. -/
def State.prowsReg (s : State) (g : Group) : Word :=
  let on := s.onPipe g.tile g.pipe
  BitVec.ofNat 32 (rowsReserve on * 2 ^ 24 + rowsFree on g.width * 2 ^ 12 + pipeRows g.width)
/-- Registers that only the privileged view gives a group: its rows, its parked paths, its team's barriers and latch, its context. -/
def State.groupPrivReg (s : State) (g : Group) (n : Nat) : Word :=
  let t := s.team g.team
  let sel := (s.part g.part).reg 0x936 0
  let element := lookD t.acc (128 * bits sel 0 7 + bits sel 8 7) 0
  if n = 0x833 then s.prowsReg g
  else if n = 0x837 then maskWord 8 fun k => ((g.path? k).map fun p => p.parked.isSome).getD false
  else if n = 0x932 then maskWord 32 fun i => decide (i < t.groups) && (t.arrived.contains i || t.exited.contains i)
  else if n = 0x933 then BitVec.ofNat 32 t.phase
  else if n = 0x934 then maskWord 12 fun m => decide (m < s.membersOf t) && ((s.member? t m).map fun x => x.allIn x.carrived).getD true
  else if n = 0x935 then maskWord 32 fun i => t.latch.any fun a => ((s.group? a.group).map (·.index)) == some i
  else if n = 0x937 then element.setWidth 32
  else if n = 0x938 then (element >>> 32).setWidth 32
  else if n = 0x939 then BitVec.ofNat 32 (t.matQueue.length % 16 * 2 ^ 16 + t.spStep % 2 ^ 16)
  else 0
/-- A write of a group register by its own group: none where it is refused (R26, R68, R318). -/
def State.groupWrite (s : State) (n : Nat) (v : Word) : Option State :=
  let fits := fun (mask : Word) (s : State) => if v &&& ~~~mask = 0 then some s else none
  let trap := s.me.handler.isSome
  if n = 0x010 then fits 0xFF (s.withMe fun g => { g with fpsf := v })
  else if n = 0x011 || n = 0x012 then (if s.myTeam.ctx = n - 0x011 then fits 0x7F (s.setMyTeam fun t => { t with msf := v }) else none)
  else if n = 0x013 then fits 7 (s.withMe fun g => { g with gstat := v })
  else if n = 0x014 then some (s.withMe fun g => { g with seed := pair v (hi32 g.seed) })
  else if n = 0x015 then some (s.withMe fun g => { g with seed := pair (lo32 g.seed) v })
  else if n = 0x016 then some (s.withMe fun g => { g with scalarCtr := v, laneCtr := Vector.replicate 64 v })
  else if n = 0x018 then fits 0xFF0000F3 (s.withMe fun g =>
    if v = 0 then { g with cpyst := 0, cpyfseq := 0, failedBatches := [] } else { g with cpyst := v })
  else if n = 0x019 then some (s.withMe fun g => { g with cpyfseq := v })
  else if n = 0x038 then (if trap then fits 0xFFFFFFFC (s.withMe fun g => { g with x := { g.x with xpc := pair v (hi32 g.x.xpc) } }) else none)
  else if n = 0x039 then (if trap then fits 0x00FFFFFF (s.withMe fun g => { g with x := { g.x with xpc := pair (lo32 g.x.xpc) v } }) else none)
  else if n = 0x03F then (if trap && modeLegal v then some (s.withMe fun g => { g with x := { g.x with xmode := v } }) else none)
  else none

/-! ### Registers of a partition -/

/-- Registers that a write only fills: number and writable bits. -/
def plainRegs : List (Nat × Word) :=
  [(0x840, 0xFFFFFFFF), (0x841, 0xFFFFFFFF), (0x850, 0xFFFFFFFF), (0x851, 0xFFFFFFFF), (0x852, 0xFFFFFFFF), (0x853, 0xFFFFFF80),
   (0x854, 0x00FFFFFF), (0x855, 0xFFFFFFC0), (0x856, 0x00FFFFFF), (0x857, 0xFFFFFFF0), (0x858, 0x00FFFFFF), (0x859, 0xFFFFFFE0),
   (0x85A, 0x00FFFFFF), (0x85B, 0xFFFFFFE0), (0x85C, 0x00FFFFFF), (0x85D, 0xFFFFF000), (0x85E, 0x00FFFFFF), (0x870, 0xFFFFF000),
   (0x871, 0x00FFFFFF), (0x877, 0xFFFFFFC0), (0x878, 0x00FFFFFF), (0x879, 0xFFFFF000), (0x87A, 0x000FFFFF), (0x87B, 0xFFFFFFFF),
   (0x87C, 0x00FFFFFF)]
  ++ [(0x8C0, 0x0000FFFF), (0x8C1, 0xFFFFFFE0), (0x8C2, 0x00FFFFFF), (0x8C7, 0xFFFFFFFF), (0x900, 0xFFFFFFF8), (0x901, 0x00FFFFFF),
   (0x903, 0xFFFFFFE0), (0x904, 0x00FFFFFF), (0x909, 0x00000003), (0x918, 0xFFFFFFFC), (0x919, 0x00FFFFFF), (0x91A, 0xFFFFFFFC),
   (0x91B, 0x00FFFFFF), (0x91C, 0x000000FF), (0x91D, 0xFFFFFFFF), (0x920, 0x800003FF), (0x921, 0x800003FF), (0x922, 0x800003FF),
   (0x923, 0x800003FF), (0x924, 0x800003FF), (0x925, 0x800003FF), (0x926, 0x800003FF), (0x927, 0x800003FF)]
  ++ [(0x936, 0x00007F7F), (0x93B, 0xFFFFF800), (0x93C, 0x00FFFFFF), (0x93F, 0xFFFFFFFF), (0x960, 0xFFFFFFF0), (0x961, 0x00FFFFFF),
   (0x964, 0xFFFFFFF0), (0x965, 0x00FFFFFF), (0x968, 0xFFFFFFF0), (0x969, 0x00FFFFFF), (0x96C, 0xFFFFFFF0), (0x96D, 0x00FFFFFF),
   (0x976, 0xFFFFFFC0)]
/-- Counters that a write of 0 clears, and that take no other write (R452). -/
def clearRegs : List Nat := [0x87E, 0x87F, 0x8CD, 0x908, 0x910, 0x911, 0x912, 0x913, 0x914, 0x915, 0x916, 0x917]
/-- Ring pointers that software advances: the register, its head, its size register with reset value; 0 stands for a ring of 8. -/
def tailRegs : List (Nat × (Nat × Nat × Word)) :=
  [(0x874, (0x873, 0x872, 6)), (0x8C5, (0x8C4, 0x8C3, 6)), (0x907, (0x906, 0x905, 4)), (0x93E, (0x93D, 0, 3))]
/-- Reset values of partition registers that do not reset to 0. -/
def regReset (n : Nat) : Word :=
  match n with
  | 0x850 | 0x8C7 => 0x10000
  | 0x852 => 0x186A0
  | 0x872 | 0x8C3 => 6
  | 0x8C0 => 0x40
  | 0x905 | 0x962 | 0x966 | 0x96A | 0x96E => 4
  | 0x909 | 0x974 => 1
  | _ => 0
/-- A partition register as it stands. -/
def Partition.stands (q : Partition) (n : Nat) : Word := q.reg n (regReset n)
/-- A word of a mask over the 52 regions. -/
def State.regions (s : State) (high : Bool) (f : RegionState → Bool) : Word :=
  maskWord 32 fun k => let r := k + if high then 32 else 0; decide (r < 52) && f (s.gate r).state
/-- PWRST (R403). -/
def Power.status (w : Power) : Word := BitVec.ofNat 32 (w.measured % 4096 * 2 ^ 20 + w.overload.toNat * 2 ^ 10 + w.fstep * 2 ^ 4 + w.point)
/-- PWRCTL (R403). -/
def Power.control (w : Power) : Word := BitVec.ofNat 32 (w.limit * 2 ^ 20 + if w.boost then 1 else 0)
/-- PSTATE (R439). -/
def Partition.status (q : Partition) (p : Nat) : Word :=
  BitVec.ofNat 32 (q.state.code + (if q.isSealed then 8 else 0) + p * 16 + if q.badDb then 128 else 0)
/-- A register of a partition as it reads; an unassigned number reads zero. -/
def State.partReg (s : State) (part n : Nat) : Word :=
  let q := s.part part
  match n with
  | 0x875 | 0x931 => 0
  | 0x876 => q.stands n ||| (if q.fqRoom < q.faults.length then 1 else 0)
  | 0x8C9 => s.regions false (· == .pending)
  | 0x8CA => s.regions true (· == .pending)
  | 0x8CB => s.regions false fun x => x == .closed || x == .opening
  | 0x8CC => s.regions true fun x => x == .closed || x == .opening
  | 0x8CE => s.power.status
  | 0x8CF => s.power.control
  | 0x8D0 => if q.reports != [] && !q.reportRoom then 1 else 0
  | 0x975 => q.status part
  | _ => q.stands n
/-- TLBICTL (R338). -/
def State.tlbControl (s : State) (part : Nat) (v : Word) : State :=
  let va := (s.part part).reg2 0x87B
  let s := s.invalidate part fun t => v == 1 || va / 2 ^ pageLog (t % 4) == t / 2 ^ pageLog (t % 4)
  s.setPart part fun q => q.setReg 0x87D v
/-- What follows the write of an area's base: causes, reports and scan records that waited for it may be written. -/
def State.baseWritten (s : State) (part n : Nat) : State :=
  let q := s.part part
  if n = 0x870 ∨ n = 0x871 then (if q.reg2 0x870 = 0 then s else s.setPart part fun q => { q with vectorRaisedNoQueue := false })
  else if n = 0x8C1 ∨ n = 0x8C2 then (if q.reg2 0x8C1 = 0 then s else s.setPart part fun q => { q with reportRaised := false })
  else if n = 0x93B ∨ n = 0x93C then
    (if q.reg2 0x93B = 0 then s else State.flushScans part 8 (s.setPart part fun q => { q with scanRaised := false }))
  else s
/-- A write of a partition register by its code or the host (who = 8): none where it is refused (R7, R26, R452). -/
def State.partWrite (s : State) (who part n : Nat) (v : Word) : Option State :=
  let q := s.part part
  let set := fun (v : Word) => s.setPart part fun q => q.setReg n v
  let fits := fun (mask : Word) => v &&& ~~~mask = 0
  let size := fun (lo hi : Nat) => decide (lo ≤ v.toNat) && decide (v.toNat ≤ hi)
  match look n plainRegs with
  | some mask =>
    if !fits mask || ((n == 0x903 || n == 0x904) && q.traceOn) then none else some ((set v).baseWritten part n)
  | none =>
  if clearRegs.contains n then (if v = 0 then some (set 0) else none)
  else match look n tailRegs with
  | some (h, z, d) =>
    if (q.reg h 0 - v).toNat ≤ 2 ^ bits (if z = 0 then d else q.reg z d) 0 5 then
      some (if n = 0x93E then State.flushScans part 8 (set v) else set v)
    else none
  | none =>
  match n with
  | 0x85F => if fits 3 then (let s := set (v &&& 1); some (if bit v 1 then s.fire part 2 else s)) else none
  | 0x860 => if fits 0x13F then some (if bit v 8 then s.poolDisable part (bits v 0 6) v else s.poolEnable part (bits v 0 6) v) else none
  | 0x861 => if fits 0x13F then some (if bit v 8 then s.mouldDisable part (bits v 0 6) v else s.mouldEnable part (bits v 0 6) v) else none
  | 0x872 => if size 6 16 then some (set v) else none
  | 0x875 => if bits v 30 2 = 3 then none else some (s.faultAct part (bits v 30 2) (bits v 0 30))
  | 0x876 => if fits 2 then some (if bit v 1 then s else set (setBits (q.stands 0x876) 1 1 0)) else none
  | 0x87D => if v.toNat ≤ 1 then some (s.tlbControl part v) else none
  | 0x8C3 => if size 4 12 then some (set v) else none
  | 0x8C6 => some (s.chReset who part v)
  | 0x8C8 => s.gateWrite who part v
  | 0x902 => s.loadFilter who part v
  | 0x905 => if size 4 16 && !q.traceOn then some (s.setPart part fun q => ((q.setReg n v).setReg 0x906 0).setReg 0x907 0) else none
  | 0x91E => if fits 1 then some (if bit v 0 then s.startTrial part else s.stopTrial part) else none
  | 0x930 => if fits 7 then some (set (v &&& (q.stands 0x930 ||| 3))) else none
  | 0x931 => if fits 0x7FFF0707 then some (s.debugOp who part v) else none
  | 0x940 => if fits 1 then some (s.scanAct part (bit v 0)) else none
  | 0x962 | 0x966 | 0x96A | 0x96E =>
    let k := (n - 0x962) / 4
    if fits 0x3F && decide (4 ≤ bits v 0 5) && decide (bits v 0 5 ≤ 16) then
      some (s.setPart part fun q => ((q.setReg n v).setReg (n + 1) 0).setReg (0x970 + k) 0)
    else none
  | 0x970 | 0x971 | 0x972 | 0x973 => some (s.setPart part fun q => q.doorbell (n - 0x970) v)
  | 0x974 => if size 1 0xFF then some (set v) else none
  | 0x977 => if fits 0x00FFFFFF then some ((set v).keyRequest part) else none
  | _ => none

/-! ### Registers of a core (R381, R408, R423) -/

/-- A register of a core as it reads. -/
def State.tileReg (s : State) (tile n : Nat) : Word :=
  if n = 0x8D8 then
    let c := s.channel tile
    BitVec.ofNat 32 (c.sent.toNat * 2 ^ 16 + (c.link.length + c.back) % 32 * 2 ^ 8 + c.held)
  else if n = 0x8D9 then
    let c := s.channel (partner tile)
    BitVec.ofNat 32 (c.taken.toNat * 2 ^ 16 + c.fifo.length)
  else s.coreReg tile n (if n = 0x8E1 then 0x400 else if n = 0x8E4 then 4 else 0)
/-- A write of a register of a core by code of a partition or the host (8): none where it is refused. -/
def State.tileWrite (s : State) (who tile n : Nat) (v : Word) : Option State :=
  let on := bit (s.coreReg tile 0x8E0 0) 0
  let fits := fun (mask : Word) => v &&& ~~~mask = 0
  match n with
  | 0x8E0 => s.smpControl who tile v
  | 0x8E1 => if v.toNat < 0x10 || bits v 24 8 ≠ 0 then none else some (s.writeSmp tile n 0x400 v)
  | 0x8E2 => if on || !fits 0xFFFFF000 then none else some (s.writeSmp tile n 0 v)
  | 0x8E3 => if on || !fits 0x00FFFFFF then none else some (s.writeSmp tile n 0 v)
  | 0x8E4 =>
    if on || v.toNat < 4 || decide (16 < v.toNat) then none
    else some (((s.writeSmp tile n 4 v).writeSmp tile 0x8E5 0 0).writeSmp tile 0x8E6 0 0)
  | 0x8E6 =>
    if (s.coreReg tile 0x8E5 0 - v).toNat ≤ 2 ^ bits (s.coreReg tile 0x8E4 4) 0 5 then some (s.writeSmp tile n 0 v) else none
  | 0x8E7 => if v = 0 then some (s.writeSmp tile n 0 0) else none
  | 0x93A => if v = 0 then some (s.setCoreReg tile n 0) else none
  | _ => none

/-! ### The privileged view -/

/-- Numbers of the per-core registers. -/
def tileNumber (n : Nat) : Bool := n == 0x8D8 || n == 0x8D9 || (decide (0x8E0 ≤ n) && decide (n ≤ 0x8E7)) || n == 0x93A
/-- Numbers of the privileged view's copy of the unprivileged one (R8). -/
def shownNumber (n : Nat) : Bool := (decide (0x800 ≤ n) && decide (n < 0x840) && n != 0x833 && n != 0x837) || (decide (0x880 ≤ n) && decide (n < 0x8C0))
/-- Numbers of registers of one group that only the privileged view gives. -/
def groupNumber (n : Nat) : Bool := n == 0x833 || n == 0x837 || (decide (0x932 ≤ n) && decide (n ≤ 0x939) && n != 0x936)
/-- A register by number, as a group reads it in the privileged view (R26). -/
def State.sysReg (s : State) (g : Group) (n : Nat) : Word :=
  if n < 0x800 then s.groupReg g n
  else if shownNumber n then s.groupReg g (n - 0x800)
  else if groupNumber n then s.groupPrivReg g n
  else if tileNumber n then s.tileReg g.tile n
  else s.partReg g.part n
/-- A SYSWR of the issuing group: none where it is an illegal operand. -/
def State.sysWrite (s : State) (n : Nat) (v : Word) : Option State :=
  if n < 0x800 then s.groupWrite n v
  else if shownNumber n then s.groupWrite (n - 0x800) v
  else if groupNumber n then none
  else if tileNumber n then s.tileWrite s.me.part s.me.tile n v
  else s.partWrite s.me.part s.me.part n v
/-- Numbers that some value may be written to: neither unassigned nor read-only (R26). -/
def writableNumber (n : Nat) : Bool :=
  if n < 0x800 || shownNumber n then [0x010, 0x011, 0x012, 0x013, 0x014, 0x015, 0x016, 0x018, 0x019, 0x038, 0x039, 0x03F].contains (n % 0x800)
  else (look n plainRegs).isSome || clearRegs.contains n || (look n tailRegs).isSome
    || [0x85F, 0x860, 0x861, 0x872, 0x875, 0x876, 0x87D, 0x8C3, 0x8C6, 0x8C8, 0x8E0, 0x8E1, 0x8E2, 0x8E3, 0x8E4, 0x8E6, 0x8E7, 0x902, 0x905,
        0x91E, 0x930, 0x931, 0x93A, 0x940, 0x962, 0x966, 0x96A, 0x96E, 0x970, 0x971, 0x972, 0x973, 0x974, 0x977].contains n
/-- A protection fault of unprivileged code that names the privileged view (R26). -/
def State.needPriv (s : State) : State := s.raise { code := 0x0C, detail := 1, mask := s.exm }
/-- SYSRD; one of SMPHEAD is an acquire at device scope (R407). -/
def execSysrd (d : BitVec 6) (n : BitVec 12) (s : State) : Out :=
  .next (s.checked true true [] fun s =>
    if !s.priv && decide (0x800 ≤ n.toNat) then s.needPriv
    else
      let v := s.sysReg s.me n.toNat
      let s := if n.toNat = 0x8E5 then s.acquire 3 else s
      (s.putS d.toNat v clsNONE).retire {})
/-- SYSWR. A write may end the writing group, whose instruction then completes with it. -/
def execSyswr (d : BitVec 6) (n : BitVec 12) (s : State) : Out :=
  let v := s.rs d.toNat
  let allowed := s.priv || decide (n.toNat < 0x800)
  let r := if allowed then s.sysWrite n.toNat v else none
  .next (s.checked (if allowed then r.isSome else writableNumber n.toNat) true [.s d.toNat] fun s =>
    if !allowed then s.needPriv
    else
      let t := (s.sysWrite n.toNat v).getD s
      if t.me.live && t.me.seq == s.me.seq then t.retire {} else t)

/-! ### The host's view and the debug port -/

/-- A device register is written (R451); none where it is refused. -/
def State.deviceWrite (s : State) (k : Nat) (v : Word) : Option State :=
  let fits := fun (mask : Word) => v &&& ~~~mask = 0
  match k with
  | 0 => if fits 0xFFFFFF00 then some { s with partDesc := pair v (hi32 s.partDesc) } else none
  | 1 => if fits 0x000FFFFF then some { s with partDesc := pair (lo32 s.partDesc) v } else none
  | 2 => if fits 0x7F && decide (1 ≤ bits v 3 4) && decide (bits v 3 4 ≤ 4) then some (s.partCommand (bits v 3 4) (bits v 0 3)) else none
  | 4 => if v = 0 then some { s with hostErr := 0 } else none
  | 0x10 => some { s with scanPer := v, scanDue := s.refs + v.toNat }
  | 0x11 | 0x12 | 0x13 => some (s.maskCores (setBits s.cdmask (32 * (k - 0x11)) 32 v.toNat))
  | 0x14 => if fits 0xF then some { s with psSel := v.toNat } else none
  | 0x15 => if fits 0xFFFF then some (s.setPatrolReg s.psSel 0 v) else none
  | 0x16 | 0x17 | 0x18 => if v = 0 then some (s.setPatrolReg s.psSel (k - 0x15) 0) else none
  | 0x1A =>
    if fits 0xFFF00001 && decide (bits v 20 12 ≤ 0x168) then some { s with power := { s.power with limit := bits v 20 12, boost := bit v 0 } } else none
  | _ => none
/-- A device register as it reads (R451). -/
def State.deviceReg (s : State) (k : Nat) : Word :=
  match k with
  | 0 => lo32 s.partDesc
  | 1 => hi32 s.partDesc
  | 2 => s.partCmd
  | 3 => s.bootst
  | 4 => s.hostErr
  | 0x10 => s.scanPer
  | 0x11 | 0x12 | 0x13 => BitVec.ofNat 32 (bits s.cdmask (32 * (k - 0x11)) 32)
  | 0x14 => BitVec.ofNat 32 s.psSel
  | 0x15 | 0x16 | 0x17 | 0x18 => s.patrolReg s.psSel (k - 0x15)
  | 0x1A => s.power.control
  | 0x1B => s.power.status
  | _ => 0
/-- What a host read at an offset of PF 0's BAR 0 returns (R436): a register of a partition, of a core or of the device, as SYSRD reads it,
and zero where there is none. A read changes nothing and is no step. -/
def State.hostRegister (s : State) (off : Nat) : Word :=
  let n := 0x800 + off % 0x2000 / 4
  if off % 4 ≠ 0 then 0
  else if off < 0x10000 then
    (if (s.part (off / 0x2000)).state = .none || shownNumber n || groupNumber n || tileNumber n then 0 else s.partReg (off / 0x2000) n)
  else if 0x100000 ≤ off ∧ off < 0x100000 + 96 * 0x2000 then (if tileNumber n then s.tileReg ((off - 0x100000) / 0x2000) n else 0)
  else if 0x200000 ≤ off then s.deviceReg ((off - 0x200000) / 4)
  else 0
/-- What a read of BAR 0 of VF p + 1 returns (R436): LQTAIL0 to LQTAIL3 and PSTATE, else zero. -/
def State.functionRegister (s : State) (p off : Nat) : Word :=
  if (s.part p).state = .none then 0
  else match off with
    | 0x0 | 0x4 | 0x8 | 0xC => s.partReg p (0x970 + off / 4)
    | 0x10 => s.partReg p 0x975
    | _ => 0
/-- A host write of register n of a partition: not performed where the register is locked (R437), dropped and counted where it is refused
(R436). A partition that does not exist has no registers. -/
def State.hostPart (s : State) (p n : Nat) (v : Word) : State :=
  if (s.part p).state = .none then s
  else if (s.part p).isLocked n then s.toError p
  else if shownNumber n || groupNumber n || tileNumber n then s.hostRefused 8
  else (s.partWrite 8 p n v).getD (s.hostRefused 8)
/-- HOST_REGISTER_WRITE at an offset of PF 0's BAR 0 (R436). -/
def execHostRegisterWrite (off : Nat) (v : Word) (s : State) : Out :=
  .next (s.onLink fun s =>
    if off % 4 ≠ 0 || decide (0x400000 ≤ off) then s
    else if off < 0x10000 then s.hostPart (off / 0x2000) (0x800 + off % 0x2000 / 4) v
    else if 0x100000 ≤ off ∧ off < 0x100000 + 96 * 0x2000 then
      let n := 0x800 + off % 0x2000 / 4
      if tileNumber n then (s.tileWrite 8 ((off - 0x100000) / 0x2000) n v).getD (s.hostRefused 8) else s.hostRefused 8
    else if 0x200000 ≤ off then (s.deviceWrite ((off - 0x200000) / 4) v).getD (s.hostRefused 8)
    else s.hostRefused 8)
/-- LOCKED_REGISTER_WRITE: a host write of a register of a partition (R437). -/
def execLockedRegisterWrite (p n : Nat) (v : Word) (s : State) : Out :=
  .next (s.onLink fun s => if p < 8 ∧ 0x800 ≤ n ∧ n < 0x1000 then s.hostPart p n v else s)
/-- DEBUG_PORT_READ: a register as the located group would read it, with the group and the path of the locator's entry (R410); what is sealed
reads zero, marked (R422, R448). -/
def execDebugPortRead (loc : Word) (n : BitVec 12) (s : State) : Out :=
  .next { s with debugOut := (s.locate? loc).map fun g =>
    let k := n.toNat
    let e := bits loc 8 3
    let off := (s.part g.part).isSealed
    { data := if off && (decide (k < 0x800) || shownNumber k || groupNumber k) then 0 else (s.sysReg g k).setWidth 64
      isSealed := off && (decide (k < 0x800) || shownNumber k || groupNumber k)
      group := g.index, path := e
      pc := if off then 0 else (g.path e).pc
      mask := if off then 0 else (g.path e).member } }

end Sys2Proof.Machine
end

