-- ==== Sys2Proof/Machine/Dispatch.lean ====
section
/-! DEFINITION. Which meaning each instruction and event has. -/

namespace Sys2Proof.Machine

/-- The meaning of an instruction, or of an event of the device. -/
def exec (i : Instr) (s : State) : Host.Outcome State Fault Refusal :=
  match i with
  | .nop w => Sys2Proof.Machine.execNop w s
  | .jmp imm => Sys2Proof.Machine.execJmp imm s
  | .bra n p imm => Sys2Proof.Machine.execBra n p imm s
  | .brany n p imm => Sys2Proof.Machine.execBrany n p imm s
  | .brall n p imm => Sys2Proof.Machine.execBrall n p imm s
  | .brc c imm => Sys2Proof.Machine.execBrc c imm s
  | .jpt imm => Sys2Proof.Machine.execJpt imm s
  | .call n p imm => Sys2Proof.Machine.execCall n p imm s
  | .calli a w => Sys2Proof.Machine.execCalli a w s
  | .ret w => Sys2Proof.Machine.execRet w s
  | .loop d a imm => Sys2Proof.Machine.execLoop d a imm s
  | .loopk c l n => Sys2Proof.Machine.execLoopk c l n s
  | .leave c => Sys2Proof.Machine.execLeave c s
  | .exit w => Sys2Proof.Machine.execExit w s
  | .yield w => Sys2Proof.Machine.execYield w s
  | .bkpt imm => Sys2Proof.Machine.execBkpt imm s
  | .trap imm => Sys2Proof.Machine.execTrap imm s
  | .trapret w => Sys2Proof.Machine.execTrapret w s
  | .xrepl a w ux => Sys2Proof.Machine.execXrepl a w ux s
  | .mode a w => Sys2Proof.Machine.execMode a w s
  | .modef d imm => Sys2Proof.Machine.execModef d imm s
  | .moderd d w => Sys2Proof.Machine.execModerd d w s
  | .exmsv d w => Sys2Proof.Machine.execExmsv d w s
  | .exmld a w => Sys2Proof.Machine.execExmld a w s
  | .exmcmb a f => Sys2Proof.Machine.execExmcmb a f s
  | .exmp a b w => Sys2Proof.Machine.execExmp a b w s
  | .idrd d u imm => Sys2Proof.Machine.execIdrd d u imm s
  | .sysrd d n => Sys2Proof.Machine.execSysrd d n s
  | .syswr d n => Sys2Proof.Machine.execSyswr d n s
  | .reln a b w => Sys2Proof.Machine.execReln a b w s
  | .idemb w => Sys2Proof.Machine.execIdemb w s
  | .ideme w => Sys2Proof.Machine.execIdeme w s
  | .iadd d a b w u x y => Sys2Proof.Machine.execIadd d a b w u x y s
  | .isub d a b w u x y => Sys2Proof.Machine.execIsub d a b w u x y s
  | .imul d a b w u x y => Sys2Proof.Machine.execImul d a b w u x y s
  | .imulh d a b w u x y => Sys2Proof.Machine.execImulh d a b w u x y s
  | .imulhu d a b w u x y => Sys2Proof.Machine.execImulhu d a b w u x y s
  | .imad d a b w u x y z => Sys2Proof.Machine.execImad d a b w u x y z s
  | .idiv d a b w u x y => Sys2Proof.Machine.execIdiv d a b w u x y s
  | .idivu d a b w u x y => Sys2Proof.Machine.execIdivu d a b w u x y s
  | .irem d a b w u x y => Sys2Proof.Machine.execIrem d a b w u x y s
  | .iremu d a b w u x y => Sys2Proof.Machine.execIremu d a b w u x y s
  | .imin d a b w u x y => Sys2Proof.Machine.execImin d a b w u x y s
  | .imax d a b w u x y => Sys2Proof.Machine.execImax d a b w u x y s
  | .iminu d a b w u x y => Sys2Proof.Machine.execIminu d a b w u x y s
  | .imaxu d a b w u x y => Sys2Proof.Machine.execImaxu d a b w u x y s
  | .iabs d a w u x => Sys2Proof.Machine.execIabs d a w u x s
  | .ineg d a w u x => Sys2Proof.Machine.execIneg d a w u x s
  | .and d a b w u x y => Sys2Proof.Machine.execAnd d a b w u x y s
  | .or d a b w u x y => Sys2Proof.Machine.execOr d a b w u x y s
  | .xor d a b w u x y => Sys2Proof.Machine.execXor d a b w u x y s
  | .andn d a b w u x y => Sys2Proof.Machine.execAndn d a b w u x y s
  | .shl d a b w u x y => Sys2Proof.Machine.execShl d a b w u x y s
  | .shr d a b w u x y => Sys2Proof.Machine.execShr d a b w u x y s
  | .shra d a b w u x y => Sys2Proof.Machine.execShra d a b w u x y s
  | .rotl d a b w u x y => Sys2Proof.Machine.execRotl d a b w u x y s
  | .popc d a w u x => Sys2Proof.Machine.execPopc d a w u x s
  | .clz d a w u x => Sys2Proof.Machine.execClz d a w u x s
  | .brev d a w u x => Sys2Proof.Machine.execBrev d a w u x s
  | .bfx d a b u x => Sys2Proof.Machine.execBfx d a b u x s
  | .bfi d a b u => Sys2Proof.Machine.execBfi d a b u s
  | .bperm d a b w u x y => Sys2Proof.Machine.execBperm d a b w u x y s
  | .fshf d a b w u x y z => Sys2Proof.Machine.execFshf d a b w u x y z s
  | .sel d a b n p => Sys2Proof.Machine.execSel d a b n p s
  | .mov d b w u y => Sys2Proof.Machine.execMov d b w u y s
  | .movi d u imm => Sys2Proof.Machine.execMovi d u imm s
  | .ldcw d u lit => Sys2Proof.Machine.execLdcw d u lit s
  | .movs d a w => Sys2Proof.Machine.execMovs d a w s
  | .addi d a u imm => Sys2Proof.Machine.execAddi d a u imm s
  | .muli d a u imm => Sys2Proof.Machine.execMuli d a u imm s
  | .andi d a u imm => Sys2Proof.Machine.execAndi d a u imm s
  | .ori d a u imm => Sys2Proof.Machine.execOri d a u imm s
  | .xori d a u imm => Sys2Proof.Machine.execXori d a u imm s
  | .shli d a u imm => Sys2Proof.Machine.execShli d a u imm s
  | .shri d a u imm => Sys2Proof.Machine.execShri d a u imm s
  | .shrai d a u imm => Sys2Proof.Machine.execShrai d a u imm s
  | .aadd d a b w u x y => Sys2Proof.Machine.execAadd d a b w u x y s
  | .alea d a b u e h => Sys2Proof.Machine.execAlea d a b u e h s
  | .aaddi d a u imm => Sys2Proof.Machine.execAaddi d a u imm s
  | .asub d a b w u x y => Sys2Proof.Machine.execAsub d a b w u x y s
  | .iceq d a b w u x y => Sys2Proof.Machine.execIceq d a b w u x y s
  | .icne d a b w u x y => Sys2Proof.Machine.execIcne d a b w u x y s
  | .iclt d a b w u x y => Sys2Proof.Machine.execIclt d a b w u x y s
  | .icle d a b w u x y => Sys2Proof.Machine.execIcle d a b w u x y s
  | .icltu d a b w u x y => Sys2Proof.Machine.execIcltu d a b w u x y s
  | .icleu d a b w u x y => Sys2Proof.Machine.execIcleu d a b w u x y s
  | .iceqi d a u imm => Sys2Proof.Machine.execIceqi d a u imm s
  | .iclti d a u imm => Sys2Proof.Machine.execIclti d a u imm s
  | .pand d a b w u => Sys2Proof.Machine.execPand d a b w u s
  | .por d a b w u => Sys2Proof.Machine.execPor d a b w u s
  | .pxor d a b w u => Sys2Proof.Machine.execPxor d a b w u s
  | .pandn d a b w u => Sys2Proof.Machine.execPandn d a b w u s
  | .ptos d a w => Sys2Proof.Machine.execPtos d a w s
  | .pfroms d a w => Sys2Proof.Machine.execPfroms d a w s
  | .cmrd d w => Sys2Proof.Machine.execCmrd d w s
  | .cmwr a w => Sys2Proof.Machine.execCmwr a w s
  | .fadd d a b w u x y => Sys2Proof.Machine.execFadd d a b w u x y s
  | .fsub d a b w u x y => Sys2Proof.Machine.execFsub d a b w u x y s
  | .fmul d a b w u x y => Sys2Proof.Machine.execFmul d a b w u x y s
  | .ffma d a b w u x y z => Sys2Proof.Machine.execFfma d a b w u x y z s
  | .ffms d a b w u x y z => Sys2Proof.Machine.execFfms d a b w u x y z s
  | .fnma d a b w u x y z => Sys2Proof.Machine.execFnma d a b w u x y z s
  | .fmin d a b w u x y => Sys2Proof.Machine.execFmin d a b w u x y s
  | .fmax d a b w u x y => Sys2Proof.Machine.execFmax d a b w u x y s
  | .fabs d a w u x => Sys2Proof.Machine.execFabs d a w u x s
  | .fneg d a w u x => Sys2Proof.Machine.execFneg d a w u x s
  | .fceq d a b w u x y => Sys2Proof.Machine.execFceq d a b w u x y s
  | .fcne d a b w u x y => Sys2Proof.Machine.execFcne d a b w u x y s
  | .fclt d a b w u x y => Sys2Proof.Machine.execFclt d a b w u x y s
  | .fcle d a b w u x y => Sys2Proof.Machine.execFcle d a b w u x y s
  | .fcun d a b w u x y => Sys2Proof.Machine.execFcun d a b w u x y s
  | .fclass d a w u x => Sys2Proof.Machine.execFclass d a w u x s
  | .frcp d a w u x => Sys2Proof.Machine.execFrcp d a w u x s
  | .frsq d a w u x => Sys2Proof.Machine.execFrsq d a w u x s
  | .fsqrt d a w u x => Sys2Proof.Machine.execFsqrt d a w u x s
  | .fdiv d a b w u x y => Sys2Proof.Machine.execFdiv d a b w u x y s
  | .fexp2 d a w u x => Sys2Proof.Machine.execFexp2 d a w u x s
  | .flog2 d a w u x => Sys2Proof.Machine.execFlog2 d a w u x s
  | .fsin d a w u x => Sys2Proof.Machine.execFsin d a w u x s
  | .fcos d a w u x => Sys2Proof.Machine.execFcos d a w u x s
  | .ftanh d a w u x => Sys2Proof.Machine.execFtanh d a w u x s
  | .fsig d a w u x => Sys2Proof.Machine.execFsig d a w u x s
  | .ffrac d a w u x => Sys2Proof.Machine.execFfrac d a w u x s
  | .frnd d a w u x => Sys2Proof.Machine.execFrnd d a w u x s
  | .fscale d a b w u x y => Sys2Proof.Machine.execFscale d a b w u x y s
  | .fcpys d a b w u x y => Sys2Proof.Machine.execFcpys d a b w u x y s
  | .fsat d a w u x => Sys2Proof.Machine.execFsat d a w u x s
  | .flagrd d b w => Sys2Proof.Machine.execFlagrd d b w s
  | .fadde d a b w u x y => Sys2Proof.Machine.execFadde d a b w u x y s
  | .fsube d a b w u x y => Sys2Proof.Machine.execFsube d a b w u x y s
  | .fmule d a b w u x y => Sys2Proof.Machine.execFmule d a b w u x y s
  | .facc d a w u x z => Sys2Proof.Machine.execFacc d a w u x z s
  | .dwadd d a b w u x y => Sys2Proof.Machine.execDwadd d a b w u x y s
  | .dwsub d a b w u x y => Sys2Proof.Machine.execDwsub d a b w u x y s
  | .dwmul d a b w u x y => Sys2Proof.Machine.execDwmul d a b w u x y s
  | .dwaddf d a b w u x y => Sys2Proof.Machine.execDwaddf d a b w u x y s
  | .dwmulf d a b w u x y => Sys2Proof.Machine.execDwmulf d a b w u x y s
  | .dwdiv d a b w u x y => Sys2Proof.Machine.execDwdiv d a b w u x y s
  | .dwsqrt d a w u x => Sys2Proof.Machine.execDwsqrt d a w u x s
  | .dwnorm d a w u x => Sys2Proof.Machine.execDwnorm d a w u x s
  | .dwtof d a w u x => Sys2Proof.Machine.execDwtof d a w u x s
  | .dwclt d a b w u x y => Sys2Proof.Machine.execDwclt d a b w u x y s
  | .dwceq d a b w u x y => Sys2Proof.Machine.execDwceq d a b w u x y s
  | .cvtff d a t u x => Sys2Proof.Machine.execCvtff d a t u x s
  | .cvtfi d a t u x => Sys2Proof.Machine.execCvtfi d a t u x s
  | .cvtif d a t u x => Sys2Proof.Machine.execCvtif d a t u x s
  | .pack d a b u c => Sys2Proof.Machine.execPack d a b u c s
  | .unpk d a u c => Sys2Proof.Machine.execUnpk d a u c s
  | .pack8 d a b u c => Sys2Proof.Machine.execPack8 d a b u c s
  | .unpk8 d a u c => Sys2Proof.Machine.execUnpk8 d a u c s
  | .qnt4 d a b u t => Sys2Proof.Machine.execQnt4 d a b u t s
  | .rand d b w u => Sys2Proof.Machine.execRand d b w u s
  | .randf d w u => Sys2Proof.Machine.execRandf d w u s
  | .catsamp d a b w x => Sys2Proof.Machine.execCatsamp d a b w x s
  | .bararv d b w => Sys2Proof.Machine.execBararv d b w s
  | .shfl d a b w x y => Sys2Proof.Machine.execShfl d a b w x y s
  | .shflx d a b w x => Sys2Proof.Machine.execShflx d a b w x s
  | .shflu d a imm => Sys2Proof.Machine.execShflu d a imm s
  | .shfld d a imm => Sys2Proof.Machine.execShfld d a imm s
  | .bcast d a x l => Sys2Proof.Machine.execBcast d a x l s
  | .voteany d a b w => Sys2Proof.Machine.execVoteany d a b w s
  | .voteall d a b w => Sys2Proof.Machine.execVoteall d a b w s
  | .ballot d a b w => Sys2Proof.Machine.execBallot d a b w s
  | .scanadd d a b w x => Sys2Proof.Machine.execScanadd d a b w x s
  | .scanfadd d a b w x => Sys2Proof.Machine.execScanfadd d a b w x s
  | .redadd d a w x => Sys2Proof.Machine.execRedadd d a w x s
  | .redfadd d a w x => Sys2Proof.Machine.execRedfadd d a w x s
  | .redmin d a b w x => Sys2Proof.Machine.execRedmin d a b w x s
  | .redmax d a b w x => Sys2Proof.Machine.execRedmax d a b w x s
  | .redsumc d a w x => Sys2Proof.Machine.execRedsumc d a w x s
  | .reddotc d a b w x y => Sys2Proof.Machine.execReddotc d a b w x y s
  | .ldb d a u x r => Sys2Proof.Machine.execLdb d a u x r s
  | .ldbs d a u x r => Sys2Proof.Machine.execLdbs d a u x r s
  | .ldh d a u x r => Sys2Proof.Machine.execLdh d a u x r s
  | .ldhs d a u x r => Sys2Proof.Machine.execLdhs d a u x r s
  | .ldw d a u x r => Sys2Proof.Machine.execLdw d a u x r s
  | .ldd d a u x r => Sys2Proof.Machine.execLdd d a u x r s
  | .ldq d a u x r => Sys2Proof.Machine.execLdq d a u x r s
  | .ldln d a x r => Sys2Proof.Machine.execLdln d a x r s
  | .stb d a u x r => Sys2Proof.Machine.execStb d a u x r s
  | .sth d a u x r => Sys2Proof.Machine.execSth d a u x r s
  | .stw d a u x r => Sys2Proof.Machine.execStw d a u x r s
  | .std d a u x r => Sys2Proof.Machine.execStd d a u x r s
  | .stq d a u x r => Sys2Proof.Machine.execStq d a u x r s
  | .pref a u x r => Sys2Proof.Machine.execPref a u x r s
  | .fence r => Sys2Proof.Machine.execFence r s
  | .cflush a b l x => Sys2Proof.Machine.execCflush a b l x s
  | .cinv a b l x => Sys2Proof.Machine.execCinv a b l x s
  | .atadd d a b u v z r => Sys2Proof.Machine.execAtadd d a b u v z r s
  | .atmin d a b u v z r => Sys2Proof.Machine.execAtmin d a b u v z r s
  | .atmax d a b u v z r => Sys2Proof.Machine.execAtmax d a b u v z r s
  | .atand d a b u v z r => Sys2Proof.Machine.execAtand d a b u v z r s
  | .ator d a b u v z r => Sys2Proof.Machine.execAtor d a b u v z r s
  | .atxor d a b u v z r => Sys2Proof.Machine.execAtxor d a b u v z r s
  | .atxchg d a b u v z r => Sys2Proof.Machine.execAtxchg d a b u v z r s
  | .atcas d a b u v z r => Sys2Proof.Machine.execAtcas d a b u v z r s
  | .atfadd d a b u v z r => Sys2Proof.Machine.execAtfadd d a b u v z r s
  | .atpadd d a b u v z r => Sys2Proof.Machine.execAtpadd d a b u v z r s
  | .atinc d a b u v z r => Sys2Proof.Machine.execAtinc d a b u v z r s
  | .bkadd a b t => Sys2Proof.Machine.execBkadd a b t s
  | .bkred a b t => Sys2Proof.Machine.execBkred a b t s
  | .bkset d a b => Sys2Proof.Machine.execBkset d a b s
  | .bkscal d a b => Sys2Proof.Machine.execBkscal d a b s
  | .cpya d a b e k => Sys2Proof.Machine.execCpya d a b e k s
  | .cpyg d a b l => Sys2Proof.Machine.execCpyg d a b l s
  | .batch d w => Sys2Proof.Machine.execBatch d w s
  | .waitbat a imm => Sys2Proof.Machine.execWaitbat a imm s
  | .waitbatAll => Sys2Proof.Machine.execWaitbatAll s
  | .febset a w => Sys2Proof.Machine.execFebset a w s
  | .febsetPut a w => Sys2Proof.Machine.execFebsetPut a w s
  | .febclr a w => Sys2Proof.Machine.execFebclr a w s
  | .febwait a b w => Sys2Proof.Machine.execFebwait a b w s
  | .febwe a w => Sys2Proof.Machine.execFebwe a w s
  | .gang a w => Sys2Proof.Machine.execGang a w s
  | .mma a b e => Sys2Proof.Machine.execMma a b e s
  | .mmasp a b e => Sys2Proof.Machine.execMmasp a b e s
  | .mmaz a b e => Sys2Proof.Machine.execMmaz a b e s
  | .drain a => Sys2Proof.Machine.execDrain a s
  | .drainReg d a => Sys2Proof.Machine.execDrainReg d a s
  | .mmwait w => Sys2Proof.Machine.execMmwait w s
  | .tld d a b q imm c => Sys2Proof.Machine.execTld d a b q imm c s
  | .tst d a b q imm c => Sys2Proof.Machine.execTst d a b q imm c s
  | .torg d a b => Sys2Proof.Machine.execTorg d a b s
  | .tzero d w => Sys2Proof.Machine.execTzero d w s
  | .tzeroAll w => Sys2Proof.Machine.execTzeroAll w s
  | .bmcast d a b => Sys2Proof.Machine.execBmcast d a b s
  | .engq d a e => Sys2Proof.Machine.execEngq d a e s
  | .fwait d a w => Sys2Proof.Machine.execFwait d a w s
  | .ftest d a w => Sys2Proof.Machine.execFtest d a w s
  | .fcancel a w => Sys2Proof.Machine.execFcancel a w s
  | .fres d a w => Sys2Proof.Machine.execFres d a w s
  | .spawn d a w => Sys2Proof.Machine.execSpawn d a w s
  | .cwait w => Sys2Proof.Machine.execCwait w s
  | .cwaitTask a w => Sys2Proof.Machine.execCwaitTask a w s
  | .cancel a w => Sys2Proof.Machine.execCancel a w s
  | .qalloc d u imm => Sys2Proof.Machine.execQalloc d u imm s
  | .qfree a u imm => Sys2Proof.Machine.execQfree a u imm s
  | .qfreel d a imm => Sys2Proof.Machine.execQfreel d a imm s
  | .mfill d a b => Sys2Proof.Machine.execMfill d a b s
  | .mflush a => Sys2Proof.Machine.execMflush a s
  | .dlarm a b w => Sys2Proof.Machine.execDlarm a b w s
  | .dlrd d w => Sys2Proof.Machine.execDlrd d w s
  | .ttboard d imm => Sys2Proof.Machine.execTtboard d imm s
  | .ttalight a => Sys2Proof.Machine.execTtalight a s
  | .ttread d a h q => Sys2Proof.Machine.execTtread d a h q s
  | .ttcas d a b r q w => Sys2Proof.Machine.execTtcas d a b r q w s
  | .ttmax a b r q => Sys2Proof.Machine.execTtmax a b r q s
  | .ttadd d a b c r q w => Sys2Proof.Machine.execTtadd d a b c r q w s
  | .ttwait a => Sys2Proof.Machine.execTtwait a s
  | .vpush d a n => Sys2Proof.Machine.execVpush d a n s
  | .vpop d b n => Sys2Proof.Machine.execVpop d b n s
  | .vcount d b w => Sys2Proof.Machine.execVcount d b w s
  | .mbpost a b n => Sys2Proof.Machine.execMbpost a b n s
  | .mbtake d b n => Sys2Proof.Machine.execMbtake d b n s
  | .bar c => Sys2Proof.Machine.execBar c s
  | .barWait a c => Sys2Proof.Machine.execBarWait a c s
  | .mark g imm => Sys2Proof.Machine.execMark g imm s
  | .launchDoorbell p q v => Sys2Proof.Machine.execLaunchDoorbell p q v s
  | .launchEntryRead p q => Sys2Proof.Machine.execLaunchEntryRead p q s
  | .dispatch => Sys2Proof.Machine.execDispatch s
  | .taskAgeing p id => Sys2Proof.Machine.execTaskAgeing p id s
  | .timeSliceEnd p => Sys2Proof.Machine.execTimeSliceEnd p s
  | .drainOverrun team => Sys2Proof.Machine.execDrainOverrun team s
  | .teamSave team => Sys2Proof.Machine.execTeamSave team s
  | .teamRestore team => Sys2Proof.Machine.execTeamRestore team s
  | .dependenceUnitEnter p => Sys2Proof.Machine.execDependenceUnitEnter p s
  | .taskComplete p id => Sys2Proof.Machine.execTaskComplete p id s
  | .versionEarlyCommit p id => Sys2Proof.Machine.execVersionEarlyCommit p id s
  | .mouldConsumerLaunch p m => Sys2Proof.Machine.execMouldConsumerLaunch p m s
  | .poolEnable p n => Sys2Proof.Machine.execPoolEnable p n s
  | .poolDisable p n => Sys2Proof.Machine.execPoolDisable p n s
  | .mouldEnable p n => Sys2Proof.Machine.execMouldEnable p n s
  | .mouldDisable p n => Sys2Proof.Machine.execMouldDisable p n s
  | .deadlineExpiry p => Sys2Proof.Machine.execDeadlineExpiry p s
  | .atctlFire p => Sys2Proof.Machine.execAtctlFire p s
  | .dltrigRise => Sys2Proof.Machine.execDltrigRise s
  | .unveilCancel p => Sys2Proof.Machine.execUnveilCancel p s
  | .unveilCapture p => Sys2Proof.Machine.execUnveilCapture p s
  | .faultQueueRecord p => Sys2Proof.Machine.execFaultQueueRecord p s
  | .faultReplay p seq => Sys2Proof.Machine.execFaultReplay p seq s
  | .faultDeliver p seq => Sys2Proof.Machine.execFaultDeliver p seq s
  | .faultKill p seq => Sys2Proof.Machine.execFaultKill p seq s
  | .tlbInvalidateAddress p => Sys2Proof.Machine.execTlbInvalidateAddress p s
  | .tlbInvalidateAll p => Sys2Proof.Machine.execTlbInvalidateAll p s
  | .scanCommit p => Sys2Proof.Machine.execScanCommit p s
  | .scanDiscard p => Sys2Proof.Machine.execScanDiscard p s
  | .channelReset who id => Sys2Proof.Machine.execChannelReset who id s
  | .gateRequest who r => Sys2Proof.Machine.execGateRequest who r s
  | .gatePreemptRequest who r => Sys2Proof.Machine.execGatePreemptRequest who r s
  | .gateLift who r => Sys2Proof.Machine.execGateLift who r s
  | .gateClose r => Sys2Proof.Machine.execGateClose r s
  | .gateOpen r => Sys2Proof.Machine.execGateOpen r s
  | .coreDisable mask => Sys2Proof.Machine.execCoreDisable mask s
  | .scanRotation => Sys2Proof.Machine.execScanRotation s
  | .scanComplete pass => Sys2Proof.Machine.execScanComplete pass s
  | .patrolRowRead ch => Sys2Proof.Machine.execPatrolRowRead ch s
  | .auditSample => Sys2Proof.Machine.execAuditSample s
  | .probeSend g => Sys2Proof.Machine.execProbeSend g s
  | .probeReceive => Sys2Proof.Machine.execProbeReceive s
  | .reportWrite p => Sys2Proof.Machine.execReportWrite p s
  | .governorInterval power => Sys2Proof.Machine.execGovernorInterval power s
  | .samplerEnable who tile v => Sys2Proof.Machine.execSamplerEnable who tile v s
  | .sample tile => Sys2Proof.Machine.execSample tile s
  | .traceFilter p => Sys2Proof.Machine.execTraceFilter p s
  | .haltRecordWrite p => Sys2Proof.Machine.execHaltRecordWrite p s
  | .filterLoad who p v => Sys2Proof.Machine.execFilterLoad who p v s
  | .caliperStart p => Sys2Proof.Machine.execCaliperStart p s
  | .caliperStop p => Sys2Proof.Machine.execCaliperStop p s
  | .caliperEnd p => Sys2Proof.Machine.execCaliperEnd p s
  | .holdPath who p v => Sys2Proof.Machine.execHoldPath who p v s
  | .releasePath who p v => Sys2Proof.Machine.execReleasePath who p v s
  | .holdGroup who p v => Sys2Proof.Machine.execHoldGroup who p v s
  | .releaseGroup who p v => Sys2Proof.Machine.execReleaseGroup who p v s
  | .debugStep who p v => Sys2Proof.Machine.execDebugStep who p v s
  | .holdTakesEffect g e => Sys2Proof.Machine.execHoldTakesEffect g e s
  | .freeze p on => Sys2Proof.Machine.execFreeze p on s
  | .debugPortRead loc n => Sys2Proof.Machine.execDebugPortRead loc n s
  | .writeBufferDrain team line => Sys2Proof.Machine.execWriteBufferDrain team line s
  | .copyComplete c => Sys2Proof.Machine.execCopyComplete c s
  | .matrixOperation team => Sys2Proof.Machine.execMatrixOperation team s
  | .turntablePerform st => Sys2Proof.Machine.execTurntablePerform st s
  | .revolution slot => Sys2Proof.Machine.execRevolution slot s
  | .fifoEntryLand tile => Sys2Proof.Machine.execFifoEntryLand tile s
  | .permitReturn tile => Sys2Proof.Machine.execPermitReturn tile s
  | .flitArrival r => Sys2Proof.Machine.execFlitArrival r s
  | .reassemblyGrant rx => Sys2Proof.Machine.execReassemblyGrant rx s
  | .mailboxGrant id => Sys2Proof.Machine.execMailboxGrant id s
  | .chainJob e p => Sys2Proof.Machine.execChainJob e p s
  | .chainLoop e p => Sys2Proof.Machine.execChainLoop e p s
  | .chainCond e p => Sys2Proof.Machine.execChainCond e p s
  | .chainLink e p => Sys2Proof.Machine.execChainLink e p s
  | .chainEnd e p => Sys2Proof.Machine.execChainEnd e p s
  | .engineJobComplete e => Sys2Proof.Machine.execEngineJobComplete e s
  | .voxel e => Sys2Proof.Machine.execVoxel e s
  | .rulebook e => Sys2Proof.Machine.execRulebook e s
  | .coord e => Sys2Proof.Machine.execCoord e s
  | .convertCompress e => Sys2Proof.Machine.execConvertCompress e s
  | .convertExpand e => Sys2Proof.Machine.execConvertExpand e s
  | .collidePoint e => Sys2Proof.Machine.execCollidePoint e s
  | .collideSegment e => Sys2Proof.Machine.execCollideSegment e s
  | .collideSphere e => Sys2Proof.Machine.execCollideSphere e s
  | .collideSweep e => Sys2Proof.Machine.execCollideSweep e s
  | .dynStep e => Sys2Proof.Machine.execDynStep e s
  | .partCreate p => Sys2Proof.Machine.execPartCreate p s
  | .partDestroy p => Sys2Proof.Machine.execPartDestroy p s
  | .partStart p => Sys2Proof.Machine.execPartStart p s
  | .partStop p => Sys2Proof.Machine.execPartStop p s
  | .lockedRegisterWrite p n v => Sys2Proof.Machine.execLockedRegisterWrite p n v s
  | .hostRegisterWrite off v => Sys2Proof.Machine.execHostRegisterWrite off v s
  | .getVersion sess => Sys2Proof.Machine.execGetVersion sess s
  | .getCapabilities sess => Sys2Proof.Machine.execGetCapabilities sess s
  | .negotiateAlgorithms sess ok => Sys2Proof.Machine.execNegotiateAlgorithms sess ok s
  | .getDigests sess => Sys2Proof.Machine.execGetDigests sess s
  | .getCertificate sess slot => Sys2Proof.Machine.execGetCertificate sess slot s
  | .spdmChallenge sess slot => Sys2Proof.Machine.execSpdmChallenge sess slot s
  | .getMeasurements sess idx => Sys2Proof.Machine.execGetMeasurements sess idx s
  | .keyExchange sess => Sys2Proof.Machine.execKeyExchange sess s
  | .spdmFinish sess ok => Sys2Proof.Machine.execSpdmFinish sess ok s
  | .spdmHeartbeat sess => Sys2Proof.Machine.execSpdmHeartbeat sess s
  | .keyUpdate sess ok => Sys2Proof.Machine.execKeyUpdate sess ok s
  | .endSession sess => Sys2Proof.Machine.execEndSession sess s
  | .getTdispVersion sess vf => Sys2Proof.Machine.execGetTdispVersion sess vf s
  | .getTdispCapabilities sess vf => Sys2Proof.Machine.execGetTdispCapabilities sess vf s
  | .lockInterfaceRequest sess vf => Sys2Proof.Machine.execLockInterfaceRequest sess vf s
  | .getDeviceInterfaceReport sess vf => Sys2Proof.Machine.execGetDeviceInterfaceReport sess vf s
  | .getDeviceInterfaceState sess vf => Sys2Proof.Machine.execGetDeviceInterfaceState sess vf s
  | .startInterfaceRequest sess vf => Sys2Proof.Machine.execStartInterfaceRequest sess vf s
  | .stopInterfaceRequest sess vf => Sys2Proof.Machine.execStopInterfaceRequest sess vf s
  | .keyProg sess vf => Sys2Proof.Machine.execKeyProg sess vf s
  | .kSetGo sess vf => Sys2Proof.Machine.execKSetGo sess vf s
  | .kSetStop sess vf => Sys2Proof.Machine.execKSetStop sess vf s
  | .ideStreamInsecure vf => Sys2Proof.Machine.execIdeStreamInsecure vf s
  | .boardRelayObject ch msg => Sys2Proof.Machine.execBoardRelayObject ch msg s
  | .keyEstablish p => Sys2Proof.Machine.execKeyEstablish p s
  | .keyClear p => Sys2Proof.Machine.execKeyClear p s
  | .boardResponse p code key => Sys2Proof.Machine.execBoardResponse p code key s
  | .powerOnReset ok => Sys2Proof.Machine.execPowerOnReset ok s
  | .bootImageWrite image verified derived trained failing => Sys2Proof.Machine.execBootImageWrite image verified derived trained failing s
  | .linkTraining ok => Sys2Proof.Machine.execLinkTraining ok s
  | .perstAssert => Sys2Proof.Machine.execPerstAssert s
  | .hotReset => Sys2Proof.Machine.execHotReset s
  | .linkDown => Sys2Proof.Machine.execLinkDown s
  | .illegalInstruction word => Sys2Proof.Machine.execIllegalInstruction word s
  | .illFormedWord word => Sys2Proof.Machine.execIllFormedWord word s
  | .fetchFault => Sys2Proof.Machine.execFetchFault s
  | .softError kind tile addr double => Sys2Proof.Machine.execSoftError kind tile addr double s
  | .hostAccess write addr bytes => Sys2Proof.Machine.execHostAccess write addr bytes s
  | .eviction p => Sys2Proof.Machine.execEviction p s
  | .doeDiscovery idx => Sys2Proof.Machine.execDoeDiscovery idx s
  | .pointMoveComplete => Sys2Proof.Machine.execPointMoveComplete s

end Sys2Proof.Machine
end

