-- ==== Sys2Proof/Machine/Offers.lean ====
section
/-! DEFINITION. What happens next: the events that are due, the events that a unit may perform now, and the passing of a cycle. The order
among the possible ones is open (log entry 3). -/

namespace Sys2Proof.Machine

/-! ### The passing of a cycle (R9, R282, R387) -/

/-- Plinth cycles of a reference period at an operating point (R9, R401). -/
def periodCycles (point : Nat) : Nat := pointClock point / 100
/-- A reference period passes: armed deadline counters count down (R282). -/
def State.period (s : State) : State :=
  { s with
    refs := s.refs + 1
    refRest := 0
    parts := s.parts.map fun (p : Partition) => if p.armed then { p with remaining := p.remaining - 1 } else p }
/-- A cycle passes. -/
def State.tick (s : State) : State :=
  let s := (s.jobWrites.reviewLists.closeMoulds.noteHeads).patrolBack.holdDisabled
  let s := { s.traffic with now := s.now + 1, routed := [], flits := s.flits.map fun (f : Flit) => { f with moved := false } }
  if periodCycles s.power.point ≤ s.refRest + 1 then s.period else { s with refRest := s.refRest + 1 }

/-! ### Events that are due -/

/-- A line that has stood in a write buffer for its bounded time (R298, R311). -/
noncomputable def State.lateLine (s : State) : Option Instr :=
  s.teams.findSome? fun t => (t.wbuf.find? fun e => decide (e.since + 4096 ≤ s.now)).map fun e => .writeBufferDrain t.id e.line
/-- The deadline and the unveiling (R282, R283). -/
noncomputable def State.deadlineEvent (s : State) : Option Instr :=
  s.existing.findSome? fun p =>
    let q := s.part p
    if q.armed && q.remaining == 0 then some (.deadlineExpiry p)
    else match q.unveiling with
      | none => none
      | some u => if u.step == 1 && q.flushed then some (.unveilCancel p) else if s.captureDue p then some (.unveilCapture p) else none
/-- The Turntable: a slot at station 0, or an operation whose slot passes (R220, R226). -/
noncomputable def State.ringEvent (s : State) : Option Instr :=
  let j := s.passing 0
  if s.revAt ≤ s.now && (look j s.slots).isSome && (s.slot j).owner != 0xF then some (.revolution j)
  else (s.stations.find? fun x => s.ttDue x.1).map fun x => .turntablePerform x.1
/-- A hold that is asked for and takes effect (R419). -/
noncomputable def State.holdEvent (s : State) : Option Instr :=
  s.allGroups.findSome? fun g => (g.entries.find? fun n => s.holdDue g n).map fun n => .holdTakesEffect g.seq n
/-- A stop sequence that can go on (R439). -/
def Partition.stopDue (q : Partition) : Bool :=
  q.stopReady && ((q.tasks.any fun k => !k.gone && !k.dying) || q.tasks.all (·.gone))
/-- What a partition's own clocks and queues make due: records, slices, ageing, trials, a stop (R268, R286, R328, R418, R439). -/
noncomputable def State.partEvent (s : State) : Option Instr :=
  s.existing.findSome? fun p =>
    let q := s.part p
    if q.faults != [] && s.faultDue p then some (.faultQueueRecord p)
    else if q.stopDue then some (.partStop p)
    else if s.sliceOver p then some (.timeSliceEnd p)
    else if s.trialOver p then some (.caliperEnd p)
    else (q.tasks.find? (s.ageDue q)).map fun k => .taskAgeing p k.id
/-- A draining team that has exceeded its estimate, or a group that waits long enough for a probe (R286, R397). -/
noncomputable def State.teamEvent (s : State) : Option Instr :=
  match s.teams.find? s.overrun with
  | some t => some (.drainOverrun t.id)
  | none => (s.allGroups.find? fun g => g.entries.any fun n => s.probeDue g n).map fun g => .probeSend g.seq
/-- Power: gates that close or open, the governor and its moves (R384, R400, R402). -/
noncomputable def State.powerEvent (s : State) : Option Instr :=
  match s.gates.find? fun x => s.gateDue x.1 || (x.2.state == .opening && decide (x.2.since + 200 ≤ s.refs)) with
  | some x => some (if x.2.state = .opening then .gateOpen x.1 else .gateClose x.1)
  | none =>
    if s.governorDue then some (.governorInterval (Config.choice s.free % 0x169))
    else match s.power.moving with
      | some t => if t + 40 ≤ s.refs then some .pointMoveComplete else none
      | none => none
/-- The audit, scan rotation and patrol (R395, R424, R428). -/
noncomputable def State.patrolEvent (s : State) : Option Instr :=
  if s.auditDue then some .auditSample
  else if s.scanDueNow then some .scanRotation
  else ((List.range 16).find? s.patrolDue).map .patrolRowRead
/-- The mesh: a router handles the flits of this cycle (R389). -/
noncomputable def State.meshEvent (s : State) : Option Instr := s.routersDue.head?.map .flitArrival
/-- The event that is due now, if one is: a halt before the deadline, the deadline before a pre-emption (R347). -/
noncomputable def State.due (s : State) : Option Instr :=
  s.lateLine.orElse fun _ => s.holdEvent.orElse fun _ => s.deadlineEvent.orElse fun _ => s.ringEvent.orElse fun _ =>
    s.partEvent.orElse fun _ => s.teamEvent.orElse fun _ => s.powerEvent.orElse fun _ => s.patrolEvent.orElse fun _ => s.meshEvent

/-! ### Events that a unit may perform now -/

/-- An event under a condition. -/
def when (b : Bool) (i : Instr) : List Instr := if b then [i] else []
/-- The event that starts an engine's next job, by its operation (R355). -/
noncomputable def State.jobEvent (s : State) (e : Nat) (c : Chain) : Instr :=
  if e < 2 then
    match c.op with
    | 0 => .voxel e
    | 1 => .rulebook e
    | 2 => .coord e
    | _ => if s.expands c then .convertExpand e else .convertCompress e
  else if e < 4 then
    match c.op with
    | 0 => .collidePoint e
    | 1 => .collideSegment e
    | 2 => .collideSphere e
    | _ => .collideSweep e
  else .dynStep e
/-- The event that reads a chain's next entry, by its kind (R356). -/
noncomputable def State.entryEvent (s : State) (e p : Nat) (c : Chain) : Instr :=
  if c.pos = .faulted then .chainEnd e p else match s.nextEntry c with
  | .error _ => .chainEnd e p
  | .ok bs =>
    match byteAt bs 0 with
    | 1 => .chainJob e p
    | 2 => .chainLoop e p
    | 3 => .chainCond e p
    | 4 => .chainLink e p
    | _ => .chainEnd e p
/-- What the engines may do (R355 to R362). -/
noncomputable def State.engineOffers (s : State) : List Instr :=
  (List.range 5).flatMap fun e =>
    let en := s.engines[e]?.getD {}
    if en.chains = [] then []
    else
      (match s.jobDue e with
        | some c => [s.jobEvent e c]
        | none => []) ++ when (en.chains.any Chain.busy) (.engineJobComplete e)
        ++ (List.range 8).filterMap fun p => (s.readingChain e p).map fun c => s.entryEvent e p c
/-- What may happen to teams: buffered lines, matrix operations, saves and restores (R197, R287, R288, R298). -/
noncomputable def State.teamOffers (s : State) : List Instr :=
  (s.teams.flatMap fun t =>
    (t.wbuf.map fun e => Instr.writeBufferDrain t.id e.line) ++ when (s.matrixTurn t) (.matrixOperation t.id) ++ when (s.saveReady t) (.teamSave t.id))
    ++ (s.saved.filter s.restoreReady).map (fun v => Instr.teamRestore v.team.id)
    ++ (s.copies.filter fun c => !c.waits && !s.copyStalls c).map (fun c => Instr.copyComplete c.id)
/-- What may happen to a partition's tasks, moulds, launch queues and rings. -/
noncomputable def State.partOffers (s : State) : List Instr :=
  s.existing.flatMap fun p =>
    let q := s.part p
    (match q.nextQueue with
      | some k => when (q.state == .run && !q.stopping) (.launchEntryRead p k)
      | none => [])
    ++ when (q.depHold != [] && decide (q.dep.length < 256)) (.dependenceUnitEnter p)
    ++ (q.tasks.filter q.completes).map (fun k => Instr.taskComplete p k.id)
    ++ (q.tasks.filter fun k => s.quotaWaits k && q.oldestVersion k && s.scanned k).map (fun k => Instr.versionEarlyCommit p k.id)
    ++ (q.moulds.filter fun m => s.queueRoom p && m.2.tiles.toList.any (·.held)).map (fun m => Instr.mouldConsumerLaunch p m.1)
    ++ when (q.reports != [] && q.reportRoom) (.reportWrite p) ++ when q.filterDue (.traceFilter p) ++ when (s.haltWritten p).isSome (.haltRecordWrite p)
/-- What may happen on the links, in the mailboxes, the mesh and the receivers (R382, R389, R391, R393). -/
noncomputable def State.linkOffers (s : State) : List Instr :=
  (s.channels.flatMap fun x => when (x.2.link != [] || x.2.stale != 0) (.fifoEntryLand x.1) ++ when (x.2.back != 0 || x.2.staleBack != 0) (.permitReturn x.1))
    ++ (s.mailboxes.filter fun x => x.2.servable).map (fun x => Instr.mailboxGrant x.1)
    ++ (s.receivers.filter fun x => x.2.mayGrant).map fun x => Instr.reassemblyGrant x.1
/-- Whether the Atelier has a cluster to dispatch (R267). -/
def State.dispatchDue (s : State) : Bool := decide (s.dispatchAt ≤ s.now) && s.visits.any fun p => (s.offer p).isSome
/-- What may happen to the device as a whole. -/
noncomputable def State.deviceOffers (s : State) : List Instr :=
  when s.dispatchDue .dispatch
    ++ (if s.scanRuns then [.scanComplete true, .scanComplete false] else [])
    ++ when (s.probes != []) .probeReceive
    ++ (s.gates.filter fun x => x.2.state == .opening).map (fun x => Instr.gateOpen x.1)
    ++ when s.power.moving.isSome .pointMoveComplete
/-- Everything that a unit may do now. -/
noncomputable def State.offers (s : State) : List Instr := s.deviceOffers ++ s.partOffers ++ s.teamOffers ++ s.engineOffers ++ s.linkOffers

/-! ### The choice -/

/-- One thing that can happen. -/
inductive Move where
  | event (i : Instr)
  | input (i : Instr)
  | issue (seq path : Nat)
  | tick

/-- What ends a cycle in which nothing can issue any more: the samples that are due, then the cycle itself. -/
noncomputable def State.cycleEnd (s : State) : Move :=
  match s.samplers.find? fun x => s.sampleDue x.1 with
  | some x => .event (.sample x.1)
  | none => .tick
/-- What can happen when nothing is due. -/
noncomputable def State.moves (s : State) : List Move :=
  (s.inputs.take 1).map Move.input ++ s.offers.map Move.event
    ++ (match s.issues with
      | [] => [s.cycleEnd]
      | is => is.map fun x => Move.issue x.1 x.2)
/-- What happens next: a sole candidate, or a free choice among them. -/
noncomputable def State.next (s : State) : Move :=
  match s.due with
  | some i => .event i
  | none => match s.moves with
    | [m] => m
    | ms => (ms[Config.choice s.free % ms.length]?).getD .tick

/-! ### Issue (R39, R333, R336, R343) -/

/-- The fetch of a word: the word at a paged address that its page lets be fetched. -/
def State.fetchWord (s : State) (va : Nat) : Except Refuse Word :=
  let ag := s.groupAgent s.me
  match s.refusal ag .fetch va 4 0 with
  | some r => .error r
  | none => .ok (BitVec.ofNat 32 (leNat ((s.places ag .fetch va 4).flatMap fun (p, n) => s.readBytes ag p n)))
/-- The address of the word after a path's. -/
def State.nextWord (s : State) : Nat := (pc56 (s.pc + 4)).toNat
/-- The instruction a path issues, and its first word: FETCH_FAULT where a word cannot be fetched or is uncorrectable. -/
noncomputable def State.fetch (s : State) : Instr × Word :=
  if s.badFetch s.pc.toNat then (.fetchFault, 0)
  else match s.fetchWord s.pc.toNat with
    | .error _ => (.fetchFault, 0)
    | .ok w =>
      if takesLiteral w then
        if s.badFetch s.nextWord then (.fetchFault, w)
        else match s.fetchWord s.nextWord with
          | .error _ => (.fetchFault, w)
          | .ok l => (decodeNat w.toNat l.toNat, w)
      else (decodeNat w.toNat 0, w)
/-- The pages an issue takes its words from: the TLBs take in their translations (R337). -/
def State.fetchPages (s : State) (w : Word) : List Nat :=
  if takesLiteral w && s.nextWord / 2 ^ 14 != s.pc.toNat / 2 ^ 14 then [s.pc.toNat, s.nextWord] else [s.pc.toNat]
/-- An issue that meets an uncorrectable word of the group's path table (R343, kind 8). -/
def State.tableError (s : State) : State := s.raise { code := 0x0D, detail := 8, mask := s.exm }

end Sys2Proof.Machine
end

