-- ==== Sys2Proof/Machine/Step.lean ====
section
/-! DEFINITION. One step of the part: an event that is due, else one of the events, inputs and issues that are possible, or the passing of
a cycle; and a state in which an instruction is the next to run. -/

namespace Sys2Proof.Machine

/-- Runs the instruction that a path issues (R39, R241). -/
noncomputable def State.issue (s : State) (seq path : Nat) : Host.Outcome State Fault Refusal :=
  let t := s.checkout seq path
  let f := t.fetch
  let t := t.withMe fun g => { g with ir := f.2 }
  if t.tableStruck then .next t.tableError else s.issued seq (exec f.1 (t.noteTlb (some t.me.tile) t.me.part (t.fetchPages f.2)))
/-- A boot that has halted waits for a power-on reset (R449). -/
def State.halted (s : State) : Bool := bit s.bootst 7
/-- Whether an input is a power-on reset. -/
def isPowerOn (i : Instr) : Bool :=
  match i with
  | .powerOnReset _ => true
  | _ => false
/-- One move. -/
noncomputable def State.take (s : State) (m : Move) : Host.Outcome State Fault Refusal :=
  match m with
  | .event i => exec i s
  | .input i => exec i { s with inputs := s.inputs.drop 1 }
  | .issue seq path => s.issue seq path
  | .tick => .next s.tick
/-- One step. -/
noncomputable def step (s : State) : Host.Outcome State Fault Refusal :=
  let s := { s with free := s.free + 1 }
  if s.halted then
    match s.inputs.dropWhile fun i => !isPowerOn i with
    | [] => .fault .bootHalted
    | i :: is => exec i { s with inputs := is }
  else s.take s.next

/-! ### A state whose next step runs a given instruction -/

/-- Where the given instruction stands: a virtual address that the tables below map to the same device address. -/
def probePc : Nat := 0x20000
/-- The level-0 table, its one entry naming the level-1 table, and that one's leaf: the first 64 GiB, readable, writable, executable. -/
def probeTables : List Host.Cell := [(0x10000, 0x01), (0x10001, 0x40), (0x10002, 0x01), (0x14000, 0x1F)]
/-- A task of one group of 16 lanes that starts at that address. -/
def probeTask : Task :=
  { id := 1, record := { entry := BitVec.ofNat 64 probePc }, status := .running, placed := 1 }
/-- A partition that runs it on core 0. -/
def probePartition : Partition :=
  { state := .run, rects := [{ tile := 0, rows := 1, cols := 1, stacked := false }], regs := [(0x879, 0x10000)], nextId := 2, tasks := [probeTask] }
/-- The state with an instruction's words where the next step fetches: they stand in device memory at the PC of the one resident group, of
a task of partition 0. It stands for the creation of a partition, its start, a launch and a dispatch from outside (R232, R438, R439, R264). -/
def State.withFetchWord (s : State) (_nbits w : Nat) : State :=
  { s with
    me := {}
    groups := [{ newGroup probePartition probeTask 0 0 0 0 0 0 0 0 with clk := s.now }]
    teams := [{ part := 0, task := 1, tiles := [0] }]
    teamNum := 1
    admissions := 1
    parts := s.parts.set 0 probePartition
    dev := Memory.setBytes probeTables probePc (leBytes 8 w)
    inputs := [] }

end Sys2Proof.Machine
end

