-- ==== Sys2Proof/Safety.lean ====
section
/-! DEFINITION. What a safe step is, and the words the statements are made of: what an instruction leaves alone, when nothing keeps it from
its own effect, and what a computing instruction does. -/

namespace Sys2Proof

/-- A step is safe when it answers a next state. -/
def SafeStep (s : Machine.State) : Prop := ∃ t, Machine.step s = .next t

end Sys2Proof

namespace Sys2Proof.Machine

/-! ### What is left alone -/

/-- A team without its count of beats, which every instruction advances (R276), and the mark that it has run on its core. -/
def Team.apart (t : Team) : Team := { t with beats := 0, lastBeat := 0, ran := false }
/-- Everything but the issuing group: memory, partitions with all their registers, other groups, the teams but for their beats, the
Turntable, channels, mailboxes, engines, gates, the device block. (Soft errors in words that a write makes sound are left out.) -/
def State.others (s : State) : State := { s with me := {}, teams := s.teams.map Team.apart, errors := [] }
/-- Everything of a group but its scalar, vector and predicate registers, CM, FPSF, GSTAT and random streams, its path entries with loop
counters and the path numbers recorded by a handler or a region, and its cycle counts: so its mode word, trap registers, copies, seed,
rows limits and place. -/
def Group.special (g : Group) : Group :=
  { g with s := Vector.replicate 64 0, v := Vector.replicate 48 none, p := Vector.replicate 12 0, cm := 0, fpsf := 0, gstat := 0,
           gapNew := false, laneCtr := Vector.replicate 64 0, scalarCtr := 0, maxHeld := 0,
           paths := Vector.replicate 72 none, cur := 0, spills := 0, loops := Vector.replicate 3 {}, handler := none, region := none,
           clk := 0, fetchUntil := 0, stallUntil := 0, busyFrom := 0, busyTo := 0, busyPath := 0, busyPc := 0, turn := false,
           yielded := false, rowWait := false, rowWant := ([], []), last := 0, pending := [], busyExm := 0, refilled := 0, spillsRead := [], lines := 0 }
/-- Every byte reads, at its point of coherence, as it did before (R299). -/
def State.sameMemory (s t : State) : Prop := ∀ ag p, t.readByte ag p = s.readByte ag p
/-- The issuing path goes on at an address, where that is not its join PC and no path is spilled (R79, R85, R244). -/
def State.goesTo (s t : State) (a : DWord) : Prop :=
  (∀ n, 8 ≤ n → s.me.path? n = none) → (∃ p, s.me.path? s.me.cur = some p ∧ p.join ≠ some (pc56 a)) →
    t.me.cur = s.me.cur ∧ t.pc = pc56 a

/-! ### When an instruction has its own effect (R39) -/

/-- Nothing that R39 puts before an instruction's own effect keeps it from that effect: no source still waits for its stall count while the
checking scoreboard is on, no source name without a row traps, no source word, nor the rename entry of one, is uncorrectable. -/
def State.clear (s : State) (once : Bool) (uses : List Use) : Bool :=
  let us := if once then uses else .exm :: uses
  !(modeCHK s.me.mode && us.any s.hazard) && !(s.unmapped us s.active && modeNAMETRAP s.me.mode) && !s.mapStruck us && s.struckLanes us s.active == 0
/-- The state in which an instruction has its effect: UNMAPPED is set where it reads a name without a row (R251). -/
def State.seen (s : State) (uses : List Use) : State :=
  if s.unmapped uses s.active then s.withMe fun g => { g with gstat := g.gstat ||| 1, gapNew := !bit g.gstat 0 } else s

/-! ### A computing instruction -/

/-- What the registers and everything else hold after an instruction that computes: `S`, `V`, `P` give the scalar, vector and predicate
registers, `cm` CM, `fl` the flags raised, `next` the address that follows; `streams` says how the random streams stand (R152). -/
structure Computed (s t : State) (S : Nat → Word) (V : Nat → Nat → Word) (P : Nat → LaneMask) (cm : DWord) (fl : Nat) (uses : List Use)
    (next : DWord) (streams : Vector Word 64 × Word := (s.me.laneCtr, s.me.scalarCtr)) : Prop where
  scalars : ∀ n, t.me.sreg n = S n
  vectors : ∀ n k, t.me.vlane n k = V n k
  preds : ∀ n, t.me.preg n = P n
  cm : t.me.cm = cm
  flags : t.me.fpsf = s.me.fpsf ||| BitVec.ofNat 32 fl
  gaps : t.me.gstat = (s.seen uses).me.gstat
  streams : (t.me.laneCtr, t.me.scalarCtr) = streams
  special : t.me.special = s.me.special
  others : t.others = s.others
  memory : s.sameMemory t
  goes : s.goesTo t next

/-- The scalar registers with some destinations written. -/
def State.scalarsWith (s : State) (dests : List Nat) (ws : List Word) (n : Nat) : Word :=
  if n ∈ dests then ws.getD (dests.idxOf n) 0 else s.me.sreg n
/-- The vector registers with some destinations written in the active lanes; a source that is read for the last time loses its row, and a
name without a row reads zero (R36, R250, R251). -/
def State.vectorsWith (s : State) (dests marks : List Nat) (f : Nat → List Word) (n k : Nat) : Word :=
  if n ∈ dests then (if s.active.getLsbD k then (f k).getD (dests.idxOf n) 0 else s.me.vlane n k)
  else if n ∈ s.marks marks then 0 else s.me.vlane n k

/-- The counters of the random streams after an instruction that draws in its active lanes, or from the scalar stream (R152, R153). -/
def State.streamsAfter (s : State) (draws u : Bool) : Vector Word 64 × Word :=
  if draws then
    if u then (s.me.laneCtr, s.me.scalarCtr + 1)
    else (Vector.ofFn fun k : Fin 64 => if s.active.getLsbD k then s.me.laneCtr[k] + 1 else s.me.laneCtr[k], s.me.scalarCtr)
  else (s.me.laneCtr, s.me.scalarCtr)
/-- Results, flags and completion of an instruction with register results, in both its forms: in the uniform form lane 64 stands for the group. -/
def Computes (i : Instr) (s : State) (u : Bool) (legal : Bool) (uses : List Use) (dests marks : List Nat) (size : Nat)
    (f : Nat → List Word × Nat) (draws : Bool := false) : Prop :=
  legal = true → s.clear u uses = true →
    if u then
      s.enabledFlags (f 64).2 = 0 →
        ∃ t, exec i s = .next t ∧ Computed s t (s.scalarsWith dests (f 64).1) s.me.vlane s.me.preg s.me.cm (f 64).2 uses (s.pc + BitVec.ofNat 64 size)
          (s.streamsAfter draws u)
    else
      State.rowsFor (s.marks marks) dests s = true → s.enabledFlags (orFlags (perLane s.active (fun k => (f k).2) 0)) = 0 →
        ∃ t, exec i s = .next t ∧ Computed s t s.me.sreg (s.vectorsWith dests marks fun k => (f k).1) s.me.preg s.me.cm
          (orFlags (perLane s.active (fun k => (f k).2) 0)) (.exm :: uses) (s.pc + BitVec.ofNat 64 size) (s.streamsAfter draws u)

/-! ### Forms of computing instructions -/

/-- d := f(a), for every operand the form admits; `f` gets the state, the form, the lane and the word of a. -/
def UnaryForm (mk : BitVec 6 → BitVec 6 → BitVec 2 → Bool → Bool → Instr) (ok : State → Bool) (f : State → Bool → Nat → Word → Word × Nat) (draws : State → Bool := fun _ => false) : Prop :=
  ∀ s d a w u x, Computes (mk d a w u x) s u (rd u d && Sys2Proof.rs u a && kx u x && ok s) [(srcA u a).use] [d.toNat] (markA u x a) 4
    (fun k => ([(f s u k (s.word (srcA u a) k)).1], (f s u k (s.word (srcA u a) k)).2)) (draws s)
/-- d := f(a, b). -/
def BinaryForm (mk : BitVec 6 → BitVec 6 → BitVec 6 → BitVec 2 → Bool → Bool → Bool → Instr) (ok : State → Bool)
    (f : State → Bool → Nat → Word → Word → Word × Nat) (draws : State → Bool := fun _ => false) : Prop :=
  ∀ s d a b w u x y, Computes (mk d a b w u x y) s u (rd u d && Sys2Proof.rs u a && kx u x && kx u y && ok s) [(srcA u a).use, (srcB u b).use] [d.toNat]
    (markA u x a ++ markB u y b) 4
    (fun k => ([(f s u k (s.word (srcA u a) k) (s.word (srcB u b) k)).1], (f s u k (s.word (srcA u a) k) (s.word (srcB u b) k)).2)) (draws s)
/-- d := f(a, b, old d). -/
def TernaryForm (mk : BitVec 6 → BitVec 6 → BitVec 6 → BitVec 2 → Bool → Bool → Bool → Bool → Instr) (ok : State → Bool)
    (f : State → Bool → Nat → Word → Word → Word → Word × Nat) (draws : State → Bool := fun _ => false) : Prop :=
  ∀ s d a b w u x y z, Computes (mk d a b w u x y z) s u (rd u d && Sys2Proof.rs u a && kx u x && kx u y && kx u z && ok s)
    [(srcA u a).use, (srcB u b).use, (srcA u d).use] [d.toNat] (markA u x a ++ markB u y b ++ markD u z d) 4
    (fun k => ([(f s u k (s.word (srcA u a) k) (s.word (srcB u b) k) (s.word (srcA u d) k)).1],
      (f s u k (s.word (srcA u a) k) (s.word (srcB u b) k) (s.word (srcA u d) k)).2)) (draws s)
/-- d := f(a, imm11), without marks or flags (R116). -/
def ImmediateForm (mk : BitVec 6 → BitVec 6 → Bool → BitVec 11 → Instr) (ok : BitVec 11 → Bool) (f : BitVec 11 → Word → Word) : Prop :=
  ∀ s d a u i, Computes (mk d a u i) s u (rd u d && Sys2Proof.rs u a && ok i) [(srcA u a).use] [d.toNat] [] 4 fun k => ([f i (s.word (srcA u a) k)], 0)
/-- Pair := f(pair a, pair b), as FP32 values (R142, R143). -/
def PairForm (mk : BitVec 6 → BitVec 6 → BitVec 6 → BitVec 2 → Bool → Bool → Bool → Instr) (f : Fp → Fp → Fp → Fp → List Word × Nat) : Prop :=
  ∀ s d a b w u x y, Computes (mk d a b w u x y) s u (pr u d && pr u a && pr u b && kx u x && kx u y) (pairUse u a ++ pairUse u b) [d.toNat, d.toNat + 1]
    (markPair u x a ++ markPair u y b) 4
    fun k => f (s.fval (srcA u a) k) (s.fval ((srcA u a).plus 1) k) (s.fval (srcA u b) k) (s.fval ((srcA u b).plus 1) k)
/-- Pair := f(pair a, b). -/
def PairWordForm (mk : BitVec 6 → BitVec 6 → BitVec 6 → BitVec 2 → Bool → Bool → Bool → Instr) (f : Fp → Fp → Fp → List Word × Nat) : Prop :=
  ∀ s d a b w u x y, Computes (mk d a b w u x y) s u (pr u d && pr u a && kx u x && kx u y) (pairUse u a ++ [(srcB u b).use]) [d.toNat, d.toNat + 1]
    (markPair u x a ++ markB u y b) 4 fun k => f (s.fval (srcA u a) k) (s.fval ((srcA u a).plus 1) k) (s.fval (srcB u b) k)
/-- Pair := f(pair a). -/
def PairUnaryForm (mk : BitVec 6 → BitVec 6 → BitVec 2 → Bool → Bool → Instr) (f : Fp → Fp → List Word × Nat) : Prop :=
  ∀ s d a w u x, Computes (mk d a w u x) s u (pr u d && pr u a && kx u x) (pairUse u a) [d.toNat, d.toNat + 1] (markPair u x a) 4
    fun k => f (s.fval (srcA u a) k) (s.fval ((srcA u a).plus 1) k)
/-- Pair := pair a combined with the extended word of b (R117). -/
def AddressForm (i : Instr) (s : State) (d a b : BitVec 6) (u x y : Bool) (f : DWord → Word → DWord) : Prop :=
  Computes i s u (pr u d && pr u a && kx u x && kx u y) (pairUse u a ++ [(srcB u b).use]) [d.toNat, d.toNat + 1] (markPair u x a ++ markB u y b) 4
    fun k => ([lo32 (f (s.dword (srcA u a) k) (s.word (srcB u b) k)), hi32 (f (s.dword (srcA u a) k) (s.word (srcB u b) k))], 0)

/-! ### Compares (R118, R119, R129) -/

/-- The predicates with a pair written in the active lanes: the condition and its complement. -/
def State.predsWith (s : State) (d : Nat) (f : Nat → Bool) (n : Nat) : LaneMask :=
  let yes := maskOf fun k => s.active.getLsbD k && f k
  if n = 2 * d + 1 then (s.me.preg n &&& ~~~s.active) ||| (~~~yes &&& s.active)
  else if n = 2 * d then (s.me.preg n &&& ~~~s.active) ||| (yes &&& s.active)
  else s.me.preg n
/-- CM with one bit written. -/
def State.cmWith (s : State) (d : Nat) (b : Bool) : DWord := setBits s.me.cm d 1 (if b then 1 else 0)
/-- The vector registers after sources read for the last time have lost their rows. -/
def State.vectorsLess (s : State) (marks : List Nat) (n k : Nat) : Word := if n ∈ s.marks marks then 0 else s.me.vlane n k
/-- Condition, flags and completion of a compare, in both its forms. -/
def Decides (i : Instr) (s : State) (u : Bool) (legal : Bool) (uses : List Use) (d : Nat) (marks : List Nat) (f : Nat → Bool × Nat) : Prop :=
  legal = true → s.clear u uses = true →
    if u then
      s.enabledFlags (f 64).2 = 0 →
        ∃ t, exec i s = .next t ∧ Computed s t s.me.sreg s.me.vlane s.me.preg (s.cmWith d (f 64).1) (f 64).2 uses (s.pc + 4)
    else
      s.enabledFlags (orFlags (perLane s.active (fun k => (f k).2) 0)) = 0 →
        ∃ t, exec i s = .next t ∧ Computed s t s.me.sreg (s.vectorsLess marks) (s.predsWith d fun k => (f k).1) s.me.cm
          (orFlags (perLane s.active (fun k => (f k).2) 0)) (.exm :: uses) (s.pc + 4)
/-- Predicate pair or CM bit d := condition of a and b. -/
def CompareForm (mk : BitVec 6 → BitVec 6 → BitVec 6 → BitVec 2 → Bool → Bool → Bool → Instr) (ok : State → Bool) (f : State → Word → Word → Bool × Nat) : Prop :=
  ∀ s d a b w u x y, Decides (mk d a b w u x y) s u (cd u d && Sys2Proof.rs u a && kx u x && kx u y && ok s) [(srcA u a).use, (srcB u b).use] d.toNat
    (markA u x a ++ markB u y b) fun k => f s (s.word (srcA u a) k) (s.word (srcB u b) k)
/-- A float compare: the condition of every element, or of some element (R129). -/
def FloatCompareForm (mk : BitVec 6 → BitVec 6 → BitVec 6 → BitVec 2 → Bool → Bool → Bool → Instr) (every : Bool) (f : Fp → Fp → Bool × Nat) : Prop :=
  CompareForm mk State.floatET fun s p q =>
    let t := etFmt s.me.mode
    let rs := (List.range (32 / t.width)).map fun k =>
      f (t.unpack (modeFTZ s.me.mode) (bits p (t.width * k) t.width)) (t.unpack (modeFTZ s.me.mode) (bits q (t.width * k) t.width))
    (if every then rs.all (·.1) else rs.any (·.1), orFlags (rs.map (·.2)))
/-- The same with imm11. -/
def CompareImmediateForm (mk : BitVec 6 → BitVec 6 → Bool → BitVec 11 → Instr) (f : BitVec 11 → Word → Bool) : Prop :=
  ∀ s d a u i, Decides (mk d a u i) s u (cd u d && Sys2Proof.rs u a) [(srcA u a).use] d.toNat [] fun k => (f i (s.word (srcA u a) k), 0)
/-- The same of two pairs (R143). -/
def ComparePairForm (mk : BitVec 6 → BitVec 6 → BitVec 6 → BitVec 2 → Bool → Bool → Bool → Instr) (f : Fp → Fp → Bool × Nat) : Prop :=
  ∀ s d a b w u x y, Decides (mk d a b w u x y) s u (cd u d && pr u a && pr u b && kx u x && kx u y) (pairUse u a ++ pairUse u b) d.toNat
    (markPair u x a ++ markPair u y b)
    fun k => f (pairValue (s.fval (srcA u a) k) (s.fval ((srcA u a).plus 1) k)) (pairValue (s.fval (srcA u b) k) (s.fval ((srcA u b).plus 1) k))
/-- A predicate operation: lane by lane on predicates, or once on CM bits (R119). -/
def PredicateForm (mk : BitVec 6 → BitVec 6 → BitVec 6 → BitVec 2 → Bool → Instr) (f : Bool → Bool → Bool) : Prop :=
  ∀ s d a b w u, (pd u d && pd u a && pd u b) = true → s.clear u (if u then [.cmBit a.toNat, .cmBit b.toNat] else []) = true →
    if u then ∃ t, exec (mk d a b w u) s = .next t ∧
      Computed s t s.me.sreg s.me.vlane s.me.preg (s.cmWith d.toNat (f (bit s.cmNow a.toNat) (bit s.cmNow b.toNat))) 0 [.cmBit a.toNat, .cmBit b.toNat] (s.pc + 4)
    else ∃ t, exec (mk d a b w u) s = .next t ∧ Computed s t s.me.sreg s.me.vlane
      (fun n => if n = d.toNat then (s.me.preg n &&& ~~~s.active) |||
          ((maskOf fun k => f ((s.me.preg a.toNat).getLsbD k) ((s.me.preg b.toNat).getLsbD k)) &&& s.active) else s.me.preg n) s.me.cm 0 [.exm] (s.pc + 4)

/-! ### Cross-lane instructions (R158 to R165) -/

/-- Results, flags and completion of a reduction: words `ws` in scalar registers, flags `fl`. -/
def Reduces (i : Instr) (s : State) (legal : Bool) (uses : List Use) (dests marks : List Nat) (ws : List Word) (fl : Nat) (draws : Bool := false) : Prop :=
  legal = true → s.clear false uses = true → s.enabledFlags fl = 0 →
    ∃ t, exec i s = .next t ∧ Computed s t (s.scalarsWith dests ws) (s.vectorsLess marks) s.me.preg s.me.cm fl (.exm :: uses) (s.pc + 4)
      (s.streamsAfter draws false)
/-- A shuffle: each active lane takes the word of its source lane, under the edge rule (R159). -/
def Shuffles (i : Instr) (s : State) (legal : Bool) (uses : List Use) (d a : BitVec 6) (marks : List Nat) (from_ : Nat → Int) : Prop :=
  Computes i s false legal (.vw a.toNat :: uses) [d.toNat] marks 4 fun k => ([s.shuffled a.toNat k (from_ k)], 0)
/-- The predicates with a pair written in every active lane: all ones and zeros, or zeros and ones. -/
def State.votesWith (s : State) (d : Nat) (yes : Bool) (n : Nat) : LaneMask :=
  if n = 2 * d + 1 then (if yes then s.me.preg n &&& ~~~s.active else s.me.preg n ||| s.active)
  else if n = 2 * d then (if yes then s.me.preg n ||| s.active else s.me.preg n &&& ~~~s.active)
  else s.me.preg n

/-! ### Control transfer -/

/-- Every register, special register and random stream, all of memory and everything else stand as they were; only the group's paths and
loop counters may have changed. -/
structure Kept (s t : State) : Prop where
  scalars : t.me.s = s.me.s
  vectors : t.me.v = s.me.v
  preds : t.me.p = s.me.p
  cm : t.me.cm = s.me.cm
  fpsf : t.me.fpsf = s.me.fpsf
  gstat : t.me.gstat = s.me.gstat
  laneCtr : t.me.laneCtr = s.me.laneCtr
  scalarCtr : t.me.scalarCtr = s.me.scalarCtr
  special : t.me.special = s.me.special
  others : t.others = s.others
  memory : s.sameMemory t
/-- No path of the issuing group is spilled, and the issuing path exists. -/
def State.unspilled (s : State) : Prop := (∀ n, 8 ≤ n → s.me.path? n = none) ∧ (s.me.path? s.me.cur).isSome = true
/-- The issuing path completes and goes on at an address, where that is not its join PC; nothing else changes. -/
structure Moves (s t : State) (a : DWord) : Prop where
  kept : Kept s t
  goes : s.goesTo t a
/-- A scope has opened: entry `q` holds the given lanes at `start` with its join PC and parent, the issuing path waits at the join PC (R85). -/
structure Opens (s t : State) (q : Nat) (member exm : LaneMask) (kind : ScopeKind) (start join : DWord) : Prop where
  kept : Kept s t
  child : ∃ c, t.me.path? q = some c ∧ c.pc = start ∧ c.member = member ∧ c.exm = exm ∧ c.join = some join ∧ c.parent = some s.me.cur ∧ c.state = .ready
  owner : ∃ o, t.me.path? s.me.cur = some o ∧ o.pc = join ∧ o.state = .joined ∧ o.kind = kind
  rest : ∀ n, n ≠ q → n ≠ s.me.cur → t.me.path? n = (s.me.path? n).map fun p => { p with yields := p.yields.filter (· != s.me.cur) }

/-- Every other path of the scope of owner `j` waits at the join PC (R86). -/
def State.othersWait (s : State) (j : Nat) : Prop :=
  ∀ n ∈ s.me.children j, n ≠ s.me.cur → (s.me.path n).state = .waiting ∧ (s.me.path n).parked = none ∧ (s.me.path n).causeWaits = false
/-- The issuing path has come to its join PC in the scope of owner `j`, whose entry was `o` (R85, R86): it waits there while another path of the scope does
not wait; where every other one waits, the scope has merged: the entries of its paths are free, the owner holds all their lanes and goes on where it stands,
and the loop counters are `L`; where the owner does not itself stand at its join PC, no other entry changes. -/
structure Joins (s t : State) (j : Nat) (o : Path) (L : Vector LoopCtr 3) : Prop where
  waits : (∃ n ∈ s.me.children j, n ≠ s.me.cur ∧ (s.me.path n).state ≠ .waiting) → t.me.cur = s.me.cur ∧ t.me.loops = s.me.loops ∧ t.path.state = .waiting
    ∧ s.path.join = some t.pc ∧ t.path.member = s.path.member ∧ t.path.exm = s.path.exm ∧ (t.me.path j).state = .joined
  merges : s.othersWait j → o.join ≠ some o.pc → (∀ n ∈ s.me.children j, t.me.path? n = none) ∧ t.me.loops = L
    ∧ ∃ q, t.me.path? j = some q ∧ q.state = .ready ∧ q.pc = o.pc ∧ q.join = o.join ∧ q.parent = o.parent
      ∧ q.member = (s.me.children j).foldl (fun m n => m ||| (s.me.path n).member) 0 ∧ q.exm = (s.me.children j).foldl (fun m n => m ||| (s.me.path n).exm) 0
  rest : o.join ≠ some o.pc → ∀ n, n ≠ j → n ∉ s.me.children j → t.me.path? n = (s.me.path? n).map fun p => { p with yields := p.yields.filter (· != s.me.cur) }

/-! ### Mode word, masks, predicates as words, XREPL -/

/-- EXM of the issuing path is set and the path goes on (R101, R79). -/
structure Masks (s t : State) (x : LaneMask) : Prop where
  moves : Moves s t (s.pc + 4)
  lanes : s.unspilled → s.path.join ≠ some (pc56 (s.pc + 4)) → t.path.exm = x &&& s.path.member ∧ t.path.member = s.path.member
/-- Nothing that R39 puts before the own effect of an instruction executed once keeps it from that effect, whichever lanes it reads. -/
def State.soundFor (s : State) (uses : List Use) : Bool :=
  !(modeCHK s.me.mode && uses.any s.hazard) && s.errors.isEmpty && uses.all fun u => match u with
    | .v n => (s.me.vrow n).isSome
    | _ => true
/-- The vector registers with one name replaced in the lanes of a mask. -/
def vectorsIn (V : Nat → Nat → Word) (d : Nat) (m : LaneMask) (f : Nat → Word) (n k : Nat) : Word := if n = d ∧ m.getLsbD k = true then f k else V n k
/-- Vector registers after sources read for the last time have lost their rows, the destinations apart (R32, R250). -/
def State.vectorsFreed (s : State) (marks dests : List Nat) (V : Nat → Nat → Word) (n k : Nat) : Word :=
  if n ∈ s.marks marks ∧ n ∉ dests then 0 else V n k
/-- The predicates with one replaced in the lanes of a mask. -/
def predsIn (P : Nat → LaneMask) (d : Nat) (m x : LaneMask) (n : Nat) : LaneMask := if n = d then (P n &&& ~~~m) ||| (x &&& m) else P n

/-! ### Exceptions (R319, R322 to R324, R327, R330) -/

/-- A user trap has been taken: the trap registers, the mode word, the recorded masks and the path are as R319 says; nothing else has changed. -/
structure Trapped (s t : State) (cause : Word) (mask : LaneMask) (xpc : DWord) : Prop where
  regs : t.me.x = { xpc := xpc, xinst := s.me.ir, xmask := mask, xcause := cause, xpath := BitVec.ofNat 3 s.me.cur, xmode := s.me.mode }
  mode : t.me.mode = 0x0003000F
  mark : ∃ h, t.me.handler = some h ∧ h.path = s.me.cur ∧ h.member = s.path.member ∧ h.exm = s.path.exm
  path : t.me.cur = s.me.cur ∧ t.pc = s.myTask.record.handler ∧ t.path.member = s.path.member ∧ t.path.exm = s.path.exm
  pending : t.me.pending = []
  scalars : t.me.s = s.me.s
  vectors : t.me.v = s.me.v
  preds : t.me.p = s.me.p
  cm : t.me.cm = s.me.cm
  fpsf : t.me.fpsf = s.me.fpsf
  loops : t.me.loops = s.me.loops
  others : t.others = s.others
  memory : s.sameMemory t
/-- What routes a cause to the user handler (R324). -/
def State.trapsToUser (s : State) : Prop := s.myTask.record.handler ≠ 0 ∧ s.me.handler = none ∧ (s.me.path? s.me.cur).isSome = true ∧ s.myTask.kind ≠ .system
/-- A system cause has been taken: the path is parked and a record waits to be written to the fault queue; no register has changed (R324, R327, R330). -/
structure Parked (s t : State) (cause : Word) (mask : LaneMask) (vaddr xpc : DWord) : Prop where
  path : ∃ q, t.me.path? s.me.cur = some q ∧ q.causeWaits = true ∧ q.pc = xpc ∧ q.member = s.path.member ∧ q.exm = s.path.exm
  record : ∃ fc, (t.part s.me.part).faults = (s.part s.me.part).faults ++ [fc] ∧ fc.cause = cause ∧ fc.mask = mask ∧ fc.vaddr = vaddr ∧ fc.pc = s.pc
    ∧ fc.inst = s.me.ir ∧ fc.task = s.me.task ∧ fc.tile = s.me.tile ∧ fc.group = s.me.index ∧ fc.path = s.me.cur ∧ fc.owner = some (s.me.seq, s.me.cur)
  regs : t.me.x = s.me.x
  mode : t.me.mode = s.me.mode
  scalars : t.me.s = s.me.s
  vectors : t.me.v = s.me.v
  preds : t.me.p = s.me.p
  cm : t.me.cm = s.me.cm
  fpsf : t.me.fpsf = s.me.fpsf
  memory : s.sameMemory t
/-- What routes a cause to the system handler of a partition and parks the path, no path being spilled (R324, R326). -/
def State.parksForSystem (s : State) : Prop := s.myTask.kind ≠ .system ∧ s.me.part < 8 ∧ s.unspilled

/-! ### Memory accesses (R166 to R177, R297 to R306) -/

/-- A team without what memory accesses change: its scratchpad, write buffer, L1 share and beats. -/
def Team.registers (t : Team) : Team := { t with scratch := [], wbuf := [], l1 := [], linesSeen := [], beats := 0, lastBeat := 0, ran := false }
/-- A partition without what memory accesses change: its versions, and the registers and causes in which a poisoned word is reported. -/
def Partition.apart (p : Partition) : Partition := { p with versions := [], regs := [], faults := [], vectorRaisedNoQueue := false }
/-- Everything but the issuing group and what memory accesses change: so other groups, all futures, accumulators, barriers, tasks, engines,
channels, mailboxes, Turntable slots, gates, the device block. -/
def State.fabric (s : State) : State :=
  { s with me := {}, teams := s.teams.map Team.registers, parts := s.parts.map Partition.apart, dev := [], host := [], bank := [], errors := [], tlb := [], tlb2 := [],
           saved := s.saved.map fun (v : Saved) => { v with team := v.team.registers }, patrolRead := [], msix := [] }
/-- Nothing keeps an instruction from performing its accesses: none is refused, a versioned store has room, a load meets no poisoned word (R169, R276,
R343). -/
def State.mayAccess (s : State) (strong : Bool) (k : Acc) (need : Nat) (as : List Access) (reads : Bool) : Bool :=
  let ag := s.groupAgent s.me
  (s.firstRefusal ag k need as).isNone && (!k.writes || s.versionRoom ag (s.placed ag k as)) && (!reads || ((s.before ag strong (s.placed ag k as)).poisonOf ag (!strong) (s.placed ag k as)).isNone)
/-- The state in which the accesses of an instruction are performed: a strong one has drained and dropped the lines it names, and the TLBs hold its pages. -/
def State.entered (s : State) (strong : Bool) (as : List Access) : State :=
  let t := s.before (s.groupAgent s.me) strong as
  t.noteTlb (t.core (s.groupAgent s.me)) s.me.part (pagesOf as)
/-- The bytes that the issuing group's team holds in its write buffer. -/
def State.buffered (s : State) (p : Place) : Prop :=
  match p with
  | .dev a => ∃ e ∈ (s.team s.me.team).wbuf, ∃ c ∈ e.bytes, c.1 = a
  | _ => False
/-- The bytes that accesses touch: each at the place to which its address translates. -/
def touched (as : List Access) (p : Place) : Prop := ∃ x ∈ as, ∃ q ∈ x.at_, ∃ i, i < q.2 ∧ p = q.1.plus i
/-- The machine after an instruction that accesses memory: `S` and `V` give the scalar and vector registers; only bytes in `W` may have changed at their
points of coherence. -/
structure Accessed (s t : State) (S : Nat → Word) (V : Nat → Nat → Word) (W : Place → Prop) : Prop where
  scalars : ∀ n, t.me.sreg n = S n
  vectors : ∀ n k, t.me.vlane n k = V n k
  preds : t.me.p = s.me.p
  cm : t.me.cm = s.me.cm
  fpsf : t.me.fpsf = s.me.fpsf
  gstat : t.me.gstat = s.me.gstat
  streams : (t.me.laneCtr, t.me.scalarCtr) = (s.me.laneCtr, s.me.scalarCtr)
  special : t.me.special = s.me.special
  rest : t.fabric = s.fabric
  memory : ∀ ag p, ¬ W p → t.readByte ag p = s.readByte ag p
  goes : s.goesTo t (s.pc + 4)
/-- The words loaded for a lane. -/
def loadedWords (sx : Bool) (r : List (Nat × List Byte)) (k : Nat) : List Word :=
  (((r.map fun x => (x.1, wordsOfBytes sx x.2)).find? (·.1 == k)).map (·.2)).getD []
/-- The uses that decide whether a name without a row has been read. -/
def usesOf (u : Bool) (uses : List Use) : List Use := if u then uses else .exm :: uses
/-- A load of `size` bytes: the words go to consecutive registers; only the bytes that a strong load drains from its team's buffer may change in memory. -/
def LoadForm (mk : BitVec 6 → BitVec 6 → Bool → BitVec 8 → BitVec 3 → Instr) (ok : Bool → BitVec 6 → Bool) (sx : Bool) (size : Nat) : Prop :=
  ∀ s d a u off ord r as ps q names, r = s.seen (usesOf u (baseUse u a)) →
    as = (r.askers u).map (fun k => ({ lane := k, va := r.effective u a off size k, size := size } : Access)) → ps = r.placed (r.groupAgent r.me) .load as →
    q = (r.entered (ord != 0) ps).loadAll (ord != 0) ps → names = (List.range (regsOf size)).map (d.toNat + ·) →
    (ok u d && base u a && small ord 3) = true → s.clear u (baseUse u a) = true → u = true ∨ State.rowsFor [] names r = true →
    r.mayAccess (ord != 0) .load (if ord != 0 then size else 0) as true = true →
    ∃ t, exec (mk d a u off ord) s = .next t ∧ (∀ ag p, t.readByte ag p = q.2.readByte ag p) ∧
      Accessed r t (if u then r.scalarsWith names (loadedWords sx q.1 64) else r.me.sreg) (if u then r.me.vlane else r.vectorsWith names [] (loadedWords sx q.1))
        (fun p => ord ≠ 0 ∧ r.buffered p)
/-- A store of `size` bytes: memory stands as after the stores of the lanes in ascending order; only the bytes stored to, and bytes that drain from the
team's buffer, may have changed. -/
def StoreForm (mk : BitVec 6 → BitVec 6 → Bool → BitVec 8 → BitVec 3 → Instr) (ok : Bool → BitVec 6 → Bool) (size : Nat) : Prop :=
  ∀ s d a u off ord uses r as ps, uses = baseUse u a ++ (List.range (regsOf size)).map (fun k => ((srcA u d).plus k).use) → r = s.seen (usesOf u uses) →
    as = (r.askers u).map (fun k => ({ lane := k, va := r.effective u a off size k, size := size, data := r.storeData u d size k } : Access)) →
    ps = r.placed (r.groupAgent r.me) .store as → (ok u d && base u a && storeOrd ord) = true → s.clear u uses = true →
    r.mayAccess (ord != 0) .store (if ord != 0 then size else 0) as false = true →
    ∃ t, exec (mk d a u off ord) s = .next t ∧
      (∀ ag p, t.readByte ag p = (ps.foldl (fun (q : State) x => q.storeAccess (q.groupAgent q.me) q.me.seq (ord != 0) x)
        (if ord = 3 then (r.entered (ord != 0) ps).release r.scope else r.entered (ord != 0) ps)).readByte ag p) ∧
      Accessed r t r.me.sreg r.me.vlane (fun p => touched ps p ∨ r.buffered p)
/-- The result words of an atomic. -/
def oldWords (wide : Bool) (r : List (Nat × Nat)) (k : Nat) : List Word :=
  (((r.map fun x => (x.1, if wide then [BitVec.ofNat 32 x.2, BitVec.ofNat 32 (x.2 / 2 ^ 32)] else [BitVec.ofNat 32 x.2])).find? (·.1 == k)).map (·.2)).getD []
/-- An atomic: each lane's old value is replaced by `f` of it, in ascending lane order; the old values are the results where v = 1. -/
def AtomicForm (mk : BitVec 6 → BitVec 6 → BitVec 6 → Bool → Bool → Bool → BitVec 3 → Instr) (ok : State → Bool → Bool → Bool → BitVec 6 → BitVec 6 → Bool)
    (wideB : Bool → Bool) (cas : Bool) (f : State → AtomicFn) : Prop :=
  ∀ s d a b u v z ord uses r size as ps q names, uses = baseUse u a ++ operandUse u b (wideB z) ++ (if cas then operandUse u d z else []) →
    r = s.seen (usesOf u uses) → size = (if z then 8 else 4) → as = (r.askers u).map (fun k => ({ lane := k, va := r.effective u a 0 size k, size := size } : Access)) →
    ps = r.placed (r.groupAgent r.me) .atomic as →
    q = (if ord = 3 ∨ ord = 4 then (r.entered true ps).release r.scope else r.entered true ps).atomics size v
      (fun lane m => f r size m (r.operand u b (wideB z) lane) (if cas then r.operand u d z lane else 0) % 2 ^ (8 * size)) ps →
    names = (if v then (if z then [d.toNat, d.toNat + 1] else [d.toNat]) else []) →
    (ok s u v z d b && base u a && small ord 5) = true → s.clear u uses = true → u = true ∨ State.rowsFor [] names r = true →
    r.mayAccess true .atomic size as v = true →
    ∃ t, exec (mk d a b u v z ord) s = .next t ∧ (∀ ag p, t.readByte ag p = q.2.readByte ag p) ∧
      Accessed r t (if u then r.scalarsWith names (oldWords z q.1 64) else r.me.sreg) (if u then r.me.vlane else r.vectorsWith names [] (oldWords z q.1))
        (fun p => touched ps p ∨ r.buffered p)

/-- A bank-ALU operation of the active lanes: element `k` at base + `step k`, the base a multiple of `align` bytes (R177). -/
def BankForm (mk : BitVec 6 → BitVec 6 → BitVec 3 → Instr) (types : Nat) (size : BitVec 3 → Nat) (align : State → BitVec 3 → Nat) (step : BitVec 3 → Nat → Nat)
    (f : BitVec 3 → Nat → Nat → Nat) : Prop :=
  ∀ s a b t uses r as ps q, uses = [.s a.toNat, .s (a.toNat + 1), .v b.toNat] → r = s.seen (.exm :: uses) →
    as = (lanesOf r.active).map (fun k => ({ lane := k, va := (r.rpair a.toNat).toNat + step t k, size := size t } : Access)) →
    ps = r.placed (r.groupAgent r.me) .atomic as →
    q = (r.entered true ps).atomics (size t) false (fun k m => f t m (r.me.vlane b.toNat k).toNat) ps →
    (even a && vr b && small t types) = true → s.clear false uses = true → (r.active = 0 ∨ (r.rpair a.toNat).toNat % align r t = 0) →
    (∀ x ∈ as, windowOf x.va = 1) → r.mayAccess true .atomic 0 as false = true →
    ∃ t', exec (mk a b t) s = .next t' ∧ (∀ ag p, t'.readByte ag p = q.2.readByte ag p) ∧ Accessed r t' r.me.sreg r.me.vlane fun p => touched ps p ∨ r.buffered p
/-- A bank-ALU operation on n consecutive words within one interleave unit (R177). -/
def BankFillForm (mk : BitVec 6 → BitVec 6 → BitVec 6 → Instr) (f : Nat → Nat → Nat) : Prop :=
  ∀ s d a b n as ps q, n = (s.rs d.toNat).toNat → as = (List.range n).map (fun k => ({ lane := 64, va := (s.rpair a.toNat).toNat + 4 * k, size := 4 } : Access)) →
    ps = s.placed (s.groupAgent s.me) .atomic as → q = (s.entered true ps).atomics 4 false (fun _ m => f m (s.rs b.toNat).toNat) ps →
    (even a && decide (n ≤ 1024)) = true → s.clear true [.s a.toNat, .s (a.toNat + 1), .s b.toNat, .s d.toNat] = true →
    (n = 0 ∨ ((s.rpair a.toNat).toNat % 4 = 0 ∧ (s.rpair a.toNat).toNat % 4096 + 4 * n ≤ 4096)) → (∀ x ∈ as, windowOf x.va = 1) →
    s.mayAccess true .atomic 0 as false = true →
    ∃ t, exec (mk d a b) s = .next t ∧ (∀ ag p, t.readByte ag p = q.2.readByte ag p) ∧ Accessed s t s.me.sreg s.me.vlane fun p => touched ps p ∨ s.buffered p

/-! ### Instructions that command a unit -/

/-- What an instruction leaves of its own group: `S` gives the scalar registers, `cm` CM, `g` everything that `Group.special` keeps; vector and predicate
registers, flags and random streams stand, and the path goes on. -/
structure Own (s t : State) (S : Nat → Word) (cm : DWord) (g : Group := s.me) : Prop where
  scalars : ∀ n, t.me.sreg n = S n
  vectors : t.me.v = s.me.v
  preds : t.me.p = s.me.p
  cm : t.me.cm = cm
  fpsf : t.me.fpsf = s.me.fpsf
  gstat : t.me.gstat = s.me.gstat
  streams : (t.me.laneCtr, t.me.scalarCtr) = (s.me.laneCtr, s.me.scalarCtr)
  special : t.me.special = g.special
  goes : s.goesTo t (s.pc + 4)
/-- The same of an instruction with vector results, `V` giving the vector registers. -/
structure OwnV (s t : State) (S : Nat → Word) (V : Nat → Nat → Word) (cm : DWord) (g : Group := s.me) : Prop where
  scalars : ∀ n, t.me.sreg n = S n
  vectors : ∀ n k, t.me.vlane n k = V n k
  preds : t.me.p = s.me.p
  cm : t.me.cm = cm
  fpsf : t.me.fpsf = s.me.fpsf
  gstat : t.me.gstat = s.me.gstat
  streams : (t.me.laneCtr, t.me.scalarCtr) = (s.me.laneCtr, s.me.scalarCtr)
  special : t.me.special = g.special
  goes : s.goesTo t (s.pc + 4)
/-- The instruction waits: its path stands at it, marked with what it waits for; no register has changed (R189, R238). -/
structure Blocks (s t : State) (w : Wait) (g : Group := s.me) : Prop where
  path : s.unspilled → ∃ p, t.me.path? s.me.cur = some p ∧ p.wait = some w ∧ p.pc = s.path.pc ∧ p.member = s.path.member ∧ p.exm = s.path.exm
  scalars : t.me.s = s.me.s
  vectors : t.me.v = s.me.v
  preds : t.me.p = s.me.p
  cm : t.me.cm = s.me.cm
  fpsf : t.me.fpsf = s.me.fpsf
  gstat : t.me.gstat = s.me.gstat
  streams : (t.me.laneCtr, t.me.scalarCtr) = (s.me.laneCtr, s.me.scalarCtr)
  special : t.me.special = g.special
/-- The instruction completes: its group as `Own` says, the rest of the machine, memory included, as in `u`. -/
def Ends (i : Instr) (s : State) (u : State) (S : Nat → Word := s.me.sreg) (cm : DWord := s.me.cm) (g : Group := s.me) : Prop :=
  ∃ t, exec i s = .next t ∧ Own s t S cm g ∧ t.others = u.others
/-- The instruction waits, the rest of the machine being as in `u`. -/
def WaitsFor (i : Instr) (s : State) (u : State) (w : Wait) (g : Group := s.me) : Prop := ∃ t, exec i s = .next t ∧ Blocks s t w g ∧ t.others = u.others

/-! ### K-steps (R195, R196) -/

/-- A K-step of a group that issues alone: one operation with the slices of its active lanes, or of its collector; it waits while the queue is full; a gang
member that the latch has released completes. -/
def KStepForm (mk : BitVec 6 → BitVec 6 → Bool → Instr) (k : StepKind) : Prop :=
  (∀ (s r : State) (a b : BitVec 6) (e : Bool) (va : Nat) (uses : List Use) (f : FormatBlock) (n : Nat) (rows : List (Nat × List Word)) (g : Group), s.answer = none → s.gangOf = none → va = (s.rpair a.toNat).toNat →
    uses = [.s a.toNat, .s (a.toNat + 1)] ++ (if s.me.collector.isSome then [] else (List.range (min (s.peekRegs va) (48 - b.toNat))).map fun j => Use.v (b.toNat + j)) →
    (even a && vr b) = true → s.clear false uses = true → r = s.seen (.exm :: uses) → r.readBlock (k == .sparse) r.me.width.lanes b.toNat va = .ok f → n = sliceRegs f.fmtA →
    rows = (lanesOf r.active).map (fun l => (f.orgRow + l, match r.me.collector with
      | some c => r.fromCollector c l
      | none => r.sliceOf b.toNat n l)) →
    g = { r.me with collector := if e then (match r.me.collector with
      | some c => some c
      | none => some ((List.range 64).map fun l => if r.active.getLsbD l then r.sliceOf b.toNat n l else [])) else none } →
    if r.queueFull then ∃ t, exec (mk a b e) s = .next t ∧ Blocks r t .engineRoom ∧ t.others = r.others
    else ∃ t, exec (mk a b e) s = .next t ∧ Own r t r.me.sreg r.me.cm g ∧ t.others = (r.enqueue (.kstep (k == .zero) (k == .sparse) f rows)).others)
  ∧ ∀ (s : State) a b e, s.answer.isSome = true → Ends (mk a b e) s s

/-! ### The Turntable (R220 to R226) -/

/-- The way of a Turntable instruction into its station's queue: an unmapped slot traps, a full queue waits, else the operation is queued, after a release at
device scope where the instruction asks for one, and the instruction waits for it. -/
structure TTQueues (i : Instr) (s : State) (v : Option Word) (rel : Bool) (k : TTKind) : Prop where
  unmapped : ∀ x, v = some x → look x.toNat s.myPart.vslots = none → exec i s = .next (s.raise { code := 0x0C, detail := 3, mask := s.exm })
  full : (∀ x, v = some x → (look x.toNat s.myPart.vslots).isSome = true) → 8 ≤ (s.station (stationOf s.me.tile)).length → WaitsFor i s s .stationRoom
  queued : (∀ x, v = some x → (look x.toNat s.myPart.vslots).isSome = true) → (s.station (stationOf s.me.tile)).length < 8 →
    ∀ u, u = (if rel then s.release 3 else s) → WaitsFor i s (u.setStation (stationOf s.me.tile) (u.station (stationOf s.me.tile) ++
      [{ group := s.me.seq, path := s.me.cur, part := s.me.part, vslot := (v.map (·.toNat)).getD 0, kind := k, queuedAt := u.now }])) .station
/-- The completion of a Turntable instruction that has its answer: `ws` go to consecutive registers from `d` up. -/
def TTAnswered (i : Instr) (s : State) (d : Nat) (ws : List Word) (acq : Bool) (cm : DWord) : Prop :=
  Ends i s (if acq then s.acquire 3 else s) (S := s.scalarsWith ((List.range ws.length).map (d + ·)) ws) (cm := cm)

/-! ### Launch queues (R264, R441) -/

/-- The state after an entry of a launch queue has been dealt with, `u` being the state without the queue's own advance: LQHEAD moves on by 1,
whatever the entry held, and the queue raises its vector where it is set to. -/
def State.entryDone (s u : State) (p q : Nat) : State :=
  let v := u.setPart p fun x => { x.setReg (0x963 + 4 * q) ((s.part p).reg (0x963 + 4 * q) 0 + 1) with lastLaunchQueue := q }
  if bit ((s.part p).reg (0x962 + 4 * q) 4) 5 then v.msi (p + 1) 4 else v
/-- The address of the entry that the head of a launch queue names. -/
def Partition.entryAddr (x : Partition) (q : Nat) : Nat := x.reg2 (0x960 + 4 * q) + 16 * ((x.reg (0x963 + 4 * q) 0).toNat % 2 ^ x.lqSize q)
/-- What the partitions would dispatch with their credits: the first in visiting order with credit left. -/
def State.nextDispatch (s : State) : Option (Nat × Task × List Nat) :=
  s.visits.findSome? fun p => if (s.part p).credit = 0 then none else (s.offer p).map fun o => (p, o)
/-- The state with every partition's credit at its weight. -/
def State.creditsFilled (s : State) : State :=
  { s with parts := s.parts.map fun (p : Partition) => { p with credit := (p.reg 0x974 1).toNat } }
/-- A dispatch: one credit is spent and the cluster starts. -/
def State.dispatched (s : State) (x : Nat × Task × List Nat) : State :=
  { (s.setPart x.1 fun p => { p with credit := p.credit - 1 }) with lastPart := x.1, dispatchAt := s.now + 1 }.startCluster x.2.1 x.2.2

/-! ### Fault records (R326 to R329) -/

/-- The state with a record written: `c` is the cause as it stands in the record, `u` the state with the record's bytes. FQHEAD advances, the record is
outstanding under its number, and the path it stopped is parked. -/
def State.recorded (s u : State) (p : Nat) (c : FaultCause) : State :=
  let q := ((s.part p).reg 0x873 0).toNat
  let v := u.setPart p fun x => { x.setReg 0x873 (BitVec.ofNat 32 (q + 1)) with
    faults := x.faults.drop 1, records := x.records ++ [{ seq := q, cause := c, acted := (s.part p).killsAlone }] }
  match s.stopped? c with
  | some (g, n) => v.mapGroups (·.seq == g.seq) fun g => g.setPath n fun x => { x with causeWaits := false, parked := if (s.part p).killsAlone then none else some q }
  | none => v
/-- Whether DELIVER is turned away for a record, whatever it names: one without an attribution, an uncorrectable word, a task without a trap handler. -/
def State.undeliverable (s : State) (p : Nat) (r : FaultRecord) : Prop :=
  r.cause.unattr = true ∨ bits r.cause.cause 0 8 = 0x0D ∨ (((s.part p).task? r.cause.task).map (·.record.handler)).getD 0 = 0
/-- Whether the group a record names is in its trap handler. -/
def State.handles (s : State) (p : Nat) (c : FaultCause) : Bool :=
  s.everyGroup.any fun g => g.part == p && g.task == c.task && g.index == c.group && g.tile == c.tile && g.handler.isSome
/-- The entries of all TLBs, of cores and of slices. -/
def State.translations (s : State) : List (Nat × Nat × Nat) := (s.tlb ++ s.tlb2).flatMap (·.2)

/-! ### Probes, audits, the mesh (R389, R395, R397) -/

/-- The state after a probe has been dealt with: units forget a probe with its last copy. -/
def State.probeDone (s : State) (num : Nat) : State :=
  { s with probeSeen := if s.probes.any (·.num == num) then s.probeSeen else s.probeSeen.filter (·.1 != num) }
/-- The state in which the audit has gone on to the next channel that exists. -/
def State.audited (s : State) : State :=
  { s with auditAt := s.now, auditNext := (channelIds.find? fun x => decide (s.auditNext < x) && (s.terms x).isSome).getD (2 ^ 28) }
/-- The flits that a router has to handle in this cycle. -/
def State.arrivals (s : State) (r : Nat) : List Flit := s.flits.filter fun f => f.at_ == r && !f.moved

/-! ### Holding paths, filters (R415, R419) -/

/-- A path of a group with its hold in effect: its group's pending writes have completed, its waiting instruction is withdrawn unless it has its answer,
and a BKPT's path stands behind it. -/
def Group.heldAt (g : Group) (n : Nat) (keep bkpt : Bool) : Group :=
  (({ g with pending := [], rowWait := false }).setPath n fun p => { p with
    state := .held
    heldState := p.state
    holdAsked := none
    wait := if keep then p.wait else none
    pc := if bkpt then pc56 (p.pc + 4) else p.pc }).refill 72
/-- A partition whose trace core is off, `bad` telling whether a filter was refused. -/
def Partition.filterOff (p : Partition) (who : Nat) (bad : Bool) (v : Word) : Partition :=
  { p.setReg 0x902 (BitVec.ofNat 32 ((if bad then 2 ^ 31 else 0) + bits v 8 7 * 2 ^ 8)) with filter := [], filterHost := decide (who = 8) }
/-- What a write that is turned away leaves: one of the host is counted (R436). -/
def State.turnedAway (s : State) (who : Nat) : State := if who = 8 then { s with hostErr := satAdd s.hostErr 1 } else s

/-! ### Jobs of the engines (R355, R356, R362) -/

/-- The chain whose job has been started: it runs until ENGINE_JOB_COMPLETE, with the job's status and word and the writes it performs until then. -/
def Chain.started (x : Chain) (r : Nat × Word) (out : List (Place × List Byte)) : Chain :=
  { x with
    out := out
    jobs := x.jobs + 1
    pos := match x.pos with
      | .entered n => .running n
      | q => q
    lastStatus := r.1
    lastWord := r.2 }
/-- The state in which a due job is worked out: its future counts it. -/
def State.counting (s : State) (c : Chain) : State := s.setTeam c.team fun t => t.setFuture c.future fun f => f.started (c.jobs + 1)
/-- A due job of one operation of an engine is worked out and its chain runs with the job's status, its word and its writes; a parameter block of `size` bytes
that can be read but is not legal ends it FAULTED with FFFFFFFF, with no write. -/
def JobForm (mk : Nat → Instr) (mine : State → Nat → Chain → Bool) (job : Nat → Job → Job) (size : Nat) (legal : List Byte → Bool) : Prop :=
  (∀ (s : State) e c j, s.jobDue e = some c → mine s e c = true → j = job c.param.toNat { s := s.counting c, c := c } →
    exec (mk e) s = .next ((((s.counting c).engineMet c j.met).setEngine e fun x => { x with lastPart := c.part }).setChain e c
      fun x => x.started (j.ended.getD (0, 0)) j.out)
    ∧ ∀ b, (s.counting c).engineRead c c.param.toNat size = .ok b → legal b = false → j.out = [] ∧ j.met = none ∧ j.ended = some (2, wordBlock))
  ∧ ∀ (s : State) e, (∀ c, s.jobDue e = some c → mine s e c = false) → exec (mk e) s = .next s

/-! ### Memory -/

/-- Device memory, host memory and the shared banks are in canonical form. -/
def State.canonical (s : State) : Prop := Memory.wf s.dev = true ∧ Memory.wf s.host = true ∧ Memory.wf s.bank = true

/-- No unsealed partition is CONFIG_LOCKED or in ERROR (R440). -/
def State.unsealedOpen (s : State) : Prop := ∀ p, p < 8 → (s.part p).isSealed = false → (s.part p).state ≠ .locked ∧ (s.part p).state ≠ .error

/-! ### Requests over the mailbox of PF 0 (R442 to R445) -/

/-- The state with one answer sent: `kind` says which message it is, 0 an SPDM error, 0x80 a TDISP error. -/
def State.answering (s : State) (sess kind content : Nat) : State :=
  { s with sent := s.sent ++ [{ kind := kind, sess := sess, bytes := Config.responseBytes kind content }] }
/-- A request that changes at most its session: where `ok` holds it is answered and its session becomes `f` of what it was, no other session and nothing else
changing; where `ok` does not hold, it is answered with the error and nothing changes; while the link is down nothing arrives. -/
structure RequestForm (i : Instr) (sess err : Nat) (ok : State → Bool) (kind : Nat) (content : State → Nat) (f : Session → Session) : Prop where
  answered : ∀ s, s.linkUp = true → ok s = true → ∃ l, exec i s = .next { s.answering sess kind (content s) with sessions := l }
    ∧ (l.find? (·.id == sess)).getD { id := sess } = f (s.session sess) ∧ ∀ n, n ≠ sess → l.find? (·.id == n) = s.sessions.find? (·.id == n)
  refused : ∀ s, s.linkUp = true → ok s = false → exec i s = .next (s.answering sess err 0)
  down : ∀ s, s.linkUp = false → exec i s = .next s
/-- A TDISP or IDE_KM request that acts on an interface: within a secured session, of VF 1 to VF 8 and where `ok` holds of its partition, it leads to `f`;
otherwise it is answered with the TDISP error and nothing changes. -/
structure InterfaceForm (i : Instr) (sess vf : Nat) (ok : Partition → Bool) (f : State → State) : Prop where
  served : ∀ s, s.linkUp = true → (s.session sess).secured = true → 1 ≤ vf → vf ≤ 8 → ok (s.part (vf - 1)) = true → exec i s = .next (f s)
  refused : ∀ s, s.linkUp = true → ((s.session sess).secured = false ∨ vf < 1 ∨ 8 < vf ∨ ok (s.part (vf - 1)) = false) → exec i s = .next (s.answering sess 0x80 0)
  down : ∀ s, s.linkUp = false → exec i s = .next s

end Sys2Proof.Machine
end

