-- ==== Sys2Proof/WellFormed.lean ====
section
/-! DEFINITION. Well-formed instructions: those that an assembler may emit (R38), operand by operand, and that have words. -/

namespace Sys2Proof

/-- An instruction that has words and whose operand values its row admits. -/
def Instr.wellFormed (i : Instr) : Bool :=
  match i with
  | .illegalInstruction _ => false
  | .illFormedWord _ => false
  | i => !(encode i).isEmpty && legal i

end Sys2Proof
end

