-- ==== Sys2Proof/Certificates/Slice0/Obligations.lean ====
section
/-! DEFINITION. The statements for the provers. -/

open Sys2Proof Sys2Proof.Machine

/-- The decoder reads back every well-formed instruction that the encoder writes, and leaves the bytes that follow. (R19, R20, R21, R22, R23, R24, R25, R26, R27) -/
def Obligations.DecodeEncodeAgree : Prop :=
  ∀ i : Instr, i.wellFormed = true → ∀ rest : List Byte, decodeBytes ((encode i).flatMap (fun w => bytesOfWord w.toNat) ++ rest) = some (i, rest)

/-- Words written out from the encoding tables decode to the instructions they stand for. (R20, R21, R22, R23, R24, R25, R26, R27) -/
def Obligations.DecodeWords : Prop :=
  decodeTableWord 32 0x60142EC2 = some (.fadd 5 2 59 0 false false true) ∧ decodeTableWord 32 0x3F083080 = some (.sel 2 3 2 false 0)
  ∧ decodeTableWord 32 0x44186FFD = some (.addi 6 6 true (BitVec.ofInt 11 (-3))) ∧ decodeTableWord 32 0x028FFFFB = some (.bra true 3 (BitVec.ofInt 18 (-5)))
  ∧ decodeTableWord 32 0xB40C5012 = some (.ldw 3 5 false 2 2) ∧ decodeTableWord 64 0x3F80000042280800 = some (.ldcw 10 true 0x3F800000)
  ∧ decodeTableWord 32 0x0D000000 = some (.exit 0) ∧ decodeTableWord 32 0x591000C0 = some (.por 4 0 3 0 false)
  ∧ decodeTableWord 32 0xFF000405 = some (.mark true 5) ∧ decodeTableWord 32 0x00000001 = some (.illFormedWord 1)
  ∧ decodeTableWord 32 0xF6001410 = some (.ttmax 1 16 true false) ∧ decodeTableWord 32 0xFE000001 = some (.bar true)

/-- A step takes one thing that is possible: an event that is due, or an issue, whose word it fetches, decodes and executes. (R27, R39, R240, R241, R449, R337, R343) -/
def Obligations.StepRunsDecoded : Prop :=
  (∀ s u : State, u = { s with free := s.free + 1 } → (
    (s.halted = true → (∀ i ∈ s.inputs, isPowerOn i = false) → step s = .fault .bootHalted)
    ∧ (∀ ok before after, s.halted = true → s.inputs = before ++ .powerOnReset ok :: after → (∀ i ∈ before, isPowerOn i = false) → step s = exec (.powerOnReset ok) { u with inputs := after })
    ∧ (∀ i, s.halted = false → u.due = some i → step s = exec i u)
    ∧ (∀ m, s.halted = false → u.due = none → u.moves = [m] → step s = u.take m)
    ∧ (s.halted = false → u.due = none → ∃ m ∈ u.moves, step s = u.take m)
    ∧ (∀ seq path, s.halted = false → u.next = .issue seq path → step s = u.issue seq path)))
  ∧ (∀ (s v : State) seq path w i, v = s.checkout seq path → v.tableStruck = false → v.badFetch v.pc.toNat = false → v.fetchWord v.pc.toNat = .ok w →
    takesLiteral w = false → decodeBytes (bytesOfWord w.toNat) = some (i, []) →
    s.issue seq path = s.issued seq (exec i ((v.withMe fun g => { g with ir := w }).noteTlb (some v.me.tile) v.me.part [v.pc.toNat])))
  ∧ (∀ (s v : State) seq path w l i, v = s.checkout seq path → v.tableStruck = false → v.badFetch v.pc.toNat = false → v.fetchWord v.pc.toNat = .ok w →
    takesLiteral w = true → v.badFetch v.nextWord = false → v.fetchWord v.nextWord = .ok l → decodeBytes (bytesOfWord w.toNat ++ bytesOfWord l.toNat) = some (i, []) →
    s.issue seq path = s.issued seq (exec i ((v.withMe fun g => { g with ir := w }).noteTlb (some v.me.tile) v.me.part (v.fetchPages w))))
  ∧ (∀ (s v : State) seq path x, v = s.checkout seq path → v.tableStruck = false → v.badFetch v.pc.toNat = false → v.fetchWord v.pc.toNat = .error x →
    s.issue seq path = s.issued seq (exec .fetchFault ((v.withMe fun g => { g with ir := 0 }).noteTlb (some v.me.tile) v.me.part [v.pc.toNat])))
  ∧ (∀ (s v : State) seq path, v = s.checkout seq path → v.tableStruck = false → v.badFetch v.pc.toNat = true →
    s.issue seq path = s.issued seq (exec .fetchFault ((v.withMe fun g => { g with ir := 0 }).noteTlb (some v.me.tile) v.me.part [v.pc.toNat])))
  ∧ (∀ (s t : State) seq, (t.me.seq ≠ seq ∨ t.me.rowWait = false → s.issued seq (.next t) = .next t)
    ∧ (t.me.seq = seq → t.me.rowWait = true → s.issued seq (.next t) = .next (s.setGroup seq fun g => { g with rowWait := true, rowWant := t.me.rowWant })))
  ∧ (∀ (s v : State) seq path, v = s.checkout seq path → v.tableStruck = true → s.issue seq path = .next (v.withMe fun g => { g with ir := v.fetch.2 }).tableError)

/-- Right after reset no partition exists, no group is resident, memory lists nothing and the device block reads as at reset. (R425, R430, R438, R449, R451) -/
def Obligations.ResetState : Prop :=
  (∀ p, p < 8 → (State.reset.part p).state = .none ∧ (State.reset.part p).tasks = [] ∧ (State.reset.part p).stopping = false)
  ∧ State.reset.groups = [] ∧ State.reset.teams = [] ∧ State.reset.slots = [] ∧ State.reset.keys = [] ∧ State.reset.sessions = [] ∧ State.reset.copies = []
  ∧ State.reset.dev = [] ∧ State.reset.host = [] ∧ State.reset.bank = [] ∧ State.reset.canonical
  ∧ State.reset.bootst = 8 ∧ State.reset.partDesc = 0 ∧ State.reset.partCmd = 0 ∧ State.reset.hostErr = 0 ∧ State.reset.cdmask = 0 ∧ State.reset.scanPer = 0 ∧ State.reset.unsealedOpen

/-- Every step keeps device memory, host memory and the shared banks in canonical form. (R295, R298, R299, R439) -/
def Obligations.CanonicalMemory : Prop :=
  ∀ s t : State, s.canonical → step s = .next t → t.canonical

/-- NOP has no effect beyond its beat and its stall count; every field but op and w is zero. (R89) -/
def Obligations.EmptyInstruction : Prop :=
  (∀ n l, n < 2 ^ 32 → fld n 24 8 = 0 → ((∃ w, decodeNat n l = .nop w) ↔ (fld n 0 4 = 0 ∧ fld n 6 18 = 0)) ∧ ∀ w, decodeNat n l = .nop w → w.toNat = fld n 4 2)
  ∧ (∀ s w, s.clear true [] = true → ∃ t, exec (.nop w) s = .next t ∧ Own s t s.me.sreg s.me.cm ∧ t.others = s.others ∧ s.sameMemory t
    ∧ t.me.busyFrom = s.now ∧ t.me.busyTo = s.now ∧ t.me.stallUntil = s.now + 1 + (([0, 2, 4, 8] : List Nat).getD w.toNat 0))

/-- BPERM forms each result byte from one nibble of b; no value of b faults. (R112) -/
def Obligations.BytePermute : Prop :=
  ∃ f : Word → Word → Word, BinaryForm .bperm (fun _ => true) (fun _ _ _ a b => (f a b, 0))
    ∧ (∀ a b k q, k < 4 → q = bits b (4 * k) 3 → (
      (q < 4 → bits (f a b) (8 * k) 8 = bits a (8 * q) 8)
      ∧ (q = 4 → bits (f a b) (8 * k) 8 = 0)
      ∧ (q = 5 → bits (f a b) (8 * k) 8 = 0xFF)
      ∧ (q = 6 → bits (f a b) (8 * k) 8 = if a.getLsbD 15 then 0xFF else 0)
      ∧ (q = 7 → bits (f a b) (8 * k) 8 = if a.getLsbD 31 then 0xFF else 0)))
    ∧ ∀ a b c, (∀ k, k < 4 → bits b (4 * k) 3 = bits c (4 * k) 3) → f a b = f a c

/-- SEL takes a where the predicate, inverted by f6[5], is 1, and b elsewhere; its reserved codes fault. (R114) -/
def Obligations.Select : Prop :=
  (∀ n l, n < 2 ^ 32 → fld n 24 8 = 0x3F → (fld n 4 1 = 0 → decodeNat n l = .sel (bvf n 18 6) (bvf n 12 6) (bvf n 6 6) (bit1 n 5) (bvf n 0 4))
    ∧ (fld n 4 1 = 1 → decodeNat n l = .illFormedWord (BitVec.ofNat 32 n)))
  ∧ (∀ s d a b inv p, Computes (.sel d a b inv p) s false (vr d && vr a && small p 12) [.v a.toNat, (srcB false b).use] [d.toNat] [] 4
      fun k => ([if xor (bit (s.me.preg p.toNat) k) inv then s.me.vlane a.toNat k else s.word (srcB false b) k], 0))
  ∧ (∀ (s : State) d a b inv (p : BitVec 4), 12 ≤ p.toNat → s.trapsToUser → ∃ t, exec (.sel d a b inv p) s = .next t ∧ Trapped s t (causeWord 0x03 0) s.active s.pc)
  ∧ (∀ (s : State) w, s.trapsToUser → ∃ t, exec (.illFormedWord w) s = .next t ∧ Trapped (s.withMe fun g => { g with ir := w }) t (causeWord 0x03 0) s.active s.pc)

/-- No step brings an unsealed partition to CONFIG_LOCKED or ERROR. (R439, R440) -/
def Obligations.UnsealedNeverLocked : Prop :=
  ∀ s t : State, s.unsealedOpen → step s = .next t → t.unsealedOpen

/-- Integer arithmetic writes its results, raises its flags and leaves the rest alone. (R107, R108, R109, R44, R82, R250) -/
def Obligations.IntegerArithmetic : Prop :=
  BinaryForm .iadd (fun _ => true) (fun s u _ p q => s.ints u true none (exact2 (· + ·)) p q 0)
  ∧ BinaryForm .isub (fun _ => true) (fun s u _ p q => s.ints u true none (exact2 (· - ·)) p q 0)
  ∧ BinaryForm .imul (fun _ => true) (fun s u _ p q => s.ints u true none (exact2 (· * ·)) p q 0)
  ∧ BinaryForm .imulh (fun _ => true) (fun s u _ p q => s.ints u false (some true) highHalf p q 0)
  ∧ BinaryForm .imulhu (fun _ => true) (fun s u _ p q => s.ints u false (some false) highHalf p q 0)
  ∧ TernaryForm .imad (fun _ => true) (fun s u _ p q r => s.ints u true none (fun _ _ a b c => (a * b + c, 0)) p q r)
  ∧ BinaryForm .idiv (fun _ => true) (fun s u _ p q => s.ints u true (some true) divide p q 0)
  ∧ BinaryForm .idivu (fun _ => true) (fun s u _ p q => s.ints u true (some false) divide p q 0)
  ∧ BinaryForm .irem (fun _ => true) (fun s u _ p q => s.ints u true (some true) remainder p q 0)
  ∧ BinaryForm .iremu (fun _ => true) (fun s u _ p q => s.ints u true (some false) remainder p q 0)
  ∧ BinaryForm .imin (fun _ => true) (fun s u _ p q => s.ints u false (some true) (exact2 min) p q 0)
  ∧ BinaryForm .imax (fun _ => true) (fun s u _ p q => s.ints u false (some true) (exact2 max) p q 0)
  ∧ BinaryForm .iminu (fun _ => true) (fun s u _ p q => s.ints u false (some false) (exact2 min) p q 0)
  ∧ BinaryForm .imaxu (fun _ => true) (fun s u _ p q => s.ints u false (some false) (exact2 max) p q 0)
  ∧ UnaryForm .iabs (fun _ => true) (fun s u _ p => s.ints u true (some true) (fun _ _ a _ _ => (a.natAbs, 0)) p 0 0)
  ∧ UnaryForm .ineg (fun _ => true) (fun s u _ p => s.ints u true (some true) (fun _ _ a _ _ => (-a, 0)) p 0 0)

/-- Logic, shifts, bit fields, byte permute, funnel shift and select write their results and nothing else. (R110, R111, R112, R113, R114, R82) -/
def Obligations.LogicAndShifts : Prop :=
  BinaryForm .and (fun _ => true) (fun _ _ _ p q => (p &&& q, 0))
  ∧ BinaryForm .or (fun _ => true) (fun _ _ _ p q => (p ||| q, 0))
  ∧ BinaryForm .xor (fun _ => true) (fun _ _ _ p q => (p ^^^ q, 0))
  ∧ BinaryForm .andn (fun _ => true) (fun _ _ _ p q => (p &&& ~~~q, 0))
  ∧ BinaryForm .shl (fun _ => true) (fun _ _ _ p q => (if q.toNat < 32 then p <<< q.toNat else 0, 0))
  ∧ BinaryForm .shr (fun _ => true) (fun _ _ _ p q => (if q.toNat < 32 then p >>> q.toNat else 0, 0))
  ∧ BinaryForm .shra (fun _ => true) (fun _ _ _ p q => (if q.toNat < 32 then p.sshiftRight q.toNat else if p.msb then 0xFFFFFFFF else 0, 0))
  ∧ BinaryForm .rotl (fun _ => true) (fun _ _ _ p q => (p.rotateLeft (q.toNat % 32), 0))
  ∧ UnaryForm .popc (fun _ => true) (fun _ _ _ p => (BitVec.ofNat 32 ((List.range 32).countP p.getLsbD), 0))
  ∧ UnaryForm .clz (fun _ => true) (fun _ _ _ p => (if p = 0 then 32 else BitVec.ofNat 32 (31 - p.toNat.log2), 0))
  ∧ UnaryForm .brev (fun _ => true) (fun _ _ _ p => (p.reverse, 0))
  ∧ (∀ s d a b u sx, Computes (.bfx d a b u sx) s u (rd u d && Sys2Proof.rs u a) [(srcA u a).use, (srcB u b).use] [d.toNat] [] 4
      fun k => ([extract sx (s.word (srcA u a) k) (s.word (srcB u b) k)], 0))
  ∧ (∀ s d a b u, Computes (.bfi d a b u) s u (rd u d && Sys2Proof.rs u a) [(srcA u a).use, (srcB u b).use, (srcA u d).use] [d.toNat] [] 4
      fun k => ([insert (s.word (srcA u a) k) (s.word (srcB u b) k) (s.word (srcA u d) k)], 0))
  ∧ BinaryForm .bperm (fun _ => true) (fun _ _ _ p q =>
      (BitVec.ofNat 32 (leNat ((List.range 4).map fun k => BitVec.ofNat 8 (permByte p (bits q (4 * k) 3)))), 0))
  ∧ TernaryForm .fshf (fun _ => true) (fun _ _ _ p q r => (lo32 (pair p q >>> bits r 0 5), 0))
  ∧ (∀ s d a b n p, Computes (.sel d a b n p) s false (vr d && vr a && small p 12) [.v a.toNat, (srcB false b).use] [d.toNat] [] 4
      fun k => ([if bit (s.me.preg p.toNat) k != n then s.me.vlane a.toNat k else s.word (srcB false b) k], 0))

/-- Moves, immediates and address arithmetic write their results and nothing else. (R115, R116, R117, R27, R21, R10) -/
def Obligations.MovesAndAddresses : Prop :=
  (∀ s d b w u y, Computes (.mov d b w u y) s u (rd u d && kx u y) [(srcB u b).use] [d.toNat] (markB u y b) 4 fun k => ([s.word (srcB u b) k], 0))
  ∧ (∀ s d u i, Computes (.movi d u i) s u (rd u d) [] [d.toNat] [] 4 fun _ => ([i.signExtend 32], 0))
  ∧ (∀ s d u lit, Computes (.ldcw d u lit) s u (rd u d) [] [d.toNat] [] 8 fun _ => ([lit], 0))
  ∧ (∀ s d a w, Computes (.movs d a w) s false (vr d) [.s a.toNat] [d.toNat] [] 4 fun _ => ([s.rs a.toNat], 0))
  ∧ ImmediateForm .addi (fun _ => true) (fun i x => x + i.signExtend 32)
  ∧ ImmediateForm .muli (fun _ => true) (fun i x => x * i.signExtend 32)
  ∧ ImmediateForm .andi (fun _ => true) (fun i x => x &&& i.signExtend 32)
  ∧ ImmediateForm .ori (fun _ => true) (fun i x => x ||| i.signExtend 32)
  ∧ ImmediateForm .xori (fun _ => true) (fun i x => x ^^^ i.signExtend 32)
  ∧ ImmediateForm .shli (fun i => small i 32) (fun i x => x <<< i.toNat)
  ∧ ImmediateForm .shri (fun i => small i 32) (fun i x => x >>> i.toNat)
  ∧ ImmediateForm .shrai (fun i => small i 32) (fun i x => x.sshiftRight i.toNat)
  ∧ (∀ s d a b w u x y, AddressForm (.aadd d a b w u x y) s d a b u x y fun p q => p + q.signExtend 64)
  ∧ (∀ s d a b u e h, AddressForm (.alea d a b u e h) s d a b u false false
      fun p q => p + (if e then q.signExtend 64 else q.setWidth 64) * BitVec.ofNat 64 (2 ^ h.toNat))
  ∧ (∀ s d a u i, Computes (.aaddi d a u i) s u (pr u d && pr u a) (pairUse u a) [d.toNat, d.toNat + 1] [] 4
      fun k => ([lo32 (s.dword (srcA u a) k + i.signExtend 64), hi32 (s.dword (srcA u a) k + i.signExtend 64)], 0))
  ∧ (∀ s d a b w u x y, Computes (.asub d a b w u x y) s u (pr u d && pr u a && pr u b && kx u x && kx u y) (pairUse u a ++ pairUse u b)
      [d.toNat, d.toNat + 1] (markPair u x a ++ markPair u y b) 4
      fun k => ([lo32 (s.dword (srcA u a) k - s.dword (srcA u b) k), hi32 (s.dword (srcA u a) k - s.dword (srcA u b) k)], 0))

/-- Integer compares and predicate operations write a predicate pair, a predicate or one CM bit. (R118, R119, R82, R250) -/
def Obligations.ComparesAndPredicates : Prop :=
  CompareForm .iceq (fun _ => true) (fun _ p q => (decide (p = q), 0))
  ∧ CompareForm .icne (fun _ => true) (fun _ p q => (decide (p ≠ q), 0))
  ∧ CompareForm .iclt (fun _ => true) (fun _ p q => (decide (p.toInt < q.toInt), 0))
  ∧ CompareForm .icle (fun _ => true) (fun _ p q => (decide (p.toInt ≤ q.toInt), 0))
  ∧ CompareForm .icltu (fun _ => true) (fun _ p q => (decide (p.toNat < q.toNat), 0))
  ∧ CompareForm .icleu (fun _ => true) (fun _ p q => (decide (p.toNat ≤ q.toNat), 0))
  ∧ CompareImmediateForm .iceqi (fun i p => decide (p = i.signExtend 32))
  ∧ CompareImmediateForm .iclti (fun i p => decide (p.toInt < i.toInt))
  ∧ PredicateForm .pand (fun p q => p && q)
  ∧ PredicateForm .por (fun p q => p || q)
  ∧ PredicateForm .pxor (fun p q => xor p q)
  ∧ PredicateForm .pandn (fun p q => p && !q)

/-- Floating-point arithmetic under ET delivers its elements, raises their flags and leaves the rest alone. (R121, R123, R126, R127, R128, R130, R131, R132, R82) -/
def Obligations.FloatArithmetic : Prop :=
  BinaryForm .fadd State.floatET (fun s _ k p q => s.rounded k (fun rm a b _ => Fp.add rm a b) p q 0) State.drawing
  ∧ BinaryForm .fsub State.floatET (fun s _ k p q => s.rounded k (fun rm a b _ => Fp.add rm a b.flip) p q 0) State.drawing
  ∧ BinaryForm .fmul State.floatET (fun s _ k p q => s.rounded k (fun _ a b _ => Fp.mul a b) p q 0) State.drawing
  ∧ TernaryForm .ffma State.floatET (fun s _ k p q r => s.rounded k (fun rm a b c => Fp.fma rm a b c) p q r) State.drawing
  ∧ TernaryForm .ffms State.floatET (fun s _ k p q r => s.rounded k (fun rm a b c => Fp.fma rm a b c.flip) p q r) State.drawing
  ∧ TernaryForm .fnma State.floatET (fun s _ k p q r => s.rounded k (fun rm a b c => Fp.fma rm a.flip b c) p q r) State.drawing
  ∧ BinaryForm .fdiv State.floatET (fun s _ k p q => s.rounded k (fun _ a b _ => Fp.div a b) p q 0) State.drawing
  ∧ UnaryForm .fsqrt State.floatET (fun s _ k p => s.rounded k (fun _ a _ _ => Fp.sqrt a) p 0 0) State.drawing
  ∧ UnaryForm .ffrac State.floatET (fun s _ k p => s.rounded k (fun _ a _ _ => a.frac) p 0 0) State.drawing
  ∧ UnaryForm .frnd State.floatET (fun s _ k p => s.floats (fun i x _ _ => (etFmt s.me.mode).integral (s.env k i) x) p 0 0) State.drawing
  ∧ BinaryForm .fscale State.floatET (fun s _ k p q => s.floats (fun i x y _ => (etFmt s.me.mode).scale (s.env k i) x y) p q 0) State.drawing
  ∧ BinaryForm .fmin State.floatET (fun s _ _ p q => s.unrounded (minMax false) p q)
  ∧ BinaryForm .fmax State.floatET (fun s _ _ p q => s.unrounded (minMax true) p q)
  ∧ UnaryForm .fabs State.floatET (fun s _ _ p => (p &&& ~~~ signBits s.me.mode, 0))
  ∧ UnaryForm .fneg State.floatET (fun s _ _ p => (p ^^^ signBits s.me.mode, 0))
  ∧ BinaryForm .fcpys State.floatET (fun s _ _ p q => ((p &&& ~~~ signBits s.me.mode) ||| (q &&& signBits s.me.mode), 0))
  ∧ UnaryForm .fclass State.floatET (fun s _ _ p => s.unrounded (fun f _ x _ => (2 ^ f.classOf x, 0)) p 0)
  ∧ UnaryForm .fsat State.floatET (fun s _ _ p => s.unrounded clampUnit p 0)

/-- Float and pair compares write a predicate pair or one CM bit and raise NV as stated. (R129, R143, R144, R82) -/
def Obligations.FloatCompares : Prop :=
  FloatCompareForm .fceq true (fun p q => (!p.isNan && !q.isNan && decide (Fp.order p q = 0), nvOf [p, q]))
  ∧ FloatCompareForm .fcne false (fun p q => (p.isNan || q.isNan || decide (Fp.order p q ≠ 0), nvOf [p, q]))
  ∧ FloatCompareForm .fclt true (fun p q => if p.isNan || q.isNan then (false, fNV) else (decide (Fp.order p q < 0), 0))
  ∧ FloatCompareForm .fcle true (fun p q => if p.isNan || q.isNan then (false, fNV) else (decide (Fp.order p q ≤ 0), 0))
  ∧ FloatCompareForm .fcun false (fun p q => (p.isNan || q.isNan, nvOf [p, q]))
  ∧ ComparePairForm .dwclt (fpOrd fun o => decide (o < 0))
  ∧ ComparePairForm .dwceq fpEq

/-- The special functions deliver each element evaluated and rounded once to nearest even. (R134, R135, R136, R82) -/
def Obligations.SpecialFunctions : Prop :=
  ∀ mk f, (mk, f) ∈ ([(.frcp, Fmt.rcp), (.frsq, Fmt.rsq), (.fexp2, Fmt.exp2), (.flog2, Fmt.log2), (.fsin, Fmt.sin), (.fcos, Fmt.cos),
      (.ftanh, Fmt.tanh), (.fsig, Fmt.sig)] : List ((BitVec 6 → BitVec 6 → BitVec 2 → Bool → Bool → Instr) × (Fmt → Env → Fp → Nat × Nat))) →
    UnaryForm mk State.floatET fun s _ _ p => s.unrounded (fun t ftz x _ => f t { ftz := ftz } (t.unpack ftz x)) p 0

/-- Result pairs and double-word arithmetic write hi to d and lo to d + 1. (R138, R139, R142, R143, R144, R82) -/
def Obligations.ResultPairs : Prop :=
  (∀ mk px f, (mk, px, f) ∈ ([(.fadde, false, Fp.add 0), (.fsube, false, fun p q => Fp.add 0 p q.flip), (.fmule, true, Fp.mul)] :
      List ((BitVec 6 → BitVec 6 → BitVec 6 → BitVec 2 → Bool → Bool → Bool → Instr) × Bool × (Fp → Fp → Res))) →
    ∀ s d a b w u x y, Computes (mk d a b w u x y) s u (pr u d && Sys2Proof.rs u a && kx u x && kx u y) [(srcA u a).use, (srcB u b).use]
      [d.toNat, d.toNat + 1] (markA u x a ++ markB u y b) 4 fun k =>
        let ftz := modeFTZ s.me.mode
        let r := pairRes ftz px (f (fp32.unpack ftz (s.word (srcA u a) k).toNat) (fp32.unpack ftz (s.word (srcB u b) k).toNat))
        ([BitVec.ofNat 32 r.1, BitVec.ofNat 32 r.2.1], r.2.2))
  ∧ (∀ s d a w u x z, Computes (.facc d a w u x z) s u (pr u d && Sys2Proof.rs u a && kx u x && kx u z) ([(srcA u a).use] ++ pairUse u d)
      [d.toNat, d.toNat + 1] (markA u x a ++ markPair u z d) 4 fun k =>
        dwBinary (Fp.add 0) (fun h l y _ => dwAddF h l y) (s.fval (srcA u d) k) (s.fval ((srcA u d).plus 1) k) (s.fval (srcA u a) k) plusZero)
  ∧ PairForm .dwadd (dwBinary (Fp.add 0) dwAdd)
  ∧ PairForm .dwsub (fun xh xl yh yl => dwBinary (Fp.add 0) dwAdd xh xl yh.flip yl.flip)
  ∧ PairForm .dwmul (dwBinary Fp.mul dwMul)
  ∧ PairForm .dwdiv (dwBinary Fp.div dwDivide)
  ∧ PairWordForm .dwaddf (fun h l y => dwBinary (Fp.add 0) (fun h l y _ => dwAddF h l y) h l y plusZero)
  ∧ PairWordForm .dwmulf (fun h l y => dwBinary Fp.mul (fun h l y _ => dwMulF h l y) h l y plusZero)
  ∧ PairUnaryForm .dwsqrt dwRoot
  ∧ PairUnaryForm .dwnorm dwNormal
  ∧ (∀ s d a w u x, Computes (.dwtof d a w u x) s u (rd u d && pr u a && kx u x) (pairUse u a) [d.toNat] (markPair u x a) 4 (fun k =>
      let v := s.env k 0
      let h := fp32.unpack false (s.word (srcA u a) k).toNat
      let l := fp32.unpack false (s.word ((srcA u a).plus 1) k).toNat
      let r := match pairValue h l with
        | .nan q => (fp32.nan, if q then fNV else 0)
        | .inf n => (fp32.inf n, 0)
        | .fin _ _ _ => fp32.deliver v (Fp.add v.rm h l)
      ([BitVec.ofNat 32 r.1], r.2)) s.drawing)

/-- Conversions, packs and unpacks write their results and nothing else. (R146, R147, R148, R149, R150, R151, R82) -/
def Obligations.Conversions : Prop :=
  (∀ s d a t u f, Computes (.cvtff d a t u f) s u (rd u d && Sys2Proof.rs u a && (small t 7 && small f 7)) [(srcA u a).use] [d.toNat] [] 4 (fun k =>
      let src := floatCode f.toNat
      let r := convertFloat src (floatCode t.toNat) (s.convEnv k 0 32) ((s.word (srcA u a) k).toNat % 2 ^ src.width)
      ([BitVec.ofNat 32 r.1], r.2)) s.drawing)
  ∧ (∀ s d a t u f, Computes (.cvtfi d a t u f) s u (rd u d && Sys2Proof.rs u a && (small t 7 && small f 7)) [(srcA u a).use] [d.toNat] [] 4 (fun k =>
      let src := floatCode f.toNat
      let r := convertToInt src (integerCode t.toNat).2 (integerCode t.toNat).1 (s.convEnv k 0 32) ((s.word (srcA u a) k).toNat % 2 ^ src.width)
      ([BitVec.ofInt 32 r.1], r.2)) s.drawing)
  ∧ (∀ s d a t u f, Computes (.cvtif d a t u f) s u (rd u d && Sys2Proof.rs u a && (small t 7 && small f 7)) [(srcA u a).use] [d.toNat] [] 4 (fun k =>
      let i := integerCode f.toNat
      let r := convertFromInt (floatCode t.toNat) (s.convEnv k 0 32) (intVal i.2 i.1 ((s.word (srcA u a) k).toNat % 2 ^ i.1))
      ([BitVec.ofNat 32 r.1], r.2)) s.drawing)
  ∧ (∀ s d a b u c, Computes (.pack d a b u c) s u (rd u d && Sys2Proof.rs u a && packCode c) [(srcA u a).use, (srcB u b).use] [d.toNat] [] 4 (fun k =>
      let lo := narrow c.toNat (s.convEnv k 0 32) (s.word (srcA u a) k)
      let hi := narrow c.toNat (s.convEnv k 32 32) (s.word (srcB u b) k)
      ([BitVec.ofNat 32 (lo.1 + 2 ^ 16 * hi.1)], lo.2 ||| hi.2)) s.drawing)
  ∧ (∀ s d a u c, Computes (.unpk d a u c) s u (pr u d && Sys2Proof.rs u a && packCode c) [(srcA u a).use] [d.toNat, d.toNat + 1] [] 4 (fun k =>
      let lo := widen c.toNat (bits (s.word (srcA u a) k) 0 16)
      let hi := widen c.toNat (bits (s.word (srcA u a) k) 16 16)
      ([BitVec.ofNat 32 lo.1, BitVec.ofNat 32 hi.1], lo.2 ||| hi.2)) s.drawing)
  ∧ (∀ s d a b u c, Computes (.pack8 d a b u c) s u (rd u d && pr u a && pr u b && pack8Code c)
      [(srcA u a).use, ((srcA u a).plus 1).use, (srcA u b).use, ((srcA u b).plus 1).use] [d.toNat] [] 4 (fun k =>
        let r := fun i (x : Src) => narrow c.toNat (s.convEnv k (16 * i) 16) (s.word x k)
        let r0 := r 0 (srcA u a)
        let r1 := r 1 ((srcA u a).plus 1)
        let r2 := r 2 (srcA u b)
        let r3 := r 3 ((srcA u b).plus 1)
        ([BitVec.ofNat 32 (r0.1 + 2 ^ 8 * r1.1 + 2 ^ 16 * r2.1 + 2 ^ 24 * r3.1)], orFlags [r0.2, r1.2, r2.2, r3.2])) s.drawing)
  ∧ (∀ s d a u c, Computes (.unpk8 d a u c) s u (mult 4 u d && Sys2Proof.rs u a && pack8Code c) [(srcA u a).use] ((List.range 4).map (d.toNat + ·)) [] 4 (fun k =>
      let rs := (List.range 4).map fun i => widen c.toNat (bits (s.word (srcA u a) k) (8 * i) 8)
      (rs.map fun r => BitVec.ofNat 32 r.1, orFlags (rs.map (·.2)))) s.drawing)
  ∧ (∀ s d a b u t, Computes (.qnt4 d a b u t) s u (rd u d && mult 8 u a) ((srcB u b).use :: (List.range 8).map (fun i => ((srcA u a).plus i).use)) [d.toNat] [] 4 (fun k =>
      let y := (s.word (srcB u b) k).toNat
      let rs := (List.range 8).map fun i => quantise t (s.convEnv k (8 * i) 8) (s.word ((srcA u a).plus i) k).toNat y
      ([BitVec.ofNat 32 (joinElems 4 (rs.map (·.1)))], orFlags (rs.map (·.2)))) s.drawing)

/-- RAND and RANDF write the draw of each active lane, or of the scalar stream, and advance those streams. (R152, R153, R154) -/
def Obligations.RandomDraws : Prop :=
  (∀ s d b w u, Computes (.rand d b w u) s u (small b 2 && (if b = 1 then pr u d else rd u d)) [] (if b = 1 then [d.toNat, d.toNat + 1] else [d.toNat]) [] 4
      (fun k => (if b = 1 then [lo32 (s.draw k), hi32 (s.draw k)] else [lo32 (s.draw k)], 0)) true)
  ∧ (∀ s d w u, Computes (.randf d w u) s u (rd u d) [] [d.toNat] [] 4
      (fun k => ([BitVec.ofNat 32 (fp32.round {} { m := bits (s.draw k) 40 24, e := -24 }).1], 0)) true)

/-- Shuffles give each active lane the word of its source lane under EDGE; BCAST spreads one lane. (R158, R159, R160) -/
def Obligations.ShufflesAndBroadcast : Prop :=
  (∀ s d a b w x y, Shuffles (.shfl d a b w x y) s (vr d && vr a && vr b) [.vw b.toNat] d a ((if x then [a.toNat] else []) ++ (if y then [b.toNat] else []))
      fun k => (s.laneWhole b.toNat k).toNat)
  ∧ (∀ s d a b w x, Shuffles (.shflx d a b w x) s (vr d && vr a) [.s b.toNat] d a (if x then [a.toNat] else [])
      fun k => (k ^^^ bits (s.rs b.toNat) 0 6 : Nat))
  ∧ (∀ s d a i, Shuffles (.shflu d a i) s (vr d && vr a && small i 64) [] d a [] fun k => (k : Int) - i.toNat)
  ∧ (∀ s d a i, Shuffles (.shfld d a i) s (vr d && vr a && small i 64) [] d a [] fun k => (k : Int) + i.toNat)
  ∧ (∀ s d a sc l, Computes (.bcast d a sc l) s sc (rd sc d && vr a && decide (l.toNat < s.me.width.lanes)) [.vw a.toNat] [d.toNat] [] 4
      fun _ => ([s.laneWhole a.toNat l.toNat], 0))

/-- VOTEANY and VOTEALL write their outcome to a predicate pair in every active lane; BALLOT gives the mask of the lanes. (R158, R161) -/
def Obligations.VotesAndBallot : Prop :=
  (∀ s d a b w, (small d 6 && small a 12 && small b 2) = true → s.clear false [.p a.toNat] = true →
      ∃ t, exec (.voteany d a b w) s = .next t ∧ Computed s t s.me.sreg s.me.vlane (s.votesWith d.toNat (s.voters a b s.active != 0)) s.me.cm 0 [] (s.pc + 4))
  ∧ (∀ s d a b w, (small d 6 && small a 12 && small b 2) = true → s.clear false [.p a.toNat] = true →
      ∃ t, exec (.voteall d a b w) s = .next t ∧
        Computed s t s.me.sreg s.me.vlane (s.votesWith d.toNat (s.voters a b s.active == s.active)) s.me.cm 0 [] (s.pc + 4))
  ∧ (∀ s d a b w, Computes (.ballot d a b w) s false (vpair d && small a 12 && small b 2) [.p a.toNat] [d.toNat, d.toNat + 1] [] 4
      fun _ => ([lo32 (s.voters a b s.active), hi32 (s.voters a b s.active)], 0))

/-- Scans give each active lane its running value, reductions give the last one to scalar registers. (R155, R158, R162, R163, R164, R165) -/
def Obligations.ScansAndReductions : Prop :=
  (∀ s d a b w x, Computes (.scanadd d a b w x) s false (vr d && vr a && small b 2) [.vw a.toNat] [d.toNat] (if x then [a.toNat] else []) 4
      fun k => match (s.runAdd a.toNat s.active).find? (·.1 == k) with
        | some r => ([if b == 1 then r.2.1.getD 0 else r.2.2.1], r.2.2.2)
        | none => ([], 0))
  ∧ (∀ s d a b w x, Computes (.scanfadd d a b w x) s false (vr d && vr a && small b 2 && s.floatET) [.vw a.toNat] [d.toNat] (if x then [a.toNat] else []) 4
      (fun k => match (s.runFadd a.toNat s.active).find? (·.1 == k) with
        | some r => ([if b == 1 then r.2.1.getD 0 else r.2.2.1], r.2.2.2)
        | none => ([], 0)) s.drawing)
  ∧ (∀ s d a w x, Reduces (.redadd d a w x) s (vr a) [.vw a.toNat] [d.toNat] (if x then [a.toNat] else [])
      [((s.runAdd a.toNat s.active).getLast?.map (·.2.2.1)).getD 0] (orFlags ((s.runAdd a.toNat s.active).map (·.2.2.2))))
  ∧ (∀ s d a w x, Reduces (.redfadd d a w x) s (vr a && s.floatET) [.vw a.toNat] [d.toNat] (if x then [a.toNat] else [])
      [((s.runFadd a.toNat s.active).getLast?.map (·.2.2.1)).getD 0] (orFlags ((s.runFadd a.toNat s.active).map (·.2.2.2))) s.drawing)
  ∧ (∀ s d a b w x, Reduces (.redmin d a b w x) s (vr a && small b 3 && (b != 2 || s.floatET)) [.vw a.toNat] [d.toNat] (if x then [a.toNat] else [])
      (s.extremeOf false a b).1 (orFlags ((s.extremeOf false a b).2.map (·.2))))
  ∧ (∀ s d a b w x, Reduces (.redmax d a b w x) s (vr a && small b 3 && (b != 2 || s.floatET)) [.vw a.toNat] [d.toNat] (if x then [a.toNat] else [])
      (s.extremeOf true a b).1 (orFlags ((s.extremeOf true a b).2.map (·.2))))
  ∧ (∀ s d a w x, Reduces (.redsumc d a w x) s (even d && vr a) [.vw a.toNat] [d.toNat, d.toNat + 1] (if x then [a.toNat] else [])
      (s.sumOf a).1 (orFlags ((s.sumOf a).2.map (·.2))))
  ∧ (∀ s d a b w x y, Reduces (.reddotc d a b w x y) s (even d && vr a && vr b) [.vw a.toNat, .vw b.toNat] [d.toNat, d.toNat + 1]
      ((if x then [a.toNat] else []) ++ (if y then [b.toNat] else [])) (s.dotOf a b).1 (orFlags ((s.dotOf a b).2.map (·.2))))
  ∧ (∀ s d a b w x, Reduces (.catsamp d a b w x) s (vr a) [.vw a.toNat, .s b.toNat] [d.toNat] (if x then [a.toNat] else [])
      [(s.sampleOf a b).1] (s.sampleOf a b).2)

/-- NOP, branches, jumps, RET, LEAVE and YIELD move the path as stated and change no register. (R23, R83, R84, R85, R86, R88, R89, R91, R92, R95) -/
def Obligations.ControlTransfers : Prop :=
  (∀ s w, s.clear true [] = true → ∃ t, exec (.nop w) s = .next t ∧ Moves s t (s.pc + 4))
  ∧ (∀ s i, s.clear true [] = true → ∃ t, exec (.jmp i) s = .next t ∧ Moves s t (s.pc + i.signExtend 64 * 4))
  ∧ (∀ s n p i, testOk n p = true → s.clear true (testUse p) = true →
      ∃ t, exec (.brany n p i) s = .next t ∧ Moves s t (if s.testLanes n p = 0 then s.pc + 4 else s.pc + i.signExtend 64 * 4))
  ∧ (∀ s n p i, testOk n p = true → s.clear true (testUse p) = true →
      ∃ t, exec (.brall n p i) s = .next t ∧ Moves s t (if s.testLanes n p = s.exm then s.pc + i.signExtend 64 * 4 else s.pc + 4))
  ∧ (∀ s c i, s.clear true [.cmBit c.toNat] = true →
      ∃ t, exec (.brc c i) s = .next t ∧ Moves s t (if s.cmNow.getLsbD c.toNat then s.pc + i.signExtend 64 * 4 else s.pc + 4))
  ∧ (∀ s n p i, testOk n p = true → s.clear true (testUse p) = true → s.testLanes n p = 0 ∨ s.testLanes n p = s.path.member →
      ∃ t, exec (.bra n p i) s = .next t ∧ Moves s t (if s.testLanes n p = 0 then s.pc + 4 else s.pc + i.signExtend 64 * 4))
  ∧ (∀ s n p i q, testOk n p = true → s.clear true (testUse p) = true → s.testLanes n p ≠ 0 → s.testLanes n p ≠ s.path.member → s.unspilled →
      s.me.freeEntries.head? = some q → q < 8 → s.path.join ≠ some (pc56 (s.pc + i.signExtend 64 * 4)) → s.path.join ≠ some (pc56 (s.pc + 4)) →
      ∃ t c o, exec (.bra n p i) s = .next t ∧ Kept s t ∧ t.me.path? q = some c ∧ t.me.path? s.me.cur = some o
        ∧ c.pc = pc56 (s.pc + i.signExtend 64 * 4) ∧ c.member = s.testLanes n p ∧ c.exm = s.testLanes n p ∧ c.join = s.path.join ∧ c.parent = s.path.parent ∧ c.state = .ready
        ∧ t.me.cur = s.me.cur ∧ o.join = s.path.join ∧ o.parent = s.path.parent
        ∧ o.pc = pc56 (s.pc + 4) ∧ o.member = s.path.member &&& ~~~s.testLanes n p ∧ o.exm = s.exm &&& ~~~s.testLanes n p)
  ∧ (∀ s w, (s.scopeKind == .call) = true → s.clear true [] = true → ∃ t, exec (.ret w) s = .next t ∧ Kept s t
      ∧ ∀ a j o, s.unspilled → s.path.state = .ready → s.path.parked = none → s.path.causeWaits = false → s.path.join = some (pc56 a) → s.path.parent = some j →
        s.me.path? j = some o → o.state = .joined → Joins s t j o s.me.loops)
  ∧ (∀ s c k, loopNo c.toNat = some k → (s.me.loops[k].active && s.scopeKind == .loop k) = true → s.clear true [] = true →
      ∃ t, exec (.leave c) s = .next t ∧ Kept s t
      ∧ ∀ a j o, s.unspilled → s.path.state = .ready → s.path.parked = none → s.path.causeWaits = false → s.path.join = some (pc56 a) → s.path.parent = some j →
        s.me.path? j = some o → o.state = .joined → Joins (s.withMe fun g => { g with loops := g.loops.set k { g.loops[k] with count := 1 } }) t j o
          (s.me.loops.set k { s.me.loops[k] with count := 0, active := false }))
  ∧ (∀ s w, s.clear true [] = true → ∃ t, exec (.yield w) s = .next t ∧ Moves s t (s.pc + 4) ∧ t.me.yielded = true ∧ t.me.busyFrom = s.now ∧ t.me.busyTo = s.now
      ∧ (s.unspilled → s.path.join ≠ some (pc56 (s.pc + 4)) →
        t.path.yields = s.me.entries.filter fun n => n != s.me.cur && decide (n < 8) && (s.me.path n).canIssue))

/-- JPT, CALL, CALLI, LOOP and LOOPK open a scope on a free entry, or go on where nothing is to be done. (R85, R87, R90, R17) -/
def Obligations.ScopesCallsAndLoops : Prop :=
  (∀ s i q, s.clear true [.exm] = true → s.unspilled → s.me.freeEntries.head? = some q → q < 8 → pc56 (s.pc + 4) ≠ s.jTarget i →
      ∃ t, exec (.jpt i) s = .next t ∧ Opens s t q s.path.member s.exm .plain (pc56 (s.pc + 4)) (s.jTarget i))
  ∧ (∀ s n p i, testOk n p = true → s.clear true (testUse p) = true → s.testLanes n p = 0 → ∃ t, exec (.call n p i) s = .next t ∧ Moves s t (s.pc + 4))
  ∧ (∀ s n p i q, testOk n p = true → s.clear true (testUse p) = true → s.testLanes n p ≠ 0 → s.path.member &&& ~~~s.testLanes n p = 0 → s.unspilled →
      s.me.freeEntries.head? = some q → q < 8 → s.jTarget i ≠ pc56 (s.pc + 4) →
      ∃ t, exec (.call n p i) s = .next t ∧ Opens s t q (s.testLanes n p) (s.testLanes n p) .call (s.jTarget i) (pc56 (s.pc + 4)))
  ∧ (∀ s n p i q k r, testOk n p = true → s.clear true (testUse p) = true → s.testLanes n p ≠ 0 → s.path.member &&& ~~~s.testLanes n p ≠ 0 → s.unspilled →
      s.me.freeEntries = q :: k :: r → k < 8 → s.jTarget i ≠ pc56 (s.pc + 4) →
      ∃ t c w o, exec (.call n p i) s = .next t ∧ Kept s t ∧ t.me.path? q = some c ∧ t.me.path? k = some w ∧ t.me.path? s.me.cur = some o
        ∧ c.pc = s.jTarget i ∧ c.member = s.testLanes n p ∧ c.exm = s.testLanes n p ∧ c.join = some (pc56 (s.pc + 4)) ∧ c.parent = some s.me.cur
        ∧ w.pc = pc56 (s.pc + 4) ∧ w.member = s.path.member &&& ~~~s.testLanes n p ∧ w.exm = s.exm &&& ~~~s.testLanes n p ∧ w.state = .waiting
        ∧ w.parent = some s.me.cur ∧ o.state = .joined ∧ o.kind = .call ∧ o.pc = pc56 (s.pc + 4))
  ∧ (∀ s a w q, even a = true → s.clear true [.exm, .s a.toNat, .s (a.toNat + 1)] = true → bits (s.rpair a.toNat) 56 8 = 0 → bits (s.rpair a.toNat) 0 2 = 0 →
      s.exm ≠ 0 → s.path.member &&& ~~~s.exm = 0 → s.unspilled → s.me.freeEntries.head? = some q → q < 8 → s.rpair a.toNat ≠ pc56 (s.pc + 4) →
      ∃ t, exec (.calli a w) s = .next t ∧ Opens s t q s.exm s.exm .call (s.rpair a.toNat) (pc56 (s.pc + 4)))
  ∧ (∀ s d a i n q, loopNo d.toNat = some n → (small i 1024 && !s.me.loops[n].active) = true → s.clear true [.exm, .s a.toNat] = true → s.rs a.toNat ≠ 0 →
      s.unspilled → s.me.freeEntries.head? = some q → q < 8 →
      ∃ t, exec (.loop d a i) s = .next t ∧ t.me.loops[n] = { count := s.rs a.toNat, start := pc56 (s.pc + 4), len := BitVec.ofNat 11 i.toNat, active := true }
        ∧ Opens s t q s.path.member s.exm (.loop n) (pc56 (s.pc + 4)) (pc56 (pc56 (s.pc + 4) + BitVec.ofNat 64 (4 * (i.toNat + 1)))))
  ∧ (∀ s d a i n, loopNo d.toNat = some n → (small i 1024 && !s.me.loops[n].active) = true → s.clear true [.exm, .s a.toNat] = true → s.rs a.toNat = 0 →
      ∃ t, exec (.loop d a i) s = .next t ∧ Moves s t (pc56 (s.pc + 4) + BitVec.ofNat 64 (4 * (i.toNat + 1))))
  ∧ (∀ s c l m n q, loopNo c.toNat = some n → s.me.loops[n].active = false → s.clear true [.exm] = true → m ≠ 0 →
      s.unspilled → s.me.freeEntries.head? = some q → q < 8 →
      ∃ t, exec (.loopk c l m) s = .next t ∧ t.me.loops[n] = { count := m.setWidth 32, start := pc56 (s.pc + 4), len := BitVec.ofNat 11 l.toNat, active := true }
        ∧ Opens s t q s.path.member s.exm (.loop n) (pc56 (s.pc + 4)) (pc56 (pc56 (s.pc + 4) + BitVec.ofNat 64 (4 * (l.toNat + 1)))))

/-- MODE, MODEF, MODERD and the execution-mask instructions. (R33, R34, R100, R101, R102) -/
def Obligations.ModeAndMasks : Prop :=
  (∀ s a w, modeLegal (s.rs a.toNat) = true → s.clear true [.s a.toNat] = true →
      ∃ t, exec (.mode a w) s = .next t ∧ Moves (s.withMe fun g => { g with mode := s.rs a.toNat }) t (s.pc + 4))
  ∧ (∀ s d i m, m = setBits s.me.mode (modeField d.toNat).1 (modeField d.toNat).2 i.toNat → (modefOk d i && modeLegal m) = true → s.clear true [] = true →
      ∃ t, exec (.modef d i) s = .next t ∧ Moves (s.withMe fun g => { g with mode := m }) t (s.pc + 4))
  ∧ (∀ s d w, s.clear true [] = true →
      ∃ t, exec (.moderd d w) s = .next t ∧ Computed s t (s.scalarsWith [d.toNat] [s.me.mode]) s.me.vlane s.me.preg s.me.cm 0 [] (s.pc + 4))
  ∧ (∀ s d w, even d = true → s.clear true [.exm] = true →
      ∃ t, exec (.exmsv d w) s = .next t ∧
        Computed s t (s.scalarsWith [d.toNat, d.toNat + 1] [lo32 s.exm, hi32 s.exm]) s.me.vlane s.me.preg s.me.cm 0 [.exm] (s.pc + 4))
  ∧ (∀ s a w, even a = true → s.clear true [.s a.toNat, .s (a.toNat + 1)] = true →
      ∃ t, exec (.exmld a w) s = .next t ∧ Masks s t (s.rpair a.toNat &&& s.me.width.mask))
  ∧ (∀ s a f m, m = s.rpair a.toNat &&& s.me.width.mask → (even a && small f 4) = true → s.clear true [.exm, .s a.toNat, .s (a.toNat + 1)] = true →
      ∃ t, exec (.exmcmb a f) s = .next t ∧
        Masks s t (if f = 0 then s.exm &&& m else if f = 1 then s.exm ||| m else if f = 2 then s.exm &&& ~~~m else s.exm ^^^ m))
  ∧ (∀ s a b w, (small a 12 && small b 2) = true → s.clear true [.exm, .p a.toNat] = true →
      ∃ t, exec (.exmp a b w) s = .next t ∧
        Masks s t (if b = 1 then s.exm &&& ~~~s.predWhole a.toNat else s.exm &&& s.predWhole a.toNat))
  ∧ (∀ s d u i, Computes (.idrd d u i) s u (rd u d && small i 15 && !(u && i == 0)) [] [d.toNat] [] 4 fun lane => ([s.ident i.toNat lane], 0))

/-- Predicates, CM and FPSF as words; release of names; idempotent regions. (R105, R106, R120, R133, R250) -/
def Obligations.PredicateAndFlagMoves : Prop :=
  (∀ s d a w, (even d && small a 12) = true → s.clear true [.p a.toNat] = true →
      ∃ t, exec (.ptos d a w) s = .next t ∧ Computed s t
        (s.scalarsWith [d.toNat, d.toNat + 1] [lo32 (s.predWhole a.toNat &&& s.me.width.mask), hi32 (s.predWhole a.toNat &&& s.me.width.mask)])
        s.me.vlane s.me.preg s.me.cm 0 [.p a.toNat] (s.pc + 4))
  ∧ (∀ s d a w, (small d 12 && even a) = true → s.clear true [.exm, .s a.toNat, .s (a.toNat + 1)] = true →
      ∃ t, exec (.pfroms d a w) s = .next t ∧ Computed s t s.me.sreg s.me.vlane (predsIn s.me.preg d.toNat s.exm (s.rpair a.toNat)) s.me.cm 0
        [.exm, .s a.toNat, .s (a.toNat + 1)] (s.pc + 4))
  ∧ (∀ s d w, even d = true → s.clear true [.cm] = true →
      ∃ t, exec (.cmrd d w) s = .next t ∧
        Computed s t (s.scalarsWith [d.toNat, d.toNat + 1] [lo32 s.cmNow, hi32 s.cmNow]) s.me.vlane s.me.preg s.me.cm 0 [.cm] (s.pc + 4))
  ∧ (∀ s a w, even a = true → s.clear true [.s a.toNat, .s (a.toNat + 1)] = true →
      ∃ t, exec (.cmwr a w) s = .next t ∧
        Computed s t s.me.sreg s.me.vlane s.me.preg (s.rpair a.toNat) 0 [.s a.toNat, .s (a.toNat + 1)] (s.pc + 4))
  ∧ (∀ s d w, s.clear true [] = true →
      ∃ t, exec (.flagrd d 0 w) s = .next t ∧ Computed s t (s.scalarsWith [d.toNat] [s.me.fpsf]) s.me.vlane s.me.preg s.me.cm 0 [] (s.pc + 4))
  ∧ (∀ s d w, s.clear true [] = true →
      ∃ t, exec (.flagrd d 1 w) s = .next t ∧ t.me.fpsf = s.me.fpsf &&& 0xFFFFFF00 ∧
        Computed (s.withMe fun g => { g with fpsf := g.fpsf &&& 0xFFFFFF00 }) t (s.scalarsWith [d.toNat] [s.me.fpsf]) s.me.vlane s.me.preg s.me.cm 0 [] (s.pc + 4))
  ∧ (∀ s a b w, (vr a && vr b && decide (a.toNat ≤ b.toNat)) = true → s.clear true [] = true →
      ∃ t, exec (.reln a b w) s = .next t ∧ (∀ n, t.me.vrow n = if a.toNat ≤ n ∧ n ≤ b.toNat then none else s.me.vrow n) ∧
        Computed s t s.me.sreg (fun n k => if a.toNat ≤ n ∧ n ≤ b.toNat then 0 else s.me.vlane n k) s.me.preg s.me.cm 0 [] (s.pc + 4))
  ∧ (∀ s w, (s.me.entries.filter fun n => (s.me.path n).state != .joined).length = 1 → s.clear true [] = true →
      ∃ t, exec (.idemb w) s = .next t ∧ Moves s t (s.pc + 4) ∧ (s.unspilled → s.path.join ≠ some (pc56 (s.pc + 4)) → t.me.region = some {
        pc := pc56 (s.pc + 4), member := s.path.member, exm := s.path.exm, entry := s.me.cur, mode := s.me.mode, fpsf := s.me.fpsf, loops := s.me.loops,
        olds := s.me.entries.filter (· != s.me.cur) }))
  ∧ (∀ s w, (s.me.entries.filter fun n => (s.me.path n).state != .joined).length ≠ 1 → s.clear true [] = true →
      ∃ t, exec (.idemb w) s = .next t ∧ Moves (s.withMe fun g => { g with gstat := g.gstat ||| 2 }) t (s.pc + 4))
  ∧ (∀ s w, s.clear true [] = true →
      ∃ t, exec (.ideme w) s = .next t ∧ Moves s t (s.pc + 4) ∧ (s.unspilled → s.path.join ≠ some (pc56 (s.pc + 4)) → t.me.region = none))

/-- XREPL writes the destination of the trapped instruction: scalar results once, vector and predicate results in the lanes of XMASK. (R99, R318) -/
def Obligations.TrappedResultReplacement : Prop :=
  (∀ s a w u y, s.me.handler.isSome = true → destKind s.me.x.xinst = .scalar → replaceLegal .scalar (bits s.me.x.xinst 18 6) a u y = true →
      s.soundFor [.s a.toNat] = true → ∃ t, exec (.xrepl a w (u, y)) s = .next t ∧
        Computed s t (s.scalarsWith [bits s.me.x.xinst 18 6] [s.rs a.toNat]) s.me.vlane s.me.preg s.me.cm 0 [.s a.toNat] (s.pc + 4))
  ∧ (∀ s a w u y, s.me.handler.isSome = true → destKind s.me.x.xinst = .scalarPair → replaceLegal .scalarPair (bits s.me.x.xinst 18 6) a u y = true →
      s.soundFor [.s a.toNat, .s (a.toNat + 1)] = true → ∃ t, exec (.xrepl a w (u, y)) s = .next t ∧
        Computed s t (s.scalarsWith [bits s.me.x.xinst 18 6, bits s.me.x.xinst 18 6 + 1] [lo32 (s.rpair a.toNat), hi32 (s.rpair a.toNat)]) s.me.vlane
          s.me.preg s.me.cm 0 [.s a.toNat, .s (a.toNat + 1)] (s.pc + 4))
  ∧ (∀ s a w u y, s.me.handler.isSome = true → destKind s.me.x.xinst = .cmBit → replaceLegal .cmBit (bits s.me.x.xinst 18 6) a u y = true →
      s.soundFor [.cmBit a.toNat] = true → ∃ t, exec (.xrepl a w (u, y)) s = .next t ∧
        Computed s t s.me.sreg s.me.vlane s.me.preg (s.cmWith (bits s.me.x.xinst 18 6) (bit s.cmNow a.toNat)) 0 [.cmBit a.toNat] (s.pc + 4))
  ∧ (∀ s a w u y, s.me.handler.isSome = true → destKind s.me.x.xinst = .vector → replaceLegal .vector (bits s.me.x.xinst 18 6) a u y = true →
      s.soundFor [.v a.toNat] = true → State.rowsFor (s.marks (if y then [a.toNat] else [])) [bits s.me.x.xinst 18 6] s = true → ∃ t, exec (.xrepl a w (u, y)) s = .next t ∧
        Computed s t s.me.sreg (s.vectorsFreed (if y then [a.toNat] else []) [bits s.me.x.xinst 18 6]
          (vectorsIn s.me.vlane (bits s.me.x.xinst 18 6) s.me.x.xmask (s.me.vlane a.toNat))) s.me.preg s.me.cm 0 [] (s.pc + 4))
  ∧ (∀ s a w u y d, d = bits s.me.x.xinst 18 6 → s.me.handler.isSome = true → destKind s.me.x.xinst = .vectorPair → replaceLegal .vectorPair d a u y = true →
      s.soundFor [.v a.toNat, .v (a.toNat + 1)] = true → State.rowsFor (s.marks (if y then [a.toNat, a.toNat + 1] else [])) [d, d + 1] s = true → ∃ t, exec (.xrepl a w (u, y)) s = .next t ∧
        Computed s t s.me.sreg (s.vectorsFreed (if y then [a.toNat, a.toNat + 1] else []) [d, d + 1]
          (vectorsIn (vectorsIn s.me.vlane d s.me.x.xmask (s.me.vlane a.toNat)) (d + 1) s.me.x.xmask (s.me.vlane (a.toNat + 1)))) s.me.preg s.me.cm 0 [] (s.pc + 4))
  ∧ (∀ s a w u y, s.me.handler.isSome = true → destKind s.me.x.xinst = .pred → replaceLegal .pred (bits s.me.x.xinst 18 6) a u y = true → s.soundFor [] = true →
      ∃ t, exec (.xrepl a w (u, y)) s = .next t ∧
        Computed s t s.me.sreg s.me.vlane (predsIn s.me.preg (bits s.me.x.xinst 18 6) s.me.x.xmask (s.me.preg a.toNat)) s.me.cm 0 [] (s.pc + 4))
  ∧ (∀ s a w u y d, d = 2 * bits s.me.x.xinst 18 6 → s.me.handler.isSome = true → destKind s.me.x.xinst = .predPair →
      replaceLegal .predPair (bits s.me.x.xinst 18 6) a u y = true → s.soundFor [] = true → ∃ t, exec (.xrepl a w (u, y)) s = .next t ∧
        Computed s t s.me.sreg s.me.vlane
          (predsIn (predsIn s.me.preg d s.me.x.xmask (s.me.preg a.toNat)) (d + 1) s.me.x.xmask (~~~s.me.preg a.toNat)) s.me.cm 0 [] (s.pc + 4))

/-- EXIT removes its lanes and may end the group; BKPT goes on, or holds its path behind a halt record. (R86, R94, R96, R184, R321, R412) -/
def Obligations.ExitAndBreakpoint : Prop :=
  (∀ s w, s.clear true [.exm] = true → s.exm = 0 → ∃ t, exec (.exit w) s = .next t ∧ Moves s t (s.pc + 4))
  ∧ (∀ s w, s.clear true [.exm] = true → s.exm ≠ 0 → s.path.member &&& ~~~s.exm ≠ 0 → s.unspilled → s.path.join ≠ some (pc56 (s.pc + 4)) →
      ∃ t o, exec (.exit w) s = .next t ∧ Kept (s.withMe fun g => g.leaveHandler s.exm) t ∧ t.me.cur = s.me.cur ∧ t.me.path? s.me.cur = some o
        ∧ o.pc = pc56 (s.pc + 4) ∧ o.member = s.path.member &&& ~~~s.exm ∧ o.exm = 0
        ∧ o.join = s.path.join ∧ o.parent = s.path.parent)
  ∧ (∀ s w, s.clear true [.exm] = true → s.exm ≠ 0 → s.path.member &&& ~~~s.exm = 0 →
      exec (.exit w) s = .next (((((s.ownEXM.withMe fun g => g.leaveHandler s.exm).count { stall := stallOf w }).charge { stall := stallOf w }).withMe fun g =>
        g.removeLanes s.me.cur s.exm).endGroup s.me.seq))
  ∧ (∀ s w, s.clear true [.exm] = true → s.exm ≠ 0 → s.path.member &&& ~~~s.exm = 0 → s.unspilled → s.me.live = true → s.me.handler = none →
      s.path.parent = none → (∃ n, n ≠ s.me.cur ∧ (s.me.path? n).isSome = true) →
      ∃ t, exec (.exit w) s = .next t ∧ t.me.path? s.me.cur = none ∧ Kept s t ∧
        ∀ n, n ≠ s.me.cur → t.me.path? n = (s.me.path? n).map fun p => { p with yields := p.yields.filter (· != s.me.cur) })
  ∧ (∀ s w, s.clear true [.exm] = true → s.exm ≠ 0 → s.path.member &&& ~~~s.exm = 0 → s.unspilled → s.me.live = true → s.path.parent = none →
      (∀ n, n ≠ s.me.cur → s.me.path? n = none) → (∀ c ∈ s.copies, c.group ≠ s.me.seq) → (∀ e ∈ (s.team s.me.team).wbuf, s.me.seq ∉ e.writers) →
      bit (s.team s.me.team).gang s.me.index = false → (s.team s.me.team).arrived = [] → (∀ x ∈ s.teams, x.carrived = []) → (∀ v ∈ s.saved, v.team.carrived = []) →
      (∃ k, k < (s.team s.me.team).groups ∧ k ∉ (s.team s.me.team).exited ∧ k ≠ s.me.index) →
      ∃ t, exec (.exit w) s = .next t ∧ t.me = {} ∧ t.groups = s.groups
        ∧ ((s.team? s.me.team).isSome = true → (t.team s.me.team).exited = (s.team s.me.team).exited ++ [s.me.index]))
  ∧ (∀ s i, small i 1024 = true → s.clear true [] = true → s.myPart.debugOn = false → ∃ t, exec (.bkpt i) s = .next t ∧ Moves s t (s.pc + 4))
  ∧ (∀ s i, small i 1024 = true → s.clear true [] = true → s.myPart.debugOn = true → s.unspilled → s.me.part < 8 → (∀ c ∈ s.copies, c.group ≠ s.me.seq) →
      ∃ t o, exec (.bkpt i) s = .next t ∧ t.me.path? s.me.cur = some o ∧ o.state = .held ∧ o.pc = pc56 (s.pc + 4) ∧ o.member = s.path.member ∧ o.exm = s.path.exm
        ∧ (t.part s.me.part).halts = (if (s.part s.me.part).reg2 0x903 = 0 then (s.part s.me.part).halts else
            (s.part s.me.part).halts ++ [s.traceRecord s.me s.me.cur 2 s.pc i.toNat false false 0])
        ∧ bits ((t.part s.me.part).reg 0x908 0) 0 16 = (if (s.part s.me.part).reg2 0x903 = 0 then min (bits ((s.part s.me.part).reg 0x908 0) 0 16 + 1) 0xFFFF
            else bits ((s.part s.me.part).reg 0x908 0) 0 16)
        ∧ t.me.s = s.me.s ∧ t.me.v = s.me.v ∧ t.me.p = s.me.p ∧ t.me.cm = s.me.cm ∧ t.me.fpsf = s.me.fpsf ∧ t.me.gstat = s.me.gstat ∧ t.me.special = s.me.special
        ∧ s.sameMemory t)
  ∧ (∀ s i, small i 1024 = true → s.clear true [] = true → s.myPart.debugOn = true → s.unspilled → (∃ c ∈ s.copies, c.group = s.me.seq) →
      ∃ t o, exec (.bkpt i) s = .next t ∧ Kept s t ∧ t.me.path? s.me.cur = some o ∧ o.holdAsked = some 0 ∧ o.holdId = i.toNat ∧ o.pc = s.path.pc
        ∧ o.member = s.path.member ∧ o.exm = s.path.exm)

/-- TRAP takes a user trap or parks its path for the system; TRAPRET restores masks, mode word and address. (R97, R98, R318, R319, R320, R324) -/
def Obligations.TrapAndReturn : Prop :=
  (∀ s i, small i 1024 = true → s.clear true [.exm] = true → s.trapsToUser →
      ∃ t, exec (.trap i) s = .next t ∧ Trapped s t (causeWord 0x01 i.toNat) s.exm (pc56 (s.pc + 4)))
  ∧ (∀ s i, small i 1024 = true → s.clear true [.exm] = true → s.myTask.record.handler = 0 ∨ s.me.handler.isSome = true → s.parksForSystem →
      ∃ t, exec (.trap i) s = .next t ∧ Parked s t (causeWord 0x01 i.toNat) s.exm 0 (pc56 (s.pc + 4)))
  ∧ (∀ (s u : State) w h old, s.me.handler = some h → s.clear true [] = true → (∀ n, 8 ≤ n → s.me.path? n = none) → s.me.path? h.path = some old →
      old.join ≠ some (pc56 s.me.x.xpc) → u = (if ∀ n ∈ s.me.entries, n = s.me.cur ∨ n ∈ h.others ∨ (s.me.path n).wait = none then s
        else s.withdrawIf fun x n => x == s.me.seq && n != s.me.cur && !h.others.contains n) →
      ∃ t p, exec (.trapret w) s = .next t ∧ Kept (u.withMe fun g => { g with mode := g.x.xmode }) t ∧ t.me.mode = s.me.x.xmode ∧ t.me.handler = none
        ∧ t.me.cur = h.path ∧ t.me.path? h.path = some p ∧ p.pc = pc56 s.me.x.xpc ∧ p.member = h.member ∧ p.exm = h.exm ∧ p.state = (if old.state = .held then .held else .ready) ∧ p.wait = none
        ∧ p.join = old.join ∧ p.parent = old.parent
        ∧ ∀ n, n ≠ h.path → n ≠ s.me.cur ∨ h.others.contains n = false → t.me.path? n = if h.others.contains n then (s.me.path? n).map fun p => { p with yields := p.yields.filter (· != s.me.cur) } else none)
  ∧ (∀ s w, s.me.handler = none → s.clear true [] = true → s.trapsToUser →
      ∃ t, exec (.trapret w) s = .next t ∧ Trapped s t (causeWord 0x02 0) s.exm s.pc)

/-- Reserved values, misaligned and distant targets, a full path table, unready operands and unmapped names trap before any effect. (R24, R26, R31, R34, R38, R39, R85, R99, R251, R322, R323, R325) -/
def Obligations.WhatTraps : Prop :=
  (∀ s legal once uses k, legal = false → s.trapsToUser →
      Trapped s (s.checked legal once uses k) (causeWord 0x03 0) (if once then s.exm else s.active) s.pc)
  ∧ (∀ s once uses k, modeCHK s.me.mode = true → (if once then uses else .exm :: uses).any s.hazard = true → s.trapsToUser →
      Trapped s (s.checked true once uses k) (causeWord 0x09 0) (if once then s.exm else s.active) s.pc)
  ∧ (∀ s once uses k, modeCHK s.me.mode = false → modeNAMETRAP s.me.mode = true → s.mapStruck (if once then uses else .exm :: uses) = false →
      s.unmapped (if once then uses else .exm :: uses) s.active = true → s.trapsToUser →
      Trapped s (s.checked true once uses k) (causeWord 0x0A 0) s.active s.pc)
  ∧ (∀ s a w, modeLegal (s.rs a.toNat) = false → s.trapsToUser → ∃ t, exec (.mode a w) s = .next t ∧ Trapped s t (causeWord 0x03 0) s.exm s.pc)
  ∧ (∀ s i, small i 1024 = false → s.trapsToUser → ∃ t, exec (.trap i) s = .next t ∧ Trapped s t (causeWord 0x03 0) s.exm s.pc)
  ∧ (∀ s a w, even a = true → s.clear true [.exm, .s a.toNat, .s (a.toNat + 1)] = true → bits (s.rpair a.toNat) 56 8 = 0 → bits (s.rpair a.toNat) 0 2 ≠ 0 → s.trapsToUser →
      ∃ t, exec (.calli a w) s = .next t ∧ Trapped s t (causeWord 0x04 0) s.exm s.pc)
  ∧ (∀ s a w, even a = true → s.clear true [.exm, .s a.toNat, .s (a.toNat + 1)] = true → bits (s.rpair a.toNat) 56 8 ≠ 0 → s.trapsToUser →
      ∃ t, exec (.calli a w) s = .next t ∧ Trapped s t (causeWord 0x05 0) s.exm s.pc)
  ∧ (∀ s i, s.clear true [.exm] = true → s.me.freeEntries = [] → s.trapsToUser → ∃ t, exec (.jpt i) s = .next t ∧ Trapped s t (causeWord 0x08 0) s.exm s.pc)
  ∧ (∀ s a w u y, s.me.handler = none → s.trapsToUser → ∃ t, exec (.xrepl a w (u, y)) s = .next t ∧ Trapped s t (causeWord 0x02 0) s.exm s.pc)
  ∧ (∀ s d n, s.clear true [] = true → s.priv = false → 0x800 ≤ n.toNat → s.parksForSystem →
      ∃ t, exec (.sysrd d n) s = .next t ∧ Parked s t (causeWord 0x0C 1) s.exm 0 s.pc)
  ∧ (∀ s d n, s.clear true [.s d.toNat] = true → s.priv = false → 0x800 ≤ n.toNat → writableNumber n.toNat = true → s.parksForSystem →
      ∃ t, exec (.syswr d n) s = .next t ∧ Parked s t (causeWord 0x0C 1) s.exm 0 s.pc)

/-- Loads and stores of 1 to 16 bytes: values, registers, and which bytes of memory may change. (R24, R166, R167, R168, R169, R170, R297, R298) -/
def Obligations.LoadsAndStores : Prop :=
  LoadForm .ldb rd false 1 ∧ LoadForm .ldbs rd true 1 ∧ LoadForm .ldh rd false 2 ∧ LoadForm .ldhs rd true 2 ∧ LoadForm .ldw rd false 4
  ∧ LoadForm .ldd pr false 8 ∧ LoadForm .ldq (mult 4) false 16
  ∧ StoreForm .stb rd 1 ∧ StoreForm .sth rd 2 ∧ StoreForm .stw rd 4 ∧ StoreForm .std pr 8 ∧ StoreForm .stq (mult 4) 16

/-- Atomics return each lane old value and leave memory with the new ones, lane by lane in ascending order. (R174, R175, R176) -/
def Obligations.Atomics : Prop :=
  AtomicForm .atadd (fun _ u v z d b => atReg u z b && atDest u z v d) id false (fun _ _ m x _ => m + x)
  ∧ AtomicForm .atmin (fun _ u v z d b => atReg u z b && atDest u z v d) id false (fun s size m x _ => atomicExtreme false s.me.mode size m x)
  ∧ AtomicForm .atmax (fun _ u v z d b => atReg u z b && atDest u z v d) id false (fun s size m x _ => atomicExtreme true s.me.mode size m x)
  ∧ AtomicForm .atand (fun _ u v z d b => atReg u z b && atDest u z v d) id false (fun _ _ m x _ => m &&& x)
  ∧ AtomicForm .ator (fun _ u v z d b => atReg u z b && atDest u z v d) id false (fun _ _ m x _ => m ||| x)
  ∧ AtomicForm .atxor (fun _ u v z d b => atReg u z b && atDest u z v d) id false (fun _ _ m x _ => m ^^^ x)
  ∧ AtomicForm .atxchg (fun _ u v z d b => atReg u z b && atDest u z v d) id false (fun _ _ _ x _ => x)
  ∧ AtomicForm .atcas (fun _ u v z d b => v && atReg u z b && atReg u z d) id true (fun _ _ m x c => if m = c then x else m)
  ∧ AtomicForm .atfadd (fun s u v z d b => !z && atReg u z b && atDest u z v d && decide (modeET s.me.mode ≤ 2)) (fun _ => false) false
      (fun s _ m x _ => floatWord (etFmt s.me.mode) m x)
  ∧ AtomicForm .atpadd (fun _ u v z d b => z && rsn u b && atDest u z v d) (fun _ => false) false (fun _ _ m x _ => pairStep m x)
  ∧ AtomicForm .atinc (fun _ u v z d b => atReg u z b && atDest u z v d) id false (fun _ _ m x _ => if x ≤ m then 0 else m + 1)

/-- LDLN, PREF, FENCE, CFLUSH and CINV: words, drained bytes, dropped L1 lines. (R170, R171, R172, R173, R297, R305, R306) -/
def Obligations.CachesAndFences : Prop :=
  (∀ s d a off ord r as ps q, r = s.seen (.exm :: baseUse false a) →
    as = (lanesOf r.active).map (fun k => ({ lane := k, va := r.effective false a off (4 * r.me.width.lanes) 0 + 4 * k, size := 4 } : Access)) →
    ps = r.placed (r.groupAgent r.me) .load as → q = (r.entered (ord != 0) ps).loadAll (ord != 0) ps →
    (vr d && odd a && small ord 3) = true → s.clear false (baseUse false a) = true → State.rowsFor [] [d.toNat] r = true →
    (r.active = 0 ∨ r.refusal (r.groupAgent r.me) .load (r.effective false a off (4 * r.me.width.lanes) 0) (4 * r.me.width.lanes) (4 * r.me.width.lanes) = none) →
    r.mayAccess (ord != 0) .load 0 as true = true →
    ∃ t, exec (.ldln d a off ord) s = .next t ∧ (∀ ag p, t.readByte ag p = q.2.readByte ag p) ∧
      Accessed r t r.me.sreg (r.vectorsWith [d.toNat] [] (loadedWords false q.1)) (fun p => ord ≠ 0 ∧ r.buffered p))
  ∧ (∀ s a u off ord r, r = s.seen (usesOf u (baseUse u a)) → (base u a && small ord 2) = true → s.clear u (baseUse u a) = true →
    ∃ t, exec (.pref a u off ord) s = .next t ∧ Accessed r t r.me.sreg r.me.vlane fun _ => False)
  ∧ (∀ s ord, fenceOrd ord = true → s.clear true [] = true →
    ∃ t, exec (.fence ord) s = .next t ∧ Accessed s t s.me.sreg s.me.vlane (fun p => (ord = 3 ∨ ord = 4) ∧ s.buffered p)
      ∧ (∀ ag p, t.readByte ag p = (if (ord = 3 ∨ ord = 4) ∧ 2 ≤ s.scope then s.drainAll s.me.team else s).readByte ag p)
      ∧ ((ord = 2 ∨ ord = 4) → 3 ≤ s.scope → (t.team s.me.team).l1 = []))
  ∧ (∀ s a b whole sc, flushOk a b whole sc = true → s.clear true (if whole then [] else [.s a.toNat, .s (a.toNat + 1), .s b.toNat]) = true →
    (whole = true ∨ bits (s.rpair a.toNat) 56 8 = 0) →
    (∃ t, exec (.cflush a b whole sc) s = .next t ∧ Accessed s t s.me.sreg s.me.vlane s.buffered ∧
      ∀ ag p, t.readByte ag p = (((s.myTeam.wbuf.map (·.line)).filter (s.maintained a b whole)).foldl (fun s l => s.drainEntry s.me.team l) s).readByte ag p)
    ∧ ∃ t, exec (.cinv a b whole sc) s = .next t ∧ Accessed s t s.me.sreg s.me.vlane (fun _ => False) ∧
      (3 ≤ sc.toNat → ∀ x ∈ t.teams, x.tile = s.me.tile → ∀ e ∈ x.l1, s.maintained a b whole e.1 = false))

/-- BKADD, BKRED, BKSET and BKSCAL update words of the shared bank in place and change nothing else. (R177) -/
def Obligations.BankOperations : Prop :=
  BankForm .bkadd 5 (fun t => if t = 4 then 8 else 4) (fun r t => (if t = 4 then 8 else 4) * r.me.width.lanes) (fun t k => (if t = 4 then 8 else 4) * k) bankSum
  ∧ BankForm .bkred 7 (fun t => if t = 2 then 8 else 4) (fun _ t => if t = 2 then 8 else 4) (fun _ _ => 0) bankFold
  ∧ BankFillForm .bkset (fun _ x => x) ∧ BankFillForm .bkscal (fun m x => (fp32.deliver {} (Fp.mul (f32 m) (f32 x))).1)

/-- FEBSET, FEBCLR, FEBWAIT and FEBWE set, clear, wait for and exchange the full bit of a tile buffer. (R185, R269) -/
def Obligations.FullEmptyBits : Prop :=
  (∀ s a w b n o r (x : FebKind → FebWaiter), n = (s.rs a.toNat).toNat → n < 4096 → s.answer = none → s.myPart.febWord n = some o →
    s.poisoned (.bank o) = false → s.clear true [.s a.toNat] = true → r = s.release 3 →
    x = (fun k => { part := s.me.part, buffer := n, group := s.me.seq, path := s.me.cur, kind := k }) →
    Ends (.febset a w) s (r.setFull s.me.part n true) ∧ Ends (.febclr a w) s (r.setFull s.me.part n false)
    ∧ (b = 0 → if s.febFull s.me.part n then Ends (.febwait a b w) s (s.acquire 3)
        else WaitsFor (.febwait a b w) s (({ s with febs := s.febs ++ [x .full] } : State).writeHead s.me.part n) (.fullEmpty n))
    ∧ (b = 1 → if s.febFull s.me.part n then WaitsFor (.febwait a b w) s (({ s with febs := s.febs ++ [x .empty] } : State).writeHead s.me.part n) (.fullEmpty n)
        else Ends (.febwait a b w) s (s.acquire 3))
    ∧ (if r.febFull s.me.part n then WaitsFor (.febsetPut a w) s (({ r with febs := r.febs ++ [x .put] } : State).writeHead s.me.part n) (.fullEmpty n)
        else Ends (.febsetPut a w) s (r.setFull s.me.part n true))
    ∧ (if r.febFull s.me.part n then Ends (.febwe a w) s ((r.setFull s.me.part n false).acquire 3)
        else WaitsFor (.febwe a w) s (({ r with febs := r.febs ++ [x .take] } : State).writeHead s.me.part n) (.fullEmpty n)))
  ∧ (∀ s a b w, s.answer.isSome = true → Ends (.febwait a b w) s (s.acquire 3) ∧ Ends (.febwe a w) s (s.acquire 3) ∧ Ends (.febsetPut a w) s s)

/-- CPYA, CPYG, BMCAST start a copy; BATCH closes a batch; WAITBAT waits for it and acquires. (R178, R179, R180, R181, R182, R205, R298) -/
def Obligations.CopiesAndBatches : Prop :=
  (∀ s d a b e k len dst src srcLen u, len = (s.rs b.toNat).toNat → dst = s.rpair d.toNat → src = s.rpair a.toNat → srcLen = (if e then len + 32 else len) →
    (even d && even a && (e || k.toNat == 0) && decide (len ≤ 2 ^ 24) && s.copyRoom) = true →
    s.clear true [.s d.toNat, .s (d.toNat + 1), .s a.toNat, .s (a.toNat + 1), .s b.toNat] = true → (e = true → s.myPart.isSealed = true) →
    s.inWindow dst.toNat len = true → s.inWindow src.toNat srcLen = true → (s.inScratch dst.toNat len || s.inScratch src.toNat srcLen) = true →
    u = s.drainRange s.me.part s.me.team src.toNat srcLen →
    Ends (.cpya d a b e k) s { u with copies := s.copies ++ [s.newCopy (if e then .decrypt dst src len k.toNat (s.keyHeld k.toNat) else .linear dst src len)], copyNum := s.copyNum + 1 } (g := { s.me with openCopies := s.me.openCopies ++ [s.copyNum] }))
  ∧ (∀ s d a b l count off dst src u, count = (s.rs (b.toNat + 1)).toNat → off = (s.rs b.toNat).toNat → dst = s.rpair d.toNat → src = s.rpair a.toNat →
    (even d && even a && even b && decide (2 ≤ l.toNat) && decide (l.toNat ≤ 12) && decide (count ≤ 4096) && s.copyRoom) = true →
    s.clear true [.s d.toNat, .s (d.toNat + 1), .s a.toNat, .s (a.toNat + 1), .s b.toNat, .s (b.toNat + 1)] = true →
    scrBase ≤ dst.toNat → dst.toNat < cluBase → s.inScratch dst.toNat (count * 2 ^ l.toNat) = true → src.toNat < 2 ^ 56 → off + 4 * count ≤ s.myTeam.scr * 1024 →
    off % 4 = 0 → ((wordsOf (.scr s.me.team off) (4 * count)).any fun w => s.poisoned w.1) = false →
    u = (s.rowNumbers off count).foldl (fun s i => s.drainRange s.me.part s.me.team (src.toNat + i * 2 ^ l.toNat) (2 ^ l.toNat)) s →
    Ends (.cpyg d a b l) s { u with copies := s.copies ++ [s.newCopy (.gather dst src (s.rowNumbers off count) l.toNat)], copyNum := s.copyNum + 1 }
      (g := { s.me with openCopies := s.me.openCopies ++ [s.copyNum] }))
  ∧ (∀ s d a b len off src mask u, mask = (s.rs (b.toNat + 1)).toNat → len = (s.rs b.toNat).toNat → off = (s.rs d.toNat).toNat → src = s.rpair a.toNat →
    (even a && even b && s.myTask.record.clus && decide (mask < 2 ^ min 12 s.myTask.record.members) && decide (len ≤ 2 ^ 24) && s.copyRoom) = true →
    s.clear true [.s d.toNat, .s a.toNat, .s (a.toNat + 1), .s b.toNat, .s (b.toNat + 1)] = true → s.inWindow src.toNat len = true →
    (mask = 0 ∨ off + len ≤ s.myTeam.scr * 1024) → u = s.drainRange s.me.part s.me.team src.toNat len →
    Ends (.bmcast d a b) s { u with copies := s.copies ++ [s.newCopy (.multicast off src len mask)], copyNum := s.copyNum + 1 }
      (g := { s.me with openCopies := s.me.openCopies ++ [s.copyNum] }))
  ∧ (∀ s d w, s.clear true [] = true → s.me.live = true →
    if 16 ≤ s.me.batches.length then WaitsFor (.batch d w) s s .batchRoom
    else Ends (.batch d w) s s (S := s.scalarsWith [d.toNat] [s.me.batchSeq + 1])
      (g := ({ s.me with batchSeq := s.me.batchSeq + 1, openCopies := [] } : Group).settleBatches (s.copies.map (·.id))
        (s.me.batches ++ [((s.me.batchSeq + 1).toNat, s.me.openCopies)])))
  ∧ (∀ s i n, ((∃ a k, i = Instr.waitbat a k ∧ n = (s.rs a.toNat + k.signExtend 32).toNat ∧ s.clear true [.s a.toNat] = true)
      ∨ (i = .waitbatAll ∧ n = s.me.batchSeq.toNat ∧ s.clear true [] = true)) → (s.path.wait = none ∨ s.path.wait = some (.batches n)) →
    if s.me.batches.any (fun b => covers n b.1) then WaitsFor i s s (.batches n)
    else Ends i s (s.acquire s.scope) (cm := s.cmWith 1 (s.me.failedBatches.any (covers n))))

/-- SYSRD reads, SYSWR writes a system register; the privileged view and refused values trap. (R26, R103, R325, R407, R452) -/
def Obligations.SystemRegisters : Prop :=
  (∀ s d n, s.clear true [] = true → (s.priv = true ∨ n.toNat < 0x800) →
    Ends (.sysrd d n) s (if n.toNat = 0x8E5 then s.acquire 3 else s) (S := s.scalarsWith [d.toNat] [s.sysReg s.me n.toNat]))
  ∧ (∀ s d n, s.clear true [] = true → s.priv = false → 0x800 ≤ n.toNat → exec (.sysrd d n) s = .next (s.raise { code := 0x0C, detail := 1, mask := s.exm }))
  ∧ (∀ s d n u, s.clear true [.s d.toNat] = true → (s.priv = true ∨ n.toNat < 0x800) → s.sysWrite n.toNat (s.rs d.toNat) = some u →
    u.me.live = true → u.me.seq = s.me.seq → ∃ t, exec (.syswr d n) s = .next t ∧ Own u t u.me.sreg u.me.cm ∧ t.others = u.others)
  ∧ (∀ s d n, s.clear true [.s d.toNat] = true → (s.priv = true ∨ n.toNat < 0x800) → s.sysWrite n.toNat (s.rs d.toNat) = none →
    exec (.syswr d n) s = .next (s.raise { code := 0x03, mask := s.exm }))
  ∧ (∀ s d n, s.clear true [.s d.toNat] = true → s.priv = false → 0x800 ≤ n.toNat → writableNumber n.toNat = true →
    exec (.syswr d n) s = .next (s.raise { code := 0x0C, detail := 1, mask := s.exm }))
  ∧ (∀ (s : State) who part n mask v, (n, mask) ∈ plainRegs → v &&& ~~~mask = 0 → n ∉ [0x870, 0x871, 0x8C1, 0x8C2, 0x903, 0x904, 0x93B, 0x93C] →
    s.partWrite who part n v = some (s.setPart part fun q => q.setReg n v))
  ∧ (∀ (s : State) v, (s.groupWrite 0x010 v = if v &&& ~~~0xFF = 0 then some (s.withMe fun g => { g with fpsf := v }) else none)
    ∧ (s.groupWrite 0x013 v = if v &&& ~~~7 = 0 then some (s.withMe fun g => { g with gstat := v }) else none)
    ∧ s.groupWrite 0x016 v = some (s.withMe fun g => { g with scalarCtr := v, laneCtr := Vector.replicate 64 v })
    ∧ (s.me.handler = none → s.groupWrite 0x038 v = none ∧ s.groupWrite 0x039 v = none ∧ s.groupWrite 0x03F v = none))

/-- Host register writes and debug-port reads: accepted, refused and counted, locked, sealed. (R422, R436, R437, R448, R451) -/
def Obligations.HostView : Prop :=
  (∀ s p n v, s.linkUp = true → p < 8 → 0x800 ≤ n → n < 0x1000 → exec (.lockedRegisterWrite p n v) s = .next (s.hostPart p n v))
  ∧ (∀ s p n v, s.linkUp = false → exec (.lockedRegisterWrite p n v) s = .next s)
  ∧ (∀ s off v, s.linkUp = true → off % 4 = 0 → off < 0x10000 →
    exec (.hostRegisterWrite off v) s = .next (s.hostPart (off / 0x2000) (0x800 + off % 0x2000 / 4) v))
  ∧ (∀ s off v n tile, s.linkUp = true → off % 4 = 0 → off < 0x2000 → tile < 96 → n = 0x800 + off / 4 → tileNumber n = true →
    (∀ u, s.tileWrite 8 tile n v = some u → exec (.hostRegisterWrite (0x100000 + 0x2000 * tile + off) v) s = .next u)
    ∧ (s.tileWrite 8 tile n v = none → exec (.hostRegisterWrite (0x100000 + 0x2000 * tile + off) v) s = .next { s with hostErr := satAdd s.hostErr 1 }))
  ∧ (∀ s off v, (s.linkUp = false ∨ off % 4 ≠ 0 ∨ 0x400000 ≤ off) → exec (.hostRegisterWrite off v) s = .next s)
  ∧ (∀ s v, s.linkUp = true → exec (.hostRegisterWrite 0x200040 v) s = .next { s with scanPer := v, scanDue := s.refs + v.toNat })
  ∧ (∀ s k v, s.linkUp = true → k < 0x80000 → ((∀ u, s.deviceWrite k v = some u → exec (.hostRegisterWrite (0x200000 + 4 * k) v) s = .next u)
    ∧ (s.deviceWrite k v = none → exec (.hostRegisterWrite (0x200000 + 4 * k) v) s = .next { s with hostErr := satAdd s.hostErr 1 })))
  ∧ (∀ (s : State) v, s.deviceWrite 3 v = none ∧ s.deviceWrite 4 0 = some { s with hostErr := 0 } ∧ (v ≠ 0 → s.deviceWrite 4 v = none))
  ∧ (∀ (s : State) p m, p < 8 → m < 0x800 → (shownNumber (0x800 + m) || groupNumber (0x800 + m) || tileNumber (0x800 + m)) = false →
    (((s.part p).state ≠ .none → s.hostRegister (0x2000 * p + 4 * m) = s.partReg p (0x800 + m)) ∧ ((s.part p).state = .none → s.hostRegister (0x2000 * p + 4 * m) = 0)))
  ∧ (∀ (s : State) t m, t < 96 → m < 0x800 → tileNumber (0x800 + m) = true → s.hostRegister (0x100000 + 0x2000 * t + 4 * m) = s.tileReg t (0x800 + m))
  ∧ (∀ (s : State) k, s.hostRegister (0x200000 + 4 * k) = s.deviceReg k)
  ∧ (∀ (s : State), s.deviceReg 2 = s.partCmd ∧ s.deviceReg 3 = s.bootst ∧ s.deviceReg 4 = s.hostErr ∧ s.deviceReg 0x10 = s.scanPer ∧ s.deviceReg 0x1A = s.power.control
    ∧ s.deviceReg 0x1B = s.power.status)
  ∧ (∀ (s : State) p, ((s.part p).state ≠ .none → (∀ n, n < 4 → s.functionRegister p (4 * n) = s.partReg p (0x970 + n)) ∧ s.functionRegister p 0x10 = s.partReg p 0x975)
    ∧ (∀ off, 0x10 < off → s.functionRegister p off = 0))
  ∧ (∀ (s : State) p n v, ((s.part p).state = .none → s.hostPart p n v = s)
    ∧ ((s.part p).state ≠ .none → (s.part p).isLocked n = true → s.hostPart p n v = s.toError p)
    ∧ ((s.part p).state ≠ .none → (s.part p).isLocked n = false → (shownNumber n || groupNumber n || tileNumber n) = false →
        (∀ u, s.partWrite 8 p n v = some u → s.hostPart p n v = u)
        ∧ (s.partWrite 8 p n v = none → s.hostPart p n v = { s with hostErr := satAdd s.hostErr 1 })))
  ∧ (∀ s loc n g, s.locate? loc = some g → (s.part g.part).isSealed = true → (n.toNat < 0x800 ∨ shownNumber n.toNat = true ∨ groupNumber n.toNat = true) →
    exec (.debugPortRead loc n) s = .next { s with debugOut := some { data := 0, isSealed := true, group := g.index, path := bits loc 8 3, pc := 0, mask := 0 } })
  ∧ (∀ s loc n g, s.locate? loc = some g → (s.part g.part).isSealed = false →
    exec (.debugPortRead loc n) s = .next { s with debugOut := some { data := (s.sysReg g n.toNat).setWidth 64, isSealed := false, group := g.index, path := bits loc 8 3, pc := (g.path (bits loc 8 3)).pc, mask := (g.path (bits loc 8 3)).member } })
  ∧ (∀ s loc n, s.locate? loc = none → exec (.debugPortRead loc n) s = .next { s with debugOut := none })

/-- BARARV arrives, BAR arrives and waits, its waiting form waits for a phase; MARK offers a record. (R156, R230, R348, R411, R412, R418) -/
def Obligations.BarriersAndMarks : Prop :=
  (∀ s d b w c n u, small b 2 = true → c = (b == 1) → (c = true → s.myTask.record.clus = true) → s.openArrival c = none → s.clear true [] = true →
    n = s.myTeam.openPhase c → u = ((s.release (barScope c)).putS d.toNat (BitVec.ofNat 32 n) clsNONE).arrive c true →
    Ends (.bararv d b w) s u (S := s.scalarsWith [d.toNat] [BitVec.ofNat 32 n]) (g := u.me))
  ∧ (∀ s c n u, s.awaitedPhase = none → (c = true → s.myTask.record.clus = true) → (s.me.entries.filter fun k => (s.me.path k).state != .joined).length = 1 →
    s.me.arrival c = none → s.clear true [] = true → n = s.myTeam.openPhase c → u = (s.release (barScope c)).arrive c false →
    if n < u.myTeam.openPhase c then Ends (.bar c) s (u.acquire (barScope c)) (g := u.me.barDone c) else WaitsFor (.bar c) s u (.barrier c n) (g := u.me))
  ∧ (∀ s c k, s.awaitedPhase = none → (c = true → s.myTask.record.clus = true) → (s.me.entries.filter fun k => (s.me.path k).state != .joined).length = 1 →
    s.me.arrival c = some (k, false) → s.clear true [] = true →
    if k < s.myTeam.openPhase c then Ends (.bar c) s (s.acquire (barScope c)) (g := s.me.barDone c) else WaitsFor (.bar c) s s (.barrier c k))
  ∧ (∀ s c n a, s.awaitedPhase = some n →
    if n < s.myTeam.openPhase c then Ends (.bar c) s (s.acquire (barScope c)) (g := s.me.barDone c) ∧ Ends (.barWait a c) s (s.acquire (barScope c)) (g := s.me.barDone c)
    else WaitsFor (.bar c) s s (.barrier c n) ∧ WaitsFor (.barWait a c) s s (.barrier c n))
  ∧ (∀ s a c d, s.awaitedPhase = none → (c = true → s.myTask.record.clus = true) → s.clear true [.s a.toNat] = true →
    d = (s.rs a.toNat - BitVec.ofNat 32 (s.myTeam.openPhase c)).toInt →
    if d < 0 then Ends (.barWait a c) s (s.acquire (barScope c)) else WaitsFor (.barWait a c) s s (.barrier c (s.myTeam.openPhase c + d.toNat)))
  ∧ (∀ s d b w, (small b 2 = false ∨ ((b == 1) = true ∧ s.myTask.record.clus = false) ∨ (s.openArrival (b == 1)).isSome = true) →
    exec (.bararv d b w) s = .next (s.raise { code := 0x03, mask := s.exm }))
  ∧ (∀ s c, s.awaitedPhase = none → ((c = true ∧ s.myTask.record.clus = false) ∨ (s.me.entries.filter fun k => (s.me.path k).state != .joined).length ≠ 1
      ∨ ∃ k, s.openArrival c = some (k, true)) → exec (.bar c) s = .next (s.raise { code := 0x03, mask := s.exm }))
  ∧ (∀ s a, s.awaitedPhase = none → s.myTask.record.clus = false → exec (.barWait a true) s = .next (s.raise { code := 0x03, mask := s.exm }))
  ∧ (∀ (s : State) id, (s.team id).arrived ≠ [] → (s.team id).allIn (s.team id).arrived = true → (s.team? id).isSome = true →
    ((s.teamPhase id).team id).phase = (s.team id).phase + 1 ∧ ((s.teamPhase id).team id).arrived = [])
  ∧ (∀ s g k, s.clear true [] = true → Ends (.mark g k) s ((s.markSampler k.toNat).setPart s.me.part fun p =>
      let p := if p.traceOn && bit (p.reg 0x909 1) 0 then p.offerRecord (s.traceRecord s.me s.me.cur 1 s.pc k.toNat g false 0) else p
      if g then p.markProgress s.now k.toNat else p))

/-- QALLOC, QFREE, QFREEL and the pool registers: blocks handed out, taken back, refused. (R214, R215, R277, R278, R289) -/
def Obligations.QuarryPools : Prop :=
  (∀ s d u k n r ws, n = k.toNat → (pr u d && small k 16) = true → s.clear u [] = true → (s.myPart.pool? n).isSome = true →
    (u = true ∨ State.rowsFor [] [d.toNat, d.toNat + 1] s = true) → r = s.allocBlocks s.me.part n s.me.tile s.myTask.record.branch (s.askers u) →
    ws = (fun l => (((r.1.map fun x => (x.1, [BitVec.ofNat 32 x.2, BitVec.ofNat 32 (x.2 / 2 ^ 32)])).find? (·.1 == l)).map (·.2)).getD []) →
    ∃ t, exec (.qalloc d u k) s = .next t ∧ t.others = (r.2.acquire 3).others ∧
      OwnV s t (if u then s.scalarsWith [d.toNat, d.toNat + 1] (ws 64) else s.me.sreg) (if u then s.me.vlane else s.vectorsWith [d.toNat, d.toNat + 1] [] ws)
        (s.cmWith 0 (r.1.any fun x => x.2 == 0)))
  ∧ (∀ (s r : State) a u k bs, (pr u a && small k 16) = true → s.clear u [(srcA u a).use, ((srcA u a).plus 1).use] = true →
    r = s.seen (usesOf u [(srcA u a).use, ((srcA u a).plus 1).use]) → bs = ((r.askers u).map fun l => (r.dword (srcA u a) l).toNat).filter (· != 0) →
    ∀ p, r.myPart.pool? k.toNat = some p →
    if p.owns bs then
      ((r.release 3).linkRefusal r.me.part bs = none → ∃ t, exec (.qfree a u k) s = .next t ∧ Own r t r.me.sreg r.me.cm
        ∧ t.others = ((r.release 3).setPool r.me.part k.toNat fun p => p.release r.me.tile bs).others)
      ∧ ∀ x, (r.release 3).linkRefusal r.me.part bs = some x → ∃ t, exec (.qfree a u k) s = .next t ∧ Own r t r.me.sreg (r.cmWith 0 true)
        ∧ t.others = ((r.release 3).atelierFault r.me.part x true).others
    else exec (.qfree a u k) s = .next (r.fail { code := 0x03, mask := r.askMask u r.active }))
  ∧ (∀ (s q : State) d a k bs p, (even a && small k 16) = true → s.clear true [.s a.toNat, .s (a.toNat + 1)] = true → s.myPart.pool? k.toNat = some p →
    s.walkLinks 4096 (s.rpair a.toNat).toNat [] = (.blocks bs, q) →
    if p.owns bs then
      ((q.release 3).linkRefusal s.me.part bs = none →
        Ends (.qfreel d a k) s ((q.release 3).setPool s.me.part k.toNat fun p => p.release s.me.tile bs) (S := s.scalarsWith [d.toNat] [BitVec.ofNat 32 bs.length]))
      ∧ ∀ x, (q.release 3).linkRefusal s.me.part bs = some x →
        Ends (.qfreel d a k) s ((q.release 3).atelierFault s.me.part x true) (S := s.scalarsWith [d.toNat] [0]) (cm := s.cmWith 0 true)
    else exec (.qfreel d a k) s = .next (s.raise { code := 0x03, mask := s.exm }))
  ∧ (∀ (s : State) d u k, (s.myPart.pool? k.toNat) = none → (pr u d && small k 16) = true → s.clear u [] = true →
    exec (.qalloc d u k) s = .next (s.fail { code := 0x0C, detail := 3, mask := s.askMask u s.active }))
  ∧ (∀ (s r : State) a u k, (pr u a && small k 16) = true → s.clear u [(srcA u a).use, ((srcA u a).plus 1).use] = true →
    r = s.seen (usesOf u [(srcA u a).use, ((srcA u a).plus 1).use]) → r.myPart.pool? k.toNat = none →
    exec (.qfree a u k) s = .next (r.fail { code := 0x0C, detail := 3, mask := r.askMask u r.active }))
  ∧ (∀ (s : State) d a k, (even a && small k 16) = true → s.clear true [.s a.toNat, .s (a.toNat + 1)] = true → s.myPart.pool? k.toNat = none →
    exec (.qfreel d a k) s = .next (s.fail { code := 0x0C, detail := 3, mask := s.exm }))
  ∧ (∀ (s : State) p n, (∀ k, s.openPool p n = some k →
      exec (.poolEnable p n) s = .next (s.setPart p fun q => { q with pools := put n k q.pools }.noteCtl 0x860 (BitVec.ofNat 32 (n % 64)) false))
    ∧ (s.openPool p n = none → exec (.poolEnable p n) s = .next (s.setPart p fun q => (q.poolOff n).noteCtl 0x860 (BitVec.ofNat 32 (n % 64)) true))
    ∧ exec (.poolDisable p n) s = .next (s.setPart p fun q => (q.poolOff n).noteCtl 0x860 (BitVec.ofNat 32 (n % 64 + 256)) false))

/-- MFILL places rows, MFLUSH casts the filling tile; enabling and disabling a mould, launching held consumers. (R216, R217, R280, R281, R289, R454) -/
def Obligations.Moulds : Prop :=
  (∀ s a n, n = (s.rs a.toNat).toNat → s.clear true [.s a.toNat] = true → n ≤ 63 → (s.mould s.me.part n).enabled = true →
    ((s.mould s.me.part n).filling = none → Ends (.mflush a) s s (cm := s.cmWith 0 true))
    ∧ ∀ k, (s.mould s.me.part n).filling = some k → Ends (.mflush a) s (s.cast s.me.part n k).2 (cm := s.cmWith 0 (!(s.cast s.me.part n k).1)))
  ∧ (∀ s a n, n = (s.rs a.toNat).toNat → s.clear true [.s a.toNat] = true → 63 < n → exec (.mflush a) s = .next (s.fail { code := 0x03, mask := s.exm }))
  ∧ (∀ s a n, n = (s.rs a.toNat).toNat → s.clear true [.s a.toNat] = true → n ≤ 63 → (s.mould s.me.part n).enabled = false →
    exec (.mflush a) s = .next (s.fail { code := 0x0C, detail := 3, mask := s.exm }))
  ∧ (∀ (s r : State) d a b uses n left as ps q, uses = [.s d.toNat, .v a.toNat, .v (a.toNat + 1), .v b.toNat] → (vpair a && vr b) = true → s.clear false uses = true →
    r = s.seen (.exm :: uses) → n = (r.rs d.toNat).toNat → n ≤ 63 → (r.mould r.me.part n).enabled = true → left = lanesOf (r.active &&& ~~~r.me.fillDone) →
    as = left.map (fun k => ({ lane := k, va := (r.dword (.v a.toNat) k).toNat, size := (r.mould r.me.part n).rowSize } : Access)) →
    ps = r.placed (r.groupAgent r.me) .load as → r.mayAccess true .load 4 as true = true → q = (r.entered true ps).fillLanes n a b left →
    if q.1 then ∃ t, exec (.mfill d a b) s = .next t ∧ Own r t r.me.sreg r.me.cm { r.me with fillDone := q.2.me.fillDone &&& ~~~r.active } ∧ t.others = q.2.others
    else ∃ t, exec (.mfill d a b) s = .next t ∧ Blocks r t (.mouldTile n) { r.me with fillDone := q.2.me.fillDone } ∧ t.others = q.2.others)
  ∧ (∀ (s r : State) d a b uses n, uses = [.s d.toNat, .v a.toNat, .v (a.toNat + 1), .v b.toNat] → (vpair a && vr b) = true → s.clear false uses = true →
    r = s.seen (.exm :: uses) → n = (r.rs d.toNat).toNat →
    (63 < n → exec (.mfill d a b) s = .next (r.fail { code := 0x03, mask := r.active }))
    ∧ (n ≤ 63 → (r.mould r.me.part n).enabled = false → exec (.mfill d a b) s = .next (r.fail { code := 0x0C, detail := 3, mask := r.active })))
  ∧ (∀ (s : State) n (a b : BitVec 6), s.fillLanes n a b [] = (true, s)
    ∧ ∀ lane ls, ((s.mould s.me.part n).filling = none → s.fillLanes n a b (lane :: ls) = (false, s))
    ∧ ∀ k (m : Mould) (va : Nat) (u : State), (s.mould s.me.part n) = m → m.filling = some k → va = (s.dword (.v a.toNat) lane).toNat → u = s.drainRange s.me.part s.me.team va m.rowSize →
      s.fillLanes n a b (lane :: ls) = ((u.placeRow n k ((u.places (u.groupAgent u.me) .load va m.rowSize).flatMap fun x => u.readBytes (u.groupAgent u.me) x.1 x.2)
        (s.me.vlane b.toNat lane)).withMe fun g => { g with fillDone := g.fillDone ||| (1 <<< lane) }).fillLanes n a b ls)
  ∧ (∀ (s w u : State) n k bs tag (m : Mould) i, m = s.mould s.me.part n → i = (m.tile k).rows.length →
    w = (s.imageWrite s.me.part (m.rowAt k i) bs).imageWrite s.me.part (m.tagAt k i) (leBytes 4 tag.toNat) →
    u = w.setMould s.me.part n (fun m => m.setTile k fun t => { t with rows := t.rows ++ [w.myTask.record.branch] }) →
    s.placeRow n k bs tag = if i + 1 < m.rows then u else (u.cast s.me.part n k).2)
  ∧ (∀ (s : State) p n, (∀ m, s.openMould p n = some m →
      exec (.mouldEnable p n) s = .next (s.setPart p fun q => { q with moulds := put n m q.moulds }.noteCtl 0x861 (BitVec.ofNat 32 (n % 64)) false))
    ∧ (s.openMould p n = none → exec (.mouldEnable p n) s = .next (s.setPart p fun q => (q.mouldOff n).noteCtl 0x861 (BitVec.ofNat 32 (n % 64)) true))
    ∧ (s.mouldBusy p n = false → exec (.mouldDisable p n) s = .next (s.setPart p fun q => (q.mouldOff n).noteCtl 0x861 (BitVec.ofNat 32 (n % 64 + 256)) false))
    ∧ (s.mouldBusy p n = true → ∀ m, p < 8 → look n (s.part p).moulds = some m → exec (.mouldDisable p n) s = .next (s.setPart p fun q =>
        { q with moulds := put n { m with closing := true } q.moulds }.noteCtl 0x861 (BitVec.ofNat 32 (n % 64 + 256)) false)))
  ∧ (∀ (s u : State) p m, u = (if ((s.mould p m).tile 0).held && s.queueRoom p then s.launchConsumer p m 0 else s) →
    exec (.mouldConsumerLaunch p m) s = .next (if ((u.mould p m).tile 1).held && u.queueRoom p then u.launchConsumer p m 1 else u))
  ∧ (∀ (s v : State) p n k t, t = (s.mould p n).tile k → v = s.setMould p n (fun m => m.setTile k fun t => { t with held := false }) → s.queueRoom p = true →
    (∀ bs r l x, v.atelierRead p (s.mould p n).tmpl.toNat 64 = .ok bs → v.readTask p bs = some (r, l) →
      x = v.accept p { record := { r with args := BitVec.ofNat 64 ((s.mould p n).image k), parent := t.caster, branch := if r.branch = 0 then t.branch else r.branch },
                       kind := .consumer n k, fromTile := some t.fromTile, fromCluster := t.fromCluster } l →
      s.launchConsumer p n k = x.1.setMould p n fun m => m.setTile k fun t => { t with consumer := some x.2 })
    ∧ (∀ bs, v.atelierRead p (s.mould p n).tmpl.toNat 64 = .ok bs → v.readTask p bs = none → s.launchConsumer p n k = v.launchFault p (s.mould p n).tmpl.toNat none)
    ∧ (∀ e, v.atelierRead p (s.mould p n).tmpl.toNat 64 = .error e → s.launchConsumer p n k = v.launchFault p (s.mould p n).tmpl.toNat (some e)))

/-- GANG, K-steps, drains, tile-register moves and MMWAIT enter the engine queue, wait for it, take its results. (R191, R193, R195, R196, R197, R200, R201, R202, R203, R204) -/
def Obligations.MatrixIssue : Prop :=
  KStepForm .mma .dense ∧ KStepForm .mmasp .sparse ∧ KStepForm .mmaz .zero
  ∧ (∀ (s : State) a w, (decide ((gangMembers (s.rs a.toNat)).length ≤ 6) && decide ((s.rs a.toNat).toNat < 2 ^ s.myTeam.groups)) = true → s.clear true [.s a.toNat] = true →
    if s.myTeam.latch = [] then Ends (.gang a w) s (s.setMyTeam fun t => { t with gang := s.rs a.toNat }) else WaitsFor (.gang a w) s s .gangLatchFree)
  ∧ (∀ (s : State) a d, even a = true → s.clear true [.s a.toNat, .s (a.toNat + 1)] = true → s.myTeam.matPoisoned = none → s.readDrain none (s.rpair a.toNat).toNat = .ok d →
    if s.queueFull then WaitsFor (.drain a) s s .engineRoom else Ends (.drain a) s (s.enqueue (.drainMem d)))
  ∧ (∀ (s : State) d a x first, s.answer = none → s.awaiting = false → (vr d && even a) = true → s.clear false [.s a.toNat, .s (a.toNat + 1)] = true →
    s.myTeam.matPoisoned = none → s.readDrain (some d.toNat) (s.rpair a.toNat).toNat = .ok x → first = (s.gangOf.map fun g => g.2 * s.me.width.lanes).getD 0 →
    State.rowsFor [] ((List.range x.regs).map (d.toNat + ·)) s = true → s.queueFull = false →
    WaitsFor (.drainReg d a) s (s.enqueue (.drainReg x s.me.seq s.me.cur ((lanesOf s.active).filterMap fun l => if first + l < x.rows then some (l, first + l) else none)))
      (.matrixDone ((s.enqueue (.drainReg x s.me.seq s.me.cur ((lanesOf s.active).filterMap fun l => if first + l < x.rows then some (l, first + l) else none))).myTeam.matSeq)))
  ∧ (∀ (s : State) n data ls d a b q i c, s.answer = some (n, data) → State.rowsFor [] ((List.range n).map (d.toNat + ·)) s = true →
    ls = (List.range (data.length / (n + 1))).map (fun k => ((data.getD (k * (n + 1)) 0).toNat, (data.drop (k * (n + 1) + 1)).take n)) → d.toNat + n ≤ 48 →
    ∀ x, x = Instr.drainReg d a ∨ x = .tst d a b q i c → ∃ t, exec x s = .next t ∧ t.others = s.others ∧
      OwnV s t s.me.sreg (fun m l => if d.toNat ≤ m ∧ m < d.toNat + n then (match ls.find? (·.1 == l) with
        | some r => if l < 64 then r.2.getD (m - d.toNat) 0 else s.me.vlane m l
        | none => s.me.vlane m l) else s.me.vlane m l) s.me.cm)
  ∧ (∀ (s : State) d a b q i c (r : State), (small d 8 && vr a && decide (s.sliceIndex b q ≤ 31)) = true → s.clear false [.s b.toNat, .v a.toNat] = true →
    r = s.seen [.exm, .s b.toNat, .v a.toNat] → r.myTeam.matPoisoned = none → r.queueFull = false →
    ∃ t, exec (.tld d a b q i c) s = .next t ∧ Own r t r.me.sreg r.me.cm
      ∧ t.others = (r.enqueue (.tld d.toNat c i (r.sliceIndex b q) (r.tileLanes.map fun l => (l, r.me.vlane a.toNat l)))).others)
  ∧ (∀ (s : State) d a b q i c, s.answer = none → s.awaiting = false → (vr d && small a 8 && decide (s.sliceIndex b q ≤ 31)) = true → s.clear false [.s b.toNat] = true →
    s.myTeam.matPoisoned = none → State.rowsFor [] [d.toNat] s = true → s.queueFull = false →
    WaitsFor (.tst d a b q i c) s (s.enqueue (.tst a.toNat c i (s.sliceIndex b q) s.me.seq s.me.cur s.tileLanes))
      (.matrixDone ((s.enqueue (.tst a.toNat c i (s.sliceIndex b q) s.me.seq s.me.cur s.tileLanes)).myTeam.matSeq)))
  ∧ (∀ (s : State) d a b, (small d 8 && decide ((s.rs a.toNat).toNat ≤ 96) && decide ((s.rs b.toNat).toNat ≤ 96)) = true → s.clear true [.s a.toNat, .s b.toNat] = true →
    if s.queueFull then WaitsFor (.torg d a b) s s .engineRoom else Ends (.torg d a b) s (s.enqueue (.torg d.toNat (s.rs a.toNat).toNat (s.rs b.toNat).toNat)))
  ∧ (∀ (s : State) d w, s.clear true [] = true →
    (small d 8 = true → if s.queueFull then WaitsFor (.tzero d w) s s .engineRoom else Ends (.tzero d w) s (s.enqueue (.tzero d.toNat)))
    ∧ (if s.queueFull then WaitsFor (.tzeroAll w) s s .engineRoom else Ends (.tzeroAll w) s (s.enqueue .tzeroAll)))
  ∧ (∀ (s : State) w n, s.clear true [] = true → (s.path.wait = none ∧ n = s.myTeam.matSeq ∨ s.path.wait = some (.matrixDone n)) →
    if s.myTeam.matQueue.any (fun m => decide (m.seq ≤ n)) then WaitsFor (.mmwait w) s s (.matrixDone n)
    else s.myTeam.matPoisoned = none → Ends (.mmwait w) s (s.acquire 1))

/-- The engine performs the oldest operation: a dense K-step multiplies and accumulates every element once. (R195, R197, R198, R69, R70, R72, R203) -/
def Obligations.MatrixOperation : Prop :=
  (∀ (s : State) id m ms zero f rows fa fb read, (s.team? id).isSome = true → s.matrixTurn (s.team id) = true → (s.team id).matQueue = m :: ms → m.kind = .kstep zero false f rows → s.errors = [] →
    matFmt f.fmtA = some fa → matFmt f.fmtB = some fb → (rows.map (·.1)).Nodup → f.orgCol + f.n ≤ 128 → read = (s.team id).engineNat m.seen s.free →
    ∃ t, exec (.matrixOperation id) s = .next t ∧ t.me = s.me ∧ (t.team id).matQueue = ms
      ∧ (∀ row slice j hA hB, (row, slice) ∈ rows → j < f.n → hA = (if fa.isBx then read (f.aHdr + 2 * (row - f.orgRow)) 2 else 0) →
        hB = (if fb.isBx then read (f.bHdr + 2 * j) 2 else 0) →
        (t.team id).element row (f.orgCol + j) = (
          let a := (elements fa.bits (leNat (slice.flatMap fun w => leBytes 4 w.toNat))).map (fa.value hA)
          let b := (elements fb.bits (read (f.bOff + j * f.bStr) (4 * fb.bits))).map (fb.value hB)
          let old := if zero then 0 else (s.team id).element row (f.orgCol + j)
          if fa.isInt then stepInt old a b else stepFloat old.toNat a b).1)
      ∧ ∀ row col, col < 128 → (row ∉ rows.map (·.1) ∨ col < f.orgCol ∨ f.orgCol + f.n ≤ col) → (t.team id).element row col = (s.team id).element row col)
  ∧ (∀ (s : State) id, s.matrixTurn (s.team id) = false → exec (.matrixOperation id) s = .next s)
  ∧ (∀ (s : State) id m ms n r c, (s.team? id).isSome = true → s.matrixTurn (s.team id) = true → (s.team id).matQueue = m :: ms → m.kind = .torg n r c → n < 8 →
    ∃ t, exec (.matrixOperation id) s = .next t ∧ (t.team id).origins[n]? = some (r, c) ∧ (t.team id).matQueue = ms ∧ (t.team id).acc = (s.team id).acc)
  ∧ (∀ (s : State) id m ms, (s.team? id).isSome = true → s.matrixTurn (s.team id) = true → (s.team id).matQueue = m :: ms → m.kind = .tzeroAll →
    ∃ t, exec (.matrixOperation id) s = .next t ∧ (t.team id).matQueue = ms ∧ ∀ row col, (t.team id).element row col = 0)

/-- ENGQ hands a chain to an engine or is turned away; FWAIT, FTEST, FCANCEL and FRES act on a named future. (R207, R208, R209, R210) -/
def Obligations.Futures : Prop :=
  (∀ s d a e va u n, (even a && small e 7) = true → s.clear true [.s a.toNat, .s (a.toNat + 1)] = true → va = s.rpair a.toNat → scrBase ≤ va.toNat →
    va.toNat + 128 ≤ scrBase + s.myTeam.scr * 1024 → va.toNat % 128 = 0 → u = s.release 3 → n = u.engineOf s.me.part e.toNat →
    (∀ k, (List.range 64).find? (fun k => (u.myTeam.future k).state == .free) = some k → (u.queueOf s.me.part n).length < 64 →
      u.struck 8 s.me.tile (u.myTeam.futureWord k) = false → Ends (.engq d a e) s
        ((u.setMyTeam fun t => t.setFuture k fun f => { f with state := .pending, word := 0, jobs := 0, firstBad := 0 }).setEngine n fun e =>
          { e with chains := e.chains ++ [{ team := u.myTeam.id, part := s.me.part, future := k, ptr := va }] })
        (S := s.scalarsWith [d.toNat] [BitVec.ofNat 32 ((u.myTeam.future k).gen * 64 + k)]) (cm := s.cmWith 0 false))
    ∧ (((List.range 64).find? (fun k => (u.myTeam.future k).state == .free) = none ∨ 64 ≤ (u.queueOf s.me.part n).length) →
      Ends (.engq d a e) s u (S := s.scalarsWith [d.toNat] [0]) (cm := s.cmWith 0 true)))
  ∧ (∀ s d a e, (even a && small e 7) = true → s.clear true [.s a.toNat, .s (a.toNat + 1)] = true →
    ((s.rpair a.toNat).toNat < scrBase ∨ scrBase + s.myTeam.scr * 1024 < (s.rpair a.toNat).toNat + 128) →
    exec (.engq d a e) s = .next (s.raise { code := 0x05, mask := s.exm, vaddr := s.rpair a.toNat }))
  ∧ (∀ s d a w, s.clear true [.s a.toNat] = true → s.myTeam.named (s.rs a.toNat) = none →
    Ends (.fwait d a w) s s (S := s.scalarsWith [d.toNat] [5]) ∧ Ends (.ftest d a w) s s (S := s.scalarsWith [d.toNat] [5]) (cm := s.cmWith 0 false)
    ∧ Ends (.fcancel a w) s s ∧ (even d = true → Ends (.fres d a w) s s (S := s.scalarsWith [d.toNat, d.toNat + 1] [5, 0])))
  ∧ (∀ s d a w k c, s.clear true [.s a.toNat] = true → s.myTeam.named (s.rs a.toNat) = some k → s.struck 8 s.me.tile (s.myTeam.futureWord k) = false →
    c = (s.myTeam.future k).state.code →
    (if c = 0 then WaitsFor (.fwait d a w) s s (.future (s.rs a.toNat))
      else Ends (.fwait d a w) s (s.acquire 3) (S := s.scalarsWith [d.toNat] [BitVec.ofNat 32 c]))
    ∧ Ends (.ftest d a w) s (if c = 0 then s else s.acquire 3) (S := s.scalarsWith [d.toNat] [BitVec.ofNat 32 c]) (cm := s.cmWith 0 (c == 0))
    ∧ Ends (.fcancel a w) s (if c = 0 then s.cancelFuture s.me.team k else s)
    ∧ (even d = true → if c = 0 then WaitsFor (.fres d a w) s s (.future (s.rs a.toNat))
      else Ends (.fres d a w) s ((s.setMyTeam fun t => t.setFuture k fun f => { f with state := .free, gen := nextGen f.gen }).acquire 3)
        (S := s.scalarsWith [d.toNat, d.toNat + 1] [BitVec.ofNat 32 c, (s.myTeam.future k).word])))

/-- SPAWN launches a child task, CWAIT waits for children, CANCEL cancels a branch; task completion and early commit. (R211, R212, R213, R276) -/
def Obligations.TasksAndBranches : Prop :=
  (∀ (s : State) (d a : BitVec 6) w x ps n u bs v k l, even a = true → s.clear true [.s a.toNat, .s (a.toNat + 1)] = true →
    x = ({ lane := 64, va := (s.rpair a.toNat).toNat, size := 64 } : Access) → ps = s.placed (s.groupAgent s.me) .load [x] →
    s.mayAccess false .load 64 [x] true = true → n = s.entered false ps → u = n.release 3 →
    (bs, v) = u.loadAccess (n.groupAgent n.me) false (ps.headD x) → v.readTask s.me.part bs = some (k, l) →
    if v.queueRoom s.me.part then
      ∀ y, y = v.accept s.me.part { record := { k with parent := s.me.task, branch := if k.branch = 0 then v.myTask.record.branch else k.branch },
                                    fromTile := some s.me.tile, fromCluster := v.myTeam.tiles } l →
        Ends (.spawn d a w) s y.1 (S := s.scalarsWith [d.toNat] [BitVec.ofNat 32 y.2]) (cm := s.cmWith 0 (y.2 == 0))
    else Ends (.spawn d a w) s v (S := s.scalarsWith [d.toNat] [0]) (cm := s.cmWith 0 true))
  ∧ (∀ (s : State) w ids, s.clear true [] = true →
    (s.path.wait = none ∧ ids = (s.myPart.children s.me.task).map (·.id) ∨ s.path.wait = some (.tasks ids)) →
    if ids.all fun id => ((s.myPart.task? id).map (·.complete)).getD true then
      Ends (.cwait w) s (s.acquire 3) (cm := s.cmWith 0 (ids.any fun id => ((s.myPart.task? id).map (·.killed)).getD false))
    else WaitsFor (.cwait w) s s (.tasks ids))
  ∧ (∀ (s : State) a w ids, s.clear true [.s a.toNat] = true →
    (s.path.wait = none ∧ (s.myPart.children s.me.task).any (·.id == (s.rs a.toNat).toNat) = true ∧ ids = [(s.rs a.toNat).toNat]
      ∨ s.path.wait = some (.tasks ids)) →
    if ids.all fun id => ((s.myPart.task? id).map (·.complete)).getD true then
      Ends (.cwaitTask a w) s (s.acquire 3) (cm := s.cmWith 0 (ids.any fun id => ((s.myPart.task? id).map (·.killed)).getD false))
    else WaitsFor (.cwaitTask a w) s s (.tasks ids))
  ∧ (∀ (s : State) a w, s.clear true [.s a.toNat] = true → s.path.wait = none → (s.myPart.children s.me.task).any (·.id == (s.rs a.toNat).toNat) = false →
    Ends (.cwaitTask a w) s (s.acquire 3) (cm := s.cmWith 0 true))
  ∧ (∀ (s : State) a w b, b = bits (s.rs a.toNat) 0 16 → s.clear true [.s a.toNat] = true →
    (b = 0 → exec (.cancel a w) s = .next (s.raise { code := 0x03, mask := s.exm }))
    ∧ (b ≠ 0 → exec (.cancel a w) s = .next ((s.retire { stall := stallOf w }).cancelBranch s.me.part b))
    ∧ (b ≠ 0 → s.myPart.tasks.any (fun k => k.reachable && k.record.branch == b) = false → Ends (.cancel a w) s s))
  ∧ (∀ (s : State) p id k, (s.part p).task? id = some k →
    ((s.part p).completes k = false → exec (.taskComplete p id) s = .next s)
    ∧ ((s.part p).completes k = true → k.kind = .user → ∀ u, u = s.setPart p (fun q => q.setTask id fun k => { k with complete := true }) →
      exec (.taskComplete p id) s = .next (((u.part p).dep ++ (u.part p).depHold).foldl (fun u y => if y.task = some id then u.leaveUnit p y.num else u) u)))
  ∧ (∀ (s : State) p id k, (s.part p).task? id = some k →
    exec (.versionEarlyCommit p id) s = .next (if s.quotaWaits k && (s.part p).oldestVersion k && s.scanned k then
      (((s.taskTeams p id).foldl (fun s t => s.drainAll t.id) s).commitVersion p (k.version.getD 0)).setPart p fun q =>
        q.setTask id fun k => { k with vearly := true } else s))

/-- DLARM, DLRD and the fires of a deadline: counter, DLTRIG, host; steps 4, 5 and 6 of the unveiling. (R218, R219, R282, R283, R284, R285, R289) -/
def Obligations.Deadlines : Prop :=
  (∀ (s : State) a b w, s.clear true [.s a.toNat, .s b.toNat] = true →
    if (s.rs b.toNat).toNat < 64 then Ends (.dlarm a b w) s (s.setPart s.me.part fun p =>
        if p.unveiling.isSome then { p with armLater := some ((s.rs a.toNat).toNat, (s.rs b.toNat).toNat) } else p.arm (s.rs a.toNat).toNat (s.rs b.toNat).toNat)
    else exec (.dlarm a b w) s = .next (s.raise { code := 0x03, mask := s.exm }))
  ∧ (∀ (s : State) d w, even d = true → s.clear true [] = true →
    Ends (.dlrd d w) s s (S := s.scalarsWith [d.toNat, d.toNat + 1] [if s.myPart.armed then BitVec.ofNat 32 s.myPart.remaining else 0, s.myPart.deadlineStatus]))
  ∧ (∀ (s : State) p, ((s.part p).armed = true → (s.part p).remaining = 0 → exec (.deadlineExpiry p) s = .next (s.fire p 0))
    ∧ (((s.part p).armed = false ∨ (s.part p).remaining ≠ 0) → exec (.deadlineExpiry p) s = .next s)
    ∧ ((s.part p).state = .none → exec (.atctlFire p) s = .next s) ∧ ((s.part p).state ≠ .none → exec (.atctlFire p) s = .next (s.fire p 2))
    ∧ exec .dltrigRise s = .next ((List.range 8).foldl (fun s p => if (s.part p).state != .none && bit ((s.part p).reg 0x85F 0) 0 then s.fire p 1 else s) s))
  ∧ (∀ (s : State) p source mine u, mine = (fun (k : Task) => k.reachable && k.record.cancd) → (s.part p).stopping = false → (s.part p).unveiling = none →
    u = ({ step := 1, cause := source, period := s.refs, branches := ((((s.part p).tasks.filter mine).map (·.record.branch)).filter (· != 0)).eraseDups } : Unveiling) →
    s.fire p source = (((s.setPart p fun q =>
      { q with armed := false, remaining := 0, fired := true, unveils := q.unveils + 1, unveiling := some u }).markDying p mine).flushDying).finishCancels)
  ∧ (∀ (s : State) p source, (s.part p).stopping = true → s.fire p source = s.setPart p fun q => { q with armed := false })
  ∧ (∀ (s : State) p source u, (s.part p).stopping = false → (s.part p).unveiling = some u → s.fire p source = s.setPart p fun q => { q with unveiling := some (
      if u.period = s.refs then { u with cause := if u.cause = source then u.cause else 3 } else { u with extra := min (u.extra + 1) 0xFFFF }) })
  ∧ (∀ (s : State) p u x y, (s.part p).unveiling = some u → u.step = 1 → (s.part p).flushed = true → x = s.freeOnCancel p u.branches → y = x.2.dropRows p u.branches →
    exec (.unveilCancel p) s = .next (y.2.setPart p fun q => { q with unveiling := q.unveiling.map fun (u : Unveiling) => { u with step := 5, blocks := x.1, rows := y.1 } }))
  ∧ (∀ (s : State) p, ((s.part p).unveiling = none ∨ (∃ u, (s.part p).unveiling = some u ∧ (u.step ≠ 1 ∨ (s.part p).flushed = false))) → exec (.unveilCancel p) s = .next s)
  ∧ (∀ (s : State) p, s.captureDue p = false → exec (.unveilCapture p) s = .next s)
  ∧ (∀ (s : State) p u j, (s.part p).unveiling = some u → u.step = 5 → (s.part p).captureSlot = some j → (s.passing 0 = j ∨ (s.part p).reg2 0x853 = 0) → s.errors = [] →
    exec (.unveilCapture p) s = .next (s.setUnveiling p fun u => { u with
      step := 6, base := (s.part p).reg2 0x853, image := (s.slot j).bytes ++ leBytes 8 (s.slot j).header.toNat, status := 0 }))
  ∧ (∀ (s : State) p u, (s.part p).unveiling = some u → u.step = 5 → (s.part p).captureSlot = none → exec (.unveilCapture p) s = .next (s.setUnveiling p fun u => { u with
      step := 6, base := (s.part p).reg2 0x853, image := List.replicate 72 0, status := if (s.part p).designated then 2 else 1 }))
  ∧ (∀ (s v w : State) p u, (s.part p).unveiling = some u → u.step = 6 → u.written = false → s.refs ≠ u.period →
    (u.base = 0 ∧ v = s ∨ u.base ≠ 0 ∧ s.atelierWrite p u.base (s.resultRecord p u) = .ok v) → w = (v.setUnveiling p fun u => { u with written := true }).msi (p + 1) 0 →
    ((w.part p).reg2 0x855 = 0 → exec (.unveilCapture p) s = .next (w.endUnveiling p))
    ∧ ((w.part p).reg2 0x855 ≠ 0 → w.taskRoom = false → exec (.unveilCapture p) s = .next w)
    ∧ ∀ bs r l x, (w.part p).reg2 0x855 ≠ 0 → w.taskRoom = true → ((w.part p).unveiling.map fun u => u.failed) = some false →
      w.atelierRead p ((w.part p).reg2 0x855) 64 = .ok bs → w.readTask p bs = some (r, l) →
      x = w.accept p { record := { r with args := BitVec.ofNat 64 u.base, parent := 0, branch := 0 }, kind := .unveil } l →
      exec (.unveilCapture p) s = .next (x.1.setPart p fun q => { q with unveiling := q.unveiling.map fun (u : Unveiling) => { u with step := 7, handler := some x.2 } }))
  ∧ (∀ (s : State) p u e, (s.part p).unveiling = some u → u.step = 6 → u.written = false → s.refs ≠ u.period → u.base ≠ 0 → s.atelierWrite p u.base (s.resultRecord p u) = .error e →
    ∀ w, w = (((s.atelierFault p e true).setUnveiling p fun u => { u with failed := true }).setUnveiling p fun u => { u with written := true }).msi (p + 1) 0 →
    (w.part p).reg2 0x855 = 0 → exec (.unveilCapture p) s = .next (w.endUnveiling p))

/-- The Turntable instructions queue at their station, wait, and take the answer; operations on the passing slot. (R220, R221, R222, R223, R224, R225, R226) -/
def Obligations.Turntable : Prop :=
  (∀ (s : State) d i, s.answer = none → s.clear true [] = true → small i 2 = true → TTQueues (.ttboard d i) s none false (.board i.toNat))
  ∧ (∀ (s : State) a v, v = s.rs a.toNat → s.answer = none → s.clear true [.s a.toNat] = true → v.toNat < 64 → TTQueues (.ttalight a) s (some v) false .alight)
  ∧ (∀ (s : State) d a h q v, v = s.rs a.toNat → s.answer = none → s.clear true [.s a.toNat] = true → v.toNat < 64 → block d = true →
    TTQueues (.ttread d a h q) s (some v) false (.read h))
  ∧ (∀ (s : State) d a b r q w v, v = s.rs a.toNat → s.answer = none → s.clear true (.s a.toNat :: blockUse d 2 ++ blockUse b 2) = true → v.toNat < 64 →
    (even d && even b) = true → TTQueues (.ttcas d a b r q w) s (some v) r (.cas w.toNat (s.rpair d.toNat) (s.rpair b.toNat)))
  ∧ (∀ (s : State) a b r q v, v = s.rs a.toNat → s.answer = none → s.clear true (.s a.toNat :: blockUse b 16) = true → v.toNat < 64 → block b = true →
    TTQueues (.ttmax a b r q) s (some v) r (.max (s.rblock b.toNat)))
  ∧ (∀ (s : State) d a b c r q w v, v = s.rs a.toNat → s.answer = none → s.clear true (.s a.toNat :: blockUse b (if c then 1 else 2)) = true → v.toNat < 64 →
    (even d && (c || even b)) = true →
    TTQueues (.ttadd d a b c r q w) s (some v) r (.add w.toNat c (if c then (s.rs b.toNat).setWidth 64 else s.rpair b.toNat)))
  ∧ (∀ (s : State) (d a b : BitVec 6) i h c r q w n ws, s.answer = some (n, ws) → n ≠ 3 → n ≠ 7 → d.toNat + ws.length ≤ 64 →
    TTAnswered (.ttboard d i) s d.toNat ws false (s.cmWith 0 (n != 0)) ∧ TTAnswered (.ttalight a) s 0 [] false s.me.cm
    ∧ TTAnswered (.ttread d a h q) s d.toNat ws q s.me.cm ∧ TTAnswered (.ttcas d a b r q w) s d.toNat ws q (s.cmWith 0 (n != 0))
    ∧ TTAnswered (.ttmax a b r q) s 0 [] q (s.cmWith 0 (n != 0)) ∧ TTAnswered (.ttadd d a b c r q w) s d.toNat ws q s.me.cm)
  ∧ (∀ (s : State) a v, v = s.rs a.toNat → s.clear true [.s a.toNat] = true → v.toNat < 64 → (look v.toNat s.myPart.vslots).isSome = true →
    (look v.toNat s.me.ttLast = none → Ends (.ttwait a) s s)
    ∧ ∀ k c, look v.toNat s.me.ttLast = some (k, c) → if s.now < c + 192 then WaitsFor (.ttwait a) s s (.ringPass (c + 192)) else Ends (.ttwait a) s s)
  ∧ (∀ (s : State) (d a b : BitVec 6) i h c r q w x n ws, s.answer = some (n, ws) →
    x ∈ [Instr.ttboard d i, .ttalight a, .ttread d a h q, .ttcas d a b r q w, .ttmax a b r q, .ttadd d a b c r q w] →
    (n = 3 → exec x s = .next (s.raise { code := 0x0C, detail := 3, mask := s.exm }))
    ∧ (n = 7 → exec x s = .next (s.raise { code := 0x0D, detail := 7, mask := s.exm })))
  ∧ (∀ (s : State) st o os j, s.station st = o :: os → look o.vslot (s.part o.part).vslots = some j → s.passing st = j → o.queuedAt < s.now →
    (∀ kind, o.kind ≠ .board kind) → (s.ttStruck j o.kind = true → exec (.turntablePerform st) s = .next ((s.ttPop st).grant o.group o.path 7 []))
    ∧ (s.ttStruck j o.kind = false → ∀ u x, u = (s.ttPop st).ttNote o o.vslot st → x = s.slot j →
      (∀ h, o.kind = .read h → exec (.turntablePerform st) s = .next (u.grant o.group o.path 0 (wordsOf64 (if h then [x.header] else x.payload.toList))))
      ∧ (∀ w old new, o.kind = .cas w old new → exec (.turntablePerform st) s = .next (
          (if x.word w = old then u.setSlot j fun x => x.setWord w new st else u).grant o.group o.path (if x.word w = old then 0 else 1) (wordsOf64 [x.word w])))
      ∧ (∀ w c v, o.kind = .add w c v → exec (.turntablePerform st) s = .next (
          (u.setSlot j fun y => y.setWord w (if c then BitVec.ofNat 64 (pairStep (x.word w).toNat (bits v 0 32)) else x.word w + v) st).grant
            o.group o.path 0 (wordsOf64 [x.word w])))
      ∧ (∀ ds, o.kind = .max ds → exec (.turntablePerform st) s = .next (
          if keyAbove x.kind (ds.headD 0) (x.word 0) then
            ((u.ttSound j).setSlot j fun x => { x with payload := Vector.ofFn fun i : Fin 8 => ds.getD i 0, lastw := st }).grant o.group o.path 0 []
          else u.grant o.group o.path 1 []))
      ∧ (o.kind = .alight → exec (.turntablePerform st) s = .next (
          (((u.ttSound j).setSlot j fun x => { x with owner := 0xF, payload := Vector.replicate 8 0 }).setPart o.part fun p =>
            { p with vslots := drop o.vslot p.vslots }).grant o.group o.path 0 []))))
  ∧ (∀ (s : State) st o os, s.station st = o :: os → (∀ kind, o.kind ≠ .board kind) → look o.vslot (s.part o.part).vslots = none →
    exec (.turntablePerform st) s = .next ((s.ttPop st).grant o.group o.path 3 []))
  ∧ (∀ (s : State) st o os kind, s.station st = o :: os → o.kind = .board kind →
    (∀ n u, (s.part o.part).freeVslot = some n → (s.slot (s.passing st)).owner = 0xF → o.queuedAt < s.now →
      u = ((s.ttPop st).ttSound (s.passing st)).setSlot (s.passing st) (fun _ => { owner := o.part, kind := kind, rev := 0, lastw := st }) →
      exec (.turntablePerform st) s = .next ((((if st = 0 then { u with revAt := s.now + 1 } else u).setPart o.part
        (fun p => { p with vslots := put n (s.passing st) p.vslots })).ttNote o n st).grant o.group o.path 0 [BitVec.ofNat 32 n]))
    ∧ ((s.part o.part).freeVslot = none ∨ o.queuedAt + 192 ≤ s.now ∧ (s.slot (s.passing st)).owner ≠ 0xF →
      exec (.turntablePerform st) s = .next ((s.ttPop st).grant o.group o.path 1 [0xFFFFFFFF])))
  ∧ (∀ (s : State) st, s.ttDue st = false → exec (.turntablePerform st) s = .next s)
  ∧ (∀ (s : State) slot, slot < 192 → s.passing 0 = slot → s.revAt ≤ s.now →
    exec (.revolution slot) s = .next (State.setSlot { s with revAt := s.now + 1 } slot fun x => { x with rev := x.rev + 1 }))
  ∧ (∀ (s : State) slot, s.passing 0 ≠ slot ∨ s.now < s.revAt → exec (.revolution slot) s = .next s)

/-- VPUSH, VPOP, VCOUNT and the channel of a pair; MBPOST, MBTAKE and the mailbox grants. (R227, R228, R229, R382, R392, R393) -/
def Obligations.FifosAndMailboxes : Prop :=
  (∀ (s r : State) d a n, vr a = true → s.clear false [.v a.toNat] = true → r = s.seen [.exm, .v a.toNat] →
    (r.stackedPartner = false → exec (.vpush d a n) s = .next (r.fail { code := 0x0C, detail := 6, mask := r.active }))
    ∧ (r.stackedPartner = true → ∀ tile, tile = r.me.tile →
      if r.pairGated tile then ∃ t, exec (.vpush d a n) s = .next t ∧ Own r t (r.scalarsWith [d.toNat] [2]) r.me.cm ∧ t.others = r.others
      else if 1 ≤ (r.channel tile).held then ∃ t, exec (.vpush d a n) s = .next t ∧ Own r t (r.scalarsWith [d.toNat] [0]) r.me.cm ∧ t.others =
        ((r.release 2).setChannel tile fun c => { c with held := c.held - 1, sent := c.sent + 1, link := c.link ++
          [(List.range r.me.width.lanes).map fun k => if r.active.getLsbD k then r.me.vlane a.toNat k else 0] }).others
      else if n then ∃ t, exec (.vpush d a n) s = .next t ∧ Own r t (r.scalarsWith [d.toNat] [1]) r.me.cm ∧ t.others = r.others
      else ∃ t, exec (.vpush d a n) s = .next t ∧ Blocks r t .fifoSpace ∧ t.others = r.others))
  ∧ (∀ (s : State) d b n, vr d = true → s.clear false [] = true → s.stackedPartner = true → ∀ ch c, ch = partner s.me.tile → c = s.channel ch →
    (∀ e es, c.fifo = e :: es → State.rowsFor [] [d.toNat] s = true → (s.fifoStruck s.me.tile s.active ≠ 0 →
      exec (.vpop d b n) s = .next (s.fail { code := 0x0D, detail := 8, mask := s.fifoStruck s.me.tile s.active }))
      ∧ (s.fifoStruck s.me.tile s.active = 0 → ∃ t, exec (.vpop d b n) s = .next t ∧
      t.others = (((s.setChannel ch fun c => { c with fifo := es, back := c.back + 1, taken := c.taken + 1 }).moveUp 9 s.me.tile 0 32 512).acquire 2).others ∧
      OwnV s t (s.scalarsWith [b.toNat] [0]) (fun m l => if m = d.toNat ∧ s.active.getLsbD l then e.getD l 0 else s.me.vlane m l) s.me.cm))
    ∧ (c.fifo = [] → if s.pairGated s.me.tile && c.link == [] then Ends (.vpop d b n) s s (S := s.scalarsWith [b.toNat] [2])
      else if n then Ends (.vpop d b n) s s (S := s.scalarsWith [b.toNat] [1]) else WaitsFor (.vpop d b n) s s .fifoEntry))
  ∧ (∀ (s : State) d b n, vr d = true → s.clear false [] = true → s.stackedPartner = false →
    exec (.vpop d b n) s = .next (s.fail { code := 0x0C, detail := 6, mask := s.active }))
  ∧ (∀ (s : State) d w, s.clear true [] = true → Ends (.vcount d 0 w) s s (S := s.scalarsWith [d.toNat] [BitVec.ofNat 32 (s.channel s.me.tile).held])
    ∧ Ends (.vcount d 1 w) s s (S := s.scalarsWith [d.toNat] [BitVec.ofNat 32 (s.channel (partner s.me.tile)).fifo.length]))
  ∧ (∀ (s : State) tile,
    (1 ≤ (s.channel tile).stale → exec (.fifoEntryLand tile) s = .next ((s.setChannel tile fun c => { c with stale := c.stale - 1 }).countStale (s.coreOwner tile) 1))
    ∧ ((s.channel tile).stale = 0 → ∀ e es u, (s.channel tile).link = e :: es → u = s.sound 9 (partner tile) (32 * (s.channel tile).fifo.length) 32 →
      ((s.channel tile).dead = 0 → exec (.fifoEntryLand tile) s = .next (u.setChannel tile fun c => { c with link := es, fifo := c.fifo ++ [e] }))
      ∧ (1 ≤ (s.channel tile).dead → exec (.fifoEntryLand tile) s = .next (u.setChannel tile fun c => { c with link := es, back := c.back + 1, dead := c.dead - 1 })))
    ∧ ((s.channel tile).stale = 0 → (s.channel tile).link = [] → exec (.fifoEntryLand tile) s = .next s))
  ∧ (∀ (s : State) tile,
    (1 ≤ (s.channel tile).staleBack →
      exec (.permitReturn tile) s = .next ((s.setChannel tile fun c => { c with staleBack := c.staleBack - 1 }).countStale (s.coreOwner tile) 1))
    ∧ ((s.channel tile).staleBack = 0 → 1 ≤ (s.channel tile).back →
      exec (.permitReturn tile) s = .next (s.setChannel tile fun c => { c with back := c.back - 1, held := c.held + 1 }))
    ∧ ((s.channel tile).staleBack = 0 → (s.channel tile).back = 0 → exec (.permitReturn tile) s = .next s))
  ∧ (∀ (s r u : State) a b n id, id = (s.rs b.toNat).toNat → s.answer = none ∨ s.reservedBox = none → r = s.stalePost → (block a && mailboxId (s.rs b.toNat)) = true →
    r.clear true (.s b.toNat :: (List.range 16).map fun k => .s (a.toNat + k)) = true →
    (r.myPart.ownsMailbox id = false → exec (.mbpost a b n) s = .next (r.raise { code := 0x0C, detail := 3, mask := r.exm }))
    ∧ (r.myPart.ownsMailbox id = true → u = r.release 3 →
      if !n && !u.waitOver u.me .postTable then WaitsFor (.mbpost a b n) s u .postTable
      else if (u.mailbox id).slots.length < 8 then Ends (.mbpost a b n) s (u.storeMail id { data := s.message a }) (cm := s.cmWith 0 false)
      else if n then Ends (.mbpost a b n) s u (cm := s.cmWith 0 true)
      else WaitsFor (.mbpost a b n) s (u.setMailbox id fun m => { m with posts := m.posts ++ [{ group := s.me.seq, path := s.me.cur, data := s.message a }] }) (.mailbox id false)))
  ∧ (∀ (s : State) a b n id, s.answer.isSome = true → s.reservedBox = some id → Ends (.mbpost a b n) s (s.setMailbox id fun m =>
      { m with slots := m.slots.map fun x => if x.owner = some (s.me.seq, s.me.cur) then { x with owner := none } else x }) (cm := s.cmWith 0 false))
  ∧ (∀ (s : State) d b n id, id = (s.rs b.toNat).toNat → s.answer = none → (block d && mailboxId (s.rs b.toNat)) = true → s.clear true [.s b.toNat] = true →
    (s.myPart.ownsMailbox id = false → exec (.mbtake d b n) s = .next (s.raise { code := 0x0C, detail := 3, mask := s.exm }))
    ∧ (s.myPart.ownsMailbox id = true → ∀ k, k = (s.mailbox id).takes.length →
      (∀ e, (s.mailbox id).ready[k]? = some e → e.data.length = 16 → (s.mailStruck id k = true → exec (.mbtake d b n) s = .next (s.fail { code := 0x0D, detail := 8, mask := s.exm }))
        ∧ (s.mailStruck id k = false → Ends (.mbtake d b n) s ((s.takeMail id k).acquire 3)
          (S := s.scalarsWith ((List.range 16).map (d.toNat + ·)) e.data) (cm := s.cmWith 0 false)))
      ∧ ((s.mailbox id).ready[k]? = none → if n then Ends (.mbtake d b n) s s (cm := s.cmWith 0 true)
        else WaitsFor (.mbtake d b n) s (s.setMailbox id fun m => { m with takes := m.takes ++ [(s.me.seq, s.me.cur)] }) (.mailbox id true))))
  ∧ (∀ (s : State) d b n c ws, s.answer = some (c, ws) → (c = 8 → exec (.mbtake d b n) s = .next (s.fail { code := 0x0D, detail := 8, mask := s.exm }))
    ∧ (c ≠ 8 → block d = true → ws.length = 16 →
      Ends (.mbtake d b n) s (s.acquire 3) (S := s.scalarsWith ((List.range 16).map (d.toNat + ·)) ws) (cm := s.cmWith 0 false)))
  ∧ (∀ (s : State) id,
    (∀ t ts e es, (s.mailbox id).takes = t :: ts → (s.mailbox id).ready = e :: es →
      exec (.mailboxGrant id) s = .next (((s.takeMail id 0).setMailbox id fun m => { m with takes := ts }).grant t.1 t.2 (if s.mailStruck id 0 then 8 else 0) e.data))
    ∧ ((s.mailbox id).takes = [] ∨ (s.mailbox id).ready = [] → (∀ x, (s.mailbox id).ungranted = some x →
        exec (.mailboxGrant id) s = .next ((s.setMailbox id fun m => { m with slots := m.slots.map fun y => if y.owner = some x then { y with sent := true } else y }).grant x.1 x.2 1 []))
      ∧ ((s.mailbox id).ungranted = none → exec (.mailboxGrant id) s = .next s)))

/-- Launch queues, acceptance, dispatch, ageing and the dependence unit. (R236, R264, R267, R268, R272, R441) -/
def Obligations.LaunchAndDispatch : Prop :=
  (∀ (s : State) p q v, (q < 4 → (s.part p).state ≠ .none → exec (.launchDoorbell p q v) s = .next (s.setPart p fun x =>
      if (v - x.reg (0x963 + 4 * q) 0).toNat ≤ 2 ^ x.lqSize q then x.setReg (0x970 + q) v else { x with badDb := true }))
    ∧ (4 ≤ q ∨ (s.part p).state = .none → exec (.launchDoorbell p q v) s = .next s))
  ∧ (∀ (s : State) p q, (s.part p).state = .run → (s.part p).stopping = false → (s.part p).nextQueue = some q →
    (∀ r, s.atelierRead p ((s.part p).entryAddr q) 16 = .error r → exec (.launchEntryRead p q) s = .next (s.entryDone (s.atelierFault p r false) p q))
    ∧ ∀ e x, s.atelierRead p ((s.part p).entryAddr q) 16 = .ok e → x = s.launchEntry p q e →
      (∀ u, x.1.atelierWrite p ((s.part p).entryAddr q + 12) (leBytes 4 x.2) = .ok u → exec (.launchEntryRead p q) s = .next (s.entryDone u p q))
      ∧ ∀ r, x.1.atelierWrite p ((s.part p).entryAddr q + 12) (leBytes 4 x.2) = .error r →
        exec (.launchEntryRead p q) s = .next (s.entryDone (x.1.atelierFault p r true) p q))
  ∧ (∀ (s : State) p q, (s.part p).state ≠ .run ∨ (s.part p).stopping = true ∨ (s.part p).nextQueue ≠ some q → exec (.launchEntryRead p q) s = .next s)
  ∧ (∀ (s : State) p q e, natAt e 0 8 % 64 ≠ 0 → s.launchEntry p q e = (s, 0xFFFFFFFF))
  ∧ (∀ (s : State) p q e bs r l n, natAt e 0 8 % 64 = 0 → s.taskRoom = true → s.atelierRead p (natAt e 0 8) 64 = .ok bs → s.readTask p bs = some (r, l) →
    n = natAt e 8 2 → 0 < n → n ≤ 96 / r.members →
    s.launchEntry p q e = s.accept p { record := { r with parent := 0 }, clusters := n, priv := (s.part p).privq.getLsbD q } l)
  ∧ (∀ (s : State), s.now < s.dispatchAt → exec .dispatch s = .next s)
  ∧ (∀ (s : State), s.dispatchAt ≤ s.now → (∀ x, s.nextDispatch = some x → exec .dispatch s = .next (s.dispatched x))
    ∧ (s.nextDispatch = none → ((∀ p ∈ s.visits, s.offer p = none) → exec .dispatch s = .next s)
      ∧ ((∃ p ∈ s.visits, s.offer p ≠ none) → exec .dispatch s = .next (match s.creditsFilled.nextDispatch with
        | some x => s.creditsFilled.dispatched x
        | none => s.creditsFilled))))
  ∧ (∀ (s : State) p id, exec (.taskAgeing p id) s = .next (s.setPart p fun q => q.setTask id fun k =>
      if s.ageDue q k then { k with boost := k.boost + 1 } else k))
  ∧ (∀ (s : State) p, (∀ y ys, (s.part p).depHold = y :: ys → (s.part p).dep.length < 256 →
      exec (.dependenceUnitEnter p) s = .next ((s.setPart p fun q => { q with dep := q.dep ++ [{ y with edges := edgesOf q.dep y }], depHold := ys }).review p))
    ∧ ((s.part p).depHold = [] ∨ 256 ≤ (s.part p).dep.length → exec (.dependenceUnitEnter p) s = .next (s.review p)))

/-- Time slices, drain overruns, evictions: the action taken on a team; its save and its restore. (R286, R287, R288, R317) -/
def Obligations.Preemption : Prop :=
  (∀ (s : State) t r goal, r = (s.taskOf t).record → goal = r.beats * 1024 →
    (((r.vers || r.idem) = true ∧ r.beats ≠ 0 ∧ 4 * t.beats < goal) → s.preemption t = .flush)
    ∧ (¬ ((r.vers || r.idem) = true ∧ r.beats ≠ 0 ∧ 4 * t.beats < goal) → r.beats ≠ 0 → goal ≤ t.beats + ((s.part t.part).reg 0x851 0).toNat * 1024 → s.preemption t = .drain)
    ∧ (¬ ((r.vers || r.idem) = true ∧ r.beats ≠ 0 ∧ 4 * t.beats < goal) → ¬ (r.beats ≠ 0 ∧ goal ≤ t.beats + ((s.part t.part).reg 0x851 0).toNat * 1024) → s.preemption t = .save))
  ∧ (∀ (s : State) id t w, s.team? id = some t → t.preempt = false → t.flushing = false →
    (s.preemption t = .flush → s.preemptTeam id w =
      ({ s with teams := s.teams.map fun x => if ((s.restartTeams t).map (·.id)).contains x.id then { x with flushing := true } else x } : State).restartFlushed)
    ∧ (s.preemption t = .drain → s.preemptTeam id w = s.setTeam id fun t => { t with draining := true })
    ∧ (s.preemption t = .save → (w = true ∨ (s.part t.part).canSave = true) → s.preemptTeam id w = s.askSave t)
    ∧ (s.preemption t = .save → w = false → (s.part t.part).canSave = false → s.preemptTeam id w = s))
  ∧ (∀ (s : State) p, (s.sliceOver p = true → exec (.timeSliceEnd p) s = .next (((((s.teams.filter fun t => t.part == p && s.coreWanted p t.tile).map (·.id)).foldl
        (fun s id => s.preemptTeam id false) s)).setPart p fun q => { q with sliceSince := s.refs }))
    ∧ (s.sliceOver p = false → exec (.timeSliceEnd p) s = .next s))
  ∧ (∀ (s : State) id t, s.team? id = some t → (s.overrun t = true → exec (.drainOverrun id) s = .next (s.askSave t))
    ∧ (s.overrun t = false → exec (.drainOverrun id) s = .next s))
  ∧ (∀ (s : State) id t u, s.team? id = some t →
    (s.saveReady t = true → u = (s.saveTeams t).foldl State.saveTeam s →
      exec (.teamSave id) s = .next ((if u.stacked t then t.tiles.foldl State.resetChannel u else u).captureSlots t.part))
    ∧ (s.saveReady t = false → exec (.teamSave id) s = .next s))
  ∧ (∀ (s : State) t, s.team? t.id = some t → (s.saveTeam t).team? t.id = none ∧ (∀ g ∈ (s.saveTeam t).groups, g.team ≠ t.id)
    ∧ ∃ v ∈ (s.saveTeam t).saved, v.team.id = t.id ∧ v.team.part = t.part ∧ v.team.task = t.task ∧ v.groups.length = (s.allGroups.filter (·.team == t.id)).length)
  ∧ (∀ (s : State) id v, s.saved.find? (·.team.id == id) = some v →
    (s.restoreReady v = true → exec (.teamRestore id) s = .next ((s.savedWith v).foldl
      (fun u x => u.restoreTeam x ((s.restorePlaces v).getD (Config.choice s.free % (s.restorePlaces v).length) [])) (s.reboard v.team.part)))
    ∧ (s.restoreReady v = false → exec (.teamRestore id) s = .next s))
  ∧ (∀ (s : State) v ts, (∃ x ∈ (s.restoreTeam v ts).teams, x.id = v.team.id ∧ x.tile = v.tileIn ts) ∧ ∀ x ∈ (s.restoreTeam v ts).saved, x.team.id ≠ v.team.id)
  ∧ (∀ (s : State) v k, v ∈ s.restorePlaces k → (s.taskOf k.team).record.clus = false → ∃ tile, v = [tile] ∧ s.readmits k tile = true)
  ∧ (∀ (s : State) v k, v ∈ s.restorePlaces k → ((s.taskOf k.team).record.clus && (s.taskOf k.team).record.stack) = true →
    ∀ x ∈ s.savedWith k, s.readmits x (v.getD x.team.member 0) = true)
  ∧ (∀ (s : State) p, ((s.part p).state ≠ .none → exec (.eviction p) s = .next (((((s.teams.filter (·.part == p)).map (·.id)).foldl
      (fun s id => s.preemptTeam id true) s).setPart p fun q => { q with evicted := true }).captureSlots p))
    ∧ ((s.part p).state = .none → exec (.eviction p) s = .next s))

/-- The fault queue: writing a record, REPLAY, DELIVER, KILL; TLB invalidation; words that cannot be issued; soft errors. (R38, R39, R326, R328, R329, R338, R342, R343) -/
def Obligations.FaultRecords : Prop :=
  (∀ (s : State) p c u, s.faultDue p = true → s.recordOf p = some (c, u) →
    (c.sysh = true → exec (.faultQueueRecord p) s = .next ((s.recorded u p c).msi (p + 1) 1))
    ∧ (c.sysh = false → (s.part p).killsAlone = true → exec (.faultQueueRecord p) s = .next ((s.recorded u p c).noHandler p c))
    ∧ (c.sysh = false → (s.part p).killsAlone = false → exec (.faultQueueRecord p) s = .next (if ((s.recorded u p c).part p).handlerLive then s.recorded u p c
      else (s.recorded u p c).launchHandler p c)))
  ∧ (∀ (s u : State) p c, p < 8 → s.stopped? c = none → ((s.recorded u p c).part p).reg 0x873 0 = (s.part p).reg 0x873 0 + 1
    ∧ ((s.recorded u p c).part p).records = (u.part p).records ++ [{ seq := ((s.part p).reg 0x873 0).toNat, cause := c, acted := (s.part p).killsAlone }])
  ∧ (∀ (s : State) p c bs r l args, (s.part p).reg2 0x877 ≠ 0 → s.atelierRead p ((s.part p).reg2 0x877) 64 = .ok bs → s.readTask p bs = some (r, l) →
    args = (s.part p).reg2 0x870 + 64 * (((s.part p).reg 0x874 0).toNat % (s.part p).fqSize) →
    s.launchHandler p c = (s.accept p { record := { r with args := BitVec.ofNat 64 args, parent := 0, branch := 0 }, kind := .system, priv := true } l).1)
  ∧ (∀ (s : State) p, s.faultDue p = false → exec (.faultQueueRecord p) s = .next s)
  ∧ (∀ (s : State) p q, (s.part p).state ≠ .none → (s.part p).outstanding q = none → exec (.faultReplay p q) s = .next (s.actRefused p)
    ∧ exec (.faultDeliver p q) s = .next (s.actRefused p) ∧ exec (.faultKill p q) s = .next (s.actRefused p))
  ∧ (∀ (s : State) p q r, (s.part p).state ≠ .none → (s.part p).outstanding q = some r →
    (exec (.faultKill p q) s = .next (if r.cause.task = 0 then s.actRefused p else (s.acted p r).killTask p r.cause.task))
    ∧ (∀ id, r.cause.copy = some id → exec (.faultReplay p q) s = .next (if r.cause.replay then
        { s with copies := s.copies.map fun (c : Copy) => if c.id = id then { c with waits := false } else c }.acted p r else s.actRefused p))
    ∧ (∀ g n, r.cause.copy = none → s.stopped? r.cause = some (g, n) → exec (.faultReplay p q) s = .next (if r.cause.replay then
        (s.mapGroups (·.seq == g.seq) fun g => g.atCycle s.now fun g => g.unpark n r.cause).acted p r else s.actRefused p))
    ∧ (r.cause.copy = none → s.stopped? r.cause = none → exec (.faultReplay p q) s = .next (s.actRefused p) ∧ exec (.faultDeliver p q) s = .next (s.actRefused p))
    ∧ (s.undeliverable p r → exec (.faultDeliver p q) s = .next (s.actRefused p))
    ∧ (¬ s.undeliverable p r → (∀ id, r.cause.copy = some id → exec (.faultDeliver p q) s = .next (if s.handles p r.cause then s.actRefused p else
          { s with copies := s.copies.map fun (k : Copy) => if k.id = id then { k with waits := false, failed := true } else k }.acted p r))
      ∧ ∀ g n, r.cause.copy = none → s.stopped? r.cause = some (g, n) → exec (.faultDeliver p q) s = .next (if g.handler.isSome then s.actRefused p else
          (s.mapGroups (·.seq == g.seq) fun g => g.atCycle s.now fun g => ((g.setPath n fun p => { p with parked := none }).userTrap n
            ((((s.part p).task? r.cause.task).map (·.record.handler)).getD 0) r.cause.cause r.cause.mask (g.path n).pc r.cause.inst).refill 72).acted p r)))
  ∧ (∀ (s : State) p, ∃ t, exec (.tlbInvalidateAll p) s = .next t ∧ ∀ x ∈ t.translations, x.1 ≠ p)
  ∧ (∀ (s : State) p, ∃ t, exec (.tlbInvalidateAddress p) s = .next t ∧ ∀ x ∈ t.translations, x.1 = p →
      (s.part p).reg2 0x87B / 2 ^ pageLog (x.2.1 % 4) ≠ x.2.1 / 2 ^ pageLog (x.2.1 % 4))
  ∧ (∀ (s : State) w, exec (.illegalInstruction w) s = .next ((s.withMe fun g => { g with ir := w }).raise { code := 0x02, mask := s.active })
    ∧ exec (.illFormedWord w) s = .next ((s.withMe fun g => { g with ir := w }).raise { code := 0x03, mask := s.active }))
  ∧ (∀ (s : State), (∀ c, s.fetchCause s.pc = some c → exec .fetchFault s = .next (s.raise c))
    ∧ (s.fetchCause s.pc = none → (∀ c, s.fetchCause (pc56 (s.pc + 4)) = some c → exec .fetchFault s = .next (s.raise c))
      ∧ (s.fetchCause (pc56 (s.pc + 4)) = none → exec .fetchFault s = .next s)))
  ∧ (∀ (s : State) kind tile addr, kind ≤ 10 → tile < 96 → exec (.softError kind tile addr false) s = .next (s.countCe (if kind = 4 then homeOf addr else tile) kind))
  ∧ (∀ (s : State) kind tile addr home, kind ≤ 10 → tile < 96 → home = (if kind = 4 then homeOf addr else if kind = 7 then 0 else tile) →
    ∃ t, exec (.softError kind tile addr true) s = .next t ∧ t.struck kind home addr = true ∧ ({ t with errors := s.errors } : State) = s)
  ∧ (∀ (s : State) addr double, ∃ t, exec (.softError 4 127 addr double) s = .next t ∧ ({ t with errors := s.errors } : State) = s ∧
    ∃ e ∈ t.errors, e.kind = 4 ∧ e.addr = addr ∧ (double = true → e.double = true))
  ∧ (∀ (s : State) kind tile addr double, 10 < kind ∨ 96 ≤ tile ∧ ¬ (kind = 4 ∧ tile = 127) → exec (.softError kind tile addr double) s = .next s)

/-- Scan rotation and its results, SCANACT, CDMASK, patrol rows; transfers that end, host accesses. (R298, R302, R341, R424, R425, R427, R428, R429, R437) -/
def Obligations.ScansAndPatrol : Prop :=
  (∀ (s : State) u, s.scanDueNow = true → u = { s with scanDue := s.refs + s.scanPer.toNat } →
    exec .scanRotation s = .next (match ((List.range 96).map fun k => (s.scanNext + k) % 96).find? fun t => !s.cdmask.getLsbD t && !s.gated t with
      | none => u
      | some t => ((s.teams.filter (·.tile == t)).map (·.id)).foldl (fun s id => s.preemptTeam id true) { u with scanning := some t, scanNext := (t + 1) % 96 }))
  ∧ (∀ (s : State), s.scanDueNow = false → exec .scanRotation s = .next s)
  ∧ (∀ (s : State) pass, (∀ t, s.scanning = some t → (s.teams.any fun x => x.tile == t) = true) → exec (.scanComplete pass) s = .next s)
  ∧ (∀ (s u : State) t, s.scanning = some t → (s.teams.any fun x => x.tile == t) = false →
    u = { s with scanning := none, scanNum := s.scanNum % 2 ^ 32 + 1 } → exec (.scanComplete false) s = .next ((u.holdVersions t false).reportScan t 1 (s.scanNum % 2 ^ 32))
    ∧ exec (.scanComplete true) s = .next ((s.existing.foldl (fun (s : State) p => s.setPart p fun q => { q with tasks := q.tasks.map fun (k : Task) => { k with cores := drop t k.cores } })
        { u with lastPass := put t (s.scanNum % 2 ^ 32) s.lastPass }).commitScanned))
  ∧ (∀ (s : State) p, (s.part p).state ≠ .none → ((s.part p).heldVersion = none → exec (.scanCommit p) s = .next (s.setPart p fun q => q.setReg 0x940 0x80000000)
      ∧ exec (.scanDiscard p) s = .next (s.setPart p fun q => q.setReg 0x940 0x80000001))
    ∧ ∀ v, (s.part p).heldVersion = some v → exec (.scanCommit p) s = .next ((s.commitVersion p v.num).setPart p fun q => q.setReg 0x940 0)
      ∧ exec (.scanDiscard p) s = .next ((s.discardVersion p v.task).setPart p fun q => q.setReg 0x940 1))
  ∧ (∀ (s : State) m, exec (.coreDisable m) s = .next (((List.range 96).filter fun t => m.getLsbD t && !s.cdmask.getLsbD t).foldl State.disableCore { s with cdmask := m }))
  ∧ (∀ (s : State) ch row mine bad u, ch < 16 → s.patrolDue ch = true → row = lookD s.patrolRow ch 0 →
    u = { s with patrolRow := put ch ((row + 1) % Config.rowCount) s.patrolRow, patrolAt := put ch s.refs s.patrolAt } →
    mine = s.errors.filter (fun e => e.kind == 4 && Config.rowOf (e.addr / 128) == 16 * row + ch) → bad = mine.filter (·.double) →
    ∃ v, v = (bad.filter fun e => (bad.find? fun f => f.addr / 128 == e.addr / 128) == some e).foldl (fun (s : State) e => s.patrolBad ch e) u ∧
      exec (.patrolRowRead ch) s = .next { v with patrolRead := v.patrolRead ++ ((mine.filter fun e => !e.double).map fun e => e.addr / 128).eraseDups.map fun l => (ch, l, false) })
  ∧ (∀ (s : State) ch, 16 ≤ ch ∨ s.patrolDue ch = false → exec (.patrolRowRead ch) s = .next s)
  ∧ (∀ (s : State) team line, (∀ e, (s.team team).wbuf.find? (·.line == line) = some e → exec (.writeBufferDrain team line) s = .next ((runsOf e.bytes).foldl
      (fun u r => u.performWrite (s.teamAgent (s.team team)) (.dev r.1) r.2) (s.setTeam team fun t => { t with wbuf := t.wbuf.filter (·.line != line) })))
    ∧ ((s.team team).wbuf.find? (·.line == line) = none → exec (.writeBufferDrain team line) s = .next s))
  ∧ (∀ (s : State) c, (∀ x, s.copies.find? (fun x => x.id == c && !x.waits) = some x → exec (.copyComplete c) s = .next (if s.copyStalls x then s else (s.runCopy x).copiesEnded))
    ∧ (s.copies.find? (fun x => x.id == c && !x.waits) = none → exec (.copyComplete c) s = .next s))
  ∧ (∀ (s : State) addr bs, s.linkUp = true → exec (.hostAccess false addr bs) s =
    .next { s with sent := s.sent ++ [{ kind := 0x100, bytes := (List.range bs.length).map fun k => s.hostByte (addr + k) }] })
  ∧ (∀ (s : State) addr, addr < devTop → (s.sealedPhys addr = true → s.hostByte addr = 0)
    ∧ (s.sealedPhys addr = false → s.poisoned (.dev addr) = false → s.hostByte addr = s.readByte {} (.dev addr)))
  ∧ (∀ (s : State) addr bs, s.linkUp = true → bs ≠ [] → (∀ i < bs.length, addr + i < devTop ∧ s.sealedPhys (addr + i) = false) → exec (.hostAccess true addr bs) s =
    .next (s.performWrite { part := (s.existing.find? fun q => (s.part q).ownsPhys addr).getD 8 } (.dev addr) bs))
  ∧ (∀ (s : State) addr bs, s.linkUp = true → (∀ i < bs.length, addr + i < devTop ∧ s.sealedPhys (addr + i) = true) → exec (.hostAccess true addr bs) s = .next s)
  ∧ (∀ (s : State) addr bs, s.linkUp = true → exec (.hostAccess true addr bs) s = .next ((runsOf ((s.hostCells addr bs).filter fun c => c.1 < devTop)
      ++ runsOf ((s.hostCells addr bs).filter fun c => devTop ≤ c.1)).foldl (fun s r => s.hostWriteRun r.1 r.2) s)
    ∧ ∀ c ∈ s.hostCells addr bs, addr ≤ c.1 ∧ bs[c.1 - addr]? = some c.2 ∧ (devTop ≤ c.1 ∨ s.sealedPhys c.1 = false))
  ∧ (∀ (s : State) w addr bs, s.linkUp = false → exec (.hostAccess w addr bs) s = .next s)

/-- Channel resets, gates, the audit, the wait-cycle probe, reports, the governor, the mesh. (R384, R389, R390, R391, R395, R396, R397, R398, R399, R400, R401) -/
def Obligations.StackAndMesh : Prop :=
  (∀ (s : State) who r, s.writer who = true →
    (s.ownsRegion who r = true → (s.gate r).state = .open → s.plinthFree r = true →
      exec (.gateRequest who r) s = .next (s.gateDone who (BitVec.ofNat 32 (r % 64)) (some (s.setGate r { state := .pending, preempting := false })))
      ∧ exec (.gatePreemptRequest who r) s = .next (s.gateDone who (BitVec.ofNat 32 (r % 64 + 512)) (some ((s.setGate r { state := .pending, preempting := true }).preemptRegion r))))
    ∧ (s.ownsRegion who r = true → (s.gate r).state = .pending → (s.gate r).preempting = false →
      exec (.gatePreemptRequest who r) s = .next (s.gateDone who (BitVec.ofNat 32 (r % 64 + 512)) (some ((s.setGate r { s.gate r with preempting := true }).preemptRegion r))))
    ∧ (s.ownsRegion who r = false ∨ (s.gate r).state ≠ .open ∨ s.plinthFree r = false → exec (.gateRequest who r) s = .next (s.gateDone who (BitVec.ofNat 32 (r % 64)) none)
      ∧ ((s.ownsRegion who r = true → (s.gate r).state = .pending → (s.gate r).preempting = true) →
        exec (.gatePreemptRequest who r) s = .next (s.gateDone who (BitVec.ofNat 32 (r % 64 + 512)) none)))
    ∧ (s.ownsRegion who r = true → ((s.gate r).state = .pending → exec (.gateLift who r) s = .next (s.gateDone who (BitVec.ofNat 32 (r % 64 + 256)) (some (s.setGate r {}))))
      ∧ ((s.gate r).state = .closed → exec (.gateLift who r) s = .next (s.gateDone who (BitVec.ofNat 32 (r % 64 + 256)) (some (s.setGate r { state := .opening, since := s.refs }))))
      ∧ ((s.gate r).state = .opening → exec (.gateLift who r) s = .next (s.gateDone who (BitVec.ofNat 32 (r % 64 + 256)) (some s))))
    ∧ (s.ownsRegion who r = false ∨ (s.gate r).state = .open → exec (.gateLift who r) s = .next (s.gateDone who (BitVec.ofNat 32 (r % 64 + 256)) none)))
  ∧ (∀ (s : State) who r, s.writer who = false → exec (.gateRequest who r) s = .next s ∧ exec (.gatePreemptRequest who r) s = .next s ∧ exec (.gateLift who r) s = .next s)
  ∧ (∀ (s t : State) who v, (who < 8 → s.gateDone who v (some t) = t.setPart who (fun q => q.setReg 0x8C8 v)
      ∧ s.gateDone who v none = s.setPart who (fun q => q.setReg 0x8C8 (v ||| 0x80000000))) ∧ s.gateDone 8 v (some t) = t ∧ s.gateDone 8 v none = s)
  ∧ (∀ (s : State) r, (s.gateDue r = true → ∃ t, exec (.gateClose r) s = .next t ∧ (t.gate r).state = .closed) ∧ (s.gateDue r = false → exec (.gateClose r) s = .next s))
  ∧ (∀ (s : State) r, ((s.gate r).state = .opening → ∃ t, exec (.gateOpen r) s = .next t ∧ (t.gate r).state = .open) ∧ ((s.gate r).state ≠ .opening → exec (.gateOpen r) s = .next s))
  ∧ (∀ (s : State), s.auditDue = false → exec .auditSample s = .next s)
  ∧ (∀ (s : State), s.auditDue = true → s.terms s.auditNext = none ∨ s.auditPeriod s.auditNext = 0 → exec .auditSample s = .next s.audited)
  ∧ (∀ (s : State) t, s.auditDue = true → s.terms s.auditNext = some t → s.auditPeriod s.auditNext ≠ 0 →
    (t.held + t.flight + t.occupied = t.total → exec .auditSample s = .next (s.audited.flagChannel s.auditNext false))
    ∧ (t.held + t.flight + t.occupied ≠ t.total → (t.flagged = true → exec .auditSample s = .next s.audited)
      ∧ (t.flagged = false → ∀ b, b = [BitVec.ofNat 32 t.held, BitVec.ofNat 32 t.flight, BitVec.ofNat 32 t.occupied, BitVec.ofNat 32 t.epoch] →
        exec .auditSample s = .next ((match t.owner with
          | some p => s.audited.pushReport p { kind := 1, id := BitVec.ofNat 32 s.auditNext, a := BitVec.ofNat 32 (t.held + t.flight + t.occupied), b := b }
          | none => s.audited.msi 0 1).flagChannel s.auditNext true))))
  ∧ (∀ (s : State) p id t, p < 8 → (s.part p).state ≠ .none → s.terms id.toNat = some t →
    exec (.channelReset p id) s = .next (if t.owner = some p then (s.resetChan id.toNat).setPart p (fun q => q.setReg 0x8C6 id)
      else s.setPart p fun q => q.setReg 0x8C6 (id ||| 0x80000000)))
  ∧ (∀ (s : State) id t, s.terms id.toNat = some t → exec (.channelReset 8 id) s = .next ((s.resetChan id.toNat).setPart (t.owner.getD 0) fun q => q.setReg 0x8C6 id))
  ∧ (∀ (s : State) p id, s.terms id.toNat = none → exec (.channelReset 8 id) s = .next s ∧ (p < 8 → (s.part p).state ≠ .none →
    exec (.channelReset p id) s = .next (s.setPart p fun q => q.setReg 0x8C6 (id ||| 0x80000000))))
  ∧ (∀ (s : State) tile c, tile < 96 → c = s.channel tile → (s.resetChan (2 * 2 ^ 28 + tile)).channel tile =
    { epoch := c.epoch + 1, stale := c.stale + c.link.length, staleBack := c.staleBack + c.back })
  ∧ (∀ (s : State) seq g, s.group? seq = some g → (∀ n u, g.entries.find? (fun n => s.probeDue g n) = some n →
      u = s.setGroup seq (fun y => y.setPath n fun p => { p with probedAt := some s.now }) →
      exec (.probeSend seq) s = .next ({ u with probeNum := u.probeNum + 1 }.spread seq u.probeNum [] (.group seq)))
    ∧ (g.entries.find? (fun n => s.probeDue g n) = none → exec (.probeSend seq) s = .next s))
  ∧ (∀ (s : State) x xs u, s.probes = x :: xs → u = { s with probes := xs } →
    (∀ g, x.at_ = .group x.initiator → s.group? x.initiator = some g →
      exec .probeReceive s = .next ((u.pushReport g.part { kind := 2, len := min x.path.length 16, id := u.unitId x.at_, a := x.path.getD 1 0, b := (x.path.drop 2).take 4 }).probeDone x.num))
    ∧ (∀ seq g, x.at_ = .group seq → seq ≠ x.initiator → s.group? seq = some g → g.stopKind ≠ 1 →
      exec .probeReceive s = .next (({ u with probeAnswers := u.probeAnswers ++ [(x.initiator, u.unitId x.at_)] } : State).probeDone x.num))
    ∧ (∀ seq, x.at_ = .stopped seq → exec .probeReceive s = .next (({ u with probeAnswers := u.probeAnswers ++ [(x.initiator, u.unitId x.at_)] } : State).probeDone x.num))
    ∧ (x.at_ ≠ .group x.initiator → u.unitWaits x.at_ = true → exec .probeReceive s = .next ((if u.probeSeen.contains (x.num, x.at_) then u
        else u.spread x.initiator x.num x.path x.at_).probeDone x.num)))
  ∧ (∀ (s : State), s.probes = [] → exec .probeReceive s = .next s)
  ∧ (∀ (s : State) p r rs q a, (s.part p).reports = r :: rs → (s.part p).reportRoom = true → q = (s.part p).reg 0x8C4 0 →
    a = (s.part p).reg2 0x8C1 + 32 * (q.toNat % 2 ^ bits ((s.part p).reg 0x8C3 6) 0 5) →
    (∀ u, (s.setPart p fun x => { x with reports := rs }).atelierWrite p a (r.bytes q.toNat) = .ok u →
      exec (.reportWrite p) s = .next ((u.setPart p fun x => x.setReg 0x8C4 (q + 1)).msi (p + 1) 2))
    ∧ ∀ e, (s.setPart p fun x => { x with reports := rs }).atelierWrite p a (r.bytes q.toNat) = .error e →
      exec (.reportWrite p) s = .next ((s.setPart p fun x => { x with reports := rs }).atelierFault p e true))
  ∧ (∀ (s : State) p, (s.part p).reports = [] ∨ (s.part p).reportRoom = false → exec (.reportWrite p) s = .next s)
  ∧ (∀ (s : State) p, (s.governorDue = true → exec (.governorInterval p) s = .next { s with power := s.power.interval (p % 4096) s.refs })
    ∧ (s.governorDue = false → exec (.governorInterval p) s = .next s))
  ∧ (∀ (w : Power) p now, w.moving = none → (w.limit < p → 8 < w.fstep → (w.interval p now).fstep = w.fstep - 1 ∧ (w.interval p now).point = w.point)
    ∧ (w.limit < p → w.fstep ≤ 8 → 0 < w.point → (w.interval p now).point = w.point - 1 ∧ (w.interval p now).moving = some now)
    ∧ (w.limit < p → w.fstep ≤ 8 → w.point = 0 → (w.interval p now).overload = satAdd w.overload 1)
    ∧ (p + 16 ≤ w.limit → 63 ≤ w.low → w.fstep < 16 → (w.interval p now).fstep = w.fstep + 1)
    ∧ (p + 16 ≤ w.limit → w.low < 63 → (w.interval p now).fstep = w.fstep ∧ (w.interval p now).low = w.low + 1))
  ∧ (∀ (s : State), exec .pointMoveComplete s = .next { s with power := { s.power with moving := none } })
  ∧ (∀ (s : State) r, r < 96 → s.routed.contains r = false → ∃ t, exec (.flitArrival r) s = .next t ∧ t.routed = r :: s.routed
    ∧ t.delivered.length ≤ s.delivered.length + 2 ∧ ∀ f ∈ s.flits, (f.at_ ≠ r ∨ f.moved = true) → f ∈ t.flits)
  ∧ (∀ (s : State) r, 96 ≤ r ∨ s.routed.contains r = true → exec (.flitArrival r) s = .next s)
  ∧ (∀ (s : State) r f, r < 96 → s.routed.contains r = false → s.arrivals r = [f] → s.inject = [] →
    (routerOf f.dst = r → f.size ≤ 1 → f.reserve = false → s.firstFlit [] f = true ∨ Config.choice (s.free + f.packet) % 2 = 0 →
      ∃ t, exec (.flitArrival r) s = .next t ∧ t.delivered = s.delivered ++ [(f.dst, f.packet)] ∧ t.flits = s.flits.filter fun f => !(f.at_ == r && !f.moved))
    ∧ (∀ p k, routerOf f.dst ≠ r → (towards r (routerOf f.dst)).find? (fun p => (portTile r p).isSome) = some p → portTile r p = some k →
      ∃ t, exec (.flitArrival r) s = .next t ∧ t.delivered = s.delivered ∧ t.flits = (s.flits.filter fun f => !(f.at_ == r && !f.moved)) ++ [{ f with at_ := k, moved := true }]))
  ∧ (∀ (s : State) rx r, r = lookD s.receivers rx {} → (r.mayGrant = false → exec (.reassemblyGrant rx) s = .next s)
    ∧ (r.mayGrant = true → ∃ x ∈ r.reservations, leastBy (fun x => (x + 127 - r.lastGranted) % 128) r.reservations = some x ∧ exec (.reassemblyGrant rx) s =
      .next { s with receivers := put rx { r with reservations := r.reservations.filter (· != x), granted := r.granted ++ [x], lastGranted := x } s.receivers }))

/-- The sampler, the trace core and its filters, Caliper trials, DBGOP actions and FREEZE. (R404, R408, R412, R413, R415, R417, R418, R419, R420, R421, R437) -/
def Obligations.Observation : Prop :=
  (∀ (s : State) who tile (v : Word), tile < 96 → ((bits v 26 6 ≠ 0 ∨ (bit v 0 = true ∧ (bits v 2 4 = 0 ∨ (s.coreReg tile 0x8E2 0 = 0 ∧ s.coreReg tile 0x8E3 0 = 0)))) →
      exec (.samplerEnable who tile v) s = .next (s.turnedAway who))
    ∧ (bits v 26 6 = 0 → (bit v 0 = true → bits v 2 4 ≠ 0 ∧ ¬ (s.coreReg tile 0x8E2 0 = 0 ∧ s.coreReg tile 0x8E3 0 = 0)) →
      ∃ t, exec (.samplerEnable who tile v) s = .next t ∧ s.smpControl who tile v = some t ∧ t.coreReg tile 0x8E0 0 = v))
  ∧ (∀ (s : State) who tile v, 96 ≤ tile → exec (.samplerEnable who tile v) s = .next s)
  ∧ (∀ (s : State) tile, (s.sampleDue tile = true → exec (.sample tile) s = .next (s.takeSample tile)) ∧ (s.sampleDue tile = false → exec (.sample tile) s = .next s))
  ∧ (∀ (s : State) p r rs x, (s.part p).traceIn = r :: rs → (s.part p).filterDue = true →
    x = State.runFilter p r (s.part p).filter.length 0 (s.setPart p fun q => { q with traceIn := rs }) →
    (x.1 = false → exec (.traceFilter p) s = .next x.2)
    ∧ (x.1 = true → (s.part p).reg2 0x903 ≠ 0 → (s.part p).traceRoom = true → exec (.traceFilter p) s = .next (x.2.traceWrite p r))
    ∧ (x.1 = true → ((s.part p).reg2 0x903 = 0 ∨ (s.part p).traceRoom = false) → exec (.traceFilter p) s = .next (x.2.setPart p fun q => q.traceDrop false)))
  ∧ (∀ (s : State) p, (s.part p).filterDue = false → exec (.traceFilter p) s = .next s)
  ∧ (∀ (s : State) p r rs u q, (s.part p).halts = r :: rs → u = s.setPart p (fun q => { q with halts := rs }) → q = (s.part p).reg 0x906 0 →
    ((s.part p).reg2 0x903 = 0 → exec (.haltRecordWrite p) s = .next (u.setPart p fun q => q.traceDrop false))
    ∧ ((s.part p).reg2 0x903 ≠ 0 → (s.part p).traceRoom = true →
      ∀ y, y = u.atelierWrite p ((s.part p).reg2 0x903 + 32 * (q.toNat % 2 ^ bits ((s.part p).reg 0x905 4) 0 5)) r.bytes →
      (∀ v, y = .ok v → exec (.haltRecordWrite p) s = .next (v.setPart p fun p => p.setReg 0x906 (q + 1))) ∧ ∀ e, y = .error e → exec (.haltRecordWrite p) s = .next s)
    ∧ ((s.part p).reg2 0x903 ≠ 0 → (s.part p).traceRoom = false → exec (.haltRecordWrite p) s = .next s))
  ∧ (∀ (s : State) p, (s.part p).halts = [] → exec (.haltRecordWrite p) s = .next s)
  ∧ (∀ (s : State) who p (v : Word), (s.part p).state ≠ .none → (who ≠ 8 ∨ (s.part p).isLocked 0x902 = false) →
    ((bit v 31 = true ∨ bit v 1 = true ∨ bits v 15 16 ≠ 0 ∨ bits v 2 6 ≠ 0) → exec (.filterLoad who p v) s = .next (s.turnedAway who))
    ∧ (bit v 31 = false → bit v 1 = false → bits v 15 16 = 0 → bits v 2 6 = 0 →
      (bit v 0 = false → exec (.filterLoad who p v) s = .next (s.setPart p fun q => q.filterOff who false v))
      ∧ (bit v 0 = true → 64 ≤ bits v 8 7 → exec (.filterLoad who p v) s = .next (s.setPart p fun q => q.filterOff who true v))
      ∧ (bit v 0 = true → bits v 8 7 < 64 →
        (∀ e, s.atelierRead p ((s.part p).reg2 0x900) (8 * (bits v 8 7 + 1)) = .error e → exec (.filterLoad who p v) s = .next (s.setPart p fun q => q.filterOff who true v))
        ∧ ∀ bs, s.atelierRead p ((s.part p).reg2 0x900) (8 * (bits v 8 7 + 1)) = .ok bs → exec (.filterLoad who p v) s = .next (s.setPart p fun q =>
          match parseFilter (bits v 8 7 + 1) bs with
          | none => q.filterOff who true v
          | some f => { q.setReg 0x902 (BitVec.ofNat 32 (bits v 8 7 * 2 ^ 8 + (if who = 8 then 2 else 0) + 1)) with filter := f, filterHost := decide (who = 8), fregs := Vector.replicate 8 0 }))))
  ∧ (∀ (s : State) p, p < 8 → (s.part p).state ≠ .none → (s.part p).trial = none → ∃ t, exec (.caliperStart p) s = .next t ∧ (t.part p).reg 0x91E 0 = 1
    ∧ (∀ n, n < 8 → (t.part p).reg (0x928 + n) 0 = 0) ∧ ((t.part p).trial.map fun x => (x.lo, x.hi, x.from_)) =
      some (BitVec.ofNat 64 ((s.part p).reg2 0x918), BitVec.ofNat 64 ((s.part p).reg2 0x91A), s.now + 1))
  ∧ (∀ (s : State) p, p < 8 → (s.part p).trial ≠ none → exec (.caliperStart p) s = .next s)
  ∧ (∀ (s : State) p, exec (.caliperStop p) s = .next (s.stopTrial p) ∧ (p < 8 → ((s.stopTrial p).part p).trial = none ∧ ((s.stopTrial p).part p).reg 0x91E 0 = 0))
  ∧ (∀ (s : State) p, (s.trialOver p = true → exec (.caliperEnd p) s = .next (s.stopTrial p)) ∧ (s.trialOver p = false → exec (.caliperEnd p) s = .next s))
  ∧ (∀ (s : State) p (v : Word), (s.part p).state ≠ .none → (s.part p).isLocked 0x902 = true → exec (.filterLoad 8 p v) s = .next (s.toError p))
  ∧ (∀ (s : State) p (v : Word), (s.part p).state ≠ .none → (s.part p).isLocked 0x931 = true → (bits v 0 3 = 0 → exec (.holdPath 8 p v) s = .next (s.toError p))
    ∧ (bits v 0 3 = 1 → exec (.releasePath 8 p v) s = .next (s.toError p)) ∧ (bits v 0 3 = 2 → exec (.holdGroup 8 p v) s = .next (s.toError p))
    ∧ (bits v 0 3 = 3 → exec (.releaseGroup 8 p v) s = .next (s.toError p)) ∧ (bits v 0 3 = 4 → exec (.debugStep 8 p v) s = .next (s.toError p)))
  ∧ (∀ (s : State) who p (v : Word), (s.part p).state ≠ .none → (who ≠ 8 ∨ (s.part p).isLocked 0x931 = false) → (bits v 0 3 = 0 → exec (.holdPath who p v) s = .next (s.debugOp who p v))
    ∧ (bits v 0 3 = 1 → exec (.releasePath who p v) s = .next (s.debugOp who p v)) ∧ (bits v 0 3 = 2 → exec (.holdGroup who p v) s = .next (s.debugOp who p v))
    ∧ (bits v 0 3 = 3 → exec (.releaseGroup who p v) s = .next (s.debugOp who p v)) ∧ (bits v 0 3 = 4 → exec (.debugStep who p v) s = .next (s.debugOp who p v)))
  ∧ (∀ (s : State) who p (v : Word), ((s.part p).debugOn = false → s.debugOp who p v = s.debugRefused p)
    ∧ (s.locate? v = none → s.debugOp who p v = s.debugRefused p)
    ∧ (∀ g, s.locate? v = some g → (s.part p).debugOn = true → (if who = 8 then (s.part g.part).isSealed = true else g.part ≠ p) → s.debugOp who p v = s.debugRefused p)
    ∧ (∀ g, s.locate? v = some g → (s.part p).debugOn = true → (if who = 8 then (s.part g.part).isSealed = false else g.part = p) →
        s.debugOp who p v = if (g.debugAction (bits v 0 3) (bits v 8 3)).isSome then
          s.setGroup g.seq fun g => g.atCycle s.now fun g => (g.debugAction (bits v 0 3) (bits v 8 3)).getD g else s.debugRefused p))
  ∧ (∀ (g : Group) e, g.debugAction 0 e = some (g.askHold e 1) ∧ g.debugAction 2 e = some (g.livePaths.foldl (fun g n => g.askHold n 1) g)
    ∧ g.debugAction 3 e = some (g.livePaths.foldl (fun g n => g.releaseEntry n false) g)
    ∧ g.debugAction 1 e = (if (g.path e).state = .held then some (g.releaseEntry e false) else none)
    ∧ g.debugAction 4 e = (if (g.path e).state = .held then some (g.releaseEntry e true) else none))
  ∧ (∀ (s : State) seq n g, s.group? seq = some g → s.holdDue g n = false → exec (.holdTakesEffect seq n) s = .next s)
  ∧ (∀ (s u : State) seq n g keep bkpt, s.group? seq = some g → s.holdDue g n = true → keep = (match (g.path n).wait with | some (.granted _ _) => true | _ => false) →
    bkpt = ((g.path n).holdAsked == some 0) →
    u = (if keep then s else s.withdrawIf fun x y => x == seq && y == n).setGroup seq (fun g => g.atCycle s.now fun g => g.heldAt n keep bkpt) →
    exec (.holdTakesEffect seq n) s = .next (u.haltRecord g n (if bkpt then (g.path n).holdId else 0) false ((g.path n).holdAsked.getD 1)))
  ∧ (∀ (s : State) p on, (s.part p).state ≠ .none → exec (.freeze p on) s = .next (s.setPart p fun q => q.setReg 0x930 (setBits (q.reg 0x930 0) 1 1 (if on then 1 else 0))))
  ∧ (∀ (s : State) p x, (s.part p).state = .none → (∃ who v on, x ∈ [Instr.filterLoad who p v, .caliperStart p, .holdPath who p v, .releasePath who p v, .holdGroup who p v,
      .releaseGroup who p v, .debugStep who p v, .freeze p on]) → exec x s = .next s)

/-- The entries of a command chain: JOB, LOOP, COND, LINK, END; a job that ends. (R290, R355, R356, R358, R360, R361, R362, R363) -/
def Obligations.ChainEntries : Prop :=
  (∀ (s u : State) e p c d bs, s.readingChain e p = some c → c.pos = .reading → s.nextEntry c = .ok bs → d = { c with read := c.read + 1 } →
      u = s.setChain e c (fun x => { x with read := x.read + 1 }) →
    (byteAt bs 0 = 1 → jobLegal e bs = true → exec (.chainJob e p) s = .next ((u.setPart p fun q => q.enterDep
        { job := some (c.team, c.future), reads := (jobRegions bs).1, writes := (jobRegions bs).2 }).setChain e d fun x =>
        { x with pos := .entered (u.part p).depNum, op := byteAt bs 1, param := BitVec.ofNat 64 (natAt bs 8 8) }))
    ∧ (byteAt bs 0 = 1 → jobLegal e bs = false → exec (.chainJob e p) s = .next (u.resolveChain e d .faulted wordEntry))
    ∧ (byteAt bs 0 = 2 → (loopLegal bs && d.loop.isNone) = false → exec (.chainLoop e p) s = .next (u.resolveChain e d .faulted wordEntry))
    ∧ (byteAt bs 0 = 2 → (loopLegal bs && d.loop.isNone) = true →
      (∀ x, u.readBody d (c.ptr.toNat + 128) (byteAt bs 1) = .error x → exec (.chainLoop e p) s = .next (x.2.resolveChain e d .faulted x.1))
      ∧ ∀ body after, u.readBody d (c.ptr.toNat + 128) (byteAt bs 1) = .ok body → after = c.ptr + BitVec.ofNat 64 (128 * (byteAt bs 1 + 1)) →
        exec (.chainLoop e p) s = .next (u.setChain e d fun x =>
        if natAt bs 4 4 = 0 then { x with ptr := after } else { x with loop := some { body := body, patches := loopPatches bs, reps := natAt bs 4 4, after := after } }))
    ∧ (byteAt bs 0 = 3 → condLegal d bs = false → exec (.chainCond e p) s = .next (u.resolveChain e d .faulted wordEntry))
    ∧ (∀ x b, byteAt bs 0 = 3 → condLegal d bs = true → (byteAt bs 2 = 0 ∧ u.engineRead d (natAt bs 8 8) 4 = .ok b ∧ x = BitVec.ofNat 32 (leNat b)
        ∨ byteAt bs 2 = 1 ∧ x = BitVec.ofNat 32 c.lastStatus ∨ byteAt bs 2 = 2 ∧ x = c.lastWord) →
      exec (.chainCond e p) s = .next (u.setChain e d fun y => y.advance
        (if condTest (byteAt bs 3) (x &&& BitVec.ofNat 32 (natAt bs 20 4)) (BitVec.ofNat 32 (natAt bs 16 4)) then 1 else 1 + byteAt bs 1)))
    ∧ (∀ x, byteAt bs 0 = 3 → condLegal d bs = true → byteAt bs 2 = 0 → u.engineRead d (natAt bs 8 8) 4 = .error x →
      exec (.chainCond e p) s = .next (x.2.resolveChain e d .faulted x.1))
    ∧ (byteAt bs 0 = 4 → (zeroAt bs 1 7 && zeroAt bs 16 112 && natAt bs 8 8 % 128 == 0 && u.entryInside d (natAt bs 8 8)) = true →
      exec (.chainLink e p) s = .next (u.setChain e d fun x => { x with ptr := BitVec.ofNat 64 (natAt bs 8 8) }))
    ∧ (byteAt bs 0 = 4 → (zeroAt bs 1 7 && zeroAt bs 16 112 && natAt bs 8 8 % 128 == 0 && u.entryInside d (natAt bs 8 8)) = false →
      exec (.chainLink e p) s = .next (u.resolveChain e d .faulted wordEntry))
    ∧ (byteAt bs 0 = 0 → zeroAt bs 1 127 = true → c.overflow = none → exec (.chainEnd e p) s = .next (s.resolveChain e c .done c.lastWord))
    ∧ (∀ o, byteAt bs 0 = 0 → zeroAt bs 1 127 = true → c.overflow = some o → exec (.chainEnd e p) s = .next (s.resolveChain e c .overflow o.1))
    ∧ (5 ≤ byteAt bs 0 ∨ byteAt bs 0 = 0 ∧ zeroAt bs 1 127 = false → exec (.chainEnd e p) s = .next (s.resolveChain e c .faulted wordEntry))
    ∧ (byteAt bs 0 ≠ 1 → exec (.chainJob e p) s = .next s) ∧ (byteAt bs 0 ≠ 2 → exec (.chainLoop e p) s = .next s) ∧ (byteAt bs 0 ≠ 3 → exec (.chainCond e p) s = .next s)
    ∧ (byteAt bs 0 ≠ 4 → exec (.chainLink e p) s = .next s) ∧ (byteAt bs 0 ∈ [1, 2, 3, 4] → exec (.chainEnd e p) s = .next s))
  ∧ (∀ (s : State) e p c x, s.readingChain e p = some c → c.pos = .reading → s.nextEntry c = .error x → exec (.chainEnd e p) s = .next (x.2.resolveChain e c .faulted x.1))
  ∧ (∀ (s : State) e p c, s.readingChain e p = some c → c.pos = .faulted → exec (.chainEnd e p) s = .next (s.resolveChain e c .faulted c.lastWord))
  ∧ (∀ (s : State) e p i, (s.readingChain e p = none ∧ i ∈ [Instr.chainJob e p, .chainLoop e p, .chainCond e p, .chainLink e p, .chainEnd e p])
      ∨ (∃ c, s.readingChain e p = some c ∧ (c.pos = .faulted ∨ ∃ x, c.pos = .reading ∧ s.nextEntry c = .error x)
        ∧ i ∈ [Instr.chainJob e p, .chainLoop e p, .chainCond e p, .chainLink e p]) → exec i s = .next s)
  ∧ (∀ (s : State) c, 1048575 ≤ c.read → s.nextEntry c = .error (wordLimit, s))
  ∧ (∀ (s u : State) e c n bad, (s.engines[e]?.getD {}).chains.find? Chain.busy = some c → c.pos = .running n →
    u = ((s.engineStore c c.out).setChain e c fun x => { x with out := [] }).leaveUnit c.part n → bad = u.setTeam c.team (fun t => t.setFuture c.future fun f =>
        { f with firstBad := if 65534 < c.jobs then 0xFFFF else c.jobs }) →
    (c.cancel = true → exec (.engineJobComplete e) s = .next ((if c.stale then u.countStale (some c.part) 1 else u).dropChain e c))
    ∧ (c.cancel = false → c.lastStatus = 0 → exec (.engineJobComplete e) s = .next (u.setChain e c fun x => x.advance 1))
    ∧ (c.cancel = false → c.lastStatus = 1 → exec (.engineJobComplete e) s = .next ((if c.overflow.isNone then bad else u).setChain e c fun x =>
        { x with overflow := x.overflow.orElse fun _ => some (c.lastWord, c.jobs) }.advance 1))
    ∧ (c.cancel = false → c.lastStatus = 2 → exec (.engineJobComplete e) s = .next (if bad.frozen c.part then bad.setChain e c fun x => { x with pos := .faulted }
        else bad.resolveChain e c .faulted c.lastWord)))
  ∧ (∀ (s : State) e, (s.engines[e]?.getD {}).chains.find? Chain.busy = none → exec (.engineJobComplete e) s = .next s)

/-- The jobs of the engines: VOXEL, RULEBOOK, COORD, CONVERT, the collision queries, STEP. (R291, R349, R352, R355, R362, R363, R364, R366, R367, R368, R369, R370) -/
def Obligations.EngineJobs : Prop :=
  JobForm .voxel (fun _ e c => decide (e < 2) && c.op == 0) voxelJob 64 voxelLegal
  ∧ JobForm .rulebook (fun _ e c => decide (e < 2) && c.op == 1) rulebookJob 64 ruleLegal
  ∧ JobForm .coord (fun _ e c => decide (e < 2) && c.op == 2) coordJob 32 (fun b => addrOk (natAt b 0 8) 4 && decide (1 ≤ natAt b 8 4) && decide (natAt b 8 4 ≤ 0x10000)
      && decide (1 ≤ natAt b 12 2) && decide (natAt b 12 2 ≤ 12) && zeroAt b 14 2 && decide (1 ≤ natAt b 16 2) && decide (1 ≤ natAt b 18 2) && natAt b 20 4 % 128 == 0
      && decide (128 + 3 * coordL (natAt b 8 4) (natAt b 12 2) ≤ natAt b 20 4) && addrOk (natAt b 24 8) 128)
  ∧ JobForm .convertCompress (fun s e c => decide (e < 2) && c.op == 3 && !s.expands c) compressJob 64 convLegal
  ∧ JobForm .convertExpand (fun s e c => decide (e < 2) && c.op == 3 && s.expands c) expandJob 64 convLegal
  ∧ JobForm .collidePoint (fun _ e c => (e == 2 || e == 3) && c.op == 0)
    (collisionJob false fun q j => (if zeroAt q 12 4 then standing (point3 q 0) (some 0) else .bad, j)) 48 treeLegal
  ∧ JobForm .collideSegment (fun _ e c => (e == 2 || e == 3) && c.op == 1) (collisionJob true (polyline true)) 48 treeLegal
  ∧ JobForm .collideSphere (fun _ e c => (e == 2 || e == 3) && c.op == 2) (collisionJob false fun q j => (standing (point3 q 0) (radius (natAt q 12 4)), j)) 48 treeLegal
  ∧ JobForm .collideSweep (fun _ e c => (e == 2 || e == 3) && c.op == 3) (collisionJob true (polyline false)) 48 treeLegal
  ∧ JobForm .dynStep (fun _ e c => e == 4 && c.op == 0) stepJob 48 stepLegal

/-- Partitions, the boot and the host link. (R438, R439, R440, R434, R445, R449, R450) -/
def Obligations.PartitionsAndBoot : Prop :=
  (∀ (s : State) p q, p < 8 → q = parsePartition (Memory.bytes s.dev s.partDesc.toNat 256) → (
    ((s.partDesc.toNat + 256 ≤ devTop ∧ descLegal (Memory.bytes s.dev s.partDesc.toNat 256) = true ∧ s.mayCreate p q = true) → exec (.partCreate p) s = .next
      { (s.setPart p fun old => { q with ideSession := old.ideSession, ideSecure := old.ideSecure }) with partCmd := BitVec.ofNat 32 (8 + p), msix := s.msix ++ [(p + 1, 5), (0, 3)] })
    ∧ (¬ (s.partDesc.toNat + 256 ≤ devTop ∧ descLegal (Memory.bytes s.dev s.partDesc.toNat 256) = true ∧ s.mayCreate p q = true) →
      exec (.partCreate p) s = .next { s with partCmd := BitVec.ofNat 32 (8 + p) ||| 0x80000000 })
    ∧ q.state = .unlocked ∧ q.regs = [(0x974, BitVec.ofNat 32 (natAt (Memory.bytes s.dev s.partDesc.toNat 256) 1 1))] ∧ q.tasks = [] ∧ q.stopping = false))
  ∧ (∀ (s : State) p, p < 8 → (
    ((s.part p).state = .unlocked → exec (.partDestroy p) s = .next { (s.setPart p fun old => { ideSession := old.ideSession, ideSecure := old.ideSecure }) with
      partCmd := BitVec.ofNat 32 (16 + p), msix := s.msix ++ [(p + 1, 5), (0, 3)], keys := s.keys.filter (fun k => k.2.2 != p), tlb := s.tlb.map (noPart p), tlb2 := s.tlb2.map (noPart p) })
    ∧ ((s.part p).state ≠ .unlocked → exec (.partDestroy p) s = .next { s with partCmd := BitVec.ofNat 32 (16 + p) ||| 0x80000000 })
    ∧ ((s.part p).state = .unlocked → (s.part p).isSealed = false → exec (.partStart p) s = .next
      { (s.setPart p fun q => { q with state := .run, sliceSince := s.refs }) with partCmd := BitVec.ofNat 32 (24 + p), msix := s.msix ++ [(p + 1, 5), (0, 3)] })
    ∧ (((s.part p).state ≠ .unlocked ∨ (s.part p).isSealed = true) → exec (.partStart p) s = .next { s with partCmd := BitVec.ofNat 32 (24 + p) ||| 0x80000000 })
    ∧ ((s.part p).stopping = false → ((s.part p).state = .run ∨ (s.part p).state = .locked ∨ (s.part p).state = .error) → (s.part p).lockSession = none →
      exec (.partStop p) s = .next { (s.setPart p fun q => { q with stopping := true }).stopAdvance p with partCmd := BitVec.ofNat 32 (32 + p) })
    ∧ ((s.part p).stopping = false → ((s.part p).state = .none ∨ (s.part p).state = .unlocked ∨ (s.part p).lockSession.isSome = true) →
      exec (.partStop p) s = .next { s with partCmd := BitVec.ofNat 32 (32 + p) ||| 0x80000000 })
    ∧ ((s.part p).stopping = true → exec (.partStop p) s = .next (s.stopAdvance p))))
  ∧ (∀ (s : State) p, 8 ≤ p → exec (.partCreate p) s = .next s ∧ exec (.partDestroy p) s = .next s ∧ exec (.partStart p) s = .next s ∧ exec (.partStop p) s = .next s)
  ∧ (∀ (s : State) p, p < 8 → (s.part p).stopping = false → (s.part p).state = .run → (s.part p).isSealed = false → (s.part p).lockSession = none → (s.part p).tasks = [] → (s.part p).unveiling = none →
    (s.part p).vslots = [] → (s.part p).reg2 0x870 = 0 → ∃ t, exec (.partStop p) s = .next t ∧ (t.part p).state = .unlocked ∧ (t.part p).stopping = false
      ∧ (t.part p).faults = [] ∧ (t.part p).records = [] ∧ (∀ k, k < 4 → (t.part p).reg (0x963 + 4 * k) 0 = (s.part p).reg (0x970 + k) 0) ∧ t.keys = s.keys.filter (fun k => k.2.2 != p)
      ∧ t.dev = s.dev ∧ t.partCmd = BitVec.ofNat 32 (32 + p) ∧ ∀ n, n ≠ p → t.part n = s.part n)
  ∧ (∀ (s : State) ok, exec (.powerOnReset ok) s = .next { State.reset with bootst := if ok then 2 else 0x81, linkUp := false, inputs := s.inputs, free := s.free })
  ∧ (∀ (s b : State) image failing, b = { State.reset with linkUp := false, inputs := s.inputs, free := s.free } → (
    (∀ derived trained, s.bootst = 2 → image.length ≤ 0x200000 → exec (.bootImageWrite image false derived trained failing) s = .next { b with bootst := 0x83 })
    ∧ (∀ trained, s.bootst = 2 → image.length ≤ 0x200000 → exec (.bootImageWrite image true false trained failing) s = .next { b with bootst := 0x84 })
    ∧ (∀ ch, ch < 16 → s.bootst = 2 → image.length ≤ 0x200000 → exec (.bootImageWrite image true true (some ch) failing) s = .next { b with bootst := BitVec.ofNat 32 (0x85 + 256 * ch) })
    ∧ (s.bootst = 2 → image.length ≤ 0x200000 → exec (.bootImageWrite image true true none failing) s = .next { b with bootst := 7, cdmask := failing, imageDigest := leNat image })
    ∧ (∀ verified derived trained, s.bootst = 2 → 0x200000 < image.length → exec (.bootImageWrite image verified derived trained failing) s = .next { b with bootst := 0x83 })
    ∧ (∀ verified derived trained, s.bootst ≠ 2 → exec (.bootImageWrite image verified derived trained failing) s = .next s)))
  ∧ (∀ (s : State), (s.bootst = 7 ∨ s.bootst = 8) → s.linkUp = false → exec (.linkTraining true) s = .next { s with perst := false, linkUp := true, bootst := 8, msix := s.msix ++ [(0, 0)] }
    ∧ exec (.linkTraining false) s = .next { s with perst := false })
  ∧ (∀ (s : State) ok, (s.bootst ≠ 7 ∧ s.bootst ≠ 8 ∨ s.linkUp = true) → exec (.linkTraining ok) s = .next s)
  ∧ (∀ (s u : State), s.linkUp = true → u = (s.sessions.map (·.id)).foldl State.endSession { s with linkUp := false, msix := s.msix ++ [(0, 0)] } →
    exec .hotReset s = .next u ∧ exec .linkDown s = .next u)
  ∧ (∀ (s : State), s.linkUp = false → exec .hotReset s = .next s ∧ exec .linkDown s = .next s)
  ∧ (∀ (s u : State), s.perst = false →
    u = (s.sessions.map (·.id)).foldl State.endSession { s with perst := true, linkUp := false, msix := if s.linkUp then s.msix ++ [(0, 0)] else s.msix } →
    exec .perstAssert s = .next u)
  ∧ (∀ (s : State), s.perst = true → exec .perstAssert s = .next s)
  ∧ (∀ (s : State) idx, s.linkUp = true → exec (.doeDiscovery idx) s = .next (s.answering 0 0x300 (min idx 4)))
  ∧ (∀ (s : State) idx, s.linkUp = false → exec (.doeDiscovery idx) s = .next s)

/-- The SPDM responder: what each request needs, answers and changes; the end of a session. (R442, R443, R445, R439) -/
def Obligations.SpdmSessions : Prop :=
  (∀ sess slot idx ok,
    RequestForm (.getVersion sess) sess 0 (fun _ => true) 1 (fun _ => 0) (fun x => { x with version := true, capabilities := false, algorithms := false })
    ∧ RequestForm (.getCapabilities sess) sess 0 (fun s => (s.session sess).version) 2 (fun _ => 0) (fun x => { x with capabilities := true })
    ∧ RequestForm (.negotiateAlgorithms sess ok) sess 0 (fun s => (s.session sess).capabilities && ok) 3 (fun _ => 0) (fun x => { x with algorithms := true })
    ∧ RequestForm (.getDigests sess) sess 0 (fun s => (s.session sess).algorithms) 4 (fun s => s.imageDigest) id
    ∧ RequestForm (.getCertificate sess slot) sess 0 (fun s => (s.session sess).algorithms && slot == 0) 5 (fun s => s.imageDigest) id
    ∧ RequestForm (.spdmChallenge sess slot) sess 0 (fun s => (s.session sess).algorithms && slot == 0) 6 (fun s => s.free) id
    ∧ RequestForm (.getMeasurements sess idx) sess 0 (fun s => (s.session sess).algorithms && (idx == 0 || idx == 0xFF || (s.measurement idx).isSome)) 7
      (fun s => idx + 256 * (((List.range 0x18).filterMap s.measurement).foldl (fun x m => x * 2 ^ 384 + m.toNat) 0)) id
    ∧ RequestForm (.keyExchange sess) sess 0 (fun s => (s.session sess).algorithms) 8 (fun s => s.free) (fun x => { x with exchanged := true })
    ∧ RequestForm (.spdmFinish sess ok) sess 0 (fun s => (s.session sess).exchanged && ok) 9 (fun _ => 0) (fun x => { x with secured := true, exchanged := false, keyEpoch := 0 })
    ∧ RequestForm (.spdmHeartbeat sess) sess 0 (fun s => (s.session sess).secured) 10 (fun _ => 0) id
    ∧ RequestForm (.keyUpdate sess true) sess 0 (fun s => (s.session sess).secured) 11 (fun _ => 0) (fun x => { x with keyEpoch := x.keyEpoch + 1 }))
  ∧ (∀ (s : State) sess, s.linkUp = true → (s.session sess).secured = true → exec (.endSession sess) s = .next ((s.answering sess 12 0).endSession sess)
    ∧ exec (.keyUpdate sess false) s = .next (((List.range 8).foldl (fun (s : State) p => if (s.part p).lockSession = some sess then s.toError p else s) (s.answering sess 0 0)).endSession sess))
  ∧ (∀ (s : State) sess, s.linkUp = true → (s.session sess).secured = false → exec (.endSession sess) s = .next (s.answering sess 0 0)
    ∧ exec (.keyUpdate sess false) s = .next (s.answering sess 0 0))
  ∧ (∀ (s : State) sess, s.linkUp = false → exec (.endSession sess) s = .next s ∧ exec (.keyUpdate sess false) s = .next s)
  ∧ (∀ (s : State) sess, s.endSession sess = (List.range 8).foldl (fun (u : State) p =>
      let v := if (u.part p).ideSession = some sess then u.setPart p fun q => { q with ideSession := none, ideSecure := false } else u
      if (u.part p).lockSession = some sess ∧ ((u.part p).state = .run ∨ (u.part p).state = .locked ∨ (u.part p).state = .error) then
        (v.setPart p fun q => { q with stopping := true }).stopAdvance p else v) { s with sessions := s.sessions.filter (·.id != sess) })
  ∧ (∀ (s : State) sess, (∀ p, p < 8 → (s.part p).lockSession ≠ some sess ∧ (s.part p).ideSession ≠ some sess) →
    s.endSession sess = { s with sessions := s.sessions.filter (·.id != sess) })
  ∧ (∀ (s : State) p, p < 8 → (s.measurement (0x10 + p)).isSome = (s.part p).lockSession.isSome)
  ∧ (∀ (s : State) k, (s.measurement k).isSome = true → (1 ≤ k ∧ k ≤ 4) ∨ (0x10 ≤ k ∧ k < 0x18))
  ∧ (∀ (s : State) k, 1 ≤ k → k ≤ 4 → (s.measurement k).isSome = true)

/-- TDISP and IDE key requests: the states of an interface. (R444, R439, R437, R443) -/
def Obligations.InterfaceRequests : Prop :=
  (∀ sess vf ok, ok = (fun s : State => (s.session sess).secured && decide (1 ≤ vf) && decide (vf ≤ 8)) →
    RequestForm (.getTdispVersion sess vf) sess 0x80 ok 0x81 (fun _ => 0) id ∧ RequestForm (.getTdispCapabilities sess vf) sess 0x80 ok 0x82 (fun _ => 0) id
    ∧ RequestForm (.getDeviceInterfaceState sess vf) sess 0x80 ok 0x85 (fun s => (s.part (vf - 1)).state.code) id
    ∧ RequestForm (.getDeviceInterfaceReport sess vf) sess 0x80 (fun s => ok s && (s.part (vf - 1)).state != .none) 0x84
      (fun s => leNat (s.part (vf - 1)).descriptor + 2 ^ 2048 * (((s.measurement (0x10 + (vf - 1))).map BitVec.toNat).getD 0)) id)
  ∧ (∀ (s : State) sess p, s.linkUp = true → (s.session sess).secured = true → p < 8 → (s.part p).state = .unlocked → (s.part p).isSealed = true → (s.part p).ideSession = some sess →
    ∃ t, exec (.lockInterfaceRequest sess (p + 1)) s = .next t ∧ (t.part p).state = .locked ∧ (t.part p).lockSession = some sess ∧ (t.part p).memoryKey.isSome = true
      ∧ (t.part p).lockCapture.map Prod.fst = lockedRegisters ∧ (t.part p).regs = (s.part p).regs ∧ (∀ n, n ≠ p → t.part n = s.part n)
      ∧ t.msix = s.msix ++ [(p + 1, 5), (0, 3)] ∧ (∃ x, t.sent = s.sent ++ [x] ∧ x.kind = 0x83 ∧ x.sess = sess)
      ∧ (Memory.wf s.dev = true → Memory.wf t.dev = true) ∧ (∀ a, (s.part p).ownsPhys a = true → Memory.get t.dev a = 0) ∧ ∀ a, (s.part p).ownsPhys a = false → Memory.get t.dev a = Memory.get s.dev a)
  ∧ (∀ (s : State) sess vf, s.linkUp = false → exec (.lockInterfaceRequest sess vf) s = .next s)
  ∧ (∀ (s : State) sess vf, s.linkUp = true → ((s.session sess).secured = false ∨ vf < 1 ∨ 8 < vf ∨ (s.part (vf - 1)).state ≠ .unlocked ∨ (s.part (vf - 1)).isSealed = false
      ∨ (s.part (vf - 1)).ideSession ≠ some sess) → exec (.lockInterfaceRequest sess vf) s = .next (s.answering sess 0x80 0))
  ∧ (∀ sess vf, InterfaceForm (.startInterfaceRequest sess vf) sess vf (fun q => q.state == .locked && q.lockSession == some sess && !q.stopping)
      (fun s => { (s.setPart (vf - 1) fun q => { q with state := .run, sliceSince := s.refs }).answering sess 0x86 0 with msix := s.msix ++ [(vf - 1 + 1, 5), (0, 3)] })
    ∧ InterfaceForm (.stopInterfaceRequest sess vf) sess vf (fun q => (q.state == .locked || q.state == .run || q.state == .error) && q.lockSession == some sess)
      (fun s => ((s.setPart (vf - 1) fun q => { q with stopping := true }).stopAdvance (vf - 1)).answering sess 0x87 0)
    ∧ InterfaceForm (.keyProg sess vf) sess vf (fun q => q.lockSession.isNone || q.lockSession == some sess)
      (fun s => (s.setPart (vf - 1) fun q => { q with ideSession := some sess }).answering sess 0x88 0)
    ∧ InterfaceForm (.kSetGo sess vf) sess vf (fun q => q.ideSession == some sess) (fun s => (s.setPart (vf - 1) fun q => { q with ideSecure := true }).answering sess 0x89 0)
    ∧ InterfaceForm (.kSetStop sess vf) sess vf (fun q => q.ideSession == some sess) (fun s => (s.insecure (vf - 1)).answering sess 0x8A 0))
  ∧ (∀ (s : State) p, p < 8 → exec (.ideStreamInsecure (p + 1)) s = .next (s.insecure p))
  ∧ (∀ (s : State) vf, (vf = 0 ∨ 8 < vf) → exec (.ideStreamInsecure vf) s = .next s)
  ∧ (∀ (s : State) p, (s.part p).ideSecure = false → s.insecure p = s)
  ∧ (∀ (s : State) p, p < 8 → (s.part p).ideSecure = true → ((s.part p).isSealed = false ∨ (s.part p).state ≠ .locked ∧ (s.part p).state ≠ .run) →
    s.insecure p = s.setPart p fun q => { q with ideSecure := false })
  ∧ (∀ (s u : State) p, p < 8 → (s.part p).ideSecure = true → (s.part p).isSealed = true → ((s.part p).state = .locked ∨ (s.part p).state = .run) →
    u = (s.setPart p fun q => { q with ideSecure := false, state := .error }).killAll p → s.insecure p = { u with msix := u.msix ++ [(p + 1, 5), (0, 3)] })

/-- Board keys: the requests of a sealed partition and the answers of a board. (R446, R447, R379) -/
def Obligations.BoardKeys : Prop :=
  (∀ (s : State) ch msg, s.linkUp = true → ch < 16 → exec (.boardRelayObject ch msg) s = .next { s with relay := s.relay ++ [(ch, msg)] })
  ∧ (∀ (s : State) ch msg, (s.linkUp = false ∨ 16 ≤ ch) → exec (.boardRelayObject ch msg) s = .next s)
  ∧ (∀ (s : State) p, (s.keyBlock p = none ∨ ∃ b, s.keyBlock p = some b ∧ keyOperation b = 0) → s.keyRequest p = s.keyStatus p 5)
  ∧ (∀ (s : State) p, ((s.part p).state = .none ∨ (s.keyBlock p).map keyOperation ≠ some 1) → exec (.keyEstablish p) s = .next s)
  ∧ (∀ (s : State) p, ((s.part p).state = .none ∨ (s.keyBlock p).map keyOperation ≠ some 2) → exec (.keyClear p) s = .next s)
  ∧ (∀ (s : State) p b slot ch, (s.part p).state ≠ .none → s.keyBlock p = some b → slot = natAt b 0 1 → ch = natAt b 1 1 → keyOperation b = 1 → (
    ((s.part p).isSealed = true → (s.part p).state = .run → (s.part p).stopping = false → (s.part p).ksPending = none → exec (.keyEstablish p) s = .next
      ((((s.setPart p fun q => { q with ksPending := some (slot, ch), ksStep := 1 }).keyStatus p 1)).toBoard ch 1))
    ∧ (((s.part p).isSealed = false ∨ (s.part p).state ≠ .run ∨ (s.part p).stopping = true ∨ (s.part p).ksPending.isSome = true) → exec (.keyEstablish p) s = .next (s.keyStatus p 5))))
  ∧ (∀ (s : State) p b slot, (s.part p).state ≠ .none → s.keyBlock p = some b → slot = natAt b 0 1 → keyOperation b = 2 → (
    ((s.part p).isSealed = true → (s.part p).state = .run → (s.part p).stopping = false → (s.part p).ksPending = none → exec (.keyClear p) s = .next ((s.loadKey p slot none).keyStatus p 2))
    ∧ (∀ ch, (s.part p).isSealed = true → (s.part p).state = .run → (s.part p).stopping = false → (s.part p).ksPending = some (slot, ch) →
      exec (.keyClear p) s = .next (((s.loadKey p slot none).setPart p fun q => { q with ksPending := none }).keyStatus p 6))
    ∧ (∀ x, x.1 ≠ slot → (s.part p).ksPending = some x → exec (.keyClear p) s = .next (s.keyStatus p 5))
    ∧ (((s.part p).isSealed = false ∨ (s.part p).state ≠ .run ∨ (s.part p).stopping = true) → exec (.keyClear p) s = .next (s.keyStatus p 5))))
  ∧ (∀ (s u : State) p slot ch code key, (s.part p).ksPending = some (slot, ch) → u = { s with relay := s.relay.filter fun x => x.1 != ch } → (
    ((code = 3 ∨ code = 4) → exec (.boardResponse p code key) s = .next ((u.setPart p fun q => { q with ksPending := none }).keyStatus p code))
    ∧ (code ≠ 3 → code ≠ 4 → (s.part p).ksStep < 6 →
      exec (.boardResponse p code key) s = .next ((u.setPart p fun q => { q with ksStep := (s.part p).ksStep + 1 }).toBoard ch ((s.part p).ksStep + 1)))
    ∧ (code ≠ 3 → code ≠ 4 → 6 ≤ (s.part p).ksStep →
      exec (.boardResponse p code key) s = .next (((u.loadKey p slot (some key)).setPart p fun q => { q with ksPending := none }).keyStatus p 2))))
  ∧ (∀ (s : State) p code key, (s.part p).ksPending = none → exec (.boardResponse p code key) s = .next s)
  ∧ (∀ (s : State) p slot k t n, t < 96 → (s.part p).ownsCore t = true → n = slot → (
    ((s.loadKey p slot (some k)).keys.find? fun x => x.1 == (t, n)) = some ((t, n), (k, p)) ∧ ((s.loadKey p slot none).keys.find? fun x => x.1 == (t, n)) = none))
  ∧ (∀ (s : State) p slot k t n, ((s.part p).ownsCore t = false ∨ n ≠ slot) → ((s.loadKey p slot k).keys.find? fun x => x.1 == (t, n)) = s.keys.find? fun x => x.1 == (t, n))
end

