-- ==== Sys2Proof/Laws/Memory.lean ====
section
/-! SUPPORT. Maps and memory: reading after writing, and that every memory operation keeps the canonical form. -/

namespace Sys2Proof.Machine

/-! ### Maps -/

theorem look_put_same {β : Type} (k : Nat) (v : β) (l : List (Nat × β)) : look k (put k v l) = some v := by
  induction l with
  | nil => simp [put, look]
  | cons e l ih =>
    unfold put
    split
    · simp [look]
    · split
      · simp [look]
      · rw [look, if_neg (by assumption)]; exact ih
theorem look_put_other {β : Type} {k j : Nat} (v : β) (l : List (Nat × β)) (h : j ≠ k) : look j (put k v l) = look j l := by
  induction l with
  | nil => simp [put, look, Ne.symm h]
  | cons e l ih =>
    unfold put
    split
    · rw [look, if_neg (Ne.symm h)]
    · split
      · rename_i he
        rw [look, look, if_neg (Ne.symm h), if_neg (by rw [he]; exact Ne.symm h)]
      · rw [look, look, ih]
theorem lookD_put_same {β : Type} (k : Nat) (v d : β) (l : List (Nat × β)) : lookD (put k v l) k d = v := by
  simp [lookD, look_put_same]
theorem lookD_put_other {β : Type} {k j : Nat} (v d : β) (l : List (Nat × β)) (h : j ≠ k) : lookD (put k v l) j d = lookD l j d := by
  simp [lookD, look_put_other v l h]
theorem look_drop_same {β : Type} (k : Nat) (l : List (Nat × β)) : look k (drop k l) = none := by
  induction l with
  | nil => rfl
  | cons e l ih =>
    by_cases he : e.1 = k
    · have : drop k (e :: l) = drop k l := by simp [drop, he]
      rw [this]; exact ih
    · have : drop k (e :: l) = e :: drop k l := by simp [drop, he]
      rw [this, look, if_neg he]; exact ih
theorem look_drop_other {β : Type} {k j : Nat} (l : List (Nat × β)) (h : j ≠ k) : look j (drop k l) = look j l := by
  induction l with
  | nil => rfl
  | cons e l ih =>
    by_cases he : e.1 = k
    · have : drop k (e :: l) = drop k l := by simp [drop, he]
      rw [this, ih, look, if_neg (by rw [he]; exact Ne.symm h)]
    · have : drop k (e :: l) = e :: drop k l := by simp [drop, he]
      rw [this, look, look, ih]

/-! ### Memory -/

theorem Memory.wf_tail {c : Host.Cell} {m : List Host.Cell} (h : Memory.wf (c :: m) = true) : Memory.wf m = true := by
  cases m with
  | nil => rfl
  | cons d m => simp [Memory.wf] at h; exact h.2
/-- In a canonical memory the cells after the first lie above it. -/
theorem Memory.wf_above {c : Host.Cell} {m : List Host.Cell} (h : Memory.wf (c :: m) = true) : ∀ d ∈ m, c.1 < d.1 := by
  induction m generalizing c with
  | nil => simp
  | cons e m ih =>
    simp [Memory.wf] at h
    intro d hd
    rcases List.mem_cons.mp hd with rfl | hd
    · exact h.1.2
    · exact Nat.lt_trans h.1.2 (ih h.2 d hd)
theorem Memory.wf_head {c : Host.Cell} {m : List Host.Cell} (h : Memory.wf (c :: m) = true) : c.2 ≠ 0 := by
  cases m with
  | nil => simpa [Memory.wf] using h
  | cons d m => simp [Memory.wf] at h; exact h.1.1
theorem Memory.wf_cons {c : Host.Cell} {m : List Host.Cell} (hc : c.2 ≠ 0) (hm : Memory.wf m = true) (ha : ∀ d ∈ m, c.1 < d.1) :
    Memory.wf (c :: m) = true := by
  cases m with
  | nil => simpa [Memory.wf] using hc
  | cons d m => simpa [Memory.wf, hm, ha d (List.mem_cons_self ..)] using hc
theorem Memory.mem_set {m : List Host.Cell} {a : Nat} {b : Byte} {d : Host.Cell} (h : d ∈ Memory.set m a b) : d.1 = a ∨ d ∈ m := by
  induction m with
  | nil => unfold Memory.set at h; split at h <;> simp_all
  | cons c m ih =>
    unfold Memory.set at h
    split at h
    · split at h
      · exact .inr h
      · rcases List.mem_cons.mp h with rfl | h
        · exact .inl rfl
        · exact .inr h
    · split at h
      · split at h
        · exact .inr (List.mem_cons_of_mem _ h)
        · rcases List.mem_cons.mp h with rfl | h
          · exact .inl rfl
          · exact .inr (List.mem_cons_of_mem _ h)
      · rcases List.mem_cons.mp h with rfl | h
        · exact .inr (List.mem_cons_self ..)
        · exact (ih h).imp id (List.mem_cons_of_mem _)
/-- A write keeps the canonical form. -/
theorem Memory.wf_set {m : List Host.Cell} (h : Memory.wf m = true) (a : Nat) (b : Byte) : Memory.wf (Memory.set m a b) = true := by
  induction m with
  | nil => unfold Memory.set; split <;> simp_all [Memory.wf]
  | cons c m ih =>
    have ht := Memory.wf_tail h
    have ha := Memory.wf_above h
    unfold Memory.set
    split
    · rename_i hlt
      split
      · exact h
      · rename_i hb
        refine Memory.wf_cons hb h fun d hd => ?_
        rcases List.mem_cons.mp hd with rfl | hd
        · exact hlt
        · exact Nat.lt_trans hlt (ha d hd)
    · rename_i hge
      split
      · rename_i heq
        split
        · exact ht
        · rename_i hb
          exact Memory.wf_cons hb ht fun d hd => heq ▸ ha d hd
      · rename_i hne
        refine Memory.wf_cons (Memory.wf_head h) (ih ht) fun d hd => ?_
        rcases Memory.mem_set hd with h1 | h1
        · omega
        · exact ha d h1
/-- Writing bytes keeps the canonical form. -/
theorem Memory.wf_setBytes {m : List Host.Cell} (h : Memory.wf m = true) (a : Nat) (bs : List Byte) :
    Memory.wf (Memory.setBytes m a bs) = true := by
  induction bs generalizing m a with
  | nil => exact h
  | cons b bs ih => exact ih (Memory.wf_set h a b) (a + 1)
theorem Memory.get_none {m : List Host.Cell} {a : Nat} (h : ∀ d ∈ m, a < d.1) : Memory.get m a = 0 := by
  have : look a m = none := by
    induction m with
    | nil => rfl
    | cons c m ih =>
      rw [look, if_neg (by have := h c (List.mem_cons_self ..); omega)]
      exact ih fun d hd => h d (List.mem_cons_of_mem _ hd)
  simp [Memory.get, lookD, this]
theorem Memory.get_cons (c : Host.Cell) (m : List Host.Cell) (x : Nat) : Memory.get (c :: m) x = if c.1 = x then c.2 else Memory.get m x := by
  unfold Memory.get lookD; rw [look]; split <;> rfl
/-- Reading after writing, in a canonical memory. -/
theorem Memory.get_set {m : List Host.Cell} (h : Memory.wf m = true) (a x : Nat) (b : Byte) :
    Memory.get (Memory.set m a b) x = if x = a then b else Memory.get m x := by
  induction m with
  | nil =>
    unfold Memory.set
    split
    · split <;> simp_all [Memory.get, lookD, look]
    · rw [Memory.get_cons]; simp only [eq_comm]
  | cons c m ih =>
    have ht := Memory.wf_tail h
    have ha := Memory.wf_above h
    unfold Memory.set
    split
    · rename_i hlt
      split
      · rename_i hb
        split
        · rename_i hx
          subst hx hb
          exact Memory.get_none fun d hd => by
            rcases List.mem_cons.mp hd with rfl | hd
            · exact hlt
            · exact Nat.lt_trans hlt (ha d hd)
        · rfl
      · rw [Memory.get_cons]; simp only [eq_comm]
    · split
      · rename_i heq
        split
        · rename_i hb
          split
          · rename_i hx
            subst hx hb
            exact Memory.get_none fun d hd => heq ▸ ha d hd
          · rename_i hx
            rw [Memory.get_cons, if_neg (by omega)]
        · rw [Memory.get_cons, Memory.get_cons]
          split <;> split <;> first | rfl | omega | (rw [if_neg (by omega)])
      · rename_i hne
        rw [Memory.get_cons, Memory.get_cons, ih ht]
        split
        · rw [if_neg (by omega)]
        · rfl
/-- Bytes written from an address up leave every address outside them alone. -/
theorem Memory.get_setBytes_other {m : List Host.Cell} (h : Memory.wf m = true) (a x : Nat) (bs : List Byte) (hx : x < a ∨ a + bs.length ≤ x) :
    Memory.get (Memory.setBytes m a bs) x = Memory.get m x := by
  induction bs generalizing m a with
  | nil => rfl
  | cons b bs ih =>
    simp only [List.length_cons] at hx
    rw [Memory.setBytes, ih (Memory.wf_set h a b) (a + 1) (by omega), Memory.get_set h, if_neg (by omega)]
/-- Bytes written from an address up read back. -/
theorem Memory.get_setBytes_same {m : List Host.Cell} (h : Memory.wf m = true) (a : Nat) (bs : List Byte) (k : Nat) (hk : k < bs.length) :
    Memory.get (Memory.setBytes m a bs) (a + k) = bs[k] := by
  induction bs generalizing m a k with
  | nil => simp at hk
  | cons b bs ih =>
    cases k with
    | zero => rw [Memory.setBytes, Memory.get_setBytes_other (Memory.wf_set h a b) _ _ _ (by omega), Memory.get_set h, if_pos (by omega)]; rfl
    | succ k =>
      have := ih (Memory.wf_set h a b) (a + 1) k (by simpa using hk)
      rw [Memory.setBytes, show a + (k + 1) = a + 1 + k by omega, this]; rfl

end Sys2Proof.Machine
end

