-- ==== Sys2Proof/Laws/State.lean ====
section
/-! SUPPORT. What each update of the state and of a group leaves unchanged, field by field. -/

namespace Sys2Proof.Machine

@[simp] theorem State.setTeam_me (s : State) (n : Nat) (f : Team → Team) : (s.setTeam n f).me = s.me := rfl
@[simp] theorem State.setMyTeam_me (s : State) (f : Team → Team) : (s.setMyTeam f).me = s.me := rfl
@[simp] theorem State.setPart_me (s : State) (n : Nat) (f : Partition → Partition) : (s.setPart n f).me = s.me := by
  unfold State.setPart; split <;> rfl
@[simp] theorem State.msi_me (s : State) (a b : Nat) : (s.msi a b).me = s.me := rfl
@[simp] theorem State.withMe_groups (s : State) (f : Group → Group) : (s.withMe f).groups = s.groups := rfl
@[simp] theorem State.setPath_groups (s : State) (f : Path → Path) : (s.setPath f).groups = s.groups := rfl
@[simp] theorem State.setTeam_groups (s : State) (n : Nat) (f : Team → Team) : (s.setTeam n f).groups = s.groups := rfl
@[simp] theorem State.setMyTeam_groups (s : State) (f : Team → Team) : (s.setMyTeam f).groups = s.groups := rfl
@[simp] theorem State.setPart_groups (s : State) (n : Nat) (f : Partition → Partition) : (s.setPart n f).groups = s.groups := by
  unfold State.setPart; split <;> rfl
@[simp] theorem State.msi_groups (s : State) (a b : Nat) : (s.msi a b).groups = s.groups := rfl
@[simp] theorem State.withMe_left (s : State) (f : Group → Group) : (s.withMe f).left = s.left := rfl
@[simp] theorem State.setPath_left (s : State) (f : Path → Path) : (s.setPath f).left = s.left := rfl
@[simp] theorem State.setTeam_left (s : State) (n : Nat) (f : Team → Team) : (s.setTeam n f).left = s.left := rfl
@[simp] theorem State.setMyTeam_left (s : State) (f : Team → Team) : (s.setMyTeam f).left = s.left := rfl
@[simp] theorem State.setPart_left (s : State) (n : Nat) (f : Partition → Partition) : (s.setPart n f).left = s.left := by
  unfold State.setPart; split <;> rfl
@[simp] theorem State.setGroup_left (s : State) (n : Nat) (f : Group → Group) : (s.setGroup n f).left = s.left := by
  unfold State.setGroup; split <;> rfl
@[simp] theorem State.msi_left (s : State) (a b : Nat) : (s.msi a b).left = s.left := rfl
@[simp] theorem State.withMe_teams (s : State) (f : Group → Group) : (s.withMe f).teams = s.teams := rfl
@[simp] theorem State.setPath_teams (s : State) (f : Path → Path) : (s.setPath f).teams = s.teams := rfl
@[simp] theorem State.setPart_teams (s : State) (n : Nat) (f : Partition → Partition) : (s.setPart n f).teams = s.teams := by
  unfold State.setPart; split <;> rfl
@[simp] theorem State.setGroup_teams (s : State) (n : Nat) (f : Group → Group) : (s.setGroup n f).teams = s.teams := by
  unfold State.setGroup; split <;> rfl
@[simp] theorem State.msi_teams (s : State) (a b : Nat) : (s.msi a b).teams = s.teams := rfl
@[simp] theorem State.withMe_saved (s : State) (f : Group → Group) : (s.withMe f).saved = s.saved := rfl
@[simp] theorem State.setPath_saved (s : State) (f : Path → Path) : (s.setPath f).saved = s.saved := rfl
@[simp] theorem State.setTeam_saved (s : State) (n : Nat) (f : Team → Team) : (s.setTeam n f).saved = s.saved := rfl
@[simp] theorem State.setMyTeam_saved (s : State) (f : Team → Team) : (s.setMyTeam f).saved = s.saved := rfl
@[simp] theorem State.setPart_saved (s : State) (n : Nat) (f : Partition → Partition) : (s.setPart n f).saved = s.saved := by
  unfold State.setPart; split <;> rfl
@[simp] theorem State.setGroup_saved (s : State) (n : Nat) (f : Group → Group) : (s.setGroup n f).saved = s.saved := by
  unfold State.setGroup; split <;> rfl
@[simp] theorem State.msi_saved (s : State) (a b : Nat) : (s.msi a b).saved = s.saved := rfl
@[simp] theorem State.withMe_parts (s : State) (f : Group → Group) : (s.withMe f).parts = s.parts := rfl
@[simp] theorem State.setPath_parts (s : State) (f : Path → Path) : (s.setPath f).parts = s.parts := rfl
@[simp] theorem State.setTeam_parts (s : State) (n : Nat) (f : Team → Team) : (s.setTeam n f).parts = s.parts := rfl
@[simp] theorem State.setMyTeam_parts (s : State) (f : Team → Team) : (s.setMyTeam f).parts = s.parts := rfl
@[simp] theorem State.setGroup_parts (s : State) (n : Nat) (f : Group → Group) : (s.setGroup n f).parts = s.parts := by
  unfold State.setGroup; split <;> rfl
@[simp] theorem State.msi_parts (s : State) (a b : Nat) : (s.msi a b).parts = s.parts := rfl
@[simp] theorem State.withMe_dev (s : State) (f : Group → Group) : (s.withMe f).dev = s.dev := rfl
@[simp] theorem State.setPath_dev (s : State) (f : Path → Path) : (s.setPath f).dev = s.dev := rfl
@[simp] theorem State.setTeam_dev (s : State) (n : Nat) (f : Team → Team) : (s.setTeam n f).dev = s.dev := rfl
@[simp] theorem State.setMyTeam_dev (s : State) (f : Team → Team) : (s.setMyTeam f).dev = s.dev := rfl
@[simp] theorem State.setPart_dev (s : State) (n : Nat) (f : Partition → Partition) : (s.setPart n f).dev = s.dev := by
  unfold State.setPart; split <;> rfl
@[simp] theorem State.setGroup_dev (s : State) (n : Nat) (f : Group → Group) : (s.setGroup n f).dev = s.dev := by
  unfold State.setGroup; split <;> rfl
@[simp] theorem State.msi_dev (s : State) (a b : Nat) : (s.msi a b).dev = s.dev := rfl
@[simp] theorem State.withMe_host (s : State) (f : Group → Group) : (s.withMe f).host = s.host := rfl
@[simp] theorem State.setPath_host (s : State) (f : Path → Path) : (s.setPath f).host = s.host := rfl
@[simp] theorem State.setTeam_host (s : State) (n : Nat) (f : Team → Team) : (s.setTeam n f).host = s.host := rfl
@[simp] theorem State.setMyTeam_host (s : State) (f : Team → Team) : (s.setMyTeam f).host = s.host := rfl
@[simp] theorem State.setPart_host (s : State) (n : Nat) (f : Partition → Partition) : (s.setPart n f).host = s.host := by
  unfold State.setPart; split <;> rfl
@[simp] theorem State.setGroup_host (s : State) (n : Nat) (f : Group → Group) : (s.setGroup n f).host = s.host := by
  unfold State.setGroup; split <;> rfl
@[simp] theorem State.msi_host (s : State) (a b : Nat) : (s.msi a b).host = s.host := rfl
@[simp] theorem State.withMe_bank (s : State) (f : Group → Group) : (s.withMe f).bank = s.bank := rfl
@[simp] theorem State.setPath_bank (s : State) (f : Path → Path) : (s.setPath f).bank = s.bank := rfl
@[simp] theorem State.setTeam_bank (s : State) (n : Nat) (f : Team → Team) : (s.setTeam n f).bank = s.bank := rfl
@[simp] theorem State.setMyTeam_bank (s : State) (f : Team → Team) : (s.setMyTeam f).bank = s.bank := rfl
@[simp] theorem State.setPart_bank (s : State) (n : Nat) (f : Partition → Partition) : (s.setPart n f).bank = s.bank := by
  unfold State.setPart; split <;> rfl
@[simp] theorem State.setGroup_bank (s : State) (n : Nat) (f : Group → Group) : (s.setGroup n f).bank = s.bank := by
  unfold State.setGroup; split <;> rfl
@[simp] theorem State.msi_bank (s : State) (a b : Nat) : (s.msi a b).bank = s.bank := rfl
@[simp] theorem State.withMe_copies (s : State) (f : Group → Group) : (s.withMe f).copies = s.copies := rfl
@[simp] theorem State.setPath_copies (s : State) (f : Path → Path) : (s.setPath f).copies = s.copies := rfl
@[simp] theorem State.setTeam_copies (s : State) (n : Nat) (f : Team → Team) : (s.setTeam n f).copies = s.copies := rfl
@[simp] theorem State.setMyTeam_copies (s : State) (f : Team → Team) : (s.setMyTeam f).copies = s.copies := rfl
@[simp] theorem State.setPart_copies (s : State) (n : Nat) (f : Partition → Partition) : (s.setPart n f).copies = s.copies := by
  unfold State.setPart; split <;> rfl
@[simp] theorem State.setGroup_copies (s : State) (n : Nat) (f : Group → Group) : (s.setGroup n f).copies = s.copies := by
  unfold State.setGroup; split <;> rfl
@[simp] theorem State.msi_copies (s : State) (a b : Nat) : (s.msi a b).copies = s.copies := rfl
@[simp] theorem State.withMe_copyNum (s : State) (f : Group → Group) : (s.withMe f).copyNum = s.copyNum := rfl
@[simp] theorem State.setPath_copyNum (s : State) (f : Path → Path) : (s.setPath f).copyNum = s.copyNum := rfl
@[simp] theorem State.setTeam_copyNum (s : State) (n : Nat) (f : Team → Team) : (s.setTeam n f).copyNum = s.copyNum := rfl
@[simp] theorem State.setMyTeam_copyNum (s : State) (f : Team → Team) : (s.setMyTeam f).copyNum = s.copyNum := rfl
@[simp] theorem State.setPart_copyNum (s : State) (n : Nat) (f : Partition → Partition) : (s.setPart n f).copyNum = s.copyNum := by
  unfold State.setPart; split <;> rfl
@[simp] theorem State.setGroup_copyNum (s : State) (n : Nat) (f : Group → Group) : (s.setGroup n f).copyNum = s.copyNum := by
  unfold State.setGroup; split <;> rfl
@[simp] theorem State.msi_copyNum (s : State) (a b : Nat) : (s.msi a b).copyNum = s.copyNum := rfl
@[simp] theorem State.withMe_teamNum (s : State) (f : Group → Group) : (s.withMe f).teamNum = s.teamNum := rfl
@[simp] theorem State.setPath_teamNum (s : State) (f : Path → Path) : (s.setPath f).teamNum = s.teamNum := rfl
@[simp] theorem State.setTeam_teamNum (s : State) (n : Nat) (f : Team → Team) : (s.setTeam n f).teamNum = s.teamNum := rfl
@[simp] theorem State.setMyTeam_teamNum (s : State) (f : Team → Team) : (s.setMyTeam f).teamNum = s.teamNum := rfl
@[simp] theorem State.setPart_teamNum (s : State) (n : Nat) (f : Partition → Partition) : (s.setPart n f).teamNum = s.teamNum := by
  unfold State.setPart; split <;> rfl
@[simp] theorem State.setGroup_teamNum (s : State) (n : Nat) (f : Group → Group) : (s.setGroup n f).teamNum = s.teamNum := by
  unfold State.setGroup; split <;> rfl
@[simp] theorem State.msi_teamNum (s : State) (a b : Nat) : (s.msi a b).teamNum = s.teamNum := rfl
@[simp] theorem State.withMe_admissions (s : State) (f : Group → Group) : (s.withMe f).admissions = s.admissions := rfl
@[simp] theorem State.setPath_admissions (s : State) (f : Path → Path) : (s.setPath f).admissions = s.admissions := rfl
@[simp] theorem State.setTeam_admissions (s : State) (n : Nat) (f : Team → Team) : (s.setTeam n f).admissions = s.admissions := rfl
@[simp] theorem State.setMyTeam_admissions (s : State) (f : Team → Team) : (s.setMyTeam f).admissions = s.admissions := rfl
@[simp] theorem State.setPart_admissions (s : State) (n : Nat) (f : Partition → Partition) : (s.setPart n f).admissions = s.admissions := by
  unfold State.setPart; split <;> rfl
@[simp] theorem State.setGroup_admissions (s : State) (n : Nat) (f : Group → Group) : (s.setGroup n f).admissions = s.admissions := by
  unfold State.setGroup; split <;> rfl
@[simp] theorem State.msi_admissions (s : State) (a b : Nat) : (s.msi a b).admissions = s.admissions := rfl
@[simp] theorem State.withMe_now (s : State) (f : Group → Group) : (s.withMe f).now = s.now := rfl
@[simp] theorem State.setPath_now (s : State) (f : Path → Path) : (s.setPath f).now = s.now := rfl
@[simp] theorem State.setTeam_now (s : State) (n : Nat) (f : Team → Team) : (s.setTeam n f).now = s.now := rfl
@[simp] theorem State.setMyTeam_now (s : State) (f : Team → Team) : (s.setMyTeam f).now = s.now := rfl
@[simp] theorem State.setPart_now (s : State) (n : Nat) (f : Partition → Partition) : (s.setPart n f).now = s.now := by
  unfold State.setPart; split <;> rfl
@[simp] theorem State.setGroup_now (s : State) (n : Nat) (f : Group → Group) : (s.setGroup n f).now = s.now := by
  unfold State.setGroup; split <;> rfl
@[simp] theorem State.msi_now (s : State) (a b : Nat) : (s.msi a b).now = s.now := rfl
@[simp] theorem State.withMe_revAt (s : State) (f : Group → Group) : (s.withMe f).revAt = s.revAt := rfl
@[simp] theorem State.setPath_revAt (s : State) (f : Path → Path) : (s.setPath f).revAt = s.revAt := rfl
@[simp] theorem State.setTeam_revAt (s : State) (n : Nat) (f : Team → Team) : (s.setTeam n f).revAt = s.revAt := rfl
@[simp] theorem State.setMyTeam_revAt (s : State) (f : Team → Team) : (s.setMyTeam f).revAt = s.revAt := rfl
@[simp] theorem State.setPart_revAt (s : State) (n : Nat) (f : Partition → Partition) : (s.setPart n f).revAt = s.revAt := by
  unfold State.setPart; split <;> rfl
@[simp] theorem State.setGroup_revAt (s : State) (n : Nat) (f : Group → Group) : (s.setGroup n f).revAt = s.revAt := by
  unfold State.setGroup; split <;> rfl
@[simp] theorem State.msi_revAt (s : State) (a b : Nat) : (s.msi a b).revAt = s.revAt := rfl
@[simp] theorem State.withMe_refs (s : State) (f : Group → Group) : (s.withMe f).refs = s.refs := rfl
@[simp] theorem State.setPath_refs (s : State) (f : Path → Path) : (s.setPath f).refs = s.refs := rfl
@[simp] theorem State.setTeam_refs (s : State) (n : Nat) (f : Team → Team) : (s.setTeam n f).refs = s.refs := rfl
@[simp] theorem State.setMyTeam_refs (s : State) (f : Team → Team) : (s.setMyTeam f).refs = s.refs := rfl
@[simp] theorem State.setPart_refs (s : State) (n : Nat) (f : Partition → Partition) : (s.setPart n f).refs = s.refs := by
  unfold State.setPart; split <;> rfl
@[simp] theorem State.setGroup_refs (s : State) (n : Nat) (f : Group → Group) : (s.setGroup n f).refs = s.refs := by
  unfold State.setGroup; split <;> rfl
@[simp] theorem State.msi_refs (s : State) (a b : Nat) : (s.msi a b).refs = s.refs := rfl
@[simp] theorem State.withMe_refRest (s : State) (f : Group → Group) : (s.withMe f).refRest = s.refRest := rfl
@[simp] theorem State.setPath_refRest (s : State) (f : Path → Path) : (s.setPath f).refRest = s.refRest := rfl
@[simp] theorem State.setTeam_refRest (s : State) (n : Nat) (f : Team → Team) : (s.setTeam n f).refRest = s.refRest := rfl
@[simp] theorem State.setMyTeam_refRest (s : State) (f : Team → Team) : (s.setMyTeam f).refRest = s.refRest := rfl
@[simp] theorem State.setPart_refRest (s : State) (n : Nat) (f : Partition → Partition) : (s.setPart n f).refRest = s.refRest := by
  unfold State.setPart; split <;> rfl
@[simp] theorem State.setGroup_refRest (s : State) (n : Nat) (f : Group → Group) : (s.setGroup n f).refRest = s.refRest := by
  unfold State.setGroup; split <;> rfl
@[simp] theorem State.msi_refRest (s : State) (a b : Nat) : (s.msi a b).refRest = s.refRest := rfl
@[simp] theorem State.withMe_slots (s : State) (f : Group → Group) : (s.withMe f).slots = s.slots := rfl
@[simp] theorem State.setPath_slots (s : State) (f : Path → Path) : (s.setPath f).slots = s.slots := rfl
@[simp] theorem State.setTeam_slots (s : State) (n : Nat) (f : Team → Team) : (s.setTeam n f).slots = s.slots := rfl
@[simp] theorem State.setMyTeam_slots (s : State) (f : Team → Team) : (s.setMyTeam f).slots = s.slots := rfl
@[simp] theorem State.setPart_slots (s : State) (n : Nat) (f : Partition → Partition) : (s.setPart n f).slots = s.slots := by
  unfold State.setPart; split <;> rfl
@[simp] theorem State.setGroup_slots (s : State) (n : Nat) (f : Group → Group) : (s.setGroup n f).slots = s.slots := by
  unfold State.setGroup; split <;> rfl
@[simp] theorem State.msi_slots (s : State) (a b : Nat) : (s.msi a b).slots = s.slots := rfl
@[simp] theorem State.withMe_stations (s : State) (f : Group → Group) : (s.withMe f).stations = s.stations := rfl
@[simp] theorem State.setPath_stations (s : State) (f : Path → Path) : (s.setPath f).stations = s.stations := rfl
@[simp] theorem State.setTeam_stations (s : State) (n : Nat) (f : Team → Team) : (s.setTeam n f).stations = s.stations := rfl
@[simp] theorem State.setMyTeam_stations (s : State) (f : Team → Team) : (s.setMyTeam f).stations = s.stations := rfl
@[simp] theorem State.setPart_stations (s : State) (n : Nat) (f : Partition → Partition) : (s.setPart n f).stations = s.stations := by
  unfold State.setPart; split <;> rfl
@[simp] theorem State.setGroup_stations (s : State) (n : Nat) (f : Group → Group) : (s.setGroup n f).stations = s.stations := by
  unfold State.setGroup; split <;> rfl
@[simp] theorem State.msi_stations (s : State) (a b : Nat) : (s.msi a b).stations = s.stations := rfl
@[simp] theorem State.withMe_channels (s : State) (f : Group → Group) : (s.withMe f).channels = s.channels := rfl
@[simp] theorem State.setPath_channels (s : State) (f : Path → Path) : (s.setPath f).channels = s.channels := rfl
@[simp] theorem State.setTeam_channels (s : State) (n : Nat) (f : Team → Team) : (s.setTeam n f).channels = s.channels := rfl
@[simp] theorem State.setMyTeam_channels (s : State) (f : Team → Team) : (s.setMyTeam f).channels = s.channels := rfl
@[simp] theorem State.setPart_channels (s : State) (n : Nat) (f : Partition → Partition) : (s.setPart n f).channels = s.channels := by
  unfold State.setPart; split <;> rfl
@[simp] theorem State.setGroup_channels (s : State) (n : Nat) (f : Group → Group) : (s.setGroup n f).channels = s.channels := by
  unfold State.setGroup; split <;> rfl
@[simp] theorem State.msi_channels (s : State) (a b : Nat) : (s.msi a b).channels = s.channels := rfl
@[simp] theorem State.withMe_mailboxes (s : State) (f : Group → Group) : (s.withMe f).mailboxes = s.mailboxes := rfl
@[simp] theorem State.setPath_mailboxes (s : State) (f : Path → Path) : (s.setPath f).mailboxes = s.mailboxes := rfl
@[simp] theorem State.setTeam_mailboxes (s : State) (n : Nat) (f : Team → Team) : (s.setTeam n f).mailboxes = s.mailboxes := rfl
@[simp] theorem State.setMyTeam_mailboxes (s : State) (f : Team → Team) : (s.setMyTeam f).mailboxes = s.mailboxes := rfl
@[simp] theorem State.setPart_mailboxes (s : State) (n : Nat) (f : Partition → Partition) : (s.setPart n f).mailboxes = s.mailboxes := by
  unfold State.setPart; split <;> rfl
@[simp] theorem State.setGroup_mailboxes (s : State) (n : Nat) (f : Group → Group) : (s.setGroup n f).mailboxes = s.mailboxes := by
  unfold State.setGroup; split <;> rfl
@[simp] theorem State.msi_mailboxes (s : State) (a b : Nat) : (s.msi a b).mailboxes = s.mailboxes := rfl
@[simp] theorem State.withMe_engines (s : State) (f : Group → Group) : (s.withMe f).engines = s.engines := rfl
@[simp] theorem State.setPath_engines (s : State) (f : Path → Path) : (s.setPath f).engines = s.engines := rfl
@[simp] theorem State.setTeam_engines (s : State) (n : Nat) (f : Team → Team) : (s.setTeam n f).engines = s.engines := rfl
@[simp] theorem State.setMyTeam_engines (s : State) (f : Team → Team) : (s.setMyTeam f).engines = s.engines := rfl
@[simp] theorem State.setPart_engines (s : State) (n : Nat) (f : Partition → Partition) : (s.setPart n f).engines = s.engines := by
  unfold State.setPart; split <;> rfl
@[simp] theorem State.setGroup_engines (s : State) (n : Nat) (f : Group → Group) : (s.setGroup n f).engines = s.engines := by
  unfold State.setGroup; split <;> rfl
@[simp] theorem State.msi_engines (s : State) (a b : Nat) : (s.msi a b).engines = s.engines := rfl
@[simp] theorem State.withMe_febs (s : State) (f : Group → Group) : (s.withMe f).febs = s.febs := rfl
@[simp] theorem State.setPath_febs (s : State) (f : Path → Path) : (s.setPath f).febs = s.febs := rfl
@[simp] theorem State.setTeam_febs (s : State) (n : Nat) (f : Team → Team) : (s.setTeam n f).febs = s.febs := rfl
@[simp] theorem State.setMyTeam_febs (s : State) (f : Team → Team) : (s.setMyTeam f).febs = s.febs := rfl
@[simp] theorem State.setPart_febs (s : State) (n : Nat) (f : Partition → Partition) : (s.setPart n f).febs = s.febs := by
  unfold State.setPart; split <;> rfl
@[simp] theorem State.setGroup_febs (s : State) (n : Nat) (f : Group → Group) : (s.setGroup n f).febs = s.febs := by
  unfold State.setGroup; split <;> rfl
@[simp] theorem State.msi_febs (s : State) (a b : Nat) : (s.msi a b).febs = s.febs := rfl
@[simp] theorem State.withMe_keys (s : State) (f : Group → Group) : (s.withMe f).keys = s.keys := rfl
@[simp] theorem State.setPath_keys (s : State) (f : Path → Path) : (s.setPath f).keys = s.keys := rfl
@[simp] theorem State.setTeam_keys (s : State) (n : Nat) (f : Team → Team) : (s.setTeam n f).keys = s.keys := rfl
@[simp] theorem State.setMyTeam_keys (s : State) (f : Team → Team) : (s.setMyTeam f).keys = s.keys := rfl
@[simp] theorem State.setPart_keys (s : State) (n : Nat) (f : Partition → Partition) : (s.setPart n f).keys = s.keys := by
  unfold State.setPart; split <;> rfl
@[simp] theorem State.setGroup_keys (s : State) (n : Nat) (f : Group → Group) : (s.setGroup n f).keys = s.keys := by
  unfold State.setGroup; split <;> rfl
@[simp] theorem State.msi_keys (s : State) (a b : Nat) : (s.msi a b).keys = s.keys := rfl
@[simp] theorem State.withMe_lastPart (s : State) (f : Group → Group) : (s.withMe f).lastPart = s.lastPart := rfl
@[simp] theorem State.setPath_lastPart (s : State) (f : Path → Path) : (s.setPath f).lastPart = s.lastPart := rfl
@[simp] theorem State.setTeam_lastPart (s : State) (n : Nat) (f : Team → Team) : (s.setTeam n f).lastPart = s.lastPart := rfl
@[simp] theorem State.setMyTeam_lastPart (s : State) (f : Team → Team) : (s.setMyTeam f).lastPart = s.lastPart := rfl
@[simp] theorem State.setPart_lastPart (s : State) (n : Nat) (f : Partition → Partition) : (s.setPart n f).lastPart = s.lastPart := by
  unfold State.setPart; split <;> rfl
@[simp] theorem State.setGroup_lastPart (s : State) (n : Nat) (f : Group → Group) : (s.setGroup n f).lastPart = s.lastPart := by
  unfold State.setGroup; split <;> rfl
@[simp] theorem State.msi_lastPart (s : State) (a b : Nat) : (s.msi a b).lastPart = s.lastPart := rfl
@[simp] theorem State.withMe_dispatchAt (s : State) (f : Group → Group) : (s.withMe f).dispatchAt = s.dispatchAt := rfl
@[simp] theorem State.setPath_dispatchAt (s : State) (f : Path → Path) : (s.setPath f).dispatchAt = s.dispatchAt := rfl
@[simp] theorem State.setTeam_dispatchAt (s : State) (n : Nat) (f : Team → Team) : (s.setTeam n f).dispatchAt = s.dispatchAt := rfl
@[simp] theorem State.setMyTeam_dispatchAt (s : State) (f : Team → Team) : (s.setMyTeam f).dispatchAt = s.dispatchAt := rfl
@[simp] theorem State.setPart_dispatchAt (s : State) (n : Nat) (f : Partition → Partition) : (s.setPart n f).dispatchAt = s.dispatchAt := by
  unfold State.setPart; split <;> rfl
@[simp] theorem State.setGroup_dispatchAt (s : State) (n : Nat) (f : Group → Group) : (s.setGroup n f).dispatchAt = s.dispatchAt := by
  unfold State.setGroup; split <;> rfl
@[simp] theorem State.msi_dispatchAt (s : State) (a b : Nat) : (s.msi a b).dispatchAt = s.dispatchAt := rfl
@[simp] theorem State.withMe_gates (s : State) (f : Group → Group) : (s.withMe f).gates = s.gates := rfl
@[simp] theorem State.setPath_gates (s : State) (f : Path → Path) : (s.setPath f).gates = s.gates := rfl
@[simp] theorem State.setTeam_gates (s : State) (n : Nat) (f : Team → Team) : (s.setTeam n f).gates = s.gates := rfl
@[simp] theorem State.setMyTeam_gates (s : State) (f : Team → Team) : (s.setMyTeam f).gates = s.gates := rfl
@[simp] theorem State.setPart_gates (s : State) (n : Nat) (f : Partition → Partition) : (s.setPart n f).gates = s.gates := by
  unfold State.setPart; split <;> rfl
@[simp] theorem State.setGroup_gates (s : State) (n : Nat) (f : Group → Group) : (s.setGroup n f).gates = s.gates := by
  unfold State.setGroup; split <;> rfl
@[simp] theorem State.msi_gates (s : State) (a b : Nat) : (s.msi a b).gates = s.gates := rfl
@[simp] theorem State.withMe_power (s : State) (f : Group → Group) : (s.withMe f).power = s.power := rfl
@[simp] theorem State.setPath_power (s : State) (f : Path → Path) : (s.setPath f).power = s.power := rfl
@[simp] theorem State.setTeam_power (s : State) (n : Nat) (f : Team → Team) : (s.setTeam n f).power = s.power := rfl
@[simp] theorem State.setMyTeam_power (s : State) (f : Team → Team) : (s.setMyTeam f).power = s.power := rfl
@[simp] theorem State.setPart_power (s : State) (n : Nat) (f : Partition → Partition) : (s.setPart n f).power = s.power := by
  unfold State.setPart; split <;> rfl
@[simp] theorem State.setGroup_power (s : State) (n : Nat) (f : Group → Group) : (s.setGroup n f).power = s.power := by
  unfold State.setGroup; split <;> rfl
@[simp] theorem State.msi_power (s : State) (a b : Nat) : (s.msi a b).power = s.power := rfl
@[simp] theorem State.withMe_cdmask (s : State) (f : Group → Group) : (s.withMe f).cdmask = s.cdmask := rfl
@[simp] theorem State.setPath_cdmask (s : State) (f : Path → Path) : (s.setPath f).cdmask = s.cdmask := rfl
@[simp] theorem State.setTeam_cdmask (s : State) (n : Nat) (f : Team → Team) : (s.setTeam n f).cdmask = s.cdmask := rfl
@[simp] theorem State.setMyTeam_cdmask (s : State) (f : Team → Team) : (s.setMyTeam f).cdmask = s.cdmask := rfl
@[simp] theorem State.setPart_cdmask (s : State) (n : Nat) (f : Partition → Partition) : (s.setPart n f).cdmask = s.cdmask := by
  unfold State.setPart; split <;> rfl
@[simp] theorem State.setGroup_cdmask (s : State) (n : Nat) (f : Group → Group) : (s.setGroup n f).cdmask = s.cdmask := by
  unfold State.setGroup; split <;> rfl
@[simp] theorem State.msi_cdmask (s : State) (a b : Nat) : (s.msi a b).cdmask = s.cdmask := rfl
@[simp] theorem State.withMe_scanPer (s : State) (f : Group → Group) : (s.withMe f).scanPer = s.scanPer := rfl
@[simp] theorem State.setPath_scanPer (s : State) (f : Path → Path) : (s.setPath f).scanPer = s.scanPer := rfl
@[simp] theorem State.setTeam_scanPer (s : State) (n : Nat) (f : Team → Team) : (s.setTeam n f).scanPer = s.scanPer := rfl
@[simp] theorem State.setMyTeam_scanPer (s : State) (f : Team → Team) : (s.setMyTeam f).scanPer = s.scanPer := rfl
@[simp] theorem State.setPart_scanPer (s : State) (n : Nat) (f : Partition → Partition) : (s.setPart n f).scanPer = s.scanPer := by
  unfold State.setPart; split <;> rfl
@[simp] theorem State.setGroup_scanPer (s : State) (n : Nat) (f : Group → Group) : (s.setGroup n f).scanPer = s.scanPer := by
  unfold State.setGroup; split <;> rfl
@[simp] theorem State.msi_scanPer (s : State) (a b : Nat) : (s.msi a b).scanPer = s.scanPer := rfl
@[simp] theorem State.withMe_psSel (s : State) (f : Group → Group) : (s.withMe f).psSel = s.psSel := rfl
@[simp] theorem State.setPath_psSel (s : State) (f : Path → Path) : (s.setPath f).psSel = s.psSel := rfl
@[simp] theorem State.setTeam_psSel (s : State) (n : Nat) (f : Team → Team) : (s.setTeam n f).psSel = s.psSel := rfl
@[simp] theorem State.setMyTeam_psSel (s : State) (f : Team → Team) : (s.setMyTeam f).psSel = s.psSel := rfl
@[simp] theorem State.setPart_psSel (s : State) (n : Nat) (f : Partition → Partition) : (s.setPart n f).psSel = s.psSel := by
  unfold State.setPart; split <;> rfl
@[simp] theorem State.setGroup_psSel (s : State) (n : Nat) (f : Group → Group) : (s.setGroup n f).psSel = s.psSel := by
  unfold State.setGroup; split <;> rfl
@[simp] theorem State.msi_psSel (s : State) (a b : Nat) : (s.msi a b).psSel = s.psSel := rfl
@[simp] theorem State.withMe_patrol (s : State) (f : Group → Group) : (s.withMe f).patrol = s.patrol := rfl
@[simp] theorem State.setPath_patrol (s : State) (f : Path → Path) : (s.setPath f).patrol = s.patrol := rfl
@[simp] theorem State.setTeam_patrol (s : State) (n : Nat) (f : Team → Team) : (s.setTeam n f).patrol = s.patrol := rfl
@[simp] theorem State.setMyTeam_patrol (s : State) (f : Team → Team) : (s.setMyTeam f).patrol = s.patrol := rfl
@[simp] theorem State.setPart_patrol (s : State) (n : Nat) (f : Partition → Partition) : (s.setPart n f).patrol = s.patrol := by
  unfold State.setPart; split <;> rfl
@[simp] theorem State.setGroup_patrol (s : State) (n : Nat) (f : Group → Group) : (s.setGroup n f).patrol = s.patrol := by
  unfold State.setGroup; split <;> rfl
@[simp] theorem State.msi_patrol (s : State) (a b : Nat) : (s.msi a b).patrol = s.patrol := rfl
@[simp] theorem State.withMe_patrolRow (s : State) (f : Group → Group) : (s.withMe f).patrolRow = s.patrolRow := rfl
@[simp] theorem State.setPath_patrolRow (s : State) (f : Path → Path) : (s.setPath f).patrolRow = s.patrolRow := rfl
@[simp] theorem State.setTeam_patrolRow (s : State) (n : Nat) (f : Team → Team) : (s.setTeam n f).patrolRow = s.patrolRow := rfl
@[simp] theorem State.setMyTeam_patrolRow (s : State) (f : Team → Team) : (s.setMyTeam f).patrolRow = s.patrolRow := rfl
@[simp] theorem State.setPart_patrolRow (s : State) (n : Nat) (f : Partition → Partition) : (s.setPart n f).patrolRow = s.patrolRow := by
  unfold State.setPart; split <;> rfl
@[simp] theorem State.setGroup_patrolRow (s : State) (n : Nat) (f : Group → Group) : (s.setGroup n f).patrolRow = s.patrolRow := by
  unfold State.setGroup; split <;> rfl
@[simp] theorem State.msi_patrolRow (s : State) (a b : Nat) : (s.msi a b).patrolRow = s.patrolRow := rfl
@[simp] theorem State.withMe_patrolAt (s : State) (f : Group → Group) : (s.withMe f).patrolAt = s.patrolAt := rfl
@[simp] theorem State.setPath_patrolAt (s : State) (f : Path → Path) : (s.setPath f).patrolAt = s.patrolAt := rfl
@[simp] theorem State.setTeam_patrolAt (s : State) (n : Nat) (f : Team → Team) : (s.setTeam n f).patrolAt = s.patrolAt := rfl
@[simp] theorem State.setMyTeam_patrolAt (s : State) (f : Team → Team) : (s.setMyTeam f).patrolAt = s.patrolAt := rfl
@[simp] theorem State.setPart_patrolAt (s : State) (n : Nat) (f : Partition → Partition) : (s.setPart n f).patrolAt = s.patrolAt := by
  unfold State.setPart; split <;> rfl
@[simp] theorem State.setGroup_patrolAt (s : State) (n : Nat) (f : Group → Group) : (s.setGroup n f).patrolAt = s.patrolAt := by
  unfold State.setGroup; split <;> rfl
@[simp] theorem State.msi_patrolAt (s : State) (a b : Nat) : (s.msi a b).patrolAt = s.patrolAt := rfl
@[simp] theorem State.withMe_patrolRead (s : State) (f : Group → Group) : (s.withMe f).patrolRead = s.patrolRead := rfl
@[simp] theorem State.setPath_patrolRead (s : State) (f : Path → Path) : (s.setPath f).patrolRead = s.patrolRead := rfl
@[simp] theorem State.setTeam_patrolRead (s : State) (n : Nat) (f : Team → Team) : (s.setTeam n f).patrolRead = s.patrolRead := rfl
@[simp] theorem State.setMyTeam_patrolRead (s : State) (f : Team → Team) : (s.setMyTeam f).patrolRead = s.patrolRead := rfl
@[simp] theorem State.setPart_patrolRead (s : State) (n : Nat) (f : Partition → Partition) : (s.setPart n f).patrolRead = s.patrolRead := by
  unfold State.setPart; split <;> rfl
@[simp] theorem State.setGroup_patrolRead (s : State) (n : Nat) (f : Group → Group) : (s.setGroup n f).patrolRead = s.patrolRead := by
  unfold State.setGroup; split <;> rfl
@[simp] theorem State.msi_patrolRead (s : State) (a b : Nat) : (s.msi a b).patrolRead = s.patrolRead := rfl
@[simp] theorem State.withMe_scanning (s : State) (f : Group → Group) : (s.withMe f).scanning = s.scanning := rfl
@[simp] theorem State.setPath_scanning (s : State) (f : Path → Path) : (s.setPath f).scanning = s.scanning := rfl
@[simp] theorem State.setTeam_scanning (s : State) (n : Nat) (f : Team → Team) : (s.setTeam n f).scanning = s.scanning := rfl
@[simp] theorem State.setMyTeam_scanning (s : State) (f : Team → Team) : (s.setMyTeam f).scanning = s.scanning := rfl
@[simp] theorem State.setPart_scanning (s : State) (n : Nat) (f : Partition → Partition) : (s.setPart n f).scanning = s.scanning := by
  unfold State.setPart; split <;> rfl
@[simp] theorem State.setGroup_scanning (s : State) (n : Nat) (f : Group → Group) : (s.setGroup n f).scanning = s.scanning := by
  unfold State.setGroup; split <;> rfl
@[simp] theorem State.msi_scanning (s : State) (a b : Nat) : (s.msi a b).scanning = s.scanning := rfl
@[simp] theorem State.withMe_scanNext (s : State) (f : Group → Group) : (s.withMe f).scanNext = s.scanNext := rfl
@[simp] theorem State.setPath_scanNext (s : State) (f : Path → Path) : (s.setPath f).scanNext = s.scanNext := rfl
@[simp] theorem State.setTeam_scanNext (s : State) (n : Nat) (f : Team → Team) : (s.setTeam n f).scanNext = s.scanNext := rfl
@[simp] theorem State.setMyTeam_scanNext (s : State) (f : Team → Team) : (s.setMyTeam f).scanNext = s.scanNext := rfl
@[simp] theorem State.setPart_scanNext (s : State) (n : Nat) (f : Partition → Partition) : (s.setPart n f).scanNext = s.scanNext := by
  unfold State.setPart; split <;> rfl
@[simp] theorem State.setGroup_scanNext (s : State) (n : Nat) (f : Group → Group) : (s.setGroup n f).scanNext = s.scanNext := by
  unfold State.setGroup; split <;> rfl
@[simp] theorem State.msi_scanNext (s : State) (a b : Nat) : (s.msi a b).scanNext = s.scanNext := rfl
@[simp] theorem State.withMe_scanNum (s : State) (f : Group → Group) : (s.withMe f).scanNum = s.scanNum := rfl
@[simp] theorem State.setPath_scanNum (s : State) (f : Path → Path) : (s.setPath f).scanNum = s.scanNum := rfl
@[simp] theorem State.setTeam_scanNum (s : State) (n : Nat) (f : Team → Team) : (s.setTeam n f).scanNum = s.scanNum := rfl
@[simp] theorem State.setMyTeam_scanNum (s : State) (f : Team → Team) : (s.setMyTeam f).scanNum = s.scanNum := rfl
@[simp] theorem State.setPart_scanNum (s : State) (n : Nat) (f : Partition → Partition) : (s.setPart n f).scanNum = s.scanNum := by
  unfold State.setPart; split <;> rfl
@[simp] theorem State.setGroup_scanNum (s : State) (n : Nat) (f : Group → Group) : (s.setGroup n f).scanNum = s.scanNum := by
  unfold State.setGroup; split <;> rfl
@[simp] theorem State.msi_scanNum (s : State) (a b : Nat) : (s.msi a b).scanNum = s.scanNum := rfl
@[simp] theorem State.withMe_scanDue (s : State) (f : Group → Group) : (s.withMe f).scanDue = s.scanDue := rfl
@[simp] theorem State.setPath_scanDue (s : State) (f : Path → Path) : (s.setPath f).scanDue = s.scanDue := rfl
@[simp] theorem State.setTeam_scanDue (s : State) (n : Nat) (f : Team → Team) : (s.setTeam n f).scanDue = s.scanDue := rfl
@[simp] theorem State.setMyTeam_scanDue (s : State) (f : Team → Team) : (s.setMyTeam f).scanDue = s.scanDue := rfl
@[simp] theorem State.setPart_scanDue (s : State) (n : Nat) (f : Partition → Partition) : (s.setPart n f).scanDue = s.scanDue := by
  unfold State.setPart; split <;> rfl
@[simp] theorem State.setGroup_scanDue (s : State) (n : Nat) (f : Group → Group) : (s.setGroup n f).scanDue = s.scanDue := by
  unfold State.setGroup; split <;> rfl
@[simp] theorem State.msi_scanDue (s : State) (a b : Nat) : (s.msi a b).scanDue = s.scanDue := rfl
@[simp] theorem State.withMe_lastPass (s : State) (f : Group → Group) : (s.withMe f).lastPass = s.lastPass := rfl
@[simp] theorem State.setPath_lastPass (s : State) (f : Path → Path) : (s.setPath f).lastPass = s.lastPass := rfl
@[simp] theorem State.setTeam_lastPass (s : State) (n : Nat) (f : Team → Team) : (s.setTeam n f).lastPass = s.lastPass := rfl
@[simp] theorem State.setMyTeam_lastPass (s : State) (f : Team → Team) : (s.setMyTeam f).lastPass = s.lastPass := rfl
@[simp] theorem State.setPart_lastPass (s : State) (n : Nat) (f : Partition → Partition) : (s.setPart n f).lastPass = s.lastPass := by
  unfold State.setPart; split <;> rfl
@[simp] theorem State.setGroup_lastPass (s : State) (n : Nat) (f : Group → Group) : (s.setGroup n f).lastPass = s.lastPass := by
  unfold State.setGroup; split <;> rfl
@[simp] theorem State.msi_lastPass (s : State) (a b : Nat) : (s.msi a b).lastPass = s.lastPass := rfl
@[simp] theorem State.withMe_coreRegs (s : State) (f : Group → Group) : (s.withMe f).coreRegs = s.coreRegs := rfl
@[simp] theorem State.setPath_coreRegs (s : State) (f : Path → Path) : (s.setPath f).coreRegs = s.coreRegs := rfl
@[simp] theorem State.setTeam_coreRegs (s : State) (n : Nat) (f : Team → Team) : (s.setTeam n f).coreRegs = s.coreRegs := rfl
@[simp] theorem State.setMyTeam_coreRegs (s : State) (f : Team → Team) : (s.setMyTeam f).coreRegs = s.coreRegs := rfl
@[simp] theorem State.setPart_coreRegs (s : State) (n : Nat) (f : Partition → Partition) : (s.setPart n f).coreRegs = s.coreRegs := by
  unfold State.setPart; split <;> rfl
@[simp] theorem State.setGroup_coreRegs (s : State) (n : Nat) (f : Group → Group) : (s.setGroup n f).coreRegs = s.coreRegs := by
  unfold State.setGroup; split <;> rfl
@[simp] theorem State.msi_coreRegs (s : State) (a b : Nat) : (s.msi a b).coreRegs = s.coreRegs := rfl
@[simp] theorem State.withMe_samplers (s : State) (f : Group → Group) : (s.withMe f).samplers = s.samplers := rfl
@[simp] theorem State.setPath_samplers (s : State) (f : Path → Path) : (s.setPath f).samplers = s.samplers := rfl
@[simp] theorem State.setTeam_samplers (s : State) (n : Nat) (f : Team → Team) : (s.setTeam n f).samplers = s.samplers := rfl
@[simp] theorem State.setMyTeam_samplers (s : State) (f : Team → Team) : (s.setMyTeam f).samplers = s.samplers := rfl
@[simp] theorem State.setPart_samplers (s : State) (n : Nat) (f : Partition → Partition) : (s.setPart n f).samplers = s.samplers := by
  unfold State.setPart; split <;> rfl
@[simp] theorem State.setGroup_samplers (s : State) (n : Nat) (f : Group → Group) : (s.setGroup n f).samplers = s.samplers := by
  unfold State.setGroup; split <;> rfl
@[simp] theorem State.msi_samplers (s : State) (a b : Nat) : (s.msi a b).samplers = s.samplers := rfl
@[simp] theorem State.withMe_flits (s : State) (f : Group → Group) : (s.withMe f).flits = s.flits := rfl
@[simp] theorem State.setPath_flits (s : State) (f : Path → Path) : (s.setPath f).flits = s.flits := rfl
@[simp] theorem State.setTeam_flits (s : State) (n : Nat) (f : Team → Team) : (s.setTeam n f).flits = s.flits := rfl
@[simp] theorem State.setMyTeam_flits (s : State) (f : Team → Team) : (s.setMyTeam f).flits = s.flits := rfl
@[simp] theorem State.setPart_flits (s : State) (n : Nat) (f : Partition → Partition) : (s.setPart n f).flits = s.flits := by
  unfold State.setPart; split <;> rfl
@[simp] theorem State.setGroup_flits (s : State) (n : Nat) (f : Group → Group) : (s.setGroup n f).flits = s.flits := by
  unfold State.setGroup; split <;> rfl
@[simp] theorem State.msi_flits (s : State) (a b : Nat) : (s.msi a b).flits = s.flits := rfl
@[simp] theorem State.withMe_inject (s : State) (f : Group → Group) : (s.withMe f).inject = s.inject := rfl
@[simp] theorem State.setPath_inject (s : State) (f : Path → Path) : (s.setPath f).inject = s.inject := rfl
@[simp] theorem State.setTeam_inject (s : State) (n : Nat) (f : Team → Team) : (s.setTeam n f).inject = s.inject := rfl
@[simp] theorem State.setMyTeam_inject (s : State) (f : Team → Team) : (s.setMyTeam f).inject = s.inject := rfl
@[simp] theorem State.setPart_inject (s : State) (n : Nat) (f : Partition → Partition) : (s.setPart n f).inject = s.inject := by
  unfold State.setPart; split <;> rfl
@[simp] theorem State.setGroup_inject (s : State) (n : Nat) (f : Group → Group) : (s.setGroup n f).inject = s.inject := by
  unfold State.setGroup; split <;> rfl
@[simp] theorem State.msi_inject (s : State) (a b : Nat) : (s.msi a b).inject = s.inject := rfl
@[simp] theorem State.withMe_receivers (s : State) (f : Group → Group) : (s.withMe f).receivers = s.receivers := rfl
@[simp] theorem State.setPath_receivers (s : State) (f : Path → Path) : (s.setPath f).receivers = s.receivers := rfl
@[simp] theorem State.setTeam_receivers (s : State) (n : Nat) (f : Team → Team) : (s.setTeam n f).receivers = s.receivers := rfl
@[simp] theorem State.setMyTeam_receivers (s : State) (f : Team → Team) : (s.setMyTeam f).receivers = s.receivers := rfl
@[simp] theorem State.setPart_receivers (s : State) (n : Nat) (f : Partition → Partition) : (s.setPart n f).receivers = s.receivers := by
  unfold State.setPart; split <;> rfl
@[simp] theorem State.setGroup_receivers (s : State) (n : Nat) (f : Group → Group) : (s.setGroup n f).receivers = s.receivers := by
  unfold State.setGroup; split <;> rfl
@[simp] theorem State.msi_receivers (s : State) (a b : Nat) : (s.msi a b).receivers = s.receivers := rfl
@[simp] theorem State.withMe_delivered (s : State) (f : Group → Group) : (s.withMe f).delivered = s.delivered := rfl
@[simp] theorem State.setPath_delivered (s : State) (f : Path → Path) : (s.setPath f).delivered = s.delivered := rfl
@[simp] theorem State.setTeam_delivered (s : State) (n : Nat) (f : Team → Team) : (s.setTeam n f).delivered = s.delivered := rfl
@[simp] theorem State.setMyTeam_delivered (s : State) (f : Team → Team) : (s.setMyTeam f).delivered = s.delivered := rfl
@[simp] theorem State.setPart_delivered (s : State) (n : Nat) (f : Partition → Partition) : (s.setPart n f).delivered = s.delivered := by
  unfold State.setPart; split <;> rfl
@[simp] theorem State.setGroup_delivered (s : State) (n : Nat) (f : Group → Group) : (s.setGroup n f).delivered = s.delivered := by
  unfold State.setGroup; split <;> rfl
@[simp] theorem State.msi_delivered (s : State) (a b : Nat) : (s.msi a b).delivered = s.delivered := rfl
@[simp] theorem State.withMe_probes (s : State) (f : Group → Group) : (s.withMe f).probes = s.probes := rfl
@[simp] theorem State.setPath_probes (s : State) (f : Path → Path) : (s.setPath f).probes = s.probes := rfl
@[simp] theorem State.setTeam_probes (s : State) (n : Nat) (f : Team → Team) : (s.setTeam n f).probes = s.probes := rfl
@[simp] theorem State.setMyTeam_probes (s : State) (f : Team → Team) : (s.setMyTeam f).probes = s.probes := rfl
@[simp] theorem State.setPart_probes (s : State) (n : Nat) (f : Partition → Partition) : (s.setPart n f).probes = s.probes := by
  unfold State.setPart; split <;> rfl
@[simp] theorem State.setGroup_probes (s : State) (n : Nat) (f : Group → Group) : (s.setGroup n f).probes = s.probes := by
  unfold State.setGroup; split <;> rfl
@[simp] theorem State.msi_probes (s : State) (a b : Nat) : (s.msi a b).probes = s.probes := rfl
@[simp] theorem State.withMe_probeNum (s : State) (f : Group → Group) : (s.withMe f).probeNum = s.probeNum := rfl
@[simp] theorem State.setPath_probeNum (s : State) (f : Path → Path) : (s.setPath f).probeNum = s.probeNum := rfl
@[simp] theorem State.setTeam_probeNum (s : State) (n : Nat) (f : Team → Team) : (s.setTeam n f).probeNum = s.probeNum := rfl
@[simp] theorem State.setMyTeam_probeNum (s : State) (f : Team → Team) : (s.setMyTeam f).probeNum = s.probeNum := rfl
@[simp] theorem State.setPart_probeNum (s : State) (n : Nat) (f : Partition → Partition) : (s.setPart n f).probeNum = s.probeNum := by
  unfold State.setPart; split <;> rfl
@[simp] theorem State.setGroup_probeNum (s : State) (n : Nat) (f : Group → Group) : (s.setGroup n f).probeNum = s.probeNum := by
  unfold State.setGroup; split <;> rfl
@[simp] theorem State.msi_probeNum (s : State) (a b : Nat) : (s.msi a b).probeNum = s.probeNum := rfl
@[simp] theorem State.withMe_probeSeen (s : State) (f : Group → Group) : (s.withMe f).probeSeen = s.probeSeen := rfl
@[simp] theorem State.setPath_probeSeen (s : State) (f : Path → Path) : (s.setPath f).probeSeen = s.probeSeen := rfl
@[simp] theorem State.setTeam_probeSeen (s : State) (n : Nat) (f : Team → Team) : (s.setTeam n f).probeSeen = s.probeSeen := rfl
@[simp] theorem State.setMyTeam_probeSeen (s : State) (f : Team → Team) : (s.setMyTeam f).probeSeen = s.probeSeen := rfl
@[simp] theorem State.setPart_probeSeen (s : State) (n : Nat) (f : Partition → Partition) : (s.setPart n f).probeSeen = s.probeSeen := by
  unfold State.setPart; split <;> rfl
@[simp] theorem State.setGroup_probeSeen (s : State) (n : Nat) (f : Group → Group) : (s.setGroup n f).probeSeen = s.probeSeen := by
  unfold State.setGroup; split <;> rfl
@[simp] theorem State.msi_probeSeen (s : State) (a b : Nat) : (s.msi a b).probeSeen = s.probeSeen := rfl
@[simp] theorem State.withMe_probeAnswers (s : State) (f : Group → Group) : (s.withMe f).probeAnswers = s.probeAnswers := rfl
@[simp] theorem State.setPath_probeAnswers (s : State) (f : Path → Path) : (s.setPath f).probeAnswers = s.probeAnswers := rfl
@[simp] theorem State.setTeam_probeAnswers (s : State) (n : Nat) (f : Team → Team) : (s.setTeam n f).probeAnswers = s.probeAnswers := rfl
@[simp] theorem State.setMyTeam_probeAnswers (s : State) (f : Team → Team) : (s.setMyTeam f).probeAnswers = s.probeAnswers := rfl
@[simp] theorem State.setPart_probeAnswers (s : State) (n : Nat) (f : Partition → Partition) : (s.setPart n f).probeAnswers = s.probeAnswers := by
  unfold State.setPart; split <;> rfl
@[simp] theorem State.setGroup_probeAnswers (s : State) (n : Nat) (f : Group → Group) : (s.setGroup n f).probeAnswers = s.probeAnswers := by
  unfold State.setGroup; split <;> rfl
@[simp] theorem State.msi_probeAnswers (s : State) (a b : Nat) : (s.msi a b).probeAnswers = s.probeAnswers := rfl
@[simp] theorem State.withMe_injectLast (s : State) (f : Group → Group) : (s.withMe f).injectLast = s.injectLast := rfl
@[simp] theorem State.setPath_injectLast (s : State) (f : Path → Path) : (s.setPath f).injectLast = s.injectLast := rfl
@[simp] theorem State.setTeam_injectLast (s : State) (n : Nat) (f : Team → Team) : (s.setTeam n f).injectLast = s.injectLast := rfl
@[simp] theorem State.setMyTeam_injectLast (s : State) (f : Team → Team) : (s.setMyTeam f).injectLast = s.injectLast := rfl
@[simp] theorem State.setPart_injectLast (s : State) (n : Nat) (f : Partition → Partition) : (s.setPart n f).injectLast = s.injectLast := by
  unfold State.setPart; split <;> rfl
@[simp] theorem State.setGroup_injectLast (s : State) (n : Nat) (f : Group → Group) : (s.setGroup n f).injectLast = s.injectLast := by
  unfold State.setGroup; split <;> rfl
@[simp] theorem State.msi_injectLast (s : State) (a b : Nat) : (s.msi a b).injectLast = s.injectLast := rfl
@[simp] theorem State.withMe_routed (s : State) (f : Group → Group) : (s.withMe f).routed = s.routed := rfl
@[simp] theorem State.setPath_routed (s : State) (f : Path → Path) : (s.setPath f).routed = s.routed := rfl
@[simp] theorem State.setTeam_routed (s : State) (n : Nat) (f : Team → Team) : (s.setTeam n f).routed = s.routed := rfl
@[simp] theorem State.setMyTeam_routed (s : State) (f : Team → Team) : (s.setMyTeam f).routed = s.routed := rfl
@[simp] theorem State.setPart_routed (s : State) (n : Nat) (f : Partition → Partition) : (s.setPart n f).routed = s.routed := by
  unfold State.setPart; split <;> rfl
@[simp] theorem State.setGroup_routed (s : State) (n : Nat) (f : Group → Group) : (s.setGroup n f).routed = s.routed := by
  unfold State.setGroup; split <;> rfl
@[simp] theorem State.msi_routed (s : State) (a b : Nat) : (s.msi a b).routed = s.routed := rfl
@[simp] theorem State.withMe_auditAt (s : State) (f : Group → Group) : (s.withMe f).auditAt = s.auditAt := rfl
@[simp] theorem State.setPath_auditAt (s : State) (f : Path → Path) : (s.setPath f).auditAt = s.auditAt := rfl
@[simp] theorem State.setTeam_auditAt (s : State) (n : Nat) (f : Team → Team) : (s.setTeam n f).auditAt = s.auditAt := rfl
@[simp] theorem State.setMyTeam_auditAt (s : State) (f : Team → Team) : (s.setMyTeam f).auditAt = s.auditAt := rfl
@[simp] theorem State.setPart_auditAt (s : State) (n : Nat) (f : Partition → Partition) : (s.setPart n f).auditAt = s.auditAt := by
  unfold State.setPart; split <;> rfl
@[simp] theorem State.setGroup_auditAt (s : State) (n : Nat) (f : Group → Group) : (s.setGroup n f).auditAt = s.auditAt := by
  unfold State.setGroup; split <;> rfl
@[simp] theorem State.msi_auditAt (s : State) (a b : Nat) : (s.msi a b).auditAt = s.auditAt := rfl
@[simp] theorem State.withMe_auditNext (s : State) (f : Group → Group) : (s.withMe f).auditNext = s.auditNext := rfl
@[simp] theorem State.setPath_auditNext (s : State) (f : Path → Path) : (s.setPath f).auditNext = s.auditNext := rfl
@[simp] theorem State.setTeam_auditNext (s : State) (n : Nat) (f : Team → Team) : (s.setTeam n f).auditNext = s.auditNext := rfl
@[simp] theorem State.setMyTeam_auditNext (s : State) (f : Team → Team) : (s.setMyTeam f).auditNext = s.auditNext := rfl
@[simp] theorem State.setPart_auditNext (s : State) (n : Nat) (f : Partition → Partition) : (s.setPart n f).auditNext = s.auditNext := by
  unfold State.setPart; split <;> rfl
@[simp] theorem State.setGroup_auditNext (s : State) (n : Nat) (f : Group → Group) : (s.setGroup n f).auditNext = s.auditNext := by
  unfold State.setGroup; split <;> rfl
@[simp] theorem State.msi_auditNext (s : State) (a b : Nat) : (s.msi a b).auditNext = s.auditNext := rfl
@[simp] theorem State.withMe_errors (s : State) (f : Group → Group) : (s.withMe f).errors = s.errors := rfl
@[simp] theorem State.setPath_errors (s : State) (f : Path → Path) : (s.setPath f).errors = s.errors := rfl
@[simp] theorem State.setTeam_errors (s : State) (n : Nat) (f : Team → Team) : (s.setTeam n f).errors = s.errors := rfl
@[simp] theorem State.setMyTeam_errors (s : State) (f : Team → Team) : (s.setMyTeam f).errors = s.errors := rfl
@[simp] theorem State.setPart_errors (s : State) (n : Nat) (f : Partition → Partition) : (s.setPart n f).errors = s.errors := by
  unfold State.setPart; split <;> rfl
@[simp] theorem State.setGroup_errors (s : State) (n : Nat) (f : Group → Group) : (s.setGroup n f).errors = s.errors := by
  unfold State.setGroup; split <;> rfl
@[simp] theorem State.msi_errors (s : State) (a b : Nat) : (s.msi a b).errors = s.errors := rfl
@[simp] theorem State.withMe_matLast (s : State) (f : Group → Group) : (s.withMe f).matLast = s.matLast := rfl
@[simp] theorem State.setPath_matLast (s : State) (f : Path → Path) : (s.setPath f).matLast = s.matLast := rfl
@[simp] theorem State.setTeam_matLast (s : State) (n : Nat) (f : Team → Team) : (s.setTeam n f).matLast = s.matLast := rfl
@[simp] theorem State.setMyTeam_matLast (s : State) (f : Team → Team) : (s.setMyTeam f).matLast = s.matLast := rfl
@[simp] theorem State.setPart_matLast (s : State) (n : Nat) (f : Partition → Partition) : (s.setPart n f).matLast = s.matLast := by
  unfold State.setPart; split <;> rfl
@[simp] theorem State.setGroup_matLast (s : State) (n : Nat) (f : Group → Group) : (s.setGroup n f).matLast = s.matLast := by
  unfold State.setGroup; split <;> rfl
@[simp] theorem State.msi_matLast (s : State) (a b : Nat) : (s.msi a b).matLast = s.matLast := rfl
@[simp] theorem State.withMe_tlb (s : State) (f : Group → Group) : (s.withMe f).tlb = s.tlb := rfl
@[simp] theorem State.setPath_tlb (s : State) (f : Path → Path) : (s.setPath f).tlb = s.tlb := rfl
@[simp] theorem State.setTeam_tlb (s : State) (n : Nat) (f : Team → Team) : (s.setTeam n f).tlb = s.tlb := rfl
@[simp] theorem State.setMyTeam_tlb (s : State) (f : Team → Team) : (s.setMyTeam f).tlb = s.tlb := rfl
@[simp] theorem State.setPart_tlb (s : State) (n : Nat) (f : Partition → Partition) : (s.setPart n f).tlb = s.tlb := by
  unfold State.setPart; split <;> rfl
@[simp] theorem State.setGroup_tlb (s : State) (n : Nat) (f : Group → Group) : (s.setGroup n f).tlb = s.tlb := by
  unfold State.setGroup; split <;> rfl
@[simp] theorem State.msi_tlb (s : State) (a b : Nat) : (s.msi a b).tlb = s.tlb := rfl
@[simp] theorem State.withMe_tlb2 (s : State) (f : Group → Group) : (s.withMe f).tlb2 = s.tlb2 := rfl
@[simp] theorem State.setPath_tlb2 (s : State) (f : Path → Path) : (s.setPath f).tlb2 = s.tlb2 := rfl
@[simp] theorem State.setTeam_tlb2 (s : State) (n : Nat) (f : Team → Team) : (s.setTeam n f).tlb2 = s.tlb2 := rfl
@[simp] theorem State.setMyTeam_tlb2 (s : State) (f : Team → Team) : (s.setMyTeam f).tlb2 = s.tlb2 := rfl
@[simp] theorem State.setPart_tlb2 (s : State) (n : Nat) (f : Partition → Partition) : (s.setPart n f).tlb2 = s.tlb2 := by
  unfold State.setPart; split <;> rfl
@[simp] theorem State.setGroup_tlb2 (s : State) (n : Nat) (f : Group → Group) : (s.setGroup n f).tlb2 = s.tlb2 := by
  unfold State.setGroup; split <;> rfl
@[simp] theorem State.msi_tlb2 (s : State) (a b : Nat) : (s.msi a b).tlb2 = s.tlb2 := rfl
@[simp] theorem State.withMe_partDesc (s : State) (f : Group → Group) : (s.withMe f).partDesc = s.partDesc := rfl
@[simp] theorem State.setPath_partDesc (s : State) (f : Path → Path) : (s.setPath f).partDesc = s.partDesc := rfl
@[simp] theorem State.setTeam_partDesc (s : State) (n : Nat) (f : Team → Team) : (s.setTeam n f).partDesc = s.partDesc := rfl
@[simp] theorem State.setMyTeam_partDesc (s : State) (f : Team → Team) : (s.setMyTeam f).partDesc = s.partDesc := rfl
@[simp] theorem State.setPart_partDesc (s : State) (n : Nat) (f : Partition → Partition) : (s.setPart n f).partDesc = s.partDesc := by
  unfold State.setPart; split <;> rfl
@[simp] theorem State.setGroup_partDesc (s : State) (n : Nat) (f : Group → Group) : (s.setGroup n f).partDesc = s.partDesc := by
  unfold State.setGroup; split <;> rfl
@[simp] theorem State.msi_partDesc (s : State) (a b : Nat) : (s.msi a b).partDesc = s.partDesc := rfl
@[simp] theorem State.withMe_partCmd (s : State) (f : Group → Group) : (s.withMe f).partCmd = s.partCmd := rfl
@[simp] theorem State.setPath_partCmd (s : State) (f : Path → Path) : (s.setPath f).partCmd = s.partCmd := rfl
@[simp] theorem State.setTeam_partCmd (s : State) (n : Nat) (f : Team → Team) : (s.setTeam n f).partCmd = s.partCmd := rfl
@[simp] theorem State.setMyTeam_partCmd (s : State) (f : Team → Team) : (s.setMyTeam f).partCmd = s.partCmd := rfl
@[simp] theorem State.setPart_partCmd (s : State) (n : Nat) (f : Partition → Partition) : (s.setPart n f).partCmd = s.partCmd := by
  unfold State.setPart; split <;> rfl
@[simp] theorem State.setGroup_partCmd (s : State) (n : Nat) (f : Group → Group) : (s.setGroup n f).partCmd = s.partCmd := by
  unfold State.setGroup; split <;> rfl
@[simp] theorem State.msi_partCmd (s : State) (a b : Nat) : (s.msi a b).partCmd = s.partCmd := rfl
@[simp] theorem State.withMe_bootst (s : State) (f : Group → Group) : (s.withMe f).bootst = s.bootst := rfl
@[simp] theorem State.setPath_bootst (s : State) (f : Path → Path) : (s.setPath f).bootst = s.bootst := rfl
@[simp] theorem State.setTeam_bootst (s : State) (n : Nat) (f : Team → Team) : (s.setTeam n f).bootst = s.bootst := rfl
@[simp] theorem State.setMyTeam_bootst (s : State) (f : Team → Team) : (s.setMyTeam f).bootst = s.bootst := rfl
@[simp] theorem State.setPart_bootst (s : State) (n : Nat) (f : Partition → Partition) : (s.setPart n f).bootst = s.bootst := by
  unfold State.setPart; split <;> rfl
@[simp] theorem State.setGroup_bootst (s : State) (n : Nat) (f : Group → Group) : (s.setGroup n f).bootst = s.bootst := by
  unfold State.setGroup; split <;> rfl
@[simp] theorem State.msi_bootst (s : State) (a b : Nat) : (s.msi a b).bootst = s.bootst := rfl
@[simp] theorem State.withMe_hostErr (s : State) (f : Group → Group) : (s.withMe f).hostErr = s.hostErr := rfl
@[simp] theorem State.setPath_hostErr (s : State) (f : Path → Path) : (s.setPath f).hostErr = s.hostErr := rfl
@[simp] theorem State.setTeam_hostErr (s : State) (n : Nat) (f : Team → Team) : (s.setTeam n f).hostErr = s.hostErr := rfl
@[simp] theorem State.setMyTeam_hostErr (s : State) (f : Team → Team) : (s.setMyTeam f).hostErr = s.hostErr := rfl
@[simp] theorem State.setPart_hostErr (s : State) (n : Nat) (f : Partition → Partition) : (s.setPart n f).hostErr = s.hostErr := by
  unfold State.setPart; split <;> rfl
@[simp] theorem State.setGroup_hostErr (s : State) (n : Nat) (f : Group → Group) : (s.setGroup n f).hostErr = s.hostErr := by
  unfold State.setGroup; split <;> rfl
@[simp] theorem State.msi_hostErr (s : State) (a b : Nat) : (s.msi a b).hostErr = s.hostErr := rfl
@[simp] theorem State.withMe_linkUp (s : State) (f : Group → Group) : (s.withMe f).linkUp = s.linkUp := rfl
@[simp] theorem State.setPath_linkUp (s : State) (f : Path → Path) : (s.setPath f).linkUp = s.linkUp := rfl
@[simp] theorem State.setTeam_linkUp (s : State) (n : Nat) (f : Team → Team) : (s.setTeam n f).linkUp = s.linkUp := rfl
@[simp] theorem State.setMyTeam_linkUp (s : State) (f : Team → Team) : (s.setMyTeam f).linkUp = s.linkUp := rfl
@[simp] theorem State.setPart_linkUp (s : State) (n : Nat) (f : Partition → Partition) : (s.setPart n f).linkUp = s.linkUp := by
  unfold State.setPart; split <;> rfl
@[simp] theorem State.setGroup_linkUp (s : State) (n : Nat) (f : Group → Group) : (s.setGroup n f).linkUp = s.linkUp := by
  unfold State.setGroup; split <;> rfl
@[simp] theorem State.msi_linkUp (s : State) (a b : Nat) : (s.msi a b).linkUp = s.linkUp := rfl
@[simp] theorem State.withMe_perst (s : State) (f : Group → Group) : (s.withMe f).perst = s.perst := rfl
@[simp] theorem State.setPath_perst (s : State) (f : Path → Path) : (s.setPath f).perst = s.perst := rfl
@[simp] theorem State.setTeam_perst (s : State) (n : Nat) (f : Team → Team) : (s.setTeam n f).perst = s.perst := rfl
@[simp] theorem State.setMyTeam_perst (s : State) (f : Team → Team) : (s.setMyTeam f).perst = s.perst := rfl
@[simp] theorem State.setPart_perst (s : State) (n : Nat) (f : Partition → Partition) : (s.setPart n f).perst = s.perst := by
  unfold State.setPart; split <;> rfl
@[simp] theorem State.setGroup_perst (s : State) (n : Nat) (f : Group → Group) : (s.setGroup n f).perst = s.perst := by
  unfold State.setGroup; split <;> rfl
@[simp] theorem State.msi_perst (s : State) (a b : Nat) : (s.msi a b).perst = s.perst := rfl
@[simp] theorem State.withMe_imageDigest (s : State) (f : Group → Group) : (s.withMe f).imageDigest = s.imageDigest := rfl
@[simp] theorem State.setPath_imageDigest (s : State) (f : Path → Path) : (s.setPath f).imageDigest = s.imageDigest := rfl
@[simp] theorem State.setTeam_imageDigest (s : State) (n : Nat) (f : Team → Team) : (s.setTeam n f).imageDigest = s.imageDigest := rfl
@[simp] theorem State.setMyTeam_imageDigest (s : State) (f : Team → Team) : (s.setMyTeam f).imageDigest = s.imageDigest := rfl
@[simp] theorem State.setPart_imageDigest (s : State) (n : Nat) (f : Partition → Partition) : (s.setPart n f).imageDigest = s.imageDigest := by
  unfold State.setPart; split <;> rfl
@[simp] theorem State.setGroup_imageDigest (s : State) (n : Nat) (f : Group → Group) : (s.setGroup n f).imageDigest = s.imageDigest := by
  unfold State.setGroup; split <;> rfl
@[simp] theorem State.msi_imageDigest (s : State) (a b : Nat) : (s.msi a b).imageDigest = s.imageDigest := rfl
@[simp] theorem State.withMe_sessions (s : State) (f : Group → Group) : (s.withMe f).sessions = s.sessions := rfl
@[simp] theorem State.setPath_sessions (s : State) (f : Path → Path) : (s.setPath f).sessions = s.sessions := rfl
@[simp] theorem State.setTeam_sessions (s : State) (n : Nat) (f : Team → Team) : (s.setTeam n f).sessions = s.sessions := rfl
@[simp] theorem State.setMyTeam_sessions (s : State) (f : Team → Team) : (s.setMyTeam f).sessions = s.sessions := rfl
@[simp] theorem State.setPart_sessions (s : State) (n : Nat) (f : Partition → Partition) : (s.setPart n f).sessions = s.sessions := by
  unfold State.setPart; split <;> rfl
@[simp] theorem State.setGroup_sessions (s : State) (n : Nat) (f : Group → Group) : (s.setGroup n f).sessions = s.sessions := by
  unfold State.setGroup; split <;> rfl
@[simp] theorem State.msi_sessions (s : State) (a b : Nat) : (s.msi a b).sessions = s.sessions := rfl
@[simp] theorem State.withMe_msix (s : State) (f : Group → Group) : (s.withMe f).msix = s.msix := rfl
@[simp] theorem State.setPath_msix (s : State) (f : Path → Path) : (s.setPath f).msix = s.msix := rfl
@[simp] theorem State.setTeam_msix (s : State) (n : Nat) (f : Team → Team) : (s.setTeam n f).msix = s.msix := rfl
@[simp] theorem State.setMyTeam_msix (s : State) (f : Team → Team) : (s.setMyTeam f).msix = s.msix := rfl
@[simp] theorem State.setPart_msix (s : State) (n : Nat) (f : Partition → Partition) : (s.setPart n f).msix = s.msix := by
  unfold State.setPart; split <;> rfl
@[simp] theorem State.setGroup_msix (s : State) (n : Nat) (f : Group → Group) : (s.setGroup n f).msix = s.msix := by
  unfold State.setGroup; split <;> rfl
@[simp] theorem State.withMe_sent (s : State) (f : Group → Group) : (s.withMe f).sent = s.sent := rfl
@[simp] theorem State.setPath_sent (s : State) (f : Path → Path) : (s.setPath f).sent = s.sent := rfl
@[simp] theorem State.setTeam_sent (s : State) (n : Nat) (f : Team → Team) : (s.setTeam n f).sent = s.sent := rfl
@[simp] theorem State.setMyTeam_sent (s : State) (f : Team → Team) : (s.setMyTeam f).sent = s.sent := rfl
@[simp] theorem State.setPart_sent (s : State) (n : Nat) (f : Partition → Partition) : (s.setPart n f).sent = s.sent := by
  unfold State.setPart; split <;> rfl
@[simp] theorem State.setGroup_sent (s : State) (n : Nat) (f : Group → Group) : (s.setGroup n f).sent = s.sent := by
  unfold State.setGroup; split <;> rfl
@[simp] theorem State.msi_sent (s : State) (a b : Nat) : (s.msi a b).sent = s.sent := rfl
@[simp] theorem State.withMe_relay (s : State) (f : Group → Group) : (s.withMe f).relay = s.relay := rfl
@[simp] theorem State.setPath_relay (s : State) (f : Path → Path) : (s.setPath f).relay = s.relay := rfl
@[simp] theorem State.setTeam_relay (s : State) (n : Nat) (f : Team → Team) : (s.setTeam n f).relay = s.relay := rfl
@[simp] theorem State.setMyTeam_relay (s : State) (f : Team → Team) : (s.setMyTeam f).relay = s.relay := rfl
@[simp] theorem State.setPart_relay (s : State) (n : Nat) (f : Partition → Partition) : (s.setPart n f).relay = s.relay := by
  unfold State.setPart; split <;> rfl
@[simp] theorem State.setGroup_relay (s : State) (n : Nat) (f : Group → Group) : (s.setGroup n f).relay = s.relay := by
  unfold State.setGroup; split <;> rfl
@[simp] theorem State.msi_relay (s : State) (a b : Nat) : (s.msi a b).relay = s.relay := rfl
@[simp] theorem State.withMe_debugOut (s : State) (f : Group → Group) : (s.withMe f).debugOut = s.debugOut := rfl
@[simp] theorem State.setPath_debugOut (s : State) (f : Path → Path) : (s.setPath f).debugOut = s.debugOut := rfl
@[simp] theorem State.setTeam_debugOut (s : State) (n : Nat) (f : Team → Team) : (s.setTeam n f).debugOut = s.debugOut := rfl
@[simp] theorem State.setMyTeam_debugOut (s : State) (f : Team → Team) : (s.setMyTeam f).debugOut = s.debugOut := rfl
@[simp] theorem State.setPart_debugOut (s : State) (n : Nat) (f : Partition → Partition) : (s.setPart n f).debugOut = s.debugOut := by
  unfold State.setPart; split <;> rfl
@[simp] theorem State.setGroup_debugOut (s : State) (n : Nat) (f : Group → Group) : (s.setGroup n f).debugOut = s.debugOut := by
  unfold State.setGroup; split <;> rfl
@[simp] theorem State.msi_debugOut (s : State) (a b : Nat) : (s.msi a b).debugOut = s.debugOut := rfl
@[simp] theorem State.withMe_inputs (s : State) (f : Group → Group) : (s.withMe f).inputs = s.inputs := rfl
@[simp] theorem State.setPath_inputs (s : State) (f : Path → Path) : (s.setPath f).inputs = s.inputs := rfl
@[simp] theorem State.setTeam_inputs (s : State) (n : Nat) (f : Team → Team) : (s.setTeam n f).inputs = s.inputs := rfl
@[simp] theorem State.setMyTeam_inputs (s : State) (f : Team → Team) : (s.setMyTeam f).inputs = s.inputs := rfl
@[simp] theorem State.setPart_inputs (s : State) (n : Nat) (f : Partition → Partition) : (s.setPart n f).inputs = s.inputs := by
  unfold State.setPart; split <;> rfl
@[simp] theorem State.setGroup_inputs (s : State) (n : Nat) (f : Group → Group) : (s.setGroup n f).inputs = s.inputs := by
  unfold State.setGroup; split <;> rfl
@[simp] theorem State.msi_inputs (s : State) (a b : Nat) : (s.msi a b).inputs = s.inputs := rfl
@[simp] theorem State.withMe_free (s : State) (f : Group → Group) : (s.withMe f).free = s.free := rfl
@[simp] theorem State.setPath_free (s : State) (f : Path → Path) : (s.setPath f).free = s.free := rfl
@[simp] theorem State.setTeam_free (s : State) (n : Nat) (f : Team → Team) : (s.setTeam n f).free = s.free := rfl
@[simp] theorem State.setMyTeam_free (s : State) (f : Team → Team) : (s.setMyTeam f).free = s.free := rfl
@[simp] theorem State.setPart_free (s : State) (n : Nat) (f : Partition → Partition) : (s.setPart n f).free = s.free := by
  unfold State.setPart; split <;> rfl
@[simp] theorem State.setGroup_free (s : State) (n : Nat) (f : Group → Group) : (s.setGroup n f).free = s.free := by
  unfold State.setGroup; split <;> rfl
@[simp] theorem State.msi_free (s : State) (a b : Nat) : (s.msi a b).free = s.free := rfl
@[simp] theorem State.withMe_me (s : State) (f : Group → Group) : (s.withMe f).me = f s.me := rfl
@[simp] theorem State.setPath_me (s : State) (f : Path → Path) : (s.setPath f).me = s.me.setPath s.me.cur f := rfl
@[simp] theorem Group.setEntry_live (g : Group) (n : Nat) (p : Option Path) : (g.setEntry n p).live = g.live := by
  unfold Group.setEntry; split <;> rfl
@[simp] theorem Group.setPath_live (g : Group) (n : Nat) (f : Path → Path) : (g.setPath n f).live = g.live := by
  unfold Group.setPath; split <;> simp
@[simp] theorem Group.setS_live (g : Group) (n : Nat) (x : Word) : (g.setS n x).live = g.live := by
  unfold Group.setS; split <;> rfl
@[simp] theorem Group.setP_live (g : Group) (n : Nat) (x : LaneMask) : (g.setP n x).live = g.live := by
  unfold Group.setP; split <;> rfl
@[simp] theorem Group.setRow_live (g : Group) (n : Nat) (r : Option VRow) : (g.setRow n r).live = g.live := by
  unfold Group.setRow; split <;> rfl
@[simp] theorem Group.setEntry_seq (g : Group) (n : Nat) (p : Option Path) : (g.setEntry n p).seq = g.seq := by
  unfold Group.setEntry; split <;> rfl
@[simp] theorem Group.setPath_seq (g : Group) (n : Nat) (f : Path → Path) : (g.setPath n f).seq = g.seq := by
  unfold Group.setPath; split <;> simp
@[simp] theorem Group.setS_seq (g : Group) (n : Nat) (x : Word) : (g.setS n x).seq = g.seq := by
  unfold Group.setS; split <;> rfl
@[simp] theorem Group.setP_seq (g : Group) (n : Nat) (x : LaneMask) : (g.setP n x).seq = g.seq := by
  unfold Group.setP; split <;> rfl
@[simp] theorem Group.setRow_seq (g : Group) (n : Nat) (r : Option VRow) : (g.setRow n r).seq = g.seq := by
  unfold Group.setRow; split <;> rfl
@[simp] theorem Group.setEntry_part (g : Group) (n : Nat) (p : Option Path) : (g.setEntry n p).part = g.part := by
  unfold Group.setEntry; split <;> rfl
@[simp] theorem Group.setPath_part (g : Group) (n : Nat) (f : Path → Path) : (g.setPath n f).part = g.part := by
  unfold Group.setPath; split <;> simp
@[simp] theorem Group.setS_part (g : Group) (n : Nat) (x : Word) : (g.setS n x).part = g.part := by
  unfold Group.setS; split <;> rfl
@[simp] theorem Group.setP_part (g : Group) (n : Nat) (x : LaneMask) : (g.setP n x).part = g.part := by
  unfold Group.setP; split <;> rfl
@[simp] theorem Group.setRow_part (g : Group) (n : Nat) (r : Option VRow) : (g.setRow n r).part = g.part := by
  unfold Group.setRow; split <;> rfl
@[simp] theorem Group.setEntry_task (g : Group) (n : Nat) (p : Option Path) : (g.setEntry n p).task = g.task := by
  unfold Group.setEntry; split <;> rfl
@[simp] theorem Group.setPath_task (g : Group) (n : Nat) (f : Path → Path) : (g.setPath n f).task = g.task := by
  unfold Group.setPath; split <;> simp
@[simp] theorem Group.setS_task (g : Group) (n : Nat) (x : Word) : (g.setS n x).task = g.task := by
  unfold Group.setS; split <;> rfl
@[simp] theorem Group.setP_task (g : Group) (n : Nat) (x : LaneMask) : (g.setP n x).task = g.task := by
  unfold Group.setP; split <;> rfl
@[simp] theorem Group.setRow_task (g : Group) (n : Nat) (r : Option VRow) : (g.setRow n r).task = g.task := by
  unfold Group.setRow; split <;> rfl
@[simp] theorem Group.setEntry_team (g : Group) (n : Nat) (p : Option Path) : (g.setEntry n p).team = g.team := by
  unfold Group.setEntry; split <;> rfl
@[simp] theorem Group.setPath_team (g : Group) (n : Nat) (f : Path → Path) : (g.setPath n f).team = g.team := by
  unfold Group.setPath; split <;> simp
@[simp] theorem Group.setS_team (g : Group) (n : Nat) (x : Word) : (g.setS n x).team = g.team := by
  unfold Group.setS; split <;> rfl
@[simp] theorem Group.setP_team (g : Group) (n : Nat) (x : LaneMask) : (g.setP n x).team = g.team := by
  unfold Group.setP; split <;> rfl
@[simp] theorem Group.setRow_team (g : Group) (n : Nat) (r : Option VRow) : (g.setRow n r).team = g.team := by
  unfold Group.setRow; split <;> rfl
@[simp] theorem Group.setEntry_cluster (g : Group) (n : Nat) (p : Option Path) : (g.setEntry n p).cluster = g.cluster := by
  unfold Group.setEntry; split <;> rfl
@[simp] theorem Group.setPath_cluster (g : Group) (n : Nat) (f : Path → Path) : (g.setPath n f).cluster = g.cluster := by
  unfold Group.setPath; split <;> simp
@[simp] theorem Group.setS_cluster (g : Group) (n : Nat) (x : Word) : (g.setS n x).cluster = g.cluster := by
  unfold Group.setS; split <;> rfl
@[simp] theorem Group.setP_cluster (g : Group) (n : Nat) (x : LaneMask) : (g.setP n x).cluster = g.cluster := by
  unfold Group.setP; split <;> rfl
@[simp] theorem Group.setRow_cluster (g : Group) (n : Nat) (r : Option VRow) : (g.setRow n r).cluster = g.cluster := by
  unfold Group.setRow; split <;> rfl
@[simp] theorem Group.setEntry_member (g : Group) (n : Nat) (p : Option Path) : (g.setEntry n p).member = g.member := by
  unfold Group.setEntry; split <;> rfl
@[simp] theorem Group.setPath_member (g : Group) (n : Nat) (f : Path → Path) : (g.setPath n f).member = g.member := by
  unfold Group.setPath; split <;> simp
@[simp] theorem Group.setS_member (g : Group) (n : Nat) (x : Word) : (g.setS n x).member = g.member := by
  unfold Group.setS; split <;> rfl
@[simp] theorem Group.setP_member (g : Group) (n : Nat) (x : LaneMask) : (g.setP n x).member = g.member := by
  unfold Group.setP; split <;> rfl
@[simp] theorem Group.setRow_member (g : Group) (n : Nat) (r : Option VRow) : (g.setRow n r).member = g.member := by
  unfold Group.setRow; split <;> rfl
@[simp] theorem Group.setEntry_index (g : Group) (n : Nat) (p : Option Path) : (g.setEntry n p).index = g.index := by
  unfold Group.setEntry; split <;> rfl
@[simp] theorem Group.setPath_index (g : Group) (n : Nat) (f : Path → Path) : (g.setPath n f).index = g.index := by
  unfold Group.setPath; split <;> simp
@[simp] theorem Group.setS_index (g : Group) (n : Nat) (x : Word) : (g.setS n x).index = g.index := by
  unfold Group.setS; split <;> rfl
@[simp] theorem Group.setP_index (g : Group) (n : Nat) (x : LaneMask) : (g.setP n x).index = g.index := by
  unfold Group.setP; split <;> rfl
@[simp] theorem Group.setRow_index (g : Group) (n : Nat) (r : Option VRow) : (g.setRow n r).index = g.index := by
  unfold Group.setRow; split <;> rfl
@[simp] theorem Group.setEntry_tile (g : Group) (n : Nat) (p : Option Path) : (g.setEntry n p).tile = g.tile := by
  unfold Group.setEntry; split <;> rfl
@[simp] theorem Group.setPath_tile (g : Group) (n : Nat) (f : Path → Path) : (g.setPath n f).tile = g.tile := by
  unfold Group.setPath; split <;> simp
@[simp] theorem Group.setS_tile (g : Group) (n : Nat) (x : Word) : (g.setS n x).tile = g.tile := by
  unfold Group.setS; split <;> rfl
@[simp] theorem Group.setP_tile (g : Group) (n : Nat) (x : LaneMask) : (g.setP n x).tile = g.tile := by
  unfold Group.setP; split <;> rfl
@[simp] theorem Group.setRow_tile (g : Group) (n : Nat) (r : Option VRow) : (g.setRow n r).tile = g.tile := by
  unfold Group.setRow; split <;> rfl
@[simp] theorem Group.setEntry_pipe (g : Group) (n : Nat) (p : Option Path) : (g.setEntry n p).pipe = g.pipe := by
  unfold Group.setEntry; split <;> rfl
@[simp] theorem Group.setPath_pipe (g : Group) (n : Nat) (f : Path → Path) : (g.setPath n f).pipe = g.pipe := by
  unfold Group.setPath; split <;> simp
@[simp] theorem Group.setS_pipe (g : Group) (n : Nat) (x : Word) : (g.setS n x).pipe = g.pipe := by
  unfold Group.setS; split <;> rfl
@[simp] theorem Group.setP_pipe (g : Group) (n : Nat) (x : LaneMask) : (g.setP n x).pipe = g.pipe := by
  unfold Group.setP; split <;> rfl
@[simp] theorem Group.setRow_pipe (g : Group) (n : Nat) (r : Option VRow) : (g.setRow n r).pipe = g.pipe := by
  unfold Group.setRow; split <;> rfl
@[simp] theorem Group.setEntry_slot (g : Group) (n : Nat) (p : Option Path) : (g.setEntry n p).slot = g.slot := by
  unfold Group.setEntry; split <;> rfl
@[simp] theorem Group.setPath_slot (g : Group) (n : Nat) (f : Path → Path) : (g.setPath n f).slot = g.slot := by
  unfold Group.setPath; split <;> simp
@[simp] theorem Group.setS_slot (g : Group) (n : Nat) (x : Word) : (g.setS n x).slot = g.slot := by
  unfold Group.setS; split <;> rfl
@[simp] theorem Group.setP_slot (g : Group) (n : Nat) (x : LaneMask) : (g.setP n x).slot = g.slot := by
  unfold Group.setP; split <;> rfl
@[simp] theorem Group.setRow_slot (g : Group) (n : Nat) (r : Option VRow) : (g.setRow n r).slot = g.slot := by
  unfold Group.setRow; split <;> rfl
@[simp] theorem Group.setEntry_width (g : Group) (n : Nat) (p : Option Path) : (g.setEntry n p).width = g.width := by
  unfold Group.setEntry; split <;> rfl
@[simp] theorem Group.setPath_width (g : Group) (n : Nat) (f : Path → Path) : (g.setPath n f).width = g.width := by
  unfold Group.setPath; split <;> simp
@[simp] theorem Group.setS_width (g : Group) (n : Nat) (x : Word) : (g.setS n x).width = g.width := by
  unfold Group.setS; split <;> rfl
@[simp] theorem Group.setP_width (g : Group) (n : Nat) (x : LaneMask) : (g.setP n x).width = g.width := by
  unfold Group.setP; split <;> rfl
@[simp] theorem Group.setRow_width (g : Group) (n : Nat) (r : Option VRow) : (g.setRow n r).width = g.width := by
  unfold Group.setRow; split <;> rfl
@[simp] theorem Group.setEntry_floor (g : Group) (n : Nat) (p : Option Path) : (g.setEntry n p).floor = g.floor := by
  unfold Group.setEntry; split <;> rfl
@[simp] theorem Group.setPath_floor (g : Group) (n : Nat) (f : Path → Path) : (g.setPath n f).floor = g.floor := by
  unfold Group.setPath; split <;> simp
@[simp] theorem Group.setS_floor (g : Group) (n : Nat) (x : Word) : (g.setS n x).floor = g.floor := by
  unfold Group.setS; split <;> rfl
@[simp] theorem Group.setP_floor (g : Group) (n : Nat) (x : LaneMask) : (g.setP n x).floor = g.floor := by
  unfold Group.setP; split <;> rfl
@[simp] theorem Group.setRow_floor (g : Group) (n : Nat) (r : Option VRow) : (g.setRow n r).floor = g.floor := by
  unfold Group.setRow; split <;> rfl
@[simp] theorem Group.setEntry_peak (g : Group) (n : Nat) (p : Option Path) : (g.setEntry n p).peak = g.peak := by
  unfold Group.setEntry; split <;> rfl
@[simp] theorem Group.setPath_peak (g : Group) (n : Nat) (f : Path → Path) : (g.setPath n f).peak = g.peak := by
  unfold Group.setPath; split <;> simp
@[simp] theorem Group.setS_peak (g : Group) (n : Nat) (x : Word) : (g.setS n x).peak = g.peak := by
  unfold Group.setS; split <;> rfl
@[simp] theorem Group.setP_peak (g : Group) (n : Nat) (x : LaneMask) : (g.setP n x).peak = g.peak := by
  unfold Group.setP; split <;> rfl
@[simp] theorem Group.setRow_peak (g : Group) (n : Nat) (r : Option VRow) : (g.setRow n r).peak = g.peak := by
  unfold Group.setRow; split <;> rfl
@[simp] theorem Group.setEntry_maxHeld (g : Group) (n : Nat) (p : Option Path) : (g.setEntry n p).maxHeld = g.maxHeld := by
  unfold Group.setEntry; split <;> rfl
@[simp] theorem Group.setPath_maxHeld (g : Group) (n : Nat) (f : Path → Path) : (g.setPath n f).maxHeld = g.maxHeld := by
  unfold Group.setPath; split <;> simp
@[simp] theorem Group.setS_maxHeld (g : Group) (n : Nat) (x : Word) : (g.setS n x).maxHeld = g.maxHeld := by
  unfold Group.setS; split <;> rfl
@[simp] theorem Group.setP_maxHeld (g : Group) (n : Nat) (x : LaneMask) : (g.setP n x).maxHeld = g.maxHeld := by
  unfold Group.setP; split <;> rfl
@[simp] theorem Group.setRow_maxHeld (g : Group) (n : Nat) (r : Option VRow) : (g.setRow n r).maxHeld = g.maxHeld := by
  unfold Group.setRow; split <;> rfl
@[simp] theorem Group.setEntry_turn (g : Group) (n : Nat) (p : Option Path) : (g.setEntry n p).turn = g.turn := by
  unfold Group.setEntry; split <;> rfl
@[simp] theorem Group.setPath_turn (g : Group) (n : Nat) (f : Path → Path) : (g.setPath n f).turn = g.turn := by
  unfold Group.setPath; split <;> simp
@[simp] theorem Group.setS_turn (g : Group) (n : Nat) (x : Word) : (g.setS n x).turn = g.turn := by
  unfold Group.setS; split <;> rfl
@[simp] theorem Group.setP_turn (g : Group) (n : Nat) (x : LaneMask) : (g.setP n x).turn = g.turn := by
  unfold Group.setP; split <;> rfl
@[simp] theorem Group.setRow_turn (g : Group) (n : Nat) (r : Option VRow) : (g.setRow n r).turn = g.turn := by
  unfold Group.setRow; split <;> rfl
@[simp] theorem Group.setEntry_yielded (g : Group) (n : Nat) (p : Option Path) : (g.setEntry n p).yielded = g.yielded := by
  unfold Group.setEntry; split <;> rfl
@[simp] theorem Group.setPath_yielded (g : Group) (n : Nat) (f : Path → Path) : (g.setPath n f).yielded = g.yielded := by
  unfold Group.setPath; split <;> simp
@[simp] theorem Group.setS_yielded (g : Group) (n : Nat) (x : Word) : (g.setS n x).yielded = g.yielded := by
  unfold Group.setS; split <;> rfl
@[simp] theorem Group.setP_yielded (g : Group) (n : Nat) (x : LaneMask) : (g.setP n x).yielded = g.yielded := by
  unfold Group.setP; split <;> rfl
@[simp] theorem Group.setRow_yielded (g : Group) (n : Nat) (r : Option VRow) : (g.setRow n r).yielded = g.yielded := by
  unfold Group.setRow; split <;> rfl
@[simp] theorem Group.setEntry_rowWait (g : Group) (n : Nat) (p : Option Path) : (g.setEntry n p).rowWait = g.rowWait := by
  unfold Group.setEntry; split <;> rfl
@[simp] theorem Group.setPath_rowWait (g : Group) (n : Nat) (f : Path → Path) : (g.setPath n f).rowWait = g.rowWait := by
  unfold Group.setPath; split <;> simp
@[simp] theorem Group.setS_rowWait (g : Group) (n : Nat) (x : Word) : (g.setS n x).rowWait = g.rowWait := by
  unfold Group.setS; split <;> rfl
@[simp] theorem Group.setP_rowWait (g : Group) (n : Nat) (x : LaneMask) : (g.setP n x).rowWait = g.rowWait := by
  unfold Group.setP; split <;> rfl
@[simp] theorem Group.setRow_rowWait (g : Group) (n : Nat) (r : Option VRow) : (g.setRow n r).rowWait = g.rowWait := by
  unfold Group.setRow; split <;> rfl
@[simp] theorem Group.setEntry_rowWant (g : Group) (n : Nat) (p : Option Path) : (g.setEntry n p).rowWant = g.rowWant := by
  unfold Group.setEntry; split <;> rfl
@[simp] theorem Group.setPath_rowWant (g : Group) (n : Nat) (f : Path → Path) : (g.setPath n f).rowWant = g.rowWant := by
  unfold Group.setPath; split <;> simp
@[simp] theorem Group.setS_rowWant (g : Group) (n : Nat) (x : Word) : (g.setS n x).rowWant = g.rowWant := by
  unfold Group.setS; split <;> rfl
@[simp] theorem Group.setP_rowWant (g : Group) (n : Nat) (x : LaneMask) : (g.setP n x).rowWant = g.rowWant := by
  unfold Group.setP; split <;> rfl
@[simp] theorem Group.setRow_rowWant (g : Group) (n : Nat) (r : Option VRow) : (g.setRow n r).rowWant = g.rowWant := by
  unfold Group.setRow; split <;> rfl
@[simp] theorem Group.setEntry_ir (g : Group) (n : Nat) (p : Option Path) : (g.setEntry n p).ir = g.ir := by
  unfold Group.setEntry; split <;> rfl
@[simp] theorem Group.setPath_ir (g : Group) (n : Nat) (f : Path → Path) : (g.setPath n f).ir = g.ir := by
  unfold Group.setPath; split <;> simp
@[simp] theorem Group.setS_ir (g : Group) (n : Nat) (x : Word) : (g.setS n x).ir = g.ir := by
  unfold Group.setS; split <;> rfl
@[simp] theorem Group.setP_ir (g : Group) (n : Nat) (x : LaneMask) : (g.setP n x).ir = g.ir := by
  unfold Group.setP; split <;> rfl
@[simp] theorem Group.setRow_ir (g : Group) (n : Nat) (r : Option VRow) : (g.setRow n r).ir = g.ir := by
  unfold Group.setRow; split <;> rfl
@[simp] theorem Group.setEntry_gapNew (g : Group) (n : Nat) (p : Option Path) : (g.setEntry n p).gapNew = g.gapNew := by
  unfold Group.setEntry; split <;> rfl
@[simp] theorem Group.setPath_gapNew (g : Group) (n : Nat) (f : Path → Path) : (g.setPath n f).gapNew = g.gapNew := by
  unfold Group.setPath; split <;> simp
@[simp] theorem Group.setS_gapNew (g : Group) (n : Nat) (x : Word) : (g.setS n x).gapNew = g.gapNew := by
  unfold Group.setS; split <;> rfl
@[simp] theorem Group.setP_gapNew (g : Group) (n : Nat) (x : LaneMask) : (g.setP n x).gapNew = g.gapNew := by
  unfold Group.setP; split <;> rfl
@[simp] theorem Group.setRow_gapNew (g : Group) (n : Nat) (r : Option VRow) : (g.setRow n r).gapNew = g.gapNew := by
  unfold Group.setRow; split <;> rfl
@[simp] theorem Group.setEntry_clk (g : Group) (n : Nat) (p : Option Path) : (g.setEntry n p).clk = g.clk := by
  unfold Group.setEntry; split <;> rfl
@[simp] theorem Group.setPath_clk (g : Group) (n : Nat) (f : Path → Path) : (g.setPath n f).clk = g.clk := by
  unfold Group.setPath; split <;> simp
@[simp] theorem Group.setS_clk (g : Group) (n : Nat) (x : Word) : (g.setS n x).clk = g.clk := by
  unfold Group.setS; split <;> rfl
@[simp] theorem Group.setP_clk (g : Group) (n : Nat) (x : LaneMask) : (g.setP n x).clk = g.clk := by
  unfold Group.setP; split <;> rfl
@[simp] theorem Group.setRow_clk (g : Group) (n : Nat) (r : Option VRow) : (g.setRow n r).clk = g.clk := by
  unfold Group.setRow; split <;> rfl
@[simp] theorem Group.setEntry_busyFrom (g : Group) (n : Nat) (p : Option Path) : (g.setEntry n p).busyFrom = g.busyFrom := by
  unfold Group.setEntry; split <;> rfl
@[simp] theorem Group.setPath_busyFrom (g : Group) (n : Nat) (f : Path → Path) : (g.setPath n f).busyFrom = g.busyFrom := by
  unfold Group.setPath; split <;> simp
@[simp] theorem Group.setS_busyFrom (g : Group) (n : Nat) (x : Word) : (g.setS n x).busyFrom = g.busyFrom := by
  unfold Group.setS; split <;> rfl
@[simp] theorem Group.setP_busyFrom (g : Group) (n : Nat) (x : LaneMask) : (g.setP n x).busyFrom = g.busyFrom := by
  unfold Group.setP; split <;> rfl
@[simp] theorem Group.setRow_busyFrom (g : Group) (n : Nat) (r : Option VRow) : (g.setRow n r).busyFrom = g.busyFrom := by
  unfold Group.setRow; split <;> rfl
@[simp] theorem Group.setEntry_busyTo (g : Group) (n : Nat) (p : Option Path) : (g.setEntry n p).busyTo = g.busyTo := by
  unfold Group.setEntry; split <;> rfl
@[simp] theorem Group.setPath_busyTo (g : Group) (n : Nat) (f : Path → Path) : (g.setPath n f).busyTo = g.busyTo := by
  unfold Group.setPath; split <;> simp
@[simp] theorem Group.setS_busyTo (g : Group) (n : Nat) (x : Word) : (g.setS n x).busyTo = g.busyTo := by
  unfold Group.setS; split <;> rfl
@[simp] theorem Group.setP_busyTo (g : Group) (n : Nat) (x : LaneMask) : (g.setP n x).busyTo = g.busyTo := by
  unfold Group.setP; split <;> rfl
@[simp] theorem Group.setRow_busyTo (g : Group) (n : Nat) (r : Option VRow) : (g.setRow n r).busyTo = g.busyTo := by
  unfold Group.setRow; split <;> rfl
@[simp] theorem Group.setEntry_busyPath (g : Group) (n : Nat) (p : Option Path) : (g.setEntry n p).busyPath = g.busyPath := by
  unfold Group.setEntry; split <;> rfl
@[simp] theorem Group.setPath_busyPath (g : Group) (n : Nat) (f : Path → Path) : (g.setPath n f).busyPath = g.busyPath := by
  unfold Group.setPath; split <;> simp
@[simp] theorem Group.setS_busyPath (g : Group) (n : Nat) (x : Word) : (g.setS n x).busyPath = g.busyPath := by
  unfold Group.setS; split <;> rfl
@[simp] theorem Group.setP_busyPath (g : Group) (n : Nat) (x : LaneMask) : (g.setP n x).busyPath = g.busyPath := by
  unfold Group.setP; split <;> rfl
@[simp] theorem Group.setRow_busyPath (g : Group) (n : Nat) (r : Option VRow) : (g.setRow n r).busyPath = g.busyPath := by
  unfold Group.setRow; split <;> rfl
@[simp] theorem Group.setEntry_busyPc (g : Group) (n : Nat) (p : Option Path) : (g.setEntry n p).busyPc = g.busyPc := by
  unfold Group.setEntry; split <;> rfl
@[simp] theorem Group.setPath_busyPc (g : Group) (n : Nat) (f : Path → Path) : (g.setPath n f).busyPc = g.busyPc := by
  unfold Group.setPath; split <;> simp
@[simp] theorem Group.setS_busyPc (g : Group) (n : Nat) (x : Word) : (g.setS n x).busyPc = g.busyPc := by
  unfold Group.setS; split <;> rfl
@[simp] theorem Group.setP_busyPc (g : Group) (n : Nat) (x : LaneMask) : (g.setP n x).busyPc = g.busyPc := by
  unfold Group.setP; split <;> rfl
@[simp] theorem Group.setRow_busyPc (g : Group) (n : Nat) (r : Option VRow) : (g.setRow n r).busyPc = g.busyPc := by
  unfold Group.setRow; split <;> rfl
@[simp] theorem Group.setEntry_busyExm (g : Group) (n : Nat) (p : Option Path) : (g.setEntry n p).busyExm = g.busyExm := by
  unfold Group.setEntry; split <;> rfl
@[simp] theorem Group.setPath_busyExm (g : Group) (n : Nat) (f : Path → Path) : (g.setPath n f).busyExm = g.busyExm := by
  unfold Group.setPath; split <;> simp
@[simp] theorem Group.setS_busyExm (g : Group) (n : Nat) (x : Word) : (g.setS n x).busyExm = g.busyExm := by
  unfold Group.setS; split <;> rfl
@[simp] theorem Group.setP_busyExm (g : Group) (n : Nat) (x : LaneMask) : (g.setP n x).busyExm = g.busyExm := by
  unfold Group.setP; split <;> rfl
@[simp] theorem Group.setRow_busyExm (g : Group) (n : Nat) (r : Option VRow) : (g.setRow n r).busyExm = g.busyExm := by
  unfold Group.setRow; split <;> rfl
@[simp] theorem Group.setEntry_fetchUntil (g : Group) (n : Nat) (p : Option Path) : (g.setEntry n p).fetchUntil = g.fetchUntil := by
  unfold Group.setEntry; split <;> rfl
@[simp] theorem Group.setPath_fetchUntil (g : Group) (n : Nat) (f : Path → Path) : (g.setPath n f).fetchUntil = g.fetchUntil := by
  unfold Group.setPath; split <;> simp
@[simp] theorem Group.setS_fetchUntil (g : Group) (n : Nat) (x : Word) : (g.setS n x).fetchUntil = g.fetchUntil := by
  unfold Group.setS; split <;> rfl
@[simp] theorem Group.setP_fetchUntil (g : Group) (n : Nat) (x : LaneMask) : (g.setP n x).fetchUntil = g.fetchUntil := by
  unfold Group.setP; split <;> rfl
@[simp] theorem Group.setRow_fetchUntil (g : Group) (n : Nat) (r : Option VRow) : (g.setRow n r).fetchUntil = g.fetchUntil := by
  unfold Group.setRow; split <;> rfl
@[simp] theorem Group.setEntry_stallUntil (g : Group) (n : Nat) (p : Option Path) : (g.setEntry n p).stallUntil = g.stallUntil := by
  unfold Group.setEntry; split <;> rfl
@[simp] theorem Group.setPath_stallUntil (g : Group) (n : Nat) (f : Path → Path) : (g.setPath n f).stallUntil = g.stallUntil := by
  unfold Group.setPath; split <;> simp
@[simp] theorem Group.setS_stallUntil (g : Group) (n : Nat) (x : Word) : (g.setS n x).stallUntil = g.stallUntil := by
  unfold Group.setS; split <;> rfl
@[simp] theorem Group.setP_stallUntil (g : Group) (n : Nat) (x : LaneMask) : (g.setP n x).stallUntil = g.stallUntil := by
  unfold Group.setP; split <;> rfl
@[simp] theorem Group.setRow_stallUntil (g : Group) (n : Nat) (r : Option VRow) : (g.setRow n r).stallUntil = g.stallUntil := by
  unfold Group.setRow; split <;> rfl
@[simp] theorem Group.setEntry_refilled (g : Group) (n : Nat) (p : Option Path) : (g.setEntry n p).refilled = g.refilled := by
  unfold Group.setEntry; split <;> rfl
@[simp] theorem Group.setPath_refilled (g : Group) (n : Nat) (f : Path → Path) : (g.setPath n f).refilled = g.refilled := by
  unfold Group.setPath; split <;> simp
@[simp] theorem Group.setS_refilled (g : Group) (n : Nat) (x : Word) : (g.setS n x).refilled = g.refilled := by
  unfold Group.setS; split <;> rfl
@[simp] theorem Group.setP_refilled (g : Group) (n : Nat) (x : LaneMask) : (g.setP n x).refilled = g.refilled := by
  unfold Group.setP; split <;> rfl
@[simp] theorem Group.setRow_refilled (g : Group) (n : Nat) (r : Option VRow) : (g.setRow n r).refilled = g.refilled := by
  unfold Group.setRow; split <;> rfl
@[simp] theorem Group.setEntry_cur (g : Group) (n : Nat) (p : Option Path) : (g.setEntry n p).cur = g.cur := by
  unfold Group.setEntry; split <;> rfl
@[simp] theorem Group.setPath_cur (g : Group) (n : Nat) (f : Path → Path) : (g.setPath n f).cur = g.cur := by
  unfold Group.setPath; split <;> simp
@[simp] theorem Group.setS_cur (g : Group) (n : Nat) (x : Word) : (g.setS n x).cur = g.cur := by
  unfold Group.setS; split <;> rfl
@[simp] theorem Group.setP_cur (g : Group) (n : Nat) (x : LaneMask) : (g.setP n x).cur = g.cur := by
  unfold Group.setP; split <;> rfl
@[simp] theorem Group.setRow_cur (g : Group) (n : Nat) (r : Option VRow) : (g.setRow n r).cur = g.cur := by
  unfold Group.setRow; split <;> rfl
@[simp] theorem Group.setEntry_last (g : Group) (n : Nat) (p : Option Path) : (g.setEntry n p).last = g.last := by
  unfold Group.setEntry; split <;> rfl
@[simp] theorem Group.setPath_last (g : Group) (n : Nat) (f : Path → Path) : (g.setPath n f).last = g.last := by
  unfold Group.setPath; split <;> simp
@[simp] theorem Group.setS_last (g : Group) (n : Nat) (x : Word) : (g.setS n x).last = g.last := by
  unfold Group.setS; split <;> rfl
@[simp] theorem Group.setP_last (g : Group) (n : Nat) (x : LaneMask) : (g.setP n x).last = g.last := by
  unfold Group.setP; split <;> rfl
@[simp] theorem Group.setRow_last (g : Group) (n : Nat) (r : Option VRow) : (g.setRow n r).last = g.last := by
  unfold Group.setRow; split <;> rfl
@[simp] theorem Group.setS_paths (g : Group) (n : Nat) (x : Word) : (g.setS n x).paths = g.paths := by
  unfold Group.setS; split <;> rfl
@[simp] theorem Group.setP_paths (g : Group) (n : Nat) (x : LaneMask) : (g.setP n x).paths = g.paths := by
  unfold Group.setP; split <;> rfl
@[simp] theorem Group.setRow_paths (g : Group) (n : Nat) (r : Option VRow) : (g.setRow n r).paths = g.paths := by
  unfold Group.setRow; split <;> rfl
@[simp] theorem Group.setEntry_spills (g : Group) (n : Nat) (p : Option Path) : (g.setEntry n p).spills = g.spills := by
  unfold Group.setEntry; split <;> rfl
@[simp] theorem Group.setPath_spills (g : Group) (n : Nat) (f : Path → Path) : (g.setPath n f).spills = g.spills := by
  unfold Group.setPath; split <;> simp
@[simp] theorem Group.setS_spills (g : Group) (n : Nat) (x : Word) : (g.setS n x).spills = g.spills := by
  unfold Group.setS; split <;> rfl
@[simp] theorem Group.setP_spills (g : Group) (n : Nat) (x : LaneMask) : (g.setP n x).spills = g.spills := by
  unfold Group.setP; split <;> rfl
@[simp] theorem Group.setRow_spills (g : Group) (n : Nat) (r : Option VRow) : (g.setRow n r).spills = g.spills := by
  unfold Group.setRow; split <;> rfl
@[simp] theorem Group.setEntry_spillsRead (g : Group) (n : Nat) (p : Option Path) : (g.setEntry n p).spillsRead = g.spillsRead := by
  unfold Group.setEntry; split <;> rfl
@[simp] theorem Group.setPath_spillsRead (g : Group) (n : Nat) (f : Path → Path) : (g.setPath n f).spillsRead = g.spillsRead := by
  unfold Group.setPath; split <;> simp
@[simp] theorem Group.setS_spillsRead (g : Group) (n : Nat) (x : Word) : (g.setS n x).spillsRead = g.spillsRead := by
  unfold Group.setS; split <;> rfl
@[simp] theorem Group.setP_spillsRead (g : Group) (n : Nat) (x : LaneMask) : (g.setP n x).spillsRead = g.spillsRead := by
  unfold Group.setP; split <;> rfl
@[simp] theorem Group.setRow_spillsRead (g : Group) (n : Nat) (r : Option VRow) : (g.setRow n r).spillsRead = g.spillsRead := by
  unfold Group.setRow; split <;> rfl
@[simp] theorem Group.setEntry_lines (g : Group) (n : Nat) (p : Option Path) : (g.setEntry n p).lines = g.lines := by
  unfold Group.setEntry; split <;> rfl
@[simp] theorem Group.setPath_lines (g : Group) (n : Nat) (f : Path → Path) : (g.setPath n f).lines = g.lines := by
  unfold Group.setPath; split <;> simp
@[simp] theorem Group.setS_lines (g : Group) (n : Nat) (x : Word) : (g.setS n x).lines = g.lines := by
  unfold Group.setS; split <;> rfl
@[simp] theorem Group.setP_lines (g : Group) (n : Nat) (x : LaneMask) : (g.setP n x).lines = g.lines := by
  unfold Group.setP; split <;> rfl
@[simp] theorem Group.setRow_lines (g : Group) (n : Nat) (r : Option VRow) : (g.setRow n r).lines = g.lines := by
  unfold Group.setRow; split <;> rfl
@[simp] theorem Group.setEntry_s (g : Group) (n : Nat) (p : Option Path) : (g.setEntry n p).s = g.s := by
  unfold Group.setEntry; split <;> rfl
@[simp] theorem Group.setPath_s (g : Group) (n : Nat) (f : Path → Path) : (g.setPath n f).s = g.s := by
  unfold Group.setPath; split <;> simp
@[simp] theorem Group.setP_s (g : Group) (n : Nat) (x : LaneMask) : (g.setP n x).s = g.s := by
  unfold Group.setP; split <;> rfl
@[simp] theorem Group.setRow_s (g : Group) (n : Nat) (r : Option VRow) : (g.setRow n r).s = g.s := by
  unfold Group.setRow; split <;> rfl
@[simp] theorem Group.setEntry_v (g : Group) (n : Nat) (p : Option Path) : (g.setEntry n p).v = g.v := by
  unfold Group.setEntry; split <;> rfl
@[simp] theorem Group.setPath_v (g : Group) (n : Nat) (f : Path → Path) : (g.setPath n f).v = g.v := by
  unfold Group.setPath; split <;> simp
@[simp] theorem Group.setS_v (g : Group) (n : Nat) (x : Word) : (g.setS n x).v = g.v := by
  unfold Group.setS; split <;> rfl
@[simp] theorem Group.setP_v (g : Group) (n : Nat) (x : LaneMask) : (g.setP n x).v = g.v := by
  unfold Group.setP; split <;> rfl
@[simp] theorem Group.setEntry_p (g : Group) (n : Nat) (p : Option Path) : (g.setEntry n p).p = g.p := by
  unfold Group.setEntry; split <;> rfl
@[simp] theorem Group.setPath_p (g : Group) (n : Nat) (f : Path → Path) : (g.setPath n f).p = g.p := by
  unfold Group.setPath; split <;> simp
@[simp] theorem Group.setS_p (g : Group) (n : Nat) (x : Word) : (g.setS n x).p = g.p := by
  unfold Group.setS; split <;> rfl
@[simp] theorem Group.setRow_p (g : Group) (n : Nat) (r : Option VRow) : (g.setRow n r).p = g.p := by
  unfold Group.setRow; split <;> rfl
@[simp] theorem Group.setEntry_cm (g : Group) (n : Nat) (p : Option Path) : (g.setEntry n p).cm = g.cm := by
  unfold Group.setEntry; split <;> rfl
@[simp] theorem Group.setPath_cm (g : Group) (n : Nat) (f : Path → Path) : (g.setPath n f).cm = g.cm := by
  unfold Group.setPath; split <;> simp
@[simp] theorem Group.setS_cm (g : Group) (n : Nat) (x : Word) : (g.setS n x).cm = g.cm := by
  unfold Group.setS; split <;> rfl
@[simp] theorem Group.setP_cm (g : Group) (n : Nat) (x : LaneMask) : (g.setP n x).cm = g.cm := by
  unfold Group.setP; split <;> rfl
@[simp] theorem Group.setRow_cm (g : Group) (n : Nat) (r : Option VRow) : (g.setRow n r).cm = g.cm := by
  unfold Group.setRow; split <;> rfl
@[simp] theorem Group.setEntry_loops (g : Group) (n : Nat) (p : Option Path) : (g.setEntry n p).loops = g.loops := by
  unfold Group.setEntry; split <;> rfl
@[simp] theorem Group.setPath_loops (g : Group) (n : Nat) (f : Path → Path) : (g.setPath n f).loops = g.loops := by
  unfold Group.setPath; split <;> simp
@[simp] theorem Group.setS_loops (g : Group) (n : Nat) (x : Word) : (g.setS n x).loops = g.loops := by
  unfold Group.setS; split <;> rfl
@[simp] theorem Group.setP_loops (g : Group) (n : Nat) (x : LaneMask) : (g.setP n x).loops = g.loops := by
  unfold Group.setP; split <;> rfl
@[simp] theorem Group.setRow_loops (g : Group) (n : Nat) (r : Option VRow) : (g.setRow n r).loops = g.loops := by
  unfold Group.setRow; split <;> rfl
@[simp] theorem Group.setEntry_mode (g : Group) (n : Nat) (p : Option Path) : (g.setEntry n p).mode = g.mode := by
  unfold Group.setEntry; split <;> rfl
@[simp] theorem Group.setPath_mode (g : Group) (n : Nat) (f : Path → Path) : (g.setPath n f).mode = g.mode := by
  unfold Group.setPath; split <;> simp
@[simp] theorem Group.setS_mode (g : Group) (n : Nat) (x : Word) : (g.setS n x).mode = g.mode := by
  unfold Group.setS; split <;> rfl
@[simp] theorem Group.setP_mode (g : Group) (n : Nat) (x : LaneMask) : (g.setP n x).mode = g.mode := by
  unfold Group.setP; split <;> rfl
@[simp] theorem Group.setRow_mode (g : Group) (n : Nat) (r : Option VRow) : (g.setRow n r).mode = g.mode := by
  unfold Group.setRow; split <;> rfl
@[simp] theorem Group.setEntry_fpsf (g : Group) (n : Nat) (p : Option Path) : (g.setEntry n p).fpsf = g.fpsf := by
  unfold Group.setEntry; split <;> rfl
@[simp] theorem Group.setPath_fpsf (g : Group) (n : Nat) (f : Path → Path) : (g.setPath n f).fpsf = g.fpsf := by
  unfold Group.setPath; split <;> simp
@[simp] theorem Group.setS_fpsf (g : Group) (n : Nat) (x : Word) : (g.setS n x).fpsf = g.fpsf := by
  unfold Group.setS; split <;> rfl
@[simp] theorem Group.setP_fpsf (g : Group) (n : Nat) (x : LaneMask) : (g.setP n x).fpsf = g.fpsf := by
  unfold Group.setP; split <;> rfl
@[simp] theorem Group.setRow_fpsf (g : Group) (n : Nat) (r : Option VRow) : (g.setRow n r).fpsf = g.fpsf := by
  unfold Group.setRow; split <;> rfl
@[simp] theorem Group.setEntry_gstat (g : Group) (n : Nat) (p : Option Path) : (g.setEntry n p).gstat = g.gstat := by
  unfold Group.setEntry; split <;> rfl
@[simp] theorem Group.setPath_gstat (g : Group) (n : Nat) (f : Path → Path) : (g.setPath n f).gstat = g.gstat := by
  unfold Group.setPath; split <;> simp
@[simp] theorem Group.setS_gstat (g : Group) (n : Nat) (x : Word) : (g.setS n x).gstat = g.gstat := by
  unfold Group.setS; split <;> rfl
@[simp] theorem Group.setP_gstat (g : Group) (n : Nat) (x : LaneMask) : (g.setP n x).gstat = g.gstat := by
  unfold Group.setP; split <;> rfl
@[simp] theorem Group.setRow_gstat (g : Group) (n : Nat) (r : Option VRow) : (g.setRow n r).gstat = g.gstat := by
  unfold Group.setRow; split <;> rfl
@[simp] theorem Group.setEntry_cpyst (g : Group) (n : Nat) (p : Option Path) : (g.setEntry n p).cpyst = g.cpyst := by
  unfold Group.setEntry; split <;> rfl
@[simp] theorem Group.setPath_cpyst (g : Group) (n : Nat) (f : Path → Path) : (g.setPath n f).cpyst = g.cpyst := by
  unfold Group.setPath; split <;> simp
@[simp] theorem Group.setS_cpyst (g : Group) (n : Nat) (x : Word) : (g.setS n x).cpyst = g.cpyst := by
  unfold Group.setS; split <;> rfl
@[simp] theorem Group.setP_cpyst (g : Group) (n : Nat) (x : LaneMask) : (g.setP n x).cpyst = g.cpyst := by
  unfold Group.setP; split <;> rfl
@[simp] theorem Group.setRow_cpyst (g : Group) (n : Nat) (r : Option VRow) : (g.setRow n r).cpyst = g.cpyst := by
  unfold Group.setRow; split <;> rfl
@[simp] theorem Group.setEntry_cpyfseq (g : Group) (n : Nat) (p : Option Path) : (g.setEntry n p).cpyfseq = g.cpyfseq := by
  unfold Group.setEntry; split <;> rfl
@[simp] theorem Group.setPath_cpyfseq (g : Group) (n : Nat) (f : Path → Path) : (g.setPath n f).cpyfseq = g.cpyfseq := by
  unfold Group.setPath; split <;> simp
@[simp] theorem Group.setS_cpyfseq (g : Group) (n : Nat) (x : Word) : (g.setS n x).cpyfseq = g.cpyfseq := by
  unfold Group.setS; split <;> rfl
@[simp] theorem Group.setP_cpyfseq (g : Group) (n : Nat) (x : LaneMask) : (g.setP n x).cpyfseq = g.cpyfseq := by
  unfold Group.setP; split <;> rfl
@[simp] theorem Group.setRow_cpyfseq (g : Group) (n : Nat) (r : Option VRow) : (g.setRow n r).cpyfseq = g.cpyfseq := by
  unfold Group.setRow; split <;> rfl
@[simp] theorem Group.setEntry_seed (g : Group) (n : Nat) (p : Option Path) : (g.setEntry n p).seed = g.seed := by
  unfold Group.setEntry; split <;> rfl
@[simp] theorem Group.setPath_seed (g : Group) (n : Nat) (f : Path → Path) : (g.setPath n f).seed = g.seed := by
  unfold Group.setPath; split <;> simp
@[simp] theorem Group.setS_seed (g : Group) (n : Nat) (x : Word) : (g.setS n x).seed = g.seed := by
  unfold Group.setS; split <;> rfl
@[simp] theorem Group.setP_seed (g : Group) (n : Nat) (x : LaneMask) : (g.setP n x).seed = g.seed := by
  unfold Group.setP; split <;> rfl
@[simp] theorem Group.setRow_seed (g : Group) (n : Nat) (r : Option VRow) : (g.setRow n r).seed = g.seed := by
  unfold Group.setRow; split <;> rfl
@[simp] theorem Group.setEntry_laneCtr (g : Group) (n : Nat) (p : Option Path) : (g.setEntry n p).laneCtr = g.laneCtr := by
  unfold Group.setEntry; split <;> rfl
@[simp] theorem Group.setPath_laneCtr (g : Group) (n : Nat) (f : Path → Path) : (g.setPath n f).laneCtr = g.laneCtr := by
  unfold Group.setPath; split <;> simp
@[simp] theorem Group.setS_laneCtr (g : Group) (n : Nat) (x : Word) : (g.setS n x).laneCtr = g.laneCtr := by
  unfold Group.setS; split <;> rfl
@[simp] theorem Group.setP_laneCtr (g : Group) (n : Nat) (x : LaneMask) : (g.setP n x).laneCtr = g.laneCtr := by
  unfold Group.setP; split <;> rfl
@[simp] theorem Group.setRow_laneCtr (g : Group) (n : Nat) (r : Option VRow) : (g.setRow n r).laneCtr = g.laneCtr := by
  unfold Group.setRow; split <;> rfl
@[simp] theorem Group.setEntry_scalarCtr (g : Group) (n : Nat) (p : Option Path) : (g.setEntry n p).scalarCtr = g.scalarCtr := by
  unfold Group.setEntry; split <;> rfl
@[simp] theorem Group.setPath_scalarCtr (g : Group) (n : Nat) (f : Path → Path) : (g.setPath n f).scalarCtr = g.scalarCtr := by
  unfold Group.setPath; split <;> simp
@[simp] theorem Group.setS_scalarCtr (g : Group) (n : Nat) (x : Word) : (g.setS n x).scalarCtr = g.scalarCtr := by
  unfold Group.setS; split <;> rfl
@[simp] theorem Group.setP_scalarCtr (g : Group) (n : Nat) (x : LaneMask) : (g.setP n x).scalarCtr = g.scalarCtr := by
  unfold Group.setP; split <;> rfl
@[simp] theorem Group.setRow_scalarCtr (g : Group) (n : Nat) (r : Option VRow) : (g.setRow n r).scalarCtr = g.scalarCtr := by
  unfold Group.setRow; split <;> rfl
@[simp] theorem Group.setEntry_x (g : Group) (n : Nat) (p : Option Path) : (g.setEntry n p).x = g.x := by
  unfold Group.setEntry; split <;> rfl
@[simp] theorem Group.setPath_x (g : Group) (n : Nat) (f : Path → Path) : (g.setPath n f).x = g.x := by
  unfold Group.setPath; split <;> simp
@[simp] theorem Group.setS_x (g : Group) (n : Nat) (x : Word) : (g.setS n x).x = g.x := by
  unfold Group.setS; split <;> rfl
@[simp] theorem Group.setP_x (g : Group) (n : Nat) (x : LaneMask) : (g.setP n x).x = g.x := by
  unfold Group.setP; split <;> rfl
@[simp] theorem Group.setRow_x (g : Group) (n : Nat) (r : Option VRow) : (g.setRow n r).x = g.x := by
  unfold Group.setRow; split <;> rfl
@[simp] theorem Group.setEntry_handler (g : Group) (n : Nat) (p : Option Path) : (g.setEntry n p).handler = g.handler := by
  unfold Group.setEntry; split <;> rfl
@[simp] theorem Group.setPath_handler (g : Group) (n : Nat) (f : Path → Path) : (g.setPath n f).handler = g.handler := by
  unfold Group.setPath; split <;> simp
@[simp] theorem Group.setS_handler (g : Group) (n : Nat) (x : Word) : (g.setS n x).handler = g.handler := by
  unfold Group.setS; split <;> rfl
@[simp] theorem Group.setP_handler (g : Group) (n : Nat) (x : LaneMask) : (g.setP n x).handler = g.handler := by
  unfold Group.setP; split <;> rfl
@[simp] theorem Group.setRow_handler (g : Group) (n : Nat) (r : Option VRow) : (g.setRow n r).handler = g.handler := by
  unfold Group.setRow; split <;> rfl
@[simp] theorem Group.setEntry_region (g : Group) (n : Nat) (p : Option Path) : (g.setEntry n p).region = g.region := by
  unfold Group.setEntry; split <;> rfl
@[simp] theorem Group.setPath_region (g : Group) (n : Nat) (f : Path → Path) : (g.setPath n f).region = g.region := by
  unfold Group.setPath; split <;> simp
@[simp] theorem Group.setS_region (g : Group) (n : Nat) (x : Word) : (g.setS n x).region = g.region := by
  unfold Group.setS; split <;> rfl
@[simp] theorem Group.setP_region (g : Group) (n : Nat) (x : LaneMask) : (g.setP n x).region = g.region := by
  unfold Group.setP; split <;> rfl
@[simp] theorem Group.setRow_region (g : Group) (n : Nat) (r : Option VRow) : (g.setRow n r).region = g.region := by
  unfold Group.setRow; split <;> rfl
@[simp] theorem Group.setEntry_pending (g : Group) (n : Nat) (p : Option Path) : (g.setEntry n p).pending = g.pending := by
  unfold Group.setEntry; split <;> rfl
@[simp] theorem Group.setPath_pending (g : Group) (n : Nat) (f : Path → Path) : (g.setPath n f).pending = g.pending := by
  unfold Group.setPath; split <;> simp
@[simp] theorem Group.setS_pending (g : Group) (n : Nat) (x : Word) : (g.setS n x).pending = g.pending := by
  unfold Group.setS; split <;> rfl
@[simp] theorem Group.setP_pending (g : Group) (n : Nat) (x : LaneMask) : (g.setP n x).pending = g.pending := by
  unfold Group.setP; split <;> rfl
@[simp] theorem Group.setRow_pending (g : Group) (n : Nat) (r : Option VRow) : (g.setRow n r).pending = g.pending := by
  unfold Group.setRow; split <;> rfl
@[simp] theorem Group.setEntry_openCopies (g : Group) (n : Nat) (p : Option Path) : (g.setEntry n p).openCopies = g.openCopies := by
  unfold Group.setEntry; split <;> rfl
@[simp] theorem Group.setPath_openCopies (g : Group) (n : Nat) (f : Path → Path) : (g.setPath n f).openCopies = g.openCopies := by
  unfold Group.setPath; split <;> simp
@[simp] theorem Group.setS_openCopies (g : Group) (n : Nat) (x : Word) : (g.setS n x).openCopies = g.openCopies := by
  unfold Group.setS; split <;> rfl
@[simp] theorem Group.setP_openCopies (g : Group) (n : Nat) (x : LaneMask) : (g.setP n x).openCopies = g.openCopies := by
  unfold Group.setP; split <;> rfl
@[simp] theorem Group.setRow_openCopies (g : Group) (n : Nat) (r : Option VRow) : (g.setRow n r).openCopies = g.openCopies := by
  unfold Group.setRow; split <;> rfl
@[simp] theorem Group.setEntry_batches (g : Group) (n : Nat) (p : Option Path) : (g.setEntry n p).batches = g.batches := by
  unfold Group.setEntry; split <;> rfl
@[simp] theorem Group.setPath_batches (g : Group) (n : Nat) (f : Path → Path) : (g.setPath n f).batches = g.batches := by
  unfold Group.setPath; split <;> simp
@[simp] theorem Group.setS_batches (g : Group) (n : Nat) (x : Word) : (g.setS n x).batches = g.batches := by
  unfold Group.setS; split <;> rfl
@[simp] theorem Group.setP_batches (g : Group) (n : Nat) (x : LaneMask) : (g.setP n x).batches = g.batches := by
  unfold Group.setP; split <;> rfl
@[simp] theorem Group.setRow_batches (g : Group) (n : Nat) (r : Option VRow) : (g.setRow n r).batches = g.batches := by
  unfold Group.setRow; split <;> rfl
@[simp] theorem Group.setEntry_batchSeq (g : Group) (n : Nat) (p : Option Path) : (g.setEntry n p).batchSeq = g.batchSeq := by
  unfold Group.setEntry; split <;> rfl
@[simp] theorem Group.setPath_batchSeq (g : Group) (n : Nat) (f : Path → Path) : (g.setPath n f).batchSeq = g.batchSeq := by
  unfold Group.setPath; split <;> simp
@[simp] theorem Group.setS_batchSeq (g : Group) (n : Nat) (x : Word) : (g.setS n x).batchSeq = g.batchSeq := by
  unfold Group.setS; split <;> rfl
@[simp] theorem Group.setP_batchSeq (g : Group) (n : Nat) (x : LaneMask) : (g.setP n x).batchSeq = g.batchSeq := by
  unfold Group.setP; split <;> rfl
@[simp] theorem Group.setRow_batchSeq (g : Group) (n : Nat) (r : Option VRow) : (g.setRow n r).batchSeq = g.batchSeq := by
  unfold Group.setRow; split <;> rfl
@[simp] theorem Group.setEntry_failedBatches (g : Group) (n : Nat) (p : Option Path) : (g.setEntry n p).failedBatches = g.failedBatches := by
  unfold Group.setEntry; split <;> rfl
@[simp] theorem Group.setPath_failedBatches (g : Group) (n : Nat) (f : Path → Path) : (g.setPath n f).failedBatches = g.failedBatches := by
  unfold Group.setPath; split <;> simp
@[simp] theorem Group.setS_failedBatches (g : Group) (n : Nat) (x : Word) : (g.setS n x).failedBatches = g.failedBatches := by
  unfold Group.setS; split <;> rfl
@[simp] theorem Group.setP_failedBatches (g : Group) (n : Nat) (x : LaneMask) : (g.setP n x).failedBatches = g.failedBatches := by
  unfold Group.setP; split <;> rfl
@[simp] theorem Group.setRow_failedBatches (g : Group) (n : Nat) (r : Option VRow) : (g.setRow n r).failedBatches = g.failedBatches := by
  unfold Group.setRow; split <;> rfl
@[simp] theorem Group.setEntry_copyBad (g : Group) (n : Nat) (p : Option Path) : (g.setEntry n p).copyBad = g.copyBad := by
  unfold Group.setEntry; split <;> rfl
@[simp] theorem Group.setPath_copyBad (g : Group) (n : Nat) (f : Path → Path) : (g.setPath n f).copyBad = g.copyBad := by
  unfold Group.setPath; split <;> simp
@[simp] theorem Group.setS_copyBad (g : Group) (n : Nat) (x : Word) : (g.setS n x).copyBad = g.copyBad := by
  unfold Group.setS; split <;> rfl
@[simp] theorem Group.setP_copyBad (g : Group) (n : Nat) (x : LaneMask) : (g.setP n x).copyBad = g.copyBad := by
  unfold Group.setP; split <;> rfl
@[simp] theorem Group.setRow_copyBad (g : Group) (n : Nat) (r : Option VRow) : (g.setRow n r).copyBad = g.copyBad := by
  unfold Group.setRow; split <;> rfl
@[simp] theorem Group.setEntry_fillDone (g : Group) (n : Nat) (p : Option Path) : (g.setEntry n p).fillDone = g.fillDone := by
  unfold Group.setEntry; split <;> rfl
@[simp] theorem Group.setPath_fillDone (g : Group) (n : Nat) (f : Path → Path) : (g.setPath n f).fillDone = g.fillDone := by
  unfold Group.setPath; split <;> simp
@[simp] theorem Group.setS_fillDone (g : Group) (n : Nat) (x : Word) : (g.setS n x).fillDone = g.fillDone := by
  unfold Group.setS; split <;> rfl
@[simp] theorem Group.setP_fillDone (g : Group) (n : Nat) (x : LaneMask) : (g.setP n x).fillDone = g.fillDone := by
  unfold Group.setP; split <;> rfl
@[simp] theorem Group.setRow_fillDone (g : Group) (n : Nat) (r : Option VRow) : (g.setRow n r).fillDone = g.fillDone := by
  unfold Group.setRow; split <;> rfl
@[simp] theorem Group.setEntry_ttLast (g : Group) (n : Nat) (p : Option Path) : (g.setEntry n p).ttLast = g.ttLast := by
  unfold Group.setEntry; split <;> rfl
@[simp] theorem Group.setPath_ttLast (g : Group) (n : Nat) (f : Path → Path) : (g.setPath n f).ttLast = g.ttLast := by
  unfold Group.setPath; split <;> simp
@[simp] theorem Group.setS_ttLast (g : Group) (n : Nat) (x : Word) : (g.setS n x).ttLast = g.ttLast := by
  unfold Group.setS; split <;> rfl
@[simp] theorem Group.setP_ttLast (g : Group) (n : Nat) (x : LaneMask) : (g.setP n x).ttLast = g.ttLast := by
  unfold Group.setP; split <;> rfl
@[simp] theorem Group.setRow_ttLast (g : Group) (n : Nat) (r : Option VRow) : (g.setRow n r).ttLast = g.ttLast := by
  unfold Group.setRow; split <;> rfl
@[simp] theorem Group.setEntry_teamArrived (g : Group) (n : Nat) (p : Option Path) : (g.setEntry n p).teamArrived = g.teamArrived := by
  unfold Group.setEntry; split <;> rfl
@[simp] theorem Group.setPath_teamArrived (g : Group) (n : Nat) (f : Path → Path) : (g.setPath n f).teamArrived = g.teamArrived := by
  unfold Group.setPath; split <;> simp
@[simp] theorem Group.setS_teamArrived (g : Group) (n : Nat) (x : Word) : (g.setS n x).teamArrived = g.teamArrived := by
  unfold Group.setS; split <;> rfl
@[simp] theorem Group.setP_teamArrived (g : Group) (n : Nat) (x : LaneMask) : (g.setP n x).teamArrived = g.teamArrived := by
  unfold Group.setP; split <;> rfl
@[simp] theorem Group.setRow_teamArrived (g : Group) (n : Nat) (r : Option VRow) : (g.setRow n r).teamArrived = g.teamArrived := by
  unfold Group.setRow; split <;> rfl
@[simp] theorem Group.setEntry_clusterArrived (g : Group) (n : Nat) (p : Option Path) : (g.setEntry n p).clusterArrived = g.clusterArrived := by
  unfold Group.setEntry; split <;> rfl
@[simp] theorem Group.setPath_clusterArrived (g : Group) (n : Nat) (f : Path → Path) : (g.setPath n f).clusterArrived = g.clusterArrived := by
  unfold Group.setPath; split <;> simp
@[simp] theorem Group.setS_clusterArrived (g : Group) (n : Nat) (x : Word) : (g.setS n x).clusterArrived = g.clusterArrived := by
  unfold Group.setS; split <;> rfl
@[simp] theorem Group.setP_clusterArrived (g : Group) (n : Nat) (x : LaneMask) : (g.setP n x).clusterArrived = g.clusterArrived := by
  unfold Group.setP; split <;> rfl
@[simp] theorem Group.setRow_clusterArrived (g : Group) (n : Nat) (r : Option VRow) : (g.setRow n r).clusterArrived = g.clusterArrived := by
  unfold Group.setRow; split <;> rfl
@[simp] theorem Group.setEntry_collector (g : Group) (n : Nat) (p : Option Path) : (g.setEntry n p).collector = g.collector := by
  unfold Group.setEntry; split <;> rfl
@[simp] theorem Group.setPath_collector (g : Group) (n : Nat) (f : Path → Path) : (g.setPath n f).collector = g.collector := by
  unfold Group.setPath; split <;> simp
@[simp] theorem Group.setS_collector (g : Group) (n : Nat) (x : Word) : (g.setS n x).collector = g.collector := by
  unfold Group.setS; split <;> rfl
@[simp] theorem Group.setP_collector (g : Group) (n : Nat) (x : LaneMask) : (g.setP n x).collector = g.collector := by
  unfold Group.setP; split <;> rfl
@[simp] theorem Group.setRow_collector (g : Group) (n : Nat) (r : Option VRow) : (g.setRow n r).collector = g.collector := by
  unfold Group.setRow; split <;> rfl
@[simp] theorem Group.setEntry_restarting (g : Group) (n : Nat) (p : Option Path) : (g.setEntry n p).restarting = g.restarting := by
  unfold Group.setEntry; split <;> rfl
@[simp] theorem Group.setPath_restarting (g : Group) (n : Nat) (f : Path → Path) : (g.setPath n f).restarting = g.restarting := by
  unfold Group.setPath; split <;> simp
@[simp] theorem Group.setS_restarting (g : Group) (n : Nat) (x : Word) : (g.setS n x).restarting = g.restarting := by
  unfold Group.setS; split <;> rfl
@[simp] theorem Group.setP_restarting (g : Group) (n : Nat) (x : LaneMask) : (g.setP n x).restarting = g.restarting := by
  unfold Group.setP; split <;> rfl
@[simp] theorem Group.setRow_restarting (g : Group) (n : Nat) (r : Option VRow) : (g.setRow n r).restarting = g.restarting := by
  unfold Group.setRow; split <;> rfl

end Sys2Proof.Machine
end

