-- ==== Sys2Proof/Laws/Paths.lean ====
section
/-! SUPPORT. The operations on path entries leave everything else of a group alone (R83 to R87, R242 to R245). -/

namespace Sys2Proof.Machine

/-- A group without its path entries and what moves with them: entries, their order, the spill area's lines, loop counters, the numbers of paths in
the handler's and the region's records, and the cycle counts. -/
def Group.still (g : Group) : Group :=
  { g with paths := Vector.replicate 72 none, cur := 0, spills := 0, loops := Vector.replicate 3 {}, handler := none, region := none,
           clk := 0, fetchUntil := 0, pending := [], refilled := 0, spillsRead := [], lines := 0 }

theorem Group.still_setEntry (g : Group) (n : Nat) (p : Option Path) : (g.setEntry n p).still = g.still := by
  unfold Group.setEntry; split <;> rfl
theorem Group.still_setPath (g : Group) (n : Nat) (f : Path → Path) : (g.setPath n f).still = g.still := by
  unfold Group.setPath; split
  · exact Group.still_setEntry ..
  · rfl
theorem Group.still_dropEXM (g : Group) (n : Nat) : (g.dropEXM n).still = g.still := rfl
theorem Group.still_enter (g : Group) (n : Nat) (p : Path) : (g.enter n p).still = g.still := by
  unfold Group.enter; split
  · exact Group.still_setEntry ..
  · exact (Group.still_setEntry ..).trans rfl
theorem Group.still_addPath (g : Group) (n : Nat) (p : Path) : (g.addPath n p).still = g.still := (Group.still_enter ..).trans rfl
theorem Group.still_clearLoop (g : Group) (k : ScopeKind) : (g.clearLoop k).still = g.still := by
  unfold Group.clearLoop; split <;> rfl
theorem Group.still_movePath (g : Group) (i j : Nat) : (g.movePath i j).still = g.still := by
  unfold Group.movePath; split
  · rfl
  · exact Eq.trans rfl ((Group.still_enter (g.setEntry i none) j _).trans (Group.still_setEntry ..))
theorem Group.still_exchange (g : Group) (k m : Nat) : (g.exchange k m).still = g.still :=
  Eq.trans rfl ((Group.still_enter (((g.setEntry k none).setEntry m none).enter k (g.path m)) m _).trans
    ((Group.still_enter ((g.setEntry k none).setEntry m none) k _).trans ((Group.still_setEntry (g.setEntry k none) m none).trans (Group.still_setEntry ..))))
theorem Group.still_foldl {α : Type} (f : Group → α → Group) (h : ∀ g a, (f g a).still = g.still) (l : List α) (g : Group) :
    (l.foldl f g).still = g.still := by
  induction l generalizing g with
  | nil => rfl
  | cons a l ih => exact (ih (f g a)).trans (h g a)
theorem Group.still_refill (n : Nat) (g : Group) : (Group.refill n g).still = g.still := by
  induction n generalizing g with
  | zero => rfl
  | succ n ih =>
    unfold Group.refill
    simp only
    split
    · exact (ih _).trans (Eq.trans rfl (Group.still_movePath g _ _))
    · split
      · rfl
      · split
        · rfl
        · split
          · rfl
          · exact Eq.trans rfl (Group.still_exchange g _ _)
theorem Group.still_merge (n i : Nat) (g : Group) : (Group.merge n i g).still = g.still := by
  induction n generalizing g i with
  | zero => rfl
  | succ n ih =>
    unfold Group.merge
    split
    · rfl
    · split
      · rfl
      · simp only
        split
        · split
          · exact (Group.still_setEntry ..).trans (Group.still_clearLoop ..)
          · exact (ih ..).trans ((Group.still_setEntry ..).trans (Group.still_clearLoop ..))
        · have fold : ∀ g : Group, ((g.children i).foldl (fun g n => g.setEntry n none) g).still = g.still :=
            fun g => Group.still_foldl _ (fun _ _ => Group.still_setEntry ..) _ _
          have fold' : ∀ (l : List Nat) (g : Group), (l.foldl (fun g n => g.setEntry n none) g).still = g.still :=
            fun l g => Group.still_foldl _ (fun _ _ => Group.still_setEntry ..) _ _
          split
          · rfl
          · split
            · split
              · refine (Group.still_addPath ..).trans ((Group.still_setEntry ..).trans ?_)
                exact Eq.trans rfl (fold' (g.children i) g)
              · split
                · split
                  · exact (Group.still_setPath ..).trans ((Group.still_setEntry ..).trans ((Group.still_dropEXM ..).trans ((Group.still_clearLoop ..).trans (fold' _ g))))
                  · exact (ih ..).trans ((Group.still_setPath ..).trans ((Group.still_setEntry ..).trans ((Group.still_dropEXM ..).trans ((Group.still_clearLoop ..).trans (fold' _ g)))))
                · exact (Group.still_setEntry ..).trans ((Group.still_dropEXM ..).trans ((Group.still_clearLoop ..).trans (fold' _ g)))
            · split
              · split
                · exact (Group.still_setPath ..).trans ((Group.still_setEntry ..).trans ((Group.still_dropEXM ..).trans (fold' _ g)))
                · exact (ih ..).trans ((Group.still_setPath ..).trans ((Group.still_setEntry ..).trans ((Group.still_dropEXM ..).trans (fold' _ g))))
              · exact (Group.still_setEntry ..).trans ((Group.still_dropEXM ..).trans (fold' _ g))
theorem Group.still_goto (g : Group) (n : Nat) (a : DWord) : (g.goto n a).still = g.still := by
  unfold Group.goto
  simp only
  split
  · rfl
  · split
    · split
      · exact Group.still_setEntry ..
      · exact (Group.still_refill ..).trans ((Group.still_merge ..).trans (Group.still_setEntry ..))
    · exact Group.still_setEntry ..
theorem Group.still_removeLanes (g : Group) (n : Nat) (m : LaneMask) : (g.removeLanes n m).still = g.still := by
  unfold Group.removeLanes
  simp only
  split
  · rfl
  · split
    · split
      · exact (Group.still_refill ..).trans (Group.still_setEntry ..)
      · exact (Group.still_refill ..).trans ((Group.still_merge ..).trans (Group.still_setEntry ..))
    · exact Group.still_setEntry ..

/-! ### A group without spilled entries -/

theorem Group.oldestSpilled_none (g : Group) (f : Path → Bool) (h : ∀ n, 8 ≤ n → g.path? n = none) : g.oldestSpilled f = none := by
  unfold Group.oldestSpilled
  have : (((List.range 64).map (· + 8)).filter fun n => ((g.path? n).map f).getD false) = [] := by
    apply List.filter_eq_nil_iff.mpr
    intro n hn
    obtain ⟨k, -, rfl⟩ := List.mem_map.mp hn
    simp [h (k + 8) (by omega)]
  rw [this]; rfl
/-- Without spilled entries a refill changes nothing. -/
theorem Group.refill_none (n : Nat) (g : Group) (h : ∀ n, 8 ≤ n → g.path? n = none) : Group.refill n g = g := by
  cases n with
  | zero => rfl
  | succ n =>
    unfold Group.refill
    simp only [Group.oldestSpilled_none g _ h, Option.orElse_none]
    split
    · simp_all
    · split <;> rfl
theorem Group.path?_setEntry (g : Group) (n m : Nat) (p : Option Path) (hn : n < 72) :
    (g.setEntry n p).path? m = if m = n then p else g.path? m := by
  unfold Group.setEntry Group.path?
  rw [dif_pos hn]
  by_cases h : m = n
  · subst h; simp [hn]
  · rw [if_neg h]
    simp [Ne.symm h]
theorem Group.path?_lt {g : Group} {n : Nat} {p : Path} (h : g.path? n = some p) : n < 72 := by
  refine Nat.lt_of_not_le fun hn => ?_
  unfold Group.path? at h
  rw [Vector.getElem?_eq_none hn] at h
  simp at h

end Sys2Proof.Machine
end

