-- ==== Sys2Proof/Laws/Retire.lean ====
section
/-! SUPPORT. Completing an instruction: what it leaves alone and where the path goes on. -/

namespace Sys2Proof.Machine

/-! ### Everything but the issuing group -/

@[simp] theorem State.withMe_others (s : State) (f : Group → Group) : (s.withMe f).others = s.others := rfl
@[simp] theorem State.setPath_others (s : State) (f : Path → Path) : (s.setPath f).others = s.others := rfl
theorem State.setTeam_others (s : State) (n : Nat) (f : Team → Team) (h : ∀ t, (f t).apart = t.apart) : (s.setTeam n f).others = s.others := by
  have : (s.teams.map fun t => if t.id = n then f t else t).map Team.apart = s.teams.map Team.apart := by
    rw [List.map_map]
    apply List.map_congr_left
    intro t _
    by_cases ht : t.id = n <;> simp [ht, h]
  unfold State.others State.setTeam
  simp only [this]
@[simp] theorem State.charge_others (s : State) (d : Done) : (s.charge d).others = s.others := rfl
@[simp] theorem State.count_others (s : State) (d : Done) : (s.count d).others = s.others := by
  unfold State.count
  apply State.setTeam_others
  intro t; rfl
@[simp] theorem State.retire_others (s : State) (d : Done) : (s.retire d).others = s.others := by
  unfold State.retire
  simp only [State.withMe_others]
  split <;> simp

/-! ### What agrees in everything but the issuing group reads the same memory -/

theorem State.team?_apart {s t : State} (h : t.teams.map Team.apart = s.teams.map Team.apart) (id : Nat) :
    (t.team? id).map Team.apart = (s.team? id).map Team.apart := by
  have key : ∀ l : List Team, (l.find? (·.id == id)).map Team.apart = (l.map Team.apart).find? (·.id == id) := by
    intro l
    induction l with
    | nil => rfl
    | cons a l ih =>
      rw [List.map_cons, List.find?_cons, List.find?_cons]
      show Option.map _ (match a.id == id with | true => some a | false => _) = match a.id == id with | true => some a.apart | false => _
      cases a.id == id with
      | true => rfl
      | false => exact ih
  unfold State.team?
  rw [key, key, h]
theorem State.team_scratch {s t : State} (h : t.teams.map Team.apart = s.teams.map Team.apart) (id : Nat) : (t.team id).scratch = (s.team id).scratch := by
  have := State.team?_apart h id
  unfold State.team
  cases ht : t.team? id <;> cases hs : s.team? id <;> simp_all
  exact (congrArg Team.scratch this : (Team.apart _).scratch = (Team.apart _).scratch)
theorem State.holder_scratch {s t : State} (h : t.teams.map Team.apart = s.teams.map Team.apart) (hv : t.saved = s.saved) (id : Nat) :
    (t.holder? id).map Team.scratch = (s.holder? id).map Team.scratch := by
  have := State.team?_apart h id
  unfold State.holder?
  rw [hv]
  cases ht : t.team? id <;> cases hs : s.team? id <;> simp_all [Option.orElse]
  exact (congrArg Team.scratch this : (Team.apart _).scratch = (Team.apart _).scratch)
/-- A byte of a scratchpad, through the memory of the team that holds it. -/
theorem State.readByte_scr (s : State) (ag : Agent) (m a : Nat) :
    s.readByte ag (.scr m a) = (((s.holder? m).map Team.scratch).map (Memory.get · a)).getD (Config.goneByte s.free a) := by
  show (match s.holder? m with
    | some x => Memory.get x.scratch a
    | none => Config.goneByte s.free a) = _
  cases s.holder? m <;> rfl
/-- States that agree in everything but the issuing group read the same memory. -/
theorem State.sameMemory_of_others {s t : State} (h : t.others = s.others) : s.sameMemory t := by
  have hd : t.dev = s.dev := (congrArg State.dev h : t.others.dev = s.others.dev)
  have hh : t.host = s.host := (congrArg State.host h : t.others.host = s.others.host)
  have hb : t.bank = s.bank := (congrArg State.bank h : t.others.bank = s.others.bank)
  have hp : t.parts = s.parts := (congrArg State.parts h : t.others.parts = s.others.parts)
  have hm : t.teams.map Team.apart = s.teams.map Team.apart := (congrArg State.teams h : t.others.teams = s.others.teams)
  intro ag p
  cases p with
  | dev a => simp only [State.readByte, State.version?, State.part, hd, hp]
  | host a => simp only [State.readByte, hh]
  | bank a => simp only [State.readByte, hb]
  | scr m a =>
    rw [State.readByte_scr, State.readByte_scr, State.holder_scratch hm (congrArg State.saved h : t.others.saved = s.others.saved) m,
      (show t.free = s.free from (congrArg State.free h : t.others.free = s.others.free))]

/-! ### The issuing group -/

theorem Group.special_still (g : Group) : g.still.special = g.special := rfl
theorem Group.special_of_still {g h : Group} (e : h.still = g.still) : h.special = g.special := by
  rw [← Group.special_still h, e, Group.special_still]
/-- The group after an instruction has completed, up to its paths and cycle counts. -/
theorem State.retire_still (s : State) (d : Done) : (s.retire d).me.still = ((s.count d).charge d).me.still := by
  unfold State.retire
  simp only [State.withMe_me]
  rw [Group.still_refill, Group.still_goto]
  split
  · exact Group.still_setPath ..
  · rfl
theorem State.charge_special (s : State) (d : Done) : (s.charge d).me.special = s.me.special := rfl
theorem State.count_special (s : State) (d : Done) : (s.count d).me.special = s.me.special :=
  Group.special_of_still (Group.still_setPath ..)
@[simp] theorem State.retire_special (s : State) (d : Done) : (s.retire d).me.special = s.me.special := by
  rw [Group.special_of_still (State.retire_still s d), State.charge_special, State.count_special]
/-- Registers after completion: none has changed. -/
theorem State.retire_field {α : Type} (F : Group → α) (h : ∀ g : Group, F g.still = F g) (hc : ∀ s d, F (State.charge s d).me = F s.me)
    (hp : ∀ (g : Group) n f, F (g.setPath n f) = F g) (s : State) (d : Done) : F (s.retire d).me = F s.me := by
  rw [← h, State.retire_still, h, hc]
  exact hp ..
@[simp] theorem State.retire_s (s : State) (d : Done) : (s.retire d).me.s = s.me.s :=
  State.retire_field Group.s (fun _ => rfl) (fun _ _ => rfl) (by simp) s d
@[simp] theorem State.retire_v (s : State) (d : Done) : (s.retire d).me.v = s.me.v :=
  State.retire_field Group.v (fun _ => rfl) (fun _ _ => rfl) (by simp) s d
@[simp] theorem State.retire_p (s : State) (d : Done) : (s.retire d).me.p = s.me.p :=
  State.retire_field Group.p (fun _ => rfl) (fun _ _ => rfl) (by simp) s d
@[simp] theorem State.retire_cm (s : State) (d : Done) : (s.retire d).me.cm = s.me.cm :=
  State.retire_field Group.cm (fun _ => rfl) (fun _ _ => rfl) (by simp) s d
@[simp] theorem State.retire_fpsf (s : State) (d : Done) : (s.retire d).me.fpsf = s.me.fpsf :=
  State.retire_field Group.fpsf (fun _ => rfl) (fun _ _ => rfl) (by simp) s d
@[simp] theorem State.retire_gstat (s : State) (d : Done) : (s.retire d).me.gstat = s.me.gstat :=
  State.retire_field Group.gstat (fun _ => rfl) (fun _ _ => rfl) (by simp) s d
@[simp] theorem State.retire_laneCtr (s : State) (d : Done) : (s.retire d).me.laneCtr = s.me.laneCtr :=
  State.retire_field Group.laneCtr (fun _ => rfl) (fun _ _ => rfl) (by simp) s d
@[simp] theorem State.retire_scalarCtr (s : State) (d : Done) : (s.retire d).me.scalarCtr = s.me.scalarCtr :=
  State.retire_field Group.scalarCtr (fun _ => rfl) (fun _ _ => rfl) (by simp) s d
@[simp] theorem State.retire_mode (s : State) (d : Done) : (s.retire d).me.mode = s.me.mode :=
  State.retire_field Group.mode (fun _ => rfl) (fun _ _ => rfl) (by simp) s d

/-! ### Where the path goes on (R79, R85, R244) -/

theorem Group.path?_noteIssue (g : Group) (n : Nat) :
    g.noteIssue.path? n = (g.path? n).map fun q => { q with yields := q.yields.filter (· != g.cur) } := by
  unfold Group.noteIssue Group.path?
  simp only [Vector.getElem?_map]
  cases g.paths[n]? <;> rfl
theorem Group.path?_setPath (g : Group) (n m : Nat) (f : Path → Path) :
    (g.setPath n f).path? m = if m = n then (g.path? n).map f else g.path? m := by
  unfold Group.setPath
  cases h : g.path? n with
  | none =>
    by_cases hm : m = n
    · subst hm; simp [h]
    · simp [hm]
  | some p => simp only [Group.path?_setEntry g n m _ (Group.path?_lt h), Option.map_some]
/-- Straight on, where no path is spilled and the address is not the join PC. -/
theorem Group.goto_straight {g : Group} {n : Nat} {a : DWord} {p : Path} (hs : ∀ n, 8 ≤ n → g.path? n = none) (hp : g.path? n = some p)
    (hj : p.join ≠ some (pc56 a)) : (g.goto n a).refill 72 = g.setEntry n (some { p with pc := pc56 a }) := by
  have hn := Group.path?_lt hp
  have h8 : n < 8 := Nat.lt_of_not_le fun h => by rw [hs n h] at hp; cases hp
  unfold Group.goto
  simp only [hp]
  rw [if_neg (by simp [hj])]
  exact Group.refill_none 72 _ fun m hm => by rw [Group.path?_setEntry _ _ _ _ hn, if_neg (by omega)]; exact hs m hm
/-- The paths of the group after completion, where no path is spilled and the next address is not the join PC. -/
theorem State.retire_paths {s : State} {d : Done} {p : Path} (hs : ∀ n, 8 ≤ n → s.me.path? n = none) (hp : s.me.path? s.me.cur = some p)
    (hj : p.join ≠ some (pc56 (d.target.getD (s.pc + 4)))) :
    (s.retire d).me.cur = s.me.cur
    ∧ (∃ o, (s.retire d).me.path? s.me.cur = some o ∧ o.pc = pc56 (d.target.getD (s.pc + 4)) ∧ o.member = p.member ∧ o.exm = p.exm ∧ o.join = p.join
        ∧ o.parent = p.parent ∧ o.state = p.state ∧ o.kind = p.kind)
    ∧ ∀ n, n ≠ s.me.cur → (s.retire d).me.path? n = (s.me.path? n).map fun q => { q with yields := q.yields.filter (· != s.me.cur) } := by
  have hn := Group.path?_lt hp
  -- the group before it moves on
  let g := (if d.moved then ((s.count d).charge d).setPath fun p => { p with notBefore := s.now + d.beats + d.extra + 2 } else (s.count d).charge d).me
  have hcur : g.cur = s.me.cur := by
    show (if d.moved then _ else _ : State).me.cur = _
    split
    · simp [State.charge, State.count, Group.noteIssue]
    · simp [State.charge, State.count, Group.noteIssue]
  have hchg : ∀ m, ((s.count d).charge d).me.path? m = if m = s.me.cur then
      (s.me.path? m).map fun q => { (q : Path) with wait := none, holdAsked := if q.stepping then some 3 else q.holdAsked, stepping := false, yields := q.yields.filter (· != s.me.cur) }
      else (s.me.path? m).map fun q => { q with yields := q.yields.filter (· != s.me.cur) } := by
    intro m
    have h1 : ((s.count d).charge d).me.path? m = (s.count d).me.noteIssue.path? m := rfl
    have h2 : (s.count d).me = s.me.setPath s.me.cur fun p => { p with wait := none, holdAsked := if p.stepping then some 3 else p.holdAsked, stepping := false } := rfl
    rw [h1, Group.path?_noteIssue, h2, Group.path?_setPath, Group.setPath_cur]
    by_cases hm : m = s.me.cur
    · subst hm; simp only [if_true, Option.map_map]; rfl
    · simp only [if_neg hm]
  have hg : ∃ q, g.path? s.me.cur = some q ∧ q.member = p.member ∧ q.exm = p.exm ∧ q.join = p.join ∧ q.parent = p.parent ∧ q.state = p.state ∧ q.kind = p.kind := by
    have h0 := hchg s.me.cur
    rw [if_pos rfl, hp, Option.map_some] at h0
    by_cases hm : d.moved
    · have : g = ((s.count d).charge d).me.setPath ((s.count d).charge d).me.cur fun p => { p with notBefore := s.now + d.beats + d.extra + 2 } := by
        show (if d.moved then _ else _ : State).me = _
        rw [if_pos hm]; rfl
      have hc : ((s.count d).charge d).me.cur = s.me.cur := by simp [State.charge, State.count, Group.noteIssue]
      rw [this, hc, Group.path?_setPath, if_pos rfl, h0]
      exact ⟨_, rfl, rfl, rfl, rfl, rfl, rfl, rfl⟩
    · have : g = ((s.count d).charge d).me := by
        show (if d.moved then _ else _ : State).me = _
        rw [if_neg hm]
      rw [this, h0]
      exact ⟨_, rfl, rfl, rfl, rfl, rfl, rfl, rfl⟩
  have hoth : ∀ n, n ≠ s.me.cur → g.path? n = (s.me.path? n).map fun q => { q with yields := q.yields.filter (· != s.me.cur) } := by
    intro n hne
    have h0 := hchg n
    rw [if_neg hne] at h0
    by_cases hm : d.moved
    · have : g = ((s.count d).charge d).me.setPath ((s.count d).charge d).me.cur fun p => { p with notBefore := s.now + d.beats + d.extra + 2 } := by
        show (if d.moved then _ else _ : State).me = _
        rw [if_pos hm]; rfl
      have hc : ((s.count d).charge d).me.cur = s.me.cur := by simp [State.charge, State.count, Group.noteIssue]
      rw [this, hc, Group.path?_setPath, if_neg hne]; exact h0
    · have : g = ((s.count d).charge d).me := by
        show (if d.moved then _ else _ : State).me = _
        rw [if_neg hm]
      rw [this]; exact h0
  have hsp : ∀ n, 8 ≤ n → g.path? n = none := by
    intro n hn8
    rw [hoth n (fun e => by rw [← e, hs n hn8] at hp; cases hp), hs n hn8]; rfl
  obtain ⟨q, hq, q1, q2, q3, q4, q5, q6⟩ := hg
  have hret : (s.retire d).me = g.setEntry s.me.cur (some { q with pc := pc56 (d.target.getD (s.pc + 4)) }) := by
    have : (s.retire d).me = (g.goto g.cur (d.target.getD (s.pc + 4))).refill 72 := rfl
    rw [this, hcur]
    exact Group.goto_straight hsp hq (by rw [q3]; exact hj)
  refine ⟨by rw [hret]; simp [hcur], ⟨{ q with pc := pc56 (d.target.getD (s.pc + 4)) }, ?_, rfl, q1, q2, q3, q4, q5, q6⟩, fun n hne => ?_⟩
  · rw [hret, Group.path?_setEntry _ _ _ _ hn, if_pos rfl]
  · rw [hret, Group.path?_setEntry _ _ _ _ hn, if_neg hne]; exact hoth n hne
theorem State.retire_goes (s : State) (d : Done) : s.goesTo (s.retire d) (d.target.getD (s.pc + 4)) := by
  rintro hs ⟨p, hp, hj⟩
  obtain ⟨h1, ⟨o, h2, h3, -⟩, -⟩ := State.retire_paths hs hp hj
  refine ⟨h1, ?_⟩
  unfold State.pc State.path Group.path
  rw [h1, h2]
  exact h3

/-! ### The checks before an instruction's own effect (R39) -/

/-- An instruction that nothing keeps from its own effect has it. -/
theorem State.checked_clear {s : State} {legal once : Bool} {uses : List Use} {k : State → State} (hl : legal = true) (hc : s.clear once uses = true) :
    s.checked legal once uses k = k (s.seen (if once then uses else .exm :: uses)) := by
  unfold State.clear at hc
  unfold State.checked State.checkedFor
  simp only [Bool.and_eq_true, Bool.not_eq_true', Bool.and_eq_false_iff, beq_iff_eq] at hc
  obtain ⟨⟨⟨h1, h2⟩, h4⟩, h3⟩ := hc
  simp only [hl, Bool.not_true, Bool.false_eq_true, if_false]
  rw [if_neg (by simp only [Bool.and_eq_true, not_and, Bool.not_eq_true]; intro a; rcases h1 with h | h <;> simp_all),
    if_neg (by simp [h4]),
    if_neg (by simp only [Bool.and_eq_true, not_and, Bool.not_eq_true]; intro a; rcases h2 with h | h <;> simp_all),
    if_neg (by simp [h3])]
  unfold State.seen
  cases s.unmapped (if once then uses else Use.exm :: uses) s.active <;> rfl
theorem State.seen_me (s : State) (us : List Use) : ∃ a b, (s.seen us) = s.withMe fun g => { g with gstat := a, gapNew := b } := by
  unfold State.seen
  split
  · exact ⟨_, _, rfl⟩
  · exact ⟨s.me.gstat, s.me.gapNew, rfl⟩

end Sys2Proof.Machine
end

