-- ==== Sys2Proof/Laws/Computing.lean ====
section
/-! SUPPORT. Register results: scalar and vector writes, rows, and what a computing instruction does once nothing keeps it from its effect. -/

namespace Sys2Proof.Machine

/-! ### Scalar results -/

theorem Group.sreg_setS (g : Group) (n m : Nat) (x : Word) (hn : n < 64) : (g.setS n x).sreg m = if m = n then x else g.sreg m := by
  unfold Group.setS Group.sreg
  rw [dif_pos hn]
  by_cases h : m = n
  · subst h; simp [hn]
  · simp [h, Ne.symm h]
theorem State.putS_sreg (s : State) (n m : Nat) (x : Word) (lat : Nat) (hn : n < 64) :
    (s.putS n x lat).me.sreg m = if m = n then x else s.me.sreg m := Group.sreg_setS s.me n m x hn
/-- What scalar writes leave alone. -/
structure ScalarsOnly (s t : State) : Prop where
  others : t.others = s.others
  special : t.me.special = s.me.special
  v : t.me.v = s.me.v
  p : t.me.p = s.me.p
  cm : t.me.cm = s.me.cm
  fpsf : t.me.fpsf = s.me.fpsf
  gstat : t.me.gstat = s.me.gstat
  mode : t.me.mode = s.me.mode
  paths : t.me.paths = s.me.paths
  cur : t.me.cur = s.me.cur
  laneCtr : t.me.laneCtr = s.me.laneCtr
  scalarCtr : t.me.scalarCtr = s.me.scalarCtr
theorem ScalarsOnly.refl (s : State) : ScalarsOnly s s := ⟨rfl, rfl, rfl, rfl, rfl, rfl, rfl, rfl, rfl, rfl, rfl, rfl⟩
theorem ScalarsOnly.trans {s t r : State} (a : ScalarsOnly s t) (b : ScalarsOnly t r) : ScalarsOnly s r :=
  ⟨b.1.trans a.1, b.2.trans a.2, b.3.trans a.3, b.4.trans a.4, b.5.trans a.5, b.6.trans a.6, b.7.trans a.7, b.8.trans a.8, b.9.trans a.9, b.10.trans a.10, b.11.trans a.11, b.12.trans a.12⟩
theorem State.putS_only (s : State) (n : Nat) (x : Word) (lat : Nat) : ScalarsOnly s (s.putS n x lat) := by
  unfold State.putS
  constructor <;> simp [State.withMe, Group.special, State.others]
/-- Scalar results of an instruction. -/
theorem State.putAll (lat : Nat) (ds : List Nat) (ws : List Word) (s : State) (hd : ds.Nodup) (hl : ds.length = ws.length) (h64 : ∀ n ∈ ds, n < 64) :
    ScalarsOnly s ((ds.zip ws).foldl (fun s p => s.putS p.1 p.2 lat) s) ∧
    ∀ n, ((ds.zip ws).foldl (fun s p => s.putS p.1 p.2 lat) s).me.sreg n = s.scalarsWith ds ws n := by
  induction ds generalizing ws s with
  | nil => exact ⟨.refl s, fun n => by simp [State.scalarsWith]⟩
  | cons d ds ih =>
    cases ws with
    | nil => simp at hl
    | cons w ws =>
      obtain ⟨hn, hd⟩ := List.nodup_cons.mp hd
      obtain ⟨a, b⟩ := ih ws (s.putS d w lat) hd (by simpa using hl) (fun n hn => h64 n (List.mem_cons_of_mem _ hn))
      refine ⟨(State.putS_only s d w lat).trans a, fun n => ?_⟩
      rw [List.zip_cons_cons, List.foldl_cons, b n]
      unfold State.scalarsWith
      have hput := State.putS_sreg s d n w lat (h64 d (List.mem_cons_self ..))
      by_cases h : n = d
      · subst h
        rw [if_neg hn, if_pos (List.mem_cons_self ..), hput, if_pos rfl]
        simp
      · have hi : (d :: ds).idxOf n = ds.idxOf n + 1 := by rw [List.idxOf_cons, beq_false_of_ne (Ne.symm h)]; rfl
        by_cases hm : n ∈ ds
        · rw [if_pos hm, if_pos (List.mem_cons_of_mem _ hm), hi, List.getD_cons_succ]
        · rw [if_neg hm, if_neg (by simp [h, hm]), hput, if_neg h]

/-! ### Vector results -/

theorem Group.vlane_setRow (g : Group) (n m k : Nat) (r : Option VRow) (hn : n < 48) :
    (g.setRow n r).vlane m k = if m = n then (r.bind fun r => r.lanes[k]?).getD 0 else g.vlane m k := by
  unfold Group.setRow Group.vlane Group.vrow
  rw [dif_pos hn]
  by_cases h : m = n
  · subst h; simp [hn]
  · simp [h, Ne.symm h]
theorem Group.vrow_setRow (g : Group) (n m : Nat) (r : Option VRow) (hn : n < 48) : (g.setRow n r).vrow m = if m = n then r else g.vrow m := by
  unfold Group.setRow Group.vrow
  rw [dif_pos hn]
  by_cases h : m = n
  · subst h; simp [hn]
  · simp [h, Ne.symm h]
theorem Group.setRow_ge (g : Group) (n : Nat) (r : Option VRow) (hn : ¬ n < 48) : g.setRow n r = g := by unfold Group.setRow; rw [dif_neg hn]
theorem Group.vrow_lt {g : Group} {n : Nat} {r : VRow} (h : g.vrow n = some r) : n < 48 := by
  refine Nat.lt_of_not_le fun hn => ?_
  unfold Group.vrow at h
  rw [Vector.getElem?_eq_none hn] at h
  cases h
/-- What vector writes leave alone. -/
structure VectorsOnly (s t : State) : Prop where
  others : t.others = s.others
  special : t.me.special = s.me.special
  sc : t.me.s = s.me.s
  p : t.me.p = s.me.p
  cm : t.me.cm = s.me.cm
  fpsf : t.me.fpsf = s.me.fpsf
  gstat : t.me.gstat = s.me.gstat
  mode : t.me.mode = s.me.mode
  paths : t.me.paths = s.me.paths
  cur : t.me.cur = s.me.cur
  pending : t.me.pending = s.me.pending
  laneCtr : t.me.laneCtr = s.me.laneCtr
  scalarCtr : t.me.scalarCtr = s.me.scalarCtr
theorem VectorsOnly.refl (s : State) : VectorsOnly s s := ⟨rfl, rfl, rfl, rfl, rfl, rfl, rfl, rfl, rfl, rfl, rfl, rfl, rfl⟩
theorem VectorsOnly.trans {s t r : State} (a : VectorsOnly s t) (b : VectorsOnly t r) : VectorsOnly s r :=
  ⟨b.1.trans a.1, b.2.trans a.2, b.3.trans a.3, b.4.trans a.4, b.5.trans a.5, b.6.trans a.6, b.7.trans a.7, b.8.trans a.8, b.9.trans a.9, b.10.trans a.10,
    b.11.trans a.11, b.12.trans a.12, b.13.trans a.13⟩
theorem Group.special_setRow (g : Group) (n : Nat) (r : Option VRow) : (g.setRow n r).special = g.special := by
  unfold Group.setRow; split <;> rfl
theorem VectorsOnly.setRow (s : State) (f : Group → Nat × Option VRow) (m : Group → Nat) :
    VectorsOnly s (s.withMe fun g => { g.setRow (f g).1 (f g).2 with maxHeld := m g }) := by
  constructor <;> simp [State.withMe, Group.special, State.others]
theorem State.mendRow_me (s : State) (n : Nat) (a : LaneMask) : (s.mendRow n a).me = s.me := by
  unfold State.mendRow; split
  · rfl
  · split <;> rfl
theorem State.mendRow_others (s : State) (n : Nat) (a : LaneMask) : (s.mendRow n a).others = s.others := by
  unfold State.mendRow; split
  · rfl
  · split <;> rfl
theorem State.mendName_me (s : State) (n : Nat) : (s.mendName n).me = s.me := by
  unfold State.mendName; split <;> rfl
theorem State.mendName_others (s : State) (n : Nat) : (s.mendName n).others = s.others := by
  unfold State.mendName; split <;> rfl
theorem VectorsOnly.mendName (s : State) (n : Nat) : VectorsOnly s (s.mendName n) := by
  have h := State.mendName_me s n
  exact ⟨State.mendName_others s n, by rw [h], by rw [h], by rw [h], by rw [h], by rw [h], by rw [h], by rw [h], by rw [h], by rw [h], by rw [h], by rw [h], by rw [h]⟩
theorem VectorsOnly.mendRow (s : State) (n : Nat) (a : LaneMask) : VectorsOnly s (s.mendRow n a) := by
  have h := State.mendRow_me s n a
  exact ⟨State.mendRow_others s n a, by rw [h], by rw [h], by rw [h], by rw [h], by rw [h], by rw [h], by rw [h], by rw [h], by rw [h], by rw [h], by rw [h], by rw [h]⟩
theorem VectorsOnly.withMe_setRow (s : State) (n : Nat) (r : Option VRow) : VectorsOnly s (s.withMe fun g => g.setRow n r) := by
  constructor <;> simp [State.withMe, Group.special_setRow, State.others]
theorem VectorsOnly.withMe_max (s : State) (f : Group → Nat) : VectorsOnly s (s.withMe fun g => { g with maxHeld := f g }) := by
  constructor <;> simp [State.withMe, Group.special, State.others]
/-- Allocating rows changes no word: a new row is zero where the name had none. -/
theorem State.allocRows_lanes (ns : List Nat) (s : State) :
    VectorsOnly s (State.allocRows ns s) ∧ (∀ n k, (State.allocRows ns s).me.vlane n k = s.me.vlane n k)
      ∧ (∀ n, (s.me.vrow n).isSome = true → ((State.allocRows ns s).me.vrow n).isSome = true)
      ∧ ∀ n ∈ ns, n < 48 → ((State.allocRows ns s).me.vrow n).isSome = true := by
  induction ns generalizing s with
  | nil => exact ⟨.refl s, fun _ _ => rfl, fun _ h => h, by simp⟩
  | cons d ns ih =>
    unfold State.allocRows
    by_cases hr : (s.me.vrow d).isSome = true
    · rw [if_pos hr]
      obtain ⟨a, b, c, e⟩ := ih s
      refine ⟨a, b, c, fun n hn h48 => ?_⟩
      rcases List.mem_cons.mp hn with rfl | hn
      · exact c n hr
      · exact e n hn h48
    · rw [if_neg hr]
      simp only
      let s1 := ((s.withMe fun g => g.setRow d (some { row := s.pickRow d })).mendName d).mendRow d (BitVec.allOnes 64)
      let s2 := s1.withMe fun g => { g with maxHeld := max g.maxHeld g.held }
      have h1 : s2.me.v = (s.me.setRow d (some { row := s.pickRow d })).v := by
        show s1.me.v = _
        rw [State.mendRow_me, State.mendName_me]; rfl
      have hl : ∀ n k, s2.me.vlane n k = s.me.vlane n k := by
        intro n k
        have : s2.me.vlane n k = (s.me.setRow d (some { row := s.pickRow d })).vlane n k := by
          unfold Group.vlane Group.vrow; rw [h1]
        rw [this]
        by_cases hd : d < 48
        · rw [Group.vlane_setRow _ _ _ _ _ hd]
          split
          · rename_i h; subst h
            have : s.me.vrow n = none := by simpa using hr
            unfold Group.vlane
            rw [this]
            show ((Vector.replicate 64 (0 : Word))[k]?).getD 0 = 0
            rw [Vector.getElem?_replicate]
            split <;> rfl
          · rfl
        · rw [Group.setRow_ge _ _ _ hd]
      have hv : ∀ n, s2.me.vrow n = (s.me.setRow d (some { row := s.pickRow d })).vrow n := by
        intro n; unfold Group.vrow; rw [h1]
      obtain ⟨a, b, c, e⟩ := ih s2
      have hvo : VectorsOnly s s2 := (((VectorsOnly.withMe_setRow s _ _).trans (VectorsOnly.mendName _ _)).trans (VectorsOnly.mendRow _ _ _)).trans (VectorsOnly.withMe_max _ _)
      refine ⟨hvo.trans a, fun n k => (b n k).trans (hl n k), fun n hn => c n ?_, fun n hn h48 => ?_⟩
      · rw [hv]
        by_cases hd : d < 48
        · rw [Group.vrow_setRow _ _ _ _ hd]; split
          · rfl
          · exact hn
        · rw [Group.setRow_ge _ _ _ hd]; exact hn
      · rcases List.mem_cons.mp hn with rfl | hn
        · refine c n ?_
          rw [hv, Group.vrow_setRow _ _ _ _ h48, if_pos rfl]; rfl
        · exact e n hn h48
/-- Moving a marked destination to a new row changes no word. -/
theorem State.replaceRows_lanes (marked ns : List Nat) (s : State) :
    VectorsOnly s (State.replaceRows marked ns s) ∧ (∀ n k, (State.replaceRows marked ns s).me.vlane n k = s.me.vlane n k)
      ∧ ∀ n, ((State.replaceRows marked ns s).me.vrow n).isSome = (s.me.vrow n).isSome := by
  induction ns generalizing s with
  | nil => exact ⟨.refl s, fun _ _ => rfl, fun _ => rfl⟩
  | cons d ns ih =>
    unfold State.replaceRows
    split
    · split
      · rename_i r hr
        have hd := Group.vrow_lt hr
        let s2 := s.withMe fun g => { g.setRow d (some { r with row := s.pickRow d }) with maxHeld := max g.maxHeld (g.held + 1) }
        have h1 : s2.me.v = (s.me.setRow d (some { r with row := s.pickRow d })).v := rfl
        have hl : ∀ n k, s2.me.vlane n k = s.me.vlane n k := by
          intro n k
          have : s2.me.vlane n k = (s.me.setRow d (some { r with row := s.pickRow d })).vlane n k := by
            unfold Group.vlane Group.vrow; rw [h1]
          rw [this, Group.vlane_setRow _ _ _ _ _ hd]
          split
          · rename_i h; subst h; unfold Group.vlane; rw [hr]; rfl
          · rfl
        have hv : ∀ n, (s2.me.vrow n).isSome = (s.me.vrow n).isSome := by
          intro n
          have : s2.me.vrow n = (s.me.setRow d (some { r with row := s.pickRow d })).vrow n := by unfold Group.vrow; rw [h1]
          rw [this, Group.vrow_setRow _ _ _ _ hd]
          split
          · rename_i h; subst h; rw [hr]; rfl
          · rfl
        obtain ⟨a, b, c⟩ := ih s2
        exact ⟨(VectorsOnly.setRow s (fun g => (d, some { r with row := s.pickRow d })) (fun g => max g.maxHeld (g.held + 1))).trans a,
          fun n k => (b n k).trans (hl n k), fun n => (c n).trans (hv n)⟩
      · exact ih s
    · exact ih s
theorem State.withMe_congr {s : State} {f g : Group → Group} (h : f s.me = g s.me) : s.withMe f = s.withMe g := by
  unfold State.withMe; rw [h]
/-- Writing lanes of a name. -/
theorem State.writeLanes_lanes (s : State) (d : Nat) (act : LaneMask) (f : Nat → Word) (hr : (s.me.vrow d).isSome = true) :
    VectorsOnly s (s.writeLanes d act f) ∧ (∀ n, ((s.writeLanes d act f).me.vrow n).isSome = (s.me.vrow n).isSome)
      ∧ ∀ n k, (s.writeLanes d act f).me.vlane n k = if n = d then (if act.getLsbD k then f k else s.me.vlane n k) else s.me.vlane n k := by
  obtain ⟨r, hr⟩ := Option.isSome_iff_exists.mp hr
  have hd := Group.vrow_lt hr
  have hme : (s.mendRow d act).me = s.me := State.mendRow_me ..
  let row : VRow := { r with lanes := Vector.ofFn fun i : Fin 64 => if act.getLsbD i then f i else r.lanes[i] }
  have hw : s.writeLanes d act f = (s.mendRow d act).withMe fun g => g.setRow d (some row) := by
    unfold State.writeLanes
    refine State.withMe_congr ?_
    rw [hme, hr]
  have hm : (s.writeLanes d act f).me = s.me.setRow d (some row) := by rw [hw]; show Group.setRow (s.mendRow d act).me _ _ = _; rw [hme]
  refine ⟨?_, fun n => ?_, fun n k => ?_⟩
  · rw [hw]; exact (VectorsOnly.mendRow s d act).trans (VectorsOnly.withMe_setRow _ _ _)
  · rw [hm, Group.vrow_setRow _ _ _ _ hd]
    by_cases h : n = d
    · rw [if_pos h, h]; simp only [hr, Option.isSome_some]
    · rw [if_neg h]
  · rw [hm, Group.vlane_setRow _ _ _ _ _ hd]
    split
    · rename_i h; subst h
      have hv : s.me.vlane n k = (r.lanes[k]?).getD 0 := by unfold Group.vlane; rw [hr]; rfl
      show (row.lanes[k]?).getD 0 = _
      rw [hv]
      by_cases hk : k < 64
      · have h1 : row.lanes[k]? = some (if act.getLsbD k then f k else r.lanes[k]) := by
          show (Vector.ofFn _)[k]? = _
          rw [Vector.getElem?_ofFn, dif_pos hk]; rfl
        rw [h1, Vector.getElem?_eq_getElem hk]; rfl
      · rw [Vector.getElem?_eq_none (Nat.le_of_not_lt hk), Vector.getElem?_eq_none (Nat.le_of_not_lt hk),
          BitVec.getLsbD_of_ge _ _ (Nat.le_of_not_lt hk)]
        rfl
    · rfl
/-- Writing all results of an instruction. -/
theorem State.writeResults_lanes (act : LaneMask) (res : List (List Word)) (ds : List Nat) (j : Nat) (s : State) (hd : ds.Nodup)
    (hr : ∀ d ∈ ds, (s.me.vrow d).isSome = true) :
    VectorsOnly s (s.writeResults act res j ds) ∧ ∀ n k, (s.writeResults act res j ds).me.vlane n k =
      if n ∈ ds then (if act.getLsbD k then (res.getD k []).getD (j + ds.idxOf n) 0 else s.me.vlane n k) else s.me.vlane n k := by
  induction ds generalizing s j with
  | nil => exact ⟨.refl s, fun n k => by simp [State.writeResults]⟩
  | cons d ds ih =>
    obtain ⟨hn, hd⟩ := List.nodup_cons.mp hd
    obtain ⟨a, b, c⟩ := State.writeLanes_lanes s d act (fun i => (res.getD i []).getD j 0) (hr d (List.mem_cons_self ..))
    obtain ⟨e, g⟩ := ih (j + 1) (s.writeLanes d act fun i => (res.getD i []).getD j 0) hd fun m hm => by
      rw [b]; exact hr m (List.mem_cons_of_mem _ hm)
    refine ⟨a.trans e, fun n k => ?_⟩
    unfold State.writeResults
    rw [g n k, c n k]
    by_cases h : n = d
    · subst h
      rw [if_neg hn, if_pos rfl, if_pos (List.mem_cons_self ..)]
      simp
    · have hi : (d :: ds).idxOf n = ds.idxOf n + 1 := by rw [List.idxOf_cons, beq_false_of_ne (Ne.symm h)]; rfl
      simp only [h, if_false, List.mem_cons, false_or, hi]
      rw [show j + 1 + ds.idxOf n = j + (ds.idxOf n + 1) by omega]
/-- Freeing the rows of marked sources. -/
theorem State.freeMarked_lanes (marked dests : List Nat) (s : State) :
    VectorsOnly s (s.freeMarked marked dests) ∧ ∀ n k, (s.freeMarked marked dests).me.vlane n k =
      if n ∈ marked ∧ n ∉ dests then 0 else s.me.vlane n k := by
  have key : ∀ (l : List Nat) (g : Group), (l.foldl (fun g n => g.setRow n none) g).special = g.special
      ∧ (l.foldl (fun g n => g.setRow n none) g).s = g.s ∧ (l.foldl (fun g n => g.setRow n none) g).p = g.p
      ∧ (l.foldl (fun g n => g.setRow n none) g).cm = g.cm ∧ (l.foldl (fun g n => g.setRow n none) g).fpsf = g.fpsf
      ∧ (l.foldl (fun g n => g.setRow n none) g).gstat = g.gstat ∧ (l.foldl (fun g n => g.setRow n none) g).mode = g.mode
      ∧ (l.foldl (fun g n => g.setRow n none) g).paths = g.paths ∧ (l.foldl (fun g n => g.setRow n none) g).cur = g.cur
      ∧ (l.foldl (fun g n => g.setRow n none) g).pending = g.pending
      ∧ (l.foldl (fun g n => g.setRow n none) g).laneCtr = g.laneCtr
      ∧ (l.foldl (fun g n => g.setRow n none) g).scalarCtr = g.scalarCtr
      ∧ ∀ n k, (l.foldl (fun g n => g.setRow n none) g).vlane n k = if n ∈ l then 0 else g.vlane n k := by
    intro l
    induction l with
    | nil => intro g; simp
    | cons d l ih =>
      intro g
      obtain ⟨a, b, c, d1, e, f, h, i, j, p, k1, k2, q⟩ := ih (g.setRow d none)
      rw [List.foldl_cons]
      refine ⟨a.trans (Group.special_setRow ..), b.trans (by simp), c.trans (by simp), d1.trans (by simp), e.trans (by simp), f.trans (by simp),
        h.trans (by simp), i.trans (by simp), j.trans (by simp), p.trans (by simp),
        k1.trans (by simp), k2.trans (by simp), fun n k => ?_⟩
      rw [q n k]
      by_cases hd : d < 48
      · rw [Group.vlane_setRow _ _ _ _ _ hd]
        by_cases hn : n = d
        · subst hn; simp
        · by_cases hl : n ∈ l <;> simp [hn, hl]
      · rw [Group.setRow_ge _ _ _ hd]
        by_cases hn : n = d
        · subst hn
          have : g.vlane n k = 0 := by
            unfold Group.vlane Group.vrow
            rw [Vector.getElem?_eq_none (Nat.le_of_not_lt hd)]; rfl
          simp [this]
        · by_cases hl : n ∈ l <;> simp [hn, hl]
  obtain ⟨a, b, c, d, e, f, h, i, j, p, k1, k2, q⟩ := key (marked.filter fun n => !dests.contains n) s.me
  refine ⟨⟨rfl, a, b, c, d, e, f, h, i, j, p, k1, k2⟩, fun n k => ?_⟩
  show (((marked.filter fun n => !dests.contains n).foldl (fun g n => g.setRow n none) s.me).vlane n k) = _
  rw [q n k]
  simp only [List.mem_filter, Bool.not_eq_true', List.contains_eq_mem, decide_eq_false_iff_not]

end Sys2Proof.Machine
end

