-- ==== Sys2Proof/Laws/Calc.lean ====
section
/-! SUPPORT. A computing instruction that nothing keeps from its effect completes, writes its results and leaves the rest alone. -/

namespace Sys2Proof.Machine

theorem State.goesTo_congr {s r t : State} {a : DWord} (hp : r.me.paths = s.me.paths) (hc : r.me.cur = s.me.cur) (h : r.goesTo t a) : s.goesTo t a := by
  have hpath : ∀ n, r.me.path? n = s.me.path? n := fun n => by unfold Group.path?; rw [hp]
  intro h1 h2
  have := h (fun n hn => (hpath n).trans (h1 n hn)) (by rw [hc, hpath]; exact h2)
  exact ⟨this.1.trans hc, this.2⟩
theorem State.pc_congr {s r : State} (hp : r.me.paths = s.me.paths) (hc : r.me.cur = s.me.cur) : r.pc = s.pc := by
  unfold State.pc State.path Group.path Group.path?; rw [hp, hc]
theorem Group.sreg_congr {g h : Group} (e : g.s = h.s) (n : Nat) : g.sreg n = h.sreg n := by unfold Group.sreg; rw [e]
theorem Group.vlane_congr {g h : Group} (e : g.v = h.v) (n k : Nat) : g.vlane n k = h.vlane n k := by unfold Group.vlane Group.vrow; rw [e]
theorem Group.preg_congr {g h : Group} (e : g.p = h.p) (n : Nat) : g.preg n = h.preg n := by unfold Group.preg; rw [e]
/-- An instruction that has written its results completes, if none of the flags it raised is enabled (R55, R56). -/
theorem State.finish_computed {s r : State} {S : Nat → Word} {V : Nat → Nat → Word} {P : Nat → LaneMask} {cm : DWord} {fl : Nat} {uses : List Use}
    {next : DWord} {d : Done} {raised : Nat → LaneMask} {streams : Vector Word 64 × Word} (ho : r.others = s.others) (hs : r.me.special = s.me.special)
    (hS : ∀ n, r.me.sreg n = S n) (hV : ∀ n k, r.me.vlane n k = V n k) (hP : ∀ n, r.me.preg n = P n) (hcm : r.me.cm = cm)
    (hf : r.me.fpsf = s.me.fpsf) (hg : r.me.gstat = (s.seen uses).me.gstat) (hm : r.me.mode = s.me.mode) (hp : r.me.paths = s.me.paths)
    (hc : r.me.cur = s.me.cur) (he : s.enabledFlags fl = 0) (hn : d.target.getD (s.pc + 4) = next)
    (hstr : (r.me.laneCtr, r.me.scalarCtr) = streams) : Computed s (r.finish d fl raised) S V P cm fl uses next streams := by
  have hfin : r.finish d fl raised = (r.setFlags fl).retire d := by
    unfold State.finish
    have : (r.setFlags fl).enabledFlags fl = 0 := by
      rw [← he]; show (BitVec.ofNat 5 fl &&& BitVec.ofNat 5 (modeFPTE r.me.mode)).toNat = _; rw [hm]; rfl
    simp only [this, if_true]
  rw [hfin]
  have hoth : ((r.setFlags fl).retire d).others = s.others := (State.retire_others _ _).trans ho
  have hpc : (r.setFlags fl).pc = s.pc := State.pc_congr (s := s) hp hc
  refine ⟨fun n => ?_, fun n k => ?_, fun n => ?_, ?_, ?_, ?_, ?_, ?_, hoth, State.sameMemory_of_others hoth, ?_⟩
  · rw [Group.sreg_congr (State.retire_s _ _)]; exact hS n
  · rw [Group.vlane_congr (State.retire_v _ _)]; exact hV n k
  · rw [Group.preg_congr (State.retire_p _ _)]; exact hP n
  · rw [State.retire_cm]; exact hcm
  · rw [State.retire_fpsf]; show r.me.fpsf ||| _ = _; rw [hf]
  · rw [State.retire_gstat]; exact hg
  · rw [State.retire_laneCtr, State.retire_scalarCtr]; exact hstr
  · rw [State.retire_special]; exact hs
  · have := State.retire_goes (r.setFlags fl) d
    rw [hpc, hn] at this
    exact State.goesTo_congr hp hc this

theorem State.seen_only (s : State) (us : List Use) : (s.seen us).others = s.others ∧ (s.seen us).me.special = s.me.special ∧ (s.seen us).me.s = s.me.s
    ∧ (s.seen us).me.v = s.me.v ∧ (s.seen us).me.p = s.me.p ∧ (s.seen us).me.cm = s.me.cm ∧ (s.seen us).me.fpsf = s.me.fpsf
    ∧ (s.seen us).me.mode = s.me.mode ∧ (s.seen us).me.paths = s.me.paths ∧ (s.seen us).me.cur = s.me.cur
    ∧ (s.seen us).active = s.active ∧ (∀ m, (s.seen us).marks m = s.marks m)
    ∧ (s.seen us).me.laneCtr = s.me.laneCtr ∧ (s.seen us).me.scalarCtr = s.me.scalarCtr := by
  unfold State.seen
  split
  · exact ⟨rfl, rfl, rfl, rfl, rfl, rfl, rfl, rfl, rfl, rfl, rfl, fun _ => rfl, rfl, rfl⟩
  · exact ⟨rfl, rfl, rfl, rfl, rfl, rfl, rfl, rfl, rfl, rfl, rfl, fun _ => rfl, rfl, rfl⟩
theorem State.advance_only (s : State) (u : Bool) (a : LaneMask) : (s.advance u a).others = s.others ∧ (s.advance u a).me.special = s.me.special
    ∧ (s.advance u a).me.s = s.me.s ∧ (s.advance u a).me.v = s.me.v ∧ (s.advance u a).me.p = s.me.p ∧ (s.advance u a).me.cm = s.me.cm
    ∧ (s.advance u a).me.fpsf = s.me.fpsf ∧ (s.advance u a).me.gstat = s.me.gstat ∧ (s.advance u a).me.mode = s.me.mode
    ∧ (s.advance u a).me.paths = s.me.paths ∧ (s.advance u a).me.cur = s.me.cur := by
  unfold State.advance
  cases u
  · simp only [Bool.false_eq_true, if_false]
    simp [State.withMe, Group.special, State.others]
  · simp only [if_true]
    simp [State.withMe, Group.special, State.others]
/-- The same for an instruction that draws or does not. -/
theorem State.advanceIf_only (s : State) (draws u : Bool) (a : LaneMask) :
    (if draws then s.advance u a else s).others = s.others ∧ (if draws then s.advance u a else s).me.special = s.me.special
    ∧ (if draws then s.advance u a else s).me.s = s.me.s ∧ (if draws then s.advance u a else s).me.v = s.me.v
    ∧ (if draws then s.advance u a else s).me.p = s.me.p ∧ (if draws then s.advance u a else s).me.cm = s.me.cm
    ∧ (if draws then s.advance u a else s).me.fpsf = s.me.fpsf ∧ (if draws then s.advance u a else s).me.gstat = s.me.gstat
    ∧ (if draws then s.advance u a else s).me.mode = s.me.mode ∧ (if draws then s.advance u a else s).me.paths = s.me.paths
    ∧ (if draws then s.advance u a else s).me.cur = s.me.cur := by
  cases draws
  · simp
  · simpa using State.advance_only s u a
/-- The counters after an instruction that draws or does not. -/
theorem State.advanceIf_streams {s r : State} (draws u : Bool) (h1 : r.me.laneCtr = s.me.laneCtr) (h2 : r.me.scalarCtr = s.me.scalarCtr) :
    ((if draws then r.advance u s.active else r).me.laneCtr, (if draws then r.advance u s.active else r).me.scalarCtr) = s.streamsAfter draws u := by
  unfold State.streamsAfter
  cases draws
  · simp [h1, h2]
  · cases u <;> simp [State.advance, h1, h2]

/-! ### UNMAPPED has no part in row allocation -/

/-- The state with GSTAT and its mark of a new UNMAPPED set. -/
def State.gap (s : State) (a : Word) (b : Bool) : State := s.withMe fun g => { g with gstat := a, gapNew := b }
theorem State.gap_setRow (s : State) (a : Word) (b : Bool) (n : Nat) (r : Option VRow) :
    ((s.gap a b).withMe fun g => g.setRow n r) = (s.withMe fun g => g.setRow n r).gap a b := by
  by_cases hn : n < 48
  · simp only [State.gap, State.withMe, Group.setRow, dif_pos hn]
  · simp only [State.gap, State.withMe, Group.setRow, dif_neg hn]
theorem State.gap_onPipe {α : Type} (s : State) (a : Word) (b : Bool) (t p : Nat) (F : Group → α) (hF : ∀ (g : Group), F { g with gstat := a, gapNew := b } = F g) :
    ((s.gap a b).onPipe t p).map F = (s.onPipe t p).map F := by
  have hl : (s.gap a b).me.live = s.me.live := rfl
  have hg : (s.gap a b).groups = s.groups := rfl
  unfold State.onPipe State.allGroups
  rw [hl, hg]
  by_cases h : s.me.live = true
  · rw [if_pos h, if_pos h, List.filter_cons, List.filter_cons]
    have ht : (s.gap a b).me.tile = s.me.tile := rfl
    have hp : (s.gap a b).me.pipe = s.me.pipe := rfl
    rw [ht, hp]
    split
    · rw [List.map_cons, List.map_cons]
      exact congrArg (· :: _) (hF s.me)
    · rfl
  · rw [if_neg h, if_neg h]
theorem State.gap_mayAllocate (s : State) (a : Word) (b : Bool) : (s.gap a b).mayAllocate = s.mayAllocate := by
  have h1 := State.gap_onPipe s a b s.me.tile s.me.pipe Group.rowCharge fun _ => rfl
  have h2 := State.gap_onPipe s a b s.me.tile s.me.pipe Group.need fun _ => rfl
  have h3 := State.gap_onPipe s a b s.me.tile s.me.pipe Group.seq fun _ => rfl
  have h4 : ((s.gap a b).onPipe s.me.tile s.me.pipe).all (fun g => decide (s.me.seq ≤ g.seq)) = (s.onPipe s.me.tile s.me.pipe).all fun g => decide (s.me.seq ≤ g.seq) := by
    have := congrArg (fun l : List Nat => l.all fun n => decide (s.me.seq ≤ n)) h3
    simp only [List.all_map] at this
    exact this
  unfold State.mayAllocate
  have e1 : (s.gap a b).me.tile = s.me.tile := rfl
  have e2 : (s.gap a b).me.pipe = s.me.pipe := rfl
  have e3 : (s.gap a b).me.seq = s.me.seq := rfl
  have e4 : (s.gap a b).me.held = s.me.held := rfl
  have e5 : (s.gap a b).me.floor = s.me.floor := rfl
  have e6 : (s.gap a b).me.width = s.me.width := rfl
  simp only [e1, e2, e3, e4, e5, e6, rowsFree, rowsReserve, h1, h2, h4]
  rfl
theorem State.gap_pickRow (s : State) (a : Word) (b : Bool) (n : Nat) : (s.gap a b).pickRow n = s.pickRow n := by
  have h1 := State.gap_onPipe s a b s.me.tile s.me.pipe Group.rowNumbers fun _ => rfl
  have : ((s.gap a b).onPipe s.me.tile s.me.pipe).flatMap Group.rowNumbers = (s.onPipe s.me.tile s.me.pipe).flatMap Group.rowNumbers := by
    rw [List.flatMap_def, List.flatMap_def, h1]
  unfold State.pickRow
  exact congrArg (fun l => freeRow s.me.width l n) this
theorem State.gap_rowsFor (marked ns : List Nat) (s : State) (a : Word) (b : Bool) : State.rowsFor marked ns (s.gap a b) = State.rowsFor marked ns s := by
  induction ns generalizing s with
  | nil => rfl
  | cons n ns ih =>
    unfold State.rowsFor
    have e : (s.gap a b).me.vrow n = s.me.vrow n := rfl
    rw [e, State.gap_mayAllocate, State.gap_pickRow, State.gap_setRow, ih, ih]
theorem State.seen_rowsFor (marked ns : List Nat) (s : State) (us : List Use) : State.rowsFor marked ns (s.seen us) = State.rowsFor marked ns s := by
  unfold State.seen
  split
  · exact State.gap_rowsFor marked ns s _ _
  · rfl

/-! ### The two forms -/

theorem perLane_map {α β : Type} (act : LaneMask) (f : Nat → α) (d : α) (F : α → β) : (perLane act f d).map F = perLane act (fun k => F (f k)) (F d) := by
  unfold perLane
  rw [List.map_map]
  apply List.map_congr_left
  intro k _
  show F (if _ then _ else _) = _
  split <;> rfl
theorem perLane_congr {α : Type} (act : LaneMask) {f g : Nat → α} (d : α) (h : ∀ k, f k = g k) : perLane act f d = perLane act g d := by
  have : f = g := funext h
  rw [this]
theorem perLane_get {α : Type} (act : LaneMask) (f : Nat → α) (d e : α) (k : Nat) (h : act.getLsbD k = true) : (perLane act f d).getD k e = f k := by
  have hk : k < 64 := Nat.lt_of_not_le fun hk => by rw [BitVec.getLsbD_of_ge _ _ hk] at h; cases h
  unfold perLane
  rw [List.getD_eq_getElem?_getD, List.getElem?_map, List.getElem?_range hk]
  simp [h]
/-- What the checks and draws before a result leave as it was. -/
structure Ready (s r : State) (uses : List Use) (streams : Vector Word 64 × Word) : Prop where
  others : r.others = s.others
  special : r.me.special = s.me.special
  sc : r.me.s = s.me.s
  v : r.me.v = s.me.v
  p : r.me.p = s.me.p
  cm : r.me.cm = s.me.cm
  fpsf : r.me.fpsf = s.me.fpsf
  gstat : r.me.gstat = (s.seen uses).me.gstat
  mode : r.me.mode = s.me.mode
  paths : r.me.paths = s.me.paths
  cur : r.me.cur = s.me.cur
  streams : (r.me.laneCtr, r.me.scalarCtr) = streams
theorem ready_advance (s : State) (uses : List Use) (draws u : Bool) :
    Ready s (if draws then (s.seen uses).advance u s.active else s.seen uses) uses (s.streamsAfter draws u) := by
  obtain ⟨so, ss, s1, s2, s3, s4, s5, s6, s7, s8, -, -, sl, sk⟩ := State.seen_only s uses
  obtain ⟨ao, as, a1, a2, a3, a4, a5, a6, a7, a8, a9⟩ := State.advanceIf_only (s.seen uses) draws u s.active
  exact ⟨ao.trans so, as.trans ss, a1.trans s1, a2.trans s2, a3.trans s3, a4.trans s4, a5.trans s5, a6, a7.trans s6, a8.trans s7, a9.trans s8,
    State.advanceIf_streams draws u sl sk⟩
/-- Scalar results. -/
theorem scalars_computed {s r : State} {uses : List Use} {streams : Vector Word 64 × Word} (hr : Ready s r uses streams) {ds : List Nat} {ws : List Word}
    {lat fl : Nat} {d : Done} {raised : Nat → LaneMask} {next : DWord} (hd : ds.Nodup) (hl : ds.length = ws.length) (h64 : ∀ n ∈ ds, n < 64)
    (he : s.enabledFlags fl = 0) (hn : d.target.getD (s.pc + 4) = next) :
    Computed s (((ds.zip ws).foldl (fun s p => s.putS p.1 p.2 lat) r).finish d fl raised) (s.scalarsWith ds ws) s.me.vlane s.me.preg s.me.cm fl uses next streams := by
  obtain ⟨a, b⟩ := State.putAll lat ds ws r hd hl h64
  refine State.finish_computed (a.others.trans hr.others) (a.special.trans hr.special) (fun n => ?_) (fun n k => ?_) (fun n => ?_)
    (a.cm.trans hr.cm) (a.fpsf.trans hr.fpsf) (a.gstat.trans hr.gstat) (a.mode.trans hr.mode) (a.paths.trans hr.paths) (a.cur.trans hr.cur) he hn ?_
  · rw [b n]
    unfold State.scalarsWith
    split
    · rfl
    · exact Group.sreg_congr hr.sc n
  · exact Group.vlane_congr (a.v.trans hr.v) n k
  · exact Group.preg_congr (a.p.trans hr.p) n
  · rw [a.laneCtr, a.scalarCtr]; exact hr.streams
/-- Vector results. -/
theorem vectors_computed {s r : State} {uses : List Use} {streams : Vector Word 64 × Word} (hr : Ready s r uses streams) {ds marked : List Nat}
    {f : Nat → List Word} {fl : Nat} {d : Done} {raised : Nat → LaneMask} {next : DWord} {V : Nat → Nat → Word} (hd : ds.Nodup) (h48 : ∀ n ∈ ds, n < 48)
    (hV : ∀ n k, V n k = if n ∈ ds then (if s.active.getLsbD k then (f k).getD (ds.idxOf n) 0 else s.me.vlane n k)
      else if n ∈ marked then 0 else s.me.vlane n k)
    (he : s.enabledFlags fl = 0) (hn : d.target.getD (s.pc + 4) = next) :
    Computed s ((((State.replaceRows marked ds (State.allocRows ds r)).writeResults s.active (perLane s.active f []) 0 ds).freeMarked marked ds).finish d fl raised)
      s.me.sreg V s.me.preg s.me.cm fl uses next streams := by
  obtain ⟨e1, e2, -, e4⟩ := State.allocRows_lanes ds r
  obtain ⟨b1, b2, b3⟩ := State.replaceRows_lanes marked ds (State.allocRows ds r)
  obtain ⟨c1, c2⟩ := State.writeResults_lanes s.active (perLane s.active f []) ds 0 (State.replaceRows marked ds (State.allocRows ds r)) hd
    fun d hd => by rw [b3]; exact e4 d hd (h48 d hd)
  obtain ⟨d1, d2⟩ := State.freeMarked_lanes marked ds
    ((State.replaceRows marked ds (State.allocRows ds r)).writeResults s.active (perLane s.active f []) 0 ds)
  have all := ((e1.trans b1).trans c1).trans d1
  refine State.finish_computed (all.others.trans hr.others) (all.special.trans hr.special) (fun n => ?_) (fun n k => ?_) (fun n => ?_)
    (all.cm.trans hr.cm) (all.fpsf.trans hr.fpsf) (all.gstat.trans hr.gstat) (all.mode.trans hr.mode) (all.paths.trans hr.paths)
    (all.cur.trans hr.cur) he hn ?_
  · exact Group.sreg_congr (all.sc.trans hr.sc) n
  · rw [d2 n k, c2 n k, b2, e2, Group.vlane_congr hr.v, hV]
    by_cases hn : n ∈ ds
    · rw [if_neg (fun h => h.2 hn), if_pos hn, if_pos hn]
      split
      · rename_i hk; rw [perLane_get _ _ _ _ _ hk, Nat.zero_add]
      · rfl
    · rw [if_neg hn, if_neg hn]
      by_cases hm : n ∈ marked
      · rw [if_pos ⟨hm, hn⟩, if_pos hm]
      · rw [if_neg (fun h => hm h.1), if_neg hm]
  · exact Group.preg_congr (all.p.trans hr.p) n
  · rw [all.laneCtr, all.scalarCtr]; exact hr.streams
/-- A computing instruction does what its description says, in both forms. -/
theorem computes_of_calc {i : Instr} {s : State} (c : Calc) (f : Nat → List Word × Nat) (hi : exec i s = .next (s.calc c))
    (hd : c.dests.Nodup) (hr : c.legal = true → ∀ n ∈ c.dests, if c.u then n < 64 else n < 48) (hlen : ∀ k, (f k).1.length = c.dests.length)
    (hf : ∀ k, c.f (s.seen (if c.u then c.uses else .exm :: c.uses)) k = f k) : Computes i s c.u c.legal c.uses c.dests c.marks c.size f c.draws := by
  intro hl hc
  have hchk : s.calc c = _ := State.checked_clear hl hc
  have hr := hr hl
  have htarget : ∀ r : State, r.pc = s.pc → (if c.size = 4 then none else some (r.pc + BitVec.ofNat 64 c.size)).getD (s.pc + 4) = s.pc + BitVec.ofNat 64 c.size := by
    intro r hpc
    split
    · rename_i h; rw [h]; rfl
    · rw [hpc]; rfl
  split
  · rename_i hu
    intro he
    simp only [hu, if_true] at hchk hf hr
    refine ⟨_, hi, ?_⟩
    rw [hchk]
    obtain ⟨-, -, -, -, -, -, -, -, s7, s8, -⟩ := State.seen_only s c.uses
    rw [hf 64]
    have hadv : (if c.draws = true then (s.seen c.uses).advance true 0 else s.seen c.uses)
        = if c.draws = true then (s.seen c.uses).advance true s.active else s.seen c.uses := by
      simp only [State.advance, if_true]
    rw [hadv, hu]
    exact scalars_computed (ready_advance s c.uses c.draws true) hd (hlen 64).symm hr he (htarget _ (State.pc_congr s7 s8))
  · rename_i hu
    intro hrows he
    simp only [hu, Bool.false_eq_true, if_false] at hchk hf hr
    refine ⟨_, hi, ?_⟩
    rw [hchk]
    obtain ⟨-, -, -, -, -, -, -, -, s7, s8, sa, sm, -⟩ := State.seen_only s (.exm :: c.uses)
    simp only [sa, sm, State.seen_rowsFor, hrows, Bool.not_true, Bool.false_eq_true, if_false, perLane_map, hf, hu]
    exact vectors_computed (ready_advance s (.exm :: c.uses) c.draws false) hd hr (fun _ _ => rfl) he (htarget _ (State.pc_congr s7 s8))

end Sys2Proof.Machine
end

