-- ==== Sys2Proof/Laws/Compare.lean ====
section
/-! SUPPORT. Lane masks from tests, and what compares and predicate operations do once nothing keeps them from their effect. -/

namespace Sys2Proof.Machine

/-! ### Masks from tests -/

theorem maskSum_add (f : Nat → Bool) (l : List Nat) (c : Nat) :
    l.foldr (fun k n => (if f k then 2 ^ k else 0) + n) c = l.foldr (fun k n => (if f k then 2 ^ k else 0) + n) 0 + c := by
  induction l with
  | nil => simp
  | cons a l ih => simp only [List.foldr_cons, ih]; omega
theorem maskSum_lt (f : Nat → Bool) (n : Nat) : (List.range n).foldr (fun k m => (if f k then 2 ^ k else 0) + m) 0 < 2 ^ n := by
  induction n with
  | zero => simp
  | succ n ih =>
    rw [List.range_succ, List.foldr_append, maskSum_add, Nat.pow_succ]
    simp only [List.foldr_cons, List.foldr_nil]
    split <;> omega
theorem maskSum_testBit (f : Nat → Bool) (n j : Nat) :
    ((List.range n).foldr (fun k m => (if f k then 2 ^ k else 0) + m) 0).testBit j = (decide (j < n) && f j) := by
  induction n with
  | zero => simp
  | succ n ih =>
    rw [List.range_succ, List.foldr_append, maskSum_add]
    simp only [List.foldr_cons, List.foldr_nil, Nat.add_zero]
    have hl := maskSum_lt f n
    by_cases hf : f n
    · rw [if_pos hf, Nat.add_comm]
      by_cases hj : j = n
      · subst hj
        rw [Nat.testBit_two_pow_add_eq, ih]
        simp [hf]
      · by_cases hlt : j < n
        · rw [Nat.testBit_two_pow_add_gt hlt, ih]
          simp [hlt, Nat.lt_succ_of_lt hlt]
        · have hgt : n + 1 ≤ j := by omega
          have : 2 ^ n + (List.range n).foldr (fun k m => (if f k then 2 ^ k else 0) + m) 0 < 2 ^ j :=
            Nat.lt_of_lt_of_le (by rw [Nat.pow_succ]; omega : _ < 2 ^ (n + 1)) (Nat.pow_le_pow_right (by decide) hgt)
          rw [Nat.testBit_lt_two_pow this]
          have : ¬ j < n + 1 := by omega
          simp [this]
    · rw [if_neg hf, Nat.add_zero, ih]
      by_cases hj : j = n
      · subst hj; simp [hf]
      · have : (j < n) = (j < n + 1) := by simp only [eq_iff_iff]; omega
        simp [this]
theorem maskOf_getLsbD (f : Nat → Bool) (k : Nat) : (maskOf f).getLsbD k = (decide (k < 64) && f k) := by
  unfold maskOf
  rw [BitVec.getLsbD_ofNat, maskSum_testBit]
  simp
theorem mask_ext {a b : LaneMask} (h : ∀ k, k < 64 → a.getLsbD k = b.getLsbD k) : a = b := BitVec.eq_of_getLsbD_eq h

/-! ### Predicates and CM -/

theorem Group.preg_setP (g : Group) (n m : Nat) (x : LaneMask) (hn : n < 12) : (g.setP n x).preg m = if m = n then x else g.preg m := by
  unfold Group.setP Group.preg
  rw [dif_pos hn]
  by_cases h : m = n
  · subst h; simp [hn]
  · simp [h, Ne.symm h]
theorem State.freeMarked_only (s : State) (marked dests : List Nat) : VectorsOnly s (s.freeMarked marked dests) := (State.freeMarked_lanes marked dests s).1

/-- A compare does what its description says, in both forms. -/
theorem decides_of_compare {i : Instr} {s : State} (c : Compare) (f : Nat → Bool × Nat) (hi : exec i s = .next (s.compare c))
    (hd : c.legal = true → c.u = false → c.d < 6) (hf : ∀ k, c.f (s.seen (if c.u then c.uses else .exm :: c.uses)) k = f k) :
    Decides i s c.u c.legal c.uses c.d c.marks f := by
  intro hl hc
  have hchk : s.compare c = _ := State.checked_clear hl hc
  have hd := hd hl
  split
  · rename_i hu
    intro he
    simp only [hu, if_true] at hchk hf
    refine ⟨_, hi, ?_⟩
    rw [hchk]
    obtain ⟨so, ss, s1, s2, s3, s4, s5, s6, s7, s8, -, -, sl, sk⟩ := State.seen_only s c.uses
    rw [hf 64]
    refine State.finish_computed so ss (fun n => Group.sreg_congr s1 n) (fun n k => Group.vlane_congr s2 n k) (fun n => Group.preg_congr s3 n)
      ?_ s5 rfl s6 s7 s8 he rfl (Prod.ext sl sk)
    show setBits (s.seen c.uses).me.cm c.d 1 _ = _
    rw [s4]; rfl
  · rename_i hu
    intro he
    simp only [hu, Bool.false_eq_true, if_false] at hchk hf
    have hd := hd (by simpa using hu)
    refine ⟨_, hi, ?_⟩
    rw [hchk]
    obtain ⟨so, ss, s1, s2, s3, s4, s5, s6, s7, s8, sa, sm, sl, sk⟩ := State.seen_only s (.exm :: c.uses)
    have hyes : (maskOf fun k => ((perLane s.active (c.f (s.seen (.exm :: c.uses))) (false, 0)).getD k (false, 0)).1)
        = maskOf fun k => s.active.getLsbD k && (f k).1 := by
      apply mask_ext
      intro k hk
      rw [maskOf_getLsbD, maskOf_getLsbD]
      congr 1
      cases ha : s.active.getLsbD k with
      | true => rw [perLane_get _ _ _ _ _ ha, hf]; rfl
      | false =>
        unfold perLane
        rw [List.getD_eq_getElem?_getD, List.getElem?_map, List.getElem?_range hk]
        simp [ha]
    simp only [sa, sm, perLane_map, hf] at *
    rw [hyes]
    let s1 := (s.seen (.exm :: c.uses)).withMe fun g =>
        (g.setP (2 * c.d) ((g.preg (2 * c.d) &&& ~~~s.active) ||| ((maskOf fun k => s.active.getLsbD k && (f k).1) &&& s.active))).setP (2 * c.d + 1)
          ((g.preg (2 * c.d + 1) &&& ~~~s.active) ||| (~~~(maskOf fun k => s.active.getLsbD k && (f k).1) &&& s.active))
    obtain ⟨d1, d2⟩ := State.freeMarked_lanes (s.marks c.marks) [] s1
    have hsp : ∀ (g : Group) n x, (g.setP n x).special = g.special := fun g n x => by unfold Group.setP; split <;> rfl
    refine State.finish_computed (d1.others.trans so) (d1.special.trans ?_) (fun n => ?_) (fun n k => ?_) (fun n => ?_)
      (d1.cm.trans ?_) (d1.fpsf.trans ?_) (d1.gstat.trans ?_) (d1.mode.trans ?_) (d1.paths.trans ?_) (d1.cur.trans ?_) he rfl (Prod.ext (d1.laneCtr.trans ?_) (d1.scalarCtr.trans ?_))
    · exact (hsp _ _ _).trans ((hsp _ _ _).trans ss)
    · have : ((s1.freeMarked (s.marks c.marks) []).me.s) = s.me.s := d1.sc.trans (by simpa [s1] using ‹(s.seen (.exm :: c.uses)).me.s = s.me.s›)
      exact Group.sreg_congr this n
    · rw [d2]
      have : s1.me.vlane n k = s.me.vlane n k := Group.vlane_congr (by simpa [s1] using s2) n k
      simp only [State.vectorsLess, List.not_mem_nil, not_false_iff, and_true, this]
    · have hp : (s1.freeMarked (s.marks c.marks) []).me.preg n = s1.me.preg n := Group.preg_congr d1.p n
      rw [hp]
      show Group.preg (Group.setP _ _ _) n = _
      rw [Group.preg_setP _ _ _ _ (by omega), Group.preg_setP _ _ _ _ (by omega)]
      have hq : ∀ m, (s.seen (.exm :: c.uses)).me.preg m = s.me.preg m := fun m => Group.preg_congr s3 m
      simp only [hq]
      unfold State.predsWith
      by_cases h1 : n = 2 * c.d + 1
      · subst h1; simp
      · by_cases h2 : n = 2 * c.d
        · subst h2; simp
        · simp [h1, h2]
    · simpa [s1] using s4
    · simpa [s1] using s5
    · simp [s1]
    · simpa [s1] using s6
    · simpa [s1] using s7
    · simpa [s1] using s8
    · simpa [s1] using sl
    · simpa [s1] using sk

end Sys2Proof.Machine
end

