-- ==== Sys2Proof/Laws/Forms.lean ====
section
/-! SUPPORT. The forms of computing instructions: one lemma per form, from what an instruction's meaning is. -/

namespace Sys2Proof.Machine

theorem vr_lt {d : BitVec 6} (h : vr d = true) : d.toNat < 48 := by simpa [vr, small] using h
theorem rd_lt {u : Bool} {d : BitVec 6} (h : rd u d = true) : if u then d.toNat < 64 else d.toNat < 48 := by
  cases u with
  | true => exact d.isLt
  | false => exact vr_lt (by simpa [rd] using h)
theorem pr_lt {u : Bool} {d : BitVec 6} (h : pr u d = true) : ∀ n ∈ [d.toNat, d.toNat + 1], if u then n < 64 else n < 48 := by
  simp only [pr, even, Bool.and_eq_true, beq_iff_eq, Bool.or_eq_true] at h
  intro n hn
  simp only [List.mem_cons, List.not_mem_nil, or_false] at hn
  have := d.isLt
  cases u with
  | true => simp only [if_true]; rcases hn with rfl | rfl <;> omega
  | false =>
    have h48 : d.toNat < 48 := by rcases h.2 with h | h; · cases h
                                  · exact vr_lt h
    simp only [Bool.false_eq_true, if_false]; rcases hn with rfl | rfl <;> omega
theorem one_lt {u : Bool} {d : BitVec 6} (h : rd u d = true) : ∀ n ∈ [d.toNat], if u then n < 64 else n < 48 := by
  intro n hn; rw [List.mem_singleton.mp hn]; exact rd_lt h
theorem one_nodup (n : Nat) : [n].Nodup := by simp
theorem pair_nodup (n : Nat) : [n, n + 1].Nodup := by simp
/-- A value that does not look at GSTAT is the same in the state that `seen` gives. -/
theorem State.seen_same {α : Type} (F : State → α) (h : ∀ s a b, F (State.gap s a b) = F s) (s : State) (us : List Use) : F (s.seen us) = F s := by
  obtain ⟨a, b, e⟩ := s.seen_me us
  rw [e]; exact h s a b

theorem State.word_gap (s : State) (a : Word) (b : Bool) (x : Src) (k : Nat) : (s.gap a b).word x k = s.word x k := rfl
/-- Completing without flags. -/
theorem State.finish_zero (r : State) (d : Done) (g : Nat → LaneMask) : r.finish d 0 g = r.retire d := by
  have h : r.setFlags 0 = r := by
    have : ({ r.me with fpsf := r.me.fpsf ||| BitVec.ofNat 32 0 } : Group) = r.me := by
      rw [show r.me.fpsf ||| BitVec.ofNat 32 0 = r.me.fpsf by simp]
    show ({ r with me := { r.me with fpsf := r.me.fpsf ||| BitVec.ofNat 32 0 } } : State) = r
    rw [this]
  unfold State.finish
  rw [h, if_pos (by unfold State.enabledFlags; simp)]
theorem State.enabledFlags_zero (s : State) : s.enabledFlags 0 = 0 := by unfold State.enabledFlags; simp

theorem unary_of {mk : BitVec 6 → BitVec 6 → BitVec 2 → Bool → Bool → Instr} {ok : State → Bool} {f : State → Bool → Nat → Word → Word × Nat}
    (per cls : Nat) (draws : State → Bool)
    (hi : ∀ s d a w u x, exec (mk d a w u x) s = .next (s.una (ok s) d a w u x per cls (draws s) fun s k p => f s u k p))
    (hf : ∀ (s : State) a b u k p, f (s.gap a b) u k p = f s u k p) : UnaryForm mk ok f draws := by
  intro s d a w u x
  have := computes_of_calc (s := s) _ (fun k => ([(f s u k (s.word (srcA u a) k)).1], (f s u k (s.word (srcA u a) k)).2)) (hi s d a w u x)
    (one_nodup _) (fun hl => one_lt (by simp only [Bool.and_eq_true] at hl; exact hl.1.1.1)) (fun _ => rfl)
    (fun k => State.seen_same (fun s => ([(f s u k (s.word (srcA u a) k)).1], (f s u k (s.word (srcA u a) k)).2))
      (fun s a' b => by simp only [State.word_gap, hf]) s _)
  exact this
theorem binary_of {mk : BitVec 6 → BitVec 6 → BitVec 6 → BitVec 2 → Bool → Bool → Bool → Instr} {ok : State → Bool}
    {f : State → Bool → Nat → Word → Word → Word × Nat} (per cls : Nat) (draws : State → Bool)
    (hi : ∀ s d a b w u x y, exec (mk d a b w u x y) s = .next (s.bin (ok s) d a b w u x y per cls (draws s) fun s k p q => f s u k p q))
    (hf : ∀ (s : State) a b u k p q, f (s.gap a b) u k p q = f s u k p q) : BinaryForm mk ok f draws := by
  intro s d a b w u x y
  have := computes_of_calc (s := s) _ (fun k => ([(f s u k (s.word (srcA u a) k) (s.word (srcB u b) k)).1], (f s u k (s.word (srcA u a) k) (s.word (srcB u b) k)).2))
    (hi s d a b w u x y) (one_nodup _) (fun hl => one_lt (by simp only [Bool.and_eq_true] at hl; exact hl.1.1.1.1)) (fun _ => rfl)
    (fun k => State.seen_same (fun s => ([(f s u k (s.word (srcA u a) k) (s.word (srcB u b) k)).1], (f s u k (s.word (srcA u a) k) (s.word (srcB u b) k)).2))
      (fun s a' b' => by simp only [State.word_gap, hf]) s _)
  exact this
theorem ternary_of {mk : BitVec 6 → BitVec 6 → BitVec 6 → BitVec 2 → Bool → Bool → Bool → Bool → Instr} {ok : State → Bool}
    {f : State → Bool → Nat → Word → Word → Word → Word × Nat} (per cls : Nat) (draws : State → Bool)
    (hi : ∀ s d a b w u x y z, exec (mk d a b w u x y z) s = .next (s.tri (ok s) d a b w u x y z per cls (draws s) fun s k p q r => f s u k p q r))
    (hf : ∀ (s : State) a b u k p q r, f (s.gap a b) u k p q r = f s u k p q r) : TernaryForm mk ok f draws := by
  intro s d a b w u x y z
  have := computes_of_calc (s := s) _ (fun k => ([(f s u k (s.word (srcA u a) k) (s.word (srcB u b) k) (s.word (srcA u d) k)).1],
      (f s u k (s.word (srcA u a) k) (s.word (srcB u b) k) (s.word (srcA u d) k)).2))
    (hi s d a b w u x y z) (one_nodup _) (fun hl => one_lt (by simp only [Bool.and_eq_true] at hl; exact hl.1.1.1.1.1)) (fun _ => rfl)
    (fun k => State.seen_same (fun s => ([(f s u k (s.word (srcA u a) k) (s.word (srcB u b) k) (s.word (srcA u d) k)).1],
        (f s u k (s.word (srcA u a) k) (s.word (srcB u b) k) (s.word (srcA u d) k)).2))
      (fun s a' b' => by simp only [State.word_gap, hf]) s _)
  exact this
theorem immediate_of {mk : BitVec 6 → BitVec 6 → Bool → BitVec 11 → Instr} {ok : BitVec 11 → Bool} {f : BitVec 11 → Word → Word}
    (hi : ∀ s d a u i, exec (mk d a u i) s = .next (s.imm (ok i) d a u (f i))) : ImmediateForm mk ok f := by
  intro s d a u i
  have := computes_of_calc (s := s) _ (fun k => ([f i (s.word (srcA u a) k)], 0)) (hi s d a u i)
    (one_nodup _) (fun hl => one_lt (by simp only [Bool.and_eq_true] at hl; exact hl.1.1)) (fun _ => rfl)
    (fun k => State.seen_same (fun s => ([f i (s.word (srcA u a) k)], 0)) (fun _ _ _ => rfl) s _)
  exact this
theorem pairs_of {mk : BitVec 6 → BitVec 6 → BitVec 6 → BitVec 2 → Bool → Bool → Bool → Instr} {f : Fp → Fp → Fp → Fp → List Word × Nat}
    (per cls : Nat) (hi : ∀ s d a b w u x y, exec (mk d a b w u x y) s = s.dwPP d a b w u x y per cls f) (hl : ∀ a b c d, (f a b c d).1.length = 2) :
    PairForm mk f := by
  intro s d a b w u x y
  have := computes_of_calc (s := s) _ (fun k => f (s.fval (srcA u a) k) (s.fval ((srcA u a).plus 1) k) (s.fval (srcA u b) k) (s.fval ((srcA u b).plus 1) k))
    (hi s d a b w u x y) (pair_nodup _) (fun hl => pr_lt (by simp only [Bool.and_eq_true] at hl; exact hl.1.1.1.1)) (fun _ => hl ..)
    (fun k => State.seen_same (fun s => f (s.fval (srcA u a) k) (s.fval ((srcA u a).plus 1) k) (s.fval (srcA u b) k) (s.fval ((srcA u b).plus 1) k))
      (fun _ _ _ => rfl) s _)
  exact this
theorem pairWord_of {mk : BitVec 6 → BitVec 6 → BitVec 6 → BitVec 2 → Bool → Bool → Bool → Instr} {f : Fp → Fp → Fp → List Word × Nat}
    (hi : ∀ s d a b w u x y, exec (mk d a b w u x y) s = s.dwPF d a b w u x y f) (hl : ∀ a b c, (f a b c).1.length = 2) : PairWordForm mk f := by
  intro s d a b w u x y
  have := computes_of_calc (s := s) _ (fun k => f (s.fval (srcA u a) k) (s.fval ((srcA u a).plus 1) k) (s.fval (srcB u b) k))
    (hi s d a b w u x y) (pair_nodup _) (fun hl => pr_lt (by simp only [Bool.and_eq_true] at hl; exact hl.1.1.1)) (fun _ => hl ..)
    (fun k => State.seen_same (fun s => f (s.fval (srcA u a) k) (s.fval ((srcA u a).plus 1) k) (s.fval (srcB u b) k)) (fun _ _ _ => rfl) s _)
  exact this
theorem pairUnary_of {mk : BitVec 6 → BitVec 6 → BitVec 2 → Bool → Bool → Instr} {f : Fp → Fp → List Word × Nat} (per cls : Nat)
    (hi : ∀ s d a w u x, exec (mk d a w u x) s = s.dwP d a w u x per cls f) (hl : ∀ a b, (f a b).1.length = 2) : PairUnaryForm mk f := by
  intro s d a w u x
  have := computes_of_calc (s := s) _ (fun k => f (s.fval (srcA u a) k) (s.fval ((srcA u a).plus 1) k))
    (hi s d a w u x) (pair_nodup _) (fun hl => pr_lt (by simp only [Bool.and_eq_true] at hl; exact hl.1.1)) (fun _ => hl ..)
    (fun k => State.seen_same (fun s => f (s.fval (srcA u a) k) (s.fval ((srcA u a).plus 1) k)) (fun _ _ _ => rfl) s _)
  exact this
theorem address_of {i : Instr} {s : State} {d a b : BitVec 6} {u x y : Bool} {f : DWord → Word → DWord} (w : BitVec 2) (cls : Nat)
    (hi : exec i s = .next (s.address d a b u w x y cls f)) : AddressForm i s d a b u x y f := by
  have := computes_of_calc (s := s) _
    (fun k => ([lo32 (f (s.dword (srcA u a) k) (s.word (srcB u b) k)), hi32 (f (s.dword (srcA u a) k) (s.word (srcB u b) k))], 0))
    hi (pair_nodup _) (fun hl => pr_lt (by simp only [Bool.and_eq_true] at hl; exact hl.1.1.1)) (fun _ => rfl)
    (fun k => State.seen_same (fun s => ([lo32 (f (s.dword (srcA u a) k) (s.word (srcB u b) k)), hi32 (f (s.dword (srcA u a) k) (s.word (srcB u b) k))], 0))
      (fun _ _ _ => rfl) s _)
  exact this

/-! ### Compares -/

theorem cd_lt {u : Bool} {d : BitVec 6} (h : cd u d = true) (hu : u = false) : d.toNat < 6 := by subst hu; simpa [cd, small] using h
theorem compare_of {mk : BitVec 6 → BitVec 6 → BitVec 6 → BitVec 2 → Bool → Bool → Bool → Instr} {ok : State → Bool} {f : State → Word → Word → Bool × Nat}
    (hi : ∀ s d a b w u x y, exec (mk d a b w u x y) s = .next (s.cmp (ok s) d a b w u x y f))
    (hf : ∀ (s : State) a b p q, f (s.gap a b) p q = f s p q) : CompareForm mk ok f := by
  intro s d a b w u x y
  have := decides_of_compare (s := s) _ (fun k => f s (s.word (srcA u a) k) (s.word (srcB u b) k)) (hi s d a b w u x y)
    (fun hl => cd_lt (by simp only [Bool.and_eq_true] at hl; exact hl.1.1.1.1))
    (fun k => State.seen_same (fun s => f s (s.word (srcA u a) k) (s.word (srcB u b) k))
      (fun s a' b' => by simp only [State.word_gap, hf]) s _)
  exact this
theorem compareImmediate_of {mk : BitVec 6 → BitVec 6 → Bool → BitVec 11 → Instr} {f : BitVec 11 → Word → Bool}
    (hi : ∀ s d a u i, exec (mk d a u i) s = s.icmpi d a u (f i)) : CompareImmediateForm mk f := by
  intro s d a u i
  have := decides_of_compare (s := s) _ (fun k => (f i (s.word (srcA u a) k), 0)) (hi s d a u i)
    (fun hl => cd_lt (by simp only [Bool.and_eq_true] at hl; exact hl.1))
    (fun k => State.seen_same (fun s => (f i (s.word (srcA u a) k), 0)) (fun _ _ _ => rfl) s _)
  exact this
theorem comparePair_of {mk : BitVec 6 → BitVec 6 → BitVec 6 → BitVec 2 → Bool → Bool → Bool → Instr} {f : Fp → Fp → Bool × Nat}
    (hi : ∀ s d a b w u x y, exec (mk d a b w u x y) s = s.dwCmp d a b w u x y f) : ComparePairForm mk f := by
  intro s d a b w u x y
  have := decides_of_compare (s := s) _
    (fun k => f (pairValue (s.fval (srcA u a) k) (s.fval ((srcA u a).plus 1) k)) (pairValue (s.fval (srcA u b) k) (s.fval ((srcA u b).plus 1) k)))
    (hi s d a b w u x y) (fun hl => cd_lt (by simp only [Bool.and_eq_true] at hl; exact hl.1.1.1.1))
    (fun k => State.seen_same (fun s => f (pairValue (s.fval (srcA u a) k) (s.fval ((srcA u a).plus 1) k))
      (pairValue (s.fval (srcA u b) k) (s.fval ((srcA u b).plus 1) k))) (fun _ _ _ => rfl) s _)
  exact this
theorem predicate_of {mk : BitVec 6 → BitVec 6 → BitVec 6 → BitVec 2 → Bool → Instr} {g : LaneMask → LaneMask → LaneMask} {f : Bool → Bool → Bool}
    (hi : ∀ s d a b w u, exec (mk d a b w u) s = s.predOp d a b w u g) (hg : ∀ x y k, k < 64 → (g x y).getLsbD k = f (x.getLsbD k) (y.getLsbD k)) :
    PredicateForm mk f := by
  intro s d a b w u hl hc
  have hk := State.checked_clear (k := fun s =>
    if u then
      (s.putCMBit d.toNat (bit (g (ofBool (bit s.cmNow a.toNat)) (ofBool (bit s.cmNow b.toNat))) 0) (1 + clsSIMPLE)).retire { stall := stallOf w }
    else
      (s.withMe fun m => m.setP d.toNat ((m.preg d.toNat &&& ~~~s.active) ||| (g (s.me.preg a.toNat) (s.me.preg b.toNat) &&& s.active))).retire
        { beats := beatsOf s.active, stall := stallOf w }) hl hc
  have hnone : ∀ us : List Use, (∀ x ∈ us, x = .cmBit a.toNat ∨ x = .cmBit b.toNat ∨ x = .exm) → s.seen us = s := by
    intro us h
    unfold State.seen State.unmapped
    rw [if_neg]
    simp only [List.any_eq_true, not_exists, not_and, Bool.not_eq_true]
    intro x hx
    rcases h x hx with rfl | rfl | rfl <;> rfl
  have hi := hi s d a b w u
  have h2 := congrArg (fun x => (Host.Outcome.next x : Out)) hk
  cases u with
  | true =>
    rw [hnone _ (by simp)] at h2
    refine ⟨_, hi.trans h2, ?_⟩
    have hb : bit (g (ofBool (bit s.cmNow a.toNat)) (ofBool (bit s.cmNow b.toNat))) 0 = f (bit s.cmNow a.toNat) (bit s.cmNow b.toNat) := by
      show (g _ _).getLsbD 0 = _
      rw [hg _ _ _ (by decide)]
      congr 1 <;> · unfold ofBool; split <;> simp_all
    simp only [if_true, hb]
    rw [← State.finish_zero _ _ fun _ => 0]
    refine State.finish_computed rfl rfl (fun _ => rfl) (fun _ _ => rfl) (fun _ => rfl) rfl rfl ?_ rfl rfl rfl (State.enabledFlags_zero _) rfl rfl
    rw [hnone _ (by simp)]; rfl
  | false =>
    simp only [Bool.false_eq_true, if_false] at h2
    rw [hnone _ (by simp)] at h2
    refine ⟨_, hi.trans h2, ?_⟩
    have hd : d.toNat < 12 := by simp only [pd, small, Bool.false_or, Bool.and_eq_true, decide_eq_true_eq] at hl; exact hl.1.1
    have hm : ∀ x y : LaneMask, g x y = maskOf fun k => f (x.getLsbD k) (y.getLsbD k) := by
      intro x y
      apply mask_ext
      intro k hk
      rw [maskOf_getLsbD, hg _ _ _ hk]
      simp [hk]
    simp only [hm]
    rw [← State.finish_zero _ _ fun _ => 0]
    refine State.finish_computed rfl ?_ (fun _ => Group.sreg_congr (by simp) _) (fun _ _ => Group.vlane_congr (by simp) _ _) (fun n => ?_) (by simp) (by simp) ?_
      (by simp) (by simp) (by simp) (State.enabledFlags_zero _) rfl (by simp)
    · simp only [State.withMe_me]; unfold Group.setP; split <;> rfl
    · simp only [State.withMe_me]; rw [Group.preg_setP _ _ _ _ hd]
      by_cases h : n = d.toNat
      · subst h; rfl
      · rw [if_neg h, if_neg h]
    · rw [hnone _ (by simp)]; simp

end Sys2Proof.Machine
end

