-- ==== Sys2Proof/Laws/Control.lean ====
section
/-! SUPPORT. Control transfer: what completing, opening a scope and splitting a path do. -/

namespace Sys2Proof.Machine

/-- Reads of vector names are the only ones that may set UNMAPPED. -/
def Use.isVector : Use → Bool
  | .v _ | .nbL _ | .nbR _ | .vw _ => true
  | _ => false
theorem State.seen_none {s : State} {us : List Use} (h : ∀ x ∈ us, x.isVector = false) : s.seen us = s := by
  unfold State.seen State.unmapped
  rw [if_neg]
  simp only [List.any_eq_true, not_exists, not_and, Bool.not_eq_true]
  intro x hx
  have := h x hx
  cases x <;> simp_all [Use.isVector]
/-- An instruction that reads no vector name and that nothing keeps from its own effect has it. -/
theorem State.checked_own {s : State} {legal once : Bool} {uses : List Use} {k : State → State} (hl : legal = true) (hc : s.clear once uses = true)
    (hv : ∀ x ∈ uses, x.isVector = false) : s.checked legal once uses k = k s := by
  rw [State.checked_clear hl hc, State.seen_none]
  intro x hx
  cases once with
  | true => exact hv x hx
  | false =>
    rcases List.mem_cons.mp hx with rfl | h
    · rfl
    · exact hv x h
theorem State.once_own {s : State} {legal : Bool} {uses : List Use} {w : BitVec 2} {f : State → State} (hl : legal = true) (hc : s.clear true uses = true)
    (hv : ∀ x ∈ uses, x.isVector = false) : s.once legal uses w f = (f s).retire { stall := stallOf w } := State.checked_own hl hc hv
/-- Completing changes no register. -/
theorem State.retire_kept (s : State) (d : Done) : Kept s (s.retire d) :=
  ⟨by simp, by simp, by simp, by simp, by simp, by simp, by simp, by simp, by simp, by simp, State.sameMemory_of_others (by simp)⟩
theorem State.retire_moves (s : State) (d : Done) : Moves s (s.retire d) (d.target.getD (s.pc + 4)) := ⟨s.retire_kept d, s.retire_goes d⟩
theorem testUse_plain (p : BitVec 4) : ∀ x ∈ testUse p, x.isVector = false := by
  unfold testUse; split <;> simp [Use.isVector]

/-! ### Paths after completing -/

/-- The group once an instruction is charged: its paths no longer remember the issuing path in their yields. -/
theorem State.charged_path? (s : State) (m : Nat) : ((s.count {}).charge {}).me.path? m =
    if m = s.me.cur then
      (s.me.path? m).map fun q => { (q : Path) with wait := none, holdAsked := if q.stepping then some 3 else q.holdAsked, stepping := false, yields := q.yields.filter (· != s.me.cur) }
    else (s.me.path? m).map fun q => { q with yields := q.yields.filter (· != s.me.cur) } := by
  have h1 : ((s.count {}).charge {}).me.path? m = (s.count {}).me.noteIssue.path? m := rfl
  have h2 : (s.count {}).me = s.me.setPath s.me.cur fun p => { p with wait := none, holdAsked := if p.stepping then some 3 else p.holdAsked, stepping := false } := rfl
  rw [h1, Group.path?_noteIssue, h2, Group.path?_setPath, Group.setPath_cur]
  by_cases hm : m = s.me.cur
  · subst hm; simp only [if_true, Option.map_map]; rfl
  · simp only [if_neg hm]
theorem State.charged_cur (s : State) : ((s.count {}).charge {}).me.cur = s.me.cur := by simp [State.charge, State.count, Group.noteIssue]
theorem State.charged_still (s : State) : ((s.count {}).charge {}).me.s = s.me.s ∧ ((s.count {}).charge {}).me.v = s.me.v ∧ ((s.count {}).charge {}).me.p = s.me.p
    ∧ ((s.count {}).charge {}).me.cm = s.me.cm ∧ ((s.count {}).charge {}).me.fpsf = s.me.fpsf ∧ ((s.count {}).charge {}).me.gstat = s.me.gstat
    ∧ ((s.count {}).charge {}).me.laneCtr = s.me.laneCtr ∧ ((s.count {}).charge {}).me.scalarCtr = s.me.scalarCtr
    ∧ ((s.count {}).charge {}).me.special = s.me.special := by
  have h2 : (s.count {}).me = s.me.setPath s.me.cur fun p => { p with wait := none, holdAsked := if p.stepping then some 3 else p.holdAsked, stepping := false } := rfl
  refine ⟨?_, ?_, ?_, ?_, ?_, ?_, ?_, ?_, (State.charge_special _ _).trans (State.count_special _ _)⟩ <;> simp [State.charge, State.count, Group.noteIssue]
theorem Group.path?_addPath (g : Group) (n m : Nat) (p : Path) (hn : n < 8) : (g.addPath n p).path? m = if m = n then some p else g.path? m := by
  unfold Group.addPath Group.enter
  rw [if_pos hn, Group.path?_setEntry _ _ _ _ (by omega)]
  rfl
/-- Whatever a state's group does with its paths keeps the registers. -/
theorem Kept.of_still {s t : State} (hs : t.me.still = ((s.count {}).charge {}).me.still) (ho : t.others = s.others) : Kept s t := by
  obtain ⟨a, b, c, d, e, f, g, h, i⟩ := s.charged_still
  have key : ∀ {α : Type} (F : Group → α), (∀ g : Group, F g.still = F g) → F t.me = F ((s.count {}).charge {}).me := fun F hF => by
    rw [← hF, hs, hF]
  exact ⟨(key Group.s fun _ => rfl).trans a, (key Group.v fun _ => rfl).trans b, (key Group.p fun _ => rfl).trans c, (key Group.cm fun _ => rfl).trans d,
    (key Group.fpsf fun _ => rfl).trans e, (key Group.gstat fun _ => rfl).trans f, (key Group.laneCtr fun _ => rfl).trans g,
    (key Group.scalarCtr fun _ => rfl).trans h, (Group.special_of_still hs).trans i, ho, State.sameMemory_of_others ho⟩
/-- The paths of a group in which the issuing path becomes the owner of a scope. -/
theorem State.owner_path? {s : State} {p : Path} (hp : s.me.path? s.me.cur = some p) (f : Path → Path) (m : Nat) :
    (((s.count {}).charge {}).me.setPath s.me.cur f).path? m =
      if m = s.me.cur then some (f { p with wait := none, holdAsked := if p.stepping then some 3 else p.holdAsked, stepping := false, yields := p.yields.filter (· != s.me.cur) })
      else (s.me.path? m).map fun q => { q with yields := q.yields.filter (· != s.me.cur) } := by
  rw [Group.path?_setPath]
  by_cases hm : m = s.me.cur
  · subst hm
    rw [if_pos rfl, if_pos rfl, s.charged_path?, if_pos rfl, hp]; rfl
  · rw [if_neg hm, if_neg hm, s.charged_path?, if_neg hm]
theorem Group.loops_setEntry (g : Group) (n : Nat) (p : Option Path) : (g.setEntry n p).loops = g.loops := by unfold Group.setEntry; split <;> rfl
theorem Group.loops_setPath (g : Group) (n : Nat) (f : Path → Path) : (g.setPath n f).loops = g.loops := by
  unfold Group.setPath; split
  · exact Group.loops_setEntry ..
  · rfl
theorem Group.loops_addPath (g : Group) (n : Nat) (p : Path) : (g.addPath n p).loops = g.loops := by
  unfold Group.addPath Group.enter; split
  · exact (Group.loops_setEntry ..).trans rfl
  · exact (Group.loops_setEntry ..).trans rfl
/-- Opening a scope with a given child. -/
theorem State.opens_of {s : State} {q : Nat} {kind : ScopeKind} {start join : DWord} {child : Path} (hu : s.unspilled) (hq : s.me.path? q = none) (h8 : q < 8)
    (hj : pc56 start ≠ join) (hst : pc56 start = start) (h1 : child.join = some join) (h2 : child.parent = some s.me.cur) (h3 : child.state = .ready)
    {t : State} (ht : t = ((s.count {}).charge {}).withMe fun g =>
      (((g.setPath s.me.cur fun p => { p with state := .joined, kind := kind, pc := join }).addPath q child).goto q start).refill 72) :
    Opens s t q child.member child.exm kind start join ∧ t.me.loops = s.me.loops := by
  obtain ⟨hsp, hcur⟩ := hu
  obtain ⟨p, hp⟩ := Option.isSome_iff_exists.mp hcur
  have hi := Group.path?_lt hp
  have hne : s.me.cur ≠ q := fun e => by rw [← e, hp] at hq; cases hq
  have hown := State.owner_path? hp fun p => { p with state := .joined, kind := kind, pc := join }
  generalize hg1 : (((s.count {}).charge {}).me.setPath s.me.cur fun p => { p with state := .joined, kind := kind, pc := join }) = g1 at hown
  have hadd : ∀ m, (g1.addPath q child).path? m = if m = q then some child else g1.path? m := fun m => Group.path?_addPath g1 q m child h8
  have hgo : (g1.addPath q child).goto q start = (g1.addPath q child).setEntry q (some { child with pc := pc56 start }) := by
    unfold Group.goto
    rw [hadd q, if_pos rfl]
    dsimp only
    rw [if_neg (by simp [h1, Ne.symm hj])]
  have hsp3 : ∀ n, 8 ≤ n → ((g1.addPath q child).setEntry q (some { child with pc := pc56 start })).path? n = none := by
    intro n hn
    rw [Group.path?_setEntry _ _ _ _ (by omega), if_neg (by omega), hadd, if_neg (by omega), hown]
    have : n ≠ s.me.cur := fun e => by rw [← e, hsp n hn] at hp; cases hp
    rw [if_neg this, hsp n hn]; rfl
  have hme : t.me = (g1.addPath q child).setEntry q (some { child with pc := pc56 start }) := by
    rw [ht]
    show ((((((s.count {}).charge {}).me.setPath s.me.cur fun p => { p with state := .joined, kind := kind, pc := join }).addPath q child).goto q start).refill 72) = _
    rw [hg1, hgo, Group.refill_none _ _ hsp3]
  have hm : ∀ m, t.me.path? m = if m = q then some { child with pc := pc56 start } else g1.path? m := by
    intro m
    rw [hme, Group.path?_setEntry _ _ _ _ (by omega)]
    by_cases h : m = q
    · rw [if_pos h, if_pos h]
    · rw [if_neg h, if_neg h, hadd, if_neg h]
  refine ⟨⟨Kept.of_still ?_ ?_, ⟨{ child with pc := pc56 start }, by rw [hm, if_pos rfl], hst, rfl, rfl, h1, h2, h3⟩,
    ⟨_, by rw [hm, if_neg hne, hown, if_pos rfl], rfl, rfl, rfl⟩, fun n hnq hni => by rw [hm, if_neg hnq, hown, if_neg hni]⟩, ?_⟩
  · rw [hme, Group.still_setEntry, Group.still_addPath, ← hg1, Group.still_setPath]
  · rw [ht]; simp
  · rw [hme, Group.loops_setEntry, Group.loops_addPath, ← hg1, Group.loops_setPath]
    exact Group.loops_setPath ..
/-- Opening a scope. -/
theorem State.openScope_opens {s : State} {q : Nat} {kind : ScopeKind} {start join : DWord} (hu : s.unspilled) (hq : s.me.path? q = none) (h8 : q < 8)
    (hj : pc56 start ≠ join) (hst : pc56 start = start) : Opens s (s.openScope q kind start join) q s.path.member s.exm kind start join
      ∧ (s.openScope q kind start join).me.loops = s.me.loops :=
  State.opens_of (child := { pc := start, member := s.path.member, exm := s.exm, join := some join, parent := some s.me.cur }) hu hq h8 hj hst rfl rfl rfl rfl
theorem Group.freeEntries_none {g : Group} {q : Nat} (h : g.freeEntries.head? = some q) : g.path? q = none := by
  have := List.mem_of_mem_head? h
  unfold Group.freeEntries at this
  simp only [List.mem_filter, Option.isNone_iff_eq_none] at this
  exact this.2

/-! ### Addresses -/

theorem pc56_toNat (x : DWord) : (pc56 x).toNat = x.toNat % 2 ^ 56 := by
  unfold pc56
  rw [BitVec.toNat_and]
  exact Nat.and_two_pow_sub_one_eq_mod x.toNat 56
theorem pc56_idem (x : DWord) : pc56 (pc56 x) = pc56 x := by
  apply BitVec.eq_of_toNat_eq; rw [pc56_toNat, pc56_toNat]; omega

/-! ### Moving, and opening calls and loops -/

theorem sext18_eq (i : BitVec 18) : sext 18 i.toNat = i.signExtend 64 := by
  have h := i.isLt
  apply BitVec.eq_of_toNat_eq
  unfold sext
  rw [Nat.mod_eq_of_lt h, BitVec.toNat_signExtend, BitVec.msb_eq_decide]
  by_cases hm : i.toNat < 2 ^ (18 - 1)
  · have : ¬ 2 ^ (18 - 1) ≤ i.toNat := by omega
    simp only [hm, this, if_true, if_false, decide_false, Bool.false_eq_true]
    simp only [BitVec.toNat_ofNat, BitVec.toNat_setWidth]; omega
  · have : 2 ^ (18 - 1) ≤ i.toNat := by omega
    simp only [hm, this, if_true, if_false, decide_true]
    simp only [BitVec.toNat_ofNat, BitVec.toNat_setWidth]; omega
theorem State.jTarget_eq (s : State) (i : BitVec 18) : s.jTarget i = pc56 (s.pc + i.signExtend 64 * 4) := by
  unfold State.jTarget
  rw [sext18_eq, BitVec.shiftLeft_eq_mul_twoPow]; rfl
theorem next_of {x y : State} (h : x = y) : (Host.Outcome.next x : Out) = .next y := congrArg _ h
theorem head_of {α : Type} {l : List α} {q : α} (h : l.head? = some q) : ∃ r, l = q :: r := by
  cases l with
  | nil => cases h
  | cons a r => cases h; exact ⟨r, rfl⟩
theorem State.jTarget_idem (s : State) (i : BitVec 18) : pc56 (s.jTarget i) = s.jTarget i := pc56_idem _
theorem Moves.congr {s t : State} {a b : DWord} (h : Moves s t a) (e : pc56 a = pc56 b) : Moves s t b :=
  ⟨h.kept, fun h1 h2 => by
    have := h.goes h1 (by rw [e]; exact h2)
    exact ⟨this.1, this.2.trans e⟩⟩
theorem State.branch_moves (s : State) (c : Bool) (i : BitVec 18) : Moves s (s.branch c i) (if c then s.pc + i.signExtend 64 * 4 else s.pc + 4) := by
  unfold State.branch
  cases c
  · exact s.retire_moves {}
  · exact (s.retire_moves _).congr (by show pc56 (s.jTarget i) = _; rw [State.jTarget_eq, pc56_idem]; rfl)
theorem Kept.loops {s t : State} {f : Group → Vector LoopCtr 3} (h : Kept (s.withMe fun g => { g with loops := f g }) t) : Kept s t :=
  ⟨h.1, h.2, h.3, h.4, h.5, h.6, h.7, h.8, h.9, h.10, h.11⟩
theorem Kept.of_special {s t r : State} (h : Kept s r) (h1 : t.me.s = r.me.s) (h2 : t.me.v = r.me.v) (h3 : t.me.p = r.me.p) (h4 : t.me.cm = r.me.cm)
    (h5 : t.me.fpsf = r.me.fpsf) (h6 : t.me.gstat = r.me.gstat) (h7 : t.me.laneCtr = r.me.laneCtr) (h8 : t.me.scalarCtr = r.me.scalarCtr)
    (h9 : t.me.special = r.me.special) (h10 : t.others = r.others) : Kept s t :=
  ⟨h1.trans h.1, h2.trans h.2, h3.trans h.3, h4.trans h.4, h5.trans h.5, h6.trans h.6, h7.trans h.7, h8.trans h.8, h9.trans h.9, h10.trans h.10,
    State.sameMemory_of_others (h10.trans h.10)⟩
theorem State.yield_kept (r : State) (cur : Nat) (f : Path → Path) : Kept r (r.withMe fun g => { g.setPath cur f with yielded := true }) := by
  refine ⟨?_, ?_, ?_, ?_, ?_, ?_, ?_, ?_, ?_, rfl, State.sameMemory_of_others rfl⟩
  · exact Group.setPath_s ..
  · exact Group.setPath_v ..
  · exact Group.setPath_p ..
  · exact Group.setPath_cm ..
  · exact Group.setPath_fpsf ..
  · exact Group.setPath_gstat ..
  · exact Group.setPath_laneCtr ..
  · exact Group.setPath_scalarCtr ..
  · have h : (r.me.setPath cur f).special = r.me.special := Group.special_of_still (Group.still_setPath ..)
    exact h
theorem Kept.trans {s t r : State} (a : Kept s t) (b : Kept t r) : Kept s r :=
  b.of_special rfl rfl rfl rfl rfl rfl rfl rfl rfl rfl |> fun b => ⟨b.1.trans a.1, b.2.trans a.2, b.3.trans a.3, b.4.trans a.4, b.5.trans a.5, b.6.trans a.6, b.7.trans a.7, b.8.trans a.8,
    b.9.trans a.9, b.10.trans a.10, State.sameMemory_of_others (b.10.trans a.10)⟩
theorem State.callTo_opens {s : State} {tk : LaneMask} {t : DWord} {q : Nat} (h0 : tk ≠ 0) (hr : s.path.member &&& ~~~tk = 0) (hu : s.unspilled) (hq : s.me.freeEntries.head? = some q)
    (h8 : q < 8) (ht : pc56 t = t) (hj : t ≠ pc56 (s.pc + 4)) : Opens s (s.callTo tk t) q tk tk .call t (pc56 (s.pc + 4)) := by
  obtain ⟨r, hf⟩ := head_of hq
  have hn := Group.freeEntries_none hq
  refine (State.opens_of (child := { pc := t, member := tk, exm := tk, join := some (pc56 (s.pc + 4)), parent := some s.me.cur, notBefore := s.now + 3 }) hu hn h8 (by rw [ht]; exact hj) ht
    rfl rfl rfl ?_).1
  unfold State.callTo
  simp only [if_neg h0, hf, hr, decide_true]
theorem Opens.slow {s t : State} {q : Nat} {m e : LaneMask} {k : ScopeKind} {a b : DWord} (h : Opens s t q m e k a b) (w : Nat) :
    Opens s (t.withMe fun g => { g with clk := g.clk + w, stallUntil := g.stallUntil + w }) q m e k a b :=
  ⟨h.1.of_special rfl rfl rfl rfl rfl rfl rfl rfl rfl rfl, h.2, h.3, h.4⟩
theorem loop_ne (x : DWord) (n : Nat) (hn : n < 1024) : pc56 x ≠ pc56 (pc56 x + BitVec.ofNat 64 (4 * (n + 1))) := by
  intro h
  have h := congrArg BitVec.toNat h
  rw [pc56_toNat, pc56_toNat, BitVec.toNat_add, pc56_toNat, BitVec.toNat_ofNat] at h
  omega
theorem Opens.loops {s t : State} {q : Nat} {m e : LaneMask} {k : ScopeKind} {a b : DWord} {f : Group → Vector LoopCtr 3}
    (h : Opens (s.withMe fun g => { g with loops := f g }) t q m e k a b) : Opens s t q m e k a b :=
  ⟨Kept.loops (f := f) h.1, h.2, h.3, h.4⟩
theorem State.loopOn_opens {s : State} {n : Fin 3} {c : Word} {len q : Nat} (hlen : len < 1024) (h0 : c ≠ 0) (hu : s.unspilled) (hq : s.me.freeEntries.head? = some q) (h8 : q < 8) :
    (s.loopOn n c (len + 1)).me.loops[n] = { count := c, start := pc56 (s.pc + 4), len := BitVec.ofNat 11 len, active := true }
        ∧ Opens s (s.loopOn n c (len + 1)) q s.path.member s.exm (.loop n) (pc56 (s.pc + 4)) (pc56 (pc56 (s.pc + 4) + BitVec.ofNat 64 (4 * (len + 1)))) := by
  obtain ⟨r, hf⟩ := head_of hq
  have hn := Group.freeEntries_none hq
  let f : Group → Vector LoopCtr 3 := fun g => g.loops.set n { count := c, start := pc56 (s.pc + 4), len := BitVec.ofNat 11 len, active := true }
  let s1 := s.withMe fun g => { g with loops := f g }
  have he : s.loopOn n c (len + 1) = s1.openScope q (.loop n) (pc56 (s.pc + 4)) (pc56 (pc56 (s.pc + 4) + BitVec.ofNat 64 (4 * (len + 1)))) := by
    unfold State.loopOn
    simp only [if_neg h0, hf]
    rfl
  have ho := State.openScope_opens (s := s1) (q := q) (kind := .loop n) (start := pc56 (s.pc + 4)) (join := pc56 (pc56 (s.pc + 4) + BitVec.ofNat 64 (4 * (len + 1))))
    hu hn h8 (by rw [pc56_idem]; exact loop_ne _ _ hlen) (pc56_idem _)
  rw [he]
  refine ⟨?_, Opens.loops (f := f) ho.1⟩
  have : (s1.openScope q (.loop n) (pc56 (s.pc + 4)) (pc56 (pc56 (s.pc + 4) + BitVec.ofNat 64 (4 * (len + 1))))).me.loops = f s.me := ho.2
  rw [this]
  simp [f]

end Sys2Proof.Machine
end

