-- ==== Sys2Proof/Laws/Once.lean ====
section
/-! SUPPORT. Instructions executed once for the group: scalar results, masks, and what completing leaves of a group's records. -/

namespace Sys2Proof.Machine

/-- Completing without flags, as a computing instruction does. -/
theorem State.retire_computed {s r : State} {S : Nat → Word} {V : Nat → Nat → Word} {P : Nat → LaneMask} {cm : DWord} {uses : List Use}
    {next : DWord} {d : Done} (ho : r.others = s.others) (hs : r.me.special = s.me.special)
    (hS : ∀ n, r.me.sreg n = S n) (hV : ∀ n k, r.me.vlane n k = V n k) (hP : ∀ n, r.me.preg n = P n) (hcm : r.me.cm = cm)
    (hf : r.me.fpsf = s.me.fpsf) (hg : r.me.gstat = (s.seen uses).me.gstat) (hm : r.me.mode = s.me.mode) (hp : r.me.paths = s.me.paths)
    (hc : r.me.cur = s.me.cur) (hn : d.target.getD (s.pc + 4) = next) (hl : r.me.laneCtr = s.me.laneCtr) (hk : r.me.scalarCtr = s.me.scalarCtr) :
    Computed s (r.retire d) S V P cm 0 uses next := by
  rw [← State.finish_zero r d fun _ => 0]
  exact State.finish_computed ho hs hS hV hP hcm hf hg hm hp hc (State.enabledFlags_zero s) hn (Prod.ext hl hk)
/-- Scalar results of an instruction executed once. -/
theorem State.putAll_computed {s : State} {uses : List Use} {ds : List Nat} {ws : List Word} {lat : Nat} {d : Done} {next : DWord} (hd : ds.Nodup) (hl : ds.length = ws.length)
    (h64 : ∀ n ∈ ds, n < 64) (hv : ∀ x ∈ uses, x.isVector = false) (hn : d.target.getD (s.pc + 4) = next) :
    Computed s (((ds.zip ws).foldl (fun s p => s.putS p.1 p.2 lat) s).retire d) (s.scalarsWith ds ws) s.me.vlane s.me.preg s.me.cm 0 uses next := by
  obtain ⟨a, b⟩ := State.putAll lat ds ws s hd hl h64
  exact State.retire_computed a.others a.special b (fun n k => Group.vlane_congr a.v n k) (fun n => Group.preg_congr a.p n) a.cm a.fpsf
    (by rw [State.seen_none hv]; exact a.gstat) a.mode a.paths a.cur hn a.laneCtr a.scalarCtr
theorem Moves.from {s r t : State} {a b : DWord} (h : Moves r t a) (hs : r.me.s = s.me.s) (hv : r.me.v = s.me.v) (hp : r.me.p = s.me.p) (hcm : r.me.cm = s.me.cm)
    (hf : r.me.fpsf = s.me.fpsf) (hg : r.me.gstat = s.me.gstat) (hl : r.me.laneCtr = s.me.laneCtr) (hk : r.me.scalarCtr = s.me.scalarCtr)
    (hsp : r.me.special = s.me.special) (ho : r.others = s.others) (hgo : s.goesTo t b) : Moves s t b :=
  ⟨⟨h.1.1.trans hs, h.1.2.trans hv, h.1.3.trans hp, h.1.4.trans hcm, h.1.5.trans hf, h.1.6.trans hg, h.1.7.trans hl, h.1.8.trans hk, h.1.9.trans hsp, h.1.10.trans ho,
    State.sameMemory_of_others (h.1.10.trans ho)⟩, hgo⟩
/-- The loop counters, the handler and the region record after completion, where no path is spilled and the next address is not the join PC. -/
theorem State.retire_records {s : State} {d : Done} {p : Path} (hs : ∀ n, 8 ≤ n → s.me.path? n = none) (hp : s.me.path? s.me.cur = some p)
    (hj : p.join ≠ some (pc56 (d.target.getD (s.pc + 4)))) :
    (s.retire d).me.region = s.me.region ∧ (s.retire d).me.handler = s.me.handler ∧ (s.retire d).me.loops = s.me.loops := by
  let g := (if d.moved then ((s.count d).charge d).setPath fun p => { p with notBefore := s.now + d.beats + d.extra + 2 } else (s.count d).charge d).me
  have hchg : ∀ m, ((s.count d).charge d).me.path? m = if m = s.me.cur then
      (s.me.path? m).map fun q => { (q : Path) with wait := none, holdAsked := if q.stepping then some 3 else q.holdAsked, stepping := false, yields := q.yields.filter (· != s.me.cur) }
      else (s.me.path? m).map fun q => { q with yields := q.yields.filter (· != s.me.cur) } := by
    intro m
    have h1 : ((s.count d).charge d).me.path? m = (s.count d).me.noteIssue.path? m := rfl
    have h2 : (s.count d).me = s.me.setPath s.me.cur fun p => { p with wait := none, holdAsked := if p.stepping then some 3 else p.holdAsked, stepping := false } := rfl
    rw [h1, Group.path?_noteIssue, h2, Group.path?_setPath, Group.setPath_cur]
    by_cases hm : m = s.me.cur
    · subst hm; simp only [if_true, Option.map_map]; rfl
    · simp only [if_neg hm]
  have hc0 : ((s.count d).charge d).me.cur = s.me.cur := by simp [State.charge, State.count, Group.noteIssue]
  have hr0 : ((s.count d).charge d).me.region = s.me.region ∧ ((s.count d).charge d).me.handler = s.me.handler ∧ ((s.count d).charge d).me.loops = s.me.loops := by
    refine ⟨?_, ?_, ?_⟩ <;> simp [State.charge, State.count, Group.noteIssue]
  have hg : g.cur = s.me.cur ∧ (∃ q, g.path? s.me.cur = some q ∧ q.join = p.join) ∧ (∀ n, 8 ≤ n → g.path? n = none)
      ∧ g.region = s.me.region ∧ g.handler = s.me.handler ∧ g.loops = s.me.loops := by
    have hne : ∀ n, 8 ≤ n → n ≠ s.me.cur := fun n h e => by rw [← e, hs n h] at hp; cases hp
    by_cases hm : d.moved
    · have : g = ((s.count d).charge d).me.setPath ((s.count d).charge d).me.cur fun p => { p with notBefore := s.now + d.beats + d.extra + 2 } := by
        show (if d.moved then _ else _ : State).me = _
        rw [if_pos hm]; rfl
      rw [this, hc0]
      refine ⟨by simp [hc0], ?_, fun n h => ?_, by simp [hr0], by simp [hr0], by simp [hr0]⟩
      · rw [Group.path?_setPath, if_pos rfl, hchg, if_pos rfl, hp]; exact ⟨_, rfl, rfl⟩
      · rw [Group.path?_setPath, if_neg (hne n h), hchg, if_neg (hne n h), hs n h]; rfl
    · have : g = ((s.count d).charge d).me := by
        show (if d.moved then _ else _ : State).me = _
        rw [if_neg hm]
      rw [this]
      refine ⟨hc0, ?_, fun n h => ?_, hr0⟩
      · rw [hchg, if_pos rfl, hp]; exact ⟨_, rfl, rfl⟩
      · rw [hchg, if_neg (hne n h), hs n h]; rfl
  obtain ⟨h1, ⟨q, h2, h3⟩, h4, h5⟩ := hg
  have hret : (s.retire d).me = g.setEntry s.me.cur (some { q with pc := pc56 (d.target.getD (s.pc + 4)) }) := by
    have : (s.retire d).me = (g.goto g.cur (d.target.getD (s.pc + 4))).refill 72 := rfl
    rw [this, h1]
    exact Group.goto_straight h4 h2 (by rw [h3]; exact hj)
  rw [hret]
  refine ⟨by simp [h5], by simp [h5], by rw [Group.loops_setEntry]; exact h5.2.2⟩
theorem State.unspilled_path {s : State} (hu : s.unspilled) : s.me.path? s.me.cur = some s.path := by
  obtain ⟨p, hp⟩ := Option.isSome_iff_exists.mp hu.2
  unfold State.path Group.path; rw [hp]; rfl
theorem even_lt {d : BitVec 6} (h : even d = true) : ∀ n ∈ [d.toNat, d.toNat + 1], n < 64 := by
  simp only [even, beq_iff_eq] at h
  intro n hn
  simp only [List.mem_cons, List.not_mem_nil, or_false] at hn
  have := d.isLt
  rcases hn with rfl | rfl <;> omega
theorem State.masks_of (s : State) (x : LaneMask) (lat : Nat) (d : Done) (hd : d.target = none) : Masks s ((s.putEXM x lat).retire d) x := by
  have hstill : (s.putEXM x lat).me.still = s.me.still := by
    unfold State.putEXM State.setPath
    show Group.still { s.me.setPath s.me.cur _ with pending := _ } = _
    exact (Group.still_setPath s.me s.me.cur fun p => { p with exm := x &&& p.member })
  have hpath : ∀ m, (s.putEXM x lat).me.path? m = (s.me.setPath s.me.cur fun p => { p with exm := x &&& p.member }).path? m := fun _ => rfl
  have hcur : (s.putEXM x lat).me.cur = s.me.cur := by
    show (s.me.setPath s.me.cur _).cur = _
    simp
  have hpc : (s.putEXM x lat).pc = s.pc := by
    unfold State.pc State.path Group.path
    rw [hcur, hpath, Group.path?_setPath, if_pos rfl]
    cases s.me.path? s.me.cur <;> rfl
  have key : ∀ {α : Type} (F : Group → α), (∀ g : Group, F g.still = F g) → F (s.putEXM x lat).me = F s.me := fun F hF => by rw [← hF, hstill, hF]
  have hm := (s.putEXM x lat).retire_moves d
  rw [hpc, hd] at hm
  have hsp : (∀ n, 8 ≤ n → s.me.path? n = none) → (s.me.path? s.me.cur).isSome = true → ∀ n, 8 ≤ n → (s.putEXM x lat).me.path? n = none := by
    intro h hc n hn
    rw [hpath, Group.path?_setPath, if_neg (fun e => by rw [e] at hn; rw [h _ hn] at hc; cases hc)]; exact h n hn
  refine ⟨hm.from (key Group.s fun _ => rfl) (key Group.v fun _ => rfl) (key Group.p fun _ => rfl) (key Group.cm fun _ => rfl) (key Group.fpsf fun _ => rfl)
    (key Group.gstat fun _ => rfl) (key Group.laneCtr fun _ => rfl) (key Group.scalarCtr fun _ => rfl) (Group.special_of_still hstill) rfl ?_, ?_⟩
  · rintro h1 ⟨p, hp, hj⟩
    have := hm.goes (hsp h1 (by rw [hp]; rfl)) ⟨{ p with exm := x &&& p.member }, by rw [hcur, hpath, Group.path?_setPath, if_pos rfl, hp]; rfl, hj⟩
    exact ⟨this.1.trans hcur, this.2⟩
  · intro hu hj
    have hp := State.unspilled_path hu
    obtain ⟨h1, ⟨o, h2, -, h4, h5, -⟩, -⟩ := State.retire_paths (s := s.putEXM x lat) (d := d) (p := { s.path with exm := x &&& s.path.member }) (hsp hu.1 hu.2)
      (by rw [hcur, hpath, Group.path?_setPath, if_pos rfl, hp]; rfl) (by rw [hpc, hd]; exact hj)
    have ho : ((s.putEXM x lat).retire d).path = o := by
      unfold State.path Group.path; rw [h1, h2]; rfl
    rw [ho]; exact ⟨h5, h4⟩

end Sys2Proof.Machine
end

