-- ==== Sys2Proof/Laws/Reach.lean ====
section
/-! SUPPORT. Memory operations: which bytes they may change at their points of coherence, and that they leave everything else of the machine alone. -/

namespace Sys2Proof.Machine

/-- One machine reaches another by memory operations: the issuing group stands, everything but memory stands, only bytes in `W` may have changed. -/
structure Reaches (W : Place → Prop) (s t : State) : Prop where
  me : t.me = s.me
  rest : t.fabric = s.fabric
  memory : ∀ ag p, ¬ W p → t.readByte ag p = s.readByte ag p
/-- Every byte of a team's write buffer lies in `W`. -/
def Buffers (W : Place → Prop) (id : Nat) (s : State) : Prop := ∀ e ∈ (s.team id).wbuf, ∀ c ∈ e.bytes, W (.dev c.1)
/-- Reaching while the write buffer of a team stays within `W`. -/
def Walks (W : Place → Prop) (id : Nat) (s t : State) : Prop := Reaches W s t ∧ (Buffers W id s → Buffers W id t)
theorem Reaches.refl (W : Place → Prop) (s : State) : Reaches W s s := ⟨rfl, rfl, fun _ _ _ => rfl⟩
theorem Reaches.trans {W : Place → Prop} {s r t : State} (a : Reaches W s r) (b : Reaches W r t) : Reaches W s t :=
  ⟨b.me.trans a.me, b.rest.trans a.rest, fun ag p h => (b.memory ag p h).trans (a.memory ag p h)⟩
theorem Reaches.mono {W X : Place → Prop} {s t : State} (h : Reaches W s t) (hw : ∀ p, W p → X p) : Reaches X s t :=
  ⟨h.me, h.rest, fun ag p hp => h.memory ag p fun w => hp (hw p w)⟩
theorem Walks.refl (W : Place → Prop) (id : Nat) (s : State) : Walks W id s s := ⟨.refl W s, fun h => h⟩
theorem Walks.trans {W : Place → Prop} {id : Nat} {s r t : State} (a : Walks W id s r) (b : Walks W id r t) : Walks W id s t :=
  ⟨a.1.trans b.1, fun h => b.2 (a.2 h)⟩
theorem Walks.foldl {W : Place → Prop} {id : Nat} {α : Type} (f : State → α → State) (l : List α) (s : State) (h : ∀ s, ∀ a ∈ l, Walks W id s (f s a)) :
    Walks W id s (l.foldl f s) := by
  induction l generalizing s with
  | nil => exact .refl ..
  | cons a l ih => exact (h s a (List.mem_cons_self ..)).trans (ih _ fun s b hb => h s b (List.mem_cons_of_mem _ hb))
/-- A fold of steps that walk once the buffer lies within `W`. -/
theorem Walks.foldl_within {W : Place → Prop} {id : Nat} {α : Type} (f : State → α → State) (l : List α) (s : State) (hs : Buffers W id s)
    (h : ∀ s, Buffers W id s → ∀ a ∈ l, Reaches W s (f s a) ∧ Buffers W id (f s a)) : Reaches W s (l.foldl f s) ∧ Buffers W id (l.foldl f s) := by
  induction l generalizing s with
  | nil => exact ⟨.refl .., hs⟩
  | cons a l ih =>
    obtain ⟨h1, h2⟩ := h s hs a (List.mem_cons_self ..)
    obtain ⟨h3, h4⟩ := ih _ h2 fun s hs b hb => h s hs b (List.mem_cons_of_mem _ hb)
    exact ⟨h1.trans h3, h4⟩

/-! ### Teams -/

theorem team_find_map (l : List Team) (f : Team → Team) (hf : ∀ t, (f t).id = t.id) (id : Nat) : (l.map f).find? (·.id == id) = (l.find? (·.id == id)).map f := by
  induction l with
  | nil => rfl
  | cons a l ih =>
    rw [List.map_cons, List.find?_cons, List.find?_cons, hf]
    cases a.id == id with
    | true => rfl
    | false => exact ih
theorem State.holder_teams (s : State) {f : Team → Team} (hid : ∀ t, (f t).id = t.id) (hs : ∀ t, (f t).scratch = t.scratch) (m : Nat) :
    (({ s with teams := s.teams.map f } : State).holder? m).map Team.scratch = (s.holder? m).map Team.scratch := by
  have h : ({ s with teams := s.teams.map f } : State).team? m = (s.team? m).map f := team_find_map _ _ hid _
  unfold State.holder?
  rw [h]
  cases s.team? m with
  | none => rfl
  | some t => exact congrArg some (hs t)
/-- A change of teams that keeps their numbers, registers, scratchpads. -/
theorem Reaches.teams {s : State} {f : Team → Team} (W : Place → Prop) (hid : ∀ t, (f t).id = t.id) (hr : ∀ t, (f t).registers = t.registers) (hs : ∀ t, (f t).scratch = t.scratch) :
    Reaches W s { s with teams := s.teams.map f } := by
  refine ⟨rfl, ?_, fun ag p _ => ?_⟩
  · have : (s.teams.map f).map Team.registers = s.teams.map Team.registers := by rw [List.map_map]; exact List.map_congr_left fun t _ => hr t
    unfold State.fabric
    simp only [this]
  · cases p with
    | dev a => rfl
    | host a => rfl
    | bank a => rfl
    | scr m a =>
      rw [State.readByte_scr, State.readByte_scr, State.holder_teams s hid hs]
theorem Buffers.teams {s : State} {f : Team → Team} {W : Place → Prop} {id : Nat} (hid : ∀ t, (f t).id = t.id)
    (hb : ∀ t, ∀ e ∈ (f t).wbuf, ∀ c ∈ e.bytes, (∃ e' ∈ t.wbuf, c ∈ e'.bytes) ∨ W (.dev c.1)) (h : Buffers W id s) : Buffers W id { s with teams := s.teams.map f } := by
  intro e he c hc
  have : (({ s with teams := s.teams.map f } : State).team id) = (((s.team? id).map f).getD {}) := by
    show ((s.teams.map f).find? _).getD {} = _
    rw [team_find_map _ _ hid]; rfl
  rw [this] at he
  unfold Buffers State.team at h
  cases ht : s.team? id with
  | none => rw [ht] at he; cases he
  | some t =>
    rw [ht] at he h
    rcases hb t e he c hc with ⟨e', h1, h2⟩ | hw
    · exact h e' h1 c h2
    · exact hw
/-- A change of one team's L1 share, beats or write buffer. -/
theorem Walks.setTeam {W : Place → Prop} {id : Nat} {s : State} {n : Nat} {f : Team → Team} (hid : ∀ t, (f t).id = t.id) (hr : ∀ t, (f t).registers = t.registers)
    (hs : ∀ t, (f t).scratch = t.scratch) (hb : ∀ t, ∀ e ∈ (f t).wbuf, ∀ c ∈ e.bytes, (∃ e' ∈ t.wbuf, c ∈ e'.bytes) ∨ W (.dev c.1)) : Walks W id s (s.setTeam n f) := by
  have hg : ∀ {P : Team → Team → Prop}, (∀ t, P t (f t)) → (∀ t, P t t) → ∀ t, P t (if t.id = n then f t else t) := fun h1 h2 t => by
    by_cases h : t.id = n
    · rw [if_pos h]; exact h1 t
    · rw [if_neg h]; exact h2 t
  refine ⟨Reaches.teams W ?_ ?_ ?_, fun h => Buffers.teams ?_ ?_ h⟩
  · exact hg (P := fun t u => u.id = t.id) hid fun _ => rfl
  · exact hg (P := fun t u => u.registers = t.registers) hr fun _ => rfl
  · exact hg (P := fun t u => u.scratch = t.scratch) hs fun _ => rfl
  · exact hg (P := fun t u => u.id = t.id) hid fun _ => rfl
  · exact hg (P := fun t u => ∀ e ∈ u.wbuf, ∀ c ∈ e.bytes, (∃ e' ∈ t.wbuf, c ∈ e'.bytes) ∨ W (.dev c.1)) hb fun t e he c hc => .inl ⟨e, he, hc⟩
theorem Walks.same {W : Place → Prop} {id : Nat} {s t : State} (h : Reaches W s t) (ht : t.teams = s.teams) : Walks W id s t :=
  ⟨h, fun hb e he c hc => hb e (by unfold State.team State.team? at *; rw [ht] at he; exact he) c hc⟩

/-! ### Translations -/

theorem State.noteTlb_walks (W : Place → Prop) (id : Nat) (core : Option Nat) (part : Nat) (vas : List Nat) (s : State) :
    Walks W id s (s.noteTlb core part vas) := by
  induction vas generalizing s with
  | nil => exact .refl ..
  | cons v vs ih =>
    unfold State.noteTlb
    split
    · refine Walks.trans (r := { s with tlb := _, tlb2 := _ }) ?_ (ih _)
      exact .same ⟨rfl, rfl, fun ag p _ => rfl⟩ rfl
    · exact ih s

/-! ### Writing at the point of coherence -/

theorem Memory.get_set_other (m : List Host.Cell) (a x : Nat) (b : Byte) (h : x ≠ a) : Memory.get (Memory.set m a b) x = Memory.get m x := by
  induction m with
  | nil =>
    unfold Memory.set
    split
    · rfl
    · rw [Memory.get_cons]; simp only [if_neg (Ne.symm h)]
  | cons c m ih =>
    unfold Memory.set
    split
    · split
      · rfl
      · rw [Memory.get_cons]; simp only [if_neg (Ne.symm h)]
    · split
      · rename_i hc
        split
        · rw [Memory.get_cons, if_neg (by rw [hc]; exact Ne.symm h)]
        · rw [Memory.get_cons, Memory.get_cons]; simp only [if_neg (Ne.symm h)]; rw [if_neg (by rw [hc]; exact Ne.symm h)]
      · rw [Memory.get_cons, Memory.get_cons, ih]
theorem State.snoop_walks (W : Place → Prop) (id : Nat) (s : State) (ag : Agent) (pa : Nat) (b : Byte) : Walks W id s (s.snoop ag pa b) := by
  unfold State.snoop
  generalize (if ag.job then none else ag.team.bind s.team?) = o
  cases o with
  | none => exact .refl ..
  | some t =>
    dsimp only
    have hg : ∀ {P : Team → Team → Prop}, (∀ x l, P x { x with l1 := l }) → (∀ x, P x x) → ∀ x : Team, P x (if x.part = t.part ∧ x.task = t.task ∧ x.cluster = t.cluster then
        if x.id = t.id then { x with l1 := x.l1.map fun e => if e.1 = pa / 128 then (e.1, e.2.set (pa % 128) b) else e }
        else { x with l1 := drop (pa / 128) x.l1 }
      else x) := fun h1 h2 x => by
      by_cases h : x.part = t.part ∧ x.task = t.task ∧ x.cluster = t.cluster
      · rw [if_pos h]; by_cases hi : x.id = t.id
        · rw [if_pos hi]; exact h1 ..
        · rw [if_neg hi]; exact h1 ..
      · rw [if_neg h]; exact h2 x
    refine ⟨Reaches.teams W ?_ ?_ ?_, fun h => Buffers.teams ?_ ?_ h⟩
    · exact hg (P := fun t u => u.id = t.id) (fun _ _ => rfl) fun _ => rfl
    · exact hg (P := fun t u => u.registers = t.registers) (fun _ _ => rfl) fun _ => rfl
    · exact hg (P := fun t u => u.scratch = t.scratch) (fun _ _ => rfl) fun _ => rfl
    · exact hg (P := fun t u => u.id = t.id) (fun _ _ => rfl) fun _ => rfl
    · exact hg (P := fun t u => ∀ e ∈ u.wbuf, ∀ c ∈ e.bytes, (∃ e' ∈ t.wbuf, c ∈ e'.bytes) ∨ W (.dev c.1)) (fun x l e he c hc => .inl ⟨e, he, hc⟩) fun x e he c hc => .inl ⟨e, he, hc⟩
theorem Vector.map_set_same {α β : Type} {n : Nat} (v : Vector α n) (i : Nat) (h : i < n) (x : α) (F : α → β) (hx : F x = F v[i]) : (v.set i x).map F = v.map F := by
  apply Vector.ext
  intro j hj
  rw [Vector.getElem_map, Vector.getElem_map, Vector.getElem_set]
  split
  · rename_i e; subst e; exact hx
  · rfl
/-- A change of a partition's versions, registers and causes. -/
theorem Reaches.setPart {W : Place → Prop} {id : Nat} {s : State} {n : Nat} {f : Partition → Partition} (ha : ∀ p, (f p).apart = p.apart)
    (hv : ∀ p, ∀ ag a, ¬ W (.dev a) → ((f p).versions.find? (·.num == ag)).bind (fun v => look a v.bytes) = (p.versions.find? (·.num == ag)).bind fun v => look a v.bytes) :
    Walks W id s (s.setPart n f) := by
  unfold State.setPart
  split
  · rename_i h
    refine .same ⟨rfl, ?_, fun ag p hp => ?_⟩ rfl
    · have : (s.parts.set n (f s.parts[n])).map Partition.apart = s.parts.map Partition.apart := Vector.map_set_same _ _ _ _ _ (ha _)
      unfold State.fabric
      simp only [this]
    · cases p with
      | dev a =>
        have key : ∀ k, ((((s.parts.set n (f s.parts[n]))[ag.part]?.getD {}).versions.find? (·.num == k)).bind fun v => look a v.bytes)
            = (((s.parts[ag.part]?.getD {}).versions.find? (·.num == k)).bind fun v => look a v.bytes) := by
          intro k
          by_cases hq : ag.part = n
          · rw [hq]; simp only [Vector.getElem?_set_self h, Option.getD_some, Vector.getElem?_eq_getElem h]
            exact hv _ k a hp
          · rw [Vector.getElem?_set_ne h (Ne.symm hq)]
        show (match ag.ver.bind (fun k => (((s.parts.set n (f s.parts[n]))[ag.part]?.getD {}).versions.find? (·.num == k)).bind fun v => look a v.bytes) with
          | some b => b | none => Memory.get s.dev a) = (match ag.ver.bind (fun k => ((s.parts[ag.part]?.getD {}).versions.find? (·.num == k)).bind fun v => look a v.bytes) with
          | some b => b | none => Memory.get s.dev a)
        cases ag.ver with
        | none => rfl
        | some k => simp only [Option.bind_some, key k]
      | host a => rfl
      | bank a => rfl
      | scr m a => rfl
  · exact .refl ..
theorem version_find_map (l : List Version) (f : Version → Version) (hf : ∀ t, (f t).num = t.num) (id : Nat) : (l.map f).find? (·.num == id) = (l.find? (·.num == id)).map f := by
  induction l with
  | nil => rfl
  | cons a l ih =>
    rw [List.map_cons, List.find?_cons, List.find?_cons, hf]
    cases a.num == id with
    | true => rfl
    | false => exact ih
theorem State.team?_id {s : State} {m : Nat} {x : Team} (h : s.team? m = some x) : x.id = m := by simpa using List.find?_some h
theorem State.holder?_id {s : State} {m : Nat} {x : Team} (h : s.holder? m = some x) : x.id = m := by
  unfold State.holder? at h
  cases ht : s.team? m with
  | none => rw [ht] at h; simpa using List.find?_some h
  | some y => rw [ht] at h; cases h; exact State.team?_id ht
/-- A byte of a scratchpad is written in the team that holds it. -/
theorem State.writeByte_holder (s : State) (ag : Agent) (t a m : Nat) (b : Byte) : (s.writeByte ag (.scr t a) b).holder? m =
    (s.holder? m).map fun x => if x.id = t then { x with scratch := Memory.set x.scratch a b } else x := by
  have hid : ∀ x : Team, (if x.id = t then { x with scratch := Memory.set x.scratch a b } else x).id = x.id := fun x => by split <;> rfl
  have hne : ∀ {x : Team}, x.id ≠ t → some x = (some x).map fun x => if x.id = t then { x with scratch := Memory.set x.scratch a b } else x := fun h => by
    rw [Option.map_some, if_neg h]
  unfold State.writeByte
  dsimp only
  split
  · rename_i ht
    have h1 : (s.setTeam t fun x => { x with scratch := Memory.set x.scratch a b }).team? m =
        (s.team? m).map fun x => if x.id = t then { x with scratch := Memory.set x.scratch a b } else x := team_find_map _ _ hid _
    unfold State.holder?
    rw [h1]
    cases hm : s.team? m with
    | some x => rfl
    | none =>
      show (s.saved.map (·.team)).find? (·.id == m) = ((s.saved.map (·.team)).find? (·.id == m)).map _
      cases hx : (s.saved.map (·.team)).find? (·.id == m) with
      | none => rfl
      | some x =>
        refine hne fun e => ?_
        have : x.id = m := by simpa using List.find?_some hx
        rw [← this, e] at hm; rw [hm] at ht; cases ht
  · rename_i ht
    have h2 : (s.saved.map fun (v : Saved) => if v.team.id = t then { v with team := { v.team with scratch := Memory.set v.team.scratch a b } } else v).map (·.team)
        = (s.saved.map (·.team)).map fun x => if x.id = t then { x with scratch := Memory.set x.scratch a b } else x := by
      rw [List.map_map, List.map_map]
      refine List.map_congr_left fun v _ => ?_
      by_cases h : v.team.id = t <;> simp [h]
    unfold State.holder?
    rw [h2, team_find_map _ _ hid]
    show (s.team? m).orElse _ = ((s.team? m).orElse _).map _
    cases hm : s.team? m with
    | none => rfl
    | some x =>
      refine hne fun e => ht ?_
      rw [← e, State.team?_id hm, hm]; rfl
theorem State.writeScr_walks {W : Place → Prop} {t a : Nat} (hp : W (.scr t a)) (id : Nat) (s : State) (ag : Agent) (b : Byte) :
    Walks W id s (s.writeByte ag (.scr t a) b) := by
  have hid : ∀ x : Team, (if x.id = t then { x with scratch := Memory.set x.scratch a b } else x).id = x.id := fun x => by split <;> rfl
  have hrg : ∀ x : Team, (if x.id = t then { x with scratch := Memory.set x.scratch a b } else x).registers = x.registers := fun x => by split <;> rfl
  have hmem : ∀ ag' p, ¬ W p → (s.writeByte ag (.scr t a) b).readByte ag' p = s.readByte ag' p := by
    intro ag' q hq
    cases q with
    | scr m c =>
      rw [State.readByte_scr, State.readByte_scr, State.writeByte_holder]
      have hf : (s.writeByte ag (.scr t a) b).free = s.free := by unfold State.writeByte; dsimp only; split <;> rfl
      rw [hf]
      cases hm : s.holder? m with
      | none => rfl
      | some x =>
        simp only [Option.map_some, Option.getD_some]
        by_cases hx : x.id = t
        · rw [if_pos hx]
          refine Memory.get_set_other _ _ _ _ fun e => hq ?_
          rw [e, ← State.holder?_id hm, hx]; exact hp
        · rw [if_neg hx]
    | dev c => unfold State.writeByte; dsimp only; split <;> rfl
    | host c => unfold State.writeByte; dsimp only; split <;> rfl
    | bank c => unfold State.writeByte; dsimp only; split <;> rfl
  revert hmem
  unfold State.writeByte
  dsimp only
  split
  · intro hmem
    refine ⟨⟨rfl, ?_, hmem⟩, fun h => Buffers.teams hid (fun x e he c hc => .inl ⟨e, by revert he; split <;> exact fun h => h, hc⟩) h⟩
    have : (s.teams.map fun x => if x.id = t then { x with scratch := Memory.set x.scratch a b } else x).map Team.registers = s.teams.map Team.registers := by
      rw [List.map_map]; exact List.map_congr_left fun x _ => hrg x
    unfold State.fabric State.setTeam
    simp only [this]
  · intro hmem
    refine .same ⟨rfl, ?_, hmem⟩ rfl
    unfold State.fabric
    have : (s.saved.map fun (v : Saved) => if v.team.id = t then { v with team := { v.team with scratch := Memory.set v.team.scratch a b } } else v).map
        (fun (v : Saved) => { v with team := v.team.registers }) = s.saved.map fun (v : Saved) => { v with team := v.team.registers } := by
      rw [List.map_map]
      refine List.map_congr_left fun v _ => ?_
      show (fun (v : Saved) => ({ v with team := v.team.registers } : Saved)) (if _ then _ else _) = _
      by_cases h : v.team.id = t
      · rw [if_pos h]; rfl
      · rw [if_neg h]
    simp only [this]
/-- One byte is written. -/
theorem State.writeByte_walks {W : Place → Prop} {p : Place} (hp : W p) (id : Nat) (s : State) (ag : Agent) (b : Byte) : Walks W id s (s.writeByte ag p b) := by
  cases p with
  | dev a =>
    unfold State.writeByte
    refine Walks.trans ?_ (State.snoop_walks W id _ ag a b)
    cases ag.ver with
    | none =>
      refine .same ⟨rfl, rfl, fun ag q hq => ?_⟩ rfl
      cases q with
      | dev c =>
        have : Memory.get (Memory.set s.dev a b) c = Memory.get s.dev c := Memory.get_set_other _ _ _ _ fun e => hq (by rw [e]; exact hp)
        show (match _ with | some b => b | none => Memory.get (Memory.set s.dev a b) c) = _
        rw [this]; rfl
      | host c => rfl
      | bank c => rfl
      | scr m c => rfl
    | some n =>
      refine Reaches.setPart (fun _ => rfl) fun q k c hc => ?_
      dsimp only
      rw [version_find_map _ _ (fun v => by split <;> rfl)]
      cases q.versions.find? (·.num == k) with
      | none => rfl
      | some v =>
        simp only [Option.map_some, Option.bind_some]
        by_cases hv : v.num = n
        · rw [if_pos hv]; exact look_put_other b v.bytes fun e => hc (by rw [e]; exact hp)
        · rw [if_neg hv]
  | host a =>
    refine .same ⟨rfl, rfl, fun ag q hq => ?_⟩ rfl
    cases q with
    | host c => exact Memory.get_set_other _ _ _ _ fun e => hq (by rw [e]; exact hp)
    | dev c => rfl
    | bank c => rfl
    | scr m c => rfl
  | bank a =>
    refine .same ⟨rfl, rfl, fun ag q hq => ?_⟩ rfl
    cases q with
    | bank c => exact Memory.get_set_other _ _ _ _ fun e => hq (by rw [e]; exact hp)
    | dev c => rfl
    | host c => rfl
    | scr m c => rfl
  | scr t a => exact State.writeScr_walks hp id s ag b
theorem Place.plus_plus (p : Place) (i j : Nat) : (p.plus i).plus j = p.plus (i + j) := by cases p <;> simp [Place.plus, Nat.add_assoc]
theorem Place.plus_zero (p : Place) : p.plus 0 = p := by cases p <;> rfl
theorem State.writeBytes_walks {W : Place → Prop} (id : Nat) (ag : Agent) (bs : List Byte) (p : Place) (s : State) (hp : ∀ i, i < bs.length → W (p.plus i)) :
    Walks W id s (s.writeBytes ag p bs) := by
  induction bs generalizing p s with
  | nil => exact .refl ..
  | cons b bs ih =>
    unfold State.writeBytes
    refine (State.writeByte_walks (by have := hp 0 (by simp); rwa [Place.plus_zero] at this) id s ag b).trans (ih _ _ fun i hi => ?_)
    rw [Place.plus_plus, Nat.add_comm]
    exact hp (i + 1) (by simpa using hi)
theorem State.countUe_walks (W : Place → Prop) (id : Nat) (s : State) (part : Nat) : Walks W id s (s.countUe part) :=
  Reaches.setPart (f := fun p => p.setReg 0x87E (satAdd (p.reg 0x87E 0) 1)) (fun _ => rfl) fun _ _ _ _ => rfl
theorem State.pushCause_walks (W : Place → Prop) (id : Nat) (s : State) (part : Nat) (c : FaultCause) : Walks W id s (s.pushCause part c) := by
  unfold State.pushCause
  dsimp only
  split
  · exact .refl ..
  · split
    · refine Walks.trans (Reaches.setPart (fun p => ?_) fun p k a _ => ?_) (.same ⟨rfl, rfl, fun _ _ _ => rfl⟩ rfl)
      · first | rfl | (split <;> rfl) | (dsimp only; split <;> rfl)
      · first | rfl | (split <;> rfl) | (dsimp only; split <;> rfl)
    · refine Reaches.setPart (fun p => ?_) fun p k a _ => ?_
      · first | rfl | (split <;> rfl) | (dsimp only; split <;> rfl)
      · first | rfl | (split <;> rfl) | (dsimp only; split <;> rfl)
theorem State.unattributed_walks (W : Place → Prop) (id : Nat) (s : State) (part kind pa tile task : Nat) (w : Bool) : Walks W id s (s.unattributed part kind pa tile task w) :=
  (State.countUe_walks W id s part).trans (State.pushCause_walks ..)
theorem State.notePatrol_walks (W : Place → Prop) (id : Nat) (s : State) (ag : Agent) (p : Place) (n : Nat) : Walks W id s (s.notePatrol ag p n) := by
  unfold State.notePatrol
  split
  · exact .same ⟨rfl, rfl, fun _ _ _ => rfl⟩ rfl
  · exact .refl ..
theorem State.unstrike_walks (W : Place → Prop) (id : Nat) (s : State) (k t a : Nat) : Walks W id s (s.unstrike k t a) :=
  .same ⟨rfl, rfl, fun _ _ _ => rfl⟩ rfl
/-- What a write does to protection words leaves every byte as it was. -/
theorem State.overwritten_walks (W : Place → Prop) (id : Nat) (s : State) (ag : Agent) (p : Place) (n : Nat) : Walks W id s (s.overwritten ag p n) := by
  unfold State.overwritten
  split
  · exact .refl ..
  · refine (State.notePatrol_walks ..).trans (Walks.foldl _ _ _ fun q w _ => ?_)
    have key : ∀ r : State, Walks W id r (if w.2 then (r.unstrike (r.wordOf w.1).1 (r.wordOf w.1).2.1 (r.wordOf w.1).2.2).unstrike (r.wordOf w.1).1 0x7F (r.wordOf w.1).2.2
        else if r.poisoned w.1 then r.unattributed ag.part (r.wordOf w.1).1 w.1.paddr
          (((if ag.job then none else ag.team.bind (s.notePatrol ag p n).team?).map (·.tile)).getD 0x7F)
          (((if ag.job then none else ag.team.bind (s.notePatrol ag p n).team?).map (·.task)).getD 0) true
        else r) := fun r => by
      split
      · exact (State.unstrike_walks ..).trans (State.unstrike_walks ..)
      · split
        · exact State.unattributed_walks ..
        · exact .refl ..
    refine Walks.trans ?_ (key _)
    split
    · exact State.unstrike_walks ..
    · exact .refl ..
theorem State.performWrite_walks {W : Place → Prop} (id : Nat) (ag : Agent) (bs : List Byte) (p : Place) (s : State) (hp : ∀ i, i < bs.length → W (p.plus i)) :
    Walks W id s (s.performWrite ag p bs) :=
  (State.overwritten_walks ..).trans (State.writeBytes_walks id ag bs p _ hp)

/-! ### The write buffer -/

theorem runsOf_mem (l : List Host.Cell) : ∀ r ∈ runsOf l, ∀ i, i < r.2.length → ∃ c ∈ l, c.1 = r.1 + i := by
  induction l with
  | nil => intro r hr; cases hr
  | cons c cs ih =>
    intro r hr i hi
    unfold runsOf at hr
    split at hr
    · rename_i a bs rs heq
      split at hr
      · rename_i ha
        rcases List.mem_cons.mp hr with rfl | hr
        · cases i with
          | zero => exact ⟨c, List.mem_cons_self .., rfl⟩
          | succ i =>
            obtain ⟨d, hd, he⟩ := ih (a, bs) (by rw [heq]; exact List.mem_cons_self ..) i (by simpa using hi)
            exact ⟨d, List.mem_cons_of_mem _ hd, by rw [he]; simp only; omega⟩
        · obtain ⟨d, hd, he⟩ := ih r (by rw [heq]; exact List.mem_cons_of_mem _ hr) i hi
          exact ⟨d, List.mem_cons_of_mem _ hd, he⟩
      · rcases List.mem_cons.mp hr with rfl | hr
        · have : i = 0 := by simp at hi; exact hi
          subst this; exact ⟨c, List.mem_cons_self .., rfl⟩
        · obtain ⟨d, hd, he⟩ := ih r (by rw [heq]; exact hr) i hi
          exact ⟨d, List.mem_cons_of_mem _ hd, he⟩
    · rcases List.mem_cons.mp hr with rfl | hr
      · have : i = 0 := by simp at hi; exact hi
        subst this; exact ⟨c, List.mem_cons_self .., rfl⟩
      · cases hr
theorem State.drainEntry_within {W : Place → Prop} {id : Nat} {s : State} (h : Buffers W id s) (line : Nat) : Walks W id s (s.drainEntry id line) := by
  unfold State.drainEntry
  split
  · exact .refl ..
  · rename_i e he
    have hm : e ∈ (s.team id).wbuf := List.mem_of_find?_eq_some he
    refine Walks.trans (r := s.setTeam id fun t => { t with wbuf := t.wbuf.filter (·.line != line) }) (Walks.setTeam (f := fun t => { t with wbuf := t.wbuf.filter (·.line != line) }) (fun _ => rfl) (fun _ => rfl) (fun _ => rfl)
      fun t x hx c hc => .inl ⟨x, (List.mem_filter.mp hx).1, hc⟩) ?_
    refine Walks.foldl _ _ _ fun r x hx => State.performWrite_walks id _ _ _ r fun i hi => ?_
    obtain ⟨c, hc, h1⟩ := runsOf_mem e.bytes x hx i hi
    have := h e hm c hc
    rw [h1] at this; exact this
theorem State.drainAll_within {W : Place → Prop} {id : Nat} {s : State} (h : Buffers W id s) : Walks W id s (s.drainAll id) := by
  unfold State.drainAll
  generalize (s.team id).wbuf.map (·.line) = l
  obtain ⟨a, b⟩ := Walks.foldl_within (fun s l => s.drainEntry id l) l s h fun s hs a _ => ⟨(State.drainEntry_within hs a).1, (State.drainEntry_within hs a).2 hs⟩
  exact ⟨a, fun _ => b⟩
theorem State.release_within {W : Place → Prop} {s : State} (h : Buffers W s.me.team s) (sc : Nat) : Walks W s.me.team s (s.release sc) := by
  unfold State.release
  split
  · exact State.drainAll_within h
  · exact .refl ..
theorem State.acquire_walks (W : Place → Prop) (id : Nat) (s : State) (sc : Nat) : Walks W id s (s.acquire sc) := by
  unfold State.acquire
  split
  · exact Walks.setTeam (fun _ => rfl) (fun _ => rfl) (fun _ => rfl) fun t x hx c hc => .inl ⟨x, hx, hc⟩
  · exact .refl ..
theorem State.strongTouch_within {W : Place → Prop} {id : Nat} {s : State} (h : Buffers W id s) (p : Place) (n : Nat) : Walks W id s (s.strongTouch (some id) p n) := by
  unfold State.strongTouch
  split
  · rename_i pa t heq
    cases heq
    generalize linesOf _ n = l
    obtain ⟨a, b⟩ := Walks.foldl_within (fun (s : State) l => (s.drainEntry id l).setTeam id fun x => { x with l1 := drop l x.l1 }) l s h fun s hs a _ => by
      have w := (State.drainEntry_within hs a).trans (Walks.setTeam (W := W) (id := id) (s := s.drainEntry id a) (n := id) (f := fun x => { x with l1 := drop a x.l1 })
        (fun _ => rfl) (fun _ => rfl) (fun _ => rfl) fun t x hx c hc => .inl ⟨x, hx, hc⟩)
      exact ⟨w.1, w.2 hs⟩
    exact ⟨a, fun _ => b⟩
  · exact .refl ..
theorem State.strongTouch_none (s : State) (p : Place) (n : Nat) : s.strongTouch none p n = s := by unfold State.strongTouch; split <;> simp_all
theorem put_mem {β : Type} {k : Nat} {v : β} {l : List (Nat × β)} {c : Nat × β} (h : c ∈ put k v l) : c = (k, v) ∨ c ∈ l := by
  induction l with
  | nil => simp [put] at h; exact .inl h
  | cons e l ih =>
    unfold put at h
    split at h
    · rcases List.mem_cons.mp h with h | h
      · exact .inl h
      · exact .inr h
    · split at h
      · rcases List.mem_cons.mp h with h | h
        · exact .inl h
        · exact .inr (List.mem_cons_of_mem _ h)
      · rcases List.mem_cons.mp h with h | h
        · exact .inr (h ▸ List.mem_cons_self ..)
        · rcases ih h with h | h
          · exact .inl h
          · exact .inr (List.mem_cons_of_mem _ h)
theorem State.bufferByte_within {W : Place → Prop} {id : Nat} {s : State} (h : Buffers W id s) (seq pa : Nat) (b : Byte) (hp : W (.dev pa)) : Walks W id s (s.bufferByte id seq pa b) := by
  unfold State.bufferByte
  dsimp only
  split
  · refine Walks.setTeam (fun _ => rfl) (fun _ => rfl) (fun _ => rfl) fun t e he c hc => ?_
    obtain ⟨x, hx, rfl⟩ := List.mem_map.mp he
    split at hc
    · rcases put_mem hc with rfl | hc
      · exact .inr hp
      · exact .inl ⟨x, hx, hc⟩
    · exact .inl ⟨x, hx, hc⟩
  · refine Walks.trans (r := if 16 ≤ (s.team id).wbuf.length then s.drainEntry id (((s.team id).wbuf.head?.map (·.line)).getD 0) else s) ?_ ?_
    · split
      · exact State.drainEntry_within h _
      · exact .refl ..
    · refine Walks.setTeam (fun _ => rfl) (fun _ => rfl) (fun _ => rfl) fun t e he c hc => ?_
      rcases List.mem_append.mp he with he | he
      · exact .inl ⟨e, he, hc⟩
      · rw [List.mem_singleton.mp he] at hc
        rw [List.mem_singleton.mp hc]; exact .inr hp
theorem State.settleShare_walks (W : Place → Prop) (id : Nat) (s : State) (team : Nat) : Walks W id s (s.settleShare team) := by
  unfold State.settleShare
  dsimp only
  split
  · exact .refl ..
  · exact Walks.setTeam (fun _ => rfl) (fun _ => rfl) (fun _ => rfl) fun t x hx c hc => .inl ⟨x, hx, hc⟩
theorem State.markFill_walks (W : Place → Prop) (id : Nat) (s : State) (t : Team) (line : Nat) : Walks W id s (s.markFill t line) := by
  unfold State.markFill
  split
  · exact .refl ..
  · exact .same ⟨rfl, rfl, fun _ _ _ => rfl⟩ rfl
theorem State.fill_walks (W : Place → Prop) (id : Nat) (s : State) (ag : Agent) (team line : Nat) : Walks W id s (s.fill ag team line) := by
  unfold State.fill
  split
  · exact .refl ..
  · refine Walks.trans (Walks.setTeam ?_ ?_ ?_ ?_) (State.markFill_walks ..)
    · exact fun _ => rfl
    · exact fun _ => rfl
    · exact fun _ => rfl
    · exact fun t x hx c hc => .inl ⟨x, hx, hc⟩
/-- What goes before the accesses of an instruction changes only bytes that its team buffers. -/
theorem State.before_within {W : Place → Prop} {id : Nat} {s : State} (ag : Agent) (hag : ag.team = some id) (strong : Bool) (as : List Access) (h : Buffers W id s) :
    Walks W id s (s.before ag strong as) := by
  unfold State.before
  cases strong with
  | false => exact State.settleShare_walks ..
  | true =>
    rw [hag]
    obtain ⟨a, b⟩ := Walks.foldl_within (W := W) (id := id) (fun (s : State) (a : Access) => a.at_.foldl (fun s x => s.strongTouch (some id) x.1 x.2) s) as s h fun s hs a _ =>
      Walks.foldl_within (fun (s : State) (x : Place × Nat) => s.strongTouch (some id) x.1 x.2) a.at_ s hs fun s hs x _ =>
        ⟨(State.strongTouch_within hs x.1 x.2).1, (State.strongTouch_within hs x.1 x.2).2 hs⟩
    exact ⟨a, fun _ => b⟩
/-- A weak instruction finds every byte at its point of coherence as it was. -/
theorem State.before_weak (W : Place → Prop) (id : Nat) (s : State) (ag : Agent) (as : List Access) : Walks W id s (s.before ag false as) :=
  State.settleShare_walks ..

/-! ### Loads and stores of a group -/

/-- A weak load leaves every byte at its point of coherence. -/
theorem State.loadAccess_weak (W : Place → Prop) (id : Nat) (ag : Agent) (a : Access) (s : State) : Walks W id s (s.loadAccess ag false a).2 := by
  unfold State.loadAccess
  generalize ([] : List Byte) = bs0
  induction a.at_ generalizing s bs0 with
  | nil => exact .refl ..
  | cons q qs ih =>
    rw [List.foldl_cons]
    refine Walks.trans ?_ (ih _ _)
    dsimp only
    split
    · simp only [Bool.false_eq_true, if_false]
      exact Walks.foldl _ _ _ fun s l _ => State.fill_walks ..
    · exact .refl ..
/-- A load leaves every byte that its team does not buffer. -/
theorem State.loadAccess_within {W : Place → Prop} {id : Nat} (ag : Agent) (hag : ag.team = some id) (strong : Bool) (a : Access) {s : State} (h : Buffers W id s) :
    Walks W id s (s.loadAccess ag strong a).2 := by
  cases strong with
  | false => exact State.loadAccess_weak ..
  | true =>
    unfold State.loadAccess
    have key : ∀ (l : List (Place × Nat)) (r : List Byte × State), Buffers W id r.2 →
        Walks W id r.2 (l.foldl (fun (r : List Byte × State) (p, n) =>
          let s := r.2
          match p, ag.team with
          | .dev pa, some t =>
            if true then
              let s := s.strongTouch ag.team p n
              (r.1 ++ s.readBytes ag p n, s)
            else
              let bs := (List.range n).map fun i => s.weakByte ag t (pa + i)
              (r.1 ++ bs, (linesOf pa n).foldl (fun s l => s.fill ag t l) s)
          | p, _ => (r.1 ++ s.readBytes ag p n, s)) r).2 := by
      intro l
      induction l with
      | nil => intro r _; exact .refl ..
      | cons q qs ih =>
        intro r hr
        rw [List.foldl_cons]
        obtain ⟨p, n⟩ := q
        have step : Walks W id r.2 (match p, ag.team with
          | .dev pa, some t =>
            if true then
              let s := r.2.strongTouch ag.team p n
              (r.1 ++ s.readBytes ag p n, s)
            else
              let bs := (List.range n).map fun i => r.2.weakByte ag t (pa + i)
              (r.1 ++ bs, (linesOf pa n).foldl (fun s l => s.fill ag t l) r.2)
          | p, _ => (r.1 ++ r.2.readBytes ag p n, r.2)).2 := by
          rw [hag]
          cases p with
          | dev pa => exact State.strongTouch_within hr (.dev pa) n
          | host pa => exact .refl ..
          | bank pa => exact .refl ..
          | scr t o => exact .refl ..
        exact step.trans (ih _ (step.2 hr))
    exact key a.at_ ([], s) h
theorem State.groupAgent_team (s : State) (g : Group) : (s.groupAgent g).team = some g.team := rfl
theorem State.loadAll_within {W : Place → Prop} (strong : Bool) (as : List Access) {s : State} (h : Buffers W s.me.team s) : Walks W s.me.team s (s.loadAll strong as).2 := by
  induction as generalizing s with
  | nil => exact .refl ..
  | cons a as ih =>
    unfold State.loadAll
    have w := State.loadAccess_within (s.groupAgent s.me) (State.groupAgent_team _ _) strong a h
    have hme := w.1.me
    have := ih (s := (s.loadAccess (s.groupAgent s.me) strong a).2) (by rw [hme]; exact w.2 h)
    rw [hme] at this
    exact w.trans this
theorem State.loadAll_weak (W : Place → Prop) (id : Nat) (as : List Access) (s : State) : Walks W id s (s.loadAll false as).2 := by
  induction as generalizing s with
  | nil => exact .refl ..
  | cons a as ih =>
    unfold State.loadAll
    exact (State.loadAccess_weak W id _ a s).trans (ih _)
/-- A store changes only the bytes it stores to and those its team buffers. -/
theorem State.storeAccess_within {W : Place → Prop} {id : Nat} (ag : Agent) (hag : ag.team = some id) (seq : Nat) (strong : Bool) (a : Access) {s : State} (h : Buffers W id s)
    (hw : ∀ q ∈ a.at_, ∀ i, i < q.2 → W (q.1.plus i)) : Walks W id s (s.storeAccess ag seq strong a) := by
  unfold State.storeAccess
  have key : ∀ (l : List (Place × Nat)) (r : List Byte × State), Buffers W id r.2 → (∀ q ∈ l, ∀ i, i < q.2 → W (q.1.plus i)) →
      Walks W id r.2 (l.foldl (fun (r : List Byte × State) (p, n) =>
        let s := r.2
        let bs := r.1.take n
        let rest := r.1.drop n
        match p, ag.team, strong with
        | .dev pa, some t, false =>
          (rest, ((List.range n).foldl (fun s i => s.bufferByte t seq (pa + i) (bs.getD i 0)) s))
        | p, _, _ => (rest, (s.strongTouch ag.team p n).performWrite ag p bs)) r).2 := by
    intro l
    induction l with
    | nil => intro r _ _; exact .refl ..
    | cons q qs ih =>
      intro r hr hw
      rw [List.foldl_cons]
      obtain ⟨p, n⟩ := q
      have hp := hw (p, n) (List.mem_cons_self ..)
      have strongStep : Walks W id r.2 ((r.2.strongTouch (some id) p n).performWrite ag p (r.1.take n)) :=
        (State.strongTouch_within hr p n).trans (State.performWrite_walks id ag _ p _ fun i hi => hp i (by
          rw [List.length_take] at hi; omega))
      have step : Walks W id r.2 (match p, ag.team, strong with
        | .dev pa, some t, false =>
          (r.1.drop n, ((List.range n).foldl (fun (s : State) i => s.bufferByte t seq (pa + i) ((r.1.take n).getD i 0)) r.2))
        | p, _, _ => (r.1.drop n, (r.2.strongTouch ag.team p n).performWrite ag p (r.1.take n))).2 := by
        rw [hag]
        cases strong with
        | true => cases p <;> exact strongStep
        | false =>
          cases p with
          | dev pa =>
            obtain ⟨x, y⟩ := Walks.foldl_within (fun (s : State) i => s.bufferByte id seq (pa + i) ((r.1.take n).getD i 0)) (List.range n) r.2 hr fun s hs i hi => by
              have w := State.bufferByte_within hs seq (pa + i) ((r.1.take n).getD i 0) (hp i (List.mem_range.mp hi))
              exact ⟨w.1, w.2 hs⟩
            exact ⟨x, fun _ => y⟩
          | host pa => exact strongStep
          | bank pa => exact strongStep
          | scr t o => exact strongStep
      exact step.trans (ih _ (step.2 hr) fun q hq => hw q (List.mem_cons_of_mem _ hq))
  exact key a.at_ (a.data, s) h hw

end Sys2Proof.Machine
end

