-- ==== Sys2Proof/Laws/Access.lean ====
section
/-! SUPPORT. Instructions that access memory: what completing them leaves of the machine. -/

namespace Sys2Proof.Machine

theorem State.fabric_of_others {s t : State} (h : t.others = s.others) : t.fabric = s.fabric := by
  have key : ∀ x : State, x.others.fabric = x.fabric := fun x => by
    unfold State.others State.fabric
    have : (x.teams.map Team.apart).map Team.registers = x.teams.map Team.registers := by
      rw [List.map_map]; exact List.map_congr_left fun t _ => rfl
    simp only [this]
  rw [← key, h, key]
theorem Reaches.of_others {s t : State} (h : t.others = s.others) : ∀ ag p, t.readByte ag p = s.readByte ag p := State.sameMemory_of_others h

theorem Buffers.of_buffered {W : Place → Prop} {r : State} (h : ∀ p, r.buffered p → W p) : Buffers W r.me.team r :=
  fun e he c hc => h (.dev c.1) ⟨e, he, c, hc, rfl⟩
/-- Completing after memory operations and register writes. -/
theorem State.retire_accessed {r q w : State} {W : Place → Prop} {S : Nat → Word} {V : Nat → Nat → Word} {d : Done} (hq : Reaches W r q) (ho : w.others = q.others)
    (hS : ∀ n, w.me.sreg n = S n) (hV : ∀ n k, w.me.vlane n k = V n k) (hp : w.me.p = r.me.p) (hcm : w.me.cm = r.me.cm) (hf : w.me.fpsf = r.me.fpsf)
    (hg : w.me.gstat = r.me.gstat) (hstr : (w.me.laneCtr, w.me.scalarCtr) = (r.me.laneCtr, r.me.scalarCtr)) (hsp : w.me.special = r.me.special)
    (hpa : w.me.paths = r.me.paths) (hcu : w.me.cur = r.me.cur) (ht : d.target = none) :
    (∀ ag p, (w.retire d).readByte ag p = q.readByte ag p) ∧ Accessed r (w.retire d) S V W := by
  have e : (w.retire d).others = q.others := (State.retire_others w d).trans ho
  have m : ∀ ag p, (w.retire d).readByte ag p = q.readByte ag p := State.sameMemory_of_others e
  refine ⟨m, ⟨fun n => ?_, fun n k => ?_, by simp [hp], by simp [hcm], by simp [hf], by simp [hg], by simpa using hstr, by simp [hsp],
    (State.fabric_of_others e).trans hq.rest, fun ag p h => (m ag p).trans (hq.memory ag p h), ?_⟩⟩
  · rw [← hS n]; exact Group.sreg_congr (by simp) n
  · rw [← hV n k]; exact Group.vlane_congr (by simp) n k
  · have := w.retire_goes d
    rw [ht] at this
    have hpc : w.pc = r.pc := State.pc_congr hpa hcu
    exact State.goesTo_congr hpa hcu (by rw [hpc] at this; exact this)


theorem State.loaded_eq (s : State) (u : Bool) (d n : Nat) (ord : BitVec 3) (beats : Nat) (act : LaneMask) (vals : List (Nat × List Word)) :
    s.loaded u d n ord beats act vals = (let s1 :=
      if u then (((List.range n).map (d + ·)).zip ((List.range n).map fun k => (((vals.find? (·.1 == 64)).map (·.2)).getD []).getD k 0)).foldl (fun s p => s.putS p.1 p.2 clsNONE) s
      else (State.allocRows ((List.range n).map (d + ·)) s).writeResults act ((List.range 64).map fun k => ((vals.find? (·.1 == k)).map (·.2)).getD []) 0 ((List.range n).map (d + ·))
      (if ord = 2 then s1.acquire s1.scope else s1).retire { beats := beats }) := rfl

theorem names_nodup (d n : Nat) : ((List.range n).map (d + ·)).Nodup := by
  unfold List.Nodup
  rw [List.pairwise_map]
  exact (List.nodup_range (n := n)).imp fun h e => h (by omega)

theorem getD_range_map (n : Nat) (ws : List Word) (i : Nat) (h : i < n) : ((List.range n).map fun k => ws.getD k 0).getD i 0 = ws.getD i 0 := by
  rw [List.getD_eq_getElem?_getD, List.getElem?_map, List.getElem?_range h]; rfl

theorem State.loaded_accessed {r q : State} {W : Place → Prop} {u : Bool} {d n : Nat} {ord : BitVec 3} {beats : Nat} {act : LaneMask} {vals : List (Nat × List Word)}
    {names : List Nat} {f : Nat → List Word}
    (hq : Reaches W r q) (hn : names = (List.range n).map (d + ·)) (h64 : u = true → ∀ m ∈ names, m < 64) (h48 : u = false → ∀ m ∈ names, m < 48) (hact : act = r.active)
    (hf : ∀ k, ((vals.find? (·.1 == k)).map (·.2)).getD [] = f k) :
    (∀ ag p, (q.loaded u d n ord beats act vals).readByte ag p = q.readByte ag p) ∧
      Accessed r (q.loaded u d n ord beats act vals) (if u then r.scalarsWith names (f 64) else r.me.sreg) (if u then r.me.vlane else r.vectorsWith names [] f) W := by
  rw [State.loaded_eq]
  dsimp only
  simp only [hf]
  have hnd := names_nodup d n
  subst hn
  have acq : ∀ (W : Place → Prop) (s1 : State), Reaches W s1 (if ord = 2 then s1.acquire s1.scope else s1) := fun W s1 => by
    split
    · exact (State.acquire_walks W 0 s1 _).1
    · exact .refl ..
  have fin : ∀ (s1 : State) (S : Nat → Word) (V : Nat → Nat → Word), s1.others = q.others → (∀ n, s1.me.sreg n = S n) → (∀ n k, s1.me.vlane n k = V n k) →
      s1.me.p = r.me.p → s1.me.cm = r.me.cm → s1.me.fpsf = r.me.fpsf → s1.me.gstat = r.me.gstat → (s1.me.laneCtr, s1.me.scalarCtr) = (r.me.laneCtr, r.me.scalarCtr) →
      s1.me.special = r.me.special → s1.me.paths = r.me.paths → s1.me.cur = r.me.cur →
      (∀ ag p, ((if ord = 2 then s1.acquire s1.scope else s1).retire { beats := beats }).readByte ag p = q.readByte ag p) ∧
      Accessed r ((if ord = 2 then s1.acquire s1.scope else s1).retire { beats := beats }) S V W := by
    intro s1 S V h1 h2 h3 h4 h5 h6 h7 h8 h9 h10 h11
    have hz := acq (fun _ => False) s1
    have hzW := acq W s1
    generalize (if ord = 2 then s1.acquire s1.scope else s1) = z at *
    have hfab : s1.fabric = r.fabric := (State.fabric_of_others h1).trans hq.rest
    have hm1 : ∀ ag p, s1.readByte ag p = q.readByte ag p := State.sameMemory_of_others h1
    -- r reaches a state with the group of r and the rest of z
    have hR : Reaches W r (z.withMe fun _ => r.me) := ⟨rfl, by
      have : (z.withMe fun _ => r.me).fabric = z.fabric := rfl
      rw [this, hzW.rest, hfab], fun ag p hp => by
      have : (z.withMe fun _ => r.me).readByte ag p = z.readByte ag p := rfl
      rw [this, hzW.memory ag p hp, hm1, hq.memory ag p hp]⟩
    have := State.retire_accessed (d := { beats := beats }) (w := z) (S := S) (V := V) hR rfl (by rw [hz.me]; exact h2) (by rw [hz.me]; exact h3) (by rw [hz.me]; exact h4) (by rw [hz.me]; exact h5)
      (by rw [hz.me]; exact h6) (by rw [hz.me]; exact h7) (by rw [hz.me]; exact h8) (by rw [hz.me]; exact h9) (by rw [hz.me]; exact h10) (by rw [hz.me]; exact h11) rfl
    refine ⟨fun ag p => ?_, this.2⟩
    rw [this.1 ag p]
    have : (z.withMe fun _ => r.me).readByte ag p = z.readByte ag p := rfl
    rw [this, hz.memory ag p (fun h => h), hm1]
  have hme := hq.me
  cases u with
  | true =>
    simp only [if_true]
    obtain ⟨a, b⟩ := State.putAll clsNONE ((List.range n).map (d + ·)) ((List.range n).map fun k => (f 64).getD k 0) q hnd (by simp) (h64 rfl)
    refine fin _ _ _ a.others (fun m => ?_) (fun m k => (Group.vlane_congr a.v m k).trans (by rw [hme])) (by rw [a.p, hme]) (by rw [a.cm, hme]) (by rw [a.fpsf, hme]) (by rw [a.gstat, hme])
      (by rw [a.laneCtr, a.scalarCtr, hme]) (by rw [a.special, hme]) (by rw [a.paths, hme]) (by rw [a.cur, hme])
    rw [b]
    unfold State.scalarsWith
    rw [hme]
    split
    · rename_i hm
      have := List.idxOf_lt_length_iff.mpr hm
      rw [getD_range_map _ _ _ (by simpa using this)]
    · rfl
  | false =>
    simp only [Bool.false_eq_true, if_false]
    obtain ⟨a, b, c, e⟩ := State.allocRows_lanes ((List.range n).map (d + ·)) q
    obtain ⟨g, h⟩ := State.writeResults_lanes act ((List.range 64).map fun k => f k) ((List.range n).map (d + ·)) 0 (State.allocRows ((List.range n).map (d + ·)) q) hnd
      fun m hm => e m hm (h48 rfl m hm)
    have w := a.trans g
    refine fin _ _ _ w.others (fun m => (Group.sreg_congr w.sc m).trans (by rw [hme])) (fun m k => ?_) (by rw [w.p, hme]) (by rw [w.cm, hme]) (by rw [w.fpsf, hme]) (by rw [w.gstat, hme])
      (by rw [w.laneCtr, w.scalarCtr, hme]) (by rw [w.special, hme]) (by rw [w.paths, hme]) (by rw [w.cur, hme])
    rw [h m k, hact, b, hme]
    unfold State.vectorsWith
    split
    · split
      · rename_i hk
        have hk64 : k < 64 := by
          refine Nat.lt_of_not_le fun hh => ?_
          rw [BitVec.getLsbD_of_ge _ _ hh] at hk; cases hk
        have : ((List.range 64).map fun k => f k).getD k [] = f k := by
          rw [List.getD_eq_getElem?_getD, List.getElem?_map, List.getElem?_range hk64]; rfl
        rw [this, Nat.zero_add]
      · rfl
    · simp [State.marks]

theorem State.accesses_go {r : State} {u strong : Bool} {k : Acc} {need : Nat} {as : List Access} {reads : Bool} {go : List Access → State → State}
    (h : r.mayAccess strong k need as reads = true) :
    r.accesses u strong k need as reads go = go (r.placed (r.groupAgent r.me) k as) (r.entered strong (r.placed (r.groupAgent r.me) k as)) := by
  unfold State.mayAccess at h
  simp only [Bool.and_eq_true, Bool.or_eq_true, Bool.not_eq_true', Option.isNone_iff_eq_none] at h
  obtain ⟨⟨h1, h2⟩, h3⟩ := h
  unfold State.accesses
  simp only [h1]
  rw [if_neg (by simp only [Bool.and_eq_true, Bool.not_eq_true', not_and, Bool.not_eq_false]; intro hw; rcases h2 with h | h; · rw [hw] at h; cases h
                 · exact h)]
  have : (if reads = true then (r.before (r.groupAgent r.me) strong (r.placed (r.groupAgent r.me) k as)).poisonOf (r.groupAgent r.me) (!strong) (r.placed (r.groupAgent r.me) k as) else none) = none := by
    split
    · rename_i hr; rcases h3 with h | h
      · rw [hr] at h; cases h
      · exact h
    · rfl
  rw [this]
  rfl

theorem Reaches.now {W : Place → Prop} {s t : State} (h : Reaches W s t) : t.now = s.now := (congrArg State.now h.rest : t.fabric.now = s.fabric.now)
/-- What a group reads of itself stands. -/
theorem Reaches.active {W : Place → Prop} {s t : State} (h : Reaches W s t) : t.active = s.active := by
  have : t.active = ({ s with me := t.me, now := t.now } : State).active := rfl
  rw [this, h.me, h.now]
theorem Reaches.operand {W : Place → Prop} {s t : State} (h : Reaches W s t) (u : Bool) (c : BitVec 6) (w : Bool) (k : Nat) :
    t.operand u c w k = s.operand u c w k := by
  have : t.operand u c w k = ({ s with me := t.me, now := t.now } : State).operand u c w k := rfl
  rw [this, h.me, h.now]
theorem Reaches.scope {W : Place → Prop} {s t : State} (h : Reaches W s t) : t.scope = s.scope := by
  unfold State.scope; rw [h.me]
theorem State.entered_within {W : Place → Prop} {r : State} (strong : Bool) (as : List Access) (h : Buffers W r.me.team r) : Walks W r.me.team r (r.entered strong as) :=
  (State.before_within (r.groupAgent r.me) (State.groupAgent_team _ _) strong as h).trans (State.noteTlb_walks ..)
theorem State.entered_weak (W : Place → Prop) (id : Nat) (r : State) (as : List Access) : Walks W id r (r.entered false as) :=
  (State.before_weak ..).trans (State.noteTlb_walks ..)
theorem LoadForm.of_load (ok : Bool → BitVec 6 → Bool) (sx : Bool) (size : Nat) (mk : BitVec 6 → BitVec 6 → Bool → BitVec 8 → BitVec 3 → Instr)
    (he : ∀ d a u off ord s, exec (mk d a u off ord) s = s.load (ok u d) sx size d a u off ord)
    (h64 : ∀ u d, ok u d = true → if u = true then ∀ m ∈ (List.range (regsOf size)).map (d.toNat + ·), m < 64 else ∀ m ∈ (List.range (regsOf size)).map (d.toNat + ·), m < 48) : LoadForm mk ok sx size := by
  intro s d a u off ord r as ps q names hr has hps hq hnm hok hc hrows hmay
  have hd : ok u d = true := by simp only [Bool.and_eq_true] at hok; exact hok.1.1
  obtain ⟨n0, hN⟩ : ∃ n, n = r.entered (ord != 0) ps := ⟨_, rfl⟩
  rw [← hN] at hq
  have hex : exec (mk d a u off ord) s = .next (q.2.loaded u d.toNat (regsOf size) ord (n0.askBeats u) n0.active (q.1.map fun x => (x.1, wordsOfBytes sx x.2))) := by
    rw [he]
    unfold State.load
    congr 1
    rw [State.checked_clear hok hc]
    change _ = _
    have : s.seen (if u = true then baseUse u a else Use.exm :: baseUse u a) = r := hr.symm
    rw [this]
    dsimp only
    rw [if_neg (by rw [← hnm]; rcases hrows with h | h <;> simp [h])]
    rw [State.accesses_go (as := List.map (fun k => ({ lane := k, va := r.effective u a off size k, size := size } : Access)) (r.askers u)) (by rw [← has]; exact hmay)]
    rw [← has, ← hps, ← hN, ← hq]
  have hboth : Reaches (fun p => ord ≠ 0 ∧ r.buffered p) r n0 ∧ Reaches (fun p => ord ≠ 0 ∧ r.buffered p) r q.2 := by
    rw [hq, hN]
    by_cases ho : ord = 0
    · have : (ord != 0) = false := by simp [ho]
      rw [this]
      have w := State.entered_weak (fun p => ord ≠ 0 ∧ r.buffered p) 0 r ps
      exact ⟨w.1, w.1.trans (State.loadAll_weak _ 0 _ _).1⟩
    · have hb : Buffers (fun p => ord ≠ 0 ∧ r.buffered p) r.me.team r := Buffers.of_buffered fun p h => ⟨ho, h⟩
      have w := State.entered_within (ord != 0) ps hb
      have hte : (r.entered (ord != 0) ps).me.team = r.me.team := by rw [w.1.me]
      exact ⟨w.1, w.1.trans (State.loadAll_within (ord != 0) ps (by rw [hte]; exact w.2 hb)).1⟩
  obtain ⟨hn0, hreach⟩ := hboth
  have hh := State.loaded_accessed (u := u) (d := d.toNat) (n := regsOf size) (ord := ord) (beats := n0.askBeats u)
    (act := n0.active) (vals := q.1.map fun x => (x.1, wordsOfBytes sx x.2)) (f := loadedWords sx q.1) hreach hnm
    (fun hu => by have := h64 u d hd; rw [if_pos hu] at this; rw [hnm]; exact this) (fun hu => by have := h64 u d hd; rw [if_neg (by simp [hu])] at this; rw [hnm]; exact this) hn0.active (fun k => rfl)
  exact ⟨_, hex, hh⟩

theorem range_map_lt {c : Nat} {d n : Nat} (h : d + n ≤ c) : ∀ m ∈ (List.range n).map (d + ·), m < c := by
  intro m hm
  obtain ⟨k, hk, rfl⟩ := List.mem_map.mp hm
  have := List.mem_range.mp hk
  omega
theorem one_fits {u : Bool} {d : BitVec 6} (h : rd u d = true) : if u = true then ∀ m ∈ (List.range 1).map (d.toNat + ·), m < 64 else ∀ m ∈ (List.range 1).map (d.toNat + ·), m < 48 := by
  have := d.isLt
  cases u
  · simp [rd, vr, small] at h ⊢; omega
  · simp; omega
theorem two_fit {u : Bool} {d : BitVec 6} (h : pr u d = true) : if u = true then ∀ m ∈ (List.range 2).map (d.toNat + ·), m < 64 else ∀ m ∈ (List.range 2).map (d.toNat + ·), m < 48 := by
  have := d.isLt
  cases u
  · simp [pr, even, vr, small] at h ⊢
    omega
  · simp [pr, even] at h ⊢; omega
theorem four_fit {u : Bool} {d : BitVec 6} (h : mult 4 u d = true) : if u = true then ∀ m ∈ (List.range 4).map (d.toNat + ·), m < 64 else ∀ m ∈ (List.range 4).map (d.toNat + ·), m < 48 := by
  have := d.isLt
  cases u
  · simp [mult, vr, small] at h ⊢
    omega
  · simp [mult] at h ⊢; omega

theorem StoreForm.of_store (ok : Bool → BitVec 6 → Bool) (size : Nat) (mk : BitVec 6 → BitVec 6 → Bool → BitVec 8 → BitVec 3 → Instr)
    (he : ∀ d a u off ord s, exec (mk d a u off ord) s = s.store (ok u d) size d a u off ord) : StoreForm mk ok size := by
  intro s d a u off ord uses r as ps hu hr has hps hok hc hmay
  have hex : exec (mk d a u off ord) s = .next ((ps.foldl (fun (q : State) x => q.storeAccess (q.groupAgent q.me) q.me.seq (ord != 0) x)
        (if ord = 3 then (r.entered (ord != 0) ps).release (r.entered (ord != 0) ps).scope else r.entered (ord != 0) ps)).retire
        { beats := (r.entered (ord != 0) ps).askBeats u }) := by
    rw [he]
    unfold State.store
    congr 1
    rw [State.checked_clear hok (by rw [← hu]; exact hc)]
    have : s.seen (if u = true then baseUse u a ++ List.map (fun k => ((srcA u d).plus k).use) (List.range (regsOf size))
      else Use.exm :: (baseUse u a ++ List.map (fun k => ((srcA u d).plus k).use) (List.range (regsOf size)))) = r := by rw [hr, hu]; rfl
    rw [this]
    dsimp only
    rw [State.accesses_go (as := List.map (fun k => ({ lane := k, va := r.effective u a off size k, size := size, data := r.storeData u d size k } : Access)) (r.askers u)) (by rw [← has]; exact hmay)]
    rw [← has, ← hps]
  let W := fun p => touched ps p ∨ r.buffered p
  have hb0 : Buffers W r.me.team r := Buffers.of_buffered fun p h => .inr h
  obtain ⟨w1, w2⟩ := State.entered_within (ord != 0) ps hb0
  have hb := w2 hb0
  rw [w1.scope] at hex
  refine ⟨_, hex, ?_⟩
  generalize r.entered (ord != 0) ps = n0 at *
  have h1 : Walks W r.me.team n0 (if ord = 3 then n0.release r.scope else n0) := by
    split
    · have := State.release_within (W := W) (s := n0) (by rw [w1.me]; exact hb) r.scope
      rw [w1.me] at this; exact this
    · exact .refl ..
  have hb1 := h1.2 hb
  have h2 := w1.trans h1.1
  generalize (if ord = 3 then n0.release r.scope else n0) = n1 at *
  have h3 : ∀ (l : List Access) (q : State), (∀ x ∈ l, x ∈ ps) → Reaches W r q → Buffers W r.me.team q →
      Reaches W r (l.foldl (fun (q : State) x => q.storeAccess (q.groupAgent q.me) q.me.seq (ord != 0) x) q) := by
    intro l
    induction l with
    | nil => intro q _ h _; exact h
    | cons x l ih =>
      intro q hx hq hbq
      rw [List.foldl_cons]
      have := State.storeAccess_within (W := W) (id := r.me.team) (q.groupAgent q.me) (by rw [State.groupAgent_team, hq.me]) q.me.seq (ord != 0) x hbq
        fun y hy i hi => .inl ⟨x, hx x (List.mem_cons_self ..), y, hy, i, hi, rfl⟩
      exact ih _ (fun y hy => hx y (List.mem_cons_of_mem _ hy)) (hq.trans this.1) (this.2 hbq)
  have h4 := h3 ps n1 (fun x h => h) h2 hb1
  generalize (ps.foldl (fun (q : State) x => q.storeAccess (q.groupAgent q.me) q.me.seq (ord != 0) x) n1) = n2 at *
  exact State.retire_accessed h4 rfl (fun n => by rw [h4.me]) (fun n k => by rw [h4.me]) (by rw [h4.me]) (by rw [h4.me]) (by rw [h4.me]) (by rw [h4.me]) (by rw [h4.me]) (by rw [h4.me]) (by rw [h4.me]) (by rw [h4.me]) rfl

theorem Refuse.first_none {l : List α} (f : α → Option Refuse) (x : Option Refuse) (h : l.foldl (fun r a => Refuse.first r (f a)) x = none) : x = none ∧ ∀ a ∈ l, f a = none := by
  induction l generalizing x with
  | nil => exact ⟨h, by simp⟩
  | cons a l ih =>
    obtain ⟨h1, h2⟩ := ih _ h
    have : x = none ∧ f a = none := by
      cases hx : x <;> cases hf : f a <;> simp [hx, hf, Refuse.first] at h1 ⊢
      split at h1 <;> cases h1
    refine ⟨this.1, fun b hb => ?_⟩
    rcases List.mem_cons.mp hb with rfl | hb
    · exact this.2
    · exact h2 b hb
theorem Refuse.first_some (c : Option Refuse) (x : Refuse) : Refuse.first c (some x) ≠ none := by
  cases c with
  | none => simp [Refuse.first]
  | some y => simp only [Refuse.first]; split <;> simp
theorem State.refusal_aligned {s : State} {ag : Agent} {k : Acc} {va n need : Nat} (h : s.refusal ag k va n need = none) (hn : need ≠ 0) : va % need = 0 := by
  unfold State.refusal at h
  have := (Refuse.first_none _ _ h).1
  rcases Nat.eq_zero_or_pos (va % need) with h0 | h0
  · exact h0
  · rw [if_pos (c := (decide (need ≠ 0) && decide (va % need ≠ 0)) = true) (by simp [hn]; omega)] at this
    cases this
theorem State.firstRefusal_none {s : State} {ag : Agent} {k : Acc} {need : Nat} {as : List Access} (h : s.firstRefusal ag k need as = none) :
    ∀ a ∈ as, s.refusal ag k a.va a.size need = none := by
  intro a ha
  unfold State.firstRefusal at h
  dsimp only at h
  split at h
  · rename_i h0
    have := (Refuse.first_none _ _ h0).2
    cases hr : s.refusal ag k a.va a.size need with
    | none => rfl
    | some r =>
      have := this (a.lane, r) (List.mem_filterMap.mpr ⟨a, ha, by rw [hr]; rfl⟩)
      cases this
  · cases h
theorem pieces_aligned {va n : Nat} (hn : n = 4 ∨ n = 8) (h : va % n = 0) : ∀ q ∈ pieces va n, q.2 = n := by
  intro q hq
  unfold pieces piecesOf at hq
  rw [if_neg (by omega)] at hq
  obtain ⟨i, hi, rfl⟩ := List.mem_map.mp hq
  have := List.mem_range.mp hi
  simp only
  rcases hn with rfl | rfl <;> omega
theorem State.atomicAt_within {W : Place → Prop} {s : State} (size : Nat) (f : Nat → Nat) (a : Access) (hb : Buffers W s.me.team s)
    (hw : ∀ q ∈ a.at_, ∀ i, i < q.2 → W (q.1.plus i)) (hz : ∀ q ∈ a.at_, q.2 = size) : Walks W s.me.team s (s.atomicAt size f a).2 := by
  unfold State.atomicAt
  cases hh : a.at_.head? with
  | none => exact .refl ..
  | some q =>
    obtain ⟨p, n⟩ := q
    have hq := List.mem_of_mem_head? hh
    have hn : n = size := hz _ hq
    refine (State.strongTouch_within hb p size).trans (State.performWrite_walks _ _ _ p _ fun i hi => hw _ hq i ?_)
    have : ∀ m v, (leBytes m v).length = m := fun m => by
      induction m with
      | zero => intro v; rfl
      | succ m ih => intro v; simp [leBytes, ih]
    rw [this] at hi
    omega
theorem State.performAll_within {W : Place → Prop} {r : State} (size : Nat) (f : Nat → Nat → Nat) (as : List Access) (s : State) (hr : Reaches W r s) (hb : Buffers W r.me.team s)
    (hw : ∀ a ∈ as, ∀ q ∈ a.at_, ∀ i, i < q.2 → W (q.1.plus i)) (hz : ∀ a ∈ as, ∀ q ∈ a.at_, q.2 = size) :
    Reaches W r (s.performAll size f as).2 := by
  induction as generalizing s with
  | nil => exact hr
  | cons a as ih =>
    unfold State.performAll
    have w := State.atomicAt_within (s := s) size (f a.lane) a (by rw [hr.me]; exact hb) (hw a (List.mem_cons_self ..)) (hz a (List.mem_cons_self ..))
    rw [hr.me] at w
    exact ih _ (hr.trans w.1) (w.2 hb) (fun a h => hw a (List.mem_cons_of_mem _ h)) fun a h => hz a (List.mem_cons_of_mem _ h)
theorem State.atomics_within {W : Place → Prop} {r : State} (size : Nat) (v : Bool) (f : Nat → Nat → Nat) (as : List Access) (s : State) (hr : Reaches W r s) (hb : Buffers W r.me.team s)
    (hw : ∀ a ∈ as, ∀ q ∈ a.at_, ∀ i, i < q.2 → W (q.1.plus i)) (hz : ∀ a ∈ as, ∀ q ∈ a.at_, q.2 = size) :
    Reaches W r (s.atomics size v f as).2 := by
  unfold State.atomics
  dsimp only
  generalize (if v = true then [] else s.badWords as) = bad
  have w := Walks.foldl (W := W) (id := r.me.team) (fun (s : State) w => s.unattributed s.me.part (s.wordOf w).1 w.paddr s.me.tile s.me.task true) bad s
    fun s _ _ => State.unattributed_walks ..
  exact State.performAll_within size f _ _ (hr.trans w.1) (w.2 hb) (fun a h => hw a (List.mem_filter.mp h).1) fun a h => hz a (List.mem_filter.mp h).1

theorem AtomicForm.of_atomic (mk : BitVec 6 → BitVec 6 → BitVec 6 → Bool → Bool → Bool → BitVec 3 → Instr) (ok : State → Bool → Bool → Bool → BitVec 6 → BitVec 6 → Bool)
    (wideB : Bool → Bool) (cas : Bool) (f : State → AtomicFn)
    (he : ∀ d a b u v z ord s, exec (mk d a b u v z ord) s = s.atomic (ok s u v z d b) d a b u v z ord (wideB z) cas f)
    (hok' : ∀ s u z d b, ok s u true z d b = true → (if z then pr u d else rd u d) = true)
    (hf : ∀ (r r' : State), r'.me = r.me → f r' = f r) : AtomicForm mk ok wideB cas f := by
  intro s d a b u v z ord uses r size as ps q names hu hr hsz has hps hq hnm hok hc hrows hmay
  have h0 : (ok s u v z d b) = true := by simp only [Bool.and_eq_true] at hok; exact hok.1.1
  obtain ⟨n0, hN⟩ : ∃ n, n = r.entered true ps := ⟨_, rfl⟩
  rw [← hN] at hq
  let W := fun p => touched ps p ∨ r.buffered p
  have hb0 : Buffers W r.me.team r := Buffers.of_buffered fun p h => .inr h
  obtain ⟨w1, w2⟩ := State.entered_within true ps hb0
  rw [← hN] at w1 w2
  have hb := w2 hb0
  have hn0 : n0.me = r.me := w1.me
  have hsc : n0.scope = r.scope := w1.scope
  have hact : n0.active = r.active := w1.active
  have hop : ∀ c w k, n0.operand u c w k = r.operand u c w k := fun c w k => w1.operand u c w k
  have hex : exec (mk d a b u v z ord) s = .next (
      if v then (if ord = 4 then q.2.acquire r.scope else q.2).loaded u d.toNat names.length ord (n0.askBeats u) r.active
        (q.1.map fun x => (x.1, if z then [BitVec.ofNat 32 x.2, BitVec.ofNat 32 (x.2 / 2 ^ 32)] else [BitVec.ofNat 32 x.2]))
      else (if ord = 2 then (if ord = 4 then q.2.acquire r.scope else q.2).acquire r.scope else (if ord = 4 then q.2.acquire r.scope else q.2)).retire { beats := n0.askBeats u }) := by
    rw [he]
    unfold State.atomic
    dsimp only
    congr 1
    rw [State.checked_clear hok (by rw [← hu]; exact hc)]
    have : s.seen (if u = true then baseUse u a ++ operandUse u b (wideB z) ++ (if cas then operandUse u d z else [])
      else Use.exm :: (baseUse u a ++ operandUse u b (wideB z) ++ (if cas then operandUse u d z else []))) = r := by rw [hr, hu]; rfl
    rw [this]
    rw [← hnm, ← hsz]
    rw [if_neg (by rcases hrows with h | h <;> simp [h])]
    rw [State.accesses_go (as := List.map (fun k => ({ lane := k, va := r.effective u a 0 size k, size := size } : Access)) (r.askers u)) (by rw [← has]; exact hmay)]
    rw [← has, ← hps, ← hN]
    have hff : f n0 = f r := hf r n0 hn0
    rw [hff, hact, hsc]
    simp only [hop]
    rw [hq]
    simp only [Bool.or_eq_true, decide_eq_true_eq]
  refine ⟨_, hex, ?_⟩
  have h1 : Walks W r.me.team n0 (if ord = 3 ∨ ord = 4 then n0.release r.scope else n0) := by
    split
    · have := State.release_within (W := W) (s := n0) (by rw [w1.me]; exact hb) r.scope
      rw [hn0] at this; exact this
    · exact .refl ..
  have hal : ∀ x ∈ ps, ∀ y ∈ x.at_, y.2 = size := by
    intro x hx y hy
    have hfr : r.firstRefusal (r.groupAgent r.me) .atomic size as = none := by
      unfold State.mayAccess at hmay
      simp only [Bool.and_eq_true, Option.isNone_iff_eq_none] at hmay
      exact hmay.1.1
    rw [hps] at hx
    obtain ⟨c, hc1, rfl⟩ := List.mem_map.mp hx
    have h2 := State.firstRefusal_none hfr c hc1
    have hcs : c.size = size := by
      rw [has] at hc1
      obtain ⟨k, _, rfl⟩ := List.mem_map.mp hc1; rfl
    have hsz' : size = 4 ∨ size = 8 := by rw [hsz]; cases z <;> simp
    have h3 := State.refusal_aligned h2 (by rcases hsz' with h | h <;> rw [h] <;> decide)
    obtain ⟨e, he1, he2⟩ := List.mem_filterMap.mp hy
    rw [hcs] at he1
    have h4 := pieces_aligned hsz' h3 e he1
    obtain ⟨e1, e2⟩ := e
    dsimp only at he2
    cases hl : r.locate (r.groupAgent r.me) .atomic e1 with
    | ok p => rw [hl] at he2; cases he2; exact h4
    | error _ => rw [hl] at he2; cases he2
  have h5 : Reaches W r q.2 := by
    rw [hq]
    exact State.atomics_within size v _ ps _ (w1.trans h1.1) (h1.2 hb) (fun x hx y hy i hi => .inl ⟨x, hx, y, hy, i, hi, rfl⟩) hal
  have acq : ∀ (c : Prop) [Decidable c] (x : State) n, Reaches (fun _ => False) x (if c then x.acquire n else x) := fun c _ x n => by
    split
    · exact (State.acquire_walks _ 0 _ _).1
    · exact .refl ..
  have h6 := acq (ord = 4) q.2 r.scope
  generalize (if ord = 4 then q.2.acquire r.scope else q.2) = x at *
  have h7 : Reaches W r x := h5.trans (h6.mono fun p h => h.elim)
  have hx : ∀ ag p, x.readByte ag p = q.2.readByte ag p := fun ag p => h6.memory ag p id
  cases v with
  | true =>
    simp only [if_true] at hnm ⊢
    have hl : names = (List.range names.length).map (d.toNat + ·) := by rw [hnm]; cases z <;> rfl
    have hd := hok' s u z d b h0
    have := State.loaded_accessed (u := u) (d := d.toNat) (n := names.length) (ord := ord) (beats := n0.askBeats u) (act := r.active)
      (vals := q.1.map fun x => (x.1, if z then [BitVec.ofNat 32 x.2, BitVec.ofNat 32 (x.2 / 2 ^ 32)] else [BitVec.ofNat 32 x.2])) (f := oldWords z q.1) h7 hl
      (fun hu => by
        subst hu
        have := d.isLt
        cases z
        · have := one_fits hd; simp at hnm; rw [hnm]; simpa using this
        · have := two_fit hd; simp at hnm; rw [hnm]; simpa [List.range_succ] using this)
      (fun hu => by
        subst hu
        have := d.isLt
        cases z
        · have := one_fits hd; simp at hnm; rw [hnm]; simpa using this
        · have := two_fit hd; simp at hnm; rw [hnm]; simpa [List.range_succ] using this) rfl (fun k => rfl)
    exact ⟨fun ag p => (this.1 ag p).trans (hx ag p), this.2⟩
  | false =>
    simp only [Bool.false_eq_true, if_false] at hnm ⊢
    have h8 := acq (ord = 2) x r.scope
    generalize (if ord = 2 then x.acquire r.scope else x) = y at *
    have h9 : Reaches W r y := h7.trans (h8.mono fun p h => h.elim)
    have := State.retire_accessed (d := { beats := n0.askBeats u }) (S := r.me.sreg) (V := r.me.vlane) h9 rfl (fun n => by rw [h9.me]) (fun n k => by rw [h9.me]) (by rw [h9.me]) (by rw [h9.me]) (by rw [h9.me]) (by rw [h9.me])
      (by rw [h9.me]) (by rw [h9.me]) (by rw [h9.me]) (by rw [h9.me]) rfl
    refine ⟨fun ag p => (this.1 ag p).trans ((h8.memory ag p id).trans (hx ag p)), ?_⟩
    have e1 : (if u = true then r.scalarsWith names (oldWords z q.1 64) else r.me.sreg) = r.me.sreg := by
      subst hnm; split <;> rfl
    have e2 : ∀ n k, (if u = true then r.me.vlane else r.vectorsWith names [] (oldWords z q.1)) n k = r.me.vlane n k := by
      intro n k; subst hnm; split
      · rfl
      · simp [State.vectorsWith, State.marks]
    have e3 : (if u = true then r.me.vlane else r.vectorsWith names [] (oldWords z q.1)) = r.me.vlane := funext fun n => funext fun k => e2 n k
    rw [e1, e3]; exact this.2

theorem dest_of {u z : Bool} {d : BitVec 6} (h : atDest u z true d = true) : (if z then pr u d else rd u d) = true := by
  simpa [atDest, atReg] using h
theorem dest_reg {u z : Bool} {d : BitVec 6} (h : atReg u z d = true) : (if z then pr u d else rd u d) = true := by
  simpa [atReg] using h

end Sys2Proof.Machine
end

