-- ==== Sys2Proof/Laws/Canonical.lean ====
section
/-! SUPPORT. Device memory, host memory and the shared banks stay in canonical form: every operation of the machine keeps it. -/

namespace Sys2Proof.Machine

/-- Three memories in canonical form. -/
def Canon (d h b : List Host.Cell) : Prop := Memory.wf d = true ∧ Memory.wf h = true ∧ Memory.wf b = true
/-- The memories of a state in canonical form. -/
abbrev Can (s : State) : Prop := Canon s.dev s.host s.bank
/-- The same of the state an instruction answers. -/
def OutCanon (o : Out) : Prop := ∀ t, o = .next t → Canon t.dev t.host t.bank
/-- The same of a state that may be absent. -/
def OptCanon (o : Option State) : Prop := ∀ t, o = some t → Canon t.dev t.host t.bank
/-- The same of the state in an optional pair. -/
def OptCanon2 {α : Type} (o : Option (α × State)) : Prop := ∀ t, o = some t → Canon t.2.dev t.2.host t.2.bank
/-- The same of the state of a successful access. -/
def ExCanon {ε : Type} (o : Except ε State) : Prop := ∀ t, o = .ok t → Canon t.dev t.host t.bank
/-- The same of the state of a failed access. -/
def ErrCanon {ε α : Type} (o : Except (ε × State) α) : Prop := ∀ t, o = .error t → Canon t.2.dev t.2.host t.2.bank
theorem OutCanon.mk {t : State} (h : Canon t.dev t.host t.bank) : OutCanon (.next t) := fun _ e => by injection e with e; rw [← e]; exact h
theorem OutCanon.stop {f : Fault} : OutCanon (.fault f) := fun _ e => by cases e
theorem OutCanon.refuse {f : Refusal} : OutCanon (.refused f) := fun _ e => by cases e
theorem OptCanon.mk {t : State} (h : Canon t.dev t.host t.bank) : OptCanon (some t) := fun _ e => by injection e with e; rw [← e]; exact h
theorem OptCanon.none : OptCanon .none := fun _ e => by cases e
theorem OptCanon2.mk {α : Type} {t : α × State} (h : Canon t.2.dev t.2.host t.2.bank) : OptCanon2 (some t) := fun _ e => by injection e with e; rw [← e]; exact h
theorem OptCanon2.none {α : Type} : OptCanon2 (α := α) .none := fun _ e => by cases e
theorem ExCanon.mk {ε : Type} {t : State} (h : Canon t.dev t.host t.bank) : ExCanon (ε := ε) (.ok t) := fun _ e => by injection e with e; rw [← e]; exact h
theorem ExCanon.error {ε : Type} {x : ε} : ExCanon (.error x) := fun _ e => by cases e
theorem ErrCanon.mk {ε α : Type} {t : ε × State} (h : Canon t.2.dev t.2.host t.2.bank) : ErrCanon (α := α) (.error t) := fun _ e => by injection e with e; rw [← e]; exact h
theorem ErrCanon.ok {ε α : Type} {x : α} : ErrCanon (ε := ε) (.ok x) := fun _ e => by cases e
theorem foldl_canon {β : Type} {f : State → β → State} {l : List β} {s : State} (h : Canon s.dev s.host s.bank)
    (hf : ∀ (t : State) a, Canon t.dev t.host t.bank → Canon (f t a).dev (f t a).host (f t a).bank) :
    Canon (l.foldl f s).dev (l.foldl f s).host (l.foldl f s).bank := by
  induction l generalizing s with
  | nil => exact h
  | cons a l ih => exact ih (hf s a h)
theorem foldl_canon_fst {α β : Type} {f : State × α → β → State × α} {l : List β} {s : State × α} (h : Canon s.1.dev s.1.host s.1.bank)
    (hf : ∀ (t : State × α) a, Canon t.1.dev t.1.host t.1.bank → Canon (f t a).1.dev (f t a).1.host (f t a).1.bank) :
    Canon (l.foldl f s).1.dev (l.foldl f s).1.host (l.foldl f s).1.bank := by
  induction l generalizing s with
  | nil => exact h
  | cons a l ih => exact ih (hf s a h)
theorem foldl_canon_snd {α β : Type} {f : α × State → β → α × State} {l : List β} {s : α × State} (h : Canon s.2.dev s.2.host s.2.bank)
    (hf : ∀ (t : α × State) a, Canon t.2.dev t.2.host t.2.bank → Canon (f t a).2.dev (f t a).2.host (f t a).2.bank) :
    Canon (l.foldl f s).2.dev (l.foldl f s).2.host (l.foldl f s).2.bank := by
  induction l generalizing s with
  | nil => exact h
  | cons a l ih => exact ih (hf s a h)
theorem foldl_canon_job  {β : Type} {f : (Job) → β → (Job)} {l : List β} {s : Job} (h : Canon s.s.dev s.s.host s.s.bank)
    (hf : ∀ (t : Job) a, Canon t.s.dev t.s.host t.s.bank → Canon (f t a).s.dev (f t a).s.host (f t a).s.bank) :
    Canon (l.foldl f s).s.dev (l.foldl f s).s.host (l.foldl f s).s.bank := by
  induction l generalizing s with
  | nil => exact h
  | cons a l ih => exact ih (hf s a h)
theorem foldl_canon_voxel  {β : Type} {f : (VoxelRun) → β → (VoxelRun)} {l : List β} {s : VoxelRun} (h : Canon s.j.s.dev s.j.s.host s.j.s.bank)
    (hf : ∀ (t : VoxelRun) a, Canon t.j.s.dev t.j.s.host t.j.s.bank → Canon (f t a).j.s.dev (f t a).j.s.host (f t a).j.s.bank) :
    Canon (l.foldl f s).j.s.dev (l.foldl f s).j.s.host (l.foldl f s).j.s.bank := by
  induction l generalizing s with
  | nil => exact h
  | cons a l ih => exact ih (hf s a h)
theorem foldl_canon_job_fst {α : Type} {β : Type} {f : (Job × α) → β → (Job × α)} {l : List β} {s : Job × α} (h : Canon s.1.s.dev s.1.s.host s.1.s.bank)
    (hf : ∀ (t : Job × α) a, Canon t.1.s.dev t.1.s.host t.1.s.bank → Canon (f t a).1.s.dev (f t a).1.s.host (f t a).1.s.bank) :
    Canon (l.foldl f s).1.s.dev (l.foldl f s).1.s.host (l.foldl f s).1.s.bank := by
  induction l generalizing s with
  | nil => exact h
  | cons a l ih => exact ih (hf s a h)
theorem foldl_canon_job_snd {α : Type} {β : Type} {f : (α × Job) → β → (α × Job)} {l : List β} {s : α × Job} (h : Canon s.2.s.dev s.2.s.host s.2.s.bank)
    (hf : ∀ (t : α × Job) a, Canon t.2.s.dev t.2.s.host t.2.s.bank → Canon (f t a).2.s.dev (f t a).2.s.host (f t a).2.s.bank) :
    Canon (l.foldl f s).2.s.dev (l.foldl f s).2.s.host (l.foldl f s).2.s.bank := by
  induction l generalizing s with
  | nil => exact h
  | cons a l ih => exact ih (hf s a h)
theorem foldl_canon_trd {α : Type} {γ : Type} {β : Type} {f : (α × γ × State) → β → (α × γ × State)} {l : List β} {s : α × γ × State} (h : Canon s.2.2.dev s.2.2.host s.2.2.bank)
    (hf : ∀ (t : α × γ × State) a, Canon t.2.2.dev t.2.2.host t.2.2.bank → Canon (f t a).2.2.dev (f t a).2.2.host (f t a).2.2.bank) :
    Canon (l.foldl f s).2.2.dev (l.foldl f s).2.2.host (l.foldl f s).2.2.bank := by
  induction l generalizing s with
  | nil => exact h
  | cons a l ih => exact ih (hf s a h)
theorem foldl_canon_job_trd {α : Type} {γ : Type} {β : Type} {f : (α × γ × Job) → β → (α × γ × Job)} {l : List β} {s : α × γ × Job} (h : Canon s.2.2.s.dev s.2.2.s.host s.2.2.s.bank)
    (hf : ∀ (t : α × γ × Job) a, Canon t.2.2.s.dev t.2.2.s.host t.2.2.s.bank → Canon (f t a).2.2.s.dev (f t a).2.2.s.host (f t a).2.2.s.bank) :
    Canon (l.foldl f s).2.2.s.dev (l.foldl f s).2.2.s.host (l.foldl f s).2.2.s.bank := by
  induction l generalizing s with
  | nil => exact h
  | cons a l ih => exact ih (hf s a h)
theorem OptCanon.ite {c : Prop} [Decidable c] {a b : Option State} (ha : OptCanon a) (hb : OptCanon b) : OptCanon (if c then a else b) := by split <;> assumption
theorem ErrCanon.map {ε α β : Type} {o : Except (ε × State) α} {f : α → β} (h : ErrCanon o) : ErrCanon (o.map f) := by
  cases o with
  | ok x => exact ErrCanon.ok
  | error e => exact fun t e2 => h t (by injection e2 with e2; rw [e2])
theorem ErrCanon.of_map {ε α β : Type} {o : Except (ε × State) α} {f : α → β} {x : ε × State} (e : o.map f = .error x) (h : ErrCanon o) : Canon x.2.dev x.2.host x.2.bank := ErrCanon.map h x e
theorem getD_canon {o : Option State} {s : State} (ho : OptCanon o) (h : Canon s.dev s.host s.bank) : Canon (o.getD s).dev (o.getD s).host (o.getD s).bank := by
  cases o with
  | none => exact h
  | some t => exact ho t rfl
theorem wf_filter (f : Host.Cell → Bool) : ∀ m : List Host.Cell, Memory.wf m = true → Memory.wf (m.filter f) = true := by
  intro m
  induction m with
  | nil => intro; rfl
  | cons c m ih =>
    intro h
    rw [List.filter_cons]
    split
    · exact Memory.wf_cons (Memory.wf_head h) (ih (Memory.wf_tail h)) fun d hd => Memory.wf_above h d (List.mem_filter.mp hd).1
    · exact ih (Memory.wf_tail h)

theorem State.setTeam_canon {s : State} {id : Nat} {f : Team → Team} (h0 : Can s) : Can (State.setTeam s id f) := by
  unfold State.setTeam
  with_reducible repeat' (first | assumption)
theorem State.setPart_canon {s : State} {p : Nat} {f : Partition → Partition} (h0 : Can s) : Can (State.setPart s p f) := by
  unfold State.setPart
  with_reducible repeat' (first | assumption | dsimp only [id_eq, Can] | split)
theorem State.setVersion_canon {s : State} {part : Nat} {num : Nat} {f : Version → Version} (h0 : Can s) : Can (State.setVersion s part num f) := by
  unfold State.setVersion
  with_reducible repeat' (first | assumption | apply State.setPart_canon)
theorem State.snoop_canon {s : State} {ag : Agent} {pa : Nat} {b : Byte} (h0 : Can s) : Can (State.snoop s ag pa b) := by
  unfold State.snoop
  with_reducible repeat' (first | assumption | dsimp only [id_eq, Can] | split)
theorem State.writeByte_canon {s : State} {ag : Agent} {p : Place} {b : Byte} (h0 : Can s) : Can (State.writeByte s ag p b) := by
  unfold State.writeByte
  repeat' (first
    | (with_reducible assumption)
    | (with_reducible apply State.setTeam_canon)
    | (with_reducible apply State.snoop_canon)
    | (with_reducible apply State.setVersion_canon)
    | exact ⟨Memory.wf_set h0.1 _ _, h0.2.1, h0.2.2⟩
    | exact ⟨h0.1, Memory.wf_set h0.2.1 _ _, h0.2.2⟩
    | exact ⟨h0.1, h0.2.1, Memory.wf_set h0.2.2 _ _⟩
    | split
    | dsimp only)
theorem State.writeBytes_canon {s : State} {ag : Agent} {p : Place} {a3 : List Byte} (h0 : Can s) : Can (State.writeBytes s ag p a3) := by
  induction a3 generalizing s ag p with
  | nil =>
    unfold State.writeBytes
    with_reducible repeat' (first | apply ih | assumption | apply State.writeByte_canon)
  | cons x xs ih =>
    unfold State.writeBytes
    with_reducible repeat' (first | apply ih | assumption | apply State.writeByte_canon)
theorem State.notePatrol_canon {s : State} {ag : Agent} {p : Place} {n : Nat} (h0 : Can s) : Can (State.notePatrol s ag p n) := by
  unfold State.notePatrol
  with_reducible repeat' (first | assumption | dsimp only [id_eq, Can] | split)
theorem State.unstrike_canon {s : State} {kind : Nat} {tile : Nat} {addr : Nat} (h0 : Can s) : Can (State.unstrike s kind tile addr) := by
  unfold State.unstrike
  with_reducible repeat' (first | assumption)
theorem State.msi_canon {s : State} {fn : Nat} {vec : Nat} (h0 : Can s) : Can (State.msi s fn vec) := by
  unfold State.msi
  with_reducible repeat' (first | assumption)
theorem State.pushCause_canon {s : State} {part : Nat} {fc : FaultCause} (h0 : Can s) : Can (State.pushCause s part fc) := by
  unfold State.pushCause
  with_reducible repeat' (first | assumption | apply State.setPart_canon | apply State.msi_canon | dsimp only [id_eq, Can] | split)
theorem State.countUe_canon {s : State} {part : Nat} (h0 : Can s) : Can (State.countUe s part) := by
  unfold State.countUe
  with_reducible repeat' (first | assumption | apply State.setPart_canon)
theorem State.unattributed_canon {s : State} {part : Nat} {kind : Nat} {paddr : Nat} {tile : Nat} {task : Nat} {write : optParam Bool Bool.false} (h0 : Can s) : Can (State.unattributed s part kind paddr tile task write) := by
  unfold State.unattributed
  with_reducible repeat' (first | assumption | apply State.pushCause_canon | apply State.countUe_canon)
theorem State.overwritten_canon {s : State} {ag : Agent} {p : Place} {n : Nat} (h0 : Can s) : Can (State.overwritten s ag p n) := by
  unfold State.overwritten
  with_reducible repeat' (first | assumption | apply State.notePatrol_canon | apply State.unstrike_canon | apply State.unattributed_canon | apply foldl_canon | intro _ | dsimp only [id_eq, Can] | split)
theorem State.performWrite_canon {s : State} {ag : Agent} {p : Place} {bs : List Byte} (h0 : Can s) : Can (State.performWrite s ag p bs) := by
  unfold State.performWrite
  with_reducible repeat' (first | assumption | apply State.writeBytes_canon | apply State.overwritten_canon)
theorem State.drainEntry_canon {s : State} {team : Nat} {line : Nat} (h0 : Can s) : Can (State.drainEntry s team line) := by
  unfold State.drainEntry
  with_reducible repeat' (first | assumption | apply State.setTeam_canon | apply State.performWrite_canon | apply foldl_canon | intro _ | dsimp only [id_eq, Can] | split)
theorem State.drainAll_canon {s : State} {team : Nat} (h0 : Can s) : Can (State.drainAll s team) := by
  unfold State.drainAll
  with_reducible repeat' (first | assumption | apply State.drainEntry_canon | apply foldl_canon | intro _)
theorem State.haltRecord_canon {s : State} {g : Group} {path : Nat} {id : Nat} {killed : Bool} {cause : Nat} (h0 : Can s) : Can (State.haltRecord s g path id killed cause) := by
  unfold State.haltRecord
  with_reducible repeat' (first | assumption | apply State.setPart_canon)
theorem State.killedRecords_canon {s : State} {g : Group} (h0 : Can s) : Can (State.killedRecords s g) := by
  unfold State.killedRecords
  with_reducible repeat' (first | assumption | apply State.haltRecord_canon | apply foldl_canon | intro _)
theorem State.discardVersion_canon {s : State} {part : Nat} {task : Nat} (h0 : Can s) : Can (State.discardVersion s part task) := by
  unfold State.discardVersion
  with_reducible repeat' (first | assumption | apply State.setPart_canon)
theorem State.review_canon {s : State} {part : Nat} (h0 : Can s) : Can (State.review s part) := by
  unfold State.review
  with_reducible repeat' (first | assumption | apply State.setPart_canon)
theorem State.leaveUnit_canon {s : State} {part : Nat} {num : Nat} (h0 : Can s) : Can (State.leaveUnit s part num) := by
  unfold State.leaveUnit
  with_reducible repeat' (first | assumption | apply State.review_canon | apply State.setPart_canon)
theorem State.cancelChain_canon {s : State} {team : Nat} {future : Nat} (h0 : Can s) : Can (State.cancelChain s team future) := by
  unfold State.cancelChain
  with_reducible repeat' (first | assumption | apply State.leaveUnit_canon | apply foldl_canon | intro _)
theorem State.cancelFuture_canon {s : State} {team : Nat} {k : Nat} (h0 : Can s) : Can (State.cancelFuture s team k) := by
  unfold State.cancelFuture
  with_reducible repeat' (first | assumption | apply State.cancelChain_canon | apply State.setTeam_canon | dsimp only [id_eq, Can] | split)
theorem State.writeHead_canon {s : State} {part : Nat} {k : Nat} (h0 : Can s) : Can (State.writeHead s part k) := by
  unfold State.writeHead
  split
  · exact ⟨h0.1, h0.2.1, Memory.wf_setBytes h0.2.2 _ _⟩
  · exact h0
theorem State.withdrawIf_canon {s : State} {pick : Nat → Nat → Bool} (h0 : Can s) : Can (State.withdrawIf s pick) := by
  unfold State.withdrawIf
  with_reducible repeat' (first | assumption | apply State.writeHead_canon | apply foldl_canon | intro _)
theorem State.withdraw_canon {s : State} {seq : Nat} (h0 : Can s) : Can (State.withdraw s seq) := by
  unfold State.withdraw
  with_reducible repeat' (first | assumption | apply State.withdrawIf_canon)
theorem State.leave_canon {s : State} {g : Group} (h0 : Can s) : Can (State.leave s g) := by
  unfold State.leave
  with_reducible repeat' (first | assumption | dsimp only [id_eq, Can] | split)
theorem State.captureSlots_canon {s : State} {part : Nat} (h0 : Can s) : Can (State.captureSlots s part) := by
  unfold State.captureSlots
  with_reducible repeat' (first | assumption | apply State.setPart_canon | dsimp only [id_eq, Can] | split)
theorem State.setChannel_canon {s : State} {tile : Nat} {f : Channel → Channel} (h0 : Can s) : Can (State.setChannel s tile f) := by
  unfold State.setChannel
  with_reducible repeat' (first | assumption)
theorem State.sound_canon {s : State} {kind : Nat} {tile : Nat} {lo : Nat} {n : Nat} (h0 : Can s) : Can (State.sound s kind tile lo n) := by
  unfold State.sound
  with_reducible repeat' (first | assumption | dsimp only [id_eq, Can] | split)
theorem State.discardFifo_canon {s : State} {tile : Nat} (h0 : Can s) : Can (State.discardFifo s tile) := by
  unfold State.discardFifo
  with_reducible repeat' (first | assumption | apply State.sound_canon | apply State.setChannel_canon)
theorem State.endStack_canon {s : State} {t : Team} (h0 : Can s) : Can (State.endStack s t) := by
  unfold State.endStack
  with_reducible repeat' (first | assumption | apply State.setChannel_canon | apply State.discardFifo_canon | apply foldl_canon | intro _)
theorem State.removeTeam_canon {s : State} {id : Nat} (h0 : Can s) : Can (State.removeTeam s id) := by
  unfold State.removeTeam
  with_reducible repeat' (first | assumption | apply State.cancelFuture_canon | apply State.withdraw_canon | apply State.leave_canon | apply State.setPart_canon | apply State.captureSlots_canon | apply State.endStack_canon | apply foldl_canon | intro _ | dsimp only [id_eq, Can] | split)
theorem State.flushTask_canon {s : State} {part : Nat} {task : Nat} (h0 : Can s) : Can (State.flushTask s part task) := by
  unfold State.flushTask
  with_reducible repeat' (first | assumption | apply State.drainAll_canon | apply State.killedRecords_canon | apply State.discardVersion_canon | apply State.cancelChain_canon | apply State.removeTeam_canon | apply State.setPart_canon | apply foldl_canon | intro _ | split)
theorem State.flushDying_canon {s : State} (h0 : Can s) : Can (State.flushDying s) := by
  unfold State.flushDying
  with_reducible repeat' (first | assumption | apply State.flushTask_canon | apply foldl_canon | intro _)
theorem State.killTask_canon {s : State} {part : Nat} {task : Nat} (h0 : Can s) : Can (State.killTask s part task) := by
  unfold State.killTask
  with_reducible repeat' (first | assumption | apply State.flushDying_canon | apply State.setPart_canon)
theorem State.withMe_canon {s : State} {f : Group → Group} (h0 : Can s) : Can (State.withMe s f) := by
  unfold State.withMe
  with_reducible repeat' (first | assumption)
theorem State.setPath_canon {s : State} {f : Path → Path} (h0 : Can s) : Can (State.setPath s f) := by
  unfold State.setPath
  with_reducible repeat' (first | assumption | apply State.withMe_canon)
theorem State.systemCause_canon {s : State} {c : Cause} {xpc : DWord} (h0 : Can s) : Can (State.systemCause s c xpc) := by
  unfold State.systemCause
  with_reducible repeat' (first | assumption | apply State.killTask_canon | apply State.pushCause_canon | apply State.withMe_canon | apply State.setPath_canon | dsimp only [id_eq, Can] | split)
theorem State.killAll_canon {s : State} {p : Nat} (h0 : Can s) : Can (State.killAll s p) := by
  unfold State.killAll
  with_reducible repeat' (first | assumption | apply State.killTask_canon | apply foldl_canon | intro _)
theorem State.atelierWrite_canon {s : State} {part : Nat} {va : Nat} {bs : List Byte} (h0 : Can s) : ExCanon (State.atelierWrite s part va bs) := by
  unfold State.atelierWrite
  with_reducible repeat' (first | assumption | apply State.performWrite_canon | apply ExCanon.mk | exact ExCanon.error | apply foldl_canon_snd | intro _ | dsimp only [id_eq, Can] | split)
theorem State.atelierWrite_canon_of {s : State} {part : Nat} {va : Nat} {bs : List Byte} {y : State} (e : (State.atelierWrite s part va bs) = .ok y) (h0 : Can s) : Can y :=
  State.atelierWrite_canon h0 y e
theorem State.clearKeys_canon {s : State} {p : Nat} (h0 : Can s) : Can (State.clearKeys s p) := by
  unfold State.clearKeys
  with_reducible repeat' (first | assumption)
theorem State.stopStores_canon {s : State} {p : Nat} (h0 : Can s) : Can (State.stopStores s p) := by
  unfold State.stopStores
  with_reducible repeat' (first | assumption | refine State.atelierWrite_canon_of (by assumption) ?_ | apply State.setPart_canon | apply State.clearKeys_canon | dsimp only [id_eq, Can] | split)
theorem State.setSlot_canon {s : State} {j : Nat} {f : Slot → Slot} (h0 : Can s) : Can (State.setSlot s j f) := by
  unfold State.setSlot
  with_reducible repeat' (first | assumption)
theorem State.ttSound_canon {s : State} {j : Nat} (h0 : Can s) : Can (State.ttSound s j) := by
  unfold State.ttSound
  with_reducible repeat' (first | assumption)
theorem State.stopUnits_canon {s : State} {p : Nat} (h0 : Can s) : Can (State.stopUnits s p) := by
  unfold State.stopUnits
  with_reducible repeat' (first | assumption | apply State.setSlot_canon | apply State.ttSound_canon | apply State.setPart_canon | apply foldl_canon | intro _)
theorem State.zeroPrivate_canon {s : State} {p : Nat} (h0 : Can s) : Can (State.zeroPrivate s p) := by
  unfold State.zeroPrivate
  exact ⟨wf_filter _ _ h0.1, h0.2.1, h0.2.2⟩
theorem State.announce_canon {s : State} {part : Nat} (h0 : Can s) : Can (State.announce s part) := by
  unfold State.announce
  with_reducible repeat' (first | assumption | apply State.msi_canon)
theorem State.stopFinish_canon {s : State} {p : Nat} (h0 : Can s) : Can (State.stopFinish s p) := by
  unfold State.stopFinish
  with_reducible repeat' (first | assumption | apply State.stopStores_canon | apply State.stopUnits_canon | apply State.zeroPrivate_canon | apply State.announce_canon | apply State.setPart_canon | dsimp only [id_eq, Can] | split)
theorem State.stopAdvance_canon {s : State} {p : Nat} (h0 : Can s) : Can (State.stopAdvance s p) := by
  unfold State.stopAdvance
  with_reducible repeat' (first | assumption | apply State.killAll_canon | apply State.stopFinish_canon | dsimp only [id_eq, Can] | split)
theorem State.create_canon {s : State} {p : Nat} (h0 : Can s) : OptCanon (State.create s p) := by
  unfold State.create
  with_reducible repeat' (first | assumption | apply State.announce_canon | apply State.setPart_canon | apply OptCanon.mk | exact OptCanon.none | dsimp only [id_eq, Can] | apply OptCanon.ite)
theorem State.create_canon_of {s : State} {p : Nat} {y : State} (e : (State.create s p) = some y) (h0 : Can s) : Can y :=
  State.create_canon h0 y e
theorem State.destroy_canon {s : State} {p : Nat} (h0 : Can s) : OptCanon (State.destroy s p) := by
  unfold State.destroy
  with_reducible repeat' (first | assumption | apply State.clearKeys_canon | apply State.announce_canon | apply State.setPart_canon | apply OptCanon.mk | exact OptCanon.none | dsimp only [id_eq, Can] | apply OptCanon.ite)
theorem State.destroy_canon_of {s : State} {p : Nat} {y : State} (e : (State.destroy s p) = some y) (h0 : Can s) : Can y :=
  State.destroy_canon h0 y e
theorem State.start_canon {s : State} {p : Nat} (h0 : Can s) : OptCanon (State.start s p) := by
  unfold State.start
  with_reducible repeat' (first | assumption | apply State.announce_canon | apply State.setPart_canon | apply OptCanon.mk | exact OptCanon.none | apply OptCanon.ite)
theorem State.start_canon_of {s : State} {p : Nat} {y : State} (e : (State.start s p) = some y) (h0 : Can s) : Can y :=
  State.start_canon h0 y e
theorem State.stopBegin_canon {s : State} {p : Nat} (h0 : Can s) : Can (State.stopBegin s p) := by
  unfold State.stopBegin
  with_reducible repeat' (first | assumption | apply State.stopAdvance_canon | apply State.setPart_canon)
theorem State.stop_canon {s : State} {p : Nat} (h0 : Can s) : OptCanon (State.stop s p) := by
  unfold State.stop
  with_reducible repeat' (first | assumption | apply State.stopBegin_canon | apply OptCanon.mk | exact OptCanon.none | dsimp only [id_eq, Can] | apply OptCanon.ite)
theorem State.stop_canon_of {s : State} {p : Nat} {y : State} (e : (State.stop s p) = some y) (h0 : Can s) : Can y :=
  State.stop_canon h0 y e
theorem State.partCommand_canon {s : State} {cmd : Nat} {p : Nat} (h0 : Can s) : Can (State.partCommand s cmd p) := by
  unfold State.partCommand
  dsimp only
  split
  · rename_i x e
    show Can x
    split at e
    · exact State.create_canon_of e h0
    · exact State.destroy_canon_of e h0
    · exact State.start_canon_of e h0
    · exact State.stop_canon_of e h0
  · exact h0
theorem State.charge_canon {s : State} {d : Done} (h0 : Can s) : Can (State.charge s d) := by
  unfold State.charge
  with_reducible repeat' (first | assumption | apply State.withMe_canon)
theorem State.setGroup_canon {s : State} {seq : Nat} {f : Group → Group} (h0 : Can s) : Can (State.setGroup s seq f) := by
  unfold State.setGroup
  with_reducible repeat' (first | assumption | dsimp only [id_eq, Can] | split)
theorem State.restartGroup_canon {s : State} {seq : Nat} (h0 : Can s) : Can (State.restartGroup s seq) := by
  unfold State.restartGroup
  with_reducible repeat' (first | assumption | apply State.withdrawIf_canon | apply State.setGroup_canon | apply State.setPart_canon | apply State.pushCause_canon | dsimp only [id_eq, Can] | split)
theorem State.uerr_canon {s : State} {c : Cause} (h0 : Can s) : Can (State.uerr s c) := by
  unfold State.uerr
  with_reducible repeat' (first | assumption | apply State.countUe_canon | apply State.charge_canon | apply State.restartGroup_canon | apply State.withMe_canon | apply State.killTask_canon | apply State.pushCause_canon | dsimp only [id_eq, Can] | split)
theorem State.userTrap_canon {s : State} {cause : Word} {mask : LaneMask} {xpc : DWord} {inst : Word} (h0 : Can s) : Can (State.userTrap s cause mask xpc inst) := by
  unfold State.userTrap
  with_reducible repeat' (first | assumption | apply State.withMe_canon)
theorem State.raise_canon {s : State} {c : Cause} (h0 : Can s) : Can (State.raise s c) := by
  unfold State.raise
  with_reducible repeat' (first | assumption | apply State.uerr_canon | apply State.setPath_canon | apply State.charge_canon | apply State.userTrap_canon | apply State.systemCause_canon | dsimp only [id_eq, Can] | split)
theorem State.checkedFor_canon {s : State} {act : LaneMask} {legal : Bool} {once : Bool} {uses : List Use} {k : State → State} (h0 : Can s) (h1 : ∀ (t0 : State), Can t0 → Can (k t0)) : Can (State.checkedFor s act legal once uses k) := by
  unfold State.checkedFor
  with_reducible repeat' (first | assumption | apply h1 | apply State.raise_canon | apply State.withMe_canon | dsimp only [id_eq, Can] | split)
theorem State.checked_canon {s : State} {legal : Bool} {once : Bool} {uses : List Use} {k : State → State} (h0 : Can s) (h1 : ∀ (t0 : State), Can t0 → Can (k t0)) : Can (State.checked s legal once uses k) := by
  unfold State.checked
  with_reducible repeat' (first | assumption | apply State.checkedFor_canon)
theorem State.unread_canon {s : State} (h0 : Can s) : Can (State.unread s) := by
  unfold State.unread
  with_reducible repeat' (first | assumption | apply State.withMe_canon | dsimp only [id_eq, Can] | split)
theorem State.noRows_canon {s : State} {marked : List Nat} {dests : List Nat} (h0 : Can s) : Can (State.noRows s marked dests) := by
  unfold State.noRows
  with_reducible repeat' (first | assumption | apply State.withMe_canon | apply State.unread_canon)
theorem State.fail_canon {s : State} {c : Cause} (h0 : Can s) : Can (State.fail s c) := by
  unfold State.fail
  with_reducible repeat' (first | assumption | apply State.raise_canon | apply State.unread_canon)
theorem State.refuse_canon {s : State} {r : Refuse} {mask : LaneMask} {write : Bool} (h0 : Can s) : Can (State.refuse s r mask write) := by
  unfold State.refuse
  with_reducible repeat' (first | assumption | apply State.fail_canon)
theorem State.block_canon {s : State} {w : Wait} (h0 : Can s) : Can (State.block s w) := by
  unfold State.block
  with_reducible repeat' (first | assumption | apply State.setPath_canon | apply State.withMe_canon | apply State.charge_canon | dsimp only [id_eq, Can] | split)
theorem State.strongTouch_canon {s : State} {team : Option Nat} {p : Place} {n : Nat} (h0 : Can s) : Can (State.strongTouch s team p n) := by
  unfold State.strongTouch
  with_reducible repeat' (first | assumption | apply State.setTeam_canon | apply State.drainEntry_canon | apply foldl_canon | intro _ | dsimp only [id_eq, Can] | split)
theorem State.settleShare_canon {s : State} {team : Nat} (h0 : Can s) : Can (State.settleShare s team) := by
  unfold State.settleShare
  with_reducible repeat' (first | assumption | apply State.setTeam_canon | dsimp only [id_eq, Can] | split)
theorem State.before_canon {s : State} {ag : Agent} {strong : Bool} {as : List Access} (h0 : Can s) : Can (State.before s ag strong as) := by
  unfold State.before
  with_reducible repeat' (first | assumption | apply State.strongTouch_canon | apply State.settleShare_canon | apply foldl_canon | intro _ | dsimp only [id_eq, Can] | split)
theorem State.setMyTeam_canon {s : State} {f : Team → Team} (h0 : Can s) : Can (State.setMyTeam s f) := by
  unfold State.setMyTeam
  with_reducible repeat' (first | assumption | apply State.setTeam_canon)
theorem State.dropStruckLine_canon {s : State} {kind : Nat} {addr : Nat} {pa : Nat} (h0 : Can s) : Can (State.dropStruckLine s kind addr pa) := by
  unfold State.dropStruckLine
  with_reducible repeat' (first | assumption | apply State.setMyTeam_canon | apply State.unstrike_canon | dsimp only [id_eq, Can] | split)
theorem State.consume_canon {s : State} {kind : Nat} {addr : Nat} {pa : Nat} {mask : LaneMask} {write : Bool} (h0 : Can s) : Can (State.consume s kind addr pa mask write) := by
  unfold State.consume
  with_reducible repeat' (first | assumption | apply State.fail_canon | apply State.dropStruckLine_canon)
theorem State.noteTlb_canon {s : State} {core : Option Nat} {part : Nat} {a3 : List Nat} (h0 : Can s) : Can (State.noteTlb s core part a3) := by
  induction a3 generalizing s core part with
  | nil =>
    unfold State.noteTlb
    with_reducible repeat' (first | apply ih | assumption | dsimp only [id_eq, Can] | split)
  | cons x xs ih =>
    unfold State.noteTlb
    with_reducible repeat' (first | apply ih | assumption | dsimp only [id_eq, Can] | split)
theorem State.accesses_canon {s : State} {u : Bool} {strong : Bool} {k : Acc} {need : Nat} {as : List Access} {reads : Bool} {go : List Access → State → State} (h0 : Can s) (h1 : ∀ (t0 : List Access) (t1 : State), Can t1 → Can (go t0 t1)) : Can (State.accesses s u strong k need as reads go) := by
  unfold State.accesses
  with_reducible repeat' (first | assumption | apply h1 | apply State.refuse_canon | apply State.block_canon | apply State.before_canon | apply State.consume_canon | apply State.noteTlb_canon | dsimp only [id_eq, Can] | split)
theorem State.release_canon {s : State} {scope : Nat} (h0 : Can s) : Can (State.release s scope) := by
  unfold State.release
  with_reducible repeat' (first | assumption | apply State.drainAll_canon | dsimp only [id_eq, Can] | split)
theorem State.atomicAt_canon {s : State} {size : Nat} {f : Nat → Nat} {a : Access} (h0 : Can s) : Can (State.atomicAt s size f a).2 := by
  unfold State.atomicAt
  with_reducible repeat' (first | assumption | apply State.strongTouch_canon | apply State.performWrite_canon | dsimp only [id_eq, Can] | split)
theorem State.atomicAt_canon_of {s : State} {size : Nat} {f : Nat → Nat} {a : Access} {y0 : Nat} {y1 : State} (eq0 : (State.atomicAt s size f a) = (y0, y1)) (h0 : Can s) : Can y1 := by
  have h : Can (State.atomicAt s size f a).2 := State.atomicAt_canon h0
  rw [eq0] at h; exact h
theorem State.performAll_canon {s : State} {size : Nat} {f : Nat → Nat → Nat} {a3 : List Access} (h0 : Can s) : Can (State.performAll s size f a3).2 := by
  induction a3 generalizing s size f with
  | nil =>
    unfold State.performAll
    with_reducible repeat' (first | apply ih | assumption | apply State.atomicAt_canon)
  | cons x xs ih =>
    unfold State.performAll
    with_reducible repeat' (first | apply ih | assumption | apply State.atomicAt_canon)
theorem State.performAll_canon_of {s : State} {size : Nat} {f : Nat → Nat → Nat} {a3 : List Access} {y0 : List (Nat × Nat)} {y1 : State} (eq0 : (State.performAll s size f a3) = (y0, y1)) (h0 : Can s) : Can y1 := by
  have h : Can (State.performAll s size f a3).2 := State.performAll_canon h0
  rw [eq0] at h; exact h
theorem State.atomics_canon {s : State} {size : Nat} {returns : Bool} {f : Nat → Nat → Nat} {as : List Access} (h0 : Can s) : Can (State.atomics s size returns f as).2 := by
  unfold State.atomics
  with_reducible repeat' (first | assumption | apply State.unattributed_canon | apply State.performAll_canon | apply foldl_canon | intro _)
theorem State.atomics_canon_of {s : State} {size : Nat} {returns : Bool} {f : Nat → Nat → Nat} {as : List Access} {y0 : List (Nat × Nat)} {y1 : State} (eq0 : (State.atomics s size returns f as) = (y0, y1)) (h0 : Can s) : Can y1 := by
  have h : Can (State.atomics s size returns f as).2 := State.atomics_canon h0
  rw [eq0] at h; exact h
theorem State.acquire_canon {s : State} {scope : Nat} (h0 : Can s) : Can (State.acquire s scope) := by
  unfold State.acquire
  with_reducible repeat' (first | assumption | apply State.setMyTeam_canon | dsimp only [id_eq, Can] | split)
theorem State.putS_canon {s : State} {n : Nat} {x : Word} {lat : Nat} (h0 : Can s) : Can (State.putS s n x lat) := by
  unfold State.putS
  with_reducible repeat' (first | assumption | apply State.withMe_canon)
theorem State.mendRow_canon {s : State} {n : Nat} {act : LaneMask} (h0 : Can s) : Can (State.mendRow s n act) := by
  unfold State.mendRow
  with_reducible repeat' (first | assumption | dsimp only [id_eq, Can] | split)
theorem State.writeLanes_canon {s : State} {n : Nat} {act : LaneMask} {f : Nat → Word} (h0 : Can s) : Can (State.writeLanes s n act f) := by
  unfold State.writeLanes
  with_reducible repeat' (first | assumption | apply State.withMe_canon | apply State.mendRow_canon)
theorem State.writeResults_canon {s : State} {act : LaneMask} {res : List (List Word)} {a3 : Nat} {a4 : List Nat} (h0 : Can s) : Can (State.writeResults s act res a3 a4) := by
  induction a4 generalizing s act res a3 with
  | nil =>
    unfold State.writeResults
    with_reducible repeat' (first | apply ih | assumption | apply State.writeLanes_canon)
  | cons x xs ih =>
    unfold State.writeResults
    with_reducible repeat' (first | apply ih | assumption | apply State.writeLanes_canon)
theorem State.mendName_canon {s : State} {n : Nat} (h0 : Can s) : Can (State.mendName s n) := by
  unfold State.mendName
  with_reducible repeat' (first | assumption | dsimp only [id_eq, Can] | split)
theorem State.allocRows_canon {a0 : List Nat} {a1 : State} (h0 : Can a1) : Can (State.allocRows a0 a1) := by
  induction a0 generalizing a1 with
  | nil =>
    unfold State.allocRows
    with_reducible repeat' (first | apply ih | assumption | apply State.mendRow_canon | apply State.mendName_canon | apply State.withMe_canon | dsimp only [id_eq, Can] | split)
  | cons x xs ih =>
    unfold State.allocRows
    with_reducible repeat' (first | apply ih | assumption | apply State.mendRow_canon | apply State.mendName_canon | apply State.withMe_canon | dsimp only [id_eq, Can] | split)
theorem State.count_canon {s : State} {d : Done} (h0 : Can s) : Can (State.count s d) := by
  unfold State.count
  with_reducible repeat' (first | assumption | apply State.setPath_canon | apply State.setMyTeam_canon)
theorem State.retire_canon {s : State} {d : Done} (h0 : Can s) : Can (State.retire s d) := by
  unfold State.retire
  with_reducible repeat' (first | assumption | apply State.charge_canon | apply State.count_canon | apply State.setPath_canon | apply State.withMe_canon | dsimp only [id_eq, Can] | split)
theorem State.loaded_canon {s : State} {u : Bool} {d : Nat} {n : Nat} {ord : BitVec 3} {beats : Nat} {act : LaneMask} {vals : List (Nat × List Word)} (h0 : Can s) : Can (State.loaded s u d n ord beats act vals) := by
  unfold State.loaded
  with_reducible repeat' (first | assumption | apply State.putS_canon | apply State.writeResults_canon | apply State.allocRows_canon | apply State.retire_canon | apply State.acquire_canon | apply foldl_canon | intro _ | dsimp only [id_eq, Can] | split)
theorem State.atomic_canon {s : State} {ok : Bool} {d : BitVec 6} {a : BitVec 6} {b : BitVec 6} {u : Bool} {v : Bool} {wide : Bool} {ord : BitVec 3} {wideB : Bool} {cas : Bool} {f : State → AtomicFn} (h0 : Can s) : OutCanon (State.atomic s ok d a b u v wide ord wideB cas f) := by
  unfold State.atomic
  with_reducible repeat' (first | assumption | apply State.checked_canon | apply State.noRows_canon | apply State.accesses_canon | apply State.release_canon | apply State.atomics_canon | apply State.acquire_canon | apply State.loaded_canon | apply State.retire_canon | apply OutCanon.mk | intro _ | dsimp only [id_eq, Can] | split)
theorem State.atomicOp_canon {s : State} {d : BitVec 6} {a : BitVec 6} {b : BitVec 6} {u : Bool} {v : Bool} {z : Bool} {r : BitVec 3} {f : State → AtomicFn} (h0 : Can s) : OutCanon (State.atomicOp s d a b u v z r f) := by
  unfold State.atomicOp
  with_reducible repeat' (first | assumption | apply State.atomic_canon)
theorem State.setFlags_canon {s : State} {fl : Nat} (h0 : Can s) : Can (State.setFlags s fl) := by
  unfold State.setFlags
  with_reducible repeat' (first | assumption | apply State.withMe_canon)
theorem State.finish_canon {s : State} {d : Done} {fl : Nat} {raised : Nat → LaneMask} (h0 : Can s) : Can (State.finish s d fl raised) := by
  unfold State.finish
  with_reducible repeat' (first | assumption | apply State.setFlags_canon | apply State.retire_canon | apply State.raise_canon | apply State.charge_canon | apply State.count_canon | dsimp only [id_eq, Can] | split)
theorem State.putCMBits_canon {s : State} {m : DWord} {x : DWord} {lat : Nat} (h0 : Can s) : Can (State.putCMBits s m x lat) := by
  unfold State.putCMBits
  with_reducible repeat' (first | assumption | apply State.withMe_canon)
theorem State.putCMBit_canon {s : State} {k : Nat} {b : Bool} {lat : Nat} (h0 : Can s) : Can (State.putCMBit s k b lat) := by
  unfold State.putCMBit
  with_reducible repeat' (first | assumption | apply State.putCMBits_canon)
theorem State.freeMarked_canon {marked : List Nat} {dests : List Nat} {s : State} (h0 : Can s) : Can (State.freeMarked marked dests s) := by
  unfold State.freeMarked
  with_reducible repeat' (first | assumption | apply State.withMe_canon)
theorem State.compare_canon {s : State} {c : Compare} (h0 : Can s) : Can (State.compare s c) := by
  unfold State.compare
  with_reducible repeat' (first | assumption | apply State.checked_canon | apply State.finish_canon | apply State.putCMBit_canon | apply State.withMe_canon | apply State.freeMarked_canon | intro _ | dsimp only [id_eq, Can] | split)
theorem State.once_canon {s : State} {legal : Bool} {uses : List Use} {stall : BitVec 2} {f : State → State} (h0 : Can s) (h1 : ∀ (t0 : State), Can t0 → Can (f t0)) : Can (State.once s legal uses stall f) := by
  unfold State.once
  with_reducible repeat' (first | assumption | apply h1 | apply State.checked_canon | apply State.retire_canon | intro _)
theorem State.replaceRows_canon {marked : List Nat} {a1 : List Nat} {a2 : State} (h0 : Can a2) : Can (State.replaceRows marked a1 a2) := by
  induction a1 generalizing marked a2 with
  | nil =>
    unfold State.replaceRows
    with_reducible repeat' (first | apply ih | assumption | apply State.withMe_canon | dsimp only [id_eq, Can] | split)
  | cons x xs ih =>
    unfold State.replaceRows
    with_reducible repeat' (first | apply ih | assumption | apply State.withMe_canon | dsimp only [id_eq, Can] | split)
theorem State.collect_canon {s : State} {dests : List Nat} {marked : List Nat} {pass : Nat} {late : Bool} {w : BitVec 2} {act : LaneMask} {res : List (List Word × Nat)} (h0 : Can s) : Can (State.collect s dests marked pass late w act res) := by
  unfold State.collect
  with_reducible repeat' (first | assumption | apply State.noRows_canon | apply State.replaceRows_canon | apply State.allocRows_canon | apply State.writeResults_canon | apply State.withMe_canon | apply State.finish_canon | apply State.freeMarked_canon | dsimp only [id_eq, Can] | split)
theorem State.advance_canon {s : State} {u : Bool} {act : LaneMask} (h0 : Can s) : Can (State.advance s u act) := by
  unfold State.advance
  with_reducible repeat' (first | assumption | apply State.withMe_canon)
theorem State.cross_canon {s : State} {legal : Bool} {uses : List Use} {dests : List Nat} {marks : List Nat} {w : BitVec 2} {late : Bool} {draws : Bool} {f : State → LaneMask → List (List Word × Nat)} (h0 : Can s) : Can (State.cross s legal uses dests marks w late draws f) := by
  unfold State.cross
  with_reducible repeat' (first | assumption | apply State.checked_canon | apply State.collect_canon | apply State.advance_canon | intro _ | dsimp only [id_eq, Can] | split)
theorem State.setEngine_canon {s : State} {e : Nat} {f : Engine → Engine} (h0 : Can s) : Can (State.setEngine s e f) := by
  unfold State.setEngine
  with_reducible repeat' (first | assumption | dsimp only [id_eq, Can] | split)
theorem State.dropChain_canon {s : State} {e : Nat} {c : Chain} (h0 : Can s) : Can (State.dropChain s e c) := by
  unfold State.dropChain
  with_reducible repeat' (first | assumption | apply State.setEngine_canon)
theorem State.resolveChain_canon {s : State} {e : Nat} {c : Chain} {st : FutureState} {w : Word} (h0 : Can s) : Can (State.resolveChain s e c st w) := by
  unfold State.resolveChain
  with_reducible repeat' (first | assumption | apply State.dropChain_canon | apply State.setTeam_canon | dsimp only [id_eq, Can] | split)
theorem State.engineMet_canon {s : State} {c : Chain} {w : Option Place} (h0 : Can s) : Can (State.engineMet s c w) := by
  unfold State.engineMet
  with_reducible repeat' (first | assumption | apply State.unattributed_canon | dsimp only [id_eq, Can] | split)
theorem State.engineRead_canon {s : State} {c : Chain} {va : Nat} {n : Nat} (h0 : Can s) : ErrCanon (State.engineRead s c va n) := by
  unfold State.engineRead
  with_reducible repeat' (first | assumption | apply State.engineMet_canon | apply ErrCanon.mk | exact ErrCanon.ok | split)
theorem State.engineRead_canon_of {s : State} {c : Chain} {va : Nat} {n : Nat} {y} (e : (State.engineRead s c va n) = .error y) (h0 : Can s) : Can y.2 :=
  State.engineRead_canon h0 y e
theorem State.nextEntry_canon {s : State} {c : Chain} (h0 : Can s) : ErrCanon (State.nextEntry s c) := by
  unfold State.nextEntry
  with_reducible repeat' (first | assumption | apply State.engineRead_canon | apply ErrCanon.mk | exact ErrCanon.ok | split)
theorem State.nextEntry_canon_of {s : State} {c : Chain} {y} (e : (State.nextEntry s c) = .error y) (h0 : Can s) : Can y.2 :=
  State.nextEntry_canon h0 y e
theorem State.illFormed_canon {s : State} {e : Nat} {c : Chain} (h0 : Can s) : Can (State.illFormed s e c) := by
  unfold State.illFormed
  with_reducible repeat' (first | assumption | apply State.resolveChain_canon)
theorem State.setStation_canon {s : State} {k : Nat} {q : List TTOp} (h0 : Can s) : Can (State.setStation s k q) := by
  unfold State.setStation
  with_reducible repeat' (first | assumption)
theorem State.ttOp_canon {s : State} {ok : Bool} {uses : List Use} {vslot : Option Word} {acq : Bool} {rel : Bool} {kind : State → TTKind} {done : State → Nat → List Word → State} (h0 : Can s) (h1 : ∀ (t0 : State) (t1 : Nat) (t2 : List Word), Can t0 → Can (done t0 t1 t2)) : OutCanon (State.ttOp s ok uses vslot acq rel kind done) := by
  unfold State.ttOp
  with_reducible repeat' (first | assumption | apply h1 | apply State.raise_canon | apply State.retire_canon | apply State.acquire_canon | apply State.checked_canon | apply State.block_canon | apply State.release_canon | apply State.setStation_canon | apply OutCanon.mk | intro _ | dsimp only [id_eq, Can] | split)
theorem State.putWords_canon {s : State} {d : Nat} {ws : List Word} (h0 : Can s) : Can (State.putWords s d ws) := by
  unfold State.putWords
  with_reducible repeat' (first | assumption | apply State.putS_canon | apply foldl_canon | intro _)
theorem State.cmp_canon {s : State} {ok : Bool} {d : BitVec 6} {a : BitVec 6} {b : BitVec 6} {w : BitVec 2} {u : Bool} {x : Bool} {y : Bool} {f : State → Word → Word → Bool × Nat} (h0 : Can s) : Can (State.cmp s ok d a b w u x y f) := by
  unfold State.cmp
  with_reducible repeat' (first | assumption | apply State.compare_canon)
theorem State.fcmp_canon {s : State} {d : BitVec 6} {a : BitVec 6} {b : BitVec 6} {w : BitVec 2} {u : Bool} {x : Bool} {y : Bool} {both : Bool} {f : Fp → Fp → Bool × Nat} (h0 : Can s) : OutCanon (State.fcmp s d a b w u x y both f) := by
  unfold State.fcmp
  with_reducible repeat' (first | assumption | apply State.cmp_canon | apply OutCanon.mk)
theorem State.countStale_canon {s : State} {owner : Option Nat} {n : Nat} (h0 : Can s) : Can (State.countStale s owner n) := by
  unfold State.countStale
  with_reducible repeat' (first | assumption | apply State.setPart_canon | dsimp only [id_eq, Can] | split)
theorem State.stalePost_canon {s : State} (h0 : Can s) : Can (State.stalePost s) := by
  unfold State.stalePost
  with_reducible repeat' (first | assumption | apply State.countStale_canon | dsimp only [id_eq, Can] | split)
theorem State.setPatrolReg_canon {s : State} {ch : Nat} {k : Nat} {v : Word} (h0 : Can s) : Can (State.setPatrolReg s ch k v) := by
  unfold State.setPatrolReg
  with_reducible repeat' (first | assumption)
theorem State.branch_canon {s : State} {taken : Bool} {i : BitVec 18} (h0 : Can s) : Can (State.branch s taken i) := by
  unfold State.branch
  with_reducible repeat' (first | assumption | apply State.retire_canon | dsimp only [id_eq, Can] | split)
theorem State.onLink_canon {s : State} {f : State → State} (h0 : Can s) (h1 : ∀ (t0 : State), Can t0 → Can (f t0)) : Can (State.onLink s f) := by
  unfold State.onLink
  with_reducible repeat' (first | assumption | apply h1 | dsimp only [id_eq, Can] | split)
theorem State.answerMsg_canon {s : State} {sess : Nat} {kind : Nat} {content : Nat} (h0 : Can s) : Can (State.answerMsg s sess kind content) := by
  unfold State.answerMsg
  with_reducible repeat' (first | assumption)
theorem State.tdispError_canon {s : State} {sess : Nat} (h0 : Can s) : Can (State.tdispError s sess) := by
  unfold State.tdispError
  with_reducible repeat' (first | assumption | apply State.answerMsg_canon)
theorem State.tdisp_canon {s : State} {sess : Nat} {vf : Nat} {ok : Partition → Bool} {f : Nat → State → State} (h0 : Can s) (h1 : ∀ (t0 : Nat) (t1 : State), Can t1 → Can (f t0 t1)) : OutCanon (State.tdisp s sess vf ok f) := by
  unfold State.tdisp
  with_reducible repeat' (first | assumption | apply h1 | apply State.onLink_canon | apply State.tdispError_canon | apply OutCanon.mk | intro _ | dsimp only [id_eq, Can] | split)
theorem State.shuffle_canon {s : State} {ok : Bool} {d : BitVec 6} {a : BitVec 6} {uses : List Use} {marks : List Nat} {w : BitVec 2} {late : Bool} {f : State → Nat → Int} (h0 : Can s) : OutCanon (State.shuffle s ok d a uses marks w late f) := by
  unfold State.shuffle
  with_reducible repeat' (first | assumption | apply State.cross_canon | apply OutCanon.mk)
theorem State.reduce_canon {s : State} {legal : Bool} {uses : List Use} {dests : List Nat} {marks : List Nat} {w : BitVec 2} {draws : Bool} {f : State → LaneMask → List Word × List (Nat × Nat)} (h0 : Can s) : Can (State.reduce s legal uses dests marks w draws f) := by
  unfold State.reduce
  with_reducible repeat' (first | assumption | apply State.checked_canon | apply State.advance_canon | apply State.putS_canon | apply State.finish_canon | apply State.freeMarked_canon | apply foldl_canon | intro _ | split)
theorem State.endSession_canon {s : State} {sess : Nat} (h0 : Can s) : Can (State.endSession s sess) := by
  unfold State.endSession
  with_reducible repeat' (first | assumption | apply State.setPart_canon | apply State.stopBegin_canon | apply foldl_canon | intro _ | dsimp only [id_eq, Can] | split)
theorem State.linkReset_canon {s : State} (h0 : Can s) : Can (State.linkReset s) := by
  unfold State.linkReset
  with_reducible repeat' (first | assumption | apply State.msi_canon | apply State.endSession_canon | apply foldl_canon | dsimp only [id_eq, Can] | split)
theorem State.setPool_canon {s : State} {part : Nat} {n : Nat} {f : Pool → Pool} (h0 : Can s) : Can (State.setPool s part n f) := by
  unfold State.setPool
  with_reducible repeat' (first | assumption | apply State.setPart_canon)
theorem State.freePool_canon {s : State} {part : Nat} {n : Nat} {branches : List Nat} (h0 : Can s) : Can (State.freePool s part n branches).2 := by
  unfold State.freePool
  with_reducible repeat' (first | assumption | apply State.setPool_canon | apply foldl_canon | intro _ | dsimp only [id_eq, Can] | split)
theorem State.freePool_canon_of {s : State} {part : Nat} {n : Nat} {branches : List Nat} {y0 : Nat} {y1 : State} (eq0 : (State.freePool s part n branches) = (y0, y1)) (h0 : Can s) : Can y1 := by
  have h : Can (State.freePool s part n branches).2 := State.freePool_canon h0
  rw [eq0] at h; exact h
theorem State.freeOnCancel_canon {s : State} {part : Nat} {branches : List Nat} (h0 : Can s) : Can (State.freeOnCancel s part branches).2 := by
  unfold State.freeOnCancel
  with_reducible repeat' (first | assumption | apply State.freePool_canon | apply foldl_canon_snd | intro _)
theorem State.freeOnCancel_canon_of {s : State} {part : Nat} {branches : List Nat} {y0 : Nat} {y1 : State} (eq0 : (State.freeOnCancel s part branches) = (y0, y1)) (h0 : Can s) : Can y1 := by
  have h : Can (State.freeOnCancel s part branches).2 := State.freeOnCancel_canon h0
  rw [eq0] at h; exact h
theorem State.atelierFault_canon {s : State} {part : Nat} {r : Refuse} {write : Bool} (h0 : Can s) : Can (State.atelierFault s part r write) := by
  unfold State.atelierFault
  with_reducible repeat' (first | assumption | apply State.pushCause_canon)
theorem State.imageWrite_canon {s : State} {part : Nat} {va : Nat} {bs : List Byte} (h0 : Can s) : Can (State.imageWrite s part va bs) := by
  unfold State.imageWrite
  with_reducible repeat' (first | assumption | refine State.atelierWrite_canon_of (by assumption) ?_ | apply State.atelierFault_canon | dsimp only [id_eq, Can] | split)
theorem State.setMould_canon {s : State} {part : Nat} {n : Nat} {f : Mould → Mould} (h0 : Can s) : Can (State.setMould s part n f) := by
  unfold State.setMould
  with_reducible repeat' (first | assumption | apply State.setPart_canon)
theorem State.closeUp_canon {s : State} {part : Nat} {n : Nat} {k : Nat} {branches : List Nat} (h0 : Can s) : Can (State.closeUp s part n k branches).2 := by
  unfold State.closeUp
  with_reducible repeat' (first | assumption | apply State.imageWrite_canon | apply State.setMould_canon | apply foldl_canon | intro _ | dsimp only [id_eq, Can] | split)
theorem State.closeUp_canon_of {s : State} {part : Nat} {n : Nat} {k : Nat} {branches : List Nat} {y0 : Nat} {y1 : State} (eq0 : (State.closeUp s part n k branches) = (y0, y1)) (h0 : Can s) : Can y1 := by
  have h : Can (State.closeUp s part n k branches).2 := State.closeUp_canon h0
  rw [eq0] at h; exact h
theorem State.dropRows_canon {s : State} {part : Nat} {branches : List Nat} (h0 : Can s) : Can (State.dropRows s part branches).2 := by
  unfold State.dropRows
  with_reducible repeat' (first | assumption | apply State.closeUp_canon | apply foldl_canon_snd | intro _ | dsimp only [id_eq, Can] | split)
theorem State.dropRows_canon_of {s : State} {part : Nat} {branches : List Nat} {y0 : Nat} {y1 : State} (eq0 : (State.dropRows s part branches) = (y0, y1)) (h0 : Can s) : Can y1 := by
  have h : Can (State.dropRows s part branches).2 := State.dropRows_canon h0
  rw [eq0] at h; exact h
theorem State.finishCancels_canon {s : State} (h0 : Can s) : Can (State.finishCancels s) := by
  unfold State.finishCancels
  with_reducible repeat' (first | assumption | apply State.freeOnCancel_canon | apply State.dropRows_canon | apply State.setPart_canon | apply foldl_canon | intro _)
theorem State.markDying_canon {s : State} {part : Nat} {f : Task → Bool} (h0 : Can s) : Can (State.markDying s part f) := by
  unfold State.markDying
  with_reducible repeat' (first | assumption | apply State.setPart_canon)
theorem State.fire_canon {s : State} {part : Nat} {source : Nat} (h0 : Can s) : Can (State.fire s part source) := by
  unfold State.fire
  with_reducible repeat' (first | assumption | apply State.setPart_canon | apply State.finishCancels_canon | apply State.flushDying_canon | apply State.markDying_canon | dsimp only [id_eq, Can] | split)
theorem State.bankAccesses_canon {s : State} {u : Bool} {as : List Access} {need : Nat} {first : Option Refuse} {go : List Access → State → State} (h0 : Can s) (h1 : ∀ (t0 : List Access) (t1 : State), Can t1 → Can (go t0 t1)) : Can (State.bankAccesses s u as need first go) := by
  unfold State.bankAccesses
  with_reducible repeat' (first | assumption | apply State.refuse_canon | apply State.accesses_canon | dsimp only [id_eq, Can] | split)
theorem State.bankFill_canon {s : State} {d : BitVec 6} {a : BitVec 6} {b : BitVec 6} {f : Nat → Nat → Nat} (h0 : Can s) : OutCanon (State.bankFill s d a b f) := by
  unfold State.bankFill
  with_reducible repeat' (first | assumption | apply State.checked_canon | apply State.bankAccesses_canon | apply State.retire_canon | apply State.atomics_canon | apply OutCanon.mk | intro _)
theorem State.setUnveiling_canon {s : State} {part : Nat} {f : Unveiling → Unveiling} (h0 : Can s) : Can (State.setUnveiling s part f) := by
  unfold State.setUnveiling
  with_reducible repeat' (first | assumption | apply State.setPart_canon)
theorem State.writeResult_canon {s : State} {part : Nat} {u : Unveiling} (h0 : Can s) : Can (State.writeResult s part u) := by
  unfold State.writeResult
  with_reducible repeat' (first | assumption | refine State.atelierWrite_canon_of (by assumption) ?_ | apply State.setUnveiling_canon | apply State.atelierFault_canon | apply State.msi_canon | dsimp only [id_eq, Can] | split)
theorem State.calc_canon {s : State} {c : Calc} (h0 : Can s) : Can (State.calc s c) := by
  unfold State.calc
  with_reducible repeat' (first | assumption | apply State.checked_canon | apply State.advance_canon | apply State.putS_canon | apply State.finish_canon | apply State.noRows_canon | apply State.writeResults_canon | apply State.replaceRows_canon | apply State.allocRows_canon | apply State.freeMarked_canon | apply foldl_canon | intro _ | dsimp only [id_eq, Can] | split)
theorem State.tri_canon {s : State} {ok : Bool} {d : BitVec 6} {a : BitVec 6} {b : BitVec 6} {w : BitVec 2} {u : Bool} {x : Bool} {y : Bool} {z : Bool} {per : Nat} {cls : Nat} {draws : Bool} {f : State → Nat → Word → Word → Word → Word × Nat} (h0 : Can s) : Can (State.tri s ok d a b w u x y z per cls draws f) := by
  unfold State.tri
  with_reducible repeat' (first | assumption | apply State.calc_canon)
theorem State.hostWriteRun_canon {s : State} {addr : Nat} {bs : List Byte} (h0 : Can s) : Can (State.hostWriteRun s addr bs) := by
  unfold State.hostWriteRun
  with_reducible repeat' (first | assumption | apply State.performWrite_canon | dsimp only [id_eq, Can] | split)
theorem State.keyStatus_canon {s : State} {p : Nat} {code : Nat} (h0 : Can s) : Can (State.keyStatus s p code) := by
  unfold State.keyStatus
  with_reducible repeat' (first | assumption | apply State.setPart_canon)
theorem State.bin_canon {s : State} {ok : Bool} {d : BitVec 6} {a : BitVec 6} {b : BitVec 6} {w : BitVec 2} {u : Bool} {x : Bool} {y : Bool} {per : Nat} {cls : Nat} {draws : Bool} {f : State → Nat → Word → Word → Word × Nat} (h0 : Can s) : Can (State.bin s ok d a b w u x y per cls draws f) := by
  unfold State.bin
  with_reducible repeat' (first | assumption | apply State.calc_canon)
theorem State.logic_canon {s : State} {d : BitVec 6} {a : BitVec 6} {b : BitVec 6} {w : BitVec 2} {u : Bool} {x : Bool} {y : Bool} {f : Word → Word → Word} (h0 : Can s) : OutCanon (State.logic s d a b w u x y f) := by
  unfold State.logic
  with_reducible repeat' (first | assumption | apply State.bin_canon | apply OutCanon.mk)
theorem State.una_canon {s : State} {ok : Bool} {d : BitVec 6} {a : BitVec 6} {w : BitVec 2} {u : Bool} {x : Bool} {per : Nat} {cls : Nat} {draws : Bool} {f : State → Nat → Word → Word × Nat} (h0 : Can s) : Can (State.una s ok d a w u x per cls draws f) := by
  unfold State.una
  with_reducible repeat' (first | assumption | apply State.calc_canon)
theorem State.special_canon {s : State} {d : BitVec 6} {a : BitVec 6} {w : BitVec 2} {u : Bool} {x : Bool} {f : Fmt → Env → Fp → Nat × Nat} (h0 : Can s) : OutCanon (State.special s d a w u x f) := by
  unfold State.special
  with_reducible repeat' (first | assumption | apply State.una_canon | apply OutCanon.mk)
theorem State.readmit_canon {s : State} {tile : Nat} {x : Group × Nat} (h0 : Can s) : Can (State.readmit s tile x) := by
  unfold State.readmit
  with_reducible repeat' (first | assumption)
theorem State.mapTeams_canon {s : State} {pick : Team → Bool} {f : Team → Team} (h0 : Can s) : Can (State.mapTeams s pick f) := by
  unfold State.mapTeams
  with_reducible repeat' (first | assumption)
theorem State.restoreTeam_canon {s : State} {v : Saved} {ts : List Nat} (h0 : Can s) : Can (State.restoreTeam s v ts) := by
  unfold State.restoreTeam
  with_reducible repeat' (first | assumption | apply State.readmit_canon | apply State.settleShare_canon | apply State.mapTeams_canon | apply State.setChannel_canon | apply foldl_canon | intro _)
theorem State.reboard_canon {s : State} {part : Nat} (h0 : Can s) : Can (State.reboard s part) := by
  unfold State.reboard
  with_reducible repeat' (first | assumption | apply State.setPart_canon | apply foldl_canon | intro _ | split)
theorem State.setMailbox_canon {s : State} {id : Nat} {f : Mailbox → Mailbox} (h0 : Can s) : Can (State.setMailbox s id f) := by
  unfold State.setMailbox
  with_reducible repeat' (first | assumption)
theorem State.storeMail_canon {s : State} {id : Nat} {m : MailSlot} (h0 : Can s) : Can (State.storeMail s id m) := by
  unfold State.storeMail
  with_reducible repeat' (first | assumption | apply State.setMailbox_canon | apply State.sound_canon)
theorem State.spdmError_canon {s : State} {sess : Nat} (h0 : Can s) : Can (State.spdmError s sess) := by
  unfold State.spdmError
  with_reducible repeat' (first | assumption | apply State.answerMsg_canon)
theorem State.spdm_canon {s : State} {sess : Nat} {ok : Bool} {f : State → State} (h0 : Can s) (h1 : ∀ (t0 : State), Can t0 → Can (f t0)) : OutCanon (State.spdm s sess ok f) := by
  unfold State.spdm
  with_reducible repeat' (first | assumption | apply h1 | apply State.onLink_canon | apply State.spdmError_canon | apply OutCanon.mk | intro _ | dsimp only [id_eq, Can] | split)
theorem State.injectAt_canon {s : State} {r : Nat} {used : List Nat} (h0 : Can s) : Can (State.injectAt s r used) := by
  unfold State.injectAt
  with_reducible repeat' (first | assumption | dsimp only [id_eq, Can] | split)
theorem State.recordOf_canon {s : State} {part : Nat} (h0 : Can s) : OptCanon2 (State.recordOf s part) := by
  unfold State.recordOf
  with_reducible repeat' (first | assumption | refine State.atelierWrite_canon_of (by assumption) ?_ | apply OptCanon2.mk | exact OptCanon2.none | dsimp only [id_eq, Can] | split)
theorem State.recordOf_canon_of {s : State} {part : Nat} {y} (e : (State.recordOf s part) = some y) (h0 : Can s) : Can y.2 :=
  State.recordOf_canon h0 y e
theorem State.mapGroups_canon {s : State} {pick : Group → Bool} {f : Group → Group} (h0 : Can s) : Can (State.mapGroups s pick f) := by
  unfold State.mapGroups
  with_reducible repeat' (first | assumption)
theorem State.noHandler_canon {s : State} {part : Nat} {c : FaultCause} (h0 : Can s) : Can (State.noHandler s part c) := by
  unfold State.noHandler
  with_reducible repeat' (first | assumption | apply State.killTask_canon | apply State.msi_canon | dsimp only [id_eq, Can] | split)
theorem State.accept_canon {s : State} {part : Nat} {k : Task} {l : Lists} (h0 : Can s) : Can (State.accept s part k l).1 := by
  unfold State.accept
  with_reducible repeat' (first | assumption | apply State.setPart_canon | apply State.review_canon)
theorem State.accept_canon_of {s : State} {part : Nat} {k : Task} {l : Lists} {y0 : State} {y1 : Nat} (eq0 : (State.accept s part k l) = (y0, y1)) (h0 : Can s) : Can y0 := by
  have h : Can (State.accept s part k l).1 := State.accept_canon h0
  rw [eq0] at h; exact h
theorem State.launchHandler_canon {s : State} {part : Nat} {c : FaultCause} (h0 : Can s) : Can (State.launchHandler s part c) := by
  unfold State.launchHandler
  with_reducible repeat' (first | assumption | apply State.noHandler_canon | apply State.accept_canon | dsimp only [id_eq, Can] | split)
theorem State.writeRecord_canon {s : State} {part : Nat} (h0 : Can s) : Can (State.writeRecord s part) := by
  unfold State.writeRecord
  with_reducible repeat' (first | assumption | refine State.recordOf_canon_of (by assumption) ?_ | apply State.setPart_canon | apply State.mapGroups_canon | apply State.msi_canon | apply State.noHandler_canon | apply State.launchHandler_canon | dsimp only [id_eq, Can] | split)
theorem State.setSession_canon {s : State} {sess : Nat} {f : Session → Session} (h0 : Can s) : Can (State.setSession s sess f) := by
  unfold State.setSession
  with_reducible repeat' (first | assumption)
theorem State.bufferByte_canon {s : State} {team : Nat} {seq : Nat} {pa : Nat} {b : Byte} (h0 : Can s) : Can (State.bufferByte s team seq pa b) := by
  unfold State.bufferByte
  with_reducible repeat' (first | assumption | apply State.setTeam_canon | apply State.drainEntry_canon | dsimp only [id_eq, Can] | split)
theorem State.setCoreReg_canon {s : State} {tile : Nat} {n : Nat} {v : Word} (h0 : Can s) : Can (State.setCoreReg s tile n v) := by
  unfold State.setCoreReg
  with_reducible repeat' (first | assumption)
theorem State.smpStore_canon {s : State} {tile : Nat} {n : Nat} {v : Word} (h0 : Can s) : Can (State.smpStore s tile n v) := by
  unfold State.smpStore
  with_reducible repeat' (first | assumption | apply State.setCoreReg_canon | dsimp only [id_eq, Can] | split)
theorem State.popMatrix_canon {s : State} {id : Nat} (h0 : Can s) : Can (State.popMatrix s id) := by
  unfold State.popMatrix
  with_reducible repeat' (first | assumption | apply State.setTeam_canon)
theorem State.asGroup_canon {s : State} {seq : Nat} {path : Nat} {f : State → State} (h0 : Can s) (h1 : ∀ (t0 : State), Can t0 → Can (f t0)) : Can (State.asGroup s seq path f) := by
  unfold State.asGroup
  with_reducible repeat' (first | assumption | apply h1 | apply State.withMe_canon | dsimp only [id_eq, Can] | split)
theorem State.raiseArrival_canon {s : State} {c : Cause} {a : GangArrival} (h0 : Can s) : Can (State.raiseArrival s c a) := by
  unfold State.raiseArrival
  with_reducible repeat' (first | assumption | apply State.asGroup_canon | apply State.withMe_canon | apply State.raise_canon | intro _)
theorem State.gangExit_canon {s : State} {g : Group} (h0 : Can s) : Can (State.gangExit s g) := by
  unfold State.gangExit
  with_reducible repeat' (first | assumption | apply State.setTeam_canon | apply State.raiseArrival_canon | apply foldl_canon | intro _ | dsimp only [id_eq, Can] | split)
theorem State.traceWrite_canon {s : State} {part : Nat} {r : TraceRec} (h0 : Can s) : Can (State.traceWrite s part r) := by
  unfold State.traceWrite
  with_reducible repeat' (first | assumption | refine State.atelierWrite_canon_of (by assumption) ?_ | apply State.setPart_canon | apply State.atelierFault_canon | dsimp only [id_eq, Can] | split)
theorem State.illopU_canon {s : State} (h0 : Can s) : Can (State.illopU s) := by
  unfold State.illopU
  with_reducible repeat' (first | assumption | apply State.raise_canon)
theorem State.raiseOnce_canon {s : State} {code : Nat} {vaddr : DWord} (h0 : Can s) : Can (State.raiseOnce s code vaddr) := by
  unfold State.raiseOnce
  with_reducible repeat' (first | assumption | apply State.raise_canon)
theorem State.openScope_canon {s : State} {q : Nat} {kind : ScopeKind} {start : DWord} {join : DWord} (h0 : Can s) : Can (State.openScope s q kind start join) := by
  unfold State.openScope
  with_reducible repeat' (first | assumption | apply State.withMe_canon | apply State.charge_canon | apply State.count_canon)
theorem State.loopOn_canon {s : State} {n : Fin 3} {c : Word} {len : Nat} (h0 : Can s) : Can (State.loopOn s n c len) := by
  unfold State.loopOn
  with_reducible repeat' (first | assumption | apply State.retire_canon | apply State.raiseOnce_canon | apply State.openScope_canon | apply State.withMe_canon | dsimp only [id_eq, Can] | split)
theorem State.markFill_canon {s : State} {t : Team} {line : Nat} (h0 : Can s) : Can (State.markFill s t line) := by
  unfold State.markFill
  with_reducible repeat' (first | assumption | dsimp only [id_eq, Can] | split)
theorem State.fill_canon {s : State} {ag : Agent} {team : Nat} {line : Nat} (h0 : Can s) : Can (State.fill s ag team line) := by
  unfold State.fill
  with_reducible repeat' (first | assumption | apply State.markFill_canon | apply State.setTeam_canon | dsimp only [id_eq, Can] | split)
theorem State.loadAccess_canon {s : State} {ag : Agent} {strong : Bool} {a : Access} (h0 : Can s) : Can (State.loadAccess s ag strong a).2 := by
  unfold State.loadAccess
  with_reducible repeat' (first | assumption | apply State.strongTouch_canon | apply State.fill_canon | apply foldl_canon | apply foldl_canon_snd | intro _ | dsimp only [id_eq, Can] | split)
theorem State.loadAccess_canon_of {s : State} {ag : Agent} {strong : Bool} {a : Access} {y0 : List Byte} {y1 : State} (eq0 : (State.loadAccess s ag strong a) = (y0, y1)) (h0 : Can s) : Can y1 := by
  have h : Can (State.loadAccess s ag strong a).2 := State.loadAccess_canon h0
  rw [eq0] at h; exact h
theorem State.loadAll_canon {s : State} {strong : Bool} {a2 : List Access} (h0 : Can s) : Can (State.loadAll s strong a2).2 := by
  induction a2 generalizing s strong with
  | nil =>
    unfold State.loadAll
    with_reducible repeat' (first | apply ih | assumption | apply State.loadAccess_canon)
  | cons x xs ih =>
    unfold State.loadAll
    with_reducible repeat' (first | apply ih | assumption | apply State.loadAccess_canon)
theorem State.loadAll_canon_of {s : State} {strong : Bool} {a2 : List Access} {y0 : List (Nat × List Byte)} {y1 : State} (eq0 : (State.loadAll s strong a2) = (y0, y1)) (h0 : Can s) : Can y1 := by
  have h : Can (State.loadAll s strong a2).2 := State.loadAll_canon h0
  rw [eq0] at h; exact h
theorem State.load_canon {s : State} {ok : Bool} {sx : Bool} {size : Nat} {d : BitVec 6} {a : BitVec 6} {u : Bool} {off : BitVec 8} {ord : BitVec 3} (h0 : Can s) : OutCanon (State.load s ok sx size d a u off ord) := by
  unfold State.load
  with_reducible repeat' (first | assumption | apply State.checked_canon | apply State.noRows_canon | apply State.accesses_canon | apply State.loadAll_canon | apply State.loaded_canon | apply OutCanon.mk | intro _ | dsimp only [id_eq, Can] | split)
theorem State.dwCmp_canon {s : State} {d : BitVec 6} {a : BitVec 6} {b : BitVec 6} {w : BitVec 2} {u : Bool} {x : Bool} {y : Bool} {f : Fp → Fp → Bool × Nat} (h0 : Can s) : OutCanon (State.dwCmp s d a b w u x y f) := by
  unfold State.dwCmp
  with_reducible repeat' (first | assumption | apply State.compare_canon | apply OutCanon.mk)
theorem State.setChain_canon {s : State} {e : Nat} {c : Chain} {f : Chain → Chain} (h0 : Can s) : Can (State.setChain s e c f) := by
  unfold State.setChain
  with_reducible repeat' (first | assumption | apply State.setEngine_canon)
theorem State.engineStore_canon {s : State} {c : Chain} {ps : List (Place × List Byte)} (h0 : Can s) : Can (State.engineStore s c ps) := by
  unfold State.engineStore
  with_reducible repeat' (first | assumption | apply State.performWrite_canon | apply foldl_canon | intro _)
theorem State.toError_canon {s : State} {p : Nat} (h0 : Can s) : Can (State.toError s p) := by
  unfold State.toError
  with_reducible repeat' (first | assumption | apply State.announce_canon | apply State.killAll_canon | apply State.setPart_canon | dsimp only [id_eq, Can] | split)
theorem State.insecure_canon {s : State} {p : Nat} (h0 : Can s) : Can (State.insecure s p) := by
  unfold State.insecure
  with_reducible repeat' (first | assumption | apply State.toError_canon | apply State.setPart_canon | dsimp only [id_eq, Can] | split)
theorem State.resetTiles_canon {s : State} {p : Nat} {m : Nat} (h0 : Can s) : Can (State.resetTiles s p m) := by
  unfold State.resetTiles
  with_reducible repeat' (first | assumption | apply State.setMould_canon)
theorem State.popFailed_canon {s : State} {b : BitVec 6} {st : Nat} (h0 : Can s) : Can (State.popFailed s b st) := by
  unfold State.popFailed
  with_reducible repeat' (first | assumption | apply State.retire_canon | apply State.putS_canon)
theorem State.resetChannel_canon {s : State} {tile : Nat} (h0 : Can s) : Can (State.resetChannel s tile) := by
  unfold State.resetChannel
  with_reducible repeat' (first | assumption | apply State.setChannel_canon)
theorem State.restart_canon {s : State} {t : Team} (h0 : Can s) : Can (State.restart s t) := by
  unfold State.restart
  with_reducible repeat' (first | assumption | apply State.drainAll_canon | apply State.killedRecords_canon | apply State.setPart_canon | apply State.discardVersion_canon | apply State.cancelChain_canon | apply State.resetChannel_canon | apply State.removeTeam_canon | apply foldl_canon | intro _ | dsimp only [id_eq, Can] | split)
theorem State.restartFlushed_canon {s : State} (h0 : Can s) : Can (State.restartFlushed s) := by
  unfold State.restartFlushed
  with_reducible repeat' (first | assumption | apply State.restart_canon | apply foldl_canon | intro _ | split)
theorem State.commitVersion_canon {s : State} {part : Nat} {num : Nat} (h0 : Can s) : Can (State.commitVersion s part num) := by
  unfold State.commitVersion
  with_reducible repeat' (first | assumption | apply State.setPart_canon | apply State.performWrite_canon | apply foldl_canon | intro _ | dsimp only [id_eq, Can] | split)
theorem State.endTask_canon {s : State} {part : Nat} {task : Nat} (h0 : Can s) : Can (State.endTask s part task) := by
  unfold State.endTask
  with_reducible repeat' (first | assumption | apply State.setPart_canon | apply State.setVersion_canon | apply State.commitVersion_canon | dsimp only [id_eq, Can] | split)
theorem State.endTeam_canon {s : State} {id : Nat} (h0 : Can s) : Can (State.endTeam s id) := by
  unfold State.endTeam
  with_reducible repeat' (first | assumption | apply State.drainAll_canon | apply State.endTask_canon | apply State.removeTeam_canon | dsimp only [id_eq, Can] | split)
theorem State.clusterPhase_canon {s : State} {t : Team} (h0 : Can s) : Can (State.clusterPhase s t) := by
  unfold State.clusterPhase
  with_reducible repeat' (first | assumption | apply State.mapGroups_canon | apply State.mapTeams_canon | dsimp only [id_eq, Can] | split)
theorem State.teamPhase_canon {s : State} {id : Nat} (h0 : Can s) : Can (State.teamPhase s id) := by
  unfold State.teamPhase
  with_reducible repeat' (first | assumption | apply State.mapGroups_canon | apply State.setTeam_canon | dsimp only [id_eq, Can] | split)
theorem State.endGroup_canon {s : State} {seq : Nat} (h0 : Can s) : Can (State.endGroup s seq) := by
  unfold State.endGroup
  with_reducible repeat' (first | assumption | apply State.drainEntry_canon | apply State.leave_canon | apply State.withdraw_canon | apply State.gangExit_canon | apply State.setTeam_canon | apply State.endTeam_canon | apply State.clusterPhase_canon | apply State.teamPhase_canon | apply foldl_canon | intro _ | dsimp only [id_eq, Can] | split)
theorem State.afterCopies_canon {s : State} (h0 : Can s) : Can (State.afterCopies s) := by
  unfold State.afterCopies
  with_reducible repeat' (first | assumption | apply State.flushDying_canon | apply State.restartGroup_canon | apply State.endGroup_canon | apply foldl_canon)
theorem State.copiesEnded_canon {s : State} (h0 : Can s) : Can (State.copiesEnded s) := by
  unfold State.copiesEnded
  with_reducible repeat' (first | assumption | apply State.finishCancels_canon | apply State.restartFlushed_canon | apply State.afterCopies_canon)
theorem State.settle_canon {s : State} {seq : Nat} (h0 : Can s) : Can (State.settle s seq) := by
  unfold State.settle
  with_reducible repeat' (first | assumption | apply State.setGroup_canon)
theorem State.endCopy_canon {s : State} {c : Copy} {status : Nat} (h0 : Can s) : Can (State.endCopy s c status) := by
  unfold State.endCopy
  with_reducible repeat' (first | assumption | apply State.setGroup_canon | apply State.settle_canon | dsimp only [id_eq, Can] | split)
theorem State.overwriteRange_canon {s : State} {ag : Agent} {va : Nat} {n : Nat} (h0 : Can s) : Can (State.overwriteRange s ag va n) := by
  unfold State.overwriteRange
  with_reducible repeat' (first | assumption | apply State.overwritten_canon | apply foldl_canon | intro _ | dsimp only [id_eq, Can] | split)
theorem State.writeVirtual_canon {s : State} {ag : Agent} {va : Nat} {bs : List Byte} (h0 : Can s) : Can (State.writeVirtual s ag va bs) := by
  unfold State.writeVirtual
  with_reducible repeat' (first | assumption | apply State.writeByte_canon | apply State.overwriteRange_canon | apply foldl_canon | intro _ | split)
theorem State.wipe_canon {s : State} {ag : Agent} {dst : Nat} {len : Nat} (h0 : Can s) : Can (State.wipe s ag dst len) := by
  unfold State.wipe
  with_reducible repeat' (first | assumption | apply State.writeVirtual_canon)
theorem State.reportRead_canon {s : State} {ag : Agent} {c : Copy} {va : Nat} (h0 : Can s) : Can (State.reportRead s ag c va) := by
  unfold State.reportRead
  with_reducible repeat' (first | assumption | apply State.unattributed_canon | dsimp only [id_eq, Can] | split)
theorem State.runDecrypt_canon {s : State} {ag : Agent} {c : Copy} {dst : Nat} {src : Nat} {len : Nat} {key : Option (BitVec 256)} (h0 : Can s) : Can (State.runDecrypt s ag c dst src len key).2.2 := by
  unfold State.runDecrypt
  with_reducible repeat' (first | assumption | apply State.wipe_canon | apply State.reportRead_canon | apply State.writeVirtual_canon | dsimp only [id_eq, Can] | split)
theorem State.runDecrypt_canon_of {s : State} {ag : Agent} {c : Copy} {dst : Nat} {src : Nat} {len : Nat} {key : Option (BitVec 256)} {y0 : Went} {y1 : Nat} {y2 : State} (eq0 : (State.runDecrypt s ag c dst src len key) = (y0, y1, y2)) (h0 : Can s) : Can y2 := by
  have h : Can (State.runDecrypt s ag c dst src len key).2.2 := State.runDecrypt_canon h0
  rw [eq0] at h; exact h
theorem State.moveBytes_canon {s : State} {ag : Agent} {x : Stream} {n : Nat} (h0 : Can s) : Can (State.moveBytes s ag x n) := by
  unfold State.moveBytes
  with_reducible repeat' (first | assumption | apply State.writeByte_canon | apply State.overwriteRange_canon | apply foldl_canon | intro _ | split)
theorem State.runStreams_canon {s : State} {ag : Agent} {c : Copy} {a3 : List Stream} (h0 : Can s) : Can (State.runStreams s ag c a3).2 := by
  induction a3 generalizing s ag c with
  | nil =>
    unfold State.runStreams
    with_reducible repeat' (first | apply ih | assumption | apply State.moveBytes_canon | apply State.reportRead_canon | dsimp only [id_eq, Can] | split)
  | cons x xs ih =>
    unfold State.runStreams
    with_reducible repeat' (first | apply ih | assumption | apply State.moveBytes_canon | apply State.reportRead_canon | dsimp only [id_eq, Can] | split)
theorem State.runStreams_canon_of {s : State} {ag : Agent} {c : Copy} {a3 : List Stream} {y0 : Went} {y1 : State} (eq0 : (State.runStreams s ag c a3) = (y0, y1)) (h0 : Can s) : Can y1 := by
  have h : Can (State.runStreams s ag c a3).2 := State.runStreams_canon h0
  rw [eq0] at h; exact h
theorem State.runCopy_canon {s : State} {c : Copy} (h0 : Can s) : Can (State.runCopy s c) := by
  unfold State.runCopy
  with_reducible repeat' (first | assumption | apply State.pushCause_canon | apply State.endCopy_canon | apply State.wipe_canon | refine State.runDecrypt_canon_of (by assumption) ?_ | refine State.runStreams_canon_of (by assumption) ?_ | dsimp only [id_eq, Can] | split)
theorem State.callTo_canon {s : State} {tk : LaneMask} {t : DWord} (h0 : Can s) : Can (State.callTo s tk t) := by
  unfold State.callTo
  with_reducible repeat' (first | assumption | apply State.retire_canon | apply State.withMe_canon | apply State.charge_canon | apply State.count_canon | apply State.raiseOnce_canon | dsimp only [id_eq, Can] | split)
theorem State.debugRefused_canon {s : State} {part : Nat} (h0 : Can s) : Can (State.debugRefused s part) := by
  unfold State.debugRefused
  with_reducible repeat' (first | assumption | apply State.setPart_canon)
theorem State.debugOp_canon {s : State} {who : Nat} {part : Nat} {v : Word} (h0 : Can s) : Can (State.debugOp s who part v) := by
  unfold State.debugOp
  with_reducible repeat' (first | assumption | apply State.debugRefused_canon | apply State.setGroup_canon | dsimp only [id_eq, Can] | split)
theorem State.setSampler_canon {s : State} {tile : Nat} {f : Sampler → Sampler} (h0 : Can s) : Can (State.setSampler s tile f) := by
  unfold State.setSampler
  with_reducible repeat' (first | assumption)
theorem State.writeSmp_canon {s : State} {tile : Nat} {n : Nat} {reset : Word} {v : Word} (h0 : Can s) : Can (State.writeSmp s tile n reset v) := by
  unfold State.writeSmp
  with_reducible repeat' (first | assumption | apply State.setCoreReg_canon | apply State.setSampler_canon)
theorem State.smpControl_canon {s : State} {who : Nat} {tile : Nat} {v : Word} (h0 : Can s) : OptCanon (State.smpControl s who tile v) := by
  unfold State.smpControl
  with_reducible repeat' (first | assumption | apply State.writeSmp_canon | apply State.setSampler_canon | apply OptCanon.mk | exact OptCanon.none | dsimp only [id_eq, Can] | apply OptCanon.ite)
theorem State.smpControl_canon_of {s : State} {who : Nat} {tile : Nat} {v : Word} {y : State} (e : (State.smpControl s who tile v) = some y) (h0 : Can s) : Can y :=
  State.smpControl_canon h0 y e
theorem State.tileWrite_canon {s : State} {who : Nat} {tile : Nat} {n : Nat} {v : Word} (h0 : Can s) : OptCanon (State.tileWrite s who tile n v) := by
  unfold State.tileWrite
  with_reducible repeat' (first | assumption | apply State.smpControl_canon | apply State.writeSmp_canon | apply State.setCoreReg_canon | apply OptCanon.mk | exact OptCanon.none | dsimp only [id_eq, Can] | apply OptCanon.ite | split)
theorem State.tileWrite_canon_of {s : State} {who : Nat} {tile : Nat} {n : Nat} {v : Word} {y : State} (e : (State.tileWrite s who tile n v) = some y) (h0 : Can s) : Can y :=
  State.tileWrite_canon h0 y e
theorem State.reset_canon   : Can (State.reset) := by
  exact ⟨rfl, rfl, rfl⟩
theorem State.poolDisable_canon {s : State} {part : Nat} {n : Nat} {v : Word} (h0 : Can s) : Can (State.poolDisable s part n v) := by
  unfold State.poolDisable
  with_reducible repeat' (first | assumption | apply State.setPart_canon)
theorem State.storeAccess_canon {s : State} {ag : Agent} {seq : Nat} {strong : Bool} {a : Access} (h0 : Can s) : Can (State.storeAccess s ag seq strong a) := by
  unfold State.storeAccess
  with_reducible repeat' (first | assumption | apply State.bufferByte_canon | apply State.performWrite_canon | apply State.strongTouch_canon | apply foldl_canon | apply foldl_canon_snd | intro _ | dsimp only [id_eq, Can] | split)
theorem State.store_canon {s : State} {ok : Bool} {size : Nat} {d : BitVec 6} {a : BitVec 6} {u : Bool} {off : BitVec 8} {ord : BitVec 3} (h0 : Can s) : OutCanon (State.store s ok size d a u off ord) := by
  unfold State.store
  with_reducible repeat' (first | assumption | apply State.checked_canon | apply State.accesses_canon | apply State.release_canon | apply State.retire_canon | apply State.storeAccess_canon | apply OutCanon.mk | apply foldl_canon | intro _ | split)
theorem State.icmp_canon {s : State} {d : BitVec 6} {a : BitVec 6} {b : BitVec 6} {w : BitVec 2} {u : Bool} {x : Bool} {y : Bool} {f : Word → Word → Bool} (h0 : Can s) : OutCanon (State.icmp s d a b w u x y f) := by
  unfold State.icmp
  with_reducible repeat' (first | assumption | apply State.cmp_canon | apply OutCanon.mk)
theorem State.putP_canon {s : State} {n : Nat} {x : LaneMask} {lat : Nat} (h0 : Can s) : Can (State.putP s n x lat) := by
  unfold State.putP
  with_reducible repeat' (first | assumption | apply State.withMe_canon)
theorem State.loadKey_canon {s : State} {p : Nat} {slot : Nat} {key : Option (BitVec 256)} (h0 : Can s) : Can (State.loadKey s p slot key) := by
  unfold State.loadKey
  with_reducible repeat' (first | assumption | apply foldl_canon | intro _)
theorem State.extreme_canon {s : State} {larger : Bool} {d : BitVec 6} {a : BitVec 6} {b : BitVec 6} {w : BitVec 2} {x : Bool} (h0 : Can s) : OutCanon (State.extreme s larger d a b w x) := by
  unfold State.extreme
  with_reducible repeat' (first | assumption | apply State.reduce_canon | apply OutCanon.mk)
theorem State.startJob_canon {s : State} {e : Nat} {mine : Chain → Bool} {job : Nat → Job → Job} (h0 : Can s) (h1 : ∀ (t0 : Nat) (t1 : Job), Can t1.s → Can (job t0 t1).s) : Can (State.startJob s e mine job) := by
  unfold State.startJob
  with_reducible repeat' (first | assumption | apply State.setTeam_canon | apply State.setChain_canon | apply State.setEngine_canon | apply State.engineMet_canon | dsimp only [id_eq, Can] | split)
theorem Job.finish_canon {j : Job} {st : Nat} {w : Word} (h0 : Can j.s) : Can (Job.finish j st w).s := by
  unfold Job.finish
  with_reducible repeat' (first | assumption | dsimp only [id_eq, Can] | split)
theorem Job.fail_canon {j : Job} {w : Word} (h0 : Can j.s) : Can (Job.fail j w).s := by
  unfold Job.fail
  with_reducible repeat' (first | assumption | apply Job.finish_canon)
theorem Job.read_canon {j : Job} {va : Nat} {n : Nat} (h0 : Can j.s) : Can (Job.read j va n).2.s := by
  unfold Job.read
  with_reducible repeat' (first | assumption | apply Job.fail_canon | dsimp only [id_eq, Can] | split)
theorem Job.read_canon_of {j : Job} {va : Nat} {n : Nat} {y0 : List Byte} {y1 : Job} (eq0 : (Job.read j va n) = (y0, y1)) (h0 : Can j.s) : Can y1.s := by
  have h : Can (Job.read j va n).2.s := Job.read_canon h0
  rw [eq0] at h; exact h
theorem Job.check_canon {j : Job} {ok : Bool} {w : Word} (h0 : Can j.s) : Can (Job.check j ok w).s := by
  unfold Job.check
  with_reducible repeat' (first | assumption | apply Job.fail_canon | dsimp only [id_eq, Can] | split)
theorem Job.write_canon {j : Job} {va : Nat} {bs : List Byte} (h0 : Can j.s) : Can (Job.write j va bs).s := by
  unfold Job.write
  with_reducible repeat' (first | assumption | apply State.engineStore_canon | apply Job.fail_canon | dsimp only [id_eq, Can] | split)
theorem Job.cursor_canon {j : Job} {param : Nat} {q : Nat} {off : Nat} (h0 : Can j.s) : Can (Job.cursor j param q off).s := by
  unfold Job.cursor
  with_reducible repeat' (first | assumption | apply Job.write_canon | dsimp only [id_eq, Can] | split)
theorem Job.write32_canon {j : Job} {va : Nat} {x : Nat} (h0 : Can j.s) : Can (Job.write32 j va x).s := by
  unfold Job.write32
  with_reducible repeat' (first | assumption | apply Job.write_canon)
theorem ConvBlock.readBack_canon {c : ConvBlock} {j : Job} (h0 : Can j.s) : Can (ConvBlock.readBack c j).2.2.s := by
  unfold ConvBlock.readBack
  with_reducible repeat' (first | assumption | apply Job.read_canon | apply foldl_canon_job_trd | intro _)
theorem ConvBlock.readBack_canon_of {c : ConvBlock} {j : Job} {y0 : List Nat} {y1 : Nat} {y2 : Job} (eq0 : (ConvBlock.readBack c j) = (y0, y1, y2)) (h0 : Can j.s) : Can y2.s := by
  have h : Can (ConvBlock.readBack c j).2.2.s := ConvBlock.readBack_canon h0
  rw [eq0] at h; exact h
theorem ConvBlock.compressChunk_canon {c : ConvBlock} {param : Nat} {r : List Nat × Nat × Job} {q : Nat} (h0 : Can r.2.2.s) : Can (ConvBlock.compressChunk c param r q).2.2.s := by
  unfold ConvBlock.compressChunk
  with_reducible repeat' (first | assumption | apply Job.read_canon | apply Job.finish_canon | apply Job.write_canon | apply Job.cursor_canon | dsimp only [id_eq, Can] | split)
theorem ConvBlock.compressChunk_canon_of {c : ConvBlock} {param : Nat} {r : List Nat × Nat × Job} {q : Nat} {y0 : List Nat} {y1 : Nat} {y2 : Job} (eq0 : (ConvBlock.compressChunk c param r q) = (y0, y1, y2)) (h0 : Can r.2.2.s) : Can y2.s := by
  have h : Can (ConvBlock.compressChunk c param r q).2.2.s := ConvBlock.compressChunk_canon h0
  rw [eq0] at h; exact h
theorem compressJob_canon {param : Nat} {j : Job} (h0 : Can j.s) : Can (compressJob param j).s := by
  unfold compressJob
  with_reducible repeat' (first | assumption | apply Job.read_canon | apply Job.check_canon | apply Job.cursor_canon | apply Job.write32_canon | apply ConvBlock.readBack_canon | apply ConvBlock.compressChunk_canon | apply Job.finish_canon | apply Job.write_canon | apply foldl_canon_job_trd | dsimp only [id_eq, Can] | split)
theorem State.icmpi_canon {s : State} {d : BitVec 6} {a : BitVec 6} {u : Bool} {f : Word → Bool} (h0 : Can s) : OutCanon (State.icmpi s d a u f) := by
  unfold State.icmpi
  with_reducible repeat' (first | assumption | apply State.compare_canon | apply OutCanon.mk)
theorem State.acted_canon {s : State} {part : Nat} {r : FaultRecord} (h0 : Can s) : Can (State.acted s part r) := by
  unfold State.acted
  with_reducible repeat' (first | assumption | apply State.setPart_canon)
theorem State.replay_canon {s : State} {part : Nat} {r : FaultRecord} (h0 : Can s) : OptCanon (State.replay s part r) := by
  unfold State.replay
  with_reducible repeat' (first | assumption | apply State.acted_canon | apply State.mapGroups_canon | apply OptCanon.mk | exact OptCanon.none | apply OptCanon.ite | split)
theorem State.replay_canon_of {s : State} {part : Nat} {r : FaultRecord} {y : State} (e : (State.replay s part r) = some y) (h0 : Can s) : Can y :=
  State.replay_canon h0 y e
theorem State.illop_canon {s : State} (h0 : Can s) : Can (State.illop s) := by
  unfold State.illop
  with_reducible repeat' (first | assumption | apply State.raise_canon)
theorem State.reported_canon {s : State} {code : Nat} (h0 : Can s) : Can (State.reported s code) := by
  unfold State.reported
  with_reducible repeat' (first | assumption | apply State.acquire_canon | dsimp only [id_eq, Can] | split)
theorem State.hostRefused_canon {s : State} {who : Nat} (h0 : Can s) : Can (State.hostRefused s who) := by
  unfold State.hostRefused
  with_reducible repeat' (first | assumption | dsimp only [id_eq, Can] | split)
theorem State.flushScans_canon {part : Nat} {a1 : Nat} {a2 : State} (h0 : Can a2) : Can (State.flushScans part a1 a2) := by
  induction a1 generalizing part a2 with
  | zero =>
    unfold State.flushScans
    with_reducible repeat' (first | apply ih | assumption | refine State.atelierWrite_canon_of (by assumption) ?_ | apply State.setPart_canon | apply State.msi_canon | dsimp only [id_eq, Can] | split)
  | succ k ih =>
    unfold State.flushScans
    with_reducible repeat' (first | apply ih | assumption | refine State.atelierWrite_canon_of (by assumption) ?_ | apply State.setPart_canon | apply State.msi_canon | dsimp only [id_eq, Can] | split)
theorem State.baseWritten_canon {s : State} {part : Nat} {n : Nat} (h0 : Can s) : Can (State.baseWritten s part n) := by
  unfold State.baseWritten
  with_reducible repeat' (first | assumption | apply State.setPart_canon | apply State.flushScans_canon | dsimp only [id_eq, Can] | split)
theorem State.poolEnable_canon {s : State} {part : Nat} {n : Nat} {v : Word} (h0 : Can s) : Can (State.poolEnable s part n v) := by
  unfold State.poolEnable
  with_reducible repeat' (first | assumption | apply State.setPart_canon | dsimp only [id_eq, Can] | split)
theorem State.mouldDisable_canon {s : State} {part : Nat} {n : Nat} {v : Word} (h0 : Can s) : Can (State.mouldDisable s part n v) := by
  unfold State.mouldDisable
  with_reducible repeat' (first | assumption | apply State.setPart_canon)
theorem State.mouldEnable_canon {s : State} {part : Nat} {n : Nat} {v : Word} (h0 : Can s) : Can (State.mouldEnable s part n v) := by
  unfold State.mouldEnable
  with_reducible repeat' (first | assumption | apply State.setPart_canon | dsimp only [id_eq, Can] | split)
theorem State.actRefused_canon {s : State} {part : Nat} (h0 : Can s) : Can (State.actRefused s part) := by
  unfold State.actRefused
  with_reducible repeat' (first | assumption | apply State.setPart_canon)
theorem State.deliver_canon {s : State} {part : Nat} {r : FaultRecord} (h0 : Can s) : OptCanon (State.deliver s part r) := by
  unfold State.deliver
  with_reducible repeat' (first | assumption | apply State.acted_canon | apply State.mapGroups_canon | apply OptCanon.mk | exact OptCanon.none | dsimp only [id_eq, Can] | apply OptCanon.ite | split)
theorem State.deliver_canon_of {s : State} {part : Nat} {r : FaultRecord} {y : State} (e : (State.deliver s part r) = some y) (h0 : Can s) : Can y :=
  State.deliver_canon h0 y e
theorem State.killRecord_canon {s : State} {part : Nat} {r : FaultRecord} (h0 : Can s) : OptCanon (State.killRecord s part r) := by
  unfold State.killRecord
  with_reducible repeat' (first | assumption | apply State.killTask_canon | apply State.acted_canon | apply OptCanon.mk | exact OptCanon.none | apply OptCanon.ite)
theorem State.killRecord_canon_of {s : State} {part : Nat} {r : FaultRecord} {y : State} (e : (State.killRecord s part r) = some y) (h0 : Can s) : Can y :=
  State.killRecord_canon h0 y e
theorem State.faultAct_canon {s : State} {part : Nat} {action : Nat} {seq : Nat} (h0 : Can s) : Can (State.faultAct s part action seq) := by
  unfold State.faultAct
  with_reducible repeat' (first | assumption | apply State.actRefused_canon | apply State.replay_canon | apply State.deliver_canon | apply State.killRecord_canon | apply getD_canon | dsimp only [id_eq, Can] | split)
theorem State.landJobs_canon {s : State} {part : Nat} (h0 : Can s) : Can (State.landJobs s part) := by
  unfold State.landJobs
  with_reducible repeat' (first | assumption | apply State.engineStore_canon | apply foldl_canon | intro _)
theorem State.invalidate_canon {s : State} {part : Nat} {hit : Nat → Bool} (h0 : Can s) : Can (State.invalidate s part hit) := by
  unfold State.invalidate
  with_reducible repeat' (first | assumption | apply State.drainAll_canon | apply State.landJobs_canon | apply foldl_canon)
theorem State.tlbControl_canon {s : State} {part : Nat} {v : Word} (h0 : Can s) : Can (State.tlbControl s part v) := by
  unfold State.tlbControl
  with_reducible repeat' (first | assumption | apply State.invalidate_canon | apply State.setPart_canon)
theorem State.resetPool_canon {s : State} {rx : Nat} (h0 : Can s) : Can (State.resetPool s rx) := by
  unfold State.resetPool
  with_reducible repeat' (first | assumption)
theorem State.resetQueue_canon {s : State} {e : Nat} {p : Nat} (h0 : Can s) : Can (State.resetQueue s e p) := by
  unfold State.resetQueue
  with_reducible repeat' (first | assumption | apply State.leaveUnit_canon | apply foldl_canon | intro _ | dsimp only [id_eq, Can] | split)
theorem State.flagChannel_canon {s : State} {id : Nat} {b : Bool} (h0 : Can s) : Can (State.flagChannel s id b) := by
  unfold State.flagChannel
  with_reducible repeat' (first | assumption | apply State.setChannel_canon | apply State.setMailbox_canon | apply State.setPart_canon | dsimp only [id_eq, Can] | split)
theorem State.resetChan_canon {s : State} {id : Nat} (h0 : Can s) : Can (State.resetChan s id) := by
  unfold State.resetChan
  with_reducible repeat' (first | assumption | apply State.resetPool_canon | apply State.resetChannel_canon | apply State.resetQueue_canon | apply State.resetTiles_canon | apply State.setMailbox_canon | apply State.sound_canon | apply State.setPart_canon | apply State.flagChannel_canon | dsimp only [id_eq, Can] | split)
theorem State.chReset_canon {s : State} {who : Nat} {part : Nat} {id : Word} (h0 : Can s) : Can (State.chReset s who part id) := by
  unfold State.chReset
  with_reducible repeat' (first | assumption | apply State.setPart_canon | apply State.resetChan_canon | dsimp only [id_eq, Can] | split)
theorem State.setGate_canon {s : State} {r : Nat} {g : Gate} (h0 : Can s) : Can (State.setGate s r g) := by
  unfold State.setGate
  with_reducible repeat' (first | assumption)
theorem State.gateRaise_canon {s : State} {who : Nat} {r : Nat} (h0 : Can s) : OptCanon (State.gateRaise s who r) := by
  unfold State.gateRaise
  with_reducible repeat' (first | assumption | apply State.setGate_canon | apply OptCanon.mk | exact OptCanon.none | dsimp only [id_eq, Can] | apply OptCanon.ite | split)
theorem State.gateRaise_canon_of {s : State} {who : Nat} {r : Nat} {y : State} (e : (State.gateRaise s who r) = some y) (h0 : Can s) : Can y :=
  State.gateRaise_canon h0 y e
theorem State.askSave_canon {s : State} {t : Team} (h0 : Can s) : Can (State.askSave s t) := by
  unfold State.askSave
  with_reducible repeat' (first | assumption)
theorem State.preemptTeam_canon {s : State} {id : Nat} {waits : Bool} (h0 : Can s) : Can (State.preemptTeam s id waits) := by
  unfold State.preemptTeam
  with_reducible repeat' (first | assumption | apply State.restartFlushed_canon | apply State.setTeam_canon | apply State.askSave_canon | dsimp only [id_eq, Can] | split)
theorem State.preemptRegion_canon {s : State} {r : Nat} (h0 : Can s) : Can (State.preemptRegion s r) := by
  unfold State.preemptRegion
  with_reducible repeat' (first | assumption | apply State.preemptTeam_canon | apply foldl_canon | intro _)
theorem State.gateAsk_canon {s : State} {who : Nat} {r : Nat} {preempt : Bool} (h0 : Can s) : OptCanon (State.gateAsk s who r preempt) := by
  unfold State.gateAsk
  with_reducible repeat' (first | assumption | apply State.setGate_canon | apply State.preemptRegion_canon | apply OptCanon.mk | exact OptCanon.none | dsimp only [id_eq, Can] | apply OptCanon.ite | split)
theorem State.gateAsk_canon_of {s : State} {who : Nat} {r : Nat} {preempt : Bool} {y : State} (e : (State.gateAsk s who r preempt) = some y) (h0 : Can s) : Can y :=
  State.gateAsk_canon h0 y e
theorem State.gateWrite_canon {s : State} {who : Nat} {part : Nat} {v : Word} (h0 : Can s) : OptCanon (State.gateWrite s who part v) := by
  unfold State.gateWrite
  with_reducible repeat' (first | assumption | apply State.gateRaise_canon | apply State.gateAsk_canon | apply State.setPart_canon | apply getD_canon | apply OptCanon.mk | exact OptCanon.none | dsimp only [id_eq, Can] | apply OptCanon.ite)
theorem State.gateWrite_canon_of {s : State} {who : Nat} {part : Nat} {v : Word} {y : State} (e : (State.gateWrite s who part v) = some y) (h0 : Can s) : Can y :=
  State.gateWrite_canon h0 y e
theorem State.loadFilter_canon {s : State} {who : Nat} {part : Nat} {v : Word} (h0 : Can s) : OptCanon (State.loadFilter s who part v) := by
  unfold State.loadFilter
  with_reducible repeat' (first | assumption | apply State.setPart_canon | apply OptCanon.mk | exact OptCanon.none | dsimp only [id_eq, Can] | apply OptCanon.ite | split)
theorem State.loadFilter_canon_of {s : State} {who : Nat} {part : Nat} {v : Word} {y : State} (e : (State.loadFilter s who part v) = some y) (h0 : Can s) : Can y :=
  State.loadFilter_canon h0 y e
theorem State.startTrial_canon {s : State} {part : Nat} (h0 : Can s) : Can (State.startTrial s part) := by
  unfold State.startTrial
  with_reducible repeat' (first | assumption | apply State.setPart_canon)
theorem State.stopTrial_canon {s : State} {part : Nat} (h0 : Can s) : Can (State.stopTrial s part) := by
  unfold State.stopTrial
  with_reducible repeat' (first | assumption | apply State.setPart_canon)
theorem State.scanAct_canon {s : State} {part : Nat} {discard : Bool} (h0 : Can s) : Can (State.scanAct s part discard) := by
  unfold State.scanAct
  with_reducible repeat' (first | assumption | apply State.setPart_canon | apply State.discardVersion_canon | apply State.commitVersion_canon | dsimp only [id_eq, Can] | split)
theorem State.toBoard_canon {s : State} {ch : Nat} {step : Nat} (h0 : Can s) : Can (State.toBoard s ch step) := by
  unfold State.toBoard
  with_reducible repeat' (first | assumption)
theorem State.keyRequest_canon {s : State} {p : Nat} (h0 : Can s) : Can (State.keyRequest s p) := by
  unfold State.keyRequest
  with_reducible repeat' (first | assumption | apply State.keyStatus_canon | apply State.toBoard_canon | apply State.setPart_canon | apply State.loadKey_canon | dsimp only [id_eq, Can] | split)
theorem State.partWrite_canon {s : State} {who : Nat} {part : Nat} {n : Nat} {v : Word} (h0 : Can s) : OptCanon (State.partWrite s who part n v) := by
  unfold State.partWrite
  with_reducible repeat' (first | assumption | apply State.setPart_canon | apply State.baseWritten_canon | apply State.flushScans_canon | apply State.fire_canon | apply State.poolDisable_canon | apply State.poolEnable_canon | apply State.mouldDisable_canon | apply State.mouldEnable_canon | apply State.faultAct_canon | apply State.tlbControl_canon | apply State.chReset_canon | apply State.gateWrite_canon | apply State.loadFilter_canon | apply State.startTrial_canon | apply State.stopTrial_canon | apply State.debugOp_canon | apply State.scanAct_canon | apply State.keyRequest_canon | apply OptCanon.mk | exact OptCanon.none | dsimp only [id_eq, Can] | apply OptCanon.ite | split)
theorem State.partWrite_canon_of {s : State} {who : Nat} {part : Nat} {n : Nat} {v : Word} {y : State} (e : (State.partWrite s who part n v) = some y) (h0 : Can s) : Can y :=
  State.partWrite_canon h0 y e
theorem State.hostPart_canon {s : State} {p : Nat} {n : Nat} {v : Word} (h0 : Can s) : Can (State.hostPart s p n v) := by
  unfold State.hostPart
  with_reducible repeat' (first | assumption | apply State.toError_canon | apply State.hostRefused_canon | apply State.partWrite_canon | apply getD_canon | dsimp only [id_eq, Can] | split)
theorem State.reportScan_canon {s : State} {tile : Nat} {result : Nat} {scan : Nat} (h0 : Can s) : Can (State.reportScan s tile result scan) := by
  unfold State.reportScan
  with_reducible repeat' (first | assumption | apply State.setPart_canon | apply State.flushScans_canon | apply State.msi_canon | apply foldl_canon | intro _ | dsimp only [id_eq, Can] | split)
theorem State.holdVersions_canon {s : State} {tile : Nat} {waiting : Bool} (h0 : Can s) : Can (State.holdVersions s tile waiting) := by
  unfold State.holdVersions
  with_reducible repeat' (first | assumption | apply State.setVersion_canon | apply foldl_canon | intro _)
theorem State.disableCore_canon {s : State} {tile : Nat} (h0 : Can s) : Can (State.disableCore s tile) := by
  unfold State.disableCore
  with_reducible repeat' (first | assumption | apply State.reportScan_canon | apply State.holdVersions_canon | dsimp only [id_eq, Can] | split)
theorem State.maskCores_canon {s : State} {mask : BitVec 96} (h0 : Can s) : Can (State.maskCores s mask) := by
  unfold State.maskCores
  with_reducible repeat' (first | assumption | apply State.disableCore_canon | apply foldl_canon)
theorem State.deviceWrite_canon {s : State} {k : Nat} {v : Word} (h0 : Can s) : OptCanon (State.deviceWrite s k v) := by
  unfold State.deviceWrite
  with_reducible repeat' (first | assumption | apply State.partCommand_canon | apply State.maskCores_canon | apply State.setPatrolReg_canon | apply OptCanon.mk | exact OptCanon.none | dsimp only [id_eq, Can] | apply OptCanon.ite | split)
theorem State.deviceWrite_canon_of {s : State} {k : Nat} {v : Word} {y : State} (e : (State.deviceWrite s k v) = some y) (h0 : Can s) : Can y :=
  State.deviceWrite_canon h0 y e
theorem State.withMould_canon {s : State} {n : Nat} {mask : LaneMask} {f : State → State} (h0 : Can s) (h1 : ∀ (t0 : State), Can t0 → Can (f t0)) : Can (State.withMould s n mask f) := by
  unfold State.withMould
  with_reducible repeat' (first | assumption | apply h1 | apply State.fail_canon | dsimp only [id_eq, Can] | split)
theorem State.allocBlock_canon {s : State} {part : Nat} {n : Nat} {tile : Nat} {branch : Nat} (h0 : Can s) : Can (State.allocBlock s part n tile branch).2 := by
  unfold State.allocBlock
  with_reducible repeat' (first | assumption | apply State.setPool_canon | refine State.atelierWrite_canon_of (by assumption) ?_ | apply State.atelierFault_canon | dsimp only [id_eq, Can] | split)
theorem State.allocBlock_canon_of {s : State} {part : Nat} {n : Nat} {tile : Nat} {branch : Nat} {y0 : Nat} {y1 : State} (eq0 : (State.allocBlock s part n tile branch) = (y0, y1)) (h0 : Can s) : Can y1 := by
  have h : Can (State.allocBlock s part n tile branch).2 := State.allocBlock_canon h0
  rw [eq0] at h; exact h
theorem State.allocBlocks_canon {s : State} {part : Nat} {n : Nat} {tile : Nat} {branch : Nat} {a5 : List Nat} (h0 : Can s) : Can (State.allocBlocks s part n tile branch a5).2 := by
  induction a5 generalizing s part n tile branch with
  | nil =>
    unfold State.allocBlocks
    with_reducible repeat' (first | apply ih | assumption | apply State.allocBlock_canon)
  | cons x xs ih =>
    unfold State.allocBlocks
    with_reducible repeat' (first | apply ih | assumption | apply State.allocBlock_canon)
theorem State.allocBlocks_canon_of {s : State} {part : Nat} {n : Nat} {tile : Nat} {branch : Nat} {a5 : List Nat} {y0 : List (Nat × Nat)} {y1 : State} (eq0 : (State.allocBlocks s part n tile branch a5) = (y0, y1)) (h0 : Can s) : Can y1 := by
  have h : Can (State.allocBlocks s part n tile branch a5).2 := State.allocBlocks_canon h0
  rw [eq0] at h; exact h
theorem State.closeMoulds_canon {s : State} (h0 : Can s) : Can (State.closeMoulds s) := by
  unfold State.closeMoulds
  with_reducible repeat' (first | assumption | apply State.setPart_canon | apply foldl_canon | intro _)
theorem State.pairOp_canon {s : State} {d : BitVec 6} {a : BitVec 6} {b : BitVec 6} {w : BitVec 2} {u : Bool} {x : Bool} {y : Bool} {px : Bool} {f : Fp → Fp → Res} (h0 : Can s) : OutCanon (State.pairOp s d a b w u x y px f) := by
  unfold State.pairOp
  with_reducible repeat' (first | assumption | apply State.calc_canon | apply OutCanon.mk)
theorem State.unlessLocked_canon {s : State} {who : Nat} {part : Nat} {n : Nat} {t : State} (h0 : Can s) (h1 : Can t) : Can (State.unlessLocked s who part n t) := by
  unfold State.unlessLocked
  with_reducible repeat' (first | assumption | apply State.toError_canon | dsimp only [id_eq, Can] | split)
theorem State.debugStep_canon {s : State} {who : Nat} {part : Nat} {v : Word} {action : Nat} (h0 : Can s) : Can (State.debugStep s who part v action) := by
  unfold State.debugStep
  with_reducible repeat' (first | assumption | apply State.unlessLocked_canon | apply State.debugOp_canon | dsimp only [id_eq, Can] | split)
theorem State.spread_canon {s : State} {initiator : Nat} {num : Nat} {path : List Word} {u : ProbeUnit} (h0 : Can s) : Can (State.spread s initiator num path u) := by
  unfold State.spread
  with_reducible repeat' (first | assumption)
theorem State.putEXM_canon {s : State} {x : LaneMask} {lat : Nat} (h0 : Can s) : Can (State.putEXM s x lat) := by
  unfold State.putEXM
  with_reducible repeat' (first | assumption | apply State.setPath_canon | apply State.withMe_canon)
theorem State.grant_canon {s : State} {seq : Nat} {path : Nat} {code : Nat} {data : List Word} (h0 : Can s) : Can (State.grant s seq path code data) := by
  unfold State.grant
  with_reducible repeat' (first | assumption | apply State.setGroup_canon)
theorem State.writeFull_canon {s : State} {part : Nat} {k : Nat} {full : Bool} (h0 : Can s) : Can (State.writeFull s part k full) := by
  unfold State.writeFull
  split
  · exact ⟨h0.1, h0.2.1, Memory.wf_set h0.2.2 _ _⟩
  · exact h0
theorem State.febWalk_canon {part : Nat} {k : Nat} {a2 : List FebWaiter} {a3 : State} (h0 : Can a3) : Can (State.febWalk part k a2 a3) := by
  induction a2 generalizing part k a3 with
  | nil =>
    unfold State.febWalk
    with_reducible repeat' (first | apply ih | assumption | apply State.writeHead_canon | apply State.grant_canon | apply State.writeFull_canon | apply State.review_canon | dsimp only [id_eq, Can] | split)
  | cons x xs ih =>
    unfold State.febWalk
    with_reducible repeat' (first | apply ih | assumption | apply State.writeHead_canon | apply State.grant_canon | apply State.writeFull_canon | apply State.review_canon | dsimp only [id_eq, Can] | split)
theorem State.febServe_canon {part : Nat} {k : Nat} {a2 : Nat} {a3 : State} (h0 : Can a3) : Can (State.febServe part k a2 a3) := by
  induction a2 generalizing part k a3 with
  | zero =>
    unfold State.febServe
    with_reducible repeat' (first | apply ih | assumption | apply State.febWalk_canon | dsimp only [id_eq, Can] | split)
  | succ k ih =>
    unfold State.febServe
    with_reducible repeat' (first | apply ih | assumption | apply State.febWalk_canon | dsimp only [id_eq, Can] | split)
theorem State.moveUp_canon {s : State} {kind : Nat} {tile : Nat} {lo : Nat} {n : Nat} {hi : Nat} (h0 : Can s) : Can (State.moveUp s kind tile lo n hi) := by
  unfold State.moveUp
  with_reducible repeat' (first | assumption | apply State.sound_canon | dsimp only [id_eq, Can] | split)
theorem State.takeMail_canon {s : State} {id : Nat} {k : Nat} (h0 : Can s) : Can (State.takeMail s id k) := by
  unfold State.takeMail
  with_reducible repeat' (first | assumption | apply State.setMailbox_canon | apply State.moveUp_canon)
theorem State.endUnveiling_canon {s : State} {part : Nat} (h0 : Can s) : Can (State.endUnveiling s part) := by
  unfold State.endUnveiling
  with_reducible repeat' (first | assumption | apply State.setPart_canon)
theorem State.orPoison_canon {s : State} {mask : LaneMask} {k : State → State} (h0 : Can s) (h1 : ∀ (t0 : State), Can t0 → Can (k t0)) : Can (State.orPoison s mask k) := by
  unfold State.orPoison
  with_reducible repeat' (first | assumption | apply h1 | apply State.fail_canon | apply State.setMyTeam_canon | dsimp only [id_eq, Can] | split)
theorem State.onMailbox_canon {s : State} {ok : Bool} {uses : List Use} {b : BitVec 6} {f : Nat → State → State} (h0 : Can s) (h1 : ∀ (t0 : Nat) (t1 : State), Can t1 → Can (f t0 t1)) : Can (State.onMailbox s ok uses b f) := by
  unfold State.onMailbox
  with_reducible repeat' (first | assumption | apply h1 | apply State.checked_canon | apply State.raise_canon | intro _ | dsimp only [id_eq, Can] | split)
theorem State.copyIssue_canon {s : State} {bad : List (Option Refuse)} {start : State → State} (h0 : Can s) (h1 : ∀ (t0 : State), Can t0 → Can (start t0)) : Can (State.copyIssue s bad start) := by
  unfold State.copyIssue
  with_reducible repeat' (first | assumption | apply h1 | apply State.refuse_canon | apply State.retire_canon | dsimp only [id_eq, Can] | split)
theorem State.startCopy_canon {s : State} {kind : CopyKind} {failed : Bool} (h0 : Can s) : Can (State.startCopy s kind failed) := by
  unfold State.startCopy
  with_reducible repeat' (first | assumption)
theorem State.drainRange_canon {s : State} {part : Nat} {team : Nat} {va : Nat} {n : Nat} (h0 : Can s) : Can (State.drainRange s part team va n) := by
  unfold State.drainRange
  with_reducible repeat' (first | assumption | apply State.drainEntry_canon | apply foldl_canon | intro _)
theorem State.tableError_canon {s : State} (h0 : Can s) : Can (State.tableError s) := by
  unfold State.tableError
  with_reducible repeat' (first | assumption | apply State.raise_canon)
theorem RuleBlock.pairsOut_canon {r : RuleBlock} {q : Nat} {ps : List (Nat × Nat)} {j : Job} (h0 : Can j.s) : Can (RuleBlock.pairsOut r q ps j).s := by
  unfold RuleBlock.pairsOut
  with_reducible repeat' (first | assumption | apply Job.write_canon | apply foldl_canon_job | intro _)
theorem State.dwPP_canon {s : State} {d : BitVec 6} {a : BitVec 6} {b : BitVec 6} {w : BitVec 2} {u : Bool} {x : Bool} {y : Bool} {per : Nat} {cls : Nat} {f : Fp → Fp → Fp → Fp → List Word × Nat} (h0 : Can s) : OutCanon (State.dwPP s d a b w u x y per cls f) := by
  unfold State.dwPP
  with_reducible repeat' (first | assumption | apply State.calc_canon | apply OutCanon.mk)
theorem State.enqueue_canon {s : State} {k : MatKind} (h0 : Can s) : Can (State.enqueue s k) := by
  unfold State.enqueue
  with_reducible repeat' (first | assumption | apply State.setMyTeam_canon)
theorem State.queueOp_canon {s : State} {k : MatKind} {d : Done} (h0 : Can s) : Can (State.queueOp s k d) := by
  unfold State.queueOp
  with_reducible repeat' (first | assumption | apply State.block_canon | apply State.retire_canon | apply State.enqueue_canon | dsimp only [id_eq, Can] | split)
theorem State.maintain_canon {s : State} {a : BitVec 6} {b : BitVec 6} {whole : Bool} {sc : BitVec 3} {go : State → State} (h0 : Can s) (h1 : ∀ (t0 : State), Can t0 → Can (go t0)) : OutCanon (State.maintain s a b whole sc go) := by
  unfold State.maintain
  with_reducible repeat' (first | assumption | apply h1 | apply State.checked_canon | apply State.raise_canon | apply State.retire_canon | apply OutCanon.mk | intro _ | dsimp only [id_eq, Can] | split)
theorem Job.records_canon {j : Job} {va : Nat} {size : Nat} {n : Nat} (h0 : Can j.s) : Can (Job.records j va size n).2.s := by
  unfold Job.records
  with_reducible repeat' (first | assumption | apply Job.read_canon | apply foldl_canon_job_snd | intro _)
theorem Job.records_canon_of {j : Job} {va : Nat} {size : Nat} {n : Nat} {y0 : List (List Byte)} {y1 : Job} (eq0 : (Job.records j va size n) = (y0, y1)) (h0 : Can j.s) : Can y1.s := by
  have h : Can (Job.records j va size n).2.s := Job.records_canon h0
  rw [eq0] at h; exact h
theorem stepJob_canon {param : Nat} {j : Job} (h0 : Can j.s) : Can (stepJob param j).s := by
  unfold stepJob
  with_reducible repeat' (first | assumption | apply Job.read_canon | apply Job.check_canon | apply Job.records_canon | apply Job.write_canon | apply Job.finish_canon | apply foldl_canon_job | intro _ | dsimp only [id_eq, Can] | split)
theorem State.keyEvent_canon {s : State} {p : Nat} {op : Nat} (h0 : Can s) : Can (State.keyEvent s p op) := by
  unfold State.keyEvent
  with_reducible repeat' (first | assumption | apply State.keyRequest_canon | dsimp only [id_eq, Can] | split)
theorem State.giveBack_canon {s : State} {n : Nat} {bs : List Nat} (h0 : Can s) : Can (State.giveBack s n bs) := by
  unfold State.giveBack
  with_reducible repeat' (first | assumption | apply State.putCMBit_canon | apply State.atelierFault_canon | apply State.setPool_canon | dsimp only [id_eq, Can] | split)
theorem State.putPair_canon {s : State} {n : Nat} {x : DWord} {lat : Nat} (h0 : Can s) : Can (State.putPair s n x lat) := by
  unfold State.putPair
  with_reducible repeat' (first | assumption | apply State.putS_canon)
theorem State.convert_canon {s : State} {d : BitVec 6} {a : BitVec 6} {t : BitVec 3} {u : Bool} {f : BitVec 3} {g : Env → Nat → Word × Nat} (h0 : Can s) : OutCanon (State.convert s d a t u f g) := by
  unfold State.convert
  with_reducible repeat' (first | assumption | apply State.una_canon | apply OutCanon.mk)
theorem State.soundEntries_canon {s : State} {g : Group} (h0 : Can s) : Can (State.soundEntries s g) := by
  unfold State.soundEntries
  with_reducible repeat' (first | assumption | dsimp only [id_eq, Can] | split)
theorem State.checkout_canon {s : State} {seq : Nat} {path : Nat} (h0 : Can s) : Can (State.checkout s seq path) := by
  unfold State.checkout
  with_reducible repeat' (first | assumption | apply State.soundEntries_canon | dsimp only [id_eq, Can] | split)
theorem State.issued_canon {s : State} {seq : Nat} {o : Out} (h0 : Can s) (h1 : OutCanon o) : OutCanon (State.issued s seq o) := by
  unfold State.issued
  with_reducible repeat' (first | assumption | apply State.setGroup_canon | apply OutCanon.mk | split)
theorem State.ownEXM_canon {s : State} (h0 : Can s) : Can (State.ownEXM s) := by
  unfold State.ownEXM
  with_reducible repeat' (first | assumption | apply State.withMe_canon | apply State.setPath_canon | dsimp only [id_eq, Can] | split)
theorem State.needPriv_canon {s : State} (h0 : Can s) : Can (State.needPriv s) := by
  unfold State.needPriv
  with_reducible repeat' (first | assumption | apply State.raise_canon)
theorem State.groupWrite_canon {s : State} {n : Nat} {v : Word} (h0 : Can s) : OptCanon (State.groupWrite s n v) := by
  unfold State.groupWrite
  with_reducible repeat' (first | assumption | apply State.withMe_canon | apply State.setMyTeam_canon | apply OptCanon.mk | exact OptCanon.none | dsimp only [id_eq, Can] | apply OptCanon.ite)
theorem State.groupWrite_canon_of {s : State} {n : Nat} {v : Word} {y : State} (e : (State.groupWrite s n v) = some y) (h0 : Can s) : Can y :=
  State.groupWrite_canon h0 y e
theorem State.sysWrite_canon {s : State} {n : Nat} {v : Word} (h0 : Can s) : OptCanon (State.sysWrite s n v) := by
  unfold State.sysWrite
  with_reducible repeat' (first | assumption | apply State.groupWrite_canon | apply State.tileWrite_canon | apply State.partWrite_canon | exact OptCanon.none | apply OptCanon.ite)
theorem State.sysWrite_canon_of {s : State} {n : Nat} {v : Word} {y : State} (e : (State.sysWrite s n v) = some y) (h0 : Can s) : Can y :=
  State.sysWrite_canon h0 y e
theorem State.logic1_canon {s : State} {d : BitVec 6} {a : BitVec 6} {w : BitVec 2} {u : Bool} {x : Bool} {f : Word → Word} (h0 : Can s) : OutCanon (State.logic1 s d a w u x f) := by
  unfold State.logic1
  with_reducible repeat' (first | assumption | apply State.una_canon | apply OutCanon.mk)
theorem State.imm_canon {s : State} {ok : Bool} {d : BitVec 6} {a : BitVec 6} {u : Bool} {f : Word → Word} (h0 : Can s) : Can (State.imm s ok d a u f) := by
  unfold State.imm
  with_reducible repeat' (first | assumption | apply State.calc_canon)
theorem State.address_canon {s : State} {d : BitVec 6} {a : BitVec 6} {b : BitVec 6} {u : Bool} {w : BitVec 2} {x : Bool} {y : Bool} {cls : Nat} {f : DWord → Word → DWord} (h0 : Can s) : Can (State.address s d a b u w x y cls f) := by
  unfold State.address
  with_reducible repeat' (first | assumption | apply State.calc_canon)
theorem State.predOp_canon {s : State} {d : BitVec 6} {a : BitVec 6} {b : BitVec 6} {w : BitVec 2} {u : Bool} {f : LaneMask → LaneMask → LaneMask} (h0 : Can s) : OutCanon (State.predOp s d a b w u f) := by
  unfold State.predOp
  with_reducible repeat' (first | assumption | apply State.checked_canon | apply State.retire_canon | apply State.putCMBit_canon | apply State.withMe_canon | apply OutCanon.mk | intro _ | dsimp only [id_eq, Can] | split)
theorem State.putCM_canon {s : State} {x : DWord} {lat : Nat} (h0 : Can s) : Can (State.putCM s x lat) := by
  unfold State.putCM
  with_reducible repeat' (first | assumption | apply State.putCMBits_canon)
theorem State.dwPF_canon {s : State} {d : BitVec 6} {a : BitVec 6} {b : BitVec 6} {w : BitVec 2} {u : Bool} {x : Bool} {y : Bool} {f : Fp → Fp → Fp → List Word × Nat} (h0 : Can s) : OutCanon (State.dwPF s d a b w u x y f) := by
  unfold State.dwPF
  with_reducible repeat' (first | assumption | apply State.calc_canon | apply OutCanon.mk)
theorem State.dwP_canon {s : State} {d : BitVec 6} {a : BitVec 6} {w : BitVec 2} {u : Bool} {x : Bool} {per : Nat} {cls : Nat} {f : Fp → Fp → List Word × Nat} (h0 : Can s) : OutCanon (State.dwP s d a w u x per cls f) := by
  unfold State.dwP
  with_reducible repeat' (first | assumption | apply State.calc_canon | apply OutCanon.mk)
theorem State.arrive_canon {s : State} {cluster : Bool} {split : Bool} (h0 : Can s) : Can (State.arrive s cluster split) := by
  unfold State.arrive
  with_reducible repeat' (first | assumption | apply State.setMyTeam_canon | apply State.withMe_canon | apply State.clusterPhase_canon | apply State.teamPhase_canon | dsimp only [id_eq, Can] | split)
theorem State.vote_canon {s : State} {d : BitVec 6} {a : BitVec 6} {b : BitVec 6} {w : BitVec 2} {f : LaneMask → LaneMask → Bool} (h0 : Can s) : OutCanon (State.vote s d a b w f) := by
  unfold State.vote
  with_reducible repeat' (first | assumption | apply State.checked_canon | apply State.withMe_canon | apply State.retire_canon | apply OutCanon.mk | intro _)
theorem State.bankOp_canon {s : State} {ok : Bool} {a : BitVec 6} {b : BitVec 6} {size : Nat} {align : Nat} {step : Nat → Nat} {f : Nat → Nat → Nat} (h0 : Can s) : OutCanon (State.bankOp s ok a b size align step f) := by
  unfold State.bankOp
  with_reducible repeat' (first | assumption | apply State.checked_canon | apply State.bankAccesses_canon | apply State.retire_canon | apply State.atomics_canon | apply OutCanon.mk | intro _)
theorem State.waitBatches_canon {s : State} {n : Nat} (h0 : Can s) : Can (State.waitBatches s n) := by
  unfold State.waitBatches
  with_reducible repeat' (first | assumption | apply State.block_canon | apply State.retire_canon | apply State.putCMBit_canon | apply State.acquire_canon | dsimp only [id_eq, Can] | split)
theorem State.febChecked_canon {s : State} {ok : Bool} {a : BitVec 6} {f : Nat → State → State} (h0 : Can s) (h1 : ∀ (t0 : Nat) (t1 : State), Can t1 → Can (f t0 t1)) : OutCanon (State.febChecked s ok a f) := by
  unfold State.febChecked
  with_reducible repeat' (first | assumption | apply h1 | apply State.checked_canon | apply State.raise_canon | apply OutCanon.mk | intro _ | dsimp only [id_eq, Can] | split)
theorem State.setFull_canon {s : State} {part : Nat} {k : Nat} {full : Bool} (h0 : Can s) : Can (State.setFull s part k full) := by
  unfold State.setFull
  with_reducible repeat' (first | assumption | apply State.review_canon | apply State.writeFull_canon | apply State.febServe_canon | dsimp only [id_eq, Can] | split)
theorem State.febBlock_canon {s : State} {n : Nat} {kind : FebKind} {w : BitVec 2} (h0 : Can s) : Can (State.febBlock s n kind w) := by
  unfold State.febBlock
  with_reducible repeat' (first | assumption | apply State.retire_canon | apply State.acquire_canon | apply State.release_canon | apply State.setFull_canon | apply State.block_canon | apply State.writeHead_canon | dsimp only [id_eq, Can] | split)
theorem State.latchFault_canon {s : State} {c : Cause} (h0 : Can s) : Can (State.latchFault s c) := by
  unfold State.latchFault
  with_reducible repeat' (first | assumption | apply State.raiseArrival_canon | apply State.fail_canon | apply State.setMyTeam_canon | apply foldl_canon | intro _)
theorem State.gangRelease_canon {s : State} {k : StepKind} {b : Nat} {reuse : Bool} {all : List GangArrival} {beats : Nat} (h0 : Can s) : Can (State.gangRelease s k b reuse all beats) := by
  unfold State.gangRelease
  with_reducible repeat' (first | assumption | apply State.latchFault_canon | apply State.enqueue_canon | apply State.setMyTeam_canon | apply State.grant_canon | apply State.retire_canon | apply foldl_canon | intro _ | dsimp only [id_eq, Can] | split)
theorem State.stepGang_canon {s : State} {k : StepKind} {b : Nat} {reuse : Bool} {va : Nat} {rank : Nat} {size : Nat} (h0 : Can s) : Can (State.stepGang s k b reuse va rank size) := by
  unfold State.stepGang
  with_reducible repeat' (first | assumption | apply State.block_canon | apply State.latchFault_canon | apply State.setMyTeam_canon | apply State.withMe_canon | apply State.gangRelease_canon | dsimp only [id_eq, Can] | split)
theorem State.stepAlone_canon {s : State} {k : StepKind} {b : Nat} {reuse : Bool} {va : Nat} (h0 : Can s) : Can (State.stepAlone s k b reuse va) := by
  unfold State.stepAlone
  with_reducible repeat' (first | assumption | apply State.fail_canon | apply State.block_canon | apply State.enqueue_canon | apply State.withMe_canon | apply State.retire_canon | dsimp only [id_eq, Can] | split)
theorem State.kstep_canon {s : State} {k : StepKind} {a : BitVec 6} {b : BitVec 6} {e : Bool} (h0 : Can s) : OutCanon (State.kstep s k a b e) := by
  unfold State.kstep
  with_reducible repeat' (first | assumption | apply State.retire_canon | apply State.checked_canon | apply State.stepGang_canon | apply State.stepAlone_canon | apply OutCanon.mk | intro _ | dsimp only [id_eq, Can] | split)
theorem State.takeResult_canon {s : State} {d : Nat} {n : Nat} {data : List Word} (h0 : Can s) : Can (State.takeResult s d n data) := by
  unfold State.takeResult
  with_reducible repeat' (first | assumption | apply State.noRows_canon | apply State.retire_canon | apply State.writeResults_canon | apply State.allocRows_canon | dsimp only [id_eq, Can] | split)
theorem State.queueAndWait_canon {s : State} {k : MatKind} (h0 : Can s) : Can (State.queueAndWait s k) := by
  unfold State.queueAndWait
  with_reducible repeat' (first | assumption | apply State.block_canon | apply State.enqueue_canon | dsimp only [id_eq, Can] | split)
theorem State.useEntry_canon {s : State} {k : Nat} {f : State → State} (h0 : Can s) (h1 : ∀ (t0 : State), Can t0 → Can (f t0)) : Can (State.useEntry s k f) := by
  unfold State.useEntry
  with_reducible repeat' (first | assumption | apply h1 | apply State.raise_canon | dsimp only [id_eq, Can] | split)
theorem State.onFuture_canon {s : State} {a : BitVec 6} {invalid : State → State} {f : Nat → Nat → State → State} (h0 : Can s) (h1 : ∀ (t0 : State), Can t0 → Can (invalid t0)) (h2 : ∀ (t0 : Nat) (t1 : Nat) (t2 : State), Can t2 → Can (f t0 t1 t2)) : Can (State.onFuture s a invalid f) := by
  unfold State.onFuture
  with_reducible repeat' (first | assumption | apply h1 | apply h2 | apply State.useEntry_canon | intro _ | dsimp only [id_eq, Can] | split)
theorem State.tasksAwaited_canon {s : State} {ids : List Nat} {other : Bool} {w : BitVec 2} (h0 : Can s) : Can (State.tasksAwaited s ids other w) := by
  unfold State.tasksAwaited
  with_reducible repeat' (first | assumption | apply State.retire_canon | apply State.putCMBit_canon | apply State.acquire_canon)
theorem State.awaitTasks_canon {s : State} {ids : List Nat} {w : BitVec 2} (h0 : Can s) : Can (State.awaitTasks s ids w) := by
  unfold State.awaitTasks
  with_reducible repeat' (first | assumption | apply State.tasksAwaited_canon | apply State.block_canon | dsimp only [id_eq, Can] | split)
theorem State.cancelBranch_canon {s : State} {part : Nat} {b : Nat} (h0 : Can s) : Can (State.cancelBranch s part b) := by
  unfold State.cancelBranch
  with_reducible repeat' (first | assumption | apply State.setPart_canon | apply State.markDying_canon | apply State.finishCancels_canon | apply State.flushDying_canon | dsimp only [id_eq, Can] | split)
theorem State.withPool_canon {s : State} {n : Nat} {u : Bool} {f : State → State} (h0 : Can s) (h1 : ∀ (t0 : State), Can t0 → Can (f t0)) : Can (State.withPool s n u f) := by
  unfold State.withPool
  with_reducible repeat' (first | assumption | apply h1 | apply State.fail_canon | dsimp only [id_eq, Can] | split)
theorem State.walkLinks_canon {s : State} {a1 : Nat} {a2 : Nat} {a3 : List Nat} (h0 : Can s) : Can (State.walkLinks s a1 a2 a3).2 := by
  induction a1 generalizing s a2 a3 with
  | zero =>
    unfold State.walkLinks
    with_reducible repeat' (first | apply ih | cases ‹_ = Nat.succ _› | assumption | apply State.before_canon | apply State.loadAccess_canon | apply State.noteTlb_canon | dsimp only [id_eq, Can] | split)
  | succ k ih =>
    unfold State.walkLinks
    with_reducible repeat' (first | apply ih | cases ‹_ = Nat.succ _› | assumption | apply State.before_canon | apply State.loadAccess_canon | apply State.noteTlb_canon | dsimp only [id_eq, Can] | split)
theorem State.walkLinks_canon_of {s : State} {a1 : Nat} {a2 : Nat} {a3 : List Nat} {y0 : Walk} {y1 : State} (eq0 : (State.walkLinks s a1 a2 a3) = (y0, y1)) (h0 : Can s) : Can y1 := by
  have h : Can (State.walkLinks s a1 a2 a3).2 := State.walkLinks_canon h0
  rw [eq0] at h; exact h
theorem State.freeList_canon {s : State} {n : Nat} {bs : List Nat} {d : BitVec 6} (h0 : Can s) : Can (State.freeList s n bs d) := by
  unfold State.freeList
  with_reducible repeat' (first | assumption | apply State.putS_canon | apply State.giveBack_canon | dsimp only [id_eq, Can] | split)
theorem State.launchFault_canon {s : State} {part : Nat} {va : Nat} {r : Option Refuse} (h0 : Can s) : Can (State.launchFault s part va r) := by
  unfold State.launchFault
  with_reducible repeat' (first | assumption | apply State.pushCause_canon | dsimp only [id_eq, Can] | split)
theorem State.launchConsumer_canon {s : State} {part : Nat} {n : Nat} {k : Nat} (h0 : Can s) : Can (State.launchConsumer s part n k) := by
  unfold State.launchConsumer
  with_reducible repeat' (first | assumption | apply State.setMould_canon | apply State.launchFault_canon | apply State.accept_canon | dsimp only [id_eq, Can] | split)
theorem State.cast_canon {s : State} {part : Nat} {n : Nat} {k : Nat} (h0 : Can s) : Can (State.cast s part n k).2 := by
  unfold State.cast
  with_reducible repeat' (first | assumption | apply State.closeUp_canon | apply State.release_canon | apply State.imageWrite_canon | apply State.setFull_canon | apply State.setMould_canon | apply State.launchConsumer_canon | dsimp only [id_eq, Can] | split)
theorem State.cast_canon_of {s : State} {part : Nat} {n : Nat} {k : Nat} {y0 : Bool} {y1 : State} (eq0 : (State.cast s part n k) = (y0, y1)) (h0 : Can s) : Can y1 := by
  have h : Can (State.cast s part n k).2 := State.cast_canon h0
  rw [eq0] at h; exact h
theorem State.placeRow_canon {s : State} {n : Nat} {k : Nat} {bs : List Byte} {tag : Word} (h0 : Can s) : Can (State.placeRow s n k bs tag) := by
  unfold State.placeRow
  with_reducible repeat' (first | assumption | apply State.imageWrite_canon | apply State.setMould_canon | apply State.cast_canon | dsimp only [id_eq, Can] | split)
theorem State.fillLanes_canon {s : State} {n : Nat} {a : BitVec 6} {b : BitVec 6} {a4 : List Nat} (h0 : Can s) : Can (State.fillLanes s n a b a4).2 := by
  induction a4 generalizing s n a b with
  | nil =>
    unfold State.fillLanes
    with_reducible repeat' (first | apply ih | assumption | apply State.drainRange_canon | apply State.withMe_canon | apply State.placeRow_canon | dsimp only [id_eq, Can] | split)
  | cons x xs ih =>
    unfold State.fillLanes
    with_reducible repeat' (first | apply ih | assumption | apply State.drainRange_canon | apply State.withMe_canon | apply State.placeRow_canon | dsimp only [id_eq, Can] | split)
theorem State.fillLanes_canon_of {s : State} {n : Nat} {a : BitVec 6} {b : BitVec 6} {a4 : List Nat} {y0 : Bool} {y1 : State} (eq0 : (State.fillLanes s n a b a4) = (y0, y1)) (h0 : Can s) : Can y1 := by
  have h : Can (State.fillLanes s n a b a4).2 := State.fillLanes_canon h0
  rw [eq0] at h; exact h
theorem State.pushed_canon {s : State} {d : BitVec 6} {st : Nat} (h0 : Can s) : Can (State.pushed s d st) := by
  unfold State.pushed
  with_reducible repeat' (first | assumption | apply State.retire_canon | apply State.putS_canon)
theorem State.mailed_canon {s : State} {failed : Bool} (h0 : Can s) : Can (State.mailed s failed) := by
  unfold State.mailed
  with_reducible repeat' (first | assumption | apply State.retire_canon | apply State.putCMBit_canon)
theorem State.awaitPhase_canon {s : State} {cluster : Bool} {n : Nat} (h0 : Can s) : Can (State.awaitPhase s cluster n) := by
  unfold State.awaitPhase
  with_reducible repeat' (first | assumption | apply State.retire_canon | apply State.withMe_canon | apply State.acquire_canon | apply State.block_canon | dsimp only [id_eq, Can] | split)
theorem State.smpStop_canon {s : State} {tile : Nat} (h0 : Can s) : Can (State.smpStop s tile) := by
  unfold State.smpStop
  with_reducible repeat' (first | assumption | apply State.setCoreReg_canon | apply State.setSampler_canon)
theorem State.markSampler_canon {s : State} {id : Nat} (h0 : Can s) : Can (State.markSampler s id) := by
  unfold State.markSampler
  with_reducible repeat' (first | assumption | apply State.setSampler_canon | apply State.smpStop_canon | dsimp only [id_eq, Can] | split)
theorem State.launchEntry_canon {s : State} {part : Nat} {q : Nat} {e : List Byte} (h0 : Can s) : Can (State.launchEntry s part q e).1 := by
  unfold State.launchEntry
  with_reducible repeat' (first | assumption | apply State.accept_canon | dsimp only [id_eq, Can] | split)
theorem State.launchEntry_canon_of {s : State} {part : Nat} {q : Nat} {e : List Byte} {y0 : State} {y1 : Nat} (eq0 : (State.launchEntry s part q e) = (y0, y1)) (h0 : Can s) : Can y0 := by
  have h : Can (State.launchEntry s part q e).1 := State.launchEntry_canon h0
  rw [eq0] at h; exact h
theorem State.launchRead_canon {s : State} {part : Nat} {q : Nat} (h0 : Can s) : Can (State.launchRead s part q) := by
  unfold State.launchRead
  with_reducible repeat' (first | assumption | apply State.setPart_canon | apply State.msi_canon | apply State.atelierFault_canon | apply State.launchEntry_canon | refine State.atelierWrite_canon_of (by assumption) ?_ | dsimp only [id_eq, Can] | split)
theorem State.addGroups_canon {s : State} {make : Nat → Nat → Nat → Nat → Group} {a2 : Nat} {a3 : List Nat} (h0 : Can s) : Can (State.addGroups s make a2 a3) := by
  induction a3 generalizing s make a2 with
  | nil =>
    unfold State.addGroups
    with_reducible repeat' (first | apply ih | assumption)
  | cons x xs ih =>
    unfold State.addGroups
    with_reducible repeat' (first | apply ih | assumption)
theorem State.addTeam_canon {s : State} {k : Task} {cluster : Nat} {member : Nat} {tile : Nat} {tiles : List Nat} (h0 : Can s) : Can (State.addTeam s k cluster member tile tiles) := by
  unfold State.addTeam
  with_reducible repeat' (first | assumption | apply State.settleShare_canon | apply State.addGroups_canon | apply foldl_canon)
theorem State.startCluster_canon {s : State} {k : Task} {tiles : List Nat} (h0 : Can s) : Can (State.startCluster s k tiles) := by
  unfold State.startCluster
  with_reducible repeat' (first | assumption | apply State.setPart_canon | apply State.addTeam_canon | apply State.reboard_canon | apply foldl_canon | intro _)
theorem State.dispatch_canon {s : State} (h0 : Can s) : Can (State.dispatch s) := by
  unfold State.dispatch
  with_reducible repeat' (first | assumption | apply State.setPart_canon | apply State.startCluster_canon | dsimp only [id_eq, Can] | split)
theorem State.saveTeam_canon {s : State} {t : Team} (h0 : Can s) : Can (State.saveTeam s t) := by
  unfold State.saveTeam
  with_reducible repeat' (first | assumption | apply State.drainAll_canon | apply State.withdrawIf_canon | apply State.setPart_canon | apply State.leave_canon | apply foldl_canon | dsimp only [id_eq, Can] | split)
theorem State.tileReturn_canon {s : State} {part : Nat} {n : Nat} {k : Nat} {id : Nat} (h0 : Can s) : Can (State.tileReturn s part n k id) := by
  unfold State.tileReturn
  with_reducible repeat' (first | assumption | apply State.countStale_canon | apply State.setMould_canon | apply State.setFull_canon | dsimp only [id_eq, Can] | split)
theorem State.completeTask_canon {s : State} {part : Nat} {id : Nat} (h0 : Can s) : Can (State.completeTask s part id) := by
  unfold State.completeTask
  with_reducible repeat' (first | assumption | apply State.setPart_canon | apply State.leaveUnit_canon | apply State.tileReturn_canon | apply State.endUnveiling_canon | apply foldl_canon | intro _ | dsimp only [id_eq, Can] | split)
theorem State.captureSlotNow_canon {s : State} {part : Nat} (h0 : Can s) : Can (State.captureSlotNow s part) := by
  unfold State.captureSlotNow
  with_reducible repeat' (first | assumption | apply State.unattributed_canon | apply State.setUnveiling_canon | apply foldl_canon | intro _ | dsimp only [id_eq, Can] | split)
theorem State.launchUnveil_canon {s : State} {part : Nat} {args : Nat} (h0 : Can s) : Can (State.launchUnveil s part args) := by
  unfold State.launchUnveil
  with_reducible repeat' (first | assumption | apply State.endUnveiling_canon | apply State.launchFault_canon | apply State.accept_canon | apply State.setPart_canon | dsimp only [id_eq, Can] | split)
theorem State.capture_canon {s : State} {part : Nat} (h0 : Can s) : Can (State.capture s part) := by
  unfold State.capture
  with_reducible repeat' (first | assumption | apply State.captureSlotNow_canon | apply State.writeResult_canon | apply State.launchUnveil_canon | dsimp only [id_eq, Can] | split)
theorem State.gateDone_canon {s : State} {who : Nat} {v : Word} {done : Option State} (h0 : Can s) (h1 : OptCanon done) : Can (State.gateDone s who v done) := by
  unfold State.gateDone
  with_reducible repeat' (first | assumption | apply State.setPart_canon | apply getD_canon | dsimp only [id_eq, Can] | split)
theorem State.rotate_canon {s : State} (h0 : Can s) : Can (State.rotate s) := by
  unfold State.rotate
  with_reducible repeat' (first | assumption | apply State.preemptTeam_canon | apply foldl_canon | intro _ | dsimp only [id_eq, Can] | split)
theorem State.commitScanned_canon {s : State} (h0 : Can s) : Can (State.commitScanned s) := by
  unfold State.commitScanned
  with_reducible repeat' (first | assumption | apply State.commitVersion_canon | apply foldl_canon | intro _)
theorem State.patrolCount_canon {s : State} {ch : Nat} {k : Nat} (h0 : Can s) : Can (State.patrolCount s ch k) := by
  unfold State.patrolCount
  with_reducible repeat' (first | assumption | apply State.setPatrolReg_canon)
theorem State.patrolBad_canon {s : State} {ch : Nat} {e : SoftError} (h0 : Can s) : Can (State.patrolBad s ch e) := by
  unfold State.patrolBad
  with_reducible repeat' (first | assumption | apply State.patrolCount_canon | apply State.unattributed_canon | apply State.msi_canon | dsimp only [id_eq, Can] | split)
theorem State.pushReport_canon {s : State} {part : Nat} {r : Report} (h0 : Can s) : Can (State.pushReport s part r) := by
  unfold State.pushReport
  with_reducible repeat' (first | assumption | apply State.setPart_canon | apply State.msi_canon | dsimp only [id_eq, Can] | split)
theorem State.audit_canon {s : State} (h0 : Can s) : Can (State.audit s) := by
  unfold State.audit
  with_reducible repeat' (first | assumption | apply State.flagChannel_canon | apply State.pushReport_canon | apply State.msi_canon | dsimp only [id_eq, Can] | split)
theorem State.probeAt_canon {s : State} {x : Probe} (h0 : Can s) : Can (State.probeAt s x) := by
  unfold State.probeAt
  with_reducible repeat' (first | assumption | apply State.pushReport_canon | apply State.spread_canon | dsimp only [id_eq, Can] | split)
theorem State.writeReport_canon {s : State} {part : Nat} (h0 : Can s) : Can (State.writeReport s part) := by
  unfold State.writeReport
  with_reducible repeat' (first | assumption | apply State.setPart_canon | refine State.atelierWrite_canon_of (by assumption) ?_ | apply State.msi_canon | apply State.atelierFault_canon | dsimp only [id_eq, Can] | split)
theorem State.ringSample_canon {s : State} {tile : Nat} {bs : Nat → List Byte} (h0 : Can s) : Can (State.ringSample s tile bs) := by
  unfold State.ringSample
  with_reducible repeat' (first | assumption | apply State.smpStore_canon | refine State.atelierWrite_canon_of (by assumption) ?_ | dsimp only [id_eq, Can] | split)
theorem State.takeSample_canon {s : State} {tile : Nat} (h0 : Can s) : Can (State.takeSample s tile) := by
  unfold State.takeSample
  with_reducible repeat' (first | assumption | apply State.setSampler_canon | apply State.ringSample_canon | apply State.setPart_canon | dsimp only [id_eq, Can] | split)
theorem State.trigger_canon {s : State} {part : Nat} {n : Nat} {r : TraceRec} (h0 : Can s) : Can (State.trigger s part n r) := by
  unfold State.trigger
  with_reducible repeat' (first | assumption | apply State.msi_canon | apply State.setGroup_canon | apply State.startTrial_canon | apply State.stopTrial_canon | dsimp only [id_eq, Can] | split)
theorem State.runFilter_canon {part : Nat} {r : TraceRec} {a2 : Nat} {a3 : Nat} {a4 : State} (h0 : Can a4) : Can (State.runFilter part r a2 a3 a4).2 := by
  induction a2 generalizing part r a3 a4 with
  | zero =>
    unfold State.runFilter
    with_reducible repeat' (first | apply ih | assumption | apply State.setPart_canon | apply State.trigger_canon | dsimp only [id_eq, Can] | split)
  | succ k ih =>
    unfold State.runFilter
    with_reducible repeat' (first | apply ih | assumption | apply State.setPart_canon | apply State.trigger_canon | dsimp only [id_eq, Can] | split)
theorem State.runFilter_canon_of {part : Nat} {r : TraceRec} {a2 : Nat} {a3 : Nat} {a4 : State} {y0 : Bool} {y1 : State} (eq0 : (State.runFilter part r a2 a3 a4) = (y0, y1)) (h0 : Can a4) : Can y1 := by
  have h : Can (State.runFilter part r a2 a3 a4).2 := State.runFilter_canon h0
  rw [eq0] at h; exact h
theorem State.traceFilter_canon {s : State} {part : Nat} (h0 : Can s) : Can (State.traceFilter s part) := by
  unfold State.traceFilter
  with_reducible repeat' (first | assumption | apply State.runFilter_canon | apply State.setPart_canon | apply State.traceWrite_canon | dsimp only [id_eq, Can] | split)
theorem State.haltWritten_canon {s : State} {part : Nat} (h0 : Can s) : OptCanon (State.haltWritten s part) := by
  unfold State.haltWritten
  with_reducible repeat' (first | assumption | apply State.setPart_canon | refine State.atelierWrite_canon_of (by assumption) ?_ | apply OptCanon.mk | exact OptCanon.none | dsimp only [id_eq, Can] | apply OptCanon.ite | split)
theorem State.haltWritten_canon_of {s : State} {part : Nat} {y : State} (e : (State.haltWritten s part) = some y) (h0 : Can s) : Can y :=
  State.haltWritten_canon h0 y e
theorem State.takeHold_canon {s : State} {seq : Nat} {n : Nat} (h0 : Can s) : Can (State.takeHold s seq n) := by
  unfold State.takeHold
  with_reducible repeat' (first | assumption | apply State.withdrawIf_canon | apply State.setGroup_canon | apply State.haltRecord_canon | dsimp only [id_eq, Can] | split)
theorem State.abandon_canon {s : State} {id : Nat} {kind : Nat} (h0 : Can s) : Can (State.abandon s id kind) := by
  unfold State.abandon
  with_reducible repeat' (first | assumption | apply State.setTeam_canon)
theorem State.writeElements_canon {s : State} {id : Nat} {vs : List ((Nat × Nat) × BitVec 40)} {fl : Nat} (h0 : Can s) : Can (State.writeElements s id vs fl) := by
  unfold State.writeElements
  with_reducible repeat' (first | assumption | apply State.setTeam_canon | apply State.unstrike_canon | apply foldl_canon | intro _ | dsimp only [id_eq, Can] | split)
theorem State.performStep_canon {s : State} {id : Nat} {zero : Bool} {sparse : Bool} {f : FormatBlock} {rows : List (Nat × List Word)} {seen : List Host.Cell} (h0 : Can s) : Can (State.performStep s id zero sparse f rows seen) := by
  unfold State.performStep
  with_reducible repeat' (first | assumption | apply State.abandon_canon | apply State.writeElements_canon | apply State.setTeam_canon | dsimp only [id_eq, Can] | split)
theorem State.drainClear_canon {s : State} {id : Nat} {d : DrainDesc} (h0 : Can s) : Can (State.drainClear s id d) := by
  unfold State.drainClear
  with_reducible repeat' (first | assumption | apply State.writeElements_canon | dsimp only [id_eq, Can] | split)
theorem State.performMatrix_canon {s : State} {id : Nat} (h0 : Can s) : Can (State.performMatrix s id) := by
  unfold State.performMatrix
  with_reducible repeat' (first | assumption | apply State.performStep_canon | apply State.abandon_canon | apply State.performWrite_canon | apply State.popMatrix_canon | apply State.drainClear_canon | apply State.writeElements_canon | apply State.grant_canon | apply State.setTeam_canon | apply foldl_canon | intro _ | dsimp only [id_eq, Can] | split)
theorem State.ttPop_canon {s : State} {st : Nat} (h0 : Can s) : Can (State.ttPop s st) := by
  unfold State.ttPop
  with_reducible repeat' (first | assumption | apply State.setStation_canon)
theorem State.ttNote_canon {s : State} {o : TTOp} {vslot : Nat} {st : Nat} (h0 : Can s) : Can (State.ttNote s o vslot st) := by
  unfold State.ttNote
  with_reducible repeat' (first | assumption | apply State.setGroup_canon)
theorem State.ttPerform_canon {s : State} {st : Nat} (h0 : Can s) : Can (State.ttPerform s st) := by
  unfold State.ttPerform
  with_reducible repeat' (first | assumption | apply State.ttPop_canon | apply State.grant_canon | apply State.setSlot_canon | apply State.ttSound_canon | apply State.ttNote_canon | apply State.setPart_canon | dsimp only [id_eq, Can] | split)
theorem State.eject_canon {s : State} {f : Flit} (h0 : Can s) : Can (State.eject s f) := by
  unfold State.eject
  with_reducible repeat' (first | assumption | dsimp only [id_eq, Can] | split)
theorem State.placeFlits_canon {r : Nat} {a1 : List Flit} {a2 : List Nat} {a3 : Nat} {a4 : List Flit} {a5 : State} (h0 : Can a5) : Can (State.placeFlits r a1 a2 a3 a4 a5).2.2 := by
  induction a1 generalizing r a2 a3 a4 a5 with
  | nil =>
    unfold State.placeFlits
    with_reducible repeat' (first | apply ih | assumption | apply State.eject_canon | dsimp only [id_eq, Can] | split)
  | cons x xs ih =>
    unfold State.placeFlits
    with_reducible repeat' (first | apply ih | assumption | apply State.eject_canon | dsimp only [id_eq, Can] | split)
theorem State.placeFlits_canon_of {r : Nat} {a1 : List Flit} {a2 : List Nat} {a3 : Nat} {a4 : List Flit} {a5 : State} {y0 : List Flit} {y1 : List Nat} {y2 : State} (eq0 : (State.placeFlits r a1 a2 a3 a4 a5) = (y0, y1, y2)) (h0 : Can a5) : Can y2 := by
  have h : Can (State.placeFlits r a1 a2 a3 a4 a5).2.2 := State.placeFlits_canon h0
  rw [eq0] at h; exact h
theorem State.walk_canon {s : State} {e : Nat} {p : Nat} {kind : Nat} {f : Chain → List Byte → State → State} (h0 : Can s) (h1 : ∀ (t0 : Chain) (t1 : List Byte) (t2 : State), Can t2 → Can (f t0 t1 t2)) : Can (State.walk s e p kind f) := by
  unfold State.walk
  with_reducible repeat' (first | assumption | apply h1 | apply State.setChain_canon | dsimp only [id_eq, Can] | split)
theorem State.readBody_canon {s : State} {c : Chain} {va : Nat} {a3 : Nat} (h0 : Can s) : ErrCanon (State.readBody s c va a3) := by
  induction a3 generalizing s c va with
  | zero =>
    unfold State.readBody
    with_reducible repeat' (first | apply ih | assumption | refine State.engineRead_canon_of (by assumption) ?_ | apply ErrCanon.mk | apply ErrCanon.map | exact ErrCanon.ok | split)
  | succ k ih =>
    unfold State.readBody
    with_reducible repeat' (first | apply ih | assumption | refine State.engineRead_canon_of (by assumption) ?_ | apply ErrCanon.mk | apply ErrCanon.map | exact ErrCanon.ok | split)
theorem State.readBody_canon_of {s : State} {c : Chain} {va : Nat} {a3 : Nat} {y} (e : (State.readBody s c va a3) = .error y) (h0 : Can s) : Can y.2 :=
  State.readBody_canon h0 y e
theorem VoxelBlock.entries_canon {v : VoxelBlock} {j : Job} (h0 : Can j.s) : Can (VoxelBlock.entries v j).2.s := by
  unfold VoxelBlock.entries
  with_reducible repeat' (first | assumption | apply Job.read_canon | apply foldl_canon_job_snd | intro _)
theorem VoxelBlock.entries_canon_of {v : VoxelBlock} {j : Job} {y0 : List (List Byte)} {y1 : Job} (eq0 : (VoxelBlock.entries v j) = (y0, y1)) (h0 : Can j.s) : Can y1.s := by
  have h : Can (VoxelBlock.entries v j).2.s := VoxelBlock.entries_canon h0
  rw [eq0] at h; exact h
theorem VoxelBlock.probe_canon {v : VoxelBlock} {key : Nat} {a2 : Nat} {a3 : Nat} {a4 : Job} (h0 : Can a4.s) : Can (VoxelBlock.probe v key a2 a3 a4).2.s := by
  induction a2 generalizing v key a3 a4 with
  | zero =>
    unfold VoxelBlock.probe
    with_reducible repeat' (first | apply ih | assumption | apply Job.read_canon | dsimp only [id_eq, Can] | split)
  | succ k ih =>
    unfold VoxelBlock.probe
    with_reducible repeat' (first | apply ih | assumption | apply Job.read_canon | dsimp only [id_eq, Can] | split)
theorem VoxelBlock.probe_canon_of {v : VoxelBlock} {key : Nat} {a2 : Nat} {a3 : Nat} {a4 : Job} {y0 : Option (Nat × List Byte)} {y1 : Job} (eq0 : (VoxelBlock.probe v key a2 a3 a4) = (y0, y1)) (h0 : Can a4.s) : Can y1.s := by
  have h : Can (VoxelBlock.probe v key a2 a3 a4).2.s := VoxelBlock.probe_canon h0
  rw [eq0] at h; exact h
theorem VoxelBlock.point_canon {v : VoxelBlock} {r : VoxelRun} {i : Nat} (h0 : Can r.j.s) : Can (VoxelBlock.point v r i).j.s := by
  unfold VoxelBlock.point
  with_reducible repeat' (first | assumption | apply Job.read_canon | apply VoxelBlock.probe_canon | apply Job.write_canon | dsimp only [id_eq, Can] | split)
theorem voxelJob_canon {param : Nat} {j : Job} (h0 : Can j.s) : Can (voxelJob param j).s := by
  unfold voxelJob
  with_reducible repeat' (first | assumption | apply Job.read_canon | apply Job.check_canon | apply Job.write_canon | apply VoxelBlock.entries_canon | apply VoxelBlock.point_canon | apply Job.finish_canon | apply foldl_canon_job | apply foldl_canon_voxel | intro _ | dsimp only [id_eq, Can] | split)
theorem rulebookJob_canon {param : Nat} {j : Job} (h0 : Can j.s) : Can (rulebookJob param j).s := by
  unfold rulebookJob
  with_reducible repeat' (first | assumption | apply Job.read_canon | apply Job.check_canon | apply Job.fail_canon | apply Job.write32_canon | apply Job.write_canon | apply RuleBlock.pairsOut_canon | apply Job.finish_canon | apply foldl_canon_job | intro _ | dsimp only [id_eq, Can] | split)
theorem coordJob_canon {param : Nat} {j : Job} (h0 : Can j.s) : Can (coordJob param j).s := by
  unfold coordJob
  with_reducible repeat' (first | assumption | apply Job.read_canon | apply Job.check_canon | apply Job.fail_canon | apply Job.finish_canon | apply Job.write_canon | apply foldl_canon_job | intro _ | dsimp only [id_eq, Can] | split)
theorem ConvBlock.expandChunk_canon {c : ConvBlock} {tab : Nat} {j : Job} {q : Nat} (h0 : Can j.s) : Can (ConvBlock.expandChunk c tab j q).s := by
  unfold ConvBlock.expandChunk
  with_reducible repeat' (first | assumption | apply Job.read_canon | apply Job.write_canon)
theorem expandJob_canon {param : Nat} {j : Job} (h0 : Can j.s) : Can (expandJob param j).s := by
  unfold expandJob
  with_reducible repeat' (first | assumption | apply Job.read_canon | apply Job.check_canon | apply Job.finish_canon | apply ConvBlock.expandChunk_canon | apply foldl_canon_job | dsimp only [id_eq, Can] | split)
theorem Tree.walk_canon {t : Tree} {q : Sweep} {a2 : Nat} {a3 : Nat} {a4 : Nat} {a5 : List Int} {a6 : Job × Option Met} (h0 : Can a6.1.s) : Can (Tree.walk t q a2 a3 a4 a5 a6).1.s := by
  induction a2 generalizing t q a3 a4 a5 a6 with
  | zero =>
    unfold Tree.walk
    with_reducible repeat' (first | apply ih | assumption | apply Job.read_canon | apply Job.check_canon | apply foldl_canon_job_fst | intro _ | dsimp only [id_eq, Can] | split)
  | succ k ih =>
    unfold Tree.walk
    with_reducible repeat' (first | apply ih | assumption | apply Job.read_canon | apply Job.check_canon | apply foldl_canon_job_fst | intro _ | dsimp only [id_eq, Can] | split)
theorem Tree.walk_canon_of {t : Tree} {q : Sweep} {a2 : Nat} {a3 : Nat} {a4 : Nat} {a5 : List Int} {a6 : Job × Option Met} {y0 : Job} {y1 : Option Met} (eq0 : (Tree.walk t q a2 a3 a4 a5 a6) = (y0, y1)) (h0 : Can a6.1.s) : Can y0.s := by
  have h : Can (Tree.walk t q a2 a3 a4 a5 a6).1.s := Tree.walk_canon h0
  rw [eq0] at h; exact h
theorem Tree.meet_canon {t : Tree} {q : Sweep} {j : Job} (h0 : Can j.s) : Can (Tree.meet t q j).1.s := by
  unfold Tree.meet
  with_reducible repeat' (first | assumption | apply Tree.walk_canon)
theorem Tree.meet_canon_of {t : Tree} {q : Sweep} {j : Job} {y0 : Job} {y1 : Option Met} (eq0 : (Tree.meet t q j) = (y0, y1)) (h0 : Can j.s) : Can y0.s := by
  have h : Can (Tree.meet t q j).1.s := Tree.meet_canon h0
  rw [eq0] at h; exact h
theorem Tree.search_canon {t : Tree} {a1 : Nat} {a2 : List Sweep} {a3 : Job} (h0 : Can a3.s) : Can (Tree.search t a1 a2 a3).1.s := by
  induction a2 generalizing t a1 a3 with
  | nil =>
    unfold Tree.search
    with_reducible repeat' (first | apply ih | assumption | apply Tree.meet_canon | dsimp only [id_eq, Can] | split)
  | cons x xs ih =>
    unfold Tree.search
    with_reducible repeat' (first | apply ih | assumption | apply Tree.meet_canon | dsimp only [id_eq, Can] | split)
theorem Tree.search_canon_of {t : Tree} {a1 : Nat} {a2 : List Sweep} {a3 : Job} {y0 : Job} {y1 : Option (Nat × Met)} (eq0 : (Tree.search t a1 a2 a3) = (y0, y1)) (h0 : Can a3.s) : Can y0.s := by
  have h : Can (Tree.search t a1 a2 a3).1.s := Tree.search_canon h0
  rw [eq0] at h; exact h
theorem collisionJob_canon {swept : Bool} {ask : List Byte → Job → Query × Job} {param : Nat} {j : Job} (h0 : ∀ (t0 : List Byte) (t1 : Job), Can t1.s → Can (ask t0 t1).2.s) (h1 : Can j.s) : Can (collisionJob swept ask param j).s := by
  unfold collisionJob
  with_reducible repeat' (first | assumption | apply h0 | apply Job.read_canon | apply Job.check_canon | apply Job.write_canon | apply Tree.search_canon | apply Job.finish_canon | apply foldl_canon_job_fst | intro _ | dsimp only [id_eq, Can] | split)
theorem polyline_canon {segment : Bool} {q : List Byte} {j : Job} (h0 : Can j.s) : Can (polyline segment q j).2.s := by
  unfold polyline
  with_reducible repeat' (first | assumption | apply Job.read_canon | dsimp only [id_eq, Can] | split)
theorem polyline_canon_of {segment : Bool} {q : List Byte} {j : Job} {y0 : Query} {y1 : Job} (eq0 : (polyline segment q j) = (y0, y1)) (h0 : Can j.s) : Can y1.s := by
  have h : Can (polyline segment q j).2.s := polyline_canon h0
  rw [eq0] at h; exact h
theorem State.booting_canon {s : State} {b : Word} (h0 : Can s) : Can (State.booting s b) := by
  unfold State.booting
  with_reducible repeat' (first | apply State.reset_canon)
theorem State.illinst_canon {s : State} (h0 : Can s) : Can (State.illinst s) := by
  unfold State.illinst
  with_reducible repeat' (first | assumption | apply State.raise_canon)
theorem State.countCe_canon {s : State} {tile : Nat} {kind : Nat} (h0 : Can s) : Can (State.countCe s tile kind) := by
  unfold State.countCe
  with_reducible repeat' (first | assumption | apply State.setCoreReg_canon)
theorem State.period_canon {s : State} (h0 : Can s) : Can (State.period s) := by
  unfold State.period
  with_reducible repeat' (first | assumption)
theorem State.send_canon {s : State} {src : Nat} {dst : Nat} {size : Nat} (h0 : Can s) : Can (State.send s src dst size) := by
  unfold State.send
  with_reducible repeat' (first | assumption | dsimp only [id_eq, Can] | split)
theorem State.traffic_canon {s : State} (h0 : Can s) : Can (State.traffic s) := by
  unfold State.traffic
  with_reducible repeat' (first | assumption | apply State.send_canon | dsimp only [id_eq, Can] | split)
theorem State.holdDisabled_canon {s : State} (h0 : Can s) : Can (State.holdDisabled s) := by
  unfold State.holdDisabled
  with_reducible repeat' (first | assumption | apply State.disableCore_canon | apply foldl_canon | dsimp only [id_eq, Can] | split)
theorem State.jobWrites_canon {s : State} (h0 : Can s) : Can (State.jobWrites s) := by
  unfold State.jobWrites
  with_reducible repeat' (first | assumption | apply State.setChain_canon | apply State.engineStore_canon | apply foldl_canon | intro _)
theorem State.patrolBack_canon {s : State} (h0 : Can s) : Can (State.patrolBack s) := by
  unfold State.patrolBack
  with_reducible repeat' (first | assumption | apply State.patrolCount_canon | apply foldl_canon | intro _ | dsimp only [id_eq, Can] | split)
theorem State.noteHeads_canon {s : State} (h0 : Can s) : Can (State.noteHeads s) := by
  unfold State.noteHeads
  with_reducible repeat' (first | assumption | apply State.setPart_canon | apply foldl_canon | intro _ | dsimp only [id_eq, Can] | split)
theorem State.reviewLists_canon {s : State} (h0 : Can s) : Can (State.reviewLists s) := by
  unfold State.reviewLists
  with_reducible repeat' (first | assumption | apply State.review_canon | apply foldl_canon | intro _ | split)
theorem State.tick_canon {s : State} (h0 : Can s) : Can (State.tick s) := by
  unfold State.tick
  with_reducible repeat' (first | assumption | apply State.holdDisabled_canon | apply State.patrolBack_canon | apply State.noteHeads_canon | apply State.closeMoulds_canon | apply State.reviewLists_canon | apply State.jobWrites_canon | apply State.traffic_canon | apply State.period_canon | dsimp only [id_eq, Can] | split)

end Sys2Proof.Machine
end

