-- ==== Sys2Proof/Laws/CanonicalMeanings.lean ====
section
/-! SUPPORT. Every meaning keeps the three memories in canonical form. -/

namespace Sys2Proof.Machine

theorem execPartStop_canon {p : Nat} {s : State} (h0 : Can s) : OutCanon (execPartStop p s) := by
  unfold execPartStop
  with_reducible repeat' (first | assumption | apply State.stopAdvance_canon | apply State.partCommand_canon | apply OutCanon.mk | split)
theorem execAtadd_canon {d : BitVec 6} {a : BitVec 6} {b : BitVec 6} {u : Bool} {v : Bool} {z : Bool} {r : BitVec 3} {s : State} (h0 : Can s) : OutCanon (execAtadd d a b u v z r s) := by
  unfold execAtadd
  with_reducible repeat' (first | assumption | apply State.atomicOp_canon)
theorem execRevolution_canon {slot : Nat} {s : State} (h0 : Can s) : OutCanon (execRevolution slot s) := by
  unfold execRevolution
  with_reducible repeat' (first | assumption | apply State.setSlot_canon | apply OutCanon.mk | dsimp only [id_eq, Can] | split)
theorem execModerd_canon {d : BitVec 6} {w : BitVec 2} {s : State} (h0 : Can s) : OutCanon (execModerd d w s) := by
  unfold execModerd
  with_reducible repeat' (first | assumption | apply State.once_canon | apply State.putS_canon | apply OutCanon.mk | intro _)
theorem execChainEnd_canon {e : Nat} {p : Nat} {s : State} (h0 : Can s) : OutCanon (execChainEnd e p s) := by
  unfold execChainEnd
  with_reducible repeat' (first | assumption | apply State.resolveChain_canon | refine State.nextEntry_canon_of (by assumption) ?_ | apply State.illFormed_canon | apply OutCanon.mk | split)
theorem execTtcas_canon {d : BitVec 6} {a : BitVec 6} {b : BitVec 6} {r : Bool} {q : Bool} {w : BitVec 3} {s : State} (h0 : Can s) : OutCanon (execTtcas d a b r q w s) := by
  unfold execTtcas
  with_reducible repeat' (first | assumption | apply State.ttOp_canon | apply State.putCMBit_canon | apply State.putWords_canon | intro _)
theorem execFceq_canon {d : BitVec 6} {a : BitVec 6} {b : BitVec 6} {w : BitVec 2} {u : Bool} {x : Bool} {y : Bool} {s : State} (h0 : Can s) : OutCanon (execFceq d a b w u x y s) := by
  unfold execFceq
  with_reducible repeat' (first | assumption | apply State.fcmp_canon)
theorem execBrc_canon {c : BitVec 6} {i : BitVec 18} {s : State} (h0 : Can s) : OutCanon (execBrc c i s) := by
  unfold execBrc
  with_reducible repeat' (first | assumption | apply State.checked_canon | apply State.branch_canon | apply OutCanon.mk | intro _)
theorem execGetDeviceInterfaceReport_canon {sess : Nat} {vf : Nat} {s : State} (h0 : Can s) : OutCanon (execGetDeviceInterfaceReport sess vf s) := by
  unfold execGetDeviceInterfaceReport
  with_reducible repeat' (first | assumption | apply State.tdisp_canon | apply State.answerMsg_canon | intro _)
theorem execShflx_canon {d : BitVec 6} {a : BitVec 6} {b : BitVec 6} {w : BitVec 2} {x : Bool} {s : State} (h0 : Can s) : OutCanon (execShflx d a b w x s) := by
  unfold execShflx
  with_reducible repeat' (first | assumption | apply State.shuffle_canon)
theorem execReddotc_canon {d : BitVec 6} {a : BitVec 6} {b : BitVec 6} {w : BitVec 2} {x : Bool} {y : Bool} {s : State} (h0 : Can s) : OutCanon (execReddotc d a b w x y s) := by
  unfold execReddotc
  with_reducible repeat' (first | assumption | apply State.reduce_canon | apply OutCanon.mk)
theorem execLinkDown_canon {s : State} (h0 : Can s) : OutCanon (execLinkDown s) := by
  unfold execLinkDown
  with_reducible repeat' (first | assumption | apply State.onLink_canon | apply State.linkReset_canon | apply OutCanon.mk)
theorem execBkscal_canon {d : BitVec 6} {a : BitVec 6} {b : BitVec 6} {s : State} (h0 : Can s) : OutCanon (execBkscal d a b s) := by
  unfold execBkscal
  with_reducible repeat' (first | assumption | apply State.bankFill_canon)
theorem execBfi_canon {d : BitVec 6} {a : BitVec 6} {b : BitVec 6} {u : Bool} {s : State} (h0 : Can s) : OutCanon (execBfi d a b u s) := by
  unfold execBfi
  with_reducible repeat' (first | assumption | apply State.tri_canon | apply OutCanon.mk)
theorem execHostAccess_canon {write : Bool} {addr : Nat} {bytes : List Byte} {s : State} (h0 : Can s) : OutCanon (execHostAccess write addr bytes s) := by
  unfold execHostAccess
  with_reducible repeat' (first | assumption | apply State.hostWriteRun_canon | apply OutCanon.mk | apply foldl_canon | intro _ | dsimp only [id_eq, Can] | split)
theorem execShr_canon {d : BitVec 6} {a : BitVec 6} {b : BitVec 6} {w : BitVec 2} {u : Bool} {x : Bool} {y : Bool} {s : State} (h0 : Can s) : OutCanon (execShr d a b w u x y s) := by
  unfold execShr
  with_reducible repeat' (first | assumption | apply State.logic_canon)
theorem execFcos_canon {d : BitVec 6} {a : BitVec 6} {w : BitVec 2} {u : Bool} {x : Bool} {s : State} (h0 : Can s) : OutCanon (execFcos d a w u x s) := by
  unfold execFcos
  with_reducible repeat' (first | assumption | apply State.special_canon)
theorem execAtxor_canon {d : BitVec 6} {a : BitVec 6} {b : BitVec 6} {u : Bool} {v : Bool} {z : Bool} {r : BitVec 3} {s : State} (h0 : Can s) : OutCanon (execAtxor d a b u v z r s) := by
  unfold execAtxor
  with_reducible repeat' (first | assumption | apply State.atomicOp_canon)
theorem execTeamRestore_canon {team : Nat} {s : State} (h0 : Can s) : OutCanon (execTeamRestore team s) := by
  unfold execTeamRestore
  with_reducible repeat' (first | assumption | apply State.restoreTeam_canon | apply State.reboard_canon | apply OutCanon.mk | apply foldl_canon | intro _ | dsimp only [id_eq, Can] | split)
theorem execGetDigests_canon {sess : Nat} {s : State} (h0 : Can s) : OutCanon (execGetDigests sess s) := by
  unfold execGetDigests
  with_reducible repeat' (first | assumption | apply State.spdm_canon | apply State.answerMsg_canon | intro _)
theorem execFsub_canon {d : BitVec 6} {a : BitVec 6} {b : BitVec 6} {w : BitVec 2} {u : Bool} {x : Bool} {y : Bool} {s : State} (h0 : Can s) : OutCanon (execFsub d a b w u x y s) := by
  unfold execFsub
  with_reducible repeat' (first | assumption | apply State.bin_canon | apply OutCanon.mk)
theorem execNegotiateAlgorithms_canon {sess : Nat} {ok : Bool} {s : State} (h0 : Can s) : OutCanon (execNegotiateAlgorithms sess ok s) := by
  unfold execNegotiateAlgorithms
  with_reducible repeat' (first | assumption | apply State.spdm_canon | apply State.answerMsg_canon | apply State.setSession_canon | intro _)
theorem execLoopk_canon {c : BitVec 2} {l : BitVec 8} {n : BitVec 10} {s : State} (h0 : Can s) : OutCanon (execLoopk c l n s) := by
  unfold execLoopk
  with_reducible repeat' (first | assumption | apply State.illopU_canon | apply State.checked_canon | apply State.loopOn_canon | apply OutCanon.mk | intro _ | split)
theorem execLdw_canon {d : BitVec 6} {a : BitVec 6} {u : Bool} {off : BitVec 8} {r : BitVec 3} {s : State} (h0 : Can s) : OutCanon (execLdw d a u off r s) := by
  unfold execLdw
  with_reducible repeat' (first | assumption | apply State.load_canon)
theorem execDwceq_canon {d : BitVec 6} {a : BitVec 6} {b : BitVec 6} {w : BitVec 2} {u : Bool} {x : Bool} {y : Bool} {s : State} (h0 : Can s) : OutCanon (execDwceq d a b w u x y s) := by
  unfold execDwceq
  with_reducible repeat' (first | assumption | apply State.dwCmp_canon)
theorem execEngineJobComplete_canon {e : Nat} {s : State} (h0 : Can s) : OutCanon (execEngineJobComplete e s) := by
  unfold execEngineJobComplete
  with_reducible repeat' (first | assumption | apply State.setChain_canon | apply State.engineStore_canon | apply State.leaveUnit_canon | apply State.dropChain_canon | apply State.countStale_canon | apply State.setTeam_canon | apply State.resolveChain_canon | apply OutCanon.mk | dsimp only [id_eq, Can] | split)
theorem execIdeStreamInsecure_canon {vf : Nat} {s : State} (h0 : Can s) : OutCanon (execIdeStreamInsecure vf s) := by
  unfold execIdeStreamInsecure
  with_reducible repeat' (first | assumption | apply State.insecure_canon | apply OutCanon.mk | split)
theorem execFrsq_canon {d : BitVec 6} {a : BitVec 6} {w : BitVec 2} {u : Bool} {x : Bool} {s : State} (h0 : Can s) : OutCanon (execFrsq d a w u x s) := by
  unfold execFrsq
  with_reducible repeat' (first | assumption | apply State.special_canon)
theorem execCopyComplete_canon {c : Nat} {s : State} (h0 : Can s) : OutCanon (execCopyComplete c s) := by
  unfold execCopyComplete
  with_reducible repeat' (first | assumption | apply State.copiesEnded_canon | apply State.runCopy_canon | apply OutCanon.mk | split)
theorem execPoolDisable_canon {p : Nat} {n : Nat} {s : State} (h0 : Can s) : OutCanon (execPoolDisable p n s) := by
  unfold execPoolDisable
  with_reducible repeat' (first | assumption | apply State.poolDisable_canon | apply OutCanon.mk)
theorem execStd_canon {d : BitVec 6} {a : BitVec 6} {u : Bool} {off : BitVec 8} {r : BitVec 3} {s : State} (h0 : Can s) : OutCanon (execStd d a u off r s) := by
  unfold execStd
  with_reducible repeat' (first | assumption | apply State.store_canon)
theorem execIcne_canon {d : BitVec 6} {a : BitVec 6} {b : BitVec 6} {w : BitVec 2} {u : Bool} {x : Bool} {y : Bool} {s : State} (h0 : Can s) : OutCanon (execIcne d a b w u x y s) := by
  unfold execIcne
  with_reducible repeat' (first | assumption | apply State.icmp_canon)
theorem execFexp2_canon {d : BitVec 6} {a : BitVec 6} {w : BitVec 2} {u : Bool} {x : Bool} {s : State} (h0 : Can s) : OutCanon (execFexp2 d a w u x s) := by
  unfold execFexp2
  with_reducible repeat' (first | assumption | apply State.special_canon)
theorem execImaxu_canon {d : BitVec 6} {a : BitVec 6} {b : BitVec 6} {w : BitVec 2} {u : Bool} {x : Bool} {y : Bool} {s : State} (h0 : Can s) : OutCanon (execImaxu d a b w u x y s) := by
  unfold execImaxu
  with_reducible repeat' (first | assumption | apply State.bin_canon | apply OutCanon.mk)
theorem execFmul_canon {d : BitVec 6} {a : BitVec 6} {b : BitVec 6} {w : BitVec 2} {u : Bool} {x : Bool} {y : Bool} {s : State} (h0 : Can s) : OutCanon (execFmul d a b w u x y s) := by
  unfold execFmul
  with_reducible repeat' (first | assumption | apply State.bin_canon | apply OutCanon.mk)
theorem execRedmax_canon {d : BitVec 6} {a : BitVec 6} {b : BitVec 6} {w : BitVec 2} {x : Bool} {s : State} (h0 : Can s) : OutCanon (execRedmax d a b w x s) := by
  unfold execRedmax
  with_reducible repeat' (first | assumption | apply State.extreme_canon)
theorem execConvertCompress_canon {e : Nat} {s : State} (h0 : Can s) : OutCanon (execConvertCompress e s) := by
  unfold execConvertCompress
  with_reducible repeat' (first | assumption | apply State.startJob_canon | apply compressJob_canon | apply OutCanon.mk)
theorem execPerstAssert_canon {s : State} (h0 : Can s) : OutCanon (execPerstAssert s) := by
  unfold execPerstAssert
  with_reducible repeat' (first | assumption | apply State.linkReset_canon | apply OutCanon.mk | split)
theorem execIclti_canon {d : BitVec 6} {a : BitVec 6} {u : Bool} {i : BitVec 11} {s : State} (h0 : Can s) : OutCanon (execIclti d a u i s) := by
  unfold execIclti
  with_reducible repeat' (first | assumption | apply State.icmpi_canon)
theorem execFclass_canon {d : BitVec 6} {a : BitVec 6} {w : BitVec 2} {u : Bool} {x : Bool} {s : State} (h0 : Can s) : OutCanon (execFclass d a w u x s) := by
  unfold execFclass
  with_reducible repeat' (first | assumption | apply State.una_canon | apply OutCanon.mk)
theorem execPack8_canon {d : BitVec 6} {a : BitVec 6} {b : BitVec 6} {u : Bool} {c : BitVec 4} {s : State} (h0 : Can s) : OutCanon (execPack8 d a b u c s) := by
  unfold execPack8
  with_reducible repeat' (first | assumption | apply State.calc_canon | apply OutCanon.mk)
theorem execSpawn_canon {d : BitVec 6} {a : BitVec 6} {w : BitVec 2} {s : State} (h0 : Can s) : OutCanon (execSpawn d a w s) := by
  unfold execSpawn
  with_reducible repeat' (first | assumption | apply State.checked_canon | apply State.accesses_canon | apply State.loadAccess_canon | apply State.release_canon | apply State.illopU_canon | apply State.retire_canon | apply State.putCMBit_canon | apply State.putS_canon | apply State.accept_canon | apply OutCanon.mk | intro _ | dsimp only [id_eq, Can] | split)
theorem execFreeze_canon {p : Nat} {on : Bool} {s : State} (h0 : Can s) : OutCanon (execFreeze p on s) := by
  unfold execFreeze
  with_reducible repeat' (first | assumption | apply State.setPart_canon | apply OutCanon.mk | split)
theorem execHostRegisterWrite_canon {off : Nat} {v : Word} {s : State} (h0 : Can s) : OutCanon (execHostRegisterWrite off v s) := by
  unfold execHostRegisterWrite
  with_reducible repeat' (first | assumption | apply State.onLink_canon | apply State.hostPart_canon | apply State.tileWrite_canon | apply State.hostRefused_canon | apply State.deviceWrite_canon | apply getD_canon | apply OutCanon.mk | intro _ | dsimp only [id_eq, Can] | split)
theorem execLoop_canon {d : BitVec 6} {a : BitVec 6} {i : BitVec 11} {s : State} (h0 : Can s) : OutCanon (execLoop d a i s) := by
  unfold execLoop
  with_reducible repeat' (first | assumption | apply State.illopU_canon | apply State.checked_canon | apply State.loopOn_canon | apply OutCanon.mk | intro _ | split)
theorem execFmin_canon {d : BitVec 6} {a : BitVec 6} {b : BitVec 6} {w : BitVec 2} {u : Bool} {x : Bool} {y : Bool} {s : State} (h0 : Can s) : OutCanon (execFmin d a b w u x y s) := by
  unfold execFmin
  with_reducible repeat' (first | assumption | apply State.bin_canon | apply OutCanon.mk)
theorem execCaliperStart_canon {p : Nat} {s : State} (h0 : Can s) : OutCanon (execCaliperStart p s) := by
  unfold execCaliperStart
  with_reducible repeat' (first | assumption | apply State.startTrial_canon | apply OutCanon.mk | split)
theorem execHoldPath_canon {who : Nat} {p : Nat} {v : Word} {s : State} (h0 : Can s) : OutCanon (execHoldPath who p v s) := by
  unfold execHoldPath
  with_reducible repeat' (first | assumption | apply State.debugStep_canon | apply OutCanon.mk)
theorem execHoldGroup_canon {who : Nat} {p : Nat} {v : Word} {s : State} (h0 : Can s) : OutCanon (execHoldGroup who p v s) := by
  unfold execHoldGroup
  with_reducible repeat' (first | assumption | apply State.debugStep_canon | apply OutCanon.mk)
theorem execFence_canon {r : BitVec 3} {s : State} (h0 : Can s) : OutCanon (execFence r s) := by
  unfold execFence
  with_reducible repeat' (first | assumption | apply State.once_canon | apply State.release_canon | apply State.acquire_canon | apply OutCanon.mk | intro _ | dsimp only [id_eq, Can] | split)
theorem execIdemb_canon {w : BitVec 2} {s : State} (h0 : Can s) : OutCanon (execIdemb w s) := by
  unfold execIdemb
  with_reducible repeat' (first | assumption | apply State.once_canon | apply State.withMe_canon | apply OutCanon.mk | intro _ | dsimp only [id_eq, Can] | split)
theorem execMmwait_canon {w : BitVec 2} {s : State} (h0 : Can s) : OutCanon (execMmwait w s) := by
  unfold execMmwait
  with_reducible repeat' (first | assumption | apply State.checked_canon | apply State.block_canon | apply State.orPoison_canon | apply State.retire_canon | apply State.acquire_canon | apply OutCanon.mk | intro _ | dsimp only [id_eq, Can] | split)
theorem execBallot_canon {d : BitVec 6} {a : BitVec 6} {b : BitVec 6} {w : BitVec 2} {s : State} (h0 : Can s) : OutCanon (execBallot d a b w s) := by
  unfold execBallot
  with_reducible repeat' (first | assumption | apply State.cross_canon | apply OutCanon.mk)
theorem execAnd_canon {d : BitVec 6} {a : BitVec 6} {b : BitVec 6} {w : BitVec 2} {u : Bool} {x : Bool} {y : Bool} {s : State} (h0 : Can s) : OutCanon (execAnd d a b w u x y s) := by
  unfold execAnd
  with_reducible repeat' (first | assumption | apply State.logic_canon)
theorem execFshf_canon {d : BitVec 6} {a : BitVec 6} {b : BitVec 6} {w : BitVec 2} {u : Bool} {x : Bool} {y : Bool} {z : Bool} {s : State} (h0 : Can s) : OutCanon (execFshf d a b w u x y z s) := by
  unfold execFshf
  with_reducible repeat' (first | assumption | apply State.tri_canon | apply OutCanon.mk)
theorem execCpya_canon {d : BitVec 6} {a : BitVec 6} {b : BitVec 6} {e : Bool} {k : BitVec 4} {s : State} (h0 : Can s) : OutCanon (execCpya d a b e k s) := by
  unfold execCpya
  with_reducible repeat' (first | assumption | apply State.checked_canon | apply State.raise_canon | apply State.copyIssue_canon | apply State.startCopy_canon | apply State.drainRange_canon | apply OutCanon.mk | intro _ | dsimp only [id_eq, Can] | split)
theorem execFtanh_canon {d : BitVec 6} {a : BitVec 6} {w : BitVec 2} {u : Bool} {x : Bool} {s : State} (h0 : Can s) : OutCanon (execFtanh d a w u x s) := by
  unfold execFtanh
  with_reducible repeat' (first | assumption | apply State.special_canon)
theorem execGetTdispVersion_canon {sess : Nat} {vf : Nat} {s : State} (h0 : Can s) : OutCanon (execGetTdispVersion sess vf s) := by
  unfold execGetTdispVersion
  with_reducible repeat' (first | assumption | apply State.tdisp_canon | apply State.answerMsg_canon | intro _)
theorem execFsin_canon {d : BitVec 6} {a : BitVec 6} {w : BitVec 2} {u : Bool} {x : Bool} {s : State} (h0 : Can s) : OutCanon (execFsin d a w u x s) := by
  unfold execFsin
  with_reducible repeat' (first | assumption | apply State.special_canon)
theorem execTtread_canon {d : BitVec 6} {a : BitVec 6} {h : Bool} {q : Bool} {s : State} (h0 : Can s) : OutCanon (execTtread d a h q s) := by
  unfold execTtread
  with_reducible repeat' (first | assumption | apply State.ttOp_canon | apply State.putWords_canon | intro _)
theorem execDwadd_canon {d : BitVec 6} {a : BitVec 6} {b : BitVec 6} {w : BitVec 2} {u : Bool} {x : Bool} {y : Bool} {s : State} (h0 : Can s) : OutCanon (execDwadd d a b w u x y s) := by
  unfold execDwadd
  with_reducible repeat' (first | assumption | apply State.dwPP_canon)
theorem execExmld_canon {a : BitVec 6} {w : BitVec 2} {s : State} (h0 : Can s) : OutCanon (execExmld a w s) := by
  unfold execExmld
  with_reducible repeat' (first | assumption | apply State.once_canon | apply State.putEXM_canon | apply OutCanon.mk | intro _)
theorem execTorg_canon {d : BitVec 6} {a : BitVec 6} {b : BitVec 6} {s : State} (h0 : Can s) : OutCanon (execTorg d a b s) := by
  unfold execTorg
  with_reducible repeat' (first | assumption | apply State.checked_canon | apply State.queueOp_canon | apply OutCanon.mk | intro _)
theorem execLdd_canon {d : BitVec 6} {a : BitVec 6} {u : Bool} {off : BitVec 8} {r : BitVec 3} {s : State} (h0 : Can s) : OutCanon (execLdd d a u off r s) := by
  unfold execLdd
  with_reducible repeat' (first | assumption | apply State.load_canon)
theorem execCinv_canon {a : BitVec 6} {b : BitVec 6} {whole : Bool} {sc : BitVec 3} {s : State} (h0 : Can s) : OutCanon (execCinv a b whole sc s) := by
  unfold execCinv
  with_reducible repeat' (first | assumption | apply State.maintain_canon | intro _ | dsimp only [id_eq, Can] | split)
theorem execDynStep_canon {e : Nat} {s : State} (h0 : Can s) : OutCanon (execDynStep e s) := by
  unfold execDynStep
  with_reducible repeat' (first | assumption | apply State.startJob_canon | apply stepJob_canon | apply OutCanon.mk)
theorem execAtmax_canon {d : BitVec 6} {a : BitVec 6} {b : BitVec 6} {u : Bool} {v : Bool} {z : Bool} {r : BitVec 3} {s : State} (h0 : Can s) : OutCanon (execAtmax d a b u v z r s) := by
  unfold execAtmax
  with_reducible repeat' (first | assumption | apply State.atomicOp_canon)
theorem execFdiv_canon {d : BitVec 6} {a : BitVec 6} {b : BitVec 6} {w : BitVec 2} {u : Bool} {x : Bool} {y : Bool} {s : State} (h0 : Can s) : OutCanon (execFdiv d a b w u x y s) := by
  unfold execFdiv
  with_reducible repeat' (first | assumption | apply State.bin_canon | apply OutCanon.mk)
theorem execAtor_canon {d : BitVec 6} {a : BitVec 6} {b : BitVec 6} {u : Bool} {v : Bool} {z : Bool} {r : BitVec 3} {s : State} (h0 : Can s) : OutCanon (execAtor d a b u v z r s) := by
  unfold execAtor
  with_reducible repeat' (first | assumption | apply State.atomicOp_canon)
theorem execKeyClear_canon {p : Nat} {s : State} (h0 : Can s) : OutCanon (execKeyClear p s) := by
  unfold execKeyClear
  with_reducible repeat' (first | assumption | apply State.keyEvent_canon | apply OutCanon.mk | split)
theorem execChannelReset_canon {who : Nat} {id : Word} {s : State} (h0 : Can s) : OutCanon (execChannelReset who id s) := by
  unfold execChannelReset
  with_reducible repeat' (first | assumption | apply State.chReset_canon | apply OutCanon.mk | split)
theorem execCaliperEnd_canon {p : Nat} {s : State} (h0 : Can s) : OutCanon (execCaliperEnd p s) := by
  unfold execCaliperEnd
  with_reducible repeat' (first | assumption | apply State.stopTrial_canon | apply OutCanon.mk | split)
theorem execStw_canon {d : BitVec 6} {a : BitVec 6} {u : Bool} {off : BitVec 8} {r : BitVec 3} {s : State} (h0 : Can s) : OutCanon (execStw d a u off r s) := by
  unfold execStw
  with_reducible repeat' (first | assumption | apply State.store_canon)
theorem execFabs_canon {d : BitVec 6} {a : BitVec 6} {w : BitVec 2} {u : Bool} {x : Bool} {s : State} (h0 : Can s) : OutCanon (execFabs d a w u x s) := by
  unfold execFabs
  with_reducible repeat' (first | assumption | apply State.una_canon | apply OutCanon.mk)
theorem execIneg_canon {d : BitVec 6} {a : BitVec 6} {w : BitVec 2} {u : Bool} {x : Bool} {s : State} (h0 : Can s) : OutCanon (execIneg d a w u x s) := by
  unfold execIneg
  with_reducible repeat' (first | assumption | apply State.una_canon | apply OutCanon.mk)
theorem execExmsv_canon {d : BitVec 6} {w : BitVec 2} {s : State} (h0 : Can s) : OutCanon (execExmsv d w s) := by
  unfold execExmsv
  with_reducible repeat' (first | assumption | apply State.once_canon | apply State.putPair_canon | apply OutCanon.mk | intro _)
theorem execCvtfi_canon {d : BitVec 6} {a : BitVec 6} {t : BitVec 3} {u : Bool} {f : BitVec 3} {s : State} (h0 : Can s) : OutCanon (execCvtfi d a t u f s) := by
  unfold execCvtfi
  with_reducible repeat' (first | assumption | apply State.convert_canon)
theorem execEndSession_canon {sess : Nat} {s : State} (h0 : Can s) : OutCanon (execEndSession sess s) := by
  unfold execEndSession
  with_reducible repeat' (first | assumption | apply State.spdm_canon | apply State.endSession_canon | apply State.answerMsg_canon | intro _)
theorem execBrall_canon {n : Bool} {p : BitVec 4} {i : BitVec 18} {s : State} (h0 : Can s) : OutCanon (execBrall n p i s) := by
  unfold execBrall
  with_reducible repeat' (first | assumption | apply State.checked_canon | apply State.branch_canon | apply OutCanon.mk | intro _)
theorem execNop_canon {w : BitVec 2} {s : State} (h0 : Can s) : OutCanon (execNop w s) := by
  unfold execNop
  with_reducible repeat' (first | assumption | apply State.once_canon | apply OutCanon.mk | intro _ | dsimp only [id_eq, Can])
theorem execJmp_canon {i : BitVec 18} {s : State} (h0 : Can s) : OutCanon (execJmp i s) := by
  unfold execJmp
  with_reducible repeat' (first | assumption | apply State.checked_canon | apply State.branch_canon | apply OutCanon.mk | intro _)
theorem execBra_canon {n : Bool} {p : BitVec 4} {i : BitVec 18} {s : State} (h0 : Can s) : OutCanon (execBra n p i s) := by
  unfold execBra
  with_reducible repeat' (first | assumption | apply State.checked_canon | apply State.retire_canon | apply State.branch_canon | apply State.raiseOnce_canon | apply State.withMe_canon | apply State.setPath_canon | apply OutCanon.mk | intro _ | dsimp only [id_eq, Can] | split)
theorem execBrany_canon {n : Bool} {p : BitVec 4} {i : BitVec 18} {s : State} (h0 : Can s) : OutCanon (execBrany n p i s) := by
  unfold execBrany
  with_reducible repeat' (first | assumption | apply State.checked_canon | apply State.branch_canon | apply OutCanon.mk | intro _)
theorem execJpt_canon {i : BitVec 18} {s : State} (h0 : Can s) : OutCanon (execJpt i s) := by
  unfold execJpt
  with_reducible repeat' (first | assumption | apply State.checked_canon | apply State.raiseOnce_canon | apply State.openScope_canon | apply OutCanon.mk | intro _ | dsimp only [id_eq, Can] | split)
theorem execCall_canon {n : Bool} {p : BitVec 4} {i : BitVec 18} {s : State} (h0 : Can s) : OutCanon (execCall n p i s) := by
  unfold execCall
  with_reducible repeat' (first | assumption | apply State.checked_canon | apply State.callTo_canon | apply OutCanon.mk | intro _)
theorem execCalli_canon {a : BitVec 6} {w : BitVec 2} {s : State} (h0 : Can s) : OutCanon (execCalli a w s) := by
  unfold execCalli
  with_reducible repeat' (first | assumption | apply State.checked_canon | apply State.raiseOnce_canon | apply State.callTo_canon | apply State.withMe_canon | apply OutCanon.mk | intro _ | dsimp only [id_eq, Can] | split)
theorem execRet_canon {w : BitVec 2} {s : State} (h0 : Can s) : OutCanon (execRet w s) := by
  unfold execRet
  with_reducible repeat' (first | assumption | apply State.checked_canon | apply State.retire_canon | apply OutCanon.mk | intro _)
theorem execLeave_canon {c : BitVec 2} {s : State} (h0 : Can s) : OutCanon (execLeave c s) := by
  unfold execLeave
  with_reducible repeat' (first | assumption | apply State.illopU_canon | apply State.checked_canon | apply State.retire_canon | apply State.withMe_canon | apply OutCanon.mk | intro _ | dsimp only [id_eq, Can] | split)
theorem execExit_canon {w : BitVec 2} {s : State} (h0 : Can s) : OutCanon (execExit w s) := by
  unfold execExit
  with_reducible repeat' (first | assumption | apply State.checked_canon | apply State.retire_canon | apply State.withMe_canon | apply State.ownEXM_canon | apply State.endGroup_canon | apply State.charge_canon | apply State.count_canon | apply OutCanon.mk | intro _ | dsimp only [id_eq, Can] | split)
theorem execYield_canon {w : BitVec 2} {s : State} (h0 : Can s) : OutCanon (execYield w s) := by
  unfold execYield
  with_reducible repeat' (first | assumption | apply State.checked_canon | apply State.retire_canon | apply State.withMe_canon | apply OutCanon.mk | intro _)
theorem execBkpt_canon {i : BitVec 11} {s : State} (h0 : Can s) : OutCanon (execBkpt i s) := by
  unfold execBkpt
  with_reducible repeat' (first | assumption | apply State.checked_canon | apply State.setPath_canon | apply State.charge_canon | apply State.count_canon | apply State.haltRecord_canon | apply State.withMe_canon | apply State.retire_canon | apply OutCanon.mk | intro _ | dsimp only [id_eq, Can] | split)
theorem execTrap_canon {i : BitVec 11} {s : State} (h0 : Can s) : OutCanon (execTrap i s) := by
  unfold execTrap
  with_reducible repeat' (first | assumption | apply State.checked_canon | apply State.raise_canon | apply State.charge_canon | apply State.count_canon | apply OutCanon.mk | intro _)
theorem execTrapret_canon {w : BitVec 2} {s : State} (h0 : Can s) : OutCanon (execTrapret w s) := by
  unfold execTrapret
  with_reducible repeat' (first | assumption | apply State.checked_canon | apply State.raiseOnce_canon | apply State.withdrawIf_canon | apply State.charge_canon | apply State.count_canon | apply State.withMe_canon | apply OutCanon.mk | intro _ | dsimp only [id_eq, Can] | split)
theorem execXrepl_canon {a : BitVec 6} {w : BitVec 2} {ux : Bool × Bool} {s : State} (h0 : Can s) : OutCanon (execXrepl a w ux s) := by
  unfold execXrepl
  with_reducible repeat' (first | assumption | apply State.raise_canon | apply State.checkedFor_canon | apply State.noRows_canon | apply State.replaceRows_canon | apply State.allocRows_canon | apply State.putS_canon | apply State.putPair_canon | apply State.putCMBit_canon | apply State.writeLanes_canon | apply State.withMe_canon | apply State.retire_canon | apply State.freeMarked_canon | apply OutCanon.mk | intro _ | dsimp only [id_eq, Can] | split)
theorem execMode_canon {a : BitVec 6} {w : BitVec 2} {s : State} (h0 : Can s) : OutCanon (execMode a w s) := by
  unfold execMode
  with_reducible repeat' (first | assumption | apply State.checked_canon | apply State.retire_canon | apply State.withMe_canon | apply OutCanon.mk | intro _)
theorem execModef_canon {d : BitVec 6} {i : BitVec 11} {s : State} (h0 : Can s) : OutCanon (execModef d i s) := by
  unfold execModef
  with_reducible repeat' (first | assumption | apply State.once_canon | apply State.withMe_canon | apply OutCanon.mk | intro _)
theorem execExmcmb_canon {a : BitVec 6} {f : BitVec 3} {s : State} (h0 : Can s) : OutCanon (execExmcmb a f s) := by
  unfold execExmcmb
  with_reducible repeat' (first | assumption | apply State.once_canon | apply State.putEXM_canon | apply OutCanon.mk | intro _)
theorem execExmp_canon {a : BitVec 6} {b : BitVec 6} {w : BitVec 2} {s : State} (h0 : Can s) : OutCanon (execExmp a b w s) := by
  unfold execExmp
  with_reducible repeat' (first | assumption | apply State.once_canon | apply State.putEXM_canon | apply OutCanon.mk | intro _)
theorem execIdrd_canon {d : BitVec 6} {u : Bool} {i : BitVec 11} {s : State} (h0 : Can s) : OutCanon (execIdrd d u i s) := by
  unfold execIdrd
  with_reducible repeat' (first | assumption | apply State.calc_canon | apply OutCanon.mk)
theorem execSysrd_canon {d : BitVec 6} {n : BitVec 12} {s : State} (h0 : Can s) : OutCanon (execSysrd d n s) := by
  unfold execSysrd
  with_reducible repeat' (first | assumption | apply State.checked_canon | apply State.needPriv_canon | apply State.acquire_canon | apply State.retire_canon | apply State.putS_canon | apply OutCanon.mk | intro _ | dsimp only [id_eq, Can] | split)
theorem execSyswr_canon {d : BitVec 6} {n : BitVec 12} {s : State} (h0 : Can s) : OutCanon (execSyswr d n s) := by
  unfold execSyswr
  with_reducible repeat' (first | assumption | apply State.sysWrite_canon | apply State.checked_canon | apply State.needPriv_canon | apply State.retire_canon | apply getD_canon | apply OutCanon.mk | intro _ | dsimp only [id_eq, Can] | split)
theorem execReln_canon {a : BitVec 6} {b : BitVec 6} {w : BitVec 2} {s : State} (h0 : Can s) : OutCanon (execReln a b w s) := by
  unfold execReln
  with_reducible repeat' (first | assumption | apply State.once_canon | apply State.withMe_canon | apply OutCanon.mk | intro _)
theorem execIdeme_canon {w : BitVec 2} {s : State} (h0 : Can s) : OutCanon (execIdeme w s) := by
  unfold execIdeme
  with_reducible repeat' (first | assumption | apply State.once_canon | apply State.withMe_canon | apply OutCanon.mk | intro _)
theorem execIadd_canon {d : BitVec 6} {a : BitVec 6} {b : BitVec 6} {w : BitVec 2} {u : Bool} {x : Bool} {y : Bool} {s : State} (h0 : Can s) : OutCanon (execIadd d a b w u x y s) := by
  unfold execIadd
  with_reducible repeat' (first | assumption | apply State.bin_canon | apply OutCanon.mk)
theorem execIsub_canon {d : BitVec 6} {a : BitVec 6} {b : BitVec 6} {w : BitVec 2} {u : Bool} {x : Bool} {y : Bool} {s : State} (h0 : Can s) : OutCanon (execIsub d a b w u x y s) := by
  unfold execIsub
  with_reducible repeat' (first | assumption | apply State.bin_canon | apply OutCanon.mk)
theorem execImul_canon {d : BitVec 6} {a : BitVec 6} {b : BitVec 6} {w : BitVec 2} {u : Bool} {x : Bool} {y : Bool} {s : State} (h0 : Can s) : OutCanon (execImul d a b w u x y s) := by
  unfold execImul
  with_reducible repeat' (first | assumption | apply State.bin_canon | apply OutCanon.mk)
theorem execImulh_canon {d : BitVec 6} {a : BitVec 6} {b : BitVec 6} {w : BitVec 2} {u : Bool} {x : Bool} {y : Bool} {s : State} (h0 : Can s) : OutCanon (execImulh d a b w u x y s) := by
  unfold execImulh
  with_reducible repeat' (first | assumption | apply State.bin_canon | apply OutCanon.mk)
theorem execImulhu_canon {d : BitVec 6} {a : BitVec 6} {b : BitVec 6} {w : BitVec 2} {u : Bool} {x : Bool} {y : Bool} {s : State} (h0 : Can s) : OutCanon (execImulhu d a b w u x y s) := by
  unfold execImulhu
  with_reducible repeat' (first | assumption | apply State.bin_canon | apply OutCanon.mk)
theorem execImad_canon {d : BitVec 6} {a : BitVec 6} {b : BitVec 6} {w : BitVec 2} {u : Bool} {x : Bool} {y : Bool} {z : Bool} {s : State} (h0 : Can s) : OutCanon (execImad d a b w u x y z s) := by
  unfold execImad
  with_reducible repeat' (first | assumption | apply State.tri_canon | apply OutCanon.mk)
theorem execIdiv_canon {d : BitVec 6} {a : BitVec 6} {b : BitVec 6} {w : BitVec 2} {u : Bool} {x : Bool} {y : Bool} {s : State} (h0 : Can s) : OutCanon (execIdiv d a b w u x y s) := by
  unfold execIdiv
  with_reducible repeat' (first | assumption | apply State.bin_canon | apply OutCanon.mk)
theorem execIdivu_canon {d : BitVec 6} {a : BitVec 6} {b : BitVec 6} {w : BitVec 2} {u : Bool} {x : Bool} {y : Bool} {s : State} (h0 : Can s) : OutCanon (execIdivu d a b w u x y s) := by
  unfold execIdivu
  with_reducible repeat' (first | assumption | apply State.bin_canon | apply OutCanon.mk)
theorem execIrem_canon {d : BitVec 6} {a : BitVec 6} {b : BitVec 6} {w : BitVec 2} {u : Bool} {x : Bool} {y : Bool} {s : State} (h0 : Can s) : OutCanon (execIrem d a b w u x y s) := by
  unfold execIrem
  with_reducible repeat' (first | assumption | apply State.bin_canon | apply OutCanon.mk)
theorem execIremu_canon {d : BitVec 6} {a : BitVec 6} {b : BitVec 6} {w : BitVec 2} {u : Bool} {x : Bool} {y : Bool} {s : State} (h0 : Can s) : OutCanon (execIremu d a b w u x y s) := by
  unfold execIremu
  with_reducible repeat' (first | assumption | apply State.bin_canon | apply OutCanon.mk)
theorem execImin_canon {d : BitVec 6} {a : BitVec 6} {b : BitVec 6} {w : BitVec 2} {u : Bool} {x : Bool} {y : Bool} {s : State} (h0 : Can s) : OutCanon (execImin d a b w u x y s) := by
  unfold execImin
  with_reducible repeat' (first | assumption | apply State.bin_canon | apply OutCanon.mk)
theorem execImax_canon {d : BitVec 6} {a : BitVec 6} {b : BitVec 6} {w : BitVec 2} {u : Bool} {x : Bool} {y : Bool} {s : State} (h0 : Can s) : OutCanon (execImax d a b w u x y s) := by
  unfold execImax
  with_reducible repeat' (first | assumption | apply State.bin_canon | apply OutCanon.mk)
theorem execIminu_canon {d : BitVec 6} {a : BitVec 6} {b : BitVec 6} {w : BitVec 2} {u : Bool} {x : Bool} {y : Bool} {s : State} (h0 : Can s) : OutCanon (execIminu d a b w u x y s) := by
  unfold execIminu
  with_reducible repeat' (first | assumption | apply State.bin_canon | apply OutCanon.mk)
theorem execIabs_canon {d : BitVec 6} {a : BitVec 6} {w : BitVec 2} {u : Bool} {x : Bool} {s : State} (h0 : Can s) : OutCanon (execIabs d a w u x s) := by
  unfold execIabs
  with_reducible repeat' (first | assumption | apply State.una_canon | apply OutCanon.mk)
theorem execOr_canon {d : BitVec 6} {a : BitVec 6} {b : BitVec 6} {w : BitVec 2} {u : Bool} {x : Bool} {y : Bool} {s : State} (h0 : Can s) : OutCanon (execOr d a b w u x y s) := by
  unfold execOr
  with_reducible repeat' (first | assumption | apply State.logic_canon)
theorem execXor_canon {d : BitVec 6} {a : BitVec 6} {b : BitVec 6} {w : BitVec 2} {u : Bool} {x : Bool} {y : Bool} {s : State} (h0 : Can s) : OutCanon (execXor d a b w u x y s) := by
  unfold execXor
  with_reducible repeat' (first | assumption | apply State.logic_canon)
theorem execAndn_canon {d : BitVec 6} {a : BitVec 6} {b : BitVec 6} {w : BitVec 2} {u : Bool} {x : Bool} {y : Bool} {s : State} (h0 : Can s) : OutCanon (execAndn d a b w u x y s) := by
  unfold execAndn
  with_reducible repeat' (first | assumption | apply State.logic_canon)
theorem execShl_canon {d : BitVec 6} {a : BitVec 6} {b : BitVec 6} {w : BitVec 2} {u : Bool} {x : Bool} {y : Bool} {s : State} (h0 : Can s) : OutCanon (execShl d a b w u x y s) := by
  unfold execShl
  with_reducible repeat' (first | assumption | apply State.logic_canon)
theorem execShra_canon {d : BitVec 6} {a : BitVec 6} {b : BitVec 6} {w : BitVec 2} {u : Bool} {x : Bool} {y : Bool} {s : State} (h0 : Can s) : OutCanon (execShra d a b w u x y s) := by
  unfold execShra
  with_reducible repeat' (first | assumption | apply State.logic_canon)
theorem execRotl_canon {d : BitVec 6} {a : BitVec 6} {b : BitVec 6} {w : BitVec 2} {u : Bool} {x : Bool} {y : Bool} {s : State} (h0 : Can s) : OutCanon (execRotl d a b w u x y s) := by
  unfold execRotl
  with_reducible repeat' (first | assumption | apply State.logic_canon)
theorem execPopc_canon {d : BitVec 6} {a : BitVec 6} {w : BitVec 2} {u : Bool} {x : Bool} {s : State} (h0 : Can s) : OutCanon (execPopc d a w u x s) := by
  unfold execPopc
  with_reducible repeat' (first | assumption | apply State.logic1_canon)
theorem execClz_canon {d : BitVec 6} {a : BitVec 6} {w : BitVec 2} {u : Bool} {x : Bool} {s : State} (h0 : Can s) : OutCanon (execClz d a w u x s) := by
  unfold execClz
  with_reducible repeat' (first | assumption | apply State.logic1_canon)
theorem execBrev_canon {d : BitVec 6} {a : BitVec 6} {w : BitVec 2} {u : Bool} {x : Bool} {s : State} (h0 : Can s) : OutCanon (execBrev d a w u x s) := by
  unfold execBrev
  with_reducible repeat' (first | assumption | apply State.logic1_canon)
theorem execBfx_canon {d : BitVec 6} {a : BitVec 6} {b : BitVec 6} {u : Bool} {sx : Bool} {s : State} (h0 : Can s) : OutCanon (execBfx d a b u sx s) := by
  unfold execBfx
  with_reducible repeat' (first | assumption | apply State.bin_canon | apply OutCanon.mk)
theorem execBperm_canon {d : BitVec 6} {a : BitVec 6} {b : BitVec 6} {w : BitVec 2} {u : Bool} {x : Bool} {y : Bool} {s : State} (h0 : Can s) : OutCanon (execBperm d a b w u x y s) := by
  unfold execBperm
  with_reducible repeat' (first | assumption | apply State.logic_canon)
theorem execSel_canon {d : BitVec 6} {a : BitVec 6} {b : BitVec 6} {n : Bool} {p : BitVec 4} {s : State} (h0 : Can s) : OutCanon (execSel d a b n p s) := by
  unfold execSel
  with_reducible repeat' (first | assumption | apply State.bin_canon | apply OutCanon.mk)
theorem execMov_canon {d : BitVec 6} {b : BitVec 6} {w : BitVec 2} {u : Bool} {y : Bool} {s : State} (h0 : Can s) : OutCanon (execMov d b w u y s) := by
  unfold execMov
  with_reducible repeat' (first | assumption | apply State.calc_canon | apply OutCanon.mk)
theorem execMovi_canon {d : BitVec 6} {u : Bool} {i : BitVec 11} {s : State} (h0 : Can s) : OutCanon (execMovi d u i s) := by
  unfold execMovi
  with_reducible repeat' (first | assumption | apply State.calc_canon | apply OutCanon.mk)
theorem execLdcw_canon {d : BitVec 6} {u : Bool} {lit : Word} {s : State} (h0 : Can s) : OutCanon (execLdcw d u lit s) := by
  unfold execLdcw
  with_reducible repeat' (first | assumption | apply State.calc_canon | apply OutCanon.mk)
theorem execMovs_canon {d : BitVec 6} {a : BitVec 6} {w : BitVec 2} {s : State} (h0 : Can s) : OutCanon (execMovs d a w s) := by
  unfold execMovs
  with_reducible repeat' (first | assumption | apply State.calc_canon | apply OutCanon.mk)
theorem execAddi_canon {d : BitVec 6} {a : BitVec 6} {u : Bool} {i : BitVec 11} {s : State} (h0 : Can s) : OutCanon (execAddi d a u i s) := by
  unfold execAddi
  with_reducible repeat' (first | assumption | apply State.imm_canon | apply OutCanon.mk)
theorem execMuli_canon {d : BitVec 6} {a : BitVec 6} {u : Bool} {i : BitVec 11} {s : State} (h0 : Can s) : OutCanon (execMuli d a u i s) := by
  unfold execMuli
  with_reducible repeat' (first | assumption | apply State.imm_canon | apply OutCanon.mk)
theorem execAndi_canon {d : BitVec 6} {a : BitVec 6} {u : Bool} {i : BitVec 11} {s : State} (h0 : Can s) : OutCanon (execAndi d a u i s) := by
  unfold execAndi
  with_reducible repeat' (first | assumption | apply State.imm_canon | apply OutCanon.mk)
theorem execOri_canon {d : BitVec 6} {a : BitVec 6} {u : Bool} {i : BitVec 11} {s : State} (h0 : Can s) : OutCanon (execOri d a u i s) := by
  unfold execOri
  with_reducible repeat' (first | assumption | apply State.imm_canon | apply OutCanon.mk)
theorem execXori_canon {d : BitVec 6} {a : BitVec 6} {u : Bool} {i : BitVec 11} {s : State} (h0 : Can s) : OutCanon (execXori d a u i s) := by
  unfold execXori
  with_reducible repeat' (first | assumption | apply State.imm_canon | apply OutCanon.mk)
theorem execShli_canon {d : BitVec 6} {a : BitVec 6} {u : Bool} {i : BitVec 11} {s : State} (h0 : Can s) : OutCanon (execShli d a u i s) := by
  unfold execShli
  with_reducible repeat' (first | assumption | apply State.imm_canon | apply OutCanon.mk)
theorem execShri_canon {d : BitVec 6} {a : BitVec 6} {u : Bool} {i : BitVec 11} {s : State} (h0 : Can s) : OutCanon (execShri d a u i s) := by
  unfold execShri
  with_reducible repeat' (first | assumption | apply State.imm_canon | apply OutCanon.mk)
theorem execShrai_canon {d : BitVec 6} {a : BitVec 6} {u : Bool} {i : BitVec 11} {s : State} (h0 : Can s) : OutCanon (execShrai d a u i s) := by
  unfold execShrai
  with_reducible repeat' (first | assumption | apply State.imm_canon | apply OutCanon.mk)
theorem execAadd_canon {d : BitVec 6} {a : BitVec 6} {b : BitVec 6} {w : BitVec 2} {u : Bool} {x : Bool} {y : Bool} {s : State} (h0 : Can s) : OutCanon (execAadd d a b w u x y s) := by
  unfold execAadd
  with_reducible repeat' (first | assumption | apply State.address_canon | apply OutCanon.mk)
theorem execAlea_canon {d : BitVec 6} {a : BitVec 6} {b : BitVec 6} {u : Bool} {e : Bool} {h : BitVec 3} {s : State} (h0 : Can s) : OutCanon (execAlea d a b u e h s) := by
  unfold execAlea
  with_reducible repeat' (first | assumption | apply State.address_canon | apply OutCanon.mk)
theorem execAaddi_canon {d : BitVec 6} {a : BitVec 6} {u : Bool} {i : BitVec 11} {s : State} (h0 : Can s) : OutCanon (execAaddi d a u i s) := by
  unfold execAaddi
  with_reducible repeat' (first | assumption | apply State.calc_canon | apply OutCanon.mk)
theorem execAsub_canon {d : BitVec 6} {a : BitVec 6} {b : BitVec 6} {w : BitVec 2} {u : Bool} {x : Bool} {y : Bool} {s : State} (h0 : Can s) : OutCanon (execAsub d a b w u x y s) := by
  unfold execAsub
  with_reducible repeat' (first | assumption | apply State.calc_canon | apply OutCanon.mk)
theorem execIceq_canon {d : BitVec 6} {a : BitVec 6} {b : BitVec 6} {w : BitVec 2} {u : Bool} {x : Bool} {y : Bool} {s : State} (h0 : Can s) : OutCanon (execIceq d a b w u x y s) := by
  unfold execIceq
  with_reducible repeat' (first | assumption | apply State.icmp_canon)
theorem execIclt_canon {d : BitVec 6} {a : BitVec 6} {b : BitVec 6} {w : BitVec 2} {u : Bool} {x : Bool} {y : Bool} {s : State} (h0 : Can s) : OutCanon (execIclt d a b w u x y s) := by
  unfold execIclt
  with_reducible repeat' (first | assumption | apply State.icmp_canon)
theorem execIcle_canon {d : BitVec 6} {a : BitVec 6} {b : BitVec 6} {w : BitVec 2} {u : Bool} {x : Bool} {y : Bool} {s : State} (h0 : Can s) : OutCanon (execIcle d a b w u x y s) := by
  unfold execIcle
  with_reducible repeat' (first | assumption | apply State.icmp_canon)
theorem execIcltu_canon {d : BitVec 6} {a : BitVec 6} {b : BitVec 6} {w : BitVec 2} {u : Bool} {x : Bool} {y : Bool} {s : State} (h0 : Can s) : OutCanon (execIcltu d a b w u x y s) := by
  unfold execIcltu
  with_reducible repeat' (first | assumption | apply State.icmp_canon)
theorem execIcleu_canon {d : BitVec 6} {a : BitVec 6} {b : BitVec 6} {w : BitVec 2} {u : Bool} {x : Bool} {y : Bool} {s : State} (h0 : Can s) : OutCanon (execIcleu d a b w u x y s) := by
  unfold execIcleu
  with_reducible repeat' (first | assumption | apply State.icmp_canon)
theorem execIceqi_canon {d : BitVec 6} {a : BitVec 6} {u : Bool} {i : BitVec 11} {s : State} (h0 : Can s) : OutCanon (execIceqi d a u i s) := by
  unfold execIceqi
  with_reducible repeat' (first | assumption | apply State.icmpi_canon)
theorem execPand_canon {d : BitVec 6} {a : BitVec 6} {b : BitVec 6} {w : BitVec 2} {u : Bool} {s : State} (h0 : Can s) : OutCanon (execPand d a b w u s) := by
  unfold execPand
  with_reducible repeat' (first | assumption | apply State.predOp_canon)
theorem execPor_canon {d : BitVec 6} {a : BitVec 6} {b : BitVec 6} {w : BitVec 2} {u : Bool} {s : State} (h0 : Can s) : OutCanon (execPor d a b w u s) := by
  unfold execPor
  with_reducible repeat' (first | assumption | apply State.predOp_canon)
theorem execPxor_canon {d : BitVec 6} {a : BitVec 6} {b : BitVec 6} {w : BitVec 2} {u : Bool} {s : State} (h0 : Can s) : OutCanon (execPxor d a b w u s) := by
  unfold execPxor
  with_reducible repeat' (first | assumption | apply State.predOp_canon)
theorem execPandn_canon {d : BitVec 6} {a : BitVec 6} {b : BitVec 6} {w : BitVec 2} {u : Bool} {s : State} (h0 : Can s) : OutCanon (execPandn d a b w u s) := by
  unfold execPandn
  with_reducible repeat' (first | assumption | apply State.predOp_canon)
theorem execPtos_canon {d : BitVec 6} {a : BitVec 6} {w : BitVec 2} {s : State} (h0 : Can s) : OutCanon (execPtos d a w s) := by
  unfold execPtos
  with_reducible repeat' (first | assumption | apply State.once_canon | apply State.putPair_canon | apply OutCanon.mk | intro _)
theorem execPfroms_canon {d : BitVec 6} {a : BitVec 6} {w : BitVec 2} {s : State} (h0 : Can s) : OutCanon (execPfroms d a w s) := by
  unfold execPfroms
  with_reducible repeat' (first | assumption | apply State.once_canon | apply State.putP_canon | apply OutCanon.mk | intro _)
theorem execCmrd_canon {d : BitVec 6} {w : BitVec 2} {s : State} (h0 : Can s) : OutCanon (execCmrd d w s) := by
  unfold execCmrd
  with_reducible repeat' (first | assumption | apply State.once_canon | apply State.putPair_canon | apply OutCanon.mk | intro _)
theorem execCmwr_canon {a : BitVec 6} {w : BitVec 2} {s : State} (h0 : Can s) : OutCanon (execCmwr a w s) := by
  unfold execCmwr
  with_reducible repeat' (first | assumption | apply State.once_canon | apply State.putCM_canon | apply OutCanon.mk | intro _)
theorem execFadd_canon {d : BitVec 6} {a : BitVec 6} {b : BitVec 6} {w : BitVec 2} {u : Bool} {x : Bool} {y : Bool} {s : State} (h0 : Can s) : OutCanon (execFadd d a b w u x y s) := by
  unfold execFadd
  with_reducible repeat' (first | assumption | apply State.bin_canon | apply OutCanon.mk)
theorem execFfma_canon {d : BitVec 6} {a : BitVec 6} {b : BitVec 6} {w : BitVec 2} {u : Bool} {x : Bool} {y : Bool} {z : Bool} {s : State} (h0 : Can s) : OutCanon (execFfma d a b w u x y z s) := by
  unfold execFfma
  with_reducible repeat' (first | assumption | apply State.tri_canon | apply OutCanon.mk)
theorem execFfms_canon {d : BitVec 6} {a : BitVec 6} {b : BitVec 6} {w : BitVec 2} {u : Bool} {x : Bool} {y : Bool} {z : Bool} {s : State} (h0 : Can s) : OutCanon (execFfms d a b w u x y z s) := by
  unfold execFfms
  with_reducible repeat' (first | assumption | apply State.tri_canon | apply OutCanon.mk)
theorem execFnma_canon {d : BitVec 6} {a : BitVec 6} {b : BitVec 6} {w : BitVec 2} {u : Bool} {x : Bool} {y : Bool} {z : Bool} {s : State} (h0 : Can s) : OutCanon (execFnma d a b w u x y z s) := by
  unfold execFnma
  with_reducible repeat' (first | assumption | apply State.tri_canon | apply OutCanon.mk)
theorem execFmax_canon {d : BitVec 6} {a : BitVec 6} {b : BitVec 6} {w : BitVec 2} {u : Bool} {x : Bool} {y : Bool} {s : State} (h0 : Can s) : OutCanon (execFmax d a b w u x y s) := by
  unfold execFmax
  with_reducible repeat' (first | assumption | apply State.bin_canon | apply OutCanon.mk)
theorem execFneg_canon {d : BitVec 6} {a : BitVec 6} {w : BitVec 2} {u : Bool} {x : Bool} {s : State} (h0 : Can s) : OutCanon (execFneg d a w u x s) := by
  unfold execFneg
  with_reducible repeat' (first | assumption | apply State.una_canon | apply OutCanon.mk)
theorem execFcne_canon {d : BitVec 6} {a : BitVec 6} {b : BitVec 6} {w : BitVec 2} {u : Bool} {x : Bool} {y : Bool} {s : State} (h0 : Can s) : OutCanon (execFcne d a b w u x y s) := by
  unfold execFcne
  with_reducible repeat' (first | assumption | apply State.fcmp_canon)
theorem execFclt_canon {d : BitVec 6} {a : BitVec 6} {b : BitVec 6} {w : BitVec 2} {u : Bool} {x : Bool} {y : Bool} {s : State} (h0 : Can s) : OutCanon (execFclt d a b w u x y s) := by
  unfold execFclt
  with_reducible repeat' (first | assumption | apply State.fcmp_canon)
theorem execFcle_canon {d : BitVec 6} {a : BitVec 6} {b : BitVec 6} {w : BitVec 2} {u : Bool} {x : Bool} {y : Bool} {s : State} (h0 : Can s) : OutCanon (execFcle d a b w u x y s) := by
  unfold execFcle
  with_reducible repeat' (first | assumption | apply State.fcmp_canon)
theorem execFcun_canon {d : BitVec 6} {a : BitVec 6} {b : BitVec 6} {w : BitVec 2} {u : Bool} {x : Bool} {y : Bool} {s : State} (h0 : Can s) : OutCanon (execFcun d a b w u x y s) := by
  unfold execFcun
  with_reducible repeat' (first | assumption | apply State.fcmp_canon)
theorem execFrcp_canon {d : BitVec 6} {a : BitVec 6} {w : BitVec 2} {u : Bool} {x : Bool} {s : State} (h0 : Can s) : OutCanon (execFrcp d a w u x s) := by
  unfold execFrcp
  with_reducible repeat' (first | assumption | apply State.special_canon)
theorem execFsqrt_canon {d : BitVec 6} {a : BitVec 6} {w : BitVec 2} {u : Bool} {x : Bool} {s : State} (h0 : Can s) : OutCanon (execFsqrt d a w u x s) := by
  unfold execFsqrt
  with_reducible repeat' (first | assumption | apply State.una_canon | apply OutCanon.mk)
theorem execFlog2_canon {d : BitVec 6} {a : BitVec 6} {w : BitVec 2} {u : Bool} {x : Bool} {s : State} (h0 : Can s) : OutCanon (execFlog2 d a w u x s) := by
  unfold execFlog2
  with_reducible repeat' (first | assumption | apply State.special_canon)
theorem execFsig_canon {d : BitVec 6} {a : BitVec 6} {w : BitVec 2} {u : Bool} {x : Bool} {s : State} (h0 : Can s) : OutCanon (execFsig d a w u x s) := by
  unfold execFsig
  with_reducible repeat' (first | assumption | apply State.special_canon)
theorem execFfrac_canon {d : BitVec 6} {a : BitVec 6} {w : BitVec 2} {u : Bool} {x : Bool} {s : State} (h0 : Can s) : OutCanon (execFfrac d a w u x s) := by
  unfold execFfrac
  with_reducible repeat' (first | assumption | apply State.una_canon | apply OutCanon.mk)
theorem execFrnd_canon {d : BitVec 6} {a : BitVec 6} {w : BitVec 2} {u : Bool} {x : Bool} {s : State} (h0 : Can s) : OutCanon (execFrnd d a w u x s) := by
  unfold execFrnd
  with_reducible repeat' (first | assumption | apply State.una_canon | apply OutCanon.mk)
theorem execFscale_canon {d : BitVec 6} {a : BitVec 6} {b : BitVec 6} {w : BitVec 2} {u : Bool} {x : Bool} {y : Bool} {s : State} (h0 : Can s) : OutCanon (execFscale d a b w u x y s) := by
  unfold execFscale
  with_reducible repeat' (first | assumption | apply State.bin_canon | apply OutCanon.mk)
theorem execFcpys_canon {d : BitVec 6} {a : BitVec 6} {b : BitVec 6} {w : BitVec 2} {u : Bool} {x : Bool} {y : Bool} {s : State} (h0 : Can s) : OutCanon (execFcpys d a b w u x y s) := by
  unfold execFcpys
  with_reducible repeat' (first | assumption | apply State.bin_canon | apply OutCanon.mk)
theorem execFsat_canon {d : BitVec 6} {a : BitVec 6} {w : BitVec 2} {u : Bool} {x : Bool} {s : State} (h0 : Can s) : OutCanon (execFsat d a w u x s) := by
  unfold execFsat
  with_reducible repeat' (first | assumption | apply State.una_canon | apply OutCanon.mk)
theorem execFlagrd_canon {d : BitVec 6} {b : BitVec 6} {w : BitVec 2} {s : State} (h0 : Can s) : OutCanon (execFlagrd d b w s) := by
  unfold execFlagrd
  with_reducible repeat' (first | assumption | apply State.once_canon | apply State.withMe_canon | apply State.putS_canon | apply OutCanon.mk | intro _)
theorem execFadde_canon {d : BitVec 6} {a : BitVec 6} {b : BitVec 6} {w : BitVec 2} {u : Bool} {x : Bool} {y : Bool} {s : State} (h0 : Can s) : OutCanon (execFadde d a b w u x y s) := by
  unfold execFadde
  with_reducible repeat' (first | assumption | apply State.pairOp_canon)
theorem execFsube_canon {d : BitVec 6} {a : BitVec 6} {b : BitVec 6} {w : BitVec 2} {u : Bool} {x : Bool} {y : Bool} {s : State} (h0 : Can s) : OutCanon (execFsube d a b w u x y s) := by
  unfold execFsube
  with_reducible repeat' (first | assumption | apply State.pairOp_canon)
theorem execFmule_canon {d : BitVec 6} {a : BitVec 6} {b : BitVec 6} {w : BitVec 2} {u : Bool} {x : Bool} {y : Bool} {s : State} (h0 : Can s) : OutCanon (execFmule d a b w u x y s) := by
  unfold execFmule
  with_reducible repeat' (first | assumption | apply State.pairOp_canon)
theorem execFacc_canon {d : BitVec 6} {a : BitVec 6} {w : BitVec 2} {u : Bool} {x : Bool} {z : Bool} {s : State} (h0 : Can s) : OutCanon (execFacc d a w u x z s) := by
  unfold execFacc
  with_reducible repeat' (first | assumption | apply State.calc_canon | apply OutCanon.mk)
theorem execDwsub_canon {d : BitVec 6} {a : BitVec 6} {b : BitVec 6} {w : BitVec 2} {u : Bool} {x : Bool} {y : Bool} {s : State} (h0 : Can s) : OutCanon (execDwsub d a b w u x y s) := by
  unfold execDwsub
  with_reducible repeat' (first | assumption | apply State.dwPP_canon)
theorem execDwmul_canon {d : BitVec 6} {a : BitVec 6} {b : BitVec 6} {w : BitVec 2} {u : Bool} {x : Bool} {y : Bool} {s : State} (h0 : Can s) : OutCanon (execDwmul d a b w u x y s) := by
  unfold execDwmul
  with_reducible repeat' (first | assumption | apply State.dwPP_canon)
theorem execDwaddf_canon {d : BitVec 6} {a : BitVec 6} {b : BitVec 6} {w : BitVec 2} {u : Bool} {x : Bool} {y : Bool} {s : State} (h0 : Can s) : OutCanon (execDwaddf d a b w u x y s) := by
  unfold execDwaddf
  with_reducible repeat' (first | assumption | apply State.dwPF_canon)
theorem execDwmulf_canon {d : BitVec 6} {a : BitVec 6} {b : BitVec 6} {w : BitVec 2} {u : Bool} {x : Bool} {y : Bool} {s : State} (h0 : Can s) : OutCanon (execDwmulf d a b w u x y s) := by
  unfold execDwmulf
  with_reducible repeat' (first | assumption | apply State.dwPF_canon)
theorem execDwdiv_canon {d : BitVec 6} {a : BitVec 6} {b : BitVec 6} {w : BitVec 2} {u : Bool} {x : Bool} {y : Bool} {s : State} (h0 : Can s) : OutCanon (execDwdiv d a b w u x y s) := by
  unfold execDwdiv
  with_reducible repeat' (first | assumption | apply State.dwPP_canon)
theorem execDwsqrt_canon {d : BitVec 6} {a : BitVec 6} {w : BitVec 2} {u : Bool} {x : Bool} {s : State} (h0 : Can s) : OutCanon (execDwsqrt d a w u x s) := by
  unfold execDwsqrt
  with_reducible repeat' (first | assumption | apply State.dwP_canon)
theorem execDwnorm_canon {d : BitVec 6} {a : BitVec 6} {w : BitVec 2} {u : Bool} {x : Bool} {s : State} (h0 : Can s) : OutCanon (execDwnorm d a w u x s) := by
  unfold execDwnorm
  with_reducible repeat' (first | assumption | apply State.dwP_canon)
theorem execDwtof_canon {d : BitVec 6} {a : BitVec 6} {w : BitVec 2} {u : Bool} {x : Bool} {s : State} (h0 : Can s) : OutCanon (execDwtof d a w u x s) := by
  unfold execDwtof
  with_reducible repeat' (first | assumption | apply State.calc_canon | apply OutCanon.mk)
theorem execDwclt_canon {d : BitVec 6} {a : BitVec 6} {b : BitVec 6} {w : BitVec 2} {u : Bool} {x : Bool} {y : Bool} {s : State} (h0 : Can s) : OutCanon (execDwclt d a b w u x y s) := by
  unfold execDwclt
  with_reducible repeat' (first | assumption | apply State.dwCmp_canon)
theorem execCvtff_canon {d : BitVec 6} {a : BitVec 6} {t : BitVec 3} {u : Bool} {f : BitVec 3} {s : State} (h0 : Can s) : OutCanon (execCvtff d a t u f s) := by
  unfold execCvtff
  with_reducible repeat' (first | assumption | apply State.convert_canon)
theorem execCvtif_canon {d : BitVec 6} {a : BitVec 6} {t : BitVec 3} {u : Bool} {f : BitVec 3} {s : State} (h0 : Can s) : OutCanon (execCvtif d a t u f s) := by
  unfold execCvtif
  with_reducible repeat' (first | assumption | apply State.convert_canon)
theorem execPack_canon {d : BitVec 6} {a : BitVec 6} {b : BitVec 6} {u : Bool} {c : BitVec 4} {s : State} (h0 : Can s) : OutCanon (execPack d a b u c s) := by
  unfold execPack
  with_reducible repeat' (first | assumption | apply State.bin_canon | apply OutCanon.mk)
theorem execUnpk_canon {d : BitVec 6} {a : BitVec 6} {u : Bool} {c : BitVec 4} {s : State} (h0 : Can s) : OutCanon (execUnpk d a u c s) := by
  unfold execUnpk
  with_reducible repeat' (first | assumption | apply State.calc_canon | apply OutCanon.mk)
theorem execUnpk8_canon {d : BitVec 6} {a : BitVec 6} {u : Bool} {c : BitVec 4} {s : State} (h0 : Can s) : OutCanon (execUnpk8 d a u c s) := by
  unfold execUnpk8
  with_reducible repeat' (first | assumption | apply State.calc_canon | apply OutCanon.mk)
theorem execQnt4_canon {d : BitVec 6} {a : BitVec 6} {b : BitVec 6} {u : Bool} {t : Bool} {s : State} (h0 : Can s) : OutCanon (execQnt4 d a b u t s) := by
  unfold execQnt4
  with_reducible repeat' (first | assumption | apply State.calc_canon | apply OutCanon.mk)
theorem execRand_canon {d : BitVec 6} {b : BitVec 6} {w : BitVec 2} {u : Bool} {s : State} (h0 : Can s) : OutCanon (execRand d b w u s) := by
  unfold execRand
  with_reducible repeat' (first | assumption | apply State.calc_canon | apply OutCanon.mk)
theorem execRandf_canon {d : BitVec 6} {w : BitVec 2} {u : Bool} {s : State} (h0 : Can s) : OutCanon (execRandf d w u s) := by
  unfold execRandf
  with_reducible repeat' (first | assumption | apply State.calc_canon | apply OutCanon.mk)
theorem execCatsamp_canon {d : BitVec 6} {a : BitVec 6} {b : BitVec 6} {w : BitVec 2} {x : Bool} {s : State} (h0 : Can s) : OutCanon (execCatsamp d a b w x s) := by
  unfold execCatsamp
  with_reducible repeat' (first | assumption | apply State.checked_canon | apply State.finish_canon | apply State.freeMarked_canon | apply State.putS_canon | apply OutCanon.mk | intro _)
theorem execBararv_canon {d : BitVec 6} {b : BitVec 6} {w : BitVec 2} {s : State} (h0 : Can s) : OutCanon (execBararv d b w s) := by
  unfold execBararv
  with_reducible repeat' (first | assumption | apply State.checked_canon | apply State.retire_canon | apply State.arrive_canon | apply State.putS_canon | apply State.release_canon | apply OutCanon.mk | intro _)
theorem execShfl_canon {d : BitVec 6} {a : BitVec 6} {b : BitVec 6} {w : BitVec 2} {x : Bool} {y : Bool} {s : State} (h0 : Can s) : OutCanon (execShfl d a b w x y s) := by
  unfold execShfl
  with_reducible repeat' (first | assumption | apply State.shuffle_canon)
theorem execShflu_canon {d : BitVec 6} {a : BitVec 6} {i : BitVec 11} {s : State} (h0 : Can s) : OutCanon (execShflu d a i s) := by
  unfold execShflu
  with_reducible repeat' (first | assumption | apply State.shuffle_canon)
theorem execShfld_canon {d : BitVec 6} {a : BitVec 6} {i : BitVec 11} {s : State} (h0 : Can s) : OutCanon (execShfld d a i s) := by
  unfold execShfld
  with_reducible repeat' (first | assumption | apply State.shuffle_canon)
theorem execBcast_canon {d : BitVec 6} {a : BitVec 6} {sc : Bool} {l : BitVec 6} {s : State} (h0 : Can s) : OutCanon (execBcast d a sc l s) := by
  unfold execBcast
  with_reducible repeat' (first | assumption | apply State.checked_canon | apply State.retire_canon | apply State.putS_canon | apply State.collect_canon | apply OutCanon.mk | intro _ | dsimp only [id_eq, Can] | split)
theorem execVoteany_canon {d : BitVec 6} {a : BitVec 6} {b : BitVec 6} {w : BitVec 2} {s : State} (h0 : Can s) : OutCanon (execVoteany d a b w s) := by
  unfold execVoteany
  with_reducible repeat' (first | assumption | apply State.vote_canon)
theorem execVoteall_canon {d : BitVec 6} {a : BitVec 6} {b : BitVec 6} {w : BitVec 2} {s : State} (h0 : Can s) : OutCanon (execVoteall d a b w s) := by
  unfold execVoteall
  with_reducible repeat' (first | assumption | apply State.vote_canon)
theorem execScanadd_canon {d : BitVec 6} {a : BitVec 6} {b : BitVec 6} {w : BitVec 2} {x : Bool} {s : State} (h0 : Can s) : OutCanon (execScanadd d a b w x s) := by
  unfold execScanadd
  with_reducible repeat' (first | assumption | apply State.cross_canon | apply OutCanon.mk)
theorem execScanfadd_canon {d : BitVec 6} {a : BitVec 6} {b : BitVec 6} {w : BitVec 2} {x : Bool} {s : State} (h0 : Can s) : OutCanon (execScanfadd d a b w x s) := by
  unfold execScanfadd
  with_reducible repeat' (first | assumption | apply State.cross_canon | apply OutCanon.mk)
theorem execRedadd_canon {d : BitVec 6} {a : BitVec 6} {w : BitVec 2} {x : Bool} {s : State} (h0 : Can s) : OutCanon (execRedadd d a w x s) := by
  unfold execRedadd
  with_reducible repeat' (first | assumption | apply State.reduce_canon | apply OutCanon.mk)
theorem execRedfadd_canon {d : BitVec 6} {a : BitVec 6} {w : BitVec 2} {x : Bool} {s : State} (h0 : Can s) : OutCanon (execRedfadd d a w x s) := by
  unfold execRedfadd
  with_reducible repeat' (first | assumption | apply State.reduce_canon | apply OutCanon.mk)
theorem execRedmin_canon {d : BitVec 6} {a : BitVec 6} {b : BitVec 6} {w : BitVec 2} {x : Bool} {s : State} (h0 : Can s) : OutCanon (execRedmin d a b w x s) := by
  unfold execRedmin
  with_reducible repeat' (first | assumption | apply State.extreme_canon)
theorem execRedsumc_canon {d : BitVec 6} {a : BitVec 6} {w : BitVec 2} {x : Bool} {s : State} (h0 : Can s) : OutCanon (execRedsumc d a w x s) := by
  unfold execRedsumc
  with_reducible repeat' (first | assumption | apply State.reduce_canon | apply OutCanon.mk)
theorem execLdb_canon {d : BitVec 6} {a : BitVec 6} {u : Bool} {off : BitVec 8} {r : BitVec 3} {s : State} (h0 : Can s) : OutCanon (execLdb d a u off r s) := by
  unfold execLdb
  with_reducible repeat' (first | assumption | apply State.load_canon)
theorem execLdbs_canon {d : BitVec 6} {a : BitVec 6} {u : Bool} {off : BitVec 8} {r : BitVec 3} {s : State} (h0 : Can s) : OutCanon (execLdbs d a u off r s) := by
  unfold execLdbs
  with_reducible repeat' (first | assumption | apply State.load_canon)
theorem execLdh_canon {d : BitVec 6} {a : BitVec 6} {u : Bool} {off : BitVec 8} {r : BitVec 3} {s : State} (h0 : Can s) : OutCanon (execLdh d a u off r s) := by
  unfold execLdh
  with_reducible repeat' (first | assumption | apply State.load_canon)
theorem execLdhs_canon {d : BitVec 6} {a : BitVec 6} {u : Bool} {off : BitVec 8} {r : BitVec 3} {s : State} (h0 : Can s) : OutCanon (execLdhs d a u off r s) := by
  unfold execLdhs
  with_reducible repeat' (first | assumption | apply State.load_canon)
theorem execLdq_canon {d : BitVec 6} {a : BitVec 6} {u : Bool} {off : BitVec 8} {r : BitVec 3} {s : State} (h0 : Can s) : OutCanon (execLdq d a u off r s) := by
  unfold execLdq
  with_reducible repeat' (first | assumption | apply State.load_canon)
theorem execLdln_canon {d : BitVec 6} {a : BitVec 6} {off : BitVec 8} {r : BitVec 3} {s : State} (h0 : Can s) : OutCanon (execLdln d a off r s) := by
  unfold execLdln
  with_reducible repeat' (first | assumption | apply State.checked_canon | apply State.noRows_canon | apply State.refuse_canon | apply State.accesses_canon | apply State.loadAll_canon | apply State.loaded_canon | apply OutCanon.mk | intro _ | dsimp only [id_eq, Can] | split)
theorem execStb_canon {d : BitVec 6} {a : BitVec 6} {u : Bool} {off : BitVec 8} {r : BitVec 3} {s : State} (h0 : Can s) : OutCanon (execStb d a u off r s) := by
  unfold execStb
  with_reducible repeat' (first | assumption | apply State.store_canon)
theorem execSth_canon {d : BitVec 6} {a : BitVec 6} {u : Bool} {off : BitVec 8} {r : BitVec 3} {s : State} (h0 : Can s) : OutCanon (execSth d a u off r s) := by
  unfold execSth
  with_reducible repeat' (first | assumption | apply State.store_canon)
theorem execStq_canon {d : BitVec 6} {a : BitVec 6} {u : Bool} {off : BitVec 8} {r : BitVec 3} {s : State} (h0 : Can s) : OutCanon (execStq d a u off r s) := by
  unfold execStq
  with_reducible repeat' (first | assumption | apply State.store_canon)
theorem execPref_canon {a : BitVec 6} {u : Bool} {off : BitVec 8} {r : BitVec 3} {s : State} (h0 : Can s) : OutCanon (execPref a u off r s) := by
  unfold execPref
  with_reducible repeat' (first | assumption | apply State.checked_canon | apply State.fill_canon | apply State.settleShare_canon | apply State.retire_canon | apply OutCanon.mk | apply foldl_canon | intro _ | dsimp only [id_eq, Can] | split)
theorem execCflush_canon {a : BitVec 6} {b : BitVec 6} {whole : Bool} {sc : BitVec 3} {s : State} (h0 : Can s) : OutCanon (execCflush a b whole sc s) := by
  unfold execCflush
  with_reducible repeat' (first | assumption | apply State.maintain_canon | apply State.drainEntry_canon | apply foldl_canon | intro _)
theorem execAtmin_canon {d : BitVec 6} {a : BitVec 6} {b : BitVec 6} {u : Bool} {v : Bool} {z : Bool} {r : BitVec 3} {s : State} (h0 : Can s) : OutCanon (execAtmin d a b u v z r s) := by
  unfold execAtmin
  with_reducible repeat' (first | assumption | apply State.atomicOp_canon)
theorem execAtand_canon {d : BitVec 6} {a : BitVec 6} {b : BitVec 6} {u : Bool} {v : Bool} {z : Bool} {r : BitVec 3} {s : State} (h0 : Can s) : OutCanon (execAtand d a b u v z r s) := by
  unfold execAtand
  with_reducible repeat' (first | assumption | apply State.atomicOp_canon)
theorem execAtxchg_canon {d : BitVec 6} {a : BitVec 6} {b : BitVec 6} {u : Bool} {v : Bool} {z : Bool} {r : BitVec 3} {s : State} (h0 : Can s) : OutCanon (execAtxchg d a b u v z r s) := by
  unfold execAtxchg
  with_reducible repeat' (first | assumption | apply State.atomicOp_canon)
theorem execAtcas_canon {d : BitVec 6} {a : BitVec 6} {b : BitVec 6} {u : Bool} {v : Bool} {z : Bool} {r : BitVec 3} {s : State} (h0 : Can s) : OutCanon (execAtcas d a b u v z r s) := by
  unfold execAtcas
  with_reducible repeat' (first | assumption | apply State.atomic_canon)
theorem execAtfadd_canon {d : BitVec 6} {a : BitVec 6} {b : BitVec 6} {u : Bool} {v : Bool} {z : Bool} {r : BitVec 3} {s : State} (h0 : Can s) : OutCanon (execAtfadd d a b u v z r s) := by
  unfold execAtfadd
  with_reducible repeat' (first | assumption | apply State.atomic_canon)
theorem execAtpadd_canon {d : BitVec 6} {a : BitVec 6} {b : BitVec 6} {u : Bool} {v : Bool} {z : Bool} {r : BitVec 3} {s : State} (h0 : Can s) : OutCanon (execAtpadd d a b u v z r s) := by
  unfold execAtpadd
  with_reducible repeat' (first | assumption | apply State.atomic_canon)
theorem execAtinc_canon {d : BitVec 6} {a : BitVec 6} {b : BitVec 6} {u : Bool} {v : Bool} {z : Bool} {r : BitVec 3} {s : State} (h0 : Can s) : OutCanon (execAtinc d a b u v z r s) := by
  unfold execAtinc
  with_reducible repeat' (first | assumption | apply State.atomicOp_canon)
theorem execBkadd_canon {a : BitVec 6} {b : BitVec 6} {t : BitVec 3} {s : State} (h0 : Can s) : OutCanon (execBkadd a b t s) := by
  unfold execBkadd
  with_reducible repeat' (first | assumption | apply State.bankOp_canon)
theorem execBkred_canon {a : BitVec 6} {b : BitVec 6} {t : BitVec 3} {s : State} (h0 : Can s) : OutCanon (execBkred a b t s) := by
  unfold execBkred
  with_reducible repeat' (first | assumption | apply State.bankOp_canon)
theorem execBkset_canon {d : BitVec 6} {a : BitVec 6} {b : BitVec 6} {s : State} (h0 : Can s) : OutCanon (execBkset d a b s) := by
  unfold execBkset
  with_reducible repeat' (first | assumption | apply State.bankFill_canon)
theorem execCpyg_canon {d : BitVec 6} {a : BitVec 6} {b : BitVec 6} {l : BitVec 4} {s : State} (h0 : Can s) : OutCanon (execCpyg d a b l s) := by
  unfold execCpyg
  with_reducible repeat' (first | assumption | apply State.checked_canon | apply State.copyIssue_canon | apply State.unattributed_canon | apply State.drainRange_canon | apply State.startCopy_canon | apply OutCanon.mk | apply foldl_canon | intro _ | split)
theorem execBatch_canon {d : BitVec 6} {w : BitVec 2} {s : State} (h0 : Can s) : OutCanon (execBatch d w s) := by
  unfold execBatch
  with_reducible repeat' (first | assumption | apply State.checked_canon | apply State.block_canon | apply State.withMe_canon | apply State.retire_canon | apply State.putS_canon | apply State.settle_canon | apply OutCanon.mk | intro _ | dsimp only [id_eq, Can] | split)
theorem execWaitbat_canon {a : BitVec 6} {i : BitVec 11} {s : State} (h0 : Can s) : OutCanon (execWaitbat a i s) := by
  unfold execWaitbat
  with_reducible repeat' (first | assumption | apply State.checked_canon | apply State.waitBatches_canon | apply OutCanon.mk | intro _)
theorem execWaitbatAll_canon {s : State} (h0 : Can s) : OutCanon (execWaitbatAll s) := by
  unfold execWaitbatAll
  with_reducible repeat' (first | assumption | apply State.checked_canon | apply State.waitBatches_canon | apply OutCanon.mk | intro _)
theorem execFebset_canon {a : BitVec 6} {w : BitVec 2} {s : State} (h0 : Can s) : OutCanon (execFebset a w s) := by
  unfold execFebset
  with_reducible repeat' (first | assumption | apply State.febChecked_canon | apply State.retire_canon | apply State.setFull_canon | apply State.release_canon | intro _)
theorem execFebsetPut_canon {a : BitVec 6} {w : BitVec 2} {s : State} (h0 : Can s) : OutCanon (execFebsetPut a w s) := by
  unfold execFebsetPut
  with_reducible repeat' (first | assumption | apply State.febChecked_canon | apply State.febBlock_canon | intro _)
theorem execFebclr_canon {a : BitVec 6} {w : BitVec 2} {s : State} (h0 : Can s) : OutCanon (execFebclr a w s) := by
  unfold execFebclr
  with_reducible repeat' (first | assumption | apply State.febChecked_canon | apply State.retire_canon | apply State.setFull_canon | apply State.release_canon | intro _)
theorem execFebwait_canon {a : BitVec 6} {b : BitVec 6} {w : BitVec 2} {s : State} (h0 : Can s) : OutCanon (execFebwait a b w s) := by
  unfold execFebwait
  with_reducible repeat' (first | assumption | apply State.febChecked_canon | apply State.febBlock_canon | intro _)
theorem execFebwe_canon {a : BitVec 6} {w : BitVec 2} {s : State} (h0 : Can s) : OutCanon (execFebwe a w s) := by
  unfold execFebwe
  with_reducible repeat' (first | assumption | apply State.febChecked_canon | apply State.febBlock_canon | intro _)
theorem execGang_canon {a : BitVec 6} {w : BitVec 2} {s : State} (h0 : Can s) : OutCanon (execGang a w s) := by
  unfold execGang
  with_reducible repeat' (first | assumption | apply State.checked_canon | apply State.block_canon | apply State.retire_canon | apply State.setMyTeam_canon | apply OutCanon.mk | intro _ | dsimp only [id_eq, Can] | split)
theorem execMma_canon {a : BitVec 6} {b : BitVec 6} {e : Bool} {s : State} (h0 : Can s) : OutCanon (execMma a b e s) := by
  unfold execMma
  with_reducible repeat' (first | assumption | apply State.kstep_canon)
theorem execMmasp_canon {a : BitVec 6} {b : BitVec 6} {e : Bool} {s : State} (h0 : Can s) : OutCanon (execMmasp a b e s) := by
  unfold execMmasp
  with_reducible repeat' (first | assumption | apply State.kstep_canon)
theorem execMmaz_canon {a : BitVec 6} {b : BitVec 6} {e : Bool} {s : State} (h0 : Can s) : OutCanon (execMmaz a b e s) := by
  unfold execMmaz
  with_reducible repeat' (first | assumption | apply State.kstep_canon)
theorem execDrain_canon {a : BitVec 6} {s : State} (h0 : Can s) : OutCanon (execDrain a s) := by
  unfold execDrain
  with_reducible repeat' (first | assumption | apply State.checked_canon | apply State.orPoison_canon | apply State.raise_canon | apply State.queueOp_canon | apply OutCanon.mk | intro _ | dsimp only [id_eq, Can] | split)
theorem execDrainReg_canon {d : BitVec 6} {a : BitVec 6} {s : State} (h0 : Can s) : OutCanon (execDrainReg d a s) := by
  unfold execDrainReg
  with_reducible repeat' (first | assumption | apply State.takeResult_canon | apply State.orPoison_canon | apply State.block_canon | apply State.checked_canon | apply State.raise_canon | apply State.noRows_canon | apply State.queueAndWait_canon | apply OutCanon.mk | intro _ | dsimp only [id_eq, Can] | split)
theorem execTld_canon {d : BitVec 6} {a : BitVec 6} {b : BitVec 6} {q : BitVec 4} {i : Bool} {c : Bool} {s : State} (h0 : Can s) : OutCanon (execTld d a b q i c s) := by
  unfold execTld
  with_reducible repeat' (first | assumption | apply State.checked_canon | apply State.orPoison_canon | apply State.queueOp_canon | apply OutCanon.mk | intro _)
theorem execTst_canon {d : BitVec 6} {a : BitVec 6} {b : BitVec 6} {q : BitVec 4} {i : Bool} {c : Bool} {s : State} (h0 : Can s) : OutCanon (execTst d a b q i c s) := by
  unfold execTst
  with_reducible repeat' (first | assumption | apply State.takeResult_canon | apply State.orPoison_canon | apply State.block_canon | apply State.checked_canon | apply State.noRows_canon | apply State.queueAndWait_canon | apply OutCanon.mk | intro _ | dsimp only [id_eq, Can] | split)
theorem execTzero_canon {d : BitVec 6} {w : BitVec 2} {s : State} (h0 : Can s) : OutCanon (execTzero d w s) := by
  unfold execTzero
  with_reducible repeat' (first | assumption | apply State.checked_canon | apply State.queueOp_canon | apply OutCanon.mk | intro _)
theorem execTzeroAll_canon {w : BitVec 2} {s : State} (h0 : Can s) : OutCanon (execTzeroAll w s) := by
  unfold execTzeroAll
  with_reducible repeat' (first | assumption | apply State.checked_canon | apply State.queueOp_canon | apply OutCanon.mk | intro _)
theorem execBmcast_canon {d : BitVec 6} {a : BitVec 6} {b : BitVec 6} {s : State} (h0 : Can s) : OutCanon (execBmcast d a b s) := by
  unfold execBmcast
  with_reducible repeat' (first | assumption | apply State.checked_canon | apply State.copyIssue_canon | apply State.startCopy_canon | apply State.drainRange_canon | apply OutCanon.mk | intro _)
theorem execEngq_canon {d : BitVec 6} {a : BitVec 6} {e : BitVec 3} {s : State} (h0 : Can s) : OutCanon (execEngq d a e s) := by
  unfold execEngq
  with_reducible repeat' (first | assumption | apply State.checked_canon | apply State.raise_canon | apply State.release_canon | apply State.useEntry_canon | apply State.setMyTeam_canon | apply State.setEngine_canon | apply State.retire_canon | apply State.putCMBit_canon | apply State.putS_canon | apply OutCanon.mk | intro _ | dsimp only [id_eq, Can] | split)
theorem execFwait_canon {d : BitVec 6} {a : BitVec 6} {w : BitVec 2} {s : State} (h0 : Can s) : OutCanon (execFwait d a w s) := by
  unfold execFwait
  with_reducible repeat' (first | assumption | apply State.checked_canon | apply State.retire_canon | apply State.putS_canon | apply State.reported_canon | apply State.onFuture_canon | apply State.block_canon | apply OutCanon.mk | intro _ | dsimp only [id_eq, Can] | split)
theorem execFtest_canon {d : BitVec 6} {a : BitVec 6} {w : BitVec 2} {s : State} (h0 : Can s) : OutCanon (execFtest d a w s) := by
  unfold execFtest
  with_reducible repeat' (first | assumption | apply State.checked_canon | apply State.retire_canon | apply State.putCMBit_canon | apply State.putS_canon | apply State.reported_canon | apply State.onFuture_canon | apply OutCanon.mk | intro _)
theorem execFcancel_canon {a : BitVec 6} {w : BitVec 2} {s : State} (h0 : Can s) : OutCanon (execFcancel a w s) := by
  unfold execFcancel
  with_reducible repeat' (first | assumption | apply State.checked_canon | apply State.retire_canon | apply State.onFuture_canon | apply State.cancelFuture_canon | apply OutCanon.mk | intro _ | dsimp only [id_eq, Can] | split)
theorem execFres_canon {d : BitVec 6} {a : BitVec 6} {w : BitVec 2} {s : State} (h0 : Can s) : OutCanon (execFres d a w s) := by
  unfold execFres
  with_reducible repeat' (first | assumption | apply State.checked_canon | apply State.retire_canon | apply State.putS_canon | apply State.reported_canon | apply State.onFuture_canon | apply State.block_canon | apply State.setMyTeam_canon | apply OutCanon.mk | intro _ | dsimp only [id_eq, Can] | split)
theorem execCwait_canon {w : BitVec 2} {s : State} (h0 : Can s) : OutCanon (execCwait w s) := by
  unfold execCwait
  with_reducible repeat' (first | assumption | apply State.checked_canon | apply State.awaitTasks_canon | apply OutCanon.mk | intro _)
theorem execCwaitTask_canon {a : BitVec 6} {w : BitVec 2} {s : State} (h0 : Can s) : OutCanon (execCwaitTask a w s) := by
  unfold execCwaitTask
  with_reducible repeat' (first | assumption | apply State.checked_canon | apply State.awaitTasks_canon | apply State.tasksAwaited_canon | apply OutCanon.mk | intro _ | dsimp only [id_eq, Can] | split)
theorem execCancel_canon {a : BitVec 6} {w : BitVec 2} {s : State} (h0 : Can s) : OutCanon (execCancel a w s) := by
  unfold execCancel
  with_reducible repeat' (first | assumption | apply State.checked_canon | apply State.cancelBranch_canon | apply State.retire_canon | apply OutCanon.mk | intro _)
theorem execQalloc_canon {d : BitVec 6} {u : Bool} {i : BitVec 11} {s : State} (h0 : Can s) : OutCanon (execQalloc d u i s) := by
  unfold execQalloc
  with_reducible repeat' (first | assumption | apply State.checked_canon | apply State.withPool_canon | apply State.noRows_canon | apply State.allocBlocks_canon | apply State.putCMBit_canon | apply State.acquire_canon | apply State.loaded_canon | apply OutCanon.mk | intro _ | dsimp only [id_eq, Can] | split)
theorem execQfree_canon {a : BitVec 6} {u : Bool} {i : BitVec 11} {s : State} (h0 : Can s) : OutCanon (execQfree a u i s) := by
  unfold execQfree
  with_reducible repeat' (first | assumption | apply State.checked_canon | apply State.withPool_canon | apply State.retire_canon | apply State.giveBack_canon | apply State.release_canon | apply State.fail_canon | apply OutCanon.mk | intro _ | dsimp only [id_eq, Can] | split)
theorem execQfreel_canon {d : BitVec 6} {a : BitVec 6} {i : BitVec 11} {s : State} (h0 : Can s) : OutCanon (execQfreel d a i s) := by
  unfold execQfreel
  with_reducible repeat' (first | assumption | apply State.checked_canon | apply State.withPool_canon | refine State.walkLinks_canon_of (by assumption) ?_ | apply State.refuse_canon | apply State.consume_canon | apply State.raise_canon | apply State.retire_canon | apply State.freeList_canon | apply State.release_canon | apply OutCanon.mk | intro _ | dsimp only [id_eq, Can] | split)
theorem execMfill_canon {d : BitVec 6} {a : BitVec 6} {b : BitVec 6} {s : State} (h0 : Can s) : OutCanon (execMfill d a b s) := by
  unfold execMfill
  with_reducible repeat' (first | assumption | apply State.checked_canon | apply State.withMould_canon | apply State.accesses_canon | apply State.fillLanes_canon | apply State.retire_canon | apply State.withMe_canon | apply State.block_canon | apply OutCanon.mk | intro _ | dsimp only [id_eq, Can] | split)
theorem execMflush_canon {a : BitVec 6} {s : State} (h0 : Can s) : OutCanon (execMflush a s) := by
  unfold execMflush
  with_reducible repeat' (first | assumption | apply State.checked_canon | apply State.withMould_canon | apply State.retire_canon | apply State.putCMBit_canon | apply State.cast_canon | apply OutCanon.mk | intro _ | dsimp only [id_eq, Can] | split)
theorem execDlarm_canon {a : BitVec 6} {b : BitVec 6} {w : BitVec 2} {s : State} (h0 : Can s) : OutCanon (execDlarm a b w s) := by
  unfold execDlarm
  with_reducible repeat' (first | assumption | apply State.checked_canon | apply State.retire_canon | apply State.setPart_canon | apply OutCanon.mk | intro _)
theorem execDlrd_canon {d : BitVec 6} {w : BitVec 2} {s : State} (h0 : Can s) : OutCanon (execDlrd d w s) := by
  unfold execDlrd
  with_reducible repeat' (first | assumption | apply State.once_canon | apply State.putS_canon | apply OutCanon.mk | intro _)
theorem execTtboard_canon {d : BitVec 6} {i : BitVec 11} {s : State} (h0 : Can s) : OutCanon (execTtboard d i s) := by
  unfold execTtboard
  with_reducible repeat' (first | assumption | apply State.ttOp_canon | apply State.putCMBit_canon | apply State.putWords_canon | intro _)
theorem execTtalight_canon {a : BitVec 6} {s : State} (h0 : Can s) : OutCanon (execTtalight a s) := by
  unfold execTtalight
  with_reducible repeat' (first | assumption | apply State.ttOp_canon | intro _)
theorem execTtmax_canon {a : BitVec 6} {b : BitVec 6} {r : Bool} {q : Bool} {s : State} (h0 : Can s) : OutCanon (execTtmax a b r q s) := by
  unfold execTtmax
  with_reducible repeat' (first | assumption | apply State.ttOp_canon | apply State.putCMBit_canon | intro _)
theorem execTtadd_canon {d : BitVec 6} {a : BitVec 6} {b : BitVec 6} {c : Bool} {r : Bool} {q : Bool} {w : BitVec 3} {s : State} (h0 : Can s) : OutCanon (execTtadd d a b c r q w s) := by
  unfold execTtadd
  with_reducible repeat' (first | assumption | apply State.ttOp_canon | apply State.putWords_canon | intro _)
theorem execTtwait_canon {a : BitVec 6} {s : State} (h0 : Can s) : OutCanon (execTtwait a s) := by
  unfold execTtwait
  with_reducible repeat' (first | assumption | apply State.checked_canon | apply State.raise_canon | apply State.block_canon | apply State.retire_canon | apply OutCanon.mk | intro _ | dsimp only [id_eq, Can] | split)
theorem execVpush_canon {d : BitVec 6} {a : BitVec 6} {n : Bool} {s : State} (h0 : Can s) : OutCanon (execVpush d a n s) := by
  unfold execVpush
  with_reducible repeat' (first | assumption | apply State.checked_canon | apply State.fail_canon | apply State.pushed_canon | apply State.setChannel_canon | apply State.release_canon | apply State.block_canon | apply OutCanon.mk | intro _ | dsimp only [id_eq, Can] | split)
theorem execVpop_canon {d : BitVec 6} {b : BitVec 6} {n : Bool} {s : State} (h0 : Can s) : OutCanon (execVpop d b n s) := by
  unfold execVpop
  with_reducible repeat' (first | assumption | apply State.checked_canon | apply State.fail_canon | apply State.noRows_canon | apply State.acquire_canon | apply State.moveUp_canon | apply State.setChannel_canon | apply State.writeLanes_canon | apply State.allocRows_canon | apply State.retire_canon | apply State.putS_canon | apply State.popFailed_canon | apply State.block_canon | apply OutCanon.mk | intro _ | dsimp only [id_eq, Can] | split)
theorem execVcount_canon {d : BitVec 6} {b : BitVec 6} {w : BitVec 2} {s : State} (h0 : Can s) : OutCanon (execVcount d b w s) := by
  unfold execVcount
  with_reducible repeat' (first | assumption | apply State.once_canon | apply State.putS_canon | apply OutCanon.mk | intro _)
theorem execMbpost_canon {a : BitVec 6} {b : BitVec 6} {n : Bool} {s : State} (h0 : Can s) : OutCanon (execMbpost a b n s) := by
  unfold execMbpost
  with_reducible repeat' (first | assumption | apply State.mailed_canon | apply State.setMailbox_canon | apply State.onMailbox_canon | apply State.stalePost_canon | apply State.release_canon | apply State.block_canon | apply State.storeMail_canon | apply OutCanon.mk | intro _ | dsimp only [id_eq, Can] | split)
theorem execMbtake_canon {d : BitVec 6} {b : BitVec 6} {n : Bool} {s : State} (h0 : Can s) : OutCanon (execMbtake d b n s) := by
  unfold execMbtake
  with_reducible repeat' (first | assumption | apply State.fail_canon | apply State.mailed_canon | apply State.putWords_canon | apply State.acquire_canon | apply State.onMailbox_canon | apply State.takeMail_canon | apply State.block_canon | apply State.setMailbox_canon | apply OutCanon.mk | intro _ | dsimp only [id_eq, Can] | split)
theorem execBar_canon {c : Bool} {s : State} (h0 : Can s) : OutCanon (execBar c s) := by
  unfold execBar
  with_reducible repeat' (first | assumption | apply State.awaitPhase_canon | apply State.checked_canon | apply State.arrive_canon | apply State.release_canon | apply OutCanon.mk | intro _ | dsimp only [id_eq, Can] | split)
theorem execBarWait_canon {a : BitVec 6} {c : Bool} {s : State} (h0 : Can s) : OutCanon (execBarWait a c s) := by
  unfold execBarWait
  with_reducible repeat' (first | assumption | apply State.awaitPhase_canon | apply State.checked_canon | apply State.retire_canon | apply State.acquire_canon | apply OutCanon.mk | intro _ | dsimp only [id_eq, Can] | split)
theorem execMark_canon {g : Bool} {i : BitVec 10} {s : State} (h0 : Can s) : OutCanon (execMark g i s) := by
  unfold execMark
  with_reducible repeat' (first | assumption | apply State.checked_canon | apply State.markSampler_canon | apply State.setPart_canon | apply State.retire_canon | apply OutCanon.mk | intro _)
theorem execLaunchDoorbell_canon {p : Nat} {q : Nat} {v : Word} {s : State} (h0 : Can s) : OutCanon (execLaunchDoorbell p q v s) := by
  unfold execLaunchDoorbell
  with_reducible repeat' (first | assumption | apply State.setPart_canon | apply OutCanon.mk | split)
theorem execLaunchEntryRead_canon {p : Nat} {q : Nat} {s : State} (h0 : Can s) : OutCanon (execLaunchEntryRead p q s) := by
  unfold execLaunchEntryRead
  with_reducible repeat' (first | assumption | apply State.launchRead_canon | apply OutCanon.mk)
theorem execDispatch_canon {s : State} (h0 : Can s) : OutCanon (execDispatch s) := by
  unfold execDispatch
  with_reducible repeat' (first | assumption | apply State.dispatch_canon | apply OutCanon.mk)
theorem execTaskAgeing_canon {p : Nat} {id : Nat} {s : State} (h0 : Can s) : OutCanon (execTaskAgeing p id s) := by
  unfold execTaskAgeing
  with_reducible repeat' (first | assumption | apply State.setPart_canon | apply OutCanon.mk)
theorem execTimeSliceEnd_canon {p : Nat} {s : State} (h0 : Can s) : OutCanon (execTimeSliceEnd p s) := by
  unfold execTimeSliceEnd
  with_reducible repeat' (first | assumption | apply State.setPart_canon | apply State.preemptTeam_canon | apply OutCanon.mk | apply foldl_canon | intro _ | dsimp only [id_eq, Can] | split)
theorem execDrainOverrun_canon {team : Nat} {s : State} (h0 : Can s) : OutCanon (execDrainOverrun team s) := by
  unfold execDrainOverrun
  with_reducible repeat' (first | assumption | apply State.askSave_canon | apply OutCanon.mk | split)
theorem execTeamSave_canon {team : Nat} {s : State} (h0 : Can s) : OutCanon (execTeamSave team s) := by
  unfold execTeamSave
  with_reducible repeat' (first | assumption | apply State.saveTeam_canon | apply State.resetChannel_canon | apply State.captureSlots_canon | apply OutCanon.mk | apply foldl_canon | dsimp only [id_eq, Can] | split)
theorem execDependenceUnitEnter_canon {p : Nat} {s : State} (h0 : Can s) : OutCanon (execDependenceUnitEnter p s) := by
  unfold execDependenceUnitEnter
  with_reducible repeat' (first | assumption | apply State.review_canon | apply State.setPart_canon | apply OutCanon.mk)
theorem execTaskComplete_canon {p : Nat} {id : Nat} {s : State} (h0 : Can s) : OutCanon (execTaskComplete p id s) := by
  unfold execTaskComplete
  with_reducible repeat' (first | assumption | apply State.completeTask_canon | apply OutCanon.mk)
theorem execVersionEarlyCommit_canon {p : Nat} {id : Nat} {s : State} (h0 : Can s) : OutCanon (execVersionEarlyCommit p id s) := by
  unfold execVersionEarlyCommit
  with_reducible repeat' (first | assumption | apply State.setPart_canon | apply State.commitVersion_canon | apply State.drainAll_canon | apply OutCanon.mk | apply foldl_canon | intro _ | split)
theorem execMouldConsumerLaunch_canon {p : Nat} {m : Nat} {s : State} (h0 : Can s) : OutCanon (execMouldConsumerLaunch p m s) := by
  unfold execMouldConsumerLaunch
  with_reducible repeat' (first | assumption | apply State.launchConsumer_canon | apply OutCanon.mk | apply foldl_canon | intro _ | split)
theorem execPoolEnable_canon {p : Nat} {n : Nat} {s : State} (h0 : Can s) : OutCanon (execPoolEnable p n s) := by
  unfold execPoolEnable
  with_reducible repeat' (first | assumption | apply State.poolEnable_canon | apply OutCanon.mk)
theorem execMouldEnable_canon {p : Nat} {n : Nat} {s : State} (h0 : Can s) : OutCanon (execMouldEnable p n s) := by
  unfold execMouldEnable
  with_reducible repeat' (first | assumption | apply State.mouldEnable_canon | apply OutCanon.mk)
theorem execMouldDisable_canon {p : Nat} {n : Nat} {s : State} (h0 : Can s) : OutCanon (execMouldDisable p n s) := by
  unfold execMouldDisable
  with_reducible repeat' (first | assumption | apply State.mouldDisable_canon | apply OutCanon.mk)
theorem execDeadlineExpiry_canon {p : Nat} {s : State} (h0 : Can s) : OutCanon (execDeadlineExpiry p s) := by
  unfold execDeadlineExpiry
  with_reducible repeat' (first | assumption | apply State.fire_canon | apply OutCanon.mk | split)
theorem execAtctlFire_canon {p : Nat} {s : State} (h0 : Can s) : OutCanon (execAtctlFire p s) := by
  unfold execAtctlFire
  with_reducible repeat' (first | assumption | apply State.fire_canon | apply OutCanon.mk | split)
theorem execDltrigRise_canon {s : State} (h0 : Can s) : OutCanon (execDltrigRise s) := by
  unfold execDltrigRise
  with_reducible repeat' (first | assumption | apply State.fire_canon | apply OutCanon.mk | apply foldl_canon | intro _ | split)
theorem execUnveilCancel_canon {part : Nat} {s : State} (h0 : Can s) : OutCanon (execUnveilCancel part s) := by
  unfold execUnveilCancel
  with_reducible repeat' (first | assumption | apply State.freeOnCancel_canon | apply State.dropRows_canon | apply State.setPart_canon | apply OutCanon.mk | dsimp only [id_eq, Can] | split)
theorem execUnveilCapture_canon {p : Nat} {s : State} (h0 : Can s) : OutCanon (execUnveilCapture p s) := by
  unfold execUnveilCapture
  with_reducible repeat' (first | assumption | apply State.capture_canon | apply OutCanon.mk)
theorem execFaultQueueRecord_canon {p : Nat} {s : State} (h0 : Can s) : OutCanon (execFaultQueueRecord p s) := by
  unfold execFaultQueueRecord
  with_reducible repeat' (first | assumption | apply State.writeRecord_canon | apply OutCanon.mk)
theorem execFaultReplay_canon {p : Nat} {seq : Nat} {s : State} (h0 : Can s) : OutCanon (execFaultReplay p seq s) := by
  unfold execFaultReplay
  with_reducible repeat' (first | assumption | apply State.faultAct_canon | apply OutCanon.mk | split)
theorem execFaultDeliver_canon {p : Nat} {seq : Nat} {s : State} (h0 : Can s) : OutCanon (execFaultDeliver p seq s) := by
  unfold execFaultDeliver
  with_reducible repeat' (first | assumption | apply State.faultAct_canon | apply OutCanon.mk | split)
theorem execFaultKill_canon {p : Nat} {seq : Nat} {s : State} (h0 : Can s) : OutCanon (execFaultKill p seq s) := by
  unfold execFaultKill
  with_reducible repeat' (first | assumption | apply State.faultAct_canon | apply OutCanon.mk | split)
theorem execTlbInvalidateAddress_canon {p : Nat} {s : State} (h0 : Can s) : OutCanon (execTlbInvalidateAddress p s) := by
  unfold execTlbInvalidateAddress
  with_reducible repeat' (first | assumption | apply State.invalidate_canon | apply OutCanon.mk)
theorem execTlbInvalidateAll_canon {p : Nat} {s : State} (h0 : Can s) : OutCanon (execTlbInvalidateAll p s) := by
  unfold execTlbInvalidateAll
  with_reducible repeat' (first | assumption | apply State.invalidate_canon | apply OutCanon.mk)
theorem execScanCommit_canon {p : Nat} {s : State} (h0 : Can s) : OutCanon (execScanCommit p s) := by
  unfold execScanCommit
  with_reducible repeat' (first | assumption | apply State.scanAct_canon | apply OutCanon.mk | split)
theorem execScanDiscard_canon {p : Nat} {s : State} (h0 : Can s) : OutCanon (execScanDiscard p s) := by
  unfold execScanDiscard
  with_reducible repeat' (first | assumption | apply State.scanAct_canon | apply OutCanon.mk | split)
theorem execGateRequest_canon {who : Nat} {r : Nat} {s : State} (h0 : Can s) : OutCanon (execGateRequest who r s) := by
  unfold execGateRequest
  with_reducible repeat' (first | assumption | apply State.gateDone_canon | apply State.gateAsk_canon | apply OutCanon.mk | split)
theorem execGatePreemptRequest_canon {who : Nat} {r : Nat} {s : State} (h0 : Can s) : OutCanon (execGatePreemptRequest who r s) := by
  unfold execGatePreemptRequest
  with_reducible repeat' (first | assumption | apply State.gateDone_canon | apply State.gateAsk_canon | apply OutCanon.mk | split)
theorem execGateLift_canon {who : Nat} {r : Nat} {s : State} (h0 : Can s) : OutCanon (execGateLift who r s) := by
  unfold execGateLift
  with_reducible repeat' (first | assumption | apply State.gateDone_canon | apply State.gateRaise_canon | apply OutCanon.mk | split)
theorem execGateClose_canon {r : Nat} {s : State} (h0 : Can s) : OutCanon (execGateClose r s) := by
  unfold execGateClose
  with_reducible repeat' (first | assumption | apply State.smpStop_canon | apply State.setGate_canon | apply OutCanon.mk | apply foldl_canon | dsimp only [id_eq, Can] | split)
theorem execGateOpen_canon {r : Nat} {s : State} (h0 : Can s) : OutCanon (execGateOpen r s) := by
  unfold execGateOpen
  with_reducible repeat' (first | assumption | apply State.setGate_canon | apply OutCanon.mk | split)
theorem execCoreDisable_canon {mask : BitVec 96} {s : State} (h0 : Can s) : OutCanon (execCoreDisable mask s) := by
  unfold execCoreDisable
  with_reducible repeat' (first | assumption | apply State.maskCores_canon | apply OutCanon.mk)
theorem execScanRotation_canon {s : State} (h0 : Can s) : OutCanon (execScanRotation s) := by
  unfold execScanRotation
  with_reducible repeat' (first | assumption | apply State.rotate_canon | apply OutCanon.mk)
theorem execScanComplete_canon {pass : Bool} {s : State} (h0 : Can s) : OutCanon (execScanComplete pass s) := by
  unfold execScanComplete
  with_reducible repeat' (first | assumption | apply State.commitScanned_canon | apply State.setPart_canon | apply State.reportScan_canon | apply State.holdVersions_canon | apply OutCanon.mk | apply foldl_canon | intro _ | dsimp only [id_eq, Can] | split)
theorem execPatrolRowRead_canon {ch : Nat} {s : State} (h0 : Can s) : OutCanon (execPatrolRowRead ch s) := by
  unfold execPatrolRowRead
  with_reducible repeat' (first | assumption | apply State.patrolBad_canon | apply OutCanon.mk | apply foldl_canon | intro _ | dsimp only [id_eq, Can] | split)
theorem execAuditSample_canon {s : State} (h0 : Can s) : OutCanon (execAuditSample s) := by
  unfold execAuditSample
  with_reducible repeat' (first | assumption | apply State.audit_canon | apply OutCanon.mk | split)
theorem execProbeSend_canon {g : Nat} {s : State} (h0 : Can s) : OutCanon (execProbeSend g s) := by
  unfold execProbeSend
  with_reducible repeat' (first | assumption | apply State.setGroup_canon | apply State.spread_canon | apply OutCanon.mk | dsimp only [id_eq, Can] | split)
theorem execProbeReceive_canon {s : State} (h0 : Can s) : OutCanon (execProbeReceive s) := by
  unfold execProbeReceive
  with_reducible repeat' (first | assumption | apply State.probeAt_canon | apply OutCanon.mk | dsimp only [id_eq, Can] | split)
theorem execReportWrite_canon {p : Nat} {s : State} (h0 : Can s) : OutCanon (execReportWrite p s) := by
  unfold execReportWrite
  with_reducible repeat' (first | assumption | apply State.writeReport_canon | apply OutCanon.mk)
theorem execGovernorInterval_canon {power : Nat} {s : State} (h0 : Can s) : OutCanon (execGovernorInterval power s) := by
  unfold execGovernorInterval
  with_reducible repeat' (first | assumption | apply OutCanon.mk | split)
theorem execSamplerEnable_canon {who : Nat} {tile : Nat} {v : Word} {s : State} (h0 : Can s) : OutCanon (execSamplerEnable who tile v s) := by
  unfold execSamplerEnable
  with_reducible repeat' (first | assumption | apply State.smpControl_canon | apply State.hostRefused_canon | apply getD_canon | apply OutCanon.mk | split)
theorem execSample_canon {tile : Nat} {s : State} (h0 : Can s) : OutCanon (execSample tile s) := by
  unfold execSample
  with_reducible repeat' (first | assumption | apply State.takeSample_canon | apply OutCanon.mk | split)
theorem execTraceFilter_canon {p : Nat} {s : State} (h0 : Can s) : OutCanon (execTraceFilter p s) := by
  unfold execTraceFilter
  with_reducible repeat' (first | assumption | apply State.traceFilter_canon | apply OutCanon.mk)
theorem execHaltRecordWrite_canon {p : Nat} {s : State} (h0 : Can s) : OutCanon (execHaltRecordWrite p s) := by
  unfold execHaltRecordWrite
  with_reducible repeat' (first | assumption | apply State.haltWritten_canon | apply getD_canon | apply OutCanon.mk)
theorem execFilterLoad_canon {who : Nat} {p : Nat} {v : Word} {s : State} (h0 : Can s) : OutCanon (execFilterLoad who p v s) := by
  unfold execFilterLoad
  with_reducible repeat' (first | assumption | apply State.unlessLocked_canon | apply State.loadFilter_canon | apply State.hostRefused_canon | apply getD_canon | apply OutCanon.mk | split)
theorem execCaliperStop_canon {p : Nat} {s : State} (h0 : Can s) : OutCanon (execCaliperStop p s) := by
  unfold execCaliperStop
  with_reducible repeat' (first | assumption | apply State.stopTrial_canon | apply OutCanon.mk)
theorem execReleasePath_canon {who : Nat} {p : Nat} {v : Word} {s : State} (h0 : Can s) : OutCanon (execReleasePath who p v s) := by
  unfold execReleasePath
  with_reducible repeat' (first | assumption | apply State.debugStep_canon | apply OutCanon.mk)
theorem execReleaseGroup_canon {who : Nat} {p : Nat} {v : Word} {s : State} (h0 : Can s) : OutCanon (execReleaseGroup who p v s) := by
  unfold execReleaseGroup
  with_reducible repeat' (first | assumption | apply State.debugStep_canon | apply OutCanon.mk)
theorem execDebugStep_canon {who : Nat} {p : Nat} {v : Word} {s : State} (h0 : Can s) : OutCanon (execDebugStep who p v s) := by
  unfold execDebugStep
  with_reducible repeat' (first | assumption | apply State.debugStep_canon | apply OutCanon.mk)
theorem execHoldTakesEffect_canon {g : Nat} {e : Nat} {s : State} (h0 : Can s) : OutCanon (execHoldTakesEffect g e s) := by
  unfold execHoldTakesEffect
  with_reducible repeat' (first | assumption | apply State.takeHold_canon | apply OutCanon.mk)
theorem execDebugPortRead_canon {loc : Word} {n : BitVec 12} {s : State} (h0 : Can s) : OutCanon (execDebugPortRead loc n s) := by
  unfold execDebugPortRead
  with_reducible repeat' (first | assumption | apply OutCanon.mk)
theorem execWriteBufferDrain_canon {team : Nat} {line : Nat} {s : State} (h0 : Can s) : OutCanon (execWriteBufferDrain team line s) := by
  unfold execWriteBufferDrain
  with_reducible repeat' (first | assumption | apply State.drainEntry_canon | apply OutCanon.mk)
theorem execMatrixOperation_canon {team : Nat} {s : State} (h0 : Can s) : OutCanon (execMatrixOperation team s) := by
  unfold execMatrixOperation
  with_reducible repeat' (first | assumption | apply State.performMatrix_canon | apply OutCanon.mk | dsimp only [id_eq, Can] | split)
theorem execTurntablePerform_canon {st : Nat} {s : State} (h0 : Can s) : OutCanon (execTurntablePerform st s) := by
  unfold execTurntablePerform
  with_reducible repeat' (first | assumption | apply State.ttPerform_canon | apply OutCanon.mk)
theorem execFifoEntryLand_canon {tile : Nat} {s : State} (h0 : Can s) : OutCanon (execFifoEntryLand tile s) := by
  unfold execFifoEntryLand
  with_reducible repeat' (first | assumption | apply State.countStale_canon | apply State.setChannel_canon | apply State.sound_canon | apply OutCanon.mk | split)
theorem execPermitReturn_canon {tile : Nat} {s : State} (h0 : Can s) : OutCanon (execPermitReturn tile s) := by
  unfold execPermitReturn
  with_reducible repeat' (first | assumption | apply State.countStale_canon | apply State.setChannel_canon | apply OutCanon.mk | split)
theorem execFlitArrival_canon {r : Nat} {s : State} (h0 : Can s) : OutCanon (execFlitArrival r s) := by
  unfold execFlitArrival
  with_reducible repeat' (first | assumption | apply State.placeFlits_canon | apply State.injectAt_canon | apply OutCanon.mk | dsimp only [id_eq, Can] | split)
theorem execReassemblyGrant_canon {rx : Nat} {s : State} (h0 : Can s) : OutCanon (execReassemblyGrant rx s) := by
  unfold execReassemblyGrant
  with_reducible repeat' (first | assumption | apply OutCanon.mk | dsimp only [id_eq, Can] | split)
theorem execMailboxGrant_canon {id : Nat} {s : State} (h0 : Can s) : OutCanon (execMailboxGrant id s) := by
  unfold execMailboxGrant
  with_reducible repeat' (first | assumption | apply State.grant_canon | apply State.setMailbox_canon | apply State.takeMail_canon | apply OutCanon.mk | dsimp only [id_eq, Can] | split)
theorem execChainJob_canon {e : Nat} {p : Nat} {s : State} (h0 : Can s) : OutCanon (execChainJob e p s) := by
  unfold execChainJob
  with_reducible repeat' (first | assumption | apply State.walk_canon | apply State.setChain_canon | apply State.setPart_canon | apply State.illFormed_canon | apply OutCanon.mk | intro _ | dsimp only [id_eq, Can] | split)
theorem execChainLoop_canon {e : Nat} {p : Nat} {s : State} (h0 : Can s) : OutCanon (execChainLoop e p s) := by
  unfold execChainLoop
  with_reducible repeat' (first | assumption | apply State.walk_canon | refine State.readBody_canon_of (by assumption) ?_ | apply State.resolveChain_canon | apply State.setChain_canon | apply State.illFormed_canon | apply OutCanon.mk | intro _ | dsimp only [id_eq, Can] | split)
theorem execChainCond_canon {e : Nat} {p : Nat} {s : State} (h0 : Can s) : OutCanon (execChainCond e p s) := by
  unfold execChainCond
  with_reducible repeat' (first | assumption | apply State.walk_canon | apply State.engineRead_canon | apply State.resolveChain_canon | apply State.setChain_canon | apply State.illFormed_canon | apply OutCanon.mk | refine ErrCanon.of_map (by assumption) ?_ | intro _ | dsimp only [id_eq, Can] | split | (rename_i e; split at e) | (rename_i e; cases e))
theorem execChainLink_canon {e : Nat} {p : Nat} {s : State} (h0 : Can s) : OutCanon (execChainLink e p s) := by
  unfold execChainLink
  with_reducible repeat' (first | assumption | apply State.walk_canon | apply State.setChain_canon | apply State.illFormed_canon | apply OutCanon.mk | intro _ | dsimp only [id_eq, Can] | split)
theorem execVoxel_canon {e : Nat} {s : State} (h0 : Can s) : OutCanon (execVoxel e s) := by
  unfold execVoxel
  with_reducible repeat' (first | assumption | apply State.startJob_canon | apply voxelJob_canon | apply OutCanon.mk)
theorem execRulebook_canon {e : Nat} {s : State} (h0 : Can s) : OutCanon (execRulebook e s) := by
  unfold execRulebook
  with_reducible repeat' (first | assumption | apply State.startJob_canon | apply rulebookJob_canon | apply OutCanon.mk)
theorem execCoord_canon {e : Nat} {s : State} (h0 : Can s) : OutCanon (execCoord e s) := by
  unfold execCoord
  with_reducible repeat' (first | assumption | apply State.startJob_canon | apply coordJob_canon | apply OutCanon.mk)
theorem execConvertExpand_canon {e : Nat} {s : State} (h0 : Can s) : OutCanon (execConvertExpand e s) := by
  unfold execConvertExpand
  with_reducible repeat' (first | assumption | apply State.startJob_canon | apply expandJob_canon | apply OutCanon.mk)
theorem execCollidePoint_canon {e : Nat} {s : State} (h0 : Can s) : OutCanon (execCollidePoint e s) := by
  unfold execCollidePoint
  with_reducible repeat' (first | assumption | apply State.startJob_canon | apply collisionJob_canon | apply OutCanon.mk | intro _)
theorem execCollideSegment_canon {e : Nat} {s : State} (h0 : Can s) : OutCanon (execCollideSegment e s) := by
  unfold execCollideSegment
  with_reducible repeat' (first | assumption | apply State.startJob_canon | apply collisionJob_canon | apply polyline_canon | apply OutCanon.mk | intro _)
theorem execCollideSphere_canon {e : Nat} {s : State} (h0 : Can s) : OutCanon (execCollideSphere e s) := by
  unfold execCollideSphere
  with_reducible repeat' (first | assumption | apply State.startJob_canon | apply collisionJob_canon | apply OutCanon.mk | intro _)
theorem execCollideSweep_canon {e : Nat} {s : State} (h0 : Can s) : OutCanon (execCollideSweep e s) := by
  unfold execCollideSweep
  with_reducible repeat' (first | assumption | apply State.startJob_canon | apply collisionJob_canon | apply polyline_canon | apply OutCanon.mk | intro _)
theorem execPartCreate_canon {p : Nat} {s : State} (h0 : Can s) : OutCanon (execPartCreate p s) := by
  unfold execPartCreate
  with_reducible repeat' (first | assumption | apply State.partCommand_canon | apply OutCanon.mk | split)
theorem execPartDestroy_canon {p : Nat} {s : State} (h0 : Can s) : OutCanon (execPartDestroy p s) := by
  unfold execPartDestroy
  with_reducible repeat' (first | assumption | apply State.partCommand_canon | apply OutCanon.mk | split)
theorem execPartStart_canon {p : Nat} {s : State} (h0 : Can s) : OutCanon (execPartStart p s) := by
  unfold execPartStart
  with_reducible repeat' (first | assumption | apply State.partCommand_canon | apply OutCanon.mk | split)
theorem execLockedRegisterWrite_canon {p : Nat} {n : Nat} {v : Word} {s : State} (h0 : Can s) : OutCanon (execLockedRegisterWrite p n v s) := by
  unfold execLockedRegisterWrite
  with_reducible repeat' (first | assumption | apply State.onLink_canon | apply State.hostPart_canon | apply OutCanon.mk | intro _ | dsimp only [id_eq, Can] | split)
theorem execGetVersion_canon {sess : Nat} {s : State} (h0 : Can s) : OutCanon (execGetVersion sess s) := by
  unfold execGetVersion
  with_reducible repeat' (first | assumption | apply State.spdm_canon | apply State.answerMsg_canon | apply State.setSession_canon | intro _)
theorem execGetCapabilities_canon {sess : Nat} {s : State} (h0 : Can s) : OutCanon (execGetCapabilities sess s) := by
  unfold execGetCapabilities
  with_reducible repeat' (first | assumption | apply State.spdm_canon | apply State.answerMsg_canon | apply State.setSession_canon | intro _)
theorem execGetCertificate_canon {sess : Nat} {slot : Nat} {s : State} (h0 : Can s) : OutCanon (execGetCertificate sess slot s) := by
  unfold execGetCertificate
  with_reducible repeat' (first | assumption | apply State.spdm_canon | apply State.answerMsg_canon | intro _)
theorem execSpdmChallenge_canon {sess : Nat} {slot : Nat} {s : State} (h0 : Can s) : OutCanon (execSpdmChallenge sess slot s) := by
  unfold execSpdmChallenge
  with_reducible repeat' (first | assumption | apply State.spdm_canon | apply State.answerMsg_canon | intro _)
theorem execGetMeasurements_canon {sess : Nat} {idx : Nat} {s : State} (h0 : Can s) : OutCanon (execGetMeasurements sess idx s) := by
  unfold execGetMeasurements
  with_reducible repeat' (first | assumption | apply State.spdm_canon | apply State.answerMsg_canon | intro _)
theorem execKeyExchange_canon {sess : Nat} {s : State} (h0 : Can s) : OutCanon (execKeyExchange sess s) := by
  unfold execKeyExchange
  with_reducible repeat' (first | assumption | apply State.spdm_canon | apply State.answerMsg_canon | apply State.setSession_canon | intro _)
theorem execSpdmFinish_canon {sess : Nat} {ok : Bool} {s : State} (h0 : Can s) : OutCanon (execSpdmFinish sess ok s) := by
  unfold execSpdmFinish
  with_reducible repeat' (first | assumption | apply State.spdm_canon | apply State.answerMsg_canon | apply State.setSession_canon | intro _)
theorem execSpdmHeartbeat_canon {sess : Nat} {s : State} (h0 : Can s) : OutCanon (execSpdmHeartbeat sess s) := by
  unfold execSpdmHeartbeat
  with_reducible repeat' (first | assumption | apply State.spdm_canon | apply State.answerMsg_canon | intro _)
theorem execKeyUpdate_canon {sess : Nat} {ok : Bool} {s : State} (h0 : Can s) : OutCanon (execKeyUpdate sess ok s) := by
  unfold execKeyUpdate
  with_reducible repeat' (first | assumption | apply State.spdm_canon | apply State.answerMsg_canon | apply State.setSession_canon | apply State.endSession_canon | apply State.toError_canon | apply State.spdmError_canon | apply foldl_canon | intro _ | dsimp only [id_eq, Can] | split)
theorem execGetTdispCapabilities_canon {sess : Nat} {vf : Nat} {s : State} (h0 : Can s) : OutCanon (execGetTdispCapabilities sess vf s) := by
  unfold execGetTdispCapabilities
  with_reducible repeat' (first | assumption | apply State.tdisp_canon | apply State.answerMsg_canon | intro _)
theorem execLockInterfaceRequest_canon {sess : Nat} {vf : Nat} {s : State} (h0 : Can s) : OutCanon (execLockInterfaceRequest sess vf s) := by
  unfold execLockInterfaceRequest
  with_reducible repeat' (first | assumption | apply State.tdisp_canon | apply State.zeroPrivate_canon | apply State.setPart_canon | apply State.answerMsg_canon | apply State.announce_canon | intro _)
theorem execGetDeviceInterfaceState_canon {sess : Nat} {vf : Nat} {s : State} (h0 : Can s) : OutCanon (execGetDeviceInterfaceState sess vf s) := by
  unfold execGetDeviceInterfaceState
  with_reducible repeat' (first | assumption | apply State.tdisp_canon | apply State.answerMsg_canon | intro _)
theorem execStartInterfaceRequest_canon {sess : Nat} {vf : Nat} {s : State} (h0 : Can s) : OutCanon (execStartInterfaceRequest sess vf s) := by
  unfold execStartInterfaceRequest
  with_reducible repeat' (first | assumption | apply State.tdisp_canon | apply State.answerMsg_canon | apply State.announce_canon | apply State.setPart_canon | intro _)
theorem execStopInterfaceRequest_canon {sess : Nat} {vf : Nat} {s : State} (h0 : Can s) : OutCanon (execStopInterfaceRequest sess vf s) := by
  unfold execStopInterfaceRequest
  with_reducible repeat' (first | assumption | apply State.tdisp_canon | apply State.answerMsg_canon | apply State.stopBegin_canon | intro _)
theorem execKeyProg_canon {sess : Nat} {vf : Nat} {s : State} (h0 : Can s) : OutCanon (execKeyProg sess vf s) := by
  unfold execKeyProg
  with_reducible repeat' (first | assumption | apply State.tdisp_canon | apply State.answerMsg_canon | apply State.setPart_canon | intro _)
theorem execKSetGo_canon {sess : Nat} {vf : Nat} {s : State} (h0 : Can s) : OutCanon (execKSetGo sess vf s) := by
  unfold execKSetGo
  with_reducible repeat' (first | assumption | apply State.tdisp_canon | apply State.answerMsg_canon | apply State.setPart_canon | intro _)
theorem execKSetStop_canon {sess : Nat} {vf : Nat} {s : State} (h0 : Can s) : OutCanon (execKSetStop sess vf s) := by
  unfold execKSetStop
  with_reducible repeat' (first | assumption | apply State.tdisp_canon | apply State.answerMsg_canon | apply State.insecure_canon | intro _)
theorem execBoardRelayObject_canon {ch : Nat} {msg : List Byte} {s : State} (h0 : Can s) : OutCanon (execBoardRelayObject ch msg s) := by
  unfold execBoardRelayObject
  with_reducible repeat' (first | assumption | apply State.onLink_canon | apply OutCanon.mk | intro _ | dsimp only [id_eq, Can] | split)
theorem execKeyEstablish_canon {p : Nat} {s : State} (h0 : Can s) : OutCanon (execKeyEstablish p s) := by
  unfold execKeyEstablish
  with_reducible repeat' (first | assumption | apply State.keyEvent_canon | apply OutCanon.mk | split)
theorem execBoardResponse_canon {p : Nat} {code : Nat} {key : BitVec 256} {s : State} (h0 : Can s) : OutCanon (execBoardResponse p code key s) := by
  unfold execBoardResponse
  with_reducible repeat' (first | assumption | apply State.keyStatus_canon | apply State.setPart_canon | apply State.toBoard_canon | apply State.loadKey_canon | apply OutCanon.mk | dsimp only [id_eq, Can] | split)
theorem execPowerOnReset_canon {ok : Bool} {s : State} (h0 : Can s) : OutCanon (execPowerOnReset ok s) := by
  unfold execPowerOnReset
  with_reducible repeat' (first | assumption | apply State.booting_canon | apply OutCanon.mk)
theorem execBootImageWrite_canon {image : List Byte} {verified : Bool} {derived : Bool} {trained : Option Nat} {failing : BitVec 96} {s : State} (h0 : Can s) : OutCanon (execBootImageWrite image verified derived trained failing s) := by
  unfold execBootImageWrite
  with_reducible repeat' (first | assumption | apply State.booting_canon | apply OutCanon.mk | dsimp only [id_eq, Can] | split)
theorem execLinkTraining_canon {ok : Bool} {s : State} (h0 : Can s) : OutCanon (execLinkTraining ok s) := by
  unfold execLinkTraining
  with_reducible repeat' (first | assumption | apply State.msi_canon | apply OutCanon.mk | split)
theorem execHotReset_canon {s : State} (h0 : Can s) : OutCanon (execHotReset s) := by
  unfold execHotReset
  with_reducible repeat' (first | assumption | apply State.onLink_canon | apply State.linkReset_canon | apply OutCanon.mk)
theorem execIllegalInstruction_canon {word : Word} {s : State} (h0 : Can s) : OutCanon (execIllegalInstruction word s) := by
  unfold execIllegalInstruction
  with_reducible repeat' (first | assumption | apply State.illinst_canon | apply State.withMe_canon | apply OutCanon.mk)
theorem execIllFormedWord_canon {word : Word} {s : State} (h0 : Can s) : OutCanon (execIllFormedWord word s) := by
  unfold execIllFormedWord
  with_reducible repeat' (first | assumption | apply State.illop_canon | apply State.withMe_canon | apply OutCanon.mk)
theorem execFetchFault_canon {s : State} (h0 : Can s) : OutCanon (execFetchFault s) := by
  unfold execFetchFault
  with_reducible repeat' (first | assumption | apply State.raise_canon | apply OutCanon.mk | split)
theorem execSoftError_canon {kind : Nat} {tile : Nat} {addr : Nat} {double : Bool} {s : State} (h0 : Can s) : OutCanon (execSoftError kind tile addr double s) := by
  unfold execSoftError
  with_reducible repeat' (first | assumption | apply State.countCe_canon | apply OutCanon.mk | dsimp only [id_eq, Can] | split)
theorem execEviction_canon {p : Nat} {s : State} (h0 : Can s) : OutCanon (execEviction p s) := by
  unfold execEviction
  with_reducible repeat' (first | assumption | apply State.captureSlots_canon | apply State.setPart_canon | apply State.preemptTeam_canon | apply OutCanon.mk | apply foldl_canon | intro _ | dsimp only [id_eq, Can] | split)
theorem execDoeDiscovery_canon {idx : Nat} {s : State} (h0 : Can s) : OutCanon (execDoeDiscovery idx s) := by
  unfold execDoeDiscovery
  with_reducible repeat' (first | assumption | apply State.onLink_canon | apply State.answerMsg_canon | apply OutCanon.mk | intro _)
theorem execPointMoveComplete_canon {s : State} (h0 : Can s) : OutCanon (execPointMoveComplete s) := by
  unfold execPointMoveComplete
  with_reducible repeat' (first | assumption | apply OutCanon.mk)

end Sys2Proof.Machine
end

