-- ==== Sys2Proof/Laws/Units.lean ====
section
/-! SUPPORT. Instructions that command a unit: completing them, and waiting in them. -/

namespace Sys2Proof.Machine

/-- Where a path goes on from a state whose paths stand at the same addresses. -/
theorem State.goesTo_of_sites {s r t : State} {a : DWord} (hc : r.me.cur = s.me.cur)
    (hp : ∀ n, (r.me.path? n).map (fun p => (p.pc, p.join)) = (s.me.path? n).map fun p => (p.pc, p.join)) (h : r.goesTo t a) : s.goesTo t a := by
  rintro h1 ⟨p, h2, h3⟩
  have hn : ∀ n, 8 ≤ n → r.me.path? n = none := fun n hn => by
    have := hp n; rw [h1 n hn] at this; simpa using this
  have hq := hp s.me.cur
  rw [h2, Option.map_some] at hq
  obtain ⟨q, hq1, hq2⟩ := Option.map_eq_some_iff.mp hq
  have := h hn ⟨q, by rw [hc]; exact hq1, by rw [show q.join = p.join from congrArg Prod.snd hq2]; exact h3⟩
  exact ⟨this.1.trans hc, this.2⟩
theorem State.pc_of_sites {s r : State} (hc : r.me.cur = s.me.cur)
    (hp : ∀ n, (r.me.path? n).map (fun p => (p.pc, p.join)) = (s.me.path? n).map fun p => (p.pc, p.join)) : r.pc = s.pc := by
  have := hp s.me.cur
  unfold State.pc State.path Group.path
  rw [hc]
  revert this
  cases r.me.path? s.me.cur <;> cases s.me.path? s.me.cur <;> simp
  intro h _; exact h
/-- Completing an instruction that has written its group's registers and left its paths where they stood. -/
theorem State.retire_own {s w : State} {S : Nat → Word} {cm : DWord} {g : Group} {d : Done} (hS : ∀ n, w.me.sreg n = S n) (hv : w.me.v = s.me.v)
    (hp : w.me.p = s.me.p) (hcm : w.me.cm = cm) (hf : w.me.fpsf = s.me.fpsf) (hg : w.me.gstat = s.me.gstat)
    (hstr : (w.me.laneCtr, w.me.scalarCtr) = (s.me.laneCtr, s.me.scalarCtr)) (hsp : w.me.special = g.special) (hc : w.me.cur = s.me.cur)
    (hpa : ∀ n, (w.me.path? n).map (fun p => (p.pc, p.join)) = (s.me.path? n).map fun p => (p.pc, p.join)) (hd : d.target = none) :
    Own s (w.retire d) S cm g := by
  refine ⟨fun n => ?_, by simp [hv], by simp [hp], by simp [hcm], by simp [hf], by simp [hg], by simpa using hstr, by simp [hsp], ?_⟩
  · rw [← hS n]; exact Group.sreg_congr (by simp) n
  · have := w.retire_goes d
    rw [hd, State.pc_of_sites hc hpa] at this
    exact State.goesTo_of_sites hc hpa this
/-- Completing an instruction that has touched nothing of its group but some scalar registers and CM. -/
theorem State.retire_own_me {s w : State} {d : Done} (h : w.me = s.me) (hd : d.target = none) : Own s (w.retire d) s.me.sreg s.me.cm :=
  State.retire_own (fun n => by rw [h]) (by rw [h]) (by rw [h]) (by rw [h]) (by rw [h]) (by rw [h]) (by rw [h]) (by rw [h]) (by rw [h]) (fun n => by rw [h]) hd
/-- Waiting, its own paths having stayed where they were. -/
theorem State.block_own {s u : State} {g : Group} (w : Wait) (hs : u.me.s = s.me.s) (hv : u.me.v = s.me.v) (hp : u.me.p = s.me.p) (hcm : u.me.cm = s.me.cm)
    (hf : u.me.fpsf = s.me.fpsf) (hg : u.me.gstat = s.me.gstat) (hstr : (u.me.laneCtr, u.me.scalarCtr) = (s.me.laneCtr, s.me.scalarCtr))
    (hsp : u.me.special = g.special) (hpa : u.me.paths = s.me.paths) (hcu : u.me.cur = s.me.cur) : Blocks s (u.block w) w g ∧ (u.block w).others = u.others := by
  have hpath? : ∀ n, u.me.path? n = s.me.path? n := fun n => by unfold Group.path?; rw [hpa]
  have hpath : u.path = s.path := by unfold State.path Group.path; rw [hcu, hpath?]
  have fields : ∀ (x : State), x.others = u.others → (x.me.still = u.me.still ∨ ∃ y : State, x.me.still = (y.charge {}).me.still ∧ y.me.still = u.me.still) →
      (s.unspilled → ∃ p, x.me.path? s.me.cur = some p ∧ p.wait = some w ∧ p.pc = s.path.pc ∧ p.member = s.path.member ∧ p.exm = s.path.exm) →
      Blocks s x w g ∧ x.others = u.others := by
    intro x h1 h2 h3
    have key : ∀ {α : Type} (F : Group → α), (∀ g : Group, F g.still = F g) → (∀ y : State, F (y.charge {}).me = F y.me) → F x.me = F u.me := fun F hF hy => by
      rcases h2 with h2 | ⟨y, h2, h4⟩
      · rw [← hF, h2, hF]
      · rw [← hF, h2, hF, hy, ← hF, h4, hF]
    exact ⟨⟨h3, (key Group.s (fun _ => rfl) fun _ => rfl).trans hs, (key Group.v (fun _ => rfl) fun _ => rfl).trans hv, (key Group.p (fun _ => rfl) fun _ => rfl).trans hp,
      (key Group.cm (fun _ => rfl) fun _ => rfl).trans hcm, (key Group.fpsf (fun _ => rfl) fun _ => rfl).trans hf, (key Group.gstat (fun _ => rfl) fun _ => rfl).trans hg,
      (key (fun g => (g.laneCtr, g.scalarCtr)) (fun _ => rfl) fun _ => rfl).trans hstr, (key Group.special (fun _ => rfl) fun _ => rfl).trans hsp⟩, h1⟩
  have hset : ∀ (f : Path → Path), (u.setPath f).me.still = u.me.still := fun f => by
    show (u.me.setPath u.me.cur f).still = _
    rw [Group.still_setPath]
  unfold State.block
  split
  · rename_i w' hw
    refine fields _ rfl (.inl (hset _)) fun hu => ⟨{ s.path with wait := some w, retryAt := if w' = w then u.now + 1 else s.path.retryAt }, ?_, rfl, rfl, rfl, rfl⟩
    show (u.me.setPath u.me.cur _).path? s.me.cur = _
    rw [hcu, Group.path?_setPath, if_pos rfl, hpath?, State.unspilled_path hu]; rfl
  · let f : Path → Path := fun p => { p with wait := some w, waitSince := u.now, probedAt := none }
    refine fields _ rfl (.inr ⟨u.setPath f, ?_, hset f⟩) fun hu => ?_
    · show (((u.setPath f).charge {}).me.refill 72).still = _
      rw [Group.still_refill]
    · have hs : ∀ m, ((u.setPath f).charge {}).me.path? m = ((if m = s.me.cur then (s.me.path? m).map f else s.me.path? m)).map fun q =>
          { q with yields := q.yields.filter (· != s.me.cur) } := by
        intro m
        have h1 : ((u.setPath f).charge {}).me.path? m = (u.setPath f).me.noteIssue.path? m := rfl
        have h2 : (u.setPath f).me = u.me.setPath s.me.cur f := by show u.me.setPath u.me.cur f = _; rw [hcu]
        rw [h1, Group.path?_noteIssue, h2, Group.path?_setPath, Group.setPath_cur, hcu, hpath?, hpath?]
        by_cases hm : m = s.me.cur
        · subst hm; rfl
        · simp only [if_neg hm]
      have hnone : ∀ n, 8 ≤ n → ((u.setPath f).charge {}).me.path? n = none := fun n hn => by
        have hne : n ≠ s.me.cur := fun e => by
          have := State.unspilled_path hu
          rw [← e, hu.1 n hn] at this; cases this
        rw [hs, if_neg hne, hu.1 n hn]; rfl
      refine ⟨{ f s.path with yields := (f s.path).yields.filter (· != s.me.cur) }, ?_, rfl, rfl, rfl, rfl⟩
      show (((u.setPath f).charge {}).me.refill 72).path? s.me.cur = _
      rw [Group.refill_none 72 _ hnone, hs, if_pos rfl, State.unspilled_path hu]; rfl
/-- Waiting in an instruction that has left its group alone. -/
theorem State.block_blocks {s u : State} (h : u.me = s.me) (w : Wait) : Blocks s (u.block w) w ∧ (u.block w).others = u.others :=
  State.block_own w (by rw [h]) (by rw [h]) (by rw [h]) (by rw [h]) (by rw [h]) (by rw [h]) (by rw [h]) (by rw [h]) (by rw [h]) (by rw [h])
/-- The issuing group stands, but for what its paths wait for. -/
structure Untouched (s w : State) : Prop where
  sc : w.me.s = s.me.s
  v : w.me.v = s.me.v
  p : w.me.p = s.me.p
  cm : w.me.cm = s.me.cm
  fpsf : w.me.fpsf = s.me.fpsf
  gstat : w.me.gstat = s.me.gstat
  streams : (w.me.laneCtr, w.me.scalarCtr) = (s.me.laneCtr, s.me.scalarCtr)
  special : w.me.special = s.me.special
  cur : w.me.cur = s.me.cur
  sites : ∀ n, (w.me.path? n).map (fun p => (p.pc, p.join)) = (s.me.path? n).map fun p => (p.pc, p.join)
  lanes : ∀ n, (w.me.path? n).map (fun p => (p.member, p.exm)) = (s.me.path? n).map fun p => (p.member, p.exm)
theorem Untouched.of_me {s w : State} (h : w.me = s.me) : Untouched s w :=
  ⟨by rw [h], by rw [h], by rw [h], by rw [h], by rw [h], by rw [h], by rw [h], by rw [h], by rw [h], fun n => by rw [h], fun n => by rw [h]⟩
theorem Untouched.trans {s r w : State} (a : Untouched s r) (b : Untouched r w) : Untouched s w :=
  ⟨b.1.trans a.1, b.2.trans a.2, b.3.trans a.3, b.4.trans a.4, b.5.trans a.5, b.6.trans a.6, b.7.trans a.7, b.8.trans a.8, b.9.trans a.9,
    fun n => (b.10 n).trans (a.10 n), fun n => (b.11 n).trans (a.11 n)⟩
theorem Untouched.setPath (s : State) (n : Nat) (f : Path → Path) (hf : ∀ p, ((f p).pc, (f p).join) = (p.pc, p.join))
    (hl : ∀ p, ((f p).member, (f p).exm) = (p.member, p.exm)) :
    Untouched s { s with me := s.me.setPath n f } := by
  have h : (s.me.setPath n f).still = s.me.still := Group.still_setPath ..
  have key : ∀ {α : Type} (F : Group → α), (∀ g : Group, F g.still = F g) → F (s.me.setPath n f) = F s.me := fun F hF => by rw [← hF, h, hF]
  refine ⟨key Group.s fun _ => rfl, key Group.v fun _ => rfl, key Group.p fun _ => rfl, key Group.cm fun _ => rfl, key Group.fpsf fun _ => rfl,
    key Group.gstat fun _ => rfl, key (fun g => (g.laneCtr, g.scalarCtr)) fun _ => rfl, Group.special_of_still h, by simp, fun m => ?_, fun m => ?_⟩
  show ((s.me.setPath n f).path? m).map _ = _
  rw [Group.path?_setPath]
  by_cases hm : m = n
  · subst hm; rw [if_pos rfl, Option.map_map]; cases s.me.path? m with
    | none => rfl
    | some p => exact congrArg some (hf p)
  · rw [if_neg hm]
  show ((s.me.setPath n f).path? m).map _ = _
  rw [Group.path?_setPath]
  by_cases hm : m = n
  · subst hm; rw [if_pos rfl, Option.map_map]; cases s.me.path? m with
    | none => rfl
    | some p => exact congrArg some (hl p)
  · rw [if_neg hm]
theorem State.grant_untouched (s : State) (seq path code : Nat) (data : List Word) : Untouched s (s.grant seq path code data) := by
  unfold State.grant State.setGroup
  split
  · exact Untouched.setPath s path _ (fun _ => rfl) fun _ => rfl
  · exact .of_me rfl
/-- Completing an instruction that left its group's registers alone. -/
theorem Untouched.retire {s w : State} {d : Done} (h : Untouched s w) (hd : d.target = none) : Own s (w.retire d) s.me.sreg s.me.cm :=
  State.retire_own (fun n => Group.sreg_congr h.sc n) h.v h.p h.cm h.fpsf h.gstat h.streams h.special h.cur h.sites hd
theorem State.release_me (s : State) (n : Nat) : (s.release n).me = s.me :=
  (State.release_within (W := fun _ => True) (fun _ _ _ _ => trivial) n).1.me
theorem State.acquire_me (s : State) (n : Nat) : (s.acquire n).me = s.me := (State.acquire_walks (fun _ => False) 0 s n).1.me

end Sys2Proof.Machine
end

