-- ==== Sys2Proof/Laws/Commands.lean ====
section
/-! SUPPORT. Completing an instruction that commands a unit, with the scalar results it writes. -/

namespace Sys2Proof.Machine

/-- An instruction executed once for the group that reads no vector register: nothing keeps it from its effect. -/
theorem State.checked_scalar {s : State} {legal : Bool} {us : List Use} {k : State → State} (hl : legal = true) (hc : s.clear true us = true)
    (hu : us.all (fun x => !x.isVector) = true) : s.checked legal true us k = k s := by
  rw [State.checked_clear hl hc, if_pos rfl, State.seen_none (fun x hx => by simpa using List.all_eq_true.mp hu x hx)]
/-- An illegal operand traps. -/
theorem State.checked_illegal {s : State} {us : List Use} {k : State → State} {o : Bool} :
    s.checked false o us k = s.raise { code := 0x03, mask := if o then s.exm else s.active } := by
  unfold State.checked State.checkedFor
  rfl
/-- Scalar results written by a group that is otherwise as it was. -/
theorem Untouched.puts {s u : State} {ds : List Nat} {ws : List Word} (h : Untouched s u) (hd : ds.Nodup) (hl : ds.length = ws.length) (h64 : ∀ n ∈ ds, n < 64) (lat : Nat) :
    ∃ x, x = (ds.zip ws).foldl (fun s p => s.putS p.1 p.2 lat) u ∧ (∀ n, x.me.sreg n = s.scalarsWith ds ws n) ∧ x.me.v = s.me.v ∧ x.me.p = s.me.p
      ∧ x.me.cm = s.me.cm ∧ x.me.fpsf = s.me.fpsf ∧ x.me.gstat = s.me.gstat ∧ (x.me.laneCtr, x.me.scalarCtr) = (s.me.laneCtr, s.me.scalarCtr)
      ∧ x.me.special = s.me.special ∧ x.me.cur = s.me.cur ∧ x.others = u.others
      ∧ ∀ n, (x.me.path? n).map (fun p => (p.pc, p.join)) = (s.me.path? n).map fun p => (p.pc, p.join) := by
  obtain ⟨a, b⟩ := State.putAll lat ds ws u hd hl h64
  refine ⟨_, rfl, fun n => ?_, a.v.trans h.v, a.p.trans h.p, a.cm.trans h.cm, a.fpsf.trans h.fpsf, a.gstat.trans h.gstat, ?_, a.special.trans h.special,
    a.cur.trans h.cur, a.others, fun n => ?_⟩
  · rw [b]; unfold State.scalarsWith; rw [Group.sreg_congr h.sc n]
  · rw [a.laneCtr, a.scalarCtr]; exact h.streams
  · have : (List.foldl (fun s p => s.putS p.1 p.2 lat) u (ds.zip ws)).me.path? n = u.me.path? n := by unfold Group.path?; rw [a.paths]
    rw [this]; exact h.sites n
/-- An instruction that leaves its group alone completes. -/
theorem Ends.of {i : Instr} {s u : State} {d : Done} (h : Untouched s u) (hd : d.target = none) (e : exec i s = .next (u.retire d)) : Ends i s u :=
  ⟨_, e, h.retire hd, State.retire_others ..⟩
/-- An instruction completes with scalar results. -/
theorem Ends.puts {i : Instr} {s u : State} {ds : List Nat} {ws : List Word} {d : Done} {lat : Nat} (h : Untouched s u) (hn : ds.Nodup) (hl : ds.length = ws.length)
    (h64 : ∀ n ∈ ds, n < 64) (hd : d.target = none) (e : exec i s = .next (((ds.zip ws).foldl (fun s p => s.putS p.1 p.2 lat) u).retire d)) :
    Ends i s u (S := s.scalarsWith ds ws) := by
  obtain ⟨x, hx, h1, h2, h3, h4, h5, h6, h7, h8, h9, h10, h11⟩ := h.puts hn hl h64 lat
  rw [← hx] at e
  exact ⟨_, e, State.retire_own h1 h2 h3 h4 h5 h6 h7 h8 h9 h11 hd, (State.retire_others ..).trans h10⟩
/-- An instruction completes with scalar results and a bit of CM. -/
theorem Ends.putsBit {i : Instr} {s u : State} {ds : List Nat} {ws : List Word} {d : Done} {lat lat' k : Nat} {b : Bool} (h : Untouched s u) (hn : ds.Nodup)
    (hl : ds.length = ws.length) (h64 : ∀ n ∈ ds, n < 64) (hd : d.target = none) (hk : k = 0)
    (e : exec i s = .next ((((ds.zip ws).foldl (fun s p => s.putS p.1 p.2 lat) u).putCMBit k b lat').retire d)) :
    Ends i s u (S := s.scalarsWith ds ws) (cm := s.cmWith 0 b) := by
  subst hk
  obtain ⟨x, hx, h1, h2, h3, h4, h5, h6, h7, h8, h9, h10, h11⟩ := h.puts hn hl h64 lat
  rw [← hx] at e
  refine ⟨_, e, State.retire_own h1 h2 h3 ?_ h5 h6 h7 h8 h9 h11 hd, (State.retire_others ..).trans h10⟩
  show setBits x.me.cm 0 1 _ = _
  rw [h4]; rfl
/-- An instruction completes with a bit of CM. -/
theorem Ends.bit {i : Instr} {s u : State} {d : Done} {lat k : Nat} {b : Bool} (h : Untouched s u) (hd : d.target = none) (hk : k = 0)
    (e : exec i s = .next ((u.putCMBit k b lat).retire d)) : Ends i s u (cm := s.cmWith 0 b) := by
  have := Ends.putsBit (ds := []) (ws := []) (lat := 0) h List.nodup_nil rfl (by simp) hd hk e
  obtain ⟨t, a, b, c⟩ := this
  refine ⟨t, a, ⟨fun n => ?_, b.2, b.3, b.4, b.5, b.6, b.7, b.8, b.9⟩, c⟩
  rw [b.1]; simp [State.scalarsWith]
/-- An instruction that leaves its group alone waits. -/
theorem WaitsFor.of {i : Instr} {s u : State} {w : Wait} (h : u.me = s.me) (e : exec i s = .next (u.block w)) : WaitsFor i s u w :=
  ⟨_, e, State.block_blocks h w⟩
theorem nodup_one (n : Nat) : [n].Nodup := by simp
theorem nodup_two (n : Nat) : [n, n + 1].Nodup := by simp
theorem reg_lt (d : BitVec 6) : ∀ n ∈ [d.toNat], n < 64 := fun n h => by rw [List.mem_singleton.mp h]; exact d.isLt
theorem pair_lt {d : BitVec 6} (h : even d = true) : ∀ n ∈ [d.toNat, d.toNat + 1], n < 64 := fun n hn => by
  have := d.isLt
  have h2 : d.toNat % 2 = 0 := by simpa [even] using h
  rcases List.mem_cons.mp hn with rfl | hn
  · omega
  · have := List.mem_singleton.mp hn; omega
theorem State.setPart_part {s : State} {n : Nat} (f : Partition → Partition) (h : n < 8) : (s.setPart n f).part n = f (s.part n) := by
  unfold State.setPart State.part
  rw [dif_pos h]
  simp [h]
theorem State.setTeam_team {s : State} {id : Nat} {f : Team → Team} (h : (s.team? id).isSome = true) (hf : ∀ t, (f t).id = t.id) :
    (s.setTeam id f).team id = f (s.team id) ∧ ((s.setTeam id f).team? id).isSome = true := by
  have key : ∀ l : List Team, (l.map fun t => if t.id = id then f t else t).find? (·.id == id) = (l.find? (·.id == id)).map f := by
    intro l
    induction l with
    | nil => rfl
    | cons a l ih =>
      rw [List.map_cons, List.find?_cons, List.find?_cons]
      by_cases e : a.id = id
      · rw [if_pos e, hf, show (a.id == id) = true by simpa using e]; rfl
      · rw [if_neg e, show (a.id == id) = false by simpa using e]; exact ih
  have hk : (s.setTeam id f).team? id = (s.team? id).map f := key s.teams
  unfold State.team
  rw [hk]
  obtain ⟨t, ht⟩ := Option.isSome_iff_exists.mp h
  rw [ht]
  exact ⟨rfl, rfl⟩

end Sys2Proof.Machine
end

