-- ==== Sys2Proof/Laws/Traps.lean ====
section
/-! SUPPORT. Taking an exception: user traps and causes parked for the system (R319, R324, R330). -/

namespace Sys2Proof.Machine

theorem State.part_setPart (s : State) (p q : Nat) (f : Partition → Partition) (hp : p < 8) :
    (s.setPart p f).part q = if q = p then f (s.part q) else s.part q := by
  unfold State.setPart State.part
  rw [dif_pos hp]
  by_cases h : q = p
  · subst h; simp [hp]
  · simp [h, Ne.symm h]
/-- A change of partitions that keeps their versions keeps every byte. -/
theorem State.sameMemory_of_parts {s t : State} (ht : t.teams.map Team.apart = s.teams.map Team.apart) (hd : t.dev = s.dev) (hh : t.host = s.host) (hb : t.bank = s.bank)
    (hv : ∀ p, (t.part p).versions = (s.part p).versions) (hs : t.saved = s.saved) (hf : t.free = s.free) : s.sameMemory t := by
  intro ag p
  cases p with
  | dev a => simp only [State.readByte, State.version?, hd, hv]
  | host a => simp only [State.readByte, hh]
  | bank a => simp only [State.readByte, hb]
  | scr m a => rw [State.readByte_scr, State.readByte_scr, State.holder_scratch ht hs, hf]
theorem State.setPart_fields (s : State) (p : Nat) (f : Partition → Partition) : (s.setPart p f).me = s.me ∧ (s.setPart p f).teams = s.teams ∧ (s.setPart p f).dev = s.dev
    ∧ (s.setPart p f).host = s.host ∧ (s.setPart p f).bank = s.bank := by
  unfold State.setPart; split <;> exact ⟨rfl, rfl, rfl, rfl, rfl⟩
theorem Partition.versions_setReg (p : Partition) (n : Nat) (v : Word) : (p.setReg n v).versions = p.versions := by unfold Partition.setReg; rfl
theorem Partition.faults_setReg (p : Partition) (n : Nat) (v : Word) : (p.setReg n v).faults = p.faults := by unfold Partition.setReg; rfl
/-- A cause joins those that are to be written; no byte and no group changes. -/
theorem State.pushCause_only (s : State) (part : Nat) (fc : FaultCause) (hp : part < 8) :
    (s.pushCause part fc).me = s.me ∧ ((s.pushCause part fc).part part).faults = (s.part part).faults ++ [fc] ∧ s.sameMemory (s.pushCause part fc) := by
  unfold State.pushCause
  simp only [Nat.not_le.mpr hp, if_false]
  generalize hs1 : s.setPart part _ = s1
  have hme : s1.me = s.me := by rw [← hs1]; exact (State.setPart_fields ..).1
  have hf : (s1.part part).faults = (s.part part).faults ++ [fc] := by
    rw [← hs1, State.part_setPart _ _ _ _ hp, if_pos rfl]
    dsimp only
    split
    · rw [Partition.faults_setReg]
    · rfl
  have hm : s.sameMemory s1 := by
    rw [← hs1]
    obtain ⟨-, h2, h3, h4, h5⟩ := State.setPart_fields s part fun p =>
      { (if decide (p.fqRoom ≤ p.faults.length) then p.setReg 0x876 (setBits (p.reg 0x876 0) 16 16 (min (bits (p.reg 0x876 0) 16 16 + 1) 0xFFFF)) else p) with }
    refine State.sameMemory_of_parts ?_ ?_ ?_ ?_ (fun q => ?_) (State.setPart_saved ..) (State.setPart_free ..)
    · rw [(State.setPart_fields ..).2.1]
    · exact (State.setPart_fields ..).2.2.1
    · exact (State.setPart_fields ..).2.2.2.1
    · exact (State.setPart_fields ..).2.2.2.2
    · rw [State.part_setPart _ _ _ _ hp]
      split
      · dsimp only
        split
        · rw [Partition.versions_setReg]
        · rfl
      · rfl
  split
  · exact ⟨hme, hf, hm⟩
  · exact ⟨hme, hf, hm⟩
/-- The issuing path once an instruction is charged or counted. -/
theorem State.charge_path? (s : State) (d : Done) (m : Nat) :
    (s.charge d).me.path? m = (s.me.path? m).map fun q => { q with yields := q.yields.filter (· != s.me.cur) } := by
  have h1 : (s.charge d).me.path? m = s.me.noteIssue.path? m := rfl
  rw [h1, Group.path?_noteIssue]
/-- What charging and counting leave of a group, its task and its path. -/
structure SentOn (s r : State) : Prop where
  cur : r.me.cur = s.me.cur
  ir : r.me.ir = s.me.ir
  mode : r.me.mode = s.me.mode
  sc : r.me.s = s.me.s
  v : r.me.v = s.me.v
  p : r.me.p = s.me.p
  cm : r.me.cm = s.me.cm
  fpsf : r.me.fpsf = s.me.fpsf
  loops : r.me.loops = s.me.loops
  x : r.me.x = s.me.x
  handler : r.me.handler = s.me.handler
  place : r.me.part = s.me.part ∧ r.me.task = s.me.task ∧ r.me.tile = s.me.tile ∧ r.me.index = s.me.index ∧ r.me.seq = s.me.seq
  parts : r.parts = s.parts
  others : r.others = s.others
  paths : ∀ m, (r.me.path? m).isSome = (s.me.path? m).isSome
  path : r.path.pc = s.path.pc ∧ r.path.member = s.path.member ∧ r.path.exm = s.path.exm
theorem SentOn.charge (s : State) (d : Done) : SentOn s (s.charge d) where
  cur := rfl
  ir := rfl
  mode := rfl
  sc := rfl
  v := rfl
  p := rfl
  cm := rfl
  fpsf := rfl
  loops := rfl
  x := rfl
  handler := rfl
  place := ⟨rfl, rfl, rfl, rfl, rfl⟩
  parts := rfl
  others := rfl
  paths := fun m => by rw [State.charge_path?]; cases s.me.path? m <;> rfl
  path := by
    have : (s.charge d).path = ((s.me.path? s.me.cur).map fun q => { q with yields := q.yields.filter (· != s.me.cur) }).getD {} := by
      unfold State.path Group.path
      rw [State.charge_path?]; rfl
    rw [this]
    unfold State.path Group.path
    cases s.me.path? s.me.cur <;> exact ⟨rfl, rfl, rfl⟩
theorem SentOn.setPath (s : State) (f : Path → Path) (hf : ∀ p, (f p).pc = p.pc ∧ (f p).member = p.member ∧ (f p).exm = p.exm) : SentOn s (s.setPath f) := by
  have hp : ∀ m, (s.setPath f).me.path? m = if m = s.me.cur then (s.me.path? s.me.cur).map f else s.me.path? m := fun m => Group.path?_setPath ..
  have hc : (s.setPath f).me.cur = s.me.cur := by show (s.me.setPath _ _).cur = _; simp
  refine ⟨hc, ?_, ?_, ?_, ?_, ?_, ?_, ?_, ?_, ?_, ?_, ⟨?_, ?_, ?_, ?_, ?_⟩, rfl, rfl, fun m => ?_, ?_⟩
  all_goals first | (show _ = s.me.loops; exact Group.loops_setPath ..) | (unfold State.setPath; simp; done) | skip
  · rw [hp]; split
    · rename_i h; subst h; cases s.me.path? s.me.cur <;> rfl
    · rfl
  · unfold State.path Group.path
    rw [hc, hp, if_pos rfl]
    cases s.me.path? s.me.cur with
    | none => exact ⟨rfl, rfl, rfl⟩
    | some p => exact hf p
theorem SentOn.trans {s r t : State} (a : SentOn s r) (b : SentOn r t) : SentOn s t :=
  ⟨b.1.trans a.1, b.2.trans a.2, b.3.trans a.3, b.4.trans a.4, b.5.trans a.5, b.6.trans a.6, b.7.trans a.7, b.8.trans a.8, b.9.trans a.9, b.10.trans a.10, b.11.trans a.11,
    ⟨b.12.1.trans a.12.1, b.12.2.1.trans a.12.2.1, b.12.2.2.1.trans a.12.2.2.1, b.12.2.2.2.1.trans a.12.2.2.2.1, b.12.2.2.2.2.trans a.12.2.2.2.2⟩,
    b.13.trans a.13, b.14.trans a.14, fun m => (b.15 m).trans (a.15 m), ⟨b.16.1.trans a.16.1, b.16.2.1.trans a.16.2.1, b.16.2.2.trans a.16.2.2⟩⟩
theorem SentOn.refl (s : State) : SentOn s s :=
  ⟨rfl, rfl, rfl, rfl, rfl, rfl, rfl, rfl, rfl, rfl, rfl, ⟨rfl, rfl, rfl, rfl, rfl⟩, rfl, rfl, fun _ => rfl, ⟨rfl, rfl, rfl⟩⟩
theorem SentOn.count (s : State) (d : Done) : SentOn s (s.count d) := by
  refine (SentOn.setPath s (fun p => { p with wait := none, holdAsked := if p.stepping then some 3 else p.holdAsked, stepping := false }) fun _ => ⟨rfl, rfl, rfl⟩).trans ?_
  exact ⟨rfl, rfl, rfl, rfl, rfl, rfl, rfl, rfl, rfl, rfl, rfl, ⟨rfl, rfl, rfl, rfl, rfl⟩, rfl, State.setTeam_others _ _ _ fun _ => rfl, fun _ => rfl, ⟨rfl, rfl, rfl⟩⟩
theorem SentOn.task {s r : State} (h : SentOn s r) : r.myTask = s.myTask := by
  unfold State.myTask State.myPart State.part; rw [h.place.1, h.place.2.1, h.parts]
theorem SentOn.pc {s r : State} (h : SentOn s r) : r.pc = s.pc := h.path.1
/-- A user trap after charging. -/
theorem State.userTrap_trapped {s r : State} (h : SentOn s r) (hp : (s.me.path? s.me.cur).isSome = true) (cause : Word) (mask : LaneMask) (xpc : DWord) :
    Trapped s (r.userTrap cause mask xpc r.me.ir) cause mask xpc := by
  have hr : (r.me.path? r.me.cur).isSome = true := by rw [h.cur, h.paths]; exact hp
  obtain ⟨p, hp⟩ := Option.isSome_iff_exists.mp hr
  have hpath : r.path = p := by unfold State.path Group.path; rw [hp]; rfl
  have hn := Group.path?_lt hp
  let g : Group := { r.me with
    pending := []
    x := { xpc := xpc, xinst := r.me.ir, xmask := mask, xcause := cause, xpath := BitVec.ofNat 3 r.me.cur, xmode := r.me.mode }
    mode := resetMode
    handler := some { path := r.me.cur, others := r.me.entries.filter (· != r.me.cur), member := (r.me.path r.me.cur).member, exm := (r.me.path r.me.cur).exm } }
  have hme : (r.userTrap cause mask xpc r.me.ir).me = g.setPath r.me.cur fun p => { p with pc := r.myTask.record.handler, wait := none } := rfl
  have hg : ∀ m, (r.userTrap cause mask xpc r.me.ir).me.path? m = if m = r.me.cur then some { p with pc := r.myTask.record.handler, wait := none } else r.me.path? m := by
    intro m
    rw [hme, Group.path?_setPath]
    show (if m = r.me.cur then (r.me.path? r.me.cur).map _ else r.me.path? m) = _
    rw [hp]; rfl
  have hc : (r.userTrap cause mask xpc r.me.ir).me.cur = r.me.cur := by rw [hme]; simp [g]
  have ht : (r.userTrap cause mask xpc r.me.ir).path = { p with pc := r.myTask.record.handler, wait := none } := by
    unfold State.path Group.path; rw [hc, hg, if_pos rfl]; rfl
  have ho : (r.userTrap cause mask xpc r.me.ir).others = s.others := h.others
  refine ⟨?_, ?_, ⟨{ path := r.me.cur, others := r.me.entries.filter (· != r.me.cur), member := (r.me.path r.me.cur).member, exm := (r.me.path r.me.cur).exm }, ?_, ?_, ?_, ?_⟩,
    ⟨hc.trans h.cur, ?_, ?_, ?_⟩, ?_, ?_, ?_, ?_, ?_, ?_, ?_, ho, State.sameMemory_of_others ho⟩
  · rw [hme, ← h.ir, ← h.cur, ← h.mode]; simp [g]
  · rw [hme]; simp [g]; rfl
  · rw [hme]; simp [g]
  · exact h.cur
  · exact h.path.2.1
  · exact h.path.2.2
  · show State.pc _ = _
    unfold State.pc; rw [ht, ← h.task]
  · rw [ht, ← h.path.2.1, hpath]
  · rw [ht, ← h.path.2.2, hpath]
  · rw [hme]; simp [g]
  · rw [hme, ← h.sc]; simp [g]
  · rw [hme, ← h.v]; simp [g]
  · rw [hme, ← h.p]; simp [g]
  · rw [hme, ← h.cm]; simp [g]
  · rw [hme, ← h.fpsf]; simp [g]
  · rw [hme, Group.loops_setPath]; exact h.loops
/-- A cause routed to the user handler that stands before the instruction's effect. -/
theorem State.raise_trapped {s : State} {c : Cause} (hc : userRouted c.code = true) (hu : s.trapsToUser) (hn : c.completed = false) :
    Trapped s (s.raise c) (causeWord c.code c.detail) c.mask s.pc := by
  obtain ⟨h1, h2, h3, h4⟩ := hu
  unfold State.raise
  have hne : ¬ c.code = 0x0D := fun e => by rw [e] at hc; simp [userRouted] at hc
  rw [if_neg hne]
  simp only [hc, hn, Bool.false_eq_true, if_false, h2, Option.isNone_none, Bool.and_true, Bool.true_and, Bool.and_eq_true, bne_iff_ne, ne_eq, h1, h4, not_false_iff, and_self, if_true]
  have hs := (SentOn.charge s {}).trans (SentOn.setPath (s.charge {}) (fun p => { p with holdAsked := if p.stepping then some 3 else p.holdAsked, stepping := false }) fun _ => ⟨rfl, rfl, rfl⟩)
  have := State.userTrap_trapped hs h3 (causeWord c.code c.detail) c.mask s.pc
  rw [hs.ir] at this
  exact this
/-- A cause routed to the user handler behind a completed instruction that has been counted and charged. -/
theorem State.raise_completed {s r : State} (hs : SentOn s r) {c : Cause} (hc : userRouted c.code = true) (hu : s.trapsToUser) (hn : c.completed = true) :
    Trapped s (r.raise c) (causeWord c.code c.detail) c.mask (pc56 (s.pc + 4)) := by
  obtain ⟨h1, h2, h3, h4⟩ := hu
  unfold State.raise
  have hne : ¬ c.code = 0x0D := fun e => by rw [e] at hc; simp [userRouted] at hc
  rw [if_neg hne]
  simp only [hc, hn, if_true, hs.handler, h2, Option.isNone_none, Bool.and_true, Bool.true_and, Bool.and_eq_true, bne_iff_ne, ne_eq, hs.task, h1, h4, not_false_iff, and_self, hs.pc]
  exact State.userTrap_trapped hs h3 (causeWord c.code c.detail) c.mask (pc56 (s.pc + 4))
/-- A cause parked for the system. -/
theorem State.systemCause_parked {s r : State} (h : SentOn s r) (hs : s.parksForSystem) (c : Cause) (hf : c.fetch = false) (ha : c.at_ = none) (xpc : DWord) :
    Parked s (r.systemCause c xpc) (causeWord c.code c.detail) c.mask c.vaddr xpc := by
  obtain ⟨h1, h2, hu⟩ := hs
  have hp : (r.me.path? r.me.cur).isSome = true := by rw [h.cur, h.paths]; exact hu.2
  obtain ⟨p, hp⟩ := Option.isSome_iff_exists.mp hp
  have hpath : r.path = p := by unfold State.path Group.path; rw [hp]; rfl
  have hsp : ∀ n, 8 ≤ n → r.me.path? n = none := fun n hn => by
    have := h.paths n; rw [hu.1 n hn] at this
    cases hr : r.me.path? n with
    | none => rfl
    | some _ => rw [hr] at this; cases this
  unfold State.systemCause
  rw [h.task]
  simp only [h1, if_false]
  generalize hq : (r.setPath fun p => { p with causeWaits := true, pc := xpc, wait := none }).withMe (fun g => ({ g with pending := [] }).refill 72) = q
  have hg : ∀ m, (r.me.setPath r.me.cur fun p => { p with causeWaits := true, pc := xpc, wait := none }).path? m
      = if m = r.me.cur then some { p with causeWaits := true, pc := xpc, wait := none } else r.me.path? m := by
    intro m; rw [Group.path?_setPath, hp]; rfl
  have hqme : q.me = { (r.me.setPath r.me.cur fun p => { p with causeWaits := true, pc := xpc, wait := none }) with pending := [] } := by
    rw [← hq]
    show Group.refill 72 { r.me.setPath _ _ with pending := [] } = _
    refine Group.refill_none _ _ fun m hm => ?_
    show (r.me.setPath _ _).path? m = none
    rw [hg, if_neg (fun e => by rw [e] at hm; rw [hsp _ hm] at hp; cases hp)]; exact hsp m hm
  have hparts : q.parts = s.parts := by rw [← hq]; exact h.parts
  have hqo : q.others = s.others := by rw [← hq]; exact h.others
  have hpart : r.me.part < 8 := by rw [h.place.1]; exact h2
  obtain ⟨e1, e2, e3⟩ := State.pushCause_only q r.me.part { r.faultCause c with replay := c.code == 0x0B || c.code == 0x0C || c.completed, owner := some (r.me.seq, r.me.cur) } hpart
  have hpq : ∀ n, q.part n = s.part n := fun n => by unfold State.part; rw [hparts]
  rw [h.place.1] at e2
  refine ⟨⟨{ p with causeWaits := true, pc := xpc, wait := none }, ?_, rfl, rfl, ?_, ?_⟩, ⟨{ r.faultCause c with replay := c.code == 0x0B || c.code == 0x0C || c.completed, owner := some (r.me.seq, r.me.cur) }, ?_, rfl, rfl, rfl, ?_, ?_, ?_, ?_, ?_, ?_, ?_⟩, ?_, ?_, ?_, ?_, ?_, ?_, ?_, ?_⟩
  · rw [e1, hqme]; show (r.me.setPath _ _).path? _ = _; rw [hg, if_pos h.cur.symm]
  · rw [← h.path.2.1, hpath]
  · rw [← h.path.2.2, hpath]
  · rw [h.place.1, e2, hpq]
  · show c.at_.getD r.pc = _; rw [ha]; exact h.pc
  · show (if c.fetch then 0 else r.me.ir) = _; rw [hf]; exact h.ir
  · exact h.place.2.1
  · exact h.place.2.2.1
  · exact h.place.2.2.2.1
  · exact h.cur
  · show some (r.me.seq, r.me.cur) = _; rw [h.place.2.2.2.2, h.cur]
  · rw [e1, hqme, ← h.x]; simp
  · rw [e1, hqme, ← h.mode]; simp
  · rw [e1, hqme, ← h.sc]; simp
  · rw [e1, hqme, ← h.v]; simp
  · rw [e1, hqme, ← h.p]; simp
  · rw [e1, hqme, ← h.cm]; simp
  · rw [e1, hqme, ← h.fpsf]; simp
  · intro ag pl
    exact (e3 ag pl).trans (State.sameMemory_of_others hqo ag pl)
/-- A cause before the instruction's effect that goes to the system. -/
theorem State.raise_parked {s : State} {c : Cause} (hne : c.code ≠ 0x0D) (hc : (userRouted c.code && s.myTask.record.handler != 0 && s.me.handler.isNone) = false)
    (hs : s.parksForSystem) (hn : c.completed = false) (hf : c.fetch = false) (ha : c.at_ = none) :
    Parked s (s.raise c) (causeWord c.code c.detail) c.mask c.vaddr s.pc := by
  unfold State.raise
  rw [if_neg hne]
  simp only [hn, Bool.false_eq_true, if_false, hc, Bool.false_and]
  have h := (SentOn.charge s {}).trans (SentOn.setPath (s.charge {}) (fun p => { p with holdAsked := if p.stepping then some 3 else p.holdAsked, stepping := false }) fun _ => ⟨rfl, rfl, rfl⟩)
  exact State.systemCause_parked h hs c hf ha s.pc
/-- A cause behind a completed instruction that goes to the system. -/
theorem State.raise_parked_after {s r : State} (h : SentOn s r) {c : Cause} (hne : c.code ≠ 0x0D)
    (hc : (userRouted c.code && s.myTask.record.handler != 0 && s.me.handler.isNone) = false) (hs : s.parksForSystem) (hn : c.completed = true) (hf : c.fetch = false)
    (ha : c.at_ = none) : Parked s (r.raise c) (causeWord c.code c.detail) c.mask c.vaddr (pc56 (s.pc + 4)) := by
  unfold State.raise
  rw [if_neg hne]
  simp only [hn, if_true, h.task, h.handler, hc, Bool.false_and, Bool.false_eq_true, if_false, h.pc]
  exact State.systemCause_parked h hs c hf ha _

end Sys2Proof.Machine
end

