-- ==== Sys2Proof/Laws/ControlForms.lean ====
section
/-! SUPPORT. Control transfers, scopes, modes, predicate moves and replaced results: one lemma per form. -/

namespace Sys2Proof.Machine

/-- The group of a completing instruction before its path arrives at the next address. -/
theorem State.retire_before {s : State} (d : Done) {p : Path} (hp : s.me.path? s.me.cur = some p) :
    ∃ g : Group, (s.retire d).me = (g.goto s.me.cur (d.target.getD (s.pc + 4))).refill 72 ∧ g.cur = s.me.cur ∧ g.loops = s.me.loops
      ∧ (∃ q, g.path? s.me.cur = some q ∧ q.member = p.member ∧ q.exm = p.exm ∧ q.join = p.join ∧ q.parent = p.parent ∧ q.state = p.state ∧ q.kind = p.kind
        ∧ q.parked = p.parked ∧ q.causeWaits = p.causeWaits)
      ∧ ∀ n, n ≠ s.me.cur → g.path? n = (s.me.path? n).map fun q => { q with yields := q.yields.filter (· != s.me.cur) } := by
  have hchg : ∀ m, ((s.count d).charge d).me.path? m = if m = s.me.cur then
      (s.me.path? m).map fun q => { (q : Path) with wait := none, holdAsked := if q.stepping then some 3 else q.holdAsked, stepping := false, yields := q.yields.filter (· != s.me.cur) }
      else (s.me.path? m).map fun q => { q with yields := q.yields.filter (· != s.me.cur) } := by
    intro m
    have h1 : ((s.count d).charge d).me.path? m = (s.count d).me.noteIssue.path? m := rfl
    have h2 : (s.count d).me = s.me.setPath s.me.cur fun p => { p with wait := none, holdAsked := if p.stepping then some 3 else p.holdAsked, stepping := false } := rfl
    rw [h1, Group.path?_noteIssue, h2, Group.path?_setPath, Group.setPath_cur]
    by_cases hm : m = s.me.cur
    · subst hm; simp only [if_true, Option.map_map]; rfl
    · simp only [if_neg hm]
  have hc : ((s.count d).charge d).me.cur = s.me.cur := by simp [State.charge, State.count, Group.noteIssue]
  have hl : ((s.count d).charge d).me.loops = s.me.loops := by
    have : (s.count d).me.loops = s.me.loops := Group.loops_setPath ..
    exact this
  have h0 := hchg s.me.cur
  rw [if_pos rfl, hp, Option.map_some] at h0
  by_cases hm : d.moved
  · refine ⟨((s.count d).charge d).me.setPath s.me.cur fun p => { p with notBefore := s.now + d.beats + d.extra + 2 }, ?_, ?_, ?_, ?_, ?_⟩
    · have : (s.retire d).me = (((if d.moved then ((s.count d).charge d).setPath fun p => { p with notBefore := s.now + d.beats + d.extra + 2 } else (s.count d).charge d).me).goto
        (if d.moved then ((s.count d).charge d).setPath fun p => { p with notBefore := s.now + d.beats + d.extra + 2 } else (s.count d).charge d).me.cur (d.target.getD (s.pc + 4))).refill 72 := rfl
      rw [this, if_pos hm]
      show ((Group.goto (((s.count d).charge d).me.setPath ((s.count d).charge d).me.cur _) (Group.cur (((s.count d).charge d).me.setPath ((s.count d).charge d).me.cur _)) _).refill 72) = _
      rw [Group.setPath_cur, hc]
    · rw [Group.setPath_cur, hc]
    · rw [Group.loops_setPath, hl]
    · rw [Group.path?_setPath, if_pos rfl, h0]; exact ⟨_, rfl, rfl, rfl, rfl, rfl, rfl, rfl, rfl, rfl⟩
    · intro n hn; rw [Group.path?_setPath, if_neg hn, hchg, if_neg hn]
  · refine ⟨((s.count d).charge d).me, ?_, hc, hl, ?_, ?_⟩
    · have : (s.retire d).me = (((if d.moved then ((s.count d).charge d).setPath fun p => { p with notBefore := s.now + d.beats + d.extra + 2 } else (s.count d).charge d).me).goto
        (if d.moved then ((s.count d).charge d).setPath fun p => { p with notBefore := s.now + d.beats + d.extra + 2 } else (s.count d).charge d).me.cur (d.target.getD (s.pc + 4))).refill 72 := rfl
      rw [this, if_neg hm, hc]
    · rw [h0]; exact ⟨_, rfl, rfl, rfl, rfl, rfl, rfl, rfl, rfl, rfl⟩
    · intro n hn; rw [hchg, if_neg hn]
theorem Group.children_congr {g h : Group} (e : ∀ n, (g.path? n).map (·.parent) = (h.path? n).map (·.parent)) (j : Nat) : g.children j = h.children j := by
  unfold Group.children Group.entries
  rw [List.filter_filter, List.filter_filter]
  apply List.filter_congr
  intro n _
  have := e n
  unfold Group.path
  cases h1 : g.path? n <;> cases h2 : h.path? n <;> rw [h1, h2] at this <;> simp_all
theorem Group.mem_children {g : Group} {j n : Nat} : n ∈ g.children j ↔ ∃ p, g.path? n = some p ∧ p.parent = some j := by
  unfold Group.children Group.entries
  simp only [List.mem_filter, List.mem_range, beq_iff_eq]
  constructor
  · rintro ⟨⟨_, h⟩, e⟩
    obtain ⟨p, hp⟩ := Option.isSome_iff_exists.mp h
    exact ⟨p, hp, by unfold Group.path at e; rw [hp] at e; exact e⟩
  · rintro ⟨p, hp, e⟩
    exact ⟨⟨Group.path?_lt hp, by rw [hp]; rfl⟩, by unfold Group.path; rw [hp]; exact e⟩
theorem Group.path?_clear (l : List Nat) (g : Group) (hl : ∀ n ∈ l, n < 72) (m : Nat) :
    (l.foldl (fun g n => g.setEntry n none) g).path? m = if m ∈ l then none else g.path? m := by
  induction l generalizing g with
  | nil => simp
  | cons a l ih =>
    rw [List.foldl_cons, ih _ fun n hn => hl n (List.mem_cons_of_mem _ hn), Group.path?_setEntry _ _ _ _ (hl a (List.mem_cons_self ..))]
    by_cases h1 : m ∈ l
    · simp [h1]
    · by_cases h2 : m = a
      · simp [h2]
      · simp [h1, h2]
theorem Group.loops_clear (l : List Nat) (g : Group) : (l.foldl (fun g n => g.setEntry n none) g).loops = g.loops := by
  induction l generalizing g with
  | nil => rfl
  | cons a l ih => rw [List.foldl_cons, ih]; exact Group.loops_setEntry ..
theorem foldl_union {α : Type} (l : List α) (f f' : α → LaneMask) (h : ∀ a ∈ l, f a = f' a) (m : LaneMask) : l.foldl (fun m a => m ||| f a) m = l.foldl (fun m a => m ||| f' a) m := by
  induction l generalizing m with
  | nil => rfl
  | cons a l ih => rw [List.foldl_cons, List.foldl_cons, h a (List.mem_cons_self ..)]; exact ih (fun b hb => h b (List.mem_cons_of_mem _ hb)) _
/-- The counters after a scope has merged: those of its own loop are cleared (R91). -/
def Group.loopsClosed (g : Group) (k : ScopeKind) : Vector LoopCtr 3 := (g.clearLoop k).loops
/-- A scope whose paths all wait merges into its owner (R86), where the owner's loop is over and it does not itself stand at its join PC. -/
theorem Group.merge_closes {g : Group} {i : Nat} {o : Path} (fuel : Nat) (ho : g.path? i = some o) (hs : o.state = .joined) (hch : g.children i ≠ [])
    (hw : g.allWait i = true) (hj : o.join ≠ some o.pc) (hk : ∀ n, o.kind = .loop n → g.loops[n].count.toNat ≤ 1) :
    (∀ m, (Group.merge (fuel + 1) i g).path? m = if m = i then some { o with
        member := (g.children i).foldl (fun m n => m ||| (g.path n).member) 0, exm := (g.children i).foldl (fun m n => m ||| (g.path n).exm) 0, state := .ready, kind := .none }
      else if m ∈ g.children i then none else g.path? m) ∧ (Group.merge (fuel + 1) i g).loops = g.loopsClosed o.kind ∧ (Group.merge (fuel + 1) i g).cur = g.cur := by
  have hlt : ∀ n ∈ g.children i, n < 72 := fun n hn => by
    obtain ⟨p, hp, -⟩ := Group.mem_children.mp hn; exact Group.path?_lt hp
  have hi := Group.path?_lt ho
  have hcurf : ∀ (l : List Nat) (g : Group), (l.foldl (fun g n => g.setEntry n none) g).cur = g.cur := by
    intro l; induction l with
    | nil => intro g; rfl
    | cons a l ih => intro g; rw [List.foldl_cons, ih]; exact Group.setEntry_cur ..
  have key : ∀ g1 : Group, g1 = (g.children i).foldl (fun g n => g.setEntry n none) g → ∀ g2 : Group, (∀ m, g2.path? m = g1.path? m) → g2.cur = g1.cur → 
      ∀ q : Path, (∀ m, ((g2.dropEXM i).setEntry i (some q)).path? m = if m = i then some q else if m ∈ g.children i then none else g.path? m)
        ∧ ((g2.dropEXM i).setEntry i (some q)).loops = g2.loops ∧ ((g2.dropEXM i).setEntry i (some q)).cur = g.cur := by
    intro g1 h1 g2 h2 hc q
    refine ⟨fun m => ?_, Group.loops_setEntry .., ?_⟩
    · rw [Group.path?_setEntry _ _ _ _ hi]
      by_cases hm : m = i
      · rw [if_pos hm, if_pos hm]
      · rw [if_neg hm, if_neg hm]
        show g2.path? m = _
        rw [h2, h1, Group.path?_clear _ _ hlt]
    · rw [Group.setEntry_cur]
      show g2.cur = _
      rw [hc, h1, hcurf]
  unfold Group.merge
  rw [ho]
  dsimp only
  rw [if_neg (by simp [hs]), if_neg hch, if_neg (by simp [hw])]
  unfold Group.loopsClosed
  cases hkd : o.kind with
  | loop n =>
    dsimp only
    rw [if_neg (by rw [Group.loops_clear]; have := hk n hkd; omega)]
    rw [if_neg (by simpa using hj)]
    obtain ⟨a, b, c⟩ := key _ rfl ((List.foldl (fun g n => g.setEntry n none) g (g.children i)).clearLoop (.loop n)) (fun m => rfl) rfl
      { o with member := (g.children i).foldl (fun m n => m ||| (g.path n).member) 0, exm := (g.children i).foldl (fun m n => m ||| (g.path n).exm) 0, state := .ready, kind := .none }
    refine ⟨a, b.trans ?_, c⟩
    show ((List.foldl (fun g n => g.setEntry n none) g (g.children i)).clearLoop (.loop n)).loops = _
    unfold Group.clearLoop
    dsimp only
    congr 1
    · exact Group.loops_clear ..
    · rw [Group.loops_clear]
  | _ =>
    dsimp only
    rw [if_neg (by simpa using hj)]
    obtain ⟨a, b, c⟩ := key _ rfl _ (fun m => rfl) rfl
      { o with member := (g.children i).foldl (fun m n => m ||| (g.path n).member) 0, exm := (g.children i).foldl (fun m n => m ||| (g.path n).exm) 0, state := .ready, kind := .none }
    exact ⟨a, b.trans (Group.loops_clear ..), c⟩
/-- A completing path that arrives at its join PC waits there or merges its scope (R85, R86). -/
theorem State.retire_joins {s : State} (d : Done) {p o : Path} {a : DWord} {j : Nat} (hsp : ∀ n, 8 ≤ n → s.me.path? n = none)
    (hp : s.me.path? s.me.cur = some p) (hst : p.state = .ready) (hpk : p.parked = none) (hcw : p.causeWaits = false) (hjn : p.join = some (pc56 a)) (hpar : p.parent = some j)
    (ho : s.me.path? j = some o) (hos : o.state = .joined) (hd : pc56 (d.target.getD (s.pc + 4)) = pc56 a) (hk : ∀ n, o.kind = .loop n → s.me.loops[n].count.toNat ≤ 1) :
    Joins s (s.retire d) j o (s.me.loopsClosed o.kind) := by
  obtain ⟨g, hret, hcur, hlo, ⟨q, hq, q1, q2, q3, q4, q5, q6, q7, q8⟩, hoth⟩ := State.retire_before d hp
  have hn := Group.path?_lt hp
  have hjc : j ≠ s.me.cur := fun e => by rw [e, hp] at ho; cases ho; rw [hst] at hos; cases hos
  let g2 := g.setEntry s.me.cur (some { q with pc := pc56 a, state := .waiting })
  have hgo : g.goto s.me.cur (d.target.getD (s.pc + 4)) = (Group.merge 72 j g2).refill 72 := by
    unfold Group.goto
    rw [hq]
    dsimp only
    rw [if_pos (by rw [q3, hjn, q5, hst, hd]; simp), hd]
    have hm : ∀ (x : Option Nat) (y : Group), x = some j → (match x with | none => y | some k => (Group.merge 72 k y).refill 72) = (Group.merge 72 j y).refill 72 := by
      rintro _ _ rfl; rfl
    exact hm _ _ (q4.trans hpar)
  have h2 : ∀ m, g2.path? m = if m = s.me.cur then some { q with pc := pc56 a, state := .waiting }
      else (s.me.path? m).map fun q => { q with yields := q.yields.filter (· != s.me.cur) } := fun m => by
    rw [Group.path?_setEntry _ _ _ _ hn]
    by_cases h : m = s.me.cur
    · rw [if_pos h, if_pos h]
    · rw [if_neg h, if_neg h, hoth m h]
  have hch : g2.children j = s.me.children j := Group.children_congr (fun n => by
    rw [h2]
    by_cases h : n = s.me.cur
    · rw [if_pos h, h, hp, Option.map_some, Option.map_some]; exact congrArg some q4
    · rw [if_neg h, Option.map_map]; rfl) j
  have hin : s.me.cur ∈ s.me.children j := Group.mem_children.mpr ⟨p, hp, hpar⟩
  have hcur2 : g2.cur = s.me.cur := (Group.setEntry_cur ..).trans hcur
  have hlo2 : g2.loops = s.me.loops := (Group.loops_setEntry ..).trans hlo
  let o2 : Path := { o with yields := o.yields.filter (· != s.me.cur) }
  have ho2 : g2.path? j = some o2 := by rw [h2, if_neg hjc, ho]; rfl
  have hsp2 : ∀ m, 8 ≤ m → g2.path? m = none := fun m h => by
    rw [h2, if_neg (fun e => by rw [← e, hsp m h] at hp; cases hp), hsp m h]; rfl
  have hw : g2.allWait j = true ↔ s.othersWait j := by
    unfold Group.allWait State.othersWait
    rw [hch, List.all_eq_true]
    constructor
    · intro h n hn hne
      obtain ⟨r, hr, -⟩ := Group.mem_children.mp hn
      have := h n hn
      unfold Group.path at this ⊢
      rw [h2, if_neg hne, hr] at this
      rw [hr]
      simpa [and_assoc] using this
    · intro h n hn
      obtain ⟨r, hr, -⟩ := Group.mem_children.mp hn
      unfold Group.path
      rw [h2]
      by_cases hne : n = s.me.cur
      · rw [if_pos hne]; simp [q7, q8, hpk, hcw]
      · rw [if_neg hne, hr]
        have := h n hn hne
        unfold Group.path at this
        rw [hr] at this
        simpa [and_assoc] using this
  have hme : (s.retire d).me = ((Group.merge 72 j g2).refill 72).refill 72 := by rw [hret, hgo]
  by_cases hall : g2.allWait j = true
  · refine ⟨fun ⟨n, hn, hne, hns⟩ => absurd ((hw.mp hall) n hn hne).1 hns, fun _ hj => ?_, fun hj => ?_⟩
    all_goals
      obtain ⟨hpath, hloops, hc⟩ := Group.merge_closes 71 ho2 hos (by rw [hch]; exact List.ne_nil_of_mem hin) hall hj (fun n e => by rw [hlo2]; exact hk n e)
      rw [hch] at hpath
      have hjn : j ∉ s.me.children j := fun h => by
        have := (hw.mp hall j h hjc).1
        unfold Group.path at this; rw [ho] at this; rw [show (some o).getD {} = o from rfl, hos] at this; cases this
      have hr := Group.refill_none 72 (Group.merge 72 j g2) fun m h => by
        rw [hpath, if_neg (fun e => by rw [hsp j (e ▸ h)] at ho; cases ho)]
        split
        · rfl
        · exact hsp2 m h
      have hme2 : (s.retire d).me = Group.merge 72 j g2 := by rw [hme, hr, hr]
    · have hj' := hpath j
      rw [if_pos rfl, show Group.merge (71 + 1) j g2 = (s.retire d).me from hme2.symm] at hj'
      refine ⟨fun n hn => by rw [hme2, hpath, if_neg (fun (e : n = j) => hjn (e ▸ hn)), if_pos hn], by rw [hme2]; exact hloops.trans (by
        unfold Group.loopsClosed Group.clearLoop
        show (match o.kind with | .loop n => _ | _ => g2 : Group).loops = _
        cases o.kind with
        | loop n => simp only [hlo2]
        | _ => exact hlo2), _, hj', rfl, rfl, rfl, rfl, ?_, ?_⟩
      · exact foldl_union _ _ _ (fun n hn => by
          unfold Group.path; rw [h2]
          by_cases h : n = s.me.cur
          · rw [if_pos h, h, hp]; exact q1
          · rw [if_neg h]; cases s.me.path? n <;> rfl) _
      · exact foldl_union _ _ _ (fun n hn => by
          unfold Group.path; rw [h2]
          by_cases h : n = s.me.cur
          · rw [if_pos h, h, hp]; exact q2
          · rw [if_neg h]; cases s.me.path? n <;> rfl) _
    · intro n hnj hnc
      rw [hme2, hpath, if_neg hnj, if_neg hnc, h2, if_neg (fun (e : n = s.me.cur) => hnc (by rw [e]; exact hin))]
  · have hm : Group.merge 72 j g2 = g2 := by
      unfold Group.merge
      rw [ho2]
      dsimp only
      rw [if_neg (by show ¬ (o.state != .joined) = true; simp [hos]), if_neg (by rw [hch]; exact List.ne_nil_of_mem hin), if_pos (by simpa using hall)]
    have hr := Group.refill_none 72 g2 hsp2
    have hme2 : (s.retire d).me = g2 := by rw [hme, hm, hr, hr]
    refine ⟨fun _ => ?_, fun h => absurd (hw.mpr h) hall, fun _ n hnj hnc => by rw [hme2, h2, if_neg (fun (e : n = s.me.cur) => hnc (by rw [e]; exact hin))]⟩
    have hpath : (s.retire d).path = { q with pc := pc56 a, state := .waiting } := by
      unfold State.path Group.path
      rw [hme2, hcur2, h2, if_pos rfl]; rfl
    have hpp : s.path = p := by unfold State.path Group.path; rw [hp]; rfl
    refine ⟨by rw [hme2, hcur2], by rw [hme2, hlo2], by rw [hpath], by rw [hpp, hjn]; unfold State.pc; rw [hpath], by rw [hpath, hpp]; exact q1, by rw [hpath, hpp]; exact q2, ?_⟩
    unfold Group.path; rw [hme2, ho2]; exact hos
/-- Clause 1 of what `Obligations.ControlTransfers` says. -/
theorem controlTransfers_1 : ∀ s w, s.clear true [] = true → ∃ t, exec (.nop w) s = .next t ∧ Moves s t (s.pc + 4) := fun s w hc =>
  ⟨_, congrArg (fun x => (Host.Outcome.next x : Out)) (State.once_own rfl hc (by simp)), s.retire_moves _⟩
/-- Clause 2 of what `Obligations.ControlTransfers` says. -/
theorem controlTransfers_2 : ∀ s i, s.clear true [] = true → ∃ t, exec (.jmp i) s = .next t ∧ Moves s t (s.pc + i.signExtend 64 * 4) := fun s i hc =>
  ⟨_, congrArg (fun x => (Host.Outcome.next x : Out)) (State.checked_own rfl hc (by simp)), State.branch_moves s true i⟩
/-- Clause 3 of what `Obligations.ControlTransfers` says. -/
theorem controlTransfers_3 : ∀ s n p i, testOk n p = true → s.clear true (testUse p) = true →
      ∃ t, exec (.brany n p i) s = .next t ∧ Moves s t (if s.testLanes n p = 0 then s.pc + 4 else s.pc + i.signExtend 64 * 4) := fun s n p i hl hc => by
  refine ⟨_, congrArg (fun x => (Host.Outcome.next x : Out)) (State.checked_own hl hc (testUse_plain p)), ?_⟩
  have := State.branch_moves s (s.testLanes n p != 0) i
  by_cases h : s.testLanes n p = 0 <;> simpa [h] using this
/-- Clause 4 of what `Obligations.ControlTransfers` says. -/
theorem controlTransfers_4 : ∀ s n p i, testOk n p = true → s.clear true (testUse p) = true →
      ∃ t, exec (.brall n p i) s = .next t ∧ Moves s t (if s.testLanes n p = s.exm then s.pc + i.signExtend 64 * 4 else s.pc + 4) := fun s n p i hl hc => by
  refine ⟨_, congrArg (fun x => (Host.Outcome.next x : Out)) (State.checked_own hl hc (testUse_plain p)), ?_⟩
  have := State.branch_moves s (s.testLanes n p == s.exm) i
  by_cases h : s.testLanes n p = s.exm <;> simpa [h] using this
/-- Clause 5 of what `Obligations.ControlTransfers` says. -/
theorem controlTransfers_5 : ∀ s c i, s.clear true [.cmBit c.toNat] = true →
      ∃ t, exec (.brc c i) s = .next t ∧ Moves s t (if s.cmNow.getLsbD c.toNat then s.pc + i.signExtend 64 * 4 else s.pc + 4) := fun s c i hc =>
  ⟨_, congrArg (fun x => (Host.Outcome.next x : Out)) (State.checked_own rfl hc (by simp [Use.isVector])), State.branch_moves s _ i⟩
/-- Clause 6 of what `Obligations.ControlTransfers` says. -/
theorem controlTransfers_6 : ∀ s n p i, testOk n p = true → s.clear true (testUse p) = true → s.testLanes n p = 0 ∨ s.testLanes n p = s.path.member →
      ∃ t, exec (.bra n p i) s = .next t ∧ Moves s t (if s.testLanes n p = 0 then s.pc + 4 else s.pc + i.signExtend 64 * 4) := fun s n p i hl hc h => by
  refine ⟨_, congrArg (fun x => (Host.Outcome.next x : Out)) (State.checked_own hl hc (testUse_plain p)), ?_⟩
  dsimp only
  by_cases h0 : s.testLanes n p = 0
  · rw [if_pos h0, if_pos h0]; exact State.branch_moves s false i
  · rw [if_neg h0, if_neg h0, if_pos (h.resolve_left h0)]; exact State.branch_moves s true i
/-- Clause 7 of what `Obligations.ControlTransfers` says. -/
theorem controlTransfers_7 : ∀ s n p i q, testOk n p = true → s.clear true (testUse p) = true → s.testLanes n p ≠ 0 → s.testLanes n p ≠ s.path.member → s.unspilled →
      s.me.freeEntries.head? = some q → q < 8 → s.path.join ≠ some (pc56 (s.pc + i.signExtend 64 * 4)) → s.path.join ≠ some (pc56 (s.pc + 4)) →
      ∃ t c o, exec (.bra n p i) s = .next t ∧ Kept s t ∧ t.me.path? q = some c ∧ t.me.path? s.me.cur = some o
        ∧ c.pc = pc56 (s.pc + i.signExtend 64 * 4) ∧ c.member = s.testLanes n p ∧ c.exm = s.testLanes n p ∧ c.join = s.path.join ∧ c.parent = s.path.parent ∧ c.state = .ready
        ∧ t.me.cur = s.me.cur ∧ o.join = s.path.join ∧ o.parent = s.path.parent
        ∧ o.pc = pc56 (s.pc + 4) ∧ o.member = s.path.member &&& ~~~s.testLanes n p ∧ o.exm = s.exm &&& ~~~s.testLanes n p := by
  intro s n p i q hl hc h0 hm hu hq h8 hj hj4
  obtain ⟨hsp, hcur⟩ := hu
  obtain ⟨P, hP⟩ := Option.isSome_iff_exists.mp hcur
  have hPath : s.path = P := by unfold State.path Group.path; rw [hP]; rfl
  have hq0 := Group.freeEntries_none hq
  have hne : s.me.cur ≠ q := fun e => by rw [← e, hP] at hq0; cases hq0
  have hi := Group.path?_lt hP
  have hfree : ∃ r, s.me.freeEntries = q :: r := by
    cases hf : s.me.freeEntries with
    | nil => rw [hf] at hq; cases hq
    | cons a r => rw [hf] at hq; cases hq; exact ⟨r, rfl⟩
  obtain ⟨r, hfree⟩ := hfree
  let child : Path := { pc := s.jTarget i, member := s.testLanes n p, exm := s.testLanes n p, join := s.path.join, parent := s.path.parent, notBefore := s.now + 3 }
  let s1 := (s.setPath fun P => { P with member := P.member &&& ~~~s.testLanes n p, exm := s.exm &&& ~~~s.testLanes n p }).withMe fun g => ((g.dropEXM g.cur).addPath q child).goto q (s.jTarget i)
  have hex : exec (.bra n p i) s = .next (s1.retire {}) := by
    refine congrArg (fun x => (Host.Outcome.next x : Out)) ((State.checked_own hl hc (testUse_plain p)).trans ?_)
    dsimp only
    rw [if_neg h0, if_neg hm, hfree]
  -- paths of s1
  let g0 := s.me.setPath s.me.cur fun P => { P with member := P.member &&& ~~~s.testLanes n p, exm := s.exm &&& ~~~s.testLanes n p }
  let g1 := g0.dropEXM g0.cur
  have hg1 : ∀ m, g1.path? m = if m = s.me.cur then some { P with member := P.member &&& ~~~s.testLanes n p, exm := s.exm &&& ~~~s.testLanes n p } else s.me.path? m := by
    intro m
    show Group.path? (s.me.setPath s.me.cur _) m = _
    rw [Group.path?_setPath]
    by_cases h : m = s.me.cur
    · subst h; rw [if_pos rfl, if_pos rfl, hP]; rfl
    · rw [if_neg h, if_neg h]
  have hadd : ∀ m, (g1.addPath q child).path? m = if m = q then some child else g1.path? m := fun m => Group.path?_addPath g1 q m child h8
  have hgo : (g1.addPath q child).goto q (s.jTarget i) = (g1.addPath q child).setEntry q (some { child with pc := pc56 (s.jTarget i) }) := by
    unfold Group.goto
    rw [hadd q, if_pos rfl]
    dsimp only
    rw [if_neg (by simp only [Bool.and_eq_true, decide_eq_true_eq, not_and]; intro h; exact absurd (show s.path.join = _ from h) (by rw [State.jTarget_eq, pc56_idem]; exact hj))]
  have hme1 : s1.me = (g1.addPath q child).setEntry q (some { child with pc := pc56 (s.jTarget i) }) := by
    show (g1.addPath q child).goto q (s.jTarget i) = _
    exact hgo
  have hs1 : ∀ m, s1.me.path? m = if m = q then some { child with pc := pc56 (s.jTarget i) } else g1.path? m := by
    intro m
    rw [hme1, Group.path?_setEntry _ _ _ _ (by omega)]
    by_cases h : m = q
    · rw [if_pos h, if_pos h]
    · rw [if_neg h, if_neg h, hadd, if_neg h]
  have hcur1 : s1.me.cur = s.me.cur := by rw [hme1]; simp [Group.addPath, Group.enter, h8, g1, g0, Group.dropEXM]
  have hsp1 : ∀ m, 8 ≤ m → s1.me.path? m = none := by
    intro m h
    rw [hs1, if_neg (by omega), hg1, if_neg (fun e => by rw [← e, hsp m h] at hP; cases hP)]; exact hsp m h
  obtain ⟨e1, ⟨o, e2, e3, e4, e5, e7, e8, -, -⟩, e6⟩ := State.retire_paths (s := s1) (d := {}) hsp1 (by rw [hcur1, hs1, if_neg hne, hg1, if_pos rfl])
    (by
      show P.join ≠ some (pc56 (s1.pc + 4))
      have : s1.pc = s.pc := by
        unfold State.pc State.path Group.path
        rw [hcur1, hs1, if_neg hne, hg1, if_pos rfl, hP]; rfl
      rw [this, ← hPath]; exact hj4)
  rw [hcur1] at e2
  have hpc : s1.pc = s.pc := by
    unfold State.pc State.path Group.path
    rw [hcur1, hs1, if_neg hne, hg1, if_pos rfl, hP]; rfl
  refine ⟨_, { child with pc := pc56 (s.jTarget i), yields := [] }, o, hex, ?_, ?_, e2, by show pc56 (s.jTarget i) = _; rw [State.jTarget_eq, pc56_idem], rfl, rfl, rfl, rfl, rfl,
    e1.trans hcur1, by rw [e7, hPath], by rw [e8, hPath], by rw [e3, hpc]; rfl, by rw [e4, hPath], by rw [e5]⟩
  · have hk := State.retire_kept s1 {}
    have hstill : s1.me.still = s.me.still := by rw [hme1, Group.still_setEntry, Group.still_addPath, Group.still_dropEXM]; exact Group.still_setPath ..
    have key : ∀ {α : Type} (F : Group → α), (∀ g : Group, F g.still = F g) → F s1.me = F s.me := fun F hF => by rw [← hF, hstill, hF]
    have ho : s1.others = s.others := rfl
    exact ⟨hk.1.trans (key Group.s fun _ => rfl), hk.2.trans (key Group.v fun _ => rfl), hk.3.trans (key Group.p fun _ => rfl), hk.4.trans (key Group.cm fun _ => rfl),
      hk.5.trans (key Group.fpsf fun _ => rfl), hk.6.trans (key Group.gstat fun _ => rfl), hk.7.trans (key Group.laneCtr fun _ => rfl),
      hk.8.trans (key Group.scalarCtr fun _ => rfl), hk.9.trans (Group.special_of_still hstill), hk.10.trans ho, State.sameMemory_of_others (hk.10.trans ho)⟩
  · rw [e6 q (by rw [hcur1]; exact Ne.symm hne), hs1, if_pos rfl]; rfl
/-- Clause 8 of what `Obligations.ControlTransfers` says. -/
theorem controlTransfers_8 : ∀ s w, (s.scopeKind == .call) = true → s.clear true [] = true → ∃ t, exec (.ret w) s = .next t ∧ Kept s t
      ∧ ∀ a j o, s.unspilled → s.path.state = .ready → s.path.parked = none → s.path.causeWaits = false → s.path.join = some (pc56 a) → s.path.parent = some j →
        s.me.path? j = some o → o.state = .joined → Joins s t j o s.me.loops := fun s w hl hc => by
  refine ⟨_, congrArg (fun x => (Host.Outcome.next x : Out)) (State.checked_own hl hc (by simp)), s.retire_kept _, ?_⟩
  rintro a j o ⟨hsp, hcur⟩ h1 h2 h3 h4 h5 ho hos
  obtain ⟨P, hP⟩ := Option.isSome_iff_exists.mp hcur
  have hPath : s.path = P := by unfold State.path Group.path; rw [hP]; rfl
  have hk : o.kind = .call := by
    have := hl
    unfold State.scopeKind Group.path at this
    rw [h5] at this
    simpa [ho] using this
  have := State.retire_joins { stall := stallOf w, target := s.path.join, moved := true } hsp hP (hPath ▸ h1) (hPath ▸ h2) (hPath ▸ h3) (hPath ▸ h4) (hPath ▸ h5) ho hos
    (by rw [h4]; exact pc56_idem _) (fun n e => by rw [hk] at e; cases e)
  unfold Group.loopsClosed Group.clearLoop at this
  rw [hk] at this
  exact this
/-- Clause 9 of what `Obligations.ControlTransfers` says. -/
theorem controlTransfers_9 : ∀ s c k, loopNo c.toNat = some k → (s.me.loops[k].active && s.scopeKind == .loop k) = true → s.clear true [] = true →
      ∃ t, exec (.leave c) s = .next t ∧ Kept s t
      ∧ ∀ a j o, s.unspilled → s.path.state = .ready → s.path.parked = none → s.path.causeWaits = false → s.path.join = some (pc56 a) → s.path.parent = some j →
        s.me.path? j = some o → o.state = .joined → Joins (s.withMe fun g => { g with loops := g.loops.set k { g.loops[k] with count := 1 } }) t j o
          (s.me.loops.set k { s.me.loops[k] with count := 0, active := false }) := fun s c k hk hl hc => by
  refine ⟨(s.withMe fun g => { g with loops := g.loops.set k { g.loops[k] with count := 1 } }).retire { target := s.path.join, moved := true }, ?_, ?_, ?_⟩
  · have : exec (.leave c) s = .next (match loopNo c.toNat with
      | none => s.illopU
      | some k => s.checked (s.me.loops[k].active && s.scopeKind == .loop k) true [] fun s =>
        (s.withMe fun g => { g with loops := g.loops.set k { g.loops[k] with count := 1 } }).retire { target := s.path.join, moved := true }) := rfl
    rw [this, hk]
    exact congrArg Host.Outcome.next (State.checked_own hl hc (by simp))
  · exact Kept.loops (f := fun g => g.loops.set k { g.loops[k] with count := 1 }) (State.retire_kept _ _)
  · rintro a j o ⟨hsp, hcur⟩ h1 h2 h3 h4 h5 ho hos
    obtain ⟨P, hP⟩ := Option.isSome_iff_exists.mp hcur
    have hPath : s.path = P := by unfold State.path Group.path; rw [hP]; rfl
    have hkd : o.kind = .loop k := by
      have := hl
      simp only [Bool.and_eq_true] at this
      have := this.2
      unfold State.scopeKind Group.path at this
      rw [h5] at this
      simpa [ho] using this
    have := State.retire_joins (s := s.withMe fun g => { g with loops := g.loops.set k { g.loops[k] with count := 1 } }) { target := s.path.join, moved := true } hsp hP
      (hPath ▸ h1) (hPath ▸ h2) (hPath ▸ h3) (hPath ▸ h4) (hPath ▸ h5) ho hos (by rw [h4]; exact pc56_idem _) (fun n e => by
        rw [hkd] at e; cases e
        show ((s.me.loops.set k _)[k]).count.toNat ≤ 1
        simp)
    unfold Group.loopsClosed Group.clearLoop at this
    rw [hkd] at this
    have e : ((s.withMe fun g => { g with loops := g.loops.set k { g.loops[k] with count := 1 } }).me.loops.set k
        { (s.withMe fun g => { g with loops := g.loops.set k { g.loops[k] with count := 1 } }).me.loops[k] with count := 0, active := false })
        = s.me.loops.set k { s.me.loops[k] with count := 0, active := false } := by
      show (s.me.loops.set k _).set k _ = _
      simp
    rw [← e]; exact this
/-- Clause 10 of what `Obligations.ControlTransfers` says. -/
theorem controlTransfers_10 : ∀ s w, s.clear true [] = true → ∃ t, exec (.yield w) s = .next t ∧ Moves s t (s.pc + 4) ∧ t.me.yielded = true ∧ t.me.busyFrom = s.now ∧ t.me.busyTo = s.now
      ∧ (s.unspilled → s.path.join ≠ some (pc56 (s.pc + 4)) →
        t.path.yields = s.me.entries.filter fun n => n != s.me.cur && decide (n < 8) && (s.me.path n).canIssue) := fun s w hc => by
  refine ⟨_, congrArg (fun x => (Host.Outcome.next x : Out)) (State.checked_own rfl hc (by simp)),
    ⟨(s.retire_kept { stall := stallOf w }).trans (State.yield_kept _ _ _), ?_⟩, rfl, ?_, ?_, ?_⟩
  · rintro h1 h2
    have := s.retire_goes { stall := stallOf w } h1 h2
    refine ⟨(Group.setPath_cur ..).trans this.1, ?_⟩
    have h3 := this.2
    have h4 : (((s.retire { stall := stallOf w }).me.path? (s.retire { stall := stallOf w }).me.cur).getD {}).pc = pc56 (s.pc + 4) := h3
    unfold State.pc
    show ((Group.path? (Group.setPath (s.retire { stall := stallOf w }).me s.me.cur _) (Group.cur (Group.setPath (s.retire { stall := stallOf w }).me s.me.cur _))).getD {}).pc = _
    rw [Group.setPath_cur, Group.path?_setPath]
    split
    · rename_i e; rw [← e]; cases hx : (s.retire { stall := stallOf w }).me.path? (s.retire { stall := stallOf w }).me.cur <;> rw [hx] at h4 <;> exact h4
    · exact h4
  · show Group.busyFrom (Group.setPath _ _ _) = _
    rw [← show ∀ g : Group, g.still.busyFrom = g.busyFrom from fun _ => rfl, Group.still_setPath, State.retire_still]; rfl
  · show Group.busyTo (Group.setPath _ _ _) = _
    rw [← show ∀ g : Group, g.still.busyTo = g.busyTo from fun _ => rfl, Group.still_setPath, State.retire_still]
    show s.now + (1 + 0) - 1 = s.now
    omega
  · rintro ⟨hsp, hcur⟩ hj
    obtain ⟨P, hP⟩ := Option.isSome_iff_exists.mp hcur
    have hPath : s.path = P := by unfold State.path Group.path; rw [hP]; rfl
    obtain ⟨e1, ⟨o, e2, -⟩, -⟩ := State.retire_paths (d := { stall := stallOf w }) hsp hP (hPath ▸ hj)
    unfold State.path Group.path
    show ((Group.path? (Group.setPath (s.retire { stall := stallOf w }).me s.me.cur _) (Group.cur (Group.setPath (s.retire { stall := stallOf w }).me s.me.cur _))).getD {}).yields = _
    rw [Group.setPath_cur, Group.path?_setPath, e1, if_pos rfl, e2]
    rfl
theorem sext18 (i : BitVec 18) : sext 18 i.toNat = i.signExtend 64 := by
  have h := i.isLt
  apply BitVec.eq_of_toNat_eq
  unfold sext
  rw [Nat.mod_eq_of_lt h, BitVec.toNat_signExtend, BitVec.msb_eq_decide]
  by_cases hm : i.toNat < 2 ^ (18 - 1)
  · have : ¬ 2 ^ (18 - 1) ≤ i.toNat := by omega
    simp only [hm, this, if_true, if_false, decide_false, Bool.false_eq_true]
    simp only [BitVec.toNat_ofNat, BitVec.toNat_setWidth]; omega
  · have : 2 ^ (18 - 1) ≤ i.toNat := by omega
    simp only [hm, this, if_true, if_false, decide_true]
    simp only [BitVec.toNat_ofNat, BitVec.toNat_setWidth]; omega
theorem target_eq (s : State) (i : BitVec 18) : s.jTarget i = pc56 (s.pc + i.signExtend 64 * 4) := by
  unfold State.jTarget
  rw [sext18, BitVec.shiftLeft_eq_mul_twoPow]; rfl
theorem branch_moves (s : State) (c : Bool) (i : BitVec 18) : Moves s (s.branch c i) (if c then s.pc + i.signExtend 64 * 4 else s.pc + 4) := by
  unfold State.branch
  cases c
  · exact s.retire_moves {}
  · exact (s.retire_moves _).congr (by show pc56 (s.jTarget i) = _; rw [target_eq, pc56_idem]; rfl)
theorem j_idem (s : State) (i : BitVec 18) : pc56 (s.jTarget i) = s.jTarget i := pc56_idem _
/-- Clause 1 of what `Obligations.ScopesCallsAndLoops` says. -/
theorem scopesCallsAndLoops_1 : ∀ s i q, s.clear true [.exm] = true → s.unspilled → s.me.freeEntries.head? = some q → q < 8 → pc56 (s.pc + 4) ≠ s.jTarget i →
      ∃ t, exec (.jpt i) s = .next t ∧ Opens s t q s.path.member s.exm .plain (pc56 (s.pc + 4)) (s.jTarget i) := by
  intro s i q hc hu hq h8 hj
  obtain ⟨r, hf⟩ := head_of hq
  have h0 := Group.freeEntries_none hq
  refine ⟨s.openScope q .plain (pc56 (s.pc + 4)) (s.jTarget i), next_of ((State.checked_own rfl hc (by simp [Use.isVector])).trans ?_), ?_⟩
  · simp only [hf]
  · exact (State.openScope_opens hu h0 h8 (by rw [pc56_idem]; exact hj) (pc56_idem _)).1
/-- Clause 2 of what `Obligations.ScopesCallsAndLoops` says. -/
theorem scopesCallsAndLoops_2 : ∀ s n p i, testOk n p = true → s.clear true (testUse p) = true → s.testLanes n p = 0 → ∃ t, exec (.call n p i) s = .next t ∧ Moves s t (s.pc + 4) := by
  intro s n p i hl hc h0
  refine ⟨_, next_of ((State.checked_own hl hc (testUse_plain p)).trans ?_), s.retire_moves {}⟩
  unfold State.callTo
  simp only [h0, if_true]
theorem call_all {s : State} {tk : LaneMask} {t : DWord} {q : Nat} (h0 : tk ≠ 0) (hr : s.path.member &&& ~~~tk = 0) (hu : s.unspilled) (hq : s.me.freeEntries.head? = some q)
    (h8 : q < 8) (ht : pc56 t = t) (hj : t ≠ pc56 (s.pc + 4)) : Opens s (s.callTo tk t) q tk tk .call t (pc56 (s.pc + 4)) := by
  obtain ⟨r, hf⟩ := head_of hq
  have hn := Group.freeEntries_none hq
  refine (State.opens_of (child := { pc := t, member := tk, exm := tk, join := some (pc56 (s.pc + 4)), parent := some s.me.cur, notBefore := s.now + 3 }) hu hn h8 (by rw [ht]; exact hj) ht
    rfl rfl rfl ?_).1
  unfold State.callTo
  simp only [if_neg h0, hf, hr, decide_true]
/-- Clause 3 of what `Obligations.ScopesCallsAndLoops` says. -/
theorem scopesCallsAndLoops_3 : ∀ s n p i q, testOk n p = true → s.clear true (testUse p) = true → s.testLanes n p ≠ 0 → s.path.member &&& ~~~s.testLanes n p = 0 → s.unspilled →
      s.me.freeEntries.head? = some q → q < 8 → s.jTarget i ≠ pc56 (s.pc + 4) →
      ∃ t, exec (.call n p i) s = .next t ∧ Opens s t q (s.testLanes n p) (s.testLanes n p) .call (s.jTarget i) (pc56 (s.pc + 4)) :=
  fun s n p i q hl hc h0 hr hu hq h8 hj => ⟨_, next_of (State.checked_own hl hc (testUse_plain p)), call_all h0 hr hu hq h8 (j_idem s i) hj⟩
/-- Clause 5 of what `Obligations.ScopesCallsAndLoops` says. -/
theorem scopesCallsAndLoops_5 : ∀ s a w q, even a = true → s.clear true [.exm, .s a.toNat, .s (a.toNat + 1)] = true → bits (s.rpair a.toNat) 56 8 = 0 → bits (s.rpair a.toNat) 0 2 = 0 →
      s.exm ≠ 0 → s.path.member &&& ~~~s.exm = 0 → s.unspilled → s.me.freeEntries.head? = some q → q < 8 → s.rpair a.toNat ≠ pc56 (s.pc + 4) →
      ∃ t, exec (.calli a w) s = .next t ∧ Opens s t q s.exm s.exm .call (s.rpair a.toNat) (pc56 (s.pc + 4)) := by
  intro s a w q hl hc hh hlo h0 hr hu hq h8 hj
  have ht : pc56 (s.rpair a.toNat) = s.rpair a.toNat := by
    apply BitVec.eq_of_toNat_eq
    rw [pc56_toNat]
    generalize hx : s.rpair a.toNat = x at hh
    have hlt : x.toNat < 2 ^ 56 := by
      have hb : (BitVec.toNat x / 2 ^ 56) % 2 ^ 8 = 0 := hh

      have := x.isLt
      omega
    exact Nat.mod_eq_of_lt hlt
  refine ⟨_, next_of ((State.checked_own hl hc (by simp [Use.isVector])).trans ?_), (call_all h0 hr hu hq h8 ht hj).slow (stallOf w)⟩
  simp only [hh, hlo, ne_eq, not_true, if_false]
theorem loop_opens {s : State} {n : Fin 3} {c : Word} {len q : Nat} (hlen : len < 1024) (h0 : c ≠ 0) (hu : s.unspilled) (hq : s.me.freeEntries.head? = some q) (h8 : q < 8) :
    (s.loopOn n c (len + 1)).me.loops[n] = { count := c, start := pc56 (s.pc + 4), len := BitVec.ofNat 11 len, active := true }
        ∧ Opens s (s.loopOn n c (len + 1)) q s.path.member s.exm (.loop n) (pc56 (s.pc + 4)) (pc56 (pc56 (s.pc + 4) + BitVec.ofNat 64 (4 * (len + 1)))) := by
  obtain ⟨r, hf⟩ := head_of hq
  have hn := Group.freeEntries_none hq
  let f : Group → Vector LoopCtr 3 := fun g => g.loops.set n { count := c, start := pc56 (s.pc + 4), len := BitVec.ofNat 11 len, active := true }
  let s1 := s.withMe fun g => { g with loops := f g }
  have he : s.loopOn n c (len + 1) = s1.openScope q (.loop n) (pc56 (s.pc + 4)) (pc56 (pc56 (s.pc + 4) + BitVec.ofNat 64 (4 * (len + 1)))) := by
    unfold State.loopOn
    simp only [if_neg h0, hf]
    rfl
  have ho := State.openScope_opens (s := s1) (q := q) (kind := .loop n) (start := pc56 (s.pc + 4)) (join := pc56 (pc56 (s.pc + 4) + BitVec.ofNat 64 (4 * (len + 1))))
    hu hn h8 (by rw [pc56_idem]; exact loop_ne _ _ hlen) (pc56_idem _)
  rw [he]
  refine ⟨?_, Opens.loops (f := f) ho.1⟩
  have : (s1.openScope q (.loop n) (pc56 (s.pc + 4)) (pc56 (pc56 (s.pc + 4) + BitVec.ofNat 64 (4 * (len + 1))))).me.loops = f s.me := ho.2
  rw [this]
  simp [f]
/-- Clause 6 of what `Obligations.ScopesCallsAndLoops` says. -/
theorem scopesCallsAndLoops_6 : ∀ s d a i n q, loopNo d.toNat = some n → (small i 1024 && !s.me.loops[n].active) = true → s.clear true [.exm, .s a.toNat] = true → s.rs a.toNat ≠ 0 →
      s.unspilled → s.me.freeEntries.head? = some q → q < 8 →
      ∃ t, exec (.loop d a i) s = .next t ∧ t.me.loops[n] = { count := s.rs a.toNat, start := pc56 (s.pc + 4), len := BitVec.ofNat 11 i.toNat, active := true }
        ∧ Opens s t q s.path.member s.exm (.loop n) (pc56 (s.pc + 4)) (pc56 (pc56 (s.pc + 4) + BitVec.ofNat 64 (4 * (i.toNat + 1)))) := by
  intro s d a i n q hd hl hc h0 hu hq h8
  have hi : i.toNat < 1024 := by
    have := (Bool.and_eq_true_iff.mp hl).1
    simpa [small] using this
  refine ⟨_, ?_, loop_opens hi h0 hu hq h8⟩
  have : exec (.loop d a i) s = .next (match loopNo d.toNat with
    | none => s.illopU
    | some n => s.checked (small i 1024 && !s.me.loops[n].active) true [.exm, .s a.toNat] fun s => s.loopOn n (s.rs a.toNat) (i.toNat + 1)) := rfl
  rw [this, hd]
  exact next_of (State.checked_own hl hc (by simp [Use.isVector]))
/-- Clause 7 of what `Obligations.ScopesCallsAndLoops` says. -/
theorem scopesCallsAndLoops_7 : ∀ s d a i n, loopNo d.toNat = some n → (small i 1024 && !s.me.loops[n].active) = true → s.clear true [.exm, .s a.toNat] = true → s.rs a.toNat = 0 →
      ∃ t, exec (.loop d a i) s = .next t ∧ Moves s t (pc56 (s.pc + 4) + BitVec.ofNat 64 (4 * (i.toNat + 1))) := by
  intro s d a i n hd hl hc h0
  have : exec (.loop d a i) s = .next (match loopNo d.toNat with
    | none => s.illopU
    | some n => s.checked (small i 1024 && !s.me.loops[n].active) true [.exm, .s a.toNat] fun s => s.loopOn n (s.rs a.toNat) (i.toNat + 1)) := rfl
  rw [this, hd]
  refine ⟨_, next_of ((State.checked_own hl hc (by simp [Use.isVector])).trans ?_), (s.retire_moves { target := some (pc56 (pc56 (s.pc + 4) + BitVec.ofNat 64 (4 * (i.toNat + 1)))), moved := true }).congr (pc56_idem _)⟩
  unfold State.loopOn
  simp only [h0, if_true]
/-- Clause 8 of what `Obligations.ScopesCallsAndLoops` says. -/
theorem scopesCallsAndLoops_8 : ∀ s c l m n q, loopNo c.toNat = some n → s.me.loops[n].active = false → s.clear true [.exm] = true → m ≠ 0 →
      s.unspilled → s.me.freeEntries.head? = some q → q < 8 →
      ∃ t, exec (.loopk c l m) s = .next t ∧ t.me.loops[n] = { count := m.setWidth 32, start := pc56 (s.pc + 4), len := BitVec.ofNat 11 l.toNat, active := true }
        ∧ Opens s t q s.path.member s.exm (.loop n) (pc56 (s.pc + 4)) (pc56 (pc56 (s.pc + 4) + BitVec.ofNat 64 (4 * (l.toNat + 1)))) := by
  intro s c l m n q hd hl hc h0 hu hq h8
  have hm : m.setWidth 32 ≠ 0 := by
    intro h
    apply h0
    have := congrArg BitVec.toNat h
    have hlt := m.isLt
    rw [BitVec.toNat_setWidth] at this
    apply BitVec.eq_of_toNat_eq
    simp at this ⊢; omega
  refine ⟨_, ?_, loop_opens (by have := l.isLt; omega) hm hu hq h8⟩
  have : exec (.loopk c l m) s = .next (match loopNo c.toNat with
    | none => s.illopU
    | some k => s.checked (!s.me.loops[k].active) true [.exm] fun s => s.loopOn k (m.setWidth 32) (l.toNat + 1)) := rfl
  rw [this, hd]
  exact next_of (State.checked_own (by rw [hl]; rfl) hc (by simp [Use.isVector]))
/-- Clause 4 of what `Obligations.ScopesCallsAndLoops` says. -/
theorem scopesCallsAndLoops_4 : ∀ s n p i q k r, testOk n p = true → s.clear true (testUse p) = true → s.testLanes n p ≠ 0 → s.path.member &&& ~~~s.testLanes n p ≠ 0 → s.unspilled →
      s.me.freeEntries = q :: k :: r → k < 8 → s.jTarget i ≠ pc56 (s.pc + 4) →
      ∃ t c w o, exec (.call n p i) s = .next t ∧ Kept s t ∧ t.me.path? q = some c ∧ t.me.path? k = some w ∧ t.me.path? s.me.cur = some o
        ∧ c.pc = s.jTarget i ∧ c.member = s.testLanes n p ∧ c.exm = s.testLanes n p ∧ c.join = some (pc56 (s.pc + 4)) ∧ c.parent = some s.me.cur
        ∧ w.pc = pc56 (s.pc + 4) ∧ w.member = s.path.member &&& ~~~s.testLanes n p ∧ w.exm = s.exm &&& ~~~s.testLanes n p ∧ w.state = .waiting
        ∧ w.parent = some s.me.cur ∧ o.state = .joined ∧ o.kind = .call ∧ o.pc = pc56 (s.pc + 4) := by
  intro s n p i q k r hl hc h0 hr hu hf h8 hj
  obtain ⟨hsp, hcur⟩ := hu
  obtain ⟨P, hP⟩ := Option.isSome_iff_exists.mp hcur
  have hfilter : s.me.freeEntries.Pairwise (· < ·) := by
    unfold Group.freeEntries
    exact (List.pairwise_lt_range).filter _
  rw [hf] at hfilter
  have hqk : q < k := (List.pairwise_cons.mp hfilter).1 k (by simp)
  have hmem : ∀ m ∈ s.me.freeEntries, s.me.path? m = none := by
    intro m hm
    unfold Group.freeEntries at hm
    simp only [List.mem_filter, Option.isNone_iff_eq_none] at hm
    exact hm.2
  have hq0 := hmem q (by rw [hf]; simp)
  have hk0 := hmem k (by rw [hf]; simp)
  have hneq : s.me.cur ≠ q := fun e => by rw [← e, hP] at hq0; cases hq0
  have hnek : s.me.cur ≠ k := fun e => by rw [← e, hP] at hk0; cases hk0
  have hown := State.owner_path? hP fun p => { p with state := .joined, kind := .call, pc := pc56 (s.pc + 4) }
  generalize hg1 : (((s.count {}).charge {}).me.setPath s.me.cur fun p => { p with state := .joined, kind := .call, pc := pc56 (s.pc + 4) }) = g1 at hown
  let w : Path := { pc := pc56 (s.pc + 4), member := s.path.member &&& ~~~s.testLanes n p, exm := s.exm &&& ~~~s.testLanes n p, join := some (pc56 (s.pc + 4)), parent := some s.me.cur, state := .waiting }
  let c : Path := { pc := s.jTarget i, member := s.testLanes n p, exm := s.testLanes n p, join := some (pc56 (s.pc + 4)), parent := some s.me.cur, notBefore := s.now + 3 }
  have hex : exec (.call n p i) s = .next (((s.count {}).charge {}).withMe fun g =>
      ((((g.setPath s.me.cur fun p => { p with state := .joined, kind := .call, pc := pc56 (s.pc + 4) }).addPath k w).addPath q c).goto q (s.jTarget i)).refill 72) := by
    refine next_of ((State.checked_own hl hc (testUse_plain p)).trans ?_)
    unfold State.callTo
    simp only [if_neg h0, hf, hr, decide_false]
    rfl
  have hadd1 : ∀ m, (g1.addPath k w).path? m = if m = k then some w else g1.path? m := fun m => Group.path?_addPath g1 k m w h8
  have hadd : ∀ m, ((g1.addPath k w).addPath q c).path? m = if m = q then some c else (g1.addPath k w).path? m := fun m => Group.path?_addPath _ q m c (by omega)
  have hgo : ((g1.addPath k w).addPath q c).goto q (s.jTarget i) = ((g1.addPath k w).addPath q c).setEntry q (some { c with pc := pc56 (s.jTarget i) }) := by
    unfold Group.goto
    rw [hadd q, if_pos rfl]
    dsimp only
    rw [if_neg (by rw [j_idem]; simpa [c] using fun e => (hj e.symm).elim)]
  have hset : ∀ m, (((g1.addPath k w).addPath q c).setEntry q (some { c with pc := pc56 (s.jTarget i) })).path? m =
      if m = q then some { c with pc := pc56 (s.jTarget i) } else if m = k then some w else g1.path? m := by
    intro m
    rw [Group.path?_setEntry _ _ _ _ (by omega)]
    by_cases h : m = q
    · rw [if_pos h, if_pos h]
    · rw [if_neg h, if_neg h, hadd, if_neg h, hadd1]
  have hsp3 : ∀ n', 8 ≤ n' → (((g1.addPath k w).addPath q c).setEntry q (some { c with pc := pc56 (s.jTarget i) })).path? n' = none := by
    intro m hm
    rw [hset, if_neg (by omega), if_neg (by omega), hown]
    have : m ≠ s.me.cur := fun e => by rw [← e, hsp m hm] at hP; cases hP
    rw [if_neg this, hsp m hm]; rfl
  let t := ((s.count {}).charge {}).withMe fun g =>
      ((((g.setPath s.me.cur fun p => { p with state := .joined, kind := .call, pc := pc56 (s.pc + 4) }).addPath k w).addPath q c).goto q (s.jTarget i)).refill 72
  have hme : t.me = ((g1.addPath k w).addPath q c).setEntry q (some { c with pc := pc56 (s.jTarget i) }) := by
    show (((((((s.count {}).charge {}).me.setPath s.me.cur fun p => { p with state := .joined, kind := .call, pc := pc56 (s.pc + 4) }).addPath k w).addPath q c).goto q (s.jTarget i)).refill 72) = _
    rw [hg1, hgo, Group.refill_none _ _ hsp3]
  refine ⟨t, { c with pc := pc56 (s.jTarget i) }, w, _, hex, Kept.of_still ?_ ?_, by rw [hme, hset, if_pos rfl], by rw [hme, hset, if_neg (by omega), if_pos rfl],
    by rw [hme, hset, if_neg hneq, if_neg hnek, hown, if_pos rfl], j_idem s i, rfl, rfl, rfl, rfl, rfl, rfl, rfl, rfl, rfl, rfl, rfl, rfl⟩
  · rw [hme, Group.still_setEntry, Group.still_addPath, Group.still_addPath, ← hg1, Group.still_setPath]
  · show (((s.count {}).charge {}).withMe _).others = _
    simp
/-- Clause 1 of what `Obligations.ModeAndMasks` says. -/
theorem modeAndMasks_1 : ∀ s a w, modeLegal (s.rs a.toNat) = true → s.clear true [.s a.toNat] = true →
      ∃ t, exec (.mode a w) s = .next t ∧ Moves (s.withMe fun g => { g with mode := s.rs a.toNat }) t (s.pc + 4) := fun s a w hl hc =>
  ⟨_, next_of (State.checked_own hl hc (by simp [Use.isVector])), State.retire_moves _ _⟩
/-- Clause 2 of what `Obligations.ModeAndMasks` says. -/
theorem modeAndMasks_2 : ∀ s d i m, m = setBits s.me.mode (modeField d.toNat).1 (modeField d.toNat).2 i.toNat → (modefOk d i && modeLegal m) = true → s.clear true [] = true →
      ∃ t, exec (.modef d i) s = .next t ∧ Moves (s.withMe fun g => { g with mode := m }) t (s.pc + 4) := fun s d i m hm hl hc => by
  subst hm
  exact ⟨_, next_of (State.once_own hl hc (by simp)), State.retire_moves _ _⟩
/-- Clause 3 of what `Obligations.ModeAndMasks` says. -/
theorem modeAndMasks_3 : ∀ s d w, s.clear true [] = true →
      ∃ t, exec (.moderd d w) s = .next t ∧ Computed s t (s.scalarsWith [d.toNat] [s.me.mode]) s.me.vlane s.me.preg s.me.cm 0 [] (s.pc + 4) := fun s d w hc =>
  ⟨_, next_of (State.once_own rfl hc (by simp)), State.putAll_computed (ds := [d.toNat]) (ws := [s.me.mode]) (one_nodup _) rfl (by simp; exact d.isLt) (by simp) rfl⟩
/-- Clause 4 of what `Obligations.ModeAndMasks` says. -/
theorem modeAndMasks_4 : ∀ s d w, even d = true → s.clear true [.exm] = true →
      ∃ t, exec (.exmsv d w) s = .next t ∧
        Computed s t (s.scalarsWith [d.toNat, d.toNat + 1] [lo32 s.exm, hi32 s.exm]) s.me.vlane s.me.preg s.me.cm 0 [.exm] (s.pc + 4) := fun s d w hl hc =>
  ⟨_, next_of (State.once_own hl hc (by simp [Use.isVector])), State.putAll_computed (ds := [d.toNat, d.toNat + 1]) (ws := [_, _]) (pair_nodup _) rfl (even_lt hl) (by simp [Use.isVector]) rfl⟩
/-- Clause 5 of what `Obligations.ModeAndMasks` says. -/
theorem modeAndMasks_5 : ∀ s a w, even a = true → s.clear true [.s a.toNat, .s (a.toNat + 1)] = true →
      ∃ t, exec (.exmld a w) s = .next t ∧ Masks s t (s.rpair a.toNat &&& s.me.width.mask) := fun s a w hl hc =>
  ⟨_, next_of (State.once_own hl hc (by simp [Use.isVector])), State.masks_of _ _ _ _ rfl⟩
theorem bv_cases3 (f : BitVec 3) (h : small f 4 = true) : f = 0 ∨ f = 1 ∨ f = 2 ∨ f = 3 := by revert h; revert f; decide
/-- Clause 6 of what `Obligations.ModeAndMasks` says. -/
theorem modeAndMasks_6 : ∀ s a f m, m = s.rpair a.toNat &&& s.me.width.mask → (even a && small f 4) = true → s.clear true [.exm, .s a.toNat, .s (a.toNat + 1)] = true →
      ∃ t, exec (.exmcmb a f) s = .next t ∧
        Masks s t (if f = 0 then s.exm &&& m else if f = 1 then s.exm ||| m else if f = 2 then s.exm &&& ~~~m else s.exm ^^^ m) := fun s a f m hm hl hc => by
  subst hm
  refine ⟨_, next_of (State.once_own hl hc (by simp [Use.isVector])), ?_⟩
  rcases bv_cases3 f (Bool.and_eq_true_iff.mp hl).2 with rfl | rfl | rfl | rfl <;> exact State.masks_of _ _ _ _ rfl
/-- Clause 7 of what `Obligations.ModeAndMasks` says. -/
theorem modeAndMasks_7 : ∀ s a b w, (small a 12 && small b 2) = true → s.clear true [.exm, .p a.toNat] = true →
      ∃ t, exec (.exmp a b w) s = .next t ∧
        Masks s t (if b = 1 then s.exm &&& ~~~s.predWhole a.toNat else s.exm &&& s.predWhole a.toNat) := fun s a b w hl hc => by
  refine ⟨_, next_of (State.once_own hl hc (by simp [Use.isVector])), ?_⟩
  by_cases h : b = 1
  · subst h; exact State.masks_of _ _ _ _ rfl
  · simp only [h, if_false]; exact State.masks_of _ _ _ _ rfl
/-- Clause 8 of what `Obligations.ModeAndMasks` says. -/
theorem modeAndMasks_8 : ∀ s d u i, Computes (.idrd d u i) s u (rd u d && small i 15 && !(u && i == 0)) [] [d.toNat] [] 4 fun lane => ([s.ident i.toNat lane], 0) := by
  intro s d u i
  let c : Calc := { legal := rd u d && small i 15 && !(u && i == 0), u := u, uses := [], dests := [d.toNat], f := fun s lane => ([s.ident i.toNat lane], 0) }
  exact computes_of_calc (s := s) c (fun lane => ([s.ident i.toNat lane], 0)) rfl (one_nodup _) (fun hl => one_lt (by
      have hl : (rd u d && small i 15 && !(u && i == 0)) = true := hl
      simp only [Bool.and_eq_true] at hl; exact hl.1.1)) (fun _ => rfl)
    (fun k => State.seen_same (fun s => ([s.ident i.toNat k], 0)) (fun s a b => rfl) s _)
/-- Clause 1 of what `Obligations.PredicateAndFlagMoves` says. -/
theorem predicateAndFlagMoves_1 : ∀ s d a w, (even d && small a 12) = true → s.clear true [.p a.toNat] = true →
      ∃ t, exec (.ptos d a w) s = .next t ∧ Computed s t
        (s.scalarsWith [d.toNat, d.toNat + 1] [lo32 (s.predWhole a.toNat &&& s.me.width.mask), hi32 (s.predWhole a.toNat &&& s.me.width.mask)])
        s.me.vlane s.me.preg s.me.cm 0 [.p a.toNat] (s.pc + 4) := fun s d a w hl hc =>
  ⟨_, next_of (State.once_own hl hc (by simp [Use.isVector])), State.putAll_computed (ds := [d.toNat, d.toNat + 1]) (ws := [_, _]) (pair_nodup _) rfl
    (even_lt (Bool.and_eq_true_iff.mp hl).1) (by simp [Use.isVector]) rfl⟩
theorem special_setP (g : Group) (n : Nat) (x : LaneMask) : (g.setP n x).special = g.special := by unfold Group.setP; split <;> rfl
theorem small_lt {d : BitVec 6} {n : Nat} (h : small d n = true) : d.toNat < n := by simpa [small] using h
/-- Clause 2 of what `Obligations.PredicateAndFlagMoves` says. -/
theorem predicateAndFlagMoves_2 : ∀ s d a w, (small d 12 && even a) = true → s.clear true [.exm, .s a.toNat, .s (a.toNat + 1)] = true →
      ∃ t, exec (.pfroms d a w) s = .next t ∧ Computed s t s.me.sreg s.me.vlane (predsIn s.me.preg d.toNat s.exm (s.rpair a.toNat)) s.me.cm 0
        [.exm, .s a.toNat, .s (a.toNat + 1)] (s.pc + 4) := fun s d a w hl hc => by
  refine ⟨_, next_of (State.once_own hl hc (by simp [Use.isVector])), ?_⟩
  have hd := small_lt (Bool.and_eq_true_iff.mp hl).1
  refine State.retire_computed rfl (special_setP ..) (fun n => ?_) (fun n k => ?_) (fun n => ?_) ?_ ?_ ?_ ?_ ?_ ?_ rfl ?_ ?_
  · exact Group.sreg_congr (by simp [State.putP]) n
  · exact Group.vlane_congr (by simp [State.putP]) n k
  · show Group.preg (Group.setP _ _ _) n = _
    rw [Group.preg_setP _ _ _ _ hd]
    unfold predsIn
    by_cases h : n = d.toNat
    · rw [if_pos h, if_pos h, h]
    · rw [if_neg h, if_neg h]
  all_goals first | (rw [State.seen_none (by simp [Use.isVector])]; simp [State.putP]) | simp [State.putP]
/-- Clause 3 of what `Obligations.PredicateAndFlagMoves` says. -/
theorem predicateAndFlagMoves_3 : ∀ s d w, even d = true → s.clear true [.cm] = true →
      ∃ t, exec (.cmrd d w) s = .next t ∧
        Computed s t (s.scalarsWith [d.toNat, d.toNat + 1] [lo32 s.cmNow, hi32 s.cmNow]) s.me.vlane s.me.preg s.me.cm 0 [.cm] (s.pc + 4) := fun s d w hl hc =>
  ⟨_, next_of (State.once_own hl hc (by simp [Use.isVector])), State.putAll_computed (ds := [d.toNat, d.toNat + 1]) (ws := [_, _]) (pair_nodup _) rfl
    (even_lt hl) (by simp [Use.isVector]) rfl⟩
theorem cm_computed {s : State} {x : DWord} {lat : Nat} {uses : List Use} {d : Done} {next : DWord} (hv : ∀ x ∈ uses, x.isVector = false) (hn : d.target.getD (s.pc + 4) = next) :
    Computed s ((s.putCM x lat).retire d) s.me.sreg s.me.vlane s.me.preg x 0 uses next :=
  State.retire_computed rfl rfl (fun _ => rfl) (fun _ _ => rfl) (fun _ => rfl) rfl rfl (by rw [State.seen_none hv]; rfl) rfl rfl rfl hn rfl rfl
/-- Clause 4 of what `Obligations.PredicateAndFlagMoves` says. -/
theorem predicateAndFlagMoves_4 : ∀ s a w, even a = true → s.clear true [.s a.toNat, .s (a.toNat + 1)] = true →
      ∃ t, exec (.cmwr a w) s = .next t ∧
        Computed s t s.me.sreg s.me.vlane s.me.preg (s.rpair a.toNat) 0 [.s a.toNat, .s (a.toNat + 1)] (s.pc + 4) := fun s a w hl hc =>
  ⟨_, next_of (State.once_own hl hc (by simp [Use.isVector])), cm_computed (by simp [Use.isVector]) rfl⟩
/-- Clause 5 of what `Obligations.PredicateAndFlagMoves` says. -/
theorem predicateAndFlagMoves_5 : ∀ s d w, s.clear true [] = true →
      ∃ t, exec (.flagrd d 0 w) s = .next t ∧ Computed s t (s.scalarsWith [d.toNat] [s.me.fpsf]) s.me.vlane s.me.preg s.me.cm 0 [] (s.pc + 4) := fun s d w hc =>
  ⟨_, next_of (State.once_own rfl hc (by simp)), State.putAll_computed (ds := [d.toNat]) (ws := [s.me.fpsf]) (one_nodup _) rfl (by simp; exact d.isLt) (by simp) rfl⟩
/-- Clause 6 of what `Obligations.PredicateAndFlagMoves` says. -/
theorem predicateAndFlagMoves_6 : ∀ s d w, s.clear true [] = true →
      ∃ t, exec (.flagrd d 1 w) s = .next t ∧ t.me.fpsf = s.me.fpsf &&& 0xFFFFFF00 ∧
        Computed (s.withMe fun g => { g with fpsf := g.fpsf &&& 0xFFFFFF00 }) t (s.scalarsWith [d.toNat] [s.me.fpsf]) s.me.vlane s.me.preg s.me.cm 0 [] (s.pc + 4) := fun s d w hc => by
  refine ⟨_, next_of (State.once_own rfl hc (by simp)), ?_, ?_⟩
  · rw [State.retire_fpsf]; show Group.fpsf _ = _; simp [State.putS]
  · obtain ⟨a, b⟩ := State.putAll (1 + clsSIMPLE) [d.toNat] [s.me.fpsf] s (one_nodup _) rfl (by simp; exact d.isLt)
    have a : ScalarsOnly s (s.putS d.toNat s.me.fpsf (1 + clsSIMPLE)) := a
    refine State.retire_computed (s := s.withMe fun g => { g with fpsf := g.fpsf &&& 0xFFFFFF00 }) ?_ ?_ b ?_ ?_ ?_ ?_ ?_ ?_ ?_ ?_ rfl ?_ ?_
    · exact a.others
    · exact a.special
    · exact fun n k => Group.vlane_congr a.v n k
    · exact fun n => Group.preg_congr a.p n
    · exact a.cm
    · show (s.putS d.toNat s.me.fpsf (1 + clsSIMPLE)).me.fpsf &&& _ = s.me.fpsf &&& _; rw [a.fpsf]
    · exact a.gstat
    · exact a.mode
    · exact a.paths
    · exact a.cur
    · exact a.laneCtr
    · exact a.scalarCtr
theorem freeRows (l : List Nat) (g : Group) : (l.foldl (fun g n => g.setRow n none) g).special = g.special
      ∧ (l.foldl (fun g n => g.setRow n none) g).s = g.s ∧ (l.foldl (fun g n => g.setRow n none) g).p = g.p
      ∧ (l.foldl (fun g n => g.setRow n none) g).cm = g.cm ∧ (l.foldl (fun g n => g.setRow n none) g).fpsf = g.fpsf
      ∧ (l.foldl (fun g n => g.setRow n none) g).gstat = g.gstat ∧ (l.foldl (fun g n => g.setRow n none) g).mode = g.mode
      ∧ (l.foldl (fun g n => g.setRow n none) g).paths = g.paths ∧ (l.foldl (fun g n => g.setRow n none) g).cur = g.cur
      ∧ (l.foldl (fun g n => g.setRow n none) g).laneCtr = g.laneCtr
      ∧ (l.foldl (fun g n => g.setRow n none) g).scalarCtr = g.scalarCtr
      ∧ ∀ n, (l.foldl (fun g n => g.setRow n none) g).vrow n = if n ∈ l then none else g.vrow n := by
  induction l generalizing g with
  | nil => simp
  | cons d l ih =>
    obtain ⟨a, b, c, d1, e, f, h, i, j, k1, k2, q⟩ := ih (g.setRow d none)
    rw [List.foldl_cons]
    refine ⟨a.trans (Group.special_setRow ..), b.trans (by simp), c.trans (by simp), d1.trans (by simp), e.trans (by simp), f.trans (by simp),
      h.trans (by simp), i.trans (by simp), j.trans (by simp), k1.trans (by simp), k2.trans (by simp), fun n => ?_⟩
    rw [q n]
    by_cases hd : d < 48
    · rw [Group.vrow_setRow _ _ _ _ hd]
      by_cases hn : n = d
      · subst hn; simp
      · by_cases hl : n ∈ l <;> simp [hn, hl]
    · rw [Group.setRow_ge _ _ _ hd]
      by_cases hn : n = d
      · subst hn
        have : g.vrow n = none := by unfold Group.vrow; rw [Vector.getElem?_eq_none (Nat.le_of_not_lt hd)]; rfl
        simp [this]
      · by_cases hl : n ∈ l <;> simp [hn, hl]
/-- Clause 7 of what `Obligations.PredicateAndFlagMoves` says. -/
theorem predicateAndFlagMoves_7 : ∀ s a b w, (vr a && vr b && decide (a.toNat ≤ b.toNat)) = true → s.clear true [] = true →
      ∃ t, exec (.reln a b w) s = .next t ∧ (∀ n, t.me.vrow n = if a.toNat ≤ n ∧ n ≤ b.toNat then none else s.me.vrow n) ∧
        Computed s t s.me.sreg (fun n k => if a.toNat ≤ n ∧ n ≤ b.toNat then 0 else s.me.vlane n k) s.me.preg s.me.cm 0 [] (s.pc + 4) := fun s a b w hl hc => by
  refine ⟨_, next_of (State.once_own hl hc (by simp)), ?_⟩
  simp only [Bool.and_eq_true] at hl
  have hb := vr_lt hl.1.2
  obtain ⟨x1, x2, x3, x4, x5, x6, x7, x8, x9, x10, x11, q⟩ := freeRows ((List.range 48).filter fun n => decide (a.toNat ≤ n) && decide (n ≤ b.toNat)) s.me
  have hmem : ∀ n, (n ∈ (List.range 48).filter fun n => decide (a.toNat ≤ n) && decide (n ≤ b.toNat)) = (a.toNat ≤ n ∧ n ≤ b.toNat) := by
    intro n; simp only [List.mem_filter, List.mem_range, Bool.and_eq_true, decide_eq_true_eq, eq_iff_iff]; omega
  have hq : ∀ n, (s.withMe fun g => ((List.range 48).filter fun n => decide (a.toNat ≤ n) && decide (n ≤ b.toNat)).foldl (fun g n => g.setRow n none) g).me.vrow n
      = if a.toNat ≤ n ∧ n ≤ b.toNat then none else s.me.vrow n := by
    intro n
    exact (q n).trans (by simp only [hmem])
  refine ⟨fun n => ?_, ?_⟩
  · refine Eq.trans ?_ (hq n)
    unfold Group.vrow; rw [State.retire_v]
  · refine State.retire_computed rfl x1 (fun n => Group.sreg_congr x2 n) (fun n k => ?_) (fun n => Group.preg_congr x3 n) x4 x5 x6 x7 x8 x9 rfl x10 x11
    unfold Group.vlane
    rw [hq n]
    by_cases h : a.toNat ≤ n ∧ n ≤ b.toNat
    · rw [if_pos h, if_pos h]; rfl
    · rw [if_neg h, if_neg h]
theorem region_moves (s : State) (x : Option Region) (w : Nat) :
    Moves s ((s.withMe fun g => { g with region := x }).retire { stall := w }) (s.pc + 4) ∧
      (s.unspilled → s.path.join ≠ some (pc56 (s.pc + 4)) → ((s.withMe fun g => { g with region := x }).retire { stall := w }).me.region = x) := by
  generalize hr : (s.withMe fun g => { g with region := x }) = r
  have hp : r.me.paths = s.me.paths := by rw [← hr]; rfl
  have hc : r.me.cur = s.me.cur := by rw [← hr]; rfl
  have hpc : r.pc = s.pc := State.pc_congr hp hc
  have hm := r.retire_moves { stall := w }
  rw [hpc] at hm
  refine ⟨hm.from ?_ ?_ ?_ ?_ ?_ ?_ ?_ ?_ ?_ ?_ (State.goesTo_congr hp hc hm.goes), ?_⟩
  iterate 10 (rw [← hr]; rfl)
  intro hu hj
  have hpath : ∀ n, r.me.path? n = s.me.path? n := fun n => by unfold Group.path?; rw [hp]
  have := (State.retire_records (s := r) (d := { stall := w }) (p := s.path) (fun n hn => by rw [hpath]; exact hu.1 n hn) (by rw [hpath, hc]; exact State.unspilled_path hu)
    (by rw [hpc]; exact hj)).1
  rw [this, ← hr]; rfl
/-- Clause 8 of what `Obligations.PredicateAndFlagMoves` says. -/
theorem predicateAndFlagMoves_8 : ∀ s w, (s.me.entries.filter fun n => (s.me.path n).state != .joined).length = 1 → s.clear true [] = true →
      ∃ t, exec (.idemb w) s = .next t ∧ Moves s t (s.pc + 4) ∧ (s.unspilled → s.path.join ≠ some (pc56 (s.pc + 4)) → t.me.region = some {
        pc := pc56 (s.pc + 4), member := s.path.member, exm := s.path.exm, entry := s.me.cur, mode := s.me.mode, fpsf := s.me.fpsf, loops := s.me.loops,
        olds := s.me.entries.filter (· != s.me.cur) }) := fun s w h1 hc => by
  refine ⟨_, next_of (State.once_own rfl hc (by simp)), ?_⟩
  simp only [h1, if_true]
  exact region_moves s _ _
/-- Clause 9 of what `Obligations.PredicateAndFlagMoves` says. -/
theorem predicateAndFlagMoves_9 : ∀ s w, (s.me.entries.filter fun n => (s.me.path n).state != .joined).length ≠ 1 → s.clear true [] = true →
      ∃ t, exec (.idemb w) s = .next t ∧ Moves (s.withMe fun g => { g with gstat := g.gstat ||| 2 }) t (s.pc + 4) := fun s w h1 hc => by
  refine ⟨_, next_of (State.once_own rfl hc (by simp)), ?_⟩
  simp only [h1, if_false]
  exact State.retire_moves _ _
/-- Clause 10 of what `Obligations.PredicateAndFlagMoves` says. -/
theorem predicateAndFlagMoves_10 : ∀ s w, s.clear true [] = true →
      ∃ t, exec (.ideme w) s = .next t ∧ Moves s t (s.pc + 4) ∧ (s.unspilled → s.path.join ≠ some (pc56 (s.pc + 4)) → t.me.region = none) := fun s w hc =>
  ⟨_, next_of (State.once_own rfl hc (by simp)), region_moves s none _⟩
theorem State.checkedFor_sound {s : State} {m : LaneMask} {legal : Bool} {uses : List Use} {k : State → State} (hl : legal = true) (hs : s.soundFor uses = true)
    (hv : ∀ x ∈ uses, x.isVector = true → ∃ n, x = .v n) : s.checkedFor m legal true uses k = k s := by
  unfold State.soundFor at hs
  simp only [Bool.and_eq_true, Bool.not_eq_true'] at hs
  obtain ⟨⟨h1, h2⟩, h3⟩ := hs
  have hu : s.unmapped uses m = false := by
    unfold State.unmapped
    rw [List.any_eq_false]
    intro x hx
    have := List.all_eq_true.mp h3 x hx
    have hv := hv x hx
    cases x with
    | v n => simp only [Option.isNone_iff_eq_none, Bool.and_eq_true, not_and] at *; intro _ h; rw [h] at this; cases this
    | nbL n => obtain ⟨n, h⟩ := hv rfl; cases h
    | nbR n => obtain ⟨n, h⟩ := hv rfl; cases h
    | vw n => obtain ⟨n, h⟩ := hv rfl; cases h
    | _ => simp
  have hz : s.struckLanes uses m = 0 := by unfold State.struckLanes; rw [if_pos h2]
  have hm : s.mapStruck uses = false := by unfold State.mapStruck; rw [h2]; rfl
  unfold State.checkedFor
  simp only [hl, Bool.not_true, Bool.false_eq_true, if_false, if_true]
  rw [if_neg (by rw [h1]; simp), hu, hz, hm]
  simp
theorem State.marks_nil (s : State) : s.marks [] = [] := by unfold State.marks; split <;> rfl
theorem State.freeMarked_nil (ns : List Nat) (s : State) : s.freeMarked [] ns = s := rfl
theorem replaced_register {s : State} {a : BitVec 6} {w : BitVec 2} {u y : Bool} {k : DestKind} {d : Nat} {src names : List Nat} (hh : s.me.handler.isSome = true) (hk : destKind s.me.x.xinst = k)
    (hd : d = bits s.me.x.xinst 18 6) (hl : replaceLegal k d a u y = true) (hs : s.soundFor (replaceUse k a) = true)
    (hn : names = k.names d) (hsrc : src = s.marks (if y then k.sources a else [])) (hr : State.rowsFor src names s = true) :
    exec (.xrepl a w (u, y)) s = .next (((match (generalizing := false) k with
          | .scalar => s.putS d (s.rs a.toNat) (1 + clsSIMPLE)
          | .scalarPair => s.putPair d (s.rpair a.toNat) (1 + clsSIMPLE)
          | .cmBit => s.putCMBit d (bit s.cmNow a.toNat) (1 + clsSIMPLE)
          | .vector => (State.replaceRows src names (State.allocRows names s)).writeLanes d s.me.x.xmask fun i => s.me.vlane a.toNat i
          | .vectorPair =>
            ((State.replaceRows src names (State.allocRows names s)).writeLanes d s.me.x.xmask fun i => s.me.vlane a.toNat i).writeLanes (d + 1) s.me.x.xmask
              fun i => s.me.vlane (a.toNat + 1) i
          | .pred => s.withMe fun g => g.setP d (mergeMask s.me.x.xmask (g.preg d) (g.preg a.toNat))
          | .predPair => s.withMe fun g =>
              let p := g.preg a.toNat
              (g.setP (2 * d) (mergeMask s.me.x.xmask (g.preg (2 * d)) p)).setP (2 * d + 1) (mergeMask s.me.x.xmask (g.preg (2 * d + 1)) (~~~p))
          | .none => s).freeMarked src names).retire { beats := if u then 1 else beatsOf s.me.x.xmask, stall := stallOf w }) := by
  subst hd hn hsrc
  refine next_of ?_
  have hv : ∀ x ∈ replaceUse k a, x.isVector = true → ∃ n, x = .v n := by
    intro x hx hv
    cases k <;> simp [replaceUse] at hx
    · subst hx; cases hv
    · rcases hx with rfl | rfl <;> cases hv
    · exact ⟨_, hx⟩
    · rcases hx with h | h <;> exact ⟨_, h⟩
    · subst hx; cases hv
  dsimp only
  rw [if_neg (by cases h : s.me.handler with | none => rw [h] at hh; cases hh | some _ => simp), hk, State.checkedFor_sound hl hs hv]
  rw [if_neg (by rw [hr]; simp)]
  all_goals (cases k <;> rfl)
/-- A kind without vector sources frees nothing. -/
theorem xr_none {s : State} {a : BitVec 6} {y : Bool} {k : DestKind} (h : k.sources a = []) : [] = s.marks (if y then k.sources a else []) := by
  rw [h]; cases y <;> exact s.marks_nil.symm
/-- Clause 1 of what `Obligations.TrappedResultReplacement` says. -/
theorem trappedResultReplacement_1 : ∀ s a w u y, s.me.handler.isSome = true → destKind s.me.x.xinst = .scalar → replaceLegal .scalar (bits s.me.x.xinst 18 6) a u y = true →
      s.soundFor [.s a.toNat] = true → ∃ t, exec (.xrepl a w (u, y)) s = .next t ∧
        Computed s t (s.scalarsWith [bits s.me.x.xinst 18 6] [s.rs a.toNat]) s.me.vlane s.me.preg s.me.cm 0 [.s a.toNat] (s.pc + 4) := fun s a w u y hh hk hl hs =>
  ⟨_, replaced_register hh hk rfl hl hs rfl (xr_none rfl) rfl, State.putAll_computed (ds := [_]) (ws := [_]) (one_nodup _) rfl (by
    simp only [List.mem_singleton, forall_eq]; exact Nat.mod_lt _ (by decide)) (by simp [Use.isVector]) rfl⟩
/-- Clause 2 of what `Obligations.TrappedResultReplacement` says. -/
theorem trappedResultReplacement_2 : ∀ s a w u y, s.me.handler.isSome = true → destKind s.me.x.xinst = .scalarPair → replaceLegal .scalarPair (bits s.me.x.xinst 18 6) a u y = true →
      s.soundFor [.s a.toNat, .s (a.toNat + 1)] = true → ∃ t, exec (.xrepl a w (u, y)) s = .next t ∧
        Computed s t (s.scalarsWith [bits s.me.x.xinst 18 6, bits s.me.x.xinst 18 6 + 1] [lo32 (s.rpair a.toNat), hi32 (s.rpair a.toNat)]) s.me.vlane
          s.me.preg s.me.cm 0 [.s a.toNat, .s (a.toNat + 1)] (s.pc + 4) := fun s a w u y hh hk hl hs => by
  refine ⟨_, replaced_register hh hk rfl hl hs rfl (xr_none rfl) rfl, State.putAll_computed (ds := [_, _]) (ws := [_, _]) (pair_nodup _) rfl ?_ (by simp [Use.isVector]) rfl⟩
  have h1 : bits s.me.x.xinst 18 6 < 64 := Nat.mod_lt _ (by decide)
  have h2 : bits s.me.x.xinst 18 6 % 2 = 0 := by simp only [replaceLegal, Bool.and_eq_true, beq_iff_eq] at hl; exact hl.2.2
  intro n hn
  simp only [List.mem_cons, List.not_mem_nil, or_false] at hn
  rcases hn with rfl | rfl <;> omega
/-- Clause 3 of what `Obligations.TrappedResultReplacement` says. -/
theorem trappedResultReplacement_3 : ∀ s a w u y, s.me.handler.isSome = true → destKind s.me.x.xinst = .cmBit → replaceLegal .cmBit (bits s.me.x.xinst 18 6) a u y = true →
      s.soundFor [.cmBit a.toNat] = true → ∃ t, exec (.xrepl a w (u, y)) s = .next t ∧
        Computed s t s.me.sreg s.me.vlane s.me.preg (s.cmWith (bits s.me.x.xinst 18 6) (bit s.cmNow a.toNat)) 0 [.cmBit a.toNat] (s.pc + 4) := fun s a w u y hh hk hl hs =>
  ⟨_, replaced_register hh hk rfl hl hs rfl (xr_none rfl) rfl, State.retire_computed rfl rfl (fun _ => rfl) (fun _ _ => rfl) (fun _ => rfl) rfl rfl (by rw [State.seen_none (by simp [Use.isVector])]; rfl) rfl rfl rfl rfl rfl rfl⟩
theorem vec_computed {s r : State} {V : Nat → Nat → Word} {d : Done} {next : DWord} (a : VectorsOnly s r) (hV : ∀ n k, r.me.vlane n k = V n k) (hn : d.target.getD (s.pc + 4) = next) :
    Computed s (r.retire d) s.me.sreg V s.me.preg s.me.cm 0 [] next :=
  State.retire_computed a.others a.special (fun n => Group.sreg_congr a.sc n) hV (fun n => Group.preg_congr a.p n) a.cm a.fpsf a.gstat a.mode a.paths a.cur hn a.laneCtr a.scalarCtr
theorem in_eq (V : Nat → Nat → Word) (d : Nat) (m : LaneMask) (f : Nat → Word) (n k : Nat) : (if n = d then (if m.getLsbD k then f k else V n k) else V n k) = vectorsIn V d m f n k := by
  unfold vectorsIn
  by_cases h : n = d <;> by_cases h2 : m.getLsbD k = true <;> simp [h, h2]
theorem freed_eq (s : State) (m : List Nat) (ns : List Nat) (V : Nat → Nat → Word) (n k : Nat) :
    (if n ∈ s.marks m ∧ n ∉ ns then 0 else V n k) = s.vectorsFreed m ns V n k := rfl
/-- Clause 4 of what `Obligations.TrappedResultReplacement` says. -/
theorem trappedResultReplacement_4 : ∀ s a w u y, s.me.handler.isSome = true → destKind s.me.x.xinst = .vector → replaceLegal .vector (bits s.me.x.xinst 18 6) a u y = true →
      s.soundFor [.v a.toNat] = true → State.rowsFor (s.marks (if y then [a.toNat] else [])) [bits s.me.x.xinst 18 6] s = true → ∃ t, exec (.xrepl a w (u, y)) s = .next t ∧
        Computed s t s.me.sreg (s.vectorsFreed (if y then [a.toNat] else []) [bits s.me.x.xinst 18 6]
          (vectorsIn s.me.vlane (bits s.me.x.xinst 18 6) s.me.x.xmask (s.me.vlane a.toNat))) s.me.preg s.me.cm 0 [] (s.pc + 4) := fun s a w u y hh hk hl hs hr => by
  have hd : bits s.me.x.xinst 18 6 < 48 := by simp only [replaceLegal, Bool.and_eq_true, decide_eq_true_eq] at hl; exact hl.2.2
  generalize hm : (if y then [a.toNat] else []) = m at hr ⊢
  obtain ⟨e1, e2, -, e4⟩ := State.allocRows_lanes [bits s.me.x.xinst 18 6] s
  obtain ⟨b1, b2, b3⟩ := State.replaceRows_lanes (s.marks m) [bits s.me.x.xinst 18 6] (State.allocRows [bits s.me.x.xinst 18 6] s)
  obtain ⟨w1, -, w3⟩ := State.writeLanes_lanes (State.replaceRows (s.marks m) [bits s.me.x.xinst 18 6] (State.allocRows [bits s.me.x.xinst 18 6] s))
    (bits s.me.x.xinst 18 6) s.me.x.xmask (fun i => s.me.vlane a.toNat i) (by rw [b3]; exact e4 _ (by simp) hd)
  obtain ⟨d1, d2⟩ := State.freeMarked_lanes (s.marks m) [bits s.me.x.xinst 18 6]
    ((State.replaceRows (s.marks m) [bits s.me.x.xinst 18 6] (State.allocRows [bits s.me.x.xinst 18 6] s)).writeLanes
      (bits s.me.x.xinst 18 6) s.me.x.xmask (fun i => s.me.vlane a.toNat i))
  refine ⟨_, replaced_register hh hk rfl hl hs rfl (by rw [← hm]; rfl) hr, vec_computed (((e1.trans b1).trans w1).trans d1) (fun n k => (d2 n k).trans ?_) rfl⟩
  rw [freed_eq]
  unfold State.vectorsFreed
  split
  · rfl
  · rw [w3, ← in_eq, b2, e2]
/-- Clause 5 of what `Obligations.TrappedResultReplacement` says. -/
theorem trappedResultReplacement_5 : ∀ s a w u y d, d = bits s.me.x.xinst 18 6 → s.me.handler.isSome = true → destKind s.me.x.xinst = .vectorPair → replaceLegal .vectorPair d a u y = true →
      s.soundFor [.v a.toNat, .v (a.toNat + 1)] = true → State.rowsFor (s.marks (if y then [a.toNat, a.toNat + 1] else [])) [d, d + 1] s = true → ∃ t, exec (.xrepl a w (u, y)) s = .next t ∧
        Computed s t s.me.sreg (s.vectorsFreed (if y then [a.toNat, a.toNat + 1] else []) [d, d + 1]
          (vectorsIn (vectorsIn s.me.vlane d s.me.x.xmask (s.me.vlane a.toNat)) (d + 1) s.me.x.xmask (s.me.vlane (a.toNat + 1)))) s.me.preg s.me.cm 0 [] (s.pc + 4) :=
    fun s a w u y d hd hh hk hl hs hr => by
  have hd48 : d < 48 ∧ d % 2 = 0 := by simp only [replaceLegal, Bool.and_eq_true, decide_eq_true_eq, beq_iff_eq] at hl; exact ⟨hl.2.1.2, hl.2.2⟩
  generalize hm : (if y then [a.toNat, a.toNat + 1] else []) = m at hr ⊢
  obtain ⟨e1, e2, -, e4⟩ := State.allocRows_lanes [d, d + 1] s
  obtain ⟨b1, b2, b3⟩ := State.replaceRows_lanes (s.marks m) [d, d + 1] (State.allocRows [d, d + 1] s)
  obtain ⟨w1, w2, w3⟩ := State.writeLanes_lanes (State.replaceRows (s.marks m) [d, d + 1] (State.allocRows [d, d + 1] s)) d s.me.x.xmask (fun i => s.me.vlane a.toNat i)
    (by rw [b3]; exact e4 _ (by simp) (by omega))
  obtain ⟨x1, -, x3⟩ := State.writeLanes_lanes ((State.replaceRows (s.marks m) [d, d + 1] (State.allocRows [d, d + 1] s)).writeLanes d s.me.x.xmask (fun i => s.me.vlane a.toNat i)) (d + 1) s.me.x.xmask
    (fun i => s.me.vlane (a.toNat + 1) i) (by rw [w2, b3]; exact e4 _ (by simp) (by omega))
  obtain ⟨d1, d2⟩ := State.freeMarked_lanes (s.marks m) [d, d + 1]
    (((State.replaceRows (s.marks m) [d, d + 1] (State.allocRows [d, d + 1] s)).writeLanes d s.me.x.xmask (fun i => s.me.vlane a.toNat i)).writeLanes (d + 1) s.me.x.xmask
      (fun i => s.me.vlane (a.toNat + 1) i))
  refine ⟨_, replaced_register hh hk hd hl hs rfl (by rw [← hm]; rfl) hr, vec_computed ((((e1.trans b1).trans w1).trans x1).trans d1) (fun n k => (d2 n k).trans ?_) rfl⟩
  rw [freed_eq]
  unfold State.vectorsFreed
  split
  · rfl
  · rw [x3, ← in_eq, ← in_eq, w3]
    simp only [b2, e2]
theorem pred_computed {s : State} {f : Group → Group} {P : Nat → LaneMask} {d : Done} {next : DWord} (hP : ∀ n, (f s.me).preg n = P n) (hn : d.target.getD (s.pc + 4) = next)
    (hf : (f s.me).special = s.me.special ∧ (f s.me).s = s.me.s ∧ (f s.me).v = s.me.v ∧ (f s.me).cm = s.me.cm ∧ (f s.me).fpsf = s.me.fpsf ∧ (f s.me).gstat = s.me.gstat
      ∧ (f s.me).mode = s.me.mode ∧ (f s.me).paths = s.me.paths ∧ (f s.me).cur = s.me.cur ∧ (f s.me).laneCtr = s.me.laneCtr ∧ (f s.me).scalarCtr = s.me.scalarCtr) :
    Computed s ((s.withMe f).retire d) s.me.sreg s.me.vlane P s.me.cm 0 [] next := by
  obtain ⟨a1, a2, a3, a4, a5, a6, a7, a8, a9, a10, a11⟩ := hf
  exact State.retire_computed rfl a1 (fun n => Group.sreg_congr a2 n) (fun n k => Group.vlane_congr a3 n k) hP a4 a5 a6 a7 a8 a9 hn a10 a11
/-- Clause 6 of what `Obligations.TrappedResultReplacement` says. -/
theorem trappedResultReplacement_6 : ∀ s a w u y, s.me.handler.isSome = true → destKind s.me.x.xinst = .pred → replaceLegal .pred (bits s.me.x.xinst 18 6) a u y = true → s.soundFor [] = true →
      ∃ t, exec (.xrepl a w (u, y)) s = .next t ∧
        Computed s t s.me.sreg s.me.vlane (predsIn s.me.preg (bits s.me.x.xinst 18 6) s.me.x.xmask (s.me.preg a.toNat)) s.me.cm 0 [] (s.pc + 4) := fun s a w u y hh hk hl hs => by
  have hd : bits s.me.x.xinst 18 6 < 12 := by simp only [replaceLegal, Bool.and_eq_true, decide_eq_true_eq] at hl; exact hl.2.2
  have he := replaced_register (w := w) (src := []) hh hk rfl hl hs rfl (xr_none rfl) rfl
  rw [State.freeMarked_nil] at he
  refine ⟨_, he, pred_computed (fun n => ?_) rfl ⟨special_setP .., ?_⟩⟩
  · rw [Group.preg_setP _ _ _ _ hd]
    unfold predsIn mergeMask
    by_cases h : n = bits s.me.x.xinst 18 6
    · rw [if_pos h, if_pos h, h]
    · rw [if_neg h, if_neg h]
  · simp
/-- Clause 7 of what `Obligations.TrappedResultReplacement` says. -/
theorem trappedResultReplacement_7 : ∀ s a w u y d, d = 2 * bits s.me.x.xinst 18 6 → s.me.handler.isSome = true → destKind s.me.x.xinst = .predPair →
      replaceLegal .predPair (bits s.me.x.xinst 18 6) a u y = true → s.soundFor [] = true → ∃ t, exec (.xrepl a w (u, y)) s = .next t ∧
        Computed s t s.me.sreg s.me.vlane
          (predsIn (predsIn s.me.preg d s.me.x.xmask (s.me.preg a.toNat)) (d + 1) s.me.x.xmask (~~~s.me.preg a.toNat)) s.me.cm 0 [] (s.pc + 4) := fun s a w u y d hd hh hk hl hs => by
  subst hd
  have hd : bits s.me.x.xinst 18 6 < 6 := by simp only [replaceLegal, Bool.and_eq_true, decide_eq_true_eq] at hl; exact hl.2.2
  have he := replaced_register (w := w) (src := []) hh hk rfl hl hs rfl (xr_none rfl) rfl
  rw [State.freeMarked_nil] at he
  refine ⟨_, he, pred_computed (fun n => ?_) rfl ⟨(special_setP ..).trans (special_setP ..), ?_⟩⟩
  · dsimp only
    rw [Group.preg_setP _ _ _ _ (by omega), Group.preg_setP _ _ _ _ (by omega)]
    unfold predsIn mergeMask
    by_cases h1 : n = 2 * bits s.me.x.xinst 18 6 + 1
    · have h2 : ¬ 2 * bits s.me.x.xinst 18 6 + 1 = 2 * bits s.me.x.xinst 18 6 := by omega
      rw [if_pos h1, if_pos h1, h1, if_neg h2]
    · rw [if_neg h1, if_neg h1]
      by_cases h3 : n = 2 * bits s.me.x.xinst 18 6
      · rw [if_pos h3, if_pos h3, h3]
      · rw [if_neg h3, if_neg h3]
  · simp

end Sys2Proof.Machine
end

