-- ==== Sys2Proof/Laws/Cross.lean ====
section
/-! SUPPORT. Cross-lane instructions: collections, reductions and votes, once nothing keeps them from their effect. -/

namespace Sys2Proof.Machine

/-- A collection that has its rows completes. -/
theorem collect_computed {s r : State} {uses : List Use} {streams : Vector Word 64 × Word} (hr : Ready s r uses streams) {ds marked : List Nat} {pass : Nat}
    {late : Bool} {w : BitVec 2} {f : Nat → List Word × Nat} {V : Nat → Nat → Word} (hd : ds.Nodup) (h48 : ∀ n ∈ ds, n < 48)
    (hrows : State.rowsFor marked ds r = true)
    (hV : ∀ n k, V n k = if n ∈ ds then (if s.active.getLsbD k then (f k).1.getD (ds.idxOf n) 0 else s.me.vlane n k)
      else if n ∈ marked then 0 else s.me.vlane n k)
    (he : s.enabledFlags (orFlags (perLane s.active (fun k => (f k).2) 0)) = 0) :
    Computed s (r.collect ds marked pass late w s.active (perLane s.active f ([], 0)))
      s.me.sreg V s.me.preg s.me.cm (orFlags (perLane s.active (fun k => (f k).2) 0)) uses (s.pc + 4) streams := by
  unfold State.collect
  rw [hrows]
  simp only [Bool.not_true, Bool.false_eq_true, if_false, perLane_map]
  cases late with
  | false =>
    simp only [Bool.false_eq_true, if_false]
    exact vectors_computed hr hd h48 hV he rfl
  | true =>
    simp only [if_true]
    obtain ⟨e1, e2, -, e4⟩ := State.allocRows_lanes ds r
    obtain ⟨b1, b2, b3⟩ := State.replaceRows_lanes marked ds (State.allocRows ds r)
    obtain ⟨c1, c2⟩ := State.writeResults_lanes s.active (perLane s.active (fun k => (f k).1) []) ds 0 (State.replaceRows marked ds (State.allocRows ds r)) hd
      fun d hd => by rw [b3]; exact e4 d hd (h48 d hd)
    have all := (e1.trans b1).trans c1
    generalize hs2 : (State.replaceRows marked ds (State.allocRows ds r)).writeResults s.active (perLane s.active (fun k => (f k).1) []) 0 ds = s2 at *
    generalize (List.map (fun o : Nat × Option VRow => ({ target := .vec o.1 o.2, ready := r.now + pass + beatsOf s.active + clsXLANE } : Pending)) _) = ps
    obtain ⟨d1, d2⟩ := State.freeMarked_lanes marked ds (s2.withMe fun g => { g with pending := g.pending ++ ps })
    refine State.finish_computed (d1.others.trans (all.others.trans hr.others)) (d1.special.trans (Eq.trans rfl (all.special.trans hr.special)))
      (fun n => ?_) (fun n k => ?_) (fun n => ?_) (d1.cm.trans (Eq.trans rfl (all.cm.trans hr.cm))) (d1.fpsf.trans (Eq.trans rfl (all.fpsf.trans hr.fpsf)))
      (d1.gstat.trans (Eq.trans rfl (all.gstat.trans hr.gstat))) (d1.mode.trans (Eq.trans rfl (all.mode.trans hr.mode)))
      (d1.paths.trans (Eq.trans rfl (all.paths.trans hr.paths))) (d1.cur.trans (Eq.trans rfl (all.cur.trans hr.cur))) he rfl ?_
    · exact Group.sreg_congr (d1.sc.trans (Eq.trans rfl (all.sc.trans hr.sc))) n
    · have hv : (s2.withMe fun g => { g with pending := g.pending ++ ps }).me.vlane n k = s2.me.vlane n k := rfl
      rw [d2 n k, hv, c2 n k, b2, e2, Group.vlane_congr hr.v, hV]
      by_cases hn : n ∈ ds
      · rw [if_neg (fun h => h.2 hn), if_pos hn, if_pos hn]
        split
        · rename_i hk; rw [perLane_get _ _ _ _ _ hk, Nat.zero_add]
        · rfl
      · rw [if_neg hn, if_neg hn]
        by_cases hm : n ∈ marked
        · rw [if_pos ⟨hm, hn⟩, if_pos hm]
        · rw [if_neg (fun h => hm h.1), if_neg hm]
    · exact Group.preg_congr (d1.p.trans (Eq.trans rfl (all.p.trans hr.p))) n
    · rw [d1.laneCtr, d1.scalarCtr]
      show (s2.me.laneCtr, s2.me.scalarCtr) = streams
      rw [all.laneCtr, all.scalarCtr]; exact hr.streams
/-! ### Row allocation does not look at the random streams -/

/-- The state with its random streams set. -/
def State.ctrs (s : State) (a : Vector Word 64) (b : Word) : State := s.withMe fun g => { g with laneCtr := a, scalarCtr := b }
theorem State.ctrs_setRow (s : State) (a : Vector Word 64) (b : Word) (n : Nat) (r : Option VRow) :
    ((s.ctrs a b).withMe fun g => g.setRow n r) = (s.withMe fun g => g.setRow n r).ctrs a b := by
  by_cases hn : n < 48
  · simp only [State.ctrs, State.withMe, Group.setRow, dif_pos hn]
  · simp only [State.ctrs, State.withMe, Group.setRow, dif_neg hn]
theorem State.ctrs_onPipe {α : Type} (s : State) (a : Vector Word 64) (b : Word) (t p : Nat) (F : Group → α) (hF : ∀ (g : Group), F { g with laneCtr := a, scalarCtr := b } = F g) :
    ((s.ctrs a b).onPipe t p).map F = (s.onPipe t p).map F := by
  have hl : (s.ctrs a b).me.live = s.me.live := rfl
  have hg : (s.ctrs a b).groups = s.groups := rfl
  unfold State.onPipe State.allGroups
  rw [hl, hg]
  by_cases h : s.me.live = true
  · rw [if_pos h, if_pos h, List.filter_cons, List.filter_cons]
    have ht : (s.ctrs a b).me.tile = s.me.tile := rfl
    have hp : (s.ctrs a b).me.pipe = s.me.pipe := rfl
    rw [ht, hp]
    split
    · rw [List.map_cons, List.map_cons]
      exact congrArg (· :: _) (hF s.me)
    · rfl
  · rw [if_neg h, if_neg h]
theorem State.ctrs_mayAllocate (s : State) (a : Vector Word 64) (b : Word) : (s.ctrs a b).mayAllocate = s.mayAllocate := by
  have h1 := State.ctrs_onPipe s a b s.me.tile s.me.pipe Group.rowCharge fun _ => rfl
  have h2 := State.ctrs_onPipe s a b s.me.tile s.me.pipe Group.need fun _ => rfl
  have h3 := State.ctrs_onPipe s a b s.me.tile s.me.pipe Group.seq fun _ => rfl
  have h4 : ((s.ctrs a b).onPipe s.me.tile s.me.pipe).all (fun g => decide (s.me.seq ≤ g.seq)) = (s.onPipe s.me.tile s.me.pipe).all fun g => decide (s.me.seq ≤ g.seq) := by
    have := congrArg (fun l : List Nat => l.all fun n => decide (s.me.seq ≤ n)) h3
    simp only [List.all_map] at this
    exact this
  unfold State.mayAllocate
  have e1 : (s.ctrs a b).me.tile = s.me.tile := rfl
  have e2 : (s.ctrs a b).me.pipe = s.me.pipe := rfl
  have e3 : (s.ctrs a b).me.seq = s.me.seq := rfl
  have e4 : (s.ctrs a b).me.held = s.me.held := rfl
  have e5 : (s.ctrs a b).me.floor = s.me.floor := rfl
  have e6 : (s.ctrs a b).me.width = s.me.width := rfl
  simp only [e1, e2, e3, e4, e5, e6, rowsFree, rowsReserve, h1, h2, h4]
  rfl
theorem State.ctrs_pickRow (s : State) (a : Vector Word 64) (b : Word) (n : Nat) : (s.ctrs a b).pickRow n = s.pickRow n := by
  have h1 := State.ctrs_onPipe s a b s.me.tile s.me.pipe Group.rowNumbers fun _ => rfl
  have : ((s.ctrs a b).onPipe s.me.tile s.me.pipe).flatMap Group.rowNumbers = (s.onPipe s.me.tile s.me.pipe).flatMap Group.rowNumbers := by
    rw [List.flatMap_def, List.flatMap_def, h1]
  unfold State.pickRow
  exact congrArg (fun l => freeRow s.me.width l n) this
theorem State.ctrs_rowsFor (marked ns : List Nat) (s : State) (a : Vector Word 64) (b : Word) : State.rowsFor marked ns (s.ctrs a b) = State.rowsFor marked ns s := by
  induction ns generalizing s with
  | nil => rfl
  | cons n ns ih =>
    unfold State.rowsFor
    have e : (s.ctrs a b).me.vrow n = s.me.vrow n := rfl
    rw [e, State.ctrs_mayAllocate, State.ctrs_pickRow, State.ctrs_setRow, ih, ih]
theorem State.advance_rowsFor (marked ns : List Nat) (s : State) (draws : Bool) (a : LaneMask) :
    State.rowsFor marked ns (if draws then s.advance false a else s) = State.rowsFor marked ns s := by
  cases draws with
  | false => rfl
  | true =>
    have : s.advance false a = s.ctrs (Vector.ofFn fun i : Fin 64 => if a.getLsbD i then s.me.laneCtr[i] + 1 else s.me.laneCtr[i]) s.me.scalarCtr := by
      simp only [State.advance, State.ctrs, State.withMe, Bool.false_eq_true, if_false]
    rw [if_pos rfl, this, State.ctrs_rowsFor]
/-- A cross-lane instruction with vector results does what its description says. -/
theorem computes_of_cross {i : Instr} {s : State} {legal late draws : Bool} {uses : List Use} {dests marks : List Nat} {w : BitVec 2}
    {f : State → LaneMask → List (List Word × Nat)} (g : Nat → List Word × Nat)
    (hi : exec i s = .next (s.cross legal uses dests marks w late draws f)) (hd : dests.Nodup) (hr : legal = true → ∀ n ∈ dests, n < 48)
    (hf : f (s.seen (.exm :: uses)) s.active = perLane s.active g ([], 0)) : Computes i s false legal uses dests marks 4 g draws := by
  intro hl hc
  have hchk : s.cross legal uses dests marks w late draws f = _ := State.checked_clear hl hc
  simp only [Bool.false_eq_true, if_false] at hchk ⊢
  intro hrows he
  refine ⟨_, hi, ?_⟩
  rw [hchk]
  obtain ⟨-, -, -, -, -, -, -, -, -, -, sa, sm, -⟩ := State.seen_only s (.exm :: uses)
  simp only [sa, sm, hf]
  exact collect_computed (ready_advance s (.exm :: uses) draws false) hd (hr hl) (by rw [State.advance_rowsFor, State.seen_rowsFor]; exact hrows)
    (fun _ _ => rfl) he
/-- Scalar results of a reduction, with the rows of its marked sources freed. -/
theorem reduction_computed {s r : State} {uses : List Use} {streams : Vector Word 64 × Word} (hr : Ready s r uses streams) {ds marks : List Nat}
    {ws : List Word} {lat fl : Nat} {d : Done} {raised : Nat → LaneMask} {next : DWord} (hd : ds.Nodup) (hl : ds.length = ws.length) (h64 : ∀ n ∈ ds, n < 64)
    (he : s.enabledFlags fl = 0) (hn : d.target.getD (s.pc + 4) = next) :
    Computed s ((((ds.zip ws).foldl (fun s p => s.putS p.1 p.2 lat) r).freeMarked (s.marks marks) []).finish d fl raised) (s.scalarsWith ds ws)
      (s.vectorsLess marks) s.me.preg s.me.cm fl uses next streams := by
  obtain ⟨a, b⟩ := State.putAll lat ds ws r hd hl h64
  generalize (ds.zip ws).foldl (fun s p => s.putS p.1 p.2 lat) r = s2 at *
  obtain ⟨d1, d2⟩ := State.freeMarked_lanes (s.marks marks) [] s2
  refine State.finish_computed (d1.others.trans (a.others.trans hr.others)) (d1.special.trans (a.special.trans hr.special)) (fun n => ?_) (fun n k => ?_)
    (fun n => ?_) (d1.cm.trans (a.cm.trans hr.cm)) (d1.fpsf.trans (a.fpsf.trans hr.fpsf)) (d1.gstat.trans (a.gstat.trans hr.gstat))
    (d1.mode.trans (a.mode.trans hr.mode)) (d1.paths.trans (a.paths.trans hr.paths)) (d1.cur.trans (a.cur.trans hr.cur)) he hn ?_
  · rw [Group.sreg_congr d1.sc, b n]
    unfold State.scalarsWith
    split
    · rfl
    · exact Group.sreg_congr hr.sc n
  · rw [d2 n k, Group.vlane_congr (a.v.trans hr.v)]
    simp only [State.vectorsLess, List.not_mem_nil, not_false_iff, and_true]
  · exact Group.preg_congr (d1.p.trans (a.p.trans hr.p)) n
  · rw [d1.laneCtr, d1.scalarCtr, a.laneCtr, a.scalarCtr]; exact hr.streams
/-- A reduction does what its description says. -/
theorem reduces_of {i : Instr} {s : State} {legal draws : Bool} {uses : List Use} {dests marks : List Nat} {w : BitVec 2}
    {f : State → LaneMask → List Word × List (Nat × Nat)} (r : List Word × List (Nat × Nat))
    (hi : exec i s = .next (s.reduce legal uses dests marks w draws f)) (hd : dests.Nodup) (h64 : ∀ n ∈ dests, n < 64)
    (hl : dests.length = r.1.length) (hf : f (s.seen (.exm :: uses)) s.active = r) :
    Reduces i s legal uses dests marks r.1 (orFlags (r.2.map (·.2))) draws := by
  intro hlg hc he
  have hchk : s.reduce legal uses dests marks w draws f = _ := State.checked_clear hlg hc
  simp only [Bool.false_eq_true, if_false] at hchk
  refine ⟨_, hi, ?_⟩
  rw [hchk]
  obtain ⟨-, -, -, -, -, -, -, -, -, -, sa, sm, -⟩ := State.seen_only s (.exm :: uses)
  simp only [sa, sm, hf]
  exact reduction_computed (ready_advance s (.exm :: uses) draws false) hd hl h64 he rfl

end Sys2Proof.Machine
end

