-- ==== Sys2Proof/Laws/MemoryForms.lean ====
section
/-! SUPPORT. Accesses, full/empty bits, copies, system registers and barriers: the lemmas their statements rest on. -/

namespace Sys2Proof.Machine

theorem same_accessed {s q : State} {W : Place → Prop} {d : Done} (h : Reaches W s q) (hd : d.target = none) :
    (∀ ag p, (q.retire d).readByte ag p = q.readByte ag p) ∧ Accessed s (q.retire d) s.me.sreg s.me.vlane W :=
  State.retire_accessed h rfl (fun n => by rw [h.me]) (fun n k => by rw [h.me]) (by rw [h.me]) (by rw [h.me]) (by rw [h.me]) (by rw [h.me]) (by rw [h.me]) (by rw [h.me]) (by rw [h.me]) (by rw [h.me]) hd
theorem seen_scalar {s : State} {us : List Use} (h : ∀ x ∈ us, x.isVector = false) : s.seen us = s := State.seen_none h
theorem bank_go {r : State} {u : Bool} {as : List Access} {need : Nat} {go : List Access → State → State} (h : ∀ x ∈ as, windowOf x.va = 1) (hm : r.mayAccess true .atomic need as false = true) :
    r.bankAccesses u as need none go = go (r.placed (r.groupAgent r.me) .atomic as) (r.entered true (r.placed (r.groupAgent r.me) .atomic as)) := by
  unfold State.bankAccesses
  have : as.filter (fun a => windowOf a.va != 1) = [] := by
    rw [List.filter_eq_nil_iff]; intro x hx; simp [h x hx]
  rw [this]
  exact State.accesses_go hm
theorem bank_reach {r : State} {as ps : List Access} {size : Nat} (f : Nat → Nat → Nat) (hps : ps = r.placed (r.groupAgent r.me) .atomic as) (hz : ∀ x ∈ as, x.size = size)
    (hn : size = 4 ∨ size = 8) (hal : ∀ x ∈ as, x.va % size = 0) :
    Reaches (fun p => touched ps p ∨ r.buffered p) r ((r.entered true ps).atomics size false f ps).2 := by
  have hb : Buffers (fun p => touched ps p ∨ r.buffered p) r.me.team r := Buffers.of_buffered fun p h => .inr h
  obtain ⟨w1, w2⟩ := State.entered_within true ps hb
  refine State.atomics_within size false f ps _ w1 (w2 hb) (fun x hx y hy i hi => .inl ⟨x, hx, y, hy, i, hi, rfl⟩) ?_
  intro x hx y hy
  rw [hps] at hx
  obtain ⟨c, hc1, rfl⟩ := List.mem_map.mp hx
  obtain ⟨e, he1, he2⟩ := List.mem_filterMap.mp hy
  rw [hz c hc1] at he1
  have h4 := pieces_aligned hn (hal c hc1) e he1
  obtain ⟨e1, e2⟩ := e
  dsimp only at he2
  cases hl : r.locate (r.groupAgent r.me) .atomic e1 with
  | ok p => rw [hl] at he2; cases he2; exact h4
  | error _ => rw [hl] at he2; cases he2
theorem bankForm (mk : BitVec 6 → BitVec 6 → BitVec 3 → Instr) (types : Nat) (size : BitVec 3 → Nat) (align : State → BitVec 3 → Nat) (step : BitVec 3 → Nat → Nat)
    (f : BitVec 3 → Nat → Nat → Nat) (he : ∀ a b t s, exec (mk a b t) s = s.bankOp (even a && vr b && small t types) a b (size t) (align s t) (step t) (f t))
    (hse : ∀ s us t, align (s.seen us) t = align s t)
    (hz : ∀ t, size t = 4 ∨ size t = 8) (hst : ∀ (s : State) t k v, v % align s t = 0 → (v + step t k) % size t = 0) : BankForm mk types size align step f := by
  intro s a b t uses r as ps q hu hr has hps hq hok hc hal hwin hmay
  have hn : ∀ u : LaneMask, u = r.active → (if (decide (u ≠ 0) && decide ((r.rpair a.toNat).toNat % align s t ≠ 0)) = true then some (Refuse.align (r.rpair a.toNat).toNat) else none) = none := by
    intro u hu
    have : align s t = align r t := by rw [hr, hse]
    rw [this]
    rcases hal with h | h
    · rw [if_neg (by simp [hu, h])]
    · rw [if_neg (by simp [h])]
  have hex : exec (mk a b t) s = .next (q.2.retire { beats := beatsOf r.active }) := by
    rw [he]
    unfold State.bankOp
    congr 1
    rw [State.checked_clear hok (by rw [← hu]; exact hc)]
    have : s.seen (if false = true then [.s a.toNat, .s (a.toNat + 1), .v b.toNat] else Use.exm :: [.s a.toNat, .s (a.toNat + 1), .v b.toNat]) = r := by rw [hr, hu]; rfl
    rw [this]
    dsimp only
    rw [hn _ rfl, bank_go (as := (lanesOf r.active).map (fun k => ({ lane := k, va := (r.rpair a.toNat).toNat + step t k, size := size t } : Access))) (by rw [← has]; exact hwin) (by rw [← has]; exact hmay)]
    rw [← has, ← hps]
    have hv : ∀ k, (r.entered true ps).me.vlane b.toNat k = r.me.vlane b.toNat k := by
      intro k
      rw [(State.entered_within (W := fun p => touched ps p ∨ r.buffered p) true ps (Buffers.of_buffered fun p h => .inr h)).1.me]
    simp only [hv, ← hq]
  have hreach := bank_reach (r := r) (as := as) (ps := ps) (size := size t) (fun k m => f t m (r.me.vlane b.toNat k).toNat) hps
    (by rw [has]; intro x hx; obtain ⟨k, _, rfl⟩ := List.mem_map.mp hx; rfl) (hz t)
    (by
      rw [has]; intro x hx; obtain ⟨k, hk, rfl⟩ := List.mem_map.mp hx
      rcases hal with h | h
      · rw [h] at hk; simp [lanesOf] at hk
      · exact hst r t k _ h)
  rw [← hq] at hreach
  have hf := same_accessed (d := { beats := beatsOf r.active }) hreach rfl
  exact ⟨_, hex, hf.1, hf.2⟩
theorem bankFillForm (mk : BitVec 6 → BitVec 6 → BitVec 6 → Instr) (f : Nat → Nat → Nat) (he : ∀ d a b s, exec (mk d a b) s = s.bankFill d a b f) : BankFillForm mk f := by
  intro s d a b n as ps q hnn has hps hq hok hc hal hwin hmay
  have hn : (if (decide (n ≠ 0) && ((s.rpair a.toNat).toNat % 4 != 0 || decide ((s.rpair a.toNat).toNat % 4096 + 4 * n > 4096))) = true then some (Refuse.align (s.rpair a.toNat).toNat) else none) = none := by
    rcases hal with h | ⟨h1, h2⟩
    · rw [if_neg (by simp [h])]
    · rw [if_neg (by simp [h1]; omega)]
  have hex : exec (mk d a b) s = .next (q.2.retire {}) := by
    rw [he]
    unfold State.bankFill
    dsimp only
    congr 1
    rw [← hnn, State.checked_clear hok hc, seen_scalar (by intro x hx; simp at hx; rcases hx with rfl | rfl | rfl | rfl <;> rfl)]
    rw [hn, bank_go (as := (List.range n).map (fun k => ({ lane := 64, va := (s.rpair a.toNat).toNat + 4 * k, size := 4 } : Access))) (by rw [← has]; exact hwin) (by rw [← has]; exact hmay)]
    rw [← has, ← hps]
    have hv : ∀ m, (s.entered true ps).rs m = s.rs m := by
      have w := (State.entered_within (W := fun p => touched ps p ∨ s.buffered p) true ps (Buffers.of_buffered fun p h => .inr h)).1
      intro k
      have e : (s.entered true ps).rs k = ({ s with me := (s.entered true ps).me, now := (s.entered true ps).now } : State).rs k := rfl
      rw [e, w.me, w.now]
    rw [hv, ← hq]
  have hreach := bank_reach (r := s) (as := as) (ps := ps) (size := 4) (fun _ m => f m (s.rs b.toNat).toNat) hps
    (by rw [has]; intro x hx; obtain ⟨k, _, rfl⟩ := List.mem_map.mp hx; rfl) (.inl rfl)
    (by
      rw [has]; intro x hx; obtain ⟨k, hk, rfl⟩ := List.mem_map.mp hx
      have := List.mem_range.mp hk
      rcases hal with h | h
      · omega
      · dsimp only; omega)
  rw [← hq] at hreach
  have hf := same_accessed (d := {}) hreach rfl
  exact ⟨_, hex, hf.1, hf.2⟩
theorem mod_of_mul {v c n : Nat} (h : v % (c * n) = 0) : v % c = 0 := by
  have h1 : c * n ∣ v := Nat.dvd_of_mod_eq_zero h
  exact Nat.mod_eq_zero_of_dvd (Nat.dvd_trans (Nat.dvd_mul_right ..) h1)
theorem setPart_me (s : State) (n : Nat) (f : Partition → Partition) : (s.setPart n f).me = s.me := by unfold State.setPart; split <;> rfl
theorem review_me (s : State) (p : Nat) : (s.review p).me = s.me := setPart_me ..
theorem writeFull_me (s : State) (p k : Nat) (b : Bool) : (s.writeFull p k b).me = s.me := by unfold State.writeFull; split <;> rfl
theorem writeHead_me (s : State) (p k : Nat) : (s.writeHead p k).me = s.me := by unfold State.writeHead; split <;> rfl
theorem febWalk_untouched (p k : Nat) (l : List FebWaiter) (s : State) : Untouched s (State.febWalk p k l s) := by
  induction l generalizing s with
  | nil => exact .of_me (writeHead_me ..)
  | cons w ws ih =>
    unfold State.febWalk
    dsimp only
    split
    · refine Untouched.trans (r := { s with febs := s.febs.filter (· != w) }) (.of_me rfl) ?_
      refine Untouched.trans ?_ (ih _)
      have h : Untouched { s with febs := s.febs.filter (· != w) } ((({ s with febs := s.febs.filter (· != w) } : State).writeFull p k (w.kind.leaves (s.febFull p k))).grant w.group w.path 0 []) :=
        (Untouched.of_me (writeFull_me ..)).trans (State.grant_untouched ..)
      split
      · exact h
      · exact h.trans (.of_me (review_me ..))
    · exact ih s
theorem febServe_untouched (p k n : Nat) (s : State) : Untouched s (State.febServe p k n s) := by
  induction n generalizing s with
  | zero => exact .of_me rfl
  | succ n ih =>
    unfold State.febServe
    dsimp only
    split
    · exact febWalk_untouched ..
    · exact (febWalk_untouched ..).trans (ih _)
theorem setFull_untouched (s : State) (p k : Nat) (b : Bool) : Untouched s (s.setFull p k b) := by
  unfold State.setFull
  split
  · exact .of_me rfl
  · dsimp only
    have h : Untouched s ((s.writeFull p k b).review p) := .of_me ((review_me ..).trans (writeFull_me ..))
    split
    · exact h.trans (febServe_untouched ..)
    · exact h
theorem febChecked_go {s : State} {ok : Bool} {a : BitVec 6} {f : Nat → State → State} {n o : Nat} (hn : n = (s.rs a.toNat).toNat) (h4 : n < 4096) (ha : s.answer = none)
    (ho : s.myPart.febWord n = some o) (hs : s.poisoned (.bank o) = false) (hc : s.clear true [.s a.toNat] = true) (hok : ok = true) :
    s.febChecked ok a f = .next (f n s) := by
  unfold State.febChecked
  dsimp only
  rw [← hn, ha]
  simp only [Option.isSome_none, Bool.false_eq_true, if_false]
  rw [State.checked_clear (by simp [hok, h4]) hc]
  simp only [if_true]
  rw [State.seen_none (by simp [Use.isVector])]
  rw [ho]
  simp only [hs, Bool.false_eq_true, if_false]
theorem febChecked_answered {s : State} {ok : Bool} {a : BitVec 6} {f : Nat → State → State} (ha : s.answer.isSome = true) :
    s.febChecked ok a f = .next (f (s.rs a.toNat).toNat s) := by
  unfold State.febChecked
  dsimp only
  rw [if_pos ha]
theorem ends_of {i : Instr} {s u w : State} {d : Done} (h : exec i s = .next (w.retire d)) (hw : Untouched s w) (ho : w.others = u.others) (hd : d.target = none) : Ends i s u :=
  ⟨_, h, hw.retire hd, (State.retire_others w d).trans ho⟩
theorem waits_of {i : Instr} {s u : State} {w : Wait} (h : exec i s = .next (u.block w)) (hu : u.me = s.me) : WaitsFor i s u w :=
  ⟨_, h, (State.block_blocks hu w).1, (State.block_blocks hu w).2⟩
theorem drainRange_reaches (s : State) (p va n : Nat) (t : Nat) : Reaches (fun _ => True) s (s.drainRange p t va n) := by
  unfold State.drainRange
  have key : ∀ (l : List Nat) (x : State), Reaches (fun _ => True) x (l.foldl (fun s l => s.drainEntry t l) x) := by
    intro l
    induction l with
    | nil => intro x; exact .refl ..
    | cons a l ih => intro x; exact (State.drainEntry_within (id := t) (W := fun _ => True) (fun _ _ _ _ => trivial) a).1.trans (ih _)
  exact key _ _
theorem start_own {i : Instr} {s u : State} (h : Reaches (fun _ => True) s u) (k : CopyKind) (he : exec i s = .next ((u.startCopy k false).retire {})) :
    Ends i s { u with copies := s.copies ++ [s.newCopy k], copyNum := s.copyNum + 1 } (g := { s.me with openCopies := s.me.openCopies ++ [s.copyNum] }) := by
  have hc : u.copies = s.copies := (congrArg State.copies h.rest : u.fabric.copies = s.fabric.copies)
  have hn : u.copyNum = s.copyNum := (congrArg State.copyNum h.rest : u.fabric.copyNum = s.fabric.copyNum)
  have hpc : u.pc = s.pc := by unfold State.pc State.path; rw [h.me]
  have hw : u.startCopy k false = { u with copies := s.copies ++ [s.newCopy k], copyNum := s.copyNum + 1, me := { s.me with openCopies := s.me.openCopies ++ [s.copyNum] } } := by
    unfold State.startCopy State.newCopy
    rw [hc, hn, h.me, hpc]
  rw [hw] at he
  refine ⟨_, he, State.retire_own (fun n => rfl) rfl rfl rfl rfl rfl rfl rfl rfl (fun n => rfl) rfl, ?_⟩
  rw [State.retire_others]; rfl
theorem issue_go {s : State} {bad : List (Option Refuse)} {start : State → State} (h : bad.foldl Refuse.first none = none) : s.copyIssue bad start = (start s).retire {} := by
  unfold State.copyIssue; rw [h]
theorem scalar_uses {us : List Use} (h : us.all (fun x => !x.isVector) = true) : ∀ x ∈ us, x.isVector = false := by
  intro x hx; simpa using List.all_eq_true.mp h x hx
theorem badRange_ok {b : Bool} {v : Nat} (h : b = true) : badRange b v = none := by unfold badRange; rw [if_pos h]
theorem own_of_puts {s r : State} {ds : List Nat} {ws : List Word} {d : Done} (h : r.me = s.me) (hd : ds.Nodup) (hl : ds.length = ws.length) (h64 : ∀ n ∈ ds, n < 64) (ht : d.target = none) (lat : Nat) :
    Own s (((ds.zip ws).foldl (fun s p => s.putS p.1 p.2 lat) r).retire d) (s.scalarsWith ds ws) s.me.cm ∧ (((ds.zip ws).foldl (fun s p => s.putS p.1 p.2 lat) r).retire d).others = r.others := by
  obtain ⟨a, b⟩ := State.putAll lat ds ws r hd hl h64
  refine ⟨State.retire_own (fun n => ?_) (a.v.trans (by rw [h])) (a.p.trans (by rw [h])) (a.cm.trans (by rw [h])) (a.fpsf.trans (by rw [h])) (a.gstat.trans (by rw [h]))
    (by rw [a.laneCtr, a.scalarCtr, h]) (a.special.trans (by rw [h])) (a.cur.trans (by rw [h])) (fun n => by unfold Group.path?; rw [a.paths, h]) ht, ?_⟩
  · rw [b]; unfold State.scalarsWith; rw [h]
  · rw [State.retire_others]; exact a.others
theorem checked_scalar {s : State} {legal : Bool} {us : List Use} {k : State → State} (hl : legal = true) (hc : s.clear true us = true) (hu : us.all (fun x => !x.isVector) = true) :
    s.checked legal true us k = k s := by
  rw [State.checked_clear hl hc, if_pos rfl, State.seen_none (fun x hx => by simpa using List.all_eq_true.mp hu x hx)]
theorem checked_illegal {s : State} {us : List Use} {k : State → State} {o : Bool} : s.checked false o us k = s.raise { code := 0x03, mask := if o then s.exm else s.active } := by
  unfold State.checked State.checkedFor
  rfl
theorem arrive_keeps {α : Type} (F : Group → α) (h1 : ∀ (g : Group) a, F { g with clusterArrived := a } = F g) (h2 : ∀ (g : Group) a, F { g with teamArrived := a } = F g)
    (s : State) (c b : Bool) : F (s.arrive c b).me = F s.me := by
  have hm : ∀ (s : State) (pick : Group → Bool) (f : Group → Group), (∀ g, F (f g) = F g) → F (s.mapGroups pick f).me = F s.me := by
    intro s pick f hf
    show F (if pick s.me then f s.me else s.me) = _
    split
    · exact hf _
    · rfl
  unfold State.arrive
  cases c with
  | true =>
    simp only [if_true]
    unfold State.clusterPhase
    dsimp only
    split
    · rw [hm _ _ _ (fun g => h1 g _)]; exact h1 ..
    · exact h1 ..
  | false =>
    simp only [Bool.false_eq_true, if_false]
    unfold State.teamPhase
    dsimp only
    split
    · rw [hm _ _ _ (fun g => h2 g _)]; exact h2 ..
    · exact h2 ..
theorem ends_keep {i : Instr} {s u w : State} {S : Nat → Word} {d : Done} (he : exec i s = .next (w.retire d)) (ht : d.target = none) (ho : w.others = u.others)
    (hS : ∀ n, w.me.sreg n = S n) (hg : w.me.special = u.me.special)
    (k : ∀ {α : Type} (F : Group → α), (∀ (g : Group) a, F { g with clusterArrived := a } = F g) → (∀ (g : Group) a, F { g with teamArrived := a } = F g) →
      (∀ (g : Group) n x, F (g.setS n x) = F g) → (∀ (g : Group) a, F { g with pending := a } = F g) → F w.me = F s.me) :
    Ends i s u S s.me.cm u.me := by
  have ss : ∀ {α : Type} (F : Group → α) (h : ∀ (g : Group) n x (h : n < 64), F { g with s := g.s.set n x } = F g) (g : Group) n x, F (g.setS n x) = F g := by
    intro α F h g n x
    unfold Group.setS
    split
    · exact h ..
    · rfl
  refine ⟨_, he, State.retire_own hS (k Group.v (fun _ _ => rfl) (fun _ _ => rfl) (ss _ fun _ _ _ _ => rfl) fun _ _ => rfl) (k Group.p (fun _ _ => rfl) (fun _ _ => rfl) (ss _ fun _ _ _ _ => rfl) fun _ _ => rfl)
    (k Group.cm (fun _ _ => rfl) (fun _ _ => rfl) (ss _ fun _ _ _ _ => rfl) fun _ _ => rfl) (k Group.fpsf (fun _ _ => rfl) (fun _ _ => rfl) (ss _ fun _ _ _ _ => rfl) fun _ _ => rfl)
    (k Group.gstat (fun _ _ => rfl) (fun _ _ => rfl) (ss _ fun _ _ _ _ => rfl) fun _ _ => rfl) (k (fun g => (g.laneCtr, g.scalarCtr)) (fun _ _ => rfl) (fun _ _ => rfl) (ss (fun g => (g.laneCtr, g.scalarCtr)) fun _ _ _ _ => rfl) fun _ _ => rfl)
    hg (k Group.cur (fun _ _ => rfl) (fun _ _ => rfl) (ss _ fun _ _ _ _ => rfl) fun _ _ => rfl) (fun n => ?_) ht, (State.retire_others ..).trans ho⟩
  have := k Group.paths (fun _ _ => rfl) (fun _ _ => rfl) (ss _ fun _ _ _ _ => rfl) fun _ _ => rfl
  unfold Group.path?; rw [this]
theorem barDone_keeps {α : Type} (F : Group → α) (h1 : ∀ (g : Group) a, F { g with clusterArrived := a } = F g) (h2 : ∀ (g : Group) a, F { g with teamArrived := a } = F g)
    (g : Group) (c : Bool) : F (g.barDone c) = F g := by
  unfold Group.barDone; split
  · exact h1 ..
  · exact h2 ..
/-- A BAR that completes after its phase. -/
theorem ends_done {i : Instr} {s u : State} {c : Bool} (he : exec i s = .next (((u.acquire (barScope c)).withMe (·.barDone c)).retire {}))
    (hk : ∀ {α : Type} (F : Group → α), (∀ (g : Group) a, F { g with clusterArrived := a } = F g) → (∀ (g : Group) a, F { g with teamArrived := a } = F g) → F u.me = F s.me) :
    Ends i s (u.acquire (barScope c)) (g := u.me.barDone c) := by
  have hm : (u.acquire (barScope c)).me = u.me := State.acquire_me ..
  have hw : ((u.acquire (barScope c)).withMe (·.barDone c)).me = u.me.barDone c := by rw [State.withMe_me, hm]
  have k : ∀ {α : Type} (F : Group → α), (∀ (g : Group) a, F { g with clusterArrived := a } = F g) → (∀ (g : Group) a, F { g with teamArrived := a } = F g) →
      F ((u.acquire (barScope c)).withMe (·.barDone c)).me = F s.me := fun F h1 h2 => by rw [hw, barDone_keeps F h1 h2, hk F h1 h2]
  refine ⟨_, he, State.retire_own (fun m => Group.sreg_congr (k Group.s (fun _ _ => rfl) fun _ _ => rfl) m) (k Group.v (fun _ _ => rfl) fun _ _ => rfl) (k Group.p (fun _ _ => rfl) fun _ _ => rfl)
    (k Group.cm (fun _ _ => rfl) fun _ _ => rfl) (k Group.fpsf (fun _ _ => rfl) fun _ _ => rfl) (k Group.gstat (fun _ _ => rfl) fun _ _ => rfl) (k (fun g => (g.laneCtr, g.scalarCtr)) (fun _ _ => rfl) fun _ _ => rfl)
    (by rw [hw]) (k Group.cur (fun _ _ => rfl) fun _ _ => rfl) (fun n => ?_) rfl, State.retire_others ..⟩
  have := k Group.paths (fun _ _ => rfl) fun _ _ => rfl
  unfold Group.path?; rw [this]

end Sys2Proof.Machine
end

