-- ==== Sys2Proof/Laws/UnitForms.lean ====
section
/-! SUPPORT. Pools, moulds, matrix operations, futures, tasks, the Turntable and FIFOs: the lemmas their statements rest on. -/

namespace Sys2Proof.Machine

theorem setPool_me (s : State) (p n : Nat) (f : Pool → Pool) : (s.setPool p n f).me = s.me := setPart_me ..
theorem pushCause_me (s : State) (p : Nat) (c : FaultCause) : (s.pushCause p c).me = s.me := (State.pushCause_walks (fun _ => True) 0 s p c).1.me
theorem performWrite_me (s : State) (ag : Agent) (p : Place) (bs : List Byte) : (s.performWrite ag p bs).me = s.me :=
  (State.performWrite_walks (W := fun _ => True) 0 ag bs p s fun _ _ => trivial).1.me
theorem atelierFault_me (s : State) (p : Nat) (r : Refuse) (w : Bool) : (s.atelierFault p r w).me = s.me := pushCause_me ..
theorem atelierWrite_me {s t : State} {p va : Nat} {bs : List Byte} (h : s.atelierWrite p va bs = .ok t) : t.me = s.me := by
  unfold State.atelierWrite at h
  dsimp only at h
  split at h
  · cases h
  · cases h
    have key : ∀ (l : List (Place × Nat)) (r : List Byte × State), (l.foldl (fun (r : List Byte × State) (x : Place × Nat) => (r.1.drop x.2, r.2.performWrite { part := p } x.1 (r.1.take x.2))) r).2.me = r.2.me := by
      intro l
      induction l with
      | nil => intro r; rfl
      | cons x l ih => intro r; rw [List.foldl_cons, ih]; exact performWrite_me ..
    exact key _ _
theorem allocBlock_me (s : State) (p n t b : Nat) : (s.allocBlock p n t b).2.me = s.me := by
  unfold State.allocBlock
  have h0 := setPool_me s p n fun q => q.stock t
  generalize (s.setPool p n fun q => q.stock t) = s' at *
  dsimp only
  split
  · exact h0
  · split
    · exact (atelierFault_me ..).trans h0
    · rename_i hw
      exact (setPool_me ..).trans ((atelierWrite_me hw).trans h0)
theorem allocBlocks_me (p n t b : Nat) (l : List Nat) (s : State) : (s.allocBlocks p n t b l).2.me = s.me := by
  induction l generalizing s with
  | nil => rfl
  | cons k ks ih => unfold State.allocBlocks; exact (ih _).trans (allocBlock_me ..)
theorem walkLinks_reaches (fuel va : Nat) (bs : List Nat) (s : State) : Reaches (fun _ => True) s (s.walkLinks fuel va bs).2 := by
  induction fuel generalizing s va bs with
  | zero => cases va <;> exact .refl ..
  | succ n ih =>
    cases va with
    | zero => exact .refl ..
    | succ va =>
      have e : s.walkLinks (n + 1) (va + 1) bs = (match s.refusal (s.groupAgent s.me) .load (va + 1) 8 8 with
          | some r => (.refused r, s)
          | none =>
            let x : Access := { lane := 64, va := va + 1, size := 8, at_ := s.places (s.groupAgent s.me) .load (va + 1) 8 }
            let u := s.before (s.groupAgent s.me) true [x]
            match u.poisonOf (s.groupAgent s.me) false [x] with
            | some (kind, addr, pa, _) => (.poisoned kind addr pa, u)
            | none =>
              let r := (u.noteTlb (u.core (s.groupAgent s.me)) (s.groupAgent s.me).part [va + 1]).loadAccess (s.groupAgent s.me) true x
              State.walkLinks r.2 n (leNat r.1) (bs ++ [va + 1])) := rfl
      rw [e]
      dsimp only
      split
      · exact .refl ..
      · have hb : Reaches (fun _ => True) s (s.before (s.groupAgent s.me) true [{ lane := 64, va := va + 1, size := 8, at_ := s.places (s.groupAgent s.me) .load (va + 1) 8 }]) :=
          (State.before_within (W := fun _ => True) (s.groupAgent s.me) (State.groupAgent_team _ _) true _ (fun _ _ _ _ => trivial)).1
        generalize s.before (s.groupAgent s.me) true [{ lane := 64, va := va + 1, size := 8, at_ := s.places (s.groupAgent s.me) .load (va + 1) 8 }] = u at hb ⊢
        split
        · exact hb
        · refine Reaches.trans ?_ (ih ..)
          refine hb.trans ?_
          refine Reaches.trans (State.noteTlb_walks (fun _ => True) u.me.team (u.core (s.groupAgent s.me)) (s.groupAgent s.me).part [va + 1] u).1 ?_
          exact (State.loadAccess_within (W := fun _ => True) (id := s.me.team) (s.groupAgent s.me) rfl true _ (fun _ _ _ _ => trivial)).1
theorem pool_of_reaches {W : Place → Prop} {s t : State} (h : Reaches W s t) (p n : Nat) : (t.part p).pool? n = (s.part p).pool? n := by
  have h1 : t.parts.map Partition.apart = s.parts.map Partition.apart := congrArg State.parts h.rest
  have h2 : (t.parts.map Partition.apart)[p]? = (s.parts.map Partition.apart)[p]? := by rw [h1]
  rw [Vector.getElem?_map, Vector.getElem?_map] at h2
  unfold State.part
  cases ht : t.parts[p]? <;> cases hs : s.parts[p]? <;> simp_all
  have : ∀ q : Partition, q.apart.pool? n = q.pool? n := fun _ => rfl
  rw [← this, h2, this]
theorem loaded_own {q : State} {u : Bool} {d n : Nat} {beats : Nat} {act : LaneMask} {vals : List (Nat × List Word)} {names : List Nat} {f : Nat → List Word}
    (hn : names = (List.range n).map (d + ·)) (h64 : u = true → ∀ m ∈ names, m < 64) (h48 : u = false → ∀ m ∈ names, m < 48)
    (hf : ∀ k, ((vals.find? (·.1 == k)).map (·.2)).getD [] = f k) :
    OwnV q (q.loaded u d n 0 beats act vals) (if u then q.scalarsWith names (f 64) else q.me.sreg)
      (if u then q.me.vlane else fun m k => if m ∈ names then (if act.getLsbD k then (f k).getD (names.idxOf m) 0 else q.me.vlane m k) else q.me.vlane m k) q.me.cm
    ∧ (q.loaded u d n 0 beats act vals).others = q.others := by
  rw [State.loaded_eq]
  dsimp only
  simp only [hf]
  have hnd := names_nodup d n
  subst hn
  rw [if_neg (by decide)]
  have fin : ∀ (s1 : State) (S : Nat → Word) (V : Nat → Nat → Word), s1.others = q.others → (∀ n, s1.me.sreg n = S n) → (∀ n k, s1.me.vlane n k = V n k) →
      s1.me.p = q.me.p → s1.me.cm = q.me.cm → s1.me.fpsf = q.me.fpsf → s1.me.gstat = q.me.gstat → (s1.me.laneCtr, s1.me.scalarCtr) = (q.me.laneCtr, q.me.scalarCtr) →
      s1.me.special = q.me.special → s1.me.paths = q.me.paths → s1.me.cur = q.me.cur →
      OwnV q (s1.retire { beats := beats }) S V q.me.cm ∧ (s1.retire { beats := beats }).others = q.others := by
    intro s1 S V h1 h2 h3 h4 h5 h6 h7 h8 h9 h10 h11
    refine ⟨⟨fun n => (Group.sreg_congr (by simp) n).trans (h2 n), fun n k => (Group.vlane_congr (by simp) n k).trans (h3 n k), by simp [h4], by simp [h5], by simp [h6], by simp [h7], by simpa using h8, by simp [h9], ?_⟩, (State.retire_others ..).trans h1⟩
    have := s1.retire_goes { beats := beats }
    have hpc : s1.pc = q.pc := State.pc_congr h10 h11
    exact State.goesTo_congr h10 h11 (by rw [show ((({ beats := beats } : Done).target).getD (s1.pc + 4)) = q.pc + 4 by rw [hpc]; rfl] at this; exact this)
  cases u with
  | true =>
    simp only [if_true]
    obtain ⟨a, b⟩ := State.putAll clsNONE ((List.range n).map (d + ·)) ((List.range n).map fun k => (f 64).getD k 0) q hnd (by simp) (h64 rfl)
    refine fin _ _ _ a.others (fun m => ?_) (fun m k => Group.vlane_congr a.v m k) a.p a.cm a.fpsf a.gstat (by rw [a.laneCtr, a.scalarCtr]) a.special a.paths a.cur
    rw [b]
    unfold State.scalarsWith
    split
    · rename_i hm
      have := List.idxOf_lt_length_iff.mpr hm
      rw [getD_range_map _ _ _ (by simpa using this)]
    · rfl
  | false =>
    simp only [Bool.false_eq_true, if_false]
    obtain ⟨a, b, c, e⟩ := State.allocRows_lanes ((List.range n).map (d + ·)) q
    obtain ⟨g, h⟩ := State.writeResults_lanes act ((List.range 64).map fun k => f k) ((List.range n).map (d + ·)) 0 (State.allocRows ((List.range n).map (d + ·)) q) hnd
      fun m hm => e m hm (h48 rfl m hm)
    have w := a.trans g
    refine fin _ _ _ w.others (fun m => Group.sreg_congr w.sc m) (fun m k => ?_) w.p w.cm w.fpsf w.gstat (by rw [w.laneCtr, w.scalarCtr]) w.special w.paths w.cur
    rw [h m k, b]
    split
    · split
      · rename_i hk
        have hk64 : k < 64 := by
          refine Nat.lt_of_not_le fun hh => ?_
          rw [BitVec.getLsbD_of_ge _ _ hh] at hk; cases hk
        have : ((List.range 64).map fun k => f k).getD k [] = f k := by
          rw [List.getD_eq_getElem?_getD, List.getElem?_map, List.getElem?_range hk64]; rfl
        rw [this, Nat.zero_add]
      · rfl
    · rfl
theorem putCMBit_me (q : State) (k : Nat) (b : Bool) (lat : Nat) : ∃ l, (q.putCMBit k b lat).me = { q.me with cm := setBits q.me.cm k 1 (if b then 1 else 0), pending := l } := ⟨_, rfl⟩
theorem withPool_some {s : State} {n : Nat} {u : Bool} {f : State → State} (h : (s.myPart.pool? n).isSome = true) : s.withPool n u f = f s := by
  unfold State.withPool
  obtain ⟨p, hp⟩ := Option.isSome_iff_exists.mp h
  rw [hp]
theorem withPool_none {s : State} {n : Nat} {u : Bool} {f : State → State} (h : s.myPart.pool? n = none) : s.withPool n u f = s.fail { code := 0x0C, detail := 3, mask := s.askMask u s.active } := by
  unfold State.withPool
  rw [h]
/-- Completing with a bit of CM. -/
theorem own_bit {s u : State} {d : Done} {lat : Nat} (h : u.me = s.me) (b : Bool) (hd : d.target = none := by rfl) :
    Own s ((u.putCMBit 0 b lat).retire d) s.me.sreg (s.cmWith 0 b) := by
  obtain ⟨l, e⟩ := putCMBit_me u 0 b lat
  have key : ∀ {α : Type} (F : Group → α), (∀ (g : Group) a b, F { g with cm := a, pending := b } = F g) → F (u.putCMBit 0 b lat).me = F s.me := fun F hF => by rw [e, hF, h]
  refine State.retire_own (fun n => Group.sreg_congr (key Group.s fun _ _ _ => rfl) n) (key Group.v fun _ _ _ => rfl) (key Group.p fun _ _ _ => rfl) (by rw [e, h]; rfl)
    (key Group.fpsf fun _ _ _ => rfl) (key Group.gstat fun _ _ _ => rfl) (key (fun g => (g.laneCtr, g.scalarCtr)) fun _ _ _ => rfl) (key Group.special fun _ _ _ => rfl)
    (key Group.cur fun _ _ _ => rfl) (fun n => ?_) hd
  have := key Group.paths fun _ _ _ => rfl
  unfold Group.path?; rw [this]
/-- Completing with a bit of CM and a scalar result. -/
theorem own_bit_put {s u : State} {d : Done} {lat lat' : Nat} {n : Nat} {v : Word} (h : u.me = s.me) (b : Bool) (hn : n < 64) (hd : d.target = none := by rfl) :
    Own s (((u.putCMBit 0 b lat).putS n v lat').retire d) (s.scalarsWith [n] [v]) (s.cmWith 0 b) ∧ (((u.putCMBit 0 b lat).putS n v lat').retire d).others = u.others := by
  obtain ⟨l, e⟩ := putCMBit_me u 0 b lat
  have key : ∀ {α : Type} (F : Group → α), (∀ (g : Group) a b, F { g with cm := a, pending := b } = F g) → F (u.putCMBit 0 b lat).me = F s.me := fun F hF => by rw [e, hF, h]
  obtain ⟨x, y⟩ := State.putAll lat' [n] [v] (u.putCMBit 0 b lat) (by simp) rfl (by intro m hm; rw [List.mem_singleton.mp hm]; exact hn)
  refine ⟨State.retire_own (fun m => (y m).trans ?_) (x.v.trans (key Group.v fun _ _ _ => rfl)) (x.p.trans (key Group.p fun _ _ _ => rfl)) (x.cm.trans (by rw [e, h]; rfl))
    (x.fpsf.trans (key Group.fpsf fun _ _ _ => rfl)) (x.gstat.trans (key Group.gstat fun _ _ _ => rfl))
    (Prod.ext (x.laneCtr.trans (key Group.laneCtr fun _ _ _ => rfl)) (x.scalarCtr.trans (key Group.scalarCtr fun _ _ _ => rfl))) (x.special.trans (key Group.special fun _ _ _ => rfl))
    (x.cur.trans (key Group.cur fun _ _ _ => rfl)) (fun m => ?_) hd, ?_⟩
  · unfold State.scalarsWith; rw [Group.sreg_congr (key Group.s fun _ _ _ => rfl) m]
  · have : (State.putS (u.putCMBit 0 b lat) n v lat').me.paths = s.me.paths := x.paths.trans (key Group.paths fun _ _ _ => rfl)
    show (Group.path? (State.putS (u.putCMBit 0 b lat) n v lat').me m).map _ = _
    unfold Group.path?; rw [this]
  · rw [State.retire_others]; exact x.others
theorem imageWrite_me (s : State) (p va : Nat) (bs : List Byte) : (s.imageWrite p va bs).me = s.me := by
  unfold State.imageWrite
  split
  · rename_i h; exact atelierWrite_me h
  · exact atelierFault_me ..
theorem setMould_me (s : State) (p n : Nat) (f : Mould → Mould) : (s.setMould p n f).me = s.me := setPart_me ..
theorem closeUp_me (s : State) (p n k : Nat) (b : List Nat) : (s.closeUp p n k b).2.me = s.me := by
  unfold State.closeUp
  dsimp only
  split
  · rfl
  · refine (setMould_me ..).trans ?_
    generalize hl : List.zip _ _ = l
    have key : ∀ (f : State → (Nat × Nat) × Nat → State) (hf : ∀ s x, (f s x).me = s.me) (l : List ((Nat × Nat) × Nat)) (s : State), (l.foldl f s).me = s.me := by
      intro f hf l
      induction l with
      | nil => intro s; rfl
      | cons x l ih => intro s; rw [List.foldl_cons, ih, hf]
    exact key _ (fun s x => (imageWrite_me ..).trans (imageWrite_me ..)) _ _
theorem launchFault_me (s : State) (p va : Nat) (r : Option Refuse) : (s.launchFault p va r).me = s.me := by
  unfold State.launchFault; split <;> exact pushCause_me ..
theorem accept_me (s : State) (p : Nat) (k : Task) (l : Lists) : (s.accept p k l).1.me = s.me := by
  unfold State.accept
  dsimp only
  exact (review_me ..).trans (setPart_me ..)
theorem launchConsumer_me (s : State) (p n k : Nat) : (s.launchConsumer p n k).me = s.me := by
  unfold State.launchConsumer
  dsimp only
  split
  · exact setMould_me ..
  · have h0 := setMould_me s p n fun m => m.setTile k fun t => { t with held := false }
    generalize (s.setMould p n fun m => m.setTile k fun t => { t with held := false }) = x at *
    split
    · exact (launchFault_me ..).trans h0
    · split
      · exact (launchFault_me ..).trans h0
      · exact (setMould_me ..).trans ((accept_me ..).trans h0)
theorem cast_untouched (s : State) (p n k : Nat) : Untouched s (s.cast p n k).2 := by
  unfold State.cast
  dsimp only
  have h0 := closeUp_me s p n k (s.part p).cancelling
  generalize (s.closeUp p n k (s.part p).cancelling).2 = x at *
  split
  · exact .of_me h0
  · have h0 : (x.release 3).me = s.me := (State.release_me ..).trans h0
    generalize x.release 3 = x at *
    refine Untouched.trans (r := x) (.of_me h0) ?_
    refine Untouched.trans ?_ (.of_me (launchConsumer_me ..))
    refine Untouched.trans ?_ (.of_me (setMould_me ..))
    refine Untouched.trans ?_ (setFull_untouched ..)
    exact .of_me ((imageWrite_me ..).trans ((imageWrite_me ..).trans (imageWrite_me ..)))
theorem placeRow_untouched (s : State) (n k : Nat) (bs : List Byte) (t : Word) : Untouched s (s.placeRow n k bs t) := by
  unfold State.placeRow
  dsimp only
  have h : (((s.imageWrite s.me.part ((s.mould s.me.part n).rowAt k ((s.mould s.me.part n).tile k).rows.length) bs).imageWrite s.me.part
      ((s.mould s.me.part n).tagAt k ((s.mould s.me.part n).tile k).rows.length) (leBytes 4 t.toNat))).me = s.me := (imageWrite_me ..).trans (imageWrite_me ..)
  generalize ((s.imageWrite s.me.part ((s.mould s.me.part n).rowAt k ((s.mould s.me.part n).tile k).rows.length) bs).imageWrite s.me.part
      ((s.mould s.me.part n).tagAt k ((s.mould s.me.part n).tile k).rows.length) (leBytes 4 t.toNat)) = x at *
  split
  · exact .of_me ((setMould_me ..).trans h)
  · exact Untouched.trans (.of_me ((setMould_me ..).trans h)) (cast_untouched ..)
theorem drainRange_me (s : State) (p t va n : Nat) : (s.drainRange p t va n).me = s.me := by
  unfold State.drainRange
  have key : ∀ (l : List Nat) (x : State), (l.foldl (fun s l => s.drainEntry t l) x).me = x.me := by
    intro l
    induction l with
    | nil => intro x; rfl
    | cons a l ih => intro x; exact (ih _).trans (State.drainEntry_within (id := t) (W := fun _ => True) (fun _ _ _ _ => trivial) a).1.me
  exact key _ _
/-- Everything of a group but its lanes done stands. -/
theorem fillLanes_keeps (n : Nat) (a b : BitVec 6) (l : List Nat) (s : State) : Untouched (s.withMe fun g => { g with fillDone := (s.fillLanes n a b l).2.me.fillDone }) (s.fillLanes n a b l).2 := by
  induction l generalizing s with
  | nil => exact .of_me rfl
  | cons k ks ih =>
    unfold State.fillLanes
    dsimp only
    split
    · exact .of_me rfl
    · rename_i k' hk'
      generalize hx : (s.drainRange s.me.part s.me.team (s.dword (.v a.toNat) k).toNat (s.mould s.me.part n).rowSize) = x
      have h0 : x.me = s.me := by rw [← hx]; exact drainRange_me ..
      generalize hb : List.flatMap _ _ = bs
      generalize hw : s.me.vlane b.toNat k = w
      have hp := placeRow_untouched x n k' bs w
      generalize x.placeRow n k' bs w = y at *
      have hi := ih (y.withMe fun g => { g with fillDone := g.fillDone ||| (1 <<< k) })
      generalize hz : ((y.withMe fun g => { g with fillDone := g.fillDone ||| (1 <<< k) }).fillLanes n a b ks).2 = z at *
      have hs : Untouched (s.withMe fun g => { g with fillDone := z.me.fillDone }) ((y.withMe fun g => { g with fillDone := g.fillDone ||| (1 <<< k) }).withMe fun g => { g with fillDone := z.me.fillDone }) := by
        have q : ∀ (g h : Group), g.special = h.special → ({ g with fillDone := z.me.fillDone } : Group).special = ({ h with fillDone := z.me.fillDone } : Group).special := fun g h e => by
          have e2 : ∀ g : Group, ({ g with fillDone := z.me.fillDone } : Group).special = { g.special with fillDone := z.me.fillDone } := fun _ => rfl
          rw [e2, e2, e]
        constructor
        · exact hp.sc.trans (congrArg Group.s h0 : Group.s x.me = Group.s s.me)
        · exact hp.v.trans (congrArg Group.v h0 : Group.v x.me = Group.v s.me)
        · exact hp.p.trans (congrArg Group.p h0 : Group.p x.me = Group.p s.me)
        · exact hp.cm.trans (congrArg Group.cm h0 : Group.cm x.me = Group.cm s.me)
        · exact hp.fpsf.trans (congrArg Group.fpsf h0 : Group.fpsf x.me = Group.fpsf s.me)
        · exact hp.gstat.trans (congrArg Group.gstat h0 : Group.gstat x.me = Group.gstat s.me)
        · exact hp.streams.trans (congrArg (fun g : Group => (g.laneCtr, g.scalarCtr)) h0 : (fun g : Group => (g.laneCtr, g.scalarCtr)) x.me = (fun g : Group => (g.laneCtr, g.scalarCtr)) s.me)
        · exact q y.me s.me (hp.special.trans (by rw [h0]))
        · exact hp.cur.trans (congrArg Group.cur h0 : Group.cur x.me = Group.cur s.me)
        · intro n; exact (hp.sites n).trans (by rw [h0]; rfl)
        · intro n; exact (hp.lanes n).trans (by rw [h0]; rfl)
      exact hs.trans hi
theorem withMould_on {s : State} {n : Nat} {m : LaneMask} {f : State → State} (h : n ≤ 63) (he : (s.mould s.me.part n).enabled = true) : s.withMould n m f = f s := by
  unfold State.withMould; rw [if_neg (by omega), if_pos he]
theorem matrix_waits {i : Instr} {s u : State} {w : Wait} (h : u.me = s.me) (e : exec i s = .next (u.block w)) : WaitsFor i s u w :=
  ⟨_, e, State.block_blocks h w⟩
theorem matrix_ends {i : Instr} {s u : State} {d : Done} (h : u.me = s.me) (hd : d.target = none) (e : exec i s = .next (u.retire d)) : Ends i s u :=
  ⟨_, e, State.retire_own_me h hd, State.retire_others ..⟩
theorem enqueue_me (s : State) (k : MatKind) : (s.enqueue k).me = s.me := rfl
theorem block_own' {s u : State} (w : Wait) (h : u.me = s.me) : Blocks s (u.block w) w ∧ (u.block w).others = u.others := State.block_blocks h w
theorem seen_next {s : State} {us : List Use} : ∃ a b, (s.seen us) = s.withMe fun g => { g with gstat := a, gapNew := b } := State.seen_me s us
theorem kstep_ok (mk : BitVec 6 → BitVec 6 → Bool → Instr) (k : StepKind) (he : ∀ a b e s, exec (mk a b e) s = s.kstep k a b e) : KStepForm mk k := by
  refine ⟨?_, ?_⟩
  · intro s r a b e va uses f n rows g hans hgang hva hus hok hc hr hf hn hrows hg
    have h1 : exec (mk a b e) s = .next (r.stepAlone k b.toNat e va) := by
      rw [he, State.kstep, hans]
      simp only [Option.isSome_none, Bool.false_eq_true, if_false, hgang, ← hva]
      rw [← hus, State.checked_clear hok hc, if_neg (by simp), ← hr]
      have : r.gangOf = none := by
        obtain ⟨x, y, h⟩ := State.seen_me s (.exm :: uses)
        rw [hr, h]; exact hgang
      rw [this]
    rw [State.stepAlone, hf] at h1
    dsimp only at h1
    split
    · rename_i hq
      rw [if_pos hq] at h1
      exact ⟨_, h1, State.block_blocks rfl _⟩
    · rename_i hq
      rw [if_neg hq] at h1
      subst hn hrows
      refine ⟨_, h1, State.retire_own (fun _ => rfl) rfl rfl rfl rfl rfl rfl ?_ rfl (fun _ => rfl) rfl, ?_⟩
      · rw [hg]; rfl
      · rw [State.retire_others]; rfl
  · intro s a b e h
    refine matrix_ends (d := {}) rfl rfl ?_
    rw [he, State.kstep, if_pos h]
theorem takeResult_own {q : State} {d n : Nat} {data : List Word} {ls : List (Nat × List Word)} (hr : State.rowsFor [] ((List.range n).map (d + ·)) q = true)
    (hls : ls = (List.range (data.length / (n + 1))).map (fun k => ((data.getD (k * (n + 1)) 0).toNat, (data.drop (k * (n + 1) + 1)).take n))) (h48 : d + n ≤ 48) :
    OwnV q (q.takeResult d n data) q.me.sreg (fun m l => if d ≤ m ∧ m < d + n then (match ls.find? (·.1 == l) with
        | some r => if l < 64 then r.2.getD (m - d) 0 else q.me.vlane m l
        | none => q.me.vlane m l) else q.me.vlane m l) q.me.cm
    ∧ (q.takeResult d n data).others = q.others := by
  unfold State.takeResult
  dsimp only
  rw [← hls, hr, Bool.not_true, if_neg (by simp)]
  have hnd := names_nodup d n
  have fin : ∀ (beats : Nat) (s1 : State) (V : Nat → Nat → Word), VectorsOnly q s1 → (∀ n k, s1.me.vlane n k = V n k) →
      OwnV q (s1.retire { beats := beats }) q.me.sreg V q.me.cm ∧ (s1.retire { beats := beats }).others = q.others := by
    intro beats s1 V h1 h3
    refine ⟨⟨fun n => (Group.sreg_congr (by simp) n).trans (Group.sreg_congr h1.sc n), fun n k => (Group.vlane_congr (by simp) n k).trans (h3 n k), by simp [h1.p], by simp [h1.cm], by simp [h1.fpsf], by simp [h1.gstat], by simp [h1.laneCtr, h1.scalarCtr], by simp [h1.special], ?_⟩, (State.retire_others ..).trans h1.others⟩
    have := s1.retire_goes { beats := beats }
    have hpc : s1.pc = q.pc := State.pc_congr h1.paths h1.cur
    exact State.goesTo_congr h1.paths h1.cur (by rw [show ((({ beats := beats } : Done).target).getD (s1.pc + 4)) = q.pc + 4 by rw [hpc]; rfl] at this; exact this)
  obtain ⟨a, b, c, e⟩ := State.allocRows_lanes ((List.range n).map (d + ·)) q
  generalize hact : (maskOf fun l => ls.any (·.1 == l)) = act
  obtain ⟨g, h⟩ := State.writeResults_lanes act ((List.range 64).map fun l => ((ls.find? (·.1 == l)).map (·.2)).getD []) ((List.range n).map (d + ·)) 0 (State.allocRows ((List.range n).map (d + ·)) q) hnd
    fun m hm => e m hm (by obtain ⟨k, hk, rfl⟩ := List.mem_map.mp hm; have := List.mem_range.mp hk; omega)
  refine fin _ _ _ (a.trans g) fun m k => ?_
  rw [h m k, b]
  have hmem : m ∈ (List.range n).map (d + ·) ↔ d ≤ m ∧ m < d + n := by
    constructor
    · intro hm; obtain ⟨k, hk, rfl⟩ := List.mem_map.mp hm; have := List.mem_range.mp hk; omega
    · intro ⟨h1, h2⟩; exact List.mem_map.mpr ⟨m - d, List.mem_range.mpr (by omega), by omega⟩
  by_cases hm : d ≤ m ∧ m < d + n
  · rw [if_pos (hmem.mpr hm), if_pos hm, ← hact, maskOf_getLsbD]
    have hix : ((List.range n).map (d + ·)).idxOf m = m - d := by
      have h1 : ((List.range n).map (d + ·))[m - d]? = some m := by
        rw [List.getElem?_map, List.getElem?_range (by omega)]; simp only [Option.map_some, Option.some.injEq]; omega
      obtain ⟨h2, h3⟩ := List.getElem?_eq_some_iff.mp h1
      have := hnd.idxOf_getElem (m - d) h2
      rw [h3] at this; exact this
    cases hf : ls.find? (·.1 == k) with
    | none =>
      have : ls.any (·.1 == k) = false := by
        rw [List.any_eq_false]; exact List.find?_eq_none.mp hf
      rw [this]; simp
    | some r =>
      have h1 : ls.any (·.1 == k) = true := List.any_eq_true.mpr ⟨r, List.mem_of_find?_eq_some hf, by simpa using List.find?_some hf⟩
      rw [h1]
      by_cases hk : k < 64
      · have : ((List.range 64).map fun l => ((ls.find? (·.1 == l)).map (·.2)).getD []).getD k [] = r.2 := by
          rw [List.getD_eq_getElem?_getD, List.getElem?_map, List.getElem?_range hk]; simp only [Option.map_some, Option.getD_some, hf]
        rw [this, hix]
        simp only [hk, decide_true, Bool.and_true, Nat.zero_add, if_true]
      · simp [hk]
  · rw [if_neg (fun h => hm (hmem.mp h)), if_neg hm]
theorem orPoison_none {s : State} {m : LaneMask} {k : State → State} (h : s.myTeam.matPoisoned = none) : s.orPoison m k = k s := by
  unfold State.orPoison; rw [h]
theorem queueOp_form {i : Instr} {s : State} {k : MatKind} {d : Done} (hd : d.target = none) (e : exec i s = .next (s.queueOp k d)) :
    if s.queueFull then WaitsFor i s s .engineRoom else Ends i s (s.enqueue k) := by
  unfold State.queueOp at e
  split
  · rename_i h; rw [if_pos h] at e; exact matrix_waits rfl e
  · rename_i h; rw [if_neg h] at e; exact matrix_ends rfl hd e
theorem seen_team (s : State) (us : List Use) : (s.seen us).myTeam = s.myTeam ∧ (s.seen us).answer = s.answer ∧ (s.seen us).awaiting = s.awaiting := by
  obtain ⟨x, y, h⟩ := State.seen_me s us
  rw [h]; exact ⟨rfl, rfl, rfl⟩
theorem seen_scalar_exm {s : State} {us : List Use} (hu : us.all (fun x => !x.isVector) = true) : s.seen (.exm :: us) = s :=
  State.seen_none fun x hx => by
    rcases List.mem_cons.mp hx with rfl | hx
    · rfl
    · simpa using List.all_eq_true.mp hu x hx
theorem checked_exm {s : State} {legal : Bool} {us : List Use} {k : State → State} (hl : legal = true) (hc : s.clear false us = true) (hu : us.all (fun x => !x.isVector) = true) :
    s.checked legal false us k = k s := by
  rw [State.checked_clear hl hc, if_neg (by simp), seen_scalar_exm hu]
theorem team_setTeam {s : State} {id : Nat} {f : Team → Team} (h : (s.team? id).isSome = true) (hf : ∀ t, (f t).id = t.id) : (s.setTeam id f).team id = f (s.team id)
    ∧ ((s.setTeam id f).team? id).isSome = true := by
  have key : ∀ l : List Team, (l.map fun t => if t.id = id then f t else t).find? (·.id == id) = (l.find? (·.id == id)).map f := by
    intro l
    induction l with
    | nil => rfl
    | cons a l ih =>
      rw [List.map_cons, List.find?_cons, List.find?_cons]
      by_cases e : a.id = id
      · rw [if_pos e, hf, show (a.id == id) = true by simpa using e]; rfl
      · rw [if_neg e, show (a.id == id) = false by simpa using e]; exact ih
  have hk : (s.setTeam id f).team? id = (s.team? id).map f := key s.teams
  unfold State.team
  rw [hk]
  obtain ⟨t, ht⟩ := Option.isSome_iff_exists.mp h
  rw [ht]
  exact ⟨rfl, rfl⟩
theorem element_set (t : Team) (r c r' c' : Nat) (v : BitVec 40) : (t.setElement r c v).element r' c' = if 128 * r + c = 128 * r' + c' then v else t.element r' c' := by
  unfold Team.setElement Team.element
  dsimp only
  by_cases hv : v = 0
  · rw [if_pos hv]
    by_cases h : 128 * r + c = 128 * r' + c'
    · rw [if_pos h, ← h, lookD, look_drop_same, hv]; rfl
    · rw [if_neg h, lookD, look_drop_other _ (Ne.symm h)]; rfl
  · rw [if_neg hv]
    by_cases h : 128 * r + c = 128 * r' + c'
    · rw [if_pos h, ← h, lookD_put_same]
    · rw [if_neg h, lookD_put_other _ _ _ (Ne.symm h)]
theorem fold_other (vs : List ((Nat × Nat) × BitVec 40)) (t : Team) (r c : Nat) (h : ∀ v ∈ vs, 128 * v.1.1 + v.1.2 ≠ 128 * r + c) :
    (vs.foldl (fun t v => t.setElement v.1.1 v.1.2 v.2) t).element r c = t.element r c := by
  induction vs generalizing t with
  | nil => rfl
  | cons v vs ih =>
    rw [List.foldl_cons, ih _ fun w hw => h w (List.mem_cons_of_mem _ hw), element_set, if_neg (h v (List.mem_cons_self ..))]
theorem fold_at (vs : List ((Nat × Nat) × BitVec 40)) (t : Team) (r c : Nat) (x : BitVec 40) (h : ∀ v ∈ vs, 128 * v.1.1 + v.1.2 = 128 * r + c → v.2 = x)
    (he : ∃ v ∈ vs, 128 * v.1.1 + v.1.2 = 128 * r + c) : (vs.foldl (fun t v => t.setElement v.1.1 v.1.2 v.2) t).element r c = x := by
  induction vs generalizing t with
  | nil => obtain ⟨v, h, -⟩ := he; cases h
  | cons v vs ih =>
    rw [List.foldl_cons]
    by_cases hx : ∃ w ∈ vs, 128 * w.1.1 + w.1.2 = 128 * r + c
    · exact ih _ (fun w hw => h w (List.mem_cons_of_mem _ hw)) hx
    · obtain ⟨w, hw, hk⟩ := he
      rcases List.mem_cons.mp hw with rfl | hw
      · rw [fold_other _ _ _ _ fun y hy e => hx ⟨y, hy, e⟩, element_set, if_pos hk]
        exact h _ (List.mem_cons_self ..) hk
      · exact absurd ⟨w, hw, hk⟩ hx
theorem foldl_id (vs : List ((Nat × Nat) × BitVec 40)) (t : Team) : (vs.foldl (fun t v => t.setElement v.1.1 v.1.2 v.2) t).id = t.id
    ∧ (vs.foldl (fun t v => t.setElement v.1.1 v.1.2 v.2) t).matQueue = t.matQueue := by
  induction vs generalizing t with
  | nil => exact ⟨rfl, rfl⟩
  | cons v vs ih => rw [List.foldl_cons]; exact ih _
theorem write_team {s : State} {id : Nat} (vs : List ((Nat × Nat) × BitVec 40)) (fl : Nat) (h : (s.team? id).isSome = true) (he : s.errors = []) :
    (s.writeElements id vs fl).team id = { vs.foldl (fun t v => t.setElement v.1.1 v.1.2 v.2) (s.team id) with msf := (s.team id).msf ||| BitVec.ofNat 32 fl }
    ∧ ((s.writeElements id vs fl).team? id).isSome = true ∧ (s.writeElements id vs fl).me = s.me := by
  unfold State.writeElements
  dsimp only
  rw [show (s.setTeam id fun t => { vs.foldl (fun t v => t.setElement v.1.1 v.1.2 v.2) t with msf := t.msf ||| BitVec.ofNat 32 fl }).errors = [] from he]
  rw [if_pos (show ([] : List SoftError).isEmpty = true from rfl)]
  obtain ⟨a, b⟩ := team_setTeam (f := fun t => { vs.foldl (fun t v => t.setElement v.1.1 v.1.2 v.2) t with msf := t.msf ||| BitVec.ofNat 32 fl }) h (fun t => (foldl_id vs t).1)
  exact ⟨a, b, rfl⟩
theorem matrix_performs {s : State} {id : Nat} (h : s.matrixTurn (s.team id) = true) :
    exec (.matrixOperation id) s = .next { s.performMatrix id with matLast := put (s.team id).tile (s.team id).ctx s.matLast } := by
  show Host.Outcome.next (if s.matrixTurn (s.team id) = true then _ else s) = _
  rw [if_pos h]
theorem last_team (u : State) (l : List (Nat × Nat)) (id : Nat) : ({ u with matLast := l } : State).team id = u.team id := rfl
theorem named_code {t : Team} {h : Word} {k : Nat} (hn : t.named h = some k) : (t.future k).state.code ≠ 5 := by
  unfold Team.named at hn
  dsimp only at hn
  split at hn
  · rename_i hc
    cases hn
    simp only [Bool.and_eq_true, bne_iff_ne, ne_eq] at hc
    revert hc
    cases (t.future (h.toNat % 64)).state <;> simp [FutureState.code]
  · cases hn
theorem reported_eq {s : State} {c : Nat} (h5 : c ≠ 5) : s.reported c = if c = 0 then s else s.acquire 3 := by
  unfold State.reported
  by_cases h : c = 0 <;> simp [h, h5]
theorem useEntry_ok {s : State} {k : Nat} {f : State → State} (h : s.struck 8 s.me.tile (s.myTeam.futureWord k) = false) : s.useEntry k f = f s := by
  unfold State.useEntry; rw [h]; rfl
theorem untouched_acq {s u : State} (h : u.me = s.me) (n : Nat) : Untouched s (u.acquire n) := .of_me ((State.acquire_me ..).trans h)
theorem cancelChain_me (s : State) (t k : Nat) : (s.cancelChain t k).me = s.me := by
  unfold State.cancelChain
  dsimp only
  generalize List.flatMap _ _ = l
  have key : ∀ (l : List (Nat × Nat)) (x : State), (l.foldl (fun s x => s.leaveUnit x.1 x.2) x).me = x.me := by
    intro l
    induction l with
    | nil => intro x; rfl
    | cons a l ih => intro x; rw [List.foldl_cons, ih]; exact (State.setPart_me ..).trans (State.setPart_me ..)
  exact key ..
theorem cancelFuture_me (s : State) (t k : Nat) : (s.cancelFuture t k).me = s.me := by
  unfold State.cancelFuture
  split
  · exact cancelChain_me ..
  · rfl
theorem loadAccess_me (s : State) (ag : Agent) (a : Access) : (s.loadAccess ag false a).2.me = s.me := by
  exact (State.loadAccess_weak (fun _ => True) 0 ag a s).1.me
theorem awaitTasks_ok {s : State} {i : Instr} {ids : List Nat} {w : BitVec 2} (he : exec i s = .next (s.awaitTasks ids w)) :
    if ids.all fun id => ((s.myPart.task? id).map (·.complete)).getD true then
      Ends i s (s.acquire 3) (cm := s.cmWith 0 (ids.any fun id => ((s.myPart.task? id).map (·.killed)).getD false))
    else WaitsFor i s s (.tasks ids) := by
  unfold State.awaitTasks at he
  split
  · rename_i h
    rw [if_pos h, State.tasksAwaited] at he
    rw [Bool.or_false] at he
    exact Ends.bit (.of_me (State.acquire_me ..)) rfl rfl he
  · rename_i h
    rw [if_neg h] at he
    exact WaitsFor.of rfl he
theorem ttOp_queues {i : Instr} {s : State} {ok : Bool} {uses : List Use} {v : Option Word} {acq rel : Bool} {kind : State → TTKind} {k : TTKind}
    {done : State → Nat → List Word → State} (he : exec i s = s.ttOp ok uses v acq rel kind done) (ha : s.answer = none) (hc : s.clear true uses = true)
    (hu : uses.all (fun x => !x.isVector) = true) (hok : ok = true) (hv : ∀ x, v = some x → x.toNat < 64) (hk : ∀ u : State, u.me = s.me → u.now = s.now → kind u = k) : TTQueues i s v rel k := by
  unfold State.ttOp at he
  rw [ha] at he
  dsimp only at he
  have hl : (ok && (v.map fun v => decide (v.toNat < 64)).getD true) = true := by
    rw [hok]; cases v with
    | none => rfl
    | some x => simpa using hv x rfl
  rw [State.checked_scalar hl hc hu] at he
  refine ⟨?_, ?_, ?_⟩
  · intro x hx hn
    subst hx
    rw [if_pos (by simp [hn])] at he
    exact he
  · intro hm hf
    rw [if_neg (by cases v with
      | none => simp
      | some x => have := hm x rfl; simp [Option.isSome_iff_ne_none.mp this]), if_pos hf] at he
    exact WaitsFor.of rfl he
  · intro hm hf u hu
    rw [if_neg (by cases v with
      | none => simp
      | some x => have := hm x rfl; simp [Option.isSome_iff_ne_none.mp this]), if_neg (Nat.not_le.mpr hf), ← hu] at he
    have hum : u.me = s.me := by
      rw [hu]; split
      · exact State.release_me ..
      · rfl
    have hun : u.now = s.now := by
      rw [hu]; split
      · exact (congrArg State.now (State.release_within (W := fun _ => True) (fun _ _ _ _ => trivial) 3).1.rest : _)
      · rfl
    rw [hum, hk u hum hun] at he
    exact WaitsFor.of (u := u.setStation _ _) hum he
theorem ttOp_done {i : Instr} {s : State} {ok : Bool} {uses : List Use} {v : Option Word} {acq rel : Bool} {kind : State → TTKind} {n : Nat} {ws : List Word}
    {done : State → Nat → List Word → State} (he : exec i s = s.ttOp ok uses v acq rel kind done) (ha : s.answer = some (n, ws)) (h3 : n ≠ 3) (h7 : n ≠ 7) :
    exec i s = .next ((done (if acq then s.acquire 3 else s) n ws).retire {}) := by
  unfold State.ttOp at he
  rw [ha] at he
  rcases n with _ | _ | _ | _ | _ | _ | _ | _ | n <;> first | exact he | contradiction
theorem putWords_eq (s : State) (d : Nat) (ws : List Word) : s.putWords d ws = (((List.range ws.length).map (d + ·)).zip ws).foldl (fun s p => s.putS p.1 p.2 clsNONE) s := by
  unfold State.putWords
  have : ∀ (ws : List Word) (r : List Nat) (s : State), (ws.zip r).foldl (fun (s : State) x => s.putS (d + x.2) x.1 clsNONE) s = ((r.map (d + ·)).zip ws).foldl (fun s p => s.putS p.1 p.2 clsNONE) s := by
    intro ws
    induction ws with
    | nil => intro r s; simp
    | cons w ws ih =>
      intro r s
      cases r with
      | nil => rfl
      | cons a r => simp only [List.zip_cons_cons, List.map_cons, List.foldl_cons]; exact ih ..
  exact this ..
theorem answered_words {i : Instr} {s : State} {d : BitVec 6} {ws : List Word} {acq : Bool} (h : d.toNat + ws.length ≤ 64)
    (he : exec i s = .next (((if acq then s.acquire 3 else s).putWords d.toNat ws).retire {})) : TTAnswered i s d.toNat ws acq s.me.cm := by
  rw [putWords_eq] at he
  refine Ends.puts (.of_me ?_) (names_nodup _ _) (by simp) (fun n hn => ?_) rfl he
  · split
    · exact State.acquire_me ..
    · rfl
  · obtain ⟨k, hk, rfl⟩ := List.mem_map.mp hn; have := List.mem_range.mp hk; omega
theorem answered_bit {i : Instr} {s : State} {d : Nat} {ws : List Word} {acq b : Bool} (h : d + ws.length ≤ 64)
    (he : exec i s = .next ((((if acq then s.acquire 3 else s).putWords d ws).putCMBit 0 b clsNONE).retire {})) : TTAnswered i s d ws acq (s.cmWith 0 b) := by
  rw [putWords_eq] at he
  refine Ends.putsBit (.of_me ?_) (names_nodup _ _) (by simp) (fun n hn => ?_) rfl rfl he
  · split
    · exact State.acquire_me ..
    · rfl
  · obtain ⟨k, hk, rfl⟩ := List.mem_map.mp hn; have := List.mem_range.mp hk; omega
theorem answered_bit0 {i : Instr} {s : State} {acq b : Bool}
    (he : exec i s = .next (((if acq then s.acquire 3 else s).putCMBit 0 b clsNONE).retire {})) : TTAnswered i s 0 [] acq (s.cmWith 0 b) := by
  refine Ends.putsBit (ds := []) (ws := []) (lat := 0) (.of_me ?_) List.nodup_nil rfl (by simp) rfl rfl he
  split
  · exact State.acquire_me ..
  · rfl
theorem answered_none {i : Instr} {s : State} {acq : Bool} (he : exec i s = .next ((if acq then s.acquire 3 else s).retire {})) : TTAnswered i s 0 [] acq s.me.cm := by
  refine Ends.puts (ds := []) (ws := []) (lat := 0) (.of_me ?_) List.nodup_nil rfl (by simp) rfl he
  split
  · exact State.acquire_me ..
  · rfl
theorem slot_same (s : State) (j : Nat) (f : Slot → Slot) : (s.setSlot j f).slot j = f (s.slot j) := by
  unfold State.setSlot State.slot; exact lookD_put_same ..
theorem slot_other (s : State) {i j : Nat} (f : Slot → Slot) (h : i ≠ j) : (s.setSlot j f).slot i = s.slot i := by
  unfold State.setSlot State.slot; exact lookD_put_other _ _ _ h
theorem perform_due {s : State} {st : Nat} {o : TTOp} {os : List TTOp} {j : Nat} (h : s.station st = o :: os) (hl : look o.vslot (s.part o.part).vslots = some j)
    (hp : s.passing st = j) (hq : o.queuedAt < s.now) (hb : ∀ k, o.kind ≠ .board k) : s.ttDue st = true ∧ s.ttSlot st o = some j := by
  have h1 : s.ttSlot st o = some j := by
    unfold State.ttSlot
    cases hk : o.kind with
    | board k => exact absurd hk (hb k)
    | _ => exact hl
  refine ⟨?_, h1⟩
  unfold State.ttDue
  rw [h]
  dsimp only
  cases hk : o.kind with
  | board k => exact absurd hk (hb k)
  | _ => dsimp only; rw [h1]; simp [hp, hq]
theorem block_lt {d : BitVec 6} (h : block d = true) {ws : List Word} (hl : ws.length = 16) : ∀ n ∈ (List.range ws.length).map (d.toNat + ·), n < 64 := by
  intro n hn
  obtain ⟨k, hk, rfl⟩ := List.mem_map.mp hn
  have := List.mem_range.mp hk
  have h2 : d.toNat % 16 = 0 := by simpa [block] using h
  have := d.isLt
  omega
theorem pushed_own {s r u : State} {d : BitVec 6} {x : Nat} {i : Instr} (h : u.me = r.me) (he : exec i s = .next (u.pushed d x)) :
    ∃ t, exec i s = .next t ∧ Own r t (r.scalarsWith [d.toNat] [BitVec.ofNat 32 x]) r.me.cm ∧ t.others = u.others := by
  obtain ⟨y, hx, h1, h2, h3, h4, h5, h6, h7, h8, h9, h10, h11⟩ := (Untouched.of_me h).puts (ds := [d.toNat]) (ws := [BitVec.ofNat 32 x]) (nodup_one _) rfl (reg_lt d) clsNONE
  have he : exec i s = .next (y.retire { beats := beatsOf u.active }) := by rw [hx]; exact he
  exact ⟨_, he, State.retire_own h1 h2 h3 h4 h5 h6 h7 h8 h9 h11 rfl, (State.retire_others ..).trans h10⟩
theorem setChannel_me (s : State) (k : Nat) (f : Channel → Channel) : (s.setChannel k f).me = s.me := rfl
theorem seen_nil (s : State) : s.seen [.exm] = s := State.seen_none (by intro x hx; rw [List.mem_singleton.mp hx]; rfl)
theorem onMailbox_ok {s : State} {ok : Bool} {uses : List Use} {b : BitVec 6} {f : Nat → State → State} (h : (ok && mailboxId (s.rs b.toNat)) = true)
    (hc : s.clear true (.s b.toNat :: uses) = true) (hu : uses.all (fun x => !x.isVector) = true) :
    s.onMailbox ok uses b f = if s.myPart.ownsMailbox (s.rs b.toNat).toNat then f (s.rs b.toNat).toNat s else s.raise { code := 0x0C, detail := 3, mask := s.exm } := by
  unfold State.onMailbox
  dsimp only
  rw [State.checked_scalar h hc (by simpa [Use.isVector] using hu)]
theorem sound_me (s : State) (k a f n : Nat) : (s.sound k a f n).me = s.me := by
  unfold State.sound; split <;> rfl
theorem moveUp_me (s : State) (k a f n e : Nat) : (s.moveUp k a f n e).me = s.me := by
  unfold State.moveUp; dsimp only; split
  · exact sound_me ..
  · exact sound_me ..
theorem takeMail_me (s : State) (id k : Nat) : (s.takeMail id k).me = s.me := moveUp_me ..
theorem countStale_frame (s : State) (o : Option Nat) (n : Nat) : (s.countStale o n).me = s.me ∧ (s.countStale o n).now = s.now := by
  unfold State.countStale
  cases o
  · exact ⟨rfl, rfl⟩
  · exact ⟨State.setPart_me .., State.setPart_now ..⟩
theorem stalePost_me (s : State) : s.stalePost.me = s.me := by
  unfold State.stalePost; split
  · exact (countStale_frame ..).1
  · rfl
theorem stalePost_now (s : State) : s.stalePost.now = s.now := by
  unfold State.stalePost; split
  · exact (countStale_frame ..).2
  · rfl
theorem sound_channel (s : State) (k a f n t : Nat) : (s.sound k a f n).channel t = s.channel t := by
  unfold State.sound; split <;> rfl

end Sys2Proof.Machine
end

