-- ==== Sys2Proof/Laws/MachineForms.lean ====
section
/-! SUPPORT. Preemption, fault records, the stack, observation and chains: the lemmas their statements rest on. -/

namespace Sys2Proof.Machine

theorem team?_id {s : State} {id : Nat} {t : Team} (h : s.team? id = some t) : t.id = id := by
  have := List.find?_some h; simpa using this
/-- Teams that agree in what they are of agree in what a number finds. -/
theorem roster_team {x s : State} {id : Nat} {t : Team} (hx : x.teams.map (fun t => (t.id, t.part, t.task)) = s.teams.map (fun t => (t.id, t.part, t.task)))
    (ht : s.team? id = some t) : (x.team id).id = id ∧ (x.team id).part = t.part ∧ (x.team id).task = t.task := by
  have key : ∀ (l m : List Team), l.map (fun t => (t.id, t.part, t.task)) = m.map (fun t => (t.id, t.part, t.task)) → ∀ y, m.find? (·.id == id) = some y →
      ∃ z, l.find? (·.id == id) = some z ∧ (z.id, z.part, z.task) = (y.id, y.part, y.task) := by
    intro l
    induction l with
    | nil => intro m h y hy; cases m with
      | nil => cases hy
      | cons => cases h
    | cons a l ih =>
      intro m h y hy
      cases m with
      | nil => cases hy
      | cons b m =>
        simp only [List.map_cons, List.cons.injEq, Prod.mk.injEq] at h
        rw [List.find?_cons] at hy ⊢
        rw [h.1.1]
        cases hb : b.id == id with
        | true => rw [hb] at hy; cases hy; exact ⟨a, rfl, by rw [h.1.1, h.1.2.1, h.1.2.2]⟩
        | false => rw [hb] at hy; exact ih m h.2 y hy
  obtain ⟨z, hz, hzz⟩ := key _ _ hx t ht
  unfold State.team State.team?
  rw [hz]
  simp only [Prod.mk.injEq] at hzz
  exact ⟨hzz.1.trans (team?_id ht), hzz.2.1, hzz.2.2⟩
theorem writeHead_teams (s : State) (p k : Nat) : (s.writeHead p k).teams = s.teams := by unfold State.writeHead; split <;> rfl
theorem withdrawIf_roster (s : State) (p : Nat → Nat → Bool) :
    (s.withdrawIf p).teams.map (fun t => (t.id, t.part, t.task)) = s.teams.map (fun t => (t.id, t.part, t.task)) := by
  have key : ∀ (l : List FebWaiter) (s : State), (l.foldl (fun s w => s.writeHead w.part w.buffer) s).teams = s.teams := by
    intro l
    induction l with
    | nil => intro s; rfl
    | cons w l ih => intro s; rw [List.foldl_cons, ih, writeHead_teams]
  unfold State.withdrawIf
  dsimp only
  rw [key, List.map_map]
  rfl
/-- A core and a saved list in which a team stands once, on its core. -/
theorem seated {s t : State} {a b : Nat} (ht : t.teams.map (fun t => (t.id, t.tile)) = s.teams.map (fun t => (t.id, t.tile)))
    (hv : t.saved.map (fun v => v.team.id) = s.saved.map (fun v => v.team.id))
    (h : (∃ x ∈ s.teams, x.id = a ∧ x.tile = b) ∧ ∀ x ∈ s.saved, x.team.id ≠ a) : (∃ x ∈ t.teams, x.id = a ∧ x.tile = b) ∧ ∀ x ∈ t.saved, x.team.id ≠ a := by
  obtain ⟨⟨x, hx, h1, h2⟩, h3⟩ := h
  refine ⟨?_, fun y hy => ?_⟩
  · have : (a, b) ∈ t.teams.map (fun t => (t.id, t.tile)) := by rw [ht]; exact List.mem_map.mpr ⟨x, hx, by rw [h1, h2]⟩
    obtain ⟨y, hy, e⟩ := List.mem_map.mp this
    exact ⟨y, hy, congrArg Prod.fst e, congrArg Prod.snd e⟩
  · have : y.team.id ∈ s.saved.map (fun v => v.team.id) := by rw [← hv]; exact List.mem_map.mpr ⟨y, hy, rfl⟩
    obtain ⟨z, hz, e⟩ := List.mem_map.mp this
    rw [← e]; exact h3 z hz
theorem seated_fold {α : Type} {a b : Nat} (f : State → α → State)
    (hf : ∀ s x, (f s x).teams.map (fun t => (t.id, t.tile)) = s.teams.map (fun t => (t.id, t.tile)) ∧ (f s x).saved.map (fun v => v.team.id) = s.saved.map (fun v => v.team.id)) :
    ∀ (l : List α) (s : State), ((∃ x ∈ s.teams, x.id = a ∧ x.tile = b) ∧ ∀ x ∈ s.saved, x.team.id ≠ a) →
    (∃ x ∈ (l.foldl f s).teams, x.id = a ∧ x.tile = b) ∧ ∀ x ∈ (l.foldl f s).saved, x.team.id ≠ a := by
  intro l
  induction l with
  | nil => intro s h; exact h
  | cons x l ih => intro s h; exact ih _ (seated (hf s x).1 (hf s x).2 h)
theorem seated_map {s : State} {a b : Nat} (p : Team → Bool) (f : Team → Team) (hf : ∀ t, (f t).id = t.id ∧ (f t).tile = t.tile)
    (h : (∃ x ∈ s.teams, x.id = a ∧ x.tile = b) ∧ ∀ x ∈ s.saved, x.team.id ≠ a) :
    (∃ x ∈ (s.mapTeams p f).teams, x.id = a ∧ x.tile = b) ∧ ∀ x ∈ (s.mapTeams p f).saved, x.team.id ≠ a := by
  refine seated (s := s) ?_ ?_ h <;>
  · unfold State.mapTeams
    dsimp only
    rw [List.map_map]
    refine List.map_congr_left fun t _ => ?_
    simp only [Function.comp]
    split
    · first | exact Prod.ext (hf _).1 (hf _).2 | exact (hf _).1
    · rfl
theorem settleShare_seats (s : State) (id : Nat) : (s.settleShare id).teams.map (fun t => (t.id, t.tile)) = s.teams.map (fun t => (t.id, t.tile))
    ∧ (s.settleShare id).saved.map (fun v => v.team.id) = s.saved.map (fun v => v.team.id) := by
  unfold State.settleShare
  dsimp only
  split
  · exact ⟨rfl, rfl⟩
  · unfold State.setTeam
    dsimp only
    refine ⟨?_, ?_⟩
    · rw [List.map_map]
      refine List.map_congr_left fun t _ => ?_
      simp only [Function.comp]
      split <;> rfl
    · rfl
theorem mapGroups_parts (s : State) (f : Group → Bool) (g : Group → Group) : (s.mapGroups f g).parts = s.parts := by
  unfold State.mapGroups; rfl
theorem act_none {s : State} {p a q : Nat} (h : (s.part p).outstanding q = none) : s.faultAct p a q = s.actRefused p := by
  unfold State.faultAct; rw [h]
theorem invalidated (s : State) (p : Nat) (hit : Nat → Bool) : ∀ x ∈ (s.invalidate p hit).translations, (!(x.1 == p && hit x.2.1)) = true := by
  intro x hx
  unfold State.translations State.invalidate at hx
  dsimp only at hx
  obtain ⟨y, hy, hx⟩ := List.mem_flatMap.mp hx
  rcases List.mem_append.mp hy with hy | hy <;>
  · obtain ⟨z, _, rfl⟩ := List.mem_map.mp hy
    exact (List.mem_filter.mp hx).2
theorem gate_set (s : State) (r : Nat) (g : Gate) : (s.setGate r g).gate r = g := by
  unfold State.setGate State.gate
  dsimp only
  by_cases h : g = {}
  · rw [if_pos h, lookD, look_drop_same, h]; rfl
  · rw [if_neg h, lookD_put_same]
theorem gates_smp (s : State) (t r : Nat) : (s.smpStop t).gate r = s.gate r := rfl
theorem gates_fold (l : List Nat) (s : State) (r : Nat) : (l.foldl State.smpStop s).gate r = s.gate r := by
  induction l generalizing s with
  | nil => rfl
  | cons a l ih => rw [List.foldl_cons, ih]; rfl
theorem leastBy_mem {α : Type} (key : α → Nat) : ∀ l : List α, l ≠ [] → ∃ x ∈ l, leastBy key l = some x := by
  intro l
  induction l with
  | nil => intro h; exact absurd rfl h
  | cons a l ih =>
    intro _
    by_cases hl : l = []
    · subst hl; exact ⟨a, List.mem_singleton.mpr rfl, rfl⟩
    · obtain ⟨y, hy, e⟩ := ih hl
      rw [leastBy, e]
      dsimp only
      split
      · exact ⟨y, List.mem_cons_of_mem _ hy, rfl⟩
      · exact ⟨a, List.mem_cons_self .., rfl⟩
/-- Flits that others leave alone: what a router's handling of its arrivals keeps. -/
theorem eject_keeps (s : State) (f : Flit) : (s.eject f).flits = s.flits ∧ (s.eject f).routed = s.routed ∧ (s.eject f).delivered.length ≤ s.delivered.length + 1 := by
  unfold State.eject
  dsimp only
  split
  · exact ⟨rfl, rfl, by simp⟩
  · split
    · exact ⟨rfl, rfl, by simp⟩
    · split
      · exact ⟨rfl, rfl, by simp⟩
      · split
        · exact ⟨rfl, rfl, by simp⟩
        · exact ⟨rfl, rfl, by simp⟩
theorem placeFlits_keeps (r : Nat) : ∀ (fs : List Flit) (used : List Nat) (n : Nat) (out : List Flit) (s : State), n ≤ 2 →
    (State.placeFlits r fs used n out s).2.2.flits = s.flits ∧ (State.placeFlits r fs used n out s).2.2.routed = s.routed
    ∧ (State.placeFlits r fs used n out s).2.2.delivered.length ≤ s.delivered.length + (2 - n) := by
  intro fs
  induction fs with
  | nil => intro used n out s _; exact ⟨rfl, rfl, by simp [State.placeFlits]⟩
  | cons f fs ih =>
    intro used n out s hn
    unfold State.placeFlits
    dsimp only
    split
    · rename_i h
      simp only [Bool.and_eq_true, decide_eq_true_eq] at h
      obtain ⟨a, b, c⟩ := ih used (n + 1) out (s.eject f) (by omega)
      obtain ⟨d, e, g⟩ := eject_keeps s f
      exact ⟨a.trans d, b.trans e, by omega⟩
    · split
      · exact ih _ _ _ _ hn
      · exact ih _ _ _ _ hn
theorem injectAt_keeps (s : State) (r : Nat) (used : List Nat) : (s.injectAt r used).routed = s.routed ∧ (s.injectAt r used).delivered = s.delivered
    ∧ ∀ f ∈ s.flits, f ∈ (s.injectAt r used).flits := by
  unfold State.injectAt
  dsimp only
  split
  · exact ⟨rfl, rfl, fun _ h => h⟩
  · exact ⟨rfl, rfl, fun _ h => List.mem_append_left _ h⟩
theorem injectAt_none {s : State} (r : Nat) (used : List Nat) (h : s.inject = []) : s.injectAt r used = s := by
  unfold State.injectAt
  rw [h]
  rfl
theorem hostRefused_eq (s : State) (who : Nat) : s.hostRefused who = if who = 8 then { s with hostErr := satAdd s.hostErr 1 } else s := rfl
theorem setPart_self {s : State} {p : Nat} (h : p < 8) (f : Partition → Partition) (hf : f (s.part p) = s.part p) : s.setPart p f = s := by
  unfold State.setPart
  rw [dif_pos h]
  have h1 : s.parts[p] = s.part p := by unfold State.part; simp [h]
  rw [h1, hf, ← h1]
  have : s.parts.set p s.parts[p] = s.parts := by simp
  rw [this]
theorem bit_setBits (x : Word) (b : Bool) : bit (setBits x 1 1 (if b then 1 else 0)) 1 = b := by
  unfold bit setBits
  cases b <;> simp
theorem fold_reg (l : List Nat) (p : Partition) (k : Nat) : (l.foldl (fun (p : Partition) n => p.setReg (0x928 + n) 0) p).reg k 0 = if (∃ n ∈ l, k = 0x928 + n) then 0 else p.reg k 0 := by
  induction l generalizing p with
  | nil => simp
  | cons a l ih =>
    rw [List.foldl_cons, ih]
    by_cases h : ∃ n ∈ l, k = 0x928 + n
    · rw [if_pos h, if_pos (by obtain ⟨n, h1, h2⟩ := h; exact ⟨n, List.mem_cons_of_mem _ h1, h2⟩)]
    · rw [if_neg h]
      by_cases ha : k = 0x928 + a
      · rw [if_pos ⟨a, List.mem_cons_self .., ha⟩, ha]; exact lookD_put_same ..
      · rw [if_neg (by rintro ⟨n, h1, h2⟩; rcases List.mem_cons.mp h1 with rfl | h1; exact ha h2; exact h ⟨n, h1, h2⟩)]
        exact lookD_put_other _ _ _ ha
theorem withdrawn_now (s : State) (p : Nat → Nat → Bool) : (s.withdrawIf p).now = s.now := by
  have key : ∀ (l : List FebWaiter) (s : State), (l.foldl (fun s w => s.writeHead w.part w.buffer) s).now = s.now := by
    intro l
    induction l with
    | nil => intro s; rfl
    | cons w l ih => intro s; rw [List.foldl_cons, ih]; unfold State.writeHead; split <;> rfl
  unfold State.withdrawIf
  dsimp only
  rw [key]
theorem walk_ok {s u : State} {e p k : Nat} {c d : Chain} {bs : List Byte} {f : Chain → List Byte → State → State} (h1 : s.readingChain e p = some c) (hpos : c.pos = .reading)
    (h2 : s.nextEntry c = .ok bs) (hd : d = { c with read := c.read + 1 }) (hu : u = s.setChain e c (fun x => { x with read := x.read + 1 })) (hk : byteAt bs 0 = k) :
    s.walk e p k f = f d bs u := by
  unfold State.walk
  rw [h1, Option.filter_some, if_pos (by simp [hpos])]
  dsimp only; rw [h2]; dsimp only; rw [if_pos hk, hd, hu]
theorem walk_other {s : State} {e p k : Nat} {c : Chain} {bs : List Byte} {f : Chain → List Byte → State → State} (h1 : s.readingChain e p = some c) (hpos : c.pos = .reading)
    (h2 : s.nextEntry c = .ok bs) (hk : byteAt bs 0 ≠ k) : s.walk e p k f = s := by
  unfold State.walk
  rw [h1, Option.filter_some, if_pos (by simp [hpos])]
  dsimp only; rw [h2]; dsimp only; rw [if_neg hk]
theorem walk_none {s : State} {e p k : Nat} {f : Chain → List Byte → State → State}
    (h : s.readingChain e p = none ∨ ∃ c, s.readingChain e p = some c ∧ (c.pos = .faulted ∨ ∃ x, c.pos = .reading ∧ s.nextEntry c = .error x)) : s.walk e p k f = s := by
  unfold State.walk
  rcases h with h | ⟨c, h, h2 | ⟨x, h2, h3⟩⟩
  · rw [h]; rfl
  · rw [h, Option.filter_some, if_neg (by simp [h2])]
  · rw [h, Option.filter_some, if_pos (by simp [h2])]; dsimp only; rw [h3]
theorem take_of {s : State} {c : Chain} {va n : Nat} {b : List Byte} (h : s.engineRead c va n = .ok b) : s.engineTake c va n = .ok b := by
  unfold State.engineRead at h
  cases ht : s.engineTake c va n with
  | ok bs => rw [ht] at h; cases h; rfl
  | error x => rw [ht] at h; cases h
theorem job_form (mk : Nat → Instr) (mine : State → Nat → Chain → Bool) (job : Nat → Job → Job) (size : Nat) (legal : List Byte → Bool)
    (he : ∀ e s, exec (mk e) s = .next (s.startJob e (mine s e) job))
    (hj : ∀ (param : Nat) (j : Job) b, j.ended = none → j.s.engineTake j.c param size = .ok b → legal b = false →
      (job param j).out = j.out ∧ (job param j).met = j.met ∧ (job param j).ended = some (2, wordBlock)) :
    JobForm mk mine job size legal := by
  refine ⟨?_, ?_⟩
  · intro s e c j hd hm hjob
    refine ⟨?_, fun b hb hl => ?_⟩
    · rw [he, State.startJob, hd]
      dsimp only
      rw [if_pos hm, hjob]
      rfl
    · rw [hjob]
      exact hj c.param.toNat { s := s.counting c, c := c } b rfl (take_of hb) hl
  · intro s e h
    rw [he, State.startJob]
    cases hd : s.jobDue e with
    | none => rfl
    | some c => dsimp only; rw [h c hd]; rfl
theorem read_ok {j : Job} {va n : Nat} {b : List Byte} (h : j.ended = none) (hb : j.s.engineTake j.c va n = .ok b) : j.read va n = (b, j) := by
  unfold Job.read; rw [h]; simp only [Option.isSome_none, Bool.false_eq_true, if_false]; rw [hb]
theorem check_bad {j : Job} (h : j.ended = none) (w : Word) : j.check false w = { j with ended := some (2, w) } := by
  unfold Job.check Job.fail Job.finish; rw [h]; rfl
theorem read_ended {j : Job} {va n : Nat} (h : j.ended.isSome = true) : j.read va n = ([], j) := by
  unfold Job.read; rw [if_pos h]
theorem check_ended {j : Job} (h : j.ended.isSome = true) (b : Bool) (w : Word) : j.check b w = j := by
  unfold Job.check Job.fail Job.finish; rw [if_pos h]; split <;> rfl
theorem fail_ended {j : Job} (h : j.ended.isSome = true) (w : Word) : j.fail w = j := by
  unfold Job.fail Job.finish; rw [if_pos h]

end Sys2Proof.Machine
end

