-- ==== Sys2Proof/Laws/PerInstr.lean ====
section
/-! SUPPORT. Decode and encode agree, constructor by constructor: the bytes of the words of a well-formed instruction decode to it. -/

namespace Sys2Proof.Laws.F

/-- The bytes of an instruction's words, with whatever follows them, decode to it and leave what follows. -/
def Statement (i : Instr) : Prop :=
  i.wellFormed = true → ∀ rest : List Byte, decodeBytes ((encode i).flatMap (fun w => bytesOfWord w.toNat) ++ rest) = some (i, rest)

theorem b2n_lt (b : Bool) : b2n b < 2 := by cases b <;> decide
theorem wordOfBytes_ofNat (n : Nat) (h : n < 2 ^ 32) :
    wordOfBytes (BitVec.ofNat 8 n) (BitVec.ofNat 8 (n / 2 ^ 8)) (BitVec.ofNat 8 (n / 2 ^ 16)) (BitVec.ofNat 8 (n / 2 ^ 24)) = n := by
  simp only [wordOfBytes, BitVec.toNat_ofNat]; omega
theorem bvf_eq {w lo n : Nat} (x : BitVec n) (h : w / 2 ^ lo % 2 ^ n = x.toNat) : bvf w lo n = x :=
  BitVec.eq_of_toNat_eq (by rw [bvf, BitVec.toNat_ofNat]; exact h)
theorem bit1_eq {w lo : Nat} (b : Bool) (h : w / 2 ^ lo % 2 = b2n b) : bit1 w lo = b := by
  unfold bit1; rw [h]; cases b <;> rfl
/-- One word whose reading is the instruction. -/
theorem one {i : Instr} {W : Word} {N op : Nat} (he : encode i = [W]) (hW : W.toNat = N) (ho : fld N 24 8 = op) (h42 : op ≠ 0x42)
    (hd : decodeNat N 0 = i) : Statement i := by
  intro _ rest
  have hN : N < 2 ^ 32 := by rw [← hW]; exact W.isLt
  rw [he, List.flatMap_cons, List.flatMap_nil, List.append_nil, hW]
  show (if takesLiteral (BitVec.ofNat 32 (wordOfBytes _ _ _ _)) = true then _ else some (decodeNat (wordOfBytes _ _ _ _) 0, rest)) = _
  rw [wordOfBytes_ofNat N hN]
  have : takesLiteral (BitVec.ofNat 32 N) = false := by
    have h : (BitVec.ofNat 32 N).toNat = N := by rw [BitVec.toNat_ofNat]; exact Nat.mod_eq_of_lt hN
    unfold takesLiteral
    rw [h, ho]
    simp [h42]
  rw [this, hd]
  rfl

/-! ### Fields of a number -/

/-- The number whose fields, lowest first, are the given widths and values. -/
def packed : List (Nat × Nat) → Nat
  | [] => 0
  | f :: fs => f.2 + 2 ^ f.1 * packed fs
/-- Every value fits its field. -/
def Fits : List (Nat × Nat) → Prop
  | [] => True
  | f :: fs => f.2 < 2 ^ f.1 ∧ Fits fs
/-- The bit at which a field begins. -/
def lowBit : List (Nat × Nat) → Nat → Nat
  | [], _ => 0
  | _ :: _, 0 => 0
  | f :: fs, i + 1 => f.1 + lowBit fs i
theorem packed_fld (fs : List (Nat × Nat)) (hf : Fits fs) (i : Nat) (f : Nat × Nat) (hi : fs[i]? = some f) :
    packed fs / 2 ^ lowBit fs i % 2 ^ f.1 = f.2 := by
  induction fs generalizing i with
  | nil => simp at hi
  | cons g gs ih =>
    obtain ⟨hg, hf⟩ := hf
    cases i with
    | zero =>
      simp only [List.getElem?_cons_zero, Option.some.injEq] at hi
      subst hi
      simp only [packed, lowBit, Nat.pow_zero, Nat.div_one, Nat.add_mul_mod_self_left]
      exact Nat.mod_eq_of_lt hg
    | succ i =>
      simp only [List.getElem?_cons_succ] at hi
      simp only [packed, lowBit]
      rw [Nat.pow_add, ← Nat.div_div_eq_div_mul, Nat.add_mul_div_left _ _ (Nat.two_pow_pos _), Nat.div_eq_of_lt hg, Nat.zero_add]
      exact ih hf i hi
theorem fld_at {N lo n v : Nat} {fs : List (Nat × Nat)} (hN : N = packed fs) (hf : Fits fs) (i : Nat) (hi : fs[i]? = some (n, v)) (hlo : lowBit fs i = lo) :
    fld N lo n = v := by subst hN hlo; exact packed_fld fs hf i _ hi
theorem bvf_at {N lo n : Nat} {v : BitVec n} {fs : List (Nat × Nat)} (hN : N = packed fs) (hf : Fits fs) (i : Nat) (hi : fs[i]? = some (n, v.toNat))
    (hlo : lowBit fs i = lo) : bvf N lo n = v := bvf_eq v (fld_at hN hf i hi hlo)
theorem bit1_at {N lo : Nat} {v : Bool} {fs : List (Nat × Nat)} (hN : N = packed fs) (hf : Fits fs) (i : Nat) (hi : fs[i]? = some (1, b2n v))
    (hlo : lowBit fs i = lo) : bit1 N lo = v := bit1_eq v (by have := fld_at hN hf i hi hlo; exact this)
theorem digits {N op : Nat} (h : fld N 24 8 = op) : fld N 28 4 = op / 16 ∧ fld N 24 4 = op % 16 := by
  unfold fld at h ⊢; omega

theorem word0 (F  : Nat) (h : F < 2 ^ 32) : (word F []).toNat = F := by
  unfold word; rw [BitVec.toNat_ofNat]; exact Nat.mod_eq_of_lt h
theorem word1 (F v0 l0 : Nat) (h : v0 * 2 ^ l0 + (F) < 2 ^ 32) : (word F [(v0, l0)]).toNat = v0 * 2 ^ l0 + (F) := by
  unfold word; rw [BitVec.toNat_ofNat]; exact Nat.mod_eq_of_lt h
theorem word2 (F v0 l0 v1 l1 : Nat) (h : v0 * 2 ^ l0 + (v1 * 2 ^ l1 + (F)) < 2 ^ 32) : (word F [(v0, l0), (v1, l1)]).toNat = v0 * 2 ^ l0 + (v1 * 2 ^ l1 + (F)) := by
  unfold word; rw [BitVec.toNat_ofNat]; exact Nat.mod_eq_of_lt h
theorem word3 (F v0 l0 v1 l1 v2 l2 : Nat) (h : v0 * 2 ^ l0 + (v1 * 2 ^ l1 + (v2 * 2 ^ l2 + (F))) < 2 ^ 32) : (word F [(v0, l0), (v1, l1), (v2, l2)]).toNat = v0 * 2 ^ l0 + (v1 * 2 ^ l1 + (v2 * 2 ^ l2 + (F))) := by
  unfold word; rw [BitVec.toNat_ofNat]; exact Nat.mod_eq_of_lt h
theorem word4 (F v0 l0 v1 l1 v2 l2 v3 l3 : Nat) (h : v0 * 2 ^ l0 + (v1 * 2 ^ l1 + (v2 * 2 ^ l2 + (v3 * 2 ^ l3 + (F)))) < 2 ^ 32) : (word F [(v0, l0), (v1, l1), (v2, l2), (v3, l3)]).toNat = v0 * 2 ^ l0 + (v1 * 2 ^ l1 + (v2 * 2 ^ l2 + (v3 * 2 ^ l3 + (F)))) := by
  unfold word; rw [BitVec.toNat_ofNat]; exact Nat.mod_eq_of_lt h
theorem word5 (F v0 l0 v1 l1 v2 l2 v3 l3 v4 l4 : Nat) (h : v0 * 2 ^ l0 + (v1 * 2 ^ l1 + (v2 * 2 ^ l2 + (v3 * 2 ^ l3 + (v4 * 2 ^ l4 + (F))))) < 2 ^ 32) : (word F [(v0, l0), (v1, l1), (v2, l2), (v3, l3), (v4, l4)]).toNat = v0 * 2 ^ l0 + (v1 * 2 ^ l1 + (v2 * 2 ^ l2 + (v3 * 2 ^ l3 + (v4 * 2 ^ l4 + (F))))) := by
  unfold word; rw [BitVec.toNat_ofNat]; exact Nat.mod_eq_of_lt h
theorem word6 (F v0 l0 v1 l1 v2 l2 v3 l3 v4 l4 v5 l5 : Nat) (h : v0 * 2 ^ l0 + (v1 * 2 ^ l1 + (v2 * 2 ^ l2 + (v3 * 2 ^ l3 + (v4 * 2 ^ l4 + (v5 * 2 ^ l5 + (F)))))) < 2 ^ 32) : (word F [(v0, l0), (v1, l1), (v2, l2), (v3, l3), (v4, l4), (v5, l5)]).toNat = v0 * 2 ^ l0 + (v1 * 2 ^ l1 + (v2 * 2 ^ l2 + (v3 * 2 ^ l3 + (v4 * 2 ^ l4 + (v5 * 2 ^ l5 + (F)))))) := by
  unfold word; rw [BitVec.toNat_ofNat]; exact Nat.mod_eq_of_lt h
theorem word7 (F v0 l0 v1 l1 v2 l2 v3 l3 v4 l4 v5 l5 v6 l6 : Nat) (h : v0 * 2 ^ l0 + (v1 * 2 ^ l1 + (v2 * 2 ^ l2 + (v3 * 2 ^ l3 + (v4 * 2 ^ l4 + (v5 * 2 ^ l5 + (v6 * 2 ^ l6 + (F))))))) < 2 ^ 32) : (word F [(v0, l0), (v1, l1), (v2, l2), (v3, l3), (v4, l4), (v5, l5), (v6, l6)]).toNat = v0 * 2 ^ l0 + (v1 * 2 ^ l1 + (v2 * 2 ^ l2 + (v3 * 2 ^ l3 + (v4 * 2 ^ l4 + (v5 * 2 ^ l5 + (v6 * 2 ^ l6 + (F))))))) := by
  unfold word; rw [BitVec.toNat_ofNat]; exact Nat.mod_eq_of_lt h
theorem word8 (F v0 l0 v1 l1 v2 l2 v3 l3 v4 l4 v5 l5 v6 l6 v7 l7 : Nat) (h : v0 * 2 ^ l0 + (v1 * 2 ^ l1 + (v2 * 2 ^ l2 + (v3 * 2 ^ l3 + (v4 * 2 ^ l4 + (v5 * 2 ^ l5 + (v6 * 2 ^ l6 + (v7 * 2 ^ l7 + (F)))))))) < 2 ^ 32) : (word F [(v0, l0), (v1, l1), (v2, l2), (v3, l3), (v4, l4), (v5, l5), (v6, l6), (v7, l7)]).toNat = v0 * 2 ^ l0 + (v1 * 2 ^ l1 + (v2 * 2 ^ l2 + (v3 * 2 ^ l3 + (v4 * 2 ^ l4 + (v5 * 2 ^ l5 + (v6 * 2 ^ l6 + (v7 * 2 ^ l7 + (F)))))))) := by
  unfold word; rw [BitVec.toNat_ofNat]; exact Nat.mod_eq_of_lt h
/-- What the decoder finds in words of one layout. -/
theorem lay0 (F op N : Nat) (ho : op < 256) (hF : F = op * 2 ^ 24 + 0) (a : BitVec 2) (hN : N = (word F [(a.toNat, 4)]).toNat) :
    fld N 24 8 = op ∧ fld N 0 4 = 0 ∧ fld N 6 18 = 0 ∧ bvf N 4 2 = a := by
  have ha := a.isLt
  have hf : Fits [(4, 0), (2, a.toNat), (18, 0), (8, op)] := ⟨by decide, ha, by decide, ho, trivial⟩
  have hP : N = packed [(4, 0), (2, a.toNat), (18, 0), (8, op)] := by
    rw [hN, word1 _ _ _ (by omega)]; simp only [packed]; omega
  exact ⟨fld_at hP hf 3 rfl rfl, fld_at hP hf 0 rfl rfl, fld_at hP hf 2 rfl rfl, bvf_at hP hf 1 rfl rfl⟩
/-- What the decoder finds in words of one layout. -/
theorem lay1 (F op N : Nat) (ho : op < 256) (hF : F = op * 2 ^ 24 + 3932160) (a : BitVec 18) (hN : N = (word F [(a.toNat, 0)]).toNat) :
    fld N 24 8 = op ∧ fld N 18 6 = 15 ∧ bvf N 0 18 = a := by
  have ha := a.isLt
  have hf : Fits [(18, a.toNat), (6, 15), (8, op)] := ⟨ha, by decide, ho, trivial⟩
  have hP : N = packed [(18, a.toNat), (6, 15), (8, op)] := by
    rw [hN, word1 _ _ _ (by omega)]; simp only [packed]; omega
  exact ⟨fld_at hP hf 2 rfl rfl, fld_at hP hf 1 rfl rfl, bvf_at hP hf 0 rfl rfl⟩
/-- What the decoder finds in words of one layout. -/
theorem lay2 (F op N : Nat) (ho : op < 256) (hF : F = op * 2 ^ 24 + 0) (a : Bool) (b : BitVec 4) (c : BitVec 18) (hN : N = (word F [(b2n a, 23), (b.toNat, 18), (c.toNat, 0)]).toNat) :
    fld N 24 8 = op ∧ fld N 22 1 = 0 ∧ bit1 N 23 = a ∧ bvf N 18 4 = b ∧ bvf N 0 18 = c := by
  have ha := b2n_lt a
  have hb := b.isLt
  have hc := c.isLt
  have hf : Fits [(18, c.toNat), (4, b.toNat), (1, 0), (1, b2n a), (8, op)] := ⟨hc, hb, by decide, ha, ho, trivial⟩
  have hP : N = packed [(18, c.toNat), (4, b.toNat), (1, 0), (1, b2n a), (8, op)] := by
    rw [hN, word3 _ _ _ _ _ _ _ (by omega)]; simp only [packed]; omega
  exact ⟨fld_at hP hf 4 rfl rfl, fld_at hP hf 2 rfl rfl, bit1_at hP hf 3 rfl rfl, bvf_at hP hf 1 rfl rfl, bvf_at hP hf 0 rfl rfl⟩
/-- What the decoder finds in words of one layout. -/
theorem lay3 (F op N : Nat) (ho : op < 256) (hF : F = op * 2 ^ 24 + 0) (a : BitVec 6) (b : BitVec 18) (hN : N = (word F [(a.toNat, 18), (b.toNat, 0)]).toNat) :
    fld N 24 8 = op ∧ bvf N 18 6 = a ∧ bvf N 0 18 = b := by
  have ha := a.isLt
  have hb := b.isLt
  have hf : Fits [(18, b.toNat), (6, a.toNat), (8, op)] := ⟨hb, ha, ho, trivial⟩
  have hP : N = packed [(18, b.toNat), (6, a.toNat), (8, op)] := by
    rw [hN, word2 _ _ _ _ _ (by omega)]; simp only [packed]; omega
  exact ⟨fld_at hP hf 2 rfl rfl, bvf_at hP hf 1 rfl rfl, bvf_at hP hf 0 rfl rfl⟩
/-- What the decoder finds in words of one layout. -/
theorem lay4 (F op N : Nat) (ho : op < 256) (hF : F = op * 2 ^ 24 + 8) (a : BitVec 6) (b : BitVec 2) (hN : N = (word F [(a.toNat, 12), (b.toNat, 4)]).toNat) :
    fld N 24 8 = op ∧ fld N 0 4 = 8 ∧ fld N 6 6 = 0 ∧ fld N 18 6 = 0 ∧ bvf N 12 6 = a ∧ bvf N 4 2 = b := by
  have ha := a.isLt
  have hb := b.isLt
  have hf : Fits [(4, 8), (2, b.toNat), (6, 0), (6, a.toNat), (6, 0), (8, op)] := ⟨by decide, hb, by decide, ha, by decide, ho, trivial⟩
  have hP : N = packed [(4, 8), (2, b.toNat), (6, 0), (6, a.toNat), (6, 0), (8, op)] := by
    rw [hN, word2 _ _ _ _ _ (by omega)]; simp only [packed]; omega
  exact ⟨fld_at hP hf 5 rfl rfl, fld_at hP hf 0 rfl rfl, fld_at hP hf 2 rfl rfl, fld_at hP hf 4 rfl rfl, bvf_at hP hf 3 rfl rfl, bvf_at hP hf 1 rfl rfl⟩
/-- What the decoder finds in words of one layout. -/
theorem lay5 (F op N : Nat) (ho : op < 256) (hF : F = op * 2 ^ 24 + 2048) (a : BitVec 6) (b : BitVec 6) (c : BitVec 11) (hN : N = (word F [(a.toNat, 18), (b.toNat, 12), (c.toNat, 0)]).toNat) :
    fld N 24 8 = op ∧ fld N 11 1 = 1 ∧ bvf N 18 6 = a ∧ bvf N 12 6 = b ∧ bvf N 0 11 = c := by
  have ha := a.isLt
  have hb := b.isLt
  have hc := c.isLt
  have hf : Fits [(11, c.toNat), (1, 1), (6, b.toNat), (6, a.toNat), (8, op)] := ⟨hc, by decide, hb, ha, ho, trivial⟩
  have hP : N = packed [(11, c.toNat), (1, 1), (6, b.toNat), (6, a.toNat), (8, op)] := by
    rw [hN, word3 _ _ _ _ _ _ _ (by omega)]; simp only [packed]; omega
  exact ⟨fld_at hP hf 4 rfl rfl, fld_at hP hf 1 rfl rfl, bvf_at hP hf 3 rfl rfl, bvf_at hP hf 2 rfl rfl, bvf_at hP hf 0 rfl rfl⟩
/-- What the decoder finds in words of one layout. -/
theorem lay6 (F op N : Nat) (ho : op < 256) (hF : F = op * 2 ^ 24 + 0) (a : BitVec 2) (b : BitVec 8) (c : BitVec 10) (hN : N = (word F [(a.toNat, 18), (b.toNat, 10), (c.toNat, 0)]).toNat) :
    fld N 24 8 = op ∧ fld N 20 4 = 0 ∧ bvf N 18 2 = a ∧ bvf N 10 8 = b ∧ bvf N 0 10 = c := by
  have ha := a.isLt
  have hb := b.isLt
  have hc := c.isLt
  have hf : Fits [(10, c.toNat), (8, b.toNat), (2, a.toNat), (4, 0), (8, op)] := ⟨hc, hb, ha, by decide, ho, trivial⟩
  have hP : N = packed [(10, c.toNat), (8, b.toNat), (2, a.toNat), (4, 0), (8, op)] := by
    rw [hN, word3 _ _ _ _ _ _ _ (by omega)]; simp only [packed]; omega
  exact ⟨fld_at hP hf 4 rfl rfl, fld_at hP hf 3 rfl rfl, bvf_at hP hf 2 rfl rfl, bvf_at hP hf 1 rfl rfl, bvf_at hP hf 0 rfl rfl⟩
/-- What the decoder finds in words of one layout. -/
theorem lay7 (F op N : Nat) (ho : op < 256) (hF : F = op * 2 ^ 24 + 0) (a : BitVec 2) (hN : N = (word F [(a.toNat, 18)]).toNat) :
    fld N 24 8 = op ∧ fld N 0 18 = 0 ∧ fld N 20 4 = 0 ∧ bvf N 18 2 = a := by
  have ha := a.isLt
  have hf : Fits [(18, 0), (2, a.toNat), (4, 0), (8, op)] := ⟨by decide, ha, by decide, ho, trivial⟩
  have hP : N = packed [(18, 0), (2, a.toNat), (4, 0), (8, op)] := by
    rw [hN, word1 _ _ _ (by omega)]; simp only [packed]; omega
  exact ⟨fld_at hP hf 3 rfl rfl, fld_at hP hf 0 rfl rfl, fld_at hP hf 2 rfl rfl, bvf_at hP hf 1 rfl rfl⟩
/-- What the decoder finds in words of one layout. -/
theorem lay8 (F op N : Nat) (ho : op < 256) (hF : F = op * 2 ^ 24 + 0) (a : BitVec 11) (hN : N = (word F [(a.toNat, 0)]).toNat) :
    fld N 24 8 = op ∧ fld N 11 13 = 0 ∧ bvf N 0 11 = a := by
  have ha := a.isLt
  have hf : Fits [(11, a.toNat), (13, 0), (8, op)] := ⟨ha, by decide, ho, trivial⟩
  have hP : N = packed [(11, a.toNat), (13, 0), (8, op)] := by
    rw [hN, word1 _ _ _ (by omega)]; simp only [packed]; omega
  exact ⟨fld_at hP hf 2 rfl rfl, fld_at hP hf 1 rfl rfl, bvf_at hP hf 0 rfl rfl⟩
/-- What the decoder finds in words of one layout. -/
theorem lay9 (F op N : Nat) (ho : op < 256) (hF : F = op * 2 ^ 24 + 0) (a : BitVec 6) (b : BitVec 2) (c : Bool) (d : Bool) (hN : N = (word F [(a.toNat, 12), (b.toNat, 4), (b2n c, 3), (b2n d, 2)]).toNat) :
    fld N 24 8 = op ∧ fld N 0 2 = 0 ∧ fld N 6 6 = 0 ∧ fld N 18 6 = 0 ∧ bvf N 12 6 = a ∧ bvf N 4 2 = b ∧ bit1 N 3 = c ∧ bit1 N 2 = d := by
  have ha := a.isLt
  have hb := b.isLt
  have hc := b2n_lt c
  have hd := b2n_lt d
  have hf : Fits [(2, 0), (1, b2n d), (1, b2n c), (2, b.toNat), (6, 0), (6, a.toNat), (6, 0), (8, op)] := ⟨by decide, hd, hc, hb, by decide, ha, by decide, ho, trivial⟩
  have hP : N = packed [(2, 0), (1, b2n d), (1, b2n c), (2, b.toNat), (6, 0), (6, a.toNat), (6, 0), (8, op)] := by
    rw [hN, word4 _ _ _ _ _ _ _ _ _ (by omega)]; simp only [packed]; omega
  exact ⟨fld_at hP hf 7 rfl rfl, fld_at hP hf 0 rfl rfl, fld_at hP hf 4 rfl rfl, fld_at hP hf 6 rfl rfl, bvf_at hP hf 5 rfl rfl, bvf_at hP hf 3 rfl rfl, bit1_at hP hf 2 rfl rfl, bit1_at hP hf 1 rfl rfl⟩
/-- What the decoder finds in words of one layout. -/
theorem lay10 (F op N : Nat) (ho : op < 256) (hF : F = op * 2 ^ 24 + 0) (a : BitVec 6) (b : BitVec 11) (hN : N = (word F [(a.toNat, 18), (b.toNat, 0)]).toNat) :
    fld N 24 8 = op ∧ fld N 11 7 = 0 ∧ bvf N 18 6 = a ∧ bvf N 0 11 = b := by
  have ha := a.isLt
  have hb := b.isLt
  have hf : Fits [(11, b.toNat), (7, 0), (6, a.toNat), (8, op)] := ⟨hb, by decide, ha, ho, trivial⟩
  have hP : N = packed [(11, b.toNat), (7, 0), (6, a.toNat), (8, op)] := by
    rw [hN, word2 _ _ _ _ _ (by omega)]; simp only [packed]; omega
  exact ⟨fld_at hP hf 3 rfl rfl, fld_at hP hf 1 rfl rfl, bvf_at hP hf 2 rfl rfl, bvf_at hP hf 0 rfl rfl⟩
/-- What the decoder finds in words of one layout. -/
theorem lay11 (F op N : Nat) (ho : op < 256) (hF : F = op * 2 ^ 24 + 8) (a : BitVec 6) (b : BitVec 2) (hN : N = (word F [(a.toNat, 18), (b.toNat, 4)]).toNat) :
    fld N 24 8 = op ∧ fld N 0 4 = 8 ∧ fld N 6 12 = 0 ∧ bvf N 18 6 = a ∧ bvf N 4 2 = b := by
  have ha := a.isLt
  have hb := b.isLt
  have hf : Fits [(4, 8), (2, b.toNat), (12, 0), (6, a.toNat), (8, op)] := ⟨by decide, hb, by decide, ha, ho, trivial⟩
  have hP : N = packed [(4, 8), (2, b.toNat), (12, 0), (6, a.toNat), (8, op)] := by
    rw [hN, word2 _ _ _ _ _ (by omega)]; simp only [packed]; omega
  exact ⟨fld_at hP hf 4 rfl rfl, fld_at hP hf 0 rfl rfl, fld_at hP hf 2 rfl rfl, bvf_at hP hf 3 rfl rfl, bvf_at hP hf 1 rfl rfl⟩
/-- What the decoder finds in words of one layout. -/
theorem lay12 (F op N : Nat) (ho : op < 256) (hF : F = op * 2 ^ 24 + 0) (a : BitVec 6) (b : BitVec 3) (hN : N = (word F [(a.toNat, 12), (b.toNat, 0)]).toNat) :
    fld N 24 8 = op ∧ fld N 3 9 = 0 ∧ fld N 18 6 = 0 ∧ bvf N 12 6 = a ∧ bvf N 0 3 = b := by
  have ha := a.isLt
  have hb := b.isLt
  have hf : Fits [(3, b.toNat), (9, 0), (6, a.toNat), (6, 0), (8, op)] := ⟨hb, by decide, ha, by decide, ho, trivial⟩
  have hP : N = packed [(3, b.toNat), (9, 0), (6, a.toNat), (6, 0), (8, op)] := by
    rw [hN, word2 _ _ _ _ _ (by omega)]; simp only [packed]; omega
  exact ⟨fld_at hP hf 4 rfl rfl, fld_at hP hf 1 rfl rfl, fld_at hP hf 3 rfl rfl, bvf_at hP hf 2 rfl rfl, bvf_at hP hf 0 rfl rfl⟩
/-- What the decoder finds in words of one layout. -/
theorem lay13 (F op N : Nat) (ho : op < 256) (hF : F = op * 2 ^ 24 + 0) (a : BitVec 6) (b : BitVec 6) (c : BitVec 2) (hN : N = (word F [(a.toNat, 12), (b.toNat, 6), (c.toNat, 4)]).toNat) :
    fld N 24 8 = op ∧ fld N 0 4 = 0 ∧ fld N 18 6 = 0 ∧ bvf N 12 6 = a ∧ bvf N 6 6 = b ∧ bvf N 4 2 = c := by
  have ha := a.isLt
  have hb := b.isLt
  have hc := c.isLt
  have hf : Fits [(4, 0), (2, c.toNat), (6, b.toNat), (6, a.toNat), (6, 0), (8, op)] := ⟨by decide, hc, hb, ha, by decide, ho, trivial⟩
  have hP : N = packed [(4, 0), (2, c.toNat), (6, b.toNat), (6, a.toNat), (6, 0), (8, op)] := by
    rw [hN, word3 _ _ _ _ _ _ _ (by omega)]; simp only [packed]; omega
  exact ⟨fld_at hP hf 5 rfl rfl, fld_at hP hf 0 rfl rfl, fld_at hP hf 4 rfl rfl, bvf_at hP hf 3 rfl rfl, bvf_at hP hf 2 rfl rfl, bvf_at hP hf 1 rfl rfl⟩
/-- What the decoder finds in words of one layout. -/
theorem lay14 (F op N : Nat) (ho : op < 256) (hF : F = op * 2 ^ 24 + 0) (a : BitVec 6) (b : Bool) (c : BitVec 11) (hN : N = (word F [(a.toNat, 18), (b2n b, 11), (c.toNat, 0)]).toNat) :
    fld N 24 8 = op ∧ fld N 12 6 = 0 ∧ bvf N 18 6 = a ∧ bit1 N 11 = b ∧ bvf N 0 11 = c := by
  have ha := a.isLt
  have hb := b2n_lt b
  have hc := c.isLt
  have hf : Fits [(11, c.toNat), (1, b2n b), (6, 0), (6, a.toNat), (8, op)] := ⟨hc, hb, by decide, ha, ho, trivial⟩
  have hP : N = packed [(11, c.toNat), (1, b2n b), (6, 0), (6, a.toNat), (8, op)] := by
    rw [hN, word3 _ _ _ _ _ _ _ (by omega)]; simp only [packed]; omega
  exact ⟨fld_at hP hf 4 rfl rfl, fld_at hP hf 2 rfl rfl, bvf_at hP hf 3 rfl rfl, bit1_at hP hf 1 rfl rfl, bvf_at hP hf 0 rfl rfl⟩
/-- What the decoder finds in words of one layout. -/
theorem lay15 (F op N : Nat) (ho : op < 256) (hF : F = op * 2 ^ 24 + 0) (a : BitVec 6) (b : BitVec 12) (hN : N = (word F [(a.toNat, 18), (b.toNat, 0)]).toNat) :
    fld N 24 8 = op ∧ fld N 12 6 = 0 ∧ bvf N 18 6 = a ∧ bvf N 0 12 = b := by
  have ha := a.isLt
  have hb := b.isLt
  have hf : Fits [(12, b.toNat), (6, 0), (6, a.toNat), (8, op)] := ⟨hb, by decide, ha, ho, trivial⟩
  have hP : N = packed [(12, b.toNat), (6, 0), (6, a.toNat), (8, op)] := by
    rw [hN, word2 _ _ _ _ _ (by omega)]; simp only [packed]; omega
  exact ⟨fld_at hP hf 3 rfl rfl, fld_at hP hf 1 rfl rfl, bvf_at hP hf 2 rfl rfl, bvf_at hP hf 0 rfl rfl⟩
/-- What the decoder finds in words of one layout. -/
theorem lay16 (F op N : Nat) (ho : op < 256) (hF : F = op * 2 ^ 24 + 0) (a : BitVec 6) (b : BitVec 6) (c : BitVec 6) (d : BitVec 2) (e : Bool) (f : Bool) (g : Bool) (hN : N = (word F [(a.toNat, 18), (b.toNat, 12), (c.toNat, 6), (d.toNat, 4), (b2n e, 3), (b2n f, 2), (b2n g, 1)]).toNat) :
    fld N 24 8 = op ∧ fld N 0 1 = 0 ∧ bvf N 18 6 = a ∧ bvf N 12 6 = b ∧ bvf N 6 6 = c ∧ bvf N 4 2 = d ∧ bit1 N 3 = e ∧ bit1 N 2 = f ∧ bit1 N 1 = g := by
  have ha := a.isLt
  have hb := b.isLt
  have hc := c.isLt
  have hd := d.isLt
  have he := b2n_lt e
  have hf := b2n_lt f
  have hg := b2n_lt g
  have hf : Fits [(1, 0), (1, b2n g), (1, b2n f), (1, b2n e), (2, d.toNat), (6, c.toNat), (6, b.toNat), (6, a.toNat), (8, op)] := ⟨by decide, hg, hf, he, hd, hc, hb, ha, ho, trivial⟩
  have hP : N = packed [(1, 0), (1, b2n g), (1, b2n f), (1, b2n e), (2, d.toNat), (6, c.toNat), (6, b.toNat), (6, a.toNat), (8, op)] := by
    rw [hN, word7 _ _ _ _ _ _ _ _ _ _ _ _ _ _ _ (by omega)]; simp only [packed]; omega
  exact ⟨fld_at hP hf 8 rfl rfl, fld_at hP hf 0 rfl rfl, bvf_at hP hf 7 rfl rfl, bvf_at hP hf 6 rfl rfl, bvf_at hP hf 5 rfl rfl, bvf_at hP hf 4 rfl rfl, bit1_at hP hf 3 rfl rfl, bit1_at hP hf 2 rfl rfl, bit1_at hP hf 1 rfl rfl⟩
/-- What the decoder finds in words of one layout. -/
theorem lay17 (F op N : Nat) (ho : op < 256) (hF : F = op * 2 ^ 24 + 0) (a : BitVec 6) (b : BitVec 6) (c : BitVec 6) (d : BitVec 2) (e : Bool) (f : Bool) (g : Bool) (h : Bool) (hN : N = (word F [(a.toNat, 18), (b.toNat, 12), (c.toNat, 6), (d.toNat, 4), (b2n e, 3), (b2n f, 2), (b2n g, 1), (b2n h, 0)]).toNat) :
    fld N 24 8 = op ∧ bvf N 18 6 = a ∧ bvf N 12 6 = b ∧ bvf N 6 6 = c ∧ bvf N 4 2 = d ∧ bit1 N 3 = e ∧ bit1 N 2 = f ∧ bit1 N 1 = g ∧ bit1 N 0 = h := by
  have ha := a.isLt
  have hb := b.isLt
  have hc := c.isLt
  have hd := d.isLt
  have he := b2n_lt e
  have hf := b2n_lt f
  have hg := b2n_lt g
  have hh := b2n_lt h
  have hf : Fits [(1, b2n h), (1, b2n g), (1, b2n f), (1, b2n e), (2, d.toNat), (6, c.toNat), (6, b.toNat), (6, a.toNat), (8, op)] := ⟨hh, hg, hf, he, hd, hc, hb, ha, ho, trivial⟩
  have hP : N = packed [(1, b2n h), (1, b2n g), (1, b2n f), (1, b2n e), (2, d.toNat), (6, c.toNat), (6, b.toNat), (6, a.toNat), (8, op)] := by
    rw [hN, word8 _ _ _ _ _ _ _ _ _ _ _ _ _ _ _ _ _ (by omega)]; simp only [packed]; omega
  exact ⟨fld_at hP hf 8 rfl rfl, bvf_at hP hf 7 rfl rfl, bvf_at hP hf 6 rfl rfl, bvf_at hP hf 5 rfl rfl, bvf_at hP hf 4 rfl rfl, bit1_at hP hf 3 rfl rfl, bit1_at hP hf 2 rfl rfl, bit1_at hP hf 1 rfl rfl, bit1_at hP hf 0 rfl rfl⟩
/-- What the decoder finds in words of one layout. -/
theorem lay18 (F op N : Nat) (ho : op < 256) (hF : F = op * 2 ^ 24 + 0) (a : BitVec 6) (b : BitVec 6) (c : BitVec 2) (d : Bool) (e : Bool) (hN : N = (word F [(a.toNat, 18), (b.toNat, 12), (c.toNat, 4), (b2n d, 3), (b2n e, 2)]).toNat) :
    fld N 24 8 = op ∧ fld N 0 2 = 0 ∧ fld N 6 6 = 0 ∧ bvf N 18 6 = a ∧ bvf N 12 6 = b ∧ bvf N 4 2 = c ∧ bit1 N 3 = d ∧ bit1 N 2 = e := by
  have ha := a.isLt
  have hb := b.isLt
  have hc := c.isLt
  have hd := b2n_lt d
  have he := b2n_lt e
  have hf : Fits [(2, 0), (1, b2n e), (1, b2n d), (2, c.toNat), (6, 0), (6, b.toNat), (6, a.toNat), (8, op)] := ⟨by decide, he, hd, hc, by decide, hb, ha, ho, trivial⟩
  have hP : N = packed [(2, 0), (1, b2n e), (1, b2n d), (2, c.toNat), (6, 0), (6, b.toNat), (6, a.toNat), (8, op)] := by
    rw [hN, word5 _ _ _ _ _ _ _ _ _ _ _ (by omega)]; simp only [packed]; omega
  exact ⟨fld_at hP hf 7 rfl rfl, fld_at hP hf 0 rfl rfl, fld_at hP hf 4 rfl rfl, bvf_at hP hf 6 rfl rfl, bvf_at hP hf 5 rfl rfl, bvf_at hP hf 3 rfl rfl, bit1_at hP hf 2 rfl rfl, bit1_at hP hf 1 rfl rfl⟩
/-- What the decoder finds in words of one layout. -/
theorem lay19 (F op N : Nat) (ho : op < 256) (hF : F = op * 2 ^ 24 + 0) (a : BitVec 6) (b : BitVec 6) (c : BitVec 6) (d : Bool) (e : Bool) (hN : N = (word F [(a.toNat, 18), (b.toNat, 12), (c.toNat, 6), (b2n d, 5), (b2n e, 0)]).toNat) :
    fld N 24 8 = op ∧ fld N 1 4 = 0 ∧ bvf N 18 6 = a ∧ bvf N 12 6 = b ∧ bvf N 6 6 = c ∧ bit1 N 5 = d ∧ bit1 N 0 = e := by
  have ha := a.isLt
  have hb := b.isLt
  have hc := c.isLt
  have hd := b2n_lt d
  have he := b2n_lt e
  have hf : Fits [(1, b2n e), (4, 0), (1, b2n d), (6, c.toNat), (6, b.toNat), (6, a.toNat), (8, op)] := ⟨he, by decide, hd, hc, hb, ha, ho, trivial⟩
  have hP : N = packed [(1, b2n e), (4, 0), (1, b2n d), (6, c.toNat), (6, b.toNat), (6, a.toNat), (8, op)] := by
    rw [hN, word5 _ _ _ _ _ _ _ _ _ _ _ (by omega)]; simp only [packed]; omega
  exact ⟨fld_at hP hf 6 rfl rfl, fld_at hP hf 1 rfl rfl, bvf_at hP hf 5 rfl rfl, bvf_at hP hf 4 rfl rfl, bvf_at hP hf 3 rfl rfl, bit1_at hP hf 2 rfl rfl, bit1_at hP hf 0 rfl rfl⟩
/-- What the decoder finds in words of one layout. -/
theorem lay20 (F op N : Nat) (ho : op < 256) (hF : F = op * 2 ^ 24 + 0) (a : BitVec 6) (b : BitVec 6) (c : BitVec 6) (d : Bool) (hN : N = (word F [(a.toNat, 18), (b.toNat, 12), (c.toNat, 6), (b2n d, 5)]).toNat) :
    fld N 24 8 = op ∧ fld N 0 5 = 0 ∧ bvf N 18 6 = a ∧ bvf N 12 6 = b ∧ bvf N 6 6 = c ∧ bit1 N 5 = d := by
  have ha := a.isLt
  have hb := b.isLt
  have hc := c.isLt
  have hd := b2n_lt d
  have hf : Fits [(5, 0), (1, b2n d), (6, c.toNat), (6, b.toNat), (6, a.toNat), (8, op)] := ⟨by decide, hd, hc, hb, ha, ho, trivial⟩
  have hP : N = packed [(5, 0), (1, b2n d), (6, c.toNat), (6, b.toNat), (6, a.toNat), (8, op)] := by
    rw [hN, word4 _ _ _ _ _ _ _ _ _ (by omega)]; simp only [packed]; omega
  exact ⟨fld_at hP hf 5 rfl rfl, fld_at hP hf 0 rfl rfl, bvf_at hP hf 4 rfl rfl, bvf_at hP hf 3 rfl rfl, bvf_at hP hf 2 rfl rfl, bit1_at hP hf 1 rfl rfl⟩
/-- What the decoder finds in words of one layout. -/
theorem lay21 (F op N : Nat) (ho : op < 256) (hF : F = op * 2 ^ 24 + 0) (a : BitVec 6) (b : BitVec 6) (c : BitVec 6) (d : Bool) (e : BitVec 4) (hN : N = (word F [(a.toNat, 18), (b.toNat, 12), (c.toNat, 6), (b2n d, 5), (e.toNat, 0)]).toNat) :
    fld N 24 8 = op ∧ fld N 4 1 = 0 ∧ bvf N 18 6 = a ∧ bvf N 12 6 = b ∧ bvf N 6 6 = c ∧ bit1 N 5 = d ∧ bvf N 0 4 = e := by
  have ha := a.isLt
  have hb := b.isLt
  have hc := c.isLt
  have hd := b2n_lt d
  have he := e.isLt
  have hf : Fits [(4, e.toNat), (1, 0), (1, b2n d), (6, c.toNat), (6, b.toNat), (6, a.toNat), (8, op)] := ⟨he, by decide, hd, hc, hb, ha, ho, trivial⟩
  have hP : N = packed [(4, e.toNat), (1, 0), (1, b2n d), (6, c.toNat), (6, b.toNat), (6, a.toNat), (8, op)] := by
    rw [hN, word5 _ _ _ _ _ _ _ _ _ _ _ (by omega)]; simp only [packed]; omega
  exact ⟨fld_at hP hf 6 rfl rfl, fld_at hP hf 1 rfl rfl, bvf_at hP hf 5 rfl rfl, bvf_at hP hf 4 rfl rfl, bvf_at hP hf 3 rfl rfl, bit1_at hP hf 2 rfl rfl, bvf_at hP hf 0 rfl rfl⟩
/-- What the decoder finds in words of one layout. -/
theorem lay22 (F op N : Nat) (ho : op < 256) (hF : F = op * 2 ^ 24 + 0) (a : BitVec 6) (b : BitVec 6) (c : BitVec 2) (d : Bool) (e : Bool) (hN : N = (word F [(a.toNat, 18), (b.toNat, 6), (c.toNat, 4), (b2n d, 3), (b2n e, 1)]).toNat) :
    fld N 24 8 = op ∧ fld N 0 1 = 0 ∧ fld N 2 1 = 0 ∧ fld N 12 6 = 0 ∧ bvf N 18 6 = a ∧ bvf N 6 6 = b ∧ bvf N 4 2 = c ∧ bit1 N 3 = d ∧ bit1 N 1 = e := by
  have ha := a.isLt
  have hb := b.isLt
  have hc := c.isLt
  have hd := b2n_lt d
  have he := b2n_lt e
  have hf : Fits [(1, 0), (1, b2n e), (1, 0), (1, b2n d), (2, c.toNat), (6, b.toNat), (6, 0), (6, a.toNat), (8, op)] := ⟨by decide, he, by decide, hd, hc, hb, by decide, ha, ho, trivial⟩
  have hP : N = packed [(1, 0), (1, b2n e), (1, 0), (1, b2n d), (2, c.toNat), (6, b.toNat), (6, 0), (6, a.toNat), (8, op)] := by
    rw [hN, word5 _ _ _ _ _ _ _ _ _ _ _ (by omega)]; simp only [packed]; omega
  exact ⟨fld_at hP hf 8 rfl rfl, fld_at hP hf 0 rfl rfl, fld_at hP hf 2 rfl rfl, fld_at hP hf 6 rfl rfl, bvf_at hP hf 7 rfl rfl, bvf_at hP hf 5 rfl rfl, bvf_at hP hf 4 rfl rfl, bit1_at hP hf 3 rfl rfl, bit1_at hP hf 1 rfl rfl⟩
/-- What the decoder finds in words of one layout. -/
theorem lay23 (F op N : Nat) (ho : op < 256) (hF : F = op * 2 ^ 24 + 0) (a : BitVec 6) (b : Bool) (hN : N = (word F [(a.toNat, 18), (b2n b, 11)]).toNat) :
    fld N 24 8 = op ∧ fld N 12 6 = 0 ∧ fld N 0 11 = 0 ∧ bvf N 18 6 = a ∧ bit1 N 11 = b := by
  have ha := a.isLt
  have hb := b2n_lt b
  have hf : Fits [(11, 0), (1, b2n b), (6, 0), (6, a.toNat), (8, op)] := ⟨by decide, hb, by decide, ha, ho, trivial⟩
  have hP : N = packed [(11, 0), (1, b2n b), (6, 0), (6, a.toNat), (8, op)] := by
    rw [hN, word2 _ _ _ _ _ (by omega)]; simp only [packed]; omega
  exact ⟨fld_at hP hf 4 rfl rfl, fld_at hP hf 2 rfl rfl, fld_at hP hf 0 rfl rfl, bvf_at hP hf 3 rfl rfl, bit1_at hP hf 1 rfl rfl⟩
/-- What the decoder finds in words of one layout. -/
theorem lay24 (F op N : Nat) (ho : op < 256) (hF : F = op * 2 ^ 24 + 0) (a : BitVec 6) (b : BitVec 6) (c : BitVec 2) (hN : N = (word F [(a.toNat, 18), (b.toNat, 12), (c.toNat, 4)]).toNat) :
    fld N 24 8 = op ∧ fld N 0 4 = 0 ∧ fld N 6 6 = 0 ∧ bvf N 18 6 = a ∧ bvf N 12 6 = b ∧ bvf N 4 2 = c := by
  have ha := a.isLt
  have hb := b.isLt
  have hc := c.isLt
  have hf : Fits [(4, 0), (2, c.toNat), (6, 0), (6, b.toNat), (6, a.toNat), (8, op)] := ⟨by decide, hc, by decide, hb, ha, ho, trivial⟩
  have hP : N = packed [(4, 0), (2, c.toNat), (6, 0), (6, b.toNat), (6, a.toNat), (8, op)] := by
    rw [hN, word3 _ _ _ _ _ _ _ (by omega)]; simp only [packed]; omega
  exact ⟨fld_at hP hf 5 rfl rfl, fld_at hP hf 0 rfl rfl, fld_at hP hf 2 rfl rfl, bvf_at hP hf 4 rfl rfl, bvf_at hP hf 3 rfl rfl, bvf_at hP hf 1 rfl rfl⟩
/-- What the decoder finds in words of one layout. -/
theorem lay25 (F op N : Nat) (ho : op < 256) (hF : F = op * 2 ^ 24 + 0) (a : BitVec 6) (b : BitVec 6) (c : Bool) (d : BitVec 11) (hN : N = (word F [(a.toNat, 18), (b.toNat, 12), (b2n c, 11), (d.toNat, 0)]).toNat) :
    fld N 24 8 = op ∧ bvf N 18 6 = a ∧ bvf N 12 6 = b ∧ bit1 N 11 = c ∧ bvf N 0 11 = d := by
  have ha := a.isLt
  have hb := b.isLt
  have hc := b2n_lt c
  have hd := d.isLt
  have hf : Fits [(11, d.toNat), (1, b2n c), (6, b.toNat), (6, a.toNat), (8, op)] := ⟨hd, hc, hb, ha, ho, trivial⟩
  have hP : N = packed [(11, d.toNat), (1, b2n c), (6, b.toNat), (6, a.toNat), (8, op)] := by
    rw [hN, word4 _ _ _ _ _ _ _ _ _ (by omega)]; simp only [packed]; omega
  exact ⟨fld_at hP hf 4 rfl rfl, bvf_at hP hf 3 rfl rfl, bvf_at hP hf 2 rfl rfl, bit1_at hP hf 1 rfl rfl, bvf_at hP hf 0 rfl rfl⟩
/-- What the decoder finds in words of one layout. -/
theorem lay26 (F op N : Nat) (ho : op < 256) (hF : F = op * 2 ^ 24 + 0) (a : BitVec 6) (b : BitVec 6) (c : BitVec 6) (d : Bool) (e : Bool) (f : BitVec 3) (hN : N = (word F [(a.toNat, 18), (b.toNat, 12), (c.toNat, 6), (b2n d, 5), (b2n e, 3), (f.toNat, 0)]).toNat) :
    fld N 24 8 = op ∧ fld N 4 1 = 0 ∧ bvf N 18 6 = a ∧ bvf N 12 6 = b ∧ bvf N 6 6 = c ∧ bit1 N 5 = d ∧ bit1 N 3 = e ∧ bvf N 0 3 = f := by
  have ha := a.isLt
  have hb := b.isLt
  have hc := c.isLt
  have hd := b2n_lt d
  have he := b2n_lt e
  have hf := f.isLt
  have hf : Fits [(3, f.toNat), (1, b2n e), (1, 0), (1, b2n d), (6, c.toNat), (6, b.toNat), (6, a.toNat), (8, op)] := ⟨hf, he, by decide, hd, hc, hb, ha, ho, trivial⟩
  have hP : N = packed [(3, f.toNat), (1, b2n e), (1, 0), (1, b2n d), (6, c.toNat), (6, b.toNat), (6, a.toNat), (8, op)] := by
    rw [hN, word6 _ _ _ _ _ _ _ _ _ _ _ _ _ (by omega)]; simp only [packed]; omega
  exact ⟨fld_at hP hf 7 rfl rfl, fld_at hP hf 2 rfl rfl, bvf_at hP hf 6 rfl rfl, bvf_at hP hf 5 rfl rfl, bvf_at hP hf 4 rfl rfl, bit1_at hP hf 3 rfl rfl, bit1_at hP hf 1 rfl rfl, bvf_at hP hf 0 rfl rfl⟩
/-- What the decoder finds in words of one layout. -/
theorem lay27 (F op N : Nat) (ho : op < 256) (hF : F = op * 2 ^ 24 + 0) (a : BitVec 6) (b : BitVec 6) (c : BitVec 6) (d : BitVec 2) (e : Bool) (hN : N = (word F [(a.toNat, 18), (b.toNat, 12), (c.toNat, 6), (d.toNat, 4), (b2n e, 3)]).toNat) :
    fld N 24 8 = op ∧ fld N 0 3 = 0 ∧ bvf N 18 6 = a ∧ bvf N 12 6 = b ∧ bvf N 6 6 = c ∧ bvf N 4 2 = d ∧ bit1 N 3 = e := by
  have ha := a.isLt
  have hb := b.isLt
  have hc := c.isLt
  have hd := d.isLt
  have he := b2n_lt e
  have hf : Fits [(3, 0), (1, b2n e), (2, d.toNat), (6, c.toNat), (6, b.toNat), (6, a.toNat), (8, op)] := ⟨by decide, he, hd, hc, hb, ha, ho, trivial⟩
  have hP : N = packed [(3, 0), (1, b2n e), (2, d.toNat), (6, c.toNat), (6, b.toNat), (6, a.toNat), (8, op)] := by
    rw [hN, word5 _ _ _ _ _ _ _ _ _ _ _ (by omega)]; simp only [packed]; omega
  exact ⟨fld_at hP hf 6 rfl rfl, fld_at hP hf 0 rfl rfl, bvf_at hP hf 5 rfl rfl, bvf_at hP hf 4 rfl rfl, bvf_at hP hf 3 rfl rfl, bvf_at hP hf 2 rfl rfl, bit1_at hP hf 1 rfl rfl⟩
/-- What the decoder finds in words of one layout. -/
theorem lay28 (F op N : Nat) (ho : op < 256) (hF : F = op * 2 ^ 24 + 8) (a : BitVec 6) (b : BitVec 6) (c : BitVec 2) (hN : N = (word F [(a.toNat, 18), (b.toNat, 12), (c.toNat, 4)]).toNat) :
    fld N 24 8 = op ∧ fld N 0 4 = 8 ∧ fld N 6 6 = 0 ∧ bvf N 18 6 = a ∧ bvf N 12 6 = b ∧ bvf N 4 2 = c := by
  have ha := a.isLt
  have hb := b.isLt
  have hc := c.isLt
  have hf : Fits [(4, 8), (2, c.toNat), (6, 0), (6, b.toNat), (6, a.toNat), (8, op)] := ⟨by decide, hc, by decide, hb, ha, ho, trivial⟩
  have hP : N = packed [(4, 8), (2, c.toNat), (6, 0), (6, b.toNat), (6, a.toNat), (8, op)] := by
    rw [hN, word3 _ _ _ _ _ _ _ (by omega)]; simp only [packed]; omega
  exact ⟨fld_at hP hf 5 rfl rfl, fld_at hP hf 0 rfl rfl, fld_at hP hf 2 rfl rfl, bvf_at hP hf 4 rfl rfl, bvf_at hP hf 3 rfl rfl, bvf_at hP hf 1 rfl rfl⟩
/-- What the decoder finds in words of one layout. -/
theorem lay29 (F op N : Nat) (ho : op < 256) (hF : F = op * 2 ^ 24 + 8) (a : BitVec 6) (b : BitVec 6) (c : BitVec 2) (hN : N = (word F [(a.toNat, 18), (b.toNat, 6), (c.toNat, 4)]).toNat) :
    fld N 24 8 = op ∧ fld N 0 4 = 8 ∧ fld N 12 6 = 0 ∧ bvf N 18 6 = a ∧ bvf N 6 6 = b ∧ bvf N 4 2 = c := by
  have ha := a.isLt
  have hb := b.isLt
  have hc := c.isLt
  have hf : Fits [(4, 8), (2, c.toNat), (6, b.toNat), (6, 0), (6, a.toNat), (8, op)] := ⟨by decide, hc, hb, by decide, ha, ho, trivial⟩
  have hP : N = packed [(4, 8), (2, c.toNat), (6, b.toNat), (6, 0), (6, a.toNat), (8, op)] := by
    rw [hN, word3 _ _ _ _ _ _ _ (by omega)]; simp only [packed]; omega
  exact ⟨fld_at hP hf 5 rfl rfl, fld_at hP hf 0 rfl rfl, fld_at hP hf 3 rfl rfl, bvf_at hP hf 4 rfl rfl, bvf_at hP hf 2 rfl rfl, bvf_at hP hf 1 rfl rfl⟩
/-- What the decoder finds in words of one layout. -/
theorem lay30 (F op N : Nat) (ho : op < 256) (hF : F = op * 2 ^ 24 + 0) (a : BitVec 6) (b : BitVec 6) (c : BitVec 2) (d : Bool) (e : Bool) (f : Bool) (hN : N = (word F [(a.toNat, 18), (b.toNat, 12), (c.toNat, 4), (b2n d, 3), (b2n e, 2), (b2n f, 0)]).toNat) :
    fld N 24 8 = op ∧ fld N 1 1 = 0 ∧ fld N 6 6 = 0 ∧ bvf N 18 6 = a ∧ bvf N 12 6 = b ∧ bvf N 4 2 = c ∧ bit1 N 3 = d ∧ bit1 N 2 = e ∧ bit1 N 0 = f := by
  have ha := a.isLt
  have hb := b.isLt
  have hc := c.isLt
  have hd := b2n_lt d
  have he := b2n_lt e
  have hf := b2n_lt f
  have hf : Fits [(1, b2n f), (1, 0), (1, b2n e), (1, b2n d), (2, c.toNat), (6, 0), (6, b.toNat), (6, a.toNat), (8, op)] := ⟨hf, by decide, he, hd, hc, by decide, hb, ha, ho, trivial⟩
  have hP : N = packed [(1, b2n f), (1, 0), (1, b2n e), (1, b2n d), (2, c.toNat), (6, 0), (6, b.toNat), (6, a.toNat), (8, op)] := by
    rw [hN, word6 _ _ _ _ _ _ _ _ _ _ _ _ _ (by omega)]; simp only [packed]; omega
  exact ⟨fld_at hP hf 8 rfl rfl, fld_at hP hf 1 rfl rfl, fld_at hP hf 5 rfl rfl, bvf_at hP hf 7 rfl rfl, bvf_at hP hf 6 rfl rfl, bvf_at hP hf 4 rfl rfl, bit1_at hP hf 3 rfl rfl, bit1_at hP hf 2 rfl rfl, bit1_at hP hf 0 rfl rfl⟩
/-- What the decoder finds in words of one layout. -/
theorem lay31 (F op N : Nat) (ho : op < 256) (hF : F = op * 2 ^ 24 + 0) (a : BitVec 6) (b : BitVec 6) (c : BitVec 3) (d : Bool) (e : BitVec 3) (hN : N = (word F [(a.toNat, 18), (b.toNat, 12), (c.toNat, 6), (b2n d, 5), (e.toNat, 0)]).toNat) :
    fld N 24 8 = op ∧ fld N 3 2 = 0 ∧ fld N 9 3 = 0 ∧ bvf N 18 6 = a ∧ bvf N 12 6 = b ∧ bvf N 6 3 = c ∧ bit1 N 5 = d ∧ bvf N 0 3 = e := by
  have ha := a.isLt
  have hb := b.isLt
  have hc := c.isLt
  have hd := b2n_lt d
  have he := e.isLt
  have hf : Fits [(3, e.toNat), (2, 0), (1, b2n d), (3, c.toNat), (3, 0), (6, b.toNat), (6, a.toNat), (8, op)] := ⟨he, by decide, hd, hc, by decide, hb, ha, ho, trivial⟩
  have hP : N = packed [(3, e.toNat), (2, 0), (1, b2n d), (3, c.toNat), (3, 0), (6, b.toNat), (6, a.toNat), (8, op)] := by
    rw [hN, word5 _ _ _ _ _ _ _ _ _ _ _ (by omega)]; simp only [packed]; omega
  exact ⟨fld_at hP hf 7 rfl rfl, fld_at hP hf 1 rfl rfl, fld_at hP hf 4 rfl rfl, bvf_at hP hf 6 rfl rfl, bvf_at hP hf 5 rfl rfl, bvf_at hP hf 3 rfl rfl, bit1_at hP hf 2 rfl rfl, bvf_at hP hf 0 rfl rfl⟩
/-- What the decoder finds in words of one layout. -/
theorem lay32 (F op N : Nat) (ho : op < 256) (hF : F = op * 2 ^ 24 + 0) (a : BitVec 6) (b : BitVec 6) (c : Bool) (d : BitVec 4) (hN : N = (word F [(a.toNat, 18), (b.toNat, 12), (b2n c, 5), (d.toNat, 0)]).toNat) :
    fld N 24 8 = op ∧ fld N 4 1 = 0 ∧ fld N 6 6 = 0 ∧ bvf N 18 6 = a ∧ bvf N 12 6 = b ∧ bit1 N 5 = c ∧ bvf N 0 4 = d := by
  have ha := a.isLt
  have hb := b.isLt
  have hc := b2n_lt c
  have hd := d.isLt
  have hf : Fits [(4, d.toNat), (1, 0), (1, b2n c), (6, 0), (6, b.toNat), (6, a.toNat), (8, op)] := ⟨hd, by decide, hc, by decide, hb, ha, ho, trivial⟩
  have hP : N = packed [(4, d.toNat), (1, 0), (1, b2n c), (6, 0), (6, b.toNat), (6, a.toNat), (8, op)] := by
    rw [hN, word4 _ _ _ _ _ _ _ _ _ (by omega)]; simp only [packed]; omega
  exact ⟨fld_at hP hf 6 rfl rfl, fld_at hP hf 1 rfl rfl, fld_at hP hf 3 rfl rfl, bvf_at hP hf 5 rfl rfl, bvf_at hP hf 4 rfl rfl, bit1_at hP hf 2 rfl rfl, bvf_at hP hf 0 rfl rfl⟩
/-- What the decoder finds in words of one layout. -/
theorem lay33 (F op N : Nat) (ho : op < 256) (hF : F = op * 2 ^ 24 + 0) (a : BitVec 6) (b : BitVec 6) (c : BitVec 2) (d : Bool) (hN : N = (word F [(a.toNat, 18), (b.toNat, 6), (c.toNat, 4), (b2n d, 3)]).toNat) :
    fld N 24 8 = op ∧ fld N 0 3 = 0 ∧ fld N 12 6 = 0 ∧ bvf N 18 6 = a ∧ bvf N 6 6 = b ∧ bvf N 4 2 = c ∧ bit1 N 3 = d := by
  have ha := a.isLt
  have hb := b.isLt
  have hc := c.isLt
  have hd := b2n_lt d
  have hf : Fits [(3, 0), (1, b2n d), (2, c.toNat), (6, b.toNat), (6, 0), (6, a.toNat), (8, op)] := ⟨by decide, hd, hc, hb, by decide, ha, ho, trivial⟩
  have hP : N = packed [(3, 0), (1, b2n d), (2, c.toNat), (6, b.toNat), (6, 0), (6, a.toNat), (8, op)] := by
    rw [hN, word4 _ _ _ _ _ _ _ _ _ (by omega)]; simp only [packed]; omega
  exact ⟨fld_at hP hf 6 rfl rfl, fld_at hP hf 0 rfl rfl, fld_at hP hf 4 rfl rfl, bvf_at hP hf 5 rfl rfl, bvf_at hP hf 3 rfl rfl, bvf_at hP hf 2 rfl rfl, bit1_at hP hf 1 rfl rfl⟩
/-- What the decoder finds in words of one layout. -/
theorem lay34 (F op N : Nat) (ho : op < 256) (hF : F = op * 2 ^ 24 + 0) (a : BitVec 6) (b : BitVec 2) (c : Bool) (hN : N = (word F [(a.toNat, 18), (b.toNat, 4), (b2n c, 3)]).toNat) :
    fld N 24 8 = op ∧ fld N 0 3 = 0 ∧ fld N 6 12 = 0 ∧ bvf N 18 6 = a ∧ bvf N 4 2 = b ∧ bit1 N 3 = c := by
  have ha := a.isLt
  have hb := b.isLt
  have hc := b2n_lt c
  have hf : Fits [(3, 0), (1, b2n c), (2, b.toNat), (12, 0), (6, a.toNat), (8, op)] := ⟨by decide, hc, hb, by decide, ha, ho, trivial⟩
  have hP : N = packed [(3, 0), (1, b2n c), (2, b.toNat), (12, 0), (6, a.toNat), (8, op)] := by
    rw [hN, word3 _ _ _ _ _ _ _ (by omega)]; simp only [packed]; omega
  exact ⟨fld_at hP hf 5 rfl rfl, fld_at hP hf 0 rfl rfl, fld_at hP hf 3 rfl rfl, bvf_at hP hf 4 rfl rfl, bvf_at hP hf 2 rfl rfl, bit1_at hP hf 1 rfl rfl⟩
/-- What the decoder finds in words of one layout. -/
theorem lay35 (F op N : Nat) (ho : op < 256) (hF : F = op * 2 ^ 24 + 0) (a : BitVec 6) (b : BitVec 6) (c : BitVec 6) (d : BitVec 2) (e : Bool) (hN : N = (word F [(a.toNat, 18), (b.toNat, 12), (c.toNat, 6), (d.toNat, 4), (b2n e, 2)]).toNat) :
    fld N 24 8 = op ∧ fld N 0 2 = 0 ∧ fld N 3 1 = 0 ∧ bvf N 18 6 = a ∧ bvf N 12 6 = b ∧ bvf N 6 6 = c ∧ bvf N 4 2 = d ∧ bit1 N 2 = e := by
  have ha := a.isLt
  have hb := b.isLt
  have hc := c.isLt
  have hd := d.isLt
  have he := b2n_lt e
  have hf : Fits [(2, 0), (1, b2n e), (1, 0), (2, d.toNat), (6, c.toNat), (6, b.toNat), (6, a.toNat), (8, op)] := ⟨by decide, he, by decide, hd, hc, hb, ha, ho, trivial⟩
  have hP : N = packed [(2, 0), (1, b2n e), (1, 0), (2, d.toNat), (6, c.toNat), (6, b.toNat), (6, a.toNat), (8, op)] := by
    rw [hN, word5 _ _ _ _ _ _ _ _ _ _ _ (by omega)]; simp only [packed]; omega
  exact ⟨fld_at hP hf 7 rfl rfl, fld_at hP hf 0 rfl rfl, fld_at hP hf 2 rfl rfl, bvf_at hP hf 6 rfl rfl, bvf_at hP hf 5 rfl rfl, bvf_at hP hf 4 rfl rfl, bvf_at hP hf 3 rfl rfl, bit1_at hP hf 1 rfl rfl⟩
/-- What the decoder finds in words of one layout. -/
theorem lay36 (F op N : Nat) (ho : op < 256) (hF : F = op * 2 ^ 24 + 0) (a : BitVec 6) (b : BitVec 6) (c : BitVec 6) (d : BitVec 2) (e : Bool) (f : Bool) (hN : N = (word F [(a.toNat, 18), (b.toNat, 12), (c.toNat, 6), (d.toNat, 4), (b2n e, 2), (b2n f, 1)]).toNat) :
    fld N 24 8 = op ∧ fld N 0 1 = 0 ∧ fld N 3 1 = 0 ∧ bvf N 18 6 = a ∧ bvf N 12 6 = b ∧ bvf N 6 6 = c ∧ bvf N 4 2 = d ∧ bit1 N 2 = e ∧ bit1 N 1 = f := by
  have ha := a.isLt
  have hb := b.isLt
  have hc := c.isLt
  have hd := d.isLt
  have he := b2n_lt e
  have hf := b2n_lt f
  have hf : Fits [(1, 0), (1, b2n f), (1, b2n e), (1, 0), (2, d.toNat), (6, c.toNat), (6, b.toNat), (6, a.toNat), (8, op)] := ⟨by decide, hf, he, by decide, hd, hc, hb, ha, ho, trivial⟩
  have hP : N = packed [(1, 0), (1, b2n f), (1, b2n e), (1, 0), (2, d.toNat), (6, c.toNat), (6, b.toNat), (6, a.toNat), (8, op)] := by
    rw [hN, word6 _ _ _ _ _ _ _ _ _ _ _ _ _ (by omega)]; simp only [packed]; omega
  exact ⟨fld_at hP hf 8 rfl rfl, fld_at hP hf 0 rfl rfl, fld_at hP hf 3 rfl rfl, bvf_at hP hf 7 rfl rfl, bvf_at hP hf 6 rfl rfl, bvf_at hP hf 5 rfl rfl, bvf_at hP hf 4 rfl rfl, bit1_at hP hf 2 rfl rfl, bit1_at hP hf 1 rfl rfl⟩
/-- What the decoder finds in words of one layout. -/
theorem lay37 (F op N : Nat) (ho : op < 256) (hF : F = op * 2 ^ 24 + 0) (a : BitVec 6) (b : BitVec 6) (c : BitVec 11) (hN : N = (word F [(a.toNat, 18), (b.toNat, 12), (c.toNat, 0)]).toNat) :
    fld N 24 8 = op ∧ fld N 11 1 = 0 ∧ bvf N 18 6 = a ∧ bvf N 12 6 = b ∧ bvf N 0 11 = c := by
  have ha := a.isLt
  have hb := b.isLt
  have hc := c.isLt
  have hf : Fits [(11, c.toNat), (1, 0), (6, b.toNat), (6, a.toNat), (8, op)] := ⟨hc, by decide, hb, ha, ho, trivial⟩
  have hP : N = packed [(11, c.toNat), (1, 0), (6, b.toNat), (6, a.toNat), (8, op)] := by
    rw [hN, word3 _ _ _ _ _ _ _ (by omega)]; simp only [packed]; omega
  exact ⟨fld_at hP hf 4 rfl rfl, fld_at hP hf 1 rfl rfl, bvf_at hP hf 3 rfl rfl, bvf_at hP hf 2 rfl rfl, bvf_at hP hf 0 rfl rfl⟩
/-- What the decoder finds in words of one layout. -/
theorem lay38 (F op N : Nat) (ho : op < 256) (hF : F = op * 2 ^ 24 + 0) (a : BitVec 6) (b : BitVec 6) (c : Bool) (d : BitVec 6) (hN : N = (word F [(a.toNat, 18), (b.toNat, 12), (b2n c, 6), (d.toNat, 0)]).toNat) :
    fld N 24 8 = op ∧ fld N 7 5 = 0 ∧ bvf N 18 6 = a ∧ bvf N 12 6 = b ∧ bit1 N 6 = c ∧ bvf N 0 6 = d := by
  have ha := a.isLt
  have hb := b.isLt
  have hc := b2n_lt c
  have hd := d.isLt
  have hf : Fits [(6, d.toNat), (1, b2n c), (5, 0), (6, b.toNat), (6, a.toNat), (8, op)] := ⟨hd, hc, by decide, hb, ha, ho, trivial⟩
  have hP : N = packed [(6, d.toNat), (1, b2n c), (5, 0), (6, b.toNat), (6, a.toNat), (8, op)] := by
    rw [hN, word4 _ _ _ _ _ _ _ _ _ (by omega)]; simp only [packed]; omega
  exact ⟨fld_at hP hf 5 rfl rfl, fld_at hP hf 2 rfl rfl, bvf_at hP hf 4 rfl rfl, bvf_at hP hf 3 rfl rfl, bit1_at hP hf 1 rfl rfl, bvf_at hP hf 0 rfl rfl⟩
/-- What the decoder finds in words of one layout. -/
theorem lay39 (F op N : Nat) (ho : op < 256) (hF : F = op * 2 ^ 24 + 0) (a : BitVec 6) (b : BitVec 6) (c : BitVec 6) (d : BitVec 2) (hN : N = (word F [(a.toNat, 18), (b.toNat, 12), (c.toNat, 6), (d.toNat, 4)]).toNat) :
    fld N 24 8 = op ∧ fld N 0 4 = 0 ∧ bvf N 18 6 = a ∧ bvf N 12 6 = b ∧ bvf N 6 6 = c ∧ bvf N 4 2 = d := by
  have ha := a.isLt
  have hb := b.isLt
  have hc := c.isLt
  have hd := d.isLt
  have hf : Fits [(4, 0), (2, d.toNat), (6, c.toNat), (6, b.toNat), (6, a.toNat), (8, op)] := ⟨by decide, hd, hc, hb, ha, ho, trivial⟩
  have hP : N = packed [(4, 0), (2, d.toNat), (6, c.toNat), (6, b.toNat), (6, a.toNat), (8, op)] := by
    rw [hN, word4 _ _ _ _ _ _ _ _ _ (by omega)]; simp only [packed]; omega
  exact ⟨fld_at hP hf 5 rfl rfl, fld_at hP hf 0 rfl rfl, bvf_at hP hf 4 rfl rfl, bvf_at hP hf 3 rfl rfl, bvf_at hP hf 2 rfl rfl, bvf_at hP hf 1 rfl rfl⟩
/-- What the decoder finds in words of one layout. -/
theorem lay40 (F op N : Nat) (ho : op < 256) (hF : F = op * 2 ^ 24 + 0) (a : BitVec 6) (b : BitVec 6) (c : BitVec 2) (d : Bool) (hN : N = (word F [(a.toNat, 18), (b.toNat, 12), (c.toNat, 4), (b2n d, 2)]).toNat) :
    fld N 24 8 = op ∧ fld N 0 2 = 0 ∧ fld N 3 1 = 0 ∧ fld N 6 6 = 0 ∧ bvf N 18 6 = a ∧ bvf N 12 6 = b ∧ bvf N 4 2 = c ∧ bit1 N 2 = d := by
  have ha := a.isLt
  have hb := b.isLt
  have hc := c.isLt
  have hd := b2n_lt d
  have hf : Fits [(2, 0), (1, b2n d), (1, 0), (2, c.toNat), (6, 0), (6, b.toNat), (6, a.toNat), (8, op)] := ⟨by decide, hd, by decide, hc, by decide, hb, ha, ho, trivial⟩
  have hP : N = packed [(2, 0), (1, b2n d), (1, 0), (2, c.toNat), (6, 0), (6, b.toNat), (6, a.toNat), (8, op)] := by
    rw [hN, word4 _ _ _ _ _ _ _ _ _ (by omega)]; simp only [packed]; omega
  exact ⟨fld_at hP hf 7 rfl rfl, fld_at hP hf 0 rfl rfl, fld_at hP hf 2 rfl rfl, fld_at hP hf 4 rfl rfl, bvf_at hP hf 6 rfl rfl, bvf_at hP hf 5 rfl rfl, bvf_at hP hf 3 rfl rfl, bit1_at hP hf 1 rfl rfl⟩
/-- What the decoder finds in words of one layout. -/
theorem lay41 (F op N : Nat) (ho : op < 256) (hF : F = op * 2 ^ 24 + 0) (a : BitVec 6) (b : BitVec 6) (c : Bool) (d : BitVec 8) (e : BitVec 3) (hN : N = (word F [(a.toNat, 18), (b.toNat, 12), (b2n c, 11), (d.toNat, 3), (e.toNat, 0)]).toNat) :
    fld N 24 8 = op ∧ bvf N 18 6 = a ∧ bvf N 12 6 = b ∧ bit1 N 11 = c ∧ bvf N 3 8 = d ∧ bvf N 0 3 = e := by
  have ha := a.isLt
  have hb := b.isLt
  have hc := b2n_lt c
  have hd := d.isLt
  have he := e.isLt
  have hf : Fits [(3, e.toNat), (8, d.toNat), (1, b2n c), (6, b.toNat), (6, a.toNat), (8, op)] := ⟨he, hd, hc, hb, ha, ho, trivial⟩
  have hP : N = packed [(3, e.toNat), (8, d.toNat), (1, b2n c), (6, b.toNat), (6, a.toNat), (8, op)] := by
    rw [hN, word5 _ _ _ _ _ _ _ _ _ _ _ (by omega)]; simp only [packed]; omega
  exact ⟨fld_at hP hf 5 rfl rfl, bvf_at hP hf 4 rfl rfl, bvf_at hP hf 3 rfl rfl, bit1_at hP hf 2 rfl rfl, bvf_at hP hf 1 rfl rfl, bvf_at hP hf 0 rfl rfl⟩
/-- What the decoder finds in words of one layout. -/
theorem lay42 (F op N : Nat) (ho : op < 256) (hF : F = op * 2 ^ 24 + 0) (a : BitVec 6) (b : BitVec 6) (c : BitVec 8) (d : BitVec 3) (hN : N = (word F [(a.toNat, 18), (b.toNat, 12), (c.toNat, 3), (d.toNat, 0)]).toNat) :
    fld N 24 8 = op ∧ fld N 11 1 = 0 ∧ bvf N 18 6 = a ∧ bvf N 12 6 = b ∧ bvf N 3 8 = c ∧ bvf N 0 3 = d := by
  have ha := a.isLt
  have hb := b.isLt
  have hc := c.isLt
  have hd := d.isLt
  have hf : Fits [(3, d.toNat), (8, c.toNat), (1, 0), (6, b.toNat), (6, a.toNat), (8, op)] := ⟨hd, hc, by decide, hb, ha, ho, trivial⟩
  have hP : N = packed [(3, d.toNat), (8, c.toNat), (1, 0), (6, b.toNat), (6, a.toNat), (8, op)] := by
    rw [hN, word4 _ _ _ _ _ _ _ _ _ (by omega)]; simp only [packed]; omega
  exact ⟨fld_at hP hf 5 rfl rfl, fld_at hP hf 2 rfl rfl, bvf_at hP hf 4 rfl rfl, bvf_at hP hf 3 rfl rfl, bvf_at hP hf 1 rfl rfl, bvf_at hP hf 0 rfl rfl⟩
/-- What the decoder finds in words of one layout. -/
theorem lay43 (F op N : Nat) (ho : op < 256) (hF : F = op * 2 ^ 24 + 0) (a : BitVec 6) (b : Bool) (c : BitVec 8) (d : BitVec 3) (hN : N = (word F [(a.toNat, 12), (b2n b, 11), (c.toNat, 3), (d.toNat, 0)]).toNat) :
    fld N 24 8 = op ∧ fld N 18 6 = 0 ∧ bvf N 12 6 = a ∧ bit1 N 11 = b ∧ bvf N 3 8 = c ∧ bvf N 0 3 = d := by
  have ha := a.isLt
  have hb := b2n_lt b
  have hc := c.isLt
  have hd := d.isLt
  have hf : Fits [(3, d.toNat), (8, c.toNat), (1, b2n b), (6, a.toNat), (6, 0), (8, op)] := ⟨hd, hc, hb, ha, by decide, ho, trivial⟩
  have hP : N = packed [(3, d.toNat), (8, c.toNat), (1, b2n b), (6, a.toNat), (6, 0), (8, op)] := by
    rw [hN, word4 _ _ _ _ _ _ _ _ _ (by omega)]; simp only [packed]; omega
  exact ⟨fld_at hP hf 5 rfl rfl, fld_at hP hf 4 rfl rfl, bvf_at hP hf 3 rfl rfl, bit1_at hP hf 2 rfl rfl, bvf_at hP hf 1 rfl rfl, bvf_at hP hf 0 rfl rfl⟩
/-- What the decoder finds in words of one layout. -/
theorem lay44 (F op N : Nat) (ho : op < 256) (hF : F = op * 2 ^ 24 + 0) (a : BitVec 3) (hN : N = (word F [(a.toNat, 0)]).toNat) :
    fld N 24 8 = op ∧ fld N 3 21 = 0 ∧ bvf N 0 3 = a := by
  have ha := a.isLt
  have hf : Fits [(3, a.toNat), (21, 0), (8, op)] := ⟨ha, by decide, ho, trivial⟩
  have hP : N = packed [(3, a.toNat), (21, 0), (8, op)] := by
    rw [hN, word1 _ _ _ (by omega)]; simp only [packed]; omega
  exact ⟨fld_at hP hf 2 rfl rfl, fld_at hP hf 1 rfl rfl, bvf_at hP hf 0 rfl rfl⟩
/-- What the decoder finds in words of one layout. -/
theorem lay45 (F op N : Nat) (ho : op < 256) (hF : F = op * 2 ^ 24 + 0) (a : BitVec 6) (b : BitVec 6) (c : Bool) (d : BitVec 3) (hN : N = (word F [(a.toNat, 12), (b.toNat, 6), (b2n c, 3), (d.toNat, 0)]).toNat) :
    fld N 24 8 = op ∧ fld N 4 2 = 0 ∧ fld N 18 6 = 0 ∧ bvf N 12 6 = a ∧ bvf N 6 6 = b ∧ bit1 N 3 = c ∧ bvf N 0 3 = d := by
  have ha := a.isLt
  have hb := b.isLt
  have hc := b2n_lt c
  have hd := d.isLt
  have hf : Fits [(3, d.toNat), (1, b2n c), (2, 0), (6, b.toNat), (6, a.toNat), (6, 0), (8, op)] := ⟨hd, hc, by decide, hb, ha, by decide, ho, trivial⟩
  have hP : N = packed [(3, d.toNat), (1, b2n c), (2, 0), (6, b.toNat), (6, a.toNat), (6, 0), (8, op)] := by
    rw [hN, word4 _ _ _ _ _ _ _ _ _ (by omega)]; simp only [packed]; omega
  exact ⟨fld_at hP hf 6 rfl rfl, fld_at hP hf 2 rfl rfl, fld_at hP hf 5 rfl rfl, bvf_at hP hf 4 rfl rfl, bvf_at hP hf 3 rfl rfl, bit1_at hP hf 1 rfl rfl, bvf_at hP hf 0 rfl rfl⟩
/-- What the decoder finds in words of one layout. -/
theorem lay46 (F op N : Nat) (ho : op < 256) (hF : F = op * 2 ^ 24 + 0) (a : BitVec 6) (b : BitVec 6) (c : BitVec 6) (d : Bool) (e : Bool) (f : Bool) (g : BitVec 3) (hN : N = (word F [(a.toNat, 18), (b.toNat, 12), (c.toNat, 6), (b2n d, 5), (b2n e, 4), (b2n f, 3), (g.toNat, 0)]).toNat) :
    fld N 24 8 = op ∧ bvf N 18 6 = a ∧ bvf N 12 6 = b ∧ bvf N 6 6 = c ∧ bit1 N 5 = d ∧ bit1 N 4 = e ∧ bit1 N 3 = f ∧ bvf N 0 3 = g := by
  have ha := a.isLt
  have hb := b.isLt
  have hc := c.isLt
  have hd := b2n_lt d
  have he := b2n_lt e
  have hf := b2n_lt f
  have hg := g.isLt
  have hf : Fits [(3, g.toNat), (1, b2n f), (1, b2n e), (1, b2n d), (6, c.toNat), (6, b.toNat), (6, a.toNat), (8, op)] := ⟨hg, hf, he, hd, hc, hb, ha, ho, trivial⟩
  have hP : N = packed [(3, g.toNat), (1, b2n f), (1, b2n e), (1, b2n d), (6, c.toNat), (6, b.toNat), (6, a.toNat), (8, op)] := by
    rw [hN, word7 _ _ _ _ _ _ _ _ _ _ _ _ _ _ _ (by omega)]; simp only [packed]; omega
  exact ⟨fld_at hP hf 7 rfl rfl, bvf_at hP hf 6 rfl rfl, bvf_at hP hf 5 rfl rfl, bvf_at hP hf 4 rfl rfl, bit1_at hP hf 3 rfl rfl, bit1_at hP hf 2 rfl rfl, bit1_at hP hf 1 rfl rfl, bvf_at hP hf 0 rfl rfl⟩
/-- What the decoder finds in words of one layout. -/
theorem lay47 (F op N : Nat) (ho : op < 256) (hF : F = op * 2 ^ 24 + 0) (a : BitVec 6) (b : BitVec 6) (c : BitVec 3) (hN : N = (word F [(a.toNat, 12), (b.toNat, 6), (c.toNat, 0)]).toNat) :
    fld N 24 8 = op ∧ fld N 3 3 = 0 ∧ fld N 18 6 = 0 ∧ bvf N 12 6 = a ∧ bvf N 6 6 = b ∧ bvf N 0 3 = c := by
  have ha := a.isLt
  have hb := b.isLt
  have hc := c.isLt
  have hf : Fits [(3, c.toNat), (3, 0), (6, b.toNat), (6, a.toNat), (6, 0), (8, op)] := ⟨hc, by decide, hb, ha, by decide, ho, trivial⟩
  have hP : N = packed [(3, c.toNat), (3, 0), (6, b.toNat), (6, a.toNat), (6, 0), (8, op)] := by
    rw [hN, word3 _ _ _ _ _ _ _ (by omega)]; simp only [packed]; omega
  exact ⟨fld_at hP hf 5 rfl rfl, fld_at hP hf 1 rfl rfl, fld_at hP hf 4 rfl rfl, bvf_at hP hf 3 rfl rfl, bvf_at hP hf 2 rfl rfl, bvf_at hP hf 0 rfl rfl⟩
/-- What the decoder finds in words of one layout. -/
theorem lay48 (F op N : Nat) (ho : op < 256) (hF : F = op * 2 ^ 24 + 0) (a : BitVec 6) (b : BitVec 6) (c : BitVec 6) (hN : N = (word F [(a.toNat, 18), (b.toNat, 12), (c.toNat, 6)]).toNat) :
    fld N 24 8 = op ∧ fld N 0 6 = 0 ∧ bvf N 18 6 = a ∧ bvf N 12 6 = b ∧ bvf N 6 6 = c := by
  have ha := a.isLt
  have hb := b.isLt
  have hc := c.isLt
  have hf : Fits [(6, 0), (6, c.toNat), (6, b.toNat), (6, a.toNat), (8, op)] := ⟨by decide, hc, hb, ha, ho, trivial⟩
  have hP : N = packed [(6, 0), (6, c.toNat), (6, b.toNat), (6, a.toNat), (8, op)] := by
    rw [hN, word3 _ _ _ _ _ _ _ (by omega)]; simp only [packed]; omega
  exact ⟨fld_at hP hf 4 rfl rfl, fld_at hP hf 0 rfl rfl, bvf_at hP hf 3 rfl rfl, bvf_at hP hf 2 rfl rfl, bvf_at hP hf 1 rfl rfl⟩
/-- What the decoder finds in words of one layout. -/
theorem lay49 (F op N : Nat) (ho : op < 256) (hF : F = op * 2 ^ 24 + 0) (a : BitVec 6) (b : BitVec 6) (c : BitVec 6) (d : Bool) (e : BitVec 4) (hN : N = (word F [(a.toNat, 18), (b.toNat, 12), (c.toNat, 6), (b2n d, 4), (e.toNat, 0)]).toNat) :
    fld N 24 8 = op ∧ fld N 5 1 = 0 ∧ bvf N 18 6 = a ∧ bvf N 12 6 = b ∧ bvf N 6 6 = c ∧ bit1 N 4 = d ∧ bvf N 0 4 = e := by
  have ha := a.isLt
  have hb := b.isLt
  have hc := c.isLt
  have hd := b2n_lt d
  have he := e.isLt
  have hf : Fits [(4, e.toNat), (1, b2n d), (1, 0), (6, c.toNat), (6, b.toNat), (6, a.toNat), (8, op)] := ⟨he, hd, by decide, hc, hb, ha, ho, trivial⟩
  have hP : N = packed [(4, e.toNat), (1, b2n d), (1, 0), (6, c.toNat), (6, b.toNat), (6, a.toNat), (8, op)] := by
    rw [hN, word5 _ _ _ _ _ _ _ _ _ _ _ (by omega)]; simp only [packed]; omega
  exact ⟨fld_at hP hf 6 rfl rfl, fld_at hP hf 2 rfl rfl, bvf_at hP hf 5 rfl rfl, bvf_at hP hf 4 rfl rfl, bvf_at hP hf 3 rfl rfl, bit1_at hP hf 1 rfl rfl, bvf_at hP hf 0 rfl rfl⟩
/-- What the decoder finds in words of one layout. -/
theorem lay50 (F op N : Nat) (ho : op < 256) (hF : F = op * 2 ^ 24 + 0) (a : BitVec 6) (b : BitVec 6) (c : BitVec 6) (d : BitVec 4) (hN : N = (word F [(a.toNat, 18), (b.toNat, 12), (c.toNat, 6), (d.toNat, 0)]).toNat) :
    fld N 24 8 = op ∧ fld N 4 2 = 0 ∧ bvf N 18 6 = a ∧ bvf N 12 6 = b ∧ bvf N 6 6 = c ∧ bvf N 0 4 = d := by
  have ha := a.isLt
  have hb := b.isLt
  have hc := c.isLt
  have hd := d.isLt
  have hf : Fits [(4, d.toNat), (2, 0), (6, c.toNat), (6, b.toNat), (6, a.toNat), (8, op)] := ⟨hd, by decide, hc, hb, ha, ho, trivial⟩
  have hP : N = packed [(4, d.toNat), (2, 0), (6, c.toNat), (6, b.toNat), (6, a.toNat), (8, op)] := by
    rw [hN, word4 _ _ _ _ _ _ _ _ _ (by omega)]; simp only [packed]; omega
  exact ⟨fld_at hP hf 5 rfl rfl, fld_at hP hf 1 rfl rfl, bvf_at hP hf 4 rfl rfl, bvf_at hP hf 3 rfl rfl, bvf_at hP hf 2 rfl rfl, bvf_at hP hf 0 rfl rfl⟩
/-- What the decoder finds in words of one layout. -/
theorem lay51 (F op N : Nat) (ho : op < 256) (hF : F = op * 2 ^ 24 + 2048) (a : BitVec 6) (b : BitVec 11) (hN : N = (word F [(a.toNat, 12), (b.toNat, 0)]).toNat) :
    fld N 24 8 = op ∧ fld N 11 1 = 1 ∧ fld N 18 6 = 0 ∧ bvf N 12 6 = a ∧ bvf N 0 11 = b := by
  have ha := a.isLt
  have hb := b.isLt
  have hf : Fits [(11, b.toNat), (1, 1), (6, a.toNat), (6, 0), (8, op)] := ⟨hb, by decide, ha, by decide, ho, trivial⟩
  have hP : N = packed [(11, b.toNat), (1, 1), (6, a.toNat), (6, 0), (8, op)] := by
    rw [hN, word2 _ _ _ _ _ (by omega)]; simp only [packed]; omega
  exact ⟨fld_at hP hf 4 rfl rfl, fld_at hP hf 1 rfl rfl, fld_at hP hf 3 rfl rfl, bvf_at hP hf 2 rfl rfl, bvf_at hP hf 0 rfl rfl⟩
/-- What the decoder finds in words of one layout. -/
theorem lay52 (F op N : Nat) (ho : op < 256) (hF : F = op * 2 ^ 24 + 264192)  (hN : N = (word F []).toNat) :
    fld N 24 8 = op ∧ fld N 0 24 = 264192 ∧ (fld N 18 6 == 0) = false := by
  have hf : Fits [(24, 264192), (8, op)] := ⟨by decide, ho, trivial⟩
  have hP : N = packed [(24, 264192), (8, op)] := by
    rw [hN, word0 _ (by omega)]; simp only [packed]; omega
  exact ⟨fld_at hP hf 1 rfl rfl, fld_at hP hf 0 rfl rfl, by rw [beq_eq_false_iff_ne, hP]; simp only [packed, fld]; omega⟩
/-- What the decoder finds in words of one layout. -/
theorem lay53 (F op N : Nat) (ho : op < 256) (hF : F = op * 2 ^ 24 + 72) (a : BitVec 6) (b : BitVec 2) (hN : N = (word F [(a.toNat, 12), (b.toNat, 4)]).toNat) :
    fld N 24 8 = op ∧ fld N 0 4 = 8 ∧ fld N 6 6 = 1 ∧ fld N 18 6 = 0 ∧ (fld N 6 6 == 0) = false ∧ bvf N 12 6 = a ∧ bvf N 4 2 = b := by
  have ha := a.isLt
  have hb := b.isLt
  have hf : Fits [(4, 8), (2, b.toNat), (6, 1), (6, a.toNat), (6, 0), (8, op)] := ⟨by decide, hb, by decide, ha, by decide, ho, trivial⟩
  have hP : N = packed [(4, 8), (2, b.toNat), (6, 1), (6, a.toNat), (6, 0), (8, op)] := by
    rw [hN, word2 _ _ _ _ _ (by omega)]; simp only [packed]; omega
  exact ⟨fld_at hP hf 5 rfl rfl, fld_at hP hf 0 rfl rfl, fld_at hP hf 2 rfl rfl, fld_at hP hf 4 rfl rfl, by rw [beq_eq_false_iff_ne, hP]; simp only [packed, fld]; omega, bvf_at hP hf 3 rfl rfl, bvf_at hP hf 1 rfl rfl⟩
/-- What the decoder finds in words of one layout. -/
theorem lay54 (F op N : Nat) (ho : op < 256) (hF : F = op * 2 ^ 24 + 8) (a : BitVec 6) (b : BitVec 6) (c : BitVec 2) (hN : N = (word F [(a.toNat, 12), (b.toNat, 6), (c.toNat, 4)]).toNat) :
    fld N 24 8 = op ∧ fld N 0 4 = 8 ∧ fld N 18 6 = 0 ∧ bvf N 12 6 = a ∧ bvf N 6 6 = b ∧ bvf N 4 2 = c := by
  have ha := a.isLt
  have hb := b.isLt
  have hc := c.isLt
  have hf : Fits [(4, 8), (2, c.toNat), (6, b.toNat), (6, a.toNat), (6, 0), (8, op)] := ⟨by decide, hc, hb, ha, by decide, ho, trivial⟩
  have hP : N = packed [(4, 8), (2, c.toNat), (6, b.toNat), (6, a.toNat), (6, 0), (8, op)] := by
    rw [hN, word3 _ _ _ _ _ _ _ (by omega)]; simp only [packed]; omega
  exact ⟨fld_at hP hf 5 rfl rfl, fld_at hP hf 0 rfl rfl, fld_at hP hf 4 rfl rfl, bvf_at hP hf 3 rfl rfl, bvf_at hP hf 2 rfl rfl, bvf_at hP hf 1 rfl rfl⟩
/-- What the decoder finds in words of one layout. -/
theorem lay55 (F op N : Nat) (ho : op < 256) (hF : F = op * 2 ^ 24 + 0) (a : BitVec 6) (b : BitVec 6) (c : Bool) (hN : N = (word F [(a.toNat, 12), (b.toNat, 6), (b2n c, 5)]).toNat) :
    fld N 24 8 = op ∧ fld N 0 5 = 0 ∧ fld N 18 6 = 0 ∧ bvf N 12 6 = a ∧ bvf N 6 6 = b ∧ bit1 N 5 = c := by
  have ha := a.isLt
  have hb := b.isLt
  have hc := b2n_lt c
  have hf : Fits [(5, 0), (1, b2n c), (6, b.toNat), (6, a.toNat), (6, 0), (8, op)] := ⟨by decide, hc, hb, ha, by decide, ho, trivial⟩
  have hP : N = packed [(5, 0), (1, b2n c), (6, b.toNat), (6, a.toNat), (6, 0), (8, op)] := by
    rw [hN, word3 _ _ _ _ _ _ _ (by omega)]; simp only [packed]; omega
  exact ⟨fld_at hP hf 5 rfl rfl, fld_at hP hf 0 rfl rfl, fld_at hP hf 4 rfl rfl, bvf_at hP hf 3 rfl rfl, bvf_at hP hf 2 rfl rfl, bit1_at hP hf 1 rfl rfl⟩
/-- What the decoder finds in words of one layout. -/
theorem lay56 (F op N : Nat) (ho : op < 256) (hF : F = op * 2 ^ 24 + 0) (a : BitVec 6) (hN : N = (word F [(a.toNat, 12)]).toNat) :
    fld N 24 8 = op ∧ fld N 0 12 = 0 ∧ fld N 18 6 = 0 ∧ bvf N 12 6 = a := by
  have ha := a.isLt
  have hf : Fits [(12, 0), (6, a.toNat), (6, 0), (8, op)] := ⟨by decide, ha, by decide, ho, trivial⟩
  have hP : N = packed [(12, 0), (6, a.toNat), (6, 0), (8, op)] := by
    rw [hN, word1 _ _ _ (by omega)]; simp only [packed]; omega
  exact ⟨fld_at hP hf 3 rfl rfl, fld_at hP hf 0 rfl rfl, fld_at hP hf 2 rfl rfl, bvf_at hP hf 1 rfl rfl⟩
/-- What the decoder finds in words of one layout. -/
theorem lay57 (F op N : Nat) (ho : op < 256) (hF : F = op * 2 ^ 24 + 32) (a : BitVec 6) (b : BitVec 6) (hN : N = (word F [(a.toNat, 18), (b.toNat, 12)]).toNat) :
    fld N 24 8 = op ∧ fld N 0 12 = 32 ∧ (fld N 0 12 == 0) = false ∧ bvf N 18 6 = a ∧ bvf N 12 6 = b := by
  have ha := a.isLt
  have hb := b.isLt
  have hf : Fits [(12, 32), (6, b.toNat), (6, a.toNat), (8, op)] := ⟨by decide, hb, ha, ho, trivial⟩
  have hP : N = packed [(12, 32), (6, b.toNat), (6, a.toNat), (8, op)] := by
    rw [hN, word2 _ _ _ _ _ (by omega)]; simp only [packed]; omega
  exact ⟨fld_at hP hf 3 rfl rfl, fld_at hP hf 0 rfl rfl, by rw [beq_eq_false_iff_ne, hP]; simp only [packed, fld]; omega, bvf_at hP hf 2 rfl rfl, bvf_at hP hf 1 rfl rfl⟩
/-- What the decoder finds in words of one layout. -/
theorem lay58 (F op N : Nat) (ho : op < 256) (hF : F = op * 2 ^ 24 + 8) (a : BitVec 2) (hN : N = (word F [(a.toNat, 4)]).toNat) :
    fld N 24 8 = op ∧ fld N 0 4 = 8 ∧ fld N 6 18 = 0 ∧ bvf N 4 2 = a := by
  have ha := a.isLt
  have hf : Fits [(4, 8), (2, a.toNat), (18, 0), (8, op)] := ⟨by decide, ha, by decide, ho, trivial⟩
  have hP : N = packed [(4, 8), (2, a.toNat), (18, 0), (8, op)] := by
    rw [hN, word1 _ _ _ (by omega)]; simp only [packed]; omega
  exact ⟨fld_at hP hf 3 rfl rfl, fld_at hP hf 0 rfl rfl, fld_at hP hf 2 rfl rfl, bvf_at hP hf 1 rfl rfl⟩
/-- What the decoder finds in words of one layout. -/
theorem lay59 (F op N : Nat) (ho : op < 256) (hF : F = op * 2 ^ 24 + 0) (a : BitVec 6) (b : BitVec 6) (c : BitVec 6) (d : BitVec 4) (e : Bool) (f : Bool) (hN : N = (word F [(a.toNat, 18), (b.toNat, 12), (c.toNat, 6), (d.toNat, 2), (b2n e, 1), (b2n f, 0)]).toNat) :
    fld N 24 8 = op ∧ bvf N 18 6 = a ∧ bvf N 12 6 = b ∧ bvf N 6 6 = c ∧ bvf N 2 4 = d ∧ bit1 N 1 = e ∧ bit1 N 0 = f := by
  have ha := a.isLt
  have hb := b.isLt
  have hc := c.isLt
  have hd := d.isLt
  have he := b2n_lt e
  have hf := b2n_lt f
  have hf : Fits [(1, b2n f), (1, b2n e), (4, d.toNat), (6, c.toNat), (6, b.toNat), (6, a.toNat), (8, op)] := ⟨hf, he, hd, hc, hb, ha, ho, trivial⟩
  have hP : N = packed [(1, b2n f), (1, b2n e), (4, d.toNat), (6, c.toNat), (6, b.toNat), (6, a.toNat), (8, op)] := by
    rw [hN, word6 _ _ _ _ _ _ _ _ _ _ _ _ _ (by omega)]; simp only [packed]; omega
  exact ⟨fld_at hP hf 6 rfl rfl, bvf_at hP hf 5 rfl rfl, bvf_at hP hf 4 rfl rfl, bvf_at hP hf 3 rfl rfl, bvf_at hP hf 2 rfl rfl, bit1_at hP hf 1 rfl rfl, bit1_at hP hf 0 rfl rfl⟩
/-- What the decoder finds in words of one layout. -/
theorem lay60 (F op N : Nat) (ho : op < 256) (hF : F = op * 2 ^ 24 + 72) (a : BitVec 2) (hN : N = (word F [(a.toNat, 4)]).toNat) :
    fld N 24 8 = op ∧ fld N 0 4 = 8 ∧ fld N 6 18 = 1 ∧ (fld N 6 12 == 0) = false ∧ bvf N 4 2 = a := by
  have ha := a.isLt
  have hf : Fits [(4, 8), (2, a.toNat), (18, 1), (8, op)] := ⟨by decide, ha, by decide, ho, trivial⟩
  have hP : N = packed [(4, 8), (2, a.toNat), (18, 1), (8, op)] := by
    rw [hN, word1 _ _ _ (by omega)]; simp only [packed]; omega
  exact ⟨fld_at hP hf 3 rfl rfl, fld_at hP hf 0 rfl rfl, fld_at hP hf 2 rfl rfl, by rw [beq_eq_false_iff_ne, hP]; simp only [packed, fld]; omega, bvf_at hP hf 1 rfl rfl⟩
/-- What the decoder finds in words of one layout. -/
theorem lay61 (F op N : Nat) (ho : op < 256) (hF : F = op * 2 ^ 24 + 0) (a : BitVec 6) (b : BitVec 6) (c : BitVec 3) (hN : N = (word F [(a.toNat, 18), (b.toNat, 12), (c.toNat, 0)]).toNat) :
    fld N 24 8 = op ∧ fld N 3 9 = 0 ∧ bvf N 18 6 = a ∧ bvf N 12 6 = b ∧ bvf N 0 3 = c := by
  have ha := a.isLt
  have hb := b.isLt
  have hc := c.isLt
  have hf : Fits [(3, c.toNat), (9, 0), (6, b.toNat), (6, a.toNat), (8, op)] := ⟨hc, by decide, hb, ha, ho, trivial⟩
  have hP : N = packed [(3, c.toNat), (9, 0), (6, b.toNat), (6, a.toNat), (8, op)] := by
    rw [hN, word3 _ _ _ _ _ _ _ (by omega)]; simp only [packed]; omega
  exact ⟨fld_at hP hf 4 rfl rfl, fld_at hP hf 1 rfl rfl, bvf_at hP hf 3 rfl rfl, bvf_at hP hf 2 rfl rfl, bvf_at hP hf 0 rfl rfl⟩
/-- What the decoder finds in words of one layout. -/
theorem lay62 (F op N : Nat) (ho : op < 256) (hF : F = op * 2 ^ 24 + 72) (a : BitVec 6) (b : BitVec 2) (hN : N = (word F [(a.toNat, 12), (b.toNat, 4)]).toNat) :
    fld N 24 8 = op ∧ fld N 0 4 = 8 ∧ fld N 6 6 = 1 ∧ fld N 18 6 = 0 ∧ (fld N 6 18 == 0) = false ∧ bvf N 12 6 = a ∧ bvf N 4 2 = b := by
  have ha := a.isLt
  have hb := b.isLt
  have hf : Fits [(4, 8), (2, b.toNat), (6, 1), (6, a.toNat), (6, 0), (8, op)] := ⟨by decide, hb, by decide, ha, by decide, ho, trivial⟩
  have hP : N = packed [(4, 8), (2, b.toNat), (6, 1), (6, a.toNat), (6, 0), (8, op)] := by
    rw [hN, word2 _ _ _ _ _ (by omega)]; simp only [packed]; omega
  exact ⟨fld_at hP hf 5 rfl rfl, fld_at hP hf 0 rfl rfl, fld_at hP hf 2 rfl rfl, fld_at hP hf 4 rfl rfl, by rw [beq_eq_false_iff_ne, hP]; simp only [packed, fld]; omega, bvf_at hP hf 3 rfl rfl, bvf_at hP hf 1 rfl rfl⟩
/-- What the decoder finds in words of one layout. -/
theorem lay63 (F op N : Nat) (ho : op < 256) (hF : F = op * 2 ^ 24 + 0) (a : BitVec 6) (b : Bool) (c : BitVec 11) (hN : N = (word F [(a.toNat, 12), (b2n b, 11), (c.toNat, 0)]).toNat) :
    fld N 24 8 = op ∧ fld N 18 6 = 0 ∧ bvf N 12 6 = a ∧ bit1 N 11 = b ∧ bvf N 0 11 = c := by
  have ha := a.isLt
  have hb := b2n_lt b
  have hc := c.isLt
  have hf : Fits [(11, c.toNat), (1, b2n b), (6, a.toNat), (6, 0), (8, op)] := ⟨hc, hb, ha, by decide, ho, trivial⟩
  have hP : N = packed [(11, c.toNat), (1, b2n b), (6, a.toNat), (6, 0), (8, op)] := by
    rw [hN, word3 _ _ _ _ _ _ _ (by omega)]; simp only [packed]; omega
  exact ⟨fld_at hP hf 4 rfl rfl, fld_at hP hf 3 rfl rfl, bvf_at hP hf 2 rfl rfl, bit1_at hP hf 1 rfl rfl, bvf_at hP hf 0 rfl rfl⟩
/-- What the decoder finds in words of one layout. -/
theorem lay64 (F op N : Nat) (ho : op < 256) (hF : F = op * 2 ^ 24 + 2048) (a : BitVec 6) (hN : N = (word F [(a.toNat, 12)]).toNat) :
    fld N 24 8 = op ∧ fld N 0 12 = 2048 ∧ fld N 18 6 = 0 ∧ bvf N 12 6 = a := by
  have ha := a.isLt
  have hf : Fits [(12, 2048), (6, a.toNat), (6, 0), (8, op)] := ⟨by decide, ha, by decide, ho, trivial⟩
  have hP : N = packed [(12, 2048), (6, a.toNat), (6, 0), (8, op)] := by
    rw [hN, word1 _ _ _ (by omega)]; simp only [packed]; omega
  exact ⟨fld_at hP hf 3 rfl rfl, fld_at hP hf 0 rfl rfl, fld_at hP hf 2 rfl rfl, bvf_at hP hf 1 rfl rfl⟩
/-- What the decoder finds in words of one layout. -/
theorem lay65 (F op N : Nat) (ho : op < 256) (hF : F = op * 2 ^ 24 + 2048) (a : BitVec 6) (b : BitVec 11) (hN : N = (word F [(a.toNat, 18), (b.toNat, 0)]).toNat) :
    fld N 24 8 = op ∧ fld N 11 7 = 1 ∧ bvf N 18 6 = a ∧ bvf N 0 11 = b := by
  have ha := a.isLt
  have hb := b.isLt
  have hf : Fits [(11, b.toNat), (7, 1), (6, a.toNat), (8, op)] := ⟨hb, by decide, ha, ho, trivial⟩
  have hP : N = packed [(11, b.toNat), (7, 1), (6, a.toNat), (8, op)] := by
    rw [hN, word2 _ _ _ _ _ (by omega)]; simp only [packed]; omega
  exact ⟨fld_at hP hf 3 rfl rfl, fld_at hP hf 1 rfl rfl, bvf_at hP hf 2 rfl rfl, bvf_at hP hf 0 rfl rfl⟩
/-- What the decoder finds in words of one layout. -/
theorem lay66 (F op N : Nat) (ho : op < 256) (hF : F = op * 2 ^ 24 + 2048) (a : BitVec 6) (b : BitVec 6) (c : Bool) (d : Bool) (hN : N = (word F [(a.toNat, 18), (b.toNat, 12), (b2n c, 1), (b2n d, 0)]).toNat) :
    fld N 24 8 = op ∧ fld N 2 10 = 512 ∧ bvf N 18 6 = a ∧ bvf N 12 6 = b ∧ bit1 N 1 = c ∧ bit1 N 0 = d := by
  have ha := a.isLt
  have hb := b.isLt
  have hc := b2n_lt c
  have hd := b2n_lt d
  have hf : Fits [(1, b2n d), (1, b2n c), (10, 512), (6, b.toNat), (6, a.toNat), (8, op)] := ⟨hd, hc, by decide, hb, ha, ho, trivial⟩
  have hP : N = packed [(1, b2n d), (1, b2n c), (10, 512), (6, b.toNat), (6, a.toNat), (8, op)] := by
    rw [hN, word4 _ _ _ _ _ _ _ _ _ (by omega)]; simp only [packed]; omega
  exact ⟨fld_at hP hf 5 rfl rfl, fld_at hP hf 2 rfl rfl, bvf_at hP hf 4 rfl rfl, bvf_at hP hf 3 rfl rfl, bit1_at hP hf 1 rfl rfl, bit1_at hP hf 0 rfl rfl⟩
/-- What the decoder finds in words of one layout. -/
theorem lay67 (F op N : Nat) (ho : op < 256) (hF : F = op * 2 ^ 24 + 0) (a : BitVec 6) (b : BitVec 6) (c : BitVec 6) (d : Bool) (e : Bool) (f : BitVec 3) (hN : N = (word F [(a.toNat, 18), (b.toNat, 12), (c.toNat, 6), (b2n d, 4), (b2n e, 3), (f.toNat, 0)]).toNat) :
    fld N 24 8 = op ∧ fld N 5 1 = 0 ∧ bvf N 18 6 = a ∧ bvf N 12 6 = b ∧ bvf N 6 6 = c ∧ bit1 N 4 = d ∧ bit1 N 3 = e ∧ bvf N 0 3 = f := by
  have ha := a.isLt
  have hb := b.isLt
  have hc := c.isLt
  have hd := b2n_lt d
  have he := b2n_lt e
  have hf := f.isLt
  have hf : Fits [(3, f.toNat), (1, b2n e), (1, b2n d), (1, 0), (6, c.toNat), (6, b.toNat), (6, a.toNat), (8, op)] := ⟨hf, he, hd, by decide, hc, hb, ha, ho, trivial⟩
  have hP : N = packed [(3, f.toNat), (1, b2n e), (1, b2n d), (1, 0), (6, c.toNat), (6, b.toNat), (6, a.toNat), (8, op)] := by
    rw [hN, word6 _ _ _ _ _ _ _ _ _ _ _ _ _ (by omega)]; simp only [packed]; omega
  exact ⟨fld_at hP hf 7 rfl rfl, fld_at hP hf 3 rfl rfl, bvf_at hP hf 6 rfl rfl, bvf_at hP hf 5 rfl rfl, bvf_at hP hf 4 rfl rfl, bit1_at hP hf 2 rfl rfl, bit1_at hP hf 1 rfl rfl, bvf_at hP hf 0 rfl rfl⟩
/-- What the decoder finds in words of one layout. -/
theorem lay68 (F op N : Nat) (ho : op < 256) (hF : F = op * 2 ^ 24 + 0) (a : BitVec 6) (b : BitVec 6) (c : Bool) (d : Bool) (hN : N = (word F [(a.toNat, 12), (b.toNat, 6), (b2n c, 4), (b2n d, 3)]).toNat) :
    fld N 24 8 = op ∧ fld N 0 3 = 0 ∧ fld N 5 1 = 0 ∧ fld N 18 6 = 0 ∧ bvf N 12 6 = a ∧ bvf N 6 6 = b ∧ bit1 N 4 = c ∧ bit1 N 3 = d := by
  have ha := a.isLt
  have hb := b.isLt
  have hc := b2n_lt c
  have hd := b2n_lt d
  have hf : Fits [(3, 0), (1, b2n d), (1, b2n c), (1, 0), (6, b.toNat), (6, a.toNat), (6, 0), (8, op)] := ⟨by decide, hd, hc, by decide, hb, ha, by decide, ho, trivial⟩
  have hP : N = packed [(3, 0), (1, b2n d), (1, b2n c), (1, 0), (6, b.toNat), (6, a.toNat), (6, 0), (8, op)] := by
    rw [hN, word4 _ _ _ _ _ _ _ _ _ (by omega)]; simp only [packed]; omega
  exact ⟨fld_at hP hf 7 rfl rfl, fld_at hP hf 0 rfl rfl, fld_at hP hf 3 rfl rfl, fld_at hP hf 6 rfl rfl, bvf_at hP hf 5 rfl rfl, bvf_at hP hf 4 rfl rfl, bit1_at hP hf 2 rfl rfl, bit1_at hP hf 1 rfl rfl⟩
/-- What the decoder finds in words of one layout. -/
theorem lay69 (F op N : Nat) (ho : op < 256) (hF : F = op * 2 ^ 24 + 0) (a : BitVec 6) (b : BitVec 6) (c : Bool) (hN : N = (word F [(a.toNat, 18), (b.toNat, 12), (b2n c, 0)]).toNat) :
    fld N 24 8 = op ∧ fld N 1 11 = 0 ∧ bvf N 18 6 = a ∧ bvf N 12 6 = b ∧ bit1 N 0 = c := by
  have ha := a.isLt
  have hb := b.isLt
  have hc := b2n_lt c
  have hf : Fits [(1, b2n c), (11, 0), (6, b.toNat), (6, a.toNat), (8, op)] := ⟨hc, by decide, hb, ha, ho, trivial⟩
  have hP : N = packed [(1, b2n c), (11, 0), (6, b.toNat), (6, a.toNat), (8, op)] := by
    rw [hN, word3 _ _ _ _ _ _ _ (by omega)]; simp only [packed]; omega
  exact ⟨fld_at hP hf 4 rfl rfl, fld_at hP hf 1 rfl rfl, bvf_at hP hf 3 rfl rfl, bvf_at hP hf 2 rfl rfl, bit1_at hP hf 0 rfl rfl⟩
/-- What the decoder finds in words of one layout. -/
theorem lay70 (F op N : Nat) (ho : op < 256) (hF : F = op * 2 ^ 24 + 0) (a : BitVec 6) (b : BitVec 6) (c : Bool) (hN : N = (word F [(a.toNat, 18), (b.toNat, 6), (b2n c, 0)]).toNat) :
    fld N 24 8 = op ∧ fld N 1 5 = 0 ∧ fld N 12 6 = 0 ∧ bvf N 18 6 = a ∧ bvf N 6 6 = b ∧ bit1 N 0 = c := by
  have ha := a.isLt
  have hb := b.isLt
  have hc := b2n_lt c
  have hf : Fits [(1, b2n c), (5, 0), (6, b.toNat), (6, 0), (6, a.toNat), (8, op)] := ⟨hc, by decide, hb, by decide, ha, ho, trivial⟩
  have hP : N = packed [(1, b2n c), (5, 0), (6, b.toNat), (6, 0), (6, a.toNat), (8, op)] := by
    rw [hN, word3 _ _ _ _ _ _ _ (by omega)]; simp only [packed]; omega
  exact ⟨fld_at hP hf 5 rfl rfl, fld_at hP hf 1 rfl rfl, fld_at hP hf 3 rfl rfl, bvf_at hP hf 4 rfl rfl, bvf_at hP hf 2 rfl rfl, bit1_at hP hf 0 rfl rfl⟩
/-- What the decoder finds in words of one layout. -/
theorem lay71 (F op N : Nat) (ho : op < 256) (hF : F = op * 2 ^ 24 + 0) (a : BitVec 6) (b : BitVec 6) (c : Bool) (hN : N = (word F [(a.toNat, 12), (b.toNat, 6), (b2n c, 0)]).toNat) :
    fld N 24 8 = op ∧ fld N 1 5 = 0 ∧ fld N 18 6 = 0 ∧ bvf N 12 6 = a ∧ bvf N 6 6 = b ∧ bit1 N 0 = c := by
  have ha := a.isLt
  have hb := b.isLt
  have hc := b2n_lt c
  have hf : Fits [(1, b2n c), (5, 0), (6, b.toNat), (6, a.toNat), (6, 0), (8, op)] := ⟨hc, by decide, hb, ha, by decide, ho, trivial⟩
  have hP : N = packed [(1, b2n c), (5, 0), (6, b.toNat), (6, a.toNat), (6, 0), (8, op)] := by
    rw [hN, word3 _ _ _ _ _ _ _ (by omega)]; simp only [packed]; omega
  exact ⟨fld_at hP hf 5 rfl rfl, fld_at hP hf 1 rfl rfl, fld_at hP hf 4 rfl rfl, bvf_at hP hf 3 rfl rfl, bvf_at hP hf 2 rfl rfl, bit1_at hP hf 0 rfl rfl⟩
/-- What the decoder finds in words of one layout. -/
theorem lay72 (F op N : Nat) (ho : op < 256) (hF : F = op * 2 ^ 24 + 0) (a : Bool) (hN : N = (word F [(b2n a, 0)]).toNat) :
    fld N 24 8 = op ∧ fld N 1 23 = 0 ∧ bit1 N 0 = a := by
  have ha := b2n_lt a
  have hf : Fits [(1, b2n a), (23, 0), (8, op)] := ⟨ha, by decide, ho, trivial⟩
  have hP : N = packed [(1, b2n a), (23, 0), (8, op)] := by
    rw [hN, word1 _ _ _ (by omega)]; simp only [packed]; omega
  exact ⟨fld_at hP hf 2 rfl rfl, fld_at hP hf 1 rfl rfl, bit1_at hP hf 0 rfl rfl⟩
/-- What the decoder finds in words of one layout. -/
theorem lay73 (F op N : Nat) (ho : op < 256) (hF : F = op * 2 ^ 24 + 2) (a : BitVec 6) (b : Bool) (hN : N = (word F [(a.toNat, 12), (b2n b, 0)]).toNat) :
    fld N 24 8 = op ∧ fld N 1 11 = 1 ∧ fld N 18 6 = 0 ∧ (fld N 1 23 == 0) = false ∧ bvf N 12 6 = a ∧ bit1 N 0 = b := by
  have ha := a.isLt
  have hb := b2n_lt b
  have hf : Fits [(1, b2n b), (11, 1), (6, a.toNat), (6, 0), (8, op)] := ⟨hb, by decide, ha, by decide, ho, trivial⟩
  have hP : N = packed [(1, b2n b), (11, 1), (6, a.toNat), (6, 0), (8, op)] := by
    rw [hN, word2 _ _ _ _ _ (by omega)]; simp only [packed]; omega
  exact ⟨fld_at hP hf 4 rfl rfl, fld_at hP hf 1 rfl rfl, fld_at hP hf 3 rfl rfl, by rw [beq_eq_false_iff_ne, hP]; simp only [packed, fld]; omega, bvf_at hP hf 2 rfl rfl, bit1_at hP hf 0 rfl rfl⟩
/-- What the decoder finds in words of one layout. -/
theorem lay74 (F op N : Nat) (ho : op < 256) (hF : F = op * 2 ^ 24 + 0) (a : Bool) (b : BitVec 10) (hN : N = (word F [(b2n a, 10), (b.toNat, 0)]).toNat) :
    fld N 24 8 = op ∧ fld N 11 13 = 0 ∧ bit1 N 10 = a ∧ bvf N 0 10 = b := by
  have ha := b2n_lt a
  have hb := b.isLt
  have hf : Fits [(10, b.toNat), (1, b2n a), (13, 0), (8, op)] := ⟨hb, ha, by decide, ho, trivial⟩
  have hP : N = packed [(10, b.toNat), (1, b2n a), (13, 0), (8, op)] := by
    rw [hN, word2 _ _ _ _ _ (by omega)]; simp only [packed]; omega
  exact ⟨fld_at hP hf 3 rfl rfl, fld_at hP hf 2 rfl rfl, bit1_at hP hf 1 rfl rfl, bvf_at hP hf 0 rfl rfl⟩

/-! ### One lemma per constructor -/

theorem nop (w : BitVec 2) : Statement (.nop w) := by
  obtain ⟨N, hN⟩ : ∃ N, N = (word 0x00000000 [(w.toNat, 4)]).toNat := ⟨_, rfl⟩
  obtain ⟨h0, h1, h2, h3⟩ := lay0 _ 0x00 N (by decide) (by decide) w hN
  refine one rfl hN.symm h0 (by decide) ?_
  clear hN; unfold decodeNat; rw [(digits h0).1, (digits h0).2]
  show decode0 0 N 0 = _
  unfold decode0; simp only [h1, h2, h3, beq_self_eq_true, Bool.and_self, if_true]
theorem jmp (i : BitVec 18) : Statement (.jmp i) := by
  obtain ⟨N, hN⟩ : ∃ N, N = (word 0x013C0000 [(i.toNat, 0)]).toNat := ⟨_, rfl⟩
  obtain ⟨h0, h1, h2⟩ := lay1 _ 0x01 N (by decide) (by decide) i hN
  refine one rfl hN.symm h0 (by decide) ?_
  clear hN; unfold decodeNat; rw [(digits h0).1, (digits h0).2]
  show decode0 1 N 0 = _
  unfold decode0; simp only [h1, h2, beq_self_eq_true, Nat.reduceEqDiff, if_false, if_true]
theorem bra (n : Bool) (p : BitVec 4) (i : BitVec 18) : Statement (.bra n p i) := by
  obtain ⟨N, hN⟩ : ∃ N, N = (word 0x02000000 [(b2n n, 23), (p.toNat, 18), (i.toNat, 0)]).toNat := ⟨_, rfl⟩
  obtain ⟨h0, h1, h2, h3, h4⟩ := lay2 _ 0x02 N (by decide) (by decide) n p i hN
  refine one rfl hN.symm h0 (by decide) ?_
  clear hN; unfold decodeNat; rw [(digits h0).1, (digits h0).2]
  show decode0 2 N 0 = _
  unfold decode0; simp only [h1, h2, h3, h4, beq_self_eq_true, Nat.reduceEqDiff, if_false, if_true]
theorem brany (n : Bool) (p : BitVec 4) (i : BitVec 18) : Statement (.brany n p i) := by
  obtain ⟨N, hN⟩ : ∃ N, N = (word 0x03000000 [(b2n n, 23), (p.toNat, 18), (i.toNat, 0)]).toNat := ⟨_, rfl⟩
  obtain ⟨h0, h1, h2, h3, h4⟩ := lay2 _ 0x03 N (by decide) (by decide) n p i hN
  refine one rfl hN.symm h0 (by decide) ?_
  clear hN; unfold decodeNat; rw [(digits h0).1, (digits h0).2]
  show decode0 3 N 0 = _
  unfold decode0; simp only [h1, h2, h3, h4, beq_self_eq_true, Nat.reduceEqDiff, if_false, if_true]
theorem brall (n : Bool) (p : BitVec 4) (i : BitVec 18) : Statement (.brall n p i) := by
  obtain ⟨N, hN⟩ : ∃ N, N = (word 0x04000000 [(b2n n, 23), (p.toNat, 18), (i.toNat, 0)]).toNat := ⟨_, rfl⟩
  obtain ⟨h0, h1, h2, h3, h4⟩ := lay2 _ 0x04 N (by decide) (by decide) n p i hN
  refine one rfl hN.symm h0 (by decide) ?_
  clear hN; unfold decodeNat; rw [(digits h0).1, (digits h0).2]
  show decode0 4 N 0 = _
  unfold decode0; simp only [h1, h2, h3, h4, beq_self_eq_true, Nat.reduceEqDiff, if_false, if_true]
theorem brc (c : BitVec 6) (i : BitVec 18) : Statement (.brc c i) := by
  obtain ⟨N, hN⟩ : ∃ N, N = (word 0x05000000 [(c.toNat, 18), (i.toNat, 0)]).toNat := ⟨_, rfl⟩
  obtain ⟨h0, h1, h2⟩ := lay3 _ 0x05 N (by decide) (by decide) c i hN
  refine one rfl hN.symm h0 (by decide) ?_
  clear hN; unfold decodeNat; rw [(digits h0).1, (digits h0).2]
  show decode0 5 N 0 = _
  unfold decode0; simp only [h1, h2, Nat.reduceEqDiff, if_false, if_true]
theorem jpt (i : BitVec 18) : Statement (.jpt i) := by
  obtain ⟨N, hN⟩ : ∃ N, N = (word 0x063C0000 [(i.toNat, 0)]).toNat := ⟨_, rfl⟩
  obtain ⟨h0, h1, h2⟩ := lay1 _ 0x06 N (by decide) (by decide) i hN
  refine one rfl hN.symm h0 (by decide) ?_
  clear hN; unfold decodeNat; rw [(digits h0).1, (digits h0).2]
  show decode0 6 N 0 = _
  unfold decode0; simp only [h1, h2, beq_self_eq_true, Nat.reduceEqDiff, if_false, if_true]
theorem call (n : Bool) (p : BitVec 4) (i : BitVec 18) : Statement (.call n p i) := by
  obtain ⟨N, hN⟩ : ∃ N, N = (word 0x07000000 [(b2n n, 23), (p.toNat, 18), (i.toNat, 0)]).toNat := ⟨_, rfl⟩
  obtain ⟨h0, h1, h2, h3, h4⟩ := lay2 _ 0x07 N (by decide) (by decide) n p i hN
  refine one rfl hN.symm h0 (by decide) ?_
  clear hN; unfold decodeNat; rw [(digits h0).1, (digits h0).2]
  show decode0 7 N 0 = _
  unfold decode0; simp only [h1, h2, h3, h4, beq_self_eq_true, Nat.reduceEqDiff, if_false, if_true]
theorem calli (a : BitVec 6) (w : BitVec 2) : Statement (.calli a w) := by
  obtain ⟨N, hN⟩ : ∃ N, N = (word 0x08000008 [(a.toNat, 12), (w.toNat, 4)]).toNat := ⟨_, rfl⟩
  obtain ⟨h0, h1, h2, h3, h4, h5⟩ := lay4 _ 0x08 N (by decide) (by decide) a w hN
  refine one rfl hN.symm h0 (by decide) ?_
  clear hN; unfold decodeNat; rw [(digits h0).1, (digits h0).2]
  show decode0 8 N 0 = _
  unfold decode0; simp only [h1, h2, h3, h4, h5, beq_self_eq_true, Bool.and_self, Nat.reduceEqDiff, if_false, if_true]
theorem ret (w : BitVec 2) : Statement (.ret w) := by
  obtain ⟨N, hN⟩ : ∃ N, N = (word 0x09000000 [(w.toNat, 4)]).toNat := ⟨_, rfl⟩
  obtain ⟨h0, h1, h2, h3⟩ := lay0 _ 0x09 N (by decide) (by decide) w hN
  refine one rfl hN.symm h0 (by decide) ?_
  clear hN; unfold decodeNat; rw [(digits h0).1, (digits h0).2]
  show decode0 9 N 0 = _
  unfold decode0; simp only [h1, h2, h3, beq_self_eq_true, Bool.and_self, Nat.reduceEqDiff, if_false, if_true]
theorem loop (d : BitVec 6) (a : BitVec 6) (i : BitVec 11) : Statement (.loop d a i) := by
  obtain ⟨N, hN⟩ : ∃ N, N = (word 0x0A000800 [(d.toNat, 18), (a.toNat, 12), (i.toNat, 0)]).toNat := ⟨_, rfl⟩
  obtain ⟨h0, h1, h2, h3, h4⟩ := lay5 _ 0x0A N (by decide) (by decide) d a i hN
  refine one rfl hN.symm h0 (by decide) ?_
  clear hN; unfold decodeNat; rw [(digits h0).1, (digits h0).2]
  show decode0 10 N 0 = _
  unfold decode0; simp only [h1, h2, h3, h4, beq_self_eq_true, Nat.reduceEqDiff, if_false, if_true]
theorem loopk (c : BitVec 2) (l : BitVec 8) (n : BitVec 10) : Statement (.loopk c l n) := by
  obtain ⟨N, hN⟩ : ∃ N, N = (word 0x0B000000 [(c.toNat, 18), (l.toNat, 10), (n.toNat, 0)]).toNat := ⟨_, rfl⟩
  obtain ⟨h0, h1, h2, h3, h4⟩ := lay6 _ 0x0B N (by decide) (by decide) c l n hN
  refine one rfl hN.symm h0 (by decide) ?_
  clear hN; unfold decodeNat; rw [(digits h0).1, (digits h0).2]
  show decode0 11 N 0 = _
  unfold decode0; simp only [h1, h2, h3, h4, beq_self_eq_true, Nat.reduceEqDiff, if_false, if_true]
theorem leave (c : BitVec 2) : Statement (.leave c) := by
  obtain ⟨N, hN⟩ : ∃ N, N = (word 0x0C000000 [(c.toNat, 18)]).toNat := ⟨_, rfl⟩
  obtain ⟨h0, h1, h2, h3⟩ := lay7 _ 0x0C N (by decide) (by decide) c hN
  refine one rfl hN.symm h0 (by decide) ?_
  clear hN; unfold decodeNat; rw [(digits h0).1, (digits h0).2]
  show decode0 12 N 0 = _
  unfold decode0; simp only [h1, h2, h3, beq_self_eq_true, Bool.and_self, Nat.reduceEqDiff, if_false, if_true]
theorem exit (w : BitVec 2) : Statement (.exit w) := by
  obtain ⟨N, hN⟩ : ∃ N, N = (word 0x0D000000 [(w.toNat, 4)]).toNat := ⟨_, rfl⟩
  obtain ⟨h0, h1, h2, h3⟩ := lay0 _ 0x0D N (by decide) (by decide) w hN
  refine one rfl hN.symm h0 (by decide) ?_
  clear hN; unfold decodeNat; rw [(digits h0).1, (digits h0).2]
  show decode0 13 N 0 = _
  unfold decode0; simp only [h1, h2, h3, beq_self_eq_true, Bool.and_self, Nat.reduceEqDiff, if_false, if_true]
theorem yield (w : BitVec 2) : Statement (.yield w) := by
  obtain ⟨N, hN⟩ : ∃ N, N = (word 0x0E000000 [(w.toNat, 4)]).toNat := ⟨_, rfl⟩
  obtain ⟨h0, h1, h2, h3⟩ := lay0 _ 0x0E N (by decide) (by decide) w hN
  refine one rfl hN.symm h0 (by decide) ?_
  clear hN; unfold decodeNat; rw [(digits h0).1, (digits h0).2]
  show decode0 14 N 0 = _
  unfold decode0; simp only [h1, h2, h3, beq_self_eq_true, Bool.and_self, Nat.reduceEqDiff, if_false, if_true]
theorem bkpt (i : BitVec 11) : Statement (.bkpt i) := by
  obtain ⟨N, hN⟩ : ∃ N, N = (word 0x0F000000 [(i.toNat, 0)]).toNat := ⟨_, rfl⟩
  obtain ⟨h0, h1, h2⟩ := lay8 _ 0x0F N (by decide) (by decide) i hN
  refine one rfl hN.symm h0 (by decide) ?_
  clear hN; unfold decodeNat; rw [(digits h0).1, (digits h0).2]
  show decode0 15 N 0 = _
  unfold decode0; simp only [h1, h2, beq_self_eq_true, Nat.reduceEqDiff, if_false, if_true]
theorem trap (i : BitVec 11) : Statement (.trap i) := by
  obtain ⟨N, hN⟩ : ∃ N, N = (word 0x10000000 [(i.toNat, 0)]).toNat := ⟨_, rfl⟩
  obtain ⟨h0, h1, h2⟩ := lay8 _ 0x10 N (by decide) (by decide) i hN
  refine one rfl hN.symm h0 (by decide) ?_
  clear hN; unfold decodeNat; rw [(digits h0).1, (digits h0).2]
  show decode1 0 N 0 = _
  unfold decode1; simp only [h1, h2, beq_self_eq_true, if_true]
theorem trapret (w : BitVec 2) : Statement (.trapret w) := by
  obtain ⟨N, hN⟩ : ∃ N, N = (word 0x11000000 [(w.toNat, 4)]).toNat := ⟨_, rfl⟩
  obtain ⟨h0, h1, h2, h3⟩ := lay0 _ 0x11 N (by decide) (by decide) w hN
  refine one rfl hN.symm h0 (by decide) ?_
  clear hN; unfold decodeNat; rw [(digits h0).1, (digits h0).2]
  show decode1 1 N 0 = _
  unfold decode1; simp only [h1, h2, h3, beq_self_eq_true, Bool.and_self, Nat.reduceEqDiff, if_false, if_true]
theorem xrepl (a : BitVec 6) (w : BitVec 2) (ux : Bool × Bool) : Statement (.xrepl a w ux) := by
  obtain ⟨u, x⟩ := ux
  obtain ⟨N, hN⟩ : ∃ N, N = (word 0x12000000 [(a.toNat, 12), (w.toNat, 4), (b2n u, 3), (b2n x, 2)]).toNat := ⟨_, rfl⟩
  obtain ⟨h0, h1, h2, h3, h4, h5, h6, h7⟩ := lay9 _ 0x12 N (by decide) (by decide) a w u x hN
  refine one rfl hN.symm h0 (by decide) ?_
  clear hN; unfold decodeNat; rw [(digits h0).1, (digits h0).2]
  show decode1 2 N 0 = _
  unfold decode1; simp only [h1, h2, h3, h4, h5, h6, h7, beq_self_eq_true, Bool.and_self, Nat.reduceEqDiff, if_false, if_true]
theorem mode (a : BitVec 6) (w : BitVec 2) : Statement (.mode a w) := by
  obtain ⟨N, hN⟩ : ∃ N, N = (word 0x13000008 [(a.toNat, 12), (w.toNat, 4)]).toNat := ⟨_, rfl⟩
  obtain ⟨h0, h1, h2, h3, h4, h5⟩ := lay4 _ 0x13 N (by decide) (by decide) a w hN
  refine one rfl hN.symm h0 (by decide) ?_
  clear hN; unfold decodeNat; rw [(digits h0).1, (digits h0).2]
  show decode1 3 N 0 = _
  unfold decode1; simp only [h1, h2, h3, h4, h5, beq_self_eq_true, Bool.and_self, Nat.reduceEqDiff, if_false, if_true]
theorem modef (d : BitVec 6) (i : BitVec 11) : Statement (.modef d i) := by
  obtain ⟨N, hN⟩ : ∃ N, N = (word 0x14000000 [(d.toNat, 18), (i.toNat, 0)]).toNat := ⟨_, rfl⟩
  obtain ⟨h0, h1, h2, h3⟩ := lay10 _ 0x14 N (by decide) (by decide) d i hN
  refine one rfl hN.symm h0 (by decide) ?_
  clear hN; unfold decodeNat; rw [(digits h0).1, (digits h0).2]
  show decode1 4 N 0 = _
  unfold decode1; simp only [h1, h2, h3, beq_self_eq_true, Nat.reduceEqDiff, if_false, if_true]
theorem moderd (d : BitVec 6) (w : BitVec 2) : Statement (.moderd d w) := by
  obtain ⟨N, hN⟩ : ∃ N, N = (word 0x15000008 [(d.toNat, 18), (w.toNat, 4)]).toNat := ⟨_, rfl⟩
  obtain ⟨h0, h1, h2, h3, h4⟩ := lay11 _ 0x15 N (by decide) (by decide) d w hN
  refine one rfl hN.symm h0 (by decide) ?_
  clear hN; unfold decodeNat; rw [(digits h0).1, (digits h0).2]
  show decode1 5 N 0 = _
  unfold decode1; simp only [h1, h2, h3, h4, beq_self_eq_true, Bool.and_self, Nat.reduceEqDiff, if_false, if_true]
theorem exmsv (d : BitVec 6) (w : BitVec 2) : Statement (.exmsv d w) := by
  obtain ⟨N, hN⟩ : ∃ N, N = (word 0x16000008 [(d.toNat, 18), (w.toNat, 4)]).toNat := ⟨_, rfl⟩
  obtain ⟨h0, h1, h2, h3, h4⟩ := lay11 _ 0x16 N (by decide) (by decide) d w hN
  refine one rfl hN.symm h0 (by decide) ?_
  clear hN; unfold decodeNat; rw [(digits h0).1, (digits h0).2]
  show decode1 6 N 0 = _
  unfold decode1; simp only [h1, h2, h3, h4, beq_self_eq_true, Bool.and_self, Nat.reduceEqDiff, if_false, if_true]
theorem exmld (a : BitVec 6) (w : BitVec 2) : Statement (.exmld a w) := by
  obtain ⟨N, hN⟩ : ∃ N, N = (word 0x17000008 [(a.toNat, 12), (w.toNat, 4)]).toNat := ⟨_, rfl⟩
  obtain ⟨h0, h1, h2, h3, h4, h5⟩ := lay4 _ 0x17 N (by decide) (by decide) a w hN
  refine one rfl hN.symm h0 (by decide) ?_
  clear hN; unfold decodeNat; rw [(digits h0).1, (digits h0).2]
  show decode1 7 N 0 = _
  unfold decode1; simp only [h1, h2, h3, h4, h5, beq_self_eq_true, Bool.and_self, Nat.reduceEqDiff, if_false, if_true]
theorem exmcmb (a : BitVec 6) (f : BitVec 3) : Statement (.exmcmb a f) := by
  obtain ⟨N, hN⟩ : ∃ N, N = (word 0x18000000 [(a.toNat, 12), (f.toNat, 0)]).toNat := ⟨_, rfl⟩
  obtain ⟨h0, h1, h2, h3, h4⟩ := lay12 _ 0x18 N (by decide) (by decide) a f hN
  refine one rfl hN.symm h0 (by decide) ?_
  clear hN; unfold decodeNat; rw [(digits h0).1, (digits h0).2]
  show decode1 8 N 0 = _
  unfold decode1; simp only [h1, h2, h3, h4, beq_self_eq_true, Bool.and_self, Nat.reduceEqDiff, if_false, if_true]
theorem exmp (a : BitVec 6) (b : BitVec 6) (w : BitVec 2) : Statement (.exmp a b w) := by
  obtain ⟨N, hN⟩ : ∃ N, N = (word 0x19000000 [(a.toNat, 12), (b.toNat, 6), (w.toNat, 4)]).toNat := ⟨_, rfl⟩
  obtain ⟨h0, h1, h2, h3, h4, h5⟩ := lay13 _ 0x19 N (by decide) (by decide) a b w hN
  refine one rfl hN.symm h0 (by decide) ?_
  clear hN; unfold decodeNat; rw [(digits h0).1, (digits h0).2]
  show decode1 9 N 0 = _
  unfold decode1; simp only [h1, h2, h3, h4, h5, beq_self_eq_true, Bool.and_self, Nat.reduceEqDiff, if_false, if_true]
theorem idrd (d : BitVec 6) (u : Bool) (i : BitVec 11) : Statement (.idrd d u i) := by
  obtain ⟨N, hN⟩ : ∃ N, N = (word 0x1A000000 [(d.toNat, 18), (b2n u, 11), (i.toNat, 0)]).toNat := ⟨_, rfl⟩
  obtain ⟨h0, h1, h2, h3, h4⟩ := lay14 _ 0x1A N (by decide) (by decide) d u i hN
  refine one rfl hN.symm h0 (by decide) ?_
  clear hN; unfold decodeNat; rw [(digits h0).1, (digits h0).2]
  show decode1 10 N 0 = _
  unfold decode1; simp only [h1, h2, h3, h4, beq_self_eq_true, Nat.reduceEqDiff, if_false, if_true]
theorem sysrd (d : BitVec 6) (n : BitVec 12) : Statement (.sysrd d n) := by
  obtain ⟨N, hN⟩ : ∃ N, N = (word 0x1B000000 [(d.toNat, 18), (n.toNat, 0)]).toNat := ⟨_, rfl⟩
  obtain ⟨h0, h1, h2, h3⟩ := lay15 _ 0x1B N (by decide) (by decide) d n hN
  refine one rfl hN.symm h0 (by decide) ?_
  clear hN; unfold decodeNat; rw [(digits h0).1, (digits h0).2]
  show decode1 11 N 0 = _
  unfold decode1; simp only [h1, h2, h3, beq_self_eq_true, Nat.reduceEqDiff, if_false, if_true]
theorem syswr (d : BitVec 6) (n : BitVec 12) : Statement (.syswr d n) := by
  obtain ⟨N, hN⟩ : ∃ N, N = (word 0x1C000000 [(d.toNat, 18), (n.toNat, 0)]).toNat := ⟨_, rfl⟩
  obtain ⟨h0, h1, h2, h3⟩ := lay15 _ 0x1C N (by decide) (by decide) d n hN
  refine one rfl hN.symm h0 (by decide) ?_
  clear hN; unfold decodeNat; rw [(digits h0).1, (digits h0).2]
  show decode1 12 N 0 = _
  unfold decode1; simp only [h1, h2, h3, beq_self_eq_true, Nat.reduceEqDiff, if_false, if_true]
theorem reln (a : BitVec 6) (b : BitVec 6) (w : BitVec 2) : Statement (.reln a b w) := by
  obtain ⟨N, hN⟩ : ∃ N, N = (word 0x1D000000 [(a.toNat, 12), (b.toNat, 6), (w.toNat, 4)]).toNat := ⟨_, rfl⟩
  obtain ⟨h0, h1, h2, h3, h4, h5⟩ := lay13 _ 0x1D N (by decide) (by decide) a b w hN
  refine one rfl hN.symm h0 (by decide) ?_
  clear hN; unfold decodeNat; rw [(digits h0).1, (digits h0).2]
  show decode1 13 N 0 = _
  unfold decode1; simp only [h1, h2, h3, h4, h5, beq_self_eq_true, Bool.and_self, Nat.reduceEqDiff, if_false, if_true]
theorem idemb (w : BitVec 2) : Statement (.idemb w) := by
  obtain ⟨N, hN⟩ : ∃ N, N = (word 0x1E000000 [(w.toNat, 4)]).toNat := ⟨_, rfl⟩
  obtain ⟨h0, h1, h2, h3⟩ := lay0 _ 0x1E N (by decide) (by decide) w hN
  refine one rfl hN.symm h0 (by decide) ?_
  clear hN; unfold decodeNat; rw [(digits h0).1, (digits h0).2]
  show decode1 14 N 0 = _
  unfold decode1; simp only [h1, h2, h3, beq_self_eq_true, Bool.and_self, Nat.reduceEqDiff, if_false, if_true]
theorem ideme (w : BitVec 2) : Statement (.ideme w) := by
  obtain ⟨N, hN⟩ : ∃ N, N = (word 0x1F000000 [(w.toNat, 4)]).toNat := ⟨_, rfl⟩
  obtain ⟨h0, h1, h2, h3⟩ := lay0 _ 0x1F N (by decide) (by decide) w hN
  refine one rfl hN.symm h0 (by decide) ?_
  clear hN; unfold decodeNat; rw [(digits h0).1, (digits h0).2]
  show decode1 15 N 0 = _
  unfold decode1; simp only [h1, h2, h3, beq_self_eq_true, Bool.and_self, Nat.reduceEqDiff, if_false, if_true]
theorem iadd (d : BitVec 6) (a : BitVec 6) (b : BitVec 6) (w : BitVec 2) (u : Bool) (x : Bool) (y : Bool) : Statement (.iadd d a b w u x y) := by
  obtain ⟨N, hN⟩ : ∃ N, N = (word 0x20000000 [(d.toNat, 18), (a.toNat, 12), (b.toNat, 6), (w.toNat, 4), (b2n u, 3), (b2n x, 2), (b2n y, 1)]).toNat := ⟨_, rfl⟩
  obtain ⟨h0, h1, h2, h3, h4, h5, h6, h7, h8⟩ := lay16 _ 0x20 N (by decide) (by decide) d a b w u x y hN
  refine one rfl hN.symm h0 (by decide) ?_
  clear hN; unfold decodeNat; rw [(digits h0).1, (digits h0).2]
  show decode2 0 N 0 = _
  unfold decode2; simp only [h1, h2, h3, h4, h5, h6, h7, h8, beq_self_eq_true, if_true]
theorem isub (d : BitVec 6) (a : BitVec 6) (b : BitVec 6) (w : BitVec 2) (u : Bool) (x : Bool) (y : Bool) : Statement (.isub d a b w u x y) := by
  obtain ⟨N, hN⟩ : ∃ N, N = (word 0x21000000 [(d.toNat, 18), (a.toNat, 12), (b.toNat, 6), (w.toNat, 4), (b2n u, 3), (b2n x, 2), (b2n y, 1)]).toNat := ⟨_, rfl⟩
  obtain ⟨h0, h1, h2, h3, h4, h5, h6, h7, h8⟩ := lay16 _ 0x21 N (by decide) (by decide) d a b w u x y hN
  refine one rfl hN.symm h0 (by decide) ?_
  clear hN; unfold decodeNat; rw [(digits h0).1, (digits h0).2]
  show decode2 1 N 0 = _
  unfold decode2; simp only [h1, h2, h3, h4, h5, h6, h7, h8, beq_self_eq_true, Nat.reduceEqDiff, if_false, if_true]
theorem imul (d : BitVec 6) (a : BitVec 6) (b : BitVec 6) (w : BitVec 2) (u : Bool) (x : Bool) (y : Bool) : Statement (.imul d a b w u x y) := by
  obtain ⟨N, hN⟩ : ∃ N, N = (word 0x22000000 [(d.toNat, 18), (a.toNat, 12), (b.toNat, 6), (w.toNat, 4), (b2n u, 3), (b2n x, 2), (b2n y, 1)]).toNat := ⟨_, rfl⟩
  obtain ⟨h0, h1, h2, h3, h4, h5, h6, h7, h8⟩ := lay16 _ 0x22 N (by decide) (by decide) d a b w u x y hN
  refine one rfl hN.symm h0 (by decide) ?_
  clear hN; unfold decodeNat; rw [(digits h0).1, (digits h0).2]
  show decode2 2 N 0 = _
  unfold decode2; simp only [h1, h2, h3, h4, h5, h6, h7, h8, beq_self_eq_true, Nat.reduceEqDiff, if_false, if_true]
theorem imulh (d : BitVec 6) (a : BitVec 6) (b : BitVec 6) (w : BitVec 2) (u : Bool) (x : Bool) (y : Bool) : Statement (.imulh d a b w u x y) := by
  obtain ⟨N, hN⟩ : ∃ N, N = (word 0x23000000 [(d.toNat, 18), (a.toNat, 12), (b.toNat, 6), (w.toNat, 4), (b2n u, 3), (b2n x, 2), (b2n y, 1)]).toNat := ⟨_, rfl⟩
  obtain ⟨h0, h1, h2, h3, h4, h5, h6, h7, h8⟩ := lay16 _ 0x23 N (by decide) (by decide) d a b w u x y hN
  refine one rfl hN.symm h0 (by decide) ?_
  clear hN; unfold decodeNat; rw [(digits h0).1, (digits h0).2]
  show decode2 3 N 0 = _
  unfold decode2; simp only [h1, h2, h3, h4, h5, h6, h7, h8, beq_self_eq_true, Nat.reduceEqDiff, if_false, if_true]
theorem imulhu (d : BitVec 6) (a : BitVec 6) (b : BitVec 6) (w : BitVec 2) (u : Bool) (x : Bool) (y : Bool) : Statement (.imulhu d a b w u x y) := by
  obtain ⟨N, hN⟩ : ∃ N, N = (word 0x24000000 [(d.toNat, 18), (a.toNat, 12), (b.toNat, 6), (w.toNat, 4), (b2n u, 3), (b2n x, 2), (b2n y, 1)]).toNat := ⟨_, rfl⟩
  obtain ⟨h0, h1, h2, h3, h4, h5, h6, h7, h8⟩ := lay16 _ 0x24 N (by decide) (by decide) d a b w u x y hN
  refine one rfl hN.symm h0 (by decide) ?_
  clear hN; unfold decodeNat; rw [(digits h0).1, (digits h0).2]
  show decode2 4 N 0 = _
  unfold decode2; simp only [h1, h2, h3, h4, h5, h6, h7, h8, beq_self_eq_true, Nat.reduceEqDiff, if_false, if_true]
theorem imad (d : BitVec 6) (a : BitVec 6) (b : BitVec 6) (w : BitVec 2) (u : Bool) (x : Bool) (y : Bool) (z : Bool) : Statement (.imad d a b w u x y z) := by
  obtain ⟨N, hN⟩ : ∃ N, N = (word 0x25000000 [(d.toNat, 18), (a.toNat, 12), (b.toNat, 6), (w.toNat, 4), (b2n u, 3), (b2n x, 2), (b2n y, 1), (b2n z, 0)]).toNat := ⟨_, rfl⟩
  obtain ⟨h0, h1, h2, h3, h4, h5, h6, h7, h8⟩ := lay17 _ 0x25 N (by decide) (by decide) d a b w u x y z hN
  refine one rfl hN.symm h0 (by decide) ?_
  clear hN; unfold decodeNat; rw [(digits h0).1, (digits h0).2]
  show decode2 5 N 0 = _
  unfold decode2; simp only [h1, h2, h3, h4, h5, h6, h7, h8, Nat.reduceEqDiff, if_false, if_true]
theorem idiv (d : BitVec 6) (a : BitVec 6) (b : BitVec 6) (w : BitVec 2) (u : Bool) (x : Bool) (y : Bool) : Statement (.idiv d a b w u x y) := by
  obtain ⟨N, hN⟩ : ∃ N, N = (word 0x26000000 [(d.toNat, 18), (a.toNat, 12), (b.toNat, 6), (w.toNat, 4), (b2n u, 3), (b2n x, 2), (b2n y, 1)]).toNat := ⟨_, rfl⟩
  obtain ⟨h0, h1, h2, h3, h4, h5, h6, h7, h8⟩ := lay16 _ 0x26 N (by decide) (by decide) d a b w u x y hN
  refine one rfl hN.symm h0 (by decide) ?_
  clear hN; unfold decodeNat; rw [(digits h0).1, (digits h0).2]
  show decode2 6 N 0 = _
  unfold decode2; simp only [h1, h2, h3, h4, h5, h6, h7, h8, beq_self_eq_true, Nat.reduceEqDiff, if_false, if_true]
theorem idivu (d : BitVec 6) (a : BitVec 6) (b : BitVec 6) (w : BitVec 2) (u : Bool) (x : Bool) (y : Bool) : Statement (.idivu d a b w u x y) := by
  obtain ⟨N, hN⟩ : ∃ N, N = (word 0x27000000 [(d.toNat, 18), (a.toNat, 12), (b.toNat, 6), (w.toNat, 4), (b2n u, 3), (b2n x, 2), (b2n y, 1)]).toNat := ⟨_, rfl⟩
  obtain ⟨h0, h1, h2, h3, h4, h5, h6, h7, h8⟩ := lay16 _ 0x27 N (by decide) (by decide) d a b w u x y hN
  refine one rfl hN.symm h0 (by decide) ?_
  clear hN; unfold decodeNat; rw [(digits h0).1, (digits h0).2]
  show decode2 7 N 0 = _
  unfold decode2; simp only [h1, h2, h3, h4, h5, h6, h7, h8, beq_self_eq_true, Nat.reduceEqDiff, if_false, if_true]
theorem irem (d : BitVec 6) (a : BitVec 6) (b : BitVec 6) (w : BitVec 2) (u : Bool) (x : Bool) (y : Bool) : Statement (.irem d a b w u x y) := by
  obtain ⟨N, hN⟩ : ∃ N, N = (word 0x28000000 [(d.toNat, 18), (a.toNat, 12), (b.toNat, 6), (w.toNat, 4), (b2n u, 3), (b2n x, 2), (b2n y, 1)]).toNat := ⟨_, rfl⟩
  obtain ⟨h0, h1, h2, h3, h4, h5, h6, h7, h8⟩ := lay16 _ 0x28 N (by decide) (by decide) d a b w u x y hN
  refine one rfl hN.symm h0 (by decide) ?_
  clear hN; unfold decodeNat; rw [(digits h0).1, (digits h0).2]
  show decode2 8 N 0 = _
  unfold decode2; simp only [h1, h2, h3, h4, h5, h6, h7, h8, beq_self_eq_true, Nat.reduceEqDiff, if_false, if_true]
theorem iremu (d : BitVec 6) (a : BitVec 6) (b : BitVec 6) (w : BitVec 2) (u : Bool) (x : Bool) (y : Bool) : Statement (.iremu d a b w u x y) := by
  obtain ⟨N, hN⟩ : ∃ N, N = (word 0x29000000 [(d.toNat, 18), (a.toNat, 12), (b.toNat, 6), (w.toNat, 4), (b2n u, 3), (b2n x, 2), (b2n y, 1)]).toNat := ⟨_, rfl⟩
  obtain ⟨h0, h1, h2, h3, h4, h5, h6, h7, h8⟩ := lay16 _ 0x29 N (by decide) (by decide) d a b w u x y hN
  refine one rfl hN.symm h0 (by decide) ?_
  clear hN; unfold decodeNat; rw [(digits h0).1, (digits h0).2]
  show decode2 9 N 0 = _
  unfold decode2; simp only [h1, h2, h3, h4, h5, h6, h7, h8, beq_self_eq_true, Nat.reduceEqDiff, if_false, if_true]
theorem imin (d : BitVec 6) (a : BitVec 6) (b : BitVec 6) (w : BitVec 2) (u : Bool) (x : Bool) (y : Bool) : Statement (.imin d a b w u x y) := by
  obtain ⟨N, hN⟩ : ∃ N, N = (word 0x2A000000 [(d.toNat, 18), (a.toNat, 12), (b.toNat, 6), (w.toNat, 4), (b2n u, 3), (b2n x, 2), (b2n y, 1)]).toNat := ⟨_, rfl⟩
  obtain ⟨h0, h1, h2, h3, h4, h5, h6, h7, h8⟩ := lay16 _ 0x2A N (by decide) (by decide) d a b w u x y hN
  refine one rfl hN.symm h0 (by decide) ?_
  clear hN; unfold decodeNat; rw [(digits h0).1, (digits h0).2]
  show decode2 10 N 0 = _
  unfold decode2; simp only [h1, h2, h3, h4, h5, h6, h7, h8, beq_self_eq_true, Nat.reduceEqDiff, if_false, if_true]
theorem imax (d : BitVec 6) (a : BitVec 6) (b : BitVec 6) (w : BitVec 2) (u : Bool) (x : Bool) (y : Bool) : Statement (.imax d a b w u x y) := by
  obtain ⟨N, hN⟩ : ∃ N, N = (word 0x2B000000 [(d.toNat, 18), (a.toNat, 12), (b.toNat, 6), (w.toNat, 4), (b2n u, 3), (b2n x, 2), (b2n y, 1)]).toNat := ⟨_, rfl⟩
  obtain ⟨h0, h1, h2, h3, h4, h5, h6, h7, h8⟩ := lay16 _ 0x2B N (by decide) (by decide) d a b w u x y hN
  refine one rfl hN.symm h0 (by decide) ?_
  clear hN; unfold decodeNat; rw [(digits h0).1, (digits h0).2]
  show decode2 11 N 0 = _
  unfold decode2; simp only [h1, h2, h3, h4, h5, h6, h7, h8, beq_self_eq_true, Nat.reduceEqDiff, if_false, if_true]
theorem iminu (d : BitVec 6) (a : BitVec 6) (b : BitVec 6) (w : BitVec 2) (u : Bool) (x : Bool) (y : Bool) : Statement (.iminu d a b w u x y) := by
  obtain ⟨N, hN⟩ : ∃ N, N = (word 0x2C000000 [(d.toNat, 18), (a.toNat, 12), (b.toNat, 6), (w.toNat, 4), (b2n u, 3), (b2n x, 2), (b2n y, 1)]).toNat := ⟨_, rfl⟩
  obtain ⟨h0, h1, h2, h3, h4, h5, h6, h7, h8⟩ := lay16 _ 0x2C N (by decide) (by decide) d a b w u x y hN
  refine one rfl hN.symm h0 (by decide) ?_
  clear hN; unfold decodeNat; rw [(digits h0).1, (digits h0).2]
  show decode2 12 N 0 = _
  unfold decode2; simp only [h1, h2, h3, h4, h5, h6, h7, h8, beq_self_eq_true, Nat.reduceEqDiff, if_false, if_true]
theorem imaxu (d : BitVec 6) (a : BitVec 6) (b : BitVec 6) (w : BitVec 2) (u : Bool) (x : Bool) (y : Bool) : Statement (.imaxu d a b w u x y) := by
  obtain ⟨N, hN⟩ : ∃ N, N = (word 0x2D000000 [(d.toNat, 18), (a.toNat, 12), (b.toNat, 6), (w.toNat, 4), (b2n u, 3), (b2n x, 2), (b2n y, 1)]).toNat := ⟨_, rfl⟩
  obtain ⟨h0, h1, h2, h3, h4, h5, h6, h7, h8⟩ := lay16 _ 0x2D N (by decide) (by decide) d a b w u x y hN
  refine one rfl hN.symm h0 (by decide) ?_
  clear hN; unfold decodeNat; rw [(digits h0).1, (digits h0).2]
  show decode2 13 N 0 = _
  unfold decode2; simp only [h1, h2, h3, h4, h5, h6, h7, h8, beq_self_eq_true, Nat.reduceEqDiff, if_false, if_true]
theorem iabs (d : BitVec 6) (a : BitVec 6) (w : BitVec 2) (u : Bool) (x : Bool) : Statement (.iabs d a w u x) := by
  obtain ⟨N, hN⟩ : ∃ N, N = (word 0x2E000000 [(d.toNat, 18), (a.toNat, 12), (w.toNat, 4), (b2n u, 3), (b2n x, 2)]).toNat := ⟨_, rfl⟩
  obtain ⟨h0, h1, h2, h3, h4, h5, h6, h7⟩ := lay18 _ 0x2E N (by decide) (by decide) d a w u x hN
  refine one rfl hN.symm h0 (by decide) ?_
  clear hN; unfold decodeNat; rw [(digits h0).1, (digits h0).2]
  show decode2 14 N 0 = _
  unfold decode2; simp only [h1, h2, h3, h4, h5, h6, h7, beq_self_eq_true, Bool.and_self, Nat.reduceEqDiff, if_false, if_true]
theorem ineg (d : BitVec 6) (a : BitVec 6) (w : BitVec 2) (u : Bool) (x : Bool) : Statement (.ineg d a w u x) := by
  obtain ⟨N, hN⟩ : ∃ N, N = (word 0x2F000000 [(d.toNat, 18), (a.toNat, 12), (w.toNat, 4), (b2n u, 3), (b2n x, 2)]).toNat := ⟨_, rfl⟩
  obtain ⟨h0, h1, h2, h3, h4, h5, h6, h7⟩ := lay18 _ 0x2F N (by decide) (by decide) d a w u x hN
  refine one rfl hN.symm h0 (by decide) ?_
  clear hN; unfold decodeNat; rw [(digits h0).1, (digits h0).2]
  show decode2 15 N 0 = _
  unfold decode2; simp only [h1, h2, h3, h4, h5, h6, h7, beq_self_eq_true, Bool.and_self, Nat.reduceEqDiff, if_false, if_true]
theorem and (d : BitVec 6) (a : BitVec 6) (b : BitVec 6) (w : BitVec 2) (u : Bool) (x : Bool) (y : Bool) : Statement (.and d a b w u x y) := by
  obtain ⟨N, hN⟩ : ∃ N, N = (word 0x30000000 [(d.toNat, 18), (a.toNat, 12), (b.toNat, 6), (w.toNat, 4), (b2n u, 3), (b2n x, 2), (b2n y, 1)]).toNat := ⟨_, rfl⟩
  obtain ⟨h0, h1, h2, h3, h4, h5, h6, h7, h8⟩ := lay16 _ 0x30 N (by decide) (by decide) d a b w u x y hN
  refine one rfl hN.symm h0 (by decide) ?_
  clear hN; unfold decodeNat; rw [(digits h0).1, (digits h0).2]
  show decode3 0 N 0 = _
  unfold decode3; simp only [h1, h2, h3, h4, h5, h6, h7, h8, beq_self_eq_true, if_true]
theorem or (d : BitVec 6) (a : BitVec 6) (b : BitVec 6) (w : BitVec 2) (u : Bool) (x : Bool) (y : Bool) : Statement (.or d a b w u x y) := by
  obtain ⟨N, hN⟩ : ∃ N, N = (word 0x31000000 [(d.toNat, 18), (a.toNat, 12), (b.toNat, 6), (w.toNat, 4), (b2n u, 3), (b2n x, 2), (b2n y, 1)]).toNat := ⟨_, rfl⟩
  obtain ⟨h0, h1, h2, h3, h4, h5, h6, h7, h8⟩ := lay16 _ 0x31 N (by decide) (by decide) d a b w u x y hN
  refine one rfl hN.symm h0 (by decide) ?_
  clear hN; unfold decodeNat; rw [(digits h0).1, (digits h0).2]
  show decode3 1 N 0 = _
  unfold decode3; simp only [h1, h2, h3, h4, h5, h6, h7, h8, beq_self_eq_true, Nat.reduceEqDiff, if_false, if_true]
theorem xor (d : BitVec 6) (a : BitVec 6) (b : BitVec 6) (w : BitVec 2) (u : Bool) (x : Bool) (y : Bool) : Statement (.xor d a b w u x y) := by
  obtain ⟨N, hN⟩ : ∃ N, N = (word 0x32000000 [(d.toNat, 18), (a.toNat, 12), (b.toNat, 6), (w.toNat, 4), (b2n u, 3), (b2n x, 2), (b2n y, 1)]).toNat := ⟨_, rfl⟩
  obtain ⟨h0, h1, h2, h3, h4, h5, h6, h7, h8⟩ := lay16 _ 0x32 N (by decide) (by decide) d a b w u x y hN
  refine one rfl hN.symm h0 (by decide) ?_
  clear hN; unfold decodeNat; rw [(digits h0).1, (digits h0).2]
  show decode3 2 N 0 = _
  unfold decode3; simp only [h1, h2, h3, h4, h5, h6, h7, h8, beq_self_eq_true, Nat.reduceEqDiff, if_false, if_true]
theorem andn (d : BitVec 6) (a : BitVec 6) (b : BitVec 6) (w : BitVec 2) (u : Bool) (x : Bool) (y : Bool) : Statement (.andn d a b w u x y) := by
  obtain ⟨N, hN⟩ : ∃ N, N = (word 0x33000000 [(d.toNat, 18), (a.toNat, 12), (b.toNat, 6), (w.toNat, 4), (b2n u, 3), (b2n x, 2), (b2n y, 1)]).toNat := ⟨_, rfl⟩
  obtain ⟨h0, h1, h2, h3, h4, h5, h6, h7, h8⟩ := lay16 _ 0x33 N (by decide) (by decide) d a b w u x y hN
  refine one rfl hN.symm h0 (by decide) ?_
  clear hN; unfold decodeNat; rw [(digits h0).1, (digits h0).2]
  show decode3 3 N 0 = _
  unfold decode3; simp only [h1, h2, h3, h4, h5, h6, h7, h8, beq_self_eq_true, Nat.reduceEqDiff, if_false, if_true]
theorem shl (d : BitVec 6) (a : BitVec 6) (b : BitVec 6) (w : BitVec 2) (u : Bool) (x : Bool) (y : Bool) : Statement (.shl d a b w u x y) := by
  obtain ⟨N, hN⟩ : ∃ N, N = (word 0x34000000 [(d.toNat, 18), (a.toNat, 12), (b.toNat, 6), (w.toNat, 4), (b2n u, 3), (b2n x, 2), (b2n y, 1)]).toNat := ⟨_, rfl⟩
  obtain ⟨h0, h1, h2, h3, h4, h5, h6, h7, h8⟩ := lay16 _ 0x34 N (by decide) (by decide) d a b w u x y hN
  refine one rfl hN.symm h0 (by decide) ?_
  clear hN; unfold decodeNat; rw [(digits h0).1, (digits h0).2]
  show decode3 4 N 0 = _
  unfold decode3; simp only [h1, h2, h3, h4, h5, h6, h7, h8, beq_self_eq_true, Nat.reduceEqDiff, if_false, if_true]
theorem shr (d : BitVec 6) (a : BitVec 6) (b : BitVec 6) (w : BitVec 2) (u : Bool) (x : Bool) (y : Bool) : Statement (.shr d a b w u x y) := by
  obtain ⟨N, hN⟩ : ∃ N, N = (word 0x35000000 [(d.toNat, 18), (a.toNat, 12), (b.toNat, 6), (w.toNat, 4), (b2n u, 3), (b2n x, 2), (b2n y, 1)]).toNat := ⟨_, rfl⟩
  obtain ⟨h0, h1, h2, h3, h4, h5, h6, h7, h8⟩ := lay16 _ 0x35 N (by decide) (by decide) d a b w u x y hN
  refine one rfl hN.symm h0 (by decide) ?_
  clear hN; unfold decodeNat; rw [(digits h0).1, (digits h0).2]
  show decode3 5 N 0 = _
  unfold decode3; simp only [h1, h2, h3, h4, h5, h6, h7, h8, beq_self_eq_true, Nat.reduceEqDiff, if_false, if_true]
theorem shra (d : BitVec 6) (a : BitVec 6) (b : BitVec 6) (w : BitVec 2) (u : Bool) (x : Bool) (y : Bool) : Statement (.shra d a b w u x y) := by
  obtain ⟨N, hN⟩ : ∃ N, N = (word 0x36000000 [(d.toNat, 18), (a.toNat, 12), (b.toNat, 6), (w.toNat, 4), (b2n u, 3), (b2n x, 2), (b2n y, 1)]).toNat := ⟨_, rfl⟩
  obtain ⟨h0, h1, h2, h3, h4, h5, h6, h7, h8⟩ := lay16 _ 0x36 N (by decide) (by decide) d a b w u x y hN
  refine one rfl hN.symm h0 (by decide) ?_
  clear hN; unfold decodeNat; rw [(digits h0).1, (digits h0).2]
  show decode3 6 N 0 = _
  unfold decode3; simp only [h1, h2, h3, h4, h5, h6, h7, h8, beq_self_eq_true, Nat.reduceEqDiff, if_false, if_true]
theorem rotl (d : BitVec 6) (a : BitVec 6) (b : BitVec 6) (w : BitVec 2) (u : Bool) (x : Bool) (y : Bool) : Statement (.rotl d a b w u x y) := by
  obtain ⟨N, hN⟩ : ∃ N, N = (word 0x37000000 [(d.toNat, 18), (a.toNat, 12), (b.toNat, 6), (w.toNat, 4), (b2n u, 3), (b2n x, 2), (b2n y, 1)]).toNat := ⟨_, rfl⟩
  obtain ⟨h0, h1, h2, h3, h4, h5, h6, h7, h8⟩ := lay16 _ 0x37 N (by decide) (by decide) d a b w u x y hN
  refine one rfl hN.symm h0 (by decide) ?_
  clear hN; unfold decodeNat; rw [(digits h0).1, (digits h0).2]
  show decode3 7 N 0 = _
  unfold decode3; simp only [h1, h2, h3, h4, h5, h6, h7, h8, beq_self_eq_true, Nat.reduceEqDiff, if_false, if_true]
theorem popc (d : BitVec 6) (a : BitVec 6) (w : BitVec 2) (u : Bool) (x : Bool) : Statement (.popc d a w u x) := by
  obtain ⟨N, hN⟩ : ∃ N, N = (word 0x38000000 [(d.toNat, 18), (a.toNat, 12), (w.toNat, 4), (b2n u, 3), (b2n x, 2)]).toNat := ⟨_, rfl⟩
  obtain ⟨h0, h1, h2, h3, h4, h5, h6, h7⟩ := lay18 _ 0x38 N (by decide) (by decide) d a w u x hN
  refine one rfl hN.symm h0 (by decide) ?_
  clear hN; unfold decodeNat; rw [(digits h0).1, (digits h0).2]
  show decode3 8 N 0 = _
  unfold decode3; simp only [h1, h2, h3, h4, h5, h6, h7, beq_self_eq_true, Bool.and_self, Nat.reduceEqDiff, if_false, if_true]
theorem clz (d : BitVec 6) (a : BitVec 6) (w : BitVec 2) (u : Bool) (x : Bool) : Statement (.clz d a w u x) := by
  obtain ⟨N, hN⟩ : ∃ N, N = (word 0x39000000 [(d.toNat, 18), (a.toNat, 12), (w.toNat, 4), (b2n u, 3), (b2n x, 2)]).toNat := ⟨_, rfl⟩
  obtain ⟨h0, h1, h2, h3, h4, h5, h6, h7⟩ := lay18 _ 0x39 N (by decide) (by decide) d a w u x hN
  refine one rfl hN.symm h0 (by decide) ?_
  clear hN; unfold decodeNat; rw [(digits h0).1, (digits h0).2]
  show decode3 9 N 0 = _
  unfold decode3; simp only [h1, h2, h3, h4, h5, h6, h7, beq_self_eq_true, Bool.and_self, Nat.reduceEqDiff, if_false, if_true]
theorem brev (d : BitVec 6) (a : BitVec 6) (w : BitVec 2) (u : Bool) (x : Bool) : Statement (.brev d a w u x) := by
  obtain ⟨N, hN⟩ : ∃ N, N = (word 0x3A000000 [(d.toNat, 18), (a.toNat, 12), (w.toNat, 4), (b2n u, 3), (b2n x, 2)]).toNat := ⟨_, rfl⟩
  obtain ⟨h0, h1, h2, h3, h4, h5, h6, h7⟩ := lay18 _ 0x3A N (by decide) (by decide) d a w u x hN
  refine one rfl hN.symm h0 (by decide) ?_
  clear hN; unfold decodeNat; rw [(digits h0).1, (digits h0).2]
  show decode3 10 N 0 = _
  unfold decode3; simp only [h1, h2, h3, h4, h5, h6, h7, beq_self_eq_true, Bool.and_self, Nat.reduceEqDiff, if_false, if_true]
theorem bfx (d : BitVec 6) (a : BitVec 6) (b : BitVec 6) (u : Bool) (s : Bool) : Statement (.bfx d a b u s) := by
  obtain ⟨N, hN⟩ : ∃ N, N = (word 0x3B000000 [(d.toNat, 18), (a.toNat, 12), (b.toNat, 6), (b2n u, 5), (b2n s, 0)]).toNat := ⟨_, rfl⟩
  obtain ⟨h0, h1, h2, h3, h4, h5, h6⟩ := lay19 _ 0x3B N (by decide) (by decide) d a b u s hN
  refine one rfl hN.symm h0 (by decide) ?_
  clear hN; unfold decodeNat; rw [(digits h0).1, (digits h0).2]
  show decode3 11 N 0 = _
  unfold decode3; simp only [h1, h2, h3, h4, h5, h6, beq_self_eq_true, Nat.reduceEqDiff, if_false, if_true]
theorem bfi (d : BitVec 6) (a : BitVec 6) (b : BitVec 6) (u : Bool) : Statement (.bfi d a b u) := by
  obtain ⟨N, hN⟩ : ∃ N, N = (word 0x3C000000 [(d.toNat, 18), (a.toNat, 12), (b.toNat, 6), (b2n u, 5)]).toNat := ⟨_, rfl⟩
  obtain ⟨h0, h1, h2, h3, h4, h5⟩ := lay20 _ 0x3C N (by decide) (by decide) d a b u hN
  refine one rfl hN.symm h0 (by decide) ?_
  clear hN; unfold decodeNat; rw [(digits h0).1, (digits h0).2]
  show decode3 12 N 0 = _
  unfold decode3; simp only [h1, h2, h3, h4, h5, beq_self_eq_true, Nat.reduceEqDiff, if_false, if_true]
theorem bperm (d : BitVec 6) (a : BitVec 6) (b : BitVec 6) (w : BitVec 2) (u : Bool) (x : Bool) (y : Bool) : Statement (.bperm d a b w u x y) := by
  obtain ⟨N, hN⟩ : ∃ N, N = (word 0x3D000000 [(d.toNat, 18), (a.toNat, 12), (b.toNat, 6), (w.toNat, 4), (b2n u, 3), (b2n x, 2), (b2n y, 1)]).toNat := ⟨_, rfl⟩
  obtain ⟨h0, h1, h2, h3, h4, h5, h6, h7, h8⟩ := lay16 _ 0x3D N (by decide) (by decide) d a b w u x y hN
  refine one rfl hN.symm h0 (by decide) ?_
  clear hN; unfold decodeNat; rw [(digits h0).1, (digits h0).2]
  show decode3 13 N 0 = _
  unfold decode3; simp only [h1, h2, h3, h4, h5, h6, h7, h8, beq_self_eq_true, Nat.reduceEqDiff, if_false, if_true]
theorem fshf (d : BitVec 6) (a : BitVec 6) (b : BitVec 6) (w : BitVec 2) (u : Bool) (x : Bool) (y : Bool) (z : Bool) : Statement (.fshf d a b w u x y z) := by
  obtain ⟨N, hN⟩ : ∃ N, N = (word 0x3E000000 [(d.toNat, 18), (a.toNat, 12), (b.toNat, 6), (w.toNat, 4), (b2n u, 3), (b2n x, 2), (b2n y, 1), (b2n z, 0)]).toNat := ⟨_, rfl⟩
  obtain ⟨h0, h1, h2, h3, h4, h5, h6, h7, h8⟩ := lay17 _ 0x3E N (by decide) (by decide) d a b w u x y z hN
  refine one rfl hN.symm h0 (by decide) ?_
  clear hN; unfold decodeNat; rw [(digits h0).1, (digits h0).2]
  show decode3 14 N 0 = _
  unfold decode3; simp only [h1, h2, h3, h4, h5, h6, h7, h8, Nat.reduceEqDiff, if_false, if_true]
theorem sel (d : BitVec 6) (a : BitVec 6) (b : BitVec 6) (n : Bool) (p : BitVec 4) : Statement (.sel d a b n p) := by
  obtain ⟨N, hN⟩ : ∃ N, N = (word 0x3F000000 [(d.toNat, 18), (a.toNat, 12), (b.toNat, 6), (b2n n, 5), (p.toNat, 0)]).toNat := ⟨_, rfl⟩
  obtain ⟨h0, h1, h2, h3, h4, h5, h6⟩ := lay21 _ 0x3F N (by decide) (by decide) d a b n p hN
  refine one rfl hN.symm h0 (by decide) ?_
  clear hN; unfold decodeNat; rw [(digits h0).1, (digits h0).2]
  show decode3 15 N 0 = _
  unfold decode3; simp only [h1, h2, h3, h4, h5, h6, beq_self_eq_true, Nat.reduceEqDiff, if_false, if_true]
theorem mov (d : BitVec 6) (b : BitVec 6) (w : BitVec 2) (u : Bool) (y : Bool) : Statement (.mov d b w u y) := by
  obtain ⟨N, hN⟩ : ∃ N, N = (word 0x40000000 [(d.toNat, 18), (b.toNat, 6), (w.toNat, 4), (b2n u, 3), (b2n y, 1)]).toNat := ⟨_, rfl⟩
  obtain ⟨h0, h1, h2, h3, h4, h5, h6, h7, h8⟩ := lay22 _ 0x40 N (by decide) (by decide) d b w u y hN
  refine one rfl hN.symm h0 (by decide) ?_
  clear hN; unfold decodeNat; rw [(digits h0).1, (digits h0).2]
  show decode4 0 N 0 = _
  unfold decode4; simp only [h1, h2, h3, h4, h5, h6, h7, h8, beq_self_eq_true, Bool.and_self, if_true]
theorem movi (d : BitVec 6) (u : Bool) (i : BitVec 11) : Statement (.movi d u i) := by
  obtain ⟨N, hN⟩ : ∃ N, N = (word 0x41000000 [(d.toNat, 18), (b2n u, 11), (i.toNat, 0)]).toNat := ⟨_, rfl⟩
  obtain ⟨h0, h1, h2, h3, h4⟩ := lay14 _ 0x41 N (by decide) (by decide) d u i hN
  refine one rfl hN.symm h0 (by decide) ?_
  clear hN; unfold decodeNat; rw [(digits h0).1, (digits h0).2]
  show decode4 1 N 0 = _
  unfold decode4; simp only [h1, h2, h3, h4, beq_self_eq_true, Nat.reduceEqDiff, if_false, if_true]
theorem ldcw (d : BitVec 6) (u : Bool) (lit : Word) : Statement (.ldcw d u lit) := by
  obtain ⟨N, hN⟩ : ∃ N, N = (word 0x42000000 [(d.toNat, 18), (b2n u, 11)]).toNat := ⟨_, rfl⟩
  obtain ⟨h0, h1, h2, h3, h4⟩ := lay23 _ 0x42 N (by decide) (by decide) d u hN
  intro _ rest
  have hl := wordOfBytes_ofNat lit.toNat lit.isLt
  have hw := wordOfBytes_ofNat N (by rw [hN]; exact BitVec.isLt _)
  show (if takesLiteral (BitVec.ofNat 32 (wordOfBytes (BitVec.ofNat 8 (word 0x42000000 [(d.toNat, 18), (b2n u, 11)]).toNat) (BitVec.ofNat 8 ((word 0x42000000 [(d.toNat, 18), (b2n u, 11)]).toNat / 2 ^ 8)) (BitVec.ofNat 8 ((word 0x42000000 [(d.toNat, 18), (b2n u, 11)]).toNat / 2 ^ 16)) (BitVec.ofNat 8 ((word 0x42000000 [(d.toNat, 18), (b2n u, 11)]).toNat / 2 ^ 24)))) = true then some (decodeNat (wordOfBytes (BitVec.ofNat 8 (word 0x42000000 [(d.toNat, 18), (b2n u, 11)]).toNat) (BitVec.ofNat 8 ((word 0x42000000 [(d.toNat, 18), (b2n u, 11)]).toNat / 2 ^ 8)) (BitVec.ofNat 8 ((word 0x42000000 [(d.toNat, 18), (b2n u, 11)]).toNat / 2 ^ 16)) (BitVec.ofNat 8 ((word 0x42000000 [(d.toNat, 18), (b2n u, 11)]).toNat / 2 ^ 24))) (wordOfBytes _ _ _ _), rest) else _) = _
  rw [← hN, hw, hl]
  have ht : takesLiteral (BitVec.ofNat 32 N) = true := by
    have h : (BitVec.ofNat 32 N).toNat = N := by rw [hN, BitVec.ofNat_toNat, BitVec.setWidth_eq]
    unfold takesLiteral; rw [h, h0]; simp only [h1, h2]; rfl
  clear hN hw
  rw [if_pos ht]; unfold decodeNat; rw [(digits h0).1, (digits h0).2]
  show some (decode4 2 N _, rest) = _
  unfold decode4; simp only [h1, h2, h3, h4, beq_self_eq_true, Bool.and_self, Nat.reduceEqDiff, if_true, if_false, BitVec.ofNat_toNat, BitVec.setWidth_eq]
theorem movs (d : BitVec 6) (a : BitVec 6) (w : BitVec 2) : Statement (.movs d a w) := by
  obtain ⟨N, hN⟩ : ∃ N, N = (word 0x43000000 [(d.toNat, 18), (a.toNat, 12), (w.toNat, 4)]).toNat := ⟨_, rfl⟩
  obtain ⟨h0, h1, h2, h3, h4, h5⟩ := lay24 _ 0x43 N (by decide) (by decide) d a w hN
  refine one rfl hN.symm h0 (by decide) ?_
  clear hN; unfold decodeNat; rw [(digits h0).1, (digits h0).2]
  show decode4 3 N 0 = _
  unfold decode4; simp only [h1, h2, h3, h4, h5, beq_self_eq_true, Bool.and_self, Nat.reduceEqDiff, if_false, if_true]
theorem addi (d : BitVec 6) (a : BitVec 6) (u : Bool) (i : BitVec 11) : Statement (.addi d a u i) := by
  obtain ⟨N, hN⟩ : ∃ N, N = (word 0x44000000 [(d.toNat, 18), (a.toNat, 12), (b2n u, 11), (i.toNat, 0)]).toNat := ⟨_, rfl⟩
  obtain ⟨h0, h1, h2, h3, h4⟩ := lay25 _ 0x44 N (by decide) (by decide) d a u i hN
  refine one rfl hN.symm h0 (by decide) ?_
  clear hN; unfold decodeNat; rw [(digits h0).1, (digits h0).2]
  show decode4 4 N 0 = _
  unfold decode4; simp only [h1, h2, h3, h4, Nat.reduceEqDiff, if_false, if_true]
theorem muli (d : BitVec 6) (a : BitVec 6) (u : Bool) (i : BitVec 11) : Statement (.muli d a u i) := by
  obtain ⟨N, hN⟩ : ∃ N, N = (word 0x45000000 [(d.toNat, 18), (a.toNat, 12), (b2n u, 11), (i.toNat, 0)]).toNat := ⟨_, rfl⟩
  obtain ⟨h0, h1, h2, h3, h4⟩ := lay25 _ 0x45 N (by decide) (by decide) d a u i hN
  refine one rfl hN.symm h0 (by decide) ?_
  clear hN; unfold decodeNat; rw [(digits h0).1, (digits h0).2]
  show decode4 5 N 0 = _
  unfold decode4; simp only [h1, h2, h3, h4, Nat.reduceEqDiff, if_false, if_true]
theorem andi (d : BitVec 6) (a : BitVec 6) (u : Bool) (i : BitVec 11) : Statement (.andi d a u i) := by
  obtain ⟨N, hN⟩ : ∃ N, N = (word 0x46000000 [(d.toNat, 18), (a.toNat, 12), (b2n u, 11), (i.toNat, 0)]).toNat := ⟨_, rfl⟩
  obtain ⟨h0, h1, h2, h3, h4⟩ := lay25 _ 0x46 N (by decide) (by decide) d a u i hN
  refine one rfl hN.symm h0 (by decide) ?_
  clear hN; unfold decodeNat; rw [(digits h0).1, (digits h0).2]
  show decode4 6 N 0 = _
  unfold decode4; simp only [h1, h2, h3, h4, Nat.reduceEqDiff, if_false, if_true]
theorem ori (d : BitVec 6) (a : BitVec 6) (u : Bool) (i : BitVec 11) : Statement (.ori d a u i) := by
  obtain ⟨N, hN⟩ : ∃ N, N = (word 0x47000000 [(d.toNat, 18), (a.toNat, 12), (b2n u, 11), (i.toNat, 0)]).toNat := ⟨_, rfl⟩
  obtain ⟨h0, h1, h2, h3, h4⟩ := lay25 _ 0x47 N (by decide) (by decide) d a u i hN
  refine one rfl hN.symm h0 (by decide) ?_
  clear hN; unfold decodeNat; rw [(digits h0).1, (digits h0).2]
  show decode4 7 N 0 = _
  unfold decode4; simp only [h1, h2, h3, h4, Nat.reduceEqDiff, if_false, if_true]
theorem xori (d : BitVec 6) (a : BitVec 6) (u : Bool) (i : BitVec 11) : Statement (.xori d a u i) := by
  obtain ⟨N, hN⟩ : ∃ N, N = (word 0x48000000 [(d.toNat, 18), (a.toNat, 12), (b2n u, 11), (i.toNat, 0)]).toNat := ⟨_, rfl⟩
  obtain ⟨h0, h1, h2, h3, h4⟩ := lay25 _ 0x48 N (by decide) (by decide) d a u i hN
  refine one rfl hN.symm h0 (by decide) ?_
  clear hN; unfold decodeNat; rw [(digits h0).1, (digits h0).2]
  show decode4 8 N 0 = _
  unfold decode4; simp only [h1, h2, h3, h4, Nat.reduceEqDiff, if_false, if_true]
theorem shli (d : BitVec 6) (a : BitVec 6) (u : Bool) (i : BitVec 11) : Statement (.shli d a u i) := by
  obtain ⟨N, hN⟩ : ∃ N, N = (word 0x49000000 [(d.toNat, 18), (a.toNat, 12), (b2n u, 11), (i.toNat, 0)]).toNat := ⟨_, rfl⟩
  obtain ⟨h0, h1, h2, h3, h4⟩ := lay25 _ 0x49 N (by decide) (by decide) d a u i hN
  refine one rfl hN.symm h0 (by decide) ?_
  clear hN; unfold decodeNat; rw [(digits h0).1, (digits h0).2]
  show decode4 9 N 0 = _
  unfold decode4; simp only [h1, h2, h3, h4, Nat.reduceEqDiff, if_false, if_true]
theorem shri (d : BitVec 6) (a : BitVec 6) (u : Bool) (i : BitVec 11) : Statement (.shri d a u i) := by
  obtain ⟨N, hN⟩ : ∃ N, N = (word 0x4A000000 [(d.toNat, 18), (a.toNat, 12), (b2n u, 11), (i.toNat, 0)]).toNat := ⟨_, rfl⟩
  obtain ⟨h0, h1, h2, h3, h4⟩ := lay25 _ 0x4A N (by decide) (by decide) d a u i hN
  refine one rfl hN.symm h0 (by decide) ?_
  clear hN; unfold decodeNat; rw [(digits h0).1, (digits h0).2]
  show decode4 10 N 0 = _
  unfold decode4; simp only [h1, h2, h3, h4, Nat.reduceEqDiff, if_false, if_true]
theorem shrai (d : BitVec 6) (a : BitVec 6) (u : Bool) (i : BitVec 11) : Statement (.shrai d a u i) := by
  obtain ⟨N, hN⟩ : ∃ N, N = (word 0x4B000000 [(d.toNat, 18), (a.toNat, 12), (b2n u, 11), (i.toNat, 0)]).toNat := ⟨_, rfl⟩
  obtain ⟨h0, h1, h2, h3, h4⟩ := lay25 _ 0x4B N (by decide) (by decide) d a u i hN
  refine one rfl hN.symm h0 (by decide) ?_
  clear hN; unfold decodeNat; rw [(digits h0).1, (digits h0).2]
  show decode4 11 N 0 = _
  unfold decode4; simp only [h1, h2, h3, h4, Nat.reduceEqDiff, if_false, if_true]
theorem aadd (d : BitVec 6) (a : BitVec 6) (b : BitVec 6) (w : BitVec 2) (u : Bool) (x : Bool) (y : Bool) : Statement (.aadd d a b w u x y) := by
  obtain ⟨N, hN⟩ : ∃ N, N = (word 0x4C000000 [(d.toNat, 18), (a.toNat, 12), (b.toNat, 6), (w.toNat, 4), (b2n u, 3), (b2n x, 2), (b2n y, 1)]).toNat := ⟨_, rfl⟩
  obtain ⟨h0, h1, h2, h3, h4, h5, h6, h7, h8⟩ := lay16 _ 0x4C N (by decide) (by decide) d a b w u x y hN
  refine one rfl hN.symm h0 (by decide) ?_
  clear hN; unfold decodeNat; rw [(digits h0).1, (digits h0).2]
  show decode4 12 N 0 = _
  unfold decode4; simp only [h1, h2, h3, h4, h5, h6, h7, h8, beq_self_eq_true, Nat.reduceEqDiff, if_false, if_true]
theorem alea (d : BitVec 6) (a : BitVec 6) (b : BitVec 6) (u : Bool) (e : Bool) (h : BitVec 3) : Statement (.alea d a b u e h) := by
  obtain ⟨N, hN⟩ : ∃ N, N = (word 0x4D000000 [(d.toNat, 18), (a.toNat, 12), (b.toNat, 6), (b2n u, 5), (b2n e, 3), (h.toNat, 0)]).toNat := ⟨_, rfl⟩
  obtain ⟨h0, h1, h2, h3, h4, h5, h6, h7⟩ := lay26 _ 0x4D N (by decide) (by decide) d a b u e h hN
  refine one rfl hN.symm h0 (by decide) ?_
  clear hN; unfold decodeNat; rw [(digits h0).1, (digits h0).2]
  show decode4 13 N 0 = _
  unfold decode4; simp only [h1, h2, h3, h4, h5, h6, h7, beq_self_eq_true, Nat.reduceEqDiff, if_false, if_true]
theorem aaddi (d : BitVec 6) (a : BitVec 6) (u : Bool) (i : BitVec 11) : Statement (.aaddi d a u i) := by
  obtain ⟨N, hN⟩ : ∃ N, N = (word 0x4E000000 [(d.toNat, 18), (a.toNat, 12), (b2n u, 11), (i.toNat, 0)]).toNat := ⟨_, rfl⟩
  obtain ⟨h0, h1, h2, h3, h4⟩ := lay25 _ 0x4E N (by decide) (by decide) d a u i hN
  refine one rfl hN.symm h0 (by decide) ?_
  clear hN; unfold decodeNat; rw [(digits h0).1, (digits h0).2]
  show decode4 14 N 0 = _
  unfold decode4; simp only [h1, h2, h3, h4, Nat.reduceEqDiff, if_false, if_true]
theorem asub (d : BitVec 6) (a : BitVec 6) (b : BitVec 6) (w : BitVec 2) (u : Bool) (x : Bool) (y : Bool) : Statement (.asub d a b w u x y) := by
  obtain ⟨N, hN⟩ : ∃ N, N = (word 0x4F000000 [(d.toNat, 18), (a.toNat, 12), (b.toNat, 6), (w.toNat, 4), (b2n u, 3), (b2n x, 2), (b2n y, 1)]).toNat := ⟨_, rfl⟩
  obtain ⟨h0, h1, h2, h3, h4, h5, h6, h7, h8⟩ := lay16 _ 0x4F N (by decide) (by decide) d a b w u x y hN
  refine one rfl hN.symm h0 (by decide) ?_
  clear hN; unfold decodeNat; rw [(digits h0).1, (digits h0).2]
  show decode4 15 N 0 = _
  unfold decode4; simp only [h1, h2, h3, h4, h5, h6, h7, h8, beq_self_eq_true, Nat.reduceEqDiff, if_false, if_true]
theorem iceq (d : BitVec 6) (a : BitVec 6) (b : BitVec 6) (w : BitVec 2) (u : Bool) (x : Bool) (y : Bool) : Statement (.iceq d a b w u x y) := by
  obtain ⟨N, hN⟩ : ∃ N, N = (word 0x50000000 [(d.toNat, 18), (a.toNat, 12), (b.toNat, 6), (w.toNat, 4), (b2n u, 3), (b2n x, 2), (b2n y, 1)]).toNat := ⟨_, rfl⟩
  obtain ⟨h0, h1, h2, h3, h4, h5, h6, h7, h8⟩ := lay16 _ 0x50 N (by decide) (by decide) d a b w u x y hN
  refine one rfl hN.symm h0 (by decide) ?_
  clear hN; unfold decodeNat; rw [(digits h0).1, (digits h0).2]
  show decode5 0 N 0 = _
  unfold decode5; simp only [h1, h2, h3, h4, h5, h6, h7, h8, beq_self_eq_true, if_true]
theorem icne (d : BitVec 6) (a : BitVec 6) (b : BitVec 6) (w : BitVec 2) (u : Bool) (x : Bool) (y : Bool) : Statement (.icne d a b w u x y) := by
  obtain ⟨N, hN⟩ : ∃ N, N = (word 0x51000000 [(d.toNat, 18), (a.toNat, 12), (b.toNat, 6), (w.toNat, 4), (b2n u, 3), (b2n x, 2), (b2n y, 1)]).toNat := ⟨_, rfl⟩
  obtain ⟨h0, h1, h2, h3, h4, h5, h6, h7, h8⟩ := lay16 _ 0x51 N (by decide) (by decide) d a b w u x y hN
  refine one rfl hN.symm h0 (by decide) ?_
  clear hN; unfold decodeNat; rw [(digits h0).1, (digits h0).2]
  show decode5 1 N 0 = _
  unfold decode5; simp only [h1, h2, h3, h4, h5, h6, h7, h8, beq_self_eq_true, Nat.reduceEqDiff, if_false, if_true]
theorem iclt (d : BitVec 6) (a : BitVec 6) (b : BitVec 6) (w : BitVec 2) (u : Bool) (x : Bool) (y : Bool) : Statement (.iclt d a b w u x y) := by
  obtain ⟨N, hN⟩ : ∃ N, N = (word 0x52000000 [(d.toNat, 18), (a.toNat, 12), (b.toNat, 6), (w.toNat, 4), (b2n u, 3), (b2n x, 2), (b2n y, 1)]).toNat := ⟨_, rfl⟩
  obtain ⟨h0, h1, h2, h3, h4, h5, h6, h7, h8⟩ := lay16 _ 0x52 N (by decide) (by decide) d a b w u x y hN
  refine one rfl hN.symm h0 (by decide) ?_
  clear hN; unfold decodeNat; rw [(digits h0).1, (digits h0).2]
  show decode5 2 N 0 = _
  unfold decode5; simp only [h1, h2, h3, h4, h5, h6, h7, h8, beq_self_eq_true, Nat.reduceEqDiff, if_false, if_true]
theorem icle (d : BitVec 6) (a : BitVec 6) (b : BitVec 6) (w : BitVec 2) (u : Bool) (x : Bool) (y : Bool) : Statement (.icle d a b w u x y) := by
  obtain ⟨N, hN⟩ : ∃ N, N = (word 0x53000000 [(d.toNat, 18), (a.toNat, 12), (b.toNat, 6), (w.toNat, 4), (b2n u, 3), (b2n x, 2), (b2n y, 1)]).toNat := ⟨_, rfl⟩
  obtain ⟨h0, h1, h2, h3, h4, h5, h6, h7, h8⟩ := lay16 _ 0x53 N (by decide) (by decide) d a b w u x y hN
  refine one rfl hN.symm h0 (by decide) ?_
  clear hN; unfold decodeNat; rw [(digits h0).1, (digits h0).2]
  show decode5 3 N 0 = _
  unfold decode5; simp only [h1, h2, h3, h4, h5, h6, h7, h8, beq_self_eq_true, Nat.reduceEqDiff, if_false, if_true]
theorem icltu (d : BitVec 6) (a : BitVec 6) (b : BitVec 6) (w : BitVec 2) (u : Bool) (x : Bool) (y : Bool) : Statement (.icltu d a b w u x y) := by
  obtain ⟨N, hN⟩ : ∃ N, N = (word 0x54000000 [(d.toNat, 18), (a.toNat, 12), (b.toNat, 6), (w.toNat, 4), (b2n u, 3), (b2n x, 2), (b2n y, 1)]).toNat := ⟨_, rfl⟩
  obtain ⟨h0, h1, h2, h3, h4, h5, h6, h7, h8⟩ := lay16 _ 0x54 N (by decide) (by decide) d a b w u x y hN
  refine one rfl hN.symm h0 (by decide) ?_
  clear hN; unfold decodeNat; rw [(digits h0).1, (digits h0).2]
  show decode5 4 N 0 = _
  unfold decode5; simp only [h1, h2, h3, h4, h5, h6, h7, h8, beq_self_eq_true, Nat.reduceEqDiff, if_false, if_true]
theorem icleu (d : BitVec 6) (a : BitVec 6) (b : BitVec 6) (w : BitVec 2) (u : Bool) (x : Bool) (y : Bool) : Statement (.icleu d a b w u x y) := by
  obtain ⟨N, hN⟩ : ∃ N, N = (word 0x55000000 [(d.toNat, 18), (a.toNat, 12), (b.toNat, 6), (w.toNat, 4), (b2n u, 3), (b2n x, 2), (b2n y, 1)]).toNat := ⟨_, rfl⟩
  obtain ⟨h0, h1, h2, h3, h4, h5, h6, h7, h8⟩ := lay16 _ 0x55 N (by decide) (by decide) d a b w u x y hN
  refine one rfl hN.symm h0 (by decide) ?_
  clear hN; unfold decodeNat; rw [(digits h0).1, (digits h0).2]
  show decode5 5 N 0 = _
  unfold decode5; simp only [h1, h2, h3, h4, h5, h6, h7, h8, beq_self_eq_true, Nat.reduceEqDiff, if_false, if_true]
theorem iceqi (d : BitVec 6) (a : BitVec 6) (u : Bool) (i : BitVec 11) : Statement (.iceqi d a u i) := by
  obtain ⟨N, hN⟩ : ∃ N, N = (word 0x56000000 [(d.toNat, 18), (a.toNat, 12), (b2n u, 11), (i.toNat, 0)]).toNat := ⟨_, rfl⟩
  obtain ⟨h0, h1, h2, h3, h4⟩ := lay25 _ 0x56 N (by decide) (by decide) d a u i hN
  refine one rfl hN.symm h0 (by decide) ?_
  clear hN; unfold decodeNat; rw [(digits h0).1, (digits h0).2]
  show decode5 6 N 0 = _
  unfold decode5; simp only [h1, h2, h3, h4, Nat.reduceEqDiff, if_false, if_true]
theorem iclti (d : BitVec 6) (a : BitVec 6) (u : Bool) (i : BitVec 11) : Statement (.iclti d a u i) := by
  obtain ⟨N, hN⟩ : ∃ N, N = (word 0x57000000 [(d.toNat, 18), (a.toNat, 12), (b2n u, 11), (i.toNat, 0)]).toNat := ⟨_, rfl⟩
  obtain ⟨h0, h1, h2, h3, h4⟩ := lay25 _ 0x57 N (by decide) (by decide) d a u i hN
  refine one rfl hN.symm h0 (by decide) ?_
  clear hN; unfold decodeNat; rw [(digits h0).1, (digits h0).2]
  show decode5 7 N 0 = _
  unfold decode5; simp only [h1, h2, h3, h4, Nat.reduceEqDiff, if_false, if_true]
theorem pand (d : BitVec 6) (a : BitVec 6) (b : BitVec 6) (w : BitVec 2) (u : Bool) : Statement (.pand d a b w u) := by
  obtain ⟨N, hN⟩ : ∃ N, N = (word 0x58000000 [(d.toNat, 18), (a.toNat, 12), (b.toNat, 6), (w.toNat, 4), (b2n u, 3)]).toNat := ⟨_, rfl⟩
  obtain ⟨h0, h1, h2, h3, h4, h5, h6⟩ := lay27 _ 0x58 N (by decide) (by decide) d a b w u hN
  refine one rfl hN.symm h0 (by decide) ?_
  clear hN; unfold decodeNat; rw [(digits h0).1, (digits h0).2]
  show decode5 8 N 0 = _
  unfold decode5; simp only [h1, h2, h3, h4, h5, h6, beq_self_eq_true, Nat.reduceEqDiff, if_false, if_true]
theorem por (d : BitVec 6) (a : BitVec 6) (b : BitVec 6) (w : BitVec 2) (u : Bool) : Statement (.por d a b w u) := by
  obtain ⟨N, hN⟩ : ∃ N, N = (word 0x59000000 [(d.toNat, 18), (a.toNat, 12), (b.toNat, 6), (w.toNat, 4), (b2n u, 3)]).toNat := ⟨_, rfl⟩
  obtain ⟨h0, h1, h2, h3, h4, h5, h6⟩ := lay27 _ 0x59 N (by decide) (by decide) d a b w u hN
  refine one rfl hN.symm h0 (by decide) ?_
  clear hN; unfold decodeNat; rw [(digits h0).1, (digits h0).2]
  show decode5 9 N 0 = _
  unfold decode5; simp only [h1, h2, h3, h4, h5, h6, beq_self_eq_true, Nat.reduceEqDiff, if_false, if_true]
theorem pxor (d : BitVec 6) (a : BitVec 6) (b : BitVec 6) (w : BitVec 2) (u : Bool) : Statement (.pxor d a b w u) := by
  obtain ⟨N, hN⟩ : ∃ N, N = (word 0x5A000000 [(d.toNat, 18), (a.toNat, 12), (b.toNat, 6), (w.toNat, 4), (b2n u, 3)]).toNat := ⟨_, rfl⟩
  obtain ⟨h0, h1, h2, h3, h4, h5, h6⟩ := lay27 _ 0x5A N (by decide) (by decide) d a b w u hN
  refine one rfl hN.symm h0 (by decide) ?_
  clear hN; unfold decodeNat; rw [(digits h0).1, (digits h0).2]
  show decode5 10 N 0 = _
  unfold decode5; simp only [h1, h2, h3, h4, h5, h6, beq_self_eq_true, Nat.reduceEqDiff, if_false, if_true]
theorem pandn (d : BitVec 6) (a : BitVec 6) (b : BitVec 6) (w : BitVec 2) (u : Bool) : Statement (.pandn d a b w u) := by
  obtain ⟨N, hN⟩ : ∃ N, N = (word 0x5B000000 [(d.toNat, 18), (a.toNat, 12), (b.toNat, 6), (w.toNat, 4), (b2n u, 3)]).toNat := ⟨_, rfl⟩
  obtain ⟨h0, h1, h2, h3, h4, h5, h6⟩ := lay27 _ 0x5B N (by decide) (by decide) d a b w u hN
  refine one rfl hN.symm h0 (by decide) ?_
  clear hN; unfold decodeNat; rw [(digits h0).1, (digits h0).2]
  show decode5 11 N 0 = _
  unfold decode5; simp only [h1, h2, h3, h4, h5, h6, beq_self_eq_true, Nat.reduceEqDiff, if_false, if_true]
theorem ptos (d : BitVec 6) (a : BitVec 6) (w : BitVec 2) : Statement (.ptos d a w) := by
  obtain ⟨N, hN⟩ : ∃ N, N = (word 0x5C000008 [(d.toNat, 18), (a.toNat, 12), (w.toNat, 4)]).toNat := ⟨_, rfl⟩
  obtain ⟨h0, h1, h2, h3, h4, h5⟩ := lay28 _ 0x5C N (by decide) (by decide) d a w hN
  refine one rfl hN.symm h0 (by decide) ?_
  clear hN; unfold decodeNat; rw [(digits h0).1, (digits h0).2]
  show decode5 12 N 0 = _
  unfold decode5; simp only [h1, h2, h3, h4, h5, beq_self_eq_true, Bool.and_self, Nat.reduceEqDiff, if_false, if_true]
theorem pfroms (d : BitVec 6) (a : BitVec 6) (w : BitVec 2) : Statement (.pfroms d a w) := by
  obtain ⟨N, hN⟩ : ∃ N, N = (word 0x5D000008 [(d.toNat, 18), (a.toNat, 12), (w.toNat, 4)]).toNat := ⟨_, rfl⟩
  obtain ⟨h0, h1, h2, h3, h4, h5⟩ := lay28 _ 0x5D N (by decide) (by decide) d a w hN
  refine one rfl hN.symm h0 (by decide) ?_
  clear hN; unfold decodeNat; rw [(digits h0).1, (digits h0).2]
  show decode5 13 N 0 = _
  unfold decode5; simp only [h1, h2, h3, h4, h5, beq_self_eq_true, Bool.and_self, Nat.reduceEqDiff, if_false, if_true]
theorem cmrd (d : BitVec 6) (w : BitVec 2) : Statement (.cmrd d w) := by
  obtain ⟨N, hN⟩ : ∃ N, N = (word 0x5E000008 [(d.toNat, 18), (w.toNat, 4)]).toNat := ⟨_, rfl⟩
  obtain ⟨h0, h1, h2, h3, h4⟩ := lay11 _ 0x5E N (by decide) (by decide) d w hN
  refine one rfl hN.symm h0 (by decide) ?_
  clear hN; unfold decodeNat; rw [(digits h0).1, (digits h0).2]
  show decode5 14 N 0 = _
  unfold decode5; simp only [h1, h2, h3, h4, beq_self_eq_true, Bool.and_self, Nat.reduceEqDiff, if_false, if_true]
theorem cmwr (a : BitVec 6) (w : BitVec 2) : Statement (.cmwr a w) := by
  obtain ⟨N, hN⟩ : ∃ N, N = (word 0x5F000008 [(a.toNat, 12), (w.toNat, 4)]).toNat := ⟨_, rfl⟩
  obtain ⟨h0, h1, h2, h3, h4, h5⟩ := lay4 _ 0x5F N (by decide) (by decide) a w hN
  refine one rfl hN.symm h0 (by decide) ?_
  clear hN; unfold decodeNat; rw [(digits h0).1, (digits h0).2]
  show decode5 15 N 0 = _
  unfold decode5; simp only [h1, h2, h3, h4, h5, beq_self_eq_true, Bool.and_self, Nat.reduceEqDiff, if_false, if_true]
theorem fadd (d : BitVec 6) (a : BitVec 6) (b : BitVec 6) (w : BitVec 2) (u : Bool) (x : Bool) (y : Bool) : Statement (.fadd d a b w u x y) := by
  obtain ⟨N, hN⟩ : ∃ N, N = (word 0x60000000 [(d.toNat, 18), (a.toNat, 12), (b.toNat, 6), (w.toNat, 4), (b2n u, 3), (b2n x, 2), (b2n y, 1)]).toNat := ⟨_, rfl⟩
  obtain ⟨h0, h1, h2, h3, h4, h5, h6, h7, h8⟩ := lay16 _ 0x60 N (by decide) (by decide) d a b w u x y hN
  refine one rfl hN.symm h0 (by decide) ?_
  clear hN; unfold decodeNat; rw [(digits h0).1, (digits h0).2]
  show decode6 0 N 0 = _
  unfold decode6; simp only [h1, h2, h3, h4, h5, h6, h7, h8, beq_self_eq_true, if_true]
theorem fsub (d : BitVec 6) (a : BitVec 6) (b : BitVec 6) (w : BitVec 2) (u : Bool) (x : Bool) (y : Bool) : Statement (.fsub d a b w u x y) := by
  obtain ⟨N, hN⟩ : ∃ N, N = (word 0x61000000 [(d.toNat, 18), (a.toNat, 12), (b.toNat, 6), (w.toNat, 4), (b2n u, 3), (b2n x, 2), (b2n y, 1)]).toNat := ⟨_, rfl⟩
  obtain ⟨h0, h1, h2, h3, h4, h5, h6, h7, h8⟩ := lay16 _ 0x61 N (by decide) (by decide) d a b w u x y hN
  refine one rfl hN.symm h0 (by decide) ?_
  clear hN; unfold decodeNat; rw [(digits h0).1, (digits h0).2]
  show decode6 1 N 0 = _
  unfold decode6; simp only [h1, h2, h3, h4, h5, h6, h7, h8, beq_self_eq_true, Nat.reduceEqDiff, if_false, if_true]
theorem fmul (d : BitVec 6) (a : BitVec 6) (b : BitVec 6) (w : BitVec 2) (u : Bool) (x : Bool) (y : Bool) : Statement (.fmul d a b w u x y) := by
  obtain ⟨N, hN⟩ : ∃ N, N = (word 0x62000000 [(d.toNat, 18), (a.toNat, 12), (b.toNat, 6), (w.toNat, 4), (b2n u, 3), (b2n x, 2), (b2n y, 1)]).toNat := ⟨_, rfl⟩
  obtain ⟨h0, h1, h2, h3, h4, h5, h6, h7, h8⟩ := lay16 _ 0x62 N (by decide) (by decide) d a b w u x y hN
  refine one rfl hN.symm h0 (by decide) ?_
  clear hN; unfold decodeNat; rw [(digits h0).1, (digits h0).2]
  show decode6 2 N 0 = _
  unfold decode6; simp only [h1, h2, h3, h4, h5, h6, h7, h8, beq_self_eq_true, Nat.reduceEqDiff, if_false, if_true]
theorem ffma (d : BitVec 6) (a : BitVec 6) (b : BitVec 6) (w : BitVec 2) (u : Bool) (x : Bool) (y : Bool) (z : Bool) : Statement (.ffma d a b w u x y z) := by
  obtain ⟨N, hN⟩ : ∃ N, N = (word 0x63000000 [(d.toNat, 18), (a.toNat, 12), (b.toNat, 6), (w.toNat, 4), (b2n u, 3), (b2n x, 2), (b2n y, 1), (b2n z, 0)]).toNat := ⟨_, rfl⟩
  obtain ⟨h0, h1, h2, h3, h4, h5, h6, h7, h8⟩ := lay17 _ 0x63 N (by decide) (by decide) d a b w u x y z hN
  refine one rfl hN.symm h0 (by decide) ?_
  clear hN; unfold decodeNat; rw [(digits h0).1, (digits h0).2]
  show decode6 3 N 0 = _
  unfold decode6; simp only [h1, h2, h3, h4, h5, h6, h7, h8, Nat.reduceEqDiff, if_false, if_true]
theorem ffms (d : BitVec 6) (a : BitVec 6) (b : BitVec 6) (w : BitVec 2) (u : Bool) (x : Bool) (y : Bool) (z : Bool) : Statement (.ffms d a b w u x y z) := by
  obtain ⟨N, hN⟩ : ∃ N, N = (word 0x64000000 [(d.toNat, 18), (a.toNat, 12), (b.toNat, 6), (w.toNat, 4), (b2n u, 3), (b2n x, 2), (b2n y, 1), (b2n z, 0)]).toNat := ⟨_, rfl⟩
  obtain ⟨h0, h1, h2, h3, h4, h5, h6, h7, h8⟩ := lay17 _ 0x64 N (by decide) (by decide) d a b w u x y z hN
  refine one rfl hN.symm h0 (by decide) ?_
  clear hN; unfold decodeNat; rw [(digits h0).1, (digits h0).2]
  show decode6 4 N 0 = _
  unfold decode6; simp only [h1, h2, h3, h4, h5, h6, h7, h8, Nat.reduceEqDiff, if_false, if_true]
theorem fnma (d : BitVec 6) (a : BitVec 6) (b : BitVec 6) (w : BitVec 2) (u : Bool) (x : Bool) (y : Bool) (z : Bool) : Statement (.fnma d a b w u x y z) := by
  obtain ⟨N, hN⟩ : ∃ N, N = (word 0x65000000 [(d.toNat, 18), (a.toNat, 12), (b.toNat, 6), (w.toNat, 4), (b2n u, 3), (b2n x, 2), (b2n y, 1), (b2n z, 0)]).toNat := ⟨_, rfl⟩
  obtain ⟨h0, h1, h2, h3, h4, h5, h6, h7, h8⟩ := lay17 _ 0x65 N (by decide) (by decide) d a b w u x y z hN
  refine one rfl hN.symm h0 (by decide) ?_
  clear hN; unfold decodeNat; rw [(digits h0).1, (digits h0).2]
  show decode6 5 N 0 = _
  unfold decode6; simp only [h1, h2, h3, h4, h5, h6, h7, h8, Nat.reduceEqDiff, if_false, if_true]
theorem fmin (d : BitVec 6) (a : BitVec 6) (b : BitVec 6) (w : BitVec 2) (u : Bool) (x : Bool) (y : Bool) : Statement (.fmin d a b w u x y) := by
  obtain ⟨N, hN⟩ : ∃ N, N = (word 0x66000000 [(d.toNat, 18), (a.toNat, 12), (b.toNat, 6), (w.toNat, 4), (b2n u, 3), (b2n x, 2), (b2n y, 1)]).toNat := ⟨_, rfl⟩
  obtain ⟨h0, h1, h2, h3, h4, h5, h6, h7, h8⟩ := lay16 _ 0x66 N (by decide) (by decide) d a b w u x y hN
  refine one rfl hN.symm h0 (by decide) ?_
  clear hN; unfold decodeNat; rw [(digits h0).1, (digits h0).2]
  show decode6 6 N 0 = _
  unfold decode6; simp only [h1, h2, h3, h4, h5, h6, h7, h8, beq_self_eq_true, Nat.reduceEqDiff, if_false, if_true]
theorem fmax (d : BitVec 6) (a : BitVec 6) (b : BitVec 6) (w : BitVec 2) (u : Bool) (x : Bool) (y : Bool) : Statement (.fmax d a b w u x y) := by
  obtain ⟨N, hN⟩ : ∃ N, N = (word 0x67000000 [(d.toNat, 18), (a.toNat, 12), (b.toNat, 6), (w.toNat, 4), (b2n u, 3), (b2n x, 2), (b2n y, 1)]).toNat := ⟨_, rfl⟩
  obtain ⟨h0, h1, h2, h3, h4, h5, h6, h7, h8⟩ := lay16 _ 0x67 N (by decide) (by decide) d a b w u x y hN
  refine one rfl hN.symm h0 (by decide) ?_
  clear hN; unfold decodeNat; rw [(digits h0).1, (digits h0).2]
  show decode6 7 N 0 = _
  unfold decode6; simp only [h1, h2, h3, h4, h5, h6, h7, h8, beq_self_eq_true, Nat.reduceEqDiff, if_false, if_true]
theorem fabs (d : BitVec 6) (a : BitVec 6) (w : BitVec 2) (u : Bool) (x : Bool) : Statement (.fabs d a w u x) := by
  obtain ⟨N, hN⟩ : ∃ N, N = (word 0x68000000 [(d.toNat, 18), (a.toNat, 12), (w.toNat, 4), (b2n u, 3), (b2n x, 2)]).toNat := ⟨_, rfl⟩
  obtain ⟨h0, h1, h2, h3, h4, h5, h6, h7⟩ := lay18 _ 0x68 N (by decide) (by decide) d a w u x hN
  refine one rfl hN.symm h0 (by decide) ?_
  clear hN; unfold decodeNat; rw [(digits h0).1, (digits h0).2]
  show decode6 8 N 0 = _
  unfold decode6; simp only [h1, h2, h3, h4, h5, h6, h7, beq_self_eq_true, Bool.and_self, Nat.reduceEqDiff, if_false, if_true]
theorem fneg (d : BitVec 6) (a : BitVec 6) (w : BitVec 2) (u : Bool) (x : Bool) : Statement (.fneg d a w u x) := by
  obtain ⟨N, hN⟩ : ∃ N, N = (word 0x69000000 [(d.toNat, 18), (a.toNat, 12), (w.toNat, 4), (b2n u, 3), (b2n x, 2)]).toNat := ⟨_, rfl⟩
  obtain ⟨h0, h1, h2, h3, h4, h5, h6, h7⟩ := lay18 _ 0x69 N (by decide) (by decide) d a w u x hN
  refine one rfl hN.symm h0 (by decide) ?_
  clear hN; unfold decodeNat; rw [(digits h0).1, (digits h0).2]
  show decode6 9 N 0 = _
  unfold decode6; simp only [h1, h2, h3, h4, h5, h6, h7, beq_self_eq_true, Bool.and_self, Nat.reduceEqDiff, if_false, if_true]
theorem fceq (d : BitVec 6) (a : BitVec 6) (b : BitVec 6) (w : BitVec 2) (u : Bool) (x : Bool) (y : Bool) : Statement (.fceq d a b w u x y) := by
  obtain ⟨N, hN⟩ : ∃ N, N = (word 0x6A000000 [(d.toNat, 18), (a.toNat, 12), (b.toNat, 6), (w.toNat, 4), (b2n u, 3), (b2n x, 2), (b2n y, 1)]).toNat := ⟨_, rfl⟩
  obtain ⟨h0, h1, h2, h3, h4, h5, h6, h7, h8⟩ := lay16 _ 0x6A N (by decide) (by decide) d a b w u x y hN
  refine one rfl hN.symm h0 (by decide) ?_
  clear hN; unfold decodeNat; rw [(digits h0).1, (digits h0).2]
  show decode6 10 N 0 = _
  unfold decode6; simp only [h1, h2, h3, h4, h5, h6, h7, h8, beq_self_eq_true, Nat.reduceEqDiff, if_false, if_true]
theorem fcne (d : BitVec 6) (a : BitVec 6) (b : BitVec 6) (w : BitVec 2) (u : Bool) (x : Bool) (y : Bool) : Statement (.fcne d a b w u x y) := by
  obtain ⟨N, hN⟩ : ∃ N, N = (word 0x6B000000 [(d.toNat, 18), (a.toNat, 12), (b.toNat, 6), (w.toNat, 4), (b2n u, 3), (b2n x, 2), (b2n y, 1)]).toNat := ⟨_, rfl⟩
  obtain ⟨h0, h1, h2, h3, h4, h5, h6, h7, h8⟩ := lay16 _ 0x6B N (by decide) (by decide) d a b w u x y hN
  refine one rfl hN.symm h0 (by decide) ?_
  clear hN; unfold decodeNat; rw [(digits h0).1, (digits h0).2]
  show decode6 11 N 0 = _
  unfold decode6; simp only [h1, h2, h3, h4, h5, h6, h7, h8, beq_self_eq_true, Nat.reduceEqDiff, if_false, if_true]
theorem fclt (d : BitVec 6) (a : BitVec 6) (b : BitVec 6) (w : BitVec 2) (u : Bool) (x : Bool) (y : Bool) : Statement (.fclt d a b w u x y) := by
  obtain ⟨N, hN⟩ : ∃ N, N = (word 0x6C000000 [(d.toNat, 18), (a.toNat, 12), (b.toNat, 6), (w.toNat, 4), (b2n u, 3), (b2n x, 2), (b2n y, 1)]).toNat := ⟨_, rfl⟩
  obtain ⟨h0, h1, h2, h3, h4, h5, h6, h7, h8⟩ := lay16 _ 0x6C N (by decide) (by decide) d a b w u x y hN
  refine one rfl hN.symm h0 (by decide) ?_
  clear hN; unfold decodeNat; rw [(digits h0).1, (digits h0).2]
  show decode6 12 N 0 = _
  unfold decode6; simp only [h1, h2, h3, h4, h5, h6, h7, h8, beq_self_eq_true, Nat.reduceEqDiff, if_false, if_true]
theorem fcle (d : BitVec 6) (a : BitVec 6) (b : BitVec 6) (w : BitVec 2) (u : Bool) (x : Bool) (y : Bool) : Statement (.fcle d a b w u x y) := by
  obtain ⟨N, hN⟩ : ∃ N, N = (word 0x6D000000 [(d.toNat, 18), (a.toNat, 12), (b.toNat, 6), (w.toNat, 4), (b2n u, 3), (b2n x, 2), (b2n y, 1)]).toNat := ⟨_, rfl⟩
  obtain ⟨h0, h1, h2, h3, h4, h5, h6, h7, h8⟩ := lay16 _ 0x6D N (by decide) (by decide) d a b w u x y hN
  refine one rfl hN.symm h0 (by decide) ?_
  clear hN; unfold decodeNat; rw [(digits h0).1, (digits h0).2]
  show decode6 13 N 0 = _
  unfold decode6; simp only [h1, h2, h3, h4, h5, h6, h7, h8, beq_self_eq_true, Nat.reduceEqDiff, if_false, if_true]
theorem fcun (d : BitVec 6) (a : BitVec 6) (b : BitVec 6) (w : BitVec 2) (u : Bool) (x : Bool) (y : Bool) : Statement (.fcun d a b w u x y) := by
  obtain ⟨N, hN⟩ : ∃ N, N = (word 0x6E000000 [(d.toNat, 18), (a.toNat, 12), (b.toNat, 6), (w.toNat, 4), (b2n u, 3), (b2n x, 2), (b2n y, 1)]).toNat := ⟨_, rfl⟩
  obtain ⟨h0, h1, h2, h3, h4, h5, h6, h7, h8⟩ := lay16 _ 0x6E N (by decide) (by decide) d a b w u x y hN
  refine one rfl hN.symm h0 (by decide) ?_
  clear hN; unfold decodeNat; rw [(digits h0).1, (digits h0).2]
  show decode6 14 N 0 = _
  unfold decode6; simp only [h1, h2, h3, h4, h5, h6, h7, h8, beq_self_eq_true, Nat.reduceEqDiff, if_false, if_true]
theorem fclass (d : BitVec 6) (a : BitVec 6) (w : BitVec 2) (u : Bool) (x : Bool) : Statement (.fclass d a w u x) := by
  obtain ⟨N, hN⟩ : ∃ N, N = (word 0x6F000000 [(d.toNat, 18), (a.toNat, 12), (w.toNat, 4), (b2n u, 3), (b2n x, 2)]).toNat := ⟨_, rfl⟩
  obtain ⟨h0, h1, h2, h3, h4, h5, h6, h7⟩ := lay18 _ 0x6F N (by decide) (by decide) d a w u x hN
  refine one rfl hN.symm h0 (by decide) ?_
  clear hN; unfold decodeNat; rw [(digits h0).1, (digits h0).2]
  show decode6 15 N 0 = _
  unfold decode6; simp only [h1, h2, h3, h4, h5, h6, h7, beq_self_eq_true, Bool.and_self, Nat.reduceEqDiff, if_false, if_true]
theorem frcp (d : BitVec 6) (a : BitVec 6) (w : BitVec 2) (u : Bool) (x : Bool) : Statement (.frcp d a w u x) := by
  obtain ⟨N, hN⟩ : ∃ N, N = (word 0x70000000 [(d.toNat, 18), (a.toNat, 12), (w.toNat, 4), (b2n u, 3), (b2n x, 2)]).toNat := ⟨_, rfl⟩
  obtain ⟨h0, h1, h2, h3, h4, h5, h6, h7⟩ := lay18 _ 0x70 N (by decide) (by decide) d a w u x hN
  refine one rfl hN.symm h0 (by decide) ?_
  clear hN; unfold decodeNat; rw [(digits h0).1, (digits h0).2]
  show decode7 0 N 0 = _
  unfold decode7; simp only [h1, h2, h3, h4, h5, h6, h7, beq_self_eq_true, Bool.and_self, if_true]
theorem frsq (d : BitVec 6) (a : BitVec 6) (w : BitVec 2) (u : Bool) (x : Bool) : Statement (.frsq d a w u x) := by
  obtain ⟨N, hN⟩ : ∃ N, N = (word 0x71000000 [(d.toNat, 18), (a.toNat, 12), (w.toNat, 4), (b2n u, 3), (b2n x, 2)]).toNat := ⟨_, rfl⟩
  obtain ⟨h0, h1, h2, h3, h4, h5, h6, h7⟩ := lay18 _ 0x71 N (by decide) (by decide) d a w u x hN
  refine one rfl hN.symm h0 (by decide) ?_
  clear hN; unfold decodeNat; rw [(digits h0).1, (digits h0).2]
  show decode7 1 N 0 = _
  unfold decode7; simp only [h1, h2, h3, h4, h5, h6, h7, beq_self_eq_true, Bool.and_self, Nat.reduceEqDiff, if_false, if_true]
theorem fsqrt (d : BitVec 6) (a : BitVec 6) (w : BitVec 2) (u : Bool) (x : Bool) : Statement (.fsqrt d a w u x) := by
  obtain ⟨N, hN⟩ : ∃ N, N = (word 0x72000000 [(d.toNat, 18), (a.toNat, 12), (w.toNat, 4), (b2n u, 3), (b2n x, 2)]).toNat := ⟨_, rfl⟩
  obtain ⟨h0, h1, h2, h3, h4, h5, h6, h7⟩ := lay18 _ 0x72 N (by decide) (by decide) d a w u x hN
  refine one rfl hN.symm h0 (by decide) ?_
  clear hN; unfold decodeNat; rw [(digits h0).1, (digits h0).2]
  show decode7 2 N 0 = _
  unfold decode7; simp only [h1, h2, h3, h4, h5, h6, h7, beq_self_eq_true, Bool.and_self, Nat.reduceEqDiff, if_false, if_true]
theorem fdiv (d : BitVec 6) (a : BitVec 6) (b : BitVec 6) (w : BitVec 2) (u : Bool) (x : Bool) (y : Bool) : Statement (.fdiv d a b w u x y) := by
  obtain ⟨N, hN⟩ : ∃ N, N = (word 0x73000000 [(d.toNat, 18), (a.toNat, 12), (b.toNat, 6), (w.toNat, 4), (b2n u, 3), (b2n x, 2), (b2n y, 1)]).toNat := ⟨_, rfl⟩
  obtain ⟨h0, h1, h2, h3, h4, h5, h6, h7, h8⟩ := lay16 _ 0x73 N (by decide) (by decide) d a b w u x y hN
  refine one rfl hN.symm h0 (by decide) ?_
  clear hN; unfold decodeNat; rw [(digits h0).1, (digits h0).2]
  show decode7 3 N 0 = _
  unfold decode7; simp only [h1, h2, h3, h4, h5, h6, h7, h8, beq_self_eq_true, Nat.reduceEqDiff, if_false, if_true]
theorem fexp2 (d : BitVec 6) (a : BitVec 6) (w : BitVec 2) (u : Bool) (x : Bool) : Statement (.fexp2 d a w u x) := by
  obtain ⟨N, hN⟩ : ∃ N, N = (word 0x74000000 [(d.toNat, 18), (a.toNat, 12), (w.toNat, 4), (b2n u, 3), (b2n x, 2)]).toNat := ⟨_, rfl⟩
  obtain ⟨h0, h1, h2, h3, h4, h5, h6, h7⟩ := lay18 _ 0x74 N (by decide) (by decide) d a w u x hN
  refine one rfl hN.symm h0 (by decide) ?_
  clear hN; unfold decodeNat; rw [(digits h0).1, (digits h0).2]
  show decode7 4 N 0 = _
  unfold decode7; simp only [h1, h2, h3, h4, h5, h6, h7, beq_self_eq_true, Bool.and_self, Nat.reduceEqDiff, if_false, if_true]
theorem flog2 (d : BitVec 6) (a : BitVec 6) (w : BitVec 2) (u : Bool) (x : Bool) : Statement (.flog2 d a w u x) := by
  obtain ⟨N, hN⟩ : ∃ N, N = (word 0x75000000 [(d.toNat, 18), (a.toNat, 12), (w.toNat, 4), (b2n u, 3), (b2n x, 2)]).toNat := ⟨_, rfl⟩
  obtain ⟨h0, h1, h2, h3, h4, h5, h6, h7⟩ := lay18 _ 0x75 N (by decide) (by decide) d a w u x hN
  refine one rfl hN.symm h0 (by decide) ?_
  clear hN; unfold decodeNat; rw [(digits h0).1, (digits h0).2]
  show decode7 5 N 0 = _
  unfold decode7; simp only [h1, h2, h3, h4, h5, h6, h7, beq_self_eq_true, Bool.and_self, Nat.reduceEqDiff, if_false, if_true]
theorem fsin (d : BitVec 6) (a : BitVec 6) (w : BitVec 2) (u : Bool) (x : Bool) : Statement (.fsin d a w u x) := by
  obtain ⟨N, hN⟩ : ∃ N, N = (word 0x76000000 [(d.toNat, 18), (a.toNat, 12), (w.toNat, 4), (b2n u, 3), (b2n x, 2)]).toNat := ⟨_, rfl⟩
  obtain ⟨h0, h1, h2, h3, h4, h5, h6, h7⟩ := lay18 _ 0x76 N (by decide) (by decide) d a w u x hN
  refine one rfl hN.symm h0 (by decide) ?_
  clear hN; unfold decodeNat; rw [(digits h0).1, (digits h0).2]
  show decode7 6 N 0 = _
  unfold decode7; simp only [h1, h2, h3, h4, h5, h6, h7, beq_self_eq_true, Bool.and_self, Nat.reduceEqDiff, if_false, if_true]
theorem fcos (d : BitVec 6) (a : BitVec 6) (w : BitVec 2) (u : Bool) (x : Bool) : Statement (.fcos d a w u x) := by
  obtain ⟨N, hN⟩ : ∃ N, N = (word 0x77000000 [(d.toNat, 18), (a.toNat, 12), (w.toNat, 4), (b2n u, 3), (b2n x, 2)]).toNat := ⟨_, rfl⟩
  obtain ⟨h0, h1, h2, h3, h4, h5, h6, h7⟩ := lay18 _ 0x77 N (by decide) (by decide) d a w u x hN
  refine one rfl hN.symm h0 (by decide) ?_
  clear hN; unfold decodeNat; rw [(digits h0).1, (digits h0).2]
  show decode7 7 N 0 = _
  unfold decode7; simp only [h1, h2, h3, h4, h5, h6, h7, beq_self_eq_true, Bool.and_self, Nat.reduceEqDiff, if_false, if_true]
theorem ftanh (d : BitVec 6) (a : BitVec 6) (w : BitVec 2) (u : Bool) (x : Bool) : Statement (.ftanh d a w u x) := by
  obtain ⟨N, hN⟩ : ∃ N, N = (word 0x78000000 [(d.toNat, 18), (a.toNat, 12), (w.toNat, 4), (b2n u, 3), (b2n x, 2)]).toNat := ⟨_, rfl⟩
  obtain ⟨h0, h1, h2, h3, h4, h5, h6, h7⟩ := lay18 _ 0x78 N (by decide) (by decide) d a w u x hN
  refine one rfl hN.symm h0 (by decide) ?_
  clear hN; unfold decodeNat; rw [(digits h0).1, (digits h0).2]
  show decode7 8 N 0 = _
  unfold decode7; simp only [h1, h2, h3, h4, h5, h6, h7, beq_self_eq_true, Bool.and_self, Nat.reduceEqDiff, if_false, if_true]
theorem fsig (d : BitVec 6) (a : BitVec 6) (w : BitVec 2) (u : Bool) (x : Bool) : Statement (.fsig d a w u x) := by
  obtain ⟨N, hN⟩ : ∃ N, N = (word 0x79000000 [(d.toNat, 18), (a.toNat, 12), (w.toNat, 4), (b2n u, 3), (b2n x, 2)]).toNat := ⟨_, rfl⟩
  obtain ⟨h0, h1, h2, h3, h4, h5, h6, h7⟩ := lay18 _ 0x79 N (by decide) (by decide) d a w u x hN
  refine one rfl hN.symm h0 (by decide) ?_
  clear hN; unfold decodeNat; rw [(digits h0).1, (digits h0).2]
  show decode7 9 N 0 = _
  unfold decode7; simp only [h1, h2, h3, h4, h5, h6, h7, beq_self_eq_true, Bool.and_self, Nat.reduceEqDiff, if_false, if_true]
theorem ffrac (d : BitVec 6) (a : BitVec 6) (w : BitVec 2) (u : Bool) (x : Bool) : Statement (.ffrac d a w u x) := by
  obtain ⟨N, hN⟩ : ∃ N, N = (word 0x7A000000 [(d.toNat, 18), (a.toNat, 12), (w.toNat, 4), (b2n u, 3), (b2n x, 2)]).toNat := ⟨_, rfl⟩
  obtain ⟨h0, h1, h2, h3, h4, h5, h6, h7⟩ := lay18 _ 0x7A N (by decide) (by decide) d a w u x hN
  refine one rfl hN.symm h0 (by decide) ?_
  clear hN; unfold decodeNat; rw [(digits h0).1, (digits h0).2]
  show decode7 10 N 0 = _
  unfold decode7; simp only [h1, h2, h3, h4, h5, h6, h7, beq_self_eq_true, Bool.and_self, Nat.reduceEqDiff, if_false, if_true]
theorem frnd (d : BitVec 6) (a : BitVec 6) (w : BitVec 2) (u : Bool) (x : Bool) : Statement (.frnd d a w u x) := by
  obtain ⟨N, hN⟩ : ∃ N, N = (word 0x7B000000 [(d.toNat, 18), (a.toNat, 12), (w.toNat, 4), (b2n u, 3), (b2n x, 2)]).toNat := ⟨_, rfl⟩
  obtain ⟨h0, h1, h2, h3, h4, h5, h6, h7⟩ := lay18 _ 0x7B N (by decide) (by decide) d a w u x hN
  refine one rfl hN.symm h0 (by decide) ?_
  clear hN; unfold decodeNat; rw [(digits h0).1, (digits h0).2]
  show decode7 11 N 0 = _
  unfold decode7; simp only [h1, h2, h3, h4, h5, h6, h7, beq_self_eq_true, Bool.and_self, Nat.reduceEqDiff, if_false, if_true]
theorem fscale (d : BitVec 6) (a : BitVec 6) (b : BitVec 6) (w : BitVec 2) (u : Bool) (x : Bool) (y : Bool) : Statement (.fscale d a b w u x y) := by
  obtain ⟨N, hN⟩ : ∃ N, N = (word 0x7C000000 [(d.toNat, 18), (a.toNat, 12), (b.toNat, 6), (w.toNat, 4), (b2n u, 3), (b2n x, 2), (b2n y, 1)]).toNat := ⟨_, rfl⟩
  obtain ⟨h0, h1, h2, h3, h4, h5, h6, h7, h8⟩ := lay16 _ 0x7C N (by decide) (by decide) d a b w u x y hN
  refine one rfl hN.symm h0 (by decide) ?_
  clear hN; unfold decodeNat; rw [(digits h0).1, (digits h0).2]
  show decode7 12 N 0 = _
  unfold decode7; simp only [h1, h2, h3, h4, h5, h6, h7, h8, beq_self_eq_true, Nat.reduceEqDiff, if_false, if_true]
theorem fcpys (d : BitVec 6) (a : BitVec 6) (b : BitVec 6) (w : BitVec 2) (u : Bool) (x : Bool) (y : Bool) : Statement (.fcpys d a b w u x y) := by
  obtain ⟨N, hN⟩ : ∃ N, N = (word 0x7D000000 [(d.toNat, 18), (a.toNat, 12), (b.toNat, 6), (w.toNat, 4), (b2n u, 3), (b2n x, 2), (b2n y, 1)]).toNat := ⟨_, rfl⟩
  obtain ⟨h0, h1, h2, h3, h4, h5, h6, h7, h8⟩ := lay16 _ 0x7D N (by decide) (by decide) d a b w u x y hN
  refine one rfl hN.symm h0 (by decide) ?_
  clear hN; unfold decodeNat; rw [(digits h0).1, (digits h0).2]
  show decode7 13 N 0 = _
  unfold decode7; simp only [h1, h2, h3, h4, h5, h6, h7, h8, beq_self_eq_true, Nat.reduceEqDiff, if_false, if_true]
theorem fsat (d : BitVec 6) (a : BitVec 6) (w : BitVec 2) (u : Bool) (x : Bool) : Statement (.fsat d a w u x) := by
  obtain ⟨N, hN⟩ : ∃ N, N = (word 0x7E000000 [(d.toNat, 18), (a.toNat, 12), (w.toNat, 4), (b2n u, 3), (b2n x, 2)]).toNat := ⟨_, rfl⟩
  obtain ⟨h0, h1, h2, h3, h4, h5, h6, h7⟩ := lay18 _ 0x7E N (by decide) (by decide) d a w u x hN
  refine one rfl hN.symm h0 (by decide) ?_
  clear hN; unfold decodeNat; rw [(digits h0).1, (digits h0).2]
  show decode7 14 N 0 = _
  unfold decode7; simp only [h1, h2, h3, h4, h5, h6, h7, beq_self_eq_true, Bool.and_self, Nat.reduceEqDiff, if_false, if_true]
theorem flagrd (d : BitVec 6) (b : BitVec 6) (w : BitVec 2) : Statement (.flagrd d b w) := by
  obtain ⟨N, hN⟩ : ∃ N, N = (word 0x7F000008 [(d.toNat, 18), (b.toNat, 6), (w.toNat, 4)]).toNat := ⟨_, rfl⟩
  obtain ⟨h0, h1, h2, h3, h4, h5⟩ := lay29 _ 0x7F N (by decide) (by decide) d b w hN
  refine one rfl hN.symm h0 (by decide) ?_
  clear hN; unfold decodeNat; rw [(digits h0).1, (digits h0).2]
  show decode7 15 N 0 = _
  unfold decode7; simp only [h1, h2, h3, h4, h5, beq_self_eq_true, Bool.and_self, Nat.reduceEqDiff, if_false, if_true]
theorem fadde (d : BitVec 6) (a : BitVec 6) (b : BitVec 6) (w : BitVec 2) (u : Bool) (x : Bool) (y : Bool) : Statement (.fadde d a b w u x y) := by
  obtain ⟨N, hN⟩ : ∃ N, N = (word 0x80000000 [(d.toNat, 18), (a.toNat, 12), (b.toNat, 6), (w.toNat, 4), (b2n u, 3), (b2n x, 2), (b2n y, 1)]).toNat := ⟨_, rfl⟩
  obtain ⟨h0, h1, h2, h3, h4, h5, h6, h7, h8⟩ := lay16 _ 0x80 N (by decide) (by decide) d a b w u x y hN
  refine one rfl hN.symm h0 (by decide) ?_
  clear hN; unfold decodeNat; rw [(digits h0).1, (digits h0).2]
  show decode8 0 N 0 = _
  unfold decode8; simp only [h1, h2, h3, h4, h5, h6, h7, h8, beq_self_eq_true, if_true]
theorem fsube (d : BitVec 6) (a : BitVec 6) (b : BitVec 6) (w : BitVec 2) (u : Bool) (x : Bool) (y : Bool) : Statement (.fsube d a b w u x y) := by
  obtain ⟨N, hN⟩ : ∃ N, N = (word 0x81000000 [(d.toNat, 18), (a.toNat, 12), (b.toNat, 6), (w.toNat, 4), (b2n u, 3), (b2n x, 2), (b2n y, 1)]).toNat := ⟨_, rfl⟩
  obtain ⟨h0, h1, h2, h3, h4, h5, h6, h7, h8⟩ := lay16 _ 0x81 N (by decide) (by decide) d a b w u x y hN
  refine one rfl hN.symm h0 (by decide) ?_
  clear hN; unfold decodeNat; rw [(digits h0).1, (digits h0).2]
  show decode8 1 N 0 = _
  unfold decode8; simp only [h1, h2, h3, h4, h5, h6, h7, h8, beq_self_eq_true, Nat.reduceEqDiff, if_false, if_true]
theorem fmule (d : BitVec 6) (a : BitVec 6) (b : BitVec 6) (w : BitVec 2) (u : Bool) (x : Bool) (y : Bool) : Statement (.fmule d a b w u x y) := by
  obtain ⟨N, hN⟩ : ∃ N, N = (word 0x82000000 [(d.toNat, 18), (a.toNat, 12), (b.toNat, 6), (w.toNat, 4), (b2n u, 3), (b2n x, 2), (b2n y, 1)]).toNat := ⟨_, rfl⟩
  obtain ⟨h0, h1, h2, h3, h4, h5, h6, h7, h8⟩ := lay16 _ 0x82 N (by decide) (by decide) d a b w u x y hN
  refine one rfl hN.symm h0 (by decide) ?_
  clear hN; unfold decodeNat; rw [(digits h0).1, (digits h0).2]
  show decode8 2 N 0 = _
  unfold decode8; simp only [h1, h2, h3, h4, h5, h6, h7, h8, beq_self_eq_true, Nat.reduceEqDiff, if_false, if_true]
theorem facc (d : BitVec 6) (a : BitVec 6) (w : BitVec 2) (u : Bool) (x : Bool) (z : Bool) : Statement (.facc d a w u x z) := by
  obtain ⟨N, hN⟩ : ∃ N, N = (word 0x83000000 [(d.toNat, 18), (a.toNat, 12), (w.toNat, 4), (b2n u, 3), (b2n x, 2), (b2n z, 0)]).toNat := ⟨_, rfl⟩
  obtain ⟨h0, h1, h2, h3, h4, h5, h6, h7, h8⟩ := lay30 _ 0x83 N (by decide) (by decide) d a w u x z hN
  refine one rfl hN.symm h0 (by decide) ?_
  clear hN; unfold decodeNat; rw [(digits h0).1, (digits h0).2]
  show decode8 3 N 0 = _
  unfold decode8; simp only [h1, h2, h3, h4, h5, h6, h7, h8, beq_self_eq_true, Bool.and_self, Nat.reduceEqDiff, if_false, if_true]
theorem dwadd (d : BitVec 6) (a : BitVec 6) (b : BitVec 6) (w : BitVec 2) (u : Bool) (x : Bool) (y : Bool) : Statement (.dwadd d a b w u x y) := by
  obtain ⟨N, hN⟩ : ∃ N, N = (word 0x84000000 [(d.toNat, 18), (a.toNat, 12), (b.toNat, 6), (w.toNat, 4), (b2n u, 3), (b2n x, 2), (b2n y, 1)]).toNat := ⟨_, rfl⟩
  obtain ⟨h0, h1, h2, h3, h4, h5, h6, h7, h8⟩ := lay16 _ 0x84 N (by decide) (by decide) d a b w u x y hN
  refine one rfl hN.symm h0 (by decide) ?_
  clear hN; unfold decodeNat; rw [(digits h0).1, (digits h0).2]
  show decode8 4 N 0 = _
  unfold decode8; simp only [h1, h2, h3, h4, h5, h6, h7, h8, beq_self_eq_true, Nat.reduceEqDiff, if_false, if_true]
theorem dwsub (d : BitVec 6) (a : BitVec 6) (b : BitVec 6) (w : BitVec 2) (u : Bool) (x : Bool) (y : Bool) : Statement (.dwsub d a b w u x y) := by
  obtain ⟨N, hN⟩ : ∃ N, N = (word 0x85000000 [(d.toNat, 18), (a.toNat, 12), (b.toNat, 6), (w.toNat, 4), (b2n u, 3), (b2n x, 2), (b2n y, 1)]).toNat := ⟨_, rfl⟩
  obtain ⟨h0, h1, h2, h3, h4, h5, h6, h7, h8⟩ := lay16 _ 0x85 N (by decide) (by decide) d a b w u x y hN
  refine one rfl hN.symm h0 (by decide) ?_
  clear hN; unfold decodeNat; rw [(digits h0).1, (digits h0).2]
  show decode8 5 N 0 = _
  unfold decode8; simp only [h1, h2, h3, h4, h5, h6, h7, h8, beq_self_eq_true, Nat.reduceEqDiff, if_false, if_true]
theorem dwmul (d : BitVec 6) (a : BitVec 6) (b : BitVec 6) (w : BitVec 2) (u : Bool) (x : Bool) (y : Bool) : Statement (.dwmul d a b w u x y) := by
  obtain ⟨N, hN⟩ : ∃ N, N = (word 0x86000000 [(d.toNat, 18), (a.toNat, 12), (b.toNat, 6), (w.toNat, 4), (b2n u, 3), (b2n x, 2), (b2n y, 1)]).toNat := ⟨_, rfl⟩
  obtain ⟨h0, h1, h2, h3, h4, h5, h6, h7, h8⟩ := lay16 _ 0x86 N (by decide) (by decide) d a b w u x y hN
  refine one rfl hN.symm h0 (by decide) ?_
  clear hN; unfold decodeNat; rw [(digits h0).1, (digits h0).2]
  show decode8 6 N 0 = _
  unfold decode8; simp only [h1, h2, h3, h4, h5, h6, h7, h8, beq_self_eq_true, Nat.reduceEqDiff, if_false, if_true]
theorem dwaddf (d : BitVec 6) (a : BitVec 6) (b : BitVec 6) (w : BitVec 2) (u : Bool) (x : Bool) (y : Bool) : Statement (.dwaddf d a b w u x y) := by
  obtain ⟨N, hN⟩ : ∃ N, N = (word 0x87000000 [(d.toNat, 18), (a.toNat, 12), (b.toNat, 6), (w.toNat, 4), (b2n u, 3), (b2n x, 2), (b2n y, 1)]).toNat := ⟨_, rfl⟩
  obtain ⟨h0, h1, h2, h3, h4, h5, h6, h7, h8⟩ := lay16 _ 0x87 N (by decide) (by decide) d a b w u x y hN
  refine one rfl hN.symm h0 (by decide) ?_
  clear hN; unfold decodeNat; rw [(digits h0).1, (digits h0).2]
  show decode8 7 N 0 = _
  unfold decode8; simp only [h1, h2, h3, h4, h5, h6, h7, h8, beq_self_eq_true, Nat.reduceEqDiff, if_false, if_true]
theorem dwmulf (d : BitVec 6) (a : BitVec 6) (b : BitVec 6) (w : BitVec 2) (u : Bool) (x : Bool) (y : Bool) : Statement (.dwmulf d a b w u x y) := by
  obtain ⟨N, hN⟩ : ∃ N, N = (word 0x88000000 [(d.toNat, 18), (a.toNat, 12), (b.toNat, 6), (w.toNat, 4), (b2n u, 3), (b2n x, 2), (b2n y, 1)]).toNat := ⟨_, rfl⟩
  obtain ⟨h0, h1, h2, h3, h4, h5, h6, h7, h8⟩ := lay16 _ 0x88 N (by decide) (by decide) d a b w u x y hN
  refine one rfl hN.symm h0 (by decide) ?_
  clear hN; unfold decodeNat; rw [(digits h0).1, (digits h0).2]
  show decode8 8 N 0 = _
  unfold decode8; simp only [h1, h2, h3, h4, h5, h6, h7, h8, beq_self_eq_true, Nat.reduceEqDiff, if_false, if_true]
theorem dwdiv (d : BitVec 6) (a : BitVec 6) (b : BitVec 6) (w : BitVec 2) (u : Bool) (x : Bool) (y : Bool) : Statement (.dwdiv d a b w u x y) := by
  obtain ⟨N, hN⟩ : ∃ N, N = (word 0x89000000 [(d.toNat, 18), (a.toNat, 12), (b.toNat, 6), (w.toNat, 4), (b2n u, 3), (b2n x, 2), (b2n y, 1)]).toNat := ⟨_, rfl⟩
  obtain ⟨h0, h1, h2, h3, h4, h5, h6, h7, h8⟩ := lay16 _ 0x89 N (by decide) (by decide) d a b w u x y hN
  refine one rfl hN.symm h0 (by decide) ?_
  clear hN; unfold decodeNat; rw [(digits h0).1, (digits h0).2]
  show decode8 9 N 0 = _
  unfold decode8; simp only [h1, h2, h3, h4, h5, h6, h7, h8, beq_self_eq_true, Nat.reduceEqDiff, if_false, if_true]
theorem dwsqrt (d : BitVec 6) (a : BitVec 6) (w : BitVec 2) (u : Bool) (x : Bool) : Statement (.dwsqrt d a w u x) := by
  obtain ⟨N, hN⟩ : ∃ N, N = (word 0x8A000000 [(d.toNat, 18), (a.toNat, 12), (w.toNat, 4), (b2n u, 3), (b2n x, 2)]).toNat := ⟨_, rfl⟩
  obtain ⟨h0, h1, h2, h3, h4, h5, h6, h7⟩ := lay18 _ 0x8A N (by decide) (by decide) d a w u x hN
  refine one rfl hN.symm h0 (by decide) ?_
  clear hN; unfold decodeNat; rw [(digits h0).1, (digits h0).2]
  show decode8 10 N 0 = _
  unfold decode8; simp only [h1, h2, h3, h4, h5, h6, h7, beq_self_eq_true, Bool.and_self, Nat.reduceEqDiff, if_false, if_true]
theorem dwnorm (d : BitVec 6) (a : BitVec 6) (w : BitVec 2) (u : Bool) (x : Bool) : Statement (.dwnorm d a w u x) := by
  obtain ⟨N, hN⟩ : ∃ N, N = (word 0x8B000000 [(d.toNat, 18), (a.toNat, 12), (w.toNat, 4), (b2n u, 3), (b2n x, 2)]).toNat := ⟨_, rfl⟩
  obtain ⟨h0, h1, h2, h3, h4, h5, h6, h7⟩ := lay18 _ 0x8B N (by decide) (by decide) d a w u x hN
  refine one rfl hN.symm h0 (by decide) ?_
  clear hN; unfold decodeNat; rw [(digits h0).1, (digits h0).2]
  show decode8 11 N 0 = _
  unfold decode8; simp only [h1, h2, h3, h4, h5, h6, h7, beq_self_eq_true, Bool.and_self, Nat.reduceEqDiff, if_false, if_true]
theorem dwtof (d : BitVec 6) (a : BitVec 6) (w : BitVec 2) (u : Bool) (x : Bool) : Statement (.dwtof d a w u x) := by
  obtain ⟨N, hN⟩ : ∃ N, N = (word 0x8C000000 [(d.toNat, 18), (a.toNat, 12), (w.toNat, 4), (b2n u, 3), (b2n x, 2)]).toNat := ⟨_, rfl⟩
  obtain ⟨h0, h1, h2, h3, h4, h5, h6, h7⟩ := lay18 _ 0x8C N (by decide) (by decide) d a w u x hN
  refine one rfl hN.symm h0 (by decide) ?_
  clear hN; unfold decodeNat; rw [(digits h0).1, (digits h0).2]
  show decode8 12 N 0 = _
  unfold decode8; simp only [h1, h2, h3, h4, h5, h6, h7, beq_self_eq_true, Bool.and_self, Nat.reduceEqDiff, if_false, if_true]
theorem dwclt (d : BitVec 6) (a : BitVec 6) (b : BitVec 6) (w : BitVec 2) (u : Bool) (x : Bool) (y : Bool) : Statement (.dwclt d a b w u x y) := by
  obtain ⟨N, hN⟩ : ∃ N, N = (word 0x8D000000 [(d.toNat, 18), (a.toNat, 12), (b.toNat, 6), (w.toNat, 4), (b2n u, 3), (b2n x, 2), (b2n y, 1)]).toNat := ⟨_, rfl⟩
  obtain ⟨h0, h1, h2, h3, h4, h5, h6, h7, h8⟩ := lay16 _ 0x8D N (by decide) (by decide) d a b w u x y hN
  refine one rfl hN.symm h0 (by decide) ?_
  clear hN; unfold decodeNat; rw [(digits h0).1, (digits h0).2]
  show decode8 13 N 0 = _
  unfold decode8; simp only [h1, h2, h3, h4, h5, h6, h7, h8, beq_self_eq_true, Nat.reduceEqDiff, if_false, if_true]
theorem dwceq (d : BitVec 6) (a : BitVec 6) (b : BitVec 6) (w : BitVec 2) (u : Bool) (x : Bool) (y : Bool) : Statement (.dwceq d a b w u x y) := by
  obtain ⟨N, hN⟩ : ∃ N, N = (word 0x8E000000 [(d.toNat, 18), (a.toNat, 12), (b.toNat, 6), (w.toNat, 4), (b2n u, 3), (b2n x, 2), (b2n y, 1)]).toNat := ⟨_, rfl⟩
  obtain ⟨h0, h1, h2, h3, h4, h5, h6, h7, h8⟩ := lay16 _ 0x8E N (by decide) (by decide) d a b w u x y hN
  refine one rfl hN.symm h0 (by decide) ?_
  clear hN; unfold decodeNat; rw [(digits h0).1, (digits h0).2]
  show decode8 14 N 0 = _
  unfold decode8; simp only [h1, h2, h3, h4, h5, h6, h7, h8, beq_self_eq_true, Nat.reduceEqDiff, if_false, if_true]
theorem cvtff (d : BitVec 6) (a : BitVec 6) (t : BitVec 3) (u : Bool) (s : BitVec 3) : Statement (.cvtff d a t u s) := by
  obtain ⟨N, hN⟩ : ∃ N, N = (word 0x90000000 [(d.toNat, 18), (a.toNat, 12), (t.toNat, 6), (b2n u, 5), (s.toNat, 0)]).toNat := ⟨_, rfl⟩
  obtain ⟨h0, h1, h2, h3, h4, h5, h6, h7⟩ := lay31 _ 0x90 N (by decide) (by decide) d a t u s hN
  refine one rfl hN.symm h0 (by decide) ?_
  clear hN; unfold decodeNat; rw [(digits h0).1, (digits h0).2]
  show decode9 0 N 0 = _
  unfold decode9; simp only [h1, h2, h3, h4, h5, h6, h7, beq_self_eq_true, Bool.and_self, if_true]
theorem cvtfi (d : BitVec 6) (a : BitVec 6) (t : BitVec 3) (u : Bool) (s : BitVec 3) : Statement (.cvtfi d a t u s) := by
  obtain ⟨N, hN⟩ : ∃ N, N = (word 0x91000000 [(d.toNat, 18), (a.toNat, 12), (t.toNat, 6), (b2n u, 5), (s.toNat, 0)]).toNat := ⟨_, rfl⟩
  obtain ⟨h0, h1, h2, h3, h4, h5, h6, h7⟩ := lay31 _ 0x91 N (by decide) (by decide) d a t u s hN
  refine one rfl hN.symm h0 (by decide) ?_
  clear hN; unfold decodeNat; rw [(digits h0).1, (digits h0).2]
  show decode9 1 N 0 = _
  unfold decode9; simp only [h1, h2, h3, h4, h5, h6, h7, beq_self_eq_true, Bool.and_self, Nat.reduceEqDiff, if_false, if_true]
theorem cvtif (d : BitVec 6) (a : BitVec 6) (t : BitVec 3) (u : Bool) (s : BitVec 3) : Statement (.cvtif d a t u s) := by
  obtain ⟨N, hN⟩ : ∃ N, N = (word 0x92000000 [(d.toNat, 18), (a.toNat, 12), (t.toNat, 6), (b2n u, 5), (s.toNat, 0)]).toNat := ⟨_, rfl⟩
  obtain ⟨h0, h1, h2, h3, h4, h5, h6, h7⟩ := lay31 _ 0x92 N (by decide) (by decide) d a t u s hN
  refine one rfl hN.symm h0 (by decide) ?_
  clear hN; unfold decodeNat; rw [(digits h0).1, (digits h0).2]
  show decode9 2 N 0 = _
  unfold decode9; simp only [h1, h2, h3, h4, h5, h6, h7, beq_self_eq_true, Bool.and_self, Nat.reduceEqDiff, if_false, if_true]
theorem pack (d : BitVec 6) (a : BitVec 6) (b : BitVec 6) (u : Bool) (c : BitVec 4) : Statement (.pack d a b u c) := by
  obtain ⟨N, hN⟩ : ∃ N, N = (word 0x93000000 [(d.toNat, 18), (a.toNat, 12), (b.toNat, 6), (b2n u, 5), (c.toNat, 0)]).toNat := ⟨_, rfl⟩
  obtain ⟨h0, h1, h2, h3, h4, h5, h6⟩ := lay21 _ 0x93 N (by decide) (by decide) d a b u c hN
  refine one rfl hN.symm h0 (by decide) ?_
  clear hN; unfold decodeNat; rw [(digits h0).1, (digits h0).2]
  show decode9 3 N 0 = _
  unfold decode9; simp only [h1, h2, h3, h4, h5, h6, beq_self_eq_true, Nat.reduceEqDiff, if_false, if_true]
theorem unpk (d : BitVec 6) (a : BitVec 6) (u : Bool) (c : BitVec 4) : Statement (.unpk d a u c) := by
  obtain ⟨N, hN⟩ : ∃ N, N = (word 0x94000000 [(d.toNat, 18), (a.toNat, 12), (b2n u, 5), (c.toNat, 0)]).toNat := ⟨_, rfl⟩
  obtain ⟨h0, h1, h2, h3, h4, h5, h6⟩ := lay32 _ 0x94 N (by decide) (by decide) d a u c hN
  refine one rfl hN.symm h0 (by decide) ?_
  clear hN; unfold decodeNat; rw [(digits h0).1, (digits h0).2]
  show decode9 4 N 0 = _
  unfold decode9; simp only [h1, h2, h3, h4, h5, h6, beq_self_eq_true, Bool.and_self, Nat.reduceEqDiff, if_false, if_true]
theorem pack8 (d : BitVec 6) (a : BitVec 6) (b : BitVec 6) (u : Bool) (c : BitVec 4) : Statement (.pack8 d a b u c) := by
  obtain ⟨N, hN⟩ : ∃ N, N = (word 0x95000000 [(d.toNat, 18), (a.toNat, 12), (b.toNat, 6), (b2n u, 5), (c.toNat, 0)]).toNat := ⟨_, rfl⟩
  obtain ⟨h0, h1, h2, h3, h4, h5, h6⟩ := lay21 _ 0x95 N (by decide) (by decide) d a b u c hN
  refine one rfl hN.symm h0 (by decide) ?_
  clear hN; unfold decodeNat; rw [(digits h0).1, (digits h0).2]
  show decode9 5 N 0 = _
  unfold decode9; simp only [h1, h2, h3, h4, h5, h6, beq_self_eq_true, Nat.reduceEqDiff, if_false, if_true]
theorem unpk8 (d : BitVec 6) (a : BitVec 6) (u : Bool) (c : BitVec 4) : Statement (.unpk8 d a u c) := by
  obtain ⟨N, hN⟩ : ∃ N, N = (word 0x96000000 [(d.toNat, 18), (a.toNat, 12), (b2n u, 5), (c.toNat, 0)]).toNat := ⟨_, rfl⟩
  obtain ⟨h0, h1, h2, h3, h4, h5, h6⟩ := lay32 _ 0x96 N (by decide) (by decide) d a u c hN
  refine one rfl hN.symm h0 (by decide) ?_
  clear hN; unfold decodeNat; rw [(digits h0).1, (digits h0).2]
  show decode9 6 N 0 = _
  unfold decode9; simp only [h1, h2, h3, h4, h5, h6, beq_self_eq_true, Bool.and_self, Nat.reduceEqDiff, if_false, if_true]
theorem qnt4 (d : BitVec 6) (a : BitVec 6) (b : BitVec 6) (u : Bool) (t : Bool) : Statement (.qnt4 d a b u t) := by
  obtain ⟨N, hN⟩ : ∃ N, N = (word 0x97000000 [(d.toNat, 18), (a.toNat, 12), (b.toNat, 6), (b2n u, 5), (b2n t, 0)]).toNat := ⟨_, rfl⟩
  obtain ⟨h0, h1, h2, h3, h4, h5, h6⟩ := lay19 _ 0x97 N (by decide) (by decide) d a b u t hN
  refine one rfl hN.symm h0 (by decide) ?_
  clear hN; unfold decodeNat; rw [(digits h0).1, (digits h0).2]
  show decode9 7 N 0 = _
  unfold decode9; simp only [h1, h2, h3, h4, h5, h6, beq_self_eq_true, Nat.reduceEqDiff, if_false, if_true]
theorem rand (d : BitVec 6) (b : BitVec 6) (w : BitVec 2) (u : Bool) : Statement (.rand d b w u) := by
  obtain ⟨N, hN⟩ : ∃ N, N = (word 0x98000000 [(d.toNat, 18), (b.toNat, 6), (w.toNat, 4), (b2n u, 3)]).toNat := ⟨_, rfl⟩
  obtain ⟨h0, h1, h2, h3, h4, h5, h6⟩ := lay33 _ 0x98 N (by decide) (by decide) d b w u hN
  refine one rfl hN.symm h0 (by decide) ?_
  clear hN; unfold decodeNat; rw [(digits h0).1, (digits h0).2]
  show decode9 8 N 0 = _
  unfold decode9; simp only [h1, h2, h3, h4, h5, h6, beq_self_eq_true, Bool.and_self, Nat.reduceEqDiff, if_false, if_true]
theorem randf (d : BitVec 6) (w : BitVec 2) (u : Bool) : Statement (.randf d w u) := by
  obtain ⟨N, hN⟩ : ∃ N, N = (word 0x99000000 [(d.toNat, 18), (w.toNat, 4), (b2n u, 3)]).toNat := ⟨_, rfl⟩
  obtain ⟨h0, h1, h2, h3, h4, h5⟩ := lay34 _ 0x99 N (by decide) (by decide) d w u hN
  refine one rfl hN.symm h0 (by decide) ?_
  clear hN; unfold decodeNat; rw [(digits h0).1, (digits h0).2]
  show decode9 9 N 0 = _
  unfold decode9; simp only [h1, h2, h3, h4, h5, beq_self_eq_true, Bool.and_self, Nat.reduceEqDiff, if_false, if_true]
theorem catsamp (d : BitVec 6) (a : BitVec 6) (b : BitVec 6) (w : BitVec 2) (x : Bool) : Statement (.catsamp d a b w x) := by
  obtain ⟨N, hN⟩ : ∃ N, N = (word 0x9A000000 [(d.toNat, 18), (a.toNat, 12), (b.toNat, 6), (w.toNat, 4), (b2n x, 2)]).toNat := ⟨_, rfl⟩
  obtain ⟨h0, h1, h2, h3, h4, h5, h6, h7⟩ := lay35 _ 0x9A N (by decide) (by decide) d a b w x hN
  refine one rfl hN.symm h0 (by decide) ?_
  clear hN; unfold decodeNat; rw [(digits h0).1, (digits h0).2]
  show decode9 10 N 0 = _
  unfold decode9; simp only [h1, h2, h3, h4, h5, h6, h7, beq_self_eq_true, Bool.and_self, Nat.reduceEqDiff, if_false, if_true]
theorem bararv (d : BitVec 6) (b : BitVec 6) (w : BitVec 2) : Statement (.bararv d b w) := by
  obtain ⟨N, hN⟩ : ∃ N, N = (word 0x9B000008 [(d.toNat, 18), (b.toNat, 6), (w.toNat, 4)]).toNat := ⟨_, rfl⟩
  obtain ⟨h0, h1, h2, h3, h4, h5⟩ := lay29 _ 0x9B N (by decide) (by decide) d b w hN
  refine one rfl hN.symm h0 (by decide) ?_
  clear hN; unfold decodeNat; rw [(digits h0).1, (digits h0).2]
  show decode9 11 N 0 = _
  unfold decode9; simp only [h1, h2, h3, h4, h5, beq_self_eq_true, Bool.and_self, Nat.reduceEqDiff, if_false, if_true]
theorem shfl (d : BitVec 6) (a : BitVec 6) (b : BitVec 6) (w : BitVec 2) (x : Bool) (y : Bool) : Statement (.shfl d a b w x y) := by
  obtain ⟨N, hN⟩ : ∃ N, N = (word 0xA0000000 [(d.toNat, 18), (a.toNat, 12), (b.toNat, 6), (w.toNat, 4), (b2n x, 2), (b2n y, 1)]).toNat := ⟨_, rfl⟩
  obtain ⟨h0, h1, h2, h3, h4, h5, h6, h7, h8⟩ := lay36 _ 0xA0 N (by decide) (by decide) d a b w x y hN
  refine one rfl hN.symm h0 (by decide) ?_
  clear hN; unfold decodeNat; rw [(digits h0).1, (digits h0).2]
  show decodeA 0 N 0 = _
  unfold decodeA; simp only [h1, h2, h3, h4, h5, h6, h7, h8, beq_self_eq_true, Bool.and_self, if_true]
theorem shflx (d : BitVec 6) (a : BitVec 6) (b : BitVec 6) (w : BitVec 2) (x : Bool) : Statement (.shflx d a b w x) := by
  obtain ⟨N, hN⟩ : ∃ N, N = (word 0xA1000000 [(d.toNat, 18), (a.toNat, 12), (b.toNat, 6), (w.toNat, 4), (b2n x, 2)]).toNat := ⟨_, rfl⟩
  obtain ⟨h0, h1, h2, h3, h4, h5, h6, h7⟩ := lay35 _ 0xA1 N (by decide) (by decide) d a b w x hN
  refine one rfl hN.symm h0 (by decide) ?_
  clear hN; unfold decodeNat; rw [(digits h0).1, (digits h0).2]
  show decodeA 1 N 0 = _
  unfold decodeA; simp only [h1, h2, h3, h4, h5, h6, h7, beq_self_eq_true, Bool.and_self, Nat.reduceEqDiff, if_false, if_true]
theorem shflu (d : BitVec 6) (a : BitVec 6) (i : BitVec 11) : Statement (.shflu d a i) := by
  obtain ⟨N, hN⟩ : ∃ N, N = (word 0xA2000000 [(d.toNat, 18), (a.toNat, 12), (i.toNat, 0)]).toNat := ⟨_, rfl⟩
  obtain ⟨h0, h1, h2, h3, h4⟩ := lay37 _ 0xA2 N (by decide) (by decide) d a i hN
  refine one rfl hN.symm h0 (by decide) ?_
  clear hN; unfold decodeNat; rw [(digits h0).1, (digits h0).2]
  show decodeA 2 N 0 = _
  unfold decodeA; simp only [h1, h2, h3, h4, beq_self_eq_true, Nat.reduceEqDiff, if_false, if_true]
theorem shfld (d : BitVec 6) (a : BitVec 6) (i : BitVec 11) : Statement (.shfld d a i) := by
  obtain ⟨N, hN⟩ : ∃ N, N = (word 0xA3000000 [(d.toNat, 18), (a.toNat, 12), (i.toNat, 0)]).toNat := ⟨_, rfl⟩
  obtain ⟨h0, h1, h2, h3, h4⟩ := lay37 _ 0xA3 N (by decide) (by decide) d a i hN
  refine one rfl hN.symm h0 (by decide) ?_
  clear hN; unfold decodeNat; rw [(digits h0).1, (digits h0).2]
  show decodeA 3 N 0 = _
  unfold decodeA; simp only [h1, h2, h3, h4, beq_self_eq_true, Nat.reduceEqDiff, if_false, if_true]
theorem bcast (d : BitVec 6) (a : BitVec 6) (s : Bool) (l : BitVec 6) : Statement (.bcast d a s l) := by
  obtain ⟨N, hN⟩ : ∃ N, N = (word 0xA4000000 [(d.toNat, 18), (a.toNat, 12), (b2n s, 6), (l.toNat, 0)]).toNat := ⟨_, rfl⟩
  obtain ⟨h0, h1, h2, h3, h4, h5⟩ := lay38 _ 0xA4 N (by decide) (by decide) d a s l hN
  refine one rfl hN.symm h0 (by decide) ?_
  clear hN; unfold decodeNat; rw [(digits h0).1, (digits h0).2]
  show decodeA 4 N 0 = _
  unfold decodeA; simp only [h1, h2, h3, h4, h5, beq_self_eq_true, Nat.reduceEqDiff, if_false, if_true]
theorem voteany (d : BitVec 6) (a : BitVec 6) (b : BitVec 6) (w : BitVec 2) : Statement (.voteany d a b w) := by
  obtain ⟨N, hN⟩ : ∃ N, N = (word 0xA5000000 [(d.toNat, 18), (a.toNat, 12), (b.toNat, 6), (w.toNat, 4)]).toNat := ⟨_, rfl⟩
  obtain ⟨h0, h1, h2, h3, h4, h5⟩ := lay39 _ 0xA5 N (by decide) (by decide) d a b w hN
  refine one rfl hN.symm h0 (by decide) ?_
  clear hN; unfold decodeNat; rw [(digits h0).1, (digits h0).2]
  show decodeA 5 N 0 = _
  unfold decodeA; simp only [h1, h2, h3, h4, h5, beq_self_eq_true, Nat.reduceEqDiff, if_false, if_true]
theorem voteall (d : BitVec 6) (a : BitVec 6) (b : BitVec 6) (w : BitVec 2) : Statement (.voteall d a b w) := by
  obtain ⟨N, hN⟩ : ∃ N, N = (word 0xA6000000 [(d.toNat, 18), (a.toNat, 12), (b.toNat, 6), (w.toNat, 4)]).toNat := ⟨_, rfl⟩
  obtain ⟨h0, h1, h2, h3, h4, h5⟩ := lay39 _ 0xA6 N (by decide) (by decide) d a b w hN
  refine one rfl hN.symm h0 (by decide) ?_
  clear hN; unfold decodeNat; rw [(digits h0).1, (digits h0).2]
  show decodeA 6 N 0 = _
  unfold decodeA; simp only [h1, h2, h3, h4, h5, beq_self_eq_true, Nat.reduceEqDiff, if_false, if_true]
theorem ballot (d : BitVec 6) (a : BitVec 6) (b : BitVec 6) (w : BitVec 2) : Statement (.ballot d a b w) := by
  obtain ⟨N, hN⟩ : ∃ N, N = (word 0xA7000000 [(d.toNat, 18), (a.toNat, 12), (b.toNat, 6), (w.toNat, 4)]).toNat := ⟨_, rfl⟩
  obtain ⟨h0, h1, h2, h3, h4, h5⟩ := lay39 _ 0xA7 N (by decide) (by decide) d a b w hN
  refine one rfl hN.symm h0 (by decide) ?_
  clear hN; unfold decodeNat; rw [(digits h0).1, (digits h0).2]
  show decodeA 7 N 0 = _
  unfold decodeA; simp only [h1, h2, h3, h4, h5, beq_self_eq_true, Nat.reduceEqDiff, if_false, if_true]
theorem scanadd (d : BitVec 6) (a : BitVec 6) (b : BitVec 6) (w : BitVec 2) (x : Bool) : Statement (.scanadd d a b w x) := by
  obtain ⟨N, hN⟩ : ∃ N, N = (word 0xA8000000 [(d.toNat, 18), (a.toNat, 12), (b.toNat, 6), (w.toNat, 4), (b2n x, 2)]).toNat := ⟨_, rfl⟩
  obtain ⟨h0, h1, h2, h3, h4, h5, h6, h7⟩ := lay35 _ 0xA8 N (by decide) (by decide) d a b w x hN
  refine one rfl hN.symm h0 (by decide) ?_
  clear hN; unfold decodeNat; rw [(digits h0).1, (digits h0).2]
  show decodeA 8 N 0 = _
  unfold decodeA; simp only [h1, h2, h3, h4, h5, h6, h7, beq_self_eq_true, Bool.and_self, Nat.reduceEqDiff, if_false, if_true]
theorem scanfadd (d : BitVec 6) (a : BitVec 6) (b : BitVec 6) (w : BitVec 2) (x : Bool) : Statement (.scanfadd d a b w x) := by
  obtain ⟨N, hN⟩ : ∃ N, N = (word 0xA9000000 [(d.toNat, 18), (a.toNat, 12), (b.toNat, 6), (w.toNat, 4), (b2n x, 2)]).toNat := ⟨_, rfl⟩
  obtain ⟨h0, h1, h2, h3, h4, h5, h6, h7⟩ := lay35 _ 0xA9 N (by decide) (by decide) d a b w x hN
  refine one rfl hN.symm h0 (by decide) ?_
  clear hN; unfold decodeNat; rw [(digits h0).1, (digits h0).2]
  show decodeA 9 N 0 = _
  unfold decodeA; simp only [h1, h2, h3, h4, h5, h6, h7, beq_self_eq_true, Bool.and_self, Nat.reduceEqDiff, if_false, if_true]
theorem redadd (d : BitVec 6) (a : BitVec 6) (w : BitVec 2) (x : Bool) : Statement (.redadd d a w x) := by
  obtain ⟨N, hN⟩ : ∃ N, N = (word 0xAA000000 [(d.toNat, 18), (a.toNat, 12), (w.toNat, 4), (b2n x, 2)]).toNat := ⟨_, rfl⟩
  obtain ⟨h0, h1, h2, h3, h4, h5, h6, h7⟩ := lay40 _ 0xAA N (by decide) (by decide) d a w x hN
  refine one rfl hN.symm h0 (by decide) ?_
  clear hN; unfold decodeNat; rw [(digits h0).1, (digits h0).2]
  show decodeA 10 N 0 = _
  unfold decodeA; simp only [h1, h2, h3, h4, h5, h6, h7, beq_self_eq_true, Bool.and_self, Nat.reduceEqDiff, if_false, if_true]
theorem redfadd (d : BitVec 6) (a : BitVec 6) (w : BitVec 2) (x : Bool) : Statement (.redfadd d a w x) := by
  obtain ⟨N, hN⟩ : ∃ N, N = (word 0xAB000000 [(d.toNat, 18), (a.toNat, 12), (w.toNat, 4), (b2n x, 2)]).toNat := ⟨_, rfl⟩
  obtain ⟨h0, h1, h2, h3, h4, h5, h6, h7⟩ := lay40 _ 0xAB N (by decide) (by decide) d a w x hN
  refine one rfl hN.symm h0 (by decide) ?_
  clear hN; unfold decodeNat; rw [(digits h0).1, (digits h0).2]
  show decodeA 11 N 0 = _
  unfold decodeA; simp only [h1, h2, h3, h4, h5, h6, h7, beq_self_eq_true, Bool.and_self, Nat.reduceEqDiff, if_false, if_true]
theorem redmin (d : BitVec 6) (a : BitVec 6) (b : BitVec 6) (w : BitVec 2) (x : Bool) : Statement (.redmin d a b w x) := by
  obtain ⟨N, hN⟩ : ∃ N, N = (word 0xAC000000 [(d.toNat, 18), (a.toNat, 12), (b.toNat, 6), (w.toNat, 4), (b2n x, 2)]).toNat := ⟨_, rfl⟩
  obtain ⟨h0, h1, h2, h3, h4, h5, h6, h7⟩ := lay35 _ 0xAC N (by decide) (by decide) d a b w x hN
  refine one rfl hN.symm h0 (by decide) ?_
  clear hN; unfold decodeNat; rw [(digits h0).1, (digits h0).2]
  show decodeA 12 N 0 = _
  unfold decodeA; simp only [h1, h2, h3, h4, h5, h6, h7, beq_self_eq_true, Bool.and_self, Nat.reduceEqDiff, if_false, if_true]
theorem redmax (d : BitVec 6) (a : BitVec 6) (b : BitVec 6) (w : BitVec 2) (x : Bool) : Statement (.redmax d a b w x) := by
  obtain ⟨N, hN⟩ : ∃ N, N = (word 0xAD000000 [(d.toNat, 18), (a.toNat, 12), (b.toNat, 6), (w.toNat, 4), (b2n x, 2)]).toNat := ⟨_, rfl⟩
  obtain ⟨h0, h1, h2, h3, h4, h5, h6, h7⟩ := lay35 _ 0xAD N (by decide) (by decide) d a b w x hN
  refine one rfl hN.symm h0 (by decide) ?_
  clear hN; unfold decodeNat; rw [(digits h0).1, (digits h0).2]
  show decodeA 13 N 0 = _
  unfold decodeA; simp only [h1, h2, h3, h4, h5, h6, h7, beq_self_eq_true, Bool.and_self, Nat.reduceEqDiff, if_false, if_true]
theorem redsumc (d : BitVec 6) (a : BitVec 6) (w : BitVec 2) (x : Bool) : Statement (.redsumc d a w x) := by
  obtain ⟨N, hN⟩ : ∃ N, N = (word 0xAE000000 [(d.toNat, 18), (a.toNat, 12), (w.toNat, 4), (b2n x, 2)]).toNat := ⟨_, rfl⟩
  obtain ⟨h0, h1, h2, h3, h4, h5, h6, h7⟩ := lay40 _ 0xAE N (by decide) (by decide) d a w x hN
  refine one rfl hN.symm h0 (by decide) ?_
  clear hN; unfold decodeNat; rw [(digits h0).1, (digits h0).2]
  show decodeA 14 N 0 = _
  unfold decodeA; simp only [h1, h2, h3, h4, h5, h6, h7, beq_self_eq_true, Bool.and_self, Nat.reduceEqDiff, if_false, if_true]
theorem reddotc (d : BitVec 6) (a : BitVec 6) (b : BitVec 6) (w : BitVec 2) (x : Bool) (y : Bool) : Statement (.reddotc d a b w x y) := by
  obtain ⟨N, hN⟩ : ∃ N, N = (word 0xAF000000 [(d.toNat, 18), (a.toNat, 12), (b.toNat, 6), (w.toNat, 4), (b2n x, 2), (b2n y, 1)]).toNat := ⟨_, rfl⟩
  obtain ⟨h0, h1, h2, h3, h4, h5, h6, h7, h8⟩ := lay36 _ 0xAF N (by decide) (by decide) d a b w x y hN
  refine one rfl hN.symm h0 (by decide) ?_
  clear hN; unfold decodeNat; rw [(digits h0).1, (digits h0).2]
  show decodeA 15 N 0 = _
  unfold decodeA; simp only [h1, h2, h3, h4, h5, h6, h7, h8, beq_self_eq_true, Bool.and_self, Nat.reduceEqDiff, if_false, if_true]
theorem ldb (d : BitVec 6) (a : BitVec 6) (u : Bool) (s : BitVec 8) (r : BitVec 3) : Statement (.ldb d a u s r) := by
  obtain ⟨N, hN⟩ : ∃ N, N = (word 0xB0000000 [(d.toNat, 18), (a.toNat, 12), (b2n u, 11), (s.toNat, 3), (r.toNat, 0)]).toNat := ⟨_, rfl⟩
  obtain ⟨h0, h1, h2, h3, h4, h5⟩ := lay41 _ 0xB0 N (by decide) (by decide) d a u s r hN
  refine one rfl hN.symm h0 (by decide) ?_
  clear hN; unfold decodeNat; rw [(digits h0).1, (digits h0).2]
  show decodeB 0 N 0 = _
  unfold decodeB; simp only [h1, h2, h3, h4, h5, if_true]
theorem ldbs (d : BitVec 6) (a : BitVec 6) (u : Bool) (s : BitVec 8) (r : BitVec 3) : Statement (.ldbs d a u s r) := by
  obtain ⟨N, hN⟩ : ∃ N, N = (word 0xB1000000 [(d.toNat, 18), (a.toNat, 12), (b2n u, 11), (s.toNat, 3), (r.toNat, 0)]).toNat := ⟨_, rfl⟩
  obtain ⟨h0, h1, h2, h3, h4, h5⟩ := lay41 _ 0xB1 N (by decide) (by decide) d a u s r hN
  refine one rfl hN.symm h0 (by decide) ?_
  clear hN; unfold decodeNat; rw [(digits h0).1, (digits h0).2]
  show decodeB 1 N 0 = _
  unfold decodeB; simp only [h1, h2, h3, h4, h5, Nat.reduceEqDiff, if_false, if_true]
theorem ldh (d : BitVec 6) (a : BitVec 6) (u : Bool) (s : BitVec 8) (r : BitVec 3) : Statement (.ldh d a u s r) := by
  obtain ⟨N, hN⟩ : ∃ N, N = (word 0xB2000000 [(d.toNat, 18), (a.toNat, 12), (b2n u, 11), (s.toNat, 3), (r.toNat, 0)]).toNat := ⟨_, rfl⟩
  obtain ⟨h0, h1, h2, h3, h4, h5⟩ := lay41 _ 0xB2 N (by decide) (by decide) d a u s r hN
  refine one rfl hN.symm h0 (by decide) ?_
  clear hN; unfold decodeNat; rw [(digits h0).1, (digits h0).2]
  show decodeB 2 N 0 = _
  unfold decodeB; simp only [h1, h2, h3, h4, h5, Nat.reduceEqDiff, if_false, if_true]
theorem ldhs (d : BitVec 6) (a : BitVec 6) (u : Bool) (s : BitVec 8) (r : BitVec 3) : Statement (.ldhs d a u s r) := by
  obtain ⟨N, hN⟩ : ∃ N, N = (word 0xB3000000 [(d.toNat, 18), (a.toNat, 12), (b2n u, 11), (s.toNat, 3), (r.toNat, 0)]).toNat := ⟨_, rfl⟩
  obtain ⟨h0, h1, h2, h3, h4, h5⟩ := lay41 _ 0xB3 N (by decide) (by decide) d a u s r hN
  refine one rfl hN.symm h0 (by decide) ?_
  clear hN; unfold decodeNat; rw [(digits h0).1, (digits h0).2]
  show decodeB 3 N 0 = _
  unfold decodeB; simp only [h1, h2, h3, h4, h5, Nat.reduceEqDiff, if_false, if_true]
theorem ldw (d : BitVec 6) (a : BitVec 6) (u : Bool) (s : BitVec 8) (r : BitVec 3) : Statement (.ldw d a u s r) := by
  obtain ⟨N, hN⟩ : ∃ N, N = (word 0xB4000000 [(d.toNat, 18), (a.toNat, 12), (b2n u, 11), (s.toNat, 3), (r.toNat, 0)]).toNat := ⟨_, rfl⟩
  obtain ⟨h0, h1, h2, h3, h4, h5⟩ := lay41 _ 0xB4 N (by decide) (by decide) d a u s r hN
  refine one rfl hN.symm h0 (by decide) ?_
  clear hN; unfold decodeNat; rw [(digits h0).1, (digits h0).2]
  show decodeB 4 N 0 = _
  unfold decodeB; simp only [h1, h2, h3, h4, h5, Nat.reduceEqDiff, if_false, if_true]
theorem ldd (d : BitVec 6) (a : BitVec 6) (u : Bool) (s : BitVec 8) (r : BitVec 3) : Statement (.ldd d a u s r) := by
  obtain ⟨N, hN⟩ : ∃ N, N = (word 0xB5000000 [(d.toNat, 18), (a.toNat, 12), (b2n u, 11), (s.toNat, 3), (r.toNat, 0)]).toNat := ⟨_, rfl⟩
  obtain ⟨h0, h1, h2, h3, h4, h5⟩ := lay41 _ 0xB5 N (by decide) (by decide) d a u s r hN
  refine one rfl hN.symm h0 (by decide) ?_
  clear hN; unfold decodeNat; rw [(digits h0).1, (digits h0).2]
  show decodeB 5 N 0 = _
  unfold decodeB; simp only [h1, h2, h3, h4, h5, Nat.reduceEqDiff, if_false, if_true]
theorem ldq (d : BitVec 6) (a : BitVec 6) (u : Bool) (s : BitVec 8) (r : BitVec 3) : Statement (.ldq d a u s r) := by
  obtain ⟨N, hN⟩ : ∃ N, N = (word 0xB6000000 [(d.toNat, 18), (a.toNat, 12), (b2n u, 11), (s.toNat, 3), (r.toNat, 0)]).toNat := ⟨_, rfl⟩
  obtain ⟨h0, h1, h2, h3, h4, h5⟩ := lay41 _ 0xB6 N (by decide) (by decide) d a u s r hN
  refine one rfl hN.symm h0 (by decide) ?_
  clear hN; unfold decodeNat; rw [(digits h0).1, (digits h0).2]
  show decodeB 6 N 0 = _
  unfold decodeB; simp only [h1, h2, h3, h4, h5, Nat.reduceEqDiff, if_false, if_true]
theorem ldln (d : BitVec 6) (a : BitVec 6) (s : BitVec 8) (r : BitVec 3) : Statement (.ldln d a s r) := by
  obtain ⟨N, hN⟩ : ∃ N, N = (word 0xB7000000 [(d.toNat, 18), (a.toNat, 12), (s.toNat, 3), (r.toNat, 0)]).toNat := ⟨_, rfl⟩
  obtain ⟨h0, h1, h2, h3, h4, h5⟩ := lay42 _ 0xB7 N (by decide) (by decide) d a s r hN
  refine one rfl hN.symm h0 (by decide) ?_
  clear hN; unfold decodeNat; rw [(digits h0).1, (digits h0).2]
  show decodeB 7 N 0 = _
  unfold decodeB; simp only [h1, h2, h3, h4, h5, beq_self_eq_true, Nat.reduceEqDiff, if_false, if_true]
theorem stb (d : BitVec 6) (a : BitVec 6) (u : Bool) (s : BitVec 8) (r : BitVec 3) : Statement (.stb d a u s r) := by
  obtain ⟨N, hN⟩ : ∃ N, N = (word 0xB8000000 [(d.toNat, 18), (a.toNat, 12), (b2n u, 11), (s.toNat, 3), (r.toNat, 0)]).toNat := ⟨_, rfl⟩
  obtain ⟨h0, h1, h2, h3, h4, h5⟩ := lay41 _ 0xB8 N (by decide) (by decide) d a u s r hN
  refine one rfl hN.symm h0 (by decide) ?_
  clear hN; unfold decodeNat; rw [(digits h0).1, (digits h0).2]
  show decodeB 8 N 0 = _
  unfold decodeB; simp only [h1, h2, h3, h4, h5, Nat.reduceEqDiff, if_false, if_true]
theorem sth (d : BitVec 6) (a : BitVec 6) (u : Bool) (s : BitVec 8) (r : BitVec 3) : Statement (.sth d a u s r) := by
  obtain ⟨N, hN⟩ : ∃ N, N = (word 0xB9000000 [(d.toNat, 18), (a.toNat, 12), (b2n u, 11), (s.toNat, 3), (r.toNat, 0)]).toNat := ⟨_, rfl⟩
  obtain ⟨h0, h1, h2, h3, h4, h5⟩ := lay41 _ 0xB9 N (by decide) (by decide) d a u s r hN
  refine one rfl hN.symm h0 (by decide) ?_
  clear hN; unfold decodeNat; rw [(digits h0).1, (digits h0).2]
  show decodeB 9 N 0 = _
  unfold decodeB; simp only [h1, h2, h3, h4, h5, Nat.reduceEqDiff, if_false, if_true]
theorem stw (d : BitVec 6) (a : BitVec 6) (u : Bool) (s : BitVec 8) (r : BitVec 3) : Statement (.stw d a u s r) := by
  obtain ⟨N, hN⟩ : ∃ N, N = (word 0xBA000000 [(d.toNat, 18), (a.toNat, 12), (b2n u, 11), (s.toNat, 3), (r.toNat, 0)]).toNat := ⟨_, rfl⟩
  obtain ⟨h0, h1, h2, h3, h4, h5⟩ := lay41 _ 0xBA N (by decide) (by decide) d a u s r hN
  refine one rfl hN.symm h0 (by decide) ?_
  clear hN; unfold decodeNat; rw [(digits h0).1, (digits h0).2]
  show decodeB 10 N 0 = _
  unfold decodeB; simp only [h1, h2, h3, h4, h5, Nat.reduceEqDiff, if_false, if_true]
theorem std (d : BitVec 6) (a : BitVec 6) (u : Bool) (s : BitVec 8) (r : BitVec 3) : Statement (.std d a u s r) := by
  obtain ⟨N, hN⟩ : ∃ N, N = (word 0xBB000000 [(d.toNat, 18), (a.toNat, 12), (b2n u, 11), (s.toNat, 3), (r.toNat, 0)]).toNat := ⟨_, rfl⟩
  obtain ⟨h0, h1, h2, h3, h4, h5⟩ := lay41 _ 0xBB N (by decide) (by decide) d a u s r hN
  refine one rfl hN.symm h0 (by decide) ?_
  clear hN; unfold decodeNat; rw [(digits h0).1, (digits h0).2]
  show decodeB 11 N 0 = _
  unfold decodeB; simp only [h1, h2, h3, h4, h5, Nat.reduceEqDiff, if_false, if_true]
theorem stq (d : BitVec 6) (a : BitVec 6) (u : Bool) (s : BitVec 8) (r : BitVec 3) : Statement (.stq d a u s r) := by
  obtain ⟨N, hN⟩ : ∃ N, N = (word 0xBC000000 [(d.toNat, 18), (a.toNat, 12), (b2n u, 11), (s.toNat, 3), (r.toNat, 0)]).toNat := ⟨_, rfl⟩
  obtain ⟨h0, h1, h2, h3, h4, h5⟩ := lay41 _ 0xBC N (by decide) (by decide) d a u s r hN
  refine one rfl hN.symm h0 (by decide) ?_
  clear hN; unfold decodeNat; rw [(digits h0).1, (digits h0).2]
  show decodeB 12 N 0 = _
  unfold decodeB; simp only [h1, h2, h3, h4, h5, Nat.reduceEqDiff, if_false, if_true]
theorem pref (a : BitVec 6) (u : Bool) (s : BitVec 8) (r : BitVec 3) : Statement (.pref a u s r) := by
  obtain ⟨N, hN⟩ : ∃ N, N = (word 0xBD000000 [(a.toNat, 12), (b2n u, 11), (s.toNat, 3), (r.toNat, 0)]).toNat := ⟨_, rfl⟩
  obtain ⟨h0, h1, h2, h3, h4, h5⟩ := lay43 _ 0xBD N (by decide) (by decide) a u s r hN
  refine one rfl hN.symm h0 (by decide) ?_
  clear hN; unfold decodeNat; rw [(digits h0).1, (digits h0).2]
  show decodeB 13 N 0 = _
  unfold decodeB; simp only [h1, h2, h3, h4, h5, beq_self_eq_true, Nat.reduceEqDiff, if_false, if_true]
theorem fence (r : BitVec 3) : Statement (.fence r) := by
  obtain ⟨N, hN⟩ : ∃ N, N = (word 0xBE000000 [(r.toNat, 0)]).toNat := ⟨_, rfl⟩
  obtain ⟨h0, h1, h2⟩ := lay44 _ 0xBE N (by decide) (by decide) r hN
  refine one rfl hN.symm h0 (by decide) ?_
  clear hN; unfold decodeNat; rw [(digits h0).1, (digits h0).2]
  show decodeB 14 N 0 = _
  unfold decodeB; simp only [h1, h2, beq_self_eq_true, Nat.reduceEqDiff, if_false, if_true]
theorem cflush (a : BitVec 6) (b : BitVec 6) (l : Bool) (s : BitVec 3) : Statement (.cflush a b l s) := by
  obtain ⟨N, hN⟩ : ∃ N, N = (word 0xBF000000 [(a.toNat, 12), (b.toNat, 6), (b2n l, 3), (s.toNat, 0)]).toNat := ⟨_, rfl⟩
  obtain ⟨h0, h1, h2, h3, h4, h5, h6⟩ := lay45 _ 0xBF N (by decide) (by decide) a b l s hN
  refine one rfl hN.symm h0 (by decide) ?_
  clear hN; unfold decodeNat; rw [(digits h0).1, (digits h0).2]
  show decodeB 15 N 0 = _
  unfold decodeB; simp only [h1, h2, h3, h4, h5, h6, beq_self_eq_true, Bool.and_self, Nat.reduceEqDiff, if_false, if_true]
theorem cinv (a : BitVec 6) (b : BitVec 6) (l : Bool) (s : BitVec 3) : Statement (.cinv a b l s) := by
  obtain ⟨N, hN⟩ : ∃ N, N = (word 0xC0000000 [(a.toNat, 12), (b.toNat, 6), (b2n l, 3), (s.toNat, 0)]).toNat := ⟨_, rfl⟩
  obtain ⟨h0, h1, h2, h3, h4, h5, h6⟩ := lay45 _ 0xC0 N (by decide) (by decide) a b l s hN
  refine one rfl hN.symm h0 (by decide) ?_
  clear hN; unfold decodeNat; rw [(digits h0).1, (digits h0).2]
  show decodeC 0 N 0 = _
  unfold decodeC; simp only [h1, h2, h3, h4, h5, h6, beq_self_eq_true, Bool.and_self, if_true]
theorem atadd (d : BitVec 6) (a : BitVec 6) (b : BitVec 6) (u : Bool) (v : Bool) (z : Bool) (r : BitVec 3) : Statement (.atadd d a b u v z r) := by
  obtain ⟨N, hN⟩ : ∃ N, N = (word 0xC1000000 [(d.toNat, 18), (a.toNat, 12), (b.toNat, 6), (b2n u, 5), (b2n v, 4), (b2n z, 3), (r.toNat, 0)]).toNat := ⟨_, rfl⟩
  obtain ⟨h0, h1, h2, h3, h4, h5, h6, h7⟩ := lay46 _ 0xC1 N (by decide) (by decide) d a b u v z r hN
  refine one rfl hN.symm h0 (by decide) ?_
  clear hN; unfold decodeNat; rw [(digits h0).1, (digits h0).2]
  show decodeC 1 N 0 = _
  unfold decodeC; simp only [h1, h2, h3, h4, h5, h6, h7, Nat.reduceEqDiff, if_false, if_true]
theorem atmin (d : BitVec 6) (a : BitVec 6) (b : BitVec 6) (u : Bool) (v : Bool) (z : Bool) (r : BitVec 3) : Statement (.atmin d a b u v z r) := by
  obtain ⟨N, hN⟩ : ∃ N, N = (word 0xC2000000 [(d.toNat, 18), (a.toNat, 12), (b.toNat, 6), (b2n u, 5), (b2n v, 4), (b2n z, 3), (r.toNat, 0)]).toNat := ⟨_, rfl⟩
  obtain ⟨h0, h1, h2, h3, h4, h5, h6, h7⟩ := lay46 _ 0xC2 N (by decide) (by decide) d a b u v z r hN
  refine one rfl hN.symm h0 (by decide) ?_
  clear hN; unfold decodeNat; rw [(digits h0).1, (digits h0).2]
  show decodeC 2 N 0 = _
  unfold decodeC; simp only [h1, h2, h3, h4, h5, h6, h7, Nat.reduceEqDiff, if_false, if_true]
theorem atmax (d : BitVec 6) (a : BitVec 6) (b : BitVec 6) (u : Bool) (v : Bool) (z : Bool) (r : BitVec 3) : Statement (.atmax d a b u v z r) := by
  obtain ⟨N, hN⟩ : ∃ N, N = (word 0xC3000000 [(d.toNat, 18), (a.toNat, 12), (b.toNat, 6), (b2n u, 5), (b2n v, 4), (b2n z, 3), (r.toNat, 0)]).toNat := ⟨_, rfl⟩
  obtain ⟨h0, h1, h2, h3, h4, h5, h6, h7⟩ := lay46 _ 0xC3 N (by decide) (by decide) d a b u v z r hN
  refine one rfl hN.symm h0 (by decide) ?_
  clear hN; unfold decodeNat; rw [(digits h0).1, (digits h0).2]
  show decodeC 3 N 0 = _
  unfold decodeC; simp only [h1, h2, h3, h4, h5, h6, h7, Nat.reduceEqDiff, if_false, if_true]
theorem atand (d : BitVec 6) (a : BitVec 6) (b : BitVec 6) (u : Bool) (v : Bool) (z : Bool) (r : BitVec 3) : Statement (.atand d a b u v z r) := by
  obtain ⟨N, hN⟩ : ∃ N, N = (word 0xC4000000 [(d.toNat, 18), (a.toNat, 12), (b.toNat, 6), (b2n u, 5), (b2n v, 4), (b2n z, 3), (r.toNat, 0)]).toNat := ⟨_, rfl⟩
  obtain ⟨h0, h1, h2, h3, h4, h5, h6, h7⟩ := lay46 _ 0xC4 N (by decide) (by decide) d a b u v z r hN
  refine one rfl hN.symm h0 (by decide) ?_
  clear hN; unfold decodeNat; rw [(digits h0).1, (digits h0).2]
  show decodeC 4 N 0 = _
  unfold decodeC; simp only [h1, h2, h3, h4, h5, h6, h7, Nat.reduceEqDiff, if_false, if_true]
theorem ator (d : BitVec 6) (a : BitVec 6) (b : BitVec 6) (u : Bool) (v : Bool) (z : Bool) (r : BitVec 3) : Statement (.ator d a b u v z r) := by
  obtain ⟨N, hN⟩ : ∃ N, N = (word 0xC5000000 [(d.toNat, 18), (a.toNat, 12), (b.toNat, 6), (b2n u, 5), (b2n v, 4), (b2n z, 3), (r.toNat, 0)]).toNat := ⟨_, rfl⟩
  obtain ⟨h0, h1, h2, h3, h4, h5, h6, h7⟩ := lay46 _ 0xC5 N (by decide) (by decide) d a b u v z r hN
  refine one rfl hN.symm h0 (by decide) ?_
  clear hN; unfold decodeNat; rw [(digits h0).1, (digits h0).2]
  show decodeC 5 N 0 = _
  unfold decodeC; simp only [h1, h2, h3, h4, h5, h6, h7, Nat.reduceEqDiff, if_false, if_true]
theorem atxor (d : BitVec 6) (a : BitVec 6) (b : BitVec 6) (u : Bool) (v : Bool) (z : Bool) (r : BitVec 3) : Statement (.atxor d a b u v z r) := by
  obtain ⟨N, hN⟩ : ∃ N, N = (word 0xC6000000 [(d.toNat, 18), (a.toNat, 12), (b.toNat, 6), (b2n u, 5), (b2n v, 4), (b2n z, 3), (r.toNat, 0)]).toNat := ⟨_, rfl⟩
  obtain ⟨h0, h1, h2, h3, h4, h5, h6, h7⟩ := lay46 _ 0xC6 N (by decide) (by decide) d a b u v z r hN
  refine one rfl hN.symm h0 (by decide) ?_
  clear hN; unfold decodeNat; rw [(digits h0).1, (digits h0).2]
  show decodeC 6 N 0 = _
  unfold decodeC; simp only [h1, h2, h3, h4, h5, h6, h7, Nat.reduceEqDiff, if_false, if_true]
theorem atxchg (d : BitVec 6) (a : BitVec 6) (b : BitVec 6) (u : Bool) (v : Bool) (z : Bool) (r : BitVec 3) : Statement (.atxchg d a b u v z r) := by
  obtain ⟨N, hN⟩ : ∃ N, N = (word 0xC7000000 [(d.toNat, 18), (a.toNat, 12), (b.toNat, 6), (b2n u, 5), (b2n v, 4), (b2n z, 3), (r.toNat, 0)]).toNat := ⟨_, rfl⟩
  obtain ⟨h0, h1, h2, h3, h4, h5, h6, h7⟩ := lay46 _ 0xC7 N (by decide) (by decide) d a b u v z r hN
  refine one rfl hN.symm h0 (by decide) ?_
  clear hN; unfold decodeNat; rw [(digits h0).1, (digits h0).2]
  show decodeC 7 N 0 = _
  unfold decodeC; simp only [h1, h2, h3, h4, h5, h6, h7, Nat.reduceEqDiff, if_false, if_true]
theorem atcas (d : BitVec 6) (a : BitVec 6) (b : BitVec 6) (u : Bool) (v : Bool) (z : Bool) (r : BitVec 3) : Statement (.atcas d a b u v z r) := by
  obtain ⟨N, hN⟩ : ∃ N, N = (word 0xC8000000 [(d.toNat, 18), (a.toNat, 12), (b.toNat, 6), (b2n u, 5), (b2n v, 4), (b2n z, 3), (r.toNat, 0)]).toNat := ⟨_, rfl⟩
  obtain ⟨h0, h1, h2, h3, h4, h5, h6, h7⟩ := lay46 _ 0xC8 N (by decide) (by decide) d a b u v z r hN
  refine one rfl hN.symm h0 (by decide) ?_
  clear hN; unfold decodeNat; rw [(digits h0).1, (digits h0).2]
  show decodeC 8 N 0 = _
  unfold decodeC; simp only [h1, h2, h3, h4, h5, h6, h7, Nat.reduceEqDiff, if_false, if_true]
theorem atfadd (d : BitVec 6) (a : BitVec 6) (b : BitVec 6) (u : Bool) (v : Bool) (z : Bool) (r : BitVec 3) : Statement (.atfadd d a b u v z r) := by
  obtain ⟨N, hN⟩ : ∃ N, N = (word 0xC9000000 [(d.toNat, 18), (a.toNat, 12), (b.toNat, 6), (b2n u, 5), (b2n v, 4), (b2n z, 3), (r.toNat, 0)]).toNat := ⟨_, rfl⟩
  obtain ⟨h0, h1, h2, h3, h4, h5, h6, h7⟩ := lay46 _ 0xC9 N (by decide) (by decide) d a b u v z r hN
  refine one rfl hN.symm h0 (by decide) ?_
  clear hN; unfold decodeNat; rw [(digits h0).1, (digits h0).2]
  show decodeC 9 N 0 = _
  unfold decodeC; simp only [h1, h2, h3, h4, h5, h6, h7, Nat.reduceEqDiff, if_false, if_true]
theorem atpadd (d : BitVec 6) (a : BitVec 6) (b : BitVec 6) (u : Bool) (v : Bool) (z : Bool) (r : BitVec 3) : Statement (.atpadd d a b u v z r) := by
  obtain ⟨N, hN⟩ : ∃ N, N = (word 0xCA000000 [(d.toNat, 18), (a.toNat, 12), (b.toNat, 6), (b2n u, 5), (b2n v, 4), (b2n z, 3), (r.toNat, 0)]).toNat := ⟨_, rfl⟩
  obtain ⟨h0, h1, h2, h3, h4, h5, h6, h7⟩ := lay46 _ 0xCA N (by decide) (by decide) d a b u v z r hN
  refine one rfl hN.symm h0 (by decide) ?_
  clear hN; unfold decodeNat; rw [(digits h0).1, (digits h0).2]
  show decodeC 10 N 0 = _
  unfold decodeC; simp only [h1, h2, h3, h4, h5, h6, h7, Nat.reduceEqDiff, if_false, if_true]
theorem atinc (d : BitVec 6) (a : BitVec 6) (b : BitVec 6) (u : Bool) (v : Bool) (z : Bool) (r : BitVec 3) : Statement (.atinc d a b u v z r) := by
  obtain ⟨N, hN⟩ : ∃ N, N = (word 0xCB000000 [(d.toNat, 18), (a.toNat, 12), (b.toNat, 6), (b2n u, 5), (b2n v, 4), (b2n z, 3), (r.toNat, 0)]).toNat := ⟨_, rfl⟩
  obtain ⟨h0, h1, h2, h3, h4, h5, h6, h7⟩ := lay46 _ 0xCB N (by decide) (by decide) d a b u v z r hN
  refine one rfl hN.symm h0 (by decide) ?_
  clear hN; unfold decodeNat; rw [(digits h0).1, (digits h0).2]
  show decodeC 11 N 0 = _
  unfold decodeC; simp only [h1, h2, h3, h4, h5, h6, h7, Nat.reduceEqDiff, if_false, if_true]
theorem bkadd (a : BitVec 6) (b : BitVec 6) (t : BitVec 3) : Statement (.bkadd a b t) := by
  obtain ⟨N, hN⟩ : ∃ N, N = (word 0xCC000000 [(a.toNat, 12), (b.toNat, 6), (t.toNat, 0)]).toNat := ⟨_, rfl⟩
  obtain ⟨h0, h1, h2, h3, h4, h5⟩ := lay47 _ 0xCC N (by decide) (by decide) a b t hN
  refine one rfl hN.symm h0 (by decide) ?_
  clear hN; unfold decodeNat; rw [(digits h0).1, (digits h0).2]
  show decodeC 12 N 0 = _
  unfold decodeC; simp only [h1, h2, h3, h4, h5, beq_self_eq_true, Bool.and_self, Nat.reduceEqDiff, if_false, if_true]
theorem bkred (a : BitVec 6) (b : BitVec 6) (t : BitVec 3) : Statement (.bkred a b t) := by
  obtain ⟨N, hN⟩ : ∃ N, N = (word 0xCD000000 [(a.toNat, 12), (b.toNat, 6), (t.toNat, 0)]).toNat := ⟨_, rfl⟩
  obtain ⟨h0, h1, h2, h3, h4, h5⟩ := lay47 _ 0xCD N (by decide) (by decide) a b t hN
  refine one rfl hN.symm h0 (by decide) ?_
  clear hN; unfold decodeNat; rw [(digits h0).1, (digits h0).2]
  show decodeC 13 N 0 = _
  unfold decodeC; simp only [h1, h2, h3, h4, h5, beq_self_eq_true, Bool.and_self, Nat.reduceEqDiff, if_false, if_true]
theorem bkset (d : BitVec 6) (a : BitVec 6) (b : BitVec 6) : Statement (.bkset d a b) := by
  obtain ⟨N, hN⟩ : ∃ N, N = (word 0xCE000000 [(d.toNat, 18), (a.toNat, 12), (b.toNat, 6)]).toNat := ⟨_, rfl⟩
  obtain ⟨h0, h1, h2, h3, h4⟩ := lay48 _ 0xCE N (by decide) (by decide) d a b hN
  refine one rfl hN.symm h0 (by decide) ?_
  clear hN; unfold decodeNat; rw [(digits h0).1, (digits h0).2]
  show decodeC 14 N 0 = _
  unfold decodeC; simp only [h1, h2, h3, h4, beq_self_eq_true, Nat.reduceEqDiff, if_false, if_true]
theorem bkscal (d : BitVec 6) (a : BitVec 6) (b : BitVec 6) : Statement (.bkscal d a b) := by
  obtain ⟨N, hN⟩ : ∃ N, N = (word 0xCF000000 [(d.toNat, 18), (a.toNat, 12), (b.toNat, 6)]).toNat := ⟨_, rfl⟩
  obtain ⟨h0, h1, h2, h3, h4⟩ := lay48 _ 0xCF N (by decide) (by decide) d a b hN
  refine one rfl hN.symm h0 (by decide) ?_
  clear hN; unfold decodeNat; rw [(digits h0).1, (digits h0).2]
  show decodeC 15 N 0 = _
  unfold decodeC; simp only [h1, h2, h3, h4, beq_self_eq_true, Nat.reduceEqDiff, if_false, if_true]
theorem cpya (d : BitVec 6) (a : BitVec 6) (b : BitVec 6) (e : Bool) (k : BitVec 4) : Statement (.cpya d a b e k) := by
  obtain ⟨N, hN⟩ : ∃ N, N = (word 0xD0000000 [(d.toNat, 18), (a.toNat, 12), (b.toNat, 6), (b2n e, 4), (k.toNat, 0)]).toNat := ⟨_, rfl⟩
  obtain ⟨h0, h1, h2, h3, h4, h5, h6⟩ := lay49 _ 0xD0 N (by decide) (by decide) d a b e k hN
  refine one rfl hN.symm h0 (by decide) ?_
  clear hN; unfold decodeNat; rw [(digits h0).1, (digits h0).2]
  show decodeD 0 N 0 = _
  unfold decodeD; simp only [h1, h2, h3, h4, h5, h6, beq_self_eq_true, if_true]
theorem cpyg (d : BitVec 6) (a : BitVec 6) (b : BitVec 6) (l : BitVec 4) : Statement (.cpyg d a b l) := by
  obtain ⟨N, hN⟩ : ∃ N, N = (word 0xD1000000 [(d.toNat, 18), (a.toNat, 12), (b.toNat, 6), (l.toNat, 0)]).toNat := ⟨_, rfl⟩
  obtain ⟨h0, h1, h2, h3, h4, h5⟩ := lay50 _ 0xD1 N (by decide) (by decide) d a b l hN
  refine one rfl hN.symm h0 (by decide) ?_
  clear hN; unfold decodeNat; rw [(digits h0).1, (digits h0).2]
  show decodeD 1 N 0 = _
  unfold decodeD; simp only [h1, h2, h3, h4, h5, beq_self_eq_true, Nat.reduceEqDiff, if_false, if_true]
theorem batch (d : BitVec 6) (w : BitVec 2) : Statement (.batch d w) := by
  obtain ⟨N, hN⟩ : ∃ N, N = (word 0xD2000008 [(d.toNat, 18), (w.toNat, 4)]).toNat := ⟨_, rfl⟩
  obtain ⟨h0, h1, h2, h3, h4⟩ := lay11 _ 0xD2 N (by decide) (by decide) d w hN
  refine one rfl hN.symm h0 (by decide) ?_
  clear hN; unfold decodeNat; rw [(digits h0).1, (digits h0).2]
  show decodeD 2 N 0 = _
  unfold decodeD; simp only [h1, h2, h3, h4, beq_self_eq_true, Bool.and_self, Nat.reduceEqDiff, if_false, if_true]
theorem waitbat (a : BitVec 6) (i : BitVec 11) : Statement (.waitbat a i) := by
  obtain ⟨N, hN⟩ : ∃ N, N = (word 0xD3000800 [(a.toNat, 12), (i.toNat, 0)]).toNat := ⟨_, rfl⟩
  obtain ⟨h0, h1, h2, h3, h4⟩ := lay51 _ 0xD3 N (by decide) (by decide) a i hN
  refine one rfl hN.symm h0 (by decide) ?_
  clear hN; unfold decodeNat; rw [(digits h0).1, (digits h0).2]
  show decodeD 3 N 0 = _
  unfold decodeD; simp only [h1, h2, h3, h4, beq_self_eq_true, Bool.and_self, Nat.reduceEqDiff, if_false, if_true]
theorem waitbatAll : Statement .waitbatAll := by
  obtain ⟨N, hN⟩ : ∃ N, N = (word 0xD3040800 []).toNat := ⟨_, rfl⟩
  obtain ⟨h0, h1, h2⟩ := lay52 _ 0xD3 N (by decide) (by decide)  hN
  refine one rfl hN.symm h0 (by decide) ?_
  clear hN; unfold decodeNat; rw [(digits h0).1, (digits h0).2]
  show decodeD 3 N 0 = _
  unfold decodeD; simp only [h1, h2, beq_self_eq_true, Bool.and_false, Bool.false_and, Bool.false_eq_true, Nat.reduceBEq, Bool.and_true, Bool.true_and, Nat.reduceEqDiff, if_false, if_true]
theorem febset (a : BitVec 6) (w : BitVec 2) : Statement (.febset a w) := by
  obtain ⟨N, hN⟩ : ∃ N, N = (word 0xD4000008 [(a.toNat, 12), (w.toNat, 4)]).toNat := ⟨_, rfl⟩
  obtain ⟨h0, h1, h2, h3, h4, h5⟩ := lay4 _ 0xD4 N (by decide) (by decide) a w hN
  refine one rfl hN.symm h0 (by decide) ?_
  clear hN; unfold decodeNat; rw [(digits h0).1, (digits h0).2]
  show decodeD 4 N 0 = _
  unfold decodeD; simp only [h1, h2, h3, h4, h5, beq_self_eq_true, Bool.and_self, Nat.reduceEqDiff, if_false, if_true]
theorem febsetPut (a : BitVec 6) (w : BitVec 2) : Statement (.febsetPut a w) := by
  obtain ⟨N, hN⟩ : ∃ N, N = (word 0xD4000048 [(a.toNat, 12), (w.toNat, 4)]).toNat := ⟨_, rfl⟩
  obtain ⟨h0, h1, h2, h3, h4, h5, h6⟩ := lay53 _ 0xD4 N (by decide) (by decide) a w hN
  refine one rfl hN.symm h0 (by decide) ?_
  clear hN; unfold decodeNat; rw [(digits h0).1, (digits h0).2]
  show decodeD 4 N 0 = _
  unfold decodeD; simp only [h1, h2, h3, h4, h5, h6, beq_self_eq_true, Bool.and_self, Bool.and_false, Bool.false_and, Bool.false_eq_true, Nat.reduceBEq, Bool.and_true, Bool.true_and, Nat.reduceEqDiff, if_false, if_true]
theorem febclr (a : BitVec 6) (w : BitVec 2) : Statement (.febclr a w) := by
  obtain ⟨N, hN⟩ : ∃ N, N = (word 0xD5000008 [(a.toNat, 12), (w.toNat, 4)]).toNat := ⟨_, rfl⟩
  obtain ⟨h0, h1, h2, h3, h4, h5⟩ := lay4 _ 0xD5 N (by decide) (by decide) a w hN
  refine one rfl hN.symm h0 (by decide) ?_
  clear hN; unfold decodeNat; rw [(digits h0).1, (digits h0).2]
  show decodeD 5 N 0 = _
  unfold decodeD; simp only [h1, h2, h3, h4, h5, beq_self_eq_true, Bool.and_self, Nat.reduceEqDiff, if_false, if_true]
theorem febwait (a : BitVec 6) (b : BitVec 6) (w : BitVec 2) : Statement (.febwait a b w) := by
  obtain ⟨N, hN⟩ : ∃ N, N = (word 0xD6000008 [(a.toNat, 12), (b.toNat, 6), (w.toNat, 4)]).toNat := ⟨_, rfl⟩
  obtain ⟨h0, h1, h2, h3, h4, h5⟩ := lay54 _ 0xD6 N (by decide) (by decide) a b w hN
  refine one rfl hN.symm h0 (by decide) ?_
  clear hN; unfold decodeNat; rw [(digits h0).1, (digits h0).2]
  show decodeD 6 N 0 = _
  unfold decodeD; simp only [h1, h2, h3, h4, h5, beq_self_eq_true, Bool.and_self, Nat.reduceEqDiff, if_false, if_true]
theorem febwe (a : BitVec 6) (w : BitVec 2) : Statement (.febwe a w) := by
  obtain ⟨N, hN⟩ : ∃ N, N = (word 0xD7000008 [(a.toNat, 12), (w.toNat, 4)]).toNat := ⟨_, rfl⟩
  obtain ⟨h0, h1, h2, h3, h4, h5⟩ := lay4 _ 0xD7 N (by decide) (by decide) a w hN
  refine one rfl hN.symm h0 (by decide) ?_
  clear hN; unfold decodeNat; rw [(digits h0).1, (digits h0).2]
  show decodeD 7 N 0 = _
  unfold decodeD; simp only [h1, h2, h3, h4, h5, beq_self_eq_true, Bool.and_self, Nat.reduceEqDiff, if_false, if_true]
theorem gang (a : BitVec 6) (w : BitVec 2) : Statement (.gang a w) := by
  obtain ⟨N, hN⟩ : ∃ N, N = (word 0xD8000008 [(a.toNat, 12), (w.toNat, 4)]).toNat := ⟨_, rfl⟩
  obtain ⟨h0, h1, h2, h3, h4, h5⟩ := lay4 _ 0xD8 N (by decide) (by decide) a w hN
  refine one rfl hN.symm h0 (by decide) ?_
  clear hN; unfold decodeNat; rw [(digits h0).1, (digits h0).2]
  show decodeD 8 N 0 = _
  unfold decodeD; simp only [h1, h2, h3, h4, h5, beq_self_eq_true, Bool.and_self, Nat.reduceEqDiff, if_false, if_true]
theorem mma (a : BitVec 6) (b : BitVec 6) (e : Bool) : Statement (.mma a b e) := by
  obtain ⟨N, hN⟩ : ∃ N, N = (word 0xD9000000 [(a.toNat, 12), (b.toNat, 6), (b2n e, 5)]).toNat := ⟨_, rfl⟩
  obtain ⟨h0, h1, h2, h3, h4, h5⟩ := lay55 _ 0xD9 N (by decide) (by decide) a b e hN
  refine one rfl hN.symm h0 (by decide) ?_
  clear hN; unfold decodeNat; rw [(digits h0).1, (digits h0).2]
  show decodeD 9 N 0 = _
  unfold decodeD; simp only [h1, h2, h3, h4, h5, beq_self_eq_true, Bool.and_self, Nat.reduceEqDiff, if_false, if_true]
theorem mmasp (a : BitVec 6) (b : BitVec 6) (e : Bool) : Statement (.mmasp a b e) := by
  obtain ⟨N, hN⟩ : ∃ N, N = (word 0xDA000000 [(a.toNat, 12), (b.toNat, 6), (b2n e, 5)]).toNat := ⟨_, rfl⟩
  obtain ⟨h0, h1, h2, h3, h4, h5⟩ := lay55 _ 0xDA N (by decide) (by decide) a b e hN
  refine one rfl hN.symm h0 (by decide) ?_
  clear hN; unfold decodeNat; rw [(digits h0).1, (digits h0).2]
  show decodeD 10 N 0 = _
  unfold decodeD; simp only [h1, h2, h3, h4, h5, beq_self_eq_true, Bool.and_self, Nat.reduceEqDiff, if_false, if_true]
theorem mmaz (a : BitVec 6) (b : BitVec 6) (e : Bool) : Statement (.mmaz a b e) := by
  obtain ⟨N, hN⟩ : ∃ N, N = (word 0xDB000000 [(a.toNat, 12), (b.toNat, 6), (b2n e, 5)]).toNat := ⟨_, rfl⟩
  obtain ⟨h0, h1, h2, h3, h4, h5⟩ := lay55 _ 0xDB N (by decide) (by decide) a b e hN
  refine one rfl hN.symm h0 (by decide) ?_
  clear hN; unfold decodeNat; rw [(digits h0).1, (digits h0).2]
  show decodeD 11 N 0 = _
  unfold decodeD; simp only [h1, h2, h3, h4, h5, beq_self_eq_true, Bool.and_self, Nat.reduceEqDiff, if_false, if_true]
theorem drain (a : BitVec 6) : Statement (.drain a) := by
  obtain ⟨N, hN⟩ : ∃ N, N = (word 0xDC000000 [(a.toNat, 12)]).toNat := ⟨_, rfl⟩
  obtain ⟨h0, h1, h2, h3⟩ := lay56 _ 0xDC N (by decide) (by decide) a hN
  refine one rfl hN.symm h0 (by decide) ?_
  clear hN; unfold decodeNat; rw [(digits h0).1, (digits h0).2]
  show decodeD 12 N 0 = _
  unfold decodeD; simp only [h1, h2, h3, beq_self_eq_true, Bool.and_self, Nat.reduceEqDiff, if_false, if_true]
theorem drainReg (d : BitVec 6) (a : BitVec 6) : Statement (.drainReg d a) := by
  obtain ⟨N, hN⟩ : ∃ N, N = (word 0xDC000020 [(d.toNat, 18), (a.toNat, 12)]).toNat := ⟨_, rfl⟩
  obtain ⟨h0, h1, h2, h3, h4⟩ := lay57 _ 0xDC N (by decide) (by decide) d a hN
  refine one rfl hN.symm h0 (by decide) ?_
  clear hN; unfold decodeNat; rw [(digits h0).1, (digits h0).2]
  show decodeD 12 N 0 = _
  unfold decodeD; simp only [h1, h2, h3, h4, beq_self_eq_true, Bool.and_false, Bool.false_and, Bool.false_eq_true, Nat.reduceBEq, Bool.and_true, Bool.true_and, Nat.reduceEqDiff, if_false, if_true]
theorem mmwait (w : BitVec 2) : Statement (.mmwait w) := by
  obtain ⟨N, hN⟩ : ∃ N, N = (word 0xDD000008 [(w.toNat, 4)]).toNat := ⟨_, rfl⟩
  obtain ⟨h0, h1, h2, h3⟩ := lay58 _ 0xDD N (by decide) (by decide) w hN
  refine one rfl hN.symm h0 (by decide) ?_
  clear hN; unfold decodeNat; rw [(digits h0).1, (digits h0).2]
  show decodeD 13 N 0 = _
  unfold decodeD; simp only [h1, h2, h3, beq_self_eq_true, Bool.and_self, Nat.reduceEqDiff, if_false, if_true]
theorem tld (d : BitVec 6) (a : BitVec 6) (b : BitVec 6) (q : BitVec 4) (i : Bool) (c : Bool) : Statement (.tld d a b q i c) := by
  obtain ⟨N, hN⟩ : ∃ N, N = (word 0xDE000000 [(d.toNat, 18), (a.toNat, 12), (b.toNat, 6), (q.toNat, 2), (b2n i, 1), (b2n c, 0)]).toNat := ⟨_, rfl⟩
  obtain ⟨h0, h1, h2, h3, h4, h5, h6⟩ := lay59 _ 0xDE N (by decide) (by decide) d a b q i c hN
  refine one rfl hN.symm h0 (by decide) ?_
  clear hN; unfold decodeNat; rw [(digits h0).1, (digits h0).2]
  show decodeD 14 N 0 = _
  unfold decodeD; simp only [h1, h2, h3, h4, h5, h6, Nat.reduceEqDiff, if_false, if_true]
theorem tst (d : BitVec 6) (a : BitVec 6) (b : BitVec 6) (q : BitVec 4) (i : Bool) (c : Bool) : Statement (.tst d a b q i c) := by
  obtain ⟨N, hN⟩ : ∃ N, N = (word 0xDF000000 [(d.toNat, 18), (a.toNat, 12), (b.toNat, 6), (q.toNat, 2), (b2n i, 1), (b2n c, 0)]).toNat := ⟨_, rfl⟩
  obtain ⟨h0, h1, h2, h3, h4, h5, h6⟩ := lay59 _ 0xDF N (by decide) (by decide) d a b q i c hN
  refine one rfl hN.symm h0 (by decide) ?_
  clear hN; unfold decodeNat; rw [(digits h0).1, (digits h0).2]
  show decodeD 15 N 0 = _
  unfold decodeD; simp only [h1, h2, h3, h4, h5, h6, Nat.reduceEqDiff, if_false, if_true]
theorem torg (d : BitVec 6) (a : BitVec 6) (b : BitVec 6) : Statement (.torg d a b) := by
  obtain ⟨N, hN⟩ : ∃ N, N = (word 0xE0000000 [(d.toNat, 18), (a.toNat, 12), (b.toNat, 6)]).toNat := ⟨_, rfl⟩
  obtain ⟨h0, h1, h2, h3, h4⟩ := lay48 _ 0xE0 N (by decide) (by decide) d a b hN
  refine one rfl hN.symm h0 (by decide) ?_
  clear hN; unfold decodeNat; rw [(digits h0).1, (digits h0).2]
  show decodeE 0 N 0 = _
  unfold decodeE; simp only [h1, h2, h3, h4, beq_self_eq_true, if_true]
theorem tzero (d : BitVec 6) (w : BitVec 2) : Statement (.tzero d w) := by
  obtain ⟨N, hN⟩ : ∃ N, N = (word 0xE1000008 [(d.toNat, 18), (w.toNat, 4)]).toNat := ⟨_, rfl⟩
  obtain ⟨h0, h1, h2, h3, h4⟩ := lay11 _ 0xE1 N (by decide) (by decide) d w hN
  refine one rfl hN.symm h0 (by decide) ?_
  clear hN; unfold decodeNat; rw [(digits h0).1, (digits h0).2]
  show decodeE 1 N 0 = _
  unfold decodeE; simp only [h1, h2, h3, h4, beq_self_eq_true, Bool.and_self, Nat.reduceEqDiff, if_false, if_true]
theorem tzeroAll (w : BitVec 2) : Statement (.tzeroAll w) := by
  obtain ⟨N, hN⟩ : ∃ N, N = (word 0xE1000048 [(w.toNat, 4)]).toNat := ⟨_, rfl⟩
  obtain ⟨h0, h1, h2, h3, h4⟩ := lay60 _ 0xE1 N (by decide) (by decide) w hN
  refine one rfl hN.symm h0 (by decide) ?_
  clear hN; unfold decodeNat; rw [(digits h0).1, (digits h0).2]
  show decodeE 1 N 0 = _
  unfold decodeE; simp only [h1, h2, h3, h4, beq_self_eq_true, Bool.and_self, Bool.and_false, Bool.false_and, Bool.false_eq_true, Nat.reduceBEq, Bool.and_true, Bool.true_and, Nat.reduceEqDiff, if_false, if_true]
theorem bmcast (d : BitVec 6) (a : BitVec 6) (b : BitVec 6) : Statement (.bmcast d a b) := by
  obtain ⟨N, hN⟩ : ∃ N, N = (word 0xE2000000 [(d.toNat, 18), (a.toNat, 12), (b.toNat, 6)]).toNat := ⟨_, rfl⟩
  obtain ⟨h0, h1, h2, h3, h4⟩ := lay48 _ 0xE2 N (by decide) (by decide) d a b hN
  refine one rfl hN.symm h0 (by decide) ?_
  clear hN; unfold decodeNat; rw [(digits h0).1, (digits h0).2]
  show decodeE 2 N 0 = _
  unfold decodeE; simp only [h1, h2, h3, h4, beq_self_eq_true, Nat.reduceEqDiff, if_false, if_true]
theorem engq (d : BitVec 6) (a : BitVec 6) (e : BitVec 3) : Statement (.engq d a e) := by
  obtain ⟨N, hN⟩ : ∃ N, N = (word 0xE3000000 [(d.toNat, 18), (a.toNat, 12), (e.toNat, 0)]).toNat := ⟨_, rfl⟩
  obtain ⟨h0, h1, h2, h3, h4⟩ := lay61 _ 0xE3 N (by decide) (by decide) d a e hN
  refine one rfl hN.symm h0 (by decide) ?_
  clear hN; unfold decodeNat; rw [(digits h0).1, (digits h0).2]
  show decodeE 3 N 0 = _
  unfold decodeE; simp only [h1, h2, h3, h4, beq_self_eq_true, Nat.reduceEqDiff, if_false, if_true]
theorem fwait (d : BitVec 6) (a : BitVec 6) (w : BitVec 2) : Statement (.fwait d a w) := by
  obtain ⟨N, hN⟩ : ∃ N, N = (word 0xE4000008 [(d.toNat, 18), (a.toNat, 12), (w.toNat, 4)]).toNat := ⟨_, rfl⟩
  obtain ⟨h0, h1, h2, h3, h4, h5⟩ := lay28 _ 0xE4 N (by decide) (by decide) d a w hN
  refine one rfl hN.symm h0 (by decide) ?_
  clear hN; unfold decodeNat; rw [(digits h0).1, (digits h0).2]
  show decodeE 4 N 0 = _
  unfold decodeE; simp only [h1, h2, h3, h4, h5, beq_self_eq_true, Bool.and_self, Nat.reduceEqDiff, if_false, if_true]
theorem ftest (d : BitVec 6) (a : BitVec 6) (w : BitVec 2) : Statement (.ftest d a w) := by
  obtain ⟨N, hN⟩ : ∃ N, N = (word 0xE5000008 [(d.toNat, 18), (a.toNat, 12), (w.toNat, 4)]).toNat := ⟨_, rfl⟩
  obtain ⟨h0, h1, h2, h3, h4, h5⟩ := lay28 _ 0xE5 N (by decide) (by decide) d a w hN
  refine one rfl hN.symm h0 (by decide) ?_
  clear hN; unfold decodeNat; rw [(digits h0).1, (digits h0).2]
  show decodeE 5 N 0 = _
  unfold decodeE; simp only [h1, h2, h3, h4, h5, beq_self_eq_true, Bool.and_self, Nat.reduceEqDiff, if_false, if_true]
theorem fcancel (a : BitVec 6) (w : BitVec 2) : Statement (.fcancel a w) := by
  obtain ⟨N, hN⟩ : ∃ N, N = (word 0xE6000008 [(a.toNat, 12), (w.toNat, 4)]).toNat := ⟨_, rfl⟩
  obtain ⟨h0, h1, h2, h3, h4, h5⟩ := lay4 _ 0xE6 N (by decide) (by decide) a w hN
  refine one rfl hN.symm h0 (by decide) ?_
  clear hN; unfold decodeNat; rw [(digits h0).1, (digits h0).2]
  show decodeE 6 N 0 = _
  unfold decodeE; simp only [h1, h2, h3, h4, h5, beq_self_eq_true, Bool.and_self, Nat.reduceEqDiff, if_false, if_true]
theorem fres (d : BitVec 6) (a : BitVec 6) (w : BitVec 2) : Statement (.fres d a w) := by
  obtain ⟨N, hN⟩ : ∃ N, N = (word 0xE7000008 [(d.toNat, 18), (a.toNat, 12), (w.toNat, 4)]).toNat := ⟨_, rfl⟩
  obtain ⟨h0, h1, h2, h3, h4, h5⟩ := lay28 _ 0xE7 N (by decide) (by decide) d a w hN
  refine one rfl hN.symm h0 (by decide) ?_
  clear hN; unfold decodeNat; rw [(digits h0).1, (digits h0).2]
  show decodeE 7 N 0 = _
  unfold decodeE; simp only [h1, h2, h3, h4, h5, beq_self_eq_true, Bool.and_self, Nat.reduceEqDiff, if_false, if_true]
theorem spawn (d : BitVec 6) (a : BitVec 6) (w : BitVec 2) : Statement (.spawn d a w) := by
  obtain ⟨N, hN⟩ : ∃ N, N = (word 0xE8000008 [(d.toNat, 18), (a.toNat, 12), (w.toNat, 4)]).toNat := ⟨_, rfl⟩
  obtain ⟨h0, h1, h2, h3, h4, h5⟩ := lay28 _ 0xE8 N (by decide) (by decide) d a w hN
  refine one rfl hN.symm h0 (by decide) ?_
  clear hN; unfold decodeNat; rw [(digits h0).1, (digits h0).2]
  show decodeE 8 N 0 = _
  unfold decodeE; simp only [h1, h2, h3, h4, h5, beq_self_eq_true, Bool.and_self, Nat.reduceEqDiff, if_false, if_true]
theorem cwait (w : BitVec 2) : Statement (.cwait w) := by
  obtain ⟨N, hN⟩ : ∃ N, N = (word 0xE9000008 [(w.toNat, 4)]).toNat := ⟨_, rfl⟩
  obtain ⟨h0, h1, h2, h3⟩ := lay58 _ 0xE9 N (by decide) (by decide) w hN
  refine one rfl hN.symm h0 (by decide) ?_
  clear hN; unfold decodeNat; rw [(digits h0).1, (digits h0).2]
  show decodeE 9 N 0 = _
  unfold decodeE; simp only [h1, h2, h3, beq_self_eq_true, Bool.and_self, Nat.reduceEqDiff, if_false, if_true]
theorem cwaitTask (a : BitVec 6) (w : BitVec 2) : Statement (.cwaitTask a w) := by
  obtain ⟨N, hN⟩ : ∃ N, N = (word 0xE9000048 [(a.toNat, 12), (w.toNat, 4)]).toNat := ⟨_, rfl⟩
  obtain ⟨h0, h1, h2, h3, h4, h5, h6⟩ := lay62 _ 0xE9 N (by decide) (by decide) a w hN
  refine one rfl hN.symm h0 (by decide) ?_
  clear hN; unfold decodeNat; rw [(digits h0).1, (digits h0).2]
  show decodeE 9 N 0 = _
  unfold decodeE; simp only [h1, h2, h3, h4, h5, h6, beq_self_eq_true, Bool.and_self, Bool.and_false, Bool.false_and, Bool.false_eq_true, Nat.reduceBEq, Bool.and_true, Bool.true_and, Nat.reduceEqDiff, if_false, if_true]
theorem cancel (a : BitVec 6) (w : BitVec 2) : Statement (.cancel a w) := by
  obtain ⟨N, hN⟩ : ∃ N, N = (word 0xEA000008 [(a.toNat, 12), (w.toNat, 4)]).toNat := ⟨_, rfl⟩
  obtain ⟨h0, h1, h2, h3, h4, h5⟩ := lay4 _ 0xEA N (by decide) (by decide) a w hN
  refine one rfl hN.symm h0 (by decide) ?_
  clear hN; unfold decodeNat; rw [(digits h0).1, (digits h0).2]
  show decodeE 10 N 0 = _
  unfold decodeE; simp only [h1, h2, h3, h4, h5, beq_self_eq_true, Bool.and_self, Nat.reduceEqDiff, if_false, if_true]
theorem qalloc (d : BitVec 6) (u : Bool) (i : BitVec 11) : Statement (.qalloc d u i) := by
  obtain ⟨N, hN⟩ : ∃ N, N = (word 0xEB000000 [(d.toNat, 18), (b2n u, 11), (i.toNat, 0)]).toNat := ⟨_, rfl⟩
  obtain ⟨h0, h1, h2, h3, h4⟩ := lay14 _ 0xEB N (by decide) (by decide) d u i hN
  refine one rfl hN.symm h0 (by decide) ?_
  clear hN; unfold decodeNat; rw [(digits h0).1, (digits h0).2]
  show decodeE 11 N 0 = _
  unfold decodeE; simp only [h1, h2, h3, h4, beq_self_eq_true, Nat.reduceEqDiff, if_false, if_true]
theorem qfree (a : BitVec 6) (u : Bool) (i : BitVec 11) : Statement (.qfree a u i) := by
  obtain ⟨N, hN⟩ : ∃ N, N = (word 0xEC000000 [(a.toNat, 12), (b2n u, 11), (i.toNat, 0)]).toNat := ⟨_, rfl⟩
  obtain ⟨h0, h1, h2, h3, h4⟩ := lay63 _ 0xEC N (by decide) (by decide) a u i hN
  refine one rfl hN.symm h0 (by decide) ?_
  clear hN; unfold decodeNat; rw [(digits h0).1, (digits h0).2]
  show decodeE 12 N 0 = _
  unfold decodeE; simp only [h1, h2, h3, h4, beq_self_eq_true, Nat.reduceEqDiff, if_false, if_true]
theorem qfreel (d : BitVec 6) (a : BitVec 6) (i : BitVec 11) : Statement (.qfreel d a i) := by
  obtain ⟨N, hN⟩ : ∃ N, N = (word 0xED000800 [(d.toNat, 18), (a.toNat, 12), (i.toNat, 0)]).toNat := ⟨_, rfl⟩
  obtain ⟨h0, h1, h2, h3, h4⟩ := lay5 _ 0xED N (by decide) (by decide) d a i hN
  refine one rfl hN.symm h0 (by decide) ?_
  clear hN; unfold decodeNat; rw [(digits h0).1, (digits h0).2]
  show decodeE 13 N 0 = _
  unfold decodeE; simp only [h1, h2, h3, h4, beq_self_eq_true, Nat.reduceEqDiff, if_false, if_true]
theorem mfill (d : BitVec 6) (a : BitVec 6) (b : BitVec 6) : Statement (.mfill d a b) := by
  obtain ⟨N, hN⟩ : ∃ N, N = (word 0xEE000000 [(d.toNat, 18), (a.toNat, 12), (b.toNat, 6)]).toNat := ⟨_, rfl⟩
  obtain ⟨h0, h1, h2, h3, h4⟩ := lay48 _ 0xEE N (by decide) (by decide) d a b hN
  refine one rfl hN.symm h0 (by decide) ?_
  clear hN; unfold decodeNat; rw [(digits h0).1, (digits h0).2]
  show decodeE 14 N 0 = _
  unfold decodeE; simp only [h1, h2, h3, h4, beq_self_eq_true, Nat.reduceEqDiff, if_false, if_true]
theorem mflush (a : BitVec 6) : Statement (.mflush a) := by
  obtain ⟨N, hN⟩ : ∃ N, N = (word 0xEF000800 [(a.toNat, 12)]).toNat := ⟨_, rfl⟩
  obtain ⟨h0, h1, h2, h3⟩ := lay64 _ 0xEF N (by decide) (by decide) a hN
  refine one rfl hN.symm h0 (by decide) ?_
  clear hN; unfold decodeNat; rw [(digits h0).1, (digits h0).2]
  show decodeE 15 N 0 = _
  unfold decodeE; simp only [h1, h2, h3, beq_self_eq_true, Bool.and_self, Nat.reduceEqDiff, if_false, if_true]
theorem dlarm (a : BitVec 6) (b : BitVec 6) (w : BitVec 2) : Statement (.dlarm a b w) := by
  obtain ⟨N, hN⟩ : ∃ N, N = (word 0xF0000008 [(a.toNat, 12), (b.toNat, 6), (w.toNat, 4)]).toNat := ⟨_, rfl⟩
  obtain ⟨h0, h1, h2, h3, h4, h5⟩ := lay54 _ 0xF0 N (by decide) (by decide) a b w hN
  refine one rfl hN.symm h0 (by decide) ?_
  clear hN; unfold decodeNat; rw [(digits h0).1, (digits h0).2]
  show decodeF 0 N 0 = _
  unfold decodeF; simp only [h1, h2, h3, h4, h5, beq_self_eq_true, Bool.and_self, if_true]
theorem dlrd (d : BitVec 6) (w : BitVec 2) : Statement (.dlrd d w) := by
  obtain ⟨N, hN⟩ : ∃ N, N = (word 0xF1000008 [(d.toNat, 18), (w.toNat, 4)]).toNat := ⟨_, rfl⟩
  obtain ⟨h0, h1, h2, h3, h4⟩ := lay11 _ 0xF1 N (by decide) (by decide) d w hN
  refine one rfl hN.symm h0 (by decide) ?_
  clear hN; unfold decodeNat; rw [(digits h0).1, (digits h0).2]
  show decodeF 1 N 0 = _
  unfold decodeF; simp only [h1, h2, h3, h4, beq_self_eq_true, Bool.and_self, Nat.reduceEqDiff, if_false, if_true]
theorem ttboard (d : BitVec 6) (i : BitVec 11) : Statement (.ttboard d i) := by
  obtain ⟨N, hN⟩ : ∃ N, N = (word 0xF2000800 [(d.toNat, 18), (i.toNat, 0)]).toNat := ⟨_, rfl⟩
  obtain ⟨h0, h1, h2, h3⟩ := lay65 _ 0xF2 N (by decide) (by decide) d i hN
  refine one rfl hN.symm h0 (by decide) ?_
  clear hN; unfold decodeNat; rw [(digits h0).1, (digits h0).2]
  show decodeF 2 N 0 = _
  unfold decodeF; simp only [h1, h2, h3, beq_self_eq_true, Nat.reduceEqDiff, if_false, if_true]
theorem ttalight (a : BitVec 6) : Statement (.ttalight a) := by
  obtain ⟨N, hN⟩ : ∃ N, N = (word 0xF3000800 [(a.toNat, 12)]).toNat := ⟨_, rfl⟩
  obtain ⟨h0, h1, h2, h3⟩ := lay64 _ 0xF3 N (by decide) (by decide) a hN
  refine one rfl hN.symm h0 (by decide) ?_
  clear hN; unfold decodeNat; rw [(digits h0).1, (digits h0).2]
  show decodeF 3 N 0 = _
  unfold decodeF; simp only [h1, h2, h3, beq_self_eq_true, Bool.and_self, Nat.reduceEqDiff, if_false, if_true]
theorem ttread (d : BitVec 6) (a : BitVec 6) (h : Bool) (q : Bool) : Statement (.ttread d a h q) := by
  obtain ⟨N, hN⟩ : ∃ N, N = (word 0xF4000800 [(d.toNat, 18), (a.toNat, 12), (b2n h, 1), (b2n q, 0)]).toNat := ⟨_, rfl⟩
  obtain ⟨h0, h1, h2, h3, h4, h5⟩ := lay66 _ 0xF4 N (by decide) (by decide) d a h q hN
  refine one rfl hN.symm h0 (by decide) ?_
  clear hN; unfold decodeNat; rw [(digits h0).1, (digits h0).2]
  show decodeF 4 N 0 = _
  unfold decodeF; simp only [h1, h2, h3, h4, h5, beq_self_eq_true, Nat.reduceEqDiff, if_false, if_true]
theorem ttcas (d : BitVec 6) (a : BitVec 6) (b : BitVec 6) (r : Bool) (q : Bool) (w : BitVec 3) : Statement (.ttcas d a b r q w) := by
  obtain ⟨N, hN⟩ : ∃ N, N = (word 0xF5000000 [(d.toNat, 18), (a.toNat, 12), (b.toNat, 6), (b2n r, 4), (b2n q, 3), (w.toNat, 0)]).toNat := ⟨_, rfl⟩
  obtain ⟨h0, h1, h2, h3, h4, h5, h6, h7⟩ := lay67 _ 0xF5 N (by decide) (by decide) d a b r q w hN
  refine one rfl hN.symm h0 (by decide) ?_
  clear hN; unfold decodeNat; rw [(digits h0).1, (digits h0).2]
  show decodeF 5 N 0 = _
  unfold decodeF; simp only [h1, h2, h3, h4, h5, h6, h7, beq_self_eq_true, Nat.reduceEqDiff, if_false, if_true]
theorem ttmax (a : BitVec 6) (b : BitVec 6) (r : Bool) (q : Bool) : Statement (.ttmax a b r q) := by
  obtain ⟨N, hN⟩ : ∃ N, N = (word 0xF6000000 [(a.toNat, 12), (b.toNat, 6), (b2n r, 4), (b2n q, 3)]).toNat := ⟨_, rfl⟩
  obtain ⟨h0, h1, h2, h3, h4, h5, h6, h7⟩ := lay68 _ 0xF6 N (by decide) (by decide) a b r q hN
  refine one rfl hN.symm h0 (by decide) ?_
  clear hN; unfold decodeNat; rw [(digits h0).1, (digits h0).2]
  show decodeF 6 N 0 = _
  unfold decodeF; simp only [h1, h2, h3, h4, h5, h6, h7, beq_self_eq_true, Bool.and_self, Nat.reduceEqDiff, if_false, if_true]
theorem ttadd (d : BitVec 6) (a : BitVec 6) (b : BitVec 6) (c : Bool) (r : Bool) (q : Bool) (w : BitVec 3) : Statement (.ttadd d a b c r q w) := by
  obtain ⟨N, hN⟩ : ∃ N, N = (word 0xF7000000 [(d.toNat, 18), (a.toNat, 12), (b.toNat, 6), (b2n c, 5), (b2n r, 4), (b2n q, 3), (w.toNat, 0)]).toNat := ⟨_, rfl⟩
  obtain ⟨h0, h1, h2, h3, h4, h5, h6, h7⟩ := lay46 _ 0xF7 N (by decide) (by decide) d a b c r q w hN
  refine one rfl hN.symm h0 (by decide) ?_
  clear hN; unfold decodeNat; rw [(digits h0).1, (digits h0).2]
  show decodeF 7 N 0 = _
  unfold decodeF; simp only [h1, h2, h3, h4, h5, h6, h7, Nat.reduceEqDiff, if_false, if_true]
theorem ttwait (a : BitVec 6) : Statement (.ttwait a) := by
  obtain ⟨N, hN⟩ : ∃ N, N = (word 0xF8000800 [(a.toNat, 12)]).toNat := ⟨_, rfl⟩
  obtain ⟨h0, h1, h2, h3⟩ := lay64 _ 0xF8 N (by decide) (by decide) a hN
  refine one rfl hN.symm h0 (by decide) ?_
  clear hN; unfold decodeNat; rw [(digits h0).1, (digits h0).2]
  show decodeF 8 N 0 = _
  unfold decodeF; simp only [h1, h2, h3, beq_self_eq_true, Bool.and_self, Nat.reduceEqDiff, if_false, if_true]
theorem vpush (d : BitVec 6) (a : BitVec 6) (n : Bool) : Statement (.vpush d a n) := by
  obtain ⟨N, hN⟩ : ∃ N, N = (word 0xF9000000 [(d.toNat, 18), (a.toNat, 12), (b2n n, 0)]).toNat := ⟨_, rfl⟩
  obtain ⟨h0, h1, h2, h3, h4⟩ := lay69 _ 0xF9 N (by decide) (by decide) d a n hN
  refine one rfl hN.symm h0 (by decide) ?_
  clear hN; unfold decodeNat; rw [(digits h0).1, (digits h0).2]
  show decodeF 9 N 0 = _
  unfold decodeF; simp only [h1, h2, h3, h4, beq_self_eq_true, Nat.reduceEqDiff, if_false, if_true]
theorem vpop (d : BitVec 6) (b : BitVec 6) (n : Bool) : Statement (.vpop d b n) := by
  obtain ⟨N, hN⟩ : ∃ N, N = (word 0xFA000000 [(d.toNat, 18), (b.toNat, 6), (b2n n, 0)]).toNat := ⟨_, rfl⟩
  obtain ⟨h0, h1, h2, h3, h4, h5⟩ := lay70 _ 0xFA N (by decide) (by decide) d b n hN
  refine one rfl hN.symm h0 (by decide) ?_
  clear hN; unfold decodeNat; rw [(digits h0).1, (digits h0).2]
  show decodeF 10 N 0 = _
  unfold decodeF; simp only [h1, h2, h3, h4, h5, beq_self_eq_true, Bool.and_self, Nat.reduceEqDiff, if_false, if_true]
theorem vcount (d : BitVec 6) (b : BitVec 6) (w : BitVec 2) : Statement (.vcount d b w) := by
  obtain ⟨N, hN⟩ : ∃ N, N = (word 0xFB000008 [(d.toNat, 18), (b.toNat, 6), (w.toNat, 4)]).toNat := ⟨_, rfl⟩
  obtain ⟨h0, h1, h2, h3, h4, h5⟩ := lay29 _ 0xFB N (by decide) (by decide) d b w hN
  refine one rfl hN.symm h0 (by decide) ?_
  clear hN; unfold decodeNat; rw [(digits h0).1, (digits h0).2]
  show decodeF 11 N 0 = _
  unfold decodeF; simp only [h1, h2, h3, h4, h5, beq_self_eq_true, Bool.and_self, Nat.reduceEqDiff, if_false, if_true]
theorem mbpost (a : BitVec 6) (b : BitVec 6) (n : Bool) : Statement (.mbpost a b n) := by
  obtain ⟨N, hN⟩ : ∃ N, N = (word 0xFC000000 [(a.toNat, 12), (b.toNat, 6), (b2n n, 0)]).toNat := ⟨_, rfl⟩
  obtain ⟨h0, h1, h2, h3, h4, h5⟩ := lay71 _ 0xFC N (by decide) (by decide) a b n hN
  refine one rfl hN.symm h0 (by decide) ?_
  clear hN; unfold decodeNat; rw [(digits h0).1, (digits h0).2]
  show decodeF 12 N 0 = _
  unfold decodeF; simp only [h1, h2, h3, h4, h5, beq_self_eq_true, Bool.and_self, Nat.reduceEqDiff, if_false, if_true]
theorem mbtake (d : BitVec 6) (b : BitVec 6) (n : Bool) : Statement (.mbtake d b n) := by
  obtain ⟨N, hN⟩ : ∃ N, N = (word 0xFD000000 [(d.toNat, 18), (b.toNat, 6), (b2n n, 0)]).toNat := ⟨_, rfl⟩
  obtain ⟨h0, h1, h2, h3, h4, h5⟩ := lay70 _ 0xFD N (by decide) (by decide) d b n hN
  refine one rfl hN.symm h0 (by decide) ?_
  clear hN; unfold decodeNat; rw [(digits h0).1, (digits h0).2]
  show decodeF 13 N 0 = _
  unfold decodeF; simp only [h1, h2, h3, h4, h5, beq_self_eq_true, Bool.and_self, Nat.reduceEqDiff, if_false, if_true]
theorem bar (c : Bool) : Statement (.bar c) := by
  obtain ⟨N, hN⟩ : ∃ N, N = (word 0xFE000000 [(b2n c, 0)]).toNat := ⟨_, rfl⟩
  obtain ⟨h0, h1, h2⟩ := lay72 _ 0xFE N (by decide) (by decide) c hN
  refine one rfl hN.symm h0 (by decide) ?_
  clear hN; unfold decodeNat; rw [(digits h0).1, (digits h0).2]
  show decodeF 14 N 0 = _
  unfold decodeF; simp only [h1, h2, beq_self_eq_true, Nat.reduceEqDiff, if_false, if_true]
theorem barWait (a : BitVec 6) (c : Bool) : Statement (.barWait a c) := by
  obtain ⟨N, hN⟩ : ∃ N, N = (word 0xFE000002 [(a.toNat, 12), (b2n c, 0)]).toNat := ⟨_, rfl⟩
  obtain ⟨h0, h1, h2, h3, h4, h5⟩ := lay73 _ 0xFE N (by decide) (by decide) a c hN
  refine one rfl hN.symm h0 (by decide) ?_
  clear hN; unfold decodeNat; rw [(digits h0).1, (digits h0).2]
  show decodeF 14 N 0 = _
  unfold decodeF; simp only [h1, h2, h3, h4, h5, beq_self_eq_true, Bool.and_self, Bool.and_false, Bool.false_and, Bool.false_eq_true, Nat.reduceBEq, Bool.and_true, Bool.true_and, Nat.reduceEqDiff, if_false, if_true]
theorem mark (g : Bool) (i : BitVec 10) : Statement (.mark g i) := by
  obtain ⟨N, hN⟩ : ∃ N, N = (word 0xFF000000 [(b2n g, 10), (i.toNat, 0)]).toNat := ⟨_, rfl⟩
  obtain ⟨h0, h1, h2, h3⟩ := lay74 _ 0xFF N (by decide) (by decide) g i hN
  refine one rfl hN.symm h0 (by decide) ?_
  clear hN; unfold decodeNat; rw [(digits h0).1, (digits h0).2]
  show decodeF 15 N 0 = _
  unfold decodeF; simp only [h1, h2, h3, beq_self_eq_true, Nat.reduceEqDiff, if_false, if_true]
theorem launchDoorbell (a : Nat) (b : Nat) (c : Word) : Statement (.launchDoorbell a b c) := fun h _ => by cases h
theorem launchEntryRead (a : Nat) (b : Nat) : Statement (.launchEntryRead a b) := fun h _ => by cases h
theorem dispatch : Statement .dispatch := fun h _ => by cases h
theorem taskAgeing (a : Nat) (b : Nat) : Statement (.taskAgeing a b) := fun h _ => by cases h
theorem timeSliceEnd (a : Nat) : Statement (.timeSliceEnd a) := fun h _ => by cases h
theorem drainOverrun (a : Nat) : Statement (.drainOverrun a) := fun h _ => by cases h
theorem teamSave (a : Nat) : Statement (.teamSave a) := fun h _ => by cases h
theorem teamRestore (a : Nat) : Statement (.teamRestore a) := fun h _ => by cases h
theorem dependenceUnitEnter (a : Nat) : Statement (.dependenceUnitEnter a) := fun h _ => by cases h
theorem taskComplete (a : Nat) (b : Nat) : Statement (.taskComplete a b) := fun h _ => by cases h
theorem versionEarlyCommit (a : Nat) (b : Nat) : Statement (.versionEarlyCommit a b) := fun h _ => by cases h
theorem mouldConsumerLaunch (a : Nat) (b : Nat) : Statement (.mouldConsumerLaunch a b) := fun h _ => by cases h
theorem poolEnable (a : Nat) (b : Nat) : Statement (.poolEnable a b) := fun h _ => by cases h
theorem poolDisable (a : Nat) (b : Nat) : Statement (.poolDisable a b) := fun h _ => by cases h
theorem mouldEnable (a : Nat) (b : Nat) : Statement (.mouldEnable a b) := fun h _ => by cases h
theorem mouldDisable (a : Nat) (b : Nat) : Statement (.mouldDisable a b) := fun h _ => by cases h
theorem deadlineExpiry (a : Nat) : Statement (.deadlineExpiry a) := fun h _ => by cases h
theorem atctlFire (a : Nat) : Statement (.atctlFire a) := fun h _ => by cases h
theorem dltrigRise : Statement .dltrigRise := fun h _ => by cases h
theorem unveilCancel (a : Nat) : Statement (.unveilCancel a) := fun h _ => by cases h
theorem unveilCapture (a : Nat) : Statement (.unveilCapture a) := fun h _ => by cases h
theorem faultQueueRecord (a : Nat) : Statement (.faultQueueRecord a) := fun h _ => by cases h
theorem faultReplay (a : Nat) (b : Nat) : Statement (.faultReplay a b) := fun h _ => by cases h
theorem faultDeliver (a : Nat) (b : Nat) : Statement (.faultDeliver a b) := fun h _ => by cases h
theorem faultKill (a : Nat) (b : Nat) : Statement (.faultKill a b) := fun h _ => by cases h
theorem tlbInvalidateAddress (a : Nat) : Statement (.tlbInvalidateAddress a) := fun h _ => by cases h
theorem tlbInvalidateAll (a : Nat) : Statement (.tlbInvalidateAll a) := fun h _ => by cases h
theorem scanCommit (a : Nat) : Statement (.scanCommit a) := fun h _ => by cases h
theorem scanDiscard (a : Nat) : Statement (.scanDiscard a) := fun h _ => by cases h
theorem channelReset (a : Nat) (b : Word) : Statement (.channelReset a b) := fun h _ => by cases h
theorem gateRequest (a : Nat) (b : Nat) : Statement (.gateRequest a b) := fun h _ => by cases h
theorem gatePreemptRequest (a : Nat) (b : Nat) : Statement (.gatePreemptRequest a b) := fun h _ => by cases h
theorem gateLift (a : Nat) (b : Nat) : Statement (.gateLift a b) := fun h _ => by cases h
theorem gateClose (a : Nat) : Statement (.gateClose a) := fun h _ => by cases h
theorem gateOpen (a : Nat) : Statement (.gateOpen a) := fun h _ => by cases h
theorem coreDisable (a : BitVec 96) : Statement (.coreDisable a) := fun h _ => by cases h
theorem scanRotation : Statement .scanRotation := fun h _ => by cases h
theorem scanComplete (a : Bool) : Statement (.scanComplete a) := fun h _ => by cases h
theorem patrolRowRead (a : Nat) : Statement (.patrolRowRead a) := fun h _ => by cases h
theorem auditSample : Statement .auditSample := fun h _ => by cases h
theorem probeSend (a : Nat) : Statement (.probeSend a) := fun h _ => by cases h
theorem probeReceive : Statement .probeReceive := fun h _ => by cases h
theorem reportWrite (a : Nat) : Statement (.reportWrite a) := fun h _ => by cases h
theorem governorInterval (a : Nat) : Statement (.governorInterval a) := fun h _ => by cases h
theorem samplerEnable (a : Nat) (b : Nat) (c : Word) : Statement (.samplerEnable a b c) := fun h _ => by cases h
theorem sample (a : Nat) : Statement (.sample a) := fun h _ => by cases h
theorem traceFilter (a : Nat) : Statement (.traceFilter a) := fun h _ => by cases h
theorem haltRecordWrite (a : Nat) : Statement (.haltRecordWrite a) := fun h _ => by cases h
theorem filterLoad (a : Nat) (b : Nat) (c : Word) : Statement (.filterLoad a b c) := fun h _ => by cases h
theorem caliperStart (a : Nat) : Statement (.caliperStart a) := fun h _ => by cases h
theorem caliperStop (a : Nat) : Statement (.caliperStop a) := fun h _ => by cases h
theorem caliperEnd (a : Nat) : Statement (.caliperEnd a) := fun h _ => by cases h
theorem holdPath (a : Nat) (b : Nat) (c : Word) : Statement (.holdPath a b c) := fun h _ => by cases h
theorem releasePath (a : Nat) (b : Nat) (c : Word) : Statement (.releasePath a b c) := fun h _ => by cases h
theorem holdGroup (a : Nat) (b : Nat) (c : Word) : Statement (.holdGroup a b c) := fun h _ => by cases h
theorem releaseGroup (a : Nat) (b : Nat) (c : Word) : Statement (.releaseGroup a b c) := fun h _ => by cases h
theorem debugStep (a : Nat) (b : Nat) (c : Word) : Statement (.debugStep a b c) := fun h _ => by cases h
theorem holdTakesEffect (a : Nat) (b : Nat) : Statement (.holdTakesEffect a b) := fun h _ => by cases h
theorem freeze (a : Nat) (b : Bool) : Statement (.freeze a b) := fun h _ => by cases h
theorem debugPortRead (a : Word) (b : BitVec 12) : Statement (.debugPortRead a b) := fun h _ => by cases h
theorem writeBufferDrain (a : Nat) (b : Nat) : Statement (.writeBufferDrain a b) := fun h _ => by cases h
theorem copyComplete (a : Nat) : Statement (.copyComplete a) := fun h _ => by cases h
theorem matrixOperation (a : Nat) : Statement (.matrixOperation a) := fun h _ => by cases h
theorem turntablePerform (a : Nat) : Statement (.turntablePerform a) := fun h _ => by cases h
theorem revolution (a : Nat) : Statement (.revolution a) := fun h _ => by cases h
theorem fifoEntryLand (a : Nat) : Statement (.fifoEntryLand a) := fun h _ => by cases h
theorem permitReturn (a : Nat) : Statement (.permitReturn a) := fun h _ => by cases h
theorem flitArrival (a : Nat) : Statement (.flitArrival a) := fun h _ => by cases h
theorem reassemblyGrant (a : Nat) : Statement (.reassemblyGrant a) := fun h _ => by cases h
theorem mailboxGrant (a : Nat) : Statement (.mailboxGrant a) := fun h _ => by cases h
theorem chainJob (a : Nat) (b : Nat) : Statement (.chainJob a b) := fun h _ => by cases h
theorem chainLoop (a : Nat) (b : Nat) : Statement (.chainLoop a b) := fun h _ => by cases h
theorem chainCond (a : Nat) (b : Nat) : Statement (.chainCond a b) := fun h _ => by cases h
theorem chainLink (a : Nat) (b : Nat) : Statement (.chainLink a b) := fun h _ => by cases h
theorem chainEnd (a : Nat) (b : Nat) : Statement (.chainEnd a b) := fun h _ => by cases h
theorem engineJobComplete (a : Nat) : Statement (.engineJobComplete a) := fun h _ => by cases h
theorem voxel (a : Nat) : Statement (.voxel a) := fun h _ => by cases h
theorem rulebook (a : Nat) : Statement (.rulebook a) := fun h _ => by cases h
theorem coord (a : Nat) : Statement (.coord a) := fun h _ => by cases h
theorem convertCompress (a : Nat) : Statement (.convertCompress a) := fun h _ => by cases h
theorem convertExpand (a : Nat) : Statement (.convertExpand a) := fun h _ => by cases h
theorem collidePoint (a : Nat) : Statement (.collidePoint a) := fun h _ => by cases h
theorem collideSegment (a : Nat) : Statement (.collideSegment a) := fun h _ => by cases h
theorem collideSphere (a : Nat) : Statement (.collideSphere a) := fun h _ => by cases h
theorem collideSweep (a : Nat) : Statement (.collideSweep a) := fun h _ => by cases h
theorem dynStep (a : Nat) : Statement (.dynStep a) := fun h _ => by cases h
theorem partCreate (a : Nat) : Statement (.partCreate a) := fun h _ => by cases h
theorem partDestroy (a : Nat) : Statement (.partDestroy a) := fun h _ => by cases h
theorem partStart (a : Nat) : Statement (.partStart a) := fun h _ => by cases h
theorem partStop (a : Nat) : Statement (.partStop a) := fun h _ => by cases h
theorem lockedRegisterWrite (a : Nat) (b : Nat) (c : Word) : Statement (.lockedRegisterWrite a b c) := fun h _ => by cases h
theorem hostRegisterWrite (a : Nat) (b : Word) : Statement (.hostRegisterWrite a b) := fun h _ => by cases h
theorem getVersion (a : Nat) : Statement (.getVersion a) := fun h _ => by cases h
theorem getCapabilities (a : Nat) : Statement (.getCapabilities a) := fun h _ => by cases h
theorem negotiateAlgorithms (a : Nat) (b : Bool) : Statement (.negotiateAlgorithms a b) := fun h _ => by cases h
theorem getDigests (a : Nat) : Statement (.getDigests a) := fun h _ => by cases h
theorem getCertificate (a : Nat) (b : Nat) : Statement (.getCertificate a b) := fun h _ => by cases h
theorem spdmChallenge (a : Nat) (b : Nat) : Statement (.spdmChallenge a b) := fun h _ => by cases h
theorem getMeasurements (a : Nat) (b : Nat) : Statement (.getMeasurements a b) := fun h _ => by cases h
theorem keyExchange (a : Nat) : Statement (.keyExchange a) := fun h _ => by cases h
theorem spdmFinish (a : Nat) (b : Bool) : Statement (.spdmFinish a b) := fun h _ => by cases h
theorem spdmHeartbeat (a : Nat) : Statement (.spdmHeartbeat a) := fun h _ => by cases h
theorem keyUpdate (a : Nat) (b : Bool) : Statement (.keyUpdate a b) := fun h _ => by cases h
theorem endSession (a : Nat) : Statement (.endSession a) := fun h _ => by cases h
theorem getTdispVersion (a : Nat) (b : Nat) : Statement (.getTdispVersion a b) := fun h _ => by cases h
theorem getTdispCapabilities (a : Nat) (b : Nat) : Statement (.getTdispCapabilities a b) := fun h _ => by cases h
theorem lockInterfaceRequest (a : Nat) (b : Nat) : Statement (.lockInterfaceRequest a b) := fun h _ => by cases h
theorem getDeviceInterfaceReport (a : Nat) (b : Nat) : Statement (.getDeviceInterfaceReport a b) := fun h _ => by cases h
theorem getDeviceInterfaceState (a : Nat) (b : Nat) : Statement (.getDeviceInterfaceState a b) := fun h _ => by cases h
theorem startInterfaceRequest (a : Nat) (b : Nat) : Statement (.startInterfaceRequest a b) := fun h _ => by cases h
theorem stopInterfaceRequest (a : Nat) (b : Nat) : Statement (.stopInterfaceRequest a b) := fun h _ => by cases h
theorem keyProg (a : Nat) (b : Nat) : Statement (.keyProg a b) := fun h _ => by cases h
theorem kSetGo (a : Nat) (b : Nat) : Statement (.kSetGo a b) := fun h _ => by cases h
theorem kSetStop (a : Nat) (b : Nat) : Statement (.kSetStop a b) := fun h _ => by cases h
theorem ideStreamInsecure (a : Nat) : Statement (.ideStreamInsecure a) := fun h _ => by cases h
theorem boardRelayObject (a : Nat) (b : List Byte) : Statement (.boardRelayObject a b) := fun h _ => by cases h
theorem keyEstablish (a : Nat) : Statement (.keyEstablish a) := fun h _ => by cases h
theorem keyClear (a : Nat) : Statement (.keyClear a) := fun h _ => by cases h
theorem boardResponse (a : Nat) (b : Nat) (c : BitVec 256) : Statement (.boardResponse a b c) := fun h _ => by cases h
theorem powerOnReset (a : Bool) : Statement (.powerOnReset a) := fun h _ => by cases h
theorem bootImageWrite (a : List Byte) (b : Bool) (c : Bool) (d : Option Nat) (e : BitVec 96) : Statement (.bootImageWrite a b c d e) := fun h _ => by cases h
theorem linkTraining (a : Bool) : Statement (.linkTraining a) := fun h _ => by cases h
theorem perstAssert : Statement .perstAssert := fun h _ => by cases h
theorem hotReset : Statement .hotReset := fun h _ => by cases h
theorem linkDown : Statement .linkDown := fun h _ => by cases h
theorem illegalInstruction (a : Word) : Statement (.illegalInstruction a) := fun h _ => by cases h
theorem illFormedWord (a : Word) : Statement (.illFormedWord a) := fun h _ => by cases h
theorem fetchFault : Statement .fetchFault := fun h _ => by cases h
theorem softError (a : Nat) (b : Nat) (c : Nat) (d : Bool) : Statement (.softError a b c d) := fun h _ => by cases h
theorem hostAccess (a : Bool) (b : Nat) (c : List Byte) : Statement (.hostAccess a b c) := fun h _ => by cases h
theorem eviction (a : Nat) : Statement (.eviction a) := fun h _ => by cases h
theorem doeDiscovery (a : Nat) : Statement (.doeDiscovery a) := fun h _ => by cases h
theorem pointMoveComplete : Statement .pointMoveComplete := fun h _ => by cases h

end Sys2Proof.Laws.F
end

