-- ==== Sys2Proof/Laws/ScalarForms.lean ====
section
/-! SUPPORT. What the obligations about computing, comparing and crossing lanes rest on, beside the forms of Forms.lean. -/

namespace Sys2Proof.Machine

theorem shl32 (p q : Word) : p <<< q.toNat = if q.toNat < 32 then p <<< q.toNat else 0 := by
  split
  · rfl
  · exact BitVec.shiftLeft_eq_zero (by omega)
theorem shr32 (p q : Word) : p >>> q.toNat = if q.toNat < 32 then p >>> q.toNat else 0 := by
  split
  · rfl
  · exact BitVec.ushiftRight_eq_zero (by omega)
theorem sshr32 (p q : Word) : p.sshiftRight q.toNat = if q.toNat < 32 then p.sshiftRight q.toNat else if p.msb then 0xFFFFFFFF else 0 := by
  split
  · rfl
  · apply BitVec.eq_of_getLsbD_eq
    intro i hi
    rw [BitVec.getLsbD_sshiftRight]
    have h1 : ¬ (32 ≤ i) := by omega
    have h2 : ¬ (q.toNat + i < 32) := by omega
    cases hm : p.msb
    · simp [h1, h2]
    · simp only [h1, h2, decide_false, Bool.not_false, Bool.true_and, if_true, if_false]
      have := (by decide : ∀ i : Fin 32, (0xFFFFFFFF#32).getLsbD i = true) ⟨i, hi⟩
      exact this.symm
theorem popc_eq (p : Word) : popCount p = (List.range 32).countP p.getLsbD := by
  unfold popCount; rw [List.countP_eq_length_filter]; rfl
theorem clz_eq (p : Word) : (BitVec.ofNat 32 (leadingZeros p)) = if p = 0 then 32 else BitVec.ofNat 32 (31 - p.toNat.log2) := by
  unfold leadingZeros; split <;> rfl
theorem bin_congr {s : State} {ok d a b w u x y per cls dr} {f g : State → Nat → Word → Word → Word × Nat} (h : ∀ s k p q, f s k p q = g s k p q) :
    s.bin ok d a b w u x y per cls dr f = s.bin ok d a b w u x y per cls dr g := by
  have : f = g := by funext s k p q; exact h s k p q
  rw [this]
theorem una_congr {s : State} {ok d a w u x per cls dr} {f g : State → Nat → Word → Word × Nat} (h : ∀ s k p, f s k p = g s k p) :
    s.una ok d a w u x per cls dr f = s.una ok d a w u x per cls dr g := by
  have : f = g := by funext s k p; exact h s k p
  rw [this]
theorem Computes.congr {i s u l l' U D M M' z f dr} (h : Computes i s u l U D M z f dr) (hl : l = l') (hM : M = M') : Computes i s u l' U D M' z f dr := by
  subst hl hM; exact h
theorem ne_dec (p q : Word) : (p != q) = decide (p ≠ q) := by by_cases h : p = q <;> simp [h]
theorem slti (i : BitVec 11) (x : Word) : x.slt (imm32 i) = decide (x.toInt < i.toInt) := by
  show decide _ = _
  rw [imm32, BitVec.toInt_signExtend_of_le (by decide)]
theorem cmp_congr {s : State} {ok d a b w u x y} {f g : State → Word → Word → Bool × Nat} (h : ∀ s p q, f s p q = g s p q) :
    s.cmp ok d a b w u x y f = s.cmp ok d a b w u x y g := by
  have : f = g := by funext s p q; exact h s p q
  rw [this]
/-- Clause 1 of what `Obligations.ComparesAndPredicates` says. -/
theorem comparesAndPredicates_1 : CompareForm .iceq (fun _ => true) (fun _ p q => (decide (p = q), 0)) := compare_of (fun _ _ _ _ _ _ _ _ => rfl) (fun _ _ _ _ _ => rfl)
/-- Clause 2 of what `Obligations.ComparesAndPredicates` says. -/
theorem comparesAndPredicates_2 : CompareForm .icne (fun _ => true) (fun _ p q => (decide (p ≠ q), 0)) :=
  compare_of (fun _ _ _ _ _ _ _ _ => congrArg Host.Outcome.next (cmp_congr fun _ p q => congrArg (·, 0) (ne_dec p q))) (fun _ _ _ _ _ => rfl)
/-- Clause 3 of what `Obligations.ComparesAndPredicates` says. -/
theorem comparesAndPredicates_3 : CompareForm .iclt (fun _ => true) (fun _ p q => (decide (p.toInt < q.toInt), 0)) := compare_of (fun _ _ _ _ _ _ _ _ => rfl) (fun _ _ _ _ _ => rfl)
/-- Clause 4 of what `Obligations.ComparesAndPredicates` says. -/
theorem comparesAndPredicates_4 : CompareForm .icle (fun _ => true) (fun _ p q => (decide (p.toInt ≤ q.toInt), 0)) := compare_of (fun _ _ _ _ _ _ _ _ => rfl) (fun _ _ _ _ _ => rfl)
/-- Clause 5 of what `Obligations.ComparesAndPredicates` says. -/
theorem comparesAndPredicates_5 : CompareForm .icltu (fun _ => true) (fun _ p q => (decide (p.toNat < q.toNat), 0)) := compare_of (fun _ _ _ _ _ _ _ _ => rfl) (fun _ _ _ _ _ => rfl)
/-- Clause 6 of what `Obligations.ComparesAndPredicates` says. -/
theorem comparesAndPredicates_6 : CompareForm .icleu (fun _ => true) (fun _ p q => (decide (p.toNat ≤ q.toNat), 0)) := compare_of (fun _ _ _ _ _ _ _ _ => rfl) (fun _ _ _ _ _ => rfl)
/-- Clause 7 of what `Obligations.ComparesAndPredicates` says. -/
theorem comparesAndPredicates_7 : CompareImmediateForm .iceqi (fun i p => decide (p = i.signExtend 32)) := compareImmediate_of (fun _ _ _ _ _ => rfl)
/-- Clause 8 of what `Obligations.ComparesAndPredicates` says. -/
theorem comparesAndPredicates_8 : CompareImmediateForm .iclti (fun i p => decide (p.toInt < i.toInt)) := compareImmediate_of (fun s d a u i => by
  show State.icmpi _ _ _ _ (fun x => x.slt (imm32 i)) = _
  rw [show (fun x : Word => x.slt (imm32 i)) = fun x => decide (x.toInt < i.toInt) from funext (slti i)])
/-- Clause 9 of what `Obligations.ComparesAndPredicates` says. -/
theorem comparesAndPredicates_9 : PredicateForm .pand (fun p q => p && q) := predicate_of (g := (· &&& ·)) (fun _ _ _ _ _ _ => rfl) (fun x y k hk => by simp)
/-- Clause 10 of what `Obligations.ComparesAndPredicates` says. -/
theorem comparesAndPredicates_10 : PredicateForm .por (fun p q => p || q) := predicate_of (g := (· ||| ·)) (fun _ _ _ _ _ _ => rfl) (fun x y k hk => by simp)
/-- Clause 11 of what `Obligations.ComparesAndPredicates` says. -/
theorem comparesAndPredicates_11 : PredicateForm .pxor (fun p q => xor p q) := predicate_of (g := (· ^^^ ·)) (fun _ _ _ _ _ _ => rfl) (fun x y k hk => by simp)
/-- Clause 12 of what `Obligations.ComparesAndPredicates` says. -/
theorem comparesAndPredicates_12 : PredicateForm .pandn (fun p q => p && !q) := predicate_of (g := fun x y => x &&& ~~~y) (fun _ _ _ _ _ _ => rfl) (fun x y k hk => by simp [hk])
theorem fcmp_of {mk : BitVec 6 → BitVec 6 → BitVec 6 → BitVec 2 → Bool → Bool → Bool → Instr} {both : Bool} {f g : Fp → Fp → Bool × Nat}
    (hi : ∀ s d a b w u x y, exec (mk d a b w u x y) s = s.fcmp d a b w u x y both g) (h : ∀ p q, g p q = f p q) : FloatCompareForm mk both f := by
  have : g = f := by funext p q; exact h p q
  subst this
  exact compare_of (fun s d a b w u x y => hi s d a b w u x y) (fun _ _ _ _ _ => rfl)
theorem beq_dec (a b : Int) : (a == b) = decide (a = b) := by by_cases h : a = b <;> simp [h]
/-- Clause 1 of what `Obligations.FloatCompares` says. -/
theorem floatCompares_1 : FloatCompareForm .fceq true (fun p q => (!p.isNan && !q.isNan && decide (Fp.order p q = 0), nvOf [p, q])) :=
  fcmp_of (fun _ _ _ _ _ _ _ _ => rfl) (fun p q => by unfold fpEq; rw [beq_dec])
theorem fcne_eq (p q : Fp) : (!(fpEq p q).1, (fpEq p q).2) = (p.isNan || q.isNan || decide (Fp.order p q ≠ 0), nvOf [p, q]) := by
  unfold fpEq; rw [beq_dec]; cases p.isNan <;> cases q.isNan <;> simp
/-- Clause 2 of what `Obligations.FloatCompares` says. -/
theorem floatCompares_2 : FloatCompareForm .fcne false (fun p q => (p.isNan || q.isNan || decide (Fp.order p q ≠ 0), nvOf [p, q])) :=
  fcmp_of (g := fun p q => (!(fpEq p q).1, (fpEq p q).2)) (fun _ _ _ _ _ _ _ _ => rfl) fcne_eq
/-- Clause 3 of what `Obligations.FloatCompares` says. -/
theorem floatCompares_3 : FloatCompareForm .fclt true (fun p q => if p.isNan || q.isNan then (false, fNV) else (decide (Fp.order p q < 0), 0)) :=
  fcmp_of (fun _ _ _ _ _ _ _ _ => rfl) (fun _ _ => rfl)
/-- Clause 4 of what `Obligations.FloatCompares` says. -/
theorem floatCompares_4 : FloatCompareForm .fcle true (fun p q => if p.isNan || q.isNan then (false, fNV) else (decide (Fp.order p q ≤ 0), 0)) :=
  fcmp_of (fun _ _ _ _ _ _ _ _ => rfl) (fun _ _ => rfl)
/-- Clause 5 of what `Obligations.FloatCompares` says. -/
theorem floatCompares_5 : FloatCompareForm .fcun false (fun p q => (p.isNan || q.isNan, nvOf [p, q])) :=
  fcmp_of (g := fun p q => (p.isNan || q.isNan, nvOf [p, q])) (fun _ _ _ _ _ _ _ _ => rfl) (fun _ _ => rfl)
theorem special_of {mk : BitVec 6 → BitVec 6 → BitVec 2 → Bool → Bool → Instr} {f : Fmt → Env → Fp → Nat × Nat}
    (hi : ∀ s d a w u x, exec (mk d a w u x) s = s.special d a w u x f) :
    UnaryForm mk State.floatET fun s _ _ p => s.unrounded (fun t ftz x _ => f t { ftz := ftz } (t.unpack ftz x)) p 0 :=
  unary_of 1 clsLONG (fun _ => false) (fun s d a w u x => hi s d a w u x) (fun _ _ _ _ _ _ => rfl)
theorem words_two (r : Dw (Fp × Fp)) : r.words.1.length = 2 := by cases r <;> rfl
theorem special_two (r : Res) : (dwSpecial r).1.length = 2 := by cases r <;> rfl
theorem binary_two (g : Fp → Fp → Res) (alg) (a b c d) : (dwBinary g alg a b c d).1.length = 2 := by
  unfold dwBinary
  dsimp only
  split
  · exact special_two _
  · split
    · exact special_two _
    · exact words_two _
theorem root_two (a b) : (dwRoot a b).1.length = 2 := by
  unfold dwRoot; split
  · exact special_two _
  · exact special_two _
  · rfl
  · exact special_two _
  · exact words_two _
theorem normal_two (a b) : (dwNormal a b).1.length = 2 := by
  unfold dwNormal; split
  · exact special_two _
  · exact special_two _
  · exact words_two _
theorem shuffle_of {i : Instr} {s : State} {ok : Bool} {d a : BitVec 6} {uses : List Use} {marks : List Nat} {w : BitVec 2} {late : Bool} {f : State → Nat → Int}
    (hi : exec i s = s.shuffle ok d a uses marks w late f) (hf : ∀ (s : State) g b k, f (s.gap g b) k = f s k) :
    Shuffles i s (vr d && vr a && ok) uses d a marks (f s) :=
  computes_of_cross _ hi (one_nodup _) (fun hl => by simp only [Bool.and_eq_true] at hl; exact fun n hn => by rw [List.mem_singleton.mp hn]; exact vr_lt hl.1.1)
    (by obtain ⟨g, b, e⟩ := s.seen_me (.exm :: .vw a.toNat :: uses); rw [e]; exact perLane_congr _ _ fun k => by
          show ([(State.gap s g b).shuffled a.toNat k (f (State.gap s g b) k)], 0) = _
          rw [hf]; rfl)
theorem shuffle_of' {i : Instr} {s : State} {d a : BitVec 6} {uses : List Use} {marks : List Nat} {f : Nat → Int}
    (h : Shuffles i s (vr d && vr a && true) uses d a marks f) : Shuffles i s (vr d && vr a) uses d a marks f := by
  rw [Bool.and_true] at h; exact h
theorem vote_of {s : State} {d a b : BitVec 6} {w : BitVec 2} {f : LaneMask → LaneMask → Bool} {i : Instr} (hi : exec i s = s.vote d a b w f)
    (hl : (small d 6 && small a 12 && small b 2) = true) (hc : s.clear false [.p a.toNat] = true) :
    ∃ t, exec i s = .next t ∧ Computed s t s.me.sreg s.me.vlane (s.votesWith d.toNat (f (s.voters a b s.active) s.active)) s.me.cm 0 [] (s.pc + 4) := by
  have hn : ∀ us : List Use, (∀ x ∈ us, x = .p a.toNat ∨ x = .exm) → s.seen us = s := by
    intro us h
    unfold State.seen State.unmapped
    rw [if_neg]
    simp only [List.any_eq_true, not_exists, not_and, Bool.not_eq_true]
    intro x hx
    rcases h x hx with rfl | rfl <;> rfl
  unfold State.vote at hi
  rw [State.checked_clear hl hc] at hi
  rw [hn _ (by simp)] at hi
  refine ⟨_, hi, ?_⟩
  dsimp only
  rw [← State.finish_zero _ _ fun _ => 0]
  have hd : d.toNat < 6 := by simp only [Bool.and_eq_true, small, decide_eq_true_eq] at hl; exact hl.1.1
  generalize f (s.voters a b s.active) s.active = yes
  refine State.finish_computed rfl ?_ (fun _ => Group.sreg_congr (by simp) _) (fun _ _ => Group.vlane_congr (by simp) _ _) (fun n => ?_) (by simp) (by simp) ?_
    (by simp) (by simp) (by simp) (State.enabledFlags_zero _) rfl (by simp)
  · have hsp : ∀ (g : Group) n x, (g.setP n x).special = g.special := fun g n x => by unfold Group.setP; split <;> rfl
    exact (hsp _ _ _).trans (hsp _ _ _)
  · simp only [State.withMe_me]
    show Group.preg (Group.setP _ _ _) n = _
    rw [Group.preg_setP _ _ _ _ (by omega), Group.preg_setP _ _ _ _ (by omega)]
    unfold State.votesWith
    by_cases h1 : n = 2 * d.toNat + 1
    · subst h1; simp
    · by_cases h2 : n = 2 * d.toNat
      · subst h2; simp
      · simp [h1, h2]
  · rw [hn _ (by simp)]; simp
theorem scan_ok {x : Bool} {rs act} : scanOut x rs act = perLane act (fun k => match rs.find? (·.1 == k) with
    | some r => ([if x then r.2.1.getD 0 else r.2.2.1], r.2.2.2)
    | none => ([], 0)) ([], 0) := rfl
theorem dot_two (f : Nat → Option (List Word) → List Word × Nat) (hf : ∀ k p, (f k p).1.length = 2) (ks : List Nat) (p : Option (List Word)) (hp : ∀ q, p = some q → q.length = 2) :
    (foldLanes f p ks).1.length = 2 := by
  induction ks generalizing p with
  | nil => unfold foldLanes; cases p with
    | none => rfl
    | some q => exact hp q rfl
  | cons k ks ih => unfold foldLanes; exact ih _ (by rintro q ⟨⟩; exact hf k p)
theorem sum_two (s : State) (a : BitVec 6) : (s.sumOf a).1.length = 2 := by
  unfold State.sumOf
  split
  · unfold firstPair; dsimp only; split
    · exact special_two _
    · rfl
  · exact dot_two _ (fun k p => by cases p with
      | none => rfl
      | some p => exact binary_two _ _ _ _ _ _) _ _ (by rintro q ⟨⟩)
theorem pair_two (s : State) (a b : BitVec 6) : (s.dotOf a b).1.length = 2 := by
  unfold State.dotOf; refine dot_two _ (fun k p => ?_) (lanesOf s.active) none (fun q h => by cases h)
  exact binary_two _ _ _ _ _ _
theorem stall_eq (w : BitVec 2) : stallOf w = (([0, 2, 4, 8] : List Nat).getD w.toNat 0) := by revert w; decide
theorem perm_bits (c : Nat → Byte) (k : Nat) (hk : k < 4) : bits (BitVec.ofNat 32 (leNat ((List.range 4).map c))) (8 * k) 8 = (c k).toNat := by
  have h0 := (c 0).isLt; have h1 := (c 1).isLt; have h2 := (c 2).isLt; have h3 := (c 3).isLt
  have e : leNat ((List.range 4).map c) = (c 0).toNat + 256 * ((c 1).toNat + 256 * ((c 2).toNat + 256 * ((c 3).toNat + 256 * 0))) := rfl
  rw [e]
  unfold bits
  rw [BitVec.toNat_ofNat]
  obtain rfl | rfl | rfl | rfl : k = 0 ∨ k = 1 ∨ k = 2 ∨ k = 3 := by omega
  all_goals (simp only [Nat.reduceMul, Nat.reducePow] at *; omega)

end Sys2Proof.Machine
end

