-- ==== Sys2Proof/Laws/Unsealed.lean ====
section
/-! SUPPORT. An unsealed partition is never locked and never in ERROR: every operation of the machine keeps that. -/

namespace Sys2Proof.Machine

/-- An unsealed partition is neither locked nor in ERROR. -/
def OpenIn (sealed : Bool) (x : PartState) : Prop := sealed = false → x ≠ .locked ∧ x ≠ .error
/-- The same of a partition. -/
abbrev OpenPart (q : Partition) : Prop := OpenIn q.isSealed q.state
/-- The same of all eight. -/
def OpenAll (ps : Vector Partition 8) : Prop := ∀ n (h : n < 8), OpenPart ps[n]
/-- The same of a state's partitions. -/
abbrev Open (s : State) : Prop := OpenAll s.parts
theorem open_unlocked {b : Bool} : OpenIn b .unlocked := fun _ => ⟨by decide, by decide⟩
theorem open_run {b : Bool} : OpenIn b .run := fun _ => ⟨by decide, by decide⟩
theorem open_none {b : Bool} : OpenIn b .none := fun _ => ⟨by decide, by decide⟩
theorem open_at {s : State} {n : Nat} {f : Partition → Partition} (h : Open s) (hf : n < 8 → OpenPart (f (s.part n))) : Open (s.setPart n f) := by
  unfold State.setPart
  by_cases h8 : n < 8
  · rw [dif_pos h8]
    intro m hm
    show OpenPart ((s.parts.set n (f s.parts[n]) h8)[m])
    rw [Vector.getElem_set]
    split
    · have := hf ‹_›
      unfold State.part at this
      simpa [*] using this
    · exact h m hm
  · rw [dif_neg h8]; exact h
theorem open_map {ps : Vector Partition 8} {f : Partition → Partition} (h : OpenAll ps) (hf : ∀ q, OpenPart q → OpenPart (f q)) : OpenAll (ps.map f) := by
  intro n hn
  rw [Vector.getElem_map]
  exact hf _ (h n hn)
theorem part_open {s : State} {n : Nat} (h : Open s) : OpenPart (s.part n) := by
  unfold State.part
  by_cases hn : n < 8
  · simpa [hn] using h n hn
  · have : s.parts[n]? = none := by simp; omega
    rw [this]; intro _; exact ⟨by decide, by decide⟩
/-- The same of the state an instruction answers. -/
def OutOpen (o : Out) : Prop := ∀ t, o = .next t → Open t
/-- The same of a state that may be absent, alone or in a pair. -/
def OptOpen (o : Option State) : Prop := ∀ t, o = some t → Open t
/-- The same of the state in an optional pair. -/
def OptOpen2 {α : Type} (o : Option (α × State)) : Prop := ∀ t, o = some t → Open t.2
/-- The same of the state of a successful access. -/
def ExOpen {ε : Type} (o : Except ε State) : Prop := ∀ t, o = .ok t → Open t
/-- The same of the state of a failed access. -/
def ErrOpen {ε α : Type} (o : Except (ε × State) α) : Prop := ∀ t, o = .error t → Open t.2
theorem OutOpen.mk {t : State} (h : Open t) : OutOpen (.next t) := fun _ e => by injection e with e; rw [← e]; exact h
theorem OutOpen.stop {f : Fault} : OutOpen (.fault f) := fun _ e => by cases e
theorem OutOpen.refuse {f : Refusal} : OutOpen (.refused f) := fun _ e => by cases e
theorem OptOpen.mk {t : State} (h : Open t) : OptOpen (some t) := fun _ e => by injection e with e; rw [← e]; exact h
theorem OptOpen.none : OptOpen .none := fun _ e => by cases e
theorem OptOpen2.mk {α : Type} {t : α × State} (h : Open t.2) : OptOpen2 (some t) := fun _ e => by injection e with e; rw [← e]; exact h
theorem OptOpen2.none {α : Type} : OptOpen2 (α := α) .none := fun _ e => by cases e
theorem ExOpen.mk {ε : Type} {t : State} (h : Open t) : ExOpen (ε := ε) (.ok t) := fun _ e => by injection e with e; rw [← e]; exact h
theorem ExOpen.error {ε : Type} {x : ε} : ExOpen (.error x) := fun _ e => by cases e
theorem ErrOpen.mk {ε α : Type} {t : ε × State} (h : Open t.2) : ErrOpen (α := α) (.error t) := fun _ e => by injection e with e; rw [← e]; exact h
theorem ErrOpen.ok {ε α : Type} {x : α} : ErrOpen (ε := ε) (.ok x) := fun _ e => by cases e
theorem foldl_open {β : Type} {f : State → β → State} {l : List β} {s : State} (h : Open s)
    (hf : ∀ (t : State) a, Open t → Open (f t a)) :
    Open (l.foldl f s) := by
  induction l generalizing s with
  | nil => exact h
  | cons a l ih => exact ih (hf s a h)
theorem foldl_open_fst {α β : Type} {f : State × α → β → State × α} {l : List β} {s : State × α} (h : Open s.1)
    (hf : ∀ (t : State × α) a, Open t.1 → Open (f t a).1) :
    Open (l.foldl f s).1 := by
  induction l generalizing s with
  | nil => exact h
  | cons a l ih => exact ih (hf s a h)
theorem foldl_open_snd {α β : Type} {f : α × State → β → α × State} {l : List β} {s : α × State} (h : Open s.2)
    (hf : ∀ (t : α × State) a, Open t.2 → Open (f t a).2) :
    Open (l.foldl f s).2 := by
  induction l generalizing s with
  | nil => exact h
  | cons a l ih => exact ih (hf s a h)
theorem foldl_open_job  {β : Type} {f : (Job) → β → (Job)} {l : List β} {s : Job} (h : Open s.s)
    (hf : ∀ (t : Job) a, Open t.s → Open (f t a).s) :
    Open (l.foldl f s).s := by
  induction l generalizing s with
  | nil => exact h
  | cons a l ih => exact ih (hf s a h)
theorem foldl_open_voxel  {β : Type} {f : (VoxelRun) → β → (VoxelRun)} {l : List β} {s : VoxelRun} (h : Open s.j.s)
    (hf : ∀ (t : VoxelRun) a, Open t.j.s → Open (f t a).j.s) :
    Open (l.foldl f s).j.s := by
  induction l generalizing s with
  | nil => exact h
  | cons a l ih => exact ih (hf s a h)
theorem foldl_open_job_fst {α : Type} {β : Type} {f : (Job × α) → β → (Job × α)} {l : List β} {s : Job × α} (h : Open s.1.s)
    (hf : ∀ (t : Job × α) a, Open t.1.s → Open (f t a).1.s) :
    Open (l.foldl f s).1.s := by
  induction l generalizing s with
  | nil => exact h
  | cons a l ih => exact ih (hf s a h)
theorem foldl_open_job_snd {α : Type} {β : Type} {f : (α × Job) → β → (α × Job)} {l : List β} {s : α × Job} (h : Open s.2.s)
    (hf : ∀ (t : α × Job) a, Open t.2.s → Open (f t a).2.s) :
    Open (l.foldl f s).2.s := by
  induction l generalizing s with
  | nil => exact h
  | cons a l ih => exact ih (hf s a h)
theorem foldl_open_trd {α : Type} {γ : Type} {β : Type} {f : (α × γ × State) → β → (α × γ × State)} {l : List β} {s : α × γ × State} (h : Open s.2.2)
    (hf : ∀ (t : α × γ × State) a, Open t.2.2 → Open (f t a).2.2) :
    Open (l.foldl f s).2.2 := by
  induction l generalizing s with
  | nil => exact h
  | cons a l ih => exact ih (hf s a h)
theorem foldl_open_job_trd {α : Type} {γ : Type} {β : Type} {f : (α × γ × Job) → β → (α × γ × Job)} {l : List β} {s : α × γ × Job} (h : Open s.2.2.s)
    (hf : ∀ (t : α × γ × Job) a, Open t.2.2.s → Open (f t a).2.2.s) :
    Open (l.foldl f s).2.2.s := by
  induction l generalizing s with
  | nil => exact h
  | cons a l ih => exact ih (hf s a h)
theorem OptOpen.ite {c : Prop} [Decidable c] {a b : Option State} (ha : OptOpen a) (hb : OptOpen b) : OptOpen (if c then a else b) := by split <;> assumption
theorem ErrOpen.map {ε α β : Type} {o : Except (ε × State) α} {f : α → β} (h : ErrOpen o) : ErrOpen (o.map f) := by
  cases o with
  | ok x => exact ErrOpen.ok
  | error e => exact fun t e2 => h t (by injection e2 with e2; rw [e2])
theorem ErrOpen.of_map {ε α β : Type} {o : Except (ε × State) α} {f : α → β} {x : ε × State} (e : o.map f = .error x) (h : ErrOpen o) : Open x.2 := ErrOpen.map h x e
theorem getD_open {o : Option State} {s : State} (ho : OptOpen o) (h : Open s) : Open (o.getD s) := by
  cases o with
  | none => exact h
  | some t => exact ho t rfl
theorem foldl_open_part {β : Type} {f : Partition → β → Partition} {l : List β} {s : Partition} (h : OpenPart s) (hf : ∀ (t : Partition) a, OpenPart t → OpenPart (f t a)) : OpenPart (l.foldl f s) := by
  induction l generalizing s with
  | nil => exact h
  | cons a l ih => exact ih (hf s a h)

theorem State.setTeam_open {s : State} {id : Nat} {f : Team → Team} (h0 : Open s) : Open (State.setTeam s id f) := by
  unfold State.setTeam
  with_reducible repeat' (first | assumption)
theorem State.setPart_open {s : State} {p : Nat} {f : Partition → Partition} (h0 : Open s) (h1 : ∀ (t0 : Partition), OpenPart t0 → OpenPart (f t0)) : Open (State.setPart s p f) := by
  exact open_at h0 fun _ => h1 _ (part_open h0)
theorem State.setVersion_open {s : State} {part : Nat} {num : Nat} {f : Version → Version} (h0 : Open s) : Open (State.setVersion s part num f) := by
  unfold State.setVersion
  with_reducible repeat' (first | assumption | apply State.setPart_open | intro _)
theorem State.snoop_open {s : State} {ag : Agent} {pa : Nat} {b : Byte} (h0 : Open s) : Open (State.snoop s ag pa b) := by
  unfold State.snoop
  with_reducible repeat' (first | assumption | dsimp only [id_eq, Open, OpenPart] | split)
theorem State.writeByte_open {s : State} {ag : Agent} {p : Place} {b : Byte} (h0 : Open s) : Open (State.writeByte s ag p b) := by
  unfold State.writeByte
  with_reducible repeat' (first | assumption | apply State.setVersion_open | apply State.snoop_open | apply State.setTeam_open | dsimp only [id_eq, Open, OpenPart] | split)
theorem State.writeBytes_open {s : State} {ag : Agent} {p : Place} {a3 : List Byte} (h0 : Open s) : Open (State.writeBytes s ag p a3) := by
  induction a3 generalizing s ag p with
  | nil =>
    unfold State.writeBytes
    with_reducible repeat' (first | apply ih | assumption | apply State.writeByte_open)
  | cons x xs ih =>
    unfold State.writeBytes
    with_reducible repeat' (first | apply ih | assumption | apply State.writeByte_open)
theorem State.notePatrol_open {s : State} {ag : Agent} {p : Place} {n : Nat} (h0 : Open s) : Open (State.notePatrol s ag p n) := by
  unfold State.notePatrol
  with_reducible repeat' (first | assumption | dsimp only [id_eq, Open, OpenPart] | split)
theorem State.unstrike_open {s : State} {kind : Nat} {tile : Nat} {addr : Nat} (h0 : Open s) : Open (State.unstrike s kind tile addr) := by
  unfold State.unstrike
  with_reducible repeat' (first | assumption)
theorem Partition.setReg_open {p : Partition} {n : Nat} {v : Word} (h0 : OpenPart p) : OpenPart (Partition.setReg p n v) := by
  unfold Partition.setReg
  with_reducible repeat' (first | assumption)
theorem State.msi_open {s : State} {fn : Nat} {vec : Nat} (h0 : Open s) : Open (State.msi s fn vec) := by
  unfold State.msi
  with_reducible repeat' (first | assumption)
theorem State.pushCause_open {s : State} {part : Nat} {fc : FaultCause} (h0 : Open s) : Open (State.pushCause s part fc) := by
  unfold State.pushCause
  with_reducible repeat' (first | assumption | apply State.setPart_open | apply Partition.setReg_open | apply State.msi_open | intro _ | dsimp only [id_eq, Open, OpenPart] | split)
theorem State.countUe_open {s : State} {part : Nat} (h0 : Open s) : Open (State.countUe s part) := by
  unfold State.countUe
  with_reducible repeat' (first | assumption | apply State.setPart_open | apply Partition.setReg_open | intro _)
theorem State.unattributed_open {s : State} {part : Nat} {kind : Nat} {paddr : Nat} {tile : Nat} {task : Nat} {write : optParam Bool Bool.false} (h0 : Open s) : Open (State.unattributed s part kind paddr tile task write) := by
  unfold State.unattributed
  with_reducible repeat' (first | assumption | apply State.pushCause_open | apply State.countUe_open)
theorem State.overwritten_open {s : State} {ag : Agent} {p : Place} {n : Nat} (h0 : Open s) : Open (State.overwritten s ag p n) := by
  unfold State.overwritten
  with_reducible repeat' (first | assumption | apply State.notePatrol_open | apply State.unstrike_open | apply State.unattributed_open | apply foldl_open | intro _ | dsimp only [id_eq, Open, OpenPart] | split)
theorem State.performWrite_open {s : State} {ag : Agent} {p : Place} {bs : List Byte} (h0 : Open s) : Open (State.performWrite s ag p bs) := by
  unfold State.performWrite
  with_reducible repeat' (first | assumption | apply State.writeBytes_open | apply State.overwritten_open)
theorem State.drainEntry_open {s : State} {team : Nat} {line : Nat} (h0 : Open s) : Open (State.drainEntry s team line) := by
  unfold State.drainEntry
  with_reducible repeat' (first | assumption | apply State.setTeam_open | apply State.performWrite_open | apply foldl_open | intro _ | dsimp only [id_eq, Open, OpenPart] | split)
theorem State.drainAll_open {s : State} {team : Nat} (h0 : Open s) : Open (State.drainAll s team) := by
  unfold State.drainAll
  with_reducible repeat' (first | assumption | apply State.drainEntry_open | apply foldl_open | intro _)
theorem State.haltRecord_open {s : State} {g : Group} {path : Nat} {id : Nat} {killed : Bool} {cause : Nat} (h0 : Open s) : Open (State.haltRecord s g path id killed cause) := by
  unfold State.haltRecord
  with_reducible repeat' (first | assumption | apply State.setPart_open | apply Partition.setReg_open | intro _ | dsimp only [id_eq, Open, OpenPart] | split)
theorem State.killedRecords_open {s : State} {g : Group} (h0 : Open s) : Open (State.killedRecords s g) := by
  unfold State.killedRecords
  with_reducible repeat' (first | assumption | apply State.haltRecord_open | apply foldl_open | intro _)
theorem Partition.setTask_open {p : Partition} {id : Nat} {f : Task → Task} (h0 : OpenPart p) : OpenPart (Partition.setTask p id f) := by
  unfold Partition.setTask
  with_reducible repeat' (first | assumption)
theorem State.discardVersion_open {s : State} {part : Nat} {task : Nat} (h0 : Open s) : Open (State.discardVersion s part task) := by
  unfold State.discardVersion
  with_reducible repeat' (first | assumption | apply State.setPart_open | apply Partition.setTask_open | intro _)
theorem State.review_open {s : State} {part : Nat} (h0 : Open s) : Open (State.review s part) := by
  unfold State.review
  with_reducible repeat' (first | assumption | apply State.setPart_open | intro _)
theorem Partition.leaveDep_open {p : Partition} {num : Nat} (h0 : OpenPart p) : OpenPart (Partition.leaveDep p num) := by
  unfold Partition.leaveDep
  with_reducible repeat' (first | assumption)
theorem State.leaveUnit_open {s : State} {part : Nat} {num : Nat} (h0 : Open s) : Open (State.leaveUnit s part num) := by
  unfold State.leaveUnit
  with_reducible repeat' (first | assumption | apply State.review_open | apply State.setPart_open | apply Partition.leaveDep_open | intro _)
theorem State.cancelChain_open {s : State} {team : Nat} {future : Nat} (h0 : Open s) : Open (State.cancelChain s team future) := by
  unfold State.cancelChain
  with_reducible repeat' (first | assumption | apply State.leaveUnit_open | apply foldl_open | intro _)
theorem State.cancelFuture_open {s : State} {team : Nat} {k : Nat} (h0 : Open s) : Open (State.cancelFuture s team k) := by
  unfold State.cancelFuture
  with_reducible repeat' (first | assumption | apply State.cancelChain_open | apply State.setTeam_open | dsimp only [id_eq, Open, OpenPart] | split)
theorem State.writeHead_open {s : State} {part : Nat} {k : Nat} (h0 : Open s) : Open (State.writeHead s part k) := by
  unfold State.writeHead
  with_reducible repeat' (first | assumption | dsimp only [id_eq, Open, OpenPart] | split)
theorem State.withdrawIf_open {s : State} {pick : Nat → Nat → Bool} (h0 : Open s) : Open (State.withdrawIf s pick) := by
  unfold State.withdrawIf
  with_reducible repeat' (first | assumption | apply State.writeHead_open | apply foldl_open | intro _)
theorem State.withdraw_open {s : State} {seq : Nat} (h0 : Open s) : Open (State.withdraw s seq) := by
  unfold State.withdraw
  with_reducible repeat' (first | assumption | apply State.withdrawIf_open)
theorem State.leave_open {s : State} {g : Group} (h0 : Open s) : Open (State.leave s g) := by
  unfold State.leave
  with_reducible repeat' (first | assumption | dsimp only [id_eq, Open, OpenPart] | split)
theorem State.captureSlots_open {s : State} {part : Nat} (h0 : Open s) : Open (State.captureSlots s part) := by
  unfold State.captureSlots
  with_reducible repeat' (first | assumption | apply State.setPart_open | intro _ | dsimp only [id_eq, Open, OpenPart] | split)
theorem State.setChannel_open {s : State} {tile : Nat} {f : Channel → Channel} (h0 : Open s) : Open (State.setChannel s tile f) := by
  unfold State.setChannel
  with_reducible repeat' (first | assumption)
theorem State.sound_open {s : State} {kind : Nat} {tile : Nat} {lo : Nat} {n : Nat} (h0 : Open s) : Open (State.sound s kind tile lo n) := by
  unfold State.sound
  with_reducible repeat' (first | assumption | dsimp only [id_eq, Open, OpenPart] | split)
theorem State.discardFifo_open {s : State} {tile : Nat} (h0 : Open s) : Open (State.discardFifo s tile) := by
  unfold State.discardFifo
  with_reducible repeat' (first | assumption | apply State.sound_open | apply State.setChannel_open)
theorem State.endStack_open {s : State} {t : Team} (h0 : Open s) : Open (State.endStack s t) := by
  unfold State.endStack
  with_reducible repeat' (first | assumption | apply State.setChannel_open | apply State.discardFifo_open | apply foldl_open | intro _)
theorem State.removeTeam_open {s : State} {id : Nat} (h0 : Open s) : Open (State.removeTeam s id) := by
  unfold State.removeTeam
  with_reducible repeat' (first | assumption | apply State.cancelFuture_open | apply State.withdraw_open | apply State.leave_open | apply State.setPart_open | apply Partition.setTask_open | apply State.captureSlots_open | apply State.endStack_open | apply foldl_open | intro _ | dsimp only [id_eq, Open, OpenPart] | split)
theorem State.flushTask_open {s : State} {part : Nat} {task : Nat} (h0 : Open s) : Open (State.flushTask s part task) := by
  unfold State.flushTask
  with_reducible repeat' (first | assumption | apply State.drainAll_open | apply State.killedRecords_open | apply State.discardVersion_open | apply State.cancelChain_open | apply State.removeTeam_open | apply State.setPart_open | apply Partition.setTask_open | apply foldl_open | intro _ | dsimp only [id_eq, Open, OpenPart] | split)
theorem State.flushDying_open {s : State} (h0 : Open s) : Open (State.flushDying s) := by
  unfold State.flushDying
  with_reducible repeat' (first | assumption | apply State.flushTask_open | apply foldl_open | intro _)
theorem State.killTask_open {s : State} {part : Nat} {task : Nat} (h0 : Open s) : Open (State.killTask s part task) := by
  unfold State.killTask
  with_reducible repeat' (first | assumption | apply State.flushDying_open | apply State.setPart_open | apply Partition.setTask_open | intro _)
theorem State.withMe_open {s : State} {f : Group → Group} (h0 : Open s) : Open (State.withMe s f) := by
  unfold State.withMe
  with_reducible repeat' (first | assumption)
theorem State.setPath_open {s : State} {f : Path → Path} (h0 : Open s) : Open (State.setPath s f) := by
  unfold State.setPath
  with_reducible repeat' (first | assumption | apply State.withMe_open)
theorem State.systemCause_open {s : State} {c : Cause} {xpc : DWord} (h0 : Open s) : Open (State.systemCause s c xpc) := by
  unfold State.systemCause
  with_reducible repeat' (first | assumption | apply State.killTask_open | apply State.pushCause_open | apply State.withMe_open | apply State.setPath_open | dsimp only [id_eq, Open, OpenPart] | split)
theorem State.killAll_open {s : State} {p : Nat} (h0 : Open s) : Open (State.killAll s p) := by
  unfold State.killAll
  with_reducible repeat' (first | assumption | apply State.killTask_open | apply foldl_open | intro _)
theorem State.atelierWrite_open {s : State} {part : Nat} {va : Nat} {bs : List Byte} (h0 : Open s) : ExOpen (State.atelierWrite s part va bs) := by
  unfold State.atelierWrite
  with_reducible repeat' (first | assumption | apply State.performWrite_open | apply ExOpen.mk | exact ExOpen.error | apply foldl_open_snd | intro _ | dsimp only [id_eq, Open, OpenPart] | split)
theorem State.atelierWrite_open_of {s : State} {part : Nat} {va : Nat} {bs : List Byte} {y : State} (e : (State.atelierWrite s part va bs) = .ok y) (h0 : Open s) : Open y :=
  State.atelierWrite_open h0 y e
theorem State.clearKeys_open {s : State} {p : Nat} (h0 : Open s) : Open (State.clearKeys s p) := by
  unfold State.clearKeys
  with_reducible repeat' (first | assumption)
theorem State.stopStores_open {s : State} {p : Nat} (h0 : Open s) : Open (State.stopStores s p) := by
  unfold State.stopStores
  with_reducible repeat' (first | assumption | refine State.atelierWrite_open_of (by assumption) ?_ | apply State.setPart_open | apply State.clearKeys_open | apply Partition.setReg_open | intro _ | dsimp only [id_eq, Open, OpenPart] | split)
theorem State.setSlot_open {s : State} {j : Nat} {f : Slot → Slot} (h0 : Open s) : Open (State.setSlot s j f) := by
  unfold State.setSlot
  with_reducible repeat' (first | assumption)
theorem State.ttSound_open {s : State} {j : Nat} (h0 : Open s) : Open (State.ttSound s j) := by
  unfold State.ttSound
  with_reducible repeat' (first | assumption)
theorem State.stopUnits_open {s : State} {p : Nat} (h0 : Open s) : Open (State.stopUnits s p) := by
  unfold State.stopUnits
  with_reducible repeat' (first | assumption | apply State.setSlot_open | apply State.ttSound_open | apply State.setPart_open | apply Partition.setReg_open | apply foldl_open | apply foldl_open_part | intro _)
theorem State.zeroPrivate_open {s : State} {p : Nat} (h0 : Open s) : Open (State.zeroPrivate s p) := by
  unfold State.zeroPrivate
  with_reducible repeat' (first | assumption)
theorem State.announce_open {s : State} {part : Nat} (h0 : Open s) : Open (State.announce s part) := by
  unfold State.announce
  with_reducible repeat' (first | assumption | apply State.msi_open)
theorem State.stopFinish_open {s : State} {p : Nat} (h0 : Open s) : Open (State.stopFinish s p) := by
  unfold State.stopFinish
  with_reducible repeat' (first | assumption | apply State.stopStores_open | apply State.stopUnits_open | apply State.zeroPrivate_open | apply State.announce_open | apply State.setPart_open | exact open_unlocked | intro _ | dsimp only [id_eq, Open, OpenPart] | split)
theorem State.stopAdvance_open {s : State} {p : Nat} (h0 : Open s) : Open (State.stopAdvance s p) := by
  unfold State.stopAdvance
  with_reducible repeat' (first | assumption | apply State.killAll_open | apply State.stopFinish_open | dsimp only [id_eq, Open, OpenPart] | split)
theorem parsePartition_open {bs : List Byte}  : OpenPart (parsePartition bs) := by
  unfold parsePartition
  with_reducible repeat' (first | exact open_unlocked)
theorem State.create_open {s : State} {p : Nat} (h0 : Open s) : OptOpen (State.create s p) := by
  unfold State.create
  with_reducible repeat' (first | assumption | apply parsePartition_open | apply State.announce_open | apply State.setPart_open | apply OptOpen.mk | exact OptOpen.none | intro _ | dsimp only [id_eq, Open, OpenPart] | apply OptOpen.ite)
theorem State.create_open_of {s : State} {p : Nat} {y : State} (e : (State.create s p) = some y) (h0 : Open s) : Open y :=
  State.create_open h0 y e
theorem State.destroy_open {s : State} {p : Nat} (h0 : Open s) : OptOpen (State.destroy s p) := by
  unfold State.destroy
  with_reducible repeat' (first | assumption | apply State.clearKeys_open | apply State.announce_open | apply State.setPart_open | apply OptOpen.mk | exact OptOpen.none | exact open_none | intro _ | dsimp only [id_eq, Open, OpenPart] | apply OptOpen.ite)
theorem State.destroy_open_of {s : State} {p : Nat} {y : State} (e : (State.destroy s p) = some y) (h0 : Open s) : Open y :=
  State.destroy_open h0 y e
theorem State.start_open {s : State} {p : Nat} (h0 : Open s) : OptOpen (State.start s p) := by
  unfold State.start
  with_reducible repeat' (first | assumption | apply State.announce_open | apply State.setPart_open | apply OptOpen.mk | exact OptOpen.none | exact open_run | intro _ | apply OptOpen.ite)
theorem State.start_open_of {s : State} {p : Nat} {y : State} (e : (State.start s p) = some y) (h0 : Open s) : Open y :=
  State.start_open h0 y e
theorem State.stopBegin_open {s : State} {p : Nat} (h0 : Open s) : Open (State.stopBegin s p) := by
  unfold State.stopBegin
  with_reducible repeat' (first | assumption | apply State.stopAdvance_open | apply State.setPart_open | intro _)
theorem State.stop_open {s : State} {p : Nat} (h0 : Open s) : OptOpen (State.stop s p) := by
  unfold State.stop
  with_reducible repeat' (first | assumption | apply State.stopBegin_open | apply OptOpen.mk | exact OptOpen.none | dsimp only [id_eq, Open, OpenPart] | apply OptOpen.ite)
theorem State.stop_open_of {s : State} {p : Nat} {y : State} (e : (State.stop s p) = some y) (h0 : Open s) : Open y :=
  State.stop_open h0 y e
theorem State.partCommand_open {s : State} {cmd : Nat} {p : Nat} (h0 : Open s) : Open (State.partCommand s cmd p) := by
  unfold State.partCommand
  dsimp only
  split
  · rename_i x e
    show Open x
    split at e
    · exact State.create_open_of e h0
    · exact State.destroy_open_of e h0
    · exact State.start_open_of e h0
    · exact State.stop_open_of e h0
  · exact h0
theorem State.charge_open {s : State} {d : Done} (h0 : Open s) : Open (State.charge s d) := by
  unfold State.charge
  with_reducible repeat' (first | assumption | apply State.withMe_open)
theorem State.setGroup_open {s : State} {seq : Nat} {f : Group → Group} (h0 : Open s) : Open (State.setGroup s seq f) := by
  unfold State.setGroup
  with_reducible repeat' (first | assumption | dsimp only [id_eq, Open, OpenPart] | split)
theorem State.restartGroup_open {s : State} {seq : Nat} (h0 : Open s) : Open (State.restartGroup s seq) := by
  unfold State.restartGroup
  with_reducible repeat' (first | assumption | apply State.withdrawIf_open | apply State.setGroup_open | apply State.setPart_open | apply State.pushCause_open | apply Partition.setReg_open | intro _ | dsimp only [id_eq, Open, OpenPart] | split)
theorem State.uerr_open {s : State} {c : Cause} (h0 : Open s) : Open (State.uerr s c) := by
  unfold State.uerr
  with_reducible repeat' (first | assumption | apply State.countUe_open | apply State.charge_open | apply State.restartGroup_open | apply State.withMe_open | apply State.killTask_open | apply State.pushCause_open | dsimp only [id_eq, Open, OpenPart] | split)
theorem State.userTrap_open {s : State} {cause : Word} {mask : LaneMask} {xpc : DWord} {inst : Word} (h0 : Open s) : Open (State.userTrap s cause mask xpc inst) := by
  unfold State.userTrap
  with_reducible repeat' (first | assumption | apply State.withMe_open)
theorem State.raise_open {s : State} {c : Cause} (h0 : Open s) : Open (State.raise s c) := by
  unfold State.raise
  with_reducible repeat' (first | assumption | apply State.uerr_open | apply State.setPath_open | apply State.charge_open | apply State.userTrap_open | apply State.systemCause_open | dsimp only [id_eq, Open, OpenPart] | split)
theorem State.checkedFor_open {s : State} {act : LaneMask} {legal : Bool} {once : Bool} {uses : List Use} {k : State → State} (h0 : Open s) (h1 : ∀ (t0 : State), Open t0 → Open (k t0)) : Open (State.checkedFor s act legal once uses k) := by
  unfold State.checkedFor
  with_reducible repeat' (first | assumption | apply h1 | apply State.raise_open | apply State.withMe_open | dsimp only [id_eq, Open, OpenPart] | split)
theorem State.checked_open {s : State} {legal : Bool} {once : Bool} {uses : List Use} {k : State → State} (h0 : Open s) (h1 : ∀ (t0 : State), Open t0 → Open (k t0)) : Open (State.checked s legal once uses k) := by
  unfold State.checked
  with_reducible repeat' (first | assumption | apply State.checkedFor_open)
theorem State.unread_open {s : State} (h0 : Open s) : Open (State.unread s) := by
  unfold State.unread
  with_reducible repeat' (first | assumption | apply State.withMe_open | dsimp only [id_eq, Open, OpenPart] | split)
theorem State.noRows_open {s : State} {marked : List Nat} {dests : List Nat} (h0 : Open s) : Open (State.noRows s marked dests) := by
  unfold State.noRows
  with_reducible repeat' (first | assumption | apply State.withMe_open | apply State.unread_open)
theorem State.fail_open {s : State} {c : Cause} (h0 : Open s) : Open (State.fail s c) := by
  unfold State.fail
  with_reducible repeat' (first | assumption | apply State.raise_open | apply State.unread_open)
theorem State.refuse_open {s : State} {r : Refuse} {mask : LaneMask} {write : Bool} (h0 : Open s) : Open (State.refuse s r mask write) := by
  unfold State.refuse
  with_reducible repeat' (first | assumption | apply State.fail_open)
theorem State.block_open {s : State} {w : Wait} (h0 : Open s) : Open (State.block s w) := by
  unfold State.block
  with_reducible repeat' (first | assumption | apply State.setPath_open | apply State.withMe_open | apply State.charge_open | dsimp only [id_eq, Open, OpenPart] | split)
theorem State.strongTouch_open {s : State} {team : Option Nat} {p : Place} {n : Nat} (h0 : Open s) : Open (State.strongTouch s team p n) := by
  unfold State.strongTouch
  with_reducible repeat' (first | assumption | apply State.setTeam_open | apply State.drainEntry_open | apply foldl_open | intro _ | dsimp only [id_eq, Open, OpenPart] | split)
theorem State.settleShare_open {s : State} {team : Nat} (h0 : Open s) : Open (State.settleShare s team) := by
  unfold State.settleShare
  with_reducible repeat' (first | assumption | apply State.setTeam_open | dsimp only [id_eq, Open, OpenPart] | split)
theorem State.before_open {s : State} {ag : Agent} {strong : Bool} {as : List Access} (h0 : Open s) : Open (State.before s ag strong as) := by
  unfold State.before
  with_reducible repeat' (first | assumption | apply State.strongTouch_open | apply State.settleShare_open | apply foldl_open | intro _ | dsimp only [id_eq, Open, OpenPart] | split)
theorem State.setMyTeam_open {s : State} {f : Team → Team} (h0 : Open s) : Open (State.setMyTeam s f) := by
  unfold State.setMyTeam
  with_reducible repeat' (first | assumption | apply State.setTeam_open)
theorem State.dropStruckLine_open {s : State} {kind : Nat} {addr : Nat} {pa : Nat} (h0 : Open s) : Open (State.dropStruckLine s kind addr pa) := by
  unfold State.dropStruckLine
  with_reducible repeat' (first | assumption | apply State.setMyTeam_open | apply State.unstrike_open | dsimp only [id_eq, Open, OpenPart] | split)
theorem State.consume_open {s : State} {kind : Nat} {addr : Nat} {pa : Nat} {mask : LaneMask} {write : Bool} (h0 : Open s) : Open (State.consume s kind addr pa mask write) := by
  unfold State.consume
  with_reducible repeat' (first | assumption | apply State.fail_open | apply State.dropStruckLine_open)
theorem State.noteTlb_open {s : State} {core : Option Nat} {part : Nat} {a3 : List Nat} (h0 : Open s) : Open (State.noteTlb s core part a3) := by
  induction a3 generalizing s core part with
  | nil =>
    unfold State.noteTlb
    with_reducible repeat' (first | apply ih | assumption | dsimp only [id_eq, Open, OpenPart] | split)
  | cons x xs ih =>
    unfold State.noteTlb
    with_reducible repeat' (first | apply ih | assumption | dsimp only [id_eq, Open, OpenPart] | split)
theorem State.accesses_open {s : State} {u : Bool} {strong : Bool} {k : Acc} {need : Nat} {as : List Access} {reads : Bool} {go : List Access → State → State} (h0 : Open s) (h1 : ∀ (t0 : List Access) (t1 : State), Open t1 → Open (go t0 t1)) : Open (State.accesses s u strong k need as reads go) := by
  unfold State.accesses
  with_reducible repeat' (first | assumption | apply h1 | apply State.refuse_open | apply State.block_open | apply State.before_open | apply State.consume_open | apply State.noteTlb_open | dsimp only [id_eq, Open, OpenPart] | split)
theorem State.release_open {s : State} {scope : Nat} (h0 : Open s) : Open (State.release s scope) := by
  unfold State.release
  with_reducible repeat' (first | assumption | apply State.drainAll_open | dsimp only [id_eq, Open, OpenPart] | split)
theorem State.atomicAt_open {s : State} {size : Nat} {f : Nat → Nat} {a : Access} (h0 : Open s) : Open (State.atomicAt s size f a).2 := by
  unfold State.atomicAt
  with_reducible repeat' (first | assumption | apply State.strongTouch_open | apply State.performWrite_open | dsimp only [id_eq, Open, OpenPart] | split)
theorem State.atomicAt_open_of {s : State} {size : Nat} {f : Nat → Nat} {a : Access} {y0 : Nat} {y1 : State} (eq0 : (State.atomicAt s size f a) = (y0, y1)) (h0 : Open s) : Open y1 := by
  have h : Open (State.atomicAt s size f a).2 := State.atomicAt_open h0
  rw [eq0] at h; exact h
theorem State.performAll_open {s : State} {size : Nat} {f : Nat → Nat → Nat} {a3 : List Access} (h0 : Open s) : Open (State.performAll s size f a3).2 := by
  induction a3 generalizing s size f with
  | nil =>
    unfold State.performAll
    with_reducible repeat' (first | apply ih | assumption | apply State.atomicAt_open)
  | cons x xs ih =>
    unfold State.performAll
    with_reducible repeat' (first | apply ih | assumption | apply State.atomicAt_open)
theorem State.performAll_open_of {s : State} {size : Nat} {f : Nat → Nat → Nat} {a3 : List Access} {y0 : List (Nat × Nat)} {y1 : State} (eq0 : (State.performAll s size f a3) = (y0, y1)) (h0 : Open s) : Open y1 := by
  have h : Open (State.performAll s size f a3).2 := State.performAll_open h0
  rw [eq0] at h; exact h
theorem State.atomics_open {s : State} {size : Nat} {returns : Bool} {f : Nat → Nat → Nat} {as : List Access} (h0 : Open s) : Open (State.atomics s size returns f as).2 := by
  unfold State.atomics
  with_reducible repeat' (first | assumption | apply State.unattributed_open | apply State.performAll_open | apply foldl_open | intro _)
theorem State.atomics_open_of {s : State} {size : Nat} {returns : Bool} {f : Nat → Nat → Nat} {as : List Access} {y0 : List (Nat × Nat)} {y1 : State} (eq0 : (State.atomics s size returns f as) = (y0, y1)) (h0 : Open s) : Open y1 := by
  have h : Open (State.atomics s size returns f as).2 := State.atomics_open h0
  rw [eq0] at h; exact h
theorem State.acquire_open {s : State} {scope : Nat} (h0 : Open s) : Open (State.acquire s scope) := by
  unfold State.acquire
  with_reducible repeat' (first | assumption | apply State.setMyTeam_open | dsimp only [id_eq, Open, OpenPart] | split)
theorem State.putS_open {s : State} {n : Nat} {x : Word} {lat : Nat} (h0 : Open s) : Open (State.putS s n x lat) := by
  unfold State.putS
  with_reducible repeat' (first | assumption | apply State.withMe_open)
theorem State.mendRow_open {s : State} {n : Nat} {act : LaneMask} (h0 : Open s) : Open (State.mendRow s n act) := by
  unfold State.mendRow
  with_reducible repeat' (first | assumption | dsimp only [id_eq, Open, OpenPart] | split)
theorem State.writeLanes_open {s : State} {n : Nat} {act : LaneMask} {f : Nat → Word} (h0 : Open s) : Open (State.writeLanes s n act f) := by
  unfold State.writeLanes
  with_reducible repeat' (first | assumption | apply State.withMe_open | apply State.mendRow_open)
theorem State.writeResults_open {s : State} {act : LaneMask} {res : List (List Word)} {a3 : Nat} {a4 : List Nat} (h0 : Open s) : Open (State.writeResults s act res a3 a4) := by
  induction a4 generalizing s act res a3 with
  | nil =>
    unfold State.writeResults
    with_reducible repeat' (first | apply ih | assumption | apply State.writeLanes_open)
  | cons x xs ih =>
    unfold State.writeResults
    with_reducible repeat' (first | apply ih | assumption | apply State.writeLanes_open)
theorem State.mendName_open {s : State} {n : Nat} (h0 : Open s) : Open (State.mendName s n) := by
  unfold State.mendName
  with_reducible repeat' (first | assumption | dsimp only [id_eq, Open, OpenPart] | split)
theorem State.allocRows_open {a0 : List Nat} {a1 : State} (h0 : Open a1) : Open (State.allocRows a0 a1) := by
  induction a0 generalizing a1 with
  | nil =>
    unfold State.allocRows
    with_reducible repeat' (first | apply ih | assumption | apply State.mendRow_open | apply State.mendName_open | apply State.withMe_open | dsimp only [id_eq, Open, OpenPart] | split)
  | cons x xs ih =>
    unfold State.allocRows
    with_reducible repeat' (first | apply ih | assumption | apply State.mendRow_open | apply State.mendName_open | apply State.withMe_open | dsimp only [id_eq, Open, OpenPart] | split)
theorem State.count_open {s : State} {d : Done} (h0 : Open s) : Open (State.count s d) := by
  unfold State.count
  with_reducible repeat' (first | assumption | apply State.setPath_open | apply State.setMyTeam_open)
theorem State.retire_open {s : State} {d : Done} (h0 : Open s) : Open (State.retire s d) := by
  unfold State.retire
  with_reducible repeat' (first | assumption | apply State.charge_open | apply State.count_open | apply State.setPath_open | apply State.withMe_open | dsimp only [id_eq, Open, OpenPart] | split)
theorem State.loaded_open {s : State} {u : Bool} {d : Nat} {n : Nat} {ord : BitVec 3} {beats : Nat} {act : LaneMask} {vals : List (Nat × List Word)} (h0 : Open s) : Open (State.loaded s u d n ord beats act vals) := by
  unfold State.loaded
  with_reducible repeat' (first | assumption | apply State.putS_open | apply State.writeResults_open | apply State.allocRows_open | apply State.retire_open | apply State.acquire_open | apply foldl_open | intro _ | dsimp only [id_eq, Open, OpenPart] | split)
theorem State.atomic_open {s : State} {ok : Bool} {d : BitVec 6} {a : BitVec 6} {b : BitVec 6} {u : Bool} {v : Bool} {wide : Bool} {ord : BitVec 3} {wideB : Bool} {cas : Bool} {f : State → AtomicFn} (h0 : Open s) : OutOpen (State.atomic s ok d a b u v wide ord wideB cas f) := by
  unfold State.atomic
  with_reducible repeat' (first | assumption | apply State.checked_open | apply State.noRows_open | apply State.accesses_open | apply State.release_open | apply State.atomics_open | apply State.acquire_open | apply State.loaded_open | apply State.retire_open | apply OutOpen.mk | intro _ | dsimp only [id_eq, Open, OpenPart] | split)
theorem State.atomicOp_open {s : State} {d : BitVec 6} {a : BitVec 6} {b : BitVec 6} {u : Bool} {v : Bool} {z : Bool} {r : BitVec 3} {f : State → AtomicFn} (h0 : Open s) : OutOpen (State.atomicOp s d a b u v z r f) := by
  unfold State.atomicOp
  with_reducible repeat' (first | assumption | apply State.atomic_open)
theorem State.setFlags_open {s : State} {fl : Nat} (h0 : Open s) : Open (State.setFlags s fl) := by
  unfold State.setFlags
  with_reducible repeat' (first | assumption | apply State.withMe_open)
theorem State.finish_open {s : State} {d : Done} {fl : Nat} {raised : Nat → LaneMask} (h0 : Open s) : Open (State.finish s d fl raised) := by
  unfold State.finish
  with_reducible repeat' (first | assumption | apply State.setFlags_open | apply State.retire_open | apply State.raise_open | apply State.charge_open | apply State.count_open | dsimp only [id_eq, Open, OpenPart] | split)
theorem State.putCMBits_open {s : State} {m : DWord} {x : DWord} {lat : Nat} (h0 : Open s) : Open (State.putCMBits s m x lat) := by
  unfold State.putCMBits
  with_reducible repeat' (first | assumption | apply State.withMe_open)
theorem State.putCMBit_open {s : State} {k : Nat} {b : Bool} {lat : Nat} (h0 : Open s) : Open (State.putCMBit s k b lat) := by
  unfold State.putCMBit
  with_reducible repeat' (first | assumption | apply State.putCMBits_open)
theorem State.freeMarked_open {marked : List Nat} {dests : List Nat} {s : State} (h0 : Open s) : Open (State.freeMarked marked dests s) := by
  unfold State.freeMarked
  with_reducible repeat' (first | assumption | apply State.withMe_open)
theorem State.compare_open {s : State} {c : Compare} (h0 : Open s) : Open (State.compare s c) := by
  unfold State.compare
  with_reducible repeat' (first | assumption | apply State.checked_open | apply State.finish_open | apply State.putCMBit_open | apply State.withMe_open | apply State.freeMarked_open | intro _ | dsimp only [id_eq, Open, OpenPart] | split)
theorem State.once_open {s : State} {legal : Bool} {uses : List Use} {stall : BitVec 2} {f : State → State} (h0 : Open s) (h1 : ∀ (t0 : State), Open t0 → Open (f t0)) : Open (State.once s legal uses stall f) := by
  unfold State.once
  with_reducible repeat' (first | assumption | apply h1 | apply State.checked_open | apply State.retire_open | intro _)
theorem State.replaceRows_open {marked : List Nat} {a1 : List Nat} {a2 : State} (h0 : Open a2) : Open (State.replaceRows marked a1 a2) := by
  induction a1 generalizing marked a2 with
  | nil =>
    unfold State.replaceRows
    with_reducible repeat' (first | apply ih | assumption | apply State.withMe_open | dsimp only [id_eq, Open, OpenPart] | split)
  | cons x xs ih =>
    unfold State.replaceRows
    with_reducible repeat' (first | apply ih | assumption | apply State.withMe_open | dsimp only [id_eq, Open, OpenPart] | split)
theorem State.collect_open {s : State} {dests : List Nat} {marked : List Nat} {pass : Nat} {late : Bool} {w : BitVec 2} {act : LaneMask} {res : List (List Word × Nat)} (h0 : Open s) : Open (State.collect s dests marked pass late w act res) := by
  unfold State.collect
  with_reducible repeat' (first | assumption | apply State.noRows_open | apply State.replaceRows_open | apply State.allocRows_open | apply State.writeResults_open | apply State.withMe_open | apply State.finish_open | apply State.freeMarked_open | dsimp only [id_eq, Open, OpenPart] | split)
theorem State.advance_open {s : State} {u : Bool} {act : LaneMask} (h0 : Open s) : Open (State.advance s u act) := by
  unfold State.advance
  with_reducible repeat' (first | assumption | apply State.withMe_open)
theorem State.cross_open {s : State} {legal : Bool} {uses : List Use} {dests : List Nat} {marks : List Nat} {w : BitVec 2} {late : Bool} {draws : Bool} {f : State → LaneMask → List (List Word × Nat)} (h0 : Open s) : Open (State.cross s legal uses dests marks w late draws f) := by
  unfold State.cross
  with_reducible repeat' (first | assumption | apply State.checked_open | apply State.collect_open | apply State.advance_open | intro _ | dsimp only [id_eq, Open, OpenPart] | split)
theorem State.setEngine_open {s : State} {e : Nat} {f : Engine → Engine} (h0 : Open s) : Open (State.setEngine s e f) := by
  unfold State.setEngine
  with_reducible repeat' (first | assumption | dsimp only [id_eq, Open, OpenPart] | split)
theorem State.dropChain_open {s : State} {e : Nat} {c : Chain} (h0 : Open s) : Open (State.dropChain s e c) := by
  unfold State.dropChain
  with_reducible repeat' (first | assumption | apply State.setEngine_open)
theorem State.resolveChain_open {s : State} {e : Nat} {c : Chain} {st : FutureState} {w : Word} (h0 : Open s) : Open (State.resolveChain s e c st w) := by
  unfold State.resolveChain
  with_reducible repeat' (first | assumption | apply State.dropChain_open | apply State.setTeam_open | dsimp only [id_eq, Open, OpenPart] | split)
theorem State.engineMet_open {s : State} {c : Chain} {w : Option Place} (h0 : Open s) : Open (State.engineMet s c w) := by
  unfold State.engineMet
  with_reducible repeat' (first | assumption | apply State.unattributed_open | dsimp only [id_eq, Open, OpenPart] | split)
theorem State.engineRead_open {s : State} {c : Chain} {va : Nat} {n : Nat} (h0 : Open s) : ErrOpen (State.engineRead s c va n) := by
  unfold State.engineRead
  with_reducible repeat' (first | assumption | apply State.engineMet_open | apply ErrOpen.mk | exact ErrOpen.ok | split)
theorem State.engineRead_open_of {s : State} {c : Chain} {va : Nat} {n : Nat} {y} (e : (State.engineRead s c va n) = .error y) (h0 : Open s) : Open y.2 :=
  State.engineRead_open h0 y e
theorem State.nextEntry_open {s : State} {c : Chain} (h0 : Open s) : ErrOpen (State.nextEntry s c) := by
  unfold State.nextEntry
  with_reducible repeat' (first | assumption | apply State.engineRead_open | apply ErrOpen.mk | exact ErrOpen.ok | split)
theorem State.nextEntry_open_of {s : State} {c : Chain} {y} (e : (State.nextEntry s c) = .error y) (h0 : Open s) : Open y.2 :=
  State.nextEntry_open h0 y e
theorem State.illFormed_open {s : State} {e : Nat} {c : Chain} (h0 : Open s) : Open (State.illFormed s e c) := by
  unfold State.illFormed
  with_reducible repeat' (first | assumption | apply State.resolveChain_open)
theorem State.setStation_open {s : State} {k : Nat} {q : List TTOp} (h0 : Open s) : Open (State.setStation s k q) := by
  unfold State.setStation
  with_reducible repeat' (first | assumption)
theorem State.ttOp_open {s : State} {ok : Bool} {uses : List Use} {vslot : Option Word} {acq : Bool} {rel : Bool} {kind : State → TTKind} {done : State → Nat → List Word → State} (h0 : Open s) (h1 : ∀ (t0 : State) (t1 : Nat) (t2 : List Word), Open t0 → Open (done t0 t1 t2)) : OutOpen (State.ttOp s ok uses vslot acq rel kind done) := by
  unfold State.ttOp
  with_reducible repeat' (first | assumption | apply h1 | apply State.raise_open | apply State.retire_open | apply State.acquire_open | apply State.checked_open | apply State.block_open | apply State.release_open | apply State.setStation_open | apply OutOpen.mk | intro _ | dsimp only [id_eq, Open, OpenPart] | split)
theorem State.putWords_open {s : State} {d : Nat} {ws : List Word} (h0 : Open s) : Open (State.putWords s d ws) := by
  unfold State.putWords
  with_reducible repeat' (first | assumption | apply State.putS_open | apply foldl_open | intro _)
theorem State.cmp_open {s : State} {ok : Bool} {d : BitVec 6} {a : BitVec 6} {b : BitVec 6} {w : BitVec 2} {u : Bool} {x : Bool} {y : Bool} {f : State → Word → Word → Bool × Nat} (h0 : Open s) : Open (State.cmp s ok d a b w u x y f) := by
  unfold State.cmp
  with_reducible repeat' (first | assumption | apply State.compare_open)
theorem State.fcmp_open {s : State} {d : BitVec 6} {a : BitVec 6} {b : BitVec 6} {w : BitVec 2} {u : Bool} {x : Bool} {y : Bool} {both : Bool} {f : Fp → Fp → Bool × Nat} (h0 : Open s) : OutOpen (State.fcmp s d a b w u x y both f) := by
  unfold State.fcmp
  with_reducible repeat' (first | assumption | apply State.cmp_open | apply OutOpen.mk)
theorem State.countStale_open {s : State} {owner : Option Nat} {n : Nat} (h0 : Open s) : Open (State.countStale s owner n) := by
  unfold State.countStale
  with_reducible repeat' (first | assumption | apply State.setPart_open | apply Partition.setReg_open | intro _ | dsimp only [id_eq, Open, OpenPart] | split)
theorem State.stalePost_open {s : State} (h0 : Open s) : Open (State.stalePost s) := by
  unfold State.stalePost
  with_reducible repeat' (first | assumption | apply State.countStale_open | dsimp only [id_eq, Open, OpenPart] | split)
theorem State.setPatrolReg_open {s : State} {ch : Nat} {k : Nat} {v : Word} (h0 : Open s) : Open (State.setPatrolReg s ch k v) := by
  unfold State.setPatrolReg
  with_reducible repeat' (first | assumption)
theorem State.branch_open {s : State} {taken : Bool} {i : BitVec 18} (h0 : Open s) : Open (State.branch s taken i) := by
  unfold State.branch
  with_reducible repeat' (first | assumption | apply State.retire_open | dsimp only [id_eq, Open, OpenPart] | split)
theorem State.onLink_open {s : State} {f : State → State} (h0 : Open s) (h1 : ∀ (t0 : State), Open t0 → Open (f t0)) : Open (State.onLink s f) := by
  unfold State.onLink
  with_reducible repeat' (first | assumption | apply h1 | dsimp only [id_eq, Open, OpenPart] | split)
theorem State.answerMsg_open {s : State} {sess : Nat} {kind : Nat} {content : Nat} (h0 : Open s) : Open (State.answerMsg s sess kind content) := by
  unfold State.answerMsg
  with_reducible repeat' (first | assumption)
theorem State.tdispError_open {s : State} {sess : Nat} (h0 : Open s) : Open (State.tdispError s sess) := by
  unfold State.tdispError
  with_reducible repeat' (first | assumption | apply State.answerMsg_open)
theorem State.tdisp_open {s : State} {sess : Nat} {vf : Nat} {ok : Partition → Bool} {f : Nat → State → State} (h0 : Open s) (h1 : ∀ (t0 : Nat) (t1 : State), Open t1 → Open (f t0 t1)) : OutOpen (State.tdisp s sess vf ok f) := by
  unfold State.tdisp
  with_reducible repeat' (first | assumption | apply h1 | apply State.onLink_open | apply State.tdispError_open | apply OutOpen.mk | intro _ | dsimp only [id_eq, Open, OpenPart] | split)
theorem State.shuffle_open {s : State} {ok : Bool} {d : BitVec 6} {a : BitVec 6} {uses : List Use} {marks : List Nat} {w : BitVec 2} {late : Bool} {f : State → Nat → Int} (h0 : Open s) : OutOpen (State.shuffle s ok d a uses marks w late f) := by
  unfold State.shuffle
  with_reducible repeat' (first | assumption | apply State.cross_open | apply OutOpen.mk)
theorem State.reduce_open {s : State} {legal : Bool} {uses : List Use} {dests : List Nat} {marks : List Nat} {w : BitVec 2} {draws : Bool} {f : State → LaneMask → List Word × List (Nat × Nat)} (h0 : Open s) : Open (State.reduce s legal uses dests marks w draws f) := by
  unfold State.reduce
  with_reducible repeat' (first | assumption | apply State.checked_open | apply State.advance_open | apply State.putS_open | apply State.finish_open | apply State.freeMarked_open | apply foldl_open | intro _ | dsimp only [id_eq, Open, OpenPart] | split)
theorem State.endSession_open {s : State} {sess : Nat} (h0 : Open s) : Open (State.endSession s sess) := by
  unfold State.endSession
  with_reducible repeat' (first | assumption | apply State.setPart_open | apply State.stopBegin_open | apply foldl_open | intro _ | dsimp only [id_eq, Open, OpenPart] | split)
theorem State.linkReset_open {s : State} (h0 : Open s) : Open (State.linkReset s) := by
  unfold State.linkReset
  with_reducible repeat' (first | assumption | apply State.msi_open | apply State.endSession_open | apply foldl_open | dsimp only [id_eq, Open, OpenPart] | split)
theorem Partition.markProgress_open {p : Partition} {now : Nat} {id : Nat} (h0 : OpenPart p) : OpenPart (Partition.markProgress p now id) := by
  unfold Partition.markProgress
  with_reducible repeat' (first | assumption | apply Partition.setReg_open | apply foldl_open_part | intro _ | dsimp only [id_eq, Open, OpenPart] | split)
theorem State.setPool_open {s : State} {part : Nat} {n : Nat} {f : Pool → Pool} (h0 : Open s) : Open (State.setPool s part n f) := by
  unfold State.setPool
  with_reducible repeat' (first | assumption | apply State.setPart_open | intro _ | dsimp only [id_eq, Open, OpenPart] | split)
theorem State.freePool_open {s : State} {part : Nat} {n : Nat} {branches : List Nat} (h0 : Open s) : Open (State.freePool s part n branches).2 := by
  unfold State.freePool
  with_reducible repeat' (first | assumption | apply State.setPool_open | apply foldl_open | intro _ | dsimp only [id_eq, Open, OpenPart] | split)
theorem State.freePool_open_of {s : State} {part : Nat} {n : Nat} {branches : List Nat} {y0 : Nat} {y1 : State} (eq0 : (State.freePool s part n branches) = (y0, y1)) (h0 : Open s) : Open y1 := by
  have h : Open (State.freePool s part n branches).2 := State.freePool_open h0
  rw [eq0] at h; exact h
theorem State.freeOnCancel_open {s : State} {part : Nat} {branches : List Nat} (h0 : Open s) : Open (State.freeOnCancel s part branches).2 := by
  unfold State.freeOnCancel
  with_reducible repeat' (first | assumption | apply State.freePool_open | apply foldl_open_snd | intro _)
theorem State.freeOnCancel_open_of {s : State} {part : Nat} {branches : List Nat} {y0 : Nat} {y1 : State} (eq0 : (State.freeOnCancel s part branches) = (y0, y1)) (h0 : Open s) : Open y1 := by
  have h : Open (State.freeOnCancel s part branches).2 := State.freeOnCancel_open h0
  rw [eq0] at h; exact h
theorem State.atelierFault_open {s : State} {part : Nat} {r : Refuse} {write : Bool} (h0 : Open s) : Open (State.atelierFault s part r write) := by
  unfold State.atelierFault
  with_reducible repeat' (first | assumption | apply State.pushCause_open)
theorem State.imageWrite_open {s : State} {part : Nat} {va : Nat} {bs : List Byte} (h0 : Open s) : Open (State.imageWrite s part va bs) := by
  unfold State.imageWrite
  with_reducible repeat' (first | assumption | refine State.atelierWrite_open_of (by assumption) ?_ | apply State.atelierFault_open | dsimp only [id_eq, Open, OpenPart] | split)
theorem State.setMould_open {s : State} {part : Nat} {n : Nat} {f : Mould → Mould} (h0 : Open s) : Open (State.setMould s part n f) := by
  unfold State.setMould
  with_reducible repeat' (first | assumption | apply State.setPart_open | intro _ | dsimp only [id_eq, Open, OpenPart] | split)
theorem State.closeUp_open {s : State} {part : Nat} {n : Nat} {k : Nat} {branches : List Nat} (h0 : Open s) : Open (State.closeUp s part n k branches).2 := by
  unfold State.closeUp
  with_reducible repeat' (first | assumption | apply State.imageWrite_open | apply State.setMould_open | apply foldl_open | intro _ | dsimp only [id_eq, Open, OpenPart] | split)
theorem State.closeUp_open_of {s : State} {part : Nat} {n : Nat} {k : Nat} {branches : List Nat} {y0 : Nat} {y1 : State} (eq0 : (State.closeUp s part n k branches) = (y0, y1)) (h0 : Open s) : Open y1 := by
  have h : Open (State.closeUp s part n k branches).2 := State.closeUp_open h0
  rw [eq0] at h; exact h
theorem State.dropRows_open {s : State} {part : Nat} {branches : List Nat} (h0 : Open s) : Open (State.dropRows s part branches).2 := by
  unfold State.dropRows
  with_reducible repeat' (first | assumption | apply State.closeUp_open | apply foldl_open_snd | intro _ | dsimp only [id_eq, Open, OpenPart] | split)
theorem State.dropRows_open_of {s : State} {part : Nat} {branches : List Nat} {y0 : Nat} {y1 : State} (eq0 : (State.dropRows s part branches) = (y0, y1)) (h0 : Open s) : Open y1 := by
  have h : Open (State.dropRows s part branches).2 := State.dropRows_open h0
  rw [eq0] at h; exact h
theorem State.finishCancels_open {s : State} (h0 : Open s) : Open (State.finishCancels s) := by
  unfold State.finishCancels
  with_reducible repeat' (first | assumption | apply State.freeOnCancel_open | apply State.dropRows_open | apply State.setPart_open | apply foldl_open | intro _)
theorem State.markDying_open {s : State} {part : Nat} {f : Task → Bool} (h0 : Open s) : Open (State.markDying s part f) := by
  unfold State.markDying
  with_reducible repeat' (first | assumption | apply State.setPart_open | intro _)
theorem State.fire_open {s : State} {part : Nat} {source : Nat} (h0 : Open s) : Open (State.fire s part source) := by
  unfold State.fire
  with_reducible repeat' (first | assumption | apply State.setPart_open | apply State.finishCancels_open | apply State.flushDying_open | apply State.markDying_open | intro _ | dsimp only [id_eq, Open, OpenPart] | split)
theorem State.bankAccesses_open {s : State} {u : Bool} {as : List Access} {need : Nat} {first : Option Refuse} {go : List Access → State → State} (h0 : Open s) (h1 : ∀ (t0 : List Access) (t1 : State), Open t1 → Open (go t0 t1)) : Open (State.bankAccesses s u as need first go) := by
  unfold State.bankAccesses
  with_reducible repeat' (first | assumption | apply State.refuse_open | apply State.accesses_open | dsimp only [id_eq, Open, OpenPart] | split)
theorem State.bankFill_open {s : State} {d : BitVec 6} {a : BitVec 6} {b : BitVec 6} {f : Nat → Nat → Nat} (h0 : Open s) : OutOpen (State.bankFill s d a b f) := by
  unfold State.bankFill
  with_reducible repeat' (first | assumption | apply State.checked_open | apply State.bankAccesses_open | apply State.retire_open | apply State.atomics_open | apply OutOpen.mk | intro _)
theorem State.setUnveiling_open {s : State} {part : Nat} {f : Unveiling → Unveiling} (h0 : Open s) : Open (State.setUnveiling s part f) := by
  unfold State.setUnveiling
  with_reducible repeat' (first | assumption | apply State.setPart_open | intro _)
theorem State.writeResult_open {s : State} {part : Nat} {u : Unveiling} (h0 : Open s) : Open (State.writeResult s part u) := by
  unfold State.writeResult
  with_reducible repeat' (first | assumption | refine State.atelierWrite_open_of (by assumption) ?_ | apply State.setUnveiling_open | apply State.atelierFault_open | apply State.msi_open | dsimp only [id_eq, Open, OpenPart] | split)
theorem State.calc_open {s : State} {c : Calc} (h0 : Open s) : Open (State.calc s c) := by
  unfold State.calc
  with_reducible repeat' (first | assumption | apply State.checked_open | apply State.advance_open | apply State.putS_open | apply State.finish_open | apply State.noRows_open | apply State.writeResults_open | apply State.replaceRows_open | apply State.allocRows_open | apply State.freeMarked_open | apply foldl_open | intro _ | dsimp only [id_eq, Open, OpenPart] | split)
theorem State.tri_open {s : State} {ok : Bool} {d : BitVec 6} {a : BitVec 6} {b : BitVec 6} {w : BitVec 2} {u : Bool} {x : Bool} {y : Bool} {z : Bool} {per : Nat} {cls : Nat} {draws : Bool} {f : State → Nat → Word → Word → Word → Word × Nat} (h0 : Open s) : Open (State.tri s ok d a b w u x y z per cls draws f) := by
  unfold State.tri
  with_reducible repeat' (first | assumption | apply State.calc_open)
theorem State.hostWriteRun_open {s : State} {addr : Nat} {bs : List Byte} (h0 : Open s) : Open (State.hostWriteRun s addr bs) := by
  unfold State.hostWriteRun
  with_reducible repeat' (first | assumption | apply State.performWrite_open | dsimp only [id_eq, Open, OpenPart] | split)
theorem State.keyStatus_open {s : State} {p : Nat} {code : Nat} (h0 : Open s) : Open (State.keyStatus s p code) := by
  unfold State.keyStatus
  with_reducible repeat' (first | assumption | apply State.setPart_open | apply Partition.setReg_open | intro _)
theorem State.bin_open {s : State} {ok : Bool} {d : BitVec 6} {a : BitVec 6} {b : BitVec 6} {w : BitVec 2} {u : Bool} {x : Bool} {y : Bool} {per : Nat} {cls : Nat} {draws : Bool} {f : State → Nat → Word → Word → Word × Nat} (h0 : Open s) : Open (State.bin s ok d a b w u x y per cls draws f) := by
  unfold State.bin
  with_reducible repeat' (first | assumption | apply State.calc_open)
theorem State.logic_open {s : State} {d : BitVec 6} {a : BitVec 6} {b : BitVec 6} {w : BitVec 2} {u : Bool} {x : Bool} {y : Bool} {f : Word → Word → Word} (h0 : Open s) : OutOpen (State.logic s d a b w u x y f) := by
  unfold State.logic
  with_reducible repeat' (first | assumption | apply State.bin_open | apply OutOpen.mk)
theorem State.una_open {s : State} {ok : Bool} {d : BitVec 6} {a : BitVec 6} {w : BitVec 2} {u : Bool} {x : Bool} {per : Nat} {cls : Nat} {draws : Bool} {f : State → Nat → Word → Word × Nat} (h0 : Open s) : Open (State.una s ok d a w u x per cls draws f) := by
  unfold State.una
  with_reducible repeat' (first | assumption | apply State.calc_open)
theorem State.special_open {s : State} {d : BitVec 6} {a : BitVec 6} {w : BitVec 2} {u : Bool} {x : Bool} {f : Fmt → Env → Fp → Nat × Nat} (h0 : Open s) : OutOpen (State.special s d a w u x f) := by
  unfold State.special
  with_reducible repeat' (first | assumption | apply State.una_open | apply OutOpen.mk)
theorem State.readmit_open {s : State} {tile : Nat} {x : Group × Nat} (h0 : Open s) : Open (State.readmit s tile x) := by
  unfold State.readmit
  with_reducible repeat' (first | assumption | apply open_map | intro _)
theorem State.mapTeams_open {s : State} {pick : Team → Bool} {f : Team → Team} (h0 : Open s) : Open (State.mapTeams s pick f) := by
  unfold State.mapTeams
  with_reducible repeat' (first | assumption)
theorem State.restoreTeam_open {s : State} {v : Saved} {ts : List Nat} (h0 : Open s) : Open (State.restoreTeam s v ts) := by
  unfold State.restoreTeam
  with_reducible repeat' (first | assumption | apply State.readmit_open | apply State.settleShare_open | apply State.mapTeams_open | apply State.setChannel_open | apply foldl_open | intro _)
theorem State.reboard_open {s : State} {part : Nat} (h0 : Open s) : Open (State.reboard s part) := by
  unfold State.reboard
  with_reducible repeat' (first | assumption | apply State.setPart_open | apply foldl_open | intro _ | dsimp only [id_eq, Open, OpenPart] | split)
theorem State.setMailbox_open {s : State} {id : Nat} {f : Mailbox → Mailbox} (h0 : Open s) : Open (State.setMailbox s id f) := by
  unfold State.setMailbox
  with_reducible repeat' (first | assumption)
theorem State.storeMail_open {s : State} {id : Nat} {m : MailSlot} (h0 : Open s) : Open (State.storeMail s id m) := by
  unfold State.storeMail
  with_reducible repeat' (first | assumption | apply State.setMailbox_open | apply State.sound_open)
theorem State.spdmError_open {s : State} {sess : Nat} (h0 : Open s) : Open (State.spdmError s sess) := by
  unfold State.spdmError
  with_reducible repeat' (first | assumption | apply State.answerMsg_open)
theorem State.spdm_open {s : State} {sess : Nat} {ok : Bool} {f : State → State} (h0 : Open s) (h1 : ∀ (t0 : State), Open t0 → Open (f t0)) : OutOpen (State.spdm s sess ok f) := by
  unfold State.spdm
  with_reducible repeat' (first | assumption | apply h1 | apply State.onLink_open | apply State.spdmError_open | apply OutOpen.mk | intro _ | dsimp only [id_eq, Open, OpenPart] | split)
theorem State.injectAt_open {s : State} {r : Nat} {used : List Nat} (h0 : Open s) : Open (State.injectAt s r used) := by
  unfold State.injectAt
  with_reducible repeat' (first | assumption | dsimp only [id_eq, Open, OpenPart] | split)
theorem State.recordOf_open {s : State} {part : Nat} (h0 : Open s) : OptOpen2 (State.recordOf s part) := by
  unfold State.recordOf
  with_reducible repeat' (first | assumption | refine State.atelierWrite_open_of (by assumption) ?_ | apply OptOpen2.mk | exact OptOpen2.none | dsimp only [id_eq, Open, OpenPart] | split)
theorem State.recordOf_open_of {s : State} {part : Nat} {y} (e : (State.recordOf s part) = some y) (h0 : Open s) : Open y.2 :=
  State.recordOf_open h0 y e
theorem State.mapGroups_open {s : State} {pick : Group → Bool} {f : Group → Group} (h0 : Open s) : Open (State.mapGroups s pick f) := by
  unfold State.mapGroups
  with_reducible repeat' (first | assumption)
theorem State.noHandler_open {s : State} {part : Nat} {c : FaultCause} (h0 : Open s) : Open (State.noHandler s part c) := by
  unfold State.noHandler
  with_reducible repeat' (first | assumption | apply State.killTask_open | apply State.msi_open | dsimp only [id_eq, Open, OpenPart] | split)
theorem Partition.enterDep_open {p : Partition} {y : Submission} (h0 : OpenPart p) : OpenPart (Partition.enterDep p y) := by
  unfold Partition.enterDep
  with_reducible repeat' (first | assumption | dsimp only [id_eq, Open, OpenPart] | split)
theorem State.accept_open {s : State} {part : Nat} {k : Task} {l : Lists} (h0 : Open s) : Open (State.accept s part k l).1 := by
  unfold State.accept
  with_reducible repeat' (first | assumption | apply State.setPart_open | apply Partition.enterDep_open | apply State.review_open | intro _ | dsimp only [id_eq, Open, OpenPart] | split)
theorem State.accept_open_of {s : State} {part : Nat} {k : Task} {l : Lists} {y0 : State} {y1 : Nat} (eq0 : (State.accept s part k l) = (y0, y1)) (h0 : Open s) : Open y0 := by
  have h : Open (State.accept s part k l).1 := State.accept_open h0
  rw [eq0] at h; exact h
theorem State.launchHandler_open {s : State} {part : Nat} {c : FaultCause} (h0 : Open s) : Open (State.launchHandler s part c) := by
  unfold State.launchHandler
  with_reducible repeat' (first | assumption | apply State.noHandler_open | apply State.accept_open | dsimp only [id_eq, Open, OpenPart] | split)
theorem State.writeRecord_open {s : State} {part : Nat} (h0 : Open s) : Open (State.writeRecord s part) := by
  unfold State.writeRecord
  with_reducible repeat' (first | assumption | refine State.recordOf_open_of (by assumption) ?_ | apply State.setPart_open | apply Partition.setReg_open | apply State.mapGroups_open | apply State.msi_open | apply State.noHandler_open | apply State.launchHandler_open | intro _ | dsimp only [id_eq, Open, OpenPart] | split)
theorem State.setSession_open {s : State} {sess : Nat} {f : Session → Session} (h0 : Open s) : Open (State.setSession s sess f) := by
  unfold State.setSession
  with_reducible repeat' (first | assumption)
theorem State.bufferByte_open {s : State} {team : Nat} {seq : Nat} {pa : Nat} {b : Byte} (h0 : Open s) : Open (State.bufferByte s team seq pa b) := by
  unfold State.bufferByte
  with_reducible repeat' (first | assumption | apply State.setTeam_open | apply State.drainEntry_open | dsimp only [id_eq, Open, OpenPart] | split)
theorem State.setCoreReg_open {s : State} {tile : Nat} {n : Nat} {v : Word} (h0 : Open s) : Open (State.setCoreReg s tile n v) := by
  unfold State.setCoreReg
  with_reducible repeat' (first | assumption)
theorem State.smpStore_open {s : State} {tile : Nat} {n : Nat} {v : Word} (h0 : Open s) : Open (State.smpStore s tile n v) := by
  unfold State.smpStore
  with_reducible repeat' (first | assumption | apply State.setCoreReg_open | dsimp only [id_eq, Open, OpenPart] | split)
theorem State.popMatrix_open {s : State} {id : Nat} (h0 : Open s) : Open (State.popMatrix s id) := by
  unfold State.popMatrix
  with_reducible repeat' (first | assumption | apply State.setTeam_open)
theorem State.asGroup_open {s : State} {seq : Nat} {path : Nat} {f : State → State} (h0 : Open s) (h1 : ∀ (t0 : State), Open t0 → Open (f t0)) : Open (State.asGroup s seq path f) := by
  unfold State.asGroup
  with_reducible repeat' (first | assumption | apply h1 | apply State.withMe_open | dsimp only [id_eq, Open, OpenPart] | split)
theorem State.raiseArrival_open {s : State} {c : Cause} {a : GangArrival} (h0 : Open s) : Open (State.raiseArrival s c a) := by
  unfold State.raiseArrival
  with_reducible repeat' (first | assumption | apply State.asGroup_open | apply State.withMe_open | apply State.raise_open | intro _)
theorem State.gangExit_open {s : State} {g : Group} (h0 : Open s) : Open (State.gangExit s g) := by
  unfold State.gangExit
  with_reducible repeat' (first | assumption | apply State.setTeam_open | apply State.raiseArrival_open | apply foldl_open | intro _ | dsimp only [id_eq, Open, OpenPart] | split)
theorem Partition.traceDrop_open {p : Partition} {input : Bool} (h0 : OpenPart p) : OpenPart (Partition.traceDrop p input) := by
  unfold Partition.traceDrop
  with_reducible repeat' (first | assumption | apply Partition.setReg_open)
theorem State.traceWrite_open {s : State} {part : Nat} {r : TraceRec} (h0 : Open s) : Open (State.traceWrite s part r) := by
  unfold State.traceWrite
  with_reducible repeat' (first | assumption | refine State.atelierWrite_open_of (by assumption) ?_ | apply State.setPart_open | apply Partition.setReg_open | apply State.atelierFault_open | apply Partition.traceDrop_open | intro _ | dsimp only [id_eq, Open, OpenPart] | split)
theorem State.illopU_open {s : State} (h0 : Open s) : Open (State.illopU s) := by
  unfold State.illopU
  with_reducible repeat' (first | assumption | apply State.raise_open)
theorem State.raiseOnce_open {s : State} {code : Nat} {vaddr : DWord} (h0 : Open s) : Open (State.raiseOnce s code vaddr) := by
  unfold State.raiseOnce
  with_reducible repeat' (first | assumption | apply State.raise_open)
theorem State.openScope_open {s : State} {q : Nat} {kind : ScopeKind} {start : DWord} {join : DWord} (h0 : Open s) : Open (State.openScope s q kind start join) := by
  unfold State.openScope
  with_reducible repeat' (first | assumption | apply State.withMe_open | apply State.charge_open | apply State.count_open)
theorem State.loopOn_open {s : State} {n : Fin 3} {c : Word} {len : Nat} (h0 : Open s) : Open (State.loopOn s n c len) := by
  unfold State.loopOn
  with_reducible repeat' (first | assumption | apply State.retire_open | apply State.raiseOnce_open | apply State.openScope_open | apply State.withMe_open | dsimp only [id_eq, Open, OpenPart] | split)
theorem State.markFill_open {s : State} {t : Team} {line : Nat} (h0 : Open s) : Open (State.markFill s t line) := by
  unfold State.markFill
  with_reducible repeat' (first | assumption | dsimp only [id_eq, Open, OpenPart] | split)
theorem State.fill_open {s : State} {ag : Agent} {team : Nat} {line : Nat} (h0 : Open s) : Open (State.fill s ag team line) := by
  unfold State.fill
  with_reducible repeat' (first | assumption | apply State.markFill_open | apply State.setTeam_open | dsimp only [id_eq, Open, OpenPart] | split)
theorem State.loadAccess_open {s : State} {ag : Agent} {strong : Bool} {a : Access} (h0 : Open s) : Open (State.loadAccess s ag strong a).2 := by
  unfold State.loadAccess
  with_reducible repeat' (first | assumption | apply State.strongTouch_open | apply State.fill_open | apply foldl_open | apply foldl_open_snd | intro _ | dsimp only [id_eq, Open, OpenPart] | split)
theorem State.loadAccess_open_of {s : State} {ag : Agent} {strong : Bool} {a : Access} {y0 : List Byte} {y1 : State} (eq0 : (State.loadAccess s ag strong a) = (y0, y1)) (h0 : Open s) : Open y1 := by
  have h : Open (State.loadAccess s ag strong a).2 := State.loadAccess_open h0
  rw [eq0] at h; exact h
theorem State.loadAll_open {s : State} {strong : Bool} {a2 : List Access} (h0 : Open s) : Open (State.loadAll s strong a2).2 := by
  induction a2 generalizing s strong with
  | nil =>
    unfold State.loadAll
    with_reducible repeat' (first | apply ih | assumption | apply State.loadAccess_open)
  | cons x xs ih =>
    unfold State.loadAll
    with_reducible repeat' (first | apply ih | assumption | apply State.loadAccess_open)
theorem State.loadAll_open_of {s : State} {strong : Bool} {a2 : List Access} {y0 : List (Nat × List Byte)} {y1 : State} (eq0 : (State.loadAll s strong a2) = (y0, y1)) (h0 : Open s) : Open y1 := by
  have h : Open (State.loadAll s strong a2).2 := State.loadAll_open h0
  rw [eq0] at h; exact h
theorem State.load_open {s : State} {ok : Bool} {sx : Bool} {size : Nat} {d : BitVec 6} {a : BitVec 6} {u : Bool} {off : BitVec 8} {ord : BitVec 3} (h0 : Open s) : OutOpen (State.load s ok sx size d a u off ord) := by
  unfold State.load
  with_reducible repeat' (first | assumption | apply State.checked_open | apply State.noRows_open | apply State.accesses_open | apply State.loadAll_open | apply State.loaded_open | apply OutOpen.mk | intro _ | dsimp only [id_eq, Open, OpenPart] | split)
theorem State.dwCmp_open {s : State} {d : BitVec 6} {a : BitVec 6} {b : BitVec 6} {w : BitVec 2} {u : Bool} {x : Bool} {y : Bool} {f : Fp → Fp → Bool × Nat} (h0 : Open s) : OutOpen (State.dwCmp s d a b w u x y f) := by
  unfold State.dwCmp
  with_reducible repeat' (first | assumption | apply State.compare_open | apply OutOpen.mk)
theorem State.setChain_open {s : State} {e : Nat} {c : Chain} {f : Chain → Chain} (h0 : Open s) : Open (State.setChain s e c f) := by
  unfold State.setChain
  with_reducible repeat' (first | assumption | apply State.setEngine_open)
theorem State.engineStore_open {s : State} {c : Chain} {ps : List (Place × List Byte)} (h0 : Open s) : Open (State.engineStore s c ps) := by
  unfold State.engineStore
  with_reducible repeat' (first | assumption | apply State.performWrite_open | apply foldl_open | intro _)
theorem State.toError_open {s : State} {p : Nat} (h0 : Open s) : Open (State.toError s p) := by
  unfold State.toError
  dsimp only
  split
  · next hc =>
    refine State.announce_open (State.killAll_open (open_at h0 fun _ hs => ?_))
    simp at hc
    exact absurd (hs.symm.trans hc.1) (by decide)
  · exact h0
theorem State.insecure_open {s : State} {p : Nat} (h0 : Open s) : Open (State.insecure s p) := by
  unfold State.insecure
  with_reducible repeat' (first | assumption | apply State.toError_open | apply State.setPart_open | intro _ | dsimp only [id_eq, Open, OpenPart] | split)
theorem State.resetTiles_open {s : State} {p : Nat} {m : Nat} (h0 : Open s) : Open (State.resetTiles s p m) := by
  unfold State.resetTiles
  with_reducible repeat' (first | assumption | apply State.setMould_open)
theorem State.popFailed_open {s : State} {b : BitVec 6} {st : Nat} (h0 : Open s) : Open (State.popFailed s b st) := by
  unfold State.popFailed
  with_reducible repeat' (first | assumption | apply State.retire_open | apply State.putS_open)
theorem State.resetChannel_open {s : State} {tile : Nat} (h0 : Open s) : Open (State.resetChannel s tile) := by
  unfold State.resetChannel
  with_reducible repeat' (first | assumption | apply State.setChannel_open)
theorem State.restart_open {s : State} {t : Team} (h0 : Open s) : Open (State.restart s t) := by
  unfold State.restart
  with_reducible repeat' (first | assumption | apply State.drainAll_open | apply State.killedRecords_open | apply State.setPart_open | apply State.discardVersion_open | apply State.cancelChain_open | apply State.resetChannel_open | apply State.removeTeam_open | apply Partition.setTask_open | apply foldl_open | intro _ | dsimp only [id_eq, Open, OpenPart] | split)
theorem State.restartFlushed_open {s : State} (h0 : Open s) : Open (State.restartFlushed s) := by
  unfold State.restartFlushed
  with_reducible repeat' (first | assumption | apply State.restart_open | apply foldl_open | intro _ | dsimp only [id_eq, Open, OpenPart] | split)
theorem State.commitVersion_open {s : State} {part : Nat} {num : Nat} (h0 : Open s) : Open (State.commitVersion s part num) := by
  unfold State.commitVersion
  with_reducible repeat' (first | assumption | apply State.setPart_open | apply Partition.setTask_open | apply State.performWrite_open | apply foldl_open | intro _ | dsimp only [id_eq, Open, OpenPart] | split)
theorem State.endTask_open {s : State} {part : Nat} {task : Nat} (h0 : Open s) : Open (State.endTask s part task) := by
  unfold State.endTask
  with_reducible repeat' (first | assumption | apply State.setPart_open | apply Partition.setTask_open | apply State.setVersion_open | apply State.commitVersion_open | intro _ | dsimp only [id_eq, Open, OpenPart] | split)
theorem State.endTeam_open {s : State} {id : Nat} (h0 : Open s) : Open (State.endTeam s id) := by
  unfold State.endTeam
  with_reducible repeat' (first | assumption | apply State.drainAll_open | apply State.endTask_open | apply State.removeTeam_open | dsimp only [id_eq, Open, OpenPart] | split)
theorem State.clusterPhase_open {s : State} {t : Team} (h0 : Open s) : Open (State.clusterPhase s t) := by
  unfold State.clusterPhase
  with_reducible repeat' (first | assumption | apply State.mapGroups_open | apply State.mapTeams_open | dsimp only [id_eq, Open, OpenPart] | split)
theorem State.teamPhase_open {s : State} {id : Nat} (h0 : Open s) : Open (State.teamPhase s id) := by
  unfold State.teamPhase
  with_reducible repeat' (first | assumption | apply State.mapGroups_open | apply State.setTeam_open | dsimp only [id_eq, Open, OpenPart] | split)
theorem State.endGroup_open {s : State} {seq : Nat} (h0 : Open s) : Open (State.endGroup s seq) := by
  unfold State.endGroup
  with_reducible repeat' (first | assumption | apply State.drainEntry_open | apply State.leave_open | apply State.withdraw_open | apply State.gangExit_open | apply State.setTeam_open | apply State.endTeam_open | apply State.clusterPhase_open | apply State.teamPhase_open | apply foldl_open | intro _ | dsimp only [id_eq, Open, OpenPart] | split)
theorem State.afterCopies_open {s : State} (h0 : Open s) : Open (State.afterCopies s) := by
  unfold State.afterCopies
  with_reducible repeat' (first | assumption | apply State.flushDying_open | apply State.restartGroup_open | apply State.endGroup_open | apply foldl_open)
theorem State.copiesEnded_open {s : State} (h0 : Open s) : Open (State.copiesEnded s) := by
  unfold State.copiesEnded
  with_reducible repeat' (first | assumption | apply State.finishCancels_open | apply State.restartFlushed_open | apply State.afterCopies_open)
theorem State.settle_open {s : State} {seq : Nat} (h0 : Open s) : Open (State.settle s seq) := by
  unfold State.settle
  with_reducible repeat' (first | assumption | apply State.setGroup_open)
theorem State.endCopy_open {s : State} {c : Copy} {status : Nat} (h0 : Open s) : Open (State.endCopy s c status) := by
  unfold State.endCopy
  with_reducible repeat' (first | assumption | apply State.setGroup_open | apply State.settle_open | dsimp only [id_eq, Open, OpenPart] | split)
theorem State.overwriteRange_open {s : State} {ag : Agent} {va : Nat} {n : Nat} (h0 : Open s) : Open (State.overwriteRange s ag va n) := by
  unfold State.overwriteRange
  with_reducible repeat' (first | assumption | apply State.overwritten_open | apply foldl_open | intro _ | dsimp only [id_eq, Open, OpenPart] | split)
theorem State.writeVirtual_open {s : State} {ag : Agent} {va : Nat} {bs : List Byte} (h0 : Open s) : Open (State.writeVirtual s ag va bs) := by
  unfold State.writeVirtual
  with_reducible repeat' (first | assumption | apply State.writeByte_open | apply State.overwriteRange_open | apply foldl_open | intro _ | dsimp only [id_eq, Open, OpenPart] | split)
theorem State.wipe_open {s : State} {ag : Agent} {dst : Nat} {len : Nat} (h0 : Open s) : Open (State.wipe s ag dst len) := by
  unfold State.wipe
  with_reducible repeat' (first | assumption | apply State.writeVirtual_open)
theorem State.reportRead_open {s : State} {ag : Agent} {c : Copy} {va : Nat} (h0 : Open s) : Open (State.reportRead s ag c va) := by
  unfold State.reportRead
  with_reducible repeat' (first | assumption | apply State.unattributed_open | dsimp only [id_eq, Open, OpenPart] | split)
theorem State.runDecrypt_open {s : State} {ag : Agent} {c : Copy} {dst : Nat} {src : Nat} {len : Nat} {key : Option (BitVec 256)} (h0 : Open s) : Open (State.runDecrypt s ag c dst src len key).2.2 := by
  unfold State.runDecrypt
  with_reducible repeat' (first | assumption | apply State.wipe_open | apply State.reportRead_open | apply State.writeVirtual_open | dsimp only [id_eq, Open, OpenPart] | split)
theorem State.runDecrypt_open_of {s : State} {ag : Agent} {c : Copy} {dst : Nat} {src : Nat} {len : Nat} {key : Option (BitVec 256)} {y0 : Went} {y1 : Nat} {y2 : State} (eq0 : (State.runDecrypt s ag c dst src len key) = (y0, y1, y2)) (h0 : Open s) : Open y2 := by
  have h : Open (State.runDecrypt s ag c dst src len key).2.2 := State.runDecrypt_open h0
  rw [eq0] at h; exact h
theorem State.moveBytes_open {s : State} {ag : Agent} {x : Stream} {n : Nat} (h0 : Open s) : Open (State.moveBytes s ag x n) := by
  unfold State.moveBytes
  with_reducible repeat' (first | assumption | apply State.writeByte_open | apply State.overwriteRange_open | apply foldl_open | intro _ | dsimp only [id_eq, Open, OpenPart] | split)
theorem State.runStreams_open {s : State} {ag : Agent} {c : Copy} {a3 : List Stream} (h0 : Open s) : Open (State.runStreams s ag c a3).2 := by
  induction a3 generalizing s ag c with
  | nil =>
    unfold State.runStreams
    with_reducible repeat' (first | apply ih | assumption | apply State.moveBytes_open | apply State.reportRead_open | dsimp only [id_eq, Open, OpenPart] | split)
  | cons x xs ih =>
    unfold State.runStreams
    with_reducible repeat' (first | apply ih | assumption | apply State.moveBytes_open | apply State.reportRead_open | dsimp only [id_eq, Open, OpenPart] | split)
theorem State.runStreams_open_of {s : State} {ag : Agent} {c : Copy} {a3 : List Stream} {y0 : Went} {y1 : State} (eq0 : (State.runStreams s ag c a3) = (y0, y1)) (h0 : Open s) : Open y1 := by
  have h : Open (State.runStreams s ag c a3).2 := State.runStreams_open h0
  rw [eq0] at h; exact h
theorem State.runCopy_open {s : State} {c : Copy} (h0 : Open s) : Open (State.runCopy s c) := by
  unfold State.runCopy
  with_reducible repeat' (first | assumption | apply State.pushCause_open | apply State.endCopy_open | apply State.wipe_open | refine State.runDecrypt_open_of (by assumption) ?_ | refine State.runStreams_open_of (by assumption) ?_ | dsimp only [id_eq, Open, OpenPart] | split)
theorem State.callTo_open {s : State} {tk : LaneMask} {t : DWord} (h0 : Open s) : Open (State.callTo s tk t) := by
  unfold State.callTo
  with_reducible repeat' (first | assumption | apply State.retire_open | apply State.withMe_open | apply State.charge_open | apply State.count_open | apply State.raiseOnce_open | dsimp only [id_eq, Open, OpenPart] | split)
theorem State.debugRefused_open {s : State} {part : Nat} (h0 : Open s) : Open (State.debugRefused s part) := by
  unfold State.debugRefused
  with_reducible repeat' (first | assumption | apply State.setPart_open | apply Partition.setReg_open | intro _)
theorem State.debugOp_open {s : State} {who : Nat} {part : Nat} {v : Word} (h0 : Open s) : Open (State.debugOp s who part v) := by
  unfold State.debugOp
  with_reducible repeat' (first | assumption | apply State.debugRefused_open | apply State.setGroup_open | dsimp only [id_eq, Open, OpenPart] | split)
theorem State.setSampler_open {s : State} {tile : Nat} {f : Sampler → Sampler} (h0 : Open s) : Open (State.setSampler s tile f) := by
  unfold State.setSampler
  with_reducible repeat' (first | assumption)
theorem State.writeSmp_open {s : State} {tile : Nat} {n : Nat} {reset : Word} {v : Word} (h0 : Open s) : Open (State.writeSmp s tile n reset v) := by
  unfold State.writeSmp
  with_reducible repeat' (first | assumption | apply State.setCoreReg_open | apply State.setSampler_open)
theorem State.smpControl_open {s : State} {who : Nat} {tile : Nat} {v : Word} (h0 : Open s) : OptOpen (State.smpControl s who tile v) := by
  unfold State.smpControl
  with_reducible repeat' (first | assumption | apply State.writeSmp_open | apply State.setSampler_open | apply OptOpen.mk | exact OptOpen.none | dsimp only [id_eq, Open, OpenPart] | apply OptOpen.ite)
theorem State.smpControl_open_of {s : State} {who : Nat} {tile : Nat} {v : Word} {y : State} (e : (State.smpControl s who tile v) = some y) (h0 : Open s) : Open y :=
  State.smpControl_open h0 y e
theorem State.tileWrite_open {s : State} {who : Nat} {tile : Nat} {n : Nat} {v : Word} (h0 : Open s) : OptOpen (State.tileWrite s who tile n v) := by
  unfold State.tileWrite
  with_reducible repeat' (first | assumption | apply State.smpControl_open | apply State.writeSmp_open | apply State.setCoreReg_open | apply OptOpen.mk | exact OptOpen.none | dsimp only [id_eq, Open, OpenPart] | apply OptOpen.ite | split)
theorem State.tileWrite_open_of {s : State} {who : Nat} {tile : Nat} {n : Nat} {v : Word} {y : State} (e : (State.tileWrite s who tile n v) = some y) (h0 : Open s) : Open y :=
  State.tileWrite_open h0 y e
theorem State.reset_open   : Open (State.reset) := by
  intro n h
  have : State.reset.parts[n] = {} := by simp [State.reset]
  rw [this]; exact open_none
theorem Partition.noteCtl_open {p : Partition} {reg : Nat} {v : Word} {refused : Bool} (h0 : OpenPart p) : OpenPart (Partition.noteCtl p reg v refused) := by
  unfold Partition.noteCtl
  with_reducible repeat' (first | assumption | apply Partition.setReg_open)
theorem Partition.poolOff_open {p : Partition} {n : Nat} (h0 : OpenPart p) : OpenPart (Partition.poolOff p n) := by
  unfold Partition.poolOff
  with_reducible repeat' (first | assumption | dsimp only [id_eq, Open, OpenPart] | split)
theorem State.poolDisable_open {s : State} {part : Nat} {n : Nat} {v : Word} (h0 : Open s) : Open (State.poolDisable s part n v) := by
  unfold State.poolDisable
  with_reducible repeat' (first | assumption | apply State.setPart_open | apply Partition.noteCtl_open | apply Partition.poolOff_open | intro _)
theorem State.storeAccess_open {s : State} {ag : Agent} {seq : Nat} {strong : Bool} {a : Access} (h0 : Open s) : Open (State.storeAccess s ag seq strong a) := by
  unfold State.storeAccess
  with_reducible repeat' (first | assumption | apply State.bufferByte_open | apply State.performWrite_open | apply State.strongTouch_open | apply foldl_open | apply foldl_open_snd | intro _ | dsimp only [id_eq, Open, OpenPart] | split)
theorem State.store_open {s : State} {ok : Bool} {size : Nat} {d : BitVec 6} {a : BitVec 6} {u : Bool} {off : BitVec 8} {ord : BitVec 3} (h0 : Open s) : OutOpen (State.store s ok size d a u off ord) := by
  unfold State.store
  with_reducible repeat' (first | assumption | apply State.checked_open | apply State.accesses_open | apply State.release_open | apply State.retire_open | apply State.storeAccess_open | apply OutOpen.mk | apply foldl_open | intro _ | dsimp only [id_eq, Open, OpenPart] | split)
theorem State.icmp_open {s : State} {d : BitVec 6} {a : BitVec 6} {b : BitVec 6} {w : BitVec 2} {u : Bool} {x : Bool} {y : Bool} {f : Word → Word → Bool} (h0 : Open s) : OutOpen (State.icmp s d a b w u x y f) := by
  unfold State.icmp
  with_reducible repeat' (first | assumption | apply State.cmp_open | apply OutOpen.mk)
theorem State.putP_open {s : State} {n : Nat} {x : LaneMask} {lat : Nat} (h0 : Open s) : Open (State.putP s n x lat) := by
  unfold State.putP
  with_reducible repeat' (first | assumption | apply State.withMe_open)
theorem State.loadKey_open {s : State} {p : Nat} {slot : Nat} {key : Option (BitVec 256)} (h0 : Open s) : Open (State.loadKey s p slot key) := by
  unfold State.loadKey
  with_reducible repeat' (first | assumption | apply foldl_open | intro _)
theorem State.extreme_open {s : State} {larger : Bool} {d : BitVec 6} {a : BitVec 6} {b : BitVec 6} {w : BitVec 2} {x : Bool} (h0 : Open s) : OutOpen (State.extreme s larger d a b w x) := by
  unfold State.extreme
  with_reducible repeat' (first | assumption | apply State.reduce_open | apply OutOpen.mk)
theorem State.startJob_open {s : State} {e : Nat} {mine : Chain → Bool} {job : Nat → Job → Job} (h0 : Open s) (h1 : ∀ (t0 : Nat) (t1 : Job), Open t1.s → Open (job t0 t1).s) : Open (State.startJob s e mine job) := by
  unfold State.startJob
  with_reducible repeat' (first | assumption | apply State.setTeam_open | apply State.setChain_open | apply State.setEngine_open | apply State.engineMet_open | dsimp only [id_eq, Open, OpenPart] | split)
theorem Job.finish_open {j : Job} {st : Nat} {w : Word} (h0 : Open j.s) : Open (Job.finish j st w).s := by
  unfold Job.finish
  with_reducible repeat' (first | assumption | dsimp only [id_eq, Open, OpenPart] | split)
theorem Job.fail_open {j : Job} {w : Word} (h0 : Open j.s) : Open (Job.fail j w).s := by
  unfold Job.fail
  with_reducible repeat' (first | assumption | apply Job.finish_open)
theorem Job.read_open {j : Job} {va : Nat} {n : Nat} (h0 : Open j.s) : Open (Job.read j va n).2.s := by
  unfold Job.read
  with_reducible repeat' (first | assumption | apply Job.fail_open | dsimp only [id_eq, Open, OpenPart] | split)
theorem Job.read_open_of {j : Job} {va : Nat} {n : Nat} {y0 : List Byte} {y1 : Job} (eq0 : (Job.read j va n) = (y0, y1)) (h0 : Open j.s) : Open y1.s := by
  have h : Open (Job.read j va n).2.s := Job.read_open h0
  rw [eq0] at h; exact h
theorem Job.check_open {j : Job} {ok : Bool} {w : Word} (h0 : Open j.s) : Open (Job.check j ok w).s := by
  unfold Job.check
  with_reducible repeat' (first | assumption | apply Job.fail_open | dsimp only [id_eq, Open, OpenPart] | split)
theorem Job.write_open {j : Job} {va : Nat} {bs : List Byte} (h0 : Open j.s) : Open (Job.write j va bs).s := by
  unfold Job.write
  with_reducible repeat' (first | assumption | apply State.engineStore_open | apply Job.fail_open | dsimp only [id_eq, Open, OpenPart] | split)
theorem Job.cursor_open {j : Job} {param : Nat} {q : Nat} {off : Nat} (h0 : Open j.s) : Open (Job.cursor j param q off).s := by
  unfold Job.cursor
  with_reducible repeat' (first | assumption | apply Job.write_open | dsimp only [id_eq, Open, OpenPart] | split)
theorem Job.write32_open {j : Job} {va : Nat} {x : Nat} (h0 : Open j.s) : Open (Job.write32 j va x).s := by
  unfold Job.write32
  with_reducible repeat' (first | assumption | apply Job.write_open)
theorem ConvBlock.readBack_open {c : ConvBlock} {j : Job} (h0 : Open j.s) : Open (ConvBlock.readBack c j).2.2.s := by
  unfold ConvBlock.readBack
  with_reducible repeat' (first | assumption | apply Job.read_open | apply foldl_open_job_trd | intro _)
theorem ConvBlock.readBack_open_of {c : ConvBlock} {j : Job} {y0 : List Nat} {y1 : Nat} {y2 : Job} (eq0 : (ConvBlock.readBack c j) = (y0, y1, y2)) (h0 : Open j.s) : Open y2.s := by
  have h : Open (ConvBlock.readBack c j).2.2.s := ConvBlock.readBack_open h0
  rw [eq0] at h; exact h
theorem ConvBlock.compressChunk_open {c : ConvBlock} {param : Nat} {r : List Nat × Nat × Job} {q : Nat} (h0 : Open r.2.2.s) : Open (ConvBlock.compressChunk c param r q).2.2.s := by
  unfold ConvBlock.compressChunk
  with_reducible repeat' (first | assumption | apply Job.read_open | apply Job.finish_open | apply Job.write_open | apply Job.cursor_open | dsimp only [id_eq, Open, OpenPart] | split)
theorem ConvBlock.compressChunk_open_of {c : ConvBlock} {param : Nat} {r : List Nat × Nat × Job} {q : Nat} {y0 : List Nat} {y1 : Nat} {y2 : Job} (eq0 : (ConvBlock.compressChunk c param r q) = (y0, y1, y2)) (h0 : Open r.2.2.s) : Open y2.s := by
  have h : Open (ConvBlock.compressChunk c param r q).2.2.s := ConvBlock.compressChunk_open h0
  rw [eq0] at h; exact h
theorem compressJob_open {param : Nat} {j : Job} (h0 : Open j.s) : Open (compressJob param j).s := by
  unfold compressJob
  with_reducible repeat' (first | assumption | apply Job.read_open | apply Job.check_open | apply Job.cursor_open | apply Job.write32_open | apply ConvBlock.readBack_open | apply ConvBlock.compressChunk_open | apply Job.finish_open | apply Job.write_open | apply foldl_open_job_trd | dsimp only [id_eq, Open, OpenPart] | split)
theorem State.icmpi_open {s : State} {d : BitVec 6} {a : BitVec 6} {u : Bool} {f : Word → Bool} (h0 : Open s) : OutOpen (State.icmpi s d a u f) := by
  unfold State.icmpi
  with_reducible repeat' (first | assumption | apply State.compare_open | apply OutOpen.mk)
theorem State.acted_open {s : State} {part : Nat} {r : FaultRecord} (h0 : Open s) : Open (State.acted s part r) := by
  unfold State.acted
  with_reducible repeat' (first | assumption | apply State.setPart_open | intro _)
theorem State.replay_open {s : State} {part : Nat} {r : FaultRecord} (h0 : Open s) : OptOpen (State.replay s part r) := by
  unfold State.replay
  with_reducible repeat' (first | assumption | apply State.acted_open | apply State.mapGroups_open | apply OptOpen.mk | exact OptOpen.none | apply OptOpen.ite | split)
theorem State.replay_open_of {s : State} {part : Nat} {r : FaultRecord} {y : State} (e : (State.replay s part r) = some y) (h0 : Open s) : Open y :=
  State.replay_open h0 y e
theorem State.illop_open {s : State} (h0 : Open s) : Open (State.illop s) := by
  unfold State.illop
  with_reducible repeat' (first | assumption | apply State.raise_open)
theorem State.reported_open {s : State} {code : Nat} (h0 : Open s) : Open (State.reported s code) := by
  unfold State.reported
  with_reducible repeat' (first | assumption | apply State.acquire_open | dsimp only [id_eq, Open, OpenPart] | split)
theorem State.hostRefused_open {s : State} {who : Nat} (h0 : Open s) : Open (State.hostRefused s who) := by
  unfold State.hostRefused
  with_reducible repeat' (first | assumption | dsimp only [id_eq, Open, OpenPart] | split)
theorem State.flushScans_open {part : Nat} {a1 : Nat} {a2 : State} (h0 : Open a2) : Open (State.flushScans part a1 a2) := by
  induction a1 generalizing part a2 with
  | zero =>
    unfold State.flushScans
    with_reducible repeat' (first | apply ih | assumption | refine State.atelierWrite_open_of (by assumption) ?_ | apply State.setPart_open | apply State.msi_open | apply Partition.setReg_open | intro _ | dsimp only [id_eq, Open, OpenPart] | split)
  | succ k ih =>
    unfold State.flushScans
    with_reducible repeat' (first | apply ih | assumption | refine State.atelierWrite_open_of (by assumption) ?_ | apply State.setPart_open | apply State.msi_open | apply Partition.setReg_open | intro _ | dsimp only [id_eq, Open, OpenPart] | split)
theorem State.baseWritten_open {s : State} {part : Nat} {n : Nat} (h0 : Open s) : Open (State.baseWritten s part n) := by
  unfold State.baseWritten
  with_reducible repeat' (first | assumption | apply State.setPart_open | apply State.flushScans_open | intro _ | dsimp only [id_eq, Open, OpenPart] | split)
theorem State.poolEnable_open {s : State} {part : Nat} {n : Nat} {v : Word} (h0 : Open s) : Open (State.poolEnable s part n v) := by
  unfold State.poolEnable
  with_reducible repeat' (first | assumption | apply State.setPart_open | apply Partition.noteCtl_open | apply Partition.poolOff_open | intro _ | dsimp only [id_eq, Open, OpenPart] | split)
theorem Partition.mouldOff_open {p : Partition} {n : Nat} (h0 : OpenPart p) : OpenPart (Partition.mouldOff p n) := by
  unfold Partition.mouldOff
  with_reducible repeat' (first | assumption | dsimp only [id_eq, Open, OpenPart] | split)
theorem State.mouldDisable_open {s : State} {part : Nat} {n : Nat} {v : Word} (h0 : Open s) : Open (State.mouldDisable s part n v) := by
  unfold State.mouldDisable
  with_reducible repeat' (first | assumption | apply State.setPart_open | apply Partition.noteCtl_open | apply Partition.mouldOff_open | intro _ | dsimp only [id_eq, Open, OpenPart] | split)
theorem State.mouldEnable_open {s : State} {part : Nat} {n : Nat} {v : Word} (h0 : Open s) : Open (State.mouldEnable s part n v) := by
  unfold State.mouldEnable
  with_reducible repeat' (first | assumption | apply State.setPart_open | apply Partition.noteCtl_open | apply Partition.mouldOff_open | intro _ | dsimp only [id_eq, Open, OpenPart] | split)
theorem State.actRefused_open {s : State} {part : Nat} (h0 : Open s) : Open (State.actRefused s part) := by
  unfold State.actRefused
  with_reducible repeat' (first | assumption | apply State.setPart_open | apply Partition.setReg_open | intro _)
theorem State.deliver_open {s : State} {part : Nat} {r : FaultRecord} (h0 : Open s) : OptOpen (State.deliver s part r) := by
  unfold State.deliver
  with_reducible repeat' (first | assumption | apply State.acted_open | apply State.mapGroups_open | apply OptOpen.mk | exact OptOpen.none | dsimp only [id_eq, Open, OpenPart] | apply OptOpen.ite | split)
theorem State.deliver_open_of {s : State} {part : Nat} {r : FaultRecord} {y : State} (e : (State.deliver s part r) = some y) (h0 : Open s) : Open y :=
  State.deliver_open h0 y e
theorem State.killRecord_open {s : State} {part : Nat} {r : FaultRecord} (h0 : Open s) : OptOpen (State.killRecord s part r) := by
  unfold State.killRecord
  with_reducible repeat' (first | assumption | apply State.killTask_open | apply State.acted_open | apply OptOpen.mk | exact OptOpen.none | apply OptOpen.ite)
theorem State.killRecord_open_of {s : State} {part : Nat} {r : FaultRecord} {y : State} (e : (State.killRecord s part r) = some y) (h0 : Open s) : Open y :=
  State.killRecord_open h0 y e
theorem State.faultAct_open {s : State} {part : Nat} {action : Nat} {seq : Nat} (h0 : Open s) : Open (State.faultAct s part action seq) := by
  unfold State.faultAct
  with_reducible repeat' (first | assumption | apply State.actRefused_open | apply State.replay_open | apply State.deliver_open | apply State.killRecord_open | apply getD_open | dsimp only [id_eq, Open, OpenPart] | split)
theorem State.landJobs_open {s : State} {part : Nat} (h0 : Open s) : Open (State.landJobs s part) := by
  unfold State.landJobs
  with_reducible repeat' (first | assumption | apply State.engineStore_open | apply foldl_open | intro _)
theorem State.invalidate_open {s : State} {part : Nat} {hit : Nat → Bool} (h0 : Open s) : Open (State.invalidate s part hit) := by
  unfold State.invalidate
  with_reducible repeat' (first | assumption | apply State.drainAll_open | apply State.landJobs_open | apply foldl_open)
theorem State.tlbControl_open {s : State} {part : Nat} {v : Word} (h0 : Open s) : Open (State.tlbControl s part v) := by
  unfold State.tlbControl
  with_reducible repeat' (first | assumption | apply State.invalidate_open | apply State.setPart_open | apply Partition.setReg_open | intro _)
theorem State.resetPool_open {s : State} {rx : Nat} (h0 : Open s) : Open (State.resetPool s rx) := by
  unfold State.resetPool
  with_reducible repeat' (first | assumption)
theorem State.resetQueue_open {s : State} {e : Nat} {p : Nat} (h0 : Open s) : Open (State.resetQueue s e p) := by
  unfold State.resetQueue
  with_reducible repeat' (first | assumption | apply State.leaveUnit_open | apply foldl_open | intro _ | dsimp only [id_eq, Open, OpenPart] | split)
theorem State.flagChannel_open {s : State} {id : Nat} {b : Bool} (h0 : Open s) : Open (State.flagChannel s id b) := by
  unfold State.flagChannel
  with_reducible repeat' (first | assumption | apply State.setChannel_open | apply State.setMailbox_open | apply State.setPart_open | intro _ | dsimp only [id_eq, Open, OpenPart] | split)
theorem State.resetChan_open {s : State} {id : Nat} (h0 : Open s) : Open (State.resetChan s id) := by
  unfold State.resetChan
  with_reducible repeat' (first | assumption | apply State.resetPool_open | apply State.resetChannel_open | apply State.resetQueue_open | apply State.resetTiles_open | apply State.setMailbox_open | apply State.sound_open | apply State.setPart_open | apply State.flagChannel_open | intro _ | dsimp only [id_eq, Open, OpenPart] | split)
theorem State.chReset_open {s : State} {who : Nat} {part : Nat} {id : Word} (h0 : Open s) : Open (State.chReset s who part id) := by
  unfold State.chReset
  with_reducible repeat' (first | assumption | apply State.setPart_open | apply Partition.setReg_open | apply State.resetChan_open | intro _ | dsimp only [id_eq, Open, OpenPart] | split)
theorem State.setGate_open {s : State} {r : Nat} {g : Gate} (h0 : Open s) : Open (State.setGate s r g) := by
  unfold State.setGate
  with_reducible repeat' (first | assumption)
theorem State.gateRaise_open {s : State} {who : Nat} {r : Nat} (h0 : Open s) : OptOpen (State.gateRaise s who r) := by
  unfold State.gateRaise
  with_reducible repeat' (first | assumption | apply State.setGate_open | apply OptOpen.mk | exact OptOpen.none | dsimp only [id_eq, Open, OpenPart] | apply OptOpen.ite | split)
theorem State.gateRaise_open_of {s : State} {who : Nat} {r : Nat} {y : State} (e : (State.gateRaise s who r) = some y) (h0 : Open s) : Open y :=
  State.gateRaise_open h0 y e
theorem State.askSave_open {s : State} {t : Team} (h0 : Open s) : Open (State.askSave s t) := by
  unfold State.askSave
  with_reducible repeat' (first | assumption)
theorem State.preemptTeam_open {s : State} {id : Nat} {waits : Bool} (h0 : Open s) : Open (State.preemptTeam s id waits) := by
  unfold State.preemptTeam
  with_reducible repeat' (first | assumption | apply State.restartFlushed_open | apply State.setTeam_open | apply State.askSave_open | dsimp only [id_eq, Open, OpenPart] | split)
theorem State.preemptRegion_open {s : State} {r : Nat} (h0 : Open s) : Open (State.preemptRegion s r) := by
  unfold State.preemptRegion
  with_reducible repeat' (first | assumption | apply State.preemptTeam_open | apply foldl_open | intro _)
theorem State.gateAsk_open {s : State} {who : Nat} {r : Nat} {preempt : Bool} (h0 : Open s) : OptOpen (State.gateAsk s who r preempt) := by
  unfold State.gateAsk
  with_reducible repeat' (first | assumption | apply State.setGate_open | apply State.preemptRegion_open | apply OptOpen.mk | exact OptOpen.none | dsimp only [id_eq, Open, OpenPart] | apply OptOpen.ite | split)
theorem State.gateAsk_open_of {s : State} {who : Nat} {r : Nat} {preempt : Bool} {y : State} (e : (State.gateAsk s who r preempt) = some y) (h0 : Open s) : Open y :=
  State.gateAsk_open h0 y e
theorem State.gateWrite_open {s : State} {who : Nat} {part : Nat} {v : Word} (h0 : Open s) : OptOpen (State.gateWrite s who part v) := by
  unfold State.gateWrite
  with_reducible repeat' (first | assumption | apply State.gateRaise_open | apply State.gateAsk_open | apply State.setPart_open | apply Partition.setReg_open | apply getD_open | apply OptOpen.mk | exact OptOpen.none | intro _ | dsimp only [id_eq, Open, OpenPart] | apply OptOpen.ite)
theorem State.gateWrite_open_of {s : State} {who : Nat} {part : Nat} {v : Word} {y : State} (e : (State.gateWrite s who part v) = some y) (h0 : Open s) : Open y :=
  State.gateWrite_open h0 y e
theorem State.loadFilter_open {s : State} {who : Nat} {part : Nat} {v : Word} (h0 : Open s) : OptOpen (State.loadFilter s who part v) := by
  unfold State.loadFilter
  with_reducible repeat' (first | assumption | apply State.setPart_open | apply Partition.setReg_open | apply OptOpen.mk | exact OptOpen.none | intro _ | dsimp only [id_eq, Open, OpenPart] | apply OptOpen.ite | split)
theorem State.loadFilter_open_of {s : State} {who : Nat} {part : Nat} {v : Word} {y : State} (e : (State.loadFilter s who part v) = some y) (h0 : Open s) : Open y :=
  State.loadFilter_open h0 y e
theorem State.startTrial_open {s : State} {part : Nat} (h0 : Open s) : Open (State.startTrial s part) := by
  unfold State.startTrial
  with_reducible repeat' (first | assumption | apply State.setPart_open | apply Partition.setReg_open | apply foldl_open_part | intro _ | dsimp only [id_eq, Open, OpenPart] | split)
theorem State.stopTrial_open {s : State} {part : Nat} (h0 : Open s) : Open (State.stopTrial s part) := by
  unfold State.stopTrial
  with_reducible repeat' (first | assumption | apply State.setPart_open | apply Partition.setReg_open | intro _)
theorem State.scanAct_open {s : State} {part : Nat} {discard : Bool} (h0 : Open s) : Open (State.scanAct s part discard) := by
  unfold State.scanAct
  with_reducible repeat' (first | assumption | apply State.setPart_open | apply Partition.setReg_open | apply State.discardVersion_open | apply State.commitVersion_open | intro _ | dsimp only [id_eq, Open, OpenPart] | split)
theorem Partition.doorbell_open {p : Partition} {q : Nat} {v : Word} (h0 : OpenPart p) : OpenPart (Partition.doorbell p q v) := by
  unfold Partition.doorbell
  with_reducible repeat' (first | assumption | apply Partition.setReg_open | dsimp only [id_eq, Open, OpenPart] | split)
theorem State.toBoard_open {s : State} {ch : Nat} {step : Nat} (h0 : Open s) : Open (State.toBoard s ch step) := by
  unfold State.toBoard
  with_reducible repeat' (first | assumption)
theorem State.keyRequest_open {s : State} {p : Nat} (h0 : Open s) : Open (State.keyRequest s p) := by
  unfold State.keyRequest
  with_reducible repeat' (first | assumption | apply State.keyStatus_open | apply State.toBoard_open | apply State.setPart_open | apply State.loadKey_open | intro _ | dsimp only [id_eq, Open, OpenPart] | split)
theorem State.partWrite_open {s : State} {who : Nat} {part : Nat} {n : Nat} {v : Word} (h0 : Open s) : OptOpen (State.partWrite s who part n v) := by
  unfold State.partWrite
  with_reducible repeat' (first | assumption | apply State.setPart_open | apply Partition.setReg_open | apply State.baseWritten_open | apply State.flushScans_open | apply State.fire_open | apply State.poolDisable_open | apply State.poolEnable_open | apply State.mouldDisable_open | apply State.mouldEnable_open | apply State.faultAct_open | apply State.tlbControl_open | apply State.chReset_open | apply State.gateWrite_open | apply State.loadFilter_open | apply State.startTrial_open | apply State.stopTrial_open | apply State.debugOp_open | apply State.scanAct_open | apply Partition.doorbell_open | apply State.keyRequest_open | apply OptOpen.mk | exact OptOpen.none | intro _ | dsimp only [id_eq, Open, OpenPart] | apply OptOpen.ite | split)
theorem State.partWrite_open_of {s : State} {who : Nat} {part : Nat} {n : Nat} {v : Word} {y : State} (e : (State.partWrite s who part n v) = some y) (h0 : Open s) : Open y :=
  State.partWrite_open h0 y e
theorem State.hostPart_open {s : State} {p : Nat} {n : Nat} {v : Word} (h0 : Open s) : Open (State.hostPart s p n v) := by
  unfold State.hostPart
  with_reducible repeat' (first | assumption | apply State.toError_open | apply State.hostRefused_open | apply State.partWrite_open | apply getD_open | dsimp only [id_eq, Open, OpenPart] | split)
theorem State.reportScan_open {s : State} {tile : Nat} {result : Nat} {scan : Nat} (h0 : Open s) : Open (State.reportScan s tile result scan) := by
  unfold State.reportScan
  with_reducible repeat' (first | assumption | apply State.setPart_open | apply State.flushScans_open | apply State.msi_open | apply foldl_open | intro _ | dsimp only [id_eq, Open, OpenPart] | split)
theorem State.holdVersions_open {s : State} {tile : Nat} {waiting : Bool} (h0 : Open s) : Open (State.holdVersions s tile waiting) := by
  unfold State.holdVersions
  with_reducible repeat' (first | assumption | apply State.setVersion_open | apply foldl_open | intro _)
theorem State.disableCore_open {s : State} {tile : Nat} (h0 : Open s) : Open (State.disableCore s tile) := by
  unfold State.disableCore
  with_reducible repeat' (first | assumption | apply State.reportScan_open | apply State.holdVersions_open | dsimp only [id_eq, Open, OpenPart] | split)
theorem State.maskCores_open {s : State} {mask : BitVec 96} (h0 : Open s) : Open (State.maskCores s mask) := by
  unfold State.maskCores
  with_reducible repeat' (first | assumption | apply State.disableCore_open | apply foldl_open)
theorem State.deviceWrite_open {s : State} {k : Nat} {v : Word} (h0 : Open s) : OptOpen (State.deviceWrite s k v) := by
  unfold State.deviceWrite
  with_reducible repeat' (first | assumption | apply State.partCommand_open | apply State.maskCores_open | apply State.setPatrolReg_open | apply OptOpen.mk | exact OptOpen.none | dsimp only [id_eq, Open, OpenPart] | apply OptOpen.ite | split)
theorem State.deviceWrite_open_of {s : State} {k : Nat} {v : Word} {y : State} (e : (State.deviceWrite s k v) = some y) (h0 : Open s) : Open y :=
  State.deviceWrite_open h0 y e
theorem State.withMould_open {s : State} {n : Nat} {mask : LaneMask} {f : State → State} (h0 : Open s) (h1 : ∀ (t0 : State), Open t0 → Open (f t0)) : Open (State.withMould s n mask f) := by
  unfold State.withMould
  with_reducible repeat' (first | assumption | apply h1 | apply State.fail_open | dsimp only [id_eq, Open, OpenPart] | split)
theorem State.allocBlock_open {s : State} {part : Nat} {n : Nat} {tile : Nat} {branch : Nat} (h0 : Open s) : Open (State.allocBlock s part n tile branch).2 := by
  unfold State.allocBlock
  with_reducible repeat' (first | assumption | apply State.setPool_open | refine State.atelierWrite_open_of (by assumption) ?_ | apply State.atelierFault_open | dsimp only [id_eq, Open, OpenPart] | split)
theorem State.allocBlock_open_of {s : State} {part : Nat} {n : Nat} {tile : Nat} {branch : Nat} {y0 : Nat} {y1 : State} (eq0 : (State.allocBlock s part n tile branch) = (y0, y1)) (h0 : Open s) : Open y1 := by
  have h : Open (State.allocBlock s part n tile branch).2 := State.allocBlock_open h0
  rw [eq0] at h; exact h
theorem State.allocBlocks_open {s : State} {part : Nat} {n : Nat} {tile : Nat} {branch : Nat} {a5 : List Nat} (h0 : Open s) : Open (State.allocBlocks s part n tile branch a5).2 := by
  induction a5 generalizing s part n tile branch with
  | nil =>
    unfold State.allocBlocks
    with_reducible repeat' (first | apply ih | assumption | apply State.allocBlock_open)
  | cons x xs ih =>
    unfold State.allocBlocks
    with_reducible repeat' (first | apply ih | assumption | apply State.allocBlock_open)
theorem State.allocBlocks_open_of {s : State} {part : Nat} {n : Nat} {tile : Nat} {branch : Nat} {a5 : List Nat} {y0 : List (Nat × Nat)} {y1 : State} (eq0 : (State.allocBlocks s part n tile branch a5) = (y0, y1)) (h0 : Open s) : Open y1 := by
  have h : Open (State.allocBlocks s part n tile branch a5).2 := State.allocBlocks_open h0
  rw [eq0] at h; exact h
theorem State.closeMoulds_open {s : State} (h0 : Open s) : Open (State.closeMoulds s) := by
  unfold State.closeMoulds
  with_reducible repeat' (first | assumption | apply State.setPart_open | apply Partition.mouldOff_open | apply foldl_open | intro _)
theorem State.pairOp_open {s : State} {d : BitVec 6} {a : BitVec 6} {b : BitVec 6} {w : BitVec 2} {u : Bool} {x : Bool} {y : Bool} {px : Bool} {f : Fp → Fp → Res} (h0 : Open s) : OutOpen (State.pairOp s d a b w u x y px f) := by
  unfold State.pairOp
  with_reducible repeat' (first | assumption | apply State.calc_open | apply OutOpen.mk)
theorem State.unlessLocked_open {s : State} {who : Nat} {part : Nat} {n : Nat} {t : State} (h0 : Open s) (h1 : Open t) : Open (State.unlessLocked s who part n t) := by
  unfold State.unlessLocked
  with_reducible repeat' (first | assumption | apply State.toError_open | dsimp only [id_eq, Open, OpenPart] | split)
theorem State.debugStep_open {s : State} {who : Nat} {part : Nat} {v : Word} {action : Nat} (h0 : Open s) : Open (State.debugStep s who part v action) := by
  unfold State.debugStep
  with_reducible repeat' (first | assumption | apply State.unlessLocked_open | apply State.debugOp_open | dsimp only [id_eq, Open, OpenPart] | split)
theorem State.spread_open {s : State} {initiator : Nat} {num : Nat} {path : List Word} {u : ProbeUnit} (h0 : Open s) : Open (State.spread s initiator num path u) := by
  unfold State.spread
  with_reducible repeat' (first | assumption)
theorem State.putEXM_open {s : State} {x : LaneMask} {lat : Nat} (h0 : Open s) : Open (State.putEXM s x lat) := by
  unfold State.putEXM
  with_reducible repeat' (first | assumption | apply State.setPath_open | apply State.withMe_open)
theorem State.grant_open {s : State} {seq : Nat} {path : Nat} {code : Nat} {data : List Word} (h0 : Open s) : Open (State.grant s seq path code data) := by
  unfold State.grant
  with_reducible repeat' (first | assumption | apply State.setGroup_open)
theorem State.writeFull_open {s : State} {part : Nat} {k : Nat} {full : Bool} (h0 : Open s) : Open (State.writeFull s part k full) := by
  unfold State.writeFull
  with_reducible repeat' (first | assumption | dsimp only [id_eq, Open, OpenPart] | split)
theorem State.febWalk_open {part : Nat} {k : Nat} {a2 : List FebWaiter} {a3 : State} (h0 : Open a3) : Open (State.febWalk part k a2 a3) := by
  induction a2 generalizing part k a3 with
  | nil =>
    unfold State.febWalk
    with_reducible repeat' (first | apply ih | assumption | apply State.writeHead_open | apply State.grant_open | apply State.writeFull_open | apply State.review_open | dsimp only [id_eq, Open, OpenPart] | split)
  | cons x xs ih =>
    unfold State.febWalk
    with_reducible repeat' (first | apply ih | assumption | apply State.writeHead_open | apply State.grant_open | apply State.writeFull_open | apply State.review_open | dsimp only [id_eq, Open, OpenPart] | split)
theorem State.febServe_open {part : Nat} {k : Nat} {a2 : Nat} {a3 : State} (h0 : Open a3) : Open (State.febServe part k a2 a3) := by
  induction a2 generalizing part k a3 with
  | zero =>
    unfold State.febServe
    with_reducible repeat' (first | apply ih | assumption | apply State.febWalk_open | dsimp only [id_eq, Open, OpenPart] | split)
  | succ k ih =>
    unfold State.febServe
    with_reducible repeat' (first | apply ih | assumption | apply State.febWalk_open | dsimp only [id_eq, Open, OpenPart] | split)
theorem Partition.offerRecord_open {p : Partition} {r : TraceRec} (h0 : OpenPart p) : OpenPart (Partition.offerRecord p r) := by
  unfold Partition.offerRecord
  with_reducible repeat' (first | assumption | apply Partition.traceDrop_open | dsimp only [id_eq, Open, OpenPart] | split)
theorem State.moveUp_open {s : State} {kind : Nat} {tile : Nat} {lo : Nat} {n : Nat} {hi : Nat} (h0 : Open s) : Open (State.moveUp s kind tile lo n hi) := by
  unfold State.moveUp
  with_reducible repeat' (first | assumption | apply State.sound_open | dsimp only [id_eq, Open, OpenPart] | split)
theorem State.takeMail_open {s : State} {id : Nat} {k : Nat} (h0 : Open s) : Open (State.takeMail s id k) := by
  unfold State.takeMail
  with_reducible repeat' (first | assumption | apply State.setMailbox_open | apply State.moveUp_open)
theorem State.endUnveiling_open {s : State} {part : Nat} (h0 : Open s) : Open (State.endUnveiling s part) := by
  unfold State.endUnveiling
  with_reducible repeat' (first | assumption | apply State.setPart_open | intro _ | dsimp only [id_eq, Open, OpenPart] | split)
theorem State.orPoison_open {s : State} {mask : LaneMask} {k : State → State} (h0 : Open s) (h1 : ∀ (t0 : State), Open t0 → Open (k t0)) : Open (State.orPoison s mask k) := by
  unfold State.orPoison
  with_reducible repeat' (first | assumption | apply h1 | apply State.fail_open | apply State.setMyTeam_open | dsimp only [id_eq, Open, OpenPart] | split)
theorem State.onMailbox_open {s : State} {ok : Bool} {uses : List Use} {b : BitVec 6} {f : Nat → State → State} (h0 : Open s) (h1 : ∀ (t0 : Nat) (t1 : State), Open t1 → Open (f t0 t1)) : Open (State.onMailbox s ok uses b f) := by
  unfold State.onMailbox
  with_reducible repeat' (first | assumption | apply h1 | apply State.checked_open | apply State.raise_open | intro _ | dsimp only [id_eq, Open, OpenPart] | split)
theorem State.copyIssue_open {s : State} {bad : List (Option Refuse)} {start : State → State} (h0 : Open s) (h1 : ∀ (t0 : State), Open t0 → Open (start t0)) : Open (State.copyIssue s bad start) := by
  unfold State.copyIssue
  with_reducible repeat' (first | assumption | apply h1 | apply State.refuse_open | apply State.retire_open | dsimp only [id_eq, Open, OpenPart] | split)
theorem State.startCopy_open {s : State} {kind : CopyKind} {failed : Bool} (h0 : Open s) : Open (State.startCopy s kind failed) := by
  unfold State.startCopy
  with_reducible repeat' (first | assumption)
theorem State.drainRange_open {s : State} {part : Nat} {team : Nat} {va : Nat} {n : Nat} (h0 : Open s) : Open (State.drainRange s part team va n) := by
  unfold State.drainRange
  with_reducible repeat' (first | assumption | apply State.drainEntry_open | apply foldl_open | intro _)
theorem State.tableError_open {s : State} (h0 : Open s) : Open (State.tableError s) := by
  unfold State.tableError
  with_reducible repeat' (first | assumption | apply State.raise_open)
theorem RuleBlock.pairsOut_open {r : RuleBlock} {q : Nat} {ps : List (Nat × Nat)} {j : Job} (h0 : Open j.s) : Open (RuleBlock.pairsOut r q ps j).s := by
  unfold RuleBlock.pairsOut
  with_reducible repeat' (first | assumption | apply Job.write_open | apply foldl_open_job | intro _)
theorem State.dwPP_open {s : State} {d : BitVec 6} {a : BitVec 6} {b : BitVec 6} {w : BitVec 2} {u : Bool} {x : Bool} {y : Bool} {per : Nat} {cls : Nat} {f : Fp → Fp → Fp → Fp → List Word × Nat} (h0 : Open s) : OutOpen (State.dwPP s d a b w u x y per cls f) := by
  unfold State.dwPP
  with_reducible repeat' (first | assumption | apply State.calc_open | apply OutOpen.mk)
theorem State.enqueue_open {s : State} {k : MatKind} (h0 : Open s) : Open (State.enqueue s k) := by
  unfold State.enqueue
  with_reducible repeat' (first | assumption | apply State.setMyTeam_open)
theorem State.queueOp_open {s : State} {k : MatKind} {d : Done} (h0 : Open s) : Open (State.queueOp s k d) := by
  unfold State.queueOp
  with_reducible repeat' (first | assumption | apply State.block_open | apply State.retire_open | apply State.enqueue_open | dsimp only [id_eq, Open, OpenPart] | split)
theorem State.maintain_open {s : State} {a : BitVec 6} {b : BitVec 6} {whole : Bool} {sc : BitVec 3} {go : State → State} (h0 : Open s) (h1 : ∀ (t0 : State), Open t0 → Open (go t0)) : OutOpen (State.maintain s a b whole sc go) := by
  unfold State.maintain
  with_reducible repeat' (first | assumption | apply h1 | apply State.checked_open | apply State.raise_open | apply State.retire_open | apply OutOpen.mk | intro _ | dsimp only [id_eq, Open, OpenPart] | split)
theorem Job.records_open {j : Job} {va : Nat} {size : Nat} {n : Nat} (h0 : Open j.s) : Open (Job.records j va size n).2.s := by
  unfold Job.records
  with_reducible repeat' (first | assumption | apply Job.read_open | apply foldl_open_job_snd | intro _)
theorem Job.records_open_of {j : Job} {va : Nat} {size : Nat} {n : Nat} {y0 : List (List Byte)} {y1 : Job} (eq0 : (Job.records j va size n) = (y0, y1)) (h0 : Open j.s) : Open y1.s := by
  have h : Open (Job.records j va size n).2.s := Job.records_open h0
  rw [eq0] at h; exact h
theorem stepJob_open {param : Nat} {j : Job} (h0 : Open j.s) : Open (stepJob param j).s := by
  unfold stepJob
  with_reducible repeat' (first | assumption | apply Job.read_open | apply Job.check_open | apply Job.records_open | apply Job.write_open | apply Job.finish_open | apply foldl_open_job | intro _ | dsimp only [id_eq, Open, OpenPart] | split)
theorem State.keyEvent_open {s : State} {p : Nat} {op : Nat} (h0 : Open s) : Open (State.keyEvent s p op) := by
  unfold State.keyEvent
  with_reducible repeat' (first | assumption | apply State.keyRequest_open | dsimp only [id_eq, Open, OpenPart] | split)
theorem State.giveBack_open {s : State} {n : Nat} {bs : List Nat} (h0 : Open s) : Open (State.giveBack s n bs) := by
  unfold State.giveBack
  with_reducible repeat' (first | assumption | apply State.putCMBit_open | apply State.atelierFault_open | apply State.setPool_open | dsimp only [id_eq, Open, OpenPart] | split)
theorem State.putPair_open {s : State} {n : Nat} {x : DWord} {lat : Nat} (h0 : Open s) : Open (State.putPair s n x lat) := by
  unfold State.putPair
  with_reducible repeat' (first | assumption | apply State.putS_open)
theorem State.convert_open {s : State} {d : BitVec 6} {a : BitVec 6} {t : BitVec 3} {u : Bool} {f : BitVec 3} {g : Env → Nat → Word × Nat} (h0 : Open s) : OutOpen (State.convert s d a t u f g) := by
  unfold State.convert
  with_reducible repeat' (first | assumption | apply State.una_open | apply OutOpen.mk)
theorem State.soundEntries_open {s : State} {g : Group} (h0 : Open s) : Open (State.soundEntries s g) := by
  unfold State.soundEntries
  with_reducible repeat' (first | assumption | dsimp only [id_eq, Open, OpenPart] | split)
theorem State.checkout_open {s : State} {seq : Nat} {path : Nat} (h0 : Open s) : Open (State.checkout s seq path) := by
  unfold State.checkout
  with_reducible repeat' (first | assumption | apply State.soundEntries_open | dsimp only [id_eq, Open, OpenPart] | split)
theorem State.issued_open {s : State} {seq : Nat} {o : Out} (h0 : Open s) (h1 : OutOpen o) : OutOpen (State.issued s seq o) := by
  unfold State.issued
  with_reducible repeat' (first | assumption | apply State.setGroup_open | apply OutOpen.mk | split)
theorem State.ownEXM_open {s : State} (h0 : Open s) : Open (State.ownEXM s) := by
  unfold State.ownEXM
  with_reducible repeat' (first | assumption | apply State.withMe_open | apply State.setPath_open | dsimp only [id_eq, Open, OpenPart] | split)
theorem State.needPriv_open {s : State} (h0 : Open s) : Open (State.needPriv s) := by
  unfold State.needPriv
  with_reducible repeat' (first | assumption | apply State.raise_open)
theorem State.groupWrite_open {s : State} {n : Nat} {v : Word} (h0 : Open s) : OptOpen (State.groupWrite s n v) := by
  unfold State.groupWrite
  with_reducible repeat' (first | assumption | apply State.withMe_open | apply State.setMyTeam_open | apply OptOpen.mk | exact OptOpen.none | dsimp only [id_eq, Open, OpenPart] | apply OptOpen.ite)
theorem State.groupWrite_open_of {s : State} {n : Nat} {v : Word} {y : State} (e : (State.groupWrite s n v) = some y) (h0 : Open s) : Open y :=
  State.groupWrite_open h0 y e
theorem State.sysWrite_open {s : State} {n : Nat} {v : Word} (h0 : Open s) : OptOpen (State.sysWrite s n v) := by
  unfold State.sysWrite
  with_reducible repeat' (first | assumption | apply State.groupWrite_open | apply State.tileWrite_open | apply State.partWrite_open | exact OptOpen.none | apply OptOpen.ite)
theorem State.sysWrite_open_of {s : State} {n : Nat} {v : Word} {y : State} (e : (State.sysWrite s n v) = some y) (h0 : Open s) : Open y :=
  State.sysWrite_open h0 y e
theorem State.logic1_open {s : State} {d : BitVec 6} {a : BitVec 6} {w : BitVec 2} {u : Bool} {x : Bool} {f : Word → Word} (h0 : Open s) : OutOpen (State.logic1 s d a w u x f) := by
  unfold State.logic1
  with_reducible repeat' (first | assumption | apply State.una_open | apply OutOpen.mk)
theorem State.imm_open {s : State} {ok : Bool} {d : BitVec 6} {a : BitVec 6} {u : Bool} {f : Word → Word} (h0 : Open s) : Open (State.imm s ok d a u f) := by
  unfold State.imm
  with_reducible repeat' (first | assumption | apply State.calc_open)
theorem State.address_open {s : State} {d : BitVec 6} {a : BitVec 6} {b : BitVec 6} {u : Bool} {w : BitVec 2} {x : Bool} {y : Bool} {cls : Nat} {f : DWord → Word → DWord} (h0 : Open s) : Open (State.address s d a b u w x y cls f) := by
  unfold State.address
  with_reducible repeat' (first | assumption | apply State.calc_open)
theorem State.predOp_open {s : State} {d : BitVec 6} {a : BitVec 6} {b : BitVec 6} {w : BitVec 2} {u : Bool} {f : LaneMask → LaneMask → LaneMask} (h0 : Open s) : OutOpen (State.predOp s d a b w u f) := by
  unfold State.predOp
  with_reducible repeat' (first | assumption | apply State.checked_open | apply State.retire_open | apply State.putCMBit_open | apply State.withMe_open | apply OutOpen.mk | intro _ | dsimp only [id_eq, Open, OpenPart] | split)
theorem State.putCM_open {s : State} {x : DWord} {lat : Nat} (h0 : Open s) : Open (State.putCM s x lat) := by
  unfold State.putCM
  with_reducible repeat' (first | assumption | apply State.putCMBits_open)
theorem State.dwPF_open {s : State} {d : BitVec 6} {a : BitVec 6} {b : BitVec 6} {w : BitVec 2} {u : Bool} {x : Bool} {y : Bool} {f : Fp → Fp → Fp → List Word × Nat} (h0 : Open s) : OutOpen (State.dwPF s d a b w u x y f) := by
  unfold State.dwPF
  with_reducible repeat' (first | assumption | apply State.calc_open | apply OutOpen.mk)
theorem State.dwP_open {s : State} {d : BitVec 6} {a : BitVec 6} {w : BitVec 2} {u : Bool} {x : Bool} {per : Nat} {cls : Nat} {f : Fp → Fp → List Word × Nat} (h0 : Open s) : OutOpen (State.dwP s d a w u x per cls f) := by
  unfold State.dwP
  with_reducible repeat' (first | assumption | apply State.calc_open | apply OutOpen.mk)
theorem State.arrive_open {s : State} {cluster : Bool} {split : Bool} (h0 : Open s) : Open (State.arrive s cluster split) := by
  unfold State.arrive
  with_reducible repeat' (first | assumption | apply State.setMyTeam_open | apply State.withMe_open | apply State.clusterPhase_open | apply State.teamPhase_open | dsimp only [id_eq, Open, OpenPart] | split)
theorem State.vote_open {s : State} {d : BitVec 6} {a : BitVec 6} {b : BitVec 6} {w : BitVec 2} {f : LaneMask → LaneMask → Bool} (h0 : Open s) : OutOpen (State.vote s d a b w f) := by
  unfold State.vote
  with_reducible repeat' (first | assumption | apply State.checked_open | apply State.withMe_open | apply State.retire_open | apply OutOpen.mk | intro _)
theorem State.bankOp_open {s : State} {ok : Bool} {a : BitVec 6} {b : BitVec 6} {size : Nat} {align : Nat} {step : Nat → Nat} {f : Nat → Nat → Nat} (h0 : Open s) : OutOpen (State.bankOp s ok a b size align step f) := by
  unfold State.bankOp
  with_reducible repeat' (first | assumption | apply State.checked_open | apply State.bankAccesses_open | apply State.retire_open | apply State.atomics_open | apply OutOpen.mk | intro _)
theorem State.waitBatches_open {s : State} {n : Nat} (h0 : Open s) : Open (State.waitBatches s n) := by
  unfold State.waitBatches
  with_reducible repeat' (first | assumption | apply State.block_open | apply State.retire_open | apply State.putCMBit_open | apply State.acquire_open | dsimp only [id_eq, Open, OpenPart] | split)
theorem State.febChecked_open {s : State} {ok : Bool} {a : BitVec 6} {f : Nat → State → State} (h0 : Open s) (h1 : ∀ (t0 : Nat) (t1 : State), Open t1 → Open (f t0 t1)) : OutOpen (State.febChecked s ok a f) := by
  unfold State.febChecked
  with_reducible repeat' (first | assumption | apply h1 | apply State.checked_open | apply State.raise_open | apply OutOpen.mk | intro _ | dsimp only [id_eq, Open, OpenPart] | split)
theorem State.setFull_open {s : State} {part : Nat} {k : Nat} {full : Bool} (h0 : Open s) : Open (State.setFull s part k full) := by
  unfold State.setFull
  with_reducible repeat' (first | assumption | apply State.review_open | apply State.writeFull_open | apply State.febServe_open | dsimp only [id_eq, Open, OpenPart] | split)
theorem State.febBlock_open {s : State} {n : Nat} {kind : FebKind} {w : BitVec 2} (h0 : Open s) : Open (State.febBlock s n kind w) := by
  unfold State.febBlock
  with_reducible repeat' (first | assumption | apply State.retire_open | apply State.acquire_open | apply State.release_open | apply State.setFull_open | apply State.block_open | apply State.writeHead_open | dsimp only [id_eq, Open, OpenPart] | split)
theorem State.latchFault_open {s : State} {c : Cause} (h0 : Open s) : Open (State.latchFault s c) := by
  unfold State.latchFault
  with_reducible repeat' (first | assumption | apply State.raiseArrival_open | apply State.fail_open | apply State.setMyTeam_open | apply foldl_open | intro _)
theorem State.gangRelease_open {s : State} {k : StepKind} {b : Nat} {reuse : Bool} {all : List GangArrival} {beats : Nat} (h0 : Open s) : Open (State.gangRelease s k b reuse all beats) := by
  unfold State.gangRelease
  with_reducible repeat' (first | assumption | apply State.latchFault_open | apply State.enqueue_open | apply State.setMyTeam_open | apply State.grant_open | apply State.retire_open | apply foldl_open | intro _ | dsimp only [id_eq, Open, OpenPart] | split)
theorem State.stepGang_open {s : State} {k : StepKind} {b : Nat} {reuse : Bool} {va : Nat} {rank : Nat} {size : Nat} (h0 : Open s) : Open (State.stepGang s k b reuse va rank size) := by
  unfold State.stepGang
  with_reducible repeat' (first | assumption | apply State.block_open | apply State.latchFault_open | apply State.setMyTeam_open | apply State.withMe_open | apply State.gangRelease_open | dsimp only [id_eq, Open, OpenPart] | split)
theorem State.stepAlone_open {s : State} {k : StepKind} {b : Nat} {reuse : Bool} {va : Nat} (h0 : Open s) : Open (State.stepAlone s k b reuse va) := by
  unfold State.stepAlone
  with_reducible repeat' (first | assumption | apply State.fail_open | apply State.block_open | apply State.enqueue_open | apply State.withMe_open | apply State.retire_open | dsimp only [id_eq, Open, OpenPart] | split)
theorem State.kstep_open {s : State} {k : StepKind} {a : BitVec 6} {b : BitVec 6} {e : Bool} (h0 : Open s) : OutOpen (State.kstep s k a b e) := by
  unfold State.kstep
  with_reducible repeat' (first | assumption | apply State.retire_open | apply State.checked_open | apply State.stepGang_open | apply State.stepAlone_open | apply OutOpen.mk | intro _ | dsimp only [id_eq, Open, OpenPart] | split)
theorem State.takeResult_open {s : State} {d : Nat} {n : Nat} {data : List Word} (h0 : Open s) : Open (State.takeResult s d n data) := by
  unfold State.takeResult
  with_reducible repeat' (first | assumption | apply State.noRows_open | apply State.retire_open | apply State.writeResults_open | apply State.allocRows_open | dsimp only [id_eq, Open, OpenPart] | split)
theorem State.queueAndWait_open {s : State} {k : MatKind} (h0 : Open s) : Open (State.queueAndWait s k) := by
  unfold State.queueAndWait
  with_reducible repeat' (first | assumption | apply State.block_open | apply State.enqueue_open | dsimp only [id_eq, Open, OpenPart] | split)
theorem State.useEntry_open {s : State} {k : Nat} {f : State → State} (h0 : Open s) (h1 : ∀ (t0 : State), Open t0 → Open (f t0)) : Open (State.useEntry s k f) := by
  unfold State.useEntry
  with_reducible repeat' (first | assumption | apply h1 | apply State.raise_open | dsimp only [id_eq, Open, OpenPart] | split)
theorem State.onFuture_open {s : State} {a : BitVec 6} {invalid : State → State} {f : Nat → Nat → State → State} (h0 : Open s) (h1 : ∀ (t0 : State), Open t0 → Open (invalid t0)) (h2 : ∀ (t0 : Nat) (t1 : Nat) (t2 : State), Open t2 → Open (f t0 t1 t2)) : Open (State.onFuture s a invalid f) := by
  unfold State.onFuture
  with_reducible repeat' (first | assumption | apply h1 | apply h2 | apply State.useEntry_open | intro _ | dsimp only [id_eq, Open, OpenPart] | split)
theorem State.tasksAwaited_open {s : State} {ids : List Nat} {other : Bool} {w : BitVec 2} (h0 : Open s) : Open (State.tasksAwaited s ids other w) := by
  unfold State.tasksAwaited
  with_reducible repeat' (first | assumption | apply State.retire_open | apply State.putCMBit_open | apply State.acquire_open)
theorem State.awaitTasks_open {s : State} {ids : List Nat} {w : BitVec 2} (h0 : Open s) : Open (State.awaitTasks s ids w) := by
  unfold State.awaitTasks
  with_reducible repeat' (first | assumption | apply State.tasksAwaited_open | apply State.block_open | dsimp only [id_eq, Open, OpenPart] | split)
theorem State.cancelBranch_open {s : State} {part : Nat} {b : Nat} (h0 : Open s) : Open (State.cancelBranch s part b) := by
  unfold State.cancelBranch
  with_reducible repeat' (first | assumption | apply State.setPart_open | apply State.markDying_open | apply State.finishCancels_open | apply State.flushDying_open | intro _ | dsimp only [id_eq, Open, OpenPart] | split)
theorem State.withPool_open {s : State} {n : Nat} {u : Bool} {f : State → State} (h0 : Open s) (h1 : ∀ (t0 : State), Open t0 → Open (f t0)) : Open (State.withPool s n u f) := by
  unfold State.withPool
  with_reducible repeat' (first | assumption | apply h1 | apply State.fail_open | dsimp only [id_eq, Open, OpenPart] | split)
theorem State.walkLinks_open {s : State} {a1 : Nat} {a2 : Nat} {a3 : List Nat} (h0 : Open s) : Open (State.walkLinks s a1 a2 a3).2 := by
  induction a1 generalizing s a2 a3 with
  | zero =>
    unfold State.walkLinks
    with_reducible repeat' (first | apply ih | cases ‹_ = Nat.succ _› | assumption | apply State.before_open | apply State.loadAccess_open | apply State.noteTlb_open | dsimp only [id_eq, Open, OpenPart] | split)
  | succ k ih =>
    unfold State.walkLinks
    with_reducible repeat' (first | apply ih | cases ‹_ = Nat.succ _› | assumption | apply State.before_open | apply State.loadAccess_open | apply State.noteTlb_open | dsimp only [id_eq, Open, OpenPart] | split)
theorem State.walkLinks_open_of {s : State} {a1 : Nat} {a2 : Nat} {a3 : List Nat} {y0 : Walk} {y1 : State} (eq0 : (State.walkLinks s a1 a2 a3) = (y0, y1)) (h0 : Open s) : Open y1 := by
  have h : Open (State.walkLinks s a1 a2 a3).2 := State.walkLinks_open h0
  rw [eq0] at h; exact h
theorem State.freeList_open {s : State} {n : Nat} {bs : List Nat} {d : BitVec 6} (h0 : Open s) : Open (State.freeList s n bs d) := by
  unfold State.freeList
  with_reducible repeat' (first | assumption | apply State.putS_open | apply State.giveBack_open | dsimp only [id_eq, Open, OpenPart] | split)
theorem State.launchFault_open {s : State} {part : Nat} {va : Nat} {r : Option Refuse} (h0 : Open s) : Open (State.launchFault s part va r) := by
  unfold State.launchFault
  with_reducible repeat' (first | assumption | apply State.pushCause_open | dsimp only [id_eq, Open, OpenPart] | split)
theorem State.launchConsumer_open {s : State} {part : Nat} {n : Nat} {k : Nat} (h0 : Open s) : Open (State.launchConsumer s part n k) := by
  unfold State.launchConsumer
  with_reducible repeat' (first | assumption | apply State.setMould_open | apply State.launchFault_open | apply State.accept_open | dsimp only [id_eq, Open, OpenPart] | split)
theorem State.cast_open {s : State} {part : Nat} {n : Nat} {k : Nat} (h0 : Open s) : Open (State.cast s part n k).2 := by
  unfold State.cast
  with_reducible repeat' (first | assumption | apply State.closeUp_open | apply State.release_open | apply State.imageWrite_open | apply State.setFull_open | apply State.setMould_open | apply State.launchConsumer_open | dsimp only [id_eq, Open, OpenPart] | split)
theorem State.cast_open_of {s : State} {part : Nat} {n : Nat} {k : Nat} {y0 : Bool} {y1 : State} (eq0 : (State.cast s part n k) = (y0, y1)) (h0 : Open s) : Open y1 := by
  have h : Open (State.cast s part n k).2 := State.cast_open h0
  rw [eq0] at h; exact h
theorem State.placeRow_open {s : State} {n : Nat} {k : Nat} {bs : List Byte} {tag : Word} (h0 : Open s) : Open (State.placeRow s n k bs tag) := by
  unfold State.placeRow
  with_reducible repeat' (first | assumption | apply State.imageWrite_open | apply State.setMould_open | apply State.cast_open | dsimp only [id_eq, Open, OpenPart] | split)
theorem State.fillLanes_open {s : State} {n : Nat} {a : BitVec 6} {b : BitVec 6} {a4 : List Nat} (h0 : Open s) : Open (State.fillLanes s n a b a4).2 := by
  induction a4 generalizing s n a b with
  | nil =>
    unfold State.fillLanes
    with_reducible repeat' (first | apply ih | assumption | apply State.drainRange_open | apply State.withMe_open | apply State.placeRow_open | dsimp only [id_eq, Open, OpenPart] | split)
  | cons x xs ih =>
    unfold State.fillLanes
    with_reducible repeat' (first | apply ih | assumption | apply State.drainRange_open | apply State.withMe_open | apply State.placeRow_open | dsimp only [id_eq, Open, OpenPart] | split)
theorem State.fillLanes_open_of {s : State} {n : Nat} {a : BitVec 6} {b : BitVec 6} {a4 : List Nat} {y0 : Bool} {y1 : State} (eq0 : (State.fillLanes s n a b a4) = (y0, y1)) (h0 : Open s) : Open y1 := by
  have h : Open (State.fillLanes s n a b a4).2 := State.fillLanes_open h0
  rw [eq0] at h; exact h
theorem Partition.arm_open {p : Partition} {n : Nat} {slot : Nat} (h0 : OpenPart p) : OpenPart (Partition.arm p n slot) := by
  unfold Partition.arm
  with_reducible repeat' (first | assumption)
theorem State.pushed_open {s : State} {d : BitVec 6} {st : Nat} (h0 : Open s) : Open (State.pushed s d st) := by
  unfold State.pushed
  with_reducible repeat' (first | assumption | apply State.retire_open | apply State.putS_open)
theorem State.mailed_open {s : State} {failed : Bool} (h0 : Open s) : Open (State.mailed s failed) := by
  unfold State.mailed
  with_reducible repeat' (first | assumption | apply State.retire_open | apply State.putCMBit_open)
theorem State.awaitPhase_open {s : State} {cluster : Bool} {n : Nat} (h0 : Open s) : Open (State.awaitPhase s cluster n) := by
  unfold State.awaitPhase
  with_reducible repeat' (first | assumption | apply State.retire_open | apply State.withMe_open | apply State.acquire_open | apply State.block_open | dsimp only [id_eq, Open, OpenPart] | split)
theorem State.smpStop_open {s : State} {tile : Nat} (h0 : Open s) : Open (State.smpStop s tile) := by
  unfold State.smpStop
  with_reducible repeat' (first | assumption | apply State.setCoreReg_open | apply State.setSampler_open)
theorem State.markSampler_open {s : State} {id : Nat} (h0 : Open s) : Open (State.markSampler s id) := by
  unfold State.markSampler
  with_reducible repeat' (first | assumption | apply State.setSampler_open | apply State.smpStop_open | dsimp only [id_eq, Open, OpenPart] | split)
theorem State.launchEntry_open {s : State} {part : Nat} {q : Nat} {e : List Byte} (h0 : Open s) : Open (State.launchEntry s part q e).1 := by
  unfold State.launchEntry
  with_reducible repeat' (first | assumption | apply State.accept_open | dsimp only [id_eq, Open, OpenPart] | split)
theorem State.launchEntry_open_of {s : State} {part : Nat} {q : Nat} {e : List Byte} {y0 : State} {y1 : Nat} (eq0 : (State.launchEntry s part q e) = (y0, y1)) (h0 : Open s) : Open y0 := by
  have h : Open (State.launchEntry s part q e).1 := State.launchEntry_open h0
  rw [eq0] at h; exact h
theorem State.launchRead_open {s : State} {part : Nat} {q : Nat} (h0 : Open s) : Open (State.launchRead s part q) := by
  unfold State.launchRead
  with_reducible repeat' (first | assumption | apply State.setPart_open | apply Partition.setReg_open | apply State.msi_open | apply State.atelierFault_open | apply State.launchEntry_open | refine State.atelierWrite_open_of (by assumption) ?_ | intro _ | dsimp only [id_eq, Open, OpenPart] | split)
theorem State.addGroups_open {s : State} {make : Nat → Nat → Nat → Nat → Group} {a2 : Nat} {a3 : List Nat} (h0 : Open s) : Open (State.addGroups s make a2 a3) := by
  induction a3 generalizing s make a2 with
  | nil =>
    unfold State.addGroups
    with_reducible repeat' (first | apply ih | assumption)
  | cons x xs ih =>
    unfold State.addGroups
    with_reducible repeat' (first | apply ih | assumption)
theorem State.addTeam_open {s : State} {k : Task} {cluster : Nat} {member : Nat} {tile : Nat} {tiles : List Nat} (h0 : Open s) : Open (State.addTeam s k cluster member tile tiles) := by
  unfold State.addTeam
  with_reducible repeat' (first | assumption | apply State.settleShare_open | apply State.addGroups_open | apply foldl_open)
theorem State.startCluster_open {s : State} {k : Task} {tiles : List Nat} (h0 : Open s) : Open (State.startCluster s k tiles) := by
  unfold State.startCluster
  with_reducible repeat' (first | assumption | apply State.setPart_open | apply Partition.setTask_open | apply State.addTeam_open | apply State.reboard_open | apply foldl_open | intro _)
theorem State.dispatch_open {s : State} (h0 : Open s) : Open (State.dispatch s) := by
  unfold State.dispatch
  with_reducible repeat' (first | assumption | apply State.setPart_open | apply State.startCluster_open | apply open_map | intro _ | dsimp only [id_eq, Open, OpenPart] | split)
theorem State.saveTeam_open {s : State} {t : Team} (h0 : Open s) : Open (State.saveTeam s t) := by
  unfold State.saveTeam
  with_reducible repeat' (first | assumption | apply State.drainAll_open | apply State.withdrawIf_open | apply State.setPart_open | apply Partition.setTask_open | apply State.leave_open | apply foldl_open | intro _ | dsimp only [id_eq, Open, OpenPart] | split)
theorem State.tileReturn_open {s : State} {part : Nat} {n : Nat} {k : Nat} {id : Nat} (h0 : Open s) : Open (State.tileReturn s part n k id) := by
  unfold State.tileReturn
  with_reducible repeat' (first | assumption | apply State.countStale_open | apply State.setMould_open | apply State.setFull_open | dsimp only [id_eq, Open, OpenPart] | split)
theorem State.completeTask_open {s : State} {part : Nat} {id : Nat} (h0 : Open s) : Open (State.completeTask s part id) := by
  unfold State.completeTask
  with_reducible repeat' (first | assumption | apply State.setPart_open | apply Partition.setTask_open | apply State.leaveUnit_open | apply State.tileReturn_open | apply State.endUnveiling_open | apply foldl_open | intro _ | dsimp only [id_eq, Open, OpenPart] | split)
theorem State.captureSlotNow_open {s : State} {part : Nat} (h0 : Open s) : Open (State.captureSlotNow s part) := by
  unfold State.captureSlotNow
  with_reducible repeat' (first | assumption | apply State.unattributed_open | apply State.setUnveiling_open | apply foldl_open | intro _ | dsimp only [id_eq, Open, OpenPart] | split)
theorem State.launchUnveil_open {s : State} {part : Nat} {args : Nat} (h0 : Open s) : Open (State.launchUnveil s part args) := by
  unfold State.launchUnveil
  with_reducible repeat' (first | assumption | apply State.endUnveiling_open | apply State.launchFault_open | apply State.accept_open | apply State.setPart_open | intro _ | dsimp only [id_eq, Open, OpenPart] | split)
theorem State.capture_open {s : State} {part : Nat} (h0 : Open s) : Open (State.capture s part) := by
  unfold State.capture
  with_reducible repeat' (first | assumption | apply State.captureSlotNow_open | apply State.writeResult_open | apply State.launchUnveil_open | dsimp only [id_eq, Open, OpenPart] | split)
theorem State.gateDone_open {s : State} {who : Nat} {v : Word} {done : Option State} (h0 : Open s) (h1 : OptOpen done) : Open (State.gateDone s who v done) := by
  unfold State.gateDone
  with_reducible repeat' (first | assumption | apply State.setPart_open | apply Partition.setReg_open | apply getD_open | intro _ | dsimp only [id_eq, Open, OpenPart] | split)
theorem State.rotate_open {s : State} (h0 : Open s) : Open (State.rotate s) := by
  unfold State.rotate
  with_reducible repeat' (first | assumption | apply State.preemptTeam_open | apply foldl_open | intro _ | dsimp only [id_eq, Open, OpenPart] | split)
theorem State.commitScanned_open {s : State} (h0 : Open s) : Open (State.commitScanned s) := by
  unfold State.commitScanned
  with_reducible repeat' (first | assumption | apply State.commitVersion_open | apply foldl_open | intro _)
theorem State.patrolCount_open {s : State} {ch : Nat} {k : Nat} (h0 : Open s) : Open (State.patrolCount s ch k) := by
  unfold State.patrolCount
  with_reducible repeat' (first | assumption | apply State.setPatrolReg_open)
theorem State.patrolBad_open {s : State} {ch : Nat} {e : SoftError} (h0 : Open s) : Open (State.patrolBad s ch e) := by
  unfold State.patrolBad
  with_reducible repeat' (first | assumption | apply State.patrolCount_open | apply State.unattributed_open | apply State.msi_open | dsimp only [id_eq, Open, OpenPart] | split)
theorem State.pushReport_open {s : State} {part : Nat} {r : Report} (h0 : Open s) : Open (State.pushReport s part r) := by
  unfold State.pushReport
  with_reducible repeat' (first | assumption | apply State.setPart_open | apply State.msi_open | intro _ | dsimp only [id_eq, Open, OpenPart] | split)
theorem State.audit_open {s : State} (h0 : Open s) : Open (State.audit s) := by
  unfold State.audit
  with_reducible repeat' (first | assumption | apply State.flagChannel_open | apply State.pushReport_open | apply State.msi_open | dsimp only [id_eq, Open, OpenPart] | split)
theorem State.probeAt_open {s : State} {x : Probe} (h0 : Open s) : Open (State.probeAt s x) := by
  unfold State.probeAt
  with_reducible repeat' (first | assumption | apply State.pushReport_open | apply State.spread_open | dsimp only [id_eq, Open, OpenPart] | split)
theorem State.writeReport_open {s : State} {part : Nat} (h0 : Open s) : Open (State.writeReport s part) := by
  unfold State.writeReport
  with_reducible repeat' (first | assumption | apply State.setPart_open | refine State.atelierWrite_open_of (by assumption) ?_ | apply State.msi_open | apply Partition.setReg_open | apply State.atelierFault_open | intro _ | dsimp only [id_eq, Open, OpenPart] | split)
theorem State.ringSample_open {s : State} {tile : Nat} {bs : Nat → List Byte} (h0 : Open s) : Open (State.ringSample s tile bs) := by
  unfold State.ringSample
  with_reducible repeat' (first | assumption | apply State.smpStore_open | refine State.atelierWrite_open_of (by assumption) ?_ | dsimp only [id_eq, Open, OpenPart] | split)
theorem State.takeSample_open {s : State} {tile : Nat} (h0 : Open s) : Open (State.takeSample s tile) := by
  unfold State.takeSample
  with_reducible repeat' (first | assumption | apply State.setSampler_open | apply State.ringSample_open | apply State.setPart_open | apply Partition.offerRecord_open | intro _ | dsimp only [id_eq, Open, OpenPart] | split)
theorem State.trigger_open {s : State} {part : Nat} {n : Nat} {r : TraceRec} (h0 : Open s) : Open (State.trigger s part n r) := by
  unfold State.trigger
  with_reducible repeat' (first | assumption | apply State.msi_open | apply State.setGroup_open | apply State.startTrial_open | apply State.stopTrial_open | dsimp only [id_eq, Open, OpenPart] | split)
theorem State.runFilter_open {part : Nat} {r : TraceRec} {a2 : Nat} {a3 : Nat} {a4 : State} (h0 : Open a4) : Open (State.runFilter part r a2 a3 a4).2 := by
  induction a2 generalizing part r a3 a4 with
  | zero =>
    unfold State.runFilter
    with_reducible repeat' (first | apply ih | assumption | apply State.setPart_open | apply Partition.setReg_open | apply State.trigger_open | intro _ | dsimp only [id_eq, Open, OpenPart] | split)
  | succ k ih =>
    unfold State.runFilter
    with_reducible repeat' (first | apply ih | assumption | apply State.setPart_open | apply Partition.setReg_open | apply State.trigger_open | intro _ | dsimp only [id_eq, Open, OpenPart] | split)
theorem State.runFilter_open_of {part : Nat} {r : TraceRec} {a2 : Nat} {a3 : Nat} {a4 : State} {y0 : Bool} {y1 : State} (eq0 : (State.runFilter part r a2 a3 a4) = (y0, y1)) (h0 : Open a4) : Open y1 := by
  have h : Open (State.runFilter part r a2 a3 a4).2 := State.runFilter_open h0
  rw [eq0] at h; exact h
theorem State.traceFilter_open {s : State} {part : Nat} (h0 : Open s) : Open (State.traceFilter s part) := by
  unfold State.traceFilter
  with_reducible repeat' (first | assumption | apply State.runFilter_open | apply State.setPart_open | apply Partition.traceDrop_open | apply State.traceWrite_open | intro _ | dsimp only [id_eq, Open, OpenPart] | split)
theorem State.haltWritten_open {s : State} {part : Nat} (h0 : Open s) : OptOpen (State.haltWritten s part) := by
  unfold State.haltWritten
  with_reducible repeat' (first | assumption | apply State.setPart_open | apply Partition.traceDrop_open | refine State.atelierWrite_open_of (by assumption) ?_ | apply Partition.setReg_open | apply OptOpen.mk | exact OptOpen.none | intro _ | dsimp only [id_eq, Open, OpenPart] | apply OptOpen.ite | split)
theorem State.haltWritten_open_of {s : State} {part : Nat} {y : State} (e : (State.haltWritten s part) = some y) (h0 : Open s) : Open y :=
  State.haltWritten_open h0 y e
theorem State.takeHold_open {s : State} {seq : Nat} {n : Nat} (h0 : Open s) : Open (State.takeHold s seq n) := by
  unfold State.takeHold
  with_reducible repeat' (first | assumption | apply State.withdrawIf_open | apply State.setGroup_open | apply State.haltRecord_open | dsimp only [id_eq, Open, OpenPart] | split)
theorem State.abandon_open {s : State} {id : Nat} {kind : Nat} (h0 : Open s) : Open (State.abandon s id kind) := by
  unfold State.abandon
  with_reducible repeat' (first | assumption | apply State.setTeam_open)
theorem State.writeElements_open {s : State} {id : Nat} {vs : List ((Nat × Nat) × BitVec 40)} {fl : Nat} (h0 : Open s) : Open (State.writeElements s id vs fl) := by
  unfold State.writeElements
  with_reducible repeat' (first | assumption | apply State.setTeam_open | apply State.unstrike_open | apply foldl_open | intro _ | dsimp only [id_eq, Open, OpenPart] | split)
theorem State.performStep_open {s : State} {id : Nat} {zero : Bool} {sparse : Bool} {f : FormatBlock} {rows : List (Nat × List Word)} {seen : List Host.Cell} (h0 : Open s) : Open (State.performStep s id zero sparse f rows seen) := by
  unfold State.performStep
  with_reducible repeat' (first | assumption | apply State.abandon_open | apply State.writeElements_open | apply State.setTeam_open | dsimp only [id_eq, Open, OpenPart] | split)
theorem State.drainClear_open {s : State} {id : Nat} {d : DrainDesc} (h0 : Open s) : Open (State.drainClear s id d) := by
  unfold State.drainClear
  with_reducible repeat' (first | assumption | apply State.writeElements_open | dsimp only [id_eq, Open, OpenPart] | split)
theorem State.performMatrix_open {s : State} {id : Nat} (h0 : Open s) : Open (State.performMatrix s id) := by
  unfold State.performMatrix
  with_reducible repeat' (first | assumption | apply State.performStep_open | apply State.abandon_open | apply State.performWrite_open | apply State.popMatrix_open | apply State.drainClear_open | apply State.writeElements_open | apply State.grant_open | apply State.setTeam_open | apply foldl_open | intro _ | dsimp only [id_eq, Open, OpenPart] | split)
theorem State.ttPop_open {s : State} {st : Nat} (h0 : Open s) : Open (State.ttPop s st) := by
  unfold State.ttPop
  with_reducible repeat' (first | assumption | apply State.setStation_open)
theorem State.ttNote_open {s : State} {o : TTOp} {vslot : Nat} {st : Nat} (h0 : Open s) : Open (State.ttNote s o vslot st) := by
  unfold State.ttNote
  with_reducible repeat' (first | assumption | apply State.setGroup_open)
theorem State.ttPerform_open {s : State} {st : Nat} (h0 : Open s) : Open (State.ttPerform s st) := by
  unfold State.ttPerform
  with_reducible repeat' (first | assumption | apply State.ttPop_open | apply State.grant_open | apply State.setSlot_open | apply State.ttSound_open | apply State.ttNote_open | apply State.setPart_open | intro _ | dsimp only [id_eq, Open, OpenPart] | split)
theorem State.eject_open {s : State} {f : Flit} (h0 : Open s) : Open (State.eject s f) := by
  unfold State.eject
  with_reducible repeat' (first | assumption | dsimp only [id_eq, Open, OpenPart] | split)
theorem State.placeFlits_open {r : Nat} {a1 : List Flit} {a2 : List Nat} {a3 : Nat} {a4 : List Flit} {a5 : State} (h0 : Open a5) : Open (State.placeFlits r a1 a2 a3 a4 a5).2.2 := by
  induction a1 generalizing r a2 a3 a4 a5 with
  | nil =>
    unfold State.placeFlits
    with_reducible repeat' (first | apply ih | assumption | apply State.eject_open | dsimp only [id_eq, Open, OpenPart] | split)
  | cons x xs ih =>
    unfold State.placeFlits
    with_reducible repeat' (first | apply ih | assumption | apply State.eject_open | dsimp only [id_eq, Open, OpenPart] | split)
theorem State.placeFlits_open_of {r : Nat} {a1 : List Flit} {a2 : List Nat} {a3 : Nat} {a4 : List Flit} {a5 : State} {y0 : List Flit} {y1 : List Nat} {y2 : State} (eq0 : (State.placeFlits r a1 a2 a3 a4 a5) = (y0, y1, y2)) (h0 : Open a5) : Open y2 := by
  have h : Open (State.placeFlits r a1 a2 a3 a4 a5).2.2 := State.placeFlits_open h0
  rw [eq0] at h; exact h
theorem State.walk_open {s : State} {e : Nat} {p : Nat} {kind : Nat} {f : Chain → List Byte → State → State} (h0 : Open s) (h1 : ∀ (t0 : Chain) (t1 : List Byte) (t2 : State), Open t2 → Open (f t0 t1 t2)) : Open (State.walk s e p kind f) := by
  unfold State.walk
  with_reducible repeat' (first | assumption | apply h1 | apply State.setChain_open | dsimp only [id_eq, Open, OpenPart] | split)
theorem State.readBody_open {s : State} {c : Chain} {va : Nat} {a3 : Nat} (h0 : Open s) : ErrOpen (State.readBody s c va a3) := by
  induction a3 generalizing s c va with
  | zero =>
    unfold State.readBody
    with_reducible repeat' (first | apply ih | assumption | refine State.engineRead_open_of (by assumption) ?_ | apply ErrOpen.mk | apply ErrOpen.map | exact ErrOpen.ok | split)
  | succ k ih =>
    unfold State.readBody
    with_reducible repeat' (first | apply ih | assumption | refine State.engineRead_open_of (by assumption) ?_ | apply ErrOpen.mk | apply ErrOpen.map | exact ErrOpen.ok | split)
theorem State.readBody_open_of {s : State} {c : Chain} {va : Nat} {a3 : Nat} {y} (e : (State.readBody s c va a3) = .error y) (h0 : Open s) : Open y.2 :=
  State.readBody_open h0 y e
theorem VoxelBlock.entries_open {v : VoxelBlock} {j : Job} (h0 : Open j.s) : Open (VoxelBlock.entries v j).2.s := by
  unfold VoxelBlock.entries
  with_reducible repeat' (first | assumption | apply Job.read_open | apply foldl_open_job_snd | intro _)
theorem VoxelBlock.entries_open_of {v : VoxelBlock} {j : Job} {y0 : List (List Byte)} {y1 : Job} (eq0 : (VoxelBlock.entries v j) = (y0, y1)) (h0 : Open j.s) : Open y1.s := by
  have h : Open (VoxelBlock.entries v j).2.s := VoxelBlock.entries_open h0
  rw [eq0] at h; exact h
theorem VoxelBlock.probe_open {v : VoxelBlock} {key : Nat} {a2 : Nat} {a3 : Nat} {a4 : Job} (h0 : Open a4.s) : Open (VoxelBlock.probe v key a2 a3 a4).2.s := by
  induction a2 generalizing v key a3 a4 with
  | zero =>
    unfold VoxelBlock.probe
    with_reducible repeat' (first | apply ih | assumption | apply Job.read_open | dsimp only [id_eq, Open, OpenPart] | split)
  | succ k ih =>
    unfold VoxelBlock.probe
    with_reducible repeat' (first | apply ih | assumption | apply Job.read_open | dsimp only [id_eq, Open, OpenPart] | split)
theorem VoxelBlock.probe_open_of {v : VoxelBlock} {key : Nat} {a2 : Nat} {a3 : Nat} {a4 : Job} {y0 : Option (Nat × List Byte)} {y1 : Job} (eq0 : (VoxelBlock.probe v key a2 a3 a4) = (y0, y1)) (h0 : Open a4.s) : Open y1.s := by
  have h : Open (VoxelBlock.probe v key a2 a3 a4).2.s := VoxelBlock.probe_open h0
  rw [eq0] at h; exact h
theorem VoxelBlock.point_open {v : VoxelBlock} {r : VoxelRun} {i : Nat} (h0 : Open r.j.s) : Open (VoxelBlock.point v r i).j.s := by
  unfold VoxelBlock.point
  with_reducible repeat' (first | assumption | apply Job.read_open | apply VoxelBlock.probe_open | apply Job.write_open | dsimp only [id_eq, Open, OpenPart] | split)
theorem voxelJob_open {param : Nat} {j : Job} (h0 : Open j.s) : Open (voxelJob param j).s := by
  unfold voxelJob
  with_reducible repeat' (first | assumption | apply Job.read_open | apply Job.check_open | apply Job.write_open | apply VoxelBlock.entries_open | apply VoxelBlock.point_open | apply Job.finish_open | apply foldl_open_job | apply foldl_open_voxel | intro _ | dsimp only [id_eq, Open, OpenPart] | split)
theorem rulebookJob_open {param : Nat} {j : Job} (h0 : Open j.s) : Open (rulebookJob param j).s := by
  unfold rulebookJob
  with_reducible repeat' (first | assumption | apply Job.read_open | apply Job.check_open | apply Job.fail_open | apply Job.write32_open | apply Job.write_open | apply RuleBlock.pairsOut_open | apply Job.finish_open | apply foldl_open_job | intro _ | dsimp only [id_eq, Open, OpenPart] | split)
theorem coordJob_open {param : Nat} {j : Job} (h0 : Open j.s) : Open (coordJob param j).s := by
  unfold coordJob
  with_reducible repeat' (first | assumption | apply Job.read_open | apply Job.check_open | apply Job.fail_open | apply Job.finish_open | apply Job.write_open | apply foldl_open_job | intro _ | dsimp only [id_eq, Open, OpenPart] | split)
theorem ConvBlock.expandChunk_open {c : ConvBlock} {tab : Nat} {j : Job} {q : Nat} (h0 : Open j.s) : Open (ConvBlock.expandChunk c tab j q).s := by
  unfold ConvBlock.expandChunk
  with_reducible repeat' (first | assumption | apply Job.read_open | apply Job.write_open)
theorem expandJob_open {param : Nat} {j : Job} (h0 : Open j.s) : Open (expandJob param j).s := by
  unfold expandJob
  with_reducible repeat' (first | assumption | apply Job.read_open | apply Job.check_open | apply Job.finish_open | apply ConvBlock.expandChunk_open | apply foldl_open_job | dsimp only [id_eq, Open, OpenPart] | split)
theorem Tree.walk_open {t : Tree} {q : Sweep} {a2 : Nat} {a3 : Nat} {a4 : Nat} {a5 : List Int} {a6 : Job × Option Met} (h0 : Open a6.1.s) : Open (Tree.walk t q a2 a3 a4 a5 a6).1.s := by
  induction a2 generalizing t q a3 a4 a5 a6 with
  | zero =>
    unfold Tree.walk
    with_reducible repeat' (first | apply ih | assumption | apply Job.read_open | apply Job.check_open | apply foldl_open_job_fst | intro _ | dsimp only [id_eq, Open, OpenPart] | split)
  | succ k ih =>
    unfold Tree.walk
    with_reducible repeat' (first | apply ih | assumption | apply Job.read_open | apply Job.check_open | apply foldl_open_job_fst | intro _ | dsimp only [id_eq, Open, OpenPart] | split)
theorem Tree.walk_open_of {t : Tree} {q : Sweep} {a2 : Nat} {a3 : Nat} {a4 : Nat} {a5 : List Int} {a6 : Job × Option Met} {y0 : Job} {y1 : Option Met} (eq0 : (Tree.walk t q a2 a3 a4 a5 a6) = (y0, y1)) (h0 : Open a6.1.s) : Open y0.s := by
  have h : Open (Tree.walk t q a2 a3 a4 a5 a6).1.s := Tree.walk_open h0
  rw [eq0] at h; exact h
theorem Tree.meet_open {t : Tree} {q : Sweep} {j : Job} (h0 : Open j.s) : Open (Tree.meet t q j).1.s := by
  unfold Tree.meet
  with_reducible repeat' (first | assumption | apply Tree.walk_open)
theorem Tree.meet_open_of {t : Tree} {q : Sweep} {j : Job} {y0 : Job} {y1 : Option Met} (eq0 : (Tree.meet t q j) = (y0, y1)) (h0 : Open j.s) : Open y0.s := by
  have h : Open (Tree.meet t q j).1.s := Tree.meet_open h0
  rw [eq0] at h; exact h
theorem Tree.search_open {t : Tree} {a1 : Nat} {a2 : List Sweep} {a3 : Job} (h0 : Open a3.s) : Open (Tree.search t a1 a2 a3).1.s := by
  induction a2 generalizing t a1 a3 with
  | nil =>
    unfold Tree.search
    with_reducible repeat' (first | apply ih | assumption | apply Tree.meet_open | dsimp only [id_eq, Open, OpenPart] | split)
  | cons x xs ih =>
    unfold Tree.search
    with_reducible repeat' (first | apply ih | assumption | apply Tree.meet_open | dsimp only [id_eq, Open, OpenPart] | split)
theorem Tree.search_open_of {t : Tree} {a1 : Nat} {a2 : List Sweep} {a3 : Job} {y0 : Job} {y1 : Option (Nat × Met)} (eq0 : (Tree.search t a1 a2 a3) = (y0, y1)) (h0 : Open a3.s) : Open y0.s := by
  have h : Open (Tree.search t a1 a2 a3).1.s := Tree.search_open h0
  rw [eq0] at h; exact h
theorem collisionJob_open {swept : Bool} {ask : List Byte → Job → Query × Job} {param : Nat} {j : Job} (h0 : ∀ (t0 : List Byte) (t1 : Job), Open t1.s → Open (ask t0 t1).2.s) (h1 : Open j.s) : Open (collisionJob swept ask param j).s := by
  unfold collisionJob
  with_reducible repeat' (first | assumption | apply h0 | apply Job.read_open | apply Job.check_open | apply Job.write_open | apply Tree.search_open | apply Job.finish_open | apply foldl_open_job_fst | intro _ | dsimp only [id_eq, Open, OpenPart] | split)
theorem polyline_open {segment : Bool} {q : List Byte} {j : Job} (h0 : Open j.s) : Open (polyline segment q j).2.s := by
  unfold polyline
  with_reducible repeat' (first | assumption | apply Job.read_open | dsimp only [id_eq, Open, OpenPart] | split)
theorem polyline_open_of {segment : Bool} {q : List Byte} {j : Job} {y0 : Query} {y1 : Job} (eq0 : (polyline segment q j) = (y0, y1)) (h0 : Open j.s) : Open y1.s := by
  have h : Open (polyline segment q j).2.s := polyline_open h0
  rw [eq0] at h; exact h
theorem State.booting_open {s : State} {b : Word} (h0 : Open s) : Open (State.booting s b) := by
  unfold State.booting
  with_reducible repeat' (first | apply State.reset_open)
theorem State.illinst_open {s : State} (h0 : Open s) : Open (State.illinst s) := by
  unfold State.illinst
  with_reducible repeat' (first | assumption | apply State.raise_open)
theorem State.countCe_open {s : State} {tile : Nat} {kind : Nat} (h0 : Open s) : Open (State.countCe s tile kind) := by
  unfold State.countCe
  with_reducible repeat' (first | assumption | apply State.setCoreReg_open)
theorem State.period_open {s : State} (h0 : Open s) : Open (State.period s) := by
  unfold State.period
  with_reducible repeat' (first | assumption | apply open_map | intro _ | dsimp only [id_eq, Open, OpenPart] | split)
theorem State.send_open {s : State} {src : Nat} {dst : Nat} {size : Nat} (h0 : Open s) : Open (State.send s src dst size) := by
  unfold State.send
  with_reducible repeat' (first | assumption | dsimp only [id_eq, Open, OpenPart] | split)
theorem State.traffic_open {s : State} (h0 : Open s) : Open (State.traffic s) := by
  unfold State.traffic
  with_reducible repeat' (first | assumption | apply State.send_open | dsimp only [id_eq, Open, OpenPart] | split)
theorem State.holdDisabled_open {s : State} (h0 : Open s) : Open (State.holdDisabled s) := by
  unfold State.holdDisabled
  with_reducible repeat' (first | assumption | apply State.disableCore_open | apply foldl_open | dsimp only [id_eq, Open, OpenPart] | split)
theorem State.jobWrites_open {s : State} (h0 : Open s) : Open (State.jobWrites s) := by
  unfold State.jobWrites
  with_reducible repeat' (first | assumption | apply State.setChain_open | apply State.engineStore_open | apply foldl_open | intro _)
theorem State.patrolBack_open {s : State} (h0 : Open s) : Open (State.patrolBack s) := by
  unfold State.patrolBack
  with_reducible repeat' (first | assumption | apply State.patrolCount_open | apply foldl_open | intro _ | dsimp only [id_eq, Open, OpenPart] | split)
theorem State.noteHeads_open {s : State} (h0 : Open s) : Open (State.noteHeads s) := by
  unfold State.noteHeads
  with_reducible repeat' (first | assumption | apply State.setPart_open | apply foldl_open | intro _ | dsimp only [id_eq, Open, OpenPart] | split)
theorem State.reviewLists_open {s : State} (h0 : Open s) : Open (State.reviewLists s) := by
  unfold State.reviewLists
  with_reducible repeat' (first | assumption | apply State.review_open | apply foldl_open | intro _ | dsimp only [id_eq, Open, OpenPart] | split)
theorem State.tick_open {s : State} (h0 : Open s) : Open (State.tick s) := by
  unfold State.tick
  with_reducible repeat' (first | assumption | apply State.holdDisabled_open | apply State.patrolBack_open | apply State.noteHeads_open | apply State.closeMoulds_open | apply State.reviewLists_open | apply State.jobWrites_open | apply State.traffic_open | apply State.period_open | dsimp only [id_eq, Open, OpenPart] | split)

end Sys2Proof.Machine
end

