-- ==== Sys2Proof/Laws/StepForms.lean ====
section
/-! SUPPORT. The fetched bytes, the power-on resets and the sealed partitions: the lemmas the statements about a step rest on. -/

namespace Sys2Proof.Machine

theorem drop_before {before after : List Instr} {i : Instr} (hi : isPowerOn i = true) (h : ∀ i ∈ before, isPowerOn i = false) :
    (before ++ i :: after).dropWhile (fun i => !isPowerOn i) = i :: after := by
  induction before with
  | nil => simp [hi]
  | cons a l ih =>
    rw [List.cons_append, List.dropWhile_cons_of_pos (by simp [h a (by simp)])]
    exact ih fun i hi => h i (by simp [hi])
theorem drop_all {l : List Instr} (h : ∀ i ∈ l, isPowerOn i = false) : l.dropWhile (fun i => !isPowerOn i) = [] := by
  induction l with
  | nil => rfl
  | cons a l ih => rw [List.dropWhile_cons_of_pos (by simp [h a (by simp)])]; exact ih fun i hi => h i (by simp [hi])
theorem next_mem {s : State} (hd : s.due = none) : s.next ∈ s.moves := by
  unfold State.next
  rw [hd]
  dsimp only
  have hne : s.moves ≠ [] := by
    unfold State.moves
    intro h
    have := (List.append_eq_nil_iff.mp h).2
    split at this <;> simp_all
  split
  · next m h => rw [h]; simp
  · have hl : 0 < s.moves.length := List.length_pos_iff.mpr hne
    have : Config.choice s.free % s.moves.length < s.moves.length := Nat.mod_lt _ hl
    rw [List.getElem?_eq_getElem this]
    exact List.getElem_mem _
theorem word_of_bytes (w : Word) : wordOfBytes (BitVec.ofNat 8 w.toNat) (BitVec.ofNat 8 (w.toNat / 2 ^ 8)) (BitVec.ofNat 8 (w.toNat / 2 ^ 16)) (BitVec.ofNat 8 (w.toNat / 2 ^ 24)) = w.toNat := by
  have := w.isLt
  simp only [wordOfBytes, BitVec.toNat_ofNat]; omega
theorem dec_one {w : Word} {i : Instr} (h : takesLiteral w = false) (hd : decodeBytes (bytesOfWord w.toNat) = some (i, [])) : decodeNat w.toNat 0 = i := by
  have e : decodeBytes (bytesOfWord w.toNat) = if takesLiteral (BitVec.ofNat 32 (wordOfBytes (BitVec.ofNat 8 w.toNat) (BitVec.ofNat 8 (w.toNat / 2 ^ 8)) (BitVec.ofNat 8 (w.toNat / 2 ^ 16)) (BitVec.ofNat 8 (w.toNat / 2 ^ 24)))) then none
      else some (decodeNat (wordOfBytes (BitVec.ofNat 8 w.toNat) (BitVec.ofNat 8 (w.toNat / 2 ^ 8)) (BitVec.ofNat 8 (w.toNat / 2 ^ 16)) (BitVec.ofNat 8 (w.toNat / 2 ^ 24))) 0, []) := rfl
  rw [e, word_of_bytes, BitVec.ofNat_toNat, BitVec.setWidth_eq, h] at hd
  simpa using hd
theorem dec_two {w l : Word} {i : Instr} (h : takesLiteral w = true) (hd : decodeBytes (bytesOfWord w.toNat ++ bytesOfWord l.toNat) = some (i, [])) : decodeNat w.toNat l.toNat = i := by
  have e : decodeBytes (bytesOfWord w.toNat ++ bytesOfWord l.toNat) = if takesLiteral (BitVec.ofNat 32 (wordOfBytes (BitVec.ofNat 8 w.toNat) (BitVec.ofNat 8 (w.toNat / 2 ^ 8)) (BitVec.ofNat 8 (w.toNat / 2 ^ 16)) (BitVec.ofNat 8 (w.toNat / 2 ^ 24)))) then
        some (decodeNat (wordOfBytes (BitVec.ofNat 8 w.toNat) (BitVec.ofNat 8 (w.toNat / 2 ^ 8)) (BitVec.ofNat 8 (w.toNat / 2 ^ 16)) (BitVec.ofNat 8 (w.toNat / 2 ^ 24)))
          (wordOfBytes (BitVec.ofNat 8 l.toNat) (BitVec.ofNat 8 (l.toNat / 2 ^ 8)) (BitVec.ofNat 8 (l.toNat / 2 ^ 16)) (BitVec.ofNat 8 (l.toNat / 2 ^ 24))), [])
      else some (decodeNat (wordOfBytes (BitVec.ofNat 8 w.toNat) (BitVec.ofNat 8 (w.toNat / 2 ^ 8)) (BitVec.ofNat 8 (w.toNat / 2 ^ 16)) (BitVec.ofNat 8 (w.toNat / 2 ^ 24))) 0, bytesOfWord l.toNat) := rfl
  rw [e, word_of_bytes, word_of_bytes, BitVec.ofNat_toNat, BitVec.setWidth_eq, h] at hd
  simpa using hd
theorem fetch_one {v : State} {w : Word} {i : Instr} (h1 : v.badFetch v.pc.toNat = false) (h2 : v.fetchWord v.pc.toNat = .ok w) (h3 : takesLiteral w = false)
    (hd : decodeBytes (bytesOfWord w.toNat) = some (i, [])) : v.fetch = (i, w) := by
  unfold State.fetch
  rw [h1, if_neg (by simp), h2]
  dsimp only
  rw [h3, if_neg (by simp), dec_one h3 hd]
theorem issue_of {s v : State} {seq path : Nat} (hv : v = s.checkout seq path) (h : v.tableStruck = false) {i : Instr} {w : Word} (e : v.fetch = (i, w)) :
    s.issue seq path = s.issued seq (exec i ((v.withMe fun g => { g with ir := w }).noteTlb (some v.me.tile) v.me.part (v.fetchPages w))) := by
  unfold State.issue
  dsimp only
  rw [← hv, e]
  exact if_neg (by rw [show (v.withMe fun g => { g with ir := w }).tableStruck = v.tableStruck from rfl, h]; simp)
theorem pages_one {v : State} {w : Word} (h : takesLiteral w = false) : v.fetchPages w = [v.pc.toNat] := by unfold State.fetchPages; rw [h]; rfl
theorem step_stops {s : State} (h : s.halted = true) (hi : s.inputs.dropWhile (fun i => !isPowerOn i) = []) : step s = .fault .bootHalted := by
  unfold step
  exact (if_pos h).trans (by dsimp only; rw [hi])
theorem step_resets {s u : State} {i : Instr} {is : List Instr} (hu : u = { s with free := s.free + 1 }) (h : s.halted = true) (hi : s.inputs.dropWhile (fun i => !isPowerOn i) = i :: is) :
    step s = exec i { u with inputs := is } := by
  unfold step
  exact (if_pos h).trans (by dsimp only; rw [hi, hu])
theorem step_takes {s u : State} (hu : u = { s with free := s.free + 1 }) (h : s.halted = false) : step s = u.take u.next := by
  unfold step
  exact (if_neg (fun x => absurd (h.symm.trans x) (by simp))).trans (by rw [hu])
theorem unsealedOpen_open {s : State} : s.unsealedOpen ↔ Open s := by
  constructor
  · intro h n hn
    have := h n hn
    unfold State.part at this
    simpa [hn, OpenIn] using this
  · intro h p hp
    exact part_open h (n := p)

end Sys2Proof.Machine
end

