-- ==== Sys2Proof/Laws/TrapForms.lean ====
section
/-! SUPPORT. Traps, returns and exits: one lemma per form. -/

namespace Sys2Proof.Machine

/-- Clause 1 of what `Obligations.WhatTraps` says. -/
theorem whatTraps_1 : ∀ (s : State) legal once uses k, legal = false → s.trapsToUser →
      Trapped s (s.checked legal once uses k) (causeWord 0x03 0) (if once then s.exm else s.active) s.pc := by
  intro s legal once uses k hl hu
  unfold State.checked State.checkedFor
  simp only [hl, Bool.not_false, if_true]
  exact State.raise_trapped (c := { code := 0x03, mask := if once then s.exm else s.active }) rfl hu rfl
/-- Clause 2 of what `Obligations.WhatTraps` says. -/
theorem whatTraps_2 : ∀ (s : State) once uses k, modeCHK s.me.mode = true → (if once then uses else .exm :: uses).any s.hazard = true → s.trapsToUser →
      Trapped s (s.checked true once uses k) (causeWord 0x09 0) (if once then s.exm else s.active) s.pc := by
  intro s once uses k hm hh hu
  unfold State.checked State.checkedFor
  simp only [hm, hh, Bool.not_true, Bool.false_eq_true, if_false, Bool.and_self, if_true]
  exact State.raise_trapped (c := { code := 0x09, mask := if once then s.exm else s.active }) rfl hu rfl
/-- Clause 3 of what `Obligations.WhatTraps` says. -/
theorem whatTraps_3 : ∀ (s : State) once uses k, modeCHK s.me.mode = false → modeNAMETRAP s.me.mode = true → s.mapStruck (if once then uses else .exm :: uses) = false → s.unmapped (if once then uses else .exm :: uses) s.active = true → s.trapsToUser →
      Trapped s (s.checked true once uses k) (causeWord 0x0A 0) s.active s.pc := by
  intro s once uses k hm hn hs hh hu
  unfold State.checked State.checkedFor
  simp only [hm, hn, hs, hh, Bool.not_true, Bool.false_eq_true, if_false, Bool.and_self, if_true, Bool.false_and]
  exact State.raise_trapped (c := { code := 0x0A, mask := s.active }) rfl hu rfl
/-- Clause 4 of what `Obligations.WhatTraps` says. -/
theorem whatTraps_4 : ∀ s a w, modeLegal (s.rs a.toNat) = false → s.trapsToUser → ∃ t, exec (.mode a w) s = .next t ∧ Trapped s t (causeWord 0x03 0) s.exm s.pc :=
  fun s a w hl hu => ⟨_, rfl, whatTraps_1 s _ true [.s a.toNat] _ hl hu⟩
/-- Clause 5 of what `Obligations.WhatTraps` says. -/
theorem whatTraps_5 : ∀ s i, small i 1024 = false → s.trapsToUser → ∃ t, exec (.trap i) s = .next t ∧ Trapped s t (causeWord 0x03 0) s.exm s.pc :=
  fun s i hl hu => ⟨_, rfl, whatTraps_1 s _ true [.exm] _ hl hu⟩
/-- Clause 6 of what `Obligations.WhatTraps` says. -/
theorem whatTraps_6 : ∀ s a w, even a = true → s.clear true [.exm, .s a.toNat, .s (a.toNat + 1)] = true → bits (s.rpair a.toNat) 56 8 = 0 → bits (s.rpair a.toNat) 0 2 ≠ 0 → s.trapsToUser →
      ∃ t, exec (.calli a w) s = .next t ∧ Trapped s t (causeWord 0x04 0) s.exm s.pc := by
  intro s a w hl hc h1 h2 hu
  refine ⟨s.raiseOnce 0x04 (s.rpair a.toNat), next_of ((State.checked_own hl hc (by simp [Use.isVector])).trans ?_), ?_⟩
  · simp only [h1, h2, ne_eq, not_true, if_false, not_false_iff, if_true]
  · exact State.raise_trapped (c := { code := 0x04, mask := s.exm, vaddr := s.rpair a.toNat }) rfl hu rfl
/-- Clause 7 of what `Obligations.WhatTraps` says. -/
theorem whatTraps_7 : ∀ s a w, even a = true → s.clear true [.exm, .s a.toNat, .s (a.toNat + 1)] = true → bits (s.rpair a.toNat) 56 8 ≠ 0 → s.trapsToUser →
      ∃ t, exec (.calli a w) s = .next t ∧ Trapped s t (causeWord 0x05 0) s.exm s.pc := by
  intro s a w hl hc h1 hu
  refine ⟨s.raiseOnce 0x05 (s.rpair a.toNat), next_of ((State.checked_own hl hc (by simp [Use.isVector])).trans ?_), ?_⟩
  · simp only [h1, ne_eq, not_false_iff, if_true]
  · exact State.raise_trapped (c := { code := 0x05, mask := s.exm, vaddr := s.rpair a.toNat }) rfl hu rfl
/-- Clause 8 of what `Obligations.WhatTraps` says. -/
theorem whatTraps_8 : ∀ s i, s.clear true [.exm] = true → s.me.freeEntries = [] → s.trapsToUser → ∃ t, exec (.jpt i) s = .next t ∧ Trapped s t (causeWord 0x08 0) s.exm s.pc := by
  intro s i hc hf hu
  refine ⟨s.raiseOnce 0x08 0, next_of ((State.checked_own rfl hc (by simp [Use.isVector])).trans ?_), ?_⟩
  · simp only [hf]
  · exact State.raise_trapped (c := { code := 0x08, mask := s.exm, vaddr := 0 }) rfl hu rfl
/-- Clause 9 of what `Obligations.WhatTraps` says. -/
theorem whatTraps_9 : ∀ s a w u y, s.me.handler = none → s.trapsToUser → ∃ t, exec (.xrepl a w (u, y)) s = .next t ∧ Trapped s t (causeWord 0x02 0) s.exm s.pc := by
  intro s a w u y hh hu
  refine ⟨s.raise { code := 0x02, mask := s.exm }, next_of ?_, ?_⟩
  · simp only [hh, Option.isNone_none, if_true]
  · exact State.raise_trapped (c := { code := 0x02, mask := s.exm }) rfl hu rfl
/-- Clause 10 of what `Obligations.WhatTraps` says. -/
theorem whatTraps_10 : ∀ s d n, s.clear true [] = true → s.priv = false → 0x800 ≤ n.toNat → s.parksForSystem →
      ∃ t, exec (.sysrd d n) s = .next t ∧ Parked s t (causeWord 0x0C 1) s.exm 0 s.pc := by
  intro s d n hc hp hn hs
  refine ⟨s.needPriv, next_of ((State.checked_own rfl hc (by simp)).trans ?_), ?_⟩
  · simp only [hp, hn, Bool.not_false, decide_true, Bool.and_self, if_true]
  · exact State.raise_parked (c := { code := 0x0C, detail := 1, mask := s.exm }) (by show (0x0C : Nat) ≠ 0x0D; decide) rfl hs rfl rfl rfl
/-- Clause 11 of what `Obligations.WhatTraps` says. -/
theorem whatTraps_11 : ∀ s d n, s.clear true [.s d.toNat] = true → s.priv = false → 0x800 ≤ n.toNat → writableNumber n.toNat = true → s.parksForSystem →
      ∃ t, exec (.syswr d n) s = .next t ∧ Parked s t (causeWord 0x0C 1) s.exm 0 s.pc := by
  intro s d n hc hp hn hw hs
  have ha : (s.priv || decide (n.toNat < 0x800)) = false := by rw [hp, Bool.false_or, decide_eq_false_iff_not]; exact Nat.not_lt.mpr hn
  refine ⟨s.needPriv, ?_, ?_⟩
  · show Host.Outcome.next _ = _
    simp only [ha, Bool.false_eq_true, if_false, Bool.not_false, if_true]
    exact next_of (State.checked_own hw hc (by simp [Use.isVector]))
  · exact State.raise_parked (c := { code := 0x0C, detail := 1, mask := s.exm }) (by show (0x0C : Nat) ≠ 0x0D; decide) rfl hs rfl rfl rfl
/-- Clause 1 of what `Obligations.TrapAndReturn` says. -/
theorem trapAndReturn_1 : ∀ s i, small i 1024 = true → s.clear true [.exm] = true → s.trapsToUser →
      ∃ t, exec (.trap i) s = .next t ∧ Trapped s t (causeWord 0x01 i.toNat) s.exm (pc56 (s.pc + 4)) := fun s i hl hc hu =>
  ⟨_, next_of (State.checked_own hl hc (by simp [Use.isVector])),
    State.raise_completed (c := { code := 0x01, detail := i.toNat, mask := s.exm, completed := true }) ((SentOn.count s {}).trans (SentOn.charge _ {})) rfl hu rfl⟩
/-- Clause 2 of what `Obligations.TrapAndReturn` says. -/
theorem trapAndReturn_2 : ∀ s i, small i 1024 = true → s.clear true [.exm] = true → s.myTask.record.handler = 0 ∨ s.me.handler.isSome = true → s.parksForSystem →
      ∃ t, exec (.trap i) s = .next t ∧ Parked s t (causeWord 0x01 i.toNat) s.exm 0 (pc56 (s.pc + 4)) := fun s i hl hc hu hs =>
  ⟨_, next_of (State.checked_own hl hc (by simp [Use.isVector])),
    State.raise_parked_after (c := { code := 0x01, detail := i.toNat, mask := s.exm, completed := true }) ((SentOn.count s {}).trans (SentOn.charge _ {})) (by show (0x01 : Nat) ≠ 0x0D; decide) (by
      rcases hu with h | h
      · rw [h]; simp
      · cases hh : s.me.handler with
        | none => rw [hh] at h; cases h
        | some _ => simp) hs rfl rfl rfl⟩
/-- Clause 4 of what `Obligations.TrapAndReturn` says. -/
theorem trapAndReturn_4 : ∀ s w, s.me.handler = none → s.clear true [] = true → s.trapsToUser →
      ∃ t, exec (.trapret w) s = .next t ∧ Trapped s t (causeWord 0x02 0) s.exm s.pc := by
  intro s w hh hc hu
  refine ⟨s.raiseOnce 0x02 0, next_of ((State.checked_own rfl hc (by simp)).trans ?_), ?_⟩
  · simp only [hh]
  · exact State.raise_trapped (c := { code := 0x02, mask := s.exm, vaddr := 0 }) rfl hu rfl
theorem freed_path? (l : List Nat) (o : Nat → Bool) (g : Group) (m : Nat) (hl : ∀ k ∈ l, k < 72) :
    (l.foldl (fun g k => if o k then g else g.setEntry k none) g).path? m = if m ∈ l ∧ o m = false then none else g.path? m := by
  induction l generalizing g with
  | nil => simp
  | cons k l ih =>
    rw [List.foldl_cons, ih _ fun x hx => hl x (List.mem_cons_of_mem _ hx)]
    have hk := hl k (List.mem_cons_self ..)
    by_cases ho : o k
    · rw [if_pos ho]
      by_cases hm : m = k
      · subst hm; simp [ho]
      · simp [hm]
    · rw [if_neg ho, Group.path?_setEntry _ _ _ _ hk]
      by_cases hm : m = k
      · subst hm; simp [ho]
      · simp [hm]
theorem freed_still (l : List Nat) (o : Nat → Bool) (g : Group) : (l.foldl (fun g k => if o k then g else g.setEntry k none) g).still = g.still :=
  Group.still_foldl _ (fun g k => by split; · rfl
                                     · exact Group.still_setEntry ..) l g
/-- What TRAPRET makes of a group. -/
def retGroup (h : InHandler) (now : Nat) (g : Group) : Group :=
  let n := if (g.path? h.path).isSome then h.path else g.cur
  let old := g.path n
  let g := g.entries.foldl (fun g k => if h.others.contains k || k == n then g else g.setEntry k none) g
  let g := (g.dropEXM n).setEntry n (some { old with member := h.member, exm := h.exm, state := if old.state = .held then .held else .ready, heldState := .ready, kind := .none, wait := none, yields := [], notBefore := now + 3 })
  (({ g with mode := g.x.xmode, handler := none, cur := n }).goto n g.x.xpc).refill 72
theorem State.writeHead_me (s : State) (p k : Nat) : (s.writeHead p k).me = s.me := by unfold State.writeHead; split <;> rfl
theorem State.withdrawIf_me (s : State) (p : Nat → Nat → Bool) : (s.withdrawIf p).me = s.me := by
  have key : ∀ (l : List FebWaiter) (s : State), (l.foldl (fun s w => s.writeHead w.part w.buffer) s).me = s.me := by
    intro l
    induction l with
    | nil => intro s; rfl
    | cons w l ih => intro s; rw [List.foldl_cons, ih, State.writeHead_me]
  unfold State.withdrawIf
  dsimp only
  rw [key]
theorem State.writeHead_now (s : State) (p k : Nat) : (s.writeHead p k).now = s.now := by unfold State.writeHead; split <;> rfl
theorem State.withdrawIf_now (s : State) (p : Nat → Nat → Bool) : (s.withdrawIf p).now = s.now := by
  have key : ∀ (l : List FebWaiter) (s : State), (l.foldl (fun s w => s.writeHead w.part w.buffer) s).now = s.now := by
    intro l
    induction l with
    | nil => intro s; rfl
    | cons w l ih => intro s; rw [List.foldl_cons, ih, State.writeHead_now]
  unfold State.withdrawIf
  dsimp only
  rw [key]
/-- What TRAPRET withdraws first. -/
def retBefore (h : InHandler) (s : State) : State :=
  if ∀ n ∈ s.me.entries, n = s.me.cur ∨ n ∈ h.others ∨ (s.me.path n).wait = none then s else s.withdrawIf fun x n => x == s.me.seq && n != s.me.cur && !h.others.contains n
theorem retBefore_me (h : InHandler) (s : State) : (retBefore h s).me = s.me := by
  unfold retBefore; split
  · rfl
  · exact s.withdrawIf_me _
theorem retBefore_now (h : InHandler) (s : State) : (retBefore h s).now = s.now := by
  unfold retBefore; split
  · rfl
  · exact s.withdrawIf_now _
theorem trapret_eq {s : State} {w : BitVec 2} {h : InHandler} (hh : s.me.handler = some h) (hc : s.clear true [] = true) :
    exec (.trapret w) s = .next ((((retBefore h s).count { stall := stallOf w }).charge { stall := stallOf w }).withMe (retGroup h s.now)) := by
  refine next_of ((State.checked_own rfl hc (by simp)).trans ?_)
  simp only [hh]
  have e : (if (s.me.entries.all fun n => n == s.me.cur || !!h.others.contains n || (s.me.path n).wait.isNone) = true then s
      else s.withdrawIf fun x n => x == s.me.seq && n != s.me.cur && !h.others.contains n) = retBefore h s := by
    unfold retBefore
    have e2 : ((s.me.entries.all fun n => n == s.me.cur || !!h.others.contains n || (s.me.path n).wait.isNone) = true) =
        ∀ n ∈ s.me.entries, n = s.me.cur ∨ n ∈ h.others ∨ (s.me.path n).wait = none := by
      simp only [List.all_eq_true, Bool.or_eq_true, beq_iff_eq, Bool.not_not, List.contains_iff_mem, Option.isNone_iff_eq_none, or_assoc]
    simp only [e2]
  rw [e]
  have hn := retBefore_now h s
  generalize retBefore h s = u at hn ⊢
  rw [← hn]
  rfl
theorem retGroup_eq (g : Group) (h : InHandler) (now : Nat) (o : Path) (ho : g.path? h.path = some o) (hj : o.join ≠ some (pc56 g.x.xpc))
    (hsp : ∀ n, 8 ≤ n → g.path? n = none) :
    (retGroup h now g).path? h.path = some { o with member := h.member, exm := h.exm, state := if o.state = .held then .held else .ready, heldState := .ready, kind := .none, wait := none, yields := [], notBefore := now + 3, pc := pc56 g.x.xpc }
    ∧ (∀ m, m ≠ h.path → (retGroup h now g).path? m = if h.others.contains m then g.path? m else none)
    ∧ (retGroup h now g).still = { g.still with mode := g.x.xmode } ∧ (retGroup h now g).cur = h.path ∧ (retGroup h now g).handler = none := by
  have hn := Group.path?_lt ho
  let g1 := (g.entries.foldl (fun g k => if h.others.contains k || k == h.path then g else g.setEntry k none) g).dropEXM h.path
  let np : Path := { o with member := h.member, exm := h.exm, state := if o.state = .held then .held else .ready, heldState := .ready, kind := .none, wait := none, yields := [], notBefore := now + 3 }
  have hs1 : g1.still = g.still := (Group.still_dropEXM ..).trans (freed_still g.entries (fun k => h.others.contains k || k == h.path) g)
  have hx : g1.still.x = g.still.x := congrArg Group.x hs1
  have hx : g1.x = g.x := hx
  have hg1 : ∀ m, m ≠ h.path → g1.path? m = if h.others.contains m then g.path? m else none := by
    intro m hm
    refine (freed_path? g.entries (fun k => h.others.contains k || k == h.path) g m ?_).trans ?_
    · intro k hk
      unfold Group.entries at hk
      exact List.mem_range.mp (List.mem_filter.mp hk).1
    · have hb : (m == h.path) = false := beq_false_of_ne hm
      simp only [hb, Bool.or_false]
      cases ho : h.others.contains m with
      | true => simp
      | false =>
        simp only [and_true, Bool.false_eq_true, if_false]
        by_cases he : m ∈ g.entries
        · rw [if_pos he]
        · rw [if_neg he]
          unfold Group.entries at he
          simp only [List.mem_filter, List.mem_range, not_and, Bool.not_eq_true, Option.isSome_eq_false_iff, Option.isNone_iff_eq_none] at he
          by_cases h72 : m < 72
          · exact he h72
          · unfold Group.path?; rw [Vector.getElem?_eq_none (Nat.le_of_not_lt h72)]; rfl
  have hpo : g.path h.path = o := by unfold Group.path; rw [ho]; rfl
  have e0 : retGroup h now g = (({ (g1.setEntry h.path (some np)) with mode := (g1.setEntry h.path (some np)).x.xmode, handler := none, cur := h.path } : Group).goto h.path
      (g1.setEntry h.path (some np)).x.xpc).refill 72 := by
    unfold retGroup
    simp only [ho, Option.isSome_some, if_true, hpo]
    rfl
  clear_value g1
  have e1 : (g1.setEntry h.path (some np)).x = g.x := by rw [← hx]; simp
  rw [e1] at e0
  generalize hg2 : ({ (g1.setEntry h.path (some np)) with mode := g.x.xmode, handler := none, cur := h.path } : Group) = g2 at e0
  have hp2 : ∀ m, g2.path? m = if m = h.path then some np else g1.path? m := by
    intro m; rw [← hg2]; exact Group.path?_setEntry _ _ _ _ hn
  have hsp2 : ∀ n, 8 ≤ n → g2.path? n = none := by
    intro n h8
    have hne : n ≠ h.path := fun e => by rw [← e, hsp n h8] at ho; cases ho
    rw [hp2, if_neg hne, hg1 n hne, hsp n h8]; split <;> rfl
  have hgo : (g2.goto h.path g.x.xpc).refill 72 = g2.setEntry h.path (some { np with pc := pc56 g.x.xpc }) :=
    Group.goto_straight hsp2 (by rw [hp2, if_pos rfl]) hj
  rw [e0, hgo]
  refine ⟨?_, fun m hm => ?_, ?_, ?_, ?_⟩
  · rw [Group.path?_setEntry _ _ _ _ hn, if_pos rfl]
  · rw [Group.path?_setEntry _ _ _ _ hn, if_neg hm, hp2, if_neg hm]; exact hg1 m hm
  · rw [Group.still_setEntry, ← hg2, ← hs1, ← Group.still_setEntry g1 h.path (some np)]; rfl
  · rw [← hg2]; simp
  · rw [← hg2]; simp
/-- Clause 3 of what `Obligations.TrapAndReturn` says. -/
theorem trapAndReturn_3 : ∀ (s u : State) w h old, s.me.handler = some h → s.clear true [] = true → (∀ n, 8 ≤ n → s.me.path? n = none) → s.me.path? h.path = some old →
      old.join ≠ some (pc56 s.me.x.xpc) → u = (if ∀ n ∈ s.me.entries, n = s.me.cur ∨ n ∈ h.others ∨ (s.me.path n).wait = none then s
        else s.withdrawIf fun x n => x == s.me.seq && n != s.me.cur && !h.others.contains n) →
      ∃ t p, exec (.trapret w) s = .next t ∧ Kept (u.withMe fun g => { g with mode := g.x.xmode }) t ∧ t.me.mode = s.me.x.xmode ∧ t.me.handler = none
        ∧ t.me.cur = h.path ∧ t.me.path? h.path = some p ∧ p.pc = pc56 s.me.x.xpc ∧ p.member = h.member ∧ p.exm = h.exm ∧ p.state = (if old.state = .held then .held else .ready) ∧ p.wait = none
        ∧ p.join = old.join ∧ p.parent = old.parent
        ∧ ∀ n, n ≠ h.path → n ≠ s.me.cur ∨ h.others.contains n = false → t.me.path? n = if h.others.contains n then (s.me.path? n).map fun p => { p with yields := p.yields.filter (· != s.me.cur) } else none := by
  intro s v w h old hh hc hsp hold hj hv
  have hv : v = retBefore h s := hv
  rw [trapret_eq hh hc]
  have hvm := retBefore_me h s
  rw [← hv] at hvm ⊢
  have hvn : s.now = v.now := by rw [hv]; exact (retBefore_now h s).symm
  rw [hvn]
  clear hv
  clear hvn
  rw [← hvm] at hh hsp hold hj ⊢
  clear hc hvm
  revert hh hsp hold hj
  generalize v = s
  intro hh hsp hold hj
  generalize hd : ({ stall := stallOf w } : Done) = d
  have hr : ∀ m, ∃ f : Path → Path, (∀ p, (f p).join = p.join ∧ (f p).parent = p.parent ∧ (f p).state = p.state) ∧ ((s.count d).charge d).me.path? m = (s.me.path? m).map f
      ∧ (m ≠ s.me.cur → f = fun p => { p with yields := p.yields.filter (· != s.me.cur) }) := by
    intro m
    have h1 : ((s.count d).charge d).me.path? m = ((s.count d).me.path? m).map fun q => { q with yields := q.yields.filter (· != (s.count d).me.cur) } := State.charge_path? ..
    have h2 : (s.count d).me.path? m = if m = s.me.cur then (s.me.path? s.me.cur).map fun p => { p with wait := none, holdAsked := if p.stepping then some 3 else p.holdAsked, stepping := false } else s.me.path? m :=
      Group.path?_setPath ..
    have h3 : (s.count d).me.cur = s.me.cur := by show (s.me.setPath _ _).cur = _; simp
    by_cases hm : m = s.me.cur
    · refine ⟨fun p => { p with wait := none, holdAsked := if p.stepping then some 3 else p.holdAsked, stepping := false, yields := p.yields.filter (· != s.me.cur) }, fun p => ⟨rfl, rfl, rfl⟩, ?_, fun h => absurd hm h⟩
      rw [h1, h2, if_pos hm, h3, hm, Option.map_map]
      cases s.me.path? s.me.cur <;> rfl
    · exact ⟨fun p => { p with yields := p.yields.filter (· != s.me.cur) }, fun p => ⟨rfl, rfl, rfl⟩, by rw [h1, h2, if_neg hm, h3], fun _ => rfl⟩
  have hsent : SentOn s ((s.count d).charge d) := (SentOn.count s d).trans (SentOn.charge _ d)
  have hgs : ((s.count d).charge d).me.special = s.me.special := (State.charge_special _ _).trans (State.count_special _ _)
  have hga : ((s.count d).charge d).me.gstat = s.me.gstat := by simp [State.charge, State.count, Group.noteIssue]
  have hlc : ((s.count d).charge d).me.laneCtr = s.me.laneCtr := by simp [State.charge, State.count, Group.noteIssue]
  have hsc : ((s.count d).charge d).me.scalarCtr = s.me.scalarCtr := by simp [State.charge, State.count, Group.noteIssue]
  generalize hreq : (s.count d).charge d = r at *
  obtain ⟨fo, hfo, hro, -⟩ := hr h.path
  rw [hold] at hro
  have hro : r.me.path? h.path = some (fo old) := hro
  obtain ⟨a1, a2, a3, a4, a5⟩ := retGroup_eq r.me h s.now (fo old) hro (by rw [(hfo old).1, hsent.x]; exact hj)
    (fun n hn => by obtain ⟨f, -, hf, -⟩ := hr n; rw [hf, hsp n hn]; rfl)
  obtain ⟨t, ht, hme, hot⟩ : ∃ t : State, t = r.withMe (retGroup h s.now) ∧ t.me = retGroup h s.now r.me ∧ t.others = r.others := ⟨_, rfl, rfl, rfl⟩
  rw [← ht]
  rw [← hme] at a1 a2 a3 a4 a5
  have hot := hot.trans hsent.others
  have key : ∀ {α : Type} (F : Group → α), (∀ g : Group, F g.still = F g) → F t.me = F { r.me with mode := r.me.x.xmode } := fun F hF => by
    rw [← hF, a3]; exact hF { r.me with mode := r.me.x.xmode }
  have hsp : t.me.special = Group.special { s.me with mode := s.me.x.xmode } := by
    have h1 : t.me.special = Group.special { r.me with mode := r.me.x.xmode } := key Group.special fun g => Group.special_still g
    have h2 : Group.special { r.me with mode := r.me.x.xmode } = { r.me.special with mode := r.me.x.xmode } := rfl
    have h3 : Group.special { s.me with mode := s.me.x.xmode } = { s.me.special with mode := s.me.x.xmode } := rfl
    rw [h1, h2, h3, hgs, hsent.x]
  refine ⟨t, _, rfl, ⟨(key Group.s fun _ => rfl).trans hsent.sc, (key Group.v fun _ => rfl).trans hsent.v, (key Group.p fun _ => rfl).trans hsent.p,
    (key Group.cm fun _ => rfl).trans hsent.cm, (key Group.fpsf fun _ => rfl).trans hsent.fpsf, (key Group.gstat fun _ => rfl).trans hga, (key Group.laneCtr fun _ => rfl).trans hlc,
    (key Group.scalarCtr fun _ => rfl).trans hsc, hsp, hot, State.sameMemory_of_others hot⟩, ?_, a5, a4, a1, ?_, rfl, rfl, by rw [← (hfo old).2.2], rfl, (hfo old).1, (hfo old).2.1, fun n hne hor => ?_⟩
  · have := key Group.mode fun _ => rfl
    rw [this]; show r.me.x.xmode = _; rw [hsent.x]
  · show pc56 r.me.x.xpc = _; rw [hsent.x]
  · rw [a2 n hne]
    split
    · rename_i hcon
      obtain ⟨f, -, hf, hcur⟩ := hr n
      rw [hf, hcur (hor.resolve_right (by rw [hcon]; simp))]
    · rfl
theorem leave_path? (g : Group) (m : LaneMask) (n : Nat) : (g.leaveHandler m).path? n = g.path? n ∧ (g.leaveHandler m).cur = g.cur := by
  unfold Group.leaveHandler
  split
  · exact ⟨rfl, rfl⟩
  · split <;> exact ⟨rfl, rfl⟩
theorem leave_path (s : State) (m : LaneMask) : (s.withMe fun g => g.leaveHandler m).path = s.path := by
  unfold State.path Group.path
  rw [State.withMe_me, (leave_path? s.me m s.me.cur).2, (leave_path? s.me m _).1]
/-- Clause 1 of what `Obligations.ExitAndBreakpoint` says. -/
theorem exitAndBreakpoint_1 : ∀ s w, s.clear true [.exm] = true → s.exm = 0 → ∃ t, exec (.exit w) s = .next t ∧ Moves s t (s.pc + 4) := by
  intro s w hc h0
  refine ⟨_, next_of ((State.checked_own rfl hc (by simp [Use.isVector])).trans ?_), s.retire_moves { stall := stallOf w }⟩
  simp only [h0, if_true]
/-- The EXM that an instruction reads, where no write of it is pending. -/
theorem stale_none (f : Pending → Bool) (n : Nat) (l : List Pending) (h : l.any f = false) : stale f n l = none := by
  induction l with
  | nil => rfl
  | cons e l ih =>
    rw [List.any_cons, Bool.or_eq_false_iff] at h
    unfold stale
    rw [h.1, Bool.false_and, Bool.false_and, if_neg (by decide)]
    exact ih h.2
theorem own_path? {s : State} {p : Path} (hp : s.me.path? s.me.cur = some p) (n : Nat) :
    s.ownEXM.me.path? n = if n = s.me.cur then some { p with exm := s.exm } else s.me.path? n := by
  unfold State.ownEXM
  split
  · show (s.me.setPath s.me.cur fun p => { p with exm := s.exm }).path? n = _
    rw [Group.path?_setPath, hp]; rfl
  · rename_i h
    have he : s.exm = p.exm := by
      unfold State.exm
      rw [stale_none _ _ _ (by simpa using h)]
      show s.path.exm = _
      unfold State.path Group.path
      rw [hp]; rfl
    by_cases hn : n = s.me.cur
    · rw [if_pos hn, he, hn, hp]
    · rw [if_neg hn]
theorem handler_setPath (g : Group) (n : Nat) (f : Path → Path) : (g.setPath n f).handler = g.handler := by
  unfold Group.setPath; split
  · unfold Group.setEntry; split <;> rfl
  · rfl
theorem own_still (s : State) : s.ownEXM.me.still = s.me.still ∧ s.ownEXM.me.cur = s.me.cur ∧ s.ownEXM.others = s.others ∧ s.ownEXM.me.handler = s.me.handler := by
  unfold State.ownEXM
  split
  · exact ⟨(Group.still_dropEXM ..).trans (Group.still_setPath ..), Group.setPath_cur .., rfl, handler_setPath ..⟩
  · exact ⟨rfl, rfl, rfl, rfl⟩
theorem still_leave {g k : Group} (m : LaneMask) (h1 : g.still = k.still) (h2 : g.handler = k.handler) : (g.leaveHandler m).still = (k.leaveHandler m).still := by
  unfold Group.leaveHandler
  rw [h2]
  cases k.handler with
  | none => exact h1
  | some h =>
    dsimp only
    split
    · show ({ g.still with mode := g.still.x.xmode } : Group) = { k.still with mode := k.still.x.xmode }
      rw [h1]
    · exact h1
theorem removeLanes_some {g : Group} {n : Nat} {m : LaneMask} {p : Path} (hp : g.path? n = some p) (hm : p.member &&& ~~~m ≠ 0) :
    g.removeLanes n m = g.setEntry n (some { p with member := p.member &&& ~~~m, exm := p.exm &&& ~~~m }) := by
  unfold Group.removeLanes
  rw [hp]
  simp only [if_neg hm]
theorem removeLanes_none {g : Group} {n : Nat} {m : LaneMask} {p : Path} (hp : g.path? n = some p) (hm : p.member &&& ~~~m = 0) (hq : p.parent = none) :
    g.removeLanes n m = (g.setEntry n none).refill 72 := by
  unfold Group.removeLanes
  rw [hp]
  simp only [hm, if_true, hq]
/-- The group of an EXIT before its lanes go. -/
theorem exit_before {s : State} (hp : s.me.path? s.me.cur = some s.path) {r : State} (hr : r = s.ownEXM.withMe fun g => g.leaveHandler s.exm) :
    (∀ n, r.me.path? n = if n = s.me.cur then some { s.path with exm := s.exm } else s.me.path? n) ∧ r.me.cur = s.me.cur
      ∧ r.me.still = (s.me.leaveHandler s.exm).still ∧ r.others = s.others ∧ r.path = { s.path with exm := s.exm } := by
  subst hr
  obtain ⟨h1, h2, h3, h4⟩ := own_still s
  have hpath : ∀ n, (s.ownEXM.me.leaveHandler s.exm).path? n = if n = s.me.cur then some { s.path with exm := s.exm } else s.me.path? n := fun n => by
    rw [(leave_path? _ _ n).1, own_path? hp]
  have hcur : (s.ownEXM.me.leaveHandler s.exm).cur = s.me.cur := (leave_path? _ _ 0).2.trans h2
  refine ⟨hpath, hcur, ?_, h3, ?_⟩
  · exact still_leave s.exm h1 h4
  · unfold State.path Group.path
    rw [State.withMe_me, hcur, hpath, if_pos rfl]; rfl
/-- Clause 2 of what `Obligations.ExitAndBreakpoint` says. -/
theorem exitAndBreakpoint_2 : ∀ s w, s.clear true [.exm] = true → s.exm ≠ 0 → s.path.member &&& ~~~s.exm ≠ 0 → s.unspilled → s.path.join ≠ some (pc56 (s.pc + 4)) →
      ∃ t o, exec (.exit w) s = .next t ∧ Kept (s.withMe fun g => g.leaveHandler s.exm) t ∧ t.me.cur = s.me.cur ∧ t.me.path? s.me.cur = some o
        ∧ o.pc = pc56 (s.pc + 4) ∧ o.member = s.path.member &&& ~~~s.exm ∧ o.exm = 0
        ∧ o.join = s.path.join ∧ o.parent = s.path.parent := by
  intro s w hc h0 hm hu hj
  have hp := State.unspilled_path hu
  have hn := Group.path?_lt hp
  obtain ⟨r, hr⟩ : ∃ r, r = s.ownEXM.withMe fun g => g.leaveHandler s.exm := ⟨_, rfl⟩
  obtain ⟨hrp, hrc, hrs, hro, hrq⟩ := exit_before hp hr
  let q := r.withMe fun g => g.removeLanes s.me.cur s.exm
  have hex : exec (.exit w) s = .next (q.retire { stall := stallOf w }) := by
    refine next_of ((State.checked_own rfl hc (by simp [Use.isVector])).trans ?_)
    dsimp only
    rw [if_neg h0, ← hr, hrq, if_neg hm]
  have hq : q.me = r.me.setEntry s.me.cur (some { s.path with member := s.path.member &&& ~~~s.exm, exm := s.exm &&& ~~~s.exm }) :=
    removeLanes_some (p := { s.path with exm := s.exm }) (by rw [hrp, if_pos rfl]) hm
  have hqc : q.me.cur = s.me.cur := by rw [hq]; simp [hrc]
  have hqp : ∀ n, q.me.path? n = if n = s.me.cur then some { s.path with member := s.path.member &&& ~~~s.exm, exm := s.exm &&& ~~~s.exm } else s.me.path? n := by
    intro n; rw [hq, Group.path?_setEntry _ _ _ _ hn]
    by_cases h : n = s.me.cur
    · rw [if_pos h, if_pos h]
    · rw [if_neg h, if_neg h, hrp, if_neg h]
  have hqpc : q.pc = s.pc := by unfold State.pc State.path Group.path; rw [hqc, hqp, if_pos rfl, hp]; rfl
  obtain ⟨h1, ⟨o, h2, h3, h4, h5, h6, h7, -⟩, -⟩ := State.retire_paths (s := q) (d := { stall := stallOf w }) (p := { s.path with member := s.path.member &&& ~~~s.exm, exm := s.exm &&& ~~~s.exm })
    (fun n h8 => by rw [hqp, if_neg (fun e => by rw [← e, hu.1 n h8] at hp; cases hp)]; exact hu.1 n h8) (by rw [hqc, hqp, if_pos rfl]) (by rw [hqpc]; exact hj)
  have hst : q.me.still = (s.me.leaveHandler s.exm).still := by rw [hq, Group.still_setEntry, hrs]
  have hqo : q.others = s.others := hro
  have key : ∀ {α : Type} (F : Group → α), (∀ g : Group, F g.still = F g) → F q.me = F (s.me.leaveHandler s.exm) := fun F hF => by rw [← hF, hst, hF]
  refine ⟨_, o, hex, ?_, h1.trans hqc, by rw [← hqc]; exact h2, by rw [h3, hqpc]; rfl, h4, by rw [h5]; simp, h6, h7⟩
  have hk := q.retire_kept { stall := stallOf w }
  generalize q.retire { stall := stallOf w } = t at hk
  generalize q = q' at *
  exact ⟨hk.1.trans (key Group.s fun _ => rfl), hk.2.trans (key Group.v fun _ => rfl), hk.3.trans (key Group.p fun _ => rfl), hk.4.trans (key Group.cm fun _ => rfl),
    hk.5.trans (key Group.fpsf fun _ => rfl), hk.6.trans (key Group.gstat fun _ => rfl), hk.7.trans (key Group.laneCtr fun _ => rfl), hk.8.trans (key Group.scalarCtr fun _ => rfl),
    hk.9.trans (Group.special_of_still hst), hk.10.trans hqo, State.sameMemory_of_others (hk.10.trans hqo)⟩
/-- Clause 3 of what `Obligations.ExitAndBreakpoint` says. -/
theorem exitAndBreakpoint_3 : ∀ s w, s.clear true [.exm] = true → s.exm ≠ 0 → s.path.member &&& ~~~s.exm = 0 →
      exec (.exit w) s = .next (((((s.ownEXM.withMe fun g => g.leaveHandler s.exm).count { stall := stallOf w }).charge { stall := stallOf w }).withMe fun g =>
        g.removeLanes s.me.cur s.exm).endGroup s.me.seq) := by
  intro s w hc h0 hm
  refine next_of ((State.checked_own rfl hc (by simp [Use.isVector])).trans ?_)
  dsimp only
  have h : (s.ownEXM.withMe fun g => g.leaveHandler s.exm).path.member = s.path.member := by
    rw [leave_path]
    unfold State.ownEXM
    split
    · show (Group.path ((s.setPath fun p => { p with exm := s.exm }).me) _).member = _
      unfold State.path Group.path
      show (((s.me.setPath s.me.cur fun p => { p with exm := s.exm }).path? (s.me.setPath s.me.cur fun p => { p with exm := s.exm }).cur).getD {}).member = _
      rw [Group.setPath_cur, Group.path?_setPath, if_pos rfl]
      cases s.me.path? s.me.cur <;> rfl
    · rfl
  rw [if_neg h0, h, if_pos hm]
theorem count_path? (s : State) (d : Done) (m : Nat) : ((s.count d).charge d).me.path? m =
    if m = s.me.cur then
      (s.me.path? m).map fun q => { (q : Path) with wait := none, holdAsked := if q.stepping then some 3 else q.holdAsked, stepping := false, yields := q.yields.filter (· != s.me.cur) }
    else (s.me.path? m).map fun q => { q with yields := q.yields.filter (· != s.me.cur) } := by
  have h1 : ((s.count d).charge d).me.path? m = (s.count d).me.noteIssue.path? m := rfl
  have h2 : (s.count d).me = s.me.setPath s.me.cur fun p => { p with wait := none, holdAsked := if p.stepping then some 3 else p.holdAsked, stepping := false } := rfl
  rw [h1, Group.path?_noteIssue, h2, Group.path?_setPath, Group.setPath_cur]
  by_cases hm : m = s.me.cur
  · subst hm; simp only [if_true, Option.map_map]; rfl
  · simp only [if_neg hm]
/-- Charging and counting keep what completing keeps. -/
theorem count_kept (s : State) (d : Done) : Kept s ((s.count d).charge d) := by
  have h : SentOn s ((s.count d).charge d) := (SentOn.count s d).trans (SentOn.charge _ d)
  refine ⟨h.sc, h.v, h.p, h.cm, h.fpsf, ?_, ?_, ?_, (State.charge_special _ _).trans (State.count_special _ _), h.others, State.sameMemory_of_others h.others⟩ <;>
    simp [State.charge, State.count, Group.noteIssue]
theorem kept_still {s r t : State} (h : Kept s r) (hst : t.me.still = r.me.still) (ho : t.others = r.others) : Kept s t := by
  have key : ∀ {α : Type} (F : Group → α), (∀ g : Group, F g.still = F g) → F t.me = F r.me := fun F hF => by rw [← hF, hst, hF]
  exact ⟨(key Group.s fun _ => rfl).trans h.1, (key Group.v fun _ => rfl).trans h.2, (key Group.p fun _ => rfl).trans h.3, (key Group.cm fun _ => rfl).trans h.4,
    (key Group.fpsf fun _ => rfl).trans h.5, (key Group.gstat fun _ => rfl).trans h.6, (key Group.laneCtr fun _ => rfl).trans h.7, (key Group.scalarCtr fun _ => rfl).trans h.8,
    (Group.special_of_still hst).trans h.9, ho.trans h.10, State.sameMemory_of_others (ho.trans h.10)⟩
/-- Clause 4 of what `Obligations.ExitAndBreakpoint` says. -/
theorem exitAndBreakpoint_4 : ∀ s w, s.clear true [.exm] = true → s.exm ≠ 0 → s.path.member &&& ~~~s.exm = 0 → s.unspilled → s.me.live = true → s.me.handler = none →
      s.path.parent = none → (∃ n, n ≠ s.me.cur ∧ (s.me.path? n).isSome = true) →
      ∃ t, exec (.exit w) s = .next t ∧ t.me.path? s.me.cur = none ∧ Kept s t ∧
        ∀ n, n ≠ s.me.cur → t.me.path? n = (s.me.path? n).map fun p => { p with yields := p.yields.filter (· != s.me.cur) } := by
  intro s w hc h0 hm hu hl hh hpar ⟨k, hk, hks⟩
  have hp := State.unspilled_path hu
  have hn := Group.path?_lt hp
  obtain ⟨r0, hr0⟩ : ∃ r, r = s.ownEXM.withMe fun g => g.leaveHandler s.exm := ⟨_, rfl⟩
  obtain ⟨hrp, hrc, hrs, hro, -⟩ := exit_before hp hr0
  have hlh : s.me.leaveHandler s.exm = s.me := by unfold Group.leaveHandler; rw [hh]
  rw [hlh] at hrs
  rw [exitAndBreakpoint_3 s w hc h0 hm, ← hr0]
  have hk0 : Kept s r0 := by
    have key : ∀ {α : Type} (F : Group → α), (∀ g : Group, F g.still = F g) → F r0.me = F s.me := fun F hF => by rw [← hF, hrs, hF]
    exact ⟨key Group.s fun _ => rfl, key Group.v fun _ => rfl, key Group.p fun _ => rfl, key Group.cm fun _ => rfl, key Group.fpsf fun _ => rfl, key Group.gstat fun _ => rfl,
      key Group.laneCtr fun _ => rfl, key Group.scalarCtr fun _ => rfl, Group.special_of_still hrs, hro, State.sameMemory_of_others hro⟩
  have hl0 : r0.me.live = s.me.live ∧ r0.me.seq = s.me.seq := by
    have key : ∀ {α : Type} (F : Group → α), (∀ g : Group, F g.still = F g) → F r0.me = F s.me := fun F hF => by rw [← hF, hrs, hF]
    exact ⟨key Group.live fun _ => rfl, key Group.seq fun _ => rfl⟩
  generalize hd : ({ stall := stallOf w } : Done) = d
  have hcp := count_path? r0 d
  have hck := hk0.trans (count_kept r0 d)
  have hlive : ((r0.count d).charge d).me.live = true ∧ ((r0.count d).charge d).me.seq = s.me.seq := by
    constructor
    · rw [← hl, ← hl0.1]; simp [State.charge, State.count, Group.noteIssue]
    · rw [← hl0.2]; simp [State.charge, State.count, Group.noteIssue]
  generalize (r0.count d).charge d = r at *
  rw [hrc] at hcp
  have hcp : ∀ m, r.me.path? m = if m = s.me.cur then (some { s.path with exm := s.exm }).map fun q => { (q : Path) with wait := none, holdAsked := if q.stepping then some 3 else q.holdAsked, stepping := false, yields := q.yields.filter (· != s.me.cur) }
      else (s.me.path? m).map fun q => { q with yields := q.yields.filter (· != s.me.cur) } := by
    intro m
    rw [hcp m]
    by_cases h : m = s.me.cur
    · rw [if_pos h, if_pos h, hrp, if_pos h]
    · rw [if_neg h, if_neg h, hrp, if_neg h]
  have hpc := hcp s.me.cur
  rw [if_pos rfl] at hpc
  have hsp1 : ∀ n, 8 ≤ n → (r.me.setEntry s.me.cur none).path? n = none := by
    intro n h8
    have hne : n ≠ s.me.cur := fun e => by rw [← e, hu.1 n h8] at hp; cases hp
    rw [Group.path?_setEntry _ _ _ _ hn, if_neg hne, hcp, if_neg hne, hu.1 n h8]; rfl
  have hrm : r.me.removeLanes s.me.cur s.exm = r.me.setEntry s.me.cur none := by
    rw [removeLanes_none hpc hm hpar, Group.refill_none _ _ hsp1]
  obtain ⟨t, ht, hme, hto, hgs⟩ : ∃ t : State, t = r.withMe (fun g => g.removeLanes s.me.cur s.exm) ∧ t.me = r.me.removeLanes s.me.cur s.exm ∧ t.others = r.others
      ∧ t.allGroups = (if t.me.live then t.me :: t.groups else t.groups) := ⟨_, rfl, rfl, rfl, rfl⟩
  rw [← ht]
  rw [hrm] at hme
  have htl : t.me.live = true := by rw [hme]; simp [hlive.1]
  have hts : t.me.seq = s.me.seq := by rw [hme]; simp [hlive.2]
  have htp : ∀ n, t.me.path? n = if n = s.me.cur then none else (s.me.path? n).map fun q => { q with yields := q.yields.filter (· != s.me.cur) } := by
    intro n; rw [hme, Group.path?_setEntry _ _ _ _ hn]
    by_cases h : n = s.me.cur
    · rw [if_pos h, if_pos h]
    · rw [if_neg h, if_neg h, hcp, if_neg h]
  have hent : t.me.entries ≠ [] := by
    intro he
    have hk72 : k < 72 := by
      obtain ⟨p, hp⟩ := Option.isSome_iff_exists.mp hks
      exact Group.path?_lt hp
    have : k ∈ t.me.entries := by
      unfold Group.entries
      refine List.mem_filter.mpr ⟨List.mem_range.mpr hk72, ?_⟩
      rw [htp, if_neg hk]
      cases hq : s.me.path? k with
      | none => rw [hq] at hks; cases hks
      | some _ => rfl
    rw [he] at this; cases this
  have hend : t.endGroup s.me.seq = t := by
    unfold State.endGroup State.group?
    rw [hgs, if_pos htl, List.find?_cons_of_pos (by simp [hts])]
    simp only [hent, not_false_iff, ne_eq, decide_true, Bool.true_or, if_true]
  rw [hend]
  refine ⟨t, rfl, by rw [htp, if_pos rfl], kept_still hck (by rw [hme, Group.still_setEntry]) hto, fun n hne => by rw [htp, if_neg hne]⟩
/-- What withdrawing a group's requests leaves: only queues of units and heads of wait lists change. -/
theorem withdraw_rest (s : State) (n : Nat) : (s.withdraw n).me = s.me ∧ (s.withdraw n).groups = s.groups ∧ (s.withdraw n).saved = s.saved ∧ (s.withdraw n).now = s.now
    ∧ (s.withdraw n).teams = s.teams.map fun t => { t with latch := t.latch.filter fun a => !(a.group == n), matQueue := t.matQueue.filter fun m => ((m.asker).map fun x => !(x.1 == n)).getD true } := by
  have key : ∀ (l : List FebWaiter) (s : State), (l.foldl (fun s w => s.writeHead w.part w.buffer) s).me = s.me ∧ (l.foldl (fun s w => s.writeHead w.part w.buffer) s).groups = s.groups
      ∧ (l.foldl (fun s w => s.writeHead w.part w.buffer) s).saved = s.saved ∧ (l.foldl (fun s w => s.writeHead w.part w.buffer) s).now = s.now
      ∧ (l.foldl (fun s w => s.writeHead w.part w.buffer) s).teams = s.teams := by
    intro l
    induction l with
    | nil => intro s; exact ⟨rfl, rfl, rfl, rfl, rfl⟩
    | cons w l ih =>
      intro s
      rw [List.foldl_cons]
      have h : (s.writeHead w.part w.buffer).me = s.me ∧ (s.writeHead w.part w.buffer).groups = s.groups ∧ (s.writeHead w.part w.buffer).saved = s.saved
          ∧ (s.writeHead w.part w.buffer).now = s.now ∧ (s.writeHead w.part w.buffer).teams = s.teams := by
        unfold State.writeHead; split <;> exact ⟨rfl, rfl, rfl, rfl, rfl⟩
      obtain ⟨a, b, c, d, e⟩ := ih (s.writeHead w.part w.buffer)
      exact ⟨a.trans h.1, b.trans h.2.1, c.trans h.2.2.1, d.trans h.2.2.2.1, e.trans h.2.2.2.2⟩
  unfold State.withdraw State.withdrawIf
  exact key _ _
/-- Clause 5 of what `Obligations.ExitAndBreakpoint` says. -/
theorem exitAndBreakpoint_5 : ∀ s w, s.clear true [.exm] = true → s.exm ≠ 0 → s.path.member &&& ~~~s.exm = 0 → s.unspilled → s.me.live = true → s.path.parent = none →
      (∀ n, n ≠ s.me.cur → s.me.path? n = none) → (∀ c ∈ s.copies, c.group ≠ s.me.seq) → (∀ e ∈ (s.team s.me.team).wbuf, s.me.seq ∉ e.writers) →
      bit (s.team s.me.team).gang s.me.index = false → (s.team s.me.team).arrived = [] → (∀ x ∈ s.teams, x.carrived = []) → (∀ v ∈ s.saved, v.team.carrived = []) →
      (∃ k, k < (s.team s.me.team).groups ∧ k ∉ (s.team s.me.team).exited ∧ k ≠ s.me.index) →
      ∃ t, exec (.exit w) s = .next t ∧ t.me = {} ∧ t.groups = s.groups
        ∧ ((s.team? s.me.team).isSome = true → (t.team s.me.team).exited = (s.team s.me.team).exited ++ [s.me.index]) := by
  intro s w hc h0 hm hu hl hpar hno hcop hwb hg harr hca hcs ⟨k, hk, hke, hki⟩
  have hp := State.unspilled_path hu
  have hn := Group.path?_lt hp
  obtain ⟨r0, hr0⟩ : ∃ r, r = s.ownEXM.withMe fun g => g.leaveHandler s.exm := ⟨_, rfl⟩
  obtain ⟨hrp, hrc, hrs, hro, -⟩ := exit_before hp hr0
  rw [exitAndBreakpoint_3 s w hc h0 hm, ← hr0]
  have hsame : ∃ g', r0 = { s with me := g' } := by
    refine ⟨r0.me, ?_⟩
    rw [hr0]; unfold State.ownEXM; split <;> rfl
  obtain ⟨g', hg'⟩ := hsame
  generalize hd : ({ stall := stallOf w } : Done) = d
  have hcp := count_path? r0 d
  have hfields : ((r0.count d).charge d).me.live = r0.me.live ∧ ((r0.count d).charge d).me.seq = r0.me.seq ∧ ((r0.count d).charge d).me.team = r0.me.team ∧ ((r0.count d).charge d).me.index = r0.me.index := by
    simp [State.charge, State.count, Group.noteIssue]
  have hid : r0.me.live = s.me.live ∧ r0.me.seq = s.me.seq ∧ r0.me.team = s.me.team ∧ r0.me.index = s.me.index := by
    have hlv : (s.me.leaveHandler s.exm).live = s.me.live ∧ (s.me.leaveHandler s.exm).seq = s.me.seq ∧ (s.me.leaveHandler s.exm).team = s.me.team ∧ (s.me.leaveHandler s.exm).index = s.me.index := by
      unfold Group.leaveHandler; split
      · exact ⟨rfl, rfl, rfl, rfl⟩
      · split <;> exact ⟨rfl, rfl, rfl, rfl⟩
    have key : ∀ {α : Type} (F : Group → α), (∀ g : Group, F g.still = F g) → F r0.me = F (s.me.leaveHandler s.exm) := fun F hF => by rw [← hF, hrs, hF]
    exact ⟨(key Group.live fun _ => rfl).trans hlv.1, (key Group.seq fun _ => rfl).trans hlv.2.1, (key Group.team fun _ => rfl).trans hlv.2.2.1, (key Group.index fun _ => rfl).trans hlv.2.2.2⟩
  obtain ⟨i1, i2, i3, i4⟩ := hid
  obtain ⟨j1, j2, j3, j4⟩ := hfields
  have hst : ((r0.count d).charge d).groups = s.groups ∧ ((r0.count d).charge d).saved = s.saved ∧ ((r0.count d).charge d).copies = s.copies := by
    rw [hg']
    unfold State.count State.charge
    exact ⟨rfl, rfl, rfl⟩
  have hte : ∃ f : Team → Team, (∀ t, (f t).id = t.id ∧ (f t).wbuf = t.wbuf ∧ (f t).gang = t.gang ∧ (f t).arrived = t.arrived ∧ (f t).carrived = t.carrived ∧ (f t).groups = t.groups ∧ (f t).exited = t.exited)
      ∧ ((r0.count d).charge d).teams = s.teams.map f := by
    rw [hg']
    refine ⟨_, ?_, rfl⟩
    intro t
    by_cases h : t.id = ({ s with me := g' } : State).me.team
    · simp [h]
    · simp [h]
  obtain ⟨st1, st2, st3⟩ := hst
  obtain ⟨f, hf, hft⟩ := hte
  generalize (r0.count d).charge d = r at *
  rw [hrc] at hcp
  have hsp1 : ∀ n, (r.me.setEntry s.me.cur none).path? n = none := by
    intro n
    rw [Group.path?_setEntry _ _ _ _ hn]
    by_cases h : n = s.me.cur
    · rw [if_pos h]
    · rw [if_neg h, hcp, if_neg h, hrp, if_neg h, hno n h]; rfl
  have hpc := hcp s.me.cur
  rw [if_pos rfl, hrp, if_pos rfl] at hpc
  have hrm : r.me.removeLanes s.me.cur s.exm = r.me.setEntry s.me.cur none := by
    rw [removeLanes_none hpc hm hpar, Group.refill_none _ _ fun n _ => hsp1 n]
  obtain ⟨q, hq⟩ : ∃ q : State, q = r.withMe (fun g => g.removeLanes s.me.cur s.exm) := ⟨_, rfl⟩
  have hqm : q.me = r.me.setEntry s.me.cur none := by rw [hq]; exact hrm
  have hql : q.me.live = true ∧ q.me.seq = s.me.seq ∧ q.me.team = s.me.team ∧ q.me.index = s.me.index := by
    rw [hqm]
    have key : ∀ {α : Type} (F : Group → α), (∀ g : Group, F g.still = F g) → F (r.me.setEntry s.me.cur none) = F r.me := fun F hF => by rw [← hF, Group.still_setEntry, hF]
    exact ⟨(key Group.live fun _ => rfl).trans (j1.trans (i1.trans hl)), (key Group.seq fun _ => rfl).trans (j2.trans i2), (key Group.team fun _ => rfl).trans (j3.trans i3), (key Group.index fun _ => rfl).trans (j4.trans i4)⟩
  obtain ⟨q1, q2, q3, q4⟩ := hql
  have hqe : q.me.entries = [] := by
    unfold Group.entries
    rw [List.filter_eq_nil_iff]
    intro n _
    rw [hqm, hsp1 n]; simp
  have hqg : q.groups = s.groups ∧ q.saved = s.saved ∧ q.copies = s.copies ∧ q.teams = s.teams.map f := by rw [hq]; exact ⟨st1, st2, st3, hft⟩
  obtain ⟨u1, u2, u3, u4⟩ := hqg
  rw [← hq]
  have hgr : q.group? s.me.seq = some q.me := by
    unfold State.group? State.allGroups
    rw [if_pos q1, List.find?_cons_of_pos (by simp [q2])]
  have hteam : q.team? s.me.team = (s.team? s.me.team).map f := by
    unfold State.team?
    rw [u4, team_find_map _ _ fun t => (hf t).1]
  have hfd : ∀ x : Option Team, (x.map f).getD {} = if x.isSome then f (x.getD {}) else {} := by intro x; cases x <;> rfl
  have hT : (q.team s.me.team).wbuf = (s.team s.me.team).wbuf := by
    unfold State.team; rw [hteam]
    cases s.team? s.me.team with
    | none => rfl
    | some t => exact (hf t).2.1
  have hdrain : ((q.team q.me.team).wbuf.filter fun e => e.writers.contains s.me.seq) = [] := by
    rw [q3, hT, List.filter_eq_nil_iff]
    intro e he; simpa using hwb e he
  obtain ⟨w1, w2, w3, w4, w5⟩ := withdraw_rest q s.me.seq
  obtain ⟨x1, hx1⟩ : ∃ x : State, x = (q.withdraw s.me.seq).leave q.me := ⟨_, rfl⟩
  have hx : x1.me = q.me ∧ x1.groups = q.groups ∧ x1.saved = q.saved ∧ x1.teams = (q.withdraw s.me.seq).teams := by
    rw [hx1]; unfold State.leave; split
    · exact ⟨w1, w2, w3, rfl⟩
    · exact ⟨w1, w2, w3, rfl⟩
  obtain ⟨y1, y2, y3, y4⟩ := hx
  let h : Team → Team := fun t => { t with latch := t.latch.filter fun a => !(a.group == s.me.seq), matQueue := t.matQueue.filter fun m => ((m.asker).map fun x => !(x.1 == s.me.seq)).getD true }
  have y5 : x1.teams = s.teams.map (fun t => h (f t)) := by rw [y4, w5, u4, List.map_map]; rfl
  obtain ⟨x2, hx2⟩ : ∃ x : State, x = { x1 with me := {} } := ⟨_, rfl⟩
  have hsel : (if x1.me.live && x1.me.seq == s.me.seq then { x1 with me := {} } else { x1 with groups := x1.groups.filter (·.seq != s.me.seq) }) = x2 := by
    rw [y1, q1, q2]; simp [hx2]
  have hteam2 : x2.team? s.me.team = (s.team? s.me.team).map fun t => h (f t) := by
    unfold State.team?
    rw [hx2]
    show x1.teams.find? _ = _
    rw [y5]
    exact team_find_map _ (fun t => h (f t)) (fun t => (hf t).1) _
  have hgang : bit (x2.team q.me.team).gang q.me.index = false := by
    rw [q3, q4]
    unfold State.team at hg ⊢
    rw [hteam2]
    cases ht : s.team? s.me.team with
    | none => rw [ht] at hg; exact hg
    | some t => rw [ht] at hg; show bit (f t).gang _ = false; rw [(hf t).2.2.1]; exact hg
  obtain ⟨x3, hx3⟩ : ∃ x : State, x = x2.setTeam s.me.team fun t => { t with exited := t.exited ++ [s.me.index] } := ⟨_, rfl⟩
  let e : Team → Team := fun t => if t.id = s.me.team then { (h (f t)) with exited := t.exited ++ [s.me.index] } else h (f t)
  have he : ∀ t, (e t).id = t.id ∧ (e t).arrived = t.arrived ∧ (e t).carrived = t.carrived ∧ (e t).groups = t.groups := by
    intro t
    obtain ⟨a, -, -, b, c, d, -⟩ := hf t
    by_cases hh : t.id = s.me.team
    · simp only [e, if_pos hh]; exact ⟨a, b, c, d⟩
    · simp only [e, if_neg hh]; exact ⟨a, b, c, d⟩
  have hteams3 : x3.teams = s.teams.map e := by
    rw [hx3]
    show x2.teams.map _ = _
    rw [hx2]
    show x1.teams.map _ = _
    rw [y5, List.map_map]
    apply List.map_congr_left
    intro t _
    show (if (h (f t)).id = s.me.team then _ else _) = _
    have : (h (f t)).id = t.id := (hf t).1
    have hx' : (h (f t)).exited = t.exited := (hf t).2.2.2.2.2.2
    by_cases hh : t.id = s.me.team
    · rw [if_pos (this.trans hh), hx']
      have : e t = { (h (f t)) with exited := t.exited ++ [s.me.index] } := if_pos hh
      rw [this]
    · rw [if_neg (by rw [this]; exact hh)]
      exact (if_neg hh : e t = h (f t)).symm
  have hteam3 : x3.team? s.me.team = (s.team? s.me.team).map e := by
    unfold State.team?; rw [hteams3]; exact team_find_map _ _ (fun t => (he t).1) _
  have hid3 : ∀ t, s.team? s.me.team = some t → t.id = s.me.team := fun t ht => by unfold State.team? at ht; simpa using List.find?_some ht
  have hphase : x3.teamPhase s.me.team = x3 := by
    unfold State.teamPhase
    have : (x3.team s.me.team).arrived = [] := by
      unfold State.team at harr ⊢
      rw [hteam3]
      cases ht : s.team? s.me.team with
      | none => rfl
      | some t => rw [ht] at harr; exact (he t).2.1.trans harr
    simp [this]
  have hsv3 : x3.saved = s.saved := by rw [hx3]; show x2.saved = _; rw [hx2]; show x1.saved = _; rw [y3, u2]
  have hcl : ∀ T : Team, x3.clusterPhase T = x3 := by
    intro T
    unfold State.clusterPhase
    dsimp only
    rw [if_neg]
    simp only [Bool.and_eq_true, not_and]
    intro hany
    exfalso
    rw [List.any_eq_true] at hany
    obtain ⟨z, hz, hzc⟩ := hany
    rw [List.mem_append, List.mem_filter, List.mem_filter] at hz
    rcases hz with ⟨hz, -⟩ | ⟨hz, -⟩
    · rw [hteams3, List.mem_map] at hz
      obtain ⟨t, ht, rfl⟩ := hz
      rw [(he t).2.2.1, hca t ht] at hzc; simp at hzc
    · rw [hsv3, List.mem_map] at hz
      obtain ⟨v, hv, rfl⟩ := hz
      rw [hcs v hv] at hzc; simp at hzc
  have hend : x3.endTeam s.me.team = x3 := by
    unfold State.endTeam
    dsimp only
    rw [if_neg]
    intro hall
    unfold Team.allIn at hall
    rw [List.all_eq_true] at hall
    have hk3 : k < (x3.team s.me.team).groups ∧ k ∉ (x3.team s.me.team).exited := by
      unfold State.team at hk hke ⊢
      rw [hteam3]
      cases ht : s.team? s.me.team with
      | none => rw [ht] at hk hke; exact ⟨hk, hke⟩
      | some t =>
        rw [ht] at hk hke
        refine ⟨by show k < (e t).groups; rw [(he t).2.2.2]; exact hk, ?_⟩
        show k ∉ (e t).exited
        simp only [e, if_pos (hid3 t ht)]
        intro hmem
        rcases List.mem_append.mp hmem with hmem | hmem
        · exact hke hmem
        · exact hki (by simpa using hmem)
    have := hall k (List.mem_range.mpr hk3.1)
    simp [hk3.2] at this
  have hfin : q.endGroup s.me.seq = x3 := by
    unfold State.endGroup
    rw [hgr]
    dsimp only
    have hcf : (q.copies.any fun c => c.group == s.me.seq) = false := by
      rw [u3, List.any_eq_false]; intro c hc'; simpa using hcop c hc'
    rw [hqe, hcf, if_neg (by simp), hdrain]
    show (State.endTeam (State.clusterPhase (State.teamPhase _ _) _) _) = _
    simp only [List.map_nil, List.foldl_nil]
    rw [← hx1, hsel]
    have hge : x2.gangExit q.me = x2 := by unfold State.gangExit; dsimp only; rw [hgang]; simp
    rw [hge, q3, q4, ← hx3, hphase, hcl, hend]
  rw [hfin]
  refine ⟨x3, rfl, ?_, ?_, fun hsome => ?_⟩
  · rw [hx3]; show x2.me = _; rw [hx2]
  · rw [hx3]; show x2.groups = _; rw [hx2]; show x1.groups = _; rw [y2, u1]
  · obtain ⟨t, ht⟩ := Option.isSome_iff_exists.mp hsome
    unfold State.team
    rw [hteam3, ht]
    show (e t).exited = _
    simp only [e, if_pos (hid3 t ht)]
    rfl
/-- Clause 6 of what `Obligations.ExitAndBreakpoint` says. -/
theorem exitAndBreakpoint_6 : ∀ s i, small i 1024 = true → s.clear true [] = true → s.myPart.debugOn = false → ∃ t, exec (.bkpt i) s = .next t ∧ Moves s t (s.pc + 4) := by
  intro s i hl hc hd
  refine ⟨_, next_of ((State.checked_own hl hc (by simp)).trans ?_), s.retire_moves {}⟩
  simp only [hd, Bool.false_eq_true, if_false]
theorem bits_setBits_low (x : Word) (v : Nat) (h : v < 65536) : bits (setBits x 0 16 v) 0 16 = v := by
  unfold bits setBits
  simp only [Nat.pow_zero, Nat.div_one, Nat.mul_one]
  apply Nat.eq_of_testBit_eq
  intro i
  rw [Nat.testBit_mod_two_pow]
  by_cases hi : i < 16
  · rw [← BitVec.getLsbD, BitVec.getLsbD_or, BitVec.getLsbD_and, BitVec.getLsbD_not, BitVec.getLsbD_ofNat, BitVec.getLsbD_ofNat, Nat.testBit_two_pow_sub_one, Nat.testBit_mod_two_pow]
    simp [hi, show i < 32 by omega]
  · rw [decide_eq_false hi, Bool.false_and]
    symm
    apply Nat.testBit_lt_two_pow
    calc v < 2 ^ 16 := h
      _ ≤ 2 ^ i := Nat.pow_le_pow_right (by decide) (by omega)
theorem reg_setReg (q : Partition) (n : Nat) (v d : Word) : (q.setReg n v).reg n d = v := lookD_put_same _ _ _ _
theorem halt_only (s : State) (g : Group) (path id : Nat) (killed : Bool) (cause : Nat) (hp : g.part < 8) :
    (s.haltRecord g path id killed cause).me = s.me ∧ s.sameMemory (s.haltRecord g path id killed cause) ∧
    ((s.haltRecord g path id killed cause).part g.part).halts = (if (s.part g.part).reg2 0x903 = 0 then (s.part g.part).halts else
      (s.part g.part).halts ++ [s.traceRecord g path 2 (g.path path).pc id false killed cause])
    ∧ bits (((s.haltRecord g path id killed cause).part g.part).reg 0x908 0) 0 16 = (if (s.part g.part).reg2 0x903 = 0 then min (bits ((s.part g.part).reg 0x908 0) 0 16 + 1) 0xFFFF
            else bits ((s.part g.part).reg 0x908 0) 0 16)
    ∧ (s.haltRecord g path id killed cause).copies = s.copies ∧ (s.haltRecord g path id killed cause).now = s.now := by
  unfold State.haltRecord
  dsimp only
  refine ⟨(State.setPart_fields ..).1, State.sameMemory_of_parts (by rw [(State.setPart_fields ..).2.1]) (State.setPart_fields ..).2.2.1 (State.setPart_fields ..).2.2.2.1
    (State.setPart_fields ..).2.2.2.2 (fun q => ?_) (State.setPart_saved ..) (State.setPart_free ..), ?_, ?_, ?_, ?_⟩
  · rw [State.part_setPart _ _ _ _ hp]
    split
    · split
      · rfl
      · rfl
    · rfl
  · rw [State.part_setPart _ _ _ _ hp, if_pos rfl]
    have : ∀ p : Partition, ({ p with traceSeq := p.traceSeq + 1 } : Partition).reg2 0x903 = p.reg2 0x903 := fun _ => rfl
    rw [this]
    split <;> rfl
  · rw [State.part_setPart _ _ _ _ hp, if_pos rfl]
    have : ∀ p : Partition, ({ p with traceSeq := p.traceSeq + 1 } : Partition).reg2 0x903 = p.reg2 0x903 := fun _ => rfl
    have h2 : ∀ p : Partition, ({ p with traceSeq := p.traceSeq + 1 } : Partition).reg 0x908 0 = p.reg 0x908 0 := fun _ => rfl
    rw [this]
    split
    · rw [reg_setReg, bits_setBits_low _ _ (by omega), h2]
    · exact congrArg (bits · 0 16) (h2 _)
  · unfold State.setPart; split <;> rfl
  · unfold State.setPart; split <;> rfl
/-- Clause 7 of what `Obligations.ExitAndBreakpoint` says. -/
theorem exitAndBreakpoint_7 : ∀ s i, small i 1024 = true → s.clear true [] = true → s.myPart.debugOn = true → s.unspilled → s.me.part < 8 → (∀ c ∈ s.copies, c.group ≠ s.me.seq) →
      ∃ t o, exec (.bkpt i) s = .next t ∧ t.me.path? s.me.cur = some o ∧ o.state = .held ∧ o.pc = pc56 (s.pc + 4) ∧ o.member = s.path.member ∧ o.exm = s.path.exm
        ∧ (t.part s.me.part).halts = (if (s.part s.me.part).reg2 0x903 = 0 then (s.part s.me.part).halts else
            (s.part s.me.part).halts ++ [s.traceRecord s.me s.me.cur 2 s.pc i.toNat false false 0])
        ∧ bits ((t.part s.me.part).reg 0x908 0) 0 16 = (if (s.part s.me.part).reg2 0x903 = 0 then min (bits ((s.part s.me.part).reg 0x908 0) 0 16 + 1) 0xFFFF
            else bits ((s.part s.me.part).reg 0x908 0) 0 16)
        ∧ t.me.s = s.me.s ∧ t.me.v = s.me.v ∧ t.me.p = s.me.p ∧ t.me.cm = s.me.cm ∧ t.me.fpsf = s.me.fpsf ∧ t.me.gstat = s.me.gstat ∧ t.me.special = s.me.special
        ∧ s.sameMemory t := by
  intro s i hl hc hd hu h8 hcop
  have hp := State.unspilled_path hu
  have hn := Group.path?_lt hp
  obtain ⟨a1, a2, a3, a4, -, -⟩ := halt_only s s.me s.me.cur i.toNat false 0 h8
  have hex : exec (.bkpt i) s = .next ((((s.haltRecord s.me s.me.cur i.toNat false 0).count {}).charge {}).withMe fun g =>
      (({ g with pending := [] }).setPath s.me.cur fun p => { p with state := .held, heldState := .ready, holdAsked := none, pc := pc56 (p.pc + 4) }).refill 72) := by
    refine next_of ((State.checked_own hl hc (by simp)).trans ?_)
    have hcf : (s.copies.any fun c => c.group == s.me.seq) = false := by
      rw [List.any_eq_false]; intro c hc'; simpa using hcop c hc'
    simp only [hd, if_true, hcf, Bool.false_eq_true, if_false]
  rw [hex]
  generalize s.haltRecord s.me s.me.cur i.toNat false 0 = q at *
  have hcp := count_path? q {}
  have hck := count_kept q {}
  have hpr : ((q.count {}).charge {}).parts = q.parts := rfl
  generalize (q.count {}).charge {} = r at *
  rw [a1] at hcp
  have hpc := hcp s.me.cur
  rw [if_pos rfl, hp] at hpc
  obtain ⟨o, ho, o1, o2, o3⟩ : ∃ o, r.me.path? s.me.cur = some o ∧ o.pc = s.path.pc ∧ o.member = s.path.member ∧ o.exm = s.path.exm := ⟨_, hpc, rfl, rfl, rfl⟩
  have hset : ∀ n, (({ r.me with pending := [] } : Group).setPath s.me.cur fun p => { p with state := .held, heldState := .ready, holdAsked := none, pc := pc56 (p.pc + 4) }).path? n
      = if n = s.me.cur then some { o with state := .held, heldState := .ready, holdAsked := none, pc := pc56 (o.pc + 4) } else r.me.path? n := by
    intro n
    rw [Group.path?_setPath]
    show (if n = s.me.cur then (r.me.path? s.me.cur).map _ else r.me.path? n) = _
    rw [ho]; rfl
  have hfill : (({ r.me with pending := [] } : Group).setPath s.me.cur fun p => { p with state := .held, heldState := .ready, holdAsked := none, pc := pc56 (p.pc + 4) }).refill 72
      = ({ r.me with pending := [] } : Group).setPath s.me.cur fun p => { p with state := .held, heldState := .ready, holdAsked := none, pc := pc56 (p.pc + 4) } := by
    refine Group.refill_none _ _ fun n h => ?_
    have hne : n ≠ s.me.cur := fun e => by rw [← e, hu.1 n h] at hp; cases hp
    rw [hset, if_neg hne, hcp, if_neg hne, hu.1 n h]; rfl
  obtain ⟨t, ht, hme, hto, htp⟩ : ∃ t : State, t = (r.withMe fun g => (({ g with pending := [] }).setPath s.me.cur fun p => { p with state := .held, heldState := .ready, holdAsked := none, pc := pc56 (p.pc + 4) }).refill 72)
      ∧ t.me = (({ r.me with pending := [] } : Group).setPath s.me.cur fun p => { p with state := .held, heldState := .ready, holdAsked := none, pc := pc56 (p.pc + 4) }).refill 72
      ∧ t.others = r.others ∧ t.parts = r.parts := ⟨r.withMe fun g => (({ g with pending := [] }).setPath s.me.cur fun p => { p with state := .held, heldState := .ready, holdAsked := none, pc := pc56 (p.pc + 4) }).refill 72, rfl, rfl, rfl, rfl⟩
  rw [← ht]
  rw [hfill] at hme
  have hst : t.me.still = r.me.still := by rw [hme, Group.still_setPath]; rfl
  have hk := kept_still hck hst hto
  refine ⟨t, { o with state := .held, heldState := .ready, holdAsked := none, pc := pc56 (o.pc + 4) }, rfl, by rw [hme, hset, if_pos rfl], rfl, ?_, o2, o3, ?_, ?_, hk.1.trans (by rw [a1]), hk.2.trans (by rw [a1]), hk.3.trans (by rw [a1]), hk.4.trans (by rw [a1]), hk.5.trans (by rw [a1]), hk.6.trans (by rw [a1]),
    hk.special.trans (by rw [a1]), fun ag p => (hk.memory ag p).trans (a2 ag p)⟩
  · show pc56 (o.pc + 4) = _; rw [o1]; rfl
  · have : t.part s.me.part = q.part s.me.part := by unfold State.part; rw [htp, hpr]
    rw [this, a3]; rfl
  · have : t.part s.me.part = q.part s.me.part := by unfold State.part; rw [htp, hpr]
    rw [this, a4]
/-- Clause 8 of what `Obligations.ExitAndBreakpoint` says. -/
theorem exitAndBreakpoint_8 : ∀ s i, small i 1024 = true → s.clear true [] = true → s.myPart.debugOn = true → s.unspilled → (∃ c ∈ s.copies, c.group = s.me.seq) →
      ∃ t o, exec (.bkpt i) s = .next t ∧ Kept s t ∧ t.me.path? s.me.cur = some o ∧ o.holdAsked = some 0 ∧ o.holdId = i.toNat ∧ o.pc = s.path.pc
        ∧ o.member = s.path.member ∧ o.exm = s.path.exm := by
  intro s i hl hc hd hu ⟨c, hcm, hce⟩
  have hp := State.unspilled_path hu
  have hct : (s.copies.any fun c => c.group == s.me.seq) = true := List.any_eq_true.mpr ⟨c, hcm, by simpa using hce⟩
  have hex : exec (.bkpt i) s = .next (((s.count {}).charge {}).setPath fun p => { p with holdAsked := some 0, holdId := i.toNat }) := by
    refine next_of ((State.checked_own hl hc (by simp)).trans ?_)
    simp only [hd, if_true, hct]
  rw [hex]
  have hcp := count_path? s {}
  have hck := count_kept s {}
  have hcur : ((s.count {}).charge {}).me.cur = s.me.cur := by simp [State.charge, State.count, Group.noteIssue]
  generalize (s.count {}).charge {} = r at *
  have hpc := hcp s.me.cur
  rw [if_pos rfl, hp] at hpc
  obtain ⟨t, ht, hme, hto⟩ : ∃ t : State, t = (r.setPath fun p => { p with holdAsked := some 0, holdId := i.toNat })
      ∧ t.me = r.me.setPath r.me.cur (fun p => { p with holdAsked := some 0, holdId := i.toNat }) ∧ t.others = r.others := ⟨_, rfl, rfl, rfl⟩
  rw [← ht]
  have hpt : t.me.path? s.me.cur = (r.me.path? s.me.cur).map fun p => { p with holdAsked := some 0, holdId := i.toNat } := by
    rw [hme, hcur, Group.path?_setPath, if_pos rfl]
  rw [hpc] at hpt
  refine ⟨t, _, rfl, kept_still hck (by rw [hme, Group.still_setPath]) hto, hpt, rfl, rfl, rfl, rfl, rfl⟩

end Sys2Proof.Machine
end

