-- ==== Sys2Proof/Laws/TrustForms.lean ====
section
/-! SUPPORT. Requests, sessions, interfaces, partitions and board keys: the lemmas their statements rest on. -/

namespace Sys2Proof.Machine

theorem answering_def (s : State) (a b c : Nat) : s.answerMsg a b c = s.answering a b c := rfl
theorem session_id (s : State) (n : Nat) : (s.session n).id = n := by
  unfold State.session
  cases h : s.sessions.find? (·.id == n) with
  | none => rfl
  | some x => simpa using List.find?_some h
theorem find_filter_ne (l : List Session) (a n : Nat) (h : n ≠ a) : (l.filter (·.id != a)).find? (·.id == n) = l.find? (·.id == n) := by
  rw [List.find?_filter]
  congr 1; funext x
  by_cases hx : x.id = n
  · simp [hx, h]
  · simp [hx]
theorem spdm_yes {s : State} {n : Nat} {b : Bool} {f : State → State} (hl : s.linkUp = true) (hb : b = true) : s.spdm n b f = .next (f s) := by
  unfold State.spdm State.onLink; dsimp only; rw [if_pos hl, if_pos hb]
theorem spdm_no {s : State} {n : Nat} {b : Bool} {f : State → State} (hl : s.linkUp = true) (hb : b = false) : s.spdm n b f = .next (s.answering n 0 0) := by
  unfold State.spdm State.onLink; dsimp only; rw [if_pos hl, hb]; rfl
theorem spdm_down {s : State} {n : Nat} {b : Bool} {f : State → State} (hl : s.linkUp = false) : s.spdm n b f = .next s := by
  unfold State.spdm State.onLink; rw [hl]; rfl
theorem request_form_of (i : Instr) (sess : Nat) (ok : State → Bool) (kind : Nat) (content : State → Nat) (f : Session → Session) (hf : ∀ x, (f x).id = x.id)
    (he : ∀ s, exec i s = s.spdm sess (ok s) fun s => (s.setSession sess f).answerMsg sess kind (content s)) : RequestForm i sess 0 ok kind content f := by
  refine ⟨fun s hl hk => ?_, fun s hl hk => ?_, fun s hl => ?_⟩
  · refine ⟨f (s.session sess) :: s.sessions.filter (·.id != sess), ?_, ?_, fun n hn => ?_⟩
    · rw [he, spdm_yes hl hk]; rfl
    · rw [List.find?_cons_of_pos]; rfl; simp [hf, session_id]
    · rw [List.find?_cons_of_neg, find_filter_ne _ _ _ hn]; simp [hf, session_id]; exact fun h => hn h.symm
  · rw [he, spdm_no hl hk]
  · rw [he, spdm_down hl]
theorem form_id (i : Instr) (sess : Nat) (ok : State → Bool) (kind : Nat) (content : State → Nat)
    (he : ∀ s, exec i s = s.spdm sess (ok s) fun s => s.answerMsg sess kind (content s)) : RequestForm i sess 0 ok kind content id := by
  refine ⟨fun s hl hk => ?_, fun s hl hk => ?_, fun s hl => ?_⟩
  · refine ⟨s.sessions, ?_, rfl, fun n hn => rfl⟩
    rw [he, spdm_yes hl hk]; rfl
  · rw [he, spdm_no hl hk]
  · rw [he, spdm_down hl]
theorem fold_same {α β : Type} (f : β → α → β) (s : β) (l : List α) (h : ∀ a ∈ l, f s a = s) : l.foldl f s = s := by
  induction l with
  | nil => rfl
  | cons a l ih => rw [List.foldl_cons, h a (by simp)]; exact ih fun b hb => h b (by simp [hb])
theorem tdisp_yes {s : State} {n vf : Nat} {ok : Partition → Bool} {f : Nat → State → State} (hl : s.linkUp = true)
    (h : ((s.session n).secured && decide (1 ≤ vf) && decide (vf ≤ 8) && ok (s.part (vf - 1))) = true) : s.tdisp n vf ok f = .next (f (vf - 1) s) := by
  unfold State.tdisp State.onLink; dsimp only; rw [if_pos hl, if_pos h]
theorem tdisp_no {s : State} {n vf : Nat} {ok : Partition → Bool} {f : Nat → State → State} (hl : s.linkUp = true)
    (h : ((s.session n).secured && decide (1 ≤ vf) && decide (vf ≤ 8) && ok (s.part (vf - 1))) = false) : s.tdisp n vf ok f = .next (s.answering n 0x80 0) := by
  unfold State.tdisp State.onLink; dsimp only; rw [if_pos hl, h]; rfl
theorem tdisp_down {s : State} {n vf : Nat} {ok : Partition → Bool} {f : Nat → State → State} (hl : s.linkUp = false) : s.tdisp n vf ok f = .next s := by
  unfold State.tdisp State.onLink; rw [hl]; rfl
theorem query_form_of (i : Instr) (sess vf : Nat) (okp : Partition → Bool) (ok : State → Bool) (kind : Nat) (content : State → Nat)
    (hok : ∀ s, ok s = ((s.session sess).secured && decide (1 ≤ vf) && decide (vf ≤ 8) && okp (s.part (vf - 1))))
    (f : Nat → State → State) (he : ∀ s, exec i s = s.tdisp sess vf okp f) (hf : ∀ s, f (vf - 1) s = s.answerMsg sess kind (content s)) : RequestForm i sess 0x80 ok kind content id := by
  refine ⟨fun s hl hk => ?_, fun s hl hk => ?_, fun s hl => ?_⟩
  · refine ⟨s.sessions, ?_, rfl, fun n hn => rfl⟩
    rw [he, tdisp_yes hl (by rw [← hok]; exact hk), hf]; rfl
  · rw [he, tdisp_no hl (by rw [← hok]; exact hk)]
  · rw [he, tdisp_down hl]
theorem interface_form_of (i : Instr) (sess vf : Nat) (ok : Partition → Bool) (f : Nat → State → State) (g : State → State) (he : ∀ s, exec i s = s.tdisp sess vf ok f)
    (hg : ∀ s, 1 ≤ vf → f (vf - 1) s = g s) : InterfaceForm i sess vf ok g := by
  refine ⟨fun s hl h1 h2 h3 h4 => ?_, fun s hl h => ?_, fun s hl => ?_⟩
  · rw [he, tdisp_yes hl (by simp [h1, h2, h3, h4]), hg s h2]
  · rw [he, tdisp_no hl]
    rcases h with h | h | h | h
    · simp [h]
    · simp; intros; omega
    · simp; intros; omega
    · simp [h]
  · rw [he, tdisp_down hl]
theorem State.setPart_same {s : State} {n : Nat} (f : Partition → Partition) (h : f (s.part n) = s.part n) (hn : n < 8) : s.setPart n f = s := by
  unfold State.setPart; rw [dif_pos hn]
  have : s.parts[n] = s.part n := by unfold State.part; simp [hn]
  rw [this, h, ← this]; simp
theorem State.setPart_other {s : State} {n m : Nat} (f : Partition → Partition) (h : m ≠ n) : (s.setPart n f).part m = s.part m := by
  unfold State.setPart State.part
  split
  · simp [Vector.getElem?_set, Ne.symm h]
  · rfl
theorem announce_eq (s : State) (p : Nat) : s.announce p = { s with msix := s.msix ++ [(p + 1, 5), (0, 3)] } := by
  unfold State.announce State.msi; dsimp only; rw [List.append_assoc]; rfl
theorem get_filter (f : Nat → Bool) (m : List Host.Cell) (a : Nat) : Memory.get (m.filter fun c => f c.1) a = if f a then Memory.get m a else 0 := by
  induction m with
  | nil => cases f a <;> rfl
  | cons c m ih =>
    rw [List.filter_cons]
    by_cases hf : f c.1 = true
    · rw [if_pos hf, Memory.get_cons, Memory.get_cons, ih]
      by_cases hc : c.1 = a
      · rw [if_pos hc, if_pos hc, if_pos (by rw [← hc]; exact hf)]
      · rw [if_neg hc, if_neg hc]
    · rw [if_neg hf, ih, Memory.get_cons]
      by_cases hc : c.1 = a
      · rw [if_neg (by rw [← hc]; exact hf), if_neg (by rw [← hc]; exact hf)]
      · rw [if_neg hc]
theorem report_ok (sess vf : Nat) (ok : State → Bool) (hok : ok = (fun s : State => (s.session sess).secured && decide (1 ≤ vf) && decide (vf ≤ 8))) :
    RequestForm (.getDeviceInterfaceReport sess vf) sess 0x80 (fun s => ok s && (s.part (vf - 1)).state != .none) 0x84
      (fun s => leNat (s.part (vf - 1)).descriptor + 2 ^ 2048 * (((s.measurement (0x10 + (vf - 1))).map BitVec.toNat).getD 0)) id := by
  have he : ∀ s, exec (.getDeviceInterfaceReport sess vf) s = execGetDeviceInterfaceReport sess vf s := fun _ => rfl
  unfold execGetDeviceInterfaceReport at he
  generalize (2 ^ 2048 : Nat) = big at he ⊢
  exact query_form_of _ _ vf (fun q => q.state != .none) _ _ _ (fun s => by rw [hok]) _ he fun _ => rfl
theorem create_some {s x : State} {p : Nat} (h : s.create p = some x) : s.partCommand 1 p = { x with partCmd := BitVec.ofNat 32 (8 + p) } := by
  unfold State.partCommand; simp only [h]
theorem create_none {s : State} {p : Nat} (h : s.create p = none) : s.partCommand 1 p = { s with partCmd := BitVec.ofNat 32 (8 + p) ||| 0x80000000 } := by
  unfold State.partCommand; simp only [h]
theorem destroy_some {s x : State} {p : Nat} (h : s.destroy p = some x) : s.partCommand 2 p = { x with partCmd := BitVec.ofNat 32 (16 + p) } := by
  unfold State.partCommand; simp only [h]
theorem destroy_none {s : State} {p : Nat} (h : s.destroy p = none) : s.partCommand 2 p = { s with partCmd := BitVec.ofNat 32 (16 + p) ||| 0x80000000 } := by
  unfold State.partCommand; simp only [h]
theorem start_some {s x : State} {p : Nat} (h : s.start p = some x) : s.partCommand 3 p = { x with partCmd := BitVec.ofNat 32 (24 + p) } := by
  unfold State.partCommand; simp only [h]
theorem start_none {s : State} {p : Nat} (h : s.start p = none) : s.partCommand 3 p = { s with partCmd := BitVec.ofNat 32 (24 + p) ||| 0x80000000 } := by
  unfold State.partCommand; simp only [h]
theorem stop_some {s x : State} {p : Nat} (h : s.stop p = some x) : s.partCommand 4 p = { x with partCmd := BitVec.ofNat 32 (32 + p) } := by
  unfold State.partCommand; simp only [h]
theorem stop_none {s : State} {p : Nat} (h : s.stop p = none) : s.partCommand 4 p = { s with partCmd := BitVec.ofNat 32 (32 + p) ||| 0x80000000 } := by
  unfold State.partCommand; simp only [h]
def queues_stand (q : Partition) : Partition :=
  let q := q.setReg 0x963 (q.reg 0x970 0)
  let q := q.setReg 0x967 (q.reg 0x971 0)
  let q := q.setReg 0x96B (q.reg 0x972 0)
  q.setReg 0x96F (q.reg 0x973 0)
theorem reg_same (q : Partition) (n : Nat) (v d : Word) : (q.setReg n v).reg n d = v := lookD_put_same _ _ _ _
theorem reg_other (q : Partition) {n m : Nat} (v d : Word) (h : m ≠ n) : (q.setReg n v).reg m d = q.reg m d := lookD_put_other _ _ _ h
theorem heads_reg (q : Partition) (k : Nat) (hk : k < 4) : (queues_stand q).reg (0x963 + 4 * k) 0 = q.reg (0x970 + k) 0 := by
  unfold queues_stand
  obtain rfl | rfl | rfl | rfl : k = 0 ∨ k = 1 ∨ k = 2 ∨ k = 3 := by omega
  all_goals simp [reg_same, reg_other]
theorem heads_base (q : Partition) : (queues_stand q).reg2 0x870 = q.reg2 0x870 := by
  unfold queues_stand Partition.reg2
  simp [reg_same, reg_other]
def keysets_stand (q : Partition) : Partition := if q.ksPending.isSome then q.setReg 0x978 6 else q
theorem kept_sealed (q : Partition) : (keysets_stand q).isSealed = q.isSealed := by unfold keysets_stand; split <;> rfl
theorem kept_reg (q : Partition) {n : Nat} (h : n ≠ 0x978) : (keysets_stand q).reg n 0 = q.reg n 0 := by
  unfold keysets_stand; split
  · exact reg_other _ _ _ h
  · rfl
def unit0 (q : Partition) : Partition := { queues_stand q with vslots := [], ttCaptured := [], designated := false, unveiling := none, armLater := none, armed := false }
def store0 (q : Partition) : Partition := { keysets_stand q with faults := [], records := [], ksPending := none, sysTask := none }
def final0 (q : Partition) : Partition := { q with state := .unlocked, stopping := false, evicted := false, lockSession := none, lockCapture := [], memoryKey := none }
theorem heads_sealed (q : Partition) : (queues_stand q).isSealed = q.isSealed := rfl
theorem unit0_reg (q : Partition) (n : Nat) : (unit0 q).reg n 0 = (queues_stand q).reg n 0 := rfl
theorem unit0_sealed (q : Partition) : (unit0 q).isSealed = q.isSealed := heads_sealed q
theorem store0_reg (q : Partition) (n : Nat) : (store0 q).reg n 0 = (keysets_stand q).reg n 0 := rfl
theorem store0_sealed (q : Partition) : (store0 q).isSealed = q.isSealed := kept_sealed q
theorem final0_reg (q : Partition) (n : Nat) : (final0 q).reg n 0 = q.reg n 0 := rfl
theorem units_eq {u : State} {p : Nat} (h : (u.part p).vslots = []) : u.stopUnits p = u.setPart p unit0 := by
  unfold State.stopUnits
  rw [h]; rfl
theorem stores_eq {v : State} {p : Nat} (h : (v.part p).reg2 0x870 = 0) : v.stopStores p = (v.clearKeys p).setPart p store0 := by
  unfold State.stopStores
  dsimp only
  generalize v.atelierWrite p _ _ = r
  cases r with
  | error _ => rfl
  | ok x => dsimp only; rw [if_pos h]; rfl
theorem finish_eq {u v w : State} {p : Nat} (hv : u.stopUnits p = v) (hw : v.stopStores p = w) (hs : (w.part p).isSealed = false) :
    u.stopFinish p = (w.setPart p final0).announce p := by
  unfold State.stopFinish
  rw [hv, hw]
  dsimp only
  rw [hs]; rfl
theorem announce_keys (s : State) (p : Nat) : (s.announce p).keys = s.keys := rfl
theorem announce_dev (s : State) (p : Nat) : (s.announce p).dev = s.dev := rfl
theorem announce_part (s : State) (p n : Nat) : (s.announce p).part n = s.part n := rfl
theorem clear_keys (s : State) (p : Nat) : (s.clearKeys p).keys = s.keys.filter (fun k => k.2.2 != p) := rfl
theorem clear_dev (s : State) (p : Nat) : (s.clearKeys p).dev = s.dev := rfl
theorem clear_part (s : State) (p n : Nat) : (s.clearKeys p).part n = s.part n := rfl
theorem stop_finish {u : State} {p : Nat} (hp : p < 8) (h1 : (u.part p).isSealed = false) (h2 : (u.part p).vslots = []) (h3 : (u.part p).reg2 0x870 = 0) :
    ((u.stopFinish p).part p).state = .unlocked ∧ ((u.stopFinish p).part p).stopping = false ∧ ((u.stopFinish p).part p).faults = [] ∧ ((u.stopFinish p).part p).records = []
      ∧ (∀ k, k < 4 → ((u.stopFinish p).part p).reg (0x963 + 4 * k) 0 = (u.part p).reg (0x970 + k) 0) ∧ (u.stopFinish p).keys = u.keys.filter (fun k => k.2.2 != p)
      ∧ (u.stopFinish p).dev = u.dev ∧ ∀ n, n ≠ p → (u.stopFinish p).part n = u.part n := by
  have e1 := units_eq h2
  have hvp : (u.setPart p unit0).part p = unit0 (u.part p) := State.setPart_part _ hp
  have hvr : ((u.setPart p unit0).part p).reg2 0x870 = 0 := by
    unfold Partition.reg2; rw [hvp, unit0_reg, unit0_reg]; exact (heads_base _).trans h3
  have e2 := stores_eq hvr
  have hwp : (((u.setPart p unit0).clearKeys p).setPart p store0).part p = store0 (unit0 (u.part p)) := by
    rw [State.setPart_part _ hp]; exact congrArg store0 hvp
  have e3 := finish_eq e1 e2 (by rw [hwp, store0_sealed, unit0_sealed]; exact h1)
  have hpp : (u.stopFinish p).part p = final0 (store0 (unit0 (u.part p))) := by
    rw [e3]; exact (State.setPart_part _ hp).trans (congrArg final0 hwp)
  refine ⟨by rw [hpp]; rfl, by rw [hpp]; rfl, by rw [hpp]; rfl, by rw [hpp]; rfl, fun k hk => ?_, ?_, ?_, fun n hn => ?_⟩
  · rw [hpp, final0_reg, store0_reg, kept_reg _ (by omega), unit0_reg]
    exact heads_reg (u.part p) k hk
  · rw [e3, announce_keys, State.setPart_keys, State.setPart_keys, clear_keys, State.setPart_keys]
  · rw [e3, announce_dev, State.setPart_dev, State.setPart_dev, clear_dev, State.setPart_dev]
  · rw [e3, announce_part, State.setPart_other _ hn, State.setPart_other _ hn, clear_part, State.setPart_other _ hn]
theorem stop_begin {s : State} {p : Nat} (hp : p < 8) (h5 : (s.part p).tasks = []) (h6 : (s.part p).unveiling = none) :
    s.stopBegin p = (s.setPart p fun q => { q with stopping := true }).stopFinish p := by
  unfold State.stopBegin
  generalize hu : (s.setPart p fun q => { q with stopping := true }) = u
  have hup : u.part p = { s.part p with stopping := true } := by rw [← hu]; exact State.setPart_part _ hp
  have ht : (u.part p).tasks = [] := by rw [hup]; exact h5
  have hv : (u.part p).unveiling = none := by rw [hup]; exact h6
  have hs : (u.part p).stopping = true := by rw [hup]
  clear hup hu
  unfold State.stopAdvance
  rw [if_neg (by unfold Partition.stopReady; rw [hs, hv]; simp)]
  have hk : u.killAll p = u := by unfold State.killAll; rw [ht]; rfl
  dsimp only
  rw [hk, if_pos (by rw [ht]; rfl)]
theorem stop_whole {s : State} {p : Nat} (hp : p < 8) (h1 : (s.part p).stopping = false) (h2 : (s.part p).state = .run) (h3 : (s.part p).isSealed = false) (h4 : (s.part p).lockSession = none)
    (h5 : (s.part p).tasks = []) (h6 : (s.part p).unveiling = none) (h7 : (s.part p).vslots = []) (h8 : (s.part p).reg2 0x870 = 0) :
    ∃ t, exec (.partStop p) s = .next t ∧ (t.part p).state = .unlocked ∧ (t.part p).stopping = false
      ∧ (t.part p).faults = [] ∧ (t.part p).records = [] ∧ (∀ k, k < 4 → (t.part p).reg (0x963 + 4 * k) 0 = (s.part p).reg (0x970 + k) 0) ∧ t.keys = s.keys.filter (fun k => k.2.2 != p)
      ∧ t.dev = s.dev ∧ t.partCmd = BitVec.ofNat 32 (32 + p) ∧ ∀ n, n ≠ p → t.part n = s.part n := by
  have e : s.stop p = some (s.stopBegin p) := by
    unfold State.stop; dsimp only; rw [if_pos (by simp [h2, h4])]
  refine ⟨{ s.stopBegin p with partCmd := BitVec.ofNat 32 (32 + p) }, ?_, ?_⟩
  · show execPartStop p s = _
    rw [execPartStop, h1, if_neg (by simp), if_pos hp, stop_some e]
  rw [stop_begin hp h5 h6]
  generalize hu : (s.setPart p fun q => { q with stopping := true }) = u
  have hup : u.part p = { s.part p with stopping := true } := by rw [← hu]; exact State.setPart_part _ hp
  have g1 : (u.part p).isSealed = false := by rw [hup]; exact h3
  have g2 : (u.part p).vslots = [] := by rw [hup]; exact h7
  have g3 : (u.part p).reg2 0x870 = 0 := by rw [hup]; exact h8
  have g4 : ∀ n, (u.part p).reg n 0 = (s.part p).reg n 0 := by intro n; rw [hup]; rfl
  clear hup
  have huo : ∀ n, n ≠ p → u.part n = s.part n := by intro n hn; rw [← hu]; exact State.setPart_other _ hn
  have hkeys : u.keys = s.keys := by rw [← hu]; simp
  have hdev : u.dev = s.dev := by rw [← hu]; simp
  have f := stop_finish hp (u := u) g1 g2 g3
  obtain ⟨a1, a2, a3, a4, a5, a6, a7, a8⟩ := f
  refine ⟨a1, a2, a3, a4, fun k hk => ?_, ?_, ?_, rfl, fun n hn => ?_⟩
  · rw [show State.part { u.stopFinish p with partCmd := BitVec.ofNat 32 (32 + p) } p = (u.stopFinish p).part p from rfl, a5 k hk, g4]
  · exact a6.trans (by rw [hkeys])
  · exact a7.trans hdev
  · exact (a8 n hn).trans (huo n hn)
theorem destroy_shape (s : State) (p : Nat) (f : Partition → Partition) (k : List ((Nat × Nat) × BitVec 256 × Nat)) (a b : List (Nat × List (Nat × Nat × Nat))) :
    { s with keys := k, tlb := a, tlb2 := b }.setPart p f = { s.setPart p f with keys := k, tlb := a, tlb2 := b } := by
  unfold State.setPart; split <;> rfl
abbrev KeyEntry := (Nat × Nat) × (BitVec 256 × Nat)
def oneKey (p slot : Nat) (key : Option (BitVec 256)) (l : List KeyEntry) (t : Nat) : List KeyEntry :=
  let rest := l.filter fun (x : KeyEntry) => x.1 != (t, slot)
  match key with
  | some k => rest ++ [((t, slot), (k, p))]
  | none => rest
theorem load_keys (s : State) (p slot : Nat) (key : Option (BitVec 256)) : (s.loadKey p slot key).keys = (s.part p).cores.foldl (oneKey p slot key) s.keys := by
  unfold State.loadKey
  generalize (s.part p).cores = l
  induction l generalizing s with
  | nil => rfl
  | cons t l ih => rw [List.foldl_cons, List.foldl_cons, ih]; rfl
theorem one_other (p slot : Nat) (key : Option (BitVec 256)) (l : List KeyEntry) (t : Nat) (k : Nat × Nat) (h : k ≠ (t, slot)) :
    (oneKey p slot key l t).find? (fun x => x.1 == k) = l.find? fun x => x.1 == k := by
  have e : (l.filter fun (x : KeyEntry) => x.1 != (t, slot)).find? (fun x => x.1 == k) = l.find? fun x => x.1 == k := by
    rw [List.find?_filter]
    congr 1; funext x
    by_cases hx : x.1 = k
    · simp [hx, h]
    · simp [hx]
  unfold oneKey
  cases key with
  | none => exact e
  | some k2 =>
    dsimp only
    rw [List.find?_append, e, List.find?_cons_of_neg]
    · simp
    · simpa using fun hh => h hh.symm
theorem one_same (p slot : Nat) (key : Option (BitVec 256)) (l : List KeyEntry) (t : Nat) :
    (oneKey p slot key l t).find? (fun x => x.1 == (t, slot)) = key.map fun k => ((t, slot), (k, p)) := by
  have e : (l.filter fun (x : KeyEntry) => x.1 != (t, slot)).find? (fun x => x.1 == (t, slot)) = none := by
    rw [List.find?_eq_none]; intro x hx; have := (List.mem_filter.mp hx).2; simpa using this
  unfold oneKey
  cases key with
  | none => exact e
  | some k2 => dsimp only; rw [List.find?_append, e]; simp
theorem fold_other_key (p slot : Nat) (key : Option (BitVec 256)) (k : Nat × Nat) (ts : List Nat) (h : ∀ t ∈ ts, k ≠ (t, slot)) (l : List KeyEntry) :
    (ts.foldl (oneKey p slot key) l).find? (fun x => x.1 == k) = l.find? fun x => x.1 == k := by
  induction ts generalizing l with
  | nil => rfl
  | cons t ts ih => rw [List.foldl_cons, ih (fun a ha => h a (by simp [ha])), one_other _ _ _ _ _ _ (h t (by simp))]
theorem fold_in (p slot : Nat) (key : Option (BitVec 256)) (t : Nat) (ts : List Nat) (l : List KeyEntry) (h : t ∈ ts ∨ l.find? (fun x => x.1 == (t, slot)) = key.map fun k => ((t, slot), (k, p))) :
    (ts.foldl (oneKey p slot key) l).find? (fun x => x.1 == (t, slot)) = key.map fun k => ((t, slot), (k, p)) := by
  induction ts generalizing l with
  | nil => simpa using h
  | cons a ts ih =>
    rw [List.foldl_cons]
    by_cases ha : t = a
    · subst ha; exact ih _ (.inr (one_same ..))
    · refine ih _ ?_
      rcases h with h | h
      · rcases List.mem_cons.mp h with h | h
        · exact absurd h ha
        · exact .inl h
      · right; rw [one_other]; exact h; simpa using ha

end Sys2Proof.Machine
end

