-- ==== Sys2Proof/Laws/UnsealedMeanings.lean ====
section
/-! SUPPORT. Every meaning leaves an unsealed partition unlocked and out of ERROR. -/

namespace Sys2Proof.Machine

theorem execPartStop_open {p : Nat} {s : State} (h0 : Open s) : OutOpen (execPartStop p s) := by
  unfold execPartStop
  with_reducible repeat' (first | assumption | apply State.stopAdvance_open | apply State.partCommand_open | apply OutOpen.mk | dsimp only [id_eq, Open, OpenPart] | split)
theorem execAtadd_open {d : BitVec 6} {a : BitVec 6} {b : BitVec 6} {u : Bool} {v : Bool} {z : Bool} {r : BitVec 3} {s : State} (h0 : Open s) : OutOpen (execAtadd d a b u v z r s) := by
  unfold execAtadd
  with_reducible repeat' (first | assumption | apply State.atomicOp_open)
theorem execRevolution_open {slot : Nat} {s : State} (h0 : Open s) : OutOpen (execRevolution slot s) := by
  unfold execRevolution
  with_reducible repeat' (first | assumption | apply State.setSlot_open | apply OutOpen.mk | dsimp only [id_eq, Open, OpenPart] | split)
theorem execModerd_open {d : BitVec 6} {w : BitVec 2} {s : State} (h0 : Open s) : OutOpen (execModerd d w s) := by
  unfold execModerd
  with_reducible repeat' (first | assumption | apply State.once_open | apply State.putS_open | apply OutOpen.mk | intro _)
theorem execChainEnd_open {e : Nat} {p : Nat} {s : State} (h0 : Open s) : OutOpen (execChainEnd e p s) := by
  unfold execChainEnd
  with_reducible repeat' (first | assumption | apply State.resolveChain_open | refine State.nextEntry_open_of (by assumption) ?_ | apply State.illFormed_open | apply OutOpen.mk | dsimp only [id_eq, Open, OpenPart] | split)
theorem execTtcas_open {d : BitVec 6} {a : BitVec 6} {b : BitVec 6} {r : Bool} {q : Bool} {w : BitVec 3} {s : State} (h0 : Open s) : OutOpen (execTtcas d a b r q w s) := by
  unfold execTtcas
  with_reducible repeat' (first | assumption | apply State.ttOp_open | apply State.putCMBit_open | apply State.putWords_open | intro _)
theorem execFceq_open {d : BitVec 6} {a : BitVec 6} {b : BitVec 6} {w : BitVec 2} {u : Bool} {x : Bool} {y : Bool} {s : State} (h0 : Open s) : OutOpen (execFceq d a b w u x y s) := by
  unfold execFceq
  with_reducible repeat' (first | assumption | apply State.fcmp_open)
theorem execBrc_open {c : BitVec 6} {i : BitVec 18} {s : State} (h0 : Open s) : OutOpen (execBrc c i s) := by
  unfold execBrc
  with_reducible repeat' (first | assumption | apply State.checked_open | apply State.branch_open | apply OutOpen.mk | intro _)
theorem execGetDeviceInterfaceReport_open {sess : Nat} {vf : Nat} {s : State} (h0 : Open s) : OutOpen (execGetDeviceInterfaceReport sess vf s) := by
  unfold execGetDeviceInterfaceReport
  with_reducible repeat' (first | assumption | apply State.tdisp_open | apply State.answerMsg_open | intro _)
theorem execShflx_open {d : BitVec 6} {a : BitVec 6} {b : BitVec 6} {w : BitVec 2} {x : Bool} {s : State} (h0 : Open s) : OutOpen (execShflx d a b w x s) := by
  unfold execShflx
  with_reducible repeat' (first | assumption | apply State.shuffle_open)
theorem execReddotc_open {d : BitVec 6} {a : BitVec 6} {b : BitVec 6} {w : BitVec 2} {x : Bool} {y : Bool} {s : State} (h0 : Open s) : OutOpen (execReddotc d a b w x y s) := by
  unfold execReddotc
  with_reducible repeat' (first | assumption | apply State.reduce_open | apply OutOpen.mk)
theorem execLinkDown_open {s : State} (h0 : Open s) : OutOpen (execLinkDown s) := by
  unfold execLinkDown
  with_reducible repeat' (first | assumption | apply State.onLink_open | apply State.linkReset_open | apply OutOpen.mk)
theorem execBkscal_open {d : BitVec 6} {a : BitVec 6} {b : BitVec 6} {s : State} (h0 : Open s) : OutOpen (execBkscal d a b s) := by
  unfold execBkscal
  with_reducible repeat' (first | assumption | apply State.bankFill_open)
theorem execBfi_open {d : BitVec 6} {a : BitVec 6} {b : BitVec 6} {u : Bool} {s : State} (h0 : Open s) : OutOpen (execBfi d a b u s) := by
  unfold execBfi
  with_reducible repeat' (first | assumption | apply State.tri_open | apply OutOpen.mk)
theorem execHostAccess_open {write : Bool} {addr : Nat} {bytes : List Byte} {s : State} (h0 : Open s) : OutOpen (execHostAccess write addr bytes s) := by
  unfold execHostAccess
  with_reducible repeat' (first | assumption | apply State.hostWriteRun_open | apply OutOpen.mk | apply foldl_open | intro _ | dsimp only [id_eq, Open, OpenPart] | split)
theorem execShr_open {d : BitVec 6} {a : BitVec 6} {b : BitVec 6} {w : BitVec 2} {u : Bool} {x : Bool} {y : Bool} {s : State} (h0 : Open s) : OutOpen (execShr d a b w u x y s) := by
  unfold execShr
  with_reducible repeat' (first | assumption | apply State.logic_open)
theorem execFcos_open {d : BitVec 6} {a : BitVec 6} {w : BitVec 2} {u : Bool} {x : Bool} {s : State} (h0 : Open s) : OutOpen (execFcos d a w u x s) := by
  unfold execFcos
  with_reducible repeat' (first | assumption | apply State.special_open)
theorem execAtxor_open {d : BitVec 6} {a : BitVec 6} {b : BitVec 6} {u : Bool} {v : Bool} {z : Bool} {r : BitVec 3} {s : State} (h0 : Open s) : OutOpen (execAtxor d a b u v z r s) := by
  unfold execAtxor
  with_reducible repeat' (first | assumption | apply State.atomicOp_open)
theorem execTeamRestore_open {team : Nat} {s : State} (h0 : Open s) : OutOpen (execTeamRestore team s) := by
  unfold execTeamRestore
  with_reducible repeat' (first | assumption | apply State.restoreTeam_open | apply State.reboard_open | apply OutOpen.mk | apply foldl_open | intro _ | dsimp only [id_eq, Open, OpenPart] | split)
theorem execGetDigests_open {sess : Nat} {s : State} (h0 : Open s) : OutOpen (execGetDigests sess s) := by
  unfold execGetDigests
  with_reducible repeat' (first | assumption | apply State.spdm_open | apply State.answerMsg_open | intro _)
theorem execFsub_open {d : BitVec 6} {a : BitVec 6} {b : BitVec 6} {w : BitVec 2} {u : Bool} {x : Bool} {y : Bool} {s : State} (h0 : Open s) : OutOpen (execFsub d a b w u x y s) := by
  unfold execFsub
  with_reducible repeat' (first | assumption | apply State.bin_open | apply OutOpen.mk)
theorem execNegotiateAlgorithms_open {sess : Nat} {ok : Bool} {s : State} (h0 : Open s) : OutOpen (execNegotiateAlgorithms sess ok s) := by
  unfold execNegotiateAlgorithms
  with_reducible repeat' (first | assumption | apply State.spdm_open | apply State.answerMsg_open | apply State.setSession_open | intro _)
theorem execLoopk_open {c : BitVec 2} {l : BitVec 8} {n : BitVec 10} {s : State} (h0 : Open s) : OutOpen (execLoopk c l n s) := by
  unfold execLoopk
  with_reducible repeat' (first | assumption | apply State.illopU_open | apply State.checked_open | apply State.loopOn_open | apply OutOpen.mk | intro _ | dsimp only [id_eq, Open, OpenPart] | split)
theorem execLdw_open {d : BitVec 6} {a : BitVec 6} {u : Bool} {off : BitVec 8} {r : BitVec 3} {s : State} (h0 : Open s) : OutOpen (execLdw d a u off r s) := by
  unfold execLdw
  with_reducible repeat' (first | assumption | apply State.load_open)
theorem execDwceq_open {d : BitVec 6} {a : BitVec 6} {b : BitVec 6} {w : BitVec 2} {u : Bool} {x : Bool} {y : Bool} {s : State} (h0 : Open s) : OutOpen (execDwceq d a b w u x y s) := by
  unfold execDwceq
  with_reducible repeat' (first | assumption | apply State.dwCmp_open)
theorem execEngineJobComplete_open {e : Nat} {s : State} (h0 : Open s) : OutOpen (execEngineJobComplete e s) := by
  unfold execEngineJobComplete
  with_reducible repeat' (first | assumption | apply State.setChain_open | apply State.engineStore_open | apply State.leaveUnit_open | apply State.dropChain_open | apply State.countStale_open | apply State.setTeam_open | apply State.resolveChain_open | apply OutOpen.mk | dsimp only [id_eq, Open, OpenPart] | split)
theorem execIdeStreamInsecure_open {vf : Nat} {s : State} (h0 : Open s) : OutOpen (execIdeStreamInsecure vf s) := by
  unfold execIdeStreamInsecure
  with_reducible repeat' (first | assumption | apply State.insecure_open | apply OutOpen.mk | dsimp only [id_eq, Open, OpenPart] | split)
theorem execFrsq_open {d : BitVec 6} {a : BitVec 6} {w : BitVec 2} {u : Bool} {x : Bool} {s : State} (h0 : Open s) : OutOpen (execFrsq d a w u x s) := by
  unfold execFrsq
  with_reducible repeat' (first | assumption | apply State.special_open)
theorem execCopyComplete_open {c : Nat} {s : State} (h0 : Open s) : OutOpen (execCopyComplete c s) := by
  unfold execCopyComplete
  with_reducible repeat' (first | assumption | apply State.copiesEnded_open | apply State.runCopy_open | apply OutOpen.mk | dsimp only [id_eq, Open, OpenPart] | split)
theorem execPoolDisable_open {p : Nat} {n : Nat} {s : State} (h0 : Open s) : OutOpen (execPoolDisable p n s) := by
  unfold execPoolDisable
  with_reducible repeat' (first | assumption | apply State.poolDisable_open | apply OutOpen.mk)
theorem execStd_open {d : BitVec 6} {a : BitVec 6} {u : Bool} {off : BitVec 8} {r : BitVec 3} {s : State} (h0 : Open s) : OutOpen (execStd d a u off r s) := by
  unfold execStd
  with_reducible repeat' (first | assumption | apply State.store_open)
theorem execIcne_open {d : BitVec 6} {a : BitVec 6} {b : BitVec 6} {w : BitVec 2} {u : Bool} {x : Bool} {y : Bool} {s : State} (h0 : Open s) : OutOpen (execIcne d a b w u x y s) := by
  unfold execIcne
  with_reducible repeat' (first | assumption | apply State.icmp_open)
theorem execFexp2_open {d : BitVec 6} {a : BitVec 6} {w : BitVec 2} {u : Bool} {x : Bool} {s : State} (h0 : Open s) : OutOpen (execFexp2 d a w u x s) := by
  unfold execFexp2
  with_reducible repeat' (first | assumption | apply State.special_open)
theorem execImaxu_open {d : BitVec 6} {a : BitVec 6} {b : BitVec 6} {w : BitVec 2} {u : Bool} {x : Bool} {y : Bool} {s : State} (h0 : Open s) : OutOpen (execImaxu d a b w u x y s) := by
  unfold execImaxu
  with_reducible repeat' (first | assumption | apply State.bin_open | apply OutOpen.mk)
theorem execFmul_open {d : BitVec 6} {a : BitVec 6} {b : BitVec 6} {w : BitVec 2} {u : Bool} {x : Bool} {y : Bool} {s : State} (h0 : Open s) : OutOpen (execFmul d a b w u x y s) := by
  unfold execFmul
  with_reducible repeat' (first | assumption | apply State.bin_open | apply OutOpen.mk)
theorem execRedmax_open {d : BitVec 6} {a : BitVec 6} {b : BitVec 6} {w : BitVec 2} {x : Bool} {s : State} (h0 : Open s) : OutOpen (execRedmax d a b w x s) := by
  unfold execRedmax
  with_reducible repeat' (first | assumption | apply State.extreme_open)
theorem execConvertCompress_open {e : Nat} {s : State} (h0 : Open s) : OutOpen (execConvertCompress e s) := by
  unfold execConvertCompress
  with_reducible repeat' (first | assumption | apply State.startJob_open | apply compressJob_open | apply OutOpen.mk)
theorem execPerstAssert_open {s : State} (h0 : Open s) : OutOpen (execPerstAssert s) := by
  unfold execPerstAssert
  with_reducible repeat' (first | assumption | apply State.linkReset_open | apply OutOpen.mk | dsimp only [id_eq, Open, OpenPart] | split)
theorem execIclti_open {d : BitVec 6} {a : BitVec 6} {u : Bool} {i : BitVec 11} {s : State} (h0 : Open s) : OutOpen (execIclti d a u i s) := by
  unfold execIclti
  with_reducible repeat' (first | assumption | apply State.icmpi_open)
theorem execFclass_open {d : BitVec 6} {a : BitVec 6} {w : BitVec 2} {u : Bool} {x : Bool} {s : State} (h0 : Open s) : OutOpen (execFclass d a w u x s) := by
  unfold execFclass
  with_reducible repeat' (first | assumption | apply State.una_open | apply OutOpen.mk)
theorem execPack8_open {d : BitVec 6} {a : BitVec 6} {b : BitVec 6} {u : Bool} {c : BitVec 4} {s : State} (h0 : Open s) : OutOpen (execPack8 d a b u c s) := by
  unfold execPack8
  with_reducible repeat' (first | assumption | apply State.calc_open | apply OutOpen.mk)
theorem execSpawn_open {d : BitVec 6} {a : BitVec 6} {w : BitVec 2} {s : State} (h0 : Open s) : OutOpen (execSpawn d a w s) := by
  unfold execSpawn
  with_reducible repeat' (first | assumption | apply State.checked_open | apply State.accesses_open | apply State.loadAccess_open | apply State.release_open | apply State.illopU_open | apply State.retire_open | apply State.putCMBit_open | apply State.putS_open | apply State.accept_open | apply OutOpen.mk | intro _ | dsimp only [id_eq, Open, OpenPart] | split)
theorem execFreeze_open {p : Nat} {on : Bool} {s : State} (h0 : Open s) : OutOpen (execFreeze p on s) := by
  unfold execFreeze
  with_reducible repeat' (first | assumption | apply State.setPart_open | apply Partition.setReg_open | apply OutOpen.mk | intro _ | dsimp only [id_eq, Open, OpenPart] | split)
theorem execHostRegisterWrite_open {off : Nat} {v : Word} {s : State} (h0 : Open s) : OutOpen (execHostRegisterWrite off v s) := by
  unfold execHostRegisterWrite
  with_reducible repeat' (first | assumption | apply State.onLink_open | apply State.hostPart_open | apply State.tileWrite_open | apply State.hostRefused_open | apply State.deviceWrite_open | apply getD_open | apply OutOpen.mk | intro _ | dsimp only [id_eq, Open, OpenPart] | split)
theorem execLoop_open {d : BitVec 6} {a : BitVec 6} {i : BitVec 11} {s : State} (h0 : Open s) : OutOpen (execLoop d a i s) := by
  unfold execLoop
  with_reducible repeat' (first | assumption | apply State.illopU_open | apply State.checked_open | apply State.loopOn_open | apply OutOpen.mk | intro _ | dsimp only [id_eq, Open, OpenPart] | split)
theorem execFmin_open {d : BitVec 6} {a : BitVec 6} {b : BitVec 6} {w : BitVec 2} {u : Bool} {x : Bool} {y : Bool} {s : State} (h0 : Open s) : OutOpen (execFmin d a b w u x y s) := by
  unfold execFmin
  with_reducible repeat' (first | assumption | apply State.bin_open | apply OutOpen.mk)
theorem execCaliperStart_open {p : Nat} {s : State} (h0 : Open s) : OutOpen (execCaliperStart p s) := by
  unfold execCaliperStart
  with_reducible repeat' (first | assumption | apply State.startTrial_open | apply OutOpen.mk | dsimp only [id_eq, Open, OpenPart] | split)
theorem execHoldPath_open {who : Nat} {p : Nat} {v : Word} {s : State} (h0 : Open s) : OutOpen (execHoldPath who p v s) := by
  unfold execHoldPath
  with_reducible repeat' (first | assumption | apply State.debugStep_open | apply OutOpen.mk)
theorem execHoldGroup_open {who : Nat} {p : Nat} {v : Word} {s : State} (h0 : Open s) : OutOpen (execHoldGroup who p v s) := by
  unfold execHoldGroup
  with_reducible repeat' (first | assumption | apply State.debugStep_open | apply OutOpen.mk)
theorem execFence_open {r : BitVec 3} {s : State} (h0 : Open s) : OutOpen (execFence r s) := by
  unfold execFence
  with_reducible repeat' (first | assumption | apply State.once_open | apply State.release_open | apply State.acquire_open | apply OutOpen.mk | intro _ | dsimp only [id_eq, Open, OpenPart] | split)
theorem execIdemb_open {w : BitVec 2} {s : State} (h0 : Open s) : OutOpen (execIdemb w s) := by
  unfold execIdemb
  with_reducible repeat' (first | assumption | apply State.once_open | apply State.withMe_open | apply OutOpen.mk | intro _ | dsimp only [id_eq, Open, OpenPart] | split)
theorem execMmwait_open {w : BitVec 2} {s : State} (h0 : Open s) : OutOpen (execMmwait w s) := by
  unfold execMmwait
  with_reducible repeat' (first | assumption | apply State.checked_open | apply State.block_open | apply State.orPoison_open | apply State.retire_open | apply State.acquire_open | apply OutOpen.mk | intro _ | dsimp only [id_eq, Open, OpenPart] | split)
theorem execBallot_open {d : BitVec 6} {a : BitVec 6} {b : BitVec 6} {w : BitVec 2} {s : State} (h0 : Open s) : OutOpen (execBallot d a b w s) := by
  unfold execBallot
  with_reducible repeat' (first | assumption | apply State.cross_open | apply OutOpen.mk)
theorem execAnd_open {d : BitVec 6} {a : BitVec 6} {b : BitVec 6} {w : BitVec 2} {u : Bool} {x : Bool} {y : Bool} {s : State} (h0 : Open s) : OutOpen (execAnd d a b w u x y s) := by
  unfold execAnd
  with_reducible repeat' (first | assumption | apply State.logic_open)
theorem execFshf_open {d : BitVec 6} {a : BitVec 6} {b : BitVec 6} {w : BitVec 2} {u : Bool} {x : Bool} {y : Bool} {z : Bool} {s : State} (h0 : Open s) : OutOpen (execFshf d a b w u x y z s) := by
  unfold execFshf
  with_reducible repeat' (first | assumption | apply State.tri_open | apply OutOpen.mk)
theorem execCpya_open {d : BitVec 6} {a : BitVec 6} {b : BitVec 6} {e : Bool} {k : BitVec 4} {s : State} (h0 : Open s) : OutOpen (execCpya d a b e k s) := by
  unfold execCpya
  with_reducible repeat' (first | assumption | apply State.checked_open | apply State.raise_open | apply State.copyIssue_open | apply State.startCopy_open | apply State.drainRange_open | apply OutOpen.mk | intro _ | dsimp only [id_eq, Open, OpenPart] | split)
theorem execFtanh_open {d : BitVec 6} {a : BitVec 6} {w : BitVec 2} {u : Bool} {x : Bool} {s : State} (h0 : Open s) : OutOpen (execFtanh d a w u x s) := by
  unfold execFtanh
  with_reducible repeat' (first | assumption | apply State.special_open)
theorem execGetTdispVersion_open {sess : Nat} {vf : Nat} {s : State} (h0 : Open s) : OutOpen (execGetTdispVersion sess vf s) := by
  unfold execGetTdispVersion
  with_reducible repeat' (first | assumption | apply State.tdisp_open | apply State.answerMsg_open | intro _)
theorem execFsin_open {d : BitVec 6} {a : BitVec 6} {w : BitVec 2} {u : Bool} {x : Bool} {s : State} (h0 : Open s) : OutOpen (execFsin d a w u x s) := by
  unfold execFsin
  with_reducible repeat' (first | assumption | apply State.special_open)
theorem execTtread_open {d : BitVec 6} {a : BitVec 6} {h : Bool} {q : Bool} {s : State} (h0 : Open s) : OutOpen (execTtread d a h q s) := by
  unfold execTtread
  with_reducible repeat' (first | assumption | apply State.ttOp_open | apply State.putWords_open | intro _)
theorem execDwadd_open {d : BitVec 6} {a : BitVec 6} {b : BitVec 6} {w : BitVec 2} {u : Bool} {x : Bool} {y : Bool} {s : State} (h0 : Open s) : OutOpen (execDwadd d a b w u x y s) := by
  unfold execDwadd
  with_reducible repeat' (first | assumption | apply State.dwPP_open)
theorem execExmld_open {a : BitVec 6} {w : BitVec 2} {s : State} (h0 : Open s) : OutOpen (execExmld a w s) := by
  unfold execExmld
  with_reducible repeat' (first | assumption | apply State.once_open | apply State.putEXM_open | apply OutOpen.mk | intro _)
theorem execTorg_open {d : BitVec 6} {a : BitVec 6} {b : BitVec 6} {s : State} (h0 : Open s) : OutOpen (execTorg d a b s) := by
  unfold execTorg
  with_reducible repeat' (first | assumption | apply State.checked_open | apply State.queueOp_open | apply OutOpen.mk | intro _)
theorem execLdd_open {d : BitVec 6} {a : BitVec 6} {u : Bool} {off : BitVec 8} {r : BitVec 3} {s : State} (h0 : Open s) : OutOpen (execLdd d a u off r s) := by
  unfold execLdd
  with_reducible repeat' (first | assumption | apply State.load_open)
theorem execCinv_open {a : BitVec 6} {b : BitVec 6} {whole : Bool} {sc : BitVec 3} {s : State} (h0 : Open s) : OutOpen (execCinv a b whole sc s) := by
  unfold execCinv
  with_reducible repeat' (first | assumption | apply State.maintain_open | intro _ | dsimp only [id_eq, Open, OpenPart] | split)
theorem execDynStep_open {e : Nat} {s : State} (h0 : Open s) : OutOpen (execDynStep e s) := by
  unfold execDynStep
  with_reducible repeat' (first | assumption | apply State.startJob_open | apply stepJob_open | apply OutOpen.mk)
theorem execAtmax_open {d : BitVec 6} {a : BitVec 6} {b : BitVec 6} {u : Bool} {v : Bool} {z : Bool} {r : BitVec 3} {s : State} (h0 : Open s) : OutOpen (execAtmax d a b u v z r s) := by
  unfold execAtmax
  with_reducible repeat' (first | assumption | apply State.atomicOp_open)
theorem execFdiv_open {d : BitVec 6} {a : BitVec 6} {b : BitVec 6} {w : BitVec 2} {u : Bool} {x : Bool} {y : Bool} {s : State} (h0 : Open s) : OutOpen (execFdiv d a b w u x y s) := by
  unfold execFdiv
  with_reducible repeat' (first | assumption | apply State.bin_open | apply OutOpen.mk)
theorem execAtor_open {d : BitVec 6} {a : BitVec 6} {b : BitVec 6} {u : Bool} {v : Bool} {z : Bool} {r : BitVec 3} {s : State} (h0 : Open s) : OutOpen (execAtor d a b u v z r s) := by
  unfold execAtor
  with_reducible repeat' (first | assumption | apply State.atomicOp_open)
theorem execKeyClear_open {p : Nat} {s : State} (h0 : Open s) : OutOpen (execKeyClear p s) := by
  unfold execKeyClear
  with_reducible repeat' (first | assumption | apply State.keyEvent_open | apply OutOpen.mk | dsimp only [id_eq, Open, OpenPart] | split)
theorem execChannelReset_open {who : Nat} {id : Word} {s : State} (h0 : Open s) : OutOpen (execChannelReset who id s) := by
  unfold execChannelReset
  with_reducible repeat' (first | assumption | apply State.chReset_open | apply OutOpen.mk | dsimp only [id_eq, Open, OpenPart] | split)
theorem execCaliperEnd_open {p : Nat} {s : State} (h0 : Open s) : OutOpen (execCaliperEnd p s) := by
  unfold execCaliperEnd
  with_reducible repeat' (first | assumption | apply State.stopTrial_open | apply OutOpen.mk | dsimp only [id_eq, Open, OpenPart] | split)
theorem execStw_open {d : BitVec 6} {a : BitVec 6} {u : Bool} {off : BitVec 8} {r : BitVec 3} {s : State} (h0 : Open s) : OutOpen (execStw d a u off r s) := by
  unfold execStw
  with_reducible repeat' (first | assumption | apply State.store_open)
theorem execFabs_open {d : BitVec 6} {a : BitVec 6} {w : BitVec 2} {u : Bool} {x : Bool} {s : State} (h0 : Open s) : OutOpen (execFabs d a w u x s) := by
  unfold execFabs
  with_reducible repeat' (first | assumption | apply State.una_open | apply OutOpen.mk)
theorem execIneg_open {d : BitVec 6} {a : BitVec 6} {w : BitVec 2} {u : Bool} {x : Bool} {s : State} (h0 : Open s) : OutOpen (execIneg d a w u x s) := by
  unfold execIneg
  with_reducible repeat' (first | assumption | apply State.una_open | apply OutOpen.mk)
theorem execExmsv_open {d : BitVec 6} {w : BitVec 2} {s : State} (h0 : Open s) : OutOpen (execExmsv d w s) := by
  unfold execExmsv
  with_reducible repeat' (first | assumption | apply State.once_open | apply State.putPair_open | apply OutOpen.mk | intro _)
theorem execCvtfi_open {d : BitVec 6} {a : BitVec 6} {t : BitVec 3} {u : Bool} {f : BitVec 3} {s : State} (h0 : Open s) : OutOpen (execCvtfi d a t u f s) := by
  unfold execCvtfi
  with_reducible repeat' (first | assumption | apply State.convert_open)
theorem execEndSession_open {sess : Nat} {s : State} (h0 : Open s) : OutOpen (execEndSession sess s) := by
  unfold execEndSession
  with_reducible repeat' (first | assumption | apply State.spdm_open | apply State.endSession_open | apply State.answerMsg_open | intro _)
theorem execBrall_open {n : Bool} {p : BitVec 4} {i : BitVec 18} {s : State} (h0 : Open s) : OutOpen (execBrall n p i s) := by
  unfold execBrall
  with_reducible repeat' (first | assumption | apply State.checked_open | apply State.branch_open | apply OutOpen.mk | intro _)
theorem execNop_open {w : BitVec 2} {s : State} (h0 : Open s) : OutOpen (execNop w s) := by
  unfold execNop
  with_reducible repeat' (first | assumption | apply State.once_open | apply OutOpen.mk | intro _ | dsimp only [id_eq, Open, OpenPart])
theorem execJmp_open {i : BitVec 18} {s : State} (h0 : Open s) : OutOpen (execJmp i s) := by
  unfold execJmp
  with_reducible repeat' (first | assumption | apply State.checked_open | apply State.branch_open | apply OutOpen.mk | intro _)
theorem execBra_open {n : Bool} {p : BitVec 4} {i : BitVec 18} {s : State} (h0 : Open s) : OutOpen (execBra n p i s) := by
  unfold execBra
  with_reducible repeat' (first | assumption | apply State.checked_open | apply State.retire_open | apply State.branch_open | apply State.raiseOnce_open | apply State.withMe_open | apply State.setPath_open | apply OutOpen.mk | intro _ | dsimp only [id_eq, Open, OpenPart] | split)
theorem execBrany_open {n : Bool} {p : BitVec 4} {i : BitVec 18} {s : State} (h0 : Open s) : OutOpen (execBrany n p i s) := by
  unfold execBrany
  with_reducible repeat' (first | assumption | apply State.checked_open | apply State.branch_open | apply OutOpen.mk | intro _)
theorem execJpt_open {i : BitVec 18} {s : State} (h0 : Open s) : OutOpen (execJpt i s) := by
  unfold execJpt
  with_reducible repeat' (first | assumption | apply State.checked_open | apply State.raiseOnce_open | apply State.openScope_open | apply OutOpen.mk | intro _ | dsimp only [id_eq, Open, OpenPart] | split)
theorem execCall_open {n : Bool} {p : BitVec 4} {i : BitVec 18} {s : State} (h0 : Open s) : OutOpen (execCall n p i s) := by
  unfold execCall
  with_reducible repeat' (first | assumption | apply State.checked_open | apply State.callTo_open | apply OutOpen.mk | intro _)
theorem execCalli_open {a : BitVec 6} {w : BitVec 2} {s : State} (h0 : Open s) : OutOpen (execCalli a w s) := by
  unfold execCalli
  with_reducible repeat' (first | assumption | apply State.checked_open | apply State.raiseOnce_open | apply State.callTo_open | apply State.withMe_open | apply OutOpen.mk | intro _ | dsimp only [id_eq, Open, OpenPart] | split)
theorem execRet_open {w : BitVec 2} {s : State} (h0 : Open s) : OutOpen (execRet w s) := by
  unfold execRet
  with_reducible repeat' (first | assumption | apply State.checked_open | apply State.retire_open | apply OutOpen.mk | intro _)
theorem execLeave_open {c : BitVec 2} {s : State} (h0 : Open s) : OutOpen (execLeave c s) := by
  unfold execLeave
  with_reducible repeat' (first | assumption | apply State.illopU_open | apply State.checked_open | apply State.retire_open | apply State.withMe_open | apply OutOpen.mk | intro _ | dsimp only [id_eq, Open, OpenPart] | split)
theorem execExit_open {w : BitVec 2} {s : State} (h0 : Open s) : OutOpen (execExit w s) := by
  unfold execExit
  with_reducible repeat' (first | assumption | apply State.checked_open | apply State.retire_open | apply State.withMe_open | apply State.ownEXM_open | apply State.endGroup_open | apply State.charge_open | apply State.count_open | apply OutOpen.mk | intro _ | dsimp only [id_eq, Open, OpenPart] | split)
theorem execYield_open {w : BitVec 2} {s : State} (h0 : Open s) : OutOpen (execYield w s) := by
  unfold execYield
  with_reducible repeat' (first | assumption | apply State.checked_open | apply State.retire_open | apply State.withMe_open | apply OutOpen.mk | intro _)
theorem execBkpt_open {i : BitVec 11} {s : State} (h0 : Open s) : OutOpen (execBkpt i s) := by
  unfold execBkpt
  with_reducible repeat' (first | assumption | apply State.checked_open | apply State.setPath_open | apply State.charge_open | apply State.count_open | apply State.haltRecord_open | apply State.withMe_open | apply State.retire_open | apply OutOpen.mk | intro _ | dsimp only [id_eq, Open, OpenPart] | split)
theorem execTrap_open {i : BitVec 11} {s : State} (h0 : Open s) : OutOpen (execTrap i s) := by
  unfold execTrap
  with_reducible repeat' (first | assumption | apply State.checked_open | apply State.raise_open | apply State.charge_open | apply State.count_open | apply OutOpen.mk | intro _)
theorem execTrapret_open {w : BitVec 2} {s : State} (h0 : Open s) : OutOpen (execTrapret w s) := by
  unfold execTrapret
  with_reducible repeat' (first | assumption | apply State.checked_open | apply State.raiseOnce_open | apply State.withdrawIf_open | apply State.charge_open | apply State.count_open | apply State.withMe_open | apply OutOpen.mk | intro _ | dsimp only [id_eq, Open, OpenPart] | split)
theorem execXrepl_open {a : BitVec 6} {w : BitVec 2} {ux : Bool × Bool} {s : State} (h0 : Open s) : OutOpen (execXrepl a w ux s) := by
  unfold execXrepl
  with_reducible repeat' (first | assumption | apply State.raise_open | apply State.checkedFor_open | apply State.noRows_open | apply State.replaceRows_open | apply State.allocRows_open | apply State.putS_open | apply State.putPair_open | apply State.putCMBit_open | apply State.writeLanes_open | apply State.withMe_open | apply State.retire_open | apply State.freeMarked_open | apply OutOpen.mk | intro _ | dsimp only [id_eq, Open, OpenPart] | split)
theorem execMode_open {a : BitVec 6} {w : BitVec 2} {s : State} (h0 : Open s) : OutOpen (execMode a w s) := by
  unfold execMode
  with_reducible repeat' (first | assumption | apply State.checked_open | apply State.retire_open | apply State.withMe_open | apply OutOpen.mk | intro _)
theorem execModef_open {d : BitVec 6} {i : BitVec 11} {s : State} (h0 : Open s) : OutOpen (execModef d i s) := by
  unfold execModef
  with_reducible repeat' (first | assumption | apply State.once_open | apply State.withMe_open | apply OutOpen.mk | intro _)
theorem execExmcmb_open {a : BitVec 6} {f : BitVec 3} {s : State} (h0 : Open s) : OutOpen (execExmcmb a f s) := by
  unfold execExmcmb
  with_reducible repeat' (first | assumption | apply State.once_open | apply State.putEXM_open | apply OutOpen.mk | intro _)
theorem execExmp_open {a : BitVec 6} {b : BitVec 6} {w : BitVec 2} {s : State} (h0 : Open s) : OutOpen (execExmp a b w s) := by
  unfold execExmp
  with_reducible repeat' (first | assumption | apply State.once_open | apply State.putEXM_open | apply OutOpen.mk | intro _)
theorem execIdrd_open {d : BitVec 6} {u : Bool} {i : BitVec 11} {s : State} (h0 : Open s) : OutOpen (execIdrd d u i s) := by
  unfold execIdrd
  with_reducible repeat' (first | assumption | apply State.calc_open | apply OutOpen.mk)
theorem execSysrd_open {d : BitVec 6} {n : BitVec 12} {s : State} (h0 : Open s) : OutOpen (execSysrd d n s) := by
  unfold execSysrd
  with_reducible repeat' (first | assumption | apply State.checked_open | apply State.needPriv_open | apply State.acquire_open | apply State.retire_open | apply State.putS_open | apply OutOpen.mk | intro _ | dsimp only [id_eq, Open, OpenPart] | split)
theorem execSyswr_open {d : BitVec 6} {n : BitVec 12} {s : State} (h0 : Open s) : OutOpen (execSyswr d n s) := by
  unfold execSyswr
  with_reducible repeat' (first | assumption | apply State.sysWrite_open | apply State.checked_open | apply State.needPriv_open | apply State.retire_open | apply getD_open | apply OutOpen.mk | intro _ | dsimp only [id_eq, Open, OpenPart] | split)
theorem execReln_open {a : BitVec 6} {b : BitVec 6} {w : BitVec 2} {s : State} (h0 : Open s) : OutOpen (execReln a b w s) := by
  unfold execReln
  with_reducible repeat' (first | assumption | apply State.once_open | apply State.withMe_open | apply OutOpen.mk | intro _)
theorem execIdeme_open {w : BitVec 2} {s : State} (h0 : Open s) : OutOpen (execIdeme w s) := by
  unfold execIdeme
  with_reducible repeat' (first | assumption | apply State.once_open | apply State.withMe_open | apply OutOpen.mk | intro _)
theorem execIadd_open {d : BitVec 6} {a : BitVec 6} {b : BitVec 6} {w : BitVec 2} {u : Bool} {x : Bool} {y : Bool} {s : State} (h0 : Open s) : OutOpen (execIadd d a b w u x y s) := by
  unfold execIadd
  with_reducible repeat' (first | assumption | apply State.bin_open | apply OutOpen.mk)
theorem execIsub_open {d : BitVec 6} {a : BitVec 6} {b : BitVec 6} {w : BitVec 2} {u : Bool} {x : Bool} {y : Bool} {s : State} (h0 : Open s) : OutOpen (execIsub d a b w u x y s) := by
  unfold execIsub
  with_reducible repeat' (first | assumption | apply State.bin_open | apply OutOpen.mk)
theorem execImul_open {d : BitVec 6} {a : BitVec 6} {b : BitVec 6} {w : BitVec 2} {u : Bool} {x : Bool} {y : Bool} {s : State} (h0 : Open s) : OutOpen (execImul d a b w u x y s) := by
  unfold execImul
  with_reducible repeat' (first | assumption | apply State.bin_open | apply OutOpen.mk)
theorem execImulh_open {d : BitVec 6} {a : BitVec 6} {b : BitVec 6} {w : BitVec 2} {u : Bool} {x : Bool} {y : Bool} {s : State} (h0 : Open s) : OutOpen (execImulh d a b w u x y s) := by
  unfold execImulh
  with_reducible repeat' (first | assumption | apply State.bin_open | apply OutOpen.mk)
theorem execImulhu_open {d : BitVec 6} {a : BitVec 6} {b : BitVec 6} {w : BitVec 2} {u : Bool} {x : Bool} {y : Bool} {s : State} (h0 : Open s) : OutOpen (execImulhu d a b w u x y s) := by
  unfold execImulhu
  with_reducible repeat' (first | assumption | apply State.bin_open | apply OutOpen.mk)
theorem execImad_open {d : BitVec 6} {a : BitVec 6} {b : BitVec 6} {w : BitVec 2} {u : Bool} {x : Bool} {y : Bool} {z : Bool} {s : State} (h0 : Open s) : OutOpen (execImad d a b w u x y z s) := by
  unfold execImad
  with_reducible repeat' (first | assumption | apply State.tri_open | apply OutOpen.mk)
theorem execIdiv_open {d : BitVec 6} {a : BitVec 6} {b : BitVec 6} {w : BitVec 2} {u : Bool} {x : Bool} {y : Bool} {s : State} (h0 : Open s) : OutOpen (execIdiv d a b w u x y s) := by
  unfold execIdiv
  with_reducible repeat' (first | assumption | apply State.bin_open | apply OutOpen.mk)
theorem execIdivu_open {d : BitVec 6} {a : BitVec 6} {b : BitVec 6} {w : BitVec 2} {u : Bool} {x : Bool} {y : Bool} {s : State} (h0 : Open s) : OutOpen (execIdivu d a b w u x y s) := by
  unfold execIdivu
  with_reducible repeat' (first | assumption | apply State.bin_open | apply OutOpen.mk)
theorem execIrem_open {d : BitVec 6} {a : BitVec 6} {b : BitVec 6} {w : BitVec 2} {u : Bool} {x : Bool} {y : Bool} {s : State} (h0 : Open s) : OutOpen (execIrem d a b w u x y s) := by
  unfold execIrem
  with_reducible repeat' (first | assumption | apply State.bin_open | apply OutOpen.mk)
theorem execIremu_open {d : BitVec 6} {a : BitVec 6} {b : BitVec 6} {w : BitVec 2} {u : Bool} {x : Bool} {y : Bool} {s : State} (h0 : Open s) : OutOpen (execIremu d a b w u x y s) := by
  unfold execIremu
  with_reducible repeat' (first | assumption | apply State.bin_open | apply OutOpen.mk)
theorem execImin_open {d : BitVec 6} {a : BitVec 6} {b : BitVec 6} {w : BitVec 2} {u : Bool} {x : Bool} {y : Bool} {s : State} (h0 : Open s) : OutOpen (execImin d a b w u x y s) := by
  unfold execImin
  with_reducible repeat' (first | assumption | apply State.bin_open | apply OutOpen.mk)
theorem execImax_open {d : BitVec 6} {a : BitVec 6} {b : BitVec 6} {w : BitVec 2} {u : Bool} {x : Bool} {y : Bool} {s : State} (h0 : Open s) : OutOpen (execImax d a b w u x y s) := by
  unfold execImax
  with_reducible repeat' (first | assumption | apply State.bin_open | apply OutOpen.mk)
theorem execIminu_open {d : BitVec 6} {a : BitVec 6} {b : BitVec 6} {w : BitVec 2} {u : Bool} {x : Bool} {y : Bool} {s : State} (h0 : Open s) : OutOpen (execIminu d a b w u x y s) := by
  unfold execIminu
  with_reducible repeat' (first | assumption | apply State.bin_open | apply OutOpen.mk)
theorem execIabs_open {d : BitVec 6} {a : BitVec 6} {w : BitVec 2} {u : Bool} {x : Bool} {s : State} (h0 : Open s) : OutOpen (execIabs d a w u x s) := by
  unfold execIabs
  with_reducible repeat' (first | assumption | apply State.una_open | apply OutOpen.mk)
theorem execOr_open {d : BitVec 6} {a : BitVec 6} {b : BitVec 6} {w : BitVec 2} {u : Bool} {x : Bool} {y : Bool} {s : State} (h0 : Open s) : OutOpen (execOr d a b w u x y s) := by
  unfold execOr
  with_reducible repeat' (first | assumption | apply State.logic_open)
theorem execXor_open {d : BitVec 6} {a : BitVec 6} {b : BitVec 6} {w : BitVec 2} {u : Bool} {x : Bool} {y : Bool} {s : State} (h0 : Open s) : OutOpen (execXor d a b w u x y s) := by
  unfold execXor
  with_reducible repeat' (first | assumption | apply State.logic_open)
theorem execAndn_open {d : BitVec 6} {a : BitVec 6} {b : BitVec 6} {w : BitVec 2} {u : Bool} {x : Bool} {y : Bool} {s : State} (h0 : Open s) : OutOpen (execAndn d a b w u x y s) := by
  unfold execAndn
  with_reducible repeat' (first | assumption | apply State.logic_open)
theorem execShl_open {d : BitVec 6} {a : BitVec 6} {b : BitVec 6} {w : BitVec 2} {u : Bool} {x : Bool} {y : Bool} {s : State} (h0 : Open s) : OutOpen (execShl d a b w u x y s) := by
  unfold execShl
  with_reducible repeat' (first | assumption | apply State.logic_open)
theorem execShra_open {d : BitVec 6} {a : BitVec 6} {b : BitVec 6} {w : BitVec 2} {u : Bool} {x : Bool} {y : Bool} {s : State} (h0 : Open s) : OutOpen (execShra d a b w u x y s) := by
  unfold execShra
  with_reducible repeat' (first | assumption | apply State.logic_open)
theorem execRotl_open {d : BitVec 6} {a : BitVec 6} {b : BitVec 6} {w : BitVec 2} {u : Bool} {x : Bool} {y : Bool} {s : State} (h0 : Open s) : OutOpen (execRotl d a b w u x y s) := by
  unfold execRotl
  with_reducible repeat' (first | assumption | apply State.logic_open)
theorem execPopc_open {d : BitVec 6} {a : BitVec 6} {w : BitVec 2} {u : Bool} {x : Bool} {s : State} (h0 : Open s) : OutOpen (execPopc d a w u x s) := by
  unfold execPopc
  with_reducible repeat' (first | assumption | apply State.logic1_open)
theorem execClz_open {d : BitVec 6} {a : BitVec 6} {w : BitVec 2} {u : Bool} {x : Bool} {s : State} (h0 : Open s) : OutOpen (execClz d a w u x s) := by
  unfold execClz
  with_reducible repeat' (first | assumption | apply State.logic1_open)
theorem execBrev_open {d : BitVec 6} {a : BitVec 6} {w : BitVec 2} {u : Bool} {x : Bool} {s : State} (h0 : Open s) : OutOpen (execBrev d a w u x s) := by
  unfold execBrev
  with_reducible repeat' (first | assumption | apply State.logic1_open)
theorem execBfx_open {d : BitVec 6} {a : BitVec 6} {b : BitVec 6} {u : Bool} {sx : Bool} {s : State} (h0 : Open s) : OutOpen (execBfx d a b u sx s) := by
  unfold execBfx
  with_reducible repeat' (first | assumption | apply State.bin_open | apply OutOpen.mk)
theorem execBperm_open {d : BitVec 6} {a : BitVec 6} {b : BitVec 6} {w : BitVec 2} {u : Bool} {x : Bool} {y : Bool} {s : State} (h0 : Open s) : OutOpen (execBperm d a b w u x y s) := by
  unfold execBperm
  with_reducible repeat' (first | assumption | apply State.logic_open)
theorem execSel_open {d : BitVec 6} {a : BitVec 6} {b : BitVec 6} {n : Bool} {p : BitVec 4} {s : State} (h0 : Open s) : OutOpen (execSel d a b n p s) := by
  unfold execSel
  with_reducible repeat' (first | assumption | apply State.bin_open | apply OutOpen.mk)
theorem execMov_open {d : BitVec 6} {b : BitVec 6} {w : BitVec 2} {u : Bool} {y : Bool} {s : State} (h0 : Open s) : OutOpen (execMov d b w u y s) := by
  unfold execMov
  with_reducible repeat' (first | assumption | apply State.calc_open | apply OutOpen.mk)
theorem execMovi_open {d : BitVec 6} {u : Bool} {i : BitVec 11} {s : State} (h0 : Open s) : OutOpen (execMovi d u i s) := by
  unfold execMovi
  with_reducible repeat' (first | assumption | apply State.calc_open | apply OutOpen.mk)
theorem execLdcw_open {d : BitVec 6} {u : Bool} {lit : Word} {s : State} (h0 : Open s) : OutOpen (execLdcw d u lit s) := by
  unfold execLdcw
  with_reducible repeat' (first | assumption | apply State.calc_open | apply OutOpen.mk)
theorem execMovs_open {d : BitVec 6} {a : BitVec 6} {w : BitVec 2} {s : State} (h0 : Open s) : OutOpen (execMovs d a w s) := by
  unfold execMovs
  with_reducible repeat' (first | assumption | apply State.calc_open | apply OutOpen.mk)
theorem execAddi_open {d : BitVec 6} {a : BitVec 6} {u : Bool} {i : BitVec 11} {s : State} (h0 : Open s) : OutOpen (execAddi d a u i s) := by
  unfold execAddi
  with_reducible repeat' (first | assumption | apply State.imm_open | apply OutOpen.mk)
theorem execMuli_open {d : BitVec 6} {a : BitVec 6} {u : Bool} {i : BitVec 11} {s : State} (h0 : Open s) : OutOpen (execMuli d a u i s) := by
  unfold execMuli
  with_reducible repeat' (first | assumption | apply State.imm_open | apply OutOpen.mk)
theorem execAndi_open {d : BitVec 6} {a : BitVec 6} {u : Bool} {i : BitVec 11} {s : State} (h0 : Open s) : OutOpen (execAndi d a u i s) := by
  unfold execAndi
  with_reducible repeat' (first | assumption | apply State.imm_open | apply OutOpen.mk)
theorem execOri_open {d : BitVec 6} {a : BitVec 6} {u : Bool} {i : BitVec 11} {s : State} (h0 : Open s) : OutOpen (execOri d a u i s) := by
  unfold execOri
  with_reducible repeat' (first | assumption | apply State.imm_open | apply OutOpen.mk)
theorem execXori_open {d : BitVec 6} {a : BitVec 6} {u : Bool} {i : BitVec 11} {s : State} (h0 : Open s) : OutOpen (execXori d a u i s) := by
  unfold execXori
  with_reducible repeat' (first | assumption | apply State.imm_open | apply OutOpen.mk)
theorem execShli_open {d : BitVec 6} {a : BitVec 6} {u : Bool} {i : BitVec 11} {s : State} (h0 : Open s) : OutOpen (execShli d a u i s) := by
  unfold execShli
  with_reducible repeat' (first | assumption | apply State.imm_open | apply OutOpen.mk)
theorem execShri_open {d : BitVec 6} {a : BitVec 6} {u : Bool} {i : BitVec 11} {s : State} (h0 : Open s) : OutOpen (execShri d a u i s) := by
  unfold execShri
  with_reducible repeat' (first | assumption | apply State.imm_open | apply OutOpen.mk)
theorem execShrai_open {d : BitVec 6} {a : BitVec 6} {u : Bool} {i : BitVec 11} {s : State} (h0 : Open s) : OutOpen (execShrai d a u i s) := by
  unfold execShrai
  with_reducible repeat' (first | assumption | apply State.imm_open | apply OutOpen.mk)
theorem execAadd_open {d : BitVec 6} {a : BitVec 6} {b : BitVec 6} {w : BitVec 2} {u : Bool} {x : Bool} {y : Bool} {s : State} (h0 : Open s) : OutOpen (execAadd d a b w u x y s) := by
  unfold execAadd
  with_reducible repeat' (first | assumption | apply State.address_open | apply OutOpen.mk)
theorem execAlea_open {d : BitVec 6} {a : BitVec 6} {b : BitVec 6} {u : Bool} {e : Bool} {h : BitVec 3} {s : State} (h0 : Open s) : OutOpen (execAlea d a b u e h s) := by
  unfold execAlea
  with_reducible repeat' (first | assumption | apply State.address_open | apply OutOpen.mk)
theorem execAaddi_open {d : BitVec 6} {a : BitVec 6} {u : Bool} {i : BitVec 11} {s : State} (h0 : Open s) : OutOpen (execAaddi d a u i s) := by
  unfold execAaddi
  with_reducible repeat' (first | assumption | apply State.calc_open | apply OutOpen.mk)
theorem execAsub_open {d : BitVec 6} {a : BitVec 6} {b : BitVec 6} {w : BitVec 2} {u : Bool} {x : Bool} {y : Bool} {s : State} (h0 : Open s) : OutOpen (execAsub d a b w u x y s) := by
  unfold execAsub
  with_reducible repeat' (first | assumption | apply State.calc_open | apply OutOpen.mk)
theorem execIceq_open {d : BitVec 6} {a : BitVec 6} {b : BitVec 6} {w : BitVec 2} {u : Bool} {x : Bool} {y : Bool} {s : State} (h0 : Open s) : OutOpen (execIceq d a b w u x y s) := by
  unfold execIceq
  with_reducible repeat' (first | assumption | apply State.icmp_open)
theorem execIclt_open {d : BitVec 6} {a : BitVec 6} {b : BitVec 6} {w : BitVec 2} {u : Bool} {x : Bool} {y : Bool} {s : State} (h0 : Open s) : OutOpen (execIclt d a b w u x y s) := by
  unfold execIclt
  with_reducible repeat' (first | assumption | apply State.icmp_open)
theorem execIcle_open {d : BitVec 6} {a : BitVec 6} {b : BitVec 6} {w : BitVec 2} {u : Bool} {x : Bool} {y : Bool} {s : State} (h0 : Open s) : OutOpen (execIcle d a b w u x y s) := by
  unfold execIcle
  with_reducible repeat' (first | assumption | apply State.icmp_open)
theorem execIcltu_open {d : BitVec 6} {a : BitVec 6} {b : BitVec 6} {w : BitVec 2} {u : Bool} {x : Bool} {y : Bool} {s : State} (h0 : Open s) : OutOpen (execIcltu d a b w u x y s) := by
  unfold execIcltu
  with_reducible repeat' (first | assumption | apply State.icmp_open)
theorem execIcleu_open {d : BitVec 6} {a : BitVec 6} {b : BitVec 6} {w : BitVec 2} {u : Bool} {x : Bool} {y : Bool} {s : State} (h0 : Open s) : OutOpen (execIcleu d a b w u x y s) := by
  unfold execIcleu
  with_reducible repeat' (first | assumption | apply State.icmp_open)
theorem execIceqi_open {d : BitVec 6} {a : BitVec 6} {u : Bool} {i : BitVec 11} {s : State} (h0 : Open s) : OutOpen (execIceqi d a u i s) := by
  unfold execIceqi
  with_reducible repeat' (first | assumption | apply State.icmpi_open)
theorem execPand_open {d : BitVec 6} {a : BitVec 6} {b : BitVec 6} {w : BitVec 2} {u : Bool} {s : State} (h0 : Open s) : OutOpen (execPand d a b w u s) := by
  unfold execPand
  with_reducible repeat' (first | assumption | apply State.predOp_open)
theorem execPor_open {d : BitVec 6} {a : BitVec 6} {b : BitVec 6} {w : BitVec 2} {u : Bool} {s : State} (h0 : Open s) : OutOpen (execPor d a b w u s) := by
  unfold execPor
  with_reducible repeat' (first | assumption | apply State.predOp_open)
theorem execPxor_open {d : BitVec 6} {a : BitVec 6} {b : BitVec 6} {w : BitVec 2} {u : Bool} {s : State} (h0 : Open s) : OutOpen (execPxor d a b w u s) := by
  unfold execPxor
  with_reducible repeat' (first | assumption | apply State.predOp_open)
theorem execPandn_open {d : BitVec 6} {a : BitVec 6} {b : BitVec 6} {w : BitVec 2} {u : Bool} {s : State} (h0 : Open s) : OutOpen (execPandn d a b w u s) := by
  unfold execPandn
  with_reducible repeat' (first | assumption | apply State.predOp_open)
theorem execPtos_open {d : BitVec 6} {a : BitVec 6} {w : BitVec 2} {s : State} (h0 : Open s) : OutOpen (execPtos d a w s) := by
  unfold execPtos
  with_reducible repeat' (first | assumption | apply State.once_open | apply State.putPair_open | apply OutOpen.mk | intro _)
theorem execPfroms_open {d : BitVec 6} {a : BitVec 6} {w : BitVec 2} {s : State} (h0 : Open s) : OutOpen (execPfroms d a w s) := by
  unfold execPfroms
  with_reducible repeat' (first | assumption | apply State.once_open | apply State.putP_open | apply OutOpen.mk | intro _)
theorem execCmrd_open {d : BitVec 6} {w : BitVec 2} {s : State} (h0 : Open s) : OutOpen (execCmrd d w s) := by
  unfold execCmrd
  with_reducible repeat' (first | assumption | apply State.once_open | apply State.putPair_open | apply OutOpen.mk | intro _)
theorem execCmwr_open {a : BitVec 6} {w : BitVec 2} {s : State} (h0 : Open s) : OutOpen (execCmwr a w s) := by
  unfold execCmwr
  with_reducible repeat' (first | assumption | apply State.once_open | apply State.putCM_open | apply OutOpen.mk | intro _)
theorem execFadd_open {d : BitVec 6} {a : BitVec 6} {b : BitVec 6} {w : BitVec 2} {u : Bool} {x : Bool} {y : Bool} {s : State} (h0 : Open s) : OutOpen (execFadd d a b w u x y s) := by
  unfold execFadd
  with_reducible repeat' (first | assumption | apply State.bin_open | apply OutOpen.mk)
theorem execFfma_open {d : BitVec 6} {a : BitVec 6} {b : BitVec 6} {w : BitVec 2} {u : Bool} {x : Bool} {y : Bool} {z : Bool} {s : State} (h0 : Open s) : OutOpen (execFfma d a b w u x y z s) := by
  unfold execFfma
  with_reducible repeat' (first | assumption | apply State.tri_open | apply OutOpen.mk)
theorem execFfms_open {d : BitVec 6} {a : BitVec 6} {b : BitVec 6} {w : BitVec 2} {u : Bool} {x : Bool} {y : Bool} {z : Bool} {s : State} (h0 : Open s) : OutOpen (execFfms d a b w u x y z s) := by
  unfold execFfms
  with_reducible repeat' (first | assumption | apply State.tri_open | apply OutOpen.mk)
theorem execFnma_open {d : BitVec 6} {a : BitVec 6} {b : BitVec 6} {w : BitVec 2} {u : Bool} {x : Bool} {y : Bool} {z : Bool} {s : State} (h0 : Open s) : OutOpen (execFnma d a b w u x y z s) := by
  unfold execFnma
  with_reducible repeat' (first | assumption | apply State.tri_open | apply OutOpen.mk)
theorem execFmax_open {d : BitVec 6} {a : BitVec 6} {b : BitVec 6} {w : BitVec 2} {u : Bool} {x : Bool} {y : Bool} {s : State} (h0 : Open s) : OutOpen (execFmax d a b w u x y s) := by
  unfold execFmax
  with_reducible repeat' (first | assumption | apply State.bin_open | apply OutOpen.mk)
theorem execFneg_open {d : BitVec 6} {a : BitVec 6} {w : BitVec 2} {u : Bool} {x : Bool} {s : State} (h0 : Open s) : OutOpen (execFneg d a w u x s) := by
  unfold execFneg
  with_reducible repeat' (first | assumption | apply State.una_open | apply OutOpen.mk)
theorem execFcne_open {d : BitVec 6} {a : BitVec 6} {b : BitVec 6} {w : BitVec 2} {u : Bool} {x : Bool} {y : Bool} {s : State} (h0 : Open s) : OutOpen (execFcne d a b w u x y s) := by
  unfold execFcne
  with_reducible repeat' (first | assumption | apply State.fcmp_open)
theorem execFclt_open {d : BitVec 6} {a : BitVec 6} {b : BitVec 6} {w : BitVec 2} {u : Bool} {x : Bool} {y : Bool} {s : State} (h0 : Open s) : OutOpen (execFclt d a b w u x y s) := by
  unfold execFclt
  with_reducible repeat' (first | assumption | apply State.fcmp_open)
theorem execFcle_open {d : BitVec 6} {a : BitVec 6} {b : BitVec 6} {w : BitVec 2} {u : Bool} {x : Bool} {y : Bool} {s : State} (h0 : Open s) : OutOpen (execFcle d a b w u x y s) := by
  unfold execFcle
  with_reducible repeat' (first | assumption | apply State.fcmp_open)
theorem execFcun_open {d : BitVec 6} {a : BitVec 6} {b : BitVec 6} {w : BitVec 2} {u : Bool} {x : Bool} {y : Bool} {s : State} (h0 : Open s) : OutOpen (execFcun d a b w u x y s) := by
  unfold execFcun
  with_reducible repeat' (first | assumption | apply State.fcmp_open)
theorem execFrcp_open {d : BitVec 6} {a : BitVec 6} {w : BitVec 2} {u : Bool} {x : Bool} {s : State} (h0 : Open s) : OutOpen (execFrcp d a w u x s) := by
  unfold execFrcp
  with_reducible repeat' (first | assumption | apply State.special_open)
theorem execFsqrt_open {d : BitVec 6} {a : BitVec 6} {w : BitVec 2} {u : Bool} {x : Bool} {s : State} (h0 : Open s) : OutOpen (execFsqrt d a w u x s) := by
  unfold execFsqrt
  with_reducible repeat' (first | assumption | apply State.una_open | apply OutOpen.mk)
theorem execFlog2_open {d : BitVec 6} {a : BitVec 6} {w : BitVec 2} {u : Bool} {x : Bool} {s : State} (h0 : Open s) : OutOpen (execFlog2 d a w u x s) := by
  unfold execFlog2
  with_reducible repeat' (first | assumption | apply State.special_open)
theorem execFsig_open {d : BitVec 6} {a : BitVec 6} {w : BitVec 2} {u : Bool} {x : Bool} {s : State} (h0 : Open s) : OutOpen (execFsig d a w u x s) := by
  unfold execFsig
  with_reducible repeat' (first | assumption | apply State.special_open)
theorem execFfrac_open {d : BitVec 6} {a : BitVec 6} {w : BitVec 2} {u : Bool} {x : Bool} {s : State} (h0 : Open s) : OutOpen (execFfrac d a w u x s) := by
  unfold execFfrac
  with_reducible repeat' (first | assumption | apply State.una_open | apply OutOpen.mk)
theorem execFrnd_open {d : BitVec 6} {a : BitVec 6} {w : BitVec 2} {u : Bool} {x : Bool} {s : State} (h0 : Open s) : OutOpen (execFrnd d a w u x s) := by
  unfold execFrnd
  with_reducible repeat' (first | assumption | apply State.una_open | apply OutOpen.mk)
theorem execFscale_open {d : BitVec 6} {a : BitVec 6} {b : BitVec 6} {w : BitVec 2} {u : Bool} {x : Bool} {y : Bool} {s : State} (h0 : Open s) : OutOpen (execFscale d a b w u x y s) := by
  unfold execFscale
  with_reducible repeat' (first | assumption | apply State.bin_open | apply OutOpen.mk)
theorem execFcpys_open {d : BitVec 6} {a : BitVec 6} {b : BitVec 6} {w : BitVec 2} {u : Bool} {x : Bool} {y : Bool} {s : State} (h0 : Open s) : OutOpen (execFcpys d a b w u x y s) := by
  unfold execFcpys
  with_reducible repeat' (first | assumption | apply State.bin_open | apply OutOpen.mk)
theorem execFsat_open {d : BitVec 6} {a : BitVec 6} {w : BitVec 2} {u : Bool} {x : Bool} {s : State} (h0 : Open s) : OutOpen (execFsat d a w u x s) := by
  unfold execFsat
  with_reducible repeat' (first | assumption | apply State.una_open | apply OutOpen.mk)
theorem execFlagrd_open {d : BitVec 6} {b : BitVec 6} {w : BitVec 2} {s : State} (h0 : Open s) : OutOpen (execFlagrd d b w s) := by
  unfold execFlagrd
  with_reducible repeat' (first | assumption | apply State.once_open | apply State.withMe_open | apply State.putS_open | apply OutOpen.mk | intro _)
theorem execFadde_open {d : BitVec 6} {a : BitVec 6} {b : BitVec 6} {w : BitVec 2} {u : Bool} {x : Bool} {y : Bool} {s : State} (h0 : Open s) : OutOpen (execFadde d a b w u x y s) := by
  unfold execFadde
  with_reducible repeat' (first | assumption | apply State.pairOp_open)
theorem execFsube_open {d : BitVec 6} {a : BitVec 6} {b : BitVec 6} {w : BitVec 2} {u : Bool} {x : Bool} {y : Bool} {s : State} (h0 : Open s) : OutOpen (execFsube d a b w u x y s) := by
  unfold execFsube
  with_reducible repeat' (first | assumption | apply State.pairOp_open)
theorem execFmule_open {d : BitVec 6} {a : BitVec 6} {b : BitVec 6} {w : BitVec 2} {u : Bool} {x : Bool} {y : Bool} {s : State} (h0 : Open s) : OutOpen (execFmule d a b w u x y s) := by
  unfold execFmule
  with_reducible repeat' (first | assumption | apply State.pairOp_open)
theorem execFacc_open {d : BitVec 6} {a : BitVec 6} {w : BitVec 2} {u : Bool} {x : Bool} {z : Bool} {s : State} (h0 : Open s) : OutOpen (execFacc d a w u x z s) := by
  unfold execFacc
  with_reducible repeat' (first | assumption | apply State.calc_open | apply OutOpen.mk)
theorem execDwsub_open {d : BitVec 6} {a : BitVec 6} {b : BitVec 6} {w : BitVec 2} {u : Bool} {x : Bool} {y : Bool} {s : State} (h0 : Open s) : OutOpen (execDwsub d a b w u x y s) := by
  unfold execDwsub
  with_reducible repeat' (first | assumption | apply State.dwPP_open)
theorem execDwmul_open {d : BitVec 6} {a : BitVec 6} {b : BitVec 6} {w : BitVec 2} {u : Bool} {x : Bool} {y : Bool} {s : State} (h0 : Open s) : OutOpen (execDwmul d a b w u x y s) := by
  unfold execDwmul
  with_reducible repeat' (first | assumption | apply State.dwPP_open)
theorem execDwaddf_open {d : BitVec 6} {a : BitVec 6} {b : BitVec 6} {w : BitVec 2} {u : Bool} {x : Bool} {y : Bool} {s : State} (h0 : Open s) : OutOpen (execDwaddf d a b w u x y s) := by
  unfold execDwaddf
  with_reducible repeat' (first | assumption | apply State.dwPF_open)
theorem execDwmulf_open {d : BitVec 6} {a : BitVec 6} {b : BitVec 6} {w : BitVec 2} {u : Bool} {x : Bool} {y : Bool} {s : State} (h0 : Open s) : OutOpen (execDwmulf d a b w u x y s) := by
  unfold execDwmulf
  with_reducible repeat' (first | assumption | apply State.dwPF_open)
theorem execDwdiv_open {d : BitVec 6} {a : BitVec 6} {b : BitVec 6} {w : BitVec 2} {u : Bool} {x : Bool} {y : Bool} {s : State} (h0 : Open s) : OutOpen (execDwdiv d a b w u x y s) := by
  unfold execDwdiv
  with_reducible repeat' (first | assumption | apply State.dwPP_open)
theorem execDwsqrt_open {d : BitVec 6} {a : BitVec 6} {w : BitVec 2} {u : Bool} {x : Bool} {s : State} (h0 : Open s) : OutOpen (execDwsqrt d a w u x s) := by
  unfold execDwsqrt
  with_reducible repeat' (first | assumption | apply State.dwP_open)
theorem execDwnorm_open {d : BitVec 6} {a : BitVec 6} {w : BitVec 2} {u : Bool} {x : Bool} {s : State} (h0 : Open s) : OutOpen (execDwnorm d a w u x s) := by
  unfold execDwnorm
  with_reducible repeat' (first | assumption | apply State.dwP_open)
theorem execDwtof_open {d : BitVec 6} {a : BitVec 6} {w : BitVec 2} {u : Bool} {x : Bool} {s : State} (h0 : Open s) : OutOpen (execDwtof d a w u x s) := by
  unfold execDwtof
  with_reducible repeat' (first | assumption | apply State.calc_open | apply OutOpen.mk)
theorem execDwclt_open {d : BitVec 6} {a : BitVec 6} {b : BitVec 6} {w : BitVec 2} {u : Bool} {x : Bool} {y : Bool} {s : State} (h0 : Open s) : OutOpen (execDwclt d a b w u x y s) := by
  unfold execDwclt
  with_reducible repeat' (first | assumption | apply State.dwCmp_open)
theorem execCvtff_open {d : BitVec 6} {a : BitVec 6} {t : BitVec 3} {u : Bool} {f : BitVec 3} {s : State} (h0 : Open s) : OutOpen (execCvtff d a t u f s) := by
  unfold execCvtff
  with_reducible repeat' (first | assumption | apply State.convert_open)
theorem execCvtif_open {d : BitVec 6} {a : BitVec 6} {t : BitVec 3} {u : Bool} {f : BitVec 3} {s : State} (h0 : Open s) : OutOpen (execCvtif d a t u f s) := by
  unfold execCvtif
  with_reducible repeat' (first | assumption | apply State.convert_open)
theorem execPack_open {d : BitVec 6} {a : BitVec 6} {b : BitVec 6} {u : Bool} {c : BitVec 4} {s : State} (h0 : Open s) : OutOpen (execPack d a b u c s) := by
  unfold execPack
  with_reducible repeat' (first | assumption | apply State.bin_open | apply OutOpen.mk)
theorem execUnpk_open {d : BitVec 6} {a : BitVec 6} {u : Bool} {c : BitVec 4} {s : State} (h0 : Open s) : OutOpen (execUnpk d a u c s) := by
  unfold execUnpk
  with_reducible repeat' (first | assumption | apply State.calc_open | apply OutOpen.mk)
theorem execUnpk8_open {d : BitVec 6} {a : BitVec 6} {u : Bool} {c : BitVec 4} {s : State} (h0 : Open s) : OutOpen (execUnpk8 d a u c s) := by
  unfold execUnpk8
  with_reducible repeat' (first | assumption | apply State.calc_open | apply OutOpen.mk)
theorem execQnt4_open {d : BitVec 6} {a : BitVec 6} {b : BitVec 6} {u : Bool} {t : Bool} {s : State} (h0 : Open s) : OutOpen (execQnt4 d a b u t s) := by
  unfold execQnt4
  with_reducible repeat' (first | assumption | apply State.calc_open | apply OutOpen.mk)
theorem execRand_open {d : BitVec 6} {b : BitVec 6} {w : BitVec 2} {u : Bool} {s : State} (h0 : Open s) : OutOpen (execRand d b w u s) := by
  unfold execRand
  with_reducible repeat' (first | assumption | apply State.calc_open | apply OutOpen.mk)
theorem execRandf_open {d : BitVec 6} {w : BitVec 2} {u : Bool} {s : State} (h0 : Open s) : OutOpen (execRandf d w u s) := by
  unfold execRandf
  with_reducible repeat' (first | assumption | apply State.calc_open | apply OutOpen.mk)
theorem execCatsamp_open {d : BitVec 6} {a : BitVec 6} {b : BitVec 6} {w : BitVec 2} {x : Bool} {s : State} (h0 : Open s) : OutOpen (execCatsamp d a b w x s) := by
  unfold execCatsamp
  with_reducible repeat' (first | assumption | apply State.checked_open | apply State.finish_open | apply State.freeMarked_open | apply State.putS_open | apply OutOpen.mk | intro _)
theorem execBararv_open {d : BitVec 6} {b : BitVec 6} {w : BitVec 2} {s : State} (h0 : Open s) : OutOpen (execBararv d b w s) := by
  unfold execBararv
  with_reducible repeat' (first | assumption | apply State.checked_open | apply State.retire_open | apply State.arrive_open | apply State.putS_open | apply State.release_open | apply OutOpen.mk | intro _)
theorem execShfl_open {d : BitVec 6} {a : BitVec 6} {b : BitVec 6} {w : BitVec 2} {x : Bool} {y : Bool} {s : State} (h0 : Open s) : OutOpen (execShfl d a b w x y s) := by
  unfold execShfl
  with_reducible repeat' (first | assumption | apply State.shuffle_open)
theorem execShflu_open {d : BitVec 6} {a : BitVec 6} {i : BitVec 11} {s : State} (h0 : Open s) : OutOpen (execShflu d a i s) := by
  unfold execShflu
  with_reducible repeat' (first | assumption | apply State.shuffle_open)
theorem execShfld_open {d : BitVec 6} {a : BitVec 6} {i : BitVec 11} {s : State} (h0 : Open s) : OutOpen (execShfld d a i s) := by
  unfold execShfld
  with_reducible repeat' (first | assumption | apply State.shuffle_open)
theorem execBcast_open {d : BitVec 6} {a : BitVec 6} {sc : Bool} {l : BitVec 6} {s : State} (h0 : Open s) : OutOpen (execBcast d a sc l s) := by
  unfold execBcast
  with_reducible repeat' (first | assumption | apply State.checked_open | apply State.retire_open | apply State.putS_open | apply State.collect_open | apply OutOpen.mk | intro _ | dsimp only [id_eq, Open, OpenPart] | split)
theorem execVoteany_open {d : BitVec 6} {a : BitVec 6} {b : BitVec 6} {w : BitVec 2} {s : State} (h0 : Open s) : OutOpen (execVoteany d a b w s) := by
  unfold execVoteany
  with_reducible repeat' (first | assumption | apply State.vote_open)
theorem execVoteall_open {d : BitVec 6} {a : BitVec 6} {b : BitVec 6} {w : BitVec 2} {s : State} (h0 : Open s) : OutOpen (execVoteall d a b w s) := by
  unfold execVoteall
  with_reducible repeat' (first | assumption | apply State.vote_open)
theorem execScanadd_open {d : BitVec 6} {a : BitVec 6} {b : BitVec 6} {w : BitVec 2} {x : Bool} {s : State} (h0 : Open s) : OutOpen (execScanadd d a b w x s) := by
  unfold execScanadd
  with_reducible repeat' (first | assumption | apply State.cross_open | apply OutOpen.mk)
theorem execScanfadd_open {d : BitVec 6} {a : BitVec 6} {b : BitVec 6} {w : BitVec 2} {x : Bool} {s : State} (h0 : Open s) : OutOpen (execScanfadd d a b w x s) := by
  unfold execScanfadd
  with_reducible repeat' (first | assumption | apply State.cross_open | apply OutOpen.mk)
theorem execRedadd_open {d : BitVec 6} {a : BitVec 6} {w : BitVec 2} {x : Bool} {s : State} (h0 : Open s) : OutOpen (execRedadd d a w x s) := by
  unfold execRedadd
  with_reducible repeat' (first | assumption | apply State.reduce_open | apply OutOpen.mk)
theorem execRedfadd_open {d : BitVec 6} {a : BitVec 6} {w : BitVec 2} {x : Bool} {s : State} (h0 : Open s) : OutOpen (execRedfadd d a w x s) := by
  unfold execRedfadd
  with_reducible repeat' (first | assumption | apply State.reduce_open | apply OutOpen.mk)
theorem execRedmin_open {d : BitVec 6} {a : BitVec 6} {b : BitVec 6} {w : BitVec 2} {x : Bool} {s : State} (h0 : Open s) : OutOpen (execRedmin d a b w x s) := by
  unfold execRedmin
  with_reducible repeat' (first | assumption | apply State.extreme_open)
theorem execRedsumc_open {d : BitVec 6} {a : BitVec 6} {w : BitVec 2} {x : Bool} {s : State} (h0 : Open s) : OutOpen (execRedsumc d a w x s) := by
  unfold execRedsumc
  with_reducible repeat' (first | assumption | apply State.reduce_open | apply OutOpen.mk)
theorem execLdb_open {d : BitVec 6} {a : BitVec 6} {u : Bool} {off : BitVec 8} {r : BitVec 3} {s : State} (h0 : Open s) : OutOpen (execLdb d a u off r s) := by
  unfold execLdb
  with_reducible repeat' (first | assumption | apply State.load_open)
theorem execLdbs_open {d : BitVec 6} {a : BitVec 6} {u : Bool} {off : BitVec 8} {r : BitVec 3} {s : State} (h0 : Open s) : OutOpen (execLdbs d a u off r s) := by
  unfold execLdbs
  with_reducible repeat' (first | assumption | apply State.load_open)
theorem execLdh_open {d : BitVec 6} {a : BitVec 6} {u : Bool} {off : BitVec 8} {r : BitVec 3} {s : State} (h0 : Open s) : OutOpen (execLdh d a u off r s) := by
  unfold execLdh
  with_reducible repeat' (first | assumption | apply State.load_open)
theorem execLdhs_open {d : BitVec 6} {a : BitVec 6} {u : Bool} {off : BitVec 8} {r : BitVec 3} {s : State} (h0 : Open s) : OutOpen (execLdhs d a u off r s) := by
  unfold execLdhs
  with_reducible repeat' (first | assumption | apply State.load_open)
theorem execLdq_open {d : BitVec 6} {a : BitVec 6} {u : Bool} {off : BitVec 8} {r : BitVec 3} {s : State} (h0 : Open s) : OutOpen (execLdq d a u off r s) := by
  unfold execLdq
  with_reducible repeat' (first | assumption | apply State.load_open)
theorem execLdln_open {d : BitVec 6} {a : BitVec 6} {off : BitVec 8} {r : BitVec 3} {s : State} (h0 : Open s) : OutOpen (execLdln d a off r s) := by
  unfold execLdln
  with_reducible repeat' (first | assumption | apply State.checked_open | apply State.noRows_open | apply State.refuse_open | apply State.accesses_open | apply State.loadAll_open | apply State.loaded_open | apply OutOpen.mk | intro _ | dsimp only [id_eq, Open, OpenPart] | split)
theorem execStb_open {d : BitVec 6} {a : BitVec 6} {u : Bool} {off : BitVec 8} {r : BitVec 3} {s : State} (h0 : Open s) : OutOpen (execStb d a u off r s) := by
  unfold execStb
  with_reducible repeat' (first | assumption | apply State.store_open)
theorem execSth_open {d : BitVec 6} {a : BitVec 6} {u : Bool} {off : BitVec 8} {r : BitVec 3} {s : State} (h0 : Open s) : OutOpen (execSth d a u off r s) := by
  unfold execSth
  with_reducible repeat' (first | assumption | apply State.store_open)
theorem execStq_open {d : BitVec 6} {a : BitVec 6} {u : Bool} {off : BitVec 8} {r : BitVec 3} {s : State} (h0 : Open s) : OutOpen (execStq d a u off r s) := by
  unfold execStq
  with_reducible repeat' (first | assumption | apply State.store_open)
theorem execPref_open {a : BitVec 6} {u : Bool} {off : BitVec 8} {r : BitVec 3} {s : State} (h0 : Open s) : OutOpen (execPref a u off r s) := by
  unfold execPref
  with_reducible repeat' (first | assumption | apply State.checked_open | apply State.fill_open | apply State.settleShare_open | apply State.retire_open | apply OutOpen.mk | apply foldl_open | intro _ | dsimp only [id_eq, Open, OpenPart] | split)
theorem execCflush_open {a : BitVec 6} {b : BitVec 6} {whole : Bool} {sc : BitVec 3} {s : State} (h0 : Open s) : OutOpen (execCflush a b whole sc s) := by
  unfold execCflush
  with_reducible repeat' (first | assumption | apply State.maintain_open | apply State.drainEntry_open | apply foldl_open | intro _)
theorem execAtmin_open {d : BitVec 6} {a : BitVec 6} {b : BitVec 6} {u : Bool} {v : Bool} {z : Bool} {r : BitVec 3} {s : State} (h0 : Open s) : OutOpen (execAtmin d a b u v z r s) := by
  unfold execAtmin
  with_reducible repeat' (first | assumption | apply State.atomicOp_open)
theorem execAtand_open {d : BitVec 6} {a : BitVec 6} {b : BitVec 6} {u : Bool} {v : Bool} {z : Bool} {r : BitVec 3} {s : State} (h0 : Open s) : OutOpen (execAtand d a b u v z r s) := by
  unfold execAtand
  with_reducible repeat' (first | assumption | apply State.atomicOp_open)
theorem execAtxchg_open {d : BitVec 6} {a : BitVec 6} {b : BitVec 6} {u : Bool} {v : Bool} {z : Bool} {r : BitVec 3} {s : State} (h0 : Open s) : OutOpen (execAtxchg d a b u v z r s) := by
  unfold execAtxchg
  with_reducible repeat' (first | assumption | apply State.atomicOp_open)
theorem execAtcas_open {d : BitVec 6} {a : BitVec 6} {b : BitVec 6} {u : Bool} {v : Bool} {z : Bool} {r : BitVec 3} {s : State} (h0 : Open s) : OutOpen (execAtcas d a b u v z r s) := by
  unfold execAtcas
  with_reducible repeat' (first | assumption | apply State.atomic_open)
theorem execAtfadd_open {d : BitVec 6} {a : BitVec 6} {b : BitVec 6} {u : Bool} {v : Bool} {z : Bool} {r : BitVec 3} {s : State} (h0 : Open s) : OutOpen (execAtfadd d a b u v z r s) := by
  unfold execAtfadd
  with_reducible repeat' (first | assumption | apply State.atomic_open)
theorem execAtpadd_open {d : BitVec 6} {a : BitVec 6} {b : BitVec 6} {u : Bool} {v : Bool} {z : Bool} {r : BitVec 3} {s : State} (h0 : Open s) : OutOpen (execAtpadd d a b u v z r s) := by
  unfold execAtpadd
  with_reducible repeat' (first | assumption | apply State.atomic_open)
theorem execAtinc_open {d : BitVec 6} {a : BitVec 6} {b : BitVec 6} {u : Bool} {v : Bool} {z : Bool} {r : BitVec 3} {s : State} (h0 : Open s) : OutOpen (execAtinc d a b u v z r s) := by
  unfold execAtinc
  with_reducible repeat' (first | assumption | apply State.atomicOp_open)
theorem execBkadd_open {a : BitVec 6} {b : BitVec 6} {t : BitVec 3} {s : State} (h0 : Open s) : OutOpen (execBkadd a b t s) := by
  unfold execBkadd
  with_reducible repeat' (first | assumption | apply State.bankOp_open)
theorem execBkred_open {a : BitVec 6} {b : BitVec 6} {t : BitVec 3} {s : State} (h0 : Open s) : OutOpen (execBkred a b t s) := by
  unfold execBkred
  with_reducible repeat' (first | assumption | apply State.bankOp_open)
theorem execBkset_open {d : BitVec 6} {a : BitVec 6} {b : BitVec 6} {s : State} (h0 : Open s) : OutOpen (execBkset d a b s) := by
  unfold execBkset
  with_reducible repeat' (first | assumption | apply State.bankFill_open)
theorem execCpyg_open {d : BitVec 6} {a : BitVec 6} {b : BitVec 6} {l : BitVec 4} {s : State} (h0 : Open s) : OutOpen (execCpyg d a b l s) := by
  unfold execCpyg
  with_reducible repeat' (first | assumption | apply State.checked_open | apply State.copyIssue_open | apply State.unattributed_open | apply State.drainRange_open | apply State.startCopy_open | apply OutOpen.mk | apply foldl_open | intro _ | dsimp only [id_eq, Open, OpenPart] | split)
theorem execBatch_open {d : BitVec 6} {w : BitVec 2} {s : State} (h0 : Open s) : OutOpen (execBatch d w s) := by
  unfold execBatch
  with_reducible repeat' (first | assumption | apply State.checked_open | apply State.block_open | apply State.withMe_open | apply State.retire_open | apply State.putS_open | apply State.settle_open | apply OutOpen.mk | intro _ | dsimp only [id_eq, Open, OpenPart] | split)
theorem execWaitbat_open {a : BitVec 6} {i : BitVec 11} {s : State} (h0 : Open s) : OutOpen (execWaitbat a i s) := by
  unfold execWaitbat
  with_reducible repeat' (first | assumption | apply State.checked_open | apply State.waitBatches_open | apply OutOpen.mk | intro _)
theorem execWaitbatAll_open {s : State} (h0 : Open s) : OutOpen (execWaitbatAll s) := by
  unfold execWaitbatAll
  with_reducible repeat' (first | assumption | apply State.checked_open | apply State.waitBatches_open | apply OutOpen.mk | intro _)
theorem execFebset_open {a : BitVec 6} {w : BitVec 2} {s : State} (h0 : Open s) : OutOpen (execFebset a w s) := by
  unfold execFebset
  with_reducible repeat' (first | assumption | apply State.febChecked_open | apply State.retire_open | apply State.setFull_open | apply State.release_open | intro _)
theorem execFebsetPut_open {a : BitVec 6} {w : BitVec 2} {s : State} (h0 : Open s) : OutOpen (execFebsetPut a w s) := by
  unfold execFebsetPut
  with_reducible repeat' (first | assumption | apply State.febChecked_open | apply State.febBlock_open | intro _)
theorem execFebclr_open {a : BitVec 6} {w : BitVec 2} {s : State} (h0 : Open s) : OutOpen (execFebclr a w s) := by
  unfold execFebclr
  with_reducible repeat' (first | assumption | apply State.febChecked_open | apply State.retire_open | apply State.setFull_open | apply State.release_open | intro _)
theorem execFebwait_open {a : BitVec 6} {b : BitVec 6} {w : BitVec 2} {s : State} (h0 : Open s) : OutOpen (execFebwait a b w s) := by
  unfold execFebwait
  with_reducible repeat' (first | assumption | apply State.febChecked_open | apply State.febBlock_open | intro _)
theorem execFebwe_open {a : BitVec 6} {w : BitVec 2} {s : State} (h0 : Open s) : OutOpen (execFebwe a w s) := by
  unfold execFebwe
  with_reducible repeat' (first | assumption | apply State.febChecked_open | apply State.febBlock_open | intro _)
theorem execGang_open {a : BitVec 6} {w : BitVec 2} {s : State} (h0 : Open s) : OutOpen (execGang a w s) := by
  unfold execGang
  with_reducible repeat' (first | assumption | apply State.checked_open | apply State.block_open | apply State.retire_open | apply State.setMyTeam_open | apply OutOpen.mk | intro _ | dsimp only [id_eq, Open, OpenPart] | split)
theorem execMma_open {a : BitVec 6} {b : BitVec 6} {e : Bool} {s : State} (h0 : Open s) : OutOpen (execMma a b e s) := by
  unfold execMma
  with_reducible repeat' (first | assumption | apply State.kstep_open)
theorem execMmasp_open {a : BitVec 6} {b : BitVec 6} {e : Bool} {s : State} (h0 : Open s) : OutOpen (execMmasp a b e s) := by
  unfold execMmasp
  with_reducible repeat' (first | assumption | apply State.kstep_open)
theorem execMmaz_open {a : BitVec 6} {b : BitVec 6} {e : Bool} {s : State} (h0 : Open s) : OutOpen (execMmaz a b e s) := by
  unfold execMmaz
  with_reducible repeat' (first | assumption | apply State.kstep_open)
theorem execDrain_open {a : BitVec 6} {s : State} (h0 : Open s) : OutOpen (execDrain a s) := by
  unfold execDrain
  with_reducible repeat' (first | assumption | apply State.checked_open | apply State.orPoison_open | apply State.raise_open | apply State.queueOp_open | apply OutOpen.mk | intro _ | dsimp only [id_eq, Open, OpenPart] | split)
theorem execDrainReg_open {d : BitVec 6} {a : BitVec 6} {s : State} (h0 : Open s) : OutOpen (execDrainReg d a s) := by
  unfold execDrainReg
  with_reducible repeat' (first | assumption | apply State.takeResult_open | apply State.orPoison_open | apply State.block_open | apply State.checked_open | apply State.raise_open | apply State.noRows_open | apply State.queueAndWait_open | apply OutOpen.mk | intro _ | dsimp only [id_eq, Open, OpenPart] | split)
theorem execTld_open {d : BitVec 6} {a : BitVec 6} {b : BitVec 6} {q : BitVec 4} {i : Bool} {c : Bool} {s : State} (h0 : Open s) : OutOpen (execTld d a b q i c s) := by
  unfold execTld
  with_reducible repeat' (first | assumption | apply State.checked_open | apply State.orPoison_open | apply State.queueOp_open | apply OutOpen.mk | intro _)
theorem execTst_open {d : BitVec 6} {a : BitVec 6} {b : BitVec 6} {q : BitVec 4} {i : Bool} {c : Bool} {s : State} (h0 : Open s) : OutOpen (execTst d a b q i c s) := by
  unfold execTst
  with_reducible repeat' (first | assumption | apply State.takeResult_open | apply State.orPoison_open | apply State.block_open | apply State.checked_open | apply State.noRows_open | apply State.queueAndWait_open | apply OutOpen.mk | intro _ | dsimp only [id_eq, Open, OpenPart] | split)
theorem execTzero_open {d : BitVec 6} {w : BitVec 2} {s : State} (h0 : Open s) : OutOpen (execTzero d w s) := by
  unfold execTzero
  with_reducible repeat' (first | assumption | apply State.checked_open | apply State.queueOp_open | apply OutOpen.mk | intro _)
theorem execTzeroAll_open {w : BitVec 2} {s : State} (h0 : Open s) : OutOpen (execTzeroAll w s) := by
  unfold execTzeroAll
  with_reducible repeat' (first | assumption | apply State.checked_open | apply State.queueOp_open | apply OutOpen.mk | intro _)
theorem execBmcast_open {d : BitVec 6} {a : BitVec 6} {b : BitVec 6} {s : State} (h0 : Open s) : OutOpen (execBmcast d a b s) := by
  unfold execBmcast
  with_reducible repeat' (first | assumption | apply State.checked_open | apply State.copyIssue_open | apply State.startCopy_open | apply State.drainRange_open | apply OutOpen.mk | intro _)
theorem execEngq_open {d : BitVec 6} {a : BitVec 6} {e : BitVec 3} {s : State} (h0 : Open s) : OutOpen (execEngq d a e s) := by
  unfold execEngq
  with_reducible repeat' (first | assumption | apply State.checked_open | apply State.raise_open | apply State.release_open | apply State.useEntry_open | apply State.setMyTeam_open | apply State.setEngine_open | apply State.retire_open | apply State.putCMBit_open | apply State.putS_open | apply OutOpen.mk | intro _ | dsimp only [id_eq, Open, OpenPart] | split)
theorem execFwait_open {d : BitVec 6} {a : BitVec 6} {w : BitVec 2} {s : State} (h0 : Open s) : OutOpen (execFwait d a w s) := by
  unfold execFwait
  with_reducible repeat' (first | assumption | apply State.checked_open | apply State.retire_open | apply State.putS_open | apply State.reported_open | apply State.onFuture_open | apply State.block_open | apply OutOpen.mk | intro _ | dsimp only [id_eq, Open, OpenPart] | split)
theorem execFtest_open {d : BitVec 6} {a : BitVec 6} {w : BitVec 2} {s : State} (h0 : Open s) : OutOpen (execFtest d a w s) := by
  unfold execFtest
  with_reducible repeat' (first | assumption | apply State.checked_open | apply State.retire_open | apply State.putCMBit_open | apply State.putS_open | apply State.reported_open | apply State.onFuture_open | apply OutOpen.mk | intro _)
theorem execFcancel_open {a : BitVec 6} {w : BitVec 2} {s : State} (h0 : Open s) : OutOpen (execFcancel a w s) := by
  unfold execFcancel
  with_reducible repeat' (first | assumption | apply State.checked_open | apply State.retire_open | apply State.onFuture_open | apply State.cancelFuture_open | apply OutOpen.mk | intro _ | dsimp only [id_eq, Open, OpenPart] | split)
theorem execFres_open {d : BitVec 6} {a : BitVec 6} {w : BitVec 2} {s : State} (h0 : Open s) : OutOpen (execFres d a w s) := by
  unfold execFres
  with_reducible repeat' (first | assumption | apply State.checked_open | apply State.retire_open | apply State.putS_open | apply State.reported_open | apply State.onFuture_open | apply State.block_open | apply State.setMyTeam_open | apply OutOpen.mk | intro _ | dsimp only [id_eq, Open, OpenPart] | split)
theorem execCwait_open {w : BitVec 2} {s : State} (h0 : Open s) : OutOpen (execCwait w s) := by
  unfold execCwait
  with_reducible repeat' (first | assumption | apply State.checked_open | apply State.awaitTasks_open | apply OutOpen.mk | intro _)
theorem execCwaitTask_open {a : BitVec 6} {w : BitVec 2} {s : State} (h0 : Open s) : OutOpen (execCwaitTask a w s) := by
  unfold execCwaitTask
  with_reducible repeat' (first | assumption | apply State.checked_open | apply State.awaitTasks_open | apply State.tasksAwaited_open | apply OutOpen.mk | intro _ | dsimp only [id_eq, Open, OpenPart] | split)
theorem execCancel_open {a : BitVec 6} {w : BitVec 2} {s : State} (h0 : Open s) : OutOpen (execCancel a w s) := by
  unfold execCancel
  with_reducible repeat' (first | assumption | apply State.checked_open | apply State.cancelBranch_open | apply State.retire_open | apply OutOpen.mk | intro _)
theorem execQalloc_open {d : BitVec 6} {u : Bool} {i : BitVec 11} {s : State} (h0 : Open s) : OutOpen (execQalloc d u i s) := by
  unfold execQalloc
  with_reducible repeat' (first | assumption | apply State.checked_open | apply State.withPool_open | apply State.noRows_open | apply State.allocBlocks_open | apply State.putCMBit_open | apply State.acquire_open | apply State.loaded_open | apply OutOpen.mk | intro _ | dsimp only [id_eq, Open, OpenPart] | split)
theorem execQfree_open {a : BitVec 6} {u : Bool} {i : BitVec 11} {s : State} (h0 : Open s) : OutOpen (execQfree a u i s) := by
  unfold execQfree
  with_reducible repeat' (first | assumption | apply State.checked_open | apply State.withPool_open | apply State.retire_open | apply State.giveBack_open | apply State.release_open | apply State.fail_open | apply OutOpen.mk | intro _ | dsimp only [id_eq, Open, OpenPart] | split)
theorem execQfreel_open {d : BitVec 6} {a : BitVec 6} {i : BitVec 11} {s : State} (h0 : Open s) : OutOpen (execQfreel d a i s) := by
  unfold execQfreel
  with_reducible repeat' (first | assumption | apply State.checked_open | apply State.withPool_open | refine State.walkLinks_open_of (by assumption) ?_ | apply State.refuse_open | apply State.consume_open | apply State.raise_open | apply State.retire_open | apply State.freeList_open | apply State.release_open | apply OutOpen.mk | intro _ | dsimp only [id_eq, Open, OpenPart] | split)
theorem execMfill_open {d : BitVec 6} {a : BitVec 6} {b : BitVec 6} {s : State} (h0 : Open s) : OutOpen (execMfill d a b s) := by
  unfold execMfill
  with_reducible repeat' (first | assumption | apply State.checked_open | apply State.withMould_open | apply State.accesses_open | apply State.fillLanes_open | apply State.retire_open | apply State.withMe_open | apply State.block_open | apply OutOpen.mk | intro _ | dsimp only [id_eq, Open, OpenPart] | split)
theorem execMflush_open {a : BitVec 6} {s : State} (h0 : Open s) : OutOpen (execMflush a s) := by
  unfold execMflush
  with_reducible repeat' (first | assumption | apply State.checked_open | apply State.withMould_open | apply State.retire_open | apply State.putCMBit_open | apply State.cast_open | apply OutOpen.mk | intro _ | dsimp only [id_eq, Open, OpenPart] | split)
theorem execDlarm_open {a : BitVec 6} {b : BitVec 6} {w : BitVec 2} {s : State} (h0 : Open s) : OutOpen (execDlarm a b w s) := by
  unfold execDlarm
  with_reducible repeat' (first | assumption | apply State.checked_open | apply State.retire_open | apply State.setPart_open | apply Partition.arm_open | apply OutOpen.mk | intro _ | dsimp only [id_eq, Open, OpenPart] | split)
theorem execDlrd_open {d : BitVec 6} {w : BitVec 2} {s : State} (h0 : Open s) : OutOpen (execDlrd d w s) := by
  unfold execDlrd
  with_reducible repeat' (first | assumption | apply State.once_open | apply State.putS_open | apply OutOpen.mk | intro _)
theorem execTtboard_open {d : BitVec 6} {i : BitVec 11} {s : State} (h0 : Open s) : OutOpen (execTtboard d i s) := by
  unfold execTtboard
  with_reducible repeat' (first | assumption | apply State.ttOp_open | apply State.putCMBit_open | apply State.putWords_open | intro _)
theorem execTtalight_open {a : BitVec 6} {s : State} (h0 : Open s) : OutOpen (execTtalight a s) := by
  unfold execTtalight
  with_reducible repeat' (first | assumption | apply State.ttOp_open | intro _)
theorem execTtmax_open {a : BitVec 6} {b : BitVec 6} {r : Bool} {q : Bool} {s : State} (h0 : Open s) : OutOpen (execTtmax a b r q s) := by
  unfold execTtmax
  with_reducible repeat' (first | assumption | apply State.ttOp_open | apply State.putCMBit_open | intro _)
theorem execTtadd_open {d : BitVec 6} {a : BitVec 6} {b : BitVec 6} {c : Bool} {r : Bool} {q : Bool} {w : BitVec 3} {s : State} (h0 : Open s) : OutOpen (execTtadd d a b c r q w s) := by
  unfold execTtadd
  with_reducible repeat' (first | assumption | apply State.ttOp_open | apply State.putWords_open | intro _)
theorem execTtwait_open {a : BitVec 6} {s : State} (h0 : Open s) : OutOpen (execTtwait a s) := by
  unfold execTtwait
  with_reducible repeat' (first | assumption | apply State.checked_open | apply State.raise_open | apply State.block_open | apply State.retire_open | apply OutOpen.mk | intro _ | dsimp only [id_eq, Open, OpenPart] | split)
theorem execVpush_open {d : BitVec 6} {a : BitVec 6} {n : Bool} {s : State} (h0 : Open s) : OutOpen (execVpush d a n s) := by
  unfold execVpush
  with_reducible repeat' (first | assumption | apply State.checked_open | apply State.fail_open | apply State.pushed_open | apply State.setChannel_open | apply State.release_open | apply State.block_open | apply OutOpen.mk | intro _ | dsimp only [id_eq, Open, OpenPart] | split)
theorem execVpop_open {d : BitVec 6} {b : BitVec 6} {n : Bool} {s : State} (h0 : Open s) : OutOpen (execVpop d b n s) := by
  unfold execVpop
  with_reducible repeat' (first | assumption | apply State.checked_open | apply State.fail_open | apply State.noRows_open | apply State.acquire_open | apply State.moveUp_open | apply State.setChannel_open | apply State.writeLanes_open | apply State.allocRows_open | apply State.retire_open | apply State.putS_open | apply State.popFailed_open | apply State.block_open | apply OutOpen.mk | intro _ | dsimp only [id_eq, Open, OpenPart] | split)
theorem execVcount_open {d : BitVec 6} {b : BitVec 6} {w : BitVec 2} {s : State} (h0 : Open s) : OutOpen (execVcount d b w s) := by
  unfold execVcount
  with_reducible repeat' (first | assumption | apply State.once_open | apply State.putS_open | apply OutOpen.mk | intro _)
theorem execMbpost_open {a : BitVec 6} {b : BitVec 6} {n : Bool} {s : State} (h0 : Open s) : OutOpen (execMbpost a b n s) := by
  unfold execMbpost
  with_reducible repeat' (first | assumption | apply State.mailed_open | apply State.setMailbox_open | apply State.onMailbox_open | apply State.stalePost_open | apply State.release_open | apply State.block_open | apply State.storeMail_open | apply OutOpen.mk | intro _ | dsimp only [id_eq, Open, OpenPart] | split)
theorem execMbtake_open {d : BitVec 6} {b : BitVec 6} {n : Bool} {s : State} (h0 : Open s) : OutOpen (execMbtake d b n s) := by
  unfold execMbtake
  with_reducible repeat' (first | assumption | apply State.fail_open | apply State.mailed_open | apply State.putWords_open | apply State.acquire_open | apply State.onMailbox_open | apply State.takeMail_open | apply State.block_open | apply State.setMailbox_open | apply OutOpen.mk | intro _ | dsimp only [id_eq, Open, OpenPart] | split)
theorem execBar_open {c : Bool} {s : State} (h0 : Open s) : OutOpen (execBar c s) := by
  unfold execBar
  with_reducible repeat' (first | assumption | apply State.awaitPhase_open | apply State.checked_open | apply State.arrive_open | apply State.release_open | apply OutOpen.mk | intro _ | dsimp only [id_eq, Open, OpenPart] | split)
theorem execBarWait_open {a : BitVec 6} {c : Bool} {s : State} (h0 : Open s) : OutOpen (execBarWait a c s) := by
  unfold execBarWait
  with_reducible repeat' (first | assumption | apply State.awaitPhase_open | apply State.checked_open | apply State.retire_open | apply State.acquire_open | apply OutOpen.mk | intro _ | dsimp only [id_eq, Open, OpenPart] | split)
theorem execMark_open {g : Bool} {i : BitVec 10} {s : State} (h0 : Open s) : OutOpen (execMark g i s) := by
  unfold execMark
  with_reducible repeat' (first | assumption | apply State.checked_open | apply State.markSampler_open | apply State.setPart_open | apply Partition.offerRecord_open | apply Partition.markProgress_open | apply State.retire_open | apply OutOpen.mk | intro _ | dsimp only [id_eq, Open, OpenPart] | split)
theorem execLaunchDoorbell_open {p : Nat} {q : Nat} {v : Word} {s : State} (h0 : Open s) : OutOpen (execLaunchDoorbell p q v s) := by
  unfold execLaunchDoorbell
  with_reducible repeat' (first | assumption | apply State.setPart_open | apply Partition.doorbell_open | apply OutOpen.mk | intro _ | dsimp only [id_eq, Open, OpenPart] | split)
theorem execLaunchEntryRead_open {p : Nat} {q : Nat} {s : State} (h0 : Open s) : OutOpen (execLaunchEntryRead p q s) := by
  unfold execLaunchEntryRead
  with_reducible repeat' (first | assumption | apply State.launchRead_open | apply OutOpen.mk)
theorem execDispatch_open {s : State} (h0 : Open s) : OutOpen (execDispatch s) := by
  unfold execDispatch
  with_reducible repeat' (first | assumption | apply State.dispatch_open | apply OutOpen.mk)
theorem execTaskAgeing_open {p : Nat} {id : Nat} {s : State} (h0 : Open s) : OutOpen (execTaskAgeing p id s) := by
  unfold execTaskAgeing
  with_reducible repeat' (first | assumption | apply State.setPart_open | apply Partition.setTask_open | apply OutOpen.mk | intro _)
theorem execTimeSliceEnd_open {p : Nat} {s : State} (h0 : Open s) : OutOpen (execTimeSliceEnd p s) := by
  unfold execTimeSliceEnd
  with_reducible repeat' (first | assumption | apply State.setPart_open | apply State.preemptTeam_open | apply OutOpen.mk | apply foldl_open | intro _ | dsimp only [id_eq, Open, OpenPart] | split)
theorem execDrainOverrun_open {team : Nat} {s : State} (h0 : Open s) : OutOpen (execDrainOverrun team s) := by
  unfold execDrainOverrun
  with_reducible repeat' (first | assumption | apply State.askSave_open | apply OutOpen.mk | dsimp only [id_eq, Open, OpenPart] | split)
theorem execTeamSave_open {team : Nat} {s : State} (h0 : Open s) : OutOpen (execTeamSave team s) := by
  unfold execTeamSave
  with_reducible repeat' (first | assumption | apply State.saveTeam_open | apply State.resetChannel_open | apply State.captureSlots_open | apply OutOpen.mk | apply foldl_open | dsimp only [id_eq, Open, OpenPart] | split)
theorem execDependenceUnitEnter_open {p : Nat} {s : State} (h0 : Open s) : OutOpen (execDependenceUnitEnter p s) := by
  unfold execDependenceUnitEnter
  with_reducible repeat' (first | assumption | apply State.review_open | apply State.setPart_open | apply OutOpen.mk | intro _ | dsimp only [id_eq, Open, OpenPart] | split)
theorem execTaskComplete_open {p : Nat} {id : Nat} {s : State} (h0 : Open s) : OutOpen (execTaskComplete p id s) := by
  unfold execTaskComplete
  with_reducible repeat' (first | assumption | apply State.completeTask_open | apply OutOpen.mk)
theorem execVersionEarlyCommit_open {p : Nat} {id : Nat} {s : State} (h0 : Open s) : OutOpen (execVersionEarlyCommit p id s) := by
  unfold execVersionEarlyCommit
  with_reducible repeat' (first | assumption | apply State.setPart_open | apply State.commitVersion_open | apply State.drainAll_open | apply Partition.setTask_open | apply OutOpen.mk | apply foldl_open | intro _ | dsimp only [id_eq, Open, OpenPart] | split)
theorem execMouldConsumerLaunch_open {p : Nat} {m : Nat} {s : State} (h0 : Open s) : OutOpen (execMouldConsumerLaunch p m s) := by
  unfold execMouldConsumerLaunch
  with_reducible repeat' (first | assumption | apply State.launchConsumer_open | apply OutOpen.mk | apply foldl_open | intro _ | dsimp only [id_eq, Open, OpenPart] | split)
theorem execPoolEnable_open {p : Nat} {n : Nat} {s : State} (h0 : Open s) : OutOpen (execPoolEnable p n s) := by
  unfold execPoolEnable
  with_reducible repeat' (first | assumption | apply State.poolEnable_open | apply OutOpen.mk)
theorem execMouldEnable_open {p : Nat} {n : Nat} {s : State} (h0 : Open s) : OutOpen (execMouldEnable p n s) := by
  unfold execMouldEnable
  with_reducible repeat' (first | assumption | apply State.mouldEnable_open | apply OutOpen.mk)
theorem execMouldDisable_open {p : Nat} {n : Nat} {s : State} (h0 : Open s) : OutOpen (execMouldDisable p n s) := by
  unfold execMouldDisable
  with_reducible repeat' (first | assumption | apply State.mouldDisable_open | apply OutOpen.mk)
theorem execDeadlineExpiry_open {p : Nat} {s : State} (h0 : Open s) : OutOpen (execDeadlineExpiry p s) := by
  unfold execDeadlineExpiry
  with_reducible repeat' (first | assumption | apply State.fire_open | apply OutOpen.mk | dsimp only [id_eq, Open, OpenPart] | split)
theorem execAtctlFire_open {p : Nat} {s : State} (h0 : Open s) : OutOpen (execAtctlFire p s) := by
  unfold execAtctlFire
  with_reducible repeat' (first | assumption | apply State.fire_open | apply OutOpen.mk | dsimp only [id_eq, Open, OpenPart] | split)
theorem execDltrigRise_open {s : State} (h0 : Open s) : OutOpen (execDltrigRise s) := by
  unfold execDltrigRise
  with_reducible repeat' (first | assumption | apply State.fire_open | apply OutOpen.mk | apply foldl_open | intro _ | dsimp only [id_eq, Open, OpenPart] | split)
theorem execUnveilCancel_open {part : Nat} {s : State} (h0 : Open s) : OutOpen (execUnveilCancel part s) := by
  unfold execUnveilCancel
  with_reducible repeat' (first | assumption | apply State.freeOnCancel_open | apply State.dropRows_open | apply State.setPart_open | apply OutOpen.mk | intro _ | dsimp only [id_eq, Open, OpenPart] | split)
theorem execUnveilCapture_open {p : Nat} {s : State} (h0 : Open s) : OutOpen (execUnveilCapture p s) := by
  unfold execUnveilCapture
  with_reducible repeat' (first | assumption | apply State.capture_open | apply OutOpen.mk)
theorem execFaultQueueRecord_open {p : Nat} {s : State} (h0 : Open s) : OutOpen (execFaultQueueRecord p s) := by
  unfold execFaultQueueRecord
  with_reducible repeat' (first | assumption | apply State.writeRecord_open | apply OutOpen.mk)
theorem execFaultReplay_open {p : Nat} {seq : Nat} {s : State} (h0 : Open s) : OutOpen (execFaultReplay p seq s) := by
  unfold execFaultReplay
  with_reducible repeat' (first | assumption | apply State.faultAct_open | apply OutOpen.mk | dsimp only [id_eq, Open, OpenPart] | split)
theorem execFaultDeliver_open {p : Nat} {seq : Nat} {s : State} (h0 : Open s) : OutOpen (execFaultDeliver p seq s) := by
  unfold execFaultDeliver
  with_reducible repeat' (first | assumption | apply State.faultAct_open | apply OutOpen.mk | dsimp only [id_eq, Open, OpenPart] | split)
theorem execFaultKill_open {p : Nat} {seq : Nat} {s : State} (h0 : Open s) : OutOpen (execFaultKill p seq s) := by
  unfold execFaultKill
  with_reducible repeat' (first | assumption | apply State.faultAct_open | apply OutOpen.mk | dsimp only [id_eq, Open, OpenPart] | split)
theorem execTlbInvalidateAddress_open {p : Nat} {s : State} (h0 : Open s) : OutOpen (execTlbInvalidateAddress p s) := by
  unfold execTlbInvalidateAddress
  with_reducible repeat' (first | assumption | apply State.invalidate_open | apply OutOpen.mk)
theorem execTlbInvalidateAll_open {p : Nat} {s : State} (h0 : Open s) : OutOpen (execTlbInvalidateAll p s) := by
  unfold execTlbInvalidateAll
  with_reducible repeat' (first | assumption | apply State.invalidate_open | apply OutOpen.mk)
theorem execScanCommit_open {p : Nat} {s : State} (h0 : Open s) : OutOpen (execScanCommit p s) := by
  unfold execScanCommit
  with_reducible repeat' (first | assumption | apply State.scanAct_open | apply OutOpen.mk | dsimp only [id_eq, Open, OpenPart] | split)
theorem execScanDiscard_open {p : Nat} {s : State} (h0 : Open s) : OutOpen (execScanDiscard p s) := by
  unfold execScanDiscard
  with_reducible repeat' (first | assumption | apply State.scanAct_open | apply OutOpen.mk | dsimp only [id_eq, Open, OpenPart] | split)
theorem execGateRequest_open {who : Nat} {r : Nat} {s : State} (h0 : Open s) : OutOpen (execGateRequest who r s) := by
  unfold execGateRequest
  with_reducible repeat' (first | assumption | apply State.gateDone_open | apply State.gateAsk_open | apply OutOpen.mk | dsimp only [id_eq, Open, OpenPart] | split)
theorem execGatePreemptRequest_open {who : Nat} {r : Nat} {s : State} (h0 : Open s) : OutOpen (execGatePreemptRequest who r s) := by
  unfold execGatePreemptRequest
  with_reducible repeat' (first | assumption | apply State.gateDone_open | apply State.gateAsk_open | apply OutOpen.mk | dsimp only [id_eq, Open, OpenPart] | split)
theorem execGateLift_open {who : Nat} {r : Nat} {s : State} (h0 : Open s) : OutOpen (execGateLift who r s) := by
  unfold execGateLift
  with_reducible repeat' (first | assumption | apply State.gateDone_open | apply State.gateRaise_open | apply OutOpen.mk | dsimp only [id_eq, Open, OpenPart] | split)
theorem execGateClose_open {r : Nat} {s : State} (h0 : Open s) : OutOpen (execGateClose r s) := by
  unfold execGateClose
  with_reducible repeat' (first | assumption | apply State.smpStop_open | apply State.setGate_open | apply OutOpen.mk | apply foldl_open | dsimp only [id_eq, Open, OpenPart] | split)
theorem execGateOpen_open {r : Nat} {s : State} (h0 : Open s) : OutOpen (execGateOpen r s) := by
  unfold execGateOpen
  with_reducible repeat' (first | assumption | apply State.setGate_open | apply OutOpen.mk | dsimp only [id_eq, Open, OpenPart] | split)
theorem execCoreDisable_open {mask : BitVec 96} {s : State} (h0 : Open s) : OutOpen (execCoreDisable mask s) := by
  unfold execCoreDisable
  with_reducible repeat' (first | assumption | apply State.maskCores_open | apply OutOpen.mk)
theorem execScanRotation_open {s : State} (h0 : Open s) : OutOpen (execScanRotation s) := by
  unfold execScanRotation
  with_reducible repeat' (first | assumption | apply State.rotate_open | apply OutOpen.mk)
theorem execScanComplete_open {pass : Bool} {s : State} (h0 : Open s) : OutOpen (execScanComplete pass s) := by
  unfold execScanComplete
  with_reducible repeat' (first | assumption | apply State.commitScanned_open | apply State.setPart_open | apply State.reportScan_open | apply State.holdVersions_open | apply OutOpen.mk | apply foldl_open | intro _ | dsimp only [id_eq, Open, OpenPart] | split)
theorem execPatrolRowRead_open {ch : Nat} {s : State} (h0 : Open s) : OutOpen (execPatrolRowRead ch s) := by
  unfold execPatrolRowRead
  with_reducible repeat' (first | assumption | apply State.patrolBad_open | apply OutOpen.mk | apply foldl_open | intro _ | dsimp only [id_eq, Open, OpenPart] | split)
theorem execAuditSample_open {s : State} (h0 : Open s) : OutOpen (execAuditSample s) := by
  unfold execAuditSample
  with_reducible repeat' (first | assumption | apply State.audit_open | apply OutOpen.mk | dsimp only [id_eq, Open, OpenPart] | split)
theorem execProbeSend_open {g : Nat} {s : State} (h0 : Open s) : OutOpen (execProbeSend g s) := by
  unfold execProbeSend
  with_reducible repeat' (first | assumption | apply State.setGroup_open | apply State.spread_open | apply OutOpen.mk | dsimp only [id_eq, Open, OpenPart] | split)
theorem execProbeReceive_open {s : State} (h0 : Open s) : OutOpen (execProbeReceive s) := by
  unfold execProbeReceive
  with_reducible repeat' (first | assumption | apply State.probeAt_open | apply OutOpen.mk | dsimp only [id_eq, Open, OpenPart] | split)
theorem execReportWrite_open {p : Nat} {s : State} (h0 : Open s) : OutOpen (execReportWrite p s) := by
  unfold execReportWrite
  with_reducible repeat' (first | assumption | apply State.writeReport_open | apply OutOpen.mk)
theorem execGovernorInterval_open {power : Nat} {s : State} (h0 : Open s) : OutOpen (execGovernorInterval power s) := by
  unfold execGovernorInterval
  with_reducible repeat' (first | assumption | apply OutOpen.mk | dsimp only [id_eq, Open, OpenPart] | split)
theorem execSamplerEnable_open {who : Nat} {tile : Nat} {v : Word} {s : State} (h0 : Open s) : OutOpen (execSamplerEnable who tile v s) := by
  unfold execSamplerEnable
  with_reducible repeat' (first | assumption | apply State.smpControl_open | apply State.hostRefused_open | apply getD_open | apply OutOpen.mk | dsimp only [id_eq, Open, OpenPart] | split)
theorem execSample_open {tile : Nat} {s : State} (h0 : Open s) : OutOpen (execSample tile s) := by
  unfold execSample
  with_reducible repeat' (first | assumption | apply State.takeSample_open | apply OutOpen.mk | dsimp only [id_eq, Open, OpenPart] | split)
theorem execTraceFilter_open {p : Nat} {s : State} (h0 : Open s) : OutOpen (execTraceFilter p s) := by
  unfold execTraceFilter
  with_reducible repeat' (first | assumption | apply State.traceFilter_open | apply OutOpen.mk)
theorem execHaltRecordWrite_open {p : Nat} {s : State} (h0 : Open s) : OutOpen (execHaltRecordWrite p s) := by
  unfold execHaltRecordWrite
  with_reducible repeat' (first | assumption | apply State.haltWritten_open | apply getD_open | apply OutOpen.mk)
theorem execFilterLoad_open {who : Nat} {p : Nat} {v : Word} {s : State} (h0 : Open s) : OutOpen (execFilterLoad who p v s) := by
  unfold execFilterLoad
  with_reducible repeat' (first | assumption | apply State.unlessLocked_open | apply State.loadFilter_open | apply State.hostRefused_open | apply getD_open | apply OutOpen.mk | dsimp only [id_eq, Open, OpenPart] | split)
theorem execCaliperStop_open {p : Nat} {s : State} (h0 : Open s) : OutOpen (execCaliperStop p s) := by
  unfold execCaliperStop
  with_reducible repeat' (first | assumption | apply State.stopTrial_open | apply OutOpen.mk)
theorem execReleasePath_open {who : Nat} {p : Nat} {v : Word} {s : State} (h0 : Open s) : OutOpen (execReleasePath who p v s) := by
  unfold execReleasePath
  with_reducible repeat' (first | assumption | apply State.debugStep_open | apply OutOpen.mk)
theorem execReleaseGroup_open {who : Nat} {p : Nat} {v : Word} {s : State} (h0 : Open s) : OutOpen (execReleaseGroup who p v s) := by
  unfold execReleaseGroup
  with_reducible repeat' (first | assumption | apply State.debugStep_open | apply OutOpen.mk)
theorem execDebugStep_open {who : Nat} {p : Nat} {v : Word} {s : State} (h0 : Open s) : OutOpen (execDebugStep who p v s) := by
  unfold execDebugStep
  with_reducible repeat' (first | assumption | apply State.debugStep_open | apply OutOpen.mk)
theorem execHoldTakesEffect_open {g : Nat} {e : Nat} {s : State} (h0 : Open s) : OutOpen (execHoldTakesEffect g e s) := by
  unfold execHoldTakesEffect
  with_reducible repeat' (first | assumption | apply State.takeHold_open | apply OutOpen.mk)
theorem execDebugPortRead_open {loc : Word} {n : BitVec 12} {s : State} (h0 : Open s) : OutOpen (execDebugPortRead loc n s) := by
  unfold execDebugPortRead
  with_reducible repeat' (first | assumption | apply OutOpen.mk)
theorem execWriteBufferDrain_open {team : Nat} {line : Nat} {s : State} (h0 : Open s) : OutOpen (execWriteBufferDrain team line s) := by
  unfold execWriteBufferDrain
  with_reducible repeat' (first | assumption | apply State.drainEntry_open | apply OutOpen.mk)
theorem execMatrixOperation_open {team : Nat} {s : State} (h0 : Open s) : OutOpen (execMatrixOperation team s) := by
  unfold execMatrixOperation
  with_reducible repeat' (first | assumption | apply State.performMatrix_open | apply OutOpen.mk | dsimp only [id_eq, Open, OpenPart] | split)
theorem execTurntablePerform_open {st : Nat} {s : State} (h0 : Open s) : OutOpen (execTurntablePerform st s) := by
  unfold execTurntablePerform
  with_reducible repeat' (first | assumption | apply State.ttPerform_open | apply OutOpen.mk)
theorem execFifoEntryLand_open {tile : Nat} {s : State} (h0 : Open s) : OutOpen (execFifoEntryLand tile s) := by
  unfold execFifoEntryLand
  with_reducible repeat' (first | assumption | apply State.countStale_open | apply State.setChannel_open | apply State.sound_open | apply OutOpen.mk | dsimp only [id_eq, Open, OpenPart] | split)
theorem execPermitReturn_open {tile : Nat} {s : State} (h0 : Open s) : OutOpen (execPermitReturn tile s) := by
  unfold execPermitReturn
  with_reducible repeat' (first | assumption | apply State.countStale_open | apply State.setChannel_open | apply OutOpen.mk | dsimp only [id_eq, Open, OpenPart] | split)
theorem execFlitArrival_open {r : Nat} {s : State} (h0 : Open s) : OutOpen (execFlitArrival r s) := by
  unfold execFlitArrival
  with_reducible repeat' (first | assumption | apply State.placeFlits_open | apply State.injectAt_open | apply OutOpen.mk | dsimp only [id_eq, Open, OpenPart] | split)
theorem execReassemblyGrant_open {rx : Nat} {s : State} (h0 : Open s) : OutOpen (execReassemblyGrant rx s) := by
  unfold execReassemblyGrant
  with_reducible repeat' (first | assumption | apply OutOpen.mk | dsimp only [id_eq, Open, OpenPart] | split)
theorem execMailboxGrant_open {id : Nat} {s : State} (h0 : Open s) : OutOpen (execMailboxGrant id s) := by
  unfold execMailboxGrant
  with_reducible repeat' (first | assumption | apply State.grant_open | apply State.setMailbox_open | apply State.takeMail_open | apply OutOpen.mk | dsimp only [id_eq, Open, OpenPart] | split)
theorem execChainJob_open {e : Nat} {p : Nat} {s : State} (h0 : Open s) : OutOpen (execChainJob e p s) := by
  unfold execChainJob
  with_reducible repeat' (first | assumption | apply State.walk_open | apply State.setChain_open | apply State.setPart_open | apply Partition.enterDep_open | apply State.illFormed_open | apply OutOpen.mk | intro _ | dsimp only [id_eq, Open, OpenPart] | split)
theorem execChainLoop_open {e : Nat} {p : Nat} {s : State} (h0 : Open s) : OutOpen (execChainLoop e p s) := by
  unfold execChainLoop
  with_reducible repeat' (first | assumption | apply State.walk_open | refine State.readBody_open_of (by assumption) ?_ | apply State.resolveChain_open | apply State.setChain_open | apply State.illFormed_open | apply OutOpen.mk | intro _ | dsimp only [id_eq, Open, OpenPart] | split)
theorem execChainCond_open {e : Nat} {p : Nat} {s : State} (h0 : Open s) : OutOpen (execChainCond e p s) := by
  unfold execChainCond
  with_reducible repeat' (first | assumption | apply State.walk_open | apply State.engineRead_open | apply State.resolveChain_open | apply State.setChain_open | apply State.illFormed_open | apply OutOpen.mk | refine ErrOpen.of_map (by assumption) ?_ | intro _ | dsimp only [id_eq, Open, OpenPart] | split | (rename_i e; split at e) | (rename_i e; cases e))
theorem execChainLink_open {e : Nat} {p : Nat} {s : State} (h0 : Open s) : OutOpen (execChainLink e p s) := by
  unfold execChainLink
  with_reducible repeat' (first | assumption | apply State.walk_open | apply State.setChain_open | apply State.illFormed_open | apply OutOpen.mk | intro _ | dsimp only [id_eq, Open, OpenPart] | split)
theorem execVoxel_open {e : Nat} {s : State} (h0 : Open s) : OutOpen (execVoxel e s) := by
  unfold execVoxel
  with_reducible repeat' (first | assumption | apply State.startJob_open | apply voxelJob_open | apply OutOpen.mk)
theorem execRulebook_open {e : Nat} {s : State} (h0 : Open s) : OutOpen (execRulebook e s) := by
  unfold execRulebook
  with_reducible repeat' (first | assumption | apply State.startJob_open | apply rulebookJob_open | apply OutOpen.mk)
theorem execCoord_open {e : Nat} {s : State} (h0 : Open s) : OutOpen (execCoord e s) := by
  unfold execCoord
  with_reducible repeat' (first | assumption | apply State.startJob_open | apply coordJob_open | apply OutOpen.mk)
theorem execConvertExpand_open {e : Nat} {s : State} (h0 : Open s) : OutOpen (execConvertExpand e s) := by
  unfold execConvertExpand
  with_reducible repeat' (first | assumption | apply State.startJob_open | apply expandJob_open | apply OutOpen.mk)
theorem execCollidePoint_open {e : Nat} {s : State} (h0 : Open s) : OutOpen (execCollidePoint e s) := by
  unfold execCollidePoint
  with_reducible repeat' (first | assumption | apply State.startJob_open | apply collisionJob_open | apply OutOpen.mk | intro _)
theorem execCollideSegment_open {e : Nat} {s : State} (h0 : Open s) : OutOpen (execCollideSegment e s) := by
  unfold execCollideSegment
  with_reducible repeat' (first | assumption | apply State.startJob_open | apply collisionJob_open | apply polyline_open | apply OutOpen.mk | intro _)
theorem execCollideSphere_open {e : Nat} {s : State} (h0 : Open s) : OutOpen (execCollideSphere e s) := by
  unfold execCollideSphere
  with_reducible repeat' (first | assumption | apply State.startJob_open | apply collisionJob_open | apply OutOpen.mk | intro _)
theorem execCollideSweep_open {e : Nat} {s : State} (h0 : Open s) : OutOpen (execCollideSweep e s) := by
  unfold execCollideSweep
  with_reducible repeat' (first | assumption | apply State.startJob_open | apply collisionJob_open | apply polyline_open | apply OutOpen.mk | intro _)
theorem execPartCreate_open {p : Nat} {s : State} (h0 : Open s) : OutOpen (execPartCreate p s) := by
  unfold execPartCreate
  with_reducible repeat' (first | assumption | apply State.partCommand_open | apply OutOpen.mk | dsimp only [id_eq, Open, OpenPart] | split)
theorem execPartDestroy_open {p : Nat} {s : State} (h0 : Open s) : OutOpen (execPartDestroy p s) := by
  unfold execPartDestroy
  with_reducible repeat' (first | assumption | apply State.partCommand_open | apply OutOpen.mk | dsimp only [id_eq, Open, OpenPart] | split)
theorem execPartStart_open {p : Nat} {s : State} (h0 : Open s) : OutOpen (execPartStart p s) := by
  unfold execPartStart
  with_reducible repeat' (first | assumption | apply State.partCommand_open | apply OutOpen.mk | dsimp only [id_eq, Open, OpenPart] | split)
theorem execLockedRegisterWrite_open {p : Nat} {n : Nat} {v : Word} {s : State} (h0 : Open s) : OutOpen (execLockedRegisterWrite p n v s) := by
  unfold execLockedRegisterWrite
  with_reducible repeat' (first | assumption | apply State.onLink_open | apply State.hostPart_open | apply OutOpen.mk | intro _ | dsimp only [id_eq, Open, OpenPart] | split)
theorem execGetVersion_open {sess : Nat} {s : State} (h0 : Open s) : OutOpen (execGetVersion sess s) := by
  unfold execGetVersion
  with_reducible repeat' (first | assumption | apply State.spdm_open | apply State.answerMsg_open | apply State.setSession_open | intro _)
theorem execGetCapabilities_open {sess : Nat} {s : State} (h0 : Open s) : OutOpen (execGetCapabilities sess s) := by
  unfold execGetCapabilities
  with_reducible repeat' (first | assumption | apply State.spdm_open | apply State.answerMsg_open | apply State.setSession_open | intro _)
theorem execGetCertificate_open {sess : Nat} {slot : Nat} {s : State} (h0 : Open s) : OutOpen (execGetCertificate sess slot s) := by
  unfold execGetCertificate
  with_reducible repeat' (first | assumption | apply State.spdm_open | apply State.answerMsg_open | intro _)
theorem execSpdmChallenge_open {sess : Nat} {slot : Nat} {s : State} (h0 : Open s) : OutOpen (execSpdmChallenge sess slot s) := by
  unfold execSpdmChallenge
  with_reducible repeat' (first | assumption | apply State.spdm_open | apply State.answerMsg_open | intro _)
theorem execGetMeasurements_open {sess : Nat} {idx : Nat} {s : State} (h0 : Open s) : OutOpen (execGetMeasurements sess idx s) := by
  unfold execGetMeasurements
  with_reducible repeat' (first | assumption | apply State.spdm_open | apply State.answerMsg_open | intro _)
theorem execKeyExchange_open {sess : Nat} {s : State} (h0 : Open s) : OutOpen (execKeyExchange sess s) := by
  unfold execKeyExchange
  with_reducible repeat' (first | assumption | apply State.spdm_open | apply State.answerMsg_open | apply State.setSession_open | intro _)
theorem execSpdmFinish_open {sess : Nat} {ok : Bool} {s : State} (h0 : Open s) : OutOpen (execSpdmFinish sess ok s) := by
  unfold execSpdmFinish
  with_reducible repeat' (first | assumption | apply State.spdm_open | apply State.answerMsg_open | apply State.setSession_open | intro _)
theorem execSpdmHeartbeat_open {sess : Nat} {s : State} (h0 : Open s) : OutOpen (execSpdmHeartbeat sess s) := by
  unfold execSpdmHeartbeat
  with_reducible repeat' (first | assumption | apply State.spdm_open | apply State.answerMsg_open | intro _)
theorem execKeyUpdate_open {sess : Nat} {ok : Bool} {s : State} (h0 : Open s) : OutOpen (execKeyUpdate sess ok s) := by
  unfold execKeyUpdate
  with_reducible repeat' (first | assumption | apply State.spdm_open | apply State.answerMsg_open | apply State.setSession_open | apply State.endSession_open | apply State.toError_open | apply State.spdmError_open | apply foldl_open | intro _ | dsimp only [id_eq, Open, OpenPart] | split)
theorem execGetTdispCapabilities_open {sess : Nat} {vf : Nat} {s : State} (h0 : Open s) : OutOpen (execGetTdispCapabilities sess vf s) := by
  unfold execGetTdispCapabilities
  with_reducible repeat' (first | assumption | apply State.tdisp_open | apply State.answerMsg_open | intro _)
theorem execLockInterfaceRequest_open {sess : Nat} {vf : Nat} {s : State} (h0 : Open s) : OutOpen (execLockInterfaceRequest sess vf s) := by
  unfold execLockInterfaceRequest State.tdisp State.onLink
  refine OutOpen.mk ?_
  dsimp only
  split
  · split
    · next hc =>
      refine State.answerMsg_open (State.announce_open (State.zeroPrivate_open (open_at h0 fun _ hs => ?_)))
      simp at hc
      exact absurd (hs.symm.trans hc.2.1.2) (by decide)
    · exact State.tdispError_open h0
  · exact h0
theorem execGetDeviceInterfaceState_open {sess : Nat} {vf : Nat} {s : State} (h0 : Open s) : OutOpen (execGetDeviceInterfaceState sess vf s) := by
  unfold execGetDeviceInterfaceState
  with_reducible repeat' (first | assumption | apply State.tdisp_open | apply State.answerMsg_open | intro _)
theorem execStartInterfaceRequest_open {sess : Nat} {vf : Nat} {s : State} (h0 : Open s) : OutOpen (execStartInterfaceRequest sess vf s) := by
  unfold execStartInterfaceRequest
  with_reducible repeat' (first | assumption | apply State.tdisp_open | apply State.answerMsg_open | apply State.announce_open | apply State.setPart_open | exact open_run | intro _)
theorem execStopInterfaceRequest_open {sess : Nat} {vf : Nat} {s : State} (h0 : Open s) : OutOpen (execStopInterfaceRequest sess vf s) := by
  unfold execStopInterfaceRequest
  with_reducible repeat' (first | assumption | apply State.tdisp_open | apply State.answerMsg_open | apply State.stopBegin_open | intro _)
theorem execKeyProg_open {sess : Nat} {vf : Nat} {s : State} (h0 : Open s) : OutOpen (execKeyProg sess vf s) := by
  unfold execKeyProg
  with_reducible repeat' (first | assumption | apply State.tdisp_open | apply State.answerMsg_open | apply State.setPart_open | intro _)
theorem execKSetGo_open {sess : Nat} {vf : Nat} {s : State} (h0 : Open s) : OutOpen (execKSetGo sess vf s) := by
  unfold execKSetGo
  with_reducible repeat' (first | assumption | apply State.tdisp_open | apply State.answerMsg_open | apply State.setPart_open | intro _)
theorem execKSetStop_open {sess : Nat} {vf : Nat} {s : State} (h0 : Open s) : OutOpen (execKSetStop sess vf s) := by
  unfold execKSetStop
  with_reducible repeat' (first | assumption | apply State.tdisp_open | apply State.answerMsg_open | apply State.insecure_open | intro _)
theorem execBoardRelayObject_open {ch : Nat} {msg : List Byte} {s : State} (h0 : Open s) : OutOpen (execBoardRelayObject ch msg s) := by
  unfold execBoardRelayObject
  with_reducible repeat' (first | assumption | apply State.onLink_open | apply OutOpen.mk | intro _ | dsimp only [id_eq, Open, OpenPart] | split)
theorem execKeyEstablish_open {p : Nat} {s : State} (h0 : Open s) : OutOpen (execKeyEstablish p s) := by
  unfold execKeyEstablish
  with_reducible repeat' (first | assumption | apply State.keyEvent_open | apply OutOpen.mk | dsimp only [id_eq, Open, OpenPart] | split)
theorem execBoardResponse_open {p : Nat} {code : Nat} {key : BitVec 256} {s : State} (h0 : Open s) : OutOpen (execBoardResponse p code key s) := by
  unfold execBoardResponse
  with_reducible repeat' (first | assumption | apply State.keyStatus_open | apply State.setPart_open | apply State.toBoard_open | apply State.loadKey_open | apply OutOpen.mk | intro _ | dsimp only [id_eq, Open, OpenPart] | split)
theorem execPowerOnReset_open {ok : Bool} {s : State} (h0 : Open s) : OutOpen (execPowerOnReset ok s) := by
  unfold execPowerOnReset
  with_reducible repeat' (first | assumption | apply State.booting_open | apply OutOpen.mk)
theorem execBootImageWrite_open {image : List Byte} {verified : Bool} {derived : Bool} {trained : Option Nat} {failing : BitVec 96} {s : State} (h0 : Open s) : OutOpen (execBootImageWrite image verified derived trained failing s) := by
  unfold execBootImageWrite
  with_reducible repeat' (first | assumption | apply State.booting_open | apply OutOpen.mk | dsimp only [id_eq, Open, OpenPart] | split)
theorem execLinkTraining_open {ok : Bool} {s : State} (h0 : Open s) : OutOpen (execLinkTraining ok s) := by
  unfold execLinkTraining
  with_reducible repeat' (first | assumption | apply State.msi_open | apply OutOpen.mk | dsimp only [id_eq, Open, OpenPart] | split)
theorem execHotReset_open {s : State} (h0 : Open s) : OutOpen (execHotReset s) := by
  unfold execHotReset
  with_reducible repeat' (first | assumption | apply State.onLink_open | apply State.linkReset_open | apply OutOpen.mk)
theorem execIllegalInstruction_open {word : Word} {s : State} (h0 : Open s) : OutOpen (execIllegalInstruction word s) := by
  unfold execIllegalInstruction
  with_reducible repeat' (first | assumption | apply State.illinst_open | apply State.withMe_open | apply OutOpen.mk)
theorem execIllFormedWord_open {word : Word} {s : State} (h0 : Open s) : OutOpen (execIllFormedWord word s) := by
  unfold execIllFormedWord
  with_reducible repeat' (first | assumption | apply State.illop_open | apply State.withMe_open | apply OutOpen.mk)
theorem execFetchFault_open {s : State} (h0 : Open s) : OutOpen (execFetchFault s) := by
  unfold execFetchFault
  with_reducible repeat' (first | assumption | apply State.raise_open | apply OutOpen.mk | dsimp only [id_eq, Open, OpenPart] | split)
theorem execSoftError_open {kind : Nat} {tile : Nat} {addr : Nat} {double : Bool} {s : State} (h0 : Open s) : OutOpen (execSoftError kind tile addr double s) := by
  unfold execSoftError
  with_reducible repeat' (first | assumption | apply State.countCe_open | apply OutOpen.mk | dsimp only [id_eq, Open, OpenPart] | split)
theorem execEviction_open {p : Nat} {s : State} (h0 : Open s) : OutOpen (execEviction p s) := by
  unfold execEviction
  with_reducible repeat' (first | assumption | apply State.captureSlots_open | apply State.setPart_open | apply State.preemptTeam_open | apply OutOpen.mk | apply foldl_open | intro _ | dsimp only [id_eq, Open, OpenPart] | split)
theorem execDoeDiscovery_open {idx : Nat} {s : State} (h0 : Open s) : OutOpen (execDoeDiscovery idx s) := by
  unfold execDoeDiscovery
  with_reducible repeat' (first | assumption | apply State.onLink_open | apply State.answerMsg_open | apply OutOpen.mk | intro _)
theorem execPointMoveComplete_open {s : State} (h0 : Open s) : OutOpen (execPointMoveComplete s) := by
  unfold execPointMoveComplete
  with_reducible repeat' (first | assumption | apply OutOpen.mk)

end Sys2Proof.Machine
end

