-- ==== Sys2Proof/Tests/Slice0.lean ====
section
/-! SUPPORT. Tests by evaluation: words written out from the encoding tables, ill-formed terms, worked cases of the specification, and for
every obligation with hypotheses a state and operands that meet them. -/

namespace Sys2Proof.Tests

open Sys2Proof Sys2Proof.Machine

set_option Elab.async false

/-! ### Words written out from the encoding tables (R20 to R27), at least one of every family -/

/-- The worked encoding of the chapter on assembly: LDW, FADD, ADDI, LDCW, BRA, EXIT. -/
theorem test_words_worked : decodeTableWord 32 0xB40C5012 = some (.ldw 3 5 false 2 2) ∧ decodeTableWord 32 0x60142EC2 = some (.fadd 5 2 59 0 false false true)
    ∧ decodeTableWord 32 0x44186FFD = some (.addi 6 6 true (BitVec.ofInt 11 (-3))) ∧ decodeTableWord 64 0x3F80000042280800 = some (.ldcw 10 true 0x3F800000)
    ∧ decodeTableWord 32 0x028FFFFB = some (.bra true 3 (BitVec.ofInt 18 (-5))) ∧ decodeTableWord 32 0x0D000000 = some (.exit 0) := by decide +kernel
/-- Words that the rules give beside their instructions: ATADD (R174), FADDE (R140), TTMAX and others of the programs. -/
theorem test_words_given : decodeTableWord 32 0xC1185091 = some (.atadd 6 5 2 false true false 1) ∧ decodeTableWord 32 0x801020C0 = some (.fadde 4 2 3 0 false false false)
    ∧ decodeTableWord 32 0xF6001410 = some (.ttmax 1 16 true false) ∧ decodeTableWord 32 0xFE000001 = some (.bar true) := by decide +kernel
/-- Control: JPT forward by 5, TRAPRET, NOP. -/
theorem test_words_control : decodeTableWord 32 0x063C0005 = some (.jpt 5) ∧ decodeTableWord 32 0x11000000 = some (.trapret 0)
    ∧ decodeTableWord 32 0x00000000 = some (.nop 0) := by decide +kernel
/-- Integer, logic and compare words: IADD s3, s2, s0 with U = 1; ANDI s1, s0, 1; ICEQI CM0, s1, 1; POR. -/
theorem test_words_integer : decodeTableWord 32 0x200C2008 = some (.iadd 3 2 0 0 true false false) ∧ decodeTableWord 32 0x46040801 = some (.andi 1 0 true 1)
    ∧ decodeTableWord 32 0x56001801 = some (.iceqi 0 1 true 1) ∧ decodeTableWord 32 0x591000C0 = some (.por 4 0 3 0 false)
    ∧ decodeTableWord 32 0x3F083080 = some (.sel 2 3 2 false 0) := by decide +kernel
/-- Engines, system and vertical words: ENGQ, FWAIT, VPUSH, VPOP, MARK. -/
theorem test_words_units : decodeTableWord 32 0xE3284002 = some (.engq 10 4 2) ∧ decodeTableWord 32 0xE42CA008 = some (.fwait 11 10 0)
    ∧ decodeTableWord 32 0xF9245000 = some (.vpush 9 5 false) ∧ decodeTableWord 32 0xFA100240 = some (.vpop 4 9 false) ∧ decodeTableWord 32 0xFF000405 = some (.mark true 5) := by
  decide +kernel
/-- A word of an unassigned opcode, and one of an assigned opcode with a reserved bit set (R26, R37). -/
theorem test_words_refused : decodeTableWord 32 0x8F000000 = some (.illegalInstruction 0x8F000000) ∧ decodeTableWord 32 0x00000001 = some (.illFormedWord 1) := by decide +kernel
/-- The worked encoding the other way round. -/
theorem test_encode : encode (.fadd 5 2 59 0 false false true) = [0x60142EC2] ∧ encode (.ldcw 10 true 0x3F800000) = [0x42280800, 0x3F800000]
    ∧ encode (.bra true 3 (BitVec.ofInt 18 (-5))) = [0x028FFFFB] := by decide +kernel

/-! ### Ill-formed terms: one for each check of an operand value -/

theorem test_illFormed_vector : (Instr.iadd 48 2 3 0 false false false).wellFormed = false ∧ (Instr.iadd 47 2 3 0 false false false).wellFormed = true := by decide +kernel
theorem test_illFormed_even : (Instr.exmsv 3 0).wellFormed = false ∧ (Instr.exmsv 2 0).wellFormed = true := by decide +kernel
theorem test_illFormed_odd : (Instr.ldln 3 4 0 0).wellFormed = false ∧ (Instr.ldln 3 5 0 0).wellFormed = true := by decide +kernel
theorem test_illFormed_pair : (Instr.aaddi 2 5 true 0).wellFormed = false ∧ (Instr.aaddi 2 48 false 0).wellFormed = false ∧ (Instr.aaddi 2 46 false 0).wellFormed = true := by decide +kernel
theorem test_illFormed_vpair : (Instr.ballot 3 0 0 0).wellFormed = false ∧ (Instr.ballot 4 0 0 0).wellFormed = true := by decide +kernel
theorem test_illFormed_mult : (Instr.ldq 6 5 true 0 0).wellFormed = false ∧ (Instr.ldq 8 6 true 0 0).wellFormed = true := by decide +kernel
theorem test_illFormed_compare : (Instr.iceqi 6 1 false 0).wellFormed = false ∧ (Instr.iceqi 63 1 true 0).wellFormed = true := by decide +kernel
theorem test_illFormed_predicate : (Instr.pand 12 0 0 0 false).wellFormed = false ∧ (Instr.pand 63 0 0 0 true).wellFormed = true := by decide +kernel
theorem test_illFormed_marks : (Instr.iadd 1 2 3 0 true true false).wellFormed = false ∧ (Instr.iadd 1 2 3 0 false true false).wellFormed = true := by decide +kernel
theorem test_illFormed_test : (Instr.bra true 15 0).wellFormed = false ∧ (Instr.bra false 12 0).wellFormed = false ∧ (Instr.bra false 15 0).wellFormed = true := by decide +kernel
theorem test_illFormed_modef : (Instr.modef 11 0).wellFormed = false ∧ (Instr.modef 1 2).wellFormed = false ∧ (Instr.modef 1 1).wellFormed = true := by decide +kernel
theorem test_illFormed_pack : (Instr.pack 1 2 3 true 3).wellFormed = false ∧ (Instr.pack8 1 2 4 true 9).wellFormed = false ∧ (Instr.pack 1 2 3 true 9).wellFormed = true := by decide +kernel
theorem test_illFormed_base : (Instr.ldw 3 5 true 0 0).wellFormed = false ∧ (Instr.ldw 3 48 false 0 0).wellFormed = false ∧ (Instr.ldw 3 49 false 0 0).wellFormed = true := by decide +kernel
theorem test_illFormed_order : (Instr.stw 3 4 true 0 2).wellFormed = false ∧ (Instr.fence 1).wellFormed = false ∧ (Instr.ldw 3 4 true 0 3).wellFormed = false
    ∧ (Instr.stw 3 4 true 0 3).wellFormed = true ∧ (Instr.fence 4).wellFormed = true := by decide +kernel
theorem test_illFormed_flush : (Instr.cflush 4 0 true 0).wellFormed = false ∧ (Instr.cflush 5 0 false 0).wellFormed = false ∧ (Instr.cinv 4 2 false 5).wellFormed = false
    ∧ (Instr.cinv 4 2 false 4).wellFormed = true := by decide +kernel
theorem test_illFormed_atomic : (Instr.atadd 4 5 3 false true true 0).wellFormed = false ∧ (Instr.atadd 4 5 2 false false false 0).wellFormed = false
    ∧ (Instr.atadd 4 5 2 false true true 0).wellFormed = true := by decide +kernel
theorem test_illFormed_block : (Instr.mbpost 8 3 false).wellFormed = false ∧ (Instr.mbpost 16 3 false).wellFormed = true := by decide +kernel
theorem test_illFormed_small : (Instr.trap 1024).wellFormed = false ∧ (Instr.shli 1 2 true 32).wellFormed = false ∧ (Instr.tzero 8 0).wellFormed = false
    ∧ (Instr.trap 1023).wellFormed = true := by decide +kernel
theorem test_illFormed_noWord : Instr.dispatch.wellFormed = false ∧ (Instr.illegalInstruction 0x8F000000).wellFormed = false := by decide +kernel

/-! ### Worked cases of the specification -/

/-- R3: tile 19 has station 19; its partner, tile 67, has station 76. -/
theorem test_stations : stationOf 19 = 19 ∧ partner 19 = 67 ∧ stationOf 67 = 76 := by decide +kernel
/-- R78: the table of conversions with RM = RNE, and its last row with RTZ. -/
theorem test_conversions : convertFloat fp32 bf16 {} 0x3F808000 = (0x3F80, fNX) ∧ convertFloat fp32 bf16 {} 0x3F818000 = (0x3F82, fNX)
    ∧ convertFloat fp32 bf16 {} 0x7F7FFFFF = (0x7F80, fOF ||| fNX) ∧ convertFloat fp32 e4m3 {} 0x43FA0000 = (0x7E, fOF ||| fNX)
    ∧ convertFloat fp32 e2m1 {} 0x3E99999A = (1, fUF ||| fNX) ∧ convertToInt fp32 true 8 {} 0xC0200000 = (-2, fNX)
    ∧ convertFloat fp32 bf16 { rm := 1 } 0x7F7FFFFF = (0x7F7F, fOF ||| fNX) := by decide +kernel
/-- R73: one K-step of BF16 2^33, 1 and -2^33 against ones leaves 1.0 in E40, also where the element held -0. -/
theorem test_kstep : stepFloat 0 ((([0x5000, 0x3F80, 0xD000] : List Nat) ++ List.replicate 29 0).map fun x => bf16.unpack false x)
      (List.replicate 32 (bf16.unpack false 0x3F80)) = (0x3F80000000, 0)
    ∧ stepFloat 0x8000000000 ((([0x5000, 0x3F80, 0xD000] : List Nat) ++ List.replicate 29 0).map fun x => bf16.unpack false x)
      (List.replicate 32 (bf16.unpack false 0x3F80)) = (0x3F80000000, 0) := by decide +kernel
/-- R296: window offset 0x61010 is unit 97: bank 1, byte 0x1010. -/
theorem test_bank : 0x61010 / 4096 % 96 = 1 ∧ 0x61010 / 4096 / 96 * 4096 + 0x61010 % 4096 = 0x1010 := by decide +kernel
/-- R402: at point 2 with FSTEP 8 and P above L the part moves to point 1 with FSTEP 10. -/
theorem test_governor : (({ fstep := 8, limit := 100 } : Power).interval 200 0).point = 1 ∧ (({ fstep := 8, limit := 100 } : Power).interval 200 0).fstep = 10 := by decide +kernel

/-! ### A small state: one group of 16 lanes at the head of its task -/

/-- The issuing group stands checked out, its rows `v1` to `v12` held, every register zero; `f` says what else its group holds. -/
def st (f : Group → Group := id) : State :=
  ((State.reset.withFetchWord 32 0).checkout 0 0).withMe fun g => f { g with v := Vector.ofFn fun k : Fin 48 => if k.val < 13 then some { row := k.val } else none }
/-- The same with two scalar registers. -/
def ss (a : Nat) (x : Word) (b : Nat := 63) (y : Word := 0) : State := st fun g => (g.setS a x).setS b y
/-- The state an instruction answers. -/
noncomputable def after (i : Instr) (s : State) : State :=
  match exec i s with
  | .next t => t
  | _ => s
/-- The word of a scalar register after an instruction. -/
noncomputable def out (i : Instr) (s : State) (n : Nat) : Word := (after i s).me.sreg n
/-- FPSF and a pair of scalar registers after an instruction. -/
noncomputable def outPair (i : Instr) (s : State) (n : Nat) : Word × Word × Word := (out i s n, out i s (n + 1), (after i s).me.fpsf)

/-- R140, first and second rows of the table of FADDE. -/
theorem test_fadde : outPair (.fadde 4 2 3 0 true false false) (ss 2 0x3F800001 3 0x33800000) 4 = (0x3F800002, 0xB3800000, BitVec.ofNat 32 fNX)
    ∧ outPair (.fadde 4 2 3 0 true false false) (ss 2 0x7F7FFFFF 3 0x7F7FFFFF) 4 = (0x7F800000, 0, BitVec.ofNat 32 (fOF ||| fNX)) := by decide +kernel
/-- R140, infinities of two signs. -/
theorem test_fadde_nan : outPair (.fadde 4 2 3 0 true false false) (ss 2 0x7F800000 3 0xFF800000) 4 = (0x7FC00000, 0x7FC00000, BitVec.ofNat 32 fNV) := by decide +kernel
/-- R140, both rows of FMULE. -/
theorem test_fmule : outPair (.fmule 4 2 3 0 true false false) (ss 2 0x3F800001 3 0x3F800001) 4 = (0x3F800002, 0x28800000, BitVec.ofNat 32 fNX)
    ∧ outPair (.fmule 4 2 3 0 true false false) (ss 2 0x0D800001 3 0x2B800001) 4 = (0x200, 0, BitVec.ofNat 32 (fPX ||| fUF ||| fNX)) := by decide +kernel
/-- R155: the weights of its table in v1, lanes 0 to 4 active. -/
def weights (r : Word) (m : LaneMask) : State :=
  st fun g => ({ g with v := g.v.set 1 (some { lanes := Vector.ofFn fun k : Fin 64 => if k.val = 0 then 0x3F000000 else if k.val = 1 then 0xBF800000 else if k.val = 2 then 0x3FC00000
    else if k.val = 4 then 0x40000000 else 0 }), paths := g.paths.set 0 (some { g.path 0 with member := m, exm := m }) }.setS 5 r)
theorem test_catsamp : out (.catsamp 4 1 5 0 false) (weights 0x90000000 0x1F) 4 = 4 ∧ out (.catsamp 4 1 5 0 false) (weights 0x40000000 0x1F) 4 = 2
    ∧ out (.catsamp 4 1 5 0 false) (weights 0 0x1F) 4 = 0 := by decide +kernel
theorem test_catsamp_none : out (.catsamp 4 1 5 0 false) (weights 0x90000000 0x0A) 4 = 0xFFFFFFFF
    ∧ bit (after (.catsamp 4 1 5 0 false) (weights 0x90000000 0x0A)).me.fpsf 7 = true := by decide +kernel

/-! ### Corners of single instructions, computed from their rules by hand -/

/-- R107: a sum wraps modulo 2^32. -/
theorem test_iadd_wraps : out (.iadd 4 2 3 0 true false false) (ss 2 0xFFFFFFFF 3 2) 4 = 1 := by decide +kernel
/-- R107: the destination may be a source. -/
theorem test_isub_same : out (.isub 2 2 3 0 true false false) (ss 2 5 3 7) 2 = 0xFFFFFFFE := by decide +kernel
/-- R111: a shift by 32 gives 0, an arithmetic one the sign. -/
theorem test_shifts : out (.shl 4 2 3 0 true false false) (ss 2 1 3 32) 4 = 0 ∧ out (.shra 4 2 3 0 true false false) (ss 2 0x80000000 3 32) 4 = 0xFFFFFFFF := by decide +kernel
/-- R131: 1 / 0 is infinite and sets DZ. -/
theorem test_fdiv_zero : out (.fdiv 4 2 3 0 true false false) (ss 2 0x3F800000 3 0) 4 = 0x7F800000
    ∧ (after (.fdiv 4 2 3 0 true false false) (ss 2 0x3F800000 3 0)).me.fpsf = BitVec.ofNat 32 fDZ := by decide +kernel
/-- R84: JMP back by one word. -/
theorem test_jmp_back : (after (.jmp (BitVec.ofInt 18 (-1))) st).pc = 0x1FFFC := by decide +kernel
/-! ### States and operands that meet the hypotheses of the obligations -/

theorem unspilled_of {s : State} (h : ((List.range 64).all fun n => (s.me.path? (n + 8)).isNone) = true) (hc : (s.me.path? s.me.cur).isSome = true) : s.unspilled := by
  refine ⟨fun n hn => ?_, hc⟩
  by_cases h72 : n < 72
  · have := List.all_eq_true.1 h (n - 8) (List.mem_range.2 (by omega))
    rw [show n - 8 + 8 = n by omega] at this
    exact Option.isNone_iff_eq_none.1 this
  · have : ¬ n < s.me.paths.size := h72
    unfold Group.path?
    simp [h72]
/-- The small state with its partition, its task or its team changed. -/
def sp (f : Partition → Partition) (g : Group → Group := id) : State := (st g).setPart 0 f
def sk (f : TaskRecord → TaskRecord) (g : Group → Group := id) : State := sp (fun q => q.setTask 1 fun k => { k with record := f k.record }) g
def sm (f : Team → Team) (g : Group → Group := id) : State := (st g).setMyTeam f
/-- The same with a user trap handler. -/
def sh (g : Group → Group := id) : State := sk (fun r => { r with handler := 0x40000 }) g
/-- The issuing path changed. -/
def onPath (f : Path → Path) (g : Group) : Group := { g with paths := g.paths.set 0 (some (f (g.path 0))) }
/-- What a computing instruction asks of a state: legal operands, nothing in its way, rows for its destinations. -/
def fits (s : State) (u legal : Bool) (uses : List Use) (dests marks : List Nat) : Bool :=
  legal && s.clear u uses && (u || State.rowsFor (s.marks marks) dests s)

/-- No flag is enabled to trap in the small state, so no flags raised keep an instruction from its effect. -/
theorem witness_flags : ∀ fl, st.enabledFlags fl = 0 := fun fl => by
  show (BitVec.ofNat 5 fl &&& 0).toNat = 0
  simp
theorem witness_StepRunsDecoded_halted : (({ State.reset with bootst := 0x81 } : State).halted = true ∧ ∀ i ∈ ({ State.reset with bootst := 0x81 } : State).inputs, isPowerOn i = false) :=
  ⟨by decide +kernel, fun _ h => nomatch h⟩
/-- A fetched word. -/
def fetched {ε : Type} (x : Except ε Word) : Option Word :=
  match x with
  | .ok w => some w
  | .error _ => none
/-- The issue that a state takes next. -/
noncomputable def issued (s : State) : Option (Nat × Nat) :=
  match s.next with
  | .issue g n => some (g, n)
  | _ => none
theorem witness_StepRunsDecoded : (State.reset.withFetchWord 32 0).halted = false ∧ (State.reset.withFetchWord 32 0).due = none ∧ issued (State.reset.withFetchWord 32 0) = some (0, 0)
    ∧ st.tableStruck = false ∧ st.struck 1 st.me.tile st.pc.toNat = false ∧ fetched (st.fetchWord st.pc.toNat) = some 0 ∧ takesLiteral 0 = false
    ∧ decodeBytes (bytesOfWord 0) = some (.nop 0, []) := by decide +kernel
theorem witness_StepRunsDecoded_powerOn : isPowerOn (.powerOnReset true) = true ∧ isPowerOn .linkDown = false ∧ (({ State.reset with bootst := 0x81, inputs := [.linkDown, .powerOnReset true] } : State).inputs =
    [.linkDown] ++ .powerOnReset true :: []) := ⟨rfl, rfl, rfl⟩
/-- An LDCW with its literal; a PC without a mapping. -/
theorem witness_StepRunsDecoded_literal : fetched (((State.reset.withFetchWord 64 0x3F80000042280800).checkout 0 0).fetchWord 0x20000) = some 0x42280800 ∧ takesLiteral 0x42280800 = true
    ∧ ((State.reset.withFetchWord 64 0x3F80000042280800).checkout 0 0).nextWord = 0x20004 ∧ fetched (((State.reset.withFetchWord 64 0x3F80000042280800).checkout 0 0).fetchWord 0x20004) = some 0x3F800000
    ∧ fetched ((st fun g => onPath (fun p => { p with pc := 0x1000000000 }) g).fetchWord 0x1000000000) = none := by decide +kernel
theorem witness_CanonicalMemory : (State.reset.withFetchWord 32 0).canonical := by unfold State.canonical; decide +kernel
theorem witness_CanonicalMemory_step : ∃ t, step (State.reset.withFetchWord 32 0) = .next t := by
  have h : (match step (State.reset.withFetchWord 32 0) with | .next _ => true | _ => false) = true := by decide +kernel
  split at h
  · exact ⟨_, by assumption⟩
  · cases h
theorem witness_UnsealedNeverLocked : (State.reset.withFetchWord 32 0).unsealedOpen := by
  have h : ((List.range 8).all fun p => ((State.reset.withFetchWord 32 0).part p).state != .locked && ((State.reset.withFetchWord 32 0).part p).state != .error) = true := by decide +kernel
  intro p hp _
  have := List.all_eq_true.1 h p (List.mem_range.2 hp)
  simpa using this
theorem witness_EmptyInstruction : fld 0x00000030 24 8 = 0 ∧ fld 0x00000030 0 4 = 0 ∧ fld 0x00000030 6 18 = 0 ∧ st.clear true [] = true := by decide +kernel
theorem witness_BytePermute : fits st false (rd false 47 && rs false 12 && kx false true && kx false true) [.v 12, .v 11] [47] (markA false true 12 ++ markB false true 11) = true
    ∧ fits st true (rd true 63 && rs true 0 && kx true false && kx true false) [.s 0, .s 63] [63] [] = true := by decide +kernel
theorem witness_Select : fits st false (vr 47 && vr 12 && small (11 : BitVec 4) 12) [.v 12, (srcB false 11).use] [47] [] = true ∧ fld 0x3F083080 24 8 = 0x3F ∧ fld 0x3F083080 4 1 = 0
    ∧ fld 0x3F083090 4 1 = 1 ∧ 12 ≤ (12 : BitVec 4).toNat := by decide +kernel
theorem witness_trapsToUser : sh.trapsToUser := by unfold State.trapsToUser; decide +kernel
theorem witness_IntegerArithmetic : fits st false (rd false 47 && rs false 12 && kx false true && kx false false && kx false false && true) [.v 12, .v 11, .v 47] [47] (markA false true 12) = true
    ∧ fits st true (rd true 63 && rs true 0 && kx true false && kx true false && kx true false && true) [.s 0, .s 63, .s 63] [63] [] = true := by decide +kernel
theorem witness_LogicAndShifts : fits st false (rd false 47 && rs false 0 && kx false true) [.v 0] [47] (markA false true 0) = true
    ∧ fits st true (rd true 63 && rs true 63) [.s 63, .s 0, .s 63] [63] [] = true ∧ fits st false (vr 0 && vr 12 && small (11 : BitVec 4) 12) [.v 12, .v 5] [0] [] = true := by decide +kernel
theorem witness_MovesAndAddresses : fits st false (pr false 46 && pr false 10 && pr false 8 && kx false true && kx false true) (pairUse false 10 ++ pairUse false 8) [46, 47] (markPair false true 10 ++ markPair false true 8) = true
    ∧ fits st true (pr true 62 && pr true 0) (pairUse true 0) [62, 63] [] = true ∧ fits st false (vr 47) [.s 63] [47] [] = true
    ∧ fits st true (rd true 63 && rs true 63 && small (31 : BitVec 11) 32) [.s 63] [63] [] = true := by decide +kernel
theorem witness_ComparesAndPredicates : fits st false (cd false 5 && rs false 12 && kx false true && kx false true && true) [.v 12, .v 11] [] (markA false true 12 ++ markB false true 11) = true
    ∧ fits st true (cd true 63 && rs true 63) [.s 63, .s 0] [] [] = true ∧ (pd false 11 && pd false 0 && pd false 11) = true ∧ (pd true 63 && pd true 63 && pd true 0) = true
    ∧ st.clear true [.cm] = true := by decide +kernel
theorem witness_FloatArithmetic : fits st false (rd false 47 && rs false 12 && kx false true && kx false true && kx false true && st.floatET) [.v 12, .v 11, .v 10] [10] (markA false true 12 ++ markB false true 11 ++ markD false true 10) = true
    ∧ fits st true (rd true 63 && rs true 0 && kx true false && st.floatET) [.s 0, .s 63] [63] [] = true := by decide +kernel
theorem witness_FloatCompares : fits st false (cd false 5 && rs false 12 && kx false true && kx false false && st.floatET) [.v 12, .v 11] [] (markA false true 12) = true
    ∧ fits st false (cd false 0 && pr false 10 && pr false 8 && kx false true && kx false true) (pairUse false 10 ++ pairUse false 8) [] (markPair false true 10) = true
    ∧ fits st true (cd true 63 && pr true 62 && pr true 0) (pairUse true 62 ++ pairUse true 0) [] [] = true := by decide +kernel
theorem witness_SpecialFunctions : fits st false (rd false 47 && rs false 12 && kx false true && st.floatET) [.v 12] [47] (markA false true 12) = true
    ∧ fits st true (rd true 63 && rs true 0 && kx true false && st.floatET) [.s 0] [63] [] = true := by decide +kernel
theorem witness_ResultPairs : fits st false (pr false 46 && rs false 12 && kx false true && kx false true) [.v 12, .v 11] [46, 47] (markA false true 12 ++ markB false true 11) = true
    ∧ fits st true (pr true 62 && pr true 0 && pr true 2) (pairUse true 0 ++ pairUse true 2) [62, 63] [] = true
    ∧ fits st false (rd false 47 && pr false 10 && kx false true) (pairUse false 10) [47] (markPair false true 10) = true := by decide +kernel
theorem witness_Conversions : fits st false (rd false 47 && rs false 12 && (small (6 : BitVec 4) 7 && small (6 : BitVec 4) 7)) [.v 12] [47] [] = true
    ∧ fits st true (mult 4 true 60 && rs true 0 && pack8Code 12) [.s 0] [60, 61, 62, 63] [] = true ∧ fits st false (rd false 47 && mult 8 false 0) (.v 12 :: (List.range 8).map Use.v) [47] [] = true
    ∧ fits st true (pr true 62 && rs true 0 && packCode 10) [.s 0] [62, 63] [] = true := by decide +kernel
theorem witness_RandomDraws : fits st false (small (1 : BitVec 6) 2 && pr false 46) [] [46, 47] [] = true ∧ fits st true (small (0 : BitVec 6) 2 && rd true 63) [] [63] [] = true := by decide +kernel
theorem witness_ShufflesAndBroadcast : fits st false (vr 47 && vr 12 && vr 11) [.vw 12, .vw 11] [47] [12, 11] = true ∧ fits st false (vr 47 && vr 12 && small (63 : BitVec 11) 64) [.vw 12] [47] [] = true
    ∧ fits st true (rd true 63 && vr 12 && decide ((15 : BitVec 6).toNat < st.me.width.lanes)) [.vw 12] [63] [] = true := by decide +kernel
theorem witness_VotesAndBallot : (small (5 : BitVec 6) 6 && small (11 : BitVec 6) 12 && small (1 : BitVec 6) 2) = true ∧ st.clear false [.p 11] = true
    ∧ fits st false (vpair 46 && small (11 : BitVec 6) 12 && small (1 : BitVec 6) 2) [.p 11] [46, 47] [] = true := by decide +kernel
theorem witness_ScansAndReductions : fits st false (vr 47 && vr 12 && small (1 : BitVec 6) 2 && st.floatET) [.vw 12] [47] [12] = true
    ∧ (even 62 && vr 12 && vr 0) = true ∧ st.clear false [.vw 12, .vw 0] = true ∧ (vr 12 && small (2 : BitVec 6) 3 && ((2 : BitVec 6) != 2 || st.floatET)) = true
    ∧ st.clear false [.vw 12, .s 63] = true := by decide +kernel

/-- The group with p0 set in some lanes; its path has the lanes of the group. -/
def lanes (m : LaneMask) (g : Group) : Group := { g with p := g.p.set 0 m }
theorem st_unspilled : st.unspilled := unspilled_of (by decide +kernel) (by decide +kernel)
theorem witness_ControlTransfers : st.clear true [] = true ∧ testOk true 11 = true ∧ testOk false 15 = true ∧ st.clear true (testUse 11) = true ∧ st.clear true (testUse 15) = true ∧ st.clear true [.cmBit 63] = true
    ∧ st.testLanes false 0 = 0 ∧ (st (lanes 0xFFFF)).testLanes false 0 = (st (lanes 0xFFFF)).path.member := by decide +kernel
theorem witness_ControlTransfers_splits : (st (lanes 1)).testLanes false 0 ≠ 0 ∧ (st (lanes 1)).testLanes false 0 ≠ (st (lanes 1)).path.member ∧ (st (lanes 1)).clear true (testUse 0) = true
    ∧ (st (lanes 1)).me.freeEntries.head? = some 1 ∧ (st (lanes 1)).path.join ≠ some (pc56 ((st (lanes 1)).pc + 4)) ∧ (st (lanes 1)).path.join ≠ some (pc56 ((st (lanes 1)).pc + 4 * 4)) := by decide +kernel
theorem witness_ControlTransfers_unspilled : (st (lanes 1)).unspilled := unspilled_of (by decide +kernel) (by decide +kernel)
/-- A path inside a call, and one inside a loop on lc2. -/
theorem witness_ControlTransfers_scopes : ((st fun g => { (onPath (fun p => { p with parent := some 1 }) g) with paths := ((onPath (fun p => { p with parent := some 1 }) g).paths.set 1 (some { state := .joined, kind := .call })) }).scopeKind == .call) = true
    ∧ loopNo 2 = some 2 ∧ ((st fun g => { (onPath (fun p => { p with parent := some 1 }) g) with
        paths := ((onPath (fun p => { p with parent := some 1 }) g).paths.set 1 (some { state := .joined, kind := .loop 2 })), loops := g.loops.set 2 { active := true } }).me.loops[2].active &&
      (st fun g => { (onPath (fun p => { p with parent := some 1 }) g) with
        paths := ((onPath (fun p => { p with parent := some 1 }) g).paths.set 1 (some { state := .joined, kind := .loop 2 })), loops := g.loops.set 2 { active := true } }).scopeKind == .loop 2) = true := by decide +kernel
theorem witness_ScopesCallsAndLoops : st.clear true [.exm] = true ∧ st.me.freeEntries.head? = some 1 ∧ pc56 (st.pc + 4) ≠ st.jTarget 4 ∧ st.testLanes false 0 = 0
    ∧ (st (lanes 0xFFFF)).path.member &&& ~~~(st (lanes 0xFFFF)).testLanes false 0 = 0 ∧ (st (lanes 0xFFFF)).testLanes false 0 ≠ 0
    ∧ (st (lanes 1)).path.member &&& ~~~(st (lanes 1)).testLanes false 0 ≠ 0 ∧ (st (lanes 1)).me.freeEntries.take 2 = [1, 2] := by decide +kernel
theorem witness_ScopesCallsAndLoops_calli : even 62 = true ∧ (ss 62 0x30000).clear true [.exm, .s 62, .s 63] = true ∧ bits ((ss 62 0x30000).rpair 62) 56 8 = 0 ∧ bits ((ss 62 0x30000).rpair 62) 0 2 = 0
    ∧ (ss 62 0x30000).exm ≠ 0 ∧ (ss 62 0x30000).path.member &&& ~~~(ss 62 0x30000).exm = 0 ∧ (ss 62 0x30000).rpair 62 ≠ pc56 ((ss 62 0x30000).pc + 4) := by decide +kernel
theorem witness_ScopesCallsAndLoops_loops : loopNo 2 = some 2 ∧ (small (1023 : BitVec 11) 1024 && !st.me.loops[2].active) = true ∧ st.clear true [.exm, .s 63] = true ∧ st.rs 63 = 0
    ∧ (ss 62 3).rs 62 ≠ 0 ∧ (1 : BitVec 10) ≠ 0 := by decide +kernel
theorem witness_ModeAndMasks : modeLegal st.me.mode = true ∧ modeLegal ((ss 5 0x0003000F).rs 5) = true ∧ (modefOk 10 1 && modeLegal (setBits st.me.mode (modeField 10).1 (modeField 10).2 1)) = true
    ∧ even 62 = true ∧ (even 62 && small (3 : BitVec 6) 4) = true ∧ st.clear true [.exm, .s 62, .s 63] = true ∧ (small (11 : BitVec 6) 12 && small (1 : BitVec 6) 2) = true
    ∧ st.clear true [.exm, .p 11] = true ∧ fits st true (rd true 63 && small (14 : BitVec 11) 15 && !(true && (14 : BitVec 11) == 0)) [] [63] [] = true := by decide +kernel
theorem witness_PredicateAndFlagMoves : (even 62 && small (11 : BitVec 6) 12) = true ∧ st.clear true [.p 11] = true ∧ (small (11 : BitVec 6) 12 && even 62) = true ∧ st.clear true [.exm, .s 62, .s 63] = true
    ∧ st.clear true [.cm] = true ∧ (vr 0 && vr 47 && decide ((0 : BitVec 6).toNat ≤ (47 : BitVec 6).toNat)) = true ∧ (st.me.entries.filter fun n => (st.me.path n).state != .joined).length = 1
    ∧ ((st fun g => { g with paths := g.paths.set 3 (some {}) }).me.entries.filter fun n => ((st fun g => { g with paths := g.paths.set 3 (some {}) }).me.path n).state != .joined).length ≠ 1 := by decide +kernel
/-- A group in its user handler, behind a trapped word. -/
def inHandler (w : Word) (g : Group) : Group := { g with handler := some { path := 0, member := 0xFFFF, exm := 0xFFFF, others := [] }, x := { xinst := w, xmask := 0xFFFF, xpc := 0x20000, xmode := 0x0003000F } }
theorem witness_TrappedResultReplacement : (st (inHandler 0)).me.handler.isSome = true
    ∧ destKind 0x200C2008 = .scalar ∧ replaceLegal .scalar (bits (0x200C2008 : Word) 18 6) 63 true false = true ∧ destKind 0x801020C8 = .scalarPair ∧ replaceLegal .scalarPair (bits (0x801020C8 : Word) 18 6) 62 true false = true
    ∧ destKind 0x50002008 = .cmBit ∧ replaceLegal .cmBit 0 63 true false = true ∧ destKind 0x200C2000 = .vector ∧ replaceLegal .vector 3 47 false false = true ∧ destKind 0x801020C0 = .vectorPair ∧ replaceLegal .vectorPair 4 46 false false = true
    ∧ destKind 0x591000C0 = .pred ∧ replaceLegal .pred 4 11 false false = true ∧ destKind 0x50002000 = .predPair ∧ replaceLegal .predPair 0 11 false false = true
    ∧ (st (inHandler 0)).soundFor [.s 63, .cmBit 63] = true ∧ (st (inHandler 0)).soundFor [.v 12, .v 11] = true ∧ State.rowsFor [] [3, 4, 5] (st (inHandler 0)) = true
    ∧ replaceLegal .vectorPair 4 10 false true = true ∧ State.rowsFor ((st (inHandler 0)).marks [10, 11]) [4, 5] (st (inHandler 0)) = true := by decide +kernel
theorem witness_ExitAndBreakpoint : st.clear true [.exm] = true ∧ (st (onPath fun p => { p with exm := 0 })).exm = 0 ∧ st.exm ≠ 0 ∧ st.path.member &&& ~~~st.exm = 0
    ∧ (st (onPath fun p => { p with exm := 1 })).path.member &&& ~~~(st (onPath fun p => { p with exm := 1 })).exm ≠ 0 ∧ st.path.join ≠ some (pc56 (st.pc + 4))
    ∧ st.me.live = true ∧ st.me.handler = none ∧ st.path.parent = none ∧ small (1023 : BitVec 11) 1024 = true ∧ st.myPart.debugOn = false ∧ st.me.part < 8
    ∧ (sp fun q => q.setReg 0x930 1).myPart.debugOn = true := by decide +kernel
theorem witness_ExitAndBreakpoint_other : ∃ n, n ≠ (st fun g => { g with paths := g.paths.set 3 (some {}) }).me.cur ∧ ((st fun g => { g with paths := g.paths.set 3 (some {}) }).me.path? n).isSome = true :=
  ⟨3, by decide +kernel, by decide +kernel⟩
theorem witness_TrapAndReturn : small (1023 : BitVec 11) 1024 = true ∧ sh.clear true [.exm] = true ∧ (st.myTask.record.handler = 0 ∨ st.me.handler.isSome = true) ∧ (sh (inHandler 0)).me.handler.isSome = true
    ∧ (st (inHandler 0)).me.path? 0 = some (st (inHandler 0)).path ∧ (st (inHandler 0)).path.join ≠ some (pc56 (st (inHandler 0)).me.x.xpc) := by decide +kernel
theorem witness_parksForSystem : st.parksForSystem := ⟨by decide +kernel, by decide +kernel, st_unspilled⟩
theorem witness_WhatTraps : modeCHK (sh fun g => { g with mode := 0x000B000F }).me.mode = true ∧ modeNAMETRAP (sh fun g => { g with mode := 0x0203000F }).me.mode = true
    ∧ modeCHK (sh fun g => { g with mode := 0x0203000F }).me.mode = false ∧ (sh fun g => { g with mode := 0x0203000F }).unmapped [.exm, .v 40] (sh fun g => { g with mode := 0x0203000F }).active = true
    ∧ modeLegal ((ss 5 0x04000000).rs 5) = false ∧ small (1024 : BitVec 11) 1024 = false ∧ bits ((ss 62 0x30002).rpair 62) 0 2 ≠ 0 ∧ bits ((ss 63 0x01000000 62).rpair 62) 56 8 ≠ 0
    ∧ (st fun g => { g with paths := Vector.replicate 72 (some (g.path 0)) }).me.freeEntries = [] ∧ st.priv = false ∧ 0x800 ≤ (0x873 : BitVec 12).toNat
    ∧ writableNumber 0x852 = true := by decide +kernel
theorem witness_WhatTraps_hazard : ([.exm, .s 3] : List Use).any (sh fun g => { g with mode := 0x000B000F, pending := [{ target := .scalar 3 0, ready := 100 }] }).hazard = true := by decide +kernel
/-- The accesses of an M-form instruction of one lane. -/
def one (s : State) (u : Bool) (a : BitVec 6) (off : BitVec 8) (size : Nat) : List Access :=
  (s.askers u).map fun k => { lane := k, va := s.effective u a off size k, size := size }
theorem witness_LoadsAndStores : (mult 4 true 60 && base true 62 && small (2 : BitVec 3) 3) = true ∧ (ss 62 0x30000).clear true (baseUse true 62) = true
    ∧ (ss 62 0x30000).mayAccess true .load 16 (one ((ss 62 0x30000).seen (usesOf true (baseUse true 62))) true 62 0 16) true = true
    ∧ (rd false 47 && base false 63 && small (0 : BitVec 3) 3) = true ∧ (ss 62 0x30000).clear false (baseUse false 63) = true ∧ State.rowsFor [] [47] (ss 62 0x30000) = true
    ∧ (ss 62 0x30000).mayAccess false .load 0 (one ((ss 62 0x30000).seen (usesOf false (baseUse false 63))) false 63 127 4) true = true
    ∧ (mult 4 true 60 && base true 62 && storeOrd 3) = true ∧ (ss 62 0x30000).mayAccess true .store 16 (one (ss 62 0x30000) true 62 0 16) false = true := by decide +kernel
theorem witness_Atomics : (atReg true true 62 && atDest true true true 60 && base true 62 && small (4 : BitVec 3) 5) = true ∧ (ss 62 0x30000).clear true (baseUse true 62 ++ operandUse true 62 true) = true
    ∧ (ss 62 0x30000).mayAccess true .atomic 8 (one (ss 62 0x30000) true 62 0 8) true = true ∧ (!false && atReg false false 12 && atDest false false false 0 && decide (modeET st.me.mode ≤ 2)) = true := by decide +kernel
theorem witness_CachesAndFences : (vr 47 && odd 63 && small (2 : BitVec 3) 3) = true ∧ (ss 62 0x30000).clear false (baseUse false 63) = true ∧ State.rowsFor [] [47] (ss 62 0x30000) = true
    ∧ (ss 62 0x30000).refusal ((ss 62 0x30000).groupAgent (ss 62 0x30000).me) .load ((ss 62 0x30000).effective false 63 0 64 0) 64 64 = none
    ∧ (ss 62 0x30000).mayAccess true .load 0 ((lanesOf (ss 62 0x30000).active).map fun k => { lane := k, va := (ss 62 0x30000).effective false 63 0 64 0 + 4 * k, size := 4 }) true = true
    ∧ (base true 62 && small (1 : BitVec 3) 2) = true ∧ fenceOrd 2 = true ∧ fenceOrd 4 = true ∧ flushOk 62 0 false 4 = true ∧ flushOk 0 0 true 0 = true
    ∧ (ss 62 0x30000).clear true [.s 62, .s 63, .s 0] = true ∧ bits ((ss 62 0x30000).rpair 62) 56 8 = 0 := by decide +kernel
/-- The first byte of the shared-bank window in s62:s63, its unit allotted to the partition. -/
def sb (g : Group → Group := id) : State := sp (fun q => { q with banks := [(0, 4)] }) fun x => g ((x.setS 62 (BitVec.ofNat 32 bankBase)).setS 63 (BitVec.ofNat 32 (bankBase / 2 ^ 32)))
theorem witness_BankOperations : (even 62 && vr 12 && small (4 : BitVec 3) 5) = true ∧ sb.clear false [.s 62, .s 63, .v 12] = true ∧ (sb.rpair 62).toNat % (8 * sb.me.width.lanes) = 0
    ∧ (((lanesOf sb.active).map fun k => ({ lane := k, va := (sb.rpair 62).toNat + 8 * k, size := 8 } : Access)).all fun x => windowOf x.va == 1) = true
    ∧ sb.mayAccess true .atomic 0 ((lanesOf sb.active).map fun k => { lane := k, va := (sb.rpair 62).toNat + 8 * k, size := 8 }) false = true
    ∧ (even 62 && decide (1024 ≤ 1024)) = true ∧ (sb.rpair 62).toNat % 4 = 0 ∧ (sb.rpair 62).toNat % 4096 + 4 * 1024 ≤ 4096 ∧ windowOf ((sb.rpair 62).toNat + 4095) = 1
    ∧ (sb fun g => g.setS 61 2).clear true [.s 62, .s 63, .s 0, .s 61] = true
    ∧ sb.mayAccess true .atomic 0 ((List.range 2).map fun k => { lane := 64, va := (sb.rpair 62).toNat + 4 * k, size := 4 }) false = true := by decide +kernel
/-- A partition with its tile-buffer table at the start of its banks; `b` is the byte with the FULL bit of buffer 0. -/
def sf (b : Byte) (g : Group → Group := id) : State := { sp (fun q => { (q.setReg 0x857 (BitVec.ofNat 32 bankBase)).setReg 0x858 (BitVec.ofNat 32 (bankBase / 2 ^ 32)) with banks := [(0, 4)] }) g with bank := if b = 0 then [] else [(15, b)] }
theorem witness_FullEmptyBits : ((sf 0).rs 5).toNat < 4096 ∧ (sf 0).answer = none ∧ (sf 0).myPart.febWord 0 = some 12 ∧ (sf 0).struck 5 0 (12 / 8 * 8) = false ∧ (sf 0).clear true [.s 5] = true
    ∧ (sf 0).febFull 0 0 = false ∧ (sf 0x80).febFull 0 0 = true ∧ (sf 0).myPart.febWord 1023 = some (16 * 1023 + 12) := by decide +kernel
/-- The path holds the answer of a unit. -/
def answered (n : Nat) (ws : List Word) (g : Group) : Group := onPath (fun p => { p with wait := some (.granted n ws) }) g
theorem witness_answers : (st (answered 0 [])).answer = some (0, []) ∧ (st (answered 0 [])).answer.isSome = true := by decide +kernel
/-- A team with 16 KiB of scratchpad; s62:s63 point to it, s60:s61 to paged memory. -/
def sc (g : Group → Group := id) (f : Team → Team := id) : State :=
  sm (fun t => f { t with scr := 16 }) fun x => g (((x.setS 62 (BitVec.ofNat 32 scrBase)).setS 63 (BitVec.ofNat 32 (scrBase / 2 ^ 32))).setS 60 0x30000)
theorem witness_CopiesAndBatches_cpya : (even 62 && even 60 && (false || (0 : BitVec 2).toNat == 0) && decide (16384 ≤ 2 ^ 24) && (sc fun g => g.setS 5 16384).copyRoom) = true
    ∧ (sc fun g => g.setS 5 16384).clear true [.s 62, .s 63, .s 60, .s 61, .s 5] = true ∧ (sc fun g => g.setS 5 16384).inWindow ((sc fun g => g.setS 5 16384).rpair 62).toNat 16384 = true
    ∧ (sc fun g => g.setS 5 16384).inWindow ((sc fun g => g.setS 5 16384).rpair 60).toNat 16384 = true ∧ (sc fun g => g.setS 5 16384).inScratch ((sc fun g => g.setS 5 16384).rpair 62).toNat 16384 = true := by decide +kernel
theorem witness_CopiesAndBatches_cpyg : (even 62 && even 60 && even 4 && decide (2 ≤ (12 : BitVec 4).toNat) && decide ((12 : BitVec 4).toNat ≤ 12) && decide (4 ≤ 4096) && (sc fun g => g.setS 5 4).copyRoom) = true
    ∧ (sc fun g => g.setS 5 4).inScratch scrBase (4 * 2 ^ 12) = true ∧ 0 + 4 * 4 ≤ (sc fun g => g.setS 5 4).myTeam.scr * 1024 ∧ ((sc fun g => g.setS 5 4).rpair 62).toNat = scrBase ∧ scrBase < cluBase
    ∧ ((wordsOf (.scr (sc fun g => g.setS 5 4).me.team 0) (4 * 4)).any fun w => (sc fun g => g.setS 5 4).poisoned w.1) = false := by decide +kernel
theorem witness_CopiesAndBatches_bmcast : (even 60 && even 4 && (sk fun r => { r with clus := true }).myTask.record.clus && decide (0 < 2 ^ min 12 (sk fun r => { r with clus := true }).myTask.record.members)
    && decide (0 ≤ 2 ^ 24) && (sk fun r => { r with clus := true }).copyRoom) = true ∧ (sk fun r => { r with clus := true }).inWindow 0 0 = true := by decide +kernel
theorem witness_CopiesAndBatches_batches : st.me.live = true ∧ ¬ 16 ≤ st.me.batches.length ∧ 16 ≤ (st fun g => { g with batches := List.replicate 16 (1, []) }).me.batches.length
    ∧ st.path.wait = none ∧ (st fun g => { g with batches := [(1, [7])] }).me.batches.any (fun b => covers 1 b.1) = true ∧ (st fun g => { g with batches := [(2, [7])] }).me.batches.any (fun b => covers 1 b.1) = false := by decide +kernel
theorem witness_SystemRegisters : st.clear true [.s 5] = true ∧ st.priv = false ∧ (sp fun q => q.setTask 1 fun k => { k with priv := true }).priv = true ∧ ¬ 0x800 ≤ (0x7FF : BitVec 12).toNat ∧ 0x800 ≤ (0x800 : BitVec 12).toNat
    ∧ (st.sysWrite 0x010 0xFF).isSome = true ∧ (st.sysWrite 0x010 0x100) = none ∧ writableNumber 0x852 = true ∧ (0x852, 0xFFFFFFFF) ∈ plainRegs ∧ (0xFFFFFFFF : Word) &&& ~~~0xFFFFFFFF = 0 := by decide +kernel
theorem witness_HostView : State.reset.linkUp = true ∧ (State.reset.part 0).state = .none ∧ (st.part 0).state ≠ .none ∧ (st.part 0).isLocked 0x852 = false
    ∧ (({ (st.part 0) with state := .locked, isSealed := true } : Partition).isLocked 0x879) = true := by decide +kernel
theorem witness_HostView_debug : (st.locate? 0).isSome = true ∧ (st.part st.me.part).isSealed = false ∧ ((sp fun q => { q with isSealed := true }).part 0).isSealed = true ∧ shownNumber 0x840 = false ∧ 8191 / 0x2000 = 0 := by decide +kernel
theorem witness_BarriersAndMarks : small (1 : BitVec 6) 2 = true ∧ (sk fun r => { r with clus := true }).myTask.record.clus = true ∧ st.me.arrival true = none ∧ st.me.arrival false = none ∧ st.clear true [] = true
    ∧ st.awaitedPhase = none ∧ (st.me.entries.filter fun k => (st.me.path k).state != .joined).length = 1 ∧ (st (onPath fun p => { p with wait := some (.barrier false 3) })).awaitedPhase = some 3
    ∧ (st.team 0).allIn [0] = true ∧ (st.team? 0).isSome = true := by decide +kernel
/-- Pool 0 of two blocks of 64 bytes at 0x30000, one of them allocated, on. -/
def sq (g : Group → Group := id) : State := sp (fun q => { q with pools := [(0, { enabled := true, base := 0x30000, count := 2, free := [(0, [0x30040])], alloc := [(0x30000, 0)] })] }) g
theorem witness_QuarryPools : (pr true 62 && small (0 : BitVec 11) 16) = true ∧ sq.clear true [] = true ∧ (sq.myPart.pool? 0).isSome = true ∧ State.rowsFor [] [46, 47] sq = true
    ∧ sq.clear true [(srcA true 62).use, ((srcA true 62).plus 1).use] = true ∧ ((sq.myPart.pool? 0).map fun p => p.owns [0x30000]) = some true ∧ ((sq.myPart.pool? 0).map fun p => p.owns [0x30040]) = some false
    ∧ (match sq.walkLinks 4096 0 [] with | (.blocks bs, _) => bs == [] | _ => false) = true ∧ (sq.myPart.pool? 1) = none ∧ sq.openPool 0 0 = none
    ∧ ({ sp (fun q => q.setReg 0x859 0x40000) with dev := Memory.setBytes probeTables 0x40000 (leBytes 32 (0x30000 + 2 * 2 ^ 64 + 6 * 2 ^ 96)) } : State).openPool 0 0 ≠ none := by decide +kernel
/-- Mould 5 enabled; `f` says what its tiles hold. -/
def sd (f : Mould → Mould) (g : Group → Group := id) : State := sp (fun q => { q with moulds := [(5, f { enabled := true, tmpl := 0x40000, img := 0x50000, rowSize := 4 })] }) fun x => g (x.setS 5 5)
theorem witness_Moulds : ((sd id).rs 5).toNat ≤ 63 ∧ (sd id).clear true [.s 5] = true ∧ ((sd id).mould (sd id).me.part 5).enabled = true ∧ ((sd id).mould (sd id).me.part 5).filling = none
    ∧ ((sd fun m => { m with tiles := m.tiles.set 1 { state := .filling } }).mould 0 5).filling = some 1 ∧ 63 < ((ss 5 64).rs 5).toNat ∧ ((ss 5 63).mould 0 63).enabled = false := by decide +kernel
theorem witness_Moulds_mfill : (vpair 46 && vr 12) = true ∧ (sd id).clear false [.s 5, .v 10, .v 11, .v 12] = true
    ∧ (sd id).mayAccess true .load 4 ((lanesOf (sd id).active).map fun k => { lane := k, va := ((sd id).dword (.v 10) k).toNat, size := 4 }) true = true
    ∧ (sd id).openMould 0 5 = none ∧ (((sd id).mould 0 5).tile 0).held = false ∧ (((sd fun m => { m with tiles := m.tiles.set 1 { held := true } }).mould 0 5).tile 1).held = true ∧ (sd id).taskRoom = true := by decide +kernel
/-- The bytes of a legal format block: INT8 by INT8, one column of 32 elements; zeros are a legal drain descriptor of one element. -/
def block32 : List Host.Cell := Memory.setBytes [] 0 (leBytes 32 (0x66 * 2 ^ 24 + 64 * 2 ^ 32 + 32 * 2 ^ 64))
theorem witness_MatrixIssue_kstep : (sc id fun t => { t with scratch := block32 }).answer = none ∧ (sc id fun t => { t with scratch := block32 }).gangOf = none ∧ (even 62 && vr 12) = true
    ∧ (sc id fun t => { t with scratch := block32 }).clear false ([.s 62, .s 63] ++ (List.range (min ((sc id fun t => { t with scratch := block32 }).peekRegs scrBase) (48 - 12))).map fun j => Use.v (12 + j)) = true
    ∧ (match (sc id fun t => { t with scratch := block32 }).readBlock false 16 0 scrBase with | .ok _ => true | .error _ => false) = true ∧ (sc id fun t => { t with scratch := block32 }).queueFull = false
    ∧ (sc id fun t => { t with matQueue := List.replicate 8 { seq := 0, kind := .tzeroAll } }).queueFull = true := by decide +kernel
theorem witness_MatrixIssue_drain : (sc id).myTeam.matPoisoned = none ∧ (match (sc id).readDrain none scrBase with | .ok _ => true | .error _ => false) = true
    ∧ (match (sc id).readDrain (some 47) scrBase with | .ok _ => true | .error _ => false) = true ∧ (sc id).awaiting = false ∧ State.rowsFor [] [47] (sc id) = true := by decide +kernel
theorem witness_MatrixIssue_rest : (decide ((gangMembers (st.rs 5)).length ≤ 6) && decide ((st.rs 5).toNat < 2 ^ st.myTeam.groups)) = true ∧ st.myTeam.latch = [] ∧ (small (7 : BitVec 6) 8 && vr 12 && decide (st.sliceIndex 5 0 ≤ 31)) = true
    ∧ st.clear false [.s 5, .v 12] = true ∧ (small (7 : BitVec 6) 8 && decide (((ss 5 96).rs 5).toNat ≤ 96)) = true ∧ st.path.wait = none ∧ st.myTeam.matQueue.any (fun m => decide (m.seq ≤ 0)) = false
    ∧ State.rowsFor [] [47] st = true ∧ (47 : BitVec 6).toNat + 1 ≤ 48 := by decide +kernel
theorem witness_MatrixOperation : (st.team? 0).isSome = true ∧ matFmt 4 ≠ none ∧ matFmt 0 ≠ none ∧ ([0, 1, 127].Nodup : Prop) ∧ 127 + 1 ≤ 128 ∧ st.errors = []
    ∧ ((sm fun t => { t with matQueue := [{ seq := 1, kind := .tzeroAll }] }).team 0).matQueue = [{ seq := 1, kind := .tzeroAll }] ∧ (st.team 0).matQueue = [] := by decide +kernel
theorem witness_Futures : (even 62 && small (6 : BitVec 6) 7) = true ∧ (sc id).clear true [.s 62, .s 63] = true ∧ ((sc id).rpair 62).toNat + 128 ≤ scrBase + (sc id).myTeam.scr * 1024 ∧ ((sc id).rpair 62).toNat % 128 = 0
    ∧ (List.range 64).find? (fun k => (((sc id).release 3).myTeam.future k).state == .free) = some 0 ∧ (((sc id).release 3).queueOf 0 (((sc id).release 3).engineOf 0 6)).length < 64
    ∧ ((sc id).release 3).struck 8 0 (((sc id).release 3).myTeam.futureWord 0) = false ∧ ((sc id).rpair 60).toNat < scrBase ∧ (sc id).myTeam.named ((sc id).rs 5) = none
    ∧ (List.range 64).find? (fun k => ((sm fun t => { t with futures := Vector.replicate 64 { state := .pending } }).myTeam.future k).state == .free) = none := by decide +kernel
/-- Future 63 in generation 1, pending or done. -/
def su (x : FutureState) : State := sm (fun t => { t with futures := t.futures.set 63 { state := x, gen := 1 } }) fun g => g.setS 5 127
theorem witness_Futures_named : (su .pending).myTeam.named ((su .pending).rs 5) = some 63 ∧ ((su .pending).myTeam.future 63).state.code = 0 ∧ (su .done).myTeam.named ((su .done).rs 5) = some 63
    ∧ ((su .done).myTeam.future 63).state.code ≠ 0 ∧ (su .done).struck 8 0 ((su .done).myTeam.futureWord 63) = false := by decide +kernel
theorem witness_TasksAndBranches : even 60 = true ∧ (sc id).clear true [.s 60, .s 61] = true ∧ (sc id).mayAccess false .load 64 [{ lane := 64, va := ((sc id).rpair 60).toNat, size := 64 }] true = true
    ∧ (st.readTask 0 (leBytes 64 (0x20000 + (3 + 4 * 1) * 2 ^ 128 + (1 + 48 * 256) * 2 ^ 176) : List Byte)) = none ∧ (st.readTask 0 (leBytes 64 (0x20000 + 4 * 2 ^ 128 + (1 + 48 * 256) * 2 ^ 176))).isSome = true
    ∧ st.path.wait = none ∧ (st.myPart.children st.me.task).any (·.id == 0) = false ∧ ((sp fun q => { q with tasks := q.tasks ++ [{ id := 7, record := { parent := 1 } }] }).myPart.children 1).any (·.id == 7) = true
    ∧ bits ((ss 5 0x30000).rs 5) 0 16 = 0 ∧ bits ((ss 5 3).rs 5) 0 16 ≠ 0 ∧ ((st.part 0).task? 1).isSome = true ∧ (st.part 0).completes probeTask = false
    ∧ ((st.part 0).completes { probeTask with status := .ended }) = true ∧ probeTask.kind = .user := by decide +kernel
theorem witness_Deadlines : st.clear true [.s 5, .s 6] = true ∧ ((ss 5 63).rs 5).toNat < 64 ∧ ¬ ((ss 5 64).rs 5).toNat < 64 ∧ even 62 = true ∧ ((sp fun q => { q with armed := true }).part 0).armed = true
    ∧ ((sp fun q => { q with armed := true }).part 0).remaining = 0 ∧ (st.part 0).armed = false ∧ (st.part 0).state ≠ .none ∧ (st.part 0).stopping = false ∧ (st.part 0).unveiling = none
    ∧ ((sp fun q => { q with unveiling := some { step := 1, cause := 0, period := 0 } }).part 0).flushed = true ∧ (st.part 0).captureSlot = none ∧ (st.part 0).reg2 0x853 = 0 := by decide +kernel
/-- Virtual slot 63 is slot 5; the station of tile 0 holds `l`. -/
def stt (l : List TTOp) (g : Group → Group := id) : State :=
  { sp (fun q => { q with vslots := [(63, 5)] }) (fun x => g (x.setS 5 63)) with now := 100, slots := [(5, { owner := 0, kind := 1, rev := 0, lastw := 0 })], stations := [(0, l)] }
/-- A queued operation of the small state's group. -/
def op (k : TTKind) (v : Nat := 63) : TTOp := { group := 0, path := 0, part := 0, vslot := v, kind := k, queuedAt := 99 }
theorem witness_Turntable : (stt []).answer = none ∧ (stt []).clear true [.s 5] = true ∧ small (1 : BitVec 11) 2 = true ∧ ((stt []).rs 5).toNat < 64 ∧ block 48 = true ∧ (stt []).clear true (.s 5 :: blockUse 48 16) = true
    ∧ look 63 (stt []).myPart.vslots = some 5 ∧ look 0 (stt []).myPart.vslots = none ∧ ((stt []).station (stationOf (stt []).me.tile)).length < 8
    ∧ 8 ≤ ((stt (List.replicate 8 (op (.read false)))).station (stationOf (stt []).me.tile)).length ∧ (stt []).clear true (.s 5 :: blockUse 62 2 ++ blockUse 60 2) = true := by decide +kernel
theorem witness_Turntable_answer : (stt [] (answered 0 (List.replicate 16 0))).answer = some (0, List.replicate 16 0) ∧ (0 : Nat) ≠ 3 ∧ (0 : Nat) ≠ 7 ∧ (48 : BitVec 6).toNat + (List.replicate 16 (0 : Word)).length ≤ 64
    ∧ look 63 (stt []).me.ttLast = none ∧ look 63 (stt [] fun g => { g with ttLast := [(63, (0, 10))] }).me.ttLast = some (0, 10) ∧ (stt []).now < 10 + 192 := by decide +kernel
theorem witness_Turntable_perform : ∃ n, n < 200 ∧ ({ stt [op (.add 7 false 1)] with now := 100 + n } : State).passing 0 = 5 ∧ ({ stt [op (.add 7 false 1)] with now := 100 + n } : State).ttStruck 5 (.add 7 false 1) = false
    ∧ ({ stt [op (.add 7 false 1)] with now := 100 + n } : State).station 0 = [op (.add 7 false 1)] ∧ (99 : Nat) < 100 + n := by
  have h : ((List.range 200).any fun n => ({ stt [op (.add 7 false 1)] with now := 100 + n } : State).passing 0 == 5 && !({ stt [op (.add 7 false 1)] with now := 100 + n } : State).ttStruck 5 (.add 7 false 1)) = true := by
    decide +kernel
  obtain ⟨n, hn, hp⟩ := List.any_eq_true.1 h
  simp only [Bool.and_eq_true, beq_iff_eq, Bool.not_eq_true'] at hp
  exact ⟨n, List.mem_range.1 hn, hp.1, hp.2, rfl, by omega⟩
theorem witness_Turntable_board : ((stt []).slot 6).owner = 0xF ∧ (stt []).myPart.freeVslot = none ∧ ((sp fun q => { q with ttQuota := 1 }).part 0).freeVslot = some 0 ∧ (stt []).revAt ≤ (stt []).now ∧ (191 : Nat) < 192 := by decide +kernel
/-- The small group on plinth tile 0 of a stacked cluster of two, its channel as given. -/
def sv (c : Channel) (g : Group → Group := id) : State :=
  { (sk (fun r => { r with clus := true, stack := true, crows := 1, ccols := 1 }) g).setMyTeam fun t => { t with tiles := [0, 48] } with channels := [(0, c), (48, c)] }
/-- Mailbox 0 with `n` messages, allotted to the partition. -/
def sl (n : Nat) : State := { sp (fun q => { q with mbox := 1 }) (fun g => g.setS 5 0) with mailboxes := [(0, { slots := List.replicate n { data := List.replicate 16 1 } })] }
theorem witness_FifosAndMailboxes : vr 12 = true ∧ (sv {}).clear false [.v 12] = true ∧ st.stackedPartner = false ∧ (sv {}).stackedPartner = true
    ∧ (sv { held := 1 }).pairGated 0 = false ∧ 1 ≤ ((sv { held := 1 }).channel 0).held ∧ ((sv {}).channel 48).stale = 0 ∧ ((sv { back := 1 }).channel 0).back = 1 ∧ State.rowsFor [] [47] (sv {}) = true
    ∧ (block 16 && mailboxId ((ss 5 0).rs 5)) = true ∧ (ss 5 0).clear true (.s 5 :: (List.range 16).map fun k => .s (16 + k)) = true ∧ (sp fun q => { q with mbox := 1 }).myPart.ownsMailbox 0 = true
    ∧ st.myPart.ownsMailbox 0 = false ∧ ((st.release 3).mailbox 0).slots.length < 8
    ∧ (st.waitOver st.me .postTable) = true ∧ ((sl 8).mailbox 0).ready[0]? = some { data := List.replicate 16 1 } ∧ 8 ≤ ((sl 8).mailbox 0).slots.length ∧ (sl 8).mailStruck 0 0 = false := by decide +kernel
theorem witness_LaunchAndDispatch : (st.part 0).state ≠ .none ∧ (st.part 0).state = .run ∧ ((sp fun q => q.setReg 0x970 1).part 0).nextQueue = none
    ∧ (((sp fun q => ((q.setReg 0x970 1).setReg 0x960 0x50000).setReg 0x962 0x80000004).part 0).nextQueue).isSome = true ∧ natAt [1] 0 8 % 64 ≠ 0 ∧ natAt (leBytes 32 (0x30000 + 2 ^ 64)) 0 8 % 64 = 0 ∧ st.taskRoom = true
    ∧ natAt (leBytes 32 (0x30000 + 2 ^ 64)) 8 2 = 1 ∧ 1 ≤ 96 / probeTask.record.members ∧ (({ st with dispatchAt := 5 } : State).now < ({ st with dispatchAt := 5 } : State).dispatchAt) ∧ st.dispatchAt ≤ st.now
    ∧ ((sp fun q => { q with depHold := [{ task := some 1 }] }).part 0).dep.length < 256 := by decide +kernel
/-- The state before a dispatch: the probe task waits, no group is resident. -/
def se : State := { (sp fun q => { q with tasks := [{ probeTask with status := .eligible, placed := 0 }] }) with me := {}, groups := [], teams := [] }
theorem witness_LaunchAndDispatch_offer : (se.visits.findSome? (fun p => if (se.part p).credit = 0 then none else (se.offer p).map fun o => (p, o))).isSome = true := by decide +kernel
theorem witness_Preemption : st.team? 0 ≠ none ∧ st.myTeam.preempt = false ∧ st.myTeam.flushing = false ∧ st.preemption st.myTeam = .save ∧ (sk fun r => { r with idem := true, beats := 1 }).preemption st.myTeam = .flush
    ∧ (sk fun r => { r with beats := 1 }).preemption { st.myTeam with beats := 1024 } = .drain ∧ (st.part 0).canSave = false ∧ ((sp fun q => q.setReg 0x85D 0x40000).part 0).canSave = true
    ∧ ({ st with refs := 200000 } : State).sliceOver 0 = true ∧ st.sliceOver 0 = false ∧ st.overrun { st.myTeam with draining := true, beats := 1 } = true ∧ st.overrun st.myTeam = false
    ∧ (sp fun q => q.setReg 0x85D 0x40000).saveReady { st.myTeam with preempt := true } = true ∧ st.stacked st.myTeam = false := by decide +kernel
/-- The small team saved, its core empty. -/
def sw : State := { st with me := {}, teams := [], saved := [{ team := st.myTeam, groups := [st.me] }] }
theorem witness_Preemption_restore : (sw.saved.find? (·.team.id == 0)).isSome = true ∧ sw.restoreReady { team := st.myTeam, groups := [st.me] } = true ∧ (sw.taskOf st.myTeam).record.clus = false
    ∧ (sw.restorePlaces { team := st.myTeam, groups := [st.me] }).contains [0] = true := by decide +kernel
/-- A partition with a fault queue at 0x50000 and a cause or a record. -/
def sx (c : FaultCause) (r : List FaultRecord := []) : State := sp fun q => { (q.setReg 0x870 0x50000) with faults := [c], records := r }
theorem witness_FaultRecords : (sx { cause := 0x0B, task := 1, sysh := true }).faultDue 0 = true ∧ ((sx { cause := 0x0B, task := 1, sysh := true }).recordOf 0).isSome = true
    ∧ (sx { cause := 0x0B, task := 1, sysh := true }).stopped? { cause := 0x0B, task := 1, sysh := true } = none ∧ st.faultDue 0 = false ∧ (st.part 0).outstanding 0 = none ∧ (st.part 0).state ≠ .none
    ∧ ((sx {} [{ seq := 0, cause := { task := 1, replay := true, owner := some (0, 0) } }]).part 0).outstanding 0 = some { seq := 0, cause := { task := 1, replay := true, owner := some (0, 0) } }
    ∧ ((sx {}).stopped? { owner := some (0, 0) }).isSome = true ∧ ((sx {} [{ seq := 0, cause := { unattr := true } }]).part 0).outstanding (2 ^ 30) = some { seq := 0, cause := { unattr := true } }
    ∧ ((st (onPath fun p => { p with pc := 0x1000000000 })).fetchCause 0x1000000000).isSome = true ∧ (8 : Nat) ≤ 8 ∧ (95 : Nat) < 96 := by decide +kernel
theorem witness_ScansAndPatrol : ({ st with scanPer := 1 } : State).scanDueNow = true ∧ st.scanDueNow = false
    ∧ (((List.range 96).map fun k => (({ st with scanPer := 1, scanNext := 95 } : State).scanNext + k) % 96).find? fun t => !({ st with scanPer := 1 } : State).cdmask.getLsbD t && !({ st with scanPer := 1 } : State).gated t) = some 95
    ∧ (st.teams.any fun x => x.tile == 95) = false ∧ (st.teams.any fun x => x.tile == 0) = true ∧ ({ st with scanning := some 95 } : State).scanning = some 95 ∧ (st.part 0).heldVersion = none
    ∧ ((sp fun q => { q.setReg 0x93F 1 with versions := [{ num := 1, task := 1, held := true, waitScan := true }] }).part 0).heldVersion = some { num := 1, task := 1, held := true, waitScan := true }
    ∧ ({ st with copies := [{ id := 4, team := 0, group := 0, part := 0, tile := 0, kind := .linear 0 0 0 }] } : State).copies.find? (fun x => x.id == 4 && !x.waits) = some { id := 4, team := 0, group := 0, part := 0, tile := 0, kind := .linear 0 0 0 }
    ∧ st.linkUp = true ∧ devTop - 1 < devTop ∧ st.sealedPhys 0x30000 = false ∧ (sp fun q => { q with isSealed := true, priv := [(0x30000, 0x4000)] }).sealedPhys 0x30000 = true ∧ st.poisoned (.dev 0x30000) = false := by decide +kernel
/-- A channel whose interval is one reference period is due once the free length of a refresh interval has passed. -/
theorem witness_ScansAndPatrol_row : ({ st with patrol := [(0, 1)], refs := 1 + Config.refreshPeriods } : State).patrolDue 0 = true := by
  show (decide (0 < 1 + Config.refreshPeriods) && ((1 : Word) != 0) && decide (0 + (1 : Word).toNat * Config.refreshPeriods ≤ 1 + Config.refreshPeriods)) = true
  have : (1 : Word).toNat = 1 := rfl
  rw [this]
  simp <;> omega
theorem witness_StackAndMesh : st.writer 8 = true ∧ st.writer 0 = true ∧ st.ownsRegion 8 51 = true ∧ st.ownsRegion 0 0 = true ∧ st.ownsRegion 0 1 = false ∧ (st.gate 0).state = .open ∧ st.plinthFree 0 = true ∧ st.plinthFree 47 = true
    ∧ (({ st with gates := [(51, { state := .pending })] } : State).gate 51).state = .pending ∧ (({ st with gates := [(51, { state := .closed })] } : State).gate 51).state = .closed
    ∧ ({ st with gates := [(51, { state := .pending })] } : State).gateDue 51 = true ∧ (({ st with gates := [(51, { state := .opening })] } : State).gate 51).state = .opening
    ∧ ({ st with refs := 10 } : State).governorDue = true ∧ ({ reservations := [127] } : Receiver).mayGrant = true ∧ leastBy (fun x => (x + 127 - ({} : Receiver).lastGranted) % 128) [127, 0] = some 0 := by decide +kernel
theorem witness_StackAndMesh_audit : ({ st with now := 100, auditNext := 2 ^ 28 } : State).auditDue = true ∧ (({ st with now := 100, auditNext := 2 ^ 28 } : State).terms (2 ^ 28)).isSome = true
    ∧ ({ st with now := 100, auditNext := 2 ^ 28 } : State).auditPeriod (2 ^ 28) ≠ 0 := by decide +kernel
theorem witness_StackAndMesh_probe : (({ st with now := 100000 } : State).group? 0).isSome = true
    ∧ (({ st (onPath fun p => { p with wait := some .fifoEntry }) with now := 100000 } : State).me.entries.find? fun n => ({ st (onPath fun p => { p with wait := some .fifoEntry }) with now := 100000 } : State).probeDue
      ({ st (onPath fun p => { p with wait := some .fifoEntry }) with now := 100000 } : State).me n) = some 0
    ∧ ({ sp (fun q => { q.setReg 0x8C1 0x50000 with reports := [{ kind := 1 }] }) with now := 0 } : State).parts[0].reportRoom = true
    ∧ (match (sp fun q => q.setReg 0x8C1 0x50000).atelierWrite 0 0x50000 (({ kind := 1 } : Report).bytes 0) with | .ok _ => true | .error _ => false) = true := by decide +kernel
theorem witness_StackAndMesh_power : ({ limit := 100, fstep := 9 } : Power).limit < 101 ∧ 8 < ({ limit := 100, fstep := 9 } : Power).fstep ∧ ({ limit := 100, fstep := 8, point := 0 } : Power).fstep ≤ 8 ∧ ({ limit := 100 } : Power).moving = none
    ∧ 84 + 16 ≤ ({ limit := 100, low := 63, fstep := 15 } : Power).limit ∧ 63 ≤ ({ limit := 100, low := 63, fstep := 15 } : Power).low ∧ ({ limit := 100, low := 63, fstep := 15 } : Power).fstep < 16 := by decide +kernel
theorem witness_StackAndMesh_mesh : (({ st with flits := [{ at_ := 95, dst := 95, src := 94, injected := 0, packet := 3 }] } : State).flits.filter fun f => f.at_ == 95 && !f.moved) = [{ at_ := 95, dst := 95, src := 94, injected := 0, packet := 3 }]
    ∧ st.inject = [] := by decide +kernel
theorem witness_Observation : (st.smpControl 8 95 0).isSome = true ∧ st.smpControl 8 95 1 = none ∧ bits (0x04000000 : Word) 26 6 ≠ 0 ∧ bit (1 : Word) 0 = true ∧ bits (1 : Word) 2 4 = 0 ∧ st.sampleDue 0 = false
    ∧ ({ st with now := 5000, coreRegs := [(0x8E0, 5), (0x8E2, 0x50000)], samplers := [(0, { started := true })] } : State).sampleDue 0 = true ∧ (st.part 0).traceRoom = true
    ∧ ((sp fun q => { q.setReg 0x902 1 with traceIn := [{ bytes := [] }], filter := [{}] }).part 0).filterDue = true
    ∧ (st.loadFilter 8 0 0).isSome = true ∧ bit (2 : Word) 1 = true ∧ (st.part 0).trial = none ∧ (sp fun q => { q with trial := some { ends := some 0 } }).trialOver 0 = true ∧ st.trialOver 0 = false
    ∧ bits (4 : Word) 0 3 = 4 ∧ (st.locate? 0).isSome = true ∧ st.locate? 0x7F000000 = none ∧ (st.part 0).debugOn = false ∧ ((sp fun q => q.setReg 0x930 1).part 0).debugOn = true
    ∧ (st.group? 0).isSome = true ∧ st.holdDue st.me 0 = false ∧ (st (onPath fun p => { p with holdAsked := some 1 })).holdDue (st (onPath fun p => { p with holdAsked := some 1 })).me 0 = true := by decide +kernel
/-- An engine whose head chain stands at an entry of the team's scratchpad with the given first bytes. -/
def sg (x : Nat) (f : Chain → Chain := id) : State :=
  { sc id (fun t => { t with scratch := Memory.setBytes [] 0 (leBytes 128 x), futures := t.futures.set 0 { state := .pending } }) with
    engines := (Vector.replicate 5 {}).set 0 { chains := [f { team := 0, part := 0, future := 0, ptr := BitVec.ofNat 64 scrBase }] } }
/-- What the head chain of engine 0 reads next. -/
def readsNext (s : State) : Option (List Byte) :=
  (s.readingChain 0 0).bind fun c => match s.nextEntry c with
    | .ok b => some b
    | .error _ => none
theorem witness_ChainEntries : readsNext (sg 0) = some (List.replicate 128 0) ∧ (readsNext (sg 1)).map (jobLegal 0) = some true ∧ (readsNext (sg (1 + 2 ^ 24))).map (jobLegal 0) = some false
    ∧ (readsNext (sg (2 + 2 ^ 8))).map loopLegal = some true ∧ (readsNext (sg (2 + 17 * 2 ^ 8))).map loopLegal = some false
    ∧ (readsNext (sg (3 + 2 ^ 8 + 2 ^ 16))).map (condLegal { team := 0, part := 0, future := 0, ptr := 0 }) = some true ∧ (readsNext (sg (3 + 2 ^ 8 + 3 * 2 ^ 16))).map (condLegal { team := 0, part := 0, future := 0, ptr := 0 }) = some false
    ∧ ((sg 0 fun c => { c with ptr := 0x30000 }).readingChain 0 0).isSome = true ∧ readsNext (sg 0 fun c => { c with ptr := 0x30000 }) = none ∧ readsNext (sg 0 fun c => { c with read := 1048575 }) = none := by decide +kernel
theorem witness_ChainEntries_complete : ((sg 0 fun c => { c with pos := .running 3 }).engines[0].chains.find? Chain.busy).isSome = true ∧ (sg 0).entryInside { team := 0, part := 0, future := 0, ptr := 0 } (scrBase + 128) = true := by decide +kernel
theorem witness_EngineJobs : ((sg 0 fun c => { c with pos := .entered 3 }).jobDue 0).isSome = true ∧ ((sg 0 fun c => { c with pos := .entered 3 }).jobDue 1) = none
    ∧ (decide (0 < 2) && ({ team := 0, part := 0, future := 0, ptr := 0 } : Chain).op == 0) = true ∧ voxelLegal (List.replicate 64 0) = false ∧ ruleLegal (List.replicate 64 0) = false
    ∧ convLegal (List.replicate 64 0) = false ∧ treeLegal (List.replicate 48 0) = false ∧ stepLegal (List.replicate 48 0) = false := by decide +kernel
/-- A legal partition descriptor at the address the device block holds: no queue, one launch credit, one tile. -/
def sy : State := { State.reset with partDesc := 0x8000, dev := Memory.setBytes [] 0x8001 [1] }
theorem witness_PartitionsAndBoot : sy.partDesc.toNat + 256 ≤ devTop ∧ descLegal (Memory.bytes sy.dev sy.partDesc.toNat 256) = true ∧ sy.mayCreate 7 (parsePartition (Memory.bytes sy.dev sy.partDesc.toNat 256)) = true
    ∧ descLegal (Memory.bytes State.reset.dev 0 256) = false ∧ ((sp fun q => { q with state := .unlocked }).part 0).state = .unlocked ∧ (st.part 0).state = .run ∧ (st.part 0).stopping = false ∧ (st.part 0).lockSession = none
    ∧ ((sp fun q => { q with tasks := [] }).part 0).tasks = [] ∧ (st.part 0).vslots = [] ∧ (st.part 0).reg2 0x870 = 0 ∧ ({ State.reset with bootst := 2 } : State).bootst = 2 ∧ ([] : List Byte).length ≤ 0x200000
    ∧ State.reset.bootst = 8 ∧ State.reset.linkUp = true ∧ State.reset.perst = false := by decide +kernel
/-- A link with one session, secured or not, and its steps done. -/
def sn (x : Bool) (f : Partition → Partition := id) : State :=
  { (State.reset.setPart 7 fun q => f { q with state := .unlocked, isSealed := true, ideSession := some 1, priv := [(0x30000, 0x4000)] }) with
    sessions := [{ id := 1, version := true, capabilities := true, algorithms := true, exchanged := !x, secured := x }] }
theorem witness_SpdmSessions : (sn true).linkUp = true ∧ ((sn true).session 1).secured = true ∧ ((sn false).session 1).secured = false ∧ ((sn false).session 1).exchanged = true ∧ ((sn true).session 1).algorithms = true
    ∧ ((sn true).session 2).version = false ∧ ((sn true).measurement 4).isSome = true ∧ ((sn true).measurement 0x17) = none ∧ ((sn true fun q => { q with lockSession := some 1 }).measurement 0x17).isSome = true
    ∧ ((List.range 8).all fun p => ((sn true fun q => { q with ideSession := none }).part p).lockSession != some 1 && ((sn true fun q => { q with ideSession := none }).part p).ideSession != some 1) = true := by decide +kernel
theorem witness_InterfaceRequests : (7 : Nat) < 8 ∧ ((sn true).part 7).state = .unlocked ∧ ((sn true).part 7).isSealed = true ∧ ((sn true).part 7).ideSession = some 1 ∧ ((sn true).session 1).secured = true
    ∧ ((sn true fun q => { q with state := .locked, lockSession := some 1 }).part 7).state == .locked ∧ ((sn true fun q => { q with ideSecure := true }).part 7).ideSecure = true ∧ ((sn true).part 7).ideSecure = false
    ∧ ((sn true).part 7).ownsPhys 0x30000 = true ∧ ((sn true).part 7).ownsPhys 0x34000 = false ∧ (sn true).linkUp = true := by decide +kernel
/-- A sealed partition that runs, its key-request block at 0x50000 asking for operation `n` on slot 3 and channel 15. -/
def sz (n : Nat) (f : Partition → Partition := id) : State :=
  { sp (fun q => f (q.setReg 0x976 0x50000 |> fun q => { q with isSealed := true })) with dev := Memory.setBytes probeTables 0x50000 (leBytes 3 (3 + 15 * 2 ^ 8 + n * 2 ^ 16)) }
theorem witness_BoardKeys : ((sz 1).keyBlock 0).map keyOperation = some 1 ∧ ((sz 2).keyBlock 0).map keyOperation = some 2 ∧ ((sz 1).keyBlock 0).map (fun b => (natAt b 0 1, natAt b 1 1)) = some (3, 15)
    ∧ ((sz 1).part 0).isSealed = true ∧ ((sz 1).part 0).state = .run ∧ ((sz 1).part 0).stopping = false ∧ ((sz 1).part 0).ksPending = none ∧ ((sz 2 fun q => { q with ksPending := some (3, 15) }).part 0).ksPending = some (3, 15)
    ∧ (st.part 0).isSealed = false ∧ (st.part 0).ownsCore 0 = true ∧ (st.part 0).ownsCore 95 = false ∧ State.reset.linkUp = true ∧ (15 : Nat) < 16 := by decide +kernel

/-! ### More hypotheses met -/

/-- The same with one uncorrectable word. -/
def bad (kind tile addr : Nat) (s : State := st) : State := { s with errors := [{ kind := kind, tile := tile, addr := addr, double := true }] }
/-- No bad word, no mark: the issue of a state whose fetch page has no mapping, and one that finds an uncorrectable word in its path table. -/
theorem witness_StepRunsDecoded_fetch : st.badFetch st.pc.toNat = false ∧ ((State.reset.withFetchWord 64 0x3F80000042280800).checkout 0 0).badFetch 0x20004 = false
    ∧ (bad 1 0 0x20000).badFetch st.pc.toNat = true
    ∧ (bad 8 0 (st.me.tableWord 0)).tableStruck = true ∧ st.me.rowWait = false
    ∧ (st fun g => { g with rowWait := true }).me.rowWait = true ∧ (bad 1 0 0x20000).tableStruck = false := by decide +kernel
/-- The issuing path in entry 0, a child in the scope of entry 1 with the given kind, join and siblings. -/
def inScope (k : ScopeKind) (more : Vector (Option Path) 72 → Vector (Option Path) 72 := id) (g : Group) : Group :=
  { g with paths := more ((g.paths.set 0 (some { g.path 0 with parent := some 1, join := some 0x20004 })).set 1 (some { pc := 0x20004, member := 0xFFFF, exm := 0xFFFF, state := .joined, kind := k }))
           loops := g.loops.set 2 { active := true } }
theorem witness_ControlTransfers_joins : ((st (inScope .call)).scopeKind == .call) = true ∧ (st (inScope .call)).path.state = .ready ∧ (st (inScope .call)).path.parked = none
    ∧ (st (inScope .call)).path.causeWaits = false ∧ (st (inScope .call)).path.join = some (pc56 0x20004) ∧ (st (inScope .call)).path.parent = some 1
    ∧ ((st (inScope .call)).me.path? 1).map (·.state) = some .joined ∧ (st (inScope .call)).clear true [] = true
    ∧ ((st (inScope (.loop 2))).me.loops[2].active && (st (inScope (.loop 2))).scopeKind == .loop 2) = true ∧ (st (inScope .call)).me.children 1 = [0]
    ∧ ((st (inScope .call)).me.path 1).join ≠ some ((st (inScope .call)).me.path 1).pc := by decide +kernel
theorem witness_ControlTransfers_joins_unspilled : (st (inScope .call)).unspilled ∧ (st (inScope (.loop 2))).unspilled :=
  ⟨unspilled_of (by decide +kernel) (by decide +kernel), unspilled_of (by decide +kernel) (by decide +kernel)⟩
/-- A sibling that has not come to the join yet. -/
theorem witness_ControlTransfers_waits : ∃ n ∈ (st (inScope .call fun v => v.set 2 (some { pc := 0x20000, parent := some 1 }))).me.children 1,
    n ≠ (st (inScope .call fun v => v.set 2 (some { pc := 0x20000, parent := some 1 }))).me.cur ∧ ((st (inScope .call fun v => v.set 2 (some { pc := 0x20000, parent := some 1 }))).me.path n).state ≠ .waiting :=
  ⟨2, by decide +kernel, by decide +kernel, by decide +kernel⟩
/-- The last group but one of its team, alone on its path. -/
theorem witness_ExitAndBreakpoint_last : (sm fun t => { t with groups := 2 }).me.live = true ∧ (sm fun t => { t with groups := 2 }).path.parent = none
    ∧ ((List.range 72).all fun n => n == (sm fun t => { t with groups := 2 }).me.cur || ((sm fun t => { t with groups := 2 }).me.path? n).isNone) = true
    ∧ (sm fun t => { t with groups := 2 }).copies = [] ∧ ((sm fun t => { t with groups := 2 }).team (sm fun t => { t with groups := 2 }).me.team).wbuf = []
    ∧ bit ((sm fun t => { t with groups := 2 }).team (sm fun t => { t with groups := 2 }).me.team).gang (sm fun t => { t with groups := 2 }).me.index = false
    ∧ ((sm fun t => { t with groups := 2 }).team (sm fun t => { t with groups := 2 }).me.team).arrived = [] ∧ ((sm fun t => { t with groups := 2 }).teams.all (·.carrived == [])) = true
    ∧ (sm fun t => { t with groups := 2 }).saved = [] ∧ ((sm fun t => { t with groups := 2 }).team (sm fun t => { t with groups := 2 }).me.team).groups = 2
    ∧ ((sm fun t => { t with groups := 2 }).team (sm fun t => { t with groups := 2 }).me.team).exited = [] ∧ (sm fun t => { t with groups := 2 }).me.index = 0
    ∧ ((sm fun t => { t with groups := 2 }).team? (sm fun t => { t with groups := 2 }).me.team).isSome = true := by decide +kernel
theorem witness_ExitAndBreakpoint_copies : (∃ c ∈ ({ st with copies := [{ id := 4, team := 0, group := 0, part := 0, tile := 0, kind := .linear 0 0 0 }] } : State).copies,
    c.group = ({ st with copies := [{ id := 4, team := 0, group := 0, part := 0, tile := 0, kind := .linear 0 0 0 }] } : State).me.seq)
    ∧ st.copies = [] ∧ (st.part st.me.part).reg2 0x903 = 0 ∧ ((sp fun q => q.setReg 0x903 0x50000).part 0).reg2 0x903 ≠ 0 :=
  ⟨⟨_, .head _, by decide +kernel⟩, by decide +kernel, by decide +kernel, by decide +kernel⟩
/-- A handler's path, with another path of the task waiting for a future. -/
theorem witness_TrapAndReturn_return : (st (inHandler 0)).clear true [] = true ∧ ((List.range 64).all fun n => ((st (inHandler 0)).me.path? (n + 8)).isNone) = true ∧ (st (inHandler 0)).me.entries = [0]
    ∧ (st (inHandler 0)).path.state ≠ .held ∧ ((st fun g => onPath (fun p => { p with state := .held }) (inHandler 0 g)).me.path 0).state = .held ∧ st.me.handler = none ∧ sh.clear true [] = true := by decide +kernel
theorem witness_WhatTraps_map : (sh fun g => { g with mode := 0x0203000F }).mapStruck [.exm, .v 40] = false ∧ sh.clear true [.exm] = true ∧ sh.clear true [] = true ∧ st.clear true [.s 63] = true := by decide +kernel
theorem witness_CachesAndFences_whole : sb.clear true [] = true ∧ 3 ≤ (3 : BitVec 3).toNat ∧ 3 ≤ st.scope := by decide +kernel
theorem witness_FullEmptyBits_sound : (sf 0).poisoned (.bank 12) = false ∧ (sf 0x80).poisoned (.bank 12) = false ∧ (st (answered 0 [])).answer.isSome = true := by decide +kernel
theorem witness_CopiesAndBatches_more : (0 : Nat) % 4 = 0 ∧ (sc fun g => g.setS 5 4).clear true [.s 62, .s 63, .s 60, .s 61, .s 4, .s 5] = true ∧ (sp fun q => { q with isSealed := true }).myPart.isSealed = true
    ∧ (sk fun r => { r with clus := true }).clear true [.s 6, .s 60, .s 61, .s 4, .s 5] = true ∧ (st (onPath fun p => { p with wait := some (.batches 1) })).path.wait = some (.batches 1)
    ∧ st.clear true [.s 63] = true := by decide +kernel
theorem witness_SystemRegisters_write : ((st.sysWrite 0x010 0xFF).map fun u => (u.me.live, u.me.seq)) = some (true, st.me.seq) ∧ (0x7FF : BitVec 12).toNat < 0x800 ∧ 0x852 ∉ ([0x870, 0x871, 0x8C1, 0x8C2, 0x903, 0x904, 0x93B, 0x93C] : List Nat)
    ∧ st.me.handler = none := by decide +kernel
theorem witness_HostView_more : ({ State.reset with linkUp := false } : State).linkUp = false ∧ 0x384 % 4 = 0 ∧ 0x1FFC < 0x2000 ∧ tileNumber (0x800 + 0x384 / 4) = true ∧ (State.reset.tileWrite 8 95 0x8E1 0x10).isSome = true
    ∧ State.reset.tileWrite 8 95 0x8E1 0 = none ∧ (shownNumber 0x852 || groupNumber 0x852 || tileNumber 0x852) = false ∧ (st.partWrite 8 0 0x852 1).isSome = true ∧ st.partWrite 8 0 0x810 0 = none
    ∧ (st.locate? 0x7F000000) = none ∧ 0xFFFC < 0x10000 ∧ 0x400000 ≤ 0x400000 := by decide +kernel
theorem witness_BarriersAndMarks_more : st.openArrival false = none ∧ (sk fun r => { r with clus := true }).openArrival true = none ∧ (st fun g => { g with teamArrived := some (3, false) }).me.arrival false = some (3, false)
    ∧ ((0xFFFFFFFF : Word) - BitVec.ofNat 32 (st.myTeam.openPhase false)).toInt < 0 ∧ ¬ ((0 : Word) - BitVec.ofNat 32 (st.myTeam.openPhase false)).toInt < 0
    ∧ ((sm fun t => { t with arrived := [0] }).team 0).arrived ≠ [] ∧ ((sm fun t => { t with arrived := [0] }).team 0).allIn ((sm fun t => { t with arrived := [0] }).team 0).arrived = true
    ∧ ((sm fun t => { t with arrived := [0] }).team? 0).isSome = true ∧ st.clear true [.s 5] = true := by decide +kernel
theorem witness_QuarryPools_links : (sq.release 3).linkRefusal 0 [0x30000] = none ∧ (sq.linkRefusal 0 [0x1000000000]).isSome = true
    ∧ (({ enabled := true, base := 0x1000000000, count := 2, alloc := [(0x1000000000, 0)] } : Pool).owns [0x1000000000]) = true
    ∧ (match sq.walkLinks 4096 0x30000 [] with | (.blocks bs, _) => bs == [0x30000] | _ => false) = true ∧ sq.clear true [.s 62, .s 63] = true := by decide +kernel
/-- The bytes of a legal task record: entry 0x20000. -/
def record64 : List Byte := leBytes 64 (0x20000 + 4 * 2 ^ 128 + (1 + 48 * 256) * 2 ^ 176)
/-- A mould whose table, template and tile buffers stand in memory. -/
def st5 (f : Mould → Mould := id) (g : Group → Group := id) : State :=
  { sp (fun q => { ((q.setReg 0x85B 0x48000).setReg 0x857 (BitVec.ofNat 32 bankBase)).setReg 0x858 (BitVec.ofNat 32 (bankBase / 2 ^ 32)) with
      banks := [(0, 4)], moulds := [(5, f { enabled := true, tmpl := 0x40000, img := 0x50000, rowSize := 4 })] }) (fun x => g (x.setS 5 5)) with
    dev := Memory.setBytes (Memory.setBytes probeTables 0x40000 record64) 0x48000 (leBytes 32 (0x40000 + 0x50000 * 2 ^ 64 + (4 + 0x10 * 2 ^ 16) * 2 ^ 128)) }
theorem witness_Moulds_busy : (sd id (onPath fun p => { p with wait := some (.mouldTile 5) })).mouldBusy 0 5 = true ∧ (sd id).mouldBusy 0 5 = false ∧ (look 5 ((sd id).part 0).moulds).isSome = true
    ∧ ((st5.mould 0 5).tile 0).rows.length + 1 < (st5.mould 0 5).rows ∧ ((st5 fun m => { m with tiles := m.tiles.set 1 { state := .filling, rows := List.replicate 15 0 } }).mould 0 5 |>.tile 1).rows.length + 1 = 16
    ∧ (st5.mould 0 5).rows = 16 ∧ (sd id).me.fillDone = 0 ∧ lanesOf ((sd id).active &&& ~~~(sd id).me.fillDone) ≠ [] := by decide +kernel
/-- What the Atelier reads. -/
def reads {ε α : Type} (x : Except ε α) : Option α :=
  match x with
  | .ok b => some b
  | .error _ => none
theorem witness_Moulds_launch : reads (st5.atelierRead 0 0x40000 64) = some record64 ∧ (st5.readTask 0 record64).isSome = true ∧ st5.readTask 0 (List.replicate 64 0) = none
    ∧ (reads (st5.atelierRead 0 0x1000000000 64)).isNone = true ∧ (st5.openMould 0 0).isSome = true ∧ st5.openMould 0 1 = none := by decide +kernel
/-- Empty queues always have room. -/
theorem queueRoom_of {s : State} {p : Nat} (h : s.taskRoom = true) (hl : ((s.part p).tasks.filter fun k => k.status == .queued || k.status == .eligible) = []) : s.queueRoom p = true := by
  unfold State.queueRoom
  rw [h, hl]
  simp
theorem witness_queueRoom : st5.queueRoom 0 = true ∧ st.queueRoom 0 = true := ⟨queueRoom_of (by decide +kernel) (by decide +kernel), queueRoom_of (by decide +kernel) (by decide +kernel)⟩
theorem witness_MatrixIssue_waits : (st (onPath fun p => { p with wait := some (.matrixDone 5) })).path.wait = some (.matrixDone 5) ∧ (st (answered 0 [])).answer.isSome = true ∧ st.myTeam.matPoisoned = none
    ∧ (sm fun t => { t with latch := [{}] }).myTeam.latch ≠ [] ∧ (st (answered 1 [0, 7])).answer = some (1, [0, 7]) := by decide +kernel
theorem witness_MatrixOperation_turn : (sm fun t => { t with matQueue := [{ seq := 1, kind := .tzeroAll }] }).matrixTurn ((sm fun t => { t with matQueue := [{ seq := 1, kind := .tzeroAll }] }).team 0) = true
    ∧ st.matrixTurn (st.team 0) = false ∧ (7 : Nat) < 8 := by decide +kernel
/-- A record at 0x30000, read for SPAWN. -/
def sk5 : State := { sc id with dev := Memory.setBytes probeTables 0x30000 record64 }
theorem witness_TasksAndBranches_spawn : (((sk5.placed (sk5.groupAgent sk5.me) .load [{ lane := 64, va := 0x30000, size := 64 }]).head?.map fun a =>
      ((sk5.release 3).loadAccess (sk5.groupAgent sk5.me) false a).1)) = some record64 ∧ (sk5.readTask 0 record64).isSome = true ∧ (st (onPath fun p => { p with wait := some (.tasks [7]) })).path.wait = some (.tasks [7])
    ∧ ([7].all fun id => ((st.myPart.task? id).map (·.complete)).getD true) = true ∧ ([1].all fun id => ((st.myPart.task? id).map (·.complete)).getD true) = false
    ∧ st.myPart.tasks.any (fun k => k.reachable && k.record.branch == 3) = false := by decide +kernel
/-- Partition 0 with an unveiling, slot 63 designated and mapped to slot 5; `f` says what else it holds. -/
def sv5 (u : Unveiling) (f : Partition → Partition := id) : State := sp fun q => f { q with unveiling := some u, designated := true, slot := 63, vslots := [(63, 5)] }
theorem witness_Deadlines_fire : ((sp fun q => { q with stopping := true }).part 0).stopping = true ∧ ((sv5 { step := 1 }).part 0).flushed = true ∧ ((sv5 { step := 1 }).part 0).unveiling = some { step := 1 }
    ∧ ((sp fun q => { q with armed := true, remaining := 1 }).part 0).remaining ≠ 0 ∧ st.captureDue 0 = false ∧ ((sv5 { step := 5 }).part 0).captureSlot = some 5 ∧ ((sv5 { step := 5 }).part 0).reg2 0x853 = 0
    ∧ (sv5 { step := 5 }).errors = [] ∧ ((sv5 { step := 5 } fun q => { q with vslots := [] }).part 0).captureSlot = none ∧ (st.part 7).state = .none := by decide +kernel
/-- Step 6 of an unveiling of an earlier period. -/
def s6 (base : Nat) (f : Partition → Partition := id) : State := { sv5 { step := 6, period := 5, base := base } f with dev := Memory.setBytes probeTables 0x40000 record64 }
theorem witness_Deadlines_record : (s6 0).refs ≠ 5 ∧ (match (s6 0x50000).atelierWrite 0 0x50000 ((s6 0x50000).resultRecord 0 { step := 6, period := 5, base := 0x50000 }) with | .ok _ => true | .error _ => false) = true
    ∧ (match (s6 0x1000000000).atelierWrite 0 0x1000000000 ((s6 0x1000000000).resultRecord 0 { step := 6, period := 5, base := 0x1000000000 }) with | .ok _ => false | .error _ => true) = true
    ∧ ((s6 0).part 0).reg2 0x855 = 0 ∧ ((s6 0 fun q => q.setReg 0x855 0x40000).part 0).reg2 0x855 = 0x40000 ∧ (s6 0).taskRoom = true ∧ (((s6 0).part 0).unveiling.map fun u => u.failed) = some false
    ∧ reads ((s6 0).atelierRead 0 0x40000 64) = some record64 ∧ ((s6 0).readTask 0 record64).isSome = true := by decide +kernel
/-- A station whose oldest operation boards a kind, at a moment when an unowned slot passes. -/
theorem witness_Turntable_boards : ((stt [op (.board 0)]).station 0) = [op (.board 0)] ∧ ((sp fun q => { q with ttQuota := 1 }).part 0).freeVslot = some 0
    ∧ (stt []).ttDue 0 = false ∧ (({ stt [] with slots := (List.range 192).map fun k => (k, { owner := 1, kind := 0, rev := 0, lastw := 0 }) } : State).slot
      (({ stt [] with slots := (List.range 192).map fun k => (k, { owner := 1, kind := 0, rev := 0, lastw := 0 }) } : State).passing 0)).owner ≠ 0xF
    ∧ ({ stt [op .alight] with slots := [] } : State).station 0 = [op .alight] ∧ look 63 ((sp fun q => { q with vslots := [] }).part 0).vslots = none ∧ (stt [] (answered 7 [])).answer = some (7, []) := by decide +kernel
theorem witness_FifosAndMailboxes_fifo : (sv { fifo := [List.replicate 64 1] }).stackedPartner = true ∧ ((sv { fifo := [List.replicate 64 1] }).channel (partner 0)).fifo = [List.replicate 64 1]
    ∧ (bad 9 0 0 (sv {})).fifoStruck 0 (sv {}).active ≠ 0 ∧ (sv {}).fifoStruck 0 (sv {}).active = 0 ∧ 1 ≤ ((sv { stale := 1 }).channel 0).stale ∧ 1 ≤ ((sv { dead := 1, link := [[]] }).channel 0).dead
    ∧ ((sv { link := [[]] }).channel 0).link = [] :: [] ∧ 1 ≤ ((sv { staleBack := 1 }).channel 0).staleBack ∧ (sv {}).clear false [] = true ∧ ((sv { held := 0 }).channel 0).held = 0
    ∧ ({ sv {} with gates := [(0, { state := .pending })] } : State).pairGated 0 = true := by decide +kernel
/-- Mailbox 0 with an entry reserved for the group. -/
def reserved (sent : Bool) : State := { sp (fun q => { q with mbox := 1 }) (fun g => answered 1 [] (g.setS 5 0)) with mailboxes := [(0, { slots := [{ data := List.replicate 16 1, owner := some (0, 0), sent := sent }], takes := [(0, 0)] })] }
theorem witness_FifosAndMailboxes_grants : (reserved true).reservedBox = some 0 ∧ (reserved true).answer.isSome = true ∧ st.reservedBox = none ∧ (block 48 && mailboxId ((sl 8).rs 5)) = true ∧ (sl 8).clear true [.s 5] = true
    ∧ (sl 8).myPart.ownsMailbox 0 = true ∧ (bad 10 0 (mailWord 0) (sl 8)).mailStruck 0 0 = true ∧ ((sl 8).mailbox 0).ready[8]? = none ∧ ((reserved true).mailbox 0).takes = [(0, 0)] ∧ ((reserved true).mailbox 0).ready = []
    ∧ ((reserved false).mailbox 0).ungranted = some (0, 0) ∧ ((reserved true).mailbox 0).ungranted = none ∧ (st (answered 8 [])).answer = some (8, []) ∧ (List.replicate 16 (1 : Word)).length = 16
    ∧ ({ sl 1 with mailboxes := [(0, { slots := [{ data := List.replicate 16 1 }], takes := [(0, 0)] })] } : State).mailbox 0 = { slots := [{ data := List.replicate 16 1 }], takes := [(0, 0)] } := by decide +kernel
/-- A launch queue at 0x50000 with one entry, its record at 0x30000. -/
def sq5 (base : Word) (d : List Host.Cell) : State := { sp (fun q => ((q.setReg 0x970 1).setReg 0x960 base).setReg 0x962 0x80000004) with dev := d }
theorem witness_LaunchAndDispatch_entry : ((sq5 0x50000 (Memory.setBytes (Memory.setBytes probeTables 0x30000 record64) 0x50000 (leBytes 16 (0x30000 + 2 ^ 64)))).part 0).nextQueue = some 0
    ∧ reads ((sq5 0x50000 (Memory.setBytes (Memory.setBytes probeTables 0x30000 record64) 0x50000 (leBytes 16 (0x30000 + 2 ^ 64)))).atelierRead 0
      (((sq5 0x50000 (Memory.setBytes (Memory.setBytes probeTables 0x30000 record64) 0x50000 (leBytes 16 (0x30000 + 2 ^ 64)))).part 0).entryAddr 0) 16) = some (leBytes 16 (0x30000 + 2 ^ 64))
    ∧ (match (sq5 0x50000 probeTables).atelierWrite 0 0x5000C (leBytes 4 5) with | .ok _ => true | .error _ => false) = true
    ∧ (match (sp fun q => (((q.setReg 0x970 1).setReg 0x960 0).setReg 0x961 16).setReg 0x962 0x80000004).atelierRead 0 0x1000000000 16 with | .ok _ => false | .error _ => true) = true
    ∧ (st.part 0).state = .run ∧ (st.part 0).stopping = false ∧ (st.part 7).state = .none := by decide +kernel
theorem witness_LaunchAndDispatch_none : st.nextDispatch = none ∧ (st.visits.all fun p => (st.offer p).isNone) = true ∧ se.nextDispatch.isSome = true
    ∧ ({ se with parts := se.parts.map fun p => { p with credit := 0 } } : State).nextDispatch = none ∧ (({ se with parts := se.parts.map fun p => { p with credit := 0 } } : State).visits.any fun p =>
      (({ se with parts := se.parts.map fun p => { p with credit := 0 } } : State).offer p).isSome) = true ∧ (st.part 0).depHold = [] := by decide +kernel
theorem witness_Preemption_more : (st.part st.myTeam.part).canSave = false ∧ st.saveReady st.myTeam = false ∧ (sw.setPart 0 fun q => { q with evicted := true }).restoreReady { team := st.myTeam, groups := [st.me] } = false
    ∧ (sw.restorePlaces { team := st.myTeam, groups := [st.me] }) ≠ [] ∧ (sk fun r => { r with vers := true, beats := 1 }).preemption st.myTeam = .flush ∧ (st.part 7).state = .none
    ∧ ((sk fun r => { r with clus := true, stack := true }).taskOf st.myTeam).record.stack = true := by decide +kernel
theorem witness_FaultRecords_more : ((sp fun q => { q with isSealed := true }).part 0).killsAlone = true ∧ (st.part 0).killsAlone = false ∧ ((sp fun q => q.setReg 0x877 0x40000).part 0).reg2 0x877 ≠ 0
    ∧ ((sx {} [{ seq := 0, cause := { task := 1, copy := some 4 } }]).part 0).outstanding 0 = some { seq := 0, cause := { task := 1, copy := some 4 } }
    ∧ (st.fetchCause st.pc) = none ∧ (sx {}).stopped? {} = none ∧ bits ({ cause := 0x0D } : FaultCause).cause 0 8 = 0x0D
    ∧ (((sk fun r => { r with handler := 0x40000 }).part 0).task? 1).map (·.record.handler) = some 0x40000 := by decide +kernel
/-- The bytes of a read of an engine that succeeds. -/
def isRead (x : Except (Word × State) (List Byte)) : Option (List Byte) :=
  match x with
  | .ok b => some b
  | .error _ => none
/-- A copy of the small team, of `len` bytes. -/
def sc5 (len : Nat) : State := { st with copies := [{ id := 4, team := 0, group := 0, part := 0, tile := 0, kind := .linear 0x30000 0x31000 len }] }
theorem witness_ScansAndPatrol_copies : (({ st with teams := st.teams.map fun t => { t with wbuf := [{ line := 3, bytes := [(0x180, 7)] }] } } : State).team 0).wbuf.find? (·.line == 3) = some { line := 3, bytes := [(0x180, 7)] }
    ∧ (st.team 0).wbuf.find? (·.line == 3) = none ∧ ((sc5 0).copies.map fun c => (sc5 0).copyStalls c) = [false] ∧ (st.copies.find? fun x => x.id == 4 && !x.waits) = none ∧ (st.part 7).state = .none
    ∧ st.patrolDue 0 = false ∧ (({ st with scanning := some 0 } : State).teams.any fun x => x.tile == 0) = true ∧ (bad 4 0 0x30000 st).errors.length = 1
    ∧ ({ st with linkUp := false } : State).linkUp = false ∧ (st.hostCells 0x30000 [1, 2]) = [(0x30000, 1), (0x30001, 2)] := by decide +kernel
/-- A gated region whose life stands as given. -/
def sg5 (x : RegionState) (pre : Bool := false) : State := { st with gates := [(51, { state := x, preempting := pre })] }
/-- Two groups of the team: the second waits, is held or runs; a probe of the first stands at a unit. -/
def sp5 (u : ProbeUnit) (f : Path → Path := id) (seen : List (Nat × ProbeUnit) := []) : State :=
  let s := { st with probes := [{ initiator := 0, num := 1, path := [5, 6], at_ := u }], probeSeen := seen }
  { s with groups := s.groups ++ [{ onPath f s.me with seq := 1, index := 1 }] }
theorem witness_StackAndMesh_gates : ((sg5 .pending).gate 51).preempting = false ∧ ((sg5 .pending true).gate 51).preempting = true ∧ ((sg5 .opening).gate 51).state = .opening ∧ st.gateDue 0 = false ∧ st.writer 7 = false
    ∧ ({ st with teams := [] } : State).plinthFree 0 = true ∧ st.auditDue = false ∧ ({ st with now := 100 } : State).terms 5 = none ∧ ({ st with now := 100, auditNext := 5 } : State).auditDue = true
    ∧ (st.terms (3 * 2 ^ 28)).map (·.owner) = some (some 0) ∧ (st.terms (2 ^ 28 + 3)).map (·.owner) = some none ∧ (st.terms (2 ^ 28)).map (fun t => (t.held + t.flight + t.occupied, t.total, t.flagged)) = some (32, 32, false)
    ∧ (({ st with receivers := [(0, { granted := List.replicate 33 0, flagged := true })] } : State).terms (2 ^ 28)).map (fun t => (t.held + t.flight + t.occupied, t.total, t.flagged)) = some (33, 32, true) := by decide +kernel
theorem witness_StackAndMesh_probes : (sp5 (.group 0)).probes = { initiator := 0, num := 1, path := [5, 6], at_ := .group 0 } :: [] ∧ ((sp5 (.group 0)).group? 0).isSome = true
    ∧ ((sp5 (.group 1) fun p => { p with state := .held }).group? 1).map Group.stopKind = some 3 ∧ (sp5 (.stopped 1)).probes = { initiator := 0, num := 1, path := [5, 6], at_ := .stopped 1 } :: []
    ∧ (sp5 (.group 1) fun p => { p with wait := some .fifoEntry }).unitWaits (.group 1) = true ∧ (sp5 (.group 1) id [(1, .group 1)]).probeSeen.contains (1, .group 1) = true ∧ st.probes = []
    ∧ (match (sp fun q => q.setReg 0x8C2 1).atelierWrite 0 (0x1000000000 * 1) (({ kind := 1 } : Report).bytes 0) with | .ok _ => false | .error _ => true) = true
    ∧ ((sp fun q => q.setReg 0x8C4 1).part 0).reportRoom = false ∧ st.governorDue = false ∧ ({} : Receiver).mayGrant = false := by decide +kernel
theorem witness_StackAndMesh_flits : ({ st with routed := [5] } : State).routed.contains 5 = true ∧ st.routed.contains 5 = false
    ∧ (({ st with flits := [{ at_ := 95, dst := 95, src := 94, injected := 0 }] } : State).arrivals 95) = [{ at_ := 95, dst := 95, src := 94, injected := 0 }] ∧ routerOf 95 = 95
    ∧ ({ st with flits := [{ at_ := 95, dst := 95, src := 94, injected := 0 }] } : State).firstFlit [] { at_ := 95, dst := 95, src := 94, injected := 0 } = true
    ∧ ((towards 0 95).find? fun p => (portTile 0 p).isSome).bind (portTile 0) ≠ none ∧ routerOf 95 ≠ 0 := by decide +kernel
/-- A partition with a trace ring at 0x50000 of `2 ^ log` records, head `h`, and a halt record. -/
def st6 (base h : Word) : State := sp fun q => { ((q.setReg 0x903 base).setReg 0x906 h) with halts := [{ bytes := List.replicate 32 1 }] }
theorem witness_Observation_trace : ((st6 0x50000 0).part 0).traceRoom = true ∧ ((st6 0x50000 16).part 0).traceRoom = false ∧ ((st6 0x50000 0).part 0).reg2 0x903 ≠ 0 ∧ ((st6 0 0).part 0).reg2 0x903 = 0
    ∧ (match (st6 0x50000 0).atelierWrite 0 0x50000 (List.replicate 32 1) with | .ok _ => true | .error _ => false) = true
    ∧ (match (sp fun q => q.setReg 0x904 0x10).atelierWrite 0 0x1000000000 (List.replicate 32 1) with | .ok _ => false | .error _ => true) = true ∧ (st.part 0).halts = [] ∧ (st.part 0).filterDue = false
    ∧ (State.runFilter 0 { bytes := [] } 1 0 (sp fun q => { q with filter := [{ op := 14 }] })).1 = true ∧ (State.runFilter 0 { bytes := [] } 1 0 (sp fun q => { q with filter := [{ op := 15 }] })).1 = false
    ∧ bit (0x80000000 : Word) 31 = true ∧ bits (0x4001 : Word) 8 7 = 64 ∧ bits (0x0001 : Word) 8 7 = 0 ∧ reads ((sp fun q => q.setReg 0x900 0x50000).atelierRead 0 0x50000 8) = some (List.replicate 8 0)
    ∧ reads ((sp fun q => q.setReg 0x901 0x10).atelierRead 0 0x1000000000 8) = none ∧ (sp fun q => { q with trial := some {} }).trialOver 0 = false := by decide +kernel
theorem witness_Observation_holds : ((sp fun q => q.setReg 0x930 1).locate? 2).map (·.part) = some 0 ∧ ((sp fun q => { q.setReg 0x930 1 with isSealed := true }).part 0).isSealed = true
    ∧ ((st (onPath fun p => { p with state := .held })).me.path 0).state = .held ∧ (st.me.path 0).state ≠ .held ∧ ((st (onPath fun p => { p with holdAsked := some 0, holdId := 7 })).me.path 0).holdAsked = some 0
    ∧ (st (onPath fun p => { p with holdAsked := some 0, holdId := 7 })).holdDue (st (onPath fun p => { p with holdAsked := some 0, holdId := 7 })).me 0 = true
    ∧ (st (onPath fun p => { p with holdAsked := some 1, wait := some (.granted 1 []) })).holdDue (st (onPath fun p => { p with holdAsked := some 1, wait := some (.granted 1 []) })).me 0 = true := by decide +kernel
/-- What the head chain of engine 0 stands at. -/
def chainAt (s : State) : Option ChainAt := (s.readingChain 0 0).map (·.pos)
theorem witness_ChainEntries_more : chainAt (sg 0 fun c => { c with pos := .faulted }) = some .faulted ∧ (sg 5).readingChain 1 0 = none ∧ (sg 0).readingChain 0 7 = none ∧ (readsNext (sg 5)).map (byteAt · 0) = some 5
    ∧ (readsNext (sg (4 + scrBase * 2 ^ 64))).map (fun bs => zeroAt bs 1 7 && zeroAt bs 16 112 && natAt bs 8 8 % 128 == 0 && (sg 4).entryInside { team := 0, part := 0, future := 0, ptr := 0 } (natAt bs 8 8)) = some true
    ∧ (readsNext (sg (4 + 64 * 2 ^ 64))).map (fun bs => natAt bs 8 8 % 128 == 0) = some false
    ∧ (match (sg 1).readBody { team := 0, part := 0, future := 0, ptr := 0 } scrBase 1 with | .ok _ => true | .error _ => false) = true
    ∧ (match (sg 0).readBody { team := 0, part := 0, future := 0, ptr := 0 } (scrBase + 0x4000000) 1 with | .ok _ => false | .error _ => true) = true
    ∧ isRead ((sg 0).engineRead { team := 0, part := 0, future := 0, ptr := 0 } 0x30000 4) = some [0, 0, 0, 0]
    ∧ isRead ((sg 0).engineRead { team := 0, part := 0, future := 0, ptr := 0 } 0x1000000000 4) = none
    ∧ chainAt (sg 0 fun c => { c with overflow := some (5, 1) }) = some .reading ∧ (sg 0).frozen 0 = false ∧ ((sg 0).setPart 0 fun q => q.setReg 0x930 2).frozen 0 = true
    ∧ ((sg 0 fun c => { c with pos := .running 3, lastStatus := 2, cancel := true, stale := true }).engines[0].chains.find? Chain.busy).isSome = true ∧ (sg 0).engines[1].chains.find? Chain.busy = none := by decide +kernel
theorem witness_PartitionsAndBoot_more : ((sp fun q => { q with stopping := true }).part 0).stopping = true ∧ ((sp fun q => { q with lockSession := some 1 }).part 0).lockSession.isSome = true ∧ st.linkUp = true
    ∧ ({ State.reset with perst := true, linkUp := false } : State).perst = true ∧ ({ State.reset with linkUp := false } : State).linkUp = false ∧ (List.replicate 0x200001 (0 : Byte)).length > 0x200000
    ∧ ((sn true fun q => { q with state := .error }).part 7).state = .error := by
  refine ⟨by decide +kernel, by decide +kernel, by decide +kernel, by decide +kernel, by decide +kernel, by rw [List.length_replicate]; decide, by decide +kernel⟩
theorem witness_SpdmSessions_more : ({ sn true with linkUp := false } : State).linkUp = false ∧ ((sn true fun q => { q with lockSession := some 1, state := .run }).part 7).lockSession = some 1 ∧ ((sn true).measurement 1).isSome = true
    ∧ ((sn true fun q => { q with ideSecure := true, state := .run }).part 7).ideSecure = true ∧ ((sn true fun q => { q with ideSecure := true }).part 7).state ≠ .run ∧ ((sn false).session 1).secured = false := by decide +kernel
theorem witness_BoardKeys_more : (sp fun q => q.setReg 0x977 0x10).keyBlock 0 = none ∧ ((sz 0).keyBlock 0).map keyOperation = some 0 ∧ ((sz 1 fun q => { q with stopping := true }).part 0).stopping = true
    ∧ ((sz 2 fun q => { q with ksPending := some (4, 15) }).part 0).ksPending = some (4, 15) ∧ (st.part 0).ksPending = none ∧ ({ st with linkUp := false } : State).linkUp = false := by decide +kernel

/-! ### Effects of one step -/

/-- R297: a word stored to the scratchpad stands there least significant byte first. -/
theorem test_store : (after (.stw 4 62 true 1 0) (sc fun g => g.setS 4 0x11223344)).myTeam.scratch = [(4, 0x44), (5, 0x33), (6, 0x22), (7, 0x11)] := by decide +kernel
/-- R166: LDBS extends the sign. -/
theorem test_load : out (.ldbs 5 62 true 2 0) (sc id fun t => { t with scratch := [(2, 0x80)] }) 5 = 0xFFFFFF80 := by decide +kernel
/-- R174: ATADD returns the old word and leaves the sum. -/
theorem test_atadd : out (.atadd 5 62 4 true true false 0) (sc (fun g => g.setS 4 3) fun t => { t with scratch := [(0, 0xFE)] }) 5 = 0xFE
    ∧ (after (.atadd 5 62 4 true true false 0) (sc (fun g => g.setS 4 3) fun t => { t with scratch := [(0, 0xFE)] })).myTeam.scratch = [(0, 0x01), (1, 0x01)] := by decide +kernel
/-- R97, R319: TRAP 5 saves the address of the next word, XCAUSE 0x00050001 and the mode word, and goes to the handler. -/
theorem test_trap : (after (.trap 5) sh).pc = 0x40000 ∧ (after (.trap 5) sh).me.x.xpc = 0x20004 ∧ (after (.trap 5) sh).me.x.xcause = 0x50001 ∧ (after (.trap 5) sh).me.mode = 0x0003000F := by decide +kernel
/-- R320: TRAPRET resumes at XPC under XMODE. -/
theorem test_trapret : (after (.trapret 0) (st fun g => { inHandler 0 g with x := { xpc := 0x20008, xmode := 0x0002000F } })).pc = 0x20008
    ∧ (after (.trapret 0) (st fun g => { inHandler 0 g with x := { xpc := 0x20008, xmode := 0x0002000F } })).me.mode = 0x0002000F := by decide +kernel
/-- R83: BRA p0 with lane 0 alone splits the path: the taken lanes at the target, the others at the next word. -/
theorem test_bra_splits : ((after (.bra false 0 4) (st (lanes 1))).me.path 1).pc = 0x20010 ∧ ((after (.bra false 0 4) (st (lanes 1))).me.path 1).member = 1
    ∧ ((after (.bra false 0 4) (st (lanes 1))).me.path 0).pc = 0x20004 ∧ ((after (.bra false 0 4) (st (lanes 1))).me.path 0).member = 0xFFFE := by decide +kernel
/-- R214: QALLOC takes the head of the free list; R215: QFREE of a block that is not allocated is an illegal operand. -/
theorem test_pool : out (.qalloc 4 true 0) sq 4 = 0x30040 ∧ (after (.qfree 60 true 0) (sq fun g => g.setS 60 0x30040)).me.x.xcause = (after (.trap 1024) sq).me.x.xcause := by decide +kernel
/-- R218: DLARM loads the counter and the slot. -/
theorem witness_Observation_locked : ((sz 1).part 0).state ≠ .none ∧ ((sz 1).part 0).isLocked 0x902 = true ∧ ((sz 1).part 0).isLocked 0x931 = true ∧ (st.part 0).isLocked 0x902 = false
    ∧ (st.part 0).isLocked 0x931 = false ∧ (9 : Nat) ≠ 8 ∧ bits (4 : Word) 0 3 = 4 := by decide +kernel
theorem witness_BoardKeys_steps : ((sz 1 fun q => { q with ksPending := some (3, 15), ksStep := 5 }).part 0).ksStep < 6 ∧ 6 ≤ ((sz 1 fun q => { q with ksPending := some (3, 15), ksStep := 6 }).part 0).ksStep
    ∧ ((sz 1 fun q => { q with ksPending := some (3, 15), ksStep := 6 }).part 0).ksPending = some (3, 15) := by decide +kernel
theorem witness_HostView_pages : (0x7FFFF : Nat) < 0x80000 ∧ (State.reset.deviceWrite 0x10 7).isSome = true ∧ State.reset.deviceWrite 3 0 = none ∧ (0x7FF : Nat) < 0x800 ∧ tileNumber (0x800 + 0xE1) = true
    ∧ (shownNumber 0xFFF || groupNumber 0xFFF || tileNumber 0xFFF) = false ∧ (st.part 0).state ≠ .none ∧ (State.reset.part 7).state = .none ∧ (0x14 : Nat) > 0x10 := by decide +kernel

theorem witness_BarriersAndMarks_illegal : small (2 : BitVec 6) 2 = false ∧ st.myTask.record.clus = false ∧ st.awaitedPhase = none
    ∧ (st fun g => { g with teamArrived := some (st.myTeam.openPhase false, true) }).openArrival false = some (st.myTeam.openPhase false, true)
    ∧ (st fun g => { g with teamArrived := some (st.myTeam.openPhase false, true) }).awaitedPhase = none
    ∧ ((st (onPath fun p => { p with state := .joined })).me.entries.filter fun k => ((st (onPath fun p => { p with state := .joined })).me.path k).state != .joined).length ≠ 1 := by decide +kernel

theorem test_dlarm : ((after (.dlarm 5 6 0) (ss 5 1000 6 63)).part 0).remaining = 1000 ∧ ((after (.dlarm 5 6 0) (ss 5 1000 6 63)).part 0).slot = 63 ∧ ((after (.dlarm 5 6 0) (ss 5 1000 6 63)).part 0).armed = true := by decide +kernel
/-- R438: CREATE gives PF 0 the number of the partition back. -/
theorem test_create : (after (.partCreate 7) sy).partCmd = 15 ∧ ((after (.partCreate 7) sy).part 7).state = .unlocked := by decide +kernel

end Sys2Proof.Tests
end

section
/-! SUPPORT. Decoding, encoding and the step that runs what it decodes (O1, O2, O3). -/

namespace Sys2Proof.Laws.F

/-- Settles O1: the recursor of the instructions, given the lemma of each constructor in the order of the opcode table. -/
theorem decodeEncodeAgree : Obligations.DecodeEncodeAgree :=
  Instr.rec (motive := Statement)
    nop jmp bra brany brall brc jpt call calli ret loop loopk leave exit yield bkpt trap trapret xrepl mode modef moderd exmsv exmld exmcmb exmp idrd
    sysrd syswr reln idemb ideme iadd isub imul imulh imulhu imad idiv idivu irem iremu imin imax iminu imaxu iabs ineg and or xor andn shl shr shra
    rotl popc clz brev bfx bfi bperm fshf sel mov movi ldcw movs addi muli andi ori xori shli shri shrai aadd alea aaddi asub iceq icne iclt icle
    icltu icleu iceqi iclti pand por pxor pandn ptos pfroms cmrd cmwr fadd fsub fmul ffma ffms fnma fmin fmax fabs fneg fceq fcne fclt fcle fcun
    fclass frcp frsq fsqrt fdiv fexp2 flog2 fsin fcos ftanh fsig ffrac frnd fscale fcpys fsat flagrd fadde fsube fmule facc dwadd dwsub dwmul dwaddf
    dwmulf dwdiv dwsqrt dwnorm dwtof dwclt dwceq cvtff cvtfi cvtif pack unpk pack8 unpk8 qnt4 rand randf catsamp bararv shfl shflx shflu shfld bcast
    voteany voteall ballot scanadd scanfadd redadd redfadd redmin redmax redsumc reddotc ldb ldbs ldh ldhs ldw ldd ldq ldln stb sth stw std stq pref
    fence cflush cinv atadd atmin atmax atand ator atxor atxchg atcas atfadd atpadd atinc bkadd bkred bkset bkscal cpya cpyg batch waitbat waitbatAll
    febset febsetPut febclr febwait febwe gang mma mmasp mmaz drain drainReg mmwait tld tst torg tzero tzeroAll bmcast engq fwait ftest fcancel fres
    spawn cwait cwaitTask cancel qalloc qfree qfreel mfill mflush dlarm dlrd ttboard ttalight ttread ttcas ttmax ttadd ttwait vpush vpop vcount mbpost
    mbtake bar barWait mark launchDoorbell launchEntryRead dispatch taskAgeing timeSliceEnd drainOverrun teamSave teamRestore dependenceUnitEnter
    taskComplete versionEarlyCommit mouldConsumerLaunch poolEnable poolDisable mouldEnable mouldDisable deadlineExpiry atctlFire dltrigRise
    unveilCancel unveilCapture faultQueueRecord faultReplay faultDeliver faultKill tlbInvalidateAddress tlbInvalidateAll scanCommit scanDiscard
    channelReset gateRequest gatePreemptRequest gateLift gateClose gateOpen coreDisable scanRotation scanComplete patrolRowRead auditSample probeSend
    probeReceive reportWrite governorInterval samplerEnable sample traceFilter haltRecordWrite filterLoad caliperStart caliperStop caliperEnd holdPath
    releasePath holdGroup releaseGroup debugStep holdTakesEffect freeze debugPortRead writeBufferDrain copyComplete matrixOperation turntablePerform
    revolution fifoEntryLand permitReturn flitArrival reassemblyGrant mailboxGrant chainJob chainLoop chainCond chainLink chainEnd engineJobComplete
    voxel rulebook coord convertCompress convertExpand collidePoint collideSegment collideSphere collideSweep dynStep partCreate partDestroy partStart
    partStop lockedRegisterWrite hostRegisterWrite getVersion getCapabilities negotiateAlgorithms getDigests getCertificate spdmChallenge
    getMeasurements keyExchange spdmFinish spdmHeartbeat keyUpdate endSession getTdispVersion getTdispCapabilities lockInterfaceRequest
    getDeviceInterfaceReport getDeviceInterfaceState startInterfaceRequest stopInterfaceRequest keyProg kSetGo kSetStop ideStreamInsecure
    boardRelayObject keyEstablish keyClear boardResponse powerOnReset bootImageWrite linkTraining perstAssert hotReset linkDown illegalInstruction
    illFormedWord fetchFault softError hostAccess eviction doeDiscovery pointMoveComplete

end Sys2Proof.Laws.F

namespace Sys2Proof.Machine

/-- Settles O2: each word is a closed term, which the decoder evaluates. -/
theorem decodeWords : Obligations.DecodeWords := by
  unfold Obligations.DecodeWords
  decide +kernel

/-! ### One step -/
/-- The literal of a word that takes one is the word behind it (R27). -/
theorem fetch_two {v : State} {w l : Word} {i : Instr} (h1 : v.badFetch v.pc.toNat = false) (h2 : v.fetchWord v.pc.toNat = .ok w) (h3 : takesLiteral w = true)
    (h4 : v.badFetch v.nextWord = false) (h5 : v.fetchWord v.nextWord = .ok l)
    (hd : decodeBytes (bytesOfWord w.toNat ++ bytesOfWord l.toNat) = some (i, [])) : v.fetch = (i, w) := by
  simp only [State.fetch, h1, h2, h3, h4, h5, dec_two h3 hd, Bool.false_eq_true, if_false, if_true]
/-- A word that cannot be fetched (R39). -/
theorem fetch_refused {v : State} {x : Refuse} (h1 : v.badFetch v.pc.toNat = false) (h2 : v.fetchWord v.pc.toNat = .error x) : v.fetch = (.fetchFault, 0) := by
  simp only [State.fetch, h1, h2, Bool.false_eq_true, if_false]
/-- An uncorrectable word (R343). -/
theorem fetch_bad {v : State} (h : v.badFetch v.pc.toNat = true) : v.fetch = (.fetchFault, 0) := by
  simp only [State.fetch, h, if_true]
theorem next_due {s : State} {i : Instr} (h : s.due = some i) : s.next = .event i := by
  simp only [State.next, h]
theorem next_sole {s : State} {m : Move} (h : s.due = none) (hm : s.moves = [m]) : s.next = m := by
  simp only [State.next, h, hm]

/-- Settles O3. Which of several candidates happens is the model's free choice (log entry 3), and the power-on reset the one way out of a halted boot
(log entry 120). -/
theorem stepRunsDecoded : Obligations.StepRunsDecoded := by
  refine ⟨fun s u hu => ⟨fun h hi => ?_, fun ok before after h hi hb => ?_, fun i h hd => ?_, fun m h hd hm => ?_, fun h hd => ?_, fun seq path h hn => ?_⟩,
    fun s v seq path w i hv ht hb hw hl hd => ?_, fun s v seq path w l i hv ht hb hw hl hb' hw' hd => ?_, fun s v seq path x hv ht hb hw => ?_,
    fun s v seq path hv ht hb => ?_, fun s t seq => ⟨fun h => ?_, fun hs hr => ?_⟩, fun s v seq path hv ht => ?_⟩
  · exact step_stops h (drop_all hi)
  · exact step_resets hu h (by rw [hi]; exact drop_before rfl hb)
  · rw [step_takes hu h, next_due hd]; rfl
  · rw [step_takes hu h, next_sole hd hm]
  · exact ⟨u.next, next_mem hd, step_takes hu h⟩
  · rw [step_takes hu h, hn]; rfl
  · rw [issue_of hv ht (fetch_one hb hw hl hd), pages_one hl]
  · exact issue_of hv ht (fetch_two hb hw hl hb' hw' hd)
  · rw [issue_of hv ht (fetch_refused hb hw), pages_one (by decide)]
  · rw [issue_of hv ht (fetch_bad hb), pages_one (by decide)]
  · unfold State.issued
    rcases h with h | h <;> simp [h]
  · simp [State.issued, hs, hr]
  · subst hv
    unfold State.issue
    exact if_pos ht

end Sys2Proof.Machine
end

section
/-! SUPPORT. Control transfers, masks, traps, loads and stores (O23, O25, O30, O31), each assembled from the lemmas of its clauses or its forms. -/

namespace Sys2Proof.Machine

/-- Settles O23, clause by clause. -/
theorem controlTransfers : Obligations.ControlTransfers :=
  ⟨controlTransfers_1, controlTransfers_2, controlTransfers_3, controlTransfers_4, controlTransfers_5, controlTransfers_6, controlTransfers_7, controlTransfers_8,
    controlTransfers_9, controlTransfers_10⟩
/-- Settles O25, clause by clause. -/
theorem modeAndMasks : Obligations.ModeAndMasks :=
  ⟨modeAndMasks_1, modeAndMasks_2, modeAndMasks_3, modeAndMasks_4, modeAndMasks_5, modeAndMasks_6, modeAndMasks_7, modeAndMasks_8⟩
/-- Settles O30, clause by clause. That MODE is judged on the value it reads now (log entry 135), and SYSWR's operands before its privilege (log entry 49),
are the model's choices. -/
theorem whatTraps : Obligations.WhatTraps :=
  ⟨whatTraps_1, whatTraps_2, whatTraps_3, whatTraps_4, whatTraps_5, whatTraps_6, whatTraps_7, whatTraps_8, whatTraps_9, whatTraps_10, whatTraps_11⟩
/-- Settles O31: every load and store is one of two shapes, and its registers are those its operand rule lets it name. -/
theorem loadsAndStores : Obligations.LoadsAndStores :=
  ⟨.of_load rd false 1 .ldb (fun _ _ _ _ _ _ => rfl) fun _ _ => one_fits, .of_load rd true 1 .ldbs (fun _ _ _ _ _ _ => rfl) fun _ _ => one_fits,
    .of_load rd false 2 .ldh (fun _ _ _ _ _ _ => rfl) fun _ _ => one_fits, .of_load rd true 2 .ldhs (fun _ _ _ _ _ _ => rfl) fun _ _ => one_fits,
    .of_load rd false 4 .ldw (fun _ _ _ _ _ _ => rfl) fun _ _ => one_fits, .of_load pr false 8 .ldd (fun _ _ _ _ _ _ => rfl) fun _ _ => two_fit,
    .of_load (mult 4) false 16 .ldq (fun _ _ _ _ _ _ => rfl) fun _ _ => four_fit,
    .of_store rd 1 .stb fun _ _ _ _ _ _ => rfl, .of_store rd 2 .sth fun _ _ _ _ _ _ => rfl, .of_store rd 4 .stw fun _ _ _ _ _ _ => rfl,
    .of_store pr 8 .std fun _ _ _ _ _ _ => rfl, .of_store (mult 4) 16 .stq fun _ _ _ _ _ _ => rfl⟩

end Sys2Proof.Machine
end

section
/-! SUPPORT. SYSRD and SYSWR by what the view of the group allows, and the registers that a write only fills (O37). -/

namespace Sys2Proof.Machine

theorem State.sysrd_allowed {s : State} {d : BitVec 6} {n : BitVec 12} (hc : s.clear true [] = true) (ha : s.priv = true ∨ n.toNat < 0x800) :
    exec (.sysrd d n) s = .next (((if n.toNat = 0x8E5 then s.acquire 3 else s).putS d.toNat (s.sysReg s.me n.toNat) clsNONE).retire {}) := by
  refine next_of ((State.checked_own rfl hc (by simp)).trans ?_)
  have : (!s.priv && decide (0x800 ≤ n.toNat)) = false := by rcases ha with h | h <;> simp [h]
  simp only [this, Bool.false_eq_true, if_false]
theorem State.sysrd_refused {s : State} {d : BitVec 6} {n : BitVec 12} (hc : s.clear true [] = true) (hp : s.priv = false) (hn : 0x800 ≤ n.toNat) :
    exec (.sysrd d n) s = .next s.needPriv := by
  refine next_of ((State.checked_own rfl hc (by simp)).trans ?_)
  simp only [hp, hn, Bool.not_false, decide_true, Bool.and_self, if_true]
/-- A SYSWR that its view allows (R26). -/
theorem State.syswr_allowed {s : State} {d : BitVec 6} {n : BitVec 12} (ha : s.priv = true ∨ n.toNat < 0x800) :
    exec (.syswr d n) s = .next (s.checked (s.sysWrite n.toNat (s.rs d.toNat)).isSome true [.s d.toNat] fun r =>
      let t := (r.sysWrite n.toNat (s.rs d.toNat)).getD r
      if t.me.live && t.me.seq == r.me.seq then t.retire {} else t) := by
  have h : (s.priv || decide (n.toNat < 0x800)) = true := by simpa using ha
  show execSyswr d n s = _
  unfold execSyswr
  simp only [h, if_true, Bool.not_true, Bool.false_eq_true, if_false]
/-- A SYSWR that its view refuses (R26). -/
theorem State.syswr_refused {s : State} {d : BitVec 6} {n : BitVec 12} (hc : s.clear true [.s d.toNat] = true) (hp : s.priv = false) (hn : 0x800 ≤ n.toNat)
    (hw : writableNumber n.toNat = true) : exec (.syswr d n) s = .next s.needPriv := by
  have h : (s.priv || decide (n.toNat < 0x800)) = false := by simp [hp, hn]
  refine next_of (Eq.trans ?_ (State.checked_own (k := fun s => s.needPriv) hw hc (by simp [Use.isVector])))
  simp only [h, Bool.false_eq_true, if_false, Bool.not_false, if_true]

theorem look_plainRegs : ∀ e ∈ plainRegs, look e.1 plainRegs = some e.2 := by decide +kernel
theorem State.baseWritten_other (s : State) {part n : Nat} (h : n ∉ [0x870, 0x871, 0x8C1, 0x8C2, 0x93B, 0x93C]) : s.baseWritten part n = s := by
  simp only [List.mem_cons, List.not_mem_nil, or_false, not_or] at h
  simp only [State.baseWritten, h, or_self, if_false]
/-- A register that a write only fills, where nothing follows the write (R452). -/
theorem State.partWrite_plain {s : State} {who part n : Nat} {mask v : Word} (hm : (n, mask) ∈ plainRegs) (hv : v &&& ~~~mask = 0)
    (hn : n ∉ [0x870, 0x871, 0x8C1, 0x8C2, 0x903, 0x904, 0x93B, 0x93C]) : s.partWrite who part n v = some (s.setPart part fun q => q.setReg n v) := by
  have hl : look n plainRegs = some mask := look_plainRegs _ hm
  have hb : n ∉ [0x870, 0x871, 0x8C1, 0x8C2, 0x93B, 0x93C] := fun h => hn (by simp only [List.mem_cons, List.not_mem_nil, or_false] at h ⊢; omega)
  have hr : (n == 0x903 || n == 0x904) = false := by simp only [List.mem_cons, List.not_mem_nil, or_false, not_or] at hn; simp [hn]
  simp only [State.partWrite, hl, hv, hr, decide_true, Bool.not_true, Bool.false_and, Bool.or_self, Bool.false_eq_true, if_false, State.baseWritten_other _ hb]

/-- Settles O37: each instruction by what the view of its group allows, and the write of a register that is only filled. -/
theorem systemRegisters : Obligations.SystemRegisters := by
  refine ⟨fun s d n hc ha => ?_, fun s d n hc hp hn => State.sysrd_refused hc hp hn, fun s d n u hc ha hw hlive hseq => ?_, fun s d n hc ha hw => ?_,
    fun s d n hc hp hn hw => State.syswr_refused hc hp hn hw, fun s who part n mask v hm hv hn => State.partWrite_plain hm hv hn, fun s v => ⟨rfl, rfl, rfl, fun h => ?_⟩⟩
  · refine Ends.puts (ds := [_]) (ws := [_]) (.of_me ?_) (nodup_one _) rfl (reg_lt d) rfl (State.sysrd_allowed hc ha)
    split
    · exact State.acquire_me ..
    · rfl
  · refine ⟨u.retire {}, ?_, State.retire_own_me rfl rfl, State.retire_others ..⟩
    rw [State.syswr_allowed ha, State.checked_own (by rw [hw]; rfl) hc (by simp [Use.isVector])]
    simp only [hw, Option.getD_some, hlive, hseq, beq_self_eq_true, Bool.and_self, if_true]
  · rw [State.syswr_allowed ha, hw]
    exact next_of State.checked_illegal
  · refine ⟨?_, ?_, ?_⟩ <;> simp [State.groupWrite, h]

end Sys2Proof.Machine
end

section
/-! SUPPORT. Fault records and the actions on them, fetch faults, soft errors (O51). -/

namespace Sys2Proof.Machine

/-! ### Records -/

/-- Writing a record: FQHEAD, the record and its path as `recorded` says, then the handler or the vector (R326, R328). -/
theorem State.writeRecord_recorded {s u : State} {p : Nat} {c : FaultCause} (hd : s.faultDue p = true) (hr : s.recordOf p = some (c, u)) :
    s.writeRecord p = if c.sysh then (s.recorded u p c).msi (p + 1) 1 else if (s.part p).killsAlone then (s.recorded u p c).noHandler p c
      else if ((s.recorded u p c).part p).handlerLive then s.recorded u p c else (s.recorded u p c).launchHandler p c := by
  unfold State.writeRecord
  simp only [hd, hr, Bool.not_true, Bool.false_eq_true, if_false]
  rfl
/-- The number that a record takes leaves FQHEAD at the next one (R328). -/
theorem State.recorded_unstopped {s u : State} {p : Nat} {c : FaultCause} (hp : p < 8) (h : s.stopped? c = none) :
    ((s.recorded u p c).part p).reg 0x873 0 = (s.part p).reg 0x873 0 + 1
    ∧ ((s.recorded u p c).part p).records = (u.part p).records ++ [{ seq := ((s.part p).reg 0x873 0).toNat, cause := c, acted := (s.part p).killsAlone }] := by
  unfold State.recorded
  simp only [h]
  rw [State.setPart_part _ hp]
  refine ⟨(reg_setReg (u.part p) 0x873 _ 0).trans ?_, rfl⟩
  exact BitVec.eq_of_toNat_eq (by simp)
/-- The handler that a partition's descriptor names is launched for the oldest unconsumed record (R326). -/
theorem State.launchHandler_accepts {s : State} {p : Nat} {bs : List Byte} {r : TaskRecord} {l : Lists} (c : FaultCause) (hv : (s.part p).reg2 0x877 ≠ 0)
    (hb : s.atelierRead p ((s.part p).reg2 0x877) 64 = .ok bs) (hr : s.readTask p bs = some (r, l)) :
    s.launchHandler p c = (s.accept p { record := { r with
      args := BitVec.ofNat 64 ((s.part p).reg2 0x870 + 64 * (((s.part p).reg 0x874 0).toNat % (s.part p).fqSize)), parent := 0, branch := 0 }, kind := .system, priv := true } l).1 := by
  simp only [State.launchHandler, hv, hb, hr, if_false]

/-! ### Actions -/

theorem faultReplay_outstanding {s : State} {p q : Nat} {r : FaultRecord} (hs : (s.part p).state ≠ .none) (h : (s.part p).outstanding q = some r) :
    exec (.faultReplay p q) s = .next ((s.replay p r).getD (s.actRefused p)) := by
  refine next_of ?_
  simp only [hs, State.faultAct, h, if_false]
theorem faultDeliver_outstanding {s : State} {p q : Nat} {r : FaultRecord} (hs : (s.part p).state ≠ .none) (h : (s.part p).outstanding q = some r) :
    exec (.faultDeliver p q) s = .next ((s.deliver p r).getD (s.actRefused p)) := by
  refine next_of ?_
  simp only [hs, State.faultAct, h, if_false]
theorem faultKill_outstanding {s : State} {p q : Nat} {r : FaultRecord} (hs : (s.part p).state ≠ .none) (h : (s.part p).outstanding q = some r) :
    exec (.faultKill p q) s = .next ((s.killRecord p r).getD (s.actRefused p)) := by
  refine next_of ?_
  simp only [hs, State.faultAct, h, if_false]
theorem faultActions_unlisted {s : State} {p q : Nat} (hs : (s.part p).state ≠ .none) (h : (s.part p).outstanding q = none) :
    exec (.faultReplay p q) s = .next (s.actRefused p) ∧ exec (.faultDeliver p q) s = .next (s.actRefused p) ∧ exec (.faultKill p q) s = .next (s.actRefused p) := by
  refine ⟨next_of ?_, next_of ?_, next_of ?_⟩ <;> (rw [if_neg hs]; exact act_none h)
theorem State.replay_copy {s : State} {p : Nat} {r : FaultRecord} {id : Nat} (h : r.cause.copy = some id) :
    (s.replay p r).getD (s.actRefused p) = if r.cause.replay then
      { s with copies := s.copies.map fun (c : Copy) => if c.id = id then { c with waits := false } else c }.acted p r else s.actRefused p := by
  unfold State.replay
  cases r.cause.replay <;> simp [h]
theorem State.replay_path {s : State} {p : Nat} {r : FaultRecord} {g : Group} {n : Nat} (hc : r.cause.copy = none) (h : s.stopped? r.cause = some (g, n)) :
    (s.replay p r).getD (s.actRefused p) = if r.cause.replay then
      (s.mapGroups (·.seq == g.seq) fun g => g.atCycle s.now fun g => g.unpark n r.cause).acted p r else s.actRefused p := by
  unfold State.replay
  cases r.cause.replay <;> simp [hc, h]
theorem State.replay_nothing {s : State} {p : Nat} {r : FaultRecord} (hc : r.cause.copy = none) (h : s.stopped? r.cause = none) : s.replay p r = none := by
  unfold State.replay
  cases r.cause.replay <;> simp [hc, h]
theorem State.undeliverable_iff {s : State} {p : Nat} {r : FaultRecord} : s.undeliverable p r ↔ (r.cause.unattr || bits r.cause.cause 0 8 == 0x0D
    || (((s.part p).task? r.cause.task).map (·.record.handler)).getD 0 == 0) = true := by
  simp [State.undeliverable, or_assoc]
theorem State.deliver_turned {s : State} {p : Nat} {r : FaultRecord} (h : s.undeliverable p r) : s.deliver p r = none :=
  if_pos (State.undeliverable_iff.mp h)
theorem State.deliver_copy {s : State} {p : Nat} {r : FaultRecord} {id : Nat} (h : ¬ s.undeliverable p r) (hc : r.cause.copy = some id) :
    (s.deliver p r).getD (s.actRefused p) = if s.handles p r.cause then s.actRefused p else
      { s with copies := s.copies.map fun (k : Copy) => if k.id = id then { k with waits := false, failed := true } else k }.acted p r := by
  unfold State.deliver
  rw [if_neg (mt State.undeliverable_iff.mpr h), hc]
  show (if s.handles p r.cause then none else some _ : Option State).getD _ = _
  cases s.handles p r.cause <;> rfl
theorem State.deliver_path {s : State} {p : Nat} {r : FaultRecord} {g : Group} {n : Nat} (h : ¬ s.undeliverable p r) (hc : r.cause.copy = none)
    (hg : s.stopped? r.cause = some (g, n)) :
    (s.deliver p r).getD (s.actRefused p) = if g.handler.isSome then s.actRefused p else
      (s.mapGroups (·.seq == g.seq) fun g => g.atCycle s.now fun g => ((g.setPath n fun p => { p with parked := none }).userTrap n
        ((((s.part p).task? r.cause.task).map (·.record.handler)).getD 0) r.cause.cause r.cause.mask (g.path n).pc r.cause.inst).refill 72).acted p r := by
  unfold State.deliver
  simp only [if_neg (mt State.undeliverable_iff.mpr h), hc, hg]
  cases g.handler.isSome <;> rfl
theorem State.deliver_nothing {s : State} {p : Nat} {r : FaultRecord} (hc : r.cause.copy = none) (h : s.stopped? r.cause = none) : s.deliver p r = none := by
  unfold State.deliver
  simp only [hc, h, ite_self]
theorem State.killRecord_getD (s : State) (p : Nat) (r : FaultRecord) :
    (s.killRecord p r).getD (s.actRefused p) = if r.cause.task = 0 then s.actRefused p else (s.acted p r).killTask p r.cause.task := by
  by_cases h : r.cause.task = 0 <;> simp [State.killRecord, h]

/-! ### Fetch faults -/

theorem fetchFault_first {s : State} {c : Cause} (h : s.fetchCause s.pc = some c) : exec .fetchFault s = .next (s.raise c) := by
  refine next_of ?_; simp only [h]
/-- The literal word is what cannot be fetched (R39, R333). -/
theorem fetchFault_second {s : State} {c : Cause} (h : s.fetchCause s.pc = none) (hc : s.fetchCause (pc56 (s.pc + 4)) = some c) :
    exec .fetchFault s = .next (s.raise c) := by
  refine next_of ?_; simp only [h, hc]
theorem fetchFault_none {s : State} (h : s.fetchCause s.pc = none) (hc : s.fetchCause (pc56 (s.pc + 4)) = none) : exec .fetchFault s = .next s := by
  refine next_of ?_; simp only [h, hc]

/-! ### Soft errors (R342, R423) -/

/-- An error of a protection word is noted, unless one as grave stands there. -/
def State.noteError (s : State) (e : SoftError) : State :=
  if s.errors.any fun x => x.kind == e.kind && x.tile == e.tile && x.addr == e.addr && (x.double || !e.double) then s else { s with errors := s.errors ++ [e] }
/-- The error stands, and nothing else has changed. -/
theorem State.noteError_stands (s : State) (e : SoftError) : ({ s.noteError e with errors := s.errors } : State) = s ∧
    ∃ x ∈ (s.noteError e).errors, x.kind = e.kind ∧ x.tile = e.tile ∧ x.addr = e.addr ∧ (e.double = true → x.double = true) := by
  unfold State.noteError
  split
  · rename_i h
    obtain ⟨x, hx, hk⟩ := List.any_eq_true.mp h
    simp only [Bool.and_eq_true, beq_iff_eq, Bool.or_eq_true, Bool.not_eq_true'] at hk
    obtain ⟨⟨⟨h1, h2⟩, h3⟩, h4⟩ := hk
    exact ⟨rfl, x, hx, h1, h2, h3, fun hd => h4.resolve_right (by simp [hd])⟩
  · exact ⟨rfl, e, by simp, rfl, rfl, rfl, id⟩
theorem softError_single {s : State} {kind tile addr : Nat} (hk : kind ≤ 10) (ht : tile < 96) :
    exec (.softError kind tile addr false) s = .next (s.countCe (if kind = 4 then homeOf addr else tile) kind) := by
  refine next_of ?_
  have h1 : (tile == 127) = false := by simp; omega
  have h2 : ¬ 10 < kind := by omega
  have h3 : ¬ 96 ≤ tile := by omega
  by_cases h4 : kind = 4 <;> simp [h1, h2, h3, h4]
theorem softError_double {s : State} {kind tile addr : Nat} (hk : kind ≤ 10) (ht : tile < 96) :
    exec (.softError kind tile addr true) s =
      .next (s.noteError { kind := kind, tile := if kind = 4 then homeOf addr else if kind = 7 then 0 else tile, addr := addr, double := true }) := by
  refine next_of ?_
  have h2 : ¬ 10 < kind := by omega
  have h3 : ¬ 96 ≤ tile := by omega
  simp [State.noteError, h2, h3]
theorem softError_outside {s : State} {addr : Nat} {double : Bool} :
    exec (.softError 4 127 addr double) s = .next (s.noteError { kind := 4, tile := if double then homeOf addr else 0x7F, addr := addr, double := double }) := by
  refine next_of ?_
  cases double <;> simp [State.noteError]
theorem softError_nowhere {s : State} {kind tile addr : Nat} {double : Bool} (h : 10 < kind ∨ 96 ≤ tile ∧ ¬ (kind = 4 ∧ tile = 127)) :
    exec (.softError kind tile addr double) s = .next s := by
  refine next_of (if_pos ?_)
  simp only [Bool.or_eq_true, Bool.and_eq_true, decide_eq_true_eq, Bool.not_eq_true', Bool.and_eq_false_iff, beq_eq_false_iff_ne]
  omega

/-- Settles O51. How a soft error names its word, and that it strikes once, are the model's choices (log entries 95, 96). -/
theorem faultRecords : Obligations.FaultRecords := by
  refine ⟨fun s p c u hd hr => ?_, fun s u p c hp h => State.recorded_unstopped hp h, fun s p c bs r l args hv hb hr ha => ha ▸ State.launchHandler_accepts c hv hb hr,
    fun s p h => ?_, fun s p q hs h => faultActions_unlisted hs h, fun s p q r hs h => ⟨?_, fun id hc => ?_, fun g n hc hg => ?_, fun hc hg => ⟨?_, ?_⟩, fun hu => ?_,
      fun hu => ⟨fun id hc => ?_, fun g n hc hg => ?_⟩⟩,
    fun s p => ⟨_, rfl, fun x hx hp => ?_⟩, fun s p => ⟨_, rfl, fun x hx hp => ?_⟩, fun s w => ⟨rfl, rfl⟩,
    fun s => ⟨fun c h => fetchFault_first h, fun h => ⟨fun c hc => fetchFault_second h hc, fun hc => fetchFault_none h hc⟩⟩,
    fun s kind tile addr hk ht => softError_single hk ht, fun s kind tile addr home hk ht hh => ?_, fun s addr double => ?_,
    fun s kind tile addr double h => softError_nowhere h⟩
  · have he : exec (.faultQueueRecord p) s = .next (s.writeRecord p) := rfl
    rw [he, State.writeRecord_recorded hd hr]
    exact ⟨fun hs => by rw [if_pos hs], fun hs hk => by rw [if_neg (by simp [hs]), if_pos hk],
      fun hs hk => by rw [if_neg (by simp [hs]), if_neg (by simp [hk])]⟩
  · refine next_of ?_
    unfold State.writeRecord
    rw [h]; rfl
  · rw [faultKill_outstanding hs h, State.killRecord_getD]
  · rw [faultReplay_outstanding hs h, State.replay_copy hc]
  · rw [faultReplay_outstanding hs h, State.replay_path hc hg]
  · rw [faultReplay_outstanding hs h, State.replay_nothing hc hg]; rfl
  · rw [faultDeliver_outstanding hs h, State.deliver_nothing hc hg]; rfl
  · rw [faultDeliver_outstanding hs h, State.deliver_turned hu]; rfl
  · rw [faultDeliver_outstanding hs h, State.deliver_copy hu hc]
  · rw [faultDeliver_outstanding hs h, State.deliver_path hu hc hg]
  · have := invalidated s p (fun _ => true) x hx
    simp [hp] at this
  · have := invalidated s p _ x hx
    simpa [hp] using this
  · obtain ⟨hs, x, hx, h1, h2, h3, h4⟩ := s.noteError_stands { kind := kind, tile := home, addr := addr, double := true }
    refine ⟨_, hh ▸ softError_double hk ht, ?_, hs⟩
    exact List.any_eq_true.mpr ⟨x, hx, by simp [h1, h2, h3, h4 rfl]⟩
  · obtain ⟨hs, x, hx, h1, -, h3, h4⟩ := s.noteError_stands { kind := 4, tile := if double then homeOf addr else 0x7F, addr := addr, double := double }
    exact ⟨_, softError_outside, hs, x, hx, h1, h3, h4⟩

end Sys2Proof.Machine
end

section
/-! SUPPORT. Integer arithmetic, logic, moves and compares (O7, O8, O10, O11, O12, O13): each instruction is one of a few shapes, and each shape
has one lemma. -/

namespace Sys2Proof.Machine

/-! ### The shapes -/

section
variable {i : Instr} {s : State} {u legal : Bool} {stall : BitVec 2} {per cls : Nat} {uses : List Use} {dests marks : List Nat} {draws : Bool} {size : Nat}
  {d : BitVec 6} {f : State → Nat → List Word × Nat} {g : Nat → List Word × Nat}
/-- A computing instruction whose results do not look at GSTAT: the words and flags are those its description gives in the state before. -/
theorem Computes.of_calc (hi : exec i s = .next (s.calc ⟨legal, u, stall, per, cls, uses, dests, marks, draws, size, f⟩)) (hd : dests.Nodup)
    (hr : legal = true → ∀ n ∈ dests, if u then n < 64 else n < 48) (hf : ∀ k, f s k = g k) (hlen : ∀ k, (g k).1.length = dests.length)
    (hg : ∀ (s : State) a b k, f (s.gap a b) k = f s k) : Computes i s u legal uses dests marks size g draws :=
  computes_of_calc _ g hi hd hr hlen fun k => (State.seen_same (fun s => f s k) (fun s a b => hg s a b k) s _).trans (hf k)
/-- The same with one destination that the form admits. -/
theorem Computes.of_single (hi : exec i s = .next (s.calc ⟨legal, u, stall, per, cls, uses, [d.toNat], marks, draws, size, f⟩))
    (hr : legal = true → rd u d = true) (hf : ∀ k, f s k = g k) (hlen : ∀ k, (g k).1.length = 1) (hg : ∀ (s : State) a b k, f (s.gap a b) k = f s k) :
    Computes i s u legal uses [d.toNat] marks size g draws :=
  .of_calc hi (one_nodup _) (fun hl => one_lt (hr hl)) hf hlen hg
/-- The same with a pair of destinations that the form admits. -/
theorem Computes.of_pair (hi : exec i s = .next (s.calc ⟨legal, u, stall, per, cls, uses, [d.toNat, d.toNat + 1], marks, draws, size, f⟩))
    (hr : legal = true → pr u d = true) (hf : ∀ k, f s k = g k) (hlen : ∀ k, (g k).1.length = 2) (hg : ∀ (s : State) a b k, f (s.gap a b) k = f s k) :
    Computes i s u legal uses [d.toNat, d.toNat + 1] marks size g draws :=
  .of_calc hi (pair_nodup _) (fun hl => pr_lt (hr hl)) hf hlen hg
end
/-- A computing instruction whose operands are not legal (R38, R39). -/
theorem State.calc_illegal {s : State} {c : Calc} (hl : c.legal = false) (hu : s.trapsToUser) :
    Trapped s (s.calc c) (causeWord 0x03 0) (if c.u then s.exm else s.active) s.pc := whatTraps_1 s c.legal c.u c.uses _ hl hu
/-- An integer instruction on the elements of two words. -/
theorem BinaryForm.of_ints {mk : BitVec 6 → BitVec 6 → BitVec 6 → BitVec 2 → Bool → Bool → Bool → Instr} (per cls : Nat) {sats : Bool} {sgn : Option Bool}
    {f : Nat → Bool → Int → Int → Int → Int × Nat}
    (hi : ∀ s d a b w u x y, exec (mk d a b w u x y) s = .next (s.bin true d a b w u x y per cls false fun s _ p q => s.ints u sats sgn f p q 0)) :
    BinaryForm mk (fun _ => true) fun s u _ p q => s.ints u sats sgn f p q 0 :=
  binary_of per cls (fun _ => false) hi fun _ _ _ _ _ _ _ => rfl
/-- An integer instruction on the elements of one word. -/
theorem UnaryForm.of_ints {mk : BitVec 6 → BitVec 6 → BitVec 2 → Bool → Bool → Instr} {sats : Bool} {sgn : Option Bool}
    {f : Nat → Bool → Int → Int → Int → Int × Nat}
    (hi : ∀ s d a w u x, exec (mk d a w u x) s = .next (s.una true d a w u x 1 clsSIMPLE false fun s _ p => s.ints u sats sgn f p 0 0)) :
    UnaryForm mk (fun _ => true) fun s u _ p => s.ints u sats sgn f p 0 0 :=
  unary_of 1 clsSIMPLE (fun _ => false) hi fun _ _ _ _ _ _ => rfl
/-- A function of two whole words, given in another way. -/
theorem BinaryForm.of_logic {mk : BitVec 6 → BitVec 6 → BitVec 6 → BitVec 2 → Bool → Bool → Bool → Instr} {g : Word → Word → Word} (f : Word → Word → Word)
    (hi : ∀ s d a b w u x y, exec (mk d a b w u x y) s = s.logic d a b w u x y g) (hg : ∀ p q, g p q = f p q) :
    BinaryForm mk (fun _ => true) fun _ _ _ p q => (f p q, 0) :=
  binary_of 1 clsSIMPLE (fun _ => false) (fun s d a b w u x y => (hi s d a b w u x y).trans
    (congrArg Host.Outcome.next (bin_congr fun _ _ p q => congrArg (·, 0) (hg p q)))) fun _ _ _ _ _ _ _ => rfl
/-- A function of one whole word, given in another way. -/
theorem UnaryForm.of_logic {mk : BitVec 6 → BitVec 6 → BitVec 2 → Bool → Bool → Instr} {g : Word → Word} (f : Word → Word)
    (hi : ∀ s d a w u x, exec (mk d a w u x) s = s.logic1 d a w u x g) (hg : ∀ p, g p = f p) : UnaryForm mk (fun _ => true) fun _ _ _ p => (f p, 0) :=
  unary_of 1 clsSIMPLE (fun _ => false) (fun s d a w u x => (hi s d a w u x).trans
    (congrArg Host.Outcome.next (una_congr fun _ _ p => congrArg (·, 0) (hg p)))) fun _ _ _ _ _ _ => rfl

/-! ### Bit fields and selection (R111, R114) -/

theorem kx_unmarked (u : Bool) : kx u false = true := by simp [kx]
/-- BFX, which marks no source. -/
theorem bfx_computes (s : State) (d a b : BitVec 6) (u sx : Bool) : Computes (.bfx d a b u sx) s u (rd u d && Sys2Proof.rs u a)
    [(srcA u a).use, (srcB u b).use] [d.toNat] [] 4 fun k => ([extract sx (s.word (srcA u a) k) (s.word (srcB u b) k)], 0) :=
  Computes.congr (.of_single rfl (by simp +contextual) (fun _ => rfl) (fun _ => rfl) fun _ _ _ _ => rfl) (by simp [kx_unmarked]) rfl
/-- BFI, which marks no source. -/
theorem bfi_computes (s : State) (d a b : BitVec 6) (u : Bool) : Computes (.bfi d a b u) s u (rd u d && Sys2Proof.rs u a)
    [(srcA u a).use, (srcB u b).use, (srcA u d).use] [d.toNat] [] 4
    fun k => ([insert (s.word (srcA u a) k) (s.word (srcB u b) k) (s.word (srcA u d) k)], 0) :=
  Computes.congr (.of_single rfl (by simp +contextual) (fun _ => rfl) (fun _ => rfl) fun _ _ _ _ => rfl) (by simp [kx_unmarked]) rfl
/-- SEL, which has the vector form only and marks no source. -/
theorem sel_computes (s : State) (d a b : BitVec 6) (n : Bool) (p : BitVec 4) : Computes (.sel d a b n p) s false (vr d && vr a && small p 12)
    [.v a.toNat, (srcB false b).use] [d.toNat] [] 4
    fun k => ([if bit (s.me.preg p.toNat) k != n then s.me.vlane a.toNat k else s.word (srcB false b) k], 0) :=
  Computes.congr (.of_single rfl (by simp +contextual) (fun _ => rfl) (fun _ => rfl) fun _ _ _ _ => rfl) (by simp [kx_unmarked, rd, Sys2Proof.rs]) rfl
/-- Words of opcode 0x3F (R114). -/
theorem decode_3F {n l : Nat} (h : fld n 24 8 = 0x3F) : decodeNat n l =
    if fld n 4 1 == 0 then .sel (bvf n 18 6) (bvf n 12 6) (bvf n 6 6) (bit1 n 5) (bvf n 0 4) else .illFormedWord (BitVec.ofNat 32 n) := by
  obtain ⟨hh, hl⟩ := Laws.F.digits h
  simp [decodeNat, hh, hl, decodeOp, decode3]

/-- Settles O8: the decoder's one test of bit 4, the shape of the instruction, and the trap of operands that are not legal. -/
theorem select : Obligations.Select := by
  refine ⟨fun n l _ h => ⟨fun h4 => ?_, fun h4 => ?_⟩, sel_computes, fun s d a b inv p hp hu => ⟨_, rfl, ?_⟩, fun s w hu => ⟨_, rfl, ?_⟩⟩
  · rw [decode_3F h, h4]; rfl
  · rw [decode_3F h, h4]; rfl
  · have hl : (rd false d && Sys2Proof.rs false a && kx false false && kx false false && small p 12) = false := by simp [small, hp]
    exact State.calc_illegal hl hu
  · exact State.raise_trapped (s := s.withMe fun g => { g with ir := w }) (c := { code := 0x03, mask := s.active }) rfl hu rfl

/-! ### BPERM (R112) -/

/-- BPERM on words. -/
def permuted (p q : Word) : Word := BitVec.ofNat 32 (leNat ((List.range 4).map fun k => BitVec.ofNat 8 (permByte p (bits q (4 * k) 3))))

theorem permByte_lt (a : Word) (q : Nat) : permByte a q < 256 := by
  unfold permByte
  split
  · decide
  · decide
  · split <;> decide
  · split <;> decide
  · exact Nat.mod_lt _ (by decide)
/-- Each byte of the result comes from its own nibble. -/
theorem permuted_byte (a b : Word) {k : Nat} (hk : k < 4) : bits (permuted a b) (8 * k) 8 = permByte a (bits b (4 * k) 3) :=
  (perm_bits _ k hk).trans ((BitVec.toNat_ofNat ..).trans (Nat.mod_eq_of_lt (permByte_lt ..)))
theorem permByte_of_lt (a : Word) {q : Nat} (h : q < 4) : permByte a q = bits a (8 * q) 8 := by
  obtain rfl | rfl | rfl | rfl : q = 0 ∨ q = 1 ∨ q = 2 ∨ q = 3 := by omega
  all_goals rfl
/-- Only the low three bits of each nibble count. -/
theorem permuted_congr (a : Word) {b c : Word} (h : ∀ k, k < 4 → bits b (4 * k) 3 = bits c (4 * k) 3) : permuted a b = permuted a c := by
  unfold permuted
  congr 2
  refine List.map_congr_left fun k hk => ?_
  rw [h k (List.mem_range.mp hk)]
theorem bperm_form : BinaryForm .bperm (fun _ => true) fun _ _ _ p q => (permuted p q, 0) :=
  .of_logic permuted (fun _ _ _ _ _ _ _ _ => rfl) fun _ _ => rfl

/-- Settles O7: every legal form computes `permuted`, whose bytes are read off one by one. -/
theorem bytePermute : Obligations.BytePermute := by
  refine ⟨permuted, bperm_form, fun a b k q hk hq => ?_, fun a b c h => permuted_congr a h⟩
  rw [permuted_byte a b hk, ← hq]
  refine ⟨fun h => permByte_of_lt a h, ?_, ?_, ?_, ?_⟩
  all_goals (rintro rfl; rfl)

/-! ### The families -/

/-- Settles O10: every instruction works element by element, of the width and signedness that its form and ET give. -/
theorem integerArithmetic : Obligations.IntegerArithmetic :=
  ⟨.of_ints 1 clsSIMPLE fun _ _ _ _ _ _ _ _ => rfl, .of_ints 1 clsSIMPLE fun _ _ _ _ _ _ _ _ => rfl, .of_ints 1 clsARITH fun _ _ _ _ _ _ _ _ => rfl,
    .of_ints 1 clsARITH fun _ _ _ _ _ _ _ _ => rfl, .of_ints 1 clsARITH fun _ _ _ _ _ _ _ _ => rfl,
    ternary_of 1 clsARITH (fun _ => false) (fun _ _ _ _ _ _ _ _ _ => rfl) fun _ _ _ _ _ _ _ _ => rfl,
    .of_ints 4 clsNONE fun _ _ _ _ _ _ _ _ => rfl, .of_ints 4 clsNONE fun _ _ _ _ _ _ _ _ => rfl, .of_ints 4 clsNONE fun _ _ _ _ _ _ _ _ => rfl,
    .of_ints 4 clsNONE fun _ _ _ _ _ _ _ _ => rfl, .of_ints 1 clsSIMPLE fun _ _ _ _ _ _ _ _ => rfl, .of_ints 1 clsSIMPLE fun _ _ _ _ _ _ _ _ => rfl,
    .of_ints 1 clsSIMPLE fun _ _ _ _ _ _ _ _ => rfl, .of_ints 1 clsSIMPLE fun _ _ _ _ _ _ _ _ => rfl, .of_ints fun _ _ _ _ _ _ => rfl,
    .of_ints fun _ _ _ _ _ _ => rfl⟩
/-- Settles O11: functions of whole words, whose shifts by 32 and more are worked out in `shl32`, `shr32` and `sshr32`. -/
theorem logicAndShifts : Obligations.LogicAndShifts :=
  ⟨.of_logic _ (fun _ _ _ _ _ _ _ _ => rfl) fun _ _ => rfl, .of_logic _ (fun _ _ _ _ _ _ _ _ => rfl) fun _ _ => rfl,
    .of_logic _ (fun _ _ _ _ _ _ _ _ => rfl) fun _ _ => rfl, .of_logic _ (fun _ _ _ _ _ _ _ _ => rfl) fun _ _ => rfl,
    .of_logic _ (fun _ _ _ _ _ _ _ _ => rfl) shl32, .of_logic _ (fun _ _ _ _ _ _ _ _ => rfl) shr32, .of_logic _ (fun _ _ _ _ _ _ _ _ => rfl) sshr32,
    .of_logic _ (fun _ _ _ _ _ _ _ _ => rfl) fun _ _ => rfl, .of_logic _ (fun _ _ _ _ _ _ => rfl) fun p => congrArg _ (popc_eq p),
    .of_logic _ (fun _ _ _ _ _ _ => rfl) clz_eq, .of_logic _ (fun _ _ _ _ _ _ => rfl) fun _ => rfl, bfx_computes, bfi_computes, bperm_form,
    ternary_of 1 clsSIMPLE (fun _ => false) (fun _ _ _ _ _ _ _ _ _ => rfl) fun _ _ _ _ _ _ _ _ => rfl, sel_computes⟩
/-- Scaling an index by a power of two (R117). -/
theorem shift_scales (x : DWord) (n : Nat) : x <<< n = x * BitVec.ofNat 64 (2 ^ n) := BitVec.eq_of_toNat_eq (by simp [Nat.shiftLeft_eq])
/-- Settles O12. That a pair source marks both of its names (log entry 8) is the model's choice. -/
theorem movesAndAddresses : Obligations.MovesAndAddresses := by
  refine ⟨fun s d b w u y => .of_single rfl (by simp +contextual) (fun _ => rfl) (fun _ => rfl) fun _ _ _ _ => rfl,
    fun s d u i => .of_single rfl id (fun _ => rfl) (fun _ => rfl) fun _ _ _ _ => rfl, fun s d u lit => .of_single rfl id (fun _ => rfl) (fun _ => rfl) fun _ _ _ _ => rfl,
    fun s d a w => .of_single rfl id (fun _ => rfl) (fun _ => rfl) fun _ _ _ _ => rfl,
    immediate_of fun _ _ _ _ _ => rfl, immediate_of fun _ _ _ _ _ => rfl, immediate_of fun _ _ _ _ _ => rfl, immediate_of fun _ _ _ _ _ => rfl,
    immediate_of fun _ _ _ _ _ => rfl, immediate_of fun _ _ _ _ _ => rfl, immediate_of fun _ _ _ _ _ => rfl, immediate_of fun _ _ _ _ _ => rfl,
    fun s d a b w u x y => address_of w clsSIMPLE rfl, fun s d a b u e h => ?_,
    fun s d a u i => .of_pair rfl (by simp +contextual) (fun _ => rfl) (fun _ => rfl) fun _ _ _ _ => rfl,
    fun s d a b w u x y => .of_pair rfl (by simp +contextual) (fun _ => rfl) (fun _ => rfl) fun _ _ _ _ => rfl⟩
  simp only [← shift_scales]
  exact address_of 0 clsNONE rfl
/-- Settles O13, clause by clause. -/
theorem comparesAndPredicates : Obligations.ComparesAndPredicates :=
  ⟨comparesAndPredicates_1, comparesAndPredicates_2, comparesAndPredicates_3, comparesAndPredicates_4, comparesAndPredicates_5, comparesAndPredicates_6,
    comparesAndPredicates_7, comparesAndPredicates_8, comparesAndPredicates_9, comparesAndPredicates_10, comparesAndPredicates_11, comparesAndPredicates_12⟩

end Sys2Proof.Machine
end

section
/-! SUPPORT. NOP, scopes, predicate moves, replaced results, traps, exits and breakpoints (O6, O24, O26, O27, O28, O29). -/

namespace Sys2Proof.Machine

/-- Words of opcode 0x00 (R89). -/
theorem decode_00 {n l : Nat} (h : fld n 24 8 = 0) :
    decodeNat n l = if fld n 0 4 == 0 && fld n 6 18 == 0 then .nop (bvf n 4 2) else .illFormedWord (BitVec.ofNat 32 n) := by
  obtain ⟨hh, hl⟩ := Laws.F.digits h
  simp [decodeNat, hh, hl, decodeOp, decode0]
/-- The cycles an instruction is charged, as its group keeps them (R29, R238). -/
theorem State.retire_charged (s : State) (d : Done) : (s.retire d).me.busyFrom = s.now ∧ (s.retire d).me.busyTo = s.now + (d.beats + d.extra) - 1
    ∧ (s.retire d).me.stallUntil = s.now + (d.beats + d.extra) + d.stall := by
  have h := s.retire_still d
  exact ⟨congrArg Group.busyFrom h, congrArg Group.busyTo h, congrArg Group.stallUntil h⟩

/-- Settles O6: the decoder's one test, and what completing an instruction charges. -/
theorem emptyInstruction : Obligations.EmptyInstruction := by
  refine ⟨fun n l _ h => ?_, fun s w hc => ?_⟩
  · rw [decode_00 h]
    refine ⟨?_, fun w hw => ?_⟩
    · split <;> simp_all
    · split at hw
      · exact (Instr.nop.inj hw) ▸ BitVec.toNat_ofNat ..
      · cases hw
  · have ho := s.retire_others { stall := stallOf w }
    obtain ⟨h1, h2, h3⟩ := s.retire_charged { stall := stallOf w }
    exact ⟨_, next_of (State.once_own rfl hc (by simp)), State.retire_own_me rfl rfl, ho, State.sameMemory_of_others ho, h1, h2, h3.trans (congrArg _ (stall_eq w))⟩
/-- Settles O24, clause by clause. -/
theorem scopesCallsAndLoops : Obligations.ScopesCallsAndLoops :=
  ⟨scopesCallsAndLoops_1, scopesCallsAndLoops_2, scopesCallsAndLoops_3, scopesCallsAndLoops_4, scopesCallsAndLoops_5, scopesCallsAndLoops_6,
    scopesCallsAndLoops_7, scopesCallsAndLoops_8⟩
/-- Settles O26, clause by clause. -/
theorem predicateAndFlagMoves : Obligations.PredicateAndFlagMoves :=
  ⟨predicateAndFlagMoves_1, predicateAndFlagMoves_2, predicateAndFlagMoves_3, predicateAndFlagMoves_4, predicateAndFlagMoves_5, predicateAndFlagMoves_6,
    predicateAndFlagMoves_7, predicateAndFlagMoves_8, predicateAndFlagMoves_9, predicateAndFlagMoves_10⟩
/-- Settles O27, one destination kind after the other. That a pair source loses the rows of both its names (log entry 8), and that only destinations that
R99's table has a row for are replaced (log entry 40), are the model's choices. -/
theorem trappedResultReplacement : Obligations.TrappedResultReplacement :=
  ⟨trappedResultReplacement_1, trappedResultReplacement_2, trappedResultReplacement_3, trappedResultReplacement_4, trappedResultReplacement_5,
    trappedResultReplacement_6, trappedResultReplacement_7⟩
/-- Settles O28, clause by clause. That EXIT acts on EXM and ignores its guard (R36, R79) is log entry 36. -/
theorem exitAndBreakpoint : Obligations.ExitAndBreakpoint :=
  ⟨exitAndBreakpoint_1, exitAndBreakpoint_2, exitAndBreakpoint_3, exitAndBreakpoint_4, exitAndBreakpoint_5, exitAndBreakpoint_6, exitAndBreakpoint_7,
    exitAndBreakpoint_8⟩
/-- Settles O29, clause by clause. That TRAPRET frees the entries that the handler has opened (log entry 38) is the model's choice. -/
theorem trapAndReturn : Obligations.TrapAndReturn := ⟨trapAndReturn_1, trapAndReturn_2, trapAndReturn_3, trapAndReturn_4⟩

end Sys2Proof.Machine
end

section
/-! SUPPORT. Floating-point arithmetic, compares, special functions, pairs, conversions, random draws, scans and reductions
(O14, O15, O16, O17, O18, O19, O22): each instruction is one of a few shapes, and each shape has one lemma. -/

namespace Sys2Proof.Machine

/-! ### Elements under ET (R123) -/

/-- Two sources, rounded once under the mode word. -/
theorem BinaryForm.of_rounded {mk : BitVec 6 → BitVec 6 → BitVec 6 → BitVec 2 → Bool → Bool → Bool → Instr} (per cls : Nat) {g : Nat → Fp → Fp → Fp → Res}
    (hi : ∀ s d a b w u x y, exec (mk d a b w u x y) s =
      .next (s.bin s.floatET d a b w u x y per cls s.drawing fun s k p q => s.rounded k g p q 0)) :
    BinaryForm mk State.floatET (fun s _ k p q => s.rounded k g p q 0) State.drawing :=
  binary_of per cls State.drawing hi fun _ _ _ _ _ _ _ => rfl
/-- Three sources, rounded once under the mode word. -/
theorem TernaryForm.of_rounded {mk : BitVec 6 → BitVec 6 → BitVec 6 → BitVec 2 → Bool → Bool → Bool → Bool → Instr} (per cls : Nat) {g : Nat → Fp → Fp → Fp → Res}
    (hi : ∀ s d a b w u x y z, exec (mk d a b w u x y z) s =
      .next (s.tri s.floatET d a b w u x y z per cls s.drawing fun s k p q r => s.rounded k g p q r)) :
    TernaryForm mk State.floatET (fun s _ k p q r => s.rounded k g p q r) State.drawing :=
  ternary_of per cls State.drawing hi fun _ _ _ _ _ _ _ _ => rfl
/-- One source, rounded once under the mode word. -/
theorem UnaryForm.of_rounded {mk : BitVec 6 → BitVec 6 → BitVec 2 → Bool → Bool → Instr} (per cls : Nat) {g : Nat → Fp → Fp → Fp → Res}
    (hi : ∀ s d a w u x, exec (mk d a w u x) s = .next (s.una s.floatET d a w u x per cls s.drawing fun s k p => s.rounded k g p 0 0)) :
    UnaryForm mk State.floatET (fun s _ k p => s.rounded k g p 0 0) State.drawing :=
  unary_of per cls State.drawing hi fun _ _ _ _ _ _ => rfl
/-- Two sources whose elements give a result without rounding. -/
theorem BinaryForm.of_unrounded {mk : BitVec 6 → BitVec 6 → BitVec 6 → BitVec 2 → Bool → Bool → Bool → Instr} (per cls : Nat)
    {g : Fmt → Bool → Nat → Nat → Nat × Nat}
    (hi : ∀ s d a b w u x y, exec (mk d a b w u x y) s = .next (s.bin s.floatET d a b w u x y per cls false fun s _ p q => s.unrounded g p q)) :
    BinaryForm mk State.floatET fun s _ _ p q => s.unrounded g p q :=
  binary_of per cls (fun _ => false) hi fun _ _ _ _ _ _ _ => rfl
/-- One source whose elements give a result without rounding. -/
theorem UnaryForm.of_unrounded {mk : BitVec 6 → BitVec 6 → BitVec 2 → Bool → Bool → Instr} (per cls : Nat) {g : Fmt → Bool → Nat → Nat → Nat × Nat}
    (hi : ∀ s d a w u x, exec (mk d a w u x) s = .next (s.una s.floatET d a w u x per cls false fun s _ p => s.unrounded g p 0)) :
    UnaryForm mk State.floatET fun s _ _ p => s.unrounded g p 0 :=
  unary_of per cls (fun _ => false) hi fun _ _ _ _ _ _ => rfl

/-- Settles O14: operations that round once, those that work on encodings (FRND, FSCALE), those that round nothing, and those on sign bits. -/
theorem floatArithmetic : Obligations.FloatArithmetic :=
  ⟨.of_rounded 1 clsARITH fun _ _ _ _ _ _ _ _ => rfl, .of_rounded 1 clsARITH fun _ _ _ _ _ _ _ _ => rfl, .of_rounded 1 clsARITH fun _ _ _ _ _ _ _ _ => rfl,
    .of_rounded 1 clsARITH fun _ _ _ _ _ _ _ _ _ => rfl, .of_rounded 1 clsARITH fun _ _ _ _ _ _ _ _ _ => rfl,
    .of_rounded 1 clsARITH fun _ _ _ _ _ _ _ _ _ => rfl, .of_rounded 4 clsNONE fun _ _ _ _ _ _ _ _ => rfl, .of_rounded 4 clsNONE fun _ _ _ _ _ _ => rfl,
    .of_rounded 1 clsARITH fun _ _ _ _ _ _ => rfl,
    unary_of 1 clsARITH State.drawing (fun _ _ _ _ _ _ => rfl) fun _ _ _ _ _ _ => rfl,
    binary_of 1 clsARITH State.drawing (fun _ _ _ _ _ _ _ _ => rfl) fun _ _ _ _ _ _ _ => rfl,
    .of_unrounded 1 clsARITH fun _ _ _ _ _ _ _ _ => rfl, .of_unrounded 1 clsARITH fun _ _ _ _ _ _ _ _ => rfl,
    unary_of 1 clsSIMPLE (fun _ => false) (fun _ _ _ _ _ _ => rfl) fun _ _ _ _ _ _ => rfl,
    unary_of 1 clsSIMPLE (fun _ => false) (fun _ _ _ _ _ _ => rfl) fun _ _ _ _ _ _ => rfl,
    binary_of 1 clsSIMPLE (fun _ => false) (fun _ _ _ _ _ _ _ _ => rfl) fun _ _ _ _ _ _ _ => rfl,
    .of_unrounded 1 clsSIMPLE fun _ _ _ _ _ _ => rfl, .of_unrounded 1 clsARITH fun _ _ _ _ _ _ => rfl⟩
/-- Settles O15: element compares clause by clause, and the compares of two pairs. That a pair source marks both of its names (log entry 8) and that a NaN
element decides before an infinite hi (log entry 128) are the model's choices. -/
theorem floatCompares : Obligations.FloatCompares :=
  ⟨floatCompares_1, floatCompares_2, floatCompares_3, floatCompares_4, floatCompares_5, comparePair_of fun _ _ _ _ _ _ _ _ => rfl,
    comparePair_of fun _ _ _ _ _ _ _ _ => rfl⟩
/-- Settles O16: each of the eight evaluates its function through the one shape of `special_of`. -/
theorem specialFunctions : Obligations.SpecialFunctions := by
  intro mk f h
  simp only [List.mem_cons, List.not_mem_nil, or_false, Prod.mk.injEq] at h
  obtain ⟨rfl, rfl⟩ | ⟨rfl, rfl⟩ | ⟨rfl, rfl⟩ | ⟨rfl, rfl⟩ | ⟨rfl, rfl⟩ | ⟨rfl, rfl⟩ | ⟨rfl, rfl⟩ | ⟨rfl, rfl⟩ := h
  all_goals exact special_of fun _ _ _ _ _ _ => rfl

/-! ### Pairs (R138 to R144) -/

/-- An instruction that delivers a rounded result and its error (R138). -/
theorem pairOp_computes {i : Instr} {s : State} {d a b : BitVec 6} {w : BitVec 2} {u x y px : Bool} {f : Fp → Fp → Res}
    (hi : exec i s = s.pairOp d a b w u x y px f) : Computes i s u (pr u d && Sys2Proof.rs u a && kx u x && kx u y) [(srcA u a).use, (srcB u b).use]
      [d.toNat, d.toNat + 1] (markA u x a ++ markB u y b) 4 fun k =>
        let ftz := modeFTZ s.me.mode
        let r := pairRes ftz px (f (fp32.unpack ftz (s.word (srcA u a) k).toNat) (fp32.unpack ftz (s.word (srcB u b) k).toNat))
        ([BitVec.ofNat 32 r.1, BitVec.ofNat 32 r.2.1], r.2.2) :=
  .of_pair hi (by simp +contextual) (fun _ => rfl) (fun _ => rfl) fun _ _ _ _ => rfl
/-- Settles O17: result pairs, and double-word operations whose special cases and algorithms both end in two words. That a pair source marks both of its
names (log entry 8), the pair in which a step that leaves the finite range ends (log entry 9) and that a NaN element decides before an infinite hi
(log entry 128) are the model's choices. -/
theorem resultPairs : Obligations.ResultPairs := by
  refine ⟨fun mk px f h s d a b w u x y => ?_, fun s d a w u x z => ?_, pairs_of 2 clsLONG (fun _ _ _ _ _ _ _ _ => rfl) fun _ _ _ _ => binary_two ..,
    pairs_of 2 clsLONG (fun _ _ _ _ _ _ _ _ => rfl) fun _ _ _ _ => binary_two .., pairs_of 2 clsLONG (fun _ _ _ _ _ _ _ _ => rfl) fun _ _ _ _ => binary_two ..,
    pairs_of 8 clsNONE (fun _ _ _ _ _ _ _ _ => rfl) fun _ _ _ _ => binary_two .., pairWord_of (fun _ _ _ _ _ _ _ _ => rfl) fun _ _ _ => binary_two ..,
    pairWord_of (fun _ _ _ _ _ _ _ _ => rfl) fun _ _ _ => binary_two .., pairUnary_of 8 clsNONE (fun _ _ _ _ _ _ => rfl) root_two,
    pairUnary_of 2 clsLONG (fun _ _ _ _ _ _ => rfl) normal_two, fun s d a w u x => ?_⟩
  · have hi : exec (mk d a b w u x y) s = s.pairOp d a b w u x y px f := by
      simp only [List.mem_cons, List.not_mem_nil, or_false, Prod.mk.injEq] at h
      obtain ⟨rfl, rfl, rfl⟩ | ⟨rfl, rfl, rfl⟩ | ⟨rfl, rfl, rfl⟩ := h
      all_goals rfl
    exact pairOp_computes hi
  · exact .of_pair rfl (by simp +contextual) (fun _ => rfl) (fun _ => binary_two ..) fun _ _ _ _ => rfl
  · exact .of_single rfl (by simp +contextual) (fun _ => rfl) (fun _ => rfl) fun _ _ _ _ => rfl

/-! ### Conversions (R146 to R151) -/

/-- Four consecutive destinations from a multiple of 4 on are registers of their form. -/
theorem quad_lt {u : Bool} {d : BitVec 6} (h : mult 4 u d = true) : ∀ n ∈ (List.range 4).map (d.toNat + ·), if u then n < 64 else n < 48 := by
  cases u <;> exact four_fit h
/-- A conversion of one element, which marks no source. -/
theorem convert_computes {i : Instr} {s : State} {d a : BitVec 6} {t f : BitVec 3} {u : Bool} {g : Env → Nat → Word × Nat}
    (hi : exec i s = s.convert d a t u f g) : Computes i s u (rd u d && Sys2Proof.rs u a && (small t 7 && small f 7)) [(srcA u a).use] [d.toNat] [] 4
      (fun k => ([(g (s.convEnv k 0 32) (s.word (srcA u a) k).toNat).1], (g (s.convEnv k 0 32) (s.word (srcA u a) k).toNat).2)) s.drawing :=
  Computes.congr (.of_single hi (by simp +contextual) (fun _ => rfl) (fun _ => rfl) fun _ _ _ _ => rfl) (by simp [kx_unmarked]) rfl
/-- Settles O18: conversions of one element, and packs and unpacks by the number of their destinations. That UNPK and UNPK8 draw
under RSTO like the others (log entry 19) is the model's choice. -/
theorem conversions : Obligations.Conversions := by
  refine ⟨fun s d a t u f => (convert_computes (show exec (.cvtff d a t u f) s = execCvtff d a t u f s from rfl) :),
    fun s d a t u f => (convert_computes (show exec (.cvtfi d a t u f) s = execCvtfi d a t u f s from rfl) :),
    fun s d a t u f => (convert_computes (show exec (.cvtif d a t u f) s = execCvtif d a t u f s from rfl) :),
    fun s d a b u c => ?_, fun s d a u c => ?_, fun s d a b u c => ?_, fun s d a u c => ?_, fun s d a b u t => ?_⟩
  · exact Computes.congr (.of_single rfl (by simp +contextual) (fun _ => rfl) (fun _ => rfl) fun _ _ _ _ => rfl) (by simp [kx_unmarked]) rfl
  · exact .of_pair rfl (by simp +contextual) (fun _ => rfl) (fun _ => rfl) fun _ _ _ _ => rfl
  · exact .of_single rfl (by simp +contextual) (fun _ => rfl) (fun _ => rfl) fun _ _ _ _ => rfl
  · exact .of_calc rfl (names_nodup _ 4) (fun hl => quad_lt (by simp_all)) (fun _ => rfl) (fun _ => rfl) fun _ _ _ _ => rfl
  · exact .of_single rfl (by simp +contextual) (fun _ => rfl) (fun _ => rfl) fun _ _ _ _ => rfl

/-! ### Random streams (R152 to R154) -/

/-- Settles O19: RAND by its width, one register or a pair. -/
theorem randomDraws : Obligations.RandomDraws := by
  refine ⟨fun s d b w u => ?_, fun s d w u => .of_single rfl id (fun _ => rfl) (fun _ => rfl) fun _ _ _ _ => rfl⟩
  by_cases hb : b = 1
  · subst hb
    exact .of_pair rfl (by simp +contextual) (fun _ => rfl) (fun _ => rfl) fun _ _ _ _ => rfl
  · have hi : exec (.rand d b w u) s = .next (s.calc { legal := small b 2 && rd u d, u := u, stall := w, cls := clsSIMPLE, uses := [],
                                                        dests := [d.toNat], draws := true, f := fun s k => ([lo32 (s.draw k)], 0) }) := by
      show execRand d b w u s = _
      simp only [execRand, if_neg hb]
    simp only [if_neg hb]
    exact .of_single hi (by simp +contextual) (fun _ => rfl) (fun _ => rfl) fun _ _ _ _ => rfl

/-! ### Scans and reductions (R162 to R165) -/

/-- A scan, its running values being the same in the state in which UNMAPPED is set. -/
theorem scan_computes {i : Instr} {s : State} {legal draws : Bool} {uses : List Use} {d : BitVec 6} {marks : List Nat} {w : BitVec 2} {excl : Bool}
    {run : State → LaneMask → List (Nat × Option Word × Word × Nat)}
    (hi : exec i s = .next (s.cross legal uses [d.toNat] marks w true draws fun s act => scanOut excl (run s act) act)) (hd : legal = true → vr d = true)
    (hg : ∀ (s : State) a b m, run (s.gap a b) m = run s m) :
    Computes i s false legal uses [d.toNat] marks 4 (fun k => match (run s s.active).find? (·.1 == k) with
      | some r => ([if excl then r.2.1.getD 0 else r.2.2.1], r.2.2.2)
      | none => ([], 0)) draws :=
  computes_of_cross _ hi (one_nodup _) (fun hl n hn => by rw [List.mem_singleton.mp hn]; exact vr_lt (hd hl))
    ((congrArg (scanOut excl · s.active) (State.seen_same (run · s.active) (fun s a b => hg s a b _) s _)).trans rfl)
/-- A reduction by running values gives the last of them. -/
theorem reduced_computes {i : Instr} {s : State} {legal draws : Bool} {uses : List Use} {d : BitVec 6} {marks : List Nat} {w : BitVec 2} {empty : Word}
    {run : State → LaneMask → List (Nat × Option Word × Word × Nat)}
    (hi : exec i s = .next (s.reduce legal uses [d.toNat] marks w draws fun s act => reduced (run s act) empty))
    (hg : ∀ (s : State) a b m, run (s.gap a b) m = run s m) :
    Reduces i s legal uses [d.toNat] marks [((run s s.active).getLast?.map (·.2.2.1)).getD empty] (orFlags ((run s s.active).map (·.2.2.2))) draws := by
  have h := reduces_of (reduced (run s s.active) empty) hi (one_nodup _) (reg_lt d) rfl
    (congrArg (reduced · empty) (State.seen_same (run · s.active) (fun s a b => hg s a b _) s _))
  rwa [show (reduced (run s s.active) empty).2.map (·.2) = (run s s.active).map (·.2.2.2) from List.map_map ..] at h
/-- A reduction whose words and flags are given as a whole. -/
theorem Reduces.of_whole {i : Instr} {s : State} {legal : Bool} {uses : List Use} {dests marks : List Nat} {w : BitVec 2}
    (F : State → List Word × List (Nat × Nat)) (hi : exec i s = .next (s.reduce legal uses dests marks w false fun s _ => F s)) (hd : dests.Nodup)
    (h64 : legal = true → ∀ n ∈ dests, n < 64) (hl : dests.length = (F s).1.length) (hg : ∀ (s : State) a b, F (s.gap a b) = F s) :
    Reduces i s legal uses dests marks (F s).1 (orFlags ((F s).2.map (·.2))) :=
  fun h => reduces_of (F s) hi hd (h64 h) hl (State.seen_same F hg s _) h
/-- CATSAMP, whose flags are those of its running sums and CATZ (R155). -/
theorem catsamp_computes (s : State) (d a b : BitVec 6) (w : BitVec 2) (x : Bool) : Reduces (.catsamp d a b w x) s (vr a) [.vw a.toNat, .s b.toNat] [d.toNat]
    (if x then [a.toNat] else []) [(s.sampleOf a b).1] (s.sampleOf a b).2 := by
  intro hl hc he
  refine ⟨_, next_of (State.checked_clear hl hc), ?_⟩
  obtain ⟨-, -, -, -, -, -, -, -, -, -, hact, hmarks, -⟩ := State.seen_only s (.exm :: [.vw a.toNat, .s b.toNat])
  have hv : (s.seen (.exm :: [.vw a.toNat, .s b.toNat])).sampleOf a b = s.sampleOf a b := State.seen_same (fun s => s.sampleOf a b) (fun _ _ _ => rfl) s _
  simp only [Bool.false_eq_true, if_false, hact, hmarks, hv]
  exact reduction_computed (ready_advance s (.exm :: [.vw a.toNat, .s b.toNat]) false false) (ds := [d.toNat]) (ws := [(s.sampleOf a b).1]) (one_nodup _) rfl
    (reg_lt d) he rfl
/-- Settles O22: scans and sums by their running values, the other reductions as a whole. That CATSAMP reads its source also where no lane is
active (log entry 23) is the model's choice. -/
theorem scansAndReductions : Obligations.ScansAndReductions :=
  ⟨fun s d a b w x => scan_computes (run := fun s m => s.runAdd a.toNat m) rfl (by simp +contextual) fun _ _ _ _ => rfl,
    fun s d a b w x => scan_computes (run := fun s m => s.runFadd a.toNat m) rfl (by simp +contextual) fun _ _ _ _ => rfl,
    fun s d a w x => reduced_computes (run := fun s m => s.runAdd a.toNat m) rfl fun _ _ _ _ => rfl,
    fun s d a w x => reduced_computes (run := fun s m => s.runFadd a.toNat m) rfl fun _ _ _ _ => rfl,
    fun s d a b w x => .of_whole (fun s => s.extremeOf false a b) rfl (one_nodup _) (fun _ => reg_lt d) rfl fun _ _ _ => rfl,
    fun s d a b w x => .of_whole (fun s => s.extremeOf true a b) rfl (one_nodup _) (fun _ => reg_lt d) rfl fun _ _ _ => rfl,
    fun s d a w x => .of_whole (fun s => s.sumOf a) rfl (pair_nodup _) (fun h => even_lt (by simp_all)) (sum_two s a).symm fun _ _ _ => rfl,
    fun s d a b w x y => .of_whole (fun s => s.dotOf a b) rfl (pair_nodup _) (fun h => even_lt (by simp_all)) (pair_two s a b).symm fun _ _ _ => rfl,
    catsamp_computes⟩

end Sys2Proof.Machine
end

section
/-! SUPPORT. Arrivals at the barriers, waiting for their phases, and marks (O39). -/

namespace Sys2Proof.Machine

/-! ### A group that stands but for its arrivals -/

/-- The issuing group is the same in both states, but for the arrivals it has recorded. -/
def State.sameButArrivals (s u : State) : Prop :=
  ∀ {α : Type} (F : Group → α), (∀ (g : Group) a, F { g with clusterArrived := a } = F g) → (∀ (g : Group) a, F { g with teamArrived := a } = F g) →
    F u.me = F s.me

theorem State.sameButArrivals_of_me {s u : State} (h : u.me = s.me) : s.sameButArrivals u := fun F _ _ => congrArg F h
theorem State.sameButArrivals_arrive {s u : State} (h : s.sameButArrivals u) (c split : Bool) : s.sameButArrivals (u.arrive c split) :=
  fun F h1 h2 => (arrive_keeps F h1 h2 u c split).trans (h F h1 h2)
/-- Waiting, its group standing but for its arrivals. -/
theorem waits_arrived {i : Instr} {s u : State} {w : Wait} (he : exec i s = .next (u.block w)) (h : s.sameButArrivals u) : WaitsFor i s u w (g := u.me) :=
  ⟨_, he, State.block_own w (h Group.s (fun _ _ => rfl) fun _ _ => rfl) (h Group.v (fun _ _ => rfl) fun _ _ => rfl) (h Group.p (fun _ _ => rfl) fun _ _ => rfl)
    (h Group.cm (fun _ _ => rfl) fun _ _ => rfl) (h Group.fpsf (fun _ _ => rfl) fun _ _ => rfl) (h Group.gstat (fun _ _ => rfl) fun _ _ => rfl)
    (h (fun g => (g.laneCtr, g.scalarCtr)) (fun _ _ => rfl) fun _ _ => rfl) rfl (h Group.paths (fun _ _ => rfl) fun _ _ => rfl)
    (h Group.cur (fun _ _ => rfl) fun _ _ => rfl)⟩

/-! ### Waiting for a phase (R230) -/

/-- A phase that is over lets the path go on, one that is not keeps it waiting. -/
theorem awaits_phase {i : Instr} {s u : State} {c : Bool} {n : Nat} (he : exec i s = .next (u.awaitPhase c n)) (h : s.sameButArrivals u) :
    if n < u.myTeam.openPhase c then Ends i s (u.acquire (barScope c)) (g := u.me.barDone c) else WaitsFor i s u (.barrier c n) (g := u.me) := by
  unfold State.awaitPhase at he
  split
  next hn => exact ends_done (he.trans (by rw [if_pos hn])) h
  next hn => exact waits_arrived (he.trans (by rw [if_neg hn])) h

/-- What the operand checks of a barrier instruction refuse (R38, R156). -/
theorem State.checked_refused {s : State} {legal : Bool} {us : List Use} {k : State → State} (h : legal = false) :
    s.checked legal true us k = s.raise { code := 0x03, mask := s.exm } := by
  rw [h, State.checked_illegal, if_pos rfl]
/-- A cluster form within a cluster task, or a team form. -/
theorem cluster_form {c clus : Bool} (h : c = true → clus = true) : (!(c && !clus)) = true := by
  cases c
  · rfl
  · rw [h rfl]; rfl

/-! ### BARARV (R156) -/

theorem bararv_arrives {s u : State} {d b : BitVec 6} {w : BitVec 2} {c : Bool} {n : Nat} (hb : small b 2 = true) (hcb : c = (b == 1))
    (hclus : c = true → s.myTask.record.clus = true) (ha : s.openArrival c = none) (hc : s.clear true [] = true) (hn : n = s.myTeam.openPhase c)
    (hu : u = ((s.release (barScope c)).putS d.toNat (BitVec.ofNat 32 n) clsNONE).arrive c true) :
    Ends (.bararv d b w) s u (S := s.scalarsWith [d.toNat] [BitVec.ofNat 32 n]) (g := u.me) := by
  subst hcb hn
  have he : exec (.bararv d b w) s = .next (u.retire { stall := stallOf w }) := by
    rw [hu]
    exact next_of (State.checked_own (by rw [hb, cluster_form hclus, ha]; rfl) hc (by simp))
  have hm := State.release_me s (barScope (b == 1))
  refine ends_keep he rfl rfl (fun m => ?_) rfl fun F h1 h2 h3 h4 => ?_
  · rw [hu, arrive_keeps (·.sreg m) (fun _ _ => rfl) fun _ _ => rfl, State.putS_sreg _ _ _ _ _ d.isLt, hm]
    by_cases h : m = d.toNat
    · simp [State.scalarsWith, h]
    · simp [State.scalarsWith, h]
  · rw [hu, arrive_keeps F h1 h2]
    exact (h4 _ _).trans ((h3 _ _ _).trans (congrArg F hm))
theorem bararv_refused {s : State} {d b : BitVec 6} {w : BitVec 2}
    (h : small b 2 = false ∨ ((b == 1) = true ∧ s.myTask.record.clus = false) ∨ (s.openArrival (b == 1)).isSome = true) :
    exec (.bararv d b w) s = .next (s.raise { code := 0x03, mask := s.exm }) := by
  refine next_of (State.checked_refused ?_)
  obtain h | ⟨h1, h2⟩ | h := h
  · simp [h]
  · rw [h1, h2]; simp
  · rw [Option.isNone_eq_false_iff.mpr h, Bool.and_false]

/-! ### BAR and its waiting form (R156, R230, R348) -/

/-- A BAR that already waits only goes on waiting. -/
theorem bar_waiting {s : State} {c : Bool} {n : Nat} (hw : s.awaitedPhase = some n) : exec (.bar c) s = .next (s.awaitPhase c n) := by
  show execBar c s = _
  unfold execBar
  rw [hw]
theorem barWait_waiting {s : State} {a : BitVec 6} {c : Bool} {n : Nat} (hw : s.awaitedPhase = some n) :
    exec (.barWait a c) s = .next (s.awaitPhase c n) := by
  show execBarWait a c s = _
  unfold execBarWait
  rw [hw]

section
variable {s : State} {c : Bool} (hw : s.awaitedPhase = none)
include hw

/-- A BAR of a group that has not arrived arrives and waits for the phase that was open. -/
theorem bar_arrives (hclus : c = true → s.myTask.record.clus = true)
    (hone : (s.me.entries.filter fun k => (s.me.path k).state != .joined).length = 1) (ha : s.me.arrival c = none) (hc : s.clear true [] = true) :
    exec (.bar c) s = .next (((s.release (barScope c)).arrive c false).awaitPhase c (s.myTeam.openPhase c)) := by
  have ho : s.openArrival c = none := by unfold State.openArrival; rw [ha]; rfl
  show execBar c s = _
  unfold execBar
  rw [hw]
  refine next_of ((State.checked_own ?_ hc (by simp)).trans ?_)
  · rw [cluster_form hclus, hone, ho]; rfl
  · rw [ha]
/-- A BAR that was withdrawn after its arrival waits for the phase of that arrival. -/
theorem bar_resumes {k : Nat} (hclus : c = true → s.myTask.record.clus = true)
    (hone : (s.me.entries.filter fun k => (s.me.path k).state != .joined).length = 1) (ha : s.me.arrival c = some (k, false)) (hc : s.clear true [] = true) :
    exec (.bar c) s = .next (s.awaitPhase c k) := by
  have ho : s.openArrival c = none ∨ s.openArrival c = some (k, false) := by
    unfold State.openArrival
    rw [ha, Option.filter_some]
    generalize ((k, false).1 == if c = true then s.myTeam.cphase else s.myTeam.phase) = now
    cases now
    · exact .inl rfl
    · exact .inr rfl
  show execBar c s = _
  unfold execBar
  rw [hw]
  refine next_of ((State.checked_own ?_ hc (by simp)).trans ?_)
  · rw [cluster_form hclus, hone]
    obtain h | h := ho
    · rw [h]; rfl
    · rw [h]; rfl
  · rw [ha]
theorem bar_refused (h : (c = true ∧ s.myTask.record.clus = false) ∨ (s.me.entries.filter fun k => (s.me.path k).state != .joined).length ≠ 1
    ∨ ∃ k, s.openArrival c = some (k, true)) : exec (.bar c) s = .next (s.raise { code := 0x03, mask := s.exm }) := by
  show execBar c s = _
  unfold execBar
  rw [hw]
  refine next_of (State.checked_refused ?_)
  obtain ⟨h1, h2⟩ | h | ⟨k, h⟩ := h
  · simp [h1, h2]
  · simp [beq_false_of_ne h]
  · simp [h]
/-- The waiting form takes the phase of its register that is nearest to the open phase. -/
theorem barWait_starts {a : BitVec 6} {d : Int} (hclus : c = true → s.myTask.record.clus = true) (hc : s.clear true [.s a.toNat] = true)
    (hd : d = (s.rs a.toNat - BitVec.ofNat 32 (s.myTeam.openPhase c)).toInt) :
    if d < 0 then Ends (.barWait a c) s (s.acquire (barScope c)) else WaitsFor (.barWait a c) s s (.barrier c (s.myTeam.openPhase c + d.toNat)) := by
  have he : exec (.barWait a c) s = .next (if d < 0 then (s.acquire (barScope c)).retire {} else s.awaitPhase c (s.myTeam.openPhase c + d.toNat)) := by
    show execBarWait a c s = _
    unfold execBarWait
    rw [hw, hd]
    exact next_of (State.checked_own (cluster_form hclus) hc (by simp [Use.isVector]))
  by_cases h : d < 0
  · rw [if_pos h] at he ⊢
    exact Ends.of (.of_me (State.acquire_me ..)) rfl he
  · rw [if_neg h] at he ⊢
    have hopen : ¬ s.myTeam.openPhase c + d.toNat < s.myTeam.openPhase c := by omega
    exact WaitsFor.of rfl (he.trans (next_of (if_neg hopen)))
theorem barWait_refused {a : BitVec 6} (hclus : s.myTask.record.clus = false) : exec (.barWait a true) s = .next (s.raise { code := 0x03, mask := s.exm }) := by
  show execBarWait a true s = _
  unfold execBarWait
  rw [hw]
  exact next_of (State.checked_refused (by simp [hclus]))
end

/-- A phase that every group of the team has arrived in or exited from is over. -/
theorem State.teamPhase_over {s : State} {id : Nat} (ha : (s.team id).arrived ≠ []) (hin : (s.team id).allIn (s.team id).arrived = true)
    (ht : (s.team? id).isSome = true) : (s.teamPhase id).team id = { s.team id with phase := (s.team id).phase + 1, arrived := [] } := by
  unfold State.teamPhase
  dsimp only
  rw [if_pos (by simp [ha, hin])]
  exact (State.setTeam_team (f := fun t => { t with phase := t.phase + 1, arrived := [] }) ht fun _ => rfl).1

/-! ### MARK (R411, R412, R418) -/

theorem State.markSampler_me (s : State) (id : Nat) : (s.markSampler id).me = s.me := by
  unfold State.markSampler
  dsimp only
  repeat' split
  all_goals rfl
theorem State.markSampler_now (s : State) (id : Nat) : (s.markSampler id).now = s.now := by
  unfold State.markSampler
  dsimp only
  repeat' split
  all_goals rfl
theorem mark_ends {s : State} {g : Bool} {k : BitVec 10} (hc : s.clear true [] = true) :
    Ends (.mark g k) s ((s.markSampler k.toNat).setPart s.me.part fun p =>
      let p := if p.traceOn && bit (p.reg 0x909 1) 0 then p.offerRecord (s.traceRecord s.me s.me.cur 1 s.pc k.toNat g false 0) else p
      if g then p.markProgress s.now k.toNat else p) := by
  refine Ends.of (d := {}) (.of_me ((setPart_me ..).trans (s.markSampler_me _))) rfl (next_of ((State.checked_own rfl hc (by simp)).trans ?_))
  dsimp only
  rw [s.markSampler_me, s.markSampler_now]

/-- Settles O39, clause by clause: each barrier form either answers `awaitPhase`, completes or is refused. That the waiting form
compares phases modulo 2^32 by the nearer distance (log entry 70) is the model's choice. -/
theorem barriersAndMarks : Obligations.BarriersAndMarks := by
  refine ⟨fun s d b w c n u hb hcb hclus ha hc hn hu => bararv_arrives hb hcb hclus ha hc hn hu, fun s c n u hw hclus hone ha hc hn hu => ?_,
    fun s c k hw hclus hone ha hc => awaits_phase (bar_resumes hw hclus hone ha hc) (State.sameButArrivals_of_me rfl), fun s c n a hw => ?_,
    fun s a c d hw hclus hc hd => barWait_starts hw hclus hc hd, fun s d b w h => bararv_refused h, fun s c hw h => bar_refused hw h,
    fun s a hw hclus => barWait_refused hw hclus, fun s id ha hin ht => ?_, fun s g k hc => mark_ends hc⟩
  · subst hn hu
    exact awaits_phase (bar_arrives hw hclus hone ha hc) (State.sameButArrivals_arrive (State.sameButArrivals_of_me (s.release_me _)) c false)
  · have hbar := awaits_phase (bar_waiting (c := c) hw) (State.sameButArrivals_of_me rfl)
    have hwait := awaits_phase (barWait_waiting (a := a) (c := c) hw) (State.sameButArrivals_of_me rfl)
    split
    next hn => rw [if_pos hn] at hbar hwait; exact ⟨hbar, hwait⟩
    next hn => rw [if_neg hn] at hbar hwait; exact ⟨hbar, hwait⟩
  · rw [State.teamPhase_over ha hin ht]
    exact ⟨rfl, rfl⟩

end Sys2Proof.Machine
end

section
/-! SUPPORT. Lanes, atomics and the shared bank (O20, O21, O32, O34): each instruction is one of a few shapes. -/

namespace Sys2Proof.Machine

/-! ### Shuffles, broadcast, votes (R158 to R161) -/

/-- BCAST into the active lanes collects one word for all of them; into a scalar register it writes that word once. -/
theorem bcast_computes (s : State) (d a : BitVec 6) (sc : Bool) (l : BitVec 6) :
    Computes (.bcast d a sc l) s sc (rd sc d && vr a && decide (l.toNat < s.me.width.lanes)) [.vw a.toNat] [d.toNat] [] 4
      fun _ => ([s.laneWhole a.toNat l.toNat], 0) := by
  intro hl hc
  have hd : rd sc d = true := by simp only [Bool.and_eq_true] at hl; exact hl.1.1
  have hw : ∀ us, (s.seen us).laneWhole a.toNat l.toNat = s.laneWhole a.toNat l.toNat :=
    State.seen_same (fun s => s.laneWhole a.toNat l.toNat) (fun _ _ _ => rfl) s
  cases sc with
  | true =>
    intro he
    refine ⟨_, next_of (State.checked_clear hl hc), ?_⟩
    simp only [if_true, hw]
    rw [← State.finish_zero _ _ fun _ => 0]
    exact scalars_computed (ready_advance s [.vw a.toNat] false true) (ds := [d.toNat]) (ws := [s.laneWhole a.toNat l.toNat]) (one_nodup _) rfl
      (reg_lt d) he rfl
  | false =>
    intro hrows he
    refine ⟨_, next_of (State.checked_clear hl hc), ?_⟩
    obtain ⟨-, -, -, -, -, -, -, -, -, -, hact, -⟩ := State.seen_only s (.exm :: [.vw a.toNat])
    rw [State.marks_nil] at hrows
    simp only [Bool.false_eq_true, if_false, hact, hw]
    exact collect_computed (ready_advance s (.exm :: [.vw a.toNat]) false false) (one_nodup _) (one_lt hd) ((State.seen_rowsFor ..).trans hrows)
      (fun _ _ => by simp only [State.vectorsWith, State.marks_nil]) he
theorem vpair_lt {d : BitVec 6} (h : vpair d = true) : ∀ n ∈ [d.toNat, d.toNat + 1], n < 48 :=
  pr_lt (u := false) (by simpa [pr, vpair, and_comm] using h)
theorem ballot_computes (s : State) (d a b : BitVec 6) (w : BitVec 2) :
    Computes (.ballot d a b w) s false (vpair d && small a 12 && small b 2) [.p a.toNat] [d.toNat, d.toNat + 1] [] 4
      fun _ => ([lo32 (s.voters a b s.active), hi32 (s.voters a b s.active)], 0) :=
  computes_of_cross _ rfl (pair_nodup _) (fun hl => vpair_lt (Bool.and_eq_true_iff.mp (Bool.and_eq_true_iff.mp hl).1).1)
    (State.seen_same (fun r => perLane s.active (fun _ => ([lo32 (r.voters a b s.active), hi32 (r.voters a b s.active)], 0)) ([], 0)) (fun _ _ _ => rfl) s _)

/-- Settles O20: the four shuffles differ in the source lane only. -/
theorem shufflesAndBroadcast : Obligations.ShufflesAndBroadcast :=
  ⟨fun _ _ _ b _ _ _ => shuffle_of (f := fun s k => (s.laneWhole b.toNat k).toNat) rfl fun _ _ _ _ => rfl,
    fun _ _ _ b _ _ => shuffle_of' (shuffle_of (f := fun s k => (k ^^^ bits (s.rs b.toNat) 0 6 : Nat)) rfl fun _ _ _ _ => rfl),
    fun _ _ _ i => shuffle_of (f := fun _ k => (k : Int) - i.toNat) rfl fun _ _ _ _ => rfl,
    fun _ _ _ i => shuffle_of (f := fun _ k => (k : Int) + i.toNat) rfl fun _ _ _ _ => rfl, bcast_computes⟩
/-- Settles O21: the two votes differ in the outcome only. -/
theorem votesAndBallot : Obligations.VotesAndBallot :=
  ⟨fun _ _ _ _ _ => vote_of (f := fun q _ => q != 0) rfl, fun _ _ _ _ _ => vote_of (f := fun q act => q == act) rfl, ballot_computes⟩

/-! ### Atomics (R174 to R176) -/

/-- An atomic of the common operand form, its function not looking beyond the issuing group. -/
theorem AtomicForm.of_plain {mk : BitVec 6 → BitVec 6 → BitVec 6 → Bool → Bool → Bool → BitVec 3 → Instr} {f : State → AtomicFn}
    (he : ∀ d a b u v z ord s, exec (mk d a b u v z ord) s = s.atomicOp d a b u v z ord f) (hf : ∀ (r r' : State), r'.me = r.me → f r' = f r) :
    AtomicForm mk (fun _ u v z d b => atReg u z b && atDest u z v d) id false f :=
  .of_atomic mk _ id false f he (fun _ _ _ _ _ h => dest_of (Bool.and_eq_true_iff.mp h).2) hf

/-- Settles O32: the atomics are one shape, each with its own function of the old value. -/
theorem atomics : Obligations.Atomics := by
  refine ⟨.of_plain (fun _ _ _ _ _ _ _ _ => rfl) fun _ _ _ => rfl, .of_plain (fun _ _ _ _ _ _ _ _ => rfl) fun _ _ h => by rw [h],
    .of_plain (fun _ _ _ _ _ _ _ _ => rfl) fun _ _ h => by rw [h], .of_plain (fun _ _ _ _ _ _ _ _ => rfl) fun _ _ _ => rfl,
    .of_plain (fun _ _ _ _ _ _ _ _ => rfl) fun _ _ _ => rfl, .of_plain (fun _ _ _ _ _ _ _ _ => rfl) fun _ _ _ => rfl,
    .of_plain (fun _ _ _ _ _ _ _ _ => rfl) fun _ _ _ => rfl, .of_atomic _ _ _ _ _ (fun _ _ _ _ _ _ _ _ => rfl) (fun _ _ _ _ _ h => ?_) fun _ _ _ => rfl,
    .of_atomic _ _ _ _ _ (fun _ _ _ _ _ _ _ _ => rfl) (fun _ _ _ _ _ h => ?_) fun _ _ h => by rw [h],
    .of_atomic _ _ _ _ _ (fun _ _ _ _ _ _ _ _ => rfl) (fun _ _ _ _ _ h => ?_) fun _ _ _ => rfl,
    .of_plain (fun _ _ _ _ _ _ _ _ => rfl) fun _ _ _ => rfl⟩
  · exact dest_reg (Bool.and_eq_true_iff.mp h).2
  · exact dest_of (Bool.and_eq_true_iff.mp (Bool.and_eq_true_iff.mp h).1).2
  · exact dest_of (Bool.and_eq_true_iff.mp h).2

/-! ### The shared bank (R177) -/

/-- Element `k` of a run that starts at a multiple of its whole length is aligned to its own size. -/
theorem element_aligned {v size n : Nat} (k : Nat) (h : v % (size * n) = 0) : (v + size * k) % size = 0 := by
  rw [Nat.add_mul_mod_self_left]; exact mod_of_mul h

/-- An element is a word or a pair. -/
theorem word_or_pair (p : Prop) [Decidable p] : (if p then 8 else 4) = 4 ∨ (if p then 8 else 4) = 8 := by
  split
  · exact .inr rfl
  · exact .inl rfl

/-- Settles O34: BKADD and BKRED work on the active lanes, BKSET and BKSCAL on consecutive words. -/
theorem bankOperations : Obligations.BankOperations := by
  refine ⟨bankForm _ _ _ _ _ _ (fun _ _ _ _ => rfl) (fun s us t => ?_) (fun _ => word_or_pair _) fun _ _ k _ h => element_aligned k h,
    bankForm _ _ _ _ _ _ (fun _ _ _ _ => rfl) (fun _ _ _ => rfl) (fun _ => word_or_pair _) fun _ _ _ _ h => h,
    bankFillForm _ _ fun _ _ _ _ => rfl, bankFillForm _ _ fun _ _ _ _ => rfl⟩
  exact State.seen_same (fun s => (if t = 4 then 8 else 4) * s.me.width.lanes) (fun _ _ _ => rfl) s us

end Sys2Proof.Machine
end

section
/-! SUPPORT. Blocks of words, prefetch, fences, cache maintenance (O33). -/

namespace Sys2Proof.Machine

/-! ### What completing leaves of the L1 shares -/

/-- Completing changes nothing of a team but its count of beats. -/
theorem State.retire_teams (s : State) (d : Done) : (s.retire d).teams.map Team.apart = s.teams.map Team.apart :=
  congrArg State.teams (s.retire_others d)
/-- A team that stands after an instruction has completed holds the L1 share of one that stood before. -/
theorem State.l1_of_retire {s : State} {d : Done} {x : Team} (h : x ∈ (s.retire d).teams) : ∃ y ∈ s.teams, y.tile = x.tile ∧ y.l1 = x.l1 := by
  have hx : x.apart ∈ s.teams.map Team.apart := s.retire_teams d ▸ List.mem_map_of_mem h
  obtain ⟨y, hy, e⟩ := List.mem_map.mp hx
  exact ⟨y, hy, (congrArg Team.tile e : y.apart.tile = x.apart.tile), (congrArg Team.l1 e : y.apart.l1 = x.apart.l1)⟩
theorem State.l1_retire (s : State) (d : Done) (id : Nat) : ((s.retire d).team id).l1 = (s.team id).l1 := by
  have h : ((s.retire d).team? id).map Team.l1 = (s.team? id).map Team.l1 := by
    have := congrArg (Option.map Team.l1) (State.team?_apart (s.retire_teams d) id)
    rwa [Option.map_map, Option.map_map] at this
  unfold State.team
  rw [← Option.getD_map Team.l1, ← Option.getD_map Team.l1, h]
/-- From device scope on an acquire leaves the team's L1 share empty. -/
theorem State.l1_acquire {s : State} {n : Nat} (h : 3 ≤ n) : ((s.acquire n).team s.me.team).l1 = [] := by
  have hf : (s.acquire n).team? s.me.team = (s.team? s.me.team).map fun t => if t.id = s.me.team then { t with l1 := [] } else t := by
    unfold State.acquire
    rw [if_pos h]
    exact team_find_map _ _ (fun t => by split <;> rfl) _
  unfold State.team
  rw [hf]
  cases ht : s.team? s.me.team with
  | none => rfl
  | some t => rw [Option.map_some, if_pos (State.team?_id ht)]; rfl

/-! ### PREF (R171) -/

/-- PREF brings lines in and changes no byte at its point of coherence. -/
theorem pref_accessed {s r : State} {a : BitVec 6} {u : Bool} {off : BitVec 8} {ord : BitVec 3} (hr : r = s.seen (usesOf u (baseUse u a)))
    (hok : (base u a && small ord 2) = true) (hc : s.clear u (baseUse u a) = true) :
    ∃ t, exec (.pref a u off ord) s = .next t ∧ Accessed r t r.me.sreg r.me.vlane fun _ => False := by
  subst hr
  refine ⟨_, next_of (State.checked_clear hok hc), (same_accessed ?_ rfl).2⟩
  split
  · refine (Walks.foldl (id := 0) _ _ _ fun q va _ => ?_).1
    split
    · exact (State.settleShare_walks ..).trans (State.fill_walks ..)
    · exact .refl ..
  · exact .refl ..

/-! ### LDLN (R170) -/

/-- The loads of a group reach what they leave by the bytes that a strong one drains from the team's buffer. -/
theorem State.loads_reach (r : State) (ord : BitVec 3) (ps : List Access) :
    Reaches (fun p => ord ≠ 0 ∧ r.buffered p) r ((r.entered (ord != 0) ps).loadAll (ord != 0) ps).2 := by
  by_cases ho : ord = 0
  · rw [show (ord != 0) = false by simp [ho]]
    exact (State.entered_weak _ 0 r ps).1.trans (State.loadAll_weak _ 0 _ _).1
  · have hb : Buffers (fun p => ord ≠ 0 ∧ r.buffered p) r.me.team r := Buffers.of_buffered fun p h => ⟨ho, h⟩
    obtain ⟨hreach, hkeeps⟩ := State.entered_within (ord != 0) ps hb
    exact hreach.trans (State.loadAll_within (ord != 0) ps (by rw [hreach.me]; exact hkeeps hb)).1
/-- LDLN, whose block is not refused, loads each active lane's word and writes it to that lane. -/
theorem ldln_eq {s r : State} {d a : BitVec 6} {off : BitVec 8} {ord : BitVec 3} {as : List Access} {va size : Nat} (hr : r = s.seen (.exm :: baseUse false a))
    (hva : r.effective false a off (4 * r.me.width.lanes) 0 = va) (hsize : 4 * r.me.width.lanes = size)
    (has : as = (lanesOf r.active).map fun k => ({ lane := k, va := va + 4 * k, size := 4 } : Access)) (hok : (vr d && odd a && small ord 3) = true)
    (hc : s.clear false (baseUse false a) = true) (hrows : State.rowsFor [] [d.toNat] r = true)
    (hblock : r.active = 0 ∨ r.refusal (r.groupAgent r.me) .load va size size = none) :
    exec (.ldln d a off ord) s = .next (r.accesses false (ord != 0) .load 0 as true fun ps q =>
      let x := q.loadAll (ord != 0) ps
      x.2.loaded false d.toNat 1 ord (beatsOf r.active) r.active (x.1.map fun y => (y.1, wordsOfBytes false y.2))) := by
  have hvalid : (if r.active = 0 then none else r.refusal (r.groupAgent r.me) .load va size size) = none := by
    obtain h | h := hblock
    · exact if_pos h
    · rw [h, ite_self]
  refine next_of ((State.checked_clear hok hc).trans ?_)
  rw [if_neg Bool.false_ne_true, ← hr]
  dsimp only
  rw [if_neg (by rw [hrows]; exact Bool.false_ne_true), hva, hsize, hvalid, has]

/-! ### FENCE (R172, R305, R306) -/

/-- FENCE releases, then acquires, as its order says. -/
theorem fence_eq {s : State} {ord : BitVec 3} (hok : fenceOrd ord = true) (hc : s.clear true [] = true) {r : State}
    (hr : r = if ord = 3 ∨ ord = 4 then s.release s.scope else s) :
    exec (.fence ord) s = .next ((if ord = 2 ∨ ord = 4 then r.acquire r.scope else r).retire {}) := by
  refine next_of ((State.once_own hok hc (by simp)).trans ?_)
  simp only [Bool.or_eq_true, decide_eq_true_eq, ← hr]
  rfl
theorem fence_accessed {s : State} {ord : BitVec 3} (hok : fenceOrd ord = true) (hc : s.clear true [] = true) :
    ∃ t, exec (.fence ord) s = .next t ∧ Accessed s t s.me.sreg s.me.vlane (fun p => (ord = 3 ∨ ord = 4) ∧ s.buffered p)
      ∧ (∀ ag p, t.readByte ag p = (if (ord = 3 ∨ ord = 4) ∧ 2 ≤ s.scope then s.drainAll s.me.team else s).readByte ag p)
      ∧ ((ord = 2 ∨ ord = 4) → 3 ≤ s.scope → (t.team s.me.team).l1 = []) := by
  obtain ⟨r, hr⟩ : ∃ r, r = if ord = 3 ∨ ord = 4 then s.release s.scope else s := ⟨_, rfl⟩
  have hdrained : r = if (ord = 3 ∨ ord = 4) ∧ 2 ≤ s.scope then s.drainAll s.me.team else s := by
    by_cases h : ord = 3 ∨ ord = 4
    · simp only [hr, h, true_and, if_true, State.release]
    · simp only [hr, h, false_and, if_false]
  have hreleased : Reaches (fun p => (ord = 3 ∨ ord = 4) ∧ s.buffered p) s r := by
    rw [hr]
    split
    next h => exact (State.release_within (Buffers.of_buffered fun p hp => ⟨h, hp⟩) _).1
    next => exact .refl ..
  have hacquired : Reaches (fun _ => False) r (if ord = 2 ∨ ord = 4 then r.acquire r.scope else r) := by
    split
    · exact (State.acquire_walks _ 0 r _).1
    · exact .refl ..
  have hdone := same_accessed (d := {}) (hreleased.trans (hacquired.mono fun _ => False.elim)) rfl
  refine ⟨_, fence_eq hok hc hr, hdone.2, fun ag p => ?_, fun h2 h3 => ?_⟩
  · rw [hdone.1, hacquired.memory ag p id, hdrained]
  · rw [State.l1_retire, if_pos h2, ← hreleased.me]
    exact State.l1_acquire (hreleased.scope ▸ h3)

/-! ### CFLUSH and CINV (R173) -/

/-- Cache maintenance of a range whose base is a valid address. -/
theorem State.maintain_go {s : State} {a b : BitVec 6} {whole : Bool} {sc : BitVec 3} {go : State → State} (hok : flushOk a b whole sc = true)
    (hc : s.clear true (if whole then [] else [.s a.toNat, .s (a.toNat + 1), .s b.toNat]) = true) (hv : whole = true ∨ bits (s.rpair a.toNat) 56 8 = 0) :
    s.maintain a b whole sc go = .next ((go s).retire {}) := by
  refine next_of ((State.checked_own hok hc ?_).trans (if_neg ?_))
  · cases whole <;> simp [Use.isVector]
  · obtain h | h := hv
    · simp [h]
    · simp [h]
theorem cflush_accessed {s : State} {a b : BitVec 6} {whole : Bool} {sc : BitVec 3} (hok : flushOk a b whole sc = true)
    (hc : s.clear true (if whole then [] else [.s a.toNat, .s (a.toNat + 1), .s b.toNat]) = true) (hv : whole = true ∨ bits (s.rpair a.toNat) 56 8 = 0) :
    ∃ t, exec (.cflush a b whole sc) s = .next t ∧ Accessed s t s.me.sreg s.me.vlane s.buffered ∧
      ∀ ag p, t.readByte ag p = (((s.myTeam.wbuf.map (·.line)).filter (s.maintained a b whole)).foldl (fun s l => s.drainEntry s.me.team l) s).readByte ag p := by
  have hreach : ∀ (ls : List Nat) (q : State), Reaches s.buffered s q → Buffers s.buffered s.me.team q →
      Reaches s.buffered s (ls.foldl (fun s l => s.drainEntry s.me.team l) q) := by
    intro ls
    induction ls with
    | nil => exact fun q hq _ => hq
    | cons l ls ih =>
      intro q hq hb
      rw [← hq.me] at hb
      have w := State.drainEntry_within hb l
      exact ih _ (hq.trans w.1) (hq.me ▸ w.2 hb)
  have hdone := same_accessed (d := {}) (hreach ((s.myTeam.wbuf.map (·.line)).filter (s.maintained a b whole)) s (.refl ..) (Buffers.of_buffered fun _ h => h)) rfl
  exact ⟨_, State.maintain_go hok hc hv, hdone.2, hdone.1⟩
theorem cinv_accessed {s : State} {a b : BitVec 6} {whole : Bool} {sc : BitVec 3} (hok : flushOk a b whole sc = true)
    (hc : s.clear true (if whole then [] else [.s a.toNat, .s (a.toNat + 1), .s b.toNat]) = true) (hv : whole = true ∨ bits (s.rpair a.toNat) 56 8 = 0) :
    ∃ t, exec (.cinv a b whole sc) s = .next t ∧ Accessed s t s.me.sreg s.me.vlane (fun _ => False) ∧
      (3 ≤ sc.toNat → ∀ x ∈ t.teams, x.tile = s.me.tile → ∀ e ∈ x.l1, s.maintained a b whole e.1 = false) := by
  refine ⟨_, State.maintain_go hok hc hv, (same_accessed ?_ rfl).2, fun h3 x hx htile e he => ?_⟩
  · split
    · exact .refl ..
    · refine Reaches.teams _ (fun t => ?_) (fun t => ?_) fun t => ?_
      all_goals (split <;> rfl)
  · obtain ⟨y, hy, hyt, hyl⟩ := State.l1_of_retire hx
    rw [if_neg (by omega)] at hy
    obtain ⟨z, -, rfl⟩ := List.mem_map.mp hy
    rw [← hyl] at he
    rw [← hyt] at htile
    split at he
    next => simpa using (List.mem_filter.mp he).2
    next hne => exact absurd (by rwa [if_neg hne] at htile) hne

/-- Settles O33, clause by clause. -/
theorem cachesAndFences : Obligations.CachesAndFences := by
  refine ⟨fun s d a off ord r as ps q hr has hps hq hok hc hrows hblock hmay => ?_, fun _ _ _ _ _ _ hr hok hc => pref_accessed hr hok hc,
    fun _ _ hok hc => fence_accessed hok hc, fun _ _ _ _ _ hok hc hv => ⟨cflush_accessed hok hc hv, cinv_accessed hok hc hv⟩⟩
  have hex := ldln_eq hr rfl rfl has hok hc hrows hblock
  rw [State.accesses_go hmay, ← hps] at hex
  have hreach : Reaches (fun p => ord ≠ 0 ∧ r.buffered p) r q.2 := hq ▸ r.loads_reach ord ps
  have hd : d.toNat < 48 := vr_lt (Bool.and_eq_true_iff.mp (Bool.and_eq_true_iff.mp hok).1).1
  subst hq
  exact ⟨_, hex, State.loaded_accessed (u := false) hreach (names := [d.toNat]) rfl (fun h => nomatch h) (fun _ n hn => List.mem_singleton.mp hn ▸ hd) rfl fun _ => rfl⟩

end Sys2Proof.Machine
end

section
/-! SUPPORT. Full/empty bits of tile buffers (O35). -/

namespace Sys2Proof.Machine

theorem State.setFull_same {s : State} {p k : Nat} {b : Bool} (h : s.febFull p k = b) : s.setFull p k b = s := if_pos h
theorem ite_of_not {b : Bool} {p q : Prop} (h : if (!b) = true then p else q) : if b = true then q else p := by
  cases b
  · exact h
  · exact h

/-- What a waiting form without an answer does, in the state after the release that its kind asks for. -/
def State.febAsk (r : State) (n : Nat) (kind : FebKind) (w : BitVec 2) : State :=
  let full := r.febFull r.me.part n
  if kind.holds full then
    let v := r.setFull r.me.part n (kind.leaves full)
    (if kind != .put then v.acquire 3 else v).retire { stall := stallOf w }
  else
    (({ r with febs := r.febs ++ [{ part := r.me.part, buffer := n, group := r.me.seq, path := r.me.cur, kind := kind }] } : State).writeHead
      r.me.part n).block (.fullEmpty n)
theorem State.febBlock_eq (s : State) (n : Nat) (kind : FebKind) (w : BitVec 2) :
    s.febBlock n kind w = if s.answer.isSome then (if kind != .put then s.acquire 3 else s).retire { stall := stallOf w }
      else (if kind = .put || kind = .take then s.release 3 else s).febAsk n kind w := rfl

section
variable {i : Instr} {s r : State} {n p g c : Nat} {kind : FebKind} {w : BitVec 2}

/-- Where its condition holds the form leaves the bit and completes, all but put with an acquire; else its path joins the waiting list. -/
theorem febAsk_settles (he : exec i s = .next (r.febAsk n kind w)) (hme : r.me = s.me) (hp : r.me.part = p) (hg : r.me.seq = g) (hc : r.me.cur = c) :
    if kind.holds (r.febFull p n) then
      Ends i s (if kind != .put then (r.setFull p n (kind.leaves (r.febFull p n))).acquire 3 else r.setFull p n (kind.leaves (r.febFull p n)))
    else WaitsFor i s (({ r with febs := r.febs ++ [{ part := p, buffer := n, group := g, path := c, kind := kind }] } : State).writeHead p n) (.fullEmpty n) := by
  subst hp hg hc
  unfold State.febAsk at he
  have hset : ∀ b, Untouched s (r.setFull r.me.part n b) := fun b => (Untouched.of_me hme).trans (setFull_untouched ..)
  split
  next h =>
    refine ends_of (he.trans (next_of (if_pos h))) ?_ rfl rfl
    split
    · exact (hset _).trans (.of_me (State.acquire_me ..))
    · exact hset _
  next h => exact waits_of (he.trans (next_of (if_neg h))) ((writeHead_me ..).trans hme)
/-- A waiting form that has its answer completes, all but put with an acquire. -/
theorem febBlock_answered (ha : s.answer.isSome = true) (he : exec i s = .next (s.febBlock n kind w)) :
    Ends i s (if kind != .put then s.acquire 3 else s) := by
  refine ends_of (he.trans (next_of ((s.febBlock_eq n kind w).trans (if_pos ha)))) (.of_me ?_) rfl rfl
  split
  · exact s.acquire_me 3
  · rfl
/-- A form that only waits, without an answer. -/
theorem febWaits_settles (ha : s.answer = none) (hk : kind = .full ∨ kind = .empty) (he : exec i s = .next (s.febBlock n kind w)) :
    if kind.holds (s.febFull s.me.part n) then Ends i s (s.acquire 3)
    else WaitsFor i s (({ s with febs := s.febs ++ [{ part := s.me.part, buffer := n, group := s.me.seq, path := s.me.cur, kind := kind }] } : State).writeHead
      s.me.part n) (.fullEmpty n) := by
  have hsame : s.setFull s.me.part n (s.febFull s.me.part n) = s := State.setFull_same rfl
  have hb : s.febBlock n kind w = s.febAsk n kind w := by
    rw [s.febBlock_eq, ha]; obtain rfl | rfl := hk <;> rfl
  have hleaves : kind.leaves (s.febFull s.me.part n) = s.febFull s.me.part n := by obtain rfl | rfl := hk <;> rfl
  have hacquires : (kind != .put) = true := by obtain rfl | rfl := hk <;> rfl
  have h := febAsk_settles (he.trans (next_of hb)) rfl rfl rfl rfl
  rwa [hleaves, hsame, if_pos hacquires] at h
/-- A form that puts or takes, without an answer: it releases first. -/
theorem febChanges_settles (ha : s.answer = none) (hk : kind = .put ∨ kind = .take) (hr : r = s.release 3) (he : exec i s = .next (s.febBlock n kind w)) :
    if kind.holds (r.febFull s.me.part n) then
      Ends i s (if kind != .put then (r.setFull s.me.part n (kind.leaves (r.febFull s.me.part n))).acquire 3
        else r.setFull s.me.part n (kind.leaves (r.febFull s.me.part n)))
    else WaitsFor i s (({ r with febs := r.febs ++ [{ part := s.me.part, buffer := n, group := s.me.seq, path := s.me.cur, kind := kind }] } : State).writeHead
      s.me.part n) (.fullEmpty n) := by
  have hme : r.me = s.me := hr ▸ s.release_me 3
  have hb : s.febBlock n kind w = r.febAsk n kind w := by
    rw [s.febBlock_eq, ha, hr]; obtain rfl | rfl := hk <;> rfl
  exact febAsk_settles (he.trans (next_of hb)) hme (congrArg Group.part hme) (congrArg Group.seq hme) (congrArg Group.cur hme)
/-- FEBSET and FEBCLR write the bit after a release. -/
theorem febWrite_ends {b : Bool} (hr : r = s.release 3) (he : exec i s = .next (((s.release 3).setFull s.me.part n b).retire { stall := stallOf w })) :
    Ends i s (r.setFull s.me.part n b) := by
  subst hr
  exact ends_of he ((Untouched.of_me (s.release_me 3)).trans (setFull_untouched ..)) rfl rfl
end

/-- FEBWAIT waits for full where b is 0, for empty where it is 1. -/
theorem febwait_eq {s : State} {a b : BitVec 6} {w : BitVec 2} {kind : FebKind} (hb : (if b = 1 then FebKind.empty else .full) = kind) :
    exec (.febwait a b w) s = s.febChecked (small b 2) a fun n s => s.febBlock n kind w := by
  subst hb; rfl

/-- Settles O35: two forms write at once, one only waits, two wait and write. -/
theorem fullEmptyBits : Obligations.FullEmptyBits := by
  refine ⟨fun s a w b n o r x hn h4 ha ho hs hc hr hx => ?_, fun s a b w ha => ?_⟩
  · subst hx
    have hwrite : ∀ v, s.febChecked true a (fun n s => ((s.release 3).setFull s.me.part n v).retire { stall := stallOf w }) = .next _ :=
      fun _ => febChecked_go hn h4 ha ho hs hc rfl
    have hblock : ∀ {ok} kind, ok = true → s.febChecked ok a (fun n s => s.febBlock n kind w) = .next (s.febBlock n kind w) :=
      fun _ hok => febChecked_go hn h4 ha ho hs hc hok
    refine ⟨febWrite_ends hr (hwrite true), febWrite_ends hr (hwrite false), ?_, ?_, ite_of_not (febChanges_settles ha (.inl rfl) hr (hblock .put rfl)),
      febChanges_settles ha (.inr rfl) hr (hblock .take rfl)⟩
    · rintro rfl
      exact febWaits_settles ha (.inl rfl) ((febwait_eq rfl).trans (hblock .full rfl))
    · rintro rfl
      exact ite_of_not (febWaits_settles ha (.inr rfl) ((febwait_eq rfl).trans (hblock .empty rfl)))
  · have hblock : ∀ ok kind, s.febChecked ok a (fun n s => s.febBlock n kind w) = .next _ := fun _ _ => febChecked_answered ha
    have hwait : ∀ kind, (if b = 1 then FebKind.empty else .full) = kind → exec (.febwait a b w) s = .next _ :=
      fun kind hb => (febwait_eq hb).trans (hblock _ kind)
    refine ⟨?_, febBlock_answered (kind := .take) ha (hblock true .take), febBlock_answered (kind := .put) ha (hblock true .put)⟩
    by_cases hb : b = 1
    · exact febBlock_answered ha (hwait .empty (if_pos hb))
    · exact febBlock_answered ha (hwait .full (if_neg hb))

end Sys2Proof.Machine
end

section
/-! SUPPORT. Copies and batches (O36). -/

namespace Sys2Proof.Machine

/-! ### Copies (R178 to R180, R205) -/

/-- A copy of which no range is refused starts. -/
theorem copy_ends {i : Instr} {s u : State} {bad : List (Option Refuse)} {start : State → State} {k : CopyKind} (hu : Reaches (fun _ => True) s u)
    (hbad : bad.foldl Refuse.first none = none) (hstart : start s = u.startCopy k false) (he : exec i s = .next (s.copyIssue bad start)) :
    Ends i s { u with copies := s.copies ++ [s.newCopy k], copyNum := s.copyNum + 1 } (g := { s.me with openCopies := s.me.openCopies ++ [s.copyNum] }) :=
  start_own hu k (he.trans (next_of ((issue_go hbad).trans (congrArg (·.retire {}) hstart))))
theorem drainRanges_reach (n : Nat) (f : Nat → Nat) (is : List Nat) (s : State) :
    Reaches (fun _ => True) s (is.foldl (fun s i => s.drainRange s.me.part s.me.team (f i) n) s) := by
  induction is generalizing s with
  | nil => exact .refl ..
  | cons i is ih => exact (drainRange_reaches ..).trans (ih _)

/-! ### Batches (R181 to R183) -/

/-- A group without what it knows of its copies and batches. -/
def Group.uncopied (g : Group) : Group :=
  { g with cpyst := 0, cpyfseq := 0, failedBatches := [], copyBad := [], batches := [], batchSeq := 0, openCopies := [] }
theorem Group.recordBatch_uncopied (g : Group) (q : Nat) (ids : List Nat) : (g.recordBatch q ids).uncopied = g.uncopied := by
  unfold Group.recordBatch
  split
  · rfl
  · rfl
theorem Group.settleBatches_uncopied (fl : List Nat) (bs : List (Nat × List Nat)) (g : Group) : (g.settleBatches fl bs).uncopied = g.uncopied := by
  induction bs generalizing g with
  | nil => rfl
  | cons b bs ih =>
    unfold Group.settleBatches
    split
    · rfl
    · exact (ih _).trans (g.recordBatch_uncopied ..)
theorem Group.recordBatch_batches (g : Group) (l : List (Nat × List Nat)) (q : Nat) (ids : List Nat) :
    ({ g with batches := l } : Group).recordBatch q ids = { g.recordBatch q ids with batches := l } := by
  unfold Group.recordBatch
  dsimp only
  split <;> rfl
/-- Settling takes the batches that it is given, whatever stood before. -/
theorem Group.settleBatches_batches (fl : List Nat) (bs l : List (Nat × List Nat)) (g : Group) :
    ({ g with batches := l } : Group).settleBatches fl bs = g.settleBatches fl bs := by
  induction bs generalizing g with
  | nil => rfl
  | cons b bs ih =>
    unfold Group.settleBatches
    split
    · rfl
    · rw [Group.recordBatch_batches]; exact ih _
/-- The group after a BATCH that has room: its open copies closed under the next number, and what has completed settled. -/
def State.batched (s : State) : Group :=
  ({ s.me with batchSeq := s.me.batchSeq + 1, openCopies := [] } : Group).settleBatches (s.copies.map (·.id))
    (s.me.batches ++ [((s.me.batchSeq + 1).toNat, s.me.openCopies)])
theorem State.batched_uncopied (s : State) : s.batched.uncopied = s.me.uncopied := Group.settleBatches_uncopied ..
/-- The batches of the issuing group are settled in that group. -/
theorem State.settle_own {s : State} (h : s.me.live = true) :
    s.settle s.me.seq = s.withMe fun g => g.settleBatches (s.copies.map (·.id)) g.batches := by
  refine if_pos ?_
  rw [h]; simp
theorem batch_eq {s : State} {d : BitVec 6} {w : BitVec 2} (hc : s.clear true [] = true) (hl : s.me.live = true) :
    exec (.batch d w) s = .next (if 16 ≤ s.me.batches.length then s.block .batchRoom
      else ((s.withMe fun _ => s.batched).putS d.toNat (s.me.batchSeq + 1) (1 + clsSIMPLE)).retire { stall := stallOf w }) := by
  have hsettled (r : State) (hr : r = s.withMe fun g => { g with
      batchSeq := s.me.batchSeq + 1, batches := g.batches ++ [((s.me.batchSeq + 1).toNat, g.openCopies)], openCopies := [] }) :
      r.settle r.me.seq = s.withMe fun _ => s.batched := by
    subst hr
    refine (State.settle_own ?_).trans ?_
    · exact hl
    · exact congrArg (fun g => s.withMe fun _ => g) (Group.settleBatches_batches _ (s.me.batches ++ [((s.me.batchSeq + 1).toNat, s.me.openCopies)]) _
        { s.me with batchSeq := s.me.batchSeq + 1, openCopies := [] })
  refine next_of ((checked_scalar rfl hc rfl).trans ?_)
  dsimp only
  rw [hsettled _ rfl]
theorem State.scalarsWith_congr {s r : State} {ds : List Nat} {ws : List Word} {n : Nat} (h : r.me.sreg n = s.me.sreg n) :
    r.scalarsWith ds ws n = s.scalarsWith ds ws n := by
  unfold State.scalarsWith
  rw [h]
/-- A BATCH that has room completes with its number, its group's registers standing. -/
theorem batch_ends {s : State} {d : BitVec 6} {w : BitVec 2} (hc : s.clear true [] = true) (hl : s.me.live = true) (hroom : ¬ 16 ≤ s.me.batches.length) :
    Ends (.batch d w) s s (S := s.scalarsWith [d.toNat] [s.me.batchSeq + 1]) (g := s.batched) := by
  have keeps {α : Type} (F : Group → α) : F s.batched.uncopied = F s.me.uncopied := congrArg F s.batched_uncopied
  obtain ⟨o, ho⟩ := own_of_puts (s := s.withMe fun _ => s.batched) (ds := [d.toNat]) (ws := [s.me.batchSeq + 1]) (d := { stall := stallOf w }) rfl (nodup_one _) rfl
    (reg_lt d) rfl (1 + clsSIMPLE)
  refine ⟨_, (batch_eq hc hl).trans (next_of (if_neg hroom)), ⟨fun n => (o.scalars n).trans ?_, o.vectors.trans (keeps Group.v), o.preds.trans (keeps Group.p),
    o.cm.trans (keeps Group.cm), o.fpsf.trans (keeps Group.fpsf), o.gstat.trans (keeps Group.gstat),
    o.streams.trans (keeps fun g => (g.laneCtr, g.scalarCtr)), o.special, ?_⟩, ho⟩
  · exact State.scalarsWith_congr (keeps (·.sreg n))
  · have hpc : (s.withMe fun _ => s.batched).pc = s.pc := State.pc_congr (keeps Group.paths) (keeps Group.cur)
    exact State.goesTo_congr (keeps Group.paths) (keeps Group.cur) (hpc ▸ o.goes)

/-- A bit of CM written by an instruction that leaves its group else alone. -/
theorem Ends.cmBit {i : Instr} {s u : State} {k lat : Nat} {b : Bool} (h : Untouched s u) (he : exec i s = .next ((u.putCMBit k b lat).retire {})) :
    Ends i s u (cm := s.cmWith k b) :=
  ⟨_, he, State.retire_own (fun n => Group.sreg_congr h.sc n) h.v h.p (congrArg (setBits · k 1 _) h.cm) h.fpsf h.gstat h.streams h.special h.cur h.sites rfl,
    State.retire_others ..⟩
/-- A wait for batches is over when none that it names is open. -/
theorem waitBatches_settles {i : Instr} {s : State} {n : Nat} (hw : s.path.wait = none ∨ s.path.wait = some (.batches n)) (he : exec i s = .next (s.waitBatches n)) :
    if s.me.batches.any (fun b => covers n b.1) then WaitsFor i s s (.batches n)
    else Ends i s (s.acquire s.scope) (cm := s.cmWith 1 (s.me.failedBatches.any (covers n))) := by
  have hgo : s.waitBatches n = if s.me.batches.any (fun b => covers n b.1) then s.block (.batches n)
      else ((s.acquire s.scope).putCMBit 1 (s.me.failedBatches.any (covers n)) clsNONE).retire {} := by
    unfold State.waitBatches
    obtain h | h := hw <;> rw [h]
  split
  next h => exact WaitsFor.of rfl (he.trans (next_of (hgo.trans (if_pos h))))
  next h => exact Ends.cmBit (.of_me (s.acquire_me _)) (he.trans (next_of (hgo.trans (if_neg h))))

/-- Settles O36: the copies differ in their kinds and in the ranges that are checked, the waits in the batches that they name. -/
theorem copiesAndBatches : Obligations.CopiesAndBatches := by
  refine ⟨fun s d a b e k len dst src srcLen u hlen hdst hsrc hsrcLen hok hc hseal hd hs hone hu => ?_,
    fun s d a b l count off dst src u hcount hoff hdst hsrc hok hc hlow hhigh hin hs hlist halign hsound hu => ?_,
    fun s d a b len off src mask u hmask hlen hoff hsrc hok hc hs hfits hu => ?_, fun s d w hc hl => ?_, fun s i n hi hw => waitBatches_settles hw ?_⟩
  · subst hlen hdst hsrc hsrcLen hu
    refine copy_ends (drainRange_reaches ..) ?_ rfl (next_of ((checked_scalar hok hc rfl).trans (if_neg ?_)))
    · rw [badRange_ok hd, badRange_ok (by rw [hs, hone]; rfl)]; rfl
    · cases e with
      | true => simp [hseal rfl]
      | false => simp
  · subst hcount hoff hdst hsrc hu
    refine copy_ends (drainRanges_reach ..) ?_ ?_ (next_of (checked_scalar hok hc rfl))
    · rw [badRange_ok (by simp [hlow, hhigh, hin]), badRange_ok (decide_eq_true hs), badRange_ok (decide_eq_true hlist), if_pos halign]; rfl
    · dsimp only
      rw [hsound, if_neg Bool.false_ne_true]
  · subst hmask hlen hoff hsrc hu
    refine copy_ends (drainRange_reaches ..) ?_ rfl (next_of (checked_scalar hok hc rfl))
    rw [badRange_ok hs, badRange_ok (by simpa using hfits)]; rfl
  · split
    next h => exact WaitsFor.of rfl ((batch_eq hc hl).trans (next_of (if_pos h)))
    next h => exact batch_ends hc hl h
  · obtain ⟨a, k, rfl, rfl, hc⟩ | ⟨rfl, rfl, hc⟩ := hi
    · exact next_of (checked_scalar rfl hc rfl)
    · exact next_of (checked_scalar rfl hc rfl)

end Sys2Proof.Machine
end

section
/-! SUPPORT. Launch queues, dispatch, ageing and the dependence unit (O49). -/

namespace Sys2Proof.Machine

/-! ### Launch queues (R236, R264, R441) -/

theorem launchDoorbell_heard {s : State} {p q : Nat} {v : Word} (hq : q < 4) (hp : (s.part p).state ≠ .none) :
    exec (.launchDoorbell p q v) s = .next (s.setPart p fun x => x.doorbell q v) :=
  next_of (if_pos (by simp [hq, hp]))
theorem launchDoorbell_unheard {s : State} {p q : Nat} {v : Word} (h : 4 ≤ q ∨ (s.part p).state = .none) : exec (.launchDoorbell p q v) s = .next s := by
  refine next_of (if_neg ?_)
  simp only [Bool.and_eq_true, decide_eq_true_eq, bne_iff_ne]
  rintro ⟨hq, hp⟩
  exact h.elim (Nat.not_le.mpr hq) hp
/-- The state after the entry at a queue's head has been read, launched and answered, or the access that faulted recorded; LQHEAD still stands. -/
def State.entryServed (s : State) (p q : Nat) : State :=
  match s.atelierRead p ((s.part p).entryAddr q) 16 with
  | .error r => s.atelierFault p r false
  | .ok e => match (s.launchEntry p q e).1.atelierWrite p ((s.part p).entryAddr q + 12) (leBytes 4 (s.launchEntry p q e).2) with
    | .error r => (s.launchEntry p q e).1.atelierFault p r true
    | .ok u => u
theorem State.entryServed_unread {s : State} {p q : Nat} {r : Refuse} (h : s.atelierRead p ((s.part p).entryAddr q) 16 = .error r) :
    s.entryServed p q = s.atelierFault p r false := by
  simp only [State.entryServed, h]
theorem State.entryServed_answered {s u : State} {p q : Nat} {e : List Byte} (h : s.atelierRead p ((s.part p).entryAddr q) 16 = .ok e)
    (hw : (s.launchEntry p q e).1.atelierWrite p ((s.part p).entryAddr q + 12) (leBytes 4 (s.launchEntry p q e).2) = .ok u) : s.entryServed p q = u := by
  simp only [State.entryServed, h, hw]
theorem State.entryServed_unanswered {s : State} {p q : Nat} {e : List Byte} {r : Refuse} (h : s.atelierRead p ((s.part p).entryAddr q) 16 = .ok e)
    (hw : (s.launchEntry p q e).1.atelierWrite p ((s.part p).entryAddr q + 12) (leBytes 4 (s.launchEntry p q e).2) = .error r) :
    s.entryServed p q = (s.launchEntry p q e).1.atelierFault p r true := by
  simp only [State.entryServed, h, hw]
/-- The head moves on by one from where it stood, whatever became of the entry. -/
theorem launchEntryRead_turn {s : State} {p q : Nat} (hr : (s.part p).state = .run) (hs : (s.part p).stopping = false) (hq : (s.part p).nextQueue = some q) :
    exec (.launchEntryRead p q) s = .next (s.entryDone (s.entryServed p q) p q) := by
  refine next_of ((if_neg ?_).trans ?_)
  · simp [hr, hs, hq]
  · cases h : s.atelierRead p ((s.part p).entryAddr q) 16 with
    | error r =>
      rw [State.entryServed_unread h]
      unfold Partition.entryAddr at h
      simp only [h]; rfl
    | ok e =>
      cases hw : (s.launchEntry p q e).1.atelierWrite p ((s.part p).entryAddr q + 12) (leBytes 4 (s.launchEntry p q e).2) with
      | error r =>
        rw [State.entryServed_unanswered h hw]
        unfold Partition.entryAddr at h hw
        simp only [h, hw]; rfl
      | ok u =>
        rw [State.entryServed_answered h hw]
        unfold Partition.entryAddr at h hw
        simp only [h, hw]; rfl
theorem launchEntryRead_idle {s : State} {p q : Nat} (h : (s.part p).state ≠ .run ∨ (s.part p).stopping = true ∨ (s.part p).nextQueue ≠ some q) :
    exec (.launchEntryRead p q) s = .next s :=
  next_of (if_pos (by simpa [or_assoc] using h))
theorem State.launchEntry_misaligned {s : State} {p q : Nat} {e : List Byte} (h : natAt e 0 8 % 64 ≠ 0) : s.launchEntry p q e = (s, 0xFFFFFFFF) :=
  if_pos (by simp [h])
/-- A legal record launched on a number of clusters within R236's limit is accepted as a root of that many clusters. -/
theorem State.launchEntry_accepts {s : State} {p q : Nat} {e bs : List Byte} {r : TaskRecord} {l : Lists} (ha : natAt e 0 8 % 64 = 0) (hroom : s.taskRoom = true)
    (hb : s.atelierRead p (natAt e 0 8) 64 = .ok bs) (hr : s.readTask p bs = some (r, l)) (hpos : 0 < natAt e 8 2) (hmax : natAt e 8 2 ≤ 96 / r.members) :
    s.launchEntry p q e = s.accept p { record := { r with parent := 0 }, clusters := natAt e 8 2, priv := (s.part p).privq.getLsbD q } l := by
  have hn : (decide (natAt e 8 2 = 0) || decide (96 / r.members < natAt e 8 2)) = false := by simp; omega
  unfold State.launchEntry
  simp [ha, hroom, hb, hr, hn]

/-! ### Dispatch (R267) -/

theorem State.dispatch_early {s : State} (h : s.now < s.dispatchAt) : s.dispatch = s := if_pos h
/-- Spending a credit takes no time: the next dispatch is counted from the same cycle. -/
theorem State.dispatched_eq (s : State) (x : Nat × Task × List Nat) : s.dispatched x =
    { (s.setPart x.1 fun p => { p with credit := p.credit - 1 }) with
      lastPart := x.1, dispatchAt := (s.setPart x.1 fun p => { p with credit := p.credit - 1 }).now + 1 }.startCluster x.2.1 x.2.2 := by
  rw [State.setPart_now]; rfl
theorem State.dispatch_credited {s : State} {x : Nat × Task × List Nat} (h : s.dispatchAt ≤ s.now) (hx : s.nextDispatch = some x) : s.dispatch = s.dispatched x := by
  unfold State.nextDispatch at hx
  refine (if_neg (Nat.not_lt.mpr h)).trans ?_
  rw [State.dispatched_eq]
  simp only [hx]
/-- Without credit left where something is to be dispatched, every credit returns to its share, and the visit is made again. -/
theorem State.dispatch_refilled {s : State} (h : s.dispatchAt ≤ s.now) (hx : s.nextDispatch = none) (ho : (s.visits.any fun p => (s.offer p).isSome) = true) :
    s.dispatch = s.creditsFilled.nextDispatch.elim s.creditsFilled s.creditsFilled.dispatched := by
  unfold State.nextDispatch at hx
  refine (if_neg (Nat.not_lt.mpr h)).trans ?_
  simp only [hx]
  refine (if_pos ho).trans ?_
  cases hy : s.creditsFilled.nextDispatch with
  | none => unfold State.nextDispatch State.creditsFilled at hy; simp only [hy]; rfl
  | some y =>
    rw [Option.elim_some, State.dispatched_eq]
    unfold State.nextDispatch State.creditsFilled at hy
    simp only [hy]; rfl
theorem State.dispatch_idle {s : State} (h : s.dispatchAt ≤ s.now) (hx : s.nextDispatch = none) (ho : (s.visits.any fun p => (s.offer p).isSome) = false) :
    s.dispatch = s := by
  unfold State.nextDispatch at hx
  refine (if_neg (Nat.not_lt.mpr h)).trans ?_
  simp only [hx]
  exact if_neg (Bool.eq_false_iff.mp ho)

/-! ### The dependence unit (R272) -/

/-- Only what a change makes of the partition as it stands matters. -/
theorem State.setPart_congr {s : State} {p : Nat} {f g : Partition → Partition} (h : f (s.part p) = g (s.part p)) : s.setPart p f = s.setPart p g := by
  unfold State.setPart
  split
  next hp =>
    have hpart : s.parts[p] = s.part p := by simp [State.part, hp]
    rw [hpart, h]
  · rfl
theorem State.setPart_stands (s : State) (p : Nat) : (s.setPart p fun q => q) = s := by
  by_cases hp : p < 8
  · exact s.setPart_same _ rfl hp
  · exact dif_neg hp
theorem dependenceUnitEnter_enters {s : State} {p : Nat} {y : Submission} {ys : List Submission} (hy : (s.part p).depHold = y :: ys) (hroom : (s.part p).dep.length < 256) :
    exec (.dependenceUnitEnter p) s = .next ((s.setPart p fun q => { q with dep := q.dep ++ [{ y with edges := edgesOf q.dep y }], depHold := ys }).review p) := by
  refine next_of (congrArg (State.review · p) (State.setPart_congr ?_))
  simp only [hy, hroom, if_true]
theorem dependenceUnitEnter_stands {s : State} {p : Nat} (h : (s.part p).depHold = [] ∨ 256 ≤ (s.part p).dep.length) :
    exec (.dependenceUnitEnter p) s = .next (s.review p) := by
  refine next_of (congrArg (State.review · p) ((State.setPart_congr ?_).trans (s.setPart_stands p)))
  cases hy : (s.part p).depHold with
  | nil => rfl
  | cons y ys =>
    have hfull : 256 ≤ (s.part p).dep.length := h.resolve_left (by simp [hy])
    exact if_neg (Nat.not_lt.mpr hfull)

/-- Settles O49, clause by clause. That the head advances also past an entry whose read or answer faults is the model's choice (log entry 85). -/
theorem launchAndDispatch : Obligations.LaunchAndDispatch := by
  refine ⟨fun s p q v => ⟨launchDoorbell_heard, launchDoorbell_unheard⟩,
    fun s p q hr hs hq => ⟨fun r h => ?_, fun e x h hx => ⟨fun u hw => ?_, fun r hw => ?_⟩⟩,
    fun s p q => launchEntryRead_idle, fun s p q e => State.launchEntry_misaligned,
    fun s p q e bs r l n ha hroom hb hr hn hpos hmax => ?_,
    fun s h => next_of (State.dispatch_early h),
    fun s h => ⟨fun x hx => next_of (State.dispatch_credited h hx), fun hx => ⟨fun hnone => ?_, fun ⟨p, hp, ho⟩ => ?_⟩⟩,
    fun s p id => rfl, fun s p => ⟨fun y ys => dependenceUnitEnter_enters, dependenceUnitEnter_stands⟩⟩
  · rw [launchEntryRead_turn hr hs hq, State.entryServed_unread h]
  · subst hx
    rw [launchEntryRead_turn hr hs hq, State.entryServed_answered h hw]
  · subst hx
    rw [launchEntryRead_turn hr hs hq, State.entryServed_unanswered h hw]
  · subst hn
    exact State.launchEntry_accepts ha hroom hb hr hpos hmax
  · refine next_of (State.dispatch_idle h hx ?_)
    exact List.any_eq_false.mpr fun p hp => by rw [hnone p hp]; exact Bool.false_ne_true
  · refine next_of ((State.dispatch_refilled h hx ?_).trans ?_)
    · exact List.any_eq_true.mpr ⟨p, hp, Option.isSome_iff_ne_none.mpr ho⟩
    · cases s.creditsFilled.nextDispatch <;> rfl

end Sys2Proof.Machine
end

section
/-! SUPPORT. Pre-emption: the action taken on a team, its save and its restore (O50). -/

namespace Sys2Proof.Machine

/-! ### The action taken on a team (R286) -/

/-- A task that may restart and has issued less than a quarter of its estimate. -/
def State.restartable (s : State) (t : Team) : Prop :=
  ((s.taskOf t).record.vers || (s.taskOf t).record.idem) = true ∧ (s.taskOf t).record.beats ≠ 0 ∧ 4 * t.beats < (s.taskOf t).record.beats * 1024
/-- A task within the drain limit of its estimate. -/
def State.nearEnd (s : State) (t : Team) : Prop :=
  (s.taskOf t).record.beats ≠ 0 ∧ (s.taskOf t).record.beats * 1024 ≤ t.beats + ((s.part t.part).reg 0x851 0).toNat * 1024
theorem State.preemption_flush {s : State} {t : Team} (h : s.restartable t) : s.preemption t = .flush := by
  obtain ⟨hrec, hbeats, hfew⟩ := h
  exact if_pos (by simp [hrec, hbeats, hfew])
theorem State.preemption_not_flush {s : State} {t : Team} (h : ¬ s.restartable t) : s.preemption t =
    if (s.taskOf t).record.beats != 0 && decide ((s.taskOf t).record.beats * 1024 ≤ t.beats + ((s.part t.part).reg 0x851 0).toNat * 1024) then .drain
    else .save :=
  if_neg fun hc => h (by simpa [State.restartable, and_assoc] using hc)
theorem State.preemption_drain {s : State} {t : Team} (h : ¬ s.restartable t) (hd : s.nearEnd t) : s.preemption t = .drain :=
  (State.preemption_not_flush h).trans (if_pos (by simpa [State.nearEnd] using hd))
theorem State.preemption_save {s : State} {t : Team} (h : ¬ s.restartable t) (hd : ¬ s.nearEnd t) : s.preemption t = .save :=
  (State.preemption_not_flush h).trans (if_neg fun hc => hd (by simpa [State.nearEnd] using hc))

section
variable {s : State} {id : Nat} {t : Team} {w : Bool} (ht : s.team? id = some t) (hp : t.preempt = false) (hf : t.flushing = false)
include ht hp hf
theorem State.preemptTeam_flush (ha : s.preemption t = .flush) : s.preemptTeam id w =
    ({ s with teams := s.teams.map fun x => if ((s.restartTeams t).map (·.id)).contains x.id then { x with flushing := true } else x } : State).restartFlushed := by
  simp only [State.preemptTeam, ht, hp, hf, ha]; rfl
theorem State.preemptTeam_drain (ha : s.preemption t = .drain) : s.preemptTeam id w = s.setTeam id fun t => { t with draining := true } := by
  simp only [State.preemptTeam, ht, hp, hf, ha]; rfl
theorem State.preemptTeam_save (ha : s.preemption t = .save) : s.preemptTeam id w = if w || (s.part t.part).canSave then s.askSave t else s := by
  simp only [State.preemptTeam, ht, hp, hf, ha]; rfl
end
theorem drainOverrun_found {s : State} {id : Nat} {t : Team} (ht : s.team? id = some t) :
    exec (.drainOverrun id) s = .next (if s.overrun t then s.askSave t else s) := by
  refine next_of ?_
  simp only [ht]

/-! ### Save (R287) -/

/-- Draining a write buffer performs accesses to memory and nothing else. -/
theorem State.drainAll_reaches (s : State) (id : Nat) : Reaches (fun _ => True) s (s.drainAll id) :=
  (State.drainAll_within fun _ _ _ _ => trivial).1
theorem Reaches.allGroups {W : Place → Prop} {s t : State} (h : Reaches W s t) : t.allGroups = s.allGroups := by
  have hg : t.groups = s.groups := (congrArg State.groups h.rest : t.fabric.groups = s.fabric.groups)
  rw [State.allGroups, State.allGroups, h.me, hg]
theorem Reaches.roster {W : Place → Prop} {s t : State} (h : Reaches W s t) :
    t.teams.map (fun t => (t.id, t.part, t.task)) = s.teams.map (fun t => (t.id, t.part, t.task)) := by
  have hr : t.teams.map Team.registers = s.teams.map Team.registers := congrArg State.teams h.rest
  simpa [Team.registers, Function.comp_def] using congrArg (List.map fun t => (t.id, t.part, t.task)) hr
theorem State.saveTeam_gone (s : State) (t : Team) : (s.saveTeam t).team? t.id = none := by
  refine List.find?_eq_none.mpr fun x hx => ?_
  have hne : (x.id != t.id) = true := (List.mem_filter.mp hx).2
  simpa using hne
theorem State.saveTeam_groupless (s : State) (t : Team) : ∀ g ∈ (s.saveTeam t).groups, g.team ≠ t.id := by
  intro g hg
  have hne : (g.team != t.id) = true := (List.mem_filter.mp hg).2
  simpa using hne
/-- What is saved of a team names it, and holds all its groups: neither the drain of its buffer nor the withdrawal of what it waits for changes them. -/
theorem State.saveTeam_kept {s : State} {t : Team} (ht : s.team? t.id = some t) : ∃ v ∈ (s.saveTeam t).saved,
    v.team.id = t.id ∧ v.team.part = t.part ∧ v.team.task = t.task ∧ v.groups.length = (s.allGroups.filter (·.team == t.id)).length := by
  have hd := s.drainAll_reaches t.id
  obtain ⟨hid, hpart, htask⟩ := roster_team ((withdrawIf_roster _ _).trans hd.roster) ht
  refine ⟨_, List.mem_append_right _ (List.mem_singleton.mpr rfl), hid, hpart, htask, ?_⟩
  rw [List.length_map, hd.allGroups]
theorem teamSave_ready {s : State} {id : Nat} {t : Team} (ht : s.team? id = some t) (h : s.saveReady t = true) :
    exec (.teamSave id) s = .next ((if ((s.saveTeams t).foldl State.saveTeam s).stacked t then t.tiles.foldl State.resetChannel ((s.saveTeams t).foldl State.saveTeam s)
      else (s.saveTeams t).foldl State.saveTeam s).captureSlots t.part) := by
  refine next_of ?_
  simp only [ht, h]; rfl
theorem teamSave_unready {s : State} {id : Nat} {t : Team} (ht : s.team? id = some t) (h : s.saveReady t = false) : exec (.teamSave id) s = .next s := by
  refine next_of ?_
  simp only [ht, h]; rfl

/-! ### Restore (R288) -/

theorem teamRestore_ready {s : State} {id : Nat} {v : Saved} (hv : s.saved.find? (·.team.id == id) = some v) (h : s.restoreReady v = true) :
    exec (.teamRestore id) s = .next ((s.savedWith v).foldl
      (fun u x => u.restoreTeam x ((s.restorePlaces v).getD (Config.choice s.free % (s.restorePlaces v).length) [])) (s.reboard v.team.part)) := by
  refine next_of ?_
  simp only [hv, h]; rfl
theorem teamRestore_unready {s : State} {id : Nat} {v : Saved} (hv : s.saved.find? (·.team.id == id) = some v) (h : s.restoreReady v = false) :
    exec (.teamRestore id) s = .next s := by
  refine next_of ?_
  simp only [hv, h]; rfl
theorem readmit_seats (s : State) (tile : Nat) (x : Group × Nat) : (s.readmit tile x).teams.map (fun t => (t.id, t.tile)) = s.teams.map (fun t => (t.id, t.tile))
    ∧ (s.readmit tile x).saved.map (fun v => v.team.id) = s.saved.map (fun v => v.team.id) := by
  refine ⟨(List.map_map ..).trans (List.map_congr_left fun t _ => ?_), rfl⟩
  simp only [Function.comp]
  split <;> rfl
theorem setChannel_seats (s : State) (tile : Nat) (f : Channel → Channel) : (s.setChannel tile f).teams.map (fun t => (t.id, t.tile)) = s.teams.map (fun t => (t.id, t.tile))
    ∧ (s.setChannel tile f).saved.map (fun v => v.team.id) = s.saved.map (fun v => v.team.id) := ⟨rfl, rfl⟩
/-- The team stands on its core as soon as it is placed; admitting its groups, settling L1 shares and filling its channels move no team. -/
theorem State.restoreTeam_seated (s : State) (v : Saved) (ts : List Nat) :
    (∃ x ∈ (s.restoreTeam v ts).teams, x.id = v.team.id ∧ x.tile = v.tileIn ts) ∧ ∀ x ∈ (s.restoreTeam v ts).saved, x.team.id ≠ v.team.id := by
  refine seated_fold _ (fun s _ => setChannel_seats s _ _) _ _ ?_
  refine seated_map _ _ (fun _ => ⟨rfl, rfl⟩) ?_
  refine seated_fold _ settleShare_seats _ _ ?_
  refine seated_fold _ (fun s x => readmit_seats s _ x) _ _ ⟨⟨_, List.mem_append_right _ (List.mem_singleton.mpr rfl), rfl, rfl⟩, fun x hx => ?_⟩
  have hne : (x.team.id != v.team.id) = true := (List.mem_filter.mp hx).2
  simpa using hne
theorem State.restorePlaces_single {s : State} {v : List Nat} {k : Saved} (hv : v ∈ s.restorePlaces k)
    (hc : ((s.taskOf k.team).record.clus && (s.taskOf k.team).record.stack) = false) : ∃ tile, v = [tile] ∧ s.readmits k tile = true := by
  unfold State.restorePlaces at hv
  simp only [hc] at hv
  obtain ⟨tile, htile, rfl⟩ := List.mem_map.mp hv
  exact ⟨tile, rfl, (List.mem_filter.mp htile).2⟩
theorem State.restorePlaces_stacked {s : State} {v : List Nat} {k : Saved} (hv : v ∈ s.restorePlaces k)
    (hc : ((s.taskOf k.team).record.clus && (s.taskOf k.team).record.stack) = true) : ∀ x ∈ s.savedWith k, s.readmits x (v.getD x.team.member 0) = true := by
  unfold State.restorePlaces at hv
  simp only [hc, if_true] at hv
  have hall := (Bool.and_eq_true_iff.mp (List.mem_filter.mp hv).2).2
  exact List.all_eq_true.mp hall

/-- Settles O50, clause by clause. That a flushed task restarts whole when it is versioned, else by the cluster (log entry 80), that an eviction is over
when the slots are captured (log entry 83), and which admissible core a restored team gets (log entry 3) are the model's choices. -/
theorem preemption : Obligations.Preemption := by
  refine ⟨fun s t r goal hr hg => ?_, fun s id t w ht hp hf => ⟨State.preemptTeam_flush ht hp hf, State.preemptTeam_drain ht hp hf, fun ha hw => ?_, fun ha hw hn => ?_⟩,
    fun s p => ⟨fun h => next_of (if_pos h), fun h => next_of (if_neg (Bool.eq_false_iff.mp h))⟩,
    fun s id t ht => ⟨fun h => ?_, fun h => ?_⟩,
    fun s id t u ht => ⟨fun h hu => hu ▸ teamSave_ready ht h, teamSave_unready ht⟩,
    fun s t ht => ⟨s.saveTeam_gone t, s.saveTeam_groupless t, State.saveTeam_kept ht⟩,
    fun s id v hv => ⟨teamRestore_ready hv, teamRestore_unready hv⟩,
    State.restoreTeam_seated, fun s v k hv hc => State.restorePlaces_single hv (by rw [hc]; rfl), fun s v k => State.restorePlaces_stacked,
    fun s p => ⟨fun h => next_of (if_neg h), fun h => next_of (if_pos h)⟩⟩
  · subst hr hg
    exact ⟨State.preemption_flush, fun h hb hd => State.preemption_drain h ⟨hb, hd⟩, State.preemption_save⟩
  · exact (State.preemptTeam_save ht hp hf ha).trans (if_pos (Bool.or_eq_true_iff.mpr hw))
  · exact (State.preemptTeam_save ht hp hf ha).trans (if_neg (by simp [hw, hn]))
  · exact (drainOverrun_found ht).trans (next_of (if_pos h))
  · exact (drainOverrun_found ht).trans (next_of (if_neg (Bool.eq_false_iff.mp h)))

end Sys2Proof.Machine
end

section
/-! SUPPORT. The entries of a command chain and the end of a job (O55). -/

namespace Sys2Proof.Machine

/-! ### The entries of a chain (R356 to R362) -/

/-- The chain of a partition goes on at an entry that it can read: `d` and `u` are the chain and the state once the entry counts (R356). -/
structure EntryRead (s : State) (e p : Nat) (c : Chain) (bs : List Byte) (d : Chain) (u : State) : Prop where
  head : s.readingChain e p = some c
  pos : c.pos = .reading
  entry : s.nextEntry c = .ok bs
  chain : d = { c with read := c.read + 1 }
  state : u = s.setChain e c fun x => { x with read := x.read + 1 }

section
variable {s u : State} {e p k : Nat} {c d : Chain} {bs : List Byte} {f : Chain → List Byte → State → State}

theorem EntryRead.walk (h : EntryRead s e p c bs d u) (hk : byteAt bs 0 = k) : s.walk e p k f = f d bs u :=
  walk_ok h.head h.pos h.entry h.chain h.state hk
theorem EntryRead.walk_other (h : EntryRead s e p c bs d u) (hk : byteAt bs 0 ≠ k) : s.walk e p k f = s :=
  Machine.walk_other h.head h.pos h.entry hk

theorem chainJob_legal (h : EntryRead s e p c bs d u) (hk : byteAt bs 0 = 1) (hl : jobLegal e bs = true) :
    exec (.chainJob e p) s = .next ((u.setPart p fun q => q.enterDep
      { job := some (c.team, c.future), reads := (jobRegions bs).1, writes := (jobRegions bs).2 }).setChain e d fun x =>
      { x with pos := .entered (u.part p).depNum, op := byteAt bs 1, param := BitVec.ofNat 64 (natAt bs 8 8) }) := by
  obtain rfl := h.chain
  exact next_of ((h.walk hk).trans (if_pos hl))
theorem chainJob_illegal (h : EntryRead s e p c bs d u) (hk : byteAt bs 0 = 1) (hl : jobLegal e bs = false) :
    exec (.chainJob e p) s = .next (u.resolveChain e d .faulted wordEntry) :=
  next_of ((h.walk hk).trans (if_neg (Bool.eq_false_iff.mp hl)))

theorem chainLoop_illegal (h : EntryRead s e p c bs d u) (hk : byteAt bs 0 = 2) (hl : (loopLegal bs && d.loop.isNone) = false) :
    exec (.chainLoop e p) s = .next (u.resolveChain e d .faulted wordEntry) :=
  next_of ((h.walk hk).trans (if_neg (Bool.eq_false_iff.mp hl)))
theorem chainLoop_unread {x : Word × State} (h : EntryRead s e p c bs d u) (hk : byteAt bs 0 = 2) (hl : (loopLegal bs && d.loop.isNone) = true)
    (hb : u.readBody d (c.ptr.toNat + 128) (byteAt bs 1) = .error x) : exec (.chainLoop e p) s = .next (x.2.resolveChain e d .faulted x.1) := by
  refine next_of ((h.walk hk).trans ((if_pos hl).trans ?_))
  obtain rfl := h.chain
  simp only [entrySize, hb]
theorem chainLoop_body {body : List (List Byte)} (h : EntryRead s e p c bs d u) (hk : byteAt bs 0 = 2) (hl : (loopLegal bs && d.loop.isNone) = true)
    (hb : u.readBody d (c.ptr.toNat + 128) (byteAt bs 1) = .ok body) : exec (.chainLoop e p) s = .next (u.setChain e d fun x =>
      if natAt bs 4 4 = 0 then { x with ptr := c.ptr + BitVec.ofNat 64 (128 * (byteAt bs 1 + 1)) }
      else { x with loop := some { body := body, patches := loopPatches bs, reps := natAt bs 4 4, after := c.ptr + BitVec.ofNat 64 (128 * (byteAt bs 1 + 1)) } }) := by
  refine next_of ((h.walk hk).trans ((if_pos hl).trans ?_))
  obtain rfl := h.chain
  simp only [entrySize, hb]

theorem chainCond_illegal (h : EntryRead s e p c bs d u) (hk : byteAt bs 0 = 3) (hl : condLegal d bs = false) :
    exec (.chainCond e p) s = .next (u.resolveChain e d .faulted wordEntry) :=
  next_of ((h.walk hk).trans (if_neg (Bool.eq_false_iff.mp hl)))
/-- R360: the word that a COND tests is a word of memory, the last job's status or its word. -/
theorem chainCond_tested {x : Word} {b : List Byte} (h : EntryRead s e p c bs d u) (hk : byteAt bs 0 = 3) (hl : condLegal d bs = true)
    (hx : byteAt bs 2 = 0 ∧ u.engineRead d (natAt bs 8 8) 4 = .ok b ∧ x = BitVec.ofNat 32 (leNat b)
      ∨ byteAt bs 2 = 1 ∧ x = BitVec.ofNat 32 c.lastStatus ∨ byteAt bs 2 = 2 ∧ x = c.lastWord) :
    exec (.chainCond e p) s = .next (u.setChain e d fun y => y.advance
      (if condTest (byteAt bs 3) (x &&& BitVec.ofNat 32 (natAt bs 20 4)) (BitVec.ofNat 32 (natAt bs 16 4)) then 1 else 1 + byteAt bs 1)) := by
  refine next_of ((h.walk hk).trans ((if_pos hl).trans ?_))
  obtain rfl := h.chain
  obtain ⟨hsrc, hb, rfl⟩ | ⟨hsrc, rfl⟩ | ⟨hsrc, rfl⟩ := hx
  · simp only [hsrc, hb, Except.map]
  · simp only [hsrc]
  · simp only [hsrc]
theorem chainCond_unread {x : Word × State} (h : EntryRead s e p c bs d u) (hk : byteAt bs 0 = 3) (hl : condLegal d bs = true) (hsrc : byteAt bs 2 = 0)
    (hb : u.engineRead d (natAt bs 8 8) 4 = .error x) : exec (.chainCond e p) s = .next (x.2.resolveChain e d .faulted x.1) := by
  refine next_of ((h.walk hk).trans ((if_pos hl).trans ?_))
  simp only [hsrc, hb, Except.map]

theorem chainLink_legal (h : EntryRead s e p c bs d u) (hk : byteAt bs 0 = 4)
    (hl : (zeroAt bs 1 7 && zeroAt bs 16 112 && natAt bs 8 8 % 128 == 0 && u.entryInside d (natAt bs 8 8)) = true) :
    exec (.chainLink e p) s = .next (u.setChain e d fun x => { x with ptr := BitVec.ofNat 64 (natAt bs 8 8) }) :=
  next_of ((h.walk hk).trans (if_pos hl))
theorem chainLink_illegal (h : EntryRead s e p c bs d u) (hk : byteAt bs 0 = 4)
    (hl : (zeroAt bs 1 7 && zeroAt bs 16 112 && natAt bs 8 8 % 128 == 0 && u.entryInside d (natAt bs 8 8)) = false) :
    exec (.chainLink e p) s = .next (u.resolveChain e d .faulted wordEntry) :=
  next_of ((h.walk hk).trans (if_neg (Bool.eq_false_iff.mp hl)))

/-- Where no chain goes on at an entry that can be read, none of the kinds of entry acts. -/
theorem walk_stalled {i : Instr} (h : s.readingChain e p = none
      ∨ ∃ c, s.readingChain e p = some c ∧ (c.pos = .faulted ∨ ∃ x, c.pos = .reading ∧ s.nextEntry c = .error x))
    (hi : i ∈ [Instr.chainJob e p, .chainLoop e p, .chainCond e p, .chainLink e p]) : exec i s = .next s := by
  simp only [List.mem_cons, List.not_mem_nil, or_false] at hi
  obtain rfl | rfl | rfl | rfl := hi <;> exact next_of (walk_none h)

/-! ### The end of a chain (R361, R362) -/

theorem chainEnd_none (h : s.readingChain e p = none) : exec (.chainEnd e p) s = .next s := by
  refine next_of ?_
  rw [h]
theorem chainEnd_faulted (h : s.readingChain e p = some c) (hpos : c.pos = .faulted) :
    exec (.chainEnd e p) s = .next (s.resolveChain e c .faulted c.lastWord) := by
  refine next_of ?_
  rw [h]
  exact if_pos hpos
theorem chainEnd_unread {x : Word × State} (h : s.readingChain e p = some c) (hpos : c.pos = .reading) (hx : s.nextEntry c = .error x) :
    exec (.chainEnd e p) s = .next (x.2.resolveChain e c .faulted x.1) := by
  refine next_of ?_
  rw [h]
  simp only [hpos, hx, reduceCtorEq, if_false]
/-- An END entry resolves the future DONE with the last word, or OVERFLOW with that of the first overflow. -/
theorem chainEnd_resolves (h : EntryRead s e p c bs d u) (hk : byteAt bs 0 = 0) (hz : zeroAt bs 1 127 = true) :
    exec (.chainEnd e p) s = .next (s.resolveChain e c (if c.overflow.isSome then .overflow else .done) ((c.overflow.map (·.1)).getD c.lastWord)) := by
  refine next_of ?_
  rw [h.head]
  simp only [h.pos, h.entry, hk, hz, reduceCtorEq, if_false, if_true]
  cases c.overflow <;> rfl
theorem chainEnd_illegal (h : EntryRead s e p c bs d u) (hk : 5 ≤ byteAt bs 0 ∨ byteAt bs 0 = 0 ∧ zeroAt bs 1 127 = false) :
    exec (.chainEnd e p) s = .next (s.resolveChain e c .faulted wordEntry) := by
  refine next_of ?_
  rw [h.head]
  obtain hk | ⟨hk, hz⟩ := hk
  · simp only [h.pos, h.entry, hk, show byteAt bs 0 ≠ 0 by omega, reduceCtorEq, if_false, if_true, State.illFormed]
  · simp only [h.pos, h.entry, hk, hz, reduceCtorEq, Bool.false_eq_true, if_false, if_true, State.illFormed]
theorem chainEnd_other (h : EntryRead s e p c bs d u) (hk : byteAt bs 0 ∈ [1, 2, 3, 4]) : exec (.chainEnd e p) s = .next s := by
  have hr : byteAt bs 0 ≠ 0 ∧ ¬ 5 ≤ byteAt bs 0 := by
    simp only [List.mem_cons, List.not_mem_nil, or_false] at hk
    omega
  refine next_of ?_
  rw [h.head]
  simp only [h.pos, h.entry, hr, reduceCtorEq, if_false]

/-- R362: past the limit no entry is read. -/
theorem nextEntry_limit (h : 1048575 ≤ c.read) : s.nextEntry c = .error (wordLimit, s) := if_pos (by omega)

end

/-! ### The completion of a job (R272, R362, R421) -/

/-- The job's writes have been performed and its submission has left the dependence unit. -/
def State.jobLeft (s : State) (e : Nat) (c : Chain) (n : Nat) : State :=
  ((s.engineStore c c.out).setChain e c fun x => { x with out := [] }).leaveUnit c.part n
/-- The future of a chain notes the number of the job that did not end OK (R363). -/
def State.badJob (s : State) (c : Chain) : State :=
  s.setTeam c.team fun t => t.setFuture c.future fun f => { f with firstBad := if 65534 < c.jobs then 0xFFFF else c.jobs }

section
variable {s : State} {e n : Nat} {c : Chain}

theorem jobComplete_none (h : (s.engines[e]?.getD {}).chains.find? Chain.busy = none) : exec (.engineJobComplete e) s = .next s := by
  refine next_of ?_
  rw [h]
variable (h : (s.engines[e]?.getD {}).chains.find? Chain.busy = some c) (hpos : c.pos = .running n)
include h hpos
theorem jobComplete_cancelled (hc : c.cancel = true) : exec (.engineJobComplete e) s =
    .next ((if c.stale then (s.jobLeft e c n).countStale (some c.part) 1 else s.jobLeft e c n).dropChain e c) := by
  refine next_of ?_
  rw [h]
  simp only [hpos, hc, if_true]
  rfl
theorem jobComplete_ok (hc : c.cancel = false) (hs : c.lastStatus = 0) :
    exec (.engineJobComplete e) s = .next ((s.jobLeft e c n).setChain e c fun x => x.advance 1) := by
  refine next_of ?_
  rw [h]
  simp only [hpos, hc, hs, Bool.false_eq_true, if_false]
  rfl
theorem jobComplete_overflow (hc : c.cancel = false) (hs : c.lastStatus = 1) : exec (.engineJobComplete e) s =
    .next ((if c.overflow.isNone then (s.jobLeft e c n).badJob c else s.jobLeft e c n).setChain e c fun x =>
      { x with overflow := x.overflow.orElse fun _ => some (c.lastWord, c.jobs) }.advance 1) := by
  refine next_of ?_
  rw [h]
  simp only [hpos, hc, hs, Bool.false_eq_true, if_false]
  rfl
theorem jobComplete_faulted (hc : c.cancel = false) (hs : c.lastStatus = 2) : exec (.engineJobComplete e) s =
    .next (if ((s.jobLeft e c n).badJob c).frozen c.part then ((s.jobLeft e c n).badJob c).setChain e c fun x => { x with pos := .faulted }
      else ((s.jobLeft e c n).badJob c).resolveChain e c .faulted c.lastWord) := by
  refine next_of ?_
  rw [h]
  simp only [hpos, hc, hs, Bool.false_eq_true, if_false]
  rfl
end

/-- Settles O55, clause by clause. That a cancelled chain runs on to its job's end (log entry 56), that a job's last writes are performed as it completes
(log entry 57), that a LOOP's body is read and checked also for a count of 0 (log entry 58) and the code of an uncorrectable word (log entry 59) are the
model's choices. -/
theorem chainEntries : Obligations.ChainEntries := by
  refine ⟨fun s u e p c d bs hr hpos hn hd hu => ?_, fun s e p c x => chainEnd_unread, fun s e p c => chainEnd_faulted, fun s e p i h => ?_,
    fun s c => nextEntry_limit, fun s u e c n bad h hpos hu hb => ?_, fun s e => jobComplete_none⟩
  · have h : EntryRead s e p c bs d u := ⟨hr, hpos, hn, hd, hu⟩
    refine ⟨chainJob_legal h, chainJob_illegal h, chainLoop_illegal h, fun hk hl => ⟨fun x => chainLoop_unread h hk hl, ?_⟩, chainCond_illegal h,
      fun x b => chainCond_tested h, fun x => chainCond_unread h, chainLink_legal h, chainLink_illegal h, fun hk hz ho => ?_, fun o hk hz ho => ?_,
      chainEnd_illegal h, fun hk => next_of (h.walk_other hk), fun hk => next_of (h.walk_other hk), fun hk => next_of (h.walk_other hk),
      fun hk => next_of (h.walk_other hk), chainEnd_other h⟩
    · rintro body after hb rfl
      exact chainLoop_body h hk hl hb
    · simpa [ho] using chainEnd_resolves h hk hz
    · simpa [ho] using chainEnd_resolves h hk hz
  · obtain ⟨h, hi⟩ | ⟨c, h, hc, hi⟩ := h
    · obtain hi | hi := List.mem_append.mp (show i ∈ [Instr.chainJob e p, .chainLoop e p, .chainCond e p, .chainLink e p] ++ [.chainEnd e p] from hi)
      · exact walk_stalled (.inl h) hi
      · exact List.mem_singleton.mp hi ▸ chainEnd_none h
    · exact walk_stalled (.inr ⟨c, h, hc⟩) hi
  · subst hu hb
    exact ⟨jobComplete_cancelled h hpos, jobComplete_ok h hpos, jobComplete_overflow h hpos, jobComplete_faulted h hpos⟩

end Sys2Proof.Machine
end

section
/-! SUPPORT. The jobs of the engines (O56). -/

namespace Sys2Proof.Machine

/-! ### A job whose parameter block is not legal (R362) -/

section
variable {j : Job} {param va size n : Nat} {b : List Byte} {legal : List Byte → Bool}

/-- The job that its parameter block ends FAULTED. -/
def Job.refused (j : Job) : Job := { j with ended := some (2, wordBlock) }
/-- A job that has ended reads no record. -/
theorem records_ended (h : j.ended.isSome = true) : (j.records va size n).2 = j := by
  unfold Job.records
  refine List.foldlRecOn (motive := fun (r : List (List Byte) × Job) => r.2 = j) _ _ rfl fun r hr k _ => ?_
  simp only [hr, read_ended h]

/-- A parameter block that is read and not legal. -/
structure BlockRefused (j : Job) (param size : Nat) (legal : List Byte → Bool) (b : List Byte) : Prop where
  running : j.ended = none
  block : j.s.engineTake j.c param size = .ok b
  illegal : legal b = false

theorem BlockRefused.read (h : BlockRefused j param size legal b) : j.read param size = (b, j) := read_ok h.running h.block
theorem BlockRefused.check (h : BlockRefused j param size legal b) : j.check (legal b) wordBlock = j.refused := by
  rw [h.illegal, check_bad h.running, Job.refused]
/-- A job that goes on only where its block's check has passed does nothing else. -/
theorem BlockRefused.ends {rest : Job} (h : BlockRefused j param size legal b) :
    (if ((j.read param size).2.check (legal (j.read param size).1) wordBlock).ended.isSome then
      (j.read param size).2.check (legal (j.read param size).1) wordBlock else rest) = j.refused := by
  rw [h.read, h.check]
  exact if_pos rfl

theorem voxelJob_refused (h : BlockRefused j param 64 voxelLegal b) : voxelJob param j = j.refused := h.ends
theorem coordJob_refused (h : BlockRefused j param 32 (fun b => addrOk (natAt b 0 8) 4 && decide (1 ≤ natAt b 8 4) && decide (natAt b 8 4 ≤ 0x10000)
      && decide (1 ≤ natAt b 12 2) && decide (natAt b 12 2 ≤ 12) && zeroAt b 14 2 && decide (1 ≤ natAt b 16 2) && decide (1 ≤ natAt b 18 2) && natAt b 20 4 % 128 == 0
      && decide (128 + 3 * coordL (natAt b 8 4) (natAt b 12 2) ≤ natAt b 20 4) && addrOk (natAt b 24 8) 128) b) : coordJob param j = j.refused := h.ends
theorem compressJob_refused (h : BlockRefused j param 64 convLegal b) : compressJob param j = j.refused := h.ends
theorem collisionJob_refused {swept : Bool} {ask : List Byte → Job → Query × Job} (h : BlockRefused j param 48 treeLegal b) :
    collisionJob swept ask param j = j.refused := h.ends
/-- RULEBOOK checks its keys too, of which an ended job reads none. -/
theorem rulebookJob_refused (h : BlockRefused j param 64 ruleLegal b) : rulebookJob param j = j.refused := by
  have hend : j.refused.ended.isSome = true := rfl
  unfold rulebookJob
  rw [h.read]
  dsimp only
  rw [h.check, read_ended hend]
  dsimp only
  cases firstUnsorted 0 (words64 [] (ruleBlock b).nin) with
  | none => rw [check_ended hend]; rfl
  | some i => rfl
/-- An expansion checks its object's header too. -/
theorem expandJob_refused (h : BlockRefused j param 64 convLegal b) : expandJob param j = j.refused := by
  have hend : j.refused.ended.isSome = true := rfl
  unfold expandJob
  rw [h.read]
  dsimp only
  rw [h.check, read_ended hend, check_ended hend]
  rfl
/-- A step checks its records too. -/
theorem stepJob_refused (h : BlockRefused j param 48 stepLegal b) : stepJob param j = j.refused := by
  have hend : j.refused.ended.isSome = true := rfl
  unfold stepJob
  rw [h.read]
  dsimp only
  rw [h.check, records_ended hend, records_ended hend, records_ended hend, check_ended hend]
  rfl
end

/-- An operation whose step starts a job of its kind and whose job is refused with its parameter block has the form of a job. -/
theorem job_form_of_refused {mk : Nat → Instr} {mine : State → Nat → Chain → Bool} {job : Nat → Job → Job} {size : Nat} {legal : List Byte → Bool}
    (he : ∀ e s, exec (mk e) s = .next (s.startJob e (mine s e) job))
    (hj : ∀ {j : Job} {param : Nat} {b : List Byte}, BlockRefused j param size legal b → job param j = j.refused) : JobForm mk mine job size legal :=
  job_form mk mine job size legal he fun _ _ _ hn hb hl => hj ⟨hn, hb, hl⟩ ▸ ⟨rfl, rfl, rfl⟩

/-- Settles O56, one operation after another. That a job is worked out when it starts and its result is kept until it completes (log entry 57) is the
model's choice. -/
theorem engineJobs : Obligations.EngineJobs :=
  ⟨job_form_of_refused (fun _ _ => rfl) voxelJob_refused, job_form_of_refused (fun _ _ => rfl) rulebookJob_refused,
    job_form_of_refused (fun _ _ => rfl) coordJob_refused, job_form_of_refused (fun _ _ => rfl) compressJob_refused,
    job_form_of_refused (fun _ _ => rfl) expandJob_refused, job_form_of_refused (fun _ _ => rfl) collisionJob_refused,
    job_form_of_refused (fun _ _ => rfl) collisionJob_refused, job_form_of_refused (fun _ _ => rfl) collisionJob_refused,
    job_form_of_refused (fun _ _ => rfl) collisionJob_refused, job_form_of_refused (fun _ _ => rfl) stepJob_refused⟩

end Sys2Proof.Machine
end

section
/-! SUPPORT. One step keeps device memory, host memory and the shared banks in canonical form (O5). -/

namespace Sys2Proof.Machine

/-- Whatever instruction or event is performed, by the law of its meaning. -/
theorem exec_canon {s : State} (h : Can s) (i : Instr) : OutCanon (exec i s) :=
  match i with
  | .nop .. => execNop_canon h | .jmp .. => execJmp_canon h | .bra .. => execBra_canon h | .brany .. => execBrany_canon h
  | .brall .. => execBrall_canon h | .brc .. => execBrc_canon h | .jpt .. => execJpt_canon h | .call .. => execCall_canon h
  | .calli .. => execCalli_canon h | .ret .. => execRet_canon h | .loop .. => execLoop_canon h | .loopk .. => execLoopk_canon h
  | .leave .. => execLeave_canon h | .exit .. => execExit_canon h | .yield .. => execYield_canon h | .bkpt .. => execBkpt_canon h
  | .trap .. => execTrap_canon h | .trapret .. => execTrapret_canon h | .xrepl .. => execXrepl_canon h | .mode .. => execMode_canon h
  | .modef .. => execModef_canon h | .moderd .. => execModerd_canon h | .exmsv .. => execExmsv_canon h | .exmld .. => execExmld_canon h
  | .exmcmb .. => execExmcmb_canon h | .exmp .. => execExmp_canon h | .idrd .. => execIdrd_canon h | .sysrd .. => execSysrd_canon h
  | .syswr .. => execSyswr_canon h | .reln .. => execReln_canon h | .idemb .. => execIdemb_canon h | .ideme .. => execIdeme_canon h
  | .iadd .. => execIadd_canon h | .isub .. => execIsub_canon h | .imul .. => execImul_canon h | .imulh .. => execImulh_canon h
  | .imulhu .. => execImulhu_canon h | .imad .. => execImad_canon h | .idiv .. => execIdiv_canon h | .idivu .. => execIdivu_canon h
  | .irem .. => execIrem_canon h | .iremu .. => execIremu_canon h | .imin .. => execImin_canon h | .imax .. => execImax_canon h
  | .iminu .. => execIminu_canon h | .imaxu .. => execImaxu_canon h | .iabs .. => execIabs_canon h | .ineg .. => execIneg_canon h
  | .and .. => execAnd_canon h | .or .. => execOr_canon h | .xor .. => execXor_canon h | .andn .. => execAndn_canon h | .shl .. => execShl_canon h
  | .shr .. => execShr_canon h | .shra .. => execShra_canon h | .rotl .. => execRotl_canon h | .popc .. => execPopc_canon h
  | .clz .. => execClz_canon h | .brev .. => execBrev_canon h | .bfx .. => execBfx_canon h | .bfi .. => execBfi_canon h
  | .bperm .. => execBperm_canon h | .fshf .. => execFshf_canon h | .sel .. => execSel_canon h | .mov .. => execMov_canon h
  | .movi .. => execMovi_canon h | .ldcw .. => execLdcw_canon h | .movs .. => execMovs_canon h | .addi .. => execAddi_canon h
  | .muli .. => execMuli_canon h | .andi .. => execAndi_canon h | .ori .. => execOri_canon h | .xori .. => execXori_canon h
  | .shli .. => execShli_canon h | .shri .. => execShri_canon h | .shrai .. => execShrai_canon h | .aadd .. => execAadd_canon h
  | .alea .. => execAlea_canon h | .aaddi .. => execAaddi_canon h | .asub .. => execAsub_canon h | .iceq .. => execIceq_canon h
  | .icne .. => execIcne_canon h | .iclt .. => execIclt_canon h | .icle .. => execIcle_canon h | .icltu .. => execIcltu_canon h
  | .icleu .. => execIcleu_canon h | .iceqi .. => execIceqi_canon h | .iclti .. => execIclti_canon h | .pand .. => execPand_canon h
  | .por .. => execPor_canon h | .pxor .. => execPxor_canon h | .pandn .. => execPandn_canon h | .ptos .. => execPtos_canon h
  | .pfroms .. => execPfroms_canon h | .cmrd .. => execCmrd_canon h | .cmwr .. => execCmwr_canon h | .fadd .. => execFadd_canon h
  | .fsub .. => execFsub_canon h | .fmul .. => execFmul_canon h | .ffma .. => execFfma_canon h | .ffms .. => execFfms_canon h
  | .fnma .. => execFnma_canon h | .fmin .. => execFmin_canon h | .fmax .. => execFmax_canon h | .fabs .. => execFabs_canon h
  | .fneg .. => execFneg_canon h | .fceq .. => execFceq_canon h | .fcne .. => execFcne_canon h | .fclt .. => execFclt_canon h
  | .fcle .. => execFcle_canon h | .fcun .. => execFcun_canon h | .fclass .. => execFclass_canon h | .frcp .. => execFrcp_canon h
  | .frsq .. => execFrsq_canon h | .fsqrt .. => execFsqrt_canon h | .fdiv .. => execFdiv_canon h | .fexp2 .. => execFexp2_canon h
  | .flog2 .. => execFlog2_canon h | .fsin .. => execFsin_canon h | .fcos .. => execFcos_canon h | .ftanh .. => execFtanh_canon h
  | .fsig .. => execFsig_canon h | .ffrac .. => execFfrac_canon h | .frnd .. => execFrnd_canon h | .fscale .. => execFscale_canon h
  | .fcpys .. => execFcpys_canon h | .fsat .. => execFsat_canon h | .flagrd .. => execFlagrd_canon h | .fadde .. => execFadde_canon h
  | .fsube .. => execFsube_canon h | .fmule .. => execFmule_canon h | .facc .. => execFacc_canon h | .dwadd .. => execDwadd_canon h
  | .dwsub .. => execDwsub_canon h | .dwmul .. => execDwmul_canon h | .dwaddf .. => execDwaddf_canon h | .dwmulf .. => execDwmulf_canon h
  | .dwdiv .. => execDwdiv_canon h | .dwsqrt .. => execDwsqrt_canon h | .dwnorm .. => execDwnorm_canon h | .dwtof .. => execDwtof_canon h
  | .dwclt .. => execDwclt_canon h | .dwceq .. => execDwceq_canon h | .cvtff .. => execCvtff_canon h | .cvtfi .. => execCvtfi_canon h
  | .cvtif .. => execCvtif_canon h | .pack .. => execPack_canon h | .unpk .. => execUnpk_canon h | .pack8 .. => execPack8_canon h
  | .unpk8 .. => execUnpk8_canon h | .qnt4 .. => execQnt4_canon h | .rand .. => execRand_canon h | .randf .. => execRandf_canon h
  | .catsamp .. => execCatsamp_canon h | .bararv .. => execBararv_canon h | .shfl .. => execShfl_canon h | .shflx .. => execShflx_canon h
  | .shflu .. => execShflu_canon h | .shfld .. => execShfld_canon h | .bcast .. => execBcast_canon h | .voteany .. => execVoteany_canon h
  | .voteall .. => execVoteall_canon h | .ballot .. => execBallot_canon h | .scanadd .. => execScanadd_canon h | .scanfadd .. => execScanfadd_canon h
  | .redadd .. => execRedadd_canon h | .redfadd .. => execRedfadd_canon h | .redmin .. => execRedmin_canon h | .redmax .. => execRedmax_canon h
  | .redsumc .. => execRedsumc_canon h | .reddotc .. => execReddotc_canon h | .ldb .. => execLdb_canon h | .ldbs .. => execLdbs_canon h
  | .ldh .. => execLdh_canon h | .ldhs .. => execLdhs_canon h | .ldw .. => execLdw_canon h | .ldd .. => execLdd_canon h | .ldq .. => execLdq_canon h
  | .ldln .. => execLdln_canon h | .stb .. => execStb_canon h | .sth .. => execSth_canon h | .stw .. => execStw_canon h | .std .. => execStd_canon h
  | .stq .. => execStq_canon h | .pref .. => execPref_canon h | .fence .. => execFence_canon h | .cflush .. => execCflush_canon h
  | .cinv .. => execCinv_canon h | .atadd .. => execAtadd_canon h | .atmin .. => execAtmin_canon h | .atmax .. => execAtmax_canon h
  | .atand .. => execAtand_canon h | .ator .. => execAtor_canon h | .atxor .. => execAtxor_canon h | .atxchg .. => execAtxchg_canon h
  | .atcas .. => execAtcas_canon h | .atfadd .. => execAtfadd_canon h | .atpadd .. => execAtpadd_canon h | .atinc .. => execAtinc_canon h
  | .bkadd .. => execBkadd_canon h | .bkred .. => execBkred_canon h | .bkset .. => execBkset_canon h | .bkscal .. => execBkscal_canon h
  | .cpya .. => execCpya_canon h | .cpyg .. => execCpyg_canon h | .batch .. => execBatch_canon h | .waitbat .. => execWaitbat_canon h
  | .waitbatAll => execWaitbatAll_canon h | .febset .. => execFebset_canon h | .febsetPut .. => execFebsetPut_canon h
  | .febclr .. => execFebclr_canon h | .febwait .. => execFebwait_canon h | .febwe .. => execFebwe_canon h | .gang .. => execGang_canon h
  | .mma .. => execMma_canon h | .mmasp .. => execMmasp_canon h | .mmaz .. => execMmaz_canon h | .drain .. => execDrain_canon h
  | .drainReg .. => execDrainReg_canon h | .mmwait .. => execMmwait_canon h | .tld .. => execTld_canon h | .tst .. => execTst_canon h
  | .torg .. => execTorg_canon h | .tzero .. => execTzero_canon h | .tzeroAll .. => execTzeroAll_canon h | .bmcast .. => execBmcast_canon h
  | .engq .. => execEngq_canon h | .fwait .. => execFwait_canon h | .ftest .. => execFtest_canon h | .fcancel .. => execFcancel_canon h
  | .fres .. => execFres_canon h | .spawn .. => execSpawn_canon h | .cwait .. => execCwait_canon h | .cwaitTask .. => execCwaitTask_canon h
  | .cancel .. => execCancel_canon h | .qalloc .. => execQalloc_canon h | .qfree .. => execQfree_canon h | .qfreel .. => execQfreel_canon h
  | .mfill .. => execMfill_canon h | .mflush .. => execMflush_canon h | .dlarm .. => execDlarm_canon h | .dlrd .. => execDlrd_canon h
  | .ttboard .. => execTtboard_canon h | .ttalight .. => execTtalight_canon h | .ttread .. => execTtread_canon h | .ttcas .. => execTtcas_canon h
  | .ttmax .. => execTtmax_canon h | .ttadd .. => execTtadd_canon h | .ttwait .. => execTtwait_canon h | .vpush .. => execVpush_canon h
  | .vpop .. => execVpop_canon h | .vcount .. => execVcount_canon h | .mbpost .. => execMbpost_canon h | .mbtake .. => execMbtake_canon h
  | .bar .. => execBar_canon h | .barWait .. => execBarWait_canon h | .mark .. => execMark_canon h | .launchDoorbell .. => execLaunchDoorbell_canon h
  | .launchEntryRead .. => execLaunchEntryRead_canon h | .dispatch => execDispatch_canon h | .taskAgeing .. => execTaskAgeing_canon h
  | .timeSliceEnd .. => execTimeSliceEnd_canon h | .drainOverrun .. => execDrainOverrun_canon h | .teamSave .. => execTeamSave_canon h
  | .teamRestore .. => execTeamRestore_canon h | .dependenceUnitEnter .. => execDependenceUnitEnter_canon h
  | .taskComplete .. => execTaskComplete_canon h | .versionEarlyCommit .. => execVersionEarlyCommit_canon h
  | .mouldConsumerLaunch .. => execMouldConsumerLaunch_canon h | .poolEnable .. => execPoolEnable_canon h
  | .poolDisable .. => execPoolDisable_canon h | .mouldEnable .. => execMouldEnable_canon h | .mouldDisable .. => execMouldDisable_canon h
  | .deadlineExpiry .. => execDeadlineExpiry_canon h | .atctlFire .. => execAtctlFire_canon h | .dltrigRise => execDltrigRise_canon h
  | .unveilCancel .. => execUnveilCancel_canon h | .unveilCapture .. => execUnveilCapture_canon h
  | .faultQueueRecord .. => execFaultQueueRecord_canon h | .faultReplay .. => execFaultReplay_canon h | .faultDeliver .. => execFaultDeliver_canon h
  | .faultKill .. => execFaultKill_canon h | .tlbInvalidateAddress .. => execTlbInvalidateAddress_canon h
  | .tlbInvalidateAll .. => execTlbInvalidateAll_canon h | .scanCommit .. => execScanCommit_canon h | .scanDiscard .. => execScanDiscard_canon h
  | .channelReset .. => execChannelReset_canon h | .gateRequest .. => execGateRequest_canon h
  | .gatePreemptRequest .. => execGatePreemptRequest_canon h | .gateLift .. => execGateLift_canon h | .gateClose .. => execGateClose_canon h
  | .gateOpen .. => execGateOpen_canon h | .coreDisable .. => execCoreDisable_canon h | .scanRotation => execScanRotation_canon h
  | .scanComplete .. => execScanComplete_canon h | .patrolRowRead .. => execPatrolRowRead_canon h | .auditSample => execAuditSample_canon h
  | .probeSend .. => execProbeSend_canon h | .probeReceive => execProbeReceive_canon h | .reportWrite .. => execReportWrite_canon h
  | .governorInterval .. => execGovernorInterval_canon h | .samplerEnable .. => execSamplerEnable_canon h | .sample .. => execSample_canon h
  | .traceFilter .. => execTraceFilter_canon h | .haltRecordWrite .. => execHaltRecordWrite_canon h | .filterLoad .. => execFilterLoad_canon h
  | .caliperStart .. => execCaliperStart_canon h | .caliperStop .. => execCaliperStop_canon h | .caliperEnd .. => execCaliperEnd_canon h
  | .holdPath .. => execHoldPath_canon h | .releasePath .. => execReleasePath_canon h | .holdGroup .. => execHoldGroup_canon h
  | .releaseGroup .. => execReleaseGroup_canon h | .debugStep .. => execDebugStep_canon h | .holdTakesEffect .. => execHoldTakesEffect_canon h
  | .freeze .. => execFreeze_canon h | .debugPortRead .. => execDebugPortRead_canon h | .writeBufferDrain .. => execWriteBufferDrain_canon h
  | .copyComplete .. => execCopyComplete_canon h | .matrixOperation .. => execMatrixOperation_canon h
  | .turntablePerform .. => execTurntablePerform_canon h | .revolution .. => execRevolution_canon h | .fifoEntryLand .. => execFifoEntryLand_canon h
  | .permitReturn .. => execPermitReturn_canon h | .flitArrival .. => execFlitArrival_canon h | .reassemblyGrant .. => execReassemblyGrant_canon h
  | .mailboxGrant .. => execMailboxGrant_canon h | .chainJob .. => execChainJob_canon h | .chainLoop .. => execChainLoop_canon h
  | .chainCond .. => execChainCond_canon h | .chainLink .. => execChainLink_canon h | .chainEnd .. => execChainEnd_canon h
  | .engineJobComplete .. => execEngineJobComplete_canon h | .voxel .. => execVoxel_canon h | .rulebook .. => execRulebook_canon h
  | .coord .. => execCoord_canon h | .convertCompress .. => execConvertCompress_canon h | .convertExpand .. => execConvertExpand_canon h
  | .collidePoint .. => execCollidePoint_canon h | .collideSegment .. => execCollideSegment_canon h | .collideSphere .. => execCollideSphere_canon h
  | .collideSweep .. => execCollideSweep_canon h | .dynStep .. => execDynStep_canon h | .partCreate .. => execPartCreate_canon h
  | .partDestroy .. => execPartDestroy_canon h | .partStart .. => execPartStart_canon h | .partStop .. => execPartStop_canon h
  | .lockedRegisterWrite .. => execLockedRegisterWrite_canon h | .hostRegisterWrite .. => execHostRegisterWrite_canon h
  | .getVersion .. => execGetVersion_canon h | .getCapabilities .. => execGetCapabilities_canon h
  | .negotiateAlgorithms .. => execNegotiateAlgorithms_canon h | .getDigests .. => execGetDigests_canon h
  | .getCertificate .. => execGetCertificate_canon h | .spdmChallenge .. => execSpdmChallenge_canon h
  | .getMeasurements .. => execGetMeasurements_canon h | .keyExchange .. => execKeyExchange_canon h | .spdmFinish .. => execSpdmFinish_canon h
  | .spdmHeartbeat .. => execSpdmHeartbeat_canon h | .keyUpdate .. => execKeyUpdate_canon h | .endSession .. => execEndSession_canon h
  | .getTdispVersion .. => execGetTdispVersion_canon h | .getTdispCapabilities .. => execGetTdispCapabilities_canon h
  | .lockInterfaceRequest .. => execLockInterfaceRequest_canon h | .getDeviceInterfaceReport .. => execGetDeviceInterfaceReport_canon h
  | .getDeviceInterfaceState .. => execGetDeviceInterfaceState_canon h | .startInterfaceRequest .. => execStartInterfaceRequest_canon h
  | .stopInterfaceRequest .. => execStopInterfaceRequest_canon h | .keyProg .. => execKeyProg_canon h | .kSetGo .. => execKSetGo_canon h
  | .kSetStop .. => execKSetStop_canon h | .ideStreamInsecure .. => execIdeStreamInsecure_canon h
  | .boardRelayObject .. => execBoardRelayObject_canon h | .keyEstablish .. => execKeyEstablish_canon h | .keyClear .. => execKeyClear_canon h
  | .boardResponse .. => execBoardResponse_canon h | .powerOnReset .. => execPowerOnReset_canon h | .bootImageWrite .. => execBootImageWrite_canon h
  | .linkTraining .. => execLinkTraining_canon h | .perstAssert => execPerstAssert_canon h | .hotReset => execHotReset_canon h
  | .linkDown => execLinkDown_canon h | .illegalInstruction .. => execIllegalInstruction_canon h | .illFormedWord .. => execIllFormedWord_canon h
  | .fetchFault => execFetchFault_canon h | .softError .. => execSoftError_canon h | .hostAccess .. => execHostAccess_canon h
  | .eviction .. => execEviction_canon h | .doeDiscovery .. => execDoeDiscovery_canon h | .pointMoveComplete => execPointMoveComplete_canon h
theorem State.issue_canon {s : State} (h : Can s) (seq path : Nat) : OutCanon (s.issue seq path) := by
  unfold State.issue
  dsimp only
  have hready : Can ((s.checkout seq path).withMe fun g => { g with ir := (s.checkout seq path).fetch.2 }) := State.withMe_canon (State.checkout_canon h)
  split
  · exact .mk (State.tableError_canon hready)
  · exact State.issued_canon h (exec_canon (State.noteTlb_canon hready) _)
theorem State.take_canon {s : State} (h : Can s) : ∀ m : Move, OutCanon (s.take m)
  | .event i => exec_canon h i
  | .input i => exec_canon (s := { s with inputs := s.inputs.drop 1 }) h i
  | .issue seq path => State.issue_canon h seq path
  | .tick => .mk (State.tick_canon h)
/-- A halted boot goes on with its power-on reset, any other state with the move that is next. -/
theorem step_canon {s : State} (h : Can s) : OutCanon (step s) := by
  cases hs : s.halted with
  | false =>
    rw [step_takes rfl hs]
    exact State.take_canon (s := { s with free := s.free + 1 }) h _
  | true =>
    cases hi : s.inputs.dropWhile fun i => !isPowerOn i with
    | nil =>
      rw [step_stops hs hi]
      exact .stop
    | cons i is =>
      rw [step_resets rfl hs hi]
      exact exec_canon (s := { s with free := s.free + 1, inputs := is }) h i

/-- Settles O5, by the laws of the meanings, of an issue and of the passing of a cycle. -/
theorem canonicalMemory : Obligations.CanonicalMemory := fun _ t h ht => step_canon h t ht

end Sys2Proof.Machine
end

section
/-! SUPPORT. Scans, patrol, lines and copies that end, and the host's accesses (O52). -/

namespace Sys2Proof.Machine

/-! ### Scans (R424, R425, R427) -/

/-- The patterns of a scan run once no team is left on its core. -/
theorem State.scanRuns_eq {s : State} {t : Nat} (h : s.scanning = some t) : s.scanRuns = !s.teams.any fun x => x.tile == t := by
  rw [List.not_any_eq_all_not]
  unfold State.scanRuns
  rw [h]; rfl
theorem scanComplete_waits {s : State} (pass : Bool) (h : ∀ t, s.scanning = some t → (s.teams.any fun x => x.tile == t) = true) :
    exec (.scanComplete pass) s = .next s := by
  refine next_of ?_
  cases hs : s.scanning with
  | none => rfl
  | some t => exact if_pos (by rw [State.scanRuns_eq hs, h t hs]; rfl)

section
variable {s u : State} {t : Nat} (hs : s.scanning = some t) (he : (s.teams.any fun x => x.tile == t) = false)
  (hu : u = { s with scanning := none, scanNum := s.scanNum % 2 ^ 32 + 1 })
include hs he hu

theorem scanComplete_fails : exec (.scanComplete false) s = .next ((u.holdVersions t false).reportScan t 1 (s.scanNum % 2 ^ 32)) := by
  subst hu
  refine next_of ?_
  simp only [hs, State.scanRuns_eq hs, he]; rfl
theorem scanComplete_passes : exec (.scanComplete true) s =
    .next ((s.existing.foldl (fun (s : State) p => s.setPart p fun q => { q with tasks := q.tasks.map fun (k : Task) => { k with cores := drop t k.cores } })
      { u with lastPass := put t (s.scanNum % 2 ^ 32) s.lastPass }).commitScanned) := by
  subst hu
  refine next_of ?_
  simp only [hs, State.scanRuns_eq hs, he]; rfl
end

theorem State.scanAct_refused {s : State} {p : Nat} (discard : Bool) (h : (s.part p).heldVersion = none) :
    s.scanAct p discard = s.setPart p fun q => q.setReg 0x940 ((if discard then 1 else 0) ||| 0x80000000) := by
  simp only [State.scanAct, h]
theorem State.scanAct_taken {s : State} {p : Nat} {v : Version} (discard : Bool) (h : (s.part p).heldVersion = some v) :
    s.scanAct p discard = (if discard then s.discardVersion p v.task else s.commitVersion p v.num).setPart p fun q => q.setReg 0x940 (if discard then 1 else 0) := by
  simp only [State.scanAct, h]
theorem scanCommit_acts {s : State} {p : Nat} (h : (s.part p).state ≠ .none) : exec (.scanCommit p) s = .next (s.scanAct p false) := next_of (if_neg h)
theorem scanDiscard_acts {s : State} {p : Nat} (h : (s.part p).state ≠ .none) : exec (.scanDiscard p) s = .next (s.scanAct p true) := next_of (if_neg h)

/-! ### Patrol, buffered lines and copies (R428, R298) -/

theorem patrolRowRead_idle {s : State} {ch : Nat} (h : 16 ≤ ch ∨ s.patrolDue ch = false) : exec (.patrolRowRead ch) s = .next s :=
  next_of (if_pos (by simpa using h))
theorem State.drainEntry_absent {s : State} {team line : Nat} (h : (s.team team).wbuf.find? (·.line == line) = none) : s.drainEntry team line = s := by
  simp only [State.drainEntry, h]
theorem State.drainEntry_found {s : State} {team line : Nat} {e : BufLine} (h : (s.team team).wbuf.find? (·.line == line) = some e) :
    s.drainEntry team line = (runsOf e.bytes).foldl (fun u r => u.performWrite (s.teamAgent (s.team team)) (.dev r.1) r.2)
      (s.setTeam team fun t => { t with wbuf := t.wbuf.filter (·.line != line) }) := by
  simp only [State.drainEntry, h]
theorem copyComplete_found {s : State} {c : Nat} {x : Copy} (h : s.copies.find? (fun x => x.id == c && !x.waits) = some x) :
    exec (.copyComplete c) s = .next (if s.copyStalls x then s else (s.runCopy x).copiesEnded) :=
  next_of (by simp only [h])
theorem copyComplete_absent {s : State} {c : Nat} (h : s.copies.find? (fun x => x.id == c && !x.waits) = none) : exec (.copyComplete c) s = .next s :=
  next_of (by simp only [h])

/-! ### The host's accesses (R302, R341, R437) -/

theorem hostPlace_dev {a : Nat} (h : a < devTop) : hostPlace a = some (.dev a) := if_pos h
theorem State.hostByte_sealed {s : State} {a : Nat} (h : a < devTop) (hs : s.sealedPhys a = true) : s.hostByte a = 0 := by
  simp only [State.hostByte, hostPlace_dev h, h, hs, decide_true, Bool.and_self, if_true]
theorem State.hostByte_open {s : State} {a : Nat} (h : a < devTop) (hs : s.sealedPhys a = false) (hp : s.poisoned (.dev a) = false) :
    s.hostByte a = s.readByte {} (.dev a) := by
  simp only [State.hostByte, hostPlace_dev h, hs, hp, Bool.and_false, Bool.false_eq_true, if_false]

/-- The bytes of a write that may be performed keep their address and their place in it. -/
theorem State.mem_hostCells {s : State} {c : Host.Cell} {a : Nat} {bs : List Byte} (h : c ∈ s.hostCells a bs) :
    a ≤ c.1 ∧ bs[c.1 - a]? = some c.2 ∧ (devTop ≤ c.1 ∨ s.sealedPhys c.1 = false) := by
  induction bs generalizing a with
  | nil => cases h
  | cons b bs ih =>
    have later (h : c ∈ s.hostCells (a + 1) bs) : a ≤ c.1 ∧ (b :: bs)[c.1 - a]? = some c.2 ∧ (devTop ≤ c.1 ∨ s.sealedPhys c.1 = false) := by
      obtain ⟨hle, hget, hopen⟩ := ih h
      refine ⟨by omega, ?_, hopen⟩
      rw [show c.1 - a = (c.1 - (a + 1)) + 1 by omega]
      exact hget
    unfold State.hostCells at h
    split at h
    next hkept =>
      rcases List.mem_cons.mp h with rfl | h
      · refine ⟨Nat.le_refl _, by simp, ?_⟩
        by_cases hd : a < devTop
        · simp only [hd, decide_true, Bool.true_and, Bool.and_eq_true, Bool.not_eq_true'] at hkept
          exact .inr hkept.2
        · exact .inl (Nat.le_of_not_lt hd)
      · exact later h
    next => exact later h
/-- Of sealed bytes none is left to write. -/
theorem State.hostCells_sealed {s : State} {a : Nat} {bs : List Byte} (h : ∀ i < bs.length, a + i < devTop ∧ s.sealedPhys (a + i) = true) :
    s.hostCells a bs = [] := by
  refine List.eq_nil_iff_forall_not_mem.mpr fun c hc => ?_
  obtain ⟨hle, hget, hopen⟩ := State.mem_hostCells hc
  obtain ⟨hi, -⟩ := List.getElem?_eq_some_iff.mp hget
  obtain ⟨hdev, hsealed⟩ := h _ hi
  rw [show a + (c.1 - a) = c.1 by omega] at hdev hsealed
  rcases hopen with hopen | hopen
  · exact absurd hdev (Nat.not_lt.mpr hopen)
  · exact Bool.noConfusion (hsealed.symm.trans hopen)

/-- Bytes at consecutive addresses. -/
def cellsFrom : Nat → List Byte → List Host.Cell
  | _, [] => []
  | a, b :: bs => (a, b) :: cellsFrom (a + 1) bs
/-- Of bytes in device memory that are not sealed every one is left to write. -/
theorem State.hostCells_open {s : State} {a : Nat} {bs : List Byte} (h : ∀ i < bs.length, a + i < devTop ∧ s.sealedPhys (a + i) = false) :
    s.hostCells a bs = cellsFrom a bs := by
  induction bs generalizing a with
  | nil => rfl
  | cons b bs ih =>
    obtain ⟨hdev, hopen⟩ : a < devTop ∧ s.sealedPhys a = false := h 0 (Nat.succ_pos _)
    have hrest : s.hostCells (a + 1) bs = cellsFrom (a + 1) bs := ih fun i hi => by
      rw [Nat.add_assoc, Nat.add_comm 1]
      exact h (i + 1) (Nat.succ_lt_succ hi)
    unfold State.hostCells
    rw [hrest, if_pos (by rw [hostPlace_dev hdev, hopen]; simp)]
    rfl
theorem lt_of_mem_cellsFrom {c : Host.Cell} {n a : Nat} {bs : List Byte} (hn : a + bs.length ≤ n) (h : c ∈ cellsFrom a bs) : c.1 < n := by
  induction bs generalizing a with
  | nil => cases h
  | cons b bs ih =>
    rw [List.length_cons] at hn
    rcases List.mem_cons.mp h with rfl | h
    · exact (by omega : a < n)
    · exact ih (by omega) h
/-- They are one run. -/
theorem runsOf_cellsFrom {a : Nat} {bs : List Byte} (h : bs ≠ []) : runsOf (cellsFrom a bs) = [(a, bs)] := by
  induction bs generalizing a with
  | nil => exact absurd rfl h
  | cons b bs ih =>
    cases bs with
    | nil => rfl
    | cons b' bs =>
      have hrest : runsOf (cellsFrom (a + 1) (b' :: bs)) = [(a + 1, b' :: bs)] := ih (by simp)
      unfold cellsFrom runsOf
      rw [hrest]
      exact if_pos rfl

theorem hostAccess_down {s : State} (w : Bool) (a : Nat) (bs : List Byte) (h : s.linkUp = false) : exec (.hostAccess w a bs) s = .next s :=
  next_of (if_pos (by rw [h]; rfl))
theorem hostAccess_read {s : State} (a : Nat) (bs : List Byte) (h : s.linkUp = true) : exec (.hostAccess false a bs) s =
    .next { s with sent := s.sent ++ [{ kind := 0x100, bytes := (List.range bs.length).map fun k => s.hostByte (a + k) }] } :=
  next_of (if_neg (by rw [h]; decide))
theorem hostAccess_write {s : State} (a : Nat) (bs : List Byte) (h : s.linkUp = true) : exec (.hostAccess true a bs) s =
    .next ((runsOf ((s.hostCells a bs).filter fun c => c.1 < devTop) ++ runsOf ((s.hostCells a bs).filter fun c => devTop ≤ c.1)).foldl
      (fun s r => s.hostWriteRun r.1 r.2) s) :=
  next_of (if_neg (by rw [h]; decide))
theorem hostAccess_write_sealed {s : State} {a : Nat} {bs : List Byte} (h : s.linkUp = true)
    (hs : ∀ i < bs.length, a + i < devTop ∧ s.sealedPhys (a + i) = true) : exec (.hostAccess true a bs) s = .next s := by
  rw [hostAccess_write a bs h, State.hostCells_sealed hs]; rfl
/-- The write is one run in device memory, and nothing beyond it. -/
theorem hostAccess_write_open {s : State} {a : Nat} {bs : List Byte} (h : s.linkUp = true) (hne : bs ≠ [])
    (hs : ∀ i < bs.length, a + i < devTop ∧ s.sealedPhys (a + i) = false) : exec (.hostAccess true a bs) s =
    .next (s.performWrite { part := (s.existing.find? fun q => (s.part q).ownsPhys a).getD 8 } (.dev a) bs) := by
  have hpos : 0 < bs.length := List.length_pos_iff.mpr hne
  have htop : a + bs.length ≤ devTop := by
    have := (hs (bs.length - 1) (by omega)).1
    omega
  have hdev : (cellsFrom a bs).filter (fun c => c.1 < devTop) = cellsFrom a bs :=
    List.filter_eq_self.mpr fun c hc => decide_eq_true (lt_of_mem_cellsFrom htop hc)
  have hbank : (cellsFrom a bs).filter (fun c => devTop ≤ c.1) = [] :=
    List.filter_eq_nil_iff.mpr fun c hc => by simpa using lt_of_mem_cellsFrom htop hc
  rw [hostAccess_write a bs h, State.hostCells_open hs, hdev, hbank, runsOf_cellsFrom hne]
  refine next_of ?_
  show s.hostWriteRun a bs = _
  simp only [State.hostWriteRun, hostPlace_dev (Nat.lt_of_lt_of_le (Nat.lt_add_of_pos_right hpos) htop)]

/-- Settles O52, clause by clause. The rows that patrol reads are free values (log entry 30) and the numbering by which the host names the shared banks is
the model's own (log entry 118). -/
theorem scansAndPatrol : Obligations.ScansAndPatrol := by
  refine ⟨fun s u h hu => ?_, fun s h => next_of (if_pos (by rw [h]; rfl)), fun s pass => scanComplete_waits pass,
    fun s u t hs he hu => ⟨scanComplete_fails hs he hu, scanComplete_passes hs he hu⟩,
    fun s p hp => ⟨fun h => ⟨?_, ?_⟩, fun v h => ⟨?_, ?_⟩⟩, fun s m => rfl,
    fun s ch row mine bad u hch h hrow hu hmine hbad => ⟨_, rfl, ?_⟩, fun s ch => patrolRowRead_idle,
    fun s team line => ⟨fun e h => next_of (State.drainEntry_found h), fun h => next_of (State.drainEntry_absent h)⟩,
    fun s c => ⟨fun x => copyComplete_found, copyComplete_absent⟩, fun s a bs => hostAccess_read a bs,
    fun s a h => ⟨State.hostByte_sealed h, State.hostByte_open h⟩, fun s a bs => hostAccess_write_open, fun s a bs => hostAccess_write_sealed,
    fun s a bs h => ⟨hostAccess_write a bs h, fun c => State.mem_hostCells⟩, fun s w a bs => hostAccess_down w a bs⟩
  · subst hu
    exact next_of (if_neg (by rw [h]; decide))
  · exact (scanCommit_acts hp).trans (next_of (State.scanAct_refused false h))
  · exact (scanDiscard_acts hp).trans (next_of (State.scanAct_refused true h))
  · exact (scanCommit_acts hp).trans (next_of (State.scanAct_taken false h))
  · exact (scanDiscard_acts hp).trans (next_of (State.scanAct_taken true h))
  · subst hrow hu hmine hbad
    exact next_of (if_neg (by simp [hch, h]))

end Sys2Proof.Machine
end

section
/-! SUPPORT. Gates, the audit, channel resets, the wait-cycle probe, reports, the governor and the mesh (O53). -/

namespace Sys2Proof.Machine

/-! ### Gates (R384, R399, R400) -/

section
variable {s : State} {who r : Nat}

theorem gateRequest_heard (h : s.writer who = true) : exec (.gateRequest who r) s = .next (s.gateDone who (BitVec.ofNat 32 (r % 64)) (s.gateAsk who r false)) :=
  next_of (if_pos h)
theorem gatePreemptRequest_heard (h : s.writer who = true) :
    exec (.gatePreemptRequest who r) s = .next (s.gateDone who (BitVec.ofNat 32 (r % 64 + 512)) (s.gateAsk who r true)) :=
  next_of (if_pos h)
theorem gateLift_heard (h : s.writer who = true) : exec (.gateLift who r) s = .next (s.gateDone who (BitVec.ofNat 32 (r % 64 + 256)) (s.gateRaise who r)) :=
  next_of (if_pos h)
theorem gates_unheard (h : s.writer who = false) :
    exec (.gateRequest who r) s = .next s ∧ exec (.gatePreemptRequest who r) s = .next s ∧ exec (.gateLift who r) s = .next s :=
  have hn : ¬ s.writer who = true := Bool.eq_false_iff.mp h
  ⟨next_of (if_neg hn), next_of (if_neg hn), next_of (if_neg hn)⟩

theorem State.gateAsk_accepted (preempt : Bool) (ho : s.ownsRegion who r = true) (hg : (s.gate r).state = .open) (hf : s.plinthFree r = true) :
    s.gateAsk who r preempt = some (if preempt then (s.setGate r { state := .pending, preempting := preempt }).preemptRegion r
      else s.setGate r { state := .pending, preempting := preempt }) := by
  simp [State.gateAsk, ho, hg, hf]
theorem State.gateAsk_upgrade (ho : s.ownsRegion who r = true) (hg : (s.gate r).state = .pending) (hp : (s.gate r).preempting = false) :
    s.gateAsk who r true = some ((s.setGate r { s.gate r with preempting := true }).preemptRegion r) := by
  simp [State.gateAsk, ho, hg, hp]
/-- R400: a request is refused for a region of another owner, one that is not open or a plinth tile that must stay so, unless it upgrades a pending one. -/
theorem State.gateAsk_refused {preempt : Bool} (h : s.ownsRegion who r = false ∨ (s.gate r).state ≠ .open ∨ s.plinthFree r = false)
    (hup : preempt = true → s.ownsRegion who r = true → (s.gate r).state = .pending → (s.gate r).preempting = true) : s.gateAsk who r preempt = none := by
  unfold State.gateAsk
  dsimp only
  cases ho : s.ownsRegion who r with
  | false => rfl
  | true =>
    match hg : (s.gate r).state with
    | .open =>
      have hf : s.plinthFree r = false := by simpa [ho, hg] using h
      simp [hf]
    | .pending =>
      have hno : (preempt && !(s.gate r).preempting) = false := by
        cases preempt with
        | false => rfl
        | true => simp [hup rfl ho hg]
      simp [hno]
    | .closed => rfl
    | .opening => rfl

theorem State.gateRaise_pending (ho : s.ownsRegion who r = true) (hg : (s.gate r).state = .pending) : s.gateRaise who r = some (s.setGate r {}) := by
  simp [State.gateRaise, ho, hg]
theorem State.gateRaise_closed (ho : s.ownsRegion who r = true) (hg : (s.gate r).state = .closed) :
    s.gateRaise who r = some (s.setGate r { state := .opening, since := s.refs }) := by
  simp [State.gateRaise, ho, hg]
theorem State.gateRaise_opening (ho : s.ownsRegion who r = true) (hg : (s.gate r).state = .opening) : s.gateRaise who r = some s := by
  simp [State.gateRaise, ho, hg]
theorem State.gateRaise_refused (h : s.ownsRegion who r = false ∨ (s.gate r).state = .open) : s.gateRaise who r = none := by
  unfold State.gateRaise
  dsimp only
  cases ho : s.ownsRegion who r with
  | false => rfl
  | true =>
    have hg : (s.gate r).state = .open := h.resolve_left (by simp [ho])
    simp [hg]

/-- The register of a partition's write reads it back; the host's write goes by no register. -/
theorem State.gateDone_eq (s t : State) (who : Nat) (v : Word) : (who < 8 → s.gateDone who v (some t) = t.setPart who (fun q => q.setReg 0x8C8 v)
    ∧ s.gateDone who v none = s.setPart who (fun q => q.setReg 0x8C8 (v ||| 0x80000000))) ∧ s.gateDone 8 v (some t) = t ∧ s.gateDone 8 v none = s :=
  ⟨fun h => ⟨if_pos h, if_pos h⟩, rfl, rfl⟩

/-- Stopping the samplers of a region leaves its gate as it was set. -/
theorem gateClose_due (h : s.gateDue r = true) : ∃ t, exec (.gateClose r) s = .next t ∧ (t.gate r).state = .closed := by
  refine ⟨_, next_of (if_pos h), ?_⟩
  show (((regionTiles r).foldl State.smpStop (s.setGate r { s.gate r with state := .closed })).gate r).state = .closed
  rw [gates_fold, gate_set]
theorem gateOpen_due (h : (s.gate r).state = .opening) : ∃ t, exec (.gateOpen r) s = .next t ∧ (t.gate r).state = .open :=
  ⟨_, next_of (if_pos h), by rw [gate_set]⟩
end

/-! ### The audit (R395) -/

theorem auditSample_due {s : State} (h : s.auditDue = true) : exec .auditSample s = .next s.audit := next_of (if_pos h)
theorem State.audit_passes {s : State} (h : s.terms s.auditNext = none ∨ s.auditPeriod s.auditNext = 0) : s.audit = s.audited := by
  unfold State.audit
  dsimp only
  cases ht : s.terms s.auditNext with
  | none => rfl
  | some t => exact if_pos (h.resolve_left (by simp [ht]))

/-- The lost-permit report on a channel: its id, the sum, and the terms with the epoch. -/
def Terms.report (t : Terms) (id : Nat) : Report where
  kind := 1
  id := BitVec.ofNat 32 id
  a := BitVec.ofNat 32 (t.held + t.flight + t.occupied)
  b := [BitVec.ofNat 32 t.held, BitVec.ofNat 32 t.flight, BitVec.ofNat 32 t.occupied, BitVec.ofNat 32 t.epoch]
/-- What the audit does with a channel it samples: a sum that matches clears the flag, one that differs is reported where the flag is clear. -/
theorem State.audit_sampled {s : State} {t : Terms} (ht : s.terms s.auditNext = some t) (hp : s.auditPeriod s.auditNext ≠ 0) :
    s.audit = if t.held + t.flight + t.occupied = t.total then s.audited.flagChannel s.auditNext false
      else if t.flagged then s.audited
      else (match t.owner with
        | some p => s.audited.pushReport p (t.report s.auditNext)
        | none => s.audited.msi 0 1).flagChannel s.auditNext true := by
  unfold State.audit
  simp only [ht, hp, if_false]
  rfl

/-! ### Channel resets (R396) -/

section
variable {s : State} {part : Nat} {id : Word}

/-- CHRST written in a partition's view notes the number, with bit 31 where the writer may not reset the channel. -/
theorem State.chReset_none (who : Nat) (ht : s.terms id.toNat = none) :
    s.chReset who part id = s.setPart part fun q => q.setReg 0x8C6 (id ||| 0x80000000) := by
  simp only [State.chReset, ht]
theorem State.chReset_own {t : Terms} (who : Nat) (ht : s.terms id.toNat = some t) (ho : t.owner = some part ∨ (t.owner = none ∧ who = 8)) :
    s.chReset who part id = (s.resetChan id.toNat).setPart part fun q => q.setReg 0x8C6 id := by
  simp only [State.chReset, ht]
  exact if_pos (by simpa using ho)
theorem State.chReset_refused {t : Terms} (ht : s.terms id.toNat = some t) (hp : part < 8) (ho : t.owner ≠ some part) :
    s.chReset part part id = s.setPart part fun q => q.setReg 0x8C6 (id ||| 0x80000000) := by
  simp only [State.chReset, ht]
  exact if_neg (by simp [ho, Nat.ne_of_lt hp])

theorem channelReset_part (hp : part < 8) (hs : (s.part part).state ≠ .none) : exec (.channelReset part id) s = .next (s.chReset part part id) :=
  next_of ((if_pos hp).trans (if_neg hs))
theorem channelReset_host {t : Terms} (ht : s.terms id.toNat = some t) : exec (.channelReset 8 id) s = .next (s.chReset 8 (t.owner.getD 0) id) :=
  next_of (by simp only [ht]; rfl)
theorem channelReset_host_none (ht : s.terms id.toNat = none) : exec (.channelReset 8 id) s = .next s :=
  next_of (by simp only [ht]; rfl)
end

theorem State.setChannel_channel (s : State) (tile : Nat) (f : Channel → Channel) : (s.setChannel tile f).channel tile = f (s.channel tile) := lookD_put_same ..
/-- The id of a vertical channel: its class is 2, and the rest is its tile. -/
theorem State.resetChan_vertical {s : State} {tile : Nat} (h : tile < 96) :
    s.resetChan (2 * 2 ^ 28 + tile) = (s.resetChannel tile).setChannel tile fun c => { c with flagged := false } := by
  have hclass : (2 * 2 ^ 28 + tile) / 2 ^ 28 = 2 := by omega
  have hrest : (2 * 2 ^ 28 + tile) % 2 ^ 28 = tile := by omega
  simp only [State.resetChan, State.flagChannel, hclass, hrest]
theorem State.resetChan_channel {s : State} {tile : Nat} (h : tile < 96) : (s.resetChan (2 * 2 ^ 28 + tile)).channel tile =
    { epoch := (s.channel tile).epoch + 1, stale := (s.channel tile).stale + (s.channel tile).link.length, staleBack := (s.channel tile).staleBack + (s.channel tile).back } := by
  rw [State.resetChan_vertical h, State.setChannel_channel, State.resetChannel, State.setChannel_channel]

/-! ### The wait-cycle probe (R397) -/

section
variable {s : State} {seq : Nat} {g : Group} (hg : s.group? seq = some g)
include hg

theorem probeSend_due {u : State} {n : Nat} (hn : g.entries.find? (fun n => s.probeDue g n) = some n)
    (hu : u = s.setGroup seq (fun y => y.setPath n fun p => { p with probedAt := some s.now })) :
    exec (.probeSend seq) s = .next ({ u with probeNum := u.probeNum + 1 }.spread seq u.probeNum [] (.group seq)) := by
  subst hu
  exact next_of (by simp only [hg, hn])
theorem probeSend_early (hn : g.entries.find? (fun n => s.probeDue g n) = none) : exec (.probeSend seq) s = .next s :=
  next_of (by simp only [hg, hn])
end

theorem probeReceive_first {s : State} {x : Probe} {xs : List Probe} (h : s.probes = x :: xs) :
    exec .probeReceive s = .next ((({ s with probes := xs } : State).probeAt x).probeDone x.num) :=
  next_of (by simp only [h]; rfl)
theorem probeReceive_none {s : State} (h : s.probes = []) : exec .probeReceive s = .next s :=
  next_of (by simp only [h])

section
variable {u : State} {x : Probe}

theorem State.probeAt_initiator {g : Group} (hx : x.at_ = .group x.initiator) (hg : u.group? x.initiator = some g) :
    u.probeAt x = u.pushReport g.part { kind := 2, len := min x.path.length 16, id := u.unitId x.at_, a := x.path.getD 1 0, b := (x.path.drop 2).take 4 } := by
  simp only [State.probeAt, hx, hg, if_true]
theorem State.probeAt_stopped {seq : Nat} (hx : x.at_ = .stopped seq) :
    u.probeAt x = { u with probeAnswers := u.probeAnswers ++ [(x.initiator, u.unitId x.at_)] } := by
  simp only [State.probeAt, hx]
theorem State.probeAt_held {seq : Nat} {g : Group} (hx : x.at_ = .group seq) (hne : seq ≠ x.initiator) (hg : u.group? seq = some g) (hk : g.stopKind ≠ 1) :
    u.probeAt x = { u with probeAnswers := u.probeAnswers ++ [(x.initiator, u.unitId x.at_)] } := by
  unfold State.probeAt
  simp only [hx, hg]
  rw [if_neg hne]
  exact if_pos (by simpa using hk)
/-- A waiting group has no held path and no parked one. -/
theorem State.stopKind_of_unitWaits {seq : Nat} (h : u.unitWaits (.group seq) = true) : ((u.group? seq).map Group.stopKind).getD 1 = 1 := by
  unfold State.unitWaits at h
  cases hg : u.group? seq with
  | none => rfl
  | some g =>
    simp only [hg, Bool.and_eq_true, beq_iff_eq] at h
    exact h.1
theorem State.probeAt_waiting (hne : x.at_ ≠ .group x.initiator) (hw : u.unitWaits x.at_ = true) :
    u.probeAt x = if u.probeSeen.contains (x.num, x.at_) then u else u.spread x.initiator x.num x.path x.at_ := by
  unfold State.probeAt
  cases hx : x.at_ with
  | group seq =>
    rw [hx] at hne hw
    have hseq : seq ≠ x.initiator := fun e => hne (congrArg ProbeUnit.group e)
    simp [hseq, State.stopKind_of_unitWaits hw, hw]
  | stopped seq =>
    rw [hx] at hw
    exact absurd hw Bool.false_ne_true
  | chain e team future =>
    rw [hx] at hw
    simp only [hw, Bool.not_true, Bool.or_false]
end

/-! ### Reports (R398) -/

section
variable {s : State} {p : Nat} {r : Report} {rs : List Report} {q : Word} {a : Nat} (hr : (s.part p).reports = r :: rs) (hroom : (s.part p).reportRoom = true)
  (hq : q = (s.part p).reg 0x8C4 0) (ha : a = (s.part p).reg2 0x8C1 + 32 * (q.toNat % 2 ^ bits ((s.part p).reg 0x8C3 6) 0 5))
include hr hroom hq ha

theorem reportWrite_written {u : State} (hw : (s.setPart p fun x => { x with reports := rs }).atelierWrite p a (r.bytes q.toNat) = .ok u) :
    exec (.reportWrite p) s = .next ((u.setPart p fun x => x.setReg 0x8C4 (q + 1)).msi (p + 1) 2) := by
  subst hq ha
  exact next_of (by simp only [State.writeReport, hr, hroom, hw, Bool.not_true, Bool.false_eq_true, if_false])
theorem reportWrite_faults {e : Refuse} (hw : (s.setPart p fun x => { x with reports := rs }).atelierWrite p a (r.bytes q.toNat) = .error e) :
    exec (.reportWrite p) s = .next ((s.setPart p fun x => { x with reports := rs }).atelierFault p e true) := by
  subst hq ha
  exact next_of (by simp only [State.writeReport, hr, hroom, hw, Bool.not_true, Bool.false_eq_true, if_false])
end

theorem reportWrite_waits {s : State} {p : Nat} (h : (s.part p).reports = [] ∨ (s.part p).reportRoom = false) : exec (.reportWrite p) s = .next s := by
  refine next_of ?_
  unfold State.writeReport
  dsimp only
  cases hr : (s.part p).reports with
  | nil => rfl
  | cons r rs =>
    have hroom : (s.part p).reportRoom = false := h.resolve_left (by simp [hr])
    exact if_pos (by rw [hroom]; rfl)

/-! ### The governor (R402) -/

section
variable {w : Power} {p : Nat} (now : Nat) (hm : w.moving = none)
include hm

/-- Above the limit no interval counts towards a step up. -/
theorem Power.interval_above (hp : w.limit < p) : w.interval p now =
    if 8 < w.fstep then { w with measured := p, low := 0, lastAt := now, fstep := w.fstep - 1 }
    else if 0 < w.point then ({ w with measured := p, low := 0, lastAt := now } : Power).move (w.point - 1) now
    else { w with measured := p, low := 0, lastAt := now, overload := satAdd w.overload 1 } := by
  have hlow : ¬ p + 16 ≤ w.limit := by omega
  simp [Power.interval, hm, hp, hlow]
/-- At least 2 W (16 eighths) below the limit the interval counts; the step up comes with the 64th. -/
theorem Power.interval_ready (hp : p + 16 ≤ w.limit) (hl : 63 ≤ w.low) (hf : w.fstep < 16) : (w.interval p now).fstep = w.fstep + 1 := by
  have habove : ¬ w.limit < p := by omega
  have hcount : 64 ≤ min (w.low + 1) 64 := by omega
  simp [Power.interval, hm, hp, habove, hcount, hf]
theorem Power.interval_counts (hp : p + 16 ≤ w.limit) (hl : w.low < 63) : (w.interval p now).fstep = w.fstep ∧ (w.interval p now).low = w.low + 1 := by
  have habove : ¬ w.limit < p := by omega
  have hcount : min (w.low + 1) 64 = w.low + 1 := by omega
  have hearly : ¬ 64 ≤ w.low + 1 := by omega
  simp [Power.interval, hm, hp, habove, hcount, hearly]
end

/-! ### The mesh (R389, R390, R391) -/

/-- The state in which a router is about to place its arrivals: they are taken from the links, and the router has had its turn. -/
def State.turnOf (s : State) (r : Nat) : State := { s with routed := r :: s.routed, flits := s.flits.filter fun f => !(f.at_ == r && !f.moved) }
/-- The arrivals of a router in the order of R389. -/
def State.inOrder (s : State) (r : Nat) : List Flit := (s.arrivals r).foldr (fun f l => s.insertFlit f l) []
/-- A router's turn: its arrivals are placed, what leaves stands on the links, and a local flit may follow. -/
def State.handled (s : State) (r : Nat) : State :=
  let x := State.placeFlits r (s.inOrder r) [] 0 [] (s.turnOf r)
  ({ x.2.2 with flits := x.2.2.flits ++ x.1 }).injectAt r x.2.1

theorem State.insertFlit_routed (s : State) (rs : List Nat) (f : Flit) (l : List Flit) : ({ s with routed := rs } : State).insertFlit f l = s.insertFlit f l := by
  induction l with
  | nil => rfl
  | cons g gs ih => unfold State.insertFlit; rw [ih]; rfl
theorem flitArrival_turn {s : State} {r : Nat} (hr : r < 96) (h : s.routed.contains r = false) : exec (.flitArrival r) s = .next (s.handled r) := by
  refine next_of ((if_neg (by rw [h]; simp [hr])).trans ?_)
  simp only [State.insertFlit_routed]
  rfl
theorem flitArrival_idle {s : State} {r : Nat} (h : 96 ≤ r ∨ s.routed.contains r = true) : exec (.flitArrival r) s = .next s :=
  next_of (if_pos (by simpa using h))

/-- R389, R390: a router's turn delivers at most two packets and moves no flit but its own arrivals. -/
theorem State.handled_keeps (s : State) (r : Nat) : (s.handled r).routed = r :: s.routed ∧ (s.handled r).delivered.length ≤ s.delivered.length + 2
    ∧ ∀ f ∈ s.flits, (f.at_ ≠ r ∨ f.moved = true) → f ∈ (s.handled r).flits := by
  obtain ⟨hflits, hrouted, hdelivered⟩ := placeFlits_keeps r (s.inOrder r) [] 0 [] (s.turnOf r) (by omega)
  unfold State.handled
  obtain ⟨irouted, idelivered, iflits⟩ := injectAt_keeps _ r _
  refine ⟨irouted.trans hrouted, ?_, fun f hf hr => iflits f (List.mem_append_left _ ?_)⟩
  · rw [idelivered]; exact hdelivered
  · rw [hflits]
    refine List.mem_filter.mpr ⟨hf, ?_⟩
    rcases hr with hat | hmoved
    · rw [beq_false_of_ne hat]; rfl
    · rw [hmoved, Bool.not_true, Bool.and_false]; rfl

section
variable {s : State} {r : Nat} {f : Flit}

theorem State.inOrder_single (h : s.arrivals r = [f]) : s.inOrder r = [f] := by
  rw [State.inOrder, h]; rfl
/-- With no local flit waiting, a lone arrival makes the router's whole turn. -/
theorem State.handled_single (h : s.arrivals r = [f]) {out : List Flit} {used : List Nat} {t : State}
    (hx : State.placeFlits r [f] [] 0 [] (s.turnOf r) = (out, used, t)) (ht : t.inject = []) : s.handled r = { t with flits := t.flits ++ out } := by
  unfold State.handled
  simp only [State.inOrder_single h, hx]
  exact injectAt_none r used ht
/-- The first flit of the mesh is first among fewer. -/
theorem State.firstFlit_turnOf (h : s.firstFlit [] f = true) : (s.turnOf r).firstFlit [] f = true := by
  unfold State.firstFlit at h ⊢
  rw [List.append_nil, List.all_eq_true] at h ⊢
  exact fun g hg => h g (List.mem_filter.mp hg).1

theorem State.eject_packet (s : State) (hsize : f.size ≤ 1) (hres : f.reserve = false) : s.eject f = { s with delivered := s.delivered ++ [(f.dst, f.packet)] } := by
  have hshort : ¬ 1 < f.size := Nat.not_lt.mpr hsize
  simp only [State.eject, hres, hshort, hsize, decide_false, Bool.or_self, Bool.false_and, Bool.false_eq_true, if_false, if_true]
theorem State.placeFlits_ejects {u : State} (hd : routerOf f.dst = r)
    (hroom : u.firstFlit [] f = true ∨ Config.choice (u.free + f.packet) % 2 = 0) : State.placeFlits r [f] [] 0 [] u = ([], [], u.eject f) := by
  unfold State.placeFlits
  refine (if_pos ?_).trans rfl
  rcases hroom with h | h <;> simp [hd, h]
theorem State.placeFlits_forwards {u : State} {p k : Nat} (hd : routerOf f.dst ≠ r) (hp : (towards r (routerOf f.dst)).find? (fun p => (portTile r p).isSome) = some p)
    (hk : portTile r p = some k) : State.placeFlits r [f] [] 0 [] u = ([{ f with at_ := k, moved := true }], [p], u) := by
  unfold State.placeFlits
  simp [hd, hp, hk, State.placeFlits]

theorem flitArrival_delivers (hr : r < 96) (h : s.routed.contains r = false) (ha : s.arrivals r = [f]) (hi : s.inject = []) (hd : routerOf f.dst = r) (hsize : f.size ≤ 1)
    (hres : f.reserve = false) (hroom : s.firstFlit [] f = true ∨ Config.choice (s.free + f.packet) % 2 = 0) :
    ∃ t, exec (.flitArrival r) s = .next t ∧ t.delivered = s.delivered ++ [(f.dst, f.packet)] ∧ t.flits = s.flits.filter fun f => !(f.at_ == r && !f.moved) := by
  have hplace := State.placeFlits_ejects (u := s.turnOf r) hd (hroom.imp_left State.firstFlit_turnOf)
  rw [State.eject_packet _ hsize hres] at hplace
  exact ⟨_, (flitArrival_turn hr h).trans (next_of (State.handled_single ha hplace hi)), rfl, List.append_nil _⟩
theorem flitArrival_forwards {p k : Nat} (hr : r < 96) (h : s.routed.contains r = false) (ha : s.arrivals r = [f]) (hi : s.inject = []) (hd : routerOf f.dst ≠ r)
    (hp : (towards r (routerOf f.dst)).find? (fun p => (portTile r p).isSome) = some p) (hk : portTile r p = some k) :
    ∃ t, exec (.flitArrival r) s = .next t ∧ t.delivered = s.delivered
      ∧ t.flits = (s.flits.filter fun f => !(f.at_ == r && !f.moved)) ++ [{ f with at_ := k, moved := true }] :=
  ⟨_, (flitArrival_turn hr h).trans (next_of (State.handled_single ha (State.placeFlits_forwards hd hp hk) hi)), rfl, rfl⟩
end

/-- R391: the next source in turn after the last one granted is granted, and no other. -/
theorem reassemblyGrant_grants {s : State} {rx : Nat} {r : Receiver} (hr : r = lookD s.receivers rx {}) (h : r.mayGrant = true) :
    ∃ x ∈ r.reservations, leastBy (fun x => (x + 127 - r.lastGranted) % 128) r.reservations = some x ∧ exec (.reassemblyGrant rx) s =
      .next { s with receivers := put rx { r with reservations := r.reservations.filter (· != x), granted := r.granted ++ [x], lastGranted := x } s.receivers } := by
  subst hr
  have hne : (lookD s.receivers rx {}).reservations ≠ [] := by
    have := h
    simp only [Receiver.mayGrant, Bool.and_eq_true, bne_iff_ne] at this
    exact this.1
  obtain ⟨x, hx, hleast⟩ := leastBy_mem (fun x => (x + 127 - (lookD s.receivers rx {}).lastGranted) % 128) _ hne
  exact ⟨x, hx, hleast, next_of ((if_neg (by rw [h]; decide)).trans (by simp only [hleast]))⟩
theorem reassemblyGrant_idle {s : State} {rx : Nat} (h : (lookD s.receivers rx {}).mayGrant = false) : exec (.reassemblyGrant rx) s = .next s :=
  next_of (if_pos (by rw [h]; rfl))

/-- Settles O53, clause by clause. What becomes of a probe's answer (`probeAnswers`, log entry 147) and whether a unit takes the packet it is offered
(`Config.choice`, log entries 3 and 107) are the model's choices. -/
theorem stackAndMesh : Obligations.StackAndMesh := by
  refine ⟨fun s who r hw => ⟨fun ho hg hf => ⟨?_, ?_⟩, fun ho hg hp => ?_, fun h => ⟨?_, fun hup => ?_⟩, fun ho => ⟨fun hg => ?_, fun hg => ?_, fun hg => ?_⟩, fun h => ?_⟩,
    fun s who r => gates_unheard, State.gateDone_eq, fun s r => ⟨gateClose_due, fun h => next_of (if_neg (Bool.eq_false_iff.mp h))⟩,
    fun s r => ⟨gateOpen_due, fun h => next_of (if_neg h)⟩, fun s h => next_of (if_neg (Bool.eq_false_iff.mp h)),
    fun s hdue h => (auditSample_due hdue).trans (next_of (State.audit_passes h)),
    fun s t hdue ht hp => ⟨fun heq => ?_, fun hne => ⟨fun hf => ?_, fun hf b hb => ?_⟩⟩,
    fun s p id t hp hs ht => ?_, fun s id t ht => ?_, fun s p id ht => ⟨channelReset_host_none ht, fun hp hs => ?_⟩, fun s tile c h hc => ?_,
    fun s seq g hg => ⟨fun n u => probeSend_due hg, probeSend_early hg⟩, fun s x xs u hx hu => ⟨fun g ha hg => ?_, fun seq g ha hne hg hk => ?_, fun seq ha => ?_, fun hne hwait => ?_⟩,
    fun s => probeReceive_none, fun s p r rs q a hr hroom hq ha => ⟨fun u => reportWrite_written hr hroom hq ha, fun e => reportWrite_faults hr hroom hq ha⟩,
    fun s p => reportWrite_waits,
    fun s p => ⟨fun h => next_of (if_pos h), fun h => next_of (if_neg (Bool.eq_false_iff.mp h))⟩,
    fun w p now hm => ⟨fun hp hf => ?_, fun hp hf hpt => ?_, fun hp hf hpt => ?_, Power.interval_ready now hm, Power.interval_counts now hm⟩,
    fun s => rfl, fun s r hr h => ⟨_, flitArrival_turn hr h, State.handled_keeps s r⟩, fun s r => flitArrival_idle,
    fun s r f hr h ha hi => ⟨flitArrival_delivers hr h ha hi, fun p k => flitArrival_forwards hr h ha hi⟩,
    fun s rx r hr => ⟨fun h => reassemblyGrant_idle (hr ▸ h), reassemblyGrant_grants hr⟩⟩
  -- requests and lifts
  · rw [gateRequest_heard hw, State.gateAsk_accepted false ho hg hf]; rfl
  · rw [gatePreemptRequest_heard hw, State.gateAsk_accepted true ho hg hf]; rfl
  · rw [gatePreemptRequest_heard hw, State.gateAsk_upgrade ho hg hp]
  · rw [gateRequest_heard hw, State.gateAsk_refused h (fun e => absurd e Bool.false_ne_true)]
  · rw [gatePreemptRequest_heard hw, State.gateAsk_refused h fun _ => hup]
  · rw [gateLift_heard hw, State.gateRaise_pending ho hg]
  · rw [gateLift_heard hw, State.gateRaise_closed ho hg]
  · rw [gateLift_heard hw, State.gateRaise_opening ho hg]
  · rw [gateLift_heard hw, State.gateRaise_refused h]
  -- the audit's sample
  · rw [auditSample_due hdue, State.audit_sampled ht hp, if_pos heq]
  · rw [auditSample_due hdue, State.audit_sampled ht hp, if_neg hne, if_pos hf]
  · subst hb
    rw [auditSample_due hdue, State.audit_sampled ht hp, if_neg hne, if_neg (Bool.eq_false_iff.mp hf)]; rfl
  -- resets
  · rw [channelReset_part hp hs]
    split
    next ho => rw [State.chReset_own p ht (.inl ho)]
    next ho => rw [State.chReset_refused ht hp ho]
  · rw [channelReset_host ht, State.chReset_own 8 ht]
    cases t.owner with
    | none => exact .inr ⟨rfl, rfl⟩
    | some p => exact .inl rfl
  · rw [channelReset_part hp hs, State.chReset_none p ht]
  · subst hc
    exact State.resetChan_channel h
  -- a probe that arrives
  · subst hu
    rw [probeReceive_first hx, State.probeAt_initiator (u := { s with probes := xs }) ha hg]
  · subst hu
    rw [probeReceive_first hx, State.probeAt_held (u := { s with probes := xs }) ha hne hg hk]
  · subst hu
    rw [probeReceive_first hx, State.probeAt_stopped (u := { s with probes := xs }) ha]
  · subst hu
    rw [probeReceive_first hx, State.probeAt_waiting (u := { s with probes := xs }) hne hwait]
  -- the governor above the limit
  · rw [Power.interval_above now hm hp, if_pos hf]
    exact ⟨rfl, rfl⟩
  · rw [Power.interval_above now hm hp, if_neg (Nat.not_lt.mpr hf), if_pos hpt]
    exact ⟨rfl, rfl⟩
  · rw [Power.interval_above now hm hp, if_neg (Nat.not_lt.mpr hf), if_neg (by omega)]

end Sys2Proof.Machine
end

section
/-! SUPPORT. The sampler, the trace core and its filters, Caliper trials and holding paths (O54). -/

namespace Sys2Proof.Machine

/-! ### The sampler (R404, R408) -/

section
variable {s : State} {who tile : Nat} {v : Word}

/-- What R408 refuses in a write of SMPCTL: a reserved bit, and an enable without a quad or without a ring. -/
def State.smpRefuses (s : State) (tile : Nat) (v : Word) : Prop :=
  bits v 26 6 ≠ 0 ∨ (bit v 0 = true ∧ (bits v 2 4 = 0 ∨ (s.coreReg tile 0x8E2 0 = 0 ∧ s.coreReg tile 0x8E3 0 = 0)))

theorem word_toNat_zero (x : Word) : x.toNat = 0 ↔ x = 0 := BitVec.toNat_inj (y := 0)
theorem State.smpControl_refused (h : s.smpRefuses tile v) : s.smpControl who tile v = none :=
  if_pos (by simpa [State.smpRefuses, word_toNat_zero] using h)
/-- A write that is taken reads back. -/
theorem State.smpControl_taken (who : Nat) (h : ¬ s.smpRefuses tile v) : ∃ t, s.smpControl who tile v = some t ∧ t.coreReg tile 0x8E0 0 = v :=
  ⟨_, if_neg (by simpa [State.smpRefuses, word_toNat_zero] using h), lookD_put_same ..⟩

theorem samplerEnable_refused (ht : tile < 96) (h : s.smpRefuses tile v) : exec (.samplerEnable who tile v) s = .next (s.turnedAway who) :=
  next_of ((if_pos ht).trans (by rw [State.smpControl_refused h]; rfl))
theorem samplerEnable_taken (ht : tile < 96) (h : ¬ s.smpRefuses tile v) :
    ∃ t, exec (.samplerEnable who tile v) s = .next t ∧ s.smpControl who tile v = some t ∧ t.coreReg tile 0x8E0 0 = v := by
  obtain ⟨t, hc, hv⟩ := State.smpControl_taken who h
  exact ⟨t, next_of ((if_pos ht).trans (by rw [hc]; rfl)), hc, hv⟩
end

/-! ### Records of the trace core (R412, R413) -/

section
variable {s : State} {p : Nat} {r : TraceRec} {rs : List TraceRec}

theorem traceFilter_idle (h : (s.part p).filterDue = false) : exec (.traceFilter p) s = .next s := by
  refine next_of ?_
  unfold State.traceFilter
  simp only [h, Bool.not_false, if_true]
  split <;> rfl

section
variable {x : Bool × State} (hr : (s.part p).traceIn = r :: rs) (hd : (s.part p).filterDue = true)
  (hx : x = State.runFilter p r (s.part p).filter.length 0 (s.setPart p fun q => { q with traceIn := rs }))
include hr hd hx

/-- What becomes of the oldest record is what the filter answers and, for one that it accepts, what the ring allows. -/
theorem traceFilter_due : exec (.traceFilter p) s = .next (if !x.1 then x.2
    else if (s.part p).reg2 0x903 = 0 || !(s.part p).traceRoom then x.2.setPart p fun q => q.traceDrop false
    else x.2.traceWrite p r) := by
  subst hx
  refine next_of ?_
  unfold State.traceFilter
  simp only [hr]
  exact if_neg (by rw [hd]; decide)
theorem traceFilter_rejects (h : x.1 = false) : exec (.traceFilter p) s = .next x.2 := by
  rw [traceFilter_due hr hd hx, h]; rfl
theorem traceFilter_writes (h : x.1 = true) (hb : (s.part p).reg2 0x903 ≠ 0) (hroom : (s.part p).traceRoom = true) :
    exec (.traceFilter p) s = .next (x.2.traceWrite p r) := by
  rw [traceFilter_due hr hd hx, h, hroom, if_neg (by decide), if_neg (by simpa using hb)]
theorem traceFilter_loses (h : x.1 = true) (hno : (s.part p).reg2 0x903 = 0 ∨ (s.part p).traceRoom = false) :
    exec (.traceFilter p) s = .next (x.2.setPart p fun q => q.traceDrop false) := by
  rw [traceFilter_due hr hd hx, h, if_neg (by decide), if_pos (by simpa using hno)]
end

/-- Where the trace ring takes its next record. -/
def Partition.traceSlot (q : Partition) : Nat := q.reg2 0x903 + 32 * ((q.reg 0x906 0).toNat % 2 ^ bits (q.reg 0x905 4) 0 5)

theorem haltRecordWrite_none (h : (s.part p).halts = []) : exec (.haltRecordWrite p) s = .next s :=
  next_of (by unfold State.haltWritten; simp only [h]; rfl)

section
variable {u v : State} {e : Refuse} (hr : (s.part p).halts = r :: rs) (hu : u = s.setPart p fun q => { q with halts := rs })
include hr

theorem haltRecordWrite_full (hb : (s.part p).reg2 0x903 ≠ 0) (hroom : (s.part p).traceRoom = false) : exec (.haltRecordWrite p) s = .next s :=
  next_of (by unfold State.haltWritten; simp only [hr, hb, hroom, if_false, Bool.not_false, if_true]; rfl)
include hu
theorem haltRecordWrite_loses (hb : (s.part p).reg2 0x903 = 0) : exec (.haltRecordWrite p) s = .next (u.setPart p fun q => q.traceDrop false) := by
  subst hu
  exact next_of (by unfold State.haltWritten; simp only [hr, hb, if_true]; rfl)
/-- A halt record for which the ring has room leaves with its write, and waits where that faults. -/
theorem State.haltWritten_room (hb : (s.part p).reg2 0x903 ≠ 0) (hroom : (s.part p).traceRoom = true) :
    s.haltWritten p = (u.atelierWrite p (s.part p).traceSlot r.bytes).toOption.map fun v => v.setPart p fun q => q.setReg 0x906 ((s.part p).reg 0x906 0 + 1) := by
  subst hu
  unfold State.haltWritten
  simp only [hr, hb, hroom, if_false, Bool.not_true, Bool.false_eq_true]
  unfold Partition.traceSlot
  split
  next h => rw [h]; rfl
  next h => rw [h]; rfl
theorem haltRecordWrite_written (hb : (s.part p).reg2 0x903 ≠ 0) (hroom : (s.part p).traceRoom = true)
    (hw : u.atelierWrite p (s.part p).traceSlot r.bytes = .ok v) :
    exec (.haltRecordWrite p) s = .next (v.setPart p fun q => q.setReg 0x906 ((s.part p).reg 0x906 0 + 1)) :=
  next_of (by rw [State.haltWritten_room hr hu hb hroom, hw]; rfl)
theorem haltRecordWrite_waits (hb : (s.part p).reg2 0x903 ≠ 0) (hroom : (s.part p).traceRoom = true)
    (hw : u.atelierWrite p (s.part p).traceSlot r.bytes = .error e) : exec (.haltRecordWrite p) s = .next s :=
  next_of (by rw [State.haltWritten_room hr hu hb hroom, hw]; rfl)
end
end

/-! ### Loading a filter (R415, R437) -/

section
variable {s : State} {who p n : Nat} {v : Word}

/-- A write that no lock keeps from its writer is performed. -/
theorem State.unlessLocked_heard (t : State) (h : who ≠ 8 ∨ (s.part p).isLocked n = false) : s.unlessLocked who p n t = t :=
  if_neg (by simpa [← imp_iff_not_or] using h)
theorem State.unlessLocked_locked (t : State) (h : (s.part p).isLocked n = true) : s.unlessLocked 8 p n t = s.toError p :=
  if_pos (by rw [h]; rfl)

/-- What R415 refuses in a write of TFCTL. -/
def filterRefused (v : Word) : Prop := bit v 31 = true ∨ bit v 1 = true ∨ bits v 15 16 ≠ 0 ∨ bits v 2 6 ≠ 0
/-- A partition whose trace core runs a filter that has just been loaded. -/
def Partition.filterOn (q : Partition) (who : Nat) (v : Word) (f : List FilterInst) : Partition :=
  { q.setReg 0x902 (BitVec.ofNat 32 (bits v 8 7 * 2 ^ 8 + (if who = 8 then 2 else 0) + 1)) with
    filter := f, filterHost := decide (who = 8), fregs := Vector.replicate 8 0 }

theorem filterRefused_iff : (bit v 31 || bit v 1 || decide (bits v 15 16 ≠ 0) || decide (bits v 2 6 ≠ 0)) = true ↔ filterRefused v := by
  simp [filterRefused, or_assoc]

theorem State.loadFilter_refused (who : Nat) (h : filterRefused v) : s.loadFilter who p v = none := if_pos (filterRefused_iff.mpr h)

section
variable (who : Nat) (hv : ¬ filterRefused v)
include hv

theorem State.loadFilter_disables (h0 : bit v 0 = false) : s.loadFilter who p v = some (s.setPart p fun q => q.filterOff who false v) :=
  (if_neg (mt filterRefused_iff.mp hv)).trans (if_pos (by rw [h0]; rfl))
theorem State.loadFilter_long (h0 : bit v 0 = true) (hl : 64 ≤ bits v 8 7) : s.loadFilter who p v = some (s.setPart p fun q => q.filterOff who true v) :=
  (if_neg (mt filterRefused_iff.mp hv)).trans ((if_neg (by rw [h0]; decide)).trans (if_pos (Nat.lt_succ_of_le hl)))

/-- An enabling write of a length that a filter may have turns on what it can read. -/
theorem State.loadFilter_reads (h0 : bit v 0 = true) (hl : bits v 8 7 < 64) : s.loadFilter who p v =
    some (s.setPart p fun q => match (s.atelierRead p ((s.part p).reg2 0x900) (8 * (bits v 8 7 + 1))).toOption.bind (parseFilter (bits v 8 7 + 1)) with
      | none => q.filterOff who true v
      | some f => q.filterOn who v f) := by
  refine (if_neg (mt filterRefused_iff.mp hv)).trans ((if_neg (by rw [h0]; decide)).trans ((if_neg (Nat.not_lt.mpr hl)).trans ?_))
  split
  next hr => rw [hr]; rfl
  next bs hr =>
    rw [hr, Except.toOption, Option.bind_some]
    cases parseFilter (bits v 8 7 + 1) bs with
    | none => rfl
    | some f => simp only [decide_eq_true_eq]; rfl
end

/-- A write of TFCTL that its writer may make of a partition that is there (R415, R437). -/
theorem filterLoad_heard (hs : (s.part p).state ≠ .none) (hw : who ≠ 8 ∨ (s.part p).isLocked 0x902 = false) :
    exec (.filterLoad who p v) s = .next ((s.loadFilter who p v).getD (s.turnedAway who)) :=
  next_of ((if_neg hs).trans (State.unlessLocked_heard _ hw))
theorem filterLoad_locked (hs : (s.part p).state ≠ .none) (h : (s.part p).isLocked 0x902 = true) : exec (.filterLoad 8 p v) s = .next (s.toError p) :=
  next_of ((if_neg hs).trans (State.unlessLocked_locked _ h))
end

/-! ### Caliper trials (R417, R418) -/

section
variable {s : State} {p : Nat}

/-- A partition with the counts of its trial cleared. -/
def Partition.countsCleared (q : Partition) : Partition := (List.range 8).foldl (fun (q : Partition) n => q.setReg (0x928 + n) 0) q

theorem Partition.countsCleared_count (q : Partition) {n : Nat} (h : n < 8) : q.countsCleared.reg (0x928 + n) 0 = 0 :=
  (fold_reg ..).trans (if_pos ⟨n, List.mem_range.mpr h, rfl⟩)
theorem Partition.countsCleared_below (q : Partition) {k : Nat} (h : k < 0x928) : q.countsCleared.reg k 0 = q.reg k 0 :=
  (fold_reg ..).trans (if_neg (by rintro ⟨n, _, rfl⟩; omega))
theorem Partition.countsCleared_pair (q : Partition) {k : Nat} (h : k + 1 < 0x928) : q.countsCleared.reg2 k = q.reg2 k := by
  unfold Partition.reg2
  rw [Partition.countsCleared_below q (by omega), Partition.countsCleared_below q h]

theorem Partition.reg_withTrial (q : Partition) (t : Option Trial) (n : Nat) (d : Word) : ({ q with trial := t } : Partition).reg n d = q.reg n d := rfl
/-- A trial that starts clears the counts, sets ACTIVE, and keeps the range that its registers give now. -/
theorem State.startTrial_part (hp : p < 8) (ht : (s.part p).trial = none) : ∃ x : Trial, (s.startTrial p).part p = { (s.part p).countsCleared.setReg 0x91E 1 with trial := some x }
    ∧ x.lo = BitVec.ofNat 64 ((s.part p).reg2 0x918) ∧ x.hi = BitVec.ofNat 64 ((s.part p).reg2 0x91A) ∧ x.from_ = s.now + 1 := by
  refine ⟨_, (State.setPart_part _ hp).trans (if_neg (by rw [ht]; decide)), ?_, ?_, rfl⟩
  · exact congrArg (BitVec.ofNat 64) (Partition.countsCleared_pair _ (k := 0x918) (by decide))
  · exact congrArg (BitVec.ofNat 64) (Partition.countsCleared_pair _ (k := 0x91A) (by decide))
theorem State.startTrial_active (hp : p < 8) (ht : (s.part p).trial ≠ none) : s.startTrial p = s :=
  setPart_self hp _ (if_pos (Option.isSome_iff_ne_none.mpr ht))

theorem caliperStart_starts (hp : p < 8) (hs : (s.part p).state ≠ .none) (ht : (s.part p).trial = none) :
    ∃ t, exec (.caliperStart p) s = .next t ∧ (t.part p).reg 0x91E 0 = 1 ∧ (∀ n, n < 8 → (t.part p).reg (0x928 + n) 0 = 0)
    ∧ ((t.part p).trial.map fun x => (x.lo, x.hi, x.from_)) = some (BitVec.ofNat 64 ((s.part p).reg2 0x918), BitVec.ofNat 64 ((s.part p).reg2 0x91A), s.now + 1) := by
  obtain ⟨x, hpart, hlo, hhi, hfrom⟩ := State.startTrial_part hp ht
  refine ⟨s.startTrial p, next_of (if_neg hs), ?_, fun n hn => ?_, ?_⟩
  · rw [hpart, Partition.reg_withTrial, reg_same]
  · rw [hpart, Partition.reg_withTrial, reg_other _ _ _ (by omega), Partition.countsCleared_count _ hn]
  · rw [hpart, ← hlo, ← hhi, ← hfrom]; rfl
theorem caliperStart_active (hp : p < 8) (ht : (s.part p).trial ≠ none) : exec (.caliperStart p) s = .next s :=
  next_of (by rw [State.startTrial_active hp ht, ite_self])
theorem State.stopTrial_part (hp : p < 8) : ((s.stopTrial p).part p).trial = none ∧ ((s.stopTrial p).part p).reg 0x91E 0 = 0 := by
  unfold State.stopTrial
  rw [State.setPart_part _ hp, Partition.reg_withTrial, reg_same]
  exact ⟨rfl, rfl⟩
end

/-! ### DBGOP (R419, R437) -/

section
variable {s : State} {who p a : Nat} {v : Word} {g : Group}

theorem State.debugStep_heard (hs : (s.part p).state ≠ .none) (hw : who ≠ 8 ∨ (s.part p).isLocked 0x931 = false) (ha : bits v 0 3 = a) :
    s.debugStep who p v a = s.debugOp who p v :=
  (if_neg (by simp [hs, ha])).trans (State.unlessLocked_heard _ hw)
theorem State.debugStep_locked (hs : (s.part p).state ≠ .none) (h : (s.part p).isLocked 0x931 = true) (ha : bits v 0 3 = a) : s.debugStep 8 p v a = s.toError p :=
  (if_neg (by simp [hs, ha])).trans (State.unlessLocked_locked _ h)
theorem State.debugStep_absent (hs : (s.part p).state = .none) : s.debugStep who p v a = s := if_pos (by simp [hs])

theorem State.debugOp_off (h : (s.part p).debugOn = false) : s.debugOp who p v = s.debugRefused p := if_pos (by rw [h]; rfl)
theorem State.debugOp_nowhere (h : s.locate? v = none) : s.debugOp who p v = s.debugRefused p := by
  unfold State.debugOp
  simp only [h, ite_self]
/-- The host may name no group of sealed code, and code no group of another partition. -/
theorem State.debugOp_foreign (hg : s.locate? v = some g) (hd : (s.part p).debugOn = true) (h : if who = 8 then (s.part g.part).isSealed = true else g.part ≠ p) :
    s.debugOp who p v = s.debugRefused p := by
  unfold State.debugOp
  simp only [hg, hd]
  refine (if_neg (by decide)).trans (if_pos ?_)
  split at h
  next hw => rw [if_pos hw]; exact h
  next hw => rw [if_neg hw]; exact bne_iff_ne.mpr h
theorem State.debugOp_acts (hg : s.locate? v = some g) (hd : (s.part p).debugOn = true) (h : if who = 8 then (s.part g.part).isSealed = false else g.part = p) :
    s.debugOp who p v = if (g.debugAction (bits v 0 3) (bits v 8 3)).isSome then
      s.setGroup g.seq fun g => g.atCycle s.now fun g => (g.debugAction (bits v 0 3) (bits v 8 3)).getD g
    else s.debugRefused p := by
  unfold State.debugOp
  simp only [hg, hd]
  refine (if_neg (by decide)).trans ((if_neg ?_).trans ?_)
  · split at h
    next hw => rw [if_pos hw, h]; decide
    next hw => rw [if_neg hw, h, bne_self_eq_false]; decide
  · cases g.debugAction (bits v 0 3) (bits v 8 3) with
    | none => rfl
    | some _ => rfl
end

/-! ### Holds (R31, R419) -/

section
variable {s u : State} {seq n : Nat} {g : Group} {keep bkpt : Bool}

theorem holdTakesEffect_early (hg : s.group? seq = some g) (h : s.holdDue g n = false) : exec (.holdTakesEffect seq n) s = .next s := by
  refine next_of ?_
  unfold State.takeHold
  simp only [hg, h]
  rfl
/-- Whether the unit that a path waits for has answered. -/
def Path.answered (p : Path) : Bool :=
  match p.wait with
  | some (.granted _ _) => true
  | _ => false
/-- R419: a due hold withdraws what its path waits for, unless that has been answered, and leaves the path held and a halt record. -/
theorem holdTakesEffect_due (hg : s.group? seq = some g) (h : s.holdDue g n = true) (hk : keep = (g.path n).answered) (hb : bkpt = ((g.path n).holdAsked == some 0))
    (hu : u = (if keep then s else s.withdrawIf fun x y => x == seq && y == n).setGroup seq (fun g => g.atCycle s.now fun g => g.heldAt n keep bkpt)) :
    exec (.holdTakesEffect seq n) s = .next (u.haltRecord g n (if bkpt then (g.path n).holdId else 0) false ((g.path n).holdAsked.getD 1)) := by
  have hnow : (if keep then s else s.withdrawIf fun x y => x == seq && y == n).now = s.now := by
    split
    next => rfl
    next => exact withdrawn_now ..
  rw [← hnow] at hu
  subst hk hb hu
  refine next_of ?_
  unfold State.takeHold
  simp only [hg, h]
  rfl
end

/-- Of a partition that is not there no write is heard. -/
theorem absent_idle {s : State} {p : Nat} (h : (s.part p).state = .none) (who : Nat) (v : Word) (on : Bool) :
    ∀ x ∈ [Instr.filterLoad who p v, .caliperStart p, .holdPath who p v, .releasePath who p v, .holdGroup who p v, .releaseGroup who p v, .debugStep who p v, .freeze p on],
      exec x s = .next s := by
  have hd (a : Nat) : s.debugStep who p v a = s := State.debugStep_absent h
  simp only [List.forall_mem_cons]
  exact ⟨next_of (if_pos h), next_of (if_pos h), next_of (hd 0), next_of (hd 1), next_of (hd 2), next_of (hd 3), next_of (hd 4), next_of (if_pos h), fun _ hx => nomatch hx⟩

/-- Settles O54, clause by clause. That a halt record whose write faults waits (log entry 100), and that a path held while it waits keeps an answer that its
unit has given (log entry 102), are the model's choices. -/
theorem observation : Obligations.Observation := by
  refine ⟨fun s who tile v ht => ⟨samplerEnable_refused ht, fun hres hen => samplerEnable_taken ht ?_⟩, fun s who tile v ht => next_of (if_neg (Nat.not_lt.mpr ht)),
    fun s tile => ⟨fun h => next_of (if_pos h), fun h => next_of (if_neg (Bool.eq_false_iff.mp h))⟩,
    fun s p r rs x hr hd hx => ⟨traceFilter_rejects hr hd hx, traceFilter_writes hr hd hx, traceFilter_loses hr hd hx⟩, fun s p => traceFilter_idle,
    fun s p r rs u q hr hu hq => ⟨haltRecordWrite_loses hr hu, fun hb hroom y hy => ⟨fun v hv => ?_, fun e he => ?_⟩, haltRecordWrite_full hr⟩,
    fun s p => haltRecordWrite_none,
    fun s who p v hs hw => ⟨fun h => ?_, fun h31 h1 h15 h2 => ?_⟩,
    fun s p => caliperStart_starts, fun s p => caliperStart_active, fun s p => ⟨rfl, State.stopTrial_part⟩,
    fun s p => ⟨fun h => next_of (if_pos h), fun h => next_of (if_neg (Bool.eq_false_iff.mp h))⟩,
    fun s p v => filterLoad_locked,
    fun s p v hs h => ?_, fun s who p v hs hw => ?_,
    fun s who p v => ⟨State.debugOp_off, State.debugOp_nowhere, fun g => State.debugOp_foreign, fun g => State.debugOp_acts⟩,
    fun g e => ⟨rfl, rfl, rfl, rfl, rfl⟩, fun s seq n g => holdTakesEffect_early, fun s u seq n g keep bkpt => holdTakesEffect_due,
    fun s p on hs => next_of (if_neg hs), fun s p x h ⟨who, v, on, hx⟩ => absent_idle h who v on x hx⟩
  -- a write of SMPCTL that keeps R408
  · rintro (h | ⟨ho, h⟩)
    · exact h hres
    · exact h.elim (hen ho).1 (hen ho).2
  -- a halt record for which there is room
  · subst hq hy
    exact haltRecordWrite_written hr hu hb hroom hv
  · subst hq hy
    exact haltRecordWrite_waits hr hu hb hroom he
  -- writes of TFCTL
  · rw [filterLoad_heard hs hw, State.loadFilter_refused who h]; rfl
  · have hv : ¬ filterRefused v := by simp [filterRefused, h31, h1, h15, h2]
    refine ⟨fun h0 => ?_, fun h0 hl => ?_, fun h0 hl => ⟨fun e he => ?_, fun bs hb => ?_⟩⟩
    · rw [filterLoad_heard hs hw, State.loadFilter_disables who hv h0]; rfl
    · rw [filterLoad_heard hs hw, State.loadFilter_long who hv h0 hl]; rfl
    · rw [filterLoad_heard hs hw, State.loadFilter_reads who hv h0 hl, he]; rfl
    · rw [filterLoad_heard hs hw, State.loadFilter_reads who hv h0 hl, hb]; rfl
  -- writes of DBGOP
  · have hop {a : Nat} (ha : bits v 0 3 = a) : s.debugStep 8 p v a = s.toError p := State.debugStep_locked hs h ha
    exact ⟨fun h => next_of (hop h), fun h => next_of (hop h), fun h => next_of (hop h), fun h => next_of (hop h), fun h => next_of (hop h)⟩
  · have hop {a : Nat} (ha : bits v 0 3 = a) : s.debugStep who p v a = s.debugOp who p v := State.debugStep_heard hs hw ha
    exact ⟨fun h => next_of (hop h), fun h => next_of (hop h), fun h => next_of (hop h), fun h => next_of (hop h), fun h => next_of (hop h)⟩

end Sys2Proof.Machine
end

section
/-! SUPPORT. One step brings no unsealed partition to CONFIG_LOCKED or ERROR (O9), and the state right after reset (O4). -/

namespace Sys2Proof.Machine

/-! ### One step (R439, R440) -/

/-- Whatever instruction or event is performed, by the law of its meaning. -/
theorem exec_open {s : State} (h : Open s) (i : Instr) : OutOpen (exec i s) :=
  match i with
  | .nop .. => execNop_open h | .jmp .. => execJmp_open h | .bra .. => execBra_open h | .brany .. => execBrany_open h | .brall .. => execBrall_open h
  | .brc .. => execBrc_open h | .jpt .. => execJpt_open h | .call .. => execCall_open h | .calli .. => execCalli_open h | .ret .. => execRet_open h
  | .loop .. => execLoop_open h | .loopk .. => execLoopk_open h | .leave .. => execLeave_open h | .exit .. => execExit_open h | .yield .. => execYield_open h
  | .bkpt .. => execBkpt_open h | .trap .. => execTrap_open h | .trapret .. => execTrapret_open h | .xrepl .. => execXrepl_open h | .mode .. => execMode_open h
  | .modef .. => execModef_open h | .moderd .. => execModerd_open h | .exmsv .. => execExmsv_open h | .exmld .. => execExmld_open h
  | .exmcmb .. => execExmcmb_open h | .exmp .. => execExmp_open h | .idrd .. => execIdrd_open h | .sysrd .. => execSysrd_open h | .syswr .. => execSyswr_open h
  | .reln .. => execReln_open h | .idemb .. => execIdemb_open h | .ideme .. => execIdeme_open h | .iadd .. => execIadd_open h | .isub .. => execIsub_open h
  | .imul .. => execImul_open h | .imulh .. => execImulh_open h | .imulhu .. => execImulhu_open h | .imad .. => execImad_open h | .idiv .. => execIdiv_open h
  | .idivu .. => execIdivu_open h | .irem .. => execIrem_open h | .iremu .. => execIremu_open h | .imin .. => execImin_open h | .imax .. => execImax_open h
  | .iminu .. => execIminu_open h | .imaxu .. => execImaxu_open h | .iabs .. => execIabs_open h | .ineg .. => execIneg_open h | .and .. => execAnd_open h
  | .or .. => execOr_open h | .xor .. => execXor_open h | .andn .. => execAndn_open h | .shl .. => execShl_open h | .shr .. => execShr_open h
  | .shra .. => execShra_open h | .rotl .. => execRotl_open h | .popc .. => execPopc_open h | .clz .. => execClz_open h | .brev .. => execBrev_open h
  | .bfx .. => execBfx_open h | .bfi .. => execBfi_open h | .bperm .. => execBperm_open h | .fshf .. => execFshf_open h | .sel .. => execSel_open h
  | .mov .. => execMov_open h | .movi .. => execMovi_open h | .ldcw .. => execLdcw_open h | .movs .. => execMovs_open h | .addi .. => execAddi_open h
  | .muli .. => execMuli_open h | .andi .. => execAndi_open h | .ori .. => execOri_open h | .xori .. => execXori_open h | .shli .. => execShli_open h
  | .shri .. => execShri_open h | .shrai .. => execShrai_open h | .aadd .. => execAadd_open h | .alea .. => execAlea_open h | .aaddi .. => execAaddi_open h
  | .asub .. => execAsub_open h | .iceq .. => execIceq_open h | .icne .. => execIcne_open h | .iclt .. => execIclt_open h | .icle .. => execIcle_open h
  | .icltu .. => execIcltu_open h | .icleu .. => execIcleu_open h | .iceqi .. => execIceqi_open h | .iclti .. => execIclti_open h | .pand .. => execPand_open h
  | .por .. => execPor_open h | .pxor .. => execPxor_open h | .pandn .. => execPandn_open h | .ptos .. => execPtos_open h | .pfroms .. => execPfroms_open h
  | .cmrd .. => execCmrd_open h | .cmwr .. => execCmwr_open h | .fadd .. => execFadd_open h | .fsub .. => execFsub_open h | .fmul .. => execFmul_open h
  | .ffma .. => execFfma_open h | .ffms .. => execFfms_open h | .fnma .. => execFnma_open h | .fmin .. => execFmin_open h | .fmax .. => execFmax_open h
  | .fabs .. => execFabs_open h | .fneg .. => execFneg_open h | .fceq .. => execFceq_open h | .fcne .. => execFcne_open h | .fclt .. => execFclt_open h
  | .fcle .. => execFcle_open h | .fcun .. => execFcun_open h | .fclass .. => execFclass_open h | .frcp .. => execFrcp_open h | .frsq .. => execFrsq_open h
  | .fsqrt .. => execFsqrt_open h | .fdiv .. => execFdiv_open h | .fexp2 .. => execFexp2_open h | .flog2 .. => execFlog2_open h | .fsin .. => execFsin_open h
  | .fcos .. => execFcos_open h | .ftanh .. => execFtanh_open h | .fsig .. => execFsig_open h | .ffrac .. => execFfrac_open h | .frnd .. => execFrnd_open h
  | .fscale .. => execFscale_open h | .fcpys .. => execFcpys_open h | .fsat .. => execFsat_open h | .flagrd .. => execFlagrd_open h
  | .fadde .. => execFadde_open h | .fsube .. => execFsube_open h | .fmule .. => execFmule_open h | .facc .. => execFacc_open h | .dwadd .. => execDwadd_open h
  | .dwsub .. => execDwsub_open h | .dwmul .. => execDwmul_open h | .dwaddf .. => execDwaddf_open h | .dwmulf .. => execDwmulf_open h
  | .dwdiv .. => execDwdiv_open h | .dwsqrt .. => execDwsqrt_open h | .dwnorm .. => execDwnorm_open h | .dwtof .. => execDwtof_open h
  | .dwclt .. => execDwclt_open h | .dwceq .. => execDwceq_open h | .cvtff .. => execCvtff_open h | .cvtfi .. => execCvtfi_open h
  | .cvtif .. => execCvtif_open h | .pack .. => execPack_open h | .unpk .. => execUnpk_open h | .pack8 .. => execPack8_open h | .unpk8 .. => execUnpk8_open h
  | .qnt4 .. => execQnt4_open h | .rand .. => execRand_open h | .randf .. => execRandf_open h | .catsamp .. => execCatsamp_open h
  | .bararv .. => execBararv_open h | .shfl .. => execShfl_open h | .shflx .. => execShflx_open h | .shflu .. => execShflu_open h
  | .shfld .. => execShfld_open h | .bcast .. => execBcast_open h | .voteany .. => execVoteany_open h | .voteall .. => execVoteall_open h
  | .ballot .. => execBallot_open h | .scanadd .. => execScanadd_open h | .scanfadd .. => execScanfadd_open h | .redadd .. => execRedadd_open h
  | .redfadd .. => execRedfadd_open h | .redmin .. => execRedmin_open h | .redmax .. => execRedmax_open h | .redsumc .. => execRedsumc_open h
  | .reddotc .. => execReddotc_open h | .ldb .. => execLdb_open h | .ldbs .. => execLdbs_open h | .ldh .. => execLdh_open h | .ldhs .. => execLdhs_open h
  | .ldw .. => execLdw_open h | .ldd .. => execLdd_open h | .ldq .. => execLdq_open h | .ldln .. => execLdln_open h | .stb .. => execStb_open h
  | .sth .. => execSth_open h | .stw .. => execStw_open h | .std .. => execStd_open h | .stq .. => execStq_open h | .pref .. => execPref_open h
  | .fence .. => execFence_open h | .cflush .. => execCflush_open h | .cinv .. => execCinv_open h | .atadd .. => execAtadd_open h
  | .atmin .. => execAtmin_open h | .atmax .. => execAtmax_open h | .atand .. => execAtand_open h | .ator .. => execAtor_open h | .atxor .. => execAtxor_open h
  | .atxchg .. => execAtxchg_open h | .atcas .. => execAtcas_open h | .atfadd .. => execAtfadd_open h | .atpadd .. => execAtpadd_open h
  | .atinc .. => execAtinc_open h | .bkadd .. => execBkadd_open h | .bkred .. => execBkred_open h | .bkset .. => execBkset_open h
  | .bkscal .. => execBkscal_open h | .cpya .. => execCpya_open h | .cpyg .. => execCpyg_open h | .batch .. => execBatch_open h
  | .waitbat .. => execWaitbat_open h | .waitbatAll => execWaitbatAll_open h | .febset .. => execFebset_open h | .febsetPut .. => execFebsetPut_open h
  | .febclr .. => execFebclr_open h | .febwait .. => execFebwait_open h | .febwe .. => execFebwe_open h | .gang .. => execGang_open h
  | .mma .. => execMma_open h | .mmasp .. => execMmasp_open h | .mmaz .. => execMmaz_open h | .drain .. => execDrain_open h
  | .drainReg .. => execDrainReg_open h | .mmwait .. => execMmwait_open h | .tld .. => execTld_open h | .tst .. => execTst_open h | .torg .. => execTorg_open h
  | .tzero .. => execTzero_open h | .tzeroAll .. => execTzeroAll_open h | .bmcast .. => execBmcast_open h | .engq .. => execEngq_open h
  | .fwait .. => execFwait_open h | .ftest .. => execFtest_open h | .fcancel .. => execFcancel_open h | .fres .. => execFres_open h
  | .spawn .. => execSpawn_open h | .cwait .. => execCwait_open h | .cwaitTask .. => execCwaitTask_open h | .cancel .. => execCancel_open h
  | .qalloc .. => execQalloc_open h | .qfree .. => execQfree_open h | .qfreel .. => execQfreel_open h | .mfill .. => execMfill_open h
  | .mflush .. => execMflush_open h | .dlarm .. => execDlarm_open h | .dlrd .. => execDlrd_open h | .ttboard .. => execTtboard_open h
  | .ttalight .. => execTtalight_open h | .ttread .. => execTtread_open h | .ttcas .. => execTtcas_open h | .ttmax .. => execTtmax_open h
  | .ttadd .. => execTtadd_open h | .ttwait .. => execTtwait_open h | .vpush .. => execVpush_open h | .vpop .. => execVpop_open h
  | .vcount .. => execVcount_open h | .mbpost .. => execMbpost_open h | .mbtake .. => execMbtake_open h | .bar .. => execBar_open h
  | .barWait .. => execBarWait_open h | .mark .. => execMark_open h | .launchDoorbell .. => execLaunchDoorbell_open h
  | .launchEntryRead .. => execLaunchEntryRead_open h | .dispatch => execDispatch_open h | .taskAgeing .. => execTaskAgeing_open h
  | .timeSliceEnd .. => execTimeSliceEnd_open h | .drainOverrun .. => execDrainOverrun_open h | .teamSave .. => execTeamSave_open h
  | .teamRestore .. => execTeamRestore_open h | .dependenceUnitEnter .. => execDependenceUnitEnter_open h | .taskComplete .. => execTaskComplete_open h
  | .versionEarlyCommit .. => execVersionEarlyCommit_open h | .mouldConsumerLaunch .. => execMouldConsumerLaunch_open h
  | .poolEnable .. => execPoolEnable_open h | .poolDisable .. => execPoolDisable_open h | .mouldEnable .. => execMouldEnable_open h
  | .mouldDisable .. => execMouldDisable_open h | .deadlineExpiry .. => execDeadlineExpiry_open h | .atctlFire .. => execAtctlFire_open h
  | .dltrigRise => execDltrigRise_open h | .unveilCancel .. => execUnveilCancel_open h | .unveilCapture .. => execUnveilCapture_open h
  | .faultQueueRecord .. => execFaultQueueRecord_open h | .faultReplay .. => execFaultReplay_open h | .faultDeliver .. => execFaultDeliver_open h
  | .faultKill .. => execFaultKill_open h | .tlbInvalidateAddress .. => execTlbInvalidateAddress_open h | .tlbInvalidateAll .. => execTlbInvalidateAll_open h
  | .scanCommit .. => execScanCommit_open h | .scanDiscard .. => execScanDiscard_open h | .channelReset .. => execChannelReset_open h
  | .gateRequest .. => execGateRequest_open h | .gatePreemptRequest .. => execGatePreemptRequest_open h | .gateLift .. => execGateLift_open h
  | .gateClose .. => execGateClose_open h | .gateOpen .. => execGateOpen_open h | .coreDisable .. => execCoreDisable_open h
  | .scanRotation => execScanRotation_open h | .scanComplete .. => execScanComplete_open h | .patrolRowRead .. => execPatrolRowRead_open h
  | .auditSample => execAuditSample_open h | .probeSend .. => execProbeSend_open h | .probeReceive => execProbeReceive_open h
  | .reportWrite .. => execReportWrite_open h | .governorInterval .. => execGovernorInterval_open h | .samplerEnable .. => execSamplerEnable_open h
  | .sample .. => execSample_open h | .traceFilter .. => execTraceFilter_open h | .haltRecordWrite .. => execHaltRecordWrite_open h
  | .filterLoad .. => execFilterLoad_open h | .caliperStart .. => execCaliperStart_open h | .caliperStop .. => execCaliperStop_open h
  | .caliperEnd .. => execCaliperEnd_open h | .holdPath .. => execHoldPath_open h | .releasePath .. => execReleasePath_open h
  | .holdGroup .. => execHoldGroup_open h | .releaseGroup .. => execReleaseGroup_open h | .debugStep .. => execDebugStep_open h
  | .holdTakesEffect .. => execHoldTakesEffect_open h | .freeze .. => execFreeze_open h | .debugPortRead .. => execDebugPortRead_open h
  | .writeBufferDrain .. => execWriteBufferDrain_open h | .copyComplete .. => execCopyComplete_open h | .matrixOperation .. => execMatrixOperation_open h
  | .turntablePerform .. => execTurntablePerform_open h | .revolution .. => execRevolution_open h | .fifoEntryLand .. => execFifoEntryLand_open h
  | .permitReturn .. => execPermitReturn_open h | .flitArrival .. => execFlitArrival_open h | .reassemblyGrant .. => execReassemblyGrant_open h
  | .mailboxGrant .. => execMailboxGrant_open h | .chainJob .. => execChainJob_open h | .chainLoop .. => execChainLoop_open h
  | .chainCond .. => execChainCond_open h | .chainLink .. => execChainLink_open h | .chainEnd .. => execChainEnd_open h
  | .engineJobComplete .. => execEngineJobComplete_open h | .voxel .. => execVoxel_open h | .rulebook .. => execRulebook_open h | .coord .. => execCoord_open h
  | .convertCompress .. => execConvertCompress_open h | .convertExpand .. => execConvertExpand_open h | .collidePoint .. => execCollidePoint_open h
  | .collideSegment .. => execCollideSegment_open h | .collideSphere .. => execCollideSphere_open h | .collideSweep .. => execCollideSweep_open h
  | .dynStep .. => execDynStep_open h | .partCreate .. => execPartCreate_open h | .partDestroy .. => execPartDestroy_open h
  | .partStart .. => execPartStart_open h | .partStop .. => execPartStop_open h | .lockedRegisterWrite .. => execLockedRegisterWrite_open h
  | .hostRegisterWrite .. => execHostRegisterWrite_open h | .getVersion .. => execGetVersion_open h | .getCapabilities .. => execGetCapabilities_open h
  | .negotiateAlgorithms .. => execNegotiateAlgorithms_open h | .getDigests .. => execGetDigests_open h | .getCertificate .. => execGetCertificate_open h
  | .spdmChallenge .. => execSpdmChallenge_open h | .getMeasurements .. => execGetMeasurements_open h | .keyExchange .. => execKeyExchange_open h
  | .spdmFinish .. => execSpdmFinish_open h | .spdmHeartbeat .. => execSpdmHeartbeat_open h | .keyUpdate .. => execKeyUpdate_open h
  | .endSession .. => execEndSession_open h | .getTdispVersion .. => execGetTdispVersion_open h | .getTdispCapabilities .. => execGetTdispCapabilities_open h
  | .lockInterfaceRequest .. => execLockInterfaceRequest_open h | .getDeviceInterfaceReport .. => execGetDeviceInterfaceReport_open h
  | .getDeviceInterfaceState .. => execGetDeviceInterfaceState_open h | .startInterfaceRequest .. => execStartInterfaceRequest_open h
  | .stopInterfaceRequest .. => execStopInterfaceRequest_open h | .keyProg .. => execKeyProg_open h | .kSetGo .. => execKSetGo_open h
  | .kSetStop .. => execKSetStop_open h | .ideStreamInsecure .. => execIdeStreamInsecure_open h | .boardRelayObject .. => execBoardRelayObject_open h
  | .keyEstablish .. => execKeyEstablish_open h | .keyClear .. => execKeyClear_open h | .boardResponse .. => execBoardResponse_open h
  | .powerOnReset .. => execPowerOnReset_open h | .bootImageWrite .. => execBootImageWrite_open h | .linkTraining .. => execLinkTraining_open h
  | .perstAssert => execPerstAssert_open h | .hotReset => execHotReset_open h | .linkDown => execLinkDown_open h
  | .illegalInstruction .. => execIllegalInstruction_open h | .illFormedWord .. => execIllFormedWord_open h | .fetchFault => execFetchFault_open h
  | .softError .. => execSoftError_open h | .hostAccess .. => execHostAccess_open h | .eviction .. => execEviction_open h
  | .doeDiscovery .. => execDoeDiscovery_open h | .pointMoveComplete => execPointMoveComplete_open h
/-- A path that issues runs the instruction it fetches, or meets an uncorrectable word of its path table. -/
theorem State.issue_open {s : State} (h : Open s) (seq path : Nat) : OutOpen (s.issue seq path) := by
  unfold State.issue
  dsimp only
  have hready : Open ((s.checkout seq path).withMe fun g => { g with ir := (s.checkout seq path).fetch.2 }) := State.withMe_open (State.checkout_open h)
  split
  · exact .mk (State.tableError_open hready)
  · exact State.issued_open h (exec_open (State.noteTlb_open hready) _)
theorem State.take_open {s : State} (h : Open s) : ∀ m : Move, OutOpen (s.take m)
  | .event i => exec_open h i
  | .input i => exec_open (s := { s with inputs := s.inputs.drop 1 }) h i
  | .issue seq path => State.issue_open h seq path
  | .tick => .mk (State.tick_open h)
/-- A halted boot goes on with its power-on reset, any other state with the move that is next. -/
theorem step_open {s : State} (h : Open s) : OutOpen (step s) := by
  cases hs : s.halted with
  | false =>
    rw [step_takes rfl hs]
    exact State.take_open (s := { s with free := s.free + 1 }) h _
  | true =>
    cases hi : s.inputs.dropWhile fun i => !isPowerOn i with
    | nil =>
      rw [step_stops hs hi]
      exact .stop
    | cons i is =>
      rw [step_resets rfl hs hi]
      exact exec_open (s := { s with free := s.free + 1, inputs := is }) h i

/-- Settles O9, by the laws of the meanings, of an issue and of the passing of a cycle. -/
theorem unsealedNeverLocked : Obligations.UnsealedNeverLocked :=
  fun _ t h ht => unsealedOpen_open.mpr (step_open (unsealedOpen_open.mp h) t ht)

/-! ### Reset (R425, R430, R438, R449, R451) -/

/-- After reset every partition number is free and has nothing of its own. -/
theorem State.reset_part {p : Nat} (h : p < 8) : State.reset.part p = {} := by
  simp [State.part, State.reset, h]

/-- Settles O4. That unlisted bytes read zero is the model's choice (log entry 5). -/
theorem resetState : Obligations.ResetState := by
  refine ⟨fun p hp => ?_, rfl, rfl, rfl, rfl, rfl, rfl, rfl, rfl, rfl, ⟨rfl, rfl, rfl⟩, rfl, rfl, rfl, rfl, rfl, rfl, unsealedOpen_open.mpr State.reset_open⟩
  rw [State.reset_part hp]
  exact ⟨rfl, rfl, rfl⟩

end Sys2Proof.Machine
end

section
/-! SUPPORT. Partitions, the boot and the host link (O57). -/

namespace Sys2Proof.Machine

/-! ### Commands on partitions (R438, R439, R440) -/

section
variable {s : State} {p : Nat}

/-- A number beyond the eight names an empty partition. -/
theorem State.part_beyond (h : 8 ≤ p) : s.part p = {} := by
  have hnone : s.parts[p]? = none := by simpa using h
  unfold State.part
  rw [hnone]; rfl

section
variable {bs : List Byte} (hbs : bs = Memory.bytes s.dev s.partDesc.toNat 256)
include hbs

theorem State.create_legal (h : s.partDesc.toNat + 256 ≤ devTop ∧ descLegal bs = true ∧ s.mayCreate p (parsePartition bs) = true) : s.create p =
    some { s.setPart p fun old => { parsePartition bs with ideSession := old.ideSession, ideSecure := old.ideSecure } with msix := s.msix ++ [(p + 1, 5), (0, 3)] } := by
  subst hbs
  obtain ⟨htop, hlegal, hfree⟩ := h
  refine (if_pos (by rw [hlegal, hfree, decide_eq_true htop]; rfl)).trans ?_
  rw [announce_eq, State.setPart_msix]
theorem State.create_refused (h : ¬ (s.partDesc.toNat + 256 ≤ devTop ∧ descLegal bs = true ∧ s.mayCreate p (parsePartition bs) = true)) : s.create p = none := by
  subst hbs
  exact if_neg (by simpa only [Bool.and_eq_true, decide_eq_true_eq, and_assoc] using h)
end

theorem State.destroy_unlocked (h : (s.part p).state = .unlocked) : s.destroy p =
    some { s.setPart p fun old => { ideSession := old.ideSession, ideSecure := old.ideSecure } with
      msix := s.msix ++ [(p + 1, 5), (0, 3)], keys := s.keys.filter (fun k => k.2.2 != p), tlb := s.tlb.map (noPart p), tlb2 := s.tlb2.map (noPart p) } := by
  refine (if_pos h).trans (congrArg some ?_)
  rw [announce_eq]
  unfold State.setPart
  split <;> rfl
theorem State.destroy_refused (h : (s.part p).state ≠ .unlocked) : s.destroy p = none := if_neg h

theorem State.start_unlocked (h : (s.part p).state = .unlocked) (ho : (s.part p).isSealed = false) : s.start p =
    some { s.setPart p fun q => { q with state := .run, sliceSince := s.refs } with msix := s.msix ++ [(p + 1, 5), (0, 3)] } := by
  refine (if_pos (by rw [h, ho]; rfl)).trans ?_
  rw [announce_eq, State.setPart_msix]
theorem State.start_refused (h : (s.part p).state ≠ .unlocked ∨ (s.part p).isSealed = true) : s.start p = none :=
  if_neg (by rcases h with h | h <;> simp [h])

/-- STOP is for a partition that is locked, runs or is in ERROR, and that no session has locked (R444). -/
theorem State.stop_taken (h : (s.part p).state = .run ∨ (s.part p).state = .locked ∨ (s.part p).state = .error) (hl : (s.part p).lockSession = none) :
    s.stop p = some (s.stopBegin p) := if_pos (by rcases h with h | h | h <;> rw [h, hl] <;> rfl)
theorem State.stop_refused (h : (s.part p).state = .none ∨ (s.part p).state = .unlocked ∨ (s.part p).lockSession.isSome = true) : s.stop p = none := by
  refine if_neg ?_
  rcases h with h | h | h
  · simp [h]
  · simp [h]
  · rw [Option.isNone_eq_false_iff.mpr h, Bool.and_false]; decide

section
variable (hp : p < 8)
include hp
theorem partCreate_commands : exec (.partCreate p) s = .next (s.partCommand 1 p) := next_of (if_pos hp)
theorem partDestroy_commands : exec (.partDestroy p) s = .next (s.partCommand 2 p) := next_of (if_pos hp)
theorem partStart_commands : exec (.partStart p) s = .next (s.partCommand 3 p) := next_of (if_pos hp)
theorem partStop_commands (h : (s.part p).stopping = false) : exec (.partStop p) s = .next (s.partCommand 4 p) :=
  next_of ((if_neg (by rw [h]; decide)).trans (if_pos hp))
end

/-- A command on a number that names no partition does nothing. -/
theorem command_beyond (h : 8 ≤ p) :
    exec (.partCreate p) s = .next s ∧ exec (.partDestroy p) s = .next s ∧ exec (.partStart p) s = .next s ∧ exec (.partStop p) s = .next s := by
  have hp : ¬ p < 8 := Nat.not_lt.mpr h
  exact ⟨next_of (if_neg hp), next_of (if_neg hp), next_of (if_neg hp), next_of ((if_neg (by rw [State.part_beyond h]; decide)).trans (if_neg hp))⟩
end

/-! ### The boot (R449, R450) -/

section
variable {s : State} {image : List Byte} (failing : BitVec 96)

theorem bootImageWrite_other (verified derived : Bool) (trained : Option Nat) (h : s.bootst ≠ 2) : exec (.bootImageWrite image verified derived trained failing) s = .next s :=
  next_of (if_pos h)

section
variable (h : s.bootst = 2)
include h
/-- Step 3: an image that is too long, or that does not verify, halts the boot. -/
theorem bootImageWrite_rejected {verified : Bool} (derived : Bool) (trained : Option Nat) (hv : verified = false ∨ 0x200000 < image.length) :
    exec (.bootImageWrite image verified derived trained failing) s = .next (s.booting 0x83) :=
  next_of ((if_neg (not_not.mpr h)).trans (if_pos (by rcases hv with hv | hv <;> simp [hv])))

section
variable (hl : image.length ≤ 0x200000)
include hl
theorem bootImageWrite_underived (trained : Option Nat) : exec (.bootImageWrite image true false trained failing) s = .next (s.booting 0x84) :=
  next_of ((if_neg (not_not.mpr h)).trans ((if_neg (by simpa using hl)).trans (if_pos rfl)))
/-- Step 5: the first channel that cannot be trained halts the boot. -/
theorem bootImageWrite_untrained {ch : Nat} (hc : ch < 16) :
    exec (.bootImageWrite image true true (some ch) failing) s = .next (s.booting (BitVec.ofNat 32 (0x85 + 256 * ch))) := by
  refine next_of ((if_neg (not_not.mpr h)).trans ((if_neg (by simpa using hl)).trans ((if_neg (by decide)).trans ?_)))
  refine congrArg (fun n => s.booting (BitVec.ofNat 32 (0x85 + n))) ?_
  rw [Nat.mod_eq_of_lt hc, Nat.mul_comm]
theorem bootImageWrite_boots : exec (.bootImageWrite image true true none failing) s = .next { s.booting 7 with cdmask := failing, imageDigest := leNat image } :=
  next_of ((if_neg (not_not.mpr h)).trans ((if_neg (by simpa using hl)).trans (if_neg (by decide))))
end
end
end

/-! ### The link (R434, R445) -/

section
variable {s : State}

theorem linkTraining_trains (hb : s.bootst = 7 ∨ s.bootst = 8) (hl : s.linkUp = false) (ok : Bool) : exec (.linkTraining ok) s =
    .next (if ok then { s with perst := false, linkUp := true, bootst := 8, msix := s.msix ++ [(0, 0)] } else { s with perst := false }) :=
  next_of (if_pos ⟨hb, by rw [hl]; rfl⟩)
theorem linkTraining_idle (ok : Bool) (h : s.bootst ≠ 7 ∧ s.bootst ≠ 8 ∨ s.linkUp = true) : exec (.linkTraining ok) s = .next s := by
  refine next_of (if_neg ?_)
  rintro ⟨hb, hl⟩
  rcases h with ⟨h7, h8⟩ | h
  · exact hb.elim h7 h8
  · rw [h] at hl; cases hl

/-- What arrives over the link (R445) does so while it is up. -/
theorem State.onLink_up (f : State → State) (h : s.linkUp = true) : s.onLink f = f s := if_pos h
theorem State.onLink_down (f : State → State) (h : s.linkUp = false) : s.onLink f = s := if_neg (by rw [h]; decide)
theorem State.onLink_idle {f : State → State} (h : f s = s) : s.onLink f = s := by
  unfold State.onLink
  rw [h, ite_self]
/-- A reset of the link ends every session; PF 0 hears of one that takes the link down. -/
theorem State.linkReset_eq (s : State) : s.linkReset =
    (s.sessions.map (·.id)).foldl State.endSession { s with linkUp := false, msix := if s.linkUp then s.msix ++ [(0, 0)] else s.msix } := by
  unfold State.linkReset
  split <;> rfl
theorem State.linkReset_up (h : s.linkUp = true) : s.linkReset =
    (s.sessions.map (·.id)).foldl State.endSession { s with linkUp := false, msix := s.msix ++ [(0, 0)] } := by
  rw [State.linkReset_eq, if_pos h]
end

/-- Settles O57, clause by clause. That a descriptor beyond the end of device memory is refused (log entry 109), that an image of more than 2 MiB ends the boot
with 0x83 (log entry 114), and that the IDE session of a function outlasts CREATE and DESTROY (log entry 116) are the model's choices. -/
theorem partitionsAndBoot : Obligations.PartitionsAndBoot := by
  refine ⟨fun s p q hp hq => ⟨fun h => ?_, fun h => ?_, ?_⟩,
    fun s p hp => ⟨fun h => ?_, fun h => ?_, fun h ho => ?_, fun h => ?_, fun hn h hl => ?_, fun hn h => ?_, fun h => next_of (if_pos h)⟩,
    fun s p hp => command_beyond hp, fun s p => stop_whole, fun s ok => rfl,
    fun s b image failing hb => ?_,
    fun s hb hl => ⟨linkTraining_trains hb hl true, linkTraining_trains hb hl false⟩, fun s ok => linkTraining_idle ok,
    fun s u hl hu => ?_, fun s hl => ⟨next_of (State.onLink_down _ hl), next_of (State.onLink_down _ hl)⟩, fun s u hn hu => ?_, fun s h => next_of (if_pos h),
    fun s idx hl => next_of (State.onLink_up _ hl), fun s idx hl => next_of (State.onLink_down _ hl)⟩
  -- CREATE
  · subst hq
    rw [partCreate_commands hp, create_some (State.create_legal rfl h)]
  · subst hq
    rw [partCreate_commands hp, create_none (State.create_refused rfl h)]
  · subst hq
    exact ⟨rfl, rfl, rfl, rfl⟩
  -- DESTROY, START and STOP
  · rw [partDestroy_commands hp, destroy_some (State.destroy_unlocked h)]
  · rw [partDestroy_commands hp, destroy_none (State.destroy_refused h)]
  · rw [partStart_commands hp, start_some (State.start_unlocked h ho)]
  · rw [partStart_commands hp, start_none (State.start_refused h)]
  · rw [partStop_commands hp hn, stop_some (State.stop_taken h hl)]; rfl
  · rw [partStop_commands hp hn, stop_none (State.stop_refused h)]
  -- the image
  · subst hb
    exact ⟨fun derived trained h _ => bootImageWrite_rejected failing h derived trained (.inl rfl), fun trained h hl => bootImageWrite_underived failing h hl trained,
      fun ch hc h hl => bootImageWrite_untrained failing h hl hc, fun h hl => bootImageWrite_boots failing h hl,
      fun verified derived trained h hl => bootImageWrite_rejected failing h derived trained (.inr hl),
      fun verified derived trained => bootImageWrite_other failing verified derived trained⟩
  -- resets of the link
  · subst hu
    exact ⟨next_of ((State.onLink_up _ hl).trans (State.linkReset_up hl)), next_of ((State.onLink_up _ hl).trans (State.linkReset_up hl))⟩
  · subst hu
    exact next_of ((if_neg (by rw [hn]; decide)).trans (State.linkReset_eq _))

end Sys2Proof.Machine
end

section
/-! SUPPORT. The SPDM responder (O58). -/

namespace Sys2Proof.Machine

/-! ### The end of a session (R439, R445) -/

section
variable {s : State} {sess : Nat}

/-- What the end of a session does to a partition: its IDE keys go, and an interface that the session has locked begins its stop sequence. -/
theorem State.endSession_eq (s : State) (sess : Nat) : s.endSession sess = (List.range 8).foldl (fun (u : State) p =>
    let v := if (u.part p).ideSession = some sess then u.setPart p fun q => { q with ideSession := none, ideSecure := false } else u
    if (u.part p).lockSession = some sess ∧ ((u.part p).state = .run ∨ (u.part p).state = .locked ∨ (u.part p).state = .error) then
      (v.setPart p fun q => { q with stopping := true }).stopAdvance p else v) { s with sessions := s.sessions.filter (·.id != sess) } := by
  unfold State.endSession
  refine congrArg (fun f => List.foldl f _ _) (funext fun u => funext fun p => ?_)
  refine if_congr ?_ rfl rfl
  simp only [Bool.and_eq_true, Bool.or_eq_true, decide_eq_true_eq, beq_iff_eq, or_comm, or_left_comm]
theorem State.endSession_unlocked (h : ∀ p, p < 8 → (s.part p).lockSession ≠ some sess ∧ (s.part p).ideSession ≠ some sess) :
    s.endSession sess = { s with sessions := s.sessions.filter (·.id != sess) } := by
  rw [State.endSession_eq]
  refine fold_same _ _ _ fun p hp => ?_
  obtain ⟨hlock, hide⟩ := h p (List.mem_range.mp hp)
  exact (if_neg fun x => hlock x.1).trans (if_neg hide)

theorem endSession_secured (hl : s.linkUp = true) (h : (s.session sess).secured = true) : exec (.endSession sess) s = .next ((s.answering sess 12 0).endSession sess) :=
  spdm_yes hl h
theorem keyUpdate_fails (hl : s.linkUp = true) (h : (s.session sess).secured = true) : exec (.keyUpdate sess false) s =
    .next (((List.range 8).foldl (fun (s : State) p => if (s.part p).lockSession = some sess then s.toError p else s) (s.answering sess 0 0)).endSession sess) :=
  spdm_yes hl h
end

/-! ### The blocks of measurements (R443) -/

section
variable {s : State} {k : Nat}

theorem State.measurement_isSome : (s.measurement k).isSome = (s.measured k).isSome := Option.isSome_map
theorem State.measured_firmware (h1 : 1 ≤ k) (h4 : k ≤ 4) : (s.measured k).isSome = true := by
  unfold State.measured
  rw [if_pos ⟨h1, h4⟩]; rfl
theorem State.measured_partition {p : Nat} (h : p < 8) : (s.measured (0x10 + p)).isSome = (s.part p).lockSession.isSome := by
  unfold State.measured
  rw [if_neg (by omega), if_pos (by omega), Nat.add_sub_cancel_left]
  dsimp only
  split
  next hlock => exact hlock.symm
  next hfree => exact (Bool.eq_false_iff.mpr hfree).symm
theorem State.measured_beyond (h : ¬ ((1 ≤ k ∧ k ≤ 4) ∨ (0x10 ≤ k ∧ k < 0x18))) : s.measured k = none := by
  rw [not_or] at h
  exact (if_neg h.1).trans (if_neg h.2)
end

/-- Settles O58: each request is answered as `State.spdm` says, the rest by the lemmas above. That index 0 and 0xFF are taken beside the blocks (log entry 115),
and that a failed key update moves the locked interfaces to ERROR before the session ends (log entry 112), are the model's choices. -/
theorem spdmSessions : Obligations.SpdmSessions := by
  refine ⟨fun sess slot idx ok => ⟨?_, ?_, ?_, ?_, ?_, ?_, ?_, ?_, ?_, ?_, ?_⟩,
    fun s sess hl h => ⟨endSession_secured hl h, keyUpdate_fails hl h⟩, fun s sess hl h => ⟨spdm_no hl h, spdm_no hl h⟩,
    fun s sess hl => ⟨spdm_down hl, spdm_down hl⟩, State.endSession_eq, fun s sess => State.endSession_unlocked,
    fun s p hp => State.measurement_isSome.trans (State.measured_partition hp), fun s k h => ?_,
    fun s k h1 h4 => State.measurement_isSome.trans (State.measured_firmware h1 h4)⟩
  · exact request_form_of _ _ _ _ _ _ (fun _ => rfl) fun _ => rfl
  · exact request_form_of _ _ _ _ _ _ (fun _ => rfl) fun _ => rfl
  · exact request_form_of _ _ _ _ _ _ (fun _ => rfl) fun _ => rfl
  · exact form_id _ _ _ _ _ fun _ => rfl
  · exact form_id _ _ _ _ _ fun _ => rfl
  · exact form_id _ _ _ _ _ fun _ => rfl
  · exact form_id _ _ _ _ _ fun _ => rfl
  · exact request_form_of _ _ _ _ _ _ (fun _ => rfl) fun _ => rfl
  · exact request_form_of _ _ _ _ _ _ (fun _ => rfl) fun _ => rfl
  · exact form_id _ _ _ _ _ fun _ => rfl
  · exact request_form_of _ _ _ _ _ _ (fun _ => rfl) fun _ => rfl
  -- no other block exists
  · by_contra hk
    rw [State.measurement_isSome, State.measured_beyond hk] at h
    cases h

end Sys2Proof.Machine
end

section
/-! SUPPORT. TDISP and IDE key requests (O59). -/

namespace Sys2Proof.Machine

/-! ### The lock of an interface (R439, R444) -/

/-- A partition that a session has locked: its locked registers are captured, and its memory has a new key. -/
def Partition.lockedIn (q : Partition) (sess key : Nat) : Partition :=
  { q with
    state := .locked
    lockSession := some sess
    memoryKey := some key
    lockCapture := lockedRegisters.map fun n => (n, q.reg n (execLockInterfaceRequest.resetOf n)) }
/-- The state that an accepted LOCK answers. -/
def State.lockedIn (s : State) (sess p : Nat) : State :=
  let u := (s.setPart p fun q => q.lockedIn sess s.free).zeroPrivate p
  (u.announce p).answerMsg sess 0x83 (p + 16 * u.free)

section
variable {s : State} {sess p : Nat}

theorem lockInterface_eq (s : State) (sess vf : Nat) : exec (.lockInterfaceRequest sess vf) s =
    s.tdisp sess vf (fun q => q.state == .unlocked && q.isSealed && q.ideSession == some sess) fun p s => s.lockedIn sess p := rfl
theorem lockInterface_locks (hl : s.linkUp = true) (hs : (s.session sess).secured = true) (hp : p < 8) (hu : (s.part p).state = .unlocked) (hsealed : (s.part p).isSealed = true)
    (hide : (s.part p).ideSession = some sess) : exec (.lockInterfaceRequest sess (p + 1)) s = .next (s.lockedIn sess p) :=
  (lockInterface_eq ..).trans (tdisp_yes hl (by simp [hs, hu, hsealed, hide]; omega))
theorem lockInterface_refused {vf : Nat} (hl : s.linkUp = true) (h : (s.session sess).secured = false ∨ vf < 1 ∨ 8 < vf ∨ (s.part (vf - 1)).state ≠ .unlocked
    ∨ (s.part (vf - 1)).isSealed = false ∨ (s.part (vf - 1)).ideSession ≠ some sess) : exec (.lockInterfaceRequest sess vf) s = .next (s.answering sess 0x80 0) := by
  refine (lockInterface_eq ..).trans (tdisp_no hl (Bool.eq_false_iff.mpr fun x => ?_))
  simp only [Bool.and_eq_true, decide_eq_true_eq, beq_iff_eq] at x
  obtain ⟨⟨⟨hs, h1⟩, h8⟩, ⟨hu, hsealed⟩, hide⟩ := x
  rcases h with h | h | h | h | h | h
  · rw [hs] at h; cases h
  · omega
  · omega
  · exact h hu
  · rw [hsealed] at h; cases h
  · exact h hide

theorem State.lockedIn_part (hp : p < 8) : (s.lockedIn sess p).part p = (s.part p).lockedIn sess s.free := State.setPart_part _ hp
theorem State.lockedIn_other {n : Nat} (h : n ≠ p) : (s.lockedIn sess p).part n = s.part n := State.setPart_other _ h
theorem State.lockedIn_msix : (s.lockedIn sess p).msix = s.msix ++ [(p + 1, 5), (0, 3)] := by
  show (((s.setPart p _).zeroPrivate p).announce p).msix = _
  rw [announce_eq]
  show (s.setPart p _).msix ++ _ = _
  rw [State.setPart_msix]
theorem State.lockedIn_sent : (s.lockedIn sess p).sent = s.sent ++ [{ kind := 0x83, sess := sess, bytes := Config.responseBytes 0x83 (p + 16 * s.free) }] := by
  show (s.setPart p _).sent ++ [{ kind := 0x83, sess := sess, bytes := Config.responseBytes 0x83 (p + 16 * (s.setPart p _).free) }] = _
  rw [State.setPart_sent, State.setPart_free]
/-- Of device memory the lock leaves all that the partition does not own. -/
theorem State.lockedIn_dev (hp : p < 8) : (s.lockedIn sess p).dev = s.dev.filter fun c => !(s.part p).ownsPhys c.1 := by
  show (s.setPart p _).dev.filter _ = _
  rw [State.setPart_dev, State.setPart_part _ hp]; rfl
theorem State.lockedIn_byte (hp : p < 8) (a : Nat) : Memory.get (s.lockedIn sess p).dev a = if (s.part p).ownsPhys a then 0 else Memory.get s.dev a := by
  rw [State.lockedIn_dev hp, get_filter fun a => !(s.part p).ownsPhys a]
  cases (s.part p).ownsPhys a with
  | false => rfl
  | true => rfl
end

/-! ### A stream that leaves the secure state (R439) -/

theorem State.setPart_setPart (s : State) (p : Nat) (f g : Partition → Partition) : (s.setPart p f).setPart p g = s.setPart p fun q => g (f q) := by
  unfold State.setPart
  split
  next => simp
  next => rfl

section
variable {s : State} {p : Nat}

theorem State.insecure_stands (h : (s.part p).ideSecure = false) : s.insecure p = s := if_neg (by rw [h]; decide)
section
variable (hp : p < 8) (h : (s.part p).ideSecure = true)
include hp h
theorem State.insecure_quiet (hn : (s.part p).isSealed = false ∨ (s.part p).state ≠ .locked ∧ (s.part p).state ≠ .run) :
    s.insecure p = s.setPart p fun q => { q with ideSecure := false } := by
  refine (if_pos h).trans (if_neg ?_)
  rw [State.setPart_part _ hp]
  rcases hn with hn | ⟨hlocked, hrun⟩
  · simp [hn]
  · simp [hlocked, hrun]
/-- R439: a sealed partition that is locked or runs goes to ERROR. -/
theorem State.insecure_fails (hsealed : (s.part p).isSealed = true) (hr : (s.part p).state = .locked ∨ (s.part p).state = .run) :
    s.insecure p = ((s.setPart p fun q => { q with ideSecure := false, state := .error }).killAll p).announce p := by
  refine (if_pos h).trans ((if_pos ?_).trans ?_)
  · rw [State.setPart_part _ hp]
    rcases hr with hr | hr <;> simp [hsealed, hr]
  · rw [State.setPart_setPart]
end
end

/-- Settles O59: each request is answered as `State.tdisp` says. That KEY_PROG of a locked interface's stream is for the session that locked it (log entry
152), and that the zeroing and the response of a lock are one instant (log entry 116), are the model's choices. -/
theorem interfaceRequests : Obligations.InterfaceRequests := by
  refine ⟨fun sess vf ok hok => ⟨?_, ?_, ?_, report_ok sess vf ok hok⟩,
    fun s sess p hl hs hp hu hsealed hide => ?_, fun s sess vf hl => (lockInterface_eq ..).trans (tdisp_down hl), fun s sess vf => lockInterface_refused,
    fun sess vf => ⟨?_, ?_, ?_, ?_, ?_⟩, fun s p hp => next_of (if_pos (by omega)), fun s vf h => next_of (if_neg (by omega)),
    fun s p => State.insecure_stands, fun s p => State.insecure_quiet, fun s u p hp h hsealed hr hu => ?_⟩
  -- version, capabilities and state
  · exact query_form_of _ _ vf (fun _ => true) _ _ _ (fun s => by rw [hok, Bool.and_true]) (fun _ s => s.answerMsg sess 0x81 0) (fun _ => rfl) fun _ => rfl
  · exact query_form_of _ _ vf (fun _ => true) _ _ _ (fun s => by rw [hok, Bool.and_true]) (fun _ s => s.answerMsg sess 0x82 0) (fun _ => rfl) fun _ => rfl
  · exact query_form_of _ _ vf (fun _ => true) _ _ _ (fun s => by rw [hok, Bool.and_true]) (fun p s => s.answerMsg sess 0x85 (s.part p).state.code) (fun _ => rfl) fun _ => rfl
  -- the lock
  · refine ⟨s.lockedIn sess p, lockInterface_locks hl hs hp hu hsealed hide, ?_⟩
    rw [State.lockedIn_part hp]
    refine ⟨rfl, rfl, rfl, ?_, rfl, fun n => State.lockedIn_other, State.lockedIn_msix, ⟨_, State.lockedIn_sent, rfl, rfl⟩, fun hw => ?_, fun a ha => ?_, fun a ha => ?_⟩
    · exact (List.map_map ..).trans (List.map_id _)
    · rw [State.lockedIn_dev hp]
      exact wf_filter _ _ hw
    · rw [State.lockedIn_byte hp, ha]; rfl
    · rw [State.lockedIn_byte hp, ha]; rfl
  -- START, STOP and the keys of the stream
  · refine interface_form_of _ _ _ _ (fun p s => ((s.setPart p fun q => { q with state := .run, sliceSince := s.refs }).announce p).answerMsg sess 0x86 0) _
      (fun _ => rfl) fun s _ => ?_
    rw [announce_eq, State.setPart_msix]; rfl
  · exact interface_form_of _ _ _ _ (fun p s => (s.stopBegin p).answerMsg sess 0x87 0) _ (fun _ => rfl) fun _ _ => rfl
  · exact interface_form_of _ _ _ _ (fun p s => (s.setPart p fun q => { q with ideSession := some sess }).answerMsg sess 0x88 0) _ (fun _ => rfl) fun _ _ => rfl
  · exact interface_form_of _ _ _ _ (fun p s => (s.setPart p fun q => { q with ideSecure := true }).answerMsg sess 0x89 0) _ (fun _ => rfl) fun _ _ => rfl
  · exact interface_form_of _ _ _ _ (fun p s => (s.insecure p).answerMsg sess 0x8A 0) _ (fun _ => rfl) fun _ _ => rfl
  -- a secure stream that stops being secure
  · subst hu
    exact (State.insecure_fails hp h hsealed hr).trans (announce_eq ..)

end Sys2Proof.Machine
end

section
/-! SUPPORT. Board keys (O60). -/

namespace Sys2Proof.Machine

/-! ### A request through KSREQ (R446, R447) -/

/-- Whether a partition may ask for keys: it is sealed, runs and does not stop. -/
def Partition.mayKey (q : Partition) : Bool := q.isSealed && q.state == .run && !q.stopping

section
variable {q : Partition}
theorem Partition.mayKey_true (hs : q.isSealed = true) (hr : q.state = .run) (hn : q.stopping = false) : q.mayKey = true := by
  unfold Partition.mayKey
  rw [hs, hr, hn]; rfl
theorem Partition.not_barred_of_mayKey (h : q.mayKey = true) : ¬ (!(q.isSealed && q.state == .run && !q.stopping)) = true := by
  unfold Partition.mayKey at h
  rw [h]; decide
theorem Partition.mayKey_false (h : q.isSealed = false ∨ q.state ≠ .run ∨ q.stopping = true) : q.mayKey = false := by
  unfold Partition.mayKey
  rcases h with h | h | h <;> simp [h]
end

section
variable {s : State} {p : Nat}

theorem State.keyRequest_barred (h : (s.part p).mayKey = false) : s.keyRequest p = s.keyStatus p 5 := if_pos (congrArg not h)
theorem State.keyRequest_unread (h : s.keyBlock p = none) : s.keyRequest p = s.keyStatus p 5 := by
  unfold State.keyRequest
  simp only [h, ite_self]

section
variable {b : List Byte} (hb : s.keyBlock p = some b)
include hb

/-- A block that asks for no operation. -/
theorem State.keyRequest_neither (h : keyOperation b = 0) : s.keyRequest p = s.keyStatus p 5 := by
  unfold State.keyRequest
  simp only [hb, h, ite_self]
/-- One request at a time. -/
theorem State.keyRequest_establish_busy (h : keyOperation b = 1) (hp : (s.part p).ksPending.isSome = true) : s.keyRequest p = s.keyStatus p 5 := by
  obtain ⟨x, hx⟩ := Option.isSome_iff_exists.mp hp
  unfold State.keyRequest
  simp only [hb, h, hx, ite_self]
/-- A clear of another slot than that of the pending request. -/
theorem State.keyRequest_clear_busy {x : Nat × Nat} (h : keyOperation b = 2) (hp : (s.part p).ksPending = some x) (hx : x.1 ≠ natAt b 0 1) :
    s.keyRequest p = s.keyStatus p 5 := by
  unfold State.keyRequest
  simp only [hb, h, hp, hx, if_false, ite_self]

section
variable (hm : (s.part p).mayKey = true)
include hm
theorem State.keyRequest_establishes (h : keyOperation b = 1) (hp : (s.part p).ksPending = none) : s.keyRequest p =
    ((s.setPart p fun q => { q with ksPending := some (natAt b 0 1, natAt b 1 1), ksStep := 1 }).keyStatus p 1).toBoard (natAt b 1 1) 1 := by
  refine (if_neg (Partition.not_barred_of_mayKey hm)).trans ?_
  simp only [hb, h, hp]
theorem State.keyRequest_clears (h : keyOperation b = 2) (hp : (s.part p).ksPending = none) : s.keyRequest p = (s.loadKey p (natAt b 0 1) none).keyStatus p 2 := by
  refine (if_neg (Partition.not_barred_of_mayKey hm)).trans ?_
  simp only [hb, h, hp]
theorem State.keyRequest_aborts {x : Nat × Nat} (h : keyOperation b = 2) (hp : (s.part p).ksPending = some x) (hx : x.1 = natAt b 0 1) : s.keyRequest p =
    ((s.loadKey p (natAt b 0 1) none).setPart p fun q => { q with ksPending := none }).keyStatus p 6 := by
  refine (if_neg (Partition.not_barred_of_mayKey hm)).trans ?_
  simp only [hb, h, hp, hx, if_true]
end
end

/-! ### The events of KSREQ and of the boards -/

theorem State.keyEvent_other {op : Nat} (h : (s.keyBlock p).map keyOperation ≠ some op) : s.keyEvent p op = s := if_neg h
theorem keyEstablish_idle (h : (s.part p).state = .none ∨ (s.keyBlock p).map keyOperation ≠ some 1) : exec (.keyEstablish p) s = .next s :=
  next_of (h.elim (fun h => if_pos h) fun h => by rw [State.keyEvent_other h, ite_self])
theorem keyClear_idle (h : (s.part p).state = .none ∨ (s.keyBlock p).map keyOperation ≠ some 2) : exec (.keyClear p) s = .next s :=
  next_of (h.elim (fun h => if_pos h) fun h => by rw [State.keyEvent_other h, ite_self])
section
variable {b : List Byte} (hn : (s.part p).state ≠ .none) (hb : s.keyBlock p = some b)
include hn hb
theorem keyEstablish_requests (h : keyOperation b = 1) : exec (.keyEstablish p) s = .next (s.keyRequest p) :=
  next_of ((if_neg hn).trans (if_pos (by rw [hb, Option.map_some, h])))
theorem keyClear_requests (h : keyOperation b = 2) : exec (.keyClear p) s = .next (s.keyRequest p) :=
  next_of ((if_neg hn).trans (if_pos (by rw [hb, Option.map_some, h])))
end

theorem boardRelay_arrives {ch : Nat} (msg : List Byte) (hl : s.linkUp = true) (hc : ch < 16) :
    exec (.boardRelayObject ch msg) s = .next { s with relay := s.relay ++ [(ch, msg)] } :=
  next_of ((State.onLink_up _ hl).trans (if_pos hc))
theorem boardRelay_lost {ch : Nat} (msg : List Byte) (h : s.linkUp = false ∨ 16 ≤ ch) : exec (.boardRelayObject ch msg) s = .next s := by
  refine next_of ?_
  rcases h with h | h
  · exact State.onLink_down _ h
  · exact State.onLink_idle (if_neg (Nat.not_lt.mpr h))

/-- The answer of a board to a pending request (R447). -/
theorem boardResponse_pending {slot ch : Nat} (hp : (s.part p).ksPending = some (slot, ch)) (u : State) (hu : u = { s with relay := s.relay.filter fun x => x.1 != ch })
    (code : Nat) (key : BitVec 256) : exec (.boardResponse p code key) s =
    .next (if code = 3 ∨ code = 4 then (u.setPart p fun q => { q with ksPending := none }).keyStatus p code
      else if (s.part p).ksStep < 6 then (u.setPart p fun q => { q with ksStep := (s.part p).ksStep + 1 }).toBoard ch ((s.part p).ksStep + 1)
      else ((u.loadKey p slot (some key)).setPart p fun q => { q with ksPending := none }).keyStatus p 2) := by
  subst hu
  exact next_of (by simp only [hp]; rfl)
theorem boardResponse_unasked (code : Nat) (key : BitVec 256) (hp : (s.part p).ksPending = none) : exec (.boardResponse p code key) s = .next s :=
  next_of (by simp only [hp])

/-! ### The keys of the copy units (R379) -/

theorem Partition.mem_cores {q : Partition} {t : Nat} : t ∈ q.cores ↔ t < 96 ∧ q.ownsCore t = true := by
  simp [Partition.cores]
/-- A slot of a copy unit of the partition holds what has been loaded. -/
theorem State.loadKey_found {t : Nat} (slot : Nat) (key : Option (BitVec 256)) (ht : t < 96) (ho : (s.part p).ownsCore t = true) :
    ((s.loadKey p slot key).keys.find? fun x => x.1 == (t, slot)) = key.map fun k => ((t, slot), (k, p)) := by
  rw [load_keys]
  exact fold_in _ _ _ _ _ _ (.inl (Partition.mem_cores.mpr ⟨ht, ho⟩))
theorem State.loadKey_other {slot t n : Nat} (key : Option (BitVec 256)) (h : (s.part p).ownsCore t = false ∨ n ≠ slot) :
    ((s.loadKey p slot key).keys.find? fun x => x.1 == (t, n)) = s.keys.find? fun x => x.1 == (t, n) := by
  rw [load_keys]
  refine fold_other_key _ _ _ _ _ (fun a ha e => ?_) _
  obtain ⟨rfl, rfl⟩ := Prod.mk.inj e
  rcases h with h | h
  · rw [(Partition.mem_cores.mp ha).2] at h; cases h
  · exact h rfl
end

/-- Settles O60, clause by clause. That a block which cannot be read or names no operation gives code 5 (log entry 113), and that each of the six messages awaits
the answer to the one before it (log entry 153), are the model's choices. -/
theorem boardKeys : Obligations.BoardKeys := by
  refine ⟨fun s ch => boardRelay_arrives, fun s ch => boardRelay_lost, fun s p h => ?_, fun s p => keyEstablish_idle, fun s p => keyClear_idle,
    fun s p b slot ch hn hb hslot hch h => ?_, fun s p b slot hn hb hslot h => ?_, fun s u p slot ch code key hp hu => ?_, fun s p => boardResponse_unasked,
    fun s p slot k t n ht ho hn => ?_, fun s p slot k t n => State.loadKey_other k⟩
  · rcases h with h | ⟨b, hb, h⟩
    · exact State.keyRequest_unread h
    · exact State.keyRequest_neither hb h
  -- an establish
  · subst hslot hch
    rw [keyEstablish_requests hn hb h]
    refine ⟨fun hs hr hstop hp => ?_, fun hbar => ?_⟩
    · rw [State.keyRequest_establishes hb (Partition.mayKey_true hs hr hstop) h hp]
    · by_cases hbusy : (s.part p).ksPending.isSome = true
      · rw [State.keyRequest_establish_busy hb h hbusy]
      · rw [State.keyRequest_barred (Partition.mayKey_false (by simpa only [hbusy, Bool.false_eq_true, or_false] using hbar))]
  -- a clear
  · subst hslot
    rw [keyClear_requests hn hb h]
    refine ⟨fun hs hr hstop hp => ?_, fun ch hs hr hstop hp => ?_, fun x hx hp => ?_, fun hbar => ?_⟩
    · rw [State.keyRequest_clears hb (Partition.mayKey_true hs hr hstop) h hp]
    · rw [State.keyRequest_aborts hb (Partition.mayKey_true hs hr hstop) h hp rfl]
    · rw [State.keyRequest_clear_busy hb h hp hx]
    · rw [State.keyRequest_barred (Partition.mayKey_false hbar)]
  -- an answer
  · rw [boardResponse_pending hp u hu]
    refine ⟨fun hc => by rw [if_pos hc], fun h3 h4 hstep => ?_, fun h3 h4 hstep => ?_⟩
    · rw [if_neg (not_or.mpr ⟨h3, h4⟩), if_pos hstep]
    · rw [if_neg (not_or.mpr ⟨h3, h4⟩), if_neg (Nat.not_lt.mpr hstep)]
  -- the keys
  · subst hn
    exact ⟨State.loadKey_found _ (some k) ht ho, State.loadKey_found _ none ht ho⟩

end Sys2Proof.Machine
end

section
/-! SUPPORT. The host's view of the registers and the debug port (O38). -/

namespace Sys2Proof.Machine

/-! ### Host writes (R436, R437) -/

section
variable {s : State} {p n : Nat} {v : Word}

/-- A write that may be refused: performed where it is accepted, else dropped and counted. -/
theorem written_or_refused {o : Option State} :
    (∀ u, o = some u → o.getD (s.hostRefused 8) = u) ∧ (o = none → o.getD (s.hostRefused 8) = { s with hostErr := satAdd s.hostErr 1 }) := by
  refine ⟨fun u h => ?_, fun h => ?_⟩
  · rw [h]; rfl
  · rw [h]; rfl

theorem State.hostPart_absent (h : (s.part p).state = .none) : s.hostPart p n v = s := if_pos h
section
variable (h : (s.part p).state ≠ .none)
include h
theorem State.hostPart_locked (hl : (s.part p).isLocked n = true) : s.hostPart p n v = s.toError p := (if_neg h).trans (if_pos hl)
theorem State.hostPart_unlocked (hl : (s.part p).isLocked n = false) (hn : (shownNumber n || groupNumber n || tileNumber n) = false) :
    s.hostPart p n v = (s.partWrite 8 p n v).getD (s.hostRefused 8) :=
  (if_neg h).trans ((if_neg (Bool.eq_false_iff.mp hl)).trans (if_neg (Bool.eq_false_iff.mp hn)))
end

theorem lockedRegisterWrite_acts (hl : s.linkUp = true) (hp : p < 8) (h8 : 0x800 ≤ n) (hn : n < 0x1000) : exec (.lockedRegisterWrite p n v) s = .next (s.hostPart p n v) :=
  next_of ((State.onLink_up _ hl).trans (if_pos ⟨hp, h8, hn⟩))

section
variable {off : Nat} (hl : s.linkUp = true)
include hl

/-- A write of BAR 0 that is aligned and within it goes by its page (R436). -/
theorem hostRegisterWrite_page (ha : off % 4 = 0) (hb : off < 0x400000) : exec (.hostRegisterWrite off v) s =
    .next (if off < 0x10000 then s.hostPart (off / 0x2000) (0x800 + off % 0x2000 / 4) v
      else if 0x100000 ≤ off ∧ off < 0x100000 + 96 * 0x2000 then
        let n := 0x800 + off % 0x2000 / 4
        if tileNumber n then (s.tileWrite 8 ((off - 0x100000) / 0x2000) n v).getD (s.hostRefused 8) else s.hostRefused 8
      else if 0x200000 ≤ off then (s.deviceWrite ((off - 0x200000) / 4) v).getD (s.hostRefused 8)
      else s.hostRefused 8) :=
  next_of ((State.onLink_up _ hl).trans (if_neg (by simp [ha, hb])))
/-- A write at an offset of a tile page. -/
theorem hostRegisterWrite_tile {tile : Nat} (ha : off % 4 = 0) (ho : off < 0x2000) (ht : tile < 96) (hn : tileNumber (0x800 + off / 4) = true) :
    exec (.hostRegisterWrite (0x100000 + 0x2000 * tile + off) v) s = .next ((s.tileWrite 8 tile (0x800 + off / 4) v).getD (s.hostRefused 8)) := by
  have hpage : (0x100000 + 0x2000 * tile + off) % 0x2000 = off := by omega
  have htile : (0x100000 + 0x2000 * tile + off - 0x100000) / 0x2000 = tile := by omega
  rw [hostRegisterWrite_page hl (by omega) (by omega), if_neg (by omega), if_pos (by omega), hpage, htile]
  exact next_of (if_pos hn)
/-- A write at an offset of the device page. -/
theorem hostRegisterWrite_device {k : Nat} (hk : k < 0x80000) : exec (.hostRegisterWrite (0x200000 + 4 * k) v) s = .next ((s.deviceWrite k v).getD (s.hostRefused 8)) := by
  have hreg : (0x200000 + 4 * k - 0x200000) / 4 = k := by omega
  rw [hostRegisterWrite_page hl (by omega) (by omega), if_neg (by omega), if_neg (by omega), if_pos (by omega), hreg]
end
theorem hostRegisterWrite_lost {off : Nat} (h : s.linkUp = false ∨ off % 4 ≠ 0 ∨ 0x400000 ≤ off) : exec (.hostRegisterWrite off v) s = .next s := by
  refine next_of ?_
  rcases h with h | h
  · exact State.onLink_down _ h
  · exact State.onLink_idle (if_pos (by simpa using h))
end

/-! ### Host reads (R436) -/

section
variable {s : State} {p m : Nat}

/-- A read of a partition's page. -/
theorem State.hostRegister_part (hp : p < 8) (hm : m < 0x800) (hn : (shownNumber (0x800 + m) || groupNumber (0x800 + m) || tileNumber (0x800 + m)) = false) :
    s.hostRegister (0x2000 * p + 4 * m) = if (s.part p).state = .none then 0 else s.partReg p (0x800 + m) := by
  have hreg : (0x2000 * p + 4 * m) % 0x2000 / 4 = m := by omega
  have hpage : (0x2000 * p + 4 * m) / 0x2000 = p := by omega
  unfold State.hostRegister
  dsimp only
  rw [if_neg (by omega), if_pos (by omega), hreg, hpage]
  simp only [Bool.or_assoc] at hn ⊢
  simp [hn]
theorem State.hostRegister_tile {t : Nat} (ht : t < 96) (hm : m < 0x800) (hn : tileNumber (0x800 + m) = true) :
    s.hostRegister (0x100000 + 0x2000 * t + 4 * m) = s.tileReg t (0x800 + m) := by
  have hreg : (0x100000 + 0x2000 * t + 4 * m) % 0x2000 / 4 = m := by omega
  have htile : (0x100000 + 0x2000 * t + 4 * m - 0x100000) / 0x2000 = t := by omega
  unfold State.hostRegister
  dsimp only
  rw [if_neg (by omega), if_neg (by omega), if_pos (by omega), hreg, htile, if_pos hn]
theorem State.hostRegister_device (s : State) (k : Nat) : s.hostRegister (0x200000 + 4 * k) = s.deviceReg k := by
  have hreg : (0x200000 + 4 * k - 0x200000) / 4 = k := by omega
  unfold State.hostRegister
  dsimp only
  rw [if_neg (by omega), if_neg (by omega), if_neg (by omega), if_pos (by omega), hreg]

/-- A function shows its queue tails and its state. -/
theorem State.functionRegister_tail {n : Nat} (h : (s.part p).state ≠ .none) (hn : n < 4) : s.functionRegister p (4 * n) = s.partReg p (0x970 + n) := by
  obtain rfl | rfl | rfl | rfl : n = 0 ∨ n = 1 ∨ n = 2 ∨ n = 3 := by omega
  all_goals exact if_neg h
theorem State.functionRegister_beyond {off : Nat} (h : 0x10 < off) : s.functionRegister p off = 0 := by
  unfold State.functionRegister
  split
  · rfl
  · split
    case h_6 => rfl
    all_goals omega
end

/-! ### The debug port (R422, R448) -/

section
variable {s : State} {loc : Word} {n : BitVec 12} {g : Group} (hg : s.locate? loc = some g)
include hg
theorem debugPortRead_sealed (hs : (s.part g.part).isSealed = true) (hn : n.toNat < 0x800 ∨ shownNumber n.toNat = true ∨ groupNumber n.toNat = true) :
    exec (.debugPortRead loc n) s = .next { s with debugOut := some { data := 0, isSealed := true, group := g.index, path := bits loc 8 3, pc := 0, mask := 0 } } := by
  have hcontent : (decide (n.toNat < 0x800) || shownNumber n.toNat || groupNumber n.toNat) = true := by simpa [or_assoc] using hn
  refine next_of ?_
  simp only [hg, hs, hcontent, Option.map_some, Bool.and_self, if_true]
theorem debugPortRead_open (hs : (s.part g.part).isSealed = false) : exec (.debugPortRead loc n) s =
    .next { s with debugOut := some { data := (s.sysReg g n.toNat).setWidth 64, isSealed := false, group := g.index, path := bits loc 8 3
                                      pc := (g.path (bits loc 8 3)).pc, mask := (g.path (bits loc 8 3)).member } } := by
  refine next_of ?_
  simp only [hg, hs, Option.map_some, Bool.false_and, Bool.false_eq_true, if_false]
end

/-- Settles O38, clause by clause. That a write which names a partition that does not exist has no effect, and is not counted, is the model's choice (log entry
117). -/
theorem hostView : Obligations.HostView := by
  refine ⟨fun s p n v => lockedRegisterWrite_acts, fun s p n v hl => next_of (State.onLink_down _ hl), fun s off v hl ha ho => ?_,
    fun s off v n tile hl ha ho ht hn h => ?_, fun s off v => hostRegisterWrite_lost, fun s v hl => hostRegisterWrite_device hl (k := 0x10) (by decide), fun s k v hl hk => ?_,
    fun s v => ⟨rfl, rfl, fun h => if_neg h⟩, fun s p m hp hm hn => ?_, fun s t m => State.hostRegister_tile, State.hostRegister_device,
    fun s => ⟨rfl, rfl, rfl, rfl, rfl, rfl⟩, fun s p => ⟨fun h => ⟨fun n => State.functionRegister_tail h, if_neg h⟩, fun off => State.functionRegister_beyond⟩,
    fun s p n v => ⟨State.hostPart_absent, State.hostPart_locked, fun h hl hn => ?_⟩,
    fun s loc n g => debugPortRead_sealed, fun s loc n g => debugPortRead_open, fun s loc n h => next_of (by rw [h]; rfl)⟩
  · rw [hostRegisterWrite_page hl ha (by omega), if_pos ho]
  · subst hn
    rw [hostRegisterWrite_tile hl ha ho ht h]
    exact ⟨fun u hu => next_of (written_or_refused.1 u hu), fun hu => next_of (written_or_refused.2 hu)⟩
  · rw [hostRegisterWrite_device hl hk]
    exact ⟨fun u hu => next_of (written_or_refused.1 u hu), fun hu => next_of (written_or_refused.2 hu)⟩
  · rw [State.hostRegister_part hp hm hn]
    exact ⟨fun h => if_neg h, fun h => if_pos h⟩
  · rw [State.hostPart_unlocked h hl hn]
    exact written_or_refused

end Sys2Proof.Machine
end

section
/-! SUPPORT. The pools of the Quarry (O40). -/

namespace Sys2Proof.Machine

/-! ### QALLOC (R214) -/

theorem OwnV.congr {s t : State} {S S' : Nat → Word} {V V' : Nat → Nat → Word} {cm : DWord} (o : OwnV s t S V cm) (hS : ∀ n, S n = S' n)
    (hV : ∀ n k, V n k = V' n k) : OwnV s t S' V' cm :=
  { o with scalars := fun n => (o.scalars n).trans (hS n), vectors := fun n k => (o.vectors n k).trans (hV n k) }
/-- An instruction that writes a bit of CM before its vector results leaves that bit and those results. -/
theorem OwnV.after_bit {s u t : State} {S : Nat → Word} {V : Nat → Nat → Word} {b : Bool} {lat : Nat} (h : u.me = s.me)
    (o : OwnV (u.putCMBit 0 b lat) t S V (u.putCMBit 0 b lat).me.cm) : OwnV s t S V (s.cmWith 0 b) := by
  obtain ⟨l, e⟩ := putCMBit_me u 0 b lat
  rw [h] at e
  have hpc : (u.putCMBit 0 b lat).pc = s.pc := State.pc_congr (by rw [e]) (by rw [e])
  exact ⟨o.scalars, o.vectors, o.preds.trans (by rw [e]), o.cm.trans (by rw [e]; rfl), o.fpsf.trans (by rw [e]), o.gstat.trans (by rw [e]),
    o.streams.trans (by rw [e]), o.special.trans (by rw [e]; rfl), State.goesTo_congr (by rw [e]) (by rw [e]) (hpc ▸ o.goes)⟩
/-- QALLOC from an enabled pool writes each lane's block and whether one of them got none. -/
theorem qalloc_allocates {s : State} {d : BitVec 6} {u : Bool} {k : BitVec 11} {r : List (Nat × Nat) × State} {ws : Nat → List Word}
    (hok : (pr u d && small k 16) = true) (hc : s.clear u [] = true) (hp : (s.myPart.pool? k.toNat).isSome = true)
    (hrows : u = true ∨ State.rowsFor [] [d.toNat, d.toNat + 1] s = true)
    (hr : r = s.allocBlocks s.me.part k.toNat s.me.tile s.myTask.record.branch (s.askers u))
    (hws : ws = fun l => (((r.1.map fun x => (x.1, [BitVec.ofNat 32 x.2, BitVec.ofNat 32 (x.2 / 2 ^ 32)])).find? (·.1 == l)).map (·.2)).getD []) :
    ∃ t, exec (.qalloc d u k) s = .next t ∧ t.others = (r.2.acquire 3).others ∧
      OwnV s t (if u then s.scalarsWith [d.toNat, d.toNat + 1] (ws 64) else s.me.sreg) (if u then s.me.vlane else s.vectorsWith [d.toNat, d.toNat + 1] [] ws)
        (s.cmWith 0 (r.1.any fun x => x.2 == 0)) := by
  have hme : (r.2.acquire 3).me = s.me := (State.acquire_me ..).trans (hr ▸ allocBlocks_me ..)
  have hex : exec (.qalloc d u k) s = .next (((r.2.acquire 3).putCMBit 0 (r.1.any fun x => x.2 == 0) clsNONE).loaded u d.toNat 2 0 (s.askBeats u) s.active
      (r.1.map fun x => (x.1, [BitVec.ofNat 32 x.2, BitVec.ofNat 32 (x.2 / 2 ^ 32)]))) := by
    refine next_of ((State.checked_own hok hc (by simp)).trans ((withPool_some hp).trans ?_))
    rw [if_neg, hr]
    cases u with
    | true => exact Bool.false_ne_true
    | false => simpa using hrows
  have hfit := two_fit (Bool.and_eq_true_iff.mp hok).1
  obtain ⟨own, rest⟩ := loaded_own (q := (r.2.acquire 3).putCMBit 0 (r.1.any fun x => x.2 == 0) clsNONE) (u := u) (d := d.toNat) (n := 2)
    (beats := s.askBeats u) (act := s.active) (names := [d.toNat, d.toNat + 1]) (f := ws) rfl (fun h => by rwa [if_pos h] at hfit) (fun h => by rwa [if_neg (by simp [h])] at hfit) fun l => by rw [hws]
  refine ⟨_, hex, rest, (own.after_bit hme).congr (fun n => ?_) fun n l => ?_⟩
  · have hs : ((r.2.acquire 3).putCMBit 0 (r.1.any fun x => x.2 == 0) clsNONE).me.sreg n = s.me.sreg n := by rw [← hme]; rfl
    cases u with
    | true => exact State.scalarsWith_congr hs
    | false => exact hs
  · have hv : ((r.2.acquire 3).putCMBit 0 (r.1.any fun x => x.2 == 0) clsNONE).me.vlane n l = s.me.vlane n l := by rw [← hme]; rfl
    cases u with
    | true => exact hv
    | false =>
      simp only [Bool.false_eq_true, if_false, hv, State.vectorsWith, State.marks_nil, List.not_mem_nil]

/-! ### QFREE and QFREEL (R215, R336) -/

theorem State.giveBack_free {v : State} {p tile n : Nat} {bs : List Nat} (hp : v.me.part = p) (ht : v.me.tile = tile) (h : v.linkRefusal p bs = none) :
    v.giveBack n bs = v.setPool p n fun x => x.release tile bs := by
  subst hp ht
  unfold State.giveBack
  rw [h]
theorem State.giveBack_refused {v : State} {p n : Nat} {bs : List Nat} {x : Refuse} (hp : v.me.part = p) (h : v.linkRefusal p bs = some x) :
    v.giveBack n bs = (v.atelierFault p x true).putCMBit 0 true clsNONE := by
  subst hp
  unfold State.giveBack
  rw [h]
/-- QFREE of blocks of an enabled pool. -/
theorem qfree_eq {s r : State} {a : BitVec 6} {u : Bool} {k : BitVec 11} {bs : List Nat} {p : Pool} (hok : (pr u a && small k 16) = true)
    (hc : s.clear u [(srcA u a).use, ((srcA u a).plus 1).use] = true) (hr : r = s.seen (usesOf u [(srcA u a).use, ((srcA u a).plus 1).use]))
    (hbs : bs = ((r.askers u).map fun l => (r.dword (srcA u a) l).toNat).filter (· != 0)) (hp : r.myPart.pool? k.toNat = some p) :
    exec (.qfree a u k) s = .next (if p.owns bs then ((r.release 3).giveBack k.toNat bs).retire { beats := r.askBeats u }
      else r.fail { code := 0x03, mask := r.askMask u r.active }) := by
  refine next_of ((State.checked_clear hok hc).trans ?_)
  rw [show s.seen (if u = true then _ else _) = r from hr.symm, withPool_some (by rw [hp]; rfl), hp, hbs]
  rfl
/-- QFREEL of a list that can be walked. -/
theorem qfreel_eq {s q : State} {d a : BitVec 6} {k : BitVec 11} {bs : List Nat} {p : Pool} (hok : (even a && small k 16) = true)
    (hc : s.clear true [.s a.toNat, .s (a.toNat + 1)] = true) (hp : s.myPart.pool? k.toNat = some p)
    (hw : s.walkLinks 4096 (s.rpair a.toNat).toNat [] = (.blocks bs, q)) :
    exec (.qfreel d a k) s = .next (if p.owns bs then ((q.release 3).freeList k.toNat bs d).retire {} else s.raise { code := 0x03, mask := s.exm }) := by
  refine next_of ((checked_scalar hok hc rfl).trans ((withPool_some (by rw [hp]; rfl)).trans ?_))
  rw [hw, hp]
  rfl
/-- QFREEL of blocks that the pool owns frees them, or sets its bit of CM where a link of the list faults. -/
theorem qfreel_frees {s q : State} {d a : BitVec 6} {k : BitVec 11} {bs : List Nat} (hme : q.me = s.me)
    (he : exec (.qfreel d a k) s = .next (((q.release 3).freeList k.toNat bs d).retire {})) :
    ((q.release 3).linkRefusal s.me.part bs = none → Ends (.qfreel d a k) s ((q.release 3).setPool s.me.part k.toNat fun p => p.release s.me.tile bs)
        (S := s.scalarsWith [d.toNat] [BitVec.ofNat 32 bs.length]))
    ∧ ∀ x, (q.release 3).linkRefusal s.me.part bs = some x →
      Ends (.qfreel d a k) s ((q.release 3).atelierFault s.me.part x true) (S := s.scalarsWith [d.toNat] [0]) (cm := s.cmWith 0 true) := by
  have hq : (q.release 3).me = s.me := (State.release_me ..).trans hme
  have hpart : (q.release 3).me.part = s.me.part := congrArg Group.part hq
  unfold State.freeList at he
  refine ⟨fun h => ?_, fun x h => ?_⟩
  · rw [hpart, h, State.giveBack_free hpart (congrArg Group.tile hq) h] at he
    exact Ends.puts (ds := [_]) (ws := [_]) (.of_me ((setPool_me ..).trans hq)) (nodup_one _) rfl (reg_lt d) rfl he
  · rw [hpart, h, State.giveBack_refused hpart h] at he
    obtain ⟨own, rest⟩ := own_bit_put (s := s) (lat := clsNONE) (lat' := clsNONE) (d := {}) (n := d.toNat) (v := 0) ((atelierFault_me ..).trans hq) true d.isLt
    exact ⟨_, he, own, rest⟩

/-- Settles O40: each instruction on an enabled pool and on one that is not, and the two pool registers. That a block's link is an access to its first
8 bytes (log entry 138) is the model's choice; the pool that is left with nothing free is R336's. -/
theorem quarryPools : Obligations.QuarryPools := by
  refine ⟨fun s d u k n r ws hn hok hc hp hrows hr hws => ?_, fun s r a u k bs hok hc hr hbs p hp => ?_, fun s q d a k bs p hok hc hp hw => ?_,
    fun s d u k hp hok hc => ?_, fun s r a u k hok hc hr hp => ?_, fun s d a k hok hc hp => ?_, fun s p n => ⟨fun k h => ?_, fun h => ?_, rfl⟩⟩
  · subst hn
    exact qalloc_allocates hok hc hp hrows hr hws
  · have he := qfree_eq hok hc hr hbs hp
    have hme := r.release_me 3
    have hpart : (r.release 3).me.part = r.me.part := congrArg Group.part hme
    split
    next ho =>
      rw [if_pos ho] at he
      refine ⟨fun h => ⟨_, he, ?_⟩, fun x h => ⟨_, he, ?_⟩⟩
      · rw [State.giveBack_free hpart (congrArg Group.tile hme) h]
        exact ⟨State.retire_own_me ((setPool_me ..).trans hme) rfl, State.retire_others ..⟩
      · rw [State.giveBack_refused hpart h]
        exact ⟨own_bit ((atelierFault_me ..).trans hme) true, State.retire_others ..⟩
    next ho => exact he.trans (next_of (if_neg ho))
  · have he := qfreel_eq (d := d) hok hc hp hw
    have hme : q.me = s.me := (congrArg (·.2.me) hw).symm.trans (walkLinks_reaches ..).me
    split
    next ho => exact qfreel_frees hme (he.trans (next_of (if_pos ho)))
    next ho => exact he.trans (next_of (if_neg ho))
  · exact next_of ((State.checked_own hok hc (by simp)).trans (withPool_none hp))
  · refine next_of ((State.checked_clear hok hc).trans ?_)
    rw [show s.seen (if u = true then _ else _) = r from hr.symm, withPool_none hp]
  · exact next_of ((checked_scalar hok hc rfl).trans (withPool_none hp))
  · refine next_of ?_
    unfold State.poolEnable
    rw [h]
  · refine next_of ?_
    unfold State.poolEnable
    rw [h]

end Sys2Proof.Machine
end

section
/-! SUPPORT. The moulds (O41). -/

namespace Sys2Proof.Machine

/-! ### Waiting in an instruction that has left its group untouched -/

/-- The paths of an untouched group stand, with their lanes, where they stood. -/
theorem Untouched.path {s u : State} (h : Untouched s u) (hs : s.unspilled) :
    u.unspilled ∧ u.path.pc = s.path.pc ∧ u.path.member = s.path.member ∧ u.path.exm = s.path.exm := by
  have hp := State.unspilled_path hs
  have hsite := h.sites s.me.cur
  have hlane := h.lanes s.me.cur
  rw [hp] at hsite hlane
  obtain ⟨q, hq, e1⟩ := Option.map_eq_some_iff.mp hsite
  rw [hq] at hlane
  have hu : u.unspilled := by
    refine ⟨fun n hn => ?_, by rw [h.cur, hq]; rfl⟩
    have := h.sites n
    rw [hs.1 n hn] at this
    exact Option.map_eq_none_iff.mp this
  have hq' : u.path = q := Option.some.inj ((State.unspilled_path hu).symm.trans (h.cur ▸ hq))
  have e2 := Option.some.inj hlane
  exact ⟨hu, hq' ▸ congrArg Prod.fst e1, hq' ▸ congrArg Prod.fst e2, hq' ▸ congrArg Prod.snd e2⟩
theorem Untouched.block {s u : State} (h : Untouched s u) (w : Wait) : Blocks s (u.block w) w ∧ (u.block w).others = u.others := by
  obtain ⟨b, ho⟩ := State.block_blocks (s := u) rfl w
  refine ⟨⟨fun hs => ?_, b.scalars.trans h.sc, b.vectors.trans h.v, b.preds.trans h.p, b.cm.trans h.cm, b.fpsf.trans h.fpsf, b.gstat.trans h.gstat,
    b.streams.trans h.streams, b.special.trans h.special⟩, ho⟩
  obtain ⟨hu, hpc, hmember, hexm⟩ := h.path hs
  obtain ⟨p, hp, hw, h1, h2, h3⟩ := b.path hu
  exact ⟨p, h.cur ▸ hp, hw, h1.trans hpc, h2.trans hmember, h3.trans hexm⟩

/-! ### MFLUSH (R217) -/

theorem State.withMould_above {s : State} {n : Nat} {m : LaneMask} {f : State → State} (h : 63 < n) : s.withMould n m f = s.fail { code := 0x03, mask := m } :=
  if_pos h
theorem State.withMould_off {s : State} {n : Nat} {m : LaneMask} {f : State → State} (h : n ≤ 63) (he : (s.mould s.me.part n).enabled = false) :
    s.withMould n m f = s.fail { code := 0x0C, detail := 3, mask := m } :=
  (if_neg (Nat.not_lt.mpr h)).trans (if_neg (by simp [he]))
section
variable {s : State} {a : BitVec 6} {n : Nat} (hn : n = (s.rs a.toNat).toNat) (hc : s.clear true [.s a.toNat] = true)
include hn hc

theorem mflush_casts {k : Nat} (h : n ≤ 63) (he : (s.mould s.me.part n).enabled = true) (hf : (s.mould s.me.part n).filling = some k) :
    Ends (.mflush a) s (s.cast s.me.part n k).2 (cm := s.cmWith 0 (!(s.cast s.me.part n k).1)) := by
  subst hn
  refine Ends.bit (d := {}) (lat := clsNONE) (cast_untouched ..) rfl rfl (next_of ((checked_scalar rfl hc rfl).trans ((withMould_on h he).trans ?_)))
  rw [hf]
theorem mflush_empty (h : n ≤ 63) (he : (s.mould s.me.part n).enabled = true) (hf : (s.mould s.me.part n).filling = none) :
    Ends (.mflush a) s s (cm := s.cmWith 0 true) := by
  subst hn
  refine Ends.bit (d := {}) (lat := clsNONE) (.of_me rfl) rfl rfl (next_of ((checked_scalar rfl hc rfl).trans ((withMould_on h he).trans ?_)))
  rw [hf]
end

/-! ### MFILL (R216) -/

/-- The group after MFILL has done some lanes: `m` is the mask of the lanes that it remembers as done. -/
theorem Untouched.filled {r v q : State} (hv : v.me = r.me) (h : Untouched (v.withMe fun g => { g with fillDone := q.me.fillDone }) q) (m : LaneMask) :
    Untouched (r.withMe fun g => { g with fillDone := m }) (q.withMe fun g => { g with fillDone := m }) := by
  have hme : (v.withMe fun g => { g with fillDone := q.me.fillDone }).me = { r.me with fillDone := q.me.fillDone } := by rw [← hv]; rfl
  obtain ⟨h1, h2, h3, h4, h5, h6, h7, h8, h9, h10, h11⟩ := h
  rw [hme] at h1 h2 h3 h4 h5 h6 h7 h8 h9
  simp only [hme] at h10 h11
  exact ⟨h1, h2, h3, h4, h5, h6, h7, congrArg (fun g : Group => { g with fillDone := m }) h8, h9, h10, h11⟩
section
variable {s r : State} {d a b : BitVec 6} {uses : List Use} (hu : uses = [.s d.toNat, .v a.toNat, .v (a.toNat + 1), .v b.toNat])
  (hok : (vpair a && vr b) = true) (hc : s.clear false uses = true) (hr : r = s.seen (.exm :: uses))
include hu hok hc hr

theorem mfill_eq {n : Nat} {left : List Nat} {as ps : List Access} {q : Bool × State} (hn : n = (r.rs d.toNat).toNat) (h63 : n ≤ 63)
    (he : (r.mould r.me.part n).enabled = true) (hl : left = lanesOf (r.active &&& ~~~r.me.fillDone))
    (has : as = left.map fun k => ({ lane := k, va := (r.dword (.v a.toNat) k).toNat, size := (r.mould r.me.part n).rowSize } : Access))
    (hps : ps = r.placed (r.groupAgent r.me) .load as) (hm : r.mayAccess true .load 4 as true = true) (hq : q = (r.entered true ps).fillLanes n a b left) :
    exec (.mfill d a b) s = .next (if q.1 then (q.2.withMe fun g => { g with fillDone := g.fillDone &&& ~~~r.active }).retire { beats := beatsOf r.active }
      else q.2.block (.mouldTile n)) := by
  subst hu hn hl has
  refine next_of ((State.checked_clear hok hc).trans ?_)
  rw [if_neg Bool.false_ne_true, ← hr]
  refine (withMould_on h63 he).trans ((State.accesses_go hm).trans ?_)
  rw [← hps, ← hq]
theorem mfill_mould {n : Nat} {x : State} (hn : n = (r.rs d.toNat).toNat) (h : ∀ f, r.withMould n r.active f = x) : exec (.mfill d a b) s = .next x := by
  subst hu hn
  refine next_of ((State.checked_clear hok hc).trans ?_)
  rw [if_neg Bool.false_ne_true, ← hr]
  exact h _
theorem mfill_refused {n : Nat} (hn : n = (r.rs d.toNat).toNat) :
    (63 < n → exec (.mfill d a b) s = .next (r.fail { code := 0x03, mask := r.active }))
    ∧ (n ≤ 63 → (r.mould r.me.part n).enabled = false → exec (.mfill d a b) s = .next (r.fail { code := 0x0C, detail := 3, mask := r.active })) :=
  ⟨fun h => mfill_mould hu hok hc hr hn fun _ => State.withMould_above h, fun h hoff => mfill_mould hu hok hc hr hn fun _ => State.withMould_off h hoff⟩
end
/-- MFILL completes when it has placed its lanes; else it waits for a tile, and remembers the lanes it has done. -/
theorem mfill_settles {s r v : State} {d a b : BitVec 6} {n : Nat} {left : List Nat} {q : Bool × State} {beats : Nat} (hv : v.me = r.me) (hq : q = v.fillLanes n a b left)
    (he : exec (.mfill d a b) s = .next (if q.1 then (q.2.withMe fun g => { g with fillDone := g.fillDone &&& ~~~r.active }).retire { beats := beats }
      else q.2.block (.mouldTile n))) :
    if q.1 then ∃ t, exec (.mfill d a b) s = .next t ∧ Own r t r.me.sreg r.me.cm { r.me with fillDone := q.2.me.fillDone &&& ~~~r.active } ∧ t.others = q.2.others
    else ∃ t, exec (.mfill d a b) s = .next t ∧ Blocks r t (.mouldTile n) { r.me with fillDone := q.2.me.fillDone } ∧ t.others = q.2.others := by
  have hkeeps : Untouched (v.withMe fun g => { g with fillDone := q.2.me.fillDone }) q.2 := hq ▸ fillLanes_keeps n a b left v
  split
  next h =>
    rw [if_pos h] at he
    obtain ⟨o1, o2, o3, o4, o5, o6, o7, o8, o9⟩ := (hkeeps.filled hv (q.2.me.fillDone &&& ~~~r.active)).retire (d := { beats := beats }) rfl
    exact ⟨_, he, ⟨o1, o2, o3, o4, o5, o6, o7, o8, o9⟩, State.retire_others ..⟩
  next h =>
    rw [if_neg h] at he
    obtain ⟨⟨b1, b2, b3, b4, b5, b6, b7, b8, b9⟩, ho⟩ := (hkeeps.filled hv q.2.me.fillDone).block (.mouldTile n)
    exact ⟨_, he, ⟨b1, b2, b3, b4, b5, b6, b7, b8, b9⟩, ho⟩

/-! ### The rows of a filling tile -/

theorem State.fillLanes_none {s : State} {n lane : Nat} {a b : BitVec 6} {ls : List Nat} (h : (s.mould s.me.part n).filling = none) :
    s.fillLanes n a b (lane :: ls) = (false, s) := by
  unfold State.fillLanes
  dsimp only
  rw [h]
theorem State.fillLanes_some {s u : State} {n lane k va : Nat} {a b : BitVec 6} {ls : List Nat} {m : Mould} (hm : s.mould s.me.part n = m)
    (hf : m.filling = some k) (hva : va = (s.dword (.v a.toNat) lane).toNat) (hu : u = s.drainRange s.me.part s.me.team va m.rowSize) :
    s.fillLanes n a b (lane :: ls) = ((u.placeRow n k ((u.places (u.groupAgent u.me) .load va m.rowSize).flatMap fun x => u.readBytes (u.groupAgent u.me) x.1 x.2)
      (s.me.vlane b.toNat lane)).withMe fun g => { g with fillDone := g.fillDone ||| (1 <<< lane) }).fillLanes n a b ls := by
  subst hm hva hu
  rw [State.fillLanes]
  dsimp only
  rw [hf]

/-! ### Opening and closing (R280, R289) -/

theorem mouldEnable_opens {s : State} {p n : Nat} {m : Mould} (h : s.openMould p n = some m) : exec (.mouldEnable p n) s = .next (s.setPart p fun q =>
    { q with moulds := put n m q.moulds }.noteCtl 0x861 (BitVec.ofNat 32 (n % 64)) false) := by
  refine next_of ?_
  unfold State.mouldEnable
  rw [h]
theorem mouldEnable_refused {s : State} {p n : Nat} (h : s.openMould p n = none) : exec (.mouldEnable p n) s = .next (s.setPart p fun q =>
    (q.mouldOff n).noteCtl 0x861 (BitVec.ofNat 32 (n % 64)) true) := by
  refine next_of ?_
  unfold State.mouldEnable
  rw [h]
theorem mouldDisable_idle {s : State} {p n : Nat} (h : s.mouldBusy p n = false) : exec (.mouldDisable p n) s = .next (s.setPart p fun q =>
    (q.mouldOff n).noteCtl 0x861 (BitVec.ofNat 32 (n % 64 + 256)) false) := by
  refine next_of ?_
  unfold State.mouldDisable
  rw [h]
theorem mouldDisable_busy {s : State} {p n : Nat} {m : Mould} (h : s.mouldBusy p n = true) (hm : look n (s.part p).moulds = some m) :
    exec (.mouldDisable p n) s = .next (s.setPart p fun q =>
      { q with moulds := put n { m with closing := true } q.moulds }.noteCtl 0x861 (BitVec.ofNat 32 (n % 64 + 256)) false) := by
  refine next_of ?_
  unfold State.mouldDisable
  exact State.setPart_congr (by rw [h, hm])

/-! ### Consumers (R281, R454) -/

section
variable {s v : State} {p n k : Nat} (hv : v = s.setMould p n fun m => m.setTile k fun t => { t with held := false })
  (hroom : s.queueRoom p = true)
include hv hroom

theorem launchConsumer_launches {t : MouldTile} {bs : List Byte} {r : TaskRecord} {l : Lists} {x : State × Nat} (ht : t = (s.mould p n).tile k)
    (hb : v.atelierRead p (s.mould p n).tmpl.toNat 64 = .ok bs) (hr : v.readTask p bs = some (r, l))
    (hx : x = v.accept p { record := { r with args := BitVec.ofNat 64 ((s.mould p n).image k), parent := t.caster, branch := if r.branch = 0 then t.branch else r.branch },
                           kind := .consumer n k, fromTile := some t.fromTile, fromCluster := t.fromCluster } l) :
    s.launchConsumer p n k = x.1.setMould p n fun m => m.setTile k fun t => { t with consumer := some x.2 } := by
  subst ht hv hx
  simp only [State.launchConsumer, hroom, Bool.not_true, Bool.false_eq_true, if_false, hb, hr]
theorem launchConsumer_illegal {bs : List Byte} (hb : v.atelierRead p (s.mould p n).tmpl.toNat 64 = .ok bs) (hr : v.readTask p bs = none) :
    s.launchConsumer p n k = v.launchFault p (s.mould p n).tmpl.toNat none := by
  subst hv
  simp only [State.launchConsumer, hroom, Bool.not_true, Bool.false_eq_true, if_false, hb, hr]
theorem launchConsumer_unread {e : Refuse} (hb : v.atelierRead p (s.mould p n).tmpl.toNat 64 = .error e) :
    s.launchConsumer p n k = v.launchFault p (s.mould p n).tmpl.toNat (some e) := by
  subst hv
  simp only [State.launchConsumer, hroom, Bool.not_true, Bool.false_eq_true, if_false, hb]
end

/-- Settles O41: MFLUSH and MFILL by the mould that their register names, a row and the lanes of a fill one by one, the mould registers and the held
consumers. -/
theorem moulds : Obligations.Moulds := by
  refine ⟨fun s a n hn hc h63 he => ⟨mflush_empty hn hc h63 he, fun k => mflush_casts hn hc h63 he⟩, fun s a n hn hc h => ?_, fun s a n hn hc h hoff => ?_,
    fun s r d a b uses n left as ps q hu hok hc hr hn h63 he hl has hps hm hq => ?_, fun s r d a b uses n hu hok hc hr hn => mfill_refused hu hok hc hr hn,
    fun s n a b => ⟨rfl, fun lane ls => ⟨State.fillLanes_none, fun k m va u hm hf hva hu => State.fillLanes_some hm hf hva hu⟩⟩,
    fun s w u n k bs tag m i hm hi hw hu => ?_,
    fun s p n => ⟨fun m => mouldEnable_opens, mouldEnable_refused, mouldDisable_idle, fun h m _ hm => mouldDisable_busy h hm⟩, fun s u p m hu => ?_,
    fun s v p n k t ht hv hroom => ⟨fun bs r l x hb hr hx => launchConsumer_launches hv hroom ht hb hr hx, fun bs hb hr => launchConsumer_illegal hv hroom hb hr,
      fun e hb => launchConsumer_unread hv hroom hb⟩⟩
  · subst hn
    exact next_of ((checked_scalar rfl hc rfl).trans (State.withMould_above h))
  · subst hn
    exact next_of ((checked_scalar rfl hc rfl).trans (State.withMould_off h hoff))
  · have hme : (r.entered true ps).me = r.me := (State.entered_within (W := fun _ => True) true ps fun _ _ _ _ => trivial).1.me
    exact mfill_settles hme hq (mfill_eq hu hok hc hr hn h63 he hl has hps hm hq)
  · subst hm hi hw hu
    rfl
  · subst hu
    rfl

end Sys2Proof.Machine
end

section
/-! SUPPORT. Instructions that enter the queue of the matrix engine (O42). -/

namespace Sys2Proof.Machine

/-! ### GANG (R191) -/

theorem gang_settles {s : State} {a : BitVec 6} {w : BitVec 2}
    (hok : (decide ((gangMembers (s.rs a.toNat)).length ≤ 6) && decide ((s.rs a.toNat).toNat < 2 ^ s.myTeam.groups)) = true) (hc : s.clear true [.s a.toNat] = true) :
    if s.myTeam.latch = [] then Ends (.gang a w) s (s.setMyTeam fun t => { t with gang := s.rs a.toNat }) else WaitsFor (.gang a w) s s .gangLatchFree := by
  split
  next h => exact matrix_ends (d := { stall := stallOf w }) rfl rfl (next_of ((checked_scalar hok hc rfl).trans (if_neg (not_not.mpr h))))
  next h => exact matrix_waits rfl (next_of ((checked_scalar hok hc rfl).trans (if_pos h)))

/-! ### Drains (R201, R202) -/

theorem drain_eq {s : State} {a : BitVec 6} {d : DrainDesc} (hok : even a = true) (hc : s.clear true [.s a.toNat, .s (a.toNat + 1)] = true)
    (hp : s.myTeam.matPoisoned = none) (hd : s.readDrain none (s.rpair a.toNat).toNat = .ok d) : exec (.drain a) s = .next (s.queueOp (.drainMem d) {}) := by
  refine next_of ((checked_scalar hok hc rfl).trans ((orPoison_none hp).trans ?_))
  rw [hd]
/-- An operation whose result the instruction waits for enters a queue that has room. -/
theorem queueAndWait_waits {i : Instr} {s : State} {k : MatKind} (hq : s.queueFull = false) (he : exec i s = .next (s.queueAndWait k)) :
    WaitsFor i s (s.enqueue k) (.matrixDone (s.enqueue k).myTeam.matSeq) :=
  matrix_waits rfl (he.trans (next_of (if_neg (by simp [hq]))))
/-- DRAIN to registers without an answer, its descriptor legal and rows to be had for its registers. -/
theorem drainReg_eq {s : State} {d a : BitVec 6} {x : DrainDesc} {first : Nat} (ha : s.answer = none) (hw : s.awaiting = false) (hok : (vr d && even a) = true)
    (hc : s.clear false [.s a.toNat, .s (a.toNat + 1)] = true) (hp : s.myTeam.matPoisoned = none)
    (hd : s.readDrain (some d.toNat) (s.rpair a.toNat).toNat = .ok x) (hf : first = (s.gangOf.map fun g => g.2 * s.me.width.lanes).getD 0)
    (hrows : State.rowsFor [] ((List.range x.regs).map (d.toNat + ·)) s = true) :
    exec (.drainReg d a) s = .next (s.queueAndWait (.drainReg x s.me.seq s.me.cur
      ((lanesOf s.active).filterMap fun l => if first + l < x.rows then some (l, first + l) else none))) := by
  subst hf
  show execDrainReg d a s = _
  unfold execDrainReg
  rw [ha, hw]
  refine next_of ((if_neg Bool.false_ne_true).trans ((checked_exm hok hc rfl).trans ((orPoison_none hp).trans ?_)))
  rw [hd]
  dsimp only
  rw [hrows]
  rfl
/-- TST without an answer, with a row to be had for its register. -/
theorem tst_eq {s : State} {d a b : BitVec 6} {q : BitVec 4} {i c : Bool} (ha : s.answer = none) (hw : s.awaiting = false)
    (hok : (vr d && small a 8 && decide (s.sliceIndex b q ≤ 31)) = true) (hc : s.clear false [.s b.toNat] = true) (hp : s.myTeam.matPoisoned = none)
    (hrows : State.rowsFor [] [d.toNat] s = true) :
    exec (.tst d a b q i c) s = .next (s.queueAndWait (.tst a.toNat c i (s.sliceIndex b q) s.me.seq s.me.cur s.tileLanes)) := by
  show execTst d a b q i c s = _
  unfold execTst
  rw [ha, hw]
  refine next_of ((if_neg Bool.false_ne_true).trans ((checked_exm hok hc rfl).trans ((orPoison_none hp).trans ?_)))
  rw [hrows]
  rfl
/-- An instruction that has its answer takes the result (R202, R204). -/
theorem result_taken {s : State} {x : Instr} {n : Nat} {data : List Word} {d a b : BitVec 6} {q : BitVec 4} {i c : Bool} (ha : s.answer = some (n, data))
    (hx : x = .drainReg d a ∨ x = .tst d a b q i c) : exec x s = .next (s.takeResult d.toNat n data) := by
  obtain rfl | rfl := hx
  · show execDrainReg d a s = _
    unfold execDrainReg
    rw [ha]
  · show execTst d a b q i c s = _
    unfold execTst
    rw [ha]

/-! ### Tile registers and MMWAIT (R197, R200, R204) -/

theorem tld_eq {s r : State} {d a b : BitVec 6} {q : BitVec 4} {i c : Bool} (hok : (small d 8 && vr a && decide (s.sliceIndex b q ≤ 31)) = true)
    (hc : s.clear false [.s b.toNat, .v a.toNat] = true) (hr : r = s.seen [.exm, .s b.toNat, .v a.toNat]) (hp : r.myTeam.matPoisoned = none) (hq : r.queueFull = false) :
    exec (.tld d a b q i c) s = .next ((r.enqueue (.tld d.toNat c i (r.sliceIndex b q) (r.tileLanes.map fun l => (l, r.me.vlane a.toNat l)))).retire
      { beats := beatsOf r.active }) := by
  refine next_of ((State.checked_clear hok hc).trans ?_)
  rw [if_neg Bool.false_ne_true, ← hr]
  exact (orPoison_none hp).trans (if_neg (by simp [hq]))
/-- MMWAIT waits for the operations up to the newest at its issue. -/
theorem mmwait_eq {s : State} {w : BitVec 2} {n : Nat} (hc : s.clear true [] = true) (hn : s.path.wait = none ∧ n = s.myTeam.matSeq ∨ s.path.wait = some (.matrixDone n)) :
    exec (.mmwait w) s = .next (if s.myTeam.matQueue.any (fun m => decide (m.seq ≤ n)) then s.block (.matrixDone n)
      else s.orPoison s.exm fun s => (s.acquire 1).retire { stall := stallOf w }) := by
  refine next_of ((checked_scalar rfl hc rfl).trans ?_)
  obtain ⟨hw, rfl⟩ | hw := hn
  · rw [hw]
  · rw [hw]

/-- Settles O42: the three K-steps are one form, and the other instructions queue an operation, wait for its result, or wait for the queue. -/
theorem matrixIssue : Obligations.MatrixIssue := by
  refine ⟨kstep_ok _ _ fun _ _ _ _ => rfl, kstep_ok _ _ fun _ _ _ _ => rfl, kstep_ok _ _ fun _ _ _ _ => rfl, fun s a w hok hc => gang_settles hok hc,
    fun s a d hok hc hp hd => queueOp_form rfl (drain_eq hok hc hp hd),
    fun s d a x first ha hw hok hc hp hd hf hrows hq => queueAndWait_waits hq (drainReg_eq ha hw hok hc hp hd hf hrows),
    fun s n data ls d a b q i c ha hrows hls h48 x hx => ?_, fun s d a b q i c r hok hc hr hp hq => ?_,
    fun s d a b q i c ha hw hok hc hp hrows hq => queueAndWait_waits hq (tst_eq ha hw hok hc hp hrows),
    fun s d a b hok hc => queueOp_form rfl (next_of (checked_scalar hok hc rfl)),
    fun s d w hc => ⟨fun hok => queueOp_form (d := { stall := stallOf w }) rfl (next_of (checked_scalar hok hc rfl)),
      queueOp_form (d := { stall := stallOf w }) rfl (next_of (checked_scalar rfl hc rfl))⟩, fun s w n hc hn => ?_⟩
  · obtain ⟨own, rest⟩ := takeResult_own hrows hls h48
    exact ⟨_, result_taken ha hx, rest, own⟩
  · exact ⟨_, tld_eq hok hc hr hp hq, State.retire_own_me rfl rfl, State.retire_others ..⟩
  · split
    next h => exact matrix_waits rfl ((mmwait_eq hc hn).trans (next_of (if_pos h)))
    next h =>
      exact fun hp => matrix_ends (d := { stall := stallOf w }) (s.acquire_me 1) rfl ((mmwait_eq hc hn).trans (next_of ((if_neg h).trans (orPoison_none hp))))

end Sys2Proof.Machine
end

section
/-! SUPPORT. The elements that a dense K-step writes, each once (O43). -/

namespace Sys2Proof.Machine

/-- The element that a dense K-step writes in a row, whose slice is given, and the column that B's column `j` falls on (R195). -/
def Team.dense (t : Team) (read : Nat → Nat → Nat) (zero : Bool) (f : FormatBlock) (fa fb : MatFmt) (row : Nat) (slice : List Word) (j : Nat) : BitVec 40 × Nat :=
  let hA := if fa.isBx then read (f.aHdr + 2 * (row - f.orgRow)) 2 else 0
  let hB := if fb.isBx then read (f.bHdr + 2 * j) 2 else 0
  let a := (elements fa.bits (leNat (slice.flatMap fun w => leBytes 4 w.toNat))).map (fa.value hA)
  let b := (elements fb.bits (read (f.bOff + j * f.bStr) (4 * fb.bits))).map (fb.value hB)
  let old := if zero then 0 else t.element row (f.orgCol + j)
  if fa.isInt then stepInt old a b else stepFloat old.toNat a b
/-- All the elements that a dense K-step writes, with their places. -/
def Team.denseWrites (t : Team) (read : Nat → Nat → Nat) (zero : Bool) (f : FormatBlock) (fa fb : MatFmt) (rows : List (Nat × List Word)) :
    List ((Nat × Nat) × BitVec 40) :=
  rows.flatMap fun r => (List.range f.n).map fun j => ((r.1, f.orgCol + j), (t.dense read zero f fa fb r.1 r.2 j).1)
theorem mem_denseWrites {t : Team} {read : Nat → Nat → Nat} {zero : Bool} {f : FormatBlock} {fa fb : MatFmt} {rows : List (Nat × List Word)} {v : (Nat × Nat) × BitVec 40} :
    v ∈ t.denseWrites read zero f fa fb rows ↔
      ∃ row slice j, (row, slice) ∈ rows ∧ j < f.n ∧ v = ((row, f.orgCol + j), (t.dense read zero f fa fb row slice j).1) := by
  simp only [Team.denseWrites, List.mem_flatMap, List.mem_map, List.mem_range, Prod.exists]
  constructor
  · rintro ⟨row, slice, hr, j, hj, rfl⟩; exact ⟨row, slice, j, hr, hj, rfl⟩
  · rintro ⟨row, slice, j, hr, hj, rfl⟩; exact ⟨row, slice, hr, j, hj, rfl⟩
/-- With no soft error standing, a dense K-step writes its elements and leaves the queue. -/
theorem performStep_dense {s : State} {id : Nat} {zero : Bool} {f : FormatBlock} {rows : List (Nat × List Word)} {seen : List Host.Cell} {fa fb : MatFmt} (he : s.errors = [])
    (ha : matFmt f.fmtA = some fa) (hb : matFmt f.fmtB = some fb) :
    ∃ fl, s.performStep id zero false f rows seen
      = (s.writeElements id ((s.team id).denseWrites ((s.team id).engineNat seen s.free) zero f fa fb rows) fl).setTeam id fun t =>
          { t with spStep := 0, matQueue := t.matQueue.drop 1 } := by
  have hn : sliceRegs f.fmtB = fb.bits := by simp [sliceRegs, hb]
  unfold State.performStep
  rw [ha, hb]
  dsimp only
  rw [he, if_neg (by simp), if_neg (by simp)]
  generalize orFlags _ ||| _ = fl
  refine ⟨fl, ?_⟩
  simp only [Bool.not_false, Bool.true_or, List.filter_true, Bool.false_and, if_false, Bool.false_eq_true]
  congr 2
  unfold Team.denseWrites
  rw [List.map_flatMap]
  refine congrArg (List.flatMap · rows) (funext fun r => ?_)
  rw [List.map_map, List.map_map]
  refine List.map_congr_left fun j _ => ?_
  simp only [FormatBlock.column, hn, Function.comp_apply, Bool.not_false, if_true]
  rfl
/-- A row that a list of named rows holds determines its slice. -/
theorem slice_unique {rows : List (Nat × List Word)} (hn : (rows.map (·.1)).Nodup) {row : Nat} {x y : List Word} (hx : (row, x) ∈ rows) (hy : (row, y) ∈ rows) : x = y := by
  have h := List.inj_on_of_nodup_map hn hx hy rfl
  exact (Prod.mk.inj h).2
/-- What a dense K-step leaves: each of its elements, and every other element as it was. -/
theorem dense_elements {t : Team} {read : Nat → Nat → Nat} {zero : Bool} {f : FormatBlock} {fa fb : MatFmt} {rows : List (Nat × List Word)}
    (hn : (rows.map (·.1)).Nodup) (hc : f.orgCol + f.n ≤ 128) :
    (∀ row slice j, (row, slice) ∈ rows → j < f.n →
      ((t.denseWrites read zero f fa fb rows).foldl (fun t v => t.setElement v.1.1 v.1.2 v.2) t).element row (f.orgCol + j) = (t.dense read zero f fa fb row slice j).1)
    ∧ ∀ row col, col < 128 → (row ∉ rows.map (·.1) ∨ col < f.orgCol ∨ f.orgCol + f.n ≤ col) →
      ((t.denseWrites read zero f fa fb rows).foldl (fun t v => t.setElement v.1.1 v.1.2 v.2) t).element row col = t.element row col := by
  constructor
  · intro row slice j hr hj
    refine fold_at _ _ _ _ _ ?_ ⟨_, mem_denseWrites.mpr ⟨row, slice, j, hr, hj, rfl⟩, rfl⟩
    intro v hv hk
    obtain ⟨row', slice', j', hr', hj', rfl⟩ := mem_denseWrites.mp hv
    dsimp only at hk ⊢
    obtain ⟨rfl, rfl⟩ : row' = row ∧ j' = j := by omega
    rw [slice_unique hn hr' hr]
  · intro row col hcol h
    refine fold_other _ _ _ _ ?_
    intro v hv hk
    obtain ⟨row', slice', j', hr', hj', rfl⟩ := mem_denseWrites.mp hv
    dsimp only at hk
    obtain ⟨rfl, rfl⟩ : row' = row ∧ f.orgCol + j' = col := by omega
    rcases h with h | h | h
    · exact h (List.mem_map.mpr ⟨_, hr', rfl⟩)
    · omega
    · omega
theorem kstep_performs (s : State) (id : Nat) (m : MatOp) (ms : List MatOp) (zero : Bool) (f : FormatBlock) (rows : List (Nat × List Word)) (fa fb : MatFmt)
    (hi : (s.team? id).isSome = true) (ht : s.matrixTurn (s.team id) = true) (hq : (s.team id).matQueue = m :: ms) (hk : m.kind = .kstep zero false f rows) (he : s.errors = [])
    (ha : matFmt f.fmtA = some fa) (hb : matFmt f.fmtB = some fb) :
    ∃ t fl, exec (.matrixOperation id) s = .next t ∧ t.me = s.me
      ∧ t.team id = { ((s.team id).denseWrites ((s.team id).engineNat m.seen s.free) zero f fa fb rows).foldl (fun t v => t.setElement v.1.1 v.1.2 v.2) (s.team id) with
          msf := (s.team id).msf ||| BitVec.ofNat 32 fl, spStep := 0, matQueue := ms } := by
  obtain ⟨fl, hp⟩ := performStep_dense (id := id) (zero := zero) (rows := rows) (seen := m.seen) he ha hb
  have hm : s.performMatrix id = s.performStep id zero false f rows m.seen := by
    unfold State.performMatrix
    dsimp only; rw [hq]; dsimp only; rw [hk]
  obtain ⟨hw, hwi, hwm⟩ := write_team ((s.team id).denseWrites ((s.team id).engineNat m.seen s.free) zero f fa fb rows) fl hi he
  refine ⟨_, fl, matrix_performs ht, ?_, ?_⟩
  · rw [hm, hp]; exact hwm
  · have h3 := (team_setTeam (f := fun t : Team => { t with spStep := 0, matQueue := t.matQueue.drop 1 }) hwi fun _ => rfl).1
    rw [last_team, hm, hp, h3, hw]
    dsimp only
    rw [(foldl_id _ _).2, hq]; rfl


/-! TORG and TZERO of all (R203). -/

theorem performMatrix_torg {s : State} {id n r c : Nat} {m : MatOp} {ms : List MatOp} (hq : (s.team id).matQueue = m :: ms) (hk : m.kind = .torg n r c) (hn : n < 8) :
    s.performMatrix id = (s.setTeam id fun t => { t with origins := t.origins.set n (r, c) }).popMatrix id := by
  unfold State.performMatrix
  dsimp only
  rw [hq]
  dsimp only
  rw [hk]
  simp only [hn, dite_true]
/-- TZERO of all makes the words of its accumulators sound, clears them and leaves the queue. -/
theorem performMatrix_tzeroAll {s : State} {id : Nat} {m : MatOp} {ms : List MatOp} (hq : (s.team id).matQueue = m :: ms) (hk : m.kind = .tzeroAll) :
    ∃ es, s.performMatrix id = (State.setTeam { s with errors := es } id fun t => { t with acc := [] }).popMatrix id := by
  unfold State.performMatrix
  dsimp only
  rw [hq]
  dsimp only
  rw [hk]
  exact ⟨_, rfl⟩
theorem popMatrix_setTeam {s : State} {id : Nat} {f : Team → Team} (hi : (s.team? id).isSome = true) (hf : ∀ t, (f t).id = t.id) :
    ((s.setTeam id f).popMatrix id).team id = { f (s.team id) with matQueue := (f (s.team id)).matQueue.drop 1 } := by
  obtain ⟨h1, h2⟩ := team_setTeam (f := f) hi hf
  rw [State.popMatrix, (team_setTeam (f := fun t : Team => { t with matQueue := t.matQueue.drop 1 }) h2 fun _ => rfl).1, h1]

/-- Settles O43: of the operation at the head of a team's queue, where the team has its turn. A row and a column below 128 name their element alone, so a dense
K-step writes each of its elements once. -/
theorem matrixOperation : Obligations.MatrixOperation := by
  unfold Obligations.MatrixOperation
  refine ⟨?_, ?_, ?_, ?_⟩
  · intro s id m ms zero f rows fa fb read hi ht hq hk he ha hb hn hc hr
    subst hr
    obtain ⟨t, fl, ex, hme, hte⟩ := kstep_performs s id m ms zero f rows fa fb hi ht hq hk he ha hb
    obtain ⟨hin, hout⟩ := dense_elements (t := s.team id) (read := (s.team id).engineNat m.seen s.free) (zero := zero) (fa := fa) (fb := fb) hn hc
    refine ⟨t, ex, hme, by rw [hte], ?_, ?_⟩
    · rintro row slice j hA hB hrow hj rfl rfl
      rw [hte]; exact hin row slice j hrow hj
    · intro row col hcol h
      rw [hte]; exact hout row col hcol h
  · intro s id ht
    show Host.Outcome.next (if s.matrixTurn (s.team id) = true then _ else s) = _
    rw [ht]; rfl
  · intro s id m ms n r c hi ht hq hk hn
    refine ⟨_, matrix_performs ht, ?_, ?_, ?_⟩ <;> rw [last_team, performMatrix_torg hq hk hn, popMatrix_setTeam (f := fun t => { t with origins := t.origins.set n (r, c) }) hi fun _ => rfl]
    · simp
    · dsimp only; rw [hq]; rfl
  · intro s id m ms hi ht hq hk
    obtain ⟨es, hp⟩ := performMatrix_tzeroAll hq hk
    refine ⟨_, matrix_performs ht, ?_, fun row col => ?_⟩ <;> rw [last_team, hp, popMatrix_setTeam (s := { s with errors := es }) (f := fun t => { t with acc := [] }) hi fun _ => rfl]
    · exact congrArg (List.drop 1) hq
    · rfl

end Sys2Proof.Machine
end

section
/-! SUPPORT. Chains handed to the engines, and futures (O44). -/

namespace Sys2Proof.Machine

/-! ### ENGQ (R208) -/

theorem setEngine_me (s : State) (n : Nat) (f : Engine → Engine) : (s.setEngine n f).me = s.me := by
  unfold State.setEngine
  split <;> rfl
/-- A parameter block that lies within the scratchpad window. -/
theorem engq_within {va size : Nat} (hlow : scrBase ≤ va) (hhigh : va + 128 ≤ scrBase + size) :
    ¬ (decide (va < scrBase) || decide (scrBase + size < va + 128)) = true := by
  simp only [Bool.or_eq_true, decide_eq_true_eq]
  omega
section
variable {s : State} {d a : BitVec 6} {e : BitVec 3} (hok : (even a && small e 7) = true) (hc : s.clear true [.s a.toNat, .s (a.toNat + 1)] = true)
include hok hc

theorem engq_outside (h : (s.rpair a.toNat).toNat < scrBase ∨ scrBase + s.myTeam.scr * 1024 < (s.rpair a.toNat).toNat + 128) :
    exec (.engq d a e) s = .next (s.raise { code := 0x05, mask := s.exm, vaddr := s.rpair a.toNat }) :=
  next_of ((checked_scalar hok hc rfl).trans (if_pos (by simpa using h)))

section
variable {va : DWord} {u : State} {n : Nat} (hva : va = s.rpair a.toNat) (hlow : scrBase ≤ va.toNat) (hhigh : va.toNat + 128 ≤ scrBase + s.myTeam.scr * 1024)
  (halign : va.toNat % 128 = 0) (hu : u = s.release 3) (hn : n = u.engineOf s.me.part e.toNat)
include hva hlow hhigh halign hu hn

theorem engq_queues {k : Nat} (hk : (List.range 64).find? (fun k => (u.myTeam.future k).state == .free) = some k)
    (hroom : (u.queueOf s.me.part n).length < 64) (hs : u.struck 8 s.me.tile (u.myTeam.futureWord k) = false) :
    Ends (.engq d a e) s ((u.setMyTeam fun t => t.setFuture k fun f => { f with state := .pending, word := 0, jobs := 0, firstBad := 0 }).setEngine n fun e =>
        { e with chains := e.chains ++ [{ team := u.myTeam.id, part := s.me.part, future := k, ptr := va }] })
      (S := s.scalarsWith [d.toNat] [BitVec.ofNat 32 ((u.myTeam.future k).gen * 64 + k)]) (cm := s.cmWith 0 false) := by
  have hme : u.me = s.me := hu ▸ s.release_me 3
  refine Ends.putsBit (ds := [_]) (ws := [_]) (lat := clsNONE) (lat' := clsNONE) (d := {}) (.of_me ((setEngine_me ..).trans hme)) (nodup_one _) rfl (reg_lt d) rfl rfl
    (next_of ((checked_scalar hok hc rfl).trans ?_))
  rw [← hva, if_neg (engq_within hlow hhigh), if_neg (not_not.mpr halign), ← hu]
  dsimp only
  rw [hme, ← hn, hk, decide_eq_true hroom]
  refine (useEntry_ok (s := u) (k := k) (by rw [hme]; exact hs)).trans ?_
  rw [hme]
  rfl
theorem engq_turned_away (h : (List.range 64).find? (fun k => (u.myTeam.future k).state == .free) = none ∨ 64 ≤ (u.queueOf s.me.part n).length) :
    Ends (.engq d a e) s u (S := s.scalarsWith [d.toNat] [0]) (cm := s.cmWith 0 true) := by
  have hme : u.me = s.me := hu ▸ s.release_me 3
  refine Ends.putsBit (ds := [_]) (ws := [_]) (lat := clsNONE) (lat' := clsNONE) (d := {}) (.of_me hme) (nodup_one _) rfl (reg_lt d) rfl rfl
    (next_of ((checked_scalar hok hc rfl).trans ?_))
  rw [← hva, if_neg (engq_within hlow hhigh), if_neg (not_not.mpr halign), ← hu]
  dsimp only
  rw [hme, ← hn]
  obtain hnone | hfull := h
  · rw [hnone]
    rfl
  · rw [decide_eq_false (Nat.not_lt.mpr hfull)]
    cases (List.range 64).find? fun k => (u.myTeam.future k).state == .free <;> rfl
end
end

/-! ### Futures (R207, R209) -/

theorem State.reported_me (s : State) (c : Nat) : (s.reported c).me = s.me := by
  unfold State.reported
  split
  · rfl
  · exact s.acquire_me 3
section
variable {s : State} {a : BitVec 6} {f : Nat → Nat → State → State} {g : State → State}

theorem State.onFuture_invalid (h : s.myTeam.named (s.rs a.toNat) = none) : s.onFuture a g f = g s := by
  unfold State.onFuture
  rw [h]
theorem State.onFuture_named {k : Nat} (h : s.myTeam.named (s.rs a.toNat) = some k) (hs : s.struck 8 s.me.tile (s.myTeam.futureWord k) = false) :
    s.onFuture a g f = f k (s.myTeam.future k).state.code s := by
  unfold State.onFuture
  rw [h]
  exact useEntry_ok hs
end

/-- Settles O44: ENGQ by where its block lies and what is free, the future instructions by whether their handle names an entry and by its state. -/
theorem futures : Obligations.Futures := by
  refine ⟨fun s d a e va u n hok hc hva hlow hhigh halign hu hn => ⟨fun k hk hroom hs => engq_queues hok hc hva hlow hhigh halign hu hn hk hroom hs,
    fun h => engq_turned_away hok hc hva hlow hhigh halign hu hn h⟩, fun s d a e hok hc h => engq_outside hok hc h,
    fun s d a w hc hn => ⟨?_, ?_, ?_, fun hd => ?_⟩, fun s d a w k c hc hn hs hcode => ?_⟩
  · exact Ends.puts (ds := [_]) (ws := [_]) (.of_me rfl) (nodup_one _) rfl (reg_lt d) rfl (next_of ((checked_scalar rfl hc rfl).trans (State.onFuture_invalid hn)))
  · exact Ends.putsBit (ds := [_]) (ws := [_]) (.of_me rfl) (nodup_one _) rfl (reg_lt d) rfl rfl
      (next_of ((checked_scalar rfl hc rfl).trans (State.onFuture_invalid hn)))
  · exact Ends.of (.of_me rfl) rfl (next_of ((checked_scalar rfl hc rfl).trans (State.onFuture_invalid hn)))
  · exact Ends.puts (ds := [_, _]) (ws := [_, _]) (.of_me rfl) (nodup_two _) rfl (pair_lt hd) rfl (next_of ((checked_scalar hd hc rfl).trans (State.onFuture_invalid hn)))
  · have h5 : c ≠ 5 := hcode ▸ named_code hn
    have hgo {f : Nat → Nat → State → State} {g : State → State} : s.onFuture a g f = f k c s := (State.onFuture_named hn hs).trans (by rw [hcode])
    have hrep (r : State) (h0 : c ≠ 0) : r.acquire 3 = r.reported c := ((reported_eq h5).trans (if_neg h0)).symm
    refine ⟨?_, ?_, ?_, fun hd => ?_⟩
    · split
      next h0 => exact WaitsFor.of rfl (next_of ((checked_scalar rfl hc rfl).trans (hgo.trans (if_pos h0))))
      next h0 =>
        rw [hrep s h0]
        exact Ends.puts (ds := [_]) (ws := [_]) (d := { stall := stallOf w }) (.of_me (s.reported_me c)) (nodup_one _) rfl (reg_lt d) rfl
          (next_of ((checked_scalar rfl hc rfl).trans (hgo.trans (if_neg h0))))
    · rw [← reported_eq h5]
      exact Ends.putsBit (ds := [_]) (ws := [_]) (.of_me (s.reported_me c)) (nodup_one _) rfl (reg_lt d) rfl rfl
        (next_of ((checked_scalar rfl hc rfl).trans hgo))
    · refine Ends.of (.of_me ?_) rfl (next_of ((checked_scalar rfl hc rfl).trans hgo))
      split
      · exact cancelFuture_me ..
      · rfl
    · split
      next h0 => exact WaitsFor.of rfl (next_of ((checked_scalar hd hc rfl).trans (hgo.trans (if_pos h0))))
      next h0 =>
        rw [hrep _ h0]
        exact Ends.puts (ds := [_, _]) (ws := [_, _]) (d := { stall := stallOf w }) (.of_me (State.reported_me _ c)) (nodup_two _) rfl (pair_lt hd) rfl
          (next_of ((checked_scalar hd hc rfl).trans (hgo.trans (if_neg h0))))

end Sys2Proof.Machine
end

section
/-! SUPPORT. Child tasks, branches, the completion of tasks and early commit (O45). -/

namespace Sys2Proof.Machine

section
variable {s : State} {d a : BitVec 6} {w : BitVec 2}

/-! ### SPAWN (R211) -/

/-- SPAWN of a legal record comes to whether the partition has room for the task. -/
theorem spawn_eq {x : Access} {ps : List Access} {n v : State} {bs : List Byte} {k : TaskRecord} {l : Lists} (hok : even a = true)
    (hc : s.clear true [.s a.toNat, .s (a.toNat + 1)] = true) (hx : x = { lane := 64, va := (s.rpair a.toNat).toNat, size := 64 })
    (hps : ps = s.placed (s.groupAgent s.me) .load [x]) (hm : s.mayAccess false .load 64 [x] true = true) (hn : n = s.entered false ps)
    (hv : (bs, v) = (n.release 3).loadAccess (n.groupAgent n.me) false (ps.headD x)) (hk : v.readTask s.me.part bs = some (k, l)) :
    v.me = s.me ∧ exec (.spawn d a w) s = .next (
      let y := if v.queueRoom s.me.part then
          v.accept s.me.part { record := { k with parent := s.me.task, branch := if k.branch = 0 then v.myTask.record.branch else k.branch },
                               fromTile := some s.me.tile, fromCluster := v.myTeam.tiles } l
        else (v, 0)
      ((y.1.putS d.toNat (BitVec.ofNat 32 y.2) clsNONE).putCMBit 0 (y.2 == 0) clsNONE).retire { stall := stallOf w }) := by
  have hme : v.me = s.me := calc
    v.me = (n.release 3).me := (congrArg (fun z : List Byte × State => z.2.me) hv).trans (loadAccess_me ..)
    _ = n.me := n.release_me 3
    _ = s.me := hn ▸ (State.entered_weak (fun _ => True) 0 s ps).1.me
  refine ⟨hme, next_of ((checked_scalar hok hc rfl).trans ?_)⟩
  dsimp only
  rw [← hx, State.accesses_go hm, ← hps, ← hn, ← hv]
  dsimp only
  rw [hme, hk]
  dsimp only
  cases v.queueRoom s.me.part <;> rfl

/-! ### CWAIT (R212) -/

theorem State.waitedTasks_none (h : s.path.wait = none) : s.waitedTasks = none := by
  unfold State.waitedTasks
  rw [h]
theorem State.waitedTasks_some {ids : List Nat} (h : s.path.wait = some (.tasks ids)) : s.waitedTasks = some ids := by
  unfold State.waitedTasks
  rw [h]

/-! ### CANCEL (R213) -/

theorem cancel_eq {b : Nat} (hb : b = bits (s.rs a.toNat) 0 16) (hc : s.clear true [.s a.toNat] = true) (h0 : b ≠ 0) :
    exec (.cancel a w) s = .next ((s.retire { stall := stallOf w }).cancelBranch s.me.part b) := by
  subst hb
  exact next_of (checked_scalar (bne_iff_ne.mpr h0) hc rfl)
theorem State.retire_part (d : Done) (p : Nat) : (s.retire d).part p = s.part p :=
  congrArg (fun ps : Vector Partition 8 => ps[p]?.getD {}) (congrArg State.parts (s.retire_others d) :)
theorem State.cancelBranch_nothing {p b : Nat} (h : (s.part p).tasks.any (fun k => k.reachable && k.record.branch == b) = false) : s.cancelBranch p b = s :=
  if_neg (by rw [h]; exact Bool.false_ne_true)
end

/-- Settles O45: SPAWN by whether the partition has room, CWAIT by the tasks that its path waits for, and the rest by what it is to act on. Two clauses are the model's
choices: CANCEL of a branch with no task to cancel leaves all as it is, its blocks and moulds too (of the readings of log entry 77 the one without effect), and an early
commit of a scan-gated version waits for the scans of its cores (log entry 150). -/
theorem tasksAndBranches : Obligations.TasksAndBranches := by
  refine ⟨fun s d a w x ps n u bs v k l hok hc hx hps hm hn hu hv hk => ?_, fun s w ids hc h => ?_, fun s a w ids hc h => ?_, fun s a w hc hw hno => ?_,
    fun s a w b hb hc => ⟨fun h0 => ?_, cancel_eq hb hc, fun h0 hno => ?_⟩, fun s p id k hk => ⟨fun h => ?_, fun h hu u hu' => ?_⟩, fun s p id k hk => ?_⟩
  · subst hu
    obtain ⟨hme, he⟩ := spawn_eq (d := d) (w := w) hok hc hx hps hm hn hv hk
    split
    next hroom =>
      rintro y rfl
      rw [if_pos hroom] at he
      exact Ends.putsBit (ds := [_]) (ws := [_]) (d := { stall := stallOf w }) (.of_me ((accept_me ..).trans hme)) (nodup_one _) rfl (reg_lt d) rfl rfl he
    next hfull =>
      rw [if_neg hfull] at he
      exact Ends.putsBit (ds := [_]) (ws := [_]) (d := { stall := stallOf w }) (.of_me hme) (nodup_one _) rfl (reg_lt d) rfl rfl he
  · refine awaitTasks_ok (w := w) (next_of ((checked_scalar rfl hc rfl).trans ?_))
    obtain ⟨hw, rfl⟩ | hw := h
    · rw [State.waitedTasks_none hw]; rfl
    · rw [State.waitedTasks_some hw]; rfl
  · refine awaitTasks_ok (w := w) (next_of ((checked_scalar rfl hc rfl).trans ?_))
    obtain ⟨hw, hchild, rfl⟩ | hw := h
    · rw [State.waitedTasks_none hw]; exact if_pos hchild
    · rw [State.waitedTasks_some hw]
  · refine Ends.bit (lat := clsNONE) (d := { stall := stallOf w }) (.of_me (s.acquire_me 3)) rfl rfl (next_of ((checked_scalar rfl hc rfl).trans ?_))
    rw [State.waitedTasks_none hw]
    dsimp only
    rw [hno]
    rfl
  · exact next_of (State.checked_refused (by rw [← hb, h0]; rfl))
  · have he := cancel_eq (w := w) hb hc h0
    rw [State.cancelBranch_nothing (by rw [State.retire_part]; exact hno)] at he
    exact Ends.of (.of_me rfl) rfl he
  · refine next_of ?_
    unfold State.completeTask
    rw [hk]
    dsimp only
    rw [h]
    rfl
  · subst hu'
    refine next_of ?_
    unfold State.completeTask
    rw [hk]
    dsimp only
    rw [h, hu]
    rfl
  · refine next_of ?_
    rw [hk]

end Sys2Proof.Machine
end

section
/-! SUPPORT. Deadlines and the steps of an unveiling (O46). -/

namespace Sys2Proof.Machine

section
variable {s : State}

/-! ### Fires (R282) -/

theorem State.fire_starts {p source : Nat} (hs : (s.part p).stopping = false) (hu : (s.part p).unveiling = none) :
    s.fire p source = (((s.setPart p fun q => { q with
      armed := false, remaining := 0, fired := true, unveils := q.unveils + 1
      unveiling := some { step := 1, cause := source, period := s.refs,
                          branches := ((((s.part p).tasks.filter fun k => k.reachable && k.record.cancd).map (·.record.branch)).filter (· != 0)).eraseDups } }).markDying p
        fun k => k.reachable && k.record.cancd).flushDying).finishCancels := by
  unfold State.fire
  rw [hs, hu]
  rfl
theorem State.fire_stopping {p source : Nat} (hs : (s.part p).stopping = true) : s.fire p source = s.setPart p fun q => { q with armed := false } :=
  if_pos hs
theorem State.fire_during {p source : Nat} {u : Unveiling} (hs : (s.part p).stopping = false) (hu : (s.part p).unveiling = some u) :
    s.fire p source = s.setPart p fun q => { q with unveiling := some (
      if u.period = s.refs then { u with cause := if u.cause = source then u.cause else 3 } else { u with extra := min (u.extra + 1) 0xFFFF }) } := by
  unfold State.fire
  rw [hs, hu]
  rfl

/-! ### Step 5: what the unveiling captures (R283, R284) -/

variable {p : Nat} {u : Unveiling}

theorem State.capture_waits (h : s.captureDue p = false) : s.capture p = s := by
  unfold State.capture
  rw [h]
  cases (s.part p).unveiling <;> rfl
theorem State.captureDue_slot {j : Nat} (hu : (s.part p).unveiling = some u) (h5 : u.step = 5) (hj : (s.part p).captureSlot = some j)
    (h : s.passing 0 = j ∨ (s.part p).reg2 0x853 = 0) : s.captureDue p = true := by
  unfold State.captureDue
  rw [hu, hj]
  obtain rfl | h := h
  · simp [h5]
  · simp [h5, h]
theorem State.captureDue_unmapped (hu : (s.part p).unveiling = some u) (h5 : u.step = 5) (hj : (s.part p).captureSlot = none) : s.captureDue p = true := by
  unfold State.captureDue
  rw [hu, hj]
  simp [h5]
theorem State.capture_takes (hu : (s.part p).unveiling = some u) (h5 : u.step = 5) (h : s.captureDue p = true) : s.capture p = s.captureSlotNow p := by
  unfold State.capture
  rw [hu]
  dsimp only
  rw [h, if_pos h5]
  rfl
theorem Partition.captureSlot_designated {q : Partition} {j : Nat} (h : q.captureSlot = some j) : q.designated = true := by
  unfold Partition.captureSlot at h
  split at h
  · assumption
  · cases h
theorem Slot.bytes_length (x : Slot) : x.bytes.length = 64 := by
  simp [Slot.bytes, List.length_flatMap, leBytes]
theorem State.struck_clean (he : s.errors = []) (k t a : Nat) : s.struck k t a = false := by
  simp [State.struck, he]
/-- With no soft error standing, a slot's payload and header are captured as they are. -/
theorem State.captureSlotNow_slot {j : Nat} (hj : (s.part p).captureSlot = some j) (he : s.errors = []) :
    s.captureSlotNow p = s.setUnveiling p fun u => { u with
      step := 6, base := (s.part p).reg2 0x853, image := (s.slot j).bytes ++ leBytes 8 (s.slot j).header.toNat, status := 0 } := by
  have hpay : (((s.slot j).bytes.zip (List.range 64)).map fun b => if s.struck 7 0 (j * 8 + b.2 / 8) then Config.struckByte (s.free * 64 + b.2) else b.1)
      = (s.slot j).bytes := by
    simp only [State.struck_clean he, Bool.false_eq_true, if_false]
    exact List.map_fst_zip (by simp [Slot.bytes_length])
  have hmark : ((List.range 8).foldl (fun (s : State) k => if s.struck 7 0 (j * 8 + k) then s.unattributed p 7 0 0x7F 0 else s) s) = s := by
    simp [List.range_succ, State.struck_clean he]
  unfold State.captureSlotNow
  dsimp only
  rw [hj]
  dsimp only
  rw [hpay, Partition.captureSlot_designated hj]
  cases (s.part p).reg2 0x853 with
  | zero => rfl
  | succ n => exact congrArg (fun r : State => r.setUnveiling p _) hmark
theorem State.captureSlotNow_unmapped (hj : (s.part p).captureSlot = none) : s.captureSlotNow p = s.setUnveiling p fun u => { u with
    step := 6, base := (s.part p).reg2 0x853, image := List.replicate 72 0, status := if (s.part p).designated then 2 else 1 } := by
  unfold State.captureSlotNow
  dsimp only
  rw [hj]
  dsimp only
  cases (s.part p).reg2 0x853 <;> cases (s.part p).designated <;> rfl

/-! ### Step 6: the record, the vector, the handler (R284, R285) -/

theorem State.writeResult_ok {v : State} (h : u.base = 0 ∧ v = s ∨ u.base ≠ 0 ∧ s.atelierWrite p u.base (s.resultRecord p u) = .ok v) :
    s.writeResult p u = (v.setUnveiling p fun u => { u with written := true }).msi (p + 1) 0 := by
  unfold State.writeResult
  obtain ⟨h0, rfl⟩ | ⟨h0, hv⟩ := h
  · rw [if_pos h0]
  · rw [if_neg h0, hv]
theorem State.writeResult_faults {e : Refuse} (h0 : u.base ≠ 0) (h : s.atelierWrite p u.base (s.resultRecord p u) = .error e) :
    s.writeResult p u = (((s.atelierFault p e true).setUnveiling p fun u => { u with failed := true }).setUnveiling p fun u => { u with written := true }).msi (p + 1) 0 := by
  unfold State.writeResult
  rw [if_neg h0, h]
/-- The record of step 6 is written once the starting period is over; what remains is the handler's launch, once there is room for it. -/
theorem State.capture_writes (hu : (s.part p).unveiling = some u) (h6 : u.step = 6) (hw : u.written = false) (hr : s.refs ≠ u.period) :
    s.capture p = (let w := s.writeResult p u
      if w.taskRoom || (w.part p).reg2 0x855 == 0 then w.launchUnveil p (if (((w.part p).unveiling).map (·.failed)).getD false then 0 else u.base) else w) := by
  have hdue : s.captureDue p = true := by
    unfold State.captureDue
    rw [hu]
    simp [h6, hw, hr]
  unfold State.capture
  rw [hu]
  dsimp only
  rw [hdue, hw, h6]
  rfl
theorem State.launchUnveil_none {n : Nat} (h : (s.part p).reg2 0x855 = 0) : s.launchUnveil p n = s.endUnveiling p := if_pos h
end

/-- Settles O46: the two instructions, the three sources of a fire by what it meets, and the unveiling step by step. That the record waits until the starting period
is over (log entry 146) and the handler for room among the tasks (log entry 88) are the model's choices; that a fire after a stop has begun only disarms is R439's. -/
theorem deadlines : Obligations.Deadlines := by
  refine ⟨?_, ?_, ?_, ?_, ?_, ?_, ?_, ?_, ?_, ?_, ?_, ?_, ?_⟩
  · intro s a b w hc
    split
    next h => exact Ends.of (d := { stall := stallOf w }) (.of_me (setPart_me ..)) rfl (next_of (checked_scalar (decide_eq_true h) hc rfl))
    next h => exact next_of (State.checked_refused (decide_eq_false h))
  · intro s d w hd hc
    exact Ends.puts (ds := [_, _]) (ws := [_, _]) (d := { stall := stallOf w }) (lat := clsNONE) (.of_me rfl) (nodup_two _) rfl (pair_lt hd) rfl
      (next_of (checked_scalar hd hc rfl))
  · refine fun s p => ⟨fun ha h0 => next_of (if_pos (by simp [ha, h0])), fun h => next_of (if_neg ?_), fun h => next_of (if_pos h), fun h => next_of (if_neg h), rfl⟩
    obtain h | h := h <;> simp [h]
  · rintro s p source mine u rfl hs hu rfl
    exact State.fire_starts hs hu
  · exact fun s p source hs => State.fire_stopping hs
  · exact fun s p source u hs hu => State.fire_during hs hu
  · rintro s p u x y hu h1 hf rfl rfl
    refine next_of ?_
    rw [hu]
    dsimp only
    rw [h1, hf]
    rfl
  · intro s p h
    refine next_of ?_
    obtain hu | ⟨u, hu, h⟩ := h
    · rw [hu]
    · rw [hu]
      exact if_neg (by simpa using h.resolve_left ∘ not_not_intro)
  · exact fun s p h => next_of (State.capture_waits h)
  · exact fun s p u j hu h5 hj h he => next_of ((State.capture_takes hu h5 (State.captureDue_slot hu h5 hj h)).trans (State.captureSlotNow_slot hj he))
  · exact fun s p u hu h5 hj => next_of ((State.capture_takes hu h5 (State.captureDue_unmapped hu h5 hj)).trans (State.captureSlotNow_unmapped hj))
  · intro s v w p u hu h6 hw hr hv hww
    have hcap := State.capture_writes hu h6 hw hr
    rw [State.writeResult_ok hv, ← hww] at hcap
    dsimp only at hcap
    refine ⟨fun h0 => next_of ?_, fun h0 hroom => next_of ?_, fun bs r l x h0 hroom hf hb hk hx => next_of ?_⟩
    · rw [hcap, h0, if_pos (by simp), State.launchUnveil_none h0]
    · rw [hcap, hroom, if_neg (by simpa using h0)]
    · rw [hcap, hroom, hf]
      subst hx
      unfold State.launchUnveil
      dsimp only
      rw [if_neg h0, hb]
      dsimp only
      rw [hk]
      rfl
  · rintro s p u e hu h6 hw hr hb he w rfl h0
    refine next_of ?_
    rw [State.capture_writes hu h6 hw hr, State.writeResult_faults hb he]
    dsimp only
    rw [h0, if_pos (by simp), State.launchUnveil_none h0]

end Sys2Proof.Machine
end

section
/-! SUPPORT. The Turntable: its instructions, and what a station performs (O47). -/

namespace Sys2Proof.Machine

section
variable {s : State}

/-! ### What an operation takes from registers -/

theorem State.rs_congr {u : State} (hm : u.me = s.me) (hn : u.now = s.now) (n : Nat) : u.rs n = s.rs n := by
  unfold State.rs
  rw [hm, hn]
theorem State.rpair_congr {u : State} (hm : u.me = s.me) (hn : u.now = s.now) (n : Nat) : u.rpair n = s.rpair n := by
  unfold State.rpair
  rw [State.rs_congr hm hn, State.rs_congr hm hn]
theorem State.rblock_congr {u : State} (hm : u.me = s.me) (hn : u.now = s.now) (b : Nat) : u.rblock b = s.rblock b :=
  List.map_congr_left fun _ _ => State.rpair_congr hm hn _
theorem blockUse_scalar (b : BitVec 6) (n : Nat) : (blockUse b n).all (fun x => !x.isVector) = true := by
  simp [blockUse, Use.isVector]

theorem scalars_append {n : Nat} {us vs : List Use} (hu : us.all (fun x => !x.isVector) = true) (hv : vs.all (fun x => !x.isVector) = true) :
    (Use.s n :: us ++ vs).all (fun x => !x.isVector) = true := by
  rw [List.all_append, hv, Bool.and_true]
  exact hu

/-! ### TTWAIT (R226) -/

theorem ttwait_eq {a : BitVec 6} (hc : s.clear true [.s a.toNat] = true) (h64 : (s.rs a.toNat).toNat < 64) (hv : (look (s.rs a.toNat).toNat s.myPart.vslots).isSome = true) :
    exec (.ttwait a) s = .next (match look (s.rs a.toNat).toNat s.me.ttLast with
      | some (_, c) => if s.now < c + 192 then s.block (.ringPass (c + 192)) else s.retire {}
      | none => s.retire {}) :=
  next_of ((checked_scalar (decide_eq_true h64) hc rfl).trans (if_neg (by simp [Option.isSome_iff_ne_none.mp hv])))

/-! ### What a station performs (R220 to R225) -/

variable {st j : Nat} {o : TTOp} {os : List TTOp}

theorem State.ttPerform_waits (h : s.ttDue st = false) : s.ttPerform st = s := by
  unfold State.ttPerform
  rw [h]
  cases s.station st <;> rfl
theorem State.ttSlot_mapped (hb : ∀ k, o.kind ≠ .board k) : s.ttSlot st o = look o.vslot (s.part o.part).vslots := by
  unfold State.ttSlot
  cases hk : o.kind with
  | board k => exact absurd hk (hb k)
  | _ => rfl
section
variable (h : s.station st = o :: os)
include h

theorem State.ttDue_unmapped (hb : ∀ k, o.kind ≠ .board k) (hl : look o.vslot (s.part o.part).vslots = none) : s.ttDue st = true := by
  unfold State.ttDue
  rw [h]
  dsimp only
  rw [State.ttSlot_mapped hb, hl]
  cases hk : o.kind with
  | board k => exact absurd hk (hb k)
  | _ => rfl
theorem State.ttPerform_unmapped (hb : ∀ k, o.kind ≠ .board k) (hl : look o.vslot (s.part o.part).vslots = none) :
    s.ttPerform st = (s.ttPop st).grant o.group o.path 3 [] := by
  unfold State.ttPerform
  rw [h]
  dsimp only
  rw [State.ttDue_unmapped h hb hl, State.ttSlot_mapped hb, hl]
  cases hk : o.kind with
  | board k => exact absurd hk (hb k)
  | _ => rfl

/-! Operations on a mapped slot that passes. -/

section
variable (hd : s.ttDue st = true) (hj : s.ttSlot st o = some j)
include hd hj

theorem State.ttPerform_struck (hb : ∀ k, o.kind ≠ .board k) (hs : s.ttStruck j o.kind = true) : s.ttPerform st = (s.ttPop st).grant o.group o.path 7 [] := by
  unfold State.ttPerform
  rw [h]
  dsimp only
  rw [hd, hj, if_neg (by decide)]
  cases hk : o.kind with
  | board k => exact absurd hk (hb k)
  | _ =>
    rw [hk] at hs
    exact if_pos hs
section
variable (hs : s.ttStruck j o.kind = false)
include hs

theorem State.ttPerform_read {header : Bool} (hk : o.kind = .read header) : s.ttPerform st
    = ((s.ttPop st).ttNote o o.vslot st).grant o.group o.path 0 (wordsOf64 (if header then [(s.slot j).header] else (s.slot j).payload.toList)) := by
  unfold State.ttPerform
  rw [h]
  dsimp only
  rw [hd, hj, hk, if_neg (by decide)]
  rw [hk] at hs
  cases header <;> exact if_neg (by rw [hs]; exact Bool.false_ne_true)
theorem State.ttPerform_cas {w : Nat} {old new : DWord} (hk : o.kind = .cas w old new) : s.ttPerform st
    = (if (s.slot j).word w = old then ((s.ttPop st).ttNote o o.vslot st).setSlot j fun x => x.setWord w new st else (s.ttPop st).ttNote o o.vslot st).grant
        o.group o.path (if (s.slot j).word w = old then 0 else 1) (wordsOf64 [(s.slot j).word w]) := by
  unfold State.ttPerform
  rw [h]
  dsimp only
  rw [hd, hj, hk, if_neg (by decide)]
  rw [hk] at hs
  dsimp only
  rw [hs]
  simp only [beq_iff_eq]
  rfl
theorem State.ttPerform_add {w : Nat} {c : Bool} {v : DWord} (hk : o.kind = .add w c v) : s.ttPerform st
    = (((s.ttPop st).ttNote o o.vslot st).setSlot j fun y =>
        y.setWord w (if c then BitVec.ofNat 64 (pairStep ((s.slot j).word w).toNat (bits v 0 32)) else (s.slot j).word w + v) st).grant
          o.group o.path 0 (wordsOf64 [(s.slot j).word w]) := by
  unfold State.ttPerform
  rw [h]
  dsimp only
  rw [hd, hj, hk, if_neg (by decide)]
  rw [hk] at hs
  exact if_neg (by rw [hs]; exact Bool.false_ne_true)
theorem State.ttPerform_max {ds : List DWord} (hk : o.kind = .max ds) : s.ttPerform st
    = if keyAbove (s.slot j).kind (ds.headD 0) ((s.slot j).word 0) then
        ((((s.ttPop st).ttNote o o.vslot st).ttSound j).setSlot j fun x => { x with payload := Vector.ofFn fun i : Fin 8 => ds.getD i 0, lastw := st }).grant o.group o.path 0 []
      else ((s.ttPop st).ttNote o o.vslot st).grant o.group o.path 1 [] := by
  unfold State.ttPerform
  rw [h]
  dsimp only
  rw [hd, hj, hk, if_neg (by decide)]
  rw [hk] at hs
  exact if_neg (by rw [hs]; exact Bool.false_ne_true)
theorem State.ttPerform_alight (hk : o.kind = .alight) : s.ttPerform st
    = (((((s.ttPop st).ttNote o o.vslot st).ttSound j).setSlot j fun x => { x with owner := 0xF, payload := Vector.replicate 8 0 }).setPart o.part fun p =>
        { p with vslots := drop o.vslot p.vslots }).grant o.group o.path 0 [] := by
  unfold State.ttPerform
  rw [h]
  dsimp only
  rw [hd, hj, hk, if_neg (by decide)]
  rw [hk] at hs
  exact if_neg (by rw [hs]; exact Bool.false_ne_true)
end
end

/-! A board (R222). -/

section
variable {kind : Nat} (hk : o.kind = .board kind)
include hk

theorem State.ttPerform_boards {n : Nat} (hn : (s.part o.part).freeVslot = some n) (hfree : (s.slot (s.passing st)).owner = 0xF) (hq : o.queuedAt < s.now) {u : State}
    (hu : u = ((s.ttPop st).ttSound (s.passing st)).setSlot (s.passing st) fun _ => { owner := o.part, kind := kind, rev := 0, lastw := st }) : s.ttPerform st
      = (((if st = 0 then { u with revAt := s.now + 1 } else u).setPart o.part fun p => { p with vslots := put n (s.passing st) p.vslots }).ttNote o n st).grant
          o.group o.path 0 [BitVec.ofNat 32 n] := by
  subst hu
  have hj : s.ttSlot st o = some (s.passing st) := by
    unfold State.ttSlot
    rw [hk]
    exact if_pos (by simp [hfree, hq])
  have hd : s.ttDue st = true := by
    unfold State.ttDue
    rw [h]
    dsimp only
    rw [hk, hj]
    simp
  unfold State.ttPerform
  rw [h]
  dsimp only
  rw [hd, hj, hk, if_neg (by decide)]
  dsimp only
  rw [hn]
theorem State.ttPerform_board_fails
    (hf : (s.part o.part).freeVslot = none ∨ o.queuedAt + 192 ≤ s.now ∧ (s.slot (s.passing st)).owner ≠ 0xF) :
    s.ttPerform st = (s.ttPop st).grant o.group o.path 1 [0xFFFFFFFF] := by
  have hd : s.ttDue st = true := by
    unfold State.ttDue
    rw [h]
    dsimp only
    rw [hk]
    obtain hnone | ⟨hturn, -⟩ := hf
    · simp [hnone]
    · simp [hturn]
  unfold State.ttPerform
  rw [h]
  dsimp only
  rw [hd, hk, if_neg (by decide)]
  obtain hnone | ⟨-, htaken⟩ := hf
  · rw [hnone]
    generalize s.ttSlot st o = x
    cases x <;> rfl
  · have hj : s.ttSlot st o = none := by
      unfold State.ttSlot
      rw [hk]
      exact if_neg (by simp [htaken])
    rw [hj]
end
end
end

/-! ### The instructions' ways through their stations (R222 to R225) -/

section
variable (s : State) (d a b : BitVec 6) (c h r q : Bool) (w : BitVec 3)

theorem exec_ttboard (i : BitVec 11) : exec (.ttboard d i) s = execTtboard d i s := rfl
theorem exec_ttalight : exec (.ttalight a) s = execTtalight a s := rfl
theorem exec_ttread : exec (.ttread d a h q) s = execTtread d a h q s := rfl
theorem exec_ttcas : exec (.ttcas d a b r q w) s = execTtcas d a b r q w s := rfl
theorem exec_ttmax : exec (.ttmax a b r q) s = execTtmax a b r q s := rfl
theorem exec_ttadd : exec (.ttadd d a b c r q w) s = execTtadd d a b c r q w s := rfl
end
theorem tt_faults {i : Instr} {s : State} {ok : Bool} {uses : List Use} {v : Option Word} {acq rel : Bool} {kind : State → TTKind} {n : Nat} {ws : List Word}
    {done : State → Nat → List Word → State} (he : exec i s = s.ttOp ok uses v acq rel kind done) (ha : s.answer = some (n, ws)) :
    (n = 3 → exec i s = .next (s.raise { code := 0x0C, detail := 3, mask := s.exm }))
    ∧ (n = 7 → exec i s = .next (s.raise { code := 0x0D, detail := 7, mask := s.exm })) := by
  unfold State.ttOp at he
  rw [ha] at he
  constructor <;> (rintro rfl; exact he)

/-- Settles O47: the way of each instruction into its station's queue and what it does with the answer, then each operation as its slot passes. -/
theorem turntable : Obligations.Turntable := by
  refine ⟨?_, ?_, ?_, ?_, ?_, ?_, ?_, ?_, ?_, ?_, ?_, ?_, ?_, ?_, ?_⟩
  · exact fun s d i ha hc hi => ttOp_queues (exec_ttboard ..) ha hc rfl hi nofun fun _ _ _ => rfl
  · rintro s a v rfl ha hc h64
    exact ttOp_queues (exec_ttalight ..) ha hc rfl rfl (by rintro x ⟨⟩; exact h64) fun _ _ _ => rfl
  · rintro s d a h q v rfl ha hc h64 hd
    exact ttOp_queues (exec_ttread ..) ha hc rfl hd (by rintro x ⟨⟩; exact h64) fun _ _ _ => rfl
  · rintro s d a b r q w v rfl ha hc h64 hd
    exact ttOp_queues (exec_ttcas ..) ha hc (scalars_append (blockUse_scalar d 2) (blockUse_scalar b 2)) hd (by rintro x ⟨⟩; exact h64) fun u hm hn => by
      rw [State.rpair_congr hm hn, State.rpair_congr hm hn]
  · rintro s a b r q v rfl ha hc h64 hb
    exact ttOp_queues (exec_ttmax ..) ha hc (blockUse_scalar b _) hb (by rintro x ⟨⟩; exact h64) fun u hm hn => by
      rw [State.rblock_congr hm hn]
  · rintro s d a b c r q w v rfl ha hc h64 hd
    exact ttOp_queues (exec_ttadd ..) ha hc (blockUse_scalar b _) hd (by rintro x ⟨⟩; exact h64) fun u hm hn => by
      rw [State.rs_congr hm hn, State.rpair_congr hm hn]
  · intro s d a b i h c r q w n ws ha h3 h7 hlen
    exact ⟨answered_bit hlen (ttOp_done (exec_ttboard s d i) ha h3 h7 :), answered_none (ttOp_done (exec_ttalight s a) ha h3 h7 :),
      answered_words hlen (ttOp_done (exec_ttread s d a h q) ha h3 h7 :), answered_bit hlen (ttOp_done (exec_ttcas s d a b r q w) ha h3 h7 :),
      answered_bit0 (ttOp_done (exec_ttmax s a b r q) ha h3 h7 :), answered_words hlen (ttOp_done (exec_ttadd s d a b c r q w) ha h3 h7 :)⟩
  · rintro s a v rfl hc h64 hv
    have he := ttwait_eq hc h64 hv
    refine ⟨fun hl => ?_, fun k c hl => ?_⟩
    · rw [hl] at he
      exact Ends.of (.of_me rfl) rfl he
    · rw [hl] at he
      split
      next hn => exact WaitsFor.of rfl (he.trans (next_of (if_pos hn)))
      next hn => exact Ends.of (.of_me rfl) rfl (he.trans (next_of (if_neg hn)))
  · intro s d a b i h c r q w x n ws ha hx
    simp only [List.mem_cons, List.not_mem_nil, or_false] at hx
    obtain rfl | rfl | rfl | rfl | rfl | rfl := hx
    · exact tt_faults (exec_ttboard ..) ha
    · exact tt_faults (exec_ttalight ..) ha
    · exact tt_faults (exec_ttread ..) ha
    · exact tt_faults (exec_ttcas ..) ha
    · exact tt_faults (exec_ttmax ..) ha
    · exact tt_faults (exec_ttadd ..) ha
  · intro s st o os j h hl hp hq hb
    obtain ⟨hd, hj⟩ := perform_due h hl hp hq hb
    refine ⟨fun hs => next_of (State.ttPerform_struck h hd hj hb hs), fun hs u x hu hx => ?_⟩
    subst hu hx
    exact ⟨fun _ hk => next_of (State.ttPerform_read h hd hj hs hk), fun _ _ _ hk => next_of (State.ttPerform_cas h hd hj hs hk),
      fun _ _ _ hk => next_of (State.ttPerform_add h hd hj hs hk), fun _ hk => next_of (State.ttPerform_max h hd hj hs hk),
      fun hk => next_of (State.ttPerform_alight h hd hj hs hk)⟩
  · exact fun s st o os h hb hl => next_of (State.ttPerform_unmapped h hb hl)
  · exact fun s st o os kind h hk => ⟨fun n u hn hfree hq hu => next_of (State.ttPerform_boards h hk hn hfree hq hu),
      fun hf => next_of (State.ttPerform_board_fails h hk hf)⟩
  · exact fun s st h => next_of (State.ttPerform_waits h)
  · exact fun s slot hs hp hr => next_of (if_pos (by simp [hs, hp, hr]))
  · refine fun s slot h => next_of (if_neg ?_)
    obtain hp | hr := h
    · simp [hp]
    · simp [hr]

end Sys2Proof.Machine
end

section
/-! SUPPORT. Vertical FIFOs and mailboxes (O48). -/

namespace Sys2Proof.Machine

section
variable {s : State}

/-! ### Vertical FIFOs (R227, R228, R382) -/

/-- A group that has taken vector results and then scalar ones completes with both. -/
theorem State.retire_ownV {q v w : State} {d : Done} {S : Nat → Word} {V : Nat → Nat → Word} (hq : q.me = s.me) (a : VectorsOnly q v) (b : ScalarsOnly v w)
    (hS : ∀ n, w.me.sreg n = S n) (hV : ∀ n k, v.me.vlane n k = V n k) (hd : d.target = none) :
    OwnV s (w.retire d) S V s.me.cm ∧ (w.retire d).others = q.others := by
  have hpaths : w.me.paths = s.me.paths := b.paths.trans (a.paths.trans (by rw [hq]))
  have hcur : w.me.cur = s.me.cur := b.cur.trans (a.cur.trans (by rw [hq]))
  refine ⟨⟨fun n => (Group.sreg_congr (by simp) n).trans (hS n), fun n k => (Group.vlane_congr (by simp [b.v]) n k).trans (hV n k), by simp [b.p, a.p, hq],
    by simp [b.cm, a.cm, hq], by simp [b.fpsf, a.fpsf, hq], by simp [b.gstat, a.gstat, hq], by simp [b.laneCtr, a.laneCtr, b.scalarCtr, a.scalarCtr, hq],
    by simp [b.special, a.special, hq], ?_⟩, (State.retire_others ..).trans (b.others.trans a.others)⟩
  have hgo := w.retire_goes d
  rw [hd, State.pc_congr hpaths hcur] at hgo
  exact State.goesTo_congr hpaths hcur hgo
/-- The oldest entry of the FIFO to the issuing tile has been taken, `es` being the others: a permit is on its way back, and the group acquires (R382). -/
def State.popped (s : State) (es : List (List Word)) : State :=
  ((s.setChannel (partner s.me.tile) fun c => { c with fifo := es, back := c.back + 1, taken := c.taken + 1 }).moveUp 9 s.me.tile 0 32 512).acquire 2
theorem State.popped_me (es : List (List Word)) : (s.popped es).me = s.me := (State.acquire_me ..).trans ((moveUp_me ..).trans (setChannel_me ..))
section
variable {d b : BitVec 6} {n : Bool}

theorem vpush_eq {r : State} {a : BitVec 6} (ha : vr a = true) (hc : s.clear false [.v a.toNat] = true) (hr : r = s.seen [.exm, .v a.toNat]) :
    exec (.vpush d a n) s = .next (
      if !r.stackedPartner then r.fail { code := 0x0C, detail := 6, mask := r.active }
      else if r.pairGated r.me.tile then r.pushed d 2
      else if 1 ≤ (r.channel r.me.tile).held then
        ((r.release 2).setChannel r.me.tile fun c => { c with held := c.held - 1, sent := c.sent + 1, link := c.link ++
          [(List.range r.me.width.lanes).map fun k => if r.active.getLsbD k then r.me.vlane a.toNat k else 0] }).pushed d 0
      else if n then r.pushed d 1
      else r.block .fifoSpace) := by
  subst hr
  exact next_of (State.checked_clear ha hc)
/-- VPOP of a tile in a stacked cluster comes to the oldest entry of its partner's channel. -/
theorem vpop_eq (hd : vr d = true) (hc : s.clear false [] = true) (hs : s.stackedPartner = true) : exec (.vpop d b n) s = .next (
    match (s.channel (partner s.me.tile)).fifo with
    | e :: es =>
      if !State.rowsFor [] [d.toNat] s then s.noRows [] [d.toNat]
      else if s.fifoStruck s.me.tile s.active != 0 then s.fail { code := 0x0D, detail := 8, mask := s.fifoStruck s.me.tile s.active }
      else
        (((State.allocRows [d.toNat] (s.popped es)).writeLanes d.toNat s.active fun k => e.getD k 0).putS b.toNat 0 clsNONE).retire { beats := beatsOf s.active }
    | [] =>
      if s.pairGated s.me.tile && (s.channel (partner s.me.tile)).link == [] then s.popFailed b 2
      else if n then s.popFailed b 1
      else s.block .fifoEntry) := by
  refine next_of ((State.checked_own hd hc (by simp)).trans ?_)
  rw [if_neg (by simp [hs])]
  rfl
/-- The state in which an entry has been taken: its group gets the entry's words in its active lanes, and the status. -/
theorem popped_own {q : State} {act : LaneMask} {f : Nat → Word} {beats : Nat} (hq : q.me = s.me) (hd : d.toNat < 48) :
    OwnV s ((((State.allocRows [d.toNat] q).writeLanes d.toNat act f).putS b.toNat 0 clsNONE).retire { beats := beats }) (s.scalarsWith [b.toNat] [0])
        (fun m l => if m = d.toNat ∧ act.getLsbD l then f l else s.me.vlane m l) s.me.cm
    ∧ ((((State.allocRows [d.toNat] q).writeLanes d.toNat act f).putS b.toNat 0 clsNONE).retire { beats := beats }).others = q.others := by
  obtain ⟨alloc, lanes0, -, rows⟩ := State.allocRows_lanes [d.toNat] q
  obtain ⟨write, -, lanes1⟩ := State.writeLanes_lanes (State.allocRows [d.toNat] q) d.toNat act f (rows _ (by simp) hd)
  have vec := alloc.trans write
  refine State.retire_ownV hq vec (State.putS_only ..) (fun m => ?_) (fun m l => ?_) rfl
  · rw [State.putS_sreg _ _ _ _ _ b.isLt, Group.sreg_congr (vec.sc.trans (by rw [hq])) m]
    simp [State.scalarsWith]
  · rw [lanes1, lanes0, hq]
    by_cases hm : m = d.toNat <;> simp [hm]
theorem popFailed_ends {x : Nat} {i : Instr} (he : exec i s = .next (s.popFailed b x)) : Ends i s s (S := s.scalarsWith [b.toNat] [BitVec.ofNat 32 x]) :=
  Ends.puts (ds := [_]) (ws := [_]) (.of_me rfl) (nodup_one _) rfl (reg_lt b) rfl he
end
/-- A channel is changed by what the change makes of it. -/
theorem State.setChannel_congr {tile : Nat} {f g : Channel → Channel} (h : f (s.channel tile) = g (s.channel tile)) : s.setChannel tile f = s.setChannel tile g := by
  unfold State.setChannel
  rw [h]
theorem fifoEntryLand_eq {tile : Nat} {e : List Word} {es : List (List Word)} {u : State} (h0 : (s.channel tile).stale = 0) (hl : (s.channel tile).link = e :: es)
    (hu : u = s.sound 9 (partner tile) (32 * (s.channel tile).fifo.length) 32) : exec (.fifoEntryLand tile) s = .next (u.setChannel tile fun c =>
      if 1 ≤ c.dead then { c with link := es, back := c.back + 1, dead := c.dead - 1 } else { c with link := es, fifo := c.fifo ++ [e] }) := by
  subst hu
  refine next_of ((if_neg (by rw [h0]; decide)).trans ?_)
  rw [hl]

/-! ### Mailboxes (R229, R393) -/

variable {a b d : BitVec 6} {n : Bool} {id : Nat}

theorem State.release_mailbox (x : Nat) : (s.release x).mailbox id = s.mailbox id :=
  congrArg (fun l : List (Nat × Mailbox) => lookD l id {})
    (congrArg State.mailboxes (State.release_within (s := s) (W := fun _ => True) (fun _ _ _ _ => trivial) x).1.rest :)
theorem State.release_now (x : Nat) : (s.release x).now = s.now :=
  (congrArg State.now (State.release_within (W := fun _ => True) (fun _ _ _ _ => trivial) x).1.rest : _)
theorem State.message_congr {u : State} (hm : u.me = s.me) (hn : u.now = s.now) : u.message a = s.message a :=
  List.map_congr_left fun _ _ => State.rs_congr hm hn _
theorem State.storeMail_me (m : MailSlot) : (s.storeMail id m).me = s.me := sound_me ..
theorem mailed_ends {i : Instr} {u : State} {failed : Bool} (h : u.me = s.me) (he : exec i s = .next (u.mailed failed)) : Ends i s u (cm := s.cmWith 0 failed) :=
  Ends.bit (.of_me h) rfl rfl he
/-- The 16 words of an entry that a take has taken, and its bit of CM. -/
theorem taken_ends {i : Instr} {u : State} {ws : List Word} (h : u.me = s.me) (hd : block d = true) (hl : ws.length = 16)
    (he : exec i s = .next ((u.putWords d.toNat ws).mailed false)) :
    Ends i s u (S := s.scalarsWith ((List.range 16).map (d.toNat + ·)) ws) (cm := s.cmWith 0 false) := by
  have h64 := block_lt hd hl
  rw [putWords_eq] at he
  rw [hl] at he h64
  exact Ends.putsBit (.of_me h) (names_nodup _ _) (by simp [hl]) h64 rfl rfl he
/-- A post that does not come back on the grant of a reserved entry. -/
theorem mbpost_eq {r : State} (h : s.answer = none ∨ s.reservedBox = none) (hr : r = s.stalePost) (hid : id = (s.rs b.toNat).toNat)
    (hok : (block a && mailboxId (s.rs b.toNat)) = true) (hc : r.clear true (.s b.toNat :: (List.range 16).map fun k => .s (a.toNat + k)) = true) :
    exec (.mbpost a b n) s = .next (
      if r.myPart.ownsMailbox id then
        let u := r.release 3
        if !n && !u.waitOver u.me .postTable then u.block .postTable
        else if (u.mailbox id).slots.length < 8 then (u.storeMail id { data := s.message a }).mailed false
        else if n then u.mailed true
        else (u.setMailbox id fun m => { m with posts := m.posts ++ [{ group := s.me.seq, path := s.me.cur, data := s.message a }] }).block (.mailbox id false)
      else r.raise { code := 0x0C, detail := 3, mask := r.exm }) := by
  have hme : r.me = s.me := hr ▸ stalePost_me s
  have hnow : r.now = s.now := hr ▸ stalePost_now s
  have hrs := State.rs_congr hme hnow b.toNat
  have hum : (r.release 3).me = s.me := (r.release_me 3).trans hme
  have hgo : exec (.mbpost a b n) s = .next (r.onMailbox (block a) ((List.range 16).map fun k => .s (a.toNat + k)) b fun id s =>
      let m := s.mailbox id
      let s := s.release 3
      if !n && !(s.waitOver s.me .postTable) then s.block .postTable
      else if m.slots.length < 8 then (s.storeMail id { data := s.message a }).mailed false
      else if n then s.mailed true
      else (s.setMailbox id fun m => { m with posts := m.posts ++ [{ group := s.me.seq, path := s.me.cur, data := s.message a }] }).block (.mailbox id false)) := by
    subst hr
    refine next_of ?_
    obtain h | h := h
    · rw [h]
    · rw [h]
      cases s.answer <;> rfl
  refine hgo.trans (next_of ((onMailbox_ok (by rw [hrs]; exact hok) hc (by simp [Use.isVector])).trans ?_))
  rw [hrs, ← hid]
  dsimp only
  rw [State.release_mailbox, State.message_congr hum ((r.release_now 3).trans hnow)]
  simp only [hum]
theorem mbtake_eq (ha : s.answer = none) (hid : id = (s.rs b.toNat).toNat) (hok : (block d && mailboxId (s.rs b.toNat)) = true) (hc : s.clear true [.s b.toNat] = true) :
    exec (.mbtake d b n) s = .next (
      if s.myPart.ownsMailbox id then
        match (s.mailbox id).ready[(s.mailbox id).takes.length]? with
        | some e =>
          if s.mailStruck id (s.mailbox id).takes.length then s.fail { code := 0x0D, detail := 8, mask := s.exm }
          else (((s.takeMail id (s.mailbox id).takes.length).acquire 3).putWords d.toNat e.data).mailed false
        | none =>
          if n then s.mailed true
          else (s.setMailbox id fun m => { m with takes := m.takes ++ [(s.me.seq, s.me.cur)] }).block (.mailbox id true)
      else s.raise { code := 0x0C, detail := 3, mask := s.exm }) := by
  subst hid
  refine next_of ?_
  rw [ha]
  exact onMailbox_ok hok hc rfl
theorem mbtake_answered {c : Nat} {ws : List Word} (ha : s.answer = some (c, ws)) (h8 : c ≠ 8) :
    exec (.mbtake d b n) s = .next (((s.acquire 3).putWords d.toNat ws).mailed false) := by
  refine next_of ?_
  rw [ha]
  split
  next h => exact absurd (congrArg Prod.fst (Option.some.inj h)) h8
  next h => cases h; rfl
  next h => cases h
end

/-- Settles O48: a pair's FIFO at both its ends and on its way, then a mailbox's posts, takes and grants. The model's choices are DETAIL 8 for an uncorrectable entry of
either (log entry 148; R343 gives it no kind), that entries of a cluster which has ended are discarded as they land (log entry 71), and that a granted post delivers what
its post table has held since it issued (log entry 149); the older epoch is R384's and R396's. -/
theorem fifosAndMailboxes : Obligations.FifosAndMailboxes := by
  refine ⟨?_, ?_, ?_, ?_, ?_, ?_, ?_, ?_, ?_, ?_, ?_⟩
  · intro s r d a n ha hc hr
    have he := vpush_eq (d := d) (n := n) ha hc hr
    refine ⟨fun hs => he.trans (next_of (if_pos (by rw [hs]; rfl))), fun hs tile ht => ?_⟩
    subst ht
    rw [if_neg (by simp [hs])] at he
    split
    next hg => exact pushed_own rfl (he.trans (next_of (if_pos hg)))
    next hg =>
      rw [if_neg hg] at he
      split
      next hh => exact pushed_own ((setChannel_me ..).trans (r.release_me 2)) (he.trans (next_of (if_pos hh)))
      next hh =>
        rw [if_neg hh] at he
        split
        next hn => exact pushed_own rfl (he.trans (next_of (if_pos hn)))
        next hn => exact ⟨_, he.trans (next_of (if_neg hn)), State.block_blocks rfl _⟩
  · intro s d b n hd hc hs ch c hch hcc
    subst hch hcc
    have he := vpop_eq (b := b) (n := n) hd hc hs
    refine ⟨fun e es hf hrows => ⟨fun hst => ?_, fun hst => ?_⟩, fun hf => ?_⟩
    · rw [hf] at he
      refine he.trans (next_of ((if_neg (by simp [hrows])).trans (if_pos (by simpa using hst))))
    · rw [hf] at he
      obtain ⟨own, rest⟩ := popped_own (d := d) (b := b) (act := s.active) (f := fun k => e.getD k 0) (beats := beatsOf s.active) (s.popped_me es) (by simpa [vr, small] using hd)
      exact ⟨_, he.trans (next_of ((if_neg (by simp [hrows])).trans (if_neg (by simp [hst])))), rest, own⟩
    · rw [hf] at he
      split
      next hg => exact popFailed_ends (he.trans (next_of (if_pos hg)))
      next hg =>
        split
        next hn => exact popFailed_ends (he.trans (next_of ((if_neg hg).trans (if_pos hn))))
        next hn => exact WaitsFor.of rfl (he.trans (next_of ((if_neg hg).trans (if_neg hn))))
  · exact fun s d b n hd hc hs => next_of ((State.checked_own hd hc (by simp)).trans (if_pos (by rw [hs]; rfl)))
  · intro s d w hc
    constructor <;> exact Ends.puts (ds := [_]) (ws := [_]) (lat := clsNONE) (d := { stall := stallOf w }) (.of_me rfl) (nodup_one _) rfl (reg_lt d) rfl
      (next_of (checked_scalar rfl hc rfl))
  · refine fun s tile => ⟨fun h => next_of (if_pos h), fun h0 e es u hl hu => ?_, fun h0 hl => ?_⟩
    · have hch : u.channel tile = s.channel tile := hu ▸ sound_channel ..
      have he := fifoEntryLand_eq h0 hl hu
      refine ⟨fun hdead => he.trans (next_of (State.setChannel_congr (if_neg ?_))), fun hdead => he.trans (next_of (State.setChannel_congr (if_pos ?_)))⟩
      · rw [hch, hdead]; decide
      · rw [hch]; exact hdead
    · refine next_of ((if_neg (by rw [h0]; decide)).trans ?_)
      rw [hl]
  · exact fun s tile => ⟨fun h => next_of (if_pos h), fun h0 h => next_of ((if_neg (by rw [h0]; decide)).trans (if_pos h)),
      fun h0 h => next_of ((if_neg (by rw [h0]; decide)).trans (if_neg (by rw [h]; decide)))⟩
  · intro s r u a b n id hid h hr hok hc
    have he := mbpost_eq (n := n) h hr hid hok hc
    refine ⟨fun ho => he.trans (next_of (if_neg (by simp [ho]))), fun ho hu => ?_⟩
    have hum : u.me = s.me := hu ▸ (r.release_me 3).trans (hr ▸ stalePost_me s)
    rw [if_pos ho, ← hu] at he
    dsimp only at he
    split
    next hw => exact WaitsFor.of hum (he.trans (next_of (if_pos hw)))
    next hw =>
      rw [if_neg hw] at he
      split
      next hroom => exact mailed_ends ((State.storeMail_me _).trans hum) (he.trans (next_of (if_pos hroom)))
      next hroom =>
        rw [if_neg hroom] at he
        split
        next hn => exact mailed_ends hum (he.trans (next_of (if_pos hn)))
        next hn => exact WaitsFor.of (u := u.setMailbox _ _) hum (he.trans (next_of (if_neg hn)))
  · intro s a b n id ha hb
    refine mailed_ends rfl (next_of ?_)
    obtain ⟨x, hx⟩ := Option.isSome_iff_exists.mp ha
    rw [hx, hb]
  · intro s d b n id hid ha hok hc
    have he := mbtake_eq (n := n) ha hid hok hc
    refine ⟨fun ho => he.trans (next_of (if_neg (by simp [ho]))), fun ho k hk => ?_⟩
    subst hk
    rw [if_pos ho] at he
    refine ⟨fun e hready hl => ?_, fun hready => ?_⟩
    · rw [hready] at he
      exact ⟨fun hst => he.trans (next_of (if_pos hst)), fun hst => taken_ends ((State.acquire_me ..).trans (takeMail_me ..)) (Bool.and_eq_true_iff.mp hok).1 hl
        (he.trans (next_of (if_neg (by simp [hst]))))⟩
    · rw [hready] at he
      split
      next hn => exact mailed_ends rfl (he.trans (next_of (if_pos hn)))
      next hn => exact WaitsFor.of (u := s.setMailbox _ _) rfl (he.trans (next_of (if_neg hn)))
  · refine fun s d b n c ws ha => ⟨fun h8 => next_of ?_, fun h8 hd hl => taken_ends (s.acquire_me 3) hd hl (mbtake_answered ha h8)⟩
    rw [ha, h8]
    rfl
  · refine fun s id => ⟨fun t ts e es ht hr => next_of ?_, fun h => ⟨fun x hx => next_of ?_, fun hx => next_of ?_⟩⟩
    · dsimp only
      rw [ht, hr]
    · dsimp only
      rw [hx]
      obtain h | h := h <;> rw [h]
      cases (s.mailbox id).takes <;> rfl
    · dsimp only
      rw [hx]
      obtain h | h := h <;> rw [h]
      cases (s.mailbox id).takes <;> rfl

end Sys2Proof.Machine
end
